-- ==== Sys2Proof/Word.lean ====
section
/-! DEFINITION. The word types of the BM64-IL model: what the manual treats as bits (register contents of a
compute unit, bytes of memory). Counts, indices, sample indices and register-field values are natural numbers. -/

namespace Sys2Proof

/-- A byte of a memory (R170). -/
abbrev Byte := BitVec 8

/-- A 32-bit word: an A register, a lane of an F register, a register of BAR0. -/
abbrev Word := BitVec 32

/-- A 64-bit F register: lane 0 in bits 31..0, lane 1 in bits 63..32 (R170). -/
abbrev Dword := BitVec 64

/-- A sparse table: the entries that differ from the table's default, by strictly rising key. -/
abbrev Tab (α : Type) := List (Nat × α)

/-- A field of a BAR0 register: the register's offset, the field's lowest bit and its width. A 64-bit pair is one
field at its LO half's offset. -/
structure Fld where
  off : Nat
  lo : Nat
  w : Nat
  deriving DecidableEq, Repr

/-- Access codes (R14). -/
inductive Acc where
  | ro | rw | w1c | wo | ws
  deriving DecidableEq, Repr

/-- Entries of the Power-up column (R15). -/
inductive PowerUp where
  | num (n : Nat)
  | restored
  | live
  deriving DecidableEq, Repr

/-- A row of a register table: a field repeated in up to two dimensions, each a stride and a count. -/
structure RegRow where
  base : Nat
  s1 : Nat
  n1 : Nat
  s2 : Nat
  n2 : Nat
  lo : Nat
  w : Nat
  acc : Acc
  pup : PowerUp
  pair : Bool
  deriving DecidableEq, Repr

end Sys2Proof
end

