-- ==== Sys2Proof/Syntax.lean ====
section
/-! DEFINITION. The commands of the block: one constructor of `Instr` for each row of the opcode table, with the
operands each row names. An instance of a port, ring, cluster or register bank is a `Fin` of its count, so a command
names no instance the manual does not give. Data that arrives with a command (an image, a frame, a sensor reading) is
an operand; what the engine works out itself is not. -/

namespace Sys2Proof

/-- Status codes (R448). -/
inductive Status where
  | ok | late | order | empty | noHeadroom | windowFault | badSignature | refused | deferred | splitImage | suspect
  | partly | notOwner | busy | aborted
  deriving DecidableEq, Repr

/-- The path a command came by: a command ring 0–7 or an urgent slot 0–63 (R449, R459). -/
inductive Src where
  | ring (c : Fin 8)
  | urgent (slot : Fin 64)
  deriving DecidableEq, Repr

/-- The common part of a descriptor (R434): where it came from, TAG, FLAGS and TARGET. -/
structure CmdHdr where
  src : Src := .ring 0
  tag : Nat := 0
  flags : Nat := 0
  target : Nat := 0
  deriving DecidableEq, Repr

/-- A signature block with what the Ritadom core's cryptography finds in it (R736): the checks of R738 are made on it. -/
structure SigBlock where
  /-- MAGIC, FORMAT and the reserved bytes are as R736 gives. -/
  formOk : Bool := true
  kind : Nat := 1
  /-- 0 Jarralia, 1 owner. -/
  signer : Nat := 1
  /-- KEY_ID names a key that may sign the object. -/
  keyOk : Bool := true
  version : Nat := 0
  /-- 0: any engine of the owner, else an identity digest. -/
  bind : Nat := 0
  /-- DIGEST: SHA-384 of the object. -/
  digest : Nat := 0
  /-- DIGEST matches the object and SIG verifies. -/
  sigOk : Bool := true
  deriving DecidableEq, Repr

/-! ### Compute units (R170–R271) -/

/-- One operation at issue: the unit (0–511 by R6, 512–515 the servo units), the guard, the register fields of R177,
and what the operation's bundle says once it is complete. -/
structure Op where
  u : Fin 516
  pred : Fin 8 := 0
  d : Fin 64 := 0
  a : Fin 64 := 0
  b : Fin 64 := 0
  m : Fin 4 := 0
  /-- Last operation of its bundle: the bundle's end is processed after it (R197, R202). -/
  last : Bool := true
  /-- ROT of the bundle (R176). -/
  rot : Bool := false
  /-- An M-slot operation stands in M1 (R236; its SLOT code of R210). -/
  second : Bool := false
  deriving DecidableEq, Repr

/-- What the memory's SECDED finds in the words an access delivers (R293). -/
inductive Ecc where
  | clean
  | corrected (n : Nat)
  | uncorrectable
  deriving DecidableEq, Repr

/-- What the memory behind the cluster DMA's transfer reports in a port cycle (R315, R331); `bad` lists the package-DRAM units that are
delivered as zero. -/
structure RemoteErr where
  err : Ecc := .clean
  bad : List Nat := []
  deriving DecidableEq, Repr

/-- The gap before a unit's next bundle, and whether the fetch of that bundle finds a parity error (R156, R207). -/
structure GapFetch where
  unit : Fin 516
  parity : Bool := false
  deriving DecidableEq, Repr

/-- A phase comparison (R382, R393): the phase error, and whether the edge compared is that of a VSYNC pulse. -/
structure PhaseSample where
  err : Int
  vsync : Bool := false
  deriving DecidableEq, Repr

/-- The target field of a branch, CALL or BRC (R264, R265). -/
inductive BrTarget where
  | addr (t : Fin 1024)
  | reg (r : Fin 32)
  deriving DecidableEq, Repr

/-- The count of a LOOP: a register or a 20-bit immediate (R268). -/
inductive LoopCount where
  | imm (c : Fin 1048576)
  | reg (r : Fin 32)
  deriving DecidableEq, Repr

/-! ### Schedules, images and host transfers (R139, R306, R313–R322, R333–R336, R444) -/

/-- A reservation of a firing (R139, R142, R289): a transfer between the cluster and a remote space. -/
structure Reservation where
  /-- SPACE of R286. -/
  space : Nat := 0
  /-- DIR of R286: true is shared to remote. -/
  out : Bool := false
  /-- Global cluster index for SPACE 4. -/
  target : Nat := 0
  remoteLo : Nat := 0
  remoteHi : Nat := 0
  firstTick : Nat := 0
  lastTick : Nat := 0
  bytesPerTick : Nat := 0
  headBytesPerTick : Nat := 0
  deriving DecidableEq, Repr

/-- A glaze job (R306). -/
structure GlazeJob where
  listAddr : Nat := 0
  count : Nat := 0
  stateBase : Nat := 0
  startCycle : Nat := 0
  deriving DecidableEq, Repr

/-- A tap list: a range of the region's tap table (R322), by the address of its first entry in delay memory. -/
structure TapList where
  addr : Nat := 0
  count : Nat := 0
  deriving DecidableEq, Repr

/-- An output destination of a firing (R157, R159): one channel's B samples a block in a stage, a delay line, the package
DRAM or the shared memory of another cluster. -/
structure OutDest where
  /-- SPACE of R286: 1 output stage, 2 delay memory of the region, 3 package DRAM, 4 another cluster's shared memory. -/
  space : Nat := 1
  /-- Global cluster index for SPACE 4. -/
  target : Nat := 0
  /-- Destination address (R66) for SPACE 1, whose place in the output stage is its stage offset (R288); base of the line, or address
  of the block. -/
  addr : Nat := 0
  /-- Samples of the line the destination lies in, by SI modulo this length; 0: the block stands at `addr`. -/
  line : Nat := 0
  deriving DecidableEq, Repr

/-- A firing entry (R139, R274, R275). -/
structure FiringEntry where
  cluster : Fin 64 := 0
  index : Fin 4 := 0
  startTick : Nat := 0
  baseLoad : Nat := 0
  headShare : Nat := 0
  outBytes : Nat := 0
  energyNJ : Nat := 0
  seqCycles : Nat := 32
  slotTable : List Nat := []
  reservations : List Reservation := []
  /-- Positions in the image's firing list of the firings whose output this one reads. -/
  deps : List Nat := []
  glaze : Option GlazeJob := none
  taps : Option TapList := none
  /-- HANDOFF slots the images declare for this firing (R304). -/
  handoffSlots : Nat := 0
  /-- Entry address, TVEC and TEN of the eight units (R175). -/
  entries : List Nat := []
  tvecs : List Nat := []
  tens : List Nat := []
  /-- Output destinations (R157, R287). -/
  outputs : List OutDest := []
  deriving DecidableEq, Repr

/-- A cluster entry (R139). -/
structure ClusterEntry where
  cluster : Fin 64 := 0
  hp : Option Nat := none
  /-- Program images of the eight units, by digest. -/
  images : List Nat := []
  /-- The images declare themselves state-compatible (R104, R153). -/
  compat : Bool := false
  /-- Stage table of R288: declared address, shared-memory address of its entry, and of the paired entry. -/
  stageTable : List (Nat × Nat × Option Nat) := []
  /-- Bytes of declared carried state (R776). -/
  carried : Nat := 0
  deriving DecidableEq, Repr

/-- A region assignment with its rotation entry and delay lines (R139, R313, R780). -/
structure RegionEntry where
  region : Fin 8 := 0
  domain : Option (Fin 3) := none
  /-- 0: 400, 1: 600, 2: 800, 3: 1,000 MHz. -/
  setPoint : Nat := 3
  rotation : Option Nat := none
  /-- Base address and length in samples of each delay line. -/
  lines : List (Nat × Nat) := []
  sincTaps : Nat := 0
  cubicTaps : Nat := 0
  tapLists : Nat := 0
  deriving DecidableEq, Repr

/-- The shares of a domain (R139), with its rate and block size (R108) and its upstream charges per frame (check 9). -/
structure DomainShare where
  domain : Fin 3 := 0
  rate : Nat := 96000
  block : Nat := 16
  starts : Nat := 0
  crossbar : Nat := 0
  dram : Nat := 0
  hostLink : Nat := 0
  powerMW : Nat := 0
  dramBytes : Nat := 0
  upstreamBytes : Nat := 0
  /-- Frequency offset of a pull that is in force under the image, in DCO units (R401, R719). -/
  pull : Int := 0
  deriving DecidableEq, Repr

/-- Switch-frame entries of a cluster whose programs change (R139, R153). -/
structure SwitchEntry where
  cluster : Fin 64 := 0
  loadBytes : Nat := 0
  startTicks : List Nat := []
  deriving DecidableEq, Repr

/-- Where the layout places an object: the objects `first .. first + count - 1` of a class, the cluster and firing that
hold them, their domain and what doubling one of them costs (R90, R102, R146). -/
structure ObjectPlace where
  cls : Nat := 1
  first : Nat := 0
  count : Nat := 0
  domain : Fin 3 := 0
  cluster : Fin 64 := 0
  firing : Fin 4 := 0
  dupCycles : Nat := 0
  /-- Duplicated bytes of each reservation of that firing, by its position. -/
  dupBytes : List Nat := []
  deriving DecidableEq, Repr

/-- The parameter slot of a handle in a cluster's shared memory (R300). -/
structure SlotMap where
  handle : Nat := 0
  cluster : Fin 64 := 0
  addr : Nat := 0
  deriving DecidableEq, Repr

/-- A synchronous bridge of a schedule: the domains it joins, and the firing of the destination domain that runs its polyphase
program (R110). -/
structure SyncBridge where
  src : Fin 3 := 0
  dst : Fin 3 := 0
  cluster : Fin 64 := 0
  firing : Fin 4 := 0
  deriving DecidableEq, Repr

/-- A schedule image (R139). -/
structure SchedImage where
  sig : SigBlock := {}
  shares : List DomainShare := []
  regions : List RegionEntry := []
  clusters : List ClusterEntry := []
  firings : List FiringEntry := []
  switches : List SwitchEntry := []
  layout : List ObjectPlace := []
  slots : List SlotMap := []
  bridges : List SyncBridge := []
  /-- Servo program by digest, and the cycle budget, entry address, TVEC and TEN of the four servo units (R648). -/
  servoProg : Option Nat := none
  servoBudgets : List Nat := []
  servoEntries : List Nat := []
  servoTvecs : List Nat := []
  servoTens : List Nat := []
  deriving DecidableEq, Repr

/-- A program image for units or servo units (R51, R174). -/
structure ProgImage where
  sig : SigBlock := {}
  digest : Nat := 0
  bytes : Nat := 0
  /-- The bundles from address 0. -/
  code : List (BitVec 128) := []
  compat : Bool := false
  /-- Owner classes 0x20–0x3F that the image declares (R87). -/
  classes : List Nat := []
  deriving DecidableEq, Repr

/-- One run of a scene or a parameter list (R336). -/
structure Run where
  /-- A program-swap item in place of values: global cluster index, unit and image digest (R347; log entry 44). -/
  swap : Option (Fin 64 × Fin 8 × Nat) := none
  handle : Nat := 0
  eqPower : Bool := false
  ramp : Option Nat := none
  values : List Word := []
  deriving DecidableEq, Repr

/-- A scene image (R335). -/
structure SceneImage where
  sig : SigBlock := {}
  bytes : Nat := 0
  formOk : Bool := true
  runs : List Run := []
  deriving DecidableEq, Repr

/-- The content of a settings base (R705): restored register fields by `Fld.key`, the route table, parameters, patches, the
active schedule and its program set, each MPLL's DCO word, and the time record: warmer count, PTP seconds and frequency error. -/
structure Settings where
  regs : Tab Nat := []
  route : Tab Nat := []
  params : Tab (Option Word) := []
  patch : Tab (Nat × Bool) := []
  /-- Restored fields that the base holds no value for (R810), by `Fld.key`. -/
  absent : List Nat := []
  sched : Option SchedImage := none
  pset : Nat := 0
  dco : Tab Nat := []
  warm : Nat := 0
  ptpSec : Nat := 0
  warmErr : Int := 0
  deriving DecidableEq, Repr

/-- The items of an owner policy (R741). -/
structure Policy where
  strict : Bool := false
  hostServo : Bool := false
  pinLatch : Bool := false
  hushGroups : BitVec 64 := 0
  /-- Output group of each destination address; group 0 where unlisted. -/
  groups : Tab Nat := []
  dmaBase : Nat := 0
  dmaSize : Nat := 0
  hostStandby : Bool := false
  exportPlain : Bool := false
  hostFormat : Bool := false
  hostDelete : Bool := false
  /-- Module-maker keys, and class actions and requirements as SURF_POLICY_ACT and _SE hold them; WARN for every class by
  default. -/
  moduleKeys : List Nat := []
  actions : Nat := 0x55555555
  needSe : Nat := 0
  macsec : List Nat := []
  ptpAuth : Bool := false
  exportKey : Bool := false
  /-- A secret part, whether it decrypts, and the cue keys it carries. -/
  secret : Bool := false
  secretOk : Bool := true
  cueKeys : List Nat := []
  /-- MACsec or PTP keys differ from those in force. -/
  keysChanged : Bool := false
  deriving DecidableEq, Repr

/-- What a downstream image transfer carries (R444, R688, R748), with the signature block of a signed object. -/
inductive ImageData where
  | sched (i : SchedImage)
  | prog (i : ProgImage)
  | scene (i : SceneImage)
  /-- Samples of an imported take, track by track (R688). -/
  | samples (l : List (List Word))
  | policy (sig : SigBlock) (p : Policy)
  /-- DEVNUM and digest of every assigned entry, in the order of the list (R744). -/
  | members (sig : SigBlock) (l : List (Nat × Nat))
  | house (sig : SigBlock) (x : Settings)
  /-- Firmware, with the standard programs it contains (R708). -/
  | firmware (sig : SigBlock) (programs : List ProgImage)
  /-- Target state and EPOCH of a KIND 9 object (R740). -/
  | lifeCycle (sig : SigBlock) (target epoch : Nat) (reservedOk : Bool)
  /-- The challenge a KIND 10 object carries (R755). -/
  | unlock (sig : SigBlock) (challenge : Nat)
  deriving DecidableEq, Repr

/-- One change of a PARAM_SET: handle and value (R440). -/
structure ParamItem where
  handle : Nat := 0
  value : Word := 0
  deriving DecidableEq, Repr

/-- One change of a ROUTE: destination and source address (R442). -/
structure RouteItem where
  dst : Nat := 0
  source : Nat := 0
  deriving DecidableEq, Repr

/-- The list of an inline or indirect descriptor (R440): the indirect form names host memory. -/
inductive ListAt where
  | inline
  | indirect (addr : Nat)
  deriving DecidableEq, Repr

/-- A descriptor as the command front end fetches it (R434): the payload is bytes 16–63. -/
structure Descriptor where
  opcode : Nat := 0
  flags : Nat := 0
  tag : Nat := 0
  target : Nat := 0
  payload : List Byte := []
  deriving DecidableEq, Repr

/-- A bulk buffer entry (R481). -/
structure BulkEntry where
  addr : Nat := 0
  len : Nat := 0
  tag : Nat := 0
  last : Bool := false
  notify : Bool := false
  stamp : Bool := false
  stampId : Nat := 0
  deriving DecidableEq, Repr

/-- A host DMA descriptor (R474). -/
structure DmaDesc where
  host : Nat := 0
  engine : Nat := 0
  length : Nat := 4
  /-- DIR: true is engine to host. -/
  up : Bool := false
  swap : Fin 4 := 0
  last : Bool := true
  irq : Bool := false
  next : Nat := 0
  deriving DecidableEq, Repr

/-! ### Pours (R337, R353) -/

/-- A POUR descriptor with the lists it names, as read through the host windows (R337). -/
structure PourReq where
  template : Bool := false
  dryRun : Bool := false
  /-- Reserved fields and the other flags are 0. -/
  reservedOk : Bool := true
  scene : Nat := 0xFFFF
  devsel : Nat := 0
  listAddr : Nat := 0
  listLen : Nat := 0
  runs : List Run := []
  devAddr : Nat := 0
  devs : List Nat := []
  templateNo : Nat := 0
  /-- END_SI; none: all ones. -/
  endSi : Option Nat := none
  ramp : Nat := 0
  law : Nat := 0
  policy : Nat := 0
  deriving DecidableEq, Repr

/-- A pour message between devices (R353): KIND 1 POUR, 2 CANCEL, 3 REPORT. -/
structure PourMsg where
  kind : Nat := 1
  origin : Nat := 0
  tag : Nat := 0
  issue : Nat := 0
  si : Nat := 0
  rate : Nat := 96000
  scene : Nat := 0
  policy : Nat := 1
  law : Nat := 0
  endSi : Option Nat := none
  ramp : Nat := 0
  status : Status := .ok
  /-- Pour state of a REPORT, as its code. -/
  pstate : Nat := 0
  deriving DecidableEq, Repr

/-! ### Network (R483–R522) -/

/-- A stream record (R494); the reserved bytes and flags are 0 where `reservedOk`. -/
structure StreamRec where
  stream : Nat := 0
  ipv6 : Bool := false
  vlanOn : Bool := false
  dup : Bool := false
  float : Bool := false
  portB : Bool := false
  /-- 0 L16, 1 L24, 2 L32, 3 AM824. -/
  format : Nat := 1
  channels : Nat := 1
  ptime : Nat := 0
  domain : Nat := 0
  rate : Nat := 96000
  first : Nat := 0
  pt : Nat := 96
  dscp : Nat := 0
  vlan : Nat := 0
  dport : Nat := 5004
  sport : Nat := 5004
  ssrc : Nat := 0
  rtpOffset : Nat := 0
  linkOffset : Nat := 0
  dstA : Nat := 0
  srcA : Nat := 0
  dstB : Nat := 0
  srcB : Nat := 0
  reservedOk : Bool := true
  deriving DecidableEq, Repr

/-- A classifier rule record (R507). -/
structure RuleRec where
  index : Nat := 32
  ports : Nat := 0
  cls : Nat := 3
  police : Bool := false
  count : Bool := false
  stamp : Bool := false
  cue : Bool := false
  /-- MATCH, bit 10 ENABLE. -/
  mtch : Nat := 0
  etype : Nat := 0
  vid : Nat := 0
  pcp : Nat := 0
  dscp : Nat := 0
  proto : Nat := 0
  srcLen : Nat := 0
  dstLen : Nat := 0
  sportLo : Nat := 0
  sportHi : Nat := 0
  dportLo : Nat := 0
  dportHi : Nat := 0
  src : Nat := 0
  dst : Nat := 0
  rate : Nat := 0
  burst : Nat := 1
  cueEntry : Nat := 0
  reservedOk : Bool := true
  deriving DecidableEq, Repr

/-- A cue entry (R510). -/
structure CueRec where
  entry : Nat := 0
  key : Nat := 0
  cueNo : Nat := 0
  template : Nat := 0
  enable : Bool := false
  delay : Nat := 0
  source : Nat := 0
  reservedOk : Bool := true
  deriving DecidableEq, Repr

/-- The RTP part of an audio frame: header fields, and the samples as their wire words, channel by channel within each
sample. `length` is the payload's bytes. -/
structure RtpData where
  version : Nat := 2
  pt : Nat := 96
  ssrc : Nat := 0
  seq : Nat := 0
  stamp : Nat := 0
  length : Nat := 0
  words : List Nat := []
  deriving DecidableEq, Repr

/-- A cue datagram (R511); `tagOk`: its tag verifies under the entry's key. -/
structure CueData where
  formOk : Bool := true
  cueNo : Nat := 0
  seq : Nat := 0
  source : Nat := 0
  si : Nat := 0
  rate : Nat := 96000
  tagOk : Bool := true
  deriving DecidableEq, Repr

/-! ### The Wamund link (R523–R562) -/

/-- A TIME cell (R545); timestamps and MARK_TIME in 1/16 ns. -/
structure TimeCell where
  tseq : Nat := 0
  prevTx : Nat := 0
  echoSeq : Nat := 0
  echoRx : Nat := 0
  markSi : Nat := 0
  markTime : Nat := 0
  rate : Nat := 96000
  block : Nat := 16
  aligned : Bool := false
  ptp : Bool := false
  thops : Nat := 0
  refDev : Nat := 0
  gm : Nat := 0
  deriving DecidableEq, Repr

/-- The header of an audio bundle (R548). -/
structure BundleHdr where
  flow : Nat := 0
  channels : Nat := 1
  block : Nat := 16
  si : Nat := 0
  rate : Nat := 96000
  deriving DecidableEq, Repr

/-- Forwarded parameter changes (R556). -/
structure ParamFwd where
  origin : Nat := 0
  tag : Nat := 0
  si : Nat := 0
  rate : Nat := 96000
  ramp : Nat := 0
  eqPower : Bool := false
  reservedOk : Bool := true
  items : List ParamItem := []
  deriving DecidableEq, Repr

/-- What a MIRROR carries: an accepted state change with its target SI (R772). -/
inductive MirrorCmd where
  | params (ramp : Nat) (eqPower : Bool) (target : Nat) (items : List ParamItem)
  | routes (ramp : Nat) (eqPower : Bool) (target : Nat) (items : List RouteItem)
  /-- A pour, with the runs of its list where it names no scene, or a cancel. -/
  | pour (m : PourMsg) (runs : List Run)
  /-- A schedule that was admitted, with FLAGS and its switch SI, all ones where it is not armed; and the switch-only form. -/
  | schedule (i : SchedImage) (flags target : Nat)
  | arm (target : Nat)
  | readmit (indices : List (Fin 68)) (target : Nat)
  /-- Any other change; `held`: the standby holds every image it names. -/
  | other (held : Bool)
  deriving DecidableEq, Repr

/-- A sequencer entry as control state carries it (R776). -/
structure SeqItem where
  handle : Nat := 0
  cluster : Nat := 0
  slot : Option Nat := none
  target : Nat := 0
  len : Nat := 0
  shape : Nat := 0
  v1 : Word := 0
  raw : Word := 0
  rank : Nat := 1
  order : Nat := 0
  pour : Option (Nat × Nat) := none
  bounce : Bool := false
  deriving DecidableEq, Repr

/-- A timed patch change as control state carries it (R776). -/
structure PatchItem where
  dst : Nat := 0
  source : Nat := 0
  target : Nat := 0
  len : Nat := 0
  eqPower : Bool := false
  order : Nat := 0
  domain : Nat := 0
  looped : Bool := false
  pour : Option (Nat × Nat) := none
  deriving DecidableEq, Repr

/-- A pending program swap as control state carries it (R347, R776). -/
structure SwapItem where
  cluster : Nat := 0
  unit : Nat := 0
  digest : Nat := 0
  domain : Nat := 0
  target : Nat := 0
  pour : Option (Nat × Nat) := none
  deriving DecidableEq, Repr

/-- An armed pour as control state carries it (R776). -/
structure PourItem where
  origin : Nat := 0
  tag : Nat := 0
  issue : Nat := 0
  t : Nat := 0
  scene : Nat := 0
  runs : List Run := []
  endSi : Option Nat := none
  ramp : Nat := 0
  law : Nat := 0
  strict : Bool := false
  deriving DecidableEq, Repr

/-- The control state of a frame boundary (R776, step 1): every parameter and patch, what is pending after it, and the first
mirror number that follows it. -/
structure ControlState where
  si : Nat := 0
  params : Tab (Option Word) := []
  patch : Tab (Nat × Bool) := []
  entries : List SeqItem := []
  patches : List PatchItem := []
  swaps : List SwapItem := []
  pours : List PourItem := []
  templates : Tab (Option (CmdHdr × PourReq)) := []
  mirror : Nat := 0
  deriving DecidableEq, Repr

/-- A pair message (R762): KIND 0x10 RENEW, 0x11 ACK, 0x12 DIGEST, 0x13 MIRROR, 0x14 VERDICT, 0x15 CLAIM, 0x16 GRANT,
0x17 YIELD, 0x18 STATE, 0x19 REPLICA. MODE, LEASE_MS and GUARD_MS of a member's own settings travel with it (R761). -/
structure PairMsg where
  kind : Nat := 0x10
  origin : Nat := 0
  pair : Nat := 0
  ready : Bool := false
  suspect : Bool := false
  errorFound : Bool := false
  refuse : Bool := false
  epoch : Nat := 0
  seq : Nat := 0
  si : Nat := 0
  /-- DIGEST: the first group and the digests from it on. -/
  group : Nat := 0
  digests : List Nat := []
  mirror : Option MirrorCmd := none
  /-- REPLICA (R775), STATE (R776, R778). -/
  replica : Option Settings := none
  control : Option ControlState := none
  /-- A witness that serves eight pairs (R762). -/
  busy : Bool := false
  mode : Nat := 0
  leaseMs : Nat := 4
  guardMs : Nat := 1
  /-- The conditions of R354 hold for the message. -/
  authOk : Bool := true
  deriving DecidableEq, Repr

/-- A message of the CTRL, BULK or HANDSHAKE kind, and what the cells of the other kinds carry. -/
inductive WlPayload where
  | none
  | finished
  | time (t : TimeCell)
  | pour (m : PourMsg) (authOk : Bool)
  | pair (m : PairMsg)
  | paramFwd (p : ParamFwd)
  | paramAck (origin tag : Nat) (status : Status)
  | unknown
  /-- A cell of a bundle: its header in the first one, and the samples the cell carries. -/
  | audio (h : Option BundleHdr) (words : List Word)
  /-- A cell of a BULK message that is not its last. -/
  | bulk
  /-- The last cell of a distributed image, and the answer to one. -/
  | image (origin tag : Nat) (i : ProgImage)
  | imageAnswer (origin tag : Nat) (status : Status)
  deriving DecidableEq, Repr

/-- What a frame carries above its addresses; for one of another kind, the bytes of the whole frame. -/
inductive FrameBody where
  | rtp (d : RtpData)
  /-- A PTP message; `authOk`: its authentication TLV passes (R413); `step`: where the servo that it reaches steps the PTP counter, the
  value it steps it to, in 1/16 ns (R409). -/
  | ptp (authOk : Bool) (step : Option Nat)
  | cue (d : CueData)
  /-- ARP, ND, IGMP, MLD or EAPOL, the last marked. -/
  | control (eapol : Bool)
  /-- An engine control datagram: a message between family devices, with the device that its channel belongs to (R354, R506, R541). -/
  | message (src : Nat) (m : WlPayload)
  | other (bytes : List Byte)
  deriving DecidableEq, Repr

/-- A received frame as the classifier sees it (R504–R507). `secure`: it arrived on a live MACsec association. `stamp`: its
ingress timestamp in 1/16 ns. `tail`: its last byte came within 2 µs of the coming frame boundary (R497). -/
structure NetFrame where
  length : Nat := 64
  vid : Nat := 0
  pcp : Nat := 0
  etype : Nat := 0x0800
  dscp : Nat := 0
  proto : Nat := 17
  ipv6 : Bool := false
  src : Nat := 0
  dst : Nat := 0
  sport : Nat := 0
  dport : Nat := 0
  secure : Bool := false
  stamp : Nat := 0
  tail : Bool := false
  body : FrameBody := .other []
  deriving DecidableEq, Repr

/-- A cell (R528, R529); `tagOk`: its GCM tag verifies, `reservedOk`: its reserved values and fields are 0. -/
structure Cell where
  /-- TYPE: 1 LINK, 2 DATA, 3 HANDSHAKE. -/
  type : Nat := 2
  vc : Nat := 0
  bcast : Bool := false
  hops : Nat := 1
  first : Bool := true
  last : Bool := true
  nak : Bool := false
  dst : Nat := 0
  src : Nat := 0
  seq : Nat := 0
  ack : Nat := 0
  credit : List Nat := [0, 0, 0, 0]
  len : Nat := 0
  reservedOk : Bool := true
  tagOk : Bool := true
  payload : WlPayload := .none
  /-- The port whose buffer a relayed cell has not left (R534). -/
  held : Option Nat := none
  deriving DecidableEq, Repr

/-- A flow record (R549). -/
structure FlowRec where
  flow : Nat := 0
  port : Nat := 0
  bcast : Bool := false
  peer : Nat := 0
  channels : Nat := 1
  first : Nat := 0
  domain : Nat := 0
  rate : Nat := 96000
  lw : Nat := 0
  reservedOk : Bool := true
  deriving DecidableEq, Repr

/-- What the handshake of a port ends with (R536, R537): accepted, or the refusal's reason. -/
structure AuthResult where
  peer : Nat := 0
  chainOk : Bool := true
  sigOk : Bool := true
  peerOwned : Bool := true
  sameOwner : Bool := true
  /-- The peer's identity digest. -/
  identity : Nat := 0
  finishedOk : Bool := true
  deriving DecidableEq, Repr

/-! ### Local inputs (R573, R584, R588) -/

/-- What a local input has received for the block that a frame boundary closes: the source address, the B words of the
wire (for a converter those of its last stage, R604; none for an AES3 channel, whose samples come from its converter), how many
subframes were replaced under R584, and the V and U bits of R588. For a converter `errors` counts saturated samples and `v` holds
the stages that saturated (R605); DAC n is channel 2 + n there. Of a serial channel `fs` is the rate in Hz that the engine measures
of its group's FS, 0 with no FS of N_b bit clocks (R598); none: nothing new is measured. -/
structure PortInput where
  addr : Nat := 0
  words : List Nat := []
  errors : Nat := 0
  v : Nat := 0
  u : Nat := 0
  fs : Option Nat := none
  deriving DecidableEq, Repr

/-! ### Modules and the surface (R627–R660) -/

/-- What the engine reads of a module (R629–R637): the bytes of its record, and what the checks that need a key find. -/
structure ModuleRead where
  present : Bool := false
  /-- The MIR device answers. -/
  answers : Bool := true
  mir : List Byte := []
  /-- KEY_ID is among the module-maker keys; the signature verifies; the challenge succeeds. -/
  keyKnown : Bool := false
  sigOk : Bool := false
  challengeOk : Bool := false
  deriving DecidableEq, Repr

/-- A SERVO_UP (R642): per fader, POS, TOUCH and VALID, and the module's STATUS; none for a missing or faulty frame. -/
structure ServoUp where
  faders : List (Nat × Bool × Bool) := []
  supplyGood : Bool := true
  deriving DecidableEq, Repr

/-- What a jack classification measures (R612), in Ω: tip, ring 1, and ring 2 to sleeve in either polarity. -/
structure JackLoads where
  tip : Nat := 0
  ring1 : Nat := 0
  /-- Ring 2 positive, and sleeve positive. -/
  ring2 : Nat := 0
  sleeve : Nat := 0
  deriving DecidableEq, Repr

/-- A drive as enumeration finds it (R661–R672). -/
structure DriveSeen where
  present : Bool := false
  /-- The conditions of R663 hold. -/
  usable : Bool := true
  extents : Nat := 0
  serial : Nat := 0
  /-- The store it belongs to and its member index; 0: none. -/
  store : Nat := 0
  index : Nat := 0
  count : Nat := 0
  /-- A key slot unwraps under this engine's identity (R672). -/
  keyOk : Bool := true
  /-- WIDTH and SPEED of the storage root port (R692). -/
  width : Nat := 2
  speed : Nat := 4
  deriving DecidableEq, Repr

/-! ### Power, start-up and resynchronisation (R699, R714, R776) -/

/-- The time record of a commit (R699): warmer count, PTP seconds of the same instant, warmer frequency error. -/
structure TimeRecord where
  warm : Nat := 0
  ptpSec : Nat := 0
  err : Int := 0
  deriving DecidableEq, Repr

/-- What a start finds (R698, R707, R709, R714): which firmware copies verify, whether the program set that the settings name
verifies, settings copies whose header fails, whether the warmer domain has lost supply; the warmer count, the time of R414 in
ns at which the SI counters start, and the milliseconds from power-good to the ends of steps 6 and 8. -/
structure StartFacts where
  fwA : Bool := true
  fwB : Bool := true
  psetOk : Bool := true
  badCopies : List Nat := []
  warmLost : Bool := false
  warm : Nat := 0
  ns : Nat := 0
  admitMs : Nat := 640
  audioMs : Nat := 650
  deriving DecidableEq, Repr

/-- Bytes of carried state (R776): 0 shared, 1 local, 2 glaze-state memory, and the address in the state's own numbering. -/
structure CarriedPart where
  space : Fin 3 := 0
  addr : Nat := 0
  bytes : List Byte := []
  deriving DecidableEq, Repr

/-- A host frame as its buffer holds it (R516, R517): its port, its source MAC, whether it is PTP or an engine control datagram,
its bytes without FCS, and the instant it leaves, in 1/16 ns. -/
structure HostFrameTx where
  port : Nat := 0
  srcMac : Nat := 0
  reserved : Bool := false
  length : Nat := 64
  stamp : Nat := 0
  deriving DecidableEq, Repr

/-- What a downstream bulk buffer holds: the last buffer of an image brings the image whole, with what a cold start after it
would find. -/
inductive BulkData where
  | bytes
  | image (i : ImageData) (f : StartFacts)
  | frame (x : HostFrameTx)
  deriving DecidableEq, Repr
/-- The commands: one constructor per row of the opcode table, in its order. -/
inductive Instr where
  /-- R238. Fused multiply-add d + a × b′, rounded once, on each lane. -/
  | fma (o : Op)
  /-- R238. Fused multiply-subtract d − a × b′, rounded once, on each lane. -/
  | fms (o : Op)
  /-- R238. Negated fused multiply-add −(d + a × b′), rounded once, on each lane. -/
  | fnma (o : Op)
  /-- R238. Two-lane floating-point multiply. -/
  | fmul (o : Op)
  /-- R238. Two-lane floating-point add. -/
  | fadd (o : Op)
  /-- R238. Two-lane floating-point subtract. -/
  | fsub (o : Op)
  /-- R224. Two-lane minimum, ordering −0 below +0 and following the NaN rules of R224. -/
  | fmin (o : Op)
  /-- R224. Two-lane maximum, ordering −0 below +0 and following the NaN rules of R224. -/
  | fmax (o : Op)
  /-- R239. Two-lane absolute value, handled as a floating-point operation. -/
  | fabs (o : Op)
  /-- R239. Two-lane negation, handled as a floating-point operation. -/
  | fneg (o : Op)
  /-- R241. Compares lane 0 of A with lane 0 of b′ and writes the selected condition to a predicate. -/
  | fcmp (o : Op)
  /-- R242. Selects b′ or a in each lane, according to the sign bit of d. -/
  | fsel (o : Op)
  /-- R243. Steps d by a toward b′ and lands on b′ exactly. -/
  | framp (o : Op)
  /-- R244. Clamps a to the interval ±|b′|. -/
  | fsat (o : Op)
  /-- R245. Replaces NaN, infinities and subnormals in each lane, as the output scrub does. -/
  | fscrub (o : Op)
  /-- R239. Two-lane floating-point move. -/
  | fmov (o : Op)
  /-- R238. Exchanges the two lanes of A into D. -/
  | fswap (o : Op)
  /-- R246. Converts each lane between binary32 and a signed 32-bit integer, as B[0] selects. -/
  | fcvt (o : Op)
  /-- R247. Reciprocal approximation, bit-identical on every unit. -/
  | frcp (o : Op)
  /-- R247. Reciprocal square-root approximation. -/
  | frsq (o : Op)
  /-- R247. Base-2 exponential approximation. -/
  | fexp2 (o : Op)
  /-- R247. Base-2 logarithm approximation. -/
  | flog2 (o : Op)
  /-- R249. Wrapping integer add that sets V on signed overflow. -/
  | add (o : Op)
  /-- R249. Wrapping integer subtract that sets V on signed overflow. -/
  | sub (o : Op)
  /-- R249. Saturating integer add. -/
  | adds (o : Op)
  /-- R249. Saturating integer subtract. -/
  | subs (o : Op)
  /-- R249. Wrapping integer negate. -/
  | neg (o : Op)
  /-- R249. Saturating integer negate. -/
  | negs (o : Op)
  /-- R249. Bitwise AND. -/
  | and (o : Op)
  /-- R249. Bitwise OR. -/
  | or (o : Op)
  /-- R249. Bitwise exclusive OR. -/
  | xor (o : Op)
  /-- R249. Bitwise complement. -/
  | not (o : Op)
  /-- R228. Logical shift left by the low 8 bits of the source. -/
  | shl (o : Op)
  /-- R228. Logical shift right with zero fill. -/
  | shr (o : Op)
  /-- R228. Arithmetic shift right with sign fill. -/
  | sar (o : Op)
  /-- R228. Rotate left by the amount mod 32. -/
  | rol (o : Op)
  /-- R249. Low 32 bits of a signed product. -/
  | mul (o : Op)
  /-- R249. High 32 bits of the signed 64-bit product. -/
  | mulh (o : Op)
  /-- R252. Signed divide that writes the quotient and remainder to a register pair. -/
  | divs (o : Op)
  /-- R252. Unsigned divide that writes the quotient and remainder to a register pair. -/
  | divu (o : Op)
  /-- R249. Signed integer minimum. -/
  | min (o : Op)
  /-- R249. Signed integer maximum. -/
  | max (o : Op)
  /-- R250. Integer compare that writes the selected condition to a predicate. -/
  | cmp (o : Op)
  /-- R251. Loads a sign-extended 12-bit immediate. -/
  | movi (o : Op) (imm : BitVec 12)
  /-- R253. Modular address update for circular buffers. -/
  | amod (o : Op)
  /-- R254. Reverses the low k bits of a. -/
  | bitrev (o : Op)
  /-- R256. Loads a local-memory word into an A register. -/
  | ldl32a (o : Op) (e : Ecc)
  /-- R256. Loads a local-memory word into both lanes of an F register. -/
  | ldl32f (o : Op) (e : Ecc)
  /-- R256. Loads a local-memory doubleword into an F register. -/
  | ldl64 (o : Op) (e : Ecc)
  /-- R256. Stores an A register to local memory. -/
  | stl32a (o : Op) (e : Ecc)
  /-- R256. Stores lane 0 of an F register to local memory. -/
  | stl32f (o : Op) (e : Ecc)
  /-- R256. Stores both lanes of an F register to local memory. -/
  | stl64 (o : Op)
  /-- R278. Loads a shared-memory word into an A register, through the unit's read buffer when it is out of slot. -/
  | lds32a (o : Op)
  /-- R278. Loads a shared-memory word into both lanes of an F register. -/
  | lds32f (o : Op)
  /-- R278. Loads a shared-memory doubleword into an F register. -/
  | lds64 (o : Op)
  /-- R281. Stores an A register to shared memory, through the unit's write buffer when it is out of slot. -/
  | sts32a (o : Op)
  /-- R281. Stores lane 0 of an F register to shared memory. -/
  | sts32f (o : Op)
  /-- R281. Stores both lanes of an F register to shared memory. -/
  | sts64 (o : Op)
  /-- R256. 256-bit broadcast load of four F registers from shared memory. -/
  | ldsB256 (o : Op)
  /-- R260. Reads the current value of a parameter slot and advances the slot by one sample. -/
  | ldp (o : Op)
  /-- R261. Removes the oldest entry from the unit's tap result FIFO. -/
  | ldt (o : Op)
  /-- R262. Moves one lane of an F register to an A register. -/
  | movfa (o : Op)
  /-- R262. Moves A registers into the lanes of an F register. -/
  | movaf (o : Op)
  /-- R265. Branches to the target after two delay bundles. -/
  | br (o : Op) (t : BrTarget)
  /-- R266. Branches when P[CP] equals SENSE. -/
  | brc (o : Op) (t : BrTarget) (cp : Fin 8) (sense : Bool)
  /-- R192. Pushes the return address and branches. -/
  | call (o : Op) (t : BrTarget)
  /-- R192. Pops an address from the return stack and branches to it. -/
  | ret (o : Op)
  /-- R268. Starts a hardware loop level, setting its count, start and end. -/
  | loop (o : Op) (level : Fin 4) (c : LoopCount) (fin : Fin 1024)
  /-- R194. Ends the unit's part in the firing; results in flight still land. -/
  | halt (o : Op)
  /-- R264. Makes a DEBUG trap pending with a 12-bit code. -/
  | trap (o : Op) (code : BitVec 12)
  /-- R187. Holds the unit at the cluster barrier. -/
  | sync (o : Op)
  /-- R188. Holds the unit until its cluster DMA transfers complete. -/
  | waitdma (o : Op)
  /-- R270. Reads a special register into an A register. -/
  | movs (o : Op) (sreg : Fin 256)
  /-- R270. Writes a special register from an A register; the write takes effect 2 cycles later. -/
  | movx (o : Op) (sreg : Fin 256)
  /-- R211. Returns from a trap handler, restoring LOOP_ACTIVE and issuing the bundle at TPC. -/
  | rett (o : Op)
  /-- R271. Writes a 64-bit immediate into an F register, or 32 bits into an A register. -/
  | longImmediate (o : Op) (isF : Bool) (imm : BitVec 64)
  /-- R181. An operation's result becomes visible once its latency has passed. -/
  | resultLands (u : Fin 516)
  /-- R209. At a trap boundary the unit takes the chosen pending or detected trap and enters the handler. -/
  | trapEntry (g : GapFetch)
  /-- R187. Once every unit has arrived or halted, the waiting units issue together. -/
  | syncRelease (c : Fin 64)
  /-- R188. The unit's last outstanding DMA transfer completes and issue resumes. -/
  | waitdmaRelease (u : Fin 516)
  /-- R24. All eight units have halted and the DMA drain is done, so the firing ends normally. -/
  | firingEnd (c : Fin 64)
  /-- R277. A read cycle of the shared-memory port serves the highest-priority granted read and merges same-word reads. -/
  | shmReadCycle (c : Fin 64) (t : Nat) (m : RemoteErr) (e : Ecc)
  /-- R280. A write cycle completes the highest-priority write; other writes are discarded or buffered. -/
  | shmWriteCycle (c : Fin 64) (t : Nat) (m : RemoteErr) (e : Ecc)
  /-- R289. The next issued descriptor is checked and its transfer begins once the previous one has ended. -/
  | dmaTransferStart (c : Fin 64)
  /-- R286. A cluster DMA transfer completes. -/
  | dmaTransferComplete (c : Fin 64) (e : Ecc) (bad : List Nat)
  /-- R294. During the guard phase, the Ritadom core copies 256 bytes of shared memory into FABRIC_CL_PEEK. -/
  | peekCopy (c : Fin 64)
  /-- R55. At each frame boundary the hub distributes the frame-start marker with the block's SI. -/
  | frameStartMarker (d : Fin 3) (inputs : List PortInput)
  /-- R402. At tick 0 of the clock-start phase the region ADPLL starts at its set point. -/
  | regionClockStart (g : Fin 8)
  /-- R402. The region ADPLL has stayed within ±1 % for 32 FRAME cycles. -/
  | adpllLock (g : Fin 8)
  /-- R403. With the ADPLL unlocked at the end of K, the region runs the frame on the bypass clock. -/
  | bypassFallback (g : Fin 8)
  /-- R404. 4 FRAME cycles above ±5 % move the region to the bypass clock. -/
  | adpllLossOfLock (g : Fin 8)
  /-- R292. The cluster wakes from retention during the preheat phase. -/
  | preheat (c : Fin 64)
  /-- R175. Execution begins: unit registers are reset and the program counter is set to the entry. -/
  | firingStart (c : Fin 64) (f : Fin 4) (codeOk : Bool) (corr : Nat) (bad : List Nat)
  /-- R312. A glaze section begins at its slot cycle, recomputes its targets and runs its ramp. -/
  | glazeSectionStart (c : Fin 64) (late : Bool)
  /-- R156. The cycle count reaches the budget and the firing is cut with cause BUDGET. -/
  | firingBudgetExhausted (c : Fin 64)
  /-- R156. The execution phase has not ended by its last tick, so the firing is cut with cause DEADLINE. -/
  | executionDeadline (c : Fin 64)
  /-- R135. The region clock stops at the end of the region's last firing window. -/
  | regionClockStop (g : Fin 8)
  /-- R150. A domain switches to the armed schedule at its first boundary at or after the switch SI. -/
  | scheduleSwitch (d : Fin 3)
  /-- R144. The Ritadom core finishes checks 1–9 and admits or refuses the schedule. -/
  | admissionComplete
  /-- R164. At its boundary a quarantined cluster is reloaded and cleared, and its QUAR bit is cleared. -/
  | readmission (d : Fin 3)
  /-- R781. At a rotation frame a cluster's state is copied to the spare, which takes the role. -/
  | spareRotation (g : Fin 8)
  /-- R783. The new spare's MBIST and LBIST end; a spare that fails is withdrawn. -/
  | spareTestDone (g : Fin 8) (pass : Bool)
  /-- R441. Applies a list of parameter changes at TARGET, accepted or refused as a whole. -/
  | paramSet (h : CmdHdr) (ramp : Nat) (l : ListAt) (items : List ParamItem)
  /-- R338. Validates and accepts a timed scene recall, or stores it as a template. -/
  | pour (h : CmdHdr) (r : PourReq)
  /-- R365. Cancels a pour at a cancel SI on every device it addressed. -/
  | pourCancel (h : CmdHdr) (tag : Nat)
  /-- R442. Changes patches with a crossfade, accepted or refused as a whole. -/
  | route (h : CmdHdr) (ramp : Nat) (law : Nat) (l : ListAt) (items : List RouteItem)
  /-- R124. Opens a meter subscription. -/
  | meterSubOpen (h : CmdHdr) (period : Nat) (addr : Nat) (points : List Nat) (buf : Nat)
  /-- R443. Closes a meter subscription. -/
  | meterSubClose (h : CmdHdr) (n : Nat)
  /-- R444. Transfers and verifies a DSP, servo or scene image. -/
  | progLoad (h : CmdHdr) (kind : Nat) (ring : Nat) (entry : Nat) (length : Nat)
  /-- R149. Loads a schedule image into the pending bank and starts admission. -/
  | schedAdmit (h : CmdHdr) (kind : Nat) (ring : Nat) (length : Nat)
  /-- R149. Arms an admitted, unarmed schedule with a switch SI. -/
  | schedAdmitArm (h : CmdHdr)
  /-- R162. Requests the re-admission of quarantined clusters or servo units. -/
  | schedAdmitReadmit (h : CmdHdr) (indices : List (Fin 68))
  /-- R689. Creates a new store over the attached drives. -/
  | storeFormat (h : CmdHdr)
  /-- R672. Fills a key slot for another engine. -/
  | storeShare (h : CmdHdr) (dev : Nat) (slot : Nat)
  /-- R690. Writes take directory records to host memory. -/
  | storeList (h : CmdHdr) (addr : Nat) (first : Nat) (count : Nat)
  /-- R674. Opens a take with its punch-in at TARGET. -/
  | storeRecIn (h : CmdHdr) (outSi : Option Nat) (maskAddr : Nat) (tracks : List (Fin 1024)) (domain : Nat) (name : List Byte)
  /-- R676. Sets the punch-out of an open take. -/
  | storeRecOut (h : CmdHdr) (tag : Nat)
  /-- R681. Starts playback of a take track on a playback track. -/
  | storePlay (h : CmdHdr) (no : Nat) (recTrack : Nat) (track : Nat) (offset : Nat) (len : Option Nat)
  /-- R682. Ends a play at TARGET. -/
  | storeStop (h : CmdHdr) (tag : Nat)
  /-- R687. Sends a take track to the host in plaintext or as wrapped extents. -/
  | storeExport (h : CmdHdr) (ring : Nat) (no : Nat) (track : Nat) (first : Nat) (len : Option Nat) (mode : Nat)
  /-- R688. Builds a new take from host plaintext. -/
  | storeImport (h : CmdHdr) (ring : Nat) (rate : Nat) (count : Nat) (length : Nat) (name : List Byte)
  /-- R689. Removes a closed take and deallocates its extents. -/
  | storeDelete (h : CmdHdr) (no : Nat)
  /-- R495. Configures or replaces a transmit stream. -/
  | netStreamTx (h : CmdHdr) (addr : Nat) (r : StreamRec)
  /-- R495. Configures or replaces a receive stream. -/
  | netStreamRx (h : CmdHdr) (addr : Nat) (r : StreamRec)
  /-- R495. Deletes a stream. -/
  | netStreamDel (h : CmdHdr) (dir : Nat) (n : Nat)
  /-- R522. Writes per-stream statistics records to host memory. -/
  | netStreamStat (h : CmdHdr) (dir : Nat) (first : Nat) (count : Nat) (addr : Nat)
  /-- R508. Writes or removes a classifier rule. -/
  | netClsRule (h : CmdHdr) (addr : Nat) (r : RuleRec)
  /-- R510. Configures a cue entry. -/
  | netCue (h : CmdHdr) (r : CueRec)
  /-- R518. Joins or leaves a multicast group for host traffic. -/
  | netJoin (h : CmdHdr) (port : Nat) (op : Nat) (addr : Nat) (group : Nat) (source : Nat)
  /-- R540. Writes entries of the Wamund route table. -/
  | netWlRoute (h : CmdHdr) (addr : Nat) (entries : List (Nat × Nat))
  /-- R550. Configures a Wamund transmit flow. -/
  | netWlFlowTx (h : CmdHdr) (addr : Nat) (r : FlowRec)
  /-- R550. Configures a Wamund receive flow. -/
  | netWlFlowRx (h : CmdHdr) (addr : Nat) (r : FlowRec)
  /-- R559. Deletes a Wamund flow. -/
  | netWlFlowDel (h : CmdHdr) (dir : Nat) (port : Nat) (src : Nat) (flow : Nat)
  /-- R551. Declares the AUDIO transit cells of a port. -/
  | netWlTransit (h : CmdHdr) (port : Nat) (cells : Nat)
  /-- R560. Forwards up to 24 parameter changes to a peer as PARAM_FWD. -/
  | netWlParam (h : CmdHdr) (dev : Nat) (ramp : Nat) (addr : Nat) (items : List ParamItem)
  /-- R557. Distributes a staged image to up to 64 peers. -/
  | netWlDistribute (h : CmdHdr) (digest : Nat) (addr : Nat) (peers : List Nat)
  /-- R750. Writes a signed attestation statement over a nonce. -/
  | trustAttest (h : CmdHdr) (nonce : BitVec 256) (addr : Nat)
  /-- R734. Claims an UNOWNED engine with the claim code and the owner key. -/
  | trustClaim (h : CmdHdr) (code : BitVec 64) (addr : Nat) (owner : Nat) (sigOk : Bool)
  /-- R732. Performs a life-cycle transition under a KIND 9 object and then a cold start. -/
  | trustRelease (h : CmdHdr) (ring : Nat) (length : Nat)
  /-- R743. Loads and commits an owner policy. -/
  | trustPolicy (h : CmdHdr) (ring : Nat) (length : Nat)
  /-- R744. Loads and commits a membership list. -/
  | trustMembers (h : CmdHdr) (ring : Nat) (length : Nat)
  /-- R708. Stores an owner-signed house scene. -/
  | trustHouse (h : CmdHdr) (ring : Nat) (length : Nat)
  /-- R752. Writes verified firmware into the copy that is not current. -/
  | trustFw (h : CmdHdr) (ring : Nat) (length : Nat)
  /-- R756. Writes the device certificate chain to host memory. -/
  | trustCert (h : CmdHdr) (addr : Nat)
  /-- R755. Returns a fresh debug-unlock challenge. -/
  | trustDebugChallenge (h : CmdHdr)
  /-- R755. Opens debug access with a signed KIND 10 object. -/
  | trustDebugUnlock (h : CmdHdr) (ring : Nat) (length : Nat)
  /-- R466. Hushes output groups, or releases the command or latched pin hush. -/
  | hush (h : CmdHdr) (groups : BitVec 64)
  /-- R446. Returns the latency of a routed path. -/
  | queryPath (h : CmdHdr) (dst : Nat) (src : Nat)
  /-- R446. Requests a 256-byte copy of cluster shared memory. -/
  | queryPeek (h : CmdHdr) (cluster : Nat) (addr : Nat)
  /-- R447. Clears the scrub and status-window registers of named clusters and regions at their next boundary. -/
  | queryClear (h : CmdHdr) (clusters : BitVec 64) (regions : BitVec 8)
  /-- R446. Returns the value that a parameter carries. -/
  | queryValue (h : CmdHdr) (handle : Nat)
  /-- R341. Compilation ends and the pour is ARMED or refused, and a REPORT is sent. -/
  | pourCompileDone
  /-- R354. A pour or cancel message from a peer is authenticated and accepted. -/
  | pourMessageReceived (m : PourMsg) (authOk : Bool)
  /-- R356. A REPORT from an addressed device arrives at the originator. -/
  | pourReportMessage (dev : BitVec 16) (m : PourMsg) (authOk : Bool)
  /-- R356. Every 1 ms without a first REPORT, the pour message is sent again over the network. -/
  | pourMessageResend (tag : BitVec 32) (dev : BitVec 16)
  /-- R363. At T, or at T′ when late, the pour's entries and crossfades take effect. -/
  | pourStart (origin : BitVec 16) (tag : BitVec 32)
  /-- R367. At cancel SI C the pour is removed, or its ramps are frozen. -/
  | pourCancelApply (origin : BitVec 16) (tag : BitVec 32)
  /-- R370. 200 ms after the last ramp end without a report, the device is reported as ABORTED with NO_REPLY. -/
  | pourReportTimeout (tag : BitVec 32) (dev : BitVec 16)
  /-- R383. A reference candidate has qualified for QUAL_TIME and may be selected. -/
  | candidateQualified (n : Fin 3) (k : Fin 8)
  /-- R383. A candidate is disqualified on loss; the MPLL moves to another candidate, HOLDOVER or REF_LOST. -/
  | candidateLoss (n : Fin 3) (k : Fin 8)
  /-- R384. With REVERT, a higher-priority candidate that has stayed qualified for WTR is selected. -/
  | revertWtrExpiry (n : Fin 3) (k : Fin 8)
  /-- R393. A phase comparison; in Ritadom mode the DCO word is written. -/
  | mpllComparison (n : Fin 3) (p : PhaseSample) (word : Int)
  /-- R388. N consecutive comparisons within WIN move the MPLL to LOCKED. -/
  | lockCriterion (n : Fin 3)
  /-- R389. 16 comparisons beyond 8 × WIN set UNLOCK and return the MPLL to ACQUIRE. -/
  | phaseExcursion (n : Fin 3)
  /-- R390. After N comparisons within WIN the loop bandwidth halves, and NARROW_DONE is set at FINAL. -/
  | bandwidthHalving (n : Fin 3)
  /-- R378. REF_XO has been stopped or off frequency for 100 µs; every output is gated and the event is posted. -/
  | refxoFail
  /-- R394. In host mode a written DCO word takes effect on the next FRAME tick. -/
  | clkMpllDcoWrite (n : Fin 3) (word : BitVec 32)
  /-- R400. Arms a roast profile at START_SI, or rejects it. -/
  | roastStart (n : Fin 3)
  /-- R400. Ends a running profile, holding the offset in force. -/
  | roastAbort (n : Fin 3) (ticks : Nat)
  /-- R399. The armed profile starts at the boundary of START_SI. -/
  | roastProfileBegin (n : Fin 3)
  /-- R398. A profile segment reaches its length and the next begins. -/
  | roastSegmentEnd (n : Fin 3)
  /-- R416. At the next boundary the SI counter and every queued timed item move by J × B. -/
  | renumbering (d : Fin 3) (delta : Int)
  /-- R415. After the glide the domain locks and sets ALIGNED, and ALIGN is posted. -/
  | alignComplete (d : Fin 3)
  /-- R412. The Ritadom core drains the timestamp queues and posts the TX_STAMP events requested. -/
  | txStampDrain (x : Fin 3)
  /-- R420. Arms or re-arms a time trigger. -/
  | triggerArm (k : Fin 8) (domain : Fin 4)
  /-- R420. Disarms a time trigger that has not fired. -/
  | triggerCancel (k : Fin 8)
  /-- R420. At the trigger's boundary FIRED is set and TIME_TRIG is posted. -/
  | triggerFire (k : Fin 8)
  /-- R802. Fills the time shadow registers from one FABRIC cycle. -/
  | timeSnap (sec : BitVec 48) (ns : BitVec 30) (frac : BitVec 4) (sp : Nat) (ss : Nat) (st : Nat)
  /-- R432. A doorbell write advances a ring's TAIL or HEAD, or is refused with RING_FAULT. -/
  | doorbell (value : BitVec 32)
  /-- R459. A non-zero COMMIT write takes an urgent slot. -/
  | urgentSlotCommit (slot : Fin 64) (d : Descriptor) (commit : BitVec 32)
  /-- R461. A taken urgent slot is dispatched ahead of the rings. -/
  | urgentDispatch
  /-- R438. A ring turn fetches, validates and dispatches one descriptor. -/
  | descriptorDispatch (d : Descriptor)
  /-- R439. A dispatched command finishes and its COMPLETION event is written. -/
  | commandCompletion
  /-- R453. When space returns on an event ring, EVENT_LOST and the held events are written. -/
  | eventHoldingDrain (e : Fin 4)
  /-- R454. After INTERVAL a vector may send a message for the entries written meanwhile. -/
  | msixModerationExpiry (v : Fin 64)
  /-- R427. A link-down or PCIe reset disables rings and windows and resets the HOST block. -/
  | hostLinkReset
  /-- R472. The link retrains to a lower rate; DEGRADED is set and LINK is posted. -/
  | linkRetrain (width : Fin 3) (speed : Fin 5)
  /-- R429. Enables or disables a ring and checks its placement. -/
  | hostRingCfgWrite (ring : Fin 16) (value : BitVec 32)
  /-- R457. Enables or disables a host window. -/
  | hostWinCtlWrite (k : Fin 16) (value : BitVec 32) (outstanding : Nat)
  /-- R457. After ENABLE is cleared, the window's outstanding requests complete and the held CTL read completes. -/
  | windowDrainDone (k : Fin 16)
  /-- R474. Starts a host DMA channel chain. -/
  | dmaChStart (n : Fin 32) (d : DmaDesc)
  /-- R478. Aborts a running DMA channel after its current burst. -/
  | dmaChAbort (n : Fin 32) (moved : Nat) (data : List Byte)
  /-- R477. A channel's read-back returns, so the descriptor completes and a record is written. -/
  | dmaDescriptorDone (n : Fin 32) (data : List Byte) (next : DmaDesc) (readBackOk : Bool)
  /-- R481. The engine finishes with a bulk buffer and writes DONE back. -/
  | bulkBufferConsumed (b : Fin 4) (e : BulkEntry) (x : BulkData)
  /-- R445. 1 s without a new buffer aborts an image transfer. -/
  | imageTransferTimeout (tag : BitVec 32)
  /-- R127. Every k frames a subscription's update is written into its half of the buffer. -/
  | meterUpdate (n : Fin 16) (values : List Word)
  /-- R465. HUSH_N has been low for 1 µs, so the pin hush is accepted. -/
  | hushNFall
  /-- R465. HUSH_N has been high for 1 µs, so an unlatched pin hush is released. -/
  | hushNRise
  /-- R464. A hush or release ramp begins at the next frame boundary of each destination's domain. -/
  | hushRampStart (d : Fin 3)
  /-- R504. A received frame is classified at line rate and delivered to its class or discarded. -/
  | netFrameReceived (x : Fin 3) (f : NetFrame)
  /-- R496. The packet of output SI o is sent once SI o + S is reached. -/
  | streamPacketTx (n : Fin 512)
  /-- R501. No in-time packet for NETx_LOSS.MS, or a first packet after a loss, posts STREAM_LOSS. -/
  | streamLoss (n : Fin 512)
  /-- R485. A module detected by MODABS is read and accepted or rejected. -/
  | netModuleInsert (x : Fin 3) (a0 : List Byte) (rateOk : Bool)
  /-- R485. The module's A2h page is read once per second. -/
  | netDdmPoll (x : Fin 3) (a2 : List Byte) (alarm : Bool) (los : Bool)
  /-- R519. A network port's link goes up or down. -/
  | netLinkChange (x : Fin 3) (up : Bool)
  /-- R515. MKA establishes or rolls a secure association. -/
  | macsecKeyAgreement (x : Fin 2) (rolled : Bool) (rxSc : Fin 65)
  /-- R526. Lane equalisation ends and the port enters ALIGN. -/
  | wlTrainDone (p : Fin 4)
  /-- R526. Block lock and deskew end and the port enters AUTH. -/
  | wlAlignDone (p : Fin 4)
  /-- R536. The handshake ends with FINISHED and the port goes UP, or is REFUSED. -/
  | wlAuthDone (p : Fin 4) (r : AuthResult)
  /-- R526. A bring-up state exceeds its time limit and the port returns to DOWN. -/
  | wlStateTimeout (p : Fin 4)
  /-- R526. After 100 ms, or 10 s from REFUSED, the port starts bring-up again. -/
  | wlRestartTimer (p : Fin 4)
  /-- R527. An UP port goes DOWN on lost lock, replays, tag failures, EN cleared or removal. -/
  | wlPortDown (p : Fin 4)
  /-- R530. A received cell is checked, accepted in SEQ order, delivered or relayed. -/
  | wlCellReceived (p : Fin 4) (c : Cell) (stamp : Nat) (nakFree : Bool) (tail : Bool)
  /-- R532. 2 µs without ACK progress replays from the oldest unacknowledged cell. -/
  | wlReplayTimeout (p : Fin 4)
  /-- R535. At each cell boundary the transmitter sends the highest-priority ready cell. -/
  | wlCellTx (p : Fin 4)
  /-- R545. A TIME cell is sent at each whole millisecond of PTP time. -/
  | wlTimeCellTx (p : Fin 4) (stamp : Nat) (markTime : Nat) (gm : Nat)
  /-- R547. No TIME cell for 4 ms disqualifies the WAMUND candidate. -/
  | wlTimeLoss (p : Fin 4)
  /-- R552. At each frame boundary every transmit flow queues its bundle. -/
  | wlBundleTx (d : Fin 3)
  /-- R561. A receive flow with no in-time bundle for WL_LOSS.MS is lost, and WL_FLOW_LOSS is posted. -/
  | wlFlowLoss (p : Fin 4) (src : Nat) (flow : Fin 256)
  /-- R560. No PARAM_ACK within 200 ms completes NET_WL_PARAM with ABORTED. -/
  | netWlParamTimeout (h : CmdHdr)
  /-- R562. A RETRAIN write returns the port to TRAIN. -/
  | wlRetrain (p : Fin 4)
  /-- R572. An enabled port starts at the first FS edge after its frame boundary. -/
  | aportStart (p : Fin 16)
  /-- R572. A port whose EN is cleared stops at the next boundary and sets STOPPED. -/
  | aportStop (p : Fin 16)
  /-- R577. An output buffer that is empty at an FS edge damages that period, and the port realigns. -/
  | aportUnderrun (p : Fin 16) (k : Nat) (moved : Nat)
  /-- R577. An input buffer that overflows damages that period, and the port realigns. -/
  | aportOverrun (p : Fin 16) (k : Nat) (moved : Nat)
  /-- R576. An FS edge at the wrong bit count sets FS_ERR and damages the period. -/
  | aportFramingError (g : Fin 4) (k : Nat)
  /-- R579. 8 FS periods with an inverted marker set PAIR_PHASE and PAIR_SWAP. -/
  | pairSwapDetect (p : Fin 16)
  /-- R583. Three clean Z preambles lock an AES3 receiver. -/
  | aesRxLock (n : Fin 8) (rate : Fin 7) (ratio : BitVec 32)
  /-- R583. Missing preambles or biphase errors lose lock, and the outputs fade. -/
  | aesRxLockLoss (n : Fin 8)
  /-- R586. A complete channel-status block is checked and captured, and AES_CS is posted on change. -/
  | aesCsBlock (n : Fin 8) (a : List Byte) (b : List Byte)
  /-- R587. Copies both channel-status captures into the shadow registers. -/
  | aesRxCsSnap (n : Fin 8)
  /-- R592. Sets PENDING so that the staging templates are copied at the next block start. -/
  | aesTxCommit (n : Fin 8)
  /-- R590. A transmitter begins a block with a Z preamble and adopts pending templates. -/
  | aesTxBlockStart (n : Fin 8)
  /-- R590. An enabled transmitter starts at the first SI multiple of 192 after its boundary. -/
  | aesTxStart (n : Fin 8)
  /-- R594. Every 100 ms an ASRC channel halves its loop bandwidth, down to FINAL. -/
  | asrcNarrow (a : Nat) (ratio : BitVec 32)
  /-- R594. At 25 Hz the channel releases output with a 32-sample fade-in. -/
  | asrcRelease (a : Nat)
  /-- R595. A phase error above one sample returns the loop to 100 Hz without muting. -/
  | asrcRetrack (a : Nat)
  /-- R595. A ratio jump or input loss fades the channel out and restarts tracking. -/
  | asrcRestart (a : Nat)
  /-- R606. Enabling or disabling a converter chain, or changing its preset, starts settling or a ramp to zero. -/
  | convEnWrite (c : Fin 4) (en : Bool) (preset : Fin 4) (k : Nat)
  /-- R606. A chain has settled, fades in, sets SETTLED and posts CONV. -/
  | chainSettled (c : Fin 4) (k : Nat)
  /-- R608. A RANGE_REQ write requests a new preamplifier range. -/
  | rangeRequest (n : Fin 2) (r : Fin 32) (k : Nat)
  /-- R608. At a zero crossing, or after 10 ms, the analogue gain changes. -/
  | rangeChange (n : Fin 2)
  /-- R609. When the analogue step reaches the output, the compensation steps and then ramps to 0 dB. -/
  | compensationStep (n : Fin 2) (k : Nat)
  /-- R611. A debounced HP_DET or TB_DET change is accepted. -/
  | jackDetectChange (tb : Bool) (inserted : Bool) (k : Nat)
  /-- R611. A removal edge ramps the DACs to zero and removes bias at once. -/
  | jackRemovalEdge (k : Nat)
  /-- R612. Accessory classification ends, sets TYPE and posts JACK. -/
  | jackClassified (l : JackLoads)
  /-- R613. A decoded button state that has held for 20 ms posts BUTTON. -/
  | buttonAccepted (ohms : BitVec 16) (k : Nat)
  /-- R614. With BTN_MUTE, a button level ramps the headset microphone to zero. -/
  | buttonLevelMute (n : Fin 2) (down : Bool) (k : Nat)
  /-- R618. Enabling a power-stage channel starts precharge; clearing EN ramps it down and releases the outputs. -/
  | psEnWrite (c : Fin 2) (en : Bool) (k : Nat)
  /-- R618. After precharge the channel begins modulation at the next frame boundary. -/
  | psPrechargeDone (c : Fin 2)
  /-- R620. 64 consecutive current-limited carrier cycles shut the channel down. -/
  | psShutdown (c : Fin 2)
  /-- R621. 200 ms after a shutdown the channel restarts, or enters LOCKOUT. -/
  | psRetry (c : Fin 2)
  /-- R621. 10 s of continuous running resets RETRY_USED. -/
  | retryUsedReset (c : Fin 2)
  /-- R622. VDD_PS out of range places the channels at high impedance. -/
  | psSupplyFault (mv : BitVec 16)
  /-- R622. VDD_PS in range for 10 ms restarts the channels. -/
  | psSupplyRestart (mv : BitVec 16)
  /-- R623. Every 1 ms the sensor sets the fold-back, or shuts down or restarts the stage. -/
  | psThermalRead (temp : BitVec 16) (mv : BitVec 16)
  /-- R631. Each module-bus slot is polled once a second and re-read on change. -/
  | modulePoll (slot : Fin 32) (mux : Bool) (r : ModuleRead)
  /-- R643. An enabled surface link aligns, enumerates its modules and reads their identity. -/
  | slEnumerate (p : Fin 8) (mods : List ModuleRead)
  /-- R660. A RESTART write enumerates the surface link again. -/
  | slRestart (p : Fin 8)
  /-- R644. At each 500 µs instant SYNC and SERVO_DN are sent and the servo period begins. -/
  | servoCycle (si : BitVec 64)
  /-- R645. A module's positions and touch states arrive. -/
  | servoUpReceived (p : Fin 8) (m : Fin 4) (u : Option ServoUp)
  /-- R656. Servo firings end, the drive is latched and fader changes are issued. -/
  | servoFiringEnd (k : Fin 4)
  /-- R645. 4 faulty SERVO_UP periods declare the module lost. -/
  | moduleLost (p : Fin 8) (m : Fin 4)
  /-- R646. A touch report makes the engine send RELEASE_DN and drop the drive. -/
  | touchUpReceived (f : Fin 256) (touched : Bool)
  /-- R650. A servo firing exhausts its budget, so its faders are released and the unit is quarantined. -/
  | servoCut (k : Fin 4)
  /-- R658. 400 periods off target without motion stall the fader. -/
  | faderStall (f : Fin 256)
  /-- R652. Commits the staged fader law, or rejects it. -/
  | lawCommit
  /-- R670. A drive presence change leads to enumeration and mounting or refusal. -/
  | storeDriveChange (n : Fin 8) (d : DriveSeen)
  /-- R678. A full 128 KiB chunk of a record track is written to its extent. -/
  | chunkWrite (no : Nat) (track : Fin 1024)
  /-- R679. A chunk still unwritten when its slot is needed is lost as a gap. -/
  | recordOverrun (no : Nat) (track : Fin 1024)
  /-- R680. Every JOURNAL_MS a journal record is cut at a frame boundary. -/
  | journalCut
  /-- R668. The record's writes and flushes complete and the record is committed. -/
  | journalCommit (lbas : Fin 16)
  /-- R677. At its SI a take opens and STORE_REC_IN completes. -/
  | punchIn (tag : BitVec 32)
  /-- R676. At its SI the take closes and STORE_TAKE is posted. -/
  | punchOut (no : Nat)
  /-- R681. At Q the playback track begins delivering take samples. -/
  | playStart (tag : BitVec 32)
  /-- R683. A chunk not buffered in time is concealed and counted. -/
  | playUnderrun (track : Fin 1024) (chunk : Nat)
  /-- R684. An absent member, or a command stuck for 1 s, closes takes and degrades the store. -/
  | storeMemberLost (m : Fin 8)
  /-- R685. A lost member returns and is replayed. -/
  | storeMemberReturn (m : Fin 8)
  /-- R692. Each drive's health log is read once per minute. -/
  | smartPoll (n : Fin 8) (kelvin : BitVec 16)
  /-- R714. A rise of PWR_OK starts the start-up sequence. -/
  | powerGood (f : StartFacts)
  /-- R695. A main supply below its minimum for 1 µs puts the engine in HOLD. -/
  | supplyDip
  /-- R695. Supplies back in range for 1 ms restart with the state already held. -/
  | warmRestart (f : StartFacts)
  /-- R712. VPF below 1.200 V for 1 µs makes the final commit. -/
  | powerFailWarning (bytes : Nat) (t : TimeRecord)
  /-- R713. VPF recovers before PWR_OK falls; RIDE is counted. -/
  | warningEnd
  /-- R700. VDD_AON below 2.75 V hands the warmer domain to VBAT. -/
  | vbatHandover
  /-- R701. 131 good WARM cycles return the warmer domain to VDD_AON. -/
  | vddAonReturn (cycles : List Bool)
  /-- R702. Ramps outputs, closes takes, commits and releases PWR_REQ. -/
  | pwrStandby (bytes : Nat) (t : TimeRecord)
  /-- R703. WAKE_N low for 3 WARM cycles, or the alarm, asserts PWR_REQ from standby. -/
  | wake
  /-- R699. The warmer counter equals PWR_ALARM and sets FIRED. -/
  | warmAlarm
  /-- R703. No PWR_OK within 2 s of PWR_REQ releases PWR_REQ. -/
  | wakeFail
  /-- R706. Changed settings are appended to the three copies, at most once a second. -/
  | settingsAppend (bytes : Nat) (t : TimeRecord) (reach : Fin 7)
  /-- R720. After the ramp-down of a change of range, the domain's pipeline and clocks stop. -/
  | rangePipelineStop (d : Fin 3)
  /-- R720. The domain restarts at its new rate and B, and its new schedule becomes active. -/
  | rangeRestart (d : Fin 3) (si : BitVec 64)
  /-- R753. In recovery the boot ROM reads, checks and writes firmware, then cold starts. -/
  | recoveryGo (image : Option ImageData) (f : StartFacts)
  /-- R35. A sensor above 100 °C starts refusing admissions. -/
  | thermalHoldEnter (temps : List (BitVec 16))
  /-- R35. All sensors at or below 97 °C end the hold. -/
  | thermalHoldLeave (temps : List (BitVec 16))
  /-- R760. Enables pairing after checking the partner, the witness and the ranges. -/
  | pairEnWrite (value : BitVec 32)
  /-- R769. After listening at pairing, the preferred member claims epoch 1. -/
  | pairListenEnd
  /-- R763. The holder sends RENEW at every P-domain frame boundary. -/
  | leaseRenew
  /-- R763. A standby or witness answers a RENEW with ACK or REFUSE. -/
  | renewReceived (m : PairMsg)
  /-- R764. An ACK reloads the holder's gate timer, and a REFUSE makes the holder CUT. -/
  | ackReceived (m : PairMsg)
  /-- R764. LEASE_MS without an acknowledged renewal closes the gate. -/
  | leaseTimerExpiry
  /-- R767. A READY standby without renewals sends CLAIM at each boundary. -/
  | claimSend
  /-- R767. The witness answers a CLAIM with GRANT or REFUSE. -/
  | claimReceived (m : PairMsg)
  /-- R767. A granted standby opens its gate at its next boundary with the new epoch. -/
  | grantReceived (m : PairMsg)
  /-- R777. The standby answers a YIELD with ACK or REFUSE. -/
  | yield (m : PairMsg)
  /-- R777. At handover SI Y the holder closes and the standby opens. -/
  | yieldHandover
  /-- R778. Starts a planned swap on the holder. -/
  | pairSwap
  /-- R776. Restarts resynchronisation on a SUSPECT standby. -/
  | pairResync
  /-- R772. The standby applies a mirrored state change in mirror-number order. -/
  | mirrorReceived (m : PairMsg)
  /-- R773. Group digests of a block are sent when its emission begins. -/
  | digestSend
  /-- R774. A partner digest is compared, and K mismatches lead to a VERDICT exchange. -/
  | digestReceived (m : PairMsg)
  /-- R774. Verdicts decide who keeps the lease and who becomes SUSPECT. -/
  | verdictReceived (m : PairMsg)
  /-- R774. A verdict missing after 1 ms counts as ERROR_FOUND. -/
  | verdictTimeout
  /-- R775. Every REPL_S the holder sends its settings to a COLD standby. -/
  | replicaSend (t : TimeRecord)
  /-- R776. Each frame one resync group's carried state is copied to the standby. -/
  | resyncGroupCopy (data : List CarriedPart) (last : Bool)
  /-- R776. A standby not READY within RESYNC_S stays SUSPECT and reports ABORTED. -/
  | resyncTimeout
  /-- R785. Requests a self-test, which is started, deferred, refused or busy. -/
  | bistGo (test inst : BitVec 8)
  /-- R784. A deferred test starts once its condition holds. -/
  | bistTestStart (test inst : BitVec 8)
  /-- R785. A test ends with PASS or FAIL and a measured value. -/
  | bistDone (test inst : BitVec 8) (pass : Bool) (value : BitVec 32)
  /-- R830. A pad function write is queued for the next P boundary, replaced or cancelled. -/
  | pinfnWrite (k : Fin 32) (value : BitVec 32)
  /-- R829. At the P boundary a pending pad change parks the pad. -/
  | pinfnChange (k : Fin 32)
  /-- R829. After 1 µs the new function takes the pad. -/
  | pinfnParkEnd (k : Fin 32)
  /-- R327. Writes crossbar slice counts while no schedule is admitted. -/
  | schedSliceWrite (reg : Fin 10) (value : BitVec 32)
  /-- R798. A read of a pair's LO loads its HI latch. -/
  | pairLoRead (off : BitVec 18) (both : Bool)
  /-- R799. A read of HI returns the latch, or the live value and sets STALE_HI. -/
  | pairHiRead (off : BitVec 18)
  /-- R166. Clears the SCHED counters, the DRAM ECC and the pour counters. -/
  | schedCntClr
  /-- R480. Clears HOST_LEDGER_HWM and HOST_EVT_LOST_CNT. -/
  | hostCntClr
  /-- R520. Clears a network port's counters. -/
  | netxCntClr (x : Fin 3)
  /-- R521. Clears the classifier counters. -/
  | clsCntClr
  /-- R562. Clears a Wamund port's counters. -/
  | wlxCntClr (p : Fin 4)
  /-- R598. Clears every serial port's counters. -/
  | aportCntClr
  /-- R599. Clears the AES counters. -/
  | aesCntClr
  /-- R626. Clears the HUBA counters. -/
  | hubaCntClr
  /-- R660. Clears the SURF counters. -/
  | surfCntClr
  /-- R692. Clears the STORE counters. -/
  | storeCntClr
  /-- R723. Clears PWR_CNT. -/
  | pwrCntClr
  /-- R787. Clears PAIR_CNT. -/
  | pairCntClr
  /-- R788. Clears BIST_CNT. -/
  | bistCntClr
  /-- R833. Clears PINFN_CNT. -/
  | pinfnCntClr
  /-- R805. Clears GLOBAL_ACC_CNT. -/
  | globalCntClr
  /-- R794. A write to a register with no row of its own, judged by access codes and lock rules. -/
  | registerWrite (bar2 : Bool) (off : BitVec 18) (value : BitVec 32) (be : BitVec 4)
  /-- R408. The engine transmits its own PTP event and general messages (two-step, with the TLV of R413) and timestamps them into the port's transmit timestamp queue. -/
  | ptpMessageTx (x : Fin 3) (isEvent : Bool) (id : BitVec 16) (requested : Bool) (stamp : Nat)
  /-- R392. A PTP port changes state or the grandmaster changes under the BMCA, posting PTP_STATE and possibly disqualifying a PTP candidate. -/
  | ptpPortStateChange (x : Fin 3) (pstate : Fin 10) (gm : Bool)
  /-- R485. MODABS shows that a module has left a NETA, NETB or NETM cage, and NET_MODULE with code 2 is posted. -/
  | netModuleRemoved (x : Fin 3)
  /-- R519. MKA loses its peer on a port and the MACSEC event with code 3 is posted. -/
  | macsecPeerLost (x : Fin 2)
  /-- R525. A cable assembly or optical module appears in a WL cage, and its MIR is read and judged before the port may leave DOWN. -/
  | wlModuleInsertion (p : Fin 4) (r : ModuleRead)
  /-- R683. A read of a playback track's chunk from the drives completes and fills its buffer slot. -/
  | playbackChunkRead (track : Fin 1024) (chunk : Nat)
  /-- R691. An NVMe command completes with an error, so STORE_IO_ERR_CNT is counted and STORE_FAULT with cause 3 is posted. -/
  | storeIoError (track : Fin 1024)
  /-- R695. A main supply falls below its retention level, and the warmer domain sets COLD_NEXT so that the next start is cold. -/
  | retentionLoss
  /-- R749. A TRUST_* command not done within 2 s of its last bulk buffer, or 60 s for KIND 8, completes with ABORTED. -/
  | trustCommandTimeout (n : Nat)
  /-- R775. A COLD standby's newest replica becomes older than 3 × REPL_S, so the standby stops being READY. -/
  | replicaExpiry
  /-- R729. The Jarralia test station moves a BLANK engine to MANUFACTURED through JTAG, and the engine draws its identity, exchange and device keys. -/
  | blankToManufactured (serial : List Nat) (macs : List Nat) (code : BitVec 64) (chain : List Byte)
  deriving DecidableEq, Repr

end Sys2Proof
end

