-- ==== Sys2Proof/Machine/Encode.lean ====
section
/-! DEFINITION. The encoding of the compute unit's operations: slot words, control operations and long immediates from their
operands, the fields that must be 0, and the operations that the words of a bundle stand for (R176–R178, R232, R233, R237,
R238, R246, R248, R249, R251, R255, R256, R261–R264, R271). -/

namespace Sys2Proof

/-- The 30-bit slot word of an operation (R177). -/
def Op.word (o : Op) (op : Nat) : Nat :=
  op * 2 ^ 23 + o.pred.val * 2 ^ 20 + o.d.val * 2 ^ 14 + o.a.val * 2 ^ 8 + o.b.val * 4 + o.m.val

/-- The slot word of MOVI, its immediate in bits 13..2 (R251). -/
def Op.moviWord (o : Op) (imm : BitVec 12) : Nat :=
  0x23 * 2 ^ 23 + o.pred.val * 2 ^ 20 + o.d.val * 2 ^ 14 + imm.toNat * 4 + o.m.val

/-- Bits 119..0 of a long-immediate bundle (R178); KIND is 2. -/
def Op.limmBits (o : Op) (isF : Bool) (imm : BitVec 64) : BitVec 128 :=
  BitVec.ofNat 128 (2 * 2 ^ 120 + (if isF then 2 ^ 119 else 0) + o.d.val * 2 ^ 113 + o.pred.val * 2 ^ 110 + imm.toNat)

/-- The 60 bits of a control operation (R263): COP, PRED and the operand bits. -/
def Op.ctlWord (o : Op) (cop operands : Nat) : Nat := cop * 2 ^ 53 + o.pred.val * 2 ^ 50 + operands

/-- The operand bits of a branch target (R264). -/
def BrTarget.bits : BrTarget → Nat
  | .addr t => t.val
  | .reg r => 2 ^ 49 + r.val * 2 ^ 40

/-- The operand bits of a loop count (R264). -/
def LoopCount.bits : LoopCount → Nat
  | .imm k => 2 ^ 47 + k.val * 2 ^ 20
  | .reg r => r.val * 2 ^ 40

namespace Machine

/-- Bits hi..lo of a bundle. -/
def bf (b : BitVec 128) (hi lo : Nat) : Nat := b.toNat / 2 ^ lo % 2 ^ (hi + 1 - lo)

/-- Bits hi..lo of a slot or control operation. -/
def sf (v hi lo : Nat) : Nat := v / 2 ^ lo % 2 ^ (hi + 1 - lo)

def bundleKind (b : BitVec 128) : Nat := bf b 122 120
def bundleLend (b : BitVec 128) : Bool := bf b 127 127 == 1
def bundleRot (b : BitVec 128) : Bool := bf b 126 126 == 1
def slotM0 (b : BitVec 128) : Nat := bf b 119 90
def slotM1 (b : BitVec 128) : Nat := bf b 89 60
def slotI (b : BitVec 128) : Nat := bf b 59 30
def slotL (b : BitVec 128) : Nat := bf b 29 0
def control (b : BitVec 128) : Nat := bf b 59 0

/-- OP, PRED, D, A, B and MOD of a 30-bit slot (R177). -/
def sOp (v : Nat) : Nat := sf v 29 23
def sPred (v : Nat) : Nat := sf v 22 20
def sD (v : Nat) : Nat := sf v 19 14
def sA (v : Nat) : Nat := sf v 13 8
def sB (v : Nat) : Nat := sf v 7 2
def sM (v : Nat) : Nat := sf v 1 0

/-- COP and the operand bits of a control operation (R263). -/
def cOp (v : Nat) : Nat := sf v 59 53
def cPred (v : Nat) : Nat := sf v 52 50

/-- Item 1 where a field that must be 0 is not. -/
def must (ok : Bool) : Option Nat := if ok then none else some 1

/-- The static item of an M slot (R232, R237, R238, R246). -/
def illegalM (v : Nat) : Option Nat :=
  let op := sOp v
  if op = 0 then must (v == 0)
  else if (1 ≤ op && op ≤ 8) || (0x0B ≤ op && op ≤ 0x0E) then none
  else if op = 9 || op = 0x0A || op = 0x0F || op = 0x10 || op = 0x11 || (0x18 ≤ op && op ≤ 0x1B) then
    must (sB v == 0 && sM v == 0)
  else if op = 0x12 then must (decide (sB v ≤ 1) && sM v == 0)
  else some 2

/-- The static item of slot I (R233, R248–R252). -/
def illegalI (v : Nat) : Option Nat :=
  let op := sOp v
  let regB := sM v == 1 || sM v == 2 || (sM v == 0 && decide (sB v < 32))
  if op = 0 then must (v == 0)
  else if (1 ≤ op && op ≤ 4) || (8 ≤ op && op ≤ 0x0A) || (0x10 ≤ op && op ≤ 0x13) || op = 0x18 || op = 0x19 ||
      op = 0x20 || op = 0x21 || op = 0x24 || op = 0x25 then
    must (decide (sD v < 32) && decide (sA v < 32) && regB)
  else if op = 0x1A || op = 0x1B then must (decide (sD v < 32) && sD v % 2 == 0 && decide (sA v < 32) && regB)
  else if op = 5 || op = 6 || op = 0x0B then
    must (decide (sD v < 32) && decide (sA v < 32) && sB v == 0 && sM v == 0)
  else if op = 0x22 then must (decide (sA v < 32) && regB)
  else if op = 0x23 then must (decide (sD v < 32) && sM v == 0)
  else some 2

/-- An L-slot operation whose D names an A register. -/
def lDestA (op : Nat) : Bool := op == 1 || op == 4 || op == 9 || op == 0x0C || op == 0x12

/-- The static item of slot L (R233, R255, R256, R261, R262). -/
def illegalL (v : Nat) : Option Nat :=
  let op := sOp v
  let dOk := !lDestA op || decide (sD v < 32)
  let mem := decide (sA v < 32) && (if sM v = 1 then sB v == 0 else decide (sB v < 32))
  if op = 0 then must (v == 0)
  else if (1 ≤ op && op ≤ 6) || (9 ≤ op && op ≤ 0x0E) || op = 0x10 then must (dOk && mem)
  else if op = 0x0F then (if mem then (if sD v % 4 = 0 then none else some 9) else some 1)
  else if op = 0x11 then must (sA v == 0 && sB v == 0 && sM v == 0)
  else if op = 0x12 then must (dOk && sB v == 0 && decide (sM v < 2))
  else if op = 0x13 then
    must (decide (sA v < 32) && ((sM v == 0 && decide (sB v < 32)) || (sM v == 1 && sB v == 0)))
  else some 2

/-- The static item of a control operation (R232, R263, R264). -/
def illegalC (v : Nat) : Option Nat :=
  let op := cOp v
  let br := if sf v 49 49 = 1 then sf v 39 0 == 0 else sf v 44 10 == 0
  if op = 0 then must (v == 0)
  else if op = 1 || op = 3 then must (sf v 48 45 == 0 && br)
  else if op = 2 then must br
  else if op = 4 || op = 6 || op = 8 || op = 9 || op = 0x0C then must (sf v 49 0 == 0)
  else if op = 5 then
    must (sf v 46 45 == 0 && sf v 19 10 == 0 && (if sf v 47 47 = 1 then sf v 44 40 == 0 else sf v 39 20 == 0))
  else if op = 7 then must (sf v 49 12 == 0)
  else if op = 0x0A || op = 0x0B then must (sf v 49 45 == 0 && sf v 39 8 == 0)
  else some 2

/-- The static item of a long immediate (R178, R271). -/
def illegalLimm (b : BitVec 128) : Option Nat :=
  must (bf b 109 64 == 0 && (bf b 119 119 == 1 || (decide (bf b 118 113 < 32) && bf b 63 32 == 0)))

/-! ### From words to operations -/

/-- The operation of an M slot (R238). -/
def mInstr (op : Nat) (o : Op) : Option Instr :=
  match op with
  | 0x01 => some (.fma o)
  | 0x02 => some (.fms o)
  | 0x03 => some (.fnma o)
  | 0x04 => some (.fmul o)
  | 0x05 => some (.fadd o)
  | 0x06 => some (.fsub o)
  | 0x07 => some (.fmin o)
  | 0x08 => some (.fmax o)
  | 0x09 => some (.fabs o)
  | 0x0A => some (.fneg o)
  | 0x0B => some (.fcmp o)
  | 0x0C => some (.fsel o)
  | 0x0D => some (.framp o)
  | 0x0E => some (.fsat o)
  | 0x0F => some (.fscrub o)
  | 0x10 => some (.fmov o)
  | 0x11 => some (.fswap o)
  | 0x12 => some (.fcvt o)
  | 0x18 => some (.frcp o)
  | 0x19 => some (.frsq o)
  | 0x1A => some (.fexp2 o)
  | 0x1B => some (.flog2 o)
  | _ => none

/-- The operation of slot I (R249); the immediate of MOVI is bits 13..2 of the slot (R251). -/
def iInstr (op v : Nat) (o : Op) : Option Instr :=
  match op with
  | 0x01 => some (.add o)
  | 0x02 => some (.sub o)
  | 0x03 => some (.adds o)
  | 0x04 => some (.subs o)
  | 0x05 => some (.neg o)
  | 0x06 => some (.negs o)
  | 0x08 => some (.and o)
  | 0x09 => some (.or o)
  | 0x0A => some (.xor o)
  | 0x0B => some (.not o)
  | 0x10 => some (.shl o)
  | 0x11 => some (.shr o)
  | 0x12 => some (.sar o)
  | 0x13 => some (.rol o)
  | 0x18 => some (.mul o)
  | 0x19 => some (.mulh o)
  | 0x1A => some (.divs o)
  | 0x1B => some (.divu o)
  | 0x20 => some (.min o)
  | 0x21 => some (.max o)
  | 0x22 => some (.cmp o)
  | 0x24 => some (.amod o)
  | 0x25 => some (.bitrev o)
  | 0x23 => some (.movi { o with a := 0, b := 0 } (BitVec.ofNat 12 (sf v 13 2)))
  | _ => none

/-- The operation of slot L (R256). An access that its memory's SECDED finds clean (R293). -/
def lInstr (op : Nat) (o : Op) : Option Instr :=
  match op with
  | 0x01 => some (.ldl32a o .clean)
  | 0x02 => some (.ldl32f o .clean)
  | 0x03 => some (.ldl64 o .clean)
  | 0x04 => some (.stl32a o .clean)
  | 0x05 => some (.stl32f o .clean)
  | 0x06 => some (.stl64 o)
  | 0x09 => some (.lds32a o)
  | 0x0A => some (.lds32f o)
  | 0x0B => some (.lds64 o)
  | 0x0C => some (.sts32a o)
  | 0x0D => some (.sts32f o)
  | 0x0E => some (.sts64 o)
  | 0x0F => some (.ldsB256 o)
  | 0x10 => some (.ldp o)
  | 0x11 => some (.ldt o)
  | 0x12 => some (.movfa o)
  | 0x13 => some (.movaf o)
  | _ => none

/-- The target field of a branch (R264). -/
def cTarget (v : Nat) : BrTarget :=
  if sf v 49 49 = 1 then .reg (Fin.ofNat 32 (sf v 44 40)) else .addr (Fin.ofNat 1024 (sf v 9 0))

/-- The count field of LOOP (R264). -/
def cCount (v : Nat) : LoopCount :=
  if sf v 47 47 = 1 then .imm (Fin.ofNat 1048576 (sf v 39 20)) else .reg (Fin.ofNat 32 (sf v 44 40))

/-- The control operation of a control bundle (R264). -/
def cInstr (v : Nat) (o : Op) : Option Instr :=
  match cOp v with
  | 0x01 => some (.br o (cTarget v))
  | 0x02 => some (.brc o (cTarget v) (Fin.ofNat 8 (sf v 48 46)) (sf v 45 45 == 1))
  | 0x03 => some (.call o (cTarget v))
  | 0x04 => some (.ret o)
  | 0x05 => some (.loop o (Fin.ofNat 4 (sf v 49 48)) (cCount v) (Fin.ofNat 1024 (sf v 9 0)))
  | 0x06 => some (.halt o)
  | 0x07 => some (.trap o (BitVec.ofNat 12 (sf v 11 0)))
  | 0x08 => some (.sync o)
  | 0x09 => some (.waitdma o)
  | 0x0A => some (.movs { o with d := Fin.ofNat 64 (sf v 44 40) } (Fin.ofNat 256 (sf v 7 0)))
  | 0x0B => some (.movx { o with a := Fin.ofNat 64 (sf v 44 40) } (Fin.ofNat 256 (sf v 7 0)))
  | 0x0C => some (.rett o)
  | _ => none

/-- The operands of a slot word (R177). -/
def slotOperands (u : Fin 516) (v : Nat) : Op :=
  { u := u, pred := Fin.ofNat 8 (sPred v), d := Fin.ofNat 64 (sD v), a := Fin.ofNat 64 (sA v), b := Fin.ofNat 64 (sB v),
    m := Fin.ofNat 4 (sM v), last := false }

/-- The static item of R179 that a word of a slot breaks. -/
def illegalWord (slot w : Nat) : Option Nat :=
  if slot = 0 then illegalM w else if slot = 2 then illegalI w else if slot = 3 then illegalL w else illegalC w

/-- The operation that a word of a slot stands for, on a unit; the last of its bundle, without rotation. -/
def wordInstr (u : Fin 516) (slot w : Nat) : Option Instr :=
  let o := { slotOperands u w with last := true }
  if slot = 0 then mInstr (sOp w) o
  else if slot = 2 then iInstr (sOp w) w o
  else if slot = 3 then lInstr (sOp w) o
  else cInstr w { u := u, pred := Fin.ofNat 8 (cPred w) }

/-- The last operation of a bundle ends it, under the bundle's ROT (R176). -/
def endsBundle (rot : Bool) (o : Op) : Op := { o with last := true, rot := rot }

/-- The operations that a legal bundle issues, in slot order, each with its operands; a no-op is none (R176–R178, R232). The
control operation, or else the last slot in use, is marked by `last`. -/
def bundleSlots (u : Fin 516) (b : BitVec 128) : List (Op × (Op → Option Instr)) :=
  let m (second : Bool) (v : Nat) : List (Op × (Op → Option Instr)) :=
    if sOp v = 0 then [] else [({ slotOperands u v with second := second }, mInstr (sOp v))]
  let ms := m false (slotM0 b) ++ m true (slotM1 b)
  if bundleKind b = 0 then
    ms ++ (if sOp (slotI b) = 0 then [] else [(slotOperands u (slotI b), iInstr (sOp (slotI b)) (slotI b))]) ++
      (if sOp (slotL b) = 0 then [] else [(slotOperands u (slotL b), lInstr (sOp (slotL b)))])
  else if bundleKind b = 1 then
    ms ++ (if cOp (control b) = 0 then [] else
      [({ u := u, pred := Fin.ofNat 8 (cPred (control b)), last := false }, cInstr (control b))])
  else if bundleKind b = 2 then
    [({ u := u, pred := Fin.ofNat 8 (bf b 112 110), d := Fin.ofNat 64 (bf b 118 113), last := false },
      fun o => some (.longImmediate o (bf b 119 119 == 1) (BitVec.ofNat 64 (bf b 63 0))))]
  else []

/-- Operations in issue order, the last one with the bundle's end. -/
def lastEnds (rot : Bool) : List (Op × (Op → Option Instr)) → List Instr
  | [] => []
  | [x] => (x.2 (endsBundle rot x.1)).toList
  | x :: t => (x.2 x.1).toList ++ lastEnds rot t

/-- The operations that a bundle issues (R176–R178). -/
def bundleOps (u : Fin 516) (b : BitVec 128) : List Instr := lastEnds (bundleRot b) (bundleSlots u b)

end Machine

open Machine

/-- The word that encodes an operation, with the SLOT code of its slot (R177, R210, R238, R249, R256, R263, R264): 0 for slot M0 or
M1, 2 slot I, 3 slot L, 4 control. A long immediate has no slot word. -/
def Instr.word : Instr → Option (Nat × Nat)
  | .fma o => some (0, o.word 0x01)
  | .fms o => some (0, o.word 0x02)
  | .fnma o => some (0, o.word 0x03)
  | .fmul o => some (0, o.word 0x04)
  | .fadd o => some (0, o.word 0x05)
  | .fsub o => some (0, o.word 0x06)
  | .fmin o => some (0, o.word 0x07)
  | .fmax o => some (0, o.word 0x08)
  | .fabs o => some (0, o.word 0x09)
  | .fneg o => some (0, o.word 0x0A)
  | .fcmp o => some (0, o.word 0x0B)
  | .fsel o => some (0, o.word 0x0C)
  | .framp o => some (0, o.word 0x0D)
  | .fsat o => some (0, o.word 0x0E)
  | .fscrub o => some (0, o.word 0x0F)
  | .fmov o => some (0, o.word 0x10)
  | .fswap o => some (0, o.word 0x11)
  | .fcvt o => some (0, o.word 0x12)
  | .frcp o => some (0, o.word 0x18)
  | .frsq o => some (0, o.word 0x19)
  | .fexp2 o => some (0, o.word 0x1A)
  | .flog2 o => some (0, o.word 0x1B)
  | .add o => some (2, o.word 0x01)
  | .sub o => some (2, o.word 0x02)
  | .adds o => some (2, o.word 0x03)
  | .subs o => some (2, o.word 0x04)
  | .neg o => some (2, o.word 0x05)
  | .negs o => some (2, o.word 0x06)
  | .and o => some (2, o.word 0x08)
  | .or o => some (2, o.word 0x09)
  | .xor o => some (2, o.word 0x0A)
  | .not o => some (2, o.word 0x0B)
  | .shl o => some (2, o.word 0x10)
  | .shr o => some (2, o.word 0x11)
  | .sar o => some (2, o.word 0x12)
  | .rol o => some (2, o.word 0x13)
  | .mul o => some (2, o.word 0x18)
  | .mulh o => some (2, o.word 0x19)
  | .divs o => some (2, o.word 0x1A)
  | .divu o => some (2, o.word 0x1B)
  | .min o => some (2, o.word 0x20)
  | .max o => some (2, o.word 0x21)
  | .cmp o => some (2, o.word 0x22)
  | .amod o => some (2, o.word 0x24)
  | .bitrev o => some (2, o.word 0x25)
  | .movi o imm => some (2, o.moviWord imm)
  | .ldl32a o _ => some (3, o.word 0x01)
  | .ldl32f o _ => some (3, o.word 0x02)
  | .ldl64 o _ => some (3, o.word 0x03)
  | .stl32a o _ => some (3, o.word 0x04)
  | .stl32f o _ => some (3, o.word 0x05)
  | .stl64 o => some (3, o.word 0x06)
  | .lds32a o => some (3, o.word 0x09)
  | .lds32f o => some (3, o.word 0x0A)
  | .lds64 o => some (3, o.word 0x0B)
  | .sts32a o => some (3, o.word 0x0C)
  | .sts32f o => some (3, o.word 0x0D)
  | .sts64 o => some (3, o.word 0x0E)
  | .ldsB256 o => some (3, o.word 0x0F)
  | .ldp o => some (3, o.word 0x10)
  | .ldt o => some (3, o.word 0x11)
  | .movfa o => some (3, o.word 0x12)
  | .movaf o => some (3, o.word 0x13)
  | .br o t => some (4, o.ctlWord 0x01 t.bits)
  | .brc o t cp sense => some (4, o.ctlWord 0x02 (t.bits + cp.val * 2 ^ 46 + if sense then 2 ^ 45 else 0))
  | .call o t => some (4, o.ctlWord 0x03 t.bits)
  | .ret o => some (4, o.ctlWord 0x04 0)
  | .loop o level c fin => some (4, o.ctlWord 0x05 (level.val * 2 ^ 48 + c.bits + fin.val))
  | .halt o => some (4, o.ctlWord 0x06 0)
  | .trap o code => some (4, o.ctlWord 0x07 code.toNat)
  | .sync o => some (4, o.ctlWord 0x08 0)
  | .waitdma o => some (4, o.ctlWord 0x09 0)
  | .movs o sreg => some (4, o.ctlWord 0x0A (o.d.val * 2 ^ 40 + sreg.val))
  | .movx o sreg => some (4, o.ctlWord 0x0B (o.a.val * 2 ^ 40 + sreg.val))
  | .rett o => some (4, o.ctlWord 0x0C 0)
  | _ => none

/-- The fields of a slot word, of MOVI and of a control operation that their encodings hold. -/
def Op.inM (o : Op) (op : Nat) : Bool := (illegalM (o.word op)).isNone
def Op.inI (o : Op) (op : Nat) : Bool := (illegalI (o.word op)).isNone && !o.second
def Op.inL (o : Op) (op : Nat) : Bool := (illegalL (o.word op)).isNone && !o.second
def Op.inMovi (o : Op) : Bool := decide (o.d.val < 32) && decide (o.a = 0) && decide (o.b = 0) && decide (o.m = 0) && !o.second
def Op.inC (o : Op) : Bool := decide (o.d = 0) && decide (o.a = 0) && decide (o.b = 0) && decide (o.m = 0) && !o.second

end Sys2Proof
end

