-- ==== Sys2Proof/WellFormed.lean ====
section
/-! DEFINITION. The checks a command passes before it is one that an agent of the manual can present: the widths of the
descriptor fields and of the list items, the sizes of the pages and blocks it carries, and the fields that the encoding of a
unit's operation holds (R233). Indices of instances are `Fin` in Syntax.lean and need no check. -/

namespace Sys2Proof
open Machine

/-- The common fields of a descriptor are 32, 16 and 64 bits wide (R434). -/
def CmdHdr.wf (h : CmdHdr) : Bool := decide (h.tag < 2 ^ 32) && decide (h.flags < 2 ^ 16) && decide (h.target < 2 ^ 64)

/-- A descriptor is 64 bytes: a header, and 48 bytes of payload (R434). -/
def Descriptor.wf (d : Descriptor) : Bool :=
  decide (d.opcode < 2 ^ 16) && decide (d.flags < 2 ^ 16) && decide (d.tag < 2 ^ 32) && decide (d.target < 2 ^ 64) &&
    decide (d.payload.length = 48)

/-- Handles of a PARAM_SET are 32 bits (R440). -/
def paramItemsWf (l : List ParamItem) : Bool := l.all fun x => decide (x.handle < 2 ^ 32)

/-- Addresses of a ROUTE are 32 bits (R442). -/
def routeItemsWf (l : List RouteItem) : Bool := l.all fun x => decide (x.dst < 2 ^ 32) && decide (x.source < 2 ^ 32)

/-- The descriptor header of a command that came by a ring or an urgent slot. -/
def Instr.header : Instr → Option CmdHdr
  | .fma _ => none
  | .fms _ => none
  | .fnma _ => none
  | .fmul _ => none
  | .fadd _ => none
  | .fsub _ => none
  | .fmin _ => none
  | .fmax _ => none
  | .fabs _ => none
  | .fneg _ => none
  | .fcmp _ => none
  | .fsel _ => none
  | .framp _ => none
  | .fsat _ => none
  | .fscrub _ => none
  | .fmov _ => none
  | .fswap _ => none
  | .fcvt _ => none
  | .frcp _ => none
  | .frsq _ => none
  | .fexp2 _ => none
  | .flog2 _ => none
  | .add _ => none
  | .sub _ => none
  | .adds _ => none
  | .subs _ => none
  | .neg _ => none
  | .negs _ => none
  | .and _ => none
  | .or _ => none
  | .xor _ => none
  | .not _ => none
  | .shl _ => none
  | .shr _ => none
  | .sar _ => none
  | .rol _ => none
  | .mul _ => none
  | .mulh _ => none
  | .divs _ => none
  | .divu _ => none
  | .min _ => none
  | .max _ => none
  | .cmp _ => none
  | .movi _ _ => none
  | .amod _ => none
  | .bitrev _ => none
  | .ldl32a _ _ => none
  | .ldl32f _ _ => none
  | .ldl64 _ _ => none
  | .stl32a _ _ => none
  | .stl32f _ _ => none
  | .stl64 _ => none
  | .lds32a _ => none
  | .lds32f _ => none
  | .lds64 _ => none
  | .sts32a _ => none
  | .sts32f _ => none
  | .sts64 _ => none
  | .ldsB256 _ => none
  | .ldp _ => none
  | .ldt _ => none
  | .movfa _ => none
  | .movaf _ => none
  | .br _ _ => none
  | .brc _ _ _ _ => none
  | .call _ _ => none
  | .ret _ => none
  | .loop _ _ _ _ => none
  | .halt _ => none
  | .trap _ _ => none
  | .sync _ => none
  | .waitdma _ => none
  | .movs _ _ => none
  | .movx _ _ => none
  | .rett _ => none
  | .longImmediate _ _ _ => none
  | .resultLands _ => none
  | .trapEntry _ => none
  | .syncRelease _ => none
  | .waitdmaRelease _ => none
  | .firingEnd _ => none
  | .shmReadCycle _ _ _ _ => none
  | .shmWriteCycle _ _ _ _ => none
  | .dmaTransferStart _ => none
  | .dmaTransferComplete _ _ _ => none
  | .peekCopy _ => none
  | .frameStartMarker _ _ => none
  | .regionClockStart _ => none
  | .adpllLock _ => none
  | .bypassFallback _ => none
  | .adpllLossOfLock _ => none
  | .preheat _ => none
  | .firingStart _ _ _ _ _ => none
  | .glazeSectionStart _ _ => none
  | .firingBudgetExhausted _ => none
  | .executionDeadline _ => none
  | .regionClockStop _ => none
  | .scheduleSwitch _ => none
  | .admissionComplete => none
  | .readmission _ => none
  | .spareRotation _ => none
  | .spareTestDone _ _ => none
  | .paramSet h _ _ _ => some h
  | .pour h _ => some h
  | .pourCancel h _ => some h
  | .route h _ _ _ _ => some h
  | .meterSubOpen h _ _ _ _ => some h
  | .meterSubClose h _ => some h
  | .progLoad h _ _ _ _ => some h
  | .schedAdmit h _ _ _ => some h
  | .schedAdmitArm h => some h
  | .schedAdmitReadmit h _ => some h
  | .storeFormat h => some h
  | .storeShare h _ _ => some h
  | .storeList h _ _ _ => some h
  | .storeRecIn h _ _ _ _ _ => some h
  | .storeRecOut h _ => some h
  | .storePlay h _ _ _ _ _ => some h
  | .storeStop h _ => some h
  | .storeExport h _ _ _ _ _ _ => some h
  | .storeImport h _ _ _ _ _ => some h
  | .storeDelete h _ => some h
  | .netStreamTx h _ _ => some h
  | .netStreamRx h _ _ => some h
  | .netStreamDel h _ _ => some h
  | .netStreamStat h _ _ _ _ => some h
  | .netClsRule h _ _ => some h
  | .netCue h _ => some h
  | .netJoin h _ _ _ _ _ => some h
  | .netWlRoute h _ _ => some h
  | .netWlFlowTx h _ _ => some h
  | .netWlFlowRx h _ _ => some h
  | .netWlFlowDel h _ _ _ _ => some h
  | .netWlTransit h _ _ => some h
  | .netWlParam h _ _ _ _ => some h
  | .netWlDistribute h _ _ _ => some h
  | .trustAttest h _ _ => some h
  | .trustClaim h _ _ _ _ => some h
  | .trustRelease h _ _ => some h
  | .trustPolicy h _ _ => some h
  | .trustMembers h _ _ => some h
  | .trustHouse h _ _ => some h
  | .trustFw h _ _ => some h
  | .trustCert h _ => some h
  | .trustDebugChallenge h => some h
  | .trustDebugUnlock h _ _ => some h
  | .hush h _ => some h
  | .queryPath h _ _ => some h
  | .queryPeek h _ _ => some h
  | .queryClear h _ _ => some h
  | .queryValue h _ => some h
  | .pourCompileDone => none
  | .pourMessageReceived _ _ => none
  | .pourReportMessage _ _ _ => none
  | .pourMessageResend _ _ => none
  | .pourStart _ _ => none
  | .pourCancelApply _ _ => none
  | .pourReportTimeout _ _ => none
  | .candidateQualified _ _ => none
  | .candidateLoss _ _ => none
  | .revertWtrExpiry _ _ => none
  | .mpllComparison _ _ _ => none
  | .lockCriterion _ => none
  | .phaseExcursion _ => none
  | .bandwidthHalving _ => none
  | .refxoFail => none
  | .clkMpllDcoWrite _ _ => none
  | .roastStart _ => none
  | .roastAbort _ _ => none
  | .roastProfileBegin _ => none
  | .roastSegmentEnd _ => none
  | .renumbering _ _ => none
  | .alignComplete _ => none
  | .txStampDrain _ => none
  | .triggerArm _ _ => none
  | .triggerCancel _ => none
  | .triggerFire _ => none
  | .timeSnap _ _ _ _ _ _ => none
  | .doorbell _ => none
  | .urgentSlotCommit _ _ _ => none
  | .urgentDispatch => none
  | .descriptorDispatch _ => none
  | .commandCompletion => none
  | .eventHoldingDrain _ => none
  | .msixModerationExpiry _ => none
  | .hostLinkReset => none
  | .linkRetrain _ _ => none
  | .hostRingCfgWrite _ _ => none
  | .hostWinCtlWrite _ _ _ => none
  | .windowDrainDone _ => none
  | .dmaChStart _ _ => none
  | .dmaChAbort _ _ _ => none
  | .dmaDescriptorDone _ _ _ _ => none
  | .bulkBufferConsumed _ _ _ => none
  | .imageTransferTimeout _ => none
  | .meterUpdate _ _ => none
  | .hushNFall => none
  | .hushNRise => none
  | .hushRampStart _ => none
  | .netFrameReceived _ _ => none
  | .streamPacketTx _ => none
  | .streamLoss _ => none
  | .netModuleInsert _ _ _ => none
  | .netDdmPoll _ _ _ _ => none
  | .netLinkChange _ _ => none
  | .macsecKeyAgreement _ _ _ => none
  | .wlTrainDone _ => none
  | .wlAlignDone _ => none
  | .wlAuthDone _ _ => none
  | .wlStateTimeout _ => none
  | .wlRestartTimer _ => none
  | .wlPortDown _ => none
  | .wlCellReceived _ _ _ _ _ => none
  | .wlReplayTimeout _ => none
  | .wlCellTx _ => none
  | .wlTimeCellTx _ _ _ _ => none
  | .wlTimeLoss _ => none
  | .wlBundleTx _ => none
  | .wlFlowLoss _ _ _ => none
  | .netWlParamTimeout h => some h
  | .wlRetrain _ => none
  | .aportStart _ => none
  | .aportStop _ => none
  | .aportUnderrun _ _ _ => none
  | .aportOverrun _ _ _ => none
  | .aportFramingError _ _ => none
  | .pairSwapDetect _ => none
  | .aesRxLock _ _ _ => none
  | .aesRxLockLoss _ => none
  | .aesCsBlock _ _ _ => none
  | .aesRxCsSnap _ => none
  | .aesTxCommit _ => none
  | .aesTxBlockStart _ => none
  | .aesTxStart _ => none
  | .asrcNarrow _ _ => none
  | .asrcRelease _ => none
  | .asrcRetrack _ => none
  | .asrcRestart _ => none
  | .convEnWrite _ _ _ _ => none
  | .chainSettled _ _ => none
  | .rangeRequest _ _ _ => none
  | .rangeChange _ => none
  | .compensationStep _ _ => none
  | .jackDetectChange _ _ _ => none
  | .jackRemovalEdge _ => none
  | .jackClassified _ => none
  | .buttonAccepted _ _ => none
  | .buttonLevelMute _ _ _ => none
  | .psEnWrite _ _ _ => none
  | .psPrechargeDone _ => none
  | .psShutdown _ => none
  | .psRetry _ => none
  | .retryUsedReset _ => none
  | .psSupplyFault _ => none
  | .psSupplyRestart _ => none
  | .psThermalRead _ _ => none
  | .modulePoll _ _ _ => none
  | .slEnumerate _ _ => none
  | .slRestart _ => none
  | .servoCycle _ => none
  | .servoUpReceived _ _ _ => none
  | .servoFiringEnd _ => none
  | .moduleLost _ _ => none
  | .touchUpReceived _ _ => none
  | .servoCut _ => none
  | .faderStall _ => none
  | .lawCommit => none
  | .storeDriveChange _ _ => none
  | .chunkWrite _ _ => none
  | .recordOverrun _ _ => none
  | .journalCut => none
  | .journalCommit _ => none
  | .punchIn _ => none
  | .punchOut _ => none
  | .playStart _ => none
  | .playUnderrun _ _ => none
  | .storeMemberLost _ => none
  | .storeMemberReturn _ => none
  | .smartPoll _ _ => none
  | .powerGood _ => none
  | .supplyDip => none
  | .warmRestart _ => none
  | .powerFailWarning _ _ => none
  | .warningEnd => none
  | .vbatHandover => none
  | .vddAonReturn _ => none
  | .pwrStandby _ _ => none
  | .wake => none
  | .warmAlarm => none
  | .wakeFail => none
  | .settingsAppend _ _ _ => none
  | .rangePipelineStop _ => none
  | .rangeRestart _ _ => none
  | .recoveryGo _ _ => none
  | .thermalHoldEnter _ => none
  | .thermalHoldLeave _ => none
  | .pairEnWrite _ => none
  | .pairListenEnd => none
  | .leaseRenew => none
  | .renewReceived _ => none
  | .ackReceived _ => none
  | .leaseTimerExpiry => none
  | .claimSend => none
  | .claimReceived _ => none
  | .grantReceived _ => none
  | .yield _ => none
  | .yieldHandover => none
  | .pairSwap => none
  | .pairResync => none
  | .mirrorReceived _ => none
  | .digestSend => none
  | .digestReceived _ => none
  | .verdictReceived _ => none
  | .verdictTimeout => none
  | .replicaSend _ => none
  | .resyncGroupCopy _ _ => none
  | .resyncTimeout => none
  | .bistGo _ _ => none
  | .bistTestStart _ _ => none
  | .bistDone _ _ _ _ => none
  | .pinfnWrite _ _ => none
  | .pinfnChange _ => none
  | .pinfnParkEnd _ => none
  | .schedSliceWrite _ _ => none
  | .pairLoRead _ _ => none
  | .pairHiRead _ => none
  | .schedCntClr => none
  | .hostCntClr => none
  | .netxCntClr _ => none
  | .clsCntClr => none
  | .wlxCntClr _ => none
  | .aportCntClr => none
  | .aesCntClr => none
  | .hubaCntClr => none
  | .surfCntClr => none
  | .storeCntClr => none
  | .pwrCntClr => none
  | .pairCntClr => none
  | .bistCntClr => none
  | .pinfnCntClr => none
  | .globalCntClr => none
  | .registerWrite _ _ _ _ => none
  | .ptpMessageTx _ _ _ _ _ => none
  | .ptpPortStateChange _ _ _ => none
  | .netModuleRemoved _ => none
  | .macsecPeerLost _ => none
  | .wlModuleInsertion _ _ => none
  | .playbackChunkRead _ _ => none
  | .storeIoError _ => none
  | .retentionLoss => none
  | .trustCommandTimeout _ => none
  | .replicaExpiry => none
  | .blankToManufactured _ _ _ _ => none

/-- The checks of a command's other operands. -/
def Instr.operandsWf : Instr → Bool
  | .fma o => o.inM 0x01
  | .fms o => o.inM 0x02
  | .fnma o => o.inM 0x03
  | .fmul o => o.inM 0x04
  | .fadd o => o.inM 0x05
  | .fsub o => o.inM 0x06
  | .fmin o => o.inM 0x07
  | .fmax o => o.inM 0x08
  | .fabs o => o.inM 0x09
  | .fneg o => o.inM 0x0A
  | .fcmp o => o.inM 0x0B
  | .fsel o => o.inM 0x0C
  | .framp o => o.inM 0x0D
  | .fsat o => o.inM 0x0E
  | .fscrub o => o.inM 0x0F
  | .fmov o => o.inM 0x10
  | .fswap o => o.inM 0x11
  | .fcvt o => o.inM 0x12
  | .frcp o => o.inM 0x18
  | .frsq o => o.inM 0x19
  | .fexp2 o => o.inM 0x1A
  | .flog2 o => o.inM 0x1B
  | .add o => o.inI 0x01
  | .sub o => o.inI 0x02
  | .adds o => o.inI 0x03
  | .subs o => o.inI 0x04
  | .neg o => o.inI 0x05
  | .negs o => o.inI 0x06
  | .and o => o.inI 0x08
  | .or o => o.inI 0x09
  | .xor o => o.inI 0x0A
  | .not o => o.inI 0x0B
  | .shl o => o.inI 0x10
  | .shr o => o.inI 0x11
  | .sar o => o.inI 0x12
  | .rol o => o.inI 0x13
  | .mul o => o.inI 0x18
  | .mulh o => o.inI 0x19
  | .divs o => o.inI 0x1A
  | .divu o => o.inI 0x1B
  | .min o => o.inI 0x20
  | .max o => o.inI 0x21
  | .cmp o => o.inI 0x22
  | .movi o _ => o.inMovi
  | .amod o => o.inI 0x24
  | .bitrev o => o.inI 0x25
  | .ldl32a o _ => o.inL 0x01
  | .ldl32f o _ => o.inL 0x02
  | .ldl64 o _ => o.inL 0x03
  | .stl32a o _ => o.inL 0x04
  | .stl32f o _ => o.inL 0x05
  | .stl64 o => o.inL 0x06
  | .lds32a o => o.inL 0x09
  | .lds32f o => o.inL 0x0A
  | .lds64 o => o.inL 0x0B
  | .sts32a o => o.inL 0x0C
  | .sts32f o => o.inL 0x0D
  | .sts64 o => o.inL 0x0E
  | .ldsB256 o => o.inL 0x0F
  | .ldp o => o.inL 0x10
  | .ldt o => o.inL 0x11
  | .movfa o => o.inL 0x12
  | .movaf o => o.inL 0x13
  | .br o _ => o.inC
  | .brc o _ _ _ => o.inC
  | .call o _ => o.inC
  | .ret o => o.inC
  | .loop o _ _ _ => o.inC
  | .halt o => o.inC
  | .trap o _ => o.inC
  | .sync o => o.inC
  | .waitdma o => o.inC
  | .movs o _ => decide (o.d.val < 32) && decide (o.a = 0) && decide (o.b = 0) && decide (o.m = 0) && !o.second
  | .movx o _ => decide (o.a.val < 32) && decide (o.d = 0) && decide (o.b = 0) && decide (o.m = 0) && !o.second
  | .rett o => o.inC
  | .longImmediate o isF imm => (illegalLimm (o.limmBits isF imm)).isNone && decide (o.a = 0) && decide (o.b = 0) && decide (o.m = 0) && !o.second
  | .resultLands _ => true
  | .trapEntry _ => true
  | .syncRelease _ => true
  | .waitdmaRelease _ => true
  | .firingEnd _ => true
  | .shmReadCycle _ _ _ _ => true
  | .shmWriteCycle _ _ _ _ => true
  | .dmaTransferStart _ => true
  | .dmaTransferComplete _ _ _ => true
  | .peekCopy _ => true
  | .frameStartMarker _ _ => true
  | .regionClockStart _ => true
  | .adpllLock _ => true
  | .bypassFallback _ => true
  | .adpllLossOfLock _ => true
  | .preheat _ => true
  | .firingStart _ _ _ _ _ => true
  | .glazeSectionStart _ _ => true
  | .firingBudgetExhausted _ => true
  | .executionDeadline _ => true
  | .regionClockStop _ => true
  | .scheduleSwitch _ => true
  | .admissionComplete => true
  | .readmission _ => true
  | .spareRotation _ => true
  | .spareTestDone _ _ => true
  | .paramSet _ ramp _ items => paramItemsWf items && decide (ramp < 2 ^ 32)
  | .pour _ _ => true
  | .pourCancel _ _ => true
  | .route _ ramp _ _ items => routeItemsWf items && decide (ramp < 2 ^ 32)
  | .meterSubOpen _ _ _ _ _ => true
  | .meterSubClose _ _ => true
  | .progLoad _ _ _ _ _ => true
  | .schedAdmit _ _ _ _ => true
  | .schedAdmitArm _ => true
  | .schedAdmitReadmit _ _ => true
  | .storeFormat _ => true
  | .storeShare _ _ _ => true
  | .storeList _ _ _ _ => true
  | .storeRecIn _ _ _ _ _ _ => true
  | .storeRecOut _ _ => true
  | .storePlay _ _ _ _ _ _ => true
  | .storeStop _ _ => true
  | .storeExport _ _ _ _ _ _ _ => true
  | .storeImport _ _ _ _ _ _ => true
  | .storeDelete _ _ => true
  | .netStreamTx _ _ _ => true
  | .netStreamRx _ _ _ => true
  | .netStreamDel _ _ _ => true
  | .netStreamStat _ _ _ _ _ => true
  | .netClsRule _ _ _ => true
  | .netCue _ _ => true
  | .netJoin _ _ _ _ _ _ => true
  | .netWlRoute _ _ _ => true
  | .netWlFlowTx _ _ _ => true
  | .netWlFlowRx _ _ _ => true
  | .netWlFlowDel _ _ _ _ _ => true
  | .netWlTransit _ _ _ => true
  | .netWlParam _ _ _ _ items => paramItemsWf items
  | .netWlDistribute _ _ _ _ => true
  | .trustAttest _ _ _ => true
  | .trustClaim _ _ _ _ _ => true
  | .trustRelease _ _ _ => true
  | .trustPolicy _ _ _ => true
  | .trustMembers _ _ _ => true
  | .trustHouse _ _ _ => true
  | .trustFw _ _ _ => true
  | .trustCert _ _ => true
  | .trustDebugChallenge _ => true
  | .trustDebugUnlock _ _ _ => true
  | .hush _ _ => true
  | .queryPath _ _ _ => true
  | .queryPeek _ _ _ => true
  | .queryClear _ _ _ => true
  | .queryValue _ _ => true
  | .pourCompileDone => true
  | .pourMessageReceived _ _ => true
  | .pourReportMessage _ _ _ => true
  | .pourMessageResend _ _ => true
  | .pourStart _ _ => true
  | .pourCancelApply _ _ => true
  | .pourReportTimeout _ _ => true
  | .candidateQualified _ _ => true
  | .candidateLoss _ _ => true
  | .revertWtrExpiry _ _ => true
  | .mpllComparison _ _ _ => true
  | .lockCriterion _ => true
  | .phaseExcursion _ => true
  | .bandwidthHalving _ => true
  | .refxoFail => true
  | .clkMpllDcoWrite _ _ => true
  | .roastStart _ => true
  | .roastAbort _ _ => true
  | .roastProfileBegin _ => true
  | .roastSegmentEnd _ => true
  | .renumbering _ _ => true
  | .alignComplete _ => true
  | .txStampDrain _ => true
  | .triggerArm _ _ => true
  | .triggerCancel _ => true
  | .triggerFire _ => true
  | .timeSnap _ _ _ sp ss st => decide (sp < 2 ^ 64) && decide (ss < 2 ^ 64) && decide (st < 2 ^ 64)
  | .doorbell _ => true
  | .urgentSlotCommit _ d _ => d.wf
  | .urgentDispatch => true
  | .descriptorDispatch d => d.wf
  | .commandCompletion => true
  | .eventHoldingDrain _ => true
  | .msixModerationExpiry _ => true
  | .hostLinkReset => true
  | .linkRetrain _ _ => true
  | .hostRingCfgWrite _ _ => true
  | .hostWinCtlWrite _ _ _ => true
  | .windowDrainDone _ => true
  | .dmaChStart _ _ => true
  | .dmaChAbort _ _ _ => true
  | .dmaDescriptorDone _ _ _ _ => true
  | .bulkBufferConsumed _ _ _ => true
  | .imageTransferTimeout _ => true
  | .meterUpdate _ _ => true
  | .hushNFall => true
  | .hushNRise => true
  | .hushRampStart _ => true
  | .netFrameReceived _ _ => true
  | .streamPacketTx _ => true
  | .streamLoss _ => true
  | .netModuleInsert _ a0 _ => decide (a0.length = 256)
  | .netDdmPoll _ a2 _ _ => decide (a2.length = 256)
  | .netLinkChange _ _ => true
  | .macsecKeyAgreement _ _ _ => true
  | .wlTrainDone _ => true
  | .wlAlignDone _ => true
  | .wlAuthDone _ _ => true
  | .wlStateTimeout _ => true
  | .wlRestartTimer _ => true
  | .wlPortDown _ => true
  | .wlCellReceived _ _ _ _ _ => true
  | .wlReplayTimeout _ => true
  | .wlCellTx _ => true
  | .wlTimeCellTx _ _ _ _ => true
  | .wlTimeLoss _ => true
  | .wlBundleTx _ => true
  | .wlFlowLoss _ _ _ => true
  | .netWlParamTimeout _ => true
  | .wlRetrain _ => true
  | .aportStart _ => true
  | .aportStop _ => true
  | .aportUnderrun _ _ _ => true
  | .aportOverrun _ _ _ => true
  | .aportFramingError _ _ => true
  | .pairSwapDetect _ => true
  | .aesRxLock _ _ _ => true
  | .aesRxLockLoss _ => true
  | .aesCsBlock _ a b => decide (a.length = 24) && decide (b.length = 24)
  | .aesRxCsSnap _ => true
  | .aesTxCommit _ => true
  | .aesTxBlockStart _ => true
  | .aesTxStart _ => true
  | .asrcNarrow a _ => decide (a < 2 ^ 16)
  | .asrcRelease a => decide (a < 2 ^ 16)
  | .asrcRetrack a => decide (a < 2 ^ 16)
  | .asrcRestart a => decide (a < 2 ^ 16)
  | .convEnWrite _ _ _ _ => true
  | .chainSettled _ _ => true
  | .rangeRequest _ _ _ => true
  | .rangeChange _ => true
  | .compensationStep _ _ => true
  | .jackDetectChange _ _ _ => true
  | .jackRemovalEdge _ => true
  | .jackClassified _ => true
  | .buttonAccepted _ _ => true
  | .buttonLevelMute _ _ _ => true
  | .psEnWrite _ _ _ => true
  | .psPrechargeDone _ => true
  | .psShutdown _ => true
  | .psRetry _ => true
  | .retryUsedReset _ => true
  | .psSupplyFault _ => true
  | .psSupplyRestart _ => true
  | .psThermalRead _ _ => true
  | .modulePoll _ _ _ => true
  | .slEnumerate _ _ => true
  | .slRestart _ => true
  | .servoCycle _ => true
  | .servoUpReceived _ _ _ => true
  | .servoFiringEnd _ => true
  | .moduleLost _ _ => true
  | .touchUpReceived _ _ => true
  | .servoCut _ => true
  | .faderStall _ => true
  | .lawCommit => true
  | .storeDriveChange _ _ => true
  | .chunkWrite _ _ => true
  | .recordOverrun _ _ => true
  | .journalCut => true
  | .journalCommit _ => true
  | .punchIn _ => true
  | .punchOut _ => true
  | .playStart _ => true
  | .playUnderrun _ _ => true
  | .storeMemberLost _ => true
  | .storeMemberReturn _ => true
  | .smartPoll _ _ => true
  | .powerGood _ => true
  | .supplyDip => true
  | .warmRestart _ => true
  | .powerFailWarning _ _ => true
  | .warningEnd => true
  | .vbatHandover => true
  | .vddAonReturn _ => true
  | .pwrStandby _ _ => true
  | .wake => true
  | .warmAlarm => true
  | .wakeFail => true
  | .settingsAppend _ _ _ => true
  | .rangePipelineStop _ => true
  | .rangeRestart _ _ => true
  | .recoveryGo _ _ => true
  | .thermalHoldEnter _ => true
  | .thermalHoldLeave _ => true
  | .pairEnWrite _ => true
  | .pairListenEnd => true
  | .leaseRenew => true
  | .renewReceived _ => true
  | .ackReceived _ => true
  | .leaseTimerExpiry => true
  | .claimSend => true
  | .claimReceived _ => true
  | .grantReceived _ => true
  | .yield _ => true
  | .yieldHandover => true
  | .pairSwap => true
  | .pairResync => true
  | .mirrorReceived _ => true
  | .digestSend => true
  | .digestReceived _ => true
  | .verdictReceived _ => true
  | .verdictTimeout => true
  | .replicaSend _ => true
  | .resyncGroupCopy _ _ => true
  | .resyncTimeout => true
  | .bistGo _ _ => true
  | .bistTestStart _ _ => true
  | .bistDone _ _ _ _ => true
  | .pinfnWrite _ _ => true
  | .pinfnChange _ => true
  | .pinfnParkEnd _ => true
  | .schedSliceWrite _ _ => true
  | .pairLoRead _ _ => true
  | .pairHiRead _ => true
  | .schedCntClr => true
  | .hostCntClr => true
  | .netxCntClr _ => true
  | .clsCntClr => true
  | .wlxCntClr _ => true
  | .aportCntClr => true
  | .aesCntClr => true
  | .hubaCntClr => true
  | .surfCntClr => true
  | .storeCntClr => true
  | .pwrCntClr => true
  | .pairCntClr => true
  | .bistCntClr => true
  | .pinfnCntClr => true
  | .globalCntClr => true
  | .registerWrite _ _ _ _ => true
  | .ptpMessageTx _ _ _ _ _ => true
  | .ptpPortStateChange _ _ _ => true
  | .netModuleRemoved _ => true
  | .macsecPeerLost _ => true
  | .wlModuleInsertion _ _ => true
  | .playbackChunkRead _ _ => true
  | .storeIoError _ => true
  | .retentionLoss => true
  | .trustCommandTimeout _ => true
  | .replicaExpiry => true
  | .blankToManufactured serial macs _ _ => decide (serial.length = 4) && decide (macs.length = 3)

/-- A well-formed command. -/
def Instr.wf (i : Instr) : Bool :=
  i.operandsWf && match i.header with
    | some h => h.wf
    | none => true

end Sys2Proof
end

