-- ==== Sys2Proof/Decode.lean ====
section
/-! DEFINITION. The block has no words that spell a command: no row of spec/opcode_table.json gives bits. -/

namespace Sys2Proof

/-- The command that a word of the opcode table spells: none, since the table gives its rows no bits (log entry 7). -/
def decodeTableWord (_nbits _w : Nat) : Option Instr := none

end Sys2Proof
end

