-- ==== Sys2Proof/Config.lean ====
section
/-! DEFINITION. What one engine fixes and the manual leaves open, as constants without a value: a proof can use
nothing about them, so a claim holds whatever they are. -/

namespace Sys2Proof.Config

/-- A fresh unstated value, by the count of values taken so far (log entry 3). -/
opaque freeValue : Nat → BitVec 64

/-- Which of the values within the accuracy of R225 an approximation gives, by operation and input (R247). -/
opaque approxPick : Nat → Word → Nat

/-- A sample that a program computes by an algorithm the manual does not give, by what has gone before, by the point of the mix and by
sample index (log entry 133). -/
opaque mixValue : Nat → Nat → Nat → Word

/-- The step of a single-pole average for a time constant in ms at a rate (R123): the manual gives no formula (log entry 133). -/
opaque rmsStep : Word → Nat → Word

/-- Delay of a synchronous bridge between two rates, in samples of the destination's (R111): fixed and computed at admission, by a
computation that the manual does not give (log entry 3). -/
opaque syncBridgeDelay : Nat → Nat → Nat

/-- Byte of an LBA encrypted with AES-256-XTS (R671), by key, tweak, plaintext and place: the cipher is of a standard outside the manual
(log entry 139). -/
opaque xtsByte : BitVec 512 → Nat → List Byte → Nat → Byte

/-- Energy of a rotation transfer, in nJ (R140, check 6): the manual gives no figure (log entry 3). -/
opaque rotationEnergy : Nat

/-- Longest host frame of a port, in bytes, without and with JUMBO (R517): the manual gives no figure (log entry 3). -/
opaque portMaximum : Bool → Nat

end Sys2Proof.Config
end

