-- ==== Sys2Proof/Machine/Table.lean ====
section
/-! DEFINITION. The one sparse-table representation of the model, and memory as its instance. A table lists, by
strictly rising key, only the entries that differ from what an unlisted key reads as, so equal tables are equal data. -/

namespace Sys2Proof

/-- The entry of a table at a key; `d` is what an unlisted key reads as. -/
def Tab.get {α : Type} (d : α) : Tab α → Nat → α
  | [], _ => d
  | (k, v) :: t, a => if a = k then v else Tab.get d t a

/-- A table with no entry at a key. -/
def Tab.del {α : Type} : Tab α → Nat → Tab α
  | [], _ => []
  | (k, v) :: t, a => if a = k then Tab.del t a else (k, v) :: Tab.del t a

/-- A table with an entry at a key, in the place its key gives it. -/
def Tab.ins {α : Type} : Tab α → Nat → α → Tab α
  | [], a, x => [(a, x)]
  | (k, v) :: t, a, x =>
    if a = k then (a, x) :: t else if a < k then (a, x) :: (k, v) :: t else (k, v) :: Tab.ins t a x

/-- Writing the default removes the entry, so the canonical form is kept. -/
def Tab.put {α : Type} [DecidableEq α] (d : α) (t : Tab α) (a : Nat) (x : α) : Tab α :=
  if x = d then Tab.del t a else Tab.ins t a x

/-- Read, change, write. -/
def Tab.upd {α : Type} [DecidableEq α] (d : α) (t : Tab α) (a : Nat) (f : α → α) : Tab α :=
  Tab.put d t a (f (Tab.get d t a))

/-- A table of listed entries, a later one in place of an earlier one of its key. -/
def Tab.ofList {α : Type} [DecidableEq α] (d : α) (l : List (Nat × α)) : Tab α :=
  l.foldl (fun t e => Tab.put d t e.1 e.2) []

/-- Keys strictly rise and no entry equals the default, read from a lower bound of the keys. -/
def Tab.wfFrom {α : Type} [DecidableEq α] (d : α) : Nat → Tab α → Bool
  | _, [] => true
  | lo, (k, v) :: t => decide (lo ≤ k) && decide (v ≠ d) && Tab.wfFrom d (k + 1) t

/-- The canonical form of a table. -/
def Tab.wf {α : Type} [DecidableEq α] (d : α) (t : Tab α) : Bool := Tab.wfFrom d 0 t

/-- A byte-addressed memory: the bytes that differ from what nothing has written, by rising address. -/
abbrev Memory := List Host.Cell

/-- What a byte that nothing has written reads as (DESIGN CHOICE, log entry 2). -/
def Memory.blank : Byte := 0

/-- One byte. -/
def Memory.read (m : Memory) (a : Nat) : Byte := Tab.get Memory.blank m a

/-- One byte stored. -/
def Memory.write (m : Memory) (a : Nat) (x : Byte) : Memory := Tab.put Memory.blank m a x

/-- The canonical form of a memory. -/
def Memory.wf (m : Memory) : Bool := Tab.wf Memory.blank m

/-- Bytes stored from an address upward. -/
def Memory.writeBytes (m : Memory) (a : Nat) : List Byte → Memory
  | [] => m
  | x :: xs => Memory.writeBytes (Memory.write m a x) (a + 1) xs

/-- `n` bytes from an address upward. -/
def Memory.readBytes (m : Memory) (a : Nat) : Nat → List Byte
  | 0 => []
  | n + 1 => Memory.read m a :: Memory.readBytes m (a + 1) n

/-- Little-endian value of bytes (R12). -/
def bytesToNat : List Byte → Nat
  | [] => 0
  | b :: bs => b.toNat + 256 * bytesToNat bs

/-- The `n` little-endian bytes of a value (R12). -/
def natToBytes : Nat → Nat → List Byte
  | 0, _ => []
  | n + 1, v => BitVec.ofNat 8 v :: natToBytes n (v / 256)

/-- A 32-bit little-endian word of memory. -/
def Memory.read32 (m : Memory) (a : Nat) : Word := BitVec.ofNat 32 (bytesToNat (Memory.readBytes m a 4))

/-- A 64-bit little-endian word of memory. -/
def Memory.read64 (m : Memory) (a : Nat) : Dword := BitVec.ofNat 64 (bytesToNat (Memory.readBytes m a 8))

/-- A little-endian value of `n` bytes stored. -/
def Memory.writeNat (m : Memory) (a n v : Nat) : Memory := Memory.writeBytes m a (natToBytes n v)

end Sys2Proof
end

