-- ==== Sys2Proof/Machine/Float.lean ====
section
/-! DEFINITION. Binary32 arithmetic of the units and the fixed engines (R219–R231): exact values as a sign, a
magnitude and a power of two, rounded once to the nearest binary32 value with ties to even. -/

namespace Sys2Proof.Fp

/-- The one NaN the engine produces (R222). -/
def qnan : Word := 0x7FC00000
def pinf : Word := 0x7F800000
def ninf : Word := 0xFF800000

def sign (x : Word) : Bool := x.getLsbD 31
def expo (x : Word) : Nat := (x.toNat / 2 ^ 23) % 256
def frac (x : Word) : Nat := x.toNat % 2 ^ 23
def isNaN (x : Word) : Bool := decide (expo x = 255) && decide (frac x ≠ 0)
def isInf (x : Word) : Bool := decide (expo x = 255) && decide (frac x = 0)
/-- Zero, or a subnormal read as zero (R221). -/
def isZero (x : Word) : Bool := decide (expo x = 0)
def isSub (x : Word) : Bool := decide (expo x = 0) && decide (frac x ≠ 0)
def signed (s : Bool) (x : Word) : Word := if s then x ||| 0x80000000 else x
def zero (s : Bool) : Word := signed s 0
def inf (s : Bool) : Word := signed s pinf

/-- Flags of one operation: NV, OF and FZ in bits 0, 1 and 2 of FFLAGS (R204). -/
structure Flags where
  nv : Bool := false
  oflow : Bool := false
  fz : Bool := false
  deriving DecidableEq, Repr

def Flags.bits (g : Flags) : BitVec 3 :=
  (if g.nv then 1 else 0) ||| (if g.oflow then 2 else 0) ||| (if g.fz then 4 else 0)

def Flags.or (g h : Flags) : Flags := ⟨g.nv || h.nv, g.oflow || h.oflow, g.fz || h.fz⟩

/-- An exact finite value: (-1)^neg × mag × 2^(ex - 300). -/
structure Exact where
  neg : Bool
  mag : Nat
  ex : Nat
  deriving DecidableEq, Repr

/-- The bias of `Exact.ex`; large enough for a product of two binary32 values. -/
def exBias : Nat := 300

/-- A finite input, subnormals read as zero (R221). -/
def exact (x : Word) : Exact :=
  if isZero x then ⟨sign x, 0, exBias⟩ else ⟨sign x, 2 ^ 23 + frac x, expo x + exBias - 150⟩

/-- Nearest integer to n / 2^k, ties to even. -/
def shiftRNE (n k : Nat) : Nat :=
  let q := n / 2 ^ k
  let r := n % 2 ^ k
  if k = 0 then n else if 2 * r < 2 ^ k then q else if 2 ^ k < 2 * r then q + 1 else q + q % 2

/-- Nearest integer to n / d, ties to even; d is positive. -/
def divRNE (n d : Nat) : Nat :=
  let q := n / d
  let r := n % d
  if 2 * r < d then q else if d < 2 * r then q + 1 else q + q % 2

/-- Rounds an exact value once to binary32 (R220), flushes a result below 2^-126 (R221) and overflows to infinity
(R223). An exact zero sets no flag. -/
def round (v : Exact) : Word × Flags :=
  if v.mag = 0 then (zero v.neg, {}) else
  let len := Nat.log2 v.mag + 1
  -- the unit in the last place is 2^(u - exBias); binary32 has none below 2^-149
  let u := max (v.ex + len - 24) (exBias - 149)
  let m := if v.ex < u then shiftRNE v.mag (u - v.ex) else v.mag * 2 ^ (v.ex - u)
  let m' := if m = 2 ^ 24 then 2 ^ 23 else m
  let u' := if m = 2 ^ 24 then u + 1 else u
  if m' < 2 ^ 23 then (zero v.neg, { fz := true })
  else
    let e := u' + 150 - exBias
    if 255 ≤ e then (inf v.neg, { oflow := true })
    else (signed v.neg (BitVec.ofNat 32 (e * 2 ^ 23 + (m' - 2 ^ 23))), {})

/-- The sum of two exact values; an exact zero sum of opposite signs is +0. -/
def exAdd (x y : Exact) : Exact :=
  let lo := min x.ex y.ex
  let a : Int := (if x.neg then -1 else 1) * (x.mag * 2 ^ (x.ex - lo) : Nat)
  let b : Int := (if y.neg then -1 else 1) * (y.mag * 2 ^ (y.ex - lo) : Nat)
  let t := a + b
  if t = 0 then ⟨x.neg && y.neg && decide (x.mag = 0) && decide (y.mag = 0), 0, lo⟩
  else ⟨decide (t < 0), t.natAbs, lo⟩

/-- The product of two exact values. -/
def exMul (x y : Exact) : Exact := ⟨x.neg != y.neg, x.mag * y.mag, x.ex + y.ex - exBias⟩

def neg (x : Word) : Word := x ^^^ 0x80000000

/-- Addition (R220–R223). -/
def add (a b : Word) : Word × Flags :=
  if isNaN a || isNaN b then (qnan, {})
  else if isInf a && isInf b then (if sign a = sign b then (a, {}) else (qnan, { nv := true }))
  else if isInf a then (a, {})
  else if isInf b then (b, {})
  else round (exAdd (exact a) (exact b))

def sub (a b : Word) : Word × Flags := if isNaN b then (qnan, {}) else add a (neg b)

/-- Multiplication (R220–R223). -/
def mul (a b : Word) : Word × Flags :=
  if isNaN a || isNaN b then (qnan, {})
  else if (isInf a && isZero b) || (isZero a && isInf b) then (qnan, { nv := true })
  else if isInf a || isInf b then (inf (sign a != sign b), {})
  else round (exMul (exact a) (exact b))

/-- d + a × b, formed exactly and rounded once (R220, R222). -/
def fma (d a b : Word) : Word × Flags :=
  if isNaN a || isNaN b || isNaN d then (qnan, {})
  else if (isInf a && isZero b) || (isZero a && isInf b) then (qnan, { nv := true })
  else if isInf a || isInf b then
    let s := sign a != sign b
    if isInf d && (sign d != s) then (qnan, { nv := true }) else (inf s, {})
  else if isInf d then (d, {})
  else round (exAdd (exact d) (exMul (exact a) (exact b)))

def fms (d a b : Word) : Word × Flags := if isNaN a then (qnan, {}) else fma d (neg a) b

def fnma (d a b : Word) : Word × Flags :=
  let r := fma d a b
  if isNaN r.1 then r else (neg r.1, r.2)

/-- A moved value: subnormals become zero, a NaN becomes the quiet NaN (R239). -/
def move (x : Word) : Word := if isNaN x then qnan else if isZero x then zero (sign x) else x

def abs (x : Word) : Word := let y := move x; if isNaN y then qnan else y &&& 0x7FFFFFFF

def negate (x : Word) : Word := let y := move x; if isNaN y then qnan else neg y

/-- A key that orders all values but NaN, with −0 below +0. -/
def key (x : Word) : Int :=
  let y := move x
  let m : Int := (y.toNat % 2 ^ 31 : Nat)
  if sign y then -m - 1 else m

/-- The value order of R241, in which −0.0 and +0.0 are equal. -/
def val (x : Word) : Int :=
  let y := move x
  let m : Int := (y.toNat % 2 ^ 31 : Nat)
  if sign y then -m else m

/-- R224. -/
def min (a b : Word) : Word :=
  if isNaN a && isNaN b then qnan else if isNaN a then move b else if isNaN b then move a
  else if key a ≤ key b then move a else move b

def max (a b : Word) : Word :=
  if isNaN a && isNaN b then qnan else if isNaN a then move b else if isNaN b then move a
  else if key b ≤ key a then move a else move b

/-- The conditions of FCMP (R241). -/
def cmp (c : Nat) (a b : Word) : Bool :=
  let un := isNaN a || isNaN b
  match c with
  | 0 => !un && decide (val a = val b)
  | 1 => un || decide (val a ≠ val b)
  | 2 => !un && decide (val a < val b)
  | 3 => !un && decide (val a ≤ val b)
  | 4 => !un && decide (val b < val a)
  | 5 => !un && decide (val b ≤ val a)
  | 6 => un
  | _ => !un

/-- FRAMP (R243). A step of ±0.0 leaves d as a moved value. -/
def ramp (d a b : Word) : Word × Flags :=
  if isNaN a || isNaN b || isNaN d then (qnan, {})
  else if isZero a then (move d, {})
  else
    let t := add d a
    if isNaN t.1 then t
    else if (decide (0 < val a) && decide (val b ≤ val t.1)) || (decide (val a < 0) && decide (val t.1 ≤ val b))
    then (move b, t.2)
    else t

/-- FSAT (R244). -/
def sat (a b : Word) : Word :=
  if isNaN a || isNaN b then qnan
  else
    let l := abs b
    if isZero l then 0
    else if val l < val a then l else if val a < val (neg l) then neg l else move a

/-- The replacements of R49 (R245). -/
def scrub (x : Word) : Word :=
  if isNaN x then 0
  else if isInf x then signed (sign x) 0x4B800000
  else if isZero x then zero (sign x) else x

/-- Signed value of a word as binary32 (R231, second form). -/
def ofInt (x : Word) : Word := (round ⟨decide (x.toInt < 0), x.toInt.natAbs, exBias⟩).1

/-- Binary32 to a signed 32-bit integer (R231). -/
def toInt (x : Word) : Word :=
  if isNaN x then 0
  else if isInf x then (if sign x then 0x80000000 else 0x7FFFFFFF)
  else
    let v := exact x
    let n := if v.ex < exBias then shiftRNE v.mag (exBias - v.ex) else v.mag * 2 ^ (v.ex - exBias)
    if v.neg then (if 2 ^ 31 < n then 0x80000000 else BitVec.ofInt 32 (-(n : Int)))
    else if 2 ^ 31 ≤ n then 0x7FFFFFFF else BitVec.ofNat 32 n

/-- Integer square root by bits, from bit `k` downward. -/
def isqrt (n : Nat) : Nat → Nat → Nat
  | 0, r => r
  | k + 1, r => let t := r + 2 ^ k; if t * t ≤ n then isqrt n k t else isqrt n k r

/-- A positive value m × 2^(e - exBias) with m of 24 bits and an exact-or-not mark, moved by at most one unit in the
last place: the accuracy R225 binds, with the choice among the values left to the engine. -/
def within (op : Nat) (x : Word) (neg : Bool) (m ex : Nat) (isExact : Bool) : Word × Flags :=
  let k := Config.approxPick op x
  let m' := if isExact then m + k % 3 - 1 else m + k % 2
  round ⟨neg, m', ex⟩

/-- FRCP (R225, R247). -/
def rcp (x : Word) : Word × Flags :=
  if isNaN x then (qnan, {})
  else if isZero x then (inf (sign x), {})
  else if isInf x then (zero (sign x), {})
  else
    let v := exact x
    -- 1 / (m 2^(ex - 300)): a quotient of 24 significant bits
    let sh := if v.mag = 2 ^ 23 then 46 else 47
    let q := 2 ^ sh / v.mag
    let r := within 0 x v.neg q (2 * exBias - v.ex - sh) (decide (q * v.mag = 2 ^ sh))
    (r.1, { fz := r.2.fz })

/-- FRSQ (R225, R247). -/
def rsq (x : Word) : Word × Flags :=
  if isNaN x then (qnan, {})
  else if isZero x then (inf (sign x), {})
  else if sign x then (qnan, { nv := true })
  else if isInf x then (0, {})
  else
    let v := exact x
    -- an even power of two, then the floor of 2^36 / √m in 24 bits
    let m := if v.ex % 2 = 0 then v.mag else 2 * v.mag
    let ex := if v.ex % 2 = 0 then v.ex else v.ex - 1
    let r0 := isqrt (2 ^ 72 / m) 25 0
    let sh := if 2 ^ 24 ≤ r0 then 1 else 0
    let r := r0 / 2 ^ sh
    ((within 1 x false r (414 - ex / 2 + sh) (decide (r * r * 2 ^ (2 * sh) * m = 2 ^ 72))).1, {})

/-- 2^f of a fraction f of `k` bits: the square roots of 2 in turn, each taken where its bit of f is set. `r` is twice the
square of the root of the bit before, and `acc` the product so far, both with 96 fractional bits. -/
def pow2 (f : Nat) : Nat → Nat → Nat → Nat
  | 0, _, acc => acc
  | k + 1, r, acc =>
    let c := isqrt (r * 2 ^ 96) 100 0
    pow2 f k c (if Nat.testBit f k then acc * c / 2 ^ 96 else acc)

/-- The fraction bits of log2 y, y in [1, 2) with 128 fractional bits, by repeated squaring. -/
def logBits : Nat → Nat → Nat → Nat
  | 0, _, acc => acc
  | k + 1, y, acc =>
    let s := y * y / 2 ^ 128
    if 2 ^ 129 ≤ s then logBits k (s / 2) (2 * acc + 1) else logBits k s (2 * acc)

/-- The value whose place in the order of R241 is an integer, the inverse of `val`. -/
def ofVal (i : Int) : Word := if i < 0 then BitVec.ofNat 32 (i.natAbs + 2 ^ 31) else BitVec.ofNat 32 i.natAbs

/-- A monotonic choice (R225): `lo` and `hi` bound the result at each place of the order, and `fa`, `fb` are the results at the
places `a`, `b`. The place in the middle takes a free value within its bounds and between the results beside it, and the half
that holds `x` is halved again; every monotonic function within the bounds can come about so, and no other. -/
def bisect (op : Nat) (lo hi : Int → Int) (x : Int) : Nat → Int → Int → Int → Int → Int
  | 0, _, _, fa, _ => fa
  | k + 1, a, b, fa, fb =>
    let m := (a + b) / 2
    let l := if lo m < fa then fa else lo m
    let h := if fb < hi m then fb else hi m
    let f := l + (Config.approxPick op (ofVal m) % ((h - l).toNat + 1) : Nat)
    if m = x then f else if x < m then bisect op lo hi x k a m fa f else bisect op lo hi x k m b f fb

/-- The largest integer not above a finite value. -/
def floorInt (x : Word) : Int :=
  let v := exact x
  ((if v.neg then -1 else 1) * (v.mag * 2 ^ v.ex : Nat) : Int) / (2 ^ exBias : Nat)

/-- The bounds of R225 on 2^x as places in the order: 2 ulp for inputs in [−32, +8], 4 ulp elsewhere, of the value whose first
24 bits are found to be `m`. An input read as zero gives 1. -/
def exp2Bound (x : Word) (up : Bool) : Int :=
  if isZero x then val 0x3F800000
  else
    let v := exact x
    let q : Int := (if v.neg then -1 else 1) * (v.mag * 2 ^ v.ex : Nat)
    -- f = x − floor x in units of 2^-64; 2^f in 96 fractional bits, then 24 significant bits
    let f := (q % (2 ^ exBias : Nat)).toNat / 2 ^ (exBias - 64)
    let m := pow2 f 64 (2 ^ 97) (2 ^ 96) / 2 ^ 73
    let wide := val x < val 0xC2000000 || val 0x41000000 < val x
    let m' := if up then m + (if wide then 4 else 2) else m - (if wide then 3 else 1)
    val (round ⟨false, m', (floorInt x + exBias - 23).toNat⟩).1

/-- FEXP2 (R225, R247): exact at integers, the stated values outside the range, and between two integers a monotonic choice
within the accuracy of R225. -/
def exp2 (x : Word) : Word × Flags :=
  if isNaN x then (qnan, {})
  else if isInf x then (if sign x then 0 else pinf, { oflow := !sign x })
  else if isZero x then (0x3F800000, {})
  else if val 0x43000000 ≤ val x then (pinf, { oflow := true })
  else if val x < val 0xC2FC0000 then (0, { fz := true })
  else
    let n := floorInt x
    let at_ (k : Int) : Int := ((k + 127).toNat * 2 ^ 23 : Nat)
    let place (k : Int) : Int := val (ofInt (BitVec.ofInt 32 k))
    if place n = val x then (ofVal (at_ n), {})
    else
      (ofVal (bisect 2 (fun i => exp2Bound (ofVal i) false) (fun i => exp2Bound (ofVal i) true) (val x) 32
        (place n) (place (n + 1)) (at_ n) (at_ (n + 1))), {})

/-- The bounds of R225 on log2 of a positive normal value that is no power of 2. Toward zero the bound at the foot of a binade
is held at the one its top has, so that it is monotonic. -/
def log2Bound (x : Word) (up : Bool) : Int :=
  let fl := logBits 64 ((2 ^ 23 + frac x) * 2 ^ 105) 0
  let q : Int := ((expo x : Int) - 127) * (2 ^ 64 : Nat) + fl
  let a := q.natAbs
  let sh := Nat.log2 a - 23
  let m := a / 2 ^ sh
  let wide := val x < val 0x2F800000 || val 0x43800000 < val x
  let k := if wide then 3 else 1
  let m' := if up = decide (q < 0) then Nat.max (2 * (m - k)) (2 ^ 24 - 1 - k) else 2 * (m + k + 1)
  val (round ⟨decide (q < 0), m', exBias + sh - 65⟩).1

/-- FLOG2 (R225, R247): exact at powers of two, the stated values at the special inputs, and between two powers of two a
monotonic choice within the accuracy of R225. -/
def log2 (x : Word) : Word × Flags :=
  if isNaN x then (qnan, {})
  else if isZero x then (ninf, {})
  else if sign x then (qnan, { nv := true })
  else if isInf x then (pinf, {})
  else
    let e := (expo x : Int) - 127
    let whole (k : Int) : Word := ofInt (BitVec.ofInt 32 k)
    if frac x = 0 then (whole e, {})
    else
      let a : Int := (expo x * 2 ^ 23 : Nat)
      (ofVal (bisect 3 (fun i => log2Bound (ofVal i) false) (fun i => log2Bound (ofVal i) true) (val x) 32
        a (a + 2 ^ 23) (val (whole e)) (val (whole (e + 1)))), {})

/-- The exact value num/den × 2^(ex - exBias) rounded once (R220): the quotient with a sticky bit below. -/
def roundQuot (neg : Bool) (num den ex : Nat) : Word × Flags :=
  let d := den * 2 ^ (65 - ex)
  let q := num * 2 ^ 64 / d
  let st := if num * 2 ^ 64 % d = 0 then 0 else 1
  round ⟨neg, 2 * q + st, ex - 65⟩

/-- A value in dB as log2 of linear gain, rounded once; an end at or below −144 dB is taken as −144 dB (R95). -/
def dbToLog2 (x : Word) : Word :=
  let y := if val x < val 0xC3100000 then 0xC3100000 else x
  let v := exact y
  (roundQuot v.neg (v.mag * 10000) 60206 v.ex).1

/-- log2 of linear gain as dB, rounded once. -/
def log2ToDb (x : Word) : Word :=
  let v := exact x
  (roundQuot v.neg (v.mag * 60206) 10000 v.ex).1

/-- A finite value on the common scale 2^-exBias. -/
def scaled (x : Word) : Int :=
  let v := exact x
  (if v.neg then -1 else 1) * (v.mag * 2 ^ v.ex : Nat)

/-- The quotient of two finite values by a positive integer, rounded once (R298). -/
def divNat (x : Word) (n : Nat) : Word :=
  let v := exact x
  if v.mag = 0 then x else (roundQuot v.neg v.mag n v.ex).1

end Sys2Proof.Fp
end

