-- ==== Sys2Proof/Machine/RegTable.lean ====
section
/-! DEFINITION. The access code and the power-up entry of every register field, row by row from the register tables of
the manual's chapters (R14, R15, R789): base offset, two strides with their counts, lowest bit, width, access, power-up
entry, and whether the field spans a LO/HI pair. -/

namespace Sys2Proof

/-- scrub windows. -/
def regRows02_0 : List RegRow := [
  ⟨0x20080, 0x400, 64, 0x0, 1, 0, 1, .ro, .num 0, false⟩,
  ⟨0x20080, 0x400, 64, 0x0, 1, 1, 1, .ro, .num 0, false⟩,
  ⟨0x20080, 0x400, 64, 0x0, 1, 2, 1, .ro, .num 0, false⟩,
  ⟨0x20084, 0x400, 64, 0x0, 1, 0, 32, .ro, .num 0, false⟩,
  ⟨0x20088, 0x400, 64, 0x0, 1, 0, 32, .ro, .num 0, false⟩]

/-- SCHED and cluster windows. -/
def regRows03_0 : List RegRow := [
  ⟨0x5000, 0x0, 1, 0x0, 1, 0, 1, .ro, .live, false⟩,
  ⟨0x5000, 0x0, 1, 0x0, 1, 1, 1, .ro, .num 0, false⟩,
  ⟨0x5000, 0x0, 1, 0x0, 1, 2, 1, .ro, .num 0, false⟩,
  ⟨0x5000, 0x0, 1, 0x0, 1, 3, 1, .ro, .live, false⟩,
  ⟨0x5000, 0x0, 1, 0x0, 1, 4, 1, .ro, .num 1, false⟩,
  ⟨0x5008, 0x0, 1, 0x0, 1, 0, 64, .ro, .num 0, true⟩,
  ⟨0x5010, 0x0, 1, 0x0, 1, 0, 64, .ro, .num 0, true⟩,
  ⟨0x5018, 0x0, 1, 0x0, 1, 0, 32, .ro, .num 0, false⟩,
  ⟨0x501c, 0x0, 1, 0x0, 1, 0, 32, .ro, .num 0, false⟩,
  ⟨0x5020, 0x0, 1, 0x0, 1, 0, 32, .ro, .num 0, false⟩,
  ⟨0x5024, 0x0, 1, 0x0, 1, 0, 16, .ro, .restored, false⟩,
  ⟨0x5028, 0x0, 1, 0x0, 1, 0, 1, .ws, .num 0, false⟩,
  ⟨0x200c0, 0x400, 64, 0x0, 1, 0, 4, .ro, .num 0, false⟩,
  ⟨0x200c0, 0x400, 64, 0x0, 1, 4, 2, .ro, .num 0, false⟩,
  ⟨0x200c0, 0x400, 64, 0x0, 1, 6, 1, .ro, .num 0, false⟩,
  ⟨0x200c0, 0x400, 64, 0x0, 1, 7, 1, .ro, .num 0, false⟩,
  ⟨0x200c0, 0x400, 64, 0x0, 1, 8, 24, .ro, .num 0, false⟩,
  ⟨0x200c8, 0x400, 64, 0x0, 1, 0, 64, .ro, .num 0, true⟩,
  ⟨0x200d0, 0x400, 64, 0x0, 1, 0, 32, .ro, .num 0, false⟩,
  ⟨0x200d4, 0x400, 64, 0x0, 1, 0, 32, .ro, .num 0, false⟩]

/-- unit windows. -/
def regRows04_0 : List RegRow := [
  ⟨0x20200, 0x400, 64, 0x10, 8, 0, 4, .ro, .num 0, false⟩,
  ⟨0x20200, 0x400, 64, 0x10, 8, 4, 1, .ro, .num 0, false⟩,
  ⟨0x20200, 0x400, 64, 0x10, 8, 5, 1, .ro, .num 0, false⟩,
  ⟨0x20200, 0x400, 64, 0x10, 8, 16, 16, .ro, .num 0, false⟩,
  ⟨0x20204, 0x400, 64, 0x10, 8, 0, 10, .ro, .num 0, false⟩,
  ⟨0x20208, 0x400, 64, 0x10, 8, 0, 3, .ro, .num 0, false⟩,
  ⟨0x20208, 0x400, 64, 0x10, 8, 3, 3, .ro, .num 0, false⟩]

/-- cluster and region windows. -/
def regRows06_0 : List RegRow := [
  ⟨0x20100, 0x400, 64, 0x0, 1, 0, 11, .ro, .num 0, false⟩,
  ⟨0x20100, 0x400, 64, 0x0, 1, 11, 8, .ro, .num 0, false⟩,
  ⟨0x20104, 0x400, 64, 0x0, 1, 0, 20, .ro, .num 0, false⟩,
  ⟨0x20104, 0x400, 64, 0x0, 1, 20, 4, .ro, .num 0, false⟩,
  ⟨0x20104, 0x400, 64, 0x0, 1, 31, 1, .ro, .num 0, false⟩,
  ⟨0x20108, 0x400, 64, 0x0, 1, 0, 16, .ro, .num 0, false⟩,
  ⟨0x20108, 0x400, 64, 0x0, 1, 16, 16, .ro, .num 0, false⟩,
  ⟨0x20120, 0x400, 64, 0x0, 1, 0, 1, .ro, .num 0, false⟩,
  ⟨0x20120, 0x400, 64, 0x0, 1, 1, 3, .ro, .num 0, false⟩,
  ⟨0x20120, 0x400, 64, 0x0, 1, 4, 4, .ro, .num 0, false⟩,
  ⟨0x20110, 0x400, 64, 0x0, 1, 0, 16, .ro, .num 0, false⟩,
  ⟨0x20110, 0x400, 64, 0x0, 1, 16, 16, .ro, .num 0, false⟩,
  ⟨0x20300, 0x400, 64, 0x4, 64, 0, 32, .ro, .num 0, false⟩,
  ⟨0x20180, 0x400, 64, 0x0, 1, 0, 11, .ro, .num 0, false⟩,
  ⟨0x20180, 0x400, 64, 0x0, 1, 16, 11, .ro, .num 0, false⟩,
  ⟨0x20180, 0x400, 64, 0x0, 1, 31, 1, .ro, .num 0, false⟩,
  ⟨0x20140, 0x400, 64, 0x0, 1, 0, 1, .ro, .num 0, false⟩,
  ⟨0x20140, 0x400, 64, 0x0, 1, 1, 1, .ro, .num 0, false⟩,
  ⟨0x20140, 0x400, 64, 0x0, 1, 16, 16, .ro, .num 0, false⟩,
  ⟨0x30040, 0x400, 8, 0x0, 1, 0, 16, .ro, .num 0, false⟩,
  ⟨0x30040, 0x400, 8, 0x0, 1, 16, 16, .ro, .num 0, false⟩,
  ⟨0x30044, 0x400, 8, 0x0, 1, 0, 16, .ro, .num 0, false⟩,
  ⟨0x30044, 0x400, 8, 0x0, 1, 16, 16, .ro, .num 0, false⟩,
  ⟨0x5040, 0x4, 8, 0x0, 1, 0, 2, .rw, .restored, false⟩,
  ⟨0x5040, 0x4, 8, 0x0, 1, 2, 2, .rw, .restored, false⟩,
  ⟨0x5040, 0x4, 8, 0x0, 1, 4, 2, .rw, .restored, false⟩,
  ⟨0x5060, 0x4, 2, 0x0, 1, 0, 2, .rw, .restored, false⟩,
  ⟨0x5070, 0x0, 1, 0x0, 1, 0, 1, .ro, .live, false⟩,
  ⟨0x5070, 0x0, 1, 0x0, 1, 1, 1, .w1c, .num 0, false⟩,
  ⟨0x5074, 0x0, 1, 0x0, 1, 0, 16, .ro, .num 0, false⟩,
  ⟨0x5074, 0x0, 1, 0x0, 1, 16, 16, .ro, .num 0, false⟩]

/-- pour registers. -/
def regRows07_0 : List RegRow := [
  ⟨0x5080, 0x0, 1, 0x0, 1, 0, 1, .ro, .restored, false⟩,
  ⟨0x5080, 0x0, 1, 0x0, 1, 16, 16, .rw, .restored, false⟩,
  ⟨0x5084, 0x0, 1, 0x0, 1, 0, 7, .ro, .num 0, false⟩,
  ⟨0x5084, 0x0, 1, 0x0, 1, 16, 7, .ro, .num 0, false⟩,
  ⟨0x5088, 0x0, 1, 0x0, 1, 0, 32, .ro, .num 0, false⟩,
  ⟨0x508c, 0x0, 1, 0x0, 1, 0, 32, .ro, .num 0, false⟩,
  ⟨0x5090, 0x0, 1, 0x0, 1, 0, 32, .ro, .num 0, false⟩,
  ⟨0x5094, 0x0, 1, 0x0, 1, 0, 32, .ro, .live, false⟩]

/-- CLK and TIME. -/
def regRows08_0 : List RegRow := [
  ⟨0x30000, 0x400, 8, 0x0, 1, 0, 2, .ro, .num 0, false⟩,
  ⟨0x30000, 0x400, 8, 0x0, 1, 2, 1, .ro, .live, false⟩,
  ⟨0x30000, 0x400, 8, 0x0, 1, 3, 1, .ro, .live, false⟩,
  ⟨0x30000, 0x400, 8, 0x0, 1, 4, 1, .ro, .num 0, false⟩,
  ⟨0x30000, 0x400, 8, 0x0, 1, 5, 1, .ro, .num 0, false⟩,
  ⟨0x30004, 0x400, 8, 0x0, 1, 0, 16, .ro, .num 0, false⟩,
  ⟨0x30004, 0x400, 8, 0x0, 1, 16, 16, .ro, .num 0, false⟩,
  ⟨0x2000, 0x0, 1, 0x0, 1, 0, 1, .ro, .live, false⟩,
  ⟨0x2000, 0x0, 1, 0x0, 1, 1, 1, .ro, .live, false⟩,
  ⟨0x2000, 0x0, 1, 0x0, 1, 2, 1, .w1c, .num 0, false⟩,
  ⟨0x2000, 0x0, 1, 0x0, 1, 3, 1, .ro, .restored, false⟩,
  ⟨0x2000, 0x0, 1, 0x0, 1, 4, 1, .w1c, .num 0, false⟩,
  ⟨0x2100, 0x100, 3, 0x0, 1, 0, 2, .rw, .restored, false⟩,
  ⟨0x2100, 0x100, 3, 0x0, 1, 2, 1, .rw, .restored, false⟩,
  ⟨0x2100, 0x100, 3, 0x0, 1, 8, 8, .rw, .restored, false⟩,
  ⟨0x2104, 0x100, 3, 0x0, 1, 0, 3, .ro, .live, false⟩,
  ⟨0x2104, 0x100, 3, 0x0, 1, 3, 3, .ro, .live, false⟩,
  ⟨0x2104, 0x100, 3, 0x0, 1, 6, 1, .ro, .live, false⟩,
  ⟨0x2104, 0x100, 3, 0x0, 1, 7, 1, .ro, .live, false⟩,
  ⟨0x2104, 0x100, 3, 0x0, 1, 8, 5, .w1c, .num 0, false⟩,
  ⟨0x2104, 0x100, 3, 0x0, 1, 13, 1, .w1c, .num 0, false⟩,
  ⟨0x2108, 0x100, 3, 0x0, 1, 0, 12, .rw, .restored, false⟩,
  ⟨0x2108, 0x100, 3, 0x0, 1, 16, 16, .rw, .restored, false⟩,
  ⟨0x210c, 0x100, 3, 0x0, 1, 0, 16, .rw, .restored, false⟩,
  ⟨0x2110, 0x100, 3, 0x0, 1, 0, 32, .rw, .restored, false⟩,
  ⟨0x2114, 0x100, 3, 0x0, 1, 0, 32, .ro, .live, false⟩,
  ⟨0x2118, 0x100, 3, 0x0, 1, 0, 16, .rw, .restored, false⟩,
  ⟨0x211c, 0x100, 3, 0x0, 1, 0, 8, .ro, .live, false⟩,
  ⟨0x211c, 0x100, 3, 0x0, 1, 8, 8, .w1c, .num 0, false⟩,
  ⟨0x211c, 0x100, 3, 0x0, 1, 16, 8, .rw, .restored, false⟩,
  ⟨0x211c, 0x100, 3, 0x0, 1, 24, 8, .rw, .restored, false⟩,
  ⟨0x2120, 0x100, 3, 0x4, 8, 0, 4, .rw, .restored, false⟩,
  ⟨0x2120, 0x100, 3, 0x4, 8, 4, 3, .rw, .restored, false⟩,
  ⟨0x2120, 0x100, 3, 0x4, 8, 8, 3, .rw, .restored, false⟩,
  ⟨0x2120, 0x100, 3, 0x4, 8, 16, 16, .rw, .restored, false⟩,
  ⟨0x2400, 0x100, 3, 0x0, 1, 0, 1, .ws, .num 0, false⟩,
  ⟨0x2400, 0x100, 3, 0x0, 1, 1, 1, .ws, .num 0, false⟩,
  ⟨0x2404, 0x100, 3, 0x0, 1, 0, 2, .ro, .live, false⟩,
  ⟨0x2404, 0x100, 3, 0x0, 1, 2, 4, .ro, .live, false⟩,
  ⟨0x2404, 0x100, 3, 0x0, 1, 6, 1, .w1c, .num 0, false⟩,
  ⟨0x2404, 0x100, 3, 0x0, 1, 7, 1, .w1c, .num 0, false⟩,
  ⟨0x2408, 0x100, 3, 0x0, 1, 0, 64, .rw, .num 0, true⟩,
  ⟨0x2410, 0x100, 3, 0x0, 1, 0, 5, .rw, .num 0, false⟩,
  ⟨0x2480, 0x100, 3, 0x8, 16, 0, 24, .rw, .num 0, false⟩,
  ⟨0x2484, 0x100, 3, 0x8, 16, 0, 32, .rw, .num 0, false⟩,
  ⟨0x3000, 0x0, 1, 0x0, 1, 0, 3, .ro, .num 0, false⟩,
  ⟨0x3000, 0x0, 1, 0x0, 1, 3, 3, .ro, .num 0, false⟩,
  ⟨0x3000, 0x0, 1, 0x0, 1, 6, 1, .ro, .num 1, false⟩,
  ⟨0x3000, 0x0, 1, 0x0, 1, 7, 1, .w1c, .num 0, false⟩,
  ⟨0x3004, 0x0, 1, 0x0, 1, 0, 10, .rw, .restored, false⟩,
  ⟨0x3004, 0x0, 1, 0x0, 1, 16, 8, .rw, .restored, false⟩,
  ⟨0x3008, 0x0, 1, 0x0, 1, 0, 1, .ws, .num 0, false⟩,
  ⟨0x3010, 0x0, 1, 0x0, 1, 0, 48, .ro, .num 0, true⟩,
  ⟨0x3018, 0x0, 1, 0x0, 1, 0, 30, .ro, .num 0, false⟩,
  ⟨0x301c, 0x0, 1, 0x0, 1, 0, 4, .ro, .num 0, false⟩,
  ⟨0x3020, 0x8, 3, 0x0, 1, 0, 64, .ro, .num 0, true⟩,
  ⟨0x3040, 0x0, 1, 0x0, 1, 0, 2, .rw, .restored, false⟩,
  ⟨0x3040, 0x0, 1, 0x0, 1, 2, 8, .rw, .restored, false⟩,
  ⟨0x3040, 0x0, 1, 0x0, 1, 10, 1, .rw, .restored, false⟩,
  ⟨0x3040, 0x0, 1, 0x0, 1, 11, 1, .rw, .restored, false⟩]

/-- CLK and TIME. -/
def regRows08_1 : List RegRow := [
  ⟨0x3044, 0x4, 3, 0x0, 1, 0, 1, .rw, .restored, false⟩,
  ⟨0x3044, 0x4, 3, 0x0, 1, 4, 4, .ro, .live, false⟩,
  ⟨0x3050, 0x4, 3, 0x0, 1, 0, 5, .ro, .live, false⟩,
  ⟨0x3050, 0x4, 3, 0x0, 1, 8, 1, .w1c, .num 0, false⟩,
  ⟨0x3050, 0x4, 3, 0x0, 1, 16, 16, .ro, .num 0, false⟩,
  ⟨0x3060, 0x4, 3, 0x0, 1, 0, 16, .rw, .restored, false⟩,
  ⟨0x3060, 0x4, 3, 0x0, 1, 16, 16, .rw, .restored, false⟩,
  ⟨0x3070, 0x0, 1, 0x0, 1, 0, 32, .ro, .num 0, false⟩,
  ⟨0x3100, 0x10, 8, 0x0, 1, 0, 64, .rw, .num 0, true⟩,
  ⟨0x3108, 0x10, 8, 0x0, 1, 0, 2, .rw, .num 0, false⟩,
  ⟨0x3108, 0x10, 8, 0x0, 1, 2, 1, .ws, .num 0, false⟩,
  ⟨0x3108, 0x10, 8, 0x0, 1, 3, 1, .ws, .num 0, false⟩,
  ⟨0x3108, 0x10, 8, 0x0, 1, 4, 1, .ro, .num 0, false⟩,
  ⟨0x3108, 0x10, 8, 0x0, 1, 5, 1, .w1c, .num 0, false⟩,
  ⟨0x3108, 0x10, 8, 0x0, 1, 6, 1, .w1c, .num 0, false⟩]

/-- HOST and DMA. -/
def regRows09_0 : List RegRow := [
  ⟨0x4000, 0x0, 1, 0x0, 1, 0, 1, .ro, .live, false⟩,
  ⟨0x4000, 0x0, 1, 0x0, 1, 1, 2, .ro, .live, false⟩,
  ⟨0x4000, 0x0, 1, 0x0, 1, 3, 3, .ro, .live, false⟩,
  ⟨0x4000, 0x0, 1, 0x0, 1, 6, 1, .ro, .live, false⟩,
  ⟨0x4000, 0x0, 1, 0x0, 1, 7, 1, .ro, .live, false⟩,
  ⟨0x4000, 0x0, 1, 0x0, 1, 8, 1, .ro, .live, false⟩,
  ⟨0x4000, 0x0, 1, 0x0, 1, 9, 1, .w1c, .num 0, false⟩,
  ⟨0x4000, 0x0, 1, 0x0, 1, 10, 1, .w1c, .num 0, false⟩,
  ⟨0x4000, 0x0, 1, 0x0, 1, 11, 1, .w1c, .num 0, false⟩,
  ⟨0x4000, 0x0, 1, 0x0, 1, 12, 1, .w1c, .num 0, false⟩,
  ⟨0x4004, 0x0, 1, 0x0, 1, 0, 6, .rw, .restored, false⟩,
  ⟨0x4008, 0x0, 1, 0x0, 1, 0, 32, .ro, .live, false⟩,
  ⟨0x400c, 0x0, 1, 0x0, 1, 0, 32, .ro, .num 0, false⟩,
  ⟨0x4010, 0x0, 1, 0x0, 1, 0, 32, .ro, .num 0, false⟩,
  ⟨0x4014, 0x0, 1, 0x0, 1, 0, 1, .ws, .num 0, false⟩,
  ⟨0x4018, 0x0, 1, 0x0, 1, 0, 16, .rw, .num 0, false⟩,
  ⟨0x401c, 0x0, 1, 0x0, 1, 0, 2, .rw, .num 0, false⟩,
  ⟨0x401c, 0x0, 1, 0x0, 1, 2, 2, .rw, .num 0, false⟩,
  ⟨0x401c, 0x0, 1, 0x0, 1, 4, 2, .rw, .num 0, false⟩,
  ⟨0x401c, 0x0, 1, 0x0, 1, 6, 2, .rw, .num 0, false⟩,
  ⟨0x401c, 0x0, 1, 0x0, 1, 8, 2, .rw, .num 0, false⟩,
  ⟨0x401c, 0x0, 1, 0x0, 1, 10, 2, .rw, .num 0, false⟩,
  ⟨0x4020, 0x0, 1, 0x0, 1, 0, 1, .ro, .restored, false⟩,
  ⟨0x4024, 0x0, 1, 0x0, 1, 0, 64, .ro, .restored, true⟩,
  ⟨0x402c, 0x0, 1, 0x0, 1, 0, 64, .ro, .live, true⟩,
  ⟨0x4038, 0x0, 1, 0x0, 1, 0, 64, .ro, .num 0, true⟩,
  ⟨0x4040, 0x0, 1, 0x0, 1, 0, 64, .w1c, .num 0, true⟩,
  ⟨0x4048, 0x0, 1, 0x0, 1, 0, 32, .ro, .restored, false⟩,
  ⟨0x404c, 0x0, 1, 0x0, 1, 0, 32, .ro, .restored, false⟩,
  ⟨0x4100, 0x20, 8, 0x0, 1, 0, 64, .rw, .num 0, true⟩,
  ⟨0x4108, 0x20, 8, 0x0, 1, 0, 4, .rw, .num 0, false⟩,
  ⟨0x4108, 0x20, 8, 0x0, 1, 4, 2, .rw, .num 0, false⟩,
  ⟨0x4108, 0x20, 8, 0x0, 1, 8, 1, .rw, .num 0, false⟩,
  ⟨0x410c, 0x20, 8, 0x0, 1, 0, 15, .ro, .num 0, false⟩,
  ⟨0x4110, 0x20, 8, 0x0, 1, 0, 15, .ro, .num 0, false⟩,
  ⟨0x4114, 0x20, 8, 0x0, 1, 0, 4, .ro, .num 0, false⟩,
  ⟨0x4288, 0x20, 4, 0x0, 1, 0, 4, .rw, .num 0, false⟩,
  ⟨0x4288, 0x20, 4, 0x0, 1, 4, 2, .rw, .num 0, false⟩,
  ⟨0x4288, 0x20, 4, 0x0, 1, 6, 1, .rw, .num 0, false⟩,
  ⟨0x4288, 0x20, 4, 0x0, 1, 8, 1, .rw, .num 0, false⟩,
  ⟨0x4288, 0x20, 4, 0x0, 1, 12, 4, .rw, .num 0, false⟩,
  ⟨0x4400, 0x10, 16, 0x0, 1, 0, 64, .rw, .num 0, true⟩,
  ⟨0x4408, 0x10, 16, 0x0, 1, 0, 32, .rw, .num 0, false⟩,
  ⟨0x440c, 0x10, 16, 0x0, 1, 0, 1, .rw, .num 0, false⟩,
  ⟨0x440c, 0x10, 16, 0x0, 1, 1, 1, .rw, .num 0, false⟩,
  ⟨0x440c, 0x10, 16, 0x0, 1, 2, 1, .rw, .num 0, false⟩,
  ⟨0xa000, 0x100, 32, 0x0, 1, 0, 1, .ws, .num 0, false⟩,
  ⟨0xa000, 0x100, 32, 0x0, 1, 1, 1, .ws, .num 0, false⟩,
  ⟨0xa008, 0x100, 32, 0x0, 1, 0, 64, .rw, .num 0, true⟩,
  ⟨0xa010, 0x100, 32, 0x0, 1, 0, 2, .ro, .live, false⟩,
  ⟨0xa010, 0x100, 32, 0x0, 1, 8, 8, .ro, .num 0, false⟩,
  ⟨0xa010, 0x100, 32, 0x0, 1, 16, 1, .w1c, .num 0, false⟩,
  ⟨0xa018, 0x100, 32, 0x0, 1, 0, 64, .ro, .num 0, true⟩,
  ⟨0xa020, 0x100, 32, 0x0, 1, 0, 32, .ro, .num 0, false⟩,
  ⟨0xa028, 0x100, 32, 0x0, 1, 0, 64, .ro, .num 0, true⟩,
  ⟨0x4200, 0x20, 4, 0x0, 1, 0, 64, .rw, .num 0, true⟩,
  ⟨0x4208, 0x20, 4, 0x0, 1, 0, 4, .rw, .num 0, false⟩,
  ⟨0x4208, 0x20, 4, 0x0, 1, 8, 1, .rw, .num 0, false⟩,
  ⟨0x420c, 0x20, 4, 0x0, 1, 0, 15, .ro, .num 0, false⟩,
  ⟨0x4210, 0x20, 4, 0x0, 1, 0, 15, .ro, .num 0, false⟩]

/-- HOST and DMA. -/
def regRows09_1 : List RegRow := [
  ⟨0x4214, 0x20, 4, 0x0, 1, 0, 4, .ro, .num 0, false⟩,
  ⟨0x4280, 0x20, 4, 0x0, 1, 0, 64, .rw, .num 0, true⟩,
  ⟨0x428c, 0x20, 4, 0x0, 1, 0, 15, .ro, .num 0, false⟩,
  ⟨0x4290, 0x20, 4, 0x0, 1, 0, 15, .ro, .num 0, false⟩,
  ⟨0x4294, 0x20, 4, 0x0, 1, 0, 4, .ro, .num 0, false⟩]

/-- network. -/
def regRows10_0 : List RegRow := [
  ⟨0xc000, 0x1000, 3, 0x0, 1, 0, 1, .rw, .restored, false⟩,
  ⟨0xc000, 0x1000, 3, 0x0, 1, 1, 1, .rw, .restored, false⟩,
  ⟨0xc000, 0x1000, 3, 0x0, 1, 2, 1, .rw, .restored, false⟩,
  ⟨0xc000, 0x1000, 2, 0x0, 1, 3, 2, .rw, .restored, false⟩,
  ⟨0xc000, 0x1000, 3, 0x0, 1, 5, 1, .rw, .restored, false⟩,
  ⟨0xc004, 0x1000, 3, 0x0, 1, 0, 1, .ro, .live, false⟩,
  ⟨0xc004, 0x1000, 3, 0x0, 1, 1, 1, .ro, .live, false⟩,
  ⟨0xc004, 0x1000, 3, 0x0, 1, 2, 1, .ro, .live, false⟩,
  ⟨0xc004, 0x1000, 3, 0x0, 1, 3, 1, .ro, .live, false⟩,
  ⟨0xc004, 0x1000, 3, 0x0, 1, 4, 1, .w1c, .num 0, false⟩,
  ⟨0xc004, 0x1000, 3, 0x0, 1, 5, 1, .w1c, .num 0, false⟩,
  ⟨0xc004, 0x1000, 3, 0x0, 1, 6, 1, .w1c, .num 0, false⟩,
  ⟨0xc008, 0x1000, 3, 0x0, 1, 0, 48, .ro, .restored, true⟩,
  ⟨0xc010, 0x1000, 3, 0x0, 1, 0, 48, .rw, .restored, true⟩,
  ⟨0xc018, 0x1000, 3, 0x0, 1, 0, 32, .rw, .restored, false⟩,
  ⟨0xc01c, 0x1000, 3, 0x0, 1, 0, 6, .rw, .restored, false⟩,
  ⟨0xc020, 0x1000, 3, 0x4, 4, 0, 32, .rw, .restored, false⟩,
  ⟨0xc030, 0x1000, 3, 0x0, 1, 0, 12, .rw, .restored, false⟩,
  ⟨0xc030, 0x1000, 3, 0x0, 1, 12, 1, .rw, .restored, false⟩,
  ⟨0xc034, 0x1000, 2, 0x0, 1, 0, 10, .rw, .restored, false⟩,
  ⟨0xc040, 0x1000, 2, 0x0, 1, 0, 2, .ro, .restored, false⟩,
  ⟨0xc040, 0x1000, 2, 0x0, 1, 2, 1, .ro, .restored, false⟩,
  ⟨0xc040, 0x1000, 2, 0x0, 1, 3, 1, .ro, .live, false⟩,
  ⟨0xc040, 0x1000, 2, 0x0, 1, 8, 7, .ro, .live, false⟩,
  ⟨0xc080, 0x1000, 3, 0x0, 1, 0, 32, .ro, .num 0, false⟩,
  ⟨0xc084, 0x1000, 3, 0x0, 1, 0, 32, .ro, .num 0, false⟩,
  ⟨0xc088, 0x1000, 2, 0x0, 1, 0, 32, .ro, .num 0, false⟩,
  ⟨0xc08c, 0x1000, 3, 0x0, 1, 0, 32, .ro, .num 0, false⟩,
  ⟨0xc0fc, 0x1000, 3, 0x0, 1, 0, 1, .ws, .num 0, false⟩,
  ⟨0xc100, 0x1000, 3, 0x4, 24, 0, 32, .ro, .live, false⟩,
  ⟨0xc160, 0x1000, 3, 0x4, 3, 0, 32, .ro, .live, false⟩,
  ⟨0xf000, 0x0, 1, 0x0, 1, 0, 1, .w1c, .num 0, false⟩,
  ⟨0xf010, 0x4, 5, 0x0, 1, 0, 32, .ro, .num 0, false⟩,
  ⟨0xf030, 0x0, 1, 0x0, 1, 0, 32, .ro, .num 0, false⟩,
  ⟨0xf034, 0x0, 1, 0x0, 1, 0, 32, .ro, .num 0, false⟩,
  ⟨0xf03c, 0x0, 1, 0x0, 1, 0, 1, .ws, .num 0, false⟩,
  ⟨0xf800, 0x4, 512, 0x0, 1, 0, 32, .ro, .num 0, false⟩]

/-- Wamund. -/
def regRows11_0 : List RegRow := [
  ⟨0x10000, 0x400, 4, 0x0, 1, 0, 1, .rw, .restored, false⟩,
  ⟨0x10000, 0x400, 4, 0x0, 1, 1, 1, .ws, .num 0, false⟩,
  ⟨0x10004, 0x400, 4, 0x0, 1, 0, 3, .ro, .live, false⟩,
  ⟨0x10004, 0x400, 4, 0x0, 1, 3, 1, .ro, .live, false⟩,
  ⟨0x10004, 0x400, 4, 0x0, 1, 4, 1, .ro, .live, false⟩,
  ⟨0x10004, 0x400, 4, 0x0, 1, 5, 1, .w1c, .num 0, false⟩,
  ⟨0x10004, 0x400, 4, 0x0, 1, 6, 1, .w1c, .num 0, false⟩,
  ⟨0x10004, 0x400, 4, 0x0, 1, 7, 1, .w1c, .num 0, false⟩,
  ⟨0x10004, 0x400, 4, 0x0, 1, 8, 1, .w1c, .num 0, false⟩,
  ⟨0x10008, 0x400, 4, 0x0, 1, 0, 16, .ro, .live, false⟩,
  ⟨0x10008, 0x400, 4, 0x0, 1, 16, 1, .ro, .live, false⟩,
  ⟨0x1000c, 0x400, 4, 0x0, 1, 0, 32, .ro, .live, false⟩,
  ⟨0x10010, 0x400, 4, 0x0, 1, 0, 32, .rw, .restored, false⟩,
  ⟨0x10014, 0x400, 4, 0x0, 1, 0, 16, .ro, .live, false⟩,
  ⟨0x10014, 0x400, 4, 0x0, 1, 16, 16, .ro, .live, false⟩,
  ⟨0x10018, 0x400, 4, 0x0, 1, 0, 32, .ro, .live, false⟩,
  ⟨0x10020, 0x400, 4, 0x0, 1, 0, 32, .ro, .num 0, false⟩,
  ⟨0x10024, 0x400, 4, 0x0, 1, 0, 32, .ro, .num 0, false⟩,
  ⟨0x10028, 0x400, 4, 0x0, 1, 0, 32, .ro, .num 0, false⟩,
  ⟨0x1002c, 0x400, 4, 0x0, 1, 0, 32, .ro, .num 0, false⟩,
  ⟨0x10030, 0x400, 4, 0x0, 1, 0, 32, .ro, .num 0, false⟩,
  ⟨0x10034, 0x400, 4, 0x0, 1, 0, 32, .ro, .num 0, false⟩,
  ⟨0x1003c, 0x400, 4, 0x0, 1, 0, 1, .ws, .num 0, false⟩,
  ⟨0x10300, 0x0, 1, 0x0, 1, 0, 16, .ro, .restored, false⟩,
  ⟨0x10304, 0x0, 1, 0x0, 1, 0, 4, .rw, .restored, false⟩,
  ⟨0x10304, 0x0, 1, 0x0, 1, 4, 16, .rw, .restored, false⟩,
  ⟨0x10308, 0x0, 1, 0x0, 1, 0, 16, .rw, .num 0, false⟩,
  ⟨0x1030c, 0x0, 1, 0x0, 1, 0, 8, .ro, .live, false⟩,
  ⟨0x10310, 0x0, 1, 0x0, 1, 0, 10, .rw, .restored, false⟩]

/-- serial ports and AES3. -/
def regRows12_0 : List RegRow := [
  ⟨0x6000, 0x0, 1, 0x0, 1, 0, 1, .w1c, .num 0, false⟩,
  ⟨0x6004, 0x0, 1, 0x0, 1, 0, 1, .ws, .num 0, false⟩,
  ⟨0x6010, 0x4, 4, 0x0, 1, 0, 1, .rw, .restored, false⟩,
  ⟨0x6010, 0x4, 4, 0x0, 1, 1, 2, .rw, .restored, false⟩,
  ⟨0x6010, 0x4, 4, 0x0, 1, 3, 2, .rw, .restored, false⟩,
  ⟨0x6010, 0x4, 4, 0x0, 1, 5, 1, .rw, .restored, false⟩,
  ⟨0x6010, 0x4, 4, 0x0, 1, 6, 1, .rw, .restored, false⟩,
  ⟨0x6010, 0x4, 4, 0x0, 1, 7, 1, .rw, .restored, false⟩,
  ⟨0x6010, 0x4, 4, 0x0, 1, 8, 4, .rw, .restored, false⟩,
  ⟨0x6010, 0x4, 4, 0x0, 1, 12, 6, .rw, .restored, false⟩,
  ⟨0x6010, 0x4, 4, 0x0, 1, 18, 2, .rw, .restored, false⟩,
  ⟨0x6010, 0x4, 4, 0x0, 1, 20, 5, .rw, .restored, false⟩,
  ⟨0x6020, 0x4, 4, 0x0, 1, 0, 1, .ro, .live, false⟩,
  ⟨0x6020, 0x4, 4, 0x0, 1, 8, 24, .ro, .live, false⟩,
  ⟨0x6100, 0x20, 16, 0x0, 1, 0, 1, .rw, .restored, false⟩,
  ⟨0x6100, 0x20, 16, 0x0, 1, 1, 1, .rw, .restored, false⟩,
  ⟨0x6100, 0x20, 16, 0x0, 1, 2, 2, .rw, .restored, false⟩,
  ⟨0x6100, 0x20, 16, 0x0, 1, 4, 1, .rw, .restored, false⟩,
  ⟨0x6100, 0x20, 16, 0x0, 1, 5, 1, .rw, .restored, false⟩,
  ⟨0x6104, 0x20, 16, 0x0, 1, 0, 32, .rw, .restored, false⟩,
  ⟨0x6108, 0x20, 16, 0x0, 1, 0, 1, .ro, .live, false⟩,
  ⟨0x6108, 0x20, 16, 0x0, 1, 1, 1, .ro, .live, false⟩,
  ⟨0x6108, 0x20, 16, 0x0, 1, 2, 1, .w1c, .num 0, false⟩,
  ⟨0x6108, 0x20, 16, 0x0, 1, 3, 1, .w1c, .num 0, false⟩,
  ⟨0x6108, 0x20, 16, 0x0, 1, 4, 1, .w1c, .num 0, false⟩,
  ⟨0x6108, 0x20, 16, 0x0, 1, 5, 1, .ro, .live, false⟩,
  ⟨0x6108, 0x20, 16, 0x0, 1, 6, 1, .w1c, .num 0, false⟩,
  ⟨0x6108, 0x20, 16, 0x0, 1, 7, 1, .w1c, .num 0, false⟩,
  ⟨0x610c, 0x20, 16, 0x0, 1, 0, 16, .ro, .num 0, false⟩,
  ⟨0x610c, 0x20, 16, 0x0, 1, 16, 16, .ro, .num 0, false⟩,
  ⟨0x7000, 0x0, 1, 0x0, 1, 0, 1, .w1c, .num 0, false⟩,
  ⟨0x7004, 0x0, 1, 0x0, 1, 0, 1, .ws, .num 0, false⟩,
  ⟨0x7008, 0x0, 1, 0x0, 1, 0, 8, .rw, .restored, false⟩,
  ⟨0x700c, 0x0, 1, 0x0, 1, 0, 8, .ro, .live, false⟩,
  ⟨0x700c, 0x0, 1, 0x0, 1, 8, 8, .ro, .num 0, false⟩,
  ⟨0x700c, 0x0, 1, 0x0, 1, 16, 16, .ro, .num 0, false⟩,
  ⟨0x7100, 0x80, 8, 0x0, 1, 0, 1, .rw, .restored, false⟩,
  ⟨0x7100, 0x80, 8, 0x0, 1, 1, 2, .rw, .restored, false⟩,
  ⟨0x7100, 0x80, 8, 0x0, 1, 8, 8, .rw, .restored, false⟩,
  ⟨0x7104, 0x80, 8, 0x0, 1, 0, 2, .ro, .live, false⟩,
  ⟨0x7104, 0x80, 8, 0x0, 1, 2, 3, .ro, .live, false⟩,
  ⟨0x7104, 0x80, 8, 0x0, 1, 5, 1, .ro, .live, false⟩,
  ⟨0x7104, 0x80, 8, 0x0, 1, 6, 1, .w1c, .num 0, false⟩,
  ⟨0x7104, 0x80, 8, 0x0, 1, 7, 1, .w1c, .num 0, false⟩,
  ⟨0x7104, 0x80, 8, 0x0, 1, 8, 1, .w1c, .num 0, false⟩,
  ⟨0x7104, 0x80, 8, 0x0, 1, 9, 1, .w1c, .num 0, false⟩,
  ⟨0x7108, 0x80, 8, 0x0, 1, 0, 32, .ro, .live, false⟩,
  ⟨0x710c, 0x80, 8, 0x0, 1, 0, 16, .ro, .num 0, false⟩,
  ⟨0x710c, 0x80, 8, 0x0, 1, 16, 16, .ro, .num 0, false⟩,
  ⟨0x7110, 0x80, 8, 0x0, 1, 0, 1, .ws, .num 0, false⟩,
  ⟨0x7114, 0x80, 8, 0x0, 1, 0, 16, .ro, .live, false⟩,
  ⟨0x7120, 0x80, 8, 0x4, 6, 0, 32, .ro, .num 0, false⟩,
  ⟨0x7140, 0x80, 8, 0x4, 6, 0, 32, .ro, .num 0, false⟩,
  ⟨0x7500, 0x80, 8, 0x0, 1, 0, 1, .rw, .restored, false⟩,
  ⟨0x7500, 0x80, 8, 0x0, 1, 1, 2, .rw, .restored, false⟩,
  ⟨0x7500, 0x80, 8, 0x0, 1, 3, 1, .rw, .restored, false⟩,
  ⟨0x7500, 0x80, 8, 0x0, 1, 4, 1, .ws, .num 0, false⟩,
  ⟨0x7504, 0x80, 8, 0x0, 1, 0, 1, .ro, .live, false⟩,
  ⟨0x7504, 0x80, 8, 0x0, 1, 1, 1, .ro, .live, false⟩,
  ⟨0x7504, 0x80, 8, 0x0, 1, 2, 1, .ro, .live, false⟩]

/-- serial ports and AES3. -/
def regRows12_1 : List RegRow := [
  ⟨0x7520, 0x80, 8, 0x4, 6, 0, 32, .rw, .restored, false⟩,
  ⟨0x7540, 0x80, 8, 0x4, 6, 0, 32, .rw, .restored, false⟩]

/-- HUBA. -/
def regRows13_0 : List RegRow := [
  ⟨0x8000, 0x0, 1, 0x0, 1, 0, 1, .w1c, .num 0, false⟩,
  ⟨0x8004, 0x0, 1, 0x0, 1, 0, 1, .ws, .num 0, false⟩,
  ⟨0x8008, 0x0, 1, 0x0, 1, 0, 2, .rw, .restored, false⟩,
  ⟨0x8008, 0x0, 1, 0x0, 1, 2, 2, .rw, .restored, false⟩,
  ⟨0x8010, 0x10, 2, 0x0, 1, 0, 1, .rw, .restored, false⟩,
  ⟨0x8010, 0x10, 2, 0x0, 1, 1, 1, .rw, .restored, false⟩,
  ⟨0x8010, 0x10, 2, 0x0, 1, 2, 1, .rw, .restored, false⟩,
  ⟨0x8010, 0x10, 2, 0x0, 1, 3, 2, .rw, .restored, false⟩,
  ⟨0x8010, 0x10, 2, 0x0, 1, 5, 1, .rw, .restored, false⟩,
  ⟨0x8010, 0x10, 2, 0x0, 1, 8, 5, .rw, .restored, false⟩,
  ⟨0x8014, 0x10, 2, 0x0, 1, 0, 3, .rw, .restored, false⟩,
  ⟨0x8014, 0x10, 2, 0x0, 1, 4, 3, .rw, .restored, false⟩,
  ⟨0x8014, 0x10, 2, 0x0, 1, 8, 3, .rw, .restored, false⟩,
  ⟨0x8014, 0x10, 2, 0x0, 1, 12, 3, .rw, .restored, false⟩,
  ⟨0x8018, 0x10, 2, 0x0, 1, 0, 1, .ro, .live, false⟩,
  ⟨0x8018, 0x10, 2, 0x0, 1, 1, 5, .ro, .live, false⟩,
  ⟨0x8018, 0x10, 2, 0x0, 1, 6, 1, .ro, .live, false⟩,
  ⟨0x8018, 0x10, 2, 0x0, 1, 7, 1, .w1c, .num 0, false⟩,
  ⟨0x8018, 0x10, 2, 0x0, 1, 8, 4, .w1c, .num 0, false⟩,
  ⟨0x8018, 0x10, 2, 0x0, 1, 16, 8, .ro, .live, false⟩,
  ⟨0x801c, 0x10, 2, 0x0, 1, 0, 16, .ro, .num 0, false⟩,
  ⟨0x801c, 0x10, 2, 0x0, 1, 16, 16, .ro, .num 0, false⟩,
  ⟨0x8030, 0x10, 2, 0x0, 1, 0, 1, .rw, .restored, false⟩,
  ⟨0x8030, 0x10, 2, 0x0, 1, 3, 2, .rw, .restored, false⟩,
  ⟨0x8034, 0x10, 2, 0x0, 1, 0, 3, .rw, .restored, false⟩,
  ⟨0x8034, 0x10, 2, 0x0, 1, 4, 3, .rw, .restored, false⟩,
  ⟨0x8034, 0x10, 2, 0x0, 1, 8, 3, .rw, .restored, false⟩,
  ⟨0x8034, 0x10, 2, 0x0, 1, 12, 3, .rw, .restored, false⟩,
  ⟨0x8038, 0x10, 2, 0x0, 1, 0, 1, .ro, .live, false⟩,
  ⟨0x8038, 0x10, 2, 0x0, 1, 1, 1, .ro, .live, false⟩,
  ⟨0x8038, 0x10, 2, 0x0, 1, 8, 4, .w1c, .num 0, false⟩,
  ⟨0x803c, 0x10, 2, 0x0, 1, 0, 16, .ro, .num 0, false⟩,
  ⟨0x8050, 0x0, 1, 0x0, 1, 0, 1, .ro, .live, false⟩,
  ⟨0x8050, 0x0, 1, 0x0, 1, 1, 1, .ro, .live, false⟩,
  ⟨0x8050, 0x0, 1, 0x0, 1, 2, 3, .ro, .live, false⟩,
  ⟨0x8050, 0x0, 1, 0x0, 1, 5, 3, .ro, .live, false⟩,
  ⟨0x8050, 0x0, 1, 0x0, 1, 8, 1, .w1c, .num 0, false⟩,
  ⟨0x8054, 0x0, 1, 0x0, 1, 0, 16, .ro, .live, false⟩,
  ⟨0x8054, 0x0, 1, 0x0, 1, 16, 16, .ro, .live, false⟩,
  ⟨0x8060, 0x0, 1, 0x0, 1, 0, 2, .rw, .restored, false⟩,
  ⟨0x8060, 0x0, 1, 0x0, 1, 2, 1, .rw, .restored, false⟩,
  ⟨0x8060, 0x0, 1, 0x0, 1, 4, 4, .rw, .restored, false⟩,
  ⟨0x8060, 0x0, 1, 0x0, 1, 8, 8, .rw, .restored, false⟩,
  ⟨0x8064, 0x4, 2, 0x0, 1, 0, 3, .ro, .live, false⟩,
  ⟨0x8064, 0x4, 2, 0x0, 1, 3, 1, .w1c, .num 0, false⟩,
  ⟨0x8064, 0x4, 2, 0x0, 1, 4, 1, .w1c, .num 0, false⟩,
  ⟨0x8064, 0x4, 2, 0x0, 1, 5, 1, .w1c, .num 0, false⟩,
  ⟨0x8064, 0x4, 2, 0x0, 1, 6, 1, .w1c, .num 0, false⟩,
  ⟨0x8064, 0x4, 2, 0x0, 1, 8, 8, .ro, .live, false⟩,
  ⟨0x806c, 0x0, 1, 0x0, 1, 0, 16, .ro, .live, false⟩,
  ⟨0x806c, 0x0, 1, 0x0, 1, 16, 16, .ro, .live, false⟩,
  ⟨0x8070, 0x0, 1, 0x0, 1, 0, 16, .ro, .live, false⟩,
  ⟨0x8070, 0x0, 1, 0x0, 1, 16, 16, .ro, .live, false⟩,
  ⟨0x8074, 0x0, 1, 0x0, 1, 0, 16, .ro, .num 0, false⟩,
  ⟨0x8074, 0x0, 1, 0x0, 1, 16, 16, .ro, .num 0, false⟩]

/-- SURF. -/
def regRows14_0 : List RegRow := [
  ⟨0x9000, 0x0, 1, 0x0, 1, 0, 1, .w1c, .num 0, false⟩,
  ⟨0x9000, 0x0, 1, 0x0, 1, 1, 1, .ro, .num 0, false⟩,
  ⟨0x9004, 0x0, 1, 0x0, 1, 0, 1, .ws, .num 0, false⟩,
  ⟨0x9008, 0x0, 1, 0x0, 1, 0, 1, .ws, .num 0, false⟩,
  ⟨0x9010, 0x4, 4, 0x0, 1, 0, 1, .rw, .restored, false⟩,
  ⟨0x9010, 0x4, 4, 0x0, 1, 1, 1, .ro, .live, false⟩,
  ⟨0x9010, 0x4, 4, 0x0, 1, 2, 1, .rw, .restored, false⟩,
  ⟨0x9010, 0x4, 4, 0x0, 1, 8, 8, .ro, .live, false⟩,
  ⟨0x9020, 0x4, 8, 0x0, 1, 0, 1, .rw, .restored, false⟩,
  ⟨0x9020, 0x4, 8, 0x0, 1, 1, 1, .ws, .num 0, false⟩,
  ⟨0x9040, 0x4, 8, 0x0, 1, 0, 2, .ro, .live, false⟩,
  ⟨0x9040, 0x4, 8, 0x0, 1, 4, 4, .ro, .live, false⟩,
  ⟨0x9040, 0x4, 8, 0x0, 1, 8, 4, .w1c, .num 0, false⟩,
  ⟨0x9060, 0x4, 8, 0x0, 1, 0, 16, .ro, .num 0, false⟩,
  ⟨0x9060, 0x4, 8, 0x0, 1, 16, 16, .ro, .num 0, false⟩,
  ⟨0x9080, 0x0, 1, 0x0, 1, 0, 4, .ro, .live, false⟩,
  ⟨0x9080, 0x0, 1, 0x0, 1, 4, 4, .ro, .num 0, false⟩,
  ⟨0x9080, 0x0, 1, 0x0, 1, 8, 4, .w1c, .num 0, false⟩,
  ⟨0x9090, 0x8, 4, 0x0, 1, 0, 32, .ro, .num 0, false⟩,
  ⟨0x9094, 0x8, 4, 0x0, 1, 0, 32, .ro, .num 0, false⟩,
  ⟨0x90b0, 0x0, 1, 0x0, 1, 0, 32, .ro, .restored, false⟩,
  ⟨0x90b4, 0x0, 1, 0x0, 1, 0, 16, .ro, .restored, false⟩,
  ⟨0x90c0, 0x0, 1, 0x0, 1, 0, 7, .rw, .num 0, false⟩,
  ⟨0x90c0, 0x0, 1, 0x0, 1, 8, 12, .rw, .num 0, false⟩,
  ⟨0x9100, 0x4, 16, 0x0, 1, 0, 32, .ro, .live, false⟩,
  ⟨0x9140, 0x4, 17, 0x0, 1, 0, 32, .rw, .restored, false⟩,
  ⟨0x9200, 0x4, 68, 0x0, 1, 0, 1, .ro, .live, false⟩,
  ⟨0x9200, 0x4, 68, 0x0, 1, 1, 3, .ro, .live, false⟩,
  ⟨0x9200, 0x4, 68, 0x0, 1, 4, 2, .ro, .live, false⟩,
  ⟨0x9200, 0x4, 68, 0x0, 1, 6, 1, .ro, .live, false⟩,
  ⟨0x9200, 0x4, 68, 0x0, 1, 8, 4, .ro, .live, false⟩,
  ⟨0x9200, 0x4, 68, 0x0, 1, 16, 16, .ro, .live, false⟩,
  ⟨0x9400, 0x4, 256, 0x0, 1, 0, 32, .rw, .restored, false⟩,
  ⟨0x9800, 0x4, 256, 0x0, 1, 0, 12, .ro, .live, false⟩,
  ⟨0x9800, 0x4, 256, 0x0, 1, 12, 1, .ro, .live, false⟩,
  ⟨0x9800, 0x4, 256, 0x0, 1, 13, 1, .ro, .live, false⟩,
  ⟨0x9800, 0x4, 256, 0x0, 1, 14, 1, .w1c, .num 0, false⟩,
  ⟨0x9800, 0x4, 256, 0x0, 1, 15, 1, .ro, .live, false⟩,
  ⟨0x9800, 0x4, 256, 0x0, 1, 16, 1, .ro, .live, false⟩,
  ⟨0x9800, 0x4, 256, 0x0, 1, 17, 1, .ro, .live, false⟩]

/-- STORE. -/
def regRows15_0 : List RegRow := [
  ⟨0x11000, 0x0, 1, 0x0, 1, 0, 1, .ro, .live, false⟩,
  ⟨0x11000, 0x0, 1, 0x0, 1, 1, 2, .ro, .live, false⟩,
  ⟨0x11000, 0x0, 1, 0x0, 1, 3, 3, .ro, .live, false⟩,
  ⟨0x11000, 0x0, 1, 0x0, 1, 6, 2, .ro, .live, false⟩,
  ⟨0x11000, 0x0, 1, 0x0, 1, 8, 1, .w1c, .num 0, false⟩,
  ⟨0x11000, 0x0, 1, 0x0, 1, 9, 1, .w1c, .num 0, false⟩,
  ⟨0x11000, 0x0, 1, 0x0, 1, 10, 1, .w1c, .num 0, false⟩,
  ⟨0x11000, 0x0, 1, 0x0, 1, 11, 1, .ro, .live, false⟩,
  ⟨0x11004, 0x0, 1, 0x0, 1, 0, 8, .ro, .live, false⟩,
  ⟨0x11004, 0x0, 1, 0x0, 1, 8, 8, .ro, .live, false⟩,
  ⟨0x11004, 0x0, 1, 0x0, 1, 16, 8, .w1c, .num 0, false⟩,
  ⟨0x11008, 0x0, 1, 0x0, 1, 0, 11, .rw, .restored, false⟩,
  ⟨0x1100c, 0x0, 1, 0x0, 1, 0, 1, .ro, .restored, false⟩,
  ⟨0x1100c, 0x0, 1, 0x0, 1, 1, 1, .ro, .restored, false⟩,
  ⟨0x1100c, 0x0, 1, 0x0, 1, 2, 1, .ro, .restored, false⟩,
  ⟨0x11010, 0x0, 1, 0x0, 1, 0, 11, .ro, .live, false⟩,
  ⟨0x11010, 0x0, 1, 0x0, 1, 16, 11, .ro, .live, false⟩,
  ⟨0x11018, 0x0, 1, 0x0, 1, 0, 64, .ro, .live, true⟩,
  ⟨0x11020, 0x0, 1, 0x0, 1, 0, 64, .ro, .live, true⟩,
  ⟨0x11028, 0x0, 1, 0x0, 1, 0, 32, .ro, .num 0, false⟩,
  ⟨0x1102c, 0x0, 1, 0x0, 1, 0, 32, .ro, .num 0, false⟩,
  ⟨0x11030, 0x0, 1, 0x0, 1, 0, 32, .ro, .num 0, false⟩,
  ⟨0x1103c, 0x0, 1, 0x0, 1, 0, 1, .ws, .num 0, false⟩,
  ⟨0x11100, 0x10, 8, 0x0, 1, 0, 1, .ro, .live, false⟩,
  ⟨0x11100, 0x10, 8, 0x0, 1, 1, 1, .ro, .live, false⟩,
  ⟨0x11100, 0x10, 8, 0x0, 1, 2, 1, .ro, .live, false⟩,
  ⟨0x11100, 0x10, 8, 0x0, 1, 4, 3, .ro, .live, false⟩,
  ⟨0x11104, 0x10, 8, 0x0, 1, 0, 32, .ro, .live, false⟩,
  ⟨0x11108, 0x10, 8, 0x0, 1, 0, 16, .ro, .live, false⟩]

/-- PWR. -/
def regRows16_0 : List RegRow := [
  ⟨0x1000, 0x0, 1, 0x0, 1, 0, 2, .ro, .live, false⟩,
  ⟨0x1000, 0x0, 1, 0x0, 1, 2, 1, .ro, .live, false⟩,
  ⟨0x1000, 0x0, 1, 0x0, 1, 3, 1, .w1c, .num 0, false⟩,
  ⟨0x1000, 0x0, 1, 0x0, 1, 4, 1, .w1c, .num 0, false⟩,
  ⟨0x1000, 0x0, 1, 0x0, 1, 5, 1, .w1c, .live, false⟩,
  ⟨0x1000, 0x0, 1, 0x0, 1, 6, 1, .ro, .live, false⟩,
  ⟨0x1000, 0x0, 1, 0x0, 1, 7, 1, .ro, .live, false⟩,
  ⟨0x1000, 0x0, 1, 0x0, 1, 8, 1, .ro, .live, false⟩,
  ⟨0x1000, 0x0, 1, 0x0, 1, 9, 1, .ro, .live, false⟩,
  ⟨0x1000, 0x0, 1, 0x0, 1, 10, 2, .ro, .live, false⟩,
  ⟨0x1000, 0x0, 1, 0x0, 1, 12, 1, .ro, .live, false⟩,
  ⟨0x1000, 0x0, 1, 0x0, 1, 13, 1, .ro, .live, false⟩,
  ⟨0x1000, 0x0, 1, 0x0, 1, 14, 1, .w1c, .num 0, false⟩,
  ⟨0x1004, 0x0, 1, 0x0, 1, 0, 1, .ws, .num 0, false⟩,
  ⟨0x1008, 0x0, 1, 0x0, 1, 0, 48, .ro, .live, true⟩,
  ⟨0x1010, 0x0, 1, 0x0, 1, 0, 48, .rw, .live, true⟩,
  ⟨0x1018, 0x0, 1, 0x0, 1, 0, 1, .rw, .live, false⟩,
  ⟨0x1018, 0x0, 1, 0x0, 1, 1, 1, .w1c, .live, false⟩,
  ⟨0x101c, 0x0, 1, 0x0, 1, 0, 13, .rw, .restored, false⟩,
  ⟨0x1020, 0x0, 1, 0x0, 1, 0, 2, .ro, .live, false⟩,
  ⟨0x1020, 0x0, 1, 0x0, 1, 2, 1, .ro, .live, false⟩,
  ⟨0x1020, 0x0, 1, 0x0, 1, 3, 1, .ro, .live, false⟩,
  ⟨0x1020, 0x0, 1, 0x0, 1, 4, 1, .ro, .live, false⟩,
  ⟨0x1020, 0x0, 1, 0x0, 1, 5, 1, .ro, .live, false⟩,
  ⟨0x1028, 0x0, 1, 0x0, 1, 0, 64, .ro, .live, true⟩,
  ⟨0x1030, 0x4, 3, 0x0, 1, 0, 1, .ro, .live, false⟩,
  ⟨0x1030, 0x4, 3, 0x0, 1, 1, 1, .ro, .live, false⟩,
  ⟨0x1030, 0x4, 3, 0x0, 1, 2, 1, .ro, .live, false⟩,
  ⟨0x1030, 0x4, 3, 0x0, 1, 16, 16, .ro, .live, false⟩,
  ⟨0x1040, 0x0, 1, 0x0, 1, 0, 1, .ro, .restored, false⟩,
  ⟨0x1044, 0x0, 1, 0x0, 1, 0, 16, .ro, .live, false⟩,
  ⟨0x1044, 0x0, 1, 0x0, 1, 16, 16, .ro, .live, false⟩,
  ⟨0x1048, 0x0, 1, 0x0, 1, 0, 16, .ro, .num 0, false⟩,
  ⟨0x1048, 0x0, 1, 0x0, 1, 16, 16, .ro, .num 0, false⟩,
  ⟨0x104c, 0x0, 1, 0x0, 1, 0, 1, .ws, .num 0, false⟩]

/-- TRUST. -/
def regRows17_0 : List RegRow := [
  ⟨0x12000, 0x0, 1, 0x0, 1, 0, 3, .ro, .live, false⟩,
  ⟨0x12000, 0x0, 1, 0x0, 1, 3, 1, .ro, .live, false⟩,
  ⟨0x12000, 0x0, 1, 0x0, 1, 4, 1, .ro, .live, false⟩,
  ⟨0x12000, 0x0, 1, 0x0, 1, 5, 1, .ro, .live, false⟩,
  ⟨0x12000, 0x0, 1, 0x0, 1, 6, 1, .ro, .num 0, false⟩,
  ⟨0x12000, 0x0, 1, 0x0, 1, 7, 1, .ro, .live, false⟩,
  ⟨0x12000, 0x0, 1, 0x0, 1, 8, 1, .ro, .live, false⟩,
  ⟨0x12000, 0x0, 1, 0x0, 1, 9, 1, .w1c, .num 0, false⟩,
  ⟨0x12010, 0x4, 12, 0x0, 1, 0, 32, .ro, .live, false⟩,
  ⟨0x12040, 0x4, 12, 0x0, 1, 0, 32, .ro, .live, false⟩,
  ⟨0x12080, 0x8, 6, 0x0, 1, 0, 64, .ro, .live, true⟩,
  ⟨0x120b0, 0x0, 1, 0x0, 1, 0, 1, .ro, .live, false⟩,
  ⟨0x120b0, 0x0, 1, 0x0, 1, 1, 1, .ro, .live, false⟩,
  ⟨0x120b4, 0x0, 1, 0x0, 1, 0, 8, .ro, .num 0, false⟩,
  ⟨0x120b4, 0x0, 1, 0x0, 1, 16, 16, .ro, .num 0, false⟩,
  ⟨0x120c0, 0x0, 1, 0x0, 1, 0, 64, .rw, .num 0, true⟩,
  ⟨0x120c8, 0x0, 1, 0x0, 1, 0, 32, .rw, .num 0, false⟩,
  ⟨0x120cc, 0x0, 1, 0x0, 1, 0, 1, .ws, .num 0, false⟩,
  ⟨0x120d0, 0x0, 1, 0x0, 1, 0, 2, .ro, .num 0, false⟩,
  ⟨0x120d0, 0x0, 1, 0x0, 1, 8, 8, .ro, .num 0, false⟩]

/-- PAIR and BIST. -/
def regRows18_0 : List RegRow := [
  ⟨0x13000, 0x0, 1, 0x0, 1, 0, 1, .rw, .restored, false⟩,
  ⟨0x13000, 0x0, 1, 0x0, 1, 1, 1, .rw, .restored, false⟩,
  ⟨0x13000, 0x0, 1, 0x0, 1, 2, 1, .rw, .restored, false⟩,
  ⟨0x13000, 0x0, 1, 0x0, 1, 3, 2, .rw, .restored, false⟩,
  ⟨0x13000, 0x0, 1, 0x0, 1, 5, 1, .rw, .restored, false⟩,
  ⟨0x13000, 0x0, 1, 0x0, 1, 8, 8, .rw, .restored, false⟩,
  ⟨0x13004, 0x0, 1, 0x0, 1, 0, 16, .rw, .restored, false⟩,
  ⟨0x13004, 0x0, 1, 0x0, 1, 16, 16, .rw, .restored, false⟩,
  ⟨0x13008, 0x0, 1, 0x0, 1, 0, 10, .rw, .restored, false⟩,
  ⟨0x13008, 0x0, 1, 0x0, 1, 16, 7, .rw, .restored, false⟩,
  ⟨0x1300c, 0x0, 1, 0x0, 1, 0, 10, .rw, .restored, false⟩,
  ⟨0x1300c, 0x0, 1, 0x0, 1, 16, 10, .rw, .restored, false⟩,
  ⟨0x13010, 0x0, 1, 0x0, 1, 0, 1, .ws, .num 0, false⟩,
  ⟨0x13010, 0x0, 1, 0x0, 1, 1, 1, .ws, .num 0, false⟩,
  ⟨0x13014, 0x0, 1, 0x0, 1, 0, 2, .ro, .num 0, false⟩,
  ⟨0x13014, 0x0, 1, 0x0, 1, 2, 1, .ro, .live, false⟩,
  ⟨0x13014, 0x0, 1, 0x0, 1, 3, 1, .ro, .live, false⟩,
  ⟨0x13014, 0x0, 1, 0x0, 1, 4, 1, .ro, .live, false⟩,
  ⟨0x13014, 0x0, 1, 0x0, 1, 5, 1, .ro, .live, false⟩,
  ⟨0x13014, 0x0, 1, 0x0, 1, 6, 2, .ro, .live, false⟩,
  ⟨0x13014, 0x0, 1, 0x0, 1, 8, 1, .ro, .live, false⟩,
  ⟨0x13014, 0x0, 1, 0x0, 1, 9, 1, .ro, .live, false⟩,
  ⟨0x13014, 0x0, 1, 0x0, 1, 10, 1, .w1c, .num 0, false⟩,
  ⟨0x13014, 0x0, 1, 0x0, 1, 11, 1, .w1c, .num 0, false⟩,
  ⟨0x13018, 0x0, 1, 0x0, 1, 0, 32, .ro, .live, false⟩,
  ⟨0x13020, 0x0, 1, 0x0, 1, 0, 64, .rw, .restored, true⟩,
  ⟨0x13028, 0x0, 1, 0x0, 1, 0, 64, .w1c, .num 0, true⟩,
  ⟨0x13030, 0x0, 1, 0x0, 1, 0, 16, .ro, .num 0, false⟩,
  ⟨0x13030, 0x0, 1, 0x0, 1, 16, 16, .ro, .num 0, false⟩,
  ⟨0x13034, 0x0, 1, 0x0, 1, 0, 32, .ro, .num 0, false⟩,
  ⟨0x1303c, 0x0, 1, 0x0, 1, 0, 1, .ws, .num 0, false⟩,
  ⟨0x13040, 0x0, 1, 0x0, 1, 0, 4, .ro, .live, false⟩,
  ⟨0x14000, 0x0, 1, 0x0, 1, 0, 8, .rw, .num 0, false⟩,
  ⟨0x14000, 0x0, 1, 0x0, 1, 8, 8, .rw, .num 0, false⟩,
  ⟨0x14000, 0x0, 1, 0x0, 1, 16, 1, .ws, .num 0, false⟩,
  ⟨0x14004, 0x0, 1, 0x0, 1, 0, 8, .ro, .num 0, false⟩,
  ⟨0x14004, 0x0, 1, 0x0, 1, 8, 4, .ro, .live, false⟩,
  ⟨0x14004, 0x0, 1, 0x0, 1, 12, 1, .ro, .live, false⟩,
  ⟨0x14008, 0x0, 1, 0x0, 1, 0, 8, .ro, .num 0, false⟩,
  ⟨0x14008, 0x0, 1, 0x0, 1, 8, 8, .ro, .num 0, false⟩,
  ⟨0x14008, 0x0, 1, 0x0, 1, 16, 1, .ro, .num 0, false⟩,
  ⟨0x14008, 0x0, 1, 0x0, 1, 24, 8, .ro, .num 0, false⟩,
  ⟨0x1400c, 0x0, 1, 0x0, 1, 0, 32, .ro, .num 0, false⟩,
  ⟨0x14010, 0x0, 1, 0x0, 1, 0, 16, .ro, .num 0, false⟩,
  ⟨0x14010, 0x0, 1, 0x0, 1, 16, 16, .ro, .num 0, false⟩,
  ⟨0x14014, 0x0, 1, 0x0, 1, 0, 1, .ws, .num 0, false⟩,
  ⟨0x14040, 0x4, 8, 0x0, 1, 0, 3, .ro, .live, false⟩,
  ⟨0x14040, 0x4, 8, 0x0, 1, 3, 1, .ro, .live, false⟩,
  ⟨0x14040, 0x4, 8, 0x0, 1, 4, 1, .ro, .live, false⟩,
  ⟨0x14040, 0x4, 8, 0x0, 1, 5, 1, .ro, .live, false⟩,
  ⟨0x14040, 0x4, 8, 0x0, 1, 6, 1, .w1c, .num 0, false⟩,
  ⟨0x14040, 0x4, 8, 0x0, 1, 8, 5, .ro, .live, false⟩,
  ⟨0x14040, 0x4, 8, 0x0, 1, 16, 16, .ro, .num 0, false⟩]

/-- GLOBAL. -/
def regRows19_0 : List RegRow := [
  ⟨0x0, 0x0, 1, 0x0, 1, 0, 16, .ro, .num 46656, false⟩,
  ⟨0x0, 0x0, 1, 0x0, 1, 16, 16, .ro, .num 19026, false⟩,
  ⟨0x4, 0x0, 1, 0x0, 1, 0, 8, .ro, .num 66, false⟩,
  ⟨0x4, 0x0, 1, 0x0, 1, 8, 8, .ro, .live, false⟩,
  ⟨0x4, 0x0, 1, 0x0, 1, 16, 8, .ro, .live, false⟩,
  ⟨0x8, 0x0, 1, 0x0, 1, 0, 64, .ro, .live, true⟩,
  ⟨0x10, 0x0, 1, 0x0, 1, 0, 8, .ro, .num 8, false⟩,
  ⟨0x10, 0x0, 1, 0x0, 1, 8, 8, .ro, .num 8, false⟩,
  ⟨0x10, 0x0, 1, 0x0, 1, 16, 8, .ro, .num 4, false⟩,
  ⟨0x10, 0x0, 1, 0x0, 1, 24, 8, .ro, .num 2, false⟩,
  ⟨0x14, 0x0, 1, 0x0, 1, 0, 16, .ro, .num 512, false⟩,
  ⟨0x14, 0x0, 1, 0x0, 1, 16, 8, .ro, .num 64, false⟩,
  ⟨0x14, 0x0, 1, 0x0, 1, 24, 4, .ro, .num 8, false⟩,
  ⟨0x14, 0x0, 1, 0x0, 1, 28, 4, .ro, .num 4, false⟩,
  ⟨0x18, 0x0, 1, 0x0, 1, 0, 5, .ro, .num 16, false⟩,
  ⟨0x18, 0x0, 1, 0x0, 1, 5, 4, .ro, .num 8, false⟩,
  ⟨0x18, 0x0, 1, 0x0, 1, 9, 4, .ro, .num 8, false⟩,
  ⟨0x18, 0x0, 1, 0x0, 1, 13, 3, .ro, .num 4, false⟩,
  ⟨0x18, 0x0, 1, 0x0, 1, 16, 2, .ro, .num 3, false⟩,
  ⟨0x18, 0x0, 1, 0x0, 1, 18, 4, .ro, .num 8, false⟩,
  ⟨0x20, 0x4, 4, 0x0, 1, 0, 32, .ro, .restored, false⟩,
  ⟨0x40, 0x0, 1, 0x0, 1, 0, 1, .w1c, .num 0, false⟩,
  ⟨0x40, 0x0, 1, 0x0, 1, 1, 1, .w1c, .num 0, false⟩,
  ⟨0x40, 0x0, 1, 0x0, 1, 2, 1, .w1c, .num 0, false⟩,
  ⟨0x44, 0x0, 1, 0x0, 1, 0, 18, .ro, .num 0, false⟩,
  ⟨0x44, 0x0, 1, 0x0, 1, 18, 1, .ro, .num 0, false⟩,
  ⟨0x44, 0x0, 1, 0x0, 1, 20, 4, .ro, .num 0, false⟩,
  ⟨0x44, 0x0, 1, 0x0, 1, 24, 3, .ro, .num 0, false⟩,
  ⟨0x44, 0x0, 1, 0x0, 1, 31, 1, .ro, .num 0, false⟩,
  ⟨0x48, 0x0, 1, 0x0, 1, 0, 18, .ro, .num 0, false⟩,
  ⟨0x48, 0x0, 1, 0x0, 1, 31, 1, .ro, .num 0, false⟩,
  ⟨0x4c, 0x0, 1, 0x0, 1, 0, 16, .ro, .num 0, false⟩,
  ⟨0x4c, 0x0, 1, 0x0, 1, 16, 16, .ro, .num 0, false⟩,
  ⟨0x50, 0x0, 1, 0x0, 1, 0, 1, .ws, .num 0, false⟩,
  ⟨0x54, 0x0, 1, 0x0, 1, 0, 32, .rw, .num 0, false⟩,
  ⟨0x58, 0x0, 1, 0x0, 1, 0, 1, .ro, .num 0, false⟩,
  ⟨0x58, 0x0, 1, 0x0, 1, 1, 2, .ro, .num 0, false⟩,
  ⟨0x58, 0x0, 1, 0x0, 1, 16, 16, .ro, .num 0, false⟩,
  ⟨0x5c, 0x0, 1, 0x0, 1, 0, 1, .ro, .live, false⟩,
  ⟨0x5c, 0x0, 1, 0x0, 1, 1, 1, .w1c, .num 0, false⟩,
  ⟨0x5c, 0x0, 1, 0x0, 1, 16, 16, .ro, .live, false⟩,
  ⟨0x60, 0x4, 12, 0x0, 1, 0, 16, .ro, .live, false⟩]

/-- PINFN. -/
def regRows20_0 : List RegRow := [
  ⟨0x15000, 0x0, 1, 0x0, 1, 0, 1, .w1c, .num 0, false⟩,
  ⟨0x15000, 0x0, 1, 0x0, 1, 1, 1, .ro, .live, false⟩,
  ⟨0x15004, 0x0, 1, 0x0, 1, 0, 32, .ro, .live, false⟩,
  ⟨0x15008, 0x0, 1, 0x0, 1, 0, 16, .ro, .num 0, false⟩,
  ⟨0x15008, 0x0, 1, 0x0, 1, 16, 16, .ro, .num 0, false⟩,
  ⟨0x1500c, 0x0, 1, 0x0, 1, 0, 1, .ws, .num 0, false⟩,
  ⟨0x15010, 0x4, 32, 0x0, 1, 0, 4, .rw, .restored, false⟩,
  ⟨0x15010, 0x4, 32, 0x0, 1, 4, 1, .rw, .restored, false⟩,
  ⟨0x15010, 0x4, 32, 0x0, 1, 5, 2, .rw, .restored, false⟩,
  ⟨0x15010, 0x4, 32, 0x0, 1, 7, 2, .rw, .restored, false⟩,
  ⟨0x15010, 0x4, 32, 0x0, 1, 9, 3, .rw, .restored, false⟩,
  ⟨0x15010, 0x4, 32, 0x0, 1, 12, 1, .ro, .num 0, false⟩,
  ⟨0x15010, 0x4, 32, 0x0, 1, 13, 1, .ro, .live, false⟩]

/-- Every row. -/
def regRows : List RegRow :=
  regRows02_0 ++ regRows03_0 ++ regRows04_0 ++ regRows06_0 ++ regRows07_0 ++ regRows08_0 ++ regRows08_1 ++ regRows09_0 ++
  regRows09_1 ++ regRows10_0 ++ regRows11_0 ++ regRows12_0 ++ regRows12_1 ++ regRows13_0 ++ regRows14_0 ++ regRows15_0 ++
  regRows16_0 ++ regRows17_0 ++ regRows18_0 ++ regRows19_0 ++ regRows20_0

end Sys2Proof
end

