-- ==== Sys2Proof/Machine/RegMap.lean ====
section
/-! DEFINITION. The register fields of BAR0 by the manual's names, from the register tables of its chapters (R789). An
indexed register takes its instance numbers in the order of the manual's offset expression. -/

namespace Sys2Proof.Reg

/-! scrub windows -/

/-- R121, FABRIC_CL_SCRUB.SCRUB. -/
def FABRIC_CL_SCRUB_SCRUB (i : Nat) : Fld := ⟨0x20080 + 0x400 * i, 0, 1⟩
/-- R121, FABRIC_CL_SCRUB.NAN_SEEN. -/
def FABRIC_CL_SCRUB_NAN_SEEN (i : Nat) : Fld := ⟨0x20080 + 0x400 * i, 1, 1⟩
/-- R121, FABRIC_CL_SCRUB.INF_SEEN. -/
def FABRIC_CL_SCRUB_INF_SEEN (i : Nat) : Fld := ⟨0x20080 + 0x400 * i, 2, 1⟩
/-- R121, FABRIC_CL_SCRUB_NAN_CNT.COUNT. -/
def FABRIC_CL_SCRUB_NAN_CNT_COUNT (i : Nat) : Fld := ⟨0x20084 + 0x400 * i, 0, 32⟩
/-- R121, FABRIC_CL_SCRUB_INF_CNT.COUNT. -/
def FABRIC_CL_SCRUB_INF_CNT_COUNT (i : Nat) : Fld := ⟨0x20088 + 0x400 * i, 0, 32⟩
/-! SCHED and cluster windows -/

/-- R165, SCHED_STATUS.ACTIVE_BANK. -/
def SCHED_STATUS_ACTIVE_BANK : Fld := ⟨0x5000, 0, 1⟩
/-- R165, SCHED_STATUS.PENDING. -/
def SCHED_STATUS_PENDING : Fld := ⟨0x5000, 1, 1⟩
/-- R165, SCHED_STATUS.CHECKING. -/
def SCHED_STATUS_CHECKING : Fld := ⟨0x5000, 2, 1⟩
/-- R165, SCHED_STATUS.THERM_HOLD. -/
def SCHED_STATUS_THERM_HOLD : Fld := ⟨0x5000, 3, 1⟩
/-- R165, SCHED_STATUS.NONE. -/
def SCHED_STATUS_NONE : Fld := ⟨0x5000, 4, 1⟩
/-- R166, SCHED_SWITCH_SI.SI. -/
def SCHED_SWITCH_SI_SI : Fld := ⟨0x5008, 0, 64⟩
/-- R166, SCHED_QUAR.QUAR. -/
def SCHED_QUAR_QUAR : Fld := ⟨0x5010, 0, 64⟩
/-- R166, SCHED_CUT_CNT.COUNT. -/
def SCHED_CUT_CNT_COUNT : Fld := ⟨0x5018, 0, 32⟩
/-- R166, SCHED_PARAM_CLAMP_CNT.COUNT. -/
def SCHED_PARAM_CLAMP_CNT_COUNT : Fld := ⟨0x501c, 0, 32⟩
/-- R166, SCHED_RAMP_RAISE_CNT.COUNT. -/
def SCHED_RAMP_RAISE_CNT_COUNT : Fld := ⟨0x5020, 0, 32⟩
/-- R166, SCHED_PBASE.MW. -/
def SCHED_PBASE_MW : Fld := ⟨0x5024, 0, 16⟩
/-- R166, SCHED_CNT_CLR.CLR. -/
def SCHED_CNT_CLR_CLR : Fld := ⟨0x5028, 0, 1⟩
/-- R167, FABRIC_CL_CUT.CAUSE. -/
def FABRIC_CL_CUT_CAUSE (i : Nat) : Fld := ⟨0x200c0 + 0x400 * i, 0, 4⟩
/-- R167, FABRIC_CL_CUT.FIRING. -/
def FABRIC_CL_CUT_FIRING (i : Nat) : Fld := ⟨0x200c0 + 0x400 * i, 4, 2⟩
/-- R167, FABRIC_CL_CUT.PAIR_FADE. -/
def FABRIC_CL_CUT_PAIR_FADE (i : Nat) : Fld := ⟨0x200c0 + 0x400 * i, 6, 1⟩
/-- R167, FABRIC_CL_CUT.WLOST_ANY. -/
def FABRIC_CL_CUT_WLOST_ANY (i : Nat) : Fld := ⟨0x200c0 + 0x400 * i, 7, 1⟩
/-- R167, FABRIC_CL_CUT.EXEC. -/
def FABRIC_CL_CUT_EXEC (i : Nat) : Fld := ⟨0x200c0 + 0x400 * i, 8, 24⟩
/-- R168, FABRIC_CL_CUT_SI.SI. -/
def FABRIC_CL_CUT_SI_SI (i : Nat) : Fld := ⟨0x200c8 + 0x400 * i, 0, 64⟩
/-- R168, FABRIC_CL_CYC_LAST.CYCLES. -/
def FABRIC_CL_CYC_LAST_CYCLES (i : Nat) : Fld := ⟨0x200d0 + 0x400 * i, 0, 32⟩
/-- R168, FABRIC_CL_CYC_HWM.CYCLES. -/
def FABRIC_CL_CYC_HWM_CYCLES (i : Nat) : Fld := ⟨0x200d4 + 0x400 * i, 0, 32⟩
/-! unit windows -/

/-- R217, FABRIC_UN_TRAP.LAST_CAUSE. -/
def FABRIC_UN_TRAP_LAST_CAUSE (i : Nat) (j : Nat) : Fld := ⟨0x20200 + 0x400 * i + 0x10 * j, 0, 4⟩
/-- R217, FABRIC_UN_TRAP.STOPPED. -/
def FABRIC_UN_TRAP_STOPPED (i : Nat) (j : Nat) : Fld := ⟨0x20200 + 0x400 * i + 0x10 * j, 4, 1⟩
/-- R217, FABRIC_UN_TRAP.DOUBLE. -/
def FABRIC_UN_TRAP_DOUBLE (i : Nat) (j : Nat) : Fld := ⟨0x20200 + 0x400 * i + 0x10 * j, 5, 1⟩
/-- R217, FABRIC_UN_TRAP.COUNT. -/
def FABRIC_UN_TRAP_COUNT (i : Nat) (j : Nat) : Fld := ⟨0x20200 + 0x400 * i + 0x10 * j, 16, 16⟩
/-- R217, FABRIC_UN_TPC.TPC. -/
def FABRIC_UN_TPC_TPC (i : Nat) (j : Nat) : Fld := ⟨0x20204 + 0x400 * i + 0x10 * j, 0, 10⟩
/-- R217, FABRIC_UN_FLAGS.IFLAGS. -/
def FABRIC_UN_FLAGS_IFLAGS (i : Nat) (j : Nat) : Fld := ⟨0x20208 + 0x400 * i + 0x10 * j, 0, 3⟩
/-- R217, FABRIC_UN_FLAGS.FFLAGS. -/
def FABRIC_UN_FLAGS_FFLAGS (i : Nat) (j : Nat) : Fld := ⟨0x20208 + 0x400 * i + 0x10 * j, 3, 3⟩
/-! cluster and region windows -/

/-- R284, FABRIC_CL_WLOST.WLOST. -/
def FABRIC_CL_WLOST_WLOST (i : Nat) : Fld := ⟨0x20100 + 0x400 * i, 0, 11⟩
/-- R284, FABRIC_CL_WLOST.RLOST. -/
def FABRIC_CL_WLOST_RLOST (i : Nat) : Fld := ⟨0x20100 + 0x400 * i, 11, 8⟩
/-- R284, FABRIC_CL_WLOST_ADDR.ADDR. -/
def FABRIC_CL_WLOST_ADDR_ADDR (i : Nat) : Fld := ⟨0x20104 + 0x400 * i, 0, 20⟩
/-- R284, FABRIC_CL_WLOST_ADDR.REQ. -/
def FABRIC_CL_WLOST_ADDR_REQ (i : Nat) : Fld := ⟨0x20104 + 0x400 * i, 20, 4⟩
/-- R284, FABRIC_CL_WLOST_ADDR.VALID. -/
def FABRIC_CL_WLOST_ADDR_VALID (i : Nat) : Fld := ⟨0x20104 + 0x400 * i, 31, 1⟩
/-- R284, FABRIC_CL_WLOST_CNT.WCOUNT. -/
def FABRIC_CL_WLOST_CNT_WCOUNT (i : Nat) : Fld := ⟨0x20108 + 0x400 * i, 0, 16⟩
/-- R284, FABRIC_CL_WLOST_CNT.RCOUNT. -/
def FABRIC_CL_WLOST_CNT_RCOUNT (i : Nat) : Fld := ⟨0x20108 + 0x400 * i, 16, 16⟩
/-- R291, FABRIC_CL_DMA.DMA_ERR. -/
def FABRIC_CL_DMA_DMA_ERR (i : Nat) : Fld := ⟨0x20120 + 0x400 * i, 0, 1⟩
/-- R291, FABRIC_CL_DMA.UNIT. -/
def FABRIC_CL_DMA_UNIT (i : Nat) : Fld := ⟨0x20120 + 0x400 * i, 1, 3⟩
/-- R291, FABRIC_CL_DMA.CODE. -/
def FABRIC_CL_DMA_CODE (i : Nat) : Fld := ⟨0x20120 + 0x400 * i, 4, 4⟩
/-- R294, FABRIC_CL_ECC.SHM_CORR. -/
def FABRIC_CL_ECC_SHM_CORR (i : Nat) : Fld := ⟨0x20110 + 0x400 * i, 0, 16⟩
/-- R294, FABRIC_CL_ECC.LOC_CORR. -/
def FABRIC_CL_ECC_LOC_CORR (i : Nat) : Fld := ⟨0x20110 + 0x400 * i, 16, 16⟩
/-- R294, FABRIC_CL_PEEK.DATA. -/
def FABRIC_CL_PEEK_DATA (i : Nat) (j : Nat) : Fld := ⟨0x20300 + 0x400 * i + 0x4 * j, 0, 32⟩
/-- R305, FABRIC_CL_SEQ.OCCUPIED. -/
def FABRIC_CL_SEQ_OCCUPIED (i : Nat) : Fld := ⟨0x20180 + 0x400 * i, 0, 11⟩
/-- R305, FABRIC_CL_SEQ.HWM. -/
def FABRIC_CL_SEQ_HWM (i : Nat) : Fld := ⟨0x20180 + 0x400 * i, 16, 11⟩
/-- R305, FABRIC_CL_SEQ.FULL_SEEN. -/
def FABRIC_CL_SEQ_FULL_SEEN (i : Nat) : Fld := ⟨0x20180 + 0x400 * i, 31, 1⟩
/-- R312, FABRIC_CL_GLAZE.UNSTABLE. -/
def FABRIC_CL_GLAZE_UNSTABLE (i : Nat) : Fld := ⟨0x20140 + 0x400 * i, 0, 1⟩
/-- R312, FABRIC_CL_GLAZE.WAITED. -/
def FABRIC_CL_GLAZE_WAITED (i : Nat) : Fld := ⟨0x20140 + 0x400 * i, 1, 1⟩
/-- R312, FABRIC_CL_GLAZE.UNSTABLE_CNT. -/
def FABRIC_CL_GLAZE_UNSTABLE_CNT (i : Nat) : Fld := ⟨0x20140 + 0x400 * i, 16, 16⟩
/-- R322, FABRIC_RG_TAP.FIFO_DROP. -/
def FABRIC_RG_TAP_FIFO_DROP (i : Nat) : Fld := ⟨0x30040 + 0x400 * i, 0, 16⟩
/-- R322, FABRIC_RG_TAP.POS_CLAMP. -/
def FABRIC_RG_TAP_POS_CLAMP (i : Nat) : Fld := ⟨0x30040 + 0x400 * i, 16, 16⟩
/-- R322, FABRIC_RG_DLY.CORR. -/
def FABRIC_RG_DLY_CORR (i : Nat) : Fld := ⟨0x30044 + 0x400 * i, 0, 16⟩
/-- R322, FABRIC_RG_DLY.UNCORR. -/
def FABRIC_RG_DLY_UNCORR (i : Nat) : Fld := ⟨0x30044 + 0x400 * i, 16, 16⟩
/-- R327, SCHED_SLICE_RG.CL. -/
def SCHED_SLICE_RG_CL (i : Nat) : Fld := ⟨0x5040 + 0x4 * i, 0, 2⟩
/-- R327, SCHED_SLICE_RG.DLY. -/
def SCHED_SLICE_RG_DLY (i : Nat) : Fld := ⟨0x5040 + 0x4 * i, 2, 2⟩
/-- R327, SCHED_SLICE_RG.UP. -/
def SCHED_SLICE_RG_UP (i : Nat) : Fld := ⟨0x5040 + 0x4 * i, 4, 2⟩
/-- R327, SCHED_SLICE_D.BRIDGE. -/
def SCHED_SLICE_D_BRIDGE (i : Nat) : Fld := ⟨0x5060 + 0x4 * i, 0, 2⟩
/-- R327, SCHED_SLICE_ST.LOCKED. -/
def SCHED_SLICE_ST_LOCKED : Fld := ⟨0x5070, 0, 1⟩
/-- R327, SCHED_SLICE_ST.REJ. -/
def SCHED_SLICE_ST_REJ : Fld := ⟨0x5070, 1, 1⟩
/-- R331, SCHED_DRAM_ECC.CORR. -/
def SCHED_DRAM_ECC_CORR : Fld := ⟨0x5074, 0, 16⟩
/-- R331, SCHED_DRAM_ECC.UNCORR. -/
def SCHED_DRAM_ECC_UNCORR : Fld := ⟨0x5074, 16, 16⟩
/-! pour registers -/

/-- R375, SCHED_POUR_CFG.STRICT. -/
def SCHED_POUR_CFG_STRICT : Fld := ⟨0x5080, 0, 1⟩
/-- R375, SCHED_POUR_CFG.NET_ALLOW. -/
def SCHED_POUR_CFG_NET_ALLOW : Fld := ⟨0x5080, 16, 16⟩
/-- R375, SCHED_POUR_LIVE.LIVE. -/
def SCHED_POUR_LIVE_LIVE : Fld := ⟨0x5084, 0, 7⟩
/-- R375, SCHED_POUR_LIVE.HWM. -/
def SCHED_POUR_LIVE_HWM : Fld := ⟨0x5084, 16, 7⟩
/-- R375, SCHED_POUR_LATE_CNT.COUNT. -/
def SCHED_POUR_LATE_CNT_COUNT : Fld := ⟨0x5088, 0, 32⟩
/-- R375, SCHED_POUR_REF_CNT.COUNT. -/
def SCHED_POUR_REF_CNT_COUNT : Fld := ⟨0x508c, 0, 32⟩
/-- R375, SCHED_POUR_PART_CNT.COUNT. -/
def SCHED_POUR_PART_CNT_COUNT : Fld := ⟨0x5090, 0, 32⟩
/-- R375, SCHED_POUR_D.D_NS. -/
def SCHED_POUR_D_D_NS : Fld := ⟨0x5094, 0, 32⟩
/-! CLK and TIME -/

/-- R407, FABRIC_RG_CLK.SETPOINT. -/
def FABRIC_RG_CLK_SETPOINT (i : Nat) : Fld := ⟨0x30000 + 0x400 * i, 0, 2⟩
/-- R407, FABRIC_RG_CLK.RUNNING. -/
def FABRIC_RG_CLK_RUNNING (i : Nat) : Fld := ⟨0x30000 + 0x400 * i, 2, 1⟩
/-- R407, FABRIC_RG_CLK.LOCKED. -/
def FABRIC_RG_CLK_LOCKED (i : Nat) : Fld := ⟨0x30000 + 0x400 * i, 3, 1⟩
/-- R407, FABRIC_RG_CLK.BYPASS. -/
def FABRIC_RG_CLK_BYPASS (i : Nat) : Fld := ⟨0x30000 + 0x400 * i, 4, 1⟩
/-- R407, FABRIC_RG_CLK.BYPASS_SEEN. -/
def FABRIC_RG_CLK_BYPASS_SEEN (i : Nat) : Fld := ⟨0x30000 + 0x400 * i, 5, 1⟩
/-- R407, FABRIC_RG_CLK_CNT.NOLOCK. -/
def FABRIC_RG_CLK_CNT_NOLOCK (i : Nat) : Fld := ⟨0x30004 + 0x400 * i, 0, 16⟩
/-- R407, FABRIC_RG_CLK_CNT.LOSS. -/
def FABRIC_RG_CLK_CNT_LOSS (i : Nat) : Fld := ⟨0x30004 + 0x400 * i, 16, 16⟩
/-- R421, CLK_STATUS.SPLL_LOCK. -/
def CLK_STATUS_SPLL_LOCK : Fld := ⟨0x2000, 0, 1⟩
/-- R421, CLK_STATUS.REFXO_OK. -/
def CLK_STATUS_REFXO_OK : Fld := ⟨0x2000, 1, 1⟩
/-- R421, CLK_STATUS.REFXO_FAIL. -/
def CLK_STATUS_REFXO_FAIL : Fld := ⟨0x2000, 2, 1⟩
/-- R421, CLK_STATUS.HOST_SERVO. -/
def CLK_STATUS_HOST_SERVO : Fld := ⟨0x2000, 3, 1⟩
/-- R421, CLK_STATUS.CFG_REJ. -/
def CLK_STATUS_CFG_REJ : Fld := ⟨0x2000, 4, 1⟩
/-- R421, CLK_MPLLn_CTL.LOOP. -/
def CLK_MPLL_CTL_LOOP (i : Nat) : Fld := ⟨0x2100 + 0x100 * i, 0, 2⟩
/-- R421, CLK_MPLLn_CTL.REVERT. -/
def CLK_MPLL_CTL_REVERT (i : Nat) : Fld := ⟨0x2100 + 0x100 * i, 2, 1⟩
/-- R421, CLK_MPLLn_CTL.WTR. -/
def CLK_MPLL_CTL_WTR (i : Nat) : Fld := ⟨0x2100 + 0x100 * i, 8, 8⟩
/-- R421, CLK_MPLLn_STATE.STATE. -/
def CLK_MPLL_STATE_STATE (i : Nat) : Fld := ⟨0x2104 + 0x100 * i, 0, 3⟩
/-- R421, CLK_MPLLn_STATE.SEL. -/
def CLK_MPLL_STATE_SEL (i : Nat) : Fld := ⟨0x2104 + 0x100 * i, 3, 3⟩
/-- R421, CLK_MPLLn_STATE.SEL_VALID. -/
def CLK_MPLL_STATE_SEL_VALID (i : Nat) : Fld := ⟨0x2104 + 0x100 * i, 6, 1⟩
/-- R421, CLK_MPLLn_STATE.NARROW_DONE. -/
def CLK_MPLL_STATE_NARROW_DONE (i : Nat) : Fld := ⟨0x2104 + 0x100 * i, 7, 1⟩
/-- R421, CLK_MPLLn_STATE.HIST. -/
def CLK_MPLL_STATE_HIST (i : Nat) : Fld := ⟨0x2104 + 0x100 * i, 8, 5⟩
/-- R421, CLK_MPLLn_STATE.UNLOCK. -/
def CLK_MPLL_STATE_UNLOCK (i : Nat) : Fld := ⟨0x2104 + 0x100 * i, 13, 1⟩
/-- R421, CLK_MPLLn_LOCK.WIN. -/
def CLK_MPLL_LOCK_WIN (i : Nat) : Fld := ⟨0x2108 + 0x100 * i, 0, 12⟩
/-- R421, CLK_MPLLn_LOCK.N. -/
def CLK_MPLL_LOCK_N (i : Nat) : Fld := ⟨0x2108 + 0x100 * i, 16, 16⟩
/-- R421, CLK_MPLLn_BW.FINAL. -/
def CLK_MPLL_BW_FINAL (i : Nat) : Fld := ⟨0x210c + 0x100 * i, 0, 16⟩
/-- R421, CLK_MPLLn_DCO.WORD. -/
def CLK_MPLL_DCO_WORD (i : Nat) : Fld := ⟨0x2110 + 0x100 * i, 0, 32⟩
/-- R421, CLK_MPLLn_PHERR.ERR. -/
def CLK_MPLL_PHERR_ERR (i : Nat) : Fld := ⟨0x2114 + 0x100 * i, 0, 32⟩
/-- R421, CLK_MPLLn_HOLD.AVG. -/
def CLK_MPLL_HOLD_AVG (i : Nat) : Fld := ⟨0x2118 + 0x100 * i, 0, 16⟩
/-- R421, CLK_MPLLn_QUAL.QUALIFIED. -/
def CLK_MPLL_QUAL_QUALIFIED (i : Nat) : Fld := ⟨0x211c + 0x100 * i, 0, 8⟩
/-- R421, CLK_MPLLn_QUAL.DISQ. -/
def CLK_MPLL_QUAL_DISQ (i : Nat) : Fld := ⟨0x211c + 0x100 * i, 8, 8⟩
/-- R421, CLK_MPLLn_QUAL.QUAL_TIME. -/
def CLK_MPLL_QUAL_QUAL_TIME (i : Nat) : Fld := ⟨0x211c + 0x100 * i, 16, 8⟩
/-- R421, CLK_MPLLn_QUAL.QUAL. -/
def CLK_MPLL_QUAL_QUAL (i : Nat) : Fld := ⟨0x211c + 0x100 * i, 24, 8⟩
/-- R421, CLK_MPLLn_CANDk.SRC. -/
def CLK_MPLL_CAND_SRC (i : Nat) (j : Nat) : Fld := ⟨0x2120 + 0x100 * i + 0x4 * j, 0, 4⟩
/-- R421, CLK_MPLLn_CANDk.SEL. -/
def CLK_MPLL_CAND_SEL (i : Nat) (j : Nat) : Fld := ⟨0x2120 + 0x100 * i + 0x4 * j, 4, 3⟩
/-- R421, CLK_MPLLn_CANDk.PRIO. -/
def CLK_MPLL_CAND_PRIO (i : Nat) (j : Nat) : Fld := ⟨0x2120 + 0x100 * i + 0x4 * j, 8, 3⟩
/-- R421, CLK_MPLLn_CANDk.PARAM. -/
def CLK_MPLL_CAND_PARAM (i : Nat) (j : Nat) : Fld := ⟨0x2120 + 0x100 * i + 0x4 * j, 16, 16⟩
/-- R421, CLK_ROASTn_CTL.START. -/
def CLK_ROAST_CTL_START (i : Nat) : Fld := ⟨0x2400 + 0x100 * i, 0, 1⟩
/-- R421, CLK_ROASTn_CTL.ABORT. -/
def CLK_ROAST_CTL_ABORT (i : Nat) : Fld := ⟨0x2400 + 0x100 * i, 1, 1⟩
/-- R421, CLK_ROASTn_STATUS.STATE. -/
def CLK_ROAST_STATUS_STATE (i : Nat) : Fld := ⟨0x2404 + 0x100 * i, 0, 2⟩
/-- R421, CLK_ROASTn_STATUS.SEG. -/
def CLK_ROAST_STATUS_SEG (i : Nat) : Fld := ⟨0x2404 + 0x100 * i, 2, 4⟩
/-- R421, CLK_ROASTn_STATUS.LATE. -/
def CLK_ROAST_STATUS_LATE (i : Nat) : Fld := ⟨0x2404 + 0x100 * i, 6, 1⟩
/-- R421, CLK_ROASTn_STATUS.ROAST_REJ. -/
def CLK_ROAST_STATUS_ROAST_REJ (i : Nat) : Fld := ⟨0x2404 + 0x100 * i, 7, 1⟩
/-- R421, CLK_ROASTn_START_SI.SI. -/
def CLK_ROAST_START_SI_SI (i : Nat) : Fld := ⟨0x2408 + 0x100 * i, 0, 64⟩
/-- R421, CLK_ROASTn_NSEG.NSEG. -/
def CLK_ROAST_NSEG_NSEG (i : Nat) : Fld := ⟨0x2410 + 0x100 * i, 0, 5⟩
/-- R421, CLK_ROASTn_SEGk_LEN.LEN. -/
def CLK_ROAST_SEG_LEN_LEN (i : Nat) (j : Nat) : Fld := ⟨0x2480 + 0x100 * i + 0x8 * j, 0, 24⟩
/-- R421, CLK_ROASTn_SEGk_END.END. -/
def CLK_ROAST_SEG_END_END (i : Nat) (j : Nat) : Fld := ⟨0x2484 + 0x100 * i + 0x8 * j, 0, 32⟩
/-- R422, TIME_STATUS.ALIGNED. -/
def TIME_STATUS_ALIGNED : Fld := ⟨0x3000, 0, 3⟩
/-- R422, TIME_STATUS.GLIDING. -/
def TIME_STATUS_GLIDING : Fld := ⟨0x3000, 3, 3⟩
/-- R422, TIME_STATUS.LOCAL. -/
def TIME_STATUS_LOCAL : Fld := ⟨0x3000, 6, 1⟩
/-- R422, TIME_STATUS.CFG_REJ. -/
def TIME_STATUS_CFG_REJ : Fld := ⟨0x3000, 7, 1⟩
/-- R422, TIME_ALIGN_CFG.GLIDE_PPM. -/
def TIME_ALIGN_CFG_GLIDE_PPM : Fld := ⟨0x3004, 0, 10⟩
/-- R422, TIME_ALIGN_CFG.RAMP_MS. -/
def TIME_ALIGN_CFG_RAMP_MS : Fld := ⟨0x3004, 16, 8⟩
/-- R422, TIME_SNAP.SNAP. -/
def TIME_SNAP_SNAP : Fld := ⟨0x3008, 0, 1⟩
/-- R422, TIME_NOW_SEC.SEC. -/
def TIME_NOW_SEC_SEC : Fld := ⟨0x3010, 0, 48⟩
/-- R422, TIME_NOW_NS.NS. -/
def TIME_NOW_NS_NS : Fld := ⟨0x3018, 0, 30⟩
/-- R422, TIME_NOW_FRAC.FRAC. -/
def TIME_NOW_FRAC_FRAC : Fld := ⟨0x301c, 0, 4⟩
/-- R422, TIME_SI_d.SI. -/
def TIME_SI_SI (i : Nat) : Fld := ⟨0x3020 + 0x8 * i, 0, 64⟩
/-- R422, TIME_PTP_CFG.PROFILE. -/
def TIME_PTP_CFG_PROFILE : Fld := ⟨0x3040, 0, 2⟩
/-- R422, TIME_PTP_CFG.DOMAIN. -/
def TIME_PTP_CFG_DOMAIN : Fld := ⟨0x3040, 2, 8⟩
/-- R422, TIME_PTP_CFG.AUTH. -/
def TIME_PTP_CFG_AUTH : Fld := ⟨0x3040, 10, 1⟩
/-- R422, TIME_PTP_CFG.SLAVE_ONLY. -/
def TIME_PTP_CFG_SLAVE_ONLY : Fld := ⟨0x3040, 11, 1⟩
/-- R422, TIME_PTP_PORT_x.EN. -/
def TIME_PTP_PORT_EN (i : Nat) : Fld := ⟨0x3044 + 0x4 * i, 0, 1⟩
/-- R422, TIME_PTP_PORT_x.PSTATE. -/
def TIME_PTP_PORT_PSTATE (i : Nat) : Fld := ⟨0x3044 + 0x4 * i, 4, 4⟩
/-- R422, TIME_TSQ_x.COUNT. -/
def TIME_TSQ_COUNT (i : Nat) : Fld := ⟨0x3050 + 0x4 * i, 0, 5⟩
/-- R422, TIME_TSQ_x.TSQ_OVF. -/
def TIME_TSQ_TSQ_OVF (i : Nat) : Fld := ⟨0x3050 + 0x4 * i, 8, 1⟩
/-- R422, TIME_TSQ_x.DROPPED. -/
def TIME_TSQ_DROPPED (i : Nat) : Fld := ⟨0x3050 + 0x4 * i, 16, 16⟩
/-- R422, TIME_PORT_LAT_x.INGRESS. -/
def TIME_PORT_LAT_INGRESS (i : Nat) : Fld := ⟨0x3060 + 0x4 * i, 0, 16⟩
/-- R422, TIME_PORT_LAT_x.EGRESS. -/
def TIME_PORT_LAT_EGRESS (i : Nat) : Fld := ⟨0x3060 + 0x4 * i, 16, 16⟩
/-- R422, TIME_AUTH_FAIL_CNT.COUNT. -/
def TIME_AUTH_FAIL_CNT_COUNT : Fld := ⟨0x3070, 0, 32⟩
/-- R422, TIME_TRIGk_SI.SI. -/
def TIME_TRIG_SI_SI (i : Nat) : Fld := ⟨0x3100 + 0x10 * i, 0, 64⟩
/-- R422, TIME_TRIGk_CTL.DOMAIN. -/
def TIME_TRIG_CTL_DOMAIN (i : Nat) : Fld := ⟨0x3108 + 0x10 * i, 0, 2⟩
/-- R422, TIME_TRIGk_CTL.ARM. -/
def TIME_TRIG_CTL_ARM (i : Nat) : Fld := ⟨0x3108 + 0x10 * i, 2, 1⟩
/-- R422, TIME_TRIGk_CTL.CANCEL. -/
def TIME_TRIG_CTL_CANCEL (i : Nat) : Fld := ⟨0x3108 + 0x10 * i, 3, 1⟩
/-- R422, TIME_TRIGk_CTL.ARMED. -/
def TIME_TRIG_CTL_ARMED (i : Nat) : Fld := ⟨0x3108 + 0x10 * i, 4, 1⟩
/-- R422, TIME_TRIGk_CTL.FIRED. -/
def TIME_TRIG_CTL_FIRED (i : Nat) : Fld := ⟨0x3108 + 0x10 * i, 5, 1⟩
/-- R422, TIME_TRIGk_CTL.LATE. -/
def TIME_TRIG_CTL_LATE (i : Nat) : Fld := ⟨0x3108 + 0x10 * i, 6, 1⟩
/-! HOST and DMA -/

/-- R480, HOST_STATUS.LINK_UP. -/
def HOST_STATUS_LINK_UP : Fld := ⟨0x4000, 0, 1⟩
/-- R480, HOST_STATUS.WIDTH. -/
def HOST_STATUS_WIDTH : Fld := ⟨0x4000, 1, 2⟩
/-- R480, HOST_STATUS.SPEED. -/
def HOST_STATUS_SPEED : Fld := ⟨0x4000, 3, 3⟩
/-- R480, HOST_STATUS.DEGRADED. -/
def HOST_STATUS_DEGRADED : Fld := ⟨0x4000, 6, 1⟩
/-- R480, HOST_STATUS.HUSH_ACTIVE. -/
def HOST_STATUS_HUSH_ACTIVE : Fld := ⟨0x4000, 7, 1⟩
/-- R480, HOST_STATUS.HUSH_PIN. -/
def HOST_STATUS_HUSH_PIN : Fld := ⟨0x4000, 8, 1⟩
/-- R480, HOST_STATUS.CFG_REJ. -/
def HOST_STATUS_CFG_REJ : Fld := ⟨0x4000, 9, 1⟩
/-- R480, HOST_STATUS.RING_ERR. -/
def HOST_STATUS_RING_ERR : Fld := ⟨0x4000, 10, 1⟩
/-- R480, HOST_STATUS.EVT_LOST. -/
def HOST_STATUS_EVT_LOST : Fld := ⟨0x4000, 11, 1⟩
/-- R480, HOST_STATUS.URG_OVERWRITE. -/
def HOST_STATUS_URG_OVERWRITE : Fld := ⟨0x4000, 12, 1⟩
/-- R480, HOST_LEDGER.UP_PCT. -/
def HOST_LEDGER_UP_PCT : Fld := ⟨0x4004, 0, 6⟩
/-- R480, HOST_LEDGER_FREE.BYTES. -/
def HOST_LEDGER_FREE_BYTES : Fld := ⟨0x4008, 0, 32⟩
/-- R480, HOST_LEDGER_HWM.BYTES. -/
def HOST_LEDGER_HWM_BYTES : Fld := ⟨0x400c, 0, 32⟩
/-- R480, HOST_EVT_LOST_CNT.COUNT. -/
def HOST_EVT_LOST_CNT_COUNT : Fld := ⟨0x4010, 0, 32⟩
/-- R480, HOST_CNT_CLR.CLR. -/
def HOST_CNT_CLR_CLR : Fld := ⟨0x4014, 0, 1⟩
/-- R480, HOST_IMOD.INTERVAL. -/
def HOST_IMOD_INTERVAL : Fld := ⟨0x4018, 0, 16⟩
/-- R480, HOST_EVT_ROUTE.URG. -/
def HOST_EVT_ROUTE_URG : Fld := ⟨0x401c, 0, 2⟩
/-- R480, HOST_EVT_ROUTE.FAULT. -/
def HOST_EVT_ROUTE_FAULT : Fld := ⟨0x401c, 2, 2⟩
/-- R480, HOST_EVT_ROUTE.CLOCK. -/
def HOST_EVT_ROUTE_CLOCK : Fld := ⟨0x401c, 4, 2⟩
/-- R480, HOST_EVT_ROUTE.NET. -/
def HOST_EVT_ROUTE_NET : Fld := ⟨0x401c, 6, 2⟩
/-- R480, HOST_EVT_ROUTE.TRUST. -/
def HOST_EVT_ROUTE_TRUST : Fld := ⟨0x401c, 8, 2⟩
/-- R480, HOST_EVT_ROUTE.OTHER. -/
def HOST_EVT_ROUTE_OTHER : Fld := ⟨0x401c, 10, 2⟩
/-- R480, HOST_HUSH_CFG.PIN_LATCH. -/
def HOST_HUSH_CFG_PIN_LATCH : Fld := ⟨0x4020, 0, 1⟩
/-- R480, HOST_HUSH_PIN_GRP.GROUPS. -/
def HOST_HUSH_PIN_GRP_GROUPS : Fld := ⟨0x4024, 0, 64⟩
/-- R480, HOST_HUSH_STATE.HUSHED. -/
def HOST_HUSH_STATE_HUSHED : Fld := ⟨0x402c, 0, 64⟩
/-- R480, HOST_URG_BUSY.BUSY. -/
def HOST_URG_BUSY_BUSY : Fld := ⟨0x4038, 0, 64⟩
/-- R480, HOST_URG_DONE.DONE. -/
def HOST_URG_DONE_DONE : Fld := ⟨0x4040, 0, 64⟩
/-- R480, HOST_DRAM_WIN_BASE.BASE. -/
def HOST_DRAM_WIN_BASE_BASE : Fld := ⟨0x4048, 0, 32⟩
/-- R480, HOST_DRAM_WIN_SIZE.SIZE. -/
def HOST_DRAM_WIN_SIZE_SIZE : Fld := ⟨0x404c, 0, 32⟩
/-- R480, HOST_CRINGc_BASE.BASE. -/
def HOST_CRING_BASE_BASE (i : Nat) : Fld := ⟨0x4100 + 0x20 * i, 0, 64⟩
/-- R480, HOST_CRINGc_CFG.LOG2. -/
def HOST_CRING_CFG_LOG2 (i : Nat) : Fld := ⟨0x4108 + 0x20 * i, 0, 4⟩
/-- R480, HOST_CRINGc_CFG.EVT. -/
def HOST_CRING_CFG_EVT (i : Nat) : Fld := ⟨0x4108 + 0x20 * i, 4, 2⟩
/-- R480, HOST_CRINGc_CFG.ENABLE. -/
def HOST_CRING_CFG_ENABLE (i : Nat) : Fld := ⟨0x4108 + 0x20 * i, 8, 1⟩
/-- R480, HOST_CRINGc_HEAD.POS. -/
def HOST_CRING_HEAD_POS (i : Nat) : Fld := ⟨0x410c + 0x20 * i, 0, 15⟩
/-- R480, HOST_CRINGc_TAIL.POS. -/
def HOST_CRING_TAIL_POS (i : Nat) : Fld := ⟨0x4110 + 0x20 * i, 0, 15⟩
/-- R480, HOST_CRINGc_ERR.CODE. -/
def HOST_CRING_ERR_CODE (i : Nat) : Fld := ⟨0x4114 + 0x20 * i, 0, 4⟩
/-- R480, HOST_BRINGb_CFG.LOG2. -/
def HOST_BRING_CFG_LOG2 (i : Nat) : Fld := ⟨0x4288 + 0x20 * i, 0, 4⟩
/-- R480, HOST_BRINGb_CFG.EVT. -/
def HOST_BRING_CFG_EVT (i : Nat) : Fld := ⟨0x4288 + 0x20 * i, 4, 2⟩
/-- R480, HOST_BRINGb_CFG.DIR. -/
def HOST_BRING_CFG_DIR (i : Nat) : Fld := ⟨0x4288 + 0x20 * i, 6, 1⟩
/-- R480, HOST_BRINGb_CFG.ENABLE. -/
def HOST_BRING_CFG_ENABLE (i : Nat) : Fld := ⟨0x4288 + 0x20 * i, 8, 1⟩
/-- R480, HOST_BRINGb_CFG.USE. -/
def HOST_BRING_CFG_USE (i : Nat) : Fld := ⟨0x4288 + 0x20 * i, 12, 4⟩
/-- R480, HOST_WINk_BASE.BASE. -/
def HOST_WIN_BASE_BASE (i : Nat) : Fld := ⟨0x4400 + 0x10 * i, 0, 64⟩
/-- R480, HOST_WINk_SIZE.PAGES. -/
def HOST_WIN_SIZE_PAGES (i : Nat) : Fld := ⟨0x4408 + 0x10 * i, 0, 32⟩
/-- R480, HOST_WINk_CTL.ENABLE. -/
def HOST_WIN_CTL_ENABLE (i : Nat) : Fld := ⟨0x440c + 0x10 * i, 0, 1⟩
/-- R480, HOST_WINk_CTL.READ. -/
def HOST_WIN_CTL_READ (i : Nat) : Fld := ⟨0x440c + 0x10 * i, 1, 1⟩
/-- R480, HOST_WINk_CTL.WRITE. -/
def HOST_WIN_CTL_WRITE (i : Nat) : Fld := ⟨0x440c + 0x10 * i, 2, 1⟩
/-- R482, DMA_CHn_CTL.START. -/
def DMA_CH_CTL_START (i : Nat) : Fld := ⟨0xa000 + 0x100 * i, 0, 1⟩
/-- R482, DMA_CHn_CTL.ABORT. -/
def DMA_CH_CTL_ABORT (i : Nat) : Fld := ⟨0xa000 + 0x100 * i, 1, 1⟩
/-- R482, DMA_CHn_DESC.ADDR. -/
def DMA_CH_DESC_ADDR (i : Nat) : Fld := ⟨0xa008 + 0x100 * i, 0, 64⟩
/-- R482, DMA_CHn_STATUS.STATE. -/
def DMA_CH_STATUS_STATE (i : Nat) : Fld := ⟨0xa010 + 0x100 * i, 0, 2⟩
/-- R482, DMA_CHn_STATUS.CODE. -/
def DMA_CH_STATUS_CODE (i : Nat) : Fld := ⟨0xa010 + 0x100 * i, 8, 8⟩
/-- R482, DMA_CHn_STATUS.REC_NEW. -/
def DMA_CH_STATUS_REC_NEW (i : Nat) : Fld := ⟨0xa010 + 0x100 * i, 16, 1⟩
/-- R482, DMA_CHn_MOVED.BYTES. -/
def DMA_CH_MOVED_BYTES (i : Nat) : Fld := ⟨0xa018 + 0x100 * i, 0, 64⟩
/-- R482, DMA_CHn_RESIDUE.BYTES. -/
def DMA_CH_RESIDUE_BYTES (i : Nat) : Fld := ⟨0xa020 + 0x100 * i, 0, 32⟩
/-- R482, DMA_CHn_CUR.ADDR. -/
def DMA_CH_CUR_ADDR (i : Nat) : Fld := ⟨0xa028 + 0x100 * i, 0, 64⟩
/-! network -/

/-- R520, NETx_CTL.EN. -/
def NET_CTL_EN (i : Nat) : Fld := ⟨0xc000 + 0x1000 * i, 0, 1⟩
/-- R520, NETx_CTL.MODE. -/
def NET_CTL_MODE (i : Nat) : Fld := ⟨0xc000 + 0x1000 * i, 1, 1⟩
/-- R520, NETx_CTL.JUMBO. -/
def NET_CTL_JUMBO (i : Nat) : Fld := ⟨0xc000 + 0x1000 * i, 2, 1⟩
/-- R520, NETx_CTL.FEC. -/
def NET_CTL_FEC (i : Nat) : Fld := ⟨0xc000 + 0x1000 * i, 3, 2⟩
/-- R520, NETx_CTL.HOST_EN. -/
def NET_CTL_HOST_EN (i : Nat) : Fld := ⟨0xc000 + 0x1000 * i, 5, 1⟩
/-- R520, NETx_STATUS.LINK. -/
def NET_STATUS_LINK (i : Nat) : Fld := ⟨0xc004 + 0x1000 * i, 0, 1⟩
/-- R520, NETx_STATUS.MOD_PRESENT. -/
def NET_STATUS_MOD_PRESENT (i : Nat) : Fld := ⟨0xc004 + 0x1000 * i, 1, 1⟩
/-- R520, NETx_STATUS.MOD_OK. -/
def NET_STATUS_MOD_OK (i : Nat) : Fld := ⟨0xc004 + 0x1000 * i, 2, 1⟩
/-- R520, NETx_STATUS.RX_LOS. -/
def NET_STATUS_RX_LOS (i : Nat) : Fld := ⟨0xc004 + 0x1000 * i, 3, 1⟩
/-- R520, NETx_STATUS.MOD_REJ. -/
def NET_STATUS_MOD_REJ (i : Nat) : Fld := ⟨0xc004 + 0x1000 * i, 4, 1⟩
/-- R520, NETx_STATUS.DDM_ALARM. -/
def NET_STATUS_DDM_ALARM (i : Nat) : Fld := ⟨0xc004 + 0x1000 * i, 5, 1⟩
/-- R520, NETx_STATUS.CFG_REJ. -/
def NET_STATUS_CFG_REJ (i : Nat) : Fld := ⟨0xc004 + 0x1000 * i, 6, 1⟩
/-- R520, NETx_MAC.MAC. -/
def NET_MAC_MAC (i : Nat) : Fld := ⟨0xc008 + 0x1000 * i, 0, 48⟩
/-- R520, NETx_HOST_MAC.MAC. -/
def NET_HOST_MAC_MAC (i : Nat) : Fld := ⟨0xc010 + 0x1000 * i, 0, 48⟩
/-- R520, NETx_IPV4.ADDR. -/
def NET_IPV4_ADDR (i : Nat) : Fld := ⟨0xc018 + 0x1000 * i, 0, 32⟩
/-- R520, NETx_IPV4_PFX.LEN. -/
def NET_IPV4_PFX_LEN (i : Nat) : Fld := ⟨0xc01c + 0x1000 * i, 0, 6⟩
/-- R520, NETx_IPV6.ADDR. -/
def NET_IPV6_ADDR (i : Nat) (j : Nat) : Fld := ⟨0xc020 + 0x1000 * i + 0x4 * j, 0, 32⟩
/-- R520, NETx_VLAN.VID. -/
def NET_VLAN_VID (i : Nat) : Fld := ⟨0xc030 + 0x1000 * i, 0, 12⟩
/-- R520, NETx_VLAN.TAGGED. -/
def NET_VLAN_TAGGED (i : Nat) : Fld := ⟨0xc030 + 0x1000 * i, 12, 1⟩
/-- R520, NETx_LOSS.MS. -/
def NET_LOSS_MS (i : Nat) : Fld := ⟨0xc034 + 0x1000 * i, 0, 10⟩
/-- R520, NETx_MACSEC.MODE. -/
def NET_MACSEC_MODE (i : Nat) : Fld := ⟨0xc040 + 0x1000 * i, 0, 2⟩
/-- R520, NETx_MACSEC.XPN. -/
def NET_MACSEC_XPN (i : Nat) : Fld := ⟨0xc040 + 0x1000 * i, 2, 1⟩
/-- R520, NETx_MACSEC.MKA_UP. -/
def NET_MACSEC_MKA_UP (i : Nat) : Fld := ⟨0xc040 + 0x1000 * i, 3, 1⟩
/-- R520, NETx_MACSEC.RX_SC. -/
def NET_MACSEC_RX_SC (i : Nat) : Fld := ⟨0xc040 + 0x1000 * i, 8, 7⟩
/-- R520, NETx_RX_FRAMES.COUNT. -/
def NET_RX_FRAMES_COUNT (i : Nat) : Fld := ⟨0xc080 + 0x1000 * i, 0, 32⟩
/-- R520, NETx_TX_FRAMES.COUNT. -/
def NET_TX_FRAMES_COUNT (i : Nat) : Fld := ⟨0xc084 + 0x1000 * i, 0, 32⟩
/-- R520, NETx_MACSEC_DROP.COUNT. -/
def NET_MACSEC_DROP_COUNT (i : Nat) : Fld := ⟨0xc088 + 0x1000 * i, 0, 32⟩
/-- R520, NETx_HOST_DROP.COUNT. -/
def NET_HOST_DROP_COUNT (i : Nat) : Fld := ⟨0xc08c + 0x1000 * i, 0, 32⟩
/-- R520, NETx_CNT_CLR.CLR. -/
def NET_CNT_CLR_CLR (i : Nat) : Fld := ⟨0xc0fc + 0x1000 * i, 0, 1⟩
/-- R520, NETx_MOD_A0.DATA. -/
def NET_MOD_A0_DATA (i : Nat) (j : Nat) : Fld := ⟨0xc100 + 0x1000 * i + 0x4 * j, 0, 32⟩
/-- R520, NETx_MOD_DDM.DATA. -/
def NET_MOD_DDM_DATA (i : Nat) (j : Nat) : Fld := ⟨0xc160 + 0x1000 * i + 0x4 * j, 0, 32⟩
/-- R521, CLS_STATUS.CFG_REJ. -/
def CLS_STATUS_CFG_REJ : Fld := ⟨0xf000, 0, 1⟩
/-- R521, CLS_CLASS_DROP_c.COUNT. -/
def CLS_CLASS_DROP_COUNT (i : Nat) : Fld := ⟨0xf010 + 0x4 * i, 0, 32⟩
/-- R521, CLS_HOST_POLICE.COUNT. -/
def CLS_HOST_POLICE_COUNT : Fld := ⟨0xf030, 0, 32⟩
/-- R521, CLS_CUE_FAIL.COUNT. -/
def CLS_CUE_FAIL_COUNT : Fld := ⟨0xf034, 0, 32⟩
/-- R521, CLS_CNT_CLR.CLR. -/
def CLS_CNT_CLR_CLR : Fld := ⟨0xf03c, 0, 1⟩
/-- R521, CLS_RULE_CNTk.COUNT. -/
def CLS_RULE_CNT_COUNT (i : Nat) : Fld := ⟨0xf800 + 0x4 * i, 0, 32⟩
/-! Wamund -/

/-- R562, WLx_CTL.EN. -/
def WLP_CTL_EN (i : Nat) : Fld := ⟨0x10000 + 0x400 * i, 0, 1⟩
/-- R562, WLx_CTL.RETRAIN. -/
def WLP_CTL_RETRAIN (i : Nat) : Fld := ⟨0x10000 + 0x400 * i, 1, 1⟩
/-- R562, WLx_STATUS.STATE. -/
def WLP_STATUS_STATE (i : Nat) : Fld := ⟨0x10004 + 0x400 * i, 0, 3⟩
/-- R562, WLx_STATUS.MOD_PRESENT. -/
def WLP_STATUS_MOD_PRESENT (i : Nat) : Fld := ⟨0x10004 + 0x400 * i, 3, 1⟩
/-- R562, WLx_STATUS.MOD_OK. -/
def WLP_STATUS_MOD_OK (i : Nat) : Fld := ⟨0x10004 + 0x400 * i, 4, 1⟩
/-- R562, WLx_STATUS.AUTH_FAIL. -/
def WLP_STATUS_AUTH_FAIL (i : Nat) : Fld := ⟨0x10004 + 0x400 * i, 5, 1⟩
/-- R562, WLx_STATUS.DOWN_SEEN. -/
def WLP_STATUS_DOWN_SEEN (i : Nat) : Fld := ⟨0x10004 + 0x400 * i, 6, 1⟩
/-- R562, WLx_STATUS.AUDIO_OVER. -/
def WLP_STATUS_AUDIO_OVER (i : Nat) : Fld := ⟨0x10004 + 0x400 * i, 7, 1⟩
/-- R562, WLx_STATUS.CFG_REJ. -/
def WLP_STATUS_CFG_REJ (i : Nat) : Fld := ⟨0x10004 + 0x400 * i, 8, 1⟩
/-- R562, WLx_PEER.DEVNUM. -/
def WLP_PEER_DEVNUM (i : Nat) : Fld := ⟨0x10008 + 0x400 * i, 0, 16⟩
/-- R562, WLx_PEER.VALID. -/
def WLP_PEER_VALID (i : Nat) : Fld := ⟨0x10008 + 0x400 * i, 16, 1⟩
/-- R562, WLx_DELAY.D. -/
def WLP_DELAY_D (i : Nat) : Fld := ⟨0x1000c + 0x400 * i, 0, 32⟩
/-- R562, WLx_ASYM.ASYM. -/
def WLP_ASYM_ASYM (i : Nat) : Fld := ⟨0x10010 + 0x400 * i, 0, 32⟩
/-- R562, WLx_AUDIO.LOCAL. -/
def WLP_AUDIO_LOCAL (i : Nat) : Fld := ⟨0x10014 + 0x400 * i, 0, 16⟩
/-- R562, WLx_AUDIO.TRANSIT. -/
def WLP_AUDIO_TRANSIT (i : Nat) : Fld := ⟨0x10014 + 0x400 * i, 16, 16⟩
/-- R562, WLx_AUDIO_LAST.CELLS. -/
def WLP_AUDIO_LAST_CELLS (i : Nat) : Fld := ⟨0x10018 + 0x400 * i, 0, 32⟩
/-- R562, WLx_REPLAY_CNT.COUNT. -/
def WLP_REPLAY_CNT_COUNT (i : Nat) : Fld := ⟨0x10020 + 0x400 * i, 0, 32⟩
/-- R562, WLx_ERR_CNT.COUNT. -/
def WLP_ERR_CNT_COUNT (i : Nat) : Fld := ⟨0x10024 + 0x400 * i, 0, 32⟩
/-- R562, WLx_TTL_DROP_CNT.COUNT. -/
def WLP_TTL_DROP_CNT_COUNT (i : Nat) : Fld := ⟨0x10028 + 0x400 * i, 0, 32⟩
/-- R562, WLx_ROUTE_DROP_CNT.COUNT. -/
def WLP_ROUTE_DROP_CNT_COUNT (i : Nat) : Fld := ⟨0x1002c + 0x400 * i, 0, 32⟩
/-- R562, WLx_SRC_DROP_CNT.COUNT. -/
def WLP_SRC_DROP_CNT_COUNT (i : Nat) : Fld := ⟨0x10030 + 0x400 * i, 0, 32⟩
/-- R562, WLx_BUNDLE_LATE_CNT.COUNT. -/
def WLP_BUNDLE_LATE_CNT_COUNT (i : Nat) : Fld := ⟨0x10034 + 0x400 * i, 0, 32⟩
/-- R562, WLx_CNT_CLR.CLR. -/
def WLP_CNT_CLR_CLR (i : Nat) : Fld := ⟨0x1003c + 0x400 * i, 0, 1⟩
/-- R562, WL_DEVNUM.DEVNUM. -/
def WL_DEVNUM_DEVNUM : Fld := ⟨0x10300, 0, 16⟩
/-- R562, WL_BCAST_FWD.LOCAL. -/
def WL_BCAST_FWD_LOCAL : Fld := ⟨0x10304, 0, 4⟩
/-- R562, WL_BCAST_FWD.FROM_WLk. -/
def WL_BCAST_FWD_FROM_WLk : Fld := ⟨0x10304, 4, 16⟩
/-- R562, WL_ROUTE_IDX.DEVNUM. -/
def WL_ROUTE_IDX_DEVNUM : Fld := ⟨0x10308, 0, 16⟩
/-- R562, WL_ROUTE_DATA.ENTRY. -/
def WL_ROUTE_DATA_ENTRY : Fld := ⟨0x1030c, 0, 8⟩
/-- R562, WL_LOSS.MS. -/
def WL_LOSS_MS : Fld := ⟨0x10310, 0, 10⟩
/-! serial ports and AES3 -/

/-- R598, APORT_STATUS.CFG_REJ. -/
def APORT_STATUS_CFG_REJ : Fld := ⟨0x6000, 0, 1⟩
/-- R598, APORT_CNT_CLR.CLR. -/
def APORT_CNT_CLR_CLR : Fld := ⟨0x6004, 0, 1⟩
/-- R598, APGn_CFG.MASTER. -/
def APG_CFG_MASTER (i : Nat) : Fld := ⟨0x6010 + 0x4 * i, 0, 1⟩
/-- R598, APGn_CFG.DOMAIN. -/
def APG_CFG_DOMAIN (i : Nat) : Fld := ⟨0x6010 + 0x4 * i, 1, 2⟩
/-- R598, APGn_CFG.FORMAT. -/
def APG_CFG_FORMAT (i : Nat) : Fld := ⟨0x6010 + 0x4 * i, 3, 2⟩
/-- R598, APGn_CFG.FS_PULSE. -/
def APG_CFG_FS_PULSE (i : Nat) : Fld := ⟨0x6010 + 0x4 * i, 5, 1⟩
/-- R598, APGn_CFG.FS_DELAY. -/
def APG_CFG_FS_DELAY (i : Nat) : Fld := ⟨0x6010 + 0x4 * i, 6, 1⟩
/-- R598, APGn_CFG.BCLK_EDGE. -/
def APG_CFG_BCLK_EDGE (i : Nat) : Fld := ⟨0x6010 + 0x4 * i, 7, 1⟩
/-- R598, APGn_CFG.LOG2_NB. -/
def APG_CFG_LOG2_NB (i : Nat) : Fld := ⟨0x6010 + 0x4 * i, 8, 4⟩
/-- R598, APGn_CFG.SLOTS. -/
def APG_CFG_SLOTS (i : Nat) : Fld := ⟨0x6010 + 0x4 * i, 12, 6⟩
/-- R598, APGn_CFG.SLOTW. -/
def APG_CFG_SLOTW (i : Nat) : Fld := ⟨0x6010 + 0x4 * i, 18, 2⟩
/-- R598, APGn_CFG.ELASTIC. -/
def APG_CFG_ELASTIC (i : Nat) : Fld := ⟨0x6010 + 0x4 * i, 20, 5⟩
/-- R598, APGn_STATUS.CLK_OK. -/
def APG_STATUS_CLK_OK (i : Nat) : Fld := ⟨0x6020 + 0x4 * i, 0, 1⟩
/-- R598, APGn_STATUS.MEAS_RATE. -/
def APG_STATUS_MEAS_RATE (i : Nat) : Fld := ⟨0x6020 + 0x4 * i, 8, 24⟩
/-- R598, APORT_Pp_CTL.EN. -/
def APORT_P_CTL_EN (i : Nat) : Fld := ⟨0x6100 + 0x20 * i, 0, 1⟩
/-- R598, APORT_Pp_CTL.DIR. -/
def APORT_P_CTL_DIR (i : Nat) : Fld := ⟨0x6100 + 0x20 * i, 1, 1⟩
/-- R598, APORT_Pp_CTL.WIDTH. -/
def APORT_P_CTL_WIDTH (i : Nat) : Fld := ⟨0x6100 + 0x20 * i, 2, 2⟩
/-- R598, APORT_Pp_CTL.TRISTATE. -/
def APORT_P_CTL_TRISTATE (i : Nat) : Fld := ⟨0x6100 + 0x20 * i, 4, 1⟩
/-- R598, APORT_Pp_CTL.PAIR_MARK. -/
def APORT_P_CTL_PAIR_MARK (i : Nat) : Fld := ⟨0x6100 + 0x20 * i, 5, 1⟩
/-- R598, APORT_Pp_SLOT_EN.SLOTS. -/
def APORT_P_SLOT_EN_SLOTS (i : Nat) : Fld := ⟨0x6104 + 0x20 * i, 0, 32⟩
/-- R598, APORT_Pp_STATUS.RUNNING. -/
def APORT_P_STATUS_RUNNING (i : Nat) : Fld := ⟨0x6108 + 0x20 * i, 0, 1⟩
/-- R598, APORT_Pp_STATUS.STOPPED. -/
def APORT_P_STATUS_STOPPED (i : Nat) : Fld := ⟨0x6108 + 0x20 * i, 1, 1⟩
/-- R598, APORT_Pp_STATUS.UNDERRUN. -/
def APORT_P_STATUS_UNDERRUN (i : Nat) : Fld := ⟨0x6108 + 0x20 * i, 2, 1⟩
/-- R598, APORT_Pp_STATUS.OVERRUN. -/
def APORT_P_STATUS_OVERRUN (i : Nat) : Fld := ⟨0x6108 + 0x20 * i, 3, 1⟩
/-- R598, APORT_Pp_STATUS.FS_ERR. -/
def APORT_P_STATUS_FS_ERR (i : Nat) : Fld := ⟨0x6108 + 0x20 * i, 4, 1⟩
/-- R598, APORT_Pp_STATUS.PAIR_PHASE. -/
def APORT_P_STATUS_PAIR_PHASE (i : Nat) : Fld := ⟨0x6108 + 0x20 * i, 5, 1⟩
/-- R598, APORT_Pp_STATUS.PAIR_SWAP. -/
def APORT_P_STATUS_PAIR_SWAP (i : Nat) : Fld := ⟨0x6108 + 0x20 * i, 6, 1⟩
/-- R598, APORT_Pp_STATUS.CAP_REJ. -/
def APORT_P_STATUS_CAP_REJ (i : Nat) : Fld := ⟨0x6108 + 0x20 * i, 7, 1⟩
/-- R598, APORT_Pp_CNT.XRUN. -/
def APORT_P_CNT_XRUN (i : Nat) : Fld := ⟨0x610c + 0x20 * i, 0, 16⟩
/-- R598, APORT_Pp_CNT.FS_ERR_CNT. -/
def APORT_P_CNT_FS_ERR_CNT (i : Nat) : Fld := ⟨0x610c + 0x20 * i, 16, 16⟩
/-- R599, AES_STATUS.CFG_REJ. -/
def AES_STATUS_CFG_REJ : Fld := ⟨0x7000, 0, 1⟩
/-- R599, AES_CNT_CLR.CLR. -/
def AES_CNT_CLR_CLR : Fld := ⟨0x7004, 0, 1⟩
/-- R599, AES_ASRC_CFG.FINAL. -/
def AES_ASRC_CFG_FINAL : Fld := ⟨0x7008, 0, 8⟩
/-- R599, AES_ASRC_POOL.USED. -/
def AES_ASRC_POOL_USED : Fld := ⟨0x700c, 0, 8⟩
/-- R599, AES_ASRC_POOL.HWM. -/
def AES_ASRC_POOL_HWM : Fld := ⟨0x700c, 8, 8⟩
/-- R599, AES_ASRC_POOL.RETRACK. -/
def AES_ASRC_POOL_RETRACK : Fld := ⟨0x700c, 16, 16⟩
/-- R599, AES_RXn_CTL.EN. -/
def AES_RX_CTL_EN (i : Nat) : Fld := ⟨0x7100 + 0x80 * i, 0, 1⟩
/-- R599, AES_RXn_CTL.DOMAIN. -/
def AES_RX_CTL_DOMAIN (i : Nat) : Fld := ⟨0x7100 + 0x80 * i, 1, 2⟩
/-- R599, AES_RXn_CTL.FINAL. -/
def AES_RX_CTL_FINAL (i : Nat) : Fld := ⟨0x7100 + 0x80 * i, 8, 8⟩
/-- R599, AES_RXn_STATUS.LOCK. -/
def AES_RX_STATUS_LOCK (i : Nat) : Fld := ⟨0x7104 + 0x80 * i, 0, 2⟩
/-- R599, AES_RXn_STATUS.RATE. -/
def AES_RX_STATUS_RATE (i : Nat) : Fld := ⟨0x7104 + 0x80 * i, 2, 3⟩
/-- R599, AES_RXn_STATUS.CONSUMER. -/
def AES_RX_STATUS_CONSUMER (i : Nat) : Fld := ⟨0x7104 + 0x80 * i, 5, 1⟩
/-- R599, AES_RXn_STATUS.CRC_ERR. -/
def AES_RX_STATUS_CRC_ERR (i : Nat) : Fld := ⟨0x7104 + 0x80 * i, 6, 1⟩
/-- R599, AES_RXn_STATUS.PARITY_ERR. -/
def AES_RX_STATUS_PARITY_ERR (i : Nat) : Fld := ⟨0x7104 + 0x80 * i, 7, 1⟩
/-- R599, AES_RXn_STATUS.CS_CHANGED. -/
def AES_RX_STATUS_CS_CHANGED (i : Nat) : Fld := ⟨0x7104 + 0x80 * i, 8, 1⟩
/-- R599, AES_RXn_STATUS.LOST. -/
def AES_RX_STATUS_LOST (i : Nat) : Fld := ⟨0x7104 + 0x80 * i, 9, 1⟩
/-- R599, AES_RXn_RATIO.RATIO. -/
def AES_RX_RATIO_RATIO (i : Nat) : Fld := ⟨0x7108 + 0x80 * i, 0, 32⟩
/-- R599, AES_RXn_ERR_CNT.PARITY. -/
def AES_RX_ERR_CNT_PARITY (i : Nat) : Fld := ⟨0x710c + 0x80 * i, 0, 16⟩
/-- R599, AES_RXn_ERR_CNT.CRC. -/
def AES_RX_ERR_CNT_CRC (i : Nat) : Fld := ⟨0x710c + 0x80 * i, 16, 16⟩
/-- R599, AES_RXn_CS_SNAP.SNAP. -/
def AES_RX_CS_SNAP_SNAP (i : Nat) : Fld := ⟨0x7110 + 0x80 * i, 0, 1⟩
/-- R599, AES_RXn_BW.BW. -/
def AES_RX_BW_BW (i : Nat) : Fld := ⟨0x7114 + 0x80 * i, 0, 16⟩
/-- R599, AES_RXn_CS_A.BYTES. -/
def AES_RX_CS_A_BYTES (i : Nat) (j : Nat) : Fld := ⟨0x7120 + 0x80 * i + 0x4 * j, 0, 32⟩
/-- R599, AES_RXn_CS_B.BYTES. -/
def AES_RX_CS_B_BYTES (i : Nat) (j : Nat) : Fld := ⟨0x7140 + 0x80 * i + 0x4 * j, 0, 32⟩
/-- R599, AES_TXn_CTL.EN. -/
def AES_TX_CTL_EN (i : Nat) : Fld := ⟨0x7500 + 0x80 * i, 0, 1⟩
/-- R599, AES_TXn_CTL.DOMAIN. -/
def AES_TX_CTL_DOMAIN (i : Nat) : Fld := ⟨0x7500 + 0x80 * i, 1, 2⟩
/-- R599, AES_TXn_CTL.V_FORCE. -/
def AES_TX_CTL_V_FORCE (i : Nat) : Fld := ⟨0x7500 + 0x80 * i, 3, 1⟩
/-- R599, AES_TXn_CTL.COMMIT. -/
def AES_TX_CTL_COMMIT (i : Nat) : Fld := ⟨0x7500 + 0x80 * i, 4, 1⟩
/-- R599, AES_TXn_STATUS.RUNNING. -/
def AES_TX_STATUS_RUNNING (i : Nat) : Fld := ⟨0x7504 + 0x80 * i, 0, 1⟩
/-- R599, AES_TXn_STATUS.PENDING. -/
def AES_TX_STATUS_PENDING (i : Nat) : Fld := ⟨0x7504 + 0x80 * i, 1, 1⟩
/-- R599, AES_TXn_STATUS.GATED. -/
def AES_TX_STATUS_GATED (i : Nat) : Fld := ⟨0x7504 + 0x80 * i, 2, 1⟩
/-- R599, AES_TXn_CS_A.BYTES. -/
def AES_TX_CS_A_BYTES (i : Nat) (j : Nat) : Fld := ⟨0x7520 + 0x80 * i + 0x4 * j, 0, 32⟩
/-- R599, AES_TXn_CS_B.BYTES. -/
def AES_TX_CS_B_BYTES (i : Nat) (j : Nat) : Fld := ⟨0x7540 + 0x80 * i + 0x4 * j, 0, 32⟩
/-! HUBA -/

/-- R626, HUBA_STATUS.CFG_REJ. -/
def HUBA_STATUS_CFG_REJ : Fld := ⟨0x8000, 0, 1⟩
/-- R626, HUBA_CNT_CLR.CLR. -/
def HUBA_CNT_CLR_CLR : Fld := ⟨0x8004, 0, 1⟩
/-- R626, HUBA_DOMAIN.CONV_DOM. -/
def HUBA_DOMAIN_CONV_DOM : Fld := ⟨0x8008, 0, 2⟩
/-- R626, HUBA_DOMAIN.PS_DOM. -/
def HUBA_DOMAIN_PS_DOM : Fld := ⟨0x8008, 2, 2⟩
/-- R626, HUBA_ADCn_CTL.EN. -/
def HUBA_ADC_CTL_EN (i : Nat) : Fld := ⟨0x8010 + 0x10 * i, 0, 1⟩
/-- R626, HUBA_ADCn_CTL.SOURCE. -/
def HUBA_ADC_CTL_SOURCE (i : Nat) : Fld := ⟨0x8010 + 0x10 * i, 1, 1⟩
/-- R626, HUBA_ADCn_CTL.BIAS. -/
def HUBA_ADC_CTL_BIAS (i : Nat) : Fld := ⟨0x8010 + 0x10 * i, 2, 1⟩
/-- R626, HUBA_ADCn_CTL.PRESET. -/
def HUBA_ADC_CTL_PRESET (i : Nat) : Fld := ⟨0x8010 + 0x10 * i, 3, 2⟩
/-- R626, HUBA_ADCn_CTL.BTN_MUTE. -/
def HUBA_ADC_CTL_BTN_MUTE (i : Nat) : Fld := ⟨0x8010 + 0x10 * i, 5, 1⟩
/-- R626, HUBA_ADCn_CTL.RANGE_REQ. -/
def HUBA_ADC_CTL_RANGE_REQ (i : Nat) : Fld := ⟨0x8010 + 0x10 * i, 8, 5⟩
/-- R626, HUBA_ADCn_SHIFT.SHIFT1. -/
def HUBA_ADC_SHIFT_SHIFT1 (i : Nat) : Fld := ⟨0x8014 + 0x10 * i, 0, 3⟩
/-- R626, HUBA_ADCn_SHIFT.SHIFT2. -/
def HUBA_ADC_SHIFT_SHIFT2 (i : Nat) : Fld := ⟨0x8014 + 0x10 * i, 4, 3⟩
/-- R626, HUBA_ADCn_SHIFT.SHIFT3. -/
def HUBA_ADC_SHIFT_SHIFT3 (i : Nat) : Fld := ⟨0x8014 + 0x10 * i, 8, 3⟩
/-- R626, HUBA_ADCn_SHIFT.SHIFT4. -/
def HUBA_ADC_SHIFT_SHIFT4 (i : Nat) : Fld := ⟨0x8014 + 0x10 * i, 12, 3⟩
/-- R626, HUBA_ADCn_STATUS.SETTLED. -/
def HUBA_ADC_STATUS_SETTLED (i : Nat) : Fld := ⟨0x8018 + 0x10 * i, 0, 1⟩
/-- R626, HUBA_ADCn_STATUS.RANGE. -/
def HUBA_ADC_STATUS_RANGE (i : Nat) : Fld := ⟨0x8018 + 0x10 * i, 1, 5⟩
/-- R626, HUBA_ADCn_STATUS.RAMP_PATH. -/
def HUBA_ADC_STATUS_RAMP_PATH (i : Nat) : Fld := ⟨0x8018 + 0x10 * i, 6, 1⟩
/-- R626, HUBA_ADCn_STATUS.BIG_STEP. -/
def HUBA_ADC_STATUS_BIG_STEP (i : Nat) : Fld := ⟨0x8018 + 0x10 * i, 7, 1⟩
/-- R626, HUBA_ADCn_STATUS.SAT. -/
def HUBA_ADC_STATUS_SAT (i : Nat) : Fld := ⟨0x8018 + 0x10 * i, 8, 4⟩
/-- R626, HUBA_ADCn_STATUS.COMP. -/
def HUBA_ADC_STATUS_COMP (i : Nat) : Fld := ⟨0x8018 + 0x10 * i, 16, 8⟩
/-- R626, HUBA_ADCn_CNT.SAT_CNT. -/
def HUBA_ADC_CNT_SAT_CNT (i : Nat) : Fld := ⟨0x801c + 0x10 * i, 0, 16⟩
/-- R626, HUBA_ADCn_CNT.RANGE_CNT. -/
def HUBA_ADC_CNT_RANGE_CNT (i : Nat) : Fld := ⟨0x801c + 0x10 * i, 16, 16⟩
/-- R626, HUBA_DACn_CTL.EN. -/
def HUBA_DAC_CTL_EN (i : Nat) : Fld := ⟨0x8030 + 0x10 * i, 0, 1⟩
/-- R626, HUBA_DACn_CTL.PRESET. -/
def HUBA_DAC_CTL_PRESET (i : Nat) : Fld := ⟨0x8030 + 0x10 * i, 3, 2⟩
/-- R626, HUBA_DACn_SHIFT.SHIFT1. -/
def HUBA_DAC_SHIFT_SHIFT1 (i : Nat) : Fld := ⟨0x8034 + 0x10 * i, 0, 3⟩
/-- R626, HUBA_DACn_SHIFT.SHIFT2. -/
def HUBA_DAC_SHIFT_SHIFT2 (i : Nat) : Fld := ⟨0x8034 + 0x10 * i, 4, 3⟩
/-- R626, HUBA_DACn_SHIFT.SHIFT3. -/
def HUBA_DAC_SHIFT_SHIFT3 (i : Nat) : Fld := ⟨0x8034 + 0x10 * i, 8, 3⟩
/-- R626, HUBA_DACn_SHIFT.SHIFT4. -/
def HUBA_DAC_SHIFT_SHIFT4 (i : Nat) : Fld := ⟨0x8034 + 0x10 * i, 12, 3⟩
/-- R626, HUBA_DACn_STATUS.SETTLED. -/
def HUBA_DAC_STATUS_SETTLED (i : Nat) : Fld := ⟨0x8038 + 0x10 * i, 0, 1⟩
/-- R626, HUBA_DACn_STATUS.MUTED. -/
def HUBA_DAC_STATUS_MUTED (i : Nat) : Fld := ⟨0x8038 + 0x10 * i, 1, 1⟩
/-- R626, HUBA_DACn_STATUS.SAT. -/
def HUBA_DAC_STATUS_SAT (i : Nat) : Fld := ⟨0x8038 + 0x10 * i, 8, 4⟩
/-- R626, HUBA_DACn_CNT.SAT_CNT. -/
def HUBA_DAC_CNT_SAT_CNT (i : Nat) : Fld := ⟨0x803c + 0x10 * i, 0, 16⟩
/-- R626, HUBA_JACK.HP_PRESENT. -/
def HUBA_JACK_HP_PRESENT : Fld := ⟨0x8050, 0, 1⟩
/-- R626, HUBA_JACK.TB_PRESENT. -/
def HUBA_JACK_TB_PRESENT : Fld := ⟨0x8050, 1, 1⟩
/-- R626, HUBA_JACK.TYPE. -/
def HUBA_JACK_TYPE : Fld := ⟨0x8050, 2, 3⟩
/-- R626, HUBA_JACK.BUTTONS. -/
def HUBA_JACK_BUTTONS : Fld := ⟨0x8050, 5, 3⟩
/-- R626, HUBA_JACK.JACK_CHG. -/
def HUBA_JACK_JACK_CHG : Fld := ⟨0x8050, 8, 1⟩
/-- R626, HUBA_JACK_Z.TIP_Z. -/
def HUBA_JACK_Z_TIP_Z : Fld := ⟨0x8054, 0, 16⟩
/-- R626, HUBA_JACK_Z.MIC_Z. -/
def HUBA_JACK_Z_MIC_Z : Fld := ⟨0x8054, 16, 16⟩
/-- R626, HUBA_PS_CTL.EN. -/
def HUBA_PS_CTL_EN : Fld := ⟨0x8060, 0, 2⟩
/-- R626, HUBA_PS_CTL.COMPAT. -/
def HUBA_PS_CTL_COMPAT : Fld := ⟨0x8060, 2, 1⟩
/-- R626, HUBA_PS_CTL.RETRIES. -/
def HUBA_PS_CTL_RETRIES : Fld := ⟨0x8060, 4, 4⟩
/-- R626, HUBA_PS_CTL.VFS. -/
def HUBA_PS_CTL_VFS : Fld := ⟨0x8060, 8, 8⟩
/-- R626, HUBA_PSc_STATUS.STATE. -/
def HUBA_PSC_STATUS_STATE (i : Nat) : Fld := ⟨0x8064 + 0x4 * i, 0, 3⟩
/-- R626, HUBA_PSc_STATUS.ILIM. -/
def HUBA_PSC_STATUS_ILIM (i : Nat) : Fld := ⟨0x8064 + 0x4 * i, 3, 1⟩
/-- R626, HUBA_PSc_STATUS.SHUTDOWN. -/
def HUBA_PSC_STATUS_SHUTDOWN (i : Nat) : Fld := ⟨0x8064 + 0x4 * i, 4, 1⟩
/-- R626, HUBA_PSc_STATUS.THERM. -/
def HUBA_PSC_STATUS_THERM (i : Nat) : Fld := ⟨0x8064 + 0x4 * i, 5, 1⟩
/-- R626, HUBA_PSc_STATUS.CLIP. -/
def HUBA_PSC_STATUS_CLIP (i : Nat) : Fld := ⟨0x8064 + 0x4 * i, 6, 1⟩
/-- R626, HUBA_PSc_STATUS.RETRY_USED. -/
def HUBA_PSC_STATUS_RETRY_USED (i : Nat) : Fld := ⟨0x8064 + 0x4 * i, 8, 8⟩
/-- R626, HUBA_PS_VSUP.MV. -/
def HUBA_PS_VSUP_MV : Fld := ⟨0x806c, 0, 16⟩
/-- R626, HUBA_PS_VSUP.LIM_GR. -/
def HUBA_PS_VSUP_LIM_GR : Fld := ⟨0x806c, 16, 16⟩
/-- R626, HUBA_PS_TEMP.TEMP. -/
def HUBA_PS_TEMP_TEMP : Fld := ⟨0x8070, 0, 16⟩
/-- R626, HUBA_PS_TEMP.FOLD. -/
def HUBA_PS_TEMP_FOLD : Fld := ⟨0x8070, 16, 16⟩
/-- R626, HUBA_PS_CNT.SHUTDOWNS. -/
def HUBA_PS_CNT_SHUTDOWNS : Fld := ⟨0x8074, 0, 16⟩
/-- R626, HUBA_PS_CNT.CLIPS. -/
def HUBA_PS_CNT_CLIPS : Fld := ⟨0x8074, 16, 16⟩
/-! SURF -/

/-- R660, SURF_STATUS.CFG_REJ. -/
def SURF_STATUS_CFG_REJ : Fld := ⟨0x9000, 0, 1⟩
/-- R660, SURF_STATUS.DISC_DONE. -/
def SURF_STATUS_DISC_DONE : Fld := ⟨0x9000, 1, 1⟩
/-- R660, SURF_CNT_CLR.CLR. -/
def SURF_CNT_CLR_CLR : Fld := ⟨0x9004, 0, 1⟩
/-- R660, SURF_CTL.LAW_COMMIT. -/
def SURF_CTL_LAW_COMMIT : Fld := ⟨0x9008, 0, 1⟩
/-- R660, SURF_MBn_CTL.EN. -/
def SURF_MB_CTL_EN (i : Nat) : Fld := ⟨0x9010 + 0x4 * i, 0, 1⟩
/-- R660, SURF_MBn_CTL.MUX. -/
def SURF_MB_CTL_MUX (i : Nat) : Fld := ⟨0x9010 + 0x4 * i, 1, 1⟩
/-- R660, SURF_MBn_CTL.SLOW. -/
def SURF_MB_CTL_SLOW (i : Nat) : Fld := ⟨0x9010 + 0x4 * i, 2, 1⟩
/-- R660, SURF_MBn_CTL.BRANCHES. -/
def SURF_MB_CTL_BRANCHES (i : Nat) : Fld := ⟨0x9010 + 0x4 * i, 8, 8⟩
/-- R660, SURF_SLp_CTL.EN. -/
def SURF_SL_CTL_EN (i : Nat) : Fld := ⟨0x9020 + 0x4 * i, 0, 1⟩
/-- R660, SURF_SLp_CTL.RESTART. -/
def SURF_SL_CTL_RESTART (i : Nat) : Fld := ⟨0x9020 + 0x4 * i, 1, 1⟩
/-- R660, SURF_SLp_STATUS.STATE. -/
def SURF_SL_STATUS_STATE (i : Nat) : Fld := ⟨0x9040 + 0x4 * i, 0, 2⟩
/-- R660, SURF_SLp_STATUS.MODULES. -/
def SURF_SL_STATUS_MODULES (i : Nat) : Fld := ⟨0x9040 + 0x4 * i, 4, 4⟩
/-- R660, SURF_SLp_STATUS.LOST. -/
def SURF_SL_STATUS_LOST (i : Nat) : Fld := ⟨0x9040 + 0x4 * i, 8, 4⟩
/-- R660, SURF_SLp_CNT.UP_ERR. -/
def SURF_SL_CNT_UP_ERR (i : Nat) : Fld := ⟨0x9060 + 0x4 * i, 0, 16⟩
/-- R660, SURF_SLp_CNT.MGMT_ERR. -/
def SURF_SL_CNT_MGMT_ERR (i : Nat) : Fld := ⟨0x9060 + 0x4 * i, 16, 16⟩
/-- R660, SURF_SERVO_STATUS.RUNNING. -/
def SURF_SERVO_STATUS_RUNNING : Fld := ⟨0x9080, 0, 4⟩
/-- R660, SURF_SERVO_STATUS.QUAR. -/
def SURF_SERVO_STATUS_QUAR : Fld := ⟨0x9080, 4, 4⟩
/-- R660, SURF_SERVO_STATUS.CUT_SEEN. -/
def SURF_SERVO_STATUS_CUT_SEEN : Fld := ⟨0x9080, 8, 4⟩
/-- R660, SURF_SERVOk_CYC_LAST.CYCLES. -/
def SURF_SERVO_CYC_LAST_CYCLES (i : Nat) : Fld := ⟨0x9090 + 0x8 * i, 0, 32⟩
/-- R660, SURF_SERVOk_CYC_HWM.CYCLES. -/
def SURF_SERVO_CYC_HWM_CYCLES (i : Nat) : Fld := ⟨0x9094 + 0x8 * i, 0, 32⟩
/-- R660, SURF_POLICY_ACT.ACTION. -/
def SURF_POLICY_ACT_ACTION : Fld := ⟨0x90b0, 0, 32⟩
/-- R660, SURF_POLICY_SE.REQ_SE. -/
def SURF_POLICY_SE_REQ_SE : Fld := ⟨0x90b4, 0, 16⟩
/-- R660, SURF_MIR_SEL.SLOT. -/
def SURF_MIR_SEL_SLOT : Fld := ⟨0x90c0, 0, 7⟩
/-- R660, SURF_MIR_SEL.OFFSET. -/
def SURF_MIR_SEL_OFFSET : Fld := ⟨0x90c0, 8, 12⟩
/-- R660, SURF_MIR_DATAj.BYTES. -/
def SURF_MIR_DATA_BYTES (i : Nat) : Fld := ⟨0x9100 + 0x4 * i, 0, 32⟩
/-- R660, SURF_LAW_k.DB. -/
def SURF_LAW_DB (i : Nat) : Fld := ⟨0x9140 + 0x4 * i, 0, 32⟩
/-- R660, SURF_SLOTs.PRESENT. -/
def SURF_SLOT_PRESENT (i : Nat) : Fld := ⟨0x9200 + 0x4 * i, 0, 1⟩
/-- R660, SURF_SLOTs.VERDICT. -/
def SURF_SLOT_VERDICT (i : Nat) : Fld := ⟨0x9200 + 0x4 * i, 1, 3⟩
/-- R660, SURF_SLOTs.ACTION. -/
def SURF_SLOT_ACTION (i : Nat) : Fld := ⟨0x9200 + 0x4 * i, 4, 2⟩
/-- R660, SURF_SLOTs.SE. -/
def SURF_SLOT_SE (i : Nat) : Fld := ⟨0x9200 + 0x4 * i, 6, 1⟩
/-- R660, SURF_SLOTs.CLASS_IDX. -/
def SURF_SLOT_CLASS_IDX (i : Nat) : Fld := ⟨0x9200 + 0x4 * i, 8, 4⟩
/-- R660, SURF_SLOTs.CLASS. -/
def SURF_SLOT_CLASS (i : Nat) : Fld := ⟨0x9200 + 0x4 * i, 16, 16⟩
/-- R660, SURF_FADERf_BIND.HANDLE. -/
def SURF_FADER_BIND_HANDLE (i : Nat) : Fld := ⟨0x9400 + 0x4 * i, 0, 32⟩
/-- R660, SURF_FADERf_STATE.RAW. -/
def SURF_FADER_STATE_RAW (i : Nat) : Fld := ⟨0x9800 + 0x4 * i, 0, 12⟩
/-- R660, SURF_FADERf_STATE.TOUCH. -/
def SURF_FADER_STATE_TOUCH (i : Nat) : Fld := ⟨0x9800 + 0x4 * i, 12, 1⟩
/-- R660, SURF_FADERf_STATE.PICKUP. -/
def SURF_FADER_STATE_PICKUP (i : Nat) : Fld := ⟨0x9800 + 0x4 * i, 13, 1⟩
/-- R660, SURF_FADERf_STATE.STALLED. -/
def SURF_FADER_STATE_STALLED (i : Nat) : Fld := ⟨0x9800 + 0x4 * i, 14, 1⟩
/-- R660, SURF_FADERf_STATE.CONTROL. -/
def SURF_FADER_STATE_CONTROL (i : Nat) : Fld := ⟨0x9800 + 0x4 * i, 15, 1⟩
/-- R660, SURF_FADERf_STATE.EN_SENT. -/
def SURF_FADER_STATE_EN_SENT (i : Nat) : Fld := ⟨0x9800 + 0x4 * i, 16, 1⟩
/-- R660, SURF_FADERf_STATE.MOTOR. -/
def SURF_FADER_STATE_MOTOR (i : Nat) : Fld := ⟨0x9800 + 0x4 * i, 17, 1⟩
/-! STORE -/

/-- R692, STORE_STATUS.LINK_UP. -/
def STORE_STATUS_LINK_UP : Fld := ⟨0x11000, 0, 1⟩
/-- R692, STORE_STATUS.WIDTH. -/
def STORE_STATUS_WIDTH : Fld := ⟨0x11000, 1, 2⟩
/-- R692, STORE_STATUS.SPEED. -/
def STORE_STATUS_SPEED : Fld := ⟨0x11000, 3, 3⟩
/-- R692, STORE_STATUS.STATE. -/
def STORE_STATUS_STATE : Fld := ⟨0x11000, 6, 2⟩
/-- R692, STORE_STATUS.CFG_REJ. -/
def STORE_STATUS_CFG_REJ : Fld := ⟨0x11000, 8, 1⟩
/-- R692, STORE_STATUS.OVERRUN. -/
def STORE_STATUS_OVERRUN : Fld := ⟨0x11000, 9, 1⟩
/-- R692, STORE_STATUS.RECOVERED. -/
def STORE_STATUS_RECOVERED : Fld := ⟨0x11000, 10, 1⟩
/-- R692, STORE_STATUS.ONE_JOURNAL. -/
def STORE_STATUS_ONE_JOURNAL : Fld := ⟨0x11000, 11, 1⟩
/-- R692, STORE_MEMBERS.PRESENT. -/
def STORE_MEMBERS_PRESENT : Fld := ⟨0x11004, 0, 8⟩
/-- R692, STORE_MEMBERS.COUNT. -/
def STORE_MEMBERS_COUNT : Fld := ⟨0x11004, 8, 8⟩
/-- R692, STORE_MEMBERS.LOST. -/
def STORE_MEMBERS_LOST : Fld := ⟨0x11004, 16, 8⟩
/-- R692, STORE_CFG.JOURNAL_MS. -/
def STORE_CFG_JOURNAL_MS : Fld := ⟨0x11008, 0, 11⟩
/-- R692, STORE_POLICY.EXPORT_PLAIN. -/
def STORE_POLICY_EXPORT_PLAIN : Fld := ⟨0x1100c, 0, 1⟩
/-- R692, STORE_POLICY.HOST_FORMAT. -/
def STORE_POLICY_HOST_FORMAT : Fld := ⟨0x1100c, 1, 1⟩
/-- R692, STORE_POLICY.HOST_DELETE. -/
def STORE_POLICY_HOST_DELETE : Fld := ⟨0x1100c, 2, 1⟩
/-- R692, STORE_ACTIVE.REC. -/
def STORE_ACTIVE_REC : Fld := ⟨0x11010, 0, 11⟩
/-- R692, STORE_ACTIVE.PLAY. -/
def STORE_ACTIVE_PLAY : Fld := ⟨0x11010, 16, 11⟩
/-- R692, STORE_FREE.EXTENTS. -/
def STORE_FREE_EXTENTS : Fld := ⟨0x11018, 0, 64⟩
/-- R692, STORE_JSEQ.SEQ. -/
def STORE_JSEQ_SEQ : Fld := ⟨0x11020, 0, 64⟩
/-- R692, STORE_OVERRUN_CNT.COUNT. -/
def STORE_OVERRUN_CNT_COUNT : Fld := ⟨0x11028, 0, 32⟩
/-- R692, STORE_UNDERRUN_CNT.COUNT. -/
def STORE_UNDERRUN_CNT_COUNT : Fld := ⟨0x1102c, 0, 32⟩
/-- R692, STORE_IO_ERR_CNT.COUNT. -/
def STORE_IO_ERR_CNT_COUNT : Fld := ⟨0x11030, 0, 32⟩
/-- R692, STORE_CNT_CLR.CLR. -/
def STORE_CNT_CLR_CLR : Fld := ⟨0x1103c, 0, 1⟩
/-- R692, STORE_DRVn_STATUS.PRESENT. -/
def STORE_DRV_STATUS_PRESENT (i : Nat) : Fld := ⟨0x11100 + 0x10 * i, 0, 1⟩
/-- R692, STORE_DRVn_STATUS.MEMBER. -/
def STORE_DRV_STATUS_MEMBER (i : Nat) : Fld := ⟨0x11100 + 0x10 * i, 1, 1⟩
/-- R692, STORE_DRVn_STATUS.REFUSED. -/
def STORE_DRV_STATUS_REFUSED (i : Nat) : Fld := ⟨0x11100 + 0x10 * i, 2, 1⟩
/-- R692, STORE_DRVn_STATUS.INDEX. -/
def STORE_DRV_STATUS_INDEX (i : Nat) : Fld := ⟨0x11100 + 0x10 * i, 4, 3⟩
/-- R692, STORE_DRVn_EXTENTS.COUNT. -/
def STORE_DRV_EXTENTS_COUNT (i : Nat) : Fld := ⟨0x11104 + 0x10 * i, 0, 32⟩
/-- R692, STORE_DRVn_TEMP.KELVIN. -/
def STORE_DRV_TEMP_KELVIN (i : Nat) : Fld := ⟨0x11108 + 0x10 * i, 0, 16⟩
/-! PWR -/

/-- R723, PWR_STATUS.SUPPLY. -/
def PWR_STATUS_SUPPLY : Fld := ⟨0x1000, 0, 2⟩
/-- R723, PWR_STATUS.VPF_LOW. -/
def PWR_STATUS_VPF_LOW : Fld := ⟨0x1000, 2, 1⟩
/-- R723, PWR_STATUS.WARN. -/
def PWR_STATUS_WARN : Fld := ⟨0x1000, 3, 1⟩
/-- R723, PWR_STATUS.RIDE. -/
def PWR_STATUS_RIDE : Fld := ⟨0x1000, 4, 1⟩
/-- R723, PWR_STATUS.HANDOVER_SEEN. -/
def PWR_STATUS_HANDOVER_SEEN : Fld := ⟨0x1000, 5, 1⟩
/-- R723, PWR_STATUS.WARM_LOST. -/
def PWR_STATUS_WARM_LOST : Fld := ⟨0x1000, 6, 1⟩
/-- R723, PWR_STATUS.COLD_NEXT. -/
def PWR_STATUS_COLD_NEXT : Fld := ⟨0x1000, 7, 1⟩
/-- R723, PWR_STATUS.WAKE_FAIL. -/
def PWR_STATUS_WAKE_FAIL : Fld := ⟨0x1000, 8, 1⟩
/-- R723, PWR_STATUS.START_KIND. -/
def PWR_STATUS_START_KIND : Fld := ⟨0x1000, 9, 1⟩
/-- R723, PWR_STATUS.CAUSE. -/
def PWR_STATUS_CAUSE : Fld := ⟨0x1000, 10, 2⟩
/-- R723, PWR_STATUS.HOUSE. -/
def PWR_STATUS_HOUSE : Fld := ⟨0x1000, 12, 1⟩
/-- R723, PWR_STATUS.HOLD. -/
def PWR_STATUS_HOLD : Fld := ⟨0x1000, 13, 1⟩
/-- R723, PWR_STATUS.CFG_REJ. -/
def PWR_STATUS_CFG_REJ : Fld := ⟨0x1000, 14, 1⟩
/-- R723, PWR_CTL.STANDBY. -/
def PWR_CTL_STANDBY : Fld := ⟨0x1004, 0, 1⟩
/-- R723, PWR_WARM_CNT.COUNT. -/
def PWR_WARM_CNT_COUNT : Fld := ⟨0x1008, 0, 48⟩
/-- R723, PWR_ALARM.ALARM. -/
def PWR_ALARM_ALARM : Fld := ⟨0x1010, 0, 48⟩
/-- R723, PWR_ALARM_CTL.EN. -/
def PWR_ALARM_CTL_EN : Fld := ⟨0x1018, 0, 1⟩
/-- R723, PWR_ALARM_CTL.FIRED. -/
def PWR_ALARM_CTL_FIRED : Fld := ⟨0x1018, 1, 1⟩
/-- R723, PWR_UNMUTE.MS. -/
def PWR_UNMUTE_MS : Fld := ⟨0x101c, 0, 13⟩
/-- R723, PWR_BISQUE.COPY. -/
def PWR_BISQUE_COPY : Fld := ⟨0x1020, 0, 2⟩
/-- R723, PWR_BISQUE.MAJORITY. -/
def PWR_BISQUE_MAJORITY : Fld := ⟨0x1020, 2, 1⟩
/-- R723, PWR_BISQUE.SPLIT. -/
def PWR_BISQUE_SPLIT : Fld := ⟨0x1020, 3, 1⟩
/-- R723, PWR_BISQUE.FW. -/
def PWR_BISQUE_FW : Fld := ⟨0x1020, 4, 1⟩
/-- R723, PWR_BISQUE.PSET. -/
def PWR_BISQUE_PSET : Fld := ⟨0x1020, 5, 1⟩
/-- R723, PWR_GEN.GEN. -/
def PWR_GEN_GEN : Fld := ⟨0x1028, 0, 64⟩
/-- R723, PWR_COPYk.INTACT. -/
def PWR_COPY_INTACT (i : Nat) : Fld := ⟨0x1030 + 0x4 * i, 0, 1⟩
/-- R723, PWR_COPYk.NEWEST. -/
def PWR_COPY_NEWEST (i : Nat) : Fld := ⟨0x1030 + 0x4 * i, 1, 1⟩
/-- R723, PWR_COPYk.AGREES. -/
def PWR_COPY_AGREES (i : Nat) : Fld := ⟨0x1030 + 0x4 * i, 2, 1⟩
/-- R723, PWR_COPYk.RECORDS. -/
def PWR_COPY_RECORDS (i : Nat) : Fld := ⟨0x1030 + 0x4 * i, 16, 16⟩
/-- R723, PWR_POLICY.HOST_STANDBY. -/
def PWR_POLICY_HOST_STANDBY : Fld := ⟨0x1040, 0, 1⟩
/-- R723, PWR_START_MS.FIRST_AUDIO. -/
def PWR_START_MS_FIRST_AUDIO : Fld := ⟨0x1044, 0, 16⟩
/-- R723, PWR_START_MS.ADMIT. -/
def PWR_START_MS_ADMIT : Fld := ⟨0x1044, 16, 16⟩
/-- R723, PWR_CNT.WARN. -/
def PWR_CNT_WARN : Fld := ⟨0x1048, 0, 16⟩
/-- R723, PWR_CNT.RIDE. -/
def PWR_CNT_RIDE : Fld := ⟨0x1048, 16, 16⟩
/-- R723, PWR_CNT_CLR.CLR. -/
def PWR_CNT_CLR_CLR : Fld := ⟨0x104c, 0, 1⟩
/-! TRUST -/

/-- R758, TRUST_STATE.LCS. -/
def TRUST_STATE_LCS : Fld := ⟨0x12000, 0, 3⟩
/-- R758, TRUST_STATE.POLICY. -/
def TRUST_STATE_POLICY : Fld := ⟨0x12000, 3, 1⟩
/-- R758, TRUST_STATE.MEMBERS. -/
def TRUST_STATE_MEMBERS : Fld := ⟨0x12000, 4, 1⟩
/-- R758, TRUST_STATE.HOUSE. -/
def TRUST_STATE_HOUSE : Fld := ⟨0x12000, 5, 1⟩
/-- R758, TRUST_STATE.DEBUG_OPEN. -/
def TRUST_STATE_DEBUG_OPEN : Fld := ⟨0x12000, 6, 1⟩
/-- R758, TRUST_STATE.CLAIM_WAIT. -/
def TRUST_STATE_CLAIM_WAIT : Fld := ⟨0x12000, 7, 1⟩
/-- R758, TRUST_STATE.RECOVERY. -/
def TRUST_STATE_RECOVERY : Fld := ⟨0x12000, 8, 1⟩
/-- R758, TRUST_STATE.CFG_REJ. -/
def TRUST_STATE_CFG_REJ : Fld := ⟨0x12000, 9, 1⟩
/-- R758, TRUST_ID_DIGESTk.BYTES. -/
def TRUST_ID_DIGEST_BYTES (i : Nat) : Fld := ⟨0x12010 + 0x4 * i, 0, 32⟩
/-- R758, TRUST_OWNER_DIGESTk.BYTES. -/
def TRUST_OWNER_DIGEST_BYTES (i : Nat) : Fld := ⟨0x12040 + 0x4 * i, 0, 32⟩
/-- R758, TRUST_CTRc.VALUE. -/
def TRUST_CTR_VALUE (i : Nat) : Fld := ⟨0x12080 + 0x8 * i, 0, 64⟩
/-- R758, TRUST_FW.CURRENT. -/
def TRUST_FW_CURRENT : Fld := ⟨0x120b0, 0, 1⟩
/-- R758, TRUST_FW.TRY_OTHER. -/
def TRUST_FW_TRY_OTHER : Fld := ⟨0x120b0, 1, 1⟩
/-- R758, TRUST_CLAIM_CNT.FAILS. -/
def TRUST_CLAIM_CNT_FAILS : Fld := ⟨0x120b4, 0, 8⟩
/-- R758, TRUST_CLAIM_CNT.WAIT. -/
def TRUST_CLAIM_CNT_WAIT : Fld := ⟨0x120b4, 16, 16⟩
/-- R758, TRUST_RCV_ADDR.ADDR. -/
def TRUST_RCV_ADDR_ADDR : Fld := ⟨0x120c0, 0, 64⟩
/-- R758, TRUST_RCV_LEN.BYTES. -/
def TRUST_RCV_LEN_BYTES : Fld := ⟨0x120c8, 0, 32⟩
/-- R758, TRUST_RCV_CTL.GO. -/
def TRUST_RCV_CTL_GO : Fld := ⟨0x120cc, 0, 1⟩
/-- R758, TRUST_RCV_STATUS.STATE. -/
def TRUST_RCV_STATUS_STATE : Fld := ⟨0x120d0, 0, 2⟩
/-- R758, TRUST_RCV_STATUS.CODE. -/
def TRUST_RCV_STATUS_CODE : Fld := ⟨0x120d0, 8, 8⟩
/-! PAIR and BIST -/

/-- R787, PAIR_CFG.EN. -/
def PAIR_CFG_EN : Fld := ⟨0x13000, 0, 1⟩
/-- R787, PAIR_CFG.MODE. -/
def PAIR_CFG_MODE : Fld := ⟨0x13000, 1, 1⟩
/-- R787, PAIR_CFG.PREFER. -/
def PAIR_CFG_PREFER : Fld := ⟨0x13000, 2, 1⟩
/-- R787, PAIR_CFG.PORT. -/
def PAIR_CFG_PORT : Fld := ⟨0x13000, 3, 2⟩
/-- R787, PAIR_CFG.NETBACK. -/
def PAIR_CFG_NETBACK : Fld := ⟨0x13000, 5, 1⟩
/-- R787, PAIR_CFG.K. -/
def PAIR_CFG_K : Fld := ⟨0x13000, 8, 8⟩
/-- R787, PAIR_PARTNER.PARTNER. -/
def PAIR_PARTNER_PARTNER : Fld := ⟨0x13004, 0, 16⟩
/-- R787, PAIR_PARTNER.WITNESS. -/
def PAIR_PARTNER_WITNESS : Fld := ⟨0x13004, 16, 16⟩
/-- R787, PAIR_TIMES.LEASE_MS. -/
def PAIR_TIMES_LEASE_MS : Fld := ⟨0x13008, 0, 10⟩
/-- R787, PAIR_TIMES.GUARD_MS. -/
def PAIR_TIMES_GUARD_MS : Fld := ⟨0x13008, 16, 7⟩
/-- R787, PAIR_TIMES2.REPL_S. -/
def PAIR_TIMES2_REPL_S : Fld := ⟨0x1300c, 0, 10⟩
/-- R787, PAIR_TIMES2.RESYNC_S. -/
def PAIR_TIMES2_RESYNC_S : Fld := ⟨0x1300c, 16, 10⟩
/-- R787, PAIR_CTL.SWAP. -/
def PAIR_CTL_SWAP : Fld := ⟨0x13010, 0, 1⟩
/-- R787, PAIR_CTL.RESYNC. -/
def PAIR_CTL_RESYNC : Fld := ⟨0x13010, 1, 1⟩
/-- R787, PAIR_STATUS.ROLE. -/
def PAIR_STATUS_ROLE : Fld := ⟨0x13014, 0, 2⟩
/-- R787, PAIR_STATUS.GATE_OPEN. -/
def PAIR_STATUS_GATE_OPEN : Fld := ⟨0x13014, 2, 1⟩
/-- R787, PAIR_STATUS.READY. -/
def PAIR_STATUS_READY : Fld := ⟨0x13014, 3, 1⟩
/-- R787, PAIR_STATUS.READY_PARTNER. -/
def PAIR_STATUS_READY_PARTNER : Fld := ⟨0x13014, 4, 1⟩
/-- R787, PAIR_STATUS.SUSPECT. -/
def PAIR_STATUS_SUSPECT : Fld := ⟨0x13014, 5, 1⟩
/-- R787, PAIR_STATUS.SYNC. -/
def PAIR_STATUS_SYNC : Fld := ⟨0x13014, 6, 2⟩
/-- R787, PAIR_STATUS.PARTNER_SEEN. -/
def PAIR_STATUS_PARTNER_SEEN : Fld := ⟨0x13014, 8, 1⟩
/-- R787, PAIR_STATUS.WITNESS_SEEN. -/
def PAIR_STATUS_WITNESS_SEEN : Fld := ⟨0x13014, 9, 1⟩
/-- R787, PAIR_STATUS.CFG_REJ. -/
def PAIR_STATUS_CFG_REJ : Fld := ⟨0x13014, 10, 1⟩
/-- R787, PAIR_STATUS.MISMATCH_SEEN. -/
def PAIR_STATUS_MISMATCH_SEEN : Fld := ⟨0x13014, 11, 1⟩
/-- R787, PAIR_EPOCH.EPOCH. -/
def PAIR_EPOCH_EPOCH : Fld := ⟨0x13018, 0, 32⟩
/-- R787, PAIR_GRP_CMP.GROUPS. -/
def PAIR_GRP_CMP_GROUPS : Fld := ⟨0x13020, 0, 64⟩
/-- R787, PAIR_GRP_MISM.GROUPS. -/
def PAIR_GRP_MISM_GROUPS : Fld := ⟨0x13028, 0, 64⟩
/-- R787, PAIR_CNT.TAKEOVERS. -/
def PAIR_CNT_TAKEOVERS : Fld := ⟨0x13030, 0, 16⟩
/-- R787, PAIR_CNT.RESYNCS. -/
def PAIR_CNT_RESYNCS : Fld := ⟨0x13030, 16, 16⟩
/-- R787, PAIR_LAST_GAP.US. -/
def PAIR_LAST_GAP_US : Fld := ⟨0x13034, 0, 32⟩
/-- R787, PAIR_CNT_CLR.CLR. -/
def PAIR_CNT_CLR_CLR : Fld := ⟨0x1303c, 0, 1⟩
/-- R787, PAIR_WIT.PAIRS. -/
def PAIR_WIT_PAIRS : Fld := ⟨0x13040, 0, 4⟩
/-- R788, BIST_REQ.TEST. -/
def BIST_REQ_TEST : Fld := ⟨0x14000, 0, 8⟩
/-- R788, BIST_REQ.INSTANCE. -/
def BIST_REQ_INSTANCE : Fld := ⟨0x14000, 8, 8⟩
/-- R788, BIST_REQ.GO. -/
def BIST_REQ_GO : Fld := ⟨0x14000, 16, 1⟩
/-- R788, BIST_REQ_STATUS.CODE. -/
def BIST_REQ_STATUS_CODE : Fld := ⟨0x14004, 0, 8⟩
/-- R788, BIST_REQ_STATUS.QUEUED. -/
def BIST_REQ_STATUS_QUEUED : Fld := ⟨0x14004, 8, 4⟩
/-- R788, BIST_REQ_STATUS.RUNNING. -/
def BIST_REQ_STATUS_RUNNING : Fld := ⟨0x14004, 12, 1⟩
/-- R788, BIST_LAST.TEST. -/
def BIST_LAST_TEST : Fld := ⟨0x14008, 0, 8⟩
/-- R788, BIST_LAST.INSTANCE. -/
def BIST_LAST_INSTANCE : Fld := ⟨0x14008, 8, 8⟩
/-- R788, BIST_LAST.PASS. -/
def BIST_LAST_PASS : Fld := ⟨0x14008, 16, 1⟩
/-- R788, BIST_LAST.CODE. -/
def BIST_LAST_CODE : Fld := ⟨0x14008, 24, 8⟩
/-- R788, BIST_LAST_VALUE.VALUE. -/
def BIST_LAST_VALUE_VALUE : Fld := ⟨0x1400c, 0, 32⟩
/-- R788, BIST_CNT.RUN. -/
def BIST_CNT_RUN : Fld := ⟨0x14010, 0, 16⟩
/-- R788, BIST_CNT.FAIL. -/
def BIST_CNT_FAIL : Fld := ⟨0x14010, 16, 16⟩
/-- R788, BIST_CNT_CLR.CLR. -/
def BIST_CNT_CLR_CLR : Fld := ⟨0x14014, 0, 1⟩
/-- R788, BIST_ROT_RGg.SPARE. -/
def BIST_ROT_RG_SPARE (i : Nat) : Fld := ⟨0x14040 + 0x4 * i, 0, 3⟩
/-- R788, BIST_ROT_RGg.ENABLED. -/
def BIST_ROT_RG_ENABLED (i : Nat) : Fld := ⟨0x14040 + 0x4 * i, 3, 1⟩
/-- R788, BIST_ROT_RGg.TESTING. -/
def BIST_ROT_RG_TESTING (i : Nat) : Fld := ⟨0x14040 + 0x4 * i, 4, 1⟩
/-- R788, BIST_ROT_RGg.WITHDRAWN. -/
def BIST_ROT_RG_WITHDRAWN (i : Nat) : Fld := ⟨0x14040 + 0x4 * i, 5, 1⟩
/-- R788, BIST_ROT_RGg.WAITED. -/
def BIST_ROT_RG_WAITED (i : Nat) : Fld := ⟨0x14040 + 0x4 * i, 6, 1⟩
/-- R788, BIST_ROT_RGg.N. -/
def BIST_ROT_RG_N (i : Nat) : Fld := ⟨0x14040 + 0x4 * i, 8, 5⟩
/-- R788, BIST_ROT_RGg.ROTATIONS. -/
def BIST_ROT_RG_ROTATIONS (i : Nat) : Fld := ⟨0x14040 + 0x4 * i, 16, 16⟩
/-! GLOBAL -/

/-- R805, GLOBAL_ID.PART. -/
def GLOBAL_ID_PART : Fld := ⟨0x0, 0, 16⟩
/-- R805, GLOBAL_ID.VENDOR. -/
def GLOBAL_ID_VENDOR : Fld := ⟨0x0, 16, 16⟩
/-- R805, GLOBAL_REV.REV. -/
def GLOBAL_REV_REV : Fld := ⟨0x4, 0, 8⟩
/-- R805, GLOBAL_REV.STEP. -/
def GLOBAL_REV_STEP : Fld := ⟨0x4, 8, 8⟩
/-- R805, GLOBAL_REV.GRADE. -/
def GLOBAL_REV_GRADE : Fld := ⟨0x4, 16, 8⟩
/-- R805, GLOBAL_FW_VER.VERSION. -/
def GLOBAL_FW_VER_VERSION : Fld := ⟨0x8, 0, 64⟩
/-- R805, GLOBAL_HIER.UNITS_PER_CL. -/
def GLOBAL_HIER_UNITS_PER_CL : Fld := ⟨0x10, 0, 8⟩
/-- R805, GLOBAL_HIER.CL_PER_RG. -/
def GLOBAL_HIER_CL_PER_RG : Fld := ⟨0x10, 8, 8⟩
/-- R805, GLOBAL_HIER.RG_PER_DIE. -/
def GLOBAL_HIER_RG_PER_DIE : Fld := ⟨0x10, 16, 8⟩
/-- R805, GLOBAL_HIER.CDIES. -/
def GLOBAL_HIER_CDIES : Fld := ⟨0x10, 24, 8⟩
/-- R805, GLOBAL_HIER2.UNITS. -/
def GLOBAL_HIER2_UNITS : Fld := ⟨0x14, 0, 16⟩
/-- R805, GLOBAL_HIER2.CLUSTERS. -/
def GLOBAL_HIER2_CLUSTERS : Fld := ⟨0x14, 16, 8⟩
/-- R805, GLOBAL_HIER2.REGIONS. -/
def GLOBAL_HIER2_REGIONS : Fld := ⟨0x14, 24, 4⟩
/-- R805, GLOBAL_HIER2.SERVO. -/
def GLOBAL_HIER2_SERVO : Fld := ⟨0x14, 28, 4⟩
/-- R805, GLOBAL_CAP.AP. -/
def GLOBAL_CAP_AP : Fld := ⟨0x18, 0, 5⟩
/-- R805, GLOBAL_CAP.AES. -/
def GLOBAL_CAP_AES : Fld := ⟨0x18, 5, 4⟩
/-- R805, GLOBAL_CAP.SL. -/
def GLOBAL_CAP_SL : Fld := ⟨0x18, 9, 4⟩
/-- R805, GLOBAL_CAP.WL. -/
def GLOBAL_CAP_WL : Fld := ⟨0x18, 13, 3⟩
/-- R805, GLOBAL_CAP.MPLL. -/
def GLOBAL_CAP_MPLL : Fld := ⟨0x18, 16, 2⟩
/-- R805, GLOBAL_CAP.NVME. -/
def GLOBAL_CAP_NVME : Fld := ⟨0x18, 18, 4⟩
/-- R805, GLOBAL_SERIALk.BYTES. -/
def GLOBAL_SERIAL_BYTES (i : Nat) : Fld := ⟨0x20 + 0x4 * i, 0, 32⟩
/-- R805, GLOBAL_ACC.ACC_FAULT. -/
def GLOBAL_ACC_ACC_FAULT : Fld := ⟨0x40, 0, 1⟩
/-- R805, GLOBAL_ACC.STALE_HI. -/
def GLOBAL_ACC_STALE_HI : Fld := ⟨0x40, 1, 1⟩
/-- R805, GLOBAL_ACC.OVERFLOW. -/
def GLOBAL_ACC_OVERFLOW : Fld := ⟨0x40, 2, 1⟩
/-- R805, GLOBAL_ACC_ADDR.OFFSET. -/
def GLOBAL_ACC_ADDR_OFFSET : Fld := ⟨0x44, 0, 18⟩
/-- R805, GLOBAL_ACC_ADDR.BAR. -/
def GLOBAL_ACC_ADDR_BAR : Fld := ⟨0x44, 18, 1⟩
/-- R805, GLOBAL_ACC_ADDR.BE. -/
def GLOBAL_ACC_ADDR_BE : Fld := ⟨0x44, 20, 4⟩
/-- R805, GLOBAL_ACC_ADDR.KIND. -/
def GLOBAL_ACC_ADDR_KIND : Fld := ⟨0x44, 24, 3⟩
/-- R805, GLOBAL_ACC_ADDR.VALID. -/
def GLOBAL_ACC_ADDR_VALID : Fld := ⟨0x44, 31, 1⟩
/-- R805, GLOBAL_STALE_ADDR.OFFSET. -/
def GLOBAL_STALE_ADDR_OFFSET : Fld := ⟨0x48, 0, 18⟩
/-- R805, GLOBAL_STALE_ADDR.VALID. -/
def GLOBAL_STALE_ADDR_VALID : Fld := ⟨0x48, 31, 1⟩
/-- R805, GLOBAL_ACC_CNT.FAULTS. -/
def GLOBAL_ACC_CNT_FAULTS : Fld := ⟨0x4c, 0, 16⟩
/-- R805, GLOBAL_ACC_CNT.STALE. -/
def GLOBAL_ACC_CNT_STALE : Fld := ⟨0x4c, 16, 16⟩
/-- R805, GLOBAL_CNT_CLR.CLR. -/
def GLOBAL_CNT_CLR_CLR : Fld := ⟨0x50, 0, 1⟩
/-- R805, GLOBAL_SCRATCH.DATA. -/
def GLOBAL_SCRATCH_DATA : Fld := ⟨0x54, 0, 32⟩
/-- R805, GLOBAL_RESTORE.DONE. -/
def GLOBAL_RESTORE_DONE : Fld := ⟨0x58, 0, 1⟩
/-- R805, GLOBAL_RESTORE.SOURCE. -/
def GLOBAL_RESTORE_SOURCE : Fld := ⟨0x58, 1, 2⟩
/-- R805, GLOBAL_RESTORE.DEFAULTED. -/
def GLOBAL_RESTORE_DEFAULTED : Fld := ⟨0x58, 16, 16⟩
/-- R805, GLOBAL_THERM.HOLD. -/
def GLOBAL_THERM_HOLD : Fld := ⟨0x5c, 0, 1⟩
/-- R805, GLOBAL_THERM.HOLD_SEEN. -/
def GLOBAL_THERM_HOLD_SEEN : Fld := ⟨0x5c, 1, 1⟩
/-- R805, GLOBAL_THERM.MAX. -/
def GLOBAL_THERM_MAX : Fld := ⟨0x5c, 16, 16⟩
/-- R805, GLOBAL_TEMPk.TEMP. -/
def GLOBAL_TEMP_TEMP (i : Nat) : Fld := ⟨0x60 + 0x4 * i, 0, 16⟩
/-! PINFN -/

/-- R833, PINFN_STATUS.CFG_REJ. -/
def PINFN_STATUS_CFG_REJ : Fld := ⟨0x15000, 0, 1⟩
/-- R833, PINFN_STATUS.PENDING_ANY. -/
def PINFN_STATUS_PENDING_ANY : Fld := ⟨0x15000, 1, 1⟩
/-- R833, PINFN_LEVEL.LEVEL. -/
def PINFN_LEVEL_LEVEL : Fld := ⟨0x15004, 0, 32⟩
/-- R833, PINFN_CNT.CHANGES. -/
def PINFN_CNT_CHANGES : Fld := ⟨0x15008, 0, 16⟩
/-- R833, PINFN_CNT.REJECTS. -/
def PINFN_CNT_REJECTS : Fld := ⟨0x15008, 16, 16⟩
/-- R833, PINFN_CNT_CLR.CLR. -/
def PINFN_CNT_CLR_CLR : Fld := ⟨0x1500c, 0, 1⟩
/-- R833, PINFN_MFPk.FN. -/
def PINFN_MFP_FN (i : Nat) : Fld := ⟨0x15010 + 0x4 * i, 0, 4⟩
/-- R833, PINFN_MFPk.OUT. -/
def PINFN_MFP_OUT (i : Nat) : Fld := ⟨0x15010 + 0x4 * i, 4, 1⟩
/-- R833, PINFN_MFPk.PULL. -/
def PINFN_MFP_PULL (i : Nat) : Fld := ⟨0x15010 + 0x4 * i, 5, 2⟩
/-- R833, PINFN_MFPk.DRIVE. -/
def PINFN_MFP_DRIVE (i : Nat) : Fld := ⟨0x15010 + 0x4 * i, 7, 2⟩
/-- R833, PINFN_MFPk.PARAM. -/
def PINFN_MFP_PARAM (i : Nat) : Fld := ⟨0x15010 + 0x4 * i, 9, 3⟩
/-- R833, PINFN_MFPk.PENDING. -/
def PINFN_MFP_PENDING (i : Nat) : Fld := ⟨0x15010 + 0x4 * i, 12, 1⟩
/-- R833, PINFN_MFPk.PARKED. -/
def PINFN_MFP_PARKED (i : Nat) : Fld := ⟨0x15010 + 0x4 * i, 13, 1⟩
/-! HOST and DMA -/

/-- R480, HOST_ERINGe_BASE.BASE. -/
def HOST_ERING_BASE_BASE (i : Nat) : Fld := ⟨0x4200 + 0x20 * i, 0, 64⟩
/-- R480, HOST_ERINGe_CFG.LOG2. -/
def HOST_ERING_CFG_LOG2 (i : Nat) : Fld := ⟨0x4208 + 0x20 * i, 0, 4⟩
/-- R480, HOST_ERINGe_CFG.ENABLE. -/
def HOST_ERING_CFG_ENABLE (i : Nat) : Fld := ⟨0x4208 + 0x20 * i, 8, 1⟩
/-- R480, HOST_ERINGe_HEAD.POS. -/
def HOST_ERING_HEAD_POS (i : Nat) : Fld := ⟨0x420c + 0x20 * i, 0, 15⟩
/-- R480, HOST_ERINGe_TAIL.POS. -/
def HOST_ERING_TAIL_POS (i : Nat) : Fld := ⟨0x4210 + 0x20 * i, 0, 15⟩
/-- R480, HOST_ERINGe_ERR.CODE. -/
def HOST_ERING_ERR_CODE (i : Nat) : Fld := ⟨0x4214 + 0x20 * i, 0, 4⟩
/-- R480, HOST_BRINGb_BASE.BASE. -/
def HOST_BRING_BASE_BASE (i : Nat) : Fld := ⟨0x4280 + 0x20 * i, 0, 64⟩
/-- R480, HOST_BRINGb_HEAD.POS. -/
def HOST_BRING_HEAD_POS (i : Nat) : Fld := ⟨0x428c + 0x20 * i, 0, 15⟩
/-- R480, HOST_BRINGb_TAIL.POS. -/
def HOST_BRING_TAIL_POS (i : Nat) : Fld := ⟨0x4290 + 0x20 * i, 0, 15⟩
/-- R480, HOST_BRINGb_ERR.CODE. -/
def HOST_BRING_ERR_CODE (i : Nat) : Fld := ⟨0x4294 + 0x20 * i, 0, 4⟩

end Sys2Proof.Reg
end

