-- ==== Sys2Proof/Machine/State.lean ====
section
/-! DEFINITION. The state of the block: every register, memory, queue, counter and mode the manual names, as plain
data, and the state right after reset. Tables and memories are in the one canonical form of Machine/Table.lean. -/

namespace Sys2Proof.Machine

/-! ### Gain ramps at the edge of the part (R464, R606, R716, R720) -/

/-- A dB-linear gain between full and exact zero: which way it goes, the level it left, in samples of a whole ramp, and the
SI from which it goes. At rest and open by default. -/
structure Gate where
  down : Bool := false
  base : Nat := 0
  start : Nat := 0
  deriving DecidableEq, Repr

/-! ### Mixing model, schedules, cluster and region engines -/

/-- A change as a sequencer entry holds it (R295), with its start once applied (R298). -/
structure Change where
  handle : Nat := 0
  cluster : Nat := 0
  /-- Slot address in shared memory; none when the layout gives the handle no slot. -/
  slot : Option Nat := none
  target : Nat := 0
  len : Nat := 0
  /-- Shape code of R301. -/
  shape : Nat := 0
  v1 : Word := 0
  /-- The end value in the parameter's own unit (R89). -/
  raw : Word := 0
  /-- 0 pour, 1 parameter change (R61). -/
  rank : Nat := 1
  order : Nat := 0
  /-- Pour identity (originator and tag) for an entry of a pour. -/
  pour : Option (Nat × Nat) := none
  applied : Bool := false
  /-- A polarity change: down to −144 dB, then back (R96). -/
  bounce : Bool := false
  v0 : Word := 0
  step : Word := 0
  /-- The polarity until the bounce inverts it (R96). -/
  raw0 : Word := 0
  deriving DecidableEq, Repr

/-- A crossfade admitted under R102 and R146. -/
structure Crossfade where
  /-- The object or destination: a handle with parameter index 0, or 2^32 plus a destination address. -/
  object : Nat := 0
  cluster : Nat := 0
  firing : Nat := 0
  domain : Nat := 0
  start : Nat := 0
  len : Nat := 0
  cycles : Nat := 0
  /-- Duplicated bytes of each reservation of the firing, by its position. -/
  bytes : List Nat := []
  eqPower : Bool := false
  /-- Pours and commands that this crossfade belongs to. -/
  pours : List (Nat × Nat) := []
  waiters : List Nat := []
  /-- What the old version keeps of the parameters that a change has reached since the crossfade began: the entry that was in
  force for each (R102, R106). -/
  shadow : List Change := []
  deriving DecidableEq, Repr

/-- The patch of one destination (R67, R107): its source, and the change that is queued or running. -/
structure PatchSt where
  source : Nat := 0
  /-- A delay of B samples placed because the patch closes a cycle (R72). -/
  looped : Bool := false
  /-- The crossfade from the source before, until `start + len` (R71, R103, R107). -/
  old : Nat := 0
  oldLooped : Bool := false
  start : Nat := 0
  len : Nat := 0
  eqPower : Bool := false
  deriving DecidableEq, Repr

/-- A timed patch change (R71). -/
structure PatchChange where
  dst : Nat := 0
  source : Nat := 0
  target : Nat := 0
  len : Nat := 0
  eqPower : Bool := false
  order : Nat := 0
  /-- Domain of the destination. -/
  domain : Nat := 0
  looped : Bool := false
  pour : Option (Nat × Nat) := none
  deriving DecidableEq, Repr

/-- A program swap of a pour that waits for its target SI (R102, R104, R347). -/
structure SwapChange where
  cluster : Nat := 0
  unit : Nat := 0
  digest : Nat := 0
  domain : Nat := 0
  target : Nat := 0
  pour : Option (Nat × Nat) := none
  deriving DecidableEq, Repr

/-- A stage offset of a channel in a domain (R288). -/
structure StageSlot where
  addr : Nat := 0
  domain : Nat := 0
  offset : Nat := 0
  deriving DecidableEq, Repr

/-- The term of a control group in an object's gain while the group is being added or removed (R83): from `v0` at
`start` over `len` samples, in log2 of gain. -/
structure GroupTerm where
  object : Nat := 0
  group : Nat := 0
  adding : Bool := false
  start : Nat := 0
  len : Nat := 0
  v0 : Word := 0
  /-- The group's level is off at T: the change is carried out as a mute or unmute of the object. -/
  off : Bool := false
  deriving DecidableEq, Repr

/-- The mute gain of an object (R82, R96): muted or not, and the ramp that takes it there from `v0`, in log2 of gain. -/
structure MuteSt where
  on : Bool := false
  start : Nat := 0
  len : Nat := 0
  v0 : Word := 0
  deriving DecidableEq, Repr

/-- The crossfade of a whole-sample delay (R85, R101): the taps before and after. -/
structure DelaySt where
  old : Nat := 0
  new : Nat := 0
  start : Nat := 0
  len : Nat := 0
  deriving DecidableEq, Repr

/-- What the standard program set keeps from block to block (R64, R72, R85, R101, R123). -/
structure StdSt where
  /-- Signals of the block handled last, by source address and, above 2^32, by point of a strip's chain. -/
  out : Tab (List Word) := []
  /-- Inputs of the delay lines by object, the latest sample last. -/
  line : Tab (List Word) := []
  /-- Delay crossfades by delay handle. -/
  delays : Tab DelaySt := []
  /-- Until when a filter or a dynamics stage that has been switched ramps, by the handle of its on field. -/
  busy : Tab Nat := []
  /-- Mute gains of strips; above 2^32 those of the old version in a crossfade. -/
  mutes : Tab (Option MuteSt) := []
  /-- Mean squares of RMS meters, by meter point. -/
  rms : Tab Word := []
  deriving DecidableEq, Repr

/-- An open meter subscription (R124–R127). -/
structure MeterSub where
  points : List Nat := []
  period : Nat := 0
  buf : Nat := 0
  domain : Nat := 0
  seq : Nat := 0
  restart : Bool := true
  /-- The event ring of the opening command's completion (R452). -/
  ring : Nat := 0
  values : List Word := []
  /-- Largest |x| of each point since the last delivery (R123). -/
  peaks : List Word := []
  /-- Frame number of the opening: its updates come k frames apart from there. -/
  phase : Nat := 0
  deriving DecidableEq, Repr

/-- A PARAM_SET or ROUTE that completes when its crossfades have ended (R161). -/
structure FadeWait where
  id : Nat := 0
  hdr : CmdHdr := {}
  opcode : Nat := 0
  status : Status := .ok
  si : Nat := 0
  cutSeen : Bool := false
  deriving DecidableEq, Repr

/-- Parameters, patch and meters (R64–R129). -/
structure MixSt where
  /-- Value of each handle that has taken a change, as the bit pattern of R89; for a ramped DB or LOG2 parameter the
  end value in its own unit. -/
  params : Tab (Option Word) := []
  changes : List Change := []
  nextOrder : Nat := 0
  patch : Tab PatchSt := []
  patchChanges : List PatchChange := []
  swaps : List SwapChange := []
  fades : List Crossfade := []
  waits : List FadeWait := []
  stageIn : List StageSlot := []
  stageOut : List StageSlot := []
  /-- Add and remove ramps of control-group terms (R83). -/
  terms : List GroupTerm := []
  /-- Samples received and waiting for their input block, by source address and sample index. -/
  rx : Tab (Tab (Option Word)) := []
  /-- Samples emitted, by destination address and sample index. -/
  tx : Tab (Tab Word) := []
  meters : Tab (Option MeterSub) := []
  std : StdSt := {}
  deriving DecidableEq, Repr

/-- A rate domain (R55, R108, R415). -/
structure DomSt where
  configured : Bool := false
  rate : Nat := 96000
  block : Nat := 16
  /-- SI of the boundary that opened the running frame period (R55). -/
  si : Nat := 0
  /-- First SI of the earliest block whose handling has not begun (R60). -/
  begun : Nat := 0
  /-- The pipeline and clocks run (R720). -/
  running : Bool := false
  /-- A pull in force, in DCO units (R401). -/
  pull : Int := 0
  /-- Frame boundaries of the domain since power-good, up to 2 (R818). -/
  frames : Nat := 0
  deriving DecidableEq, Repr

/-- A schedule bank (R149). -/
structure Bank where
  image : Option SchedImage := none
  armed : Bool := false
  switchSi : Nat := 0
  hdr : Option CmdHdr := none
  deriving DecidableEq, Repr

/-- A pending re-admission (R162). -/
structure Readmit where
  hdr : CmdHdr := {}
  clusters : List Nat := []
  servos : List Nat := []
  target : Nat := 0
  late : Bool := false
  deriving DecidableEq, Repr

/-- Schedules (R149–R164). -/
structure SchedSt where
  /-- Index of the bank of the active schedule. -/
  active : Fin 2 := 0
  bank0 : Bank := {}
  bank1 : Bank := {}
  /-- Domains that have not yet made the switch of the pending bank (R150). -/
  toSwitch : List Nat := []
  /-- Admissions in progress, oldest first: the descriptor and its image. -/
  checking : List (CmdHdr × SchedImage) := []
  readmits : List Readmit := []
  /-- Clusters to load in the first frame after the switch (R153). -/
  toLoad : List Nat := []
  /-- Verified program images in staging, by digest. -/
  programs : List ProgImage := []
  deriving DecidableEq, Repr

/-- An issued cluster DMA descriptor (R286), its fields as read when its GO write completed. -/
structure ClDma where
  unit : Nat := 0
  localAddr : Nat := 0
  remote : Nat := 0
  space : Nat := 0
  target : Nat := 0
  length : Nat := 0
  out : Bool := false
  resv : Nat := 0xFF
  reservedOk : Bool := true
  /-- Bytes moved so far, a shared-memory word at a time (R272). -/
  moved : Nat := 0
  deriving DecidableEq, Repr

/-- A running section of the glaze engine, which presents its accesses to the shared-memory port one at a time (R272, R276,
R307, R312): the descriptor, the input block, the output block, the write-back. -/
structure GlazeRun where
  /-- Position of the section in the job's list. -/
  sec : Nat := 0
  /-- Address of its descriptor. -/
  base : Nat := 0
  /-- The words of the descriptor; none read yet: empty. -/
  desc : List Word := []
  /-- Input samples read so far. -/
  inp : List Word := []
  /-- Writes still to make: address and words. -/
  writes : List (Nat × List Word) := []
  /-- The block has been computed. -/
  ready : Bool := false
  deriving DecidableEq, Repr

/-- A running firing of a cluster (R133, R275). -/
structure Firing where
  entry : FiringEntry := {}
  fsi : Nat := 0
  domain : Nat := 0
  budget : Nat := 0
  /-- Cycles of the execution phase for which the port has been used or has passed (R136, R272, R275). -/
  clk : Nat := 0
  /-- LDP reads counted in this firing, by slot address (R302). -/
  ldpCount : Tab Nat := []
  /-- Sections of the glaze job already begun (R312). -/
  glazeDone : Nat := 0
  /-- The running section. -/
  glaze : Option GlazeRun := none
  /-- Output of the section before, for CHAIN (R307). -/
  glazeOut : List Word := []
  deriving DecidableEq, Repr

/-- A cluster (R136, R157–R164, R286, R292). -/
structure ClusterSt where
  retention : Bool := true
  firing : Option Firing := none
  /-- Cut or quarantined: later firings write exact zero (R157, R159). -/
  zeroing : Bool := false
  dmaQueue : List ClDma := []
  dmaRun : Option ClDma := none
  /-- Last sample of each output channel, by `OutDest.key` (R158). -/
  lastSample : Tab Word := []
  /-- Digest of the program images loaded into the units (R174, R156). -/
  loaded : List Nat := []
  /-- Digest of the program a unit runs, where a pour has swapped it (R347). -/
  program : Tab Nat := []
  /-- A pending peek: the address and its command (R294). -/
  peek : Option (Nat × CmdHdr) := none
  /-- Outputs ramp up from zero until this SI (R153, R164). -/
  rampUntil : Nat := 0
  /-- Pending scrub-clear (R447). -/
  clears : List CmdHdr := []
  /-- First SI whose sequencer phase has not been made (R297). -/
  seqNext : Nat := 0
  /-- Values that retired entries still owe to their slots (R299, R305), by slot address. -/
  owed : Tab (Option Word) := []
  /-- HANDOFF writes of the sequencer phase still to be made, oldest first: address and words (R303). -/
  seqOut : List (Nat × List Word) := []
  /-- Cycles of the firings of the running frame (R168). -/
  cycFrame : Nat := 0
  /-- Firings of the running frame that have ended normally, by index. -/
  ended : List Nat := []
  deriving DecidableEq, Repr

/-- A region: its clock (R402–R407) and its spare (R780–R783). -/
structure RegionSt where
  /-- Logical cluster of each physical cluster (R780): where unlisted, its own index. -/
  role : Tab Nat := []
  /-- The clock start phase K runs (R402). -/
  starting : Bool := false
  clears : List CmdHdr := []
  deriving DecidableEq, Repr

/-- A target of a crossbar (R325): the master it granted last, on which it parks (R326), and the burst it grants: the cluster
whose transfer holds it and the bytes left. -/
structure Grant where
  last : Option Nat := none
  holder : Option (Nat × Nat) := none
  deriving DecidableEq, Repr

/-! ### Compute units -/

/-- Where a result lands: the physical register fixed at issue (R183). -/
inductive Dest where
  | f (phys : Nat)
  | a (n : Nat)
  | p (n : Nat)
  | sr (n : Nat)
  deriving DecidableEq, Repr

/-- A result in flight: it is visible to bundles issued in cycle `at` and later (R181). -/
structure Landing where
  cycle : Nat
  dest : Dest
  val : Dword
  /-- Cycle in which its operation issued (R184). -/
  issued : Nat := 0
  deriving DecidableEq, Repr

/-- A unit's shared-memory read (R277–R279): its destination registers and the form of its data. -/
structure ReadReq where
  addr : Nat
  /-- The form of the data: 4 a word to an A register, 5 a word to both lanes, 8 a doubleword, 16 LDP, 32 broadcast. -/
  form : Nat
  dest : List Dest
  issued : Nat
  deriving DecidableEq, Repr

/-- A unit's shared-memory write (R280, R281). -/
structure WriteReq where
  addr : Nat
  size : Nat
  val : Dword
  deriving DecidableEq, Repr

/-- Why a unit does not issue (R186, R194, R215): `entry` and `rett` wait for shared reads still under way at a trap entry
and at RETT (R209, R211). -/
inductive Wait where
  | run
  | sync
  | dma
  | entry
  | rett
  | halted
  deriving DecidableEq, Repr

/-- What a unit had before the first operation of the bundle that issues, as far as an operation of slot M or I changes it at
issue: a fault of a later operation of the bundle leaves none of it (R206). -/
structure BundleMark where
  flight : List Landing := []
  iflags : BitVec 3 := 0
  pendDivz : Bool := false
  heldDivz : Bool := false
  deriving DecidableEq, Repr

/-- One compute unit or servo unit (R170, R175, R204, R278, R281, R321). -/
structure UnitSt where
  f : Tab Dword := []
  a : Tab Word := []
  p : BitVec 8 := 0
  lc : Tab Word := []
  ls : Tab Nat := []
  le : Tab Nat := []
  rb : Nat := 0
  /-- LOOP_ACTIVE. -/
  la : BitVec 4 := 0
  /-- The levels in the order LOOP started them, the most recent first (R197). -/
  starts : List Nat := []
  stk : Tab Nat := []
  depth : Nat := 0
  iflags : BitVec 3 := 0
  fflags : BitVec 3 := 0
  /-- FFLAGS bits that the operations of the issuing bundle set; they join `fflags` at its end (R180). -/
  fnew : BitVec 3 := 0
  /-- The issuing bundle has begun and not ended. -/
  mid : Option BundleMark := none
  tpc : Nat := 0
  tcause : Word := 0
  tvec : Word := 0
  ten : BitVec 3 := 0
  bkpt : Nat := 0
  tscr0 : Word := 0
  tscr1 : Word := 0
  tactive : Bool := false
  pendDebug : Option (BitVec 12) := none
  pendDivz : Bool := false
  pendWlost : Bool := false
  pc : Nat := 0
  cyc : Nat := 0
  /-- Bundles until the branch target issues: 0 none, else the own bundle and the delay bundles left (R191). -/
  delay : Nat := 0
  brTo : Option Nat := none
  /-- The bundle RETT issues first is exempt from breakpoint matching (R211). -/
  bkptExempt : Bool := false
  /-- Traps that were pending before the running handler was entered (R214). -/
  heldDivz : Bool := false
  heldDebug : Bool := false
  flight : List Landing := []
  wait : Wait := .halted
  readNew : Option ReadReq := none
  readBuf : Option ReadReq := none
  writeNew : Option WriteReq := none
  writeBuf : Option WriteReq := none
  /-- Tap result FIFO, oldest entry first (R321). -/
  fifo : List Dword := []
  /-- Tap results still to come in the running firing, with the cycle each reaches the FIFO (R321, R322). -/
  tapDue : List (Nat × Dword) := []
  firing : Nat := 0
  fsi : Nat := 0
  /-- Cluster DMA transfers issued in the current firing and not completed (R188). -/
  dmaOut : Nat := 0
  deriving DecidableEq, Repr

/-! ### Pours (R332–R374) -/

/-- States of a pour on a device (R360). -/
inductive PourPhase where
  | compiling | armed | running | finished | cancelled | partly | refused
  deriving DecidableEq, Repr

/-- What the originator knows of an addressed device (R356, R370). -/
structure PourDev where
  dev : Nat := 0
  /-- The first REPORT has arrived. -/
  heard : Bool := false
  /-- The POUR_REPORT has been posted, with this STATUS; none: not yet. -/
  posted : Option Status := none
  /-- The device applied the pour. -/
  applied : Bool := false
  deriving DecidableEq, Repr

/-- A pour on this engine. -/
structure Pour where
  origin : Nat := 0
  tag : Nat := 0
  issue : Nat := 0
  /-- T in domain P of this engine. -/
  t : Nat := 0
  scene : Nat := 0
  runs : List Run := []
  /-- The images that a patch or parameter list carries are held as runs; END_SI and RAMP of R337 in this engine's
  domain P. -/
  endSi : Option Nat := none
  ramp : Nat := 0
  law : Nat := 0
  strict : Bool := false
  dryRun : Bool := false
  hdr : Option CmdHdr := none
  /-- The descriptor completes through this pour (false for a pour that a cue or a peer started). -/
  completes : Bool := false
  devs : List PourDev := []
  phase : PourPhase := .compiling
  status : Status := .ok
  detail : Nat := 0
  startSi : Nat := 0
  late : Bool := false
  delayed : Nat := 0
  cutSeen : Bool := false
  cancelled : Bool := false
  /-- TARGET was 0: the pour takes the earliest block there is. -/
  soon : Bool := false
  /-- A cancel that waits for its SI: C, its descriptor, and whether it came late. -/
  cancel : Option (Nat × Option CmdHdr × Bool) := none
  deriving DecidableEq, Repr

/-- Pours, templates and the scene library. -/
structure PourSt where
  live : List Pour := []
  /-- Identities of the last 64 finished pours of this originator, the most recent first (R368). -/
  finished : List (Nat × Nat) := []
  /-- Identities of messages already held (R356). -/
  seen : List (Nat × Nat) := []
  templates : Tab (Option (CmdHdr × PourReq)) := []
  library : Tab (Option SceneImage) := []
  deriving DecidableEq, Repr

/-! ### Clocks and time (R376–R423) -/

/-- A media PLL beyond its registers (R387–R401). -/
structure MpllSt where
  /-- Halvings of the bandwidth since ACQUIRE was entered (R390). -/
  halvings : Nat := 0
  /-- Consecutive comparisons within WIN, and beyond 8 × WIN (R388, R389). -/
  inWin : Nat := 0
  outWin : Nat := 0
  /-- The lock criterion has been met since ACQUIRE was entered. -/
  met : Bool := false
  /-- P-domain SI at which LOCKED was entered (R387). -/
  lockedAt : Nat := 0
  /-- DCO words of LOCKED with their P-domain SI, the most recent first (R391). -/
  words : List (Nat × Int) := []
  /-- Profile or glide armed or running: length in samples and end offset of each segment left (R398). -/
  profile : List (Nat × Int) := []
  /-- Offset at the start of the running segment, in DCO units. -/
  offset : Int := 0
  /-- Phase integral of the profile that runs, 64-bit, in halves of a DCO unit for one FRAME tick (R399, log entry 152). -/
  phase : BitVec 64 := 0
  /-- LOCKED has been entered since start-up: the domain has frame boundaries (R832). -/
  everLocked : Bool := false
  /-- Constant offset of the target while start-up runs the MPLL on REF_XO: the restored DCO word (R715). -/
  bias : Int := 0
  /-- START_SI as an armed profile took it (R801). -/
  startAt : Nat := 0
  /-- The boundary at which a profile starts that was armed when the boundary of its START_SI had begun to be handled (R399). -/
  lateTo : Option Nat := none
  /-- VSYNC pulses of a VIDEO candidate since it qualified, by candidate (R382). -/
  vsyncs : Tab Nat := []
  /-- SI of the domain at the VSYNC that last opened a sequence (R382). -/
  opened : Option Nat := none
  /-- An alignment glide waits for its frame boundary (R415). -/
  glideNext : Bool := false
  deriving DecidableEq, Repr

/-- A transmit timestamp in its queue (R411): identifier, stamp in 1/16 ns, and whether host software requested it. -/
structure TxStamp where
  id : Nat := 0
  stamp : Nat := 0
  requested : Bool := false
  deriving DecidableEq, Repr

/-- The PTP counter (R409): seconds, nanoseconds, and a fraction in 1/16 ns. -/
structure PtpClock where
  sec : BitVec 48 := 0
  ns : BitVec 30 := 0
  frac : BitVec 4 := 0
  deriving DecidableEq, Repr

/-- Time. -/
structure TimeSt where
  mplls : Tab MpllSt := []
  tsq : Tab (List TxStamp) := []
  /-- Armed triggers: domain, SI and, where the SI's boundary had been handled when it was armed, the next boundary (R420). -/
  trigs : Tab (Option (Nat × Nat × Option Nat)) := []
  /-- The PTP counter (R409) at the last instant that a command shows it. -/
  clock : PtpClock := {}
  /-- PTP messages sent, and those that carried the authentication TLV (R408, R413). -/
  ptpSent : Nat := 0
  ptpTlv : Nat := 0
  deriving DecidableEq, Repr

/-! ### Host interface (R427–R482) -/

/-- An event (R449): the fields of its body in the order of R451. -/
structure Event where
  code : Nat := 0
  status : Status := .ok
  /-- SRC of R449. -/
  src : Nat := 0xFF
  tag : Nat := 0
  si : Nat := 0
  body : List Nat := []
  deriving DecidableEq, Repr

/-- An event with the vector it raises, in a holding queue (R453). -/
structure Held where
  event : Event := {}
  vector : Nat := 0
  deriving DecidableEq, Repr

/-- An entry of an event ring as written: its phase bit and its event (R450). -/
structure RingEntry where
  phase : Bool := false
  event : Event := {}
  deriving DecidableEq, Repr

/-- A dispatched and uncompleted command (R439). -/
structure Issued where
  hdr : CmdHdr := {}
  opcode : Nat := 0
  deriving DecidableEq, Repr

/-- A finished command whose COMPLETION event is still to be written (R439). -/
structure Done where
  hdr : CmdHdr := {}
  opcode : Nat := 0
  status : Status := .ok
  detail : Nat := 0
  si : Nat := 0
  result : Nat := 0
  /-- A DEFERRED completion is interim (R439). -/
  interim : Bool := false
  deriving DecidableEq, Repr

/-- Bytes that a command writes to host memory before it completes: where they go, and the completion (R470). -/
structure Report where
  addr : Nat := 0
  bytes : List Byte := []
  done : Option Done := none
  deriving DecidableEq, Repr

/-- An MSI-X vector (R454). -/
structure MsixVec where
  addr : Nat := 0
  data : Nat := 0
  sent : Nat := 0
  /-- Within HOST_IMOD.INTERVAL of its last message. -/
  moderated : Bool := false
  /-- Entries written meanwhile. -/
  waiting : Bool := false
  /-- Masked from power-up, as the PCIe rules of R454 have it (PRESUMED, log entry 23). -/
  masked : Bool := true
  pendingBit : Bool := false
  deriving DecidableEq, Repr

/-- An image transfer that waits for its buffers (R444). -/
structure Transfer where
  hdr : CmdHdr := {}
  opcode : Nat := 0
  /-- KIND of R444, or the object kind of R736 for a TRUST_* object. -/
  kind : Nat := 0
  ring : Nat := 0
  entry : Nat := 0
  length : Nat := 0
  got : Nat := 0
  deriving DecidableEq, Repr

/-- A host DMA channel beyond its registers (R474–R479). -/
structure DmaCh where
  running : Bool := false
  cur : DmaDesc := {}
  moved : Nat := 0
  deriving DecidableEq, Repr

/-- The host interface. -/
structure HostSt where
  issued : List Issued := []
  done : List Done := []
  /-- Event ring entries: ring × 2^14 + index. -/
  evRing : Tab RingEntry := []
  holding : Tab (List Held) := []
  /-- Events lost since the last EVENT_LOST, by ring. -/
  lost : Tab Nat := []
  /-- Event-ring entries reserved for final completions, by ring. -/
  reserved : Tab Nat := []
  msix : Tab MsixVec := []
  /-- Urgent slots as last written, and the slots taken and not yet dispatched. -/
  urg : Tab (Option Descriptor) := []
  urgTaken : List (Fin 64) := []
  /-- The command ring served last (R438). -/
  lastRing : Nat := 7
  transfers : List Transfer := []
  /-- Outstanding engine requests to each host window, and whether a CTL read is held (R457). -/
  winOut : Tab Nat := []
  winHeld : Tab Bool := []
  dma : Tab DmaCh := []
  hushCmd : BitVec 64 := 0
  hushPin : BitVec 64 := 0
  /-- Groups hushed when the frame in progress of a domain began (R464, R841). -/
  hushSeen : Tab (BitVec 64) := []
  /-- Hush gain by group × 4 + domain (R464). -/
  hushGain : Tab Gate := []
  /-- Upstream bytes charged in the running P-domain frame (R469). -/
  charged : Nat := 0
  /-- Those of event entries that the reserve of R468 bears. -/
  reserveUsed : Nat := 0
  /-- Event entries that wait for the ledger of a later frame, with their rings (R470). -/
  evWait : List (Nat × Held) := []
  /-- Reports to host memory that wait for the ledger, in order (R470). -/
  reports : List Report := []
  /-- Bytes that a transfer still in progress has been charged in earlier frames, by DMA channel; the upstream bulk ring b has
  channel 8 + b (R469, R470, R473). -/
  ahead : Tab Nat := []
  deriving DecidableEq, Repr

/-! ### Network (R487–R518) -/

/-- Concealment of a receive channel (R500): samples missing so far in the gap, good samples since it, the last good one. -/
structure GapSt where
  missing : Nat := 32
  good : Nat := 0
  last : Word := 0
  deriving DecidableEq, Repr

/-- A configured stream and its counters (R494–R502, R522). -/
structure StreamSt where
  record : StreamRec := {}
  /-- Transmit: output SI of the next packet, and its sequence number. -/
  next : Nat := 0
  seq : Nat := 0
  /-- Transmit: the last packet sent, as RTP timestamp and wire words. -/
  lastStamp : Nat := 0
  lastWords : List Nat := []
  /-- Receive: the sequence number expected on each path. -/
  expectA : Option Nat := none
  expectB : Option Nat := none
  lost : Bool := false
  packets : Nat := 0
  late : Nat := 0
  early : Nat := 0
  malformed : Nat := 0
  lossA : Nat := 0
  lossB : Nat := 0
  concealed : Nat := 0
  /-- FLOAT samples replaced on entry (R488). -/
  scrubbed : Nat := 0
  lastSsrc : Nat := 0
  gaps : Tab GapSt := []
  deriving DecidableEq, Repr

/-- A NET_* command that waits for the P-domain boundary at which it takes effect (R493). -/
inductive NetOp where
  | stream (rx : Bool) (r : StreamRec)
  | del (rx : Bool) (n : Nat)
  | stat (rx : Bool) (first count addr : Nat)
  | rule (r : RuleRec)
  | cue (r : CueRec)
  | join (port : Nat) (leave : Bool) (group source : Nat)
  | wlRoute (l : List (Nat × Nat))
  | wlFlow (rx : Bool) (r : FlowRec)
  | wlFlowDel (rx : Bool) (port key : Nat)
  | wlTransit (port cells : Nat)
  | wlParam (dev : Nat) (p : ParamFwd)
  | wlDist (digest : Nat) (peers : List Nat)
  deriving DecidableEq, Repr

/-- A token bucket (R508, R509): tokens in bits × 16 × 10^9, and the stamp they were counted at. -/
structure Bucket where
  tokens : Option Nat := none
  stamp : Nat := 0
  deriving DecidableEq, Repr

/-- A frame that waits for a receive buffer of the host (R516). -/
structure HostFrameRx where
  port : Nat := 0
  /-- Class BEST_EFFORT, which is served after HOST (R505). -/
  best : Bool := false
  stamped : Bool := false
  frame : NetFrame := {}
  deriving DecidableEq, Repr

/-- The network ports. -/
structure NetSt where
  tx : Tab (Option StreamSt) := []
  rx : Tab (Option StreamSt) := []
  rules : Tab (Option RuleRec) := []
  cues : Tab (Option CueRec) := []
  /-- Last accepted SEQ of each cue entry (R512, R513). -/
  cueSeq : Tab (Option Nat) := []
  /-- Host multicast groups by port (R518). -/
  groups : Tab (List (Nat × Nat)) := []
  pendingOps : List (CmdHdr × NetOp) := []
  ruleBuckets : Tab Bucket := []
  hostBucket : Bucket := {}
  txBucket : Bucket := {}
  hostRx : List HostFrameRx := []
  /-- PTP messages received and accepted, with the last ingress stamp. -/
  ptpRx : Nat := 0
  ptpStamp : Nat := 0
  deriving DecidableEq, Repr

/-! ### The Wamund link (R523–R562) -/

/-- A receive flow (R549, R553, R561). -/
structure RxFlow where
  record : FlowRec := {}
  lost : Bool := false
  /-- The bundle being collected: its header, and the samples so far. -/
  part : Option (BundleHdr × List Word) := none
  gaps : Tab GapSt := []
  /-- Samples replaced on entry (R116). -/
  scrubbed : Nat := 0
  deriving DecidableEq, Repr

/-- The key and nonce prefix of one direction of a link, with the counts of its nonces (R538). -/
structure WlKey where
  key : BitVec 256 := 0
  prefix_ : BitVec 32 := 0
  /-- Number of the next DATA cell, which is its extended SEQ, and of the next LINK cell. -/
  data : Nat := 0
  link : Nat := 0
  deriving DecidableEq, Repr

/-- A Wamund port beyond its registers (R527–R547). -/
structure WlPort where
  /-- The keys of the two directions since this bring-up (R538). -/
  txKey : Option WlKey := none
  rxKey : Option WlKey := none
  /-- GCM nonce of the cell sent last, and of the cell received last that was accepted (R538). -/
  txNonce : Option (BitVec 96) := none
  rxNonce : Option (BitVec 96) := none
  /-- Cells ready to send, by virtual channel (R535). -/
  ready : Tab (List Cell) := []
  /-- DATA cells sent and not acknowledged, oldest first (R531). -/
  unacked : List Cell := []
  /-- Cells of the unacknowledged ones still to be sent again (R532). -/
  replay : List Cell := []
  /-- Times the oldest cell has been replayed (R527). -/
  replays : Nat := 0
  txSeq : Nat := 0
  rxSeq : Nat := 0
  /-- Waiting for the expected SEQ after a discard: later cells are discarded too. -/
  waiting : Bool := false
  /-- A NAK is to go out with the next cell (R532). -/
  nakOwed : Bool := false
  /-- Cell times since a cell with ACK, NAK and credits was sent (R531). -/
  quiet : Nat := 0
  credits : Tab Nat := []
  creditOwed : Tab Nat := []
  /-- Consecutive received cells that failed their tag (R527). -/
  tagFails : Nat := 0
  /-- The cell sent last; none: idle blocks. -/
  sent : Option Cell := none
  /-- Its header and payload before encryption (R528, R529). -/
  wire : List Byte := []
  /-- AUDIO cells of the running P-domain frame (R551). -/
  audioCells : Nat := 0
  tseq : Nat := 0
  prevTx : Nat := 0
  echoSeq : Nat := 0
  echoRx : Nat := 0
  /-- The peer's clock offset θ (R546), and the peer's last TIME cell with its arrival. -/
  theta : Int := 0
  peerTime : Option (TimeCell × Nat) := none
  tx : Tab (Option FlowRec) := []
  /-- Receive flows, by SRC × 256 + FLOW. -/
  rx : Tab (Option RxFlow) := []
  deriving DecidableEq, Repr

/-- A NET_WL_PARAM or NET_WL_DISTRIBUTE that waits for its answers (R557, R560). -/
structure WlWait where
  hdr : CmdHdr := {}
  opcode : Nat := 0x0885
  peers : List Nat := []
  answers : List (Nat × Status) := []
  deriving DecidableEq, Repr

/-- The Wamund link. -/
structure WlSt where
  ports : Tab WlPort := []
  /-- Route table (R540): 7 NONE where unlisted. -/
  route : Tab Nat := []
  /-- Membership list: identity digest by DEVNUM (R537, R744). -/
  members : Tab Nat := []
  waits : List WlWait := []
  /-- A NET_WL_DISTRIBUTE that waits for its list descriptor, by ring (R560). -/
  dist : Tab (Option (CmdHdr × Nat)) := []
  /-- CTRL messages toward devices that the network reaches (R541). -/
  netOut : List (Nat × WlPayload) := []
  /-- CTRL messages of an unknown kind (R555). -/
  unknown : Nat := 0
  deriving DecidableEq, Repr

/-! ### Serial ports, AES3 and sample-rate converters (R563–R595) -/

/-- An ASRC channel that serves a source: halvings of its 100 Hz loop bandwidth, whether it releases output, and the fade
state of its output. -/
structure AsrcCh where
  halvings : Nat := 0
  released : Bool := false
  gap : GapSt := {}
  deriving DecidableEq, Repr

/-- Ports and AES3 beyond their registers. -/
structure AudioSt where
  /-- ASRC channels in use, by source address: the AES3 receivers' own and the shared pool. -/
  asrc : Tab (Option AsrcCh) := []
  /-- Samples of an input that damage has zeroed: address × 2^64 + SI. -/
  damaged : List (Nat × Nat) := []
  /-- P-domain SI, plus one, of the last APORT_FAULT by port and cause (R581). -/
  faultAt : Tab Nat := []
  /-- Channel-status captures of receiver subframes, 24 bytes as one number: receiver × 2 + subframe (R586). -/
  capture : Tab Nat := []
  /-- Active templates of transmitter subframes, with byte 23 as sent (R592). -/
  active : Tab Nat := []
  /-- The unpacker of an input port has its half-word phase inverted (R578), by port. -/
  unpack : Tab Bool := []
  /-- Ports whose half-word phase has turned in the running block, with the SI from which it holds (R578). -/
  turns : List (Nat × Nat) := []
  /-- What each serial and AES3 output channel shifted out in the last frame period, by address: words of R118, for AES3 with
  V in bit 24 (R568, R589, R591). -/
  wire : Tab (List Nat) := []
  deriving DecidableEq, Repr

/-! ### The track store (R661–R692) -/

/-- A take (R674–R680, R690): its range, its tracks, and what the drives hold of it. -/
structure Take where
  no : Option Nat := none
  hdr : CmdHdr := {}
  outHdr : Option (CmdHdr × Bool) := none
  domain : Nat := 0
  rate : Nat := 96000
  inSi : Nat := 0
  late : Bool := false
  outSi : Option Nat := none
  /-- The end comes from a STORE_REC_OUT. -/
  byCommand : Bool := false
  open_ : Bool := false
  closed : Bool := false
  tracks : List Nat := []
  name : List Byte := []
  /-- Samples held under the take's own numbering, by track × 2^48 + sample. -/
  data : Tab Word := []
  /-- Samples collected so far. -/
  fill : Nat := 0
  /-- Chunks written, by track. -/
  written : Tab Nat := []
  /-- Chunks lost, as track and chunk (R679). -/
  gaps : List (Nat × Nat) := []
  /-- Fill covered by the record that is being committed, and by the last committed one (R680). -/
  cut : Nat := 0
  journaled : Nat := 0
  recovered : Bool := false
  incomplete : Bool := false
  imported : Bool := false
  /-- Members on which its extents are allocated, in member order. -/
  members : List Nat := []
  /-- Places of its extents in the data areas of their members, by track × 2^32 + extent (R665, R666). -/
  places : Tab Nat := []
  /-- Closed early, by the loss of a member or by standby. -/
  byLoss : Bool := false
  deriving DecidableEq, Repr

/-- A play (R681–R683). -/
structure Play where
  hdr : CmdHdr := {}
  take : Nat := 0
  recTrack : Nat := 0
  track : Nat := 0
  q : Nat := 0
  late : Bool := false
  offset : Nat := 0
  /-- Samples to deliver. -/
  len : Nat := 0
  stop : Option Nat := none
  /-- The STORE_STOPs that wait for the end of the play, each with whether it is late and its SI (R448, R682). -/
  stops : List (CmdHdr × Bool × Nat) := []
  domain : Nat := 0
  started : Bool := false
  /-- Chunks of the take in the buffers. -/
  buffered : List Nat := []
  missed : List Nat := []
  gap : GapSt := { missing := 0 }
  scrubbed : Nat := 0
  deriving DecidableEq, Repr

/-- A drive (R661–R665). -/
structure Drive where
  store : Nat := 0
  index : Nat := 0
  /-- A key slot unwraps under this engine's identity (R672). -/
  keyOk : Bool := true
  serial : Nat := 0
  extents : Nat := 0
  /-- Member count of its store. -/
  count : Nat := 0
  deriving DecidableEq, Repr

/-- An export or import in progress (R687, R688). -/
structure StoreMove where
  hdr : CmdHdr := {}
  export_ : Bool := true
  take : Nat := 0
  track : Nat := 0
  first : Nat := 0
  len : Nat := 0
  mode : Nat := 0
  ring : Nat := 0
  cutShort : Bool := false
  /-- Import: rate, track count and name. -/
  rate : Nat := 96000
  count : Nat := 1
  name : List Byte := []
  /-- Bytes of an export sent so far. -/
  done_ : Nat := 0
  deriving DecidableEq, Repr

/-- The commands that the engine issues to a drive, and no other (R662). The manual names no occasion for Abort or for the deletion of
a queue, and no event sends them. -/
inductive NvmeOp where
  | identify
  | setQueues
  | createCq (depth : Nat)
  | createSq (depth : Nat)
  | deleteSq
  | deleteCq
  | getSmartLog
  | abort
  | read (nsid lba blocks : Nat)
  | write (nsid lba blocks : Nat)
  | flush (nsid : Nat)
  | deallocate (nsid lba blocks : Nat)
  deriving DecidableEq, Repr

/-- The keys of a store (R671). -/
structure StoreKeys where
  xts : BitVec 512 := 0
  mac : BitVec 256 := 0
  deriving DecidableEq, Repr

/-- The track store beyond its registers. -/
structure StoreSt where
  /-- Commands that the last event of the store sent to drives, with the drive, in order (R662). -/
  issued : List (Nat × NvmeOp) := []
  /-- The keys of the mounted store, unwrapped, in the hub die (R672). -/
  keys : Option StoreKeys := none
  /-- The keys that the key slots on the drives of a store wrap, by store identity (R672). -/
  wrapped : Tab (Option StoreKeys) := []
  /-- LBA of a journal copy at which the next record is written (R665, R668). -/
  journalAt : Nat := 0
  /-- Identity of the mounted store; 0: none. -/
  store : Nat := 0
  /-- Identity of the store that the directory describes. -/
  dirOf : Nat := 0
  drives : Tab (Option Drive) := []
  takes : List Take := []
  nextTake : Nat := 1
  plays : List Play := []
  moves : List StoreMove := []
  /-- Engine identities of key slots 1–3 (R672), by slot. -/
  slots : Tab Nat := []
  /-- A journal record has been cut, and waits for the chunks it covers (R667, R680). -/
  journalCut : Bool := false
  /-- LBAs of the records since the last checkpoint, and the generation of the superblock (R666, R668). -/
  records : Nat := 0
  generation : Nat := 0
  /-- A power-fail warning has stopped chunk writes and journal records (R686). -/
  stopped : Bool := false
  deriving DecidableEq, Repr

/-! ### Hub analogue (R600–R626) -/

/-- A converter chain (R606–R614). -/
structure ConvCh where
  running : Bool := false
  /-- Preset in force, and the one that takes over when the gate has closed. -/
  preset : Nat := 0
  newPreset : Option Nat := none
  /-- EN was cleared: the chain stops when the gate has closed. -/
  stopping : Bool := false
  /-- First sample of the fade-in after settling. -/
  settled : Option Nat := none
  gate : Gate := {}
  /-- Jack removal, or BTN_MUTE. -/
  mute : Gate := {}
  /-- Transmit gate as a DAC follows it (R765). -/
  txGate : Gate := {}
  /-- Compensation as log2 of gain at the SI from which it ramps to 0 dB. -/
  comp : Word := 0
  compAt : Nat := 0
  /-- A range that waits for its zero crossing. -/
  request : Option Nat := none
  /-- Changes of range, in 3 dB steps, whose analogue step has not reached the output. -/
  stepping : List Int := []
  /-- First sample of the ramp-down path of R610, its range, and whether that has been applied. -/
  path : Option Nat := none
  pathRange : Nat := 0
  pathDone : Bool := false
  deriving DecidableEq, Repr

/-- A power-stage channel (R616–R624). -/
structure PsCh where
  gate : Gate := {}
  /-- Transmit gate as the channel follows it (R619). -/
  txGate : Gate := {}
  /-- Modulation is to begin at the next frame boundary of PS_DOM. -/
  startNext : Bool := false
  /-- First sample of the running channel. -/
  runAt : Nat := 0
  /-- EN was cleared: outputs go to high impedance after the ramp. -/
  stopping : Bool := false
  /-- The shutdown was thermal. -/
  thermal : Bool := false
  deriving DecidableEq, Repr

structure HubaSt where
  adc : Tab ConvCh := []
  dac : Tab ConvCh := []
  ps : Tab PsCh := []
  /-- Removal edge seen on the jack, before debouncing (R611). -/
  removing : Bool := false
  /-- Mic bias on the jack (R611, R612). -/
  hpBias : Bool := false
  /-- Gain of the supply-sag limiter (R624). -/
  limiter : Word := 0x3F800000
  /-- Fold-back, as log2 of gain, at the start and end of its ramp, and the ramp's first sample (R623). -/
  fold0 : Word := 0
  fold1 : Word := 0
  foldAt : Nat := 0
  /-- P-domain SI, plus one, of the last event by code, channel and cause (R625). -/
  eventAt : Tab Nat := []
  deriving DecidableEq, Repr

/-! ### Modules and the surface (R627–R660) -/

/-- A fader (R649–R658). -/
structure FaderSt where
  valid : Bool := false
  /-- RAW at its last change, and whether the next period is its first in CONTROL. -/
  lastRaw : Nat := 0
  fresh : Bool := true
  pos : Word := 0
  target : Word := 0
  targetPrev : Word := 0
  /-- Consecutive periods of R658 and POS and TARGET at their start. -/
  stallCount : Nat := 0
  stallPos : Word := 0
  stallTarget : Word := 0
  lastValue : Word := 0
  /-- Servo period of the last FADER event. -/
  lastEvent : Option Nat := none
  deriving DecidableEq, Repr

structure SurfSt where
  /-- Records by slot (R627, R660). -/
  mir : Tab (List Byte) := []
  seen : Tab Bool := []
  law : List Word := []
  lawNext : Option (List Word) := none
  faders : Tab FaderSt := []
  period : Nat := 0
  /-- SI of R419 of the running servo period. -/
  si : Nat := 0
  /-- SERVO_DN words to send, by fader (R642). -/
  drive : Tab Nat := []
  /-- Consecutive faulty periods, by port × 4 + module (R645). -/
  faults : Tab Nat := []
  /-- Slots whose module does servo frames, by port × 4 + module. -/
  live : Tab Bool := []
  /-- Faders that a RELEASE_DN of the running servo period has named (R646). -/
  released : List Nat := []
  eventAt : Tab Nat := []
  deriving DecidableEq, Repr

/-! ### Power and the Bisque image (R693–R723) -/

/-- A settings copy (R705). -/
structure BisqueCopy where
  intact : Bool := false
  generation : Nat := 0
  content : Settings := {}
  records : Nat := 0
  /-- Bytes of its journal. -/
  journal : Nat := 0
  deriving DecidableEq, Repr

/-- A program set of MRAM (R704): the schedule image it was stored for, and its programs. -/
structure ProgSet where
  image : SchedImage := {}
  programs : List ProgImage := []
  deriving DecidableEq, Repr

/-- What follows the output ramps: a standby, with whether a final commit is made and its record's length and time record (R702), or a
transition to a life-cycle state, with what the cold start after it finds (R732). -/
inductive AfterRamp where
  | standby (commit : Bool) (bytes : Nat) (t : TimeRecord)
  | release (target : Nat) (f : StartFacts)
  deriving DecidableEq, Repr

structure PwrSt where
  copies : Tab BisqueCopy := []
  house : Option Settings := none
  /-- Program sets A and B, and the standard program set that each firmware copy contains (R704, R708). -/
  sets : Tab (Option ProgSet) := []
  library : Tab (List ProgImage) := []
  /-- VERSION of firmware copies A and B (R709, R752). -/
  fw : Tab Nat := []
  /-- Power-good has been handled, and supplies have not been withdrawn since. -/
  started : Bool := false
  /-- Start-up has passed step 7: commits are made (R712). -/
  audio : Bool := false
  /-- What the last append stored. -/
  saved : Settings := {}
  /-- The next commit writes a new base into all three copies (R708). -/
  rebase : Bool := false
  /-- A base rewrite has been broken off at a copy (R706, R712). -/
  torn : Bool := false
  /-- P-domain SI of the last append and of the last final commit (R706, R713). -/
  appendAt : Option Nat := none
  commitAt : Option Nat := none
  /-- WARM cycles in a row that ended with VDD_AON above 2.95 V while on VBAT (R701). -/
  vbatCount : Nat := 0
  /-- PWR_REQ is asserted. -/
  req : Bool := true
  /-- What woke the engine: 1 WAKE_N, 2 the alarm, 0 neither (R703, R722). -/
  wakeCause : Nat := 0
  standby : Bool := false
  /-- What waits for the output ramps of an accepted STANDBY or release (R702, R732), with the SI at which each domain's has ended. -/
  afterRamp : Option (List (Nat × Nat) × AfterRamp) := none
  /-- START to post once an event ring is enabled (R717): its body and status. -/
  start : Option (List Nat × Status) := none
  /-- Start gain by domain; none: step 8 has not been reached (R716). -/
  unmute : Tab (Option Gate) := []
  /-- Change of range in progress, by domain (R720): 1 ramping down, 2 stopped, 3 and more: restarted, with the SI of the
  first emitted block after 3. -/
  range : Tab Nat := []
  /-- Output gain of a change of range or of standby, by domain, and by `fedGate` that of destinations which a synchronous bridge
  feeds. -/
  gain : Tab Gate := []
  deriving DecidableEq, Repr

/-! ### Trust (R724–R758) -/

/-- A TRUST_* command that the Ritadom core has still to execute (R749). An object waits for its last buffer, and keeps what a
cold start after it would find. -/
inductive TrustJob where
  | attest (addr : Nat) (nonce : BitVec 256)
  | claim (code : BitVec 64) (owner : Nat) (sigOk : Bool)
  | cert (addr : Nat)
  | challenge
  | object (kind : Nat) (got : Option (ImageData × StartFacts))
  deriving DecidableEq, Repr

structure TrustSt where
  /-- Digest of the identity key (R726); 0: none. -/
  identity : Nat := 0
  /-- Digest of the owner key; 0: none. -/
  owner : Nat := 0
  policy : Option Policy := none
  /-- VERSION of a policy or membership list that takes effect at the next P-domain boundary (R743, R744). -/
  policyNext : Option (Policy × Nat) := none
  membersNext : Option (List (Nat × Nat) × Nat) := none
  /-- The claim code, as the 40 bits of its eight characters (R733). -/
  claimCode : Nat := 0
  /-- P-domain SI at power-good, and the end of a wait of R735. -/
  since : Nat := 0
  waitTo : Nat := 0
  challenge : Option Nat := none
  /-- Commands that wait for the Ritadom core, in dispatch order (R749). -/
  queue : List (CmdHdr × TrustJob) := []
  /-- Digests of firmware copies A and B, the policy, the membership list and the house scene, by 0–4 (R750). -/
  digests : Tab Nat := []
  /-- Bytes of the device certificate chain (R726). -/
  chain : List Byte := []
  /-- The identity area (R725, R807): MAC addresses of the network ports, and the serial number's words. -/
  macs : List Nat := []
  serial : List Nat := []
  deriving DecidableEq, Repr

/-! ### Pads (R828–R833) -/

structure PinSt where
  /-- Function in force, by pad. -/
  fn : Tab Nat := []
  /-- OUT, PULL, DRIVE and PARAM in force, as bits 11–4 of the register hold them, by pad. -/
  cfg : Tab Nat := []
  /-- Function that takes the pad at the end of its park. -/
  parked : Tab (Option Nat) := []
  deriving DecidableEq, Repr

/-! ### Redundant pairs and self-test (R759–R788) -/

/-- What a witness keeps of a pair (R762). -/
structure WitPair where
  a : Nat := 0
  b : Nat := 0
  epoch : Nat := 0
  holder : Nat := 0
  /-- P-domain SI at which the last renewal came; none since a restart. -/
  renewed : Option Nat := none
  deriving DecidableEq, Repr

/-- The digests of one block by group (R773): this engine's, none before its own emission, and the partner's. -/
structure DigestSt where
  si : Nat := 0
  own : Option (Tab Nat) := none
  partner : Tab (Option Nat) := []
  deriving DecidableEq, Repr

structure PairSt where
  /-- Number of the next RENEW. -/
  renewNum : Nat := 0
  /-- P-domain SI at which each recent RENEW was sent, and of the newest acknowledged one (R764). -/
  sentAt : List (Nat × Nat) := []
  ackedAt : Nat := 0
  /-- P-domain SI at which a RENEW, any message of the partner and any of the witness last came. -/
  heardAt : Option Nat := none
  partnerAt : Option Nat := none
  witnessAt : Option Nat := none
  /-- P-domain SI at which listening began (R769). -/
  listening : Option Nat := none
  /-- Epoch of the CLAIM under way; 0: none. -/
  claimed : Nat := 0
  /-- The gate opens at the next P boundary (R767, R775). -/
  openNext : Bool := false
  /-- Handover SI of a YIELD, and whether it was acknowledged (R777); kind of the takeover it makes. -/
  yieldAt : Option (Nat × Bool) := none
  takeKind : Nat := 1
  /-- The yield follows a verdict that found an error here. -/
  suspectNext : Bool := false
  /-- Planned swap (R778): 1 STATE sent, 2 the partner prepares, 3 yielding. -/
  swap : Nat := 0
  /-- Next mirror number to send, and the one expected (R772). -/
  mirrorOut : Nat := 0
  mirrorIn : Nat := 0
  digests : List DigestSt := []
  /-- Consecutive mismatching and matching blocks, and the first mismatching one. -/
  mismatches : Nat := 0
  matches_ : Nat := 0
  firstBad : Nat := 0
  /-- P-domain SI of the last entry of the internal error record (R774). -/
  errAt : Option Nat := none
  /-- ERROR_FOUND of this engine and of the partner in the exchange under way (R774). -/
  verdictOwn : Option Bool := none
  verdictPartner : Option Bool := none
  /-- The holder has sent the control state of a resynchronisation; groups copied; when resynchronisation began; and the
  first block to compare once every delay line is rewritten (R776). -/
  stateSent : Bool := false
  groups : Nat := 0
  resyncAt : Nat := 0
  linesAt : Nat := 0
  /-- The newest complete replica, and its P-domain SI (R775). -/
  replica : Option Settings := none
  replicaAt : Nat := 0
  /-- Copies of messages already acted on (R761). -/
  seen : List PairMsg := []
  witness : List WitPair := []
  /-- A COLD standby has started from its replica (R775, R778). -/
  coldStart : Bool := false
  /-- REF_XO failure keeps the gate closed (R378). -/
  refxoGate : Bool := false
  deriving DecidableEq, Repr

/-- Self-tests (R784, R785). -/
structure BistSt where
  queued : List (Nat × Nat) := []
  running : List (Nat × Nat) := []
  deriving DecidableEq, Repr

/-- The state of the block. -/
structure State where
  /-- Commands that are waiting, first in first out. -/
  pending : List Instr := []
  /-- Every field of every register of BAR0, by `Fld.key` (R789). -/
  regs : Tab Nat := []
  /-- HI latches of register pairs, by the offset of LO: the latched half plus one (R798). -/
  latch : Tab Nat := []
  /-- Staged LO halves of writable pairs, by the offset of LO: the staged half plus one (R801). -/
  staged : Tab Nat := []
  /-- Free values taken so far (the model's own field; log entry 3). -/
  ctr : Nat := 0
  /-- Package DRAM, by offset in the usable space (R329). -/
  dram : Memory := []
  /-- Cluster shared memories: cluster × 2^20 + address (R172). -/
  shm : Memory := []
  /-- Local data memories: unit × 2^16 + address (R172). -/
  lmem : Memory := []
  /-- Delay memories: region × 2^24 + address (R313). -/
  dly : Memory := []
  /-- Glaze state memories: cluster × 2^14 + 32 × record (R309). -/
  glz : Memory := []
  /-- Frame stages of the hub: input at 0, output at 2^22 (R47, R287). -/
  stage : Memory := []
  /-- Host memory as the engine has written it (R450, R458). -/
  hostMem : Memory := []
  /-- Program memories: unit × 1,024 + bundle address (R172). -/
  prog : Tab (BitVec 128) := []
  units : Tab UnitSt := []
  clusters : Tab ClusterSt := []
  regions : Tab RegionSt := []
  /-- Crossbar targets by number: 16 × region + cluster port 0–7, 8 delay memory, 9 uplink; 128 + 16 × die + region uplink 0–3,
  4 die bridge (R324, R325). -/
  xbar : Tab Grant := []
  doms : Tab DomSt := []
  mix : MixSt := {}
  sched : SchedSt := {}
  pours : PourSt := {}
  time : TimeSt := {}
  net : NetSt := {}
  audio : AudioSt := {}
  wl : WlSt := {}
  huba : HubaSt := {}
  surf : SurfSt := {}
  store : StoreSt := {}
  pwr : PwrSt := {}
  trust : TrustSt := {}
  pair : PairSt := {}
  bist : BistSt := {}
  pins : PinSt := {}
  host : HostSt := {}
  deriving DecidableEq, Repr

/-- Register fields that do not read 0 at reset, by `Fld.key`: GLOBAL_ID, GLOBAL_REV (stepping digit and grade are a DESIGN
CHOICE, log entry 4), GLOBAL_HIER, GLOBAL_HIER2, GLOBAL_CAP, TIME_STATUS.LOCAL, SCHED_STATUS.NONE and PAIR_STATUS.GATE_OPEN
(R33, R165, R422, R759, R802–R804; log entry 4). -/
def resetRegs : Tab Nat :=
  [(0, 0xb640), (16, 0x4a52), (128, 66), (136, 48), (144, 69), (512, 8), (520, 8), (528, 4), (536, 2), (640, 0x200),
   (656, 64), (664, 8), (668, 4), (768, 16), (773, 8), (777, 8), (781, 4), (784, 3), (786, 8), (393222, 1), (655364,
   1), (2491010, 1)]

/-- The block after reset and before power-good: nothing has been started, restored or admitted (R15, R714). Domain P is
the one domain that is configured, at the default rate and block of log entry 4. -/
def State.reset : State :=
  { regs := resetRegs, doms := [(0, { configured := true })] }

/-- The block never stops with a fault: every command has an effect in every state (see NOTES.md, Stops). -/
inductive Fault where
  /-- Raised by no command. Safe: a stop says nothing about the hardware. -/
  | never
  deriving DecidableEq, Repr

/-- Why a command has no meaning. -/
inductive Refusal where
  /-- The command's meaning is not written. Safe. -/
  | notModelled (mnemonic : String)
  deriving DecidableEq, Repr

end Sys2Proof.Machine
end

