-- ==== Sys2Proof/Machine/Ops.lean ====
section
/-! DEFINITION. Named operations over the state: register fields, tables of instances, time, events and completions.
Every meaning is written over these. -/

namespace Sys2Proof

/-- The place of a field in the register table. -/
def Fld.key (f : Fld) : Nat := f.off * 32 + f.lo

/-- The encoding of a status code (R448). -/
def Status.code : Status → Nat
  | .ok => 0 | .late => 1 | .order => 2 | .empty => 3 | .noHeadroom => 4 | .windowFault => 5 | .badSignature => 6
  | .refused => 7 | .deferred => 8 | .splitImage => 9 | .suspect => 10 | .partly => 11 | .notOwner => 12
  | .busy => 13 | .aborted => 14

/-- SRC of an event for a command (R449). -/
def Src.code : Src → Nat
  | .ring c => c.val
  | .urgent _ => 0xFE

namespace Machine

/-- The outcome of every meaning that runs. -/
abbrev Out := Host.Outcome State Fault Refusal

/-! ### Register fields -/

/-- The value of a register field. -/
def State.get (s : State) (f : Fld) : Nat := Tab.get 0 s.regs f.key

/-- A field written, cut to its width. -/
def State.put (s : State) (f : Fld) (v : Nat) : State := { s with regs := Tab.put 0 s.regs f.key (v % 2 ^ f.w) }

/-- A one-bit field as a truth value. -/
def State.bit (s : State) (f : Fld) : Bool := s.get f % 2 == 1

/-- A sticky bit or status bit set. -/
def State.set (s : State) (f : Fld) : State := s.put f 1

/-- A status bit that follows a condition. -/
def State.putBit (s : State) (f : Fld) (b : Bool) : State := s.put f (if b then 1 else 0)

/-- One bit of a mask field set. -/
def State.setMask (s : State) (f : Fld) (k : Nat) : State := s.put f (Nat.lor (s.get f) (2 ^ k))

/-- One bit of a mask field cleared. -/
def State.clrMask (s : State) (f : Fld) (k : Nat) : State :=
  s.put f (if Nat.testBit (s.get f) k then s.get f - 2 ^ k else s.get f)

/-- A counter stepped, holding at its maximum (R796). -/
def State.bumpBy (s : State) (f : Fld) (n : Nat) : State := s.put f (min (s.get f + n) (2 ^ f.w - 1))

def State.bump (s : State) (f : Fld) : State := s.bumpBy f 1

/-- A high-water mark raised. -/
def State.raise (s : State) (f : Fld) (v : Nat) : State := if s.get f < v then s.put f v else s

/-- Fields cleared. -/
def State.clear (s : State) (fs : List Fld) : State := fs.foldl (fun t f => t.put f 0) s

/-- Apply an operation for every member of a list, in order. -/
def State.each {α : Type} (s : State) (l : List α) (f : α → State → State) : State := l.foldl (fun t x => f x t) s

/-- A conditional operation. -/
def State.when (s : State) (b : Bool) (f : State → State) : State := if b then f s else s

/-- A fresh free value (log entry 3): the state it is drawn from says which. -/
def State.free (s : State) : BitVec 64 := Config.freeValue s.ctr

/-- Takes a free value, so the next one is another. -/
def State.take (s : State) : State := { s with ctr := s.ctr + 1 }

/-- The host interface beyond the TRUST block answers: the engine is not in recovery (R753) and not RETIRED (R730). -/
def State.hostUp (s : State) : Bool := !s.bit Reg.TRUST_STATE_RECOVERY && decide (s.get Reg.TRUST_STATE_LCS ≠ 5)

/-- A host access takes effect where the host interface answers. -/
def State.ifHost (s : State) (o : Out) : Out := if s.hostUp then o else .next s

/-- An access is discarded: ACC_FAULT, its count, and the first capture. -/
def State.accFault (s : State) (bar2 : Bool) (off be kind : Nat) : State :=
  let s1 := (s.set Reg.GLOBAL_ACC_ACC_FAULT).bump Reg.GLOBAL_ACC_CNT_FAULTS
  if s.bit Reg.GLOBAL_ACC_ADDR_VALID then s1.set Reg.GLOBAL_ACC_OVERFLOW
  else
    ((((s1.put Reg.GLOBAL_ACC_ADDR_OFFSET (off / 4 * 4)).putBit Reg.GLOBAL_ACC_ADDR_BAR bar2).put Reg.GLOBAL_ACC_ADDR_BE be).put
      Reg.GLOBAL_ACC_ADDR_KIND kind).set Reg.GLOBAL_ACC_ADDR_VALID

/-- A write of a restored field: before restoration one that would change it is discarded (R809). -/
def State.ifRestored (s : State) (off : Nat) (change : Bool) (o : Out) : Out :=
  s.ifHost <| if s.bit Reg.GLOBAL_RESTORE_DONE then o else if change then .next (s.accFault false off 15 3) else .next s

/-! ### Instances -/

def State.unit (s : State) (u : Nat) : UnitSt := Tab.get {} s.units u
def State.setUnit (s : State) (u : Nat) (x : UnitSt) : State := { s with units := Tab.put {} s.units u x }
def State.modUnit (s : State) (u : Nat) (f : UnitSt → UnitSt) : State := s.setUnit u (f (s.unit u))
def State.cluster (s : State) (c : Nat) : ClusterSt := Tab.get {} s.clusters c
def State.setCluster (s : State) (c : Nat) (x : ClusterSt) : State := { s with clusters := Tab.put {} s.clusters c x }
def State.modCluster (s : State) (c : Nat) (f : ClusterSt → ClusterSt) : State := s.setCluster c (f (s.cluster c))
def State.region (s : State) (g : Nat) : RegionSt := Tab.get {} s.regions g
def State.modRegion (s : State) (g : Nat) (f : RegionSt → RegionSt) : State :=
  { s with regions := Tab.put {} s.regions g (f (s.region g)) }
def State.dom (s : State) (d : Nat) : DomSt := Tab.get {} s.doms d
def State.modDom (s : State) (d : Nat) (f : DomSt → DomSt) : State := { s with doms := Tab.put {} s.doms d (f (s.dom d)) }
def State.modMix (s : State) (f : MixSt → MixSt) : State := { s with mix := f s.mix }
def State.modStd (s : State) (f : StdSt → StdSt) : State := s.modMix fun m => { m with std := f m.std }
def State.modSched (s : State) (f : SchedSt → SchedSt) : State := { s with sched := f s.sched }
def State.modHost (s : State) (f : HostSt → HostSt) : State := { s with host := f s.host }

/-! ### Time (R8–R12, R837) -/

/-- A sample index of domain P converted to domain d (R11, R150). -/
def State.siTo (s : State) (d si : Nat) : Nat := si * (s.dom d).rate / (s.dom 0).rate

/-- A quotient rounded up. -/
def ceilDiv (a b : Nat) : Nat := (a + b - 1) / b

/-- An SI of a domain in the numbering of domain P. -/
def State.toP (s : State) (d t : Nat) : Nat := if d = 0 then t else t * (s.dom 0).rate / (s.dom d).rate

/-- A time in units of 1/den seconds as whole samples of domain d, halves up (R837). -/
def State.samples (s : State) (d num den : Nat) : Nat := (2 * num * (s.dom d).rate + den) / (2 * den)

def State.samplesMs (s : State) (d ms : Nat) : Nat := s.samples d ms 1000

/-- The first sample of the earliest block of a domain whose handling has not begun (R60). -/
def State.earliest (s : State) (d : Nat) : Nat := (s.dom d).begun

/-- The SI at which a timed item takes effect, and whether it is late (R59, R60, R435). -/
def State.applyAt (s : State) (d target : Nat) : Nat × Bool :=
  if target = 0 then (s.earliest d, false)
  else
    let t := s.siTo d target
    if t < s.earliest d then (s.earliest d, true) else (t, false)

/-! ### Rings (R430) -/

/-- The index of a ring position and its WRAP bit. -/
def ringIdx (pos : Nat) : Nat := pos % 2 ^ 14
def ringWrap (pos : Nat) : Nat := pos / 2 ^ 14 % 2

/-- The position after one of a ring of 2^n entries. -/
def ringNext (n pos : Nat) : Nat :=
  if ringIdx pos + 1 = 2 ^ n then (1 - ringWrap pos) * 2 ^ 14 else pos + 1

/-- Entries from HEAD to TAIL. -/
def ringCount (n head tail : Nat) : Nat :=
  if ringWrap head = ringWrap tail then ringIdx tail - ringIdx head else 2 ^ n + ringIdx tail - ringIdx head

/-! ### Host windows (R455) -/

/-- One enabled window covers the range and grants the access. -/
def State.windowOk (s : State) (addr len : Nat) (write : Bool) : Bool :=
  (List.range 16).any fun k =>
    s.bit (Reg.HOST_WIN_CTL_ENABLE k) &&
    s.bit (if write then Reg.HOST_WIN_CTL_WRITE k else Reg.HOST_WIN_CTL_READ k) &&
    decide (s.get (Reg.HOST_WIN_BASE_BASE k) ≤ addr) &&
    decide (addr + len ≤ s.get (Reg.HOST_WIN_BASE_BASE k) + 4096 * s.get (Reg.HOST_WIN_SIZE_PAGES k))

/-- Bytes written to host memory, charged to the upstream ledger (R469). -/
def State.hostWrite (s : State) (addr : Nat) (bs : List Byte) : State :=
  { s with hostMem := Memory.writeBytes s.hostMem addr bs,
           host := { s.host with charged := s.host.charged + bs.length } }

/-! ### The upstream ledger (R467–R470) -/

/-- Bytes of a half of R126. -/
def halfBytes (m : Nat) : Nat := ((24 + 4 * m + 7) / 8 * 8 + 8 + 63) / 64 * 64

/-- Payload rate of the link (R467). -/
def State.linkRate (s : State) : Nat :=
  (match s.get Reg.HOST_STATUS_SPEED with | 1 => 200000000 | 2 => 400000000 | 3 => 800000000 | 4 => 1600000000 | _ => 0) *
    2 ^ s.get Reg.HOST_STATUS_WIDTH

/-- L of R468 for a frame of a domain's rate and block size. -/
def State.ledger (s : State) (rate block : Nat) : Nat :=
  s.get Reg.HOST_LEDGER_UP_PCT * (s.linkRate * block / rate) / 100 - 4096

/-- What is left of L in the running P-domain frame, beside the reserve of event entries. -/
def State.ledgerLeft (s : State) : Nat :=
  s.ledger (s.dom 0).rate (s.dom 0).block - (s.host.charged - s.host.reserveUsed)

/-- The updates of a subscription that its domain's frames up to now have brought due, and that are not written (R124, R127). -/
def State.meterDue (s : State) (x : MeterSub) : Bool :=
  let n := (s.dom x.domain).si / (s.dom x.domain).block
  decide (0 < x.period) && decide (x.phase ≤ n) && decide (x.seq < (n - x.phase) / x.period)

/-- Room for what is neither an event entry of the reserve nor an admitted charge (R470): admitted charges that are still to come in
the frame go before it. -/
def State.restRoom (s : State) : Nat :=
  s.ledgerLeft - (((s.mix.meters.filterMap (·.2)).filter s.meterDue).map fun x => halfBytes x.points.length).sum

/-- The transfer of a channel can issue its last bytes: those that earlier frames have not borne fit (R470, R479). -/
def State.channelFits (s : State) (k n : Nat) : Bool := decide (n - Tab.get 0 s.host.ahead k ≤ s.restRoom)

/-- The bytes of a channel's transfer are in host memory; what earlier frames have borne is not charged again. -/
def State.channelWrite (s : State) (k addr : Nat) (bs : List Byte) : State :=
  let a := min (Tab.get 0 s.host.ahead k) bs.length
  (s.hostWrite addr bs).modHost fun h => { h with charged := h.charged - a, ahead := Tab.put 0 h.ahead k (Tab.get 0 s.host.ahead k - a) }

/-- Bytes of a command to host memory, and its completion once they are there: at once where they fit, else from the next frames on, after
those that wait (R470). -/
def State.report (s : State) (addr : Nat) (bs : List Byte) (x : Done) : State :=
  if s.host.reports.isEmpty && decide (bs.length ≤ s.restRoom) then
    (s.hostWrite addr bs).modHost fun h => { h with done := h.done ++ [x] }
  else s.modHost fun h => { h with reports := h.reports ++ [⟨addr, bs, some x⟩] }

/-- Reports that wait take what room there is, in order. -/
def State.sendReports (s : State) : List Report → State
  | [] => s.modHost fun h => { h with reports := [] }
  | r :: t =>
    let k := min s.restRoom r.bytes.length
    let s1 := s.hostWrite r.addr (r.bytes.take k)
    if k = r.bytes.length then
      State.sendReports (s1.modHost fun h => { h with done := h.done ++ r.done.toList }) t
    else s1.modHost fun h => { h with reports := { r with addr := r.addr + k, bytes := r.bytes.drop k } :: t }

/-! ### MSI-X (R454) -/

/-- One message on a vector, unless it is masked or moderated. -/
def State.raiseVector (s : State) (v : Nat) : State :=
  s.modHost fun h =>
    let m := Tab.get {} h.msix v
    let m' : MsixVec :=
      if m.masked then { m with pendingBit := true }
      else if m.moderated then { m with waiting := true }
      else { m with sent := m.sent + 1, moderated := decide (s.get Reg.HOST_IMOD_INTERVAL ≠ 0) }
    { h with msix := Tab.put {} h.msix v m' }

/-! ### Events (R449–R454) -/

/-- The classes of R452. -/
inductive EvClass where
  | urg | fault | clock | net | trust | other
  deriving DecidableEq, Repr

/-- The event ring of a class (R452): a two-bit field. -/
def State.ringOf (s : State) (c : EvClass) : Nat :=
  s.get (match c with
    | .urg => Reg.HOST_EVT_ROUTE_URG
    | .fault => Reg.HOST_EVT_ROUTE_FAULT
    | .clock => Reg.HOST_EVT_ROUTE_CLOCK
    | .net => Reg.HOST_EVT_ROUTE_NET
    | .trust => Reg.HOST_EVT_ROUTE_TRUST
    | .other => Reg.HOST_EVT_ROUTE_OTHER) % 4

/-- Entries of an event ring in use. -/
def State.evCount (s : State) (r : Nat) : Nat :=
  ringCount (s.get (Reg.HOST_ERING_CFG_LOG2 r)) (s.get (Reg.HOST_ERING_HEAD_POS r)) (s.get (Reg.HOST_ERING_TAIL_POS r))

/-- The event ring's own memory is still within an enabled window (R428, R456). -/
def State.evMemOk (s : State) (r : Nat) : Bool :=
  s.windowOk (s.get (Reg.HOST_ERING_BASE_BASE r) + 32 * ringIdx (s.get (Reg.HOST_ERING_TAIL_POS r))) 32 true

/-- An engine-originated event finds room: an entry that no completion has reserved (R439, R453), beside those for which events
wait. A ring that is not enabled has no room (log entry 12), and one that has stopped (R456) has none. -/
def State.evRoom (s : State) (r : Nat) : Bool :=
  s.bit (Reg.HOST_ERING_CFG_ENABLE r) && decide (s.get (Reg.HOST_ERING_ERR_CODE r) ≠ 2) &&
  decide (s.evCount r + Tab.get 0 s.host.reserved r + (s.host.evWait.filter fun x => x.1 == r).length <
    2 ^ s.get (Reg.HOST_ERING_CFG_LOG2 r))

/-- Offsets and sizes of the fields of an event's body, in their order (R370, R451, R491, R562, R597, R625, R659, R692, R722, R757,
R787). The chapters that define them give no places for the fields of the events 0x0010 to 0x0012 and 0x0020 to 0x0027: those
follow one another (DESIGN CHOICE, log entry 135). -/
def eventFields (code : Nat) : List (Nat × Nat) :=
  match code with
  | 0x0001 => [(8, 2), (12, 4), (16, 8), (24, 8)]
  | 0x0002 => [(8, 4), (12, 2), (14, 1), (15, 1), (16, 8), (24, 4)]
  | 0x0003 => [(8, 1), (9, 2), (12, 4)]
  | 0x0004 => [(8, 4)]
  | 0x0005 => [(8, 1)]
  | 0x0011 => [(16, 2), (20, 4)]
  | 0x0013 => [(16, 8)]
  | 0x0017 => [(16, 8), (24, 1)]
  | 0x0024 => [(16, 1), (18, 2), (20, 10)]
  | 0x0022 => [(16, 1), (17, 1), (18, 1), (20, 8)]
  | 0x0027 => [(16, 1), (24, 8)]
  | 0x0102 => [(16, 1), (18, 2), (20, 1), (21, 1)]
  | 0x0110 => [(16, 1), (17, 1), (18, 2)]
  | 0x0112 => [(16, 1), (18, 2), (20, 2), (22, 1)]
  | 0x0113 => [(16, 1), (20, 4)]
  | 0x0120 => [(16, 1), (17, 1), (18, 2)]
  | 0x0121 => [(16, 1), (17, 1), (20, 4)]
  | 0x0140 => [(16, 2), (20, 4), (24, 4)]
  | 0x0141 => [(16, 2)]
  | 0x0142 => [(16, 1), (17, 1), (18, 1), (20, 2), (22, 1)]
  | 0x0150 => [(16, 4), (20, 1), (24, 8)]
  | 0x0151 => [(16, 1), (18, 2)]
  | 0x0160 => [(16, 1), (17, 1), (18, 1), (19, 1), (20, 4)]
  | 0x0162 => [(16, 1), (17, 1), (20, 4), (24, 2)]
  | 0x0171 => [(16, 2), (20, 4)]
  | 0x0172 => [(16, 1), (17, 1), (24, 8)]
  | 0x0180 => [(16, 1), (17, 1), (18, 1), (20, 4)]
  | 0x0181 => [(16, 8), (24, 8)]
  | 0x0182 => [(16, 1), (20, 4), (24, 4)]
  | 0x0183 => [(16, 1), (17, 1), (18, 1), (19, 1), (20, 4)]
  | _ => [(16, 1), (17, 1), (18, 1), (19, 1)]

/-- Little-endian fields at their offsets in a list of bytes. -/
def putFields (l : List Byte) : List (Nat × Nat) → List Nat → List Byte
  | (o, n) :: fs, v :: vs => putFields (l.take o ++ natToBytes n v ++ l.drop (o + n)) fs vs
  | _, _ => l

/-- The 32 bytes of an event entry (R449, R451): bytes 8–15 carry the SI unless the body takes them. -/
def eventBytes (phase : Bool) (e : Event) : List Byte :=
  let head := natToBytes 2 (e.code % 2 ^ 15 + if phase then 2 ^ 15 else 0) ++ natToBytes 1 e.status.code ++ natToBytes 1 e.src ++
    natToBytes 4 e.tag
  let body := if e.code < 6 then List.replicate 24 0 else natToBytes 8 e.si ++ List.replicate 16 0
  putFields (head ++ body) (eventFields e.code) e.body

/-- An event waits in the holding queue of a ring, or is lost and counted (R453). -/
def State.hold (s : State) (r : Nat) (h : Held) : State :=
  let q := Tab.get [] s.host.holding r
  if q.length < 256 then s.modHost fun x => { x with holding := Tab.put [] x.holding r (q ++ [h]) }
  else
    ((s.modHost fun x => { x with lost := Tab.put 0 x.lost r (Tab.get 0 x.lost r + 1) }).bump
      Reg.HOST_EVT_LOST_CNT_COUNT).set Reg.HOST_STATUS_EVT_LOST

/-- The memory of an event ring lies outside every window: the ring stops, and its RING_FAULT waits (R456). -/
def State.stopEvRing (s : State) (r : Nat) : State :=
  ((s.put (Reg.HOST_ERING_ERR_CODE r) 2).set Reg.HOST_STATUS_RING_ERR).hold (s.ringOf .fault)
    ⟨{ code := 0x16, si := (s.dom 0).si, body := [8 + r, 2] }, 59⟩

/-- An entry at TAIL with its phase, TAIL advanced and the vector raised (R449, R450, R454, R469). -/
def State.putEvent (s : State) (r : Nat) (h : Held) (reserve : Bool) : State :=
  let tail := s.get (Reg.HOST_ERING_TAIL_POS r)
  let s1 := (s.hostWrite (s.get (Reg.HOST_ERING_BASE_BASE r) + 32 * ringIdx tail) (eventBytes (ringWrap tail == 0) h.event)).modHost
    fun x => { x with evRing := Tab.put {} x.evRing (r * 2 ^ 14 + ringIdx tail) ⟨ringWrap tail == 0, h.event⟩,
                      reserveUsed := if reserve then x.reserveUsed + 32 else x.reserveUsed }
  (s1.put (Reg.HOST_ERING_TAIL_POS r) (ringNext (s.get (Reg.HOST_ERING_CFG_LOG2 r)) tail)).raiseVector h.vector

/-- An event entry is written under the reserve of the frame, or else under what is left of the ledger; or it waits for the next frame
(R468, R470). -/
def State.writeEvent (s : State) (r : Nat) (h : Held) : State :=
  if !s.evMemOk r then (s.stopEvRing r).hold r h
  else if !s.host.evWait.isEmpty then s.modHost fun x => { x with evWait := x.evWait ++ [(r, h)] }
  else if s.host.reserveUsed + 32 ≤ 4096 then s.putEvent r h true
  else if 32 ≤ s.restRoom then s.putEvent r h false
  else s.modHost fun x => { x with evWait := [(r, h)] }

/-- An engine-originated event to a ring: written, held, or lost and counted (R453). -/
def State.postTo (s : State) (r : Nat) (e : Event) (vector : Option Nat) : State :=
  let h : Held := ⟨e, vector.getD (1 + r)⟩
  if (Tab.get [] s.host.holding r).isEmpty && s.evRoom r then s.writeEvent r h else s.hold r h

/-- An engine-originated event of a class (R451, R452). -/
def State.post (s : State) (c : EvClass) (vector : Option Nat) (e : Event) : State := s.postTo (s.ringOf c) e vector

/-- An event whose SI is the P-domain SI at which it is recorded (R451). -/
def State.postNow (s : State) (c : EvClass) (vector : Option Nat) (code : Nat) (body : List Nat) : State :=
  s.post c vector { code := code, si := (s.dom 0).si, body := body }

/-! ### Completions (R439, R448) -/

/-- A command finishes: its completion waits for COMMAND_COMPLETION. -/
def State.finish (s : State) (h : CmdHdr) (opcode : Nat) (st : Status) (detail si result : Nat) : State :=
  s.modHost fun x => { x with done := x.done ++ [⟨h, opcode, st, detail, si, result, false⟩] }

/-- A refusal with its detail word (R437): the offset of the failing field and the index of the failing item. -/
def State.refuse (s : State) (h : CmdHdr) (opcode : Nat) (st : Status) (offset item : Nat) : State :=
  s.finish h opcode st (offset % 256 + item * 256) 0 0

/-- A command finishes with OK and nothing to report. -/
def State.ok (s : State) (h : CmdHdr) (opcode : Nat) : State := s.finish h opcode .ok 0 0 0

/-- An interim DEFERRED completion (R439). -/
def State.defer (s : State) (h : CmdHdr) (opcode : Nat) : State :=
  s.modHost fun x => { x with done := x.done ++ [⟨h, opcode, .deferred, 0, 0, 0, true⟩] }

/-- Bytes of program staging in use (R329, R444): the programs it holds, and the lengths of the images that are on their way. -/
def State.stagedBytes (s : State) : Nat :=
  (s.sched.programs.map (·.bytes)).sum +
    ((s.host.transfers.filter fun t => t.opcode == 0x0500 || t.opcode == 0x0600).map (·.length)).sum

/-- Program staging has room for an image (R329). -/
def State.stagingFits (s : State) (bytes : Nat) : Bool := decide (s.stagedBytes + bytes ≤ 2 ^ 28)

/-- The first 12 bytes of an identity digest, as a membership list holds them (R744). -/
def listDigest (identity : Nat) : Nat := identity % 2 ^ 96

/-- This device's DEVNUM (R45). -/
def State.devnum (s : State) : Nat := s.get Reg.WL_DEVNUM_DEVNUM

/-- A port of the Wamund link. -/
def State.wlp (s : State) (p : Nat) : WlPort := Tab.get {} s.wl.ports p
def State.modWl (s : State) (p : Nat) (f : WlPort → WlPort) : State :=
  { s with wl := { s.wl with ports := Tab.upd {} s.wl.ports p f } }

end Machine
end Sys2Proof
end

