-- ==== Sys2Proof/Machine/Clocks.lean ====
section
/-! DEFINITION. References, media PLLs, roast profiles, timestamps and triggers (R380–R423). -/

namespace Sys2Proof.Machine

/-! ### References and loop states -/

/-- States of an MPLL as CLK_MPLLn_STATE.STATE encodes them (R421). -/
def freeRun : Nat := 0
def acquire : Nat := 1
def locked : Nat := 2
def holdover : Nat := 3
def refLost : Nat := 4

def State.mpll (s : State) (n : Nat) : MpllSt := Tab.get {} s.time.mplls n
def State.modMpll (s : State) (n : Nat) (f : MpllSt → MpllSt) : State :=
  { s with time := { s.time with mplls := Tab.put {} s.time.mplls n (f (s.mpll n)) } }

/-- ±1,953 ppm in DCO units of 2^−40 (R394). -/
def dcoLimit : Nat := 1953 * 2 ^ 40 / 1000000

def signed32 (n : Nat) : Int := (BitVec.ofNat 32 n).toInt
def unsigned32 (i : Int) : Nat := (BitVec.ofInt 32 i).toNat

/-- A source carries time (R380): PTP, WAMUND, or FRAME as the domain it names. -/
def State.carriesTime (s : State) (n k : Nat) : Bool :=
  let src := s.get (Reg.CLK_MPLL_CAND_SRC n k)
  src == 1 || src == 5 ||
    (src == 7 && Nat.testBit (s.get Reg.TIME_STATUS_ALIGNED) (s.get (Reg.CLK_MPLL_CAND_SEL n k)))

def State.isQualified (s : State) (n k : Nat) : Bool := Nat.testBit (s.get (Reg.CLK_MPLL_QUAL_QUALIFIED n)) k

/-- A qualified candidate that may be selected: in loop mode 0 a PTP candidate never is (R393). -/
def State.eligible (s : State) (n k : Nat) : Bool :=
  s.isQualified n k && !(decide (s.get (Reg.CLK_MPLL_CTL_LOOP n) = 0) && decide (s.get (Reg.CLK_MPLL_CAND_SRC n k) = 1))

/-- The best candidate: lowest PRIO, then lowest index (R384). -/
def State.bestCandidate (s : State) (n : Nat) : Option Nat :=
  ((List.range 8).filter (s.eligible n)).foldl (fun b k =>
    match b with
    | none => some k
    | some j => if s.get (Reg.CLK_MPLL_CAND_PRIO n k) < s.get (Reg.CLK_MPLL_CAND_PRIO n j) then some k else some j) none

/-- Entry to a state: STATE, HIST and one CLK_STATE event (R392). -/
def State.enterMpll (s : State) (n st : Nat) : State :=
  ((s.put (Reg.CLK_MPLL_STATE_STATE n) st).setMask (Reg.CLK_MPLL_STATE_HIST n) st).postNow .clock (some (45 + n)) 0x20
    [n, st, s.get (Reg.CLK_MPLL_STATE_SEL n)]

/-- Entry to ACQUIRE: the bandwidth is 100 Hz (R390). -/
def State.enterAcquire (s : State) (n : Nat) : State :=
  ((s.put (Reg.CLK_MPLL_STATE_NARROW_DONE n) 0).modMpll n fun m =>
    { m with halvings := 0, inWin := 0, outWin := 0, met := false }).enterMpll n acquire

/-- A domain is unaligned (R386, R415). -/
def State.unalign (s : State) (d : Nat) : State := s.clrMask Reg.TIME_STATUS_ALIGNED d

/-- A VIDEO candidate that was not selected when it qualified: how many of its VSYNC pulses have passed since then no command shows,
and the number is a free value (R382, log entry 137). -/
def State.unseenVsyncs (s : State) (n k : Nat) : State :=
  if s.get (Reg.CLK_MPLL_CAND_SRC n k) = 4 then
    (s.modMpll n fun m => { m with vsyncs := Tab.put 0 m.vsyncs k s.free.toNat, opened := none }).take
  else s

/-- A candidate becomes the selected reference (R384, R385, R386): a change of reference leaves the domain unaligned, and a
reference that carries time ends local time. -/
def State.selectCandidate (s : State) (n k : Nat) : State :=
  let s1 := ((s.put (Reg.CLK_MPLL_STATE_SEL n) k).set (Reg.CLK_MPLL_STATE_SEL_VALID n)).modMpll n fun m => { m with bias := 0 }
  let s2 := s1.unalign n
  let s3 := if s.get (Reg.CLK_MPLL_CAND_SRC n k) = 1 ∨ s.get (Reg.CLK_MPLL_CAND_SRC n k) = 5 then
    s2.put Reg.TIME_STATUS_LOCAL 0 else s2
  s3.enterAcquire n

/-- The MPLL of a domain that is not configured is stopped; that of domain P runs whenever the engine does (R376, R379). -/
def State.mpllRuns (s : State) (n : Nat) : Bool := n == 0 || (s.dom n).configured

/-- The frame rates that AES_RXn_STATUS.RATE names (R586). -/
def aesRates : List Nat := [32000, 44100, 48000, 88200, 96000, 176400, 192000]

/-- The rate that a candidate's PARAM gives its source: that of the domain, half of it or twice it (R381). -/
def State.sourceRate (s : State) (n k : Nat) : Nat :=
  match s.get (Reg.CLK_MPLL_CAND_PARAM n k) with
  | 1 => (s.dom n).rate / 2
  | 2 => 2 * (s.dom n).rate
  | _ => (s.dom n).rate

/-- A TIME cell that its port's candidates of domain `n` may follow (R383, R547): a peer that is aligned, fewer than 15 hops from its
own reference, which is not this device, at the domain's rate. -/
def State.followsTime (s : State) (n : Nat) (c : TimeCell) : Bool :=
  c.aligned && decide (c.thops < 15) && decide (c.refDev ≠ s.devnum) && decide (c.rate = (s.dom n).rate)

/-- Some pad has a function, or takes it at the end of its park (R828, R829). -/
def State.padHas (s : State) (fn : Nat) : Bool :=
  (List.range 32).any fun k => Tab.get none s.pins.parked k == some fn || ((Tab.get none s.pins.parked k).isNone && Tab.get 0 s.pins.fn k == fn)

/-- What the engine's own state shows of a candidate's loss (R380, R383, R547): a port in SLAVE for PTP, a receiver locked at the
candidate's rate for AES3, a TIME cell that may be followed for WAMUND, a pad with its function for WCLK and VIDEO (R828), and for FRAME
a configured domain. -/
def State.mayQualify (s : State) (n k : Nat) : Bool :=
  let sel := s.get (Reg.CLK_MPLL_CAND_SEL n k)
  match s.get (Reg.CLK_MPLL_CAND_SRC n k) with
  | 1 => (List.range 3).any fun p => decide (s.get (Reg.TIME_PTP_PORT_PSTATE p) = 9)
  | 3 => decide (2 ≤ s.get (Reg.AES_RX_STATUS_LOCK sel)) && decide (aesRates.getD (s.get (Reg.AES_RX_STATUS_RATE sel)) 0 = s.sourceRate n k)
  | 5 => match (s.wlp sel).peerTime with
    | some t => s.followsTime n t.1
    | none => false
  | 7 => (s.dom sel).configured
  | 2 => s.padHas 3
  | 4 => s.padHas 4 && s.padHas 5
  | src => src == 6

/-- R383, R384, R387. An MPLL that start-up runs on REF_XO has no selected candidate (R715); one that is stopped selects none
(R379). -/
def execCandidateQualified (n : Fin 3) (k : Fin 8) (s : State) : Out :=
  if s.mayQualify n.val k.val then
    let s1 := s.setMask (Reg.CLK_MPLL_QUAL_QUALIFIED n.val) k.val
    let st := s.get (Reg.CLK_MPLL_STATE_STATE n.val)
    if s.mpllRuns n.val = false then .next s1
    else if (st = acquire ∨ st = locked) ∧ s.bit (Reg.CLK_MPLL_STATE_SEL_VALID n.val) = true then .next s1
    else
      match s1.bestCandidate n.val with
      | some b =>
        .next (if b = k.val then
          (s1.selectCandidate n.val b).modMpll n.val fun m => { m with vsyncs := Tab.put 0 m.vsyncs b 0, opened := none }
        else (s1.unseenVsyncs n.val b).selectCandidate n.val b)
      | none => .next s1
  else .next s

/-- The mean DCO word of the last AVG seconds of LOCKED (R391); a mean that is no whole number rounds to one of its
neighbours, which the manual leaves open (log entry 3). -/
def State.holdoverWord (s : State) (n : Nat) : Int :=
  let since := (s.dom 0).si - s.get (Reg.CLK_MPLL_HOLD_AVG n) * (s.dom 0).rate
  let l := ((s.mpll n).words.filter fun w => decide (since ≤ w.1)).map (·.2)
  if l.isEmpty then signed32 (s.get (Reg.CLK_MPLL_DCO_WORD n))
  else
    let t := l.sum
    if t % (l.length : Int) = 0 then t / (l.length : Int) else t / (l.length : Int) + (s.free.toNat % 2 : Nat)

/-- The selected reference has gone (R387). -/
def State.loseReference (s : State) (n : Nat) : State :=
  match s.bestCandidate n with
  | some b => (s.unseenVsyncs n b).selectCandidate n b
  | none =>
    let s1 := s.put (Reg.CLK_MPLL_STATE_SEL_VALID n) 0
    let st := s.get (Reg.CLK_MPLL_STATE_STATE n)
    if st = locked ∧ (s.mpll n).lockedAt + (s.dom 0).rate ≤ (s.dom 0).si then
      let s2 := if s.get (Reg.CLK_MPLL_CTL_LOOP n) = 2 then s1
        else (s1.put (Reg.CLK_MPLL_DCO_WORD n) (unsigned32 (s.holdoverWord n))).take
      s2.enterMpll n holdover
    else if st = locked ∨ st = acquire then s1.enterMpll n refLost
    else s1

/-- A candidate is disqualified (R383). -/
def State.disqualify (s : State) (n k : Nat) : State :=
  if s.isQualified n k then
    let s1 := (s.clrMask (Reg.CLK_MPLL_QUAL_QUALIFIED n) k).setMask (Reg.CLK_MPLL_QUAL_DISQ n) k
    if s.bit (Reg.CLK_MPLL_STATE_SEL_VALID n) && decide (s.get (Reg.CLK_MPLL_STATE_SEL n) = k) then s1.loseReference n
    else s1
  else s

/-- The candidates of one source are disqualified, in every MPLL. -/
def State.disqualifyAll (s : State) (bad : State → Nat → Nat → Bool) : State :=
  s.each (List.range 3) fun n t => t.each (List.range 8) fun k u => if bad u n k then u.disqualify n k else u

/-- The AES3 candidates of a receiver are lost: no lock, or a channel-status CRC error (R383). -/
def State.loseAes (s : State) (r : Nat) : State :=
  s.disqualifyAll fun u n k => u.get (Reg.CLK_MPLL_CAND_SRC n k) == 3 && u.get (Reg.CLK_MPLL_CAND_SEL n k) == r

/-- The candidates of SRC 7 that name a domain which is no longer configured are lost (R380). -/
def State.loseFrames (s : State) : State :=
  s.disqualifyAll fun u n k => u.get (Reg.CLK_MPLL_CAND_SRC n k) == 7 && !u.mayQualify n k

/-- The MPLL of a domain that is first configured starts: it selects the best candidate that is qualified, and else runs free (R379,
R384, R387). -/
def State.startMpll (s : State) (n : Nat) : State :=
  match s.bestCandidate n with
  | some b => (s.unseenVsyncs n b).selectCandidate n b
  | none => s

/-- The MPLL of a domain that is no longer configured stops (R379): nothing is selected, and STATE reads FREE_RUN (log entry 150). -/
def State.stopMpll (s : State) (n : Nat) : State :=
  ((((s.put (Reg.CLK_MPLL_STATE_STATE n) freeRun).put (Reg.CLK_MPLL_STATE_SEL_VALID n) 0).put (Reg.CLK_MPLL_STATE_NARROW_DONE n) 0).modMpll n
    fun m => { m with halvings := 0, inWin := 0, outWin := 0, met := false, everLocked := false, words := [], profile := [], offset := 0 }).unalign n

def execCandidateLoss (n : Fin 3) (k : Fin 8) (s : State) : Out := .next (s.disqualify n.val k.val)

/-- R384: with REVERT, a better candidate that has stayed qualified for WTR more seconds. -/
def execRevertWtrExpiry (n : Fin 3) (k : Fin 8) (s : State) : Out :=
  let cur := s.get (Reg.CLK_MPLL_STATE_SEL n.val)
  if s.mpllRuns n.val && s.bit (Reg.CLK_MPLL_CTL_REVERT n.val) && s.eligible n.val k.val && s.bit (Reg.CLK_MPLL_STATE_SEL_VALID n.val) &&
      decide (s.get (Reg.CLK_MPLL_CAND_PRIO n.val k.val) < s.get (Reg.CLK_MPLL_CAND_PRIO n.val cur)) then
    .next ((s.unseenVsyncs n.val k.val).selectCandidate n.val k.val)
  else .next s

/-- A candidate register at SRC NONE, and all of them so: FREE_RUN (R387). -/
def State.allNone (s : State) (n : Nat) : Bool :=
  (List.range 8).all fun k => decide (s.get (Reg.CLK_MPLL_CAND_SRC n k) = 0)

/-- What a change of a candidate register does to the loop (R383, R387): the candidate must qualify again. -/
def State.candidateChanged (s : State) (n k : Nat) : State :=
  let s1 := s.disqualify n k
  if s1.allNone n && decide (s1.get (Reg.CLK_MPLL_STATE_STATE n) ≠ freeRun) then
    (s1.put (Reg.CLK_MPLL_STATE_SEL_VALID n) 0).enterMpll n freeRun
  else s1

/-- R382: a VSYNC pulse of the selected VIDEO reference. The first after qualification has number 0, and the first of each sequence
of PARAM[15:13] video frames is the alignment point, at the present SI of the domain. A length of 0, which R381 does not allow, counts
as 1 (log entry 137). -/
def State.vsync (s : State) (n : Nat) : State :=
  let k := s.get (Reg.CLK_MPLL_STATE_SEL n)
  if s.bit (Reg.CLK_MPLL_STATE_SEL_VALID n) && decide (s.get (Reg.CLK_MPLL_CAND_SRC n k) = 4) then
    let len := max 1 (s.get (Reg.CLK_MPLL_CAND_PARAM n k) / 2 ^ 13 % 8)
    s.modMpll n fun m =>
      let v := Tab.get 0 m.vsyncs k
      { m with vsyncs := Tab.put 0 m.vsyncs k (v + 1), opened := if v % len = 0 then some (s.dom n).si else m.opened }
  else s

/-- BCLK and FS of a master group run from the first lock of its MPLL, whatever its ports do (R566). -/
def State.masterClocks (s : State) : State :=
  s.each (List.range 4) fun g t =>
    let d := t.get (Reg.APG_CFG_DOMAIN g)
    if t.bit (Reg.APG_CFG_MASTER g) && decide (d < 3) then
      let t1 := t.putBit (Reg.APG_STATUS_CLK_OK g) (t.mpll d).everLocked
      if (t.mpll d).everLocked then t1.put (Reg.APG_STATUS_MEAS_RATE g) (t.dom d).rate else t1
    else t

/-- R388, R389, R393, R394: one comparison; the loop or the Ritadom core writes the DCO word except in host mode. -/
def execMpllComparison (n : Fin 3) (p : PhaseSample) (word : Int) (s : State) : Out :=
  if s.mpllRuns n.val = false then .next s else
  let win := s.get (Reg.CLK_MPLL_LOCK_WIN n.val)
  let err := p.err
  let s1 := (if p.vsync then s.vsync n.val else s).put (Reg.CLK_MPLL_PHERR_ERR n.val) (unsigned32 err)
  let held : Int := if word < -(dcoLimit : Int) then -(dcoLimit : Int) else if (dcoLimit : Int) < word then dcoLimit else word
  let s2 := if s.get (Reg.CLK_MPLL_CTL_LOOP n.val) = 2 then s1 else s1.put (Reg.CLK_MPLL_DCO_WORD n.val) (unsigned32 held)
  .next (s2.modMpll n.val fun m =>
    let k := if err.natAbs ≤ win then m.inWin + 1 else 0
    { m with inWin := k, outWin := if 8 * win < err.natAbs then m.outWin + 1 else 0,
             met := m.met || decide (s.get (Reg.CLK_MPLL_LOCK_N n.val) ≤ k),
             words := if s.get (Reg.CLK_MPLL_STATE_STATE n.val) = locked then
               ((s.dom 0).si, signed32 (s2.get (Reg.CLK_MPLL_DCO_WORD n.val))) ::
                 m.words.filter fun w => decide ((s.dom 0).si ≤ w.1 + s.get (Reg.CLK_MPLL_HOLD_AVG n.val) * (s.dom 0).rate)
               else [] })

/-- R388. -/
def execLockCriterion (n : Fin 3) (s : State) : Out :=
  if s.mpllRuns n.val = true ∧ s.get (Reg.CLK_MPLL_STATE_STATE n.val) = acquire ∧ (s.mpll n.val).met = true then
    .next ((s.modMpll n.val fun m => { m with lockedAt := (s.dom 0).si, outWin := 0, words := [], everLocked := true }).masterClocks.enterMpll
      n.val locked)
  else .next s

/-- R389. -/
def execPhaseExcursion (n : Fin 3) (s : State) : Out :=
  if s.mpllRuns n.val = true ∧ s.get (Reg.CLK_MPLL_STATE_STATE n.val) = locked ∧ 16 ≤ (s.mpll n.val).outWin then
    .next ((s.set (Reg.CLK_MPLL_STATE_UNLOCK n.val)).enterAcquire n.val)
  else .next s

/-- R390: in 0.01 Hz, the bandwidth is 10,000 / 2^halvings, never below FINAL. -/
def execBandwidthHalving (n : Fin 3) (s : State) : Out :=
  let m := s.mpll n.val
  let final := s.get (Reg.CLK_MPLL_BW_FINAL n.val)
  let st := s.get (Reg.CLK_MPLL_STATE_STATE n.val)
  if s.mpllRuns n.val = true ∧ (st = acquire ∨ st = locked) ∧ s.get (Reg.CLK_MPLL_LOCK_N n.val) ≤ m.inWin ∧
      final * 2 ^ m.halvings < 10000 then
    let s1 := s.modMpll n.val fun m => { m with halvings := m.halvings + 1, inWin := 0 }
    .next (if 10000 ≤ final * 2 ^ (m.halvings + 1) then s1.set (Reg.CLK_MPLL_STATE_NARROW_DONE n.val) else s1)
  else .next s

/-- R394: accepted in host mode and in range, else discarded. -/
def execClkMpllDcoWrite (n : Fin 3) (word : BitVec 32) (s : State) : Out := s.ifRestored (0x2110 + 256 * n.val) (s.get (Reg.CLK_MPLL_DCO_WORD n.val) != word.toNat) <|
  if s.get (Reg.CLK_MPLL_DCO_WORD n.val) = word.toNat then .next s
  else if s.get (Reg.CLK_MPLL_CTL_LOOP n.val) = 2 ∧ word.toInt.natAbs ≤ dcoLimit then
    .next (s.put (Reg.CLK_MPLL_DCO_WORD n.val) word.toNat)
  else .next (s.set Reg.CLK_STATUS_CFG_REJ)

/-! ### Roast profiles (R398–R401) -/

/-- The segments in the registers of a profile. -/
def State.roastSegments (s : State) (n : Nat) : List (Nat × Int) :=
  (List.range (s.get (Reg.CLK_ROAST_NSEG_NSEG n))).map fun k =>
    (s.get (Reg.CLK_ROAST_SEG_LEN_LEN n k), signed32 (s.get (Reg.CLK_ROAST_SEG_END_END n k)))

/-- R400. -/
def execRoastStart (n : Fin 3) (s : State) : Out := s.ifHost <|
  let nseg := s.get (Reg.CLK_ROAST_NSEG_NSEG n.val)
  let l := s.roastSegments n.val
  if nseg = 0 ∨ 16 < nseg ∨ l.any (fun g => decide (dcoLimit < g.2.natAbs)) ∨
      s.get (Reg.CLK_ROAST_STATUS_STATE n.val) ≠ 0 ∨ (s.mpll n.val).glideNext = true then
    .next (s.set (Reg.CLK_ROAST_STATUS_ROAST_REJ n.val))
  else
    let a := s.get (Reg.CLK_ROAST_START_SI_SI n.val)
    let d := s.dom n.val
    .next ((s.put (Reg.CLK_ROAST_STATUS_STATE n.val) 1).modMpll n.val fun m =>
      { m with profile := l, startAt := a, lateTo := if a ≤ d.si then some (d.si + d.block) else none })

/-- One ROAST_DONE event (R400). -/
def State.roastDone (s : State) (n : Nat) : State :=
  (((s.put (Reg.CLK_ROAST_STATUS_STATE n) 0).put (Reg.CLK_ROAST_STATUS_SEG n) 0).clrMask Reg.TIME_STATUS_GLIDING n).postNow
    .clock (some 51) 0x26 [n]

/-- FRAME ticks of a segment of some samples. -/
def State.segmentTicks (s : State) (n len : Nat) : Nat :=
  len * 512 * (if (s.dom n).rate % 11025 = 0 then 88200 else 96000) / (s.dom n).rate

/-- What the first `ticks` FRAME ticks of a segment of `total` ticks add to the phase integral, in half units: the offsets in force at
the end of each tick, summed (R398, R399, log entry 152). -/
def segmentPhase (start fin : Int) (total ticks : Nat) : Int :=
  2 * start * (ticks : Int) + (fin - start) * (ticks * (ticks + 1) : Nat) / (max 1 total : Nat)

/-- The offset in force some FRAME ticks into a segment (R398): a fraction of a DCO unit goes to one of its neighbours,
which the manual leaves open (log entry 3). -/
def State.offsetAt (s : State) (n ticks : Nat) : Int :=
  let m := s.mpll n
  match m.profile with
  | [] => m.offset
  | (len, fin) :: _ =>
    let total := s.segmentTicks n len
    if total ≤ ticks then fin
    else
      let q := (fin - m.offset) * (ticks : Int)
      if q % (total : Int) = 0 then m.offset + q / (total : Int)
      else m.offset + q / (total : Int) + (s.free.toNat % 2 : Nat)

/-- The phase integral of a running profile after some FRAME ticks of its segment (R399). -/
def State.phaseAt (s : State) (n ticks : Nat) : BitVec 64 :=
  let m := s.mpll n
  match m.profile with
  | [] => m.phase
  | (len, fin) :: _ =>
    let total := s.segmentTicks n len
    m.phase + BitVec.ofInt 64 (segmentPhase m.offset fin total (min ticks total))

/-- R400: a running profile ends, and the offset in force is held. -/
def execRoastAbort (n : Fin 3) (ticks : Nat) (s : State) : Out := s.ifHost <|
  if s.get (Reg.CLK_ROAST_STATUS_STATE n.val) = 2 then
    let o := s.offsetAt n.val ticks
    .next ((((s.take.modMpll n.val fun m => { m with offset := o, profile := [], phase := s.phaseAt n.val ticks }).modDom n.val fun d =>
      { d with pull := o })).roastDone n.val)
  else .next s

/-- R399, R415: at a frame boundary an armed profile whose START_SI has come, or a planned glide, begins; one whose boundary had begun
to be handled when it was armed begins late at the boundary that followed. -/
def execRoastProfileBegin (n : Fin 3) (s : State) : Out :=
  let d := s.dom n.val
  let m := s.mpll n.val
  let start := m.lateTo.getD m.startAt
  if (s.mpll n.val).glideNext then
    .next (((s.put (Reg.CLK_ROAST_STATUS_STATE n.val) 3).setMask Reg.TIME_STATUS_GLIDING n.val).modMpll n.val fun m =>
      { m with glideNext := false, phase := 0 })
  else if s.get (Reg.CLK_ROAST_STATUS_STATE n.val) = 1 ∧ start ≤ d.si then
    let s1 := ((s.put (Reg.CLK_ROAST_STATUS_STATE n.val) 2).put (Reg.CLK_ROAST_STATUS_SEG n.val) 0).modMpll n.val fun m => { m with phase := 0 }
    .next (if m.lateTo.isSome ∨ start + d.block ≤ d.si then s1.set (Reg.CLK_ROAST_STATUS_LATE n.val) else s1)
  else .next s

/-- R398, R401: the segment's end offset is in force; after the last one it stays, and a final offset other than 0 is a
pull. -/
def execRoastSegmentEnd (n : Fin 3) (s : State) : Out :=
  let st := s.get (Reg.CLK_ROAST_STATUS_STATE n.val)
  match (s.mpll n.val).profile with
  | [] => .next s
  | (len, fin) :: rest =>
    if st = 2 ∨ st = 3 then
      let s1 := s.modMpll n.val fun m =>
        { m with profile := rest, offset := fin, phase := s.phaseAt n.val (s.segmentTicks n.val len) }
      if rest.isEmpty then .next ((s1.modDom n.val fun d => if st = 2 then { d with pull := fin } else d).roastDone n.val)
      else .next (s1.put (Reg.CLK_ROAST_STATUS_SEG n.val) (s.get (Reg.CLK_ROAST_STATUS_SEG n.val) + 1))
    else .next s

/-! ### Alignment -/

/-- R415: locked on a reference that carries time, with no glide running. -/
def execAlignComplete (d : Fin 3) (s : State) : Out :=
  if s.get (Reg.CLK_MPLL_STATE_STATE d.val) = locked ∧ s.bit (Reg.CLK_MPLL_STATE_SEL_VALID d.val) = true ∧
      s.carriesTime d.val (s.get (Reg.CLK_MPLL_STATE_SEL d.val)) = true ∧
      Nat.testBit (s.get Reg.TIME_STATUS_GLIDING) d.val = false ∧ (s.mpll d.val).glideNext = false then
    .next ((s.setMask Reg.TIME_STATUS_ALIGNED d.val).postNow .clock (some 51) 0x25 [d.val])
  else .next s

/-- The offset δ in units of 2^−16 samples as J, halves toward zero, and the remainder r in the same units (R415). -/
def splitOffset (block : Nat) (delta : Int) : Int × Int :=
  let u := block * 2 ^ 16
  let q := (2 * delta.natAbs + u - 1) / (2 * u)
  let j : Int := if delta < 0 then -(q : Int) else q
  (j, delta - j * (u : Int))

/-- The three segments of an alignment glide that gains r (R415): two ramps of RAMP_MS, which together gain RAMP_MS at the
full offset, and the hold that gains the rest, rounded to whole samples. -/
def State.glideFor (s : State) (d : Nat) (r : Int) : List (Nat × Int) :=
  let ppm := s.get Reg.TIME_ALIGN_CFG_GLIDE_PPM
  let ramp := s.samplesMs d (s.get Reg.TIME_ALIGN_CFG_RAMP_MS)
  let word : Nat := (2 * ppm * 2 ^ 40 + 1000000) / 2000000
  let den := 2 ^ 16 * ppm
  let num := r.natAbs * (if r < 0 then 1000000 - ppm else 1000000 + ppm)
  let hold : Nat := (2 * num + den) / (2 * den) - ramp
  let w : Int := if r < 0 then -(word : Int) else word
  [(ramp, w), (hold, w), (ramp, 0)]

/-! ### Timestamps, triggers, snapshots -/

/-- A transmit stamp enters its queue; one that finds it full is discarded and counted (R411, R412). -/
def State.pushStamp (s : State) (x : Nat) (t : TxStamp) : State :=
  let q := Tab.get [] s.time.tsq x
  if q.length < 16 then
    ({ s with time := { s.time with tsq := Tab.put [] s.time.tsq x (q ++ [t]) } }).put (Reg.TIME_TSQ_COUNT x) (q.length + 1)
  else
    let s1 := ((s.set (Reg.TIME_TSQ_TSQ_OVF x)).bump (Reg.TIME_TSQ_DROPPED x)).postNow .clock (some 50) 0x23 [x]
    if t.requested then
      s1.post .clock (some 50) { code := 0x24, status := .aborted, si := (s.dom 0).si, body := [x, t.id] }
    else s1

/-- R412: the queue is drained, and each stamp that host software requested is posted. -/
def execTxStampDrain (x : Fin 3) (s : State) : Out :=
  let q := Tab.get [] s.time.tsq x.val
  let s1 := ({ s with time := { s.time with tsq := Tab.put [] s.time.tsq x.val [] } }).put (Reg.TIME_TSQ_COUNT x.val) 0
  .next (s1.each (q.filter (·.requested)) fun t u => u.postNow .clock (some 50) 0x24 [x.val, t.id, t.stamp])

/-- R408, R410, R413: one message on a port with PTP enabled; an event message is stamped with its egress latency. -/
def execPtpMessageTx (x : Fin 3) (isEvent : Bool) (id : BitVec 16) (requested : Bool) (stamp : Nat) (s : State) : Out :=
  if s.bit (Reg.TIME_PTP_PORT_EN x.val) then
    let s1 : State := { s with time := { s.time with
      ptpSent := s.time.ptpSent + 1,
      ptpTlv := s.time.ptpTlv + if s.bit Reg.TIME_PTP_CFG_AUTH then 1 else 0 } }
    let s2 := s1.bump (Reg.NET_TX_FRAMES_COUNT x.val)
    .next (if isEvent then s2.pushStamp x.val ⟨id.toNat, stamp + s.get (Reg.TIME_PORT_LAT_EGRESS x.val), requested⟩ else s2)
  else .next s

/-- R383, R392, R408: a port's state or the grandmaster has changed; with no port left in SLAVE the PTP candidates are
lost. -/
def execPtpPortStateChange (x : Fin 3) (pstate : Fin 10) (gm : Bool) (s : State) : Out :=
  if pstate.val = 0 ∨ (s.bit Reg.TIME_PTP_CFG_SLAVE_ONLY = true ∧ pstate.val = 6) then .next s
  else
    let s1 := (s.put (Reg.TIME_PTP_PORT_PSTATE x.val) pstate.val).postNow .clock (some 49) 0x22
      [x.val, pstate.val, if gm then 1 else 0]
    let slave := (List.range 3).any fun p => decide (s1.get (Reg.TIME_PTP_PORT_PSTATE p) = 9)
    if slave then .next s1
    else .next (s1.disqualifyAll fun u n k => u.get (Reg.CLK_MPLL_CAND_SRC n k) == 1)

/-- R420: the trigger takes the SI and domain now in its registers. -/
def execTriggerArm (k : Fin 8) (domain : Fin 4) (s : State) : Out := s.ifHost <|
  if domain.val = 3 then .next (s.set Reg.TIME_STATUS_CFG_REJ)
  else
    let si := s.get (Reg.TIME_TRIG_SI_SI k.val)
    let d := s.dom domain.val
    let late := if si ≤ d.si then some (d.si + d.block) else none
    let s1 := (s.put (Reg.TIME_TRIG_CTL_DOMAIN k.val) domain.val).set (Reg.TIME_TRIG_CTL_ARMED k.val)
    .next { s1 with time := { s1.time with trigs := Tab.put none s1.time.trigs k.val (some (domain.val, si, late)) } }

/-- R420. -/
def execTriggerCancel (k : Fin 8) (s : State) : Out := s.ifHost <|
  let s1 := s.put (Reg.TIME_TRIG_CTL_ARMED k.val) 0
  .next { s1 with time := { s1.time with trigs := Tab.put none s1.time.trigs k.val none } }

/-- R420: at the domain's first frame boundary at or after the SI; late, at the boundary that followed its arming. -/
def execTriggerFire (k : Fin 8) (s : State) : Out :=
  match Tab.get none s.time.trigs k.val with
  | none => .next s
  | some (d, si, late) =>
    if late.getD si ≤ (s.dom d).si then
      let s1 := (s.put (Reg.TIME_TRIG_CTL_ARMED k.val) 0).set (Reg.TIME_TRIG_CTL_FIRED k.val)
      let s2 := if late.isSome then s1.set (Reg.TIME_TRIG_CTL_LATE k.val) else s1
      let s3 : State := { s2 with time := { s2.time with trigs := Tab.put none s2.time.trigs k.val none } }
      .next (s3.post .clock (some 52) { code := 0x27, si := si, body := [k.val, si] })
    else .next s

/-- The PTP counter at an instant given in 1/16 ns (R409). -/
def ptpClockOf (t : Nat) : PtpClock :=
  { sec := BitVec.ofNat 48 (t / 16000000000), ns := BitVec.ofNat 30 (t / 16 % 1000000000), frac := BitVec.ofNat 4 (t % 16) }

def State.setClock (s : State) (c : PtpClock) : State := { s with time := { s.time with clock := c } }

/-- The servo steps the PTP counter: every domain that follows PTP is unaligned, and its alignment procedure follows (R409, R415). -/
def State.stepClock (s : State) (t : Nat) : State :=
  (s.setClock (ptpClockOf t)).each (List.range 3) fun d u =>
    if u.bit (Reg.CLK_MPLL_STATE_SEL_VALID d) && decide (u.get (Reg.CLK_MPLL_CAND_SRC d (u.get (Reg.CLK_MPLL_STATE_SEL d))) = 1) then u.unalign d
    else u

/-- R422, R802: the shadow set, all from one FABRIC cycle: the PTP counter then, and each domain's SI, so many samples into
its frame period. -/
def execTimeSnap (sec : BitVec 48) (ns : BitVec 30) (frac : BitVec 4) (sp ss st : Nat) (s : State) : Out := s.ifHost <|
  let s1 := (((s.setClock ⟨sec, ns, frac⟩).put Reg.TIME_NOW_SEC_SEC sec.toNat).put Reg.TIME_NOW_NS_NS ns.toNat).put Reg.TIME_NOW_FRAC_FRAC frac.toNat
  let si (d k : Nat) : Nat := (s.dom d).si + k % (s.dom d).block
  .next (((s1.put (Reg.TIME_SI_SI 0) (si 0 sp)).put (Reg.TIME_SI_SI 1) (si 1 ss)).put (Reg.TIME_SI_SI 2) (si 2 st))

end Sys2Proof.Machine
end

