-- ==== Sys2Proof/Machine/Modules.lean ====
section
/-! DEFINITION. The Module Identity Record and the verdict on a module (R627–R640). -/

namespace Sys2Proof.Machine

/-- A little-endian field of a record. -/
def field (l : List Byte) (off n : Nat) : Nat := bytesToNat ((l.drop off).take n)

/-! ### CRC-32 (R632) -/

def crc32Bit (c : Nat) : Nat := if c % 2 = 1 then Nat.xor (c / 2) 0xEDB88320 else c / 2

def crc32Byte (c : Nat) (b : Byte) : Nat := (List.range 8).foldl (fun c _ => crc32Bit c) (Nat.xor c b.toNat)

/-- CRC-32 with the IEEE 802.3 polynomial. -/
def crc32 (l : List Byte) : Nat := Nat.xor (l.foldl crc32Byte 0xFFFFFFFF) 0xFFFFFFFF

/-! ### The record (R632–R636) -/

/-- The entries of a capability block, as type and value; none when one runs past its end. -/
def capEntries : Nat → List Byte → Option (List (Nat × List Byte))
  | 0, l => if l.isEmpty then some [] else none
  | _ + 1, [] => some []
  | _ + 1, [_] => none
  | n + 1, t :: k :: rest =>
    if rest.length < k.toNat then none else (capEntries n (rest.drop k.toNat)).map ((t.toNat, rest.take k.toNat) :: ·)

def mirCaps (l : List Byte) : Option (List (Nat × List Byte)) :=
  capEntries (field l 34 2) ((l.drop (field l 32 2)).take (field l 34 2))

/-- The value of the first capability entry of a type; empty when there is none. -/
def mirCap (l : List Byte) (t : Nat) : List Byte :=
  match (mirCaps l).bind fun c => c.find? fun e => e.1 == t with
  | some e => e.2
  | none => []

def mirFlagSe (l : List Byte) : Bool := field l 5 1 % 2 == 1
def mirClass (l : List Byte) : Nat := field l 8 2
def mirSigOff (l : List Byte) : Nat := field l 40 2
def mirKeyId (l : List Byte) : Nat := field l (mirSigOff l) 8

/-- Faders of a fader module (R634). -/
def mirFaders (l : List Byte) : Nat := field (mirCap l 2) 0 1
def mirMotor (l : List Byte) : Bool := field (mirCap l 2) 1 1 % 2 == 1
def mirTouch (l : List Byte) : Bool := field (mirCap l 2) 1 1 / 2 % 2 == 1

/-- RAW_MIN and RAW_MAX of a fader (R635). -/
def mirCal (l : List Byte) (i : Nat) : Nat × Nat :=
  (field l (field l 36 2 + 4 * i) 2, field l (field l 36 2 + 4 * i + 2) 2)

/-- A block lies between byte 64 and the signature block. -/
def blockIn (l : List Byte) (off len : Nat) : Bool :=
  len == 0 || (decide (64 ≤ off) && decide (off + len ≤ mirSigOff l))

/-- Each entry of a type that the engine reads has its form (R634). -/
def capOk (e : Nat × List Byte) : Bool :=
  match e.1 with
  | 1 => e.2.length == 4
  | 2 => e.2.length == 10 && decide (1 ≤ field e.2 0 1) && decide (field e.2 0 1 ≤ 8) &&
      (field e.2 1 1 % 2 == 0 || field e.2 1 1 / 2 % 2 == 1)
  | 3 => e.2.length == 96
  | 4 => e.2.length == 2
  | _ => true

/-- R636: the record is not INVALID. -/
def mirOk (l : List Byte) : Bool :=
  let sig := mirSigOff l
  field l 0 4 == 0x4A4D4944 && field l 4 1 == 2 && decide (field l 5 1 ≤ 1) && field l 6 2 == l.length &&
  decide (256 ≤ l.length) && decide (l.length ≤ 4096) && l.length % 16 == 0 &&
  blockIn l (field l 32 2) (field l 34 2) && blockIn l (field l 36 2) (field l 38 2) &&
  sig % 8 == 0 && decide (64 ≤ sig) && decide (sig + 104 ≤ l.length) && field l 42 18 == 0 &&
  (l.drop (sig + 104)).all (· == 0) &&
  field l 60 4 == crc32 (((l.take 60) ++ [0, 0, 0, 0] ++ (l.drop 64)).take sig) &&
  (match mirCaps l with
   | none => false
   | some c => c.all capOk) &&
  (mirClass l != 1 || (decide (4 * mirFaders l ≤ field l 38 2) &&
    (List.range (mirFaders l)).all fun i => decide ((mirCal l i).1 + 1024 ≤ (mirCal l i).2)))

/-- The class index of R633. -/
def classIndex (c : Nat) : Nat :=
  match c with
  | 0x0001 => 0 | 0x0002 => 1 | 0x0010 => 2 | 0x0011 => 3 | 0x0020 => 4 | 0x0021 => 5 | 0x0030 => 6 | 0x0040 => 7 | _ => 15

/-- The verdict, as coded in R659, by the steps of R637; `needSe` is the owner's requirement for the class. -/
def verdictOf (keys : List Nat) (needSe : Bool) (r : ModuleRead) : Nat :=
  if !r.answers then 7
  else if !mirOk r.mir then 2
  else if !(r.keyKnown || keys.contains (mirKeyId r.mir)) then 3
  else if !r.sigOk then 4
  else if needSe && !(mirFlagSe r.mir && (mirCap r.mir 3).length == 96) then 5
  else if mirFlagSe r.mir && !(r.challengeOk && (mirCap r.mir 3).length == 96) then 6
  else 1

/-- The action on a module: ACCEPT when verified, REFUSE when INVALID, else the owner's for its class (R638). -/
def State.actionOf (s : State) (v cls : Nat) : Nat :=
  if v = 1 then 0 else if v = 2 then 2 else min 2 (s.get Reg.SURF_POLICY_ACT_ACTION / 4 ^ classIndex cls % 4)

/-- The record of a slot. -/
def State.mirOf (s : State) (slot : Nat) : List Byte := Tab.get [] s.surf.mir slot

/-- A slot holds a refused module (R639). -/
def State.slotRefused (s : State) (slot : Nat) : Bool :=
  s.bit (Reg.SURF_SLOT_PRESENT slot) && s.get (Reg.SURF_SLOT_ACTION slot) == 2

/-- Serial ports, AES3 receivers and AES3 transmitters that a module attaches to, as masks. -/
def State.attach (s : State) (slot : Nat) : Nat × Nat × Nat :=
  let c := mirCap (s.mirOf slot) 1
  (field c 0 2, field c 2 1, field c 3 1)

/-- A refused module names a serial port, an AES3 receiver or a transmitter in its ATTACH (R639). -/
def State.portRefused (s : State) (p : Nat) : Bool :=
  (List.range 64).any fun k => s.slotRefused k && Nat.testBit (s.attach k).1 p
def State.aesRxRefused (s : State) (n : Nat) : Bool :=
  (List.range 64).any fun k => s.slotRefused k && Nat.testBit (s.attach k).2.1 n
def State.aesTxRefused (s : State) (n : Nat) : Bool :=
  (List.range 64).any fun k => s.slotRefused k && Nat.testBit (s.attach k).2.2 n

/-- SURF_MIR_DATA shows the selected record (R660). -/
def State.showMir (s : State) : State :=
  let l := s.mirOf (s.get Reg.SURF_MIR_SEL_SLOT)
  s.each (List.range 16) fun j t => t.put (Reg.SURF_MIR_DATA_BYTES j) (field l (s.get Reg.SURF_MIR_SEL_OFFSET + 4 * j) 4)

/-- A module is found in a slot: its record is read, its verdict reached and MODULE posted (R637–R640). -/
def State.judge (s : State) (slot : Nat) (r : ModuleRead) : State :=
  let keys := match s.trust.policy with | some p => p.moduleKeys | none => []
  let cls := if r.answers then mirClass r.mir else 0
  let idx := if r.answers then classIndex cls else 15
  let v := verdictOf keys (Nat.testBit (s.get Reg.SURF_POLICY_SE_REQ_SE) idx) r
  let a := if r.answers then s.actionOf v cls else s.actionOf v 0xFFFF
  let s1 : State := { s with surf := { s.surf with mir := Tab.put [] s.surf.mir slot (if r.answers then r.mir else []) } }
  let s2 := (((((s1.set (Reg.SURF_SLOT_PRESENT slot)).put (Reg.SURF_SLOT_VERDICT slot) v).put (Reg.SURF_SLOT_ACTION slot) a).putBit
    (Reg.SURF_SLOT_SE slot) (v == 1 && mirFlagSe r.mir)).put (Reg.SURF_SLOT_CLASS_IDX slot) idx).put (Reg.SURF_SLOT_CLASS slot) cls
  let st : Status := if v = 1 then .ok else if a = 2 then .refused else .badSignature
  s2.showMir.post .other none
    { code := 0x0142, status := st, si := (s.dom 0).si, body := [slot, v, a, cls, 1] }

/-- A module has left its slot (R631). -/
def State.unseat (s : State) (slot : Nat) : State :=
  let v := s.get (Reg.SURF_SLOT_VERDICT slot)
  let a := s.get (Reg.SURF_SLOT_ACTION slot)
  let cls := s.get (Reg.SURF_SLOT_CLASS slot)
  let s1 : State := { s with surf := { s.surf with mir := Tab.put [] s.surf.mir slot [] } }
  (s1.clear [Reg.SURF_SLOT_PRESENT slot, Reg.SURF_SLOT_VERDICT slot, Reg.SURF_SLOT_ACTION slot, Reg.SURF_SLOT_SE slot,
    Reg.SURF_SLOT_CLASS_IDX slot, Reg.SURF_SLOT_CLASS slot]).showMir.postNow .other none 0x0142 [slot, v, a, cls, 0]

end Sys2Proof.Machine
end

