-- ==== Sys2Proof/Machine/Operands.lean ====
section
/-! DEFINITION. Operand forms of the compute unit: register files with rotation, lanes, the second operands of the M
and I slots, effective addresses and base updates (R170, R171, R201, R237, R248, R255). -/

namespace Sys2Proof.Machine

/-- Lane 0: bits 31..0 (R171). -/
def lane0 (v : Dword) : Word := v.extractLsb' 0 32
/-- Lane 1: bits 63..32. -/
def lane1 (v : Dword) : Word := v.extractLsb' 32 32
/-- An F register from its two lanes. -/
def lanes (l0 l1 : Word) : Dword := l1 ++ l0
/-- Both lanes hold one word. -/
def both (w : Word) : Dword := lanes w w

/-- The physical register of a logical F register (R201). -/
def UnitSt.phys (x : UnitSt) (n : Nat) : Nat := if n < 32 then n else 32 + (n - 32 + x.rb) % 32

def UnitSt.getF (x : UnitSt) (n : Nat) : Dword := Tab.get 0 x.f (x.phys n)

/-- A0 reads as 0 (R170); an A field uses its low 5 bits (R233). -/
def UnitSt.getA (x : UnitSt) (n : Nat) : Word := if n % 32 = 0 then 0 else Tab.get 0 x.a (n % 32)

/-- P0 reads as 1 (R170). -/
def UnitSt.getP (x : UnitSt) (n : Nat) : Bool := n == 0 || x.p.getLsbD n

/-- The operand b′ of an M slot (R237). -/
def bPrime (m : Nat) (v : Dword) : Dword :=
  match m with
  | 0 => v
  | 1 => lanes (lane1 v) (lane0 v)
  | 2 => both (lane0 v)
  | _ => both (lane1 v)

/-- The second operand of slot I (R248); MOD 0b11 is reserved and read as 0b00 here, its bundle being illegal. -/
def UnitSt.bI (x : UnitSt) (m b : Nat) : Word :=
  match m with
  | 1 => BitVec.ofNat 32 b
  | 2 => (BitVec.ofNat 6 b).signExtend 32
  | _ => x.getA b

/-- The circular update of R253. -/
def amod (d a b : Word) : Word := (d &&& ~~~b) ||| ((d + a) &&& b)

/-- The effective address of slot L (R255). -/
def UnitSt.ea (x : UnitSt) (o : Op) : Nat :=
  (match o.m.val with | 0 => x.getA o.a.val + x.getA o.b.val | _ => x.getA o.a.val).toNat

/-- The base register after the operation, when the addressing mode updates it (R255). -/
def UnitSt.newBase (x : UnitSt) (o : Op) (size : Nat) : Option Word :=
  match o.m.val with
  | 0 => none
  | 1 => some (x.getA o.a.val + BitVec.ofNat 32 size)
  | 2 => some (x.getA o.a.val + x.getA o.b.val)
  | _ => some (amod (x.getA o.a.val) (BitVec.ofNat 32 size) (x.getA o.b.val))

/-- The DETAIL code of a memory range fault (R173, R210), if the access is one: an address outside its space gives the space
whether or not it is aligned, a misaligned address inside it gives 3. `align` is 4, 8 or 32, and every limit is a multiple of
32, so an aligned access that begins inside its space ends inside it. -/
def rangeFault (space limit : Nat) (ea align : Nat) : Option Nat :=
  if limit ≤ ea then some space else if ea % align ≠ 0 then some 3 else none

end Sys2Proof.Machine
end

