-- ==== Sys2Proof/Machine/Cut.lean ====
section
/-! DEFINITION. Schedules as the running machine sees them, and the cut of a firing (R130–R138, R156–R161). -/

namespace Sys2Proof

/-- The address of sample n of an output channel in the output block of the block at SI `fsi` (R287). -/
def Machine.outAddr (block fsi offset n : Nat) : Nat := 2 ^ 22 + fsi / block % 2 * 2 ^ 20 + offset + 4 * n

/-- The number of an output destination in the last-sample store. -/
def OutDest.key (o : OutDest) : Nat := o.space * 2 ^ 50 + o.target % 64 * 2 ^ 40 + o.addr

namespace Machine

/-- FRAME clock of a rate's family in Hz (R9). -/
def frameHz (rate : Nat) : Nat := if rate % 11025 = 0 then 45158400 else 49152000

/-- Set points in MHz (R29). -/
def setPointMHz (p : Nat) : Nat := match p with | 0 => 400 | 1 => 600 | 2 => 800 | _ => 1000

/-- The bank of an index. -/
def SchedSt.bank (x : SchedSt) (b : Nat) : Bank := if b = 0 then x.bank0 else x.bank1

def SchedSt.setBank (x : SchedSt) (b : Nat) (k : Bank) : SchedSt :=
  if b = 0 then { x with bank0 := k } else { x with bank1 := k }

/-- The active schedule (R149). -/
def State.active (s : State) : Option SchedImage := (s.sched.bank s.sched.active.val).image

/-- The pending bank (R149). -/
def State.pendingBank (s : State) : Bank := s.sched.bank (1 - s.sched.active.val)

def State.setPendingBank (s : State) (k : Bank) : State := s.modSched fun x => x.setBank (1 - x.active.val) k

/-- The domain of a region in an image; none when it is unassigned. -/
def domainOf (i : SchedImage) (g : Nat) : Option Nat :=
  match i.regions.find? (fun r => r.region.val == g) with
  | some r => r.domain.map (·.val)
  | none => none

/-- The firings of a cluster in an image. -/
def firingsOf (i : SchedImage) (c : Nat) : List FiringEntry := i.firings.filter fun f => f.cluster.val == c

/-- The program images of a cluster. -/
def imagesOf (i : SchedImage) (c : Nat) : List Nat :=
  match i.clusters.find? (fun e => e.cluster.val == c) with
  | some e => e.images
  | none => []


/-- The logical cluster whose role a physical cluster has (R780). -/
def State.logical (s : State) (c : Nat) : Nat := c / 8 * 8 + Tab.get (c % 8) (s.region (c / 8)).role (c % 8) % 8

/-- The physical cluster that has a logical cluster's role. -/
def State.physical (s : State) (l : Nat) : Nat :=
  match (List.range 8).find? fun k => s.logical (l / 8 * 8 + k) == l with
  | some k => l / 8 * 8 + k
  | none => l

/-- The domain's transmit streams and flows are sent: no change of range has its outputs down, and the transmit gate is open
(R720, R765). -/
def State.sending (s : State) (d : Nat) : Bool :=
  (Tab.get 0 s.pwr.range d == 0 || decide (3 ≤ Tab.get 0 s.pwr.range d)) && s.bit Reg.PAIR_STATUS_GATE_OPEN

/-- A domain has made the switch to the pending schedule, which other domains have still to make (R150). -/
def State.hasSwitched (s : State) (d : Nat) : Bool :=
  s.pendingBank.armed && !s.sched.toSwitch.isEmpty && !s.sched.toSwitch.contains d

/-- First boundary of a domain at or after a P-domain SI (R150). -/
def State.boundaryAt (s : State) (d si : Nat) : Nat :=
  let b := (s.dom d).block
  (s.siTo d si + b - 1) / b * b

/-- The image and the domain that a cluster's region runs under: the pending image once its domain has switched. -/
def State.imageAt (s : State) (c : Nat) : Option (SchedImage × Nat) :=
  let of (i : Option SchedImage) (new : Bool) : Option (SchedImage × Nat) :=
    match i with
    | none => none
    | some x =>
      match domainOf x (c / 8) with
      | some d => if s.hasSwitched d == new then some (x, d) else none
      | none => none
  match of s.pendingBank.image true with
  | some r => some r
  | none => of s.active false

/-- The domain a cluster serves; P where it has none. -/
def State.clusterDomain (s : State) (c : Nat) : Nat :=
  match s.imageAt c with | some p => p.2 | none => 0

/-- The internal error record of a pair member gains an entry in the running frame (R774). -/
def State.errSeen (s : State) : State := { s with pair := { s.pair with errAt := some (s.dom 0).si } }

/-- No cluster of a domain fires: the engine is in HOLD (R695), a COLD standby waits idle (R759), or the domain's pipeline
has stopped (R720). -/
def State.firingsOff (s : State) (d : Nat) : Bool :=
  s.bit Reg.PWR_STATUS_HOLD || !(s.dom d).running ||
    (decide (s.get Reg.PAIR_STATUS_ROLE = 2) && decide (s.get Reg.PAIR_CFG_MODE = 1) && !s.pair.coldStart)

/-- The image a domain runs on: the pending one once it has switched (R150). -/
def State.domImage (s : State) (d : Nat) : Option SchedImage := if s.hasSwitched d then s.pendingBank.image else s.active

/-- A quarantined cluster (R157). -/
def State.quarantined (s : State) (c : Nat) : Bool := Nat.testBit (s.get Reg.SCHED_QUAR_QUAR) c

/-- Sample n of a cut fade from the last sample g: g × (B − 1 − n) / B, rounded once (R157, R220). -/
def fadeSample (block : Nat) (g : Word) (n : Nat) : Word :=
  let v := Fp.exact (Fp.scrub g)
  (Fp.round ⟨v.neg, v.mag * (block - 1 - n), v.ex - Nat.log2 block⟩).1

/-- One 32-bit word in the frame stages. -/
def State.stageWord (s : State) (a : Nat) (w : Word) : State := { s with stage := Memory.writeNat s.stage a 4 w.toNat }

/-- A word in the memory of a space of R286, at an address within that memory. -/
def State.spaceWrite (s : State) (space a : Nat) (w : Word) : State :=
  match space with
  | 0 | 1 => s.stageWord a w
  | 2 => { s with dly := Memory.writeNat s.dly a 4 w.toNat }
  | 3 => { s with dram := Memory.writeNat s.dram a 4 w.toNat }
  | _ => { s with shm := Memory.writeNat s.shm a 4 w.toNat }

def State.spaceRead (s : State) (space a : Nat) : Word :=
  match space with
  | 0 | 1 => Memory.read32 s.stage a
  | 2 => Memory.read32 s.dly a
  | 3 => Memory.read32 s.dram a
  | _ => Memory.read32 s.shm a

/-- The stage offset that an output channel has (R288). -/
def State.outOffset (s : State) (a : Nat) : Option Nat := (s.mix.stageOut.find? fun x => x.addr == a).map (·.offset)

/-- The address of sample n of a destination in the memory of its space (R172, R287, R314, R329); none for an output channel that
has no stage offset. -/
def State.outAt (s : State) (o : OutDest) (c block fsi n : Nat) : Option Nat :=
  let k := if o.line = 0 then n else (fsi + n) % o.line
  match o.space with
  | 2 => some (c / 8 * 2 ^ 24 + o.addr + 4 * k)
  | 3 => some (o.addr + 4 * k)
  | 4 => some (o.target * 2 ^ 20 + o.addr + 4 * k)
  | _ => (s.outOffset o.addr).map fun x => outAddr block fsi x n

/-- Writes a block of an output channel of a cluster (R157, R159). -/
def State.writeOut (s : State) (c block fsi : Nat) (o : OutDest) (f : Nat → Word) : State :=
  s.each (List.range block) fun n t =>
    match t.outAt o c block fsi n with
    | some a => t.spaceWrite o.space a (f n)
    | none => t

/-- Sample n of an output channel as it stands. -/
def State.readOut (s : State) (c block fsi : Nat) (o : OutDest) (n : Nat) : Word :=
  match s.outAt o c block fsi n with
  | some a => s.spaceRead o.space a
  | none => 0

/-- Exact zero to every output destination of a firing (R159). -/
def State.zeroOutputs (s : State) (c : Nat) (e : FiringEntry) (block fsi : Nat) : State :=
  s.each e.outputs fun o t => t.writeOut c block fsi o fun _ => 0

/-- Stops every unit of a cluster. -/
def State.haltUnits (s : State) (c : Nat) : State :=
  s.each (List.range 8) fun u t =>
    t.modUnit (8 * c + u) fun x => { x with wait := .halted, readNew := none, readBuf := none, writeNew := none,
                                            writeBuf := none, flight := [], dmaOut := 0 }

/-- The cycles a cluster's clock has run in the execution phase of its firing (R275). -/
def State.clusterClk (s : State) (c : Nat) : Nat := match (s.cluster c).firing with | some f => f.clk | none => 0

/-- Cycles executed in a firing: the count its cluster's clock has reached, the units' bundles, the waits of R186 and the drain
of the HALT and of the cluster DMA among them (R136, R145). -/
def State.cycles (s : State) (c : Nat) : Nat :=
  (List.range 8).foldl (fun m u => max m (s.unit (8 * c + u)).cyc) (s.clusterClk c)

/-- A crossfade runs in a cluster for the block at SI `fsi` (R161). -/
def State.fadingIn (s : State) (c fsi block : Nat) : List Crossfade :=
  s.mix.fades.filter fun x => x.cluster == s.logical c && decide (x.start < fsi + block) && decide (fsi < x.start + x.len)

/-- The state of a crossbar target. -/
def State.grant (s : State) (t : Nat) : Grant := Tab.get {} s.xbar t

def State.setGrant (s : State) (t : Nat) (g : Grant) : State := { s with xbar := Tab.put {} s.xbar t g }

/-- A cluster's transfer holds a target. -/
def Grant.heldBy (g : Grant) (c : Nat) : Bool := match g.holder with | some h => h.1 == c | none => false

/-- The transfer of a cluster gives up the bursts it holds. -/
def State.dropGrants (s : State) (c : Nat) : State :=
  s.each (s.xbar.map (·.1)) fun k t => if (t.grant k).heldBy c then t.setGrant k { t.grant k with holder := none } else t

/-- The cut of a cluster's running firing (R157, R167): the clock stops, DMA is abandoned, every output destination fades, the
cluster goes to retention (R25, R159) and is quarantined, the record keeps the first cut, and CUT is posted. The SI of the cut block
is given in domain P (R11; where it falls between two of its SIs the lower one, log entry 140). -/
def State.cut (s : State) (c cause : Nat) : State :=
  match (s.cluster c).firing with
  | none => s
  | some f =>
    let b := (s.dom f.domain).block
    let exec := s.cycles c
    let s1 := (s.haltUnits c).dropGrants c
    let s2 := s1.modCluster c fun x => { x with firing := none, dmaQueue := [], dmaRun := none, zeroing := true,
                                                 retention := true, cycFrame := x.cycFrame + exec }
    let s3 := s2.each f.entry.outputs fun o t =>
      t.writeOut c b f.fsi o (fadeSample b (Tab.get 0 (s.cluster c).lastSample o.key))
    let s4 := s3.modCluster c fun x => { x with lastSample := [] }
    let s5 := s4.setMask Reg.SCHED_QUAR_QUAR c
    let s6 := if s.get (Reg.FABRIC_CL_CUT_CAUSE c) = 0 then
        ((((((s5.put (Reg.FABRIC_CL_CUT_CAUSE c) cause).put (Reg.FABRIC_CL_CUT_FIRING c) f.entry.index.val).putBit
          (Reg.FABRIC_CL_CUT_PAIR_FADE c) (!(s.fadingIn c f.fsi b).isEmpty)).putBit
          (Reg.FABRIC_CL_CUT_WLOST_ANY c) (s.get (Reg.FABRIC_CL_WLOST_WLOST c) != 0)).put
          (Reg.FABRIC_CL_CUT_EXEC c) (min exec 0xFFFFFF)).put (Reg.FABRIC_CL_CUT_SI_SI c) (s.toP f.domain f.fsi))
      else s5
    let cutFades := s.fadingIn c f.fsi b
    let marked (x : Crossfade) (t : State) : State :=
      let l := t.pours.live.map fun p => if x.pours.contains (p.origin, p.tag) then { p with cutSeen := true } else p
      let w := t.mix.waits.map fun w => if x.waiters.contains w.id then { w with cutSeen := true } else w
      { t with pours := { t.pours with live := l }, mix := { t.mix with waits := w } }
    let s7 := (s6.modMix fun m => { m with fades := m.fades.filter fun x => !cutFades.contains x }).each cutFades marked
    (s7.errSeen.bump Reg.SCHED_CUT_CNT_COUNT).post .fault (some 53) { code := 0x10, si := s.toP f.domain f.fsi, body := [c, cause] }

/-- What SECDED finds in a local memory access of a unit (R293): corrections are counted, an uncorrectable error cuts the
cluster's firing with cause MEMORY. -/
def State.localEcc (s : State) (u : Nat) : Ecc → State
  | .clean => s
  | .corrected n => if u < 512 then s.bumpBy (Reg.FABRIC_CL_ECC_LOC_CORR (u / 8)) n else s
  | .uncorrectable => if u < 512 then s.cut (u / 8) 4 else s

/-- A servo unit is cut, or has stopped (R650): its 64 faders are released, and it is quarantined. -/
def State.servoCut (s : State) (k : Nat) : State :=
  let s1 := (s.modUnit (512 + k) fun x => { x with wait := .halted, flight := [] }).each (List.range 64) fun i t =>
    { t with surf := { t.surf with drive := Tab.put 0 t.surf.drive (64 * k + i) 0 } }
  ((s1.setMask Reg.SURF_SERVO_STATUS_QUAR k).setMask Reg.SURF_SERVO_STATUS_CUT_SEEN k).postNow .fault none 0x0144 [k]

end Machine
end Sys2Proof
end

