-- ==== Sys2Proof/Machine/Params.lean ====
section
/-! DEFINITION. Parameters: what each handle names, its range, its ramp class and its default (R86–R92, R836, R839). -/

namespace Sys2Proof.Machine

/-- Ramp classes (R92). -/
inductive RampClass where
  | gain | mute | pan | eq | dynamics | time | delay | fixed
  deriving DecidableEq, Repr

/-- Shortest, default and longest length of a class, in ms (R92); `fixed` is the Non-rampable class. -/
def RampClass.ms : RampClass → Nat × Nat × Nat
  | .gain => (2, 10, 60000)
  | .mute => (2, 5, 1000)
  | .pan => (5, 20, 60000)
  | .eq => (5, 20, 60000)
  | .dynamics => (2, 10, 60000)
  | .time => (0, 0, 0)
  | .delay => (10, 50, 60000)
  | .fixed => (5, 10, 1000)

/-- Values of a parameter (R88, R89): binary32 between two ends, integers in ranges of bit patterns, or any word. -/
inductive ValueKind where
  | real (lo hi : Word)
  | ints (l : List (Nat × Nat))
  deriving DecidableEq, Repr

structure ParamInfo where
  kind : ValueKind
  cls : RampClass
  /-- Shape code of R301. -/
  shape : Nat
  deriving DecidableEq, Repr

def pGain (lo hi : Word) : ParamInfo := ⟨.real lo hi, .gain, 2⟩
def pMute : ParamInfo := ⟨.ints [(0, 1)], .mute, 2⟩
def pPan (lo hi : Word) : ParamInfo := ⟨.real lo hi, .pan, 1⟩
def pEqOn : ParamInfo := ⟨.ints [(0, 1)], .eq, 4⟩
def pEq (lo hi : Word) : ParamInfo := ⟨.real lo hi, .eq, 4⟩
def pDyn (lo hi : Word) : ParamInfo := ⟨.real lo hi, .dynamics, 1⟩
def pTime (lo hi : Word) : ParamInfo := ⟨.real lo hi, .time, 0⟩
def pDelay (hi : Word) : ParamInfo := ⟨.real 0 hi, .delay, 4⟩
def pFixed (l : List (Nat × Nat)) : ParamInfo := ⟨.ints l, .fixed, 0⟩

/-- 0.45 fs of a rate, rounded once. -/
def nyquist45 (rate : Nat) : Word := (Fp.roundQuot false (rate * 45) 100 Fp.exBias).1

/-- −144, +10, +20, −24, +24, 0.45 fs and the other ends as binary32 are written out. The strip table of R88. -/
def stripParam (rate : Nat) (longDelay : Bool) (idx p : Nat) : Option ParamInfo :=
  if p = 0 then some (pGain 0xC1C00000 0x41C00000)
  else if p = 1 then some pMute
  else if p = 2 then some (pDelay (if longDelay then 0x44FA0000 else 0x43FA0000))
  else if p = 16 ∨ p = 20 then some pEqOn
  else if p = 17 ∨ p = 21 then some (pEq 0x41200000 (nyquist45 rate))
  else if p = 18 ∨ p = 22 then some (pFixed [(6, 6), (12, 12), (18, 18), (24, 24)])
  else if 32 ≤ p ∧ p < 72 then
    match (p - 32) % 5 with
    | 0 => some pEqOn
    | 1 => some (pFixed [(0, 3)])
    | 2 => some (pEq 0x41200000 (nyquist45 rate))
    | 3 => some (pEq 0xC1C00000 0x41C00000)
    | _ => some (pEq 0x3DCCCCCD 0x41A00000)
  else if p = 96 ∨ p = 112 then some ⟨.ints [(0, 1)], .dynamics, 4⟩
  else if p = 97 then some (pDyn 0xC2C00000 0)
  else if p = 113 then some (pDyn 0xC2700000 0)
  else if p = 98 then some (pDyn 0 0x42C00000)
  else if p = 114 then some ⟨.real 0x3F800000 0x42C80000, .dynamics, 3⟩
  else if p = 115 then some (pDyn 0 0x41C00000)
  else if p = 99 ∨ p = 116 then some (pTime 0x3CA3D70A 0x43960000)
  else if p = 100 then some (pTime 0 0x44FA0000)
  else if p = 101 ∨ p = 117 then some (pTime 0x40A00000 0x459C4000)
  else if p = 118 then some (pGain 0 0x41C00000)
  else if p = 102 ∨ p = 119 then some (pFixed [(0, 2047), (2 ^ 32 - 1, 2 ^ 32 - 1)])
  else if p = 128 ∨ p = 129 then some (pFixed [(0, 1)])
  else if p = 131 then some (pFixed [(0, 4)])
  else if p = 144 then some (pGain 0xC3100000 0x41200000)
  else if p = 145 then some pMute
  else if p = 146 then some (pPan 0xBF800000 0x3F800000)
  else if p = 147 then some (pFixed [(0, 3)])
  else if p = 148 then (if idx % 2 = 0 then some (pFixed [(0, 1)]) else none)
  else if p = 160 ∨ p = 176 then some (pGain 0xC3100000 0x41200000)
  else if p = 161 then some (pFixed [(0, 2)])
  else if p = 177 then some (pFixed [(0, 127), (2 ^ 32 - 1, 2 ^ 32 - 1)])
  else if p = 192 ∨ p = 193 then some ⟨.ints [(0, 2 ^ 32 - 1)], .gain, 0⟩
  else none

def handleClass (h : Nat) : Nat := h / 2 ^ 26 % 64
def handleIndex (h : Nat) : Nat := h / 2 ^ 10 % 2 ^ 16
def handlePar (h : Nat) : Nat := h % 2 ^ 10

/-- The handle of a class, index and parameter (R86). -/
def mkHandle (c i p : Nat) : Nat := c * 2 ^ 26 + i * 2 ^ 10 + p

/-- The strip indices that class BUS and class MATRIX have (R87). -/
def busHas (p : Nat) : Bool :=
  decide (p = 2) || (decide (32 ≤ p) && decide (p ≤ 71)) || (decide (112 ≤ p) && decide (p ≤ 119)) ||
  decide (p = 144) || decide (p = 145) || decide (p = 148)
def matrixHas (p : Nat) : Bool :=
  decide (p = 2) || (decide (32 ≤ p) && decide (p ≤ 71)) || decide (p = 144) || decide (p = 145)

/-- The object indices of a class (R87). -/
def classCount (c : Nat) : Nat :=
  match c with
  | 1 => 2048 | 2 => 256 | 3 => 64 | 4 => 64 | 5 => 128 | 6 => 512 | 7 => 2048 | 8 => 64 | 0x0A => 16 | 0x0B => 1
  | _ => 0

/-- What a handle names at a rate, by the tables of R87, R88 and R836; none where it is undefined. A parameter of an
owner class takes any word as a step (log entry 17). -/
def paramInfo (rate h : Nat) : Option ParamInfo :=
  let c := handleClass h
  let i := handleIndex h
  let p := handlePar h
  if 0x20 ≤ c ∧ c < 0x40 then some ⟨.ints [(0, 2 ^ 32 - 1)], .time, 0⟩
  else if classCount c ≤ i then none
  else match c with
    | 1 => stripParam rate false i p
    | 2 => if busHas p then stripParam rate true i p else none
    | 3 => if matrixHas p then stripParam rate true i p else none
    | 4 => if p = 0 then some (pGain 0xC3100000 0x41200000) else if p = 1 then some pMute else none
    | 5 => if p < 3 then some (pPan 0xC47A0000 0x447A0000) else if p = 3 then some (pPan 0 0x3F800000)
           else if p = 4 then some (pGain 0xC3100000 0x41200000) else if p = 5 then some pMute else none
    | 6 => if p < 3 then some ⟨.real 0xC47A0000 0x447A0000, .fixed, 0⟩
           else if p = 3 then some (pGain 0xC1C00000 0x41C00000)
           else if p = 4 then some (pDelay 0x44FA0000) else if p = 5 then some pMute else none
    | 7 => if p % 4 = 0 then some (pGain 0xC3100000 0x41200000) else if p % 4 = 1 then some pMute
           else if p % 4 = 2 then some (pFixed [(0, 1)]) else some (pPan 0xBF800000 0x3F800000)
    | 8 => if p % 4 = 0 then some (pGain 0xC3100000 0x41200000) else if p % 4 = 1 then some pMute else none
    | 0x0A => if p = 0 then some (pFixed [(0, 2)]) else if p = 1 then some (pPan 0x41200000 0x469C4000)
              else if p = 2 then some (pGain 0xC3100000 0) else none
    | 0x0B => if p = 0 then some ⟨.ints [(0, 4)], .time, 0⟩ else if p = 1 then some (pTime 0x41200000 0x453B8000)
              else none
    | _ => none

/-- A value against its parameter (R90, R91): none where it is refused, else the value held in its range and whether it
was held. -/
def ValueKind.accepts : ValueKind → Word → Option (Word × Bool)
  | .real lo hi, w =>
    if Fp.isNaN w || Fp.isInf w then none
    else if Fp.val w < Fp.val lo then some (lo, true)
    else if Fp.val hi < Fp.val w then some (hi, true)
    else some (w, false)
  | .ints l, w => if l.any fun r => decide (r.1 ≤ w.toNat) && decide (w.toNat ≤ r.2) then some (w, false) else none

/-- The default value of a parameter before any change (R839), at the rate of its domain. -/
def defaultParam (rate h : Nat) : Word :=
  let p := handlePar h
  match handleClass h with
  | 1 | 2 | 3 =>
    if p = 144 ∨ p = 160 ∨ p = 176 then 0xC3100000
    else if p = 17 then 0x41200000
    else if p = 21 then nyquist45 rate
    else if p = 18 ∨ p = 22 then 12
    else if 32 ≤ p ∧ p < 72 then
      (if (p - 32) % 5 = 2 then 0x447A0000 else if (p - 32) % 5 = 4 then 0x3F800000 else 0)
    else if p = 97 then 0xC2C00000
    else if p = 98 then 0x42C00000
    else if p = 114 then 0x3F800000
    else if p = 99 ∨ p = 116 then 0x41200000
    else if p = 101 ∨ p = 117 then 0x42C80000
    else if p = 102 ∨ p = 119 ∨ p = 177 then 0xFFFFFFFF
    else if p = 161 then 2
    else 0
  | 7 | 8 => if p % 4 = 0 then 0xC3100000 else 0
  | 0x0A => if p = 1 then 0x447A0000 else if p = 2 then 0xC3100000 else 0
  | 0x0B => if p = 1 then 0x43960000 else 0
  | _ => 0

/-- A parameter's own value in the space of its shape (R95, R96, R301): a Mute-class switch as the gain it gives, an on
field being the reverse of a mute. -/
def toSpace (h : Nat) (info : ParamInfo) (w : Word) : Word :=
  match info.shape, info.cls with
  | 2, .mute =>
    let p := handlePar h
    let isOn := handleClass h = 7 ∨ handleClass h = 8
    if (handleClass h = 1 ∧ p = 1) then 0
    else if (w = 0) = isOn then Fp.dbToLog2 0xC3100000 else 0
  | 2, _ => Fp.dbToLog2 w
  | 3, _ => (Fp.log2 w).1
  | _, _ => w

/-- What LDP delivers for x under a shape (R301). -/
def shapeOut (shape : Nat) (x : Word) : Word :=
  match shape with
  | 2 => if Fp.val x ≤ Fp.val 0xC1BF57D2 then 0 else (Fp.exp2 x).1
  | 3 => (Fp.exp2 x).1
  | _ => x

/-- A polarity parameter carries its sign with its gain (R96). -/
def signed (h : Nat) (polarity w : Word) : Word := if handleClass h = 1 ∧ handlePar h = 1 ∧ polarity = 1 then Fp.neg w else w

/-- The object a non-rampable change doubles, as a handle with parameter 0: a send doubles its strip, a matrix crosspoint its
matrix output. -/
def objectOf (h : Nat) : Nat :=
  mkHandle (if handleClass h = 7 then 1 else if handleClass h = 8 then 3 else handleClass h) (handleIndex h) 0

/-- The object of a patch crossfade: its destination, apart from every handle; and that of a program swap: its unit. -/
def patchKey (dst : Nat) : Nat := 2 ^ 32 + dst
def programKey (unit : Nat) : Nat := 2 ^ 33 + unit

/-- Where a layout places the object of a handle; a send lies with its strip, a matrix crosspoint with its matrix output,
unless the layout places it on its own (R87, R90). -/
def placeOf (i : SchedImage) (h : Nat) : Option ObjectPlace :=
  let find (c : Nat) : Option ObjectPlace := i.layout.find? fun p =>
    p.cls == c && decide (p.first ≤ handleIndex h) && decide (handleIndex h < p.first + p.count)
  match find (handleClass h) with
  | some p => some p
  | none => if handleClass h = 7 then find 1 else if handleClass h = 8 then find 3 else none

/-- The domain at whose rate a parameter of a handle is read: that of its object. -/
def objectDomain (i : SchedImage) (h : Nat) : Nat := match placeOf i h with | some p => p.domain.val | none => 0

def State.handleDomain (s : State) (h : Nat) : Nat := ((s.active.map fun i => objectDomain i h).getD 0)

/-- The value a parameter holds when nothing is in force: its last change, else its default (R839). -/
def State.param (s : State) (h : Nat) : Word :=
  (Tab.get none s.mix.params h).getD (defaultParam (s.dom (s.handleDomain h)).rate h)

/-- The word a slot holds for a parameter at rest (R300, R301). -/
def State.slotValue (s : State) (h : Nat) : Word :=
  match paramInfo (s.dom (s.handleDomain h)).rate h with
  | some i => signed h (s.param h) (shapeOut i.shape (toSpace h i (s.param h)))
  | none => s.param h

end Sys2Proof.Machine
end

