-- ==== Sys2Proof/Machine/Sequencer.lean ====
section
/-! DEFINITION. The parameter sequencer: shapes, the value of a slot on a sample, application, retirement and the
writes of the sequencer phase (R94–R98, R295–R305). -/

namespace Sys2Proof.Machine

/-- Tend of an applied entry (R298). -/
def Change.tend (c : Change) : Nat := if c.shape = 0 ∨ c.shape = 4 ∨ c.len = 0 then c.target else c.target + c.len - 1

/-- v − k × step, formed exactly and rounded once. -/
def backFrom (v : Word) (k : Nat) (step : Word) : Word := (Fp.fms v (Fp.ofInt (BitVec.ofNat 32 k)) step).1

/-- (v1 − v0) / n, rounded once. -/
def stepOf (v0 v1 : Word) (n : Nat) : Word :=
  let d := Fp.exAdd (Fp.exact v1) (Fp.exact (Fp.neg v0))
  (Fp.roundQuot d.neg d.mag n d.ex).1

/-- log2 of the gain at −144 dB. -/
def mutedLog : Word := Fp.dbToLog2 0xC3100000

/-- The quantity x of R301 at sample s: v1 − (Tend − s) × STEP, formed exactly and rounded once. A polarity change runs
down to −144 dB over the first half of its length and back over the second (R96). -/
def Change.x (c : Change) (s : Nat) : Word :=
  if c.tend ≤ s then c.v1
  else if c.bounce then
    let n := c.len / 2
    if s < c.target + n then backFrom mutedLog (c.target + n - 1 - s) (stepOf c.v0 mutedLog n)
    else backFrom c.v1 (c.tend - s) (stepOf mutedLog c.v1 n)
  else backFrom c.v1 (c.tend - s) c.step

/-- The polarity that a polarity change gives on sample s: it inverts at −144 dB, in the middle (R96). -/
def Change.polarity (c : Change) (s : Nat) : Word := if c.bounce && decide (s < c.target + c.len / 2) then c.raw0 else c.raw

/-- The delivered value of an applied entry at sample s. -/
def Change.value (c : Change) (s : Nat) : Word :=
  if c.shape = 0 ∨ c.shape = 4 then c.v1 else signed c.handle (c.polarity s) (shapeOut c.shape (c.x s))

/-- The order of R61 and R297: ascending T, pours before parameter changes, then receipt order. -/
def Change.before (a b : Change) : Bool :=
  decide (a.target < b.target) ||
  (decide (a.target = b.target) && (decide (a.rank < b.rank) || (decide (a.rank = b.rank) && decide (a.order ≤ b.order))))

/-- Insertion in the order of application. -/
def insChange (c : Change) : List Change → List Change
  | [] => [c]
  | h :: t => if h.before c then h :: insChange c t else c :: h :: t

def sortChanges (l : List Change) : List Change := l.foldr insChange []

/-- Two entries address one slot: the same handle in the same cluster. -/
def Change.same (a b : Change) : Bool := a.handle == b.handle && a.cluster == b.cluster

/-- The applied entry in force for a handle in a cluster at sample s: the last one applied whose T has come. -/
def inForce (l : List Change) (handle cluster s : Nat) : Option Change :=
  (sortChanges (l.filter fun c => c.applied && c.handle == handle && c.cluster == cluster && decide (c.target ≤ s))).getLast?

/-- The value at rest of a handle in the space of its shape. -/
def State.restValue (s : State) (h : Nat) : Word :=
  match paramInfo (s.dom (s.handleDomain h)).rate h with
  | some i => toSpace h i (s.param h)
  | none => s.param h

/-- The value in shape space from which a change at T starts (R97, R298). -/
def State.startValue (s : State) (old : List Change) (c : Change) : Word :=
  match inForce (old.filter fun p => decide (p.target < c.target)) c.handle c.cluster c.target with
  | some p => if p.shape = c.shape then p.x c.target else s.restValue c.handle
  | none => s.restValue c.handle

/-- v0 and STEP = (v1 − v0) / N, rounded once (R298). -/
def applyChange (v0 : Word) (c : Change) : Change :=
  { c with applied := true, v0 := v0,
           step := if c.shape = 0 ∨ c.shape = 4 ∨ c.len = 0 then 0 else stepOf v0 c.v1 c.len }

/-- An entry as it is applied: from the value and, for a polarity change, the polarity that its parameter has at T (R96, R97). -/
def State.applyTo (s : State) (l : List Change) (e : Change) : Change :=
  let e' := applyChange (s.startValue l e) e
  match inForce (l.filter fun p => decide (p.target < e.target)) e.handle e.cluster e.target with
  | some p => { e' with raw0 := p.polarity e.target }
  | none => { e' with raw0 := s.param e.handle }

/-- The address of a slot in the flat shared memory. -/
def shmAddr (c a : Nat) : Nat := c * 2 ^ 20 + a

/-- A HANDOFF write joins those of the phase. -/
def State.queueSeq (s : State) (c a : Nat) (l : List Word) : State :=
  s.modCluster c fun x => { x with seqOut := x.seqOut ++ [(a, l)] }

/-- The write of a HANDOFF entry (R303). -/
def State.handoff (s : State) (c fsi : Nat) (e : Change) : State :=
  match e.slot with
  | none => s
  | some a => s.queueSeq c a
      [e.v1, BitVec.ofNat 32 (e.len % 2 ^ 24), BitVec.ofNat 32 (4 + 256 * ((e.target - fsi) % 64) + 2 ^ 16)]

/-- CHANGED = 0 in the following block (R303). -/
def State.unhand (s : State) (c : Nat) (e : Change) : State :=
  match e.slot with
  | none => s
  | some a =>
    let w := (Memory.read32 s.shm (shmAddr c a + 8)).toNat
    s.queueSeq c (a + 8) [BitVec.ofNat 32 (if Nat.testBit w 16 then w - 2 ^ 16 else w)]

/-- A value that a retired entry owes to its slot (R299). -/
def ClusterSt.owe (x : ClusterSt) (slot : Option Nat) (v : Word) : ClusterSt :=
  match slot with
  | none => x
  | some a => { x with owed := Tab.put none x.owed a (some v) }

/-- The entry ends: the parameter keeps its end value in its own unit. -/
def State.settle (s : State) (e : Change) : State :=
  s.modMix fun m => { m with params := Tab.put none m.params e.handle (some e.raw) }

/-- A later applied entry for the same slot took effect at or before an SI (R299). -/
def replacedBy (l : List Change) (si : Nat) (e : Change) : Bool :=
  l.any fun p => p.same e && p.applied && decide (p.target ≤ si) &&
    (decide (e.target < p.target) || (decide (e.target = p.target) && e.before p && decide (e ≠ p)))

/-- Retirement at a firing start (R299): entries whose Tend lies before the block retire with their final value, and
entries that a later one has replaced are gone. -/
def State.seqRetire (s : State) (c fsi : Nat) (writes : Bool) : State :=
  let l := s.mix.changes
  let mine (e : Change) := e.cluster == c && e.applied
  let gone := l.filter fun e => mine e && decide (e.tend < fsi) && !replacedBy l fsi e
  let s1 := s.modMix fun m =>
    { m with changes := m.changes.filter fun e => !(mine e && (decide (e.tend < fsi) || replacedBy l fsi e)) }
  s1.each gone fun e t =>
    let t1 := (t.settle e).modCluster c fun x => x.owe e.slot (e.value e.tend)
    if e.shape = 4 ∧ writes then t1.unhand c e else t1

/-- The applied value of a handle at an SI in the space of its shape, from whichever cluster has applied it. -/
def State.levelAt (s : State) (h t : Nat) : Word :=
  match (sortChanges (s.mix.changes.filter fun c => c.applied && c.handle == h && decide (c.target ≤ t))).getLast? with
  | some c => c.x t
  | none => s.restValue h

/-- The value of an add or remove ramp of a group's term at an SI, in log2 of gain (R83). -/
def State.termAt (s : State) (g : GroupTerm) (t : Nat) : Word :=
  let goal := if g.adding then s.levelAt (mkHandle 4 g.group 0) (g.start + g.len - 1) else 0
  if g.start + g.len ≤ t + 1 then goal else backFrom goal (g.start + g.len - 1 - t) (stepOf g.v0 goal g.len)

/-- The entry in force for a handle before another is applied; with none running, one that holds the value at rest. -/
def State.before (s : State) (e : Change) : Change :=
  match inForce (s.mix.changes.filter fun p => decide (p.target < e.target)) e.handle e.cluster e.target with
  | some p => p
  | none => { handle := e.handle, cluster := e.cluster, shape := e.shape, v1 := s.restValue e.handle, raw := s.param e.handle,
              raw0 := s.param e.handle, applied := true }

/-- R83: a bitmap change ramps the terms of the groups whose bits it changes; a level change of a group ends an add ramp of
its term and takes it on from there. -/
def State.groupTerms (s : State) (e : Change) : State :=
  let p := handlePar e.handle
  if handleClass e.handle = 1 ∧ (p = 192 ∨ p = 193) then
    let object := mkHandle 1 (handleIndex e.handle) 0
    let old := (s.before e).raw
    let d := s.handleDomain e.handle
    s.each ((List.range 32).filter fun k => old.getLsbD k != e.raw.getLsbD k) fun k t =>
      let g := k + 32 * (p - 192)
      let running := t.mix.terms.find? fun x =>
        x.object == object && x.group == g && !x.off && decide (x.start ≤ e.target) && decide (e.target < x.start + x.len)
      let level := t.levelAt (mkHandle 4 g 0) e.target
      let off := decide (Fp.val level ≤ Fp.val mutedLog)
      let v0 := match running with
        | some x => t.termAt x e.target
        | none => if e.raw.getLsbD k then 0 else level
      let len := if off then t.samplesMs d 5 else e.len
      t.modMix fun m => { m with
        terms := { object := object, group := g, adding := e.raw.getLsbD k, start := e.target, len := len, v0 := v0,
                   off := off } :: m.terms }
  else if handleClass e.handle = 4 ∧ p = 0 then
    let g := handleIndex e.handle
    let l := (s.mix.terms.filter fun x => x.group == g && x.adding && !x.off && decide (x.start ≤ e.target) &&
      decide (e.target < x.start + x.len)).map fun x => { x with start := e.target, len := e.len, v0 := s.termAt x e.target }
    s.modMix fun m => { m with terms := l ++ m.terms }
  else s

/-- Terms whose ramps have ended before a block, or that a later one has replaced, follow their groups or are gone. -/
def State.retireTerms (s : State) (fsi : Nat) : State :=
  s.modMix fun m =>
    let later (x y : GroupTerm) : Bool := y.object == x.object && y.group == x.group && decide (x.start < y.start) && decide (y.start ≤ fsi)
    { m with terms := m.terms.filter fun x => decide (fsi < x.start + x.len) && !m.terms.any (later x) }

/-- The old version of an object in a crossfade keeps what its parameters had: the first change that reaches one of them since the
crossfade began goes to the new version only (R102, R106). -/
def State.shadowOf (s : State) (e : Change) : State :=
  let hit (x : Crossfade) : Bool := x.object == objectOf e.handle && decide (x.start ≤ e.target) && decide (e.target < x.start + x.len) &&
    x.shadow.all fun c => c.handle != e.handle
  if s.mix.fades.any hit then
    s.modMix fun m => { m with fades := m.fades.map fun x => if hit x then { x with shadow := s.before e :: x.shadow } else x }
  else s

/-- One entry is applied: an earlier entry for the same slot leaves the value it gives at T (R298, R299). -/
def State.seqApply (s : State) (c fsi : Nat) (writes : Bool) (e : Change) : State :=
  let e' := s.applyTo s.mix.changes e
  let old := inForce (s.mix.changes.filter fun p => decide (p.target < e.target)) e.handle e.cluster e.target
  let s1 := s.each old.toList fun p t => t.modCluster c fun x => x.owe p.slot (p.value e.target)
  let s2 := ((s1.shadowOf e).groupTerms e).modMix fun m => { m with changes := m.changes.map fun p => if p = e then e' else p }
  if e.shape = 4 ∧ writes then s2.handoff c fsi e' else s2

/-- Words written to shared memory from an address upward. -/
def State.shmWords (s : State) (c a : Nat) (l : List Word) : State :=
  s.each l.zipIdx fun x t => { t with shm := Memory.writeNat t.shm (shmAddr c a + 4 * x.2) 4 x.1.toNat }

/-- One cycle of the sequencer phase (R272, R275, R299): a HANDOFF write, else a write that a retirement owes; LDP gives what is
still owed. -/
def State.seqWrite (s : State) (c : Nat) : State :=
  let x := s.cluster c
  match x.seqOut, x.owed with
  | (a, l) :: t, _ => (s.shmWords c a l).setCluster c { x with seqOut := t }
  | [], (a, some w) :: t => (s.shmWords c a [w]).setCluster c { x with owed := t }
  | [], (_, none) :: t => s.setCluster c { x with owed := t }
  | [], [] => s

/-- The work of the sequencer at the first firing that handles a block (R297–R305): retire, apply in order; the writes follow
in the cycles of the phase. A quarantined cluster's sequencer writes no memory. -/
def State.sequencerPhase (s : State) (c fsi block : Nat) (writes : Bool) : State :=
  let s1 := s.seqRetire c fsi writes
  let due := sortChanges (s1.mix.changes.filter fun e => e.cluster == c && !e.applied && decide (e.target < fsi + block))
  let due' := due.map fun e => if e.target < fsi then { e with target := fsi } else e
  let s2 := s1.modMix fun m =>
    { m with changes := m.changes.map fun e =>
        if e.cluster == c && !e.applied && decide (e.target < fsi) then { e with target := fsi } else e }
  let s3 := s2.each due' fun e t => t.seqApply c fsi writes e
  let occ := (s3.mix.changes.filter fun e => e.cluster == c).length
  let s4 := s3.modCluster c fun x => { x with seqNext := fsi + block }
  if c < 64 then s4.put (Reg.FABRIC_CL_SEQ_OCCUPIED c) occ else s4

/-- The clock of a firing's execution phase reaches a cycle; the cycles of the sequencer phase that pass carry its writes
(R272, R275). -/
def State.clockTo (s : State) (c n : Nat) : State :=
  match (s.cluster c).firing with
  | none => s
  | some f =>
    (s.each (List.range (min n f.entry.seqCycles - f.clk)) fun _ t => t.seqWrite c).modCluster c fun x =>
      { x with firing := x.firing.map fun g => { g with clk := max g.clk n } }

/-- What LDP gives for a slot (R301, R302): the entry in force at FSI + n, with its count stepped; else a value still
owed to the slot, else the word in memory. -/
def State.ldpRead (s : State) (c a : Nat) : Word × State :=
  match (s.cluster c).firing with
  | none => (Memory.read32 s.shm (shmAddr c a), s)
  | some f =>
    let n := Tab.get 0 f.ldpCount a
    let here := s.mix.changes.filter fun e => e.cluster == c && e.slot == some a && e.applied
    let mem := ((Tab.get none (s.cluster c).owed a).getD (Memory.read32 s.shm (shmAddr c a)))
    if here.isEmpty then (mem, s)
    else
      let now := (sortChanges (here.filter fun e => decide (e.target ≤ f.fsi + n))).getLast?
      let v := match now with | some e => e.value (f.fsi + n) | none => mem
      (v, s.modCluster c fun x =>
        { x with firing := some { f with ldpCount := Tab.put 0 f.ldpCount a (n + 1) } })

end Sys2Proof.Machine
end

