-- ==== Sys2Proof/Machine/Gains.lean ====
section
/-! DEFINITION. Gains: dB-linear ones between 0 dB and exact zero (R95, R464), the weights of a crossfade (R103), the pan laws
(R78), and exact values rounded once. -/

namespace Sys2Proof.Machine

/-- A finite value as a rational with a positive denominator, rounded once. -/
def ratWord (num : Int) (den ex : Nat) : Word := (Fp.roundQuot (decide (num < 0)) num.natAbs den ex).1

/-- How far a gate of n samples has closed on sample t. -/
def gatePos (g : Gate) (n t : Nat) : Nat :=
  let k := t + 1 - g.start
  if g.down then min n (g.base + k) else g.base - k

/-- The gain of a ramp of n samples that has closed by k of them. -/
def closedGain (n k : Nat) : Word :=
  if k = 0 then 0x3F800000 else if n ≤ k then 0 else (Fp.exp2 (backFrom mutedLog (n - k) (stepOf 0 mutedLog n))).1

/-- The gain on sample t. -/
def gateGain (g : Gate) (n t : Nat) : Word := closedGain n (gatePos g n t)

/-- The gate begins to move on sample t, from the level it has reached. -/
def gateTo (g : Gate) (down : Bool) (n t : Nat) : Gate :=
  if g.down == down then g
  else
    let k := t - g.start
    { down := down, base := if g.down then min n (g.base + k) else g.base - k, start := t }

/-- A closed gate. -/
def shutGate (n : Nat) : Gate := { down := true, base := max 1 n, start := 0 }

/-! ### Cosine and sine (R78, R103) -/

/-- π in 128 fractional bits. -/
def pi128 : Nat := 1069028584064966747859680373161870783300

/-- The series of cosine (k = 0, t = 1) and of sine (k = 1, t = x) at an angle whose square is x2, in 128 fractional bits. -/
def trigSeries (x2 : Int) : Nat → Int → Int → Int
  | 0, _, _ => 0
  | n + 1, k, t => t + trigSeries x2 n (k + 2) (-(t * x2 / 2 ^ 128) / ((k + 1) * (k + 2)))

def cosQ (x : Int) : Int := trigSeries (x * x / 2 ^ 128) 32 0 (2 ^ 128)
def sinQ (x : Int) : Int := trigSeries (x * x / 2 ^ 128) 32 1 x

/-- A value in 128 fractional bits rounded once; what lies within the error of the series about zero is zero. -/
def qWord (v : Int) : Word := if v.natAbs < 2 ^ 64 then 0 else ratWord v 1 (Fp.exBias - 128)

/-- The weights a and b of a crossfade of `n` samples on its sample k (R103): x = (k + 1) / n rounded once, and under the
equal-gain law 1 − x and x, under the equal-power law cos(πx / 2) and sin(πx / 2). -/
def crossWeights (eqPower : Bool) (k n : Nat) : Word × Word :=
  let x := ratWord (k + 1) n Fp.exBias
  if eqPower then
    let t := pi128 * Fp.scaled x / 2 ^ (Fp.exBias + 1)
    (qWord (cosQ t), qWord (sinQ t))
  else ((Fp.sub 0x3F800000 x).1, x)

/-- Sample k of a crossfade of `n` samples: round(a × old + round(b × new)) (R103). -/
def crossSample (eqPower : Bool) (k n : Nat) (old new : Word) : Word :=
  let w := crossWeights eqPower k n
  (Fp.fma (Fp.mul w.2 new).1 w.1 old).1

/-- The left and right gains of a pan law at position p (R78), each rounded once. -/
def panGains (law : Nat) (p : Word) : Word × Word :=
  let q := Fp.scaled p
  let one : Int := 2 ^ Fp.exBias
  let t := pi128 * (q + one) / 2 ^ (Fp.exBias + 2)
  let root (v : Int) (k : Int) : Word := qWord (Fp.isqrt ((v * k).toNat / 2 ^ (Fp.exBias + 1 - 128)) 130 0)
  match law with
  | 0 => (qWord (cosQ t), qWord (sinQ t))
  | 1 => (ratWord (one - q) 2 0, ratWord (one + q) 2 0)
  | 2 => (root (cosQ t) (one - q), root (sinQ t) (one + q))
  | _ => (ratWord (if q < 0 then one else one - q) 1 0, ratWord (if 0 < q then one else one + q) 1 0)

/-- The first 32 samples are multiplied by (n + 1) / 32 (R500, R606, R618). -/
def fadeIn (w : Word) (k : Nat) : Word :=
  if 32 ≤ k then w
  else
    let v := Fp.exact w
    (Fp.round { v with mag := v.mag * (k + 1), ex := v.ex - 5 }).1

end Sys2Proof.Machine
end

