-- ==== Sys2Proof/Machine/Wire.lean ====
section
/-! DEFINITION. Messages between family devices and Wamund cells as bytes (R353, R529, R545, R548, R556, R762, R838). -/

namespace Sys2Proof.Machine

/-- A pour message (R353). -/
def pourBytes (m : PourMsg) : List Byte :=
  natToBytes 2 m.kind ++ natToBytes 2 m.origin ++ natToBytes 4 m.tag ++ natToBytes 8 m.issue ++ natToBytes 8 m.si ++
  natToBytes 4 m.rate ++ natToBytes 2 m.scene ++ natToBytes 1 m.policy ++ natToBytes 1 m.law ++
  natToBytes 8 (m.endSi.getD (2 ^ 64 - 1)) ++ natToBytes 4 m.ramp ++
  natToBytes 4 (if m.kind = 3 then m.status.code % 256 + m.pstate % 256 * 256 else 0)

/-- The common fields of a pair message, and the body of a DIGEST (R762); the manual gives no layout of the other bodies. -/
def pairBytes (m : PairMsg) : List Byte :=
  let bit (b : Bool) (n : Nat) : Nat := if b then n else 0
  let head := natToBytes 2 m.kind ++ natToBytes 2 m.origin ++ natToBytes 2 m.pair ++
    natToBytes 2 (bit m.ready 1 + bit m.suspect 2 + bit m.errorFound 4 + bit m.refuse 8) ++ natToBytes 4 m.epoch ++
    natToBytes 4 m.seq ++ natToBytes 8 m.si
  if m.kind = 0x12 then
    head ++ natToBytes 1 m.group ++ natToBytes 1 m.digests.length ++ List.replicate 6 0 ++ m.digests.flatMap (natToBytes 8)
  else head

/-- A PARAM_FWD (R556). -/
def paramFwdBytes (m : ParamFwd) : List Byte :=
  natToBytes 2 0x20 ++ natToBytes 2 m.origin ++ natToBytes 4 m.tag ++ natToBytes 8 m.si ++ natToBytes 4 m.rate ++
  natToBytes 4 m.ramp ++ natToBytes 2 m.items.length ++ natToBytes 2 (if m.eqPower then 1 else 0) ++ natToBytes 4 0 ++
  m.items.flatMap fun i => natToBytes 4 i.handle ++ natToBytes 4 i.value.toNat

/-- A PARAM_ACK (R556). -/
def paramAckBytes (origin tag : Nat) (st : Status) : List Byte :=
  natToBytes 2 0x21 ++ natToBytes 2 origin ++ natToBytes 4 tag ++ natToBytes 1 st.code

/-- A timestamp in 1/16 ns as its 12 bytes (R545). -/
def stampBytes (t : Nat) : List Byte :=
  natToBytes 6 (t / 16000000000) ++ natToBytes 4 (t / 16 % 1000000000) ++ natToBytes 1 (t % 16) ++ natToBytes 1 0

/-- The payload of a TIME cell (R545). -/
def timeBytes (c : TimeCell) : List Byte :=
  natToBytes 4 c.tseq ++ stampBytes c.prevTx ++ natToBytes 4 c.echoSeq ++ stampBytes c.echoRx ++ natToBytes 8 c.markSi ++
  stampBytes c.markTime ++ natToBytes 4 c.rate ++ natToBytes 2 c.block ++
  natToBytes 1 ((if c.aligned then 1 else 0) + (if c.ptp then 2 else 0)) ++ natToBytes 1 c.thops ++ natToBytes 2 c.refDev ++
  natToBytes 2 0 ++ natToBytes 8 c.gm

/-- The header of a bundle (R548). -/
def bundleBytes (h : BundleHdr) : List Byte :=
  natToBytes 2 h.flow ++ natToBytes 2 h.channels ++ natToBytes 2 h.block ++ natToBytes 2 0 ++ natToBytes 8 h.si ++
  natToBytes 4 h.rate ++ List.replicate 12 0

/-- The payload bytes of a cell in use; of the kinds whose bytes the manual does not give, none. -/
def payloadBytes : WlPayload → List Byte
  | .time t => timeBytes t
  | .pour m _ => pourBytes m
  | .pair m => pairBytes m
  | .paramFwd m => paramFwdBytes m
  | .paramAck o t st => paramAckBytes o t st
  | .audio h ws => (match h with | some b => bundleBytes b | none => []) ++ ws.flatMap fun w => natToBytes 4 w.toNat
  | _ => []

/-- Payload bytes in use of a CTRL message (R529); the whole payload where its bytes are not given. -/
def payloadLen (p : WlPayload) : Nat :=
  match p with
  | .pour _ _ | .paramFwd _ | .paramAck _ _ _ => (payloadBytes p).length
  | _ => 224

/-- The header of a cell (R529). -/
def cellHeader (c : Cell) : List Byte :=
  let bit (b : Bool) (n : Nat) : Nat := if b then n else 0
  natToBytes 1 (c.type % 16 + c.vc % 4 * 16 + bit c.bcast 64) ++
  natToBytes 1 (c.hops % 32 + bit c.first 32 + bit c.last 64 + bit c.nak 128) ++ natToBytes 2 c.dst ++ natToBytes 2 c.src ++
  natToBytes 2 (if c.type = 1 then 0 else c.seq) ++ natToBytes 2 c.ack ++
  ((List.range 4).flatMap fun v => natToBytes 1 (c.credit.getD v 0)) ++ natToBytes 1 c.len ++ natToBytes 1 0

/-- Header and payload of a cell before encryption: 240 bytes, to which the link adds its tag (R528). -/
def cellBytes (c : Cell) : List Byte :=
  cellHeader c ++ (payloadBytes c.payload ++ List.replicate 224 0).take 224

end Sys2Proof.Machine
end

