-- ==== Sys2Proof/Machine/PourOps.lean ====
section
/-! DEFINITION. The life of a pour on this engine beyond its compilation: its counters, its reports and its end (R356,
R360, R361, R368–R371, R375). -/

namespace Sys2Proof.Machine

/-- A final state of R360. -/
def phaseFinal : PourPhase → Bool
  | .compiling | .armed | .running => false
  | _ => true

/-- State codes of a REPORT message (R353): the order of R360. -/
def phaseCode : PourPhase → Nat
  | .compiling => 0 | .armed => 1 | .running => 2 | .finished => 3 | .cancelled => 4 | .partly => 5 | .refused => 6

/-- The event ring of a command's completions (R452). -/
def State.cmdRing (s : State) (h : CmdHdr) : Nat :=
  match h.src with
  | .ring c => s.get (Reg.HOST_CRING_CFG_EVT c.val) % 4
  | .urgent _ => s.ringOf .urg

/-- A pour counts as live until it is final (R338); a dry run is none (R340). -/
def State.liveCount (s : State) : Nat := (s.pours.live.filter fun p => !phaseFinal p.phase && !p.dryRun).length

/-- SCHED_POUR_LIVE follows the live pours (R375). -/
def State.countLive (s : State) : State :=
  (s.put Reg.SCHED_POUR_LIVE_LIVE s.liveCount).raise Reg.SCHED_POUR_LIVE_HWM s.liveCount

def samePour (o t : Nat) (p : Pour) : Bool := p.origin == o && p.tag == t

/-- The pour of an identity. -/
def State.pour (s : State) (o t : Nat) : Option Pour := s.pours.live.find? (samePour o t)

/-- One pour changed. -/
def State.modPour (s : State) (o t : Nat) (f : Pour → Pour) : State :=
  { s with pours := { s.pours with live := s.pours.live.map fun p => if samePour o t p then f p else p } }

/-- The route entry of a DEVNUM: 0–3 a port, 4 NET, 5 LOCAL, 7 NONE (R540). -/
def State.route (s : State) (dev : Nat) : Nat := if dev = s.devnum then 5 else Tab.get 7 s.wl.route dev

/-- A cell becomes ready on a port (R535). -/
def State.queueCell (s : State) (p : Nat) (c : Cell) : State :=
  s.modWl p fun x => { x with ready := Tab.upd [] x.ready c.vc fun l => l ++ [c] }

/-- A CTRL message to a device: on the port its route names, or toward the network control class (R541, R555). -/
def State.sendCtrl (s : State) (dev : Nat) (m : WlPayload) : State :=
  if s.route dev < 4 then s.queueCell (s.route dev) { vc := 1, dst := dev, src := s.devnum, len := payloadLen m, payload := m }
  else if s.route dev = 4 then { s with wl := { s.wl with netOut := s.wl.netOut ++ [(dev, m)] } }
  else s

/-- A pair message of this engine, with the flags and settings it carries (R761, R762). -/
def State.pairMsg (s : State) (kind : Nat) : PairMsg :=
  { kind := kind, origin := s.devnum, pair := s.get Reg.PAIR_PARTNER_PARTNER, ready := s.bit Reg.PAIR_STATUS_READY,
    suspect := s.bit Reg.PAIR_STATUS_SUSPECT, epoch := s.get Reg.PAIR_EPOCH_EPOCH, si := (s.dom 0).si,
    mode := s.get Reg.PAIR_CFG_MODE, leaseMs := s.get Reg.PAIR_TIMES_LEASE_MS, guardMs := s.get Reg.PAIR_TIMES_GUARD_MS }

/-- A pair message to the partner, on the pair link and with NETBACK also in the network control class (R761). -/
def State.sendPair (s : State) (m : PairMsg) : State :=
  let dev := s.get Reg.PAIR_PARTNER_PARTNER
  let s1 := s.queueCell (s.get Reg.PAIR_CFG_PORT) { vc := 1, dst := dev, src := s.devnum, len := 224, payload := .pair m }
  if s.bit Reg.PAIR_CFG_NETBACK then { s1 with wl := { s1.wl with netOut := s1.wl.netOut ++ [(dev, .pair m)] } } else s1

/-- A message to a device (R353). -/
def State.sendPour (s : State) (dev : Nat) (m : PourMsg) : State := s.sendCtrl dev (.pour m true)

/-- What the originator's descriptor completes with (R371). -/
def pourResult (p : Pour) : Status :=
  let sts := p.devs.map fun d => d.posted.getD .aborted
  if !p.devs.any (·.applied) then (if p.cancelled then .aborted else p.status)
  else if sts.any (· == .partly) || !p.devs.all (·.applied) then .partly
  else if sts.any (· == .late) then .late
  else .ok

/-- The pour leaves the table once its originator has posted every report; the descriptor completes, and the identity is
kept among the last 64; a cancel that has not been reached changes nothing (R368, R371). -/
def State.closePour (s : State) (p : Pour) : State :=
  if phaseFinal p.phase && p.devs.all (·.posted.isSome) then
    let s1 : State := { s with pours := { s.pours with
      live := s.pours.live.filter fun q => !samePour p.origin p.tag q,
      finished := ((p.origin, p.tag) :: s.pours.finished).take 64 } }
    let s2 := match p.completes, p.hdr with
      | true, some h => s1.finish h 0x0200 (pourResult p) p.detail p.startSi 0
      | _, _ => s1
    match p.cancel with
    | some (_, some h, _) => s2.finish h 0x0201 .empty 0 0 0
    | _ => s2
  else s

/-- One POUR_REPORT event (R370); FLAGS: bit 0 NO_REPLY, bit 1 CANCELLED, bit 2 DELAYED_ITEMS. -/
def State.pourReport (s : State) (p : Pour) (dev : Nat) (st : Status) (flags si detail : Nat) (applied : Bool) : State :=
  let r := match p.hdr with | some h => s.cmdRing h | none => s.ringOf .other
  let s1 := s.postTo r { code := 2, status := st, tag := p.tag, si := si,
                         body := [p.tag, dev, st.code, flags, si, detail] } none
  let s2 := s1.modPour p.origin p.tag fun q =>
    { q with devs := q.devs.map fun d => if d.dev = dev then { d with heard := true, posted := some st, applied := applied } else d }
  match s2.pour p.origin p.tag with
  | some q => s2.closePour q
  | none => s2

/-- A member of a pair that stands by sends nothing and posts nothing for a pour (R374). -/
def State.standby (s : State) : Bool := decide (s.get Reg.PAIR_STATUS_ROLE = 2)

/-- The pour reaches a final state on this engine: it is counted, and reported here or to its originator. -/
def State.endPour (s : State) (p : Pour) (ph : PourPhase) (st : Status) (detail : Nat) : State :=
  let s1 := (s.modPour p.origin p.tag fun q => { q with phase := ph, status := st, detail := detail }).countLive
  let s2 := match ph with
    | .refused => s1.bump Reg.SCHED_POUR_REF_CNT_COUNT
    | .partly => s1.bump Reg.SCHED_POUR_PART_CNT_COUNT
    | _ => s1
  match s2.pour p.origin p.tag with
  | none => s2
  | some q =>
    if s.standby then s2.closePour { q with completes := false, devs := [] }
    else if q.origin = s.devnum ∧ q.devs ≠ [] then
      s2.pourReport q s.devnum st ((if q.cancelled && !(q.startSi != 0) then 2 else 0) + (if q.delayed ≠ 0 then 4 else 0))
        q.startSi (if q.delayed ≠ 0 then q.delayed else detail) (q.startSi != 0)
    else
      let s3 := s2.sendPour q.origin { kind := 3, origin := q.origin, tag := q.tag, issue := q.issue, si := q.startSi,
                                       status := st, pstate := phaseCode ph }
      s3.closePour { q with devs := [] }

/-- What a running pour still has: entries, crossfades or patch changes. -/
def State.pourBusy (s : State) (o t : Nat) : Bool :=
  s.mix.changes.any (fun c => c.pour == some (o, t)) || s.mix.fades.any (fun c => c.pours.contains (o, t)) ||
  s.mix.patchChanges.any (fun c => c.pour == some (o, t)) || s.mix.swaps.any (fun c => c.pour == some (o, t))

/-- A PARAM_SET or ROUTE completes when its crossfades have ended (R161). -/
def State.retireWaits (s : State) : State :=
  let done (w : FadeWait) : Bool := !s.mix.fades.any fun x => x.waiters.contains w.id
  (s.modMix fun m => { m with waits := m.waits.filter fun w => !done w }).each (s.mix.waits.filter done) fun w t =>
    t.finish w.hdr w.opcode (if w.cutSeen then .partly else w.status) 0 w.si 0

/-- A pour leaves RUNNING when its last entry has retired and its last crossfade has ended (R360, R361). -/
def State.retirePours (s : State) : State :=
  s.retireWaits.each (s.pours.live.filter fun p => decide (p.phase = .running)) fun p t =>
    if t.pourBusy p.origin p.tag then t
    else if p.cutSeen then t.endPour p .partly .partly 0
    else t.endPour p .finished (if p.late || p.delayed ≠ 0 then .late else .ok) 0

end Sys2Proof.Machine
end

