-- ==== Sys2Proof/Machine/Net.lean ====
section
/-! DEFINITION. Network ports: streams, classifier rules, cue entries, modules and MACsec (R483–R522). What a received frame
does is in NetRx.lean. -/

namespace Sys2Proof

/-! ### Stream records (R66, R489–R494) -/

/-- A source or destination address (R66). -/
def mkAddr (kind ch : Nat) : Nat := kind * 2 ^ 24 + ch

/-- Bytes of a sample of a format (R490). -/
def formatWidth (f : Nat) : Nat := match f with | 0 => 2 | 1 => 3 | _ => 4

/-- S of R489. -/
def packetSamples (ptime rate : Nat) : Nat :=
  let base := match ptime with | 0 => 6 | 1 => 12 | 2 => 16 | _ => 48
  if 176400 ≤ rate then 4 * base else if 88200 ≤ rate then 2 * base else base

def StreamRec.S (r : StreamRec) : Nat := packetSamples r.ptime r.rate
def StreamRec.w (r : StreamRec) : Nat := formatWidth r.format

/-- The ports a stream uses. -/
def StreamRec.ports (r : StreamRec) : List Nat := if r.dup then [0, 1] else if r.portB then [1] else [0]

/-- The channels of a stream as addresses. -/
def StreamRec.addrs (r : StreamRec) : List Nat := (List.range r.channels).map fun k => mkAddr 1 (r.first + k)

/-- Paths of a stream as a mask. -/
def StreamRec.pathMask (r : StreamRec) : Nat := if r.dup then 3 else if r.portB then 2 else 1

namespace Machine

/-! ### Addresses and the patch -/

def addrKind (a : Nat) : Nat := a / 2 ^ 24
def addrChan (a : Nat) : Nat := a % 2 ^ 24

/-- A patch names an address as its source, now or by a change that waits (R48). -/
def State.patchedSource (s : State) (a : Nat) : Bool :=
  s.mix.patch.any (fun p => p.2.source == a) || s.mix.patchChanges.any (fun p => p.source == a)

/-- A patch feeds an address from some source. -/
def State.patchedDest (s : State) (a : Nat) : Bool :=
  decide ((Tab.get {} s.mix.patch a).source ≠ 0) || s.mix.patchChanges.any (fun p => p.dst == a && decide (p.source ≠ 0))

/-- ASRC channels of the shared pool in use (R112, R593): those of the AES3 receivers are their own. -/
def State.poolUsed (s : State) : Nat := (s.audio.asrc.filter fun e => decide (addrKind e.1 ≠ 4)).length

/-- The pool registers follow the channels in use. -/
def State.countPool (s : State) : State :=
  (s.put Reg.AES_ASRC_POOL_USED s.poolUsed).raise Reg.AES_ASRC_POOL_HWM s.poolUsed

/-- A source takes or gives back an ASRC channel. -/
def State.takeAsrc (s : State) (a : Nat) : State := { s with audio := { s.audio with asrc := Tab.put none s.audio.asrc a (some {}) } }
def State.dropAsrc (s : State) (a : Nat) : State := { s with audio := { s.audio with asrc := Tab.put none s.audio.asrc a none } }

/-- A bridge of a source into another domain, as an entry of the ASRC table (R112). -/
def bridgeKey (src d : Nat) : Nat := (d + 1) * 2 ^ 32 + src

def State.modAsrc (s : State) (a : Nat) (f : AsrcCh → AsrcCh) : State :=
  { s with audio := { s.audio with asrc := Tab.upd none s.audio.asrc a fun x => x.map f } }

/-- FINAL of a channel, in 0.1 Hz (R594). -/
def State.asrcFinal (s : State) (a : Nat) : Nat :=
  if addrKind a = 4 then s.get (Reg.AES_RX_CTL_FINAL (addrChan a / 2)) else s.get Reg.AES_ASRC_CFG_FINAL

/-- The loop bandwidth in 0.1 Hz, whole units below (log entry 20). -/
def State.asrcBw (s : State) (a : Nat) (x : AsrcCh) : Nat := max (s.asrcFinal a) (1000 / 2 ^ x.halvings)

/-- AES_RXn_BW and _RATIO follow a receiver's channel. -/
def State.showAsrc (s : State) (a : Nat) : State :=
  match Tab.get none s.audio.asrc a with
  | some x => if addrKind a = 4 then s.put (Reg.AES_RX_BW_BW (addrChan a / 2)) (s.asrcBw a x) else s
  | none => s

/-- R595: the channel fades out and starts again. -/
def State.restartAsrc (s : State) (a : Nat) : State := (s.modAsrc a fun y => { y with halvings := 0, released := false }).showAsrc a

/-- The input of a source is lost under its interface's rule: every channel that converts it starts again (R595). -/
def State.restartSource (s : State) (a : Nat) : State :=
  s.each (a :: (List.range 3).map (bridgeKey a)) fun k t => if (Tab.get none t.audio.asrc k).isSome then t.restartAsrc k else t

/-! ### Stream records -/

/-- A rate of R108. -/
def legalRate (r : Nat) : Bool := [44100, 48000, 88200, 96000, 176400, 192000].contains r

def State.streams (s : State) (rx : Bool) : List (Nat × StreamRec) :=
  (if rx then s.net.rx else s.net.tx).filterMap fun e => e.2.map fun x => (e.1, x.record)

/-- The streams of a direction once every waiting command has taken effect (R493). -/
def State.streamsPlanned (s : State) (rx : Bool) : List (Nat × StreamRec) :=
  s.net.pendingOps.foldl (fun l o =>
    match o.2 with
    | .stream d r => if d = rx then (r.stream, r) :: l.filter (fun e => decide (e.1 ≠ r.stream)) else l
    | .del d n => if d = rx then l.filter (fun e => decide (e.1 ≠ n)) else l
    | _ => l) (s.streams rx)

/-- The flows of a port once every waiting command has taken effect (R559). -/
def State.flowsPlanned (s : State) (rx : Bool) (p : Nat) : List FlowRec :=
  let now := if rx then ((s.wlp p).rx.filterMap fun e => e.2.map (·.record)) else (s.wlp p).tx.filterMap (·.2)
  let key (r : FlowRec) : Nat := if rx then r.peer * 256 + r.flow else r.flow
  s.net.pendingOps.foldl (fun l o =>
    match o.2 with
    | .wlFlow d r => if d = rx ∧ r.port = p then r :: l.filter (fun q => key q != key r) else l
    | .wlFlowDel d q k => if d = rx ∧ q = p then l.filter (fun r => key r != k) else l
    | _ => l) now

/-- ASRC channels of the pool once every waiting command has taken effect (R112, R593), but for those of one stream, or of the flow of
one port and key. -/
def State.poolPlanned (s : State) (stream : Option Nat) (flow : Option (Nat × Nat)) : Nat :=
  let st := (s.streamsPlanned true).filter fun e => e.2.domain == 3 && some e.1 != stream
  let fl := (List.range 4).flatMap fun p =>
    (s.flowsPlanned true p).filter fun r => r.domain == 3 && some (p, r.peer * 256 + r.flow) != flow
  (s.audio.asrc.filter fun e => not ([1, 2, 4].contains (addrKind e.1))).length + (st.map fun e => e.2.channels).sum + (fl.map (·.channels)).sum

/-- The ranges of R494 and R490. -/
def State.recordRange (s : State) (rx : Bool) (r : StreamRec) : Bool :=
  let jumbo := r.ports.all fun p => s.bit (Reg.NET_CTL_JUMBO p)
  let p := if jumbo then 8960 else 1440
  r.reservedOk && decide (r.stream < 512) && decide (r.format ≤ 3) && decide (1 ≤ r.channels) &&
  decide (r.channels ≤ min 64 (p / (r.S * r.w))) && decide (r.ptime ≤ 3) && decide (r.domain ≤ 3) &&
  (rx || r.domain != 3) && legalRate r.rate &&
  (r.domain == 3 || (decide ((s.dom r.domain).rate = r.rate) && (s.dom r.domain).configured)) &&
  decide (r.first + r.channels ≤ 4096) && decide (96 ≤ r.pt) && decide (r.pt ≤ 127) && decide (r.dscp < 64) &&
  decide (r.vlan % 2 ^ 13 < 4096) && (!r.float || r.format == 2) && (r.format != 3 || decide (r.channels % 2 = 0)) &&
  (if rx then decide (1 ≤ r.linkOffset) && decide (r.linkOffset ≤ 16384) else r.linkOffset == 0)

def overlaps (a b : StreamRec) : Bool := decide (a.first < b.first + b.channels) && decide (b.first < a.first + a.channels)

/-- R491: channels and channel rate of a direction. -/
def streamLoad (l : List StreamRec) : Nat × Nat :=
  ((l.map fun r => r.channels * r.rate).sum, (l.map (·.channels)).sum)

/-- R492. -/
def State.bufferBytes (s : State) (rx : Bool) (l : List StreamRec) : Nat :=
  (l.map fun r =>
    r.channels * r.w * (if rx then r.linkOffset + r.S + (s.dom (if r.domain = 3 then 0 else r.domain)).block else r.S)).sum

/-- The first rule of R495 that a record breaks. -/
def State.recordCheck (s : State) (rx : Bool) (r : StreamRec) : Option Status :=
  let l := s.streamsPlanned rx
  let others := (l.filter fun e => decide (e.1 ≠ r.stream)).map (·.2)
  let old := (l.find? fun e => decide (e.1 = r.stream)).map (·.2)
  let load := streamLoad (r :: others)
  if !s.recordRange rx r then some .refused
  else if others.any (overlaps r) then some .refused
  else if r.dup && (s.bit (Reg.NET_CTL_JUMBO 0) != s.bit (Reg.NET_CTL_JUMBO 1)) then some .refused
  else if 196608000 < load.1 ∨ 4096 < load.2 ∨ (if rx then 524288 else 131072) < s.bufferBytes rx (r :: others) then
    some .noHeadroom
  else if rx && r.domain == 3 && decide (240 < s.poolPlanned (some r.stream) none + r.channels) then some .noHeadroom
  else
    match old with
    | some o =>
      if (o.first ≠ r.first ∨ o.channels ≠ r.channels ∨ o.domain ≠ r.domain) ∧
          o.addrs.any (fun a => if rx then s.patchedSource a else s.patchedDest a) then some .busy else none
    | none => none

/-- A NET_* command waits for the next P-domain boundary (R493). -/
def State.netLater (s : State) (h : CmdHdr) (o : NetOp) : State :=
  { s with net := { s.net with pendingOps := s.net.pendingOps ++ [(h, o)] } }

/-- A stream record is fetched, checked and queued. -/
def State.streamCmd (s : State) (h : CmdHdr) (op : Nat) (rx : Bool) (addr : Nat) (r : StreamRec) : State :=
  if !s.windowOk addr 128 false then s.refuse h op .windowFault 16 0
  else
    match s.recordCheck rx r with
    | some st => s.refuse h op st 16 0
    | none => s.netLater h (.stream rx r)

def execNetStreamTx (h : CmdHdr) (addr : Nat) (r : StreamRec) (s : State) : Out := .next (s.streamCmd h 0x0800 false addr r)
def execNetStreamRx (h : CmdHdr) (addr : Nat) (r : StreamRec) (s : State) : Out := .next (s.streamCmd h 0x0801 true addr r)

/-- R493, R495. -/
def execNetStreamDel (h : CmdHdr) (dir n : Nat) (s : State) : Out :=
  if 1 < dir ∨ 511 < n then .next (s.refuse h 0x0802 .refused (if 1 < dir then 16 else 18) 0)
  else
    match (s.streamsPlanned (dir == 1)).find? fun e => decide (e.1 = n) with
    | some e =>
      if e.2.addrs.any (fun a => if dir = 1 then s.patchedSource a else s.patchedDest a) then
        .next (s.refuse h 0x0802 .busy 18 0)
      else .next (s.netLater h (.del (dir == 1) n))
    | none => .next (s.netLater h (.del (dir == 1) n))

/-- R493, R522. -/
def execNetStreamStat (h : CmdHdr) (dir first count addr : Nat) (s : State) : Out :=
  if 1 < dir ∨ 512 < first + count then .next (s.refuse h 0x0803 .refused (if 1 < dir then 16 else 18) 0)
  else if !s.windowOk addr (64 * count) true then .next (s.refuse h 0x0803 .windowFault 24 0)
  else .next (s.netLater h (.stat (dir == 1) first count addr))

/-- R507, R508: a refused rule sets CFG_REJ. -/
def execNetClsRule (h : CmdHdr) (addr : Nat) (r : RuleRec) (s : State) : Out :=
  let ok := r.reservedOk && decide (32 ≤ r.index) && decide (r.index ≤ 511) && decide (r.ports < 8) &&
    [2, 3, 4, 7].contains r.cls && decide (r.mtch < 2 ^ 11) && decide (r.vid < 4096) && decide (r.pcp < 8) &&
    decide (r.dscp < 64) && decide (r.srcLen ≤ 128) && decide (r.dstLen ≤ 128) && decide (r.cueEntry < 64) &&
    decide (1 ≤ r.burst) && decide (r.burst ≤ 256)
  if !s.windowOk addr 64 false then .next ((s.set Reg.CLS_STATUS_CFG_REJ).refuse h 0x0804 .windowFault 16 0)
  else if !ok then .next ((s.set Reg.CLS_STATUS_CFG_REJ).refuse h 0x0804 .refused 16 0)
  else .next (s.netLater h (.rule r))

/-- R510. -/
def execNetCue (h : CmdHdr) (r : CueRec) (s : State) : Out :=
  if r.reservedOk && decide (r.entry < 64) && (decide (r.key < 16) || r.key == 255) && decide (r.template < 64) then
    .next (s.netLater h (.cue r))
  else .next (s.refuse h 0x0805 .refused 16 0)

/-- R518: at most 64 host groups to a port. -/
def execNetJoin (h : CmdHdr) (port op addr group source : Nat) (s : State) : Out :=
  let mine := s.net.pendingOps.foldl (fun l o =>
    match o.2 with
    | .join p leave g src => if p = port then (if leave then l.filter (· ≠ (g, src)) else (g, src) :: l.filter (· ≠ (g, src))) else l
    | _ => l) (Tab.get [] s.net.groups port)
  if 2 < port ∨ 1 < op then .next (s.refuse h 0x0806 .refused (if 2 < port then 16 else 17) 0)
  else if !s.windowOk addr 32 false then .next (s.refuse h 0x0806 .windowFault 24 0)
  else if op = 0 ∧ 64 ≤ mine.length ∧ mine.contains (group, source) = false then .next (s.refuse h 0x0806 .busy 16 0)
  else .next (s.netLater h (.join port (op == 1) group source))

/-! ### What takes effect at the boundary -/

/-- A stream starts, or replaces another; a receive stream through ASRC takes a channel for each of its own (R113, R495). -/
def State.startStream (s : State) (rx : Bool) (r : StreamRec) : State :=
  let d := s.dom (if r.domain = 3 then 0 else r.domain)
  let x : StreamSt := { record := r, next := d.si }
  if rx then
    let old := (Tab.get none s.net.rx r.stream).map (·.record)
    let s1 := match old with
      | some o => if o.domain = 3 then s.each o.addrs fun a t => t.dropAsrc a else s
      | none => s
    let s2 := if r.domain = 3 then s1.each r.addrs fun a t => t.takeAsrc a else s1
    ({ s2 with net := { s2.net with rx := Tab.put none s2.net.rx r.stream (some x) } }).countPool
  else { s with net := { s.net with tx := Tab.put none s.net.tx r.stream (some x) } }

def State.stopStream (s : State) (rx : Bool) (n : Nat) : State :=
  if rx then
    let s1 := match (Tab.get none s.net.rx n).map (·.record) with
      | some o => if o.domain = 3 then s.each o.addrs fun a t => t.dropAsrc a else s
      | none => s
    ({ s1 with net := { s1.net with rx := Tab.put none s1.net.rx n none } }).countPool
  else { s with net := { s.net with tx := Tab.put none s.net.tx n none } }

/-- A 64-byte statistics record (R522). -/
def statRecord (x : StreamSt) : List Byte :=
  ([x.packets, x.late, x.early, x.malformed, x.lossA, x.lossB, x.concealed, x.lastSsrc].map fun v =>
    natToBytes 4 (v % 2 ^ 32)).flatten ++ natToBytes 32 0

/-- WLx_AUDIO.LOCAL of a port follows its transmit flows (R551, R562): the cells of its bundles in a P-domain frame, other
domains at their rate, rounded up. -/
def State.flowCells (s : State) (r : FlowRec) : Nat :=
  let b := (s.dom r.domain).block
  let n := (32 + 4 * r.channels * b + 223) / 224
  if r.domain = 0 then n
  else
    let p := s.dom 0
    let d := s.dom r.domain
    (n * d.rate * p.block + p.rate * d.block - 1) / (p.rate * d.block)

def State.localCells (s : State) (p : Nat) : Nat := ((s.wlp p).tx.map fun e => match e.2 with | some r => s.flowCells r | none => 0).sum

def State.countCells (s : State) (p : Nat) : State := s.put (Reg.WLP_AUDIO_LOCAL p) (s.localCells p)

/-- A Wamund flow starts or replaces another (R549, R553): a receive flow through ASRC takes a channel for each of its own. -/
def flowAddrs (r : FlowRec) : List Nat := (List.range r.channels).map fun k => mkAddr 2 (r.port * 8192 + r.first + k)

def State.stopFlow (s : State) (rx : Bool) (port key : Nat) : State :=
  if rx then
    let s1 := match Tab.get none (s.wlp port).rx key with
      | some o => if o.record.domain = 3 then s.each (flowAddrs o.record) fun a t => t.dropAsrc a else s
      | none => s
    (s1.modWl port fun x => { x with rx := Tab.put none x.rx key none }).countPool
  else (s.modWl port fun x => { x with tx := Tab.put none x.tx key none }).countCells port

def State.startFlow (s : State) (rx : Bool) (r : FlowRec) : State :=
  if rx then
    let s1 := s.stopFlow true r.port (r.peer * 256 + r.flow)
    let s2 := if r.domain = 3 then s1.each (flowAddrs r) fun a t => t.takeAsrc a else s1
    (s2.modWl r.port fun x => { x with rx := Tab.put none x.rx (r.peer * 256 + r.flow) (some { record := r }) }).countPool
  else (s.modWl r.port fun x => { x with tx := Tab.put none x.tx r.flow (some r) }).countCells r.port

/-- What a NET_WL_PARAM or NET_WL_DISTRIBUTE completes with once every peer has answered (R557, R560). -/
def waitResult (w : WlWait) : Status :=
  let st (d : Nat) : Status := match w.answers.find? fun a => a.1 == d with | some a => a.2 | none => .aborted
  let l := w.peers.map st
  if l.all (· == .ok) then .ok
  else if w.opcode = 0x0885 then l.headD .aborted
  else if l.any (· == .ok) then .partly
  else l.headD .aborted

/-- An answer from a peer; the command completes with the last of them. -/
def State.answerWait (s : State) (op tag dev : Nat) (st : Status) : State :=
  match s.wl.waits.find? fun w => w.opcode == op && w.hdr.tag == tag && w.peers.contains dev && !w.answers.any fun a => a.1 == dev with
  | none => s
  | some w =>
    let w1 : WlWait := { w with answers := w.answers ++ [(dev, st)] }
    if w1.peers.all fun d => w1.answers.any fun a => a.1 == d then
      State.finish { s with wl := { s.wl with waits := s.wl.waits.filter (· ≠ w) } } w.hdr op (waitResult w1) 0 (s.dom 0).si 0
    else { s with wl := { s.wl with waits := s.wl.waits.map fun x => if x = w then w1 else x } }

/-- A port is UP (R526). -/
def State.wlUp (s : State) (p : Nat) : Bool := decide (s.get (Reg.WLP_STATUS_STATE p) = 4)

/-- An image goes to a peer in BULK cells, first to last (R557); one that no port reaches has failed. -/
def State.sendImage (s : State) (h : CmdHdr) (i : ProgImage) (dev : Nat) : State :=
  let p := s.route dev
  if p < 4 ∧ s.wlUp p = true then
    let n := max 1 ((i.bytes + 223) / 224)
    s.each (List.range n) fun k t =>
      t.queueCell p { vc := 3, dst := dev, src := s.devnum, first := k == 0, last := k + 1 == n,
                      len := min 224 (i.bytes - 224 * k), payload := if k + 1 = n then .image s.devnum h.tag i else .bulk }
  else s.answerWait 0x0886 h.tag dev .refused

/-- One waiting command takes effect, and completes. -/
def State.applyNetOp (s : State) (h : CmdHdr) (o : NetOp) : State :=
  let fin (t : State) (op : Nat) : State := t.finish h op .ok 0 (s.dom 0).si 0
  match o with
  | .stream rx r => fin (s.startStream rx r) (if rx then 0x0801 else 0x0800)
  | .del rx n => fin (s.stopStream rx n) 0x0802
  | .stat rx first count addr =>
    s.report addr ((List.range count).flatMap fun k =>
        statRecord ((Tab.get none (if rx then s.net.rx else s.net.tx) (first + k)).getD {}))
      ⟨h, 0x0803, .ok, 0, (s.dom 0).si, 0, false⟩
  | .rule r =>
    fin { s with net := { s.net with
      rules := Tab.put none s.net.rules r.index (if Nat.testBit r.mtch 10 then some r else none),
      ruleBuckets := Tab.put {} s.net.ruleBuckets r.index {} } } 0x0804
  | .cue r => fin { s with net := { s.net with cues := Tab.put none s.net.cues r.entry (some r) } } 0x0805
  | .join p leave g src =>
    let l := (Tab.get [] s.net.groups p).filter (· ≠ (g, src))
    fin { s with net := { s.net with groups := Tab.put [] s.net.groups p (if leave then l else l ++ [(g, src)]) } } 0x0806
  | .wlRoute l => fin { s with wl := { s.wl with route := l.foldl (fun t e => Tab.put 7 t e.1 e.2) s.wl.route } } 0x0880
  | .wlFlow rx r => fin (s.startFlow rx r) (if rx then 0x0882 else 0x0881)
  | .wlFlowDel rx p k => fin (s.stopFlow rx p k) 0x0883
  | .wlTransit p n => fin (s.put (Reg.WLP_AUDIO_TRANSIT p) n) 0x0884
  | .wlParam dev m =>
    State.sendCtrl { s with wl := { s.wl with waits := s.wl.waits ++ [{ hdr := h, peers := [dev] }] } } dev (.paramFwd m)
  | .wlDist dg peers =>
    match s.sched.programs.find? fun i => i.digest == dg with
    | none => s.finish h 0x0886 .refused 16 0 0
    | some i =>
      State.each { s with wl := { s.wl with waits := s.wl.waits ++ [{ hdr := h, opcode := 0x0886, peers := peers }] } } peers
        fun d t => t.sendImage h i d

/-- Every waiting NET_* command, in order of dispatch (R493). -/
def State.applyNetOps (s : State) : State :=
  ({ s with net := { s.net with pendingOps := [] } }).each s.net.pendingOps fun o t => t.applyNetOp o.1 o.2

/-! ### Sample forms (R115, R116, R118) -/

/-- A w-bit integer sample as binary32 (R115). -/
def fromInt (w n : Nat) : Word :=
  let i : Int := if 2 ^ (w - 1) ≤ n % 2 ^ w then (n % 2 ^ w : Nat) - (2 ^ w : Nat) else (n % 2 ^ w : Nat)
  (Fp.round ⟨decide (i < 0), i.natAbs, Fp.exBias - (w - 1)⟩).1

/-- A binary32 sample as a w-bit integer (R118). -/
def toIntSample (w : Nat) (x : Word) : Nat :=
  let v := Fp.exact (Fp.scrub x)
  let e := v.ex + (w - 1)
  let m := if e < Fp.exBias then Fp.shiftRNE v.mag (Fp.exBias - e) else v.mag * 2 ^ (e - Fp.exBias)
  if v.neg then (if 2 ^ (w - 1) ≤ m then 2 ^ (w - 1) else (2 ^ w - m) % 2 ^ w)
  else if 2 ^ (w - 1) ≤ m then 2 ^ (w - 1) - 1 else m

/-- A sample scrubbed on entry (R116): replaced samples are counted by the receiving interface. -/
def scrubIn (x : Word) : Word × Bool :=
  if Fp.isNaN x then (0, true) else if Fp.isInf x then (Fp.scrub x, true) else if Fp.isSub x then (0, true) else (x, false)

/-- The binary32 sample of a wire word in a stream's format; AM824 carries 24 bits of audio below its label. -/
def wireToSample (r : StreamRec) (v : Nat) : Word × Bool :=
  match r.format with
  | 0 => (fromInt 16 v, false)
  | 1 => (fromInt 24 v, false)
  | 2 => if r.float then scrubIn (BitVec.ofNat 32 v) else (fromInt 32 v, false)
  | _ => (fromInt 24 (v % 2 ^ 24), false)

/-- The wire word of a sample (R118, R119). -/
def sampleToWire (r : StreamRec) (x : Word) : Nat :=
  match r.format with
  | 0 => toIntSample 16 x
  | 1 => toIntSample 24 x
  | 2 => if r.float then x.toNat else toIntSample 32 x
  | _ => toIntSample 24 x

/-- A product with a gain; a gain of zero gives exact zero. -/
def gainMul (w g : Word) : Word := if g = 0 then 0 else if g = 0x3F800000 then w else (Fp.mul w g).1

/-- The output group of a destination address under the policy in force (R463). -/
def State.groupOf (s : State) (a : Nat) : Nat := Tab.get 0 (s.trust.policy.getD {}).groups a % 64

/-- The key of the gain of a destination of domain d that a synchronous bridge feeds from another (R720). -/
def fedGate (src a d : Nat) : Nat := 16 + 16 * a + 4 * src + d

/-- Hush, start and range gains of a destination of domain d on the sample of SI t (R464, R716, R720). -/
def State.outGain (s : State) (d a t : Nat) (w : Word) : Word :=
  let hush := gateGain (Tab.get {} s.host.hushGain (4 * s.groupOf a + d)) (s.samplesMs d 2) t
  let start := match Tab.get none s.pwr.unmute d with
    | some g => gateGain g (s.samplesMs d (s.get Reg.PWR_UNMUTE_MS)) t
    | none => 0
  let own := gainMul (gainMul (gainMul w hush) start) (gateGain (Tab.get {} s.pwr.gain d) (s.samplesMs d 5) t)
  (List.range 3).foldl (fun x src => gainMul x (gateGain (Tab.get {} s.pwr.gain (fedGate src a d)) (s.samplesMs d 5) t)) own

/-- A sample emitted at a destination address of domain d at an output SI; none emitted reads as zero. The samples of the
running frame period take their gains here, those before it have them. -/
def State.emitted (s : State) (d a si : Nat) : Word :=
  let w := Tab.get 0 (Tab.get [] s.mix.tx a) si
  if si < (s.dom d).si then w else s.outGain d a si w

/-- The SI of a stream's next packet: after a pause of sending it goes on from the running block, in step with its packets
before (R496, log entry 22). -/
def StreamSt.nextAt (x : StreamSt) (si : Nat) : Nat :=
  if x.next + 512 < si then x.next + (si - x.next + x.record.S - 1) / max 1 x.record.S * x.record.S else x.next

/-- R496, R498: the packet whose first sample has output SI `next` leaves once the domain has reached it plus S. -/
def execStreamPacketTx (n : Fin 512) (s : State) : Out :=
  match Tab.get none s.net.tx n.val with
  | none => .next s
  | some x =>
    let r := x.record
    let d := s.dom r.domain
    let si := x.nextAt d.si
    if (Nat.testBit (s.get Reg.TIME_STATUS_ALIGNED) r.domain && s.sending r.domain) = true ∧ si + r.S ≤ d.si + d.block then
      let ws := (List.range r.S).map fun k => r.addrs.map fun a => sampleToWire r (s.emitted r.domain a (si + k))
      let y := { x with next := si + r.S, seq := (x.seq + 1) % 2 ^ 16, packets := x.packets + 1,
                        lastStamp := (si + r.rtpOffset) % 2 ^ 32, lastWords := ws.flatten }
      .next (({ s with net := { s.net with tx := Tab.put none s.net.tx n.val (some y) } }).each r.ports fun p t =>
        t.bump (Reg.NET_TX_FRAMES_COUNT p))
    else .next s

/-- R501: no in-time packet for NETx_LOSS.MS on any path; the ASRC channels of a lost input start again (R595). -/
def execStreamLoss (n : Fin 512) (s : State) : Out :=
  match Tab.get none s.net.rx n.val with
  | none => .next s
  | some x =>
    if x.lost then .next s
    else
      let s1 : State := { s with net := { s.net with rx := Tab.put none s.net.rx n.val (some { x with lost := true }) } }
      .next ((s1.each x.record.addrs fun a t => t.restartSource a).postNow .net (some 40) 0x0102 [1, n.val, 1, x.record.pathMask])

/-! ### Concealment (R500) -/

/-- One sample of a receive channel: a gap fades from the last good sample over 32 samples, and the first 32 good samples
after it fade in. Also whether the sample was concealed. -/
def conceal (g : GapSt) (x : Option Word) : Word × GapSt × Bool :=
  match x with
  | none =>
    let n := if g.good = 0 then g.missing else 0
    (if n < 32 then fadeSample 32 g.last n else 0, { g with missing := min 32 (n + 1), good := 0 }, true)
  | some w =>
    if g.missing = 0 then (w, { g with last := w }, false)
    else
      let v := Fp.exact w
      ((Fp.round { v with mag := v.mag * (g.good + 1), ex := v.ex - 5 }).1,
       { missing := if g.good = 31 then 0 else g.missing, good := if g.good = 31 then 0 else g.good + 1, last := w }, false)

/-- A block of a channel through the concealment. -/
def concealBlock (g : GapSt) : List (Option Word) → List Word × GapSt × Nat
  | [] => ([], g, 0)
  | x :: t =>
    let r := conceal g x
    let q := concealBlock r.2.1 t
    (r.1 :: q.1, q.2.1, q.2.2 + if r.2.2 then 1 else 0)

/-! ### Modules, links, MACsec -/

/-- A port's link goes down, with its event (R519). -/
def State.netLink (s : State) (x : Nat) (up : Bool) : State :=
  if s.bit (Reg.NET_STATUS_LINK x) = up then s
  else (s.putBit (Reg.NET_STATUS_LINK x) up).postNow .net (some (37 + x)) 0x0100 [x, if up then 1 else 0]

/-- The vector of NET_MODULE (R519): the table gives one to NETA and NETB, and NETM uses that of its event ring (R454). -/
def moduleVector (x : Nat) : Option Nat := if x < 2 then some (37 + x) else none

/-- A module is refused: the port stays down (R485). -/
def State.refuseModule (s : State) (x : Nat) : State :=
  (((s.put (Reg.NET_STATUS_MOD_OK x) 0).netLink x false).set (Reg.NET_STATUS_MOD_REJ x)).postNow .net (moduleVector x) 0x0101 [x, 3]

/-- The configured rate has changed under a module (R485): whether its compliance codes hold the new rate is a free value (log entry
159). -/
def State.recheckModule (s : State) (x : Nat) : State :=
  if s.bit (Reg.NET_STATUS_MOD_PRESENT x) then
    let s1 := s.take
    if s.get (Reg.NET_MOD_A0_DATA x 0) % 256 = 3 ∧ s.free.toNat % 2 = 1 then s1.set (Reg.NET_STATUS_MOD_OK x) else s1.refuseModule x
  else s

/-- R485: the first 96 bytes of the A0h page; byte 0 is the identifier. -/
def execNetModuleInsert (x : Fin 3) (a0 : List Byte) (rateOk : Bool) (s : State) : Out :=
  let s1 := (s.set (Reg.NET_STATUS_MOD_PRESENT x.val)).each (List.range 24) fun j t =>
    t.put (Reg.NET_MOD_A0_DATA x.val j) (bytesToNat ((a0.drop (4 * j)).take 4))
  if a0.getD 0 0 = 3 ∧ rateOk = true then
    .next ((s1.set (Reg.NET_STATUS_MOD_OK x.val)).postNow .net (moduleVector x.val) 0x0101 [x.val, 1])
  else .next (s1.refuseModule x.val)

/-- R485: an accepted module that declares digital diagnostics (byte 92, bit 6) is read once a second. -/
def execNetDdmPoll (x : Fin 3) (a2 : List Byte) (alarm los : Bool) (s : State) : Out :=
  if s.bit (Reg.NET_STATUS_MOD_OK x.val) && Nat.testBit (s.get (Reg.NET_MOD_A0_DATA x.val 23)) 6 then
    let s1 := (s.each (List.range 3) fun j t =>
      t.put (Reg.NET_MOD_DDM_DATA x.val j) (bytesToNat ((a2.drop (4 * j)).take 4))).putBit (Reg.NET_STATUS_RX_LOS x.val) los
    .next (if alarm then
      (let s2 := s1.set (Reg.NET_STATUS_DDM_ALARM x.val)
       if s.bit (Reg.NET_STATUS_DDM_ALARM x.val) then s2 else s2.postNow .net (moduleVector x.val) 0x0101 [x.val, 4])
      else s1)
  else .next s

/-- R485, R519: a module has left. -/
def execNetModuleRemoved (x : Fin 3) (s : State) : Out :=
  if s.bit (Reg.NET_STATUS_MOD_PRESENT x.val) then
    .next ((((s.put (Reg.NET_STATUS_MOD_PRESENT x.val) 0).put (Reg.NET_STATUS_MOD_OK x.val) 0).netLink x.val false).postNow
      .net (moduleVector x.val) 0x0101 [x.val, 2])
  else .next s

/-- R519: an enabled port with an accepted module may come up. -/
def execNetLinkChange (x : Fin 3) (up : Bool) (s : State) : Out :=
  if up && !(s.bit (Reg.NET_CTL_EN x.val) && s.bit (Reg.NET_STATUS_MOD_OK x.val)) then .next s
  else .next (s.netLink x.val up)

/-- R514, R515: a secure association is live, or its key has rolled. -/
def execMacsecKeyAgreement (x : Fin 2) (rolled : Bool) (rxSc : Fin 65) (s : State) : Out :=
  if s.get (Reg.NET_MACSEC_MODE x.val) = 0 then .next s
  else .next (((s.set (Reg.NET_MACSEC_MKA_UP x.val)).put (Reg.NET_MACSEC_RX_SC x.val) rxSc.val).postNow .net (some 42) 0x0104
    [x.val, if rolled then 2 else 1])

/-- R519. -/
def execMacsecPeerLost (x : Fin 2) (s : State) : Out :=
  if s.bit (Reg.NET_MACSEC_MKA_UP x.val) then
    .next (((s.put (Reg.NET_MACSEC_MKA_UP x.val) 0).put (Reg.NET_MACSEC_RX_SC x.val) 0).postNow .net (some 42) 0x0104 [x.val, 3])
  else .next s

/-- R520. -/
def execNetxCntClr (x : Fin 3) (s : State) : Out := s.ifHost <|
  .next (s.clear [Reg.NET_RX_FRAMES_COUNT x.val, Reg.NET_TX_FRAMES_COUNT x.val, Reg.NET_MACSEC_DROP_COUNT x.val,
    Reg.NET_HOST_DROP_COUNT x.val])

/-- R521. -/
def execClsCntClr (s : State) : Out := s.ifHost <|
  .next (s.clear ((List.range 5).map Reg.CLS_CLASS_DROP_COUNT ++ [Reg.CLS_HOST_POLICE_COUNT, Reg.CLS_CUE_FAIL_COUNT] ++
    (List.range 512).map Reg.CLS_RULE_CNT_COUNT))

end Machine
end Sys2Proof
end

