-- ==== Sys2Proof/Machine/Audio.lean ====
section
/-! DEFINITION. Serial ports, AES3 receivers and transmitters, and the ASRC bank (R563–R599). -/

namespace Sys2Proof.Machine

/-! ### Port configurations -/

/-- FRAME ticks per sample at a rate: fF / fs (R565). -/
def ticksPerSample (rate : Nat) : Nat := 512 * (if rate % 11025 = 0 then 88200 else 96000) / rate

def State.groupDomain (s : State) (g : Nat) : Nat := s.get (Reg.APG_CFG_DOMAIN g)

/-- The domain at whose boundaries a group's ports start and stop (R572). -/
def State.groupBoundary (s : State) (g : Nat) : Nat := if s.groupDomain g = 3 then 0 else s.groupDomain g

/-- The rate of a group: its domain's, or what it measures (R564). -/
def State.groupRate (s : State) (g : Nat) : Nat :=
  if s.groupDomain g = 3 then s.get (Reg.APG_STATUS_MEAS_RATE g) else (s.dom (s.groupDomain g)).rate

def widthBits (code : Nat) : Nat := match code with | 0 => 16 | 1 => 24 | _ => 32

/-- Slots of a group's format, and bits of a slot (R567). -/
def State.groupSlots (s : State) (g : Nat) : Nat × Nat :=
  let nb := 2 ^ s.get (Reg.APG_CFG_LOG2_NB g)
  match s.get (Reg.APG_CFG_FORMAT g) with
  | 0 | 1 => (2, nb / 2)
  | 2 => (s.get (Reg.APG_CFG_SLOTS g), widthBits (s.get (Reg.APG_CFG_SLOTW g)))
  | _ => (s.get (Reg.APG_CFG_SLOTS g), 32)

def State.isPairFormat (s : State) (p : Nat) : Bool := decide (s.get (Reg.APG_CFG_FORMAT (p / 4)) = 3)

/-- The channels of a port's enabled slots (R568, R569). -/
def State.portChannels (s : State) (p : Nat) : List Nat :=
  let slots := (List.range (s.groupSlots (p / 4)).1).filter fun k => Nat.testBit (s.get (Reg.APORT_P_SLOT_EN_SLOTS p)) k
  if s.isPairFormat p then (slots.map fun j => [p * 32 + 2 * j, p * 32 + 2 * j + 1]).flatten else slots.map (p * 32 + ·)

def State.portOut (s : State) (p : Nat) : Bool := s.bit (Reg.APORT_P_CTL_DIR p)

/-- A configuration that R564, R565, R567, R568 or R574 forbids (R571). -/
def State.portBad (s : State) (p : Nat) : Bool :=
  let g := p / 4
  let master := s.bit (Reg.APG_CFG_MASTER g)
  let asrc := decide (s.groupDomain g = 3)
  let lg := s.get (Reg.APG_CFG_LOG2_NB g)
  let nb := 2 ^ lg
  let fmt := s.get (Reg.APG_CFG_FORMAT g)
  let sl := s.groupSlots g
  let wc := s.get (Reg.APORT_P_CTL_WIDTH p)
  let e := s.get (Reg.APG_CFG_ELASTIC g)
  (master && asrc) || decide (lg < 5) || decide (10 < lg) ||
  (if master then decide (ticksPerSample (s.groupRate g) < nb) else decide (49152000 < nb * s.groupRate g)) ||
  (fmt == 2 && (decide (sl.1 < 2) || decide (32 < sl.1) || decide (s.get (Reg.APG_CFG_SLOTW g) = 3))) ||
  (fmt == 3 && (decide (sl.1 < 1) || decide (16 < sl.1))) || decide (s.get (Reg.APG_CFG_SLOTW g) = 3) ||
  (decide (2 ≤ fmt) && decide (nb < sl.1 * sl.2)) ||
  decide (wc = 3) || (if fmt = 3 then wc != 0 else decide (sl.2 < widthBits wc)) ||
  (!master && !asrc && (decide (e < 2) || decide (16 < e)))

/-- Channel rate of a direction over the enabled ports (R570). -/
def State.portLoad (s : State) (out : Bool) : Nat :=
  ((List.range 16).map fun p =>
    if s.bit (Reg.APORT_P_CTL_EN p) && s.portOut p == out then (s.portChannels p).length * s.groupRate (p / 4) else 0).sum

/-- An asynchronous input port takes a pool channel for each of its channels (R575). -/
def State.portAsrc (s : State) (p : Nat) : List Nat :=
  if decide (s.groupDomain (p / 4) = 3) && !s.portOut p then (s.portChannels p).map (mkAddr 3) else []

/-- EN = 1 written to a port, or restored (R571, R842): CFG_REJ or CAP_REJ where it stays 0. -/
def State.enablePort (s : State) (p : Nat) : State :=
  if s.bit (Reg.APORT_P_CTL_EN p) then s
  else if s.portBad p then s.set Reg.APORT_STATUS_CFG_REJ
  else
    let s1 := s.set (Reg.APORT_P_CTL_EN p)
    if s.portRefused p then s.set (Reg.APORT_P_STATUS_CAP_REJ p)
    else if 24576000 < s1.portLoad (s.portOut p) ∨ 240 < max s.poolUsed (s.poolPlanned none none) + (s.portAsrc p).length then s.set (Reg.APORT_P_STATUS_CAP_REJ p)
    else (s1.each (s.portAsrc p) fun a t => t.takeAsrc a).countPool

/-- EN cleared: the ASRC channels are given back. -/
def State.disablePort (s : State) (p : Nat) : State :=
  ((s.put (Reg.APORT_P_CTL_EN p) 0).each (s.portAsrc p) fun a t => t.dropAsrc a).countPool

/-- R572, R574, R580: the port starts, with half-word phase 0. A master group has no FS edge before the first lock of its MPLL (R566). -/
def execAportStart (p : Fin 16) (s : State) : Out :=
  let fs := !s.bit (Reg.APG_CFG_MASTER (p.val / 4)) || s.bit (Reg.APG_STATUS_CLK_OK (p.val / 4))
  if s.bit (Reg.APORT_P_CTL_EN p.val) && !s.bit (Reg.APORT_P_STATUS_RUNNING p.val) && fs then
    let s1 : State := { s with audio := { s.audio with
      unpack := Tab.put false s.audio.unpack p.val false, turns := s.audio.turns.filter fun e => decide (e.1 ≠ p.val) } }
    .next (((s1.set (Reg.APORT_P_STATUS_RUNNING p.val)).put (Reg.APORT_P_STATUS_STOPPED p.val) 0).put
      (Reg.APORT_P_STATUS_PAIR_PHASE p.val) 0)
  else .next s

/-- R572. -/
def execAportStop (p : Fin 16) (s : State) : Out :=
  if s.bit (Reg.APORT_P_STATUS_RUNNING p.val) && !s.bit (Reg.APORT_P_CTL_EN p.val) then
    .next ((s.put (Reg.APORT_P_STATUS_RUNNING p.val) 0).set (Reg.APORT_P_STATUS_STOPPED p.val))
  else .next s

/-- At most one APORT_FAULT to a port and cause in 10 ms (R581, R597). -/
def State.aportFault (s : State) (p cause : Nat) : State :=
  let k := p * 8 + cause
  let last := Tab.get 0 s.audio.faultAt k
  let now := (s.dom 0).si
  if last ≠ 0 ∧ now < last - 1 + s.samplesMs 0 10 then s
  else
    ({ s with audio := { s.audio with faultAt := Tab.put 0 s.audio.faultAt k (now + 1) } }).postNow .other none 0x0120
      [p, cause, s.get (Reg.APORT_P_CNT_XRUN p)]

/-- The half-word phase of a port at an SI (R578): that in force, but for turns that come after it. -/
def State.swappedAt (s : State) (p si : Nat) : Bool :=
  let now := if s.portOut p then s.bit (Reg.APORT_P_STATUS_PAIR_PHASE p) else Tab.get false s.audio.unpack p
  s.isPairFormat p && (now != decide ((s.audio.turns.filter fun e => decide (e.1 = p ∧ si < e.2)).length % 2 = 1))

/-- A damaged FS period, sample k of the running block: zero on every channel of the port (R577), and in PAIR format on those whose
half-words were not among the first `moved` (R578). -/
def State.damage (s : State) (p k moved : Nat) : State :=
  let si := (s.dom (s.groupBoundary (p / 4))).si + k
  let sw := s.swappedAt p si
  let lost := if s.isPairFormat p then ((s.portChannels p).drop moved).map fun c => if sw then Nat.xor c 1 else c else s.portChannels p
  s.each lost fun c t =>
    let a := mkAddr 3 c
    if t.portOut p then
      t.modMix fun m => { m with tx := Tab.upd [] m.tx a fun l => Tab.put 0 l si 0 }
    else { t with audio := { t.audio with damaged := (a, si) :: t.audio.damaged } }

/-- The half-word phase after a damaged period, sample k of the running block, in which `moved` half-words were moved (R578, R579). -/
def State.phaseAfter (s : State) (p k moved : Nat) : State :=
  if s.isPairFormat p && moved % 2 == 1 then
    let next := (s.dom (s.groupBoundary (p / 4))).si + k + 1
    let s0 : State := { s with audio := { s.audio with turns := (p, next) :: s.audio.turns } }
    if s.portOut p then
      let was := s.bit (Reg.APORT_P_STATUS_PAIR_PHASE p)
      let s1 := s0.putBit (Reg.APORT_P_STATUS_PAIR_PHASE p) (!was)
      if was then s1 else (s1.set (Reg.APORT_P_STATUS_PAIR_SWAP p)).aportFault p 4
    else { s0 with audio := { s0.audio with unpack := Tab.upd false s0.audio.unpack p fun b => !b } }
  else s

/-- The damage of R576 arises only in a running port of a synchronous slave group. -/
def State.mayXrun (s : State) (p : Nat) : Bool :=
  s.bit (Reg.APORT_P_STATUS_RUNNING p) && !s.bit (Reg.APG_CFG_MASTER (p / 4)) && decide (s.groupDomain (p / 4) ≠ 3)

/-- R576–R578: an output buffer was empty at an FS edge. -/
def execAportUnderrun (p : Fin 16) (k moved : Nat) (s : State) : Out :=
  if s.mayXrun p.val && s.portOut p.val then
    .next (((((s.set (Reg.APORT_P_STATUS_UNDERRUN p.val)).bump (Reg.APORT_P_CNT_XRUN p.val)).damage p.val k moved).phaseAfter
      p.val k moved).aportFault p.val 1)
  else .next s

/-- R576–R578: an input buffer overflowed. -/
def execAportOverrun (p : Fin 16) (k moved : Nat) (s : State) : Out :=
  if s.mayXrun p.val && !s.portOut p.val then
    .next (((((s.set (Reg.APORT_P_STATUS_OVERRUN p.val)).bump (Reg.APORT_P_CNT_XRUN p.val)).damage p.val k moved).phaseAfter
      p.val k moved).aportFault p.val 2)
  else .next s

/-- R576, R577: FS_ERR on every enabled port of the group. -/
def execAportFramingError (g : Fin 4) (k : Nat) (s : State) : Out :=
  .next (s.each ((List.range 4).map (4 * g.val + ·)) fun p t =>
    if t.mayXrun p then
      (((t.set (Reg.APORT_P_STATUS_FS_ERR p)).bump (Reg.APORT_P_CNT_FS_ERR_CNT p)).damage p k 0).aportFault p 3
    else t)

/-- R579: 8 FS periods with the inverted marker on an input port. -/
def execPairSwapDetect (p : Fin 16) (s : State) : Out :=
  if s.bit (Reg.APORT_P_CTL_PAIR_MARK p.val) && !s.portOut p.val && s.isPairFormat p.val &&
      s.bit (Reg.APORT_P_STATUS_RUNNING p.val) then
    .next (((s.set (Reg.APORT_P_STATUS_PAIR_PHASE p.val)).set (Reg.APORT_P_STATUS_PAIR_SWAP p.val)).aportFault p.val 4)
  else .next s

/-- R598. -/
def execAportCntClr (s : State) : Out := s.ifHost <|
  .next (s.clear ((List.range 16).map Reg.APORT_P_CNT_XRUN ++ (List.range 16).map Reg.APORT_P_CNT_FS_ERR_CNT))

/-! ### The ASRC bank -/

/-- R594: the bandwidth halves, down to FINAL; `ratio` is the estimate the channel has come to. -/
def execAsrcNarrow (a : Nat) (ratio : BitVec 32) (s : State) : Out :=
  match Tab.get none s.audio.asrc a with
  | none => .next s
  | some x =>
    let s1 := if 2 ^ x.halvings * s.asrcFinal a < 1000 then s.modAsrc a fun y => { y with halvings := y.halvings + 1 } else s
    let s2 := if addrKind a = 4 then s1.put (Reg.AES_RX_RATIO_RATIO (addrChan a / 2)) ratio.toNat else s1
    .next (s2.showAsrc a)

/-- R594: from 25 Hz the channel delivers; the receiver's two channels release together (R585, R597). -/
def execAsrcRelease (a : Nat) (s : State) : Out :=
  match Tab.get none s.audio.asrc a with
  | none => .next s
  | some x =>
    if x.released ∨ x.halvings < 2 then .next s
    else
      let s1 := s.modAsrc a fun y => { y with released := true }
      let n := addrChan a / 2
      .next (if addrKind a = 4 ∧ s.get (Reg.AES_RX_STATUS_LOCK n) = 2 then
        (s1.put (Reg.AES_RX_STATUS_LOCK n) 3).postNow .other none 0x0121
          [n, 1, aesRates.getD (s.get (Reg.AES_RX_STATUS_RATE n)) 0]
      else s1)

/-- R595: the loop returns to 100 Hz without muting. -/
def execAsrcRetrack (a : Nat) (s : State) : Out :=
  match Tab.get none s.audio.asrc a with
  | none => .next s
  | some _ => .next (((s.modAsrc a fun y => { y with halvings := 0 }).bump Reg.AES_ASRC_POOL_RETRACK).showAsrc a)

/-- R595. -/
def execAsrcRestart (a : Nat) (s : State) : Out :=
  let n := addrChan a / 2
  let s1 := s.restartAsrc a
  .next (if addrKind a = 4 ∧ s.get (Reg.AES_RX_STATUS_LOCK n) = 3 then s1.put (Reg.AES_RX_STATUS_LOCK n) 2 else s1)

/-! ### AES3 -/

/-- The two sources of a receiver (R585). -/
def rxAddrs (n : Nat) : List Nat := [mkAddr 4 (2 * n), mkAddr 4 (2 * n + 1)]

/-- R583, R594: three clean Z preambles; tracking begins. -/
def execAesRxLock (n : Fin 8) (rate : Fin 7) (ratio : BitVec 32) (s : State) : Out :=
  if s.bit (Reg.AES_RX_CTL_EN n.val) && decide (s.get (Reg.AES_RX_STATUS_LOCK n.val) < 2) then
    let s1 := ((s.put (Reg.AES_RX_STATUS_LOCK n.val) 2).put (Reg.AES_RX_STATUS_RATE n.val) rate.val).put
      (Reg.AES_RX_RATIO_RATIO n.val) ratio.toNat
    .next ((s1.each (rxAddrs n.val) fun a t =>
      if (Tab.get none t.audio.asrc a).isSome then t.restartAsrc a else t.takeAsrc a).showAsrc (mkAddr 4 (2 * n.val)))
  else .next s

/-- A receiver has no lock: both channels fade to zero (R583, R585). -/
def State.rxUnlock (s : State) (n : Nat) : State :=
  ((s.put (Reg.AES_RX_STATUS_LOCK n) 0).loseAes n).each (rxAddrs n) fun a t => t.restartSource a

/-- A transmitter sends zero with V = 1 while the transmit gate is closed and before the first frame of its domain (R591). -/
def State.aesGated (s : State) (n : Nat) : Bool :=
  s.bit (Reg.AES_TX_CTL_EN n) &&
    (!s.bit Reg.PAIR_STATUS_GATE_OPEN || (Tab.get none s.pwr.unmute (s.get (Reg.AES_TX_CTL_DOMAIN n))).isNone)

def State.showGated (s : State) : State := s.each (List.range 8) fun n t => t.putBit (Reg.AES_TX_STATUS_GATED n) (t.aesGated n)

/-- EN cleared on a receiver or a transmitter (R583, R590). -/
def State.disableAesRx (s : State) (n : Nat) : State := (s.put (Reg.AES_RX_CTL_EN n) 0).rxUnlock n
def State.disableAesTx (s : State) (n : Nat) : State :=
  ((s.put (Reg.AES_TX_CTL_EN n) 0).put (Reg.AES_TX_STATUS_RUNNING n) 0).put (Reg.AES_TX_STATUS_GATED n) 0

def execAesRxLockLoss (n : Fin 8) (s : State) : Out :=
  if 2 ≤ s.get (Reg.AES_RX_STATUS_LOCK n.val) then
    .next (((s.rxUnlock n.val).set (Reg.AES_RX_STATUS_LOST n.val)).postNow .other none 0x0121
      [n.val, 0, aesRates.getD (s.get (Reg.AES_RX_STATUS_RATE n.val)) 0])
  else .next s

/-- One bit into the CRC x^8 + x^4 + x^3 + x^2 + 1, bits in the order received (R586). -/
def crcBit (c : Nat) (b : Bool) : Nat :=
  let top := (c / 128 % 2 == 1) != b
  Nat.xor (c * 2 % 256) (if top then 0x1D else 0)

def crcByte (c : Nat) (x : Byte) : Nat := (List.range 8).foldl (fun c k => crcBit c (x.getLsbD k)) c

/-- The CRC of bytes 0–22 as byte 23 carries it: the register's bits in the order they are sent. -/
def csCrc (l : List Byte) : Nat :=
  let c := (l.take 23).foldl crcByte 0xFF
  (List.range 8).foldl (fun v k => v + if Nat.testBit c (7 - k) then 2 ^ k else 0) 0

/-- One subframe's channel-status block (R586): whether the capture changed in any bit. -/
def State.takeCs (s : State) (n sub : Nat) (l : List Byte) : State × Bool :=
  let pro := (l.getD 0 0).getLsbD 0
  if pro && decide ((l.getD 23 0).toNat ≠ csCrc l) then
    (((s.set (Reg.AES_RX_STATUS_CRC_ERR n)).bump (Reg.AES_RX_ERR_CNT_CRC n)).loseAes n, false)
  else
    let v := bytesToNat (l.take 24)
    let old := Tab.get 0 s.audio.capture (2 * n + sub)
    (({ s with audio := { s.audio with capture := Tab.put 0 s.audio.capture (2 * n + sub) v } }).putBit
      (Reg.AES_RX_STATUS_CONSUMER n) (!pro), decide (v ≠ old))

/-- R586: complete blocks of both subframes. -/
def execAesCsBlock (n : Fin 8) (a b : List Byte) (s : State) : Out :=
  if s.get (Reg.AES_RX_STATUS_LOCK n.val) = 0 then .next s
  else
    let ra := s.takeCs n.val 0 a
    let rb := ra.1.takeCs n.val 1 b
    if ra.2 || rb.2 then
      .next ((rb.1.set (Reg.AES_RX_STATUS_CS_CHANGED n.val)).postNow .other none 0x0122
        [n.val, (if ra.2 then 1 else 0) + if rb.2 then 2 else 0])
    else .next rb.1

/-- R587. -/
def execAesRxCsSnap (n : Fin 8) (s : State) : Out := s.ifHost <|
  .next (s.each (List.range 6) fun k t =>
    (t.put (Reg.AES_RX_CS_A_BYTES n.val k) (Tab.get 0 s.audio.capture (2 * n.val) / 2 ^ (32 * k))).put
      (Reg.AES_RX_CS_B_BYTES n.val k) (Tab.get 0 s.audio.capture (2 * n.val + 1) / 2 ^ (32 * k)))

/-- R592. -/
def execAesTxCommit (n : Fin 8) (s : State) : Out := s.ifHost <| .next (s.set (Reg.AES_TX_STATUS_PENDING n.val))

/-- A template as it is sent: byte 23 of a professional template is the CRC (R592). -/
def sentTemplate (v : Nat) : Nat :=
  let l := natToBytes 24 v
  if (l.getD 0 0).getLsbD 0 then v % 2 ^ 184 + csCrc l * 2 ^ 184 else v

/-- The staging template of a subframe. -/
def State.staging (s : State) (n sub : Nat) : Nat :=
  (List.range 6).foldl (fun v k =>
    v + s.get (if sub = 0 then Reg.AES_TX_CS_A_BYTES n k else Reg.AES_TX_CS_B_BYTES n k) * 2 ^ (32 * k)) 0

/-- The running frame period of a transmitter's domain has a sample boundary whose SI is a multiple of 192 (R590). -/
def State.aesBlockIn (s : State) (n : Nat) : Bool :=
  let d := s.dom (s.get (Reg.AES_TX_CTL_DOMAIN n))
  decide (ceilDiv d.si 192 * 192 < d.si + d.block)

/-- R590, R592: a Z preamble; pending templates are adopted together. -/
def execAesTxBlockStart (n : Fin 8) (s : State) : Out :=
  if s.aesBlockIn n.val && s.bit (Reg.AES_TX_STATUS_RUNNING n.val) && s.bit (Reg.AES_TX_STATUS_PENDING n.val) then
    let s1 : State := { s with audio := { s.audio with
      active := Tab.put 0 (Tab.put 0 s.audio.active (2 * n.val) (sentTemplate (s.staging n.val 0))) (2 * n.val + 1)
        (sentTemplate (s.staging n.val 1)) } }
    .next (s1.put (Reg.AES_TX_STATUS_PENDING n.val) 0)
  else .next s

/-- R590: the first SI multiple of 192 after the boundary that follows EN. -/
def execAesTxStart (n : Fin 8) (s : State) : Out :=
  .next (if s.aesBlockIn n.val && s.bit (Reg.AES_TX_CTL_EN n.val) then s.set (Reg.AES_TX_STATUS_RUNNING n.val) else s)

/-- R599. -/
def execAesCntClr (s : State) : Out := s.ifHost <|
  .next ((s.clear ((List.range 8).map Reg.AES_RX_ERR_CNT_PARITY ++ (List.range 8).map Reg.AES_RX_ERR_CNT_CRC ++
    [Reg.AES_ASRC_POOL_RETRACK])).put Reg.AES_ASRC_POOL_HWM s.poolUsed)

end Sys2Proof.Machine
end

