-- ==== Sys2Proof/Machine/Address.lean ====
section
/-! DEFINITION. What an address of a source or destination names (R66, R69): its domain, whether the configuration contains
it, its stage offset, and what its interface adds to a path's latency (R48, R58, R288). -/

namespace Sys2Proof.Machine

/-- The stream of a direction that carries a channel. -/
def State.streamOf (s : State) (rx : Bool) (ch : Nat) : Option StreamRec :=
  ((s.streams rx).map (·.2)).find? fun r => decide (r.first ≤ ch) && decide (ch < r.first + r.channels)

/-- The flow of a direction that carries a Wamund channel. -/
def State.flowOf (s : State) (rx : Bool) (ch : Nat) : Option FlowRec :=
  let x := s.wlp (ch / 8192)
  let l := if rx then x.rx.filterMap (fun e => e.2.map (·.record)) else x.tx.filterMap (·.2)
  l.find? fun r => decide (r.first ≤ ch % 8192) && decide (ch % 8192 < r.first + r.channels)

def inLayout (i : SchedImage) (cls idx : Nat) : Bool :=
  i.layout.any fun p => p.cls == cls && decide (p.first ≤ idx) && decide (idx < p.first + p.count)

/-- Kinds whose channels terminate in the engine (R48): what reaches it from outside. -/
def terminates (a : Nat) : Bool := [1, 2, 3, 4, 6, 7].contains (addrKind a)

/-- The domain of a rate field, ASRC counting as none. -/
def domField (d : Nat) : Option Nat := if d < 3 then some d else none

/-- The take that records on a track (R674). -/
def State.trackTake (s : State) (t : Nat) : Option Take := s.store.takes.find? fun x => !x.closed && x.tracks.contains t

/-- The play of a playback track. -/
def State.trackPlay (s : State) (t : Nat) : Option Play := s.store.plays.find? fun x => x.track == t

/-- The domain a source or destination runs in; none for one that comes through an ASRC channel, whose output takes the
domain of what it feeds (R113). -/
def State.addrDomain (s : State) (i : SchedImage) (src : Bool) (a : Nat) : Option Nat :=
  let ch := addrChan a
  match addrKind a with
  | 1 => match s.streamOf src ch with | some r => domField r.domain | none => some 0
  | 2 => match s.flowOf src ch with | some r => domField r.domain | none => some 0
  | 3 => domField (s.groupDomain (ch / 128))
  | 4 => if src then some (s.get (Reg.AES_RX_CTL_DOMAIN (ch / 2))) else some (s.get (Reg.AES_TX_CTL_DOMAIN (ch / 2)))
  | 5 => if src then (match s.trackPlay ch with | some p => some p.domain | none => some 0)
         else (match s.trackTake ch with | some t => some t.domain | none => some 0)
  | 6 => some (s.get Reg.HUBA_DOMAIN_CONV_DOM)
  | 7 => some (s.get Reg.HUBA_DOMAIN_PS_DOM)
  | 8 => some (objectDomain i (mkHandle 0x0A ch 0))
  | 0x10 => some (objectDomain i (mkHandle 1 ch 0))
  | 0x11 => some (objectDomain i (mkHandle 2 ch 0))
  | 0x12 => some (objectDomain i (mkHandle 3 ch 0))
  | 0x13 => some (objectDomain i (mkHandle 6 ch 0))
  | 0x14 => some (objectDomain i (mkHandle 1 (ch / 2) 0))
  | _ => none

/-- The configuration contains a source (R66, R69). -/
def State.sourceExists (s : State) (i : SchedImage) (a : Nat) : Bool :=
  let ch := addrChan a
  match addrKind a with
  | 0 => ch == 0
  | 1 => (s.streamOf true ch).isSome
  | 2 => decide (ch < 32768) && (s.flowOf true ch).isSome
  | 3 => decide (ch < 512) && s.bit (Reg.APORT_P_CTL_EN (ch / 32)) && !s.portOut (ch / 32) && (s.portChannels (ch / 32)).contains ch
  | 4 => decide (ch < 16) && s.bit (Reg.AES_RX_CTL_EN (ch / 2))
  | 5 => decide (ch < 1024)
  | 6 => decide (ch < 2)
  | 8 => inLayout i 0x0A ch
  | 0x10 => inLayout i 1 ch
  | 0x11 => inLayout i 2 ch
  | 0x12 => inLayout i 3 ch
  | 0x13 => inLayout i 6 ch
  | 0x14 => inLayout i 1 (ch / 2)
  | _ => false

/-- The configuration contains a destination (R66, R69). -/
def State.destExists (s : State) (i : SchedImage) (a : Nat) : Bool :=
  let ch := addrChan a
  match addrKind a with
  | 1 => (s.streamOf false ch).isSome
  | 2 => decide (ch < 32768) && (s.flowOf false ch).isSome
  | 3 => decide (ch < 512) && s.bit (Reg.APORT_P_CTL_EN (ch / 32)) && s.portOut (ch / 32) && (s.portChannels (ch / 32)).contains ch
  | 4 => decide (ch < 16) && s.bit (Reg.AES_TX_CTL_EN (ch / 2))
  | 5 => decide (ch < 1024)
  | 6 => decide (ch < 2)
  | 7 => decide (ch < 2)
  | 0x10 => inLayout i 1 ch
  | 0x14 => inLayout i 1 (ch / 2)
  | _ => false

/-! ### What destinations name (R48, R67, R71) -/

/-- The strip a destination feeds. -/
def destStrip (a : Nat) : Option Nat :=
  match addrKind a with
  | 0x10 => some (addrChan a)
  | 0x14 => some (addrChan a / 2)
  | _ => none

/-- The source a destination has from an SI of its domain on, once the changes planned up to it are made. -/
def State.patchAt (s : State) (dst t : Nat) : Nat :=
  let l := s.mix.patchChanges.filter fun p => p.dst == dst && decide (p.target ≤ t)
  match l.foldl (fun (m : Option PatchChange) p => match m with
      | some q => if q.target < p.target ∨ (q.target = p.target ∧ q.order ≤ p.order) then some p else some q
      | none => some p) none with
  | some p => p.source
  | none => (Tab.get {} s.mix.patch dst).source

/-- The sources of a destination over the samples `lo .. hi - 1`: those the patch gives it there, and the old one of a crossfade
that runs there (R48, R107). -/
def State.sourcesOf (s : State) (dst lo hi : Nat) : List Nat :=
  let p := Tab.get {} s.mix.patch dst
  let due := s.mix.patchChanges.filter fun c => c.dst == dst && decide (c.target < hi)
  let fading := due.filter fun c => decide (lo < c.target + c.len)
  (s.patchAt dst lo :: ((due.filter fun c => decide (lo < c.target)).map (·.source) ++
    (if lo < p.start + p.len then [p.old] else []) ++ fading.map fun c => s.patchAt dst (c.target - 1))).eraseDups

/-- Every destination that has a patch, or a change that waits, with its domain. -/
def State.patched (s : State) (i : SchedImage) : List (Nat × Nat) :=
  ((s.mix.patch.map (·.1)) ++ s.mix.patchChanges.map (·.dst)).eraseDups.map fun a => (a, (s.addrDomain i false a).getD 0)

/-- A source reaches a domain through a bridge or an ASRC channel: it runs in another one, or in none (R108, R113). -/
def State.crosses (s : State) (i : SchedImage) (a d : Nat) : Bool :=
  a != 0 && addrKind a != 5 && s.addrDomain i true a != some d

/-- The synchronous bridge of a schedule that joins a source's domain to another (R110). -/
def State.syncFor (s : State) (i : SchedImage) (a d : Nat) : Option SyncBridge :=
  i.bridges.find? fun x => some x.src.val == s.addrDomain i true a && x.dst.val == d

/-! ### Stage offsets (R48, R287, R288) -/

/-- The stage offset of a channel in a domain. -/
def offsetIn (l : List StageSlot) (a d : Nat) : Option Nat := (l.find? fun x => x.addr == a && x.domain == d).map (·.offset)

/-- A range of `n` bytes from `o` meets no slot of the list. -/
def State.slotFree (s : State) (l : List StageSlot) (o n : Nat) : Bool :=
  l.all fun x => decide (o + n ≤ x.offset) || decide (x.offset + 4 * (s.dom x.domain).block ≤ o)

/-- The lowest free multiple of 4 × B within 1 MiB. -/
def State.freeOffset (s : State) (l : List StageSlot) (d : Nat) : Option Nat :=
  let n := 4 * (s.dom d).block
  ((List.range (2 ^ 20 / n)).map (· * n)).find? fun o => s.slotFree l o n

/-- Channels of a domain in their places, those that have none yet after the rest; what finds no room has none. -/
def State.place (s : State) (d : Nat) : List StageSlot → List Nat → List StageSlot
  | l, [] => l
  | l, a :: t =>
    match s.freeOffset l d with
    | some o => s.place d (l ++ [⟨a, d, o⟩]) t
    | none => s.place d l t

/-- The slots of a list once the channels `want` of a domain have theirs: the others of the domain are free, and where one finds
no room between them, all of the domain are placed afresh. -/
def State.replace (s : State) (d : Nat) (l : List StageSlot) (want : List Nat) : List StageSlot :=
  let kept := l.filter fun x => x.domain != d || want.contains x.addr
  let m := s.place d kept (want.filter fun a => (offsetIn kept a d).isNone)
  if want.all fun a => (offsetIn m a d).isSome then m else s.place d (l.filter fun x => x.domain != d) want

/-- Input channels of a domain over a block (R48, R288): those that terminate in it and that a patch names, from any domain, what a
bridge or an ASRC channel brings into it, and silence where one of its strips has no source (R67; log entry 127). -/
def State.wantedIn (s : State) (i : SchedImage) (d lo hi : Nat) : List Nat :=
  let range (k : Nat) : Nat × Nat := if k = d then (lo, hi) else ((s.dom k).si, (s.dom k).si + (s.dom k).block)
  let all := (s.patched i).map fun x => (x, s.sourcesOf x.1 (range x.2).1 (range x.2).2)
  let own := (all.filter fun x => x.1.2 == d).flatMap (·.2)
  let others := (all.filter fun x => x.1.2 != d).flatMap (·.2)
  let declared := (i.clusters.filter fun e => domainOf i (e.cluster.val / 8) == some d).flatMap (·.stageTable)
  let silent := declared.any fun r => (destStrip r.1).isSome && (s.sourcesOf r.1 lo hi).contains 0
  ((own.filter fun a => s.crosses i a d || (terminates a && s.addrDomain i true a == some d)) ++
   (others.filter fun a => terminates a && s.addrDomain i true a == some d) ++ (if silent then [0] else [])).eraseDups

/-- Output channels of a domain over a block: those that terminate and that a patch feeds. -/
def State.wantedOut (s : State) (i : SchedImage) (d lo hi : Nat) : List Nat :=
  ((s.patched i).filter fun x => x.2 == d && terminates x.1 && (s.sourcesOf x.1 lo hi).any (· != 0)).map (·.1)

/-- Rows of the stage tables of a domain's clusters take values (R288). -/
def State.tableRows (s : State) (d : Nat) (row : Nat × Nat × Option Nat → List (Nat × Option Nat)) : State :=
  s.each (List.range 64) fun c t =>
    match t.imageAt c with
    | none => t
    | some (i, e) =>
      if e ≠ d then t
      else
        match i.clusters.find? fun k => k.cluster.val == t.logical c with
        | none => t
        | some k => t.each (k.stageTable.flatMap row) fun w u =>
          match w.2 with
          | some v => { u with shm := Memory.writeNat u.shm (c * 2 ^ 20 + w.1) 4 v }
          | none => u

/-- The rows that a destination has: its own offset where it terminates; else that of its source, and in the paired row that of the
old source of its crossfade (R288). -/
def State.tableDest (s : State) (dst d : Nat) : State :=
  let p := Tab.get {} s.mix.patch dst
  s.tableRows d fun r =>
    if r.1 ≠ dst then []
    else if terminates dst then [(r.2.1, offsetIn s.mix.stageOut dst d)]
    else (r.2.1, offsetIn s.mix.stageIn p.source d) ::
      (match r.2.2 with | some b => if p.len = 0 then [] else [(b, offsetIn s.mix.stageIn p.old d)] | none => [])

/-- The rows of a declared source: its own offset. -/
def State.tableSource (s : State) (a d : Nat) : State :=
  s.tableRows d fun r => if r.1 = a ∧ terminates a = true then [(r.2.1, offsetIn s.mix.stageIn a d)] else []

/-- Every row of a domain's stage tables. -/
def State.tables (s : State) (i : SchedImage) (d : Nat) : State :=
  let declared := ((i.clusters.filter fun e => domainOf i (e.cluster.val / 8) == some d).flatMap (·.stageTable)).map (·.1)
  let s1 := s.each (s.mix.stageIn.filter fun x => x.domain == d) fun x t => t.tableSource x.addr d
  s1.each (declared.filter fun a => (destStrip a).isSome || (offsetIn s.mix.stageOut a d).isSome) fun a t => t.tableDest a d

/-- The channels of a domain have their offsets for the block `lo .. hi - 1`, and the stage tables show what has changed. -/
def State.stageBlock (s : State) (i : SchedImage) (d lo hi : Nat) : State :=
  let ins := s.replace d s.mix.stageIn (s.wantedIn i d lo hi)
  let outs := s.replace d s.mix.stageOut (s.wantedOut i d lo hi)
  if ins = s.mix.stageIn ∧ outs = s.mix.stageOut then s
  else (s.modMix fun m => { m with stageIn := ins, stageOut := outs }).tables i d

/-- The bridge channels that the patches over some samples of each domain need (R112, R113): one for every source and domain that it
crosses into, but for the first domain of a source that has its own ASRC channel, and for pairs that a synchronous bridge joins. -/
def State.bridgesAt (s : State) (i : SchedImage) (range : Nat → Nat × Nat) : List Nat :=
  let pairs := ((s.patched i).flatMap fun x => ((s.sourcesOf x.1 (range x.2).1 (range x.2).2).filter fun a => s.crosses i a x.2).map
    fun a => (a, x.2)).eraseDups
  (pairs.filter fun x => (s.syncFor i x.1 x.2).isNone &&
    ((s.addrDomain i true x.1).isSome || pairs.any fun y => y.1 == x.1 && decide (y.2 < x.2))).map fun x => bridgeKey x.1 x.2

/-- ASRC channels of the pool that are no bridges: those of sources that match no domain. -/
def State.poolBase (s : State) : Nat := (s.audio.asrc.filter fun e => decide (e.1 < 2 ^ 32) && decide (addrKind e.1 ≠ 4)).length

/-- The bridges in use are those that the patches need over the blocks that are being collected (R112). -/
def State.setBridges (s : State) (i : SchedImage) : State :=
  let need := s.bridgesAt i fun d => ((s.dom d).si, (s.dom d).si + (s.dom d).block)
  let gone := (s.audio.asrc.filter fun e => decide (2 ^ 32 ≤ e.1) && !need.contains e.1).map (·.1)
  let new := need.filter fun a => (Tab.get none s.audio.asrc a).isNone
  if gone.isEmpty && new.isEmpty then s
  else ((s.each gone fun a t => t.dropAsrc a).each new fun a t => if t.poolUsed < 240 then t.takeAsrc a else t).countPool

/-- The channels of a domain have their offsets for the block that is being collected. -/
def State.stageNow (s : State) (d : Nat) : State :=
  match s.domImage d with
  | some i => (s.stageBlock i d (s.dom d).si ((s.dom d).si + (s.dom d).block)).setBridges i
  | none => s

/-! ### Tracks (R329, R673) -/

/-- The package-DRAM address of a sample of a track: rings of 65,536 samples in the track-store buffers, the record tracks before the
playback tracks (log entry 128). -/
def trackAddr (rec : Bool) (t si : Nat) : Nat :=
  0x200000000 + (if rec then 0 else 2 ^ 28) + t % 1024 * 2 ^ 18 + 4 * (si % 65536)

/-- Patch changes in the order in which they take effect (R61). -/
def insPatch (c : PatchChange) : List PatchChange → List PatchChange
  | [] => [c]
  | h :: t => if h.target < c.target ∨ (h.target = c.target ∧ h.order ≤ c.order) then h :: insPatch c t else c :: h :: t

def sortPatches (l : List PatchChange) : List PatchChange := l.foldl (fun m c => insPatch c m) []

/-! ### Path latency (R58, R76, R111, R503, R554, R573, R589, R596, R603, R673) -/

/-- Samples a rate pair takes: index 0 for 44.1 and 48 kHz, 1 for the double, 2 for the quadruple. -/
def ratePair (rate : Nat) : Nat := if 176400 ≤ rate then 2 else if 88200 ≤ rate then 1 else 0

/-- Delay and settling of a converter preset (R602). -/
def presetDelay (p rate : Nat) : Nat :=
  ((match p with | 0 => [10, 20, 40] | 1 => [24, 36, 60] | _ => [48, 72, 120]).getD (ratePair rate) 0)
def presetSettle (p rate : Nat) : Nat :=
  ((match p with | 0 => [48, 96, 192] | 1 => [96, 192, 384] | _ => [192, 384, 768]).getD (ratePair rate) 0)

/-- The delay of an ASRC channel in samples of its output: 32 input and 16 output samples, rounded up (R596). -/
def asrcDelay (inRate outRate : Nat) : Nat := (32 * outRate + 16 * inRate + inRate - 1) / inRate

/-- What a serial port adds (R573–R575). -/
def State.portDelay (s : State) (ch outRate : Nat) : Nat :=
  let g := ch / 128
  if s.groupDomain g = 3 then asrcDelay (s.get (Reg.APG_STATUS_MEAS_RATE g)) outRate
  else if s.bit (Reg.APG_CFG_MASTER g) then 1 else 1 + s.get (Reg.APG_CFG_ELASTIC g)

/-- What the interface of a source adds, in samples of a rate. -/
def State.sourceDelay (s : State) (a rate : Nat) : Nat :=
  let ch := addrChan a
  match addrKind a with
  | 1 => match s.streamOf true ch with
         | some r => if r.domain = 3 then asrcDelay r.rate rate else r.linkOffset
         | none => 0
  | 2 => match s.flowOf true ch with
         | some r => if r.domain = 3 then asrcDelay r.rate rate else r.lw
         | none => 0
  | 3 => s.portDelay ch rate
  | 4 => asrcDelay ([32000, 44100, 48000, 88200, 96000, 176400, 192000].getD (s.get (Reg.AES_RX_STATUS_RATE (ch / 2))) 48000) rate
  | 6 => presetDelay (s.get (Reg.HUBA_ADC_CTL_PRESET ch)) rate
  | _ => 0

/-- What the interface of a destination adds. -/
def State.destDelay (s : State) (a rate : Nat) : Nat :=
  let ch := addrChan a
  match addrKind a with
  | 1 => match s.streamOf false ch with | some r => r.S | none => 0
  | 3 => s.portDelay ch rate
  | 4 => 1
  | 6 => presetDelay (s.get (Reg.HUBA_DAC_CTL_PRESET ch)) rate
  | 7 => [6, 12, 24].getD (ratePair rate) 6
  | _ => 0

end Sys2Proof.Machine
end

