-- ==== Sys2Proof/Machine/Mixing.lean ====
section
/-! DEFINITION. Parameter changes, patch changes and meters: acceptance as a whole, planning of ramps and crossfades, the
headroom test, and the commands PARAM_SET, ROUTE, METER_SUB and QUERY PATH and VALUE (R67–R129, R146, R440–R446). -/

namespace Sys2Proof.Machine

/-! ### The schedule at a target (R90, R147) -/

/-- The image in force for a domain at an SI of that domain. -/
def State.imageFor (s : State) (d t : Nat) : Option SchedImage :=
  let k := s.pendingBank
  if (k.armed && decide (s.siTo d k.switchSi ≤ t)) || s.hasSwitched d then k.image else s.active

/-- The image in force at a target SI of domain P; 0 is the earliest block. -/
def State.imageAtTarget (s : State) (target : Nat) : Option SchedImage :=
  s.imageFor 0 (if target = 0 then s.earliest 0 else target)

/-! ### Values that are planned -/

/-- The value, in its own unit, that the last change of a handle at or before an SI leaves. -/
def State.plannedRaw (s : State) (h t : Nat) : Word :=
  match (sortChanges (s.mix.changes.filter fun c => c.handle == h && decide (c.target ≤ t))).getLast? with
  | some c => c.raw
  | none => s.param h

/-- The value a parameter carries at an SI (R446): during a ramp the point it has reached, in the parameter's own unit. -/
def State.valueAt (s : State) (h t : Nat) : Word :=
  match (sortChanges (s.mix.changes.filter fun c => c.handle == h && decide (c.target ≤ t))).getLast? with
  | none => s.param h
  | some c =>
    let c' := if c.applied then c else s.applyTo s.mix.changes c
    if c'.tend ≤ t then c'.raw
    else
      match c'.shape with
      | 1 => c'.x t
      | 2 => if c'.raw.toNat ≤ 1 then c'.raw else Fp.log2ToDb (c'.x t)
      | 3 => (Fp.exp2 (c'.x t)).1
      | _ => c'.raw

/-! ### Planning a parameter change (R77, R90–R96) -/

/-- A change that has passed its own checks. -/
structure Planned where
  handle : Nat := 0
  value : Word := 0
  info : ParamInfo := ⟨.ints [], .time, 0⟩
  domain : Nat := 0
  target : Nat := 0
  late : Bool := false
  len : Nat := 0
  eqPower : Bool := false
  clamped : Bool := false
  raised : Bool := false
  deriving DecidableEq, Repr

/-- The ramp length of a class: none above the longest, raised to the shortest (R93). -/
def State.rampLen (s : State) (d : Nat) (c : RampClass) (n : Nat) : Option (Nat × Bool) :=
  let m := c.ms
  if c = .time then some (0, false)
  else if n = 0 then some (s.samplesMs d m.2.1, false)
  else if s.samplesMs d m.2.2 < n then none
  else if n < s.samplesMs d m.1 then some (s.samplesMs d m.1, true)
  else some (n, false)

/-- A ramp length given in samples of each item's own domain, or up to an SI of domain P. -/
inductive LenSpec where
  | samples (n : Nat)
  | until_ (endP : Nat)
  deriving DecidableEq, Repr

/-- Which part of an item fails: its handle, its value, or the length. -/
inductive ItemFault where
  | handle | value | length
  deriving DecidableEq, Repr

/-- The layout holds the object of a handle, and for a send or a matrix crosspoint its bus as well (R90); an ENGINE parameter belongs
to no object. -/
def inPlace (i : SchedImage) (h : Nat) : Bool :=
  handleClass h == 0x0B ||
  ((placeOf i h).isSome && ((handleClass h != 7 && handleClass h != 8) || inLayout i 2 (handlePar h / 4)))

/-- One change against R68, R90, R91 and R93. -/
def State.planItem (s : State) (target : Nat) (len : LenSpec) (eqPower : Bool) (h : Nat) (v : Word) : Except ItemFault Planned :=
  match s.imageAtTarget target with
  | none => .error .handle
  | some i =>
    let d := objectDomain i h
    match paramInfo (s.dom d).rate h with
    | none => .error .handle
    | some info =>
      if !inPlace i h then .error .handle
      else
        match info.kind.accepts v with
        | none => .error .value
        | some (w, clamped) =>
          let t := s.applyAt d target
          let n := match len with
            | .samples n => n
            | .until_ e => if e ≤ target then 0 else s.siTo d e - s.siTo d target
          match s.rampLen d info.cls n with
          | none => .error .length
          | some (m, raised) =>
            let bounce := handleClass h = 1 ∧ handlePar h = 1
            .ok { handle := h, value := w, info := info, domain := d, target := t.1, late := t.2,
                  len := if bounce then 2 * m else m, eqPower := eqPower, clamped := clamped, raised := raised }

/-- Even index of a pair. -/
def evenOf (n : Nat) : Nat := n / 2 * 2

def otherOf (n : Nat) : Nat := if n % 2 = 0 then n + 1 else n - 1

/-- The handles that a change of one also changes: the same parameter of the other strip or bus of a linked pair, trim, polarity
and pan of strips excepted (R77, R79), the sends of a strip among its parameters; and the same field but pan of the send to the other
bus of a linked pair (R74). The link is the one planned for the target SI when the change is accepted; a link change accepted
later for an SI at or before it shares nothing more (log entry 132). -/
def State.linkedHandles (s : State) (h t : Nat) : List Nat :=
  let c := handleClass h
  let i := handleIndex h
  let p := handlePar h
  let isLinked (cls n : Nat) : Bool := s.plannedRaw (mkHandle cls (evenOf n) 148) t == 1
  if (c = 1 ∨ c = 2) ∧ p ≠ 148 ∧ (c = 2 ∨ (p ≠ 0 ∧ p ≠ 1 ∧ p ≠ 146)) ∧ isLinked c i then [mkHandle c (otherOf i) p]
  else if c = 7 ∧ p % 4 ≠ 3 then
    let strips := if isLinked 1 i then [i, otherOf i] else [i]
    let buses := if isLinked 2 (p / 4) then [p / 4, otherOf (p / 4)] else [p / 4]
    (strips.flatMap fun n => buses.map fun b => mkHandle 7 n (b * 4 + p % 4)).filter (· ≠ h)
  else []

/-- The items a list makes: each one, then what its link adds. -/
def State.withLinks (s : State) (p : Planned) : List Planned :=
  p :: (s.linkedHandles p.handle p.target).map fun h => { p with handle := h, clamped := false, raised := false }

/-- The items of a command, or the index and fault of the first that fails. -/
def State.planAll (s : State) (target : Nat) (len : LenSpec) (eqPower : Bool) : List ParamItem → Nat →
    Except (Nat × ItemFault) (List Planned)
  | [], _ => .ok []
  | x :: t, k =>
    match s.planItem target len eqPower x.handle x.value with
    | .error e => .error (k, e)
    | .ok p =>
      match s.planAll target len eqPower t (k + 1) with
      | .error e => .error e
      | .ok l => .ok (s.withLinks p ++ l)

/-! ### Crossfades (R102–R107, R146–R148) -/

/-- The target of a change to an object once the crossfades that run over it have ended (R105). -/
def pushPast (l : List Crossfade) (object domain : Nat) : Nat → Nat → Nat
  | 0, t => t
  | n + 1, t =>
    match l.find? fun x => x.object == object && x.domain == domain && decide (x.start < t) && decide (t < x.start + x.len) with
    | some x => pushPast l object domain n (x.start + x.len)
    | none => t

/-- Headroom bytes of a reservation. -/
def headBytes (r : Reservation) : Nat := r.headBytesPerTick * (r.lastTick + 1 - r.firstTick)

/-- The two conditions of R146 for one firing in the frame of a block: the crossfades that touch it fit. -/
def fadesFit (e : FiringEntry) (l : List Crossfade) : Bool :=
  decide ((l.map (·.cycles)).sum ≤ e.headShare) &&
  (List.range e.reservations.length).all fun k =>
    decide ((l.map fun x => x.bytes.getD k 0).sum ≤ (match e.reservations[k]? with | some r => headBytes r | none => 0))

/-- A crossfade touches the frame of the block at an SI. -/
def touches (b fsi : Nat) (x : Crossfade) : Bool := decide (x.start < fsi + b) && decide (fsi < x.start + x.len)

/-- The firing that carries the second read of a destination (R107): that of its strip, or the one that writes it. -/
def patchFiring (i : SchedImage) (dst : Nat) : Option FiringEntry :=
  match destStrip dst with
  | some n =>
    match placeOf i (mkHandle 1 n 0) with
    | some o => (firingsOf i o.cluster.val).find? fun e => e.index == o.firing
    | none => none
  | none =>
    i.firings.find? fun e => e.outputs.any fun x => if addrKind dst = 5 then x.space == 3 && x.addr == trackAddr true (addrChan dst) 0
      else x.space == 1 && x.addr == dst

/-- A crossfade as a schedule carries it: the firing that holds the object there and what doubling it costs there. None where the
schedule holds no such object; the second read of a destination that no firing of it writes costs nothing. -/
def Crossfade.under (i : SchedImage) (b : Nat) (x : Crossfade) : Option Crossfade :=
  if x.object < 2 ^ 32 then
    (placeOf i x.object).map fun o =>
      { x with cluster := o.cluster.val, firing := o.firing.val, cycles := o.dupCycles, bytes := o.dupBytes }
  else if x.object < 2 ^ 33 then
    match patchFiring i (x.object % 2 ^ 32) with
    | some e =>
      let k := e.reservations.findIdx? fun r => r.space == 0 && !r.out
      some { x with cluster := e.cluster.val, firing := e.index.val, cycles := 0,
                    bytes := match k with | some j => List.replicate j 0 ++ [4 * b] | none => [] }
    | none => some { x with cluster := 64, cycles := 0, bytes := [] }
  else
    let u := x.object % 2 ^ 33
    match firingsOf i (u / 8) with
    | [] => none
    | e :: _ =>
      let piece := i.layout.find? fun p => p.cls == 0 && decide (p.first ≤ u) && decide (u < p.first + p.count)
      some { x with cluster := u / 8, firing := e.index.val, cycles := (piece.map (·.dupCycles)).getD e.baseLoad,
                    bytes := (piece.map (·.dupBytes)).getD [] }

/-- R146 and R147 for a set of crossfades: in every frame a crossfade of it touches, each against the schedule of that frame, which
handles the block before the boundary at which the frame begins. The sums are largest in a frame in which one begins or a schedule
begins. -/
def State.headroomOk (s : State) (all : List Crossfade) (x : Crossfade) : Bool :=
  let b := max 1 (s.dom x.domain).block
  let k := s.pendingBank
  let mine := all.filter fun y => y.domain == x.domain
  let starts := (mine.map fun y => y.start / b * b) ++ (if k.armed then [(s.siTo x.domain k.switchSi + b - 1) / b * b - b] else [])
  ((x.start / b * b) :: starts).all fun fsi =>
    !touches b fsi x ||
    (match s.imageFor x.domain (fsi + b) with
     | none => true
     | some i =>
       match x.under i b with
       | none => false
       | some y =>
         match (firingsOf i y.cluster).find? fun e => e.index.val == y.firing with
         | some e => fadesFit e ((mine.filter (touches b fsi)).filterMap fun z =>
             (z.under i b).bind fun w => if w.cluster = y.cluster ∧ w.firing = y.firing then some w else none)
         | none => y.cluster == 64)

/-- Two changes at one SI of one object make one crossfade: the longest length, equal-power if either asks (R105). -/
def mergeFade (l : List Crossfade) (x : Crossfade) : List Crossfade :=
  match l.find? fun y => y.object == x.object && y.domain == x.domain && y.start == x.start with
  | some y =>
    { y with len := max y.len x.len, eqPower := y.eqPower || x.eqPower, pours := y.pours ++ x.pours,
             waiters := y.waiters ++ x.waiters } :: l.filter (· ≠ y)
  | none => x :: l

/-- A crossfade of the same object and domain that began before another's start and still runs there. -/
def fadeInside (x y : Crossfade) : Bool :=
  x.object == y.object && x.domain == y.domain && decide (x.start < y.start) && decide (y.start < x.start + x.len)

/-- R105, by rounds: the first crossfade that starts inside another one starts on the first sample after it, and joins one that starts
there; `moved` collects object, domain, old and new start. -/
def settleFades : Nat → List Crossfade → List (Nat × Nat × Nat × Nat) → List Crossfade × List (Nat × Nat × Nat × Nat)
  | 0, l, moved => (l, moved)
  | n + 1, l, moved =>
    match l.findSome? fun y => (l.find? fun x => fadeInside x y).map fun x => (x, y) with
    | none => (l, moved)
    | some (x, y) =>
      let e := x.start + x.len
      settleFades n (mergeFade (l.filter (· ≠ y)) { y with start := e }) (moved ++ [(y.object, y.domain, y.start, e)])

/-- Crossfades join those admitted (R105): a change received earlier whose target falls inside a new one is moved past it with its
crossfade, and is late. -/
def State.addFades (s : State) (fs : List Crossfade) : State :=
  let all := fs.foldl mergeFade s.mix.fades
  let r := settleFades (all.length * all.length) all []
  (s.modMix fun m => { m with fades := r.1 }).each r.2 fun v t =>
    let hitC (c : Change) : Bool := !c.applied && c.shape == 0 && objectOf c.handle == v.1 && c.target == v.2.2.1 &&
      decide (s.handleDomain c.handle = v.2.1)
    let hitP (c : PatchChange) : Bool := patchKey c.dst == v.1 && c.target == v.2.2.1 && c.domain == v.2.1
    let ids := ((t.mix.fades.filter fun x => x.object == v.1 && x.domain == v.2.1 && x.start == v.2.2.2).flatMap (·.waiters))
    let pours := (t.mix.changes.filter hitC).filterMap (·.pour) ++ (t.mix.patchChanges.filter hitP).filterMap (·.pour)
    let u := t.modMix fun m => { m with
      changes := m.changes.map fun c => if hitC c then { c with target := v.2.2.2 } else c,
      patchChanges := m.patchChanges.map fun c => if hitP c then { c with target := v.2.2.2 } else c,
      waits := m.waits.map fun w =>
        if (ids.contains w.id && w.status == Status.ok) = true then
          { w with status := .late, si := max w.si (s.toP v.2.1 v.2.2.2) } else w }
    let late (p : Pour) : Pour := if pours.contains (p.origin, p.tag) then { p with delayed := p.delayed + 1 } else p
    { u with pours := { u.pours with live := u.pours.live.map late } }

/-- R146 and R147 for a crossfade and those it has moved or joined. -/
def State.fadesOk (s : State) (x : Crossfade) : Bool :=
  (s.mix.fades.filter fun y => y.object == x.object && y.domain == x.domain && decide (x.start ≤ y.start)).all (s.headroomOk s.mix.fades)

/-- The crossfade of a non-rampable change. -/
def State.fadeOf (s : State) (p : Planned) (pours : List (Nat × Nat)) (waiters : List Nat) : Option Crossfade :=
  (s.imageFor p.domain p.target).bind fun i => Crossfade.under i (s.dom p.domain).block
    { object := objectOf p.handle, domain := p.domain, start := p.target, len := p.len, eqPower := p.eqPower, pours := pours,
      waiters := waiters }

/-- The items with their targets moved past running crossfades of their objects (R105). -/
def State.pushItems (s : State) (l : List Planned) : List Planned :=
  l.map fun p =>
    if p.info.cls = .fixed then
      let t := pushPast s.mix.fades (objectOf p.handle) p.domain s.mix.fades.length p.target
      if t = p.target then p else { p with target := t, late := true }
    else p

/-! ### Acceptance -/

/-- Where the sequencer entries of a handle stand: each cluster that has a slot for it, with the slot; a handle without a
slot has an entry in the cluster of its object, and an ENGINE parameter without one in no cluster (64). -/
def State.slotsFor (s : State) (d t h : Nat) : List (Nat × Option Nat) :=
  match s.imageFor d t with
  | none => [(64, none)]
  | some i =>
    match i.slots.filter fun x => x.handle == h with
    | [] => [(match placeOf i h with | some o => s.physical o.cluster.val | none => 64, none)]
    | l => l.map fun x => (s.physical x.cluster.val, some x.addr)

/-- The sequencer entries of an accepted change. -/
def State.entriesOf (s : State) (p : Planned) (rank order : Nat) (pour : Option (Nat × Nat)) : List Change :=
  (s.slotsFor p.domain p.target p.handle).map fun x =>
    { handle := p.handle, cluster := x.1, slot := x.2, target := p.target, len := p.len, shape := p.info.shape,
      v1 := toSpace p.handle p.info p.value, raw := p.value, rank := rank, order := order, pour := pour,
      bounce := handleClass p.handle == 1 && handlePar p.handle == 1 }

/-- Entries numbered in the order received. -/
def State.allEntries (s : State) (rank : Nat) (pour : Option (Nat × Nat)) : List Planned → Nat → List Change
  | [], _ => []
  | p :: t, n => s.entriesOf p rank n pour ++ s.allEntries rank pour t (n + 1)

/-- Entries of a cluster. -/
def entryCount (l : List Change) (c : Nat) : Nat := (l.filter fun e => e.cluster == c).length

/-- R296: the first cluster whose queue would overflow. -/
def fullCluster (old new : List Change) : Option Nat :=
  (List.range 64).find? fun c => decide (0 < entryCount new c) && decide (1024 < entryCount old c + entryCount new c)

/-- FABRIC_CL_SEQ after entries have been delivered. -/
def State.showSeq (s : State) (l : List Change) : State :=
  s.each ((List.range 64).filter fun c => decide (0 < entryCount l c)) fun c t =>
    let n := entryCount t.mix.changes c
    (t.put (Reg.FABRIC_CL_SEQ_OCCUPIED c) n).raise (Reg.FABRIC_CL_SEQ_HWM c) n

/-- What a list of changes needs when it is taken as a whole: its items, entries and crossfades. -/
structure Plan where
  items : List Planned := []
  entries : List Change := []
  /-- The crossfades it starts. -/
  fades : List Crossfade := []
  deriving DecidableEq, Repr

/-- A plan, or the status that refuses it and the cluster concerned (R102, R296). -/
def State.planOf (s : State) (items : List Planned) (rank order : Nat) (pour : Option (Nat × Nat)) (waiters : List Nat) :
    Except (Status × Nat) Plan :=
  let l := s.pushItems items
  let es := s.allEntries rank pour l order
  let fs := (l.filter fun p => decide (p.info.cls = .fixed)).filterMap fun p => s.fadeOf p pour.toList waiters
  match fullCluster s.mix.changes es with
  | some c => .error (.busy, c)
  | none => if fs.all (s.addFades fs).fadesOk then .ok ⟨l, es, fs⟩ else .error (.noHeadroom, 0)

/-- A plan comes into force. -/
def State.commitPlan (s : State) (p : Plan) : State :=
  let s1 := (s.modMix fun m => { m with changes := m.changes ++ p.entries,
                                         nextOrder := m.nextOrder + p.items.length }).addFades p.fades
  ((s1.showSeq p.entries).bumpBy Reg.SCHED_PARAM_CLAMP_CNT_COUNT (p.items.filter (·.clamped)).length).bumpBy
    Reg.SCHED_RAMP_RAISE_CNT_COUNT (p.items.filter (·.raised)).length

/-- The SI of domain P at which a plan takes effect, and whether it is late. -/
def State.planSi (s : State) (target : Nat) (l : List Planned) : Nat × Bool :=
  let late := l.any (·.late)
  (if late then l.foldl (fun m p => max m (s.toP p.domain p.target)) 0 else if target = 0 then s.earliest 0 else target, late)

/-- Completion of an accepted command: at once, or when the crossfades it waits for have ended (R161). -/
def State.complete (s : State) (h : CmdHdr) (op id : Nat) (st : Status) (si : Nat) : State :=
  if s.mix.fades.any fun x => x.waiters.contains id then
    s.modMix fun m => { m with waits := m.waits ++ [{ id := id, hdr := h, opcode := op, status := st, si := si }] }
  else s.finish h op st 0 si 0

/-- Byte offset of the failing field of an item: the pair in an inline list, else the list's address (R437). -/
def itemOffset (l : ListAt) (k : Nat) (f : ItemFault) : Nat :=
  match f, l with
  | .length, _ => 16
  | .handle, .inline => 24 + 8 * k
  | .value, .inline => 28 + 8 * k
  | _, .indirect _ => 24

/-- The standby of a pair refuses state-changing commands (R766). -/
def State.refusesChange (s : State) : Bool := s.standby

/-- COUNT and the window of a list (R440, R442, R460). -/
def State.listCheck (s : State) (h : CmdHdr) (l : ListAt) (n most : Nat) : Option (Status × Nat) :=
  match l with
  | .inline =>
    let m := match h.src with | .urgent _ => 4 | .ring _ => 5
    if n = 0 ∨ m < n then some (.refused, 20) else none
  | .indirect a =>
    if n = 0 ∨ most < n then some (.refused, 20)
    else if !s.windowOk a (8 * n) false then some (.windowFault, 24) else none

/-- An accepted state change of a holder goes to its standby in received order (R772); in COLD mode only while a planned swap
prepares it (R775, R778). -/
def State.mirrorOut (s : State) (m : MirrorCmd) : State :=
  if s.get Reg.PAIR_STATUS_ROLE = 1 ∧ (s.get Reg.PAIR_CFG_MODE = 0 ∨ s.pair.swap ≠ 0) then
    let s1 := s.sendPair { s.pairMsg 0x13 with seq := s.pair.mirrorOut, mirror := some m }
    { s1 with pair := { s1.pair with mirrorOut := s1.pair.mirrorOut + 1 } }
  else s

/-- A list of changes taken as one PARAM_SET: what it comes to, and its status with the detail word of a refusal and the SI
applied. -/
def State.paramSet (s : State) (target ramp : Nat) (eqPower : Bool) (l : ListAt) (items : List ParamItem) (waiters : List Nat) :
    State × Status × Nat × Nat :=
  match s.planAll target (.samples ramp) eqPower items 0 with
  | .error (k, f) => (s, .refused, itemOffset l k f % 256 + k * 256, 0)
  | .ok ps =>
    match s.planOf ps 1 s.mix.nextOrder none waiters with
    | .error (.busy, c) => (s.put (Reg.FABRIC_CL_SEQ_FULL_SEEN c) 1, .busy, 0, 0)
    | .error (st, _) =>
      let k := ((List.range items.length).find? fun k =>
        match s.planAll target (.samples ramp) eqPower (items.take (k + 1)) 0 with
        | .ok q => (match s.planOf q 1 s.mix.nextOrder none waiters with | .error _ => true | .ok _ => false)
        | .error _ => true).getD 0
      (s, st, itemOffset l k .handle % 256 + k * 256, 0)
    | .ok p =>
      let si := s.planSi target p.items
      ((s.commitPlan p).mirrorOut (.params ramp eqPower si.1 items), if si.2 then .late else .ok, 0, si.1)

/-- R440, R441. FLAGS bit 0 is INDIRECT, bit 1 EQPOWER. -/
def execParamSet (h : CmdHdr) (ramp : Nat) (l : ListAt) (items : List ParamItem) (s : State) : Out :=
  match s.listCheck h l items.length 4096 with
  | some (st, o) => .next (s.refuse h 0x0100 st o 0)
  | none =>
    if s.refusesChange then .next (s.refuse h 0x0100 .refused 0 0)
    else
      let id := s.mix.nextOrder + 1
      let r := s.paramSet h.target ramp (Nat.testBit h.flags 1) l items [id]
      .next (match r.2.1 with
        | .ok | .late => r.1.complete h 0x0100 id r.2.1 r.2.2.2
        | st => r.1.finish h 0x0100 st r.2.2.1 0 0)

/-! ### Patch changes (R67–R73, R105, R107, R112) -/

/-- A source that every strip reaches through the sends, crosspoints and object-feed pairs of the layout (R72). -/
def mixed (a : Nat) : Bool := [0x11, 0x12, 0x13].contains (addrKind a)

/-- What comes in at a destination of a strip goes out at a source (R72, R74): the strip's input reaches both insert sends and the
direct out, the return of insert A the send of insert B and the direct out, that of insert B the direct out, and each of them the
buses, matrix outputs and feeds. The ports of a strip, not the whole strip, are the nodes of the graph, so that an internal insert
(R76) closes no cycle. -/
def passes (dst src : Nat) : Bool :=
  match destStrip dst with
  | none => false
  | some n =>
    mixed src || src == mkAddr 0x10 n ||
      (if addrKind dst = 0x10 then src == mkAddr 0x14 (2 * n) || src == mkAddr 0x14 (2 * n + 1)
       else addrChan dst % 2 == 0 && src == mkAddr 0x14 (2 * n + 1))

/-- Destinations that a signal at one of a list reaches through patches, by rounds. -/
def reach (edges : List (Nat × Nat)) : Nat → List Nat → List Nat
  | 0, l => l
  | n + 1, l =>
    let more := (edges.filter fun e => !l.contains e.1 && l.any fun d => passes d e.2).map (·.1)
    if more.isEmpty then l else reach edges n (l ++ more.eraseDups)

/-- A patch of a source to a destination closes a cycle in the signal graph that the patches make, with every send, crosspoint,
insert and object feed of the layout (R72). The ports of the strips are the nodes (DEDUCED, log entry 141). -/
def closesCycle (edges : List (Nat × Nat)) (dst src : Nat) : Bool :=
  (reach (edges.filter fun e => decide (e.1 ≠ dst)) edges.length [dst]).any fun d => passes d src

/-- The patches in force at an instant of domain P, by destination. -/
def State.patchEdges (s : State) (i : SchedImage) (tp : Nat) : List (Nat × Nat) :=
  (s.patched i).map fun x => (x.1, s.patchAt x.1 (s.siTo x.2 tp))

/-- A planned patch change. -/
structure PlannedPatch where
  dst : Nat := 0
  source : Nat := 0
  domain : Nat := 0
  target : Nat := 0
  late : Bool := false
  len : Nat := 0
  eqPower : Bool := false
  deriving DecidableEq, Repr

/-- R69, R92, R93 for one item: the offset of the failing field. -/
def State.planPatch (s : State) (target len : Nat) (eqPower : Bool) (dst src : Nat) : Except ItemFault (PlannedPatch × Bool) :=
  match s.imageAtTarget target with
  | none => .error .handle
  | some i =>
    if !s.destExists i dst then .error .handle
    else if !s.sourceExists i src then .error .value
    else
      let d := (s.addrDomain i false dst).getD 0
      match s.rampLen d .fixed len with
      | none => .error .length
      | some (n, raised) =>
        let t := s.applyAt d target
        let t' := pushPast s.mix.fades (patchKey dst) d s.mix.fades.length t.1
        .ok ({ dst := dst, source := src, domain := d, target := t', late := t.2 || decide (t' ≠ t.1), len := n,
               eqPower := eqPower }, raised)

def State.planPatches (s : State) (target len : Nat) (eqPower : Bool) : List RouteItem → Nat →
    Except (Nat × ItemFault) (List (PlannedPatch × Bool))
  | [], _ => .ok []
  | x :: t, k =>
    match s.planPatch target len eqPower x.dst x.source with
    | .error e => .error (k, e)
    | .ok p =>
      match s.planPatches target len eqPower t (k + 1) with
      | .error e => .error e
      | .ok l => .ok (p :: l)

/-- The crossfade of a patch change: 4 × B more bytes on the firing's reservation from the stages (R107). -/
def State.patchFade (s : State) (p : PlannedPatch) (pours : List (Nat × Nat)) (waiters : List Nat) : Crossfade :=
  let x : Crossfade := { object := patchKey p.dst, cluster := 64, domain := p.domain, start := p.target, len := p.len,
                         eqPower := p.eqPower, pours := pours, waiters := waiters }
  ((s.imageFor p.domain p.target).bind fun i => x.under i (s.dom p.domain).block).getD x

/-- Channels × B that terminate in a direction at an instant of domain P (R48, R109): an input channel counts in its own domain, or,
where it comes through ASRC channels, in each domain whose destinations name it; both sources of a crossfade count. -/
def State.terminating (s : State) (i : SchedImage) (src : Bool) (tp : Nat) : Nat :=
  let at_ (d : Nat) : Nat × Nat := (s.siTo d tp, s.siTo d tp + 1)
  let all := (s.patched i).map fun x => (x, (s.sourcesOf x.1 (at_ x.2).1 (at_ x.2).2).filter (· ≠ 0))
  let ends := if src then (all.flatMap fun x => (x.2.filter terminates).map fun a => (a, (s.addrDomain i true a).getD x.1.2)).eraseDups
    else (all.filter fun x => terminates x.1.1 && !x.2.isEmpty).map (·.1)
  (ends.map fun x => (s.dom x.2).block).sum

/-- R48, R109 and R112 from the first of the planned changes on: they are tested wherever a planned change takes effect. -/
def State.channelsOk (s : State) (i : SchedImage) : Bool :=
  (s.mix.patchChanges.map fun c => s.toP c.domain c.target + (if c.domain = 0 then 0 else 1)).eraseDups.all fun t =>
    decide (s.terminating i true t ≤ 262144) && decide (s.terminating i false t ≤ 262144) &&
    decide (s.poolBase + (s.bridgesAt i fun d => (s.siTo d t, s.siTo d t + 1)).length ≤ 240)

/-- Patch changes as records in received order, with the delay of R72 where one closes a cycle in the graph of its target SI. -/
def State.patchChanges (s : State) (i : SchedImage) (pour : Option (Nat × Nat)) : List PlannedPatch → Nat → List (Nat × Nat) → List PatchChange
  | [], _, _ => []
  | p :: t, n, made =>
    let planned := s.patchEdges i (s.toP p.domain p.target)
    let edges := made ++ planned.filter fun e => made.all fun m => decide (m.1 ≠ e.1)
    { dst := p.dst, source := p.source, target := p.target, len := p.len, eqPower := p.eqPower, order := n, domain := p.domain,
      looped := p.source != 0 && closesCycle edges p.dst p.source, pour := pour } ::
    s.patchChanges i pour t (n + 1) ((p.dst, p.source) :: made.filter fun e => decide (e.1 ≠ p.dst))

/-- A set of patch changes taken as a whole: the state it leaves, or the status and item that refuse it. -/
def State.commitPatches (s : State) (l : List PlannedPatch) (order : Nat) (pour : Option (Nat × Nat)) (waiters : List Nat) :
    Except (Status × Nat) State :=
  match s.active with
  | none => .error (.refused, 0)
  | some i =>
    let new := s.patchChanges i pour l order []
    let fs := (l.filter fun p => decide (s.patchAt p.dst (p.target - 1) ≠ p.source)).map fun p => s.patchFade p pour.toList waiters
    let s1 := (s.modMix fun m => { m with patchChanges := m.patchChanges ++ new, nextOrder := m.nextOrder + l.length }).addFades fs
    if !s1.channelsOk i then .error (.noHeadroom, 0)
    else
      match fs.findIdx? fun x => !s1.fadesOk x with
      | some k => .error (.noHeadroom, k)
      | none => .ok s1

/-- A list of patch changes taken as one ROUTE. -/
def State.routeSet (s : State) (target len : Nat) (eqPower : Bool) (at_ : ListAt) (items : List RouteItem) (waiters : List Nat) :
    State × Status × Nat × Nat :=
  match s.planPatches target len eqPower items 0 with
  | .error (k, f) => (s, .refused, itemOffset at_ k f % 256 + k * 256, 0)
  | .ok ps =>
    match s.commitPatches (ps.map (·.1)) (2 ^ 113 + s.mix.nextOrder) none waiters with
    | .error (st, k) => (s, st, itemOffset at_ k .handle % 256 + k * 256, 0)
    | .ok t =>
      let late := ps.any fun p => p.1.late
      let si := if late then ps.foldl (fun m p => max m (s.toP p.1.domain p.1.target)) 0
        else if target = 0 then s.earliest 0 else target
      ((t.bumpBy Reg.SCHED_RAMP_RAISE_CNT_COUNT (ps.filter (·.2)).length).mirrorOut (.routes len eqPower si items),
       if late then .late else .ok, 0, si)

/-- R442. -/
def execRoute (h : CmdHdr) (ramp law : Nat) (l : ListAt) (items : List RouteItem) (s : State) : Out :=
  if 1 < law then .next (s.refuse h 0x0300 .refused 22 0)
  else
    match s.listCheck h l items.length 1024 with
    | some (st, o) => .next (s.refuse h 0x0300 st o 0)
    | none =>
      if s.refusesChange then .next (s.refuse h 0x0300 .refused 0 0)
      else
        let id := s.mix.nextOrder + 1
        let r := s.routeSet h.target ramp (law == 1) l items [id]
        .next (match r.2.1 with
          | .ok | .late => r.1.complete h 0x0300 id r.2.1 r.2.2.2
          | st => r.1.finish h 0x0300 st r.2.2.1 0 0)

/-! ### Meters (R122–R129, R443) -/

/-- A meter point of the standard set (R122) whose object the layout holds, or one of an owner class, for which the manual binds no
meter indices and every index is taken (DESIGN CHOICE, log entry 148). -/
def knownMeter (i : SchedImage) (p : Nat) : Bool :=
  let c := handleClass p
  let m := handlePar p
  inLayout i c (handleIndex p) &&
  (match c with
   | 1 => decide (m ≤ 7)
   | 2 => m == 2 || m == 3 || m == 4 || m == 6
   | 3 => m == 3 || m == 4
   | 5 => m == 3
   | 6 => m == 3 || m == 4
   | _ => decide (0x20 ≤ c))

/-- Two subscriptions have an update in one frame. -/
def coincide (a b : MeterSub) : Bool := a.phase % Nat.gcd a.period b.period == b.phase % Nat.gcd a.period b.period

/-- The largest charge of one frame over subscriptions (R125): admission takes the whole half, the update is charged the bytes it writes
(DEDUCED, log entry 147). -/
def meterLoad (chosen : List MeterSub) : List MeterSub → Nat
  | [] => (chosen.map fun x => halfBytes x.points.length).sum
  | x :: t => max (meterLoad chosen t) (if chosen.all (coincide x) then meterLoad (x :: chosen) t else 0)

/-- The subscriptions of a domain. -/
def State.metersOf (s : State) (d : Nat) : List MeterSub :=
  (s.mix.meters.filterMap (·.2)).filter fun x => x.domain == d

/-- R125 with check 9 of R140: the image's charges and the meters fit the domain's share. -/
def State.meterFits (s : State) (i : SchedImage) (d : Nat) (l : List MeterSub) : Bool :=
  match i.shares.find? fun x => x.domain.val == d with
  | some x => decide (x.upstreamBytes + meterLoad [] l ≤ x.hostLink * s.ledger x.rate x.block / 16)
  | none => l.isEmpty

/-- R124, R125, R443. -/
def execMeterSubOpen (h : CmdHdr) (period addr : Nat) (points : List Nat) (buf : Nat) (s : State) : Out :=
  let n := points.length
  if n = 0 ∨ 8192 < n then .next (s.refuse h 0x0400 .refused 16 0)
  else if period = 0 then .next (s.refuse h 0x0400 .refused 18 0)
  else if !s.windowOk addr (4 * n) false then .next (s.refuse h 0x0400 .windowFault 24 0)
  else if !s.windowOk buf (2 * halfBytes n) true then .next (s.refuse h 0x0400 .windowFault 32 0)
  else
    match s.active with
    | none => .next (s.refuse h 0x0400 .refused 24 0)
    | some i =>
      let d := objectDomain i (points.headD 0)
      let x := s.dom d
      match (List.range n).find? fun k => !knownMeter i (points.getD k 0) with
      | some k => .next (s.refuse h 0x0400 .refused 24 k)
      | none =>
        if period * x.block * 1000 < x.rate then .next (s.refuse h 0x0400 .refused 18 0)
        else
          match (List.range 16).find? fun k => (Tab.get none s.mix.meters k).isNone with
          | none => .next (s.refuse h 0x0400 .busy 0 0)
          | some k =>
            let m : MeterSub := { points := points, period := period, buf := buf, domain := d, ring := s.cmdRing h,
                                  values := List.replicate n 0xC3100000, phase := x.si / x.block }
            if s.meterFits i d (m :: s.metersOf d) then
              .next ((s.modMix fun q => { q with meters := Tab.put none q.meters k (some m) }).finish h 0x0400 .ok 0 0 k)
            else .next (s.refuse h 0x0400 .noHeadroom 16 0)

/-- R443. -/
def execMeterSubClose (h : CmdHdr) (n : Nat) (s : State) : Out :=
  if n < 16 ∧ (Tab.get none s.mix.meters n).isSome then
    .next ((s.modMix fun q => { q with meters := Tab.put none q.meters n none }).ok h 0x0401)
  else .next (s.refuse h 0x0401 .refused 16 0)

/-- A subscription is closed because no window covers its buffer (R129). -/
def State.closeMeter (s : State) (n : Nat) (x : MeterSub) : State :=
  (s.modMix fun q => { q with meters := Tab.put none q.meters n none }).postTo x.ring
    { code := 5, status := .windowFault, body := [n] } none

/-- The cluster that provides a meter point. -/
def State.meterCluster (s : State) (p : Nat) : Option Nat :=
  (s.active.bind fun i => placeOf i p).map fun o => s.physical o.cluster.val

/-- The bytes of one update, in the order of R127. The bytes between VALUES and SEQ_TAIL are 0 and those behind it are not written
(DESIGN CHOICE, log entry 146). -/
def meterBytes (seq si flags : Nat) (vs : List Word) : List Byte :=
  let body := natToBytes 8 seq ++ natToBytes 8 si ++ natToBytes 4 vs.length ++ natToBytes 4 flags ++
    (vs.map fun v => natToBytes 4 v.toNat).flatten
  body ++ natToBytes ((24 + 4 * vs.length + 7) / 8 * 8 - (24 + 4 * vs.length)) 0 ++ natToBytes 8 seq

/-! ### Queries (R58, R446) -/

/-- A delay in ms as whole samples of a domain (R85, R837). -/
def State.delayOf (s : State) (d : Nat) (w : Word) : Nat :=
  let v := Fp.exact w
  let (num, den) := if v.ex < Fp.exBias then (v.mag, 2 ^ (Fp.exBias - v.ex)) else (v.mag * 2 ^ (v.ex - Fp.exBias), 1)
  (2 * num * (s.dom d).rate + 1000 * den) / (2000 * den)

/-- The delay processing behind a source of the mix: the alignment delay of a strip, the delay of a bus, matrix output or feed. -/
def State.pathDelay (s : State) (d : Nat) (a : Nat) : Nat :=
  let ms (h : Nat) : Nat := s.delayOf d (s.valueAt h (s.dom d).si)
  match addrKind a with
  | 0x10 => ms (mkHandle 1 (addrChan a) 2)
  | 0x14 => ms (mkHandle 1 (addrChan a / 2) 2)
  | 0x11 => ms (mkHandle 2 (addrChan a) 2)
  | 0x12 => ms (mkHandle 3 (addrChan a) 2)
  | 0x13 => ms (mkHandle 6 (addrChan a) 4)
  | _ => 0

/-- What a signal takes from a source to a destination's input: the bridge or ASRC channel between domains, in samples of the
destination's, and the delay of a closed cycle (R58, R72, R111, R596). -/
def State.hop (s : State) (i : SchedImage) (a dst d : Nat) : Nat :=
  let x := s.dom d
  let bridge := match s.addrDomain i true a with
    | some e => if e = d ∨ a = 0 then 0
        else if (s.syncFor i a d).isSome then Config.syncBridgeDelay (s.dom e).rate x.rate else asrcDelay (s.dom e).rate x.rate
    | none => 0
  bridge + (if (Tab.get {} s.mix.patch dst).looped then x.block else 0)

/-- Latencies of sources counted from one source, as far as they are known. -/
abbrev Lat := List (Nat × Nat)

def Lat.at_ (l : Lat) (a : Nat) : Option Nat := (l.find? fun x => x.1 == a).map (·.2)

/-- A source becomes known. -/
def Lat.learn (l : Lat) (a : Nat) (n : Option Nat) : Lat :=
  match n, l.at_ a with
  | some k, none => l ++ [(a, k)]
  | _, _ => l

/-- The latency behind an insert that is on: two frame periods and both interfaces where its send or return leaves the engine, else
what its return has (R76). -/
def State.insertDelay (s : State) (d n k now : Nat) (i : SchedImage) (l : Lat) (pre : Nat) : Nat :=
  let port := mkAddr 0x14 (2 * n + k)
  let x := s.dom d
  if s.valueAt (mkHandle 1 n (128 + k)) now = 0 then pre
  else
    let ret := s.patchAt port now
    let out := ((s.patched i).filter fun y => s.patchAt y.1 (s.dom y.2).si == port && terminates y.1).map (·.1)
    if terminates ret || !out.isEmpty then
      pre + 2 * x.block + s.sourceDelay ret x.rate + (match out.head? with | some o => s.destDelay o x.rate | none => 0)
    else match l.at_ ret with
      | some m => m + s.hop i ret port d
      | none => pre

/-- One strip: its sends, inserts and direct out behind its input, in the order of R74. -/
def State.latStrip (s : State) (i : SchedImage) (n : Nat) (l : Lat) : Lat :=
  let d := objectDomain i (mkHandle 1 n 0)
  let now := (s.dom d).si
  let input := s.patchAt (mkAddr 0x10 n) now
  match l.at_ input with
  | none =>
    let ret (k : Nat) : Option Nat := (l.at_ (s.patchAt (mkAddr 0x14 (2 * n + k)) now)).map fun m =>
      m + s.hop i (s.patchAt (mkAddr 0x14 (2 * n + k)) now) (mkAddr 0x14 (2 * n + k)) d
    (l.learn (mkAddr 0x14 (2 * n + 1)) (ret 0)).learn (mkAddr 0x10 n) ((ret 0).orElse fun _ => ret 1)
  | some m =>
    let pre := m + s.hop i input (mkAddr 0x10 n) d + s.pathDelay d (mkAddr 0x10 n)
    let l1 := l.learn (mkAddr 0x14 (2 * n)) (some pre)
    let ready (k : Nat) : Bool :=
      let r := s.patchAt (mkAddr 0x14 (2 * n + k)) now
      s.valueAt (mkHandle 1 n (128 + k)) now == 0 || terminates r || r == 0 || (l1.at_ r).isSome
    if !ready 0 then l1
    else
      let a := s.insertDelay d n 0 now i l1 pre
      let l2 := l1.learn (mkAddr 0x14 (2 * n + 1)) (some a)
      if ready 1 then l2.learn (mkAddr 0x10 n) (some (s.insertDelay d n 1 now i l2 a)) else l2

/-- One pass over the layout: strips, then buses and feeds behind any strip, then matrix outputs behind any bus. -/
def State.latRound (s : State) (i : SchedImage) (l : Lat) : Lat :=
  let of (cls : Nat) : List Nat := (i.layout.filter fun p => p.cls == cls).flatMap fun p => (List.range p.count).map (p.first + ·)
  let l1 := (of 1).foldl (fun m n => s.latStrip i n m) l
  let via (kind : Nat) (m : Lat) (d : Nat) : Option Nat :=
    (m.find? fun x => addrKind x.1 == kind && s.addrDomain i true x.1 == some d).map (·.2)
  let add (from_ cls kind : Nat) (m : Lat) (n : Nat) : Lat :=
    let a := mkAddr kind n
    let d := objectDomain i (mkHandle cls n 0)
    m.learn a ((via from_ m d).map (· + s.pathDelay d a))
  let l2 := (of 2).foldl (add 0x10 2 0x11) l1
  let l3 := (of 6).foldl (add 0x10 6 0x13) l2
  (of 3).foldl (add 0x11 3 0x12) l3

/-- Passes until nothing more becomes known. -/
def State.latAll (s : State) (i : SchedImage) : Nat → Lat → Lat
  | 0, l => l
  | n + 1, l =>
    let m := s.latRound i l
    if m.length = l.length then l else s.latAll i n m

/-- R446, R58: the latency of a routed path, in samples of the destination's domain, over the patches, inserts, sends, crosspoints and
object feeds of the layout: 2B, the interfaces, and what lies between; where several paths lead there, the one that needs the fewest
passes, and of those the first in ascending order (log entry 129). -/
def State.latency (s : State) (dst src : Nat) : Option (Nat × Nat) :=
  match s.active with
  | none => none
  | some i =>
    let d := (s.addrDomain i false dst).getD 0
    let x := s.dom d
    let mid := s.patchAt dst x.si
    if mid = 0 ∨ src = 0 then none
    else
      ((s.latAll i (2 * i.layout.length + s.mix.patch.length + 2) [(src, 0)]).at_ mid).map fun n =>
        (2 * x.block + s.sourceDelay src x.rate + s.destDelay dst x.rate + n + s.hop i mid dst d, d)

/-- R446. -/
def execQueryPath (h : CmdHdr) (dst src : Nat) (s : State) : Out :=
  match s.latency dst src with
  | some (n, d) => .next (s.finish h 0x0B00 .ok 0 0 (n % 2 ^ 32 + d * 2 ^ 32))
  | none => .next (s.refuse h 0x0B00 .refused 16 0)

/-- R446: the value at the first SI of the earliest block of the parameter's domain. -/
def execQueryValue (h : CmdHdr) (handle : Nat) (s : State) : Out :=
  let d := s.handleDomain handle
  match s.active with
  | none => .next (s.refuse h 0x0B03 .refused 16 0)
  | some i =>
    if (paramInfo (s.dom d).rate handle).isNone ∨ inPlace i handle = false then
      .next (s.refuse h 0x0B03 .refused 16 0)
    else .next (s.finish h 0x0B03 .ok 0 (s.toP d (s.earliest d)) (s.valueAt handle (s.earliest d)).toNat)

end Sys2Proof.Machine
end

