-- ==== Sys2Proof/Machine/Checks.lean ====
section
/-! DEFINITION. The nine checks that the Ritadom core applies to a schedule image (R130–R142, R150, R154). A failing check
answers the global index of the element that fails it. -/

namespace Sys2Proof.Machine

/-- Ticks that a count of region cycles takes. -/
def ticksOf (cycles fF mhz : Nat) : Nat := ceilDiv (cycles * fF) (mhz * 1000000)

/-- The figures of a domain that the checks use: rate, block, FRAME frequency and ticks in a frame (R130). -/
structure Frame where
  share : DomainShare := {}
  fF : Nat := 49152000
  n : Nat := 8192

def frameOf (x : DomainShare) : Frame := ⟨x, frameHz x.rate, x.block * ticksPerSample x.rate⟩

def regionOf (i : SchedImage) (g : Nat) : RegionEntry := (i.regions.find? fun r => r.region.val == g).getD {}

def regionMHz (i : SchedImage) (g : Nat) : Nat := setPointMHz (regionOf i g).setPoint

/-- R130. -/
def allotment (i : SchedImage) (f : Frame) (c : Nat) : Nat := 88 * f.n * (regionMHz i (c / 8) * 1000000) / (100 * f.fF)

def clusterEntry (i : SchedImage) (c : Nat) : ClusterEntry := (i.clusters.find? fun e => e.cluster.val == c).getD {}

/-- R132. -/
def headroom (i : SchedImage) (f : Frame) (c : Nat) : Nat := ((clusterEntry i c).hp.getD 15) * allotment i f c / 100

/-- A firing's window (R133): its first and last tick, and the ticks that are no execution. -/
structure Win where
  first : Int := 0
  last : Nat := 0
  reserve : Nat := 0

/-- The firing with which a region's frame begins (R135): the least start tick, and of equal ones the lowest cluster. -/
def firstOfRegion (i : SchedImage) (g : Nat) : Option FiringEntry :=
  (i.firings.filter fun e => e.cluster.val / 8 == g).foldl (fun m e =>
    match m with
    | none => some e
    | some x => if e.startTick < x.startTick ∨ (e.startTick = x.startTick ∧ e.cluster.val < x.cluster.val) then some e else m) none

/-- The load phase of a cluster in ticks (R154), in the first firing of the cluster after a switch. -/
def loadTicks (i : SchedImage) (f : Frame) (loads : List Nat) (e : FiringEntry) : Nat :=
  if loads.contains e.cluster.val && decide (((firingsOf i e.cluster.val).foldl (fun m x => min m x.startTick) (2 ^ 32)) = e.startTick) then
    match i.switches.find? fun x => x.cluster == e.cluster with
    | some x => ceilDiv (x.loadBytes * f.fF) (32 * (regionMHz i (e.cluster.val / 8) * 1000000))
    | none => 0
  else 0

def window (i : SchedImage) (f : Frame) (loads : List Nat) (e : FiringEntry) : Win :=
  let mhz := regionMHz i (e.cluster.val / 8)
  let fam48 := decide (f.fF = 49152000)
  let k := if firstOfRegion i (e.cluster.val / 8) = some e then (if fam48 then 64 else 59) else 0
  let p := if fam48 then 8 else 7
  let x := ticksOf (e.baseLoad + e.headShare) f.fF mhz
  let fade := ceilDiv (e.outBytes * f.fF) (32 * 400000000)
  let l := loadTicks i f loads e
  ⟨(e.startTick : Int) - (p + k + l : Nat), e.startTick + x + fade + 16 - 1, k + p + fade + 16⟩

/-- Clusters of a domain that an image gives work. -/
def clustersOf (i : SchedImage) (d : Nat) : List Nat :=
  (List.range 64).filter fun c => domainOf i (c / 8) == some d && !(firingsOf i c).isEmpty

/-! ### Checks 1 and 2 -/

/-- Check 1 (R140): the sums of the shares. -/
def sharesOk (pbase : Nat) (l : List DomainShare) : Bool :=
  decide ((l.map (·.starts)).sum ≤ 8) && decide ((l.map (·.crossbar)).sum ≤ 16) && decide ((l.map (·.dram)).sum ≤ 16) &&
  decide ((l.map (·.hostLink)).sum ≤ 16) && decide ((l.map (·.powerMW)).sum + pbase ≤ 40000)

/-- The larger of each domain's old and new shares (R150). -/
def largerShares (a b : List DomainShare) : List DomainShare :=
  let one (d : Nat) (l : List DomainShare) : DomainShare := (l.find? fun x => x.domain.val == d).getD {}
  (List.range 3).map fun d =>
    let x := one d a
    let y := one d b
    { starts := max x.starts y.starts, crossbar := max x.crossbar y.crossbar, dram := max x.dram y.dram,
      hostLink := max x.hostLink y.hostLink, powerMW := max x.powerMW y.powerMW }

def disjoint (a b : Nat × Nat) : Bool := decide (a.1 + a.2 ≤ b.1) || decide (b.1 + b.2 ≤ a.1)

/-- Ranges that do not overlap one another. -/
def apartAll : List (Nat × Nat) → Bool
  | [] => true
  | x :: l => l.all (disjoint x) && apartAll l

def distinct : List Nat → Bool
  | [] => true
  | x :: l => !l.contains x && distinct l

/-- R274. -/
def slotTableOk (e : FiringEntry) : Bool :=
  [4, 8, 16, 32, 64].contains e.slotTable.length && e.slotTable.all fun x => decide (x < 2 ^ 16) && decide (x / 2 ^ 11 % 16 = 0)

/-- A SPACE 4 reservation lies within a window of the other cluster (R290). -/
def resvInWindow (i : SchedImage) (f : Frame) (loads : List Nat) (r : Reservation) : Bool :=
  r.space != 4 || (firingsOf i r.target).any fun e =>
    let w := window i f loads e
    decide (w.first ≤ r.firstTick) && decide (r.lastTick ≤ w.last)

/-- R138: the firings whose output this one reads have ended. -/
def depsOk (i : SchedImage) (f : Frame) (loads : List Nat) (e : FiringEntry) : Bool :=
  e.deps.all fun k =>
    match i.firings[k]? with
    | some x => domainOf i (x.cluster.val / 8) == domainOf i (e.cluster.val / 8) &&
        decide (((window i f loads x).last : Int) < (window i f loads e).first)
    | none => false

/-- R137: windows of one cluster lie in the frame and do not overlap. -/
def windowsOk (i : SchedImage) (f : Frame) (loads : List Nat) (c : Nat) : Bool :=
  let ws := (firingsOf i c).map (window i f loads)
  ws.all (fun w => decide (0 ≤ w.first) && decide (w.last < f.n)) &&
  apartAll (ws.map fun w => (w.first.toNat, w.last + 1 - w.first.toNat))

/-- The clusters whose program images differ from those of a schedule (R153). -/
def programChanges (old : Option SchedImage) (i : SchedImage) : List Nat :=
  (List.range 64).filter fun c =>
    !(imagesOf i c).isEmpty && (match old with | some o => imagesOf o c != imagesOf i c | none => true)

/-- Check 2 for one cluster. -/
def State.clusterOk (s : State) (i : SchedImage) (f : Frame) (c : Nat) : Bool :=
  let fs := firingsOf i c
  let e := clusterEntry i c
  decide (e.hp.getD 15 ≤ 50) && decide (fs.length ≤ 4) && distinct (fs.map (·.index.val)) &&
  fs.all (fun x => slotTableOk x && decide (x.seqCycles ≤ 1024) && decide (x.handoffSlots ≤ x.seqCycles) &&
    depsOk i f [] x && x.reservations.all (resvInWindow i f [])) &&
  windowsOk i f [] c &&
  e.images.all (fun g => s.sched.programs.any fun p => p.digest == g) &&
  (!(programChanges s.active i).contains c || i.switches.any fun x => x.cluster.val == c) &&
  decide ((fs.map (·.outputs.length)).sum ≤ 4096) &&
  (let jobs : List GlazeJob := fs.filterMap (·.glaze)
   apartAll (jobs.map fun j => (j.stateBase, j.count)) && decide ((jobs.map (·.count)).sum ≤ 512) &&
     jobs.all fun j => decide (j.listAddr % 32 = 0))

/-- R313, R316, R322, R780, R29: check 2 for one region. -/
def regionOk (i : SchedImage) (f : Frame) (g : Nat) : Bool :=
  let r := regionOf i g
  let taps := ((List.range 8).map fun c => (firingsOf i (8 * g + c)).filterMap (·.taps)).flatten
  let pow2 (n : Nat) : Bool := (List.range 23).any fun k => decide (6 ≤ k) && decide (n = 2 ^ k)
  decide (r.setPoint ≤ 3) && decide (r.lines.length ≤ 1024) &&
  r.lines.all (fun l => decide (l.1 % 64 = 0) && pow2 l.2 && decide (l.1 + 4 * l.2 ≤ 2 ^ 24)) &&
  apartAll (r.lines.map fun l => (l.1, 4 * l.2)) &&
  taps.all (fun t => r.lines.all fun l => disjoint (t.addr, 32 * t.count) (l.1, 4 * l.2)) &&
  decide (r.sincTaps + r.cubicTaps ≤ 16384) && decide (2 * r.sincTaps + r.cubicTaps ≤ 16384) &&
  decide ((taps.map (·.count)).sum ≤ 16384) &&
  decide (8 * r.sincTaps * f.share.block / 8 + 4 * r.cubicTaps * f.share.block / 8 + 16 * r.tapLists ≤ allotment i f (8 * g)) &&
  (match r.rotation with
   | some n => decide (8 ≤ n) && decide (n ≤ 24) &&
       decide (((List.range 8).filter fun c => !(firingsOf i (8 * g + c)).isEmpty || !(imagesOf i (8 * g + c)).isEmpty).length ≤ 7)
   | none => true)

/-- The capacity of a class in one domain (R64); the sends of a domain are those of as many strips as it may have, 256 each. -/
def capacity (cls rate : Nat) : Nat :=
  match cls with
  | 1 | 7 => [2048, 1024, 512].getD (ratePair rate) 0
  | 6 => if ratePair rate = 2 then 256 else 512
  | 0 => 512
  | c => classCount c

/-- The image gives a domain work or objects. -/
def uses (i : SchedImage) (d : Nat) : Bool :=
  i.regions.any (fun r => r.domain.map (·.val) == some d) || i.layout.any fun p => p.domain.val == d

/-- A piece of the layout names objects that its class has (R66, R87), or for class 0 the program of a unit (log entry 44). -/
def pieceOk (p : ObjectPlace) : Bool :=
  (decide (0x20 ≤ p.cls) && decide (p.cls < 0x40) && decide (p.first + p.count ≤ 2 ^ 16)) ||
  decide (p.first + p.count ≤ (if p.cls = 0 then 512 else classCount p.cls))

/-- What of an image belongs to no one domain: its lists name each element once, and the servo program is loaded (R648). -/
def State.packageOk (s : State) (i : SchedImage) : Bool :=
  i.servoBudgets.all (fun b => decide (b ≤ 152000)) && distinct (i.regions.map (·.region.val)) &&
  (match i.servoProg with | some g => s.sched.programs.any fun p => p.digest == g | none => true) &&
  distinct (i.clusters.map (·.cluster.val)) && distinct (i.shares.map (·.domain.val)) && i.layout.all pieceOk &&
  i.firings.all fun e => (domainOf i (e.cluster.val / 8)).isSome

/-- R64, R65, R108: check 2 for what belongs to a whole domain; one that the image uses has a share, which gives its rate and
block. -/
def State.domainOk (s : State) (i : SchedImage) (f : Frame) : Bool :=
  let d := f.share.domain.val
  (!uses i d || i.shares.any fun y => y.domain.val == d) &&
  legalRate f.share.rate && [8, 16, 32, 64].contains f.share.block &&
  (List.range 16).all (fun c =>
    decide (((i.layout.filter fun p => p.cls == c && p.domain.val == d).map (·.count)).sum ≤ capacity c f.share.rate)) &&
  (i.layout.filter fun p => p.domain.val == d).all (fun p => domainOf i (p.cluster.val / 8) == some d) &&
  (d != 0 || s.packageOk i)

/-- The first region or cluster of a domain, in ascending order, for which a test fails. -/
def firstFail (l : List Nat) (ok : Nat → Bool) : Option Nat := l.find? fun k => !ok k

/-- Check 2 (R140): what belongs to the domain, then its regions, then its clusters (log entry 21). -/
def State.structureFail (s : State) (i : SchedImage) (f : Frame) : Option Nat :=
  let d := f.share.domain.val
  if !s.domainOk i f then some 0
  else
    match firstFail ((List.range 8).filter fun g => domainOf i g == some d) (regionOk i f) with
    | some g => some g
    | none => firstFail ((List.range 64).filter fun c => domainOf i (c / 8) == some d) (s.clusterOk i f)

/-! ### Checks 3 to 6 -/

/-- Check 3. -/
def cyclesFail (i : SchedImage) (f : Frame) : Option Nat :=
  firstFail (clustersOf i f.share.domain.val) fun c =>
    let fs := firingsOf i c
    decide ((fs.map fun e => e.baseLoad + e.headShare).sum ≤ allotment i f c) && decide ((fs.map (·.headShare)).sum = headroom i f c)

/-- Check 4, with the rotation transfer S_c of R781. -/
def windowsFail (i : SchedImage) (f : Frame) (loads : List Nat) : Option Nat :=
  firstFail (clustersOf i f.share.domain.val) fun c =>
    let mhz := regionMHz i (c / 8)
    let sc := if (regionOf i (c / 8)).rotation.isSome then ticksOf 6272 f.fF mhz else 0
    decide (((firingsOf i c).map fun e => (window i f loads e).reserve + loadTicks i f loads e).sum + sc +
      ticksOf (allotment i f c) f.fF mhz ≤ f.n) && windowsOk i f loads c

/-- Check 5 (R31): two starts a tick in a region, and q_d in the domain. -/
def staggerFail (i : SchedImage) (f : Frame) : Option Nat :=
  let d := f.share.domain.val
  let mine := i.firings.filter fun e => domainOf i (e.cluster.val / 8) == some d
  let at_ (t : Nat) (l : List FiringEntry) : Nat := (l.filter fun e => e.startTick == t).length
  match firstFail (List.range 8) fun g =>
      let l := mine.filter fun e => e.cluster.val / 8 == g
      l.all fun e => decide (at_ e.startTick l ≤ 2) with
  | some g => some g
  | none => if mine.all fun e => decide (at_ e.startTick mine ≤ f.share.starts) then none else some 0

/-- Energy of a domain's frame in nJ. -/
def energyOf (i : SchedImage) (d : Nat) : Nat :=
  ((i.firings.filter fun e => domainOf i (e.cluster.val / 8) == some d).map (·.energyNJ)).sum

/-- Regions of a domain that rotate, each in its frames whose number is a multiple of 2^n (R781). -/
def rotating (i : SchedImage) (d : Nat) : List Nat :=
  i.regions.filterMap fun r => if r.domain.map (·.val) = some d then r.rotation else none

/-- Frames of a domain that begin in 10 ms, at most. -/
def framesIn10 (x : DomainShare) : Nat := ceilDiv x.rate (100 * max 1 x.block)

/-- Energy of the rotation transfers of a domain in one window of 10 ms, at most: frame 0 has them all, a second frame of the
window those whose period is short enough. -/
def rotationWindow (i : SchedImage) (x : DomainShare) : Nat :=
  ((rotating i x.domain.val).map fun n => ceilDiv (framesIn10 x) (2 ^ n)).sum * Config.rotationEnergy

/-- Power over a frame in mW, of an energy in nJ. -/
def frameMW (x : DomainShare) (e : Nat) : Nat := ceilDiv (e * x.rate) (x.block * 1000000)

/-- R37, in frames with rotation transfers: the package never exceeds 48 W, the frames of all domains in which every region of
theirs rotates coinciding at worst; it averages no more than 40 W over any 10 ms; and it exceeds 40 W in one frame at a time, since
no second domain has such a frame and none follows it directly, the period being 2^8 frames at least (log entry 21). -/
def packagePower (pbase : Nat) (i : SchedImage) : Bool :=
  let base := pbase + (i.shares.map fun x => frameMW x (energyOf i x.domain.val)).sum
  let rot (x : DomainShare) : Nat := frameMW x ((rotating i x.domain.val).length * Config.rotationEnergy)
  let hot := i.shares.filter fun x => decide (0 < rot x) && decide (40000 < base + rot x)
  decide (base + (i.shares.map rot).sum ≤ 48000) &&
  decide (base + (i.shares.map fun x => ceilDiv (rotationWindow i x) 10000).sum ≤ 40000) &&
  (decide (base + (i.shares.map rot).sum ≤ 40000) ||
    (decide (hot.length ≤ 1) && decide (((i.shares.filter fun x => decide (0 < rot x)).length ≤ 1))))

/-- Check 6: the domain's power, and the package within R37 where its rotation energy is added (log entry 21). -/
def energyFail (pbase : Nat) (i : SchedImage) (f : Frame) : Option Nat :=
  let d := f.share.domain.val
  if frameMW f.share (energyOf i d) ≤ f.share.powerMW ∧ ((rotating i d).isEmpty = true ∨ packagePower pbase i = true) then none
  else some 0

/-! ### Check 7: crossbar slots (R141, R142) -/

/-- A port of the crossbars, one direction: cluster, region uplink, delay memory and die bridge. -/
inductive Port where
  | cluster (c : Nat) (out : Bool)
  | uplink (g : Nat) (out : Bool)
  | delay (g : Nat) (out : Bool)
  | bridge (die : Nat) (out : Bool)
  deriving DecidableEq, Repr

/-- The element of a port in the detail word of check 7: its cluster, region or die, the ports taken by kind (DESIGN CHOICE, log entry
142). -/
def Port.element : Port → Nat
  | .cluster c _ => c
  | .uplink g _ => g
  | .delay g _ => g
  | .bridge d _ => d

/-- Ports by kind, in ascending element. -/
def Port.rank : Port → Nat
  | .cluster c o => 4 * c + (if o then 1 else 0)
  | .uplink g o => 1024 + 4 * g + (if o then 1 else 0)
  | .delay g o => 2048 + 4 * g + (if o then 1 else 0)
  | .bridge d o => 3072 + 4 * d + (if o then 1 else 0)

/-- The ports of a reservation's path, `out` being shared to remote. -/
def portsOf (c : Nat) (r : Reservation) : List Port :=
  let g := c / 8
  match r.space with
  | 2 => [.cluster c r.out, .delay g (!r.out)]
  | 4 =>
    let t := r.target
    .cluster c r.out :: .cluster t (!r.out) :: (if t / 8 = g then [] else [.uplink g r.out, .uplink (t / 8) (!r.out)])
  | _ => [.cluster c r.out, .uplink g r.out, .bridge (c / 32) r.out]

/-- Slices of R327 on a path. -/
def State.slices (s : State) (g : Nat) (dly : Bool) : Nat :=
  if dly then s.get (Reg.SCHED_SLICE_RG_DLY g) else s.get (Reg.SCHED_SLICE_RG_CL g)

/-- Path latency in ticks, rounded up (R142): region cycles at the set points of the regions crossed, 4 cycles of the die
crossbar, 40 ns of a bridge and 8 FABRIC cycles of the hub, with the slices of R327. In units of 1 / (12 × 10^10) s, in
which a cycle at each set point and a FABRIC cycle of 800 MHz are whole. The die crossbar's cycles are of the source region's clock
(DESIGN CHOICE, log entry 144). -/
def State.latencyTicks (s : State) (i : SchedImage) (f : Frame) (c : Nat) (r : Reservation) : Nat :=
  let unit : Nat := 120000000000
  let cyc (g : Nat) : Nat := unit / (regionMHz i g * 1000000)
  let fab : Nat := unit / 800000000
  let g := c / 8
  let xbar (g : Nat) (dly : Bool) : Nat := (3 + s.slices g dly) * cyc g
  let up (g : Nat) : Nat := s.get (Reg.SCHED_SLICE_RG_UP g) * cyc g
  let total := match r.space with
    | 2 => xbar g true
    | 4 => if r.target / 8 = g then xbar g false
        else xbar g false + up g + 4 * cyc g + up (r.target / 8) + xbar (r.target / 8) false
    | _ => xbar g false + up g + 4 * cyc g + 40 * (unit / 1000000000) + s.get (Reg.SCHED_SLICE_D_BRIDGE (c / 32)) * fab + 8 * fab
  ceilDiv (total * f.fF) unit

/-- Bytes that a port carries on a tick under a share in sixteenths (R141). -/
def portLimit (i : SchedImage) (f : Frame) (p : Port) : Nat :=
  let of (bytes g : Nat) : Nat := bytes * (regionMHz i g * 1000000) * f.share.crossbar / (16 * f.fF)
  match p with
  | .cluster c _ => of 32 (c / 8)
  | .uplink g _ => of 64 g
  | .delay g _ => of 64 g
  | .bridge _ _ => 160000000000 * f.share.crossbar / (16 * f.fF)

/-- A reservation as the ports see it: where it goes, its ticks and its bytes a tick. -/
def State.loadsOf (s : State) (i : SchedImage) (f : Frame) : List (List Port × Nat × Nat × Nat) :=
  ((i.firings.filter fun e => domainOf i (e.cluster.val / 8) == some f.share.domain.val).map fun e =>
    e.reservations.map fun r =>
      (portsOf e.cluster.val r, r.firstTick, r.lastTick + s.latencyTicks i f e.cluster.val r,
       r.bytesPerTick + r.headBytesPerTick)).flatten

/-- Check 7: on the tick at which a reservation begins, each of its ports carries no more than its limit; the sum on a
port is largest on such a tick. The failing port is the lowest one. -/
def State.slotsFail (s : State) (i : SchedImage) (f : Frame) : Option Nat :=
  let l := s.loadsOf i f
  let bad := (l.map fun x => x.1.filter fun p =>
    decide (portLimit i f p <
      ((l.filter fun y => y.1.contains p && decide (y.2.1 ≤ x.2.1) && decide (x.2.1 ≤ y.2.2.1)).map (·.2.2.2)).sum)).flatten
  match bad.foldl (fun (m : Option Port) p => match m with | none => some p | some q => if p.rank < q.rank then some p else m) none with
  | none => none
  | some p => some p.element

/-! ### Checks 8 and 9, and the whole -/

def unit64 (n : Nat) : Nat := ceilDiv n 64 * 64

/-- Check 8, in whole units of 64 bytes (R330). -/
def dramFail (i : SchedImage) (f : Frame) (loads : List Nat) : Option Nat :=
  let mine := i.firings.filter fun e => domainOf i (e.cluster.val / 8) == some f.share.domain.val
  let moved := ((mine.map fun e => (e.reservations.filter fun r => r.space == 3).map fun r =>
    unit64 ((r.bytesPerTick + r.headBytesPerTick) * (r.lastTick + 1 - r.firstTick))).flatten).sum
  let load := ((i.switches.filter fun x => loads.contains x.cluster.val &&
    domainOf i (x.cluster.val / 8) == some f.share.domain.val).map fun x => unit64 x.loadBytes).sum
  if moved + load + unit64 f.share.dramBytes ≤ f.share.dram * (136000000000 * f.share.block / f.share.rate) / 16 then none else some 0

/-- Check 9. -/
def State.linkFail (s : State) (i : SchedImage) (f : Frame) : Option Nat :=
  if s.meterFits i f.share.domain.val (s.metersOf f.share.domain.val) then none else some 0

/-- A check of every domain, P before S before T. -/
def perDomain (fs : List Frame) (n : Nat) (chk : Frame → Option Nat) : Option (Nat × Nat × Nat) :=
  fs.findSome? fun f => (chk f).map fun e => (n, e, f.share.domain.val)

/-- The image as it stands in the first frame after a switch: the start ticks of its switch-frame entries (R153, R154). -/
def switchImage (i : SchedImage) (loads : List Nat) : SchedImage :=
  { i with firings := i.firings.map fun e =>
      if loads.contains e.cluster.val then
        match i.switches.find? fun x => x.cluster == e.cluster with
        | some x => { e with startTick := x.startTicks.getD e.index.val e.startTick }
        | none => e
      else e }

/-- Checks 3 to 9 of one frame. -/
def State.frameChecks (s : State) (i : SchedImage) (fs : List Frame) (loads : List Nat) : Option (Nat × Nat × Nat) :=
  let pbase := s.get Reg.SCHED_PBASE_MW
  (perDomain fs 3 (cyclesFail i)).orElse fun _ => (perDomain fs 4 fun f => windowsFail i f loads).orElse fun _ =>
    (perDomain fs 5 (staggerFail i)).orElse fun _ => (perDomain fs 6 (energyFail pbase i)).orElse fun _ =>
      (perDomain fs 7 (s.slotsFail i)).orElse fun _ => (perDomain fs 8 fun f => dramFail i f loads).orElse fun _ =>
        perDomain fs 9 (s.linkFail i)

/-- The domains the checks apply to, P first: P always, S and T where the image gives them a share, work or objects (R108). One
without a share has no quota, at the rate and block it runs at. -/
def State.framesOf (s : State) (i : SchedImage) : List Frame :=
  [(0 : Fin 3), 1, 2].filterMap fun d =>
    match i.shares.find? fun x => x.domain == d with
    | some x => some (frameOf x)
    | none =>
      if d = 0 ∨ uses i d.val = true then some (frameOf { domain := d, rate := (s.dom d.val).rate, block := (s.dom d.val).block })
      else none

/-- The nine checks (R140, R154): the check, the element and the domain of the first failure; the element of a failure of a whole domain
or package is 0 (DESIGN CHOICE, log entry 143). -/
def State.checks (s : State) (i : SchedImage) : Option (Nat × Nat × Nat) :=
  let fs := s.framesOf i
  let loads := programChanges s.active i
  if !sharesOk (s.get Reg.SCHED_PBASE_MW) i.shares then some (1, 0, 0xFF)
  else
    (perDomain fs 2 (s.structureFail i)).orElse fun _ => (s.frameChecks i fs []).orElse fun _ =>
      if loads.isEmpty then none else s.frameChecks (switchImage i loads) fs loads

end Sys2Proof.Machine
end

