-- ==== Sys2Proof/Machine/Glaze.lean ====
section
/-! DEFINITION. The glaze engine and the tap engine (R306–R322). -/

namespace Sys2Proof.Machine

/-- Free values stand where the manual fixes no result. -/
def State.fill (s : State) : List (Option Word) → List Word × State
  | [] => ([], s)
  | some w :: t => let r := State.fill s t; (w :: r.1, r.2)
  | none :: t => let r := State.fill s.take t; (s.free.setWidth 32 :: r.1, r.2)

/-! ### Glaze sections -/

/-- A fresh free word of a memory: an unstated value of `n` bytes (log entry 3). -/
def State.freeBytes (s : State) (m : State → Memory) (w : State → Memory → State) (a n : Nat) : State :=
  (w s (Memory.writeNat (m s) a n s.free.toNat)).take

def State.freeGlz (s : State) (a n : Nat) : State := s.freeBytes (·.glz) (fun t m => { t with glz := m }) a n

/-- A stable target (R308): all finite, |a2| < 1 and |a1| < 1 + a2. -/
def stableTarget (b0 b1 b2 a1 a2 : Word) : Bool :=
  let one : Int := (2 ^ Fp.exBias : Nat)
  [b0, b1, b2, a1, a2].all (fun w => !Fp.isNaN w && !Fp.isInf w) &&
  decide ((Fp.scaled a2).natAbs < one.natAbs) && decide (((Fp.scaled a1).natAbs : Int) < one + Fp.scaled a2)

/-- An exact quotient of integers on the scale 2^-exBias, rounded once (R220). -/
def ratioOnce (num : Int) (den : Nat) : Word := (Fp.roundQuot (decide (num < 0)) num.natAbs den 0).1

/-- The lattice coefficients of a stable target in the order k2, k1, v2, v1, v0 (R308): each the exact value of its formula,
rounded once to the binary32 in which the record keeps it (DEDUCED, log entry 18). -/
def latticeTarget (b0 b1 b2 a1 a2 : Word) : List Word :=
  let one : Int := (2 ^ Fp.exBias : Nat)
  let x0 := Fp.scaled b0
  let x1 := Fp.scaled b1
  let x2 := Fp.scaled b2
  let y1 := Fp.scaled a1
  let y2 := Fp.scaled a2
  let d := one + y2
  [Fp.move a2, ratioOnce (y1 * one) d.toNat, Fp.move b2, ratioOnce (x1 * one - y1 * x2) one.toNat,
   ratioOnce ((x0 * one - y2 * x2) * d - y1 * (x1 * one - y1 * x2)) (d.toNat * one.toNat)]

/-- One ramp sample of a coefficient: c + (target − c) / r, formed exactly and rounded once; the step with r = 1 lands on the
target (R310). -/
def rampCoef (c target : Word) (r : Nat) : Word :=
  if r ≤ 1 then target else ratioOnce (Fp.scaled c * ((r - 1 : Nat) : Int) + Fp.scaled target) r

/-- `n` ramp samples of a coefficient that has r of them to go. -/
def rampCoefs (target : Word) : Nat → Nat → Word → Word
  | 0, _, c => c
  | n + 1, r, c => rampCoefs target n (r - 1) (rampCoef c target r)

/-- Where a state record holds its five coefficients: after the two 6-byte section states, in the order k2, k1, v2, v1, v0
(log entry 18). -/
def glzRecord (c r : Nat) : Nat := c * 2 ^ 14 + 32 * r

/-- The fields of a descriptor that has been read (R307). -/
def GlazeRun.word (r : GlazeRun) (k : Nat) : Word := r.desc.getD k 0
def GlazeRun.ramp (r : GlazeRun) : Nat := (r.word 5).toNat % 2 ^ 24
def GlazeRun.new (r : GlazeRun) : Bool := Nat.testBit (r.word 5).toNat 30
def GlazeRun.start (r : GlazeRun) : Nat := if r.new then (r.word 5).toNat / 2 ^ 24 % 64 else 0
def GlazeRun.bypass (r : GlazeRun) : Bool := Nat.testBit (r.word 5).toNat 31
def GlazeRun.chain (r : GlazeRun) : Bool := Nat.testBit (r.word 6).toNat 20
def GlazeRun.inAddr (r : GlazeRun) : Nat := (r.word 6).toNat % 2 ^ 20
def GlazeRun.outAddr (r : GlazeRun) : Nat := (r.word 7).toNat % 2 ^ 20
def GlazeRun.stable (r : GlazeRun) : Bool := stableTarget (r.word 0) (r.word 1) (r.word 2) (r.word 3) (r.word 4)

/-- Ramp samples of the block of B, and what is left of the ramp after it (R310). -/
def GlazeRun.steps (r : GlazeRun) (b : Nat) : Nat := min r.ramp (b - r.start)
def GlazeRun.left (r : GlazeRun) (b : Nat) : Nat := if r.stable then r.ramp - r.steps b else 0

/-- The read that a section presents next (R312): its descriptor, then its input block; none once it has them. -/
def GlazeRun.readAddr (r : GlazeRun) (b : Nat) : Option Nat :=
  if r.desc.isEmpty then some r.base
  else if r.ready || r.chain || decide (b ≤ r.inp.length) then none
  else some (r.inAddr + 4 * r.inp.length)

/-- The section has read all that it needs. -/
def GlazeRun.filled (r : GlazeRun) (b : Nat) : Bool := !r.desc.isEmpty && (r.chain || decide (b ≤ r.inp.length))

/-- The coefficients of a record move over the block (R310, R311): from those current at START, over the ramp samples the block
holds; a RAMP of 0 moves to the targets at START. -/
def State.moveCoefs (s : State) (a b : Nat) (r : GlazeRun) : State :=
  if r.stable && (r.new || decide (r.ramp ≠ 0)) && decide (r.start < b) then
    s.each (latticeTarget (r.word 0) (r.word 1) (r.word 2) (r.word 3) (r.word 4)).zipIdx fun x t =>
      let c := Memory.read32 t.glz (a + 12 + 4 * x.2)
      let v := if r.ramp = 0 then x.1 else rampCoefs x.1 (r.steps b) r.ramp c
      { t with glz := Memory.writeNat t.glz (a + 12 + 4 * x.2) 4 v.toNat }
  else s

/-- The two section states after a block of arithmetic in the extended format (R309). -/
def State.moveStates (s : State) (a : Nat) : State := (s.freeGlz a 6).freeGlz (a + 6) 6

/-- Words in groups of eight, one port word each, from an address upward. -/
def portWords (a : Nat) : Nat → List Word → List (Nat × List Word)
  | 0, _ => []
  | n + 1, l => (a, l.take 8) :: portWords (a + 32) n (l.drop 8)

/-- R307–R311: a section that has its descriptor and its input computes its block: the stability of its targets, the move of its
coefficients, its output (a BYPASS passes the input unrounded; else values that the extended arithmetic leaves open), and the
writes it still has to present. -/
def State.glazeCompute (s : State) (c : Nat) (f : Firing) (r : GlazeRun) : State :=
  match f.entry.glaze with
  | none => s
  | some job =>
    let b := (s.dom f.domain).block
    let rec1 := glzRecord c (job.stateBase + r.sec)
    let s1 := if r.stable then s
      else (s.set (Reg.FABRIC_CL_GLAZE_UNSTABLE c)).bump (Reg.FABRIC_CL_GLAZE_UNSTABLE_CNT c)
    let s2 := s1.moveCoefs rec1 b r
    let data := if r.chain then f.glazeOut else r.inp
    let p := if r.bypass && data.length == b then (data, s2)
      else (s2.when (!r.bypass) fun t => t.moveStates rec1).fill (List.replicate b none)
    let back := if r.new || decide (r.ramp ≠ 0) then
        [(r.base + 20, [BitVec.ofNat 32 (r.left b + if r.bypass then 2 ^ 31 else 0)])]
      else []
    p.2.modCluster c fun x =>
      { x with firing := some { f with
          glaze := some { r with ready := true, writes := r.writes ++ portWords r.outAddr (b / 8) p.1 ++ back }
          glazeOut := p.1 } }

/-- The words of a port read go to the section (R272, R312), which computes once it has its block. -/
def State.glazeRead (s : State) (c : Nat) (f : Firing) (r : GlazeRun) (l : List Word) : State :=
  let r1 : GlazeRun := if r.desc.isEmpty then { r with desc := l } else { r with inp := r.inp ++ l }
  if r1.filled (s.dom f.domain).block then s.glazeCompute c f r1
  else s.modCluster c fun x => { x with firing := some { f with glaze := some r1 } }

/-- The first of the section's writes has been made, or was lost. -/
def State.glazeWrote (s : State) (c : Nat) : State :=
  s.modCluster c fun x => { x with firing := x.firing.map fun f =>
    { f with glaze := f.glaze.map fun r => { r with writes := r.writes.drop 1 } } }

/-- R312: the next section of the running firing's glaze job begins, once the section before it has its block; the accesses of
the section follow at the shared-memory port, in the cycles that grant them. -/
def execGlazeSectionStart (c : Fin 64) (late : Bool) (s : State) : Out :=
  match (s.cluster c.val).firing with
  | none => .next s
  | some f =>
    match f.entry.glaze with
    | none => .next s
    | some job =>
      let free := match f.glaze with | some r => r.ready | none => true
      if job.count ≤ f.glazeDone || !free then .next s
      else
        let owing := match f.glaze with | some r => r.writes | none => []
        let r : GlazeRun := { sec := f.glazeDone, base := job.listAddr + 32 * f.glazeDone, writes := owing }
        .next ((s.when late fun t => t.set (Reg.FABRIC_CL_GLAZE_WAITED c.val)).modCluster c.val fun x =>
          { x with firing := some { f with glazeDone := f.glazeDone + 1, glaze := some r } })

/-! ### Taps -/

/-- Division rounded half to even (R319). -/
def divHalfEven (n : Int) (d : Nat) : Int :=
  if d = 0 then n
  else
    let q := n.natAbs / d
    let r := n.natAbs % d
    let m := if 2 * r > d ∨ (2 * r = d ∧ q % 2 = 1) then q + 1 else q
    if n < 0 then -(m : Int) else m

/-- A tap as its entry holds it (R316): positions in Q22.10. -/
structure Tap where
  line : Nat
  dest : Nat
  cubic : Bool
  pos : Nat
  posEnd : Nat
  ramp : Nat
  seq : Bool
  gain : Word
  gainPrev : Word
  xfPos : Nat
  left : Nat
  xf : Bool
  seqSeen : Bool
  deriving DecidableEq, Repr

def State.readTap (s : State) (a : Nat) : Tap :=
  let w (k : Nat) : Nat := (Memory.read32 s.dly (a + 4 * k)).toNat
  { line := w 0 % 1024, dest := w 0 / 1024 % 64, cubic := Nat.testBit (w 0) 16, pos := w 1, posEnd := w 2,
    ramp := w 3 % 2 ^ 24, seq := Nat.testBit (w 3) 31, gain := BitVec.ofNat 32 (w 4), gainPrev := BitVec.ofNat 32 (w 5),
    xfPos := w 6, left := w 7 % 2 ^ 24, xf := Nat.testBit (w 7) 24, seqSeen := Nat.testBit (w 7) 31 }

/-- The fields the engine writes back (R316). -/
def State.writeTap (s : State) (a : Nat) (t : Tap) : State :=
  let put (m : Memory) (k v : Nat) : Memory := Memory.writeNat m (a + 4 * k) 4 v
  let e := t.left + (if t.xf then 2 ^ 24 else 0) + (if t.seqSeen then 2 ^ 31 else 0)
  { s with dly := put (put (put (put s.dly 1 t.pos) 5 t.gain.toNat) 6 t.xfPos) 7 e }

/-- R319: a posted change is taken at a block start when no crossfade runs. -/
def Tap.take (t : Tap) : Tap :=
  if t.seq = t.seqSeen ∨ t.xf then t
  else
    let d := (t.posEnd : Int) - t.pos
    let t1 := { t with seqSeen := t.seq, left := t.ramp }
    if d.natAbs * 64 ≤ t.ramp * 1024 then t1
    else { t1 with xfPos := t.pos, pos := t.posEnd, xf := decide (t.ramp ≠ 0) }

/-- One sample's move of a glide or crossfade (R319). -/
def Tap.move (t : Tap) : Tap :=
  if t.left = 0 then t
  else if t.xf then { t with left := t.left - 1, xf := decide (t.left ≠ 1) }
  else { t with pos := (t.pos + divHalfEven ((t.posEnd : Int) - t.pos) t.left).toNat, left := t.left - 1 }

/-- The bounds of R318 in Q22.10. -/
def tapBounds (cubic : Bool) (len block : Nat) : Nat × Nat :=
  if cubic then (2 * 1024, (len - block - 4) * 1024) else (4 * 1024, (len - block - 8) * 1024)

/-- An exact value rounded once to the 40-bit significand of the extended format, results below 2^-126 flushed (R309). -/
def roundExt (v : Fp.Exact) : Fp.Exact :=
  let len := Nat.log2 v.mag + 1
  if v.mag = 0 then v
  else if v.ex + len + 126 ≤ Fp.exBias then { v with mag := 0 }
  else if len ≤ 40 then v
  else { v with mag := Fp.shiftRNE v.mag (len - 40), ex := v.ex + (len - 40) }

/-- The sum of weighted samples over 2^k, exact: the samples as integers on the scale 2^-exBias, each a multiple of 2^151. -/
def weighted (k : Nat) (l : List (Int × Word)) : Fp.Exact :=
  let t := (l.map fun x => x.1 * Fp.scaled x.2).sum
  ⟨decide (t < 0), t.natAbs / 2 ^ 120, 120 - k⟩

/-- The 4-point third-order Hermite interpolation f/1024 beyond the second point, through the tangents of its neighbours, as
weights over 2^31 (R317; DEDUCED, log entry 19). -/
def hermite (f : Int) (l : List Word) : Fp.Exact :=
  weighted 31
    [(-f * f * f + 2 * 1024 * f * f - 1024 * 1024 * f, l.getD 0 0), (3 * f * f * f - 5 * 1024 * f * f + 2 * 1024 * 1024 * 1024, l.getD 1 0),
     (-3 * f * f * f + 4 * 1024 * f * f + 1024 * 1024 * f, l.getD 2 0), (f * f * f - 1024 * f * f, l.getD 3 0)]

/-- Linear interpolation f/1024 beyond the first of two points (R320). -/
def linear (f : Int) (l : List Word) : Fp.Exact := weighted 10 [(1024 - f, l.getD 0 0), (f, l.getD 1 0)]

/-- A sample of a line by its SI; a word that the memory's code could not correct reads +0.0 (R314, R315). -/
def State.lineSample (s : State) (g base len : Nat) (bad : List Nat) (si : Nat) : Word :=
  let a := base + 4 * (si % len)
  if bad.contains a then 0 else Memory.read32 s.dly (g * 2 ^ 24 + a)

/-- A line read at a position of Q22.10 behind sample `si`: the points it uses, the first of them `first` samples later than the
whole part of the position. -/
def State.linePoints (s : State) (g base len : Nat) (bad : List Nat) (si pos first n : Nat) : List Word :=
  (List.range n).map fun k => s.lineSample g base len bad (si + len + first - (pos / 1024 + k) % len)

/-- The interpolated value at a position, exact (R317, R320): the sample itself at a whole position, by cubic interpolation or
by linear interpolation; none in steady sinc mode, whose coefficients the manual does not list, or where a point is no number. -/
def State.tapRead (s : State) (g base len : Nat) (bad : List Nat) (si pos : Nat) (way : Option Bool) : Option Fp.Exact :=
  let f := pos % 1024
  let finite (l : List Word) : Bool := l.all fun w => !Fp.isNaN w && !Fp.isInf w
  let guard (l : List Word) (v : Fp.Exact) : Option Fp.Exact := if finite l then some v else none
  if f = 0 then
    let l := s.linePoints g base len bad si pos 0 1
    guard l (Fp.exact (l.getD 0 0))
  else
    match way with
    | some true => let l := s.linePoints g base len bad si pos 1 4; guard l (hermite f l)
    | some false => let l := s.linePoints g base len bad si pos 0 2; guard l (linear f l)
    | none => none

/-- A tap's output for sample n of the block (R317, R318, R320): the weighted sum in the extended format, under the ramped gain,
rounded once to binary32. `cross` gives the samples of a crossfade still to run before this one. None where the manual fixes no
value. Also whether a bound was met. -/
def State.tapSample (s : State) (g fsi block n base len : Nat) (bad : List Nat) (t : Tap) (cross : Option Nat) :
    Option Word × Bool :=
  let lim := tapBounds t.cubic len block
  let held (p : Nat) : Nat := min (max p lim.1) lim.2
  let clamp := decide (held t.pos ≠ t.pos) || (cross.isSome && decide (held t.xfPos ≠ t.xfPos))
  let si := fsi + n
  let sum : Option Fp.Exact :=
    match cross with
    | none => s.tapRead g base len bad si (held t.pos) (if t.cubic then some true else none)
    | some left =>
      let way := some (!t.cubic)
      let w := crossWeights false (t.ramp - left) (max 1 t.ramp)
      match s.tapRead g base len bad si (held t.xfPos) way, s.tapRead g base len bad si (held t.pos) way with
      | some old, some new => some (Fp.exAdd (Fp.exMul (Fp.exact w.1) old) (Fp.exMul (Fp.exact w.2) new))
      | _, _ => none
  if Fp.isNaN t.gain || Fp.isInf t.gain || Fp.isNaN t.gainPrev || Fp.isInf t.gainPrev then (none, clamp)
  else
    let scale (w : Word) (k : Nat) : Fp.Exact := let v := Fp.exact w; { v with mag := v.mag * k }
    let gain := Fp.exAdd (scale t.gain (n + 1)) (scale t.gainPrev (block - n - 1))
    (sum.map fun v =>
      let p := Fp.exMul (roundExt v) gain
      (Fp.round { p with ex := p.ex - Nat.log2 block }).1, clamp)

/-- The B outputs of a tap in sample order, with the tap after the block and the samples read at a bound. -/
def State.tapRun (s : State) (g fsi block base len : Nat) (bad : List Nat) : Nat → Tap → List (Option Word) × Tap × Nat
  | 0, t => ([], t, 0)
  | k + 1, t =>
    let t1 := t.move
    let r := s.tapSample g fsi block (block - (k + 1)) base len bad t1 (if t.xf then some t.left else none)
    let rest := State.tapRun s g fsi block base len bad k t1
    (r.1 :: rest.1, rest.2.1, rest.2.2 + if r.2 then 1 else 0)

/-- Results two to an entry (R321). -/
def pairs : List Word → List Dword
  | a :: b :: t => lanes a b :: pairs t
  | _ => []

/-- One tap of a list, whose results reach the FIFO of its unit at a cycle. -/
def State.runTap (s : State) (g fsi block a due : Nat) (lines : List (Nat × Nat)) (bad : List Nat) : State :=
  let t := (s.readTap a).take
  let ln := lines.getD t.line (0, 64)
  let r := s.tapRun g fsi block ln.1 ln.2 bad block t
  let f := s.fill r.1
  let s1 := (f.2.writeTap a r.2.1).bumpBy (Reg.FABRIC_RG_TAP_POS_CLAMP g) r.2.2
  s1.modUnit (8 * s1.physical (8 * g + t.dest / 8) + t.dest % 8) fun x =>
    { x with tapDue := x.tapDue ++ (pairs f.1).map fun v => (due, v) }

/-- The cycle at which each tap of a list has produced its results: 16 cycles for the list, then m × B / 8 for each tap
(R322; log entry 19). -/
def State.tapTimes (s : State) (block : Nat) : Nat → List Nat → List (Nat × Nat)
  | _, [] => []
  | t, a :: rest =>
    let m := if (s.readTap a).cubic then 4 else 8
    (a, t + m * block / 8) :: State.tapTimes s block (t + m * block / 8) rest

/-- R315, R322: the tap list of a firing begins at its start tick. `corr` and `bad` are what the delay memory's code finds
in the words the list reads. -/
def State.startTaps (s : State) (i : SchedImage) (g fsi block : Nat) (l : TapList) (corr : Nat) (bad : List Nat) : State :=
  let lines := match i.regions.find? (fun r => r.region.val == g) with | some r => r.lines | none => []
  let s1 := ((s.when (!bad.isEmpty) State.errSeen).bumpBy (Reg.FABRIC_RG_DLY_CORR g) corr).bumpBy (Reg.FABRIC_RG_DLY_UNCORR g)
    bad.length
  let at0 := (List.range l.count).map fun k => g * 2 ^ 24 + l.addr + 32 * k
  s1.each (s1.tapTimes block 16 at0) fun x t => t.runTap g fsi block x.1 x.2 lines bad

end Sys2Proof.Machine
end

