-- ==== Sys2Proof/Machine/Bundle.lean ====
section
/-! DEFINITION. The 128-bit bundle as the unit checks it before issue: the illegal-bundle items of R179 and the memory range
faults of R173 (R179, R234, R235, R257, R263–R267). -/

namespace Sys2Proof.Machine

/-- Destinations of an operation with their latencies (R182, R234, R235): file 0 A, 1 F, 2 P, 3 special. -/
def destsM (v : Nat) : List (Nat × Nat × Nat) :=
  let op := sOp v
  if op = 0 then [] else if op = 0x0B then [(2, sD v % 8, 4)] else [(1, sD v, if 0x18 ≤ op then 8 else 4)]

def destsI (v : Nat) : List (Nat × Nat × Nat) :=
  let op := sOp v
  if op = 0 then [] else if op = 0x22 then [(2, sD v % 8, 1)]
  else if op = 0x18 || op = 0x19 then [(0, sD v, 3)]
  else if op = 0x1A || op = 0x1B then [(0, sD v, 18), (0, sD v + 1, 18)]
  else [(0, sD v, 1)]

def destsL (v : Nat) : List (Nat × Nat × Nat) :=
  let op := sOp v
  let base := if sM v = 0 then [] else [(0, sA v, 1)]
  if op = 0 then []
  else if op = 1 then (0, sD v, 3) :: base
  else if op = 2 || op = 3 then (1, sD v, 3) :: base
  else if 4 ≤ op && op ≤ 6 then base
  else if op = 9 then (0, sD v, 6) :: base
  else if op = 0x0A || op = 0x0B || op = 0x10 then (1, sD v, 6) :: base
  else if 0x0C ≤ op && op ≤ 0x0E then base
  else if op = 0x0F then [(1, sD v, 6), (1, sD v + 1, 6), (1, sD v + 2, 6), (1, sD v + 3, 6)] ++ base
  else if op = 0x11 then [(1, sD v, 3)]
  else if op = 0x12 then [(0, sD v, 2)]
  else [(1, sD v, 2)]

def destsC (v : Nat) : List (Nat × Nat × Nat) :=
  if cOp v = 0x0A then [(0, sf v 44 40, 2)] else if cOp v = 0x0B then [(3, sf v 7 0, 2)] else []

/-- Item 3: two destinations alike, writes to A0 and P0 left out (R234). -/
def clash : List (Nat × Nat × Nat) → Bool
  | [] => false
  | (f, n, l) :: t => (!((f == 0 || f == 2) && n == 0) && t.contains (f, n, l)) || clash t

/-- A LOOP_ACTIVE bit. -/
def UnitSt.levelOn (x : UnitSt) (n : Nat) : Bool := x.la.getLsbD n

/-- The innermost active level: the one most recently started (R197). -/
def UnitSt.innermost (x : UnitSt) : Option Nat :=
  match x.starts.find? x.levelOn with
  | some n => some n
  | none => (List.range 4).find? x.levelOn

/-- Item 5: the bundle is the end bundle of an active loop or one of the two before it. -/
def UnitSt.nearLoopEnd (x : UnitSt) : Bool :=
  (List.range 4).any fun n =>
    x.levelOn n && (let e := Tab.get 0 x.le n; decide (x.pc ≤ e) && decide (e ≤ x.pc + 2))

/-- The dynamic item of a control operation in the unit's state (R179 items 4, 5, 7, 8). -/
def UnitSt.illegalHere (x : UnitSt) (op level : Nat) (guard : Bool) : Option Nat :=
  if x.delay ≠ 0 && op ≠ 0 then some 4
  else if (op == 1 || op == 2 || op == 3 || op == 4) && x.nearLoopEnd then some 5
  else if op == 5 && guard && x.levelOn level then some 7
  else if op == 3 && guard && x.depth == 4 then some 8
  else if op == 4 && guard && x.depth == 0 then some 8
  else none

/-- Item 6 (LEND). -/
def UnitSt.illegalLend (x : UnitSt) (lend : Bool) : Bool :=
  let atEnd (n : Nat) := x.levelOn n && Tab.get 0 x.le n == x.pc
  (lend && !(List.range 4).any atEnd) ||
  (!lend && (match x.innermost with | some n => atEnd n | none => false))

/-- The first of two findings. -/
def firstOf (a b : Option (Nat × Nat)) : Option (Nat × Nat) :=
  match a, b with
  | some x, some y => if y.1 < x.1 then some y else some x
  | some x, none => some x
  | none, y => y

/-- A finding with its SLOT code (R210). -/
def atSlot (slot : Nat) (i : Option Nat) : Option (Nat × Nat) := i.map fun n => (n, slot)

/-- The lowest item of R179 that a bundle breaks, with its SLOT code (log entry 14). -/
def UnitSt.illegal (x : UnitSt) (b : BitVec 128) : Option (Nat × Nat) :=
  let k := bundleKind b
  let head := atSlot 7 (must (bf b 125 123 == 0 && decide (k < 3)))
  let lend := if x.illegalLend (bundleLend b) then some (6, 7) else none
  let m := firstOf (atSlot 0 (illegalM (slotM0 b))) (atSlot 1 (illegalM (slotM1 b)))
  let body :=
    if k = 0 then
      firstOf (firstOf m (firstOf (atSlot 2 (illegalI (slotI b))) (atSlot 3 (illegalL (slotL b)))))
        (if clash (destsM (slotM0 b) ++ destsM (slotM1 b) ++ destsI (slotI b) ++ destsL (slotL b))
         then some (3, 7) else none)
    else if k = 1 then
      let c := control b
      firstOf (firstOf m (atSlot 4 (illegalC c)))
        (firstOf (if clash (destsM (slotM0 b) ++ destsM (slotM1 b) ++ destsC c) then some (3, 7) else none)
          (atSlot 4 (x.illegalHere (cOp c) (sf c 49 48) (x.getP (cPred c)))))
    else if k = 2 then atSlot 5 (illegalLimm b)
    else none
  firstOf head (firstOf body lend)

/-- Space code, limit and alignment of an L-slot memory operation (R172, R173, R256). A servo unit has no shared memory
(log entry 15). -/
def lAccess (servo : Bool) (op : Nat) : Option (Nat × Nat × Nat) :=
  let shared := if servo then 0 else 0x100000
  if op = 1 || op = 2 || op = 4 || op = 5 then some (1, 0xC000, 4)
  else if op = 3 || op = 6 then some (1, 0xC000, 8)
  else if op = 9 || op = 0x0A || op = 0x0C || op = 0x0D || op = 0x10 then some (2, shared, 4)
  else if op = 0x0B || op = 0x0E then some (2, shared, 8)
  else if op = 0x0F then some (2, shared, 32)
  else none

/-- The effective address of an encoded L slot. -/
def UnitSt.eaOf (x : UnitSt) (v : Nat) : Nat :=
  (if sM v = 0 then x.getA (sA v) + x.getA (sB v) else x.getA (sA v)).toNat

/-- The DETAIL code of the range fault a bundle would make (R173, R257): guarded-off operations make none. -/
def UnitSt.rangeOf (x : UnitSt) (servo : Bool) (b : BitVec 128) : Option Nat :=
  let v := slotL b
  if bundleKind b = 0 && x.getP (sPred v) then
    match lAccess servo (sOp v) with
    | some (sp, lim, al) => rangeFault sp lim (x.eaOf v) al
    | none => none
  else none

end Sys2Proof.Machine
end

