-- ==== Sys2Proof/Machine/Flags.lean ====
section
/-! DEFINITION. Results and flags of the integer operations (R227, R228, R249–R254): each gives its value and whether
it sets V. -/

namespace Sys2Proof.Machine

def intMin : Int := -2147483648
def intMax : Int := 2147483647

/-- A value outside the signed 32-bit range (R227). -/
def overflows (v : Int) : Bool := decide (v < intMin) || decide (intMax < v)

/-- The exact result, wrapped, with V on signed overflow. -/
def wrapV (v : Int) : Word × Bool := (BitVec.ofInt 32 v, overflows v)

/-- The exact result, held at the end it passes, with V on overflow. -/
def satV (v : Int) : Word × Bool :=
  (if v < intMin then 0x80000000 else if intMax < v then 0x7FFFFFFF else BitVec.ofInt 32 v, overflows v)

def addV (a b : Word) : Word × Bool := wrapV (a.toInt + b.toInt)
def subV (a b : Word) : Word × Bool := wrapV (a.toInt - b.toInt)
def addsV (a b : Word) : Word × Bool := satV (a.toInt + b.toInt)
def subsV (a b : Word) : Word × Bool := satV (a.toInt - b.toInt)
def negV (a : Word) : Word × Bool := wrapV (0 - a.toInt)
def negsV (a : Word) : Word × Bool := satV (0 - a.toInt)
def mulV (a b : Word) : Word × Bool := wrapV (a.toInt * b.toInt)
def mulh (a b : Word) : Word := BitVec.ofInt 32 ((a.toInt * b.toInt) / 2 ^ 32)

/-- The amount of a shift: the low 8 bits (R228). -/
def amount (b : Word) : Nat := b.toNat % 256
def shl (a b : Word) : Word := if 32 ≤ amount b then 0 else a <<< amount b
def shr (a b : Word) : Word := if 32 ≤ amount b then 0 else a >>> amount b
def sar (a b : Word) : Word := a.sshiftRight (min (amount b) 31)
def rol (a b : Word) : Word := a.rotateLeft (amount b % 32)

/-- Quotient, remainder, V and Z of DIVS (R227). -/
def divs (a b : Word) : Word × Word × Bool × Bool :=
  if b = 0 then (if a.toInt < 0 then 0x80000000 else 0x7FFFFFFF, a, false, true)
  else if a = 0x80000000 ∧ b = 0xFFFFFFFF then (0x7FFFFFFF, 0, true, false)
  else (BitVec.ofInt 32 (a.toInt.tdiv b.toInt), BitVec.ofInt 32 (a.toInt.tmod b.toInt), false, false)

/-- Quotient, remainder and Z of DIVU (R227). -/
def divu (a b : Word) : Word × Word × Bool × Bool :=
  if b = 0 then (0xFFFFFFFF, a, false, true) else (a / b, a % b, false, false)

/-- The conditions of CMP (R250). -/
def cmpI (c : Nat) (a b : Word) : Bool :=
  match c with
  | 0 => a == b
  | 1 => a != b
  | 2 => decide (a.toInt < b.toInt)
  | 3 => decide (b.toInt ≤ a.toInt)
  | 4 => decide (a.toNat < b.toNat)
  | 5 => decide (b.toNat ≤ a.toNat)
  | 6 => (a &&& b) != 0
  | _ => (a &&& b) == 0

/-- The low `k` bits of a value in reverse order. -/
def revBits : Nat → Nat → Nat
  | 0, _ => 0
  | k + 1, v => v % 2 * 2 ^ k + revBits k (v / 2)

/-- BITREV (R254). -/
def bitrev (a b : Word) : Word :=
  let k := min (amount b) 32
  BitVec.ofNat 32 (a.toNat / 2 ^ k * 2 ^ k + revBits k (a.toNat % 2 ^ k))

end Sys2Proof.Machine
end

