-- ==== Sys2Proof/Machine/Unit.lean ====
section
/-! DEFINITION. The issue of an operation, the landing of results, the end of a bundle, and traps (R180–R218). -/

namespace Sys2Proof.Machine

/-- A special register written by MOVX or trap entry (R204, R269, R270); read-only and unlisted numbers discard. -/
def UnitSt.writeSr (x : UnitSt) (n : Nat) (w : Word) : UnitSt :=
  let v := w.toNat
  if n = 5 then { x with rb := v % 32 }
  else if n = 6 then { x with la := BitVec.ofNat 4 v }
  else if 8 ≤ n ∧ n < 12 then { x with lc := Tab.put 0 x.lc (n - 8) w }
  else if 12 ≤ n ∧ n < 16 then { x with ls := Tab.put 0 x.ls (n - 12) (v % 1024) }
  else if 16 ≤ n ∧ n < 20 then { x with le := Tab.put 0 x.le (n - 16) (v % 1024) }
  else if 20 ≤ n ∧ n < 24 then { x with stk := Tab.put 0 x.stk (n - 20) (v % 1024) }
  else if n = 24 then { x with iflags := BitVec.ofNat 3 v }
  else if n = 25 then { x with fflags := BitVec.ofNat 3 v }
  else if n = 26 then { x with tpc := v % 1024 }
  else if n = 27 then { x with tcause := w &&& 0xFFFF1FFF }
  else if n = 28 then { x with tvec := w &&& 0x800003FF }
  else if n = 29 then { x with ten := BitVec.ofNat 3 v }
  else if n = 30 then { x with bkpt := v % 1024 }
  else if n = 31 then { x with tscr0 := w }
  else if n = 32 then { x with tscr1 := w }
  else x

/-- A special register read by MOVS (R204, R269); unlisted numbers give 0. -/
def UnitSt.readSr (x : UnitSt) (u n : Nat) : Word :=
  let nat (v : Nat) : Word := BitVec.ofNat 32 v
  if n = 0 then nat u
  else if n = 1 then nat x.firing
  else if n = 2 then nat x.fsi
  else if n = 3 then nat (x.fsi / 2 ^ 32)
  else if n = 4 then nat x.cyc
  else if n = 5 then nat x.rb
  else if n = 6 then nat (x.la.toNat + 16 * x.depth + if x.tactive then 256 else 0)
  else if 8 ≤ n ∧ n < 12 then Tab.get 0 x.lc (n - 8)
  else if 12 ≤ n ∧ n < 16 then nat (Tab.get 0 x.ls (n - 12))
  else if 16 ≤ n ∧ n < 20 then nat (Tab.get 0 x.le (n - 16))
  else if 20 ≤ n ∧ n < 24 then nat (Tab.get 0 x.stk (n - 20))
  else if n = 24 then nat x.iflags.toNat
  else if n = 25 then nat x.fflags.toNat
  else if n = 26 then nat x.tpc
  else if n = 27 then x.tcause
  else if n = 28 then x.tvec
  else if n = 29 then nat x.ten.toNat
  else if n = 30 then nat x.bkpt
  else if n = 31 then x.tscr0
  else if n = 32 then x.tscr1
  else 0

/-- A result becomes visible; writes to A0 and P0 are discarded (R170). -/
def UnitSt.land (x : UnitSt) (l : Landing) : UnitSt :=
  match l.dest with
  | .f p => { x with f := Tab.put 0 x.f p l.val }
  | .a n => if n % 32 = 0 then x else { x with a := Tab.put 0 x.a (n % 32) (lane0 l.val) }
  | .p n => if n % 8 = 0 then x else
      { x with p := (x.p &&& ~~~(1#8 <<< (n % 8))) ||| (if l.val.getLsbD 0 then 1#8 <<< (n % 8) else 0) }
  | .sr n => x.writeSr n (lane0 l.val)

/-- A result enters the flight behind every result that lands earlier, and of those that land with it behind every one issued
no later, so that of two that reach a register in one cycle the later issued lands last (R184). -/
def insLanding (l : Landing) : List Landing → List Landing
  | [] => [l]
  | h :: t => if h.cycle < l.cycle ∨ (h.cycle = l.cycle ∧ h.issued ≤ l.issued) then h :: insLanding l t else l :: h :: t

/-- A result in flight: visible `lat` cycles after the issuing cycle (R181). -/
def UnitSt.fly (x : UnitSt) (lat : Nat) (d : Dest) (v : Dword) : UnitSt :=
  { x with flight := insLanding ⟨x.cyc + lat, d, v, x.cyc⟩ x.flight }

/-- Lands every result due by the unit's cycle, oldest first. -/
def UnitSt.landDue (x : UnitSt) : UnitSt :=
  let due := x.flight.filter fun l => decide (l.cycle ≤ x.cyc)
  due.foldl UnitSt.land { x with flight := x.flight.filter fun l => !decide (l.cycle ≤ x.cyc) }

/-- The cycle in which the last result in flight lands. -/
def UnitSt.lastLanding (x : UnitSt) : Nat := x.flight.foldl (fun m l => max m l.cycle) 0

/-- The clock reaches a cycle, and what is due by then lands. -/
def UnitSt.runTo (x : UnitSt) (c : Nat) : UnitSt := UnitSt.landDue { x with cyc := max x.cyc c }

/-- Loop-end processing at the bundle at `pc`, from the innermost level outward (R197, R198): the next address. -/
def UnitSt.loopEnd : Nat → UnitSt → UnitSt × Nat
  | 0, x => (x, x.pc + 1)
  | k + 1, x =>
    match x.innermost with
    | none => (x, x.pc + 1)
    | some n =>
      if Tab.get 0 x.le n = x.pc then
        if 1 < (Tab.get 0 x.lc n).toNat then
          ({ x with lc := Tab.put 0 x.lc n (Tab.get 0 x.lc n - 1) }, Tab.get 0 x.ls n)
        else UnitSt.loopEnd k { x with lc := Tab.put 0 x.lc n 0, la := x.la &&& ~~~(1#4 <<< n) }
      else (x, x.pc + 1)

/-- The end of a bundle: one cycle passes, loops are processed, the file rotates (R202), delay bundles count down (R191),
and due results land. `fresh` marks the bundle of a LOOP, whose own level does not end there. -/
def UnitSt.endBundle (x : UnitSt) (rot fresh : Bool) : UnitSt :=
  let active := decide (x.la ≠ 0)
  let (x1, next) := if fresh then (x, x.pc + 1) else UnitSt.loopEnd 4 x
  let x2 := if rot && active then { x1 with rb := (x1.rb + 31) % 32 } else x1
  let x3 : UnitSt :=
    if x2.delay = 0 then { x2 with pc := next }
    else if x2.delay = 1 then { x2 with delay := 0, pc := x2.brTo.getD next, brTo := none }
    else { x2 with delay := x2.delay - 1, pc := next }
  UnitSt.landDue { x3 with cyc := x3.cyc + 1, bkptExempt := false, fflags := x3.fflags ||| x3.fnew, fnew := 0, mid := none }

/-- Ends the bundle after its last operation. -/
def UnitSt.after (x : UnitSt) (o : Op) : UnitSt := if o.last then x.endBundle o.rot false else x

/-- The unit as an operation of a bundle finds it: what the bundle's first operation finds is marked (R206). -/
def UnitSt.opened (x : UnitSt) : UnitSt :=
  match x.mid with
  | some _ => x
  | none => { x with mid := some ⟨x.flight, x.iflags, x.pendDivz, x.heldDivz⟩ }

/-- The unit without what the bundle that issues has done so far. -/
def UnitSt.undone (x : UnitSt) : UnitSt :=
  match x.mid with
  | some m => { x with flight := m.flight, iflags := m.iflags, pendDivz := m.pendDivz, heldDivz := m.heldDivz, fnew := 0,
                       mid := none }
  | none => x

/-- An operation issues: only a running unit issues (R186), and a guard that reads 0 leaves no effect (R189). -/
def State.issue (s : State) (o : Op) (act : UnitSt → UnitSt) : State :=
  let x := s.unit o.u.val
  if x.wait = .run then s.setUnit o.u.val ((if x.getP o.pred.val then act x.opened else x.opened).after o) else s

/-- FFLAGS bits set by an operation: sticky (R226), and seen by bundles after its own (R180). -/
def UnitSt.fflag (x : UnitSt) (b : BitVec 3) : UnitSt := { x with fnew := x.fnew ||| b }
/-- IFLAGS bits are sticky (R229). -/
def UnitSt.iflag (x : UnitSt) (v z : Bool) : UnitSt :=
  { x with iflags := x.iflags ||| (if v then 1 else 0) ||| (if z then 2 else 0) }

/-- An F, A or predicate result. -/
def UnitSt.flyF (x : UnitSt) (lat d : Nat) (v : Dword) : UnitSt := x.fly lat (.f (x.phys d)) v
def UnitSt.flyA (x : UnitSt) (lat d : Nat) (v : Word) : UnitSt := x.fly lat (.a (d % 32)) (lanes v 0)
def UnitSt.flyP (x : UnitSt) (lat d : Nat) (v : Bool) : UnitSt := x.fly lat (.p (d % 8)) (if v then 1 else 0)

/-! ### Halting and traps -/

/-- The unit stops issuing; its results in flight land, which is the HALT drain (R194). -/
def UnitSt.halt (x : UnitSt) : UnitSt := { (x.runTo x.lastLanding) with wait := .halted }

/-- A shared read of the unit has not been served. -/
def UnitSt.reading (x : UnitSt) : Bool := x.readNew.isSome || x.readBuf.isSome

/-- A shared write of the unit has not been handed to its memory. -/
def UnitSt.writing (x : UnitSt) : Bool := x.writeNew.isSome || x.writeBuf.isSome

/-- The end of RETT: two further cycles, LOOP_ACTIVE restored, and the bundle at TPC (R211). -/
def UnitSt.resume (x : UnitSt) : UnitSt :=
  let z := x.runTo (max x.cyc x.lastLanding + 2)
  { z with la := (z.tcause >>> 4).setWidth 4, tactive := false, heldDivz := false, heldDebug := false, pc := z.tpc,
           bkptExempt := true, wait := .run }

/-- A unit whose shared reads have all been served or discarded goes on: the handler's first bundle and the bundle at TPC come
after every result in flight (R209, R211), and the results of a halted unit land (R194). -/
def UnitSt.settled (x : UnitSt) : UnitSt :=
  if x.reading then x
  else
    match x.wait with
    | .entry => { (x.runTo x.lastLanding) with wait := .run }
    | .rett => x.resume
    | .halted => x.runTo x.lastLanding
    | _ => x

/-- FABRIC_UN_FLAGS gathers the flags at each HALT of the unit (R217). -/
def State.gatherFlags (s : State) (u : Nat) : State :=
  if u < 512 then
    let x := s.unit u
    (s.put (Reg.FABRIC_UN_FLAGS_IFLAGS (u / 8) (u % 8))
      (Nat.lor (s.get (Reg.FABRIC_UN_FLAGS_IFLAGS (u / 8) (u % 8))) x.iflags.toNat)).put
      (Reg.FABRIC_UN_FLAGS_FFLAGS (u / 8) (u % 8))
      (Nat.lor (s.get (Reg.FABRIC_UN_FLAGS_FFLAGS (u / 8) (u % 8))) x.fflags.toNat)
  else s

/-- A trap as it is taken: cause, CODE, SLOT and DETAIL of R210, REEXEC and NORESUME. -/
structure TrapInfo where
  cause : Nat
  detail : Nat := 0
  slot : Nat := 7
  code : Nat := 0
  reexec : Bool := false
  noresume : Bool := false
  deriving DecidableEq, Repr

/-- The TCAUSE record (R210). -/
def TrapInfo.record (t : TrapInfo) (la : BitVec 4) : Word :=
  BitVec.ofNat 32 (t.cause + 16 * la.toNat + (if t.reexec then 256 else 0) + (if t.noresume then 512 else 0) +
    1024 * t.slot + 2 ^ 16 * t.detail + 2 ^ 20 * t.code)

/-- Trap entry (R209, R214, R215, R217). The handler's first bundle waits for every result in flight, a shared read in the
unit's buffer among them. A trap with no valid vector, or a handler's own trap, records and stops the unit. -/
def State.takeTrap (s : State) (u : Nat) (t : TrapInfo) : State :=
  let x := s.unit u
  let dbl := x.tactive
  let rec1 : UnitSt := { x with tpc := x.pc % 1024, tcause := t.record x.la }
  let s1 := if u < 512 then
      ((s.put (Reg.FABRIC_UN_TRAP_LAST_CAUSE (u / 8) (u % 8)) t.cause).bump (Reg.FABRIC_UN_TRAP_COUNT (u / 8) (u % 8))).put
        (Reg.FABRIC_UN_TPC_TPC (u / 8) (u % 8)) (x.pc % 1024)
    else s
  if x.tvec.getLsbD 31 && !dbl then
    let y := { rec1 with la := 0, tactive := true, heldDivz := rec1.pendDivz, heldDebug := rec1.pendDebug.isSome,
                         delay := 0, brTo := none, bkptExempt := false, pc := x.tvec.toNat % 1024 }
    let z := y.runTo (y.cyc + 2)
    s1.setUnit u (UnitSt.settled { z with wait := .entry })
  else
    let s2 := if u < 512 then
        (s1.set (Reg.FABRIC_UN_TRAP_STOPPED (u / 8) (u % 8))).putBit (Reg.FABRIC_UN_TRAP_DOUBLE (u / 8) (u % 8))
          (dbl || s.bit (Reg.FABRIC_UN_TRAP_DOUBLE (u / 8) (u % 8)))
      else s1
    let s3 := ((s2.errSeen.setUnit u rec1.halt).gatherFlags u).postNow .fault (some 54) 0x11 [u, rec1.tcause.toNat]
    if u < 512 then s3 else s3.servoCut (u - 512)

/-- A fault detected for the bundle that holds an operation: the trap is taken in the gap before the bundle, and no operation
of the bundle has taken effect (R206). -/
def State.faultTrap (s : State) (u : Nat) (cause detail slot : Nat) : State :=
  (s.modUnit u UnitSt.undone).takeTrap u { cause := cause, detail := detail, slot := slot, reexec := true,
                                           noresume := decide ((s.unit u).delay ≠ 0) }

/-- A running unit checks an operation against the static items of R179 before its bundle issues: a field that must be 0 and is
not is the ILLEGAL trap (R206, R233). -/
def State.legal (s : State) (o : Op) (slot : Nat) (item : Option Nat) (go : Out) : Out :=
  if (s.unit o.u.val).wait = .run then
    match item with
    | some n => .next (s.faultTrap o.u.val 1 n slot)
    | none => go
  else .next s

/-- The gap before the next bundle is a trap boundary (R207). -/
def UnitSt.atBoundary (x : UnitSt) : Bool := x.delay == 0

/-- A pending DEBUG, DIVZERO or WLOST that may be taken: one held from before the handler waits for RETT (R208, R214). -/
def UnitSt.pendingTrap (x : UnitSt) : Option TrapInfo :=
  if x.pendDebug.isSome && !(x.tactive && x.heldDebug) then
    some { cause := 3, detail := 1, slot := 4, code := (x.pendDebug.getD 0).toNat }
  else if x.pendDivz && x.ten.getLsbD 1 && !(x.tactive && x.heldDivz) then some { cause := 5, slot := 2 }
  else if x.pendWlost && x.ten.getLsbD 0 && !x.tactive then some { cause := 4 }
  else none

/-- A pending trap is taken and is pending no longer. -/
def UnitSt.dropPending (x : UnitSt) (cause : Nat) : UnitSt :=
  if cause = 3 then { x with pendDebug := none } else if cause = 5 then { x with pendDivz := false }
  else { x with pendWlost := false }

/-- What is detected for the next bundle: ILLEGAL before RANGE (R208); fetch past 1,023 is a RANGE (R193). -/
def UnitSt.detected (x : UnitSt) (servo : Bool) (b : BitVec 128) : Option TrapInfo :=
  if 1024 ≤ x.pc then some { cause := 2, detail := 4, slot := 7, noresume := decide (x.delay ≠ 0) }
  else
    match x.illegal b with
    | some (item, slot) => some { cause := 1, detail := item, slot := slot, reexec := true,
                                  noresume := decide (x.delay ≠ 0) }
    | none =>
      match x.rangeOf servo b with
      | some d => some { cause := 2, detail := d, slot := 3, reexec := true, noresume := decide (x.delay ≠ 0) }
      | none => none

/-- The trap chosen in the gap before the next bundle (R207, R208). -/
def UnitSt.choose (x : UnitSt) (servo : Bool) (b : BitVec 128) : Option (TrapInfo × Bool) :=
  if x.atBoundary then
    match x.pendingTrap with
    | some t => some (t, true)
    | none =>
      if x.ten.getLsbD 2 && x.pc == x.bkpt && !x.bkptExempt then
        some ({ cause := 3, detail := 2, slot := 7, reexec := true }, false)
      else (x.detected servo b).map fun t => (t, false)
  else (x.detected servo b).map fun t => (t, false)

/-- The trap a running unit takes in the gap before its next bundle, and whether it was pending (R205–R208). -/
def State.gapTrap (s : State) (u : Nat) : Option (TrapInfo × Bool) :=
  let x := s.unit u
  if x.wait = .run ∧ x.mid = none then x.choose (decide (512 ≤ u)) (Tab.get 0 s.prog (1024 * u + x.pc)) else none

/-- The chosen trap is taken. -/
def State.enterTrap (s : State) (u : Nat) (t : TrapInfo × Bool) : State :=
  (s.when t.2 fun s' => s'.modUnit u fun y => y.dropPending t.1.cause).takeTrap u t.1

/-- At a gap the unit takes the chosen trap, or none (R205–R215). A parity error on the fetch of the next bundle cuts the
firing with cause CODE (R156). -/
def execTrapEntry (g : GapFetch) (s : State) : Out :=
  let u := g.unit.val
  if g.parity ∧ (s.unit u).wait = .run ∧ (s.unit u).pc < 1024 then
    .next (if u < 512 then s.cut (u / 8) 3 else s.servoCut (u - 512))
  else
    match s.gapTrap u with
    | some t => .next (s.enterTrap u t)
    | none => .next s

/-- The next result in flight becomes visible (R181). A unit that issues reaches that cycle by its bundles and no other way
(R186), so only what is due lands there; the clock of a waiting unit runs on to it. -/
def execResultLands (u : Fin 516) (s : State) : Out :=
  .next (s.modUnit u.val fun x =>
    match x.flight, x.wait with
    | [], _ => x
    | _, .run => x.landDue
    | l :: _, _ => x.runTo l.cycle)

end Sys2Proof.Machine
end

