-- ==== Sys2Proof/Machine/UnitL.lean ====
section
/-! DEFINITION. The memory and move operations of slot L (R255–R262), up to the shared-memory port (R277–R281). -/

namespace Sys2Proof.Machine

/-- The address of a unit's local data memory (R172). -/
def lmemAddr (u a : Nat) : Nat := u * 2 ^ 16 + a

/-- The base update lands one cycle after issue (R182, R255). -/
def UnitSt.updateBase (x : UnitSt) (o : Op) (size : Nat) : UnitSt :=
  match x.newBase o size with
  | some w => x.flyA 1 o.a.val w
  | none => x

/-- A memory operation of opcode `op` checked before its bundle issues: a field that must be 0 is ILLEGAL (R233), a range fault takes the RANGE trap and does nothing else (R206,
R257); a guarded-off operation checks nothing (R189). -/
def State.checked (s : State) (op : Nat) (o : Op) (go : State → State) : Out :=
  s.legal o 3 (illegalL (o.word op)) <|
    let x := s.unit o.u.val
    if x.getP o.pred.val then
      match (lAccess (decide (512 ≤ o.u.val)) op).bind fun a => rangeFault a.1 a.2.1 (x.ea o) a.2.2 with
      | some d => .next (s.faultTrap o.u.val 2 d 3)
      | none => .next (go s)
    else .next (s.issue o id)

/-- A local load (R185, R256): the value before any store of a later bundle. -/
def loadLocal (op : Nat) (o : Op) (size : Nat) (e : Ecc) (land : UnitSt → Memory → Nat → UnitSt) (s : State) : Out :=
  s.checked op o fun s =>
    let x := s.unit o.u.val
    (s.localEcc o.u.val e).issue o fun y => land (y.updateBase o size) s.lmem (lmemAddr o.u.val (x.ea o))

def execLdl32a (o : Op) (e : Ecc) (s : State) : Out :=
  loadLocal 0x01 o 4 e (fun x m a => x.flyA 3 o.d.val (Memory.read32 m a)) s
def execLdl32f (o : Op) (e : Ecc) (s : State) : Out :=
  loadLocal 0x02 o 4 e (fun x m a => x.flyF 3 o.d.val (both (Memory.read32 m a))) s
def execLdl64 (o : Op) (e : Ecc) (s : State) : Out :=
  loadLocal 0x03 o 8 e (fun x m a => x.flyF 3 o.d.val (Memory.read64 m a)) s

/-- A local store (R185, R259, R293): it does not take place where the code word it merges with is uncorrectable. -/
def storeLocal (op : Nat) (o : Op) (size : Nat) (e : Ecc) (data : UnitSt → Nat) (s : State) : Out :=
  s.checked op o fun s =>
    let x := s.unit o.u.val
    let t := s.localEcc o.u.val e
    let t' := if e = .uncorrectable then t
      else { t with lmem := Memory.writeNat t.lmem (lmemAddr o.u.val (x.ea o)) size (data x) }
    t'.issue o fun y => y.updateBase o size

def execStl32a (o : Op) (e : Ecc) (s : State) : Out := storeLocal 0x04 o 4 e (fun x => (x.getA o.d.val).toNat) s
def execStl32f (o : Op) (e : Ecc) (s : State) : Out := storeLocal 0x05 o 4 e (fun x => (lane0 (x.getF o.d.val)).toNat) s
def execStl64 (o : Op) (s : State) : Out := storeLocal 0x06 o 8 .clean (fun x => (x.getF o.d.val).toNat) s

/-- A lost read: RLOST and its count (R279, R284). -/
def State.readLost (s : State) (u : Nat) : State :=
  if u < 512 then
    (s.errSeen.setMask (Reg.FABRIC_CL_WLOST_RLOST (u / 8)) (u % 8)).bump (Reg.FABRIC_CL_WLOST_CNT_RCOUNT (u / 8))
  else s

/-- A lost write: WLOST, its count, and the WLOST trap made pending when it is enabled (R205, R281, R283, R284). -/
def State.writeLost (s : State) (c req : Nat) : State :=
  let s1 := (s.errSeen.setMask (Reg.FABRIC_CL_WLOST_WLOST c) req).bump (Reg.FABRIC_CL_WLOST_CNT_WCOUNT c)
  if req < 8 then
    s1.modUnit (8 * c + req) fun x => if x.ten.getLsbD 0 then { x with pendWlost := true } else x
  else s1

/-- A unit presents a read in the cycle it issues (R277–R279). An earlier read of an earlier cycle that no port cycle
has taken up goes to the read buffer first. -/
def State.presentRead (s : State) (u : Nat) (r : ReadReq) : State :=
  let x := s.unit u
  match x.readNew, x.readBuf with
  | none, _ => s.setUnit u { x with readNew := some r }
  | some q, none => s.setUnit u { x with readBuf := some q, readNew := some r }
  | some _, some _ => s.readLost u

/-- A unit presents a write in the cycle it issues (R280, R281). -/
def State.presentWrite (s : State) (u : Nat) (w : WriteReq) : State :=
  let x := s.unit u
  match x.writeNew, x.writeBuf with
  | none, _ => s.setUnit u { x with writeNew := some w }
  | some q, none => s.setUnit u { x with writeBuf := some q, writeNew := some w }
  | some _, some _ => s.writeLost (u / 8) (u % 8)

/-- A shared load: the base update at issue, the read at the port (R255, R278). A servo unit has no cluster and no
shared memory, so every shared address lies outside its space (log entry 15). -/
def loadShared (op : Nat) (o : Op) (inc form : Nat) (dest : UnitSt → List Dest) (s : State) : Out :=
  s.checked op o fun s =>
    let x := s.unit o.u.val
    (s.presentRead o.u.val ⟨x.ea o, form, dest x, x.cyc⟩).issue o fun y => y.updateBase o inc

def execLds32a (o : Op) (s : State) : Out := loadShared 0x09 o 4 4 (fun _ => [.a (o.d.val % 32)]) s
def execLds32f (o : Op) (s : State) : Out := loadShared 0x0A o 4 5 (fun x => [.f (x.phys o.d.val)]) s
def execLds64 (o : Op) (s : State) : Out := loadShared 0x0B o 8 8 (fun x => [.f (x.phys o.d.val)]) s
/-- R260: a 32-bit access for alignment, with the size 16 of the addressing modes. -/
def execLdp (o : Op) (s : State) : Out := loadShared 0x10 o 16 16 (fun x => [.f (x.phys o.d.val)]) s
/-- R179 item 9, R256. -/
def execLdsB256 (o : Op) (s : State) : Out :=
  loadShared 0x0F o 32 32 (fun x => (List.range 4).map fun k => .f (x.phys (o.d.val + k))) s

/-- A shared store: handed to the port, with the base update at issue (R255, R259, R281). -/
def storeShared (op : Nat) (o : Op) (size : Nat) (data : UnitSt → Dword) (s : State) : Out :=
  s.checked op o fun s =>
    let x := s.unit o.u.val
    (s.presentWrite o.u.val ⟨x.ea o, size, data x⟩).issue o fun y => y.updateBase o size

def execSts32a (o : Op) (s : State) : Out := storeShared 0x0C o 4 (fun x => lanes (x.getA o.d.val) 0) s
def execSts32f (o : Op) (s : State) : Out := storeShared 0x0D o 4 (fun x => lanes (lane0 (x.getF o.d.val)) 0) s
def execSts64 (o : Op) (s : State) : Out := storeShared 0x0E o 8 (fun x => x.getF o.d.val) s

/-- The tap results due by a cycle enter the FIFO; an entry that finds it full is lost, two results to an entry (R321). -/
def State.deliverTaps (s : State) (u cyc : Nat) : State :=
  let x := s.unit u
  let due := x.tapDue.filter fun e => decide (e.1 ≤ cyc)
  let room := 64 - x.fifo.length
  (s.setUnit u { x with tapDue := x.tapDue.filter fun e => !decide (e.1 ≤ cyc),
                        fifo := x.fifo ++ (due.take room).map (·.2) }).bumpBy
    (Reg.FABRIC_RG_TAP_FIFO_DROP (u / 64)) (2 * (due.length - room))

/-- R230, R261: the oldest FIFO entry, or +0.0 with TU when the FIFO is empty. -/
def execLdt (o : Op) (s : State) : Out :=
  s.legal o 3 (illegalL (o.word 0x11)) (.next ((s.deliverTaps o.u.val (s.unit o.u.val).cyc).issue o fun x =>
    match x.fifo with
    | [] => UnitSt.flyF { x with iflags := x.iflags ||| 4 } 3 o.d.val 0
    | v :: t => UnitSt.flyF { x with fifo := t } 3 o.d.val v))

/-- R262: one lane of an F register to an A register, bits unchanged. -/
def execMovfa (o : Op) (s : State) : Out :=
  s.legal o 3 (illegalL (o.word 0x12)) (.next (s.issue o fun x =>
    let v := x.getF o.a.val
    x.flyA 2 o.d.val (if o.m.val = 0 then lane0 v else lane1 v)))

/-- R262: A registers to the lanes of an F register, bits unchanged. -/
def execMovaf (o : Op) (s : State) : Out :=
  s.legal o 3 (illegalL (o.word 0x13)) (.next (s.issue o fun x =>
    x.flyF 2 o.d.val (lanes (x.getA o.a.val) (if o.m.val = 0 then x.getA o.b.val else x.getA o.a.val))))

end Sys2Proof.Machine
end

