-- ==== Sys2Proof/Machine/Firing.lean ====
section
/-! DEFINITION. The running of a firing, region clocks, schedule switches and re-admission (R130–R169, R175, R402–R407). -/

namespace Sys2Proof.Machine

/-! ### Region clocks (R402–R407) -/

/-- The regions whose clock runs under a domain's schedule have a set point from it (R407). -/
def State.setPoints (s : State) (i : SchedImage) (d : Nat) : State :=
  s.each (i.regions.filter fun r => decide (r.domain.map (·.val) = some d)) fun r t =>
    t.put (Reg.FABRIC_RG_CLK_SETPOINT r.region.val) r.setPoint

/-- A firing of the region is in progress. -/
def State.regionFires (s : State) (g : Nat) : Bool := (List.range 8).any fun k => (s.cluster (8 * g + k)).firing.isSome

/-- A firing of the region demands its clock (R30): the schedule in force gives one of its clusters a firing, and the domain's
firings run. -/
def State.regionDemand (s : State) (g : Nat) : Bool :=
  (List.range 8).any fun k =>
    match s.imageAt (8 * g + k) with
    | some (i, d) => !s.firingsOff d && !(firingsOf i (s.logical (8 * g + k))).isEmpty
    | none => false

/-- R30, R402: tick 0 of the clock start phase, on demand for the region's firings; a clock that runs is not started again. -/
def execRegionClockStart (g : Fin 8) (s : State) : Out :=
  .next (if s.regionDemand g.val && !s.bit (Reg.FABRIC_RG_CLK_RUNNING g.val) then
    ((s.set (Reg.FABRIC_RG_CLK_RUNNING g.val)).put (Reg.FABRIC_RG_CLK_LOCKED g.val) 0).modRegion g.val fun r =>
      { r with starting := true }
  else s)

/-- R402: 32 FRAME cycles within ±1 % during K. -/
def execAdpllLock (g : Fin 8) (s : State) : Out :=
  .next (if (s.region g.val).starting then s.set (Reg.FABRIC_RG_CLK_LOCKED g.val) else s)

/-- The end of K with the ADPLL locked: BYPASS returns to 0 on that FRAME edge (R405). -/
def State.endClockStart (s : State) (g : Nat) : State :=
  if (s.region g).starting && s.bit (Reg.FABRIC_RG_CLK_LOCKED g) then
    (s.put (Reg.FABRIC_RG_CLK_BYPASS g) 0).modRegion g fun r => { r with starting := false }
  else s

/-- A region moves to the bypass clock, with one RG_BYPASS event on a change of BYPASS (R403–R406). -/
def State.toBypass (s : State) (g : Nat) : State :=
  let s1 := (s.set (Reg.FABRIC_RG_CLK_BYPASS g)).set (Reg.FABRIC_RG_CLK_BYPASS_SEEN g)
  if s.bit (Reg.FABRIC_RG_CLK_BYPASS g) then s1 else s1.errSeen.postNow .clock (some 48) 0x21 [g]

/-- R403: K has ended without lock. -/
def execBypassFallback (g : Fin 8) (s : State) : Out :=
  .next (if (s.region g.val).starting && !s.bit (Reg.FABRIC_RG_CLK_LOCKED g.val) then
    ((s.bump (Reg.FABRIC_RG_CLK_CNT_NOLOCK g.val)).toBypass g.val).modRegion g.val fun r => { r with starting := false }
  else s)

/-- R404: a locked ADPLL has lost lock. -/
def execAdpllLossOfLock (g : Fin 8) (s : State) : Out :=
  .next (if s.bit (Reg.FABRIC_RG_CLK_LOCKED g.val) then
    (((s.put (Reg.FABRIC_RG_CLK_LOCKED g.val) 0).bump (Reg.FABRIC_RG_CLK_CNT_LOSS g.val)).toBypass g.val).modRegion g.val
      fun r => { r with starting := false }
  else s)

/-- The region clock stops. -/
def State.stopClock (s : State) (g : Nat) : State :=
  ((s.put (Reg.FABRIC_RG_CLK_RUNNING g) 0).put (Reg.FABRIC_RG_CLK_LOCKED g) 0).modRegion g fun r => { r with starting := false }

/-- R30, R135: the end of the region's last firing window; no clock stops while a firing of its region is in progress. -/
def execRegionClockStop (g : Fin 8) (s : State) : Out :=
  .next (if s.regionFires g.val then s else s.stopClock g.val)

/-- A cluster whose firings execute: it is not quarantined, and no earlier firing of the frame was cut (R157, R159). -/
def State.executes (s : State) (c : Nat) : Bool := !(s.quarantined c || (s.cluster c).zeroing)

/-- R292: preheat follows K (R133), and the cluster wakes from retention for a firing that will execute; the memories of a
quarantined cluster stay in retention (R25, R159). -/
def execPreheat (c : Fin 64) (s : State) : Out :=
  let s1 := s.endClockStart (c.val / 8)
  .next (if s.executes c.val && s.bit (Reg.FABRIC_RG_CLK_RUNNING (c.val / 8)) then
    s1.modCluster c.val fun x => { x with retention := false } else s1)

/-! ### Programs and parameter slots -/

/-- Bytes of a memory between two addresses cleared. -/
def clearRange (m : Memory) (lo hi : Nat) : Memory := m.filter fun e => !(decide (lo ≤ e.1) && decide (e.1 < hi))

/-- A program image in a unit's program memory (R51, R174). -/
def State.loadUnit (s : State) (u digest : Nat) : State :=
  match s.sched.programs.find? (fun p => p.digest == digest) with
  | none => s
  | some p =>
    let old := s.prog.filter fun e => !(decide (1024 * u ≤ e.1) && decide (e.1 < 1024 * u + 1024))
    { s with prog := p.code.zipIdx.foldl (fun t x => if x.2 < 1024 then Tab.put 0 t (1024 * u + x.2) x.1 else t) old }

/-- The images of a cluster in its eight units. -/
def State.loadCluster (s : State) (i : SchedImage) (c : Nat) : State :=
  let l := imagesOf i (s.logical c)
  (s.each l.zipIdx fun x t => t.loadUnit (8 * c + x.2) x.1).modCluster c fun x => { x with loaded := l }

/-- The parameter slots of a cluster at the values of its parameters (R99, R300). -/
def State.writeSlots (s : State) (i : SchedImage) (c : Nat) : State :=
  s.each (i.slots.filter fun m => m.cluster.val == s.logical c) fun m t =>
    { t with shm := Memory.writeNat t.shm (shmAddr c m.addr) 4 (t.slotValue m.handle).toNat }

/-- Local and shared memories of a cluster cleared, its parameter slots at their values (R164). -/
def State.clearMemories (s : State) (i : SchedImage) (c : Nat) : State :=
  State.writeSlots { s with shm := clearRange s.shm (c * 2 ^ 20) ((c + 1) * 2 ^ 20),
                            lmem := clearRange s.lmem (8 * c * 2 ^ 16) ((8 * c + 8) * 2 ^ 16) } i c

/-- What the standard programs keep in the local and shared memories of a logical cluster is gone, and in its delay lines too for a
new program (R104, R164). -/
def State.clearStd (s : State) (i : SchedImage) (l : Nat) (lines : Bool) : State :=
  let mine (h : Nat) : Bool := match placeOf i h with | some p => p.cluster.val == l | none => false
  s.modStd fun q => { q with rms := q.rms.filter fun e => !mine e.1,
                             line := if lines then q.line.filter fun e => !mine e.1 else q.line }

/-- The zero state from which a cluster's new programs start (R104, R153): the glaze state with the rest. -/
def State.zeroCluster (s : State) (i : SchedImage) (c : Nat) : State :=
  (State.clearMemories { s with glz := clearRange s.glz (c * 2 ^ 14) ((c + 1) * 2 ^ 14) } i c).clearStd i (s.logical c) true

/-! ### Firings -/

/-- The unit at a firing start (R175). -/
def startUnit (e : FiringEntry) (u fsi : Nat) (x : UnitSt) : UnitSt :=
  { fifo := x.fifo, tapDue := x.tapDue, pc := e.entries.getD u 0 % 1024,
    tvec := BitVec.ofNat 32 (e.tvecs.getD u 0) &&& 0x800003FF, ten := BitVec.ofNat 3 (e.tens.getD u 0),
    firing := e.index.val, fsi := fsi, wait := .run }

/-- The budget of a firing: E + d while crossfades run in it, else E + H (R148, R156). -/
def State.budgetOf (s : State) (c : Nat) (e : FiringEntry) (fsi block : Nat) : Nat :=
  let l := (s.fadingIn c fsi block).filter fun x => x.firing == e.index.val
  if l.isEmpty then e.baseLoad + e.headShare else e.baseLoad + (l.map (·.cycles)).sum

/-- Patch changes of a domain that are due take effect, in order (R61, R71), with the stage tables (R288). -/
def State.applyPatches (s : State) (d upto : Nat) : State :=
  let due := sortPatches (s.mix.patchChanges.filter fun p => p.domain == d && decide (p.target < upto))
  if due.isEmpty then s
  else
    ((s.modMix fun m => { m with patchChanges := m.patchChanges.filter fun p => !(p.domain == d && decide (p.target < upto)) }).each
      due fun p t =>
        let old := Tab.get {} t.mix.patch p.dst
        let new : PatchSt := { source := p.source, looped := p.looped, old := old.source, oldLooped := old.looped,
                               start := p.target, len := p.len, eqPower := p.eqPower }
        (t.modMix fun m => { m with patch := Tab.put {} m.patch p.dst new }).tableDest p.dst d)

/-- Program swaps of a domain that are due: the unit runs the named image from then on, at zero state unless its images declare
themselves state-compatible (R104, R347). -/
def State.applySwaps (s : State) (d upto : Nat) : State :=
  let due := s.mix.swaps.filter fun w => w.domain == d && decide (w.target < upto)
  if due.isEmpty then s
  else
    (s.modMix fun m => { m with swaps := m.swaps.filter fun w => !(w.domain == d && decide (w.target < upto)) }).each due fun w t =>
      let c := t.physical w.cluster
      let u := 8 * c + w.unit
      let compat := match (t.domImage d).bind fun i => i.clusters.find? (fun e => e.cluster.val == w.cluster) with
        | some e => e.compat
        | none => false
      let t1 := t.modCluster c fun x => { x with program := Tab.put 0 x.program w.unit w.digest }
      if compat then t1 else { t1 with lmem := clearRange t1.lmem (u * 2 ^ 16) ((u + 1) * 2 ^ 16) }

/-- The handling of a block begins (R60): items that come later are applied to a later block; crossfades that ended before
the block are gone (R361). -/
def State.beginBlock (s : State) (d fsi block : Nat) : State :=
  let s1 := ((s.modDom d fun x => { x with begun := max x.begun (fsi + block) }).applyPatches d (fsi + block)).applySwaps d (fsi + block)
  s1.modMix fun m => { m with fades := m.fades.filter fun x => !(x.domain == d && decide (x.start + x.len ≤ fsi)) }

/-- The parameter-sequencer part of a firing start (R297): the work of the block in its first firing. -/
def State.firingSequencer (s : State) (c fsi block : Nat) (writes : Bool) : State :=
  if (s.cluster c).seqNext ≤ fsi then s.sequencerPhase c fsi block writes else s

/-- The load phase of a cluster whose programs a switch has changed (R153). -/
def State.loadPhase (s : State) (i : SchedImage) (c d fsi : Nat) : State :=
  if s.sched.toLoad.contains c then
    let compat := match i.clusters.find? (fun e => e.cluster.val == s.logical c) with | some e => e.compat | none => false
    let s1 := s.loadCluster i c
    let s2 := if compat then s1 else s1.zeroCluster i c
    ((s2.tables i d).modCluster c fun x => { x with lastSample := [], rampUntil := fsi + s.samplesMs d 5 }).modSched fun q =>
      { q with toLoad := q.toLoad.filter (· ≠ c) }
  else s

/-- R25, R30, R175, R275, R297–R303, R153, R156, R159, R316–R322: a firing starts, with its region's clock running and its
cluster awake; the window of a quarantined cluster's firing brings exact zero to its destinations instead. -/
def execFiringStart (c : Fin 64) (f : Fin 4) (codeOk : Bool) (corr : Nat) (bad : List Nat) (s : State) : Out :=
  match s.imageAt c.val with
  | none => .next s
  | some (i, d) =>
    match (firingsOf i (s.logical c.val)).find? (fun e => e.index == f) with
    | none => .next s
    | some e =>
      let b := (s.dom d).block
      let writes := s.executes c.val
      let awake := s.bit (Reg.FABRIC_RG_CLK_RUNNING (c.val / 8)) && !(s.cluster c.val).retention
      if (s.cluster c.val).firing.isSome || s.firingsOff d || decide ((s.dom d).si < b) || (writes && !awake) then .next s
      else
        let fsi := (s.dom d).si - b
        let s1 := (s.endClockStart (c.val / 8)).beginBlock d fsi b
        let s2 := (s1.firingSequencer c.val fsi b writes).retirePours
        if !writes then .next (s2.zeroOutputs c.val e b fsi)
        else
          let s3 := s2.loadPhase i c.val d fsi
          let s4 := s3.modCluster c.val fun x =>
            { x with firing := some { entry := e, fsi := fsi, domain := d, budget := s3.budgetOf c.val e fsi b } }
          if !codeOk || (s4.cluster c.val).loaded != imagesOf i (s4.logical c.val) then .next (s4.cut c.val 3)
          else
            let s5 := s4.each (List.range 8) fun u t => t.modUnit (8 * c.val + u) (startUnit e u fsi)
            .next (match e.taps with
              | some l => s5.startTaps i (c.val / 8) fsi b l corr bad
              | none => s5)

/-- The gain of an output that ramps up from zero over the Mute-class default and reaches 1 with the sample before `until`
(R92, R94, R153, R164). -/
def rampGain (until_ len si : Nat) : Word :=
  shapeOut 2 ({ target := until_ - len, len := len, shape := 2, v0 := mutedLog, v1 := 0,
                step := stepOf mutedLog 0 len : Change }.x si)

/-- The block of one output destination under a start-up ramp, and its last sample kept (R153, R158, R164). -/
def State.closeOutput (s : State) (c d b fsi : Nat) (o : OutDest) : State :=
  let len := s.samplesMs d 5
  let until_ := (s.cluster c).rampUntil
  let s1 := if until_ ≤ fsi then s
    else s.writeOut c b fsi o fun n =>
      let w := s.readOut c b fsi o n
      if fsi + n < until_ then (Fp.mul w (rampGain until_ len (fsi + n))).1 else w
  s1.modCluster c fun x => { x with lastSample := Tab.put 0 x.lastSample o.key (s1.readOut c b fsi o (b - 1)) }

/-- A destination's block fades to exact zero from its last sample of the block before (R153, R157). -/
def State.fadeOutput (s : State) (c b fsi : Nat) (o : OutDest) : State :=
  s.writeOut c b fsi o (fadeSample b (Tab.get 0 (s.cluster c).lastSample o.key))

/-- Clusters of a domain that leave their programs at a switch (R153): the new schedule gives them other images, or their region
to no domain. -/
def State.leaving (s : State) (old new : SchedImage) (d : Nat) : List Nat :=
  (List.range 64).filter fun c => domainOf old (c / 8) == some d &&
    (imagesOf old (s.logical c) != imagesOf new (s.logical c) || domainOf new (c / 8) != some d)

/-- The block that a cluster's firing handles is the last before its domain's switch, and the cluster leaves its programs there:
its outputs fade (R153). -/
def State.fadesOut (s : State) (c d : Nat) : Bool :=
  match s.active, s.pendingBank.image with
  | some o, some n =>
    s.pendingBank.armed && s.sched.toSwitch.contains d &&
    decide (s.boundaryAt d s.pendingBank.switchSi ≤ (s.dom d).si + (s.dom d).block) && (s.leaving o n d).contains c
  | _, _ => false

/-- The normal end of a cluster's firing after `cyc` cycles (R24, R136, R153, R158, R168). -/
def State.endFiring (s : State) (c : Nat) (f : Firing) (cyc : Nat) : State :=
  let b := (s.dom f.domain).block
  let s1 := (s.clockTo c (max cyc f.entry.seqCycles)).each (List.range 8) fun u t => t.deliverTaps (8 * c + u) (cyc + f.budget)
  let out := s.fadesOut c f.domain
  let s2 := s1.each f.entry.outputs fun o t => if out then t.fadeOutput c b f.fsi o else t.closeOutput c f.domain b f.fsi o
  s2.modCluster c fun y =>
    { y with firing := none, retention := true, cycFrame := y.cycFrame + cyc,
             lastSample := if out then [] else y.lastSample,
             ended := if out then y.ended else f.entry.index.val :: y.ended }

/-- Every unit of a cluster has halted with its shared accesses made, and the cluster DMA has nothing left (R24, R136, R194). -/
def State.drained (s : State) (c : Nat) : Bool :=
  (s.cluster c).dmaQueue.isEmpty && (s.cluster c).dmaRun.isNone &&
  (List.range 8).all fun u => let x := s.unit (8 * c + u); decide (x.wait = .halted) && !x.reading && !x.writing

/-- R24, R136, R156, R168: the firing ends once every unit has halted and the drain is done; one whose cycles, drain included, are
past its budget was cut when the count reached it. -/
def execFiringEnd (c : Fin 64) (s : State) : Out :=
  match (s.cluster c.val).firing with
  | none => .next s
  | some f =>
    if !s.drained c.val then .next s
    else if f.budget < s.cycles c.val then .next (s.cut c.val 1)
    else .next (s.endFiring c.val f (s.cycles c.val))

/-- The count of a firing's cycles, drain included, has reached its budget (R145, R156). -/
def State.budgetSpent (s : State) (c : Nat) : Bool :=
  match (s.cluster c).firing with
  | some f => decide (f.budget ≤ s.cycles c)
  | none => false

/-- R145, R156, cause 1: the firing is cut once the count has reached the budget. -/
def execFiringBudgetExhausted (c : Fin 64) (s : State) : Out :=
  .next (if s.budgetSpent c.val then s.cut c.val 1 else s)

/-- R156, cause 2: the execution phase has not ended by its last tick; a budget that is spent as well records BUDGET. -/
def execExecutionDeadline (c : Fin 64) (s : State) : Out := .next (s.cut c.val (if s.budgetSpent c.val then 1 else 2))

/-! ### Schedule switches -/

/-- Clusters of a domain whose program images differ between two schedules (R153). -/
def State.changedClusters (s : State) (old new : Option SchedImage) (d : Nat) : List Nat :=
  (List.range 64).filter fun c =>
    match new with
    | none => false
    | some n => decide (domainOf n (c / 8) = some d) &&
        (match old with
         | some o => imagesOf o (s.logical c) != imagesOf n (s.logical c)
         | none => !(imagesOf n (s.logical c)).isEmpty)

/-- The fade of a cluster that left its programs at a switch armed too late for its last firing: the destinations that no firing
of the new schedule writes fade in the block after (R151, R153; log entry 125). -/
def State.fadeOld (s : State) (old : Option SchedImage) (new : SchedImage) (c d : Nat) : State :=
  match old with
  | none => s
  | some o =>
    let b := (s.dom d).block
    let fed := (new.firings.flatMap (·.outputs)).map (·.key)
    s.each (((firingsOf o (s.logical c)).flatMap (·.outputs)).filter fun x =>
        !fed.contains x.key && Tab.get 0 (s.cluster c).lastSample x.key != 0) fun x t =>
      t.fadeOutput c b ((s.dom d).si - b) x

/-- A strip that first exists in an admitted layout takes its chain order from ENGINE parameter 0, unless the restored settings give
it one, and keeps it when it leaves and returns (R836, R839). -/
def State.newStrips (s : State) (new : SchedImage) : State :=
  let order := s.param (mkHandle 0x0B 0 0)
  s.each ((new.layout.filter fun p => p.cls == 1).flatMap fun p => (List.range p.count).map (p.first + ·)) fun n t =>
    let h := mkHandle 1 n 131
    if (Tab.get none t.mix.params h).isNone then
      t.modMix fun m => { m with params := Tab.put none m.params h (some order) }
    else t

/-- The servo program of a schedule in the four servo units (R648). -/
def State.loadServos (s : State) (i : SchedImage) : State :=
  match i.servoProg with
  | none => (s.put Reg.SURF_SERVO_STATUS_RUNNING 0).each (List.range 4) fun k t => t.modUnit (512 + k) fun x => { x with wait := .halted }
  | some dg => (s.put Reg.SURF_SERVO_STATUS_RUNNING 15).each (List.range 4) fun k t => t.loadUnit (512 + k) dg

/-! ### Re-admission (R162–R164) -/

/-- The registers of a cluster that re-admission clears (R169, R218, R285, R323). -/
def readmitRegs (c : Nat) : List Fld :=
  [Reg.FABRIC_CL_CUT_CAUSE c, Reg.FABRIC_CL_CUT_FIRING c, Reg.FABRIC_CL_CUT_PAIR_FADE c, Reg.FABRIC_CL_CUT_WLOST_ANY c,
   Reg.FABRIC_CL_CUT_EXEC c, Reg.FABRIC_CL_CUT_SI_SI c, Reg.FABRIC_CL_CYC_HWM_CYCLES c, Reg.FABRIC_CL_WLOST_WLOST c,
   Reg.FABRIC_CL_WLOST_RLOST c, Reg.FABRIC_CL_WLOST_ADDR_ADDR c, Reg.FABRIC_CL_WLOST_ADDR_REQ c,
   Reg.FABRIC_CL_WLOST_ADDR_VALID c, Reg.FABRIC_CL_WLOST_CNT_WCOUNT c, Reg.FABRIC_CL_WLOST_CNT_RCOUNT c,
   Reg.FABRIC_CL_SEQ_HWM c, Reg.FABRIC_CL_GLAZE_UNSTABLE c, Reg.FABRIC_CL_GLAZE_WAITED c, Reg.FABRIC_CL_GLAZE_UNSTABLE_CNT c,
   Reg.FABRIC_CL_DMA_DMA_ERR c, Reg.FABRIC_CL_DMA_UNIT c, Reg.FABRIC_CL_DMA_CODE c] ++
  ((List.range 8).map fun u =>
    [Reg.FABRIC_UN_TRAP_LAST_CAUSE c u, Reg.FABRIC_UN_TRAP_STOPPED c u, Reg.FABRIC_UN_TRAP_DOUBLE c u,
     Reg.FABRIC_UN_TRAP_COUNT c u, Reg.FABRIC_UN_TPC_TPC c u, Reg.FABRIC_UN_FLAGS_IFLAGS c u,
     Reg.FABRIC_UN_FLAGS_FFLAGS c u]).flatten

/-- R164: one cluster is reloaded, cleared and released. Its outputs ramp from zero from the boundary's SI on: the block before it, which
the frame handles, stays zero (DEDUCED, log entry 145). -/
def State.readmitCluster (s : State) (c : Nat) : State :=
  match s.imageAt c with
  | none => s
  | some (i, d) =>
    let s1 := (((s.loadCluster i c).clearMemories i c).clearStd i (s.logical c) false).tables i d
    let s2 := (s1.clrMask Reg.SCHED_QUAR_QUAR c).clear (readmitRegs c)
    s2.modCluster c fun x =>
      { x with lastSample := [], zeroing := false, owed := [], seqOut := [], rampUntil := (s.dom d).si + s.samplesMs d 5 }

/-- R162, R164: at a boundary of a domain the quarantined clusters named for it at or before that SI are re-admitted; the
command completes once all it names have been. -/
def execReadmission (d : Fin 3) (s : State) : Out :=
  let due (r : Readmit) : List Nat :=
    r.clusters.filter fun c => decide (s.clusterDomain c = d.val) && decide (s.siTo d.val r.target ≤ (s.dom d.val).si)
  let s1 := s.each s.sched.readmits fun r t => t.each (due r) fun c u => u.readmitCluster c
  let rest := s.sched.readmits.map fun r => { r with clusters := r.clusters.filter fun c => !(due r).contains c }
  let fin (r : Readmit) : Bool := r.clusters.isEmpty && r.servos.isEmpty
  let s2 := s1.modSched fun q => { q with readmits := rest.filter fun r => !fin r }
  .next (s2.each (rest.filter fin) fun r t =>
    t.finish r.hdr 0x0602 (if r.late then .late else .ok) 0 (s.toP d.val (s.dom d.val).si) 0)

end Sys2Proof.Machine
end

