-- ==== Sys2Proof/Machine/Sig.lean ====
section
/-! DEFINITION. The checks of a signature block (R736–R740). -/

namespace Sys2Proof.Machine

/-- Life-cycle state OWNED (R728). -/
def State.owned (s : State) : Bool := decide (s.get Reg.TRUST_STATE_LCS = 3)

/-- The counter of a KIND (R739). -/
def counterOf (kind : Nat) : Option Nat :=
  match kind with
  | 8 => some 0 | 5 => some 1 | 6 => some 2 | 1 => some 3 | 2 => some 3 | 4 => some 3 | 7 => some 4 | _ => none

/-- The signer may sign the KIND (R737); a life-cycle object is the owner's in OWNED and Jarralia's elsewhere (R729). -/
def State.signerOk (s : State) (b : SigBlock) : Bool :=
  match b.kind with
  | 1 | 2 => decide (b.signer ≤ 1)
  | 3 | 4 | 5 | 6 | 7 => b.signer == 1
  | 8 | 10 => b.signer == 0
  | 9 => b.signer == (if s.owned then 1 else 0)
  | _ => false

/-- The life-cycle state permits the KIND (R740). -/
def State.kindOk (s : State) (kind : Nat) : Bool := if s.owned then kind != 10 else [8, 9, 10].contains kind

/-- The first check of R738 that a block fails, for an object that must be of a KIND. -/
def State.checkSig (s : State) (b : SigBlock) (kind : Nat) : Option Status :=
  if !b.formOk || b.kind != kind then some .refused
  else if !s.signerOk b || !b.keyOk then some .notOwner
  else if b.bind ≠ 0 ∧ b.bind ≠ s.trust.identity then some .notOwner
  else if !b.sigOk then some .badSignature
  else if (match counterOf kind with | some c => decide (b.version < s.get (Reg.TRUST_CTR_VALUE c)) | none => false) then
    some .refused
  else if !s.kindOk kind then some .refused
  else none

end Sys2Proof.Machine
end

