-- ==== Sys2Proof/Machine/Pours.lean ====
section
/-! DEFINITION. Scene pours: acceptance, templates, compilation, start, cancel, messages between devices and reports
(R332–R375). -/

namespace Sys2Proof.Machine

/-! ### Items (R336, R342–R345) -/

/-- One value of a run. -/
structure PourItem where
  run : Nat := 0
  handle : Nat := 0
  value : Word := 0
  eqPower : Bool := false
  ramp : Option Nat := none
  deriving DecidableEq, Repr

/-- The items of a list of runs. -/
def runItems : List Run → Nat → List PourItem
  | [], _ => []
  | r :: t, k =>
    ((List.range r.values.length).map fun j => (⟨k, r.handle + j, r.values.getD j 0, r.eqPower, r.ramp⟩ : PourItem)) ++
      runItems t (k + 1)

/-- The layout of a run (R336). -/
def runWf (r : Run) : Bool :=
  decide (1 ≤ r.values.length) && decide (r.values.length ≤ 1024) && decide (handlePar r.handle + r.values.length ≤ 1024)

/-- Byte offset of a run in its list. -/
def runOffset : List Run → Nat → Nat
  | _, 0 => 0
  | [], _ => 0
  | r :: t, n + 1 => 8 + (if r.ramp.isSome then 4 else 0) + 4 * r.values.length + runOffset t n

/-- A number of samples of one rate in samples of another, halves up (R355, R837). -/
def convertLen (n rate other : Nat) : Nat := (2 * n * other + rate) / (2 * rate)

/-- The law of an item (R337). -/
def itemLaw (law : Nat) (x : PourItem) : Bool := if law = 2 then x.eqPower else law == 1

/-- A destination address of a PATCH handle (R66, R87). -/
def patchDst (h : Nat) : Nat := mkAddr (handlePar h) (handleIndex h)

/-- What compilation works out (R341–R346). -/
structure Compiled where
  items : List Planned := []
  patches : List PlannedPatch := []
  /-- Patch items whose length was raised (R93). -/
  raised : Nat := 0
  deriving DecidableEq, Repr

/-- The length of an item before the bounds of R93: END_SI, RAMP, the run's RAMP, the class default (R343), in samples of its
domain. -/
def State.pourLen (s : State) (p : Pour) (d : Nat) (rampable : Bool) (x : PourItem) : Nat :=
  let conv (n : Nat) : Nat := convertLen n (s.dom 0).rate (s.dom d).rate
  let own := conv (x.ramp.getD 0)
  if rampable then
    match p.endSi with
    | some e => conv (e + 1 - p.t)
    | none => if p.ramp ≠ 0 then conv p.ramp else own
  else own

/-- One parameter item: none where the class defines no such parameter and its value is 0; an error refuses the pour. -/
def State.compileParam (s : State) (p : Pour) (x : PourItem) : Except Unit (List Planned) :=
  match s.imageAtTarget p.t with
  | none => .error ()
  | some i =>
    let d := objectDomain i x.handle
    match paramInfo (s.dom d).rate x.handle with
    | none => if x.value = 0 ∧ classCount (handleClass x.handle) ≠ 0 ∧ handleIndex x.handle < classCount (handleClass x.handle) then
        .ok [] else .error ()
    | some info =>
      match s.planItem p.t (.samples (s.pourLen p d (info.cls != .fixed) x)) (itemLaw p.law x) x.handle x.value with
      | .error _ => .error ()
      | .ok q => .ok ((s.withLinks q).filter fun y => decide (s.plannedRaw y.handle (y.target - 1) ≠ y.value))

/-- The domain of a destination under the schedule of a target. -/
def State.patchDomain (s : State) (target dst : Nat) : Nat :=
  match s.imageAtTarget target with | some i => (s.addrDomain i false dst).getD 0 | none => 0

/-- One patch item. -/
def State.compilePatch (s : State) (p : Pour) (x : PourItem) : Except Unit (List (PlannedPatch × Bool)) :=
  if x.value = 0 ∧ !([1, 2, 3, 4, 5, 6, 7, 0x10, 0x14].contains (handlePar x.handle)) then .ok []
  else
    let d := s.patchDomain p.t (patchDst x.handle)
    match s.planPatch p.t (s.pourLen p d false x) (itemLaw p.law x) (patchDst x.handle) x.value.toNat with
    | .error _ => .error ()
    | .ok q => .ok (if s.patchAt q.1.dst (q.1.target - 1) = q.1.source then [] else [q])

/-- All items, or the run that holds the first one that refuses the pour (R344). -/
def State.compileItems (s : State) (p : Pour) : List PourItem → Compiled → Except Nat Compiled
  | [], c => .ok c
  | x :: t, c =>
    if handleClass x.handle = 9 then
      match s.compilePatch p x with
      | .error _ => .error x.run
      | .ok l => s.compileItems p t { c with patches := c.patches ++ l.map (·.1), raised := c.raised + (l.filter (·.2)).length }
    else
      match s.compileParam p x with
      | .error _ => .error x.run
      | .ok l => s.compileItems p t { c with items := c.items ++ l }

/-- The length of a swap's crossfade in its domain: the run's RAMP, else the class default (R93, R343). -/
def State.swapLen (s : State) (d : Nat) (r : Run) : Option Nat :=
  (s.rampLen d .fixed (convertLen (r.ramp.getD 0) (s.dom 0).rate (s.dom d).rate)).map (·.1)

/-- A program-swap item names an image that the active schedule lists for the cluster and that the unit's program memory holds
(R347). -/
def State.swapOk (s : State) (w : Fin 64 × Fin 8 × Nat) (r : Run) : Bool :=
  match s.active with
  | none => false
  | some i =>
    (imagesOf i w.1.val).contains w.2.2 && (s.cluster (s.physical w.1.val)).loaded.contains w.2.2 &&
    (s.swapLen ((domainOf i (w.1.val / 8)).getD 0) r).isSome

/-- The program swaps of a pour as records, and their crossfades (R102). -/
def State.swapsOf (s : State) (p : Pour) : List (SwapChange × Crossfade) :=
  p.runs.filterMap fun r => r.swap.map fun w =>
    let d := match s.active with | some i => (domainOf i (w.1.val / 8)).getD 0 | none => 0
    let t := s.siTo d p.t
    let x : Crossfade := { object := programKey (8 * w.1.val + w.2.1.val), cluster := w.1.val, domain := d, start := t,
                           len := (s.swapLen d r).getD 0,
                           eqPower := if p.law = 2 then r.eqPower else p.law == 1, pours := [(p.origin, p.tag)] }
    ({ cluster := w.1.val, unit := w.2.1.val, digest := w.2.2, domain := d, target := t, pour := some (p.origin, p.tag) },
     ((s.imageFor d t).bind fun i => x.under i (s.dom d).block).getD x)

/-- The domains that a pour touches (R363). -/
def State.pourDomains (s : State) (p : Pour) : List Nat :=
  let of (x : PourItem) : Nat :=
    if handleClass x.handle = 9 then s.patchDomain p.t (patchDst x.handle)
    else match s.imageAtTarget p.t with | some i => objectDomain i x.handle | none => 0
  let l := ((runItems p.runs 0).map of ++ (s.swapsOf p).map (·.1.domain)).eraseDups
  if l.isEmpty then [0] else l

/-- A pour is in time when no domain it touches has begun the block that contains T (R59, R363). -/
def State.pourLate (s : State) (p : Pour) : Bool := (s.pourDomains p).any fun d => decide (s.siTo d p.t < s.earliest d)

/-- The order of pours at one SI (R358); the items of a pour follow one another from there (R98). -/
def pourOrder (p : Pour) : Nat := (p.issue * 2 ^ 16 + p.origin) * 2 ^ 32

/-- A pour against every check of compilation: the state in which it is armed, or its status and detail word (R342–R347). -/
def State.compile (s : State) (p : Pour) : Except (Status × Nat) (State × Nat) :=
  match p.runs.findIdx? fun r => match r.swap with | some w => !s.swapOk w r | none => !(runWf r) with
  | some k => .error (.refused, runOffset p.runs k)
  | none =>
    match s.compileItems p (runItems p.runs 0) {} with
    | .error k => .error (.refused, runOffset p.runs k)
    | .ok c =>
      let ws := s.swapsOf p
      match s.planOf c.items 0 (pourOrder p) (some (p.origin, p.tag)) [] with
      | .error (st, cl) => .error (st, cl)
      | .ok q =>
        let delayed := (q.items.filter fun x => x.info.cls = .fixed ∧ x.late = true).length + (c.patches.filter (·.late)).length
        match (s.commitPlan q).commitPatches c.patches (pourOrder p) (some (p.origin, p.tag)) [] with
        | .error (st, _) => .error (st, 0)
        | .ok t =>
          let t1 := ((t.modMix fun m => { m with swaps := m.swaps ++ ws.map (·.1) }).addFades (ws.map (·.2))).bumpBy
            Reg.SCHED_RAMP_RAISE_CNT_COUNT c.raised
          if ws.all fun w => t1.fadesOk w.2 then .ok (t1, delayed) else .error (.noHeadroom, 0)

/-! ### Acceptance (R337–R340, R351, R352) -/

/-- The devices a pour addresses. -/
def State.pourDevices (s : State) (r : PourReq) : List Nat :=
  match r.devsel with
  | 0 => [s.devnum]
  | 1 => s.wl.members.map (·.1)
  | _ => r.devs

/-- D of R351 for a device, in ns. -/
def State.pathAllowance (s : State) (dev : Nat) : Nat :=
  if dev = s.devnum then 0
  else if s.route dev < 4 then s.get (Reg.WLP_DELAY_D (s.route dev)) / 16 + 1000
  else s.get Reg.SCHED_POUR_CFG_NET_ALLOW * 1000

/-- The message of a pour (R353). -/
def State.pourMessage (s : State) (p : Pour) : PourMsg :=
  { kind := 1, origin := p.origin, tag := p.tag, issue := p.issue, si := p.t, rate := (s.dom 0).rate, scene := p.scene,
    policy := if p.strict then 2 else 1, law := p.law, endSi := p.endSi, ramp := p.ramp }

/-- What the standby is told of an accepted pour (R772). -/
def State.pourMirror (s : State) (p : Pour) : MirrorCmd := .pour (s.pourMessage p) (if p.scene = 0xFFFF then p.runs else [])

/-- A pour that no message or descriptor refuses is accepted: it waits for its compilation, and its message goes to every
other device it addresses (R338, R351–R353). -/
def State.acceptPour (s : State) (p : Pour) : State :=
  let s1 : State := { s with pours := { s.pours with live := s.pours.live ++ [p], seen := (p.origin, p.tag) :: s.pours.seen } }
  let s2 := s1.countLive
  if p.dryRun then s2
  else if p.origin = s.devnum then
    let others := (p.devs.map (·.dev)).filter (· ≠ s.devnum)
    let s3 := if others.isEmpty then s2 else s2.put Reg.SCHED_POUR_D_D_NS (others.foldl (fun m d => max m (s.pathAllowance d)) 0)
    (s3.each others fun d t => t.sendPour d (s.pourMessage p)).mirrorOut (s.pourMirror p)
  else s2.mirrorOut (s.pourMirror p)

/-- The runs of a request: its list, or the scene of its entry. -/
def State.pourRuns (s : State) (scene : Nat) (runs : List Run) : Option (List Run) :=
  if scene = 0xFFFF then some runs else (Tab.get none s.pours.library scene).map (·.runs)

/-- This engine originates a pour (R337, R338, R352), with the offset of the failing field where it is refused. With TARGET 0 a pour
of this engine alone takes the earliest block there is once it is compiled; one addressed to peers takes the first boundary that the
lead time of R350 and R351 permits, so that all start on one SI (R42, R435; DEDUCED, log entry 131). -/
def State.originate (s : State) (r : PourReq) (tag target : Nat) (hdr : Option CmdHdr) (dry : Bool) : Except (Status × Nat) State :=
  let devs := s.pourDevices r
  let far := devs.any (· ≠ s.devnum)
  let soon := decide (target = 0) && !far
  let d := (devs.filter (· ≠ s.devnum)).foldl (fun m x => max m (s.pathAllowance x)) 0
  let strict := r.policy == 2 || (r.policy == 0 && s.bit Reg.SCHED_POUR_CFG_STRICT)
  let lead := s.samples 0 (4000000 + d) 1000000000
  let b := max 1 (s.dom 0).block
  let t := if target ≠ 0 then target
    else if far then max (s.earliest 0) (ceilDiv ((s.dom 0).si + lead) b * b) else s.earliest 0
  match s.pourRuns r.scene r.runs with
  | none => .error (.refused, 16)
  | some runs =>
    if r.devsel ≠ 0 ∧ s.get Reg.TRUST_STATE_MEMBERS = 0 then .error (.refused, 18)
    else if s.pours.live.any fun p => p.origin == s.devnum && p.tag == tag && !phaseFinal p.phase then .error (.refused, 4)
    else if s.get Reg.PAIR_CFG_EN = 1 ∧ s.get Reg.PAIR_STATUS_ROLE ≠ 1 then .error (.refused, 0)
    else if (match r.endSi with | some e => decide (e < t) | none => false) then .error (.order, 44)
    else if 64 ≤ s.liveCount then .error (.busy, 0)
    else if strict && !soon && decide (t < (s.dom 0).si + lead) then .error (.refused, 8)
    else .ok (s.acceptPour
      { origin := s.devnum, tag := tag, issue := (s.dom 0).si, t := t, soon := soon, scene := r.scene, runs := runs, endSi := r.endSi,
        ramp := r.ramp, law := r.law, strict := strict, dryRun := dry, hdr := hdr, completes := hdr.isSome,
        devs := if dry then [] else devs.map fun x => { dev := x } })

/-- A pour that is refused before it is accepted counts; a template starts none, and a dry run changes nothing (R339, R340, R375;
log entry 158). -/
def State.countRefused (s : State) (counts : Bool) : State := if counts then s.bump Reg.SCHED_POUR_REF_CNT_COUNT else s

/-- R337–R340. -/
def execPour (h : CmdHdr) (r : PourReq) (s : State) : Out :=
  let no (st : Status) (o : Nat) : Out := .next ((s.countRefused (!r.template && !r.dryRun)).refuse h 0x0200 st o 0)
  if !r.reservedOk then no .refused 2
  else if 4095 < r.scene ∧ r.scene ≠ 0xFFFF then no .refused 16
  else if 2 < r.devsel then no .refused 18
  else if 2 < r.law then no .refused 56
  else if 2 < r.policy then no .refused 57
  else if 63 < r.templateNo then no .refused 42
  else if r.devsel = 2 ∧ (r.devs.isEmpty ∨ 256 < r.devs.length) then no .refused 40
  else if r.scene = 0xFFFF ∧ r.devsel ≠ 0 then no .refused 18
  else if r.scene = 0xFFFF ∧ s.windowOk r.listAddr r.listLen false = false then no .windowFault 24
  else if r.devsel = 2 ∧ s.windowOk r.devAddr (2 * r.devs.length) false = false then no .windowFault 32
  else if r.template then
    if s.standby then no .refused 0
    else .next ({ s with pours := { s.pours with templates := Tab.put none s.pours.templates r.templateNo (some (h, r)) } }.ok h 0x0200)
  else
    match s.originate r h.tag h.target (some h) r.dryRun with
    | .error (st, o) => no st o
    | .ok t => .next t

/-- R512, R339: an accepted cue originates the pour of its template; a refusal is its outcome, with the tag SEQ. -/
def State.firePour (s : State) (n tag target : Nat) : State :=
  let no (st : Status) (detail : Nat) : State :=
    if s.standby then s
    else (s.countRefused true).postTo (s.ringOf .other)
      { code := 2, status := st, tag := tag, si := (s.dom 0).si, body := [tag, s.devnum, st.code, 0, 0, detail] } none
  match Tab.get none s.pours.templates n with
  | none => no .refused 16
  | some (_, r) => match s.originate r tag target none false with | .ok t => t | .error e => no e.1 e.2

/-! ### The end of compilation (R340–R348, R363, R364) -/

/-- A pour with TARGET 0 starts with the earliest block; its END_SI stands (R343, R435). -/
def Pour.at_ (p : Pour) (t : Nat) : Pour := { p with t := t }

/-- A pour that is not in time is moved whole to the earliest block (R363). -/
def Pour.moved (p : Pour) (t : Nat) : Pour := { p with t := t, endSi := p.endSi.map fun e => e + (t - p.t), late := true }

/-- The pour reports that it is armed, or the status that refused it, where it came from a peer (R356). -/
def State.reportArmed (s : State) (p : Pour) : State :=
  if p.origin = s.devnum ∨ s.standby then s
  else s.sendPour p.origin { kind := 3, origin := p.origin, tag := p.tag, issue := p.issue, rate := (s.dom 0).rate,
                             pstate := phaseCode .armed }

/-- R341–R348: the pour that has been compiling longest is armed or refused; one that a cancel at or below its start has reached never
applies (R366). -/
def execPourCompileDone (s : State) : Out :=
  match s.pours.live.find? fun p => p.phase == .compiling with
  | none => .next s
  | some p =>
    let e := s.earliest 0
    let isLate := s.pourLate p
    let q := if isLate then (if p.soon then p.at_ e else p.moved e) else p
    match p.cancel.filter fun c => decide (c.1 ≤ q.t) with
    | some (c, hdr, late) =>
      let s1 := (s.modPour p.origin p.tag fun x => { x with cancelled := true, cancel := none }).endPour p .cancelled .aborted 0
      .next (match hdr with | some h => s1.finish h 0x0201 (if late then .late else .ok) 0 c 0 | none => s1)
    | none =>
      if p.dryRun then
        let st := (if q.late && p.strict then (.refused, 0)
          else match s.compile q with | .ok _ => (Status.ok, 0) | .error x => x : Status × Nat)
        let s1 : State := { s with pours := { s.pours with
          live := s.pours.live.filter (fun x => !samePour p.origin p.tag x),
          seen := s.pours.seen.filter (· ≠ (p.origin, p.tag)) } }
        .next (match p.hdr with
          | some h => s1.countLive.finish h 0x0200 st.1 st.2 0 0
          | none => s1.countLive)
      else if q.late && p.strict then .next (s.endPour p .refused .refused 0)
      else
        match s.compile q with
        | .error (st, k) => .next (s.endPour p .refused st k)
        | .ok (t, delayed) =>
          .next ((t.modPour p.origin p.tag fun x =>
            { x with t := q.t, endSi := q.endSi, late := q.late, delayed := delayed, phase := .armed }).reportArmed p)

/-- A cancel at or below an SI waits for the pour (R366). -/
def Pour.cancelledBy (p : Pour) (t : Nat) : Bool := p.cancel.any fun c => decide (c.1 ≤ t)

/-- R361, R363: the block that holds the start is handled; the pour runs, unless a cancel has reached it (R359, R366). -/
def execPourStart (origin : BitVec 16) (tag : BitVec 32) (s : State) : Out :=
  match s.pour origin.toNat tag.toNat with
  | none => .next s
  | some p =>
    if p.phase = .armed ∧ p.t < s.earliest 0 ∧ p.cancelledBy p.t = false then
      let s1 := s.modPour p.origin p.tag fun x => { x with phase := .running, startSi := p.t }
      .next (if p.late || p.delayed != 0 then s1.bump Reg.SCHED_POUR_LATE_CNT_COUNT else s1)
    else .next s

/-! ### Cancels (R365–R368) -/

/-- Nothing of the pour is left to apply. -/
def State.removePour (s : State) (o t : Nat) : State :=
  let s1 := s.modMix fun m =>
    { m with changes := m.changes.filter fun c => !(c.pour == some (o, t) && !c.applied),
             patchChanges := m.patchChanges.filter fun c => !(c.pour == some (o, t)),
             swaps := m.swaps.filter fun c => !(c.pour == some (o, t)),
             fades := m.fades.filterMap fun x =>
               if x.pours.contains (o, t) then
                 (if x.pours.length + x.waiters.length = 1 then none else some { x with pours := x.pours.filter (· ≠ (o, t)) })
               else some x }
  s1

/-- A cancel at or below the start of an armed pour removes its entries and plan before any takes effect (R366). -/
def State.withdraw (s : State) (p : Pour) (c : Nat) : State :=
  if p.phase = .armed ∧ c ≤ p.t then s.removePour p.origin p.tag else s

/-- R365, R368: a cancel on the originator; its message goes to every device the pour addressed. A second cancel of one pour
changes nothing. -/
def execPourCancel (h : CmdHdr) (tag : Nat) (s : State) : Out :=
  if s.standby then .next (s.refuse h 0x0201 .refused 0 0)
  else
    match s.pour s.devnum tag with
    | none =>
      if s.pours.finished.contains (s.devnum, tag) then .next (s.finish h 0x0201 .empty 0 0 0)
      else .next (s.refuse h 0x0201 .refused 16 0)
    | some p =>
      if phaseFinal p.phase || p.cancel.isSome then .next (s.finish h 0x0201 .empty 0 0 0)
      else
        let e := s.earliest 0
        let c := if h.target = 0 ∨ h.target < e then e else h.target
        let late := h.target ≠ 0 ∧ h.target < e
        let s1 := (s.withdraw p c).modPour p.origin p.tag fun x => { x with cancel := some (c, some h, decide late) }
        let m : PourMsg := { kind := 2, origin := p.origin, tag := p.tag, issue := p.issue, si := c, rate := (s.dom 0).rate }
        .next ((s1.each ((p.devs.map (·.dev)).filter (· ≠ s.devnum)) fun d t => t.sendPour d m).mirrorOut (.pour m []))

/-- A ramp is held from an SI on at the value it gives there (R367). -/
def Change.frozen (c : Change) (t : Nat) : Change :=
  if c.applied ∧ c.target ≤ t ∧ t < c.tend then
    { c with v1 := c.x t, len := t + 1 - c.target,
             raw := (match c.shape with
               | 2 => if c.raw.toNat ≤ 1 then c.raw else Fp.log2ToDb (c.x t)
               | 3 => (Fp.exp2 (c.x t)).1
               | _ => c.x t) }
  else c

/-- R366–R368: the cancel of a pour applies once its SI's block is handled, or at once when the pour has not reached its
start. -/
def execPourCancelApply (origin : BitVec 16) (tag : BitVec 32) (s : State) : Out :=
  match s.pour origin.toNat tag.toNat with
  | none => .next s
  | some p =>
    match p.cancel with
    | none => .next s
    | some (c, hdr, late) =>
      let fin (t : State) (st : Status) : State :=
        match hdr with | some h => t.finish h 0x0201 (if late then .late else st) 0 c 0 | none => t
      match p.phase with
      | .compiling => .next s
      | .armed =>
        if c ≤ p.t then
          .next (fin (((s.removePour p.origin p.tag).modPour p.origin p.tag fun x => { x with cancelled := true, cancel := none }).endPour
            p .cancelled .aborted 0) .ok)
        else .next s
      | .running =>
        if c < s.earliest 0 then
          let d (x : Change) : Nat := s.siTo (s.handleDomain x.handle) c
          let s1 := s.modMix fun m => { m with changes := m.changes.map (fun x =>
            if x.pour == some (p.origin, p.tag) then x.frozen (d x) else x) }
          .next (fin ((s1.modPour p.origin p.tag fun x => { x with cancel := none }).endPour p .partly .partly 0) .ok)
        else .next s
      | _ => .next (fin (s.modPour p.origin p.tag fun x => { x with cancel := none }) .empty)

/-! ### Messages (R353–R356, R370) -/

/-- A REPORT to another device without a pour here. -/
def State.answer (s : State) (m : PourMsg) (st : Status) : State :=
  s.sendPour m.origin { kind := 3, origin := m.origin, tag := m.tag, issue := m.issue, rate := (s.dom 0).rate, status := st,
                        pstate := phaseCode .refused }

/-- An SI of another device in this engine's domain P (R355). -/
def State.fromPeer (s : State) (si rate : Nat) : Nat := if rate = 0 then si else si * (s.dom 0).rate / rate

/-- The pour a message asks for (R353, R355, R357). -/
def State.peerPour (s : State) (m : PourMsg) (runs : List Run) : Pour :=
  { origin := m.origin, tag := m.tag, issue := m.issue, t := s.fromPeer m.si m.rate, scene := m.scene, runs := runs,
    endSi := m.endSi.map fun e => s.fromPeer e m.rate, ramp := convertLen m.ramp (max 1 m.rate) (s.dom 0).rate, law := m.law,
    strict := m.policy == 2 || s.bit Reg.SCHED_POUR_CFG_STRICT }

/-- R354–R356: a pour or cancel message. `authOk`: it came over an authenticated port or secure channel. -/
def execPourMessageReceived (m : PourMsg) (authOk : Bool) (s : State) : Out :=
  if !authOk then .next s
  else if (Tab.get 0 s.wl.members m.origin) = 0 then .next ((s.countRefused (m.kind == 1)).answer m .notOwner)
  else if m.kind = 1 then
    if s.pours.seen.contains (m.origin, m.tag) then .next s
    else
      let seen (t : State) : State := { t with pours := { t.pours with seen := (m.origin, m.tag) :: t.pours.seen } }
      match Tab.get none s.pours.library m.scene with
      | none => .next ((seen (s.countRefused true)).answer m .refused)
      | some sc =>
        if 64 ≤ s.liveCount then .next ((seen (s.countRefused true)).answer m .busy)
        else .next (s.acceptPour (s.peerPour m sc.runs))
  else if m.kind = 2 then
    match s.pour m.origin m.tag with
    | some p =>
      let e := s.earliest 0
      let c := s.fromPeer m.si m.rate
      if phaseFinal p.phase || p.cancel.isSome then .next s
      else
        .next (((s.withdraw p (max c e)).modPour p.origin p.tag fun x => { x with cancel := some (max c e, none, decide (c < e)) }).mirrorOut
          (.pour { m with si := max c e, rate := (s.dom 0).rate } []))
    | none => .next (if s.pours.live.any fun p => p.tag == m.tag then s.answer m .refused else s)
  else .next s

/-- The STATUS codes a final report may show (R370). -/
def execPourReportMessage (dev : BitVec 16) (m : PourMsg) (authOk : Bool) (s : State) : Out :=
  if !authOk ∨ m.kind ≠ 3 ∨ m.origin ≠ s.devnum then .next s
  else
    match s.pour m.origin m.tag with
    | none => .next s
    | some p =>
      match p.devs.find? fun d => d.dev == dev.toNat with
      | none => .next s
      | some d =>
        let s1 := s.modPour p.origin p.tag fun x =>
          { x with devs := x.devs.map fun y => if y.dev = dev.toNat then { y with heard := true } else y }
        if m.pstate < 3 ∨ d.posted.isSome then .next s1
        else
          let aborted := m.pstate = 4
          .next (s1.pourReport p dev.toNat (if aborted then .aborted else m.status) (if aborted then 2 else 0)
            (if m.si = 0 then 0 else s.fromPeer m.si m.rate) 0 (m.si != 0))

/-- R356: over the network, until the first REPORT or T. -/
def execPourMessageResend (tag : BitVec 32) (dev : BitVec 16) (s : State) : Out :=
  match s.pour s.devnum tag.toNat with
  | none => .next s
  | some p =>
    if s.route dev.toNat = 4 ∧ (s.dom 0).si ≤ p.t ∧ p.devs.any (fun d => d.dev == dev.toNat && !d.heard) = true then
      .next (s.sendPour dev.toNat (s.pourMessage p))
    else .next s

/-- R370: the originator stops waiting for a device. -/
def execPourReportTimeout (tag : BitVec 32) (dev : BitVec 16) (s : State) : Out :=
  match s.pour s.devnum tag.toNat with
  | none => .next s
  | some p =>
    if p.devs.any fun d => d.dev == dev.toNat && d.posted.isNone && d.dev != s.devnum then
      .next (s.pourReport p dev.toNat .aborted 1 0 0 false)
    else .next s

end Sys2Proof.Machine
end

