-- ==== Sys2Proof/Machine/Wamund.lean ====
section
/-! DEFINITION. The Wamund link: bring-up, cells, reliability, routing, the TIME channel, audio bundles and the NET_WL_*
commands (R523–R562). -/

namespace Sys2Proof.Machine

/-! ### Bring-up (R525–R527, R536, R537) -/

/-- States of a port (R526, R562). -/
def wlDown : Nat := 0
def wlTrain : Nat := 1
def wlAlign : Nat := 2
def wlAuth : Nat := 3
def wlRefused : Nat := 5

/-- Credits of the virtual channels at UP (R534). -/
def vcCredits : Tab Nat := [(0, 4), (1, 32), (2, 128), (3, 64)]

/-- A DOWN port with EN and an accepted module starts to train. -/
def State.wlBringUp (s : State) (p : Nat) : State :=
  if s.get (Reg.WLP_STATUS_STATE p) = wlDown ∧ s.bit (Reg.WLP_CTL_EN p) = true ∧ s.bit (Reg.WLP_STATUS_MOD_OK p) = true then
    s.put (Reg.WLP_STATUS_STATE p) wlTrain
  else s

/-- The WAMUND candidates of a port are disqualified (R547, R558). -/
def State.dropWlTime (s : State) (p : Nat) : State :=
  s.each (List.range 3) fun n t => t.each (List.range 8) fun k u =>
    if u.get (Reg.CLK_MPLL_CAND_SRC n k) = 5 ∧ u.get (Reg.CLK_MPLL_CAND_SEL n k) = p then u.disqualify n k else u

/-- A NETx link of this engine is up. -/
def State.netReaches (s : State) : Bool := (List.range 2).any fun x => s.bit (Reg.NET_STATUS_LINK x)

/-- A port changes to DOWN from another state than UP, with its event (R526, R527). -/
def State.wlToDown (s : State) (p : Nat) : State :=
  if s.get (Reg.WLP_STATUS_STATE p) = wlDown then s
  else (s.put (Reg.WLP_STATUS_STATE p) wlDown).postNow .net (some 43) 0x0110 [p, 0, 0]

/-- A relayed cell has left the buffer of the port it came in on, which owes its credit (R534). -/
def State.freeHeld (s : State) (c : Cell) : State :=
  match c.held with
  | some q => s.modWl q fun y => { y with creditOwed := Tab.upd 0 y.creditOwed c.vc (· + 1) }
  | none => s

/-- The cells ready on a port are gone: those of other ports leave their buffers. -/
def State.freeReady (s : State) (p : Nat) : State :=
  s.each (((s.wlp p).ready.flatMap (·.2)).filter fun c => c.held != some p) fun c t => t.freeHeld c

/-- No cell of another port stands in the buffer of a port that has gone. -/
def State.dropHeld (s : State) (p : Nat) : State :=
  s.each ((List.range 4).filter (· ≠ p)) fun q t => t.modWl q fun y =>
    { y with ready := y.ready.map fun e => (e.1, e.2.map fun c => if c.held = some p then { c with held := none } else c) }

/-- A port leaves UP (R527, R558): keys and cells are gone, audio stops, own CTRL messages take the network if it reaches,
and BULK transfers that lose the port fail. -/
def State.wlLeaveUp (s : State) (p : Nat) : State :=
  if s.wlUp p then
    let x := s.wlp p
    let peer := s.get (Reg.WLP_PEER_DEVNUM p)
    let own := (x.unacked ++ Tab.get [] x.ready 1).filter fun c => c.vc == 1 && c.src == s.devnum
    let s0 := (s.freeReady p).dropHeld p
    let s1 := (((s0.put (Reg.WLP_STATUS_STATE p) wlDown).set (Reg.WLP_STATUS_DOWN_SEEN p)).put (Reg.WLP_PEER_VALID p) 0).put
      (Reg.WLP_PEER_DEVNUM p) 0
    let rx := x.rx.map fun e => (e.1, e.2.map fun f => { f with part := none })
    let s2 : State := s1.modWl p fun _ => { tx := x.tx, rx := rx }
    let s3 : State := if s.netReaches then
        { s2 with wl := { s2.wl with netOut := s2.wl.netOut ++ own.map fun c => (c.dst, c.payload) } }
      else s2
    let s4 := s3.dropWlTime p
    let lost (w : WlWait) : List Nat :=
      if w.opcode = 0x0886 then w.peers.filter fun d => s.route d == p && !w.answers.any fun a => a.1 == d else []
    let s5 := s4.each s4.wl.waits fun w t => t.each (lost w) fun d u => u.answerWait 0x0886 w.hdr.tag d .aborted
    s5.postNow .net (some 43) 0x0110 [p, 0, peer]
  else s.wlToDown p

/-- R525: a cable assembly or module is read and judged; a refused or absent one keeps the port in DOWN. -/
def execWlModuleInsertion (p : Fin 4) (r : ModuleRead) (s : State) : Out :=
  let slot := 64 + p.val
  if r.present then
    let s1 := (s.judge slot r).set (Reg.WLP_STATUS_MOD_PRESENT p.val)
    let ok := !s1.slotRefused slot
    let s2 := s1.putBit (Reg.WLP_STATUS_MOD_OK p.val) ok
    .next (if ok then s2.wlBringUp p.val else s2.wlLeaveUp p.val)
  else
    let s1 := if s.bit (Reg.SURF_SLOT_PRESENT slot) then s.unseat slot else s
    .next (((s1.put (Reg.WLP_STATUS_MOD_PRESENT p.val) 0).put (Reg.WLP_STATUS_MOD_OK p.val) 0).wlLeaveUp p.val)

/-- R526: a state of bring-up gives way to the next. -/
def State.wlAdvance (s : State) (p a b : Nat) : State :=
  if s.get (Reg.WLP_STATUS_STATE p) = a then s.put (Reg.WLP_STATUS_STATE p) b else s

def execWlTrainDone (p : Fin 4) (s : State) : Out := .next (s.wlAdvance p.val wlTrain wlAlign)
def execWlAlignDone (p : Fin 4) (s : State) : Out := .next (s.wlAdvance p.val wlAlign wlAuth)

/-- The reason of R537 for which an end refuses its peer. -/
def State.authReason (s : State) (r : AuthResult) : Option Nat :=
  let listed := s.wl.members.filter fun e => e.2 == listDigest r.identity
  if !r.chainOk then some 1
  else if !r.sigOk then some 2
  else if !(s.owned && r.peerOwned) then some 3
  else if !r.sameOwner then some 4
  else if listed.isEmpty then some 5
  else if r.peer = s.devnum ∨ listed.any (fun e => e.1 == r.peer) = false then some 6
  else if !r.finishedOk then some 7
  else none

/-- The two keys that AUTH derives (R538): HKDF of a secret and a transcript that the model does not hold, so their values are free.
The end with the lower DEVNUM takes the first for its transmit direction. The FINISHED cell has been DATA cell 0 of each. -/
def State.linkKeys (s : State) (peer : Nat) : WlKey × WlKey :=
  let x (k : Nat) : BitVec 64 := Config.freeValue (s.ctr + k)
  let key (k : Nat) : WlKey :=
    { key := ((x k ++ x (k + 1)) ++ (x (k + 2) ++ x (k + 3))).setWidth 256, prefix_ := (x (k + 4)).setWidth 32, data := 1 }
  if s.devnum < peer then (key 0, key 5) else (key 5, key 0)

/-- The GCM nonce: the prefix, whose top bit is 1 for LINK cells and 0 for DATA cells (DEDUCED, log entry 138), and a 64-bit
counter (R538). -/
def WlKey.nonce (k : WlKey) (link : Bool) (n : Nat) : BitVec 96 :=
  (k.prefix_.setWidth 31 |>.setWidth 32 |>.or (if link then 1#32 <<< 31 else 0#32)) ++ BitVec.ofNat 64 n

/-- The extended SEQ of a DATA cell: the highest number below `next` with that SEQ. -/
def extendedSeq (next seq : Nat) : Nat :=
  next - 1 - (next - 1 + 2 ^ 16 - seq % 2 ^ 16) % 2 ^ 16

/-- R536, R537: the port is UP, the FINISHED cells having been SEQ 0 of each direction, or REFUSED. -/
def execWlAuthDone (p : Fin 4) (r : AuthResult) (s : State) : Out :=
  if s.get (Reg.WLP_STATUS_STATE p.val) ≠ wlAuth then .next s
  else
    match s.authReason r with
    | some k => .next (((s.put (Reg.WLP_STATUS_STATE p.val) wlRefused).set (Reg.WLP_STATUS_AUTH_FAIL p.val)).postNow .net (some 43)
        0x0111 [p.val, k])
    | none =>
      let x := s.wlp p.val
      let ks := s.linkKeys r.peer
      let s1 : State := { s.modWl p.val fun _ =>
        { tx := x.tx, rx := x.rx, txSeq := 1, rxSeq := 1, credits := vcCredits, txKey := some ks.1, rxKey := some ks.2 } with
        ctr := s.ctr + 10 }
      .next ((((s1.put (Reg.WLP_STATUS_STATE p.val) 4).put (Reg.WLP_PEER_DEVNUM p.val) r.peer).set (Reg.WLP_PEER_VALID p.val)).postNow
        .net (some 43) 0x0110 [p.val, 1, r.peer])

/-- R526: TRAIN, ALIGN or AUTH has exceeded its time limit. -/
def execWlStateTimeout (p : Fin 4) (s : State) : Out :=
  let st := s.get (Reg.WLP_STATUS_STATE p.val)
  .next (if st = wlTrain ∨ st = wlAlign ∨ st = wlAuth then s.wlToDown p.val else s)

/-- R526: the port starts again from DOWN, or from REFUSED by way of DOWN. -/
def execWlRestartTimer (p : Fin 4) (s : State) : Out := .next ((if s.get (Reg.WLP_STATUS_STATE p) = wlRefused then s.wlToDown p else s).wlBringUp p.val)

/-- R527. -/
def execWlPortDown (p : Fin 4) (s : State) : Out := .next (if s.wlUp p.val then s.wlLeaveUp p.val else s)

/-- R562: the port trains again. -/
def execWlRetrain (p : Fin 4) (s : State) : Out := s.ifHost <|
  if s.bit (Reg.WLP_CTL_EN p.val) && s.bit (Reg.WLP_STATUS_MOD_OK p.val) then
    .next ((s.wlLeaveUp p.val).put (Reg.WLP_STATUS_STATE p.val) wlTrain)
  else .next s

/-! ### Transmitting (R531–R535) -/

/-- A replay from the oldest unacknowledged cell (R532); a cell replayed 8 times already brings the port down (R527). -/
def State.wlReplay (s : State) (p : Nat) : State :=
  let x := s.wlp p
  if x.unacked.isEmpty then s
  else if 8 ≤ x.replays then s.wlLeaveUp p
  else (s.modWl p fun y => { y with replay := y.unacked, replays := y.replays + 1 }).bump (Reg.WLP_REPLAY_CNT_COUNT p)

def execWlReplayTimeout (p : Fin 4) (s : State) : Out := .next (if s.wlUp p.val then s.wlReplay p.val else s)

/-- A cell carries ACK, NAK and the credits owed (R531). -/
def WlPort.stamped (x : WlPort) (c : Cell) : Cell :=
  { c with ack := x.rxSeq, nak := x.nakOwed, credit := (List.range 4).map fun v => min 255 (Tab.get 0 x.creditOwed v) }

/-- Once it has gone, what it carried is owed no longer. -/
def WlPort.paid (x : WlPort) (c : Cell) : WlPort :=
  { x with nakOwed := false, quiet := 0, sent := some c,
           creditOwed := (List.range 4).foldl (fun t v => Tab.put 0 t v (Tab.get 0 t v - c.credit.getD v 0)) x.creditOwed }

/-- The highest class with a ready cell, credit and room in the replay buffer (R531, R534, R535). -/
def WlPort.nextVc (x : WlPort) : Option Nat :=
  if 64 ≤ x.unacked.length then none
  else (List.range 4).find? fun v => !(Tab.get [] x.ready v).isEmpty && decide (0 < Tab.get 0 x.credits v)

/-- The cell just sent stands as bytes, and takes its nonce: a DATA cell by its extended SEQ, the same at every replay (R532), and a LINK cell by its own
count (R538). -/
def WlPort.counted (x : WlPort) (again : Bool) : WlPort :=
  match x.sent, x.txKey with
  | some c, some k =>
    let x : WlPort := { x with wire := cellBytes c }
    if c.type = 2 then
      let k1 : WlKey := if again then k else { k with data := k.data + 1 }
      { x with txKey := some k1, txNonce := some (k.nonce false (extendedSeq k1.data c.seq)) }
    else { x with txKey := some { k with link := k.link + 1 }, txNonce := some (k.nonce true k.link) }
  | _, _ => x

/-- What a transmitter sends at a cell boundary (R535). -/
def WlPort.send (x : WlPort) : WlPort :=
  match x.replay with
  | c :: t => { x with replay := t, sent := some c, quiet := 0 : WlPort }.counted true
  | [] =>
    match x.nextVc with
    | some v =>
      match Tab.get [] x.ready v with
      | [] => x
      | c :: t =>
        let d := x.stamped { c with seq := x.txSeq, held := none }
        let y := x.paid d
        let z := { y with ready := Tab.put [] y.ready v t, credits := Tab.upd 0 y.credits v (· - 1), txSeq := (y.txSeq + 1) % 2 ^ 16,
                          unacked := y.unacked ++ [d], audioCells := y.audioCells + (if v = 2 then 1 else 0) }
        z.counted false
    | none =>
      if x.nakOwed ∨ 16 ≤ x.quiet then (x.paid (x.stamped { type := 1 })).counted false
      else { x with quiet := x.quiet + 1, sent := none, wire := [] }

/-- The cell that the next sending takes from a ready list. -/
def WlPort.taken (x : WlPort) : Option Cell :=
  if x.replay.isEmpty then x.nextVc.bind fun v => (Tab.get [] x.ready v).head? else none

/-- R531–R535: a relayed cell leaves the buffer of its ingress port as it goes. -/
def execWlCellTx (p : Fin 4) (s : State) : Out :=
  .next (if s.wlUp p.val then
      let t := s.modWl p.val WlPort.send
      match (s.wlp p.val).taken with
      | some c => t.freeHeld c
      | none => t
    else s)

/-! ### The TIME channel (R545–R547) -/

/-- What this engine's MPLL0 follows: its WAMUND port, if one. -/
def State.timePort (s : State) : Option Nat :=
  let k := s.get (Reg.CLK_MPLL_STATE_SEL 0)
  if s.bit (Reg.CLK_MPLL_STATE_SEL_VALID 0) && s.get (Reg.CLK_MPLL_CAND_SRC 0 k) == 5 then some (s.get (Reg.CLK_MPLL_CAND_SEL 0 k))
  else none

/-- The TIME cell of a port (R545). -/
def State.timeCell (s : State) (p markTime gm : Nat) : TimeCell :=
  let x := s.wlp p
  let viaPtp := s.bit (Reg.CLK_MPLL_STATE_SEL_VALID 0) && s.get (Reg.CLK_MPLL_CAND_SRC 0 (s.get (Reg.CLK_MPLL_STATE_SEL 0))) == 1
  let up : Option (Nat × TimeCell) :=
    match s.timePort with
    | some q => (match (s.wlp q).peerTime with | some t => some (q, t.1) | none => none)
    | none => none
  { tseq := x.tseq, prevTx := x.prevTx, echoSeq := x.echoSeq, echoRx := x.echoRx, markSi := (s.dom 0).si, markTime := markTime,
    rate := (s.dom 0).rate, block := (s.dom 0).block, aligned := Nat.testBit (s.get Reg.TIME_STATUS_ALIGNED) 0,
    ptp := (match up with | some u => u.2.ptp | none => viaPtp),
    thops := (match up with | some u => u.2.thops + 1 | none => 0),
    refDev := (match up with | some u => s.get (Reg.WLP_PEER_DEVNUM u.1) | none => s.devnum),
    gm := (match up with | some u => u.2.gm | none => if viaPtp then gm else 0) }

/-- R545: at each whole millisecond of PTP time; `stamp` is the departure of the cell. -/
def execWlTimeCellTx (p : Fin 4) (stamp markTime gm : Nat) (s : State) : Out :=
  if s.wlUp p.val then
    let c : Cell := { vc := 0, dst := s.get (Reg.WLP_PEER_DEVNUM p.val), src := s.devnum, len := 72,
                      payload := .time (s.timeCell p.val markTime gm) }
    .next ((s.queueCell p.val c).modWl p.val fun x => { x with tseq := (x.tseq + 1) % 2 ^ 32, prevTx := stamp })
  else .next s

/-- R546, R547: a received TIME cell. The departure and arrival it completes are those of the cell before it, and of the
cell of this port that it echoes. -/
def State.takeTime (s : State) (p : Nat) (c : TimeCell) (stamp : Nat) : State :=
  let x := s.wlp p
  let whole := x.peerTime.isSome && decide (c.echoRx ≠ 0) && decide (c.tseq = (x.echoSeq + 1) % 2 ^ 32) && decide ((c.echoSeq + 1) % 2 ^ 32 = x.tseq)
  let t1 : Int := x.prevTx
  let t2 : Int := c.echoRx
  let t3 : Int := c.prevTx
  let t4 : Int := x.echoRx
  let asym := signed32 (s.get (Reg.WLP_ASYM_ASYM p))
  let d := ((t4 - t1) - (t3 - t2)) / 2 - asym
  let s1 := if whole then
      (s.put (Reg.WLP_DELAY_D p) (unsigned32 d)).modWl p fun y => { y with theta := ((t2 - t1) + (t3 - t4)) / 2 }
    else s
  let s2 := s1.modWl p fun y => { y with echoSeq := c.tseq, echoRx := stamp, peerTime := some (c, stamp) }
  s2.disqualifyAll fun u n k =>
    u.get (Reg.CLK_MPLL_CAND_SRC n k) == 5 && u.get (Reg.CLK_MPLL_CAND_SEL n k) == p && !u.followsTime n c

/-- R547. -/
def execWlTimeLoss (p : Fin 4) (s : State) : Out :=
  .next ((s.dropWlTime p.val).modWl p.val fun x => { x with peerTime := none })

/-! ### Audio bundles (R548–R553) -/

/-- The cells of a bundle: the header and 48 samples in the first, 56 in each other (R528, R548). -/
def bundleCells (h : BundleHdr) : Nat → Bool → List Word → List Cell
  | 0, _, _ => []
  | n + 1, first, l =>
    let k := if first then 48 else 56
    let rest := l.drop k
    let c : Cell := { vc := 2, first := first, last := rest.isEmpty,
                      len := (if first then 32 else 0) + 4 * (l.take k).length,
                      payload := .audio (if first then some h else none) (l.take k) }
    if rest.isEmpty then [c] else c :: bundleCells h n false rest

/-- The AUDIO ceiling of a port: floor(0.6 × floor(26,630,272 × Tf)) (R551). -/
def State.audioCeiling (s : State) : Nat := 26630272 * (s.dom 0).block / (s.dom 0).rate * 6 / 10

/-- One transmit flow queues the bundle of the block whose emission begins (R552, R544). -/
def State.sendBundle (s : State) (r : FlowRec) : State :=
  let d := s.dom r.domain
  let ws := ((flowAddrs r).map fun a => (List.range d.block).map fun k => s.emitted r.domain a (d.si + k)).flatten
  let h : BundleHdr := { flow := r.flow, channels := r.channels, block := d.block, si := d.si, rate := d.rate }
  let cells := bundleCells h (ws.length + 1) true ws
  let ports := if r.bcast then (List.range 4).filter fun q => Nat.testBit (s.get Reg.WL_BCAST_FWD_LOCAL) q else [r.port]
  s.each (ports.filter s.wlUp) fun q t => t.each cells fun c u =>
    u.queueCell q { c with bcast := r.bcast, dst := if r.bcast then 0 else r.peer, src := s.devnum }

/-- The AUDIO cells of the frame that has ended (R551). -/
def State.countAudio (s : State) (p : Nat) : State :=
  let n := (s.wlp p).audioCells
  let s1 := (s.put (Reg.WLP_AUDIO_LAST_CELLS p) n).modWl p fun x => { x with audioCells := 0 }
  if s.audioCeiling < n then (s1.set (Reg.WLP_STATUS_AUDIO_OVER p)).postNow .net (some 44) 0x0113 [p, n] else s1

/-- R551, R552: every transmit flow of an aligned domain queues its bundle, in ascending FLOW. -/
def execWlBundleTx (d : Fin 3) (s : State) : Out :=
  let s1 := if d.val = 0 then s.each (List.range 4) fun p t => t.countAudio p else s
  if Nat.testBit (s.get Reg.TIME_STATUS_ALIGNED) d.val && s.sending d.val then
    .next (s1.each (List.range 4) fun p t =>
      if t.wlUp p then
        t.each (((t.wlp p).tx.filterMap (·.2)).filter fun r => r.domain == d.val) fun r u => u.sendBundle r
      else t)
  else .next s1

/-- One sample of a received bundle waits for its input block (R553). -/
def State.putRx (s : State) (a si : Nat) (w : Word) : State :=
  s.modMix fun m => { m with rx := Tab.upd [] m.rx a fun t => Tab.put none t si (some w) }

/-- A whole bundle (R553, R561): in time, it is placed at s + Lw; else it is counted. -/
def State.takeBundle (s : State) (p src : Nat) (h : BundleHdr) (ws : List Word) (tail : Bool) : State :=
  match Tab.get none (s.wlp p).rx (src * 256 + h.flow) with
  | none => s.bump (Reg.WLP_BUNDLE_LATE_CNT_COUNT p)
  | some f =>
    let r := f.record
    let d := s.dom (if r.domain = 3 then 0 else r.domain)
    let x := h.si + r.lw
    let inTime := r.domain == 3 || (decide (d.si ≤ x) && !(decide (x < d.si + d.block) && tail))
    if h.rate ≠ r.rate ∨ h.channels ≠ r.channels ∨ inTime = false then
      (s.bump (Reg.WLP_BUNDLE_LATE_CNT_COUNT p)).modWl p fun y =>
        { y with rx := Tab.put none y.rx (src * 256 + h.flow) (some { f with part := none }) }
    else
      let sc := ws.map scrubIn
      let f1 : RxFlow := { f with part := none, lost := false, scrubbed := f.scrubbed + (sc.filter (·.2)).length }
      let s1 := s.modWl p fun y => { y with rx := Tab.put none y.rx (src * 256 + h.flow) (some f1) }
      let s2 := if r.domain = 3 then s1
        else s1.each (List.range r.channels) fun c t => t.each (List.range h.block) fun k u =>
          u.putRx (mkAddr 2 (r.port * 8192 + r.first + c)) (x + k) ((sc.getD (c * h.block + k) (0, false)).1)
      if f.lost then s2.postNow .net (some 44) 0x0112 [p, src, h.flow, 0] else s2

/-- A cell of a bundle is collected. -/
def State.takeAudio (s : State) (p : Nat) (c : Cell) (h : Option BundleHdr) (ws : List Word) (tail : Bool) : State :=
  match h with
  | some b =>
    if c.last then s.takeBundle p c.src b ws tail
    else s.modWl p fun y => { y with rx := y.rx.map fun e =>
      if e.1 = c.src * 256 + b.flow then (e.1, e.2.map fun f => { f with part := some (b, ws) }) else e }
  | none =>
    match (s.wlp p).rx.findSome? fun e => e.2.bind fun f => if e.1 / 256 = c.src then f.part else none with
    | none => if c.last then s.bump (Reg.WLP_BUNDLE_LATE_CNT_COUNT p) else s
    | some (b, l) =>
      if c.last then s.takeBundle p c.src b (l ++ ws) tail
      else s.modWl p fun y => { y with rx := y.rx.map fun e =>
        if e.1 = c.src * 256 + b.flow then (e.1, e.2.map fun f => { f with part := some (b, l ++ ws) }) else e }

/-- R561: no in-time bundle for WL_LOSS.MS; the ASRC channels of a lost input start again (R595). -/
def execWlFlowLoss (p : Fin 4) (src : Nat) (flow : Fin 256) (s : State) : Out :=
  let k := src * 256 + flow.val
  match Tab.get none (s.wlp p.val).rx k with
  | none => .next s
  | some f =>
    if f.lost then .next s
    else
      let s1 := s.modWl p.val fun y => { y with rx := Tab.put none y.rx k (some { f with lost := true }) }
      .next ((s1.each (flowAddrs f.record) fun a t => t.restartSource a).postNow .net (some 44) 0x0112 [p.val, src, flow.val, 1])

/-! ### Delivery and relaying (R539–R544, R555–R557) -/

/-- PARAM_FWD is applied as one PARAM_SET and answered (R556, R354, R355). -/
def State.takeParams (s : State) (m : ParamFwd) : State :=
  if (Tab.get 0 s.wl.members m.origin) = 0 then s
  else
    let r : State × Status :=
      if s.refusesChange ∨ m.reservedOk = false ∨ m.items.length = 0 ∨ 24 < m.items.length then (s, .refused)
      else
        let q := s.paramSet (if m.si = 0 then 0 else s.fromPeer m.si m.rate) m.ramp m.eqPower .inline m.items []
        (q.1, q.2.1)
    r.1.sendCtrl m.origin (.paramAck m.origin m.tag r.2)

/-- A distributed image is verified before it is stored, where program staging has room (log entry 153), and answered (R51, R557). -/
def State.takeImage (s : State) (origin tag : Nat) (i : ProgImage) : State :=
  let r : State × Status :=
    match s.checkSig i.sig (if i.sig.kind = 2 then 2 else 1) with
    | some st => (s, st)
    | none =>
      if !s.stagingFits i.bytes then (s, .busy)
      else (s.modSched fun q => { q with programs := q.programs.filter (fun j => j.digest != i.digest) ++ [i] }, .ok)
  r.1.sendCtrl origin (.imageAnswer origin tag r.2)

/-- A CTRL message for this device from a port or from the network control class (R541, R555). Pour and pair messages act by their own
commands. -/
def State.takeCtrl (s : State) (src : Nat) (m : WlPayload) : State :=
  match m with
  | .paramFwd m => s.takeParams m
  | .paramAck o tag st => if o = s.devnum then s.answerWait 0x0885 tag src st else s
  | .imageAnswer o tag st => if o = s.devnum then s.answerWait 0x0886 tag src st else s
  | .unknown => { s with wl := { s.wl with unknown := s.wl.unknown + 1 } }
  | _ => s

/-- A cell for this device. -/
def State.deliver (s : State) (p : Nat) (c : Cell) (stamp : Nat) (tail : Bool) : State :=
  match c.payload with
  | .time t => s.takeTime p t stamp
  | .audio h ws => s.takeAudio p c h ws tail
  | .image o tag i => s.takeImage o tag i
  | m => s.takeCtrl c.src m

/-- A cell is relayed on a port (R541–R543); it stands in its ingress port's buffer until it goes (R534). -/
def State.relay (s : State) (ingress p : Nat) (c : Cell) : State :=
  if !s.wlUp p then (s.bump (Reg.WLP_ROUTE_DROP_CNT_COUNT ingress)).freeHeld c
  else s.queueCell p { c with hops := c.hops + 1, seq := 0, ack := 0, nak := false, credit := [0, 0, 0, 0] }

/-- The ports on which a broadcast cell goes on; the copy for the last of them holds the buffer (log entry 160). -/
def State.relayAll (s : State) (ingress : Nat) (c : Cell) : List Nat → State
  | [] => s.freeHeld c
  | [q] => s.relay ingress q c
  | q :: l => State.relayAll (s.relay ingress q { c with held := none }) ingress c l

/-- An accepted DATA cell is routed (R539–R544); one that is not relayed leaves its buffer at once (R534). -/
def State.routeCell (s : State) (p : Nat) (c0 : Cell) (stamp : Nat) (tail : Bool) : State :=
  let c : Cell := { c0 with held := some p }
  if c.bcast then
    (s.deliver p c stamp tail).relayAll p c (if 16 ≤ c.hops then []
      else (List.range 4).filter fun q => Nat.testBit (s.get Reg.WL_BCAST_FWD_FROM_WLk) (4 * p + q))
  else if c.payload != .finished && s.route c.src != p then (s.bump (Reg.WLP_SRC_DROP_CNT_COUNT p)).freeHeld c
  else
    let e := s.route c.dst
    if e = 5 then (s.deliver p c stamp tail).freeHeld c
    else if 16 ≤ c.hops then (s.bump (Reg.WLP_TTL_DROP_CNT_COUNT p)).freeHeld c
    else if e < 4 then s.relay p e c
    else (s.bump (Reg.WLP_ROUTE_DROP_CNT_COUNT p)).freeHeld c

/-- A DATA cell that is not accepted (R532): it is asked for again; `free`: the last NAK is 1 µs old or more. -/
def State.wlMissed (s : State) (p : Nat) (free : Bool) : State :=
  s.modWl p fun x => { x with waiting := true, nakOwed := x.nakOwed || free }

/-- Cells before the peer's ACK leave the replay buffer, and credits come back (R531, R534). -/
def State.wlAcked (s : State) (p : Nat) (c : Cell) : State :=
  s.modWl p fun x =>
    let passed (d : Cell) : Bool := decide (0 < (c.ack + 2 ^ 16 - d.seq) % 2 ^ 16) && decide ((c.ack + 2 ^ 16 - d.seq) % 2 ^ 16 ≤ 64)
    let left := x.unacked.filter fun d => !passed d
    { x with unacked := left, replay := x.replay.filter fun d => !passed d,
             replays := if left.length < x.unacked.length then 0 else x.replays,
             credits := (List.range 4).foldl (fun t v => Tab.put 0 t v (Tab.get 0 t v + c.credit.getD v 0)) x.credits }

/-- An accepted cell has its number in the receiver's count (R538). -/
def WlPort.heard (x : WlPort) (c : Cell) : WlPort :=
  match x.rxKey with
  | none => x
  | some k =>
    if c.type = 2 then { x with rxKey := some { k with data := k.data + 1 }, rxNonce := some (k.nonce false k.data) }
    else { x with rxKey := some { k with link := k.link + 1 }, rxNonce := some (k.nonce true k.link) }

/-- R530–R532, R539–R544: a received cell is checked, accepted in SEQ order, delivered or relayed. -/
def execWlCellReceived (p : Fin 4) (c : Cell) (stamp : Nat) (nakFree tail : Bool) (s : State) : Out :=
  let k := p.val
  if !s.wlUp k then .next s
  else
    let bad := !c.tagOk || !c.reservedOk || decide (224 < c.len) || (c.bcast && c.dst != 0) || !(c.type == 1 || c.type == 2 || c.type == 3)
    let s0 := s.modWl k fun x => { x with tagFails := if c.tagOk then 0 else x.tagFails + 1 }
    if bad then
      let s1 := s0.bump (Reg.WLP_ERR_CNT_COUNT k)
      let s2 := if c.type = 2 then s1.wlMissed k nakFree else s1
      .next (if 16 ≤ (s2.wlp k).tagFails then s2.wlLeaveUp k else s2)
    else
      let s1 := s0.wlAcked k c
      let s2 := if c.nak then s1.wlReplay k else s1
      if c.type ≠ 2 ∨ s2.wlUp k = false then .next (if c.type = 1 ∧ s2.wlUp k = true then s2.modWl k fun x => x.heard c else s2)
      else if c.seq ≠ (s2.wlp k).rxSeq then .next (s2.wlMissed k nakFree)
      else
        let s3 := s2.modWl k fun x =>
          { x.heard c with rxSeq := (x.rxSeq + 1) % 2 ^ 16, waiting := false }
        .next (s3.routeCell k c stamp tail)

/-! ### Commands (R540, R549–R551, R557–R560) -/

def State.transitPlanned (s : State) (p : Nat) : Nat :=
  s.net.pendingOps.foldl (fun n o => match o.2 with | .wlTransit q m => if q = p then m else n | _ => n) (s.get (Reg.WLP_AUDIO_TRANSIT p))

/-- The ranges of R549. -/
def State.flowRange (s : State) (rx : Bool) (r : FlowRec) : Bool :=
  r.reservedOk && decide (r.flow < 256) && decide (r.port < 4) && !(rx && r.bcast) && (!r.bcast || r.peer == 0) &&
  decide (1 ≤ r.channels) && decide (r.channels ≤ 64) && decide (r.first + r.channels ≤ 8192) && decide (r.domain ≤ 3) &&
  (rx || r.domain != 3) && legalRate r.rate &&
  (r.domain == 3 || (decide ((s.dom r.domain).rate = r.rate) && (s.dom r.domain).configured)) &&
  (if rx then decide (r.lw ≤ 16384) else r.lw == 0)

/-- The first rule of R550, R551 or R495 that a record breaks. -/
def State.flowCheck (s : State) (rx : Bool) (r : FlowRec) : Option Status :=
  let key (q : FlowRec) : Nat := if rx then q.peer * 256 + q.flow else q.flow
  let l := s.flowsPlanned rx r.port
  let others := l.filter fun q => key q != key r
  let old := l.find? fun q => key q == key r
  let all := r :: others
  if !s.flowRange rx r then some .refused
  else if others.any fun q => decide (q.first < r.first + r.channels) && decide (r.first < q.first + q.channels) then some .refused
  else if 786432000 < (all.map fun q => q.channels * q.rate).sum ∨ 256 < all.length then some .noHeadroom
  else if !rx && decide (s.audioCeiling < (all.map s.flowCells).sum + s.transitPlanned r.port) then some .noHeadroom
  else if rx && r.domain == 3 && decide (240 < s.poolPlanned none (some (r.port, r.peer * 256 + r.flow)) + r.channels) then some .noHeadroom
  else
    match old with
    | some o =>
      if (o.first ≠ r.first ∨ o.channels ≠ r.channels ∨ o.domain ≠ r.domain) ∧
          (flowAddrs o).any (fun a => if rx then s.patchedSource a else s.patchedDest a) then some .busy else none
    | none => none

def State.flowCmd (s : State) (h : CmdHdr) (op : Nat) (rx : Bool) (addr : Nat) (r : FlowRec) : State :=
  if !s.windowOk addr 32 false then s.refuse h op .windowFault 16 0
  else
    match s.flowCheck rx r with
    | some st => (if r.port < 4 then s.set (Reg.WLP_STATUS_CFG_REJ r.port) else s).refuse h op st 16 0
    | none => s.netLater h (.wlFlow rx r)

def execNetWlFlowTx (h : CmdHdr) (addr : Nat) (r : FlowRec) (s : State) : Out := .next (s.flowCmd h 0x0881 false addr r)
def execNetWlFlowRx (h : CmdHdr) (addr : Nat) (r : FlowRec) (s : State) : Out := .next (s.flowCmd h 0x0882 true addr r)

/-- R540: all entries together; the engine's own entry stays LOCAL. -/
def execNetWlRoute (h : CmdHdr) (addr : Nat) (entries : List (Nat × Nat)) (s : State) : Out :=
  let bad (e : Nat × Nat) : Bool := decide (2 ^ 16 ≤ e.1) || decide (7 < e.2) || e.2 == 6 || (e.1 == s.devnum && e.2 != 5)
  if entries.length = 0 ∨ 4096 < entries.length then .next (s.refuse h 0x0880 .refused 16 0)
  else if !s.windowOk addr (4 * entries.length) false then .next (s.refuse h 0x0880 .windowFault 24 0)
  else
    match entries.findIdx? bad with
    | some k => .next (s.refuse h 0x0880 .refused 24 k)
    | none => .next (s.netLater h (.wlRoute entries))

/-- R559. -/
def execNetWlFlowDel (h : CmdHdr) (dir port src flow : Nat) (s : State) : Out :=
  let key := if dir = 1 then src * 256 + flow else flow
  if 1 < dir ∨ 3 < port ∨ 255 < flow then .next (s.refuse h 0x0883 .refused (if 1 < dir then 16 else if 3 < port then 17 else 20) 0)
  else
    let hit := (s.flowsPlanned (dir == 1) port).find? fun r => (if dir = 1 then r.peer * 256 + r.flow else r.flow) == key
    match hit with
    | some r =>
      if (flowAddrs r).any fun a => if dir = 1 then s.patchedSource a else s.patchedDest a then .next (s.refuse h 0x0883 .busy 20 0)
      else .next (s.netLater h (.wlFlowDel (dir == 1) port key))
    | none => .next (s.netLater h (.wlFlowDel (dir == 1) port key))

/-- R551. -/
def execNetWlTransit (h : CmdHdr) (port cells : Nat) (s : State) : Out :=
  if 3 < port then .next (s.refuse h 0x0884 .refused 16 0)
  else if s.audioCeiling < ((s.flowsPlanned false port).map s.flowCells).sum + cells then
    .next ((s.set (Reg.WLP_STATUS_CFG_REJ port)).refuse h 0x0884 .noHeadroom 20 0)
  else .next (s.netLater h (.wlTransit port cells))

/-- R560: FLAGS bit 1 is EQPOWER, as in PARAM_SET. -/
def execNetWlParam (h : CmdHdr) (dev ramp addr : Nat) (items : List ParamItem) (s : State) : Out :=
  if items.length = 0 ∨ 24 < items.length then .next (s.refuse h 0x0885 .refused 18 0)
  else if !s.windowOk addr (8 * items.length) false then .next (s.refuse h 0x0885 .windowFault 24 0)
  else if s.route dev = 7 then .next (s.refuse h 0x0885 .refused 16 0)
  else .next (s.netLater h (.wlParam dev { origin := s.devnum, tag := h.tag, si := h.target, rate := (s.dom 0).rate, ramp := ramp,
                                           eqPower := Nat.testBit h.flags 1, items := items }))

/-- A NET_WL_DISTRIBUTE without its list descriptor is over (R560). -/
def State.dropDist (s : State) (ring : Nat) : State :=
  match Tab.get none s.wl.dist ring with
  | some d => State.refuse { s with wl := { s.wl with dist := Tab.put none s.wl.dist ring none } } d.1 0x0886 .refused 0 0
  | none => s

/-- R557, R560: the first descriptor waits for its list descriptor, which is the next on the same ring. -/
def execNetWlDistribute (h : CmdHdr) (digest addr : Nat) (peers : List Nat) (s : State) : Out :=
  let ring := h.src.code
  if !Nat.testBit h.flags 0 then
    let s1 := s.dropDist ring
    .next { s1 with wl := { s1.wl with dist := Tab.put none s1.wl.dist ring (some (h, digest)) } }
  else
    match Tab.get none s.wl.dist ring with
    | none => .next (s.refuse h 0x0886 .refused 0 0)
    | some (h0, dg) =>
      let s1 : State := { s with wl := { s.wl with dist := Tab.put none s.wl.dist ring none } }
      if peers.length = 0 ∨ 64 < peers.length then .next ((s1.refuse h 0x0886 .refused 24 0).refuse h0 0x0886 .refused 0 0)
      else if !s.windowOk addr (2 * peers.length) false then
        .next ((s1.refuse h 0x0886 .windowFault 16 0).refuse h0 0x0886 .refused 0 0)
      else if !s.sched.programs.any fun i => i.digest == dg then .next ((s1.ok h 0x0886).refuse h0 0x0886 .refused 16 0)
      else .next ((s1.ok h 0x0886).netLater h0 (.wlDist dg peers))

/-- R560: 200 ms have passed without an answer. -/
def execNetWlParamTimeout (h : CmdHdr) (s : State) : Out :=
  match s.wl.waits.find? fun w => w.opcode == 0x0885 && w.hdr == h with
  | none => .next s
  | some w => .next (State.finish { s with wl := { s.wl with waits := s.wl.waits.filter (· ≠ w) } } h 0x0885 .aborted 0 0 0)

/-- R562. -/
def execWlxCntClr (p : Fin 4) (s : State) : Out := s.ifHost <|
  .next (s.clear [Reg.WLP_REPLAY_CNT_COUNT p.val, Reg.WLP_ERR_CNT_COUNT p.val, Reg.WLP_TTL_DROP_CNT_COUNT p.val,
    Reg.WLP_ROUTE_DROP_CNT_COUNT p.val, Reg.WLP_SRC_DROP_CNT_COUNT p.val, Reg.WLP_BUNDLE_LATE_CNT_COUNT p.val])

end Sys2Proof.Machine
end

