-- ==== Sys2Proof/Machine/Timeline.lean ====
section
/-! DEFINITION. A change of the numbers that a domain gives its samples: every item that the device holds by SI moves
with its sample (R415–R418, R721). -/

namespace Sys2Proof

/-- A table with its keys changed. -/
def Tab.rekey {α : Type} (f : Nat → Nat) (t : Tab α) : Tab α := t.foldl (fun u e => Tab.ins u (f e.1) e.2) []

/-- A table with its values changed; one that becomes the default leaves the table. -/
def Tab.mapVals {α : Type} [DecidableEq α] (d : α) (f : Nat → α → α) (t : Tab α) : Tab α :=
  t.foldl (fun u e => Tab.put d u e.1 (f e.1 e.2)) []

namespace Machine

def Gate.shift (f : Nat → Nat) (g : Gate) : Gate := { g with start := f g.start }

/-- Mixing items of a domain. -/
def State.mapMix (s : State) (d : Nat) (f : Nat → Nat) : State :=
  let mine (a : Nat) : Bool := match s.active with | some i => decide (s.addrDomain i true a = some d) | none => false
  let mineOut (a : Nat) : Bool := match s.active with | some i => decide (s.addrDomain i false a = some d) | none => false
  let b := (s.dom d).block
  s.modMix fun m => { m with
    changes := m.changes.map fun c => if s.clusterDomain c.cluster = d then { c with target := f c.target } else c,
    patchChanges := m.patchChanges.map fun c => if c.domain = d then { c with target := f c.target } else c,
    swaps := m.swaps.map fun c => if c.domain = d then { c with target := f c.target } else c,
    patch := m.patch.map fun e => if mineOut e.1 && e.2.len != 0 then (e.1, { e.2 with start := f e.2.start }) else e,
    fades := m.fades.map fun x => if x.domain = d then { x with start := f x.start } else x,
    std := { m.std with
      delays := m.std.delays.map fun e => if s.handleDomain e.1 = d then (e.1, { e.2 with start := f e.2.start }) else e,
      busy := m.std.busy.map fun e => if s.handleDomain e.1 = d then (e.1, f e.2) else e,
      mutes := m.std.mutes.map fun e => if s.handleDomain (mkHandle 1 (e.1 % 2 ^ 32) 0) = d then
        (e.1, e.2.map fun x => { x with start := f x.start }) else e },
    terms := m.terms.map fun g => if s.handleDomain g.object = d then { g with start := f g.start } else g,
    waits := m.waits.map fun w => if d = 0 then { w with si := f w.si } else w,
    rx := m.rx.map fun e => if mine e.1 then (e.1, Tab.rekey f e.2) else e,
    tx := m.tx.map fun e => if mineOut e.1 then (e.1, Tab.rekey f e.2) else e,
    meters := m.meters.map fun e => (e.1, e.2.map fun x => if x.domain = d then { x with phase := f (x.phase * b) / b } else x) }

/-- Clusters of a domain. -/
def State.mapClusters (s : State) (d : Nat) (f : Nat → Nat) : State :=
  s.each ((List.range 64).filter fun c => s.clusterDomain c == d) fun c t => t.modCluster c fun x =>
    { x with firing := x.firing.map fun g => { g with fsi := f g.fsi },
             rampUntil := if x.rampUntil = 0 then 0 else f x.rampUntil,
             seqNext := if x.seqNext = 0 then 0 else f x.seqNext }

/-- Schedules, pours, takes and plays. -/
def State.mapTimed (s : State) (d : Nat) (f : Nat → Nat) : State :=
  let s1 := if d ≠ 0 then s else
    (s.modSched fun q =>
      { q with bank0 := { q.bank0 with switchSi := f q.bank0.switchSi }, bank1 := { q.bank1 with switchSi := f q.bank1.switchSi },
               readmits := q.readmits.map fun r => { r with target := f r.target } }).put Reg.SCHED_SWITCH_SI_SI
      (f (s.get Reg.SCHED_SWITCH_SI_SI))
  let s2 : State := if d ≠ 0 then s1 else
    { s1 with pours := { s1.pours with live := s1.pours.live.map fun p =>
        { p with t := f p.t, startSi := f p.startSi, endSi := p.endSi.map f, cancel := p.cancel.map fun c => (f c.1, c.2) } } }
  { s2 with store := { s2.store with
      takes := s2.store.takes.map fun t =>
        if t.domain = d && !t.closed then { t with inSi := f t.inSi, outSi := t.outSi.map f } else t,
      plays := s2.store.plays.map fun p => if p.domain = d then
        { p with q := f p.q, stop := p.stop.map f, stops := p.stops.map fun e => (e.1, e.2.1, f e.2.2) } else p } }

/-- Roast profiles, triggers and the records that the clocks keep; the SI fields of what is armed read the moved values (R423). -/
def State.mapClocks (s : State) (d : Nat) (f : Nat → Nat) : State :=
  let s0 := s.modMpll d fun m => { m with opened := m.opened.map f }
  let s1 := if s.get (Reg.CLK_ROAST_STATUS_STATE d) = 1 then
      (s0.modMpll d fun m => { m with startAt := f m.startAt, lateTo := m.lateTo.map f }).put (Reg.CLK_ROAST_START_SI_SI d) (f (s.mpll d).startAt) else s0
  let s2 := s1.each (List.range 8) fun k t =>
    match Tab.get none t.time.trigs k with
    | some (g, si, late) =>
      if g = d then
        ({ t with time := { t.time with trigs := Tab.put none t.time.trigs k (some (g, f si, late.map f)) } }).put (Reg.TIME_TRIG_SI_SI k) (f si)
      else t
    | none => t
  if d ≠ 0 then s2 else
    { s2 with time := { s2.time with mplls := s2.time.mplls.map fun e =>
        (e.1, { e.2 with lockedAt := f e.2.lockedAt, words := e.2.words.map fun w => (f w.1, w.2) }) } }

/-- Gains at the edge of the part, converters and power stages. -/
def State.mapEdge (s : State) (d : Nat) (f : Nat → Nat) : State :=
  let conv (x : ConvCh) : ConvCh := { x with
    settled := x.settled.map f, gate := x.gate.shift f, mute := x.mute.shift f, txGate := x.txGate.shift f, compAt := f x.compAt, path := x.path.map f }
  let h := s.huba
  let h1 : HubaSt := if s.get Reg.HUBA_DOMAIN_CONV_DOM = d then
    { h with adc := Tab.mapVals {} (fun _ => conv) h.adc, dac := Tab.mapVals {} (fun _ => conv) h.dac } else h
  let h2 : HubaSt := if s.get Reg.HUBA_DOMAIN_PS_DOM = d then
    { h1 with ps := Tab.mapVals {} (fun _ x => { x with gate := x.gate.shift f, txGate := x.txGate.shift f, runAt := f x.runAt }) h1.ps,
              foldAt := f h1.foldAt } else h1
  { s with
    huba := h2,
    pwr := { s.pwr with
      afterRamp := s.pwr.afterRamp.map fun x => (x.1.map fun e => if e.1 = d then (d, f e.2) else e, x.2),
      gain := Tab.mapVals {} (fun k g => if k % 4 = d then g.shift f else g) s.pwr.gain,
                        unmute := s.pwr.unmute.map fun e => if e.1 = d then (e.1, e.2.map (Gate.shift f)) else e },
    host := { s.host with hushGain := Tab.mapVals {} (fun k g => if k % 4 = d then g.shift f else g) s.host.hushGain } }

/-- Network, ports and the records kept in domain P. -/
def State.mapRest (s : State) (d : Nat) (f : Nat → Nat) : State :=
  let st (e : Nat × Option StreamSt) : Nat × Option StreamSt :=
    (e.1, e.2.map fun x => if x.record.domain = d then { x with next := f x.next } else x)
  let mine (a : Nat) : Bool := match s.active with | some i => decide (s.addrDomain i true a = some d) | none => false
  let s1 : State := { s with
    net := { s.net with tx := s.net.tx.map st, rx := s.net.rx.map st },
    audio := { s.audio with damaged := s.audio.damaged.map fun e => if mine e.1 then (e.1, f e.2) else e,
                              turns := s.audio.turns.map fun e => if s.groupBoundary (e.1 / 4) = d then (e.1, f e.2) else e } }
  if d ≠ 0 then s1 else
    let late (t : Tab Nat) : Tab Nat := t.map fun e => (e.1, f (e.2 - 1) + 1)
    let p := s1.pair
    { s1 with
      audio := { s1.audio with faultAt := late s1.audio.faultAt },
      huba := { s1.huba with eventAt := late s1.huba.eventAt },
      surf := { s1.surf with eventAt := late s1.surf.eventAt },
      pwr := { s1.pwr with commitAt := s1.pwr.commitAt.map f, appendAt := s1.pwr.appendAt.map f },
      pair := { p with
        sentAt := p.sentAt.map fun e => (e.1, f e.2), ackedAt := f p.ackedAt, heardAt := p.heardAt.map f,
        partnerAt := p.partnerAt.map f, witnessAt := p.witnessAt.map f, listening := p.listening.map f,
        yieldAt := p.yieldAt.map fun y => (f y.1, y.2), resyncAt := f p.resyncAt, linesAt := f p.linesAt,
        replicaAt := f p.replicaAt, firstBad := f p.firstBad, errAt := p.errAt.map f,
        digests := p.digests.map fun g => { g with si := f g.si },
        witness := p.witness.map fun w => { w with renewed := w.renewed.map f } },
      trust := { s1.trust with since := f s1.trust.since, waitTo := f s1.trust.waitTo } }

/-- Every item that the device holds by SI of domain d moves with its sample; SI counter and all. -/
def State.mapSi (s : State) (d : Nat) (f : Nat → Nat) : State :=
  (((((s.mapMix d f).mapClusters d f).mapTimed d f).mapClocks d f).mapEdge d f).mapRest d f |>.modDom d fun x =>
    { x with si := f x.si, begun := f x.begun }

/-- An SI moved by a whole number of samples. -/
def shiftSi (j : Int) (x : Nat) : Nat := (x + j).toNat

/-- The shift of a domain that follows domain P: a multiple of its own block, halves away from zero (R418). -/
def followShift (block rate rateP : Nat) (j : Int) : Int :=
  let den := rateP * block
  let q := (2 * j.natAbs * rate + den) / (2 * den)
  (if j < 0 then -(q : Int) else q) * block

/-- The domains that take domain P's FRAME clock as their reference (R418). -/
def State.followsP (s : State) (d : Nat) : Bool :=
  decide (0 < d) && s.bit (Reg.CLK_MPLL_STATE_SEL_VALID d) &&
  decide (s.get (Reg.CLK_MPLL_CAND_SRC d (s.get (Reg.CLK_MPLL_STATE_SEL d))) = 7) &&
  decide (s.get (Reg.CLK_MPLL_CAND_SEL d (s.get (Reg.CLK_MPLL_STATE_SEL d))) = 0)

/-- R415, R416, R418: network time leads the domain by `delta`, in units of 2^−16 samples; the SI counter takes the
nearest multiple of B, every queued item with it, and a glide removes the rest. -/
def execRenumbering (d : Fin 3) (delta : Int) (s : State) : Out :=
  let x := s.dom d.val
  let (q, r) := splitOffset x.block delta
  let j : Int := q * x.block
  let s1 := s.mapSi d.val (shiftSi j)
  let s2 := if d.val = 0 then
    s1.each ((List.range 3).filter s.followsP) fun k t =>
      t.mapSi k (shiftSi (followShift (s.dom k).block (s.dom k).rate x.rate j)) else s1
  .next (if r = 0 ∨ s.get (Reg.CLK_ROAST_STATUS_STATE d.val) ≠ 0 then s2
    else s2.modMpll d.val fun m => { m with profile := s2.glideFor d.val r, glideNext := true })

end Machine
end Sys2Proof
end

