-- ==== Sys2Proof/Machine/Admission.lean ====
section
/-! DEFINITION. Program and scene images, the admission of a schedule, re-admission requests, changes of range and the
thermal hold (R35, R51, R143–R152, R162, R163, R333, R444, R719–R721). -/

namespace Sys2Proof.Machine

/-- TARGET of an image that is admitted without being armed (R149). -/
def unarmed : Nat := 2 ^ 64 - 1

/-! ### Image transfers (R444) -/

/-- A transfer waits for the buffers of its ring, or its own check fails at an offset of the descriptor; a program or schedule that program
staging has no room for is BUSY (log entry 153). -/
def State.awaitImage (s : State) (h : CmdHdr) (op kind ring entry length : Nat) (kindOk : Bool) : State :=
  if !kindOk then s.refuse h op .refused 16 0
  else if 3 < ring then s.refuse h op .refused 17 0
  else if 4095 < entry then s.refuse h op .refused 18 0
  else if length < 64 ∨ 2 ^ 24 < length then s.refuse h op .refused 20 0
  else if op < 0x0700 ∧ s.stagingFits length = false then s.finish h op .busy 0 0 0
  else s.modHost fun x => { x with transfers := x.transfers ++ [⟨h, op, kind, ring, entry, length, 0⟩] }

def execProgLoad (h : CmdHdr) (kind ring entry length : Nat) (s : State) : Out :=
  .next (s.awaitImage h 0x0500 kind ring entry length (decide (1 ≤ kind ∧ kind ≤ 3) && (kind == 3 || entry == 0)))

/-- R444, R766. -/
def execSchedAdmit (h : CmdHdr) (kind ring length : Nat) (s : State) : Out :=
  .next (if s.standby then s.refuse h 0x0600 .refused 0 0 else s.awaitImage h 0x0600 kind ring 0 length (kind == 0))

/-- R51, R174: a verified program stays in staging under its digest. -/
def State.storeProgram (s : State) (i : ProgImage) : State :=
  s.modSched fun q => { q with programs := q.programs.filter (fun p => p.digest != i.digest) ++ [i] }

/-- What a PROG_LOAD comes to once its image has arrived (R51, R333, R738). -/
def State.programArrived (s : State) (t : Transfer) (x : ImageData) : State :=
  match x with
  | .prog i =>
    if t.kind = 3 then s.refuse t.hdr t.opcode .refused 0 0
    else
      match s.checkSig i.sig t.kind with
      | some st => s.refuse t.hdr t.opcode st 0 0
      | none => (s.storeProgram i).ok t.hdr t.opcode
  | .scene i =>
    if t.kind ≠ 3 then s.refuse t.hdr t.opcode .refused 0 0
    else
      match s.checkSig i.sig 3 with
      | some st => s.refuse t.hdr t.opcode st 0 0
      | none =>
        if 2 ^ 21 < i.bytes ∨ i.formOk = false then s.refuse t.hdr t.opcode .refused 0 0
        else if s.pours.live.any fun p => p.phase == .compiling && p.scene == t.entry then s.refuse t.hdr t.opcode .busy 0 0
        else State.ok { s with pours := { s.pours with library := Tab.put none s.pours.library t.entry (some i) } } t.hdr t.opcode
  | _ => s.refuse t.hdr t.opcode .refused 0 0

/-- A schedule image has arrived: its admission begins (R144, R165). -/
def State.scheduleArrived (s : State) (t : Transfer) (x : ImageData) : State :=
  match x with
  | .sched i => (s.modSched fun q => { q with checking := q.checking ++ [(t.hdr, i)] }).set Reg.SCHED_STATUS_CHECKING
  | _ => s.refuse t.hdr t.opcode .refused 0 0

/-! ### Admission (R140–R152) -/

def shareOf (i : SchedImage) (d : Nat) : Option DomainShare := i.shares.find? fun x => x.domain.val == d

/-- A change of range of a domain (R719): its rate or block differs, or the roast form changes its pull. -/
def rangeChanges (old : Option SchedImage) (i : SchedImage) (roast : Bool) (d : Nat) : Bool :=
  match old.bind (fun o => shareOf o d), shareOf i d with
  | some a, some b => a.rate != b.rate || a.block != b.block || (roast && a.pull != b.pull)
  | _, _ => false

/-- The domains whose range an image changes. -/
def rangeDoms (old : Option SchedImage) (i : SchedImage) (roast : Bool) : List Nat := (List.range 3).filter (rangeChanges old i roast)

/-- R152: a region goes from one domain to another. -/
def movesRegion (old : Option SchedImage) (i : SchedImage) : Bool :=
  match old with
  | none => false
  | some o => (List.range 8).any fun g =>
    match domainOf o g, domainOf i g with
    | some a, some b => a != b
    | _, _ => false

/-- R719: the status of a change of range that is refused. -/
def State.rangeRefused (s : State) (i : SchedImage) (roast : Bool) : Option Status :=
  let ds := rangeDoms s.active i roast
  let small (d : Nat) : Bool :=
    match s.active.bind (fun o => shareOf o d), shareOf i d with
    | some a, some b => frameHz a.rate == frameHz b.rate && decide (b.pull.natAbs * 1000000 ≤ 1953 * 2 ^ 40)
    | _, _ => false
  let busy (d : Nat) : Bool :=
    s.mix.fades.any (fun x => x.domain == d) || s.store.takes.any (fun t => t.domain == d && !t.closed) ||
    s.store.plays.any fun p => p.domain == d
  if roast && (ds.isEmpty || !ds.all small) then some .refused
  else if !ds.isEmpty && (decide (0 < s.liveCount) || ds.any busy) then some .busy
  else none

/-- Domains that a switch concerns. -/
def switchDoms (old : Option SchedImage) (i : SchedImage) : List Nat :=
  (List.range 3).filter fun d => (shareOf i d).isSome || (match old with | some o => (shareOf o d).isSome | none => false)

/-- R150: the share test, made when the domains' boundaries do not fall on one instant. -/
def State.switchSharesOk (s : State) (i : SchedImage) (si : Nat) : Bool :=
  match s.active with
  | none => true
  | some o =>
    let at_ (d : Nat) : Nat × Nat := (s.boundaryAt d si, (s.dom d).rate)
    let l := (switchDoms (some o) i).map at_
    (match l with
     | [] => true
     | x :: rest => rest.all fun y => decide (x.1 * y.2 = y.1 * x.2)) ||
    sharesOk (s.get Reg.SCHED_PBASE_MW) (largerShares o.shares i.shares)

/-- R349: the crossfades of armed and running pours against the pending schedule. -/
def State.poursFit (s : State) : Bool :=
  s.mix.fades.all fun x => x.pours.isEmpty || s.headroomOk s.mix.fades x

/-- The pending image is armed at an SI (R149, R150, R166). -/
def State.armBank (s : State) (si : Nat) (h : CmdHdr) : State :=
  match s.pendingBank.image with
  | none => s
  | some i =>
    let s1 := s.setPendingBank { image := some i, armed := true, switchSi := si, hdr := some h }
    ((s1.modSched fun q => { q with toSwitch := switchDoms s.active i }).set Reg.SCHED_STATUS_PENDING).put Reg.SCHED_SWITCH_SI_SI si

/-- A refusal of check `n` with its element and domain (R143). -/
def State.noHeadroom (s : State) (h : CmdHdr) (op n element domain : Nat) : State :=
  s.finish h op .noHeadroom (n + element * 2 ^ 8 + domain * 2 ^ 24) 0 0

/-- Counters of the anti-rollback values that an admitted schedule advances (R739). -/
def State.advanceCounters (s : State) (i : SchedImage) : State :=
  let vs := i.sig.version :: ((s.sched.programs.filter fun p =>
    i.servoProg == some p.digest || i.clusters.any fun c => c.images.contains p.digest).map (·.sig.version))
  s.each vs fun v t => t.raise (Reg.TRUST_CTR_VALUE 3) v

/-- The image passes: it takes the pending bank, and is armed unless TARGET is all ones (R149, R151). -/
def State.judgeImage (s : State) (h : CmdHdr) (i : SchedImage) : State :=
  let s1 := (s.setPendingBank { image := some i, armed := false, switchSi := 0, hdr := some h }).advanceCounters i
  let s2 := (s1.put Reg.SCHED_STATUS_NONE 0).set Reg.SCHED_SLICE_ST_LOCKED
  if h.target = unarmed then (s2.mirrorOut (.schedule i h.flags unarmed)).ok h 0x0600
  else
    let (si, late) := s.applyAt 0 h.target
    let s3 := s2.armBank si h
    if !s.switchSharesOk i si then s.noHeadroom h 0x0600 1 0 0xFF
    else if !s3.poursFit then s.noHeadroom h 0x0600 0 0 0xFF
    else (s3.mirrorOut (.schedule i h.flags si)).finish h 0x0600 (if late then .late else .ok) 0 si 0

/-- The reference of a domain's MPLL: the selected candidate, else the first one listed, by SRC and SEL (R384; log entry 130). -/
def State.refOf (s : State) (d : Nat) : Option (Nat × Nat) :=
  let at_ (k : Nat) : Nat × Nat := (s.get (Reg.CLK_MPLL_CAND_SRC d k), s.get (Reg.CLK_MPLL_CAND_SEL d k))
  if s.bit (Reg.CLK_MPLL_STATE_SEL_VALID d) then some (at_ (s.get (Reg.CLK_MPLL_STATE_SEL d)))
  else ((List.range 8).map at_).find? fun x => x.1 != 0

/-- R110: a synchronous bridge joins two domains of one rate family and rate ratio 1, 2 or 4, whose MPLLs share one reference, or of
which one takes the other's FRAME clock; its program runs in the destination domain. -/
def State.bridgeOk (s : State) (i : SchedImage) (b : SyncBridge) : Bool :=
  match shareOf i b.src.val, shareOf i b.dst.val with
  | some x, some y =>
    let hi := max x.rate y.rate
    let lo := min x.rate y.rate
    let ra := s.refOf b.src.val
    let rb := s.refOf b.dst.val
    b.src != b.dst && frameHz x.rate == frameHz y.rate && (hi == lo || hi == 2 * lo || hi == 4 * lo) &&
    ((ra.isSome && ra == rb) || ra == some (7, b.dst.val) || rb == some (7, b.src.val)) &&
    domainOf i (b.cluster.val / 8) == some b.dst.val
  | _, _ => false

/-- R35, R110, R143, R152, R719: what refuses an image, in the order of R143, with the detail word. -/
def State.admissionRefused (s : State) (h : CmdHdr) (i : SchedImage) : Option (Status × Nat) :=
  if s.pendingBank.armed then some (.busy, 0)
  else if s.bit Reg.SCHED_STATUS_THERM_HOLD then some (.refused, 0)
  else
    match s.checkSig i.sig 4 with
    | some st => some (st, 0)
    | none =>
      if movesRegion s.active i || !i.bridges.all (s.bridgeOk i) then some (.refused, 0)
      else
        match s.rangeRefused i (h.flags % 2 == 1) with
        | some st => some (st, 0)
        | none => (s.checks i).map fun x => (.noHeadroom, x.1 + x.2.1 * 2 ^ 8 + x.2.2 * 2 ^ 24)

/-- R143, R144: the Ritadom core finishes the oldest admission in progress. -/
def execAdmissionComplete (s : State) : Out :=
  match s.sched.checking with
  | [] => .next s
  | (h, i) :: rest =>
    let s1 := (s.modSched fun q => { q with checking := rest }).putBit Reg.SCHED_STATUS_CHECKING (!rest.isEmpty)
    .next (
      match s1.admissionRefused h i with
      | some (st, detail) => s1.finish h 0x0600 st detail 0 0
      | none => s1.judgeImage h i)

/-- The switch-only form (R149–R151). -/
def execSchedAdmitArm (h : CmdHdr) (s : State) : Out :=
  let k := s.pendingBank
  .next (
    match k.image with
    | none => s.refuse h 0x0601 .refused 0 0
    | some i =>
      if s.standby || h.target == unarmed then s.refuse h 0x0601 .refused 0 0
      else if k.armed then s.refuse h 0x0601 .busy 0 0
      else
        let (si, late) := s.applyAt 0 h.target
        let s1 := s.armBank si { h with flags := (k.hdr.getD {}).flags }
        if !s.switchSharesOk i si then s.noHeadroom h 0x0601 1 0 0xFF
        else if !s1.poursFit then s.noHeadroom h 0x0601 0 0 0xFF
        else (s1.mirrorOut (.arm si)).finish h 0x0601 (if late then .late else .ok) 0 si 0)

/-- R162, R163, R650: an element may be re-admitted: clusters 0–63 and servo units, as 64–67, by their index. -/
def State.readmitOk (s : State) (k : Fin 68) : Bool :=
  if k.val < 64 then
    s.quarantined k.val && !s.bit (Reg.FABRIC_RG_CLK_BYPASS (k.val / 8)) &&
    (match s.active with | some i => !(firingsOf i (s.logical k.val)).isEmpty | none => false)
  else
    Nat.testBit (s.get Reg.SURF_SERVO_STATUS_QUAR) (k.val - 64) &&
    (match s.active with | some i => i.servoProg.isSome | none => false)

/-- The boundary of some element's domain that a target names has passed. -/
def State.readmitLate (s : State) (indices : List (Fin 68)) (target : Nat) : Bool :=
  decide (target ≠ 0) && indices.any fun k =>
    decide (k.val < 64) && (let d := s.clusterDomain k.val
                            decide (s.boundaryAt d target ≤ (s.dom d).si))

/-- Re-admissions wait for their boundaries; a holder mirrors them (R772). -/
def State.readmit (s : State) (h : CmdHdr) (indices : List (Fin 68)) (target : Nat) : State :=
  (s.modSched fun q => { q with readmits := q.readmits ++ [⟨h, (indices.filter (·.val < 64)).map (·.val),
    (indices.filter fun k => decide (64 ≤ k.val)).map (·.val - 64), target, s.readmitLate indices target⟩] }).mirrorOut
      (.readmit indices target)

/-- R35, R162, R163, R650. -/
def execSchedAdmitReadmit (h : CmdHdr) (indices : List (Fin 68)) (s : State) : Out :=
  .next (
    if s.standby || indices.isEmpty then s.refuse h 0x0602 .refused 16 0
    else if s.bit Reg.SCHED_STATUS_THERM_HOLD then s.refuse h 0x0602 .refused 0 0
    else
      match (List.range indices.length).find? fun n => match indices[n]? with | some k => !s.readmitOk k | none => false with
      | some n => s.refuse h 0x0602 .refused 16 n
      | none => s.readmit h indices h.target)

/-! ### Thermal hold, counters and slices -/

/-- A sensor reading in 0.1 °C. -/
def tempOf (w : BitVec 16) : Int := w.toInt

/-- The twelve sensors and the hottest of them as the registers show them (R805). -/
def State.showTemps (s : State) (temps : List (BitVec 16)) : State :=
  let s1 := s.each (List.range 12) fun k t => t.put (Reg.GLOBAL_TEMP_TEMP k) (temps.getD k 0).toNat
  s1.put Reg.GLOBAL_THERM_MAX (temps.foldl (fun m w => if tempOf m < tempOf w then w else m) (temps.getD 0 0)).toNat

/-- The first of the hottest sensors. -/
def hottest (temps : List (BitVec 16)) : Nat :=
  ((List.range 12).find? fun k => temps.all fun w => decide (tempOf w ≤ tempOf (temps.getD k 0))).getD 0

/-- R35: some sensor reads above 100 °C: one THERMAL event. `temps` is what the sensors read. -/
def execThermalHoldEnter (temps : List (BitVec 16)) (s : State) : Out :=
  let l := temps.take 12
  let s1 := s.showTemps l
  .next (if s.bit Reg.SCHED_STATUS_THERM_HOLD || !(l.any fun w => decide (1000 < tempOf w)) then s1
    else (((s1.set Reg.SCHED_STATUS_THERM_HOLD).set Reg.GLOBAL_THERM_HOLD).set Reg.GLOBAL_THERM_HOLD_SEEN).postNow .fault (some 58)
      0x15 [1, hottest l])

/-- R35: every one of the twelve sensors reads 97 °C or below. -/
def execThermalHoldLeave (temps : List (BitVec 16)) (s : State) : Out :=
  let l := temps.take 12
  let s1 := s.showTemps l
  .next (if s.bit Reg.SCHED_STATUS_THERM_HOLD && decide (l.length = 12) && l.all (fun w => decide (tempOf w ≤ 970)) then
    ((s1.put Reg.SCHED_STATUS_THERM_HOLD 0).put Reg.GLOBAL_THERM_HOLD 0).postNow .fault (some 58) 0x15 [0, hottest l]
  else s1)

/-- R166, R331, R375. -/
def execSchedCntClr (s : State) : Out := s.ifHost <|
  .next ((s.clear [Reg.SCHED_CUT_CNT_COUNT, Reg.SCHED_PARAM_CLAMP_CNT_COUNT, Reg.SCHED_RAMP_RAISE_CNT_COUNT,
    Reg.SCHED_DRAM_ECC_CORR, Reg.SCHED_DRAM_ECC_UNCORR, Reg.SCHED_POUR_LATE_CNT_COUNT, Reg.SCHED_POUR_REF_CNT_COUNT,
    Reg.SCHED_POUR_PART_CNT_COUNT]).put Reg.SCHED_POUR_LIVE_HWM (s.get Reg.SCHED_POUR_LIVE_LIVE))

/-- R327: a slice register takes its value while no schedule has been admitted. `reg` is 0–7 for the regions and 8, 9 for
the dies. -/
def execSchedSliceWrite (reg : Fin 10) (value : BitVec 32) (s : State) : Out := s.ifRestored (if reg.val < 8 then 0x5040 + 4 * reg.val else 0x5060 + 4 * (reg.val - 8)) (decide (value.toNat % 64 ≠ 0)) <|
  let v := value.toNat
  let fields := if reg.val < 8 then [v % 4, v / 4 % 4, v / 16 % 4] else [v % 4]
  .next (
    if !s.bit Reg.SCHED_STATUS_NONE || fields.contains 3 then s.set Reg.SCHED_SLICE_ST_REJ
    else if reg.val < 8 then
      ((s.put (Reg.SCHED_SLICE_RG_CL reg.val) (v % 4)).put (Reg.SCHED_SLICE_RG_DLY reg.val) (v / 4 % 4)).put
        (Reg.SCHED_SLICE_RG_UP reg.val) (v / 16 % 4)
    else s.put (Reg.SCHED_SLICE_D_BRIDGE (reg.val - 8)) (v % 4))

end Sys2Proof.Machine
end

