-- ==== Sys2Proof/Machine/Front.lean ====
section
/-! DEFINITION. The command front end: the descriptor's common checks, the rings and doorbell, the urgent window, completions
and events (R426–R439, R448–R462, R472). -/

namespace Sys2Proof.Machine

/-! ### Validation of a descriptor (R434–R437) -/

/-- What the front end knows of an opcode: the flags it defines, whether it is timed, whether the urgent window takes it, and
the payload bytes it defines, as first and last byte. -/
structure OpForm where
  flags : Nat := 0
  timed : Bool := false
  urgent : Bool := false
  used : List (Nat × Nat) := []

/-- The opcodes (R436) with their payloads: none for an undefined one. -/
def opForm (op flags : Nat) : Option OpForm :=
  let indirect := Nat.testBit flags 0
  match op with
  | 0x0100 => some ⟨3, true, !indirect, if indirect then [(16, 21), (24, 31)] else [(16, 21), (24, 63)]⟩
  | 0x0200 => some ⟨3, true, false, [(16, 57)]⟩
  | 0x0201 => some ⟨0, true, true, [(16, 19)]⟩
  | 0x0300 => some ⟨1, true, !indirect, if indirect then [(16, 22), (24, 31)] else [(16, 22), (24, 63)]⟩
  | 0x0400 => some ⟨0, false, false, [(16, 19), (24, 39)]⟩
  | 0x0401 => some ⟨0, false, false, [(16, 16)]⟩
  | 0x0500 => some ⟨0, false, false, [(16, 23)]⟩
  | 0x0600 => some ⟨1, true, false, [(16, 17), (20, 23)]⟩
  | 0x0601 => some ⟨0, true, false, []⟩
  | 0x0602 => some ⟨0, true, false, [(16, 63)]⟩
  | 0x0700 => some ⟨0, false, false, []⟩
  | 0x0701 => some ⟨0, false, false, [(16, 18)]⟩
  | 0x0702 => some ⟨0, false, false, [(16, 29)]⟩
  | 0x0710 => some ⟨0, true, false, [(16, 32), (40, 63)]⟩
  | 0x0711 | 0x0721 => some ⟨0, true, false, [(16, 19)]⟩
  | 0x0720 => some ⟨0, true, false, [(16, 39)]⟩
  | 0x0730 | 0x0731 => some ⟨0, false, false, [(16, 63)]⟩
  | 0x0740 => some ⟨0, false, false, [(16, 19)]⟩
  | 0x0800 | 0x0801 | 0x0804 | 0x0881 | 0x0882 => some ⟨0, false, false, [(16, 23)]⟩
  | 0x0802 => some ⟨0, false, false, [(16, 16), (18, 19)]⟩
  | 0x0803 => some ⟨0, false, false, [(16, 16), (18, 21), (24, 31)]⟩
  | 0x0805 => some ⟨0, false, false, [(16, 22), (24, 31)]⟩
  | 0x0806 | 0x0880 => some ⟨0, false, false, [(16, 17), (24, 31)]⟩
  | 0x0883 => some ⟨0, false, false, [(16, 21)]⟩
  | 0x0884 => some ⟨0, false, false, [(16, 16), (20, 23)]⟩
  | 0x0885 => some ⟨2, true, false, [(16, 31)]⟩
  | 0x0886 => some ⟨1, false, false, if indirect then [(16, 25)] else [(16, 63)]⟩
  | 0x0900 => some ⟨0, false, false, [(16, 55)]⟩
  | 0x0901 => some ⟨0, false, false, [(16, 31)]⟩
  | 0x0902 | 0x0903 | 0x0904 | 0x0905 | 0x0906 | 0x0909 => some ⟨0, false, false, [(17, 17), (20, 23)]⟩
  | 0x0907 => some ⟨0, false, false, [(16, 23)]⟩
  | 0x0908 => some ⟨0, false, false, []⟩
  | 0x0A00 => some ⟨3, false, true, [(16, 23)]⟩
  | 0x0B00 => some ⟨0, false, false, [(16, 23)]⟩
  | 0x0B01 => some ⟨0, false, false, [(16, 16), (20, 23)]⟩
  | 0x0B02 => some ⟨0, false, false, [(16, 24)]⟩
  | 0x0B03 => some ⟨0, false, false, [(16, 19)]⟩
  | _ => none

/-- The offset at which checks 1 and 2 of R437 fail for a descriptor, R435 and R460 included. -/
def badField (src : Src) (d : Descriptor) : Option Nat :=
  match opForm d.opcode d.flags with
  | none => some 0
  | some f =>
    let urgent := match src with | .urgent _ => true | .ring _ => false
    if urgent && !f.urgent then some 0
    else if d.flags ≠ Nat.land d.flags f.flags then some 2
    else if d.target ≠ 0 ∧ (!f.timed || (urgent && d.opcode != 0x0201)) then some 8
    else
      ((List.range d.payload.length).find? fun k =>
        d.payload.getD k 0 != 0 && !f.used.any fun u => decide (u.1 ≤ k + 16) && decide (k + 16 ≤ u.2)).map (· + 16)

/-- A descriptor is dispatched: it gets exactly one final completion (R439), a refusal at once where its common checks fail
(R437). A NET_WL_DISTRIBUTE that its list descriptor does not follow on its ring is over (R560). -/
def State.dispatch (s : State) (src : Src) (d : Descriptor) : State :=
  let h : CmdHdr := { src := src, tag := d.tag, flags := d.flags, target := d.target }
  let s1 := s.modHost fun x => { x with issued := x.issued ++ [⟨h, d.opcode⟩] }
  let s2 := if d.opcode = 0x0886 ∧ Nat.testBit d.flags 0 then s1 else s1.dropDist src.code
  match badField src d with
  | some o => s2.refuse h d.opcode .refused o 0
  | none => s2

/-! ### Rings (R428–R432, R456) -/

/-- The registers of a ring by its number in R431: HEAD, TAIL, ENABLE, LOG2, BASE and ERR. -/
def ringHead (r : Nat) : Fld :=
  if r < 8 then Reg.HOST_CRING_HEAD_POS r else if r < 12 then Reg.HOST_ERING_HEAD_POS (r - 8) else Reg.HOST_BRING_HEAD_POS (r - 12)
def ringTail (r : Nat) : Fld :=
  if r < 8 then Reg.HOST_CRING_TAIL_POS r else if r < 12 then Reg.HOST_ERING_TAIL_POS (r - 8) else Reg.HOST_BRING_TAIL_POS (r - 12)
def ringEnable (r : Nat) : Fld :=
  if r < 8 then Reg.HOST_CRING_CFG_ENABLE r else if r < 12 then Reg.HOST_ERING_CFG_ENABLE (r - 8)
  else Reg.HOST_BRING_CFG_ENABLE (r - 12)
def ringLog2 (r : Nat) : Fld :=
  if r < 8 then Reg.HOST_CRING_CFG_LOG2 r else if r < 12 then Reg.HOST_ERING_CFG_LOG2 (r - 8) else Reg.HOST_BRING_CFG_LOG2 (r - 12)
def ringBase (r : Nat) : Fld :=
  if r < 8 then Reg.HOST_CRING_BASE_BASE r else if r < 12 then Reg.HOST_ERING_BASE_BASE (r - 8) else Reg.HOST_BRING_BASE_BASE (r - 12)
def ringErr (r : Nat) : Fld :=
  if r < 8 then Reg.HOST_CRING_ERR_CODE r else if r < 12 then Reg.HOST_ERING_ERR_CODE (r - 8) else Reg.HOST_BRING_ERR_CODE (r - 12)

/-- Bytes of an entry. -/
def entryBytes (r : Nat) : Nat := if r < 8 then 64 else 32

/-- The permissions of R428 within windows: a command ring is read, an event ring written, a bulk ring both. -/
def State.ringMemOk (s : State) (r addr len : Nat) : Bool :=
  (decide (8 ≤ r ∧ r < 12) || s.windowOk addr len false) && (decide (r < 8) || s.windowOk addr len true)

/-- RING_ERR, the ring's ERR and one RING_FAULT event. -/
def State.ringFault (s : State) (r code : Nat) : State :=
  ((s.set Reg.HOST_STATUS_RING_ERR).put (ringErr r) code).postNow .fault (some 59) 0x16 [r, code]

/-- A ring that the engine may serve: enabled, not stopped and not empty. -/
def State.ringReady (s : State) (r : Nat) : Bool :=
  s.bit (ringEnable r) && decide (s.get (ringErr r) ≠ 2) && decide (s.get (ringHead r) ≠ s.get (ringTail r))

/-- The address of the entry at HEAD. -/
def State.headAddr (s : State) (r : Nat) : Nat := s.get (ringBase r) + entryBytes r * ringIdx (s.get (ringHead r))

def State.advanceHead (s : State) (r : Nat) : State := s.put (ringHead r) (ringNext (s.get (ringLog2 r)) (s.get (ringHead r)))

/-- R431, R432. -/
def execDoorbell (value : BitVec 32) (s : State) : Out := s.ifHost <|
  let v := value.toNat
  let pos := v % 2 ^ 15
  let r := v / 2 ^ 16 % 16
  let n := s.get (ringLog2 r)
  let head := s.get (ringHead r)
  let tail := s.get (ringTail r)
  let ok := s.bit (ringEnable r) && decide (v / 2 ^ 15 % 2 = 0) && decide (v / 2 ^ 20 = 0) && decide (ringIdx pos < 2 ^ n) &&
    (if 8 ≤ r ∧ r < 12 then decide (ringCount n pos tail ≤ ringCount n head tail)
     else decide (ringCount n head tail ≤ ringCount n head pos) && decide (ringCount n head pos ≤ 2 ^ n))
  .next (if ok then s.put (if 8 ≤ r ∧ r < 12 then ringHead r else ringTail r) pos else s.ringFault r 1)

/-- A START event that waits for its ring is posted (R717). -/
def State.postStart (s : State) : State :=
  match s.pwr.start with
  | none => s
  | some (b, st) =>
    if (List.range 4).any fun e => s.bit (Reg.HOST_ERING_CFG_ENABLE e) then
      let s1 : State := { s with pwr := { s.pwr with start := none } }
      (s1.clear [Reg.PWR_STATUS_HANDOVER_SEEN, Reg.PWR_STATUS_WARM_LOST, Reg.PWR_STATUS_COLD_NEXT, Reg.PWR_STATUS_WAKE_FAIL]).post
        .other none { code := 0x160, status := st, si := (s.dom 0).si, body := b }
    else s

/-- The fields of a CFG register other than ENABLE. -/
def cfgFields (r : Nat) : List Fld :=
  if r < 8 then [Reg.HOST_CRING_CFG_LOG2 r, Reg.HOST_CRING_CFG_EVT r]
  else if r < 12 then [Reg.HOST_ERING_CFG_LOG2 (r - 8)]
  else [Reg.HOST_BRING_CFG_LOG2 (r - 12), Reg.HOST_BRING_CFG_EVT (r - 12), Reg.HOST_BRING_CFG_DIR (r - 12),
        Reg.HOST_BRING_CFG_USE (r - 12)]

/-- The value a register write gives a field. -/
def fieldOf (v : Nat) (f : Fld) : Nat := v / 2 ^ f.lo % 2 ^ f.w

/-- R429, R840: a CFG register is written. -/
def State.ringCfg (s : State) (r v : Nat) : State :=
  let fs := cfgFields r
  let en := s.bit (ringEnable r)
  let want := fieldOf v (ringEnable r) == 1
  if en && fs.any (fun f => fieldOf v f != s.get f) then s.set Reg.HOST_STATUS_CFG_REJ
  else
    let s1 := s.each fs fun f t => t.put f (fieldOf v f)
    if en || !want then s1.putBit (ringEnable r) want
    else
      let n := s1.get (ringLog2 r)
      if 6 ≤ n ∧ n ≤ 14 ∧ s1.get (ringBase r) % 4096 = 0 ∧
          s1.ringMemOk r (s1.get (ringBase r)) (entryBytes r * 2 ^ n) = true then
        ((((s1.set (ringEnable r)).put (ringHead r) 0).put (ringTail r) 0).put (ringErr r) 0).postStart
      else s1.set Reg.HOST_STATUS_CFG_REJ

def execHostRingCfgWrite (ring : Fin 16) (value : BitVec 32) (s : State) : Out := s.ifHost <| .next (s.ringCfg ring.val value.toNat)

/-- R457: `outstanding` is how many engine requests to the window have been issued and not completed. -/
def State.winCtl (s : State) (k v outstanding : Nat) : State :=
  let was := s.bit (Reg.HOST_WIN_CTL_ENABLE k)
  let s1 := ((s.put (Reg.HOST_WIN_CTL_ENABLE k) (v % 2)).put (Reg.HOST_WIN_CTL_READ k) (v / 2 % 2)).put
    (Reg.HOST_WIN_CTL_WRITE k) (v / 4 % 2)
  if was && v % 2 == 0 then
    s1.modHost fun x => { x with winOut := Tab.put 0 x.winOut k outstanding,
                                 winHeld := Tab.put false x.winHeld k (decide (0 < outstanding)) }
  else s1

def execHostWinCtlWrite (k : Fin 16) (value : BitVec 32) (outstanding : Nat) (s : State) : Out := s.ifHost <|
  .next (s.winCtl k.val value.toNat outstanding)

/-- R457: every request issued before the clear has completed, and a held read of CTL completes. -/
def execWindowDrainDone (k : Fin 16) (s : State) : Out :=
  .next (s.modHost fun x => { x with winOut := Tab.put 0 x.winOut k.val 0, winHeld := Tab.put false x.winHeld k.val false })

/-! ### The urgent window (R459–R462) -/

/-- R459: one write of a whole slot; a COMMIT of 0 leaves the slot as written and takes nothing. -/
def execUrgentSlotCommit (slot : Fin 64) (d : Descriptor) (commit : BitVec 32) (s : State) : Out := s.ifHost <|
  if Nat.testBit (s.get Reg.HOST_URG_BUSY_BUSY) slot.val then .next (s.set Reg.HOST_STATUS_URG_OVERWRITE)
  else
    let e : Descriptor := { d with payload := d.payload.take 44 }
    let s1 := s.modHost fun x => { x with urg := Tab.put none x.urg slot.val (some e) }
    .next (if commit = 0 then s1
      else (s1.modHost fun x => { x with urgTaken := x.urgTaken ++ [slot] }).setMask Reg.HOST_URG_BUSY_BUSY slot.val)

/-- R461: the slot taken first is dispatched. -/
def execUrgentDispatch (s : State) : Out :=
  match s.host.urgTaken with
  | [] => .next s
  | k :: rest =>
    let s1 := s.modHost fun x => { x with urgTaken := rest }
    .next (match Tab.get none s.host.urg k.val with
      | some d => s1.dispatch (.urgent k) d
      | none => s1)

/-! ### Dispatch and completion (R438, R439) -/

/-- A command ring whose turn it may be: an entry for its final completion can be reserved, and fewer than 256 of its
descriptors are uncompleted. -/
def State.mayFetch (s : State) (c : Nat) : Bool :=
  s.ringReady c && s.evRoom (s.get (Reg.HOST_CRING_CFG_EVT c) % 4) &&
  decide ((s.host.issued.filter fun x => x.hdr.src.code == c).length < 256)

/-- R438, R439, R456: the next ring in turn, and the descriptor `d` fetched from it. Taken urgent slots go first. -/
def execDescriptorDispatch (d : Descriptor) (s : State) : Out :=
  if !s.host.urgTaken.isEmpty then .next s
  else
    match ((List.range 8).map fun k => (s.host.lastRing + 1 + k) % 8).find? s.mayFetch with
    | none => .next s
    | some c =>
      if h : c < 8 then
        if !s.windowOk (s.headAddr c) 64 false then .next (s.ringFault c 2)
        else
          let e := s.get (Reg.HOST_CRING_CFG_EVT c) % 4
          let s1 := (s.advanceHead c).modHost fun x =>
            { x with lastRing := c, reserved := Tab.upd 0 x.reserved e (· + 1) }
          .next (s1.dispatch (.ring ⟨c, h⟩) d)
      else .next s

/-- The COMPLETION event of a finished command (R451). -/
def doneEvent (x : Done) : Event :=
  { code := 1, status := x.status, src := x.hdr.src.code, tag := x.hdr.tag, si := x.si,
    body := [x.opcode, x.detail, x.si, x.result] }

/-- The first entry of a list that has a property is taken out. -/
def dropFirst {α : Type} (p : α → Bool) : List α → List α
  | [] => []
  | x :: t => if p x then t else x :: dropFirst p t

/-- R439, R462: the oldest finished command's COMPLETION. The completion of a command that was not dispatched since the last
link reset is discarded (R427). -/
def execCommandCompletion (s : State) : Out :=
  match s.host.done with
  | [] => .next s
  | x :: rest =>
    let s1 := s.modHost fun y => { y with done := rest }
    let mine (i : Issued) : Bool := i.hdr == x.hdr && i.opcode == x.opcode
    if !s.host.issued.any mine then .next s1
    else
      match x.hdr.src with
      | .ring c =>
        let e := s.get (Reg.HOST_CRING_CFG_EVT c.val) % 4
        if x.interim then .next (s1.postTo e (doneEvent x) none)
        else
          let s2 := s1.modHost fun y =>
            { y with issued := dropFirst mine y.issued, reserved := Tab.upd 0 y.reserved e (· - 1) }
          .next (if s.bit (Reg.HOST_ERING_CFG_ENABLE e) && s.get (Reg.HOST_ERING_ERR_CODE e) != 2 then
              s2.writeEvent e ⟨doneEvent x, 1 + e⟩
            else s2.hold e ⟨doneEvent x, 1 + e⟩)
      | .urgent k =>
        if x.interim then .next (s1.post .urg none (doneEvent x))
        else
          let s2 := s1.modHost fun y => { y with issued := dropFirst mine y.issued }
          .next ((((s2.clrMask Reg.HOST_URG_BUSY_BUSY k.val).setMask Reg.HOST_URG_DONE_DONE k.val).raiseVector 0).post .urg none
            (doneEvent x))

/-- Held events are written while there is room (R453). -/
def State.drainHeld (s : State) (r : Nat) : List Held → State
  | [] => s.modHost fun x => { x with holding := Tab.put [] x.holding r [] }
  | h :: t =>
    if s.evRoom r && s.evMemOk r then State.drainHeld (s.writeEvent r h) r t
    else s.modHost fun x => { x with holding := Tab.put [] x.holding r (h :: t) }

/-- R453: EVENT_LOST comes first when events have been lost. -/
def execEventHoldingDrain (e : Fin 4) (s : State) : Out :=
  let r := e.val
  let n := Tab.get 0 s.host.lost r
  let q := Tab.get [] s.host.holding r
  if !s.evRoom r || !s.evMemOk r then .next s
  else if n = 0 then .next (s.drainHeld r q)
  else
    let s1 := s.modHost fun x => { x with lost := Tab.put 0 x.lost r 0 }
    let ev : Event := { code := 4, si := (s.dom 0).si, body := [n] }
    .next ((s1.writeEvent r ⟨ev, 1 + r⟩).drainHeld r q)

/-- R454: INTERVAL has passed since the vector's last message. -/
def execMsixModerationExpiry (v : Fin 64) (s : State) : Out :=
  let m := Tab.get {} s.host.msix v.val
  let s1 := s.modHost fun x => { x with msix := Tab.put {} x.msix v.val { m with moderated := false, waiting := false } }
  .next (if m.moderated && m.waiting then s1.raiseVector v.val else s1)

/-- The vector control dword of the MSI-X table: a vector that loses its mask sends what is pending (R454). -/
def State.maskVector (s : State) (v : Nat) (masked : Bool) : State :=
  let m := Tab.get {} s.host.msix v
  let s1 := s.modHost fun x => { x with msix := Tab.put {} x.msix v { m with masked := masked, pendingBit := m.pendingBit && masked } }
  if m.pendingBit && !masked then s1.raiseVector v else s1

/-! ### The link (R427, R472) -/

/-- Register fields of the HOST block and of DMA channels 12–31 that return to their power-up number, 0 (R427): those that are
neither live nor restored. -/
def hostResetKey (key : Nat) : Bool :=
  let off := key / 32
  let live := key == Reg.HOST_STATUS_LINK_UP.key || key == Reg.HOST_STATUS_WIDTH.key || key == Reg.HOST_STATUS_SPEED.key ||
    key == Reg.HOST_STATUS_DEGRADED.key || key == Reg.HOST_STATUS_HUSH_ACTIVE.key || key == Reg.HOST_STATUS_HUSH_PIN.key ||
    key == Reg.HOST_LEDGER_FREE_BYTES.key || key == Reg.HOST_HUSH_STATE_HUSHED.key
  let restored := key == Reg.HOST_LEDGER_UP_PCT.key || key == Reg.HOST_HUSH_CFG_PIN_LATCH.key ||
    key == Reg.HOST_HUSH_PIN_GRP_GROUPS.key || key == Reg.HOST_DRAM_WIN_BASE_BASE.key || key == Reg.HOST_DRAM_WIN_SIZE_SIZE.key
  (decide (0x4000 ≤ off ∧ off < 0x5000) && !live && !restored) || decide (0xAC00 ≤ off ∧ off < 0xC000)

/-- R427, R798, R801: the host interface alone is reset. -/
def execHostLinkReset (s : State) : Out :=
  let t : State := { s with
    regs := s.regs.filter fun e => !hostResetKey e.1,
    latch := [], staged := [],
    mix := { s.mix with meters := [] } }
  let t1 := t.each (List.range 32) fun n u => u.put (Reg.DMA_CH_STATUS_STATE n) 0
  .next (t1.modHost fun x => { x with
    issued := [], done := [], holding := [], lost := [], reserved := [], evWait := [], reports := [], ahead := [], urg := [], urgTaken := [], lastRing := 7,
    winOut := [], winHeld := [], dma := [],
    msix := x.msix.map fun e => (e.1, { e.2 with moderated := false, waiting := false }) })

/-- R472: the link has trained at a width and speed, as HOST_STATUS encodes them; a lower rate than before degrades it. -/
def execLinkRetrain (width : Fin 3) (speed : Fin 5) (s : State) : Out :=
  let s1 := ((s.put Reg.HOST_STATUS_WIDTH width.val).put Reg.HOST_STATUS_SPEED speed.val).putBit Reg.HOST_STATUS_LINK_UP
    (decide (speed.val ≠ 0))
  .next (if s.bit Reg.HOST_STATUS_LINK_UP && decide (s1.linkRate < s.linkRate) then
    (s1.set Reg.HOST_STATUS_DEGRADED).postNow .fault (some 59) 0x18 [width.val, speed.val]
  else s1)

/-- R480. -/
def execHostCntClr (s : State) : Out := s.ifHost <| .next (s.clear [Reg.HOST_LEDGER_HWM_BYTES, Reg.HOST_EVT_LOST_CNT_COUNT])

end Sys2Proof.Machine
end

