-- ==== Sys2Proof/Machine/Huba.lean ====
section
/-! DEFINITION. Converters, preamplifiers, jacks and the monitor power stage (R600–R626). An operand `k` is the sample of the
running frame period at which a thing happens. -/

namespace Sys2Proof.Machine

/-! ### Converter chains (R606–R610) -/

def State.modHuba (s : State) (f : HubaSt → HubaSt) : State := { s with huba := f s.huba }

/-- Chains 0 and 1 are the ADCs, 2 and 3 the DACs. -/
def State.conv (s : State) (c : Nat) : ConvCh := if c < 2 then Tab.get {} s.huba.adc c else Tab.get {} s.huba.dac (c - 2)
def State.setConv (s : State) (c : Nat) (x : ConvCh) : State :=
  s.modHuba fun h => if c < 2 then { h with adc := Tab.put {} h.adc c x } else { h with dac := Tab.put {} h.dac (c - 2) x }
def State.modConv (s : State) (c : Nat) (f : ConvCh → ConvCh) : State := s.setConv c (f (s.conv c))

def convEn (c : Nat) : Fld := if c < 2 then Reg.HUBA_ADC_CTL_EN c else Reg.HUBA_DAC_CTL_EN (c - 2)
def convPreset (c : Nat) : Fld := if c < 2 then Reg.HUBA_ADC_CTL_PRESET c else Reg.HUBA_DAC_CTL_PRESET (c - 2)
def convSettled (c : Nat) : Fld := if c < 2 then Reg.HUBA_ADC_STATUS_SETTLED c else Reg.HUBA_DAC_STATUS_SETTLED (c - 2)

/-- The converters' domain, and the SI of a sample of its running frame period. -/
def State.convDom (s : State) : Nat := s.get Reg.HUBA_DOMAIN_CONV_DOM
def State.convSi (s : State) (k : Nat) : Nat := (s.dom s.convDom).si + k
def State.psDom (s : State) : Nat := s.get Reg.HUBA_DOMAIN_PS_DOM

/-- 2 ms and 10 ms in samples of the converters' domain. -/
def State.conv2ms (s : State) : Nat := s.samplesMs s.convDom 2
def State.conv10ms (s : State) : Nat := s.samplesMs s.convDom 10

/-- At most one event to a channel and cause in 10 ms (R625). -/
def State.hubaEvent (s : State) (cls : EvClass) (code key : Nat) (body : List Nat) : State :=
  let k := code % 16 * 256 + key
  let last := Tab.get 0 s.huba.eventAt k
  let now := (s.dom 0).si
  if last ≠ 0 ∧ now < last - 1 + s.samplesMs 0 10 then s
  else (s.modHuba fun h => { h with eventAt := Tab.put 0 h.eventAt k (now + 1) }).postNow cls none code body

/-- CONV: channel and cause 1 released, 2 saturation, 3 BIG_STEP. -/
def State.convEvent (s : State) (c cause : Nat) : State := s.hubaEvent .other 0x0133 (8 * c + cause) [c / 2, c % 2, cause]

/-- A chain starts to settle: it delivers zero until it has (R606). -/
def State.unsettle (s : State) (c : Nat) : State :=
  (s.modConv c fun x => { x with settled := none, gate := {} }).put (convSettled c) 0

/-- Once its gate has closed before sample t, a chain that EN or PRESET has changed stops or takes its new preset. -/
def State.convTakeover (s : State) (c t : Nat) : State :=
  let x := s.conv c
  if x.running && x.gate.down && decide (s.conv2ms ≤ gatePos x.gate s.conv2ms (t - 1)) then
    if x.stopping then (s.setConv c { x with running := false, stopping := false, newPreset := none }).unsettle c
    else
      match x.newPreset with
      | some p => (s.setConv c { x with preset := p, newPreset := none }).unsettle c
      | none => s
  else s

/-- R606: EN and PRESET of a chain. PRESET 3 is discarded (R607). -/
def execConvEnWrite (c : Fin 4) (en : Bool) (preset : Fin 4) (k : Nat) (s : State) : Out := s.ifRestored (0x8010 + 16 * c.val) (s.bit (convEn c.val) != en || s.get (convPreset c.val) != preset.val) <|
  let t := s.convSi k
  let s0 := s.convTakeover c.val t
  let s1 := if preset.val = 3 then s0.set Reg.HUBA_STATUS_CFG_REJ else s0.put (convPreset c.val) preset.val
  let s2 := s1.putBit (convEn c.val) en
  let p := s2.get (convPreset c.val)
  let x := s2.conv c.val
  if en then
    if x.running && !x.stopping then
      if p = x.newPreset.getD x.preset then .next s2
      else .next (s2.setConv c.val { x with newPreset := some p, gate := gateTo x.gate true s.conv2ms t })
    else .next ((s2.setConv c.val { x with running := true, stopping := false, preset := p, newPreset := none }).unsettle c.val)
  else if x.running then .next (s2.setConv c.val { x with stopping := true, gate := gateTo x.gate true s.conv2ms t })
  else .next (s2.setConv c.val { x with preset := p })

/-- R606. -/
def execChainSettled (c : Fin 4) (k : Nat) (s : State) : Out :=
  let t := s.convSi k
  let s1 := s.convTakeover c.val t
  let x := s1.conv c.val
  if x.running && x.settled.isNone then
    .next (((s1.setConv c.val { x with settled := some t }).set (convSettled c.val)).convEvent c.val 1)
  else .next s1

/-! ### The preamplifier (R608–R610) -/

/-- Compensation on sample t, as log2 of gain: its ramp to 0 dB takes 10 ms (R609, R94). -/
def compAt (x : ConvCh) (n t : Nat) : Word :=
  let j := t + 1 - x.compAt
  if n ≤ j then 0 else if j = 0 then x.comp else backFrom 0 (n - j) (stepOf x.comp 0 n)

/-- k steps of 3 dB as log2 of gain. -/
def stepLog (k : Int) : Word := Fp.dbToLog2 (Fp.ofInt (BitVec.ofInt 32 (3 * k)))

/-- The bound of ±18 dB (R610). -/
def beyond18 (x : Word) : Bool := decide (Fp.val (stepLog 6) < Fp.val (Fp.abs x))

/-- R610: the ramp-down path begins on sample t. -/
def State.bigStep (s : State) (n range t : Nat) : State :=
  (((s.modConv n fun x => { x with path := some t, pathRange := range, pathDone := false, request := none, stepping := [] }).set
    (Reg.HUBA_ADC_STATUS_RAMP_PATH n)).set (Reg.HUBA_ADC_STATUS_BIG_STEP n)).convEvent n 3

/-- The steps of the ramp-down path that lie before sample t: the range is applied, and the path ends. -/
def State.pathStep (s : State) (n t : Nat) : State :=
  let x := s.conv n
  match x.path with
  | none => s
  | some p =>
    let r := s.conv2ms
    let h := presetSettle x.preset (s.dom s.convDom).rate
    let s1 := if p + r ≤ t ∧ x.pathDone = false then
        ((s.setConv n { x with pathDone := true, comp := 0 }).put (Reg.HUBA_ADC_STATUS_RANGE n) x.pathRange).bump
          (Reg.HUBA_ADC_CNT_RANGE_CNT n)
      else s
    if p + r + h + r ≤ t then (s1.modConv n fun y => { y with path := none }).put (Reg.HUBA_ADC_STATUS_RAMP_PATH n) 0 else s1

/-- R608–R610: a request, and its ramp-down path when the compensation would pass ±18 dB. -/
def execRangeRequest (n : Fin 2) (r : Fin 32) (k : Nat) (s : State) : Out := s.ifRestored (0x8010 + 16 * n.val) (s.get (Reg.HUBA_ADC_CTL_RANGE_REQ n.val) != r.val) <|
  if 20 < r.val then .next (s.set Reg.HUBA_STATUS_CFG_REJ)
  else
    let t := s.convSi k
    let s1 := (s.put (Reg.HUBA_ADC_CTL_RANGE_REQ n.val) r.val).pathStep n.val t
    let x := s1.conv n.val
    let old := s1.get (Reg.HUBA_ADC_STATUS_RANGE n.val)
    if x.path.isSome && !x.pathDone then .next (s1.setConv n.val { x with pathRange := r.val })
    else
      let d := (r.val : Int) - (old : Int) + x.stepping.sum
      if beyond18 (Fp.sub (compAt x s.conv10ms (t - 1)) (stepLog d)).1 && x.path.isNone then .next (s1.bigStep n.val r.val t)
      else .next (s1.setConv n.val { x with request := some r.val })

/-- R608: the analogue gain changes. -/
def execRangeChange (n : Fin 2) (s : State) : Out :=
  let x := s.conv n.val
  match x.request with
  | none => .next s
  | some r =>
    let d := (r : Int) - (s.get (Reg.HUBA_ADC_STATUS_RANGE n.val) : Int)
    .next (((s.setConv n.val { x with request := none, stepping := x.stepping ++ [d] }).put
      (Reg.HUBA_ADC_STATUS_RANGE n.val) r).bump (Reg.HUBA_ADC_CNT_RANGE_CNT n.val))

/-- COMP shows the compensation on sample t, in 0.25 dB. -/
def State.showComp (s : State) (n t : Nat) : State :=
  let db := Fp.log2ToDb (compAt (s.conv n) s.conv10ms t)
  s.put (Reg.HUBA_ADC_STATUS_COMP n) ((BitVec.ofInt 8 (Fp.toInt (Fp.mul db 0x40800000).1).toInt).toNat)

/-- R609: the analogue step reaches the output, and the compensation steps against it. -/
def execCompensationStep (n : Fin 2) (k : Nat) (s : State) : Out :=
  let t := s.convSi k
  let x := s.conv n.val
  match x.stepping with
  | [] => .next s
  | d :: rest =>
    let v := (Fp.sub (compAt x s.conv10ms (t - 1)) (stepLog d)).1
    if beyond18 v then .next (s.bigStep n.val (s.get (Reg.HUBA_ADC_STATUS_RANGE n.val)) t)
    else .next ((s.setConv n.val { x with stepping := rest, comp := v, compAt := t }).showComp n.val t)

/-! ### Samples of the chains -/

/-- The level of the ramp-down path on sample t (R610). -/
def pathGain (x : ConvCh) (r h t : Nat) : Word :=
  match x.path with
  | none => 0x3F800000
  | some p =>
    if t < p then 0x3F800000
    else if t < p + r then closedGain r (t - p + 1)
    else if t < p + r + h then 0
    else closedGain r (p + r + h + r - 1 - t)

def fmul (a b : Word) : Word := if b = 0 then 0 else (Fp.mul a b).1

/-- What a chain makes of its sample t (R604–R610, R614). -/
def State.convSample (s : State) (c t : Nat) (w : Word) : Word :=
  let x := s.conv c
  let r := s.conv2ms
  let silent := (c < 2 ∧ s.bit (Reg.HUBA_ADC_CTL_SOURCE c) = true ∧ s.get Reg.HUBA_JACK_TYPE ≠ 2 ∧ s.get Reg.HUBA_JACK_TYPE ≠ 3) ∨
    (2 ≤ c ∧ s.bit (Reg.HUBA_DAC_STATUS_MUTED (c - 2)) = true)
  match x.settled with
  | none => 0
  | some p =>
    if silent ∨ t < p ∨ x.running = false then 0
    else
      let g := fmul (fmul (fadeIn w (t - p)) (gateGain x.gate r t)) (gateGain x.mute r t)
      if c < 2 then
        let q := compAt x s.conv10ms t
        let g1 := if q = 0 then g else fmul g (Fp.exp2 q).1
        fmul g1 (pathGain x r (presetSettle x.preset (s.dom s.convDom).rate) t)
      else fmul g (gateGain x.txGate r t)

/-- A block of samples from SI x on, and the chain's own progress by its end. `sat`: the stages that saturated, and in how
many samples (R605). -/
def State.convBlock (s : State) (c x : Nat) (ws : List Word) (sat cnt : Nat) : List Word × State :=
  let out := (List.range ws.length).map fun k => s.convSample c (x + k) (ws.getD k 0)
  let t := x + ws.length
  let s1 := s.convTakeover c t
  let satF := if c < 2 then Reg.HUBA_ADC_STATUS_SAT c else Reg.HUBA_DAC_STATUS_SAT (c - 2)
  let cntF := if c < 2 then Reg.HUBA_ADC_CNT_SAT_CNT c else Reg.HUBA_DAC_CNT_SAT_CNT (c - 2)
  let s2 := if sat = 0 then s1 else ((s1.put satF (Nat.lor (s1.get satF) sat)).bumpBy cntF cnt).convEvent c 2
  (out, if c < 2 then (s2.pathStep c t).showComp c (t - 1) else s2)

/-! ### Jacks and buttons (R611–R614) -/

/-- One JACK event (R625). -/
def State.jackEvent (s : State) (jack inserted : Nat) : State :=
  (s.set Reg.HUBA_JACK_JACK_CHG).hubaEvent .other 0x0130 (2 * jack + inserted) [jack, inserted, s.get Reg.HUBA_JACK_TYPE]

/-- Both DAC outputs held at zero, or driven. -/
def State.holdDacs (s : State) (b : Bool) : State := s.each (List.range 2) fun n t => t.putBit (Reg.HUBA_DAC_STATUS_MUTED n) b

/-- Both DACs ramp to zero or back from sample t. -/
def State.rampDacs (s : State) (down : Bool) (t : Nat) : State :=
  s.each [2, 3] fun c u => u.modConv c fun x => { x with mute := gateTo x.mute down u.conv2ms t }

/-- R611: the headphone jack is empty; its DAC outputs stay at the zero that the removal edge ramped them to. -/
def State.unplugged (s : State) : State :=
  ((((s.put Reg.HUBA_JACK_HP_PRESENT 0).put Reg.HUBA_JACK_TYPE 0).put Reg.HUBA_JACK_BUTTONS 0).holdDacs true).jackEvent 0 0

/-- R611: a pin has held its new level for 20 ms. -/
def execJackDetectChange (tb inserted : Bool) (k : Nat) (s : State) : Out :=
  if tb then .next ((s.putBit Reg.HUBA_JACK_TB_PRESENT inserted).jackEvent 1 (if inserted then 1 else 0))
  else if s.huba.removing then
    let bias := inserted && (s.get Reg.HUBA_JACK_TYPE == 2 || s.get Reg.HUBA_JACK_TYPE == 3)
    let s1 := s.modHuba fun h => { h with removing := false, hpBias := bias }
    if inserted then .next (s1.rampDacs false (s.convSi k))
    else .next s1.unplugged
  else if inserted then
    let s1 := ((s.set Reg.HUBA_JACK_HP_PRESENT).put Reg.HUBA_JACK_TYPE 7).holdDacs true
    .next (s1.each [2, 3] fun c u => u.modConv c fun x => { x with mute := {} })
  else .next s.unplugged

/-- R611: the first edge that indicates a removal, before debouncing. -/
def execJackRemovalEdge (k : Nat) (s : State) : Out :=
  if s.bit Reg.HUBA_JACK_HP_PRESENT then
    .next ((s.modHuba fun h => { h with removing := true, hpBias := false }).rampDacs true (s.convSi k))
  else .next s

/-- A microphone is found in one polarity (R612). -/
def micFound (a b : Nat) : Bool := decide (600 ≤ a) && decide (a ≤ 20000) && decide (2 * a ≤ b)

/-- The first row of R612 that matches; headphones where none does. -/
def jackType (l : JackLoads) : Nat :=
  let mic := micFound l.ring2 l.sleeve || micFound l.sleeve l.ring2
  if l.tip < 4 ∨ l.ring1 < 4 then 5
  else if micFound l.ring2 l.sleeve then 3
  else if micFound l.sleeve l.ring2 then 2
  else if min l.ring2 l.sleeve < 20 ∨ (mic = false ∧ l.tip < 2000) then 1
  else 4

/-- R612: TYPE stands, and an ADC fed from the headset settles again. -/
def execJackClassified (l : JackLoads) (s : State) : Out :=
  if s.get Reg.HUBA_JACK_TYPE ≠ 7 then .next s
  else
    let ty := jackType l
    let z := if ty = 3 then l.ring2 else if ty = 2 then l.sleeve else 0xFFFF
    let s1 := (((s.put Reg.HUBA_JACK_TYPE ty).put Reg.HUBA_JACK_Z_TIP_Z (min l.tip 0xFFFF)).put Reg.HUBA_JACK_Z_MIC_Z
      (min z 0xFFFF)).holdDacs (ty == 5)
    let s2 := s1.modHuba fun h => { h with hpBias := ty == 2 || ty == 3 }
    let s3 := s2.each (List.range 2) fun n t => if t.bit (Reg.HUBA_ADC_CTL_SOURCE n) then t.unsettle n else t
    .next (s3.jackEvent 0 1)

/-- The button of a load (R613): 3 none; a load that the table does not list changes nothing. -/
def buttonOf (ohms : Nat) : Option Nat :=
  if ohms < 120 then some 0 else if ohms < 355 then some 1 else if ohms < 550 then some 2 else if 600 < ohms then some 3 else none

/-- R613, R614: a decoded state that has held for 20 ms. -/
def execButtonAccepted (ohms : BitVec 16) (k : Nat) (s : State) : Out :=
  let ty := s.get Reg.HUBA_JACK_TYPE
  if ty ≠ 2 ∧ ty ≠ 3 then .next s
  else
    match buttonOf ohms.toNat with
    | none => .next (s.put Reg.HUBA_JACK_Z_MIC_Z ohms.toNat)
    | some b =>
      let held := s.get Reg.HUBA_JACK_BUTTONS
      let now := if b = 3 then 0 else 2 ^ b
      if held = now then .next s
      else
        let s1 := (s.put Reg.HUBA_JACK_Z_MIC_Z ohms.toNat).put Reg.HUBA_JACK_BUTTONS now
        let s2 := s1.each ((List.range 3).filter fun i => Nat.testBit held i) fun i t =>
          t.hubaEvent .other 0x0131 (2 * i) [i, 0]
        let s3 := if b = 3 then s2 else s2.hubaEvent .other 0x0131 (2 * b + 1) [b, 1]
        .next (if b = 3 then
            s3.each (List.range 2) fun n t => t.modConv n fun x => { x with mute := gateTo x.mute false t.conv2ms (s.convSi k) }
          else s3)

/-- R614: the first sample that reads a button level, and the end of a level that was not accepted within 20 ms. -/
def execButtonLevelMute (n : Fin 2) (down : Bool) (k : Nat) (s : State) : Out :=
  let ty := s.get Reg.HUBA_JACK_TYPE
  if s.bit (Reg.HUBA_ADC_CTL_BTN_MUTE n.val) && s.bit (Reg.HUBA_ADC_CTL_SOURCE n.val) && (ty == 2 || ty == 3) then
    .next (s.modConv n.val fun x => { x with mute := gateTo x.mute down s.conv2ms (s.convSi k) })
  else .next s

/-! ### The power stage (R616–R624) -/

/-- States of a channel (R626). -/
def psOff : Nat := 0
def psPrecharge : Nat := 1
def psRunning : Nat := 2
def psWait : Nat := 3
def psLockout : Nat := 4
def psSupply : Nat := 5

def State.ps (s : State) (c : Nat) : PsCh := Tab.get {} s.huba.ps c
def State.modPs (s : State) (c : Nat) (f : PsCh → PsCh) : State := s.modHuba fun h => { h with ps := Tab.upd {} h.ps c f }
def State.psState (s : State) (c : Nat) : Nat := s.get (Reg.HUBA_PSC_STATUS_STATE c)
def State.psTo (s : State) (c st : Nat) : State := s.put (Reg.HUBA_PSC_STATUS_STATE c) st
def State.psEn (s : State) (c : Nat) : Bool := Nat.testBit (s.get Reg.HUBA_PS_CTL_EN) c
def State.psFault (s : State) (c cause : Nat) : State := s.hubaEvent .fault 0x0132 (8 * c + cause) [c, cause]

/-- VDD_PS lies from 8.0 to 20.5 V. -/
def State.psSupplyOk (s : State) : Bool :=
  decide (8000 ≤ s.get Reg.HUBA_PS_VSUP_MV) && decide (s.get Reg.HUBA_PS_VSUP_MV ≤ 20500)

/-- A channel starts through R618, or waits for its supply. -/
def State.psStart (s : State) (c : Nat) : State :=
  let s1 := s.modPs c fun _ => { txGate := (s.ps c).txGate }
  if s.psSupplyOk then s1.psTo c psPrecharge else s1.psTo c psOff

/-- R618, R621. -/
def execPsEnWrite (c : Fin 2) (en : Bool) (k : Nat) (s : State) : Out := s.ifRestored (0x8060) (s.psEn c.val != en) <|
  let was := s.psEn c.val
  if en then
    let s1 := (s.setMask Reg.HUBA_PS_CTL_EN c.val).put (Reg.HUBA_PSC_STATUS_RETRY_USED c.val) 0
    .next (if was && !(s.ps c.val).stopping then s1 else s1.psStart c.val)
  else
    let s1 := s.clrMask Reg.HUBA_PS_CTL_EN c.val
    let t := (s.dom s.psDom).si + k
    if s.psState c.val = psRunning then
      .next (s1.modPs c.val fun x => { x with stopping := true, gate := gateTo x.gate true (s.samplesMs s.psDom 2) t })
    else .next ((s1.modPs c.val fun x => { x with startNext := false }).psTo c.val psOff)

/-- R618: modulation begins at the next frame boundary of PS_DOM. -/
def execPsPrechargeDone (c : Fin 2) (s : State) : Out :=
  .next (if s.psState c.val = psPrecharge then s.modPs c.val fun x => { x with startNext := true } else s)

/-- A running channel shuts down (R620, R621, R623); a shutdown with no retries left is a lockout. -/
def State.psShut (s : State) (c : Nat) (thermal : Bool) : State :=
  let used := s.get (Reg.HUBA_PSC_STATUS_RETRY_USED c)
  let most := s.get Reg.HUBA_PS_CTL_RETRIES
  let counted := !(thermal && s.bit Reg.HUBA_PS_CTL_COMPAT)
  let lock := counted && decide (most ≠ 0) && used == most
  let s1 := ((s.set (Reg.HUBA_PSC_STATUS_SHUTDOWN c)).bump Reg.HUBA_PS_CNT_SHUTDOWNS).modPs c fun x =>
    { x with startNext := false, stopping := false, gate := {}, thermal := thermal }
  let s2 := if thermal then s1.set (Reg.HUBA_PSC_STATUS_THERM c) else s1.set (Reg.HUBA_PSC_STATUS_ILIM c)
  if !s.psEn c then s2.psTo c psOff
  else (s2.psTo c (if lock then psLockout else psWait)).psFault c (if lock then 2 else if thermal then 3 else 1)

/-- R620: 64 consecutive current-limited carrier cycles. -/
def execPsShutdown (c : Fin 2) (s : State) : Out :=
  .next (if s.psState c.val = psRunning then s.psShut c.val false else s)

/-- R621: 200 ms after a shutdown; a thermal one waits for its temperature (R623). -/
def execPsRetry (c : Fin 2) (s : State) : Out :=
  let hot := decide (1300 ≤ (BitVec.ofNat 16 (s.get Reg.HUBA_PS_TEMP_TEMP)).toInt)
  if s.psState c.val = psWait ∧ ¬((s.ps c.val).thermal = true ∧ (hot = true ∨ s.bit Reg.HUBA_PS_CTL_COMPAT = true)) then
    .next (((s.bump (Reg.HUBA_PSC_STATUS_RETRY_USED c.val)).psStart c.val).psFault c.val 5)
  else .next s

/-- R621: 10 s of continuous running. -/
def execRetryUsedReset (c : Fin 2) (s : State) : Out :=
  .next (if s.psState c.val = psRunning then s.put (Reg.HUBA_PSC_STATUS_RETRY_USED c.val) 0 else s)

/-- R622: VDD_PS out of range. -/
def execPsSupplyFault (mv : BitVec 16) (s : State) : Out :=
  let s1 := s.put Reg.HUBA_PS_VSUP_MV mv.toNat
  if mv.toNat < 7500 ∨ 21000 < mv.toNat then
    .next (s1.each (List.range 2) fun c t =>
      if t.psState c = psRunning ∨ t.psState c = psPrecharge then
        if t.psEn c then ((t.modPs c fun x => { x with startNext := false, gate := {} }).psTo c psSupply).psFault c 4
        else (t.modPs c fun x => { x with stopping := false, gate := {} }).psTo c psOff
      else t)
  else .next s1

/-- R622: VDD_PS has stayed in range for 10 ms. -/
def execPsSupplyRestart (mv : BitVec 16) (s : State) : Out :=
  let s1 := s.put Reg.HUBA_PS_VSUP_MV mv.toNat
  if s1.psSupplyOk then
    .next (s1.each (List.range 2) fun c t =>
      if t.psState c = psSupply then (t.psStart c).psFault c 5
      else if t.psState c = psOff ∧ t.psEn c = true then t.psStart c else t)
  else .next s1

/-- Fold-back on sample t of PS_DOM, as log2 of gain (R623). -/
def State.foldLog (s : State) (t : Nat) : Word :=
  let h := s.huba
  let n := s.samplesMs s.psDom 1
  let j := t + 1 - h.foldAt
  if n ≤ j then h.fold1 else if j = 0 then h.fold0 else backFrom h.fold1 (n - j) (stepOf h.fold0 h.fold1 n)

/-- R623: the sensor is read; in compatibility mode it sets the fold-back of 0.5 dB for each degree above 130 °C. -/
def execPsThermalRead (temp mv : BitVec 16) (s : State) : Out :=
  let s1 := (s.put Reg.HUBA_PS_TEMP_TEMP temp.toNat).put Reg.HUBA_PS_VSUP_MV mv.toNat
  let compat := s.bit Reg.HUBA_PS_CTL_COMPAT
  let above := (temp.toInt - 1300).toNat
  let t := (s.dom s.psDom).si
  let db := ratWord (-(above : Int)) 20 Fp.exBias
  let s2 := if compat then
      (s1.modHuba fun h => { h with fold0 := s.foldLog (t - 1), fold1 := if above = 0 then 0 else Fp.dbToLog2 db, foldAt := t }).put
        Reg.HUBA_PS_TEMP_FOLD (above * 5)
    else (s1.modHuba fun h => { h with fold0 := 0, fold1 := 0 }).put Reg.HUBA_PS_TEMP_FOLD 0
  let s3 := if 1500 ≤ temp.toInt then
      s2.each (List.range 2) fun c u => if u.psState c = psRunning then u.psShut c true else u
    else s2
  .next (if compat && decide (temp.toInt < 1200) then
      s3.each (List.range 2) fun c u =>
        if u.psState c = psWait ∧ (u.ps c).thermal = true then (u.psStart c).psFault c 5 else u
    else s3)

/-! ### Samples of the power stage (R617, R624) -/

/-- The quotient of two positive finite values, rounded once. -/
def fdiv (a b : Word) : Word :=
  let x := Fp.exact a
  let y := Fp.exact b
  (Fp.roundQuot false x.mag y.mag (x.ex + Fp.exBias - y.ex)).1

/-- 1 − exp(−1 / (t × fs)) for a time of 1/den seconds. -/
def moveBy (den rate : Nat) : Word :=
  (Fp.sub 0x3F800000 (Fp.exp2 (ratWord (-(1442695041 * den : Nat) : Int) (1000000000 * rate) Fp.exBias)).1).1

/-- One sample of the limiter's gain (R624). -/
def limiterStep (g vmax e : Word) (rate : Nat) : Word :=
  let gt := if Fp.val e ≤ Fp.val vmax then (0x3F800000 : Word) else fdiv vmax e
  (Fp.fma g (Fp.sub gt g).1 (if Fp.val gt < Fp.val g then moveBy 1000 rate else moveBy 2 rate)).1

/-- What a channel makes of the sample t that it is given, up to scaling: fade-in, gate and fold-back (R617–R619, R623). -/
def State.psLevel (s : State) (c t : Nat) (w : Word) : Word :=
  let x := s.ps c
  let n := s.samplesMs s.psDom 2
  if s.psState c ≠ psRunning ∨ t < x.runAt then 0
  else
    let g := fmul (fmul (fadeIn w (t - x.runAt)) (gateGain x.gate n t)) (gateGain x.txGate n t)
    let q := s.foldLog t
    if q = 0 then g else fmul g (Fp.exp2 q).1

/-- Both channels through steps 3–6 of R617, sample by sample: the volts of each, the limiter's gain at the end, and the
clipped samples of each channel. -/
def State.psRun (s : State) (x : Nat) : List (Word × Word) → Nat → Word → List (Word × Word) × Word × Nat × Nat
  | [], _, g => ([], g, 0, 0)
  | (a, b) :: rest, k, g =>
    let vfs := ratWord (s.get Reg.HUBA_PS_CTL_VFS) 10 Fp.exBias
    let vmax := ratWord (95 * s.get Reg.HUBA_PS_VSUP_MV : Nat) 100000 Fp.exBias
    let a1 := s.psLevel 0 (x + k) a
    let b1 := s.psLevel 1 (x + k) b
    let g1 := limiterStep g vmax (fmul (Fp.max (Fp.abs a1) (Fp.abs b1)) vfs) (s.dom s.psDom).rate
    let volt (w : Word) : Word × Nat :=
      let v := fmul (fmul w g1) vfs
      if Fp.val vmax < Fp.val (Fp.abs v) then (if Fp.sign v then Fp.neg vmax else vmax, 1) else (v, 0)
    let r := s.psRun x rest (k + 1) g1
    (((volt a1).1, (volt b1).1) :: r.1, r.2.1, r.2.2.1 + (volt a1).2, r.2.2.2 + (volt b1).2)

/-- A block of both channels from SI x on (R617, R618, R624). -/
def State.psBlock (s : State) (x : Nat) (ws : List (Word × Word)) : List (Word × Word) × State :=
  let r := s.psRun x ws 0 s.huba.limiter
  let clip (c n : Nat) (t : State) : State :=
    if n = 0 then t else (t.set (Reg.HUBA_PSC_STATUS_CLIP c)).bumpBy Reg.HUBA_PS_CNT_CLIPS n
  let gr := (Fp.toInt (fmul (Fp.log2ToDb (Fp.log2 r.2.1).1) 0xC2C80000)).toNat
  let s1 := (clip 1 r.2.2.2 (clip 0 r.2.2.1 (s.modHuba fun h => { h with limiter := r.2.1 }))).put Reg.HUBA_PS_VSUP_LIM_GR gr
  let t := x + ws.length
  (r.1, s1.each (List.range 2) fun c u =>
    let y := u.ps c
    if y.stopping && decide (u.samplesMs u.psDom 2 ≤ gatePos y.gate (u.samplesMs u.psDom 2) (t - 1)) then
      (u.modPs c fun z => { z with stopping := false, gate := {} }).psTo c psOff
    else u)

/-- At a frame boundary of PS_DOM a precharged channel begins to run (R618). -/
def State.psBegin (s : State) (x : Nat) : State :=
  s.each (List.range 2) fun c t =>
    if (t.ps c).startNext then (t.modPs c fun y => { y with startNext := false, runAt := x }).psTo c psRunning else t

/-- R626. -/
def execHubaCntClr (s : State) : Out := s.ifHost <|
  .next (s.clear ((List.range 2).map Reg.HUBA_ADC_CNT_SAT_CNT ++ (List.range 2).map Reg.HUBA_ADC_CNT_RANGE_CNT ++
    (List.range 2).map Reg.HUBA_DAC_CNT_SAT_CNT ++ [Reg.HUBA_PS_CNT_SHUTDOWNS, Reg.HUBA_PS_CNT_CLIPS]))

end Sys2Proof.Machine
end

