-- ==== Sys2Proof/Machine/Surface.lean ====
section
/-! DEFINITION. Modules, surface links, servo units and faders (R627–R660). -/

namespace Sys2Proof.Machine

/-! ### Slots (R627–R640) -/

def State.modSurf (s : State) (f : SurfSt → SurfSt) : State := { s with surf := f s.surf }

/-- The slot of a fader's module, and a fader's place on it (R627, R647). -/
def faderSlot (f : Nat) : Nat := 32 + f / 32 * 4 + f / 8 % 4
def slotFaders (slot : Nat) : List Nat := (List.range 8).map fun i => (slot - 32) / 4 * 32 + (slot - 32) % 4 * 8 + i

def State.fader (s : State) (f : Nat) : FaderSt := Tab.get {} s.surf.faders f
def State.modFader (s : State) (f : Nat) (g : FaderSt → FaderSt) : State :=
  s.modSurf fun x => { x with faders := Tab.upd {} x.faders f g }

/-- A module's faders take part in no servo frame; they are sent EN = 0 (R639, R645). -/
def State.dropFaders (s : State) (slot : Nat) : State :=
  let s1 := s.modSurf fun x => { x with live := Tab.put false x.live (slot - 32) false, faults := Tab.put 0 x.faults (slot - 32) 0 }
  s1.each (slotFaders slot) fun f t =>
    ((t.modFader f fun _ => {}).modSurf fun x => { x with drive := Tab.put 0 x.drive f 0 }).clear
      [Reg.SURF_FADER_STATE_TOUCH f, Reg.SURF_FADER_STATE_PICKUP f, Reg.SURF_FADER_STATE_CONTROL f,
       Reg.SURF_FADER_STATE_MOTOR f]

/-- What a refused or removed module attaches to stops (R631, R639). -/
def State.detach (s : State) (slot : Nat) : State :=
  let a := s.attach slot
  let on (m n : Nat) : List Nat := (List.range n).filter fun k => Nat.testBit m k
  let s1 := s.each (on a.1 16) fun p t => if t.bit (Reg.APORT_P_CTL_EN p) then t.disablePort p else t
  let s2 := s1.each (on a.2.1 8) fun n t => if t.bit (Reg.AES_RX_CTL_EN n) then t.disableAesRx n else t
  let s3 := s2.each (on a.2.2 8) fun n t => t.disableAesTx n
  if 32 ≤ slot ∧ slot < 64 then s3.dropFaders slot else s3

/-- The first discovery pass is complete: every branch of an enabled bus and every enabled link has been read (R630). -/
def State.discovered (s : State) : State :=
  let seen (k : Nat) : Bool := Tab.get false s.surf.seen k
  let bus (b : Nat) : Bool := !s.bit (Reg.SURF_MB_CTL_EN b) ||
    (List.range (if s.bit (Reg.SURF_MB_CTL_MUX b) then 8 else 1)).all fun k => seen (8 * b + k)
  let link (p : Nat) : Bool := !s.bit (Reg.SURF_SL_CTL_EN p) || seen (32 + 4 * p)
  if (List.range 4).all bus && (List.range 8).all link then s.set Reg.SURF_STATUS_DISC_DONE else s

def State.sawSlot (s : State) (slot : Nat) : State :=
  (s.modSurf fun x => { x with seen := Tab.put false x.seen slot true }).discovered

/-- A slot as it has just been read: a new verdict where a module is there, its removal where it has gone. -/
def State.readSlot (s : State) (slot : Nat) (r : ModuleRead) : State :=
  if r.present then
    let s1 := s.judge slot r
    if s1.slotRefused slot then s1.detach slot else s1
  else if s.bit (Reg.SURF_SLOT_PRESENT slot) then (s.detach slot).unseat slot
  else s

/-- R628, R629, R631: a slot of a module bus is polled; a change is read again. Without a multiplexer a bus has branch 0
alone. -/
def execModulePoll (slot : Fin 32) (mux : Bool) (r : ModuleRead) (s : State) : Out :=
  let b := slot.val / 8
  let k := slot.val % 8
  if !s.bit (Reg.SURF_MB_CTL_EN b) then .next s
  else
    let s1 := s.putBit (Reg.SURF_MB_CTL_MUX b) mux
    let r1 : ModuleRead := { r with present := r.present && (mux || k == 0) }
    let s2 := if r1.present && r1.answers then s1.setMask (Reg.SURF_MB_CTL_BRANCHES b) k
      else s1.clrMask (Reg.SURF_MB_CTL_BRANCHES b) k
    let same := s.bit (Reg.SURF_SLOT_PRESENT slot.val) == r1.present &&
      (!r1.present || (s.mirOf slot.val == (if r1.answers then r1.mir else []) && s.get (Reg.SURF_SLOT_VERDICT slot.val) != 0))
    .next ((if same then s2 else s2.readSlot slot.val r1).sawSlot slot.val)

/-! ### Surface links (R641–R646) -/

/-- At most one SL_LINK or STALL event to a port or fader and cause in 10 ms (R659). -/
def State.surfEvent (s : State) (key code : Nat) (body : List Nat) : State :=
  let last := Tab.get 0 s.surf.eventAt key
  let now := (s.dom 0).si
  if last ≠ 0 ∧ now < last - 1 + s.samplesMs 0 10 then s
  else (s.modSurf fun x => { x with eventAt := Tab.put 0 x.eventAt key (now + 1) }).postNow .other none code body

def State.slLink (s : State) (p m up : Nat) : State := s.surfEvent (2 * p + up) 0x0143 [p, m, up]

/-- The transfers to a module whose record does not answer are tried 3 times, and each fails (R629, R642). -/
def State.mgmtFailed (s : State) (p : Nat) (r : ModuleRead) : State :=
  if r.present && !r.answers then s.bumpBy (Reg.SURF_SL_CNT_MGMT_ERR p) 3 else s

/-- One module of a chain, judged, its faders ready (R643, R645). -/
def State.enumModule (s : State) (p m : Nat) (r : ModuleRead) : State :=
  let slot := 32 + 4 * p + m
  let s0 := (s.mgmtFailed p r).dropFaders slot
  let s1 := s0.readSlot slot r
  if r.present then
    let s2 := (s1.setMask (Reg.SURF_SL_STATUS_MODULES p) m).slLink p m 1
    if mirClass (s2.mirOf slot) = 1 ∧ s2.slotRefused slot = false then
      (s2.modSurf fun x => { x with live := Tab.put false x.live (slot - 32) true }).each
        ((slotFaders slot).take (mirFaders (s2.mirOf slot))) fun f t =>
          t.putBit (Reg.SURF_FADER_STATE_MOTOR f) (mirMotor (s2.mirOf slot))
    else s2
  else s1.clrMask (Reg.SURF_SL_STATUS_MODULES p) m

/-- R643: the chain ends at the first module that does not answer. -/
def execSlEnumerate (p : Fin 8) (mods : List ModuleRead) (s : State) : Out :=
  if !s.bit (Reg.SURF_SL_CTL_EN p.val) then .next s
  else
    let chain := (mods.take 4).takeWhile (·.present)
    let s1 := s.put (Reg.SURF_SL_STATUS_STATE p.val) 3
    .next ((s1.each (List.range 4) fun m t => t.enumModule p.val m (chain.getD m {})).sawSlot (32 + 4 * p.val))

/-- R660: the port enumerates again; until the verdicts are reached no module has servo frames (R643). -/
def execSlRestart (p : Fin 8) (s : State) : Out := s.ifHost <|
  if s.bit (Reg.SURF_SL_CTL_EN p.val) then
    .next ((s.put (Reg.SURF_SL_STATUS_STATE p.val) 2).each (List.range 4) fun m t => t.dropFaders (32 + 4 * p.val + m))
  else .next s

/-! ### The law (R652–R654) -/

def minus144 : Word := 0xC3100000

/-- The law at n/d of the travel, −144 dB or more (R652, R653). -/
def lawAt (law : List Word) (n d : Nat) : Word :=
  let k := min 15 (16 * n / d)
  let a := Fp.scaled (law.getD k 0)
  let b := Fp.scaled (law.getD (k + 1) 0)
  let v := ratWord (a * d + (b - a) * (16 * n - k * d : Nat)) d 0
  if Fp.val v < Fp.val minus144 then minus144 else v

/-- The position, in mm, of a value: the smallest whose law value it is (R654). `travel` is in 0.1 mm. -/
def targetOf (law : List Word) (travel : Nat) (v : Word) : Word :=
  let x := Fp.scaled v
  let l (k : Nat) : Int := Fp.scaled (law.getD k 0)
  if x ≤ max (l 0) (Fp.scaled minus144) then 0
  else
    match (List.range 16).find? fun k => decide (x ≤ l (k + 1)) with
    | none => ratWord travel 10 Fp.exBias
    | some k => ratWord (travel * (k * (l (k + 1) - l k) + (x - l k))) ((160 * (l (k + 1) - l k)).natAbs) Fp.exBias

/-- Travel in 0.1 mm, and the counts above RAW_MIN and between the stops of a fader (R635, R653). -/
def State.faderScale (s : State) (f raw : Nat) : Nat × Nat × Nat :=
  let l := s.mirOf (faderSlot f)
  let c := mirCal l (f % 8)
  (field (mirCap l 2) 2 2, min (raw - c.1) (c.2 - c.1), max 1 (c.2 - c.1))

def State.posOf (s : State) (f raw : Nat) : Word :=
  let q := s.faderScale f raw
  ratWord (q.1 * q.2.1 : Nat) (10 * q.2.2) Fp.exBias

/-- The value of a fader's position (R653). -/
def State.faderValue (s : State) (f : Nat) : Word :=
  let q := s.faderScale f (s.get (Reg.SURF_FADER_STATE_RAW f))
  lawAt s.surf.law q.2.1 q.2.2

/-- R652: a decreasing table is discarded. -/
def execLawCommit (s : State) : Out := s.ifHost <|
  let l := (List.range 17).map fun k => BitVec.ofNat 32 (s.get (Reg.SURF_LAW_DB k))
  let ok := !l.any Fp.isNaN && (List.range 16).all fun k => decide (Fp.val (l.getD k 0) ≤ Fp.val (l.getD (k + 1) 0))
  .next (if ok then s.modSurf fun x => { x with lawNext := some l } else s.set Reg.SURF_STATUS_CFG_REJ)

/-! ### Faders (R649–R658) -/

/-- The module of a fader does servo frames. -/
def State.faderLive (s : State) (f : Nat) : Bool :=
  Tab.get false s.surf.live (faderSlot f - 32) && decide (f % 8 < mirFaders (s.mirOf (faderSlot f)))

def State.bound (s : State) (f : Nat) : Bool := decide (s.get (Reg.SURF_FADER_BIND_HANDLE f) ≠ 0)

/-- The engine holds the lease or belongs to no pair. -/
def State.mayDrive (s : State) : Bool := decide (s.get Reg.PAIR_STATUS_ROLE < 2)

/-- PERMIT (R649, R658). -/
def State.permit (s : State) (f : Nat) : Bool :=
  s.faderLive f && s.bit (Reg.SURF_FADER_STATE_MOTOR f) && s.bound f && !s.bit (Reg.SURF_FADER_STATE_TOUCH f) &&
  !s.bit (Reg.SURF_FADER_STATE_STALLED f) && s.mayDrive

/-- The distance of two positions exceeds n tenths of a mm. -/
def farther (a b : Word) (n : Nat) : Bool := decide (n * 2 ^ Fp.exBias < 10 * (Fp.scaled a - Fp.scaled b).natAbs)

/-- At least n tenths of a mm. -/
def apart (a b : Word) (n : Nat) : Bool := decide (n * 2 ^ Fp.exBias ≤ 10 * (Fp.scaled a - Fp.scaled b).natAbs)

/-- One FADER event (R657, R659). -/
def State.faderEvent (s : State) (f : Nat) : State :=
  (s.postNow .other none 0x0140 [f, s.get (Reg.SURF_FADER_BIND_HANDLE f), (s.fader f).lastValue.toNat]).modFader f fun x =>
    { x with lastEvent := some s.surf.period }

/-- The state of a bound fader in this period (R655), and the count of R658. -/
def State.faderState (s : State) (f : Nat) : State :=
  let x := s.fader f
  let raw := s.get (Reg.SURF_FADER_STATE_RAW f)
  let moved := decide (2 ≤ ((raw : Int) - (x.lastRaw : Int)).natAbs)
  let touch := s.bit (Reg.SURF_FADER_STATE_TOUCH f)
  let control := s.bound f && (touch ||
    (!mirTouch (s.mirOf (faderSlot f)) && !s.bit (Reg.SURF_FADER_STATE_PICKUP f) && moved))
  let was := s.bit (Reg.SURF_FADER_STATE_CONTROL f)
  let gap := farther x.pos x.target 5
  let s1 := s.putBit (Reg.SURF_FADER_STATE_CONTROL f) control
  let s2 :=
    if control then s1.put (Reg.SURF_FADER_STATE_PICKUP f) 0
    else if was then
      ((if s.bound f then s1.faderEvent f else s1).modFader f fun y => { y with fresh := true }).put (Reg.SURF_FADER_STATE_PICKUP f) 0
    else s1.putBit (Reg.SURF_FADER_STATE_PICKUP f) (s.bound f && gap)
  let s3 := if s2.bit (Reg.SURF_FADER_STATE_STALLED f) && (touch || apart x.target x.stallTarget 10) then
      s2.put (Reg.SURF_FADER_STATE_STALLED f) 0 else s2
  let stuck := s3.permit f && s3.bit (Reg.SURF_FADER_STATE_EN_SENT f) && farther x.pos x.target 10
  s3.modFader f fun y =>
    if s3.bit (Reg.SURF_FADER_STATE_STALLED f) then y
    else if !stuck then { y with stallCount := 0 }
    else if y.stallCount = 0 ∨ apart y.pos y.stallPos 5 then { y with stallCount := 1, stallPos := y.pos }
    else { y with stallCount := y.stallCount + 1 }

/-- The input record of a fader (R649). -/
def State.faderRecord (s : State) (f : Nat) : List Byte :=
  let x := s.fader f
  let c := mirCap (s.mirOf (faderSlot f)) 2
  let n (k : Nat) : Nat := (Fp.ofInt (BitVec.ofNat 32 k)).toNat
  let b (v : Bool) (k : Nat) : Nat := if v then 2 ^ k else 0
  let live := s.faderLive f
  let flags := b live 0 + b (s.bit (Reg.SURF_FADER_STATE_MOTOR f)) 1 + b (s.bit (Reg.SURF_FADER_STATE_TOUCH f)) 2 +
    b (s.bit (Reg.SURF_FADER_STATE_PICKUP f)) 3 + b (s.bit (Reg.SURF_FADER_STATE_STALLED f)) 4 + b (s.bound f) 5 + b (s.permit f) 6
  (([x.pos.toNat, x.target.toNat, x.targetPrev.toNat, n (field c 4 2), n (10 * field c 6 2), n (1000 * field c 8 2), flags,
     s.get (Reg.SURF_FADER_STATE_RAW f)]).map (natToBytes 4)).flatten

/-- The record written into the local memory of the fader's servo unit. -/
def State.writeRecord (s : State) (f : Nat) : State :=
  { s with lmem := Memory.writeBytes s.lmem (lmemAddr (512 + f / 64) (0xA040 + 32 * (f % 64))) (s.faderRecord f) }

/-- TARGET of a period (R654, R419). -/
def State.aim (s : State) (f : Nat) : State :=
  if s.bound f && s.faderLive f then
    let v := s.valueAt (s.get (Reg.SURF_FADER_BIND_HANDLE f)) (s.siTo (s.handleDomain (s.get (Reg.SURF_FADER_BIND_HANDLE f))) s.surf.si)
    let t := targetOf s.surf.law (s.faderScale f 0).1 v
    s.modFader f fun x => { x with target := t, targetPrev := x.target }
  else s

/-- A servo unit starts its firing (R647–R649, R175). -/
def State.startServo (s : State) (k : Nat) : State :=
  match s.active with
  | none => s
  | some i =>
    if i.servoProg.isSome && !Nat.testBit (s.get Reg.SURF_SERVO_STATUS_QUAR) k then
      let e : FiringEntry := { entries := [i.servoEntries.getD k 0], tvecs := [i.servoTvecs.getD k 0], tens := [i.servoTens.getD k 0] }
      let hdr := natToBytes 4 s.surf.period ++ natToBytes 4 0 ++ natToBytes 8 s.surf.si
      let s1 : State := { s with lmem := Memory.writeBytes s.lmem (lmemAddr (512 + k) 0xA000) hdr }
      (s1.each (List.range 64) fun j t => t.writeRecord (64 * k + j)).modUnit (512 + k) (startUnit e 0 s.surf.si)
    else s

/-- Servo units whose re-admission is due return (R162, R650). -/
def State.readmitServos (s : State) : State :=
  let due (r : Readmit) : List Nat := if r.target ≤ s.surf.si then r.servos else []
  let back (k : Nat) (t : State) : State :=
    let t1 := (t.clrMask Reg.SURF_SERVO_STATUS_QUAR k).put (Reg.SURF_SERVO_CYC_HWM_CYCLES k) 0
    match t1.active with
    | some i => (match i.servoProg with | some dg => t1.loadUnit (512 + k) dg | none => t1)
    | none => t1
  let rest := s.sched.readmits.map fun r => { r with servos := r.servos.filter fun k => !(due r).contains k }
  let fin (r : Readmit) : Bool := r.clusters.isEmpty && r.servos.isEmpty
  let s1 := s.each s.sched.readmits fun r t => t.each (due r) back
  (s1.modSched fun q => { q with readmits := rest.filter fun r => !fin r }).each (rest.filter fin) fun r t =>
    t.finish r.hdr 0x0602 (if r.late then .late else .ok) 0 s.surf.si 0

/-- R644: SYNC and SERVO_DN go out with the drive of the period before; the period's targets stand from here, and the servo
firings work on the records as the SERVO_UP frames fill them. -/
def execServoCycle (si : BitVec 64) (s : State) : Out :=
  let s1 := s.modSurf fun x =>
    { x with period := (x.period + 1) % 2 ^ 32, si := si.toNat, law := x.lawNext.getD x.law, lawNext := none, released := [] }
  let s2 := s1.each (List.range 256) fun f t =>
    t.putBit (Reg.SURF_FADER_STATE_EN_SENT f) (Nat.testBit (Tab.get 0 t.surf.drive f) 11 && t.permit f)
  let s3 := s2.each (List.range 256) fun f t => t.aim f
  .next (s3.readmitServos.each (List.range 4) fun k t => t.startServo k)

/-- R645, R653, R655: the positions and touch states of a module, or a missing or faulty frame. -/
def execServoUpReceived (p : Fin 8) (m : Fin 4) (u : Option ServoUp) (s : State) : Out :=
  let k := 4 * p.val + m.val
  let slot := 32 + k
  if !Tab.get false s.surf.live k then .next s
  else
    let fs := (slotFaders slot).take (mirFaders (s.mirOf slot))
    let s1 := match u with
      | none => (s.modSurf fun x => { x with faults := Tab.put 0 x.faults k (Tab.get 0 x.faults k + 1) }).bump
          (Reg.SURF_SL_CNT_UP_ERR p.val)
      | some w => (s.modSurf fun x => { x with faults := Tab.put 0 x.faults k 0 }).each fs fun f t =>
          let v := w.faders.getD (f % 8) (0, false, false)
          if v.2.2 then
            let t1 := (t.put (Reg.SURF_FADER_STATE_RAW f) v.1).putBit (Reg.SURF_FADER_STATE_TOUCH f) v.2.1
            let pos := t1.posOf f (v.1 % 4096)
            t1.modFader f fun x =>
              let x1 : FaderSt := if x.valid then x else { x with valid := true, lastRaw := v.1 % 4096 }
              { x1 with pos := pos }
          else t
    .next (s1.each fs fun f t => if (t.fader f).valid then (t.faderState f).writeRecord f else t)

/-- R645. -/
def execModuleLost (p : Fin 8) (m : Fin 4) (s : State) : Out :=
  let k := 4 * p.val + m.val
  if Tab.get false s.surf.live k = true ∧ 4 ≤ Tab.get 0 s.surf.faults k then
    .next ((((s.dropFaders (32 + k)).setMask (Reg.SURF_SL_STATUS_LOST p.val) m.val).clrMask
      (Reg.SURF_SL_STATUS_MODULES p.val) m.val).slLink p.val m.val 0)
  else .next s

/-- R646: a touch is answered with RELEASE_DN, and the drive drops. -/
def execTouchUpReceived (f : Fin 256) (touched : Bool) (s : State) : Out :=
  if !s.faderLive f.val then .next s
  else
    let s1 := s.putBit (Reg.SURF_FADER_STATE_TOUCH f.val) touched
    .next (if touched then
      ((s1.put (Reg.SURF_FADER_STATE_STALLED f.val) 0).put (Reg.SURF_FADER_STATE_PICKUP f.val) 0).modSurf fun x =>
        { x with released := x.released ++ [f.val], drive := Tab.put 0 x.drive f.val 0 }
    else s1)

/-- A fader in CONTROL issues its change (R656, R657). -/
def State.faderChange (s : State) (f : Nat) : State :=
  let x := s.fader f
  let raw := s.get (Reg.SURF_FADER_STATE_RAW f)
  let h := s.get (Reg.SURF_FADER_BIND_HANDLE f)
  if s.bit (Reg.SURF_FADER_STATE_CONTROL f) && s.bound f && s.mayDrive &&
      (x.fresh || decide (2 ≤ ((raw : Int) - (x.lastRaw : Int)).natAbs)) then
    let v := s.faderValue f
    let len := if x.fresh then 0 else s.samplesMs (s.handleDomain h) RampClass.gain.ms.1
    let s1 := (s.paramSet 0 len false .inline [{ handle := h, value := v }] []).1
    let s2 := s1.modFader f fun y => { y with fresh := false, lastRaw := raw, lastValue := v }
    match x.lastEvent with
    | some e => if s.surf.period < e + 40 then s2 else s2.faderEvent f
    | none => s2.faderEvent f
  else s

/-- The cycle budget that the active schedule gives a servo unit (R648). -/
def State.servoBudget (s : State) (k : Nat) : Nat := ((s.active.map (·.servoBudgets)).getD []).getD k 0

/-- R644, R649, R656: the drive of each fader is latched, and faders in CONTROL issue their changes in fader order. A firing that has
gone past its budget is cut (R650). -/
def execServoFiringEnd (k : Fin 4) (s : State) : Out :=
  let run := Nat.testBit (s.get Reg.SURF_SERVO_STATUS_RUNNING) k.val && !Nat.testBit (s.get Reg.SURF_SERVO_STATUS_QUAR) k.val
  let x := s.unit (512 + k.val)
  if run && x.wait != .halted then .next s
  else if run && decide (s.servoBudget k.val < x.cyc) then .next (s.servoCut k.val)
  else
    let fs := (List.range 64).map fun i => 64 * k.val + i
    let word (t : State) (f : Nat) : Nat :=
      if run then
        let w := (Memory.read32 t.lmem (lmemAddr (512 + k.val) (0xA900 + 4 * (f % 64)))).toNat % 2 ^ 13
        if Nat.testBit w 11 && !t.permit f then w - 2 ^ 11 else w
      else 0
    let s1 := s.each fs fun f t => t.modSurf fun y => { y with drive := Tab.put 0 y.drive f (word t f) }
    let s2 := if run then (s1.put (Reg.SURF_SERVO_CYC_LAST_CYCLES k.val) x.cyc).raise (Reg.SURF_SERVO_CYC_HWM_CYCLES k.val) x.cyc
      else s1
    .next (s2.each fs fun f t => t.faderChange f)

/-- R650: the budget of a servo firing is used up. -/
def execServoCut (k : Fin 4) (s : State) : Out :=
  if (s.unit (512 + k.val)).wait = .halted ∨ (s.unit (512 + k.val)).cyc < s.servoBudget k.val then .next s
  else .next (s.servoCut k.val)

/-- R658. -/
def execFaderStall (f : Fin 256) (s : State) : Out :=
  if s.permit f.val = true ∧ 400 ≤ (s.fader f.val).stallCount then
    let s1 := (s.set (Reg.SURF_FADER_STATE_STALLED f.val)).modFader f.val fun x =>
      { x with stallCount := 0, stallTarget := x.target }
    .next ((s1.modSurf fun x => { x with drive := Tab.put 0 x.drive f.val 0 }).surfEvent (16 + f.val) 0x0141 [f.val])
  else .next s

/-- R660: the counters of the SURF block. -/
def execSurfCntClr (s : State) : Out := s.ifHost <|
  .next (s.clear ((List.range 8).map Reg.SURF_SL_CNT_UP_ERR ++ (List.range 8).map Reg.SURF_SL_CNT_MGMT_ERR ++
    (List.range 4).map Reg.SURF_SERVO_CYC_HWM_CYCLES))

end Sys2Proof.Machine
end

