-- ==== Sys2Proof/Machine/Edge.lean ====
section
/-! DEFINITION. The transmit gate at the outputs (R378, R591, R619, R695, R765). -/

namespace Sys2Proof.Machine

/-- The outputs follow the gate that has just moved: AES3 transmitters show it, and DACs and power stages ramp over 2 ms. -/
def State.followGate (s : State) (closed : Bool) : State :=
  let s2 := s.showGated.each (List.range 2) fun n t => t.modConv (2 + n) fun x =>
    { x with txGate := gateTo x.txGate closed t.conv2ms (t.convSi 0) }
  s2.each (List.range 2) fun c t => t.modPs c fun x =>
    { x with txGate := gateTo x.txGate closed (t.samplesMs t.psDom 2) (t.dom t.psDom).si }

def State.modPair (s : State) (f : PairSt → PairSt) : State := { s with pair := f s.pair }

/-- PAIR_STATE (R786) with a cause and a status. -/
def State.pairEvent (s : State) (cause : Nat) (st : Status) : State :=
  s.post .fault (some 60)
    { code := 0x180, status := st, si := (s.dom 0).si,
      body := [s.get Reg.PAIR_STATUS_ROLE, cause, st.code, s.get Reg.PAIR_EPOCH_EPOCH] }

/-- The gate goes down, whatever the engine's role (R765). -/
def State.gateDown (s : State) : State :=
  if s.bit Reg.PAIR_STATUS_GATE_OPEN then (s.put Reg.PAIR_STATUS_GATE_OPEN 0).followGate true else s

/-- R764, R765: the gate closes; a holder whose gate closes becomes CUT. -/
def State.closeGate (s : State) : State :=
  let s1 := s.gateDown
  if s.get Reg.PAIR_STATUS_ROLE = 1 then (s1.put Reg.PAIR_STATUS_ROLE 3).pairEvent 6 .ok else s1

/-- Nothing but the pair lease keeps the gate closed (R378, R695). -/
def State.gateFree (s : State) : Bool := !s.pair.refxoGate && !s.bit Reg.PWR_STATUS_HOLD

def State.openGate (s : State) : State :=
  if s.gateFree && !s.bit Reg.PAIR_STATUS_GATE_OPEN then (s.set Reg.PAIR_STATUS_GATE_OPEN).followGate false else s

/-- An engine that no pair governs, or that holds the lease, opens its gate once nothing else closes it. -/
def State.reopenGate (s : State) : State := if s.get Reg.PAIR_STATUS_ROLE < 2 then s.openGate else s

/-- R378: REF_XO has stopped or departed: sticky until power-up. -/
def execRefxoFail (s : State) : Out :=
  if s.bit Reg.CLK_STATUS_REFXO_FAIL then .next s
  else
    let s1 : State := { (s.set Reg.CLK_STATUS_REFXO_FAIL).put Reg.CLK_STATUS_REFXO_OK 0 with pair := { s.pair with refxoGate := true } }
    .next (s1.closeGate.postNow .fault (some 57) 0x14 [])

end Sys2Proof.Machine
end

