-- ==== Sys2Proof/Machine/Range.lean ====
section
/-! DEFINITION. The switch of a domain to the armed schedule, and a change of its range (R150, R153, R155, R719–R721). -/

namespace Sys2Proof.Machine

/-- A domain that a schedule first gives work emits: its start gain, which only step 8 of a start ramps, stands at full level, and its
outputs rise by the ramp of the switch (R153, R716, log entry 154). -/
def State.openDomain (s : State) (d : Nat) : State :=
  State.showGated { s with pwr := { s.pwr with unmute := Tab.put none s.pwr.unmute d (some ((Tab.get none s.pwr.unmute d).getD {})) } }

/-- A domain takes the rate and block of its share: one that was not configured, whose MPLL starts, or a first schedule's (R108, R379). The boundary
that follows is a multiple of its own B. -/
def State.configureDomain (s : State) (i : SchedImage) (d : Nat) : State :=
  match shareOf i d with
  | none =>
    let s1 := s.modDom d fun x => { x with configured := decide (d = 0), running := decide (d = 0) }
    if d ≠ 0 ∧ (s.dom d).configured = true then (s1.stopMpll d).loseFrames else s1
  | some x =>
    let y := s.dom d
    if y.configured && y.rate == x.rate && y.block == x.block then s.modDom d fun z => { z with running := true }
    else
      let b := max 1 x.block
      let si := ((s.dom 0).si * x.rate / max 1 (s.dom 0).rate + b - 1) / b * b
      let s1 := s.modDom d fun z => { z with configured := true, rate := x.rate, block := x.block, si := si, begun := si, running := true,
                                             pull := x.pull }
      if y.configured then s1 else s1.startMpll d

/-- The spare of a region: the lowest physical cluster whose logical cluster the image gives no firing (R780). -/
def State.spareIn (s : State) (i : SchedImage) (g : Nat) : Nat :=
  ((List.range 8).find? fun k => (firingsOf i (s.logical (8 * g + k))).isEmpty).getD 7

/-- Whether a region rotates, and its spare, as BIST_ROT shows them (R788). -/
def State.showRotation (s : State) (i : SchedImage) (d : Nat) : State :=
  s.each (i.regions.filter fun r => decide (r.domain.map (·.val) = some d)) fun r t =>
    ((t.putBit (Reg.BIST_ROT_RG_ENABLED r.region.val) r.rotation.isSome).put (Reg.BIST_ROT_RG_N r.region.val)
      (r.rotation.getD 0)).put (Reg.BIST_ROT_RG_SPARE r.region.val) (t.spareIn i r.region.val)

/-- Sequencer entries of a domain in the places that a schedule gives their handles: one for each cluster that has a slot for it
(R61, R295). -/
def State.placeEntries (s : State) (n : SchedImage) (d : Nat) (l : List Change) : List Change :=
  let same (a b : Change) : Bool := a.handle == b.handle && a.target == b.target && a.rank == b.rank && a.order == b.order
  let first := l.foldl (fun m c => if m.any (same c) then m else m ++ [c]) []
  first.flatMap fun c =>
    if objectDomain n c.handle ≠ d ∧ s.clusterDomain c.cluster ≠ d then l.filter (same c)
    else
      match n.slots.filter fun x => x.handle == c.handle with
      | [] => [{ c with cluster := (match placeOf n c.handle with | some o => s.physical o.cluster.val | none => 64), slot := none }]
      | m => m.map fun x => { c with cluster := s.physical x.cluster.val, slot := some x.addr }

/-- Queued and running changes and crossfades of a domain go on under the schedule it switches to (R61, R147). -/
def State.placeTimed (s : State) (n : SchedImage) (d : Nat) : State :=
  s.modMix fun m => { m with
    changes := s.placeEntries n d m.changes,
    fades := m.fades.map fun x => if x.domain = d then (x.under n (s.dom d).block).getD x else x }

/-- R150, R153, R155: a domain makes the switch to the pending schedule. -/
def State.makeSwitch (s : State) (n : SchedImage) (d : Nat) (fade : Bool) : State :=
  let old := s.active
  let ch := s.changedClusters old (some n) d
  let gone := match old with | some o => s.leaving o n d | none => []
  let s1 := if fade then s.each gone fun c t => t.fadeOld old n c d else s
  let s2 := s1.modSched fun q => { q with toLoad := (q.toLoad.filter fun c => !ch.contains c) ++ ch }
  let s3 := ((((s2.configureDomain n d).openDomain d).setPoints n d).showRotation n d).newStrips n
  let s4 := s3.modMix fun m =>
    { m with meters := m.meters.map fun x => (x.1, x.2.map fun y => { y with restart := true }) }
  let s5 := (if d = 0 then s4.loadServos n else s4).placeTimed n d
  let left := s.sched.toSwitch.filter (· ≠ d)
  if left.isEmpty then
    let s6 := s5.modSched fun q => { (q.setBank q.active.val {}) with active := 1 - q.active, toSwitch := [] }
    let s7 := s6.modSched fun q => q.setBank q.active.val { (q.bank q.active.val) with armed := false, hdr := none }
    (s7.put Reg.SCHED_STATUS_PENDING 0).put Reg.SCHED_STATUS_ACTIVE_BANK s7.sched.active.val
  else s5.modSched fun q => { q with toSwitch := left }

/-- The pending image came with the roast form. -/
def Bank.roast (k : Bank) : Bool := (k.hdr.getD {}).flags % 2 == 1

/-- The destinations that a synchronous bridge feeds from a domain, with their own domains (R720). -/
def State.fedFrom (s : State) (d : Nat) : List (Nat × Nat) :=
  match s.active with
  | none => []
  | some i => (s.patched i).filter fun e => e.2 != d && (match s.syncFor i (s.patchAt e.1 (s.dom e.2).si) e.2 with
      | some b => b.src.val == d
      | none => false)

/-- The destinations that a synchronous bridge feeds from a domain ramp with those of the domain (R720). -/
def State.rampFed (s : State) (d : Nat) (down : Bool) : State :=
  let at_ (t : State) (e : Nat) : Nat := t.siTo e (t.toP d (t.dom d).si)
  let move (k e : Nat) (t : State) : State :=
    { t with pwr := { t.pwr with gain := Tab.upd {} t.pwr.gain k fun g => gateTo g down (t.samplesMs e 5) (at_ t e) } }
  if down then s.each (s.fedFrom d) fun e t => move (fedGate d e.1 e.2) e.2 t
  else s.each ((s.pwr.gain.map (·.1)).filter fun k => decide (16 ≤ k) && k / 4 % 4 == d) fun k t => move k (k % 4) t

/-- R720, step 1: the outputs of the domain ramp down, and so do those that a synchronous bridge feeds from it. -/
def State.beginRange (s : State) (n : SchedImage) (d : Nat) : State :=
  let x := (shareOf n d).getD {}
  let s1 : State := { s with pwr := { s.pwr with
    range := Tab.put 0 s.pwr.range d 1,
    gain := Tab.upd {} s.pwr.gain d fun g => gateTo g true (s.samplesMs d 5) (s.dom d).si } }
  (s1.rampFed d true).postNow .other none 0x0162 [d, 1, x.rate, x.block]

/-- R150, R720: a domain switches at its first boundary at or after the switch SI; a change of its range begins there. A domain
to which the new schedule first gives work has no boundary of its own yet: it is configured at domain P's boundary. The frame that
begins at the boundary is the first under the new schedule, so the block before it is the first that the new firings handle
(DEDUCED, log entry 126). -/
def execScheduleSwitch (d : Fin 3) (s : State) : Out :=
  let k := s.pendingBank
  match k.image with
  | none => .next s
  | some n =>
    let reached := if (s.dom d.val).configured then decide (s.siTo d.val k.switchSi ≤ (s.dom d.val).si)
      else decide (k.switchSi ≤ (s.dom 0).si)
    if k.armed && s.sched.toSwitch.contains d.val && reached then
      if rangeChanges s.active n k.roast d.val then
        .next (if Tab.get 0 s.pwr.range d.val = 0 then s.beginRange n d.val else s)
      else .next (s.makeSwitch n d.val true)
    else .next s

/-- R720, step 2: at the first boundary after the ramp the pipeline and the region clocks stop. -/
def execRangePipelineStop (d : Fin 3) (s : State) : Out :=
  let g := Tab.get {} s.pwr.gain d.val
  if Tab.get 0 s.pwr.range d.val = 1 ∧ g.start + s.samplesMs d.val 5 ≤ (s.dom d.val).si + g.base then
    let s1 : State := { s with pwr := { s.pwr with range := Tab.put 0 s.pwr.range d.val 2 } }
    let mine := (List.range 8).filter fun r => match s.active with | some i => decide (domainOf i r = some d.val) | none => false
    .next ((s1.modDom d.val fun x => { x with running := false }).each mine fun r t =>
      ((t.put (Reg.FABRIC_RG_CLK_RUNNING r) 0).put (Reg.FABRIC_RG_CLK_LOCKED r) 0).modRegion r fun x => { x with starting := false })
  else .next s

/-- The restart boundary (R720, step 4): the first multiple of the new B at least H after the stop; on the roast form, by
the pulled time of the instant. -/
def restartSi (stop old new block hMs : Nat) : Nat :=
  let b := max 1 block
  let at_ := ceilDiv (stop * new * 1000 + hMs * new * old) (1000 * max 1 old)
  ceilDiv at_ b * b

/-- Stage offsets of a domain whose B has changed, taken again (R287, R288). -/
def State.restage (s : State) (d : Nat) : State :=
  let s1 := s.modMix fun m => { m with stageIn := m.stageIn.filter (fun x => x.domain != d),
                                       stageOut := m.stageOut.filter fun x => x.domain != d }
  s1.stageNow d

/-- Signals and delay lines of a domain that restarts begin empty. -/
def State.restartStd (s : State) (d : Nat) : State :=
  s.modStd fun q => { q with out := [], line := q.line.filter fun e => decide (s.handleDomain e.1 ≠ d) }

/-- Timed items of a domain whose target has passed before an SI wait for it and are late (R60, R695, R721). -/
def State.lateBefore (s : State) (d restart : Nat) : State :=
  let s1 := s.modMix fun m => { m with
    changes := m.changes.map fun c => if s.clusterDomain c.cluster == d && !c.applied then { c with target := max restart c.target } else c,
    patchChanges := m.patchChanges.map fun c => if c.domain = d then { c with target := max restart c.target } else c,
    waits := m.waits.map fun w => if (d == 0 && decide (w.si < restart) && w.status == Status.ok) = true then { w with si := restart, status := .late } else w }
  if d ≠ 0 then s1 else
    { s1 with pours := { s1.pours with live := s1.pours.live.map fun p =>
        if p.phase = .armed ∧ p.t < restart then { p with t := restart, late := true } else p } }

/-- Queued items of a domain whose SI has changed (R721): those before the restart boundary are late and wait for it. -/
def State.convertItems (s : State) (d old new restart : Nat) : State :=
  let plain (x : Nat) : Nat := x * new / max 1 old
  let mine {α : Type} (l : Tab α) (src : Bool) : Tab α := l.filter fun e =>
    match s.active with | some i => decide (s.addrDomain i src e.1 ≠ some d) | none => true
  ((s.modMix fun m => { m with rx := mine m.rx true, tx := mine m.tx false }).mapSi d plain).lateBefore d restart

/-- R720, steps 3 to 5, and the settling of step 6. `si` is the restart boundary's count of pulled PTP time, which the roast
form takes. -/
def execRangeRestart (d : Fin 3) (si : BitVec 64) (s : State) : Out :=
  let k := s.pendingBank
  match k.image with
  | none => .next s
  | some n =>
    match shareOf n d.val with
    | none => .next s
    | some x =>
      if Tab.get 0 s.pwr.range d.val ≠ 2 then .next s
      else
        let y := s.dom d.val
        let sameHz := frameHz y.rate == frameHz x.rate
        let b := max 1 x.block
        let r := if k.roast then ceilDiv si.toNat b * b else restartSi y.si y.rate x.rate x.block (if sameHz then 1 else 10)
        let s1 := (s.convertItems d.val y.rate x.rate r).modDom d.val fun z =>
          { z with rate := x.rate, block := x.block, si := r, begun := r, running := true,
                   pull := if k.roast then x.pull else z.pull }
        let s2 := if k.roast then s1.modMpll d.val fun m => { m with offset := x.pull }
          else if sameHz then s1 else (s1.enterAcquire d.val).unalign d.val
        let s3 := if s2.get (Reg.CLK_MPLL_STATE_STATE d.val) = locked ∧ s.get Reg.TIME_STATUS_LOCAL = 0 then
          s2.setMask Reg.TIME_STATUS_ALIGNED d.val else s2
        let s4 := ((s3.makeSwitch n d.val false).restage d.val).restartStd d.val
        let s5 : State := { s4 with pwr := { s4.pwr with range := Tab.put 0 s4.pwr.range d.val (3 + (r + 2 * b)) } }
        let s6 := if s5.convDom = d.val then s5.each (List.range 4) fun c t => t.unsettle c else s5
        .next (s6.each (s6.audio.asrc.map (·.1)) fun a t =>
          match t.active with
          | some i => if t.addrDomain i true a = some d.val then t.restartAsrc a else t
          | none => t)

/-- R720, step 6: at the boundary of the first emitted block the outputs ramp up. -/
def State.endRange (s : State) (d : Nat) : State :=
  let r := Tab.get 0 s.pwr.range d
  if 3 ≤ r ∧ r - 3 ≤ (s.dom d).si then
    let s1 : State := { s with pwr := { s.pwr with
      range := Tab.put 0 s.pwr.range d 0,
      gain := Tab.upd {} s.pwr.gain d fun g => gateTo g false (s.samplesMs d 5) (s.dom d).si } }
    (s1.rampFed d false).postNow .other none 0x0162 [d, 2, (s.dom d).rate, (s.dom d).block]
  else s

end Sys2Proof.Machine
end

