-- ==== Sys2Proof/Machine/Store.lean ====
section
/-! DEFINITION. The track store: drives, takes, the journal, plays, export and import (R661–R692). -/

namespace Sys2Proof.Machine

def State.modStore (s : State) (f : StoreSt → StoreSt) : State := { s with store := f s.store }

/-- Samples of a chunk and of an extent (R665, R678). -/
def chunkLen : Nat := 32768
def chunksPerExtent : Nat := 32

def State.storeOn (s : State) : Bool :=
  decide (s.get Reg.STORE_STATUS_STATE = 1) || decide (s.get Reg.STORE_STATUS_STATE = 2)

def State.present (s : State) (m : Nat) : Bool := Nat.testBit (s.get Reg.STORE_MEMBERS_PRESENT) m

/-- Members present, in member order. -/
def State.members (s : State) : List Nat := (List.range 8).filter s.present

/-! ### Commands to the drives (R662, R665) -/

/-- Depth of the one I/O queue pair of a controller, and the one namespace that is used (R662). -/
def nvmeDepth : Nat := 256
def nvmeNs : Nat := 1

/-- First LBA of the journal area and of the data area, LBAs of a superblock area and of an extent (R665). -/
def journalBase : Nat := 65536
def dataBase : Nat := 131072
def superLbas : Nat := 32768
def extentLbas : Nat := 1024

/-- What the engine asks of a controller that it enumerates: it is identified, and one it accepts has its queue pair (R661–R663). How
often it is asked the same the manual leaves open (log entry 139). -/
def enumerate (usable : Bool) : List NvmeOp :=
  if usable then [.identify, .setQueues, .createCq nvmeDepth, .createSq nvmeDepth] else [.identify]

/-- The drive that holds a member of the mounted store. -/
def State.driveOf (s : State) (m : Nat) : Nat :=
  match s.store.drives.find? fun e => match e.2 with | some d => d.store == s.store.store && d.index == m | none => false with
  | some e => e.1
  | none => 0

/-- An event of the store sends commands to members. -/
def State.sendDrives (s : State) (l : List (Nat × NvmeOp)) : State :=
  s.modStore fun x => { x with issued := l.map fun e => (s.driveOf e.1, e.2) }

/-- LBAs of a journal copy, and the copies: members 0 and 1, or the two halves of the journal area of member 0 (R665). -/
def State.journalLbas (s : State) : Nat := if s.get Reg.STORE_MEMBERS_COUNT = 1 then 32768 else 65536

def State.journalCopies (s : State) : List (Nat × Nat) :=
  if s.get Reg.STORE_MEMBERS_COUNT = 1 then [(0, journalBase), (0, journalBase + 32768)]
  else ([0, 1].filter s.present).map fun m => (m, journalBase)

/-- The header of the area of a generation on every member: which area the first generation takes the manual leaves open (log entry
139). -/
def State.headerWrites (s : State) (generation : Nat) : List (Nat × NvmeOp) :=
  s.members.map fun m => (m, .write nvmeNs (generation % 2 * superLbas) 1)

/-! ### Takes on the drives -/

def Take.ends (t : Take) : Nat := t.inSi + t.fill

/-- The member that holds a chunk of a track (R678). -/
def Take.memberOf (t : Take) (track chunk : Nat) : Option Nat :=
  t.members[(track + chunk / chunksPerExtent) % max 1 t.members.length]?

/-- Extents of a track on a member. -/
def Take.extentsOn (t : Take) (track m : Nat) : Nat :=
  ((List.range (ceilDiv (Tab.get 0 t.written track) chunksPerExtent)).filter fun n =>
    t.memberOf track (n * chunksPerExtent) == some m).length

def Take.uses (t : Take) (m : Nat) : Nat := (t.tracks.map fun k => t.extentsOn k m).sum

/-- A chunk can be read: it was written, it is no gap, and its member is present (R683). -/
def State.readable (s : State) (t : Take) (track chunk : Nat) : Bool :=
  decide (chunk < Tab.get 0 t.written track) && !t.gaps.contains (track, chunk) &&
  (match t.memberOf track chunk with | some m => s.present m | none => false)

/-- STORE_FREE (R692): extents of the present members that no take uses. -/
def State.showFree (s : State) : State :=
  s.put Reg.STORE_FREE_EXTENTS ((s.members.map fun m =>
    ((s.store.drives.filterMap (·.2)).filter (fun d => d.store == s.store.store && d.index == m)).foldl (fun n d => n + d.extents) 0 -
      (s.store.takes.map fun t => t.uses m).sum).sum)

/-- Extents of a member's data area that hold nothing, as the allocation map has them (R666). -/
def State.placesUsed (s : State) (m : Nat) : List Nat :=
  s.store.takes.flatMap fun t => t.places.filterMap fun e =>
    if t.memberOf (e.1 / 2 ^ 32) (e.1 % 2 ^ 32 * chunksPerExtent) = some m then some e.2 else none

/-- An extent for a chunk that begins one: which of the free ones the manual leaves open, and the place is a free value. -/
def State.placeFor (s : State) (m : Nat) : Nat :=
  let size := ((s.store.drives.filterMap (·.2)).filter fun d => d.store == s.store.store && d.index == m).foldl (fun n d => n + d.extents) 0
  let used := s.placesUsed m
  let free := (List.range size).filter fun k => !used.contains k
  free.getD (s.free.toNat % max 1 free.length) size

/-- First LBA of a chunk (R665, R678). -/
def Take.chunkLba (t : Take) (track chunk : Nat) : Nat :=
  dataBase + Tab.get 0 t.places (track * 2 ^ 32 + chunk / chunksPerExtent) * extentLbas + chunk % chunksPerExtent * 32

def State.modTake (s : State) (no : Nat) (f : Take → Take) : State :=
  s.modStore fun x => { x with takes := x.takes.map fun t => if t.no = some no then f t else t }

def State.take? (s : State) (no : Nat) : Option Take := s.store.takes.find? fun t => t.no == some no

/-- Open or armed (R675). -/
def Take.live (t : Take) : Bool := !t.closed

def State.countTracks (s : State) : State :=
  (s.put Reg.STORE_ACTIVE_REC ((s.store.takes.filter (·.open_)).map (·.tracks.length)).sum).put Reg.STORE_ACTIVE_PLAY
    (s.store.plays.filter (·.started)).length

/-- The store commands are refused (R670, R766). -/
def State.storeBar (s : State) : Bool := s.standby || decide (s.get Reg.STORE_STATUS_STATE = 3)

def State.storeIdle (s : State) : Bool := s.store.takes.all (fun t => t.closed) && s.store.plays.isEmpty

/-! ### Mounting (R669, R670, R684, R685) -/

/-- Open takes end at a point: at the fill of their last committed record (R669, R684). -/
def Take.atJournal (t : Take) : Take :=
  { t with fill := t.journaled, open_ := false, closed := true, outSi := some (t.inSi + t.journaled) }

/-- The directory after a replay: takes that it leaves open are recovered, and a punch-out that waited for one of them is aborted
(R669; log entry 161). -/
def State.recover (s : State) : State :=
  let wasOpen := s.store.takes.any (·.open_)
  let s1 := s.modStore fun x => { x with
    takes := x.takes.map fun t => if t.open_ then { t.atJournal with recovered := true, outHdr := none } else t,
    journalCut := false }
  let s2 := s1.each (s.store.takes.filter (·.open_)) fun t u =>
    match t.outHdr with
    | some (h, _) => u.finish h 0x0711 .aborted 0 (u.toP t.domain (t.inSi + t.journaled)) 0
    | none => u
  if wasOpen then s2.set Reg.STORE_STATUS_RECOVERED else s2

/-- Keys as the TRNG gives them (R671). -/
def State.drawKeys (s : State) : StoreKeys :=
  let x (k : Nat) : Nat := (Config.freeValue (s.ctr + k)).toNat
  let word (a n : Nat) : Nat := (List.range n).foldl (fun w k => w + x (a + k) * 2 ^ (64 * k)) 0
  ⟨BitVec.ofNat 512 (word 0 8), BitVec.ofNat 256 (word 8 4)⟩

/-- What a mount reads: both superblock headers of every member, and the journal copies (R669). -/
def State.mountReads (s : State) : List (Nat × NvmeOp) :=
  (s.members.flatMap fun m => [(m, NvmeOp.read nvmeNs 0 1), (m, .read nvmeNs superLbas 1)]) ++
    s.journalCopies.map fun c => (c.1, .read nvmeNs c.2 s.journalLbas)

/-- STATE, PRESENT, COUNT and the members of the mounted store, from the drives attached (R670, R685, R692). -/
def State.showMembers (s : State) : State :=
  let ds : List (Nat × Drive) := s.store.drives.filterMap fun e => e.2.map fun d => (e.1, d)
  let mine := ds.filter fun e => e.2.store == s.store.store && s.store.store != 0
  let mask := mine.foldl (fun m e => Nat.lor m (2 ^ e.2.index)) 0
  let count := match mine with | e :: _ => e.2.count | [] => s.get Reg.STORE_MEMBERS_COUNT
  let s1 := ((s.put Reg.STORE_MEMBERS_PRESENT mask).put Reg.STORE_MEMBERS_COUNT count).each ds fun e t =>
    (t.putBit (Reg.STORE_DRV_STATUS_MEMBER e.1) (mine.contains e)).put (Reg.STORE_DRV_STATUS_INDEX e.1) e.2.index
  let have_ := mine.length
  let s2 := s1.put Reg.STORE_STATUS_STATE (if s.store.store = 0 then 0 else if have_ = count then 1 else 2)
  let journals := (mine.filter fun e => decide (e.2.index < 2)).length
  (s2.putBit Reg.STORE_STATUS_ONE_JOURNAL (decide (1 < count) && decide (journals < 2))).showFree

/-- The keys that slot 0 of the mounted store wraps are in the hub die (R672); those of a store made elsewhere are free values. -/
def State.unwrapKeys (s : State) : State :=
  match Tab.get none s.store.wrapped s.store.store with
  | some k => s.modStore fun x => { x with keys := some k }
  | none =>
    let k := s.drawKeys
    ({ s with ctr := s.ctr + 12 } : State).modStore fun x =>
      { x with keys := some k, wrapped := Tab.put none x.wrapped x.store (some k) }

/-- The store of the drives attached is mounted, or they do not fit one engine or one another (R670, R672). -/
def State.mount (s : State) : State :=
  let ds := (s.store.drives.filterMap (·.2)).filter fun d => d.store != 0
  match ds with
  | [] => (s.put Reg.STORE_STATUS_STATE 0).modStore fun x => { x with keys := none }
  | d :: rest =>
    if rest.any (fun x => x.store != d.store) || ds.any (fun x => !x.keyOk) then
      (s.put Reg.STORE_STATUS_STATE 3).modStore fun x => { x with keys := none }
    else
      let s1 := s.modStore fun x =>
        if x.dirOf = d.store then { x with store := d.store }
        else { x with store := d.store, dirOf := d.store, takes := [], slots := [], journalAt := 0 }
      let armed := s1.modStore fun x => { x with takes := x.takes.filter fun t => t.no.isSome }
      let s2 := armed.unwrapKeys.recover.showMembers
      s2.sendDrives s2.mountReads

/-- Open takes close at their journaled points, and their punch-outs are aborted (R684, R702). -/
def State.closeTakes (s : State) : State :=
  let opens := s.store.takes.filter (·.open_)
  let s1 := s.modStore fun x => { x with takes := x.takes.map fun t =>
    if t.open_ then { t.atJournal with byLoss := true, outHdr := none } else t }
  (s1.each opens fun t u =>
    let u1 := match t.outHdr with | some (h, _) => u.finish h 0x0711 .aborted 0 (u.toP t.domain (t.inSi + t.journaled)) 0 | none => u
    u1.post .other none { code := 0x0150, si := (u.dom 0).si, body := [t.no.getD 0, 3, t.inSi + t.journaled] }).countTracks

/-- R684: a member is lost; `drive` is where it was. -/
def State.memberLost (s : State) (drive m : Nat) : State :=
  let s1 := s.closeTakes
  let s2 := s1.modStore fun x => { x with takes := x.takes.map fun t =>
    (if t.members.contains m && decide (0 < t.uses m) then { t with incomplete := true } else t) }
  let s3 := (((s2.put Reg.STORE_STATUS_STATE 2).setMask Reg.STORE_MEMBERS_LOST m).clrMask Reg.STORE_MEMBERS_PRESENT m)
  let s4 := s3.putBit Reg.STORE_STATUS_ONE_JOURNAL (s3.bit Reg.STORE_STATUS_ONE_JOURNAL ||
    (decide (m < 2) && decide (1 < s.get Reg.STORE_MEMBERS_COUNT)))
  s4.showFree.postNow .fault none 0x0152 [drive, 2]

/-- R685: a member is back: takes that now read whole are no longer incomplete. -/
def State.memberReturned (s : State) (drive m : Nat) : State :=
  let again := Nat.testBit (s.get Reg.STORE_MEMBERS_LOST) m
  let s1 := s.recover.showMembers
  let s2 := s1.modStore fun x => { x with takes := x.takes.map fun t =>
    (if t.incomplete && !t.byLoss && t.members.all s1.present then { t with incomplete := false } else t) }
  s2.postNow .fault none 0x0152 [drive, (if again then 4 else 1)]

/-- R661, R663, R670, R672: the presence of a drive has changed. -/
def execStoreDriveChange (n : Fin 8) (d : DriveSeen) (s : State) : Out :=
  let old := Tab.get none s.store.drives n.val
  let link (t : State) : State :=
    let up := t.store.drives.any (·.2.isSome) || d.present
    ((t.putBit Reg.STORE_STATUS_LINK_UP up).put Reg.STORE_STATUS_WIDTH d.width).put Reg.STORE_STATUS_SPEED d.speed
  let set (x : Option Drive) (t : State) : State := t.modStore fun y => { y with
    drives := Tab.put none y.drives n.val x,
    issued := if d.present then (enumerate d.usable).map fun c => (n.val, c) else [] }
  if !d.present then
    let s1 := (set none s).clear [Reg.STORE_DRV_STATUS_PRESENT n.val, Reg.STORE_DRV_STATUS_MEMBER n.val,
      Reg.STORE_DRV_STATUS_REFUSED n.val, Reg.STORE_DRV_STATUS_INDEX n.val, Reg.STORE_DRV_EXTENTS_COUNT n.val]
    .next (link (match old with
      | some x => if s.storeOn && x.store == s.store.store && s.present x.index then s1.memberLost n.val x.index
                  else if s.storeOn then s1 else s1.mount
      | none => s1))
  else if !d.usable then
    .next ((link (((set none s).set (Reg.STORE_DRV_STATUS_PRESENT n.val)).set (Reg.STORE_DRV_STATUS_REFUSED n.val))).postNow
      .fault none 0x0152 [n.val, 3])
  else
    let x : Drive := { store := d.store, index := d.index, keyOk := d.keyOk, serial := d.serial, extents := d.extents, count := d.count }
    let s1 := link ((((set (some x) s).set (Reg.STORE_DRV_STATUS_PRESENT n.val)).put (Reg.STORE_DRV_STATUS_REFUSED n.val) 0).put
      (Reg.STORE_DRV_EXTENTS_COUNT n.val) d.extents)
    if s.storeOn then
      .next (if d.store == s.store.store && d.keyOk && !s.present d.index then s1.memberReturned n.val d.index else s1)
    else
      let s2 := s1.mount
      .next (if s2.storeOn then s2.postNow .fault none 0x0152 [n.val, 1] else s2)

/-- R684: a command to the member has not completed within 1 s, or the switch reports it absent. -/
def execStoreMemberLost (m : Fin 8) (s : State) : Out :=
  .next (if s.storeOn && s.present m.val then s.memberLost (s.driveOf m.val) m.val else s)

/-- R685. -/
def execStoreMemberReturn (m : Fin 8) (s : State) : Out :=
  let back := (s.store.drives.filterMap (·.2)).any fun d => d.store == s.store.store && d.index == m.val && d.keyOk
  .next (if s.storeOn && !s.present m.val && back then s.memberReturned (s.driveOf m.val) m.val else s)

/-! ### Stores and directories (R671, R672, R689, R690) -/

/-- R689: a new store over every attached drive that is not refused; its identity is drawn, and so are its keys (R671). -/
def execStoreFormat (h : CmdHdr) (s : State) : Out :=
  let ds : List (Nat × Drive) := s.store.drives.filterMap fun e => e.2.map fun d => (e.1, d)
  let id := s.free.toNat + 1
  .next (
    if s.standby then s.refuse h 0x0700 .refused 0 0
    else if !s.bit Reg.STORE_POLICY_HOST_FORMAT then s.refuse h 0x0700 .notOwner 0 0
    else if !s.storeIdle then s.refuse h 0x0700 .busy 0 0
    else if ds.isEmpty then s.refuse h 0x0700 .refused 0 0
    else
      let fresh := ds.zipIdx.map fun x => (x.1.1, some { x.1.2 with store := id, index := x.2, keyOk := true, count := ds.length })
      let keys := s.take.drawKeys
      let s1 := ({ s with ctr := s.ctr + 13 } : State).modStore fun y => { y with
        store := id, dirOf := id, drives := fresh, takes := [], slots := [], records := 0, generation := 1, journalCut := false,
        journalAt := 0, keys := some keys, wrapped := Tab.put none y.wrapped id (some keys) }
      let s2 := ((s1.put Reg.STORE_JSEQ_SEQ 0).put Reg.STORE_MEMBERS_LOST 0).showMembers
      (s2.sendDrives (s2.headerWrites 1 ++ s2.members.map fun m => (m, .flush nvmeNs))).ok h 0x0700)

/-- R672: a key slot for another engine of the membership list. -/
def execStoreShare (h : CmdHdr) (dev slot : Nat) (s : State) : Out :=
  .next (
    if s.storeBar || !s.storeOn then s.refuse h 0x0701 .refused 0 0
    else if slot < 1 ∨ 3 < slot then s.refuse h 0x0701 .refused 18 0
    else if Tab.get 0 s.wl.members dev = 0 ∨ dev = s.devnum then s.refuse h 0x0701 .refused 16 0
    else ((s.modStore fun y => { y with slots := Tab.put 0 y.slots slot (Tab.get 0 s.wl.members dev) }).sendDrives
      (s.headerWrites s.store.generation)).ok h 0x0701)

/-- A directory record (R690); the punch-out of an open take without one is a free value. -/
def State.takeRecord (s : State) (t : Take) : List Byte :=
  let fl := (if t.recovered then 1 else 0) + (if t.incomplete then 2 else 0) + (if t.open_ then 4 else 0) + (if t.imported then 8 else 0)
  let out := match t.outSi with | some o => o | none => s.free.toNat
  let mask := t.tracks.foldl (fun m k => Nat.lor m (2 ^ k)) 0
  natToBytes 4 (t.no.getD 0) ++ natToBytes 4 fl ++ natToBytes 8 t.inSi ++ natToBytes 8 out ++ natToBytes 4 t.rate ++
  natToBytes 2 t.tracks.length ++ natToBytes 2 0 ++ (t.name ++ List.replicate (24 - t.name.length) 0) ++ natToBytes 8 0 ++
  natToBytes 128 mask

/-- R690. -/
def execStoreList (h : CmdHdr) (addr first count : Nat) (s : State) : Out :=
  let l := (s.store.takes.filter fun t => match t.no with | some n => decide (first ≤ n) | none => false).take count
  .next (
    if s.storeBar || !s.storeOn then s.refuse h 0x0702 .refused 0 0
    else if !s.windowOk addr (192 * count) true then s.refuse h 0x0702 .windowFault 16 0
    else if l.isEmpty then s.finish h 0x0702 .empty 0 0 0
    else
      let r := l.foldl (fun (x : List Byte × State) t => (x.1 ++ x.2.takeRecord t, x.2.take)) ([], s)
      r.2.report addr r.1 ⟨h, 0x0702, .ok, 0, 0, l.length, false⟩)

/-- R689. -/
def execStoreDelete (h : CmdHdr) (no : Nat) (s : State) : Out :=
  .next (
    if s.storeBar || !s.storeOn then s.refuse h 0x0740 .refused 0 0
    else if !s.bit Reg.STORE_POLICY_HOST_DELETE then s.refuse h 0x0740 .notOwner 0 0
    else if !s.storeIdle then s.refuse h 0x0740 .busy 0 0
    else
      match s.take? no with
      | none => s.refuse h 0x0740 .refused 16 0
      | some t =>
        let gone := t.places.filterMap fun e => (t.memberOf (e.1 / 2 ^ 32) (e.1 % 2 ^ 32 * chunksPerExtent)).map fun m =>
          (m, NvmeOp.deallocate nvmeNs (dataBase + e.2 * extentLbas) extentLbas)
        ((s.modStore fun y => { y with takes := y.takes.filter fun t => t.no != some no }).sendDrives
          (gone.filter fun c => s.present c.1)).showFree.ok h 0x0740)

/-! ### Recording (R673–R680) -/

/-- Two ranges of samples overlap; an absent end is never reached. -/
def rangesMeet (a : Nat) (aEnd : Option Nat) (b : Nat) (bEnd : Option Nat) : Bool :=
  (match bEnd with | some e => decide (a < e) | none => true) && (match aEnd with | some e => decide (b < e) | none => true)

/-- Tracks that the store's buffers carry in a domain: those of live takes, and of plays. -/
def State.storeTracks (s : State) (d : Nat) : Nat :=
  ((s.store.takes.filter fun t => t.live && t.domain == d).map (·.tracks.length)).sum +
  (s.store.plays.filter fun p => p.domain == d).length

/-- Check 8 of R140 with `n` tracks in the store's buffers: each takes its block in and out, in units of 64 bytes (R330). -/
def State.buffersFit (s : State) (d n : Nat) : Bool :=
  match s.active with
  | none => true
  | some i =>
    match i.shares.find? fun x => x.domain.val == d with
    | none => true
    | some x => (dramFail i (frameOf { x with dramBytes := x.dramBytes + 2 * n * unit64 (4 * x.block) }) []).isNone

def trackRate : Nat := 98304000

/-- R674, R675. -/
def execStoreRecIn (h : CmdHdr) (outSi : Option Nat) (maskAddr : Nat) (tracks : List (Fin 1024)) (domain : Nat) (name : List Byte)
    (s : State) : Out :=
  let d := domain % 3
  let (si, late) := s.applyAt d h.target
  let out := outSi.map (s.siTo d)
  let ts := tracks.map (·.val)
  let fs := (s.dom d).rate
  let lives := s.store.takes.filter (·.live)
  let rates := (lives.map fun t => t.tracks.length * t.rate).sum
  .next (
    if !s.windowOk maskAddr 128 false then s.refuse h 0x0710 .windowFault 24 0
    else if 2 < domain ∨ (s.dom d).configured = false then s.refuse h 0x0710 .refused 32 0
    else if (match out with | some o => decide (o < si) | none => false) then s.refuse h 0x0710 .order 16 0
    else if out = some si then s.finish h 0x0710 .empty 16 0 0
    else if ts.isEmpty ∨ s.storeOn = false ∨ s.standby = true then s.refuse h 0x0710 .refused 24 0
    else if lives.any (fun t => t.tracks.any ts.contains && rangesMeet si out t.inSi t.outSi) then s.refuse h 0x0710 .busy 24 0
    else if 16 ≤ lives.length then s.refuse h 0x0710 .busy 0 0
    else if trackRate < rates + ts.length * fs then s.refuse h 0x0710 .noHeadroom 24 0
    else if !s.buffersFit d (s.storeTracks d + ts.length) then s.refuse h 0x0710 .noHeadroom 24 0
    else if s.get Reg.STORE_FREE_EXTENTS < 64 * ts.length then s.refuse h 0x0710 .noHeadroom 24 0
    else s.modStore fun y => { y with takes := y.takes ++
      [{ hdr := h, domain := d, rate := fs, inSi := si, late := late, outSi := out, tracks := ts, name := name.take 24 }] })

/-- R677: the block of the punch-in is handled: the take opens. -/
def execPunchIn (tag : BitVec 32) (s : State) : Out :=
  match s.store.takes.find? fun t => t.no.isNone && t.hdr.tag == tag.toNat with
  | none => .next s
  | some t =>
    if t.inSi < (s.dom t.domain).begun then
      let no := s.store.nextTake
      let s1 := s.modStore fun y => { y with
        nextTake := no + 1,
        takes := y.takes.map fun x => if x = t then { x with no := some no, open_ := true, members := s.members } else x }
      .next (s1.countTracks.finish t.hdr 0x0710 (if t.late then .late else .ok) 0 (s.toP t.domain t.inSi) no)
    else .next s

/-- R676. -/
def execStoreRecOut (h : CmdHdr) (tag : Nat) (s : State) : Out :=
  match s.store.takes.find? fun t => t.live && t.hdr.tag == tag with
  | none => .next (s.refuse h 0x0711 .refused 16 0)
  | some t =>
    let (si, late) := s.applyAt t.domain h.target
    .next (
      if s.storeBar then s.refuse h 0x0711 .refused 0 0
      else if t.outHdr.isSome then s.refuse h 0x0711 .busy 16 0
      else if h.target ≠ 0 ∧ s.siTo t.domain h.target < t.inSi then s.refuse h 0x0711 .order 8 0
      else if (if h.target = 0 then si else s.siTo t.domain h.target) = t.inSi then
        let s1 := (s.modStore fun y => { y with takes := y.takes.filter (· ≠ t) }).countTracks.showFree
        let s2 := if t.no.isNone then s1.finish t.hdr 0x0710 .aborted 0 0 0 else s1
        s2.finish h 0x0711 .empty 0 0 0
      else s.modStore fun y => { y with takes := y.takes.map fun x =>
        if x = t then { x with outSi := some (max si x.inSi), outHdr := some (h, late), byCommand := true } else x })

/-- R676, R677: the last sample of the take has been collected: the take closes. -/
def execPunchOut (no : Nat) (s : State) : Out :=
  match s.take? no with
  | none => .next s
  | some t =>
    match t.outSi with
    | none => .next s
    | some o =>
      if t.open_ && decide (o ≤ t.inSi + t.fill) then
        let s1 := (s.modTake no fun x => { x with open_ := false, closed := true, outHdr := none, fill := o - x.inSi }).countTracks
        let s2 := s1.post .other none { code := 0x0150, si := (s.dom 0).si, body := [no, if t.byCommand then 2 else 1, o] }
        .next (match t.outHdr with
          | some (h, late) => s2.finish h 0x0711 (if late then .late else .ok) 0 (s.toP t.domain o) 0
          | none => s2)
      else .next s

/-- The samples of a track's next chunk have all been collected; a closed take's last chunk is padded (R678). -/
def Take.chunkReady (t : Take) (track : Nat) : Bool :=
  let w := Tab.get 0 t.written track
  decide ((w + 1) * chunkLen ≤ t.fill) || (t.closed && decide (w * chunkLen < t.fill))

/-- R678, R686: the next chunk of a track reaches its extent. -/
def execChunkWrite (no : Nat) (track : Fin 1024) (s : State) : Out :=
  match s.take? no with
  | none => .next s
  | some t =>
    if t.tracks.contains track.val && t.chunkReady track.val && !t.byLoss && !s.store.stopped && s.storeOn then
      let w := Tab.get 0 t.written track.val
      let key := track.val * 2 ^ 32 + w / chunksPerExtent
      match t.memberOf track.val w with
      | none => .next s
      | some m =>
        let fresh := w % chunksPerExtent = 0 ∨ (t.places.any fun e => e.1 == key) = false
        let t1 : Take := if fresh then { t with places := (key, s.placeFor m) :: t.places.filter (·.1 != key) } else t
        let n := min chunkLen (t.fill - w * chunkLen)
        let s1 := (if fresh then s.take else s).modTake no fun x =>
          { x with written := Tab.put 0 x.written track.val (w + 1), places := t1.places }
        .next (s1.sendDrives [(m, .write nvmeNs (t1.chunkLba track.val w) (ceilDiv n 1024))]).showFree
    else .next s

/-- R679: the ring slot of the next chunk is needed again before that chunk was written. -/
def execRecordOverrun (no : Nat) (track : Fin 1024) (s : State) : Out :=
  match s.take? no with
  | none => .next s
  | some t =>
    let w := Tab.get 0 t.written track.val
    if t.tracks.contains track.val && decide ((w + 2) * chunkLen ≤ t.fill) && !t.byLoss then
      let s1 := s.modTake no fun x => { x with written := Tab.put 0 x.written track.val (w + 1), gaps := x.gaps ++ [(track.val, w)] }
      .next (((s1.bump Reg.STORE_OVERRUN_CNT_COUNT).set Reg.STORE_STATUS_OVERRUN).postNow .fault none 0x0151 [1, track.val])
    else .next s

/-- R680, R686: a record is cut: it covers the chunks completed up to this boundary, and closed takes whole. -/
def execJournalCut (s : State) : Out :=
  if s.store.journalCut || s.store.stopped || !s.storeOn || s.store.takes.all (fun t => t.no.isNone) then .next s
  else .next (s.modStore fun y => { y with
    journalCut := true,
    takes := y.takes.map fun t => if t.closed then { t with cut := t.fill } else { t with cut := t.fill / chunkLen * chunkLen } })

/-- The writes of a record of `n` LBAs to both copies of the circular journal (R665, R668). -/
def State.recordWrites (s : State) (n : Nat) : List (Nat × NvmeOp) :=
  let a := s.store.journalAt
  let k := min n (s.journalLbas - a)
  s.journalCopies.flatMap fun c =>
    (c.1, NvmeOp.write nvmeNs (c.2 + a) k) :: (if k < n then [(c.1, .write nvmeNs c.2 (n - k))] else [])

/-- R667, R668: once the chunks that the record covers are on the drives, the record of `lbas` + 1 LBAs is committed; a
journal three-quarters full makes a checkpoint. -/
def execJournalCommit (lbas : Fin 16) (s : State) : Out :=
  let covered (t : Take) : Bool := t.byLoss || t.tracks.all fun k => decide (t.cut ≤ Tab.get 0 t.written k * chunkLen)
  if s.store.journalCut && s.store.takes.all covered && s.storeOn then
    let s1 := (s.modStore fun y => { y with
      journalCut := false, records := y.records + lbas.val + 1,
      takes := y.takes.map fun t => { t with journaled := t.cut } }).put Reg.STORE_JSEQ_SEQ (s.get Reg.STORE_JSEQ_SEQ + 1)
    let n := lbas.val + 1
    let data := ((s.store.takes.filter fun t => decide (t.journaled < t.cut)).flatMap (·.members)).eraseDups
    let s2 := s1.modStore fun y => { y with journalAt := (y.journalAt + n) % s.journalLbas }
    let record := (data.map fun m => (m, NvmeOp.flush nvmeNs)) ++ s.recordWrites n ++
      (s.journalCopies.map (·.1)).eraseDups.map fun m => (m, .flush nvmeNs)
    .next (if 3 * s.journalLbas ≤ 4 * s1.store.records then
      let g := s.store.generation + 1
      let body := (s.journalCopies.map (·.1)).eraseDups.map fun m =>
        (m, NvmeOp.write nvmeNs (g % 2 * superLbas + 1) (1 + s.free.toNat % (superLbas - 1)))
      ((s2.take.modStore fun y => { y with records := 0, generation := g }).sendDrives (record ++ body ++ s.headerWrites g))
    else s2.sendDrives record)
  else .next s

/-! ### Playback (R681–R683) -/

/-- The earliest boundary at least 500 ms after dispatch (R682). -/
def State.playLead (s : State) (d : Nat) : Nat :=
  let b := max 1 (s.dom d).block
  ceilDiv ((s.dom d).si + s.samplesMs d 500) b * b

def Play.ends (p : Play) : Nat := match p.stop with | some e => min e (p.q + p.len) | none => p.q + p.len

/-- R681, R682. -/
def execStorePlay (h : CmdHdr) (no recTrack track offset : Nat) (len : Option Nat) (s : State) : Out :=
  match s.take? no with
  | none => .next (s.refuse h 0x0720 .refused 16 0)
  | some t =>
    let d := t.domain
    let lead := s.playLead d
    let want := s.siTo d h.target
    let q := if h.target = 0 then lead else max want lead
    let n := match len with | some x => x | none => t.fill - offset
    let fs := (s.dom d).rate
    .next (
      if s.storeBar || !s.storeOn then s.refuse h 0x0720 .refused 0 0
      else if !t.tracks.contains recTrack then s.refuse h 0x0720 .refused 20 0
      else if 1023 < track then s.refuse h 0x0720 .refused 22 0
      else if t.fill ≤ offset then s.refuse h 0x0720 .refused 24 0
      else if !t.closed then s.refuse h 0x0720 .refused 16 0
      else if s.store.plays.any (fun p => p.track == track && rangesMeet q (some (q + n)) p.q (some p.ends)) then
        s.refuse h 0x0720 .busy 22 0
      else if trackRate < (s.store.plays.map fun p => (s.dom p.domain).rate).sum + fs then s.refuse h 0x0720 .noHeadroom 22 0
      else if !s.buffersFit d (s.storeTracks d + 1) then s.refuse h 0x0720 .noHeadroom 22 0
      else s.modStore fun y => { y with plays := y.plays ++
        [{ hdr := h, take := no, recTrack := recTrack, track := track, q := q, late := decide (h.target ≠ 0 ∧ want < lead),
           offset := offset, len := n, domain := d }] })

/-- R681: the block of Q is handled. -/
def execPlayStart (tag : BitVec 32) (s : State) : Out :=
  match s.store.plays.find? fun p => !p.started && p.hdr.tag == tag.toNat with
  | none => .next s
  | some p =>
    if p.q < (s.dom p.domain).begun then
      let s1 := s.modStore fun y => { y with plays := y.plays.map fun x => if x = p then { x with started := true } else x }
      .next (s1.countTracks.finish p.hdr 0x0720 (if p.late then .late else .ok) 0 (s.toP p.domain p.q) 0)
    else .next s

/-- R682: a play ends at TARGET, and the command completes when it has; one that has not begun by then never does. -/
def execStoreStop (h : CmdHdr) (tag : Nat) (s : State) : Out :=
  match s.store.plays.find? fun p => p.hdr.tag == tag with
  | none => .next (s.refuse h 0x0721 .refused 16 0)
  | some p =>
    let (si, late) := s.applyAt p.domain h.target
    let st : Status := if late then .late else .ok
    .next (
      if s.storeBar then s.refuse h 0x0721 .refused 0 0
      else if si ≤ p.q && !p.started then
        ((s.modStore fun y => { y with plays := y.plays.filter (· ≠ p) }).finish p.hdr 0x0720 .aborted 0 0 0).finish h 0x0721 st 0
          (s.toP p.domain si) 0
      else s.modStore fun y => { y with plays := y.plays.map fun x =>
        if x = p then { x with stop := some (match x.stop with | some e => min e si | none => si), stops := x.stops ++ [(h, late, si)] }
        else x })

def State.modPlay (s : State) (p : Play) (f : Play → Play) : State :=
  s.modStore fun y => { y with plays := y.plays.map fun x => if x = p then f x else x }

/-- R683: a chunk of the take of a playback track is in its buffers. -/
def execPlaybackChunkRead (track : Fin 1024) (chunk : Nat) (s : State) : Out :=
  let wants (p : Play) : Bool := p.track == track.val && !p.buffered.contains chunk &&
    (match s.take? p.take with | some t => s.readable t p.recTrack chunk | none => false)
  .next (match s.store.plays.find? wants with
    | some p =>
      let t := (s.take? p.take).getD {}
      (s.modPlay p fun x => { x with buffered := x.buffered ++ [chunk] }).sendDrives
        (((t.memberOf p.recTrack chunk).toList).map fun m => (m, .read nvmeNs (t.chunkLba p.recTrack chunk) 32))
    | none => s)

/-- R683: a chunk that the play needs is not in the buffers in time. -/
def execPlayUnderrun (track : Fin 1024) (chunk : Nat) (s : State) : Out :=
  let lacks (p : Play) : Bool := p.track == track.val && p.started && !p.buffered.contains chunk && !p.missed.contains chunk
  .next (match s.store.plays.find? lacks with
    | some p =>
      ((s.modPlay p fun x => { x with missed := x.missed ++ [chunk] }).bump Reg.STORE_UNDERRUN_CNT_COUNT).postNow .fault none
        0x0151 [2, track.val]
    | none => s)

/-- What a play has for an SI of its domain: none where it conceals (R681, R683). -/
def State.playSample (s : State) (p : Play) (x : Nat) : Option Word :=
  match s.take? p.take with
  | none => none
  | some t =>
    let n := p.offset + (x - p.q)
    if p.buffered.contains (n / chunkLen) && decide (n < t.fill) then some (Tab.get 0 t.data (p.recTrack * 2 ^ 48 + n)) else none

/-! ### Export, import, drives (R687, R688, R692) -/

/-- Samples of a take that can be exported: all of a closed one, an open one up to its journaled point (R687). -/
def Take.exportEnd (t : Take) : Nat := if t.closed then t.fill else t.journaled

/-- R687: one track of a take, or a range of it, through an upstream bulk ring of USE 4. -/
def execStoreExport (h : CmdHdr) (ring no track first : Nat) (len : Option Nat) (mode : Nat) (s : State) : Out :=
  match s.take? no with
  | none => .next (s.refuse h 0x0730 .refused 0 0)
  | some t =>
    let want := match len with | some x => first + x | none => max first t.exportEnd
    .next (
      if s.storeBar || !s.storeOn then s.refuse h 0x0730 .refused 0 0
      else if 3 < ring ∨ s.get (Reg.HOST_BRING_CFG_USE ring) ≠ 4 ∨ s.bit (Reg.HOST_BRING_CFG_ENABLE ring) = false then
        s.refuse h 0x0730 .refused 0 0
      else if 1 < mode ∨ (mode = 0 ∧ s.bit Reg.STORE_POLICY_EXPORT_PLAIN = false) then s.refuse h 0x0730 .refused 0 0
      else if t.tracks.contains track = false ∨ t.exportEnd ≤ first then s.refuse h 0x0730 .refused 0 0
      else s.modStore fun y => { y with moves := y.moves ++
        [{ hdr := h, take := no, track := track, first := first, len := min want t.exportEnd - first, mode := mode, ring := ring,
           cutShort := decide (t.exportEnd < want) }] })

/-- Bytes of an export: samples in mode 0; in mode 1 the header of R746 and the extents as they are stored (R687). -/
def StoreMove.total (m : StoreMove) : Nat :=
  if m.mode = 0 then 4 * m.len else 512 + ceilDiv (m.first % 2 ^ 20 + m.len) (2 ^ 20) * 2 ^ 22

/-- The samples of an LBA of an extent, padded with zeros to whole LBAs (R678): none where the drives hold none. -/
def State.lbaOf (s : State) (t : Take) (track first : Nat) : Option (List Byte) :=
  if s.readable t track (first / chunkLen) && decide (first < t.fill) then
    some ((List.range 1024).flatMap fun k =>
      natToBytes 4 (if first + k < t.fill then (Tab.get 0 t.data (track * 2 ^ 48 + first + k)).toNat else 0))
  else none

/-- Byte `at_` of the stored extents that a move sends: encrypted under the tweak of its LBA (R671). -/
def State.storedByte (s : State) (m : StoreMove) (at_ : Nat) : Option Byte :=
  let t := (s.take? m.take).getD {}
  let first := (m.first / 2 ^ 20) * 2 ^ 20 + at_ / 4096 * 1024
  match s.store.keys, s.lbaOf t m.track first, t.memberOf m.track (first / chunkLen) with
  | some k, some l, some d =>
    some (Config.xtsByte k.xts (d * 2 ^ 48 + t.chunkLba m.track (first / chunkLen) + first % chunkLen / 1024) l (at_ % 4096))
  | _, _, _ => none

/-- Byte `at_` of the header of a mode 1 export (R746); none for the ephemeral key, the wrapped keys and the signature, which are open. -/
def State.exportHeader (s : State) (m : StoreMove) (at_ : Nat) : Option Byte :=
  let head := natToBytes 4 0x4A585054 ++ natToBytes 4 m.take ++ natToBytes 2 m.track ++ List.replicate 6 0 ++ natToBytes 8 m.first ++
    natToBytes 8 m.len
  if at_ < 32 then some (head.getD at_ 0)
  else if 232 ≤ at_ ∧ at_ < 280 then some ((natToBytes 48 s.trust.identity).getD (at_ - 232) 0)
  else if 280 ≤ at_ ∧ at_ < 416 then some 0
  else none

/-- `n` bytes of an export from byte `at_` on; what the drives cannot give is a free value. -/
def State.exportBytes (s : State) (m : StoreMove) (at_ : Nat) : Nat → List Byte × State
  | 0 => ([], s)
  | n + 1 =>
    let k := m.first + at_ / 4
    let t := (s.take? m.take).getD {}
    if m.mode = 0 ∧ s.readable t m.track (k / chunkLen) = true then
      let r := s.exportBytes m (at_ + 1) n
      ((natToBytes 4 (Tab.get 0 t.data (m.track * 2 ^ 48 + k)).toNat).getD (at_ % 4) 0 :: r.1, r.2)
    else
      match if m.mode = 0 then none else if 512 ≤ at_ then s.storedByte m (at_ - 512) else s.exportHeader m at_ with
      | some b =>
        let r := s.exportBytes m (at_ + 1) n
        (b :: r.1, r.2)
      | none =>
        let r := s.take.exportBytes m (at_ + 1) n
        (s.free.setWidth 8 :: r.1, r.2)

/-- R688: the import waits for its samples. -/
def execStoreImport (h : CmdHdr) (ring rate count length : Nat) (name : List Byte) (s : State) : Out :=
  .next (
    if s.storeBar || !s.storeOn then s.refuse h 0x0731 .refused 0 0
    else if 3 < ring ∨ s.get (Reg.HOST_BRING_CFG_USE ring) ≠ 5 ∨ s.bit (Reg.HOST_BRING_CFG_ENABLE ring) = false then
      s.refuse h 0x0731 .refused 17 0
    else if length < 64 ∨ 2 ^ 24 < length then s.refuse h 0x0731 .refused 20 0
    else if legalRate rate = false ∨ count = 0 ∨ 1024 < count then s.refuse h 0x0731 .refused 0 0
    else
      let s1 := s.modHost fun x => { x with transfers := x.transfers ++ [⟨h, 0x0731, 0, ring, 0, length, 0⟩] }
      s1.modStore fun y => { y with moves := y.moves ++
        [{ hdr := h, export_ := false, ring := ring, rate := rate, count := count, name := name.take 24 }] })

/-- The domain an imported take plays in: the first one of its rate. -/
def State.domainOfRate (s : State) (rate : Nat) : Nat :=
  ((List.range 3).find? fun d => (s.dom d).configured && (s.dom d).rate == rate).getD 0

/-- The extents of a new take are allocated one by one, and its chunks are written (R665, R678). -/
def State.placeTake (s : State) (no : Nat) : State :=
  match s.take? no with
  | none => s
  | some t =>
    let parts := t.tracks.flatMap fun k => (List.range (ceilDiv (Tab.get 0 t.written k) chunksPerExtent)).map fun n => (k, n)
    let s1 := s.each parts fun e u =>
      match t.memberOf e.1 (e.2 * chunksPerExtent) with
      | some m => u.take.modTake no fun x => { x with places := (e.1 * 2 ^ 32 + e.2, u.placeFor m) :: x.places }
      | none => u
    let t1 := (s1.take? no).getD t
    let chunks := t.tracks.flatMap fun k => (List.range (Tab.get 0 t.written k)).map fun w => (k, w)
    s1.sendDrives (chunks.filterMap fun e => (t.memberOf e.1 e.2).map fun m =>
      (m, .write nvmeNs (t1.chunkLba e.1 e.2) (ceilDiv (min chunkLen (t.fill - e.2 * chunkLen)) 1024)))

/-- The samples of an import have arrived: a closed take of its own numbering, whose punch-in SI is a free value (R688). -/
def State.importArrived (s : State) (t : Transfer) (x : ImageData) : State :=
  match s.store.moves.find? fun m => !m.export_ && m.hdr == t.hdr with
  | none => s.refuse t.hdr t.opcode .refused 0 0
  | some m =>
    let s1 := s.modStore fun y => { y with moves := y.moves.filter (· ≠ m) }
    match x with
    | .samples l =>
      let n := (l.map (·.length)).foldl max 0
      let need := m.count * ceilDiv n (2 ^ 20)
      if l.length ≠ m.count ∨ l.any (fun c => c.length != n) ∨ n = 0 then s1.refuse t.hdr t.opcode .refused 0 0
      else if s.get Reg.STORE_FREE_EXTENTS < need then s1.refuse t.hdr t.opcode .noHeadroom 0 0
      else
        let data := l.zipIdx.foldl (fun d c => c.1.zipIdx.foldl (fun e w => Tab.put 0 e (c.2 * 2 ^ 48 + w.2) w.1) d) ([] : Tab Word)
        let ts := List.range m.count
        let si := s1.free.toNat
        let k : Take := { no := some s1.store.nextTake, hdr := t.hdr, domain := s.domainOfRate m.rate, rate := m.rate, inSi := si,
                          outSi := some (si + n), closed := true, tracks := ts, name := m.name, data := data, fill := n,
                          written := ts.map fun j => (j, ceilDiv n chunkLen), imported := true, members := s.members }
        let s2 := s1.take.modStore fun y => { y with takes := y.takes ++ [k], nextTake := y.nextTake + 1 }
        (s2.placeTake s1.store.nextTake).showFree.finish t.hdr t.opcode .ok 0 0 s1.store.nextTake
    | _ => s1.refuse t.hdr t.opcode .refused 0 0

/-- R692: the composite temperature of the SMART log, read once per minute. -/
def execSmartPoll (n : Fin 8) (kelvin : BitVec 16) (s : State) : Out :=
  .next (if s.bit (Reg.STORE_DRV_STATUS_PRESENT n.val) && !s.bit (Reg.STORE_DRV_STATUS_REFUSED n.val) then
    (s.put (Reg.STORE_DRV_TEMP_KELVIN n.val) kelvin.toNat).modStore fun x => { x with issued := [(n.val, .getSmartLog)] } else s)

/-- R691, R692. -/
def execStoreIoError (track : Fin 1024) (s : State) : Out :=
  .next ((s.bump Reg.STORE_IO_ERR_CNT_COUNT).postNow .fault none 0x0151 [3, track.val])

def execStoreCntClr (s : State) : Out := s.ifHost <|
  .next (s.clear [Reg.STORE_OVERRUN_CNT_COUNT, Reg.STORE_UNDERRUN_CNT_COUNT, Reg.STORE_IO_ERR_CNT_COUNT])

end Sys2Proof.Machine
end

