-- ==== Sys2Proof/Machine/RegAcc.lean ====
section
/-! DEFINITION. The register space of BAR0 (R789–R801, R809, R840): which fields an offset holds, their ranges, defaults and
locks, captures of discarded accesses, and writes of plain values. -/

namespace Sys2Proof.Machine

/-! ### The field table -/

/-- The field of a row that lies at an offset; for a 64-bit pair, at its LO half's. -/
def hit (r : RegRow) (o : Nat) : Option Fld :=
  let d := o - r.base
  let i := if r.s1 = 0 then 0 else d / r.s1
  let e := d - i * r.s1
  let j := if r.s2 = 0 then 0 else e / r.s2
  if r.base ≤ o ∧ i < r.n1 ∧ j < r.n2 ∧ e = j * r.s2 then some ⟨o, r.lo, r.w⟩ else none

/-- The fields of the register at an offset. -/
def fieldsAt (o : Nat) : List (RegRow × Fld) := regRows.filterMap fun r => (hit r o).map fun f => (r, f)

/-- Every instance of a row. -/
def instances (r : RegRow) : List Fld :=
  (List.range r.n1).flatMap fun i => (List.range r.n2).map fun j => ⟨r.base + i * r.s1 + j * r.s2, r.lo, r.w⟩

/-- The pair that has a half at an offset, and whether that is its HI half. -/
def pairAt (o : Nat) : Option (RegRow × Fld × Bool) :=
  match (fieldsAt o).find? (·.1.pair), if o < 4 then none else (fieldsAt (o - 4)).find? (·.1.pair) with
  | some x, _ => some (x.1, x.2, false)
  | none, some x => some (x.1, x.2, true)
  | none, none => none

/-! ### Ranges and defaults (R421, R810) -/

/-- The range of a field as its table states it, and its default; `free` where a value beyond the range is not discarded. -/
structure Limit where
  base : Nat
  lo : Nat
  least : Nat
  most : Nat
  dflt : Nat
  free : Bool := false

/-- Fields with a stated range or a default, by the offset of their first instance. -/
def limits : List Limit :=
  [⟨0x2100, 0, 0, 2, 1, false⟩, ⟨0x2100, 8, 1, 255, 10, false⟩, ⟨0x2108, 0, 8, 4095, 32, false⟩, ⟨0x2108, 16, 64, 65535, 1024, false⟩,
   ⟨0x210c, 0, 10, 10000, 50, false⟩, ⟨0x2118, 0, 1, 3600, 60, false⟩, ⟨0x211c, 16, 1, 255, 2, false⟩, ⟨0x211c, 24, 1, 200, 20, false⟩,
   ⟨0x2120, 0, 0, 7, 0, false⟩, ⟨0x3004, 0, 10, 1000, 500, false⟩, ⟨0x3004, 16, 1, 255, 100, false⟩, ⟨0x3040, 0, 0, 2, 0, false⟩,
   ⟨0x3108, 0, 0, 2, 0, false⟩] ++
  [⟨0x4004, 0, 10, 50, 25, false⟩, ⟨0xc000, 3, 0, 2, 0, false⟩, ⟨0xc034, 0, 1, 1000, 50, false⟩, ⟨0x10310, 0, 1, 1000, 50, false⟩,
   ⟨0x5040, 0, 0, 2, 0, false⟩, ⟨0x5040, 2, 0, 2, 0, false⟩, ⟨0x5040, 4, 0, 2, 0, false⟩, ⟨0x5060, 0, 0, 2, 0, false⟩,
   ⟨0x6010, 20, 2, 16, 4, true⟩, ⟨0x7008, 0, 5, 200, 10, false⟩, ⟨0x7100, 1, 0, 2, 0, false⟩, ⟨0x7100, 8, 5, 200, 10, false⟩,
   ⟨0x7500, 1, 0, 2, 0, false⟩, ⟨0x8008, 0, 0, 2, 0, false⟩, ⟨0x8008, 2, 0, 2, 0, false⟩, ⟨0x8010, 3, 0, 2, 0, false⟩,
   ⟨0x8010, 8, 0, 20, 0, false⟩, ⟨0x8030, 3, 0, 2, 0, false⟩, ⟨0x8060, 8, 10, 200, 0, false⟩] ++
  [⟨0x90c0, 0, 0, 67, 0, false⟩, ⟨0x90b0, 0, 0, 0xFFFFFFFF, 0x55555555, true⟩, ⟨0x11008, 0, 100, 2000, 500, false⟩,
   ⟨0x101c, 0, 0, 5000, 250, false⟩, ⟨0x13000, 8, 1, 255, 3, true⟩, ⟨0x13008, 0, 1, 1000, 4, true⟩, ⟨0x13008, 16, 1, 100, 1, true⟩,
   ⟨0x1300c, 0, 1, 600, 10, false⟩, ⟨0x1300c, 16, 10, 1000, 120, false⟩]

def limitOf (r : RegRow) : Option Limit := limits.find? fun l => l.base == r.base && l.lo == r.lo

/-- A value lies in the field's range. -/
def Limit.has (l : Limit) (v : Nat) : Bool := decide (l.least ≤ v) && decide (v ≤ l.most)

/-- The field's own range rule discards a value (R421, R607, R810). -/
def discards (r : RegRow) (v : Nat) : Bool :=
  (r.base == 0x2110 && decide (dcoLimit < (signed32 v).natAbs)) ||
  match limitOf r with | some l => !l.free && !l.has v | none => false

def dfltOf (r : RegRow) : Nat := match limitOf r with | some l => l.dflt | none => 0

/-- The flag of a block that a discarded write sets. -/
def cfgRejAt (o : Nat) : Option Fld :=
  match o / 4096 with
  | 1 => some Reg.PWR_STATUS_CFG_REJ
  | 2 => some Reg.CLK_STATUS_CFG_REJ
  | 3 => some Reg.TIME_STATUS_CFG_REJ
  | 4 | 10 | 11 => some Reg.HOST_STATUS_CFG_REJ
  | 6 => some Reg.APORT_STATUS_CFG_REJ
  | 7 => some Reg.AES_STATUS_CFG_REJ
  | 8 => some Reg.HUBA_STATUS_CFG_REJ
  | 9 => some Reg.SURF_STATUS_CFG_REJ
  | 12 | 13 | 14 => some (Reg.NET_STATUS_CFG_REJ (o / 4096 - 12))
  | 16 => some (Reg.WLP_STATUS_CFG_REJ (o / 1024 % 4))
  | 17 => some Reg.STORE_STATUS_CFG_REJ
  | 18 => some Reg.TRUST_STATE_CFG_REJ
  | 19 => some Reg.PAIR_STATUS_CFG_REJ
  | 21 => some Reg.PINFN_STATUS_CFG_REJ
  | _ => none

/-- A write is discarded, with the block's flag. -/
def State.reject (s : State) (o : Nat) : State := match cfgRejAt o with | some f => s.set f | none => s

/-! ### Discarded accesses and stale reads (R793, R798–R800, R805) -/

/-- A read of HI without a latch. -/
def State.staleRead (s : State) (off : Nat) : State :=
  let s1 := (s.set Reg.GLOBAL_ACC_STALE_HI).bump Reg.GLOBAL_ACC_CNT_STALE
  if s.bit Reg.GLOBAL_STALE_ADDR_VALID then s1.set Reg.GLOBAL_ACC_OVERFLOW
  else (s1.put Reg.GLOBAL_STALE_ADDR_OFFSET (off / 4 * 4)).set Reg.GLOBAL_STALE_ADDR_VALID

/-- An access to an offset reaches its register: in recovery only the TRUST block answers (R753), and a RETIRED engine answers
nothing but its state and identity (R730). -/
def State.answers (s : State) (o : Nat) : Bool :=
  s.hostUp || (o / 4096 == 18 && s.get Reg.TRUST_STATE_LCS != 5)

/-- R798, R800: a read of LO loads the pair's latch; one request that reads both halves leaves none. -/
def execPairLoRead (off : BitVec 18) (both : Bool) (s : State) : Out :=
  let o := off.toNat / 4 * 4
  match pairAt o with
  | some (_, f, false) =>
    .next (if !s.answers o then s
      else { s with latch := Tab.put 0 s.latch f.off (if both then 0 else s.get f / 2 ^ 32 + 1) })
  | _ => .next s

/-- R798, R799: a read of HI releases the latch, or is stale. -/
def execPairHiRead (off : BitVec 18) (s : State) : Out :=
  let o := off.toNat / 4 * 4
  match pairAt o with
  | some (_, f, true) =>
    .next (if !s.answers o then s
      else if Tab.get 0 s.latch f.off ≠ 0 then { s with latch := Tab.put 0 s.latch f.off 0 }
      else s.staleRead o)
  | _ => .next s

/-- R805. -/
def execGlobalCntClr (s : State) : Out := s.ifHost <| .next (s.clear [Reg.GLOBAL_ACC_CNT_FAULTS, Reg.GLOBAL_ACC_CNT_STALE])

/-! ### Locked fields (R429, R457, R482, R571, R600, R607, R626, R660, R758, R760, R840) -/

/-- A field accepts no change in the state the engine is in. -/
def State.lockedField (s : State) (f : Fld) : Bool :=
  let o := f.off
  let n := o % 4096
  match o / 4096 with
  | 4 =>
    if 0x100 ≤ n ∧ n < 0x200 then n % 32 == 0 && s.bit (Reg.HOST_CRING_CFG_ENABLE ((n - 0x100) / 32))
    else if 0x200 ≤ n ∧ n < 0x280 then n % 32 == 0 && s.bit (Reg.HOST_ERING_CFG_ENABLE ((n - 0x200) / 32))
    else if 0x280 ≤ n ∧ n < 0x300 then n % 32 == 0 && s.bit (Reg.HOST_BRING_CFG_ENABLE ((n - 0x280) / 32))
    else if 0x400 ≤ n ∧ n < 0x500 then decide (n % 16 < 12) && s.bit (Reg.HOST_WIN_CTL_ENABLE ((n - 0x400) / 16))
    else false
  | 6 =>
    if 0x10 ≤ n ∧ n < 0x20 then (List.range 4).any fun k => s.bit (Reg.APORT_P_CTL_EN ((n - 0x10) / 4 * 4 + k))
    else if 0x100 ≤ n ∧ n < 0x300 ∧ n % 32 < 8 then f.key != (Reg.APORT_P_CTL_EN ((n - 0x100) / 32)).key &&
      s.bit (Reg.APORT_P_CTL_EN ((n - 0x100) / 32))
    else false
  | 8 =>
    if n = 8 then (List.range 4).any (fun c => s.bit (convEn c)) || decide (s.get Reg.HUBA_PS_CTL_EN ≠ 0)
    else if 0x10 ≤ n ∧ n < 0x30 then
      (n % 16 == 4 || (n % 16 == 0 && (f.lo == 1 || f.lo == 2))) && s.bit (Reg.HUBA_ADC_CTL_EN ((n - 0x10) / 16))
    else if 0x30 ≤ n ∧ n < 0x50 then n % 16 == 4 && s.bit (Reg.HUBA_DAC_CTL_EN ((n - 0x30) / 16))
    else if n = 0x60 then f.lo != 0 && decide (s.get Reg.HUBA_PS_CTL_EN ≠ 0)
    else false
  | 9 => decide (0x10 ≤ n ∧ n < 0x20) && f.lo == 2 && s.bit (Reg.SURF_MB_CTL_EN ((n - 0x10) / 4))
  | 10 | 11 => n % 256 == 8 && decide ((o - 0xA000) / 256 < 12)
  | 18 => decide (0xC0 ≤ n ∧ n < 0xD0) && !s.bit Reg.TRUST_STATE_RECOVERY
  | 19 => decide (n < 0x10) && f.key != Reg.PAIR_CFG_EN.key && s.bit Reg.PAIR_CFG_EN
  | _ => false

/-! ### Writes of values (R14, R794, R801, R840) -/

/-- A field at an offset takes its part of a written value. -/
def State.writeField (s : State) (v : Nat) (x : RegRow × Fld) : State :=
  match x.1.acc with
  | .rw => s.put x.2 (fieldOf v x.2)
  | .w1c => s.put x.2 (s.get x.2 - Nat.land (s.get x.2) (fieldOf v x.2))
  | _ => s

/-- The writable fields that a value would change. -/
def State.changes (s : State) (o v : Nat) : List (RegRow × Fld) :=
  (fieldsAt o).filter fun x => decide (x.1.acc = .rw) && fieldOf v x.2 != s.get x.2

/-- A write is discarded for a range, or for a locked field that it would change. -/
def State.refusesWrite (s : State) (o v : Nat) : Bool :=
  (fieldsAt o).any (fun x => decide (x.1.acc = .rw) && discards x.1 (fieldOf v x.2)) ||
  (s.changes o v).any fun x => s.lockedField x.2

/-- A register that has no effect beyond its fields. -/
def State.writePlain (s : State) (o v : Nat) : State :=
  if s.refusesWrite o v then s.reject o else (fieldsAt o).foldl (fun t x => t.writeField v x) s

/-- The value that a write of a half gives a writable pair: LO waits in staging; HI applies both. -/
def State.pairValue (s : State) (f : Fld) (v : Nat) : Nat :=
  let lo := match Tab.get 0 s.staged f.off with | 0 => s.get f % 2 ^ 32 | n + 1 => n
  (lo + v * 2 ^ 32) % 2 ^ f.w

/-- Bases of rings and windows are multiples of 4,096: LO bits 11–0 read 0 (R480). -/
def baseMask (f : Fld) (v : Nat) : Nat := if f.off / 4096 = 4 ∧ 0x4100 ≤ f.off then v / 4096 * 4096 else v

/-- R801. -/
def State.writePair (s : State) (r : RegRow) (f : Fld) (hi : Bool) (v : Nat) : State :=
  match r.acc with
  | .rw =>
    if !hi then { s with staged := Tab.put 0 s.staged f.off (v + 1) }
    else
      let x := baseMask f (s.pairValue f v)
      let s1 : State := { s with staged := Tab.put 0 s.staged f.off 0 }
      if x ≠ s.get f ∧ s.lockedField f = true then s1.reject f.off else s1.put f x
  | .w1c =>
    let m := if hi then v * 2 ^ 32 else v
    s.put f (s.get f - Nat.land (s.get f) m)
  | _ => s

/-! ### Writes with an effect -/

/-- The next state of a meaning that always runs. -/
def onNext (o : Out) (s : State) : State := match o with | .next t => t | _ => s

/-- What happens on a write whose effect a command of its own describes. -/
def State.run (s : State) (f : State → Out) : State := onNext (f s) s

/-- An instance number as the commands take it. -/
def ix (n : Nat) [NeZero n] (k : Nat) : Fin n := Fin.ofNat n k

/-- EN of an AES3 unit that a refused module names stays 0 (R639). -/
def State.enableAesRx (s : State) (n : Nat) : State :=
  if s.aesRxRefused n then s.set Reg.AES_STATUS_CFG_REJ else s.set (Reg.AES_RX_CTL_EN n)
def State.enableAesTx (s : State) (n : Nat) : State :=
  if s.aesTxRefused n then s.set Reg.AES_STATUS_CFG_REJ else (s.set (Reg.AES_TX_CTL_EN n)).showGated

/-- EN of a Wamund port (R526, R527). -/
def State.wlEnable (s : State) (p : Nat) (en : Bool) : State :=
  let t := s.putBit (Reg.WLP_CTL_EN p) en
  if en then t.wlBringUp p else t.wlLeaveUp p

/-- EN of a surface link (R643, R660): a link that loses it has no modules. -/
def State.slEnable (s : State) (p : Nat) (en : Bool) : State :=
  let t := s.putBit (Reg.SURF_SL_CTL_EN p) en
  if s.bit (Reg.SURF_SL_CTL_EN p) == en then t
  else if en then t.put (Reg.SURF_SL_STATUS_STATE p) 1
  else ((t.put (Reg.SURF_SL_STATUS_STATE p) 0).put (Reg.SURF_SL_STATUS_MODULES p) 0).each (List.range 4) fun m u =>
    u.dropFaders (32 + 4 * p + m)

end Sys2Proof.Machine
end

