-- ==== Sys2Proof/Machine/PairOps.lean ====
section
/-! DEFINITION. What the meanings of redundant pairs share: roles, messages, the witness and the passage of the lease
(R759–R779). -/

namespace Sys2Proof.Machine

/-! ### Times -/

/-- Samples of domain P in LEASE_MS, and in LEASE_MS + GUARD_MS. -/
def State.leaseLen (s : State) : Nat := s.samplesMs 0 (s.get Reg.PAIR_TIMES_LEASE_MS)
def State.guardLen (s : State) : Nat := s.samplesMs 0 (s.get Reg.PAIR_TIMES_LEASE_MS + s.get Reg.PAIR_TIMES_GUARD_MS)

/-- The P-domain SI of the running frame, and the block size. -/
def State.now (s : State) : Nat := (s.dom 0).si
def State.blockP (s : State) : Nat := (s.dom 0).block

/-- A replica is held that is no more than 3 × REPL_S old (R775). -/
def State.replicaFresh (s : State) : Bool :=
  s.pair.replica.isSome && decide (s.now ≤ s.pair.replicaAt + 3 * s.get Reg.PAIR_TIMES2_REPL_S * (s.dom 0).rate)

def State.coldMode (s : State) : Bool := s.get Reg.PAIR_CFG_MODE == 1

/-! ### Roles (R764–R768, R774, R776) -/

/-- The standby may take the lease. -/
def State.becomeReady (s : State) : State :=
  if s.bit Reg.PAIR_STATUS_READY then s else (s.set Reg.PAIR_STATUS_READY).pairEvent 3 .ok

/-- R774, R776: a SUSPECT standby is not READY and resynchronises. -/
def State.becomeSuspect (s : State) : State :=
  let s1 := (((s.set Reg.PAIR_STATUS_SUSPECT).put Reg.PAIR_STATUS_READY 0).put Reg.PAIR_STATUS_SYNC 1).modPair fun p =>
    { p with resyncAt := s.now, digests := [], mismatches := 0, matches_ := 0, verdictOwn := none, verdictPartner := none }
  s1.pairEvent 2 .suspect

/-- R768: the engine is STANDBY under an epoch. In LOCKSTEP it resynchronises; in COLD it is READY while it holds a replica
that is fresh. -/
def State.enterStandby (s : State) (epoch : Nat) : State :=
  let s1 := (((s.gateDown.put Reg.PAIR_STATUS_ROLE 2).put Reg.PAIR_EPOCH_EPOCH epoch).put Reg.PAIR_STATUS_SUSPECT 0).put
    Reg.PAIR_STATUS_READY 0
  let s2 := (s1.putBit Reg.PAIR_STATUS_SYNC (!s.coldMode)).modPair fun p =>
    { renewNum := p.renewNum, heardAt := some s.now, partnerAt := p.partnerAt, witnessAt := p.witnessAt, errAt := p.errAt,
      resyncAt := s.now, replica := p.replica, replicaAt := p.replicaAt, seen := p.seen, witness := p.witness,
      refxoGate := p.refxoGate }
  let s3 := s2.pairEvent 1 .ok
  if s.coldMode && s.replicaFresh then s3.becomeReady else s3

/-- The engine is SOLO: pairing is off (R759). -/
def State.becomeSolo (s : State) : State :=
  let s1 := s.clear [Reg.PAIR_STATUS_ROLE, Reg.PAIR_STATUS_READY, Reg.PAIR_STATUS_READY_PARTNER, Reg.PAIR_STATUS_SUSPECT,
    Reg.PAIR_STATUS_SYNC, Reg.PAIR_STATUS_PARTNER_SEEN, Reg.PAIR_STATUS_WITNESS_SEEN, Reg.PAIR_EPOCH_EPOCH]
  (s1.modPair fun p => { errAt := p.errAt, seen := [], witness := p.witness, refxoGate := p.refxoGate }).reopenGate

/-- Pairing begins: the member listens with its gate closed (R766, R769). -/
def State.beginPairing (s : State) : State :=
  let s1 := ((s.set Reg.PAIR_CFG_EN).put Reg.PAIR_STATUS_ROLE 3).put Reg.PAIR_EPOCH_EPOCH 0
  let s2 := s1.modPair fun p => { errAt := p.errAt, listening := some s.now, witness := p.witness, refxoGate := p.refxoGate }
  if s2.bit Reg.PAIR_STATUS_GATE_OPEN then s2.gateDown.pairEvent 6 .ok else s2

/-! ### Enabling (R760, R787) -/

/-- A DEVNUM is assigned by the membership list. -/
def State.isMember (s : State) (dev : Nat) : Bool := Tab.get 0 s.wl.members dev != 0

/-- R760: EN = 1 is refused. -/
def State.pairRefused (s : State) : Bool :=
  let p := s.get Reg.PAIR_PARTNER_PARTNER
  let w := s.get Reg.PAIR_PARTNER_WITNESS
  !s.bit Reg.TRUST_STATE_MEMBERS || !s.isMember p || !s.isMember w || w == p || w == s.devnum ||
  decide (s.get Reg.PAIR_CFG_K = 0) || decide (s.get Reg.PAIR_TIMES_LEASE_MS = 0) || decide (1000 < s.get Reg.PAIR_TIMES_LEASE_MS) ||
  decide (s.get Reg.PAIR_TIMES_GUARD_MS = 0) || decide (100 < s.get Reg.PAIR_TIMES_GUARD_MS)

/-- A write of PAIR_CFG (R760, R840). -/
def State.pairEnWrite (s : State) (v : Nat) : State :=
  if s.refusesWrite 0x13000 v then s.reject 0x13000
  else
    let was := s.bit Reg.PAIR_CFG_EN
    let t := (s.writePlain 0x13000 v).putBit Reg.PAIR_CFG_EN was
    if (v % 2 == 1) == was then t
    else if was then (t.put Reg.PAIR_CFG_EN 0).becomeSolo
    else if t.pairRefused then t.reject 0x13000
    else t.beginPairing

/-! ### Messages (R761, R762) -/

/-- A message to the witness, by the route table. -/
def State.sendWitness (s : State) (m : PairMsg) : State := s.sendCtrl (s.get Reg.PAIR_PARTNER_WITNESS) (.pair m)

/-- Of two copies of a message of the partner that NETBACK makes, the first counts: none for the second. -/
def State.firstCopy (s : State) (m : PairMsg) : Option State :=
  if !s.bit Reg.PAIR_CFG_NETBACK then some s
  else if s.pair.seen.contains m then none
  else some (s.modPair fun p => { p with seen := (p.seen ++ [m]).drop (p.seen.length - 63) })

/-- The message concerns the pair of this engine and comes from its other member. -/
def State.fromPartner (s : State) (m : PairMsg) : Bool :=
  s.bit Reg.PAIR_CFG_EN && m.origin == s.get Reg.PAIR_PARTNER_PARTNER && m.pair == s.devnum

/-- The message concerns the pair of this engine and comes from its witness. -/
def State.fromWitness (s : State) (m : PairMsg) : Bool :=
  s.bit Reg.PAIR_CFG_EN && m.origin == s.get Reg.PAIR_PARTNER_WITNESS && m.pair == s.get Reg.PAIR_PARTNER_PARTNER

/-- The conditions of R354 for a pair message. -/
def State.accepts (s : State) (m : PairMsg) : Bool := m.authOk && s.isMember m.origin

/-- MODE, LEASE_MS and GUARD_MS agree (R759, R761). -/
def State.agrees (s : State) (m : PairMsg) : Bool :=
  m.mode == s.get Reg.PAIR_CFG_MODE && m.leaseMs == s.get Reg.PAIR_TIMES_LEASE_MS && m.guardMs == s.get Reg.PAIR_TIMES_GUARD_MS

/-- The partner, or the witness, has been heard. -/
def State.heardPartner (s : State) (m : PairMsg) : State :=
  ((s.set Reg.PAIR_STATUS_PARTNER_SEEN).putBit Reg.PAIR_STATUS_READY_PARTNER m.ready).modPair fun p =>
    { p with partnerAt := some s.now }
def State.heardWitness (s : State) : State :=
  (s.set Reg.PAIR_STATUS_WITNESS_SEEN).modPair fun p => { p with witnessAt := some s.now }

/-- A message of the partner is acted on: it is accepted, its settings agree and it is the first copy. -/
def State.onPartner (s : State) (m : PairMsg) (f : State → State) : State :=
  if !s.accepts m || !s.fromPartner m then s
  else
    match s.firstCopy m with
    | none => { s with pair := { s.pair with seen := s.pair.seen.filter fun x => x != m } }
    | some t => if t.agrees m then f (t.heardPartner m) else t.pairEvent 5 .refused

/-- A message of the witness is acted on. -/
def State.onWitness (s : State) (m : PairMsg) (f : State → State) : State :=
  if s.accepts m && s.fromWitness m then f s.heardWitness else s

/-! ### The witness (R762, R763, R767, R769) -/

/-- What this engine keeps, as witness, of the pair of two members. -/
def State.witOf (s : State) (a b : Nat) : Option WitPair :=
  s.pair.witness.find? fun w => (w.a == a && w.b == b) || (w.a == b && w.b == a)

def State.setWit (s : State) (w : WitPair) : State :=
  let l := if (s.witOf w.a w.b).isSome then
      s.pair.witness.map fun x => if (x.a == w.a && x.b == w.b) || (x.a == w.b && x.b == w.a) then w else x
    else s.pair.witness ++ [w]
  (s.modPair fun p => { p with witness := l }).put Reg.PAIR_WIT_PAIRS l.length

/-- An answer of the witness to a member of a pair. -/
def State.witAnswer (s : State) (kind : Nat) (m : PairMsg) (epoch : Nat) (refuse busy : Bool) : State :=
  s.sendCtrl m.origin (.pair { kind := kind, origin := s.devnum, pair := m.pair, refuse := refuse, busy := busy, epoch := epoch,
                               seq := m.seq, mode := m.mode, leaseMs := m.leaseMs, guardMs := m.guardMs })

/-- A RENEW at the witness: the highest epoch it knows is acknowledged, a lower one refused. -/
def State.witRenew (s : State) (m : PairMsg) : State :=
  match s.witOf m.origin m.pair with
  | some w =>
    if m.epoch < w.epoch then s.witAnswer 0x11 m w.epoch true false
    else (s.setWit { w with epoch := m.epoch, holder := m.origin, renewed := some s.now }).witAnswer 0x11 m m.epoch false false
  | none =>
    if 8 ≤ s.pair.witness.length then s
    else (s.setWit { a := m.origin, b := m.pair, epoch := m.epoch, holder := m.origin, renewed := some s.now }).witAnswer 0x11 m
      m.epoch false false

/-- A CLAIM at the witness: granted when no renewal has come for LEASE_MS + GUARD_MS. An epoch that the other member has been
granted is not granted twice (DEDUCED, log entry 41). -/
def State.witClaim (s : State) (m : PairMsg) : State :=
  match s.witOf m.origin m.pair with
  | some w =>
    let silent := match w.renewed with
      | some t => decide (t + s.samplesMs 0 (m.leaseMs + m.guardMs) ≤ s.now)
      | none => true
    if silent && !(w.epoch == m.epoch && w.holder != m.origin) then
      (s.setWit { w with epoch := max w.epoch m.epoch, holder := m.origin }).witAnswer 0x16 m m.epoch false false
    else s.witAnswer 0x11 m w.epoch true false
  | none =>
    if 8 ≤ s.pair.witness.length then s.witAnswer 0x11 m m.epoch true true
    else (s.setWit { a := m.origin, b := m.pair, epoch := m.epoch, holder := m.origin }).witAnswer 0x16 m m.epoch false false

/-! ### Takeover and yield (R767, R777, R778) -/

/-- The engine takes the lease with the epoch it has claimed: kind 1 silence, 2 yield, 3 swap. A yield leaves no gap; after a
silence the failed holder's last sample is not known here, so the gap is open. -/
def State.takeLease (s : State) : State :=
  let kind := s.pair.takeKind
  let gap := if kind = 1 then s.free.toNat % 2 ^ 32 else 0
  let s1 := ((s.take.put Reg.PAIR_EPOCH_EPOCH s.pair.claimed).put Reg.PAIR_STATUS_ROLE 1).clear
    [Reg.PAIR_STATUS_READY, Reg.PAIR_STATUS_SUSPECT, Reg.PAIR_STATUS_SYNC, Reg.PAIR_STATUS_READY_PARTNER]
  let s2 := s1.modPair fun p =>
    { renewNum := p.renewNum, ackedAt := s.now, heardAt := p.heardAt, partnerAt := p.partnerAt, witnessAt := p.witnessAt,
      errAt := p.errAt, replica := p.replica, replicaAt := p.replicaAt, seen := p.seen, witness := p.witness,
      coldStart := p.coldStart, refxoGate := p.refxoGate }
  let s3 := if s2.gateFree then s2.openGate else (s2.put Reg.PAIR_STATUS_ROLE 3).pairEvent 6 .ok
  let s4 := ((s3.bump Reg.PAIR_CNT_TAKEOVERS).put Reg.PAIR_LAST_GAP_US gap).pairEvent 1 .ok
  s4.postNow .fault (some 60) 0x182 [kind, s.pair.claimed, gap]

/-- R777: YIELD with the handover SI, `frames` after the boundary of the running frame: the first one at least 2 frames ahead is the
second from that boundary itself and the third from an instant inside the frame (log entry 163). `verdict`: an error was found here. -/
def State.sendYield (s : State) (verdict : Bool) (frames : Nat) : State :=
  let y := s.now + frames * s.blockP
  (s.sendPair { s.pairMsg 0x17 with si := y, errorFound := verdict }).modPair fun p =>
    { p with yieldAt := some (y, false), suspectNext := verdict, swap := if verdict then p.swap else 3 }

/-! ### Control state (R776) -/

/-- The full parameter and patch state of this boundary, and what is pending after it. -/
def State.controlState (s : State) : ControlState :=
  { si := s.now, params := s.mix.params, patch := s.mix.patch.map fun e => (e.1, e.2.source, e.2.looped),
    entries := s.mix.changes.map fun c =>
      { handle := c.handle, cluster := c.cluster, slot := c.slot, target := c.target, len := c.len, shape := c.shape, v1 := c.v1,
        raw := c.raw, rank := c.rank, order := c.order, pour := c.pour, bounce := c.bounce },
    patches := s.mix.patchChanges.map fun c =>
      { dst := c.dst, source := c.source, target := c.target, len := c.len, eqPower := c.eqPower, order := c.order,
        domain := c.domain, looped := c.looped, pour := c.pour },
    swaps := s.mix.swaps.map fun c =>
      { cluster := c.cluster, unit := c.unit, digest := c.digest, domain := c.domain, target := c.target, pour := c.pour },
    pours := (s.pours.live.filter fun p => p.phase == .armed).map fun p =>
      { origin := p.origin, tag := p.tag, issue := p.issue, t := p.t, scene := p.scene, runs := p.runs, endSi := p.endSi,
        ramp := p.ramp, law := p.law, strict := p.strict },
    templates := s.pours.templates, mirror := s.pair.mirrorOut }

/-- The holder sends control state to the standby, and counts the time of the resynchronisation from it. -/
def State.sendState (s : State) : State :=
  (s.sendPair { s.pairMsg 0x18 with control := some s.controlState }).modPair fun p => { p with stateSent := true, resyncAt := s.now }

/-- The standby takes the control state of the holder. -/
def State.installControl (s : State) (c : ControlState) : State :=
  let s1 := s.modMix fun m =>
    { m with
      params := c.params, patch := c.patch.map fun e => (e.1, { source := e.2.1, looped := e.2.2 }),
      changes := c.entries.map fun e =>
        { handle := e.handle, cluster := e.cluster, slot := e.slot, target := e.target, len := e.len, shape := e.shape, v1 := e.v1,
          raw := e.raw, rank := e.rank, order := e.order, pour := e.pour, bounce := e.bounce },
      patchChanges := c.patches.map fun e =>
        { dst := e.dst, source := e.source, target := e.target, len := e.len, eqPower := e.eqPower, order := e.order,
          domain := e.domain, looped := e.looped, pour := e.pour },
      swaps := c.swaps.map fun e =>
        { cluster := e.cluster, unit := e.unit, digest := e.digest, domain := e.domain, target := e.target, pour := e.pour } }
  let live : List Pour := c.pours.map fun p =>
    { origin := p.origin, tag := p.tag, issue := p.issue, t := p.t, scene := p.scene, runs := p.runs, endSi := p.endSi,
      ramp := p.ramp, law := p.law, strict := p.strict, phase := .armed }
  let s2 : State := { s1 with pours := { s1.pours with live := live, templates := c.templates } }
  let s3 := (s2.countLive).modPair fun p => { p with mirrorIn := c.mirror, matches_ := 0, mismatches := 0 }
  let s4 := s3.each (List.range 3) fun d t => t.stageNow d
  match s4.active with
  | some i => s4.each (List.range 64) fun k t => if (t.imageAt k).isSome then t.writeSlots i k else t
  | none => s4

end Sys2Proof.Machine
end

