-- ==== Sys2Proof/Machine/Pins.lean ====
section
/-! DEFINITION. The multi-function pads (R828–R833). -/

namespace Sys2Proof.Machine

/-- OUT, PULL, DRIVE and PARAM as the register of a pad holds them. -/
def State.pinCfg (s : State) (k : Nat) : Nat :=
  s.get (Reg.PINFN_MFP_OUT k) + 2 * s.get (Reg.PINFN_MFP_PULL k) + 8 * s.get (Reg.PINFN_MFP_DRIVE k) + 32 * s.get (Reg.PINFN_MFP_PARAM k)

/-- The function a pad has, or has at the end of its park. -/
def State.pinFn (s : State) (k : Nat) : Nat := (Tab.get none s.pins.parked k).getD (Tab.get 0 s.pins.fn k)

/-- PENDING of a pad, and PENDING_ANY, follow what is written and what is in force (R830). -/
def State.showPin (s : State) (k : Nat) : State :=
  let s1 := s.putBit (Reg.PINFN_MFP_PENDING k)
    (s.get (Reg.PINFN_MFP_FN k) != s.pinFn k || s.pinCfg k != Tab.get 0 s.pins.cfg k)
  s1.putBit Reg.PINFN_STATUS_PENDING_ANY ((List.range 32).any fun j => s1.bit (Reg.PINFN_MFP_PENDING j))

/-- The level of a pad that drives OUT. -/
def State.pinLevel (s : State) (k : Nat) : State :=
  if Tab.get 0 s.pins.fn k = 2 ∧ (Tab.get none s.pins.parked k).isNone then
    if Tab.get 0 s.pins.cfg k % 2 = 1 then s.setMask Reg.PINFN_LEVEL_LEVEL k else s.clrMask Reg.PINFN_LEVEL_LEVEL k
  else s

/-- R828, R830, R831: a write to a pad. -/
def State.pinWrite (s : State) (k v : Nat) : State :=
  let fn := v % 16
  let twice := (fn == 3 || fn == 4 || fn == 5) && (List.range 32).any fun j => j != k && s.get (Reg.PINFN_MFP_FN j) == fn
  if decide (11 ≤ fn) || twice then (s.set Reg.PINFN_STATUS_CFG_REJ).bump Reg.PINFN_CNT_REJECTS
  else (s.writePlain (0x15010 + 4 * k) v).showPin k

def execPinfnWrite (k : Fin 32) (value : BitVec 32) (s : State) : Out :=
  s.ifRestored (0x15010 + 4 * k.val) (!(s.changes (0x15010 + 4 * k.val) value.toNat).isEmpty) <|
    .next (s.pinWrite k.val value.toNat)

/-- Domain P has frame boundaries (R832). -/
def State.pinsMove (s : State) : Bool := (s.mpll 0).everLocked && (s.dom 0).running

/-- R829, R830, R832: at a P-domain frame boundary a change of function parks the pad; any other change takes effect. -/
def execPinfnChange (k : Fin 32) (s : State) : Out :=
  let fn := s.get (Reg.PINFN_MFP_FN k.val)
  .next (if !s.pinsMove || !s.bit (Reg.PINFN_MFP_PENDING k.val) then s
    else
      let s1 : State := { s with pins := { s.pins with cfg := Tab.put 0 s.pins.cfg k.val (s.pinCfg k.val) } }
      if fn = s.pinFn k.val then (s1.pinLevel k.val).showPin k.val
      else
        let s2 : State := { s1 with pins := { s1.pins with parked := Tab.put none s1.pins.parked k.val (some fn) } }
        (s2.set (Reg.PINFN_MFP_PARKED k.val)).showPin k.val)

/-- R829: after 1 µs the new function takes the pad. -/
def execPinfnParkEnd (k : Fin 32) (s : State) : Out :=
  match Tab.get none s.pins.parked k.val with
  | none => .next s
  | some fn =>
    let s1 : State := { s with pins := { s.pins with fn := Tab.put 0 s.pins.fn k.val fn, parked := Tab.put none s.pins.parked k.val none } }
    .next ((((s1.put (Reg.PINFN_MFP_PARKED k.val) 0).bump Reg.PINFN_CNT_CHANGES).pinLevel k.val).showPin k.val)

/-- R833. -/
def execPinfnCntClr (s : State) : Out := s.ifHost <| .next (s.clear [Reg.PINFN_CNT_CHANGES, Reg.PINFN_CNT_REJECTS])

end Sys2Proof.Machine
end

