-- ==== Sys2Proof/Machine/PowerOps.lean ====
section
/-! DEFINITION. The Bisque image: what the settings are, where their fields come from, and their commits (R704–R713,
R741, R807–R811, R842). -/

namespace Sys2Proof.Machine

def State.modPwr (s : State) (f : PwrSt → PwrSt) : State := { s with pwr := f s.pwr }

/-! ### Restored fields (R705, R807) -/

/-- The rows of the register tables whose power-up entry is restored. -/
def restoredRows : List RegRow := regRows.filter fun r => decide (r.pup = .restored)

/-- Every restored field with its row. -/
def restoredFields : List (RegRow × Fld) := restoredRows.flatMap fun r => (instances r).map fun f => (r, f)

/-- A key of the register table names a restored field. -/
def restoredKey (k : Nat) : Bool :=
  restoredRows.any fun r => match hit r (k / 32) with | some f => f.lo == k % 32 | none => false

/-- MODE and XPN of a network port under a policy: the policy's code of the port holds both (R515). -/
def macsecOf (p : Policy) (x : Nat) : Nat × Nat := (p.macsec.getD x 0 % 4, p.macsec.getD x 0 / 4 % 2)

/-- The registers that show an owner policy, and their values (R741, R807). -/
def policyRegs (p : Policy) : List (Fld × Nat) :=
  let bit (b : Bool) : Nat := if b then 1 else 0
  [(Reg.CLK_STATUS_HOST_SERVO, bit p.hostServo), (Reg.SCHED_POUR_CFG_STRICT, bit p.strict), (Reg.HOST_HUSH_CFG_PIN_LATCH, bit p.pinLatch),
   (Reg.HOST_HUSH_PIN_GRP_GROUPS, p.hushGroups.toNat), (Reg.HOST_DRAM_WIN_BASE_BASE, p.dmaBase),
   (Reg.HOST_DRAM_WIN_SIZE_SIZE, p.dmaSize), (Reg.SURF_POLICY_ACT_ACTION, p.actions), (Reg.SURF_POLICY_SE_REQ_SE, p.needSe),
   (Reg.STORE_POLICY_EXPORT_PLAIN, bit p.exportPlain), (Reg.STORE_POLICY_HOST_FORMAT, bit p.hostFormat),
   (Reg.STORE_POLICY_HOST_DELETE, bit p.hostDelete), (Reg.PWR_POLICY_HOST_STANDBY, bit p.hostStandby)] ++
  (List.range 2).flatMap fun x => [(Reg.NET_MACSEC_MODE x, (macsecOf p x).1), (Reg.NET_MACSEC_XPN x, (macsecOf p x).2)]

/-- The engine's own DEVNUM: the entry of a list that holds its identity (R744). -/
def ownDevnum (members : Tab Nat) (identity : Nat) : Nat :=
  match members.find? fun e => e.2 == listDigest identity && identity != 0 with | some e => e.1 | none => 0

/-- The fields whose value comes from a committed source (R807): policy, membership list and identity area. -/
def State.sourcedRegs (s : State) : List (Fld × Nat) :=
  policyRegs (s.trust.policy.getD {}) ++ [(Reg.WL_DEVNUM_DEVNUM, ownDevnum s.wl.members s.trust.identity)] ++
  ((List.range 3).map fun x => (Reg.NET_MAC_MAC x, s.trust.macs.getD x 0)) ++
  (List.range 4).map fun k => (Reg.GLOBAL_SERIAL_BYTES k, s.trust.serial.getD k 0)

/-- The value a restored field takes from a base, and whether it is a default that DEFAULTED counts (R810). -/
def restoredValue (x : Option Settings) (sourced : List (Fld × Nat)) (r : RegRow) (f : Fld) : Nat × Bool :=
  match sourced.find? fun e => e.1.key == f.key with
  | some e => (e.2, false)
  | none =>
    match x with
    | none => (dfltOf r, false)
    | some b =>
      let v := Tab.get 0 b.regs f.key
      if b.absent.contains f.key || discards r v then (dfltOf r, true) else (v, false)

/-! ### Settings (R699, R705, R706) -/

/-- The content that a commit stores. -/
def State.content (s : State) (t : TimeRecord) : Settings :=
  { regs := s.regs.filter fun e => restoredKey e.1, route := s.wl.route, params := s.mix.params,
    patch := s.mix.patch.map fun e => (e.1, e.2.source, e.2.looped), sched := s.active, pset := s.get Reg.PWR_BISQUE_PSET,
    dco := [(0, s.get (Reg.CLK_MPLL_DCO_WORD 0)), (1, s.get (Reg.CLK_MPLL_DCO_WORD 1)), (2, s.get (Reg.CLK_MPLL_DCO_WORD 2))].filter
      fun e => e.2 != 0,
    warm := t.warm, ptpSec := t.ptpSec, warmErr := t.err }

/-- Settings without their time record, which alone is no change of settings. -/
def plainSettings (x : Settings) : Settings := { x with warm := 0, ptpSec := 0, warmErr := 0 }

/-- The program images that a schedule names. -/
def State.programsOf (s : State) (i : SchedImage) : List ProgImage :=
  s.sched.programs.filter fun p => i.servoProg == some p.digest || i.clusters.any fun c => c.images.contains p.digest

/-- The programs of the active schedule are in the program set that the settings name: a new schedule goes into the other set
(DESIGN CHOICE, log entry 42). -/
def State.storePrograms (s : State) : State :=
  match s.active with
  | none => s
  | some i =>
    let k := s.get Reg.PWR_BISQUE_PSET
    if (Tab.get none s.pwr.sets k).any (fun p => p.image == i) then s
    else
      (s.modPwr fun p => { p with sets := Tab.put none p.sets (1 - k) (some ⟨i, s.programsOf i⟩) }).put Reg.PWR_BISQUE_PSET (1 - k)

def State.copy (s : State) (k : Nat) : BisqueCopy := Tab.get {} s.pwr.copies k
def State.setCopy (s : State) (k : Nat) (c : BisqueCopy) : State := s.modPwr fun p => { p with copies := Tab.put {} p.copies k c }

/-- The highest generation found. -/
def State.topGen (s : State) : Nat := (List.range 3).foldl (fun m k => max m (s.copy k).generation) 0

/-- A new base with generation + 1 goes into copies 0, 1 and 2 in turn (R706, R708): `n` of them are written whole; where
fewer than three are, the next one is torn, and the rewrite is made again later. -/
def State.rewriteBase (s : State) (x : Settings) (n : Nat) : State :=
  let g := s.topGen + 1
  let s1 := s.each (List.range (min n 3)) fun k t => t.setCopy k { intact := true, generation := g, content := x }
  (if n < 3 then s1.setCopy n { s1.copy n with intact := false } else s1).modPwr fun p =>
    { p with rebase := decide (n < 3), torn := decide (n < 3) }

/-- A journal record goes to copies 0, 1 and 2 in turn, `n` of them; a copy that is not intact takes none (R706, R712). -/
def State.appendRecord (s : State) (x : Settings) (bytes n : Nat) : State :=
  s.each (List.range (min n 3)) fun k t =>
    let c := t.copy k
    if c.intact then t.setCopy k { c with content := x, records := c.records + 1, journal := c.journal + bytes } else t

/-- Commits are made (R712, R766): start-up has passed step 7, and a pair member holds the lease. -/
def State.commits (s : State) : Bool := s.pwr.started && s.pwr.audio && decide (s.get Reg.PAIR_STATUS_ROLE < 2)

/-- A journal has passed 192 KiB. -/
def State.journalFull (s : State) : Bool := (List.range 3).any fun k => decide (196608 < (s.copy k).journal)

/-- The settings differ from what the last append stored. -/
def State.settingsChanged (s : State) (t : TimeRecord) : Bool :=
  s.pwr.rebase || decide (plainSettings (s.storePrograms.content t) ≠ plainSettings s.pwr.saved)

/-- The final commit (R712): one record to every intact copy, also where a base rewrite was broken off at a copy, or the new base that
a start in the house scene owes (R708). -/
def State.finalCommit (s : State) (bytes : Nat) (t : TimeRecord) : State :=
  let s1 := s.storePrograms
  let x := s1.content t
  let intact := (List.range 3).any fun k => (s1.copy k).intact
  let s2 := if s1.pwr.rebase && !(s1.pwr.torn && intact) then s1.rewriteBase x 3 else s1.appendRecord x (min bytes 65536) 3
  s2.modPwr fun p => { p with saved := x, commitAt := some s.now, appendAt := some s.now }

/-- R706: the settings have changed since the last append, which is a second ago. `bytes`: the record's length. `reach`: how
far the append came before it was broken off: copies of the record written, and from 3 copies of a new base. -/
def execSettingsAppend (bytes : Nat) (t : TimeRecord) (reach : Fin 7) (s : State) : Out :=
  let soon := match s.pwr.appendAt with | some a => decide (s.now < a + (s.dom 0).rate) | none => false
  if !s.commits || soon || !s.settingsChanged t then .next s
  else
    let s1 := s.storePrograms
    let x := s1.content t
    let s2 : State :=
      if s1.pwr.rebase then s1.rewriteBase x reach.val
      else
        let a := s1.appendRecord x bytes reach.val
        if a.journalFull then (if reach.val < 3 then a else a.rewriteBase x (reach.val - 3)) else a
    .next (s2.modPwr fun p => { p with appendAt := some s.now, saved := if reach.val < 3 then p.saved else x })

end Sys2Proof.Machine
end

