-- ==== Sys2Proof/Machine/Start.lean ====
section
/-! DEFINITION. Start-up: what a cold start keeps, the selection of a settings copy, restoration, the start of clocks and
schedule, and first audio (R694, R707–R709, R714–R718, R807–R810, R842). -/

namespace Sys2Proof.Machine

/-! ### What a cold start keeps (R696, R704, R710, R723, R730, R758, R805) -/

/-- Registers of the warmer domain, of the life cycle and of the sensors: MRAM, the warmer supply and the dies hold them. -/
def keptFields : List Fld :=
  [Reg.PWR_STATUS_SUPPLY, Reg.PWR_STATUS_VPF_LOW, Reg.PWR_STATUS_HANDOVER_SEEN, Reg.PWR_STATUS_WARM_LOST, Reg.PWR_STATUS_COLD_NEXT,
   Reg.PWR_STATUS_WAKE_FAIL, Reg.PWR_WARM_CNT_COUNT, Reg.PWR_ALARM_ALARM, Reg.PWR_ALARM_CTL_EN, Reg.PWR_ALARM_CTL_FIRED,
   Reg.TRUST_STATE_LCS, Reg.TRUST_STATE_POLICY, Reg.TRUST_STATE_MEMBERS, Reg.TRUST_STATE_HOUSE, Reg.TRUST_FW_CURRENT,
   Reg.TRUST_FW_TRY_OTHER, Reg.GLOBAL_THERM_HOLD, Reg.GLOBAL_THERM_MAX, Reg.SCHED_STATUS_THERM_HOLD, Reg.GLOBAL_REV_STEP,
   Reg.GLOBAL_REV_GRADE] ++
  ((List.range 12).flatMap fun k => [Reg.TRUST_ID_DIGEST_BYTES k, Reg.TRUST_OWNER_DIGEST_BYTES k, Reg.GLOBAL_TEMP_TEMP k]) ++
  (List.range 6).map Reg.TRUST_CTR_VALUE

/-- The state from which start-up begins: that of reset but for MRAM, the drives' contents, the warmer domain, host memory
and the queue of commands. A policy or list that was committed is in force. -/
def State.cleared (s : State) : State :=
  let t : State :=
    { State.reset with
      pending := s.pending, ctr := s.ctr, hostMem := s.hostMem, host := { evRing := s.host.evRing },
      pwr := { copies := s.pwr.copies, house := s.pwr.house, sets := s.pwr.sets, library := s.pwr.library, fw := s.pwr.fw,
               vbatCount := s.pwr.vbatCount, wakeCause := s.pwr.wakeCause, started := true },
      trust := { identity := s.trust.identity, owner := s.trust.owner,
                 policy := match s.trust.policyNext with | some p => some p.1 | none => s.trust.policy,
                 claimCode := s.trust.claimCode, chain := s.trust.chain, macs := s.trust.macs, serial := s.trust.serial,
                 digests := s.trust.digests },
      wl := { members := match s.trust.membersNext with | some l => Tab.ofList 0 l.1 | none => s.wl.members },
      store := { s.store with store := 0, drives := [], plays := [], moves := [], stopped := false, keys := none, issued := [] } }
  t.each keptFields fun f u => u.put f (s.get f)

/-! ### Selections (R707, R709, R752) -/

/-- The firmware copy that starts: the current one, or first the one marked to be tried; either must verify and pass the
counter. -/
def State.pickFw (s : State) (f : StartFacts) : Option Nat :=
  let ok (k : Nat) : Bool := (if k = 0 then f.fwA else f.fwB) && decide (s.get (Reg.TRUST_CTR_VALUE 0) ≤ Tab.get 0 s.pwr.fw k)
  let cur := s.get Reg.TRUST_FW_CURRENT
  let first := if s.bit Reg.TRUST_FW_TRY_OTHER then 1 - cur else cur
  if ok first then some first else if ok (1 - first) then some (1 - first) else none

/-- A copy's header verifies. -/
def State.intactAt (s : State) (f : StartFacts) (k : Nat) : Bool := (s.copy k).intact && !f.badCopies.contains k

/-- The intact copies of the highest generation. -/
def State.newest (s : State) (f : StartFacts) : List Nat :=
  let l := (List.range 3).filter (s.intactAt f)
  let g := l.foldl (fun m k => max m (s.copy k).generation) 0
  l.filter fun k => (s.copy k).generation == g

/-- R707: the copy selected, if any, whether by majority, and the status. -/
def State.chooseCopy (s : State) (f : StartFacts) : Option Nat × Bool × Status :=
  let same (a b : Nat) : Bool := decide ((s.copy a).content = (s.copy b).content)
  match s.newest f with
  | [] => (none, false, .badSignature)
  | [a] => (some a, false, .ok)
  | [a, b] => if same a b then (some a, false, .ok) else (none, false, .splitImage)
  | a :: b :: c :: _ =>
    if same a b && same a c then (some a, false, .ok)
    else if same a b || same a c then (some a, true, .ok)
    else if same b c then (some b, true, .ok)
    else (none, false, .splitImage)

/-- The registers that show the selection (R723). -/
def State.showCopies (s : State) (f : StartFacts) (pick : Option Nat) (maj : Bool) (st : Status) : State :=
  let news := s.newest f
  let s1 := s.each (List.range 3) fun k t =>
    (((t.putBit (Reg.PWR_COPY_INTACT k) (s.intactAt f k)).putBit (Reg.PWR_COPY_NEWEST k) (news.contains k)).putBit (Reg.PWR_COPY_AGREES k)
      (match pick with | some p => decide ((s.copy k).content = (s.copy p).content) && s.intactAt f k | none => false)).put
      (Reg.PWR_COPY_RECORDS k) (min (s.copy k).records 65535)
  (((s1.put Reg.PWR_BISQUE_COPY (pick.getD 3)).putBit Reg.PWR_BISQUE_MAJORITY maj).putBit Reg.PWR_BISQUE_SPLIT
    (st == .splitImage)).put Reg.PWR_GEN_GEN (match pick with | some p => (s.copy p).generation | none => 0)

/-! ### Clocks (R108, R414, R715) -/

/-- SI at an instant: floor(t × fs), rounded up to a multiple of B. -/
def startSi (ns rate block : Nat) : Nat :=
  let b := max 1 block
  ceilDiv (ns * rate / 1000000000) b * b

/-- The domains of a schedule start; without one, domain P alone. -/
def State.startDomains (s : State) (i : Option SchedImage) (ns : Nat) : State :=
  s.each (List.range 3) fun d t =>
    match i.bind fun x => shareOf x d with
    | some x =>
      t.modDom d fun y => { y with configured := true, rate := x.rate, block := x.block, running := true, pull := x.pull,
                                   si := startSi ns x.rate x.block, begun := startSi ns x.rate x.block }
    | none =>
      if d = 0 then t.modDom 0 fun y => { y with running := true, si := startSi ns y.rate y.block, begun := startSi ns y.rate y.block }
      else t

/-- R715: the MPLL of every configured domain locks on REF_XO, with the restored DCO word as an offset; where no register names
a candidate its state is FREE_RUN (R387). -/
def State.startMplls (s : State) : State :=
  s.each ((List.range 3).filter fun n => (s.dom n).configured) fun n t =>
    let t1 := (t.modMpll n fun m => { m with bias := signed32 (t.get (Reg.CLK_MPLL_DCO_WORD n)), everLocked := true, lockedAt := t.now }).put
      (Reg.CLK_MPLL_STATE_SEL_VALID n) 0
    if t1.allNone n then t1.masterClocks else (t1.masterClocks.enterAcquire n).enterMpll n locked

/-! ### Restoration (R807–R810, R842) -/

/-- Fields that enable, which are applied last (R842). -/
def isEnable (r : RegRow) : Bool :=
  r.lo == 0 && [0x3044, 0xc000, 0x10000, 0x6100, 0x7100, 0x7500, 0x8010, 0x8030, 0x8060, 0x9010, 0x9020, 0x13000].contains r.base

/-- A restored enable, applied as a write of its value under its block's rules. -/
def State.applyEnable (s : State) (r : RegRow) (f : Fld) (v : Nat) : State :=
  let n := f.off % 4096
  match r.base with
  | 0x8010 => s.run (execConvEnWrite (ix 4 ((n - 0x10) / 16)) (v == 1) (ix 4 (s.get (convPreset ((n - 0x10) / 16)))) 0)
  | 0x8030 => s.run (execConvEnWrite (ix 4 ((n - 0x10) / 16)) (v == 1) (ix 4 (s.get (convPreset ((n - 0x10) / 16)))) 0)
  | 0x8060 => s.each (List.range 2) fun c t =>
      if Nat.testBit v c == t.psEn c then t else t.run (execPsEnWrite (ix 2 c) (Nat.testBit v c) 0)
  | base =>
    if s.get f = v then s
    else
      match base with
      | 0x10000 => s.wlEnable (f.off / 1024 % 4) (v == 1)
      | 0x6100 => if v = 1 then s.enablePort ((n - 0x100) / 32) else s.disablePort ((n - 0x100) / 32)
      | 0x7100 => if v = 1 then s.enableAesRx ((n - 0x100) / 128) else s.disableAesRx ((n - 0x100) / 128)
      | 0x7500 => if v = 1 then s.enableAesTx ((n - 0x500) / 128) else s.disableAesTx ((n - 0x500) / 128)
      | 0x9020 => s.slEnable ((n - 0x20) / 4) (v == 1)
      | 0x13000 => if s.pairRefused then s.reject 0x13000 else s.beginPairing
      | _ => s.put f v

/-- The restored law takes effect when it is one that LAW_COMMIT would take (R652). -/
def State.restoreLaw (s : State) : State :=
  let t := s.run execLawCommit
  match t.surf.lawNext with
  | some l => t.modSurf fun x => { x with law := l, lawNext := none }
  | none => s

/-- The restored fields of a list take their values: `src` holds the sourced ones. -/
def State.restoreFields (s : State) (l : List (RegRow × Fld)) (x : Option Settings) (src : List (Fld × Nat)) : State :=
  let s1 := s.each l fun e t =>
    let v := restoredValue x src e.1 e.2
    let t1 := if isEnable e.1 then t else t.put e.2 v.1
    if v.2 then t1.bump Reg.GLOBAL_RESTORE_DEFAULTED else t1
  s1.each (List.range 3) fun n t =>
    if t.get (Reg.CLK_MPLL_CTL_LOOP n) = 2 ∧ t.bit Reg.CLK_STATUS_HOST_SERVO = false then t.put (Reg.CLK_MPLL_CTL_LOOP n) 1 else t

/-- Fields, route table, parameters and patches take the values of a base, then the enables (R714, R842). -/
def State.restoreSettings (s : State) (l : List (RegRow × Fld)) (x : Option Settings) : State :=
  let src := s.sourcedRegs
  let s1 := s.restoreFields l x src
  let b := x.getD {}
  let s2 : State := { s1 with wl := { s1.wl with route := b.route },
                              mix := { s1.mix with params := b.params, patch := b.patch.map fun e => (e.1, { source := e.2.1, looped := e.2.2 }) } }
  let s3 : State := { s2 with audio := { s2.audio with active := (List.range 16).foldl (fun t k =>
    Tab.put 0 t k (sentTemplate (s2.staging (k / 2) (k % 2)))) s2.audio.active } }
  let s4 := (s3.restoreLaw).each (List.range 32) fun k t => t.showPin k
  s4.each (l.filter fun e => isEnable e.1) fun e t => t.applyEnable e.1 e.2 (restoredValue x src e.1 e.2).1

/-- Step 2 (R714). SOURCE: 0 a settings copy, 1 the house scene, 2 defaults only. -/
def State.restore (s : State) (x : Option Settings) (source : Nat) : State :=
  ((s.set Reg.GLOBAL_RESTORE_DONE).put Reg.GLOBAL_RESTORE_SOURCE source).restoreSettings restoredFields x

/-! ### Schedule and first audio (R714, R716, R717) -/

/-- R144: the status of an admission that the restored schedule fails. -/
def State.startRefused (s : State) (i : SchedImage) : Option Status :=
  match s.checkSig i.sig 4 with
  | some st => some st
  | none => if (s.checks i).isSome then some .noHeadroom else none

/-- The restored schedule is active: programs are loaded, slots and stage tables written, clocks set (steps 5 to 7). -/
def State.startSchedule (s : State) (i : SchedImage) : State :=
  let s1 := (s.modSched fun q => { q with active := 0, bank0 := { image := some i } }).advanceCounters i
  let s2 := ((s1.put Reg.SCHED_STATUS_NONE 0).put Reg.SCHED_STATUS_ACTIVE_BANK 0).set Reg.SCHED_SLICE_ST_LOCKED
  let s3 := s2.each (List.range 3) fun d t => (t.setPoints i d).showRotation i d
  let s4 := (s3.newStrips i).loadServos i
  let s5 := s4.each (List.range 64) fun c t => if (t.imageAt c).isSome then (t.loadCluster i c).writeSlots i c else t
  s5.each (List.range 3) fun d t => (t.stageNow d).tables i d

/-- R716: the start gain of every domain of the schedule opens from its first emitted block. -/
def State.unmuteAll (s : State) : State :=
  State.showGated <| s.each ((List.range 3).filter fun d => (s.dom d).configured) fun d t =>
    let n := s.samplesMs d (s.get Reg.PWR_UNMUTE_MS)
    let at_ := (s.dom d).si + 2 * (s.dom d).block
    t.modPwr fun p => { p with unmute := Tab.put none p.unmute d (some (if n = 0 then {} else gateTo (shutGate n) false n at_)) }

/-- The end of a start: first audio, the firmware counter, and the START event (R717, R739). -/
def State.endStart (s : State) (kind : Nat) (f : StartFacts) (fw : Nat) (st : Status) : State :=
  let flags := s.get Reg.PWR_STATUS_WARM_LOST + 2 * s.get Reg.PWR_STATUS_COLD_NEXT
  let s1 := (s.put Reg.PWR_START_MS_FIRST_AUDIO f.audioMs).put Reg.PWR_START_MS_ADMIT f.admitMs
  let s2 := ((s1.put Reg.PWR_STATUS_START_KIND kind).put Reg.PWR_STATUS_CAUSE s.pwr.wakeCause)
  let s3 := (((s2.raise (Reg.TRUST_CTR_VALUE 0) (Tab.get 0 s.pwr.fw fw)).put Reg.TRUST_FW_CURRENT fw).put Reg.TRUST_FW_TRY_OTHER 0)
  let s4 := s3.modPwr fun p => { p with
    audio := true, wakeCause := 0,
    start := some ([kind, s.pwr.wakeCause, s.get Reg.PWR_BISQUE_COPY, flags, f.audioMs], st) }
  let s5 : State := { s4 with trust := { s4.trust with since := s4.now } }
  s5.postStart

/-- A start on a base: its domains, its fields, its clocks. -/
def State.startOn (s : State) (x : Option Settings) (source : Nat) (f : StartFacts) : State :=
  ((s.setClock (ptpClockOf (16 * f.ns))).startDomains (x.bind (·.sched)) f.ns |>.restore x source).startMplls

/-- A start without a schedule (R717, R810). -/
def State.startBare (s : State) (kind : Nat) (f : StartFacts) (fw : Nat) (st : Status) : State :=
  ((((s.startOn none 2 f).put Reg.PWR_BISQUE_COPY 3).modPwr fun p => { p with rebase := true, saved := {} })).endStart kind f fw st

/-- A start in the house scene, for a reason (R708, R717). -/
def State.startHouse (s : State) (kind : Nat) (f : StartFacts) (fw : Nat) (st : Status) : State :=
  match s.pwr.house with
  | none => s.startBare kind f fw st
  | some x =>
    let t := ((s.startOn (some x) 1 f).put Reg.PWR_BISQUE_COPY 3).modSched fun q => { q with programs := Tab.get [] s.pwr.library fw }
    match x.sched with
    | none => s.startBare kind f fw st
    | some i =>
      if (t.startRefused i).isSome then s.startBare kind f fw st
      else
        (((t.startSchedule i).set Reg.PWR_STATUS_HOUSE).modPwr fun p => { p with rebase := true, saved := x }).unmuteAll.endStart
          kind f fw st

/-- A start on a settings copy (R709, R717). -/
def State.startCopy (s : State) (k : Nat) (f : StartFacts) (fw : Nat) : State :=
  let x := (s.copy k).content
  let t := ((s.startOn (some x) 0 f).put Reg.PWR_BISQUE_PSET x.pset).modPwr fun p => { p with saved := x }
  match x.sched with
  | none => t.endStart 0 f fw .ok
  | some i =>
    match Tab.get none s.pwr.sets x.pset with
    | none => s.startHouse 0 f fw .badSignature
    | some p =>
      if !f.psetOk then s.startHouse 0 f fw .badSignature
      else
        let u := t.modSched fun q => { q with programs := p.programs }
        match u.startRefused i with
        | some st => s.startHouse 0 f fw st
        | none => (u.startSchedule i).unmuteAll.endStart 0 f fw .ok

/-- R714: a cold start, from power-good. -/
def State.coldStart (s : State) (f : StartFacts) : State :=
  let c := (s.cleared.putBit Reg.PWR_STATUS_WARM_LOST f.warmLost).put Reg.PWR_WARM_CNT_COUNT f.warm
  if c.get Reg.TRUST_STATE_LCS = 5 then c
  else
    match c.pickFw f with
    | none => c.set Reg.TRUST_STATE_RECOVERY
    | some k =>
      let c1 := (((c.put Reg.PWR_BISQUE_FW k).put Reg.GLOBAL_FW_VER_VERSION (Tab.get 0 c.pwr.fw k)).set Reg.CLK_STATUS_SPLL_LOCK).set Reg.CLK_STATUS_REFXO_OK
      let (pick, maj, st) := c1.chooseCopy f
      let c2 := c1.showCopies f pick maj st
      match pick with
      | some n => c2.startCopy n f k
      | none => c2.startHouse 0 f k st

end Sys2Proof.Machine
end

