-- ==== Sys2Proof/Machine/Power.lean ====
section
/-! DEFINITION. Supplies, standby and wake, warnings and restarts (R693–R703, R711–R713, R723, R753). -/

namespace Sys2Proof.Machine

/-! ### Supplies (R694, R695) -/

/-- Every firing stops, and every cluster is in retention (R25, R695). -/
def State.stopFirings (s : State) : State :=
  s.each (List.range 64) fun c t =>
    ((t.haltUnits c).dropGrants c).modCluster c fun x =>
      { x with firing := none, dmaQueue := [], dmaRun := none, lastSample := [], retention := true }

/-- Every output ball is in its state before the first frame (R718). -/
def State.outputsIdle (s : State) : State :=
  let s1 := s.modPwr fun p => { p with unmute := [] }
  let s2 := (s1.each (List.range 16) fun p t => t.put (Reg.APORT_P_STATUS_RUNNING p) 0).each (List.range 8) fun n t =>
    t.put (Reg.AES_TX_STATUS_RUNNING n) 0
  (s2.each (List.range 4) fun c t => t.unsettle c).each (List.range 2) fun c t => (t.modPs c fun _ => {}).psTo c psOff

/-- R694, R714: PWR_OK rises: a cold start where the engine was not running, was in standby, or has lost a main supply. -/
def execPowerGood (f : StartFacts) (s : State) : Out :=
  .next (if !s.pwr.started || s.pwr.standby || s.bit Reg.PWR_STATUS_COLD_NEXT then s.coldStart f else s)

/-- R695: a main supply below its operating minimum for 1 µs. -/
def execSupplyDip (s : State) : Out :=
  .next (if !s.pwr.started || s.bit Reg.PWR_STATUS_HOLD then s
    else ((s.set Reg.PWR_STATUS_HOLD).closeGate.stopFirings.outputsIdle).postNow .fault none 0x161 [5])

/-- R695: a main supply below its retention level. -/
def execRetentionLoss (s : State) : Out := .next (s.set Reg.PWR_STATUS_COLD_NEXT)

/-- R695: the supplies are back: steps 4, 6, 7 and 8 with what is held. -/
def execWarmRestart (f : StartFacts) (s : State) : Out :=
  if !s.bit Reg.PWR_STATUS_HOLD || s.bit Reg.PWR_STATUS_COLD_NEXT then .next s
  else
    let s1 := (s.put Reg.PWR_STATUS_HOLD 0).postNow .fault none 0x161 [6]
    let s2 := s1.each ((List.range 3).filter fun d => (s.dom d).configured) fun d t =>
      let r := max (t.dom d).si (startSi f.ns (t.dom d).rate (t.dom d).block)
      ((t.modDom d fun y => { y with si := r, begun := max y.begun r }).lateBefore d r).modMix fun m =>
        { m with meters := m.meters.map fun x => (x.1, x.2.map fun y => { y with restart := true }) }
    let s3 := s2.startMplls
    let fw := s.get Reg.PWR_BISQUE_FW
    match s.active with
    | none => .next ((s3.reopenGate).endStart 1 f fw .ok)
    | some i =>
      match s3.startRefused i with
      | some st => .next ((s.cleared.put Reg.PWR_BISQUE_FW fw).startHouse 1 f fw st)
      | none =>
        let s4 := s3.unmuteAll.reopenGate
        .next ((s4.each (List.range 2) fun c t => if t.psEn c then t.psStart c else t).endStart 1 f fw .ok)

/-! ### Power-fail warning (R711–R713, R686) -/

/-- R711, R712: VPF has fallen. `bytes` and `t`: the final record's length and time record. -/
def execPowerFailWarning (bytes : Nat) (t : TimeRecord) (s : State) : Out :=
  if !s.pwr.started || s.bit Reg.PWR_STATUS_VPF_LOW then .next s
  else
    let s1 := (((s.set Reg.PWR_STATUS_VPF_LOW).set Reg.PWR_STATUS_WARN).bump Reg.PWR_CNT_WARN).postNow .fault none 0x161 [1]
    let soon := match s.pwr.commitAt with | some a => decide (s.now < a + s.samplesMs 0 100) | none => false
    let s2 := if s1.commits && (!soon || s1.settingsChanged t) then s1.finalCommit bytes t else s1
    .next (s2.modStore fun x => { x with stopped := true })

/-- R711, R713: VPF has risen. -/
def execWarningEnd (s : State) : Out :=
  if !s.bit Reg.PWR_STATUS_VPF_LOW then .next s
  else
    let s1 := (s.put Reg.PWR_STATUS_VPF_LOW 0).modStore fun x => { x with stopped := false }
    .next (if s.pwr.started && !s.bit Reg.PWR_STATUS_HOLD then
      ((s1.set Reg.PWR_STATUS_RIDE).bump Reg.PWR_CNT_RIDE).postNow .fault none 0x161 [2] else s1)

/-! ### The warmer domain (R699–R703) -/

/-- A change of supply: HANDOVER_SEEN, and one event while the engine runs. -/
def State.supplyTo (s : State) (supply body : Nat) : State :=
  let s1 := (s.put Reg.PWR_STATUS_SUPPLY supply).set Reg.PWR_STATUS_HANDOVER_SEEN
  if s.pwr.started then s1.postNow .fault none 0x161 [body] else s1

/-- R700: the hand-over completes whatever VDD_AON does. -/
def execVbatHandover (s : State) : Out :=
  .next (if s.get Reg.PWR_STATUS_SUPPLY = 2 then s else (s.modPwr fun p => { p with vbatCount := 0 }).supplyTo 2 3)

/-- R701: WARM cycles on VBAT, each with whether it ended with VDD_AON above 2.95 V. -/
def execVddAonReturn (cycles : List Bool) (s : State) : Out :=
  if s.get Reg.PWR_STATUS_SUPPLY ≠ 2 then .next s
  else
    let n := cycles.foldl (fun k b => if 131 ≤ k then k else if b then k + 1 else 0) s.pwr.vbatCount
    let s1 := s.put Reg.PWR_WARM_CNT_COUNT (s.get Reg.PWR_WARM_CNT_COUNT + cycles.length)
    .next (if 131 ≤ n then (s1.modPwr fun p => { p with vbatCount := 0 }).supplyTo 0 4
      else s1.modPwr fun p => { p with vbatCount := n })

/-- R702, step 1: every output ramps to zero over 5 ms from its domain's next boundary on, and then `x` follows. -/
def State.rampDown (s : State) (x : AfterRamp) : State :=
  let on := (List.range 3).filter fun d => (s.dom d).configured && (s.dom d).running
  let ends := on.map fun d => (d, (s.dom d).si + (s.dom d).block + s.samplesMs d 5)
  let s1 := s.each on fun d u => u.modPwr fun p =>
    { p with gain := Tab.upd {} p.gain d fun g => gateTo g true (u.samplesMs d 5) ((u.dom d).si + (u.dom d).block) }
  s1.modPwr fun p => { p with afterRamp := some (ends, x) }

/-- The ramps of `rampDown` have ended: what follows them. -/
def State.rampedDown (s : State) : Option AfterRamp :=
  match s.pwr.afterRamp with
  | none => none
  | some (ends, x) => if ends.all fun e => decide (e.2 ≤ (s.dom e.1).si) || !(s.dom e.1).running then some x else none

/-- R702, the end of step 1 and steps 2 to 4; the store's keys are destroyed at power-down (R672). -/
def State.powerDown (s : State) (commit : Bool) (bytes : Nat) (t : TimeRecord) : State :=
  let s1 := s.closeGate.closeTakes
  let s2 := if commit then s1.finalCommit bytes t else s1
  (s2.modPwr fun p => { p with req := false, standby := true, started := false, audio := false, afterRamp := none }).modStore
    fun x => { x with keys := none, issued := [] }

/-- R702: STANDBY is written. The final commit is the holder's if it held the lease when STANDBY was accepted (DEDUCED, log entry 43);
with no domain running there is nothing to ramp. -/
def execPwrStandby (bytes : Nat) (t : TimeRecord) (s : State) : Out := s.ifHost <|
  if !s.bit Reg.PWR_POLICY_HOST_STANDBY then .next (s.set Reg.PWR_STATUS_CFG_REJ)
  else if !s.pwr.started || s.pwr.afterRamp.isSome then .next s
  else
    let s1 := s.rampDown (.standby s.commits bytes t)
    .next (match s1.rampedDown with
      | some (.standby c n r) => s1.powerDown c n r
      | _ => s1)

/-- R703: WAKE_N has been low for 3 WARM cycles. -/
def execWake (s : State) : Out :=
  .next (if s.pwr.standby && !s.pwr.req then s.modPwr fun p => { p with req := true, wakeCause := 1 } else s)

/-- R699, R703: the warmer counter equals PWR_ALARM. -/
def execWarmAlarm (s : State) : Out :=
  if !s.bit Reg.PWR_ALARM_CTL_EN then .next s
  else
    let s1 := (s.put Reg.PWR_WARM_CNT_COUNT (s.get Reg.PWR_ALARM_ALARM)).set Reg.PWR_ALARM_CTL_FIRED
    .next (if s.pwr.standby && !s.pwr.req then s1.modPwr fun p => { p with req := true, wakeCause := 2 } else s1)

/-- R703: PWR_OK has not risen within 2 s of PWR_REQ. -/
def execWakeFail (s : State) : Out :=
  .next (if s.pwr.standby && s.pwr.req then
    (s.modPwr fun p => { p with req := false, wakeCause := 0 }).set Reg.PWR_STATUS_WAKE_FAIL else s)

/-- R723. -/
def execPwrCntClr (s : State) : Out := s.ifHost <| .next (s.clear [Reg.PWR_CNT_WARN, Reg.PWR_CNT_RIDE])

/-! ### Recovery (R753, R758) -/

/-- R753: GO is written; `image` is what the boot ROM reads, `f` what the cold start after it finds. -/
def execRecoveryGo (image : Option ImageData) (f : StartFacts) (s : State) : Out :=
  if s.get Reg.TRUST_STATE_LCS = 5 then .next s
  else if !s.bit Reg.TRUST_STATE_RECOVERY then .next (s.set Reg.TRUST_STATE_CFG_REJ)
  else
    let fail (st : Status) : State := (s.put Reg.TRUST_RCV_STATUS_STATE 3).put Reg.TRUST_RCV_STATUS_CODE st.code
    match image with
    | some (.firmware sig l) =>
      match s.checkSig sig 8 with
      | some st => .next (fail st)
      | none =>
        let s1 : State := { s with trust := { s.trust with digests := Tab.put 0 (Tab.put 0 s.trust.digests 0 sig.digest) 1 sig.digest } }
        .next ((s1.modPwr fun p => { p with fw := Tab.put 0 (Tab.put 0 p.fw 0 sig.version) 1 sig.version,
                                            library := Tab.put [] (Tab.put [] p.library 0 l) 1 l }).coldStart f)
    | _ => .next (fail .refused)

end Sys2Proof.Machine
end

