-- ==== Sys2Proof/Machine/TrustOps.lean ====
section
/-! DEFINITION. What the Ritadom core does with TRUST_* commands: the queue of R749, claims, signed objects, life-cycle
transitions and attestation (R725–R758). -/

namespace Sys2Proof.Machine

def State.modTrust (s : State) (f : TrustSt → TrustSt) : State := { s with trust := f s.trust }

/-- TRUST_STATE and TRUST_OBJECT events (R757). -/
def State.trustState (s : State) (old new : Nat) : State := s.postNow .trust (some 61) 0x170 [old, new]
def State.trustObject (s : State) (kind phase version : Nat) : State := s.postNow .trust (some 63) 0x172 [kind, phase, version]

/-- A digest in its twelve registers. -/
def State.showDigest (s : State) (f : Nat → Fld) (v : Nat) : State :=
  s.each (List.range 12) fun k t => t.put (f k) (v / 2 ^ (32 * k) % 2 ^ 32)

def State.setIdentity (s : State) (v : Nat) : State := (s.modTrust fun t => { t with identity := v }).showDigest Reg.TRUST_ID_DIGEST_BYTES v
def State.setOwner (s : State) (v : Nat) : State := (s.modTrust fun t => { t with owner := v }).showDigest Reg.TRUST_OWNER_DIGEST_BYTES v

/-- Fields whose source is the owner policy take its values (R741, R743). -/
def State.showPolicy (s : State) (p : Policy) : State := s.each (policyRegs p) fun e t => t.put e.1 e.2

/-! ### Life cycle (R728–R732) -/

/-- R729: the transitions by a KIND 9 object. -/
def transitionOk (old new : Nat) : Bool :=
  match old with
  | 1 => new == 2 || new == 5
  | 2 => new == 5
  | 3 => new == 2 || new == 4 || new == 5
  | 4 => new == 2 || new == 5
  | _ => false

/-- R730, R731: a transition takes effect in MRAM. -/
def State.transition (s : State) (new : Nat) : State :=
  let old := s.get Reg.TRUST_STATE_LCS
  let s1 := s.put Reg.TRUST_STATE_LCS new
  let s2 := if old ≠ 3 then s1 else
    let e := s1.bump (Reg.TRUST_CTR_VALUE 5)
    let c := e.clear [Reg.TRUST_STATE_POLICY, Reg.TRUST_STATE_MEMBERS, Reg.TRUST_STATE_HOUSE]
    (((c.setOwner 0).modTrust fun t =>
      { t with policy := none, policyNext := none, membersNext := none, digests := t.digests.filter fun d => decide (d.1 < 2) }).modPwr fun p =>
        { p with house := none, copies := [], sets := [] })
  let s3 : State := if old = 3 then { s2 with wl := { s2.wl with members := [] } } else s2
  if new = 5 then s3.setIdentity 0 else s3

/-- Completions that are due are written before a release takes the rings away (R732). -/
def State.flush (s : State) : Nat → State
  | 0 => s
  | n + 1 => if s.host.done.isEmpty then s else State.flush (s.run execCommandCompletion) n

/-- R732: once the outputs have ramped down and the gates have closed, the transition takes effect, and the engine starts cold in the
new state. -/
def State.enterState (s : State) (new : Nat) (f : StartFacts) : State :=
  let s1 := (s.modPwr fun p => { p with afterRamp := none }).closeGate.transition new
  (s1.trustState (s.get Reg.TRUST_STATE_LCS) new).coldStart f

/-- What waited for output ramps that have ended takes place (R702, R732). -/
def State.endRamps (s : State) : State :=
  match s.rampedDown with
  | some (.standby c n r) => s.powerDown c n r
  | some (.release new f) => s.enterState new f
  | none => s

/-- R732: the completion is posted, and the outputs ramp down before the rest. -/
def State.release (s : State) (h : CmdHdr) (new : Nat) (f : StartFacts) : State :=
  let s1 := s.ok h 0x0902
  ((s1.flush s1.host.done.length).rampDown (.release new f)).endRamps

/-- R732: a release is BUSY. -/
def State.releaseBusy (s : State) : Bool :=
  decide (0 < s.liveCount) || (s.store.takes.any fun t => !t.closed) || decide (s.get Reg.PAIR_STATUS_ROLE = 1)

/-! ### Claims (R733–R735) -/

/-- A letter as upper case. -/
def upper (b : Byte) : Byte := if 0x61 ≤ b.toNat ∧ b.toNat ≤ 0x7A then b - 0x20 else b

/-- The eight characters of a code, lower-case letters as upper case, as one number. -/
def codeOf (c : BitVec 64) : Nat := bytesToNat ((natToBytes 8 c.toNat).map upper)

/-- Seconds of the wait after the n-th consecutive failure. -/
def claimWait (n : Nat) : Nat := min 3600 (2 ^ (n - 1))

/-- R734, R735: the engine's own record of the code is of its hash; equal codes have equal hashes. -/
def State.claim (s : State) (h : CmdHdr) (code : BitVec 64) (owner : Nat) (sigOk : Bool) : State :=
  let rate := (s.dom 0).rate
  if s.get Reg.TRUST_STATE_LCS ≠ 2 then s.refuse h 0x0901 .refused 0 0
  else if s.now < s.trust.since + 5 * rate ∨ s.now < s.trust.waitTo then s.refuse h 0x0901 .busy 0 0
  else if codeOf code ≠ s.trust.claimCode then
    let s1 := s.bump Reg.TRUST_CLAIM_CNT_FAILS
    let n := s1.get Reg.TRUST_CLAIM_CNT_FAILS
    let s2 := ((s1.set Reg.TRUST_STATE_CLAIM_WAIT).put Reg.TRUST_CLAIM_CNT_WAIT (claimWait n)).modTrust fun t =>
      { t with waitTo := s.now + claimWait n * rate }
    (s2.postNow .trust (some 62) 0x171 [n, claimWait n]).refuse h 0x0901 .refused 0 0
  else if !sigOk then s.refuse h 0x0901 .badSignature 0 0
  else
    let s1 := (((s.setOwner owner).put Reg.TRUST_STATE_LCS 3).put Reg.TRUST_CLAIM_CNT_FAILS 0).modTrust fun t =>
      { t with policy := none, policyNext := none, membersNext := none }
    let s2 : State := { s1 with wl := { s1.wl with members := [] } }
    ((s2.showPolicy {}).trustState 2 3).ok h 0x0901

/-! ### Signed objects (R738–R744, R752, R755) -/

/-- BIND names this engine. -/
def State.bound_ (s : State) (b : SigBlock) : Bool := b.bind != 0 && b.bind == s.trust.identity

/-- An object has passed its checks and is committed. -/
def State.committed (s : State) (h : CmdHdr) (op : Nat) (sig : SigBlock) : State :=
  let s1 := match counterOf sig.kind with
    | some c => if sig.kind = 8 then s else s.raise (Reg.TRUST_CTR_VALUE c) sig.version
    | none => s
  (s1.trustObject sig.kind 1 sig.version).ok h op

/-- R743: the policy is committed and takes effect at the next P-domain boundary. -/
def State.commitPolicy (s : State) (h : CmdHdr) (sig : SigBlock) (p : Policy) : State :=
  match s.checkSig sig 5 with
  | some st => s.refuse h 0x0903 st 0 0
  | none =>
    if p.secret && sig.bind == 0 then s.refuse h 0x0903 .refused 0 0
    else if p.secret && !p.secretOk then s.refuse h 0x0903 .badSignature 0 0
    else
      let s1 := s.modTrust fun t => { t with policyNext := some (p, sig.version), digests := Tab.put 0 t.digests 2 sig.digest }
      (s1.set Reg.TRUST_STATE_POLICY).committed h 0x0903 sig

/-- R744: a list that holds this engine's digest once is committed. -/
def State.commitMembers (s : State) (h : CmdHdr) (sig : SigBlock) (l : List (Nat × Nat)) : State :=
  match s.checkSig sig 6 with
  | some st => s.refuse h 0x0904 st 0 0
  | none =>
    if (l.filter fun e => e.2 == listDigest s.trust.identity).length ≠ 1 then s.refuse h 0x0904 .refused 0 0
    else
      let s1 := s.modTrust fun t => { t with membersNext := some (l, sig.version), digests := Tab.put 0 t.digests 3 sig.digest }
      (s1.set Reg.TRUST_STATE_MEMBERS).committed h 0x0904 sig

/-- R708: the house scene is stored. -/
def State.commitHouse (s : State) (h : CmdHdr) (sig : SigBlock) (x : Settings) : State :=
  match s.checkSig sig 7 with
  | some st => s.refuse h 0x0905 st 0 0
  | none =>
    let s1 := (s.modPwr fun p => { p with house := some x }).modTrust fun t => { t with digests := Tab.put 0 t.digests 4 sig.digest }
    (s1.set Reg.TRUST_STATE_HOUSE).committed h 0x0905 sig

/-- R752: firmware goes into the copy that is not current, which is tried first at the next start. -/
def State.commitFirmware (s : State) (h : CmdHdr) (sig : SigBlock) (l : List ProgImage) : State :=
  match s.checkSig sig 8 with
  | some st => s.refuse h 0x0906 st 0 0
  | none =>
    let k := 1 - s.get Reg.TRUST_FW_CURRENT
    let s1 := (s.modPwr fun p => { p with fw := Tab.put 0 p.fw k sig.version, library := Tab.put [] p.library k l }).modTrust fun t =>
      { t with digests := Tab.put 0 t.digests k sig.digest }
    (s1.set Reg.TRUST_FW_TRY_OTHER).committed h 0x0906 sig

/-- R732, R740: a life-cycle object. -/
def State.lifeObject (s : State) (h : CmdHdr) (sig : SigBlock) (target epoch : Nat) (reservedOk : Bool) (f : StartFacts) : State :=
  match s.checkSig sig 9 with
  | some st => s.refuse h 0x0902 st 0 0
  | none =>
    if !reservedOk || !s.bound_ sig || epoch != s.get (Reg.TRUST_CTR_VALUE 5) || !transitionOk (s.get Reg.TRUST_STATE_LCS) target then
      s.refuse h 0x0902 .refused 0 0
    else if s.releaseBusy || s.pwr.afterRamp.isSome then s.refuse h 0x0902 .busy 0 0
    else s.release h target f

/-- Debug services exist in MANUFACTURED and RETURNED (R755). -/
def State.debugState (s : State) : Bool := s.get Reg.TRUST_STATE_LCS == 1 || s.get Reg.TRUST_STATE_LCS == 4

/-- R755: an unlock carries the challenge that was returned last, and binds this engine. -/
def State.unlock (s : State) (h : CmdHdr) (sig : SigBlock) (challenge : Nat) : State :=
  if !s.debugState then s.refuse h 0x0909 .refused 0 0
  else
    match s.checkSig sig 10 with
    | some st => s.refuse h 0x0909 st 0 0
    | none =>
      if !s.bound_ sig || s.trust.challenge != some challenge then s.refuse h 0x0909 .refused 0 0
      else ((s.modTrust fun t => { t with challenge := none }).set Reg.TRUST_STATE_DEBUG_OPEN).ok h 0x0909

/-- The opcode whose object has a KIND. -/
def objectOp (kind : Nat) : Nat :=
  match kind with | 9 => 0x0902 | 5 => 0x0903 | 6 => 0x0904 | 7 => 0x0905 | 8 => 0x0906 | _ => 0x0909

/-- What an object that has arrived comes to: its KIND decides which object it must be. -/
def State.object (s : State) (h : CmdHdr) (kind : Nat) (x : ImageData) (f : StartFacts) : State :=
  match kind, x with
  | 9, .lifeCycle sig target epoch ok => s.lifeObject h sig target epoch ok f
  | 5, .policy sig p => s.commitPolicy h sig p
  | 6, .members sig l => s.commitMembers h sig l
  | 7, .house sig y => s.commitHouse h sig y
  | 8, .firmware sig l => s.commitFirmware h sig l
  | 10, .unlock sig c => s.unlock h sig c
  | _, _ => s.refuse h (objectOp kind) .refused 0 0

/-! ### Attestation, certificates and challenges (R726, R750, R755) -/

/-- Bytes of an open value, eight from each free value. -/
def State.openBytes (s : State) (n : Nat) : List Byte :=
  (List.range n).map fun k => ((Config.freeValue (s.ctr + k / 8)).truncate 64 >>> (8 * (k % 8))).truncate 8

/-- The statement of R750 without its signature: digests are little-endian numbers of 48 bytes here and in the registers. -/
def State.statement (s : State) (nonce : BitVec 256) : List Byte :=
  let d (k : Nat) : List Byte := natToBytes 48 (Tab.get 0 s.trust.digests k)
  let has := s.bit Reg.TRUST_STATE_MEMBERS && s.wl.members.any fun e => e.2 == listDigest s.trust.identity
  let flags := s.get Reg.PWR_STATUS_HOUSE + 2 * s.get Reg.PWR_BISQUE_SPLIT + 4 * s.get Reg.TRUST_STATE_DEBUG_OPEN + (if has then 8 else 0)
  natToBytes 4 0x4A415454 ++ natToBytes 1 (s.get Reg.TRUST_STATE_LCS) ++ natToBytes 1 flags ++
  natToBytes 2 (if has then s.devnum else 0) ++ natToBytes 48 s.trust.identity ++ natToBytes 48 s.trust.owner ++
  d (s.get Reg.PWR_BISQUE_FW) ++ natToBytes 48 (match s.active with | some i => i.sig.digest | none => 0) ++ d 2 ++ d 3 ++ d 4 ++
  ((List.range 6).flatMap fun c => natToBytes 8 (s.get (Reg.TRUST_CTR_VALUE c))) ++ natToBytes 32 nonce.toNat ++
  natToBytes 8 s.now ++ List.replicate 48 0

/-- R750: the statement and a signature that only the key's holder can make: an open value. -/
def State.attest (s : State) (h : CmdHdr) (addr : Nat) (nonce : BitVec 256) : State :=
  if s.get Reg.TRUST_STATE_LCS = 0 ∨ s.get Reg.TRUST_STATE_LCS = 5 then s.refuse h 0x0900 .refused 0 0
  else if !s.windowOk addr 576 true then s.refuse h 0x0900 .windowFault 48 0
  else
    let t : State := { s with ctr := s.ctr + 12 }
    t.report addr (s.statement nonce ++ s.openBytes 96) ⟨h, 0x0900, .ok, 0, 0, 0, false⟩

/-- R726, R756: the device certificate chain. -/
def State.cert (s : State) (h : CmdHdr) (addr : Nat) : State :=
  if !s.windowOk addr 4096 true then s.refuse h 0x0907 .windowFault 16 0
  else s.report addr (s.trust.chain.take 4096) ⟨h, 0x0907, .ok, 0, 0, 0, false⟩

/-- R755: a fresh challenge takes the place of an unused one; RESULT returns it. -/
def State.newChallenge (s : State) (h : CmdHdr) : State :=
  if !s.debugState then s.refuse h 0x0908 .refused 0 0
  else
    let c := bytesToNat (s.openBytes 32)
    let t : State := { s with ctr := s.ctr + 4 }
    (t.modTrust fun x => { x with challenge := some c }).finish h 0x0908 .ok 0 0 c

/-! ### The queue (R749) -/

/-- A job can be executed: an object has its last buffer. -/
def jobReady : TrustJob → Bool
  | .object _ none => false
  | _ => true

/-- One job is executed. -/
def State.runJob (s : State) (h : CmdHdr) : TrustJob → State
  | .attest a n => s.attest h a n
  | .claim c o ok => s.claim h c o ok
  | .cert a => s.cert h a
  | .challenge => s.newChallenge h
  | .object k (some (x, f)) => s.object h k x f
  | .object _ none => s

/-- Jobs are executed one at a time, in dispatch order, until one waits for its object. -/
def State.runTrust (s : State) : Nat → State
  | 0 => s
  | n + 1 =>
    match s.trust.queue with
    | [] => s
    | (h, j) :: rest => if jobReady j then State.runTrust ((s.modTrust fun t => { t with queue := rest }).runJob h j) n else s

def State.drainTrust (s : State) : State := s.runTrust s.trust.queue.length

/-- A job joins the queue. -/
def State.addJob (s : State) (h : CmdHdr) (j : TrustJob) : State :=
  (s.modTrust fun t => { t with queue := t.queue ++ [(h, j)] }).drainTrust

/-- An object's transfer begins (R444, R748); a standby takes none (R766). -/
def State.awaitObject (s : State) (h : CmdHdr) (kind ring length : Nat) : State :=
  let op := objectOp kind
  let t := s.awaitImage h op kind ring 0 length true
  if s.standby then s.refuse h op .refused 0 0
  else if t.host.transfers.length = s.host.transfers.length then t
  else t.modTrust fun x => { x with queue := x.queue ++ [(h, .object kind none)] }

/-- A TRUST object has arrived whole (R748). -/
def State.objectArrived (s : State) (t : Transfer) (x : ImageData) (f : StartFacts) : State :=
  let fill (e : CmdHdr × TrustJob) : CmdHdr × TrustJob :=
    if e.1 = t.hdr ∧ e.2 = .object t.kind none then (e.1, .object t.kind (some (x, f))) else e
  (s.modTrust fun y => { y with queue := y.queue.map fill }).drainTrust

/-- The jobs whose transfers have ended without an object are gone. -/
def State.dropJobs (s : State) (l : List Transfer) : State :=
  let gone (e : CmdHdr × TrustJob) : Bool := l.any fun t => decide (e.1 = t.hdr ∧ e.2 = .object t.kind none)
  (s.modTrust fun y => { y with queue := y.queue.filter fun e => !gone e }).drainTrust

/-! ### The next P-domain boundary (R743, R744) -/

/-- R743: the committed policy takes effect: registers, host servo, plain exports and key agreements follow it. -/
def State.adoptPolicy (s : State) : State :=
  match s.trust.policyNext with
  | none => s
  | some (p, v) =>
    let s1 := (s.modTrust fun t => { t with policy := some p, policyNext := none }).showPolicy p
    let s2 := if p.hostServo then s1 else s1.each (List.range 3) fun n t =>
      if t.get (Reg.CLK_MPLL_CTL_LOOP n) = 2 then t.put (Reg.CLK_MPLL_CTL_LOOP n) 1 else t
    let stopped := if p.exportPlain then [] else s2.store.moves.filter fun m => m.export_ && m.mode == 0
    let s3 := (s2.modStore fun x => { x with moves := x.moves.filter fun m => !stopped.contains m }).each stopped fun m t =>
      t.finish m.hdr 0x0730 .aborted 0 0 0
    let s4 := if p.keysChanged then s3.each (List.range 2) fun x t => t.put (Reg.NET_MACSEC_MKA_UP x) 0 else s3
    s4.trustObject 5 2 v

/-- R744: the committed list takes effect: DEVNUM, and the ports whose peer it no longer names. -/
def State.adoptMembers (s : State) : State :=
  match s.trust.membersNext with
  | none => s
  | some (l, v) =>
    let new := Tab.ofList 0 l
    let old := s.wl.members
    let was := s.devnum
    let s0 := s.modTrust fun t => { t with membersNext := none }
    let s1 : State := { s0 with wl := { s.wl with members := new } }
    let s2 := s1.put Reg.WL_DEVNUM_DEVNUM (ownDevnum new s.trust.identity)
    let lost (p : Nat) : Bool :=
      let peer := s.get (Reg.WLP_PEER_DEVNUM p)
      decide (was ≠ s2.devnum) || Tab.get 0 new peer != Tab.get 0 old peer || Tab.get 0 new peer == 0
    (s2.each (List.range 4) fun p t => if t.wlUp p && lost p then (t.wlLeaveUp p).put (Reg.WLP_STATUS_STATE p) wlAuth else t).trustObject 6 2 v

end Sys2Proof.Machine
end

