-- ==== Sys2Proof/Machine/Bist.lean ====
section
/-! DEFINITION. Spare-cluster rotation and self-test (R780–R785, R788). -/

namespace Sys2Proof.Machine

/-! ### Rotation (R780–R783) -/

/-- Global index of a region's spare. -/
def State.spare (s : State) (g : Nat) : Nat := 8 * g + s.get (Reg.BIST_ROT_RG_SPARE g)

/-- ROTATION. -/
def State.rotationEvent (s : State) (g kind : Nat) : State := s.postNow .fault (some 60) 0x184 [g, kind, s.spare g]

/-- A byte range of a memory copied over another. -/
def copyRange (m : Memory) (src dst n : Nat) : Memory :=
  (m.filter fun e => decide (src ≤ e.1) && decide (e.1 < src + n)).foldl (fun t e => Memory.write t (dst + (e.1 - src)) e.2)
    (clearRange m dst (dst + n))

/-- Program memories of a cluster's units cleared. -/
def State.clearPrograms (s : State) (c : Nat) : State :=
  { s with prog := s.prog.filter fun e => !(decide (8192 * c ≤ e.1) && decide (e.1 < 8192 * c + 8192)) }

/-- Program, local, shared and glaze-state memories of one cluster copied to another. -/
def State.copyCluster (s : State) (o t : Nat) : State :=
  let u := s.clearPrograms t
  let mine := s.prog.filter fun e => decide (8192 * o ≤ e.1) && decide (e.1 < 8192 * o + 8192)
  { u with prog := mine.foldl (fun p e => Tab.put 0 p (8192 * t + (e.1 - 8192 * o)) e.2) u.prog,
           shm := copyRange s.shm (o * 2 ^ 20) (t * 2 ^ 20) (2 ^ 20),
           lmem := copyRange s.lmem (o * 2 ^ 19) (t * 2 ^ 19) (2 ^ 19),
           glz := copyRange s.glz (o * 2 ^ 14) (t * 2 ^ 14) (2 ^ 14) }

/-- Every memory of a cluster cleared. -/
def State.clearCluster (s : State) (c : Nat) : State :=
  let s1 := s.clearPrograms c
  let s2 : State := { s1 with shm := clearRange s.shm (c * 2 ^ 20) ((c + 1) * 2 ^ 20),
                              lmem := clearRange s.lmem (c * 2 ^ 19) ((c + 1) * 2 ^ 19),
                              glz := clearRange s.glz (c * 2 ^ 14) ((c + 1) * 2 ^ 14) }
  s2.modCluster c fun x => { peek := x.peek, clears := x.clears }

/-- A region does not rotate (R782). -/
def State.rotationWaits (s : State) (g : Nat) : Bool :=
  (List.range 8).any (fun k => s.quarantined (8 * g + k)) || s.bit (Reg.FABRIC_RG_CLK_BYPASS g) || s.bit (Reg.BIST_ROT_RG_TESTING g)

/-- The frame is one at which a region rotates (R781). -/
def State.rotationFrame (s : State) (g : Nat) : Bool :=
  match s.active.bind fun i => domainOf i g with
  | none => false
  | some d => (s.dom d).si / max 1 (s.dom d).block % 2 ^ s.get (Reg.BIST_ROT_RG_N g) == 0

/-- The roles of two clusters of a region change places, with what the outgoing one's role holds outside its memories. -/
def State.swapRoles (s : State) (g o t : Nat) : State :=
  let lo := s.logical o % 8
  let lt := s.logical t % 8
  let x := s.cluster o
  let y := s.cluster t
  let s1 := s.modRegion g fun r => { r with role := Tab.put (t % 8) (Tab.put (o % 8) r.role (o % 8) lt) (t % 8) lo }
  let s2 := s1.setCluster t { x with peek := y.peek, clears := y.clears, firing := none, dmaQueue := [], dmaRun := none }
  let s3 := s2.modMix fun m => { m with changes := m.changes.map fun e => if e.cluster = o then { e with cluster := t } else e }
  let s4 := s3.modSched fun q => { q with toLoad := q.toLoad.map fun c => if c = o then t else c }
  (s4.put (Reg.FABRIC_CL_SEQ_OCCUPIED t) (s.get (Reg.FABRIC_CL_SEQ_OCCUPIED o))).put (Reg.FABRIC_CL_SEQ_OCCUPIED o) 0

/-- R781–R783: after the outgoing cluster's last firing window of a rotation frame. -/
def execSpareRotation (g : Fin 8) (s : State) : Out :=
  let t := s.spare g.val
  let o := 8 * g.val + (t + 1) % 8
  if !s.bit (Reg.BIST_ROT_RG_ENABLED g.val) || s.bit (Reg.BIST_ROT_RG_WITHDRAWN g.val) || !s.rotationFrame g.val then .next s
  else if s.rotationWaits g.val then .next ((s.set (Reg.BIST_ROT_RG_WAITED g.val)).rotationEvent g.val 2)
  else if (s.cluster o).firing.isSome then .next s
  else
    let s1 := ((s.copyCluster o t).swapRoles g.val o t).clearCluster o
    .next (((s1.put (Reg.BIST_ROT_RG_SPARE g.val) (o % 8)).set (Reg.BIST_ROT_RG_TESTING g.val)).bump (Reg.BIST_ROT_RG_ROTATIONS g.val))

/-- R783. -/
def execSpareTestDone (g : Fin 8) (pass : Bool) (s : State) : Out :=
  if !s.bit (Reg.BIST_ROT_RG_TESTING g.val) then .next s
  else
    let s1 := s.put (Reg.BIST_ROT_RG_TESTING g.val) 0
    .next (if pass then s1 else (s1.set (Reg.BIST_ROT_RG_WITHDRAWN g.val)).rotationEvent g.val 1)

/-! ### The catalogue (R754, R784) -/

/-- A test of the catalogue has an instance. -/
def bistKnown (test inst : Nat) : Bool :=
  match test with
  | 1 | 2 => decide (inst < 64)
  | 3 => decide (inst < 8)
  | 4 => decide (inst < 4)
  | 5 | 9 => decide (inst < 2)
  | 6 | 0xA | 0xB | 0xC => inst == 0
  | 7 => decide (inst < 4) || (decide (8 ≤ inst) && decide (inst < 16))
  | 8 => decide (inst < 3) || (decide (4 ≤ inst) && decide (inst < 8))
  | _ => false

/-- The online subset. -/
def bistOnline (test : Nat) : Bool := test != 3 && test != 4 && test != 0xC

/-- The life-cycle state permits a test (R754). -/
def State.bistAllowed (s : State) (test : Nat) : Bool :=
  let l := s.get Reg.TRUST_STATE_LCS
  l != 5 && (bistOnline test || l == 0 || (s.debugState && s.bit Reg.TRUST_STATE_DEBUG_OPEN))

/-- A region is in no domain of the active schedule. -/
def State.regionFree (s : State) (g : Nat) : Bool := match s.active with | some i => (domainOf i g).isNone | none => true

/-- The condition of a test: OK when it holds, else what the catalogue says. -/
def State.bistCondition (s : State) (test inst : Nat) : Status :=
  let need (b : Bool) : Status := if b then .ok else .refused
  match test with
  | 1 | 2 =>
    if !s.bit (Reg.BIST_ROT_RG_ENABLED (inst / 8)) then .refused else if s.spare (inst / 8) = inst then .ok else .deferred
  | 3 => need (s.regionFree inst)
  | 4 => need (Nat.testBit (s.get Reg.SURF_SERVO_STATUS_QUAR) inst || !Nat.testBit (s.get Reg.SURF_SERVO_STATUS_RUNNING) inst)
  | 5 => if s.bit (Reg.HUBA_ADC_CTL_EN inst) then .refused else if s.bit Reg.HUBA_JACK_HP_PRESENT then .deferred else .ok
  | 7 => need (decide (inst < 8) || s.regionFree (inst - 8))
  | 8 => need (!(if inst < 3 then s.bit (Reg.NET_CTL_EN inst) else s.bit (Reg.WLP_CTL_EN (inst - 4))))
  | 9 => need (!Nat.testBit (s.get Reg.HUBA_PS_CTL_EN) inst)
  | 0xC => need (s.bit Reg.SCHED_STATUS_NONE)
  | _ => .ok

/-- Two tests are of one block. -/
def sameBlock (a b : Nat × Nat) : Bool := a.2 == b.2 && (a.1 == b.1 || (decide (a.1 ≤ 2) && decide (b.1 ≤ 2)))

def State.setBist (s : State) (q r : List (Nat × Nat)) : State :=
  ({ s with bist := { queued := q, running := r } }.put Reg.BIST_REQ_STATUS_QUEUED q.length).putBit Reg.BIST_REQ_STATUS_RUNNING (!r.isEmpty)

/-- The code that answers a request (R785). -/
def State.bistAnswer (s : State) (test inst : Nat) : Status :=
  if !bistKnown test inst || !s.bistAllowed test then .refused
  else
    match s.bistCondition test inst with
    | .refused => .refused
    | st => if 8 ≤ s.bist.queued.length ∨ (s.bist.queued ++ s.bist.running).any (sameBlock (test, inst)) = true then .busy else st

/-- GO with a test and an instance. -/
def State.bistGo (s : State) (test inst : Nat) : State :=
  let st := s.bistAnswer test inst
  let s1 := s.put Reg.BIST_REQ_STATUS_CODE st.code
  match st with
  | .ok => s1.setBist s.bist.queued (s.bist.running ++ [(test, inst)])
  | .deferred => s1.setBist (s.bist.queued ++ [(test, inst)]) s.bist.running
  | _ => s1

/-- R785: TEST and INSTANCE are written, then GO. -/
def execBistGo (test inst : BitVec 8) (s : State) : Out := s.ifHost <|
  .next (((s.put Reg.BIST_REQ_TEST test.toNat).put Reg.BIST_REQ_INSTANCE inst.toNat).bistGo test.toNat inst.toNat)

/-- The end of a test: BIST_LAST, the counters and BIST_DONE (R785, R786). -/
def State.bistEnd (s : State) (test inst : Nat) (pass : Bool) (st : Status) (value : Nat) : State :=
  let s1 := ((((s.put Reg.BIST_LAST_TEST test).put Reg.BIST_LAST_INSTANCE inst).putBit Reg.BIST_LAST_PASS pass).put
    Reg.BIST_LAST_CODE st.code).put Reg.BIST_LAST_VALUE_VALUE value
  let s2 := if pass then s1.bump Reg.BIST_CNT_RUN else (s1.bump Reg.BIST_CNT_RUN).bump Reg.BIST_CNT_FAIL
  s2.post .fault (some 60) { code := 0x183, status := st, si := (s.dom 0).si,
                             body := [test, inst, if pass then 1 else 0, st.code, value] }

/-- R784, R785: a queued test starts once its condition holds; one whose block or permission is gone is aborted. -/
def execBistTestStart (test inst : BitVec 8) (s : State) : Out :=
  let x := (test.toNat, inst.toNat)
  if !s.bist.queued.contains x then .next s
  else
    let q := s.bist.queued.filter fun y => y != x
    if !s.bistAllowed x.1 then .next ((s.setBist q s.bist.running).bistEnd x.1 x.2 false .aborted 0)
    else
      match s.bistCondition x.1 x.2 with
      | .ok => .next (s.setBist q (s.bist.running ++ [x]))
      | .deferred => .next s
      | _ => .next ((s.setBist q s.bist.running).bistEnd x.1 x.2 false .aborted 0)

/-- The tests that measure a value (R785). -/
def bistMeasures (test : Nat) : Bool := [5, 6, 7, 9, 0xA].contains test

/-- The block of a test is re-initialised (R784). -/
def State.bistClear (s : State) (test inst : Nat) : State :=
  match test with
  | 1 | 2 => s.clearCluster inst
  | 3 => { s with dly := clearRange s.dly (inst * 2 ^ 24) ((inst + 1) * 2 ^ 24) }
  | 4 => s.setUnit (512 + inst) {}
  | 5 => (s.unsettle inst).unsettle (2 + inst)
  | 0xC => { s with dram := [] }
  | _ => s

/-- R785: `value` is the measured value. -/
def execBistDone (test inst : BitVec 8) (pass : Bool) (value : BitVec 32) (s : State) : Out :=
  let x := (test.toNat, inst.toNat)
  .next (if !s.bist.running.contains x then s
    else
      let s1 := (s.setBist s.bist.queued (s.bist.running.filter fun y => y != x)).bistClear x.1 x.2
      s1.bistEnd x.1 x.2 pass .ok (if bistMeasures x.1 then value.toNat else 0))

/-- R788. -/
def execBistCntClr (s : State) : Out := s.ifHost <| .next (s.clear [Reg.BIST_CNT_RUN, Reg.BIST_CNT_FAIL])

end Sys2Proof.Machine
end

