-- ==== Sys2Proof/Machine/HostDma.lean ====
section
/-! DEFINITION. Host DMA channels, hush, the peek and clear queries, and the time-out of an image transfer (R445–R447,
R463–R466, R473–R479). -/

namespace Sys2Proof.Machine

/-! ### Host DMA (R473–R479) -/

/-- SWAP of R476. -/
def swapBytes (swap : Nat) : List Byte → List Byte
  | a :: b :: c :: d :: t =>
    (match swap with | 0 => [a, b, c, d] | 1 => [b, a, d, c] | 2 => [d, c, b, a] | _ => [c, d, a, b]) ++ swapBytes swap t
  | l => l

/-- First byte of the host DMA region in the usable DRAM space (R329, R475). -/
def State.dmaRegion (s : State) : Nat := 0x240000000 + 65536 * s.get Reg.HOST_DRAM_WIN_BASE_BASE

/-- The check of R475 that a descriptor at an address fails. -/
def State.hostDmaCheck (s : State) (addr : Nat) (d : DmaDesc) : Option Status :=
  if !s.windowOk addr 32 false || !s.windowOk d.host d.length d.up then some .windowFault
  else if addr % 32 ≠ 0 ∨ d.host % 4 ≠ 0 ∨ d.engine % 64 ≠ 0 ∨ d.length % 4 ≠ 0 ∨ d.length < 4 ∨ 16777216 < d.length ∨
      65536 * s.get Reg.HOST_DRAM_WIN_SIZE_SIZE < d.engine + d.length then some .refused
  else none

/-- R479: a record, and the channel's vector; the channel is idle. -/
def State.dmaRecord (s : State) (n : Nat) (st : Status) (moved residue : Nat) : State :=
  let s1 := ((((s.put (Reg.DMA_CH_STATUS_CODE n) st.code).set (Reg.DMA_CH_STATUS_REC_NEW n)).put (Reg.DMA_CH_MOVED_BYTES n) moved).put
    (Reg.DMA_CH_RESIDUE_BYTES n) residue).put (Reg.DMA_CH_STATUS_STATE n) 0
  (s1.modHost fun x => { x with dma := Tab.put {} x.dma n {}, ahead := Tab.put 0 x.ahead n 0 }).raiseVector (5 + n)

/-- A channel takes up the descriptor at an address, having moved so many bytes of its chain. -/
def State.dmaTake (s : State) (n addr moved : Nat) (d : DmaDesc) : State :=
  let s1 := s.put (Reg.DMA_CH_CUR_ADDR n) addr
  match s.hostDmaCheck addr d with
  | some st => s1.dmaRecord n st moved d.length
  | none =>
    (s1.put (Reg.DMA_CH_STATUS_STATE n) 1).modHost fun x =>
      { x with dma := Tab.put {} x.dma n { running := true, cur := d, moved := moved } }

/-- R743: channels whose descriptor lies outside the region that the policy grants stop. -/
def State.stopHostDma (s : State) : State :=
  s.each (List.range 32) fun n t =>
    let c := Tab.get {} t.host.dma n
    if c.running && decide (65536 * t.get Reg.HOST_DRAM_WIN_SIZE_SIZE < c.cur.engine + c.cur.length) then
      t.dmaRecord n .aborted c.moved c.cur.length
    else t

/-- R474, R482: `d` is the descriptor that DESC names, as read. -/
def execDmaChStart (n : Fin 32) (d : DmaDesc) (s : State) : Out := s.ifHost <|
  if n.val < 12 ∨ (Tab.get {} s.host.dma n.val).running = true then .next (s.set Reg.HOST_STATUS_CFG_REJ)
  else .next (s.dmaTake n.val (s.get (Reg.DMA_CH_DESC_ADDR n.val)) 0 d)

/-- The first bytes of a descriptor's data are moved, in the direction DIR gives; `data` is what the host memory holds. -/
def State.dmaMove (s : State) (n : Nat) (d : DmaDesc) (len : Nat) (data : List Byte) : State :=
  let at_ := s.dmaRegion + d.engine
  if d.up then s.channelWrite n d.host (swapBytes d.swap.val (Memory.readBytes s.dram at_ len))
  else { s with dram := Memory.writeBytes s.dram at_ (swapBytes d.swap.val ((data ++ List.replicate len 0).take len)) }

/-- R475–R477, R479, R470: the descriptor in progress has moved its bytes and its read-back, where it wrote host memory, has
returned; while its last upstream bytes do not fit the ledger it goes on. `next` is the descriptor that NEXT names, as read. -/
def execDmaDescriptorDone (n : Fin 32) (data : List Byte) (next : DmaDesc) (readBackOk : Bool) (s : State) : Out :=
  let c := Tab.get {} s.host.dma n.val
  if !c.running || (c.cur.up && !s.channelFits n.val c.cur.length) then .next s
  else
    let d := c.cur
    let moved := c.moved + d.length
    let s1 := s.dmaMove n.val d d.length data
    if d.up && !readBackOk then .next (s1.dmaRecord n.val .aborted moved 0)
    else
      let s2 := if d.irq then s1.raiseVector (5 + n.val) else s1
      if d.last then .next (s2.dmaRecord n.val .ok moved 0) else .next (s2.dmaTake n.val d.next moved next)

/-- The image transfers of a bulk ring, which one of the channels 4–7 carries (R473), end with a status. -/
def State.endTransfers (s : State) (p : Transfer → Bool) (st : Status) : State :=
  let gone := s.host.transfers.filter p
  let lost (m : StoreMove) : Bool := !m.export_ && gone.any fun t => decide (t.hdr = m.hdr)
  let s1 : State := { s with store := { s.store with moves := s.store.moves.filter fun m => !lost m } }
  ((s1.modHost fun x => { x with transfers := x.transfers.filter fun t => !p t }).each gone fun t u =>
    u.finish t.hdr t.opcode st 0 0 0).dropJobs gone

/-- The exports of a bulk ring, which one of the channels 8–11 carries (R473, R687), end with ABORTED (R478). -/
def State.endExports (s : State) (ring : Nat) : State :=
  let mine (m : StoreMove) : Bool := m.export_ && m.ring == ring
  let s1 : State := { s with store := { s.store with moves := s.store.moves.filter fun m => !mine m } }
  s1.each (s.store.moves.filter mine) fun m u => u.finish m.hdr 0x0730 .aborted 0 0 0

/-- R478, R482: the current burst ends, with `moved` bytes of the current descriptor moved. -/
def execDmaChAbort (n : Fin 32) (moved : Nat) (data : List Byte) (s : State) : Out := s.ifHost <|
  if n.val < 4 then .next (s.set Reg.HOST_STATUS_CFG_REJ)
  else if n.val < 12 then
    if s.host.transfers.any fun t => 4 + t.ring == n.val then
      .next ((s.endTransfers (fun t => 4 + t.ring == n.val) .aborted).dmaRecord n.val .aborted
        ((s.host.transfers.filter fun t => 4 + t.ring == n.val).map (·.got)).sum 0)
    else if s.store.moves.any fun m => m.export_ && 8 + m.ring == n.val then
      .next ((s.endExports (n.val - 8)).dmaRecord n.val .aborted
        ((s.store.moves.filter fun m => m.export_ && 8 + m.ring == n.val).map (·.done_)).sum 0)
    else .next s
  else
    let c := Tab.get {} s.host.dma n.val
    if !c.running then .next s
    else
      let all := min (moved / 4 * 4) c.cur.length
      let k := if c.cur.up then min all (Tab.get 0 s.host.ahead n.val + s.restRoom) else all
      .next ((s.dmaMove n.val c.cur k data).dmaRecord n.val .aborted (c.moved + k) (c.cur.length - k))

/-- R445: 1 s without a new buffer. -/
def execImageTransferTimeout (tag : BitVec 32) (s : State) : Out :=
  .next (s.endTransfers (fun t => t.hdr.tag == tag.toNat) .aborted)

/-! ### Hush (R463–R466) -/

/-- The groups hushed by either cause. -/
def State.hushed (s : State) : BitVec 64 := s.host.hushCmd ||| s.host.hushPin

/-- HOST_STATUS and HOST_HUSH_STATE follow, and a change of cause posts one HUSH event. -/
def State.showHush (s : State) (pin : Nat) : State :=
  ((s.put Reg.HOST_HUSH_STATE_HUSHED s.hushed.toNat).putBit Reg.HOST_STATUS_HUSH_ACTIVE (s.hushed != 0)).postNow .fault (some 59) 0x17
    [s.hushed.toNat, pin]

/-- R466: FLAGS bit 0 is RELEASE, bit 1 PIN. -/
def execHush (h : CmdHdr) (groups : BitVec 64) (s : State) : Out :=
  let release := Nat.testBit h.flags 0
  let pin := Nat.testBit h.flags 1
  if !release then .next (((s.modHost fun x => { x with hushCmd := x.hushCmd ||| groups }).showHush 0).ok h 0x0A00)
  else if pin && s.bit Reg.HOST_STATUS_HUSH_PIN then .next (s.refuse h 0x0A00 .refused 2 0)
  else
    let s1 := s.modHost fun x => { x with hushCmd := x.hushCmd &&& ~~~groups, hushPin := if pin then 0 else x.hushPin }
    .next ((s1.showHush (if pin then 1 else 0)).ok h 0x0A00)

/-- R465: the fall of HUSH_N is accepted. -/
def execHushNFall (s : State) : Out :=
  let g : BitVec 64 := BitVec.ofNat 64 (s.get Reg.HOST_HUSH_PIN_GRP_GROUPS)
  .next (if s.bit Reg.HOST_STATUS_HUSH_PIN then s
    else ((s.modHost fun x => { x with hushPin := x.hushPin ||| g }).set Reg.HOST_STATUS_HUSH_PIN).showHush 1)

/-- R465: the rise of HUSH_N is accepted; with PIN_LATCH the pin hush holds. -/
def execHushNRise (s : State) : Out :=
  .next (if !s.bit Reg.HOST_STATUS_HUSH_PIN then s
    else
      let s1 := s.put Reg.HOST_STATUS_HUSH_PIN 0
      if s.bit Reg.HOST_HUSH_CFG_PIN_LATCH then s1 else (s1.modHost fun x => { x with hushPin := 0 }).showHush 1)

/-- R464, R841: at a frame boundary of a domain every group's gain begins to move to where the hush state sends it that was in force
before that boundary; a HUSH dispatched or a pin level accepted since waits for the next one. At the first boundary since power-good a
hushed group of a pin that is low starts at exact zero (R818). -/
def execHushRampStart (d : Fin 3) (s : State) : Out :=
  let n := s.samplesMs d.val 2
  .next (s.each (List.range 64) fun g t => t.modHost fun x =>
    { x with hushGain := Tab.upd {} x.hushGain (4 * g + d.val) fun y =>
        if (s.dom d.val).frames < 2 && x.hushPin.getLsbD g then shutGate n
        else gateTo y ((Tab.get 0 s.host.hushSeen d.val).getLsbD g) n (s.dom d.val).si })

/-! ### Queries (R446, R447) -/

def execQueryPeek (h : CmdHdr) (cluster addr : Nat) (s : State) : Out :=
  .next (if 64 ≤ cluster then s.refuse h 0x0B01 .refused 16 0
    else if addr % 256 ≠ 0 ∨ 2 ^ 20 ≤ addr then s.refuse h 0x0B01 .refused 20 0
    else if (s.cluster cluster).peek.isSome then s.finish h 0x0B01 .busy 0 0 0
    else s.modCluster cluster fun x => { x with peek := some (addr, h) })

def execQueryClear (h : CmdHdr) (clusters : BitVec 64) (regions : BitVec 8) (s : State) : Out :=
  let cs := (List.range 64).filter clusters.getLsbD
  let gs := (List.range 8).filter regions.getLsbD
  let s1 := s.each cs fun c t => t.modCluster c fun x => { x with clears := x.clears ++ [h] }
  let s2 := s1.each gs fun g t => t.modRegion g fun x => { x with clears := x.clears ++ [h] }
  .next (if cs.isEmpty && gs.isEmpty then s.finish h 0x0B02 .empty 0 0 0 else s2)

end Sys2Proof.Machine
end

