-- ==== Sys2Proof/Machine/NetRx.lean ====
section
/-! DEFINITION. What a received frame does: the ingress classifier, receive streams and the cue listener (R497–R513). -/

namespace Sys2Proof.Machine

/-! ### Token buckets (R508, R509, R517) -/

/-- A bucket of a rate in bits a second and a burst in bytes after a frame at a stamp; whether the frame passes. Tokens are
bits × 16 × 10^9. -/
def Bucket.pass (b : Bucket) (rate burst stamp bytes : Nat) : Bucket × Bool :=
  let unit := 16000000000
  let cap := burst * 8 * unit
  let have_ := min cap (b.tokens.getD cap + (stamp - b.stamp) * rate)
  let need := bytes * 8 * unit
  if need ≤ have_ then (⟨some (have_ - need), max b.stamp stamp⟩, true) else (⟨some have_, max b.stamp stamp⟩, false)

/-! ### Classification (R506, R507) -/

/-- The first `len` bits of two addresses agree. -/
def prefixEq (width len a b : Nat) : Bool := a / 2 ^ (width - min len width) == b / 2 ^ (width - min len width)

/-- A rule matches a frame of a port; a match bit that is 0 ignores its field. -/
def ruleMatches (r : RuleRec) (x : Nat) (f : NetFrame) : Bool :=
  let w := if f.ipv6 then 128 else 32
  let on (k : Nat) (b : Bool) : Bool := !Nat.testBit r.mtch k || b
  Nat.testBit r.mtch 10 && Nat.testBit r.ports x && on 0 (f.vid == r.vid) && on 1 (f.pcp == r.pcp) && on 2 (f.etype == r.etype) &&
  on 3 (f.dscp == r.dscp) && on 4 (f.proto == r.proto) && on 5 (prefixEq w r.srcLen f.src r.src) &&
  on 6 (prefixEq w r.dstLen f.dst r.dst) && on 7 (decide (r.sportLo ≤ f.sport) && decide (f.sport ≤ r.sportHi)) &&
  on 8 (decide (r.dportLo ≤ f.dport) && decide (f.dport ≤ r.dportHi)) && on 9 f.ipv6

def isUdp (f : NetFrame) : Bool := (f.etype == 0x0800 || f.etype == 0x86DD) && f.proto == 17

/-- Rules 0–31 that place a frame in PTP or in CONTROL. -/
def isPtp (f : NetFrame) : Bool := f.etype == 0x88F7 || (isUdp f && (f.dport == 319 || f.dport == 320))
def isEapol (f : NetFrame) : Bool := match f.body with | .control b => b | _ => false
def isControl (f : NetFrame) : Bool :=
  (match f.body with | .control _ => true | _ => false) || (isUdp f && f.dport == 47261 && f.secure)

/-- A stream's destination and port on a network port: path 0 is A, path 1 is B. -/
def streamPath (r : StreamRec) (x : Nat) (f : NetFrame) : Option Nat :=
  let sentTo (p : Nat) (dst : Nat) : Bool := x == p && f.dst == dst
  if !isUdp f || f.dport != r.dport || f.ipv6 != r.ipv6 then none
  else if r.dup then (if sentTo 0 r.dstA then some 0 else if sentTo 1 r.dstB then some 1 else none)
  else if sentTo (if r.portB then 1 else 0) r.dstA then some (if r.portB then 1 else 0)
  else none

/-- The receive stream that a frame matches, with its path. -/
def State.streamFor (s : State) (x : Nat) (f : NetFrame) : Option (Nat × Nat) :=
  s.net.rx.findSome? fun e => e.2.bind fun y => (streamPath y.record x f).map fun p => (e.1, p)

/-! ### Receive streams (R497–R502) -/

def State.setRx (s : State) (n : Nat) (x : StreamSt) : State := { s with net := { s.net with rx := Tab.put none s.net.rx n (some x) } }

/-- R499. -/
def malformed (r : StreamRec) (d : RtpData) : Bool :=
  d.version != 2 || d.pt != r.pt || (r.ssrc != 0 && d.ssrc != r.ssrc) || d.length != r.channels * r.w * r.S

/-- The SI congruent to a timestamp that lies nearest the current SI; none below zero (R497). -/
def mapStamp (r : StreamRec) (now stamp : Nat) : Option Nat :=
  let m := 2 ^ 32
  let k := (stamp + m - r.rtpOffset % m + m - now % m) % m
  if k < 2 ^ 31 then some (now + k) else if m ≤ now + k then some (now + k - m) else none

/-- The sequence number of a path after a packet, with the packets lost before it. -/
def pathSeq (expect : Option Nat) (seq : Nat) : Option Nat × Nat :=
  match expect with
  | none => (some ((seq + 1) % 65536), 0)
  | some e =>
    let k := (seq + 65536 - e) % 65536
    if k < 32768 then (some ((seq + 1) % 65536), k) else (some e, 0)

/-- The counters of a well-formed packet's path. -/
def StreamSt.onPath (x : StreamSt) (path seq : Nat) : StreamSt :=
  if path = 0 then
    let r := pathSeq x.expectA seq
    { x with expectA := r.1, lossA := x.lossA + r.2 }
  else
    let r := pathSeq x.expectB seq
    { x with expectB := r.1, lossB := x.lossB + r.2 }

/-- An in-time packet ends a loss (R501). -/
def State.streamHeard (s : State) (n path : Nat) (x : StreamSt) : State :=
  let s1 := s.setRx n { x with lost := false }
  if x.lost then
    s1.postNow .net (some 40) 0x0102 [1, n, 0, if Nat.testBit x.record.pathMask path then x.record.pathMask - 2 ^ path else x.record.pathMask]
  else s1

/-- The samples of a packet wait for their input blocks from SI `at_` on. -/
def State.placePacket (s : State) (n : Nat) (r : StreamRec) (at_ : Nat) (d : RtpData) : State :=
  let ws := d.words.map (wireToSample r)
  let bad := (ws.filter (·.2)).length
  let s1 := s.each (List.range r.S) fun k t => t.each (List.range r.channels) fun c u =>
    u.putRx (mkAddr 1 (r.first + c)) (at_ + k) ((ws.getD (k * r.channels + c) (0, false)).1)
  match Tab.get none s1.net.rx n with
  | some y => s1.setRx n { y with scrubbed := y.scrubbed + bad }
  | none => s1

/-- One packet of a receive stream. -/
def State.takePacket (s : State) (n path : Nat) (f : NetFrame) (d : RtpData) : State :=
  match Tab.get none s.net.rx n with
  | none => s
  | some x0 =>
    let r := x0.record
    let x1 : StreamSt := { x0 with packets := x0.packets + 1, lastSsrc := d.ssrc }
    if malformed r d then s.setRx n { x1 with malformed := x1.malformed + 1 }
    else
      let x := x1.onPath path d.seq
      if r.domain = 3 then s.streamHeard n path x
      else if !Nat.testBit (s.get Reg.TIME_STATUS_ALIGNED) r.domain then s.setRx n x
      else
        let y := s.dom r.domain
        match mapStamp r y.si d.stamp with
        | none => s.setRx n { x with late := x.late + 1 }
        | some si =>
          let at_ := si + r.linkOffset
          if at_ < y.si ∨ (at_ < y.si + y.block ∧ f.tail = true) then s.setRx n { x with late := x.late + 1 }
          else if y.si + r.linkOffset + r.S + y.block < at_ + r.S then s.setRx n { x with early := x.early + 1 }
          else
            let have_ := (Tab.get none (Tab.get [] s.mix.rx (mkAddr 1 r.first)) at_).isSome
            let s1 := s.streamHeard n path x
            if have_ then s1 else s1.placePacket n r at_ d

/-! ### The cue listener (R510–R513) -/

/-- Why a cue fails: 1 tag, 2 sequence, 3 window, 4 source or what its entry requires else. -/
def State.cueFault (s : State) (n : Nat) (f : NetFrame) : Option Nat :=
  match Tab.get none s.net.cues n, f.body with
  | some c, .cue d =>
    let keys := (s.trust.policy.getD {}).cueKeys
    let si := if d.rate = 0 then d.si else d.si * (s.dom 0).rate / d.rate
    if !c.enable || !d.formOk || d.cueNo != c.cueNo || (c.source != 0 && d.source != c.source) then some 4
    else if !(if c.key = 255 then f.secure else d.tagOk && decide (c.key < keys.length)) then some 1
    else if (match Tab.get none s.net.cueSeq n with | some q => decide (d.seq ≤ q) | none => false) then some 2
    else if d.si ≠ 0 ∧ ((s.dom 0).si + (s.dom 0).rate < si ∨ si + (s.dom 0).rate < (s.dom 0).si) then some 3
    else none
  | _, _ => some 4

/-- A frame for the cue listener: an accepted cue originates the pour of its template. -/
def State.takeCue (s : State) (n : Nat) (f : NetFrame) : State :=
  match s.cueFault n f with
  | some k => (s.bump Reg.CLS_CUE_FAIL_COUNT).postNow .net (some 41) 0x0103 [n, k]
  | none =>
    match Tab.get none s.net.cues n, f.body with
    | some c, .cue d =>
      let t := if d.si = 0 then (s.dom 0).si + c.delay else s.fromPeer d.si d.rate
      let s1 : State := { s with net := { s.net with cueSeq := Tab.put none s.net.cueSeq n (some d.seq) } }
      s1.firePour c.template d.seq t
    | _, _ => s

/-! ### The host's packet path (R505, R509, R516) -/

/-- Bytes that received frames hold in the 96 KiB of HOST and BEST_EFFORT. -/
def State.hostHeld (s : State) : Nat := (s.net.hostRx.map fun g => g.frame.length).sum

/-- Host frames wait in class order, and within a class in the order received. -/
def queueHost (l : List HostFrameRx) (g : HostFrameRx) : List HostFrameRx :=
  if g.best then l ++ [g] else (l.filter fun x => !x.best) ++ [g] ++ l.filter (·.best)

/-- Buffers of the receive ring that no waiting frame will take. -/
def State.rxBuffers (s : State) : Nat :=
  ((List.range 4).map fun b =>
    if s.bit (Reg.HOST_BRING_CFG_ENABLE b) && s.get (Reg.HOST_BRING_CFG_USE b) == 3 && s.get (Reg.HOST_BRING_ERR_CODE b) != 2 then
      ringCount (s.get (Reg.HOST_BRING_CFG_LOG2 b)) (s.get (Reg.HOST_BRING_HEAD_POS b)) (s.get (Reg.HOST_BRING_TAIL_POS b))
    else 0).sum - s.net.hostRx.length

/-- A frame of class HOST or BEST_EFFORT: the policer over all ports, the class buffer, and a buffer of the host. -/
def State.toHost (s : State) (x : Nat) (f : NetFrame) (best stamped : Bool) : State :=
  let p := s.net.hostBucket.pass 2000000000 262144 f.stamp f.length
  let s1 : State := { s with net := { s.net with hostBucket := p.1 } }
  if !p.2 then s1.bump Reg.CLS_HOST_POLICE_COUNT
  else if 98304 < s.hostHeld + f.length then s1.bump (Reg.CLS_CLASS_DROP_COUNT (if best then 4 else 3))
  else if s.rxBuffers = 0 then s1.bump (Reg.NET_HOST_DROP_COUNT x)
  else
    { s1 with net := { s1.net with hostRx := queueHost s1.net.hostRx { port := x, best := best, stamped := stamped, frame := f } } }

/-- A host rule matches (R508). -/
def State.applyRule (s : State) (x : Nat) (f : NetFrame) (r : RuleRec) : State :=
  let s1 := if r.count then s.bump (Reg.CLS_RULE_CNT_COUNT r.index) else s
  let p := (Tab.get {} s1.net.ruleBuckets r.index).pass (r.rate * 1000) (r.burst * 1024) f.stamp f.length
  let s2 : State := if r.police then { s1 with net := { s1.net with ruleBuckets := Tab.put {} s1.net.ruleBuckets r.index p.1 } } else s1
  if r.police && !p.2 then s2
  else if r.cue then s2.takeCue r.cueEntry f
  else
    match r.cls with
    | 2 => s2.bump (Reg.CLS_CLASS_DROP_COUNT 2)
    | 3 => s2.toHost x f false r.stamp
    | 4 => s2.toHost x f true r.stamp
    | _ => s2

/-- What the engine's own rules and then the host's do with a frame. -/
def State.classify (s : State) (x : Nat) (f : NetFrame) : State :=
  if isPtp f then
    let ok := match f.body with | .ptp b _ => b | _ => false
    if s.bit Reg.TIME_PTP_CFG_AUTH && !ok then s.bump Reg.TIME_AUTH_FAIL_CNT_COUNT
    else
      let s1 : State :=
        { s with net := { s.net with ptpRx := s.net.ptpRx + 1, ptpStamp := f.stamp + s.get (Reg.TIME_PORT_LAT_INGRESS x) } }
      match f.body with
      | .ptp _ (some t) => if s.bit (Reg.TIME_PTP_PORT_EN x) then s1.stepClock t else s1
      | _ => s1
  else if isControl f then (match f.body with | .message src m => s.takeCtrl src m | _ => s)
  else
    match s.streamFor x f, f.body with
    | some (n, path), .rtp d => s.takePacket n path f d
    | some (n, _), _ =>
      (match Tab.get none s.net.rx n with
       | some y => s.setRx n { y with packets := y.packets + 1, malformed := y.malformed + 1 }
       | none => s)
    | none, _ =>
      match s.net.rules.findSome? fun e => e.2.bind fun r => if ruleMatches r x f then some r else none with
      | some r => s.applyRule x f r
      | none => if s.bit (Reg.NET_CTL_HOST_EN x) then s.toHost x f true false else s.bump (Reg.CLS_CLASS_DROP_COUNT 4)

/-- A frame as its port takes it: only a live association of NETA or NETB makes it one of a secure channel (R514, R515). -/
def State.arrived (s : State) (x : Nat) (f : NetFrame) : NetFrame :=
  { f with secure := f.secure && decide (x < 2) && s.bit (Reg.NET_MACSEC_MKA_UP x) }

/-- R504, R515: a frame received on an enabled port. -/
def execNetFrameReceived (x : Fin 3) (wire : NetFrame) (s : State) : Out :=
  let f := s.arrived x.val wire
  if !s.bit (Reg.NET_CTL_EN x.val) then .next s
  else
    let s1 := s.bump (Reg.NET_RX_FRAMES_COUNT x.val)
    .next (if x.val < 2 ∧ s.get (Reg.NET_MACSEC_MODE x.val) = 2 ∧ f.secure = false ∧ isEapol f = false then
      s1.bump (Reg.NET_MACSEC_DROP_COUNT x.val) else s1.classify x.val f)

end Sys2Proof.Machine
end

