-- ==== Sys2Proof/Machine/Bulk.lean ====
section
/-! DEFINITION. Bulk buffers: images, host frames and store transfers (R444, R445, R480, R481, R516, R517, R687, R688, R748). -/

namespace Sys2Proof.Machine

/-- What has been done with a buffer: the bytes consumed or filled, and its STATUS. -/
structure BulkResult where
  len : Nat := 0
  st : Status := .ok

/-- R481: bytes 24–31 of the entry at HEAD are written, HEAD advances, and BULK_DONE is posted where NOTIFY asks for it. -/
def State.bulkDone (s : State) (b : Nat) (e : BulkEntry) (x : BulkResult) : State :=
  let r := 12 + b
  let idx := ringIdx (s.get (ringHead r))
  let s1 := (s.hostWrite (s.headAddr r + 24) (natToBytes 4 x.len ++ natToBytes 1 x.st.code ++ [0, 0, 0x80])).advanceHead r
  if e.notify then
    s1.postTo (s.get (Reg.HOST_BRING_CFG_EVT b) % 4) { code := 3, si := (s.dom 0).si, body := [b, idx, x.len] } none
  else s1

/-! ### Images (R444, R445, R748) -/

/-- An image has arrived whole: what its command makes of it. -/
def State.imageArrived (s : State) (t : Transfer) (i : ImageData) (f : StartFacts) : State :=
  match t.opcode with
  | 0x0500 => s.programArrived t i
  | 0x0600 => s.scheduleArrived t i
  | 0x0731 => s.importArrived t i
  | _ => s.objectArrived t i f

/-- One buffer of an image. A transfer whose memory lies outside the windows stops (R456); one of another length, or whose
last buffer brings no image, is REFUSED. -/
def State.takeImageBuffer (s : State) (b : Nat) (e : BulkEntry) (x : BulkData) : State :=
  let fin (t : State) (n : Nat) (st : Status) : State := t.bulkDone b e ⟨n, st⟩
  match s.host.transfers.find? fun t => t.ring == b && t.hdr.tag == e.tag with
  | none => fin s e.len .refused
  | some t =>
    let this (y : Transfer) : Bool := decide (y = t)
    if !s.windowOk e.addr e.len false then fin (s.endTransfers this .windowFault) 0 .windowFault
    else if !e.last then
      fin (s.modHost fun h => { h with transfers := h.transfers.map fun y => if this y then { y with got := y.got + e.len } else y })
        e.len .ok
    else if t.got + e.len ≠ t.length then fin (s.endTransfers this .refused) e.len .refused
    else
      match x with
      | .image i f => (fin (s.modHost fun h => { h with transfers := dropFirst this h.transfers }) e.len .ok).imageArrived t i f
      | _ => fin (s.endTransfers this .refused) e.len .refused

/-! ### Host frames to the network (R412, R516, R517) -/

/-- A host frame is discarded and counted, or sent; a timestamp that STAMP requests is taken as it leaves. -/
def State.sendHostFrame (s : State) (e : BulkEntry) (x : HostFrameTx) : State :=
  let p := x.port
  let drop (t : State) : State := if p < 3 then t.bump (Reg.NET_HOST_DROP_COUNT p) else t
  if 2 < p then s
  else if x.srcMac ≠ s.get (Reg.NET_HOST_MAC_MAC p) ∨ x.reserved = true ∨
      Config.portMaximum (s.bit (Reg.NET_CTL_JUMBO p)) < x.length ∨ s.bit (Reg.NET_CTL_HOST_EN p) = false then drop s
  else
    let k := s.net.txBucket.pass 2000000000 262144 x.stamp x.length
    let s1 : State := { s with net := { s.net with txBucket := k.1 } }
    if !k.2 then drop s1
    else
      let s2 := s1.bump (Reg.NET_TX_FRAMES_COUNT p)
      if e.stamp then s2.pushStamp p ⟨e.stampId, x.stamp + s.get (Reg.TIME_PORT_LAT_EGRESS p), true⟩ else s2

/-! ### Received frames to the host (R516) -/

/-- The prefix of a received frame. -/
def framePrefix (g : HostFrameRx) (stamp : Nat) : List Byte :=
  let t := if g.stamped then stamp else 0
  natToBytes 1 g.port ++ natToBytes 1 (if g.stamped then 1 else 0) ++ natToBytes 2 g.frame.length ++
  natToBytes 4 (t / 16 % 1000000000) ++ natToBytes 6 (t / 16000000000) ++ natToBytes 1 (t % 16) ++ natToBytes 1 0

/-- The bytes of a frame; those that the model does not hold are open. -/
def State.frameBytes (s : State) (f : NetFrame) : List Byte × State :=
  let l := match f.body with | .other b => b.take f.length | _ => []
  let k := f.length - l.length
  (l ++ s.openBytes k, { s with ctr := s.ctr + (k + 7) / 8 })

/-- The frame that waits longest takes the buffer, once the ledger has room for its last bytes (R470); one that the buffer cannot hold is discarded, and the buffer stays. -/
def State.fillFrame (s : State) (b : Nat) (e : BulkEntry) : State :=
  match s.net.hostRx with
  | [] => s
  | g :: rest =>
    let s1 : State := { s with net := { s.net with hostRx := rest } }
    let n := 16 + g.frame.length
    if e.len < n then s1.bump (Reg.NET_HOST_DROP_COUNT g.port)
    else if !s.channelFits (8 + b) (n + 8) then s
    else if !s.windowOk e.addr n true then (s1.bump (Reg.NET_HOST_DROP_COUNT g.port)).bulkDone b e ⟨0, .windowFault⟩
    else
      let r := s1.frameBytes g.frame
      ((r.2.channelWrite (8 + b) e.addr (framePrefix g (g.frame.stamp + s.get (Reg.TIME_PORT_LAT_INGRESS g.port)) ++ r.1))).bulkDone b e ⟨n, .ok⟩

/-! ### Store exports (R687) -/

/-- The next bytes of an export fill the buffer, once the ledger has room for the last of them (R470); the command completes with the last of them. -/
def State.fillExport (s : State) (b : Nat) (e : BulkEntry) : State :=
  match s.store.moves.find? fun m => m.export_ && m.ring == b with
  | none => s
  | some m =>
    let rest := fun (x : StoreMove) => decide (x ≠ m)
    let end_ (t : State) (st : Status) : State :=
      (t.modStore fun y => { y with moves := y.moves.filter rest }).finish m.hdr 0x0730 st 0 0 0
    let n := min e.len (m.total - m.done_)
    if !s.windowOk e.addr n true then (end_ s .windowFault).bulkDone b e ⟨0, .windowFault⟩
    else if !s.channelFits (8 + b) (n + 8) then s
    else
      let r := s.exportBytes m m.done_ n
      let s1 := r.2.channelWrite (8 + b) e.addr r.1
      let s2 := if m.done_ + n = m.total then end_ s1 (if m.cutShort then .partly else .ok)
        else s1.modStore fun y => { y with moves := y.moves.map fun x => if x = m then { x with done_ := x.done_ + n } else x }
      s2.bulkDone b e ⟨n, .ok⟩

/-- R481: the buffer at HEAD of a bulk ring, with its entry as fetched and, downstream, what it holds. The ring waits for a frame
whose ledger has room for the write-back (R470). -/
def execBulkBufferConsumed (b : Fin 4) (e : BulkEntry) (x : BulkData) (s : State) : Out :=
  let r := 12 + b.val
  let up := s.bit (Reg.HOST_BRING_CFG_DIR b.val)
  let use := s.get (Reg.HOST_BRING_CFG_USE b.val)
  if !s.ringReady r || decide (s.restRoom < 8) then .next s
  else if !s.ringMemOk r (s.headAddr r) 32 then .next (s.ringFault r 2)
  else if e.len = 0 ∨ 65536 < e.len then .next (s.bulkDone b.val e ⟨0, .refused⟩)
  else if !up then
    if use = 1 ∨ use = 5 then .next (s.takeImageBuffer b.val e x)
    else if use = 2 then
      if !s.windowOk e.addr e.len false then .next (s.bulkDone b.val e ⟨0, .windowFault⟩)
      else
        .next ((match x with | .frame y => s.sendHostFrame e y | _ => s).bulkDone b.val e ⟨e.len, .ok⟩)
    else .next (s.bulkDone b.val e ⟨0, .refused⟩)
  else if use = 3 then .next (s.fillFrame b.val e)
  else if use = 4 then .next (s.fillExport b.val e)
  else .next (s.bulkDone b.val e ⟨0, .refused⟩)

end Sys2Proof.Machine
end

