-- ==== Sys2Proof/Machine/Xbar.lean ====
section
/-! DEFINITION. The crossbars as the cluster DMA meets them: the targets a transfer crosses, reserved and unreserved requests, and
bursts granted in round-robin order (R34, R290, R324–R326). -/

namespace Sys2Proof.Machine

/-- The crossbar targets a transfer crosses, with the master it is at each (R324): the region crossbar of the cluster, then for
another region or the hub the die crossbar, then the region crossbar of the other cluster. -/
def dmaPath (c : Nat) (d : ClDma) : List (Nat × Nat) :=
  let g := c / 8
  let uplink := (16 * g + 9, c % 8)
  let die := 128 + 16 * (c / 32)
  match d.space with
  | 2 => [(16 * g + 8, c % 8)]
  | 4 =>
    let t := d.target
    if t / 8 = g then [(16 * g + t % 8, c % 8)] else [uplink, (die + t / 8 % 4, g % 4), (16 * (t / 8) + t % 8, 9)]
  | _ => [uplink, (die + 4, g % 4)]

/-- The tick of the frame that a firing's clock has reached: its start tick and the ticks its cycles take at the region's set
point, or at 400 MHz under the bypass clock (R134, R407). -/
def State.firingTick (s : State) (c : Nat) (f : Firing) : Nat :=
  let g := c / 8
  let mhz := if s.bit (Reg.FABRIC_RG_CLK_BYPASS g) then 400 else setPointMHz (s.get (Reg.FABRIC_RG_CLK_SETPOINT g))
  f.entry.startTick + f.clk * frameHz (s.dom f.domain).rate / (mhz * 1000000)

/-- How a cluster's running transfer asks for the crossbars in this cycle (R290): reserved on the ticks of its reservation, up to
the reservation's bytes per tick (its headroom bytes while a crossfade runs in the firing); unreserved with RESV = 0xFF and after
the reservation's last tick; not at all before the first tick, past those bytes, or while the other cluster of a SPACE 4 transfer
is outside its firing windows. -/
def State.dmaAsks (s : State) (c : Nat) : Option (ClDma × Bool) :=
  match (s.cluster c).firing, (s.cluster c).dmaRun with
  | some f, some d =>
    if d.space = 4 ∧ (s.cluster d.target).firing.isNone then none
    else
      match if d.resv = 0xFF then none else f.entry.reservations[d.resv]? with
      | none => some (d, false)
      | some r =>
        let tick := s.firingTick c f
        let head := if (s.fadingIn c f.fsi (s.dom f.domain).block).isEmpty then 0 else r.headBytesPerTick
        if tick < r.firstTick then none
        else if r.lastTick < tick then some (d, false)
        else if d.moved + 32 ≤ (r.bytesPerTick + head) * (tick + 1 - r.firstTick) then some (d, true)
        else none
  | _, _ => none

/-- The next target of its path that a transfer has not been granted, with the master it is there. -/
def State.nextTarget (s : State) (c : Nat) (d : ClDma) : Option (Nat × Nat) :=
  (dmaPath c d).find? fun p => !(s.grant p.1).heldBy c

/-- The requests that wait for a target: cluster, master, and whether the request is reserved. -/
def State.requests (s : State) (t : Nat) : List (Nat × Nat × Bool) :=
  (List.range 64).filterMap fun x =>
    match s.dmaAsks x with
    | some (d, r) =>
      match s.nextTarget x d with
      | some (t', m) => if t' = t then some (x, m, r) else none
      | none => none
    | none => none

/-- How far a master stands behind the one granted last (R325); 0 is the next in turn. -/
def turn (last : Option Nat) (m : Nat) : Nat := match last with | some k => (m + 15 - k) % 16 | none => m

/-- The request a free target grants (R325): of the reserved ones, or else of the others, the next in round-robin order. -/
def pickRequest (last : Option Nat) (l : List (Nat × Nat × Bool)) : Option (Nat × Nat × Bool) :=
  let pool := if l.any (·.2.2) then l.filter (·.2.2) else l
  pool.foldl (fun b x =>
    match b with
    | none => some x
    | some y => if turn last x.2.1 < turn last y.2.1 then some x else some y) none

/-- A cluster's transfer asks for the targets of its path one after another; whether it holds them all. A free target grants a
burst of 256 bytes to the request whose turn it is (R325). -/
def State.xbarAsk (c : Nat) : Nat → State → Bool × State
  | 0, s => (false, s)
  | k + 1, s =>
    match s.dmaAsks c with
    | none => (false, s)
    | some (d, _) =>
      match s.nextTarget c d with
      | none => (true, s)
      | some (t, _) =>
        if (s.grant t).holder.isSome then (false, s)
        else
          match pickRequest (s.grant t).last (s.requests t) with
          | none => (false, s)
          | some (x, m, _) =>
            let s1 := s.setGrant t { last := some m, holder := some (x, 256) }
            if x = c then State.xbarAsk c k s1 else (false, s1)

/-- 32 bytes of a burst have passed the targets of a path; a burst of 256 bytes ends, and so does the last of a transfer. -/
def State.passWord (s : State) (c : Nat) (d : ClDma) (last : Bool) : State :=
  s.each (dmaPath c d) fun p t =>
    match (t.grant p.1).holder with
    | some (x, n) =>
      if x = c then t.setGrant p.1 { t.grant p.1 with holder := if last || decide (n ≤ 32) then none else some (x, n - 32) }
      else t
    | none => t

end Sys2Proof.Machine
end

