-- ==== Sys2Proof/Machine/Cluster.lean ====
section
/-! DEFINITION. The shared-memory port, the cluster DMA, the output scrub and the peek (R117, R272–R294). -/

namespace Sys2Proof.Machine

/-- The slot-table entry that governs slot cycle t of a firing (R274, R275). -/
def slotEntry (f : Firing) (t : Nat) : Nat := f.entry.slotTable.getD (t % max 1 f.entry.slotTable.length) 0

def grants (e i : Nat) : Bool := Nat.testBit e i
def isWriteCycle (e : Nat) : Bool := Nat.testBit e 15

/-- The 32-byte word of an address (R272). -/
def portWord (a : Nat) : Nat := a / 32

/-- What the port's SECDED finds (R293). -/
def State.sharedEcc (s : State) (c : Nat) : Ecc → State
  | .clean => s
  | .corrected n => s.bumpBy (Reg.FABRIC_CL_ECC_SHM_CORR c) n
  | .uncorrectable => s.cut c 4

/-- The read a unit presents in a cycle that grants it: its buffered read, else the one it issues (R277, R278). -/
def UnitSt.presentedRead (x : UnitSt) : Option ReadReq := match x.readBuf with | some r => some r | none => x.readNew

def UnitSt.presentedWrite (x : UnitSt) : Option WriteReq := match x.writeBuf with | some w => some w | none => x.writeNew

/-- A read is served in cycle `now`: its data lands at issue + 6 + k, k the cycles it waited (R278); LDP advances its slot
(R260). -/
def State.serveRead (s : State) (c u now : Nat) (r : ReadReq) : State :=
  let cycle := max r.issued now + 6
  let g := 8 * c + u
  let fly (s : State) (d : Dest) (v : Dword) : State :=
    s.modUnit g fun x => { x with flight := insLanding ⟨cycle, d, v, r.issued⟩ x.flight }
  let w (k : Nat) : Word := Memory.read32 s.shm (shmAddr c r.addr + k)
  match r.form with
  | 4 => s.each r.dest fun d t => fly t d (lanes (w 0) 0)
  | 5 => s.each r.dest fun d t => fly t d (both (w 0))
  | 8 => s.each r.dest fun d t => fly t d (lanes (w 0) (w 4))
  | 16 =>
    let p := s.ldpRead c r.addr
    p.2.each r.dest fun d t => fly t d (both p.1)
  | _ => s.each (r.dest.zipIdx) fun d t => fly t d.1 (lanes (w (8 * d.2)) (w (8 * d.2 + 4)))

/-- A read issued in this cycle that is not served waits in the buffer, or is lost when the buffer is held (R278,
R279). -/
def State.settleRead (s : State) (u : Nat) : State :=
  let x := s.unit u
  match x.readNew, x.readBuf with
  | some r, none => s.setUnit u { x with readBuf := some r, readNew := none }
  | some _, some _ => (s.setUnit u { x with readNew := none }).readLost u
  | none, _ => s

/-- A write issued in this cycle that is not presented waits in the buffer, or is lost (R281). -/
def State.settleWrite (s : State) (u : Nat) : State :=
  let x := s.unit u
  match x.writeNew, x.writeBuf with
  | some w, none => s.setUnit u { x with writeBuf := some w, writeNew := none }
  | some _, some _ => (s.setUnit u { x with writeNew := none }).writeLost (u / 8) (u % 8)
  | none, _ => s

/-- The end of a cycle for the units of a cluster: what was not presented is kept or lost, and a unit whose shared reads have all
been served or discarded goes on where it waited for them. -/
def State.settleAll (s : State) (c : Nat) : State :=
  s.each (List.range 8) fun u t => ((t.settleRead (8 * c + u)).settleWrite (8 * c + u)).modUnit (8 * c + u) UnitSt.settled

/-- A unit's presented read leaves its buffer, or its place as the read issued in this cycle. -/
def State.dropRead (s : State) (u : Nat) : State :=
  s.modUnit u fun x => match x.readBuf with | some _ => { x with readBuf := none } | none => { x with readNew := none }

def State.dropWrite (s : State) (u : Nat) : State :=
  s.modUnit u fun x => match x.writeBuf with | some _ => { x with writeBuf := none } | none => { x with writeNew := none }

/-- The first same-word loss is captured (R280, R284). -/
def State.captureLoss (s : State) (c req addr : Nat) : State :=
  if s.bit (Reg.FABRIC_CL_WLOST_ADDR_VALID c) then s
  else ((s.put (Reg.FABRIC_CL_WLOST_ADDR_ADDR c) (portWord addr * 32)).put (Reg.FABRIC_CL_WLOST_ADDR_REQ c) req).set
    (Reg.FABRIC_CL_WLOST_ADDR_VALID c)

/-- The reserved bits of a DMA descriptor are 0, REMOTE_HI and CLUSTER included where R286 reserves them. -/
def dmaReservedOk (w : Nat → Nat) : Bool :=
  let sp := w 2 % 16
  decide (w 0 / 2 ^ 20 = 0) && decide (w 2 / 2 ^ 6 % 4 = 0) && decide (w 2 / 2 ^ 14 = 0) && decide (w 3 / 2 ^ 17 = 0) &&
  decide (w 4 / 2 = 0) && decide (w 5 / 256 = 0) && decide (w 6 = 0) && decide (w 7 / 2 = 0) &&
  (decide (sp = 3) || decide (w 2 / 2 ^ 4 % 4 = 0)) && (decide (sp = 4) || decide (w 2 / 2 ^ 8 % 64 = 0))

/-- A completed write that sets GO in the command window issues the descriptor, its fields read now (R286). -/
def State.issueDma (s : State) (c addr size : Nat) : State :=
  let base := addr / 32 * 32
  let w (k : Nat) : Nat := (Memory.read32 s.shm (shmAddr c base + 4 * k)).toNat
  if 0xFF800 ≤ addr ∧ base + 0x1C < addr + size ∧ addr ≤ base + 0x1C ∧ w 7 % 2 = 1 then
    let u := (addr - 0xFF800) / 0x100
    let d : ClDma := { unit := u, localAddr := w 0 % 2 ^ 20, remote := w 1 + w 2 / 16 % 4 * 2 ^ 32, space := w 2 % 16,
                       target := w 2 / 2 ^ 8 % 64, length := w 3 % 2 ^ 17, out := w 4 % 2 == 1, resv := w 5 % 256,
                       reservedOk := dmaReservedOk w }
    (s.modCluster c fun x => { x with dmaQueue := x.dmaQueue ++ [d] }).modUnit (8 * c + u) fun x =>
      { x with dmaOut := x.dmaOut + 1 }
  else s

/-- A write completes: only the bytes its size covers change (R282). One that covers half a code word merges with what the code
finds in the other half, and does not take place where that fails (R293). -/
def State.completeWrite (s : State) (c addr size v : Nat) (e : Ecc) : State :=
  let s1 := if size = 4 then s.sharedEcc c e else s
  if size = 4 ∧ e = .uncorrectable then s1
  else State.issueDma { s1 with shm := Memory.writeNat s1.shm (shmAddr c addr) size v } c addr size

/-! ### Cluster DMA -/

/-- The wide address of a remote space (R287, R314, R329). -/
def remoteAddr (c : Nat) (d : ClDma) : Nat :=
  match d.space with
  | 0 => d.remote
  | 1 => 2 ^ 22 + d.remote
  | 2 => c / 8 * 2 ^ 24 + d.remote
  | 3 => d.remote
  | _ => d.target * 2 ^ 20 + d.remote

/-- A range lies within one range. -/
def within (lo hi a n : Nat) : Bool := decide (lo ≤ a) && decide (a + n ≤ hi)

/-- Check 4 of R289. -/
def ClDma.inBounds (c : Nat) (d : ClDma) : Bool :=
  within 0 0x100000 d.localAddr d.length &&
  (match d.space with
   | 0 => within 0 0x100000 d.remote d.length || within 0x100000 0x200000 d.remote d.length ||
          within 0x200000 0x200400 d.remote d.length
   | 1 => within 0 0x100000 d.remote d.length || within 0x100000 0x200000 d.remote d.length
   | 2 => within 0 0x1000000 d.remote d.length
   | 3 => within 0x200000000 0x220000000 d.remote d.length || within 0x240000000 0x3E0000000 d.remote d.length
   | _ => within 0 0x100000 d.remote d.length && decide (d.target / 32 = c / 32) && decide (d.target ≠ c))

/-- Check 5 of R289: no reservation, or one whose path leads there. -/
def ClDma.pathOk (f : Firing) (d : ClDma) : Bool :=
  d.resv == 0xFF ||
  (match f.entry.reservations[d.resv]? with
   | some r => r.space == d.space && r.out == d.out && (d.space != 4 || r.target == d.target) &&
               within r.remoteLo r.remoteHi d.remote d.length
   | none => false)

/-- The first failing check of R289, as the code it records. -/
def State.dmaCheck (s : State) (c : Nat) (f : Firing) (d : ClDma) : Option Nat :=
  if !d.reservedOk then some 6
  else if 4 < d.space then some 1
  else if d.localAddr % 32 ≠ 0 ∨ d.length % 32 ≠ 0 ∨ d.length < 32 ∨ 65536 < d.length then some 2
  else if !d.inBounds c then some 3
  else if !d.pathOk f then some 4
  else if d.space = 4 ∧ (s.cluster d.target).firing.isNone then some 5
  else none

/-- R286, R289: the next issued descriptor is checked once the transfer before it has ended; a refusal moves nothing, is
recorded once, and WAITDMA does not wait for it. -/
def execDmaTransferStart (c : Fin 64) (s : State) : Out :=
  let x := s.cluster c.val
  match x.firing, x.dmaRun, x.dmaQueue with
  | some f, none, d :: rest =>
    let s1 := s.setCluster c.val { x with dmaQueue := rest }
    match s.dmaCheck c.val f d with
    | none => .next (s1.modCluster c.val fun y => { y with dmaRun := some d })
    | some code =>
      let s2 := s1.modUnit (8 * c.val + d.unit) fun y => { y with dmaOut := y.dmaOut - 1 }
      .next (if s.bit (Reg.FABRIC_CL_DMA_DMA_ERR c.val) then s2
        else ((s2.set (Reg.FABRIC_CL_DMA_DMA_ERR c.val)).put (Reg.FABRIC_CL_DMA_UNIT c.val) d.unit).put
          (Reg.FABRIC_CL_DMA_CODE c.val) code)
  | _, _, _ => .next s

/-- One word through the output scrub: counted, flagged, with one SCRUB event on each change of the flag (R49, R117). -/
def State.scrubWord (s : State) (c : Nat) (w : Word) : Word × State :=
  let nan := Fp.isNaN w
  let inf := Fp.isInf w
  let out := if nan then 0 else if inf then Fp.scrub w else w
  if nan || inf then
    let s1 := if nan then (s.set (Reg.FABRIC_CL_SCRUB_NAN_SEEN c)).bump (Reg.FABRIC_CL_SCRUB_NAN_CNT_COUNT c)
      else (s.set (Reg.FABRIC_CL_SCRUB_INF_SEEN c)).bump (Reg.FABRIC_CL_SCRUB_INF_CNT_COUNT c)
    let s2 := if s.bit (Reg.FABRIC_CL_SCRUB_SCRUB c) then s1
      else (s1.set (Reg.FABRIC_CL_SCRUB_SCRUB c)).postNow .fault (some 55) 0x12 [c]
    (out, s2)
  else (out, s)

/-- The word that a transfer sends to a remote space: what leaves for a stage, a delay line or the package DRAM passes the
output scrub, and a transfer to a cluster carries bits unchanged (R291). -/
def State.dmaSends (s : State) (c : Nat) (d : ClDma) (w : Word) : Word × State :=
  if 1 ≤ d.space ∧ d.space ≤ 3 then s.scrubWord c w else (w, s)

/-- The cluster DMA's access in one port cycle: the next 32 bytes of its transfer, word by word in ascending order (R272, R286,
R291). `bad` lists the package-DRAM units that are delivered as zero (R331). -/
def State.dmaWord (s : State) (c : Nat) (d : ClDma) (bad : List Nat) : State :=
  let r := remoteAddr c d + d.moved
  let l := shmAddr c d.localAddr + d.moved
  let s1 := s.each (List.range 8) fun k t =>
    if d.out then
      let p := t.dmaSends c d (Memory.read32 t.shm (l + 4 * k))
      p.2.spaceWrite d.space (r + 4 * k) p.1
    else
      let w := if d.space = 3 ∧ bad.contains ((r + 4 * k) / 64 * 64) then 0 else t.spaceRead d.space (r + 4 * k)
      { t with shm := Memory.writeNat t.shm (l + 4 * k) 4 w.toNat }
  if d.out then s1 else s1.issueDma c (d.localAddr + d.moved) 32

/-- Errors that the memory behind a transfer reports (R315, R331): `bad` lists the package-DRAM units that are delivered as zero. A
transfer that writes covers half a unit of package DRAM with each access, and single-bit errors of that unit are corrected too (log
entry 157). -/
def State.dmaEcc (s : State) (c : Nat) (d : ClDma) (e : Ecc) (bad : List Nat) : State :=
  match d.space, e with
  | 2, .corrected n => if d.out then s else s.bumpBy (Reg.FABRIC_RG_DLY_CORR (c / 8)) n
  | 3, .corrected n => s.bumpBy Reg.SCHED_DRAM_ECC_CORR n
  | 2, .uncorrectable => if d.out then s else s.errSeen
  | 3, .uncorrectable =>
    if d.out then s
    else s.errSeen.each bad fun a t =>
      (t.bump Reg.SCHED_DRAM_ECC_UNCORR).postNow .fault (some 56) 0x13 [a]
  | _, _ => s

/-- A word of delay memory that the transfer reads has an uncorrectable error, which cuts the firing (R315). -/
def ClDma.fails (d : ClDma) (e : Ecc) : Bool := d.space == 2 && !d.out && decide (e = .uncorrectable)

/-- The access with what the memory behind it reports, and the end of the transfer with its last bytes (R188, R286). -/
def State.dmaStep (s : State) (c : Nat) (d : ClDma) (m : RemoteErr) : State :=
  let last := decide (d.length ≤ d.moved + 32)
  let s1 := (((s.dmaEcc c d m.err m.bad).dmaWord c d m.bad).passWord c d last).modCluster c fun x =>
    { x with dmaRun := if last then none else some { d with moved := d.moved + 32 } }
  if last then s1.modUnit (8 * c + d.unit) fun x => { x with dmaOut := x.dmaOut - 1 } else s1

/-- The access that the cluster DMA presents in a cycle whose table entry is `en` (R276): none where the entry does not grant it,
where its transfer goes the other way, or where the crossbars have not granted its burst; `given` stands for that grant. -/
def State.dmaPresents (s : State) (c en : Nat) (out given : Bool) : Option ClDma × State :=
  match (s.cluster c).dmaRun with
  | some d =>
    if grants en 10 && d.out == out then
      let q := if given then (true, s) else s.xbarAsk c 4
      (if q.1 then some d else none, q.2)
    else (none, s)
  | none => (none, s)

/-! ### Port cycles -/

/-- The address that the glaze engine presents in a cycle that grants it (R276, R312). -/
def State.glazePresents (s : State) (c en : Nat) (write : Bool) : Option Nat :=
  match (s.cluster c).firing with
  | some f =>
    if grants en 8 then
      f.glaze.bind fun r => if write then r.writes.head?.map (·.1) else r.readAddr (s.dom f.domain).block
    else none
  | none => none

/-- R277–R279, R293: a read cycle at clock cycle `now`. -/
def State.portRead (s : State) (c en now : Nat) (given : Bool) (m : RemoteErr) (e : Ecc) : State :=
  let q := s.dmaPresents c en true given
  let dma := q.1
  let s0 := q.2
  let glz := s0.glazePresents c en false
  let units := (List.range 8).filter fun u => grants en u && (s0.unit (8 * c + u)).presentedRead.isSome
  let addrOf (u : Nat) : Nat := match (s0.unit (8 * c + u)).presentedRead with | some r => r.addr | none => 0
  match ((dma.map fun d => d.localAddr + d.moved).orElse fun _ => glz.orElse fun _ => units.head?.map addrOf).map portWord with
  | none => s0.settleAll c
  | some w =>
    let s1 := s0.sharedEcc c e
    if e = .uncorrectable then s1
    else
      let served := units.filter fun u => portWord (addrOf u) == w
      let s2 := s1.each served fun u st =>
        match (st.unit (8 * c + u)).presentedRead with
        | some r => (st.serveRead c u now r).dropRead (8 * c + u)
        | none => st
      let s3 := match dma with | some d => s2.dmaStep c d m | none => s2
      let s4 := match glz, (s3.cluster c).firing with
        | some a, some f =>
          match f.glaze with
          | some r => if portWord a = w then
              s3.glazeRead c f r ((List.range 8).map fun k => Memory.read32 s0.shm (shmAddr c (32 * w) + 4 * k))
            else s3
          | none => s3
        | _, _ => s3
      s4.settleAll c

/-- R280–R283, R293: a write cycle. -/
def State.portWrite (s : State) (c en : Nat) (given : Bool) (m : RemoteErr) (e : Ecc) : State :=
  let q := s.dmaPresents c en false given
  let dma := q.1
  let s0 := q.2
  let glz := s0.glazePresents c en true
  let units := (List.range 8).filter fun u => grants en u && (s0.unit (8 * c + u)).presentedWrite.isSome
  let addrOf (u : Nat) : Nat := match (s0.unit (8 * c + u)).presentedWrite with | some r => r.addr | none => 0
  match ((dma.map fun d => d.localAddr + d.moved).orElse fun _ => glz.orElse fun _ => units.head?.map addrOf).map portWord with
  | none => s0.settleAll c
  | some w =>
    if (dma.map fun d => d.fails m.err) = some true then s0.cut c 4 else
    let glzWord := (((s0.cluster c).firing.bind (·.glaze)).bind (·.writes.head?)).getD (0, [])
    let first : Option Nat := if dma.isSome || glz.isSome then none else units.head?
    let s1 := match dma, glz, first with
      | some d, _, _ => s0.dmaStep c d m
      | none, some a, _ =>
        ((s0.completeWrite c a (4 * glzWord.2.length)
          (bytesToNat ((glzWord.2.map fun (v : Word) => natToBytes 4 v.toNat).flatten)) e).glazeWrote c)
      | none, none, some u =>
        match (s0.unit (8 * c + u)).presentedWrite with
        | some r => (s0.completeWrite c r.addr r.size r.val.toNat e).dropWrite (8 * c + u)
        | none => s0
      | none, none, none => s0
    let losers := units.filter fun u => some u != first && portWord (addrOf u) == w
    let s2 := s1.each losers fun u st =>
      ((st.dropWrite (8 * c + u)).writeLost c u).captureLoss c u (addrOf u)
    let s3 := match glz with
      | some a => if dma.isSome && portWord a == w then ((s2.glazeWrote c).writeLost c 8).captureLoss c 8 a else s2
      | none => s2
    s3.settleAll c

/-- Units of package DRAM are delivered as zero only where an uncorrectable error is reported (R331). -/
def reported (m : RemoteErr) : RemoteErr := if m.err = .uncorrectable then m else { m with bad := [] }

/-- R277–R279: slot cycle t of the port as a read cycle; it comes once, after every earlier one. A table entry of the other kind
leaves it to the write cycle. -/
def execShmReadCycle (c : Fin 64) (t : Nat) (m : RemoteErr) (e : Ecc) (s : State) : Out :=
  match (s.cluster c.val).firing with
  | none => .next s
  | some f =>
    let en := slotEntry f t
    let now := f.entry.seqCycles + t
    if isWriteCycle en || decide (now < f.clk) then .next s
    else .next ((s.clockTo c.val (now + 1)).portRead c.val en now false (reported m) e)

/-- R280–R283: slot cycle t of the port as a write cycle. -/
def execShmWriteCycle (c : Fin 64) (t : Nat) (m : RemoteErr) (e : Ecc) (s : State) : Out :=
  match (s.cluster c.val).firing with
  | none => .next s
  | some f =>
    let en := slotEntry f t
    let now := f.entry.seqCycles + t
    if !isWriteCycle en || decide (now < f.clk) then .next s
    else .next ((s.clockTo c.val (now + 1)).portWrite c.val en false (reported m) e)

/-- The next cycle of a firing cluster's clock: a cycle of the sequencer phase, or the slot cycle that the table gives. -/
def State.portCycle (s : State) (c : Nat) (given : Bool) (bad : List Nat) : State :=
  match (s.cluster c).firing with
  | none => s
  | some f =>
    let s1 := s.clockTo c (f.clk + 1)
    if f.clk < f.entry.seqCycles then s1.settleAll c
    else
      let en := slotEntry f (f.clk - f.entry.seqCycles)
      if isWriteCycle en then s1.portWrite c en given { bad := bad } .clean else s1.portRead c en f.clk given { bad := bad } .clean

/-- Cycles within which the table grants the cluster DMA `n` accesses of a kind (R274, R276): the sequencer phase and whole
periods; 0 where it never does. -/
def grantSpan (f : Firing) (out : Bool) (n : Nat) : Nat :=
  let g := (f.entry.slotTable.filter fun en => grants en 10 && isWriteCycle en == !out).length
  if g = 0 then 0 else f.entry.seqCycles + (n / g + 2) * f.entry.slotTable.length

/-- The port runs on until the cluster DMA has ended its transfer, whose bursts the crossbars have granted. -/
def State.portUntil (s : State) (c : Nat) (bad : List Nat) : Nat → State
  | 0 => s
  | k + 1 => if (s.cluster c).dmaRun.isNone then s else State.portUntil (s.portCycle c true bad) c bad k

/-- R136, R276, R286, R291: the running transfer completes, in the port cycles that grant the cluster DMA the accesses it still
needs; a table that grants it none leaves it waiting (log entry 16). An uncorrectable error in a delay-memory word that the
cluster DMA reads cuts the reading firing (R315). -/
def execDmaTransferComplete (c : Fin 64) (e : Ecc) (bad : List Nat) (s : State) : Out :=
  match (s.cluster c.val).firing, (s.cluster c.val).dmaRun with
  | some f, some d =>
    if d.fails e then .next (s.cut c.val 4)
    else
      .next ((s.dmaEcc c.val d e bad).portUntil c.val (if e = .uncorrectable then bad else []) (grantSpan f d.out ((d.length - d.moved) / 32 + 1)))
  | _, _ => .next s

/-- R294: the 256 bytes of the pending peek, and its QUERY completes; within a firing window the copy waits for its guard phase. -/
def execPeekCopy (c : Fin 64) (s : State) : Out :=
  match (s.cluster c.val).peek, (s.cluster c.val).firing with
  | none, _ | _, some _ => .next s
  | some (a, h), none =>
    let s1 := s.each (List.range 64) fun j t =>
      t.put (Reg.FABRIC_CL_PEEK_DATA c.val j) (Memory.read32 t.shm (shmAddr c.val a + 4 * j)).toNat
    .next ((s1.modCluster c.val fun x => { x with peek := none }).ok h 0x0B01)

end Sys2Proof.Machine
end

