-- ==== Sys2Proof/Machine/Mixer.lean ====
section
/-! DEFINITION. What the standard program set computes of a block: strips, buses, matrix outputs, control groups, the renderer,
generators, crossfades and meters (R64, R71–R85, R101–R107, R114, R123). Where the manual gives no algorithm (filters, dynamics,
generators, interpolated taps) the sample is an open value (log entry 133). -/

namespace Sys2Proof.Machine

/-! ### What runs the standard set -/

/-- A program image of the standard program set that the running firmware contains (R64, R708). -/
def State.stdImage (s : State) (dg : Nat) : Bool := (Tab.get [] s.pwr.library (s.get Reg.PWR_BISQUE_FW)).any fun p => p.digest == dg

/-- A cluster of a schedule runs the standard program set. -/
def State.stdCluster (s : State) (i : SchedImage) (l : Nat) : Bool := !(imagesOf i l).isEmpty && (imagesOf i l).all s.stdImage

/-- The place of an object that the standard program set implements. -/
def State.stdPlace (s : State) (i : SchedImage) (h : Nat) : Option ObjectPlace :=
  (placeOf i h).bind fun p => if s.stdCluster i p.cluster.val then some p else none

/-- The object of a source or destination of the mix (R66). -/
def addrObject (a : Nat) : Nat :=
  match addrKind a with
  | 0x10 => mkHandle 1 (addrChan a) 0
  | 0x14 => mkHandle 1 (addrChan a / 2) 0
  | 0x11 => mkHandle 2 (addrChan a) 0
  | 0x12 => mkHandle 3 (addrChan a) 0
  | 0x13 => mkHandle 6 (addrChan a) 0
  | 8 => mkHandle 0x0A (addrChan a) 0
  | _ => 0

/-! ### Parameters on a sample, in the two versions of an object (R97, R102, R106) -/

/-- The entry in force for a handle on a sample, in the old version of an object in a crossfade or else as it is. -/
def State.entryOf (s : State) (old : Option Crossfade) (h t : Nat) : Option Change :=
  match old.bind fun x => x.shadow.find? fun c => c.handle == h with
  | some c => some c
  | none => (sortChanges (s.mix.changes.filter fun c => c.applied && c.handle == h && decide (c.target ≤ t))).getLast?

/-- A parameter in the space of its shape, as a program reads it, and in its own unit. -/
def State.spaceOf (s : State) (old : Option Crossfade) (h t : Nat) : Word :=
  match s.entryOf old h t with | some c => c.x t | none => s.restValue h
def State.readOf (s : State) (old : Option Crossfade) (h t : Nat) : Word :=
  match s.entryOf old h t with | some c => c.value t | none => s.slotValue h
def State.rawOf (s : State) (old : Option Crossfade) (h t : Nat) : Word :=
  match s.entryOf old h t with | some c => c.raw | none => s.param h

/-- The crossfade of an object that meets a block. -/
def State.fadeOn (s : State) (object x b : Nat) : Option Crossfade :=
  s.mix.fades.find? fun f => f.object == object && decide (f.start < x + b) && decide (x < f.start + f.len)

/-- One output of an object from those of its two versions (R103): the old one before the crossfade, the new one after it. -/
def crossed (f : Option Crossfade) (t : Nat) (old new : Unit → Word) : Word :=
  match f with
  | none => new ()
  | some f =>
    if t < f.start then old ()
    else if t < f.start + f.len then crossSample f.eqPower (t - f.start) f.len (old ()) (new ())
    else new ()

/-! ### Control groups and mutes (R81–R83, R96) -/

/-- The last record of a group's term in an object that has begun, for a version. -/
def State.termOf (s : State) (old : Option Crossfade) (object g t : Nat) : Option GroupTerm :=
  let l := s.mix.terms.filter fun x => x.object == object && x.group == g && decide (x.start ≤ t) && decide (t < x.start + x.len) &&
    (match old with | some f => decide (x.start < f.start) | none => true)
  l.foldl (fun m x => match m with | some y => if y.start < x.start then some x else some y | none => some x) none

/-- A strip is assigned to a group on a sample. -/
def State.assigned (s : State) (old : Option Crossfade) (n g t : Nat) : Bool :=
  (s.rawOf old (mkHandle 1 n (192 + g / 32)) t).getLsbD (g % 32)

/-- The term of a group in a strip's gain, in log2 of gain; none where it has none (R81, R83). -/
def State.groupTerm (s : State) (old : Option Crossfade) (n g t : Nat) : Option Word :=
  match s.termOf old (mkHandle 1 n 0) g t with
  | some x => if x.off then none else some (s.termAt x t)
  | none => if s.assigned old n g t then some (s.levelAt (mkHandle 4 g 0) t) else none

/-- The gain of the mute or unmute by which a group whose level is off is added or removed (R83, R96). -/
def State.offGain (s : State) (old : Option Crossfade) (n g t : Nat) : Word :=
  match s.termOf old (mkHandle 1 n 0) g t with
  | some x =>
    if x.off then
      let k := if x.adding then t + 1 - x.start else x.start + x.len - (t + 1)
      closedGain x.len k
    else 0x3F800000
  | none => 0x3F800000

/-- A gain from terms in log2, added in their order: held at +20 dB, exact zero where a term or the sum is at or below −144 dB
(R81). -/
def gainSum (l : List Word) : Word :=
  let sum := l.foldl (fun a w => (Fp.add a w).1) 0
  if l.any (fun w => decide (Fp.val w ≤ Fp.val mutedLog)) || decide (Fp.val sum ≤ Fp.val mutedLog) then 0
  else (Fp.exp2 (Fp.min sum (Fp.dbToLog2 0x41A00000))).1

/-- The effective gain of a strip without its mute. -/
def State.stripGain (s : State) (old : Option Crossfade) (n t : Nat) : Word :=
  (List.range 64).foldl (fun w g => (Fp.mul w (s.offGain old n g t)).1)
    (gainSum (s.spaceOf old (mkHandle 1 n 144) t :: (List.range 64).filterMap fun g => s.groupTerm old n g t))

/-- A strip is muted: by its own mute, or by that of a group it is assigned to (R82). -/
def State.mutedOn (s : State) (old : Option Crossfade) (n t : Nat) : Bool :=
  s.rawOf old (mkHandle 1 n 145) t != 0 ||
    (List.range 64).any fun g => s.assigned old n g t && s.rawOf none (mkHandle 4 g 1) t != 0

/-- The length of the ramp of a mute that begins on a sample: that of the change to the strip's own mute or to a group's, else the
Mute-class default (R83, R92). -/
def State.muteLen (s : State) (old : Option Crossfade) (n d t : Nat) : Nat :=
  let at_ (h : Nat) : Option Nat := (s.entryOf old h t).bind fun c => if c.target = t ∧ c.shape = 2 then some c.len else none
  match at_ (mkHandle 1 n 145) with
  | some k => k
  | none =>
    match (List.range 64).findSome? fun g => if s.assigned old n g t then at_ (mkHandle 4 g 1) else none with
    | some k => k
    | none => s.samplesMs d 5

/-- The mute gain of a strip on a sample, in log2. -/
def MuteSt.x (m : MuteSt) (t : Nat) : Word :=
  let goal := if m.on then mutedLog else 0
  if m.start + m.len ≤ t + 1 then goal else backFrom goal (m.start + m.len - 1 - t) (stepOf m.v0 goal m.len)

/-- It turns on a sample, from the value that a running ramp gives there (R96, R97). -/
def State.muteStep (s : State) (old : Option Crossfade) (n d t : Nat) (m : MuteSt) : MuteSt :=
  let on := s.mutedOn old n t
  if on == m.on then m else { on := on, start := t, len := s.muteLen old n d t, v0 := m.x t }

/-- The mute gains of a strip from a sample on, and the state after them. -/
def State.muteRun (s : State) (old : Option Crossfade) (n d : Nat) : Nat → Nat → MuteSt → List Word × MuteSt
  | 0, _, m => ([], m)
  | k + 1, t, m =>
    let m' := s.muteStep old n d t m
    let r := s.muteRun old n d k (t + 1) m'
    (shapeOut 2 (m'.x t) :: r.1, r.2)

/-- The state of a strip's mute at the start of a block: at rest where none is kept. The old version starts with the new one's. -/
def State.muteAt (s : State) (old : Option Crossfade) (n d x : Nat) : MuteSt :=
  let rest : MuteSt := { on := s.mutedOn old n x }
  let new := (Tab.get none s.mix.std.mutes n).getD rest
  match old with
  | none => new
  | some f =>
    match Tab.get none s.mix.std.mutes (2 ^ 32 + n) with
    | some m => m
    | none => (s.muteRun none n d (f.start - x) x new).2

/-! ### The block in the making -/

/-- A block of a domain as the standard set computes it: its first SI, its length, what the open values depend on, and the signals
known so far. -/
structure MixEnv where
  img : SchedImage := {}
  d : Nat := 0
  x : Nat := 0
  b : Nat := 0
  seed : Nat := 0
  known : Tab (List Word) := []

def MixEnv.block (e : MixEnv) (f : Nat → Word) : List Word := (List.range e.b).map f
def MixEnv.put (e : MixEnv) (k : Nat) (l : List Word) : MixEnv := { e with known := Tab.put [] e.known k l }
def MixEnv.sig (e : MixEnv) (k j : Nat) : Word := (Tab.get [] e.known k).getD j 0

/-- An open value of sample j at a point of the mix. -/
def MixEnv.open_ (e : MixEnv) (point j : Nat) : Word := Config.mixValue e.seed point (e.x + j)

/-- Points of a strip's chain in a version: 1 after trim, 2 what goes into the next insert, 3 after step 7, 4 after step 8. -/
def strip (stage n : Nat) (old : Bool) : Nat := 2 ^ 32 * stage + 2 * n + (if old then 1 else 0)

/-- The versions of an object that a block runs. -/
def versions (f : Option Crossfade) : List (Option Crossfade) := match f with | some x => [none, some x] | none => [none]

/-- The firing that holds an object has ended normally in the frame. -/
def State.ran (s : State) (p : ObjectPlace) : Bool := (s.cluster (s.physical p.cluster.val)).ended.contains p.firing.val

/-- A signal that leaves a cluster ramps up from zero after a re-admission or a load (R153, R164). -/
def State.onLink (s : State) (e : MixEnv) (c c' : Nat) (j : Nat) (w : Word) : Word :=
  let until_ := (s.cluster (s.physical c)).rampUntil
  if c = c' ∨ until_ ≤ e.x + j then w else (Fp.mul w (rampGain until_ (s.samplesMs e.d 5) (e.x + j))).1

def homeOf (i : SchedImage) (h : Nat) : Nat := ((placeOf i h).map fun p => p.cluster.val).getD 64

/-- Sample j of a source, for a consumer in a cluster (R67, R70, R72, R113): of an object of the domain the signal just computed, or
with a delay of B that of the block before; an owner's object gives what its program computes; else what the input stage or the
playback ring holds. -/
def State.sourceSample (s : State) (e : MixEnv) (c a : Nat) (looped : Bool) (j : Nat) : Word :=
  if a = 0 then 0
  else if 8 ≤ addrKind a ∧ !s.crosses e.img a e.d then
    let h := addrObject a
    if looped then s.onLink e (homeOf e.img h) c j ((Tab.get [] s.mix.std.out a).getD j 0)
    else if (s.stdPlace e.img h).isSome then s.onLink e (homeOf e.img h) c j (e.sig a j)
    else e.open_ a j
  else if addrKind a = 5 then Memory.read32 s.dram (trackAddr false (addrChan a) (e.x + j))
  else
    match offsetIn s.mix.stageIn a e.d with
    | some o => Memory.read32 s.stage (e.x / e.b % 2 * 2 ^ 20 + o + 4 * j)
    | none => 0

/-- The block that a destination receives, through a patch crossfade where one runs (R67, R71, R103, R107). -/
def State.received (s : State) (e : MixEnv) (c dst : Nat) : List Word :=
  let p := Tab.get {} s.mix.patch dst
  e.block fun j =>
    let t := e.x + j
    if t < p.start then s.sourceSample e c p.old p.oldLooped j
    else if t < p.start + p.len then
      crossSample p.eqPower (t - p.start) p.len (s.sourceSample e c p.old p.oldLooped j) (s.sourceSample e c p.source p.looped j)
    else s.sourceSample e c p.source p.looped j

/-! ### Delays, filters and dynamics (R74, R85, R101) -/

/-- Sample j of a line that a block has joined, `n` samples back. -/
def lineTap (line block : List Word) (j n : Nat) : Word :=
  if line.length + j < n then 0
  else if line.length + j - n < line.length then line.getD (line.length + j - n) 0 else block.getD (j - n) 0

/-- Sample j of a whole-sample delay: across the taps before and after while its crossfade runs (R85, R101, R103). -/
def State.delayed (s : State) (e : MixEnv) (object h : Nat) (block : List Word) (j : Nat) : Word :=
  let line := Tab.get [] s.mix.std.line object
  let k := Tab.get {} s.mix.std.delays h
  let tap (n : Nat) : Word := lineTap line block j n
  let t := e.x + j
  if t < k.start then tap k.old
  else if t < k.start + k.len then crossSample false (t - k.start) k.len (tap k.old) (tap k.new)
  else tap (s.delayOf e.d (s.param h))

/-- A filter or a dynamics stage works on a sample: it is on, or it ramps since it was switched. -/
def State.works (s : State) (old : Option Crossfade) (h t : Nat) : Bool :=
  s.rawOf old h t != 0 || decide (t < Tab.get 0 s.mix.std.busy h)

/-- A section with on fields: what goes in comes out while none of them works; else the sample is open. -/
def State.section_ (s : State) (e : MixEnv) (old : Option Crossfade) (object : Nat) (on : List Nat) (l : List Word) : List Word :=
  e.block fun j =>
    if on.any fun p => s.works old (object + p) (e.x + j) then
      e.open_ (2 ^ 40 + 2 * (object + on.headD 0) + (if old.isSome then 1 else 0)) j
    else l.getD j 0

/-- The on fields of the parametric EQ. -/
def eqOn : List Nat := (List.range 8).map fun b => 32 + 5 * b

/-- Steps 4 to 7 of a chain (R75): 0 EQ, 1 gate, 2 compressor, 3 inserts. -/
def chainOrder (v : Nat) : List Nat :=
  match v with
  | 1 => [1, 2, 0, 3]
  | 2 => [1, 0, 2, 3]
  | 3 => [3, 0, 1, 2]
  | 4 => [0, 3, 1, 2]
  | _ => [0, 1, 2, 3]

/-- Steps in turn. -/
def State.steps (s : State) (e : MixEnv) (old : Option Crossfade) (object : Nat) : List Nat → List Word → List Word
  | [], l => l
  | k :: t, l => s.steps e old object t (s.section_ e old object (match k with | 0 => eqOn | 1 => [96] | _ => [112]) l)

/-- A parameter that no ramp moves, in a version: as it is at the end of the block. -/
def State.fixedOf (s : State) (e : MixEnv) (old : Option Crossfade) (h : Nat) : Nat := (s.rawOf old h (e.x + e.b - 1)).toNat

/-! ### Strips (R74–R77) -/

/-- An output of an object at a key: across its versions (R102, R103). -/
def State.emit (s : State) (e : MixEnv) (object key : Nat) (f : Option Crossfade → Nat → Word) : MixEnv :=
  let x := s.fadeOn object e.x e.b
  e.put key (e.block fun j => crossed x (e.x + j) (fun _ => f x j) (fun _ => f none j))

/-- Of a cluster whose firing has not ended the outputs fade from their last sample, and stay at exact zero (R157, R160). -/
def State.fallen (s : State) (e : MixEnv) (keys : List Nat) : MixEnv :=
  keys.foldl (fun m k => m.put k (m.block fun j =>
    fadeSample e.b ((Tab.get [] s.mix.std.out k).getLastD 0) j)) e

/-- Up to the send of insert A (R74, R75). -/
def State.strip0 (s : State) (e : MixEnv) (n : Nat) : MixEnv :=
  let h := mkHandle 1 n 0
  let fade := s.fadeOn h e.x e.b
  let inp := s.received e (homeOf e.img h) (mkAddr 0x10 n)
  let trimmed (v : Option Crossfade) : List Word := e.block fun j =>
    (Fp.mul (Fp.mul (inp.getD j 0) (s.readOf v h (e.x + j))).1 (s.readOf v (h + 1) (e.x + j))).1
  let new := trimmed none
  let e1 := (versions fade).foldl (fun m v =>
    let l1 := e.block fun j => s.delayed e h (h + 2) new j
    let l2 := s.section_ e v h [20] (s.section_ e v h [16] l1)
    let before := (chainOrder (s.fixedOf e v (h + 131))).takeWhile (· ≠ 3)
    (m.put (strip 1 n v.isSome) (trimmed v)).put (strip 2 n v.isSome) (s.steps e v h before l2)) e
  s.emit e1 h (mkAddr 0x14 (2 * n)) fun v j => e1.sig (strip 2 n v.isSome) j

/-- The return of an insert takes the place of its send where the insert is on. -/
def State.insert (s : State) (e : MixEnv) (n k : Nat) : MixEnv :=
  let h := mkHandle 1 n 0
  let ret := s.received e (homeOf e.img h) (mkAddr 0x14 (2 * n + k))
  (versions (s.fadeOn h e.x e.b)).foldl (fun m v =>
    if s.fixedOf e v (h + 128 + k) = 1 then m.put (strip 2 n v.isSome) ret else m) e

/-- Insert A, up to the send of insert B. -/
def State.strip1 (s : State) (e : MixEnv) (n : Nat) : MixEnv :=
  let e1 := s.insert e n 0
  s.emit e1 (mkHandle 1 n 0) (mkAddr 0x14 (2 * n + 1)) fun v j => e1.sig (strip 2 n v.isSome) j

/-- Insert B, the rest of the chain, fader, mute and control groups, and the direct out. -/
def State.strip2 (s : State) (e : MixEnv) (n : Nat) : MixEnv :=
  let h := mkHandle 1 n 0
  let e1 := s.insert e n 1
  let e2 := (versions (s.fadeOn h e.x e.b)).foldl (fun m v =>
    let after := ((chainOrder (s.fixedOf e v (h + 131))).dropWhile (· ≠ 3)).drop 1
    let pre := s.steps e v h after (Tab.get [] e1.known (strip 2 n v.isSome))
    let mutes := (s.muteRun v n e.d e.b e.x (s.muteAt v n e.d e.x)).1
    let post := e.block fun j => (Fp.mul (Fp.mul (pre.getD j 0) (s.stripGain v n (e.x + j))).1 (mutes.getD j 0)).1
    (m.put (strip 3 n v.isSome) pre).put (strip 4 n v.isSome) post) e1
  s.emit e2 h (mkAddr 0x10 n) fun v j =>
    let stage := match s.fixedOf e v (h + 161) with | 0 => 1 | 1 => 3 | _ => 4
    (Fp.mul (e2.sig (strip stage n v.isSome) j) (s.readOf v (h + 160) (e.x + j))).1

/-! ### Sums (R73, R79, R80, R84) -/

/-- Inputs added in their order. -/
def sumSample : List Word → Word
  | [] => 0
  | w :: t => t.foldl (fun a x => (Fp.add a x).1) w

/-- Sample j of the send of a strip to a bus, in a version of the strip and one of the bus pair: panned where the pair is linked
(R74, R78). -/
def State.sendSample (s : State) (e : MixEnv) (v pair : Option Crossfade) (n k j : Nat) : Word :=
  let t := e.x + j
  let h := mkHandle 7 n (4 * k)
  let pre := s.fixedOf e v (h + 2) = 1
  let w := e.sig (strip (if pre then 3 else 4) n v.isSome) j
  let g := (Fp.mul (Fp.mul w (s.readOf v h t)).1 (s.readOf v (h + 1) t)).1
  let even := k / 2 * 2
  if s.fixedOf e pair (mkHandle 2 even 148) = 1 then
    let p := if pre then s.readOf v (mkHandle 7 n (4 * even + 3)) t else s.readOf v (mkHandle 1 n 146) t
    let q := panGains (s.fixedOf e v (mkHandle 1 n 147)) p
    (Fp.mul g (if k % 2 = 0 then q.1 else q.2)).1
  else g

/-- The objects of a class that a domain holds, in ascending order (R73). -/
def MixEnv.objects (e : MixEnv) (cls : Nat) : List Nat :=
  (List.range (classCount cls)).filter fun n => match placeOf e.img (mkHandle cls n 0) with
    | some p => p.cls == cls && p.domain.val == e.d
    | none => false

/-- Sample j of an input of a sum: of a strip across its versions, on its way to a cluster. A strip of an owner's program gives what
it computes. -/
def State.input (s : State) (e : MixEnv) (c n point : Nat) (j : Nat) (f : Option Crossfade → Word) : Word :=
  let h := mkHandle 1 n 0
  if (s.stdPlace e.img h).isNone then e.open_ (2 ^ 48 * (n + 1) + point) j
  else
    let x := s.fadeOn h e.x e.b
    s.onLink e (homeOf e.img h) c j (crossed x (e.x + j) (fun _ => f x) (fun _ => f none))

/-- A delay line of an object takes the block (R85). -/
def State.onLine (s : State) (e : MixEnv) (object h : Nat) (l : List Word) : List Word := e.block fun j => s.delayed e object h l j

/-- The fader and the mute of a bus, matrix output or feed. -/
def State.level (s : State) (e : MixEnv) (v : Option Crossfade) (fader mute : Nat) (l : List Word) (j : Nat) : Word :=
  (Fp.mul (Fp.mul (l.getD j 0) (s.readOf v fader (e.x + j))).1 (s.readOf v mute (e.x + j))).1

/-- A bus (R79): what goes into its delay line at 2^36 + k, before its fader at 2^37 + k, and its output. A change of the link of
its pair crosses its sum. -/
def State.bus (s : State) (e : MixEnv) (k : Nat) : MixEnv :=
  let h := mkHandle 2 k 0
  let c := homeOf e.img h
  let pair := s.fadeOn (mkHandle 2 (k / 2 * 2) 0) e.x e.b
  let x := s.fadeOn h e.x e.b
  let sum (l : Option Crossfade) (j : Nat) : Word := sumSample ((e.objects 1).map fun n =>
    s.input e c n (4 * k) j fun v => s.sendSample e v l n k j)
  let both := e.block fun j => crossed pair (e.x + j) (fun _ => sum pair j) (fun _ => sum none j)
  let dyn (v : Option Crossfade) : List Word :=
    s.section_ e v h [112] (s.section_ e v h eqOn (if k % 2 = 0 then e.block (sum v) else both))
  let line := e.block fun j => crossed x (e.x + j) (fun _ => (dyn x).getD j 0) (fun _ => (dyn none).getD j 0)
  let pre := s.onLine e h (h + 2) line
  ((e.put (2 ^ 36 + k) line).put (2 ^ 37 + k) pre).put (mkAddr 0x11 k) (e.block fun j => s.level e none (h + 144) (h + 145) pre j)

/-- A matrix output (R80): what goes into its delay line at 2^38 + m, and its output. -/
def State.matrix (s : State) (e : MixEnv) (m : Nat) : MixEnv :=
  let h := mkHandle 3 m 0
  let c := homeOf e.img h
  let bus (k j : Nat) : Word :=
    if (s.stdPlace e.img (mkHandle 2 k 0)).isNone then e.open_ (2 ^ 50 + 2 ^ 10 * m + k) j
    else s.onLink e (homeOf e.img (mkHandle 2 k 0)) c j (e.sig (mkAddr 0x11 k) j)
  let sum := e.block fun j => sumSample ((e.objects 2).map fun k =>
    (Fp.mul (Fp.mul (bus k j) (s.readOf none (mkHandle 8 m (4 * k)) (e.x + j))).1 (s.readOf none (mkHandle 8 m (4 * k + 1)) (e.x + j))).1)
  let late := s.onLine e h (h + 2) sum
  let e1 := e.put (2 ^ 38 + m) sum
  s.emit e1 h (mkAddr 0x12 m) fun v j => s.level e v (h + 144) (h + 145) (s.section_ e v h eqOn late) j

/-! ### The renderer (R84) -/

/-- The distance between two points, in units of 2^-300 m. -/
def distance (a b : List Word) : Nat :=
  Fp.isqrt (((a.zip b).map fun p => (Fp.scaled p.1 - Fp.scaled p.2).natAbs ^ 2).sum) 320 0

/-- The position of an object or feed on a sample. -/
def State.position (s : State) (v : Option Crossfade) (h t : Nat) : List Word := (List.range 3).map fun k => s.readOf v (h + k) t

/-- 6 dB less for every doubling of the distance beyond 1 m. -/
def distanceGain (r : Nat) : Word := if r ≤ 2 ^ 300 then 0x3F800000 else ratWord (2 ^ 300) r Fp.exBias

/-- Sample j of an object-feed pair: the delay is the distance over 343 m/s, less the smallest over the feeds. A delay of whole samples
gives the sample itself; between samples the tap's interpolation is open, and so is what the panning makes of the gain beyond the
law of distance, by object at spread 0 and by pair above it. An object that has been silent gives silence. -/
def State.pairSample (s : State) (e : MixEnv) (v : Option Crossfade) (o f j : Nat) : Word :=
  let t := e.x + j
  let h := mkHandle 5 o 0
  let near := s.position none h t
  let reach (g : Nat) (v : Option Crossfade) : Nat := distance near (s.position v (mkHandle 6 g 0) t)
  let r := reach f v
  let least := ((e.objects 6).map fun g => reach g none).foldl min r
  let line := Tab.get [] s.mix.std.line h
  let block := Tab.get [] e.known (2 ^ 39 + o)
  if (line ++ block.take (j + 1)).all (fun w => decide (Fp.isZero w)) then 0
  else
    let n := (r - least) * (s.dom e.d).rate
    let pan := e.open_ (2 ^ 51 + 2 ^ 12 * o + (if Fp.isZero (s.readOf none (h + 3) t) then 0 else f + 1)) j
    let tap := if n % (343 * 2 ^ 300) = 0 then lineTap line block j (n / (343 * 2 ^ 300)) else e.open_ (2 ^ 52 + 2 ^ 12 * o + f) j
    (Fp.mul (Fp.mul tap (distanceGain r)).1 pan).1

/-- An object's signal, from the strips assigned to it (R74, R84). -/
def State.objectNode (s : State) (e : MixEnv) (o : Nat) : MixEnv :=
  let h := mkHandle 5 o 0
  let c := homeOf e.img h
  e.put (2 ^ 39 + o) (e.block fun j =>
    let sum := sumSample ((e.objects 1).map fun n => s.input e c n (1024 + o) j fun v =>
      if s.fixedOf e v (mkHandle 1 n 177) = o then (Fp.mul (e.sig (strip 4 n v.isSome) j) (s.readOf v (mkHandle 1 n 176) (e.x + j))).1 else 0)
    (Fp.mul (Fp.mul sum (s.readOf none (h + 4) (e.x + j))).1 (s.readOf none (h + 5) (e.x + j))).1)

/-- A renderer feed: its pairs, trim, delay and mute. -/
def State.feed (s : State) (e : MixEnv) (f : Nat) : MixEnv :=
  let h := mkHandle 6 f 0
  let x := s.fadeOn h e.x e.b
  let sum (v : Option Crossfade) (j : Nat) : Word := sumSample ((e.objects 5).map fun o => s.pairSample e v o f j)
  let line := e.block fun j =>
    (Fp.mul (crossed x (e.x + j) (fun _ => sum x j) (fun _ => sum none j)) (s.readOf none (h + 3) (e.x + j))).1
  let late := s.onLine e h (h + 4) line
  (e.put (2 ^ 35 + f) line).put (mkAddr 0x13 f) (e.block fun j => (Fp.mul (late.getD j 0) (s.readOf none (h + 5) (e.x + j))).1)

/-- A generator: its waveform is open, its level is not. -/
def State.generator (s : State) (e : MixEnv) (g : Nat) : MixEnv :=
  let h := mkHandle 0x0A g 0
  e.put (mkAddr 8 g) (e.block fun j => (Fp.mul (e.open_ (2 ^ 53 + g) j) (s.readOf none (h + 2) (e.x + j))).1)

/-! ### The order of the work -/

/-- Nodes: 0 to 2 the parts of a strip's chain, 3 a bus, 4 a matrix output, 5 an object, 6 a feed, 7 a generator. -/
def nodeObject (k n : Nat) : Nat := mkHandle (match k with | 3 => 2 | 4 => 3 | 5 => 5 | 6 => 6 | 7 => 0x0A | _ => 1) n 0

/-- The signals that a node gives. -/
def nodeKeys (k n : Nat) : List Nat :=
  match k with
  | 0 => [strip 1 n false, strip 2 n false, mkAddr 0x14 (2 * n)]
  | 1 => [strip 2 n false, mkAddr 0x14 (2 * n + 1)]
  | 2 => [strip 3 n false, strip 4 n false, mkAddr 0x10 n]
  | 3 => [2 ^ 36 + n, 2 ^ 37 + n, mkAddr 0x11 n]
  | 4 => [2 ^ 38 + n, mkAddr 0x12 n]
  | 5 => [2 ^ 39 + n]
  | 6 => [2 ^ 35 + n, mkAddr 0x13 n]
  | _ => [mkAddr 8 n]

def State.node (s : State) (e : MixEnv) (k n : Nat) : MixEnv :=
  match s.stdPlace e.img (nodeObject k n) with
  | none => e
  | some p =>
    if !s.ran p then s.fallen e (nodeKeys k n)
    else match k with
      | 0 => s.strip0 e n
      | 1 => s.strip1 e n
      | 2 => s.strip2 e n
      | 3 => s.bus e n
      | 4 => s.matrix e n
      | 5 => s.objectNode e n
      | 6 => s.feed e n
      | _ => s.generator e n

/-- A source waits for none of the nodes still to be done. -/
def sourceReady (todo : List (Nat × Nat)) (a : Nat) (looped : Bool) : Bool :=
  looped || todo.all fun x => !(nodeKeys x.1 x.2).contains a

/-- What comes in at a destination is known. -/
def State.destReady (s : State) (todo : List (Nat × Nat)) (dst : Nat) : Bool :=
  let p := Tab.get {} s.mix.patch dst
  sourceReady todo p.source p.looped && sourceReady todo p.old p.oldLooped

/-- A node can be done: what it takes is known (R72). -/
def State.nodeReady (s : State) (todo : List (Nat × Nat)) (k n : Nat) : Bool :=
  match k with
  | 0 => s.destReady todo (mkAddr 0x10 n)
  | 1 => !todo.contains (0, n) && s.destReady todo (mkAddr 0x14 (2 * n))
  | 2 => !todo.contains (1, n) && s.destReady todo (mkAddr 0x14 (2 * n + 1))
  | 3 => todo.all fun x => x.1 != 2
  | 4 => todo.all fun x => x.1 != 3
  | 5 => todo.all fun x => x.1 != 2
  | 6 => todo.all fun x => x.1 != 5
  | _ => true

/-- The nodes done, the first that is ready each time. -/
def State.nodes (s : State) : Nat → List (Nat × Nat) → MixEnv → MixEnv
  | 0, _, e => e
  | m + 1, todo, e =>
    match todo.find? fun x => s.nodeReady todo x.1 x.2 with
    | none => e
    | some x => s.nodes m (todo.erase x) (s.node e x.1 x.2)

/-- Every node of a domain's layout that the standard set implements. -/
def State.allNodes (s : State) (e : MixEnv) : List (Nat × Nat) :=
  let of (k cls : Nat) : List (Nat × Nat) :=
    ((e.objects cls).filter fun n => (s.stdPlace e.img (mkHandle cls n 0)).isSome).map fun n => (k, n)
  of 0 1 ++ of 1 1 ++ of 2 1 ++ of 3 2 ++ of 4 3 ++ of 5 5 ++ of 6 6 ++ of 7 0x0A

/-! ### What stays from block to block -/

/-- The entries that take effect in a block. -/
def State.startsIn (s : State) (x b : Nat) (d : Nat) : List Change :=
  s.mix.changes.filter fun c => c.applied && decide (x ≤ c.target) && decide (c.target < x + b) && decide (s.handleDomain c.handle = d)

/-- A delay that changes in the block crosses from the tap it had, and a stage that is switched ramps (R85, R92, R101). A change that
falls inside a delay's crossfade starts from the newer tap (log entry 133). -/
def State.stdChanges (s : State) (d x b : Nat) : State :=
  s.each (s.startsIn x b d) fun c t =>
    match paramInfo (t.dom d).rate c.handle with
    | none => t
    | some i =>
      let k : DelaySt := { old := t.delayOf d c.v0, new := t.delayOf d c.v1, start := c.target, len := c.len }
      if i.cls = .delay then t.modStd fun q => { q with delays := Tab.put {} q.delays c.handle k }
      else if c.shape = 4 then t.modStd fun q => { q with busy := Tab.put 0 q.busy c.handle (c.target + c.len) }
      else t

/-- Delay lines take the block: the longest delay is 2 s (R88). -/
def State.stdLines (s : State) (e : MixEnv) : State :=
  let add (object key : Nat) (t : State) : State :=
    if (Tab.get [] e.known key).isEmpty then t
    else
      let keep (l : List Word) : List Word := l.drop (l.length - 2 * (s.dom e.d).rate)
      t.modStd fun q => { q with line := Tab.upd [] q.line object fun l => keep (l ++ Tab.get [] e.known key) }
  let s1 := s.each (e.objects 1) fun n t => add (mkHandle 1 n 0) (strip 1 n false) t
  let s2 := s1.each (e.objects 2) fun n t => add (mkHandle 2 n 0) (2 ^ 36 + n) t
  let s3 := s2.each (e.objects 3) fun n t => add (mkHandle 3 n 0) (2 ^ 38 + n) t
  let s4 := s3.each (e.objects 5) fun n t => add (mkHandle 5 n 0) (2 ^ 39 + n) t
  s4.each (e.objects 6) fun n t => add (mkHandle 6 n 0) (2 ^ 35 + n) t

/-- Mutes of strips after the block; those of old versions go with their crossfades. -/
def State.stdMutes (s : State) (e : MixEnv) : State :=
  s.each ((e.objects 1).filter fun n => (s.stdPlace e.img (mkHandle 1 n 0)).isSome) fun n t =>
    let m := (s.muteRun none n e.d e.b e.x (s.muteAt none n e.d e.x)).2
    let o : Option MuteSt := match s.fadeOn (mkHandle 1 n 0) e.x e.b with
      | some f => if f.start + f.len ≤ e.x + e.b then none else some (s.muteRun (some f) n e.d e.b e.x (s.muteAt (some f) n e.d e.x)).2
      | none => none
    t.modStd fun q => { q with mutes := Tab.put none (Tab.put none q.mutes n (some m)) (2 ^ 32 + n) o }

/-! ### Meters (R122, R123) -/

/-- The signal that a meter point measures; none for those of gain reduction. -/
def meterKey (p : Nat) : Option Nat :=
  let n := handleIndex p
  match handleClass p, handlePar p with
  | 1, 0 | 1, 1 => some (strip 1 n false)
  | 1, 2 => some (strip 3 n false)
  | 1, 3 | 1, 4 => some (strip 4 n false)
  | 2, 2 => some (2 ^ 37 + n)
  | 2, 3 | 2, 4 => some (mkAddr 0x11 n)
  | 3, 3 | 3, 4 => some (mkAddr 0x12 n)
  | 5, 3 => some (2 ^ 39 + n)
  | 6, 3 | 6, 4 => some (mkAddr 0x13 n)
  | _, _ => none

/-- Largest |x| of a block, beyond one so far. -/
def peakOf (w : Word) (l : List Word) : Word := l.foldl (fun m x => Fp.max m (Fp.abs x)) w

/-- The single-pole average of the squares: m + step × (x² − m), each sum and product rounded once. -/
def rmsRun (step m : Word) (l : List Word) : Word :=
  l.foldl (fun m x => (Fp.fma m step (Fp.sub (Fp.mul x x).1 m).1).1) m

/-- Peaks and averages take the block. -/
def State.stdMeters (s : State) (e : MixEnv) : State :=
  let step := Config.rmsStep (s.rawOf none (mkHandle 0x0B 0 1) e.x) (s.dom e.d).rate
  let sigOf (p : Nat) : Option (List Word) := (meterKey p).bind fun k => if (Tab.get [] e.known k).isEmpty then none else some (Tab.get [] e.known k)
  let points := ((s.metersOf e.d).flatMap (·.points)).eraseDups
  let rms := points.foldl (fun t p =>
    if handlePar p = 1 ∨ handlePar p = 4 then match sigOf p with | some l => Tab.put 0 t p (rmsRun step (Tab.get 0 t p) l) | none => t
    else t) s.mix.std.rms
  let larger (x : MeterSub) (k : Nat) : Word :=
    match sigOf (x.points.getD k 0) with | some l => peakOf (x.peaks.getD k 0) l | none => x.peaks.getD k 0
  let peak (x : MeterSub) : MeterSub := { x with peaks := (List.range x.points.length).map (larger x) }
  (s.modStd fun q => { q with rms := rms }).modMix fun m =>
    { m with meters := m.meters.map fun x => (x.1, x.2.map fun y => if y.domain = e.d then peak y else y) }

/-- A level in dB (R123): that of 0 is −144.0. -/
def levelDb (w : Word) : Word := if Fp.isZero w then 0xC3100000 else Fp.log2ToDb (Fp.log2 w).1

/-- The value of a meter point (R123): of an object of the standard set by what has been measured, for the point at place k of its
subscription; the gain of a gate or compressor that works, and what an owner's program measures, are as given. -/
def State.meterValue (s : State) (x : MeterSub) (k : Nat) (given : Word) : Word :=
  let p := x.points.getD k 0
  let object := objectOf p
  let works (f : Nat) : Bool := s.works none (object + f) ((s.dom x.domain).si - 1)
  match s.domImage x.domain with
  | none => given
  | some i =>
    if (s.stdPlace i p).isNone then given
    else match handlePar p with
      | 5 => if works 96 then Fp.min given 0 else 0
      | 6 => if works 112 then Fp.min given 0 else 0
      | 7 => if !works 96 || !Fp.isZero given then 0x3F800000 else 0
      | 1 | 4 => (Fp.mul 0x3F000000 (levelDb (Tab.get 0 s.mix.std.rms p))).1
      | _ => levelDb (x.peaks.getD k 0)

/-- R123, R126, R127, R129: one update of a subscription; `values` are what the programs have computed where the manual gives no
formula. An update that does not fit the ledger, the link having lost rate since its admission, waits for a later frame (R470,
R472). Points of a quarantined cluster repeat their last value, and so do those of an object that no cluster holds (DESIGN CHOICE,
log entry 134). -/
def execMeterUpdate (n : Fin 16) (values : List Word) (s : State) : Out :=
  match Tab.get none s.mix.meters n.val with
  | none => .next s
  | some x =>
    let half := halfBytes x.points.length
    if !s.windowOk x.buf (2 * half) true then .next (s.closeMeter n.val x)
    else if s.ledgerLeft < half then .next s
    else
      let stale (p : Nat) : Bool := match s.meterCluster p with | some c => s.quarantined c | none => true
      let vs := (List.range x.points.length).map fun k =>
        if stale (x.points.getD k 0) then x.values.getD k 0 else s.meterValue x k (values.getD k (x.values.getD k 0))
      let flags := (if x.restart then 1 else 0) + (if x.points.any stale then 2 else 0)
      let seq := x.seq + 1
      let s1 := s.hostWrite (x.buf + seq % 2 * half) (meterBytes seq ((s.dom x.domain).si - 1) flags vs)
      let y : MeterSub := { x with seq := seq, restart := false, values := vs, peaks := [] }
      .next (s1.modMix fun q => { q with meters := Tab.put none q.meters n.val (some y) })

/-! ### Outputs (R67, R70, R117, R153, R157, R164) -/

/-- The destination that an output of a firing serves: an output channel, or a record track in its ring. -/
def outDst (o : OutDest) : Option Nat :=
  if o.space = 1 then some o.addr
  else if o.space = 3 ∧ 0x200000000 ≤ o.addr ∧ o.addr < 0x200000000 + 2 ^ 28 then some (mkAddr 5 ((o.addr - 0x200000000) / 2 ^ 18))
  else none

/-- One output of a firing that has ended: what its destination receives, ramped after a re-admission or a load, through the output
scrub. -/
def State.stdOutput (s : State) (e : MixEnv) (c : Nat) (o : OutDest) : State :=
  match outDst o with
  | none => s
  | some a =>
    let l := s.received e (s.logical c) a
    let s1 := s.each (List.range e.b) fun j t =>
      let q := t.scrubWord c (s.onLink e (s.logical c) 64 j (l.getD j 0))
      match q.2.outAt o c e.b e.x j with
      | some p => q.2.spaceWrite o.space p q.1
      | none => q.2
    s1.modCluster c fun x => { x with lastSample := Tab.put 0 x.lastSample o.key (s1.readOut c e.b e.x o (e.b - 1)) }

/-- The outputs of the firings that the standard set runs for a domain. -/
def State.stdOutputs (s : State) (e : MixEnv) : State :=
  s.each ((List.range 64).filter fun c => domainOf e.img (c / 8) == some e.d && s.stdCluster e.img (s.logical c)) fun c t =>
    t.each ((firingsOf e.img (s.logical c)).filter fun f => (s.cluster c).ended.contains f.index.val) fun f u =>
      u.each f.outputs fun o v => v.stdOutput e c o

/-- What the standard program set makes of the block at SI x of a domain, once the frame that handles it has ended. -/
def State.mixBlock (s : State) (d x b : Nat) : State :=
  match s.domImage d with
  | none => s
  | some i =>
    if (i.clusters.filter fun k => domainOf i (k.cluster.val / 8) == some d).any (fun k => s.stdCluster i k.cluster.val) then
      let s1 := s.stdChanges d x b
      let e0 : MixEnv := { img := i, d := d, x := x, b := b, seed := s1.ctr }
      let all := s1.allNodes e0
      let e := s1.nodes all.length all e0
      let s2 := (((s1.stdMutes e).stdMeters e).stdOutputs e).stdLines e
      let others (q : StdSt) : Tab (List Word) := q.out.filter fun k => (Tab.get [] e.known k.1).isEmpty && decide (k.2.length = b)
      let ramping (q : StdSt) : Tab Nat := q.busy.filter fun k => decide (x + b < k.2) || decide (s.handleDomain k.1 ≠ d)
      (s2.modStd fun q => { q with out := Tab.ofList [] (others q ++ e.known), busy := ramping q }).take
    else s

end Sys2Proof.Machine
end

