-- ==== Sys2Proof/Machine/Frame.lean ====
section
/-! DEFINITION. The frame boundary: what the input stage takes, what the output stage emits, and what takes effect there
(R55–R60, R168, R447, R464, R493, R553, R573–R589, R673, R683, R743, R744). -/

namespace Sys2Proof.Machine

/-! ### The input stage (R56, R287) -/

/-- Writes a block of an input channel at its offset. -/
def State.writeIn (s : State) (block fsi offset : Nat) (ws : List Word) : State :=
  { s with stage := Memory.writeBytes s.stage (fsi / block % 2 * 2 ^ 20 + offset) (ws.flatMap fun w => natToBytes 4 w.toNat) }

/-- The same for a channel that has an offset in a domain. -/
def State.writeSource (s : State) (d block fsi a : Nat) (ws : List Word) : State :=
  match offsetIn s.mix.stageIn a d with
  | some o => s.writeIn block fsi o ws
  | none => s

/-- The samples that wait for a channel's block, none for a missing one; those before the end of the block are gone. -/
def State.takeRx (s : State) (a o b : Nat) (live : Bool) : List (Option Word) × State :=
  let row := Tab.get [] s.mix.rx a
  ((List.range b).map fun j => if live then Tab.get none row (o + j) else none,
   s.modMix fun m => { m with rx := Tab.put [] m.rx a (row.filter fun e => decide (o + b ≤ e.1)) })

/-- A network receive stream delivers its block (R497, R498, R500). -/
def State.closeStream (s : State) (d o b n : Nat) (r : StreamRec) : State :=
  let live := Nat.testBit (s.get Reg.TIME_STATUS_ALIGNED) d
  s.each (List.range r.channels) fun k t =>
    let got := t.takeRx (mkAddr 1 (r.first + k)) o b live
    match Tab.get none t.net.rx n with
    | none => t
    | some x =>
      let q := concealBlock (Tab.get {} x.gaps k) got.1
      let y : StreamSt := { x with gaps := Tab.put {} x.gaps k q.2.1, concealed := x.concealed + q.2.2 }
      let u : State := got.2
      State.writeSource { u with net := { u.net with rx := Tab.put none u.net.rx n (some y) } } d b o (mkAddr 1 (r.first + k)) q.1

/-- A Wamund receive flow delivers its block (R553). -/
def State.closeFlow (s : State) (d o b key : Nat) (r : FlowRec) : State :=
  s.each (List.range r.channels) fun k t =>
    let a := mkAddr 2 (r.port * 8192 + r.first + k)
    let got := t.takeRx a o b true
    match Tab.get none (t.wlp r.port).rx key with
    | none => t
    | some x =>
      let q := concealBlock (Tab.get {} x.gaps k) got.1
      let y : RxFlow := { x with gaps := Tab.put {} x.gaps k q.2.1 }
      (got.2.modWl r.port fun p => { p with rx := Tab.put none p.rx key (some y) }).writeSource d b o a q.1

/-- The ASRC channel that brings a source into a domain: its own bridge's, else the source's. -/
def State.asrcOf (s : State) (a d : Nat) : Nat := if (Tab.get none s.audio.asrc (bridgeKey a d)).isSome then bridgeKey a d else a

/-- An ASRC channel delivers its block: open values once it has released, by the law of R500 before and after (R594, R595;
log entry 3). -/
def State.closeAsrc (s : State) (o b : Nat) (x : StageSlot) : State :=
  let key := s.asrcOf x.addr x.domain
  match Tab.get none s.audio.asrc key with
  | none => s.writeIn b o x.offset (List.replicate b 0)
  | some c =>
    let l : List (Option Word) := (List.range b).map fun k =>
      if c.released then some ((Config.freeValue (s.ctr + k)).truncate 32) else none
    let q := concealBlock c.gap l
    let t : State := { s with ctr := if c.released then s.ctr + b else s.ctr }
    (t.modAsrc key fun y => { y with gap := q.2.1 }).writeIn b o x.offset q.1

/-- What a local input gave for an address. -/
def inputAt (inputs : List PortInput) (a : Nat) : PortInput := (inputs.find? fun i => i.addr == a).getD { addr := a }

/-- A serial input of a synchronous group (R567, R568, R572, R573, R577–R579). -/
def State.closeSerial (s : State) (o b : Nat) (inputs : List PortInput) (x : StageSlot) : State :=
  let ch := addrChan x.addr
  let p := ch / 32
  let own := (inputAt inputs x.addr).words
  let other := (inputAt inputs (mkAddr 3 (Nat.xor ch 1))).words
  let w := widthBits (s.get (Reg.APORT_P_CTL_WIDTH p))
  let mark := s.isPairFormat p && s.bit (Reg.APORT_P_CTL_PAIR_MARK p)
  s.writeIn b o x.offset ((List.range b).map fun k =>
    let v := (if s.swappedAt p (o + k) then other else own).getD k 0
    if s.bit (Reg.APORT_P_STATUS_RUNNING p) && !s.audio.damaged.contains (x.addr, o + k) then
      fromInt w (if mark then v / 2 * 2 else v)
    else 0)

/-- One sample of a playback track (R681, R683): exact zero outside a play. -/
def State.playOut (s : State) (d track si : Nat) : Word × State :=
  match s.store.plays.find? fun p => p.track == track && p.domain == d && decide (p.q ≤ si) && decide (si < p.ends) with
  | none => (0, s)
  | some p =>
    let y := (s.playSample p si).map scrubIn
    let q := conceal p.gap (y.map (·.1))
    (q.1, s.modPlay p fun z => { z with gap := q.2.1, scrubbed := z.scrubbed + (match y with | some (_, true) => 1 | _ => 0) })

def State.playBlock (s : State) (d track si : Nat) : Nat → List Word × State
  | 0 => ([], s)
  | n + 1 =>
    let r := s.playOut d track si
    let q := r.2.playBlock d track (si + 1) n
    (r.1 :: q.1, q.2)

/-- A playback track delivers its block to the track-store buffers (R329, R683). -/
def State.closeTrack (s : State) (d track o b : Nat) : State :=
  let q := s.playBlock d track o b
  q.2.each q.1.zipIdx fun w t => { t with dram := Memory.writeNat t.dram (trackAddr false track (o + w.2)) 4 w.1.toNat }

/-- A source comes into a domain over a bridge or an ASRC channel. -/
def State.crossing (s : State) (a d : Nat) : Bool := match s.domImage d with | some i => s.crosses i a d | none => false

/-- What crosses delivers its block: over a synchronous bridge the output of its polyphase program, an open value (R110, R111; log
entry 3), else over an ASRC channel. -/
def State.closeCrossing (s : State) (o b : Nat) (x : StageSlot) : State :=
  match s.domImage x.domain with
  | none => s.closeAsrc o b x
  | some i =>
    if (s.syncFor i x.addr x.domain).isSome then
      let t : State := { s with ctr := s.ctr + b }
      t.writeIn b o x.offset ((List.range b).map fun k => (Config.freeValue (s.ctr + k)).truncate 32)
    else s.closeAsrc o b x

/-- An ADC chain delivers its block (R604–R610). -/
def State.closeAdc (s : State) (o b c : Nat) (inputs : List PortInput) : State :=
  let i := inputAt inputs (mkAddr 6 c)
  let q := s.convBlock c o ((List.range b).map fun k => fromInt 32 (i.words.getD k 0)) i.v i.errors
  q.2.writeSource s.convDom b o (mkAddr 6 c) q.1

/-- Where the flag record of an AES3 channel for block j lies in SPACE 0 (R287, R588). -/
def flagRecord (j ch : Nat) : Nat := 0x200000 + 0x200 * (j % 2) + 0x10 * ch

/-- Replaced subframes and the flag record of an AES3 channel (R584, R588). -/
def State.closeFlags (s : State) (d o b : Nat) (i : PortInput) : State :=
  let ch := addrChan i.addr
  if addrKind i.addr = 4 ∧ ch < 16 ∧ s.get (Reg.AES_RX_CTL_DOMAIN (ch / 2)) = d ∧ 2 ≤ s.get (Reg.AES_RX_STATUS_LOCK (ch / 2)) then
    let s1 := if i.errors = 0 then s else
      (s.set (Reg.AES_RX_STATUS_PARITY_ERR (ch / 2))).bumpBy (Reg.AES_RX_ERR_CNT_PARITY (ch / 2)) i.errors
    { s1 with stage := Memory.writeNat s1.stage (flagRecord (o / b) ch) 16 (i.v % 2 ^ b + i.u % 2 ^ b * 2 ^ 64) }
  else s

/-- What the engine measures of a slave group's clocks (R598). -/
def State.measureGroup (s : State) (i : PortInput) : State :=
  let g := addrChan i.addr / 128
  match i.fs with
  | some r =>
    if addrKind i.addr = 3 ∧ g < 4 ∧ s.bit (Reg.APG_CFG_MASTER g) = false then
      (s.put (Reg.APG_STATUS_MEAS_RATE g) r).putBit (Reg.APG_STATUS_CLK_OK g) (r != 0)
    else s
  | none => s

/-- The input block of the frame period that ends is complete (R56). -/
def State.closeInputs (s : State) (d o b : Nat) (inputs : List PortInput) : State :=
  let s1 := s.each s.net.rx fun e t =>
    match e.2 with
    | some x => if x.record.domain = d then t.closeStream d o b e.1 x.record else t
    | none => t
  let s2 := s1.each (List.range 4) fun p t => t.each (t.wlp p).rx fun e u =>
    match e.2 with
    | some x => if x.record.domain = d then u.closeFlow d o b e.1 x.record else u
    | none => u
  let s3 := s2.each (s2.mix.stageIn.filter fun x => x.domain == d) fun x t =>
    let k := addrKind x.addr
    if k = 0 then t.writeIn b o x.offset (List.replicate b 0)
    else if k = 4 ∨ t.crossing x.addr d ∨ (Tab.get none t.audio.asrc x.addr).isSome then t.closeCrossing o b x
    else if k = 3 then t.closeSerial o b inputs x
    else t
  let s3 := s3.each ((s3.store.plays.filter fun p => p.domain == d).map (·.track)).eraseDups fun k t => t.closeTrack d k o b
  let s4 := if s.convDom = d then s3.each (List.range 2) fun c t => t.closeAdc o b c inputs else s3
  let s5 := s4.each inputs fun i t => (t.closeFlags d o b i).measureGroup i
  let later (e : Nat × Nat) : Bool := decide (o + b ≤ e.2) || decide (s5.groupBoundary (addrChan e.1 / 128) ≠ d)
  { s5 with audio := { s5.audio with
    damaged := s5.audio.damaged.filter later, turns := s5.audio.turns.filter fun e => later (e.1 * 32, e.2) } }

/-! ### The output stage (R56, R464, R716, R720, R765) -/

/-- The samples of a destination over the frame period that ends, as it emitted them. -/
def State.gained (s : State) (d a o b : Nat) : List Word := (List.range b).map fun k => s.emitted d a (o + k)

/-- They stand as emitted. -/
def State.keepOut (s : State) (a o : Nat) (ws : List Word) : State :=
  let add (row : Tab Word) : Tab Word :=
    (ws.zipIdx.foldl (fun t x => Tab.put 0 t (o + x.2) x.1) row).filter fun e => decide (o ≤ e.1 + 512)
  s.modMix fun m => { m with tx := Tab.upd [] m.tx a add }

/-- The words that a serial output sends in the place of a channel: the other channel of its pair while the half-word phase
is inverted, with the marker of R579 (R118, R568, R572, R578). -/
def State.serialWords (s : State) (d ch o b : Nat) : List Nat :=
  let p := ch / 32
  let pair := s.isPairFormat p
  let w := widthBits (s.get (Reg.APORT_P_CTL_WIDTH p))
  let own := s.gained d (mkAddr 3 ch) o b
  let other := if pair then s.gained d (mkAddr 3 (Nat.xor ch 1)) o b else []
  (List.range b).map fun k =>
    let sw := s.swappedAt p (o + k)
    let c := if sw then Nat.xor ch 1 else ch
    let v := toIntSample w ((if sw then other else own).getD k 0)
    if pair && s.bit (Reg.APORT_P_CTL_PAIR_MARK p) then v / 2 * 2 + (if c % 2 = 0 then 1 else 0) else v

/-- A serial output channel (R572, R765). -/
def State.sendSerial (s : State) (d o b a : Nat) : State :=
  let p := addrChan a / 32
  let on := s.bit (Reg.APORT_P_STATUS_RUNNING p) && s.bit Reg.PAIR_STATUS_GATE_OPEN
  let ws := if on then s.serialWords d (addrChan a) o b else List.replicate b 0
  { s with audio := { s.audio with wire := Tab.put [] s.audio.wire a ws } }

/-- An AES3 transmitter channel (R589, R591). -/
def State.sendAes (s : State) (d o b a : Nat) : State :=
  let n := addrChan a / 2
  let v := if s.bit (Reg.AES_TX_CTL_V_FORCE n) || !s.bit Reg.PAIR_STATUS_GATE_OPEN || (Tab.get none s.pwr.unmute d).isNone then
    2 ^ 24 else 0
  let ws :=
    if !s.bit (Reg.AES_TX_STATUS_RUNNING n) then []
    else if !s.bit Reg.PAIR_STATUS_GATE_OPEN then List.replicate b v
    else (s.gained d a o b).map fun x => toIntSample 24 x + v
  { s with audio := { s.audio with wire := Tab.put [] s.audio.wire a ws } }

/-- A DAC chain takes its block (R604–R606). -/
def State.sendDac (s : State) (d o b c : Nat) (inputs : List PortInput) : State :=
  let i := inputAt inputs (mkAddr 6 (2 + c))
  let q := s.convBlock (2 + c) o ((s.gained d (mkAddr 6 c) o b).map fun x => fromInt 32 (toIntSample 32 x)) i.v i.errors
  q.2.keepOut (mkAddr 6 c) o q.1

/-- The power stage takes its block: in volts (R617). -/
def State.sendPower (s : State) (d o b : Nat) : State :=
  let q := s.psBlock o ((s.gained d (mkAddr 7 0) o b).zip (s.gained d (mkAddr 7 1) o b))
  (q.2.keepOut (mkAddr 7 0) o (q.1.map (·.1))).keepOut (mkAddr 7 1) o (q.1.map (·.2))

/-- The output channels of a domain: those with a place in the stage, and those that have emitted (R67). -/
def State.outAddrs (s : State) (d : Nat) : List Nat :=
  let mine (a : Nat) : Bool := match s.domImage d with | some i => s.addrDomain i false a == some d | none => false
  (((s.mix.stageOut.filter fun x => x.domain == d).map (·.addr)) ++ ((s.mix.tx.map (·.1)) ++ s.audio.wire.map (·.1)).filter mine).eraseDups

/-- What the outputs of a domain have emitted in the frame period that ends. -/
def State.closeOutputs (s : State) (d o b : Nat) (inputs : List PortInput) : State :=
  let outs := s.outAddrs d
  let s1 := s.each outs fun a t =>
    match addrKind a with
    | 3 => t.sendSerial d o b a
    | 4 => t.sendAes d o b a
    | _ => t
  let s2 := s1.each outs fun a t => if addrKind a < 5 then t.keepOut a o (t.gained d a o b) else t
  let s3 := if s.convDom = d then s2.each (List.range 2) fun c t => t.sendDac d o b c inputs else s2
  if s.psDom = d then s3.sendPower d o b else s3

/-- Output channels that a firing of the domain's schedule writes, and the channel of a record track its ring holds. -/
def State.fedOutputs (s : State) (d : Nat) : List Nat :=
  (List.range 64).flatMap fun c =>
    match s.imageAt c with
    | some (i, e) => if e = d then ((firingsOf i (s.logical c)).flatMap (·.outputs)).filterMap fun o => if o.space = 1 then some o.addr else none
      else []
    | none => []

/-- A sample of an output channel that no patch feeds there is exact zero (R67). -/
def State.patchedSample (s : State) (a si : Nat) (w : Word) : Word := if (s.sourcesOf a si (si + 1)).all (· == 0) then 0 else w

/-- The samples of a record track in the block at SI x (R673, R674, R119). -/
def State.record (s : State) (d track x : Nat) (ws : List Word) : State :=
  let keep (t : Take) (m : Tab Word) (w : Word × Nat) : Tab Word :=
    let si := x + w.2
    if t.inSi ≤ si ∧ (match t.outSi with | some o => decide (si < o) | none => true) = true then
      Tab.put 0 m (track * 2 ^ 48 + (si - t.inSi)) w.1
    else m
  let add (t : Take) : Take :=
    if t.live && t.domain == d && t.tracks.contains track then { t with data := ws.zipIdx.foldl (keep t) t.data } else t
  s.modStore fun y => { y with takes := y.takes.map add }

/-- Takes of a domain hold every sample of their range up to an SI. -/
def State.fillTakes (s : State) (d upto : Nat) : State :=
  let add (t : Take) : Take :=
    let last := match t.outSi with | some o => min o upto | none => upto
    if t.live && t.domain == d then { t with fill := max t.fill (last - t.inSi) } else t
  s.modStore fun y => { y with takes := y.takes.map add }

/-- The block at SI x, which the firings have computed, is emitted from the boundary at SI n on; an output that no firing
writes is exact zero from then on (R56, R57, R718). -/
def State.emitBlock (s : State) (d b x n : Nat) : State :=
  let fed := s.fedOutputs d
  let s1 := s.each (s.mix.stageOut.filter fun y => y.domain == d) fun y t =>
    let ws := (List.range b).map fun k => t.patchedSample y.addr (x + k) (Memory.read32 t.stage (outAddr b x y.offset k))
    let add (row : Tab Word) : Tab Word := ws.zipIdx.foldl (fun r w => Tab.put 0 r (n + w.2) w.1) row
    let t1 := t.modMix fun m => { m with tx := Tab.upd [] m.tx y.addr add }
    if fed.contains y.addr then t1
    else (t1.writeOut 0 b x { addr := y.addr } fun _ => 0).writeOut 0 b (x + b) { addr := y.addr } fun _ => 0
  let tracks := ((s1.store.takes.filter fun t => t.live && t.domain == d).flatMap (·.tracks)).eraseDups
  let s2 := s1.each tracks fun k t => t.record d k x ((List.range b).map fun j =>
    t.patchedSample (mkAddr 5 k) (x + j) (Memory.read32 t.dram (trackAddr true k (x + j))))
  s2.fillTakes d (x + b)

/-! ### The block whose handling has ended (R60, R168, R297, R447) -/

/-- The sequencer phases that no firing has made, for the block at SI x. -/
def State.idlePhases (s : State) (d x b : Nat) : State :=
  let mine := (List.range 64).filter fun c => s.clusterDomain c == d && s.mix.changes.any fun e => e.cluster == c
  s.each (if d = 0 then mine ++ [64] else mine) fun c t =>
    if (t.cluster c).seqNext ≤ x then t.sequencerPhase c x b false else t

/-- The handling of the block at SI x has begun, even where no firing handled it, and what the standard programs make of it is there. -/
def State.endBlock (s : State) (d x b : Nat) : State :=
  let s1 := if (s.dom d).begun < x + b then s.beginBlock d x b else s
  (((s1.idlePhases d x b).mixBlock d x b).retireTerms x).retirePours

/-- Cycle figures of the frame that ends (R168). -/
def State.countCycles (s : State) (d : Nat) : State :=
  s.each ((List.range 64).filter fun c => s.clusterDomain c == d) fun c t =>
    let n := (t.cluster c).cycFrame
    ((t.put (Reg.FABRIC_CL_CYC_LAST_CYCLES c) n).raise (Reg.FABRIC_CL_CYC_HWM_CYCLES c) n).modCluster c fun x =>
      { x with cycFrame := 0, ended := [] }

/-- What CLEAR clears of a cluster and of a region (R121, R169, R218, R285, R323, R407). -/
def clearedByQuery (c : Nat) : List Fld :=
  [Reg.FABRIC_CL_SCRUB_SCRUB c, Reg.FABRIC_CL_SCRUB_NAN_SEEN c, Reg.FABRIC_CL_SCRUB_INF_SEEN c,
   Reg.FABRIC_CL_SCRUB_NAN_CNT_COUNT c, Reg.FABRIC_CL_SCRUB_INF_CNT_COUNT c, Reg.FABRIC_CL_CYC_HWM_CYCLES c,
   Reg.FABRIC_CL_WLOST_WLOST c, Reg.FABRIC_CL_WLOST_RLOST c, Reg.FABRIC_CL_WLOST_ADDR_ADDR c, Reg.FABRIC_CL_WLOST_ADDR_REQ c,
   Reg.FABRIC_CL_WLOST_ADDR_VALID c, Reg.FABRIC_CL_WLOST_CNT_WCOUNT c, Reg.FABRIC_CL_WLOST_CNT_RCOUNT c,
   Reg.FABRIC_CL_SEQ_HWM c, Reg.FABRIC_CL_SEQ_FULL_SEEN c, Reg.FABRIC_CL_GLAZE_UNSTABLE c, Reg.FABRIC_CL_GLAZE_WAITED c,
   Reg.FABRIC_CL_GLAZE_UNSTABLE_CNT c] ++
  ((List.range 8).map fun u =>
    [Reg.FABRIC_UN_TRAP_LAST_CAUSE c u, Reg.FABRIC_UN_TRAP_STOPPED c u, Reg.FABRIC_UN_TRAP_DOUBLE c u,
     Reg.FABRIC_UN_TRAP_COUNT c u, Reg.FABRIC_UN_TPC_TPC c u, Reg.FABRIC_UN_FLAGS_IFLAGS c u,
     Reg.FABRIC_UN_FLAGS_FFLAGS c u]).flatten

def clearedByQueryRg (g : Nat) : List Fld :=
  [Reg.FABRIC_RG_CLK_BYPASS_SEEN g, Reg.FABRIC_RG_CLK_CNT_NOLOCK g, Reg.FABRIC_RG_CLK_CNT_LOSS g, Reg.FABRIC_RG_TAP_FIFO_DROP g,
   Reg.FABRIC_RG_TAP_POS_CLAMP g, Reg.FABRIC_RG_DLY_CORR g, Reg.FABRIC_RG_DLY_UNCORR g]

/-- A CLEAR has elements left. -/
def State.clearing (s : State) (h : CmdHdr) : Bool :=
  (List.range 64).any (fun c => (s.cluster c).clears.contains h) || (List.range 8).any fun g => (s.region g).clears.contains h

/-- R447: CLEAR acts for the clusters and regions of the domain, and completes with the last of them. -/
def State.queryClears (s : State) (d : Nat) : State :=
  let cs := (List.range 64).filter fun c => s.clusterDomain c == d && !(s.cluster c).clears.isEmpty
  let gs := (List.range 8).filter fun g => s.clusterDomain (8 * g) == d && !(s.region g).clears.isEmpty
  let hs := (cs.flatMap (fun c => (s.cluster c).clears) ++ gs.flatMap fun g => (s.region g).clears).eraseDups
  let s1 := s.each cs fun c t => (t.clear (clearedByQuery c)).modCluster c fun x => { x with clears := [] }
  let s2 := s1.each gs fun g t => (t.clear (clearedByQueryRg g)).modRegion g fun x => { x with clears := [] }
  s2.each (hs.filter fun h => !s2.clearing h) fun h t => t.finish h 0x0B02 .ok 0 (t.dom 0).si 0

/-! ### The P-domain boundary (R469, R493, R735, R743, R744, R787) -/

/-- Live fields that follow time. -/
def State.liveTimers (s : State) : State :=
  let seen (x : Option Nat) : Bool := match x with | some t => decide (s.now ≤ t + s.leaseLen) | none => false
  let left := s.trust.waitTo - s.now
  let rate := max 1 (s.dom 0).rate
  let s1 := (s.putBit Reg.PAIR_STATUS_PARTNER_SEEN (seen s.pair.partnerAt)).putBit Reg.PAIR_STATUS_WITNESS_SEEN
    (seen s.pair.witnessAt)
  (s1.putBit Reg.TRUST_STATE_CLAIM_WAIT (left != 0)).put Reg.TRUST_CLAIM_CNT_WAIT (ceilDiv left rate)

/-- Transfers that are sending to host memory, with the bytes they have still to issue (R473). -/
def State.uploads (s : State) : List (Nat × Nat) :=
  let dma := (List.range 32).filterMap fun n =>
    let c := Tab.get {} s.host.dma n
    if c.running && c.cur.up then some (n, c.cur.length) else none
  let bulk := (List.range 4).filterMap fun b =>
    if !s.ringReady (12 + b) || !s.bit (Reg.HOST_BRING_CFG_DIR b) then none
    else if s.get (Reg.HOST_BRING_CFG_USE b) = 3 then s.net.hostRx.head?.map fun g => (8 + b, 24 + g.frame.length)
    else (s.store.moves.find? fun m => m.export_ && m.ring == b).map fun m => (8 + b, min 65536 (m.total - m.done_) + 8)
  (bulk ++ dma).map fun x => (x.1, x.2 - Tab.get 0 s.host.ahead x.1)

/-- Bursts of at most 256 bytes in turn, while there is room: what each channel gets (R470, R473). -/
def grantBursts : Nat → Nat → List (Nat × Nat) → Tab Nat → Tab Nat
  | 0, _, _, t => t
  | _ + 1, _, [], t => t
  | k + 1, room, (c, n) :: l, t =>
    let b := min 256 (min n room)
    if n = 0 then grantBursts k room l t
    else if room = 0 then t
    else grantBursts k (room - b) (l ++ [(c, n - b)]) (Tab.upd 0 t c (· + b))

/-- What the frame that ends has left of its ledger goes to the transfers that are sending. -/
def State.spendRest (s : State) : State :=
  let l := s.uploads
  let room := s.restRoom
  let t := grantBursts (room / 256 + 2 * l.length + 1) room l []
  s.modHost fun h => { h with charged := h.charged + (t.map (·.2)).sum,
                              ahead := t.foldl (fun u x => Tab.upd 0 u x.1 (· + x.2)) h.ahead }

/-- The ledger of the P-domain frame that ends, and what has waited for that of the next (R468–R470). -/
def State.closeLedger (s : State) : State :=
  let s1 := s.spendRest
  let used := s1.host.charged
  let s2 := ((s1.put Reg.HOST_LEDGER_FREE_BYTES s1.ledgerLeft).raise Reg.HOST_LEDGER_HWM_BYTES used).modHost
    fun x => { x with charged := 0, reserveUsed := 0, evWait := [] }
  let s3 := s2.each s1.host.evWait fun x t => t.writeEvent x.1 x.2
  s3.sendReports s3.host.reports

/-- What takes effect at each P-domain boundary. -/
def State.boundaryP (s : State) : State := (s.applyNetOps.adoptPolicy.stopHostDma.adoptMembers).liveTimers

/-- Plays that have ended are gone, and the commands that stopped them complete (R448, R682). -/
def State.endPlays (s : State) (d n : Nat) : State :=
  let over_ (p : Play) : Bool := p.domain == d && p.started && decide (p.ends ≤ n)
  let stops := (s.store.plays.filter over_).flatMap (·.stops)
  (s.modStore fun y => { y with plays := y.plays.filter fun p => !over_ p }).countTracks.each stops fun e t =>
    t.finish e.1 0x0721 (if e.2.1 then .late else .ok) 0 (t.toP d e.2.2) 0

/-- R55, R56: the boundary of a domain's next frame period. `inputs` is what local inputs have received in the one that ends. -/
def execFrameStartMarker (d : Fin 3) (inputs : List PortInput) (s : State) : Out :=
  let x := s.dom d.val
  if !x.configured || !x.running then .next s
  else
    let b := x.block
    let o := x.si
    let n := o + b
    let s1 := s.closeOutputs d.val o b inputs
    let s2 := (if b ≤ o then s1.endBlock d.val (o - b) b else s1).countCycles d.val
    let s3 := if d.val = 0 then s2.closeLedger else s2
    let s4 := (if b ≤ o then s3.emitBlock d.val b (o - b) n else s3).stageNow d.val
    let s5 := (s4.closeInputs d.val o b inputs).modDom d.val fun y => { y with si := n, frames := min 2 (y.frames + 1) }
    let s6 := ((s5.queryClears d.val).endPlays d.val n).endRange d.val
    let s7 := (if s.psDom = d.val then s6.psBegin n else s6).modHost fun h => { h with hushSeen := Tab.put 0 h.hushSeen d.val (h.hushCmd ||| h.hushPin) }
    .next (if d.val = 0 then s7.boundaryP else s7).endRamps

end Sys2Proof.Machine
end

