-- ==== Sys2Proof/Machine/RegBlocks.lean ====
section
/-! DEFINITION. Writes of the registers of each block whose effect goes beyond their fields (R794, R840). -/

namespace Sys2Proof.Machine

/-- SURF_FADERf_BIND (R651): a Gain-class handle, or 0. -/
def State.bindOk (s : State) (h : Nat) : Bool :=
  h == 0 || match paramInfo (s.dom (s.handleDomain h)).rate h with | some i => decide (i.cls = .gain) | none => false

/-- CLK (R380, R393, R421). -/
def State.writeClk (s : State) (o v : Nat) : State :=
  let n := o % 4096
  if 0x100 ≤ n ∧ n < 0x400 then
    let k := n / 256 - 1
    let m := n % 256
    if m = 0x10 then s.run (execClkMpllDcoWrite (ix 3 k) (BitVec.ofNat 32 v))
    else if m = 0 then
      if s.refusesWrite o v ∨ (v % 4 = 2 ∧ s.bit Reg.CLK_STATUS_HOST_SERVO = false) then s.reject o
      else
        let t := s.writePlain o v
        let c := t.get (Reg.CLK_MPLL_STATE_SEL k)
        if t.bit (Reg.CLK_MPLL_STATE_SEL_VALID k) && t.isQualified k c && !t.eligible k c then t.loseReference k else t
    else if 0x20 ≤ m ∧ m < 0x40 then
      if s.refusesWrite o v then s.reject o
      else if (s.changes o v).isEmpty then s
      else
        let src := fieldOf v (Reg.CLK_MPLL_CAND_SRC k ((m - 0x20) / 4))
        let sel := fieldOf v (Reg.CLK_MPLL_CAND_SEL k ((m - 0x20) / 4))
        let bad := src == 7 && (decide (k = 0) || decide (1 < sel) || (decide (k = 1) && sel != 0))
        let t := s.writePlain o v
        let t1 := if bad then (t.put (Reg.CLK_MPLL_CAND_SRC k ((m - 0x20) / 4)) 0).reject o else t
        t1.candidateChanged k ((m - 0x20) / 4)
    else s.writePlain o v
  else if 0x400 ≤ n ∧ n < 0x700 ∧ n % 256 = 0 then
    let k := n / 256 - 4
    let s1 := if v % 2 = 1 then s.run (execRoastStart (ix 3 k)) else s
    if v / 2 % 2 = 1 then s1.take.run (execRoastAbort (ix 3 k) (s1.free.toNat % (s1.dom k).block)) else s1
  else s.writePlain o v

/-- TIME (R420, R422). The instant of a snapshot is where the write falls in the running frame periods: open values. -/
def State.writeTime (s : State) (o v : Nat) : State :=
  let n := o % 4096
  if n = 8 then
    if v % 2 = 1 then
      let x (k : Nat) : BitVec 64 := Config.freeValue (s.ctr + k)
      let s1 : State := { s with ctr := s.ctr + 6 }
      s1.run (execTimeSnap ((x 0).truncate 48) ((x 1).truncate 30) ((x 2).truncate 4) (x 3).toNat (x 4).toNat (x 5).toNat)
    else s
  else if 0x100 ≤ n ∧ n < 0x180 ∧ n % 16 = 8 then
    let k := ix 8 ((n - 0x100) / 16)
    if v % 4 = 3 then s.reject o
    else
      let s1 := s.writePlain o v
      let s2 := if v / 4 % 2 = 1 then s1.run (execTriggerArm k (ix 4 (v % 4))) else s1
      if v / 8 % 2 = 1 then s2.run (execTriggerCancel k) else s2
  else s.writePlain o v

/-- HOST (R429, R457). How many requests to a window are outstanding is open. -/
def State.writeHost (s : State) (o v : Nat) : State :=
  let n := o % 4096
  if n = 0x14 then (if v % 2 = 1 then s.run execHostCntClr else s)
  else if 0x100 ≤ n ∧ n < 0x200 ∧ n % 32 = 8 then s.ringCfg ((n - 0x100) / 32) v
  else if 0x200 ≤ n ∧ n < 0x280 ∧ n % 32 = 8 then s.ringCfg (8 + (n - 0x200) / 32) v
  else if 0x280 ≤ n ∧ n < 0x300 ∧ n % 32 = 8 then s.ringCfg (12 + (n - 0x280) / 32) v
  else if 0x400 ≤ n ∧ n < 0x500 ∧ n % 16 = 12 then s.take.winCtl ((n - 0x400) / 16) v (s.free.toNat % 2 ^ 16)
  else s.writePlain o v

/-- A DMA descriptor of which nothing is known: what host memory holds at the address is open. -/
def State.freeDesc (s : State) : DmaDesc :=
  let x (k : Nat) : Nat := (Config.freeValue (s.ctr + k)).toNat
  { host := x 0, engine := x 1 % 2 ^ 32, length := x 2 % 2 ^ 32, up := x 3 % 2 == 1, swap := ix 4 (x 4), last := x 5 % 2 == 1,
    irq := x 6 % 2 == 1, next := x 7 }

/-- DMA channel control (R474, R478, R482). -/
def State.writeDma (s : State) (o v : Nat) : State :=
  let n := ix 32 ((o - 0xA000) / 256)
  if o % 256 = 0 then
    let s1 := if v % 2 = 1 then ({ s with ctr := s.ctr + 8 } : State).run (execDmaChStart n s.freeDesc) else s
    if v / 2 % 2 = 1 then
      let c := Tab.get {} s1.host.dma n.val
      let k := s1.free.toNat % (c.cur.length + 1)
      let data := (List.range k).map fun j => (Config.freeValue (s1.ctr + 1 + j)).truncate 8
      ({ s1 with ctr := s1.ctr + 1 + k } : State).run (execDmaChAbort n k data)
    else s1
  else s.writePlain o v

/-- SCHED (R327). -/
def State.writeSched (s : State) (o v : Nat) : State :=
  let n := o % 4096
  if n = 0x28 then (if v % 2 = 1 then s.run execSchedCntClr else s)
  else if 0x40 ≤ n ∧ n < 0x68 then s.run (execSchedSliceWrite (ix 10 ((n - 0x40) / 4)) (BitVec.ofNat 32 v))
  else s.writePlain o v

/-- APORT (R571, R572). -/
def State.writeAport (s : State) (o v : Nat) : State :=
  let n := o % 4096
  if n = 4 then (if v % 2 = 1 then s.run execAportCntClr else s)
  else if 0x100 ≤ n ∧ n < 0x300 ∧ n % 32 = 0 then
    let p := (n - 0x100) / 32
    if s.refusesWrite o v then s.reject o
    else
      let was := s.get (Reg.APORT_P_CTL_EN p)
      let t := (s.writePlain o v).put (Reg.APORT_P_CTL_EN p) was
      if v % 2 = 1 then t.enablePort p else if was = 1 then t.disablePort p else t
  else if 0x10 ≤ n ∧ n < 0x20 then (s.writePlain o v).masterClocks
  else s.writePlain o v

/-- AES (R587, R590, R592, R639). -/
def State.writeAes (s : State) (o v : Nat) : State :=
  let n := o % 4096
  if n = 4 then (if v % 2 = 1 then s.run execAesCntClr else s)
  else if 0x100 ≤ n ∧ n < 0x500 then
    let k := (n - 0x100) / 128
    if n % 128 = 0 then
      if s.refusesWrite o v then s.reject o
      else
        let was := s.get (Reg.AES_RX_CTL_EN k)
        let t := (s.writePlain o v).put (Reg.AES_RX_CTL_EN k) was
        if v % 2 = was then t else if v % 2 = 1 then t.enableAesRx k else t.disableAesRx k
    else if n % 128 = 0x10 then (if v % 2 = 1 then s.run (execAesRxCsSnap (ix 8 k)) else s)
    else s.writePlain o v
  else if 0x500 ≤ n ∧ n < 0x900 ∧ n % 128 = 0 then
    let k := (n - 0x500) / 128
    if s.refusesWrite o v then s.reject o
    else
      let was := s.get (Reg.AES_TX_CTL_EN k)
      let t := (s.writePlain o v).put (Reg.AES_TX_CTL_EN k) was
      let t1 := if v % 2 = was then t else if v % 2 = 1 then t.enableAesTx k else t.disableAesTx k
      if v / 16 % 2 = 1 then t1.run (execAesTxCommit (ix 8 k)) else t1
  else s.writePlain o v

/-- HUBA (R600, R606–R608, R618). The sample of the running block at which a write falls is open. -/
def State.writeHuba (s : State) (o v : Nat) : State :=
  let n := o % 4096
  let k := s.free.toNat % (s.dom s.convDom).block
  if n = 4 then (if v % 2 = 1 then s.run execHubaCntClr else s)
  else if 0x10 ≤ n ∧ n < 0x50 ∧ n % 16 = 0 then
    if s.refusesWrite o v then s.reject o
    else
      let c := (n - 0x10) / 16
      let t := if c < 2 then
          ((s.put (Reg.HUBA_ADC_CTL_SOURCE c) (v / 2)).put (Reg.HUBA_ADC_CTL_BIAS c) (v / 4)).put (Reg.HUBA_ADC_CTL_BTN_MUTE c) (v / 32)
        else s
      let p := v / 8 % 4
      let t1 := if s.bit (convEn c) == (v % 2 == 1) && s.get (convPreset c) == p then t
        else t.take.run (execConvEnWrite (ix 4 c) (v % 2 == 1) (ix 4 p) k)
      let r := v / 256 % 32
      if c < 2 && r != s.get (Reg.HUBA_ADC_CTL_RANGE_REQ c) then t1.run (execRangeRequest (ix 2 c) (ix 32 r) k) else t1
  else if n = 0x60 then
    if s.refusesWrite o v then s.reject o
    else
      let en := s.get Reg.HUBA_PS_CTL_EN
      let t := (s.writePlain o v).put Reg.HUBA_PS_CTL_EN en
      let j := s.free.toNat % (s.dom s.psDom).block
      t.take.each (List.range 2) fun c u =>
        if Nat.testBit v c == Nat.testBit en c then u else u.run (execPsEnWrite (ix 2 c) (Nat.testBit v c) j)
  else s.writePlain o v

/-- SURF (R643, R651, R652, R660). -/
def State.writeSurf (s : State) (o v : Nat) : State :=
  let n := o % 4096
  if n = 4 then (if v % 2 = 1 then s.run execSurfCntClr else s)
  else if n = 8 then (if v % 2 = 1 then s.run execLawCommit else s)
  else if 0x20 ≤ n ∧ n < 0x40 then
    let p := (n - 0x20) / 4
    let t1 := s.slEnable p (v % 2 == 1)
    if v / 2 % 2 = 1 then t1.run (execSlRestart (ix 8 p)) else t1
  else if n = 0xC0 then
    if s.refusesWrite o v ∨ fieldOf v Reg.SURF_MIR_SEL_OFFSET % 64 ≠ 0 then s.reject o else (s.writePlain o v).showMir
  else if 0x400 ≤ n ∧ n < 0x800 then (if s.bindOk v then s.writePlain o v else s.reject o)
  else s.writePlain o v

/-- NETx (R485, R520): a port that loses EN has no link, and a change of MODE judges its module again. -/
def State.writeNet (s : State) (o v : Nat) : State :=
  let n := o % 4096
  let x := o / 4096 - 12
  if n = 0xFC then (if v % 2 = 1 then s.run (execNetxCntClr (ix 3 x)) else s)
  else if n = 0 then
    let t := s.writePlain o v
    let t1 := if t.get (Reg.NET_CTL_MODE x) = s.get (Reg.NET_CTL_MODE x) then t else t.recheckModule x
    if t1.bit (Reg.NET_CTL_EN x) then t1 else t1.netLink x false
  else s.writePlain o v

/-- WL (R544, R562): a broadcast mask that includes its own ingress port is refused. -/
def State.writeWl (s : State) (o v : Nat) : State :=
  let n := o % 1024
  let p := o / 1024 % 4
  if n = 0 then
    let t := s.wlEnable p (v % 2 == 1)
    if v / 2 % 2 = 1 then t.run (execWlRetrain (ix 4 p)) else t
  else if n = 0x3C then (if v % 2 = 1 then s.run (execWlxCntClr (ix 4 p)) else s)
  else if o = 0x10304 ∧ (List.range 4).any (fun k => Nat.testBit v (4 + 5 * k)) = true then s.reject o
  else if o = 0x10308 then (s.writePlain o v).put Reg.WL_ROUTE_DATA_ENTRY (s.route (v % 65536))
  else s.writePlain o v

/-- GLOBAL (R805): clearing a flag releases its capture. -/
def State.writeGlobal (s : State) (o v : Nat) : State :=
  if o = 0x50 then (if v % 2 = 1 then s.run execGlobalCntClr else s)
  else if o = 0x40 then
    let t := s.writePlain o v
    let t1 := if v % 2 = 1 then t.put Reg.GLOBAL_ACC_ADDR_VALID 0 else t
    if v / 2 % 2 = 1 then t1.put Reg.GLOBAL_STALE_ADDR_VALID 0 else t1
  else s.writePlain o v

end Sys2Proof.Machine
end

