-- ==== Sys2Proof/Machine/Pairs.lean ====
section
/-! DEFINITION. Redundant pairs: the lease, mirrors, digests and verdicts, replicas, resynchronisation, yield and planned
swap (R759–R779, R787). -/

namespace Sys2Proof.Machine

/-! ### Enabling and the first claim (R760, R769) -/

/-- R760, R840. -/
def execPairEnWrite (value : BitVec 32) (s : State) : Out :=
  s.ifRestored 0x13000 (!(s.changes 0x13000 value.toNat).isEmpty) <| .next (s.pairEnWrite value.toNat)

/-- R769: nothing has been heard: the preferred member claims at once, the other 2 s later. -/
def execPairListenEnd (s : State) : Out :=
  match s.pair.listening with
  | none => .next s
  | some t =>
    let wait := s.guardLen + (if s.bit Reg.PAIR_CFG_PREFER then 0 else 2 * (s.dom 0).rate)
    if s.get Reg.PAIR_STATUS_ROLE = 3 ∧ t + wait ≤ s.now then
      .next ((s.modPair fun p => { p with claimed := 1 }).sendWitness { s.pairMsg 0x15 with epoch := 1 })
    else .next s

/-! ### The lease (R763–R768) -/

/-- A message goes to partner and witness. -/
def State.sendBoth (s : State) (m : PairMsg) : State := (s.sendPair m).sendWitness m

/-- The holder's RENEW of this boundary, with its number and the SI it is sent at. -/
def State.sendRenew (s : State) : State :=
  let n := s.pair.renewNum
  let kept := s.pair.sentAt.filter fun e => decide (s.now ≤ e.2 + s.leaseLen)
  (s.sendBoth { s.pairMsg 0x10 with seq := n }).modPair fun p => { p with renewNum := n + 1, sentAt := kept ++ [(n, s.now)] }

/-- A LOCKSTEP holder gives a standby that is not READY the control state, once for each attempt (R776). -/
def State.offerState (s : State) : State :=
  if s.bit Reg.PAIR_STATUS_READY_PARTNER then s.modPair fun p => { p with stateSent := false }
  else if s.coldMode || !s.bit Reg.PAIR_STATUS_PARTNER_SEEN then s
  else if s.pair.stateSent && decide (s.now < s.pair.resyncAt + s.get Reg.PAIR_TIMES2_RESYNC_S * (s.dom 0).rate) then s
  else s.sendState

/-- A planned COLD swap goes on once the prepared standby reports READY (R778). -/
def State.advanceSwap (s : State) : State :=
  let r := s.bit Reg.PAIR_STATUS_READY_PARTNER
  if s.pair.swap = 1 ∧ r = false then s.modPair fun p => { p with swap := 2 }
  else if s.pair.swap = 2 ∧ r = true then s.sendYield false 2
  else s

/-- R763, R767: a P-domain frame boundary: a granted standby opens its gate, and the holder sends RENEW. -/
def execLeaseRenew (s : State) : Out :=
  let s1 := if s.pair.openNext then s.takeLease else s
  if s1.get Reg.PAIR_STATUS_ROLE = 1 then .next (s1.sendRenew.offerState).advanceSwap else .next s1

/-- An answer to the partner. -/
def State.answerPair (s : State) (m : PairMsg) (refuse : Bool) (si : Nat) : State :=
  s.sendPair { s.pairMsg 0x11 with refuse := refuse, seq := m.seq, si := si }

/-- R763, R768, R769: a RENEW of the partner, or of a member of a pair that this engine serves as witness. -/
def execRenewReceived (m : PairMsg) (s : State) : Out :=
  if s.fromPartner m then
    .next (s.onPartner m fun t =>
      if t.get Reg.PAIR_EPOCH_EPOCH < m.epoch ∨ t.pair.listening.isSome = true then (t.enterStandby m.epoch).answerPair m false 0
      else if m.epoch < t.get Reg.PAIR_EPOCH_EPOCH then t.answerPair m true 0
      else if t.get Reg.PAIR_STATUS_ROLE = 2 then (t.modPair fun p => { p with heardAt := some t.now }).answerPair m false 0
      else t)
  else if s.accepts m && m.origin != s.devnum && m.pair != s.devnum then .next (s.witRenew m)
  else .next s

/-- R777: the answer to a YIELD. -/
def State.yieldAnswer (s : State) (refuse : Bool) : State :=
  s.modPair fun p =>
    match p.yieldAt with
    | none => p
    | some (y, _) =>
      if refuse then { p with yieldAt := none, swap := 0, suspectNext := false } else { p with yieldAt := some (y, true) }

/-- R764: an ACK reloads the holder's timer from the SI at which its RENEW was sent; REFUSE closes the gate. -/
def State.leaseAnswer (s : State) (m : PairMsg) : State :=
  if s.get Reg.PAIR_STATUS_ROLE ≠ 1 then s
  else if m.refuse then s.closeGate
  else if m.epoch ≠ s.get Reg.PAIR_EPOCH_EPOCH then s
  else
    match s.pair.sentAt.find? fun e => e.1 == m.seq with
    | some e => s.modPair fun p => { p with ackedAt := max p.ackedAt e.2 }
    | none => s

def execAckReceived (m : PairMsg) (s : State) : Out :=
  if s.fromPartner m then .next (s.onPartner m fun t => if m.si ≠ 0 then t.yieldAnswer m.refuse else t.leaseAnswer m)
  else .next (s.onWitness m fun t => t.leaseAnswer m)

/-- R764: LEASE_MS since the sending of the newest acknowledged renewal ends within the running frame. -/
def execLeaseTimerExpiry (s : State) : Out :=
  .next (if s.get Reg.PAIR_STATUS_ROLE = 1 ∧ s.pair.ackedAt + s.leaseLen < s.now + s.blockP then s.closeGate else s)

/-- R767: the first two conditions of a takeover hold at a boundary. -/
def execClaimSend (s : State) : Out :=
  let silent := match s.pair.heardAt with | some t => decide (t + s.guardLen ≤ s.now) | none => true
  if s.get Reg.PAIR_STATUS_ROLE = 2 ∧ s.bit Reg.PAIR_STATUS_READY = true ∧ silent = true then
    let e := (s.get Reg.PAIR_EPOCH_EPOCH + 1) % 2 ^ 32
    .next ((s.modPair fun p => { p with claimed := e }).sendWitness { s.pairMsg 0x15 with epoch := e })
  else .next s

/-- R762, R767, R768: a CLAIM at the witness, or from the partner. -/
def execClaimReceived (m : PairMsg) (s : State) : Out :=
  if s.fromPartner m then
    .next (s.onPartner m fun t => if t.get Reg.PAIR_EPOCH_EPOCH < m.epoch then t.enterStandby m.epoch else t)
  else if s.accepts m && m.origin != s.devnum && m.pair != s.devnum then .next (s.witClaim m)
  else .next s

/-! ### A COLD standby starts (R775, R778) -/

/-- The restored fields that a replica sets: not the PAIR block's own, and none whose source is the engine's (R807). -/
def State.replicaFields (s : State) : List (RegRow × Fld) :=
  let src := s.sourcedRegs
  restoredFields.filter fun e => e.2.off / 4096 != 0x13 && !(src.any fun y => y.1.key == e.2.key)

/-- Programs that are held: in staging, and in both program sets. -/
def State.heldPrograms (s : State) : List ProgImage :=
  let sets := (List.range 2).flatMap fun k => match Tab.get none s.pwr.sets k with | some p => p.programs | none => []
  s.sched.programs ++ sets.filter fun p => !(s.sched.programs.any fun q => q.digest == p.digest)

/-- Every program that a schedule names is held. -/
def State.holdsPrograms (s : State) (i : SchedImage) : Bool :=
  let has (d : Nat) : Bool := s.sched.programs.any fun p => p.digest == d
  (match i.servoProg with | some d => has d | none => true) && i.clusters.all fun c => c.images.all has

/-- The standby restores the replica and admits its schedule, and its outputs are to ramp up; none where the schedule is
refused. -/
def State.startReplica (s : State) : Option State :=
  match s.pair.replica with
  | none => none
  | some x =>
    match x.sched with
    | none => none
    | some i =>
      let s1 := (s.restoreSettings s.replicaFields (some x)).modSched fun q => { q with programs := s.heldPrograms }
      if (s1.startRefused i).isSome || !s1.holdsPrograms i then none
      else
        let s2 := s1.each (List.range 3) fun d t => (t.configureDomain i d).openDomain d
        some ((s2.startSchedule i).modPair fun p => { p with coldStart := true }).unmuteAll

/-- R767, R775: the witness has granted the claim under way; a COLD standby that is idle starts from its replica first. -/
def State.granted (s : State) : State :=
  let open_ (t : State) : State := t.modPair fun p => { p with openNext := true, takeKind := 1 }
  if s.get Reg.PAIR_STATUS_ROLE = 2 ∧ s.coldMode = true ∧ s.pair.coldStart = false then
    match s.startReplica with
    | some t => open_ t
    | none => s
  else open_ s

/-- R767, R768. -/
def execGrantReceived (m : PairMsg) (s : State) : Out :=
  .next (s.onWitness m fun t =>
    if t.pair.claimed ≠ 0 ∧ m.epoch = t.pair.claimed ∧ 2 ≤ t.get Reg.PAIR_STATUS_ROLE then t.granted
    else if t.get Reg.PAIR_EPOCH_EPOCH < m.epoch then t.enterStandby m.epoch
    else t)

/-! ### Yield and planned swap (R777, R778) -/

/-- R777: a YIELD at the standby. Its ACK or REFUSE tells the handover SI. -/
def execYield (m : PairMsg) (s : State) : Out :=
  .next (s.onPartner m fun t =>
    if t.get Reg.PAIR_STATUS_ROLE ≠ 2 ∨ m.epoch ≠ t.get Reg.PAIR_EPOCH_EPOCH then t
    else if t.bit Reg.PAIR_STATUS_READY then
      (t.modPair fun p => { p with yieldAt := some (m.si, true), claimed := (m.epoch + 1) % 2 ^ 32,
                                   takeKind := if m.errorFound then 2 else 3 }).answerPair m false m.si
    else t.answerPair m true m.si)

/-- R777: at Y the holder closes and the standby opens; one frame before Y without an ACK the holder keeps the lease. -/
def execYieldHandover (s : State) : Out :=
  match s.pair.yieldAt with
  | none => .next s
  | some (y, acked) =>
    if s.get Reg.PAIR_STATUS_ROLE = 1 then
      if acked then
        if s.now < y then .next s
        else
          let t := s.enterStandby ((s.get Reg.PAIR_EPOCH_EPOCH + 1) % 2 ^ 32)
          .next (if s.pair.suspectNext then t.becomeSuspect else t)
      else if y ≤ s.now + s.blockP then .next (s.yieldAnswer true)
      else .next s
    else if s.get Reg.PAIR_STATUS_ROLE = 2 ∧ y ≤ s.now then .next s.takeLease
    else .next s

/-- PAIR_CTL.SWAP. -/
def State.planSwap (s : State) : State :=
  if s.get Reg.PAIR_STATUS_ROLE ≠ 1 ∨ s.pair.swap ≠ 0 ∨ s.pair.yieldAt.isSome = true then s.reject 0x13010
  else if s.coldMode then (s.sendState).modPair fun p => { p with swap := 1 }
  else s.sendYield false 3

/-- R778. -/
def execPairSwap (s : State) : Out := s.ifHost <| .next s.planSwap

/-- PAIR_CTL.RESYNC. -/
def State.restartResync (s : State) : State :=
  if s.get Reg.PAIR_STATUS_ROLE = 2 ∧ s.bit Reg.PAIR_STATUS_SUSPECT = true then
    (s.put Reg.PAIR_STATUS_SYNC 1).modPair fun p => { p with resyncAt := s.now, digests := [], matches_ := 0, mismatches := 0 }
  else s

/-- R776, R787. -/
def execPairResync (s : State) : Out := s.ifHost <| .next s.restartResync

/-! ### Mirrors, control state and replicas at the standby (R772, R775, R776) -/

/-- A mirrored item that is refused or applied late makes the standby SUSPECT. -/
def State.mirrored (t : State) (st : Status) : State := if st = .ok then t else t.becomeSuspect

/-- A mirrored pour, or its cancel. -/
def State.mirrorPour (s : State) (m : PourMsg) (runs : List Run) : State :=
  let e := s.earliest 0
  if m.kind = 1 then
    match s.pourRuns m.scene runs with
    | none => s.becomeSuspect
    | some l =>
      if s.pours.seen.contains (m.origin, m.tag) then s
      else if 64 ≤ s.liveCount then s.becomeSuspect
      else
        let p := s.peerPour m l
        (s.acceptPour { p with strict := m.policy == 2 }).mirrored (if p.t < e then .late else .ok)
  else
    match s.pour m.origin m.tag with
    | none => s.becomeSuspect
    | some p =>
      let c := s.fromPeer m.si m.rate
      if phaseFinal p.phase || p.cancel.isSome then s
      else
        (s.modPour p.origin p.tag fun x => { x with cancel := some (max c e, none, decide (c < e)) }).mirrored
          (if c < e then .late else .ok)

/-- A mirrored admission, under the rules of the holder: what this engine would refuse makes it SUSPECT (R772). -/
def State.mirrorSchedule (s : State) (i : SchedImage) (flags target : Nat) : State :=
  let late := target ≠ unarmed ∧ target < s.earliest 0
  if !s.holdsPrograms i || (s.admissionRefused { flags := flags, target := target } i).isSome then
    s.becomeSuspect
  else
    let t := s.judgeImage { flags := flags, target := target } i
    let u : State := { t with host := s.host }
    u.mirrored (if late ∨ (target ≠ unarmed ∧ u.pendingBank.armed = false) then .late else .ok)

/-- What a MIRROR carries is applied under the holder's rules. -/
def State.applyMirror (s : State) : MirrorCmd → State
  | .params ramp eq target items => let r := s.paramSet target ramp eq .inline items []; r.1.mirrored r.2.1
  | .routes ramp eq target items => let r := s.routeSet target ramp eq .inline items []; r.1.mirrored r.2.1
  | .pour m runs => s.mirrorPour m runs
  | .schedule i flags target => s.mirrorSchedule i flags target
  | .arm target =>
    if s.pendingBank.armed || s.pendingBank.image.isNone || decide (target < s.earliest 0) then s.becomeSuspect
    else s.armBank target (s.pendingBank.hdr.getD {})
  | .readmit indices target =>
    if s.bit Reg.SCHED_STATUS_THERM_HOLD || !(indices.all s.readmitOk) then s
    else (s.readmit {} indices target).mirrored (if s.readmitLate indices target then .late else .ok)
  | .other held => if held then s else s.becomeSuspect

/-- Mirrors follow the control state, and go on while the standby keeps step. -/
def State.takesMirrors (s : State) : Bool :=
  decide (s.get Reg.PAIR_STATUS_ROLE = 2) && (!s.coldMode || s.pair.coldStart) &&
  (decide (2 ≤ s.get Reg.PAIR_STATUS_SYNC) || s.bit Reg.PAIR_STATUS_READY)

/-- A MIRROR in its order. -/
def State.takeMirror (s : State) (m : PairMsg) : State :=
  if !s.takesMirrors then s
  else if m.seq ≠ s.pair.mirrorIn then s.becomeSuspect
  else
    match m.mirror with
    | none => s.becomeSuspect
    | some c => (s.modPair fun p => { p with mirrorIn := p.mirrorIn + 1 }).applyMirror c

/-- Control state: step 1 of R776, or the preparation of a COLD standby for a planned swap (R778). -/
def State.takeState (s : State) (c : ControlState) : State :=
  if s.get Reg.PAIR_STATUS_ROLE ≠ 2 then s
  else if s.coldMode then
    match s.startReplica with
    | none => s
    | some t =>
      let u := ((t.installControl c).put Reg.PAIR_STATUS_READY 0).put Reg.PAIR_STATUS_SYNC 3
      u.modPair fun p => { p with linesAt := s.now, resyncAt := s.now, digests := [] }
  else if s.get Reg.PAIR_STATUS_SYNC = 1 then
    ((s.installControl c).put Reg.PAIR_STATUS_SYNC 2).modPair fun p => { p with groups := 0, digests := [] }
  else s

/-- The newest complete replica is kept, and a COLD standby that has one is READY (R775). -/
def State.takeReplica (s : State) (x : Settings) : State :=
  if s.get Reg.PAIR_STATUS_ROLE ≠ 2 ∨ s.coldMode = false then s
  else
    let t := s.modPair fun p => { p with replica := some x, replicaAt := s.now }
    if t.pair.coldStart then t else t.becomeReady

/-- R772, R775, R776: a MIRROR, or the STATE or REPLICA that comes by the same channel. -/
def execMirrorReceived (m : PairMsg) (s : State) : Out :=
  .next (s.onPartner m fun t =>
    match m.kind, m.control, m.replica with
    | 0x13, _, _ => t.takeMirror m
    | 0x18, some c, _ => t.takeState c
    | 0x19, _, some x => t.takeReplica x
    | _, _, _ => t)

/-- R775: every REPL_S the holder of a COLD pair sends the content of a commit. -/
def execReplicaSend (t : TimeRecord) (s : State) : Out :=
  .next (if s.get Reg.PAIR_STATUS_ROLE = 1 ∧ s.coldMode = true then
    s.sendPair { s.pairMsg 0x19 with replica := some (s.content t) } else s)

/-- R775: the newest replica is more than 3 × REPL_S old. A standby that a planned swap has started goes on. -/
def execReplicaExpiry (s : State) : Out :=
  .next (if s.get Reg.PAIR_STATUS_ROLE = 2 ∧ s.coldMode = true ∧ s.pair.coldStart = false ∧ s.replicaFresh = false then
    s.put Reg.PAIR_STATUS_READY 0 else s)

/-! ### Digests (R773) -/

/-- One bit of the ECMA-182 CRC, most significant first. -/
def crc64Bit (c : BitVec 64) (b : Bool) : BitVec 64 :=
  if c.msb != b then (c <<< 1) ^^^ 0x42F0E1EBA9EA3693#64 else c <<< 1

/-- A 32-bit pattern, most significant bit first (log entry 52). -/
def crc64Word (c : BitVec 64) (w : Word) : BitVec 64 := (List.range 32).foldl (fun x k => crc64Bit x (w.getLsbD (31 - k))) c

/-- Insertion by address. -/
def insertSlot (x : StageSlot) : List StageSlot → List StageSlot
  | [] => [x]
  | y :: t => if x.addr ≤ y.addr then x :: y :: t else y :: insertSlot x t

/-- The P-domain destinations of a group in ascending address. -/
def State.groupDests (s : State) (g : Nat) : List StageSlot :=
  (s.mix.stageOut.filter fun x => x.domain == 0 && s.groupOf x.addr == g).foldr insertSlot []

/-- The digest of a group over the block at SI `fsi`: the output samples before hush, start and gate gains. -/
def State.groupDigest (s : State) (fsi g : Nat) : Nat :=
  let b := s.blockP
  let ws := (s.groupDests g).flatMap fun x => (List.range b).map fun n => Memory.read32 s.stage (outAddr b fsi x.offset n)
  (ws.foldl crc64Word 0).toNat

/-- Group g is compared. -/
def State.compares (s : State) (g : Nat) : Bool := Nat.testBit (s.get Reg.PAIR_GRP_CMP_GROUPS) g

def State.comparedGroups (s : State) : List Nat := (List.range 64).filter s.compares

/-- Both members compute frames: in COLD only while a planned swap runs. -/
def State.inStep (s : State) : Bool :=
  s.bit Reg.PAIR_CFG_EN && (!s.coldMode || s.pair.coldStart || s.pair.swap != 0) &&
  (s.get Reg.PAIR_STATUS_ROLE == 1 || s.get Reg.PAIR_STATUS_ROLE == 2)

/-! ### Comparison and verdicts (R774) -/

/-- The internal error record holds an entry for the mismatching blocks. -/
def State.ownError (s : State) : Bool := match s.pair.errAt with | some t => decide (s.pair.firstBad ≤ t) | none => false

/-- The verdicts of both members decide. -/
def State.resolve (s : State) : State :=
  match s.pair.verdictOwn, s.pair.verdictPartner with
  | some own, some other =>
    let s1 := s.modPair fun p => { p with verdictOwn := none, verdictPartner := none, mismatches := 0 }
    if s.get Reg.PAIR_STATUS_ROLE = 1 then
      if own && !other && s.pair.yieldAt.isNone then s1.sendYield true 3 else s1
    else if s.get Reg.PAIR_STATUS_ROLE = 2 then (if other && !own then s1 else s1.becomeSuspect)
    else s1
  | _, _ => s

/-- K blocks in a row have mismatched: the event, and this member's verdict. -/
def State.giveVerdict (s : State) (mask : Nat) : State :=
  let e := s.ownError
  let s1 := s.postNow .fault (some 60) 0x181 [s.pair.firstBad, mask]
  let s2 := s1.sendPair { s1.pairMsg 0x14 with si := s.pair.firstBad, errorFound := e }
  (s2.modPair fun p => { p with verdictOwn := some e }).resolve

/-- A standby whose K blocks have matched after every delay line was rewritten is READY (R776, step 4; R778). -/
def State.resyncDone (s : State) : State :=
  if s.get Reg.PAIR_STATUS_ROLE = 2 ∧ s.get Reg.PAIR_STATUS_SYNC = 3 ∧ s.get Reg.PAIR_CFG_K ≤ s.pair.matches_ then
    (((s.put Reg.PAIR_STATUS_SYNC 0).put Reg.PAIR_STATUS_SUSPECT 0).bump Reg.PAIR_CNT_RESYNCS).becomeReady
  else s

/-- One block with both digests is compared. A verdict is given while the standby has been in step. -/
def State.compareBlock (s : State) (si : Nat) (own : Tab Nat) (partner : Tab (Option Nat)) : State :=
  let bad := s.comparedGroups.filter fun g => Tab.get none partner g != some (Tab.get 0 own g)
  let s0 := s.modPair fun p => { p with digests := p.digests.filter fun e => e.si != si }
  if bad.isEmpty then
    let ripe := decide (s.pair.linesAt ≤ s.now)
    (s0.modPair fun p => { p with mismatches := 0, matches_ := if ripe then p.matches_ + 1 else 0 }).resyncDone
  else
    let s1 := (bad.foldl (fun t g => t.setMask Reg.PAIR_GRP_MISM_GROUPS g) s0).set Reg.PAIR_STATUS_MISMATCH_SEEN
    let live := if s.get Reg.PAIR_STATUS_ROLE = 1 then s.bit Reg.PAIR_STATUS_READY_PARTNER else s.bit Reg.PAIR_STATUS_READY
    if !live then s1.modPair fun p => { p with matches_ := 0, mismatches := 0 }
    else
      let s2 := s1.modPair fun p =>
        { p with matches_ := 0, mismatches := p.mismatches + 1, firstBad := if p.mismatches = 0 then si else p.firstBad }
      if s2.pair.mismatches = s2.get Reg.PAIR_CFG_K then s2.giveVerdict (bad.foldl (fun m g => m + 2 ^ g) 0) else s2

/-- Every block whose digests are complete is compared, the oldest first. -/
def State.compareAll (s : State) : State :=
  s.each s.pair.digests fun e t =>
    match e.own with
    | none => t
    | some own =>
      if t.comparedGroups.all fun g => (Tab.get none e.partner g).isSome then t.compareBlock e.si own e.partner else t

/-- The entry of a block, made where there is none. -/
def State.modDigest (s : State) (si : Nat) (f : DigestSt → DigestSt) : State :=
  s.modPair fun p =>
    if p.digests.any fun e => e.si == si then { p with digests := p.digests.map fun e => if e.si = si then f e else e }
    else { p with digests := p.digests ++ [f { si := si }] }

/-- R773: at the boundary that begins the emission of a block. A block whose partner digests are 4 frames late is not
compared. -/
def execDigestSend (s : State) : Out :=
  if !s.inStep || decide (s.now < 2 * s.blockP) then .next s
  else
    let j := s.now - 2 * s.blockP
    let own : Tab Nat := s.comparedGroups.foldl (fun t g => Tab.put 0 t g (s.groupDigest j g)) []
    let s1 := (s.modPair fun p => { p with digests := p.digests.filter fun e => decide (j ≤ e.si + 4 * s.blockP) }).modDigest j fun e =>
      { e with own := some own }
    let parts := [0, 24, 48].filter fun a => (List.range (min 24 (64 - a))).any fun k => s.compares (a + k)
    let s2 := s1.each parts fun a t =>
      t.sendPair { t.pairMsg 0x12 with si := j, group := a,
                                       digests := (List.range (min 24 (64 - a))).map fun k => Tab.get 0 own (a + k) }
    .next s2.compareAll

/-- R774. -/
def execDigestReceived (m : PairMsg) (s : State) : Out :=
  .next (s.onPartner m fun t =>
    if !t.inStep || decide (m.si + 6 * t.blockP < t.now) then t
    else
      (t.modDigest m.si fun e =>
        { e with partner := m.digests.zipIdx.foldl (fun x y => if m.group + y.2 < 64 then
            Tab.put none x (m.group + y.2) (some y.1) else x) e.partner }).compareAll)

def execVerdictReceived (m : PairMsg) (s : State) : Out :=
  .next (s.onPartner m fun t => (t.modPair fun p => { p with verdictPartner := some m.errorFound }).resolve)

/-- R774: a verdict missing after 1 ms counts as ERROR_FOUND. -/
def execVerdictTimeout (s : State) : Out :=
  .next (if s.pair.verdictOwn.isSome && s.pair.verdictPartner.isNone then
    (s.modPair fun p => { p with verdictPartner := some true }).resolve else s)

/-! ### Resynchronisation (R776) -/

/-- Bytes of the memories that hold carried state: shared, local, glaze state. -/
def carriedLimit : Nat → Nat
  | 0 => 2 ^ 26
  | 1 => 2 ^ 25
  | _ => 2 ^ 20

/-- A part of the carried state is installed. -/
def State.install (s : State) (c : CarriedPart) : State :=
  if carriedLimit c.space.val < c.addr + c.bytes.length then s
  else
    match c.space with
    | 0 => { s with shm := Memory.writeBytes s.shm c.addr c.bytes }
    | 1 => { s with lmem := Memory.writeBytes s.lmem c.addr c.bytes }
    | 2 => { s with glz := Memory.writeBytes s.glz c.addr c.bytes }

/-- The longest delay line of the schedule, in samples of domain P (R313, R776 step 3). -/
def State.longestLine (s : State) : Nat :=
  match s.active with
  | none => 0
  | some i =>
    (i.regions.flatMap fun r =>
      let d := match r.domain with | some x => x.val | none => 0
      r.lines.map fun l => s.toP d l.2 + 1).foldl max 0

/-- R776, step 2: one group's carried state; `last`: it is the last group. The holder's part is a BULK transfer. -/
def execResyncGroupCopy (data : List CarriedPart) (last : Bool) (s : State) : Out :=
  if s.get Reg.PAIR_STATUS_ROLE = 1 ∧ s.pair.stateSent = true then
    .next (s.queueCell (s.get Reg.PAIR_CFG_PORT)
      { vc := 3, dst := s.get Reg.PAIR_PARTNER_PARTNER, src := s.devnum, last := last, len := 224, payload := .bulk })
  else if s.get Reg.PAIR_STATUS_ROLE = 2 ∧ s.get Reg.PAIR_STATUS_SYNC = 2 then
    let s1 := (s.each data fun c t => t.install c).modPair fun p => { p with groups := p.groups + 1 }
    .next (if last then
      (s1.put Reg.PAIR_STATUS_SYNC 3).modPair fun p =>
        { p with linesAt := s.now + s1.longestLine, matches_ := 0, mismatches := 0, digests := [] }
    else s1)
  else .next s

/-- R776: not READY within RESYNC_S. -/
def execResyncTimeout (s : State) : Out :=
  .next (if s.get Reg.PAIR_STATUS_ROLE = 2 ∧ s.get Reg.PAIR_STATUS_SYNC ≠ 0 ∧
      s.pair.resyncAt + s.get Reg.PAIR_TIMES2_RESYNC_S * (s.dom 0).rate ≤ s.now then
    ((s.put Reg.PAIR_STATUS_SYNC 0).set Reg.PAIR_STATUS_SUSPECT).pairEvent 4 .aborted else s)

/-- R787. -/
def execPairCntClr (s : State) : Out := s.ifHost <| .next (s.clear [Reg.PAIR_CNT_TAKEOVERS, Reg.PAIR_CNT_RESYNCS])

end Sys2Proof.Machine
end

