-- ==== Sys2Proof/Machine/RegWrite.lean ====
section
/-! DEFINITION. A write of one dword of BAR0 or BAR2 (R790–R794, R801, R803, R805, R809, R840). -/

namespace Sys2Proof.Machine

/-- STANDBY by a register write (R702): what the command PWR_STANDBY carries beside it, the length of the final commit's record
and the time of PTP and its error, are free values here (log entry 31). -/
def State.standbyWrite (s : State) : State :=
  let x (k : Nat) : Nat := (Config.freeValue (s.ctr + k)).toNat
  ({ s with ctr := s.ctr + 3 } : State).run
    (execPwrStandby (x 0 % 2 ^ 16) { warm := s.get Reg.PWR_WARM_CNT_COUNT, ptpSec := x 1, err := (x 2 : Int) - 2 ^ 63 })

/-- PWR (R699, R702, R723). -/
def State.writePwr (s : State) (o v : Nat) : State :=
  if o = 0x104C then (if v % 2 = 1 then s.run execPwrCntClr else s)
  else if o = 0x1004 then (if v % 2 = 1 then s.standbyWrite else s)
  else s.writePlain o v

/-- TRUST (R753, R758): GO in recovery starts the boot ROM's reading of the image, and RECOVERY_GO carries what it has read (log
entry 31). -/
def State.writeTrust (s : State) (o v : Nat) : State :=
  if o = 0x120CC then
    (if v % 2 = 0 then s else if s.bit Reg.TRUST_STATE_RECOVERY then s.put Reg.TRUST_RCV_STATUS_STATE 1 else s.reject o)
  else s.writePlain o v

/-- PAIR (R760, R778, R787). -/
def State.writePairBlock (s : State) (o v : Nat) : State :=
  if o = 0x13000 then s.pairEnWrite v
  else if o = 0x13010 then
    let t := if v % 2 = 1 then s.planSwap else s
    if v / 2 % 2 = 1 then t.restartResync else t
  else if o = 0x1303C then (if v % 2 = 1 then s.run execPairCntClr else s)
  else s.writePlain o v

/-- BIST (R785, R788). -/
def State.writeBist (s : State) (o v : Nat) : State :=
  if o = 0x14014 then (if v % 2 = 1 then s.run execBistCntClr else s)
  else
    let t := s.writePlain o v
    if o = 0x14000 ∧ v / 2 ^ 16 % 2 = 1 then t.bistGo (v % 256) (v / 256 % 256) else t

/-- A register of one dword. -/
def State.writeRegister (s : State) (o v : Nat) : State :=
  match o / 4096 with
  | 0 => s.writeGlobal o v
  | 1 => s.writePwr o v
  | 2 => s.writeClk o v
  | 3 => s.writeTime o v
  | 4 => s.writeHost o v
  | 5 => s.writeSched o v
  | 6 => s.writeAport o v
  | 7 => s.writeAes o v
  | 8 => s.writeHuba o v
  | 9 => s.writeSurf o v
  | 10 | 11 => s.writeDma o v
  | 12 | 13 | 14 => s.writeNet o v
  | 15 => if o = 0xF03C then (if v % 2 = 1 then s.run execClsCntClr else s) else s.writePlain o v
  | 16 => s.writeWl o v
  | 17 => if o = 0x1103C then (if v % 2 = 1 then s.run execStoreCntClr else s) else s.writePlain o v
  | 18 => s.writeTrust o v
  | 19 => s.writePairBlock o v
  | 20 => s.writeBist o v
  | 21 =>
    if o = 0x1500C then (if v % 2 = 1 then s.run execPinfnCntClr else s)
    else if 0x15010 ≤ o ∧ o < 0x15090 then s.pinWrite ((o - 0x15010) / 4) v
    else s.writePlain o v
  | _ => s.writePlain o v

/-- A write would change a restored field (R809): that of a pair at its HI half, which applies it (R801). -/
def State.changesRestored (s : State) (o v : Nat) : Bool :=
  match pairAt o with
  | some (r, f, hi) => hi && decide (r.pup = .restored ∧ r.acc = .rw) && s.pairValue f v != s.get f
  | none => (s.changes o v).any fun x => decide (x.1.pup = .restored)

/-- One dword of BAR0. -/
def State.writeBar0 (s : State) (o v be : Nat) : State :=
  if !s.answers o then s
  else if 0x20000 ≤ o then s.accFault false o be 2
  else if !s.bit Reg.GLOBAL_RESTORE_DONE && s.changesRestored o v then s.accFault false o be 3
  else if be ≠ 15 then s.accFault false o be 1
  else
    match pairAt o with
    | some (r, f, hi) => s.writePair r f hi v
    | none => s.writeRegister o v

/-! ### BAR2 (R425, R426, R454, R459, R803) -/

/-- The 60 bytes of a slot's descriptor (R434, R459). -/
def slotBytes (d : Descriptor) : List Byte :=
  natToBytes 2 d.opcode ++ natToBytes 2 d.flags ++ natToBytes 4 d.tag ++ natToBytes 8 d.target ++
    (d.payload ++ List.replicate (44 - d.payload.length) 0).take 44

def slotOf (l : List Byte) : Descriptor :=
  let f (at_ n : Nat) : Nat := bytesToNat ((l.drop at_).take n)
  { opcode := f 0 2, flags := f 2 2, tag := f 4 4, target := f 8 8, payload := (l.drop 16).take 44 }

/-- A dword of an urgent slot: the one that holds COMMIT takes it, unless it is busy. -/
def State.writeSlot (s : State) (slot : Fin 64) (k v : Nat) : State :=
  let d := (Tab.get none s.host.urg slot.val).getD {}
  if k = 15 then s.run (execUrgentSlotCommit slot d (BitVec.ofNat 32 v))
  else
    let l := slotBytes d
    s.run (execUrgentSlotCommit slot (slotOf (l.take (4 * k) ++ natToBytes 4 v ++ l.drop (4 * k + 4))) 0)

/-- A dword of an entry of the MSI-X table: message address, data and the mask. -/
def State.writeVector (s : State) (n k v : Nat) : State :=
  let upd (f : MsixVec → MsixVec) : State := s.modHost fun x => { x with msix := Tab.upd {} x.msix n f }
  match k with
  | 0 => upd fun m => { m with addr := m.addr / 2 ^ 32 * 2 ^ 32 + v }
  | 1 => upd fun m => { m with addr := m.addr % 2 ^ 32 + v * 2 ^ 32 }
  | 2 => upd fun m => { m with data := v }
  | _ => s.maskVector n (v % 2 == 1)

/-- One dword of BAR2. -/
def State.writeBar2 (s : State) (o v be : Nat) : State :=
  if !s.hostUp then s
  else if be ≠ 15 then s.accFault true o be 1
  else if o = 0 then s.run (execDoorbell (BitVec.ofNat 32 v))
  else if 0x1000 ≤ o ∧ o < 0x2000 then s.writeSlot (ix 64 ((o - 0x1000) / 64)) (o / 4 % 16) v
  else if 0x2000 ≤ o ∧ o < 0x2400 then s.writeVector ((o - 0x2000) / 16) (o / 4 % 4) v
  else s

/-- R794. `be`: the byte enables of the dword. -/
def execRegisterWrite (bar2 : Bool) (off : BitVec 18) (value : BitVec 32) (be : BitVec 4) (s : State) : Out :=
  let o := off.toNat / 4 * 4
  .next (if bar2 then s.writeBar2 o value.toNat be.toNat else s.writeBar0 o value.toNat be.toNat)

end Sys2Proof.Machine
end

