-- ==== Sys2Proof/Machine/Trust.lean ====
section
/-! DEFINITION. The TRUST_* commands (R732–R758). -/

namespace Sys2Proof.Machine

/-- R750: nonce, and the buffer's address. -/
def execTrustAttest (h : CmdHdr) (nonce : BitVec 256) (addr : Nat) (s : State) : Out := .next (s.addJob h (.attest addr nonce))

/-- R733, R734: the code, and the claim record that host memory holds at `addr`: the owner key's digest and whether the
record's signature verifies under the key. -/
def execTrustClaim (h : CmdHdr) (code : BitVec 64) (addr owner : Nat) (sigOk : Bool) (s : State) : Out :=
  .next (if s.standby then s.refuse h 0x0901 .refused 0 0
    else if !s.windowOk addr 192 false then s.refuse h 0x0901 .windowFault 24 0
    else s.addJob h (.claim code owner sigOk))

def execTrustRelease (h : CmdHdr) (ring length : Nat) (s : State) : Out := .next (s.awaitObject h 9 ring length)

/-- A policy has at most 64 KiB (R741). -/
def execTrustPolicy (h : CmdHdr) (ring length : Nat) (s : State) : Out :=
  .next (if 65536 + 256 < length then s.refuse h 0x0903 .refused 20 0 else s.awaitObject h 5 ring length)

def execTrustMembers (h : CmdHdr) (ring length : Nat) (s : State) : Out := .next (s.awaitObject h 6 ring length)

/-- A house scene has at most 2 MiB (R708). -/
def execTrustHouse (h : CmdHdr) (ring length : Nat) (s : State) : Out :=
  .next (if 2 ^ 21 + 256 < length then s.refuse h 0x0905 .refused 20 0 else s.awaitObject h 7 ring length)

/-- A firmware copy has 4 MiB (R704). -/
def execTrustFw (h : CmdHdr) (ring length : Nat) (s : State) : Out :=
  .next (if 2 ^ 22 < length then s.refuse h 0x0906 .refused 20 0 else s.awaitObject h 8 ring length)

def execTrustCert (h : CmdHdr) (addr : Nat) (s : State) : Out := .next (s.addJob h (.cert addr))

def execTrustDebugChallenge (h : CmdHdr) (s : State) : Out :=
  .next (if s.standby then s.refuse h 0x0908 .refused 0 0 else s.addJob h .challenge)

def execTrustDebugUnlock (h : CmdHdr) (ring length : Nat) (s : State) : Out := .next (s.awaitObject h 10 ring length)

/-- R749: the time of the n-th waiting command has passed since its last buffer. -/
def execTrustCommandTimeout (n : Nat) (s : State) : Out :=
  match s.trust.queue[n]? with
  | some (h, .object k (some _)) =>
    .next ((s.modTrust fun t => { t with queue := t.queue.eraseIdx n }).finish h (objectOp k) .aborted 0 0 0)
  | _ => .next s

/-- R725, R729: the Jarralia test station moves a BLANK engine to MANUFACTURED: keys are drawn from the TRNG, and the identity
area, the claim code and the certificate chain are written. -/
def execBlankToManufactured (serial macs : List Nat) (code : BitVec 64) (chain : List Byte) (s : State) : Out :=
  if s.get Reg.TRUST_STATE_LCS ≠ 0 then .next s
  else
    let id := max 1 (bytesToNat (s.openBytes 48))
    let s1 : State := { s with ctr := s.ctr + 6 }
    let s2 := (s1.setIdentity id).modTrust fun t =>
      { t with serial := serial.take 4, macs := macs.take 3, claimCode := codeOf code, chain := chain.take 4096 }
    .next ((s2.put Reg.TRUST_STATE_LCS 1).trustState 0 1)

end Sys2Proof.Machine
end

