-- ==== Sys2Proof/Machine/UnitC.lean ====
section
/-! DEFINITION. Control operations (R187–R200, R263–R270). A control operation is the last operation of its bundle. -/

namespace Sys2Proof.Machine

/-- A control operation of opcode `cop` checked before its bundle issues: its fields (R263, R264) and items 4, 5, 7 and 8 of
R179; a finding takes the ILLEGAL trap. -/
def State.control (s : State) (o : Op) (cop operands level : Nat) (go : State → State) : Out :=
  let x := s.unit o.u.val
  let found := firstOf (atSlot 4 (illegalC (o.ctlWord cop operands))) (atSlot 4 (x.illegalHere cop level (x.getP o.pred.val)))
  s.legal o 4 (found.map (·.1)) (.next (go (s.modUnit o.u.val UnitSt.opened)))

/-- The address of a branch target (R265). -/
def UnitSt.target (x : UnitSt) : BrTarget → Nat
  | .addr t => t.val
  | .reg r => (x.getA r.val).toNat % 1024

/-- The delay bundles follow whether or not the branch is taken or guarded off (R191, R267). -/
def branch (o : Op) (cop operands : Nat) (act : UnitSt → UnitSt) (taken : UnitSt → Option Nat) (s : State) : Out :=
  s.control o cop operands 0 fun s =>
    s.modUnit o.u.val fun x =>
      let g := x.getP o.pred.val
      let y := if g then act x else x
      UnitSt.after { y with delay := 3, brTo := if g then taken x else none } o

def execBr (o : Op) (t : BrTarget) (s : State) : Out := branch o 1 t.bits id (fun x => some (x.target t)) s

/-- R266. -/
def execBrc (o : Op) (t : BrTarget) (cp : Fin 8) (sense : Bool) (s : State) : Out :=
  branch o 2 (t.bits + cp.val * 2 ^ 46 + if sense then 2 ^ 45 else 0) id (fun x => if x.getP cp.val = sense then some (x.target t) else none) s

/-- R192: the return address is the CALL bundle plus 3. -/
def execCall (o : Op) (t : BrTarget) (s : State) : Out :=
  branch o 3 t.bits (fun x => { x with stk := Tab.put 0 x.stk x.depth ((x.pc + 3) % 1024), depth := x.depth + 1 })
    (fun x => some (x.target t)) s

/-- R192. -/
def execRet (o : Op) (s : State) : Out :=
  branch o 4 0 (fun x => { x with depth := x.depth - 1 }) (fun x => some (Tab.get 0 x.stk (x.depth - 1))) s

/-- R195, R196, R268: a count of 0 leaves the level inactive, and the unit issues two empty bundles and goes on behind
the body. -/
def execLoop (o : Op) (level : Fin 4) (c : LoopCount) (fin : Fin 1024) (s : State) : Out :=
  s.control o 5 (level.val * 2 ^ 48 + c.bits + fin.val) level.val fun s =>
    s.modUnit o.u.val fun x =>
      if x.getP o.pred.val then
        let n := level.val
        let cnt : Word := match c with | .imm k => BitVec.ofNat 32 k.val | .reg r => x.getA r.val
        let st := (x.pc + 1) % 1024
        let e := (st + fin.val) % 1024
        let y := { x with lc := Tab.put 0 x.lc n cnt, ls := Tab.put 0 x.ls n st, le := Tab.put 0 x.le n e }
        if cnt = 0 then
          let z := y.endBundle o.rot true
          let z' := z.runTo (z.cyc + 2)
          { z' with pc := e + 1 }
        else
          UnitSt.endBundle { y with la := y.la ||| (1#4 <<< n), starts := n :: y.starts.filter (· ≠ n) } o.rot true
      else x.after o

/-- R194, R217: the HALT drain lands what is in flight, and the flags are gathered. -/
def execHalt (o : Op) (s : State) : Out :=
  s.control o 6 0 0 fun s =>
    let x := s.unit o.u.val
    if x.getP o.pred.val then (s.setUnit o.u.val (x.after o).halt).gatherFlags o.u.val
    else s.setUnit o.u.val (x.after o)

/-- R206: DEBUG is pending from this bundle on. -/
def execTrap (o : Op) (code : BitVec 12) (s : State) : Out :=
  s.control o 7 code.toNat 0 fun s =>
    s.issue o fun x => { x with pendDebug := some code, heldDebug := false }

/-- R187. -/
def execSync (o : Op) (s : State) : Out :=
  s.control o 8 0 0 fun s =>
    s.modUnit o.u.val fun x =>
      if x.getP o.pred.val then { (x.after o) with wait := .sync } else x.after o

/-- R188: the unit waits only while a transfer it issued is outstanding. -/
def execWaitdma (o : Op) (s : State) : Out :=
  s.control o 9 0 0 fun s =>
    s.modUnit o.u.val fun x =>
      if x.getP o.pred.val && decide (x.dmaOut ≠ 0) then { (x.after o) with wait := .dma } else x.after o

/-- R270: the value at issue, visible 2 cycles later. -/
def execMovs (o : Op) (sreg : Fin 256) (s : State) : Out :=
  s.control o 0x0A (o.d.val * 2 ^ 40 + sreg.val) 0 fun s =>
    s.issue o fun x => x.flyA 2 o.d.val (x.readSr o.u.val sreg.val)

/-- R270: in effect for bundles issued 2 cycles later. -/
def execMovx (o : Op) (sreg : Fin 256) (s : State) : Out :=
  s.control o 0x0B (o.a.val * 2 ^ 40 + sreg.val) 0 fun s =>
    s.issue o fun x => x.fly 2 (.sr sreg.val) (lanes (x.getA o.a.val) 0)

/-- R211: waits for the results in flight and the shared reads under way, two further cycles, then the bundle at TPC with
LOOP_ACTIVE restored. -/
def execRett (o : Op) (s : State) : Out :=
  s.control o 0x0C 0 0 fun s =>
    s.modUnit o.u.val fun x =>
      if x.getP o.pred.val then
        UnitSt.settled { (x.after o) with wait := .rett }
      else x.after o

/-- R187: once every unit of the cluster waits at a SYNC or has halted, the waiting units issue in the same cycle. -/
def execSyncRelease (c : Fin 64) (s : State) : Out :=
  let us := (List.range 8).map fun u => 8 * c.val + u
  if us.all fun u => (s.unit u).wait == .sync || (s.unit u).wait == .halted then
    let t := us.foldl (fun m u => max m (s.unit u).cyc) 0
    .next (s.each us fun u s' =>
      s'.modUnit u fun x => if x.wait = .sync then { (x.runTo t) with wait := .run } else x)
  else .next s

/-- R186, R188: the unit has waited up to the cycle in which the cluster DMA ended its last transfer. -/
def execWaitdmaRelease (u : Fin 516) (s : State) : Out :=
  .next (s.modUnit u.val fun x =>
    if x.wait = .dma ∧ x.dmaOut = 0 then { (x.runTo (if u.val < 512 then s.clusterClk (u.val / 8) else 0)) with wait := .run } else x)

end Sys2Proof.Machine
end

