-- ==== Sys2Proof/Machine/UnitI.lean ====
section
/-! DEFINITION. The integer operations of slot I (R248–R254) and the long immediate (R271). -/

namespace Sys2Proof.Machine

/-- An I-slot operation of opcode `op`, checked against R179 items 1 and 2 before it issues. -/
def iIssue (op : Nat) (o : Op) (act : UnitSt → UnitSt) (s : State) : Out :=
  s.legal o 2 (illegalI (o.word op)) (.next (s.issue o act))

/-- An I-slot operation on a and b whose result lands in A[D], with the V it sets. -/
def iOp (op : Nat) (o : Op) (lat : Nat) (f : Word → Word → Word × Bool) (s : State) : Out :=
  iIssue op o (fun x =>
    let r := f (x.getA o.a.val) (x.bI o.m.val o.b.val)
    (x.iflag r.2 false).flyA lat o.d.val r.1) s

/-- A result that changes no flag. -/
def plain (w : Word) : Word × Bool := (w, false)

def execAdd (o : Op) (s : State) : Out := iOp 0x01 o 1 addV s
def execSub (o : Op) (s : State) : Out := iOp 0x02 o 1 subV s
def execAdds (o : Op) (s : State) : Out := iOp 0x03 o 1 addsV s
def execSubs (o : Op) (s : State) : Out := iOp 0x04 o 1 subsV s
def execNeg (o : Op) (s : State) : Out := iOp 0x05 o 1 (fun a _ => negV a) s
def execNegs (o : Op) (s : State) : Out := iOp 0x06 o 1 (fun a _ => negsV a) s
def execAnd (o : Op) (s : State) : Out := iOp 0x08 o 1 (fun a b => plain (a &&& b)) s
def execOr (o : Op) (s : State) : Out := iOp 0x09 o 1 (fun a b => plain (a ||| b)) s
def execXor (o : Op) (s : State) : Out := iOp 0x0A o 1 (fun a b => plain (a ^^^ b)) s
def execNot (o : Op) (s : State) : Out := iOp 0x0B o 1 (fun a _ => plain (~~~a)) s
def execShl (o : Op) (s : State) : Out := iOp 0x10 o 1 (fun a b => plain (shl a b)) s
def execShr (o : Op) (s : State) : Out := iOp 0x11 o 1 (fun a b => plain (shr a b)) s
def execSar (o : Op) (s : State) : Out := iOp 0x12 o 1 (fun a b => plain (sar a b)) s
def execRol (o : Op) (s : State) : Out := iOp 0x13 o 1 (fun a b => plain (rol a b)) s
def execMul (o : Op) (s : State) : Out := iOp 0x18 o 3 mulV s
def execMulh (o : Op) (s : State) : Out := iOp 0x19 o 3 (fun a b => plain (mulh a b)) s
def execMin (o : Op) (s : State) : Out := iOp 0x20 o 1 (fun a b => plain (if a.toInt ≤ b.toInt then a else b)) s
def execMax (o : Op) (s : State) : Out := iOp 0x21 o 1 (fun a b => plain (if b.toInt ≤ a.toInt then a else b)) s
def execBitrev (o : Op) (s : State) : Out := iOp 0x25 o 1 (fun a b => plain (bitrev a b)) s

/-- A division: quotient to A[D], remainder to A[D + 1], both after 18 cycles; a zero divisor sets Z and makes DIVZERO
pending when it is enabled (R205, R206, R227, R252). An odd D is illegal (R233). -/
def divOp (op : Nat) (o : Op) (f : Word → Word → Word × Word × Bool × Bool) (s : State) : Out :=
  iIssue op o (fun x =>
    let r := f (x.getA o.a.val) (x.bI o.m.val o.b.val)
    let y := ((x.iflag r.2.2.1 r.2.2.2).flyA 18 o.d.val r.1).flyA 18 (o.d.val + 1) r.2.1
    if r.2.2.2 && y.ten.getLsbD 1 then { y with pendDivz := true, heldDivz := false } else y) s

def execDivs (o : Op) (s : State) : Out := divOp 0x1A o divs s
def execDivu (o : Op) (s : State) : Out := divOp 0x1B o divu s

/-- R250: to the predicate D[2:0] under the condition D[5:3]. -/
def execCmp (o : Op) (s : State) : Out :=
  iIssue 0x22 o (fun x =>
    x.flyP 1 (o.d.val % 8) (cmpI (o.d.val / 8) (x.getA o.a.val) (x.bI o.m.val o.b.val))) s

/-- R251: the immediate stands in the A and B fields. -/
def execMovi (o : Op) (imm : BitVec 12) (s : State) : Out :=
  s.legal o 2 (illegalI (o.moviWord imm)) (.next (s.issue o fun x => x.flyA 1 o.d.val (imm.signExtend 32)))

/-- R253: D is a source as well. -/
def execAmod (o : Op) (s : State) : Out :=
  iIssue 0x24 o (fun x =>
    x.flyA 1 o.d.val (amod (x.getA o.d.val) (x.getA o.a.val) (x.bI o.m.val o.b.val))) s

/-- R271: 64 bits to an F register, or 32 bits to an A register; an A register above A31 or an immediate whose upper
half is not 0 makes the bundle illegal (R178). -/
def execLongImmediate (o : Op) (isF : Bool) (imm : BitVec 64) (s : State) : Out :=
  s.legal o 5 (illegalLimm (o.limmBits isF imm)) (.next (s.issue o fun x =>
    if isF then x.flyF 1 o.d.val imm else x.flyA 1 o.d.val (lane0 imm)))

end Sys2Proof.Machine
end

