-- ==== Sys2Proof/Machine/UnitM.lean ====
section
/-! DEFINITION. The floating-point operations of slots M0 and M1 (R236–R247). -/

namespace Sys2Proof.Machine

/-- The result of a lane function on both lanes of a, b′ and d, with the flags of both lanes (R219). -/
def laneOp (f : Word → Word → Word → Word × Fp.Flags) (a b d : Dword) : Dword × BitVec 3 :=
  let l0 := f (lane0 a) (lane0 b) (lane0 d)
  let l1 := f (lane1 a) (lane1 b) (lane1 d)
  (lanes l0.1 l1.1, (l0.2.or l1.2).bits)

/-- An M-slot operation of opcode `op`, checked against R179 items 1 and 2 before it issues. -/
def mIssue (op : Nat) (o : Op) (act : UnitSt → UnitSt) (s : State) : Out :=
  s.legal o (if o.second then 1 else 0) (illegalM (o.word op)) (.next (s.issue o act))

/-- An M-slot operation: reads A, b′ and D at issue, sets its flags, and lands in D after its latency. -/
def mOp (op : Nat) (o : Op) (lat : Nat) (f : Word → Word → Word → Word × Fp.Flags) (s : State) : Out :=
  mIssue op o (fun x =>
    let r := laneOp f (x.getF o.a.val) (bPrime o.m.val (x.getF o.b.val)) (x.getF o.d.val)
    (x.fflag r.2).flyF lat o.d.val r.1) s

/-- A lane function without flags. -/
def quiet (w : Word) : Word × Fp.Flags := (w, {})

def execFma (o : Op) (s : State) : Out := mOp 0x01 o 4 (fun a b d => Fp.fma d a b) s
def execFms (o : Op) (s : State) : Out := mOp 0x02 o 4 (fun a b d => Fp.fms d a b) s
def execFnma (o : Op) (s : State) : Out := mOp 0x03 o 4 (fun a b d => Fp.fnma d a b) s
def execFmul (o : Op) (s : State) : Out := mOp 0x04 o 4 (fun a b _ => Fp.mul a b) s
def execFadd (o : Op) (s : State) : Out := mOp 0x05 o 4 (fun a b _ => Fp.add a b) s
def execFsub (o : Op) (s : State) : Out := mOp 0x06 o 4 (fun a b _ => Fp.sub a b) s
/-- R224. -/
def execFmin (o : Op) (s : State) : Out := mOp 0x07 o 4 (fun a b _ => quiet (Fp.min a b)) s
/-- R224. -/
def execFmax (o : Op) (s : State) : Out := mOp 0x08 o 4 (fun a b _ => quiet (Fp.max a b)) s
/-- R239. -/
def execFabs (o : Op) (s : State) : Out := mOp 0x09 o 4 (fun a _ _ => quiet (Fp.abs a)) s
/-- R239. -/
def execFneg (o : Op) (s : State) : Out := mOp 0x0A o 4 (fun a _ _ => quiet (Fp.negate a)) s
/-- R241: lane 0 only, to the predicate D[2:0] under the condition D[5:3]. -/
def execFcmp (o : Op) (s : State) : Out :=
  mIssue 0x0B o (fun x =>
    x.flyP 4 (o.d.val % 8)
      (Fp.cmp (o.d.val / 8) (lane0 (x.getF o.a.val)) (lane0 (bPrime o.m.val (x.getF o.b.val))))) s
/-- R242. -/
def execFsel (o : Op) (s : State) : Out :=
  mOp 0x0C o 4 (fun a b d => quiet (Fp.move (if Fp.sign d then b else a))) s
/-- R243. -/
def execFramp (o : Op) (s : State) : Out := mOp 0x0D o 4 (fun a b d => Fp.ramp d a b) s
/-- R244. -/
def execFsat (o : Op) (s : State) : Out := mOp 0x0E o 4 (fun a b _ => quiet (Fp.sat a b)) s
/-- R245. -/
def execFscrub (o : Op) (s : State) : Out := mOp 0x0F o 4 (fun a _ _ => quiet (Fp.scrub a)) s
/-- R239. -/
def execFmov (o : Op) (s : State) : Out := mOp 0x10 o 4 (fun a _ _ => quiet (Fp.move a)) s
/-- R238, R239: the lanes of A exchanged. -/
def execFswap (o : Op) (s : State) : Out :=
  mIssue 0x11 o (fun x =>
    let a := x.getF o.a.val
    x.flyF 4 o.d.val (lanes (Fp.move (lane1 a)) (Fp.move (lane0 a)))) s
/-- R246: B[0] selects the direction. -/
def execFcvt (o : Op) (s : State) : Out :=
  mIssue 0x12 o (fun x =>
    let a := x.getF o.a.val
    let f := if o.b.val % 2 = 0 then Fp.toInt else Fp.ofInt
    x.flyF 4 o.d.val (lanes (f (lane0 a)) (f (lane1 a)))) s
def execFrcp (o : Op) (s : State) : Out := mOp 0x18 o 8 (fun a _ _ => Fp.rcp a) s
def execFrsq (o : Op) (s : State) : Out := mOp 0x19 o 8 (fun a _ _ => Fp.rsq a) s
def execFexp2 (o : Op) (s : State) : Out := mOp 0x1A o 8 (fun a _ _ => Fp.exp2 a) s
def execFlog2 (o : Op) (s : State) : Out := mOp 0x1B o 8 (fun a _ _ => Fp.log2 a) s

end Sys2Proof.Machine
end

