-- ==== Sys2Proof/Machine/Dispatch.lean ====
section
/-! DEFINITION. The dispatch of a command to its meaning: one arm per constructor. -/

namespace Sys2Proof.Machine

def exec (i : Instr) (s : State) : Host.Outcome State Fault Refusal :=
  match i with
  | .fma o => Sys2Proof.Machine.execFma o s
  | .fms o => Sys2Proof.Machine.execFms o s
  | .fnma o => Sys2Proof.Machine.execFnma o s
  | .fmul o => Sys2Proof.Machine.execFmul o s
  | .fadd o => Sys2Proof.Machine.execFadd o s
  | .fsub o => Sys2Proof.Machine.execFsub o s
  | .fmin o => Sys2Proof.Machine.execFmin o s
  | .fmax o => Sys2Proof.Machine.execFmax o s
  | .fabs o => Sys2Proof.Machine.execFabs o s
  | .fneg o => Sys2Proof.Machine.execFneg o s
  | .fcmp o => Sys2Proof.Machine.execFcmp o s
  | .fsel o => Sys2Proof.Machine.execFsel o s
  | .framp o => Sys2Proof.Machine.execFramp o s
  | .fsat o => Sys2Proof.Machine.execFsat o s
  | .fscrub o => Sys2Proof.Machine.execFscrub o s
  | .fmov o => Sys2Proof.Machine.execFmov o s
  | .fswap o => Sys2Proof.Machine.execFswap o s
  | .fcvt o => Sys2Proof.Machine.execFcvt o s
  | .frcp o => Sys2Proof.Machine.execFrcp o s
  | .frsq o => Sys2Proof.Machine.execFrsq o s
  | .fexp2 o => Sys2Proof.Machine.execFexp2 o s
  | .flog2 o => Sys2Proof.Machine.execFlog2 o s
  | .add o => Sys2Proof.Machine.execAdd o s
  | .sub o => Sys2Proof.Machine.execSub o s
  | .adds o => Sys2Proof.Machine.execAdds o s
  | .subs o => Sys2Proof.Machine.execSubs o s
  | .neg o => Sys2Proof.Machine.execNeg o s
  | .negs o => Sys2Proof.Machine.execNegs o s
  | .and o => Sys2Proof.Machine.execAnd o s
  | .or o => Sys2Proof.Machine.execOr o s
  | .xor o => Sys2Proof.Machine.execXor o s
  | .not o => Sys2Proof.Machine.execNot o s
  | .shl o => Sys2Proof.Machine.execShl o s
  | .shr o => Sys2Proof.Machine.execShr o s
  | .sar o => Sys2Proof.Machine.execSar o s
  | .rol o => Sys2Proof.Machine.execRol o s
  | .mul o => Sys2Proof.Machine.execMul o s
  | .mulh o => Sys2Proof.Machine.execMulh o s
  | .divs o => Sys2Proof.Machine.execDivs o s
  | .divu o => Sys2Proof.Machine.execDivu o s
  | .min o => Sys2Proof.Machine.execMin o s
  | .max o => Sys2Proof.Machine.execMax o s
  | .cmp o => Sys2Proof.Machine.execCmp o s
  | .movi o imm => Sys2Proof.Machine.execMovi o imm s
  | .amod o => Sys2Proof.Machine.execAmod o s
  | .bitrev o => Sys2Proof.Machine.execBitrev o s
  | .ldl32a o e => Sys2Proof.Machine.execLdl32a o e s
  | .ldl32f o e => Sys2Proof.Machine.execLdl32f o e s
  | .ldl64 o e => Sys2Proof.Machine.execLdl64 o e s
  | .stl32a o e => Sys2Proof.Machine.execStl32a o e s
  | .stl32f o e => Sys2Proof.Machine.execStl32f o e s
  | .stl64 o => Sys2Proof.Machine.execStl64 o s
  | .lds32a o => Sys2Proof.Machine.execLds32a o s
  | .lds32f o => Sys2Proof.Machine.execLds32f o s
  | .lds64 o => Sys2Proof.Machine.execLds64 o s
  | .sts32a o => Sys2Proof.Machine.execSts32a o s
  | .sts32f o => Sys2Proof.Machine.execSts32f o s
  | .sts64 o => Sys2Proof.Machine.execSts64 o s
  | .ldsB256 o => Sys2Proof.Machine.execLdsB256 o s
  | .ldp o => Sys2Proof.Machine.execLdp o s
  | .ldt o => Sys2Proof.Machine.execLdt o s
  | .movfa o => Sys2Proof.Machine.execMovfa o s
  | .movaf o => Sys2Proof.Machine.execMovaf o s
  | .br o t => Sys2Proof.Machine.execBr o t s
  | .brc o t cp sense => Sys2Proof.Machine.execBrc o t cp sense s
  | .call o t => Sys2Proof.Machine.execCall o t s
  | .ret o => Sys2Proof.Machine.execRet o s
  | .loop o level c fin => Sys2Proof.Machine.execLoop o level c fin s
  | .halt o => Sys2Proof.Machine.execHalt o s
  | .trap o code => Sys2Proof.Machine.execTrap o code s
  | .sync o => Sys2Proof.Machine.execSync o s
  | .waitdma o => Sys2Proof.Machine.execWaitdma o s
  | .movs o sreg => Sys2Proof.Machine.execMovs o sreg s
  | .movx o sreg => Sys2Proof.Machine.execMovx o sreg s
  | .rett o => Sys2Proof.Machine.execRett o s
  | .longImmediate o isF imm => Sys2Proof.Machine.execLongImmediate o isF imm s
  | .resultLands u => Sys2Proof.Machine.execResultLands u s
  | .trapEntry g => Sys2Proof.Machine.execTrapEntry g s
  | .syncRelease c => Sys2Proof.Machine.execSyncRelease c s
  | .waitdmaRelease u => Sys2Proof.Machine.execWaitdmaRelease u s
  | .firingEnd c => Sys2Proof.Machine.execFiringEnd c s
  | .shmReadCycle c t m e => Sys2Proof.Machine.execShmReadCycle c t m e s
  | .shmWriteCycle c t m e => Sys2Proof.Machine.execShmWriteCycle c t m e s
  | .dmaTransferStart c => Sys2Proof.Machine.execDmaTransferStart c s
  | .dmaTransferComplete c e bad => Sys2Proof.Machine.execDmaTransferComplete c e bad s
  | .peekCopy c => Sys2Proof.Machine.execPeekCopy c s
  | .frameStartMarker d inputs => Sys2Proof.Machine.execFrameStartMarker d inputs s
  | .regionClockStart g => Sys2Proof.Machine.execRegionClockStart g s
  | .adpllLock g => Sys2Proof.Machine.execAdpllLock g s
  | .bypassFallback g => Sys2Proof.Machine.execBypassFallback g s
  | .adpllLossOfLock g => Sys2Proof.Machine.execAdpllLossOfLock g s
  | .preheat c => Sys2Proof.Machine.execPreheat c s
  | .firingStart c f codeOk corr bad => Sys2Proof.Machine.execFiringStart c f codeOk corr bad s
  | .glazeSectionStart c late => Sys2Proof.Machine.execGlazeSectionStart c late s
  | .firingBudgetExhausted c => Sys2Proof.Machine.execFiringBudgetExhausted c s
  | .executionDeadline c => Sys2Proof.Machine.execExecutionDeadline c s
  | .regionClockStop g => Sys2Proof.Machine.execRegionClockStop g s
  | .scheduleSwitch d => Sys2Proof.Machine.execScheduleSwitch d s
  | .admissionComplete => Sys2Proof.Machine.execAdmissionComplete s
  | .readmission d => Sys2Proof.Machine.execReadmission d s
  | .spareRotation g => Sys2Proof.Machine.execSpareRotation g s
  | .spareTestDone g pass => Sys2Proof.Machine.execSpareTestDone g pass s
  | .paramSet h ramp l items => Sys2Proof.Machine.execParamSet h ramp l items s
  | .pour h r => Sys2Proof.Machine.execPour h r s
  | .pourCancel h tag => Sys2Proof.Machine.execPourCancel h tag s
  | .route h ramp law l items => Sys2Proof.Machine.execRoute h ramp law l items s
  | .meterSubOpen h period addr points buf => Sys2Proof.Machine.execMeterSubOpen h period addr points buf s
  | .meterSubClose h n => Sys2Proof.Machine.execMeterSubClose h n s
  | .progLoad h kind ring entry length => Sys2Proof.Machine.execProgLoad h kind ring entry length s
  | .schedAdmit h kind ring length => Sys2Proof.Machine.execSchedAdmit h kind ring length s
  | .schedAdmitArm h => Sys2Proof.Machine.execSchedAdmitArm h s
  | .schedAdmitReadmit h indices => Sys2Proof.Machine.execSchedAdmitReadmit h indices s
  | .storeFormat h => Sys2Proof.Machine.execStoreFormat h s
  | .storeShare h dev slot => Sys2Proof.Machine.execStoreShare h dev slot s
  | .storeList h addr first count => Sys2Proof.Machine.execStoreList h addr first count s
  | .storeRecIn h outSi maskAddr tracks domain name => Sys2Proof.Machine.execStoreRecIn h outSi maskAddr tracks domain name s
  | .storeRecOut h tag => Sys2Proof.Machine.execStoreRecOut h tag s
  | .storePlay h no recTrack track offset len => Sys2Proof.Machine.execStorePlay h no recTrack track offset len s
  | .storeStop h tag => Sys2Proof.Machine.execStoreStop h tag s
  | .storeExport h ring no track first len mode => Sys2Proof.Machine.execStoreExport h ring no track first len mode s
  | .storeImport h ring rate count length name => Sys2Proof.Machine.execStoreImport h ring rate count length name s
  | .storeDelete h no => Sys2Proof.Machine.execStoreDelete h no s
  | .netStreamTx h addr r => Sys2Proof.Machine.execNetStreamTx h addr r s
  | .netStreamRx h addr r => Sys2Proof.Machine.execNetStreamRx h addr r s
  | .netStreamDel h dir n => Sys2Proof.Machine.execNetStreamDel h dir n s
  | .netStreamStat h dir first count addr => Sys2Proof.Machine.execNetStreamStat h dir first count addr s
  | .netClsRule h addr r => Sys2Proof.Machine.execNetClsRule h addr r s
  | .netCue h r => Sys2Proof.Machine.execNetCue h r s
  | .netJoin h port op addr group source => Sys2Proof.Machine.execNetJoin h port op addr group source s
  | .netWlRoute h addr entries => Sys2Proof.Machine.execNetWlRoute h addr entries s
  | .netWlFlowTx h addr r => Sys2Proof.Machine.execNetWlFlowTx h addr r s
  | .netWlFlowRx h addr r => Sys2Proof.Machine.execNetWlFlowRx h addr r s
  | .netWlFlowDel h dir port src flow => Sys2Proof.Machine.execNetWlFlowDel h dir port src flow s
  | .netWlTransit h port cells => Sys2Proof.Machine.execNetWlTransit h port cells s
  | .netWlParam h dev ramp addr items => Sys2Proof.Machine.execNetWlParam h dev ramp addr items s
  | .netWlDistribute h digest addr peers => Sys2Proof.Machine.execNetWlDistribute h digest addr peers s
  | .trustAttest h nonce addr => Sys2Proof.Machine.execTrustAttest h nonce addr s
  | .trustClaim h code addr owner sigOk => Sys2Proof.Machine.execTrustClaim h code addr owner sigOk s
  | .trustRelease h ring length => Sys2Proof.Machine.execTrustRelease h ring length s
  | .trustPolicy h ring length => Sys2Proof.Machine.execTrustPolicy h ring length s
  | .trustMembers h ring length => Sys2Proof.Machine.execTrustMembers h ring length s
  | .trustHouse h ring length => Sys2Proof.Machine.execTrustHouse h ring length s
  | .trustFw h ring length => Sys2Proof.Machine.execTrustFw h ring length s
  | .trustCert h addr => Sys2Proof.Machine.execTrustCert h addr s
  | .trustDebugChallenge h => Sys2Proof.Machine.execTrustDebugChallenge h s
  | .trustDebugUnlock h ring length => Sys2Proof.Machine.execTrustDebugUnlock h ring length s
  | .hush h groups => Sys2Proof.Machine.execHush h groups s
  | .queryPath h dst src => Sys2Proof.Machine.execQueryPath h dst src s
  | .queryPeek h cluster addr => Sys2Proof.Machine.execQueryPeek h cluster addr s
  | .queryClear h clusters regions => Sys2Proof.Machine.execQueryClear h clusters regions s
  | .queryValue h handle => Sys2Proof.Machine.execQueryValue h handle s
  | .pourCompileDone => Sys2Proof.Machine.execPourCompileDone s
  | .pourMessageReceived m authOk => Sys2Proof.Machine.execPourMessageReceived m authOk s
  | .pourReportMessage dev m authOk => Sys2Proof.Machine.execPourReportMessage dev m authOk s
  | .pourMessageResend tag dev => Sys2Proof.Machine.execPourMessageResend tag dev s
  | .pourStart origin tag => Sys2Proof.Machine.execPourStart origin tag s
  | .pourCancelApply origin tag => Sys2Proof.Machine.execPourCancelApply origin tag s
  | .pourReportTimeout tag dev => Sys2Proof.Machine.execPourReportTimeout tag dev s
  | .candidateQualified n k => Sys2Proof.Machine.execCandidateQualified n k s
  | .candidateLoss n k => Sys2Proof.Machine.execCandidateLoss n k s
  | .revertWtrExpiry n k => Sys2Proof.Machine.execRevertWtrExpiry n k s
  | .mpllComparison n p word => Sys2Proof.Machine.execMpllComparison n p word s
  | .lockCriterion n => Sys2Proof.Machine.execLockCriterion n s
  | .phaseExcursion n => Sys2Proof.Machine.execPhaseExcursion n s
  | .bandwidthHalving n => Sys2Proof.Machine.execBandwidthHalving n s
  | .refxoFail => Sys2Proof.Machine.execRefxoFail s
  | .clkMpllDcoWrite n word => Sys2Proof.Machine.execClkMpllDcoWrite n word s
  | .roastStart n => Sys2Proof.Machine.execRoastStart n s
  | .roastAbort n ticks => Sys2Proof.Machine.execRoastAbort n ticks s
  | .roastProfileBegin n => Sys2Proof.Machine.execRoastProfileBegin n s
  | .roastSegmentEnd n => Sys2Proof.Machine.execRoastSegmentEnd n s
  | .renumbering d delta => Sys2Proof.Machine.execRenumbering d delta s
  | .alignComplete d => Sys2Proof.Machine.execAlignComplete d s
  | .txStampDrain x => Sys2Proof.Machine.execTxStampDrain x s
  | .triggerArm k domain => Sys2Proof.Machine.execTriggerArm k domain s
  | .triggerCancel k => Sys2Proof.Machine.execTriggerCancel k s
  | .triggerFire k => Sys2Proof.Machine.execTriggerFire k s
  | .timeSnap sec ns frac sp ss st => Sys2Proof.Machine.execTimeSnap sec ns frac sp ss st s
  | .doorbell value => Sys2Proof.Machine.execDoorbell value s
  | .urgentSlotCommit slot d commit => Sys2Proof.Machine.execUrgentSlotCommit slot d commit s
  | .urgentDispatch => Sys2Proof.Machine.execUrgentDispatch s
  | .descriptorDispatch d => Sys2Proof.Machine.execDescriptorDispatch d s
  | .commandCompletion => Sys2Proof.Machine.execCommandCompletion s
  | .eventHoldingDrain e => Sys2Proof.Machine.execEventHoldingDrain e s
  | .msixModerationExpiry v => Sys2Proof.Machine.execMsixModerationExpiry v s
  | .hostLinkReset => Sys2Proof.Machine.execHostLinkReset s
  | .linkRetrain width speed => Sys2Proof.Machine.execLinkRetrain width speed s
  | .hostRingCfgWrite ring value => Sys2Proof.Machine.execHostRingCfgWrite ring value s
  | .hostWinCtlWrite k value outstanding => Sys2Proof.Machine.execHostWinCtlWrite k value outstanding s
  | .windowDrainDone k => Sys2Proof.Machine.execWindowDrainDone k s
  | .dmaChStart n d => Sys2Proof.Machine.execDmaChStart n d s
  | .dmaChAbort n moved data => Sys2Proof.Machine.execDmaChAbort n moved data s
  | .dmaDescriptorDone n data next readBackOk => Sys2Proof.Machine.execDmaDescriptorDone n data next readBackOk s
  | .bulkBufferConsumed b e x => Sys2Proof.Machine.execBulkBufferConsumed b e x s
  | .imageTransferTimeout tag => Sys2Proof.Machine.execImageTransferTimeout tag s
  | .meterUpdate n values => Sys2Proof.Machine.execMeterUpdate n values s
  | .hushNFall => Sys2Proof.Machine.execHushNFall s
  | .hushNRise => Sys2Proof.Machine.execHushNRise s
  | .hushRampStart d => Sys2Proof.Machine.execHushRampStart d s
  | .netFrameReceived x f => Sys2Proof.Machine.execNetFrameReceived x f s
  | .streamPacketTx n => Sys2Proof.Machine.execStreamPacketTx n s
  | .streamLoss n => Sys2Proof.Machine.execStreamLoss n s
  | .netModuleInsert x a0 rateOk => Sys2Proof.Machine.execNetModuleInsert x a0 rateOk s
  | .netDdmPoll x a2 alarm los => Sys2Proof.Machine.execNetDdmPoll x a2 alarm los s
  | .netLinkChange x up => Sys2Proof.Machine.execNetLinkChange x up s
  | .macsecKeyAgreement x rolled rxSc => Sys2Proof.Machine.execMacsecKeyAgreement x rolled rxSc s
  | .wlTrainDone p => Sys2Proof.Machine.execWlTrainDone p s
  | .wlAlignDone p => Sys2Proof.Machine.execWlAlignDone p s
  | .wlAuthDone p r => Sys2Proof.Machine.execWlAuthDone p r s
  | .wlStateTimeout p => Sys2Proof.Machine.execWlStateTimeout p s
  | .wlRestartTimer p => Sys2Proof.Machine.execWlRestartTimer p s
  | .wlPortDown p => Sys2Proof.Machine.execWlPortDown p s
  | .wlCellReceived p c stamp nakFree tail => Sys2Proof.Machine.execWlCellReceived p c stamp nakFree tail s
  | .wlReplayTimeout p => Sys2Proof.Machine.execWlReplayTimeout p s
  | .wlCellTx p => Sys2Proof.Machine.execWlCellTx p s
  | .wlTimeCellTx p stamp markTime gm => Sys2Proof.Machine.execWlTimeCellTx p stamp markTime gm s
  | .wlTimeLoss p => Sys2Proof.Machine.execWlTimeLoss p s
  | .wlBundleTx d => Sys2Proof.Machine.execWlBundleTx d s
  | .wlFlowLoss p src flow => Sys2Proof.Machine.execWlFlowLoss p src flow s
  | .netWlParamTimeout h => Sys2Proof.Machine.execNetWlParamTimeout h s
  | .wlRetrain p => Sys2Proof.Machine.execWlRetrain p s
  | .aportStart p => Sys2Proof.Machine.execAportStart p s
  | .aportStop p => Sys2Proof.Machine.execAportStop p s
  | .aportUnderrun p k moved => Sys2Proof.Machine.execAportUnderrun p k moved s
  | .aportOverrun p k moved => Sys2Proof.Machine.execAportOverrun p k moved s
  | .aportFramingError g k => Sys2Proof.Machine.execAportFramingError g k s
  | .pairSwapDetect p => Sys2Proof.Machine.execPairSwapDetect p s
  | .aesRxLock n rate ratio => Sys2Proof.Machine.execAesRxLock n rate ratio s
  | .aesRxLockLoss n => Sys2Proof.Machine.execAesRxLockLoss n s
  | .aesCsBlock n a b => Sys2Proof.Machine.execAesCsBlock n a b s
  | .aesRxCsSnap n => Sys2Proof.Machine.execAesRxCsSnap n s
  | .aesTxCommit n => Sys2Proof.Machine.execAesTxCommit n s
  | .aesTxBlockStart n => Sys2Proof.Machine.execAesTxBlockStart n s
  | .aesTxStart n => Sys2Proof.Machine.execAesTxStart n s
  | .asrcNarrow a ratio => Sys2Proof.Machine.execAsrcNarrow a ratio s
  | .asrcRelease a => Sys2Proof.Machine.execAsrcRelease a s
  | .asrcRetrack a => Sys2Proof.Machine.execAsrcRetrack a s
  | .asrcRestart a => Sys2Proof.Machine.execAsrcRestart a s
  | .convEnWrite c en preset k => Sys2Proof.Machine.execConvEnWrite c en preset k s
  | .chainSettled c k => Sys2Proof.Machine.execChainSettled c k s
  | .rangeRequest n r k => Sys2Proof.Machine.execRangeRequest n r k s
  | .rangeChange n => Sys2Proof.Machine.execRangeChange n s
  | .compensationStep n k => Sys2Proof.Machine.execCompensationStep n k s
  | .jackDetectChange tb inserted k => Sys2Proof.Machine.execJackDetectChange tb inserted k s
  | .jackRemovalEdge k => Sys2Proof.Machine.execJackRemovalEdge k s
  | .jackClassified l => Sys2Proof.Machine.execJackClassified l s
  | .buttonAccepted ohms k => Sys2Proof.Machine.execButtonAccepted ohms k s
  | .buttonLevelMute n down k => Sys2Proof.Machine.execButtonLevelMute n down k s
  | .psEnWrite c en k => Sys2Proof.Machine.execPsEnWrite c en k s
  | .psPrechargeDone c => Sys2Proof.Machine.execPsPrechargeDone c s
  | .psShutdown c => Sys2Proof.Machine.execPsShutdown c s
  | .psRetry c => Sys2Proof.Machine.execPsRetry c s
  | .retryUsedReset c => Sys2Proof.Machine.execRetryUsedReset c s
  | .psSupplyFault mv => Sys2Proof.Machine.execPsSupplyFault mv s
  | .psSupplyRestart mv => Sys2Proof.Machine.execPsSupplyRestart mv s
  | .psThermalRead temp mv => Sys2Proof.Machine.execPsThermalRead temp mv s
  | .modulePoll slot mux r => Sys2Proof.Machine.execModulePoll slot mux r s
  | .slEnumerate p mods => Sys2Proof.Machine.execSlEnumerate p mods s
  | .slRestart p => Sys2Proof.Machine.execSlRestart p s
  | .servoCycle si => Sys2Proof.Machine.execServoCycle si s
  | .servoUpReceived p m u => Sys2Proof.Machine.execServoUpReceived p m u s
  | .servoFiringEnd k => Sys2Proof.Machine.execServoFiringEnd k s
  | .moduleLost p m => Sys2Proof.Machine.execModuleLost p m s
  | .touchUpReceived f touched => Sys2Proof.Machine.execTouchUpReceived f touched s
  | .servoCut k => Sys2Proof.Machine.execServoCut k s
  | .faderStall f => Sys2Proof.Machine.execFaderStall f s
  | .lawCommit => Sys2Proof.Machine.execLawCommit s
  | .storeDriveChange n d => Sys2Proof.Machine.execStoreDriveChange n d s
  | .chunkWrite no track => Sys2Proof.Machine.execChunkWrite no track s
  | .recordOverrun no track => Sys2Proof.Machine.execRecordOverrun no track s
  | .journalCut => Sys2Proof.Machine.execJournalCut s
  | .journalCommit lbas => Sys2Proof.Machine.execJournalCommit lbas s
  | .punchIn tag => Sys2Proof.Machine.execPunchIn tag s
  | .punchOut no => Sys2Proof.Machine.execPunchOut no s
  | .playStart tag => Sys2Proof.Machine.execPlayStart tag s
  | .playUnderrun track chunk => Sys2Proof.Machine.execPlayUnderrun track chunk s
  | .storeMemberLost m => Sys2Proof.Machine.execStoreMemberLost m s
  | .storeMemberReturn m => Sys2Proof.Machine.execStoreMemberReturn m s
  | .smartPoll n kelvin => Sys2Proof.Machine.execSmartPoll n kelvin s
  | .powerGood f => Sys2Proof.Machine.execPowerGood f s
  | .supplyDip => Sys2Proof.Machine.execSupplyDip s
  | .warmRestart f => Sys2Proof.Machine.execWarmRestart f s
  | .powerFailWarning bytes t => Sys2Proof.Machine.execPowerFailWarning bytes t s
  | .warningEnd => Sys2Proof.Machine.execWarningEnd s
  | .vbatHandover => Sys2Proof.Machine.execVbatHandover s
  | .vddAonReturn cycles => Sys2Proof.Machine.execVddAonReturn cycles s
  | .pwrStandby bytes t => Sys2Proof.Machine.execPwrStandby bytes t s
  | .wake => Sys2Proof.Machine.execWake s
  | .warmAlarm => Sys2Proof.Machine.execWarmAlarm s
  | .wakeFail => Sys2Proof.Machine.execWakeFail s
  | .settingsAppend bytes t reach => Sys2Proof.Machine.execSettingsAppend bytes t reach s
  | .rangePipelineStop d => Sys2Proof.Machine.execRangePipelineStop d s
  | .rangeRestart d si => Sys2Proof.Machine.execRangeRestart d si s
  | .recoveryGo image f => Sys2Proof.Machine.execRecoveryGo image f s
  | .thermalHoldEnter temps => Sys2Proof.Machine.execThermalHoldEnter temps s
  | .thermalHoldLeave temps => Sys2Proof.Machine.execThermalHoldLeave temps s
  | .pairEnWrite value => Sys2Proof.Machine.execPairEnWrite value s
  | .pairListenEnd => Sys2Proof.Machine.execPairListenEnd s
  | .leaseRenew => Sys2Proof.Machine.execLeaseRenew s
  | .renewReceived m => Sys2Proof.Machine.execRenewReceived m s
  | .ackReceived m => Sys2Proof.Machine.execAckReceived m s
  | .leaseTimerExpiry => Sys2Proof.Machine.execLeaseTimerExpiry s
  | .claimSend => Sys2Proof.Machine.execClaimSend s
  | .claimReceived m => Sys2Proof.Machine.execClaimReceived m s
  | .grantReceived m => Sys2Proof.Machine.execGrantReceived m s
  | .yield m => Sys2Proof.Machine.execYield m s
  | .yieldHandover => Sys2Proof.Machine.execYieldHandover s
  | .pairSwap => Sys2Proof.Machine.execPairSwap s
  | .pairResync => Sys2Proof.Machine.execPairResync s
  | .mirrorReceived m => Sys2Proof.Machine.execMirrorReceived m s
  | .digestSend => Sys2Proof.Machine.execDigestSend s
  | .digestReceived m => Sys2Proof.Machine.execDigestReceived m s
  | .verdictReceived m => Sys2Proof.Machine.execVerdictReceived m s
  | .verdictTimeout => Sys2Proof.Machine.execVerdictTimeout s
  | .replicaSend t => Sys2Proof.Machine.execReplicaSend t s
  | .resyncGroupCopy data last => Sys2Proof.Machine.execResyncGroupCopy data last s
  | .resyncTimeout => Sys2Proof.Machine.execResyncTimeout s
  | .bistGo test inst => Sys2Proof.Machine.execBistGo test inst s
  | .bistTestStart test inst => Sys2Proof.Machine.execBistTestStart test inst s
  | .bistDone test inst pass value => Sys2Proof.Machine.execBistDone test inst pass value s
  | .pinfnWrite k value => Sys2Proof.Machine.execPinfnWrite k value s
  | .pinfnChange k => Sys2Proof.Machine.execPinfnChange k s
  | .pinfnParkEnd k => Sys2Proof.Machine.execPinfnParkEnd k s
  | .schedSliceWrite reg value => Sys2Proof.Machine.execSchedSliceWrite reg value s
  | .pairLoRead off both => Sys2Proof.Machine.execPairLoRead off both s
  | .pairHiRead off => Sys2Proof.Machine.execPairHiRead off s
  | .schedCntClr => Sys2Proof.Machine.execSchedCntClr s
  | .hostCntClr => Sys2Proof.Machine.execHostCntClr s
  | .netxCntClr x => Sys2Proof.Machine.execNetxCntClr x s
  | .clsCntClr => Sys2Proof.Machine.execClsCntClr s
  | .wlxCntClr p => Sys2Proof.Machine.execWlxCntClr p s
  | .aportCntClr => Sys2Proof.Machine.execAportCntClr s
  | .aesCntClr => Sys2Proof.Machine.execAesCntClr s
  | .hubaCntClr => Sys2Proof.Machine.execHubaCntClr s
  | .surfCntClr => Sys2Proof.Machine.execSurfCntClr s
  | .storeCntClr => Sys2Proof.Machine.execStoreCntClr s
  | .pwrCntClr => Sys2Proof.Machine.execPwrCntClr s
  | .pairCntClr => Sys2Proof.Machine.execPairCntClr s
  | .bistCntClr => Sys2Proof.Machine.execBistCntClr s
  | .pinfnCntClr => Sys2Proof.Machine.execPinfnCntClr s
  | .globalCntClr => Sys2Proof.Machine.execGlobalCntClr s
  | .registerWrite bar2 off value be => Sys2Proof.Machine.execRegisterWrite bar2 off value be s
  | .ptpMessageTx x isEvent id requested stamp => Sys2Proof.Machine.execPtpMessageTx x isEvent id requested stamp s
  | .ptpPortStateChange x pstate gm => Sys2Proof.Machine.execPtpPortStateChange x pstate gm s
  | .netModuleRemoved x => Sys2Proof.Machine.execNetModuleRemoved x s
  | .macsecPeerLost x => Sys2Proof.Machine.execMacsecPeerLost x s
  | .wlModuleInsertion p r => Sys2Proof.Machine.execWlModuleInsertion p r s
  | .playbackChunkRead track chunk => Sys2Proof.Machine.execPlaybackChunkRead track chunk s
  | .storeIoError track => Sys2Proof.Machine.execStoreIoError track s
  | .retentionLoss => Sys2Proof.Machine.execRetentionLoss s
  | .trustCommandTimeout n => Sys2Proof.Machine.execTrustCommandTimeout n s
  | .replicaExpiry => Sys2Proof.Machine.execReplicaExpiry s
  | .blankToManufactured serial macs code chain => Sys2Proof.Machine.execBlankToManufactured serial macs code chain s

end Sys2Proof.Machine
end

