-- ==== Sys2Proof/Machine/Tick.lean ====
section
/-! DEFINITION. A cycle of the clocks: what the compute units, the cluster DMA, the glaze engine and the shared-memory ports do
whatever is commanded (R22, R24, R136, R145, R180, R186–R188, R272–R289, R312; log entry 1). -/

namespace Sys2Proof.Machine

/-- Operations one after another; each finds what the one before it left. -/
def runAll : List Instr → State → Out
  | [], s => .next s
  | i :: l, s =>
    match exec i s with
    | .next t => runAll l t
    | o => o

/-- The state an outcome leaves. -/
def stateOf (s : State) : Out → State
  | .next t => t
  | _ => s

/-- A running unit at a gap takes the chosen trap, or issues the operations of its next bundle in one cycle (R22, R176, R180,
R207). -/
def State.issueBundle (s : State) (u : Fin 516) : State :=
  let x := s.unit u.val
  if x.wait = .run ∧ x.mid = none then
    match s.gapTrap u.val with
    | some t => s.enterTrap u.val t
    | none =>
      let b := Tab.get 0 s.prog (1024 * u.val + x.pc)
      match bundleOps u b with
      | [] => s.setUnit u.val (x.endBundle (bundleRot b) false)
      | l => stateOf s (runAll l s)
  else s

/-- Section i of a glaze job is due at slot cycle c_g + i × (B + 4) (R312): whether it is, and whether that cycle has passed. -/
def State.glazeDue (s : State) (f : Firing) : Option Bool :=
  match f.entry.glaze with
  | none => none
  | some j =>
    let at_ := f.entry.seqCycles + j.startCycle + f.glazeDone * ((s.dom f.domain).block + 4)
    if f.glazeDone < j.count ∧ at_ ≤ f.clk then some (decide (at_ < f.clk)) else none

/-- One cycle of a cluster whose firing runs: its end or its cut, else each unit whose clock has been reached issues, waits that
are over end, the engines go on, and the port makes its access. -/
def State.tickCluster (s : State) (c : Fin 64) : State :=
  match (s.cluster c.val).firing with
  | none => s
  | some f =>
    if s.drained c.val then stateOf s (execFiringEnd c s)
    else if s.budgetSpent c.val then s.cut c.val 1
    else
      let s1 := s.each (List.finRange 8) fun u t =>
        let k : Fin 516 := ⟨8 * c.val + u.val, by omega⟩
        if (t.unit k.val).cyc ≤ f.clk then t.issueBundle k else t
      let s2 := stateOf s1 (execSyncRelease c s1)
      let s3 := s2.each (List.finRange 8) fun u t =>
        stateOf t (execWaitdmaRelease ⟨8 * c.val + u.val, by omega⟩ t)
      let s4 := stateOf s3 (execDmaTransferStart c s3)
      let s5 := match (s4.cluster c.val).firing.bind s4.glazeDue with
        | some late => stateOf s4 (execGlazeSectionStart c late s4)
        | none => s4
      s5.portCycle c.val false []

/-- A cycle of the clocks (DESIGN CHOICE, log entry 1): every firing cluster, and every servo unit that runs. -/
def State.tick (s : State) : State :=
  (s.each (List.finRange 64) fun c t => t.tickCluster c).each (List.finRange 4) fun k t =>
    t.issueBundle ⟨512 + k.val, by omega⟩

end Sys2Proof.Machine
end

