-- ==== Sys2Proof/Safety.lean ====
section
/-! DEFINITION. The terms in which claims about the block are made: when an operation issues, what it reads, and the forms
its result takes. -/

namespace Sys2Proof

/-- A register field outside the HOST block (0x0_4000 to 0x0_4FFF). -/
abbrev Fld.outsideHost (f : Fld) : Prop := f.off < 0x4000 ∨ 0x5000 ≤ f.off

end Sys2Proof

namespace Sys2Proof.Machine

/-- `t` differs from `s` at most in the HOST registers, the host part of the state and host memory, as after posting events. -/
structure SameButHost (s t : State) : Prop where
  pending : t.pending = s.pending
  latch : t.latch = s.latch
  staged : t.staged = s.staged
  ctr : t.ctr = s.ctr
  dram : t.dram = s.dram
  shm : t.shm = s.shm
  lmem : t.lmem = s.lmem
  dly : t.dly = s.dly
  glz : t.glz = s.glz
  stage : t.stage = s.stage
  prog : t.prog = s.prog
  units : t.units = s.units
  clusters : t.clusters = s.clusters
  regions : t.regions = s.regions
  xbar : t.xbar = s.xbar
  doms : t.doms = s.doms
  mix : t.mix = s.mix
  sched : t.sched = s.sched
  pours : t.pours = s.pours
  time : t.time = s.time
  net : t.net = s.net
  audio : t.audio = s.audio
  wl : t.wl = s.wl
  huba : t.huba = s.huba
  surf : t.surf = s.surf
  store : t.store = s.store
  pwr : t.pwr = s.pwr
  trust : t.trust = s.trust
  pair : t.pair = s.pair
  bist : t.bist = s.bist
  pins : t.pins = s.pins
  get : ∀ f : Fld, f.lo < 32 → f.outsideHost → t.get f = s.get f

/-- The unit of an operation issues it: the unit runs (R186), and the guard reads 1 (R189). -/
abbrev State.issues (s : State) (o : Op) : Prop :=
  (s.unit o.u.val).wait = .run ∧ (s.unit o.u.val).getP o.pred.val = true

/-- The values an operation reads at issue: F[A], b′ and F[D] of an M slot (R237), A[A] and b of slot I (R248). -/
def State.opA (s : State) (o : Op) : Dword := (s.unit o.u.val).getF o.a.val
def State.opB (s : State) (o : Op) : Dword := bPrime o.m.val ((s.unit o.u.val).getF o.b.val)
def State.opD (s : State) (o : Op) : Dword := (s.unit o.u.val).getF o.d.val
def State.intA (s : State) (o : Op) : Word := (s.unit o.u.val).getA o.a.val
def State.intB (s : State) (o : Op) : Word := (s.unit o.u.val).bI o.m.val o.b.val

/-- The state in which only the unit of an operation has changed: to `x`, followed by the end of the operation's bundle
where it is the bundle's last. -/
def State.leaves (s : State) (o : Op) (x : UnitSt) : State := s.setUnit o.u.val (x.after o)

/-- The unit of an operation as the operation finds it, its bundle marked as begun. -/
def State.finds (s : State) (o : Op) : UnitSt := (s.unit o.u.val).opened

/-- One result in flight, visible `lat` cycles after issue (R181). -/
def UnitSt.inFlight (x : UnitSt) (lat : Nat) (d : Dest) (v : Dword) : List Landing :=
  insLanding ⟨x.cyc + lat, d, v, x.cyc⟩ x.flight

/-- The operations of the M slots, of slot I and of slot L with their opcodes (R238, R249, R256); MOVI and LDT stand apart. -/
def mOps (o : Op) : List (Instr × Nat) :=
  [(.fma o, 0x01), (.fms o, 0x02), (.fnma o, 0x03), (.fmul o, 0x04), (.fadd o, 0x05), (.fsub o, 0x06), (.fmin o, 0x07),
   (.fmax o, 0x08), (.fabs o, 0x09), (.fneg o, 0x0A), (.fcmp o, 0x0B), (.fsel o, 0x0C), (.framp o, 0x0D), (.fsat o, 0x0E),
   (.fscrub o, 0x0F), (.fmov o, 0x10), (.fswap o, 0x11), (.fcvt o, 0x12), (.frcp o, 0x18), (.frsq o, 0x19),
   (.fexp2 o, 0x1A), (.flog2 o, 0x1B)]

def iOps (o : Op) : List (Instr × Nat) :=
  [(.add o, 0x01), (.sub o, 0x02), (.adds o, 0x03), (.subs o, 0x04), (.neg o, 0x05), (.negs o, 0x06), (.and o, 0x08),
   (.or o, 0x09), (.xor o, 0x0A), (.not o, 0x0B), (.shl o, 0x10), (.shr o, 0x11), (.sar o, 0x12), (.rol o, 0x13),
   (.mul o, 0x18), (.mulh o, 0x19), (.divs o, 0x1A), (.divu o, 0x1B), (.min o, 0x20), (.max o, 0x21), (.cmp o, 0x22),
   (.amod o, 0x24), (.bitrev o, 0x25)]

def lOps (o : Op) (e : Ecc) : List (Instr × Nat) :=
  [(.ldl32a o e, 0x01), (.ldl32f o e, 0x02), (.ldl64 o e, 0x03), (.stl32a o e, 0x04), (.stl32f o e, 0x05), (.stl64 o, 0x06),
   (.lds32a o, 0x09), (.lds32f o, 0x0A), (.lds64 o, 0x0B), (.sts32a o, 0x0C), (.sts32f o, 0x0D), (.sts64 o, 0x0E),
   (.ldsB256 o, 0x0F), (.ldp o, 0x10), (.movfa o, 0x12), (.movaf o, 0x13)]

/-- How an operation that its encoding places in a slot stops or passes: a word that breaks an item of R179 takes the trap of an
illegal bundle with that item and the slot's code, a guard that reads 0 leaves the end of the bundle alone, and a unit that does not
run issues nothing. -/
def SlotRules (i : Instr) (o : Op) (slot : Nat) (item : Option Nat) : Prop :=
  ∀ s : State,
    ((s.unit o.u.val).wait = .run → ∀ n, item = some n → exec i s = .next (s.faultTrap o.u.val 1 n slot)) ∧
    ((s.unit o.u.val).wait = .run → (s.unit o.u.val).getP o.pred.val = false → item = none →
      exec i s = .next (s.leaves o (s.finds o))) ∧
    ((s.unit o.u.val).wait ≠ .run → exec i s = .next s)

/-- An M-slot operation of opcode `op` whose fields its encoding allows, once issued, gives `f` of each lane of a, b′ and d to F[D]
after `lat` cycles, adds the flags of both lanes to those that join FFLAGS at the end of its bundle, and changes nothing else. -/
def FloatResult (i : Op → Instr) (op lat : Nat) (f : Word → Word → Word → Word × Fp.Flags) : Prop :=
  ∀ (o : Op) (s : State), s.issues o → illegalM (o.word op) = none →
    let x := s.finds o
    let l0 := f (lane0 (s.opA o)) (lane0 (s.opB o)) (lane0 (s.opD o))
    let l1 := f (lane1 (s.opA o)) (lane1 (s.opB o)) (lane1 (s.opD o))
    exec (i o) s = .next (s.leaves o { x with
      fnew := x.fnew ||| (l0.2.or l1.2).bits
      flight := x.inFlight lat (.f (x.phys o.d.val)) (lanes l0.1 l1.1) })

/-- An M-slot operation of opcode `op` without flags: `f` of each lane to F[D] after 4 cycles, and nothing else changes. -/
def FloatMove (i : Op → Instr) (op : Nat) (f : Word → Word → Word → Word) : Prop :=
  ∀ (o : Op) (s : State), s.issues o → illegalM (o.word op) = none →
    let x := s.finds o
    exec (i o) s = .next (s.leaves o { x with
      flight := x.inFlight 4 (.f (x.phys o.d.val))
        (lanes (f (lane0 (s.opA o)) (lane0 (s.opB o)) (lane0 (s.opD o)))
          (f (lane1 (s.opA o)) (lane1 (s.opB o)) (lane1 (s.opD o)))) })

/-- An I-slot operation of opcode `op` whose fields its encoding allows, once issued, gives `r` of a and b to A[D] after `lat`
cycles, sets V where `v` says, and changes nothing else. -/
def IntegerResult (i : Op → Instr) (op lat : Nat) (r : Word → Word → Word) (v : Word → Word → Prop) : Prop :=
  ∀ (o : Op) (s : State), s.issues o → illegalI (o.word op) = none →
    let x := s.finds o
    ∃ g : BitVec 3, (v (s.intA o) (s.intB o) → g = x.iflags ||| 1) ∧ (¬v (s.intA o) (s.intB o) → g = x.iflags) ∧
      exec (i o) s = .next (s.leaves o { x with
        iflags := g
        flight := x.inFlight lat (.a (o.d.val % 32)) (lanes (r (s.intA o) (s.intB o)) 0) })

/-- Registers and memories are in their canonical form: keys strictly rise, and nothing is listed that reads as an unlisted
key does. -/
structure State.Canonical (s : State) : Prop where
  regs : Tab.wf 0 s.regs = true
  dram : s.dram.wf = true
  shm : s.shm.wf = true
  lmem : s.lmem.wf = true
  dly : s.dly.wf = true
  glz : s.glz.wf = true
  stage : s.stage.wf = true
  hostMem : s.hostMem.wf = true

/-- A message of the partner on which the engine acts: authentic, of its pair, with its settings, and the first copy. -/
abbrev State.toldBy (s : State) (m : PairMsg) : Prop :=
  s.accepts m = true ∧ s.fromPartner m = true ∧ s.agrees m = true ∧
    (s.bit Reg.PAIR_CFG_NETBACK = false ∨ s.pair.seen.contains m = false)

/-- A message of another member's pair, for which the engine is the witness. -/
abbrev State.askedBy (s : State) (m : PairMsg) : Prop :=
  s.fromPartner m = false ∧ s.accepts m = true ∧ m.origin ≠ s.devnum ∧ m.pair ≠ s.devnum

/-- A command has finished since `s`: one completion more waits, and no other. -/
def Completed (s t : State) (h : CmdHdr) (op : Nat) (st : Status) (detail si result : Nat) : Prop :=
  t.host.done = s.host.done ++ [⟨h, op, st, detail, si, result, false⟩]

end Sys2Proof.Machine
end

