-- ==== Sys2Proof/Certificates/Slice0/Obligations.lean ====
section
/-! DEFINITION. The statements about the model that are to be proved. -/

open Sys2Proof Sys2Proof.Machine

/-- With the fields its encoding allows, an issued FMA, FMS, FNMA, FMUL, FADD, FSUB or FRAMP gives the model's binary32 result of each lane to F[D] 4 cycles after issue, and FRCP, FRSQ, FEXP2 and FLOG2 give theirs 8 cycles after issue; the flags of both lanes join those that reach FFLAGS at the end of the bundle. FMIN, FMAX and FSAT land their lane results 4 cycles after issue without a flag; FCMP writes its condition of lane 0 of a and b′ to predicate D[2:0] after 4 cycles; FCVT converts each lane in the direction B[0] selects. Nothing else changes. A NaN operand of FMIN or FMAX gives the other operand as FMOV delivers it, a NaN operand of FSAT gives 0x7FC0_0000, FSAT of a number by a zero gives +0.0, and with a NaN operand exactly the conditions NE and UN of FCMP hold. The result of an approximation is the choice the model leaves open within R225 (log entry 3). -/
def Obligations.FloatArithmetic : Prop :=
  FloatResult .fma 0x01 4 (fun a b d => Fp.fma d a b) ∧ FloatResult .fms 0x02 4 (fun a b d => Fp.fms d a b) ∧
  FloatResult .fnma 0x03 4 (fun a b d => Fp.fnma d a b) ∧ FloatResult .fmul 0x04 4 (fun a b _ => Fp.mul a b) ∧
  FloatResult .fadd 0x05 4 (fun a b _ => Fp.add a b) ∧ FloatResult .fsub 0x06 4 (fun a b _ => Fp.sub a b) ∧
  FloatResult .framp 0x0D 4 (fun a b d => Fp.ramp d a b) ∧ FloatResult .frcp 0x18 8 (fun a _ _ => Fp.rcp a) ∧
  FloatResult .frsq 0x19 8 (fun a _ _ => Fp.rsq a) ∧ FloatResult .fexp2 0x1A 8 (fun a _ _ => Fp.exp2 a) ∧
  FloatResult .flog2 0x1B 8 (fun a _ _ => Fp.log2 a) ∧
  FloatMove .fmin 0x07 (fun a b _ => Fp.min a b) ∧ FloatMove .fmax 0x08 (fun a b _ => Fp.max a b) ∧
  FloatMove .fsat 0x0E (fun a b _ => Fp.sat a b) ∧
  (∀ (o : Op) (s : State), s.issues o →
    let x := s.finds o
    exec (.fcmp o) s = .next (s.leaves o { x with
      flight := x.inFlight 4 (.p (o.d.val % 8))
        (if Fp.cmp (o.d.val / 8) (lane0 (s.opA o)) (lane0 (s.opB o)) then 1 else 0) }) ∧
    (illegalM (o.word 0x12) = none → exec (.fcvt o) s = .next (s.leaves o { x with
      flight := x.inFlight 4 (.f (x.phys o.d.val))
        (if o.b.val = 0 then lanes (Fp.toInt (lane0 (s.opA o))) (Fp.toInt (lane1 (s.opA o)))
         else lanes (Fp.ofInt (lane0 (s.opA o))) (Fp.ofInt (lane1 (s.opA o)))) }))) ∧
  (∀ a b : Word, Fp.isNaN a = true → Fp.isNaN b = false →
    Fp.min a b = Fp.move b ∧ Fp.min b a = Fp.move b ∧ Fp.max a b = Fp.move b ∧ Fp.max b a = Fp.move b) ∧
  (∀ a b : Word, Fp.isNaN a = true ∨ Fp.isNaN b = true → Fp.sat a b = 0x7FC00000 ∧
    ∀ c < 8, (Fp.cmp c a b = true ↔ c = 1 ∨ c = 6)) ∧
  (∀ a b : Word, Fp.isNaN a = false → Fp.isZero b = true → Fp.sat a b = 0)

/-- For every operand word of an issued operation with the fields its encoding allows: FMOV, FABS and FNEG turn a NaN into 0x7FC0_0000 and a subnormal into zero of the sign they give (R239); FSEL takes b′ where bit 31 of the lane of d is 1 and a otherwise, delivered as FMOV delivers it (R242); FSCRUB makes NaN +0.0, an infinity ±1.0 × 2^24 and a subnormal a zero of its sign (R245); FSWAP exchanges the lanes. Each result lands in F[D] 4 cycles after issue, no flag changes, and nothing else changes. -/
def Obligations.FloatMoves : Prop :=
  FloatMove .fmov 0x10 (fun a _ _ => if Fp.isNaN a then 0x7FC00000 else if Fp.isZero a then a &&& 0x80000000 else a) ∧
  FloatMove .fabs 0x09 (fun a _ _ => if Fp.isNaN a then 0x7FC00000 else if Fp.isZero a then 0 else a &&& 0x7FFFFFFF) ∧
  FloatMove .fneg 0x0A (fun a _ _ => if Fp.isNaN a then 0x7FC00000 else
    if Fp.isZero a then (a ^^^ 0x80000000) &&& 0x80000000 else a ^^^ 0x80000000) ∧
  FloatMove .fsel 0x0C (fun a b d => let v := if d.getLsbD 31 then b else a
    if Fp.isNaN v then 0x7FC00000 else if Fp.isZero v then v &&& 0x80000000 else v) ∧
  FloatMove .fscrub 0x0F (fun a _ _ => if Fp.isNaN a then 0 else
    if Fp.isInf a then (if Fp.sign a then 0xCB800000 else 0x4B800000) else
    if Fp.isZero a then a &&& 0x80000000 else a) ∧
  (∀ (o : Op) (s : State), s.issues o → illegalM (o.word 0x11) = none →
    let x := s.finds o
    let w := fun a : Word => if Fp.isNaN a then 0x7FC00000 else if Fp.isZero a then a &&& 0x80000000 else a
    exec (.fswap o) s = .next (s.leaves o { x with
      flight := x.inFlight 4 (.f (x.phys o.d.val)) (lanes (w (lane1 (s.opA o))) (w (lane0 (s.opA o)))) }))

/-- The I-slot operations of R249 that read a, or a and b, with one result: each, issued with the fields its encoding allows, gives the row's value to A[D] after the row's latency, sets the sticky V exactly where the row has V and the exact signed result does not fit in 32 bits, and changes nothing else. SHL, SHR and SAR shift by b[7:0], of which 32 and more shift every bit out, ROL turns by b[7:0] mod 32, and BITREV reverses the low min(b[7:0], 32) bits of a. -/
def Obligations.IntegerArithmetic : Prop :=
  IntegerResult .add 0x01 1 (fun a b => a + b) (fun a b => (a + b).toInt ≠ a.toInt + b.toInt) ∧
  IntegerResult .sub 0x02 1 (fun a b => a - b) (fun a b => (a - b).toInt ≠ a.toInt - b.toInt) ∧
  IntegerResult .adds 0x03 1 (fun a b => BitVec.ofInt 32 (max (-2 ^ 31) (min (2 ^ 31 - 1) (a.toInt + b.toInt))))
    (fun a b => (a + b).toInt ≠ a.toInt + b.toInt) ∧
  IntegerResult .subs 0x04 1 (fun a b => BitVec.ofInt 32 (max (-2 ^ 31) (min (2 ^ 31 - 1) (a.toInt - b.toInt))))
    (fun a b => (a - b).toInt ≠ a.toInt - b.toInt) ∧
  IntegerResult .neg 0x05 1 (fun a _ => -a) (fun a _ => a = 0x80000000) ∧
  IntegerResult .negs 0x06 1 (fun a _ => if a = 0x80000000 then 0x7FFFFFFF else -a) (fun a _ => a = 0x80000000) ∧
  IntegerResult .and 0x08 1 (fun a b => a &&& b) (fun _ _ => False) ∧
  IntegerResult .or 0x09 1 (fun a b => a ||| b) (fun _ _ => False) ∧
  IntegerResult .xor 0x0A 1 (fun a b => a ^^^ b) (fun _ _ => False) ∧
  IntegerResult .not 0x0B 1 (fun a _ => ~~~a) (fun _ _ => False) ∧
  IntegerResult .shl 0x10 1 (fun a b => a <<< (b.toNat % 256)) (fun _ _ => False) ∧
  IntegerResult .shr 0x11 1 (fun a b => a >>> (b.toNat % 256)) (fun _ _ => False) ∧
  IntegerResult .sar 0x12 1 (fun a b => a.sshiftRight (b.toNat % 256)) (fun _ _ => False) ∧
  IntegerResult .rol 0x13 1 (fun a b => a.rotateLeft (b.toNat % 256 % 32)) (fun _ _ => False) ∧
  IntegerResult .mul 0x18 3 (fun a b => a * b) (fun a b => (a * b).toInt ≠ a.toInt * b.toInt) ∧
  IntegerResult .mulh 0x19 3 (fun a b => BitVec.ofInt 32 ((a.toInt * b.toInt).fdiv (2 ^ 32))) (fun _ _ => False) ∧
  IntegerResult .min 0x20 1 (fun a b => if b.toInt < a.toInt then b else a) (fun _ _ => False) ∧
  IntegerResult .max 0x21 1 (fun a b => if a.toInt < b.toInt then b else a) (fun _ _ => False) ∧
  IntegerResult .bitrev 0x25 1 bitrev (fun _ _ => False) ∧
  (∀ (a b : Word) (j : Nat), (bitrev a b).getLsbD j =
    if j < min (b.toNat % 256) 32 then a.getLsbD (min (b.toNat % 256) 32 - 1 - j) else a.getLsbD j)

/-- With the fields its encoding allows (D even among them) an issued DIVS or DIVU puts the quotient in flight to A[D] and the remainder to A[D + 1], both 18 cycles after issue, sets V and Z as R227 gives, makes DIVZERO pending for a zero divisor while it is enabled, and changes nothing else. With an odd D a running unit takes the trap of an illegal bundle under item 1 instead. Off the edges of R227 the quotient q and remainder r satisfy q × b + r = a with r below b in magnitude, and for DIVS of the sign of a; on the edges they are the rows of R227. -/
def Obligations.IntegerDivision : Prop :=
  (∀ (o : Op) (s : State), s.issues o →
    let x := s.finds o
    let y := fun (r : Word × Word × Bool × Bool) => { x with
      iflags := x.iflags ||| (if r.2.2.1 then 1 else 0) ||| (if r.2.2.2 then 2 else 0)
      flight := insLanding ⟨x.cyc + 18, .a ((o.d.val + 1) % 32), lanes r.2.1 0, x.cyc⟩
        (x.inFlight 18 (.a (o.d.val % 32)) (lanes r.1 0))
      pendDivz := x.pendDivz || (r.2.2.2 && x.ten.getLsbD 1)
      heldDivz := x.heldDivz && !(r.2.2.2 && x.ten.getLsbD 1) }
    (illegalI (o.word 0x1A) = none → exec (.divs o) s = .next (s.leaves o (y (divs (s.intA o) (s.intB o))))) ∧
    (illegalI (o.word 0x1B) = none → exec (.divu o) s = .next (s.leaves o (y (divu (s.intA o) (s.intB o)))))) ∧
  (∀ (o : Op) (s : State), (s.unit o.u.val).wait = .run → o.d.val % 2 = 1 →
    exec (.divs o) s = .next (s.faultTrap o.u.val 1 1 2) ∧ exec (.divu o) s = .next (s.faultTrap o.u.val 1 1 2)) ∧
  (∀ a b : Word, b ≠ 0 → ¬(a = 0x80000000 ∧ b = 0xFFFFFFFF) →
    (divs a b).1.toInt * b.toInt + (divs a b).2.1.toInt = a.toInt ∧
    (divs a b).2.1.toInt.natAbs < b.toInt.natAbs ∧ 0 ≤ (divs a b).2.1.toInt * a.toInt ∧ (divs a b).2.2 = (false, false)) ∧
  (∀ a : Word, divs a 0 = (if a.toInt < 0 then 0x80000000 else 0x7FFFFFFF, a, false, true) ∧
    divu a 0 = (0xFFFFFFFF, a, false, true)) ∧
  divs 0x80000000 0xFFFFFFFF = (0x7FFFFFFF, 0, true, false) ∧
  (∀ a b : Word, b ≠ 0 → (divu a b).1.toNat * b.toNat + (divu a b).2.1.toNat = a.toNat ∧
    (divu a b).2.1.toNat < b.toNat ∧ (divu a b).2.2 = (false, false))

/-- With the fields its encoding allows, an issued CMP writes the condition D[5:3] of a and b to predicate D[2:0] after 1 cycle, and the eight conditions are those of R250; MOVI gives its 12-bit immediate sign-extended and AMOD gives (d AND NOT b) OR ((d + a) AND b), each to A[D] after 1 cycle; a long immediate gives its 64 bits to F[D], or its low 32 bits to A[D] where D is below 32 and the upper half is 0, and the trap of an illegal bundle otherwise. Nothing else changes. -/
def Obligations.ComparesAndImmediates : Prop :=
  (∀ (o : Op) (s : State), s.issues o →
    let x := s.finds o
    (illegalI (o.word 0x22) = none → exec (.cmp o) s = .next (s.leaves o { x with
      flight := x.inFlight 1 (.p (o.d.val % 8)) (if cmpI (o.d.val / 8) (s.intA o) (s.intB o) then 1 else 0) })) ∧
    (∀ imm : BitVec 12, o.d.val < 32 → o.m.val = 0 → exec (.movi o imm) s = .next (s.leaves o { x with
      flight := x.inFlight 1 (.a (o.d.val % 32)) (lanes (imm.signExtend 32) 0) })) ∧
    (illegalI (o.word 0x24) = none → exec (.amod o) s = .next (s.leaves o { x with
      flight := x.inFlight 1 (.a (o.d.val % 32))
        (lanes ((x.getA o.d.val &&& ~~~(s.intB o)) ||| ((x.getA o.d.val + s.intA o) &&& s.intB o)) 0) })) ∧
    (∀ imm : BitVec 64, exec (.longImmediate o true imm) s = .next (s.leaves o { x with
      flight := x.inFlight 1 (.f (x.phys o.d.val)) imm })) ∧
    (∀ imm : BitVec 64, o.d.val < 32 → lane1 imm = 0 → exec (.longImmediate o false imm) s = .next (s.leaves o { x with
      flight := x.inFlight 1 (.a (o.d.val % 32)) (lanes (lane0 imm) 0) }))) ∧
  (∀ (o : Op) (s : State) (imm : BitVec 64), (s.unit o.u.val).wait = .run → (32 ≤ o.d.val ∨ lane1 imm ≠ 0) →
    exec (.longImmediate o false imm) s = .next (s.faultTrap o.u.val 1 1 5)) ∧
  (∀ a b : Word, cmpI 0 a b = decide (a = b) ∧ cmpI 1 a b = decide (a ≠ b) ∧ cmpI 2 a b = a.slt b ∧
    cmpI 3 a b = !a.slt b ∧ cmpI 4 a b = a.ult b ∧ cmpI 5 a b = !a.ult b ∧
    cmpI 6 a b = decide (a &&& b ≠ 0) ∧ cmpI 7 a b = decide (a &&& b = 0))

/-- For every operation of slots M0, M1, I and L: with the unit running, a slot word that breaks item 1, 2 or 9 of R179 takes the trap of an illegal bundle with that item and the slot's code (0 and 1 for M0 and M1, 2 for I, 3 for L), and one that breaks none, with the guard reading 0, leaves nothing but the end of its bundle (of LDT with no tap result due: no unit changes otherwise). The control operations TRAP, HALT, SYNC, WAITDMA, RETT, MOVS and MOVX do the latter outside delay bundles. A unit that is not running leaves the state as it is. -/
def Obligations.GuardAndIssueFrame : Prop :=
  (∀ (o : Op) (e : Ecc) (imm : BitVec 12),
    (∀ p ∈ mOps o, SlotRules p.1 o (if o.second then 1 else 0) (illegalM (o.word p.2))) ∧
    (∀ p ∈ iOps o, SlotRules p.1 o 2 (illegalI (o.word p.2))) ∧
    SlotRules (.movi o imm) o 2 (illegalI (o.moviWord imm)) ∧
    (∀ p ∈ lOps o e, SlotRules p.1 o 3 (illegalL (o.word p.2)))) ∧
  (∀ (o : Op) (s : State),
    ((s.unit o.u.val).wait = .run → ∀ n, illegalL (o.word 0x11) = some n →
      exec (.ldt o) s = .next (s.faultTrap o.u.val 1 n 3)) ∧
    ((s.unit o.u.val).wait = .run → (s.unit o.u.val).getP o.pred.val = false → illegalL (o.word 0x11) = none →
      (s.unit o.u.val).tapDue = [] → ∃ t, exec (.ldt o) s = .next t ∧ t.unit o.u.val = (s.finds o).after o ∧
        ∀ v, v ≠ o.u.val → t.unit v = s.unit v)) ∧
  (∀ (o : Op) (s : State) (sr : Fin 256) (code : BitVec 12),
    let ctl : List Instr := [.trap o code, .halt o, .sync o, .waitdma o, .rett o]
    ((s.unit o.u.val).wait = .run → (s.unit o.u.val).getP o.pred.val = false → (s.unit o.u.val).delay = 0 →
      (∀ i ∈ ctl, exec i s = .next (s.leaves o (s.finds o))) ∧
      (o.d.val < 32 → exec (.movs o sr) s = .next (s.leaves o (s.finds o))) ∧
      (o.a.val < 32 → exec (.movx o sr) s = .next (s.leaves o (s.finds o)))) ∧
    ((s.unit o.u.val).wait ≠ .run → ∀ i ∈ [Instr.ldt o, .movs o sr, .movx o sr] ++ ctl, exec i s = .next s))

/-- For a local access of an issued LDL or STL with the fields its encoding allows, at an effective address of R255 inside the 48 KiB and aligned to its size, without an uncorrectable error: a load puts the little-endian word, both lanes of the word, or the doubleword in flight for 3 cycles; a store writes its data register to exactly the addressed bytes of the unit's own memory, every other byte reading as before; the base update is in flight as the mode gives; a corrected error of a compute unit is counted; nothing else changes. An address outside the space takes the RANGE trap with DETAIL 1 instead, a misaligned one inside it with DETAIL 3. -/
def Obligations.LocalMemoryAccess : Prop :=
  (∀ (o : Op) (s : State) (e : Ecc), s.issues o → e ≠ .uncorrectable →
    let x := s.unit o.u.val
    let c := s.localEcc o.u.val e
    let a := lmemAddr o.u.val (x.ea o)
    (x.ea o < 0xC000 → x.ea o % 4 = 0 →
      let y := (s.finds o).updateBase o 4
      (illegalL (o.word 0x01) = none → exec (.ldl32a o e) s = .next (c.leaves o { y with
        flight := y.inFlight 3 (.a (o.d.val % 32)) (lanes (Memory.read32 s.lmem a) 0) })) ∧
      (illegalL (o.word 0x02) = none → exec (.ldl32f o e) s = .next (c.leaves o { y with
        flight := y.inFlight 3 (.f (x.phys o.d.val)) (lanes (Memory.read32 s.lmem a) (Memory.read32 s.lmem a)) })) ∧
      (illegalL (o.word 0x04) = none → ∃ t, exec (.stl32a o e) s = .next t ∧ t = State.leaves { c with lmem := t.lmem } o y ∧
        (∀ k < 4, Memory.read t.lmem (a + k) = ((x.getA o.d.val) >>> (8 * k)).setWidth 8) ∧
        (∀ b, b < a ∨ a + 4 ≤ b → Memory.read t.lmem b = Memory.read s.lmem b)) ∧
      (illegalL (o.word 0x05) = none → ∃ t, exec (.stl32f o e) s = .next t ∧ t = State.leaves { c with lmem := t.lmem } o y ∧
        (∀ k < 4, Memory.read t.lmem (a + k) = ((lane0 (x.getF o.d.val)) >>> (8 * k)).setWidth 8) ∧
        (∀ b, b < a ∨ a + 4 ≤ b → Memory.read t.lmem b = Memory.read s.lmem b))) ∧
    (x.ea o < 0xC000 → x.ea o % 8 = 0 →
      let y := (s.finds o).updateBase o 8
      (illegalL (o.word 0x03) = none → exec (.ldl64 o e) s = .next (c.leaves o { y with
        flight := y.inFlight 3 (.f (x.phys o.d.val)) (Memory.read64 s.lmem a) })) ∧
      (illegalL (o.word 0x06) = none → ∃ t, exec (.stl64 o) s = .next t ∧ t = State.leaves { s with lmem := t.lmem } o y ∧
        (∀ k < 8, Memory.read t.lmem (a + k) = ((x.getF o.d.val) >>> (8 * k)).setWidth 8) ∧
        (∀ b, b < a ∨ a + 8 ≤ b → Memory.read t.lmem b = Memory.read s.lmem b)))) ∧
  (∀ (s : State) (u n : Nat), u < 512 → s.localEcc u .clean = s ∧
    s.localEcc u (.corrected n) = s.bumpBy (Reg.FABRIC_CL_ECC_LOC_CORR (u / 8)) n) ∧
  (∀ (o : Op) (s : State) (e : Ecc) (n op : Nat) (i : Instr), s.issues o →
    (n, op, i) ∈ [(4, 0x01, Instr.ldl32a o e), (4, 0x02, .ldl32f o e), (8, 0x03, .ldl64 o e), (4, 0x04, .stl32a o e),
      (4, 0x05, .stl32f o e), (8, 0x06, .stl64 o)] → illegalL (o.word op) = none →
    let x := s.unit o.u.val
    (0xC000 ≤ x.ea o → exec i s = .next (s.faultTrap o.u.val 2 1 3)) ∧
    (x.ea o < 0xC000 → x.ea o % n ≠ 0 → exec i s = .next (s.faultTrap o.u.val 2 3 3)))

/-- For every operation of slot L and size s: MOD 0 addresses A[A] + A[B] modulo 2^32 and updates nothing; the other modes address A[A], and put in flight to A[A], with latency 1, A[A] + s, A[A] + A[B], or (A[A] AND NOT A[B]) OR ((A[A] + s) AND A[B]). -/
def Obligations.AddressingModes : Prop :=
  ∀ (o : Op) (x : UnitSt) (n : Nat),
    let base := x.getA o.a.val
    let idx := x.getA o.b.val
    let post := fun w : Word => { x with flight := x.inFlight 1 (.a (o.a.val % 32)) (lanes w 0) }
    (o.m = 0 → x.ea o = (base + idx).toNat ∧ x.updateBase o n = x) ∧
    (o.m = 1 → x.ea o = base.toNat ∧ x.updateBase o n = post (base + BitVec.ofNat 32 n)) ∧
    (o.m = 2 → x.ea o = base.toNat ∧ x.updateBase o n = post (base + idx)) ∧
    (o.m = 3 → x.ea o = base.toNat ∧
      x.updateBase o n = post ((base &&& ~~~idx) ||| ((base + BitVec.ofNat 32 n) &&& idx)))

/-- For an issued LDS, LDP, LDS.B256 or STS of a compute unit with the fields its encoding allows, at an address inside the 1 MiB and aligned: the read or write of the row (address, form, destinations or data) is presented to the port in the unit's cycle and the base update is in flight; nothing else changes but what presenting does. A presented request takes the place of the newest one; one that is still there goes to the one-entry buffer; with the buffer full too, a read of a compute unit is lost, no unit changes, and its RLOST bit is set and RCOUNT counts, and a write is lost, with its WLOST bit set and WCOUNT counting. An address outside the space takes the RANGE trap with DETAIL 2, a misaligned one inside it with DETAIL 3; LDS.B256 with D not a multiple of 4 takes the trap of item 9. A servo unit has no shared memory: every address of it lies outside (log entry 15). -/
def Obligations.SharedMemoryAccess : Prop :=
  (∀ (o : Op) (s : State), s.issues o → o.u.val < 512 →
    let x := s.unit o.u.val
    let rd := fun (form inc : Nat) (d : List Dest) =>
      let p := s.presentRead o.u.val ⟨x.ea o, form, d, x.cyc⟩
      p.leaves o ((p.finds o).updateBase o inc)
    let wr := fun (n : Nat) (v : Dword) =>
      let p := s.presentWrite o.u.val ⟨x.ea o, n, v⟩
      p.leaves o ((p.finds o).updateBase o n)
    let ok := fun op al : Nat => illegalL (o.word op) = none ∧ x.ea o < 0x100000 ∧ x.ea o % al = 0
    (ok 0x09 4 → exec (.lds32a o) s = .next (rd 4 4 [.a (o.d.val % 32)])) ∧
    (ok 0x0A 4 → exec (.lds32f o) s = .next (rd 5 4 [.f (x.phys o.d.val)])) ∧
    (ok 0x0B 8 → exec (.lds64 o) s = .next (rd 8 8 [.f (x.phys o.d.val)])) ∧
    (ok 0x10 4 → exec (.ldp o) s = .next (rd 16 16 [.f (x.phys o.d.val)])) ∧
    (ok 0x0F 32 → exec (.ldsB256 o) s = .next (rd 32 32
      [.f (x.phys o.d.val), .f (x.phys (o.d.val + 1)), .f (x.phys (o.d.val + 2)), .f (x.phys (o.d.val + 3))])) ∧
    (ok 0x0C 4 → exec (.sts32a o) s = .next (wr 4 (lanes (x.getA o.d.val) 0))) ∧
    (ok 0x0D 4 → exec (.sts32f o) s = .next (wr 4 (lanes (lane0 (x.getF o.d.val)) 0))) ∧
    (ok 0x0E 8 → exec (.sts64 o) s = .next (wr 8 (x.getF o.d.val)))) ∧
  (∀ (o : Op) (s : State) (al op : Nat) (i : Instr), s.issues o →
    (al, op, i) ∈ [(4, 0x09, Instr.lds32a o), (4, 0x0A, .lds32f o), (8, 0x0B, .lds64 o), (4, 0x10, .ldp o), (32, 0x0F, .ldsB256 o),
      (4, 0x0C, .sts32a o), (4, 0x0D, .sts32f o), (8, 0x0E, .sts64 o)] → illegalL (o.word op) = none →
    let x := s.unit o.u.val
    (0x100000 ≤ x.ea o ∨ 512 ≤ o.u.val → exec i s = .next (s.faultTrap o.u.val 2 2 3)) ∧
    (o.u.val < 512 → x.ea o < 0x100000 → x.ea o % al ≠ 0 → exec i s = .next (s.faultTrap o.u.val 2 3 3))) ∧
  (∀ (o : Op) (s : State), s.issues o → o.a.val < 32 → o.m.val ≠ 1 → o.b.val < 32 → o.d.val % 4 ≠ 0 →
    exec (.ldsB256 o) s = .next (s.faultTrap o.u.val 1 9 3)) ∧
  (∀ (s : State) (u : Nat) (r q : ReadReq) (w v : WriteReq),
    let x := s.unit u
    let c := u / 8
    let k := u % 8
    (x.readNew = none → s.presentRead u r = s.setUnit u { x with readNew := some r }) ∧
    (x.readNew = some q → x.readBuf = none → s.presentRead u r = s.setUnit u { x with readBuf := some q, readNew := some r }) ∧
    (u < 512 → x.readNew = some q → x.readBuf.isSome = true →
      let t := s.presentRead u r
      t.units = s.units ∧ Nat.testBit (t.get (Reg.FABRIC_CL_WLOST_RLOST c)) k = true ∧
      t.get (Reg.FABRIC_CL_WLOST_CNT_RCOUNT c) = min (s.get (Reg.FABRIC_CL_WLOST_CNT_RCOUNT c) + 1) 0xFFFF) ∧
    (x.writeNew = none → s.presentWrite u w = s.setUnit u { x with writeNew := some w }) ∧
    (x.writeNew = some v → x.writeBuf = none →
      s.presentWrite u w = s.setUnit u { x with writeBuf := some v, writeNew := some w }) ∧
    (u < 512 → x.writeNew = some v → x.writeBuf.isSome = true →
      let t := s.presentWrite u w
      Nat.testBit (t.get (Reg.FABRIC_CL_WLOST_WLOST c)) k = true ∧
      t.get (Reg.FABRIC_CL_WLOST_CNT_WCOUNT c) = min (s.get (Reg.FABRIC_CL_WLOST_CNT_WCOUNT c) + 1) 0xFFFF ∧
      t.unit u = if x.ten.getLsbD 0 then { x with pendWlost := true } else x))

/-- With the fields its encoding allows, an issued LDT puts the oldest entry of the tap FIFO in flight to F[D] for 3 cycles and removes it, or +0.0 with TU set where the FIFO is empty; with no tap result due the FIFO is that of the state, and a single result that is due at an empty FIFO is the entry that it takes; no other unit changes. An issued MOVFA gives one lane of F[A] to A[D], and MOVAF gives A[A] and, as MOD says, A[B] or A[A] to the lanes of F[D], both after 2 cycles and with nothing else changed. -/
def Obligations.TapFifoAndRegisterMoves : Prop :=
  ∀ (o : Op) (s : State), s.issues o →
    let x := s.finds o
    (illegalL (o.word 0x11) = none → x.tapDue = [] →
      ∃ t, exec (.ldt o) s = .next t ∧ (∀ v, v ≠ o.u.val → t.unit v = s.unit v) ∧
      t.unit o.u.val = UnitSt.after (match x.fifo with
        | [] => { x with iflags := x.iflags ||| 4, flight := x.inFlight 3 (.f (x.phys o.d.val)) 0 }
        | v :: q => { x with fifo := q, flight := x.inFlight 3 (.f (x.phys o.d.val)) v }) o) ∧
    (∀ c v, illegalL (o.word 0x11) = none → x.tapDue = [(c, v)] → c ≤ x.cyc → x.fifo = [] →
      ∃ t, exec (.ldt o) s = .next t ∧ (∀ u, u ≠ o.u.val → t.unit u = s.unit u) ∧
      t.unit o.u.val = UnitSt.after { x with tapDue := [], flight := x.inFlight 3 (.f (x.phys o.d.val)) v } o) ∧
    (illegalL (o.word 0x12) = none → exec (.movfa o) s = .next (s.leaves o { x with
      flight := x.inFlight 2 (.a (o.d.val % 32)) (lanes (if o.m.val = 0 then lane0 (s.opA o) else lane1 (s.opA o)) 0) })) ∧
    (illegalL (o.word 0x13) = none → exec (.movaf o) s = .next (s.leaves o { x with
      flight := x.inFlight 2 (.f (x.phys o.d.val))
        (lanes (x.getA o.a.val) (if o.m.val = 0 then x.getA o.b.val else x.getA o.a.val)) }))

/-- For a running unit whose next bundle is no delay bundle and lies near no loop end: BR is followed by a jump to its target, BRC if P[CP] equals SENSE, CALL pushes the bundle address plus 3 (with fewer than 4 entries on the stack) and RET pops the newest entry (with at least one); with a guard that reads 0 the delay bundles follow, nothing is pushed or popped and no branch is taken. Only the unit changes. A branch, HALT, SYNC, WAITDMA or RETT in a delay bundle takes the trap of item 4, a branch near a loop end that of item 5, a CALL on a full and a RET on an empty stack that of item 8. -/
def Obligations.BranchesAndReturnStack : Prop :=
  (∀ (o : Op) (s : State) (tg : BrTarget) (cp : Fin 8) (sense : Bool),
    let x := s.finds o
    let dest := match tg with | .addr t => t.val | .reg r => (x.getA r.val).toNat % 1024
    let g := x.getP o.pred.val
    x.wait = .run → x.delay = 0 →
    (x.nearLoopEnd = false →
      exec (.br o tg) s = .next (s.leaves o { x with delay := 3, brTo := if g then some dest else none }) ∧
      exec (.brc o tg cp sense) s = .next (s.leaves o { x with
        delay := 3, brTo := if g ∧ x.getP cp.val = sense then some dest else none }) ∧
      (g = true → x.depth < 4 → exec (.call o tg) s = .next (s.leaves o { x with
        delay := 3, brTo := some dest, stk := Tab.put 0 x.stk x.depth ((x.pc + 3) % 1024), depth := x.depth + 1 })) ∧
      (g = true → 0 < x.depth → x.depth ≤ 4 → exec (.ret o) s = .next (s.leaves o { x with
        delay := 3, brTo := some (Tab.get 0 x.stk (x.depth - 1)), depth := x.depth - 1 })) ∧
      (g = false → exec (.call o tg) s = .next (s.leaves o { x with delay := 3, brTo := none }) ∧
        exec (.ret o) s = .next (s.leaves o { x with delay := 3, brTo := none })) ∧
      (g = true → x.depth = 4 → exec (.call o tg) s = .next (s.faultTrap o.u.val 1 8 4)) ∧
      (g = true → x.depth = 0 → exec (.ret o) s = .next (s.faultTrap o.u.val 1 8 4))) ∧
    (x.nearLoopEnd = true → ∀ i ∈ [Instr.br o tg, .brc o tg cp sense, .call o tg, .ret o],
      exec i s = .next (s.faultTrap o.u.val 1 5 4))) ∧
  (∀ (o : Op) (s : State) (tg : BrTarget) (cp : Fin 8) (sense : Bool),
    (s.unit o.u.val).wait = .run → (s.unit o.u.val).delay ≠ 0 →
      ∀ i ∈ [Instr.br o tg, .brc o tg cp sense, .call o tg, .ret o, .halt o, .sync o, .waitdma o, .rett o],
        exec i s = .next (s.faultTrap o.u.val 1 4 4))

/-- For a unit whose branch bundle is being issued (the branch and its two delay bundles are still to end), outside every active loop and with nothing in flight: the ends of the branch bundle and of the first delay bundle each lead to the next sequential bundle, and the end of the second delay bundle leads to the target of a taken branch, or to the next sequential bundle, with no delay bundle left. -/
def Obligations.BranchTargetAfterTwoDelayBundles : Prop :=
  ∀ (x : UnitSt) (r0 r1 r2 : Bool), x.delay = 3 → x.la = 0 → x.flight = [] →
    let x1 := x.endBundle r0 false
    let x2 := x1.endBundle r1 false
    let x3 := x2.endBundle r2 false
    x1.pc = x.pc + 1 ∧ x2.pc = x.pc + 2 ∧ x3.delay = 0 ∧ x3.brTo = none ∧ x3.cyc = x.cyc + 3 ∧
    x3.pc = (match x.brTo with | some t => t | none => x.pc + 3)

/-- For an issued LOOP of an inactive level n outside delay bundles, with nothing in flight: LCn, LSn and LEn become the count, the address after the LOOP bundle and the end address; with a count other than 0 bit n of LOOP_ACTIVE is set and the next bundle is the first of the body, one cycle later; with a count of 0 the level stays inactive and the unit is at LEn + 1 three cycles later. Other units keep their state. A LOOP of an active level takes the trap of item 7. The end of the end bundle of the one active level, outside delay bundles and with nothing in flight, counts LCn down and goes back to LSn while LCn is above 1, and otherwise clears LCn and the level and goes on. -/
def Obligations.LoopStartAndEnd : Prop :=
  (∀ (o : Op) (s : State) (n : Fin 4) (c : LoopCount) (fin : Fin 1024), s.issues o →
    let x := s.unit o.u.val
    x.delay = 0 →
    (x.levelOn n.val = true → exec (.loop o n c fin) s = .next (s.faultTrap o.u.val 1 7 4)) ∧
    (x.levelOn n.val = false → x.flight = [] →
      let cnt : Word := match c with | .imm k => BitVec.ofNat 32 k.val | .reg r => x.getA r.val
      ∃ t, exec (.loop o n c fin) s = .next t ∧
        let y := t.unit o.u.val
        Tab.get 0 y.lc n.val = cnt ∧ Tab.get 0 y.ls n.val = (x.pc + 1) % 1024 ∧
        Tab.get 0 y.le n.val = ((x.pc + 1) % 1024 + fin.val) % 1024 ∧
        (cnt ≠ 0 → y.levelOn n.val = true ∧ y.pc = x.pc + 1 ∧ y.cyc = x.cyc + 1) ∧
        (cnt = 0 → y.la = x.la ∧ y.pc = ((x.pc + 1) % 1024 + fin.val) % 1024 + 1 ∧ y.cyc = x.cyc + 3) ∧
        (∀ v, v ≠ o.u.val → t.unit v = s.unit v))) ∧
  (∀ (x : UnitSt) (n : Fin 4) (rot : Bool), x.la = 1#4 <<< n.val → x.delay = 0 → x.flight = [] → Tab.get 0 x.le n.val = x.pc →
    let y := x.endBundle rot false
    (1 < (Tab.get 0 x.lc n.val).toNat → y.pc = Tab.get 0 x.ls n.val ∧ y.la = x.la ∧
      Tab.get 0 y.lc n.val = Tab.get 0 x.lc n.val - 1) ∧
    ((Tab.get 0 x.lc n.val).toNat ≤ 1 → y.pc = x.pc + 1 ∧ y.la = 0 ∧ Tab.get 0 y.lc n.val = 0))

/-- For an issued control operation outside delay bundles: SYNC makes the unit wait at the barrier; WAITDMA makes it wait while a transfer it issued is outstanding; TRAP makes DEBUG pending with its code; MOVS, with D below 32, puts the special register's value in flight to A[D] for 2 cycles; MOVX, with A below 32, puts A[A] in flight to the special register for 2 cycles; RETT, its bundle over and with nothing in flight, restores LOOP_ACTIVE from TCAUSE, clears TACTIVE and continues at TPC two cycles later, exempt from breakpoint matching, and with a shared read under way it waits; HALT stops the unit with nothing left in flight and, of a compute unit, ORs its IFLAGS and FFLAGS into FABRIC_UN_FLAGS. No other unit changes. -/
def Obligations.WaitsHaltAndSpecialRegisters : Prop :=
  ∀ (o : Op) (s : State), s.issues o →
    let x := s.finds o
    x.delay = 0 →
    exec (.sync o) s = .next (s.setUnit o.u.val { (x.after o) with wait := .sync }) ∧
    exec (.waitdma o) s = .next (s.setUnit o.u.val (if x.dmaOut = 0 then x.after o else { (x.after o) with wait := .dma })) ∧
    (∀ code, exec (.trap o code) s = .next (s.leaves o { x with pendDebug := some code, heldDebug := false })) ∧
    (∀ sr, o.d.val < 32 → exec (.movs o sr) s = .next (s.leaves o { x with
      flight := x.inFlight 2 (.a (o.d.val % 32)) (lanes (x.readSr o.u.val sr.val) 0) })) ∧
    (∀ sr, o.a.val < 32 → exec (.movx o sr) s = .next (s.leaves o { x with
      flight := x.inFlight 2 (.sr sr.val) (lanes (x.getA o.a.val) 0) })) ∧
    (x.readNew.isSome = true ∨ x.readBuf.isSome = true →
      exec (.rett o) s = .next (s.setUnit o.u.val { (x.after o) with wait := .rett })) ∧
    (x.readNew = none → x.readBuf = none → x.flight = [] →
      ∃ t, exec (.rett o) s = .next t ∧ (∀ v, v ≠ o.u.val → t.unit v = s.unit v) ∧ t.regs = s.regs ∧
      let y := t.unit o.u.val
      y.la = (x.tcause >>> 4).setWidth 4 ∧ y.tactive = false ∧ y.pc = x.tpc ∧ y.wait = .run ∧ y.bkptExempt = true ∧
      y.cyc = (x.after o).cyc + 2) ∧
    (∃ t, exec (.halt o) s = .next t ∧ (t.unit o.u.val).wait = .halted ∧ (t.unit o.u.val).flight = [] ∧
      (∀ v, v ≠ o.u.val → t.unit v = s.unit v) ∧
      (o.u.val < 512 →
        t.get (Reg.FABRIC_UN_FLAGS_IFLAGS (o.u.val / 8) (o.u.val % 8)) =
          Nat.lor (s.get (Reg.FABRIC_UN_FLAGS_IFLAGS (o.u.val / 8) (o.u.val % 8))) (t.unit o.u.val).iflags.toNat % 8 ∧
        t.get (Reg.FABRIC_UN_FLAGS_FFLAGS (o.u.val / 8) (o.u.val % 8)) =
          Nat.lor (s.get (Reg.FABRIC_UN_FLAGS_FFLAGS (o.u.val / 8) (o.u.val % 8))) (t.unit o.u.val).fflags.toNat % 8))

/-- RESULT_LANDS of a waiting unit brings its clock to the cycle of the next result in flight, and of a running unit, which reaches that cycle by its bundles alone, lands what is due by its cycle. Exactly the results due leave the flight: with one due result the F register, the A register other than A0, or the predicate other than P0 it names reads as its value, and a write to A0 or P0 changes no register of its file; of two results for one F register in one cycle, the later in the flight is kept, and a result issued no earlier than another of its cycle enters the flight behind it. With nothing in flight, or nothing due at a running unit, no unit changes. No other unit changes. -/
def Obligations.ResultsBecomeVisible : Prop :=
  (∀ (u : Fin 516) (s : State) (l m : Landing) (rest : List Landing),
    let x := s.unit u.val
    (∀ q ∈ rest, max x.cyc l.cycle < q.cycle) → (x.wait ≠ .run ∨ l.cycle ≤ x.cyc) →
    (x.flight = l :: rest → ∃ t, exec (.resultLands u) s = .next t ∧ (∀ v, v ≠ u.val → t.unit v = s.unit v) ∧
      let y := t.unit u.val
      y.cyc = max x.cyc l.cycle ∧ y.flight = rest ∧
      (∀ p, l.dest = .f p → Tab.get 0 y.f p = l.val ∧ ∀ q, q ≠ p → Tab.get 0 y.f q = Tab.get 0 x.f q) ∧
      (∀ n, l.dest = .a n → (n % 32 = 0 → y.a = x.a) ∧ (n % 32 ≠ 0 → y.getA n = lane0 l.val)) ∧
      (∀ n, l.dest = .p n → (n % 8 = 0 → y.p = x.p) ∧ (n % 8 ≠ 0 → y.getP (n % 8) = l.val.getLsbD 0))) ∧
    (x.flight = l :: m :: rest → m.cycle = l.cycle → ∀ p, l.dest = .f p → m.dest = .f p →
      ∃ t, exec (.resultLands u) s = .next t ∧ Tab.get 0 (t.unit u.val).f p = m.val)) ∧
  (∀ (u : Fin 516) (s : State),
    let x := s.unit u.val
    (x.flight = [] ∨ x.wait = .run ∧ ∀ q ∈ x.flight, x.cyc < q.cycle) →
      ∃ t, exec (.resultLands u) s = .next t ∧ ∀ v, t.unit v = s.unit v) ∧
  (∀ (l m : Landing), m.cycle = l.cycle → insLanding m [l] = if l.issued ≤ m.issued then [l, m] else [m, l])

/-- For a running unit at a trap boundary, its last bundle ended and nothing in flight or being read, with DEBUG pending by TRAP and no handler running: with TVEC.VALID the unit stores the bundle address in TPC and cause 3, DETAIL 1, SLOT 4, the code and LOOP_ACTIVE in TCAUSE, clears LOOP_ACTIVE and the pending bit, sets TACTIVE, and goes to TVEC[9:0] 2 cycles later; without it the unit keeps that record and stops, and a compute unit shows STOPPED. TRAP_LAST takes the cause of a compute unit. No other unit changes. With no trap to take, or a unit that does not run, TRAP_ENTRY changes nothing; a parity error on the fetch of a running compute unit's next bundle cuts its cluster with cause 3. -/
def Obligations.TrapEntryAndStop : Prop :=
  (∀ (u : Fin 516) (s : State) (code : BitVec 12),
    let x := s.unit u.val
    x.wait = .run → x.mid = none → x.delay = 0 → x.pendDebug = some code → x.tactive = false → x.flight = [] →
    x.readNew = none → x.readBuf = none →
    ∃ t, exec (.trapEntry ⟨u, false⟩) s = .next t ∧ (∀ v, v ≠ u.val → t.unit v = s.unit v) ∧
      let y := t.unit u.val
      y.tpc = x.pc % 1024 ∧ y.pendDebug = none ∧
      y.tcause = BitVec.ofNat 32 (3 + 16 * x.la.toNat + 1024 * 4 + 2 ^ 16 * 1 + 2 ^ 20 * code.toNat) ∧
      (u.val < 512 → t.get (Reg.FABRIC_UN_TRAP_LAST_CAUSE (u.val / 8) (u.val % 8)) = 3) ∧
      (x.tvec.getLsbD 31 = true → y.wait = .run ∧ y.pc = x.tvec.toNat % 1024 ∧ y.la = 0 ∧ y.tactive = true ∧
        y.cyc = x.cyc + 2) ∧
      (x.tvec.getLsbD 31 = false → y.wait = .halted ∧
        (u.val < 512 → t.bit (Reg.FABRIC_UN_TRAP_STOPPED (u.val / 8) (u.val % 8)) = true))) ∧
  (∀ (u : Fin 516) (s : State),
    ((s.unit u.val).wait ≠ .run → ∀ b, exec (.trapEntry ⟨u, b⟩) s = .next s) ∧
    (s.gapTrap u.val = none → exec (.trapEntry ⟨u, false⟩) s = .next s) ∧
    ((s.unit u.val).wait = .run → (s.unit u.val).pc < 1024 → u.val < 512 →
      exec (.trapEntry ⟨u, true⟩) s = .next (s.cut (u.val / 8) 3)))

/-- SYNC_RELEASE with every unit of the cluster waiting at a SYNC or halted lets each waiting unit run again in one common cycle, none before its own, and changes no halted unit and no unit of another cluster; with a unit that has not arrived it changes nothing. WAITDMA_RELEASE lets a waiting unit without an outstanding transfer run, from the cycle that its cluster's firing has reached, and changes no other unit; with one outstanding it leaves the unit waiting. -/
def Obligations.BarrierAndDmaRelease : Prop :=
  (∀ (c : Fin 64) (s : State), (∀ k < 8, (s.unit (8 * c.val + k)).wait = .sync ∨ (s.unit (8 * c.val + k)).wait = .halted) →
    ∃ (t : State) (m : Nat), exec (.syncRelease c) s = .next t ∧ t.regs = s.regs ∧
      (∀ k < 8, (s.unit (8 * c.val + k)).wait = .sync → t.unit (8 * c.val + k) =
        { ((s.unit (8 * c.val + k)).runTo m) with wait := .run } ∧ (s.unit (8 * c.val + k)).cyc ≤ m) ∧
      (∀ v, (s.unit v).wait = .halted ∨ v / 8 ≠ c.val → t.unit v = s.unit v)) ∧
  (∀ (c : Fin 64) (s : State) (k : Nat), k < 8 → (s.unit (8 * c.val + k)).wait ≠ .sync →
    (s.unit (8 * c.val + k)).wait ≠ .halted → exec (.syncRelease c) s = .next s) ∧
  (∀ (u : Fin 516) (s : State), (s.unit u.val).wait = .dma →
    ∃ t, exec (.waitdmaRelease u) s = .next t ∧ (∀ v, v ≠ u.val → t.unit v = s.unit v) ∧ t.regs = s.regs ∧
      t.unit u.val = if (s.unit u.val).dmaOut = 0 then
        { ((s.unit u.val).runTo (if u.val < 512 then s.clusterClk (u.val / 8) else 0)) with wait := .run } else s.unit u.val)

/-- REGION_CLOCK_START of a region with demand whose clock does not run sets RUNNING, clears LOCKED and opens the clock start phase; ADPLL_LOCK in that phase sets LOCKED. BYPASS_FALLBACK in that phase without lock counts NOLOCK and ADPLL_LOSS_OF_LOCK of a locked ADPLL clears LOCKED and counts LOSS; each ends the phase and sets BYPASS and BYPASS_SEEN, and posts RG_BYPASS with the region and the P-domain SI exactly where BYPASS was 0 before. REGION_CLOCK_STOP clears RUNNING and LOCKED while no firing of the region runs. PREHEAT ends the phase, BYPASS returning to 0 where the start has locked, and wakes the cluster where it executes and its region's clock runs. Where its condition does not hold a command changes nothing, and no command changes anything else. -/
def Obligations.RegionClocks : Prop :=
  (∀ (g : Fin 8) (s : State),
    (s.regionDemand g = true → s.bit (Reg.FABRIC_RG_CLK_RUNNING g) = false → exec (.regionClockStart g) s =
      .next (((s.put (Reg.FABRIC_RG_CLK_RUNNING g) 1).put (Reg.FABRIC_RG_CLK_LOCKED g) 0).modRegion g
        fun r => { r with starting := true })) ∧
    (s.regionDemand g = false ∨ s.bit (Reg.FABRIC_RG_CLK_RUNNING g) = true → exec (.regionClockStart g) s = .next s) ∧
    ((∀ k < 8, (s.cluster (8 * g + k)).firing = none) → exec (.regionClockStop g) s =
      .next (((s.put (Reg.FABRIC_RG_CLK_RUNNING g) 0).put (Reg.FABRIC_RG_CLK_LOCKED g) 0).modRegion g
        fun r => { r with starting := false })) ∧
    ((∃ k < 8, (s.cluster (8 * g + k)).firing ≠ none) → exec (.regionClockStop g) s = .next s) ∧
    ((s.region g).starting = true → exec (.adpllLock g) s = .next (s.put (Reg.FABRIC_RG_CLK_LOCKED g) 1)) ∧
    ((s.region g).starting = false → exec (.adpllLock g) s = .next s) ∧
    ((s.region g).starting = true → s.bit (Reg.FABRIC_RG_CLK_LOCKED g) = false →
      let s1 := ((s.bump (Reg.FABRIC_RG_CLK_CNT_NOLOCK g)).put (Reg.FABRIC_RG_CLK_BYPASS g) 1).put (Reg.FABRIC_RG_CLK_BYPASS_SEEN g) 1
      exec (.bypassFallback g) s = .next ((if s.bit (Reg.FABRIC_RG_CLK_BYPASS g) then s1
        else s1.errSeen.postNow .clock (some 48) 0x21 [g]).modRegion g fun r => { r with starting := false })) ∧
    ((s.region g).starting = false ∨ s.bit (Reg.FABRIC_RG_CLK_LOCKED g) = true → exec (.bypassFallback g) s = .next s) ∧
    (s.bit (Reg.FABRIC_RG_CLK_LOCKED g) = true →
      let s1 := (((s.put (Reg.FABRIC_RG_CLK_LOCKED g) 0).bump (Reg.FABRIC_RG_CLK_CNT_LOSS g)).put (Reg.FABRIC_RG_CLK_BYPASS g) 1).put
        (Reg.FABRIC_RG_CLK_BYPASS_SEEN g) 1
      exec (.adpllLossOfLock g) s = .next ((if s.bit (Reg.FABRIC_RG_CLK_BYPASS g) then s1
        else s1.errSeen.postNow .clock (some 48) 0x21 [g]).modRegion g fun r => { r with starting := false })) ∧
    (s.bit (Reg.FABRIC_RG_CLK_LOCKED g) = false → exec (.adpllLossOfLock g) s = .next s)) ∧
  (∀ (c : Fin 64) (s : State),
    let s1 := if (s.region (c / 8)).starting ∧ s.bit (Reg.FABRIC_RG_CLK_LOCKED (c / 8)) then
        (s.put (Reg.FABRIC_RG_CLK_BYPASS (c / 8)) 0).modRegion (c / 8) fun r => { r with starting := false }
      else s
    (s.executes c = true → s.bit (Reg.FABRIC_RG_CLK_RUNNING (c / 8)) = true →
      exec (.preheat c) s = .next (s1.modCluster c fun x => { x with retention := false })) ∧
    (s.executes c = false ∨ s.bit (Reg.FABRIC_RG_CLK_RUNNING (c / 8)) = false → exec (.preheat c) s = .next s1))

/-- With a firing running and its cycles at the budget, FIRING_BUDGET_EXHAUSTED cuts it with cause 1, and EXECUTION_DEADLINE cuts it with cause 1 then and with cause 2 before. A cut stops every unit of the cluster with nothing in flight and its registers kept, ends the firing, abandons its DMA, puts the cluster in retention and its bit into SCHED_QUAR, counts SCHED_CUT_CNT up to its maximum, and, where no cut has been recorded, records the cause, the firing and the SI of its block in domain P. A block of one output destination in package DRAM fades to zero from its last sample; with all outputs in the output stage shared memory, delay memory and DRAM keep their bytes. Units and clusters outside the cluster, programs and local memories keep their values. Without a firing, or before the budget is spent, FIRING_BUDGET_EXHAUSTED changes nothing, and EXECUTION_DEADLINE nothing without a firing. -/
def Obligations.CutOfAFiring : Prop :=
  ∀ (c : Fin 64) (s : State) (f : Firing),
    ((s.cluster c).firing = none → exec (.firingBudgetExhausted c) s = .next s ∧ exec (.executionDeadline c) s = .next s) ∧
    ((s.cluster c).firing = some f →
      (s.cycles c < f.budget → exec (.firingBudgetExhausted c) s = .next s) ∧
      ∀ (i : Instr) (cause : Nat), (f.budget ≤ s.cycles c ∧ i = .firingBudgetExhausted c ∧ cause = 1) ∨
          (i = .executionDeadline c ∧ cause = if f.budget ≤ s.cycles c then 1 else 2) →
        let b := (s.dom f.domain).block
        ∃ t, exec i s = .next t ∧
        (∀ u < 8, (t.unit (8 * c + u)).wait = .halted ∧ (t.unit (8 * c + u)).flight = [] ∧
          (t.unit (8 * c + u)).f = (s.unit (8 * c + u)).f ∧ (t.unit (8 * c + u)).a = (s.unit (8 * c + u)).a) ∧
        (∀ u, u / 8 ≠ c.val → t.unit u = s.unit u) ∧ (∀ k, k ≠ c.val → t.cluster k = s.cluster k) ∧
        (t.cluster c).firing = none ∧ (t.cluster c).dmaQueue = [] ∧ (t.cluster c).dmaRun = none ∧
        (t.cluster c).zeroing = true ∧ (t.cluster c).retention = true ∧ t.quarantined c = true ∧
        t.get Reg.SCHED_CUT_CNT_COUNT = min (s.get Reg.SCHED_CUT_CNT_COUNT + 1) (2 ^ 32 - 1) ∧
        (s.get (Reg.FABRIC_CL_CUT_CAUSE c) = 0 → t.get (Reg.FABRIC_CL_CUT_CAUSE c) = cause ∧
          t.get (Reg.FABRIC_CL_CUT_FIRING c) = f.entry.index.val ∧
          t.get (Reg.FABRIC_CL_CUT_SI_SI c) = s.toP f.domain f.fsi % 2 ^ 64) ∧
        t.lmem = s.lmem ∧ t.prog = s.prog ∧
        ((∀ o ∈ f.entry.outputs, o.space = 1) → t.shm = s.shm ∧ t.dram = s.dram ∧ t.dly = s.dly) ∧
        (∀ o, f.entry.outputs = [o] → o.space = 3 → o.line = 0 → ∀ n < b,
          Memory.read32 t.dram (o.addr + 4 * n) = fadeSample b (Tab.get 0 (s.cluster c).lastSample o.key) n))

/-- FIRING_START of a firing the schedule holds, in a cluster that runs none, whose domain fires: where the cluster executes, is awake with its region's clock running, and has its program images in place or due to be loaded, with the code intact each of the eight units runs at its entry bundle with the TVEC and TEN of the schedule entry, no flags, no active loop, an empty return stack and its FIFO as before, and the firing runs at the SI of its block; with the code damaged the firing is cut and the cluster quarantined. An executing cluster that is not awake, or whose region has no clock, starts none and nothing changes. A firing of a cluster that does not execute starts no unit. FIRING_END with every unit halted, its shared accesses made and no DMA left ends a firing within its budget, puts the cluster in retention, and adds its cycles to those of the frame; one past its budget is cut; while a unit runs or an access or DMA is pending it changes nothing. -/
def Obligations.FiringStartAndEnd : Prop :=
  (∀ (c : Fin 64) (k : Fin 4) (codeOk : Bool) (corr : Nat) (bad : List Nat) (s : State) (i : SchedImage) (d : Nat) (e : FiringEntry),
    s.imageAt c = some (i, d) → (firingsOf i (s.logical c)).find? (fun e => e.index == k) = some e →
    (s.cluster c).firing = none → s.firingsOff d = false → (s.dom d).block ≤ (s.dom d).si →
    (s.executes c = true → s.bit (Reg.FABRIC_RG_CLK_RUNNING (c / 8)) = true → (s.cluster c).retention = false →
      (s.sched.toLoad.contains c.val = true ∨ (s.cluster c).loaded = imagesOf i (s.logical c)) →
      ∃ t, exec (.firingStart c k codeOk corr bad) s = .next t ∧
        (codeOk = true → (∃ b, (t.cluster c).firing = some { entry := e, fsi := (s.dom d).si - (s.dom d).block, domain := d, budget := b }) ∧
          (t.cluster c).retention = false ∧
          ∀ u < 8, ∃ due, t.unit (8 * c + u) =
            { startUnit e u ((s.dom d).si - (s.dom d).block) (s.unit (8 * c + u)) with tapDue := (s.unit (8 * c + u)).tapDue ++ due } ∧
            (e.taps = none → due = [])) ∧
        (codeOk = false → (t.cluster c).firing = none ∧ t.quarantined c = true ∧ ∀ u < 8, (t.unit (8 * c + u)).wait = .halted) ∧
        (e.taps = none → ∀ u, u / 8 ≠ c.val → t.unit u = s.unit u)) ∧
    (s.executes c = true → s.bit (Reg.FABRIC_RG_CLK_RUNNING (c / 8)) = false ∨ (s.cluster c).retention = true →
      exec (.firingStart c k codeOk corr bad) s = .next s) ∧
    (s.executes c = false →
      ∃ t, exec (.firingStart c k codeOk corr bad) s = .next t ∧ t.units = s.units ∧ (t.cluster c).firing = none)) ∧
  (∀ (c : Fin 64) (s : State) (f : Firing), (s.cluster c).firing = some f →
    (s.drained c = true ↔ (s.cluster c).dmaQueue = [] ∧ (s.cluster c).dmaRun = none ∧ ∀ u < 8,
      (s.unit (8 * c + u)).wait = .halted ∧ (s.unit (8 * c + u)).reading = false ∧ (s.unit (8 * c + u)).writing = false) ∧
    (s.drained c = true → s.cycles c ≤ f.budget →
      ∃ t, exec (.firingEnd c) s = .next t ∧ (t.cluster c).firing = none ∧ (t.cluster c).retention = true ∧
        (t.cluster c).cycFrame = (s.cluster c).cycFrame + s.cycles c ∧
        (∀ u, (t.unit u).wait = (s.unit u).wait ∧ (t.unit u).a = (s.unit u).a ∧ (t.unit u).f = (s.unit u).f) ∧
        (∀ k, k ≠ c.val → t.cluster k = s.cluster k)) ∧
    (s.drained c = true → f.budget < s.cycles c → exec (.firingEnd c) s = .next (s.cut c 1)) ∧
    (s.drained c = false → exec (.firingEnd c) s = .next s))

/-- In a slot cycle that has not passed, after the sequencer phase, without a code error and with no engine that presents an access: in a read cycle the granted unit of lowest number that presents a read is served, and with it every granted unit whose read lies in the same 32-byte word: into a running unit a word read reaches its destination at its issue, or the cycle if that is later, + 6; a read just issued that is not granted or lies in another word goes to the unit's empty buffer; memory keeps its bytes. In a write cycle the granted unit of lowest number that presents a write has it completed, its bytes and no other byte of shared memory written; a granted write of another unit to the same 32-byte word is lost and sets its WLOST bit. Local memories and units outside the cluster keep their state. A slot entry of the other kind, or a cycle that has passed, leaves everything as it was. -/
def Obligations.SharedMemoryPort : Prop :=
  ∀ (c : Fin 64) (n : Nat) (s : State) (f : Firing), (s.cluster c).firing = some f →
    let en := slotEntry f n
    let now := f.entry.seqCycles + n
    (isWriteCycle en = true ∨ now < f.clk → ∀ m e, exec (.shmReadCycle c n m e) s = .next s) ∧
    (isWriteCycle en = false ∨ now < f.clk → ∀ m e, exec (.shmWriteCycle c n m e) s = .next s) ∧
    (f.entry.seqCycles ≤ f.clk → f.clk ≤ now → f.glaze = none → (s.cluster c).dmaRun = none →
    (isWriteCycle en = false → ∀ (v : Nat) (q : ReadReq), v < 8 → grants en v = true →
      (s.unit (8 * c + v)).presentedRead = some q →
      (∀ w < v, grants en w = true → (s.unit (8 * c + w)).presentedRead = none) →
      ∀ m, ∃ t, exec (.shmReadCycle c n m .clean) s = .next t ∧ t.shm = s.shm ∧ t.lmem = s.lmem ∧
        (∀ u, u / 8 ≠ c.val → t.unit u = s.unit u) ∧
        (∀ (u : Nat) (r : ReadReq) (d : Dest), u < 8 → grants en u = true → (s.unit (8 * c + u)).presentedRead = some r →
          (s.unit (8 * c + u)).wait = .run → portWord r.addr = portWord q.addr → r.form = 4 → r.dest = [d] →
          (t.unit (8 * c + u)).flight = insLanding ⟨max r.issued now + 6, d,
            lanes (Memory.read32 s.shm (shmAddr c r.addr)) 0, r.issued⟩ (s.unit (8 * c + u)).flight) ∧
        (∀ (u : Nat) (r : ReadReq), u < 8 → (s.unit (8 * c + u)).readBuf = none → (s.unit (8 * c + u)).readNew = some r →
          grants en u = false ∨ portWord r.addr ≠ portWord q.addr →
          (t.unit (8 * c + u)).readBuf = some r ∧ (t.unit (8 * c + u)).readNew = none)) ∧
    (isWriteCycle en = true → ∀ (v : Nat) (q : WriteReq), v < 8 → q.addr < 2 ^ 20 → grants en v = true →
      (s.unit (8 * c + v)).presentedWrite = some q →
      (∀ w < v, grants en w = true → (s.unit (8 * c + w)).presentedWrite = none) →
      ∀ m, ∃ t, exec (.shmWriteCycle c n m .clean) s = .next t ∧ t.lmem = s.lmem ∧
        t.shm = Memory.writeNat s.shm (shmAddr c q.addr) q.size q.val.toNat ∧
        (∀ u, u / 8 ≠ c.val → t.unit u = s.unit u) ∧
        ∀ (u : Nat) (r : WriteReq), u < 8 → u ≠ v → grants en u = true → (s.unit (8 * c + u)).presentedWrite = some r →
          portWord r.addr = portWord q.addr → (t.get (Reg.FABRIC_CL_WLOST_WLOST c)).testBit u = true))

/-- DMA_TRANSFER_START with no transfer running takes the oldest descriptor: one that passes every check runs; one that fails does not run, and its unit waits for one transfer fewer, and the code of the first failing check is recorded with its unit where no refusal is recorded yet. DMA_TRANSFER_COMPLETE of a transfer of whole words that has moved nothing, with a slot table that grants the DMA accesses of its kind, the sequencer phase over, and neither a unit nor the glaze engine presenting accesses: a transfer that writes to another cluster's shared memory, or reads a stage into shared memory below the command windows, puts every word of the source at its place, ends, its unit waits for one fewer, and no register changes. Without a transfer nothing changes. PEEK_COPY of a cluster between firings puts each of the 64 words of the peeked area in PEEK_DATA and completes its QUERY with OK; within a firing it waits. -/
def Obligations.ClusterDmaAndPeek : Prop :=
  (∀ (c : Fin 64) (s : State) (f : Firing) (d : ClDma) (rest : List ClDma), (s.cluster c).firing = some f →
    (s.cluster c).dmaRun = none → (s.cluster c).dmaQueue = d :: rest → d.unit < 8 →
    ∃ t, exec (.dmaTransferStart c) s = .next t ∧ (t.cluster c).dmaQueue = rest ∧ t.shm = s.shm ∧ t.stage = s.stage ∧
      (s.dmaCheck c f d = none → (t.cluster c).dmaRun = some d ∧ t.units = s.units ∧ t.regs = s.regs) ∧
      (∀ code, s.dmaCheck c f d = some code → (t.cluster c).dmaRun = none ∧
        (t.unit (8 * c + d.unit)).dmaOut = (s.unit (8 * c + d.unit)).dmaOut - 1 ∧
        (s.bit (Reg.FABRIC_CL_DMA_DMA_ERR c) = false → t.bit (Reg.FABRIC_CL_DMA_DMA_ERR c) = true ∧
          t.get (Reg.FABRIC_CL_DMA_UNIT c) = d.unit ∧ t.get (Reg.FABRIC_CL_DMA_CODE c) = code) ∧
        (s.bit (Reg.FABRIC_CL_DMA_DMA_ERR c) = true → t.regs = s.regs))) ∧
  (∀ (c : Fin 64) (s : State) (f : Firing) (d : ClDma), (s.cluster c).firing = some f → (s.cluster c).dmaRun = some d →
    f.entry.seqCycles ≤ f.clk → f.glaze = none →
    (∃ en ∈ f.entry.slotTable, grants en 10 = true ∧ isWriteCycle en = !d.out) →
    (∀ u < 8, (s.unit (8 * c + u)).reading = false ∧ (s.unit (8 * c + u)).writing = false) →
    d.unit < 8 → d.moved = 0 → 0 < d.length → d.length % 32 = 0 → d.localAddr + d.length ≤ 0xFF800 →
    (d.out = true → d.space = 4 → d.target < 64 → d.target ≠ c.val → d.remote + d.length ≤ 2 ^ 20 →
      ∃ t, exec (.dmaTransferComplete c .clean []) s = .next t ∧ (t.cluster c).dmaRun = none ∧
        (t.unit (8 * c + d.unit)).dmaOut = (s.unit (8 * c + d.unit)).dmaOut - 1 ∧ t.regs = s.regs ∧
        (∀ k < d.length / 4, Memory.read32 t.shm (shmAddr d.target d.remote + 4 * k) =
          Memory.read32 s.shm (shmAddr c d.localAddr + 4 * k))) ∧
    (d.out = false → d.space = 0 →
      ∃ t, exec (.dmaTransferComplete c .clean []) s = .next t ∧ (t.cluster c).dmaRun = none ∧ t.stage = s.stage ∧
        (t.unit (8 * c + d.unit)).dmaOut = (s.unit (8 * c + d.unit)).dmaOut - 1 ∧ t.regs = s.regs ∧
        (∀ k < d.length / 4, Memory.read32 t.shm (shmAddr c d.localAddr + 4 * k) =
          Memory.read32 s.stage (d.remote + 4 * k)))) ∧
  (∀ (c : Fin 64) (s : State) (e : Ecc) (bad : List Nat), (s.cluster c).dmaRun = none →
    exec (.dmaTransferComplete c e bad) s = .next s) ∧
  (∀ (c : Fin 64) (s : State) (a : Nat) (h : CmdHdr), (s.cluster c).peek = some (a, h) →
    ((s.cluster c).firing = none → ∃ t, exec (.peekCopy c) s = .next t ∧ (t.cluster c).peek = none ∧ t.units = s.units ∧
      t.shm = s.shm ∧ t.host.done = s.host.done ++ [⟨h, 0x0B01, .ok, 0, 0, 0, false⟩] ∧
      ∀ j < 64, t.get (Reg.FABRIC_CL_PEEK_DATA c j) = (Memory.read32 s.shm (shmAddr c a + 4 * j)).toNat) ∧
    ((s.cluster c).firing.isSome = true → exec (.peekCopy c) s = .next s))

/-- FRAME_START_MARKER of a running domain, with no power-down or release waiting for ramps, advances its SI by its block size, whatever the inputs received; with a domain that is not configured or does not run it changes nothing. GLAZE_SECTION_START with sections left in the job of the running firing, and with none begun or the one before computed, begins the next section at its place in the list with the writes that are still owed, sets WAITED where it is late, and changes nothing else; without a firing, a job, a section left, or while a section is not computed it changes nothing. Computing a bypassed section without CHAIN, NEW or a ramp, whose input block is there, makes the input its output, and the words of that block, eight to a port write at the output address, join the writes it owes. -/
def Obligations.FramesAndGlazeSections : Prop :=
  (∀ (d : Fin 3) (inputs : List PortInput) (s : State),
    ((s.dom d).configured = true → (s.dom d).running = true → s.pwr.afterRamp = none →
      ∃ t, exec (.frameStartMarker d inputs) s = .next t ∧ (t.dom d).si = (s.dom d).si + (s.dom d).block) ∧
    ((s.dom d).configured = false ∨ (s.dom d).running = false → exec (.frameStartMarker d inputs) s = .next s)) ∧
  (∀ (c : Fin 64) (late : Bool) (s : State),
    (∀ (f : Firing) (job : GlazeJob), (s.cluster c).firing = some f → f.entry.glaze = some job → f.glazeDone < job.count →
      (∀ owing : List (Nat × List Word), (f.glaze = none ∧ owing = []) ∨ (∃ r, f.glaze = some r ∧ r.ready = true ∧ owing = r.writes) →
        let r : GlazeRun := { sec := f.glazeDone, base := job.listAddr + 32 * f.glazeDone, writes := owing }
        exec (.glazeSectionStart c late) s = .next ((if late then s.put (Reg.FABRIC_CL_GLAZE_WAITED c) 1 else s).setCluster c
          { s.cluster c with firing := some { f with glazeDone := f.glazeDone + 1, glaze := some r } }))) ∧
    ((s.cluster c).firing = none ∨ (∃ f, (s.cluster c).firing = some f ∧ (f.entry.glaze = none ∨
        (∃ job, f.entry.glaze = some job ∧ job.count ≤ f.glazeDone) ∨ ∃ r, f.glaze = some r ∧ r.ready = false)) →
      exec (.glazeSectionStart c late) s = .next s)) ∧
  (∀ (c : Fin 64) (s : State) (f : Firing) (job : GlazeJob) (r : GlazeRun), f.entry.glaze = some job →
    r.bypass = true → r.chain = false → r.new = false → r.ramp = 0 → r.inp.length = (s.dom f.domain).block →
    let w := portWords r.outAddr ((s.dom f.domain).block / 8) r.inp
    ∃ g, ((s.glazeCompute c f r).cluster c).firing = some g ∧ g.glazeOut = r.inp ∧
      g.glaze = some { r with ready := true, writes := r.writes ++ w })

/-- SCHEDULE_SWITCH of the last domain due, once the SI of the domain (for a domain that is not configured, the SI of domain P) has reached the switch SI, makes the pending schedule active, ends PENDING and shows the bank where the range does not change; where it changes the domain begins to ramp down and nothing switches. Before the switch SI nothing changes. RANGE_PIPELINE_STOP after the ramp stops the domain's pipeline and the clocks of its regions, and leaves its SI, the other domains, the units and the schedules. RANGE_RESTART of a stopped configured domain runs it at the rate and block of its share in the pending schedule from the restart boundary on, and the ramp up is set for the boundary two blocks later. -/
def Obligations.ScheduleSwitchAndRange : Prop :=
  (∀ (d : Fin 3) (s : State) (n : SchedImage), s.pendingBank.image = some n → s.pendingBank.armed = true →
    s.sched.toSwitch = [d.val] →
    let due (n : Nat) : Prop := if (s.dom d).configured = true then s.siTo d n ≤ (s.dom d).si else n ≤ (s.dom 0).si
    (due s.pendingBank.switchSi →
      (rangeChanges s.active n s.pendingBank.roast d = false →
        ∃ t, exec (.scheduleSwitch d) s = .next t ∧ t.active = some n ∧ t.sched.active = 1 - s.sched.active ∧
          t.sched.toSwitch = [] ∧ t.bit Reg.SCHED_STATUS_PENDING = false ∧
          t.get Reg.SCHED_STATUS_ACTIVE_BANK = t.sched.active.val) ∧
      (rangeChanges s.active n s.pendingBank.roast d = true → Tab.get 0 s.pwr.range d = 0 →
        ∃ t, exec (.scheduleSwitch d) s = .next t ∧ Tab.get 0 t.pwr.range d = 1 ∧ t.sched = s.sched ∧ t.units = s.units ∧
          t.doms = s.doms)) ∧
    (¬due s.pendingBank.switchSi → exec (.scheduleSwitch d) s = .next s)) ∧
  (∀ (d : Fin 3) (s : State), Tab.get 0 s.pwr.range d = 1 →
    (Tab.get {} s.pwr.gain d).start + s.samplesMs d 5 ≤ (s.dom d).si + (Tab.get {} s.pwr.gain d).base →
    ∃ t, exec (.rangePipelineStop d) s = .next t ∧ Tab.get 0 t.pwr.range d = 2 ∧ (t.dom d).running = false ∧
      (t.dom d).si = (s.dom d).si ∧ (∀ e, e ≠ d.val → t.dom e = s.dom e) ∧ t.units = s.units ∧ t.sched = s.sched ∧
      ∀ i g, s.active = some i → g < 8 → domainOf i g = some d.val → t.bit (Reg.FABRIC_RG_CLK_RUNNING g) = false) ∧
  (∀ (d : Fin 3) (si : BitVec 64) (s : State) (n : SchedImage) (x : DomainShare), s.pendingBank.image = some n →
    shareOf n d = some x → Tab.get 0 s.pwr.range d = 2 → (s.dom d).configured = true →
    let b := max 1 x.block
    let r := if s.pendingBank.roast = true then ceilDiv si.toNat b * b else
      restartSi (s.dom d).si (s.dom d).rate x.rate x.block (if frameHz (s.dom d).rate = frameHz x.rate then 1 else 10)
    ∃ t, exec (.rangeRestart d si) s = .next t ∧ (t.dom d).rate = x.rate ∧ (t.dom d).block = x.block ∧
      (t.dom d).si = r ∧ (t.dom d).running = true ∧ Tab.get 0 t.pwr.range d = 3 + (r + 2 * b))

/-- PROG_LOAD and, on an engine that is no standby, SCHED_ADMIT with valid fields wait for the buffers of their ring where program staging has room, and complete with BUSY where it has none; a standby refuses SCHED_ADMIT. ADMISSION_COMPLETE takes the oldest admission in progress: with the pending bank not armed, no thermal hold, a valid signature, no region that moves, valid bridges and no refused change of range, an image that passes every check, with TARGET all ones, takes the pending bank unarmed, the command completes with OK and the active schedule stays; a check that fails completes it with NO_HEADROOM and its detail word and leaves both banks. SCHED_ADMIT_ARM of an unarmed pending image that passes arms it at its SI, shows it pending, and completes with OK or LATE; of an armed one it completes with BUSY. With no admission in progress ADMISSION_COMPLETE changes nothing, and with no pending image SCHED_ADMIT_ARM is REFUSED. -/
def Obligations.ImagesAndAdmission : Prop :=
  (∀ (h : CmdHdr) (kind ring entry length : Nat) (s : State), ring ≤ 3 → 64 ≤ length → length ≤ 2 ^ 24 →
    (1 ≤ kind → kind ≤ 3 → entry ≤ 4095 → (kind = 3 ∨ entry = 0) →
      exec (.progLoad h kind ring entry length) s = .next (if s.stagingFits length = true then s.modHost fun x =>
        { x with transfers := x.transfers ++ [⟨h, 0x0500, kind, ring, entry, length, 0⟩] }
        else s.finish h 0x0500 .busy 0 0 0)) ∧
    (kind = 0 → s.standby = false → exec (.schedAdmit h kind ring length) s =
      .next (if s.stagingFits length = true then s.modHost fun x =>
        { x with transfers := x.transfers ++ [⟨h, 0x0600, 0, ring, 0, length, 0⟩] }
        else s.finish h 0x0600 .busy 0 0 0)) ∧
    (s.standby = true → exec (.schedAdmit h kind ring length) s = .next (s.finish h 0x0600 .refused 0 0 0))) ∧
  (∀ s : State, s.sched.checking = [] → exec .admissionComplete s = .next s) ∧
  (∀ (h : CmdHdr) (s : State), s.pendingBank.image = none →
    exec (.schedAdmitArm h) s = .next (s.finish h 0x0601 .refused 0 0 0)) ∧
  (∀ (s : State) (h : CmdHdr) (i : SchedImage) (rest : List (CmdHdr × SchedImage)), s.sched.checking = (h, i) :: rest →
    let s1 := (s.modSched fun q => { q with checking := rest }).putBit Reg.SCHED_STATUS_CHECKING (!rest.isEmpty)
    s.pendingBank.armed = false → s.bit Reg.SCHED_STATUS_THERM_HOLD = false → s1.checkSig i.sig 4 = none →
    movesRegion s.active i = false → i.bridges.all (s.bridgeOk i) = true → s1.rangeRefused i (h.flags % 2 == 1) = none →
    (∀ n e d, s1.checks i = some (n, e, d) → ∃ t, exec .admissionComplete s = .next t ∧
      Completed s t h 0x0600 .noHeadroom (n + e * 2 ^ 8 + d * 2 ^ 24) 0 0 ∧
      t.sched = { s.sched with checking := rest } ∧ t.units = s.units) ∧
    (s1.checks i = none → h.target = 2 ^ 64 - 1 → ∃ t, exec .admissionComplete s = .next t ∧
      Completed s t h 0x0600 .ok 0 0 0 ∧ t.pendingBank = { image := some i, armed := false, switchSi := 0, hdr := some h } ∧
      t.active = s.active ∧ t.sched.checking = rest ∧ t.bit Reg.SCHED_STATUS_NONE = false ∧ t.units = s.units)) ∧
  (∀ (s : State) (h : CmdHdr) (i : SchedImage), s.pendingBank.image = some i →
    let p := s.applyAt 0 h.target
    let g : CmdHdr := { h with flags := (s.pendingBank.hdr.getD {}).flags }
    (s.pendingBank.armed = false → s.standby = false → h.target ≠ 2 ^ 64 - 1 → s.switchSharesOk i p.1 = true →
      (s.armBank p.1 g).poursFit = true → ∃ t, exec (.schedAdmitArm h) s = .next t ∧
        Completed s t h 0x0601 (if p.2 then .late else .ok) 0 p.1 0 ∧
        t.pendingBank = { image := some i, armed := true, switchSi := p.1, hdr := some g } ∧
        t.active = s.active ∧ t.bit Reg.SCHED_STATUS_PENDING = true ∧ t.get Reg.SCHED_SWITCH_SI_SI = p.1 % 2 ^ 64) ∧
    (s.pendingBank.armed = true → s.standby = false → h.target ≠ 2 ^ 64 - 1 →
      exec (.schedAdmitArm h) s = .next (s.finish h 0x0601 .busy 0 0 0)))

/-- SCHED_ADMIT_READMIT of quarantined clusters that the active schedule fires, with no thermal hold and no bypass, is queued and mirrored. READMISSION at a boundary of the cluster's domain at or after its SI, for a request that names one cluster, takes the cluster out of quarantine, completes the command with OK or LATE and the SI of that boundary in domain P, and drops the request; no other cluster and no unit changes. With twelve readings, THERMAL_HOLD_ENTER with a sensor above 100 degrees sets the hold with one THERMAL event, and THERMAL_HOLD_LEAVE with every sensor at 97 degrees or below ends it with another; otherwise they show the readings only. A slice write with no field of 3 is taken while no schedule has been admitted; afterwards, or with a field of 3 in its lowest two bits, it sets REJ. -/
def Obligations.ReadmissionHoldAndSlices : Prop :=
  (∀ (h : CmdHdr) (l : List (Fin 68)) (i : SchedImage) (s : State), s.standby = false →
    s.bit Reg.SCHED_STATUS_THERM_HOLD = false → l ≠ [] → s.active = some i →
    (∀ k ∈ l, k.val < 64 ∧ s.quarantined k = true ∧ s.bit (Reg.FABRIC_RG_CLK_BYPASS (k / 8)) = false ∧
      firingsOf i (s.logical k) ≠ []) →
    exec (.schedAdmitReadmit h l) s = .next (State.mirrorOut (s.modSched fun q =>
      { q with readmits := q.readmits ++ [⟨h, l.map (·.val), [], h.target, s.readmitLate l h.target⟩] })
      (.readmit l h.target))) ∧
  (∀ (d : Fin 3) (s : State) (r : Readmit) (c : Nat), s.sched.readmits = [r] → r.clusters = [c] → r.servos = [] → c < 64 →
    (s.imageAt c).isSome = true → s.clusterDomain c = d.val → s.siTo d r.target ≤ (s.dom d).si →
    ∃ t, exec (.readmission d) s = .next t ∧ t.quarantined c = false ∧ (t.cluster c).zeroing = false ∧
      t.sched.readmits = [] ∧ Completed s t r.hdr 0x0602 (if r.late then .late else .ok) 0 (s.toP d (s.dom d).si) 0 ∧
      t.units = s.units ∧ ∀ k, k ≠ c → t.cluster k = s.cluster k) ∧
  (∀ (l : List (BitVec 16)) (s : State), l.length = 12 →
    let s1 := s.showTemps l
    (s.bit Reg.SCHED_STATUS_THERM_HOLD = false → (∃ w ∈ l, 1000 < w.toInt) →
      exec (.thermalHoldEnter l) s = .next ((((s1.put Reg.SCHED_STATUS_THERM_HOLD 1).put Reg.GLOBAL_THERM_HOLD 1).put
        Reg.GLOBAL_THERM_HOLD_SEEN 1).postNow .fault (some 58) 0x15 [1, hottest l])) ∧
    (s.bit Reg.SCHED_STATUS_THERM_HOLD = true → (∀ w ∈ l, w.toInt ≤ 970) →
      exec (.thermalHoldLeave l) s = .next (((s1.put Reg.SCHED_STATUS_THERM_HOLD 0).put Reg.GLOBAL_THERM_HOLD 0).postNow .fault
        (some 58) 0x15 [0, hottest l])) ∧
    ((∀ w ∈ l, w.toInt ≤ 1000) → exec (.thermalHoldEnter l) s = .next s1) ∧
    ((∃ w ∈ l, 970 < w.toInt) → exec (.thermalHoldLeave l) s = .next s1)) ∧
  (∀ (r : Fin 10) (v : BitVec 32) (s : State), s.hostUp = true → s.bit Reg.GLOBAL_RESTORE_DONE = true →
    (s.bit Reg.SCHED_STATUS_NONE = true → v.toNat % 4 ≠ 3 →
      (8 ≤ r.val → exec (.schedSliceWrite r v) s = .next (s.put (Reg.SCHED_SLICE_D_BRIDGE (r - 8)) (v.toNat % 4))) ∧
      (r.val < 8 → v.toNat / 4 % 4 ≠ 3 → v.toNat / 16 % 4 ≠ 3 → exec (.schedSliceWrite r v) s =
        .next (((s.put (Reg.SCHED_SLICE_RG_CL r) (v.toNat % 4)).put (Reg.SCHED_SLICE_RG_DLY r) (v.toNat / 4 % 4)).put
          (Reg.SCHED_SLICE_RG_UP r) (v.toNat / 16 % 4)))) ∧
    (s.bit Reg.SCHED_STATUS_NONE = false ∨ v.toNat % 4 = 3 →
      exec (.schedSliceWrite r v) s = .next (s.put Reg.SCHED_SLICE_ST_REJ 1)))

/-- SPARE_ROTATION of an enabled region that is not withdrawn, at a rotation frame, with the next cluster between firings, gives the spare the role of that cluster, makes that cluster the spare under test, and counts the rotation; where the region must wait it sets WAITED and changes no role. SPARE_TEST_DONE ends the test and withdraws the region where it failed. BIST_GO answers in CODE, runs a test that is answered OK and queues one that is DEFERRED; BIST_TEST_START runs a queued, permitted one whose condition holds; BIST_DONE ends a running one with its result, the value of a measuring test, one RUN more and, where it failed, one FAIL more. REFXO_FAIL latches the failure, shows the reference not OK, closes the transmit gate and keeps it from opening; a holder becomes CUT. -/
def Obligations.RotationSelfTestAndReference : Prop :=
  (∀ (g : Fin 8) (s : State), s.bit (Reg.BIST_ROT_RG_ENABLED g) = true → s.bit (Reg.BIST_ROT_RG_WITHDRAWN g) = false →
    s.rotationFrame g = true → s.get (Reg.BIST_ROT_RG_SPARE g) < 8 →
    let p := s.spare g
    let o := 8 * g.val + (p + 1) % 8
    (s.rotationWaits g = false → (s.cluster o).firing = none → ∃ t, exec (.spareRotation g) s = .next t ∧
      t.spare g = o ∧ t.logical p = s.logical o ∧ t.logical o = s.logical p ∧ t.bit (Reg.BIST_ROT_RG_TESTING g) = true ∧
      t.get (Reg.BIST_ROT_RG_ROTATIONS g) = min (s.get (Reg.BIST_ROT_RG_ROTATIONS g) + 1) 65535 ∧ t.units = s.units) ∧
    (s.rotationWaits g = true → ∃ t, exec (.spareRotation g) s = .next t ∧ t.bit (Reg.BIST_ROT_RG_WAITED g) = true ∧
      t.regions = s.regions ∧ t.clusters = s.clusters)) ∧
  (∀ (g : Fin 8) (pass : Bool) (s : State), s.bit (Reg.BIST_ROT_RG_TESTING g) = true →
    ∃ t, exec (.spareTestDone g pass) s = .next t ∧ t.bit (Reg.BIST_ROT_RG_TESTING g) = false ∧ t.clusters = s.clusters ∧
      t.bit (Reg.BIST_ROT_RG_WITHDRAWN g) = (s.bit (Reg.BIST_ROT_RG_WITHDRAWN g) || !pass)) ∧
  (∀ (k n : BitVec 8) (s : State), s.hostUp = true →
    ∃ t, exec (.bistGo k n) s = .next t ∧ t.get Reg.BIST_REQ_STATUS_CODE = (s.bistAnswer k.toNat n.toNat).code ∧
      t.bist.running = s.bist.running ++ (if s.bistAnswer k.toNat n.toNat = .ok then [(k.toNat, n.toNat)] else []) ∧
      t.bist.queued = s.bist.queued ++ (if s.bistAnswer k.toNat n.toNat = .deferred then [(k.toNat, n.toNat)] else []) ∧
      t.units = s.units) ∧
  (∀ (k n : BitVec 8) (s : State), (k.toNat, n.toNat) ∈ s.bist.queued → s.bistAllowed k.toNat = true →
    s.bistCondition k.toNat n.toNat = .ok → ∃ t, exec (.bistTestStart k n) s = .next t ∧
      t.bist.running = s.bist.running ++ [(k.toNat, n.toNat)] ∧ (k.toNat, n.toNat) ∉ t.bist.queued ∧
      t.bit Reg.BIST_REQ_STATUS_RUNNING = true) ∧
  (∀ (k n : BitVec 8) (pass : Bool) (v : BitVec 32) (s : State), (k.toNat, n.toNat) ∈ s.bist.running →
    ∃ t, exec (.bistDone k n pass v) s = .next t ∧ (k.toNat, n.toNat) ∉ t.bist.running ∧ t.bist.queued = s.bist.queued ∧
      t.get Reg.BIST_LAST_TEST = k.toNat ∧ t.get Reg.BIST_LAST_INSTANCE = n.toNat ∧ t.bit Reg.BIST_LAST_PASS = pass ∧
      t.get Reg.BIST_LAST_VALUE_VALUE = (if bistMeasures k.toNat then v.toNat else 0) ∧
      t.get Reg.BIST_CNT_RUN = min (s.get Reg.BIST_CNT_RUN + 1) 65535 ∧
      t.get Reg.BIST_CNT_FAIL = (if pass then s.get Reg.BIST_CNT_FAIL else min (s.get Reg.BIST_CNT_FAIL + 1) 65535)) ∧
  (∀ s : State, s.bit Reg.CLK_STATUS_REFXO_FAIL = false → ∃ t, exec .refxoFail s = .next t ∧
    t.bit Reg.CLK_STATUS_REFXO_FAIL = true ∧ t.bit Reg.CLK_STATUS_REFXO_OK = false ∧ t.bit Reg.PAIR_STATUS_GATE_OPEN = false ∧
    t.gateFree = false ∧ t.get Reg.PAIR_STATUS_ROLE = (if s.get Reg.PAIR_STATUS_ROLE = 1 then 3 else s.get Reg.PAIR_STATUS_ROLE) ∧
    t.units = s.units ∧ t.clusters = s.clusters)

/-- With a list that passes its own check, on an engine that is no standby: PARAM_SET whose items pass and whose plan fits adds the plan's entries after those that wait (the targets of waiting changes move where R105 moves them) and has a crossfade for the object and domain of each of the plan's; ROUTE whose items pass and that fits likewise adds its patch changes after those that wait and patches nothing yet. Parameters in force, shared memory and units stay. The command completes at once with OK, or LATE where an item is late, and the SI applied, unless a crossfade then carries it: then it waits. An item that fails completes the command with REFUSED, the offset and index of the item, a full queue with BUSY and FULL_SEEN, a PARAM_SET crossfade that does not fit with NO_HEADROOM and a ROUTE that does not fit with its status and item; but for the register bit nothing else changes then. -/
def Obligations.ParameterAndRouteChanges : Prop :=
  (∀ (h : CmdHdr) (ramp : Nat) (l : ListAt) (items : List ParamItem) (s : State),
    s.listCheck h l items.length 4096 = none → s.standby = false →
    let plan := s.planAll h.target (.samples ramp) (h.flags.testBit 1) items 0
    let id := s.mix.nextOrder + 1
    (∀ k f, plan = .error (k, f) →
      exec (.paramSet h ramp l items) s = .next (s.finish h 0x0100 .refused (itemOffset l k f % 256 + k * 256) 0 0)) ∧
    (∀ ps c, plan = .ok ps → s.planOf ps 1 s.mix.nextOrder none [id] = .error (.busy, c) →
      exec (.paramSet h ramp l items) s = .next ((s.put (Reg.FABRIC_CL_SEQ_FULL_SEEN c) 1).finish h 0x0100 .busy 0 0 0)) ∧
    (∀ ps c, plan = .ok ps → s.planOf ps 1 s.mix.nextOrder none [id] = .error (.noHeadroom, c) →
      ∃ k, exec (.paramSet h ramp l items) s =
        .next (s.finish h 0x0100 .noHeadroom (itemOffset l k .handle % 256 + k * 256) 0 0)) ∧
    (∀ ps p, plan = .ok ps → s.planOf ps 1 s.mix.nextOrder none [id] = .ok p →
      ∃ t, exec (.paramSet h ramp l items) s = .next t ∧
        t.mix.changes.map (fun e => { e with target := 0 }) = (s.mix.changes ++ p.entries).map (fun e => { e with target := 0 }) ∧
        (∀ x ∈ p.fades, ∃ y ∈ t.mix.fades, y.object = x.object ∧ y.domain = x.domain) ∧
        t.mix.params = s.mix.params ∧ t.units = s.units ∧ t.shm = s.shm ∧
        ((∀ x ∈ t.mix.fades, id ∉ x.waiters) →
          Completed s t h 0x0100 (if (s.planSi h.target p.items).2 then .late else .ok) 0 (s.planSi h.target p.items).1 0) ∧
        ((∃ x ∈ t.mix.fades, id ∈ x.waiters) → t.host.done = s.host.done ∧ ∃ w ∈ t.mix.waits, w.id = id ∧ w.hdr = h))) ∧
  (∀ (h : CmdHdr) (ramp law : Nat) (l : ListAt) (items : List RouteItem) (s : State) (i : SchedImage),
    law ≤ 1 → s.listCheck h l items.length 1024 = none → s.standby = false → s.active = some i →
    let plan := s.planPatches h.target ramp (law == 1) items 0
    let id := s.mix.nextOrder + 1
    let made (ps : List (PlannedPatch × Bool)) : Except (Status × Nat) State :=
      s.commitPatches (ps.map (·.1)) (2 ^ 113 + s.mix.nextOrder) none [id]
    (∀ k f, plan = .error (k, f) →
      exec (.route h ramp law l items) s = .next (s.finish h 0x0300 .refused (itemOffset l k f % 256 + k * 256) 0 0)) ∧
    (∀ ps st k, plan = .ok ps → made ps = .error (st, k) →
      exec (.route h ramp law l items) s = .next (s.finish h 0x0300 st (itemOffset l k .handle % 256 + k * 256) 0 0)) ∧
    (∀ ps u, plan = .ok ps → made ps = .ok u →
      let late := ps.any fun p => p.1.late
      let si := if late = true then ps.foldl (fun m p => max m (s.toP p.1.domain p.1.target)) 0
        else if h.target = 0 then s.earliest 0 else h.target
      ∃ t, exec (.route h ramp law l items) s = .next t ∧ t.units = s.units ∧ t.shm = s.shm ∧ t.mix.patch = s.mix.patch ∧
        t.mix.params = s.mix.params ∧
        t.mix.patchChanges.map (fun e => { e with target := 0 }) = (s.mix.patchChanges ++
          s.patchChanges i none (ps.map (·.1)) (2 ^ 113 + s.mix.nextOrder) []).map (fun e => { e with target := 0 }) ∧
        ((∀ x ∈ t.mix.fades, id ∉ x.waiters) → Completed s t h 0x0300 (if late then .late else .ok) 0 si 0) ∧
        ((∃ x ∈ t.mix.fades, id ∈ x.waiters) → t.host.done = s.host.done ∧ ∃ w ∈ t.mix.waits, w.id = id ∧ w.hdr = h)))

/-- METER_SUB_OPEN of known points, with its list and buffer in windows, a period of at least a millisecond and a free number, takes the lowest free number and answers with it where the load fits, and completes with NO_HEADROOM where it does not. METER_UPDATE of a subscription within a window, with room for the half in the ledger, writes its next half to host memory with the next sequence number, the SI of the block and as many values as it has points, and changes no register, unit or other subscription; without the room it changes nothing; with no window it closes the subscription. METER_SUB_CLOSE frees the number; of a number that is not open it is REFUSED. QUERY_PATH and QUERY_VALUE answer at once, and are REFUSED where there is nothing to answer. QUERY_PEEK of a valid cluster and an aligned address waits in the cluster, and is BUSY where one waits there; QUERY_CLEAR waits in each cluster and region it names. A misaligned peek and a peek of no cluster are REFUSED, and a clear of nothing completes with EMPTY. -/
def Obligations.MetersAndQueries : Prop :=
  (∀ (h : CmdHdr) (period addr buf k : Nat) (points : List Nat) (s : State) (i : SchedImage),
    1 ≤ points.length → points.length ≤ 8192 → 0 < period → s.windowOk addr (4 * points.length) false = true →
    s.windowOk buf (2 * halfBytes points.length) true = true → s.active = some i → (∀ p ∈ points, knownMeter i p = true) →
    let d := objectDomain i (points.headD 0)
    (s.dom d).rate ≤ period * (s.dom d).block * 1000 →
    (List.range 16).find? (fun k => (Tab.get none s.mix.meters k).isNone) = some k →
    let m : MeterSub := { points := points, period := period, buf := buf, domain := d, ring := s.cmdRing h,
                          values := List.replicate points.length 0xC3100000, phase := (s.dom d).si / (s.dom d).block }
    (s.meterFits i d (m :: s.metersOf d) = true → exec (.meterSubOpen h period addr points buf) s =
      .next ((s.modMix fun q => { q with meters := Tab.put none q.meters k (some m) }).finish h 0x0400 .ok 0 0 k)) ∧
    (s.meterFits i d (m :: s.metersOf d) = false → exec (.meterSubOpen h period addr points buf) s =
      .next (s.finish h 0x0400 .noHeadroom 16 0 0))) ∧
  (∀ (n : Fin 16) (vs : List Word) (s : State) (x : MeterSub), Tab.get none s.mix.meters n = some x →
    s.windowOk x.buf (2 * halfBytes x.points.length) true = true →
    (halfBytes x.points.length ≤ s.ledgerLeft →
      ∃ t y flags, exec (.meterUpdate n vs) s = .next t ∧ t.regs = s.regs ∧ t.units = s.units ∧
        t.hostMem = Memory.writeBytes s.hostMem (x.buf + (x.seq + 1) % 2 * halfBytes x.points.length)
          (meterBytes (x.seq + 1) ((s.dom x.domain).si - 1) flags y.values) ∧ y.values.length = x.points.length ∧
        Tab.get none t.mix.meters n = some y ∧ y.seq = x.seq + 1 ∧ y.restart = false ∧ y.points = x.points ∧
        (∀ m, m ≠ n.val → Tab.get none t.mix.meters m = Tab.get none s.mix.meters m)) ∧
    (s.ledgerLeft < halfBytes x.points.length → exec (.meterUpdate n vs) s = .next s)) ∧
  (∀ (n : Fin 16) (vs : List Word) (s : State) (x : MeterSub), Tab.get none s.mix.meters n = some x →
    s.windowOk x.buf (2 * halfBytes x.points.length) true = false →
    ∃ t, exec (.meterUpdate n vs) s = .next t ∧ Tab.get none t.mix.meters n = none) ∧
  (∀ (h : CmdHdr) (n : Nat) (s : State),
    (n < 16 → (Tab.get none s.mix.meters n).isSome = true → exec (.meterSubClose h n) s =
      .next ((s.modMix fun q => { q with meters := Tab.put none q.meters n none }).finish h 0x0401 .ok 0 0 0)) ∧
    (16 ≤ n ∨ Tab.get none s.mix.meters n = none → exec (.meterSubClose h n) s = .next (s.finish h 0x0401 .refused 16 0 0))) ∧
  (∀ (h : CmdHdr) (a b : Nat) (s : State),
    (∀ n d, s.latency a b = some (n, d) →
      exec (.queryPath h a b) s = .next (s.finish h 0x0B00 .ok 0 0 (n % 2 ^ 32 + d * 2 ^ 32))) ∧
    (s.latency a b = none → exec (.queryPath h a b) s = .next (s.finish h 0x0B00 .refused 16 0 0)) ∧
    (let d := s.handleDomain a
     (∀ i, s.active = some i → (paramInfo (s.dom d).rate a).isSome = true → inPlace i a = true →
      exec (.queryValue h a) s =
        .next (s.finish h 0x0B03 .ok 0 (s.toP d (s.earliest d)) (s.valueAt a (s.earliest d)).toNat)) ∧
     (s.active = none ∨ (paramInfo (s.dom d).rate a).isSome = false ∨ (∃ i, s.active = some i ∧ inPlace i a = false) →
      exec (.queryValue h a) s = .next (s.finish h 0x0B03 .refused 16 0 0))) ∧
    (a < 64 → b % 256 = 0 → b < 2 ^ 20 → (s.cluster a).peek = none →
      exec (.queryPeek h a b) s = .next (s.setCluster a { s.cluster a with peek := some (b, h) })) ∧
    (a < 64 → b % 256 = 0 → b < 2 ^ 20 → (s.cluster a).peek.isSome = true →
      exec (.queryPeek h a b) s = .next (s.finish h 0x0B01 .busy 0 0 0)) ∧
    (a < 64 → b % 256 ≠ 0 → exec (.queryPeek h a b) s = .next (s.finish h 0x0B01 .refused 20 0 0)) ∧
    (64 ≤ a → exec (.queryPeek h a b) s = .next (s.finish h 0x0B01 .refused 16 0 0))) ∧
  (∀ (h : CmdHdr) (cs : BitVec 64) (gs : BitVec 8) (s : State),
    (cs ≠ 0 ∨ gs ≠ 0 → ∃ t, exec (.queryClear h cs gs) s = .next t ∧ t.regs = s.regs ∧ t.host = s.host ∧
      (∀ c < 64, t.cluster c = if cs.getLsbD c then { s.cluster c with clears := (s.cluster c).clears ++ [h] } else s.cluster c) ∧
      (∀ g < 8, t.region g = if gs.getLsbD g then { s.region g with clears := (s.region g).clears ++ [h] } else s.region g)) ∧
    (cs = 0 → gs = 0 → exec (.queryClear h cs gs) s = .next (s.finish h 0x0B02 .empty 0 0 0)))

/-- POUR with valid fields and an explicit list for this device alone is accepted while fewer than 64 pours live: one pour more compiles, from its SI or the earliest block, with its runs and its command, and mixing state and host state stay; a template is kept instead. POUR_COMPILE_DONE, with no cancel and no dry run, takes the pour that has compiled longest: one in time whose compilation passes is armed at its SI with the mixing state of its plan; one too late that is not strict and had an SI of its own is armed as late at the earliest block; a strict one that is too late, and one whose compilation fails, end refused. POUR_START of an armed pour that no cancel has reached, once the block of its SI has been handled, makes it run from its SI; else it changes nothing. POUR_CANCEL of a pour that lives and has no cancel notes the cancel for its SI or the earliest block, and takes what an armed pour that starts no earlier has planned out of the mixing state; of any other, or of one that has finished, it completes with EMPTY, of an unknown one with REFUSED. POUR_CANCEL_APPLY of an armed pour whose start the cancel precedes removes every unapplied entry, patch change and swap of it and completes the cancel. No unit changes. -/
def Obligations.PourLife : Prop :=
  (∀ (h : CmdHdr) (r : PourReq) (s : State), r.reservedOk = true → r.law ≤ 2 → r.policy ≤ 2 → r.templateNo ≤ 63 →
    r.scene = 0xFFFF → r.devsel = 0 → s.windowOk r.listAddr r.listLen false = true →
    (r.template = true → s.standby = false → exec (.pour h r) s = .next (State.finish { s with pours := { s.pours with
      templates := Tab.put none s.pours.templates r.templateNo (some (h, r)) } } h 0x0200 .ok 0 0 0)) ∧
    (r.template = false → (h.target = 0 ∨ r.policy = 1) → r.endSi = none → s.get Reg.PAIR_CFG_EN ≠ 1 → s.liveCount < 64 →
      (∀ p ∈ s.pours.live, p.origin = s.devnum → p.tag = h.tag → phaseFinal p.phase = true) →
      ∃ t p, exec (.pour h r) s = .next t ∧ t.pours.live = s.pours.live ++ [p] ∧ p.origin = s.devnum ∧ p.tag = h.tag ∧
        p.phase = .compiling ∧ p.t = (if h.target = 0 then s.earliest 0 else h.target) ∧ p.runs = r.runs ∧ p.hdr = some h ∧
        t.mix = s.mix ∧ t.units = s.units ∧ t.host = s.host)) ∧
  (∀ (s : State) (p : Pour), s.pours.live.find? (fun p => p.phase == .compiling) = some p → p.cancel = none →
    p.dryRun = false → p.late = false →
    let armed (q : Pour) : Prop :=
      (∀ u n, s.compile q = .ok (u, n) → ∃ t, exec .pourCompileDone s = .next t ∧ t.mix = u.mix ∧ t.units = s.units ∧
        (t.pour p.origin p.tag).map (fun x => (x.phase, x.t, x.late)) = some (.armed, q.t, q.late)) ∧
      (∀ st k, s.compile q = .error (st, k) → exec .pourCompileDone s = .next (s.endPour p .refused st k))
    (s.pourLate p = false → armed p) ∧
    (s.pourLate p = true → p.soon = false → p.strict = false → armed (p.moved (s.earliest 0))) ∧
    (s.pourLate p = true → p.soon = false → p.strict = true → exec .pourCompileDone s = .next (s.endPour p .refused .refused 0))) ∧
  (∀ (o : BitVec 16) (n : BitVec 32) (s : State) (p : Pour), s.pour o.toNat n.toNat = some p →
    (p.phase = .armed → p.t < s.earliest 0 → (∀ c ∈ p.cancel, p.t < c.1) → ∃ t, exec (.pourStart o n) s = .next t ∧ t.mix = s.mix ∧ t.units = s.units ∧
      (t.pour o.toNat n.toNat).map (·.phase) = some .running ∧ (t.pour o.toNat n.toNat).map (·.startSi) = some p.t) ∧
    (¬(p.phase = .armed ∧ p.t < s.earliest 0 ∧ ∀ c ∈ p.cancel, p.t < c.1) → exec (.pourStart o n) s = .next s) ∧
    (∀ c h late, p.cancel = some (c, some h, late) → p.phase = .armed → c ≤ p.t →
      ∃ t, exec (.pourCancelApply o n) s = .next t ∧ t.units = s.units ∧
        (∀ e ∈ t.mix.changes, e.pour = some (p.origin, p.tag) → e.applied = true) ∧
        (∀ e ∈ t.mix.patchChanges, e.pour ≠ some (p.origin, p.tag)) ∧
        (∀ e ∈ t.mix.swaps, e.pour ≠ some (p.origin, p.tag)) ∧
        (⟨h, 0x0201, if late then .late else .ok, 0, c, 0, false⟩ : Done) ∈ t.host.done)) ∧
  (∀ (h : CmdHdr) (n : Nat) (s : State) (p : Pour), s.standby = false → s.pour s.devnum n = some p →
    (phaseFinal p.phase = false → p.cancel = none → ∃ t, exec (.pourCancel h n) s = .next t ∧
      t.mix = (if p.phase = .armed ∧ max h.target (s.earliest 0) ≤ p.t then (s.removePour p.origin p.tag).mix else s.mix) ∧
      t.units = s.units ∧ (t.pour s.devnum n).bind (·.cancel) =
        some (max h.target (s.earliest 0), some h, decide (h.target ≠ 0 ∧ h.target < s.earliest 0))) ∧
    (phaseFinal p.phase = true ∨ p.cancel.isSome = true →
      exec (.pourCancel h n) s = .next (s.finish h 0x0201 .empty 0 0 0))) ∧
  (∀ (h : CmdHdr) (n : Nat) (s : State), s.standby = false → s.pour s.devnum n = none →
    exec (.pourCancel h n) s = .next (if s.pours.finished.contains (s.devnum, n) then s.finish h 0x0201 .empty 0 0 0
      else s.finish h 0x0201 .refused 16 0 0))

/-- POUR_MESSAGE_RECEIVED of an unseen pour from a member, of a scene this engine holds, with fewer than 64 pours live, adds that pour to those that compile; a message that is not authenticated changes nothing. An authenticated POUR_REPORT_MESSAGE of an addressed device whose result is still open notes that the device has been heard, and a final one gives the device its status, ABORTED for a cancelled pour; one that is not authenticated changes nothing. POUR_MESSAGE_RESEND to a device reached over the network, before its first report and before the start, sends the pour's message again. POUR_REPORT_TIMEOUT gives another device without a result ABORTED. A pour that is not in a final state stays in the table. No unit and no mixing state changes. -/
def Obligations.PourMessages : Prop :=
  (∀ (m : PourMsg) (s : State), exec (.pourMessageReceived m false) s = .next s ∧
    (Tab.get 0 s.wl.members m.origin ≠ 0 → m.kind = 1 → s.pours.seen.contains (m.origin, m.tag) = false → s.liveCount < 64 →
      ∀ sc, Tab.get none s.pours.library m.scene = some sc → ∃ t, exec (.pourMessageReceived m true) s = .next t ∧
        t.pours.live = s.pours.live ++ [s.peerPour m sc.runs] ∧ t.mix = s.mix ∧ t.units = s.units ∧ t.host = s.host)) ∧
  (∀ (dev : BitVec 16) (m : PourMsg) (s : State) (p : Pour) (d : PourDev), m.kind = 3 → m.origin = s.devnum →
    s.pour m.origin m.tag = some p → p.devs.find? (fun d => d.dev == dev.toNat) = some d → d.posted = none →
    exec (.pourReportMessage dev m false) s = .next s ∧
    ∃ t, exec (.pourReportMessage dev m true) s = .next t ∧ t.mix = s.mix ∧ t.units = s.units ∧
      (phaseFinal p.phase = false → (t.pour m.origin m.tag).isSome = true) ∧
      ∀ q, t.pour m.origin m.tag = some q → ∃ e ∈ q.devs, e.dev = dev.toNat ∧ e.heard = true ∧
        e.posted = (if m.pstate < 3 then none else if m.pstate = 4 then some .aborted else some m.status)) ∧
  (∀ (n : BitVec 32) (dev : BitVec 16) (s : State) (p : Pour) (d : PourDev), s.pour s.devnum n.toNat = some p →
    d ∈ p.devs → d.dev = dev.toNat →
    (s.route dev.toNat = 4 → (s.dom 0).si ≤ p.t → d.heard = false →
      exec (.pourMessageResend n dev) s = .next (s.sendPour dev.toNat (s.pourMessage p))) ∧
    (d.posted = none → dev.toNat ≠ s.devnum → ∃ t, exec (.pourReportTimeout n dev) s = .next t ∧ t.mix = s.mix ∧
      t.units = s.units ∧ (phaseFinal p.phase = false → (t.pour s.devnum n.toNat).isSome = true) ∧
      ∀ q, t.pour s.devnum n.toNat = some q → ∃ e ∈ q.devs, e.dev = dev.toNat ∧ e.posted = some .aborted))

/-- On an engine whose host interface answers: a doorbell to an enabled ring with clear reserved bits and a position within it, not behind the one it replaces and not beyond what the ring holds, moves TAIL of a command or bulk ring or HEAD of an event ring and nothing else; any other only reports a ring fault with code 1. A ring that is enabled with a valid size, base and window, with no START event waiting, starts empty with no fault; one of another size stays disabled with CFG_REJ; another size while enabled is refused with CFG_REJ and nothing else. A write of a window's CTL gives it its three bits; one that takes ENABLE away while requests are outstanding holds the read of CTL, which WINDOW_DRAIN_DONE ends for that window alone. -/
def Obligations.RingsAndWindows : Prop :=
  (∀ (v : BitVec 32) (s : State), s.hostUp = true →
    let pos := v.toNat % 2 ^ 15
    let r := v.toNat / 2 ^ 16 % 16
    let n := s.get (ringLog2 r)
    let head := s.get (ringHead r)
    let tail := s.get (ringTail r)
    let event := 8 ≤ r ∧ r < 12
    let ok := s.bit (ringEnable r) = true ∧ v.toNat / 2 ^ 15 % 2 = 0 ∧ v.toNat / 2 ^ 20 = 0 ∧ ringIdx pos < 2 ^ n ∧
      (event → ringCount n pos tail ≤ ringCount n head tail) ∧
      (¬event → ringCount n head tail ≤ ringCount n head pos ∧ ringCount n head pos ≤ 2 ^ n)
    (ok → event → exec (.doorbell v) s = .next (s.put (ringHead r) pos)) ∧
    (ok → ¬event → exec (.doorbell v) s = .next (s.put (ringTail r) pos)) ∧
    (¬ok → exec (.doorbell v) s =
      .next (((s.put Reg.HOST_STATUS_RING_ERR 1).put (ringErr r) 1).postNow .fault (some 59) 0x16 [r, 1]))) ∧
  (∀ (r : Fin 16) (v : BitVec 32) (s : State), s.hostUp = true →
    (s.bit (ringEnable r) = false → fieldOf v.toNat (ringEnable r) = 1 → s.pwr.start = none →
      6 ≤ fieldOf v.toNat (ringLog2 r) → fieldOf v.toNat (ringLog2 r) ≤ 14 → s.get (ringBase r) % 4096 = 0 →
      s.ringMemOk r (s.get (ringBase r)) (entryBytes r * 2 ^ fieldOf v.toNat (ringLog2 r)) = true →
      ∃ t, exec (.hostRingCfgWrite r v) s = .next t ∧ t.bit (ringEnable r) = true ∧ t.get (ringHead r) = 0 ∧
        t.get (ringTail r) = 0 ∧ t.get (ringErr r) = 0 ∧ t.get (ringLog2 r) = fieldOf v.toNat (ringLog2 r) ∧
        t.host = s.host ∧ t.units = s.units) ∧
    (s.bit (ringEnable r) = false → fieldOf v.toNat (ringEnable r) = 1 →
      (fieldOf v.toNat (ringLog2 r) < 6 ∨ 14 < fieldOf v.toNat (ringLog2 r)) →
      ∃ t, exec (.hostRingCfgWrite r v) s = .next t ∧ t.bit (ringEnable r) = false ∧ t.bit Reg.HOST_STATUS_CFG_REJ = true ∧
        t.host = s.host ∧ t.units = s.units) ∧
    (s.bit (ringEnable r) = true → fieldOf v.toNat (ringLog2 r) ≠ s.get (ringLog2 r) →
      exec (.hostRingCfgWrite r v) s = .next (s.put Reg.HOST_STATUS_CFG_REJ 1))) ∧
  (∀ (k : Fin 16) (v : BitVec 32) (n : Nat) (s : State), s.hostUp = true →
    ∃ t, exec (.hostWinCtlWrite k v n) s = .next t ∧ t.bit (Reg.HOST_WIN_CTL_ENABLE k) = v.getLsbD 0 ∧
      t.bit (Reg.HOST_WIN_CTL_READ k) = v.getLsbD 1 ∧ t.bit (Reg.HOST_WIN_CTL_WRITE k) = v.getLsbD 2 ∧ t.units = s.units ∧
      (s.bit (Reg.HOST_WIN_CTL_ENABLE k) = true → v.getLsbD 0 = false → 0 < n → Tab.get false t.host.winHeld k = true)) ∧
  (∀ (k : Fin 16) (s : State), ∃ t, exec (.windowDrainDone k) s = .next t ∧ Tab.get false t.host.winHeld k = false ∧
    Tab.get 0 t.host.winOut k = 0 ∧ t.regs = s.regs ∧ ∀ j, j ≠ k.val → Tab.get false t.host.winHeld j = Tab.get false s.host.winHeld j)

/-- A slot that is free and committed becomes busy and is taken; one that is busy is not overwritten. URGENT_DISPATCH takes the slot taken first, DESCRIPTOR_DISPATCH, with no urgent slot taken, the next ring in turn, whose HEAD advances with an entry of its event ring reserved; each notes the command as issued. COMMAND_COMPLETION of the oldest finished command that a ring issued frees its reservation, and in an enabled event ring with memory, while no event waits for the ledger and the reserve or the rest of the ledger has room, writes the 32 bytes of its COMPLETION, with the phase of the position at TAIL, and advances TAIL; without that room it waits for the next frame; one of a command not issued is dropped. Under the same conditions EVENT_HOLDING_DRAIN of a queue with one event, none lost and room in the ring writes it; without room in the ring it changes nothing. MSIX_MODERATION_EXPIRY lets a moderated vector that waits send, and ends the moderation of one that does not. -/
def Obligations.DispatchAndCompletion : Prop :=
  (∀ (k : Fin 64) (d : Descriptor) (v : BitVec 32) (s : State), s.hostUp = true →
    ((s.get Reg.HOST_URG_BUSY_BUSY).testBit k = true →
      exec (.urgentSlotCommit k d v) s = .next (s.put Reg.HOST_STATUS_URG_OVERWRITE 1)) ∧
    ((s.get Reg.HOST_URG_BUSY_BUSY).testBit k = false → v ≠ 0 → ∃ t, exec (.urgentSlotCommit k d v) s = .next t ∧
      (t.get Reg.HOST_URG_BUSY_BUSY).testBit k = true ∧ t.host.urgTaken = s.host.urgTaken ++ [k] ∧ t.units = s.units ∧
      Tab.get none t.host.urg k = some { d with payload := d.payload.take 44 })) ∧
  (∀ (k : Fin 64) (rest : List (Fin 64)) (d : Descriptor) (s : State), s.host.urgTaken = k :: rest →
    Tab.get none s.host.urg k = some d → ∃ t, exec .urgentDispatch s = .next t ∧ t.host.urgTaken = rest ∧ t.units = s.units ∧
      (⟨⟨.urgent k, d.tag, d.flags, d.target⟩, d.opcode⟩ : Issued) ∈ t.host.issued) ∧
  (∀ (d : Descriptor) (s : State) (c : Fin 8), s.host.urgTaken = [] →
    ((List.range 8).map fun k => (s.host.lastRing + 1 + k) % 8).find? s.mayFetch = some c.val →
    s.windowOk (s.headAddr c) 64 false = true → ∃ t, exec (.descriptorDispatch d) s = .next t ∧ t.host.lastRing = c.val ∧
      t.get (ringHead c) = ringNext (s.get (ringLog2 c)) (s.get (ringHead c)) % 2 ^ 15 ∧ t.units = s.units ∧
      Tab.get 0 t.host.reserved (s.get (Reg.HOST_CRING_CFG_EVT c) % 4) =
        Tab.get 0 s.host.reserved (s.get (Reg.HOST_CRING_CFG_EVT c) % 4) + 1 ∧
      (⟨⟨.ring c, d.tag, d.flags, d.target⟩, d.opcode⟩ : Issued) ∈ t.host.issued ∧
      (∀ o, badField (.ring c) d = some o → (⟨⟨.ring c, d.tag, d.flags, d.target⟩, d.opcode, .refused, o % 256, 0, 0, false⟩ : Done) ∈
        t.host.done)) ∧
  (∀ (c : Fin 8) (x : Done) (rest : List Done) (s : State), s.host.done = x :: rest →
    (x.hdr.src = .ring c → x.interim = false → (⟨x.hdr, x.opcode⟩ : Issued) ∈ s.host.issued →
      let e := s.get (Reg.HOST_CRING_CFG_EVT c) % 4
      let tail := s.get (Reg.HOST_ERING_TAIL_POS e)
      let fits := s.host.evWait = [] ∧ (s.host.reserveUsed + 32 ≤ 4096 ∨ 32 ≤ s.restRoom)
      s.bit (Reg.HOST_ERING_CFG_ENABLE e) = true → s.get (Reg.HOST_ERING_ERR_CODE e) ≠ 2 → s.evMemOk e = true →
      ∃ t, exec .commandCompletion s = .next t ∧ t.host.done = rest ∧ t.units = s.units ∧
        Tab.get 0 t.host.reserved e = Tab.get 0 s.host.reserved e - 1 ∧
        (fits → Tab.get {} t.host.evRing (e * 2 ^ 14 + ringIdx tail) = ⟨ringWrap tail == 0, doneEvent x⟩ ∧
          t.hostMem = Memory.writeBytes s.hostMem (s.get (Reg.HOST_ERING_BASE_BASE e) + 32 * ringIdx tail)
            (eventBytes (ringWrap tail == 0) (doneEvent x)) ∧
          t.get (Reg.HOST_ERING_TAIL_POS e) = ringNext (s.get (Reg.HOST_ERING_CFG_LOG2 e)) tail % 2 ^ 15) ∧
        (¬fits → t.host.evWait = s.host.evWait ++ [(e, ⟨doneEvent x, 1 + e⟩)] ∧ t.hostMem = s.hostMem)) ∧
    ((∀ i ∈ s.host.issued, i.hdr ≠ x.hdr) →
      exec .commandCompletion s = .next (s.modHost fun y => { y with done := rest }))) ∧
  (∀ (e : Fin 4) (h : Held) (s : State), Tab.get [] s.host.holding e = [h] →
    (s.evRoom e = true → s.evMemOk e = true → Tab.get 0 s.host.lost e = 0 → s.host.evWait = [] →
      (s.host.reserveUsed + 32 ≤ 4096 ∨ 32 ≤ s.restRoom) → ∃ t, exec (.eventHoldingDrain e) s = .next t ∧
      Tab.get [] t.host.holding e = [] ∧ (Tab.get {} t.host.evRing (e * 2 ^ 14 + ringIdx (s.get (Reg.HOST_ERING_TAIL_POS e)))).event = h.event) ∧
    (s.evRoom e = false → exec (.eventHoldingDrain e) s = .next s)) ∧
  (∀ (v : Fin 64) (s : State), let m := Tab.get {} s.host.msix v
    ∃ t, exec (.msixModerationExpiry v) s = .next t ∧ t.regs = s.regs ∧ t.units = s.units ∧
      (m.moderated = true → m.waiting = true → m.masked = false →
        (Tab.get {} t.host.msix v).sent = m.sent + 1 ∧ (Tab.get {} t.host.msix v).waiting = false) ∧
      (m.waiting = false → (Tab.get {} t.host.msix v).sent = m.sent ∧ (Tab.get {} t.host.msix v).moderated = false))

/-- HOST_LINK_RESET empties the issued and finished commands, the holding queues, what waits for the ledger, the taken urgent slots, host DMA and the meter subscriptions, disables every command and event ring, and keeps every register outside the HOST block and the DMA windows, the units, clusters, schedules, pours, domains, the rest of the mixing state, shared memory, DRAM, the store, the network, the Wamund link and trust. LINK_RETRAIN shows the new width and speed and whether the link is up; a lower rate than that of a link that was up sets DEGRADED with an event, and else nothing else changes. -/
def Obligations.LinkResetKeepsTheEngine : Prop :=
  (∀ s : State, ∃ t, exec .hostLinkReset s = .next t ∧ t.host.issued = [] ∧ t.host.done = [] ∧ t.host.holding = [] ∧
    t.host.evWait = [] ∧ t.host.reports = [] ∧
    t.host.urgTaken = [] ∧ t.host.dma = [] ∧ t.mix = { s.mix with meters := [] } ∧
    (∀ c : Fin 8, t.bit (Reg.HOST_CRING_CFG_ENABLE c) = false) ∧ (∀ e : Fin 4, t.bit (Reg.HOST_ERING_CFG_ENABLE e) = false) ∧
    (∀ f : Fld, f.lo < 32 → (f.off < 0x4000 ∨ 0x5000 ≤ f.off) → (f.off < 0xA000 ∨ 0xC000 ≤ f.off) → t.get f = s.get f) ∧
    t.units = s.units ∧ t.clusters = s.clusters ∧ t.sched = s.sched ∧ t.pours = s.pours ∧ t.doms = s.doms ∧ t.shm = s.shm ∧
    t.dram = s.dram ∧ t.store = s.store ∧ t.net = s.net ∧ t.wl = s.wl ∧ t.trust = s.trust) ∧
  (∀ (w : Fin 3) (v : Fin 5) (s : State),
    let s1 := ((s.put Reg.HOST_STATUS_WIDTH w).put Reg.HOST_STATUS_SPEED v).put Reg.HOST_STATUS_LINK_UP (if v.val ≠ 0 then 1 else 0)
    (s.bit Reg.HOST_STATUS_LINK_UP = false ∨ s.linkRate ≤ s1.linkRate → exec (.linkRetrain w v) s = .next s1) ∧
    (s.bit Reg.HOST_STATUS_LINK_UP = true → s1.linkRate < s.linkRate → exec (.linkRetrain w v) s =
      .next ((s1.put Reg.HOST_STATUS_DEGRADED 1).postNow .fault (some 59) 0x18 [w, v])))

/-- DMA_CH_START of an idle channel 12–31 takes up its descriptor when the checks of R475 pass, and otherwise records the status that refuses it. DMA_DESCRIPTOR_DONE of a downstream descriptor, or of an upstream one that fits the ledger and whose read-back returned: without SWAP a downstream one writes its bytes to the DRAM region, an upstream one those of the region to host memory; the last of a chain records OK with the bytes moved and idles the channel, and otherwise the channel takes up the next descriptor where its checks pass. One that does not fit the ledger goes on, and a channel that does not run changes nothing. DMA_CH_ABORT of a running channel 12–31 records ABORTED with the bytes moved and the residue: of the multiple of 4 bytes that had moved, upstream no more than the ledger bears. A buffer of an image that is not the last, in a ready ring with room for its write-back and in a window, adds its bytes to the transfer, advances the ring and, without NOTIFY, writes its length and OK back; a ring that is not ready or has no room changes nothing. IMAGE_TRANSFER_TIMEOUT, with no trust job, ends the transfers of its tag with ABORTED. -/
def Obligations.HostDmaBuffersAndFrames : Prop :=
  (∀ (n : Fin 32) (d : DmaDesc) (s : State), s.hostUp = true → 12 ≤ n.val → (Tab.get {} s.host.dma n).running = false →
    ∃ t, exec (.dmaChStart n d) s = .next t ∧ t.units = s.units ∧ t.dram = s.dram ∧
      (s.hostDmaCheck (s.get (Reg.DMA_CH_DESC_ADDR n)) d = none → Tab.get {} t.host.dma n = { running := true, cur := d, moved := 0 } ∧
        t.get (Reg.DMA_CH_STATUS_STATE n) = 1) ∧
      (∀ st, s.hostDmaCheck (s.get (Reg.DMA_CH_DESC_ADDR n)) d = some st → (Tab.get {} t.host.dma n).running = false ∧
        t.get (Reg.DMA_CH_STATUS_CODE n) = st.code ∧ t.bit (Reg.DMA_CH_STATUS_REC_NEW n) = true)) ∧
  (∀ (n : Fin 32) (data : List Byte) (nx : DmaDesc) (ok : Bool) (s : State),
    let c := Tab.get {} s.host.dma n
    (c.running = false → exec (.dmaDescriptorDone n data nx ok) s = .next s) ∧
    (c.running = true → c.cur.up = true → s.channelFits n c.cur.length = false → exec (.dmaDescriptorDone n data nx ok) s = .next s) ∧
    (c.running = true → (c.cur.up = false ∨ (ok = true ∧ s.channelFits n c.cur.length = true)) →
      ∃ t, exec (.dmaDescriptorDone n data nx ok) s = .next t ∧ t.units = s.units ∧
        (c.cur.last = true → (Tab.get {} t.host.dma n).running = false ∧ t.get (Reg.DMA_CH_STATUS_CODE n) = 0 ∧
          t.get (Reg.DMA_CH_MOVED_BYTES n) = (c.moved + c.cur.length) % 2 ^ 64 ∧ t.get (Reg.DMA_CH_RESIDUE_BYTES n) = 0) ∧
        (c.cur.last = false → s.hostDmaCheck c.cur.next nx = none →
          Tab.get {} t.host.dma n = { running := true, cur := nx, moved := c.moved + c.cur.length }) ∧
        (c.cur.up = false → data.length = c.cur.length → c.cur.swap = 0 →
          t.dram = Memory.writeBytes s.dram (s.dmaRegion + c.cur.engine) data ∧ t.hostMem = s.hostMem) ∧
        (c.cur.up = true → c.cur.swap = 0 → t.dram = s.dram ∧ t.hostMem = Memory.writeBytes s.hostMem c.cur.host
          (Memory.readBytes s.dram (s.dmaRegion + c.cur.engine) c.cur.length)))) ∧
  (∀ (n : Fin 32) (k : Nat) (data : List Byte) (s : State), s.hostUp = true → 12 ≤ n.val →
    let c := Tab.get {} s.host.dma n
    let m := if c.cur.up = true then min k (Tab.get 0 s.host.ahead n + s.restRoom) else k
    (c.running = true → k % 4 = 0 → k ≤ c.cur.length → ∃ t, exec (.dmaChAbort n k data) s = .next t ∧
      (Tab.get {} t.host.dma n).running = false ∧ t.get (Reg.DMA_CH_STATUS_CODE n) = Status.aborted.code ∧
      t.get (Reg.DMA_CH_MOVED_BYTES n) = (c.moved + m) % 2 ^ 64 ∧
      t.get (Reg.DMA_CH_RESIDUE_BYTES n) = (c.cur.length - m) % 2 ^ 32 ∧ t.units = s.units) ∧
    (c.running = false → exec (.dmaChAbort n k data) s = .next s)) ∧
  (∀ (b : Fin 4) (e : BulkEntry) (x : BulkData) (s : State),
    (s.ringReady (12 + b) = false ∨ s.restRoom < 8 → exec (.bulkBufferConsumed b e x) s = .next s) ∧
    (s.ringReady (12 + b) = true → 8 ≤ s.restRoom → s.ringMemOk (12 + b) (s.headAddr (12 + b)) 32 = true → 0 < e.len → e.len ≤ 65536 →
      s.bit (Reg.HOST_BRING_CFG_DIR b) = false → s.get (Reg.HOST_BRING_CFG_USE b) = 1 → e.last = false →
      s.windowOk e.addr e.len false = true → ∀ y, s.host.transfers.find? (fun y => y.ring == b.val && y.hdr.tag == e.tag) = some y →
      ∃ t, exec (.bulkBufferConsumed b e x) s = .next t ∧ t.units = s.units ∧ t.host.done = s.host.done ∧
        (e.notify = false → t.hostMem = Memory.writeBytes s.hostMem (s.headAddr (12 + b) + 24)
          (natToBytes 4 e.len ++ natToBytes 1 0 ++ [0, 0, 0x80])) ∧
        t.get (ringHead (12 + b)) = ringNext (s.get (ringLog2 (12 + b))) (s.get (ringHead (12 + b))) % 2 ^ 15 ∧
        t.host.transfers = s.host.transfers.map fun z => if z = y then { z with got := z.got + e.len } else z)) ∧
  (∀ (n : BitVec 32) (s : State), s.trust.queue = [] → ∃ t, exec (.imageTransferTimeout n) s = .next t ∧ t.units = s.units ∧
    t.host.transfers = s.host.transfers.filter (fun y => !(y.hdr.tag == n.toNat)) ∧
    ∀ y ∈ s.host.transfers, y.hdr.tag = n.toNat → (⟨y.hdr, y.opcode, .aborted, 0, 0, 0, false⟩ : Done) ∈ t.host.done)

/-- HUSH without RELEASE adds its groups to the command cause; with RELEASE it takes them from it and, with PIN while the pin is high, ends the pin cause; each completes with OK. With RELEASE and PIN while the pin is low it is REFUSED. HUSH_N_FALL adds the groups of HOST_HUSH_PIN_GRP to the pin cause; HUSH_N_RISE ends it, or keeps it where PIN_LATCH is set; a fall of a low pin and a rise of a high one change nothing. HOST_HUSH_STATE then shows the groups of either cause, HUSH_ACTIVE whether there are any, and nothing outside the host interface changes. HUSH_RAMP_START begins to move every group's gain in the domain over 2 ms to where the hush state before the boundary sends it; in the first frame a group of a low pin is shut at once. -/
def Obligations.HushSettlesGroups : Prop :=
  (∀ (h : CmdHdr) (g : BitVec 64) (s : State),
    let shown (t : State) : Prop := t.get Reg.HOST_HUSH_STATE_HUSHED = t.hushed.toNat ∧
      (t.bit Reg.HOST_STATUS_HUSH_ACTIVE = true ↔ t.hushed ≠ 0) ∧ SameButHost s t
    (h.flags.testBit 0 = false → ∃ t, exec (.hush h g) s = .next t ∧ t.host.hushCmd = s.host.hushCmd ||| g ∧
      t.host.hushPin = s.host.hushPin ∧ Completed s t h 0x0A00 .ok 0 0 0 ∧ shown t) ∧
    (h.flags.testBit 0 = true → (h.flags.testBit 1 = false ∨ s.bit Reg.HOST_STATUS_HUSH_PIN = false) →
      ∃ t, exec (.hush h g) s = .next t ∧ t.host.hushCmd = s.host.hushCmd &&& ~~~g ∧
        t.host.hushPin = (if h.flags.testBit 1 then 0 else s.host.hushPin) ∧ Completed s t h 0x0A00 .ok 0 0 0 ∧ shown t) ∧
    (h.flags.testBit 0 = true → h.flags.testBit 1 = true → s.bit Reg.HOST_STATUS_HUSH_PIN = true →
      exec (.hush h g) s = .next (s.finish h 0x0A00 .refused 2 0 0)) ∧
    (s.bit Reg.HOST_STATUS_HUSH_PIN = false → ∃ t, exec .hushNFall s = .next t ∧ t.bit Reg.HOST_STATUS_HUSH_PIN = true ∧
      t.host.hushCmd = s.host.hushCmd ∧
      t.host.hushPin = s.host.hushPin ||| BitVec.ofNat 64 (s.get Reg.HOST_HUSH_PIN_GRP_GROUPS) ∧ shown t) ∧
    (s.bit Reg.HOST_STATUS_HUSH_PIN = true → exec .hushNFall s = .next s ∧
      (s.bit Reg.HOST_HUSH_CFG_PIN_LATCH = true → exec .hushNRise s = .next (s.put Reg.HOST_STATUS_HUSH_PIN 0)) ∧
      (s.bit Reg.HOST_HUSH_CFG_PIN_LATCH = false → ∃ t, exec .hushNRise s = .next t ∧
        t.bit Reg.HOST_STATUS_HUSH_PIN = false ∧ t.host.hushCmd = s.host.hushCmd ∧ t.host.hushPin = 0 ∧ shown t)) ∧
    (s.bit Reg.HOST_STATUS_HUSH_PIN = false → exec .hushNRise s = .next s)) ∧
  (∀ (d : Fin 3) (s : State), ∃ t, exec (.hushRampStart d) s = .next t ∧ t.regs = s.regs ∧ SameButHost s t ∧
    ∀ g < 64, Tab.get {} t.host.hushGain (4 * g + d) =
      if (s.dom d).frames < 2 ∧ s.host.hushPin.getLsbD g = true then shutGate (s.samplesMs d 2)
      else gateTo (Tab.get {} s.host.hushGain (4 * g + d)) ((Tab.get 0 s.host.hushSeen d).getLsbD g) (s.samplesMs d 2) (s.dom d).si)

/-- With no trust command waiting: TRUST_ATTEST outside BLANK and RETIRED and TRUST_CERT, each with its buffer in a window, write the statement with the nonce and an open signature, or the chain, to the buffer and complete with OK where no report waits and the ledger has room, and else wait with those bytes as the last report; TRUST_CLAIM of an UNCLAIMED engine after the waits with the right code and a valid signature makes it CLAIMED with its owner, no policy and no members, and completes with OK, and with a wrong code counts a failure, sets the wait and is REFUSED; TRUST_DEBUG_CHALLENGE of an engine that is no standby and in a debug state returns a challenge and keeps it. Behind a command that waits for its object each only joins the queue. The six object commands with valid fields, on an engine that is no standby, begin a transfer and join the queue, and a length beyond the object's limit is REFUSED. TRUST_COMMAND_TIMEOUT of a command whose object has arrived takes it from the queue with ABORTED. BLANK_TO_MANUFACTURED of a BLANK engine gives it an identity, its identity area and the state MANUFACTURED; in another state it changes nothing. -/
def Obligations.TrustCommands : Prop :=
  (∀ (h : CmdHdr) (nonce : BitVec 256) (a : Nat) (s : State), s.trust.queue = [] →
    let sent (t : State) (op : Nat) (bs : List Byte) : Prop := t.regs = s.regs ∧ t.units = s.units ∧
      (s.host.reports = [] → bs.length ≤ s.restRoom →
        Completed s t h op .ok 0 0 0 ∧ t.hostMem = Memory.writeBytes s.hostMem a bs ∧ t.host.reports = []) ∧
      (¬(s.host.reports = [] ∧ bs.length ≤ s.restRoom) → t.hostMem = s.hostMem ∧
        t.host.reports = s.host.reports ++ [⟨a, bs, some ⟨h, op, .ok, 0, 0, 0, false⟩⟩])
    (s.get Reg.TRUST_STATE_LCS ≠ 0 → s.get Reg.TRUST_STATE_LCS ≠ 5 → s.windowOk a 576 true = true → ∃ t, exec (.trustAttest h nonce a) s = .next t ∧
      sent t 0x0900 (s.statement nonce ++ s.openBytes 96)) ∧
    (s.windowOk a 4096 true = true → ∃ t, exec (.trustCert h a) s = .next t ∧ sent t 0x0907 (s.trust.chain.take 4096)) ∧
    (s.standby = false → s.debugState = true → ∃ t c, exec (.trustDebugChallenge h) s = .next t ∧
      Completed s t h 0x0908 .ok 0 0 c ∧ t.trust.challenge = some c ∧ t.regs = s.regs ∧ t.units = s.units)) ∧
  (∀ (h : CmdHdr) (code : BitVec 64) (a owner : Nat) (s : State), s.trust.queue = [] → s.standby = false →
    s.windowOk a 192 false = true → s.get Reg.TRUST_STATE_LCS = 2 → s.trust.since + 5 * (s.dom 0).rate ≤ s.now →
    s.trust.waitTo ≤ s.now →
    (codeOf code = s.trust.claimCode → ∃ t, exec (.trustClaim h code a owner true) s = .next t ∧
      Completed s t h 0x0901 .ok 0 0 0 ∧ t.get Reg.TRUST_STATE_LCS = 3 ∧ t.trust.owner = owner ∧ t.trust.policy = none ∧
      t.trust.policyNext = none ∧ t.trust.membersNext = none ∧ t.wl.members = [] ∧ t.units = s.units) ∧
    (codeOf code ≠ s.trust.claimCode → ∀ b, ∃ t, exec (.trustClaim h code a owner b) s = .next t ∧
      Completed s t h 0x0901 .refused 0 0 0 ∧ t.get Reg.TRUST_STATE_LCS = 2 ∧ t.trust.owner = s.trust.owner ∧
      t.get Reg.TRUST_CLAIM_CNT_FAILS = min (s.get Reg.TRUST_CLAIM_CNT_FAILS + 1) 255 ∧
      t.trust.waitTo = s.now + claimWait (t.get Reg.TRUST_CLAIM_CNT_FAILS) * (s.dom 0).rate ∧ t.units = s.units)) ∧
  (∀ (h g : CmdHdr) (nonce : BitVec 256) (code : BitVec 64) (a k owner : Nat) (b : Bool) (s : State) (q : List (CmdHdr × TrustJob)),
    s.trust.queue = (g, .object k none) :: q → s.standby = false → s.windowOk a 192 false = true →
    exec (.trustAttest h nonce a) s = .next (s.modTrust fun x => { x with queue := x.queue ++ [(h, .attest a nonce)] }) ∧
    exec (.trustClaim h code a owner b) s = .next (s.modTrust fun x => { x with queue := x.queue ++ [(h, .claim code owner b)] }) ∧
    exec (.trustCert h a) s = .next (s.modTrust fun x => { x with queue := x.queue ++ [(h, .cert a)] }) ∧
    exec (.trustDebugChallenge h) s = .next (s.modTrust fun x => { x with queue := x.queue ++ [(h, .challenge)] })) ∧
  (∀ (h : CmdHdr) (ring n : Nat) (s : State), s.standby = false → ring ≤ 3 → 64 ≤ n →
    ∀ p ∈ [(Instr.trustRelease h ring n, 0x0902, 9, 2 ^ 24), (.trustPolicy h ring n, 0x0903, 5, 65536 + 256),
        (.trustMembers h ring n, 0x0904, 6, 2 ^ 24), (.trustHouse h ring n, 0x0905, 7, 2 ^ 21 + 256),
        (.trustFw h ring n, 0x0906, 8, 2 ^ 22), (.trustDebugUnlock h ring n, 0x0909, 10, 2 ^ 24)],
      (n ≤ p.2.2.2 → exec p.1 s = .next ((s.modHost fun x =>
        { x with transfers := x.transfers ++ [⟨h, p.2.1, p.2.2.1, ring, 0, n, 0⟩] }).modTrust fun x =>
        { x with queue := x.queue ++ [(h, .object p.2.2.1 none)] })) ∧
      (p.2.2.2 < n → exec p.1 s = .next (s.finish h p.2.1 .refused 20 0 0))) ∧
  (∀ (n k : Nat) (h : CmdHdr) (x : ImageData × StartFacts) (s : State), s.trust.queue[n]? = some (h, .object k (some x)) →
    exec (.trustCommandTimeout n) s = .next ((s.modTrust fun y => { y with queue := y.queue.eraseIdx n }).finish h (objectOp k)
      .aborted 0 0 0)) ∧
  (∀ (serial macs : List Nat) (code : BitVec 64) (chain : List Byte) (s : State),
    (s.get Reg.TRUST_STATE_LCS = 0 → ∃ t, exec (.blankToManufactured serial macs code chain) s = .next t ∧
      t.get Reg.TRUST_STATE_LCS = 1 ∧ t.trust.identity ≠ 0 ∧ t.trust.serial = serial.take 4 ∧ t.trust.macs = macs.take 3 ∧
      t.trust.claimCode = codeOf code ∧ t.trust.chain = chain.take 4096 ∧ t.units = s.units) ∧
    (s.get Reg.TRUST_STATE_LCS ≠ 0 → exec (.blankToManufactured serial macs code chain) s = .next s))

/-- On an engine that is no standby. STORE_FORMAT of an idle store that the policy permits, with a drive, makes a new store with keys and without takes over every drive and completes with OK; where the policy forbids it, NOT_OWNER and nothing changes. With the store mounted: STORE_SHARE gives a slot 1–3 to another member and writes the headers; STORE_LIST with its buffer in a window answers EMPTY where no take is numbered FIRST or above, and else writes their records and answers their number where no report waits and the ledger has room, and waits with them otherwise; STORE_DELETE that the policy permits, of an idle store, removes the take of that number alone; STORE_EXPORT of samples that the take has, in a mode that is permitted, with a fitting ring, and STORE_IMPORT with valid fields and a fitting ring, begin their move. -/
def Obligations.StoreCommands : Prop :=
  (∀ (h : CmdHdr) (s : State), s.standby = false →
    (s.bit Reg.STORE_POLICY_HOST_FORMAT = true → s.storeIdle = true → (∃ e ∈ s.store.drives, e.2.isSome = true) →
      ∃ t, exec (.storeFormat h) s = .next t ∧ Completed s t h 0x0700 .ok 0 0 0 ∧ t.store.takes = [] ∧ t.store.records = 0 ∧
        t.store.generation = 1 ∧ t.store.store = s.free.toNat + 1 ∧ t.get Reg.STORE_JSEQ_SEQ = 0 ∧
        t.store.keys.isSome = true ∧
        (∀ e ∈ t.store.drives, ∀ d, e.2 = some d → d.store = s.free.toNat + 1) ∧ t.units = s.units) ∧
    (s.bit Reg.STORE_POLICY_HOST_FORMAT = false → exec (.storeFormat h) s = .next (s.finish h 0x0700 .notOwner 0 0 0))) ∧
  (∀ (h : CmdHdr) (s : State), s.storeBar = false → s.storeOn = true →
    (∀ dev slot, 1 ≤ slot → slot ≤ 3 → Tab.get 0 s.wl.members dev ≠ 0 → dev ≠ s.devnum →
      exec (.storeShare h dev slot) s = .next (((s.modStore fun y =>
        { y with slots := Tab.put 0 y.slots slot (Tab.get 0 s.wl.members dev) }).sendDrives
          (s.headerWrites s.store.generation)).finish h 0x0701 .ok 0 0 0)) ∧
    (∀ a first n, s.windowOk a (192 * n) true = true →
      let l := (s.store.takes.filter fun t => match t.no with | some k => decide (first ≤ k) | none => false).take n
      (l = [] → exec (.storeList h a first n) s = .next (s.finish h 0x0702 .empty 0 0 0)) ∧
      let bs := (l.foldl (fun (x : List Byte × State) t => (x.1 ++ x.2.takeRecord t, x.2.take)) ([], s)).1
      (l ≠ [] → ∃ t, exec (.storeList h a first n) s = .next t ∧ t.store = s.store ∧ t.regs = s.regs ∧ t.units = s.units ∧
        (s.host.reports = [] → bs.length ≤ s.restRoom →
          Completed s t h 0x0702 .ok 0 0 l.length ∧ t.hostMem = Memory.writeBytes s.hostMem a bs) ∧
        (¬(s.host.reports = [] ∧ bs.length ≤ s.restRoom) → t.hostMem = s.hostMem ∧
          t.host.reports = s.host.reports ++ [⟨a, bs, some ⟨h, 0x0702, .ok, 0, 0, l.length, false⟩⟩]))) ∧
    (∀ k, s.bit Reg.STORE_POLICY_HOST_DELETE = true → s.storeIdle = true → (s.take? k).isSome = true →
      ∃ t, exec (.storeDelete h k) s = .next t ∧ Completed s t h 0x0740 .ok 0 0 0 ∧ t.take? k = none ∧
        (∀ j, j ≠ k → t.take? j = s.take? j) ∧ t.units = s.units) ∧
    (∀ (ring : Nat) k track first len mode x, ring ≤ 3 → s.get (Reg.HOST_BRING_CFG_USE ring) = 4 →
      s.bit (Reg.HOST_BRING_CFG_ENABLE ring) = true → (mode = 1 ∨ mode = 0 ∧ s.bit Reg.STORE_POLICY_EXPORT_PLAIN = true) →
      s.take? k = some x → x.tracks.contains track = true → first < x.exportEnd →
      ∃ t m, exec (.storeExport h ring k track first len mode) s = .next t ∧ t.store.moves = s.store.moves ++ [m] ∧
        m.take = k ∧ m.track = track ∧ m.first = first ∧ m.mode = mode ∧ first + m.len ≤ x.exportEnd ∧ t.regs = s.regs ∧
        t.units = s.units ∧ t.host = s.host) ∧
    (∀ ring rate count length name, ring ≤ 3 → s.get (Reg.HOST_BRING_CFG_USE ring) = 5 →
      s.bit (Reg.HOST_BRING_CFG_ENABLE ring) = true → 64 ≤ length → length ≤ 2 ^ 24 → legalRate rate = true → 1 ≤ count →
      count ≤ 1024 → ∃ t, exec (.storeImport h ring rate count length name) s = .next t ∧ t.regs = s.regs ∧ t.units = s.units ∧
        t.host.transfers = s.host.transfers ++ [⟨h, 0x0731, 0, ring, 0, length, 0⟩] ∧
        t.store.moves = s.store.moves ++ [{ hdr := h, export_ := false, ring := ring, rate := rate, count := count,
                                            name := name.take 24 }]))

/-- STORE_REC_IN with its mask in a window, tracks, an end after its start, a free place and room, of a mounted store, arms a take. PUNCH_IN, once its block is handled, gives it the next number, the members present and completes it with that number; before that it changes nothing. STORE_REC_OUT of a take that lives and has none, with a target after its start, sets its end. PUNCH_OUT, once the last sample is collected, closes the take with its samples, leaves the others, and completes the STORE_REC_OUT. CHUNK_WRITE of a complete chunk with a member, of a store that is on and not stopped, counts one chunk more for its track, sends one write to the drive of its member and leaves the other takes; RECORD_OVERRUN marks a chunk lost, counts it and sets OVERRUN. JOURNAL_CUT of a mounted store with a take, none cut before, fixes what a record covers, JOURNAL_COMMIT of a covered record makes that journaled and advances STORE_JSEQ. Units keep their state. -/
def Obligations.StoreRecording : Prop :=
  (∀ (h : CmdHdr) (out : Option Nat) (a d : Nat) (tracks : List (Fin 1024)) (name : List Byte) (s : State),
    s.windowOk a 128 false = true → d ≤ 2 → (s.dom d).configured = true → s.storeOn = true → s.standby = false → tracks ≠ [] →
    let si := (s.applyAt d h.target).1
    let lives := s.store.takes.filter (·.live)
    (∀ o, out = some o → si < s.siTo d o) →
    (lives.any fun t => t.tracks.any (tracks.map (·.val)).contains && rangesMeet si (out.map (s.siTo d)) t.inSi t.outSi) = false →
    lives.length < 16 → (lives.map fun t => t.tracks.length * t.rate).sum + tracks.length * (s.dom d).rate ≤ trackRate →
    s.buffersFit d (s.storeTracks d + tracks.length) = true → 64 * tracks.length ≤ s.get Reg.STORE_FREE_EXTENTS →
    ∃ t k, exec (.storeRecIn h out a tracks d name) s = .next t ∧ t.store.takes = s.store.takes ++ [k] ∧ k.hdr = h ∧
      k.no = none ∧ k.domain = d ∧ k.inSi = si ∧ k.outSi = out.map (s.siTo d) ∧ k.tracks = tracks.map (·.val) ∧
      k.open_ = false ∧ k.closed = false ∧ t.regs = s.regs ∧ t.units = s.units ∧ t.host = s.host) ∧
  (∀ (n : BitVec 32) (s : State) (k : Take), s.store.takes.find? (fun t => t.no.isNone && t.hdr.tag == n.toNat) = some k →
    (k.inSi < (s.dom k.domain).begun → ∃ t, exec (.punchIn n) s = .next t ∧ t.store.nextTake = s.store.nextTake + 1 ∧
      { k with no := some s.store.nextTake, open_ := true, members := s.members } ∈ t.store.takes ∧
      Completed s t k.hdr 0x0710 (if k.late then .late else .ok) 0 (s.toP k.domain k.inSi) s.store.nextTake ∧ t.units = s.units) ∧
    ((s.dom k.domain).begun ≤ k.inSi → exec (.punchIn n) s = .next s)) ∧
  (∀ (h : CmdHdr) (n : Nat) (s : State) (k : Take), s.store.takes.find? (fun t => t.live && t.hdr.tag == n) = some k →
    s.storeBar = false → k.outHdr = none → h.target ≠ 0 → k.inSi < s.siTo k.domain h.target →
    exec (.storeRecOut h n) s = .next (s.modStore fun y => { y with takes := y.takes.map fun x => if x = k then
      { x with outSi := some (max (s.applyAt k.domain h.target).1 x.inSi), outHdr := some (h, (s.applyAt k.domain h.target).2),
               byCommand := true } else x })) ∧
  (∀ (no : Nat) (s : State) (k : Take), s.take? no = some k →
    (∀ o, k.outSi = some o → k.open_ = true → o ≤ k.inSi + k.fill → ∃ t x, exec (.punchOut no) s = .next t ∧ t.take? no = some x ∧
      x.closed = true ∧ x.open_ = false ∧ x.fill = o - k.inSi ∧ x.data = k.data ∧ t.units = s.units ∧
      (∀ j, j ≠ no → t.take? j = s.take? j) ∧
      ∀ h late, k.outHdr = some (h, late) → Completed s t h 0x0711 (if late then .late else .ok) 0 (s.toP k.domain o) 0) ∧
    (∀ c : Fin 1024, k.tracks.contains c.val = true → k.byLoss = false →
      (∀ m, k.memberOf c (Tab.get 0 k.written c) = some m → k.chunkReady c = true → s.store.stopped = false → s.storeOn = true →
        ∃ t x lba n, exec (.chunkWrite no c) s = .next t ∧ t.store.issued = [(s.driveOf m, .write nvmeNs lba n)] ∧
        t.take? no = some x ∧ Tab.get 0 x.written c = Tab.get 0 k.written c + 1 ∧ x.gaps = k.gaps ∧ t.units = s.units ∧
        ∀ j, j ≠ no → t.take? j = s.take? j) ∧
      ((Tab.get 0 k.written c + 2) * chunkLen ≤ k.fill → ∃ t x, exec (.recordOverrun no c) s = .next t ∧
        t.take? no = some x ∧ x.gaps = k.gaps ++ [(c.val, Tab.get 0 k.written c)] ∧
        Tab.get 0 x.written c = Tab.get 0 k.written c + 1 ∧ t.bit Reg.STORE_STATUS_OVERRUN = true ∧
        t.get Reg.STORE_OVERRUN_CNT_COUNT = min (s.get Reg.STORE_OVERRUN_CNT_COUNT + 1) (2 ^ 32 - 1) ∧ t.units = s.units))) ∧
  (∀ s : State, s.storeOn = true →
    (s.store.journalCut = false → s.store.stopped = false → (∃ k ∈ s.store.takes, k.no.isSome = true) →
      ∃ t, exec .journalCut s = .next t ∧ t.store.journalCut = true ∧ t.regs = s.regs ∧ t.units = s.units ∧
        ∀ k ∈ t.store.takes, k.cut = if k.closed then k.fill else k.fill / chunkLen * chunkLen) ∧
    (∀ l : Fin 16, s.store.journalCut = true →
      (∀ k ∈ s.store.takes, k.byLoss = true ∨ ∀ c ∈ k.tracks, k.cut ≤ Tab.get 0 k.written c * chunkLen) →
      ∃ t, exec (.journalCommit l) s = .next t ∧ t.store.journalCut = false ∧ t.units = s.units ∧ t.host = s.host ∧
        (∀ k ∈ t.store.takes, k.journaled = k.cut) ∧
        t.get Reg.STORE_JSEQ_SEQ = (s.get Reg.STORE_JSEQ_SEQ + 1) % 2 ^ 64))

/-- STORE_PLAY without a length, of a closed take's track of a mounted store, with a free output and room, queues a play of the rest of the take from its lead, or a later target, on; PLAY_START, once its block is handled, starts it and completes the command. STORE_STOP of a play that has not begun by then removes it, aborts its command and completes; of another it ends the play there, or where it ends sooner, and waits with its completion for that end. Where the plays of a domain that have ended are taken away, each command that stopped one of them completes. PLAYBACK_CHUNK_READ of a readable chunk puts it in the buffers and sends the read of it; PLAY_UNDERRUN counts a chunk that is missing; STORE_IO_ERROR counts. STORE_MEMBER_LOST of a mounted store takes a present member alone away, degrades the store and leaves no take open; STORE_MEMBER_RETURN of a drive that is back shows it again. STORE_DRIVE_CHANGE shows a usable drive with its extents, a refused one, and an absent one; SMART_POLL of a drive in use shows its temperature. -/
def Obligations.StorePlayAndDrives : Prop :=
  (∀ (h : CmdHdr) (no rec track off : Nat) (s : State) (k : Take), s.take? no = some k → s.storeBar = false → s.storeOn = true →
    k.tracks.contains rec = true → track ≤ 1023 → off < k.fill → k.closed = true →
    let q := if h.target = 0 then s.playLead k.domain else max (s.siTo k.domain h.target) (s.playLead k.domain)
    (s.store.plays.any fun p => p.track == track && rangesMeet q (some (q + (k.fill - off))) p.q (some p.ends)) = false →
    (s.store.plays.map fun p => (s.dom p.domain).rate).sum + (s.dom k.domain).rate ≤ trackRate →
    s.buffersFit k.domain (s.storeTracks k.domain + 1) = true →
    ∃ t p, exec (.storePlay h no rec track off none) s = .next t ∧ t.store.plays = s.store.plays ++ [p] ∧ p.hdr = h ∧
      p.take = no ∧ p.recTrack = rec ∧ p.track = track ∧ p.q = q ∧ p.domain = k.domain ∧ p.offset = off ∧ p.len = k.fill - off ∧ p.started = false ∧
      t.regs = s.regs ∧ t.units = s.units ∧ t.host = s.host) ∧
  (∀ (n : BitVec 32) (s : State) (p : Play), s.store.plays.find? (fun p => !p.started && p.hdr.tag == n.toNat) = some p →
    p.q < (s.dom p.domain).begun → ∃ t, exec (.playStart n) s = .next t ∧ { p with started := true } ∈ t.store.plays ∧
      Completed s t p.hdr 0x0720 (if p.late then .late else .ok) 0 (s.toP p.domain p.q) 0 ∧ t.units = s.units) ∧
  (∀ (h : CmdHdr) (n : Nat) (s : State) (p : Play), s.store.plays.find? (fun p => p.hdr.tag == n) = some p → s.storeBar = false →
    let r := s.applyAt p.domain h.target
    (r.1 ≤ p.q → p.started = false → exec (.storeStop h n) s = .next (((s.modStore fun y =>
      { y with plays := y.plays.filter fun x => decide (x ≠ p) }).finish p.hdr 0x0720 .aborted 0 0 0).finish h 0x0721
        (if r.2 then .late else .ok) 0 (s.toP p.domain r.1) 0)) ∧
    (¬(r.1 ≤ p.q ∧ p.started = false) → ∃ t e, exec (.storeStop h n) s = .next t ∧ t.regs = s.regs ∧ t.units = s.units ∧
      t.host = s.host ∧ (e = r.1 ∨ (e < r.1 ∧ p.stop = some e)) ∧
      { p with stop := some e, stops := p.stops ++ [(h, r.2, r.1)] } ∈ t.store.plays)) ∧
  (∀ (d n : Nat) (s : State) (p : Play), p ∈ s.store.plays → p.domain = d → p.started = true → p.ends ≤ n →
    p ∉ (s.endPlays d n).store.plays ∧ ∀ h late si, (h, late, si) ∈ p.stops →
      (⟨h, 0x0721, if late then .late else .ok, 0, s.toP d si, 0, false⟩ : Done) ∈ (s.endPlays d n).host.done) ∧
  (∀ (c : Fin 1024) (n : Nat) (s : State) (p : Play),
    (∀ k, s.store.plays.find? (fun p => p.track == c.val && !p.buffered.contains n &&
        (match s.take? p.take with | some k => s.readable k p.recTrack n | none => false)) = some p → s.take? p.take = some k →
      exec (.playbackChunkRead c n) s = .next ((s.modPlay p fun x => { x with buffered := x.buffered ++ [n] }).sendDrives
        (((k.memberOf p.recTrack n).toList).map fun m => (m, .read nvmeNs (k.chunkLba p.recTrack n) 32)))) ∧
    (s.store.plays.find? (fun p => p.track == c.val && p.started && !p.buffered.contains n && !p.missed.contains n) = some p →
      exec (.playUnderrun c n) s = .next (((s.modPlay p fun x => { x with missed := x.missed ++ [n] }).bump
        Reg.STORE_UNDERRUN_CNT_COUNT).postNow .fault none 0x0151 [2, c])) ∧
    exec (.storeIoError c) s = .next ((s.bump Reg.STORE_IO_ERR_CNT_COUNT).postNow .fault none 0x0151 [3, c])) ∧
  (∀ (m : Fin 8) (s : State), s.storeOn = true →
    (s.present m = true → ∃ t, exec (.storeMemberLost m) s = .next t ∧ t.present m = false ∧ t.get Reg.STORE_STATUS_STATE = 2 ∧
      (∀ k ∈ t.store.takes, k.open_ = false) ∧ t.units = s.units ∧ (∀ j, j ≠ m.val → j < 8 → t.present j = s.present j)) ∧
    (s.present m = false → exec (.storeMemberLost m) s = .next s) ∧
    (s.present m = false → s.store.store ≠ 0 →
      (∃ e ∈ s.store.drives, ∃ d, e.2 = some d ∧ d.store = s.store.store ∧ d.index = m.val ∧ d.keyOk = true) →
      ∃ t, exec (.storeMemberReturn m) s = .next t ∧ t.present m = true ∧ t.units = s.units)) ∧
  (∀ (n : Fin 8) (d : DriveSeen) (s : State), d.present = false → ∃ t, exec (.storeDriveChange n d) s = .next t ∧
    t.bit (Reg.STORE_DRV_STATUS_PRESENT n) = false ∧ Tab.get none t.store.drives n = none ∧ t.units = s.units) ∧
  (∀ (n : Fin 8) (d : DriveSeen) (s : State), d.present = true →
    (d.usable = true → ∃ t x, exec (.storeDriveChange n d) s = .next t ∧ t.bit (Reg.STORE_DRV_STATUS_PRESENT n) = true ∧
      t.bit (Reg.STORE_DRV_STATUS_REFUSED n) = false ∧ t.get (Reg.STORE_DRV_EXTENTS_COUNT n) = d.extents % 2 ^ 32 ∧
      Tab.get none t.store.drives n = some x ∧ x.store = d.store ∧ x.index = d.index ∧ t.units = s.units) ∧
    (d.usable = false → ∃ t, exec (.storeDriveChange n d) s = .next t ∧ t.bit (Reg.STORE_DRV_STATUS_REFUSED n) = true ∧
      Tab.get none t.store.drives n = none ∧ t.units = s.units)) ∧
  (∀ (n : Fin 8) (k : BitVec 16) (s : State), s.bit (Reg.STORE_DRV_STATUS_PRESENT n) = true →
    s.bit (Reg.STORE_DRV_STATUS_REFUSED n) = false →
    exec (.smartPoll n k) s = .next ((s.put (Reg.STORE_DRV_TEMP_KELVIN n) k.toNat).modStore fun x =>
      { x with issued := [(n.val, .getSmartLog)] }))

/-- Each network command whose record or fields pass its checks joins the waiting commands and changes nothing else before the boundary. A stream or flow record that a rule refuses completes at once with the status of that rule, a range outside every window with WINDOW_FAULT; a statistics range past 512 and a cue entry past 63 are REFUSED. NET_WL_DISTRIBUTE waits in two steps: the first descriptor for its list, and the list of at most 64 devices completes with OK and puts the command among those that wait. NET_WL_PARAM_TIMEOUT completes a NET_WL_PARAM that still waits with ABORTED; of one that does not wait it changes nothing. -/
def Obligations.NetworkCommandsWait : Prop :=
  (∀ (h : CmdHdr) (a : Nat) (r : StreamRec) (s : State), s.windowOk a 128 false = true →
    ∀ p ∈ [(Instr.netStreamTx h a r, 0x0800, false), (.netStreamRx h a r, 0x0801, true)],
      (s.recordCheck p.2.2 r = none → exec p.1 s = .next (s.netLater h (.stream p.2.2 r))) ∧
      (∀ st, s.recordCheck p.2.2 r = some st → exec p.1 s = .next (s.finish h p.2.1 st 16 0 0))) ∧
  (∀ (h : CmdHdr) (a : Nat) (r : StreamRec) (s : State), s.windowOk a 128 false = false →
    exec (.netStreamTx h a r) s = .next (s.finish h 0x0800 .windowFault 16 0 0) ∧
    exec (.netStreamRx h a r) s = .next (s.finish h 0x0801 .windowFault 16 0 0)) ∧
  (∀ (h : CmdHdr) (d n m a : Nat) (s : State), d ≤ 1 →
    (n ≤ 511 → (∀ e ∈ s.streamsPlanned (d == 1), e.1 = n → ∀ x ∈ e.2.addrs, (if d = 1 then s.patchedSource x else s.patchedDest x) = false) →
      exec (.netStreamDel h d n) s = .next (s.netLater h (.del (d == 1) n))) ∧
    (n + m ≤ 512 → s.windowOk a (64 * m) true = true →
      exec (.netStreamStat h d n m a) s = .next (s.netLater h (.stat (d == 1) n m a))) ∧
    (512 < n + m → exec (.netStreamStat h d n m a) s = .next (s.finish h 0x0803 .refused 18 0 0))) ∧
  (∀ (h : CmdHdr) (a : Nat) (r : RuleRec) (s : State), s.windowOk a 64 false = true → r.reservedOk = true → 32 ≤ r.index →
    r.index ≤ 511 → r.ports < 8 → r.cls ∈ [2, 3, 4, 7] → r.mtch < 2 ^ 11 → r.vid < 4096 → r.pcp < 8 → r.dscp < 64 →
    r.srcLen ≤ 128 → r.dstLen ≤ 128 → r.cueEntry < 64 → 1 ≤ r.burst → r.burst ≤ 256 →
    exec (.netClsRule h a r) s = .next (s.netLater h (.rule r))) ∧
  (∀ (h : CmdHdr) (r : CueRec) (s : State),
    (r.reservedOk = true → r.entry < 64 → (r.key < 16 ∨ r.key = 255) → r.template < 64 →
      exec (.netCue h r) s = .next (s.netLater h (.cue r))) ∧
    (64 ≤ r.entry → exec (.netCue h r) s = .next (s.finish h 0x0805 .refused 16 0 0))) ∧
  (∀ (h : CmdHdr) (p o a g x : Nat) (s : State), p ≤ 2 → s.windowOk a 32 false = true →
    (o = 1 ∨ (o = 0 ∧ s.net.pendingOps = [] ∧ (Tab.get [] s.net.groups p).length < 64)) →
    exec (.netJoin h p o a g x) s = .next (s.netLater h (.join p (o == 1) g x))) ∧
  (∀ (h : CmdHdr) (a : Nat) (r : FlowRec) (s : State), s.windowOk a 32 false = true →
    ∀ p ∈ [(Instr.netWlFlowTx h a r, 0x0881, false), (.netWlFlowRx h a r, 0x0882, true)],
      (s.flowCheck p.2.2 r = none → exec p.1 s = .next (s.netLater h (.wlFlow p.2.2 r))) ∧
      (∀ st, s.flowCheck p.2.2 r = some st → r.port < 4 →
        exec p.1 s = .next ((s.put (Reg.WLP_STATUS_CFG_REJ r.port) 1).finish h p.2.1 st 16 0 0))) ∧
  (∀ (h : CmdHdr) (a d p src f n : Nat) (l : List (Nat × Nat)) (s : State),
    (l ≠ [] → l.length ≤ 4096 → s.windowOk a (4 * l.length) false = true →
      (∀ e ∈ l, e.1 < 2 ^ 16 ∧ e.2 ≤ 7 ∧ e.2 ≠ 6 ∧ (e.1 = s.devnum → e.2 = 5)) →
      exec (.netWlRoute h a l) s = .next (s.netLater h (.wlRoute l))) ∧
    (d ≤ 1 → p ≤ 3 → f ≤ 255 → (∀ r ∈ s.flowsPlanned (d == 1) p, (if d = 1 then r.peer * 256 + r.flow else r.flow) =
        (if d = 1 then src * 256 + f else f) → ∀ x ∈ flowAddrs r, (if d = 1 then s.patchedSource x else s.patchedDest x) = false) →
      exec (.netWlFlowDel h d p src f) s = .next (s.netLater h (.wlFlowDel (d == 1) p (if d = 1 then src * 256 + f else f)))) ∧
    (p ≤ 3 → ((s.flowsPlanned false p).map s.flowCells).sum + n ≤ s.audioCeiling →
      exec (.netWlTransit h p n) s = .next (s.netLater h (.wlTransit p n)))) ∧
  (∀ (h : CmdHdr) (dev ramp a : Nat) (l : List ParamItem) (s : State), l ≠ [] → l.length ≤ 24 →
    s.windowOk a (8 * l.length) false = true → s.route dev ≠ 7 →
    exec (.netWlParam h dev ramp a l) s = .next (s.netLater h (.wlParam dev
      { origin := s.devnum, tag := h.tag, si := h.target, rate := (s.dom 0).rate, ramp := ramp, eqPower := h.flags.testBit 1, items := l }))) ∧
  (∀ (h g : CmdHdr) (dg a : Nat) (l : List Nat) (s : State),
    (h.flags.testBit 0 = false → Tab.get none s.wl.dist h.src.code = none → exec (.netWlDistribute h dg a l) s = .next
      { s with wl := { s.wl with dist := Tab.put none s.wl.dist h.src.code (some (h, dg)) } }) ∧
    (h.flags.testBit 0 = true → Tab.get none s.wl.dist h.src.code = some (g, dg) → l ≠ [] → l.length ≤ 64 →
      s.windowOk a (2 * l.length) false = true → (∃ i ∈ s.sched.programs, i.digest = dg) →
      ∃ t, exec (.netWlDistribute h 0 a l) s = .next t ∧ Completed s t h 0x0886 .ok 0 0 0 ∧ t.units = s.units ∧
        Tab.get none t.wl.dist h.src.code = none ∧ t.net.pendingOps = s.net.pendingOps ++ [(g, .wlDist dg l)])) ∧
  (∀ (h : CmdHdr) (s : State) (w : WlWait), s.wl.waits.find? (fun w => w.opcode == 0x0885 && w.hdr == h) = some w →
    exec (.netWlParamTimeout h) s = .next (State.finish { s with wl := { s.wl with waits := s.wl.waits.filter (· ≠ w) } } h 0x0885
      .aborted 0 0 0)) ∧
  (∀ (h : CmdHdr) (s : State), s.wl.waits.find? (fun w => w.opcode == 0x0885 && w.hdr == h) = none →
    exec (.netWlParamTimeout h) s = .next s)

/-- STREAM_PACKET_TX of an aligned domain that sends, once the domain has reached the packet's last sample, sends the next packet: its sequence number and SI advance and each of its ports counts a frame. STREAM_LOSS reports once, and the ASRC channels of the stream's inputs start again. A module that is accepted shows MOD_OK, another MOD_REJ and no link; DDM readings and alarms follow an accepted one; a removal clears MOD_PRESENT, MOD_OK and the link. A link comes up on an enabled port with an accepted module, never on a disabled port. MACsec agreement and loss show MKA_UP and the channel. NET_FRAME_RECEIVED on an enabled port counts the frame, and drops one of no live secure channel where security is required; a disabled port ignores it. -/
def Obligations.NetworkPorts : Prop :=
  (∀ (n : Fin 512) (s : State) (x : StreamSt), Tab.get none s.net.tx n = some x →
    let d := s.dom x.record.domain
    let si := x.nextAt d.si
    ((s.get Reg.TIME_STATUS_ALIGNED).testBit x.record.domain = true → s.sending x.record.domain = true →
      si + x.record.S ≤ d.si + d.block → ∃ t y, exec (.streamPacketTx n) s = .next t ∧ Tab.get none t.net.tx n = some y ∧
        y.seq = (x.seq + 1) % 2 ^ 16 ∧ y.next = si + x.record.S ∧ y.packets = x.packets + 1 ∧ y.record = x.record ∧
        y.lastStamp = (si + x.record.rtpOffset) % 2 ^ 32 ∧ t.units = s.units ∧ t.host = s.host ∧
        ∀ p ∈ x.record.ports, s.get (Reg.NET_TX_FRAMES_COUNT p) < 2 ^ 31 →
          t.get (Reg.NET_TX_FRAMES_COUNT p) = s.get (Reg.NET_TX_FRAMES_COUNT p) + 1) ∧
    (d.si + d.block < si + x.record.S → exec (.streamPacketTx n) s = .next s)) ∧
  (∀ (n : Fin 512) (s : State) (x : StreamSt), Tab.get none s.net.rx n = some x →
    (x.lost = false → exec (.streamLoss n) s = .next ((State.each { s with net := { s.net with
      rx := Tab.put none s.net.rx n (some { x with lost := true }) } } x.record.addrs fun a t => t.restartSource a).postNow .net
      (some 40) 0x0102 [1, n, 1, x.record.pathMask])) ∧
    (x.lost = true → exec (.streamLoss n) s = .next s)) ∧
  (∀ (x : Fin 3) (a0 a2 : List Byte) (ok alarm los up : Bool) (s : State),
    (∃ t, exec (.netModuleInsert x a0 ok) s = .next t ∧ t.bit (Reg.NET_STATUS_MOD_PRESENT x) = true ∧ t.units = s.units ∧
      (a0.getD 0 0 = 3 → ok = true → t.bit (Reg.NET_STATUS_MOD_OK x) = true) ∧
      (a0.getD 0 0 ≠ 3 ∨ ok = false → t.bit (Reg.NET_STATUS_MOD_OK x) = false ∧ t.bit (Reg.NET_STATUS_MOD_REJ x) = true ∧
        t.bit (Reg.NET_STATUS_LINK x) = false)) ∧
    (s.bit (Reg.NET_STATUS_MOD_OK x) = true → (s.get (Reg.NET_MOD_A0_DATA x 23)).testBit 6 = true →
      ∃ t, exec (.netDdmPoll x a2 alarm los) s = .next t ∧ t.bit (Reg.NET_STATUS_RX_LOS x) = los ∧ t.units = s.units ∧
        (∀ j < 3, t.get (Reg.NET_MOD_DDM_DATA x j) = bytesToNat ((a2.drop (4 * j)).take 4) % 2 ^ 32) ∧
        (alarm = true → t.bit (Reg.NET_STATUS_DDM_ALARM x) = true)) ∧
    (s.bit (Reg.NET_STATUS_MOD_OK x) = false → exec (.netDdmPoll x a2 alarm los) s = .next s) ∧
    (s.bit (Reg.NET_STATUS_MOD_PRESENT x) = true → ∃ t, exec (.netModuleRemoved x) s = .next t ∧ t.units = s.units ∧
      t.bit (Reg.NET_STATUS_MOD_PRESENT x) = false ∧ t.bit (Reg.NET_STATUS_MOD_OK x) = false ∧
      t.bit (Reg.NET_STATUS_LINK x) = false) ∧
    (up = false ∨ (s.bit (Reg.NET_CTL_EN x) = true ∧ s.bit (Reg.NET_STATUS_MOD_OK x) = true) →
      ∃ t, exec (.netLinkChange x up) s = .next t ∧ t.bit (Reg.NET_STATUS_LINK x) = up ∧ t.net = s.net ∧ t.units = s.units) ∧
    (s.bit (Reg.NET_CTL_EN x) = false → exec (.netLinkChange x true) s = .next s)) ∧
  (∀ (x : Fin 2) (rolled : Bool) (sc : Fin 65) (s : State),
    (s.get (Reg.NET_MACSEC_MODE x) ≠ 0 → exec (.macsecKeyAgreement x rolled sc) s = .next
      (((s.put (Reg.NET_MACSEC_MKA_UP x) 1).put (Reg.NET_MACSEC_RX_SC x) sc).postNow .net (some 42) 0x0104
        [x, if rolled then 2 else 1])) ∧
    (s.get (Reg.NET_MACSEC_MODE x) = 0 → exec (.macsecKeyAgreement x rolled sc) s = .next s) ∧
    (s.bit (Reg.NET_MACSEC_MKA_UP x) = true → exec (.macsecPeerLost x) s = .next
      (((s.put (Reg.NET_MACSEC_MKA_UP x) 0).put (Reg.NET_MACSEC_RX_SC x) 0).postNow .net (some 42) 0x0104 [x, 3]))) ∧
  (∀ (x : Fin 3) (f : NetFrame) (s : State),
    (s.bit (Reg.NET_CTL_EN x) = false → exec (.netFrameReceived x f) s = .next s) ∧
    (s.bit (Reg.NET_CTL_EN x) = true → x.val < 2 → s.get (Reg.NET_MACSEC_MODE x) = 2 → (s.arrived x f).secure = false → isEapol f = false →
      exec (.netFrameReceived x f) s = .next ((s.bump (Reg.NET_RX_FRAMES_COUNT x)).bump (Reg.NET_MACSEC_DROP_COUNT x))) ∧
    (s.bit (Reg.NET_CTL_EN x) = true → ∃ t, exec (.netFrameReceived x f) s = .next t ∧ t.units = s.units ∧
      t.get (Reg.NET_RX_FRAMES_COUNT x) = (s.bump (Reg.NET_RX_FRAMES_COUNT x)).get (Reg.NET_RX_FRAMES_COUNT x)))

/-- WL_TRAIN_DONE takes a port in TRAIN to ALIGN, WL_ALIGN_DONE one in ALIGN to AUTH, WL_AUTH_DONE one in AUTH to UP with its peer, fresh credits and the two keys of the link, or to REFUSED with its reason; in other states each changes nothing. WL_STATE_TIMEOUT takes TRAIN, ALIGN and AUTH to DOWN with one WL_LINK event. WL_RESTART_TIMER in DOWN or REFUSED, and WL_RETRAIN in every state, train an enabled port with an accepted module. WL_PORT_DOWN takes an UP port to DOWN, without a peer, with no cell and no key left, its transmit flows kept. WL_MODULE_INSERTION shows whether a module is present; without one the port is DOWN. -/
def Obligations.WamundBringUp : Prop :=
  (∀ (p : Fin 4) (s : State),
    (s.get (Reg.WLP_STATUS_STATE p) = 1 → exec (.wlTrainDone p) s = .next (s.put (Reg.WLP_STATUS_STATE p) 2)) ∧
    (s.get (Reg.WLP_STATUS_STATE p) ≠ 1 → exec (.wlTrainDone p) s = .next s) ∧
    (s.get (Reg.WLP_STATUS_STATE p) = 2 → exec (.wlAlignDone p) s = .next (s.put (Reg.WLP_STATUS_STATE p) 3)) ∧
    (s.get (Reg.WLP_STATUS_STATE p) ≠ 2 → exec (.wlAlignDone p) s = .next s) ∧
    (s.get (Reg.WLP_STATUS_STATE p) ∈ [1, 2, 3] → exec (.wlStateTimeout p) s = .next
      ((s.put (Reg.WLP_STATUS_STATE p) 0).postNow .net (some 43) 0x0110 [p, 0, 0])) ∧
    (s.bit (Reg.WLP_CTL_EN p) = true → s.bit (Reg.WLP_STATUS_MOD_OK p) = true →
      (s.get (Reg.WLP_STATUS_STATE p) = 0 ∨ s.get (Reg.WLP_STATUS_STATE p) = 5 → ∃ t, exec (.wlRestartTimer p) s = .next t ∧
        t.get (Reg.WLP_STATUS_STATE p) = 1 ∧ t.wl = s.wl ∧ t.units = s.units) ∧
      (s.hostUp = true → ∃ t, exec (.wlRetrain p) s = .next t ∧ t.get (Reg.WLP_STATUS_STATE p) = 1 ∧ t.units = s.units)) ∧
    (s.get (Reg.WLP_STATUS_STATE p) = 4 → ∃ t, exec (.wlPortDown p) s = .next t ∧ t.get (Reg.WLP_STATUS_STATE p) = 0 ∧
      t.bit (Reg.WLP_PEER_VALID p) = false ∧ t.get (Reg.WLP_PEER_DEVNUM p) = 0 ∧ t.bit (Reg.WLP_STATUS_DOWN_SEEN p) = true ∧
      (t.wlp p).unacked = [] ∧ (t.wlp p).ready = [] ∧ (t.wlp p).txKey = none ∧ (t.wlp p).rxKey = none ∧ (t.wlp p).tx = (s.wlp p).tx ∧ t.units = s.units) ∧
    (s.get (Reg.WLP_STATUS_STATE p) ≠ 4 → exec (.wlPortDown p) s = .next s)) ∧
  (∀ (p : Fin 4) (r : AuthResult) (s : State),
    (s.get (Reg.WLP_STATUS_STATE p) = 3 → s.authReason r = none → r.peer < 2 ^ 16 → ∃ t, exec (.wlAuthDone p r) s = .next t ∧
      t.get (Reg.WLP_STATUS_STATE p) = 4 ∧ t.get (Reg.WLP_PEER_DEVNUM p) = r.peer ∧ t.bit (Reg.WLP_PEER_VALID p) = true ∧
      (t.wlp p).txSeq = 1 ∧ (t.wlp p).rxSeq = 1 ∧ (t.wlp p).unacked = [] ∧ Tab.get 0 (t.wlp p).credits 1 = 32 ∧
      Tab.get 0 (t.wlp p).credits 2 = 128 ∧ (t.wlp p).txKey = some (s.linkKeys r.peer).1 ∧
      (t.wlp p).rxKey = some (s.linkKeys r.peer).2 ∧ t.units = s.units) ∧
    (∀ k, s.get (Reg.WLP_STATUS_STATE p) = 3 → s.authReason r = some k → exec (.wlAuthDone p r) s = .next
      (((s.put (Reg.WLP_STATUS_STATE p) 5).put (Reg.WLP_STATUS_AUTH_FAIL p) 1).postNow .net (some 43) 0x0111 [p, k])) ∧
    (s.get (Reg.WLP_STATUS_STATE p) ≠ 3 → exec (.wlAuthDone p r) s = .next s)) ∧
  (∀ (p : Fin 4) (r : ModuleRead) (s : State), ∃ t, exec (.wlModuleInsertion p r) s = .next t ∧ t.units = s.units ∧
    t.bit (Reg.WLP_STATUS_MOD_PRESENT p) = r.present ∧
    (r.present = false → t.bit (Reg.WLP_STATUS_MOD_OK p) = false ∧ t.get (Reg.WLP_STATUS_STATE p) = 0))

/-- WL_CELL_TX of an UP port without a replay sends the first ready cell of the highest class with credit, with the next SEQ and the ACK it owes, keeps it among the unacknowledged, uses one credit, and under a link key takes its nonce from its extended SEQ; a relayed cell then returns a credit of the port it came in on. WL_CELL_RECEIVED of the expected good cell advances the expected SEQ, and relays one for a device on another UP port with one hop more, which keeps its place in the buffer, while one for this device returns its credit; a damaged cell is counted, and after one or a cell out of order the port waits for the expected one. WL_REPLAY_TIMEOUT puts all unacknowledged cells up for replay, and after 8 replays takes the port to DOWN. WL_TIME_CELL_TX queues the TIME cell of an UP port; WL_TIME_LOSS forgets the peer's. WL_BUNDLE_TX of an aligned domain queues the AUDIO cells of a port's only flow. WL_FLOW_LOSS reports once, and the ASRC channels of the flow's inputs start again. -/
def Obligations.WamundCells : Prop :=
  (∀ (p : Fin 4) (s : State) (v : Nat) (c : Cell) (rest : List Cell), s.wlUp p = true → (s.wlp p).replay = [] →
    (s.wlp p).nextVc = some v → Tab.get [] (s.wlp p).ready v = c :: rest →
    ∃ t, exec (.wlCellTx p) s = .next t ∧ t.regs = s.regs ∧ t.units = s.units ∧ t.host = s.host ∧
      let x := s.wlp p
      let y := t.wlp p
      y.sent = some (x.stamped { c with seq := x.txSeq, held := none }) ∧ (x.stamped { c with seq := x.txSeq, held := none }).ack = x.rxSeq ∧
      y.unacked = x.unacked ++ [x.stamped { c with seq := x.txSeq, held := none }] ∧ y.txSeq = (x.txSeq + 1) % 2 ^ 16 ∧
      Tab.get [] y.ready v = rest ∧ Tab.get 0 y.credits v = Tab.get 0 x.credits v - 1 ∧
      (∀ k, c.type = 2 → x.txKey = some k → y.txKey = some { k with data := k.data + 1 } ∧
        y.txNonce = some (k.nonce false (extendedSeq (k.data + 1) x.txSeq))) ∧
      ∀ q, q ≠ p.val → (c.held = some q → Tab.get 0 (t.wlp q).creditOwed c.vc = Tab.get 0 (s.wlp q).creditOwed c.vc + 1) ∧
        (c.held ≠ some q → t.wlp q = s.wlp q)) ∧
  (∀ (p : Fin 4) (c : Cell) (stamp : Nat) (free tail : Bool) (s : State),
    (s.wlUp p = false → exec (.wlCellReceived p c stamp free tail) s = .next s) ∧
    (s.wlUp p = true → c.reservedOk = true → c.len ≤ 224 → c.bcast = false → c.type = 2 → c.nak = false →
      (c.tagOk = true → c.seq = (s.wlp p).rxSeq → s.route c.src = p.val →
        (∀ e, s.route c.dst = e → e < 4 → e ≠ p.val → s.wlUp e = true → c.hops < 16 → c.vc < 4 →
          ∃ t, exec (.wlCellReceived p c stamp free tail) s = .next t ∧ (t.wlp p).rxSeq = ((s.wlp p).rxSeq + 1) % 2 ^ 16 ∧
            Tab.get [] (t.wlp e).ready c.vc = Tab.get [] (s.wlp e).ready c.vc ++
              [{ c with hops := c.hops + 1, seq := 0, ack := 0, nak := false, credit := [0, 0, 0, 0],
                        held := some p.val }] ∧
            (t.wlp p).creditOwed = (s.wlp p).creditOwed ∧
            t.regs = s.regs ∧ t.units = s.units) ∧
        (s.route c.dst = 5 → c.payload = .unknown → ∃ t, exec (.wlCellReceived p c stamp free tail) s = .next t ∧
          t.wl.unknown = s.wl.unknown + 1 ∧ (t.wlp p).rxSeq = ((s.wlp p).rxSeq + 1) % 2 ^ 16 ∧
          Tab.get 0 (t.wlp p).creditOwed c.vc = Tab.get 0 (s.wlp p).creditOwed c.vc + 1 ∧ t.regs = s.regs)) ∧
      (c.tagOk = true → c.seq ≠ (s.wlp p).rxSeq → ∃ t, exec (.wlCellReceived p c stamp free tail) s = .next t ∧
        (t.wlp p).rxSeq = (s.wlp p).rxSeq ∧ (t.wlp p).waiting = true ∧ t.regs = s.regs ∧ t.units = s.units) ∧
      (c.tagOk = false → (s.wlp p).tagFails < 15 → ∃ t, exec (.wlCellReceived p c stamp free tail) s = .next t ∧
        (t.wlp p).rxSeq = (s.wlp p).rxSeq ∧ (t.wlp p).tagFails = (s.wlp p).tagFails + 1 ∧ (t.wlp p).waiting = true ∧
        t.get (Reg.WLP_ERR_CNT_COUNT p) = (s.bump (Reg.WLP_ERR_CNT_COUNT p)).get (Reg.WLP_ERR_CNT_COUNT p)))) ∧
  (∀ (p : Fin 4) (s : State), s.wlUp p = true → (s.wlp p).unacked ≠ [] →
    ((s.wlp p).replays < 8 → ∃ t, exec (.wlReplayTimeout p) s = .next t ∧ (t.wlp p).replay = (s.wlp p).unacked ∧
      (t.wlp p).replays = (s.wlp p).replays + 1 ∧ (t.wlp p).unacked = (s.wlp p).unacked ∧ t.units = s.units) ∧
    (8 ≤ (s.wlp p).replays → ∃ t, exec (.wlReplayTimeout p) s = .next t ∧ t.get (Reg.WLP_STATUS_STATE p) = 0)) ∧
  (∀ (p : Fin 4) (stamp mark gm : Nat) (s : State), s.wlUp p = true → ∃ t c, exec (.wlTimeCellTx p stamp mark gm) s = .next t ∧
    Tab.get [] (t.wlp p).ready 0 = Tab.get [] (s.wlp p).ready 0 ++ [c] ∧ c.payload = .time (s.timeCell p mark gm) ∧
    c.dst = s.get (Reg.WLP_PEER_DEVNUM p) ∧ (t.wlp p).tseq = ((s.wlp p).tseq + 1) % 2 ^ 32 ∧ (t.wlp p).prevTx = stamp ∧
    t.regs = s.regs ∧ t.units = s.units) ∧
  (∀ (p : Fin 4) (s : State), ∃ t, exec (.wlTimeLoss p) s = .next t ∧ (t.wlp p).peerTime = none ∧ t.units = s.units ∧
    ∀ q, q ≠ p.val → t.wlp q = s.wlp q) ∧
  (∀ (d : Fin 3) (s : State) (p : Nat) (r : FlowRec), p < 4 → s.wlUp p = true → (s.wlp p).tx = [(r.flow, some r)] → r.port = p →
    r.bcast = false → r.domain = d.val → (∀ q < 4, q ≠ p → (s.wlp q).tx = []) →
    (s.get Reg.TIME_STATUS_ALIGNED).testBit d = true → s.sending d = true →
    ∃ t l, exec (.wlBundleTx d) s = .next t ∧ t.units = s.units ∧ l ≠ [] ∧
      Tab.get [] (t.wlp p).ready 2 = Tab.get [] (s.wlp p).ready 2 ++ l ∧ ∀ c ∈ l, c.vc = 2 ∧ c.dst = r.peer ∧ c.src = s.devnum) ∧
  (∀ (p : Fin 4) (src : Nat) (f : Fin 256) (s : State) (x : RxFlow), Tab.get none (s.wlp p).rx (src * 256 + f) = some x →
    (x.lost = false → exec (.wlFlowLoss p src f) s = .next (((s.modWl p fun y => { y with
      rx := Tab.put none y.rx (src * 256 + f) (some { x with lost := true }) }).each (flowAddrs x.record) fun a t =>
      t.restartSource a).postNow .net (some 44) 0x0112 [p, src, f, 1])) ∧
    (x.lost = true → exec (.wlFlowLoss p src f) s = .next s))

/-- A candidate whose source is visibly lost does not qualify, and the loop of a domain without work is stopped. A candidate that qualifies while a loop acquires or is locked on its reference only shows as qualified; in a loop without a reference the best qualified candidate becomes it, its domain is unaligned and the loop acquires. A candidate that is lost is marked; when it was the reference, the best one left takes over, or a loop locked for a second holds over and any other has lost its reference. A better candidate that stayed qualified takes over with REVERT alone. A comparison shows its phase error and, but in host mode, a DCO word within the limit; a VSYNC pulse of a VIDEO reference is counted, and the first of a sequence is the alignment point. The lock criterion locks an acquiring loop and starts the clocks of its master groups, 16 comparisons beyond 8 times WIN unlock one, LOCK_N comparisons within WIN halve the bandwidth down to FINAL. Numbers of states: 1 ACQUIRE, 2 LOCKED, 3 HOLDOVER, 4 REF_LOST. -/
def Obligations.MpllLoop : Prop :=
  (∀ (n : Fin 3) (k : Fin 8) (s : State), let s1 := s.setMask (Reg.CLK_MPLL_QUAL_QUALIFIED n) k
    (s.mayQualify n k = false → exec (.candidateQualified n k) s = .next s) ∧
    (s.mayQualify n k = true → s.get (Reg.CLK_MPLL_STATE_STATE n) ∈ [1, 2] → s.bit (Reg.CLK_MPLL_STATE_SEL_VALID n) = true →
      exec (.candidateQualified n k) s = .next s1) ∧
    (s.mayQualify n k = true → s.mpllRuns n = false → exec (.candidateQualified n k) s = .next s1) ∧
    (∀ b, s.mayQualify n k = true → s.mpllRuns n = true → s.bit (Reg.CLK_MPLL_STATE_SEL_VALID n) = false → s1.bestCandidate n = some b →
      ∃ t, exec (.candidateQualified n k) s = .next t ∧ t.get (Reg.CLK_MPLL_STATE_SEL n) = b ∧
        t.bit (Reg.CLK_MPLL_STATE_SEL_VALID n) = true ∧ t.get (Reg.CLK_MPLL_STATE_STATE n) = 1 ∧
        (t.mpll n).halvings = 0 ∧ (t.get Reg.TIME_STATUS_ALIGNED).testBit n = false ∧ t.units = s.units ∧
        (b = k → Tab.get 0 (t.mpll n).vsyncs k = 0 ∧ (t.mpll n).opened = none))) ∧
  (∀ (n : Fin 3) (k : Fin 8) (s : State),
    let s1 := (s.clrMask (Reg.CLK_MPLL_QUAL_QUALIFIED n) k).setMask (Reg.CLK_MPLL_QUAL_DISQ n) k
    let sel := s.bit (Reg.CLK_MPLL_STATE_SEL_VALID n) = true ∧ s.get (Reg.CLK_MPLL_STATE_SEL n) = k
    (s.isQualified n k = false → exec (.candidateLoss n k) s = .next s) ∧
    (s.isQualified n k = true → ¬sel → exec (.candidateLoss n k) s = .next s1) ∧
    (∀ b, s.isQualified n k = true → sel → s1.bestCandidate n = some b →
      exec (.candidateLoss n k) s = .next ((s1.unseenVsyncs n b).selectCandidate n b)) ∧
    (s.isQualified n k = true → sel → s1.bestCandidate n = none → s.get (Reg.CLK_MPLL_STATE_STATE n) ∈ [1, 2] →
      ∃ t, exec (.candidateLoss n k) s = .next t ∧ t.bit (Reg.CLK_MPLL_STATE_SEL_VALID n) = false ∧ t.units = s.units ∧
        t.isQualified n k = false ∧ t.get (Reg.CLK_MPLL_STATE_STATE n) =
          if s.get (Reg.CLK_MPLL_STATE_STATE n) = 2 ∧ (s.mpll n).lockedAt + (s.dom 0).rate ≤ (s.dom 0).si then 3 else 4)) ∧
  (∀ (n : Fin 3) (k : Fin 8) (s : State), s.mpllRuns n = true → s.eligible n k = true → s.bit (Reg.CLK_MPLL_STATE_SEL_VALID n) = true →
    s.get (Reg.CLK_MPLL_CAND_PRIO n k) < s.get (Reg.CLK_MPLL_CAND_PRIO n (s.get (Reg.CLK_MPLL_STATE_SEL n))) →
    exec (.revertWtrExpiry n k) s = .next (if s.bit (Reg.CLK_MPLL_CTL_REVERT n) then
      (s.unseenVsyncs n k).selectCandidate n k else s)) ∧
  (∀ (n : Fin 3) (err word : Int) (vs : Bool) (s : State), s.mpllRuns n = false → exec (.mpllComparison n ⟨err, vs⟩ word) s = .next s) ∧
  (∀ (n : Fin 3) (err word : Int) (vs : Bool) (s : State), s.mpllRuns n = true → let sel := s.get (Reg.CLK_MPLL_STATE_SEL n)
    ∃ t, exec (.mpllComparison n ⟨err, vs⟩ word) s = .next t ∧
    t.get (Reg.CLK_MPLL_PHERR_ERR n) = unsigned32 err ∧ t.units = s.units ∧
    t.get (Reg.CLK_MPLL_STATE_STATE n) = s.get (Reg.CLK_MPLL_STATE_STATE n) ∧
    (s.get (Reg.CLK_MPLL_CTL_LOOP n) = 2 → t.get (Reg.CLK_MPLL_DCO_WORD n) = s.get (Reg.CLK_MPLL_DCO_WORD n)) ∧
    (s.get (Reg.CLK_MPLL_CTL_LOOP n) ≠ 2 → word.natAbs ≤ dcoLimit → t.get (Reg.CLK_MPLL_DCO_WORD n) = unsigned32 word) ∧
    (t.mpll n).inWin = (if err.natAbs ≤ s.get (Reg.CLK_MPLL_LOCK_WIN n) then (s.mpll n).inWin + 1 else 0) ∧
    (vs = false → (t.mpll n).vsyncs = (s.mpll n).vsyncs ∧ (t.mpll n).opened = (s.mpll n).opened) ∧
    (vs = true → s.bit (Reg.CLK_MPLL_STATE_SEL_VALID n) = true → s.get (Reg.CLK_MPLL_CAND_SRC n sel) = 4 →
      Tab.get 0 (t.mpll n).vsyncs sel = Tab.get 0 (s.mpll n).vsyncs sel + 1 ∧
      (Tab.get 0 (s.mpll n).vsyncs sel % max 1 (s.get (Reg.CLK_MPLL_CAND_PARAM n sel) / 2 ^ 13 % 8) = 0 →
        (t.mpll n).opened = some (s.dom n).si))) ∧
  (∀ (n : Fin 3) (s : State),
    (s.mpllRuns n = true → s.get (Reg.CLK_MPLL_STATE_STATE n) = 1 → (s.mpll n).met = true → ∃ t, exec (.lockCriterion n) s = .next t ∧
      t.get (Reg.CLK_MPLL_STATE_STATE n) = 2 ∧ (t.get (Reg.CLK_MPLL_STATE_HIST n)).testBit 2 = true ∧
      (t.mpll n).lockedAt = (s.dom 0).si ∧ (t.mpll n).everLocked = true ∧ t.units = s.units ∧
      ∀ g : Fin 4, s.bit (Reg.APG_CFG_MASTER g) = true → s.get (Reg.APG_CFG_DOMAIN g) = n → t.bit (Reg.APG_STATUS_CLK_OK g) = true) ∧
    (s.mpllRuns n = false ∨ s.get (Reg.CLK_MPLL_STATE_STATE n) ≠ 1 ∨ (s.mpll n).met = false → exec (.lockCriterion n) s = .next s)) ∧
  (∀ (n : Fin 3) (s : State),
    (s.mpllRuns n = true → s.get (Reg.CLK_MPLL_STATE_STATE n) = 2 → 16 ≤ (s.mpll n).outWin → ∃ t, exec (.phaseExcursion n) s = .next t ∧
      t.get (Reg.CLK_MPLL_STATE_STATE n) = 1 ∧ t.bit (Reg.CLK_MPLL_STATE_UNLOCK n) = true ∧ (t.mpll n).halvings = 0 ∧
      t.bit (Reg.CLK_MPLL_STATE_NARROW_DONE n) = false ∧ t.units = s.units) ∧
    (s.mpllRuns n = false ∨ s.get (Reg.CLK_MPLL_STATE_STATE n) ≠ 2 ∨ (s.mpll n).outWin < 16 → exec (.phaseExcursion n) s = .next s)) ∧
  (∀ (n : Fin 3) (s : State), let m := s.mpll n
    let f := s.get (Reg.CLK_MPLL_BW_FINAL n)
    (s.mpllRuns n = true → s.get (Reg.CLK_MPLL_STATE_STATE n) ∈ [1, 2] → s.get (Reg.CLK_MPLL_LOCK_N n) ≤ m.inWin → f * 2 ^ m.halvings < 10000 →
      ∃ t, exec (.bandwidthHalving n) s = .next t ∧ t.mpll n = { m with halvings := m.halvings + 1, inWin := 0 } ∧
        t.units = s.units ∧ (10000 ≤ f * 2 ^ (m.halvings + 1) → t.bit (Reg.CLK_MPLL_STATE_NARROW_DONE n) = true)) ∧
    (s.mpllRuns n = false ∨ m.inWin < s.get (Reg.CLK_MPLL_LOCK_N n) ∨ 10000 ≤ f * 2 ^ m.halvings → exec (.bandwidthHalving n) s = .next s))

/-- On an engine whose host interface answers: a DCO word is taken in host mode and in range, else CFG_REJ; a profile with 1 to 16 segments in range arms while none is armed or runs, else ROAST_REJ; an abort of a running one holds the offset in force and adds up the phase until then. At a frame boundary an armed profile whose START_SI has come begins with phase 0; one whose boundary had begun to be handled when it was armed begins LATE at the boundary after; a planned glide begins too. A segment's end puts its offset in force, adds its phase and goes to the next segment; the last one ends the profile or glide, and the offset of a profile is a pull. A locked domain with a time reference and no glide is aligned. A renumbering moves the SI of its domain by the nearest multiple of a block, and what is left, at most half a block, is planned as a glide where no profile is armed or runs. -/
def Obligations.RoastAlignAndRenumber : Prop :=
  (∀ (n : Fin 3) (w : BitVec 32) (s : State), s.hostUp = true → s.bit Reg.GLOBAL_RESTORE_DONE = true →
    let cur := s.get (Reg.CLK_MPLL_DCO_WORD n)
    (s.get (Reg.CLK_MPLL_CTL_LOOP n) = 2 → w.toInt.natAbs ≤ dcoLimit → cur ≠ w.toNat →
      exec (.clkMpllDcoWrite n w) s = .next (s.put (Reg.CLK_MPLL_DCO_WORD n) w.toNat)) ∧
    (cur ≠ w.toNat → s.get (Reg.CLK_MPLL_CTL_LOOP n) ≠ 2 ∨ dcoLimit < w.toInt.natAbs →
      exec (.clkMpllDcoWrite n w) s = .next (s.put Reg.CLK_STATUS_CFG_REJ 1))) ∧
  (∀ (n : Fin 3) (k : Nat) (s : State), s.hostUp = true →
    (s.get (Reg.CLK_ROAST_NSEG_NSEG n) ∈ List.range' 1 16 → (∀ g ∈ s.roastSegments n, g.2.natAbs ≤ dcoLimit) →
      s.get (Reg.CLK_ROAST_STATUS_STATE n) = 0 → (s.mpll n).glideNext = false → exec (.roastStart n) s = .next
        ((s.put (Reg.CLK_ROAST_STATUS_STATE n) 1).modMpll n fun m =>
          { m with profile := s.roastSegments n, startAt := s.get (Reg.CLK_ROAST_START_SI_SI n),
                   lateTo := if s.get (Reg.CLK_ROAST_START_SI_SI n) ≤ (s.dom n).si then some ((s.dom n).si + (s.dom n).block) else none })) ∧
    (s.get (Reg.CLK_ROAST_NSEG_NSEG n) = 0 ∨ 16 < s.get (Reg.CLK_ROAST_NSEG_NSEG n) ∨ (∃ g ∈ s.roastSegments n, dcoLimit < g.2.natAbs) ∨
        s.get (Reg.CLK_ROAST_STATUS_STATE n) ≠ 0 →
      exec (.roastStart n) s = .next (s.put (Reg.CLK_ROAST_STATUS_ROAST_REJ n) 1)) ∧
    (s.get (Reg.CLK_ROAST_STATUS_STATE n) ≠ 2 → exec (.roastAbort n k) s = .next s) ∧
    (s.get (Reg.CLK_ROAST_STATUS_STATE n) = 2 → ∃ t, exec (.roastAbort n k) s = .next t ∧
      t.get (Reg.CLK_ROAST_STATUS_STATE n) = 0 ∧ (t.mpll n).profile = [] ∧ (t.mpll n).offset = s.offsetAt n k ∧ (t.mpll n).phase = s.phaseAt n k ∧
      (t.dom n).pull = s.offsetAt n k ∧ t.units = s.units)) ∧
  (∀ (n : Fin 3) (s : State), (s.mpll n).glideNext = false → s.get (Reg.CLK_ROAST_STATUS_STATE n) = 1 →
    let m := s.mpll n
    let a := m.lateTo.getD m.startAt
    (a ≤ (s.dom n).si → ∃ t, exec (.roastProfileBegin n) s = .next t ∧ t.get (Reg.CLK_ROAST_STATUS_STATE n) = 2 ∧
      t.get (Reg.CLK_ROAST_STATUS_SEG n) = 0 ∧ (t.mpll n).phase = 0 ∧ (t.mpll n).profile = (s.mpll n).profile ∧ t.units = s.units ∧
      (m.lateTo ≠ none ∨ a + (s.dom n).block ≤ (s.dom n).si → t.bit (Reg.CLK_ROAST_STATUS_LATE n) = true)) ∧
    ((s.dom n).si < a → exec (.roastProfileBegin n) s = .next s)) ∧
  (∀ (n : Fin 3) (s : State), (s.mpll n).glideNext = true → ∃ t, exec (.roastProfileBegin n) s = .next t ∧
    t.get (Reg.CLK_ROAST_STATUS_STATE n) = 3 ∧ (t.get Reg.TIME_STATUS_GLIDING).testBit n = true ∧ (t.mpll n).glideNext = false ∧
    (t.mpll n).profile = (s.mpll n).profile ∧ t.units = s.units) ∧
  (∀ (n : Fin 3) (len : Nat) (fin : Int) (rest : List (Nat × Int)) (s : State), (s.mpll n).profile = (len, fin) :: rest →
    s.get (Reg.CLK_ROAST_STATUS_STATE n) ∈ [2, 3] → ∃ t, exec (.roastSegmentEnd n) s = .next t ∧ t.units = s.units ∧
      (t.mpll n).offset = fin ∧ (t.mpll n).profile = rest ∧ (t.mpll n).phase = s.phaseAt n (s.segmentTicks n len) ∧
      (rest = [] → t.get (Reg.CLK_ROAST_STATUS_STATE n) = 0 ∧
        (t.dom n).pull = (if s.get (Reg.CLK_ROAST_STATUS_STATE n) = 2 then fin else (s.dom n).pull) ∧
        (t.get Reg.TIME_STATUS_GLIDING).testBit n = false) ∧
      (rest ≠ [] → s.get (Reg.CLK_ROAST_STATUS_SEG n) < 15 → t.doms = s.doms ∧
        t.get (Reg.CLK_ROAST_STATUS_SEG n) = s.get (Reg.CLK_ROAST_STATUS_SEG n) + 1)) ∧
  (∀ (n : Fin 3) (s : State), (s.mpll n).profile = [] ∨ s.get (Reg.CLK_ROAST_STATUS_STATE n) ∉ [2, 3] →
    exec (.roastSegmentEnd n) s = .next s) ∧
  (∀ (d : Fin 3) (s : State),
    let ready := s.get (Reg.CLK_MPLL_STATE_STATE d) = 2 ∧ s.bit (Reg.CLK_MPLL_STATE_SEL_VALID d) = true ∧
      s.carriesTime d (s.get (Reg.CLK_MPLL_STATE_SEL d)) = true ∧ (s.get Reg.TIME_STATUS_GLIDING).testBit d = false ∧
      (s.mpll d).glideNext = false
    (ready → exec (.alignComplete d) s = .next ((s.setMask Reg.TIME_STATUS_ALIGNED d).postNow .clock (some 51) 0x25 [d])) ∧
    (¬ready → exec (.alignComplete d) s = .next s)) ∧
  (∀ (d : Fin 3) (delta : Int) (s : State), 0 < (s.dom d).block →
    let p := splitOffset (s.dom d).block delta
    2 * p.2.natAbs ≤ (s.dom d).block * 2 ^ 16 ∧ p.1 * ((s.dom d).block * 2 ^ 16 : Nat) + p.2 = delta ∧
    ∃ t, exec (.renumbering d delta) s = .next t ∧ t.units = s.units ∧ t.prog = s.prog ∧ t.host.issued = s.host.issued ∧
      (t.dom d).si = shiftSi (p.1 * ((s.dom d).block : Int)) (s.dom d).si ∧ (t.dom d).rate = (s.dom d).rate ∧
      (p.2 ≠ 0 → s.get (Reg.CLK_ROAST_STATUS_STATE d) = 0 → (t.mpll d).glideNext = true ∧ (t.mpll d).profile = s.glideFor d p.2))

/-- A PTP message on an enabled port counts a frame, and an event message puts its stamp with the egress latency into the port's queue of 16, or is counted as dropped and TSQ_OVF set when the queue is full; a disabled port changes nothing. The drain empties the queue. A port in SLAVE shows it with one event; where no port is in SLAVE no PTP candidate stays qualified, while another port in SLAVE keeps them. A slave-only clock has no port in MASTER. A trigger arms with the SI and domain of its registers, is canceled, and fires once at the first boundary at or after its SI; one whose SI had passed when it was armed fires LATE at the boundary after that. A snapshot holds the PTP counter and the SI of each domain with the samples into its frame period. Triggers and the snapshot are for an engine whose host interface answers. -/
def Obligations.StampsTriggersAndSnapshots : Prop :=
  (∀ (x : Fin 3) (isEvent requested : Bool) (id : BitVec 16) (stamp : Nat) (s : State),
    let q := Tab.get [] s.time.tsq x
    (s.bit (Reg.TIME_PTP_PORT_EN x) = false → exec (.ptpMessageTx x isEvent id requested stamp) s = .next s) ∧
    (s.bit (Reg.TIME_PTP_PORT_EN x) = true → ∃ t, exec (.ptpMessageTx x isEvent id requested stamp) s = .next t ∧
      t.time.ptpSent = s.time.ptpSent + 1 ∧ t.units = s.units ∧
      t.time.ptpTlv = s.time.ptpTlv + (if s.bit Reg.TIME_PTP_CFG_AUTH then 1 else 0) ∧
      t.get (Reg.NET_TX_FRAMES_COUNT x) = min (s.get (Reg.NET_TX_FRAMES_COUNT x) + 1) (2 ^ (Reg.NET_TX_FRAMES_COUNT x).w - 1) ∧
      (isEvent = false → t.time.tsq = s.time.tsq) ∧
      (isEvent = true → q.length < 16 → t.get (Reg.TIME_TSQ_COUNT x) = q.length + 1 ∧
        Tab.get [] t.time.tsq x = q ++ [⟨id.toNat, stamp + s.get (Reg.TIME_PORT_LAT_EGRESS x), requested⟩]) ∧
      (isEvent = true → 16 ≤ q.length → t.time.tsq = s.time.tsq ∧ t.bit (Reg.TIME_TSQ_TSQ_OVF x) = true))) ∧
  (∀ (x : Fin 3) (s : State), ∃ t, exec (.txStampDrain x) s = .next t ∧ Tab.get [] t.time.tsq x = [] ∧
    t.get (Reg.TIME_TSQ_COUNT x) = 0 ∧ t.units = s.units ∧ ∀ y, y ≠ x.val → Tab.get [] t.time.tsq y = Tab.get [] s.time.tsq y) ∧
  (∀ (x : Fin 3) (p : Fin 10) (gm : Bool) (s : State),
    (s.bit Reg.TIME_PTP_CFG_SLAVE_ONLY = true → p = 6 → exec (.ptpPortStateChange x p gm) s = .next s) ∧
    (p = 9 → exec (.ptpPortStateChange x p gm) s = .next
      ((s.put (Reg.TIME_PTP_PORT_PSTATE x) 9).postNow .clock (some 49) 0x22 [x, 9, if gm then 1 else 0])) ∧
    (p ≠ 0 → p ≠ 9 → ¬(s.bit Reg.TIME_PTP_CFG_SLAVE_ONLY = true ∧ p = 6) →
      (∀ y : Fin 3, y ≠ x → s.get (Reg.TIME_PTP_PORT_PSTATE y) = 9 → exec (.ptpPortStateChange x p gm) s = .next
        ((s.put (Reg.TIME_PTP_PORT_PSTATE x) p).postNow .clock (some 49) 0x22 [x, p, if gm then 1 else 0])) ∧
      ((∀ y : Fin 3, y ≠ x → s.get (Reg.TIME_PTP_PORT_PSTATE y) ≠ 9) → ∃ t, exec (.ptpPortStateChange x p gm) s = .next t ∧
        t.get (Reg.TIME_PTP_PORT_PSTATE x) = p ∧ t.units = s.units ∧
        ∀ (n : Fin 3) (k : Fin 8), s.get (Reg.CLK_MPLL_CAND_SRC n k) = 1 → t.isQualified n k = false))) ∧
  (∀ (k : Fin 8) (d : Fin 4) (s : State), s.hostUp = true → let si := s.get (Reg.TIME_TRIG_SI_SI k)
    (d = 3 → exec (.triggerArm k d) s = .next (s.put Reg.TIME_STATUS_CFG_REJ 1)) ∧
    (d ≠ 3 → ∃ t, exec (.triggerArm k d) s = .next t ∧ t.bit (Reg.TIME_TRIG_CTL_ARMED k) = true ∧
      t.get (Reg.TIME_TRIG_CTL_DOMAIN k) = d ∧ t.units = s.units ∧
      Tab.get none t.time.trigs k = some (d.val, si, if si ≤ (s.dom d).si then some ((s.dom d).si + (s.dom d).block) else none)) ∧
    (∃ t, exec (.triggerCancel k) s = .next t ∧ t.bit (Reg.TIME_TRIG_CTL_ARMED k) = false ∧ t.units = s.units ∧
      Tab.get none t.time.trigs k = none ∧ ∀ j, j ≠ k.val → Tab.get none t.time.trigs j = Tab.get none s.time.trigs j)) ∧
  (∀ (k : Fin 8) (d si : Nat) (late : Option Nat) (s : State),
    (Tab.get none s.time.trigs k = some (d, si, late) → late.getD si ≤ (s.dom d).si → ∃ t, exec (.triggerFire k) s = .next t ∧
      t.bit (Reg.TIME_TRIG_CTL_ARMED k) = false ∧ t.bit (Reg.TIME_TRIG_CTL_FIRED k) = true ∧ t.units = s.units ∧
      Tab.get none t.time.trigs k = none ∧ (late ≠ none → t.bit (Reg.TIME_TRIG_CTL_LATE k) = true) ∧
      (late = none → t.bit (Reg.TIME_TRIG_CTL_LATE k) = s.bit (Reg.TIME_TRIG_CTL_LATE k))) ∧
    (Tab.get none s.time.trigs k = some (d, si, late) → (s.dom d).si < late.getD si → exec (.triggerFire k) s = .next s) ∧
    (Tab.get none s.time.trigs k = none → exec (.triggerFire k) s = .next s)) ∧
  (∀ (sec : BitVec 48) (ns : BitVec 30) (frac : BitVec 4) (a b c : Nat) (s : State), s.hostUp = true →
    ∃ t, exec (.timeSnap sec ns frac a b c) s = .next t ∧ t.get Reg.TIME_NOW_SEC_SEC = sec.toNat ∧
      t.get Reg.TIME_NOW_NS_NS = ns.toNat ∧ t.get Reg.TIME_NOW_FRAC_FRAC = frac.toNat ∧ t.time.clock = ⟨sec, ns, frac⟩ ∧
      t.units = s.units ∧
      ∀ j : Fin 3, t.get (Reg.TIME_SI_SI j) = ((s.dom j).si + [a, b, c].getD j 0 % (s.dom j).block) % 2 ^ 64)

/-- An enabled port that stands starts with half-word phase 0, of a master group only once its clocks run; a running one that is no longer enabled stops. Damage of a running port of a synchronous slave group sets its bit, counts, and in the pair format an odd count of half-words turns the phase of an output; a framing error marks every such port of the group, an inverted marker the input port. A receiver that locks shows LOCK 2, its rate and ratio, and its two channels track from 100 Hz; one that loses its lock shows LOST. Channel status of a consumer block is captured whole, a professional one with a wrong CRC is not, and the snapshot copies the captures. A commit is adopted whole at the block start of a running transmitter. An ASRC channel halves its bandwidth down to FINAL, delivers from 25 Hz, and returns to 100 Hz with or without muting. Snapshot and commit are for an engine whose host interface answers. -/
def Obligations.PortsAesAndAsrc : Prop :=
  (∀ (p : Fin 16) (s : State), let en := s.bit (Reg.APORT_P_CTL_EN p)
    let run := s.bit (Reg.APORT_P_STATUS_RUNNING p)
    let fs := s.bit (Reg.APG_CFG_MASTER (p / 4)) = false ∨ s.bit (Reg.APG_STATUS_CLK_OK (p / 4)) = true
    (en = true → run = false → fs → ∃ t, exec (.aportStart p) s = .next t ∧ t.bit (Reg.APORT_P_STATUS_RUNNING p) = true ∧
      t.bit (Reg.APORT_P_STATUS_STOPPED p) = false ∧ t.bit (Reg.APORT_P_STATUS_PAIR_PHASE p) = false ∧
      Tab.get false t.audio.unpack p = false ∧ t.units = s.units ∧ t.mix = s.mix) ∧
    (en = false ∨ run = true ∨ ¬fs → exec (.aportStart p) s = .next s) ∧
    (en = false → run = true → exec (.aportStop p) s = .next
      ((s.put (Reg.APORT_P_STATUS_RUNNING p) 0).put (Reg.APORT_P_STATUS_STOPPED p) 1)) ∧
    (en = true ∨ run = false → exec (.aportStop p) s = .next s)) ∧
  (∀ (p : Fin 16) (k m : Nat) (s : State),
    (s.mayXrun p = true → s.portOut p = true → ∃ t, exec (.aportUnderrun p k m) s = .next t ∧ t.units = s.units ∧
      t.bit (Reg.APORT_P_STATUS_UNDERRUN p) = true ∧ t.get (Reg.APORT_P_CNT_XRUN p) = min (s.get (Reg.APORT_P_CNT_XRUN p) + 1) 0xFFFF ∧
      t.bit (Reg.APORT_P_STATUS_PAIR_PHASE p) = (s.bit (Reg.APORT_P_STATUS_PAIR_PHASE p) ^^ (s.isPairFormat p && m % 2 == 1))) ∧
    (s.mayXrun p = true → s.portOut p = false → ∃ t, exec (.aportOverrun p k m) s = .next t ∧ t.units = s.units ∧ t.mix = s.mix ∧
      t.bit (Reg.APORT_P_STATUS_OVERRUN p) = true ∧ t.get (Reg.APORT_P_CNT_XRUN p) = min (s.get (Reg.APORT_P_CNT_XRUN p) + 1) 0xFFFF) ∧
    (s.mayXrun p = false → exec (.aportUnderrun p k m) s = .next s ∧ exec (.aportOverrun p k m) s = .next s)) ∧
  (∀ (g : Fin 4) (k : Nat) (s : State), ∃ t, exec (.aportFramingError g k) s = .next t ∧ t.units = s.units ∧
    ∀ j < 4, s.mayXrun (4 * g + j) = true → t.bit (Reg.APORT_P_STATUS_FS_ERR (4 * g + j)) = true) ∧
  (∀ (p : Fin 16) (s : State), s.bit (Reg.APORT_P_CTL_PAIR_MARK p) = true → s.portOut p = false → s.isPairFormat p = true →
    s.bit (Reg.APORT_P_STATUS_RUNNING p) = true → ∃ t, exec (.pairSwapDetect p) s = .next t ∧ t.units = s.units ∧
      t.bit (Reg.APORT_P_STATUS_PAIR_PHASE p) = true ∧ t.bit (Reg.APORT_P_STATUS_PAIR_SWAP p) = true) ∧
  (∀ (p : Fin 16) (s : State), s.bit (Reg.APORT_P_CTL_PAIR_MARK p) = false ∨ s.portOut p = true ∨ s.isPairFormat p = false ∨
    s.bit (Reg.APORT_P_STATUS_RUNNING p) = false → exec (.pairSwapDetect p) s = .next s) ∧
  (∀ (n : Fin 8) (r : Fin 7) (q : BitVec 32) (s : State),
    (s.bit (Reg.AES_RX_CTL_EN n) = true → s.get (Reg.AES_RX_STATUS_LOCK n) < 2 → ∃ t, exec (.aesRxLock n r q) s = .next t ∧
      t.get (Reg.AES_RX_STATUS_LOCK n) = 2 ∧ t.get (Reg.AES_RX_STATUS_RATE n) = r ∧
      t.get (Reg.AES_RX_RATIO_RATIO n) = q.toNat ∧ t.units = s.units ∧
      ∀ a ∈ rxAddrs n, ∃ x, Tab.get none t.audio.asrc a = some x ∧ x.halvings = 0 ∧ x.released = false) ∧
    (s.bit (Reg.AES_RX_CTL_EN n) = false ∨ 2 ≤ s.get (Reg.AES_RX_STATUS_LOCK n) → exec (.aesRxLock n r q) s = .next s) ∧
    (2 ≤ s.get (Reg.AES_RX_STATUS_LOCK n) → ∃ t, exec (.aesRxLockLoss n) s = .next t ∧ t.units = s.units ∧
      t.get (Reg.AES_RX_STATUS_LOCK n) = 0 ∧ t.bit (Reg.AES_RX_STATUS_LOST n) = true) ∧
    (s.get (Reg.AES_RX_STATUS_LOCK n) < 2 → exec (.aesRxLockLoss n) s = .next s)) ∧
  (∀ (n : Fin 8) (a b : List Byte) (s : State), s.get (Reg.AES_RX_STATUS_LOCK n) ≠ 0 →
    ∃ t, exec (.aesCsBlock n a b) s = .next t ∧ t.units = s.units ∧
      ((a.getD 0 0).getLsbD 0 = false → Tab.get 0 t.audio.capture (2 * n) = bytesToNat (a.take 24)) ∧
      ((b.getD 0 0).getLsbD 0 = false → Tab.get 0 t.audio.capture (2 * n + 1) = bytesToNat (b.take 24) ∧
        t.bit (Reg.AES_RX_STATUS_CONSUMER n) = true) ∧
      ((a.getD 0 0).getLsbD 0 = true → (a.getD 23 0).toNat ≠ csCrc a → t.bit (Reg.AES_RX_STATUS_CRC_ERR n) = true ∧
        Tab.get 0 t.audio.capture (2 * n) = Tab.get 0 s.audio.capture (2 * n))) ∧
  (∀ (n : Fin 8) (a b : List Byte) (s : State), s.get (Reg.AES_RX_STATUS_LOCK n) = 0 → exec (.aesCsBlock n a b) s = .next s) ∧
  (∀ (n : Fin 8) (s : State), s.hostUp = true → ∃ t, exec (.aesRxCsSnap n) s = .next t ∧ t.audio = s.audio ∧ t.units = s.units ∧
    ∀ k < 6, t.get (Reg.AES_RX_CS_A_BYTES n k) = Tab.get 0 s.audio.capture (2 * n) / 2 ^ (32 * k) % 2 ^ 32 ∧
      t.get (Reg.AES_RX_CS_B_BYTES n k) = Tab.get 0 s.audio.capture (2 * n + 1) / 2 ^ (32 * k) % 2 ^ 32) ∧
  (∀ (n : Fin 8) (s : State),
    (s.hostUp = true → exec (.aesTxCommit n) s = .next (s.put (Reg.AES_TX_STATUS_PENDING n) 1)) ∧
    (s.aesBlockIn n = true → s.bit (Reg.AES_TX_CTL_EN n) = true → exec (.aesTxStart n) s = .next (s.put (Reg.AES_TX_STATUS_RUNNING n) 1)) ∧
    (s.aesBlockIn n = false ∨ s.bit (Reg.AES_TX_CTL_EN n) = false → exec (.aesTxStart n) s = .next s) ∧
    (s.aesBlockIn n = true → s.bit (Reg.AES_TX_STATUS_RUNNING n) = true → s.bit (Reg.AES_TX_STATUS_PENDING n) = true →
      ∃ t, exec (.aesTxBlockStart n) s = .next t ∧ t.bit (Reg.AES_TX_STATUS_PENDING n) = false ∧ t.units = s.units ∧
        Tab.get 0 t.audio.active (2 * n) = sentTemplate (s.staging n 0) ∧
        Tab.get 0 t.audio.active (2 * n + 1) = sentTemplate (s.staging n 1)) ∧
    (s.aesBlockIn n = false ∨ s.bit (Reg.AES_TX_STATUS_RUNNING n) = false ∨ s.bit (Reg.AES_TX_STATUS_PENDING n) = false →
      exec (.aesTxBlockStart n) s = .next s)) ∧
  (∀ (a : Nat) (q : BitVec 32) (s : State),
    (Tab.get none s.audio.asrc a = none → exec (.asrcNarrow a q) s = .next s ∧ exec (.asrcRelease a) s = .next s ∧
      exec (.asrcRetrack a) s = .next s) ∧
    (∀ x, Tab.get none s.audio.asrc a = some x → (addrKind a = 4 → addrChan a < 16) →
      (∃ t, exec (.asrcNarrow a q) s = .next t ∧ t.units = s.units ∧ Tab.get none t.audio.asrc a = some
        { x with halvings := if 2 ^ x.halvings * s.asrcFinal a < 1000 then x.halvings + 1 else x.halvings }) ∧
      (x.released = false → 2 ≤ x.halvings → ∃ t, exec (.asrcRelease a) s = .next t ∧ t.units = s.units ∧
        Tab.get none t.audio.asrc a = some { x with released := true } ∧
        (addrKind a = 4 → s.get (Reg.AES_RX_STATUS_LOCK (addrChan a / 2)) = 2 → t.get (Reg.AES_RX_STATUS_LOCK (addrChan a / 2)) = 3)) ∧
      (x.released = true ∨ x.halvings < 2 → exec (.asrcRelease a) s = .next s) ∧
      (∃ t, exec (.asrcRetrack a) s = .next t ∧ t.units = s.units ∧
        Tab.get none t.audio.asrc a = some { x with halvings := 0 } ∧
        t.get Reg.AES_ASRC_POOL_RETRACK = min (s.get Reg.AES_ASRC_POOL_RETRACK + 1) 0xFFFF) ∧
      (∃ t, exec (.asrcRestart a) s = .next t ∧ t.units = s.units ∧
        Tab.get none t.audio.asrc a = some { x with halvings := 0, released := false } ∧
        (addrKind a = 4 → s.get (Reg.AES_RX_STATUS_LOCK (addrChan a / 2)) = 3 → t.get (Reg.AES_RX_STATUS_LOCK (addrChan a / 2)) = 2))))

/-- On an engine whose host interface answers and whose settings are restored: enabling a chain that stands starts it with its preset, unsettled; disabling a running one with its gate open begins its ramp to zero; preset 3 and a range above 20 are refused with CFG_REJ; a range whose compensation stays within 18 dB waits for its zero crossing, another takes the ramp-down path, and one in such a path before its step is the range of that step. A chain settles once. A range change shows and counts the range, and its step is then compensated, or takes the ramp-down path. A debounced detect pin shows the talkback or the headset jack, whose DACs are held at zero until it is classified by its loads; a removal edge ramps both DACs to zero at once; in classified headsets with a microphone the table of loads gives the button. -/
def Obligations.ConvertersAndJacks : Prop :=
  (∀ (c p : Fin 4) (en : Bool) (k : Nat) (s : State), s.hostUp = true → s.bit Reg.GLOBAL_RESTORE_DONE = true → let x := s.conv c
    (p = 3 → ∃ t, exec (.convEnWrite c en p k) s = .next t ∧ t.bit Reg.HUBA_STATUS_CFG_REJ = true ∧
      t.get (convPreset c) = s.get (convPreset c)) ∧
    (p ≠ 3 → x.running = false → ∃ t, exec (.convEnWrite c true p k) s = .next t ∧ t.bit (convEn c) = true ∧
      t.get (convPreset c) = p ∧ t.bit (convSettled c) = false ∧ t.units = s.units ∧
      t.conv c = { x with running := true, stopping := false, preset := p, newPreset := none, settled := none, gate := {} }) ∧
    (p ≠ 3 → x.running = true → x.stopping = false → x.gate.down = false → p.val ≠ x.newPreset.getD x.preset →
      ∃ t, exec (.convEnWrite c true p k) s = .next t ∧ t.units = s.units ∧
        t.conv c = { x with newPreset := some p.val, gate := gateTo x.gate true s.conv2ms (s.convSi k) }) ∧
    (x.running = true → x.gate.down = false → ∃ t, exec (.convEnWrite c false p k) s = .next t ∧ t.bit (convEn c) = false ∧
      t.conv c = { x with stopping := true, gate := gateTo x.gate true s.conv2ms (s.convSi k) } ∧ t.units = s.units)) ∧
  (∀ (c : Fin 4) (k : Nat) (s : State), let x := s.conv c
    (x.running = false → exec (.chainSettled c k) s = .next s) ∧
    (x.running = true → x.gate.down = false → x.settled = none → ∃ t, exec (.chainSettled c k) s = .next t ∧
      t.conv c = { x with settled := some (s.convSi k) } ∧ t.bit (convSettled c) = true ∧ t.units = s.units) ∧
    (x.gate.down = false → x.settled ≠ none → exec (.chainSettled c k) s = .next s)) ∧
  (∀ (n : Fin 2) (r : Fin 32) (k : Nat) (s : State), s.hostUp = true → s.bit Reg.GLOBAL_RESTORE_DONE = true →
    let x := s.conv n
    let d := (r.val : Int) - (s.get (Reg.HUBA_ADC_STATUS_RANGE n) : Int) + x.stepping.sum
    let far := beyond18 (Fp.sub (compAt x s.conv10ms (s.convSi k - 1)) (stepLog d)).1
    (20 < r.val → exec (.rangeRequest n r k) s = .next (s.put Reg.HUBA_STATUS_CFG_REJ 1)) ∧
    (r.val ≤ 20 → x.path = none → ∃ t, exec (.rangeRequest n r k) s = .next t ∧ t.units = s.units ∧
      t.get (Reg.HUBA_ADC_CTL_RANGE_REQ n) = r ∧ t.get (Reg.HUBA_ADC_STATUS_RANGE n) = s.get (Reg.HUBA_ADC_STATUS_RANGE n) ∧
      (far = false → t.conv n = { x with request := some r.val }) ∧
      (far = true → t.bit (Reg.HUBA_ADC_STATUS_RAMP_PATH n) = true ∧ t.bit (Reg.HUBA_ADC_STATUS_BIG_STEP n) = true ∧
        t.conv n = { x with path := some (s.convSi k), pathRange := r, pathDone := false, request := none, stepping := [] })) ∧
    (∀ q, r.val ≤ 20 → x.path = some q → x.pathDone = false → s.convSi k < q + s.conv2ms → ∃ t, exec (.rangeRequest n r k) s = .next t ∧
      t.conv n = { x with pathRange := r } ∧ t.units = s.units)) ∧
  (∀ (n : Fin 2) (k : Nat) (s : State), let x := s.conv n
    (x.request = none → exec (.rangeChange n) s = .next s) ∧
    (∀ r < 32, x.request = some r → ∃ t, exec (.rangeChange n) s = .next t ∧ t.get (Reg.HUBA_ADC_STATUS_RANGE n) = r ∧
      t.units = s.units ∧ t.get (Reg.HUBA_ADC_CNT_RANGE_CNT n) = min (s.get (Reg.HUBA_ADC_CNT_RANGE_CNT n) + 1) 0xFFFF ∧
      t.conv n = { x with request := none, stepping := x.stepping ++ [(r : Int) - (s.get (Reg.HUBA_ADC_STATUS_RANGE n) : Int)] }) ∧
    (x.stepping = [] → exec (.compensationStep n k) s = .next s) ∧
    (∀ d rest, x.stepping = d :: rest → let v := (Fp.sub (compAt x s.conv10ms (s.convSi k - 1)) (stepLog d)).1
      (beyond18 v = false → ∃ t, exec (.compensationStep n k) s = .next t ∧ t.units = s.units ∧
        t.conv n = { x with stepping := rest, comp := v, compAt := s.convSi k }) ∧
      (beyond18 v = true → ∃ t, exec (.compensationStep n k) s = .next t ∧ t.units = s.units ∧
        t.bit (Reg.HUBA_ADC_STATUS_BIG_STEP n) = true ∧
        t.conv n = { x with path := some (s.convSi k), pathRange := s.get (Reg.HUBA_ADC_STATUS_RANGE n), pathDone := false,
                            request := none, stepping := [] }))) ∧
  (∀ (inserted : Bool) (k : Nat) (s : State),
    (∃ t, exec (.jackDetectChange true inserted k) s = .next t ∧ t.bit Reg.HUBA_JACK_TB_PRESENT = inserted ∧
      t.bit Reg.HUBA_JACK_JACK_CHG = true ∧ t.get Reg.HUBA_JACK_TYPE = s.get Reg.HUBA_JACK_TYPE ∧ t.units = s.units) ∧
    (s.huba.removing = false → ∃ t, exec (.jackDetectChange false true k) s = .next t ∧ t.bit Reg.HUBA_JACK_HP_PRESENT = true ∧
      t.get Reg.HUBA_JACK_TYPE = 7 ∧ t.units = s.units ∧ ∀ n < 2, t.bit (Reg.HUBA_DAC_STATUS_MUTED n) = true) ∧
    (s.huba.removing = true → ∃ t, exec (.jackDetectChange false true k) s = .next t ∧ t.huba.removing = false ∧
      t.regs = s.regs ∧ t.units = s.units) ∧
    (∃ t, exec (.jackDetectChange false false k) s = .next t ∧ t.bit Reg.HUBA_JACK_HP_PRESENT = false ∧
      t.get Reg.HUBA_JACK_TYPE = 0 ∧ t.get Reg.HUBA_JACK_BUTTONS = 0 ∧ t.bit Reg.HUBA_JACK_JACK_CHG = true ∧ t.units = s.units) ∧
    (s.bit Reg.HUBA_JACK_HP_PRESENT = false → exec (.jackRemovalEdge k) s = .next s) ∧
    (s.bit Reg.HUBA_JACK_HP_PRESENT = true → ∃ t, exec (.jackRemovalEdge k) s = .next t ∧ t.huba.removing = true ∧
      t.huba.hpBias = false ∧ t.regs = s.regs ∧ t.units = s.units ∧
      ∀ c, c = 2 ∨ c = 3 → t.conv c = { s.conv c with mute := gateTo (s.conv c).mute true s.conv2ms (s.convSi k) })) ∧
  (∀ (l : JackLoads) (s : State),
    (s.get Reg.HUBA_JACK_TYPE ≠ 7 → exec (.jackClassified l) s = .next s) ∧
    (s.get Reg.HUBA_JACK_TYPE = 7 → ∃ t, exec (.jackClassified l) s = .next t ∧ t.get Reg.HUBA_JACK_TYPE = jackType l ∧
      t.get Reg.HUBA_JACK_Z_TIP_Z = min l.tip 0xFFFF ∧ t.bit Reg.HUBA_JACK_JACK_CHG = true ∧ t.units = s.units ∧
      (t.huba.hpBias = true ↔ jackType l = 2 ∨ jackType l = 3))) ∧
  (∀ (z : BitVec 16) (n : Fin 2) (down : Bool) (k : Nat) (s : State),
    (s.get Reg.HUBA_JACK_TYPE ∉ [2, 3] → exec (.buttonAccepted z k) s = .next s ∧ exec (.buttonLevelMute n down k) s = .next s) ∧
    (s.get Reg.HUBA_JACK_TYPE ∈ [2, 3] →
      (buttonOf z.toNat = none → exec (.buttonAccepted z k) s = .next (s.put Reg.HUBA_JACK_Z_MIC_Z z.toNat)) ∧
      (∀ b, buttonOf z.toNat = some b → s.get Reg.HUBA_JACK_BUTTONS ≠ (if b = 3 then 0 else 2 ^ b) →
        ∃ t, exec (.buttonAccepted z k) s = .next t ∧ t.get Reg.HUBA_JACK_BUTTONS = (if b = 3 then 0 else 2 ^ b) ∧
          t.get Reg.HUBA_JACK_Z_MIC_Z = z.toNat ∧ t.units = s.units) ∧
      (∀ b, buttonOf z.toNat = some b → s.get Reg.HUBA_JACK_BUTTONS = (if b = 3 then 0 else 2 ^ b) →
        exec (.buttonAccepted z k) s = .next s) ∧
      (s.bit (Reg.HUBA_ADC_CTL_BTN_MUTE n) = true → s.bit (Reg.HUBA_ADC_CTL_SOURCE n) = true →
        exec (.buttonLevelMute n down k) s = .next (s.setConv n { s.conv n with
          mute := gateTo (s.conv n).mute down s.conv2ms (s.convSi k) }))))

/-- On an engine whose host interface answers and whose settings are restored, EN of a channel that was off precharges it when VDD_PS lies from 8.0 to 20.5 V, with no retries used; EN of one that was on and is not stopping only forgets its retries; clearing EN of one that is not running turns it off, of a running one begins its ramp. A precharged channel begins at the next boundary. A current limit shuts a running channel down with ILIM and SHUTDOWN: to LOCKOUT where RETRIES are used up, else to WAIT; a retry from WAIT that no temperature holds back counts and starts. 10 s of running forget the retries. A supply out of 7.5 to 21 V stops every enabled channel that runs or precharges in SUPPLY, and its return restarts it. A thermal reading shows, from 150 °C shuts running channels down, and below that without the compatibility mode changes no state. States: 0 OFF, 1 PRECHARGE, 2 RUNNING, 3 WAIT, 4 LOCKOUT, 5 SUPPLY. -/
def Obligations.PowerStages : Prop :=
  (∀ (c : Fin 2) (k : Nat) (s : State), s.hostUp = true → s.bit Reg.GLOBAL_RESTORE_DONE = true →
    (s.psEn c = false → ∃ t, exec (.psEnWrite c true k) s = .next t ∧ t.psEn c = true ∧ t.units = s.units ∧
      t.get (Reg.HUBA_PSC_STATUS_RETRY_USED c) = 0 ∧ t.psState c = (if s.psSupplyOk then 1 else 0)) ∧
    (s.psEn c = true → (s.ps c).stopping = false → ∃ t, exec (.psEnWrite c true k) s = .next t ∧ t.psEn c = true ∧ t.units = s.units ∧
      t.get (Reg.HUBA_PSC_STATUS_RETRY_USED c) = 0 ∧ t.psState c = s.psState c ∧ t.huba = s.huba) ∧
    (s.psState c = 2 → ∃ t, exec (.psEnWrite c false k) s = .next t ∧ t.psEn c = false ∧ t.psState c = 2 ∧
      (t.ps c).stopping = true ∧ t.units = s.units ∧
      (t.ps c).gate = gateTo (s.ps c).gate true (s.samplesMs s.psDom 2) ((s.dom s.psDom).si + k)) ∧
    (s.psState c ≠ 2 → ∃ t, exec (.psEnWrite c false k) s = .next t ∧ t.psEn c = false ∧ t.psState c = 0 ∧
      (t.ps c).startNext = false ∧ t.units = s.units)) ∧
  (∀ (c : Fin 2) (s : State),
    (s.psState c = 1 → exec (.psPrechargeDone c) s = .next (s.modPs c fun x => { x with startNext := true })) ∧
    (s.psState c ≠ 1 → exec (.psPrechargeDone c) s = .next s) ∧
    (s.psState c ≠ 2 → exec (.psShutdown c) s = .next s ∧ exec (.retryUsedReset c) s = .next s) ∧
    (s.psState c = 2 → exec (.retryUsedReset c) s = .next (s.put (Reg.HUBA_PSC_STATUS_RETRY_USED c) 0) ∧
      ∃ t, exec (.psShutdown c) s = .next t ∧ t.bit (Reg.HUBA_PSC_STATUS_ILIM c) = true ∧
        t.bit (Reg.HUBA_PSC_STATUS_SHUTDOWN c) = true ∧ (t.ps c).startNext = false ∧ t.units = s.units ∧
        t.get Reg.HUBA_PS_CNT_SHUTDOWNS = min (s.get Reg.HUBA_PS_CNT_SHUTDOWNS + 1) 0xFFFF ∧
        t.psState c = if s.psEn c = false then 0
          else if s.get Reg.HUBA_PS_CTL_RETRIES ≠ 0 ∧ s.get (Reg.HUBA_PSC_STATUS_RETRY_USED c) = s.get Reg.HUBA_PS_CTL_RETRIES then 4
          else 3) ∧
    (s.psState c ≠ 3 → exec (.psRetry c) s = .next s) ∧
    (s.psState c = 3 → (s.ps c).thermal = false → ∃ t, exec (.psRetry c) s = .next t ∧ t.units = s.units ∧
      t.get (Reg.HUBA_PSC_STATUS_RETRY_USED c) = min (s.get (Reg.HUBA_PSC_STATUS_RETRY_USED c) + 1) 0xFF ∧
      t.psState c = (if s.psSupplyOk then 1 else 0))) ∧
  (∀ (mv : BitVec 16) (s : State),
    (7500 ≤ mv.toNat → mv.toNat ≤ 21000 → exec (.psSupplyFault mv) s = .next (s.put Reg.HUBA_PS_VSUP_MV mv.toNat)) ∧
    (mv.toNat < 7500 ∨ 21000 < mv.toNat → ∃ t, exec (.psSupplyFault mv) s = .next t ∧ t.units = s.units ∧
      t.get Reg.HUBA_PS_VSUP_MV = mv.toNat ∧ ∀ c < 2, t.psState c =
        if s.psState c ∈ [1, 2] then (if s.psEn c then 5 else 0) else s.psState c) ∧
    (mv.toNat < 8000 ∨ 20500 < mv.toNat → exec (.psSupplyRestart mv) s = .next (s.put Reg.HUBA_PS_VSUP_MV mv.toNat)) ∧
    (8000 ≤ mv.toNat → mv.toNat ≤ 20500 → ∃ t, exec (.psSupplyRestart mv) s = .next t ∧ t.units = s.units ∧
      t.get Reg.HUBA_PS_VSUP_MV = mv.toNat ∧ ∀ c < 2, t.psState c =
        if s.psState c = 5 ∨ (s.psState c = 0 ∧ s.psEn c = true) then 1 else s.psState c)) ∧
  (∀ (temp mv : BitVec 16) (s : State), ∃ t, exec (.psThermalRead temp mv) s = .next t ∧ t.units = s.units ∧
    t.get Reg.HUBA_PS_TEMP_TEMP = temp.toNat ∧ t.get Reg.HUBA_PS_VSUP_MV = mv.toNat ∧
    (s.bit Reg.HUBA_PS_CTL_COMPAT = false → t.get Reg.HUBA_PS_TEMP_FOLD = 0) ∧
    (s.bit Reg.HUBA_PS_CTL_COMPAT = true → temp.toInt ≤ 1300 → t.get Reg.HUBA_PS_TEMP_FOLD = 0) ∧
    (s.bit Reg.HUBA_PS_CTL_COMPAT = true → 1300 ≤ temp.toInt → temp.toInt ≤ 2500 →
      (t.get Reg.HUBA_PS_TEMP_FOLD : Int) = 5 * (temp.toInt - 1300)) ∧
    (∀ c < 2, (1500 ≤ temp.toInt → s.psState c = 2 → t.psState c ∈ [0, 3, 4] ∧ t.bit (Reg.HUBA_PSC_STATUS_THERM c) = true ∧
      t.bit (Reg.HUBA_PSC_STATUS_SHUTDOWN c) = true) ∧
      (s.psState c ≠ 2 → s.bit Reg.HUBA_PS_CTL_COMPAT = false → t.psState c = s.psState c) ∧
      (temp.toInt < 1500 → s.bit Reg.HUBA_PS_CTL_COMPAT = false → t.psState c = s.psState c)))

/-- A poll of a slot of an enabled bus shows whether a module is there, the branch mask and the multiplexer. An enabled link enumerates its chain up to the first module that does not answer; a restart (host interface up) makes it enumerate with no module in servo frames. A servo cycle opens the next period at its SI with the committed law, and EN_SENT shows the latched drive of each fader that is permitted. A SERVO_UP frame of a live module shows RAW and TOUCH of each fader it reports and ends its faulty periods; a missing one counts. The end of a servo firing within its budget latches one drive word per fader, without EN where the fader is not permitted, 0 where the unit does not run; a firing past its budget is cut. A servo cut of a firing that has used its budget up halts and quarantines the unit and drops its drives. A touch drops the drive, ends STALLED and PICKUP and is released; 400 periods off target stall a permitted fader. A law table that falls or is no number is refused with CFG_REJ, another waits for the next period. -/
def Obligations.SurfaceLinksAndFaders : Prop :=
  (∀ (slot : Fin 32) (mux : Bool) (r : ModuleRead) (s : State),
    let there := r.present && (mux || slot.val % 8 == 0)
    (s.bit (Reg.SURF_MB_CTL_EN (slot / 8)) = false → exec (.modulePoll slot mux r) s = .next s) ∧
    (s.bit (Reg.SURF_MB_CTL_EN (slot / 8)) = true → ∃ t, exec (.modulePoll slot mux r) s = .next t ∧ t.units = s.units ∧
      t.bit (Reg.SURF_SLOT_PRESENT slot) = there ∧ t.bit (Reg.SURF_MB_CTL_MUX (slot / 8)) = mux ∧
      (t.get (Reg.SURF_MB_CTL_BRANCHES (slot / 8))).testBit (slot % 8) = (there && r.answers) ∧
      Tab.get false t.surf.seen slot = true)) ∧
  (∀ (p : Fin 8) (mods : List ModuleRead) (s : State),
    (s.bit (Reg.SURF_SL_CTL_EN p) = false → exec (.slEnumerate p mods) s = .next s) ∧
    (s.bit (Reg.SURF_SL_CTL_EN p) = true → ∃ t, exec (.slEnumerate p mods) s = .next t ∧ t.units = s.units ∧
      t.get (Reg.SURF_SL_STATUS_STATE p) = 3 ∧ ∀ m < 4, (t.get (Reg.SURF_SL_STATUS_MODULES p)).testBit m =
        (((mods.take 4).takeWhile (·.present)).getD m {}).present) ∧
    (s.hostUp = true → s.bit (Reg.SURF_SL_CTL_EN p) = true → ∃ t, exec (.slRestart p) s = .next t ∧ t.units = s.units ∧
      t.get (Reg.SURF_SL_STATUS_STATE p) = 2 ∧ ∀ m < 4, Tab.get false t.surf.live (4 * p + m) = false) ∧
    (s.bit (Reg.SURF_SL_CTL_EN p) = false → exec (.slRestart p) s = .next s)) ∧
  (∀ (si : BitVec 64) (s : State), ∃ t, exec (.servoCycle si) s = .next t ∧ t.surf.period = (s.surf.period + 1) % 2 ^ 32 ∧
    t.surf.si = si.toNat ∧ t.surf.law = s.surf.lawNext.getD s.surf.law ∧ t.surf.lawNext = none ∧ t.surf.released = [] ∧
    (∀ u, u < 512 → t.unit u = s.unit u) ∧
    ∀ f < 256, t.bit (Reg.SURF_FADER_STATE_EN_SENT f) = ((Tab.get 0 s.surf.drive f).testBit 11 && s.permit f)) ∧
  (∀ (p : Fin 8) (m : Fin 4) (s : State), let k := 4 * p.val + m.val
    (Tab.get false s.surf.live k = false → ∀ u, exec (.servoUpReceived p m u) s = .next s) ∧
    (Tab.get false s.surf.live k = true → ∃ t, exec (.servoUpReceived p m none) s = .next t ∧ t.units = s.units ∧
      Tab.get 0 t.surf.faults k = Tab.get 0 s.surf.faults k + 1 ∧
      t.get (Reg.SURF_SL_CNT_UP_ERR p) = min (s.get (Reg.SURF_SL_CNT_UP_ERR p) + 1) 0xFFFF) ∧
    (∀ w : ServoUp, Tab.get false s.surf.live k = true → ∃ t, exec (.servoUpReceived p m (some w)) s = .next t ∧
      t.units = s.units ∧ Tab.get 0 t.surf.faults k = 0 ∧
      ∀ i, i < 8 → i < mirFaders (s.mirOf (32 + k)) → (w.faders.getD i (0, false, false)).2.2 = true →
        let f := (slotFaders (32 + k)).getD i 0
        t.get (Reg.SURF_FADER_STATE_RAW f) = (w.faders.getD i (0, false, false)).1 % 4096 ∧
        t.bit (Reg.SURF_FADER_STATE_TOUCH f) = (w.faders.getD i (0, false, false)).2.1) ∧
    (Tab.get false s.surf.live k = true → 4 ≤ Tab.get 0 s.surf.faults k → ∃ t, exec (.moduleLost p m) s = .next t ∧
      t.units = s.units ∧ Tab.get false t.surf.live k = false ∧ (t.get (Reg.SURF_SL_STATUS_LOST p)).testBit m = true ∧
      (t.get (Reg.SURF_SL_STATUS_MODULES p)).testBit m = false) ∧
    (Tab.get 0 s.surf.faults k < 4 → exec (.moduleLost p m) s = .next s)) ∧
  (∀ (k : Fin 4) (s : State), let x := s.unit (512 + k)
    let run := (s.get Reg.SURF_SERVO_STATUS_RUNNING).testBit k && !(s.get Reg.SURF_SERVO_STATUS_QUAR).testBit k
    (run = true → x.wait ≠ .halted → exec (.servoFiringEnd k) s = .next s) ∧
    (run = true → x.wait = .halted → s.servoBudget k < x.cyc → exec (.servoFiringEnd k) s = .next (s.servoCut k)) ∧
    (run = false ∨ (x.wait = .halted ∧ x.cyc ≤ s.servoBudget k) → ∃ t, exec (.servoFiringEnd k) s = .next t ∧ t.units = s.units ∧
      (run = true → t.get (Reg.SURF_SERVO_CYC_LAST_CYCLES k) = x.cyc % 2 ^ 32) ∧
      ∀ i < 64, let w := (Memory.read32 s.lmem (lmemAddr (512 + k) (0xA900 + 4 * i))).toNat % 2 ^ 13
        Tab.get 0 t.surf.drive (64 * k + i) = if run = false then 0 else
          if w.testBit 11 = true ∧ s.permit (64 * k + i) = false then w - 2 ^ 11 else w) ∧
    (x.wait = .halted ∨ x.cyc < s.servoBudget k → exec (.servoCut k) s = .next s) ∧
    (x.wait ≠ .halted → s.servoBudget k ≤ x.cyc → ∃ t, exec (.servoCut k) s = .next t ∧ t.unit (512 + k) = { x with wait := .halted, flight := [] } ∧
      (t.get Reg.SURF_SERVO_STATUS_QUAR).testBit k = true ∧ (t.get Reg.SURF_SERVO_STATUS_CUT_SEEN).testBit k = true ∧
      (∀ i < 64, Tab.get 0 t.surf.drive (64 * k + i) = 0) ∧ ∀ u, u ≠ 512 + k.val → t.unit u = s.unit u)) ∧
  (∀ (f : Fin 256) (s : State),
    (s.faderLive f = false → ∀ b, exec (.touchUpReceived f b) s = .next s) ∧
    (s.faderLive f = true → exec (.touchUpReceived f false) s = .next (s.put (Reg.SURF_FADER_STATE_TOUCH f) 0) ∧
      ∃ t, exec (.touchUpReceived f true) s = .next t ∧ t.bit (Reg.SURF_FADER_STATE_TOUCH f) = true ∧ t.units = s.units ∧
        t.bit (Reg.SURF_FADER_STATE_STALLED f) = false ∧ t.bit (Reg.SURF_FADER_STATE_PICKUP f) = false ∧
        Tab.get 0 t.surf.drive f = 0 ∧ t.surf.released = s.surf.released ++ [f.val]) ∧
    (s.permit f = true → 400 ≤ (s.fader f).stallCount → ∃ t, exec (.faderStall f) s = .next t ∧ t.units = s.units ∧
      t.bit (Reg.SURF_FADER_STATE_STALLED f) = true ∧ Tab.get 0 t.surf.drive f = 0 ∧
      t.fader f = { s.fader f with stallCount := 0, stallTarget := (s.fader f).target }) ∧
    (s.permit f = false ∨ (s.fader f).stallCount < 400 → exec (.faderStall f) s = .next s)) ∧
  (∀ s : State, s.hostUp = true → let l := (List.range 17).map fun k => BitVec.ofNat 32 (s.get (Reg.SURF_LAW_DB k))
    let ok := (∀ x ∈ l, Fp.isNaN x = false) ∧ ∀ k < 16, Fp.val (l.getD k 0) ≤ Fp.val (l.getD (k + 1) 0)
    (ok → exec .lawCommit s = .next (s.modSurf fun x => { x with lawNext := some l })) ∧
    (¬ok → exec .lawCommit s = .next (s.put Reg.SURF_STATUS_CFG_REJ 1)))

/-- POWER_GOOD of an engine that runs, with its supplies never lost, changes nothing; otherwise it starts cold: with no firmware that verifies it is in recovery, with one it restores its settings and reaches first audio, keeping the queue of commands and the settings copies. A dip halts every cluster unit, holds and closes the gate; a lost retention marks the next start as cold; a warm restart ends the hold and reaches first audio. A warning stops recording and counts, its end lets it go on and counts a ride-through. A hand-over to VBAT shows SUPPLY 2, and 131 good cycles in a row give VDD_AON back. An accepted STANDBY ramps every running domain over 5 ms from its next boundary, and then, at once where none runs, stops the engine with its gate closed; WAKE_N or the alarm then requests power once, and 2 s without PWR_OK withdraw the request. An append that is due and not broken off leaves every intact copy at the present settings. GO in recovery starts a firmware image that verifies, and reports a failure where there is no image. -/
def Obligations.SuppliesStartsAndCommits : Prop :=
  (∀ (f : StartFacts) (s : State),
    (s.pwr.started = true → s.pwr.standby = false → s.bit Reg.PWR_STATUS_COLD_NEXT = false → exec (.powerGood f) s = .next s) ∧
    (s.pwr.started = false ∨ s.pwr.standby = true ∨ s.bit Reg.PWR_STATUS_COLD_NEXT = true → s.get Reg.TRUST_STATE_LCS < 5 →
      (f.fwA = false → f.fwB = false → ∃ t, exec (.powerGood f) s = .next t ∧ t.bit Reg.TRUST_STATE_RECOVERY = true ∧
        t.pwr.started = true ∧ t.pwr.audio = false ∧ t.pwr.copies = s.pwr.copies ∧ t.pending = s.pending ∧ t.units = []) ∧
      (f.fwA = true → s.get (Reg.TRUST_CTR_VALUE 0) ≤ Tab.get 0 s.pwr.fw 0 → ∃ t, exec (.powerGood f) s = .next t ∧
        t.bit Reg.TRUST_STATE_RECOVERY = false ∧ t.bit Reg.GLOBAL_RESTORE_DONE = true ∧ t.pwr.started = true ∧
        t.pwr.audio = true ∧ t.pwr.copies = s.pwr.copies ∧ t.pending = s.pending))) ∧
  (∀ s : State, exec .retentionLoss s = .next (s.put Reg.PWR_STATUS_COLD_NEXT 1) ∧
    (s.pwr.started = false ∨ s.bit Reg.PWR_STATUS_HOLD = true → exec .supplyDip s = .next s) ∧
    (s.pwr.started = true → s.bit Reg.PWR_STATUS_HOLD = false → ∃ t, exec .supplyDip s = .next t ∧
      t.bit Reg.PWR_STATUS_HOLD = true ∧ t.bit Reg.PAIR_STATUS_GATE_OPEN = false ∧
      (∀ u < 512, (t.unit u).wait = .halted) ∧ ∀ c < 64, (t.cluster c).firing = none ∧ (t.cluster c).retention = true)) ∧
  (∀ (f : StartFacts) (s : State),
    (s.bit Reg.PWR_STATUS_HOLD = false ∨ s.bit Reg.PWR_STATUS_COLD_NEXT = true → exec (.warmRestart f) s = .next s) ∧
    (s.bit Reg.PWR_STATUS_HOLD = true → s.bit Reg.PWR_STATUS_COLD_NEXT = false → ∃ t, exec (.warmRestart f) s = .next t ∧
      t.bit Reg.PWR_STATUS_HOLD = false ∧ t.pwr.audio = true ∧ t.bit Reg.PWR_STATUS_START_KIND = true ∧ t.pending = s.pending)) ∧
  (∀ (n : Nat) (r : TimeRecord) (s : State),
    (s.pwr.started = false ∨ s.bit Reg.PWR_STATUS_VPF_LOW = true → exec (.powerFailWarning n r) s = .next s) ∧
    (s.pwr.started = true → s.bit Reg.PWR_STATUS_VPF_LOW = false → ∃ t, exec (.powerFailWarning n r) s = .next t ∧
      t.bit Reg.PWR_STATUS_VPF_LOW = true ∧ t.bit Reg.PWR_STATUS_WARN = true ∧ t.store.stopped = true ∧ t.units = s.units ∧
      t.get Reg.PWR_CNT_WARN = min (s.get Reg.PWR_CNT_WARN + 1) 0xFFFF ∧
      (s.commits = false → t.pwr = s.pwr) ∧ (s.commits = true → s.pwr.commitAt = none → t.pwr.commitAt = some s.now)) ∧
    (s.bit Reg.PWR_STATUS_VPF_LOW = false → exec .warningEnd s = .next s) ∧
    (s.bit Reg.PWR_STATUS_VPF_LOW = true → ∃ t, exec .warningEnd s = .next t ∧ t.bit Reg.PWR_STATUS_VPF_LOW = false ∧
      t.store.stopped = false ∧ t.units = s.units ∧ (s.pwr.started = true → s.bit Reg.PWR_STATUS_HOLD = false →
        t.bit Reg.PWR_STATUS_RIDE = true ∧ t.get Reg.PWR_CNT_RIDE = min (s.get Reg.PWR_CNT_RIDE + 1) 0xFFFF))) ∧
  (∀ (l : List Bool) (s : State), let n := s.pwr.vbatCount + l.length
    (s.get Reg.PWR_STATUS_SUPPLY = 2 → exec .vbatHandover s = .next s) ∧
    (s.get Reg.PWR_STATUS_SUPPLY ≠ 2 → exec (.vddAonReturn l) s = .next s ∧ ∃ t, exec .vbatHandover s = .next t ∧
      t.get Reg.PWR_STATUS_SUPPLY = 2 ∧ t.bit Reg.PWR_STATUS_HANDOVER_SEEN = true ∧ t.pwr.vbatCount = 0 ∧ t.units = s.units) ∧
    (s.get Reg.PWR_STATUS_SUPPLY = 2 → (∀ b ∈ l, b = true) → ∃ t, exec (.vddAonReturn l) s = .next t ∧ t.units = s.units ∧
      t.get Reg.PWR_WARM_CNT_COUNT = (s.get Reg.PWR_WARM_CNT_COUNT + l.length) % 2 ^ 48 ∧
      (131 ≤ n → t.get Reg.PWR_STATUS_SUPPLY = 0 ∧ t.pwr.vbatCount = 0) ∧
      (n < 131 → t.get Reg.PWR_STATUS_SUPPLY = 2 ∧ t.pwr.vbatCount = n)) ∧
    (s.get Reg.PWR_STATUS_SUPPLY = 2 → n < 131 → ∃ t, exec (.vddAonReturn (l ++ [false])) s = .next t ∧
      t.get Reg.PWR_STATUS_SUPPLY = 2 ∧ t.pwr.vbatCount = 0)) ∧
  (∀ (n : Nat) (r : TimeRecord) (s : State), s.hostUp = true →
    (s.bit Reg.PWR_POLICY_HOST_STANDBY = false → exec (.pwrStandby n r) s = .next (s.put Reg.PWR_STATUS_CFG_REJ 1)) ∧
    (s.bit Reg.PWR_POLICY_HOST_STANDBY = true → s.pwr.started = false ∨ s.pwr.afterRamp ≠ none → exec (.pwrStandby n r) s = .next s) ∧
    (s.bit Reg.PWR_POLICY_HOST_STANDBY = true → s.pwr.started = true → s.pwr.afterRamp = none →
      ((∀ d < 3, (s.dom d).configured = true → (s.dom d).running = false) → ∃ t, exec (.pwrStandby n r) s = .next t ∧
        t.pwr.standby = true ∧ t.pwr.started = false ∧ t.pwr.req = false ∧ t.pwr.audio = false ∧ t.pwr.afterRamp = none ∧
        t.bit Reg.PAIR_STATUS_GATE_OPEN = false ∧ t.units = s.units) ∧
      ((∃ d < 3, (s.dom d).configured = true ∧ (s.dom d).running = true ∧ 0 < (s.dom d).block) →
        ∃ t ends, exec (.pwrStandby n r) s = .next t ∧ t.regs = s.regs ∧ t.units = s.units ∧ t.pwr.started = true ∧
          t.pwr.afterRamp = some (ends, .standby s.commits n r) ∧ ∀ d < 3, (s.dom d).configured = true → (s.dom d).running = true →
            (d, (s.dom d).si + (s.dom d).block + s.samplesMs d 5) ∈ ends ∧
            Tab.get {} t.pwr.gain d = gateTo (Tab.get {} s.pwr.gain d) true (s.samplesMs d 5) ((s.dom d).si + (s.dom d).block)))) ∧
  (∀ (ends : List (Nat × Nat)) (c : Bool) (n : Nat) (r : TimeRecord) (s : State), s.pwr.afterRamp = some (ends, .standby c n r) →
    (∀ e ∈ ends, e.2 ≤ (s.dom e.1).si) → s.endRamps.pwr.standby = true ∧ s.endRamps.pwr.started = false ∧
      s.endRamps.bit Reg.PAIR_STATUS_GATE_OPEN = false ∧ s.endRamps.store.keys = none) ∧
  (∀ s : State, let ask := s.pwr.standby = true ∧ s.pwr.req = false
    (ask → exec .wake s = .next (s.modPwr fun p => { p with req := true, wakeCause := 1 })) ∧
    (¬ask → exec .wake s = .next s) ∧
    (s.bit Reg.PWR_ALARM_CTL_EN = false → exec .warmAlarm s = .next s) ∧
    (s.bit Reg.PWR_ALARM_CTL_EN = true → ∃ t, exec .warmAlarm s = .next t ∧ t.bit Reg.PWR_ALARM_CTL_FIRED = true ∧
      t.get Reg.PWR_WARM_CNT_COUNT = s.get Reg.PWR_ALARM_ALARM % 2 ^ 48 ∧
      t.pwr = (if s.pwr.standby && !s.pwr.req then { s.pwr with req := true, wakeCause := 2 } else s.pwr)) ∧
    (s.pwr.standby = true → s.pwr.req = true → ∃ t, exec .wakeFail s = .next t ∧ t.bit Reg.PWR_STATUS_WAKE_FAIL = true ∧
      t.pwr = { s.pwr with req := false, wakeCause := 0 } ∧ t.units = s.units) ∧
    (s.pwr.req = false → exec .wakeFail s = .next s)) ∧
  (∀ (n : Nat) (r : TimeRecord) (k : Fin 7) (s : State),
    (s.commits = false ∨ s.settingsChanged r = false → exec (.settingsAppend n r k) s = .next s) ∧
    (∀ a, s.pwr.appendAt = some a → s.now < a + (s.dom 0).rate → exec (.settingsAppend n r k) s = .next s) ∧
    (s.commits = true → s.settingsChanged r = true → (∀ a, s.pwr.appendAt = some a → a + (s.dom 0).rate ≤ s.now) →
      ∃ t, exec (.settingsAppend n r k) s = .next t ∧ t.pwr.appendAt = some s.now ∧ t.units = s.units ∧ t.host = s.host ∧
        (k.val < 3 → t.pwr.saved = s.pwr.saved) ∧
        (3 ≤ k.val → t.pwr.saved = s.storePrograms.content r ∧
          ∀ j < 3, (t.copy j).intact = true → (t.copy j).content = s.storePrograms.content r))) ∧
  (∀ (f : StartFacts) (image : Option ImageData) (s : State),
    (s.get Reg.TRUST_STATE_LCS = 5 → exec (.recoveryGo image f) s = .next s) ∧
    (s.get Reg.TRUST_STATE_LCS ≠ 5 → s.bit Reg.TRUST_STATE_RECOVERY = false →
      exec (.recoveryGo image f) s = .next (s.put Reg.TRUST_STATE_CFG_REJ 1)) ∧
    (s.get Reg.TRUST_STATE_LCS ≠ 5 → s.bit Reg.TRUST_STATE_RECOVERY = true → exec (.recoveryGo none f) s =
      .next ((s.put Reg.TRUST_RCV_STATUS_STATE 3).put Reg.TRUST_RCV_STATUS_CODE 7)) ∧
    (∀ sig l, s.get Reg.TRUST_STATE_LCS < 5 → s.bit Reg.TRUST_STATE_RECOVERY = true → s.checkSig sig 8 = none →
      ∃ t, exec (.recoveryGo (some (.firmware sig l)) f) s = .next t ∧ t.pwr.started = true ∧ t.pending = s.pending ∧
        Tab.get 0 t.pwr.fw 0 = sig.version ∧ Tab.get 0 t.pwr.fw 1 = sig.version))

/-- On an engine whose host interface answers and whose settings are restored, EN of a pair that no rule refuses begins to listen with the gate closed (role CUT), and clearing EN makes the engine SOLO. After listening it claims epoch 1. A holder sends one RENEW at each boundary; a standby that was granted opens and holds the lease. A message of the partner with a higher epoch makes the engine STANDBY with its gate closed, a lower one changes no role. An acknowledgment reloads the lease from the sending of its RENEW, a refusal or the end of the lease cuts the holder. A READY standby that hears nothing claims the next epoch, and a grant of it opens at the next boundary. A witness keeps the highest epoch of each pair and grants a claim when renewals have ceased. A yield is accepted by a READY standby alone; at its SI the holder becomes STANDBY, the standby the holder. Roles: 0 SOLO, 1 HOLDER, 2 STANDBY, 3 CUT. -/
def Obligations.PairLease : Prop :=
  (∀ (v : BitVec 32) (s : State), s.hostUp = true → s.bit Reg.GLOBAL_RESTORE_DONE = true →
    let u := (s.writePlain 0x13000 v.toNat).putBit Reg.PAIR_CFG_EN false
    (s.refusesWrite 0x13000 v.toNat = true → exec (.pairEnWrite v) s = .next (s.put Reg.PAIR_STATUS_CFG_REJ 1)) ∧
    (s.refusesWrite 0x13000 v.toNat = false → s.bit Reg.PAIR_CFG_EN = true → v.getLsbD 0 = false →
      ∃ t, exec (.pairEnWrite v) s = .next t ∧ t.bit Reg.PAIR_CFG_EN = false ∧ t.get Reg.PAIR_STATUS_ROLE = 0 ∧
        t.get Reg.PAIR_EPOCH_EPOCH = 0 ∧ t.pair.listening = none ∧ t.units = s.units) ∧
    (s.refusesWrite 0x13000 v.toNat = false → s.bit Reg.PAIR_CFG_EN = false → v.getLsbD 0 = true →
      (u.pairRefused = true → exec (.pairEnWrite v) s = .next (u.put Reg.PAIR_STATUS_CFG_REJ 1)) ∧
      (u.pairRefused = false → ∃ t, exec (.pairEnWrite v) s = .next t ∧ t.bit Reg.PAIR_CFG_EN = true ∧
        t.get Reg.PAIR_STATUS_ROLE = 3 ∧ t.bit Reg.PAIR_STATUS_GATE_OPEN = false ∧ t.pair.listening = some s.now ∧
        t.units = s.units))) ∧
  (∀ s : State,
    (s.pair.listening = none → exec .pairListenEnd s = .next s) ∧
    (∀ a, s.pair.listening = some a → s.get Reg.PAIR_STATUS_ROLE = 3 →
      let w := s.guardLen + (if s.bit Reg.PAIR_CFG_PREFER then 0 else 2 * (s.dom 0).rate)
      (a + w ≤ s.now → ∃ t, exec .pairListenEnd s = .next t ∧ t.pair.claimed = 1 ∧ t.regs = s.regs ∧ t.units = s.units) ∧
      (s.now < a + w → exec .pairListenEnd s = .next s))) ∧
  (∀ s : State,
    (s.pair.openNext = true → s.gateFree = true → ∃ t, exec .leaseRenew s = .next t ∧ t.get Reg.PAIR_STATUS_ROLE = 1 ∧
      t.get Reg.PAIR_EPOCH_EPOCH = s.pair.claimed % 2 ^ 32 ∧ t.bit Reg.PAIR_STATUS_GATE_OPEN = true ∧
      t.pair.renewNum = s.pair.renewNum + 1 ∧ t.units = s.units) ∧
    (s.pair.openNext = false → s.get Reg.PAIR_STATUS_ROLE = 1 → ∃ t, exec .leaseRenew s = .next t ∧
      t.get Reg.PAIR_STATUS_ROLE = 1 ∧ t.pair.renewNum = s.pair.renewNum + 1 ∧ (s.pair.renewNum, s.now) ∈ t.pair.sentAt ∧
      t.units = s.units) ∧
    (s.pair.openNext = false → s.get Reg.PAIR_STATUS_ROLE ≠ 1 → exec .leaseRenew s = .next s)) ∧
  (∀ (m : PairMsg) (s : State),
    (s.toldBy m → s.get Reg.PAIR_EPOCH_EPOCH < m.epoch → m.epoch < 2 ^ 32 → ∀ i ∈ [Instr.renewReceived m, .claimReceived m],
      ∃ t, exec i s = .next t ∧ t.get Reg.PAIR_STATUS_ROLE = 2 ∧ t.get Reg.PAIR_EPOCH_EPOCH = m.epoch ∧
        t.bit Reg.PAIR_STATUS_GATE_OPEN = false ∧ t.bit Reg.PAIR_STATUS_PARTNER_SEEN = true ∧ t.units = s.units) ∧
    (s.toldBy m → s.pair.listening = none → m.epoch < s.get Reg.PAIR_EPOCH_EPOCH → ∃ t, exec (.renewReceived m) s = .next t ∧
      t.get Reg.PAIR_STATUS_ROLE = s.get Reg.PAIR_STATUS_ROLE ∧ t.get Reg.PAIR_EPOCH_EPOCH = s.get Reg.PAIR_EPOCH_EPOCH ∧
      t.bit Reg.PAIR_STATUS_GATE_OPEN = s.bit Reg.PAIR_STATUS_GATE_OPEN) ∧
    (s.toldBy m → s.pair.listening = none → m.epoch = s.get Reg.PAIR_EPOCH_EPOCH → s.get Reg.PAIR_STATUS_ROLE = 2 →
      ∃ t, exec (.renewReceived m) s = .next t ∧ t.get Reg.PAIR_STATUS_ROLE = 2 ∧ t.pair.heardAt = some s.now) ∧
    (s.fromPartner m = true → s.accepts m = false → exec (.renewReceived m) s = .next s ∧ exec (.claimReceived m) s = .next s)) ∧
  (∀ (m : PairMsg) (w : WitPair) (s : State), s.askedBy m →
    (s.witOf m.origin m.pair = some w →
      (w.epoch ≤ m.epoch → ∃ t, exec (.renewReceived m) s = .next t ∧ t.units = s.units ∧
        t.witOf m.origin m.pair = some { w with epoch := m.epoch, holder := m.origin, renewed := some s.now }) ∧
      (m.epoch < w.epoch → ∃ t, exec (.renewReceived m) s = .next t ∧ t.pair = s.pair ∧ t.regs = s.regs) ∧
      (∀ a, w.renewed = some a → s.now < a + s.samplesMs 0 (m.leaseMs + m.guardMs) →
        ∃ t, exec (.claimReceived m) s = .next t ∧ t.pair = s.pair ∧ t.regs = s.regs) ∧
      ((∀ a, w.renewed = some a → a + s.samplesMs 0 (m.leaseMs + m.guardMs) ≤ s.now) → w.epoch ≠ m.epoch ∨ w.holder = m.origin →
        ∃ t, exec (.claimReceived m) s = .next t ∧
          t.witOf m.origin m.pair = some { w with epoch := max w.epoch m.epoch, holder := m.origin })) ∧
    (s.witOf m.origin m.pair = none → s.pair.witness.length < 8 →
      (∃ t, exec (.renewReceived m) s = .next t ∧ t.witOf m.origin m.pair =
        some { a := m.origin, b := m.pair, epoch := m.epoch, holder := m.origin, renewed := some s.now }) ∧
      ∃ t, exec (.claimReceived m) s = .next t ∧ t.witOf m.origin m.pair =
        some { a := m.origin, b := m.pair, epoch := m.epoch, holder := m.origin })) ∧
  (∀ (m : PairMsg) (s : State),
    ((s.toldBy m ∧ m.si = 0) ∨ (s.fromPartner m = false ∧ s.accepts m = true ∧ s.fromWitness m = true) →
      s.get Reg.PAIR_STATUS_ROLE = 1 →
      (m.refuse = true → ∃ t, exec (.ackReceived m) s = .next t ∧ t.get Reg.PAIR_STATUS_ROLE = 3 ∧
        t.bit Reg.PAIR_STATUS_GATE_OPEN = false ∧ t.units = s.units) ∧
      (∀ e, m.refuse = false → m.epoch = s.get Reg.PAIR_EPOCH_EPOCH → s.pair.sentAt.find? (fun e => e.1 == m.seq) = some e →
        ∃ t, exec (.ackReceived m) s = .next t ∧ t.pair.ackedAt = max s.pair.ackedAt e.2 ∧ t.get Reg.PAIR_STATUS_ROLE = 1)) ∧
    (∀ y b, s.toldBy m → m.si ≠ 0 → s.pair.yieldAt = some (y, b) → ∃ t, exec (.ackReceived m) s = .next t ∧
      t.pair.yieldAt = (if m.refuse then none else some (y, true)) ∧ t.get Reg.PAIR_STATUS_ROLE = s.get Reg.PAIR_STATUS_ROLE)) ∧
  (∀ s : State, let ends := s.get Reg.PAIR_STATUS_ROLE = 1 ∧ s.pair.ackedAt + s.leaseLen < s.now + s.blockP
    (ends → ∃ t, exec .leaseTimerExpiry s = .next t ∧ t.get Reg.PAIR_STATUS_ROLE = 3 ∧
      t.bit Reg.PAIR_STATUS_GATE_OPEN = false ∧ t.units = s.units) ∧
    (¬ends → exec .leaseTimerExpiry s = .next s)) ∧
  (∀ s : State, let may := s.get Reg.PAIR_STATUS_ROLE = 2 ∧ s.bit Reg.PAIR_STATUS_READY = true ∧
      ∀ a, s.pair.heardAt = some a → a + s.guardLen ≤ s.now
    (may → ∃ t, exec .claimSend s = .next t ∧ t.pair.claimed = (s.get Reg.PAIR_EPOCH_EPOCH + 1) % 2 ^ 32 ∧ t.regs = s.regs ∧
      t.units = s.units) ∧ (¬may → exec .claimSend s = .next s)) ∧
  (∀ (m : PairMsg) (s : State), s.accepts m = true → s.fromWitness m = true → s.pair.claimed ≠ 0 → m.epoch = s.pair.claimed →
    2 ≤ s.get Reg.PAIR_STATUS_ROLE → (s.get Reg.PAIR_STATUS_ROLE ≠ 2 ∨ s.coldMode = false ∨ s.pair.coldStart = true) →
    ∃ t, exec (.grantReceived m) s = .next t ∧ t.pair.openNext = true ∧ t.pair.takeKind = 1 ∧ t.units = s.units ∧
      t.bit Reg.PAIR_STATUS_WITNESS_SEEN = true) ∧
  (∀ (m : PairMsg) (s : State), s.toldBy m → s.get Reg.PAIR_STATUS_ROLE = 2 → m.epoch = s.get Reg.PAIR_EPOCH_EPOCH →
    (s.bit Reg.PAIR_STATUS_READY = true → ∃ t, exec (.yield m) s = .next t ∧ t.pair.yieldAt = some (m.si, true) ∧
      t.pair.claimed = (m.epoch + 1) % 2 ^ 32 ∧ t.pair.takeKind = (if m.errorFound then 2 else 3) ∧ t.units = s.units) ∧
    (s.bit Reg.PAIR_STATUS_READY = false → ∃ t, exec (.yield m) s = .next t ∧ t.pair.yieldAt = s.pair.yieldAt ∧
      t.pair.claimed = s.pair.claimed)) ∧
  (∀ (y : Nat) (b : Bool) (s : State), s.pair.yieldAt = some (y, b) →
    (s.now + s.blockP < y → exec .yieldHandover s = .next s) ∧
    (s.get Reg.PAIR_STATUS_ROLE = 1 → b = true → y ≤ s.now → ∃ t, exec .yieldHandover s = .next t ∧ t.units = s.units ∧
      t.get Reg.PAIR_STATUS_ROLE = 2 ∧ t.bit Reg.PAIR_STATUS_GATE_OPEN = false ∧
      t.get Reg.PAIR_EPOCH_EPOCH = (s.get Reg.PAIR_EPOCH_EPOCH + 1) % 2 ^ 32) ∧
    (s.get Reg.PAIR_STATUS_ROLE = 1 → b = false → y ≤ s.now + s.blockP → ∃ t, exec .yieldHandover s = .next t ∧
      t.pair.yieldAt = none ∧ t.regs = s.regs) ∧
    (s.get Reg.PAIR_STATUS_ROLE = 2 → y ≤ s.now → s.gateFree = true → ∃ t, exec .yieldHandover s = .next t ∧
      t.get Reg.PAIR_STATUS_ROLE = 1 ∧ t.bit Reg.PAIR_STATUS_GATE_OPEN = true ∧ t.units = s.units ∧
      t.get Reg.PAIR_EPOCH_EPOCH = s.pair.claimed % 2 ^ 32)) ∧
  (∀ s : State, s.hostUp = true →
    (s.get Reg.PAIR_STATUS_ROLE ≠ 1 ∨ s.pair.swap ≠ 0 ∨ s.pair.yieldAt ≠ none →
      exec .pairSwap s = .next (s.put Reg.PAIR_STATUS_CFG_REJ 1)) ∧
    (s.get Reg.PAIR_STATUS_ROLE = 1 → s.pair.swap = 0 → s.pair.yieldAt = none → ∃ t, exec .pairSwap s = .next t ∧
      t.regs = s.regs ∧ t.units = s.units ∧ (s.coldMode = true → t.pair.swap = 1) ∧
      (s.coldMode = false → t.pair.swap = 3 ∧ t.pair.yieldAt = some (s.now + 3 * s.blockP, false))) ∧
    (s.get Reg.PAIR_STATUS_ROLE = 2 → s.bit Reg.PAIR_STATUS_SUSPECT = true → ∃ t, exec .pairResync s = .next t ∧
      t.get Reg.PAIR_STATUS_SYNC = 1 ∧ t.pair.resyncAt = s.now ∧ t.units = s.units) ∧
    (s.get Reg.PAIR_STATUS_ROLE ≠ 2 ∨ s.bit Reg.PAIR_STATUS_SUSPECT = false → exec .pairResync s = .next s))

/-- At a standby a mirrored parameter list that comes in order is applied as PARAM_SET would be, and a mirror out of order makes it SUSPECT. Control state starts its resynchronisation, a replica is kept and makes a COLD standby READY. A member in step notes the digests of its compared groups for the block that begins to be emitted, and those that its partner sends; two that differ are marked in the mismatch mask. Verdicts of both members make the standby SUSPECT unless the partner alone found an error, and a holder that alone found one here yields; a verdict that does not come counts as ERROR_FOUND. The holder of a COLD pair sends the settings as a replica, and a stale replica ends READY. Carried state is installed part by part, the last part begins the comparison, and RESYNC_S without success end the resynchronisation in SUSPECT. The messages are those the engine acts on. -/
def Obligations.PairCopies : Prop :=
  (∀ (m : PairMsg) (s : State), s.toldBy m →
    (m.kind = 0x13 → s.takesMirrors = true → m.seq ≠ s.pair.mirrorIn → ∃ t, exec (.mirrorReceived m) s = .next t ∧
      t.bit Reg.PAIR_STATUS_SUSPECT = true ∧ t.bit Reg.PAIR_STATUS_READY = false ∧ t.get Reg.PAIR_STATUS_SYNC = 1 ∧
      t.mix = s.mix ∧ t.units = s.units) ∧
    (∀ ramp eq target items, m.kind = 0x13 → s.takesMirrors = true → m.seq = s.pair.mirrorIn →
      m.mirror = some (.params ramp eq target items) → ∃ t u : State, exec (.mirrorReceived m) s = .next t ∧ u.mix = s.mix ∧
        u.doms = s.doms ∧ u.sched = s.sched ∧ t.pair.mirrorIn = s.pair.mirrorIn + 1 ∧ t.units = s.units ∧
        t.mix = (u.paramSet target ramp eq .inline items []).1.mix) ∧
    (m.kind = 0x13 → s.takesMirrors = false → ∃ t, exec (.mirrorReceived m) s = .next t ∧ t.mix = s.mix ∧
      t.pair.mirrorIn = s.pair.mirrorIn ∧ t.bit Reg.PAIR_STATUS_SUSPECT = s.bit Reg.PAIR_STATUS_SUSPECT) ∧
    (∀ x, m.kind = 0x19 → m.replica = some x → s.get Reg.PAIR_STATUS_ROLE = 2 → s.coldMode = true →
      ∃ t, exec (.mirrorReceived m) s = .next t ∧ t.pair.replica = some x ∧ t.pair.replicaAt = s.now ∧ t.units = s.units ∧
        (s.pair.coldStart = false → t.bit Reg.PAIR_STATUS_READY = true)) ∧
    (∀ c, m.kind = 0x18 → m.control = some c → s.get Reg.PAIR_STATUS_ROLE = 2 → s.coldMode = false →
      s.get Reg.PAIR_STATUS_SYNC = 1 → ∃ t, exec (.mirrorReceived m) s = .next t ∧ t.get Reg.PAIR_STATUS_SYNC = 2 ∧
        t.mix.params = c.params ∧ t.pair.mirrorIn = c.mirror ∧ t.pours.templates = c.templates ∧ t.units = s.units)) ∧
  (∀ s : State, s.pair.digests = [] →
    (s.inStep = false ∨ s.now < 2 * s.blockP → exec .digestSend s = .next s) ∧
    (s.inStep = true → 2 * s.blockP ≤ s.now → s.comparedGroups ≠ [] → ∃ (t : State) (o : Tab Nat), exec .digestSend s = .next t ∧ t.units = s.units ∧
      t.regs = s.regs ∧ t.pair.digests = [{ si := s.now - 2 * s.blockP, own := some o }] ∧
      ∀ g ∈ s.comparedGroups, Tab.get 0 o g = s.groupDigest (s.now - 2 * s.blockP) g)) ∧
  (∀ (m : PairMsg) (s : State), s.toldBy m →
    (s.inStep = false ∨ m.si + 6 * s.blockP < s.now → ∃ t, exec (.digestReceived m) s = .next t ∧
      t.pair.digests = s.pair.digests ∧ t.units = s.units) ∧
    (s.inStep = true → s.now ≤ m.si + 6 * s.blockP → s.pair.digests = [] → ∃ t e, exec (.digestReceived m) s = .next t ∧
      t.pair.digests = [e] ∧ e.si = m.si ∧ e.own = none ∧ t.units = s.units ∧
      ∀ k d, m.digests[k]? = some d → m.group + k < 64 → Tab.get none e.partner (m.group + k) = some d) ∧
    (∀ g d o, s.inStep = true → s.now ≤ m.si + 6 * s.blockP → s.pair.digests = [{ si := m.si, own := some o }] →
      s.comparedGroups = [g] → m.group = g → m.digests = [d] → ∃ t, exec (.digestReceived m) s = .next t ∧ t.units = s.units ∧
        (d ≠ Tab.get 0 o g → t.bit Reg.PAIR_STATUS_MISMATCH_SEEN = true ∧ (t.get Reg.PAIR_GRP_MISM_GROUPS).testBit g = true) ∧
        (d = Tab.get 0 o g → t.pair.mismatches = 0 ∧
          t.get Reg.PAIR_GRP_MISM_GROUPS = s.get Reg.PAIR_GRP_MISM_GROUPS))) ∧
  (∀ (m : PairMsg) (s : State), s.toldBy m →
    (s.pair.verdictOwn = none → ∃ t, exec (.verdictReceived m) s = .next t ∧ t.pair.verdictPartner = some m.errorFound ∧
      t.units = s.units) ∧
    (∀ own, s.pair.verdictOwn = some own → s.get Reg.PAIR_STATUS_ROLE = 2 → ∃ t, exec (.verdictReceived m) s = .next t ∧
      t.bit Reg.PAIR_STATUS_SUSPECT = (if m.errorFound && !own then s.bit Reg.PAIR_STATUS_SUSPECT else true) ∧
      t.pair.verdictOwn = none ∧ t.units = s.units) ∧
    (s.pair.verdictOwn = some true → m.errorFound = false → s.get Reg.PAIR_STATUS_ROLE = 1 → s.pair.yieldAt = none →
      ∃ t, exec (.verdictReceived m) s = .next t ∧ t.pair.yieldAt = some (s.now + 3 * s.blockP, false) ∧
        t.pair.suspectNext = true)) ∧
  (∀ s : State,
    (s.pair.verdictOwn = none ∨ s.pair.verdictPartner ≠ none → exec .verdictTimeout s = .next s) ∧
    (∀ own, s.pair.verdictOwn = some own → s.pair.verdictPartner = none → s.get Reg.PAIR_STATUS_ROLE = 2 →
      ∃ t, exec .verdictTimeout s = .next t ∧ t.pair.verdictOwn = none ∧ t.units = s.units ∧
        t.bit Reg.PAIR_STATUS_SUSPECT = (own || s.bit Reg.PAIR_STATUS_SUSPECT))) ∧
  (∀ (r : TimeRecord) (s : State), let stale := s.get Reg.PAIR_STATUS_ROLE = 2 ∧ s.coldMode = true ∧ s.pair.coldStart = false ∧
      s.replicaFresh = false
    (s.get Reg.PAIR_STATUS_ROLE = 1 → s.coldMode = true → exec (.replicaSend r) s =
      .next (s.sendPair { s.pairMsg 0x19 with replica := some (s.content r) })) ∧
    (s.get Reg.PAIR_STATUS_ROLE ≠ 1 ∨ s.coldMode = false → exec (.replicaSend r) s = .next s) ∧
    (stale → exec .replicaExpiry s = .next (s.put Reg.PAIR_STATUS_READY 0)) ∧
    (¬stale → exec .replicaExpiry s = .next s)) ∧
  (∀ (data : List CarriedPart) (last : Bool) (s : State), s.get Reg.PAIR_STATUS_ROLE = 2 →
    (s.get Reg.PAIR_STATUS_SYNC ≠ 2 → exec (.resyncGroupCopy data last) s = .next s) ∧
    (s.get Reg.PAIR_STATUS_SYNC = 2 → ∃ t, exec (.resyncGroupCopy data last) s = .next t ∧ t.units = s.units ∧
      t.pair.groups = s.pair.groups + 1 ∧ t.get Reg.PAIR_STATUS_SYNC = (if last then 3 else 2) ∧
      ∀ a bs, data = [{ space := 0, addr := a, bytes := bs }] → a + bs.length ≤ 2 ^ 26 →
        t.shm = Memory.writeBytes s.shm a bs ∧ t.lmem = s.lmem)) ∧
  (∀ s : State, let late := s.get Reg.PAIR_STATUS_ROLE = 2 ∧ s.get Reg.PAIR_STATUS_SYNC ≠ 0 ∧
      s.pair.resyncAt + s.get Reg.PAIR_TIMES2_RESYNC_S * (s.dom 0).rate ≤ s.now
    (late → ∃ t, exec .resyncTimeout s = .next t ∧ t.get Reg.PAIR_STATUS_SYNC = 0 ∧ t.bit Reg.PAIR_STATUS_SUSPECT = true ∧
      t.units = s.units) ∧ (¬late → exec .resyncTimeout s = .next s))

/-- On an engine whose host interface answers and whose settings are restored: a write with byte enables other than all four or beyond the registers is discarded and captured; a write to a read-only register changes nothing, to a write-one-to-clear bit clears it, to a plain register within its range stores it, beyond it sets CFG_REJ; before restoration a write that would change a restored field is discarded. A write of 1 to STANDBY without the policy sets CFG_REJ, with it starts the ramps of the running domains, and a write of 1 to GO in recovery shows RCV_STATUS 1. A read of LO loads the latch of its pair unless the same request reads HI too, a read of HI releases it or is stale and counted. Each CNT_CLR puts the counters of its block at 0 and changes no other field and nothing else; the high-water marks of live pours and of the ASRC pool start again from the present count. A pad takes a new function through a park, one at a time and at boundaries, and refuses a reserved function or a second holder of 3, 4 or 5. -/
def Obligations.RegisterAccessCountersAndPads : Prop :=
  (∀ (off : BitVec 18) (v : BitVec 32) (be : BitVec 4) (s : State), s.hostUp = true → let o := off.toNat / 4 * 4
    (0x20000 ≤ o → exec (.registerWrite false off v be) s = .next (s.accFault false o be.toNat 2)) ∧
    (o < 0x20000 → s.bit Reg.GLOBAL_RESTORE_DONE = false → s.changesRestored o v.toNat = true →
      exec (.registerWrite false off v be) s = .next (s.accFault false o be.toNat 3)) ∧
    (o < 0x20000 → s.bit Reg.GLOBAL_RESTORE_DONE = true → be ≠ 15 →
      exec (.registerWrite false off v be) s = .next (s.accFault false o be.toNat 1)) ∧
    (be ≠ 15 → exec (.registerWrite true off v be) s = .next (s.accFault true o be.toNat 1))) ∧
  (∀ (v : BitVec 32) (s : State), s.hostUp = true → s.bit Reg.GLOBAL_RESTORE_DONE = true →
    exec (.registerWrite false 0x1048 v 15) s = .next s ∧
    exec (.registerWrite true 0 v 15) s = exec (.doorbell v) s ∧
    (∃ t, exec (.registerWrite false 0x8000 v 15) s = .next t ∧ t.units = s.units ∧
      t.bit Reg.HUBA_STATUS_CFG_REJ = (s.bit Reg.HUBA_STATUS_CFG_REJ && !v.getLsbD 0) ∧
      ∀ f : Fld, f.key ≠ Reg.HUBA_STATUS_CFG_REJ.key → t.get f = s.get f) ∧
    (v.toNat ≤ 5000 → exec (.registerWrite false 0x101C v 15) s = .next (s.put Reg.PWR_UNMUTE_MS v.toNat)) ∧
    (5000 < v.toNat % 2 ^ 13 → exec (.registerWrite false 0x101C v 15) s = .next (s.put Reg.PWR_STATUS_CFG_REJ 1)) ∧
    (v.getLsbD 0 = true → s.bit Reg.PWR_POLICY_HOST_STANDBY = false →
      exec (.registerWrite false 0x1004 v 15) s = .next (State.put { s with ctr := s.ctr + 3 } Reg.PWR_STATUS_CFG_REJ 1)) ∧
    (v.getLsbD 0 = true → s.bit Reg.PWR_POLICY_HOST_STANDBY = true → s.pwr.started = true → s.pwr.afterRamp = none →
      (∃ d < 3, (s.dom d).configured = true ∧ (s.dom d).running = true ∧ 0 < (s.dom d).block) →
      ∃ t, exec (.registerWrite false 0x1004 v 15) s = .next t ∧ t.pwr.afterRamp ≠ none ∧ t.pwr.started = true ∧ t.regs = s.regs ∧
        t.units = s.units)) ∧
  (∀ (v : BitVec 32) (s : State), s.get Reg.TRUST_STATE_LCS ≠ 5 → s.bit Reg.TRUST_STATE_RECOVERY = true → v.getLsbD 0 = true →
    exec (.registerWrite false 0x120CC v 15) s = .next (s.put Reg.TRUST_RCV_STATUS_STATE 1)) ∧
  (∀ (off : BitVec 18) (r : RegRow) (f : Fld) (s : State), s.hostUp = true →
    (pairAt (off.toNat / 4 * 4) = some (r, f, false) →
      (∃ t, exec (.pairLoRead off false) s = .next t ∧ Tab.get 0 t.latch f.off = s.get f / 2 ^ 32 + 1 ∧ t.regs = s.regs) ∧
      (∃ t, exec (.pairLoRead off true) s = .next t ∧ Tab.get 0 t.latch f.off = 0 ∧ t.regs = s.regs)) ∧
    (pairAt (off.toNat / 4 * 4) = some (r, f, true) →
      (Tab.get 0 s.latch f.off ≠ 0 → ∃ t, exec (.pairHiRead off) s = .next t ∧ Tab.get 0 t.latch f.off = 0 ∧ t.regs = s.regs) ∧
      (Tab.get 0 s.latch f.off = 0 → ∃ t, exec (.pairHiRead off) s = .next t ∧ t.bit Reg.GLOBAL_ACC_STALE_HI = true ∧
        t.get Reg.GLOBAL_ACC_CNT_STALE = min (s.get Reg.GLOBAL_ACC_CNT_STALE + 1) 0xFFFF ∧ t.units = s.units))) ∧
  (∀ (x : Fin 3) (p : Fin 4) (s : State), s.hostUp = true →
    ∀ e ∈ [(Instr.schedCntClr, [Reg.SCHED_CUT_CNT_COUNT, Reg.SCHED_PARAM_CLAMP_CNT_COUNT, Reg.SCHED_RAMP_RAISE_CNT_COUNT,
          Reg.SCHED_DRAM_ECC_CORR, Reg.SCHED_DRAM_ECC_UNCORR, Reg.SCHED_POUR_LATE_CNT_COUNT, Reg.SCHED_POUR_REF_CNT_COUNT,
          Reg.SCHED_POUR_PART_CNT_COUNT], [(Reg.SCHED_POUR_LIVE_HWM, s.get Reg.SCHED_POUR_LIVE_LIVE)]),
        (.hostCntClr, [Reg.HOST_LEDGER_HWM_BYTES, Reg.HOST_EVT_LOST_CNT_COUNT], []),
        (.netxCntClr x, [Reg.NET_RX_FRAMES_COUNT x, Reg.NET_TX_FRAMES_COUNT x, Reg.NET_MACSEC_DROP_COUNT x,
          Reg.NET_HOST_DROP_COUNT x], []),
        (.clsCntClr, (List.range 5).map Reg.CLS_CLASS_DROP_COUNT ++ [Reg.CLS_HOST_POLICE_COUNT, Reg.CLS_CUE_FAIL_COUNT] ++
          (List.range 512).map Reg.CLS_RULE_CNT_COUNT, []),
        (.wlxCntClr p, [Reg.WLP_REPLAY_CNT_COUNT p, Reg.WLP_ERR_CNT_COUNT p, Reg.WLP_TTL_DROP_CNT_COUNT p,
          Reg.WLP_ROUTE_DROP_CNT_COUNT p, Reg.WLP_SRC_DROP_CNT_COUNT p, Reg.WLP_BUNDLE_LATE_CNT_COUNT p], []),
        (.aportCntClr, (List.range 16).map Reg.APORT_P_CNT_XRUN ++ (List.range 16).map Reg.APORT_P_CNT_FS_ERR_CNT, []),
        (.aesCntClr, (List.range 8).map Reg.AES_RX_ERR_CNT_PARITY ++ (List.range 8).map Reg.AES_RX_ERR_CNT_CRC ++
          [Reg.AES_ASRC_POOL_RETRACK], [(Reg.AES_ASRC_POOL_HWM, s.poolUsed)]),
        (.hubaCntClr, (List.range 2).map Reg.HUBA_ADC_CNT_SAT_CNT ++ (List.range 2).map Reg.HUBA_ADC_CNT_RANGE_CNT ++
          (List.range 2).map Reg.HUBA_DAC_CNT_SAT_CNT ++ [Reg.HUBA_PS_CNT_SHUTDOWNS, Reg.HUBA_PS_CNT_CLIPS], []),
        (.surfCntClr, (List.range 8).map Reg.SURF_SL_CNT_UP_ERR ++ (List.range 8).map Reg.SURF_SL_CNT_MGMT_ERR ++
          (List.range 4).map Reg.SURF_SERVO_CYC_HWM_CYCLES, []),
        (.storeCntClr, [Reg.STORE_OVERRUN_CNT_COUNT, Reg.STORE_UNDERRUN_CNT_COUNT, Reg.STORE_IO_ERR_CNT_COUNT], []),
        (.pwrCntClr, [Reg.PWR_CNT_WARN, Reg.PWR_CNT_RIDE], []),
        (.pairCntClr, [Reg.PAIR_CNT_TAKEOVERS, Reg.PAIR_CNT_RESYNCS], []),
        (.bistCntClr, [Reg.BIST_CNT_RUN, Reg.BIST_CNT_FAIL], []),
        (.pinfnCntClr, [Reg.PINFN_CNT_CHANGES, Reg.PINFN_CNT_REJECTS], []),
        (.globalCntClr, [Reg.GLOBAL_ACC_CNT_FAULTS, Reg.GLOBAL_ACC_CNT_STALE], [])],
      ∃ t, exec e.1 s = .next t ∧ t = { s with regs := t.regs } ∧ (∀ f ∈ e.2.1, t.get f = 0) ∧
        (∀ m ∈ e.2.2, t.get m.1 = m.2 % 2 ^ m.1.w) ∧
        ∀ f : Fld, f.key ∉ (e.2.1 ++ e.2.2.map (·.1)).map Fld.key → t.get f = s.get f) ∧
  (∀ (k : Fin 32) (v : BitVec 32) (s : State), s.hostUp = true → s.bit Reg.GLOBAL_RESTORE_DONE = true →
    let fn := v.toNat % 16
    let twice := fn ∈ [3, 4, 5] ∧ ∃ j : Fin 32, j ≠ k ∧ s.get (Reg.PINFN_MFP_FN j) = fn
    (11 ≤ fn ∨ twice → exec (.pinfnWrite k v) s = .next ((s.put Reg.PINFN_STATUS_CFG_REJ 1).bump Reg.PINFN_CNT_REJECTS)) ∧
    (fn < 11 → ¬twice → ∃ t, exec (.pinfnWrite k v) s = .next t ∧ t.get (Reg.PINFN_MFP_FN k) = fn ∧ t.pins = s.pins ∧
      t.units = s.units ∧ (fn ≠ s.pinFn k → t.bit (Reg.PINFN_MFP_PENDING k) = true))) ∧
  (∀ (k : Fin 32) (s : State), let fn := s.get (Reg.PINFN_MFP_FN k)
    let due := s.pinsMove = true ∧ s.bit (Reg.PINFN_MFP_PENDING k) = true
    (¬due → exec (.pinfnChange k) s = .next s) ∧
    (due → fn = s.pinFn k → ∃ t, exec (.pinfnChange k) s = .next t ∧ Tab.get 0 t.pins.cfg k = s.pinCfg k ∧
      t.pins.fn = s.pins.fn ∧ t.pins.parked = s.pins.parked ∧ t.bit (Reg.PINFN_MFP_PENDING k) = false ∧ t.units = s.units) ∧
    (due → fn ≠ s.pinFn k → ∃ t, exec (.pinfnChange k) s = .next t ∧ Tab.get none t.pins.parked k = some fn ∧
      t.bit (Reg.PINFN_MFP_PARKED k) = true ∧ t.pins.fn = s.pins.fn ∧ t.units = s.units)) ∧
  (∀ (k : Fin 32) (s : State),
    (Tab.get none s.pins.parked k = none → exec (.pinfnParkEnd k) s = .next s) ∧
    (∀ fn, Tab.get none s.pins.parked k = some fn → ∃ t, exec (.pinfnParkEnd k) s = .next t ∧ Tab.get 0 t.pins.fn k = fn ∧
      Tab.get none t.pins.parked k = none ∧ t.bit (Reg.PINFN_MFP_PARKED k) = false ∧
      t.get Reg.PINFN_CNT_CHANGES = min (s.get Reg.PINFN_CNT_CHANGES + 1) (2 ^ Reg.PINFN_CNT_CHANGES.w - 1) ∧ t.units = s.units))

/-- The queue is the model's own (log entry 1): a step takes the command that waits first and runs it on the state with the queue's rest, and with nothing waiting the clocks of what runs go on by a cycle: a state in which no cluster fires and no servo unit is at a gap of its bundles stays as it is. -/
def Obligations.QueueStep : Prop :=
  (∀ (c : Instr) (rest : List Instr) (s : State), s.pending = c :: rest → step s = exec c { s with pending := rest }) ∧
  (∀ s : State, s.pending = [] → step s = .next s.tick) ∧
  (∀ s : State, s.pending = [] → (∀ c < 64, (s.cluster c).firing = none) →
    (∀ k < 4, (s.unit (512 + k)).wait ≠ .run ∨ (s.unit (512 + k)).mid ≠ none) → step s = .next s)

/-- State.reset is the block before power-good: each field of the register map whose power-up value is a number has it (R806; the stepping and grade of GLOBAL_REV are the choice of log entry 4), every unit is halted with no result in flight, no cluster fires, the queue, the host rings and the commands in progress are empty, no schedule is active, and registers and memories are in canonical form with every byte of memory at what unwritten memory reads as (log entry 2). -/
def Obligations.ResetState : Prop :=
  (∀ r ∈ regRows, ∀ n, r.pup = .num n → ∀ f ∈ instances r, State.reset.get f = n) ∧
  State.reset.Canonical ∧
  State.reset.pending = [] ∧ State.reset.host.issued = [] ∧ State.reset.host.done = [] ∧ State.reset.pours.live = [] ∧
  State.reset.active = none ∧ State.reset.pwr.started = false ∧ State.reset.trust.policy = none ∧
  (∀ u, (State.reset.unit u).wait = .halted ∧ (State.reset.unit u).flight = []) ∧
  (∀ c, (State.reset.cluster c).firing = none ∧ (State.reset.cluster c).dmaQueue = []) ∧
  (∀ a, Memory.read State.reset.dram a = Memory.blank ∧ Memory.read State.reset.shm a = Memory.blank ∧
    Memory.read State.reset.lmem a = Memory.blank ∧ Memory.read State.reset.dly a = Memory.blank ∧
    Memory.read State.reset.glz a = Memory.blank ∧ Memory.read State.reset.stage a = Memory.blank)

/-- From every state whose register table and memories are in canonical form, whatever command waits at the front of the queue, a step that answers a next state leaves them in canonical form, so equal register and memory contents stay equal data. State.reset has the form (ResetState). -/
def Obligations.StepKeepsCanonicalForm : Prop :=
  ∀ s t : State, s.Canonical → step s = .next t → t.Canonical

/-- For every operation of the M slots, of slot I, of slot L and of the control slot, with every operand that its encoding admits, the word that encodes it is read back as that operation with those operands, the last of its bundle and without rotation; a load of local memory is read back as one whose memory is clean. A bundle that holds a long immediate alone issues it. A bundle of KIND 0 whose four slots hold such words issues the four operations in slot order, each with its operands, the second one marked as standing in M1, and the last one ends the bundle. -/
def Obligations.WordsGiveTheirOperations : Prop :=
  ∀ o : Op, o.last = true → o.rot = false → o.second = false →
  (∀ e ∈ mOps o, o.inM e.2 = true → e.1.word = some (0, o.word e.2) ∧ wordInstr o.u 0 (o.word e.2) = some e.1) ∧
  (∀ e ∈ iOps o, o.inI e.2 = true → e.1.word = some (2, o.word e.2) ∧ wordInstr o.u 2 (o.word e.2) = some e.1) ∧
  (∀ imm, o.inMovi = true → wordInstr o.u 2 (o.moviWord imm) = some (.movi o imm)) ∧
  (∀ e ∈ lOps o .clean ++ [(.ldt o, 0x11)], o.inL e.2 = true → e.1.word = some (3, o.word e.2) ∧
    wordInstr o.u 3 (o.word e.2) = some e.1) ∧
  (o.inC = true → ∀ (t : BrTarget) (cp : Fin 8) (sense : Bool) (level : Fin 4) (c : LoopCount) (e : Fin 1024) (code : BitVec 12)
    (k w : Nat), ∀ i ∈ [Instr.br o t, .brc o t cp sense, .call o t, .ret o, .loop o level c e, .halt o, .trap o code, .sync o,
      .waitdma o, .rett o], i.word = some (k, w) → k = 4 ∧ wordInstr o.u k w = some i) ∧
  (∀ r w, o.d.val < 32 → o.a = 0 → o.b = 0 → o.m = 0 → (Instr.movs o r).word = some (4, w) → wordInstr o.u 4 w = some (.movs o r)) ∧
  (∀ r w, o.a.val < 32 → o.d = 0 → o.b = 0 → o.m = 0 → (Instr.movx o r).word = some (4, w) → wordInstr o.u 4 w = some (.movx o r)) ∧
  (∀ isF imm, illegalLimm (o.limmBits isF imm) = none → o.a = 0 → o.b = 0 → o.m = 0 →
    bundleOps o.u (o.limmBits isF imm) = [.longImmediate o isF imm]) ∧
  (∀ p q r : Op, p.u = o.u → q.u = o.u → r.u = o.u → p.last = false → q.last = false → r.last = false → p.rot = false → q.rot = false →
    r.rot = false → p.second = false → q.second = true → r.second = false →
    bundleOps o.u (BitVec.ofNat 128 (p.word 0x05 * 2 ^ 90 + q.word 0x04 * 2 ^ 60 + r.word 0x01 * 2 ^ 30 + o.word 0x0B)) =
      [.fadd p, .fmul q, .add r, .lds64 o])

/-- Whatever the state, each of the 353 commands answers a next state, and so does every step; what the hardware refuses is a status, a flag or a discarded access in that state. -/
def Obligations.EveryCommandAnswers : Prop :=
  (∀ (i : Instr) (s : State), ∃ t, exec i s = .next t) ∧ ∀ s : State, ∃ t, step s = .next t
end

