-- ==== Sys2Proof/Laws/Table.lean ====
section
/-! SUPPORT. The laws of the sparse table and of memory: a read after a write, and that every operation keeps the
canonical form. -/

namespace Sys2Proof

variable {α : Type}

theorem Tab.get_del (d : α) (t : Tab α) (a b : Nat) : Tab.get d (Tab.del t a) b = if b = a then d else Tab.get d t b := by
  induction t with
  | nil => simp [Tab.del, Tab.get]
  | cons e t ih =>
    obtain ⟨k, v⟩ := e
    by_cases h : a = k
    · subst h
      by_cases hb : b = a <;> simp_all [Tab.del, Tab.get]
    · by_cases hb : b = k
      · subst hb
        have h' : ¬b = a := fun e => h e.symm
        simp [Tab.del, Tab.get, h, h']
      · simp [Tab.del, Tab.get, h, hb, ih]

theorem Tab.get_ins (d : α) (t : Tab α) (a b : Nat) (x : α) :
    Tab.get d (Tab.ins t a x) b = if b = a then x else Tab.get d t b := by
  induction t with
  | nil => simp [Tab.ins, Tab.get]
  | cons e t ih =>
    obtain ⟨k, v⟩ := e
    by_cases h : a = k
    · subst h
      by_cases hb : b = a <;> simp [Tab.ins, Tab.get, hb]
    · by_cases hl : a < k
      · by_cases hb : b = a <;> simp [Tab.ins, Tab.get, h, hl, hb]
      · by_cases hb : b = k
        · subst hb
          have h' : ¬b = a := fun e => h e.symm
          simp [Tab.ins, Tab.get, h, hl, h']
        · simp [Tab.ins, Tab.get, h, hl, hb, ih]

/-- A read after a write. -/
theorem Tab.get_put [DecidableEq α] (d : α) (t : Tab α) (a b : Nat) (x : α) :
    Tab.get d (Tab.put d t a x) b = if b = a then x else Tab.get d t b := by
  unfold Tab.put
  split
  · next h => subst h; exact Tab.get_del x t a b
  · exact Tab.get_ins d t a b x

@[simp] theorem Tab.get_put_same [DecidableEq α] (d : α) (t : Tab α) (a : Nat) (x : α) :
    Tab.get d (Tab.put d t a x) a = x := by simp [Tab.get_put]

theorem Tab.get_put_ne [DecidableEq α] (d : α) (t : Tab α) {a b : Nat} (h : b ≠ a) (x : α) :
    Tab.get d (Tab.put d t a x) b = Tab.get d t b := by simp [Tab.get_put, h]

theorem Tab.wfFrom_mono [DecidableEq α] (d : α) (t : Tab α) {lo hi : Nat} (h : lo ≤ hi) (w : Tab.wfFrom d hi t = true) :
    Tab.wfFrom d lo t = true := by
  cases t with
  | nil => rfl
  | cons e t => simp only [Tab.wfFrom, Bool.and_eq_true, decide_eq_true_eq] at w ⊢; exact ⟨⟨by omega, w.1.2⟩, w.2⟩

theorem Tab.del_wfFrom [DecidableEq α] (d : α) (t : Tab α) (lo a : Nat) (w : Tab.wfFrom d lo t = true) :
    Tab.wfFrom d lo (Tab.del t a) = true := by
  induction t generalizing lo with
  | nil => rfl
  | cons e t ih =>
    obtain ⟨k, v⟩ := e
    simp only [Tab.wfFrom, Bool.and_eq_true, decide_eq_true_eq] at w
    by_cases h : a = k
    · simp only [Tab.del, h, if_true]
      exact ih lo (Tab.wfFrom_mono d t (by omega) w.2) |> fun x => h ▸ x
    · simp only [Tab.del, h, if_false, Tab.wfFrom, Bool.and_eq_true, decide_eq_true_eq]
      exact ⟨w.1, ih _ w.2⟩

theorem Tab.ins_wfFrom [DecidableEq α] (d : α) (t : Tab α) (lo a : Nat) (x : α) (hx : x ≠ d) (hl : lo ≤ a)
    (w : Tab.wfFrom d lo t = true) : Tab.wfFrom d lo (Tab.ins t a x) = true := by
  induction t generalizing lo with
  | nil => simp [Tab.ins, Tab.wfFrom, hx, hl]
  | cons e t ih =>
    obtain ⟨k, v⟩ := e
    simp only [Tab.wfFrom, Bool.and_eq_true, decide_eq_true_eq] at w
    by_cases h : a = k
    · subst h; simp [Tab.ins, Tab.wfFrom, hx, w.1.1, w.2]
    · by_cases hk : a < k
      · simp only [Tab.ins, h, hk, if_true, if_false, Tab.wfFrom, Bool.and_eq_true, decide_eq_true_eq]
        exact ⟨⟨hl, hx⟩, ⟨by omega, w.1.2⟩, w.2⟩
      · simp only [Tab.ins, h, hk, if_false, Tab.wfFrom, Bool.and_eq_true, decide_eq_true_eq]
        exact ⟨w.1, ih _ (by omega) w.2⟩

/-- Every write keeps the canonical form. -/
theorem Tab.put_wf [DecidableEq α] (d : α) (t : Tab α) (a : Nat) (x : α) (w : Tab.wf d t = true) :
    Tab.wf d (Tab.put d t a x) = true := by
  unfold Tab.put
  split
  · exact Tab.del_wfFrom d t 0 a w
  · next h => exact Tab.ins_wfFrom d t 0 a x h (Nat.zero_le _) w

/-- What an operation that reads, changes and writes leaves at a key. -/
theorem Tab.get_upd [DecidableEq α] (d : α) (t : Tab α) (a b : Nat) (f : α → α) :
    Tab.get d (Tab.upd d t a f) b = if b = a then f (Tab.get d t a) else Tab.get d t b := Tab.get_put d t a b _

/-- A byte read after a byte written. -/
theorem Memory.read_write (m : Memory) (a b : Nat) (x : Byte) :
    Memory.read (Memory.write m a x) b = if b = a then x else Memory.read m b := Tab.get_put _ m a b x

theorem Memory.write_wf (m : Memory) (a : Nat) (x : Byte) (w : m.wf = true) : (Memory.write m a x).wf = true :=
  Tab.put_wf _ m a x w

theorem Memory.writeBytes_wf (m : Memory) (a : Nat) (l : List Byte) (w : m.wf = true) :
    (Memory.writeBytes m a l).wf = true := by
  induction l generalizing m a with
  | nil => exact w
  | cons x xs ih => exact ih _ _ (Memory.write_wf m a x w)

/-- Bytes outside the stored range are as before. -/
theorem Memory.read_writeBytes_outside (m : Memory) (a b : Nat) (l : List Byte) (h : b < a ∨ a + l.length ≤ b) :
    Memory.read (Memory.writeBytes m a l) b = Memory.read m b := by
  induction l generalizing m a with
  | nil => rfl
  | cons x xs ih =>
    have h2 : b < a + 1 ∨ a + 1 + xs.length ≤ b := by simp only [List.length_cons] at h; omega
    have h1 : b ≠ a := by simp only [List.length_cons] at h; omega
    rw [Memory.writeBytes, ih _ _ h2, Memory.read_write, if_neg h1]

/-- A stored byte reads as it was written. -/
theorem Memory.read_writeBytes_inside (m : Memory) (a k : Nat) (l : List Byte) (h : k < l.length) :
    Memory.read (Memory.writeBytes m a l) (a + k) = l[k] := by
  induction l generalizing m a k with
  | nil => simp at h
  | cons x xs ih =>
    cases k with
    | zero =>
      rw [Memory.writeBytes, Memory.read_writeBytes_outside _ _ _ _ (Or.inl (by omega)), Memory.read_write]
      simp
    | succ k =>
      have e : a + (k + 1) = a + 1 + k := by omega
      have h' : k < xs.length := by simpa using h
      rw [Memory.writeBytes, e, ih _ _ _ h']
      simp

@[simp] theorem natToBytes_length (n v : Nat) : (natToBytes n v).length = n := by
  induction n generalizing v with
  | zero => rfl
  | succ n ih => simp [natToBytes, ih]

theorem Memory.writeNat_wf (m : Memory) (a n v : Nat) (w : m.wf = true) : (Memory.writeNat m a n v).wf = true :=
  Memory.writeBytes_wf m a _ w

end Sys2Proof
end

