-- ==== Sys2Proof/Laws/Canonical.lean ====
section
/-! SUPPORT. The canonical form of registers and memories is kept by every named operation over them: ranges that are cleared
or copied, fields that are written, events that are posted, and operations applied for every member of a list. -/

namespace Sys2Proof

/-- A table with some entries left out is canonical. -/
theorem Tab.filter_wfFrom {α : Type} [DecidableEq α] (d : α) (p : Nat × α → Bool) (t : Tab α) (lo : Nat)
    (w : Tab.wfFrom d lo t = true) : Tab.wfFrom d lo (List.filter p t) = true := by
  induction t generalizing lo with
  | nil => rfl
  | cons e t ih =>
    obtain ⟨k, v⟩ := e
    simp only [Tab.wfFrom, Bool.and_eq_true, decide_eq_true_eq] at w
    have h := ih _ w.2
    rw [List.filter_cons]
    split
    · simp only [Tab.wfFrom, Bool.and_eq_true, decide_eq_true_eq]; exact ⟨w.1, h⟩
    · exact Tab.wfFrom_mono d _ (by omega) h

theorem Tab.filter_wf {α : Type} [DecidableEq α] (d : α) (p : Nat × α → Bool) (t : Tab α) (w : Tab.wf d t = true) :
    Tab.wf d (List.filter p t) = true := Tab.filter_wfFrom d p t 0 w

end Sys2Proof

namespace Sys2Proof.Machine

theorem clearRange_wf (m : Memory) (lo hi : Nat) (w : m.wf = true) : (clearRange m lo hi).wf = true :=
  Tab.filter_wf _ _ m w

theorem copyRange_wf (m : Memory) (src dst n : Nat) (w : m.wf = true) : (copyRange m src dst n).wf = true := by
  unfold copyRange
  generalize List.filter _ m = l
  generalize hc : clearRange m dst (dst + n) = t
  have h : t.wf = true := hc ▸ clearRange_wf m _ _ w
  clear hc w
  induction l generalizing t with
  | nil => exact h
  | cons e l ih => exact ih _ (Memory.write_wf t _ _ h)

/-- What a fold keeps, if each of its steps does. -/
theorem State.each_keeps {α : Type} (p : State → Prop) (f : α → State → State) (h : ∀ x t, p t → p (f x t)) (s : State)
    (l : List α) (hs : p s) : p (s.each l f) := by
  unfold State.each
  induction l generalizing s with
  | nil => exact hs
  | cons x l ih => exact ih _ (h x s hs)

variable {s : State}

/-- The form depends on the register table and the memories alone. -/
theorem State.Canonical.congr {t : State} (h : s.Canonical) (r : t.regs = s.regs) (a : t.dram = s.dram) (b : t.shm = s.shm)
    (c : t.lmem = s.lmem) (d : t.dly = s.dly) (e : t.glz = s.glz) (f : t.stage = s.stage) (g : t.hostMem = s.hostMem) :
    t.Canonical :=
  ⟨r ▸ h.regs, a ▸ h.dram, b ▸ h.shm, c ▸ h.lmem, d ▸ h.dly, e ▸ h.glz, f ▸ h.stage, g ▸ h.hostMem⟩

theorem State.Canonical.put (h : s.Canonical) (f : Fld) (v : Nat) : (s.put f v).Canonical :=
  ⟨Tab.put_wf 0 _ _ _ h.regs, h.dram, h.shm, h.lmem, h.dly, h.glz, h.stage, h.hostMem⟩

theorem State.Canonical.set (h : s.Canonical) (f : Fld) : (s.set f).Canonical := h.put f 1
theorem State.Canonical.putBit (h : s.Canonical) (f : Fld) (b : Bool) : (s.putBit f b).Canonical := h.put f _
theorem State.Canonical.setMask (h : s.Canonical) (f : Fld) (k : Nat) : (s.setMask f k).Canonical := h.put f _
theorem State.Canonical.clrMask (h : s.Canonical) (f : Fld) (k : Nat) : (s.clrMask f k).Canonical := h.put f _
theorem State.Canonical.bumpBy (h : s.Canonical) (f : Fld) (n : Nat) : (s.bumpBy f n).Canonical := h.put f _
theorem State.Canonical.bump (h : s.Canonical) (f : Fld) : (s.bump f).Canonical := h.put f _

theorem State.Canonical.raise (h : s.Canonical) (f : Fld) (v : Nat) : (s.raise f v).Canonical := by
  unfold State.raise
  split
  · exact h.put f v
  · exact h

theorem State.Canonical.clear (h : s.Canonical) (l : List Fld) : (s.clear l).Canonical :=
  State.each_keeps State.Canonical (fun f t => t.put f 0) (fun f _ c => c.put f 0) s l h

theorem State.Canonical.setUnit (h : s.Canonical) (u : Nat) (x : UnitSt) : (s.setUnit u x).Canonical :=
  h.congr rfl rfl rfl rfl rfl rfl rfl rfl
theorem State.Canonical.setCluster (h : s.Canonical) (c : Nat) (x : ClusterSt) : (s.setCluster c x).Canonical :=
  h.congr rfl rfl rfl rfl rfl rfl rfl rfl
theorem State.Canonical.modRegion (h : s.Canonical) (g : Nat) (f : RegionSt → RegionSt) : (s.modRegion g f).Canonical :=
  h.congr rfl rfl rfl rfl rfl rfl rfl rfl
theorem State.Canonical.modDom (h : s.Canonical) (d : Nat) (f : DomSt → DomSt) : (s.modDom d f).Canonical :=
  h.congr rfl rfl rfl rfl rfl rfl rfl rfl
theorem State.Canonical.modHost (h : s.Canonical) (f : HostSt → HostSt) : (s.modHost f).Canonical :=
  h.congr rfl rfl rfl rfl rfl rfl rfl rfl
theorem State.Canonical.modMix (h : s.Canonical) (f : MixSt → MixSt) : (s.modMix f).Canonical :=
  h.congr rfl rfl rfl rfl rfl rfl rfl rfl
theorem State.Canonical.modSched (h : s.Canonical) (f : SchedSt → SchedSt) : (s.modSched f).Canonical :=
  h.congr rfl rfl rfl rfl rfl rfl rfl rfl
theorem State.Canonical.take (h : s.Canonical) : s.take.Canonical := h.congr rfl rfl rfl rfl rfl rfl rfl rfl
theorem State.Canonical.finish (h : s.Canonical) (c : CmdHdr) (op : Nat) (st : Status) (d si r : Nat) :
    (s.finish c op st d si r).Canonical := h.modHost _

theorem State.Canonical.hostWrite (h : s.Canonical) (a : Nat) (bs : List Byte) : (s.hostWrite a bs).Canonical :=
  ⟨h.regs, h.dram, h.shm, h.lmem, h.dly, h.glz, h.stage, Memory.writeBytes_wf _ _ _ h.hostMem⟩

theorem State.Canonical.stageWord (h : s.Canonical) (a : Nat) (w : Word) : (s.stageWord a w).Canonical :=
  ⟨h.regs, h.dram, h.shm, h.lmem, h.dly, h.glz, Memory.writeNat_wf _ _ _ _ h.stage, h.hostMem⟩

theorem State.Canonical.spaceWrite (h : s.Canonical) (space a : Nat) (w : Word) : (s.spaceWrite space a w).Canonical := by
  unfold State.spaceWrite
  split
  · exact h.stageWord a w
  · exact h.stageWord a w
  · exact ⟨h.regs, h.dram, h.shm, h.lmem, Memory.writeNat_wf _ _ _ _ h.dly, h.glz, h.stage, h.hostMem⟩
  · exact ⟨h.regs, Memory.writeNat_wf _ _ _ _ h.dram, h.shm, h.lmem, h.dly, h.glz, h.stage, h.hostMem⟩
  · exact ⟨h.regs, h.dram, Memory.writeNat_wf _ _ _ _ h.shm, h.lmem, h.dly, h.glz, h.stage, h.hostMem⟩

theorem State.Canonical.freeGlz (h : s.Canonical) (a n : Nat) : (s.freeGlz a n).Canonical :=
  ⟨h.regs, h.dram, h.shm, h.lmem, h.dly, Memory.writeNat_wf _ _ _ _ h.glz, h.stage, h.hostMem⟩

theorem State.Canonical.hold (h : s.Canonical) (r : Nat) (e : Held) : (s.hold r e).Canonical := by
  unfold State.hold
  dsimp only
  split
  · exact h.modHost _
  · exact ((h.modHost _).bump _).set _

theorem State.Canonical.stopEvRing (h : s.Canonical) (r : Nat) : (s.stopEvRing r).Canonical :=
  ((h.put _ _).set _).hold _ _

theorem State.Canonical.raiseVector (h : s.Canonical) (v : Nat) : (s.raiseVector v).Canonical := h.modHost _

theorem State.Canonical.putEvent (h : s.Canonical) (r : Nat) (e : Held) (b : Bool) : (s.putEvent r e b).Canonical :=
  (((h.hostWrite _ _).modHost _).put _ _).raiseVector _

theorem State.Canonical.writeEvent (h : s.Canonical) (r : Nat) (e : Held) : (s.writeEvent r e).Canonical := by
  unfold State.writeEvent
  split_ifs
  · exact (h.stopEvRing r).hold _ _
  · exact h.modHost _
  · exact h.putEvent _ _ _
  · exact h.putEvent _ _ _
  · exact h.modHost _

theorem State.Canonical.postTo (h : s.Canonical) (r : Nat) (e : Event) (v : Option Nat) : (s.postTo r e v).Canonical := by
  unfold State.postTo
  dsimp only
  split
  · exact h.writeEvent r _
  · exact h.hold r _

theorem State.Canonical.post (h : s.Canonical) (c : EvClass) (v : Option Nat) (e : Event) : (s.post c v e).Canonical :=
  h.postTo _ _ _

theorem State.Canonical.postNow (h : s.Canonical) (c : EvClass) (v : Option Nat) (k : Nat) (b : List Nat) :
    (s.postNow c v k b).Canonical := h.post c v _

end Sys2Proof.Machine
end

