-- ==== Sys2Proof/Laws/State.lean ====
section
/-! SUPPORT. What each named operation of the state leaves as it was, one lemma per field, and what a register, a unit, a
cluster, a region and a domain read as after each write. -/

namespace Sys2Proof.Machine

variable (s : State)

@[simp] theorem State.put_pending (f : Fld) (v : Nat) : (s.put f v).pending = s.pending := rfl
@[simp] theorem State.put_latch (f : Fld) (v : Nat) : (s.put f v).latch = s.latch := rfl
@[simp] theorem State.put_staged (f : Fld) (v : Nat) : (s.put f v).staged = s.staged := rfl
@[simp] theorem State.put_ctr (f : Fld) (v : Nat) : (s.put f v).ctr = s.ctr := rfl
@[simp] theorem State.put_dram (f : Fld) (v : Nat) : (s.put f v).dram = s.dram := rfl
@[simp] theorem State.put_shm (f : Fld) (v : Nat) : (s.put f v).shm = s.shm := rfl
@[simp] theorem State.put_lmem (f : Fld) (v : Nat) : (s.put f v).lmem = s.lmem := rfl
@[simp] theorem State.put_dly (f : Fld) (v : Nat) : (s.put f v).dly = s.dly := rfl
@[simp] theorem State.put_glz (f : Fld) (v : Nat) : (s.put f v).glz = s.glz := rfl
@[simp] theorem State.put_stage (f : Fld) (v : Nat) : (s.put f v).stage = s.stage := rfl
@[simp] theorem State.put_hostMem (f : Fld) (v : Nat) : (s.put f v).hostMem = s.hostMem := rfl
@[simp] theorem State.put_prog (f : Fld) (v : Nat) : (s.put f v).prog = s.prog := rfl
@[simp] theorem State.put_units (f : Fld) (v : Nat) : (s.put f v).units = s.units := rfl
@[simp] theorem State.put_clusters (f : Fld) (v : Nat) : (s.put f v).clusters = s.clusters := rfl
@[simp] theorem State.put_regions (f : Fld) (v : Nat) : (s.put f v).regions = s.regions := rfl
@[simp] theorem State.put_xbar (f : Fld) (v : Nat) : (s.put f v).xbar = s.xbar := rfl
@[simp] theorem State.put_doms (f : Fld) (v : Nat) : (s.put f v).doms = s.doms := rfl
@[simp] theorem State.put_mix (f : Fld) (v : Nat) : (s.put f v).mix = s.mix := rfl
@[simp] theorem State.put_sched (f : Fld) (v : Nat) : (s.put f v).sched = s.sched := rfl
@[simp] theorem State.put_pours (f : Fld) (v : Nat) : (s.put f v).pours = s.pours := rfl
@[simp] theorem State.put_time (f : Fld) (v : Nat) : (s.put f v).time = s.time := rfl
@[simp] theorem State.put_net (f : Fld) (v : Nat) : (s.put f v).net = s.net := rfl
@[simp] theorem State.put_audio (f : Fld) (v : Nat) : (s.put f v).audio = s.audio := rfl
@[simp] theorem State.put_wl (f : Fld) (v : Nat) : (s.put f v).wl = s.wl := rfl
@[simp] theorem State.put_huba (f : Fld) (v : Nat) : (s.put f v).huba = s.huba := rfl
@[simp] theorem State.put_surf (f : Fld) (v : Nat) : (s.put f v).surf = s.surf := rfl
@[simp] theorem State.put_store (f : Fld) (v : Nat) : (s.put f v).store = s.store := rfl
@[simp] theorem State.put_pwr (f : Fld) (v : Nat) : (s.put f v).pwr = s.pwr := rfl
@[simp] theorem State.put_trust (f : Fld) (v : Nat) : (s.put f v).trust = s.trust := rfl
@[simp] theorem State.put_pair (f : Fld) (v : Nat) : (s.put f v).pair = s.pair := rfl
@[simp] theorem State.put_bist (f : Fld) (v : Nat) : (s.put f v).bist = s.bist := rfl
@[simp] theorem State.put_pins (f : Fld) (v : Nat) : (s.put f v).pins = s.pins := rfl
@[simp] theorem State.put_host (f : Fld) (v : Nat) : (s.put f v).host = s.host := rfl

@[simp] theorem State.set_pending (f : Fld) : (s.set f).pending = s.pending := rfl
@[simp] theorem State.set_latch (f : Fld) : (s.set f).latch = s.latch := rfl
@[simp] theorem State.set_staged (f : Fld) : (s.set f).staged = s.staged := rfl
@[simp] theorem State.set_ctr (f : Fld) : (s.set f).ctr = s.ctr := rfl
@[simp] theorem State.set_dram (f : Fld) : (s.set f).dram = s.dram := rfl
@[simp] theorem State.set_shm (f : Fld) : (s.set f).shm = s.shm := rfl
@[simp] theorem State.set_lmem (f : Fld) : (s.set f).lmem = s.lmem := rfl
@[simp] theorem State.set_dly (f : Fld) : (s.set f).dly = s.dly := rfl
@[simp] theorem State.set_glz (f : Fld) : (s.set f).glz = s.glz := rfl
@[simp] theorem State.set_stage (f : Fld) : (s.set f).stage = s.stage := rfl
@[simp] theorem State.set_hostMem (f : Fld) : (s.set f).hostMem = s.hostMem := rfl
@[simp] theorem State.set_prog (f : Fld) : (s.set f).prog = s.prog := rfl
@[simp] theorem State.set_units (f : Fld) : (s.set f).units = s.units := rfl
@[simp] theorem State.set_clusters (f : Fld) : (s.set f).clusters = s.clusters := rfl
@[simp] theorem State.set_regions (f : Fld) : (s.set f).regions = s.regions := rfl
@[simp] theorem State.set_xbar (f : Fld) : (s.set f).xbar = s.xbar := rfl
@[simp] theorem State.set_doms (f : Fld) : (s.set f).doms = s.doms := rfl
@[simp] theorem State.set_mix (f : Fld) : (s.set f).mix = s.mix := rfl
@[simp] theorem State.set_sched (f : Fld) : (s.set f).sched = s.sched := rfl
@[simp] theorem State.set_pours (f : Fld) : (s.set f).pours = s.pours := rfl
@[simp] theorem State.set_time (f : Fld) : (s.set f).time = s.time := rfl
@[simp] theorem State.set_net (f : Fld) : (s.set f).net = s.net := rfl
@[simp] theorem State.set_audio (f : Fld) : (s.set f).audio = s.audio := rfl
@[simp] theorem State.set_wl (f : Fld) : (s.set f).wl = s.wl := rfl
@[simp] theorem State.set_huba (f : Fld) : (s.set f).huba = s.huba := rfl
@[simp] theorem State.set_surf (f : Fld) : (s.set f).surf = s.surf := rfl
@[simp] theorem State.set_store (f : Fld) : (s.set f).store = s.store := rfl
@[simp] theorem State.set_pwr (f : Fld) : (s.set f).pwr = s.pwr := rfl
@[simp] theorem State.set_trust (f : Fld) : (s.set f).trust = s.trust := rfl
@[simp] theorem State.set_pair (f : Fld) : (s.set f).pair = s.pair := rfl
@[simp] theorem State.set_bist (f : Fld) : (s.set f).bist = s.bist := rfl
@[simp] theorem State.set_pins (f : Fld) : (s.set f).pins = s.pins := rfl
@[simp] theorem State.set_host (f : Fld) : (s.set f).host = s.host := rfl

@[simp] theorem State.putBit_pending (f : Fld) (b : Bool) : (s.putBit f b).pending = s.pending := rfl
@[simp] theorem State.putBit_latch (f : Fld) (b : Bool) : (s.putBit f b).latch = s.latch := rfl
@[simp] theorem State.putBit_staged (f : Fld) (b : Bool) : (s.putBit f b).staged = s.staged := rfl
@[simp] theorem State.putBit_ctr (f : Fld) (b : Bool) : (s.putBit f b).ctr = s.ctr := rfl
@[simp] theorem State.putBit_dram (f : Fld) (b : Bool) : (s.putBit f b).dram = s.dram := rfl
@[simp] theorem State.putBit_shm (f : Fld) (b : Bool) : (s.putBit f b).shm = s.shm := rfl
@[simp] theorem State.putBit_lmem (f : Fld) (b : Bool) : (s.putBit f b).lmem = s.lmem := rfl
@[simp] theorem State.putBit_dly (f : Fld) (b : Bool) : (s.putBit f b).dly = s.dly := rfl
@[simp] theorem State.putBit_glz (f : Fld) (b : Bool) : (s.putBit f b).glz = s.glz := rfl
@[simp] theorem State.putBit_stage (f : Fld) (b : Bool) : (s.putBit f b).stage = s.stage := rfl
@[simp] theorem State.putBit_hostMem (f : Fld) (b : Bool) : (s.putBit f b).hostMem = s.hostMem := rfl
@[simp] theorem State.putBit_prog (f : Fld) (b : Bool) : (s.putBit f b).prog = s.prog := rfl
@[simp] theorem State.putBit_units (f : Fld) (b : Bool) : (s.putBit f b).units = s.units := rfl
@[simp] theorem State.putBit_clusters (f : Fld) (b : Bool) : (s.putBit f b).clusters = s.clusters := rfl
@[simp] theorem State.putBit_regions (f : Fld) (b : Bool) : (s.putBit f b).regions = s.regions := rfl
@[simp] theorem State.putBit_xbar (f : Fld) (b : Bool) : (s.putBit f b).xbar = s.xbar := rfl
@[simp] theorem State.putBit_doms (f : Fld) (b : Bool) : (s.putBit f b).doms = s.doms := rfl
@[simp] theorem State.putBit_mix (f : Fld) (b : Bool) : (s.putBit f b).mix = s.mix := rfl
@[simp] theorem State.putBit_sched (f : Fld) (b : Bool) : (s.putBit f b).sched = s.sched := rfl
@[simp] theorem State.putBit_pours (f : Fld) (b : Bool) : (s.putBit f b).pours = s.pours := rfl
@[simp] theorem State.putBit_time (f : Fld) (b : Bool) : (s.putBit f b).time = s.time := rfl
@[simp] theorem State.putBit_net (f : Fld) (b : Bool) : (s.putBit f b).net = s.net := rfl
@[simp] theorem State.putBit_audio (f : Fld) (b : Bool) : (s.putBit f b).audio = s.audio := rfl
@[simp] theorem State.putBit_wl (f : Fld) (b : Bool) : (s.putBit f b).wl = s.wl := rfl
@[simp] theorem State.putBit_huba (f : Fld) (b : Bool) : (s.putBit f b).huba = s.huba := rfl
@[simp] theorem State.putBit_surf (f : Fld) (b : Bool) : (s.putBit f b).surf = s.surf := rfl
@[simp] theorem State.putBit_store (f : Fld) (b : Bool) : (s.putBit f b).store = s.store := rfl
@[simp] theorem State.putBit_pwr (f : Fld) (b : Bool) : (s.putBit f b).pwr = s.pwr := rfl
@[simp] theorem State.putBit_trust (f : Fld) (b : Bool) : (s.putBit f b).trust = s.trust := rfl
@[simp] theorem State.putBit_pair (f : Fld) (b : Bool) : (s.putBit f b).pair = s.pair := rfl
@[simp] theorem State.putBit_bist (f : Fld) (b : Bool) : (s.putBit f b).bist = s.bist := rfl
@[simp] theorem State.putBit_pins (f : Fld) (b : Bool) : (s.putBit f b).pins = s.pins := rfl
@[simp] theorem State.putBit_host (f : Fld) (b : Bool) : (s.putBit f b).host = s.host := rfl

@[simp] theorem State.setMask_pending (f : Fld) (k : Nat) : (s.setMask f k).pending = s.pending := rfl
@[simp] theorem State.setMask_latch (f : Fld) (k : Nat) : (s.setMask f k).latch = s.latch := rfl
@[simp] theorem State.setMask_staged (f : Fld) (k : Nat) : (s.setMask f k).staged = s.staged := rfl
@[simp] theorem State.setMask_ctr (f : Fld) (k : Nat) : (s.setMask f k).ctr = s.ctr := rfl
@[simp] theorem State.setMask_dram (f : Fld) (k : Nat) : (s.setMask f k).dram = s.dram := rfl
@[simp] theorem State.setMask_shm (f : Fld) (k : Nat) : (s.setMask f k).shm = s.shm := rfl
@[simp] theorem State.setMask_lmem (f : Fld) (k : Nat) : (s.setMask f k).lmem = s.lmem := rfl
@[simp] theorem State.setMask_dly (f : Fld) (k : Nat) : (s.setMask f k).dly = s.dly := rfl
@[simp] theorem State.setMask_glz (f : Fld) (k : Nat) : (s.setMask f k).glz = s.glz := rfl
@[simp] theorem State.setMask_stage (f : Fld) (k : Nat) : (s.setMask f k).stage = s.stage := rfl
@[simp] theorem State.setMask_hostMem (f : Fld) (k : Nat) : (s.setMask f k).hostMem = s.hostMem := rfl
@[simp] theorem State.setMask_prog (f : Fld) (k : Nat) : (s.setMask f k).prog = s.prog := rfl
@[simp] theorem State.setMask_units (f : Fld) (k : Nat) : (s.setMask f k).units = s.units := rfl
@[simp] theorem State.setMask_clusters (f : Fld) (k : Nat) : (s.setMask f k).clusters = s.clusters := rfl
@[simp] theorem State.setMask_regions (f : Fld) (k : Nat) : (s.setMask f k).regions = s.regions := rfl
@[simp] theorem State.setMask_xbar (f : Fld) (k : Nat) : (s.setMask f k).xbar = s.xbar := rfl
@[simp] theorem State.setMask_doms (f : Fld) (k : Nat) : (s.setMask f k).doms = s.doms := rfl
@[simp] theorem State.setMask_mix (f : Fld) (k : Nat) : (s.setMask f k).mix = s.mix := rfl
@[simp] theorem State.setMask_sched (f : Fld) (k : Nat) : (s.setMask f k).sched = s.sched := rfl
@[simp] theorem State.setMask_pours (f : Fld) (k : Nat) : (s.setMask f k).pours = s.pours := rfl
@[simp] theorem State.setMask_time (f : Fld) (k : Nat) : (s.setMask f k).time = s.time := rfl
@[simp] theorem State.setMask_net (f : Fld) (k : Nat) : (s.setMask f k).net = s.net := rfl
@[simp] theorem State.setMask_audio (f : Fld) (k : Nat) : (s.setMask f k).audio = s.audio := rfl
@[simp] theorem State.setMask_wl (f : Fld) (k : Nat) : (s.setMask f k).wl = s.wl := rfl
@[simp] theorem State.setMask_huba (f : Fld) (k : Nat) : (s.setMask f k).huba = s.huba := rfl
@[simp] theorem State.setMask_surf (f : Fld) (k : Nat) : (s.setMask f k).surf = s.surf := rfl
@[simp] theorem State.setMask_store (f : Fld) (k : Nat) : (s.setMask f k).store = s.store := rfl
@[simp] theorem State.setMask_pwr (f : Fld) (k : Nat) : (s.setMask f k).pwr = s.pwr := rfl
@[simp] theorem State.setMask_trust (f : Fld) (k : Nat) : (s.setMask f k).trust = s.trust := rfl
@[simp] theorem State.setMask_pair (f : Fld) (k : Nat) : (s.setMask f k).pair = s.pair := rfl
@[simp] theorem State.setMask_bist (f : Fld) (k : Nat) : (s.setMask f k).bist = s.bist := rfl
@[simp] theorem State.setMask_pins (f : Fld) (k : Nat) : (s.setMask f k).pins = s.pins := rfl
@[simp] theorem State.setMask_host (f : Fld) (k : Nat) : (s.setMask f k).host = s.host := rfl

@[simp] theorem State.clrMask_pending (f : Fld) (k : Nat) : (s.clrMask f k).pending = s.pending := rfl
@[simp] theorem State.clrMask_latch (f : Fld) (k : Nat) : (s.clrMask f k).latch = s.latch := rfl
@[simp] theorem State.clrMask_staged (f : Fld) (k : Nat) : (s.clrMask f k).staged = s.staged := rfl
@[simp] theorem State.clrMask_ctr (f : Fld) (k : Nat) : (s.clrMask f k).ctr = s.ctr := rfl
@[simp] theorem State.clrMask_dram (f : Fld) (k : Nat) : (s.clrMask f k).dram = s.dram := rfl
@[simp] theorem State.clrMask_shm (f : Fld) (k : Nat) : (s.clrMask f k).shm = s.shm := rfl
@[simp] theorem State.clrMask_lmem (f : Fld) (k : Nat) : (s.clrMask f k).lmem = s.lmem := rfl
@[simp] theorem State.clrMask_dly (f : Fld) (k : Nat) : (s.clrMask f k).dly = s.dly := rfl
@[simp] theorem State.clrMask_glz (f : Fld) (k : Nat) : (s.clrMask f k).glz = s.glz := rfl
@[simp] theorem State.clrMask_stage (f : Fld) (k : Nat) : (s.clrMask f k).stage = s.stage := rfl
@[simp] theorem State.clrMask_hostMem (f : Fld) (k : Nat) : (s.clrMask f k).hostMem = s.hostMem := rfl
@[simp] theorem State.clrMask_prog (f : Fld) (k : Nat) : (s.clrMask f k).prog = s.prog := rfl
@[simp] theorem State.clrMask_units (f : Fld) (k : Nat) : (s.clrMask f k).units = s.units := rfl
@[simp] theorem State.clrMask_clusters (f : Fld) (k : Nat) : (s.clrMask f k).clusters = s.clusters := rfl
@[simp] theorem State.clrMask_regions (f : Fld) (k : Nat) : (s.clrMask f k).regions = s.regions := rfl
@[simp] theorem State.clrMask_xbar (f : Fld) (k : Nat) : (s.clrMask f k).xbar = s.xbar := rfl
@[simp] theorem State.clrMask_doms (f : Fld) (k : Nat) : (s.clrMask f k).doms = s.doms := rfl
@[simp] theorem State.clrMask_mix (f : Fld) (k : Nat) : (s.clrMask f k).mix = s.mix := rfl
@[simp] theorem State.clrMask_sched (f : Fld) (k : Nat) : (s.clrMask f k).sched = s.sched := rfl
@[simp] theorem State.clrMask_pours (f : Fld) (k : Nat) : (s.clrMask f k).pours = s.pours := rfl
@[simp] theorem State.clrMask_time (f : Fld) (k : Nat) : (s.clrMask f k).time = s.time := rfl
@[simp] theorem State.clrMask_net (f : Fld) (k : Nat) : (s.clrMask f k).net = s.net := rfl
@[simp] theorem State.clrMask_audio (f : Fld) (k : Nat) : (s.clrMask f k).audio = s.audio := rfl
@[simp] theorem State.clrMask_wl (f : Fld) (k : Nat) : (s.clrMask f k).wl = s.wl := rfl
@[simp] theorem State.clrMask_huba (f : Fld) (k : Nat) : (s.clrMask f k).huba = s.huba := rfl
@[simp] theorem State.clrMask_surf (f : Fld) (k : Nat) : (s.clrMask f k).surf = s.surf := rfl
@[simp] theorem State.clrMask_store (f : Fld) (k : Nat) : (s.clrMask f k).store = s.store := rfl
@[simp] theorem State.clrMask_pwr (f : Fld) (k : Nat) : (s.clrMask f k).pwr = s.pwr := rfl
@[simp] theorem State.clrMask_trust (f : Fld) (k : Nat) : (s.clrMask f k).trust = s.trust := rfl
@[simp] theorem State.clrMask_pair (f : Fld) (k : Nat) : (s.clrMask f k).pair = s.pair := rfl
@[simp] theorem State.clrMask_bist (f : Fld) (k : Nat) : (s.clrMask f k).bist = s.bist := rfl
@[simp] theorem State.clrMask_pins (f : Fld) (k : Nat) : (s.clrMask f k).pins = s.pins := rfl
@[simp] theorem State.clrMask_host (f : Fld) (k : Nat) : (s.clrMask f k).host = s.host := rfl

@[simp] theorem State.bumpBy_pending (f : Fld) (n : Nat) : (s.bumpBy f n).pending = s.pending := rfl
@[simp] theorem State.bumpBy_latch (f : Fld) (n : Nat) : (s.bumpBy f n).latch = s.latch := rfl
@[simp] theorem State.bumpBy_staged (f : Fld) (n : Nat) : (s.bumpBy f n).staged = s.staged := rfl
@[simp] theorem State.bumpBy_ctr (f : Fld) (n : Nat) : (s.bumpBy f n).ctr = s.ctr := rfl
@[simp] theorem State.bumpBy_dram (f : Fld) (n : Nat) : (s.bumpBy f n).dram = s.dram := rfl
@[simp] theorem State.bumpBy_shm (f : Fld) (n : Nat) : (s.bumpBy f n).shm = s.shm := rfl
@[simp] theorem State.bumpBy_lmem (f : Fld) (n : Nat) : (s.bumpBy f n).lmem = s.lmem := rfl
@[simp] theorem State.bumpBy_dly (f : Fld) (n : Nat) : (s.bumpBy f n).dly = s.dly := rfl
@[simp] theorem State.bumpBy_glz (f : Fld) (n : Nat) : (s.bumpBy f n).glz = s.glz := rfl
@[simp] theorem State.bumpBy_stage (f : Fld) (n : Nat) : (s.bumpBy f n).stage = s.stage := rfl
@[simp] theorem State.bumpBy_hostMem (f : Fld) (n : Nat) : (s.bumpBy f n).hostMem = s.hostMem := rfl
@[simp] theorem State.bumpBy_prog (f : Fld) (n : Nat) : (s.bumpBy f n).prog = s.prog := rfl
@[simp] theorem State.bumpBy_units (f : Fld) (n : Nat) : (s.bumpBy f n).units = s.units := rfl
@[simp] theorem State.bumpBy_clusters (f : Fld) (n : Nat) : (s.bumpBy f n).clusters = s.clusters := rfl
@[simp] theorem State.bumpBy_regions (f : Fld) (n : Nat) : (s.bumpBy f n).regions = s.regions := rfl
@[simp] theorem State.bumpBy_xbar (f : Fld) (n : Nat) : (s.bumpBy f n).xbar = s.xbar := rfl
@[simp] theorem State.bumpBy_doms (f : Fld) (n : Nat) : (s.bumpBy f n).doms = s.doms := rfl
@[simp] theorem State.bumpBy_mix (f : Fld) (n : Nat) : (s.bumpBy f n).mix = s.mix := rfl
@[simp] theorem State.bumpBy_sched (f : Fld) (n : Nat) : (s.bumpBy f n).sched = s.sched := rfl
@[simp] theorem State.bumpBy_pours (f : Fld) (n : Nat) : (s.bumpBy f n).pours = s.pours := rfl
@[simp] theorem State.bumpBy_time (f : Fld) (n : Nat) : (s.bumpBy f n).time = s.time := rfl
@[simp] theorem State.bumpBy_net (f : Fld) (n : Nat) : (s.bumpBy f n).net = s.net := rfl
@[simp] theorem State.bumpBy_audio (f : Fld) (n : Nat) : (s.bumpBy f n).audio = s.audio := rfl
@[simp] theorem State.bumpBy_wl (f : Fld) (n : Nat) : (s.bumpBy f n).wl = s.wl := rfl
@[simp] theorem State.bumpBy_huba (f : Fld) (n : Nat) : (s.bumpBy f n).huba = s.huba := rfl
@[simp] theorem State.bumpBy_surf (f : Fld) (n : Nat) : (s.bumpBy f n).surf = s.surf := rfl
@[simp] theorem State.bumpBy_store (f : Fld) (n : Nat) : (s.bumpBy f n).store = s.store := rfl
@[simp] theorem State.bumpBy_pwr (f : Fld) (n : Nat) : (s.bumpBy f n).pwr = s.pwr := rfl
@[simp] theorem State.bumpBy_trust (f : Fld) (n : Nat) : (s.bumpBy f n).trust = s.trust := rfl
@[simp] theorem State.bumpBy_pair (f : Fld) (n : Nat) : (s.bumpBy f n).pair = s.pair := rfl
@[simp] theorem State.bumpBy_bist (f : Fld) (n : Nat) : (s.bumpBy f n).bist = s.bist := rfl
@[simp] theorem State.bumpBy_pins (f : Fld) (n : Nat) : (s.bumpBy f n).pins = s.pins := rfl
@[simp] theorem State.bumpBy_host (f : Fld) (n : Nat) : (s.bumpBy f n).host = s.host := rfl

@[simp] theorem State.bump_pending (f : Fld) : (s.bump f).pending = s.pending := rfl
@[simp] theorem State.bump_latch (f : Fld) : (s.bump f).latch = s.latch := rfl
@[simp] theorem State.bump_staged (f : Fld) : (s.bump f).staged = s.staged := rfl
@[simp] theorem State.bump_ctr (f : Fld) : (s.bump f).ctr = s.ctr := rfl
@[simp] theorem State.bump_dram (f : Fld) : (s.bump f).dram = s.dram := rfl
@[simp] theorem State.bump_shm (f : Fld) : (s.bump f).shm = s.shm := rfl
@[simp] theorem State.bump_lmem (f : Fld) : (s.bump f).lmem = s.lmem := rfl
@[simp] theorem State.bump_dly (f : Fld) : (s.bump f).dly = s.dly := rfl
@[simp] theorem State.bump_glz (f : Fld) : (s.bump f).glz = s.glz := rfl
@[simp] theorem State.bump_stage (f : Fld) : (s.bump f).stage = s.stage := rfl
@[simp] theorem State.bump_hostMem (f : Fld) : (s.bump f).hostMem = s.hostMem := rfl
@[simp] theorem State.bump_prog (f : Fld) : (s.bump f).prog = s.prog := rfl
@[simp] theorem State.bump_units (f : Fld) : (s.bump f).units = s.units := rfl
@[simp] theorem State.bump_clusters (f : Fld) : (s.bump f).clusters = s.clusters := rfl
@[simp] theorem State.bump_regions (f : Fld) : (s.bump f).regions = s.regions := rfl
@[simp] theorem State.bump_xbar (f : Fld) : (s.bump f).xbar = s.xbar := rfl
@[simp] theorem State.bump_doms (f : Fld) : (s.bump f).doms = s.doms := rfl
@[simp] theorem State.bump_mix (f : Fld) : (s.bump f).mix = s.mix := rfl
@[simp] theorem State.bump_sched (f : Fld) : (s.bump f).sched = s.sched := rfl
@[simp] theorem State.bump_pours (f : Fld) : (s.bump f).pours = s.pours := rfl
@[simp] theorem State.bump_time (f : Fld) : (s.bump f).time = s.time := rfl
@[simp] theorem State.bump_net (f : Fld) : (s.bump f).net = s.net := rfl
@[simp] theorem State.bump_audio (f : Fld) : (s.bump f).audio = s.audio := rfl
@[simp] theorem State.bump_wl (f : Fld) : (s.bump f).wl = s.wl := rfl
@[simp] theorem State.bump_huba (f : Fld) : (s.bump f).huba = s.huba := rfl
@[simp] theorem State.bump_surf (f : Fld) : (s.bump f).surf = s.surf := rfl
@[simp] theorem State.bump_store (f : Fld) : (s.bump f).store = s.store := rfl
@[simp] theorem State.bump_pwr (f : Fld) : (s.bump f).pwr = s.pwr := rfl
@[simp] theorem State.bump_trust (f : Fld) : (s.bump f).trust = s.trust := rfl
@[simp] theorem State.bump_pair (f : Fld) : (s.bump f).pair = s.pair := rfl
@[simp] theorem State.bump_bist (f : Fld) : (s.bump f).bist = s.bist := rfl
@[simp] theorem State.bump_pins (f : Fld) : (s.bump f).pins = s.pins := rfl
@[simp] theorem State.bump_host (f : Fld) : (s.bump f).host = s.host := rfl

@[simp] theorem State.setUnit_pending (u : Nat) (x : UnitSt) : (s.setUnit u x).pending = s.pending := rfl
@[simp] theorem State.setUnit_regs (u : Nat) (x : UnitSt) : (s.setUnit u x).regs = s.regs := rfl
@[simp] theorem State.setUnit_latch (u : Nat) (x : UnitSt) : (s.setUnit u x).latch = s.latch := rfl
@[simp] theorem State.setUnit_staged (u : Nat) (x : UnitSt) : (s.setUnit u x).staged = s.staged := rfl
@[simp] theorem State.setUnit_ctr (u : Nat) (x : UnitSt) : (s.setUnit u x).ctr = s.ctr := rfl
@[simp] theorem State.setUnit_dram (u : Nat) (x : UnitSt) : (s.setUnit u x).dram = s.dram := rfl
@[simp] theorem State.setUnit_shm (u : Nat) (x : UnitSt) : (s.setUnit u x).shm = s.shm := rfl
@[simp] theorem State.setUnit_lmem (u : Nat) (x : UnitSt) : (s.setUnit u x).lmem = s.lmem := rfl
@[simp] theorem State.setUnit_dly (u : Nat) (x : UnitSt) : (s.setUnit u x).dly = s.dly := rfl
@[simp] theorem State.setUnit_glz (u : Nat) (x : UnitSt) : (s.setUnit u x).glz = s.glz := rfl
@[simp] theorem State.setUnit_stage (u : Nat) (x : UnitSt) : (s.setUnit u x).stage = s.stage := rfl
@[simp] theorem State.setUnit_hostMem (u : Nat) (x : UnitSt) : (s.setUnit u x).hostMem = s.hostMem := rfl
@[simp] theorem State.setUnit_prog (u : Nat) (x : UnitSt) : (s.setUnit u x).prog = s.prog := rfl
@[simp] theorem State.setUnit_clusters (u : Nat) (x : UnitSt) : (s.setUnit u x).clusters = s.clusters := rfl
@[simp] theorem State.setUnit_regions (u : Nat) (x : UnitSt) : (s.setUnit u x).regions = s.regions := rfl
@[simp] theorem State.setUnit_xbar (u : Nat) (x : UnitSt) : (s.setUnit u x).xbar = s.xbar := rfl
@[simp] theorem State.setUnit_doms (u : Nat) (x : UnitSt) : (s.setUnit u x).doms = s.doms := rfl
@[simp] theorem State.setUnit_mix (u : Nat) (x : UnitSt) : (s.setUnit u x).mix = s.mix := rfl
@[simp] theorem State.setUnit_sched (u : Nat) (x : UnitSt) : (s.setUnit u x).sched = s.sched := rfl
@[simp] theorem State.setUnit_pours (u : Nat) (x : UnitSt) : (s.setUnit u x).pours = s.pours := rfl
@[simp] theorem State.setUnit_time (u : Nat) (x : UnitSt) : (s.setUnit u x).time = s.time := rfl
@[simp] theorem State.setUnit_net (u : Nat) (x : UnitSt) : (s.setUnit u x).net = s.net := rfl
@[simp] theorem State.setUnit_audio (u : Nat) (x : UnitSt) : (s.setUnit u x).audio = s.audio := rfl
@[simp] theorem State.setUnit_wl (u : Nat) (x : UnitSt) : (s.setUnit u x).wl = s.wl := rfl
@[simp] theorem State.setUnit_huba (u : Nat) (x : UnitSt) : (s.setUnit u x).huba = s.huba := rfl
@[simp] theorem State.setUnit_surf (u : Nat) (x : UnitSt) : (s.setUnit u x).surf = s.surf := rfl
@[simp] theorem State.setUnit_store (u : Nat) (x : UnitSt) : (s.setUnit u x).store = s.store := rfl
@[simp] theorem State.setUnit_pwr (u : Nat) (x : UnitSt) : (s.setUnit u x).pwr = s.pwr := rfl
@[simp] theorem State.setUnit_trust (u : Nat) (x : UnitSt) : (s.setUnit u x).trust = s.trust := rfl
@[simp] theorem State.setUnit_pair (u : Nat) (x : UnitSt) : (s.setUnit u x).pair = s.pair := rfl
@[simp] theorem State.setUnit_bist (u : Nat) (x : UnitSt) : (s.setUnit u x).bist = s.bist := rfl
@[simp] theorem State.setUnit_pins (u : Nat) (x : UnitSt) : (s.setUnit u x).pins = s.pins := rfl
@[simp] theorem State.setUnit_host (u : Nat) (x : UnitSt) : (s.setUnit u x).host = s.host := rfl

@[simp] theorem State.modUnit_pending (u : Nat) (f : UnitSt → UnitSt) : (s.modUnit u f).pending = s.pending := rfl
@[simp] theorem State.modUnit_regs (u : Nat) (f : UnitSt → UnitSt) : (s.modUnit u f).regs = s.regs := rfl
@[simp] theorem State.modUnit_latch (u : Nat) (f : UnitSt → UnitSt) : (s.modUnit u f).latch = s.latch := rfl
@[simp] theorem State.modUnit_staged (u : Nat) (f : UnitSt → UnitSt) : (s.modUnit u f).staged = s.staged := rfl
@[simp] theorem State.modUnit_ctr (u : Nat) (f : UnitSt → UnitSt) : (s.modUnit u f).ctr = s.ctr := rfl
@[simp] theorem State.modUnit_dram (u : Nat) (f : UnitSt → UnitSt) : (s.modUnit u f).dram = s.dram := rfl
@[simp] theorem State.modUnit_shm (u : Nat) (f : UnitSt → UnitSt) : (s.modUnit u f).shm = s.shm := rfl
@[simp] theorem State.modUnit_lmem (u : Nat) (f : UnitSt → UnitSt) : (s.modUnit u f).lmem = s.lmem := rfl
@[simp] theorem State.modUnit_dly (u : Nat) (f : UnitSt → UnitSt) : (s.modUnit u f).dly = s.dly := rfl
@[simp] theorem State.modUnit_glz (u : Nat) (f : UnitSt → UnitSt) : (s.modUnit u f).glz = s.glz := rfl
@[simp] theorem State.modUnit_stage (u : Nat) (f : UnitSt → UnitSt) : (s.modUnit u f).stage = s.stage := rfl
@[simp] theorem State.modUnit_hostMem (u : Nat) (f : UnitSt → UnitSt) : (s.modUnit u f).hostMem = s.hostMem := rfl
@[simp] theorem State.modUnit_prog (u : Nat) (f : UnitSt → UnitSt) : (s.modUnit u f).prog = s.prog := rfl
@[simp] theorem State.modUnit_clusters (u : Nat) (f : UnitSt → UnitSt) : (s.modUnit u f).clusters = s.clusters := rfl
@[simp] theorem State.modUnit_regions (u : Nat) (f : UnitSt → UnitSt) : (s.modUnit u f).regions = s.regions := rfl
@[simp] theorem State.modUnit_xbar (u : Nat) (f : UnitSt → UnitSt) : (s.modUnit u f).xbar = s.xbar := rfl
@[simp] theorem State.modUnit_doms (u : Nat) (f : UnitSt → UnitSt) : (s.modUnit u f).doms = s.doms := rfl
@[simp] theorem State.modUnit_mix (u : Nat) (f : UnitSt → UnitSt) : (s.modUnit u f).mix = s.mix := rfl
@[simp] theorem State.modUnit_sched (u : Nat) (f : UnitSt → UnitSt) : (s.modUnit u f).sched = s.sched := rfl
@[simp] theorem State.modUnit_pours (u : Nat) (f : UnitSt → UnitSt) : (s.modUnit u f).pours = s.pours := rfl
@[simp] theorem State.modUnit_time (u : Nat) (f : UnitSt → UnitSt) : (s.modUnit u f).time = s.time := rfl
@[simp] theorem State.modUnit_net (u : Nat) (f : UnitSt → UnitSt) : (s.modUnit u f).net = s.net := rfl
@[simp] theorem State.modUnit_audio (u : Nat) (f : UnitSt → UnitSt) : (s.modUnit u f).audio = s.audio := rfl
@[simp] theorem State.modUnit_wl (u : Nat) (f : UnitSt → UnitSt) : (s.modUnit u f).wl = s.wl := rfl
@[simp] theorem State.modUnit_huba (u : Nat) (f : UnitSt → UnitSt) : (s.modUnit u f).huba = s.huba := rfl
@[simp] theorem State.modUnit_surf (u : Nat) (f : UnitSt → UnitSt) : (s.modUnit u f).surf = s.surf := rfl
@[simp] theorem State.modUnit_store (u : Nat) (f : UnitSt → UnitSt) : (s.modUnit u f).store = s.store := rfl
@[simp] theorem State.modUnit_pwr (u : Nat) (f : UnitSt → UnitSt) : (s.modUnit u f).pwr = s.pwr := rfl
@[simp] theorem State.modUnit_trust (u : Nat) (f : UnitSt → UnitSt) : (s.modUnit u f).trust = s.trust := rfl
@[simp] theorem State.modUnit_pair (u : Nat) (f : UnitSt → UnitSt) : (s.modUnit u f).pair = s.pair := rfl
@[simp] theorem State.modUnit_bist (u : Nat) (f : UnitSt → UnitSt) : (s.modUnit u f).bist = s.bist := rfl
@[simp] theorem State.modUnit_pins (u : Nat) (f : UnitSt → UnitSt) : (s.modUnit u f).pins = s.pins := rfl
@[simp] theorem State.modUnit_host (u : Nat) (f : UnitSt → UnitSt) : (s.modUnit u f).host = s.host := rfl

@[simp] theorem State.setCluster_pending (c : Nat) (x : ClusterSt) : (s.setCluster c x).pending = s.pending := rfl
@[simp] theorem State.setCluster_regs (c : Nat) (x : ClusterSt) : (s.setCluster c x).regs = s.regs := rfl
@[simp] theorem State.setCluster_latch (c : Nat) (x : ClusterSt) : (s.setCluster c x).latch = s.latch := rfl
@[simp] theorem State.setCluster_staged (c : Nat) (x : ClusterSt) : (s.setCluster c x).staged = s.staged := rfl
@[simp] theorem State.setCluster_ctr (c : Nat) (x : ClusterSt) : (s.setCluster c x).ctr = s.ctr := rfl
@[simp] theorem State.setCluster_dram (c : Nat) (x : ClusterSt) : (s.setCluster c x).dram = s.dram := rfl
@[simp] theorem State.setCluster_shm (c : Nat) (x : ClusterSt) : (s.setCluster c x).shm = s.shm := rfl
@[simp] theorem State.setCluster_lmem (c : Nat) (x : ClusterSt) : (s.setCluster c x).lmem = s.lmem := rfl
@[simp] theorem State.setCluster_dly (c : Nat) (x : ClusterSt) : (s.setCluster c x).dly = s.dly := rfl
@[simp] theorem State.setCluster_glz (c : Nat) (x : ClusterSt) : (s.setCluster c x).glz = s.glz := rfl
@[simp] theorem State.setCluster_stage (c : Nat) (x : ClusterSt) : (s.setCluster c x).stage = s.stage := rfl
@[simp] theorem State.setCluster_hostMem (c : Nat) (x : ClusterSt) : (s.setCluster c x).hostMem = s.hostMem := rfl
@[simp] theorem State.setCluster_prog (c : Nat) (x : ClusterSt) : (s.setCluster c x).prog = s.prog := rfl
@[simp] theorem State.setCluster_units (c : Nat) (x : ClusterSt) : (s.setCluster c x).units = s.units := rfl
@[simp] theorem State.setCluster_regions (c : Nat) (x : ClusterSt) : (s.setCluster c x).regions = s.regions := rfl
@[simp] theorem State.setCluster_xbar (c : Nat) (x : ClusterSt) : (s.setCluster c x).xbar = s.xbar := rfl
@[simp] theorem State.setCluster_doms (c : Nat) (x : ClusterSt) : (s.setCluster c x).doms = s.doms := rfl
@[simp] theorem State.setCluster_mix (c : Nat) (x : ClusterSt) : (s.setCluster c x).mix = s.mix := rfl
@[simp] theorem State.setCluster_sched (c : Nat) (x : ClusterSt) : (s.setCluster c x).sched = s.sched := rfl
@[simp] theorem State.setCluster_pours (c : Nat) (x : ClusterSt) : (s.setCluster c x).pours = s.pours := rfl
@[simp] theorem State.setCluster_time (c : Nat) (x : ClusterSt) : (s.setCluster c x).time = s.time := rfl
@[simp] theorem State.setCluster_net (c : Nat) (x : ClusterSt) : (s.setCluster c x).net = s.net := rfl
@[simp] theorem State.setCluster_audio (c : Nat) (x : ClusterSt) : (s.setCluster c x).audio = s.audio := rfl
@[simp] theorem State.setCluster_wl (c : Nat) (x : ClusterSt) : (s.setCluster c x).wl = s.wl := rfl
@[simp] theorem State.setCluster_huba (c : Nat) (x : ClusterSt) : (s.setCluster c x).huba = s.huba := rfl
@[simp] theorem State.setCluster_surf (c : Nat) (x : ClusterSt) : (s.setCluster c x).surf = s.surf := rfl
@[simp] theorem State.setCluster_store (c : Nat) (x : ClusterSt) : (s.setCluster c x).store = s.store := rfl
@[simp] theorem State.setCluster_pwr (c : Nat) (x : ClusterSt) : (s.setCluster c x).pwr = s.pwr := rfl
@[simp] theorem State.setCluster_trust (c : Nat) (x : ClusterSt) : (s.setCluster c x).trust = s.trust := rfl
@[simp] theorem State.setCluster_pair (c : Nat) (x : ClusterSt) : (s.setCluster c x).pair = s.pair := rfl
@[simp] theorem State.setCluster_bist (c : Nat) (x : ClusterSt) : (s.setCluster c x).bist = s.bist := rfl
@[simp] theorem State.setCluster_pins (c : Nat) (x : ClusterSt) : (s.setCluster c x).pins = s.pins := rfl
@[simp] theorem State.setCluster_host (c : Nat) (x : ClusterSt) : (s.setCluster c x).host = s.host := rfl

@[simp] theorem State.modCluster_pending (c : Nat) (f : ClusterSt → ClusterSt) : (s.modCluster c f).pending = s.pending := rfl
@[simp] theorem State.modCluster_regs (c : Nat) (f : ClusterSt → ClusterSt) : (s.modCluster c f).regs = s.regs := rfl
@[simp] theorem State.modCluster_latch (c : Nat) (f : ClusterSt → ClusterSt) : (s.modCluster c f).latch = s.latch := rfl
@[simp] theorem State.modCluster_staged (c : Nat) (f : ClusterSt → ClusterSt) : (s.modCluster c f).staged = s.staged := rfl
@[simp] theorem State.modCluster_ctr (c : Nat) (f : ClusterSt → ClusterSt) : (s.modCluster c f).ctr = s.ctr := rfl
@[simp] theorem State.modCluster_dram (c : Nat) (f : ClusterSt → ClusterSt) : (s.modCluster c f).dram = s.dram := rfl
@[simp] theorem State.modCluster_shm (c : Nat) (f : ClusterSt → ClusterSt) : (s.modCluster c f).shm = s.shm := rfl
@[simp] theorem State.modCluster_lmem (c : Nat) (f : ClusterSt → ClusterSt) : (s.modCluster c f).lmem = s.lmem := rfl
@[simp] theorem State.modCluster_dly (c : Nat) (f : ClusterSt → ClusterSt) : (s.modCluster c f).dly = s.dly := rfl
@[simp] theorem State.modCluster_glz (c : Nat) (f : ClusterSt → ClusterSt) : (s.modCluster c f).glz = s.glz := rfl
@[simp] theorem State.modCluster_stage (c : Nat) (f : ClusterSt → ClusterSt) : (s.modCluster c f).stage = s.stage := rfl
@[simp] theorem State.modCluster_hostMem (c : Nat) (f : ClusterSt → ClusterSt) : (s.modCluster c f).hostMem = s.hostMem := rfl
@[simp] theorem State.modCluster_prog (c : Nat) (f : ClusterSt → ClusterSt) : (s.modCluster c f).prog = s.prog := rfl
@[simp] theorem State.modCluster_units (c : Nat) (f : ClusterSt → ClusterSt) : (s.modCluster c f).units = s.units := rfl
@[simp] theorem State.modCluster_regions (c : Nat) (f : ClusterSt → ClusterSt) : (s.modCluster c f).regions = s.regions := rfl
@[simp] theorem State.modCluster_xbar (c : Nat) (f : ClusterSt → ClusterSt) : (s.modCluster c f).xbar = s.xbar := rfl
@[simp] theorem State.modCluster_doms (c : Nat) (f : ClusterSt → ClusterSt) : (s.modCluster c f).doms = s.doms := rfl
@[simp] theorem State.modCluster_mix (c : Nat) (f : ClusterSt → ClusterSt) : (s.modCluster c f).mix = s.mix := rfl
@[simp] theorem State.modCluster_sched (c : Nat) (f : ClusterSt → ClusterSt) : (s.modCluster c f).sched = s.sched := rfl
@[simp] theorem State.modCluster_pours (c : Nat) (f : ClusterSt → ClusterSt) : (s.modCluster c f).pours = s.pours := rfl
@[simp] theorem State.modCluster_time (c : Nat) (f : ClusterSt → ClusterSt) : (s.modCluster c f).time = s.time := rfl
@[simp] theorem State.modCluster_net (c : Nat) (f : ClusterSt → ClusterSt) : (s.modCluster c f).net = s.net := rfl
@[simp] theorem State.modCluster_audio (c : Nat) (f : ClusterSt → ClusterSt) : (s.modCluster c f).audio = s.audio := rfl
@[simp] theorem State.modCluster_wl (c : Nat) (f : ClusterSt → ClusterSt) : (s.modCluster c f).wl = s.wl := rfl
@[simp] theorem State.modCluster_huba (c : Nat) (f : ClusterSt → ClusterSt) : (s.modCluster c f).huba = s.huba := rfl
@[simp] theorem State.modCluster_surf (c : Nat) (f : ClusterSt → ClusterSt) : (s.modCluster c f).surf = s.surf := rfl
@[simp] theorem State.modCluster_store (c : Nat) (f : ClusterSt → ClusterSt) : (s.modCluster c f).store = s.store := rfl
@[simp] theorem State.modCluster_pwr (c : Nat) (f : ClusterSt → ClusterSt) : (s.modCluster c f).pwr = s.pwr := rfl
@[simp] theorem State.modCluster_trust (c : Nat) (f : ClusterSt → ClusterSt) : (s.modCluster c f).trust = s.trust := rfl
@[simp] theorem State.modCluster_pair (c : Nat) (f : ClusterSt → ClusterSt) : (s.modCluster c f).pair = s.pair := rfl
@[simp] theorem State.modCluster_bist (c : Nat) (f : ClusterSt → ClusterSt) : (s.modCluster c f).bist = s.bist := rfl
@[simp] theorem State.modCluster_pins (c : Nat) (f : ClusterSt → ClusterSt) : (s.modCluster c f).pins = s.pins := rfl
@[simp] theorem State.modCluster_host (c : Nat) (f : ClusterSt → ClusterSt) : (s.modCluster c f).host = s.host := rfl

@[simp] theorem State.modRegion_pending (r : Nat) (f : RegionSt → RegionSt) : (s.modRegion r f).pending = s.pending := rfl
@[simp] theorem State.modRegion_regs (r : Nat) (f : RegionSt → RegionSt) : (s.modRegion r f).regs = s.regs := rfl
@[simp] theorem State.modRegion_latch (r : Nat) (f : RegionSt → RegionSt) : (s.modRegion r f).latch = s.latch := rfl
@[simp] theorem State.modRegion_staged (r : Nat) (f : RegionSt → RegionSt) : (s.modRegion r f).staged = s.staged := rfl
@[simp] theorem State.modRegion_ctr (r : Nat) (f : RegionSt → RegionSt) : (s.modRegion r f).ctr = s.ctr := rfl
@[simp] theorem State.modRegion_dram (r : Nat) (f : RegionSt → RegionSt) : (s.modRegion r f).dram = s.dram := rfl
@[simp] theorem State.modRegion_shm (r : Nat) (f : RegionSt → RegionSt) : (s.modRegion r f).shm = s.shm := rfl
@[simp] theorem State.modRegion_lmem (r : Nat) (f : RegionSt → RegionSt) : (s.modRegion r f).lmem = s.lmem := rfl
@[simp] theorem State.modRegion_dly (r : Nat) (f : RegionSt → RegionSt) : (s.modRegion r f).dly = s.dly := rfl
@[simp] theorem State.modRegion_glz (r : Nat) (f : RegionSt → RegionSt) : (s.modRegion r f).glz = s.glz := rfl
@[simp] theorem State.modRegion_stage (r : Nat) (f : RegionSt → RegionSt) : (s.modRegion r f).stage = s.stage := rfl
@[simp] theorem State.modRegion_hostMem (r : Nat) (f : RegionSt → RegionSt) : (s.modRegion r f).hostMem = s.hostMem := rfl
@[simp] theorem State.modRegion_prog (r : Nat) (f : RegionSt → RegionSt) : (s.modRegion r f).prog = s.prog := rfl
@[simp] theorem State.modRegion_units (r : Nat) (f : RegionSt → RegionSt) : (s.modRegion r f).units = s.units := rfl
@[simp] theorem State.modRegion_clusters (r : Nat) (f : RegionSt → RegionSt) : (s.modRegion r f).clusters = s.clusters := rfl
@[simp] theorem State.modRegion_xbar (r : Nat) (f : RegionSt → RegionSt) : (s.modRegion r f).xbar = s.xbar := rfl
@[simp] theorem State.modRegion_doms (r : Nat) (f : RegionSt → RegionSt) : (s.modRegion r f).doms = s.doms := rfl
@[simp] theorem State.modRegion_mix (r : Nat) (f : RegionSt → RegionSt) : (s.modRegion r f).mix = s.mix := rfl
@[simp] theorem State.modRegion_sched (r : Nat) (f : RegionSt → RegionSt) : (s.modRegion r f).sched = s.sched := rfl
@[simp] theorem State.modRegion_pours (r : Nat) (f : RegionSt → RegionSt) : (s.modRegion r f).pours = s.pours := rfl
@[simp] theorem State.modRegion_time (r : Nat) (f : RegionSt → RegionSt) : (s.modRegion r f).time = s.time := rfl
@[simp] theorem State.modRegion_net (r : Nat) (f : RegionSt → RegionSt) : (s.modRegion r f).net = s.net := rfl
@[simp] theorem State.modRegion_audio (r : Nat) (f : RegionSt → RegionSt) : (s.modRegion r f).audio = s.audio := rfl
@[simp] theorem State.modRegion_wl (r : Nat) (f : RegionSt → RegionSt) : (s.modRegion r f).wl = s.wl := rfl
@[simp] theorem State.modRegion_huba (r : Nat) (f : RegionSt → RegionSt) : (s.modRegion r f).huba = s.huba := rfl
@[simp] theorem State.modRegion_surf (r : Nat) (f : RegionSt → RegionSt) : (s.modRegion r f).surf = s.surf := rfl
@[simp] theorem State.modRegion_store (r : Nat) (f : RegionSt → RegionSt) : (s.modRegion r f).store = s.store := rfl
@[simp] theorem State.modRegion_pwr (r : Nat) (f : RegionSt → RegionSt) : (s.modRegion r f).pwr = s.pwr := rfl
@[simp] theorem State.modRegion_trust (r : Nat) (f : RegionSt → RegionSt) : (s.modRegion r f).trust = s.trust := rfl
@[simp] theorem State.modRegion_pair (r : Nat) (f : RegionSt → RegionSt) : (s.modRegion r f).pair = s.pair := rfl
@[simp] theorem State.modRegion_bist (r : Nat) (f : RegionSt → RegionSt) : (s.modRegion r f).bist = s.bist := rfl
@[simp] theorem State.modRegion_pins (r : Nat) (f : RegionSt → RegionSt) : (s.modRegion r f).pins = s.pins := rfl
@[simp] theorem State.modRegion_host (r : Nat) (f : RegionSt → RegionSt) : (s.modRegion r f).host = s.host := rfl

@[simp] theorem State.modDom_pending (d : Nat) (f : DomSt → DomSt) : (s.modDom d f).pending = s.pending := rfl
@[simp] theorem State.modDom_regs (d : Nat) (f : DomSt → DomSt) : (s.modDom d f).regs = s.regs := rfl
@[simp] theorem State.modDom_latch (d : Nat) (f : DomSt → DomSt) : (s.modDom d f).latch = s.latch := rfl
@[simp] theorem State.modDom_staged (d : Nat) (f : DomSt → DomSt) : (s.modDom d f).staged = s.staged := rfl
@[simp] theorem State.modDom_ctr (d : Nat) (f : DomSt → DomSt) : (s.modDom d f).ctr = s.ctr := rfl
@[simp] theorem State.modDom_dram (d : Nat) (f : DomSt → DomSt) : (s.modDom d f).dram = s.dram := rfl
@[simp] theorem State.modDom_shm (d : Nat) (f : DomSt → DomSt) : (s.modDom d f).shm = s.shm := rfl
@[simp] theorem State.modDom_lmem (d : Nat) (f : DomSt → DomSt) : (s.modDom d f).lmem = s.lmem := rfl
@[simp] theorem State.modDom_dly (d : Nat) (f : DomSt → DomSt) : (s.modDom d f).dly = s.dly := rfl
@[simp] theorem State.modDom_glz (d : Nat) (f : DomSt → DomSt) : (s.modDom d f).glz = s.glz := rfl
@[simp] theorem State.modDom_stage (d : Nat) (f : DomSt → DomSt) : (s.modDom d f).stage = s.stage := rfl
@[simp] theorem State.modDom_hostMem (d : Nat) (f : DomSt → DomSt) : (s.modDom d f).hostMem = s.hostMem := rfl
@[simp] theorem State.modDom_prog (d : Nat) (f : DomSt → DomSt) : (s.modDom d f).prog = s.prog := rfl
@[simp] theorem State.modDom_units (d : Nat) (f : DomSt → DomSt) : (s.modDom d f).units = s.units := rfl
@[simp] theorem State.modDom_clusters (d : Nat) (f : DomSt → DomSt) : (s.modDom d f).clusters = s.clusters := rfl
@[simp] theorem State.modDom_regions (d : Nat) (f : DomSt → DomSt) : (s.modDom d f).regions = s.regions := rfl
@[simp] theorem State.modDom_xbar (d : Nat) (f : DomSt → DomSt) : (s.modDom d f).xbar = s.xbar := rfl
@[simp] theorem State.modDom_mix (d : Nat) (f : DomSt → DomSt) : (s.modDom d f).mix = s.mix := rfl
@[simp] theorem State.modDom_sched (d : Nat) (f : DomSt → DomSt) : (s.modDom d f).sched = s.sched := rfl
@[simp] theorem State.modDom_pours (d : Nat) (f : DomSt → DomSt) : (s.modDom d f).pours = s.pours := rfl
@[simp] theorem State.modDom_time (d : Nat) (f : DomSt → DomSt) : (s.modDom d f).time = s.time := rfl
@[simp] theorem State.modDom_net (d : Nat) (f : DomSt → DomSt) : (s.modDom d f).net = s.net := rfl
@[simp] theorem State.modDom_audio (d : Nat) (f : DomSt → DomSt) : (s.modDom d f).audio = s.audio := rfl
@[simp] theorem State.modDom_wl (d : Nat) (f : DomSt → DomSt) : (s.modDom d f).wl = s.wl := rfl
@[simp] theorem State.modDom_huba (d : Nat) (f : DomSt → DomSt) : (s.modDom d f).huba = s.huba := rfl
@[simp] theorem State.modDom_surf (d : Nat) (f : DomSt → DomSt) : (s.modDom d f).surf = s.surf := rfl
@[simp] theorem State.modDom_store (d : Nat) (f : DomSt → DomSt) : (s.modDom d f).store = s.store := rfl
@[simp] theorem State.modDom_pwr (d : Nat) (f : DomSt → DomSt) : (s.modDom d f).pwr = s.pwr := rfl
@[simp] theorem State.modDom_trust (d : Nat) (f : DomSt → DomSt) : (s.modDom d f).trust = s.trust := rfl
@[simp] theorem State.modDom_pair (d : Nat) (f : DomSt → DomSt) : (s.modDom d f).pair = s.pair := rfl
@[simp] theorem State.modDom_bist (d : Nat) (f : DomSt → DomSt) : (s.modDom d f).bist = s.bist := rfl
@[simp] theorem State.modDom_pins (d : Nat) (f : DomSt → DomSt) : (s.modDom d f).pins = s.pins := rfl
@[simp] theorem State.modDom_host (d : Nat) (f : DomSt → DomSt) : (s.modDom d f).host = s.host := rfl

@[simp] theorem State.modMix_pending (f : MixSt → MixSt) : (s.modMix f).pending = s.pending := rfl
@[simp] theorem State.modMix_regs (f : MixSt → MixSt) : (s.modMix f).regs = s.regs := rfl
@[simp] theorem State.modMix_latch (f : MixSt → MixSt) : (s.modMix f).latch = s.latch := rfl
@[simp] theorem State.modMix_staged (f : MixSt → MixSt) : (s.modMix f).staged = s.staged := rfl
@[simp] theorem State.modMix_ctr (f : MixSt → MixSt) : (s.modMix f).ctr = s.ctr := rfl
@[simp] theorem State.modMix_dram (f : MixSt → MixSt) : (s.modMix f).dram = s.dram := rfl
@[simp] theorem State.modMix_shm (f : MixSt → MixSt) : (s.modMix f).shm = s.shm := rfl
@[simp] theorem State.modMix_lmem (f : MixSt → MixSt) : (s.modMix f).lmem = s.lmem := rfl
@[simp] theorem State.modMix_dly (f : MixSt → MixSt) : (s.modMix f).dly = s.dly := rfl
@[simp] theorem State.modMix_glz (f : MixSt → MixSt) : (s.modMix f).glz = s.glz := rfl
@[simp] theorem State.modMix_stage (f : MixSt → MixSt) : (s.modMix f).stage = s.stage := rfl
@[simp] theorem State.modMix_hostMem (f : MixSt → MixSt) : (s.modMix f).hostMem = s.hostMem := rfl
@[simp] theorem State.modMix_prog (f : MixSt → MixSt) : (s.modMix f).prog = s.prog := rfl
@[simp] theorem State.modMix_units (f : MixSt → MixSt) : (s.modMix f).units = s.units := rfl
@[simp] theorem State.modMix_clusters (f : MixSt → MixSt) : (s.modMix f).clusters = s.clusters := rfl
@[simp] theorem State.modMix_regions (f : MixSt → MixSt) : (s.modMix f).regions = s.regions := rfl
@[simp] theorem State.modMix_xbar (f : MixSt → MixSt) : (s.modMix f).xbar = s.xbar := rfl
@[simp] theorem State.modMix_doms (f : MixSt → MixSt) : (s.modMix f).doms = s.doms := rfl
@[simp] theorem State.modMix_sched (f : MixSt → MixSt) : (s.modMix f).sched = s.sched := rfl
@[simp] theorem State.modMix_pours (f : MixSt → MixSt) : (s.modMix f).pours = s.pours := rfl
@[simp] theorem State.modMix_time (f : MixSt → MixSt) : (s.modMix f).time = s.time := rfl
@[simp] theorem State.modMix_net (f : MixSt → MixSt) : (s.modMix f).net = s.net := rfl
@[simp] theorem State.modMix_audio (f : MixSt → MixSt) : (s.modMix f).audio = s.audio := rfl
@[simp] theorem State.modMix_wl (f : MixSt → MixSt) : (s.modMix f).wl = s.wl := rfl
@[simp] theorem State.modMix_huba (f : MixSt → MixSt) : (s.modMix f).huba = s.huba := rfl
@[simp] theorem State.modMix_surf (f : MixSt → MixSt) : (s.modMix f).surf = s.surf := rfl
@[simp] theorem State.modMix_store (f : MixSt → MixSt) : (s.modMix f).store = s.store := rfl
@[simp] theorem State.modMix_pwr (f : MixSt → MixSt) : (s.modMix f).pwr = s.pwr := rfl
@[simp] theorem State.modMix_trust (f : MixSt → MixSt) : (s.modMix f).trust = s.trust := rfl
@[simp] theorem State.modMix_pair (f : MixSt → MixSt) : (s.modMix f).pair = s.pair := rfl
@[simp] theorem State.modMix_bist (f : MixSt → MixSt) : (s.modMix f).bist = s.bist := rfl
@[simp] theorem State.modMix_pins (f : MixSt → MixSt) : (s.modMix f).pins = s.pins := rfl
@[simp] theorem State.modMix_host (f : MixSt → MixSt) : (s.modMix f).host = s.host := rfl

@[simp] theorem State.modSched_pending (f : SchedSt → SchedSt) : (s.modSched f).pending = s.pending := rfl
@[simp] theorem State.modSched_regs (f : SchedSt → SchedSt) : (s.modSched f).regs = s.regs := rfl
@[simp] theorem State.modSched_latch (f : SchedSt → SchedSt) : (s.modSched f).latch = s.latch := rfl
@[simp] theorem State.modSched_staged (f : SchedSt → SchedSt) : (s.modSched f).staged = s.staged := rfl
@[simp] theorem State.modSched_ctr (f : SchedSt → SchedSt) : (s.modSched f).ctr = s.ctr := rfl
@[simp] theorem State.modSched_dram (f : SchedSt → SchedSt) : (s.modSched f).dram = s.dram := rfl
@[simp] theorem State.modSched_shm (f : SchedSt → SchedSt) : (s.modSched f).shm = s.shm := rfl
@[simp] theorem State.modSched_lmem (f : SchedSt → SchedSt) : (s.modSched f).lmem = s.lmem := rfl
@[simp] theorem State.modSched_dly (f : SchedSt → SchedSt) : (s.modSched f).dly = s.dly := rfl
@[simp] theorem State.modSched_glz (f : SchedSt → SchedSt) : (s.modSched f).glz = s.glz := rfl
@[simp] theorem State.modSched_stage (f : SchedSt → SchedSt) : (s.modSched f).stage = s.stage := rfl
@[simp] theorem State.modSched_hostMem (f : SchedSt → SchedSt) : (s.modSched f).hostMem = s.hostMem := rfl
@[simp] theorem State.modSched_prog (f : SchedSt → SchedSt) : (s.modSched f).prog = s.prog := rfl
@[simp] theorem State.modSched_units (f : SchedSt → SchedSt) : (s.modSched f).units = s.units := rfl
@[simp] theorem State.modSched_clusters (f : SchedSt → SchedSt) : (s.modSched f).clusters = s.clusters := rfl
@[simp] theorem State.modSched_regions (f : SchedSt → SchedSt) : (s.modSched f).regions = s.regions := rfl
@[simp] theorem State.modSched_xbar (f : SchedSt → SchedSt) : (s.modSched f).xbar = s.xbar := rfl
@[simp] theorem State.modSched_doms (f : SchedSt → SchedSt) : (s.modSched f).doms = s.doms := rfl
@[simp] theorem State.modSched_mix (f : SchedSt → SchedSt) : (s.modSched f).mix = s.mix := rfl
@[simp] theorem State.modSched_pours (f : SchedSt → SchedSt) : (s.modSched f).pours = s.pours := rfl
@[simp] theorem State.modSched_time (f : SchedSt → SchedSt) : (s.modSched f).time = s.time := rfl
@[simp] theorem State.modSched_net (f : SchedSt → SchedSt) : (s.modSched f).net = s.net := rfl
@[simp] theorem State.modSched_audio (f : SchedSt → SchedSt) : (s.modSched f).audio = s.audio := rfl
@[simp] theorem State.modSched_wl (f : SchedSt → SchedSt) : (s.modSched f).wl = s.wl := rfl
@[simp] theorem State.modSched_huba (f : SchedSt → SchedSt) : (s.modSched f).huba = s.huba := rfl
@[simp] theorem State.modSched_surf (f : SchedSt → SchedSt) : (s.modSched f).surf = s.surf := rfl
@[simp] theorem State.modSched_store (f : SchedSt → SchedSt) : (s.modSched f).store = s.store := rfl
@[simp] theorem State.modSched_pwr (f : SchedSt → SchedSt) : (s.modSched f).pwr = s.pwr := rfl
@[simp] theorem State.modSched_trust (f : SchedSt → SchedSt) : (s.modSched f).trust = s.trust := rfl
@[simp] theorem State.modSched_pair (f : SchedSt → SchedSt) : (s.modSched f).pair = s.pair := rfl
@[simp] theorem State.modSched_bist (f : SchedSt → SchedSt) : (s.modSched f).bist = s.bist := rfl
@[simp] theorem State.modSched_pins (f : SchedSt → SchedSt) : (s.modSched f).pins = s.pins := rfl
@[simp] theorem State.modSched_host (f : SchedSt → SchedSt) : (s.modSched f).host = s.host := rfl

@[simp] theorem State.modHost_pending (f : HostSt → HostSt) : (s.modHost f).pending = s.pending := rfl
@[simp] theorem State.modHost_regs (f : HostSt → HostSt) : (s.modHost f).regs = s.regs := rfl
@[simp] theorem State.modHost_latch (f : HostSt → HostSt) : (s.modHost f).latch = s.latch := rfl
@[simp] theorem State.modHost_staged (f : HostSt → HostSt) : (s.modHost f).staged = s.staged := rfl
@[simp] theorem State.modHost_ctr (f : HostSt → HostSt) : (s.modHost f).ctr = s.ctr := rfl
@[simp] theorem State.modHost_dram (f : HostSt → HostSt) : (s.modHost f).dram = s.dram := rfl
@[simp] theorem State.modHost_shm (f : HostSt → HostSt) : (s.modHost f).shm = s.shm := rfl
@[simp] theorem State.modHost_lmem (f : HostSt → HostSt) : (s.modHost f).lmem = s.lmem := rfl
@[simp] theorem State.modHost_dly (f : HostSt → HostSt) : (s.modHost f).dly = s.dly := rfl
@[simp] theorem State.modHost_glz (f : HostSt → HostSt) : (s.modHost f).glz = s.glz := rfl
@[simp] theorem State.modHost_stage (f : HostSt → HostSt) : (s.modHost f).stage = s.stage := rfl
@[simp] theorem State.modHost_hostMem (f : HostSt → HostSt) : (s.modHost f).hostMem = s.hostMem := rfl
@[simp] theorem State.modHost_prog (f : HostSt → HostSt) : (s.modHost f).prog = s.prog := rfl
@[simp] theorem State.modHost_units (f : HostSt → HostSt) : (s.modHost f).units = s.units := rfl
@[simp] theorem State.modHost_clusters (f : HostSt → HostSt) : (s.modHost f).clusters = s.clusters := rfl
@[simp] theorem State.modHost_regions (f : HostSt → HostSt) : (s.modHost f).regions = s.regions := rfl
@[simp] theorem State.modHost_xbar (f : HostSt → HostSt) : (s.modHost f).xbar = s.xbar := rfl
@[simp] theorem State.modHost_doms (f : HostSt → HostSt) : (s.modHost f).doms = s.doms := rfl
@[simp] theorem State.modHost_mix (f : HostSt → HostSt) : (s.modHost f).mix = s.mix := rfl
@[simp] theorem State.modHost_sched (f : HostSt → HostSt) : (s.modHost f).sched = s.sched := rfl
@[simp] theorem State.modHost_pours (f : HostSt → HostSt) : (s.modHost f).pours = s.pours := rfl
@[simp] theorem State.modHost_time (f : HostSt → HostSt) : (s.modHost f).time = s.time := rfl
@[simp] theorem State.modHost_net (f : HostSt → HostSt) : (s.modHost f).net = s.net := rfl
@[simp] theorem State.modHost_audio (f : HostSt → HostSt) : (s.modHost f).audio = s.audio := rfl
@[simp] theorem State.modHost_wl (f : HostSt → HostSt) : (s.modHost f).wl = s.wl := rfl
@[simp] theorem State.modHost_huba (f : HostSt → HostSt) : (s.modHost f).huba = s.huba := rfl
@[simp] theorem State.modHost_surf (f : HostSt → HostSt) : (s.modHost f).surf = s.surf := rfl
@[simp] theorem State.modHost_store (f : HostSt → HostSt) : (s.modHost f).store = s.store := rfl
@[simp] theorem State.modHost_pwr (f : HostSt → HostSt) : (s.modHost f).pwr = s.pwr := rfl
@[simp] theorem State.modHost_trust (f : HostSt → HostSt) : (s.modHost f).trust = s.trust := rfl
@[simp] theorem State.modHost_pair (f : HostSt → HostSt) : (s.modHost f).pair = s.pair := rfl
@[simp] theorem State.modHost_bist (f : HostSt → HostSt) : (s.modHost f).bist = s.bist := rfl
@[simp] theorem State.modHost_pins (f : HostSt → HostSt) : (s.modHost f).pins = s.pins := rfl

@[simp] theorem State.finish_pending (h : CmdHdr) (c : Nat) (st : Status) (d si r : Nat) : (s.finish h c st d si r).pending = s.pending := rfl
@[simp] theorem State.finish_regs (h : CmdHdr) (c : Nat) (st : Status) (d si r : Nat) : (s.finish h c st d si r).regs = s.regs := rfl
@[simp] theorem State.finish_latch (h : CmdHdr) (c : Nat) (st : Status) (d si r : Nat) : (s.finish h c st d si r).latch = s.latch := rfl
@[simp] theorem State.finish_staged (h : CmdHdr) (c : Nat) (st : Status) (d si r : Nat) : (s.finish h c st d si r).staged = s.staged := rfl
@[simp] theorem State.finish_ctr (h : CmdHdr) (c : Nat) (st : Status) (d si r : Nat) : (s.finish h c st d si r).ctr = s.ctr := rfl
@[simp] theorem State.finish_dram (h : CmdHdr) (c : Nat) (st : Status) (d si r : Nat) : (s.finish h c st d si r).dram = s.dram := rfl
@[simp] theorem State.finish_shm (h : CmdHdr) (c : Nat) (st : Status) (d si r : Nat) : (s.finish h c st d si r).shm = s.shm := rfl
@[simp] theorem State.finish_lmem (h : CmdHdr) (c : Nat) (st : Status) (d si r : Nat) : (s.finish h c st d si r).lmem = s.lmem := rfl
@[simp] theorem State.finish_dly (h : CmdHdr) (c : Nat) (st : Status) (d si r : Nat) : (s.finish h c st d si r).dly = s.dly := rfl
@[simp] theorem State.finish_glz (h : CmdHdr) (c : Nat) (st : Status) (d si r : Nat) : (s.finish h c st d si r).glz = s.glz := rfl
@[simp] theorem State.finish_stage (h : CmdHdr) (c : Nat) (st : Status) (d si r : Nat) : (s.finish h c st d si r).stage = s.stage := rfl
@[simp] theorem State.finish_hostMem (h : CmdHdr) (c : Nat) (st : Status) (d si r : Nat) : (s.finish h c st d si r).hostMem = s.hostMem := rfl
@[simp] theorem State.finish_prog (h : CmdHdr) (c : Nat) (st : Status) (d si r : Nat) : (s.finish h c st d si r).prog = s.prog := rfl
@[simp] theorem State.finish_units (h : CmdHdr) (c : Nat) (st : Status) (d si r : Nat) : (s.finish h c st d si r).units = s.units := rfl
@[simp] theorem State.finish_clusters (h : CmdHdr) (c : Nat) (st : Status) (d si r : Nat) : (s.finish h c st d si r).clusters = s.clusters := rfl
@[simp] theorem State.finish_regions (h : CmdHdr) (c : Nat) (st : Status) (d si r : Nat) : (s.finish h c st d si r).regions = s.regions := rfl
@[simp] theorem State.finish_xbar (h : CmdHdr) (c : Nat) (st : Status) (d si r : Nat) : (s.finish h c st d si r).xbar = s.xbar := rfl
@[simp] theorem State.finish_doms (h : CmdHdr) (c : Nat) (st : Status) (d si r : Nat) : (s.finish h c st d si r).doms = s.doms := rfl
@[simp] theorem State.finish_mix (h : CmdHdr) (c : Nat) (st : Status) (d si r : Nat) : (s.finish h c st d si r).mix = s.mix := rfl
@[simp] theorem State.finish_sched (h : CmdHdr) (c : Nat) (st : Status) (d si r : Nat) : (s.finish h c st d si r).sched = s.sched := rfl
@[simp] theorem State.finish_pours (h : CmdHdr) (c : Nat) (st : Status) (d si r : Nat) : (s.finish h c st d si r).pours = s.pours := rfl
@[simp] theorem State.finish_time (h : CmdHdr) (c : Nat) (st : Status) (d si r : Nat) : (s.finish h c st d si r).time = s.time := rfl
@[simp] theorem State.finish_net (h : CmdHdr) (c : Nat) (st : Status) (d si r : Nat) : (s.finish h c st d si r).net = s.net := rfl
@[simp] theorem State.finish_audio (h : CmdHdr) (c : Nat) (st : Status) (d si r : Nat) : (s.finish h c st d si r).audio = s.audio := rfl
@[simp] theorem State.finish_wl (h : CmdHdr) (c : Nat) (st : Status) (d si r : Nat) : (s.finish h c st d si r).wl = s.wl := rfl
@[simp] theorem State.finish_huba (h : CmdHdr) (c : Nat) (st : Status) (d si r : Nat) : (s.finish h c st d si r).huba = s.huba := rfl
@[simp] theorem State.finish_surf (h : CmdHdr) (c : Nat) (st : Status) (d si r : Nat) : (s.finish h c st d si r).surf = s.surf := rfl
@[simp] theorem State.finish_store (h : CmdHdr) (c : Nat) (st : Status) (d si r : Nat) : (s.finish h c st d si r).store = s.store := rfl
@[simp] theorem State.finish_pwr (h : CmdHdr) (c : Nat) (st : Status) (d si r : Nat) : (s.finish h c st d si r).pwr = s.pwr := rfl
@[simp] theorem State.finish_trust (h : CmdHdr) (c : Nat) (st : Status) (d si r : Nat) : (s.finish h c st d si r).trust = s.trust := rfl
@[simp] theorem State.finish_pair (h : CmdHdr) (c : Nat) (st : Status) (d si r : Nat) : (s.finish h c st d si r).pair = s.pair := rfl
@[simp] theorem State.finish_bist (h : CmdHdr) (c : Nat) (st : Status) (d si r : Nat) : (s.finish h c st d si r).bist = s.bist := rfl
@[simp] theorem State.finish_pins (h : CmdHdr) (c : Nat) (st : Status) (d si r : Nat) : (s.finish h c st d si r).pins = s.pins := rfl

@[simp] theorem State.refuse_pending (h : CmdHdr) (c : Nat) (st : Status) (x y : Nat) : (s.refuse h c st x y).pending = s.pending := rfl
@[simp] theorem State.refuse_regs (h : CmdHdr) (c : Nat) (st : Status) (x y : Nat) : (s.refuse h c st x y).regs = s.regs := rfl
@[simp] theorem State.refuse_latch (h : CmdHdr) (c : Nat) (st : Status) (x y : Nat) : (s.refuse h c st x y).latch = s.latch := rfl
@[simp] theorem State.refuse_staged (h : CmdHdr) (c : Nat) (st : Status) (x y : Nat) : (s.refuse h c st x y).staged = s.staged := rfl
@[simp] theorem State.refuse_ctr (h : CmdHdr) (c : Nat) (st : Status) (x y : Nat) : (s.refuse h c st x y).ctr = s.ctr := rfl
@[simp] theorem State.refuse_dram (h : CmdHdr) (c : Nat) (st : Status) (x y : Nat) : (s.refuse h c st x y).dram = s.dram := rfl
@[simp] theorem State.refuse_shm (h : CmdHdr) (c : Nat) (st : Status) (x y : Nat) : (s.refuse h c st x y).shm = s.shm := rfl
@[simp] theorem State.refuse_lmem (h : CmdHdr) (c : Nat) (st : Status) (x y : Nat) : (s.refuse h c st x y).lmem = s.lmem := rfl
@[simp] theorem State.refuse_dly (h : CmdHdr) (c : Nat) (st : Status) (x y : Nat) : (s.refuse h c st x y).dly = s.dly := rfl
@[simp] theorem State.refuse_glz (h : CmdHdr) (c : Nat) (st : Status) (x y : Nat) : (s.refuse h c st x y).glz = s.glz := rfl
@[simp] theorem State.refuse_stage (h : CmdHdr) (c : Nat) (st : Status) (x y : Nat) : (s.refuse h c st x y).stage = s.stage := rfl
@[simp] theorem State.refuse_hostMem (h : CmdHdr) (c : Nat) (st : Status) (x y : Nat) : (s.refuse h c st x y).hostMem = s.hostMem := rfl
@[simp] theorem State.refuse_prog (h : CmdHdr) (c : Nat) (st : Status) (x y : Nat) : (s.refuse h c st x y).prog = s.prog := rfl
@[simp] theorem State.refuse_units (h : CmdHdr) (c : Nat) (st : Status) (x y : Nat) : (s.refuse h c st x y).units = s.units := rfl
@[simp] theorem State.refuse_clusters (h : CmdHdr) (c : Nat) (st : Status) (x y : Nat) : (s.refuse h c st x y).clusters = s.clusters := rfl
@[simp] theorem State.refuse_regions (h : CmdHdr) (c : Nat) (st : Status) (x y : Nat) : (s.refuse h c st x y).regions = s.regions := rfl
@[simp] theorem State.refuse_xbar (h : CmdHdr) (c : Nat) (st : Status) (x y : Nat) : (s.refuse h c st x y).xbar = s.xbar := rfl
@[simp] theorem State.refuse_doms (h : CmdHdr) (c : Nat) (st : Status) (x y : Nat) : (s.refuse h c st x y).doms = s.doms := rfl
@[simp] theorem State.refuse_mix (h : CmdHdr) (c : Nat) (st : Status) (x y : Nat) : (s.refuse h c st x y).mix = s.mix := rfl
@[simp] theorem State.refuse_sched (h : CmdHdr) (c : Nat) (st : Status) (x y : Nat) : (s.refuse h c st x y).sched = s.sched := rfl
@[simp] theorem State.refuse_pours (h : CmdHdr) (c : Nat) (st : Status) (x y : Nat) : (s.refuse h c st x y).pours = s.pours := rfl
@[simp] theorem State.refuse_time (h : CmdHdr) (c : Nat) (st : Status) (x y : Nat) : (s.refuse h c st x y).time = s.time := rfl
@[simp] theorem State.refuse_net (h : CmdHdr) (c : Nat) (st : Status) (x y : Nat) : (s.refuse h c st x y).net = s.net := rfl
@[simp] theorem State.refuse_audio (h : CmdHdr) (c : Nat) (st : Status) (x y : Nat) : (s.refuse h c st x y).audio = s.audio := rfl
@[simp] theorem State.refuse_wl (h : CmdHdr) (c : Nat) (st : Status) (x y : Nat) : (s.refuse h c st x y).wl = s.wl := rfl
@[simp] theorem State.refuse_huba (h : CmdHdr) (c : Nat) (st : Status) (x y : Nat) : (s.refuse h c st x y).huba = s.huba := rfl
@[simp] theorem State.refuse_surf (h : CmdHdr) (c : Nat) (st : Status) (x y : Nat) : (s.refuse h c st x y).surf = s.surf := rfl
@[simp] theorem State.refuse_store (h : CmdHdr) (c : Nat) (st : Status) (x y : Nat) : (s.refuse h c st x y).store = s.store := rfl
@[simp] theorem State.refuse_pwr (h : CmdHdr) (c : Nat) (st : Status) (x y : Nat) : (s.refuse h c st x y).pwr = s.pwr := rfl
@[simp] theorem State.refuse_trust (h : CmdHdr) (c : Nat) (st : Status) (x y : Nat) : (s.refuse h c st x y).trust = s.trust := rfl
@[simp] theorem State.refuse_pair (h : CmdHdr) (c : Nat) (st : Status) (x y : Nat) : (s.refuse h c st x y).pair = s.pair := rfl
@[simp] theorem State.refuse_bist (h : CmdHdr) (c : Nat) (st : Status) (x y : Nat) : (s.refuse h c st x y).bist = s.bist := rfl
@[simp] theorem State.refuse_pins (h : CmdHdr) (c : Nat) (st : Status) (x y : Nat) : (s.refuse h c st x y).pins = s.pins := rfl

@[simp] theorem State.ok_pending (h : CmdHdr) (c : Nat) : (s.ok h c).pending = s.pending := rfl
@[simp] theorem State.ok_regs (h : CmdHdr) (c : Nat) : (s.ok h c).regs = s.regs := rfl
@[simp] theorem State.ok_latch (h : CmdHdr) (c : Nat) : (s.ok h c).latch = s.latch := rfl
@[simp] theorem State.ok_staged (h : CmdHdr) (c : Nat) : (s.ok h c).staged = s.staged := rfl
@[simp] theorem State.ok_ctr (h : CmdHdr) (c : Nat) : (s.ok h c).ctr = s.ctr := rfl
@[simp] theorem State.ok_dram (h : CmdHdr) (c : Nat) : (s.ok h c).dram = s.dram := rfl
@[simp] theorem State.ok_shm (h : CmdHdr) (c : Nat) : (s.ok h c).shm = s.shm := rfl
@[simp] theorem State.ok_lmem (h : CmdHdr) (c : Nat) : (s.ok h c).lmem = s.lmem := rfl
@[simp] theorem State.ok_dly (h : CmdHdr) (c : Nat) : (s.ok h c).dly = s.dly := rfl
@[simp] theorem State.ok_glz (h : CmdHdr) (c : Nat) : (s.ok h c).glz = s.glz := rfl
@[simp] theorem State.ok_stage (h : CmdHdr) (c : Nat) : (s.ok h c).stage = s.stage := rfl
@[simp] theorem State.ok_hostMem (h : CmdHdr) (c : Nat) : (s.ok h c).hostMem = s.hostMem := rfl
@[simp] theorem State.ok_prog (h : CmdHdr) (c : Nat) : (s.ok h c).prog = s.prog := rfl
@[simp] theorem State.ok_units (h : CmdHdr) (c : Nat) : (s.ok h c).units = s.units := rfl
@[simp] theorem State.ok_clusters (h : CmdHdr) (c : Nat) : (s.ok h c).clusters = s.clusters := rfl
@[simp] theorem State.ok_regions (h : CmdHdr) (c : Nat) : (s.ok h c).regions = s.regions := rfl
@[simp] theorem State.ok_xbar (h : CmdHdr) (c : Nat) : (s.ok h c).xbar = s.xbar := rfl
@[simp] theorem State.ok_doms (h : CmdHdr) (c : Nat) : (s.ok h c).doms = s.doms := rfl
@[simp] theorem State.ok_mix (h : CmdHdr) (c : Nat) : (s.ok h c).mix = s.mix := rfl
@[simp] theorem State.ok_sched (h : CmdHdr) (c : Nat) : (s.ok h c).sched = s.sched := rfl
@[simp] theorem State.ok_pours (h : CmdHdr) (c : Nat) : (s.ok h c).pours = s.pours := rfl
@[simp] theorem State.ok_time (h : CmdHdr) (c : Nat) : (s.ok h c).time = s.time := rfl
@[simp] theorem State.ok_net (h : CmdHdr) (c : Nat) : (s.ok h c).net = s.net := rfl
@[simp] theorem State.ok_audio (h : CmdHdr) (c : Nat) : (s.ok h c).audio = s.audio := rfl
@[simp] theorem State.ok_wl (h : CmdHdr) (c : Nat) : (s.ok h c).wl = s.wl := rfl
@[simp] theorem State.ok_huba (h : CmdHdr) (c : Nat) : (s.ok h c).huba = s.huba := rfl
@[simp] theorem State.ok_surf (h : CmdHdr) (c : Nat) : (s.ok h c).surf = s.surf := rfl
@[simp] theorem State.ok_store (h : CmdHdr) (c : Nat) : (s.ok h c).store = s.store := rfl
@[simp] theorem State.ok_pwr (h : CmdHdr) (c : Nat) : (s.ok h c).pwr = s.pwr := rfl
@[simp] theorem State.ok_trust (h : CmdHdr) (c : Nat) : (s.ok h c).trust = s.trust := rfl
@[simp] theorem State.ok_pair (h : CmdHdr) (c : Nat) : (s.ok h c).pair = s.pair := rfl
@[simp] theorem State.ok_bist (h : CmdHdr) (c : Nat) : (s.ok h c).bist = s.bist := rfl
@[simp] theorem State.ok_pins (h : CmdHdr) (c : Nat) : (s.ok h c).pins = s.pins := rfl

@[simp] theorem State.take_pending : (s.take).pending = s.pending := rfl
@[simp] theorem State.take_regs : (s.take).regs = s.regs := rfl
@[simp] theorem State.take_latch : (s.take).latch = s.latch := rfl
@[simp] theorem State.take_staged : (s.take).staged = s.staged := rfl
@[simp] theorem State.take_dram : (s.take).dram = s.dram := rfl
@[simp] theorem State.take_shm : (s.take).shm = s.shm := rfl
@[simp] theorem State.take_lmem : (s.take).lmem = s.lmem := rfl
@[simp] theorem State.take_dly : (s.take).dly = s.dly := rfl
@[simp] theorem State.take_glz : (s.take).glz = s.glz := rfl
@[simp] theorem State.take_stage : (s.take).stage = s.stage := rfl
@[simp] theorem State.take_hostMem : (s.take).hostMem = s.hostMem := rfl
@[simp] theorem State.take_prog : (s.take).prog = s.prog := rfl
@[simp] theorem State.take_units : (s.take).units = s.units := rfl
@[simp] theorem State.take_clusters : (s.take).clusters = s.clusters := rfl
@[simp] theorem State.take_regions : (s.take).regions = s.regions := rfl
@[simp] theorem State.take_xbar : (s.take).xbar = s.xbar := rfl
@[simp] theorem State.take_doms : (s.take).doms = s.doms := rfl
@[simp] theorem State.take_mix : (s.take).mix = s.mix := rfl
@[simp] theorem State.take_sched : (s.take).sched = s.sched := rfl
@[simp] theorem State.take_pours : (s.take).pours = s.pours := rfl
@[simp] theorem State.take_time : (s.take).time = s.time := rfl
@[simp] theorem State.take_net : (s.take).net = s.net := rfl
@[simp] theorem State.take_audio : (s.take).audio = s.audio := rfl
@[simp] theorem State.take_wl : (s.take).wl = s.wl := rfl
@[simp] theorem State.take_huba : (s.take).huba = s.huba := rfl
@[simp] theorem State.take_surf : (s.take).surf = s.surf := rfl
@[simp] theorem State.take_store : (s.take).store = s.store := rfl
@[simp] theorem State.take_pwr : (s.take).pwr = s.pwr := rfl
@[simp] theorem State.take_trust : (s.take).trust = s.trust := rfl
@[simp] theorem State.take_pair : (s.take).pair = s.pair := rfl
@[simp] theorem State.take_bist : (s.take).bist = s.bist := rfl
@[simp] theorem State.take_pins : (s.take).pins = s.pins := rfl
@[simp] theorem State.take_host : (s.take).host = s.host := rfl

/-! ### Register fields -/

theorem State.get_put (f g : Fld) (v : Nat) :
    (s.put f v).get g = if g.key = f.key then v % 2 ^ f.w else s.get g := Tab.get_put 0 s.regs f.key g.key _

@[simp] theorem State.get_put_same (f : Fld) (v : Nat) : (s.put f v).get f = v % 2 ^ f.w := by simp [State.get_put]

theorem State.get_put_ne {f g : Fld} (h : g.key ≠ f.key) (v : Nat) : (s.put f v).get g = s.get g := by
  simp [State.get_put, h]

theorem State.bit_put_ne {f g : Fld} (h : g.key ≠ f.key) (v : Nat) : (s.put f v).bit g = s.bit g := by
  simp [State.bit, State.get_put_ne s h]

/-- A field below its width is read back as it was written. -/
theorem State.get_put_lt (f : Fld) (v : Nat) (h : v < 2 ^ f.w) : (s.put f v).get f = v := by
  rw [State.get_put_same, Nat.mod_eq_of_lt h]

theorem State.put_regs_wf (f : Fld) (v : Nat) (w : Tab.wf 0 s.regs = true) : Tab.wf 0 (s.put f v).regs = true :=
  Tab.put_wf 0 s.regs _ _ w

/-! ### Reads that an operation on another field does not change -/

@[simp] theorem State.unit_put (f : Fld) (v : Nat) (j : Nat) : (s.put f v).unit j = s.unit j := rfl
@[simp] theorem State.cluster_put (f : Fld) (v : Nat) (j : Nat) : (s.put f v).cluster j = s.cluster j := rfl
@[simp] theorem State.region_put (f : Fld) (v : Nat) (j : Nat) : (s.put f v).region j = s.region j := rfl
@[simp] theorem State.dom_put (f : Fld) (v : Nat) (j : Nat) : (s.put f v).dom j = s.dom j := rfl

@[simp] theorem State.unit_set (f : Fld) (j : Nat) : (s.set f).unit j = s.unit j := rfl
@[simp] theorem State.cluster_set (f : Fld) (j : Nat) : (s.set f).cluster j = s.cluster j := rfl
@[simp] theorem State.region_set (f : Fld) (j : Nat) : (s.set f).region j = s.region j := rfl
@[simp] theorem State.dom_set (f : Fld) (j : Nat) : (s.set f).dom j = s.dom j := rfl

@[simp] theorem State.unit_putBit (f : Fld) (b : Bool) (j : Nat) : (s.putBit f b).unit j = s.unit j := rfl
@[simp] theorem State.cluster_putBit (f : Fld) (b : Bool) (j : Nat) : (s.putBit f b).cluster j = s.cluster j := rfl
@[simp] theorem State.region_putBit (f : Fld) (b : Bool) (j : Nat) : (s.putBit f b).region j = s.region j := rfl
@[simp] theorem State.dom_putBit (f : Fld) (b : Bool) (j : Nat) : (s.putBit f b).dom j = s.dom j := rfl

@[simp] theorem State.unit_setMask (f : Fld) (k : Nat) (j : Nat) : (s.setMask f k).unit j = s.unit j := rfl
@[simp] theorem State.cluster_setMask (f : Fld) (k : Nat) (j : Nat) : (s.setMask f k).cluster j = s.cluster j := rfl
@[simp] theorem State.region_setMask (f : Fld) (k : Nat) (j : Nat) : (s.setMask f k).region j = s.region j := rfl
@[simp] theorem State.dom_setMask (f : Fld) (k : Nat) (j : Nat) : (s.setMask f k).dom j = s.dom j := rfl

@[simp] theorem State.unit_clrMask (f : Fld) (k : Nat) (j : Nat) : (s.clrMask f k).unit j = s.unit j := rfl
@[simp] theorem State.cluster_clrMask (f : Fld) (k : Nat) (j : Nat) : (s.clrMask f k).cluster j = s.cluster j := rfl
@[simp] theorem State.region_clrMask (f : Fld) (k : Nat) (j : Nat) : (s.clrMask f k).region j = s.region j := rfl
@[simp] theorem State.dom_clrMask (f : Fld) (k : Nat) (j : Nat) : (s.clrMask f k).dom j = s.dom j := rfl

@[simp] theorem State.unit_bumpBy (f : Fld) (n : Nat) (j : Nat) : (s.bumpBy f n).unit j = s.unit j := rfl
@[simp] theorem State.cluster_bumpBy (f : Fld) (n : Nat) (j : Nat) : (s.bumpBy f n).cluster j = s.cluster j := rfl
@[simp] theorem State.region_bumpBy (f : Fld) (n : Nat) (j : Nat) : (s.bumpBy f n).region j = s.region j := rfl
@[simp] theorem State.dom_bumpBy (f : Fld) (n : Nat) (j : Nat) : (s.bumpBy f n).dom j = s.dom j := rfl

@[simp] theorem State.unit_bump (f : Fld) (j : Nat) : (s.bump f).unit j = s.unit j := rfl
@[simp] theorem State.cluster_bump (f : Fld) (j : Nat) : (s.bump f).cluster j = s.cluster j := rfl
@[simp] theorem State.region_bump (f : Fld) (j : Nat) : (s.bump f).region j = s.region j := rfl
@[simp] theorem State.dom_bump (f : Fld) (j : Nat) : (s.bump f).dom j = s.dom j := rfl

@[simp] theorem State.get_setUnit (u : Nat) (x : UnitSt) (g : Fld) : (s.setUnit u x).get g = s.get g := rfl
@[simp] theorem State.bit_setUnit (u : Nat) (x : UnitSt) (g : Fld) : (s.setUnit u x).bit g = s.bit g := rfl
@[simp] theorem State.cluster_setUnit (u : Nat) (x : UnitSt) (j : Nat) : (s.setUnit u x).cluster j = s.cluster j := rfl
@[simp] theorem State.region_setUnit (u : Nat) (x : UnitSt) (j : Nat) : (s.setUnit u x).region j = s.region j := rfl
@[simp] theorem State.dom_setUnit (u : Nat) (x : UnitSt) (j : Nat) : (s.setUnit u x).dom j = s.dom j := rfl

@[simp] theorem State.get_modUnit (u : Nat) (f : UnitSt → UnitSt) (g : Fld) : (s.modUnit u f).get g = s.get g := rfl
@[simp] theorem State.bit_modUnit (u : Nat) (f : UnitSt → UnitSt) (g : Fld) : (s.modUnit u f).bit g = s.bit g := rfl
@[simp] theorem State.cluster_modUnit (u : Nat) (f : UnitSt → UnitSt) (j : Nat) : (s.modUnit u f).cluster j = s.cluster j := rfl
@[simp] theorem State.region_modUnit (u : Nat) (f : UnitSt → UnitSt) (j : Nat) : (s.modUnit u f).region j = s.region j := rfl
@[simp] theorem State.dom_modUnit (u : Nat) (f : UnitSt → UnitSt) (j : Nat) : (s.modUnit u f).dom j = s.dom j := rfl

@[simp] theorem State.get_setCluster (c : Nat) (x : ClusterSt) (g : Fld) : (s.setCluster c x).get g = s.get g := rfl
@[simp] theorem State.bit_setCluster (c : Nat) (x : ClusterSt) (g : Fld) : (s.setCluster c x).bit g = s.bit g := rfl
@[simp] theorem State.unit_setCluster (c : Nat) (x : ClusterSt) (j : Nat) : (s.setCluster c x).unit j = s.unit j := rfl
@[simp] theorem State.region_setCluster (c : Nat) (x : ClusterSt) (j : Nat) : (s.setCluster c x).region j = s.region j := rfl
@[simp] theorem State.dom_setCluster (c : Nat) (x : ClusterSt) (j : Nat) : (s.setCluster c x).dom j = s.dom j := rfl

@[simp] theorem State.get_modCluster (c : Nat) (f : ClusterSt → ClusterSt) (g : Fld) : (s.modCluster c f).get g = s.get g := rfl
@[simp] theorem State.bit_modCluster (c : Nat) (f : ClusterSt → ClusterSt) (g : Fld) : (s.modCluster c f).bit g = s.bit g := rfl
@[simp] theorem State.unit_modCluster (c : Nat) (f : ClusterSt → ClusterSt) (j : Nat) : (s.modCluster c f).unit j = s.unit j := rfl
@[simp] theorem State.region_modCluster (c : Nat) (f : ClusterSt → ClusterSt) (j : Nat) : (s.modCluster c f).region j = s.region j := rfl
@[simp] theorem State.dom_modCluster (c : Nat) (f : ClusterSt → ClusterSt) (j : Nat) : (s.modCluster c f).dom j = s.dom j := rfl

@[simp] theorem State.get_modRegion (r : Nat) (f : RegionSt → RegionSt) (g : Fld) : (s.modRegion r f).get g = s.get g := rfl
@[simp] theorem State.bit_modRegion (r : Nat) (f : RegionSt → RegionSt) (g : Fld) : (s.modRegion r f).bit g = s.bit g := rfl
@[simp] theorem State.unit_modRegion (r : Nat) (f : RegionSt → RegionSt) (j : Nat) : (s.modRegion r f).unit j = s.unit j := rfl
@[simp] theorem State.cluster_modRegion (r : Nat) (f : RegionSt → RegionSt) (j : Nat) : (s.modRegion r f).cluster j = s.cluster j := rfl
@[simp] theorem State.dom_modRegion (r : Nat) (f : RegionSt → RegionSt) (j : Nat) : (s.modRegion r f).dom j = s.dom j := rfl

@[simp] theorem State.get_modDom (d : Nat) (f : DomSt → DomSt) (g : Fld) : (s.modDom d f).get g = s.get g := rfl
@[simp] theorem State.bit_modDom (d : Nat) (f : DomSt → DomSt) (g : Fld) : (s.modDom d f).bit g = s.bit g := rfl
@[simp] theorem State.unit_modDom (d : Nat) (f : DomSt → DomSt) (j : Nat) : (s.modDom d f).unit j = s.unit j := rfl
@[simp] theorem State.cluster_modDom (d : Nat) (f : DomSt → DomSt) (j : Nat) : (s.modDom d f).cluster j = s.cluster j := rfl
@[simp] theorem State.region_modDom (d : Nat) (f : DomSt → DomSt) (j : Nat) : (s.modDom d f).region j = s.region j := rfl

@[simp] theorem State.get_modMix (f : MixSt → MixSt) (g : Fld) : (s.modMix f).get g = s.get g := rfl
@[simp] theorem State.bit_modMix (f : MixSt → MixSt) (g : Fld) : (s.modMix f).bit g = s.bit g := rfl
@[simp] theorem State.unit_modMix (f : MixSt → MixSt) (j : Nat) : (s.modMix f).unit j = s.unit j := rfl
@[simp] theorem State.cluster_modMix (f : MixSt → MixSt) (j : Nat) : (s.modMix f).cluster j = s.cluster j := rfl
@[simp] theorem State.region_modMix (f : MixSt → MixSt) (j : Nat) : (s.modMix f).region j = s.region j := rfl
@[simp] theorem State.dom_modMix (f : MixSt → MixSt) (j : Nat) : (s.modMix f).dom j = s.dom j := rfl

@[simp] theorem State.get_modSched (f : SchedSt → SchedSt) (g : Fld) : (s.modSched f).get g = s.get g := rfl
@[simp] theorem State.bit_modSched (f : SchedSt → SchedSt) (g : Fld) : (s.modSched f).bit g = s.bit g := rfl
@[simp] theorem State.unit_modSched (f : SchedSt → SchedSt) (j : Nat) : (s.modSched f).unit j = s.unit j := rfl
@[simp] theorem State.cluster_modSched (f : SchedSt → SchedSt) (j : Nat) : (s.modSched f).cluster j = s.cluster j := rfl
@[simp] theorem State.region_modSched (f : SchedSt → SchedSt) (j : Nat) : (s.modSched f).region j = s.region j := rfl
@[simp] theorem State.dom_modSched (f : SchedSt → SchedSt) (j : Nat) : (s.modSched f).dom j = s.dom j := rfl

@[simp] theorem State.get_modHost (f : HostSt → HostSt) (g : Fld) : (s.modHost f).get g = s.get g := rfl
@[simp] theorem State.bit_modHost (f : HostSt → HostSt) (g : Fld) : (s.modHost f).bit g = s.bit g := rfl
@[simp] theorem State.unit_modHost (f : HostSt → HostSt) (j : Nat) : (s.modHost f).unit j = s.unit j := rfl
@[simp] theorem State.cluster_modHost (f : HostSt → HostSt) (j : Nat) : (s.modHost f).cluster j = s.cluster j := rfl
@[simp] theorem State.region_modHost (f : HostSt → HostSt) (j : Nat) : (s.modHost f).region j = s.region j := rfl
@[simp] theorem State.dom_modHost (f : HostSt → HostSt) (j : Nat) : (s.modHost f).dom j = s.dom j := rfl

/-! ### Instances -/

theorem State.unit_setUnit (u v : Nat) (x : UnitSt) : (s.setUnit u x).unit v = if v = u then x else s.unit v :=
  Tab.get_put _ s.units u v x

@[simp] theorem State.unit_setUnit_same (u : Nat) (x : UnitSt) : (s.setUnit u x).unit u = x := by simp [State.unit_setUnit]

theorem State.unit_modUnit (u v : Nat) (f : UnitSt → UnitSt) :
    (s.modUnit u f).unit v = if v = u then f (s.unit u) else s.unit v := State.unit_setUnit s u v _

theorem State.cluster_setCluster (u v : Nat) (x : ClusterSt) :
    (s.setCluster u x).cluster v = if v = u then x else s.cluster v := Tab.get_put _ s.clusters u v x

theorem State.cluster_modCluster (u v : Nat) (f : ClusterSt → ClusterSt) :
    (s.modCluster u f).cluster v = if v = u then f (s.cluster u) else s.cluster v := State.cluster_setCluster s u v _

theorem State.region_modRegion (u v : Nat) (f : RegionSt → RegionSt) :
    (s.modRegion u f).region v = if v = u then f (s.region u) else s.region v := Tab.get_put _ s.regions u v _

theorem State.dom_modDom (u v : Nat) (f : DomSt → DomSt) :
    (s.modDom u f).dom v = if v = u then f (s.dom u) else s.dom v := Tab.get_put _ s.doms u v _

end Sys2Proof.Machine
end

