-- ==== Sys2Proof/Laws/Events.lean ====
section
/-! SUPPORT. What posting an event can change: the HOST block of the register table and the host part of the state, and
nothing else. -/

namespace Sys2Proof.Machine

variable (s : State)

theorem key_ne {f g : Fld} (h : f.off ≠ g.off) (hf : f.lo < 32) (hg : g.lo < 32) : f.key ≠ g.key := by
  unfold Fld.key; omega

theorem SameButHost.refl : SameButHost s s := by constructor <;> intros <;> rfl

theorem SameButHost.trans {s t u : State} (a : SameButHost s t) (b : SameButHost t u) : SameButHost s u where
  pending := b.pending.trans a.pending
  latch := b.latch.trans a.latch
  staged := b.staged.trans a.staged
  ctr := b.ctr.trans a.ctr
  dram := b.dram.trans a.dram
  shm := b.shm.trans a.shm
  lmem := b.lmem.trans a.lmem
  dly := b.dly.trans a.dly
  glz := b.glz.trans a.glz
  stage := b.stage.trans a.stage
  prog := b.prog.trans a.prog
  units := b.units.trans a.units
  clusters := b.clusters.trans a.clusters
  regions := b.regions.trans a.regions
  xbar := b.xbar.trans a.xbar
  doms := b.doms.trans a.doms
  mix := b.mix.trans a.mix
  sched := b.sched.trans a.sched
  pours := b.pours.trans a.pours
  time := b.time.trans a.time
  net := b.net.trans a.net
  audio := b.audio.trans a.audio
  wl := b.wl.trans a.wl
  huba := b.huba.trans a.huba
  surf := b.surf.trans a.surf
  store := b.store.trans a.store
  pwr := b.pwr.trans a.pwr
  trust := b.trust.trans a.trust
  pair := b.pair.trans a.pair
  bist := b.bist.trans a.bist
  pins := b.pins.trans a.pins
  get f h k := (b.get f h k).trans (a.get f h k)

theorem SameButHost.put (g : Fld) (v : Nat) (l : g.lo < 32) (h : 0x4000 ≤ g.off ∧ g.off < 0x5000) : SameButHost s (s.put g v) := by
  constructor <;> intros <;> try rfl
  rename_i f hf ho
  exact State.get_put_ne s (key_ne (by unfold Fld.outsideHost at ho; omega) hf l) v

theorem SameButHost.modHost (f : HostSt → HostSt) : SameButHost s (s.modHost f) := by constructor <;> intros <;> rfl

theorem SameButHost.raiseVector (v : Nat) : SameButHost s (s.raiseVector v) := .modHost s _

theorem SameButHost.bumpBy (g : Fld) (n : Nat) (l : g.lo < 32) (h : 0x4000 ≤ g.off ∧ g.off < 0x5000) :
    SameButHost s (s.bumpBy g n) := .put s g _ l h

theorem SameButHost.hold (r : Nat) (h : Held) : SameButHost s (s.hold r h) := by
  unfold State.hold
  dsimp only
  split
  · exact .modHost s _
  · exact ((SameButHost.modHost s _).trans (.bumpBy _ _ _ (by decide) (by decide))).trans (.put _ _ _ (by decide) (by decide))

theorem SameButHost.stopEvRing (r : Nat) (hr : r < 4) : SameButHost s (s.stopEvRing r) := by
  unfold State.stopEvRing
  exact ((SameButHost.put s _ _ (by simp [Reg.HOST_ERING_ERR_CODE]) (by simp [Reg.HOST_ERING_ERR_CODE]; omega)).trans
    (.put _ _ _ (by decide) (by decide))).trans (.hold _ _ _)

theorem SameButHost.hostWrite (a : Nat) (bs : List Byte) : SameButHost s (s.hostWrite a bs) := by
  constructor <;> intros <;> rfl

theorem SameButHost.putEvent (r : Nat) (h : Held) (b : Bool) (hr : r < 4) : SameButHost s (s.putEvent r h b) := by
  unfold State.putEvent
  exact (((SameButHost.hostWrite s _ _).trans (.modHost _ _)).trans (.put _ _ _ (by simp [Reg.HOST_ERING_TAIL_POS])
    (by simp [Reg.HOST_ERING_TAIL_POS]; omega))).trans (.raiseVector _ _)

theorem SameButHost.writeEvent (r : Nat) (h : Held) (hr : r < 4) : SameButHost s (s.writeEvent r h) := by
  unfold State.writeEvent
  split_ifs
  · exact (SameButHost.stopEvRing s r hr).trans (.hold _ _ _)
  · exact .modHost s _
  · exact .putEvent s r h true hr
  · exact .putEvent s r h false hr
  · exact .modHost s _

theorem SameButHost.postTo (r : Nat) (e : Event) (v : Option Nat) (hr : r < 4) : SameButHost s (s.postTo r e v) := by
  unfold State.postTo
  dsimp only
  split
  · exact .writeEvent s r _ hr
  · exact .hold s r _

/-- Posting an event of a class changes nothing but the HOST registers and the host part. -/
theorem SameButHost.post (c : EvClass) (v : Option Nat) (e : Event) : SameButHost s (s.post c v e) :=
  .postTo s _ e v (Nat.mod_lt _ (by omega))

theorem SameButHost.postNow (c : EvClass) (v : Option Nat) (k : Nat) (b : List Nat) : SameButHost s (s.postNow c v k b) :=
  .post s c v _

@[simp] theorem State.post_pending (c : EvClass) (v : Option Nat) (e : Event) : (s.post c v e).pending = s.pending := (SameButHost.post s c v e).pending
@[simp] theorem State.postNow_pending (c : EvClass) (v : Option Nat) (k : Nat) (b : List Nat) : (s.postNow c v k b).pending = s.pending := (SameButHost.postNow s c v k b).pending
@[simp] theorem State.post_latch (c : EvClass) (v : Option Nat) (e : Event) : (s.post c v e).latch = s.latch := (SameButHost.post s c v e).latch
@[simp] theorem State.postNow_latch (c : EvClass) (v : Option Nat) (k : Nat) (b : List Nat) : (s.postNow c v k b).latch = s.latch := (SameButHost.postNow s c v k b).latch
@[simp] theorem State.post_staged (c : EvClass) (v : Option Nat) (e : Event) : (s.post c v e).staged = s.staged := (SameButHost.post s c v e).staged
@[simp] theorem State.postNow_staged (c : EvClass) (v : Option Nat) (k : Nat) (b : List Nat) : (s.postNow c v k b).staged = s.staged := (SameButHost.postNow s c v k b).staged
@[simp] theorem State.post_ctr (c : EvClass) (v : Option Nat) (e : Event) : (s.post c v e).ctr = s.ctr := (SameButHost.post s c v e).ctr
@[simp] theorem State.postNow_ctr (c : EvClass) (v : Option Nat) (k : Nat) (b : List Nat) : (s.postNow c v k b).ctr = s.ctr := (SameButHost.postNow s c v k b).ctr
@[simp] theorem State.post_dram (c : EvClass) (v : Option Nat) (e : Event) : (s.post c v e).dram = s.dram := (SameButHost.post s c v e).dram
@[simp] theorem State.postNow_dram (c : EvClass) (v : Option Nat) (k : Nat) (b : List Nat) : (s.postNow c v k b).dram = s.dram := (SameButHost.postNow s c v k b).dram
@[simp] theorem State.post_shm (c : EvClass) (v : Option Nat) (e : Event) : (s.post c v e).shm = s.shm := (SameButHost.post s c v e).shm
@[simp] theorem State.postNow_shm (c : EvClass) (v : Option Nat) (k : Nat) (b : List Nat) : (s.postNow c v k b).shm = s.shm := (SameButHost.postNow s c v k b).shm
@[simp] theorem State.post_lmem (c : EvClass) (v : Option Nat) (e : Event) : (s.post c v e).lmem = s.lmem := (SameButHost.post s c v e).lmem
@[simp] theorem State.postNow_lmem (c : EvClass) (v : Option Nat) (k : Nat) (b : List Nat) : (s.postNow c v k b).lmem = s.lmem := (SameButHost.postNow s c v k b).lmem
@[simp] theorem State.post_dly (c : EvClass) (v : Option Nat) (e : Event) : (s.post c v e).dly = s.dly := (SameButHost.post s c v e).dly
@[simp] theorem State.postNow_dly (c : EvClass) (v : Option Nat) (k : Nat) (b : List Nat) : (s.postNow c v k b).dly = s.dly := (SameButHost.postNow s c v k b).dly
@[simp] theorem State.post_glz (c : EvClass) (v : Option Nat) (e : Event) : (s.post c v e).glz = s.glz := (SameButHost.post s c v e).glz
@[simp] theorem State.postNow_glz (c : EvClass) (v : Option Nat) (k : Nat) (b : List Nat) : (s.postNow c v k b).glz = s.glz := (SameButHost.postNow s c v k b).glz
@[simp] theorem State.post_stage (c : EvClass) (v : Option Nat) (e : Event) : (s.post c v e).stage = s.stage := (SameButHost.post s c v e).stage
@[simp] theorem State.postNow_stage (c : EvClass) (v : Option Nat) (k : Nat) (b : List Nat) : (s.postNow c v k b).stage = s.stage := (SameButHost.postNow s c v k b).stage
@[simp] theorem State.post_prog (c : EvClass) (v : Option Nat) (e : Event) : (s.post c v e).prog = s.prog := (SameButHost.post s c v e).prog
@[simp] theorem State.postNow_prog (c : EvClass) (v : Option Nat) (k : Nat) (b : List Nat) : (s.postNow c v k b).prog = s.prog := (SameButHost.postNow s c v k b).prog
@[simp] theorem State.post_units (c : EvClass) (v : Option Nat) (e : Event) : (s.post c v e).units = s.units := (SameButHost.post s c v e).units
@[simp] theorem State.postNow_units (c : EvClass) (v : Option Nat) (k : Nat) (b : List Nat) : (s.postNow c v k b).units = s.units := (SameButHost.postNow s c v k b).units
@[simp] theorem State.post_clusters (c : EvClass) (v : Option Nat) (e : Event) : (s.post c v e).clusters = s.clusters := (SameButHost.post s c v e).clusters
@[simp] theorem State.postNow_clusters (c : EvClass) (v : Option Nat) (k : Nat) (b : List Nat) : (s.postNow c v k b).clusters = s.clusters := (SameButHost.postNow s c v k b).clusters
@[simp] theorem State.post_regions (c : EvClass) (v : Option Nat) (e : Event) : (s.post c v e).regions = s.regions := (SameButHost.post s c v e).regions
@[simp] theorem State.postNow_regions (c : EvClass) (v : Option Nat) (k : Nat) (b : List Nat) : (s.postNow c v k b).regions = s.regions := (SameButHost.postNow s c v k b).regions
@[simp] theorem State.post_xbar (c : EvClass) (v : Option Nat) (e : Event) : (s.post c v e).xbar = s.xbar := (SameButHost.post s c v e).xbar
@[simp] theorem State.postNow_xbar (c : EvClass) (v : Option Nat) (k : Nat) (b : List Nat) : (s.postNow c v k b).xbar = s.xbar := (SameButHost.postNow s c v k b).xbar
@[simp] theorem State.post_doms (c : EvClass) (v : Option Nat) (e : Event) : (s.post c v e).doms = s.doms := (SameButHost.post s c v e).doms
@[simp] theorem State.postNow_doms (c : EvClass) (v : Option Nat) (k : Nat) (b : List Nat) : (s.postNow c v k b).doms = s.doms := (SameButHost.postNow s c v k b).doms
@[simp] theorem State.post_mix (c : EvClass) (v : Option Nat) (e : Event) : (s.post c v e).mix = s.mix := (SameButHost.post s c v e).mix
@[simp] theorem State.postNow_mix (c : EvClass) (v : Option Nat) (k : Nat) (b : List Nat) : (s.postNow c v k b).mix = s.mix := (SameButHost.postNow s c v k b).mix
@[simp] theorem State.post_sched (c : EvClass) (v : Option Nat) (e : Event) : (s.post c v e).sched = s.sched := (SameButHost.post s c v e).sched
@[simp] theorem State.postNow_sched (c : EvClass) (v : Option Nat) (k : Nat) (b : List Nat) : (s.postNow c v k b).sched = s.sched := (SameButHost.postNow s c v k b).sched
@[simp] theorem State.post_pours (c : EvClass) (v : Option Nat) (e : Event) : (s.post c v e).pours = s.pours := (SameButHost.post s c v e).pours
@[simp] theorem State.postNow_pours (c : EvClass) (v : Option Nat) (k : Nat) (b : List Nat) : (s.postNow c v k b).pours = s.pours := (SameButHost.postNow s c v k b).pours
@[simp] theorem State.post_time (c : EvClass) (v : Option Nat) (e : Event) : (s.post c v e).time = s.time := (SameButHost.post s c v e).time
@[simp] theorem State.postNow_time (c : EvClass) (v : Option Nat) (k : Nat) (b : List Nat) : (s.postNow c v k b).time = s.time := (SameButHost.postNow s c v k b).time
@[simp] theorem State.post_net (c : EvClass) (v : Option Nat) (e : Event) : (s.post c v e).net = s.net := (SameButHost.post s c v e).net
@[simp] theorem State.postNow_net (c : EvClass) (v : Option Nat) (k : Nat) (b : List Nat) : (s.postNow c v k b).net = s.net := (SameButHost.postNow s c v k b).net
@[simp] theorem State.post_audio (c : EvClass) (v : Option Nat) (e : Event) : (s.post c v e).audio = s.audio := (SameButHost.post s c v e).audio
@[simp] theorem State.postNow_audio (c : EvClass) (v : Option Nat) (k : Nat) (b : List Nat) : (s.postNow c v k b).audio = s.audio := (SameButHost.postNow s c v k b).audio
@[simp] theorem State.post_wl (c : EvClass) (v : Option Nat) (e : Event) : (s.post c v e).wl = s.wl := (SameButHost.post s c v e).wl
@[simp] theorem State.postNow_wl (c : EvClass) (v : Option Nat) (k : Nat) (b : List Nat) : (s.postNow c v k b).wl = s.wl := (SameButHost.postNow s c v k b).wl
@[simp] theorem State.post_huba (c : EvClass) (v : Option Nat) (e : Event) : (s.post c v e).huba = s.huba := (SameButHost.post s c v e).huba
@[simp] theorem State.postNow_huba (c : EvClass) (v : Option Nat) (k : Nat) (b : List Nat) : (s.postNow c v k b).huba = s.huba := (SameButHost.postNow s c v k b).huba
@[simp] theorem State.post_surf (c : EvClass) (v : Option Nat) (e : Event) : (s.post c v e).surf = s.surf := (SameButHost.post s c v e).surf
@[simp] theorem State.postNow_surf (c : EvClass) (v : Option Nat) (k : Nat) (b : List Nat) : (s.postNow c v k b).surf = s.surf := (SameButHost.postNow s c v k b).surf
@[simp] theorem State.post_store (c : EvClass) (v : Option Nat) (e : Event) : (s.post c v e).store = s.store := (SameButHost.post s c v e).store
@[simp] theorem State.postNow_store (c : EvClass) (v : Option Nat) (k : Nat) (b : List Nat) : (s.postNow c v k b).store = s.store := (SameButHost.postNow s c v k b).store
@[simp] theorem State.post_pwr (c : EvClass) (v : Option Nat) (e : Event) : (s.post c v e).pwr = s.pwr := (SameButHost.post s c v e).pwr
@[simp] theorem State.postNow_pwr (c : EvClass) (v : Option Nat) (k : Nat) (b : List Nat) : (s.postNow c v k b).pwr = s.pwr := (SameButHost.postNow s c v k b).pwr
@[simp] theorem State.post_trust (c : EvClass) (v : Option Nat) (e : Event) : (s.post c v e).trust = s.trust := (SameButHost.post s c v e).trust
@[simp] theorem State.postNow_trust (c : EvClass) (v : Option Nat) (k : Nat) (b : List Nat) : (s.postNow c v k b).trust = s.trust := (SameButHost.postNow s c v k b).trust
@[simp] theorem State.post_pair (c : EvClass) (v : Option Nat) (e : Event) : (s.post c v e).pair = s.pair := (SameButHost.post s c v e).pair
@[simp] theorem State.postNow_pair (c : EvClass) (v : Option Nat) (k : Nat) (b : List Nat) : (s.postNow c v k b).pair = s.pair := (SameButHost.postNow s c v k b).pair
@[simp] theorem State.post_bist (c : EvClass) (v : Option Nat) (e : Event) : (s.post c v e).bist = s.bist := (SameButHost.post s c v e).bist
@[simp] theorem State.postNow_bist (c : EvClass) (v : Option Nat) (k : Nat) (b : List Nat) : (s.postNow c v k b).bist = s.bist := (SameButHost.postNow s c v k b).bist
@[simp] theorem State.post_pins (c : EvClass) (v : Option Nat) (e : Event) : (s.post c v e).pins = s.pins := (SameButHost.post s c v e).pins
@[simp] theorem State.postNow_pins (c : EvClass) (v : Option Nat) (k : Nat) (b : List Nat) : (s.postNow c v k b).pins = s.pins := (SameButHost.postNow s c v k b).pins
@[simp] theorem State.unit_post (c : EvClass) (v : Option Nat) (e : Event) (j : Nat) : (s.post c v e).unit j = s.unit j := by unfold State.unit; rw [State.post_units]
@[simp] theorem State.unit_postNow (c : EvClass) (v : Option Nat) (k : Nat) (b : List Nat) (j : Nat) : (s.postNow c v k b).unit j = s.unit j := by unfold State.unit; rw [State.postNow_units]
@[simp] theorem State.cluster_post (c : EvClass) (v : Option Nat) (e : Event) (j : Nat) : (s.post c v e).cluster j = s.cluster j := by unfold State.cluster; rw [State.post_clusters]
@[simp] theorem State.cluster_postNow (c : EvClass) (v : Option Nat) (k : Nat) (b : List Nat) (j : Nat) : (s.postNow c v k b).cluster j = s.cluster j := by unfold State.cluster; rw [State.postNow_clusters]
@[simp] theorem State.region_post (c : EvClass) (v : Option Nat) (e : Event) (j : Nat) : (s.post c v e).region j = s.region j := by unfold State.region; rw [State.post_regions]
@[simp] theorem State.region_postNow (c : EvClass) (v : Option Nat) (k : Nat) (b : List Nat) (j : Nat) : (s.postNow c v k b).region j = s.region j := by unfold State.region; rw [State.postNow_regions]
@[simp] theorem State.dom_post (c : EvClass) (v : Option Nat) (e : Event) (j : Nat) : (s.post c v e).dom j = s.dom j := by unfold State.dom; rw [State.post_doms]
@[simp] theorem State.dom_postNow (c : EvClass) (v : Option Nat) (k : Nat) (b : List Nat) (j : Nat) : (s.postNow c v k b).dom j = s.dom j := by unfold State.dom; rw [State.postNow_doms]

theorem State.get_post (c : EvClass) (v : Option Nat) (e : Event) (f : Fld) (l : f.lo < 32) (h : f.outsideHost) :
    (s.post c v e).get f = s.get f := (SameButHost.post s c v e).get f l h

theorem State.get_postNow (c : EvClass) (v : Option Nat) (k : Nat) (b : List Nat) (f : Fld) (l : f.lo < 32) (h : f.outsideHost) :
    (s.postNow c v k b).get f = s.get f := (SameButHost.postNow s c v k b).get f l h

end Sys2Proof.Machine
end

