-- ==== Sys2Proof/Laws/Issue.lean ====
section
/-! SUPPORT. What the issue of an operation does: the check of its fields, its guard, its act and the end of its bundle. -/

namespace Sys2Proof.Machine

variable {s : State} {o : Op}

/-! ### The mark of a bundle changes nothing an operation reads -/

@[simp] theorem UnitSt.opened_getF (x : UnitSt) (n : Nat) : x.opened.getF n = x.getF n := by unfold UnitSt.opened; split <;> rfl
@[simp] theorem UnitSt.opened_getA (x : UnitSt) (n : Nat) : x.opened.getA n = x.getA n := by unfold UnitSt.opened; split <;> rfl
@[simp] theorem UnitSt.opened_getP (x : UnitSt) (n : Nat) : x.opened.getP n = x.getP n := by unfold UnitSt.opened; split <;> rfl
@[simp] theorem UnitSt.opened_phys (x : UnitSt) (n : Nat) : x.opened.phys n = x.phys n := by unfold UnitSt.opened; split <;> rfl
@[simp] theorem UnitSt.opened_bI (x : UnitSt) (m b : Nat) : x.opened.bI m b = x.bI m b := by unfold UnitSt.opened; split <;> rfl
@[simp] theorem UnitSt.opened_cyc (x : UnitSt) : x.opened.cyc = x.cyc := by unfold UnitSt.opened; split <;> rfl
@[simp] theorem UnitSt.opened_flight (x : UnitSt) : x.opened.flight = x.flight := by unfold UnitSt.opened; split <;> rfl
@[simp] theorem UnitSt.opened_wait (x : UnitSt) : x.opened.wait = x.wait := by unfold UnitSt.opened; split <;> rfl
@[simp] theorem UnitSt.opened_delay (x : UnitSt) : x.opened.delay = x.delay := by unfold UnitSt.opened; split <;> rfl
@[simp] theorem UnitSt.opened_pc (x : UnitSt) : x.opened.pc = x.pc := by unfold UnitSt.opened; split <;> rfl
@[simp] theorem UnitSt.opened_iflags (x : UnitSt) : x.opened.iflags = x.iflags := by unfold UnitSt.opened; split <;> rfl
@[simp] theorem UnitSt.opened_fnew (x : UnitSt) : x.opened.fnew = x.fnew := by unfold UnitSt.opened; split <;> rfl
@[simp] theorem UnitSt.opened_ten (x : UnitSt) : x.opened.ten = x.ten := by unfold UnitSt.opened; split <;> rfl
@[simp] theorem UnitSt.opened_fifo (x : UnitSt) : x.opened.fifo = x.fifo := by unfold UnitSt.opened; split <;> rfl
@[simp] theorem UnitSt.opened_opened (x : UnitSt) : x.opened.opened = x.opened := by
  cases h : x.mid <;> simp only [UnitSt.opened, h]

/-! ### Issue -/

/-- An issued operation acts on what it finds, and nothing but its unit changes. -/
theorem State.issue_issued (h : s.issues o) (act : UnitSt → UnitSt) : s.issue o act = s.leaves o (act (s.finds o)) := by
  simp [State.issue, State.leaves, State.finds, h.1, h.2]

/-- A guard that reads 0 leaves only the end of the bundle (R189). -/
theorem State.issue_guarded (r : (s.unit o.u.val).wait = .run) (g : (s.unit o.u.val).getP o.pred.val = false)
    (act : UnitSt → UnitSt) : s.issue o act = s.leaves o (s.finds o) := by
  simp [State.issue, State.leaves, State.finds, r, g]

/-- A unit that does not run issues nothing (R186). -/
theorem State.issue_waits (r : (s.unit o.u.val).wait ≠ .run) (act : UnitSt → UnitSt) : s.issue o act = s := by
  simp [State.issue, r]

/-- An operation whose fields its encoding allows goes on. -/
theorem State.legal_ok (slot : Nat) (go : Out) (r : (s.unit o.u.val).wait = .run) : s.legal o slot none go = go := by
  simp [State.legal, r]

/-- A field that must not be as it is takes the ILLEGAL trap with the item it breaks (R179, R206, R233). -/
theorem State.legal_traps (slot n : Nat) (go : Out) (r : (s.unit o.u.val).wait = .run) :
    s.legal o slot (some n) go = .next (s.faultTrap o.u.val 1 n slot) := by simp [State.legal, r]

theorem State.legal_waits (slot : Nat) (i : Option Nat) (go : Out) (r : (s.unit o.u.val).wait ≠ .run) :
    s.legal o slot i go = .next s := by simp [State.legal, r]

/-- The end of a bundle reaches no unit but that of the operation. -/
@[simp] theorem State.unit_leaves (x : UnitSt) (u : Nat) :
    (s.leaves o x).unit u = if u = o.u.val then x.after o else s.unit u := State.unit_setUnit s _ u _

@[simp] theorem State.leaves_regs (x : UnitSt) : (s.leaves o x).regs = s.regs := rfl
@[simp] theorem State.leaves_lmem (x : UnitSt) : (s.leaves o x).lmem = s.lmem := rfl
@[simp] theorem State.leaves_shm (x : UnitSt) : (s.leaves o x).shm = s.shm := rfl

end Sys2Proof.Machine
end

