-- ==== Sys2Proof/Laws/PerInstr.lean ====
section
/-! SUPPORT. Statements about every command, one lemma per constructor. -/

namespace Sys2Proof.Laws

/-- A well-formed command that came by a ring or an urgent slot carries a 32-bit TAG and a 64-bit TARGET (R434). -/
def HeaderWidths.Statement (i : Instr) : Prop :=
  i.wf = true → ∀ h, i.header = some h → h.tag < 2 ^ 32 ∧ h.target < 2 ^ 64

/-- The widths of a header, from its own check. -/
theorem header_widths (i : Instr) (hdr : CmdHdr) (e : i.header = some hdr) (w : i.wf = true) :
    hdr.tag < 2 ^ 32 ∧ hdr.target < 2 ^ 64 := by
  simp only [Instr.wf, e, CmdHdr.wf, Bool.and_eq_true, decide_eq_true_eq] at w
  exact ⟨w.2.1.1, w.2.2⟩

theorem HeaderWidths.fma (o : Op) : HeaderWidths.Statement (.fma o) := fun w k e => header_widths _ k e w
theorem HeaderWidths.fms (o : Op) : HeaderWidths.Statement (.fms o) := fun w k e => header_widths _ k e w
theorem HeaderWidths.fnma (o : Op) : HeaderWidths.Statement (.fnma o) := fun w k e => header_widths _ k e w
theorem HeaderWidths.fmul (o : Op) : HeaderWidths.Statement (.fmul o) := fun w k e => header_widths _ k e w
theorem HeaderWidths.fadd (o : Op) : HeaderWidths.Statement (.fadd o) := fun w k e => header_widths _ k e w
theorem HeaderWidths.fsub (o : Op) : HeaderWidths.Statement (.fsub o) := fun w k e => header_widths _ k e w
theorem HeaderWidths.fmin (o : Op) : HeaderWidths.Statement (.fmin o) := fun w k e => header_widths _ k e w
theorem HeaderWidths.fmax (o : Op) : HeaderWidths.Statement (.fmax o) := fun w k e => header_widths _ k e w
theorem HeaderWidths.fabs (o : Op) : HeaderWidths.Statement (.fabs o) := fun w k e => header_widths _ k e w
theorem HeaderWidths.fneg (o : Op) : HeaderWidths.Statement (.fneg o) := fun w k e => header_widths _ k e w
theorem HeaderWidths.fcmp (o : Op) : HeaderWidths.Statement (.fcmp o) := fun w k e => header_widths _ k e w
theorem HeaderWidths.fsel (o : Op) : HeaderWidths.Statement (.fsel o) := fun w k e => header_widths _ k e w
theorem HeaderWidths.framp (o : Op) : HeaderWidths.Statement (.framp o) := fun w k e => header_widths _ k e w
theorem HeaderWidths.fsat (o : Op) : HeaderWidths.Statement (.fsat o) := fun w k e => header_widths _ k e w
theorem HeaderWidths.fscrub (o : Op) : HeaderWidths.Statement (.fscrub o) := fun w k e => header_widths _ k e w
theorem HeaderWidths.fmov (o : Op) : HeaderWidths.Statement (.fmov o) := fun w k e => header_widths _ k e w
theorem HeaderWidths.fswap (o : Op) : HeaderWidths.Statement (.fswap o) := fun w k e => header_widths _ k e w
theorem HeaderWidths.fcvt (o : Op) : HeaderWidths.Statement (.fcvt o) := fun w k e => header_widths _ k e w
theorem HeaderWidths.frcp (o : Op) : HeaderWidths.Statement (.frcp o) := fun w k e => header_widths _ k e w
theorem HeaderWidths.frsq (o : Op) : HeaderWidths.Statement (.frsq o) := fun w k e => header_widths _ k e w
theorem HeaderWidths.fexp2 (o : Op) : HeaderWidths.Statement (.fexp2 o) := fun w k e => header_widths _ k e w
theorem HeaderWidths.flog2 (o : Op) : HeaderWidths.Statement (.flog2 o) := fun w k e => header_widths _ k e w
theorem HeaderWidths.add (o : Op) : HeaderWidths.Statement (.add o) := fun w k e => header_widths _ k e w
theorem HeaderWidths.sub (o : Op) : HeaderWidths.Statement (.sub o) := fun w k e => header_widths _ k e w
theorem HeaderWidths.adds (o : Op) : HeaderWidths.Statement (.adds o) := fun w k e => header_widths _ k e w
theorem HeaderWidths.subs (o : Op) : HeaderWidths.Statement (.subs o) := fun w k e => header_widths _ k e w
theorem HeaderWidths.neg (o : Op) : HeaderWidths.Statement (.neg o) := fun w k e => header_widths _ k e w
theorem HeaderWidths.negs (o : Op) : HeaderWidths.Statement (.negs o) := fun w k e => header_widths _ k e w
theorem HeaderWidths.and (o : Op) : HeaderWidths.Statement (.and o) := fun w k e => header_widths _ k e w
theorem HeaderWidths.or (o : Op) : HeaderWidths.Statement (.or o) := fun w k e => header_widths _ k e w
theorem HeaderWidths.xor (o : Op) : HeaderWidths.Statement (.xor o) := fun w k e => header_widths _ k e w
theorem HeaderWidths.not (o : Op) : HeaderWidths.Statement (.not o) := fun w k e => header_widths _ k e w
theorem HeaderWidths.shl (o : Op) : HeaderWidths.Statement (.shl o) := fun w k e => header_widths _ k e w
theorem HeaderWidths.shr (o : Op) : HeaderWidths.Statement (.shr o) := fun w k e => header_widths _ k e w
theorem HeaderWidths.sar (o : Op) : HeaderWidths.Statement (.sar o) := fun w k e => header_widths _ k e w
theorem HeaderWidths.rol (o : Op) : HeaderWidths.Statement (.rol o) := fun w k e => header_widths _ k e w
theorem HeaderWidths.mul (o : Op) : HeaderWidths.Statement (.mul o) := fun w k e => header_widths _ k e w
theorem HeaderWidths.mulh (o : Op) : HeaderWidths.Statement (.mulh o) := fun w k e => header_widths _ k e w
theorem HeaderWidths.divs (o : Op) : HeaderWidths.Statement (.divs o) := fun w k e => header_widths _ k e w
theorem HeaderWidths.divu (o : Op) : HeaderWidths.Statement (.divu o) := fun w k e => header_widths _ k e w
theorem HeaderWidths.min (o : Op) : HeaderWidths.Statement (.min o) := fun w k e => header_widths _ k e w
theorem HeaderWidths.max (o : Op) : HeaderWidths.Statement (.max o) := fun w k e => header_widths _ k e w
theorem HeaderWidths.cmp (o : Op) : HeaderWidths.Statement (.cmp o) := fun w k e => header_widths _ k e w
theorem HeaderWidths.movi (o : Op) (imm : BitVec 12) : HeaderWidths.Statement (.movi o imm) := fun w k e => header_widths _ k e w
theorem HeaderWidths.amod (o : Op) : HeaderWidths.Statement (.amod o) := fun w k e => header_widths _ k e w
theorem HeaderWidths.bitrev (o : Op) : HeaderWidths.Statement (.bitrev o) := fun w k e => header_widths _ k e w
theorem HeaderWidths.ldl32a (o : Op) (e : Ecc) : HeaderWidths.Statement (.ldl32a o e) := fun w k e => header_widths _ k e w
theorem HeaderWidths.ldl32f (o : Op) (e : Ecc) : HeaderWidths.Statement (.ldl32f o e) := fun w k e => header_widths _ k e w
theorem HeaderWidths.ldl64 (o : Op) (e : Ecc) : HeaderWidths.Statement (.ldl64 o e) := fun w k e => header_widths _ k e w
theorem HeaderWidths.stl32a (o : Op) (e : Ecc) : HeaderWidths.Statement (.stl32a o e) := fun w k e => header_widths _ k e w
theorem HeaderWidths.stl32f (o : Op) (e : Ecc) : HeaderWidths.Statement (.stl32f o e) := fun w k e => header_widths _ k e w
theorem HeaderWidths.stl64 (o : Op) : HeaderWidths.Statement (.stl64 o) := fun w k e => header_widths _ k e w
theorem HeaderWidths.lds32a (o : Op) : HeaderWidths.Statement (.lds32a o) := fun w k e => header_widths _ k e w
theorem HeaderWidths.lds32f (o : Op) : HeaderWidths.Statement (.lds32f o) := fun w k e => header_widths _ k e w
theorem HeaderWidths.lds64 (o : Op) : HeaderWidths.Statement (.lds64 o) := fun w k e => header_widths _ k e w
theorem HeaderWidths.sts32a (o : Op) : HeaderWidths.Statement (.sts32a o) := fun w k e => header_widths _ k e w
theorem HeaderWidths.sts32f (o : Op) : HeaderWidths.Statement (.sts32f o) := fun w k e => header_widths _ k e w
theorem HeaderWidths.sts64 (o : Op) : HeaderWidths.Statement (.sts64 o) := fun w k e => header_widths _ k e w
theorem HeaderWidths.ldsB256 (o : Op) : HeaderWidths.Statement (.ldsB256 o) := fun w k e => header_widths _ k e w
theorem HeaderWidths.ldp (o : Op) : HeaderWidths.Statement (.ldp o) := fun w k e => header_widths _ k e w
theorem HeaderWidths.ldt (o : Op) : HeaderWidths.Statement (.ldt o) := fun w k e => header_widths _ k e w
theorem HeaderWidths.movfa (o : Op) : HeaderWidths.Statement (.movfa o) := fun w k e => header_widths _ k e w
theorem HeaderWidths.movaf (o : Op) : HeaderWidths.Statement (.movaf o) := fun w k e => header_widths _ k e w
theorem HeaderWidths.br (o : Op) (t : BrTarget) : HeaderWidths.Statement (.br o t) := fun w k e => header_widths _ k e w
theorem HeaderWidths.brc (o : Op) (t : BrTarget) (cp : Fin 8) (sense : Bool) : HeaderWidths.Statement (.brc o t cp sense) := fun w k e => header_widths _ k e w
theorem HeaderWidths.call (o : Op) (t : BrTarget) : HeaderWidths.Statement (.call o t) := fun w k e => header_widths _ k e w
theorem HeaderWidths.ret (o : Op) : HeaderWidths.Statement (.ret o) := fun w k e => header_widths _ k e w
theorem HeaderWidths.loop (o : Op) (level : Fin 4) (c : LoopCount) (fin : Fin 1024) : HeaderWidths.Statement (.loop o level c fin) := fun w k e => header_widths _ k e w
theorem HeaderWidths.halt (o : Op) : HeaderWidths.Statement (.halt o) := fun w k e => header_widths _ k e w
theorem HeaderWidths.trap (o : Op) (code : BitVec 12) : HeaderWidths.Statement (.trap o code) := fun w k e => header_widths _ k e w
theorem HeaderWidths.sync (o : Op) : HeaderWidths.Statement (.sync o) := fun w k e => header_widths _ k e w
theorem HeaderWidths.waitdma (o : Op) : HeaderWidths.Statement (.waitdma o) := fun w k e => header_widths _ k e w
theorem HeaderWidths.movs (o : Op) (sreg : Fin 256) : HeaderWidths.Statement (.movs o sreg) := fun w k e => header_widths _ k e w
theorem HeaderWidths.movx (o : Op) (sreg : Fin 256) : HeaderWidths.Statement (.movx o sreg) := fun w k e => header_widths _ k e w
theorem HeaderWidths.rett (o : Op) : HeaderWidths.Statement (.rett o) := fun w k e => header_widths _ k e w
theorem HeaderWidths.longImmediate (o : Op) (isF : Bool) (imm : BitVec 64) : HeaderWidths.Statement (.longImmediate o isF imm) := fun w k e => header_widths _ k e w
theorem HeaderWidths.resultLands (u : Fin 516) : HeaderWidths.Statement (.resultLands u) := fun w k e => header_widths _ k e w
theorem HeaderWidths.trapEntry (g : GapFetch) : HeaderWidths.Statement (.trapEntry g) := fun w k e => header_widths _ k e w
theorem HeaderWidths.syncRelease (c : Fin 64) : HeaderWidths.Statement (.syncRelease c) := fun w k e => header_widths _ k e w
theorem HeaderWidths.waitdmaRelease (u : Fin 516) : HeaderWidths.Statement (.waitdmaRelease u) := fun w k e => header_widths _ k e w
theorem HeaderWidths.firingEnd (c : Fin 64) : HeaderWidths.Statement (.firingEnd c) := fun w k e => header_widths _ k e w
theorem HeaderWidths.shmReadCycle (c : Fin 64) (t : Nat) (m : RemoteErr) (e : Ecc) : HeaderWidths.Statement (.shmReadCycle c t m e) := fun w k e => header_widths _ k e w
theorem HeaderWidths.shmWriteCycle (c : Fin 64) (t : Nat) (m : RemoteErr) (e : Ecc) : HeaderWidths.Statement (.shmWriteCycle c t m e) := fun w k e => header_widths _ k e w
theorem HeaderWidths.dmaTransferStart (c : Fin 64) : HeaderWidths.Statement (.dmaTransferStart c) := fun w k e => header_widths _ k e w
theorem HeaderWidths.dmaTransferComplete (c : Fin 64) (e : Ecc) (bad : List Nat) : HeaderWidths.Statement (.dmaTransferComplete c e bad) := fun w k e => header_widths _ k e w
theorem HeaderWidths.peekCopy (c : Fin 64) : HeaderWidths.Statement (.peekCopy c) := fun w k e => header_widths _ k e w
theorem HeaderWidths.frameStartMarker (d : Fin 3) (inputs : List PortInput) : HeaderWidths.Statement (.frameStartMarker d inputs) := fun w k e => header_widths _ k e w
theorem HeaderWidths.regionClockStart (g : Fin 8) : HeaderWidths.Statement (.regionClockStart g) := fun w k e => header_widths _ k e w
theorem HeaderWidths.adpllLock (g : Fin 8) : HeaderWidths.Statement (.adpllLock g) := fun w k e => header_widths _ k e w
theorem HeaderWidths.bypassFallback (g : Fin 8) : HeaderWidths.Statement (.bypassFallback g) := fun w k e => header_widths _ k e w
theorem HeaderWidths.adpllLossOfLock (g : Fin 8) : HeaderWidths.Statement (.adpllLossOfLock g) := fun w k e => header_widths _ k e w
theorem HeaderWidths.preheat (c : Fin 64) : HeaderWidths.Statement (.preheat c) := fun w k e => header_widths _ k e w
theorem HeaderWidths.firingStart (c : Fin 64) (f : Fin 4) (codeOk : Bool) (corr : Nat) (bad : List Nat) : HeaderWidths.Statement (.firingStart c f codeOk corr bad) := fun w k e => header_widths _ k e w
theorem HeaderWidths.glazeSectionStart (c : Fin 64) (late : Bool) : HeaderWidths.Statement (.glazeSectionStart c late) := fun w k e => header_widths _ k e w
theorem HeaderWidths.firingBudgetExhausted (c : Fin 64) : HeaderWidths.Statement (.firingBudgetExhausted c) := fun w k e => header_widths _ k e w
theorem HeaderWidths.executionDeadline (c : Fin 64) : HeaderWidths.Statement (.executionDeadline c) := fun w k e => header_widths _ k e w
theorem HeaderWidths.regionClockStop (g : Fin 8) : HeaderWidths.Statement (.regionClockStop g) := fun w k e => header_widths _ k e w
theorem HeaderWidths.scheduleSwitch (d : Fin 3) : HeaderWidths.Statement (.scheduleSwitch d) := fun w k e => header_widths _ k e w
theorem HeaderWidths.admissionComplete : HeaderWidths.Statement (.admissionComplete) := fun w k e => header_widths _ k e w
theorem HeaderWidths.readmission (d : Fin 3) : HeaderWidths.Statement (.readmission d) := fun w k e => header_widths _ k e w
theorem HeaderWidths.spareRotation (g : Fin 8) : HeaderWidths.Statement (.spareRotation g) := fun w k e => header_widths _ k e w
theorem HeaderWidths.spareTestDone (g : Fin 8) (pass : Bool) : HeaderWidths.Statement (.spareTestDone g pass) := fun w k e => header_widths _ k e w
theorem HeaderWidths.paramSet (h : CmdHdr) (ramp : Nat) (l : ListAt) (items : List ParamItem) : HeaderWidths.Statement (.paramSet h ramp l items) := fun w k e => header_widths _ k e w
theorem HeaderWidths.pour (h : CmdHdr) (r : PourReq) : HeaderWidths.Statement (.pour h r) := fun w k e => header_widths _ k e w
theorem HeaderWidths.pourCancel (h : CmdHdr) (tag : Nat) : HeaderWidths.Statement (.pourCancel h tag) := fun w k e => header_widths _ k e w
theorem HeaderWidths.route (h : CmdHdr) (ramp : Nat) (law : Nat) (l : ListAt) (items : List RouteItem) : HeaderWidths.Statement (.route h ramp law l items) := fun w k e => header_widths _ k e w
theorem HeaderWidths.meterSubOpen (h : CmdHdr) (period : Nat) (addr : Nat) (points : List Nat) (buf : Nat) : HeaderWidths.Statement (.meterSubOpen h period addr points buf) := fun w k e => header_widths _ k e w
theorem HeaderWidths.meterSubClose (h : CmdHdr) (n : Nat) : HeaderWidths.Statement (.meterSubClose h n) := fun w k e => header_widths _ k e w
theorem HeaderWidths.progLoad (h : CmdHdr) (kind : Nat) (ring : Nat) (entry : Nat) (length : Nat) : HeaderWidths.Statement (.progLoad h kind ring entry length) := fun w k e => header_widths _ k e w
theorem HeaderWidths.schedAdmit (h : CmdHdr) (kind : Nat) (ring : Nat) (length : Nat) : HeaderWidths.Statement (.schedAdmit h kind ring length) := fun w k e => header_widths _ k e w
theorem HeaderWidths.schedAdmitArm (h : CmdHdr) : HeaderWidths.Statement (.schedAdmitArm h) := fun w k e => header_widths _ k e w
theorem HeaderWidths.schedAdmitReadmit (h : CmdHdr) (indices : List (Fin 68)) : HeaderWidths.Statement (.schedAdmitReadmit h indices) := fun w k e => header_widths _ k e w
theorem HeaderWidths.storeFormat (h : CmdHdr) : HeaderWidths.Statement (.storeFormat h) := fun w k e => header_widths _ k e w
theorem HeaderWidths.storeShare (h : CmdHdr) (dev : Nat) (slot : Nat) : HeaderWidths.Statement (.storeShare h dev slot) := fun w k e => header_widths _ k e w
theorem HeaderWidths.storeList (h : CmdHdr) (addr : Nat) (first : Nat) (count : Nat) : HeaderWidths.Statement (.storeList h addr first count) := fun w k e => header_widths _ k e w
theorem HeaderWidths.storeRecIn (h : CmdHdr) (outSi : Option Nat) (maskAddr : Nat) (tracks : List (Fin 1024)) (domain : Nat) (name : List Byte) : HeaderWidths.Statement (.storeRecIn h outSi maskAddr tracks domain name) := fun w k e => header_widths _ k e w
theorem HeaderWidths.storeRecOut (h : CmdHdr) (tag : Nat) : HeaderWidths.Statement (.storeRecOut h tag) := fun w k e => header_widths _ k e w
theorem HeaderWidths.storePlay (h : CmdHdr) (no : Nat) (recTrack : Nat) (track : Nat) (offset : Nat) (len : Option Nat) : HeaderWidths.Statement (.storePlay h no recTrack track offset len) := fun w k e => header_widths _ k e w
theorem HeaderWidths.storeStop (h : CmdHdr) (tag : Nat) : HeaderWidths.Statement (.storeStop h tag) := fun w k e => header_widths _ k e w
theorem HeaderWidths.storeExport (h : CmdHdr) (ring : Nat) (no : Nat) (track : Nat) (first : Nat) (len : Option Nat) (mode : Nat) : HeaderWidths.Statement (.storeExport h ring no track first len mode) := fun w k e => header_widths _ k e w
theorem HeaderWidths.storeImport (h : CmdHdr) (ring : Nat) (rate : Nat) (count : Nat) (length : Nat) (name : List Byte) : HeaderWidths.Statement (.storeImport h ring rate count length name) := fun w k e => header_widths _ k e w
theorem HeaderWidths.storeDelete (h : CmdHdr) (no : Nat) : HeaderWidths.Statement (.storeDelete h no) := fun w k e => header_widths _ k e w
theorem HeaderWidths.netStreamTx (h : CmdHdr) (addr : Nat) (r : StreamRec) : HeaderWidths.Statement (.netStreamTx h addr r) := fun w k e => header_widths _ k e w
theorem HeaderWidths.netStreamRx (h : CmdHdr) (addr : Nat) (r : StreamRec) : HeaderWidths.Statement (.netStreamRx h addr r) := fun w k e => header_widths _ k e w
theorem HeaderWidths.netStreamDel (h : CmdHdr) (dir : Nat) (n : Nat) : HeaderWidths.Statement (.netStreamDel h dir n) := fun w k e => header_widths _ k e w
theorem HeaderWidths.netStreamStat (h : CmdHdr) (dir : Nat) (first : Nat) (count : Nat) (addr : Nat) : HeaderWidths.Statement (.netStreamStat h dir first count addr) := fun w k e => header_widths _ k e w
theorem HeaderWidths.netClsRule (h : CmdHdr) (addr : Nat) (r : RuleRec) : HeaderWidths.Statement (.netClsRule h addr r) := fun w k e => header_widths _ k e w
theorem HeaderWidths.netCue (h : CmdHdr) (r : CueRec) : HeaderWidths.Statement (.netCue h r) := fun w k e => header_widths _ k e w
theorem HeaderWidths.netJoin (h : CmdHdr) (port : Nat) (op : Nat) (addr : Nat) (group : Nat) (source : Nat) : HeaderWidths.Statement (.netJoin h port op addr group source) := fun w k e => header_widths _ k e w
theorem HeaderWidths.netWlRoute (h : CmdHdr) (addr : Nat) (entries : List (Nat × Nat)) : HeaderWidths.Statement (.netWlRoute h addr entries) := fun w k e => header_widths _ k e w
theorem HeaderWidths.netWlFlowTx (h : CmdHdr) (addr : Nat) (r : FlowRec) : HeaderWidths.Statement (.netWlFlowTx h addr r) := fun w k e => header_widths _ k e w
theorem HeaderWidths.netWlFlowRx (h : CmdHdr) (addr : Nat) (r : FlowRec) : HeaderWidths.Statement (.netWlFlowRx h addr r) := fun w k e => header_widths _ k e w
theorem HeaderWidths.netWlFlowDel (h : CmdHdr) (dir : Nat) (port : Nat) (src : Nat) (flow : Nat) : HeaderWidths.Statement (.netWlFlowDel h dir port src flow) := fun w k e => header_widths _ k e w
theorem HeaderWidths.netWlTransit (h : CmdHdr) (port : Nat) (cells : Nat) : HeaderWidths.Statement (.netWlTransit h port cells) := fun w k e => header_widths _ k e w
theorem HeaderWidths.netWlParam (h : CmdHdr) (dev : Nat) (ramp : Nat) (addr : Nat) (items : List ParamItem) : HeaderWidths.Statement (.netWlParam h dev ramp addr items) := fun w k e => header_widths _ k e w
theorem HeaderWidths.netWlDistribute (h : CmdHdr) (digest : Nat) (addr : Nat) (peers : List Nat) : HeaderWidths.Statement (.netWlDistribute h digest addr peers) := fun w k e => header_widths _ k e w
theorem HeaderWidths.trustAttest (h : CmdHdr) (nonce : BitVec 256) (addr : Nat) : HeaderWidths.Statement (.trustAttest h nonce addr) := fun w k e => header_widths _ k e w
theorem HeaderWidths.trustClaim (h : CmdHdr) (code : BitVec 64) (addr : Nat) (owner : Nat) (sigOk : Bool) : HeaderWidths.Statement (.trustClaim h code addr owner sigOk) := fun w k e => header_widths _ k e w
theorem HeaderWidths.trustRelease (h : CmdHdr) (ring : Nat) (length : Nat) : HeaderWidths.Statement (.trustRelease h ring length) := fun w k e => header_widths _ k e w
theorem HeaderWidths.trustPolicy (h : CmdHdr) (ring : Nat) (length : Nat) : HeaderWidths.Statement (.trustPolicy h ring length) := fun w k e => header_widths _ k e w
theorem HeaderWidths.trustMembers (h : CmdHdr) (ring : Nat) (length : Nat) : HeaderWidths.Statement (.trustMembers h ring length) := fun w k e => header_widths _ k e w
theorem HeaderWidths.trustHouse (h : CmdHdr) (ring : Nat) (length : Nat) : HeaderWidths.Statement (.trustHouse h ring length) := fun w k e => header_widths _ k e w
theorem HeaderWidths.trustFw (h : CmdHdr) (ring : Nat) (length : Nat) : HeaderWidths.Statement (.trustFw h ring length) := fun w k e => header_widths _ k e w
theorem HeaderWidths.trustCert (h : CmdHdr) (addr : Nat) : HeaderWidths.Statement (.trustCert h addr) := fun w k e => header_widths _ k e w
theorem HeaderWidths.trustDebugChallenge (h : CmdHdr) : HeaderWidths.Statement (.trustDebugChallenge h) := fun w k e => header_widths _ k e w
theorem HeaderWidths.trustDebugUnlock (h : CmdHdr) (ring : Nat) (length : Nat) : HeaderWidths.Statement (.trustDebugUnlock h ring length) := fun w k e => header_widths _ k e w
theorem HeaderWidths.hush (h : CmdHdr) (groups : BitVec 64) : HeaderWidths.Statement (.hush h groups) := fun w k e => header_widths _ k e w
theorem HeaderWidths.queryPath (h : CmdHdr) (dst : Nat) (src : Nat) : HeaderWidths.Statement (.queryPath h dst src) := fun w k e => header_widths _ k e w
theorem HeaderWidths.queryPeek (h : CmdHdr) (cluster : Nat) (addr : Nat) : HeaderWidths.Statement (.queryPeek h cluster addr) := fun w k e => header_widths _ k e w
theorem HeaderWidths.queryClear (h : CmdHdr) (clusters : BitVec 64) (regions : BitVec 8) : HeaderWidths.Statement (.queryClear h clusters regions) := fun w k e => header_widths _ k e w
theorem HeaderWidths.queryValue (h : CmdHdr) (handle : Nat) : HeaderWidths.Statement (.queryValue h handle) := fun w k e => header_widths _ k e w
theorem HeaderWidths.pourCompileDone : HeaderWidths.Statement (.pourCompileDone) := fun w k e => header_widths _ k e w
theorem HeaderWidths.pourMessageReceived (m : PourMsg) (authOk : Bool) : HeaderWidths.Statement (.pourMessageReceived m authOk) := fun w k e => header_widths _ k e w
theorem HeaderWidths.pourReportMessage (dev : BitVec 16) (m : PourMsg) (authOk : Bool) : HeaderWidths.Statement (.pourReportMessage dev m authOk) := fun w k e => header_widths _ k e w
theorem HeaderWidths.pourMessageResend (tag : BitVec 32) (dev : BitVec 16) : HeaderWidths.Statement (.pourMessageResend tag dev) := fun w k e => header_widths _ k e w
theorem HeaderWidths.pourStart (origin : BitVec 16) (tag : BitVec 32) : HeaderWidths.Statement (.pourStart origin tag) := fun w k e => header_widths _ k e w
theorem HeaderWidths.pourCancelApply (origin : BitVec 16) (tag : BitVec 32) : HeaderWidths.Statement (.pourCancelApply origin tag) := fun w k e => header_widths _ k e w
theorem HeaderWidths.pourReportTimeout (tag : BitVec 32) (dev : BitVec 16) : HeaderWidths.Statement (.pourReportTimeout tag dev) := fun w k e => header_widths _ k e w
theorem HeaderWidths.candidateQualified (n : Fin 3) (k : Fin 8) : HeaderWidths.Statement (.candidateQualified n k) := fun w k e => header_widths _ k e w
theorem HeaderWidths.candidateLoss (n : Fin 3) (k : Fin 8) : HeaderWidths.Statement (.candidateLoss n k) := fun w k e => header_widths _ k e w
theorem HeaderWidths.revertWtrExpiry (n : Fin 3) (k : Fin 8) : HeaderWidths.Statement (.revertWtrExpiry n k) := fun w k e => header_widths _ k e w
theorem HeaderWidths.mpllComparison (n : Fin 3) (p : PhaseSample) (word : Int) : HeaderWidths.Statement (.mpllComparison n p word) := fun w k e => header_widths _ k e w
theorem HeaderWidths.lockCriterion (n : Fin 3) : HeaderWidths.Statement (.lockCriterion n) := fun w k e => header_widths _ k e w
theorem HeaderWidths.phaseExcursion (n : Fin 3) : HeaderWidths.Statement (.phaseExcursion n) := fun w k e => header_widths _ k e w
theorem HeaderWidths.bandwidthHalving (n : Fin 3) : HeaderWidths.Statement (.bandwidthHalving n) := fun w k e => header_widths _ k e w
theorem HeaderWidths.refxoFail : HeaderWidths.Statement (.refxoFail) := fun w k e => header_widths _ k e w
theorem HeaderWidths.clkMpllDcoWrite (n : Fin 3) (word : BitVec 32) : HeaderWidths.Statement (.clkMpllDcoWrite n word) := fun w k e => header_widths _ k e w
theorem HeaderWidths.roastStart (n : Fin 3) : HeaderWidths.Statement (.roastStart n) := fun w k e => header_widths _ k e w
theorem HeaderWidths.roastAbort (n : Fin 3) (ticks : Nat) : HeaderWidths.Statement (.roastAbort n ticks) := fun w k e => header_widths _ k e w
theorem HeaderWidths.roastProfileBegin (n : Fin 3) : HeaderWidths.Statement (.roastProfileBegin n) := fun w k e => header_widths _ k e w
theorem HeaderWidths.roastSegmentEnd (n : Fin 3) : HeaderWidths.Statement (.roastSegmentEnd n) := fun w k e => header_widths _ k e w
theorem HeaderWidths.renumbering (d : Fin 3) (delta : Int) : HeaderWidths.Statement (.renumbering d delta) := fun w k e => header_widths _ k e w
theorem HeaderWidths.alignComplete (d : Fin 3) : HeaderWidths.Statement (.alignComplete d) := fun w k e => header_widths _ k e w
theorem HeaderWidths.txStampDrain (x : Fin 3) : HeaderWidths.Statement (.txStampDrain x) := fun w k e => header_widths _ k e w
theorem HeaderWidths.triggerArm (k : Fin 8) (domain : Fin 4) : HeaderWidths.Statement (.triggerArm k domain) := fun w k e => header_widths _ k e w
theorem HeaderWidths.triggerCancel (k : Fin 8) : HeaderWidths.Statement (.triggerCancel k) := fun w k e => header_widths _ k e w
theorem HeaderWidths.triggerFire (k : Fin 8) : HeaderWidths.Statement (.triggerFire k) := fun w k e => header_widths _ k e w
theorem HeaderWidths.timeSnap (sec : BitVec 48) (ns : BitVec 30) (frac : BitVec 4) (sp : Nat) (ss : Nat) (st : Nat) : HeaderWidths.Statement (.timeSnap sec ns frac sp ss st) := fun w k e => header_widths _ k e w
theorem HeaderWidths.doorbell (value : BitVec 32) : HeaderWidths.Statement (.doorbell value) := fun w k e => header_widths _ k e w
theorem HeaderWidths.urgentSlotCommit (slot : Fin 64) (d : Descriptor) (commit : BitVec 32) : HeaderWidths.Statement (.urgentSlotCommit slot d commit) := fun w k e => header_widths _ k e w
theorem HeaderWidths.urgentDispatch : HeaderWidths.Statement (.urgentDispatch) := fun w k e => header_widths _ k e w
theorem HeaderWidths.descriptorDispatch (d : Descriptor) : HeaderWidths.Statement (.descriptorDispatch d) := fun w k e => header_widths _ k e w
theorem HeaderWidths.commandCompletion : HeaderWidths.Statement (.commandCompletion) := fun w k e => header_widths _ k e w
theorem HeaderWidths.eventHoldingDrain (e : Fin 4) : HeaderWidths.Statement (.eventHoldingDrain e) := fun w k e => header_widths _ k e w
theorem HeaderWidths.msixModerationExpiry (v : Fin 64) : HeaderWidths.Statement (.msixModerationExpiry v) := fun w k e => header_widths _ k e w
theorem HeaderWidths.hostLinkReset : HeaderWidths.Statement (.hostLinkReset) := fun w k e => header_widths _ k e w
theorem HeaderWidths.linkRetrain (width : Fin 3) (speed : Fin 5) : HeaderWidths.Statement (.linkRetrain width speed) := fun w k e => header_widths _ k e w
theorem HeaderWidths.hostRingCfgWrite (ring : Fin 16) (value : BitVec 32) : HeaderWidths.Statement (.hostRingCfgWrite ring value) := fun w k e => header_widths _ k e w
theorem HeaderWidths.hostWinCtlWrite (k : Fin 16) (value : BitVec 32) (outstanding : Nat) : HeaderWidths.Statement (.hostWinCtlWrite k value outstanding) := fun w k e => header_widths _ k e w
theorem HeaderWidths.windowDrainDone (k : Fin 16) : HeaderWidths.Statement (.windowDrainDone k) := fun w k e => header_widths _ k e w
theorem HeaderWidths.dmaChStart (n : Fin 32) (d : DmaDesc) : HeaderWidths.Statement (.dmaChStart n d) := fun w k e => header_widths _ k e w
theorem HeaderWidths.dmaChAbort (n : Fin 32) (moved : Nat) (data : List Byte) : HeaderWidths.Statement (.dmaChAbort n moved data) := fun w k e => header_widths _ k e w
theorem HeaderWidths.dmaDescriptorDone (n : Fin 32) (data : List Byte) (next : DmaDesc) (readBackOk : Bool) : HeaderWidths.Statement (.dmaDescriptorDone n data next readBackOk) := fun w k e => header_widths _ k e w
theorem HeaderWidths.bulkBufferConsumed (b : Fin 4) (e : BulkEntry) (x : BulkData) : HeaderWidths.Statement (.bulkBufferConsumed b e x) := fun w k e => header_widths _ k e w
theorem HeaderWidths.imageTransferTimeout (tag : BitVec 32) : HeaderWidths.Statement (.imageTransferTimeout tag) := fun w k e => header_widths _ k e w
theorem HeaderWidths.meterUpdate (n : Fin 16) (values : List Word) : HeaderWidths.Statement (.meterUpdate n values) := fun w k e => header_widths _ k e w
theorem HeaderWidths.hushNFall : HeaderWidths.Statement (.hushNFall) := fun w k e => header_widths _ k e w
theorem HeaderWidths.hushNRise : HeaderWidths.Statement (.hushNRise) := fun w k e => header_widths _ k e w
theorem HeaderWidths.hushRampStart (d : Fin 3) : HeaderWidths.Statement (.hushRampStart d) := fun w k e => header_widths _ k e w
theorem HeaderWidths.netFrameReceived (x : Fin 3) (f : NetFrame) : HeaderWidths.Statement (.netFrameReceived x f) := fun w k e => header_widths _ k e w
theorem HeaderWidths.streamPacketTx (n : Fin 512) : HeaderWidths.Statement (.streamPacketTx n) := fun w k e => header_widths _ k e w
theorem HeaderWidths.streamLoss (n : Fin 512) : HeaderWidths.Statement (.streamLoss n) := fun w k e => header_widths _ k e w
theorem HeaderWidths.netModuleInsert (x : Fin 3) (a0 : List Byte) (rateOk : Bool) : HeaderWidths.Statement (.netModuleInsert x a0 rateOk) := fun w k e => header_widths _ k e w
theorem HeaderWidths.netDdmPoll (x : Fin 3) (a2 : List Byte) (alarm : Bool) (los : Bool) : HeaderWidths.Statement (.netDdmPoll x a2 alarm los) := fun w k e => header_widths _ k e w
theorem HeaderWidths.netLinkChange (x : Fin 3) (up : Bool) : HeaderWidths.Statement (.netLinkChange x up) := fun w k e => header_widths _ k e w
theorem HeaderWidths.macsecKeyAgreement (x : Fin 2) (rolled : Bool) (rxSc : Fin 65) : HeaderWidths.Statement (.macsecKeyAgreement x rolled rxSc) := fun w k e => header_widths _ k e w
theorem HeaderWidths.wlTrainDone (p : Fin 4) : HeaderWidths.Statement (.wlTrainDone p) := fun w k e => header_widths _ k e w
theorem HeaderWidths.wlAlignDone (p : Fin 4) : HeaderWidths.Statement (.wlAlignDone p) := fun w k e => header_widths _ k e w
theorem HeaderWidths.wlAuthDone (p : Fin 4) (r : AuthResult) : HeaderWidths.Statement (.wlAuthDone p r) := fun w k e => header_widths _ k e w
theorem HeaderWidths.wlStateTimeout (p : Fin 4) : HeaderWidths.Statement (.wlStateTimeout p) := fun w k e => header_widths _ k e w
theorem HeaderWidths.wlRestartTimer (p : Fin 4) : HeaderWidths.Statement (.wlRestartTimer p) := fun w k e => header_widths _ k e w
theorem HeaderWidths.wlPortDown (p : Fin 4) : HeaderWidths.Statement (.wlPortDown p) := fun w k e => header_widths _ k e w
theorem HeaderWidths.wlCellReceived (p : Fin 4) (c : Cell) (stamp : Nat) (nakFree : Bool) (tail : Bool) : HeaderWidths.Statement (.wlCellReceived p c stamp nakFree tail) := fun w k e => header_widths _ k e w
theorem HeaderWidths.wlReplayTimeout (p : Fin 4) : HeaderWidths.Statement (.wlReplayTimeout p) := fun w k e => header_widths _ k e w
theorem HeaderWidths.wlCellTx (p : Fin 4) : HeaderWidths.Statement (.wlCellTx p) := fun w k e => header_widths _ k e w
theorem HeaderWidths.wlTimeCellTx (p : Fin 4) (stamp : Nat) (markTime : Nat) (gm : Nat) : HeaderWidths.Statement (.wlTimeCellTx p stamp markTime gm) := fun w k e => header_widths _ k e w
theorem HeaderWidths.wlTimeLoss (p : Fin 4) : HeaderWidths.Statement (.wlTimeLoss p) := fun w k e => header_widths _ k e w
theorem HeaderWidths.wlBundleTx (d : Fin 3) : HeaderWidths.Statement (.wlBundleTx d) := fun w k e => header_widths _ k e w
theorem HeaderWidths.wlFlowLoss (p : Fin 4) (src : Nat) (flow : Fin 256) : HeaderWidths.Statement (.wlFlowLoss p src flow) := fun w k e => header_widths _ k e w
theorem HeaderWidths.netWlParamTimeout (h : CmdHdr) : HeaderWidths.Statement (.netWlParamTimeout h) := fun w k e => header_widths _ k e w
theorem HeaderWidths.wlRetrain (p : Fin 4) : HeaderWidths.Statement (.wlRetrain p) := fun w k e => header_widths _ k e w
theorem HeaderWidths.aportStart (p : Fin 16) : HeaderWidths.Statement (.aportStart p) := fun w k e => header_widths _ k e w
theorem HeaderWidths.aportStop (p : Fin 16) : HeaderWidths.Statement (.aportStop p) := fun w k e => header_widths _ k e w
theorem HeaderWidths.aportUnderrun (p : Fin 16) (k : Nat) (moved : Nat) : HeaderWidths.Statement (.aportUnderrun p k moved) := fun w k e => header_widths _ k e w
theorem HeaderWidths.aportOverrun (p : Fin 16) (k : Nat) (moved : Nat) : HeaderWidths.Statement (.aportOverrun p k moved) := fun w k e => header_widths _ k e w
theorem HeaderWidths.aportFramingError (g : Fin 4) (k : Nat) : HeaderWidths.Statement (.aportFramingError g k) := fun w k e => header_widths _ k e w
theorem HeaderWidths.pairSwapDetect (p : Fin 16) : HeaderWidths.Statement (.pairSwapDetect p) := fun w k e => header_widths _ k e w
theorem HeaderWidths.aesRxLock (n : Fin 8) (rate : Fin 7) (ratio : BitVec 32) : HeaderWidths.Statement (.aesRxLock n rate ratio) := fun w k e => header_widths _ k e w
theorem HeaderWidths.aesRxLockLoss (n : Fin 8) : HeaderWidths.Statement (.aesRxLockLoss n) := fun w k e => header_widths _ k e w
theorem HeaderWidths.aesCsBlock (n : Fin 8) (a : List Byte) (b : List Byte) : HeaderWidths.Statement (.aesCsBlock n a b) := fun w k e => header_widths _ k e w
theorem HeaderWidths.aesRxCsSnap (n : Fin 8) : HeaderWidths.Statement (.aesRxCsSnap n) := fun w k e => header_widths _ k e w
theorem HeaderWidths.aesTxCommit (n : Fin 8) : HeaderWidths.Statement (.aesTxCommit n) := fun w k e => header_widths _ k e w
theorem HeaderWidths.aesTxBlockStart (n : Fin 8) : HeaderWidths.Statement (.aesTxBlockStart n) := fun w k e => header_widths _ k e w
theorem HeaderWidths.aesTxStart (n : Fin 8) : HeaderWidths.Statement (.aesTxStart n) := fun w k e => header_widths _ k e w
theorem HeaderWidths.asrcNarrow (a : Nat) (ratio : BitVec 32) : HeaderWidths.Statement (.asrcNarrow a ratio) := fun w k e => header_widths _ k e w
theorem HeaderWidths.asrcRelease (a : Nat) : HeaderWidths.Statement (.asrcRelease a) := fun w k e => header_widths _ k e w
theorem HeaderWidths.asrcRetrack (a : Nat) : HeaderWidths.Statement (.asrcRetrack a) := fun w k e => header_widths _ k e w
theorem HeaderWidths.asrcRestart (a : Nat) : HeaderWidths.Statement (.asrcRestart a) := fun w k e => header_widths _ k e w
theorem HeaderWidths.convEnWrite (c : Fin 4) (en : Bool) (preset : Fin 4) (k : Nat) : HeaderWidths.Statement (.convEnWrite c en preset k) := fun w k e => header_widths _ k e w
theorem HeaderWidths.chainSettled (c : Fin 4) (k : Nat) : HeaderWidths.Statement (.chainSettled c k) := fun w k e => header_widths _ k e w
theorem HeaderWidths.rangeRequest (n : Fin 2) (r : Fin 32) (k : Nat) : HeaderWidths.Statement (.rangeRequest n r k) := fun w k e => header_widths _ k e w
theorem HeaderWidths.rangeChange (n : Fin 2) : HeaderWidths.Statement (.rangeChange n) := fun w k e => header_widths _ k e w
theorem HeaderWidths.compensationStep (n : Fin 2) (k : Nat) : HeaderWidths.Statement (.compensationStep n k) := fun w k e => header_widths _ k e w
theorem HeaderWidths.jackDetectChange (tb : Bool) (inserted : Bool) (k : Nat) : HeaderWidths.Statement (.jackDetectChange tb inserted k) := fun w k e => header_widths _ k e w
theorem HeaderWidths.jackRemovalEdge (k : Nat) : HeaderWidths.Statement (.jackRemovalEdge k) := fun w k e => header_widths _ k e w
theorem HeaderWidths.jackClassified (l : JackLoads) : HeaderWidths.Statement (.jackClassified l) := fun w k e => header_widths _ k e w
theorem HeaderWidths.buttonAccepted (ohms : BitVec 16) (k : Nat) : HeaderWidths.Statement (.buttonAccepted ohms k) := fun w k e => header_widths _ k e w
theorem HeaderWidths.buttonLevelMute (n : Fin 2) (down : Bool) (k : Nat) : HeaderWidths.Statement (.buttonLevelMute n down k) := fun w k e => header_widths _ k e w
theorem HeaderWidths.psEnWrite (c : Fin 2) (en : Bool) (k : Nat) : HeaderWidths.Statement (.psEnWrite c en k) := fun w k e => header_widths _ k e w
theorem HeaderWidths.psPrechargeDone (c : Fin 2) : HeaderWidths.Statement (.psPrechargeDone c) := fun w k e => header_widths _ k e w
theorem HeaderWidths.psShutdown (c : Fin 2) : HeaderWidths.Statement (.psShutdown c) := fun w k e => header_widths _ k e w
theorem HeaderWidths.psRetry (c : Fin 2) : HeaderWidths.Statement (.psRetry c) := fun w k e => header_widths _ k e w
theorem HeaderWidths.retryUsedReset (c : Fin 2) : HeaderWidths.Statement (.retryUsedReset c) := fun w k e => header_widths _ k e w
theorem HeaderWidths.psSupplyFault (mv : BitVec 16) : HeaderWidths.Statement (.psSupplyFault mv) := fun w k e => header_widths _ k e w
theorem HeaderWidths.psSupplyRestart (mv : BitVec 16) : HeaderWidths.Statement (.psSupplyRestart mv) := fun w k e => header_widths _ k e w
theorem HeaderWidths.psThermalRead (temp : BitVec 16) (mv : BitVec 16) : HeaderWidths.Statement (.psThermalRead temp mv) := fun w k e => header_widths _ k e w
theorem HeaderWidths.modulePoll (slot : Fin 32) (mux : Bool) (r : ModuleRead) : HeaderWidths.Statement (.modulePoll slot mux r) := fun w k e => header_widths _ k e w
theorem HeaderWidths.slEnumerate (p : Fin 8) (mods : List ModuleRead) : HeaderWidths.Statement (.slEnumerate p mods) := fun w k e => header_widths _ k e w
theorem HeaderWidths.slRestart (p : Fin 8) : HeaderWidths.Statement (.slRestart p) := fun w k e => header_widths _ k e w
theorem HeaderWidths.servoCycle (si : BitVec 64) : HeaderWidths.Statement (.servoCycle si) := fun w k e => header_widths _ k e w
theorem HeaderWidths.servoUpReceived (p : Fin 8) (m : Fin 4) (u : Option ServoUp) : HeaderWidths.Statement (.servoUpReceived p m u) := fun w k e => header_widths _ k e w
theorem HeaderWidths.servoFiringEnd (k : Fin 4) : HeaderWidths.Statement (.servoFiringEnd k) := fun w k e => header_widths _ k e w
theorem HeaderWidths.moduleLost (p : Fin 8) (m : Fin 4) : HeaderWidths.Statement (.moduleLost p m) := fun w k e => header_widths _ k e w
theorem HeaderWidths.touchUpReceived (f : Fin 256) (touched : Bool) : HeaderWidths.Statement (.touchUpReceived f touched) := fun w k e => header_widths _ k e w
theorem HeaderWidths.servoCut (k : Fin 4) : HeaderWidths.Statement (.servoCut k) := fun w k e => header_widths _ k e w
theorem HeaderWidths.faderStall (f : Fin 256) : HeaderWidths.Statement (.faderStall f) := fun w k e => header_widths _ k e w
theorem HeaderWidths.lawCommit : HeaderWidths.Statement (.lawCommit) := fun w k e => header_widths _ k e w
theorem HeaderWidths.storeDriveChange (n : Fin 8) (d : DriveSeen) : HeaderWidths.Statement (.storeDriveChange n d) := fun w k e => header_widths _ k e w
theorem HeaderWidths.chunkWrite (no : Nat) (track : Fin 1024) : HeaderWidths.Statement (.chunkWrite no track) := fun w k e => header_widths _ k e w
theorem HeaderWidths.recordOverrun (no : Nat) (track : Fin 1024) : HeaderWidths.Statement (.recordOverrun no track) := fun w k e => header_widths _ k e w
theorem HeaderWidths.journalCut : HeaderWidths.Statement (.journalCut) := fun w k e => header_widths _ k e w
theorem HeaderWidths.journalCommit (lbas : Fin 16) : HeaderWidths.Statement (.journalCommit lbas) := fun w k e => header_widths _ k e w
theorem HeaderWidths.punchIn (tag : BitVec 32) : HeaderWidths.Statement (.punchIn tag) := fun w k e => header_widths _ k e w
theorem HeaderWidths.punchOut (no : Nat) : HeaderWidths.Statement (.punchOut no) := fun w k e => header_widths _ k e w
theorem HeaderWidths.playStart (tag : BitVec 32) : HeaderWidths.Statement (.playStart tag) := fun w k e => header_widths _ k e w
theorem HeaderWidths.playUnderrun (track : Fin 1024) (chunk : Nat) : HeaderWidths.Statement (.playUnderrun track chunk) := fun w k e => header_widths _ k e w
theorem HeaderWidths.storeMemberLost (m : Fin 8) : HeaderWidths.Statement (.storeMemberLost m) := fun w k e => header_widths _ k e w
theorem HeaderWidths.storeMemberReturn (m : Fin 8) : HeaderWidths.Statement (.storeMemberReturn m) := fun w k e => header_widths _ k e w
theorem HeaderWidths.smartPoll (n : Fin 8) (kelvin : BitVec 16) : HeaderWidths.Statement (.smartPoll n kelvin) := fun w k e => header_widths _ k e w
theorem HeaderWidths.powerGood (f : StartFacts) : HeaderWidths.Statement (.powerGood f) := fun w k e => header_widths _ k e w
theorem HeaderWidths.supplyDip : HeaderWidths.Statement (.supplyDip) := fun w k e => header_widths _ k e w
theorem HeaderWidths.warmRestart (f : StartFacts) : HeaderWidths.Statement (.warmRestart f) := fun w k e => header_widths _ k e w
theorem HeaderWidths.powerFailWarning (bytes : Nat) (t : TimeRecord) : HeaderWidths.Statement (.powerFailWarning bytes t) := fun w k e => header_widths _ k e w
theorem HeaderWidths.warningEnd : HeaderWidths.Statement (.warningEnd) := fun w k e => header_widths _ k e w
theorem HeaderWidths.vbatHandover : HeaderWidths.Statement (.vbatHandover) := fun w k e => header_widths _ k e w
theorem HeaderWidths.vddAonReturn (cycles : List Bool) : HeaderWidths.Statement (.vddAonReturn cycles) := fun w k e => header_widths _ k e w
theorem HeaderWidths.pwrStandby (bytes : Nat) (t : TimeRecord) : HeaderWidths.Statement (.pwrStandby bytes t) := fun w k e => header_widths _ k e w
theorem HeaderWidths.wake : HeaderWidths.Statement (.wake) := fun w k e => header_widths _ k e w
theorem HeaderWidths.warmAlarm : HeaderWidths.Statement (.warmAlarm) := fun w k e => header_widths _ k e w
theorem HeaderWidths.wakeFail : HeaderWidths.Statement (.wakeFail) := fun w k e => header_widths _ k e w
theorem HeaderWidths.settingsAppend (bytes : Nat) (t : TimeRecord) (reach : Fin 7) : HeaderWidths.Statement (.settingsAppend bytes t reach) := fun w k e => header_widths _ k e w
theorem HeaderWidths.rangePipelineStop (d : Fin 3) : HeaderWidths.Statement (.rangePipelineStop d) := fun w k e => header_widths _ k e w
theorem HeaderWidths.rangeRestart (d : Fin 3) (si : BitVec 64) : HeaderWidths.Statement (.rangeRestart d si) := fun w k e => header_widths _ k e w
theorem HeaderWidths.recoveryGo (image : Option ImageData) (f : StartFacts) : HeaderWidths.Statement (.recoveryGo image f) := fun w k e => header_widths _ k e w
theorem HeaderWidths.thermalHoldEnter (temps : List (BitVec 16)) : HeaderWidths.Statement (.thermalHoldEnter temps) := fun w k e => header_widths _ k e w
theorem HeaderWidths.thermalHoldLeave (temps : List (BitVec 16)) : HeaderWidths.Statement (.thermalHoldLeave temps) := fun w k e => header_widths _ k e w
theorem HeaderWidths.pairEnWrite (value : BitVec 32) : HeaderWidths.Statement (.pairEnWrite value) := fun w k e => header_widths _ k e w
theorem HeaderWidths.pairListenEnd : HeaderWidths.Statement (.pairListenEnd) := fun w k e => header_widths _ k e w
theorem HeaderWidths.leaseRenew : HeaderWidths.Statement (.leaseRenew) := fun w k e => header_widths _ k e w
theorem HeaderWidths.renewReceived (m : PairMsg) : HeaderWidths.Statement (.renewReceived m) := fun w k e => header_widths _ k e w
theorem HeaderWidths.ackReceived (m : PairMsg) : HeaderWidths.Statement (.ackReceived m) := fun w k e => header_widths _ k e w
theorem HeaderWidths.leaseTimerExpiry : HeaderWidths.Statement (.leaseTimerExpiry) := fun w k e => header_widths _ k e w
theorem HeaderWidths.claimSend : HeaderWidths.Statement (.claimSend) := fun w k e => header_widths _ k e w
theorem HeaderWidths.claimReceived (m : PairMsg) : HeaderWidths.Statement (.claimReceived m) := fun w k e => header_widths _ k e w
theorem HeaderWidths.grantReceived (m : PairMsg) : HeaderWidths.Statement (.grantReceived m) := fun w k e => header_widths _ k e w
theorem HeaderWidths.yield (m : PairMsg) : HeaderWidths.Statement (.yield m) := fun w k e => header_widths _ k e w
theorem HeaderWidths.yieldHandover : HeaderWidths.Statement (.yieldHandover) := fun w k e => header_widths _ k e w
theorem HeaderWidths.pairSwap : HeaderWidths.Statement (.pairSwap) := fun w k e => header_widths _ k e w
theorem HeaderWidths.pairResync : HeaderWidths.Statement (.pairResync) := fun w k e => header_widths _ k e w
theorem HeaderWidths.mirrorReceived (m : PairMsg) : HeaderWidths.Statement (.mirrorReceived m) := fun w k e => header_widths _ k e w
theorem HeaderWidths.digestSend : HeaderWidths.Statement (.digestSend) := fun w k e => header_widths _ k e w
theorem HeaderWidths.digestReceived (m : PairMsg) : HeaderWidths.Statement (.digestReceived m) := fun w k e => header_widths _ k e w
theorem HeaderWidths.verdictReceived (m : PairMsg) : HeaderWidths.Statement (.verdictReceived m) := fun w k e => header_widths _ k e w
theorem HeaderWidths.verdictTimeout : HeaderWidths.Statement (.verdictTimeout) := fun w k e => header_widths _ k e w
theorem HeaderWidths.replicaSend (t : TimeRecord) : HeaderWidths.Statement (.replicaSend t) := fun w k e => header_widths _ k e w
theorem HeaderWidths.resyncGroupCopy (data : List CarriedPart) (last : Bool) : HeaderWidths.Statement (.resyncGroupCopy data last) := fun w k e => header_widths _ k e w
theorem HeaderWidths.resyncTimeout : HeaderWidths.Statement (.resyncTimeout) := fun w k e => header_widths _ k e w
theorem HeaderWidths.bistGo (test : BitVec 8) (inst : BitVec 8) : HeaderWidths.Statement (.bistGo test inst) := fun w k e => header_widths _ k e w
theorem HeaderWidths.bistTestStart (test : BitVec 8) (inst : BitVec 8) : HeaderWidths.Statement (.bistTestStart test inst) := fun w k e => header_widths _ k e w
theorem HeaderWidths.bistDone (test : BitVec 8) (inst : BitVec 8) (pass : Bool) (value : BitVec 32) : HeaderWidths.Statement (.bistDone test inst pass value) := fun w k e => header_widths _ k e w
theorem HeaderWidths.pinfnWrite (k : Fin 32) (value : BitVec 32) : HeaderWidths.Statement (.pinfnWrite k value) := fun w k e => header_widths _ k e w
theorem HeaderWidths.pinfnChange (k : Fin 32) : HeaderWidths.Statement (.pinfnChange k) := fun w k e => header_widths _ k e w
theorem HeaderWidths.pinfnParkEnd (k : Fin 32) : HeaderWidths.Statement (.pinfnParkEnd k) := fun w k e => header_widths _ k e w
theorem HeaderWidths.schedSliceWrite (reg : Fin 10) (value : BitVec 32) : HeaderWidths.Statement (.schedSliceWrite reg value) := fun w k e => header_widths _ k e w
theorem HeaderWidths.pairLoRead (off : BitVec 18) (both : Bool) : HeaderWidths.Statement (.pairLoRead off both) := fun w k e => header_widths _ k e w
theorem HeaderWidths.pairHiRead (off : BitVec 18) : HeaderWidths.Statement (.pairHiRead off) := fun w k e => header_widths _ k e w
theorem HeaderWidths.schedCntClr : HeaderWidths.Statement (.schedCntClr) := fun w k e => header_widths _ k e w
theorem HeaderWidths.hostCntClr : HeaderWidths.Statement (.hostCntClr) := fun w k e => header_widths _ k e w
theorem HeaderWidths.netxCntClr (x : Fin 3) : HeaderWidths.Statement (.netxCntClr x) := fun w k e => header_widths _ k e w
theorem HeaderWidths.clsCntClr : HeaderWidths.Statement (.clsCntClr) := fun w k e => header_widths _ k e w
theorem HeaderWidths.wlxCntClr (p : Fin 4) : HeaderWidths.Statement (.wlxCntClr p) := fun w k e => header_widths _ k e w
theorem HeaderWidths.aportCntClr : HeaderWidths.Statement (.aportCntClr) := fun w k e => header_widths _ k e w
theorem HeaderWidths.aesCntClr : HeaderWidths.Statement (.aesCntClr) := fun w k e => header_widths _ k e w
theorem HeaderWidths.hubaCntClr : HeaderWidths.Statement (.hubaCntClr) := fun w k e => header_widths _ k e w
theorem HeaderWidths.surfCntClr : HeaderWidths.Statement (.surfCntClr) := fun w k e => header_widths _ k e w
theorem HeaderWidths.storeCntClr : HeaderWidths.Statement (.storeCntClr) := fun w k e => header_widths _ k e w
theorem HeaderWidths.pwrCntClr : HeaderWidths.Statement (.pwrCntClr) := fun w k e => header_widths _ k e w
theorem HeaderWidths.pairCntClr : HeaderWidths.Statement (.pairCntClr) := fun w k e => header_widths _ k e w
theorem HeaderWidths.bistCntClr : HeaderWidths.Statement (.bistCntClr) := fun w k e => header_widths _ k e w
theorem HeaderWidths.pinfnCntClr : HeaderWidths.Statement (.pinfnCntClr) := fun w k e => header_widths _ k e w
theorem HeaderWidths.globalCntClr : HeaderWidths.Statement (.globalCntClr) := fun w k e => header_widths _ k e w
theorem HeaderWidths.registerWrite (bar2 : Bool) (off : BitVec 18) (value : BitVec 32) (be : BitVec 4) : HeaderWidths.Statement (.registerWrite bar2 off value be) := fun w k e => header_widths _ k e w
theorem HeaderWidths.ptpMessageTx (x : Fin 3) (isEvent : Bool) (id : BitVec 16) (requested : Bool) (stamp : Nat) : HeaderWidths.Statement (.ptpMessageTx x isEvent id requested stamp) := fun w k e => header_widths _ k e w
theorem HeaderWidths.ptpPortStateChange (x : Fin 3) (pstate : Fin 10) (gm : Bool) : HeaderWidths.Statement (.ptpPortStateChange x pstate gm) := fun w k e => header_widths _ k e w
theorem HeaderWidths.netModuleRemoved (x : Fin 3) : HeaderWidths.Statement (.netModuleRemoved x) := fun w k e => header_widths _ k e w
theorem HeaderWidths.macsecPeerLost (x : Fin 2) : HeaderWidths.Statement (.macsecPeerLost x) := fun w k e => header_widths _ k e w
theorem HeaderWidths.wlModuleInsertion (p : Fin 4) (r : ModuleRead) : HeaderWidths.Statement (.wlModuleInsertion p r) := fun w k e => header_widths _ k e w
theorem HeaderWidths.playbackChunkRead (track : Fin 1024) (chunk : Nat) : HeaderWidths.Statement (.playbackChunkRead track chunk) := fun w k e => header_widths _ k e w
theorem HeaderWidths.storeIoError (track : Fin 1024) : HeaderWidths.Statement (.storeIoError track) := fun w k e => header_widths _ k e w
theorem HeaderWidths.retentionLoss : HeaderWidths.Statement (.retentionLoss) := fun w k e => header_widths _ k e w
theorem HeaderWidths.trustCommandTimeout (n : Nat) : HeaderWidths.Statement (.trustCommandTimeout n) := fun w k e => header_widths _ k e w
theorem HeaderWidths.replicaExpiry : HeaderWidths.Statement (.replicaExpiry) := fun w k e => header_widths _ k e w
theorem HeaderWidths.blankToManufactured (serial : List Nat) (macs : List Nat) (code : BitVec 64) (chain : List Byte) : HeaderWidths.Statement (.blankToManufactured serial macs code chain) := fun w k e => header_widths _ k e w

end Sys2Proof.Laws
end

