-- ==== Sys2Proof/Tests/Slice0.lean ====
section
/-! SUPPORT. Tests of the model against the manual's own numbers, and, for each statement with hypotheses, concrete states and
operands that meet them: one line for each clause, with the field values at the edges of their ranges. -/

namespace Sys2Proof.Tests

open Sys2Proof.Machine

-- Each theorem is checked before the next is read: one thread is enough for them.
set_option Elab.async false

/-! ## States of the tests -/

/-- The state after reset with fields of registers at given values. -/
def w (l : List (Fld × Nat)) (s : State := State.reset) : State := l.foldl (fun s e => s.put e.1 e.2) s

/-- The state after reset with unit 0 as given. -/
def unitAt (x : UnitSt) : State := State.reset.setUnit 0 x

def dm (d : Nat) (x : DomSt) (s : State) : State := { s with doms := Tab.put {} s.doms d x }
def run0 : DomSt := { configured := true, running := true, si := 64 }

/-- An engine that answers the host and has restored its settings, with domain P running. -/
def sW (l : List (Fld × Nat) := []) : State := dm 0 run0 (w ((Reg.GLOBAL_RESTORE_DONE, 1) :: l))

/-- The state after a command. -/
def after (r : Host.Outcome State Fault Refusal) : State := match r with
  | .next t => t
  | .fault _ => State.reset
  | .refused _ => State.reset

def winRegs : List (Fld × Nat) := [(Reg.HOST_WIN_CTL_ENABLE 0, 1), (Reg.HOST_WIN_CTL_READ 0, 1), (Reg.HOST_WIN_CTL_WRITE 0, 1),
  (Reg.HOST_WIN_BASE_BASE 0, 0x1000), (Reg.HOST_WIN_SIZE_PAGES 0, 64)]

/-! ## Well-formedness refuses -/

theorem test_wf_accepts : (Instr.hush { tag := 2 ^ 32 - 1, flags := 3, target := 2 ^ 64 - 1 } 1).wf = true := by decide
theorem test_wf_tag : (Instr.hush { tag := 2 ^ 32 } 1).wf = false := by decide
theorem test_wf_flags : (Instr.storeFormat { flags := 2 ^ 16 }).wf = false := by decide
theorem test_wf_target : (Instr.schedAdmitArm { target := 2 ^ 64 }).wf = false := by decide
theorem test_wf_handle : (Instr.paramSet {} 0 .inline [⟨2 ^ 32, 0⟩]).wf = false := by decide
theorem test_wf_ramp : (Instr.paramSet {} (2 ^ 32) .inline []).wf = false ∧ (Instr.route {} (2 ^ 32) 0 .inline []).wf = false := by
  decide
theorem test_wf_route_item : (Instr.route {} 0 0 .inline [⟨2 ^ 32, 0⟩]).wf = false ∧
    (Instr.route {} 0 0 .inline [⟨0, 2 ^ 32⟩]).wf = false := by decide
theorem test_wf_wamund_item : (Instr.netWlParam {} 1 0 0 [⟨2 ^ 32, 0⟩]).wf = false := by decide
theorem test_wf_snapshot : (Instr.timeSnap 0 0 0 (2 ^ 64) 0 0).wf = false ∧ (Instr.timeSnap 0 0 0 0 (2 ^ 64) 0).wf = false ∧
    (Instr.timeSnap 0 0 0 0 0 (2 ^ 64)).wf = false := by decide
theorem test_wf_descriptor : (Instr.descriptorDispatch {}).wf = false ∧
    (Instr.descriptorDispatch { payload := List.replicate 48 0 }).wf = true ∧
    (Instr.urgentSlotCommit 0 { opcode := 2 ^ 16, payload := List.replicate 48 0 } 1).wf = false ∧
    (Instr.urgentSlotCommit 0 { flags := 2 ^ 16, payload := List.replicate 48 0 } 1).wf = false ∧
    (Instr.urgentSlotCommit 0 { tag := 2 ^ 32, payload := List.replicate 48 0 } 1).wf = false ∧
    (Instr.urgentSlotCommit 0 { target := 2 ^ 64, payload := List.replicate 48 0 } 1).wf = false := by decide
theorem test_wf_page : (Instr.netModuleInsert 0 [3] true).wf = false ∧ (Instr.netDdmPoll 0 [] false false).wf = false := by decide
theorem test_wf_status_block : (Instr.aesCsBlock 0 [] (List.replicate 24 0)).wf = false ∧
    (Instr.aesCsBlock 0 (List.replicate 24 0) []).wf = false := by decide
theorem test_wf_asrc : (Instr.asrcNarrow (2 ^ 16) 0).wf = false ∧ (Instr.asrcRelease (2 ^ 16)).wf = false ∧
    (Instr.asrcRetrack (2 ^ 16)).wf = false ∧ (Instr.asrcRestart (2 ^ 16)).wf = false := by decide
theorem test_wf_identity : (Instr.blankToManufactured [1] [1, 2, 3] 0 []).wf = false ∧
    (Instr.blankToManufactured [1, 2, 3, 4] [1] 0 []).wf = false := by decide

/-- The opcode table gives its rows no bits, so no word spells a command (log entry 7). -/
theorem test_no_word : decodeTableWord 0 0 = none ∧ State.reset.withFetchWord 8 255 = State.reset := by decide

/-! ## Compute units -/

/-- Unit 0 running, with operands in A1, A2 and A3, and 1.0, 2.0 and a NaN in F1 and F2. -/
def ab (a b : Word) (x : UnitSt := {}) : State := unitAt { x with
  wait := .run, f := [(1, 0x3F80000040000000), (2, 0x7FC00000FF800000), (4, 77)], a := [(1, a), (2, b), (3, 99)] }
def o1 : Op := { u := 0, a := 1, b := 2, d := 3 }
/-- As `o1`, with more operations of its bundle to come: the bundle does not end. -/
def o3 : Op := { o1 with last := false }
def o2 : Op := { u := 0, a := 1, b := 2, d := 4, m := 1 }
def guarded : Op := { u := 0, a := 1, b := 2, d := 4, pred := 1 }

/-- What unit 0 has in flight after an operation on two values: cycle and value of the low lane. -/
def flown (i : Instr) (a b : Word) : List (Nat × Word) :=
  ((after (exec i (ab a b))).unit 0).flight.map fun l => (l.cycle, lane0 l.val)

/-- R254: the worked example of BITREV. -/
theorem test_bitrev : flown (.bitrev o3) 0x1003 4 = [(1, 0x100C)] := by decide +kernel
/-- R253: the worked example of AMOD, a circular buffer that wraps. -/
theorem test_amod : ((after (exec (.amod o3)
    (unitAt { wait := .run, a := [(1, 8), (2, 0x0FFF), (3, 0x3FFC)] }))).unit 0).flight.map (fun l => lane0 l.val) = [0x3004] := by
  decide +kernel
/-- R227: a signed quotient truncates towards zero, and a zero divisor saturates it. -/
theorem test_divs : divs (-7) 2 = (-3, -1, false, false) ∧ divs (-7) 0 = (0x80000000, -7, false, true) ∧
    divs 0x80000000 0xFFFFFFFF = (0x7FFFFFFF, 0, true, false) := by decide +kernel
theorem test_divu : divu 7 2 = (3, 1, false, false) ∧ divu 5 0 = (0xFFFFFFFF, 5, false, true) := by decide +kernel
/-- R249: the results of slot I at their edges. -/
theorem test_add_wraps : flown (.add o3) 0x7FFFFFFF 1 = [(1, 0x80000000)] := by decide +kernel
theorem test_adds_saturates : flown (.adds o3) 0x7FFFFFFF 1 = [(1, 0x7FFFFFFF)] := by decide +kernel
theorem test_subs_saturates : flown (.subs o3) 0x80000000 1 = [(1, 0x80000000)] := by decide +kernel
theorem test_shl_all_out : flown (.shl o3) 0xFFFFFFFF 32 = [(1, 0)] := by decide +kernel
theorem test_sar_all_sign : flown (.sar o3) 0x80000000 40 = [(1, 0xFFFFFFFF)] := by decide +kernel
theorem test_rol : flown (.rol o3) 0x80000001 33 = [(1, 3)] := by decide +kernel
theorem test_mulh_signed : flown (.mulh o3) 0xFFFFFFFF 2 = [(3, 0xFFFFFFFF)] := by decide +kernel
theorem test_max_signed : flown (.max o3) 0xFFFFFFFF 1 = [(1, 1)] := by decide +kernel
/-- R220, R222: 1.0 + 2.0 is 3.0, and infinity minus infinity is 0x7FC0_0000. -/
theorem test_fadd : (Fp.add 0x3F800000 0x40000000).1 = 0x40400000 ∧ (Fp.add 0x7F800000 0xFF800000).1 = 0x7FC00000 := by
  decide +kernel
/-- R221: a product below 2^-126 is a zero of its sign. -/
theorem test_fmul_flushes : (Fp.mul 0x80800000 0x3F000000).1 = 0x80000000 := by decide +kernel
/-- R220: an FMA rounds once. -/
theorem test_fma : (Fp.fma 0xBF801000 0x3F800800 0x3F800800).1 = 0x33800000 := by decide +kernel

/-- As `o1` with the registers at the top of their files, a read of F[A] alone. -/
def oTop : Op := { u := 0, a := 63, d := 63 }
theorem witness_FloatArithmetic : (ab 0 0).issues { oTop with b := 63, m := 3 } ∧
    (∀ op ∈ [1, 2, 3, 4, 5, 6, 7, 8, 0x0D, 0x0E], illegalM (Op.word { oTop with b := 63, m := 3 } op) = none) ∧
    (∀ op ∈ [0x18, 0x19, 0x1A, 0x1B, 0x12], illegalM (oTop.word op) = none) ∧ illegalM (Op.word { oTop with b := 1 } 0x12) = none ∧
    Fp.isNaN 0x7FC00000 = true ∧ Fp.isNaN 0x3F800000 = false ∧ Fp.isZero 0x80000000 = true ∧ (7 : Nat) < 8 := by decide +kernel
theorem witness_FloatMoves : (ab 0 0).issues oTop ∧ (∀ op ∈ [9, 0x0A, 0x0F, 0x10, 0x11], illegalM (oTop.word op) = none) ∧
    illegalM (Op.word { oTop with b := 63, m := 3 } 0x0C) = none := by decide +kernel
/-- Registers at the top of the A file. -/
def oTopA : Op := { u := 0, a := 31, b := 31, d := 31 }
theorem witness_IntegerArithmetic : (ab 0x80000000 0xFFFFFFFF).issues oTopA ∧
    (∀ op ∈ [1, 2, 3, 4, 8, 9, 0x0A, 0x10, 0x11, 0x12, 0x13, 0x18, 0x19, 0x20, 0x21, 0x25], illegalI (oTopA.word op) = none) ∧
    (∀ op ∈ [5, 6, 0x0B], illegalI (Op.word { oTopA with b := 0 } op) = none) := by decide +kernel
theorem witness_IntegerDivision : (ab 5 0).issues { oTopA with d := 30 } ∧
    (∀ op ∈ [0x1A, 0x1B], illegalI (Op.word { oTopA with d := 30 } op) = none) ∧
    ((ab 5 0).unit 0).wait = .run ∧ oTopA.d.val % 2 = 1 ∧
    (0xFFFFFFFF : Word) ≠ 0 ∧ ¬((0x80000001 : Word) = 0x80000000 ∧ (0xFFFFFFFF : Word) = 0xFFFFFFFF) := by decide +kernel
theorem witness_ComparesAndImmediates : (ab 0 0).issues oTopA ∧ illegalI (oTop.word 0x22) = some 1 ∧
    illegalI (Op.word { oTopA with d := 63 } 0x22) = none ∧ illegalI (oTopA.word 0x24) = none ∧ oTopA.d.val < 32 ∧ oTopA.m.val = 0 ∧
    lane1 0xFFFFFFFF = 0 ∧ ((ab 0 0).unit 0).wait = .run ∧ 32 ≤ ({ u := 0, d := 32 } : Op).d.val ∧ lane1 0x100000000 ≠ 0 := by
  decide +kernel
theorem witness_GuardAndIssueFrame : let x := (ab 0 0).unit 0
    x.wait = .run ∧ x.getP guarded.pred.val = false ∧ x.delay = 0 ∧ x.tapDue = [] ∧ (State.reset.unit 0).wait ≠ .run ∧
    illegalM (guarded.word 0x18) = some 1 ∧ illegalM (guarded.word 1) = none ∧
    illegalI (oTop.word 1) = some 1 ∧ illegalI (guarded.word 1) = none ∧ illegalI (guarded.moviWord 0xFFF) = none ∧
    illegalI (Op.moviWord { guarded with m := 1 } 0) = some 1 ∧ illegalL (Op.word { o1 with d := 1 } 0x0F) = some 9 ∧
    illegalL (Op.word { o1 with a := 1, b := 0 } 0x11) = some 1 ∧ illegalL (Op.word { guarded with a := 0, b := 0 } 0x11) = none ∧
    guarded.d.val < 32 ∧ guarded.a.val < 32 := by decide +kernel
theorem witness_LocalMemoryAccess : (ab 0xBFF8 4).issues o1 ∧ Ecc.corrected 3 ≠ .uncorrectable ∧
    (∀ op ∈ [1, 2, 3, 4, 5, 6], illegalL (o1.word op) = none) ∧
    ((ab 0xBFF8 4).unit 0).ea o1 = 0xBFFC ∧ (0xBFFC : Nat) < 0xC000 ∧ 0xBFFC % 4 = 0 ∧
    ((ab 0xBFF8 0).unit 0).ea o1 = 0xBFF8 ∧ 0xBFF8 % 8 = 0 ∧ ((ab 0xC000 0).unit 0).ea o1 = 0xC000 ∧
    ((ab 0xBFFF 0).unit 0).ea o1 = 0xBFFF ∧ 0xBFFF % 4 ≠ 0 ∧ 0xBFFC % 8 ≠ 0 := by decide +kernel
theorem witness_AddressingModes : (∀ k : Fin 4, ({ u := 0, m := k } : Op).m = k) ∧ (0 : Fin 4).val ≠ 3 := by decide
theorem witness_SharedMemoryAccess :
    (ab 0xFFFE0 0).issues o1 ∧ o1.u.val < 512 ∧ (∀ op ∈ [9, 0x0A, 0x0B, 0x10, 0x0C, 0x0D, 0x0E], illegalL (o1.word op) = none) ∧
    illegalL (Op.word { o1 with d := 60 } 0x0F) = none ∧ ((ab 0xFFFFC 0).unit 0).ea o1 = 0xFFFFC ∧ 0xFFFFC % 4 = 0 ∧
    ((ab 0xFFFF8 0).unit 0).ea o1 = 0xFFFF8 ∧ 0xFFFF8 % 8 = 0 ∧ ((ab 0xFFFE0 0).unit 0).ea o1 = 0xFFFE0 ∧ 0xFFFE0 % 32 = 0 ∧
    0xFFFE0 < 0x100000 ∧ ((ab 0x100000 0).unit 0).ea o1 = 0x100000 ∧ ((ab 0xFFFFF 0).unit 0).ea o1 % 4 ≠ 0 ∧
    (State.reset.setUnit 512 { wait := .run, mid := none }).issues { o1 with u := 512 } ∧
    o1.a.val < 32 ∧ o1.m.val ≠ 1 ∧ o1.b.val < 32 ∧ o1.d.val % 4 ≠ 0 ∧
    (State.reset.unit 0).readNew = none ∧ (State.reset.unit 0).writeNew = none ∧
    (let x : UnitSt := { readNew := some ⟨0, 4, [], 0⟩, readBuf := some ⟨4, 4, [], 0⟩, writeNew := some ⟨0, 4, 0⟩, writeBuf := some ⟨4, 4, 0⟩ }
     let y := (unitAt x).unit 0
     y.readNew = some ⟨0, 4, [], 0⟩ ∧ y.readBuf.isSome = true ∧ y.writeNew = some ⟨0, 4, 0⟩ ∧ y.writeBuf.isSome = true) ∧
    (State.reset.unit 0).readBuf = none ∧ (State.reset.unit 0).writeBuf = none := by decide +kernel
def oLdt : Op := { u := 0, d := 63 }
theorem witness_TapFifoAndRegisterMoves : (ab 0 0 { fifo := [5, 6] }).issues oLdt ∧ illegalL (oLdt.word 0x11) = none ∧
    ((ab 0 0 { fifo := [5, 6] }).finds oLdt).tapDue = [] ∧ ((ab 0 0 { fifo := [5, 6] }).finds oLdt).fifo = [5, 6] ∧
    (ab 0 0).issues oLdt ∧ ((ab 0 0).finds oLdt).fifo = [] ∧
    (let s := ab 0 0 { cyc := 7, tapDue := [(7, 9)] }
     s.issues oLdt ∧ (s.finds oLdt).tapDue = [(7, 9)] ∧ 7 ≤ (s.finds oLdt).cyc ∧ (s.finds oLdt).fifo = []) ∧
    illegalL (Op.word { u := 0, a := 63, d := 31, m := 1 } 0x12) = none ∧
    illegalL (Op.word { u := 0, a := 31, b := 31, d := 63 } 0x13) = none := by decide +kernel
theorem witness_BranchesAndReturnStack : let x := (ab 0 0 { depth := 3 }).finds o1
    x.wait = .run ∧ x.delay = 0 ∧ x.nearLoopEnd = false ∧ x.getP o1.pred.val = true ∧ x.depth < 4 ∧ 0 < x.depth ∧ x.depth ≤ 4 ∧
    ((ab 0 0 { depth := 3 }).finds guarded).getP guarded.pred.val = false ∧ ((ab 0 0 { depth := 4 }).finds o1).depth = 4 ∧
    ((ab 0 0).finds o1).depth = 0 ∧ ((ab 0 0 { delay := 1 }).unit 0).delay ≠ 0 ∧
    ((ab 0 0 { la := 1, le := [(0, 5)], pc := 5 }).finds o1).nearLoopEnd = true := by decide +kernel
theorem witness_BranchTargetAfterTwoDelayBundles : let x : UnitSt := { delay := 3, brTo := some 1023 }
    x.delay = 3 ∧ x.la = 0 ∧ x.flight = [] := by decide
theorem witness_LoopStartAndEnd : let x := (ab 7 0 { pc := 1023 }).unit 0
    (ab 7 0 { pc := 1023 }).issues o1 ∧ x.delay = 0 ∧ x.levelOn 3 = false ∧ x.flight = [] ∧ x.getA 1 ≠ 0 ∧ x.getA 4 = 0 ∧
    (ab 7 0 { la := 8 }).issues o1 ∧ ((ab 7 0 { la := 8 }).unit 0).levelOn 3 = true ∧
    (let z : UnitSt := { la := 8, lc := [(3, 2)], le := [(3, 1023)], pc := 1023 }
     z.la = 1#4 <<< 3 ∧ z.delay = 0 ∧ z.flight = [] ∧ Tab.get 0 z.le 3 = z.pc ∧ 1 < (Tab.get 0 z.lc 3).toNat ∧
     (Tab.get 0 ({ z with lc := [(3, 1)] } : UnitSt).lc 3).toNat ≤ 1) := by decide +kernel
theorem witness_WaitsHaltAndSpecialRegisters : let x := (ab 0 0 { dmaOut := 1 }).finds o1
    (ab 0 0 { dmaOut := 1 }).issues o1 ∧ x.delay = 0 ∧ x.flight = [] ∧ x.dmaOut ≠ 0 ∧ ((ab 0 0).finds o1).dmaOut = 0 ∧
    oTopA.d.val < 32 ∧ oTopA.a.val < 32 ∧ o1.u.val < 512 ∧ x.readNew = none ∧ x.readBuf = none ∧
    (let s := ab 0 0 { readNew := some ⟨0, 4, [], 0⟩ }
     s.issues o1 ∧ (s.finds o1).delay = 0 ∧ (s.finds o1).readNew.isSome = true) := by decide +kernel
theorem witness_ResultsBecomeVisible : let x := (ab 0 0 { cyc := 5, flight := [⟨5, .f 3, 8, 0⟩, ⟨5, .f 3, 9, 1⟩] }).unit 0
    x.flight = ⟨5, .f 3, 8, 0⟩ :: ⟨5, .f 3, 9, 1⟩ :: [] ∧ 5 ≤ x.cyc ∧
    (let y := (unitAt { wait := .sync, flight := [⟨5, .a 0, 8, 0⟩, ⟨7, .a 3, 1, 0⟩] }).unit 0
     y.flight = ⟨5, .a 0, 8, 0⟩ :: [⟨7, .a 3, 1, 0⟩] ∧ y.wait ≠ .run ∧ ∀ q ∈ [(⟨7, .a 3, 1, 0⟩ : Landing)], max y.cyc 5 < q.cycle) ∧
    ((ab 0 0 { cyc := 5, flight := [⟨5, .p 7, 1, 0⟩] }).unit 0).flight = [⟨5, .p 7, 1, 0⟩] ∧
    (let z := (ab 0 0 { flight := [⟨1, .p 7, 1, 0⟩] }).unit 0
     z.wait = .run ∧ ∀ q ∈ z.flight, z.cyc < q.cycle) ∧ (State.reset.unit 0).flight = [] ∧
    7 % 8 ≠ 0 ∧ 8 % 8 = 0 ∧ 3 % 32 ≠ 0 ∧ 32 % 32 = 0 := by decide +kernel
theorem witness_TrapEntryAndStop : let x := (ab 0 0 { pendDebug := some 0xFFF, tvec := 0x800003FF, pc := 1023, la := 3 }).unit 0
    x.wait = .run ∧ x.mid = none ∧ x.delay = 0 ∧ x.pendDebug = some 0xFFF ∧ x.tactive = false ∧ x.flight = [] ∧ x.readNew = none ∧
    x.readBuf = none ∧ x.tvec.getLsbD 31 = true ∧ ((ab 0 0 { pendDebug := some 0 }).unit 0).tvec.getLsbD 31 = false ∧
    (State.reset.unit 0).wait ≠ .run ∧ (ab 0 0).gapTrap 0 = none ∧ x.pc < 1024 ∧ (511 : Fin 516).val < 512 := by decide +kernel
theorem witness_BarrierAndDmaRelease : (∀ k < 8, ((unitAt { wait := .sync }).unit (8 * (0 : Fin 64).val + k)).wait = .sync ∨
      ((unitAt { wait := .sync }).unit (8 * (0 : Fin 64).val + k)).wait = .halted) ∧
    ((ab 0 0).unit (8 * (0 : Fin 64).val + 0)).wait = .run ∧ ((unitAt { wait := .dma }).unit 0).wait = .dma ∧
    ((unitAt { wait := .dma, dmaOut := 1 }).unit 0).dmaOut ≠ 0 := by decide +kernel

/-! ## Clusters, schedules and self-test -/

def fe : FiringEntry := {
  cluster := 0, index := 1, slotTable := [0x0403, 0x8403], entries := [5, 6, 7], outputs := [{ space := 3, addr := 0x1000 }],
  reservations := [{ space := 0, remoteHi := 4096 }, { space := 4, target := 1, out := true, remoteHi := 2 ^ 20 }],
  glaze := some ⟨0x200, 2, 0, 0⟩ }
def im : SchedImage := {
  shares := [{ domain := 0 }], regions := [{ region := 0, domain := some 0 }],
  clusters := [{ cluster := 0, images := [7] }], firings := [fe] }
def im2 : SchedImage := { im with sig := { kind := 4, signer := 1 } }
def act (i : SchedImage) (s : State) : State := { s with sched := { s.sched with bank0 := { image := some i } } }
def pend (b : Bank) (l : List Nat) (s : State) : State := { s with sched := { s.sched with bank1 := b, toSwitch := l } }
/-- A firing whose sequencer phase is over. -/
def fr : Firing := { entry := fe, fsi := 48, budget := 100, clk := 32 }
/-- Domain P running under the schedule `im`. -/
def sA : State := act im (dm 0 run0 State.reset)
/-- A firing runs in cluster 0. -/
def sF (x : ClusterSt := {}) : State := sA.setCluster 0 { x with firing := some fr }
def unitF (k : Nat) (x : UnitSt) (s : State := sF) : State := s.setUnit k x
def dOut :  ClDma := { unit := 1, localAddr := 0x100, remote := 0x40, space := 4, target := 1, length := 64, out := true, resv := 1 }
def dIn : ClDma := { unit := 7, localAddr := 0x100, remote := 0x40, space := 0, length := 64, resv := 0 }

/-- A region in its clock start phase. -/
def starting (g : Nat) (s : State := State.reset) : State := { s with regions := [(g, { starting := true })] }
theorem witness_RegionClocks :
    sA.regionDemand 0 = true ∧ sA.bit (Reg.FABRIC_RG_CLK_RUNNING 0) = false ∧ sA.regionDemand 7 = false ∧
    (w [(Reg.FABRIC_RG_CLK_RUNNING 7, 1)]).bit (Reg.FABRIC_RG_CLK_RUNNING 7) = true ∧
    (∀ k < 8, (sA.cluster (8 * (0 : Fin 8).val + k)).firing = none) ∧ (sF.cluster (8 * (0 : Fin 8).val + 0)).firing ≠ none ∧
    ((starting 7).region 7).starting = true ∧ (starting 7).bit (Reg.FABRIC_RG_CLK_LOCKED 7) = false ∧
    (State.reset.region 7).starting = false ∧ (w [(Reg.FABRIC_RG_CLK_LOCKED 7, 1)]).bit (Reg.FABRIC_RG_CLK_LOCKED 7) = true ∧
    (starting 7 (w [(Reg.FABRIC_RG_CLK_LOCKED 7, 1)])).bit (Reg.FABRIC_RG_CLK_LOCKED 7) = true ∧
    (w [(Reg.FABRIC_RG_CLK_RUNNING 7, 1)]).executes 63 = true ∧ (w [(Reg.SCHED_QUAR_QUAR, 2 ^ 63)]).executes 63 = false := by
  decide +kernel
/-- The firing of cluster 0 at its budget, and one cycle before. -/
def sFc (clk : Nat) (o : List OutDest := fe.outputs) (s : State := sA) : State :=
  s.setCluster 0 { firing := some { fr with clk := clk, entry := { fe with outputs := o } } }
theorem witness_CutOfAFiring : (sA.cluster 63).firing = none ∧ (sFc 99).cycles 0 = 99 ∧ (sFc 100).cycles 0 = 100 ∧ fr.budget = 100 ∧
    ((sFc 100).cluster 0).firing = some { fr with clk := 100, entry := { fe with outputs := fe.outputs } } ∧
    (sFc 99).get (Reg.FABRIC_CL_CUT_CAUSE 0) = 0 ∧ (∀ o ∈ ([] : List OutDest), o.space = 1) ∧
    fe.outputs = [{ space := 3, addr := 0x1000 }] ∧ ({ space := 3, addr := 0x1000 } : OutDest).line = 0 := by decide +kernel
/-- Cluster 0 awake in a running region with its programs. -/
def sReady (x : ClusterSt := {}) : State := (sA.put (Reg.FABRIC_RG_CLK_RUNNING 0) 1).setCluster 0 { x with retention := false, loaded := [7] }
theorem witness_FiringStartAndEnd : sReady.imageAt 0 = some (im, 0) ∧
    (firingsOf im (sReady.logical 0)).find? (fun e => e.index == 1) = some fe ∧ (sReady.cluster 0).firing = none ∧
    sReady.firingsOff 0 = false ∧ (sReady.dom 0).block ≤ (sReady.dom 0).si ∧ sReady.executes 0 = true ∧
    sReady.bit (Reg.FABRIC_RG_CLK_RUNNING 0) = true ∧ (sReady.cluster 0).retention = false ∧
    (sReady.cluster 0).loaded = imagesOf im (sReady.logical 0) ∧ fe.taps = none ∧ (sA.cluster 0).retention = true ∧
    sA.executes 0 = true ∧ (sReady { zeroing := true }).executes 0 = false ∧
    (sFc 100).drained 0 = true ∧ (sFc 100).cycles 0 ≤ 100 ∧ (sFc 101).drained 0 = true ∧ 100 < (sFc 101).cycles 0 ∧
    (sF { dmaQueue := [dOut] }).drained 0 = false ∧ (unitF 7 { wait := .halted, writeNew := some ⟨0, 4, 0⟩ }).drained 0 = false := by
  decide +kernel
theorem witness_SharedMemoryPort :
    let s := unitF 0 { wait := .run, readNew := some ⟨0x100, 4, [.a 3], 5⟩ } (unitF 1 { wait := .run, readNew := some ⟨0x11C, 4, [.a 5], 6⟩ })
    (s.cluster 0).firing = some fr ∧ fr.entry.seqCycles ≤ fr.clk ∧ fr.clk ≤ fr.entry.seqCycles + 0 ∧ fr.glaze = none ∧
    (s.cluster 0).dmaRun = none ∧ isWriteCycle (slotEntry fr 0) = false ∧ grants (slotEntry fr 0) 0 = true ∧
    grants (slotEntry fr 0) 1 = true ∧ (s.unit 0).presentedRead = some ⟨0x100, 4, [.a 3], 5⟩ ∧
    (s.unit 1).presentedRead = some ⟨0x11C, 4, [.a 5], 6⟩ ∧ portWord 0x11C = portWord 0x100 ∧ (s.unit 1).wait = .run ∧
    (s.unit 1).readBuf = none ∧ (s.unit 1).readNew = some ⟨0x11C, 4, [.a 5], 6⟩ ∧ grants (slotEntry fr 0) 2 = false ∧
    portWord 0x120 ≠ portWord 0x100 ∧ fr.entry.seqCycles + 0 < { fr with clk := 33 }.clk := by decide +kernel
theorem witness_SharedMemoryPort_write :
    let s := unitF 0 { writeNew := some ⟨0xFFFF8, 8, 5⟩ } (unitF 1 { writeNew := some ⟨0xFFFFC, 4, 6⟩ })
    (s.cluster 0).firing = some fr ∧ fr.clk ≤ fr.entry.seqCycles + 1 ∧ isWriteCycle (slotEntry fr 1) = true ∧ grants (slotEntry fr 1) 0 = true ∧
    grants (slotEntry fr 1) 1 = true ∧ (s.unit 0).presentedWrite = some ⟨0xFFFF8, 8, 5⟩ ∧ 0xFFFF8 < 2 ^ 20 ∧
    (s.unit 1).presentedWrite = some ⟨0xFFFFC, 4, 6⟩ ∧ portWord 0xFFFFC = portWord 0xFFFF8 := by decide +kernel
theorem witness_ClusterDmaAndPeek :
    let s := sF { dmaQueue := [dOut] }
    (s.cluster 0).firing = some fr ∧ (s.cluster 0).dmaRun = none ∧ (s.cluster 0).dmaQueue = dOut :: [] ∧ dIn.unit < 8 ∧
    s.dmaCheck 0 fr dIn = none ∧ s.dmaCheck 0 fr { dOut with length := 2 ^ 20 } = some 2 ∧
    sF.bit (Reg.FABRIC_CL_DMA_DMA_ERR 0) = false ∧ (w [(Reg.FABRIC_CL_DMA_DMA_ERR 0, 1)]).bit (Reg.FABRIC_CL_DMA_DMA_ERR 0) = true ∧
    ((sF { dmaRun := some dOut }).cluster 0).dmaRun = some dOut ∧ fr.entry.seqCycles ≤ fr.clk ∧ fr.glaze = none ∧
    (∃ en ∈ fr.entry.slotTable, grants en 10 = true ∧ isWriteCycle en = !dOut.out) ∧
    (∃ en ∈ fr.entry.slotTable, grants en 10 = true ∧ isWriteCycle en = !dIn.out) ∧
    (∀ u < 8, ((sF { dmaRun := some dOut }).unit (8 * (0 : Fin 64).val + u)).reading = false ∧
      ((sF { dmaRun := some dOut }).unit (8 * (0 : Fin 64).val + u)).writing = false) ∧
    dOut.moved = 0 ∧ 0 < dOut.length ∧ dOut.length % 32 = 0 ∧ 0xFF7C0 + dOut.length ≤ 0xFF800 ∧ dOut.space = 4 ∧ dOut.target < 64 ∧
    dOut.target ≠ 0 ∧ 0xFFFC0 + dOut.length ≤ 2 ^ 20 ∧ dIn.out = false ∧ dIn.space = 0 ∧
    ((State.reset.setCluster 63 { peek := some (0xFFF00, {}) }).cluster 63).peek = some (0xFFF00, {}) ∧
    (sF.cluster 0).firing.isSome = true := by decide +kernel
/-- A bypassed section with its input block, and one that has been computed. -/
def gRun : GlazeRun := { sec := 1, base := 0x220, desc := [0, 0, 0, 0, 0, 0x80000000, 0x100, 0x400], inp := List.replicate 16 9 }
def sGlz (g : Option GlazeRun) (k : Nat) : State := sA.setCluster 0 { firing := some { fr with glazeDone := k, glaze := g } }
theorem witness_FramesAndGlazeSections : (sA.dom 0).configured = true ∧ (sA.dom 0).running = true ∧ sA.pwr.afterRamp = none ∧
    (sA.dom 2).configured = false ∧ fr.entry.glaze = some ⟨0x200, 2, 0, 0⟩ ∧
    ((sGlz none 0).cluster 0).firing = some { fr with glazeDone := 0, glaze := none } ∧ 1 < 2 ∧
    ((sGlz (some { gRun with ready := true }) 1).cluster 0).firing = some { fr with glazeDone := 1, glaze := some { gRun with ready := true } } ∧
    ((sGlz none 2).cluster 0).firing = some { fr with glazeDone := 2, glaze := none } ∧ (2 : Nat) ≤ 2 ∧
    ((sGlz (some gRun) 1).cluster 0).firing = some { fr with glazeDone := 1, glaze := some gRun } ∧ gRun.ready = false ∧
    gRun.bypass = true ∧ gRun.chain = false ∧ gRun.new = false ∧ gRun.ramp = 0 ∧ gRun.inp.length = (sA.dom fr.domain).block := by
  decide +kernel

def im3 : SchedImage := { im2 with shares := [{ domain := 0, block := 32 }] }
theorem witness_ScheduleSwitchAndRange :
    let s := pend { image := some im2, armed := true, switchSi := 64 } [0] sA
    let t := pend { image := some im3, armed := true, switchSi := 64 } [0] sA
    s.pendingBank.image = some im2 ∧ s.pendingBank.armed = true ∧ s.sched.toSwitch = [(0 : Fin 3).val] ∧
    (s.dom 0).configured = true ∧ s.siTo 0 s.pendingBank.switchSi ≤ (s.dom 0).si ∧ rangeChanges s.active im2 s.pendingBank.roast 0 = false ∧
    t.pendingBank.image = some im3 ∧ t.siTo 0 t.pendingBank.switchSi ≤ (t.dom 0).si ∧
    rangeChanges t.active im3 t.pendingBank.roast 0 = true ∧ Tab.get 0 t.pwr.range 0 = 0 ∧
    (let u := pend { image := some im2, armed := true, switchSi := 65 } [0] sA; (u.dom 0).si < u.siTo 0 u.pendingBank.switchSi) ∧
    (let v := pend { image := some im2, armed := true, switchSi := 64 } [2] sA
     (v.dom 2).configured = false ∧ v.pendingBank.switchSi ≤ (v.dom 0).si ∧ v.sched.toSwitch = [(2 : Fin 3).val] ∧
      rangeChanges v.active im2 v.pendingBank.roast 2 = false) ∧ (shareOf im3 0).isSome = true := by decide +kernel
/-- Domain P as its ramp to zero ends: 480 samples after it began at 16. -/
def sRamp : State := { (dm 0 { run0 with si := 496 } sA) with pwr := { State.reset.pwr with range := [(0, 1)], gain := [(0, { start := 16 })] } }
def sStopped : State := { (pend { image := some im3, armed := true, switchSi := 64 } [0] sA) with pwr := { State.reset.pwr with range := [(0, 2)] } }
theorem witness_ScheduleSwitchAndRange_stop : Tab.get 0 sRamp.pwr.range 0 = 1 ∧
    (Tab.get {} sRamp.pwr.gain 0).start + sRamp.samplesMs 0 5 ≤ (sRamp.dom 0).si + (Tab.get {} sRamp.pwr.gain 0).base ∧
    sRamp.active = some im ∧ domainOf im 0 = some 0 ∧ sStopped.pendingBank.image = some im3 ∧
    (shareOf im3 0).isSome = true ∧ Tab.get 0 sStopped.pwr.range 0 = 2 ∧ (sStopped.dom 0).configured = true := by decide +kernel

def im4 : SchedImage := { sig := { kind := 4, signer := 1 } }
def adm (i : SchedImage) (h : CmdHdr) : State :=
  let s := w [(Reg.TRUST_STATE_LCS, 3)]
  { s with sched := { s.sched with checking := [(h, i)] } }
/-- The state after the oldest admission has been taken from those in progress. -/
def taken (s : State) : State := (s.modSched fun q => { q with checking := [] }).putBit Reg.SCHED_STATUS_CHECKING (!([] : List Nat).isEmpty)
theorem witness_ImagesAndAdmission : (3 ≤ 3 ∧ 64 ≤ 64 ∧ 2 ^ 24 ≤ 2 ^ 24 ∧ 4095 ≤ 4095 ∧ (3 = 3 ∨ 4095 = 0)) ∧ State.reset.stagingFits (2 ^ 24) = true ∧ State.reset.standby = false ∧
    (w [(Reg.PAIR_STATUS_ROLE, 2)]).standby = true ∧
    (let s := adm im4 { target := 2 ^ 64 - 1 }
     s.sched.checking = ({ target := 2 ^ 64 - 1 }, im4) :: [] ∧ s.pendingBank.armed = false ∧
      s.bit Reg.SCHED_STATUS_THERM_HOLD = false ∧ (taken s).checkSig im4.sig 4 = none ∧ movesRegion s.active im4 = false ∧ im4.bridges.all (s.bridgeOk im4) = true ∧
      (taken s).rangeRefused im4 false = none ∧ (taken s).checks im4 = none) ∧
    (let s := adm im2 {}
     s.sched.checking = ({}, im2) :: [] ∧ (taken s).checkSig im2.sig 4 = none ∧ movesRegion s.active im2 = false ∧ im2.bridges.all (s.bridgeOk im2) = true ∧
      (taken s).rangeRefused im2 false = none ∧ ((taken s).checks im2).isSome = true) := by decide +kernel
theorem witness_ImagesAndAdmission_arm :
    (let s := pend { image := some im2 } [] sA
     s.pendingBank.image = some im2 ∧ s.pendingBank.armed = false ∧ s.standby = false ∧
      s.switchSharesOk im2 (s.applyAt 0 96).1 = true ∧ (s.armBank (s.applyAt 0 96).1 { target := 96 }).poursFit = true ∧
      (s.applyAt 0 96).2 = false ∧ ((dm 0 { run0 with begun := 80 } s).applyAt 0 64).2 = true) ∧
    (pend { image := some im2, armed := true } [] sA).pendingBank.armed = true := by decide +kernel
def wr (r : Readmit) (s : State) : State := s.modSched fun q => { q with readmits := [r] }
theorem witness_ReadmissionHoldAndSlices :
    (let s := w [(Reg.SCHED_QUAR_QUAR, 1)] sA
     s.standby = false ∧ s.bit Reg.SCHED_STATUS_THERM_HOLD = false ∧ s.active = some im ∧ s.quarantined 0 = true ∧
      s.bit (Reg.FABRIC_RG_CLK_BYPASS 0) = false ∧ firingsOf im (s.logical 0) ≠ []) ∧
    (let r : Readmit := { hdr := {}, clusters := [0], target := 64 }
     let s := wr r sA
     s.sched.readmits = [r] ∧ r.servos = [] ∧ (s.imageAt 0).isSome = true ∧ s.clusterDomain 0 = 0 ∧
      s.siTo 0 r.target ≤ (s.dom 0).si) ∧
    (List.replicate 12 (970 : BitVec 16)).length = 12 ∧ 1000 < (1001 : BitVec 16).toInt ∧ (1000 : BitVec 16).toInt ≤ 1000 ∧
    (970 : BitVec 16).toInt ≤ 970 ∧ 970 < (971 : BitVec 16).toInt ∧
    (w [(Reg.SCHED_STATUS_THERM_HOLD, 1)]).bit Reg.SCHED_STATUS_THERM_HOLD = true ∧
    (sW).hostUp = true ∧ (sW).bit Reg.GLOBAL_RESTORE_DONE = true ∧ (sW).bit Reg.SCHED_STATUS_NONE = true ∧
    (w [(Reg.SCHED_STATUS_NONE, 0)]).bit Reg.SCHED_STATUS_NONE = false ∧ (0x2A : BitVec 32).toNat % 4 ≠ 3 ∧
    (0x2A : BitVec 32).toNat / 4 % 4 ≠ 3 ∧ (0x2A : BitVec 32).toNat / 16 % 4 ≠ 3 := by decide +kernel
theorem witness_RotationSelfTestAndReference :
    (let s := w [(Reg.BIST_ROT_RG_ENABLED 0, 1), (Reg.BIST_ROT_RG_SPARE 0, 7)] sA
     s.bit (Reg.BIST_ROT_RG_ENABLED 0) = true ∧ s.bit (Reg.BIST_ROT_RG_WITHDRAWN 0) = false ∧ s.rotationFrame 0 = true ∧
      s.get (Reg.BIST_ROT_RG_SPARE 0) < 8 ∧ s.rotationWaits 0 = false ∧ (s.cluster 0).firing = none) ∧
    (w [(Reg.BIST_ROT_RG_ENABLED 0, 1), (Reg.SCHED_QUAR_QUAR, 128)] sA).rotationWaits 0 = true ∧
    (w [(Reg.BIST_ROT_RG_ENABLED 0, 1), (Reg.SCHED_QUAR_QUAR, 128)] sA).rotationFrame 0 = true ∧
    (w [(Reg.BIST_ROT_RG_TESTING 7, 1)]).bit (Reg.BIST_ROT_RG_TESTING 7) = true ∧ (sW).hostUp = true ∧
    (sW).bistAnswer 3 7 = .ok ∧ State.reset.bit Reg.CLK_STATUS_REFXO_FAIL = false := by decide +kernel
theorem witness_RotationSelfTestAndReference_bist :
    let s : State := { sW with bist := { queued := [(3, 7)], running := [(12, 255)] } }
    ((3 : BitVec 8).toNat, (7 : BitVec 8).toNat) ∈ s.bist.queued ∧ s.bistAllowed 3 = true ∧ s.bistCondition 3 7 = .ok ∧
    ((12 : BitVec 8).toNat, (255 : BitVec 8).toNat) ∈ s.bist.running := by decide +kernel

/-! ## Parameters, pours and the host interface -/

def h4 : Nat := mkHandle 4 0 0
def imL : SchedImage := { im with
  layout := [{ cls := 4, count := 4, firing := 1 }, { cls := 1, count := 4, firing := 1, dupCycles := 10 }]
  slots := [{ handle := h4, addr := 0x400 }, { handle := mkHandle 1 0 0, addr := 0x420 }]
  shares := [{ domain := 0, hostLink := 16 }] }
def imS : SchedImage := { imL with shares := [{ domain := 0, hostLink := 0 }] }
def hw : State := w (winRegs ++ [(Reg.HOST_STATUS_SPEED, 4), (Reg.HOST_STATUS_WIDTH, 2), (Reg.HOST_LEDGER_UP_PCT, 80)])
def sL : State := act imL (dm 0 run0 hw)
/-- Five thousand changes wait, as many as a cluster's queue holds and more. -/
def full : State := { sL with mix := { sL.mix with changes := List.replicate 5000 { handle := h4, cluster := 0, target := 2 ^ 40 } } }
/-- A strip and a bus whose crossfades fit, and the same without headroom. -/
def imH : SchedImage := { imL with
  firings := [{ fe with headShare := 100, reservations := fe.reservations.map fun r => { r with headBytesPerTick := 4096 } }] }
def sH : State := act imH (dm 0 run0 hw)
/-- How a list of changes plans: 0 an item fails, 1 the queue is full, 2 no headroom, 3 fits, 4 fits and waits for a crossfade. -/
def plans (s : State) (l : List ParamItem) : Nat := match s.planAll 0 (.samples 480) false l 0 with
  | .error _ => 0
  | .ok ps => match s.planOf ps 1 s.mix.nextOrder none [s.mix.nextOrder + 1] with
    | .error (.busy, _) => 1
    | .error (.noHeadroom, _) => 2
    | .error _ => 5
    | .ok p => if p.fades.any (·.waiters.contains (s.mix.nextOrder + 1)) then 4 else 3
/-- How a list of patches plans, with the same numbers; 2 for each that does not fit. -/
def routes (s : State) (l : List RouteItem) : Nat := match s.planPatches 0 480 false l 0 with
  | .error _ => 0
  | .ok ps => match s.commitPatches (ps.map (·.1)) (2 ^ 113 + s.mix.nextOrder) none [s.mix.nextOrder + 1] with
    | .error _ => 2
    | .ok u => if u.mix.fades.any (·.waiters.contains (s.mix.nextOrder + 1)) then 4 else 3

theorem witness_ParameterAndRouteChanges : sL.listCheck {} .inline 1 4096 = none ∧ sL.standby = false ∧
    plans sL [⟨mkHandle 9 0 0, 0⟩] = 0 ∧ plans full [⟨h4, 0x40000000⟩] = 1 ∧ plans sL [⟨mkHandle 1 0 131, 1⟩] = 2 ∧
    plans sL [⟨h4, 0x40000000⟩] = 3 ∧ plans sH [⟨mkHandle 1 0 131, 1⟩] = 4 := by decide +kernel
theorem witness_ParameterAndRouteChanges_route : (1 ≤ 1 ∧ sL.listCheck {} .inline 1 1024 = none) ∧ sL.active = some imL ∧
    sH.active = some imH ∧ routes sL [⟨0xFFFF0000, 0⟩] = 0 ∧ routes sL [⟨mkAddr 0x10 0, mkAddr 0x10 1⟩] = 2 ∧
    routes sL [⟨mkAddr 0x10 0, 0⟩] = 3 ∧ routes sH [⟨mkAddr 0x10 0, mkAddr 0x10 1⟩] = 4 := by decide +kernel

def mp : Nat := mkHandle 1 0 0
def m1 : MeterSub := { points := [mp], period := 10, buf := 0x2000, domain := 0 }
def meterOf (s : State) : MeterSub := { points := [mp], period := 10, buf := 0x2000, domain := objectDomain imL mp,
                                        ring := s.cmdRing {}, values := [0xC3100000], phase := (s.dom 0).si / (s.dom 0).block }
def sM : State := { sL with mix := { sL.mix with meters := [(0, some m1), (15, some m1)] } }
def sS : State := act imS (dm 0 run0 hw)
theorem witness_MetersAndQueries : sL.windowOk 0x1000 (4 * 1) false = true ∧ sL.windowOk 0x2000 (2 * halfBytes 1) true = true ∧
    sL.active = some imL ∧ knownMeter imL mp = true ∧
    (sL.dom (objectDomain imL mp)).rate ≤ 10 * (sL.dom (objectDomain imL mp)).block * 1000 ∧
    (List.range 16).find? (fun k => (Tab.get none sL.mix.meters k).isNone) = some 0 ∧
    sL.meterFits imL (objectDomain imL mp) (meterOf sL :: sL.metersOf (objectDomain imL mp)) = true ∧
    sS.meterFits imS (objectDomain imS mp) (meterOf sS :: sS.metersOf (objectDomain imS mp)) = false ∧
    Tab.get none sM.mix.meters 15 = some m1 ∧ sM.windowOk m1.buf (2 * halfBytes m1.points.length) true = true ∧
    halfBytes m1.points.length ≤ sM.ledgerLeft ∧
    (let n : State := { sM with host := { sM.host with charged := 2 ^ 20 } }
     n.ledgerLeft < halfBytes m1.points.length ∧ n.windowOk m1.buf (2 * halfBytes m1.points.length) true = true) ∧
    ({ State.reset with mix := sM.mix }).windowOk m1.buf (2 * halfBytes m1.points.length) true = false ∧
    Tab.get none sM.mix.meters 14 = none ∧ 15 < 16 ∧ (16 : Nat) ≤ 16 := by decide +kernel
def sQ : State := { sL with mix := { sL.mix with patch := [(mkAddr 1 0, { source := mkAddr 2 0 })] } }
theorem witness_MetersAndQueries_query : (sQ.latency (mkAddr 1 0) (mkAddr 2 0)).isSome = true ∧ sQ.latency 0 0 = none ∧
    sL.active = some imL ∧ (paramInfo (sL.dom (sL.handleDomain h4)).rate h4).isSome = true ∧ inPlace imL h4 = true ∧
    State.reset.active = none ∧ inPlace imL (mkHandle 4 4 0) = false ∧ (paramInfo 96000 (mkHandle 9 0 0)).isSome = false ∧
    ((sL.setCluster 63 { peek := some (0, {}) }).cluster 63).peek.isSome = true ∧ (2 ^ 63 : BitVec 64) ≠ 0 ∧ (128 : BitVec 8) ≠ 0 ∧
    0xFFF00 % 256 = 0 ∧ 0xFFF00 < 2 ^ 20 ∧ (sL.cluster 63).peek = none ∧ 0xFFFFF % 256 ≠ 0 := by decide +kernel

def pq : PourReq := { runs := [{ handle := h4, values := [0x40000000] }], listAddr := 0x1000, listLen := 16 }
def pr : Pour := { origin := 0, tag := 3, t := 96, runs := [{ handle := h4, values := [0x40000000] }], hdr := some {}, completes := true }
def sPour (p : Pour) : State := { sL with pours := { sL.pours with live := [p] } }
def prBad : Pour := { pr with strict := true, runs := [{ handle := h4, values := [0x7FC00000] }] }
theorem witness_PourLife : pq.reservedOk = true ∧ pq.law ≤ 2 ∧ pq.policy ≤ 2 ∧ pq.templateNo ≤ 63 ∧ pq.scene = 0xFFFF ∧
    pq.devsel = 0 ∧ sL.windowOk pq.listAddr pq.listLen false = true ∧ sL.standby = false ∧ pq.template = false ∧ pq.endSi = none ∧
    ({} : CmdHdr).target = 0 ∧ { pq with template := true }.template = true ∧ { pq with policy := 1 }.policy = 1 ∧
    sL.get Reg.PAIR_CFG_EN ≠ 1 ∧ sL.liveCount < 64 ∧
    (∀ p ∈ (sPour { pr with phase := .finished }).pours.live, p.origin = sL.devnum → p.tag = 3 → phaseFinal p.phase = true) ∧
    (sPour pr).pours.live.find? (fun p => p.phase == .compiling) = some pr ∧ pr.cancel = none ∧ pr.dryRun = false ∧
    (sPour pr).pourLate pr = false ∧ pr.late = false ∧
    (let s := dm 0 { run0 with begun := 112 } (sPour pr)
     s.pourLate pr = true ∧ s.pourLate { pr with strict := true } = true ∧ pr.soon = false ∧ pr.strict = false) := by decide +kernel
theorem witness_PourLife_compile : (match (sPour pr).compile pr with | .ok _ => true | .error _ => false) = true ∧
    (match (sPour prBad).compile prBad with | .ok _ => false | .error _ => true) = true := by decide +kernel
def prArmed : Pour := { pr with phase := .armed, t := 64, cancel := some (64, some {}, true) }
theorem witness_PourLife_start :
    (let s := dm 0 { run0 with begun := 80 } (sPour prArmed)
     s.pour (0 : BitVec 16).toNat (3 : BitVec 32).toNat = some prArmed ∧ prArmed.phase = .armed ∧ prArmed.t < s.earliest 0 ∧
      prArmed.cancel = some (64, some {}, true) ∧ 64 ≤ prArmed.t ∧ prArmed.cancel.isSome = true) ∧
    (sPour pr).pour 0 3 = some pr ∧ pr.phase ≠ .armed ∧ (sPour pr).standby = false ∧ (sPour pr).devnum = 0 ∧
    phaseFinal pr.phase = false ∧ pr.cancel = none ∧ phaseFinal .finished = true ∧ (sPour pr).pour 0 4 = none := by decide +kernel
def pm : PourMsg := { kind := 1, origin := 5, tag := 3, scene := 3 }
def pd : PourDev := { dev := 5 }
def pp : Pour := { origin := 0, tag := 3, t := 64, devs := [pd], phase := .running }
def sPM : State :=
  let sc : SceneImage := { runs := [{ handle := h4, values := [0x40000000] }] }
  { dm 0 run0 State.reset with
    wl := { State.reset.wl with members := [(5, 77)], route := [(5, 4)] }
    pours := { State.reset.pours with library := [(3, some sc)], live := [pp] } }
theorem witness_PourMessages : Tab.get 0 sPM.wl.members pm.origin ≠ 0 ∧ pm.kind = 1 ∧
    sPM.pours.seen.contains (pm.origin, pm.tag) = false ∧ sPM.liveCount < 64 ∧ (Tab.get none sPM.pours.library pm.scene).isSome = true ∧
    (let m : PourMsg := { kind := 3, origin := 0, tag := 3 }
     m.kind = 3 ∧ m.origin = sPM.devnum ∧ sPM.pour m.origin m.tag = some pp ∧
      pp.devs.find? (fun d => d.dev == (5 : BitVec 16).toNat) = some pd ∧ pd.posted = none) ∧
    sPM.pour sPM.devnum (3 : BitVec 32).toNat = some pp ∧ pd ∈ pp.devs ∧ pd.dev = (5 : BitVec 16).toNat ∧
    phaseFinal pp.phase = false ∧ sPM.route (5 : BitVec 16).toNat = 4 ∧ (sPM.dom 0).si ≤ pp.t ∧ pd.heard = false ∧ (5 : BitVec 16).toNat ≠ sPM.devnum := by
  decide +kernel

def rg (r base tail head : Nat) : List (Fld × Nat) :=
  [(ringEnable r, 1), (ringLog2 r, 6), (ringBase r, base), (ringTail r, tail), (ringHead r, head)]
def sR : State := w (winRegs ++ rg 0 0x1000 3 1 ++ rg 8 0x4000 5 2 ++ rg 12 0x6000 6 2 ++ rg 7 0x8000 0 0)
def cfgWord (r n : Nat) : BitVec 32 := BitVec.ofNat 32 (2 ^ (ringEnable r).lo + n * 2 ^ (ringLog2 r).lo)
theorem witness_RingsAndWindows : sR.hostUp = true ∧ sR.bit (ringEnable 0) = true ∧ sR.get (ringLog2 0) = 6 ∧
    ringIdx 63 < 2 ^ 6 ∧ ringCount 6 (sR.get (ringHead 0)) (sR.get (ringTail 0)) ≤ ringCount 6 (sR.get (ringHead 0)) 63 ∧
    ringCount 6 (sR.get (ringHead 0)) 63 ≤ 2 ^ 6 ∧ sR.bit (ringEnable 8) = true ∧
    ringCount 6 5 (sR.get (ringTail 8)) ≤ ringCount 6 (sR.get (ringHead 8)) (sR.get (ringTail 8)) ∧ 2 ^ 6 ≤ ringIdx 64 := by
  decide +kernel
theorem witness_RingsAndWindows_config :
    (∀ e ∈ [(3, 0x1000, 6), (11, 0x1000, 11), (15, 0x1000, 11)], let s := w (winRegs ++ [(ringBase e.1, e.2.1)])
      s.hostUp = true ∧ s.bit (ringEnable e.1) = false ∧ fieldOf (cfgWord e.1 e.2.2).toNat (ringEnable e.1) = 1 ∧ s.pwr.start = none ∧
      6 ≤ fieldOf (cfgWord e.1 e.2.2).toNat (ringLog2 e.1) ∧ fieldOf (cfgWord e.1 e.2.2).toNat (ringLog2 e.1) ≤ 14 ∧
      s.get (ringBase e.1) % 4096 = 0 ∧
      s.ringMemOk e.1 (s.get (ringBase e.1)) (entryBytes e.1 * 2 ^ fieldOf (cfgWord e.1 e.2.2).toNat (ringLog2 e.1)) = true) ∧
    sR.bit (ringEnable 0) = true ∧ fieldOf (cfgWord 0 7).toNat (ringLog2 0) ≠ sR.get (ringLog2 0) ∧
    sR.bit (ringEnable 3) = false ∧ fieldOf (cfgWord 3 5).toNat (ringLog2 3) < 6 ∧ 14 < fieldOf (cfgWord 3 15).toNat (ringLog2 3) ∧
    sR.bit (Reg.HOST_WIN_CTL_ENABLE 0) = true ∧ (6 : BitVec 32).getLsbD 0 = false := by decide +kernel
def dn : Done := ⟨{ tag := 4 }, 0x0100, .ok, 0, 0, 0, false⟩
def hd : Held := { event := { code := 0x16, si := 5 }, vector := 59 }
def sU : State := { sR with host := { sR.host with
  urgTaken := [63], urg := [(63, some { opcode := 0x0201, tag := 5 })], done := [dn], issued := [⟨dn.hdr, dn.opcode⟩]
  holding := [(0, [hd]), (1, [hd])], msix := [(0, { moderated := true, waiting := true, masked := false })] } }
theorem witness_DispatchAndCompletion : (w [(Reg.HOST_URG_BUSY_BUSY, 2 ^ 63)]).hostUp = true ∧
    ((w [(Reg.HOST_URG_BUSY_BUSY, 2 ^ 63)]).get Reg.HOST_URG_BUSY_BUSY).testBit 63 = true ∧
    (sR.get Reg.HOST_URG_BUSY_BUSY).testBit 63 = false ∧ sU.host.urgTaken = 63 :: [] ∧
    Tab.get none sU.host.urg (63 : Fin 64) = some { opcode := 0x0201, tag := 5 } ∧ sR.host.urgTaken = [] ∧
    ((List.range 8).map fun k => (sR.host.lastRing + 1 + k) % 8).find? sR.mayFetch = some (0 : Fin 8).val ∧
    sR.windowOk (sR.headAddr 0) 64 false = true ∧ (badField (.ring 0) { opcode := 0xFFFF }).isSome = true ∧
    sU.host.done = dn :: [] ∧ dn.hdr.src = .ring 0 ∧ dn.interim = false ∧ (⟨dn.hdr, dn.opcode⟩ : Issued) ∈ sU.host.issued ∧
    (let e := sU.get (Reg.HOST_CRING_CFG_EVT 0) % 4
     sU.bit (Reg.HOST_ERING_CFG_ENABLE e) = true ∧ sU.get (Reg.HOST_ERING_ERR_CODE e) ≠ 2 ∧ sU.evMemOk e = true) ∧ sU.host.evWait = [] ∧ sU.host.reserveUsed + 32 ≤ 4096 ∧
    ({ sU with host := { sU.host with reserveUsed := 4065 } }).restRoom < 32 ∧
    (∀ i ∈ ([] : List Issued), i.hdr ≠ dn.hdr) := by decide +kernel
theorem witness_DispatchAndCompletion_events : Tab.get [] sU.host.holding 0 = [hd] ∧ sU.evRoom 0 = true ∧ sU.evMemOk 0 = true ∧
    Tab.get 0 sU.host.lost 0 = 0 ∧ sU.host.evWait = [] ∧ sU.host.reserveUsed + 32 ≤ 4096 ∧ Tab.get [] sU.host.holding 1 = [hd] ∧ sU.evRoom 1 = false ∧
    (Tab.get {} sU.host.msix 0).moderated = true ∧ (Tab.get {} sU.host.msix 0).waiting = true ∧
    (Tab.get {} sU.host.msix 0).masked = false ∧ (Tab.get {} sU.host.msix 63).waiting = false := by decide +kernel
def linkUp : State := w [(Reg.HOST_STATUS_LINK_UP, 1), (Reg.HOST_STATUS_WIDTH, 2), (Reg.HOST_STATUS_SPEED, 3)]
def retrained (x v : Nat) (s : State) : State :=
  ((s.put Reg.HOST_STATUS_WIDTH x).put Reg.HOST_STATUS_SPEED v).put Reg.HOST_STATUS_LINK_UP (if v ≠ 0 then 1 else 0)
theorem witness_LinkResetKeepsTheEngine : State.reset.bit Reg.HOST_STATUS_LINK_UP = false ∧
    linkUp.linkRate ≤ (retrained 2 4 linkUp).linkRate ∧ linkUp.bit Reg.HOST_STATUS_LINK_UP = true ∧
    (retrained 0 0 linkUp).linkRate < linkUp.linkRate ∧ (Reg.GLOBAL_ID_VENDOR).lo < 32 ∧ (Reg.GLOBAL_ID_VENDOR).off < 0x4000 ∧ 0xC000 ≤ (Reg.WL_DEVNUM_DEVNUM).off := by decide +kernel
def dd : DmaDesc := { host := 0x2000, engine := 64, length := 8 }
def sDm (n : Nat) (c : DmaCh) : State :=
  let s := w (winRegs ++ [(Reg.HOST_DRAM_WIN_SIZE_SIZE, 16), (Reg.DMA_CH_DESC_ADDR 12, 0x3000), (Reg.DMA_CH_DESC_ADDR 31, 0x3004)])
  { s with host := { State.reset.host with dma := [(n, c)] } }
def tr : Transfer := { hdr := { tag := 7 }, opcode := 0x0500, kind := 1, ring := 0, length := 4096 }
def sB : State := { w [(Reg.HOST_BRING_CFG_USE 0, 1)] sR with host := { State.reset.host with transfers := [tr] } }
def be7 : BulkEntry := { addr := 0x2000, len := 65536, tag := 7 }
/-- A running upstream channel with and without room in the ledger. -/
def sUp (charged : Nat) : State :=
  let s := sDm 31 { running := true, cur := { dd with up := true } }
  { w [(Reg.HOST_STATUS_SPEED, 4), (Reg.HOST_STATUS_WIDTH, 2), (Reg.HOST_LEDGER_UP_PCT, 80)] s with
    host := { s.host with charged := charged } }
def sBw : State := { w [(Reg.HOST_STATUS_SPEED, 4), (Reg.HOST_STATUS_WIDTH, 2), (Reg.HOST_LEDGER_UP_PCT, 80)] sB with host := sB.host }
theorem witness_HostDmaBuffersAndFrames :
    (let s := sDm 12 {}
     s.hostUp = true ∧ (Tab.get {} s.host.dma 12).running = false ∧ s.hostDmaCheck (s.get (Reg.DMA_CH_DESC_ADDR 12)) dd = none ∧
      (s.hostDmaCheck (s.get (Reg.DMA_CH_DESC_ADDR 31)) dd).isSome = true) ∧
    (let c := Tab.get {} (sDm 31 { running := true, cur := dd }).host.dma 31
     c.running = true ∧ c.cur.last = true ∧ c.cur.up = false ∧ ([1, 2, 3, 4, 5, 6, 7, 8] : List Byte).length = c.cur.length ∧
      c.cur.swap = 0 ∧ 8 % 4 = 0 ∧ 8 ≤ c.cur.length) ∧
    (let s := sDm 31 { running := true, cur := { dd with last := false, next := 0x3000 } }
     let c := Tab.get {} s.host.dma 31
     c.cur.last = false ∧ s.hostDmaCheck c.cur.next dd = none) ∧
    (Tab.get {} (sUp 0).host.dma 31).cur.up = true ∧ (sUp 0).channelFits 31 8 = true ∧ (sUp (2 ^ 20)).channelFits 31 8 = false ∧
    sR.ringReady 15 = false ∧ sB.restRoom < 8 ∧ sBw.ringReady 12 = true ∧ 8 ≤ sBw.restRoom ∧
    sBw.ringMemOk 12 (sBw.headAddr 12) 32 = true ∧ 0 < be7.len ∧ be7.len ≤ 65536 ∧
    sBw.bit (Reg.HOST_BRING_CFG_DIR 0) = false ∧ sBw.get (Reg.HOST_BRING_CFG_USE 0) = 1 ∧ be7.last = false ∧ be7.notify = false ∧
    sBw.windowOk be7.addr be7.len false = true ∧ sBw.host.transfers.find? (fun y => y.ring == 0 && y.hdr.tag == be7.tag) = some tr ∧
    sB.trust.queue = [] ∧ tr ∈ sB.host.transfers ∧ tr.hdr.tag = (7 : BitVec 32).toNat := by decide +kernel
theorem witness_HushSettlesGroups : ({ flags := 2 } : CmdHdr).flags.testBit 0 = false ∧
    ({ flags := 3 } : CmdHdr).flags.testBit 0 = true ∧ ({ flags := 3 } : CmdHdr).flags.testBit 1 = true ∧
    ({ flags := 1 } : CmdHdr).flags.testBit 1 = false ∧ sR.bit Reg.HOST_STATUS_HUSH_PIN = false ∧
    (w [(Reg.HOST_STATUS_HUSH_PIN, 1)]).bit Reg.HOST_STATUS_HUSH_PIN = true ∧
    (w [(Reg.HOST_HUSH_CFG_PIN_LATCH, 1)]).bit Reg.HOST_HUSH_CFG_PIN_LATCH = true ∧
    State.reset.bit Reg.HOST_HUSH_CFG_PIN_LATCH = false := by decide +kernel

/-! ## Trust, storage and networks -/

/-- An engine of a life-cycle state, some 50 seconds after its start. -/
def lc (n : Nat) (t : TrustSt := {}) : State :=
  { dm 0 { run0 with si := 5000000 } (w (winRegs ++ [(Reg.TRUST_STATE_LCS, n)])) with trust := t }
/-- A state with a link of 16 GT/s and two lanes, which leaves room in the ledger. -/
def linked (s : State) : State :=
  w [(Reg.HOST_STATUS_SPEED, 4), (Reg.HOST_STATUS_WIDTH, 2), (Reg.HOST_LEDGER_UP_PCT, 80)] s
def objectWaits : CmdHdr × TrustJob := ({ tag := 9 }, .object 5 none)
def objectCame : CmdHdr × TrustJob := ({ tag := 9 }, .object 5 (some (.policy {} {}, {})))
theorem witness_TrustCommands : (lc 1).trust.queue = [] ∧ (lc 1).get Reg.TRUST_STATE_LCS ≠ 0 ∧
    (lc 1).windowOk 0x2000 576 true = true ∧ (lc 1).windowOk 0x2000 4096 true = true ∧ (lc 1).standby = false ∧
    (lc 1).debugState = true ∧ (lc 2).windowOk 0x2000 192 false = true ∧ (lc 2).get Reg.TRUST_STATE_LCS = 2 ∧
    (lc 2).trust.since + 5 * ((lc 2).dom 0).rate ≤ (lc 2).now ∧ (lc 2).trust.waitTo ≤ (lc 2).now ∧
    codeOf 5 = (lc 2 { claimCode := codeOf 5 }).trust.claimCode ∧ codeOf 6 ≠ (lc 2 { claimCode := codeOf 5 }).trust.claimCode ∧
    (lc 3 { queue := [objectWaits] }).trust.queue = ({ tag := 9 }, .object 5 none) :: [] ∧
    (lc 1).host.reports = [] ∧ (lc 1).restRoom < 576 ∧
    (let s := linked (lc 1)
     s.host.reports = [] ∧ (s.statement 0 ++ s.openBytes 96).length ≤ s.restRoom ∧ (s.trust.chain.take 4096).length ≤ s.restRoom) := by decide +kernel
theorem witness_TrustCommands_objects : (lc 3).standby = false ∧ 3 ≤ 3 ∧ 64 ≤ 64 ∧ 2 ^ 24 ≤ 2 ^ 24 ∧ 65536 + 256 < 65793 ∧
    (lc 3 { queue := [objectWaits, objectCame] }).trust.queue[1]? = some ({ tag := 9 }, .object 5 (some (.policy {} {}, {}))) ∧
    (lc 0).get Reg.TRUST_STATE_LCS = 0 ∧ (lc 5).get Reg.TRUST_STATE_LCS ≠ 0 := by decide +kernel

def drv (i : Nat) : Nat × Option Drive := (i, some { store := 5, index := i, extents := 100000 })
def st (x : StoreSt) (l : List (Fld × Nat) := []) : State :=
  { dm 0 { run0 with begun := 64 } (w (winRegs ++ [(Reg.STORE_STATUS_STATE, 1), (Reg.STORE_MEMBERS_PRESENT, 3),
      (Reg.STORE_FREE_EXTENTS, 10000), (Reg.STORE_POLICY_HOST_FORMAT, 1), (Reg.STORE_POLICY_HOST_DELETE, 1),
      (Reg.STORE_POLICY_EXPORT_PLAIN, 1)] ++ l)) with
    store := x, wl := { State.reset.wl with members := [(5, 77)] } }
def tk : Take := { no := some 4, hdr := { tag := 4 }, tracks := [1, 2], fill := 40000, closed := true, members := [0, 1],
                   journaled := 32768, written := [(1, 2), (2, 2)] }
/-- An open take that is complete at its end of 100. -/
def tkOpen : Take := { no := some 5, hdr := { tag := 5 }, outSi := some 100, inSi := 16, open_ := true, tracks := [1, 2],
                       fill := 65536, members := [0, 1], written := [(1, 0)] }
def tkArmed : Take := { hdr := { tag := 7 }, inSi := 63, tracks := [3] }
def x1 : StoreSt := { store := 5, drives := [drv 0, drv 1], takes := [tk], nextTake := 6 }
def ringOf (r use : Nat) : List (Fld × Nat) := [(Reg.HOST_BRING_CFG_USE r, use), (Reg.HOST_BRING_CFG_ENABLE r, 1)]
theorem witness_StoreCommands : (st x1).standby = false ∧ (st x1).bit Reg.STORE_POLICY_HOST_FORMAT = true ∧ (st x1).storeIdle = true ∧
    (∃ e ∈ (st x1).store.drives, e.2.isSome = true) ∧ State.reset.bit Reg.STORE_POLICY_HOST_FORMAT = false ∧
    (st x1).storeBar = false ∧ (st x1).storeOn = true ∧ Tab.get 0 (st x1).wl.members 5 ≠ 0 ∧ 5 ≠ (st x1).devnum ∧
    (st x1).windowOk 0x1000 (192 * 1) true = true ∧
    ((st x1).store.takes.filter fun t => match t.no with | some k => decide (5 ≤ k) | none => false).take 1 = [] ∧
    ((st x1).store.takes.filter fun t => match t.no with | some k => decide (4 ≤ k) | none => false).take 1 ≠ [] ∧
    (linked (st x1)).host.reports = [] ∧ (((st x1).takeRecord tk).length ≤ (linked (st x1)).restRoom) ∧ (st x1).restRoom < 192 ∧
    (st x1).bit Reg.STORE_POLICY_HOST_DELETE = true ∧ ((st x1).take? 4).isSome = true := by decide +kernel
theorem witness_StoreCommands_moves : (st x1 (ringOf 3 4)).get (Reg.HOST_BRING_CFG_USE 3) = 4 ∧
    (st x1 (ringOf 3 4)).bit (Reg.HOST_BRING_CFG_ENABLE 3) = true ∧
    (st x1 (ringOf 3 4)).bit Reg.STORE_POLICY_EXPORT_PLAIN = true ∧ (st x1 (ringOf 3 4)).take? 4 = some tk ∧
    tk.tracks.contains 2 = true ∧ tk.exportEnd - 1 < tk.exportEnd ∧ (st x1 (ringOf 0 5)).get (Reg.HOST_BRING_CFG_USE 0) = 5 ∧
    (st x1 (ringOf 0 5)).bit (Reg.HOST_BRING_CFG_ENABLE 0) = true ∧ legalRate 48000 = true ∧ (st x1 (ringOf 0 5)).storeBar = false ∧
    (st x1 (ringOf 0 5)).storeOn = true := by decide +kernel
theorem witness_StoreRecording :
    (let s := st x1
     let si := (s.applyAt 0 96).1
     let lives := s.store.takes.filter (·.live)
     s.windowOk 0x1000 128 false = true ∧ (s.dom 0).configured = true ∧ s.storeOn = true ∧ s.standby = false ∧ si < s.siTo 0 97 ∧
      (lives.any fun t => t.tracks.any ([1023] : List Nat).contains && rangesMeet si (some (s.siTo 0 97)) t.inSi t.outSi) = false ∧
      lives.length < 16 ∧ (lives.map fun t => t.tracks.length * t.rate).sum + 1 * (s.dom 0).rate ≤ trackRate ∧
      s.buffersFit 0 (s.storeTracks 0 + 1) = true ∧ 64 * 1 ≤ s.get Reg.STORE_FREE_EXTENTS) ∧
    (let s := st { x1 with takes := [tk, tkArmed, { tkArmed with hdr := { tag := 8 }, inSi := 64 }] }
     s.store.takes.find? (fun t => t.no.isNone && t.hdr.tag == (7 : BitVec 32).toNat) = some tkArmed ∧
      tkArmed.inSi < (s.dom tkArmed.domain).begun ∧ (s.dom 0).begun ≤ 64 ∧
      s.store.takes.find? (fun t => t.live && t.hdr.tag == 7) = some tkArmed ∧ s.storeBar = false ∧ tkArmed.outHdr = none ∧
      tkArmed.inSi < s.siTo tkArmed.domain 96) := by decide +kernel
theorem witness_StoreRecording_open :
    (let s := st { x1 with takes := [tk, tkOpen] }
     s.take? 5 = some tkOpen ∧ tkOpen.outSi = some 100 ∧ tkOpen.open_ = true ∧ 100 ≤ tkOpen.inSi + tkOpen.fill ∧
      tkOpen.tracks.contains (2 : Fin 1024).val = true ∧ tkOpen.byLoss = false ∧ tkOpen.chunkReady 2 = true ∧
      (tkOpen.memberOf 2 (Tab.get 0 tkOpen.written 2)).isSome = true ∧
      s.store.stopped = false ∧ s.storeOn = true ∧ (Tab.get 0 tkOpen.written 2 + 2) * chunkLen ≤ tkOpen.fill ∧
      s.store.journalCut = false ∧ (∃ k ∈ s.store.takes, k.no.isSome = true)) ∧
    (let s := st { x1 with journalCut := true, takes := [{ tk with cut := 40000 }] }
     s.storeOn = true ∧ s.store.journalCut = true ∧
      ∀ k ∈ s.store.takes, k.byLoss = true ∨ ∀ c ∈ k.tracks, k.cut ≤ Tab.get 0 k.written c * chunkLen) := by decide +kernel
def p1 : Play := { hdr := { tag := 8 }, take := 4, recTrack := 1, track := 7, q := 63, len := 40000 }
def p2 : Play := { p1 with hdr := { tag := 9 }, track := 1023, started := true }
def sPlay : State := st { x1 with plays := [p1, p2] }
theorem witness_StorePlayAndDrives :
    (let s := st x1
     let q := max (s.siTo 0 100000) (s.playLead 0)
     s.take? 4 = some tk ∧ s.storeBar = false ∧ s.storeOn = true ∧ tk.tracks.contains 1 = true ∧ 39999 < tk.fill ∧ tk.closed = true ∧
      (s.store.plays.any fun p => p.track == 1023 && rangesMeet q (some (q + (tk.fill - 39999))) p.q (some p.ends)) = false ∧
      (s.store.plays.map fun p => (s.dom p.domain).rate).sum + (s.dom tk.domain).rate ≤ trackRate ∧
      s.buffersFit 0 (s.storeTracks 0 + 1) = true) ∧
    sPlay.store.plays.find? (fun p => !p.started && p.hdr.tag == (8 : BitVec 32).toNat) = some p1 ∧
    p1.q < (sPlay.dom p1.domain).begun ∧ sPlay.store.plays.find? (fun p => p.hdr.tag == 8) = some p1 ∧ sPlay.storeBar = false ∧
    (let p : Play := { p2 with stop := some 100, stops := [({ tag := 11 }, false, 100)] }
     let s := st { x1 with plays := [p] }
     p ∈ s.store.plays ∧ p.domain = 0 ∧ p.started = true ∧ p.ends ≤ 100 ∧ ({ tag := 11 }, false, 100) ∈ p.stops) ∧
    (sPlay.applyAt 0 63).1 = 64 ∧ p1.q < 64 ∧ (dm 0 run0 sPlay).applyAt 0 63 = (63, false) ∧ 63 ≤ p1.q := by decide +kernel
theorem witness_StorePlayAndDrives_chunks :
    sPlay.store.plays.find? (fun p => p.track == (7 : Fin 1024).val && !p.buffered.contains 0 &&
      (match sPlay.take? p.take with | some k => sPlay.readable k p.recTrack 0 | none => false)) = some p1 ∧
    sPlay.store.plays.find? (fun p => p.track == (1023 : Fin 1024).val && p.started && !p.buffered.contains 1 && !p.missed.contains 1) =
      some p2 ∧ sPlay.storeOn = true ∧ sPlay.present 0 = true ∧ sPlay.present 7 = false ∧
    (let s := st { x1 with drives := [drv 0, drv 1, (3, some { store := 5, index := 7 })] }
     s.present 7 = false ∧ s.store.store ≠ 0 ∧ s.storeOn = true ∧
      ((7 : Nat), s.store.store) ∈ s.store.drives.filterMap fun e => e.2.bind fun d => if d.keyOk then some (d.index, d.store) else none) ∧
    ({} : DriveSeen).present = false ∧ ({ present := true, usable := true } : DriveSeen).usable = true ∧
    ({ present := true, usable := false } : DriveSeen).present = true ∧
    (st x1 [(Reg.STORE_DRV_STATUS_PRESENT 7, 1)]).bit (Reg.STORE_DRV_STATUS_PRESENT 7) = true ∧
    (st x1 [(Reg.STORE_DRV_STATUS_PRESENT 7, 1)]).bit (Reg.STORE_DRV_STATUS_REFUSED 7) = false := by decide +kernel

def sr0 : StreamRec := { dstA := 0xEF000001, srcA := 0x0A000001 }
def nt (n : NetSt) (l : List (Fld × Nat) := []) : State :=
  { dm 0 run0 (w (winRegs ++ l)) with net := n, wl := { State.reset.wl with members := [(5, 77)], route := [(5, 1)] } }
def fr0 : FlowRec := { peer := 5, port := 1 }
def rule0 : RuleRec := { index := 511, ports := 7, cls := 7, burst := 256, mtch := 2047 }
theorem witness_NetworkCommandsWait : (nt {}).windowOk 0x1000 128 false = true ∧ (nt {}).recordCheck false sr0 = none ∧
    (nt {}).recordCheck true { sr0 with linkOffset := 16384 } = none ∧
    ((nt {}).recordCheck true { sr0 with format := 7 }).isSome = true ∧ (nt {}).streamsPlanned true = [] ∧
    511 + 1 ≤ 512 ∧ (nt {}).windowOk 0x1000 (64 * 512) true = true ∧ 512 < 511 + 2 ∧ (nt {}).windowOk 0x1000 64 false = true ∧
    rule0.reservedOk = true ∧ 32 ≤ rule0.index ∧ rule0.index ≤ 511 ∧ rule0.ports < 8 ∧ rule0.cls ∈ [2, 3, 4, 7] ∧
    rule0.mtch < 2 ^ 11 ∧ rule0.vid < 4096 ∧ rule0.pcp < 8 ∧ rule0.dscp < 64 ∧ rule0.srcLen ≤ 128 ∧ rule0.dstLen ≤ 128 ∧
    rule0.cueEntry < 64 ∧ 1 ≤ rule0.burst ∧ rule0.burst ≤ 256 ∧
    (let r : CueRec := { entry := 63, key := 255, template := 63 }
     r.reservedOk = true ∧ r.entry < 64 ∧ (r.key < 16 ∨ r.key = 255) ∧ r.template < 64) ∧ 64 ≤ ({ entry := 64 } : CueRec).entry ∧
    (nt {}).windowOk 0x1000 32 false = true ∧ (nt {}).net.pendingOps = [] ∧ (Tab.get [] (nt {}).net.groups 2).length < 64 := by
  decide +kernel
theorem witness_NetworkCommandsWait_wamund :
    (nt {} [(Reg.WLP_STATUS_STATE 1, 4)]).flowCheck false fr0 = none ∧ ((nt {}).flowCheck false { fr0 with channels := 0 }).isSome = true ∧
    fr0.port < 4 ∧ (∀ e ∈ [(0xFFFF, 7), (0, 5)], e.1 < 2 ^ 16 ∧ e.2 ≤ 7 ∧ e.2 ≠ 6 ∧ (e.1 = (nt {}).devnum → e.2 = 5)) ∧
    (nt {}).flowsPlanned true 3 = [] ∧
    (((nt {}).flowsPlanned false 3).map (nt {}).flowCells).sum + 5 ≤ (nt {}).audioCeiling ∧
    (nt {}).windowOk 0x1000 (8 * 24) false = true ∧ (nt {}).route 5 ≠ 7 ∧
    (let s : State := { nt {} with
       sched := { State.reset.sched with programs := [{ digest := 99 }] }
       wl := { State.reset.wl with dist := [(0, some ({ tag := 8 }, 99))] } }
     ({ flags := 1 } : CmdHdr).flags.testBit 0 = true ∧ Tab.get none s.wl.dist ({} : CmdHdr).src.code = some ({ tag := 8 }, 99) ∧
      s.windowOk 0x1000 (2 * 64) false = true ∧ ∃ i ∈ s.sched.programs, i.digest = 99) ∧
    ([{ hdr := {}, peers := [5] }] : List WlWait).find? (fun w => w.opcode == 0x0885 && w.hdr == ({} : CmdHdr)) =
      some { hdr := {}, peers := [5] } := by decide +kernel
def ss0 : StreamSt := { record := sr0, next := 64, seq := 65535 }
theorem witness_NetworkPorts :
    (let s := nt { tx := [(511, some ss0)] } [(Reg.TIME_STATUS_ALIGNED, 7), (Reg.CLK_MPLL_STATE_STATE 0, 2)]
     Tab.get none s.net.tx 511 = some ss0 ∧ (s.get Reg.TIME_STATUS_ALIGNED).testBit 0 = true ∧ s.sending 0 = true ∧
      ss0.nextAt (s.dom 0).si + ss0.record.S ≤ (s.dom 0).si + (s.dom 0).block ∧
      s.get (Reg.NET_TX_FRAMES_COUNT 0) < 2 ^ 31 ∧
      (s.dom 0).si + (s.dom 0).block < ({ ss0 with next := 200 } : StreamSt).nextAt (s.dom 0).si + ss0.record.S) ∧
    Tab.get none (nt { rx := [(0, some ss0)] }).net.rx 0 = some ss0 ∧ ss0.lost = false ∧
    ({ ss0 with lost := true } : StreamSt).lost = true ∧ ([3] : List Byte).getD 0 0 = 3 ∧ ([4] : List Byte).getD 0 0 ≠ 3 ∧
    (let s := nt {} [(Reg.NET_STATUS_MOD_OK 2, 1), (Reg.NET_MOD_A0_DATA 2 23, 64), (Reg.NET_STATUS_MOD_PRESENT 2, 1), (Reg.NET_CTL_EN 2, 1)]
     s.bit (Reg.NET_STATUS_MOD_OK 2) = true ∧ (s.get (Reg.NET_MOD_A0_DATA 2 23)).testBit 6 = true ∧
      s.bit (Reg.NET_STATUS_MOD_PRESENT 2) = true ∧ s.bit (Reg.NET_CTL_EN 2) = true) ∧
    (nt {}).bit (Reg.NET_STATUS_MOD_OK 2) = false ∧ (nt {}).bit (Reg.NET_CTL_EN 2) = false ∧
    (let s := nt {} [(Reg.NET_MACSEC_MODE 1, 2), (Reg.NET_MACSEC_MKA_UP 1, 1), (Reg.NET_CTL_EN 1, 1)]
     s.get (Reg.NET_MACSEC_MODE 1) ≠ 0 ∧ s.bit (Reg.NET_MACSEC_MKA_UP 1) = true ∧ s.bit (Reg.NET_CTL_EN 1) = true ∧
      s.get (Reg.NET_MACSEC_MODE 1) = 2 ∧ (s.arrived 1 {}).secure = false ∧ (1 : Fin 3).val < 2 ∧ isEapol {} = false) ∧
    (nt {}).get (Reg.NET_MACSEC_MODE 1) = 0 := by decide +kernel

def ps (n : Nat) (l : List (Fld × Nat) := []) : State :=
  sW (winRegs ++ [(Reg.WLP_STATUS_STATE 1, n), (Reg.WLP_CTL_EN 1, 1), (Reg.WLP_STATUS_MOD_OK 1, 1), (Reg.WLP_PEER_DEVNUM 1, 5),
    (Reg.WLP_STATUS_STATE 2, 4)] ++ l)
def onPort (x : WlPort) (s : State) : State :=
  { s with wl := { s.wl with ports := Tab.put {} s.wl.ports 1 x, members := [(5, 77)], route := [(0, 5), (5, 1), (6, 2)] } }
def c0 : Cell := { vc := 1, dst := 5, payload := .unknown }
def xp : WlPort := { txSeq := 65535, rxSeq := 7, ready := [(1, [c0]), (3, [c0, c0])], credits := [(1, 3), (3, 1)],
                     unacked := [{ c0 with seq := 4 }] }
theorem witness_WamundBringUp : (ps 1).get (Reg.WLP_STATUS_STATE 1) = 1 ∧ (ps 2).get (Reg.WLP_STATUS_STATE 1) = 2 ∧
    (ps 3).get (Reg.WLP_STATUS_STATE 1) ∈ [1, 2, 3] ∧ (ps 5).bit (Reg.WLP_CTL_EN 1) = true ∧ (ps 5).hostUp = true ∧
    (ps 5).bit (Reg.WLP_STATUS_MOD_OK 1) = true ∧ (ps 5).get (Reg.WLP_STATUS_STATE 1) = 5 ∧ (ps 4).get (Reg.WLP_STATUS_STATE 1) = 4 ∧ (ps 0).get (Reg.WLP_STATUS_STATE 1) = 0 ∧ (ps 0).bit (Reg.WLP_CTL_EN 1) = true ∧
    (let s := onPort xp (ps 3 [(Reg.TRUST_STATE_LCS, 3)])
     s.get (Reg.WLP_STATUS_STATE 1) = 3 ∧ s.authReason { peer := 5, identity := 77 } = none ∧
      (s.authReason { peer := 5, identity := 78 }).isSome = true ∧ (s.authReason { chainOk := false }).isSome = true) ∧
    ({} : ModuleRead).present = false := by decide +kernel
theorem witness_WamundCells :
    (let s := onPort xp (ps 4)
     s.wlUp 1 = true ∧ (s.wlp 1).replay = [] ∧ (s.wlp 1).nextVc = some 1 ∧ Tab.get [] (s.wlp 1).ready 1 = c0 :: [] ∧
      (s.wlp 1).unacked ≠ [] ∧ (s.wlp 1).replays < 8) ∧
    c0.type = 2 ∧ ((onPort { xp with txKey := some {} } (ps 4)).wlp 1).txKey = some {} ∧
    (onPort { xp with replays := 8 } (ps 4)).wlUp 1 = true ∧ 8 ≤ ((onPort { xp with replays := 8 } (ps 4)).wlp 1).replays ∧
    (ps 0).wlUp 1 = false := by decide +kernel
theorem witness_WamundCells_received :
    (let s := onPort xp (ps 4)
     let c : Cell := { seq := 7, src := 5, dst := 6, vc := 3, hops := 15, payload := .unknown }
     s.wlUp 1 = true ∧ c.reservedOk = true ∧ c.len ≤ 224 ∧ c.bcast = false ∧ c.type = 2 ∧ c.nak = false ∧ c.tagOk = true ∧
      c.seq = (s.wlp 1).rxSeq ∧ s.route c.src = 1 ∧ s.route c.dst = 2 ∧ s.wlUp 2 = true ∧ c.hops < 16 ∧ c.vc < 4 ∧
      s.route 0 = 5 ∧ 8 ≠ (s.wlp 1).rxSeq ∧ (s.wlp 1).tagFails < 15) := by decide +kernel
def flow9 : FlowRec := { flow := 9, port := 1, peer := 5, channels := 8 }
theorem witness_WamundCells_bundle :
    (let s := onPort { tx := [(9, some flow9)], credits := [(2, 128)] } (ps 4 [(Reg.TIME_STATUS_ALIGNED, 7), (Reg.CLK_MPLL_STATE_STATE 0, 2)])
     s.wlUp 1 = true ∧ (s.wlp 1).tx = [(flow9.flow, some flow9)] ∧ flow9.port = 1 ∧ flow9.bcast = false ∧ flow9.domain = (0 : Fin 3).val ∧
      (∀ q < 4, q ≠ 1 → (s.wlp q).tx = []) ∧ (s.get Reg.TIME_STATUS_ALIGNED).testBit 0 = true ∧ s.sending 0 = true) ∧
    (let s := onPort { rx := [(5 * 256 + 255, some { record := {} }), (5 * 256, some { lost := true })] } (ps 4)
     Tab.get none (s.wlp 1).rx (5 * 256 + (255 : Fin 256).val) = some { record := {} } ∧ ({ record := {} } : RxFlow).lost = false ∧
      Tab.get none (s.wlp 1).rx (5 * 256 + (0 : Fin 256).val) = some { lost := true }) := by decide +kernel

/-! ## Clocks, ports, converters, surface, power, pairs and registers -/

def ml (m : MpllSt) (l : List (Fld × Nat)) : State :=
  { dm 1 { run0 with si := 100 } (sW l) with time := { State.reset.time with mplls := [(1, m)] } }
theorem witness_MpllLoop :
    (let s := ml {} [(Reg.CLK_MPLL_CAND_SRC 1 7, 6), (Reg.CLK_MPLL_CAND_SRC 1 0, 7), (Reg.CLK_MPLL_CAND_SRC 2 7, 6)]
     s.mpllRuns 1 = true ∧ s.mpllRuns 2 = false ∧ s.mayQualify 2 7 = true ∧ s.mayQualify 1 7 = true ∧ s.mayQualify 1 1 = false ∧ s.bit (Reg.CLK_MPLL_STATE_SEL_VALID 1) = false ∧
      ((s.setMask (Reg.CLK_MPLL_QUAL_QUALIFIED 1) 7).bestCandidate 1).isSome = true) ∧
    (let s := ml {} [(Reg.CLK_MPLL_STATE_SEL_VALID 1, 1), (Reg.CLK_MPLL_STATE_STATE 1, 2), (Reg.CLK_MPLL_CAND_SRC 1 0, 6)]
     s.mayQualify 1 0 = true ∧ s.get (Reg.CLK_MPLL_STATE_STATE 1) ∈ [1, 2] ∧ s.bit (Reg.CLK_MPLL_STATE_SEL_VALID 1) = true) := by
  decide +kernel
/-- Loop 1 locked on candidate 3, with the candidates of `q` qualified. -/
def locked (q : Nat) : State := ml {} [(Reg.CLK_MPLL_QUAL_QUALIFIED 1, q), (Reg.CLK_MPLL_STATE_SEL 1, 3), (Reg.CLK_MPLL_CAND_PRIO 1 3, 4),
  (Reg.CLK_MPLL_STATE_SEL_VALID 1, 1), (Reg.CLK_MPLL_STATE_STATE 1, 2)]
def lost (q : Nat) : State := ((locked q).clrMask (Reg.CLK_MPLL_QUAL_QUALIFIED 1) 3).setMask (Reg.CLK_MPLL_QUAL_DISQ 1) 3
theorem witness_MpllLoop_loss : (locked 9).isQualified 1 1 = false ∧ (locked 9).isQualified 1 0 = true ∧
    ¬((locked 9).bit (Reg.CLK_MPLL_STATE_SEL_VALID 1) = true ∧ (locked 9).get (Reg.CLK_MPLL_STATE_SEL 1) = 0) ∧
    (locked 9).isQualified 1 3 = true ∧ (locked 9).bit (Reg.CLK_MPLL_STATE_SEL_VALID 1) = true ∧
    (locked 9).get (Reg.CLK_MPLL_STATE_SEL 1) = 3 ∧ ((lost 9).bestCandidate 1).isSome = true ∧ (lost 8).bestCandidate 1 = none ∧
    (locked 8).isQualified 1 3 = true ∧ (locked 8).get (Reg.CLK_MPLL_STATE_STATE 1) ∈ [1, 2] ∧ (locked 9).eligible 1 0 = true ∧
    (locked 9).get (Reg.CLK_MPLL_CAND_PRIO 1 0) < (locked 9).get (Reg.CLK_MPLL_CAND_PRIO 1 ((locked 9).get (Reg.CLK_MPLL_STATE_SEL 1))) := by
  decide +kernel
theorem witness_MpllLoop_compare : (ml {} [(Reg.CLK_MPLL_CTL_LOOP 1, 2)]).get (Reg.CLK_MPLL_CTL_LOOP 1) = 2 ∧
    (ml {} []).get (Reg.CLK_MPLL_CTL_LOOP 1) ≠ 2 ∧ (ml {} []).mpllRuns 1 = true ∧ (ml {} []).mpllRuns 2 = false ∧
    (let s := ml {} [(Reg.CLK_MPLL_STATE_SEL_VALID 1, 1), (Reg.CLK_MPLL_STATE_SEL 1, 7), (Reg.CLK_MPLL_CAND_SRC 1 7, 4)]
     s.bit (Reg.CLK_MPLL_STATE_SEL_VALID 1) = true ∧ s.get (Reg.CLK_MPLL_CAND_SRC 1 (s.get (Reg.CLK_MPLL_STATE_SEL 1))) = 4 ∧
      Tab.get 0 (s.mpll 1).vsyncs 7 % max 1 (s.get (Reg.CLK_MPLL_CAND_PARAM 1 7) / 2 ^ 13 % 8) = 0) ∧
    (let s := ml {} [(Reg.APG_CFG_MASTER 3, 1), (Reg.APG_CFG_DOMAIN 3, 1)]
     s.bit (Reg.APG_CFG_MASTER 3) = true ∧ s.get (Reg.APG_CFG_DOMAIN 3) = (1 : Fin 3)) ∧ (-(dcoLimit : Int)).natAbs ≤ dcoLimit ∧
    (let s := ml { met := true, outWin := 15 } [(Reg.CLK_MPLL_STATE_STATE 1, 1)]
     s.get (Reg.CLK_MPLL_STATE_STATE 1) = 1 ∧ (s.mpll 1).met = true ∧ (s.mpll 1).outWin < 16) ∧
    (let s := ml { outWin := 16, inWin := 16, halvings := 3 } [(Reg.CLK_MPLL_STATE_STATE 1, 2), (Reg.CLK_MPLL_BW_FINAL 1, 1000),
       (Reg.CLK_MPLL_LOCK_N 1, 16)]
     s.get (Reg.CLK_MPLL_STATE_STATE 1) = 2 ∧ 16 ≤ (s.mpll 1).outWin ∧ s.get (Reg.CLK_MPLL_LOCK_N 1) ≤ (s.mpll 1).inWin ∧
      s.get (Reg.CLK_MPLL_BW_FINAL 1) * 2 ^ (s.mpll 1).halvings < 10000 ∧
      10000 ≤ s.get (Reg.CLK_MPLL_BW_FINAL 1) * 2 ^ ((s.mpll 1).halvings + 1)) := by decide +kernel
theorem witness_RoastAlignAndRenumber :
    (let s := ml {} [(Reg.CLK_MPLL_CTL_LOOP 1, 2), (Reg.CLK_MPLL_DCO_WORD 1, 77), (Reg.CLK_ROAST_NSEG_NSEG 1, 16)]
     s.hostUp = true ∧ s.bit Reg.GLOBAL_RESTORE_DONE = true ∧ s.get (Reg.CLK_MPLL_CTL_LOOP 1) = 2 ∧
      (BitVec.ofInt 32 (-(dcoLimit : Int))).toInt.natAbs ≤ dcoLimit ∧
      s.get (Reg.CLK_MPLL_DCO_WORD 1) ≠ (BitVec.ofInt 32 (-(dcoLimit : Int))).toNat ∧
      dcoLimit < (BitVec.ofInt 32 ((dcoLimit : Int) + 1)).toInt.natAbs ∧ s.get (Reg.CLK_ROAST_NSEG_NSEG 1) ∈ List.range' 1 16 ∧
      (∀ g ∈ s.roastSegments 1, g.2.natAbs ≤ dcoLimit) ∧ s.get (Reg.CLK_ROAST_STATUS_STATE 1) = 0 ∧ (s.mpll 1).glideNext = false) ∧
    16 < (ml {} [(Reg.CLK_ROAST_NSEG_NSEG 1, 17)]).get (Reg.CLK_ROAST_NSEG_NSEG 1) ∧
    (ml {} [(Reg.CLK_ROAST_STATUS_STATE 1, 2)]).get (Reg.CLK_ROAST_STATUS_STATE 1) = 2 := by decide +kernel
theorem witness_RoastAlignAndRenumber_run :
    (∀ a ∈ [100, 84, 101], let s := ml { startAt := 7, lateTo := some a } [(Reg.CLK_ROAST_STATUS_STATE 1, 1)]
      (s.mpll 1).glideNext = false ∧ s.get (Reg.CLK_ROAST_STATUS_STATE 1) = 1 ∧ ((s.mpll 1).lateTo.getD (s.mpll 1).startAt ≤ (s.dom 1).si ∨ a = 101) ∧
        ((s.mpll 1).lateTo.getD (s.mpll 1).startAt + (s.dom 1).block ≤ (s.dom 1).si ∨ a ≠ 84)) ∧
    (let s := ml { profile := [(10, -5), (7, 3)] } [(Reg.CLK_ROAST_STATUS_STATE 1, 2), (Reg.CLK_ROAST_STATUS_SEG 1, 14)]
     (s.mpll 1).profile = (10, -5) :: [(7, 3)] ∧ s.get (Reg.CLK_ROAST_STATUS_STATE 1) = 2 ∧ s.get (Reg.CLK_ROAST_STATUS_SEG 1) < 15) ∧
    (let s := ml {} [(Reg.CLK_MPLL_STATE_STATE 1, 2), (Reg.CLK_MPLL_STATE_SEL_VALID 1, 1), (Reg.CLK_MPLL_CAND_SRC 1 0, 1)]
     s.get (Reg.CLK_MPLL_STATE_STATE 1) = 2 ∧ s.bit (Reg.CLK_MPLL_STATE_SEL_VALID 1) = true ∧
      s.carriesTime 1 (s.get (Reg.CLK_MPLL_STATE_SEL 1)) = true ∧ (s.get Reg.TIME_STATUS_GLIDING).testBit 1 = false ∧
      (s.mpll 1).glideNext = false) ∧
    (ml {} []).get (Reg.CLK_MPLL_STATE_STATE 1) ≠ 2 ∧ 0 < ((ml {} []).dom 1).block ∧
    (splitOffset ((ml {} []).dom 1).block (8 * 65536 + 1)).2 ≠ 0 ∧ (ml {} []).get (Reg.CLK_ROAST_STATUS_STATE 1) = 0 := by decide +kernel
def sT (t : TimeSt) (l : List (Fld × Nat) := []) : State := { sW l with time := t }
theorem witness_StampsTriggersAndSnapshots : (sW).bit (Reg.TIME_PTP_PORT_EN 2) = false ∧
    (sW [(Reg.TIME_PTP_PORT_EN 0, 1)]).bit (Reg.TIME_PTP_PORT_EN 0) = true ∧
    (Tab.get [] (sT { tsq := [(0, List.replicate 15 {})] }).time.tsq 0).length < 16 ∧
    16 ≤ (Tab.get [] (sT { tsq := [(0, List.replicate 16 {})] }).time.tsq 0).length ∧
    (sW [(Reg.TIME_PTP_CFG_SLAVE_ONLY, 1)]).bit Reg.TIME_PTP_CFG_SLAVE_ONLY = true ∧
    ¬((sW).bit Reg.TIME_PTP_CFG_SLAVE_ONLY = true ∧ (6 : Fin 10) = 6) ∧
    (∀ y : Fin 3, y ≠ 2 → (sW [(Reg.CLK_MPLL_CAND_SRC 1 3, 1)]).get (Reg.TIME_PTP_PORT_PSTATE y) ≠ 9) ∧
    (sW [(Reg.CLK_MPLL_CAND_SRC 1 3, 1)]).get (Reg.CLK_MPLL_CAND_SRC 1 3) = 1 ∧ (sW).hostUp = true ∧ (3 : Fin 4) ≠ 2 ∧
    (1 : Fin 3) ≠ 2 ∧ (sW [(Reg.TIME_PTP_PORT_PSTATE 1, 9)]).get (Reg.TIME_PTP_PORT_PSTATE 1) = 9 ∧
    Tab.get none (sT { trigs := [(7, some (0, 64, none))] }).time.trigs 7 = some (0, 64, none) ∧
    Tab.get none (sT { trigs := [(7, some (0, 48, some 64))] }).time.trigs 7 = some (0, 48, some 64) ∧
    (some 64).getD 48 ≤ ((sT {}).dom 0).si ∧ (none : Option Nat).getD 64 ≤ ((sT {}).dom 0).si ∧
    Tab.get none (sT { trigs := [(0, some (0, 65, none))] }).time.trigs 0 = some (0, 65, none) ∧
    ((sT {}).dom 0).si < 65 ∧ Tab.get none (sT {}).time.trigs 0 = none := by decide +kernel
def port (p : Nat) (l : List (Fld × Nat)) : State := sW ([(Reg.APORT_P_CTL_EN p, 1), (Reg.APORT_P_STATUS_RUNNING p, 1)] ++ l)
theorem witness_PortsAesAndAsrc : (sW).bit (Reg.APG_CFG_MASTER 3) = false ∧ (sW [(Reg.APG_STATUS_CLK_OK 3, 1)]).bit (Reg.APG_STATUS_CLK_OK 3) = true ∧
    (let s := sW [(Reg.APG_CFG_MASTER 3, 1)]
     ¬(s.bit (Reg.APG_CFG_MASTER 3) = false ∨ s.bit (Reg.APG_STATUS_CLK_OK 3) = true)) ∧
    (sW [(Reg.APORT_P_CTL_EN 15, 1)]).bit (Reg.APORT_P_CTL_EN 15) = true ∧
    (sW [(Reg.APORT_P_CTL_EN 15, 1)]).bit (Reg.APORT_P_STATUS_RUNNING 15) = false ∧ (port 0 []).bit (Reg.APORT_P_STATUS_RUNNING 0) = true ∧
    (sW).bit (Reg.APORT_P_CTL_EN 0) = false ∧
    (let s := port 15 [(Reg.APORT_P_CTL_DIR 15, 1)]; s.mayXrun 15 = true ∧ s.portOut 15 = true) ∧
    (let s := port 0 [(Reg.APORT_P_CTL_PAIR_MARK 0, 1), (Reg.APG_CFG_FORMAT 0, 3)]
     s.mayXrun 0 = true ∧ s.portOut 0 = false ∧ s.bit (Reg.APORT_P_CTL_PAIR_MARK 0) = true ∧ s.isPairFormat 0 = true) ∧
    (sW).mayXrun 0 = false ∧
    (sW [(Reg.AES_RX_CTL_EN 7, 1)]).bit (Reg.AES_RX_CTL_EN 7) = true ∧ (sW).get (Reg.AES_RX_STATUS_LOCK 7) < 2 ∧
    2 ≤ (sW [(Reg.AES_RX_STATUS_LOCK 7, 2)]).get (Reg.AES_RX_STATUS_LOCK 7) ∧ (sW).bit (Reg.AES_RX_CTL_EN 7) = false ∧
    (sW [(Reg.AES_RX_STATUS_LOCK 7, 1)]).get (Reg.AES_RX_STATUS_LOCK 7) ≠ 0 ∧ (([4] : List Byte).getD 0 0).getLsbD 0 = false ∧
    ((List.replicate 24 (1 : Byte)).getD 0 0).getLsbD 0 = true ∧ ((List.replicate 24 (1 : Byte)).getD 23 0).toNat ≠ csCrc (List.replicate 24 1) ∧
    (sW).hostUp = true ∧ (let s := (sW [(Reg.AES_TX_CTL_EN 7, 1)]).modDom 0 fun d => { d with si := 192 - 15, block := 16 }
     s.aesBlockIn 7 = true ∧ s.bit (Reg.AES_TX_CTL_EN 7) = true) ∧
    (let s := (sW [(Reg.AES_TX_STATUS_RUNNING 7, 1), (Reg.AES_TX_STATUS_PENDING 7, 1)]).modDom 0 fun d => { d with si := 192, block := 16 }
     s.aesBlockIn 7 = true ∧
     s.bit (Reg.AES_TX_STATUS_RUNNING 7) = true ∧ s.bit (Reg.AES_TX_STATUS_PENDING 7) = true) ∧
    (sW).bit (Reg.AES_TX_STATUS_PENDING 7) = false ∧ ((sW).modDom 0 fun d => { d with si := 193, block := 16 }).aesBlockIn 7 = false := by decide +kernel
theorem witness_PortsAesAndAsrc_asrc :
    let s : State := { sW [(Reg.AES_RX_STATUS_LOCK 7, 3), (Reg.AES_RX_STATUS_LOCK 0, 2)] with audio := { State.reset.audio with
      asrc := [(mkAddr 4 0, some { halvings := 2 }), (mkAddr 4 15, some { halvings := 1, released := true })] } }
    Tab.get none s.audio.asrc 5 = none ∧ Tab.get none s.audio.asrc (mkAddr 4 0) = some { halvings := 2 } ∧
    addrKind (mkAddr 4 15) = 4 ∧ addrChan (mkAddr 4 15) < 16 ∧ ({ halvings := 2 } : AsrcCh).released = false ∧
    2 ≤ ({ halvings := 2 } : AsrcCh).halvings ∧ s.get (Reg.AES_RX_STATUS_LOCK (addrChan (mkAddr 4 0) / 2)) = 2 ∧
    ({ halvings := 1, released := true } : AsrcCh).halvings < 2 ∧
    s.get (Reg.AES_RX_STATUS_LOCK (addrChan (mkAddr 4 15) / 2)) = 3 := by decide +kernel
def cv (c : Nat) (x : ConvCh) (l : List (Fld × Nat) := []) : State := (sW l).setConv c x
/-- The compensation that a request for range `r` would leave, beyond 18 dB or not. -/
def farOf (s : State) (n r : Nat) : Bool :=
  beyond18 (Fp.sub (compAt (s.conv n) s.conv10ms (s.convSi 0 - 1))
    (stepLog ((r : Int) - (s.get (Reg.HUBA_ADC_STATUS_RANGE n) : Int) + (s.conv n).stepping.sum))).1
theorem witness_ConvertersAndJacks : (sW).hostUp = true ∧ (sW).bit Reg.GLOBAL_RESTORE_DONE = true ∧ ((sW).conv 3).running = false ∧
    (let x := (cv 3 { running := true, preset := 2 }).conv 3
     x.running = true ∧ x.stopping = false ∧ x.gate.down = false ∧ 0 ≠ x.newPreset.getD x.preset ∧ x.settled = none ∧ x.path = none ∧
      x.request = none ∧ x.stepping = []) ∧
    farOf (cv 0 { running := true } [(Reg.HUBA_ADC_STATUS_RANGE 0, 20)]) 0 19 = false ∧
    farOf (cv 0 { running := true } [(Reg.HUBA_ADC_STATUS_RANGE 0, 20)]) 0 0 = true ∧
    ((cv 1 { request := some 31 }).conv 1).request = some 31 ∧
    (let s := cv 1 { running := true, path := some 64 }
     (s.conv 1).path = some 64 ∧ (s.conv 1).pathDone = false ∧ s.convSi 0 < 64 + s.conv2ms) ∧
    (let s := cv 0 { running := true, stepping := [20] }
     (s.conv 0).stepping = 20 :: [] ∧ beyond18 (Fp.sub (compAt (s.conv 0) s.conv10ms (s.convSi 0 - 1)) (stepLog 20)).1 = true) ∧
    (let s := cv 0 { running := true, stepping := [3, -2] }
     (s.conv 0).stepping = 3 :: [-2] ∧
      beyond18 (Fp.sub (compAt (s.conv 0) s.conv10ms (s.convSi 0 - 1)) (stepLog 3)).1 = false) := by decide +kernel
def jack (l : List (Fld × Nat)) : State :=
  let s := sW l
  { s with huba := { s.huba with removing := true } }
theorem witness_ConvertersAndJacks_jack : (sW).huba.removing = false ∧ (jack []).huba.removing = true ∧
    (sW).bit Reg.HUBA_JACK_HP_PRESENT = false ∧ (jack [(Reg.HUBA_JACK_HP_PRESENT, 1)]).bit Reg.HUBA_JACK_HP_PRESENT = true ∧
    (sW).get Reg.HUBA_JACK_TYPE ≠ 7 ∧ (jack [(Reg.HUBA_JACK_TYPE, 7)]).get Reg.HUBA_JACK_TYPE = 7 ∧
    (sW).get Reg.HUBA_JACK_TYPE ∉ [2, 3] ∧
    (let s := sW [(Reg.HUBA_JACK_TYPE, 2), (Reg.HUBA_ADC_CTL_BTN_MUTE 1, 1), (Reg.HUBA_ADC_CTL_SOURCE 1, 1)]
     s.get Reg.HUBA_JACK_TYPE ∈ [2, 3] ∧ buttonOf 0xFFFF = some 3 ∧ buttonOf 0 = some 0 ∧ buttonOf 600 = none ∧
      s.get Reg.HUBA_JACK_BUTTONS ≠ 2 ^ 0 ∧ s.bit (Reg.HUBA_ADC_CTL_BTN_MUTE 1) = true ∧ s.bit (Reg.HUBA_ADC_CTL_SOURCE 1) = true) ∧
    (sW [(Reg.HUBA_JACK_TYPE, 3), (Reg.HUBA_JACK_BUTTONS, 4)]).get Reg.HUBA_JACK_BUTTONS ≠ 0 := by decide +kernel
def pst (n : Nat) (l : List (Fld × Nat) := []) (x : PsCh := {}) : State :=
  let s := sW ([(Reg.HUBA_PS_CTL_EN, 1), (Reg.HUBA_PSC_STATUS_STATE 0, n), (Reg.HUBA_PS_VSUP_MV, 12000)] ++ l)
  { s with huba := { s.huba with ps := [(0, x)] } }
theorem witness_PowerStages : (pst 2).psEn 0 = true ∧ ((pst 2).ps 0).stopping = false ∧
    1300 ≤ (2500 : BitVec 16).toInt ∧ (2500 : BitVec 16).toInt ≤ 2500 ∧ (sW).hostUp = true ∧ (sW).bit Reg.GLOBAL_RESTORE_DONE = true ∧ (sW).psEn 1 = false ∧
    (pst 2).psState 0 = 2 ∧ (pst 1).psState 0 = 1 ∧ (pst 3).psState 0 = 3 ∧ ((pst 3).ps 0).thermal = false ∧
    (pst 2 [(Reg.HUBA_PS_CTL_RETRIES, 3), (Reg.HUBA_PSC_STATUS_RETRY_USED 0, 3)]).get (Reg.HUBA_PSC_STATUS_RETRY_USED 0) = 3 ∧
    7500 ≤ (21000 : BitVec 16).toNat ∧ (7499 : BitVec 16).toNat < 7500 ∧ 20500 < (20501 : BitVec 16).toNat ∧
    8000 ≤ (8000 : BitVec 16).toNat ∧ (pst 5).psState 0 = 5 ∧ (1299 : BitVec 16).toInt ≤ 1300 ∧ (1499 : BitVec 16).toInt < 1500 ∧
    1500 ≤ (1500 : BitVec 16).toInt ∧ (pst 2).bit Reg.HUBA_PS_CTL_COMPAT = false ∧
    (pst 2 [(Reg.HUBA_PS_CTL_COMPAT, 1)]).bit Reg.HUBA_PS_CTL_COMPAT = true := by decide +kernel
def mirb : List Byte := List.replicate 32 0 ++ [40, 0, 4, 0, 0, 0, 0, 0, 2, 2, 8, 3]
def sf (x : SurfSt) (l : List (Fld × Nat) := []) : State := { sW l with surf := x }
theorem witness_SurfaceLinksAndFaders : (sW).bit (Reg.SURF_MB_CTL_EN 3) = false ∧
    (sW [(Reg.SURF_MB_CTL_EN 3, 1)]).bit (Reg.SURF_MB_CTL_EN 3) = true ∧ (sW).bit (Reg.SURF_SL_CTL_EN 7) = false ∧
    (sW [(Reg.SURF_SL_CTL_EN 7, 1)]).bit (Reg.SURF_SL_CTL_EN 7) = true ∧ (sW).hostUp = true ∧
    (let s := sf { live := [(31, true)], faults := [(31, 4)], mir := [(63, mirb)] }
     Tab.get false s.surf.live 0 = false ∧ Tab.get false s.surf.live 31 = true ∧ 7 < mirFaders (s.mirOf (32 + 31)) ∧
      4 ≤ Tab.get 0 s.surf.faults 31 ∧ Tab.get 0 s.surf.faults 0 < 4) ∧
    ((([(5, true, true)] : List (Nat × Bool × Bool)).getD 0 (0, false, false)).2.2 = true) ∧
    (let s := sW [(Reg.SURF_SERVO_STATUS_RUNNING, 8)]
     ((s.get Reg.SURF_SERVO_STATUS_RUNNING).testBit 3 && !(s.get Reg.SURF_SERVO_STATUS_QUAR).testBit 3) = true ∧
      (s.unit 515).wait = .halted ∧ (s.unit 515).cyc ≤ s.servoBudget 3 ∧
      ((s.setUnit 515 { wait := .run, cyc := s.servoBudget 3 }).unit 515).wait ≠ .halted ∧
      s.servoBudget 3 ≤ ((s.setUnit 515 { wait := .run, cyc := s.servoBudget 3 }).unit 515).cyc ∧
      s.servoBudget 3 < ((s.setUnit 515 { cyc := s.servoBudget 3 + 1 }).unit 515).cyc ∧
      0 < (act { im with servoBudgets := [1, 1, 1, 9] } s).servoBudget 3) := by decide +kernel
theorem witness_SurfaceLinksAndFaders_fader :
    (let s := sf { live := [(31, true)], faders := [(255, { stallCount := 400 })], mir := [(63, mirb)] }
       [(Reg.SURF_SERVO_STATUS_RUNNING, 15), (Reg.SURF_FADER_STATE_MOTOR 255, 1), (Reg.SURF_FADER_BIND_HANDLE 255, 5)]
     s.faderLive 255 = true ∧ s.faderLive 0 = false ∧ s.permit 255 = true ∧ 400 ≤ (s.fader 255).stallCount ∧
      (s.fader 0).stallCount < 400) ∧
    (∀ k < 17, (sW).get (Reg.SURF_LAW_DB k) = 0) ∧ (sW [(Reg.SURF_LAW_DB 16, 0x3F800000)]).get (Reg.SURF_LAW_DB 16) = 0x3F800000 ∧
    Fp.isNaN 0 = false ∧ Fp.isNaN 0x3F800000 = false ∧ Fp.val 0 ≤ Fp.val 0x3F800000 ∧ ¬Fp.val 0x3F800000 ≤ Fp.val 0 := by decide +kernel
def pw (x : PwrSt) (l : List (Fld × Nat) := []) : State := { sW l with pwr := x }
theorem witness_SuppliesStartsAndCommits :
    (let s := pw { started := true }
     s.pwr.started = true ∧ s.pwr.standby = false ∧ s.bit Reg.PWR_STATUS_COLD_NEXT = false ∧ s.bit Reg.PWR_STATUS_HOLD = false ∧
      s.bit Reg.PWR_STATUS_VPF_LOW = false ∧ s.commits = false) ∧
    State.reset.pwr.started = false ∧ (w [(Reg.TRUST_STATE_LCS, 4)]).get Reg.TRUST_STATE_LCS < 5 ∧
    State.reset.get (Reg.TRUST_CTR_VALUE 0) ≤ Tab.get 0 State.reset.pwr.fw 0 ∧
    (pw {} [(Reg.PWR_STATUS_HOLD, 1)]).bit Reg.PWR_STATUS_HOLD = true ∧
    (pw {} [(Reg.PWR_STATUS_VPF_LOW, 1)]).bit Reg.PWR_STATUS_VPF_LOW = true ∧
    (pw { started := true, audio := true }).commits = true ∧ (pw { started := true, audio := true }).pwr.commitAt = none ∧
    (pw {} [(Reg.PWR_STATUS_SUPPLY, 2)]).get Reg.PWR_STATUS_SUPPLY = 2 ∧ (pw {}).get Reg.PWR_STATUS_SUPPLY ≠ 2 ∧
    (∀ b ∈ [true], b = true) ∧ 131 ≤ (pw { vbatCount := 130 }).pwr.vbatCount + [true].length ∧
    (pw { vbatCount := 129 }).pwr.vbatCount + [true].length < 131 := by decide +kernel
theorem witness_SuppliesStartsAndCommits_standby : (pw {}).hostUp = true ∧ (pw {}).bit Reg.PWR_POLICY_HOST_STANDBY = false ∧
    (let s := pw { started := true } [(Reg.PWR_POLICY_HOST_STANDBY, 1)]
     s.bit Reg.PWR_POLICY_HOST_STANDBY = true ∧ s.pwr.started = true ∧ s.pwr.afterRamp = none ∧ (s.dom 0).configured = true ∧
      (s.dom 0).running = true ∧ 0 < (s.dom 0).block) ∧
    (∀ d < 3, ((w []).dom d).configured = true → ((w []).dom d).running = false) ∧ State.reset.pwr.started = false ∧
    (let s := dm 0 { run0 with si := 560 } (pw { started := true, afterRamp := some ([(0, 560)], .standby false 0 {}) })
     s.pwr.afterRamp = some ([(0, 560)], .standby false 0 {}) ∧ ∀ e ∈ [(0, 560)], e.2 ≤ (s.dom e.1).si) ∧
    (pw { standby := true, req := false }).pwr.standby = true ∧ (pw { standby := true, req := false }).pwr.req = false ∧
    (pw {}).bit Reg.PWR_ALARM_CTL_EN = false ∧ (pw {} [(Reg.PWR_ALARM_CTL_EN, 1)]).bit Reg.PWR_ALARM_CTL_EN = true ∧
    (let s := dm 0 { run0 with si := 96000 } (pw { started := true, audio := true, appendAt := some 0, rebase := true })
     s.commits = true ∧ s.settingsChanged { warm := 5 } = true ∧ s.pwr.appendAt = some 0 ∧ 0 + (s.dom 0).rate ≤ s.now) ∧
    (let s := dm 0 { run0 with si := 95999 } (pw { started := true, audio := true, appendAt := some 0 }); s.now < 0 + (s.dom 0).rate) ∧
    (w [(Reg.TRUST_STATE_LCS, 5)]).get Reg.TRUST_STATE_LCS = 5 ∧ State.reset.bit Reg.TRUST_STATE_RECOVERY = false ∧
    (let s := w [(Reg.TRUST_STATE_LCS, 3), (Reg.TRUST_STATE_RECOVERY, 1)]
     s.get Reg.TRUST_STATE_LCS < 5 ∧ s.bit Reg.TRUST_STATE_RECOVERY = true ∧ s.checkSig { kind := 8, signer := 0, version := 3 } 8 = none) := by
  decide +kernel
/-- Device 1 of a pair with partner 2 and witness 3, in a role at epoch 7. -/
def ro (n : Nat) (p : PairSt := {}) (l : List (Fld × Nat) := []) : State :=
  { dm 0 { run0 with si := 80 } (w ([(Reg.GLOBAL_RESTORE_DONE, 1), (Reg.WL_DEVNUM_DEVNUM, 1), (Reg.TRUST_STATE_MEMBERS, 1),
      (Reg.PAIR_CFG_EN, 1), (Reg.PAIR_CFG_K, 4), (Reg.PAIR_TIMES_LEASE_MS, 4), (Reg.PAIR_TIMES_GUARD_MS, 1),
      (Reg.PAIR_PARTNER_PARTNER, 2), (Reg.PAIR_PARTNER_WITNESS, 3), (Reg.PAIR_STATUS_ROLE, n), (Reg.PAIR_EPOCH_EPOCH, 7)] ++ l)) with
    pair := p
    wl := { State.reset.wl with members := [(1, 11), (2, 22), (3, 33), (4, 44), (5, 55)], route := [(2, 0), (3, 1), (4, 2), (5, 2)] } }
def late (s : State) : State := dm 0 { run0 with si := 2000000 } s
theorem witness_PairLease :
    (let s := ro 0 {} [(Reg.PAIR_CFG_EN, 0)]
     let u (v : Nat) := (s.writePlain 0x13000 v).putBit Reg.PAIR_CFG_EN false
     s.hostUp = true ∧ s.bit Reg.GLOBAL_RESTORE_DONE = true ∧ s.bit Reg.PAIR_CFG_EN = false ∧
      (ro 1).refusesWrite 0x13000 0xFFFFFFFF = true ∧ s.refusesWrite 0x13000 0x401 = false ∧ (0x401 : BitVec 32).getLsbD 0 = true ∧
      (u 0x401).pairRefused = false ∧ s.refusesWrite 0x13000 1 = false) ∧
    ((((ro 0 {} [(Reg.PAIR_CFG_EN, 0), (Reg.PAIR_TIMES_LEASE_MS, 0)]).writePlain 0x13000 0x401).putBit Reg.PAIR_CFG_EN false).pairRefused
      = true) ∧ (ro 1).bit Reg.PAIR_CFG_EN = true ∧ (ro 1).refusesWrite 0x13000 0x400 = false := by decide +kernel
theorem witness_PairLease_listen : (ro 3).pair.listening = none ∧ (ro 3 { listening := some 0 }).pair.listening = some 0 ∧
    (ro 3).get Reg.PAIR_STATUS_ROLE = 3 ∧
    0 + ((late (ro 3)).guardLen + 2 * ((late (ro 3)).dom 0).rate) ≤ (late (ro 3)).now ∧
    (ro 3).now < 0 + ((ro 3).guardLen + 2 * ((ro 3).dom 0).rate) ∧ (ro 3).bit Reg.PAIR_CFG_PREFER = false ∧
    (ro 3 { openNext := true, claimed := 8 }).pair.openNext = true ∧ (ro 3 { openNext := true, claimed := 8 }).gateFree = true ∧
    (ro 1).pair.openNext = false ∧ (ro 1).get Reg.PAIR_STATUS_ROLE = 1 ∧ (ro 2).get Reg.PAIR_STATUS_ROLE ≠ 1 := by decide +kernel
def msg (e : Nat) : PairMsg := { origin := 2, pair := 1, epoch := e, seq := 5 }
def asks (e : Nat) : PairMsg := { origin := 4, pair := 5, epoch := e }
def wp : WitPair := { a := 4, b := 5, epoch := 7, holder := 4, renewed := some 10 }
theorem witness_PairLease_told : (ro 1).toldBy (msg 8) ∧ (ro 1).get Reg.PAIR_EPOCH_EPOCH < 8 ∧ (ro 1).toldBy (msg 6) ∧
    6 < (ro 1).get Reg.PAIR_EPOCH_EPOCH ∧ (ro 1).pair.listening = none ∧ (ro 2).toldBy (msg 7) ∧
    (ro 2).get Reg.PAIR_EPOCH_EPOCH = 7 ∧ (ro 1).fromPartner { msg 8 with authOk := false } = true ∧
    (ro 1).accepts { msg 8 with authOk := false } = false ∧ (ro 0 { witness := [wp] }).askedBy (asks 7) ∧
    (ro 0 { witness := [wp] }).witOf 4 5 = some wp ∧ (ro 0 {}).askedBy (asks 6) ∧
    (ro 0 { witness := [wp] }).now < 10 + (ro 0 { witness := [wp] }).samplesMs 0 ((asks 7).leaseMs + (asks 7).guardMs) ∧
    (late (ro 0 { witness := [wp] })).askedBy (asks 8) ∧
    10 + (late (ro 0 { witness := [wp] })).samplesMs 0 ((asks 8).leaseMs + (asks 8).guardMs) ≤ (late (ro 0 { witness := [wp] })).now ∧
    (ro 0).witOf 4 5 = none ∧ (ro 0).pair.witness.length < 8 := by decide +kernel
theorem witness_PairLease_answers :
    (ro 1 { sentAt := [(5, 40)] }).toldBy (msg 7) ∧ (msg 7).si = 0 ∧
    (let m : PairMsg := { origin := 3, pair := 2, epoch := 7, seq := 5 }
     (ro 1).fromPartner m = false ∧ (ro 1).accepts m = true ∧ (ro 1).fromWitness m = true) ∧
    (ro 1 { sentAt := [(5, 40)] }).pair.sentAt.find? (fun e => e.1 == (msg 7).seq) = some (5, 40) ∧
    (ro 1 { yieldAt := some (100, false) }).toldBy { msg 7 with si := 50 } ∧
    (ro 1 { yieldAt := some (100, false) }).pair.yieldAt = some (100, false) ∧
    (late (ro 1)).pair.ackedAt + (late (ro 1)).leaseLen < (late (ro 1)).now + (late (ro 1)).blockP ∧
    ¬((ro 1).pair.ackedAt + (ro 1).leaseLen < (ro 1).now + (ro 1).blockP) ∧
    (let s := late (ro 2 { heardAt := some 0 } [(Reg.PAIR_STATUS_READY, 1)])
     s.get Reg.PAIR_STATUS_ROLE = 2 ∧ s.bit Reg.PAIR_STATUS_READY = true ∧ 0 + s.guardLen ≤ s.now) ∧
    (let s := ro 2 { claimed := 8 }
     let m : PairMsg := { origin := 3, pair := 2, epoch := 8, seq := 5 }
     s.accepts m = true ∧ s.fromWitness m = true ∧ s.pair.claimed ≠ 0 ∧ 2 ≤ s.get Reg.PAIR_STATUS_ROLE ∧ s.coldMode = false) ∧
    (ro 2 {} [(Reg.PAIR_STATUS_READY, 1)]).toldBy { msg 7 with si := 200 } ∧ (ro 2).bit Reg.PAIR_STATUS_READY = false := by decide +kernel
theorem witness_PairLease_yield : (ro 1 { yieldAt := some (97, true) }).now + (ro 1).blockP < 97 ∧
    (ro 1 { yieldAt := some (80, true) }).pair.yieldAt = some (80, true) ∧ 80 ≤ (ro 1).now ∧
    (ro 1 { yieldAt := some (96, false) }).pair.yieldAt = some (96, false) ∧ 96 ≤ (ro 1).now + (ro 1).blockP ∧
    (ro 2 { yieldAt := some (80, true), claimed := 8 }).gateFree = true ∧ (ro 1).hostUp = true ∧ (ro 1).pair.swap = 0 ∧
    (ro 1).pair.yieldAt = none ∧ (ro 1).coldMode = false ∧ (ro 1 {} [(Reg.PAIR_CFG_MODE, 1)]).coldMode = true ∧
    (ro 2 {} [(Reg.PAIR_STATUS_SUSPECT, 1)]).bit Reg.PAIR_STATUS_SUSPECT = true ∧ (ro 2).bit Reg.PAIR_STATUS_SUSPECT = false := by
  decide +kernel
def mir5 : PairMsg := { origin := 2, pair := 1, epoch := 7, kind := 0x13, seq := 5, mirror := some (.params 0 false 0 [⟨h4, 0x40000000⟩]) }
theorem witness_PairCopies :
    (let s := ro 2 { mirrorIn := 5 } [(Reg.PAIR_STATUS_READY, 1)]
     s.toldBy mir5 ∧ s.takesMirrors = true ∧ mir5.seq = s.pair.mirrorIn ∧ 6 ≠ s.pair.mirrorIn ∧ s.toldBy { mir5 with seq := 6 }) ∧
    (ro 1).takesMirrors = false ∧
    (let s := ro 2 {} [(Reg.PAIR_CFG_MODE, 1)]
     s.toldBy { mir5 with kind := 0x19, replica := some {}, mode := 1 } ∧ s.coldMode = true ∧ s.pair.coldStart = false) ∧
    (let s := ro 2 {} [(Reg.PAIR_STATUS_SYNC, 1)]
     s.toldBy { mir5 with kind := 0x18, control := some {} } ∧ s.coldMode = false ∧ s.get Reg.PAIR_STATUS_SYNC = 1) ∧
    (ro 0).pair.digests = [] ∧ (ro 0).inStep = false ∧ (ro 1).inStep = true ∧ 2 * (ro 1).blockP ≤ (ro 1).now ∧
    (ro 1 {} [(Reg.PAIR_GRP_CMP_GROUPS, 2)]).comparedGroups = [1] := by decide +kernel
def dig (si : Nat) : PairMsg := { origin := 2, pair := 1, epoch := 7, kind := 0x14, si := si, group := 1, digests := [5] }
theorem witness_PairCopies_digests : (ro 0).toldBy (dig 48) ∧ (ro 1).toldBy (dig 0) ∧ (ro 1).now ≤ (dig 0).si + 6 * (ro 1).blockP ∧
    (late (ro 1)).toldBy (dig 0) ∧ (dig 0).si + 6 * (late (ro 1)).blockP < (late (ro 1)).now ∧
    (let s := ro 1 { digests := [{ si := 48, own := some [(1, 5)] }] } [(Reg.PAIR_GRP_CMP_GROUPS, 2)]
     s.toldBy (dig 48) ∧ s.inStep = true ∧ s.now ≤ (dig 48).si + 6 * s.blockP ∧
      s.pair.digests = [{ si := (dig 48).si, own := some [(1, 5)] }] ∧ s.comparedGroups = [1] ∧ 5 = Tab.get 0 [(1, 5)] 1 ∧
      4 ≠ Tab.get 0 [(1, 5)] 1) ∧
    (ro 1).pair.verdictOwn = none ∧ (ro 2 { verdictOwn := some true }).pair.verdictOwn = some true ∧
    (ro 2 { verdictOwn := some true }).toldBy mir5 ∧ (ro 2 { verdictOwn := some true }).pair.verdictPartner = none ∧
    (ro 1 { verdictOwn := some true }).toldBy mir5 ∧ mir5.errorFound = false ∧ (ro 1 { verdictOwn := some true }).pair.yieldAt = none ∧
    (ro 2 { verdictPartner := some true }).pair.verdictPartner ≠ none := by decide +kernel
theorem witness_PairCopies_replicas : (ro 1 {} [(Reg.PAIR_CFG_MODE, 1)]).coldMode = true ∧ (ro 1).coldMode = false ∧
    (let s := late (ro 2 { replica := some {}, replicaAt := 0 } [(Reg.PAIR_CFG_MODE, 1), (Reg.PAIR_STATUS_READY, 1),
       (Reg.PAIR_TIMES2_REPL_S, 1)])
     s.get Reg.PAIR_STATUS_ROLE = 2 ∧ s.coldMode = true ∧ s.pair.coldStart = false ∧ s.replicaFresh = false) ∧
    (ro 2).get Reg.PAIR_STATUS_SYNC ≠ 2 ∧ (ro 2 {} [(Reg.PAIR_STATUS_SYNC, 2)]).get Reg.PAIR_STATUS_SYNC = 2 ∧
    2 ^ 26 - 3 + ([1, 2, 3] : List Byte).length ≤ 2 ^ 26 ∧
    (let s := late (ro 2 {} [(Reg.PAIR_STATUS_SYNC, 2), (Reg.PAIR_TIMES2_RESYNC_S, 10)])
     s.get Reg.PAIR_STATUS_SYNC ≠ 0 ∧ s.pair.resyncAt + s.get Reg.PAIR_TIMES2_RESYNC_S * (s.dom 0).rate ≤ s.now) := by decide +kernel
theorem witness_RegisterAccessCountersAndPads : (sW).hostUp = true ∧ 0x20000 ≤ (0x20000 : BitVec 18).toNat / 4 * 4 ∧
    (0x1FFFF : BitVec 18).toNat / 4 * 4 < 0x20000 ∧ State.reset.hostUp = true ∧ State.reset.bit Reg.GLOBAL_RESTORE_DONE = false ∧
    State.reset.changesRestored 0x13000 1 = true ∧ (sW).bit Reg.GLOBAL_RESTORE_DONE = true ∧ (3 : BitVec 4) ≠ 15 ∧
    (1 : BitVec 32).getLsbD 0 = true ∧ (sW).bit Reg.PWR_POLICY_HOST_STANDBY = false ∧
    (w [(Reg.TRUST_STATE_RECOVERY, 1)]).bit Reg.TRUST_STATE_RECOVERY = true ∧ State.reset.get Reg.TRUST_STATE_LCS ≠ 5 ∧
    (5000 : BitVec 32).toNat ≤ 5000 ∧ 5000 < (5001 : BitVec 32).toNat % 2 ^ 13 ∧
    ((pairAt (Reg.HOST_HUSH_STATE_HUSHED).off).map fun p => p.2.2) = some false ∧
    ((pairAt ((Reg.HOST_HUSH_STATE_HUSHED).off + 4)).map fun p => p.2.2) = some true ∧
    (let s : State := { sW with latch := [((Reg.HOST_HUSH_STATE_HUSHED).off, 6)] }
     Tab.get 0 s.latch (Reg.HOST_HUSH_STATE_HUSHED).off ≠ 0) ∧ Tab.get 0 (sW).latch 0 = 0 := by decide +kernel
theorem witness_RegisterAccessCountersAndPads_pads :
    (let s := sW [(Reg.PINFN_MFP_FN 7, 3)]
     s.hostUp = true ∧ 11 ≤ (11 : BitVec 32).toNat % 16 ∧ 3 ∈ [3, 4, 5] ∧ (7 : Fin 32) ≠ 31 ∧ s.get (Reg.PINFN_MFP_FN 7) = 3 ∧
      10 < 11 ∧ (10 : Nat) ∉ [3, 4, 5] ∧ 10 ≠ s.pinFn 31) ∧
    (let s : State := { sW [(Reg.PINFN_MFP_PENDING 31, 1), (Reg.PINFN_MFP_FN 31, 9)] with time := { mplls := [(0, { everLocked := true })] } }
     s.pinsMove = true ∧ s.bit (Reg.PINFN_MFP_PENDING 31) = true ∧ s.get (Reg.PINFN_MFP_FN 31) ≠ s.pinFn 31) ∧
    (let s : State := { sW [(Reg.PINFN_MFP_PENDING 0, 1), (Reg.PINFN_MFP_FN 0, 9)] with
       time := { mplls := [(0, { everLocked := true })] }, pins := { fn := [(0, 9)] } }
     s.pinsMove = true ∧ s.bit (Reg.PINFN_MFP_PENDING 0) = true ∧ s.get (Reg.PINFN_MFP_FN 0) = s.pinFn 0) ∧
    (sW).bit (Reg.PINFN_MFP_PENDING 0) = false ∧ Tab.get none (sW).pins.parked 0 = none ∧
    (let s : State := { sW with pins := { parked := [(31, some 9)] } }; Tab.get none s.pins.parked 31 = some 9) := by decide +kernel
theorem witness_QueueStep : (∃ c rest, ({ State.reset with pending := [.supplyDip] } : State).pending = c :: rest) ∧
    State.reset.pending = [] ∧ (∀ c < 64, (State.reset.cluster c).firing = none) ∧
    (∀ k < 4, (State.reset.unit (512 + k)).wait ≠ .run) ∧
    ((State.reset.setUnit 515 { wait := .run, mid := some {} }).unit (512 + 3)).mid ≠ none :=
  ⟨⟨_, _, rfl⟩, rfl, fun _ _ => rfl, by decide +kernel, by decide +kernel⟩
/-- The register map has rows with a number at power-up, and GLOBAL_ID is one of them. -/
theorem witness_ResetState : (regRows.any fun r => match r.pup with
    | .num n => r.base == 0 && (instances r).any fun f => State.reset.get f == n
    | _ => false) = true := by decide +kernel
theorem witness_StepKeepsCanonicalForm : State.reset.Canonical ∧ ∃ t, step State.reset = .next t := by
  exact ⟨⟨by decide +kernel, by decide +kernel, by decide +kernel, by decide +kernel, by decide +kernel, by decide +kernel,
    by decide +kernel, by decide +kernel⟩, _, rfl⟩

/-! ## The manual's worked examples -/

/-- 12_audio_ports_and_aes3.md, a worked configuration: AES receiver 5 at a rate, patched to slot 3 of output AP4. -/
def sAes (rate : Nat) : State :=
  let s := act im (dm 0 run0 (w [(Reg.AES_RX_STATUS_RATE 5, rate), (Reg.APORT_P_CTL_DIR 4, 1)]))
  { s with mix := { s.mix with patch := [(mkAddr 3 131, { source := mkAddr 4 10 })] } }
theorem test_asrc_path : (sAes 1).latency (mkAddr 3 131) (mkAddr 4 10) = some (119, 0) ∧
    (sAes 2).latency (mkAddr 3 131) (mkAddr 4 10) = some (113, 0) := by decide +kernel
/-- 10_network.md, a worked stream plan: 48 samples of link offset and 12 of packet. -/
def rack : StreamRec := { channels := 40, linkOffset := 48, format := 1 }
theorem test_stream_path :
    (let s := nt { rx := [(0, some { record := rack })], tx := [(0, some { record := { rack with linkOffset := 0 } })] }
     let t := act im { s with mix := { s.mix with patch := [(mkAddr 1 0, { source := mkAddr 1 0 })] } }
     t.latency (mkAddr 1 0) (mkAddr 1 0)) = some (92, 0) ∧ rack.S = 12 ∧ min 64 (1440 / (rack.S * rack.w)) = 40 ∧
    streamLoad (List.replicate 48 rack) = (1920 * 96000, 1920) ∧ (nt {}).bufferBytes true (List.replicate 48 rack) = 437760 := by
  decide +kernel
/-- 03_firing_schedule.md, a worked frame: strip cluster C0 and bus cluster C6 of region D0.G0. -/
def strip : FiringEntry := { cluster := 0, startTick := 72, baseLoad := 70000, headShare := 21999, outBytes := 25600 }
def bus : FiringEntry := { cluster := 6, startTick := 4719, baseLoad := 40000, headShare := 21999, outBytes := 8192 }
def house : SchedImage := {
  shares := [{ domain := 0 }], regions := [{ region := 0, domain := some 0, setPoint := 3 }]
  clusters := [{ cluster := 0 }, { cluster := 6 }], firings := [strip, bus] }
theorem test_windows : (let x := window house (frameOf {}) [] strip; (x.first, x.last, x.reserve)) = (0, 4708, 187) ∧
    (let x := window house (frameOf {}) [] bus; (x.first, x.last, x.reserve)) = (4711, 7814, 56) := by decide +kernel
theorem test_allotment : allotment house (frameOf {}) 0 = 146666 ∧ headroom house (frameOf {}) 0 = 21999 := by decide +kernel
/-- R735: the wait after the n-th failed claim doubles from one second to an hour. -/
theorem test_claim_waits : [1, 2, 12, 13].map claimWait = [1, 2, 2048, 3600] := by decide
/-- 05_instruction_set.md, the worked encoding: its bundle issues FMA F0,F33,F8, FMA F1,F33,F9 and LDL.64 F32 with a post-increment
of A2. -/
def worked : BitVec 128 := 0x00020084800806124000000001880201
theorem test_worked_bundle : bundleOps 0 worked =
    [.fma { u := 0, d := 0, a := 33, b := 8, last := false }, .fma { u := 0, d := 1, a := 33, b := 9, last := false, second := true },
     .ldl64 { u := 0, d := 32, a := 2, m := 1 } .clean] := by decide +kernel
/-- A word of each slot and of the control slot, its fields written out from R177, R251, R263 and R264. -/
theorem test_words :
    wordInstr 0 0 0b0000101_011_111111_000001_000010_01 = some (.fadd { u := 0, pred := 3, d := 63, a := 1, b := 2, m := 1 }) ∧
    wordInstr 0 2 0b0011000_010_011111_011110_011101_00 = some (.mul { u := 0, pred := 2, d := 31, a := 30, b := 29 }) ∧
    wordInstr 0 2 0b0100011_000_000101_100000000001_00 = some (.movi { u := 0, d := 5 } 0x801) ∧
    wordInstr 0 3 0b0000101_111_111111_000011_000100_10 = some (.stl32f { u := 0, pred := 7, d := 63, a := 3, b := 4, m := 2 } .clean) ∧
    wordInstr 0 3 0b0010001_000_111111_000000_000000_00 = some (.ldt { u := 0, d := 63 }) ∧
    wordInstr 0 4 0b0000010_011_0_101_1_00000_00000000000000000000_0000000000_1111111111 = some (.brc { u := 0, pred := 3 } (.addr 1023) 5 true) ∧
    wordInstr 0 4 0b0000011_000_1_000_0_11111_00000000000000000000_0000000000_0000000000 = some (.call { u := 0 } (.reg 31)) ∧
    wordInstr 0 4 0b0000101_000_11_1_00_00000_11111111111111111111_0000000000_0000000101 =
      some (.loop { u := 0 } 3 (.imm 0xFFFFF) 5) ∧
    wordInstr 0 4 0b0001011_001_00000_00010_00000000000000000000_0000000000_0011111111 = some (.movx { u := 0, pred := 1, a := 2 } 255) ∧
    bundleOps 0 0b0_0_000_010_1_111111_001_0000000000000000000000000000000000000000000000_0000000000000000000000000000000000000000000000000000000000000101 =
      [.longImmediate { u := 0, pred := 1, d := 63 } true 5] := by decide +kernel
/-- The words with every field at the top of its range are those of encodings. -/
theorem witness_WordsGiveTheirOperations : Op.inM { u := 515, pred := 7, d := 63, a := 63, b := 63, m := 3 } 1 = true ∧
    Op.inI { u := 0, pred := 7, d := 31, a := 31, b := 63, m := 2 } 1 = true ∧ Op.inMovi { u := 0, d := 31 } = true ∧
    Op.inL { u := 0, pred := 7, d := 31, a := 31, b := 31, m := 3 } 1 = true ∧ Op.inC { u := 0, pred := 7 } = true ∧
    (Instr.movs { u := 0, d := 31 } 255).word = some (4, 0b0001010_000_00000_11111_00000000000000000000_0000000000_0011111111) ∧
    illegalLimm (Op.limmBits { u := 0, d := 63 } true (2 ^ 64 - 1)) = none := by decide +kernel
/-- With nothing commanded, a firing goes on by a cycle: unit 0 issues the worked bundle; A2 has moved on
by 8, and three results are on their way. -/
theorem test_cycle_issues_a_bundle :
    let s := { sF with prog := [(5, worked)] }.setUnit 0 { wait := .run, pc := 5, cyc := 32, a := [(2, 8)] }
    let x := (after (step s)).unit 0
    x.pc = 6 ∧ x.cyc = 33 ∧ x.getA 2 = 16 ∧ (x.flight.map fun l => (l.cycle, l.dest)) = [(35, .f 32), (36, .f 0), (36, .f 1)] := by
  decide +kernel


end Sys2Proof.Tests
end

