-- ==== Sys2Proof/Proofs/EventFrame.lean ====
section
/-! SUPPORT. What posting an event leaves as it was within the host interface: every register but those of the event rings and their
counts, and every part of the host state but the queues and counts of the events themselves. Beside `SameButHost`, which speaks of all
that lies outside. -/

namespace Sys2Proof

/-- The registers that posting an event may write: the ring errors, the count of lost events, TAIL and ERR of the event rings
(R449, R453, R456). -/
def eventRegs : List Fld :=
  [Reg.HOST_STATUS_RING_ERR, Reg.HOST_STATUS_EVT_LOST, Reg.HOST_EVT_LOST_CNT_COUNT] ++
    (List.range 4).map Reg.HOST_ERING_TAIL_POS ++ (List.range 4).map Reg.HOST_ERING_ERR_CODE

theorem ringErr_mem_eventRegs : Reg.HOST_STATUS_RING_ERR ∈ eventRegs := by simp [eventRegs]
theorem evtLost_mem_eventRegs : Reg.HOST_STATUS_EVT_LOST ∈ eventRegs := by simp [eventRegs]
theorem lostCount_mem_eventRegs : Reg.HOST_EVT_LOST_CNT_COUNT ∈ eventRegs := by simp [eventRegs]

theorem ringTail_mem_eventRegs {r : Nat} (hr : r < 4) : Reg.HOST_ERING_TAIL_POS r ∈ eventRegs :=
  List.mem_append_left _ (List.mem_append_right _ (List.mem_map_of_mem (List.mem_range.2 hr)))

theorem ringErrCode_mem_eventRegs {r : Nat} (hr : r < 4) : Reg.HOST_ERING_ERR_CODE r ∈ eventRegs :=
  List.mem_append_right _ (List.mem_map_of_mem (List.mem_range.2 hr))

/-- A register that posting an event does not write. -/
abbrev Fld.apartFromEvents (f : Fld) : Prop := ∀ g ∈ eventRegs, f.key ≠ g.key

end Sys2Proof

namespace Sys2Proof.Machine

/-- The host state `x` with the event rings, the queues before them, their counts and the vectors of `y`. -/
def HostSt.withEventsOf (x y : HostSt) : HostSt :=
  { x with evRing := y.evRing, holding := y.holding, lost := y.lost, msix := y.msix, charged := y.charged,
           reserveUsed := y.reserveUsed, evWait := y.evWait }

/-- Within the host interface `t` differs from `s` at most as after posting events. -/
structure SameButEvents (s t : State) : Prop where
  host : t.host = s.host.withEventsOf t.host
  get : ∀ f : Fld, f.apartFromEvents → t.get f = s.get f

variable (s : State)

theorem SameButEvents.trans {s t u : State} (a : SameButEvents s t) (b : SameButEvents t u) : SameButEvents s u where
  host := by
    have e := b.host
    rw [a.host] at e
    exact e
  get f h := (b.get f h).trans (a.get f h)

theorem SameButEvents.put {g : Fld} (h : g ∈ eventRegs) (v : Nat) : SameButEvents s (s.put g v) where
  host := rfl
  get _ hf := State.get_put_ne s (hf g h) v

theorem SameButEvents.modHost {f : HostSt → HostSt} (h : f s.host = s.host.withEventsOf (f s.host)) :
    SameButEvents s (s.modHost f) where
  host := h
  get _ _ := rfl

theorem SameButEvents.hold (r : Nat) (h : Held) : SameButEvents s (s.hold r h) := by
  unfold State.hold
  dsimp only
  split
  · exact .modHost s rfl
  · exact ((SameButEvents.modHost s rfl).trans (.put _ lostCount_mem_eventRegs _)).trans (.put _ evtLost_mem_eventRegs 1)

theorem SameButEvents.stopEvRing {r : Nat} (hr : r < 4) : SameButEvents s (s.stopEvRing r) :=
  ((SameButEvents.put s (ringErrCode_mem_eventRegs hr) 2).trans (.put _ ringErr_mem_eventRegs 1)).trans (.hold _ _ _)

theorem SameButEvents.hostWrite (a : Nat) (bs : List Byte) : SameButEvents s (s.hostWrite a bs) where
  host := rfl
  get _ _ := rfl

theorem SameButEvents.raiseVector (v : Nat) : SameButEvents s (s.raiseVector v) := .modHost s rfl

theorem SameButEvents.putEvent {r : Nat} (hr : r < 4) (h : Held) (b : Bool) : SameButEvents s (s.putEvent r h b) :=
  (((SameButEvents.hostWrite s _ _).trans (.modHost _ rfl)).trans (.put _ (ringTail_mem_eventRegs hr) _)).trans
    (.raiseVector _ _)

theorem SameButEvents.writeEvent {r : Nat} (hr : r < 4) (h : Held) : SameButEvents s (s.writeEvent r h) := by
  unfold State.writeEvent
  split_ifs
  · exact (SameButEvents.stopEvRing s hr).trans (.hold _ _ _)
  · exact .modHost s rfl
  · exact .putEvent s hr h true
  · exact .putEvent s hr h false
  · exact .modHost s rfl

theorem SameButEvents.postTo {r : Nat} (hr : r < 4) (e : Event) (v : Option Nat) : SameButEvents s (s.postTo r e v) := by
  unfold State.postTo
  dsimp only
  split
  · exact .writeEvent s hr _
  · exact .hold s r _

/-- Posting an event of a class changes, within the host interface, nothing but what belongs to events. -/
theorem SameButEvents.post (c : EvClass) (v : Option Nat) (e : Event) : SameButEvents s (s.post c v e) :=
  .postTo s (Nat.mod_lt _ (by omega)) e v

theorem SameButEvents.postNow (c : EvClass) (v : Option Nat) (k : Nat) (b : List Nat) : SameButEvents s (s.postNow c v k b) :=
  .post s c v _

/-- A completion that waits belongs to the host part (R439). -/
theorem SameButHost.finish (h : CmdHdr) (c : Nat) (st : Status) (d si r : Nat) : SameButHost s (s.finish h c st d si r) :=
  .modHost s _

theorem SameButHost.ok (h : CmdHdr) (c : Nat) : SameButHost s (s.ok h c) := .finish s h c .ok 0 0 0

/-! ### What events leave alone in the host state -/

variable {s} {t : State}

theorem SameButEvents.done (a : SameButEvents s t) : t.host.done = s.host.done := by rw [a.host]; rfl
theorem SameButEvents.hushCmd (a : SameButEvents s t) : t.host.hushCmd = s.host.hushCmd := by rw [a.host]; rfl
theorem SameButEvents.hushPin (a : SameButEvents s t) : t.host.hushPin = s.host.hushPin := by rw [a.host]; rfl

theorem SameButEvents.bit (a : SameButEvents s t) (f : Fld) (h : f.apartFromEvents) : t.bit f = s.bit f := by
  unfold State.bit
  rw [a.get f h]

end Sys2Proof.Machine
end

