-- ==== Sys2Proof/Proofs/Hush.lean ====
section
/-! PROOF. Hush by command and by pin, and the ramps of the output groups (R463–R466, R818, R841). -/

namespace Sys2Proof.Machine

variable (s : State)

/-! ### A status bit read as a truth value -/

theorem State.bit_put_same {f : Fld} (hf : f.w = 1) (v : Nat) : (s.put f v).bit f = (v % 2 == 1) := by
  simp [State.bit, hf]

theorem State.bit_putBit_same {f : Fld} (hf : f.w = 1) (b : Bool) : (s.putBit f b).bit f = b := by
  unfold State.putBit
  rw [State.bit_put_same s hf]
  cases b <;> rfl

/-! ### What the host is shown -/

/-- HOST_HUSH_STATE and HUSH_ACTIVE agree with the groups of either cause. -/
def State.ShowsHush (t : State) : Prop :=
  t.get Reg.HOST_HUSH_STATE_HUSHED = t.hushed.toNat ∧ (t.bit Reg.HOST_STATUS_HUSH_ACTIVE = true ↔ t.hushed ≠ 0)

/-- The two registers of `State.showHush`, before it posts the HUSH event. -/
def State.putHush : State :=
  (s.put Reg.HOST_HUSH_STATE_HUSHED s.hushed.toNat).putBit Reg.HOST_STATUS_HUSH_ACTIVE (s.hushed != 0)

theorem State.putHush_showsHush : s.putHush.ShowsHush := by
  constructor
  · exact (State.get_put_ne _ (by decide) _).trans (State.get_put_lt s _ _ s.hushed.isLt)
  · have active : s.putHush.bit Reg.HOST_STATUS_HUSH_ACTIVE = (s.hushed != 0) := State.bit_putBit_same _ rfl _
    rw [active]
    exact bne_iff_ne

theorem SameButHost.putHush : SameButHost s s.putHush :=
  (SameButHost.put s Reg.HOST_HUSH_STATE_HUSHED _ (by decide) (by decide)).trans
    (.put _ Reg.HOST_STATUS_HUSH_ACTIVE _ (by decide) (by decide))

theorem State.putHush_pin : s.putHush.bit Reg.HOST_STATUS_HUSH_PIN = s.bit Reg.HOST_STATUS_HUSH_PIN :=
  (State.bit_put_ne _ (by decide) _).trans (State.bit_put_ne s (by decide) _)

/-- The HUSH event follows the two registers. -/
theorem SameButEvents.showHush (pin : Nat) : SameButEvents s.putHush (s.showHush pin) := .postNow _ _ _ _ _

theorem SameButHost.showHush (pin : Nat) : SameButHost s (s.showHush pin) :=
  (SameButHost.putHush s).trans (.postNow _ _ _ _ _)

@[simp] theorem State.showHush_done (pin : Nat) : (s.showHush pin).host.done = s.host.done :=
  (SameButEvents.showHush s pin).done
@[simp] theorem State.showHush_hushCmd (pin : Nat) : (s.showHush pin).host.hushCmd = s.host.hushCmd :=
  (SameButEvents.showHush s pin).hushCmd
@[simp] theorem State.showHush_hushPin (pin : Nat) : (s.showHush pin).host.hushPin = s.host.hushPin :=
  (SameButEvents.showHush s pin).hushPin

@[simp] theorem State.showHush_hushed (pin : Nat) : (s.showHush pin).hushed = s.hushed := by simp [State.hushed]

theorem State.showHush_pin (pin : Nat) : (s.showHush pin).bit Reg.HOST_STATUS_HUSH_PIN = s.bit Reg.HOST_STATUS_HUSH_PIN :=
  ((SameButEvents.showHush s pin).bit _ (by decide)).trans s.putHush_pin

theorem State.showHush_showsHush (pin : Nat) : (s.showHush pin).ShowsHush := by
  have events := SameButEvents.showHush s pin
  obtain ⟨groups, active⟩ := s.putHush_showsHush
  constructor
  · rw [events.get _ (by decide), groups, State.showHush_hushed]; rfl
  · rw [events.bit _ (by decide), active, State.showHush_hushed]; rfl

/-! ### HUSH (R466) -/

/-- What HUSH leaves once its causes are changed by `f`: the registers, the event and the completion. -/
theorem hush_completes (h : CmdHdr) (f : HostSt → HostSt) (pin : Nat) (hf : (f s.host).done = s.host.done) :
    let t := ((s.modHost f).showHush pin).ok h 0x0A00
    t.host.hushCmd = (f s.host).hushCmd ∧ t.host.hushPin = (f s.host).hushPin ∧ Completed s t h 0x0A00 .ok 0 0 0 ∧
      t.ShowsHush ∧ SameButHost s t := by
  refine ⟨State.showHush_hushCmd _ _, State.showHush_hushPin _ _, ?_, State.showHush_showsHush (s.modHost f) pin,
    ((SameButHost.modHost s f).trans (.showHush _ _)).trans (.ok _ h 0x0A00)⟩
  exact congrArg (· ++ _) ((State.showHush_done _ _).trans hf)

theorem exec_hush (h : CmdHdr) (g : BitVec 64) : exec (.hush h g) s = execHush h g s := rfl

theorem exec_hush_adds {h : CmdHdr} (g : BitVec 64) (release : h.flags.testBit 0 = false) :
    exec (.hush h g) s =
      .next (((s.modHost fun x => { x with hushCmd := x.hushCmd ||| g }).showHush 0).ok h 0x0A00) := by
  simp [exec_hush, execHush, release]

theorem exec_hush_releases {h : CmdHdr} (g : BitVec 64) (release : h.flags.testBit 0 = true)
    (ok : h.flags.testBit 1 = false ∨ s.bit Reg.HOST_STATUS_HUSH_PIN = false) :
    exec (.hush h g) s =
      .next (((s.modHost fun x =>
        { x with hushCmd := x.hushCmd &&& ~~~g, hushPin := if h.flags.testBit 1 then 0 else x.hushPin }).showHush
          (if h.flags.testBit 1 then 1 else 0)).ok h 0x0A00) := by
  have notRefused : (h.flags.testBit 1 && s.bit Reg.HOST_STATUS_HUSH_PIN) = false := Bool.and_eq_false_iff.2 ok
  simp [exec_hush, execHush, release, notRefused]

theorem exec_hush_refused {h : CmdHdr} (g : BitVec 64) (release : h.flags.testBit 0 = true) (pin : h.flags.testBit 1 = true)
    (low : s.bit Reg.HOST_STATUS_HUSH_PIN = true) : exec (.hush h g) s = .next (s.finish h 0x0A00 .refused 2 0 0) := by
  simp [exec_hush, execHush, release, pin, low, State.refuse]

/-! ### HUSH_N_FALL and HUSH_N_RISE (R465) -/

theorem exec_hushNFall : exec .hushNFall s = execHushNFall s := rfl
theorem exec_hushNRise : exec .hushNRise s = execHushNRise s := rfl

theorem exec_hushNFall_low (low : s.bit Reg.HOST_STATUS_HUSH_PIN = true) : exec .hushNFall s = .next s := by
  simp [exec_hushNFall, execHushNFall, low]

theorem exec_hushNFall_high (high : s.bit Reg.HOST_STATUS_HUSH_PIN = false) :
    exec .hushNFall s = .next (((s.modHost fun x =>
      { x with hushPin := x.hushPin ||| BitVec.ofNat 64 (s.get Reg.HOST_HUSH_PIN_GRP_GROUPS) }).put
        Reg.HOST_STATUS_HUSH_PIN 1).showHush 1) := by
  simp [exec_hushNFall, execHushNFall, high, State.set]

theorem exec_hushNRise_high (high : s.bit Reg.HOST_STATUS_HUSH_PIN = false) : exec .hushNRise s = .next s := by
  simp [exec_hushNRise, execHushNRise, high]

theorem exec_hushNRise_latched (low : s.bit Reg.HOST_STATUS_HUSH_PIN = true)
    (latch : s.bit Reg.HOST_HUSH_CFG_PIN_LATCH = true) :
    exec .hushNRise s = .next (s.put Reg.HOST_STATUS_HUSH_PIN 0) := by
  simp [exec_hushNRise, execHushNRise, low, latch]

theorem exec_hushNRise_unlatched (low : s.bit Reg.HOST_STATUS_HUSH_PIN = true)
    (latch : s.bit Reg.HOST_HUSH_CFG_PIN_LATCH = false) :
    exec .hushNRise s =
      .next (((s.put Reg.HOST_STATUS_HUSH_PIN 0).modHost fun x => { x with hushPin := 0 }).showHush 1) := by
  simp [exec_hushNRise, execHushNRise, low, latch]

/-- Acceptance of a pin level, with the pin cause changed by `f`: what is shown, and the pin's own bit. -/
theorem hushPin_accepts (f : HostSt → HostSt) (v pin : Nat) :
    let t := ((s.modHost f).put Reg.HOST_STATUS_HUSH_PIN v).showHush pin
    t.bit Reg.HOST_STATUS_HUSH_PIN = (v % 2 == 1) ∧ t.host.hushCmd = (f s.host).hushCmd ∧
      t.host.hushPin = (f s.host).hushPin ∧ t.ShowsHush ∧ SameButHost s t := by
  refine ⟨?_, State.showHush_hushCmd _ _, State.showHush_hushPin _ _, State.showHush_showsHush _ _,
    ((SameButHost.modHost s f).trans (.put _ _ _ (by decide) (by decide))).trans (.showHush _ _)⟩
  rw [State.showHush_pin]
  exact State.bit_put_same _ rfl v

/-! ### HUSH_RAMP_START (R464, R818, R841) -/

/-- Where the boundary of a domain sends the gain of a group. -/
def State.hushGate (d g : Nat) : Gate :=
  if (s.dom d).frames < 2 ∧ s.host.hushPin.getLsbD g = true then shutGate (s.samplesMs d 2)
  else gateTo (Tab.get {} s.host.hushGain (4 * g + d)) ((Tab.get 0 s.host.hushSeen d).getLsbD g) (s.samplesMs d 2) (s.dom d).si

/-- One turn of HUSH_RAMP_START, begun in `s`: the gain of group g in the state `t` that the groups before it left. -/
def State.hushGroup (d g : Nat) (t : State) : State :=
  t.modHost fun x =>
    { x with hushGain := Tab.upd {} x.hushGain (4 * g + d) fun y =>
        if (s.dom d).frames < 2 && x.hushPin.getLsbD g then shutGate (s.samplesMs d 2)
        else gateTo y ((Tab.get 0 s.host.hushSeen d).getLsbD g) (s.samplesMs d 2) (s.dom d).si }

theorem exec_hushRampStart (d : Fin 3) :
    exec (.hushRampStart d) s = .next (s.each (List.range 64) (s.hushGroup d)) := rfl

theorem SameButHost.hushGroup (d g : Nat) (t : State) : SameButHost t (s.hushGroup d g t) := .modHost t _

theorem State.each_hushGroup_keeps (d : Nat) (l : List Nat) :
    let t := s.each l (s.hushGroup d)
    t.regs = s.regs ∧ SameButHost s t ∧ t.host.hushPin = s.host.hushPin :=
  State.each_keeps (fun t => t.regs = s.regs ∧ SameButHost s t ∧ t.host.hushPin = s.host.hushPin) (s.hushGroup d)
    (fun g t ⟨regs, same, pin⟩ => ⟨regs, same.trans (.hushGroup s d g t), pin⟩) s l ⟨rfl, .refl s, rfl⟩

theorem State.hushGain_hushGroup (d g k : Nat) (t : State) (pin : t.host.hushPin = s.host.hushPin)
    (gain : Tab.get {} t.host.hushGain (4 * g + d) = Tab.get {} s.host.hushGain (4 * g + d)) :
    Tab.get {} (s.hushGroup d g t).host.hushGain (4 * k + d) =
      if k = g then s.hushGate d g else Tab.get {} t.host.hushGain (4 * k + d) := by
  simp [State.hushGroup, State.modHost, Tab.get_upd, State.hushGate, pin, gain]

/-- The first n groups have taken up their gates, and the others stand as they were. -/
theorem State.hushGain_each (d n k : Nat) :
    Tab.get {} (s.each (List.range n) (s.hushGroup d)).host.hushGain (4 * k + d) =
      if k < n then s.hushGate d k else Tab.get {} s.host.hushGain (4 * k + d) := by
  induction n generalizing k with
  | zero => rfl
  | succ n ih =>
    obtain ⟨-, -, pin⟩ := s.each_hushGroup_keeps d (List.range n)
    have last : s.each (List.range (n + 1)) (s.hushGroup d) =
        s.hushGroup d n (s.each (List.range n) (s.hushGroup d)) := by
      simp [State.each, List.range_succ]
    rw [last, State.hushGain_hushGroup s d n k _ pin ((ih n).trans (if_neg (lt_irrefl n))), ih k]
    by_cases e : k = n
    · simp [e]
    · have lt : k < n + 1 ↔ k < n := by omega
      simp [e, lt]

end Sys2Proof.Machine

namespace Sys2Proof.Machine

/-- Settles O36: each command through its equation above, and the 64 gains by the turns of HUSH_RAMP_START. That PIN without RELEASE
leaves the pin cause alone is the model's reading of R466 (log 79). -/
theorem hushSettlesGroups : Obligations.HushSettlesGroups := by
  unfold Obligations.HushSettlesGroups
  refine ⟨fun h g s => ⟨fun release => ?_, fun release ok => ?_, exec_hush_refused s g, fun high => ?_,
    fun low => ⟨exec_hushNFall_low s low, exec_hushNRise_latched s low, fun latch => ?_⟩, exec_hushNRise_high s⟩,
    fun d s => ?_⟩
  · obtain ⟨cmd, pin, done, ⟨groups, active⟩, same⟩ :=
      hush_completes s h (fun x => { x with hushCmd := x.hushCmd ||| g }) 0 rfl
    exact ⟨_, exec_hush_adds s g release, cmd, pin, done, groups, active, same⟩
  · obtain ⟨cmd, pin, done, ⟨groups, active⟩, same⟩ := hush_completes s h
      (fun x => { x with hushCmd := x.hushCmd &&& ~~~g, hushPin := if h.flags.testBit 1 then 0 else x.hushPin })
      (if h.flags.testBit 1 then 1 else 0) rfl
    exact ⟨_, exec_hush_releases s g release ok, cmd, pin, done, groups, active, same⟩
  · obtain ⟨bit, cmd, pin, ⟨groups, active⟩, same⟩ := hushPin_accepts s
      (fun x => { x with hushPin := x.hushPin ||| BitVec.ofNat 64 (s.get Reg.HOST_HUSH_PIN_GRP_GROUPS) }) 1 1
    exact ⟨_, exec_hushNFall_high s high, bit, cmd, pin, groups, active, same⟩
  · obtain ⟨bit, cmd, pin, ⟨groups, active⟩, same⟩ := hushPin_accepts s (fun x => { x with hushPin := 0 }) 0 1
    exact ⟨_, exec_hushNRise_unlatched s low latch, bit, cmd, pin, groups, active, same⟩
  · obtain ⟨regs, same, -⟩ := s.each_hushGroup_keeps d (List.range 64)
    exact ⟨_, exec_hushRampStart s d, regs, same, fun g hg => (s.hushGain_each d 64 g).trans (if_pos hg)⟩

end Sys2Proof.Machine
end

