-- ==== Sys2Proof/Proofs/FrameMark.lean ====
section
/-! SUPPORT. What every part of a frame boundary leaves as it was: the SI of each domain, and a power-down or release that waits for its
ramps. The boundary itself moves the SI of its domain (R55) and ends such a wait (R718, R732); nothing that it runs on the way does. One
equation per operation, in the order in which the boundary reaches them. -/

namespace Sys2Proof.Machine

/-- The SI of every domain, and what waits for the outputs to ramp down. -/
def State.frameMark (s : State) : (Nat → Nat) × Option (List (Nat × Nat) × AfterRamp) :=
  (fun d => (s.dom d).si, s.pwr.afterRamp)

variable (s : State)

/-- The way to the equations below: each part by itself, so that the states as a whole are never compared. -/
theorem State.frameMark_of_eq {t : State} (doms : t.doms = s.doms) (pwr : t.pwr = s.pwr) : t.frameMark = s.frameMark := by
  simp [State.frameMark, State.dom, doms, pwr]

theorem State.si_of_frameMark {s t : State} (h : t.frameMark = s.frameMark) (d : Nat) : (t.dom d).si = (s.dom d).si :=
  congrFun (congrArg Prod.fst h) d

theorem State.afterRamp_of_frameMark {s t : State} (h : t.frameMark = s.frameMark) : t.pwr.afterRamp = s.pwr.afterRamp :=
  congrArg Prod.snd h

@[simp] theorem State.frameMark_ite (c : Prop) [Decidable c] (t u : State) :
    (if c then t else u).frameMark = if c then t.frameMark else u.frameMark := apply_ite _ _ _ _

@[simp] theorem State.frameMark_each {α : Type} (l : List α) (f : α → State → State)
    (h : ∀ x t, (f x t).frameMark = t.frameMark) : (s.each l f).frameMark = s.frameMark :=
  State.each_keeps (fun t => t.frameMark = s.frameMark) f (fun x t e => (h x t).trans e) s l rfl

/-! ### One field of the state written -/

@[simp] theorem State.frameMark_withNet (x : NetSt) : { s with net := x }.frameMark = s.frameMark := s.frameMark_of_eq rfl rfl
@[simp] theorem State.frameMark_withWl (x : WlSt) : { s with wl := x }.frameMark = s.frameMark := s.frameMark_of_eq rfl rfl
@[simp] theorem State.frameMark_withPours (x : PourSt) : { s with pours := x }.frameMark = s.frameMark := s.frameMark_of_eq rfl rfl
@[simp] theorem State.frameMark_withCtr (n : Nat) : { s with ctr := n }.frameMark = s.frameMark := s.frameMark_of_eq rfl rfl
@[simp] theorem State.frameMark_withDram (m : Memory) : { s with dram := m }.frameMark = s.frameMark := s.frameMark_of_eq rfl rfl
@[simp] theorem State.frameMark_withStage (m : Memory) : { s with stage := m }.frameMark = s.frameMark := s.frameMark_of_eq rfl rfl
@[simp] theorem State.frameMark_withAudio (x : AudioSt) : { s with audio := x }.frameMark = s.frameMark := s.frameMark_of_eq rfl rfl
@[simp] theorem State.frameMark_put (f : Fld) (v : Nat) : (s.put f v).frameMark = s.frameMark := s.frameMark_of_eq rfl rfl
@[simp] theorem State.frameMark_set (f : Fld) : (s.set f).frameMark = s.frameMark := s.frameMark_of_eq rfl rfl
@[simp] theorem State.frameMark_putBit (f : Fld) (b : Bool) : (s.putBit f b).frameMark = s.frameMark := s.frameMark_of_eq rfl rfl
@[simp] theorem State.frameMark_setMask (f : Fld) (k : Nat) : (s.setMask f k).frameMark = s.frameMark := s.frameMark_of_eq rfl rfl
@[simp] theorem State.frameMark_clrMask (f : Fld) (k : Nat) : (s.clrMask f k).frameMark = s.frameMark := s.frameMark_of_eq rfl rfl
@[simp] theorem State.frameMark_bumpBy (f : Fld) (n : Nat) : (s.bumpBy f n).frameMark = s.frameMark := s.frameMark_of_eq rfl rfl
@[simp] theorem State.frameMark_bump (f : Fld) : (s.bump f).frameMark = s.frameMark := s.frameMark_of_eq rfl rfl
@[simp] theorem State.frameMark_raise (f : Fld) (v : Nat) : (s.raise f v).frameMark = s.frameMark := by simp [State.raise]
@[simp] theorem State.frameMark_clear (l : List Fld) : (s.clear l).frameMark = s.frameMark :=
  s.frameMark_each l (fun f t => t.put f 0) fun f t => t.frameMark_put f 0
@[simp] theorem State.frameMark_take : s.take.frameMark = s.frameMark := s.frameMark_of_eq rfl rfl
@[simp] theorem State.frameMark_modCluster (c : Nat) (f : ClusterSt → ClusterSt) : (s.modCluster c f).frameMark = s.frameMark :=
  s.frameMark_of_eq rfl rfl
@[simp] theorem State.frameMark_modRegion (g : Nat) (f : RegionSt → RegionSt) : (s.modRegion g f).frameMark = s.frameMark :=
  s.frameMark_of_eq rfl rfl
@[simp] theorem State.frameMark_modMix (f : MixSt → MixSt) : (s.modMix f).frameMark = s.frameMark := s.frameMark_of_eq rfl rfl
@[simp] theorem State.frameMark_modStd (f : StdSt → StdSt) : (s.modStd f).frameMark = s.frameMark := s.frameMark_of_eq rfl rfl
@[simp] theorem State.frameMark_modHost (f : HostSt → HostSt) : (s.modHost f).frameMark = s.frameMark := s.frameMark_of_eq rfl rfl
@[simp] theorem State.frameMark_modHuba (f : HubaSt → HubaSt) : (s.modHuba f).frameMark = s.frameMark := s.frameMark_of_eq rfl rfl
@[simp] theorem State.frameMark_modStore (f : StoreSt → StoreSt) : (s.modStore f).frameMark = s.frameMark :=
  s.frameMark_of_eq rfl rfl
@[simp] theorem State.frameMark_modTrust (f : TrustSt → TrustSt) : (s.modTrust f).frameMark = s.frameMark :=
  s.frameMark_of_eq rfl rfl
@[simp] theorem State.frameMark_modWl (p : Nat) (f : WlPort → WlPort) : (s.modWl p f).frameMark = s.frameMark :=
  s.frameMark_of_eq rfl rfl
@[simp] theorem State.frameMark_modMpll (n : Nat) (f : MpllSt → MpllSt) : (s.modMpll n f).frameMark = s.frameMark :=
  s.frameMark_of_eq rfl rfl
@[simp] theorem State.frameMark_modAsrc (a : Nat) (f : AsrcCh → AsrcCh) : (s.modAsrc a f).frameMark = s.frameMark :=
  s.frameMark_of_eq rfl rfl
@[simp] theorem State.frameMark_dropAsrc (a : Nat) : (s.dropAsrc a).frameMark = s.frameMark := s.frameMark_of_eq rfl rfl
@[simp] theorem State.frameMark_takeAsrc (a : Nat) : (s.takeAsrc a).frameMark = s.frameMark := s.frameMark_of_eq rfl rfl
@[simp] theorem State.frameMark_modPour (o t : Nat) (f : Pour → Pour) : (s.modPour o t f).frameMark = s.frameMark :=
  s.frameMark_of_eq rfl rfl
@[simp] theorem State.frameMark_modPlay (p : Play) (f : Play → Play) : (s.modPlay p f).frameMark = s.frameMark :=
  s.frameMark_of_eq rfl rfl
@[simp] theorem State.frameMark_writeIn (b x o : Nat) (l : List Word) : (s.writeIn b x o l).frameMark = s.frameMark :=
  s.frameMark_of_eq rfl rfl

@[simp] theorem State.frameMark_hostWrite (a : Nat) (l : List Byte) : (s.hostWrite a l).frameMark = s.frameMark :=
  s.frameMark_of_eq rfl rfl

/-! ### Events, completions and reports -/

@[simp] theorem State.frameMark_hold (r : Nat) (h : Held) : (s.hold r h).frameMark = s.frameMark :=
  s.frameMark_of_eq (SameButHost.hold s r h).doms (SameButHost.hold s r h).pwr

@[simp] theorem State.frameMark_putEvent (r : Nat) (h : Held) (b : Bool) : (s.putEvent r h b).frameMark = s.frameMark :=
  s.frameMark_of_eq rfl rfl

@[simp] theorem State.frameMark_writeEvent (r : Nat) (h : Held) : (s.writeEvent r h).frameMark = s.frameMark := by
  simp [State.writeEvent, State.stopEvRing]

@[simp] theorem State.frameMark_postTo (r : Nat) (e : Event) (v : Option Nat) : (s.postTo r e v).frameMark = s.frameMark := by
  simp [State.postTo]

@[simp] theorem State.frameMark_postNow (c : EvClass) (v : Option Nat) (k : Nat) (b : List Nat) :
    (s.postNow c v k b).frameMark = s.frameMark :=
  s.frameMark_of_eq (s.postNow_doms c v k b) (s.postNow_pwr c v k b)

@[simp] theorem State.frameMark_trustObject (k p v : Nat) : (s.trustObject k p v).frameMark = s.frameMark := by
  simp [State.trustObject]

@[simp] theorem State.frameMark_hubaEvent (c : EvClass) (code k : Nat) (b : List Nat) :
    (s.hubaEvent c code k b).frameMark = s.frameMark := by simp [State.hubaEvent]

@[simp] theorem State.frameMark_finish (h : CmdHdr) (c : Nat) (st : Status) (d si r : Nat) :
    (s.finish h c st d si r).frameMark = s.frameMark := s.frameMark_of_eq rfl rfl

@[simp] theorem State.frameMark_report (a : Nat) (l : List Byte) (x : Done) : (s.report a l x).frameMark = s.frameMark := by
  simp [State.report]

@[simp] theorem State.frameMark_sendReports (l : List Report) : (s.sendReports l).frameMark = s.frameMark := by
  induction l generalizing s with
  | nil => exact s.frameMark_modHost _
  | cons r l ih => simp [State.sendReports, ih]

@[simp] theorem State.frameMark_spendRest : s.spendRest.frameMark = s.frameMark := by simp [State.spendRest]

@[simp] theorem State.frameMark_closeLedger : s.closeLedger.frameMark = s.frameMark := by
  unfold State.closeLedger
  simp only [State.frameMark_sendReports]
  simp

/-! ### What the outputs emit -/

@[simp] theorem State.frameMark_setConv (c : Nat) (x : ConvCh) : (s.setConv c x).frameMark = s.frameMark :=
  s.frameMark_of_eq rfl rfl
@[simp] theorem State.frameMark_modConv (c : Nat) (f : ConvCh → ConvCh) : (s.modConv c f).frameMark = s.frameMark :=
  s.frameMark_of_eq rfl rfl
@[simp] theorem State.frameMark_unsettle (c : Nat) : (s.unsettle c).frameMark = s.frameMark := s.frameMark_of_eq rfl rfl

@[simp] theorem State.frameMark_convTakeover (c t : Nat) : (s.convTakeover c t).frameMark = s.frameMark := by
  unfold State.convTakeover
  dsimp only
  split_ifs
  · simp
  · split <;> simp
  · rfl

@[simp] theorem State.frameMark_pathStep (n t : Nat) : (s.pathStep n t).frameMark = s.frameMark := by
  unfold State.pathStep
  dsimp only
  split <;> simp

@[simp] theorem State.frameMark_showComp (n t : Nat) : (s.showComp n t).frameMark = s.frameMark := by simp [State.showComp]

@[simp] theorem State.frameMark_convBlock (c x : Nat) (l : List Word) (sat cnt : Nat) :
    (s.convBlock c x l sat cnt).2.frameMark = s.frameMark := by simp [State.convBlock, State.convEvent]

@[simp] theorem State.frameMark_keepOut (a o : Nat) (l : List Word) : (s.keepOut a o l).frameMark = s.frameMark :=
  s.frameMark_of_eq rfl rfl
@[simp] theorem State.frameMark_psTo (c st : Nat) : (s.psTo c st).frameMark = s.frameMark := s.frameMark_of_eq rfl rfl
@[simp] theorem State.frameMark_modPs (c : Nat) (f : PsCh → PsCh) : (s.modPs c f).frameMark = s.frameMark :=
  s.frameMark_of_eq rfl rfl

@[simp] theorem State.frameMark_psBlock (x : Nat) (l : List (Word × Word)) : (s.psBlock x l).2.frameMark = s.frameMark := by
  simp [State.psBlock]

@[simp] theorem State.frameMark_sendSerial (d o b a : Nat) : (s.sendSerial d o b a).frameMark = s.frameMark :=
  s.frameMark_of_eq rfl rfl

@[simp] theorem State.frameMark_sendAes (d o b a : Nat) : (s.sendAes d o b a).frameMark = s.frameMark := s.frameMark_of_eq rfl rfl

@[simp] theorem State.frameMark_sendDac (d o b c : Nat) (l : List PortInput) : (s.sendDac d o b c l).frameMark = s.frameMark := by
  simp [State.sendDac]

@[simp] theorem State.frameMark_sendPower (d o b : Nat) : (s.sendPower d o b).frameMark = s.frameMark := by
  simp [State.sendPower]

@[simp] theorem State.frameMark_closeOutputs (d o b : Nat) (l : List PortInput) :
    (s.closeOutputs d o b l).frameMark = s.frameMark := by
  simp only [State.closeOutputs, State.frameMark_ite, State.frameMark_sendPower, State.frameMark_sendDac, implies_true,
    State.frameMark_each, State.frameMark_keepOut, ite_self]
  exact s.frameMark_each _ _ fun a t => by split <;> simp

/-! ### The block whose handling begins: patches and program swaps -/

/-- What writes shared memory only at each turn does so over a list. -/
theorem State.each_writesShm {α : Type} (l : List α) (f : α → State → State)
    (h : ∀ x (t : State), ∃ m, f x t = { t with shm := m }) : ∃ m, s.each l f = { s with shm := m } :=
  State.each_keeps (fun t => ∃ m, t = { s with shm := m }) f (fun x _ ⟨m, e⟩ => e ▸ h x { s with shm := m }) s l ⟨s.shm, rfl⟩

/-- The stage tables lie in shared memory (R288). -/
theorem State.tableRows_writesShm (d : Nat) (row : Nat × Nat × Option Nat → List (Nat × Option Nat)) :
    ∃ m, s.tableRows d row = { s with shm := m } := by
  refine s.each_writesShm _ _ fun c t => ?_
  have nothing : ∃ m, t = { t with shm := m } := ⟨t.shm, rfl⟩
  split
  · exact nothing
  · split_ifs
    · exact nothing
    · split
      · exact nothing
      · refine t.each_writesShm _ _ fun w u => ?_
        split
        · exact ⟨_, rfl⟩
        · exact ⟨u.shm, rfl⟩

@[simp] theorem State.frameMark_tableRows (d : Nat) (row : Nat × Nat × Option Nat → List (Nat × Option Nat)) :
    (s.tableRows d row).frameMark = s.frameMark := by
  obtain ⟨m, h⟩ := s.tableRows_writesShm d row
  rw [h]
  exact s.frameMark_of_eq rfl rfl

@[simp] theorem State.frameMark_tableDest (a d : Nat) : (s.tableDest a d).frameMark = s.frameMark := by simp [State.tableDest]

@[simp] theorem State.frameMark_tableSource (a d : Nat) : (s.tableSource a d).frameMark = s.frameMark := by
  simp [State.tableSource]

@[simp] theorem State.frameMark_applyPatches (d x : Nat) : (s.applyPatches d x).frameMark = s.frameMark := by
  simp [State.applyPatches]

@[simp] theorem State.frameMark_applySwaps (d x : Nat) : (s.applySwaps d x).frameMark = s.frameMark := by
  unfold State.applySwaps
  dsimp only
  split
  · rfl
  · exact State.frameMark_each _ _ _ fun w t => by split_ifs <;> exact t.frameMark_of_eq rfl rfl

/-- Of its domain the beginning of a block moves the earliest block alone. -/
@[simp] theorem State.frameMark_beginBlock (d x b : Nat) : (s.beginBlock d x b).frameMark = s.frameMark := by
  have begun : (s.modDom d fun y => { y with begun := max y.begun (x + b) }).frameMark = s.frameMark := by
    refine Prod.ext (funext fun e => ?_) rfl
    by_cases h : e = d <;> simp [State.frameMark, State.dom_modDom, h]
  simp [State.beginBlock, begun]

/-! ### Pours that end -/

@[simp] theorem State.frameMark_retireWaits : s.retireWaits.frameMark = s.frameMark := by simp [State.retireWaits]
@[simp] theorem State.frameMark_countLive : s.countLive.frameMark = s.frameMark := by simp [State.countLive]

@[simp] theorem State.frameMark_closePour (p : Pour) : (s.closePour p).frameMark = s.frameMark := by
  unfold State.closePour
  split
  · dsimp only
    split <;> split <;> simp
  · rfl

@[simp] theorem State.frameMark_pourReport (p : Pour) (dev : Nat) (st : Status) (flags si detail : Nat) (b : Bool) :
    (s.pourReport p dev st flags si detail b).frameMark = s.frameMark := by
  unfold State.pourReport
  dsimp only
  split <;> simp

@[simp] theorem State.frameMark_queueCell (p : Nat) (c : Cell) : (s.queueCell p c).frameMark = s.frameMark :=
  s.frameMark_of_eq rfl rfl

@[simp] theorem State.frameMark_sendCtrl (dev : Nat) (m : WlPayload) : (s.sendCtrl dev m).frameMark = s.frameMark := by
  simp [State.sendCtrl]

@[simp] theorem State.frameMark_sendPour (dev : Nat) (m : PourMsg) : (s.sendPour dev m).frameMark = s.frameMark := by
  simp [State.sendPour]

@[simp] theorem State.frameMark_endPour (p : Pour) (ph : PourPhase) (st : Status) (detail : Nat) :
    (s.endPour p ph st detail).frameMark = s.frameMark := by
  cases ph <;> simp only [State.endPour] <;> split <;> simp

@[simp] theorem State.frameMark_retirePours : s.retirePours.frameMark = s.frameMark := by simp [State.retirePours]

@[simp] theorem State.frameMark_retireTerms (x : Nat) : (s.retireTerms x).frameMark = s.frameMark := s.frameMark_of_eq rfl rfl

/-! ### The standard programs -/

@[simp] theorem State.frameMark_stdChanges (d x b : Nat) : (s.stdChanges d x b).frameMark = s.frameMark := by
  refine s.frameMark_each _ _ fun c t => ?_
  split <;> simp

@[simp] theorem State.frameMark_stdLines (e : MixEnv) : (s.stdLines e).frameMark = s.frameMark := by simp [State.stdLines]

@[simp] theorem State.frameMark_scrubWord (c : Nat) (w : Word) : (s.scrubWord c w).2.frameMark = s.frameMark := by
  unfold State.scrubWord
  dsimp only
  split <;> simp

@[simp] theorem State.frameMark_spaceWrite (k a : Nat) (w : Word) : (s.spaceWrite k a w).frameMark = s.frameMark := by
  unfold State.spaceWrite
  split <;> exact s.frameMark_of_eq rfl rfl

@[simp] theorem State.frameMark_stdOutput (e : MixEnv) (c : Nat) (o : OutDest) : (s.stdOutput e c o).frameMark = s.frameMark := by
  unfold State.stdOutput
  split
  · rfl
  · rw [State.frameMark_modCluster]
    exact s.frameMark_each _ _ fun j t => by dsimp only; split <;> simp

@[simp] theorem State.frameMark_stdOutputs (e : MixEnv) : (s.stdOutputs e).frameMark = s.frameMark :=
  s.frameMark_each _ _ fun _ t => t.frameMark_each _ _ fun _ u => u.frameMark_each _ _ fun _ v => v.frameMark_stdOutput _ _ _

@[simp] theorem State.frameMark_stdMeters (e : MixEnv) : (s.stdMeters e).frameMark = s.frameMark := s.frameMark_of_eq rfl rfl
@[simp] theorem State.frameMark_stdMutes (e : MixEnv) : (s.stdMutes e).frameMark = s.frameMark := by simp [State.stdMutes]

@[simp] theorem State.frameMark_mixBlock (d x b : Nat) : (s.mixBlock d x b).frameMark = s.frameMark := by
  unfold State.mixBlock
  split <;> simp

/-! ### The sequencers -/

@[simp] theorem State.frameMark_settle (e : Change) : (s.settle e).frameMark = s.frameMark := s.frameMark_of_eq rfl rfl

@[simp] theorem State.frameMark_queueSeq (c a : Nat) (l : List Word) : (s.queueSeq c a l).frameMark = s.frameMark :=
  s.frameMark_of_eq rfl rfl

@[simp] theorem State.frameMark_unhand (c : Nat) (e : Change) : (s.unhand c e).frameMark = s.frameMark := by
  unfold State.unhand
  split <;> simp

@[simp] theorem State.frameMark_seqRetire (c x : Nat) (b : Bool) : (s.seqRetire c x b).frameMark = s.frameMark := by
  simp [State.seqRetire]

@[simp] theorem State.frameMark_groupTerms (e : Change) : (s.groupTerms e).frameMark = s.frameMark := by simp [State.groupTerms]
@[simp] theorem State.frameMark_shadowOf (e : Change) : (s.shadowOf e).frameMark = s.frameMark := by simp [State.shadowOf]

@[simp] theorem State.frameMark_handoff (c x : Nat) (e : Change) : (s.handoff c x e).frameMark = s.frameMark := by
  unfold State.handoff
  split <;> simp

@[simp] theorem State.frameMark_seqApply (c x : Nat) (b : Bool) (e : Change) : (s.seqApply c x b e).frameMark = s.frameMark := by
  simp [State.seqApply]

@[simp] theorem State.frameMark_sequencerPhase (c x b : Nat) (w : Bool) : (s.sequencerPhase c x b w).frameMark = s.frameMark := by
  simp [State.sequencerPhase]

@[simp] theorem State.frameMark_idlePhases (d x b : Nat) : (s.idlePhases d x b).frameMark = s.frameMark := by
  simp [State.idlePhases]

@[simp] theorem State.frameMark_endBlock (d x b : Nat) : (s.endBlock d x b).frameMark = s.frameMark := by
  simp [State.endBlock]

@[simp] theorem State.frameMark_countCycles (d : Nat) : (s.countCycles d).frameMark = s.frameMark := by simp [State.countCycles]

/-! ### The stages and the block that is emitted -/

@[simp] theorem State.frameMark_countPool : s.countPool.frameMark = s.frameMark := by simp [State.countPool]
@[simp] theorem State.frameMark_setBridges (i : SchedImage) : (s.setBridges i).frameMark = s.frameMark := by simp [State.setBridges]
@[simp] theorem State.frameMark_tables (i : SchedImage) (d : Nat) : (s.tables i d).frameMark = s.frameMark := by simp [State.tables]

@[simp] theorem State.frameMark_stageBlock (i : SchedImage) (d lo hi : Nat) : (s.stageBlock i d lo hi).frameMark = s.frameMark := by
  simp [State.stageBlock]

@[simp] theorem State.frameMark_stageNow (d : Nat) : (s.stageNow d).frameMark = s.frameMark := by
  unfold State.stageNow
  split <;> simp

@[simp] theorem State.frameMark_writeOut (c b x : Nat) (o : OutDest) (f : Nat → Word) :
    (s.writeOut c b x o f).frameMark = s.frameMark := by
  refine s.frameMark_each _ _ fun n t => ?_
  split <;> simp

@[simp] theorem State.frameMark_record (d k x : Nat) (l : List Word) : (s.record d k x l).frameMark = s.frameMark :=
  s.frameMark_of_eq rfl rfl

@[simp] theorem State.frameMark_fillTakes (d x : Nat) : (s.fillTakes d x).frameMark = s.frameMark := s.frameMark_of_eq rfl rfl
@[simp] theorem State.frameMark_emitBlock (d b x n : Nat) : (s.emitBlock d b x n).frameMark = s.frameMark := by
  simp [State.emitBlock]

/-! ### What the inputs deliver -/

@[simp] theorem State.frameMark_takeRx (a o b : Nat) (live : Bool) : (s.takeRx a o b live).2.frameMark = s.frameMark :=
  s.frameMark_of_eq rfl rfl

@[simp] theorem State.frameMark_writeSource (d b x a : Nat) (l : List Word) :
    (s.writeSource d b x a l).frameMark = s.frameMark := by
  unfold State.writeSource
  split <;> simp

@[simp] theorem State.frameMark_closeStream (d o b n : Nat) (r : StreamRec) :
    (s.closeStream d o b n r).frameMark = s.frameMark := by
  refine s.frameMark_each _ _ fun k t => ?_
  dsimp only
  split <;> simp

@[simp] theorem State.frameMark_closeFlow (d o b k : Nat) (r : FlowRec) : (s.closeFlow d o b k r).frameMark = s.frameMark := by
  refine s.frameMark_each _ _ fun n t => ?_
  dsimp only
  split <;> simp

@[simp] theorem State.frameMark_closeAsrc (o b : Nat) (x : StageSlot) : (s.closeAsrc o b x).frameMark = s.frameMark := by
  unfold State.closeAsrc
  dsimp only
  split <;> simp

@[simp] theorem State.frameMark_closeCrossing (o b : Nat) (x : StageSlot) : (s.closeCrossing o b x).frameMark = s.frameMark := by
  unfold State.closeCrossing
  split <;> simp

@[simp] theorem State.frameMark_closeSerial (o b : Nat) (l : List PortInput) (x : StageSlot) :
    (s.closeSerial o b l x).frameMark = s.frameMark := s.frameMark_of_eq rfl rfl

@[simp] theorem State.frameMark_playOut (d k x : Nat) : (s.playOut d k x).2.frameMark = s.frameMark := by
  unfold State.playOut
  split <;> simp

@[simp] theorem State.frameMark_playBlock (d k x n : Nat) : (s.playBlock d k x n).2.frameMark = s.frameMark := by
  induction n generalizing s x with
  | zero => rfl
  | succ n ih => simp [State.playBlock, ih]

@[simp] theorem State.frameMark_closeTrack (d k o b : Nat) : (s.closeTrack d k o b).frameMark = s.frameMark := by
  simp [State.closeTrack]

@[simp] theorem State.frameMark_closeAdc (o b c : Nat) (l : List PortInput) : (s.closeAdc o b c l).frameMark = s.frameMark := by
  simp [State.closeAdc]

@[simp] theorem State.frameMark_closeFlags (d o b : Nat) (i : PortInput) : (s.closeFlags d o b i).frameMark = s.frameMark := by
  simp [State.closeFlags]

@[simp] theorem State.frameMark_measureGroup (i : PortInput) : (s.measureGroup i).frameMark = s.frameMark := by
  unfold State.measureGroup
  dsimp only
  split <;> simp

@[simp] theorem State.frameMark_closeInputs (d o b : Nat) (l : List PortInput) :
    (s.closeInputs d o b l).frameMark = s.frameMark := by
  simp only [State.closeInputs, State.frameMark_withAudio, State.frameMark_measureGroup, State.frameMark_closeFlags, implies_true,
    State.frameMark_each, State.frameMark_ite, State.frameMark_closeAdc, State.frameMark_closeTrack, State.frameMark_writeIn,
    State.frameMark_closeCrossing, State.frameMark_closeSerial, ite_self]
  refine (State.frameMark_each _ _ _ fun p t => t.frameMark_each _ _ fun e u => ?_).trans (s.frameMark_each _ _ fun e t => ?_)
  all_goals split <;> simp

/-! ### What the boundary ends: clears, plays, range changes -/

@[simp] theorem State.frameMark_queryClears (d : Nat) : (s.queryClears d).frameMark = s.frameMark := by simp [State.queryClears]
@[simp] theorem State.frameMark_countTracks : s.countTracks.frameMark = s.frameMark := s.frameMark_of_eq rfl rfl
@[simp] theorem State.frameMark_endPlays (d n : Nat) : (s.endPlays d n).frameMark = s.frameMark := by simp [State.endPlays]

/-- The gains move, and nothing else of the power state. -/
@[simp] theorem State.frameMark_rampFed (d : Nat) (b : Bool) : (s.rampFed d b).frameMark = s.frameMark := by
  unfold State.rampFed
  split <;> exact s.frameMark_each _ _ fun _ _ => rfl

@[simp] theorem State.frameMark_endRange (d : Nat) : (s.endRange d).frameMark = s.frameMark := by
  unfold State.endRange
  dsimp only
  split
  · rw [State.frameMark_postNow, State.frameMark_rampFed]
    rfl
  · rfl

@[simp] theorem State.frameMark_psBegin (x : Nat) : (s.psBegin x).frameMark = s.frameMark := by simp [State.psBegin]

/-! ### The boundary of domain P: references, links, policy, flows -/

@[simp] theorem State.frameMark_enterMpll (n st : Nat) : (s.enterMpll n st).frameMark = s.frameMark := by simp [State.enterMpll]
@[simp] theorem State.frameMark_enterAcquire (n : Nat) : (s.enterAcquire n).frameMark = s.frameMark := by simp [State.enterAcquire]
@[simp] theorem State.frameMark_unalign (d : Nat) : (s.unalign d).frameMark = s.frameMark := s.frameMark_of_eq rfl rfl

@[simp] theorem State.frameMark_selectCandidate (n k : Nat) : (s.selectCandidate n k).frameMark = s.frameMark := by
  simp [State.selectCandidate]

@[simp] theorem State.frameMark_unseenVsyncs (n k : Nat) : (s.unseenVsyncs n k).frameMark = s.frameMark := by
  simp [State.unseenVsyncs]

@[simp] theorem State.frameMark_loseReference (n : Nat) : (s.loseReference n).frameMark = s.frameMark := by
  unfold State.loseReference
  split <;> simp

@[simp] theorem State.frameMark_disqualify (n k : Nat) : (s.disqualify n k).frameMark = s.frameMark := by simp [State.disqualify]
@[simp] theorem State.frameMark_dropWlTime (p : Nat) : (s.dropWlTime p).frameMark = s.frameMark := by simp [State.dropWlTime]
@[simp] theorem State.frameMark_dropHeld (p : Nat) : (s.dropHeld p).frameMark = s.frameMark := by simp [State.dropHeld]

@[simp] theorem State.frameMark_freeHeld (c : Cell) : (s.freeHeld c).frameMark = s.frameMark := by
  unfold State.freeHeld
  split <;> simp

@[simp] theorem State.frameMark_freeReady (p : Nat) : (s.freeReady p).frameMark = s.frameMark := by simp [State.freeReady]

@[simp] theorem State.frameMark_answerWait (op tag dev : Nat) (st : Status) :
    (s.answerWait op tag dev st).frameMark = s.frameMark := by
  unfold State.answerWait
  split <;> simp

@[simp] theorem State.frameMark_wlToDown (p : Nat) : (s.wlToDown p).frameMark = s.frameMark := by simp [State.wlToDown]
@[simp] theorem State.frameMark_wlLeaveUp (p : Nat) : (s.wlLeaveUp p).frameMark = s.frameMark := by simp [State.wlLeaveUp]

@[simp] theorem State.frameMark_adoptMembers : s.adoptMembers.frameMark = s.frameMark := by
  unfold State.adoptMembers
  split <;> simp

@[simp] theorem State.frameMark_showPolicy (p : Policy) : (s.showPolicy p).frameMark = s.frameMark := by simp [State.showPolicy]

@[simp] theorem State.frameMark_adoptPolicy : s.adoptPolicy.frameMark = s.frameMark := by
  unfold State.adoptPolicy
  split <;> simp

@[simp] theorem State.frameMark_raiseVector (v : Nat) : (s.raiseVector v).frameMark = s.frameMark := s.frameMark_of_eq rfl rfl

@[simp] theorem State.frameMark_dmaRecord (n : Nat) (st : Status) (m r : Nat) : (s.dmaRecord n st m r).frameMark = s.frameMark := by
  simp [State.dmaRecord]

@[simp] theorem State.frameMark_stopHostDma : s.stopHostDma.frameMark = s.frameMark := by simp [State.stopHostDma]
@[simp] theorem State.frameMark_liveTimers : s.liveTimers.frameMark = s.frameMark := s.frameMark_of_eq rfl rfl

@[simp] theorem State.frameMark_startStream (rx : Bool) (r : StreamRec) : (s.startStream rx r).frameMark = s.frameMark := by
  cases h : (Tab.get none s.net.rx r.stream).map (·.record) <;> simp [State.startStream, h]

@[simp] theorem State.frameMark_stopStream (rx : Bool) (n : Nat) : (s.stopStream rx n).frameMark = s.frameMark := by
  cases h : (Tab.get none s.net.rx n).map (·.record) <;> simp [State.stopStream, h]

@[simp] theorem State.frameMark_countCells (p : Nat) : (s.countCells p).frameMark = s.frameMark := s.frameMark_of_eq rfl rfl

@[simp] theorem State.frameMark_stopFlow (rx : Bool) (p k : Nat) : (s.stopFlow rx p k).frameMark = s.frameMark := by
  cases h : Tab.get none (s.wlp p).rx k <;> simp [State.stopFlow, h]

@[simp] theorem State.frameMark_startFlow (rx : Bool) (r : FlowRec) : (s.startFlow rx r).frameMark = s.frameMark := by
  simp [State.startFlow]

@[simp] theorem State.frameMark_sendImage (h : CmdHdr) (i : ProgImage) (dev : Nat) :
    (s.sendImage h i dev).frameMark = s.frameMark := by
  simp [State.sendImage]

@[simp] theorem State.frameMark_applyNetOp (h : CmdHdr) (o : NetOp) : (s.applyNetOp h o).frameMark = s.frameMark := by
  cases o with
  | wlDist dg peers => simp only [State.applyNetOp]; split <;> simp
  | _ => simp [State.applyNetOp]

@[simp] theorem State.frameMark_applyNetOps : s.applyNetOps.frameMark = s.frameMark := by simp [State.applyNetOps]
@[simp] theorem State.frameMark_boundaryP : s.boundaryP.frameMark = s.frameMark := by simp [State.boundaryP]

end Sys2Proof.Machine
end

