-- ==== Sys2Proof/Proofs/FramesAndGlaze.lean ====
section
/-! PROOF. The boundary of a frame, and the sections of a glaze job (R55, R56, R307–R312). -/

namespace Sys2Proof.Machine

variable (s : State)

/-! ### FRAME_START_MARKER (R55, R56) -/

theorem exec_frameStartMarker (d : Fin 3) (l : List PortInput) : exec (.frameStartMarker d l) s = execFrameStartMarker d l s := rfl

theorem exec_frameStartMarker_idle (d : Fin 3) (l : List PortInput)
    (idle : (s.dom d).configured = false ∨ (s.dom d).running = false) : exec (.frameStartMarker d l) s = .next s := by
  rcases idle with h | h <;> simp [exec_frameStartMarker, execFrameStartMarker, h]

/-- What a boundary does before the SI of its domain moves: outputs, the block that ends, the block that is emitted, inputs. -/
def State.closeFrame (d : Nat) (l : List PortInput) : State :=
  let b := (s.dom d).block
  let o := (s.dom d).si
  let s1 := s.closeOutputs d o b l
  let s2 := (if b ≤ o then s1.endBlock d (o - b) b else s1).countCycles d
  let s3 := if d = 0 then s2.closeLedger else s2
  ((if b ≤ o then s3.emitBlock d b (o - b) (o + b) else s3).stageNow d).closeInputs d o b l

/-- What it does once the SI of its domain, now n, has moved, but for the end of the ramps; the power stage begins where it is of the
domain. -/
def State.openFrame (d n ps : Nat) : State :=
  let s1 := ((s.queryClears d).endPlays d n).endRange d
  let s2 := (if ps = d then s1.psBegin n else s1).modHost fun h =>
    { h with hushSeen := Tab.put 0 h.hushSeen d (h.hushCmd ||| h.hushPin) }
  if d = 0 then s2.boundaryP else s2

/-- The state between the two: the SI stands at n. -/
def State.moveFrame (d n : Nat) : State := s.modDom d fun y => { y with si := n, frames := min 2 (y.frames + 1) }

theorem State.frameMark_closeFrame (d : Nat) (l : List PortInput) : (s.closeFrame d l).frameMark = s.frameMark := by
  simp [State.closeFrame]

theorem State.frameMark_openFrame (d n ps : Nat) : (s.openFrame d n ps).frameMark = s.frameMark := by simp [State.openFrame]

theorem exec_frameStartMarker_runs {d : Fin 3} (l : List PortInput) (configured : (s.dom d).configured = true)
    (running : (s.dom d).running = true) :
    let n := (s.dom d).si + (s.dom d).block
    exec (.frameStartMarker d l) s = .next (((s.closeFrame d l).moveFrame d n).openFrame d n s.psDom).endRamps := by
  have go : (!(s.dom d).configured || !(s.dom d).running) = false := by simp [configured, running]
  exact if_neg (by simp [go])

/-- Nothing ends with the ramps where nothing waits for them. -/
theorem State.endRamps_of_none (h : s.pwr.afterRamp = none) : s.endRamps = s := by simp [State.endRamps, State.rampedDown, h]

theorem exec_frameStartMarker_advances {d : Fin 3} (l : List PortInput) (configured : (s.dom d).configured = true)
    (running : (s.dom d).running = true) (waits : s.pwr.afterRamp = none) :
    ∃ t, exec (.frameStartMarker d l) s = .next t ∧ (t.dom d).si = (s.dom d).si + (s.dom d).block := by
  have closed := s.frameMark_closeFrame d l
  have opened := State.frameMark_openFrame ((s.closeFrame d l).moveFrame d ((s.dom d).si + (s.dom d).block)) d
    ((s.dom d).si + (s.dom d).block) s.psDom
  have noRamp := (State.afterRamp_of_frameMark opened).trans ((State.afterRamp_of_frameMark closed).trans waits)
  refine ⟨_, exec_frameStartMarker_runs s l configured running, ?_⟩
  rw [State.endRamps_of_none _ noRamp, State.si_of_frameMark opened]
  simp [State.moveFrame, State.dom_modDom]

/-! ### GLAZE_SECTION_START (R312) -/

theorem exec_glazeSectionStart (c : Fin 64) (late : Bool) :
    exec (.glazeSectionStart c late) s = execGlazeSectionStart c late s := rfl

/-- The run of the next section of a job: its place in the list, and the writes that sections before it still owe. -/
def sectionRun (job : GlazeJob) (k : Nat) (owing : List (Nat × List Word)) : GlazeRun :=
  { sec := k, base := job.listAddr + 32 * k, writes := owing }

/-- The section that a firing has begun, if any, is computed; what it still owes. -/
def Firing.owes (f : Firing) (owing : List (Nat × List Word)) : Prop :=
  (f.glaze = none ∧ owing = []) ∨ ∃ r, f.glaze = some r ∧ r.ready = true ∧ owing = r.writes

variable {s} {c : Fin 64} {f : Firing} {job : GlazeJob}

theorem exec_glazeSectionStart_begins (late : Bool) (firing : (s.cluster c).firing = some f) (glaze : f.entry.glaze = some job)
    (left : f.glazeDone < job.count) {owing : List (Nat × List Word)} (owes : f.owes owing) :
    exec (.glazeSectionStart c late) s = .next ((if late then s.put (Reg.FABRIC_CL_GLAZE_WAITED c) 1 else s).setCluster c
      { s.cluster c with firing := some { f with glazeDone := f.glazeDone + 1, glaze := some (sectionRun job f.glazeDone owing) } }) := by
  have more : ¬job.count ≤ f.glazeDone := by omega
  have begins : execGlazeSectionStart c late s = .next ((s.when late fun t => t.set (Reg.FABRIC_CL_GLAZE_WAITED c)).modCluster c
      fun x => { x with firing := some { f with glazeDone := f.glazeDone + 1, glaze := some (sectionRun job f.glazeDone owing) } }) := by
    obtain ⟨none, rfl⟩ | ⟨r, running, ready, rfl⟩ := owes
    · simp [execGlazeSectionStart, firing, glaze, more, none, sectionRun]
    · simp [execGlazeSectionStart, firing, glaze, more, running, ready, sectionRun]
  rw [exec_glazeSectionStart, begins]
  cases late <;> rfl

theorem exec_glazeSectionStart_idle (late : Bool)
    (idle : (s.cluster c).firing = none ∨ ∃ f, (s.cluster c).firing = some f ∧ (f.entry.glaze = none ∨
      (∃ job, f.entry.glaze = some job ∧ job.count ≤ f.glazeDone) ∨ ∃ r, f.glaze = some r ∧ r.ready = false)) :
    exec (.glazeSectionStart c late) s = .next s := by
  rw [exec_glazeSectionStart]
  obtain h | ⟨f, h, noJob | ⟨job, glaze, done⟩ | ⟨r, running, busy⟩⟩ := idle
  · simp [execGlazeSectionStart, h]
  · simp [execGlazeSectionStart, h, noJob]
  · simp [execGlazeSectionStart, h, glaze, done]
  · cases glaze : f.entry.glaze <;> simp [execGlazeSectionStart, h, glaze, running, busy]

/-! ### A bypassed section (R307, R310, R311) -/

/-- With nothing to change the coefficients, a bypassed section passes its input and owes its words at the output. -/
theorem State.glazeCompute_bypass (s : State) (c : Nat) {r : GlazeRun} (glaze : f.entry.glaze = some job)
    (bypass : r.bypass = true) (chain : r.chain = false) (new : r.new = false) (ramp : r.ramp = 0)
    (length : r.inp.length = (s.dom f.domain).block) :
    ∃ g, ((s.glazeCompute c f r).cluster c).firing = some g ∧ g.glazeOut = r.inp ∧
      g.glaze = some { r with ready := true, writes := r.writes ++ portWords r.outAddr ((s.dom f.domain).block / 8) r.inp } := by
  simp [State.glazeCompute, glaze, bypass, chain, new, ramp, length, State.cluster_modCluster]

end Sys2Proof.Machine

namespace Sys2Proof.Machine

/-- Settles O23: each command through its equation above; that the SI advances rests on what every part of a boundary leaves of it
(`State.frameMark`). -/
theorem framesAndGlazeSections : Obligations.FramesAndGlazeSections := by
  unfold Obligations.FramesAndGlazeSections
  exact ⟨fun _ l s => ⟨exec_frameStartMarker_advances s l, exec_frameStartMarker_idle s _ l⟩,
    fun _ late _ => ⟨fun _ _ firing glaze left _ owes => exec_glazeSectionStart_begins late firing glaze left owes,
      exec_glazeSectionStart_idle late⟩,
    fun c s _ _ _ glaze bypass chain new ramp length => s.glazeCompute_bypass c glaze bypass chain new ramp length⟩

end Sys2Proof.Machine
end

