-- ==== Sys2Proof/Proofs/Readmission.lean ====
section
/-! PROOF. Re-admission of quarantined clusters, thermal hold and slice registers (R35, R162–R164, R327). -/

namespace Sys2Proof.Machine

variable (s : State)

/-! ### SCHED_ADMIT_READMIT (R162) -/

theorem exec_schedAdmitReadmit (h : CmdHdr) (l : List (Fin 68)) :
    exec (.schedAdmitReadmit h l) s = execSchedAdmitReadmit h l s := rfl

/-- A cluster that the active schedule fires may be re-admitted while quarantined and off bypass. -/
theorem State.readmitOk_cluster {i : SchedImage} {k : Fin 68} (active : s.active = some i) (cluster : k.val < 64)
    (quarantined : s.quarantined k = true) (bypass : s.bit (Reg.FABRIC_RG_CLK_BYPASS (k / 8)) = false)
    (fires : firingsOf i (s.logical k) ≠ []) : s.readmitOk k = true := by
  simp [State.readmitOk, cluster, quarantined, bypass, active, fires]

theorem exec_schedAdmitReadmit_queues (h : CmdHdr) {l : List (Fin 68)} (active : s.standby = false)
    (hold : s.bit Reg.SCHED_STATUS_THERM_HOLD = false) (named : l ≠ []) (clusters : ∀ k ∈ l, k.val < 64)
    (ok : ∀ k ∈ l, s.readmitOk k = true) :
    exec (.schedAdmitReadmit h l) s = .next (State.mirrorOut (s.modSched fun q =>
      { q with readmits := q.readmits ++ [⟨h, l.map (·.val), [], h.target, s.readmitLate l h.target⟩] }) (.readmit l h.target)) := by
  have all : l.filter (·.val < 64) = l := List.filter_eq_self.2 fun k hk => decide_eq_true (clusters k hk)
  have servos : (l.filter fun k => decide (64 ≤ k.val)) = [] :=
    List.filter_eq_nil_iff.2 fun k hk => by simpa using clusters k hk
  simp only [exec_schedAdmitReadmit, execSchedAdmitReadmit, active, hold, List.isEmpty_eq_false_iff.2 named, Bool.or_self,
    Bool.false_eq_true, if_false]
  split
  next n failed =>
    have inList := List.mem_range.1 (List.mem_of_find?_eq_some failed)
    have fails := List.find?_some failed
    simp [List.getElem?_eq_getElem inList, ok _ (List.getElem_mem inList)] at fails
  next => simp [State.readmit, all, servos]

/-! ### READMISSION (R163, R164) -/

/-- What writes program memory only at each turn does so over a list. -/
theorem State.each_loadUnit {α : Type} (l : List α) (u digest : α → Nat) :
    ∃ p, s.each l (fun x t => t.loadUnit (u x) (digest x)) = { s with prog := p } := by
  refine State.each_keeps (fun t => ∃ p, t = { s with prog := p }) _ ?_ s l ⟨s.prog, rfl⟩
  rintro x _ ⟨p, rfl⟩
  unfold State.loadUnit
  split
  · exact ⟨p, rfl⟩
  · exact ⟨_, rfl⟩

theorem State.tables_writesShm (i : SchedImage) (d : Nat) : ∃ m, s.tables i d = { s with shm := m } := by
  obtain ⟨m, h⟩ := s.each_writesShm (s.mix.stageIn.filter fun x => x.domain == d) (fun x t => t.tableSource x.addr d)
    fun x t => t.tableRows_writesShm _ _
  unfold State.tables
  dsimp only
  rw [h]
  exact State.each_writesShm _ _ _ fun x t => t.tableRows_writesShm _ _

/-- No unit, no cluster but c and nothing of the host part differs. -/
structure SameButCluster (c : Nat) (s t : State) : Prop where
  units : t.units = s.units
  host : t.host = s.host
  cluster : ∀ k, k ≠ c → t.cluster k = s.cluster k

variable {s} {c : Nat} {t u : State}

theorem SameButCluster.of_eq (units : t.units = s.units) (clusters : t.clusters = s.clusters) (host : t.host = s.host) :
    SameButCluster c s t := ⟨units, host, fun k _ => by rw [State.cluster, clusters]; rfl⟩

theorem SameButCluster.trans (a : SameButCluster c s t) (b : SameButCluster c t u) : SameButCluster c s u :=
  ⟨b.units.trans a.units, b.host.trans a.host, fun k hk => (b.cluster k hk).trans (a.cluster k hk)⟩

variable (s)

theorem SameButCluster.modCluster (c : Nat) (f : ClusterSt → ClusterSt) : SameButCluster c s (s.modCluster c f) :=
  ⟨rfl, rfl, fun k hk => (s.cluster_modCluster c k f).trans (if_neg hk)⟩

theorem SameButCluster.clear (c : Nat) (l : List Fld) : SameButCluster c s (s.clear l) :=
  State.each_keeps (SameButCluster c s) (fun f t => t.put f 0) (fun _ _ a => a.trans (.of_eq rfl rfl rfl)) s l (.of_eq rfl rfl rfl)

theorem SameButCluster.loadCluster (i : SchedImage) (c : Nat) : SameButCluster c s (s.loadCluster i c) := by
  obtain ⟨p, load⟩ := s.each_loadUnit (imagesOf i (s.logical c)).zipIdx (fun x => 8 * c + x.2) (·.1)
  have programs : SameButCluster c s { s with prog := p } := .of_eq rfl rfl rfl
  rw [State.loadCluster, load]
  exact programs.trans (.modCluster _ c _)

theorem SameButCluster.clearMemories (i : SchedImage) (c : Nat) : SameButCluster c s (s.clearMemories i c) := by
  have slots (t : State) : ∃ m, t.writeSlots i c = { t with shm := m } := t.each_writesShm _ _ fun _ _ => ⟨_, rfl⟩
  obtain ⟨m, clear⟩ := slots { s with shm := clearRange s.shm (c * 2 ^ 20) ((c + 1) * 2 ^ 20)
                                      lmem := clearRange s.lmem (8 * c * 2 ^ 16) ((8 * c + 8) * 2 ^ 16) }
  rw [State.clearMemories, clear]
  exact .of_eq rfl rfl rfl

theorem SameButCluster.clearStd (c : Nat) (i : SchedImage) (l : Nat) (b : Bool) : SameButCluster c s (s.clearStd i l b) :=
  .of_eq rfl rfl rfl

theorem SameButCluster.clrMask (c : Nat) (f : Fld) (k : Nat) : SameButCluster c s (s.clrMask f k) := .of_eq rfl rfl rfl

theorem SameButCluster.tables (c : Nat) (i : SchedImage) (d : Nat) : SameButCluster c s (s.tables i d) := by
  obtain ⟨m, tables⟩ := s.tables_writesShm i d
  rw [tables]
  exact .of_eq rfl rfl rfl

theorem State.get_clear_ne {l : List Fld} {g : Fld} (h : ∀ f ∈ l, g.key ≠ f.key) : (s.clear l).get g = s.get g := by
  unfold State.clear
  induction l generalizing s with
  | nil => rfl
  | cons f l ih =>
    obtain ⟨first, rest⟩ := List.forall_mem_cons.1 h
    exact (ih _ rest).trans (s.get_put_ne first 0)

/-- What re-admission clears lies in the FABRIC block. -/
theorem readmitRegs_off (c : Nat) : ∀ f ∈ readmitRegs c, 0x20000 ≤ f.off := by
  simp only [readmitRegs, List.forall_mem_append, List.forall_mem_cons, List.forall_mem_flatten, List.forall_mem_map,
    List.not_mem_nil, false_implies, implies_true, and_true]
  refine ⟨?_, fun u _ => ?_⟩ <;> and_intros
  all_goals
    change 0x20000 ≤ _ + _
    omega

theorem testBit_sub_two_pow {x c : Nat} (h : x.testBit c = true) : (x - 2 ^ c).testBit c = false := by
  have quotient : (x - 2 ^ c) / 2 ^ c = x / 2 ^ c - 1 := by simpa using Nat.sub_mul_div x (2 ^ c) 1
  rw [Nat.testBit_eq_decide_div_mod_eq] at h ⊢
  rw [quotient]
  simp only [decide_eq_true_eq, decide_eq_false_iff_not] at h ⊢
  omega

/-- A bit of a mask field that has been cleared. -/
theorem State.testBit_clrMask (f : Fld) (k : Nat) : ((s.clrMask f k).get f).testBit k = false := by
  rw [State.clrMask, State.get_put_same, Nat.testBit_mod_two_pow]
  split
  next h => simp [testBit_sub_two_pow h]
  next h => simp [h]

/-- Re-admission reaches its cluster alone (R164). -/
theorem SameButCluster.readmitCluster (c : Nat) : SameButCluster c s (s.readmitCluster c) := by
  unfold State.readmitCluster
  split
  · exact .of_eq rfl rfl rfl
  next i d _ =>
    have reloaded := (((SameButCluster.loadCluster s i c).trans (.clearMemories _ i c)).trans (.clearStd _ c i (s.logical c) false)).trans
      (.tables _ c i d)
    exact ((reloaded.trans (.clrMask _ c Reg.SCHED_QUAR_QUAR c)).trans (.clear _ c _)).trans (.modCluster _ c _)

/-- It releases its cluster (R164). -/
theorem State.readmitCluster_releases (image : (s.imageAt c).isSome = true) :
    (s.readmitCluster c).quarantined c = false ∧ ((s.readmitCluster c).cluster c).zeroing = false := by
  obtain ⟨⟨i, d⟩, image⟩ := Option.isSome_iff_exists.1 image
  have apart : ∀ f ∈ readmitRegs c, Reg.SCHED_QUAR_QUAR.key ≠ f.key := fun f hf => by
    have far := readmitRegs_off c f hf
    simp only [Fld.key, Reg.SCHED_QUAR_QUAR]
    omega
  unfold State.readmitCluster
  rw [image]
  constructor
  · rw [State.quarantined, State.get_modCluster, State.get_clear_ne _ apart, State.testBit_clrMask]
  · rw [State.cluster_modCluster, if_pos rfl]

/-- R163, R164: with one request, for one cluster of the domain and due, the boundary re-admits that cluster and completes the request. -/
theorem exec_readmission_one {d : Fin 3} {r : Readmit} {c : Nat} (readmits : s.sched.readmits = [r]) (clusters : r.clusters = [c])
    (servos : r.servos = []) (domain : s.clusterDomain c = d.val) (due : s.siTo d r.target ≤ (s.dom d).si) :
    exec (.readmission d) s = .next (((s.readmitCluster c).modSched fun q => { q with readmits := [] }).finish r.hdr 0x0602
      (if r.late then .late else .ok) 0 (s.toP d (s.dom d).si) 0) := by
  have run : exec (.readmission d) s = execReadmission d s := rfl
  simp [run, execReadmission, State.each, readmits, clusters, servos, domain, due]

/-! ### Thermal hold (R35) -/

theorem exec_thermalHoldEnter (l : List (BitVec 16)) : exec (.thermalHoldEnter l) s = execThermalHoldEnter l s := rfl
theorem exec_thermalHoldLeave (l : List (BitVec 16)) : exec (.thermalHoldLeave l) s = execThermalHoldLeave l s := rfl

section
variable {l : List (BitVec 16)} (twelve : l.length = 12)
include twelve

theorem exec_thermalHoldEnter_hot (free : s.bit Reg.SCHED_STATUS_THERM_HOLD = false) (hot : ∃ w ∈ l, 1000 < w.toInt) :
    exec (.thermalHoldEnter l) s = .next (((((s.showTemps l).put Reg.SCHED_STATUS_THERM_HOLD 1).put Reg.GLOBAL_THERM_HOLD 1).put
      Reg.GLOBAL_THERM_HOLD_SEEN 1).postNow .fault (some 58) 0x15 [1, hottest l]) := by
  have any : (l.any fun w => decide (1000 < tempOf w)) = true :=
    List.any_eq_true.2 (hot.imp fun _ ⟨mem, above⟩ => ⟨mem, decide_eq_true above⟩)
  simp [exec_thermalHoldEnter, execThermalHoldEnter, List.take_of_length_le twelve.le, free, any, State.set]

theorem exec_thermalHoldEnter_cool (cool : ∀ w ∈ l, w.toInt ≤ 1000) :
    exec (.thermalHoldEnter l) s = .next (s.showTemps l) := by
  have any : (l.any fun w => decide (1000 < tempOf w)) = false :=
    List.any_eq_false.2 fun w mem => mt of_decide_eq_true (Int.not_lt.2 (cool w mem))
  simp [exec_thermalHoldEnter, execThermalHoldEnter, List.take_of_length_le twelve.le, any]

theorem exec_thermalHoldLeave_cool (hold : s.bit Reg.SCHED_STATUS_THERM_HOLD = true) (cool : ∀ w ∈ l, w.toInt ≤ 970) :
    exec (.thermalHoldLeave l) s = .next ((((s.showTemps l).put Reg.SCHED_STATUS_THERM_HOLD 0).put Reg.GLOBAL_THERM_HOLD 0).postNow
      .fault (some 58) 0x15 [0, hottest l]) := by
  have all : (l.all fun w => decide (tempOf w ≤ 970)) = true :=
    List.all_eq_true.2 fun w mem => decide_eq_true (cool w mem)
  simp [exec_thermalHoldLeave, execThermalHoldLeave, List.take_of_length_le twelve.le, hold, twelve, all]

theorem exec_thermalHoldLeave_hot (hot : ∃ w ∈ l, 970 < w.toInt) : exec (.thermalHoldLeave l) s = .next (s.showTemps l) := by
  have all : (l.all fun w => decide (tempOf w ≤ 970)) = false :=
    List.all_eq_false.2 (hot.imp fun _ ⟨mem, above⟩ => ⟨mem, mt of_decide_eq_true (Int.not_le.2 above)⟩)
  simp [exec_thermalHoldLeave, execThermalHoldLeave, List.take_of_length_le twelve.le, all]

end

/-! ### The slice registers (R327) -/

section
variable {s} {r : Fin 10} {v : BitVec 32} (up : s.hostUp = true) (restored : s.bit Reg.GLOBAL_RESTORE_DONE = true)
include up restored

theorem exec_schedSliceWrite_die (free : s.bit Reg.SCHED_STATUS_NONE = true) (die : 8 ≤ r.val) (value : v.toNat % 4 ≠ 3) :
    exec (.schedSliceWrite r v) s = .next (s.put (Reg.SCHED_SLICE_D_BRIDGE (r - 8)) (v.toNat % 4)) := by
  have run : exec (.schedSliceWrite r v) s = execSchedSliceWrite r v s := rfl
  simp [run, execSchedSliceWrite, State.ifRestored, State.ifHost, up, restored, free, Nat.not_lt.2 die, value.symm]

theorem exec_schedSliceWrite_region (free : s.bit Reg.SCHED_STATUS_NONE = true) (region : r.val < 8) (cl : v.toNat % 4 ≠ 3)
    (dly : v.toNat / 4 % 4 ≠ 3) (link : v.toNat / 16 % 4 ≠ 3) :
    exec (.schedSliceWrite r v) s = .next (((s.put (Reg.SCHED_SLICE_RG_CL r) (v.toNat % 4)).put (Reg.SCHED_SLICE_RG_DLY r)
      (v.toNat / 4 % 4)).put (Reg.SCHED_SLICE_RG_UP r) (v.toNat / 16 % 4)) := by
  have run : exec (.schedSliceWrite r v) s = execSchedSliceWrite r v s := rfl
  simp [run, execSchedSliceWrite, State.ifRestored, State.ifHost, up, restored, free, region, cl.symm, dly.symm, link.symm]

theorem exec_schedSliceWrite_rejected (bad : s.bit Reg.SCHED_STATUS_NONE = false ∨ v.toNat % 4 = 3) :
    exec (.schedSliceWrite r v) s = .next (s.put Reg.SCHED_SLICE_ST_REJ 1) := by
  have run : exec (.schedSliceWrite r v) s = execSchedSliceWrite r v s := rfl
  rcases bad with admitted | three
  · simp [run, execSchedSliceWrite, State.ifRestored, State.ifHost, up, restored, admitted, State.set]
  · by_cases region : r.val < 8 <;>
      simp [run, execSchedSliceWrite, State.ifRestored, State.ifHost, up, restored, region, three, State.set]

end

end Sys2Proof.Machine

namespace Sys2Proof.Machine

/-- Settles O26: each command through its equation above; that no other cluster and no unit changes rests on what the parts
of a re-admission leave (`SameButCluster`). -/
theorem readmissionHoldAndSlices : Obligations.ReadmissionHoldAndSlices := by
  unfold Obligations.ReadmissionHoldAndSlices
  refine ⟨fun h l i s active hold named image each => ?_, fun d s r c readmits clusters servos _ image domain due => ?_,
    fun l s twelve => ⟨exec_thermalHoldEnter_hot s twelve, exec_thermalHoldLeave_cool s twelve, exec_thermalHoldEnter_cool s twelve,
      exec_thermalHoldLeave_hot s twelve⟩,
    fun r v s up restored => ⟨fun free low => ⟨fun die => exec_schedSliceWrite_die up restored free die low, fun region =>
      exec_schedSliceWrite_region up restored free region low⟩, exec_schedSliceWrite_rejected up restored⟩⟩
  · refine exec_schedAdmitReadmit_queues s h active hold named (fun k hk => (each k hk).1) fun k hk => ?_
    obtain ⟨cluster, quarantined, bypass, fires⟩ := each k hk
    exact s.readmitOk_cluster image cluster quarantined bypass fires
  · obtain ⟨quarantined, zeroing⟩ := s.readmitCluster_releases image
    obtain ⟨units, host, others⟩ := SameButCluster.readmitCluster s c
    have run := exec_readmission_one s readmits clusters servos domain due
    generalize s.readmitCluster c = x at quarantined zeroing units host others run
    exact ⟨_, run, quarantined, zeroing, rfl, congrArg (fun h : HostSt => h.done ++ _) host, units, others⟩

end Sys2Proof.Machine
end

