-- ==== Sys2Proof/Proofs/ParameterChanges.lean ====
section
/-! PROOF. Parameter and patch changes taken as a whole: what the crossfades of a list leave of the mixing state, when the command
completes, and what a refused one changes (R67–R71, R90–R93, R102, R105, R107, R161, R437, R440, R442). -/

namespace Sys2Proof.Machine

/-! ### A crossfade of an object and domain (R105) -/

/-- A crossfade of the object and domain of `x` is among those of a list. -/
def Carries (l : List Crossfade) (x : Crossfade) : Prop := ∃ y ∈ l, y.object = x.object ∧ y.domain = x.domain

theorem Carries.of_mem {l : List Crossfade} {x : Crossfade} (h : x ∈ l) : Carries l x := ⟨x, h, rfl, rfl⟩

theorem mergeFade_carries_new (l : List Crossfade) (x : Crossfade) : Carries (mergeFade l x) x := by
  unfold mergeFade
  split
  next y found =>
    have same := List.find?_some found
    simp only [Bool.and_eq_true, beq_iff_eq] at same
    exact ⟨_, List.mem_cons_self, same.1.1, same.1.2⟩
  next => exact .of_mem List.mem_cons_self

/-- A crossfade that another takes the place of is still carried, by that one. -/
theorem Carries.replace {l : List Crossfade} {y y' z : Crossfade} (object : y'.object = y.object) (domain : y'.domain = y.domain)
    (h : Carries l z) : Carries (y' :: l.filter (· ≠ y)) z := by
  obtain ⟨w, mem, sameObject, sameDomain⟩ := h
  by_cases e : w = y
  · exact ⟨y', List.mem_cons_self, by rw [object, ← e, sameObject], by rw [domain, ← e, sameDomain]⟩
  · exact ⟨w, List.mem_cons_of_mem _ (List.mem_filter.2 ⟨mem, decide_eq_true e⟩), sameObject, sameDomain⟩

theorem mergeFade_carries_old {l : List Crossfade} {z : Crossfade} (x : Crossfade) (h : Carries l z) : Carries (mergeFade l x) z := by
  unfold mergeFade
  split
  next y _ => exact h.replace rfl rfl
  next =>
    obtain ⟨w, mem, same⟩ := h
    exact ⟨w, List.mem_cons_of_mem _ mem, same⟩

theorem foldl_mergeFade_carries_old {l : List Crossfade} {z : Crossfade} (fs : List Crossfade) (h : Carries l z) :
    Carries (fs.foldl mergeFade l) z := by
  induction fs generalizing l with
  | nil => exact h
  | cons x fs ih => exact ih (mergeFade_carries_old x h)

theorem foldl_mergeFade_carries_new {fs : List Crossfade} (l : List Crossfade) {x : Crossfade} (h : x ∈ fs) :
    Carries (fs.foldl mergeFade l) x := by
  induction fs generalizing l with
  | nil => exact absurd h List.not_mem_nil
  | cons y fs ih =>
    rcases List.mem_cons.1 h with rfl | mem
    · exact foldl_mergeFade_carries_old fs (mergeFade_carries_new l x)
    · exact ih _ mem

/-- A crossfade that starts later instead is one of the same object and domain. -/
theorem settleFades_carries (n : Nat) {l : List Crossfade} {z : Crossfade} (moved : List (Nat × Nat × Nat × Nat)) (h : Carries l z) :
    Carries (settleFades n l moved).1 z := by
  induction n generalizing l moved with
  | zero => exact h
  | succ n ih =>
    unfold settleFades
    split
    next => exact h
    next x y _ =>
      obtain ⟨w, mem, object, domain⟩ := h.replace (y := y) (y' := { y with start := x.start + x.len }) rfl rfl
      refine ih _ ?_
      rcases List.mem_cons.1 mem with rfl | rest
      · obtain ⟨v, here, sameObject, sameDomain⟩ := mergeFade_carries_new (l.filter (· ≠ y)) { y with start := x.start + x.len }
        exact ⟨v, here, sameObject.trans object, sameDomain.trans domain⟩
      · exact mergeFade_carries_old _ ⟨w, rest, object, domain⟩

/-! ### What admitting crossfades leaves as it was -/

/-- `t` has the units, shared memory, host part and mixing state of `s`. -/
structure SameMixing (s t : State) : Prop where
  units : t.units = s.units
  shm : t.shm = s.shm
  host : t.host = s.host
  mix : t.mix = s.mix

/-- A change, and a patch change, but for its target. -/
def Change.untimed (c : Change) : Change := { c with target := 0 }
def PatchChange.untimed (c : PatchChange) : PatchChange := { c with target := 0 }

/-- `t` has the units and shared memory of `s`, its parameters and patches in force, and the changes that wait but for their targets. -/
structure SameButTargets (s t : State) : Prop where
  units : t.units = s.units
  shm : t.shm = s.shm
  params : t.mix.params = s.mix.params
  patch : t.mix.patch = s.mix.patch
  changes : t.mix.changes.map Change.untimed = s.mix.changes.map Change.untimed
  patchChanges : t.mix.patchChanges.map PatchChange.untimed = s.mix.patchChanges.map PatchChange.untimed

theorem SameMixing.refl (s : State) : SameMixing s s := ⟨rfl, rfl, rfl, rfl⟩

theorem SameMixing.trans {s t u : State} (a : SameMixing s t) (b : SameMixing t u) : SameMixing s u :=
  ⟨b.units.trans a.units, b.shm.trans a.shm, b.host.trans a.host, b.mix.trans a.mix⟩

theorem SameMixing.butTargets {s t : State} (a : SameMixing s t) : SameButTargets s t := by
  obtain ⟨units, shm, -, mix⟩ := a
  constructor <;> simp only [units, shm, mix]

theorem SameButTargets.trans {s t u : State} (a : SameButTargets s t) (b : SameButTargets t u) : SameButTargets s u where
  units := b.units.trans a.units
  shm := b.shm.trans a.shm
  params := b.params.trans a.params
  patch := b.patch.trans a.patch
  changes := b.changes.trans a.changes
  patchChanges := b.patchChanges.trans a.patchChanges

/-- A list in which some entries get another target is the same but for the targets. -/
theorem map_retarget {α β : Type} (clear : α → β) (retarget : α → α) (hit : α → Bool) (h : ∀ e, clear (retarget e) = clear e)
    (l : List α) : (l.map fun e => if hit e then retarget e else e).map clear = l.map clear := by
  rw [List.map_map]
  refine List.map_congr_left fun e _ => ?_
  simp only [Function.comp_apply]
  split
  · exact h e
  · rfl

section
variable (s : State)

theorem SameMixing.put (f : Fld) (v : Nat) : SameMixing s (s.put f v) := ⟨rfl, rfl, rfl, rfl⟩

theorem SameMixing.bumpBy (f : Fld) (n : Nat) : SameMixing s (s.bumpBy f n) := .put s f _

theorem SameMixing.raise (f : Fld) (v : Nat) : SameMixing s (s.raise f v) := by
  unfold State.raise
  split
  · exact .put s f v
  · exact .refl s

theorem SameMixing.showSeq (l : List Change) : SameMixing s (s.showSeq l) :=
  State.each_keeps (SameMixing s) _ (fun _ t a => a.trans ((SameMixing.put t _ _).trans (.raise _ _ _))) s _ (.refl s)

theorem SameMixing.sendPair (m : PairMsg) : SameMixing s (s.sendPair m) := by
  unfold State.sendPair
  dsimp only
  split <;> exact ⟨rfl, rfl, rfl, rfl⟩

theorem SameMixing.mirrorOut (m : MirrorCmd) : SameMixing s (s.mirrorOut m) := by
  unfold State.mirrorOut
  split
  · have sent := SameMixing.sendPair s { s.pairMsg 0x13 with seq := s.pair.mirrorOut, mirror := some m }
    exact ⟨sent.units, sent.shm, sent.host, sent.mix⟩
  · exact .refl s

/-- Admission of crossfades moves the targets of changes that wait, and no more of them (R105); the crossfades are those settled. -/
theorem State.addFades_spec (fs : List Crossfade) :
    SameButTargets s (s.addFades fs) ∧ (s.addFades fs).host = s.host ∧ (s.addFades fs).mix.fades =
      (settleFades ((fs.foldl mergeFade s.mix.fades).length * (fs.foldl mergeFade s.mix.fades).length)
        (fs.foldl mergeFade s.mix.fades) []).1 := by
  unfold State.addFades
  dsimp only
  generalize settleFades _ _ _ = settled
  refine State.each_keeps (fun t => SameButTargets s t ∧ t.host = s.host ∧ t.mix.fades = settled.1) _ ?_ _ _
    ⟨⟨rfl, rfl, rfl, rfl, rfl, rfl⟩, rfl, rfl⟩
  rintro v t ⟨same, host, fades⟩
  refine ⟨same.trans ⟨rfl, rfl, rfl, rfl, ?_, ?_⟩, host, fades⟩
  · exact map_retarget Change.untimed (fun c => { c with target := v.2.2.2 }) _ (fun _ => rfl) _
  · exact map_retarget PatchChange.untimed (fun c => { c with target := v.2.2.2 }) _ (fun _ => rfl) _

theorem State.addFades_carries {fs : List Crossfade} {x : Crossfade} (h : x ∈ fs) : Carries (s.addFades fs).mix.fades x := by
  obtain ⟨-, -, fades⟩ := s.addFades_spec fs
  rw [fades]
  exact settleFades_carries _ [] (foldl_mergeFade_carries_new _ h)

end

/-! ### Completion of a list taken as a whole (R161) -/

/-- How a list whose number is `id` completes: at once with status and SI applied, or, carried by a crossfade, not yet. -/
structure CompletesOrWaits (s t : State) (h : CmdHdr) (op id : Nat) (st : Status) (si : Nat) : Prop where
  atOnce : (∀ x ∈ t.mix.fades, id ∉ x.waiters) → Completed s t h op st 0 si 0
  waits : (∃ x ∈ t.mix.fades, id ∈ x.waiters) → t.host.done = s.host.done ∧ ∃ w ∈ t.mix.waits, w.id = id ∧ w.hdr = h

theorem State.complete_spec (s : State) (h : CmdHdr) (op id : Nat) (st : Status) (si : Nat) :
    SameButTargets s (s.complete h op id st si) ∧ (s.complete h op id st si).mix.fades = s.mix.fades ∧
      CompletesOrWaits s (s.complete h op id st si) h op id st si := by
  unfold State.complete
  by_cases carried : ∃ x ∈ s.mix.fades, id ∈ x.waiters
  · have any : (s.mix.fades.any fun x => x.waiters.contains id) = true := by simpa using carried
    rw [if_pos any]
    refine ⟨⟨rfl, rfl, rfl, rfl, rfl, rfl⟩, rfl, fun free => ?_,
      fun _ => ⟨rfl, _, List.mem_append_right _ (List.mem_singleton.2 rfl), rfl, rfl⟩⟩
    obtain ⟨x, mem, waits⟩ := carried
    exact absurd waits (free x mem)
  · have notAny : ¬(s.mix.fades.any fun x => x.waiters.contains id) = true := by simpa using carried
    rw [if_neg notAny]
    exact ⟨⟨rfl, rfl, rfl, rfl, rfl, rfl⟩, rfl, fun _ => rfl, fun waiting => absurd waiting carried⟩

/-- An accepted list, mirrored and completed: `base` is the state with its changes added, `u` that with its crossfades admitted. -/
theorem accepted_spec {s base u : State} (same : SameButTargets base u) (host : u.host = s.host) (m : MirrorCmd) (h : CmdHdr)
    (op id : Nat) (st : Status) (si : Nat) :
    let t := (u.mirrorOut m).complete h op id st si
    SameButTargets base t ∧ t.mix.fades = u.mix.fades ∧ CompletesOrWaits s t h op id st si := by
  have mirrored := SameMixing.mirrorOut u m
  obtain ⟨kept, fades, ⟨atOnce, waits⟩⟩ := (u.mirrorOut m).complete_spec h op id st si
  rw [Completed, mirrored.host, host] at atOnce
  rw [mirrored.host, host] at waits
  exact ⟨(same.trans mirrored.butTargets).trans kept, fades.trans (congrArg (·.fades) mirrored.mix), atOnce, waits⟩

/-- What a list comes to, answered: an accepted one completes or waits, a refused one completes with its detail word. -/
def answer (h : CmdHdr) (op id : Nat) (r : State × Status × Nat × Nat) : State :=
  match r.2.1 with
  | .ok | .late => r.1.complete h op id r.2.1 r.2.2.2
  | st => r.1.finish h op st r.2.2.1 0 0

theorem answer_accepted (h : CmdHdr) (op id : Nat) (u : State) (late : Bool) (detail si : Nat) :
    answer h op id (u, if late then .late else .ok, detail, si) = u.complete h op id (if late then .late else .ok) si := by
  cases late <;> rfl

theorem answer_refused (h : CmdHdr) (op id : Nat) (u : State) {st : Status} (ok : st ≠ .ok) (late : st ≠ .late) (detail si : Nat) :
    answer h op id (u, st, detail, si) = u.finish h op st detail 0 0 := by
  unfold answer
  split
  next e => exact absurd e ok
  next e => exact absurd e late
  next => rfl

/-! ### PARAM_SET (R440, R441) -/

variable (s : State)

theorem exec_paramSet_answers {h : CmdHdr} (ramp : Nat) {l : ListAt} {items : List ParamItem}
    (listed : s.listCheck h l items.length 4096 = none) (active : s.standby = false) :
    exec (.paramSet h ramp l items) s = .next (answer h 0x0100 (s.mix.nextOrder + 1)
      (s.paramSet h.target ramp (h.flags.testBit 1) l items [s.mix.nextOrder + 1])) := by
  have run : exec (.paramSet h ramp l items) s = execParamSet h ramp l items s := rfl
  simp only [run, execParamSet, listed, State.refusesChange, active, Bool.false_eq_true, if_false]
  rfl

section
variable {s} {target ramp : Nat} {eqPower : Bool} {items : List ParamItem} {waiters : List Nat} {ps : List Planned}

theorem State.paramSet_itemFails (l : ListAt) {k : Nat} {f : ItemFault}
    (plan : s.planAll target (.samples ramp) eqPower items 0 = .error (k, f)) :
    s.paramSet target ramp eqPower l items waiters = (s, .refused, itemOffset l k f % 256 + k * 256, 0) := by
  simp only [State.paramSet, plan]

theorem State.paramSet_queueFull (l : ListAt) {c : Nat} (plan : s.planAll target (.samples ramp) eqPower items 0 = .ok ps)
    (full : s.planOf ps 1 s.mix.nextOrder none waiters = .error (.busy, c)) :
    s.paramSet target ramp eqPower l items waiters = (s.put (Reg.FABRIC_CL_SEQ_FULL_SEEN c) 1, .busy, 0, 0) := by
  simp only [State.paramSet, plan, full]

theorem State.paramSet_noHeadroom (l : ListAt) {c : Nat} (plan : s.planAll target (.samples ramp) eqPower items 0 = .ok ps)
    (noRoom : s.planOf ps 1 s.mix.nextOrder none waiters = .error (.noHeadroom, c)) :
    ∃ k, s.paramSet target ramp eqPower l items waiters = (s, .noHeadroom, itemOffset l k .handle % 256 + k * 256, 0) := by
  simp only [State.paramSet, plan, noRoom]
  exact ⟨_, rfl⟩

theorem State.paramSet_fits (l : ListAt) {p : Plan} (plan : s.planAll target (.samples ramp) eqPower items 0 = .ok ps)
    (fits : s.planOf ps 1 s.mix.nextOrder none waiters = .ok p) :
    s.paramSet target ramp eqPower l items waiters =
      ((s.commitPlan p).mirrorOut (.params ramp eqPower (s.planSi target p.items).1 items),
        if (s.planSi target p.items).2 then .late else .ok, 0, (s.planSi target p.items).1) := by
  simp only [State.paramSet, plan, fits]

end

/-- The state with the entries of a plan after those that wait. -/
def State.addEntries (p : Plan) : State :=
  s.modMix fun m => { m with changes := m.changes ++ p.entries, nextOrder := m.nextOrder + p.items.length }

theorem State.commitPlan_spec (p : Plan) :
    SameButTargets (s.addEntries p) (s.commitPlan p) ∧ (s.commitPlan p).host = s.host ∧
      ∀ x ∈ p.fades, Carries (s.commitPlan p).mix.fades x := by
  have counted := ((SameMixing.showSeq ((s.addEntries p).addFades p.fades) p.entries).trans
    (.bumpBy _ Reg.SCHED_PARAM_CLAMP_CNT_COUNT (p.items.filter (·.clamped)).length)).trans
    (.bumpBy _ Reg.SCHED_RAMP_RAISE_CNT_COUNT (p.items.filter (·.raised)).length)
  obtain ⟨same, host, -⟩ := (s.addEntries p).addFades_spec p.fades
  refine ⟨same.trans counted.butTargets, counted.host.trans host, fun x mem => ?_⟩
  have carried := (s.addEntries p).addFades_carries mem
  rw [← counted.mix] at carried
  exact carried

/-! ### ROUTE (R442) -/

theorem exec_route_answers {h : CmdHdr} (ramp : Nat) {law : Nat} {l : ListAt} {items : List RouteItem} (known : law ≤ 1)
    (listed : s.listCheck h l items.length 1024 = none) (active : s.standby = false) :
    exec (.route h ramp law l items) s = .next (answer h 0x0300 (s.mix.nextOrder + 1)
      (s.routeSet h.target ramp (law == 1) l items [s.mix.nextOrder + 1])) := by
  have run : exec (.route h ramp law l items) s = execRoute h ramp law l items s := rfl
  simp only [run, execRoute, Nat.not_lt.2 known, listed, State.refusesChange, active, Bool.false_eq_true, if_false]
  rfl

section
variable {s} {target ramp : Nat} {eqPower : Bool} {items : List RouteItem} {waiters : List Nat}
variable {ps : List (PlannedPatch × Bool)}

theorem State.routeSet_itemFails (l : ListAt) {k : Nat} {f : ItemFault}
    (plan : s.planPatches target ramp eqPower items 0 = .error (k, f)) :
    s.routeSet target ramp eqPower l items waiters = (s, .refused, itemOffset l k f % 256 + k * 256, 0) := by
  simp only [State.routeSet, plan]

theorem State.routeSet_doesNotFit (l : ListAt) {st : Status} {k : Nat} (plan : s.planPatches target ramp eqPower items 0 = .ok ps)
    (made : s.commitPatches (ps.map (·.1)) (2 ^ 113 + s.mix.nextOrder) none waiters = .error (st, k)) :
    s.routeSet target ramp eqPower l items waiters = (s, st, itemOffset l k .handle % 256 + k * 256, 0) := by
  simp only [State.routeSet, plan, made]

end

/-- The SI of domain P at which planned patches take effect (R442). -/
def State.patchSi (target : Nat) (ps : List (PlannedPatch × Bool)) : Nat :=
  if (ps.any fun p => p.1.late) = true then ps.foldl (fun m p => max m (s.toP p.1.domain p.1.target)) 0
  else if target = 0 then s.earliest 0 else target

theorem State.routeSet_fits {s u : State} {target ramp : Nat} {eqPower : Bool} {items : List RouteItem} {waiters : List Nat}
    {ps : List (PlannedPatch × Bool)} (l : ListAt) (plan : s.planPatches target ramp eqPower items 0 = .ok ps)
    (made : s.commitPatches (ps.map (·.1)) (2 ^ 113 + s.mix.nextOrder) none waiters = .ok u) :
    s.routeSet target ramp eqPower l items waiters =
      ((u.bumpBy Reg.SCHED_RAMP_RAISE_CNT_COUNT (ps.filter (·.2)).length).mirrorOut
          (.routes ramp eqPower (s.patchSi target ps) items),
        if (ps.any fun p => p.1.late) then .late else .ok, 0, s.patchSi target ps) := by
  simp only [State.routeSet, plan, made]
  rfl

/-- The state with the patch changes of a list after those that wait. -/
def State.addPatches (i : SchedImage) (l : List PlannedPatch) (order : Nat) (pour : Option (Nat × Nat)) : State :=
  s.modMix fun m => { m with patchChanges := m.patchChanges ++ s.patchChanges i pour l order [],
                             nextOrder := m.nextOrder + l.length }

section
variable {s} {l : List PlannedPatch} {order : Nat} {pour : Option (Nat × Nat)} {waiters : List Nat}

theorem State.commitPatches_ok {u : State} {i : SchedImage} (image : s.active = some i)
    (made : s.commitPatches l order pour waiters = .ok u) : SameButTargets (s.addPatches i l order pour) u ∧ u.host = s.host := by
  simp only [State.commitPatches, image] at made
  split at made
  · cases made
  · split at made
    · cases made
    · cases made
      obtain ⟨same, host, -⟩ := (s.addPatches i l order pour).addFades_spec _
      exact ⟨same, host⟩

/-- Patches that do not fit are refused with one of two statuses. -/
theorem State.commitPatches_error {st : Status} {k : Nat} (made : s.commitPatches l order pour waiters = .error (st, k)) :
    st = .refused ∨ st = .noHeadroom := by
  unfold State.commitPatches at made
  split at made
  · cases made
    exact .inl rfl
  · dsimp only at made
    split at made
    · cases made
      exact .inr rfl
    · split at made
      · cases made
        exact .inr rfl
      · cases made

end

end Sys2Proof.Machine

namespace Sys2Proof.Machine

/-- Settles O28: each outcome of a list through its equation above; what an accepted one leaves rests on the admission of its
crossfades (`State.addFades_spec`), and when it completes on `State.complete_spec` (log 37). -/
theorem parameterAndRouteChanges : Obligations.ParameterAndRouteChanges := by
  unfold Obligations.ParameterAndRouteChanges
  refine ⟨fun h ramp l items s listed active => ?_, fun h ramp law l items s i known listed active image => ?_⟩
  · have run := exec_paramSet_answers s ramp listed active
    refine ⟨fun k f plan => ?_, fun ps c plan full => ?_, fun ps c plan noRoom => ?_, fun ps p plan fits => ?_⟩
    · rw [run, State.paramSet_itemFails l plan, answer_refused _ _ _ _ (by decide) (by decide)]
    · rw [run, State.paramSet_queueFull l plan full, answer_refused _ _ _ _ (by decide) (by decide)]
    · obtain ⟨k, refused⟩ := State.paramSet_noHeadroom l plan noRoom
      exact ⟨k, by rw [run, refused, answer_refused _ _ _ _ (by decide) (by decide)]⟩
    · obtain ⟨same, host, carries⟩ := s.commitPlan_spec p
      rw [State.paramSet_fits l plan fits, answer_accepted] at run
      obtain ⟨kept, fades, completes⟩ := accepted_spec same host
        (.params ramp (h.flags.testBit 1) (s.planSi h.target p.items).1 items) h 0x0100 (s.mix.nextOrder + 1)
        (if (s.planSi h.target p.items).2 then .late else .ok) (s.planSi h.target p.items).1
      rw [← fades] at carries
      exact ⟨_, run, kept.changes, carries, kept.params, kept.units, kept.shm, completes.atOnce, completes.waits⟩
  · have run := exec_route_answers s ramp known listed active
    refine ⟨fun k f plan => ?_, fun ps st k plan made => ?_, fun ps u plan made => ?_⟩
    · rw [run, State.routeSet_itemFails l plan, answer_refused _ _ _ _ (by decide) (by decide)]
    · have status := State.commitPatches_error made
      rw [run, State.routeSet_doesNotFit l plan made, answer_refused]
      · rcases status with rfl | rfl <;> decide
      · rcases status with rfl | rfl <;> decide
    · obtain ⟨same, host⟩ := State.commitPatches_ok image made
      have counted := SameMixing.bumpBy u Reg.SCHED_RAMP_RAISE_CNT_COUNT (ps.filter (·.2)).length
      rw [State.routeSet_fits l plan made, answer_accepted] at run
      obtain ⟨kept, -, completes⟩ := accepted_spec (same.trans counted.butTargets) (counted.host.trans host)
        (.routes ramp (law == 1) (s.patchSi h.target ps) items) h 0x0300 (s.mix.nextOrder + 1)
        (if (ps.any fun p => p.1.late) then .late else .ok) (s.patchSi h.target ps)
      exact ⟨_, run, kept.units, kept.shm, kept.patch, kept.params, kept.patchChanges, completes.atOnce, completes.waits⟩

end Sys2Proof.Machine
end

