-- ==== Sys2Proof/Proofs/MetersAndQueries.lean ====
section
/-! PROOF. Meter subscriptions and the queries (R124–R129, R294, R443, R446, R447). -/

namespace Sys2Proof.Machine

variable (s : State)

/-! ### METER_SUB_OPEN and METER_SUB_CLOSE (R124, R125, R443) -/

/-- A subscription number is given a subscription, or freed. -/
def State.putMeter (n : Nat) (x : Option MeterSub) : State :=
  s.modMix fun q => { q with meters := Tab.put none q.meters n x }

theorem State.meter_putMeter_same (n : Nat) (x : Option MeterSub) : Tab.get none (s.putMeter n x).mix.meters n = x :=
  Tab.get_put_same none s.mix.meters n x

theorem State.meter_putMeter_ne {m n : Nat} (other : m ≠ n) (x : Option MeterSub) :
    Tab.get none (s.putMeter n x).mix.meters m = Tab.get none s.mix.meters m := Tab.get_put_ne none s.mix.meters other x

/-- The subscription that METER_SUB_OPEN makes of points in domain d. -/
def State.openedMeter (h : CmdHdr) (period buf : Nat) (points : List Nat) (d : Nat) : MeterSub :=
  { points := points, period := period, buf := buf, domain := d, ring := s.cmdRing h,
    values := List.replicate points.length 0xC3100000, phase := (s.dom d).si / (s.dom d).block }

/-- All points of a list are known, one by one. -/
theorem find?_unknownMeter {i : SchedImage} {points : List Nat} (known : ∀ p ∈ points, knownMeter i p = true) :
    ((List.range points.length).find? fun k => !knownMeter i (points.getD k 0)) = none := by
  refine List.find?_eq_none.2 fun k mem => ?_
  have inList := List.mem_range.1 mem
  rw [List.getD_eq_getElem _ _ inList, known _ (List.getElem_mem inList)]
  decide

theorem exec_meterSubOpen_known {h : CmdHdr} {period addr buf k : Nat} {points : List Nat} {i : SchedImage}
    (nonempty : 1 ≤ points.length) (most : points.length ≤ 8192) (positive : 0 < period)
    (list : s.windowOk addr (4 * points.length) false = true) (buffer : s.windowOk buf (2 * halfBytes points.length) true = true)
    (image : s.active = some i) (known : ∀ p ∈ points, knownMeter i p = true)
    (slow : (s.dom (objectDomain i (points.headD 0))).rate ≤
      period * (s.dom (objectDomain i (points.headD 0))).block * 1000)
    (free : (List.range 16).find? (fun k => (Tab.get none s.mix.meters k).isNone) = some k) :
    let d := objectDomain i (points.headD 0)
    let m := s.openedMeter h period buf points d
    exec (.meterSubOpen h period addr points buf) s =
      if s.meterFits i d (m :: s.metersOf d) then
        .next ((s.putMeter k (some m)).finish h 0x0400 .ok 0 0 k)
      else .next (s.finish h 0x0400 .noHeadroom 16 0 0) := by
  have run : exec (.meterSubOpen h period addr points buf) s = execMeterSubOpen h period addr points buf s := rfl
  have count : ¬(points.length = 0 ∨ 8192 < points.length) := by omega
  simp only [run, execMeterSubOpen, if_neg count, if_neg positive.ne', list, buffer, image, find?_unknownMeter known,
    if_neg (Nat.not_lt.2 slow), free, Bool.not_true, Bool.false_eq_true, if_false]
  rfl

theorem exec_meterSubClose_open (h : CmdHdr) {n : Nat} (number : n < 16) (opened : (Tab.get none s.mix.meters n).isSome = true) :
    exec (.meterSubClose h n) s =
      .next ((s.putMeter n none).finish h 0x0401 .ok 0 0 0) := by
  have run : exec (.meterSubClose h n) s = execMeterSubClose h n s := rfl
  simp only [run, execMeterSubClose, if_pos (And.intro number opened), State.ok, State.putMeter]

theorem exec_meterSubClose_notOpen (h : CmdHdr) {n : Nat} (notOpen : 16 ≤ n ∨ Tab.get none s.mix.meters n = none) :
    exec (.meterSubClose h n) s = .next (s.finish h 0x0401 .refused 16 0 0) := by
  have run : exec (.meterSubClose h n) s = execMeterSubClose h n s := rfl
  have closed : ¬(n < 16 ∧ (Tab.get none s.mix.meters n).isSome = true) := by
    rintro ⟨number, opened⟩
    rcases notOpen with large | free
    · exact Nat.not_lt.2 large number
    · simp [free] at opened
  simp only [run, execMeterSubClose, if_neg closed]
  rfl

/-! ### METER_UPDATE (R123, R126, R127, R129) -/

/-- A subscription after its next update (R127). -/
def MeterSub.updated (x : MeterSub) (values : List Word) : MeterSub :=
  { x with seq := x.seq + 1, restart := false, values := values, peaks := [] }

/-- The bytes of an update are written, and its subscription goes on as `y`. -/
def State.writeMeter (a : Nat) (bs : List Byte) (n : Nat) (y : MeterSub) : State := (s.hostWrite a bs).putMeter n (some y)

theorem State.writeMeter_spec (a : Nat) (bs : List Byte) (n : Nat) (y : MeterSub) :
    (s.writeMeter a bs n y).regs = s.regs ∧ (s.writeMeter a bs n y).units = s.units ∧
      (s.writeMeter a bs n y).hostMem = Memory.writeBytes s.hostMem a bs ∧
      Tab.get none (s.writeMeter a bs n y).mix.meters n = some y ∧
      ∀ m, m ≠ n → Tab.get none (s.writeMeter a bs n y).mix.meters m = Tab.get none s.mix.meters m :=
  ⟨rfl, rfl, rfl, State.meter_putMeter_same _ n _, fun _ other => State.meter_putMeter_ne _ other _⟩

section
variable {s} {n : Fin 16} {x : MeterSub} (opened : Tab.get none s.mix.meters n = some x)
include opened

theorem exec_meterUpdate_writes (vs : List Word) (window : s.windowOk x.buf (2 * halfBytes x.points.length) true = true)
    (room : halfBytes x.points.length ≤ s.ledgerLeft) :
    ∃ flags values, values.length = x.points.length ∧ exec (.meterUpdate n vs) s =
      .next (s.writeMeter (x.buf + (x.seq + 1) % 2 * halfBytes x.points.length)
        (meterBytes (x.seq + 1) ((s.dom x.domain).si - 1) flags values) n (x.updated values)) := by
  have run : exec (.meterUpdate n vs) s = execMeterUpdate n vs s := rfl
  simp only [run, execMeterUpdate, opened, window, if_neg (Nat.not_lt.2 room), Bool.not_true, Bool.false_eq_true, if_false]
  exact ⟨_, _, by rw [List.length_map, List.length_range], rfl⟩

theorem exec_meterUpdate_noRoom (vs : List Word) (window : s.windowOk x.buf (2 * halfBytes x.points.length) true = true)
    (noRoom : s.ledgerLeft < halfBytes x.points.length) : exec (.meterUpdate n vs) s = .next s := by
  have run : exec (.meterUpdate n vs) s = execMeterUpdate n vs s := rfl
  simp only [run, execMeterUpdate, opened, window, if_pos noRoom, Bool.not_true, Bool.false_eq_true, if_false]

theorem exec_meterUpdate_noWindow (vs : List Word) (noWindow : s.windowOk x.buf (2 * halfBytes x.points.length) true = false) :
    exec (.meterUpdate n vs) s = .next (s.closeMeter n x) := by
  have run : exec (.meterUpdate n vs) s = execMeterUpdate n vs s := rfl
  simp only [run, execMeterUpdate, opened, noWindow, Bool.not_false, if_true]

end

/-! An event, of a ring of any number, is no part of the mixing state. -/

@[simp] theorem State.hold_mix (r : Nat) (h : Held) : (s.hold r h).mix = s.mix := (SameButHost.hold s r h).mix

@[simp] theorem State.writeEvent_mix (r : Nat) (h : Held) : (s.writeEvent r h).mix = s.mix := by
  unfold State.writeEvent
  split_ifs
  · rw [State.hold_mix, State.stopEvRing, State.hold_mix]
    rfl
  all_goals rfl

@[simp] theorem State.postTo_mix (r : Nat) (e : Event) (v : Option Nat) : (s.postTo r e v).mix = s.mix := by
  unfold State.postTo
  dsimp only
  split
  · exact s.writeEvent_mix r _
  · exact s.hold_mix r _

theorem State.closeMeter_closed (n : Nat) (x : MeterSub) : Tab.get none (s.closeMeter n x).mix.meters n = none := by
  unfold State.closeMeter
  rw [State.postTo_mix]
  exact s.meter_putMeter_same n none

/-! ### QUERY_PATH and QUERY_VALUE (R58, R446) -/

theorem exec_queryPath_found (h : CmdHdr) {a b n d : Nat} (found : s.latency a b = some (n, d)) :
    exec (.queryPath h a b) s = .next (s.finish h 0x0B00 .ok 0 0 (n % 2 ^ 32 + d * 2 ^ 32)) := by
  have run : exec (.queryPath h a b) s = execQueryPath h a b s := rfl
  simp only [run, execQueryPath, found]

theorem exec_queryPath_none (h : CmdHdr) {a b : Nat} (noPath : s.latency a b = none) :
    exec (.queryPath h a b) s = .next (s.finish h 0x0B00 .refused 16 0 0) := by
  have run : exec (.queryPath h a b) s = execQueryPath h a b s := rfl
  simp only [run, execQueryPath, noPath]
  rfl

theorem exec_queryValue_answers (h : CmdHdr) {a : Nat} {i : SchedImage} (image : s.active = some i)
    (parameter : (paramInfo (s.dom (s.handleDomain a)).rate a).isSome = true) (place : inPlace i a = true) :
    exec (.queryValue h a) s = .next (s.finish h 0x0B03 .ok 0 (s.toP (s.handleDomain a) (s.earliest (s.handleDomain a)))
      (s.valueAt a (s.earliest (s.handleDomain a))).toNat) := by
  have run : exec (.queryValue h a) s = execQueryValue h a s := rfl
  simp [run, execQueryValue, image, place, Option.isSome_iff_ne_none.1 parameter]

theorem exec_queryValue_refused (h : CmdHdr) {a : Nat}
    (nothing : s.active = none ∨ (paramInfo (s.dom (s.handleDomain a)).rate a).isSome = false ∨
      ∃ i, s.active = some i ∧ inPlace i a = false) :
    exec (.queryValue h a) s = .next (s.finish h 0x0B03 .refused 16 0 0) := by
  have run : exec (.queryValue h a) s = execQueryValue h a s := rfl
  rw [run]
  unfold execQueryValue
  dsimp only
  split
  next => rfl
  next i image =>
    have missing : (paramInfo (s.dom (s.handleDomain a)).rate a).isNone = true ∨ inPlace i a = false := by
      rcases nothing with noImage | parameter | ⟨j, active, place⟩
      · cases noImage.symm.trans image
      · exact .inl (by simpa using parameter)
      · cases active.symm.trans image
        exact .inr place
    rw [if_pos missing]
    rfl

/-! ### QUERY_PEEK (R294, R447) -/

theorem exec_queryPeek (h : CmdHdr) (c a : Nat) : exec (.queryPeek h c a) s = execQueryPeek h c a s := rfl

theorem exec_queryPeek_noCluster (h : CmdHdr) {c : Nat} (a : Nat) (noCluster : 64 ≤ c) :
    exec (.queryPeek h c a) s = .next (s.finish h 0x0B01 .refused 16 0 0) := by
  simp [exec_queryPeek, execQueryPeek, noCluster, State.refuse]

section
variable {s} {c a : Nat} (h : CmdHdr) (cluster : c < 64)
include cluster

theorem exec_queryPeek_misaligned (misaligned : a % 256 ≠ 0) :
    exec (.queryPeek h c a) s = .next (s.finish h 0x0B01 .refused 20 0 0) := by
  simp [exec_queryPeek, execQueryPeek, Nat.not_le.2 cluster, misaligned, State.refuse]

variable (aligned : a % 256 = 0) (inside : a < 2 ^ 20)
include aligned inside

theorem exec_queryPeek_waits (free : (s.cluster c).peek = none) :
    exec (.queryPeek h c a) s = .next (s.setCluster c { s.cluster c with peek := some (a, h) }) := by
  have address : ¬(a % 256 ≠ 0 ∨ 2 ^ 20 ≤ a) := by omega
  simp only [exec_queryPeek, execQueryPeek, if_neg (Nat.not_le.2 cluster), if_neg address, free, Option.isSome_none,
    Bool.false_eq_true, if_false]
  rfl

theorem exec_queryPeek_busy (taken : (s.cluster c).peek.isSome = true) :
    exec (.queryPeek h c a) s = .next (s.finish h 0x0B01 .busy 0 0 0) := by
  have address : ¬(a % 256 ≠ 0 ∨ 2 ^ 20 ≤ a) := by omega
  simp only [exec_queryPeek, execQueryPeek, if_neg (Nat.not_le.2 cluster), if_neg address, taken, if_true]

end

/-! ### QUERY_CLEAR (R447) -/

/-- An operation for each member of a list without repetition changes each of them once, and no other. -/
theorem State.each_once {β : Type} (read : State → Nat → β) (op : Nat → State → State) (f : β → β)
    (step : ∀ k t c, read (op k t) c = if c = k then f (read t k) else read t c) {l : List Nat} (once : l.Nodup) (c : Nat) :
    read (s.each l op) c = if c ∈ l then f (read s c) else read s c := by
  unfold State.each
  induction l generalizing s with
  | nil => simp
  | cons k l ih =>
    obtain ⟨fresh, rest⟩ := List.nodup_cons.1 once
    rw [List.foldl_cons, ih _ rest, step]
    by_cases e : c = k
    · simp [e, fresh]
    · simp [e]

theorem State.cluster_each_modCluster {l : List Nat} (once : l.Nodup) (f : ClusterSt → ClusterSt) (c : Nat) :
    (s.each l fun k t => t.modCluster k f).cluster c = if c ∈ l then f (s.cluster c) else s.cluster c :=
  s.each_once State.cluster _ f (fun k t c => t.cluster_modCluster k c f) once c

theorem State.region_each_modRegion {l : List Nat} (once : l.Nodup) (f : RegionSt → RegionSt) (g : Nat) :
    (s.each l fun k t => t.modRegion k f).region g = if g ∈ l then f (s.region g) else s.region g :=
  s.each_once State.region _ f (fun k t g => t.region_modRegion k g f) once g

theorem State.each_modCluster_keeps (l : List Nat) (f : ClusterSt → ClusterSt) :
    ∃ cs, (s.each l fun k t => t.modCluster k f) = { s with clusters := cs } :=
  State.each_keeps (fun t => ∃ cs, t = { s with clusters := cs }) _ (fun _ _ ⟨_, e⟩ => e ▸ ⟨_, rfl⟩) s l ⟨s.clusters, rfl⟩

theorem State.each_modRegion_keeps (l : List Nat) (f : RegionSt → RegionSt) :
    ∃ gs, (s.each l fun k t => t.modRegion k f) = { s with regions := gs } :=
  State.each_keeps (fun t => ∃ gs, t = { s with regions := gs }) _ (fun _ _ ⟨_, e⟩ => e ▸ ⟨_, rfl⟩) s l ⟨s.regions, rfl⟩

/-- The places of the bits of a mask that are set. -/
def setBits {n : Nat} (x : BitVec n) : List Nat := (List.range n).filter x.getLsbD

theorem nodup_setBits {n : Nat} (x : BitVec n) : (setBits x).Nodup := List.nodup_range.filter _

theorem mem_setBits {n k : Nat} (x : BitVec n) : k ∈ setBits x ↔ x.getLsbD k = true := by
  rw [setBits, List.mem_filter, List.mem_range]
  exact ⟨And.right, fun h => ⟨BitVec.lt_of_getLsbD h, h⟩⟩

theorem setBits_eq_nil {n : Nat} (x : BitVec n) : setBits x = [] ↔ x = 0 := by
  constructor
  · intro empty
    refine BitVec.eq_of_getLsbD_eq fun k _ => ?_
    have clear : ¬x.getLsbD k = true := fun set => List.not_mem_nil (empty ▸ (mem_setBits x).2 set)
    rw [Bool.eq_false_iff.2 clear]
    exact BitVec.getLsbD_zero.symm
  · rintro rfl
    simp [setBits]

/-- A CLEAR waits in a cluster, and in a region. -/
def ClusterSt.awaitClear (h : CmdHdr) (x : ClusterSt) : ClusterSt := { x with clears := x.clears ++ [h] }
def RegionSt.awaitClear (h : CmdHdr) (x : RegionSt) : RegionSt := { x with clears := x.clears ++ [h] }

theorem exec_queryClear (h : CmdHdr) (cs : BitVec 64) (gs : BitVec 8) :
    exec (.queryClear h cs gs) s = .next (if (setBits cs).isEmpty && (setBits gs).isEmpty then s.finish h 0x0B02 .empty 0 0 0
      else (s.each (setBits cs) fun c t => t.modCluster c (.awaitClear h)).each (setBits gs)
        fun g t => t.modRegion g (.awaitClear h)) := rfl

theorem exec_queryClear_waits (h : CmdHdr) {cs : BitVec 64} {gs : BitVec 8} (named : cs ≠ 0 ∨ gs ≠ 0) :
    ∃ t, exec (.queryClear h cs gs) s = .next t ∧ t.regs = s.regs ∧ t.host = s.host ∧
      (∀ c, t.cluster c = if cs.getLsbD c then (s.cluster c).awaitClear h else s.cluster c) ∧
      (∀ g, t.region g = if gs.getLsbD g then (s.region g).awaitClear h else s.region g) := by
  have notEmpty : ((setBits cs).isEmpty && (setBits gs).isEmpty) = false := by
    simp only [Bool.and_eq_false_iff, List.isEmpty_eq_false_iff, ne_eq, setBits_eq_nil]
    exact named
  have clusters := s.cluster_each_modCluster (nodup_setBits cs) (.awaitClear h)
  obtain ⟨x, afterClusters⟩ := s.each_modCluster_keeps (setBits cs) (.awaitClear h)
  rw [exec_queryClear, notEmpty, if_neg Bool.false_ne_true]
  rw [afterClusters] at clusters ⊢
  have regions := State.region_each_modRegion { s with clusters := x } (nodup_setBits gs) (.awaitClear h)
  obtain ⟨y, afterRegions⟩ := State.each_modRegion_keeps { s with clusters := x } (setBits gs) (.awaitClear h)
  rw [afterRegions] at regions ⊢
  simp only [mem_setBits] at clusters regions
  exact ⟨_, rfl, rfl, rfl, clusters, regions⟩

theorem exec_queryClear_nothing (h : CmdHdr) : exec (.queryClear h 0 0) s = .next (s.finish h 0x0B02 .empty 0 0 0) := by
  rw [exec_queryClear, (setBits_eq_nil _).2 rfl, (setBits_eq_nil _).2 rfl]
  rfl

end Sys2Proof.Machine

namespace Sys2Proof.Machine

/-- Settles O29: each command through its equation above. QUERY_PATH with no path is REFUSED by log 46, a CLEAR of nothing EMPTY by
log 79, and the padding of an update is log 146. -/
theorem metersAndQueries : Obligations.MetersAndQueries := by
  unfold Obligations.MetersAndQueries
  refine ⟨fun h period addr buf k points s i nonempty most positive list buffer image known slow free => ?_,
    fun n vs s x opened window => ⟨fun room => ?_, exec_meterUpdate_noRoom opened vs window⟩,
    fun n vs s x opened noWindow => ⟨_, exec_meterUpdate_noWindow opened vs noWindow, s.closeMeter_closed n x⟩,
    fun h n s => ⟨exec_meterSubClose_open s h, exec_meterSubClose_notOpen s h⟩,
    fun h a b s => ⟨fun n d => exec_queryPath_found s h, exec_queryPath_none s h,
      ⟨fun i => exec_queryValue_answers s h, exec_queryValue_refused s h⟩, exec_queryPeek_waits h, exec_queryPeek_busy h,
      exec_queryPeek_misaligned h, exec_queryPeek_noCluster s h b⟩,
    fun h cs gs s => ⟨fun named => ?_, ?_⟩⟩
  · have run := exec_meterSubOpen_known s (h := h) nonempty most positive list buffer image known slow free
    exact ⟨fun fits => run.trans (if_pos fits), fun full => run.trans (if_neg (Bool.eq_false_iff.1 full))⟩
  · obtain ⟨flags, values, length, run⟩ := exec_meterUpdate_writes opened vs window room
    obtain ⟨regs, units, mem, same, others⟩ := s.writeMeter_spec (x.buf + (x.seq + 1) % 2 * halfBytes x.points.length)
      (meterBytes (x.seq + 1) ((s.dom x.domain).si - 1) flags values) n (x.updated values)
    exact ⟨_, x.updated values, flags, run, regs, units, mem, length, same, rfl, rfl, rfl, others⟩
  · obtain ⟨t, run, regs, host, clusters, regions⟩ := exec_queryClear_waits s h named
    exact ⟨t, run, regs, host, fun c _ => clusters c, fun g _ => regions g⟩
  · rintro rfl rfl
    exact exec_queryClear_nothing s h

end Sys2Proof.Machine
end

