-- ==== Sys2Proof/Proofs/TrapEntry.lean ====
section
/-! PROOF. The trap a unit takes in the gap before its next bundle (R205–R215, R217). -/

namespace Sys2Proof.Machine

/-! ### The unit at trap entry -/

/-- With nothing in flight the clock of a unit runs on alone. -/
theorem UnitSt.runTo_of_noFlight {x : UnitSt} (flight : x.flight = []) (n : Nat) : x.runTo n = { x with cyc := max x.cyc n } := by
  simp [UnitSt.runTo, UnitSt.landDue, flight]

/-- A unit that stops with nothing in flight. -/
def UnitSt.stopped (x : UnitSt) : UnitSt := { x with wait := .halted, flight := [] }

theorem UnitSt.halt_of_noFlight {x : UnitSt} (flight : x.flight = []) : x.halt = x.stopped := by
  simp [UnitSt.halt, UnitSt.lastLanding, flight, UnitSt.runTo_of_noFlight flight, UnitSt.stopped]

/-- A unit that enters its handler with nothing in flight and nothing being read runs there at once (R209). -/
theorem UnitSt.settled_of_idle {x : UnitSt} (entry : x.wait = .entry) (flight : x.flight = []) (new : x.readNew = none)
    (buf : x.readBuf = none) : x.settled = { x with wait := .run } := by
  simp [UnitSt.settled, UnitSt.reading, UnitSt.lastLanding, entry, flight, new, buf, UnitSt.runTo_of_noFlight flight]

/-- The trap of a pending DEBUG that TRAP has made (R206, R210). -/
def debugTrap (code : BitVec 12) : TrapInfo := { cause := 3, detail := 1, slot := 4, code := code.toNat }

theorem UnitSt.pendingTrap_of_debug {x : UnitSt} {code : BitVec 12} (pending : x.pendDebug = some code)
    (noHandler : x.tactive = false) : x.pendingTrap = some (debugTrap code) := by
  simp [UnitSt.pendingTrap, pending, noHandler, debugTrap]

/-- A unit with the record of a trap (R210). -/
def UnitSt.recorded (x : UnitSt) (t : TrapInfo) : UnitSt := { x with tpc := x.pc % 1024, tcause := t.record x.la }

/-- A unit at the first bundle of its handler (R209, R214). -/
def UnitSt.inHandler (x : UnitSt) : UnitSt :=
  { x with la := 0, tactive := true, heldDivz := x.pendDivz, heldDebug := x.pendDebug.isSome, delay := 0, brTo := none,
           bkptExempt := false, pc := x.tvec.toNat % 1024, cyc := x.cyc + 2, wait := .run }

/-! ### The registers of a trap (R217) -/

variable (s : State)

/-- What a compute unit shows of each trap it takes. -/
def State.showTrap (u cause pc : Nat) : State :=
  if u < 512 then
    ((s.put (Reg.FABRIC_UN_TRAP_LAST_CAUSE (u / 8) (u % 8)) cause).bump (Reg.FABRIC_UN_TRAP_COUNT (u / 8) (u % 8))).put
      (Reg.FABRIC_UN_TPC_TPC (u / 8) (u % 8)) pc
  else s

/-- What a compute unit shows of a trap that stops it. -/
def State.showStop (u : Nat) (double : Bool) : State :=
  if u < 512 then
    (s.set (Reg.FABRIC_UN_TRAP_STOPPED (u / 8) (u % 8))).putBit (Reg.FABRIC_UN_TRAP_DOUBLE (u / 8) (u % 8)) double
  else s

theorem State.showTrap_units (u cause pc : Nat) : (s.showTrap u cause pc).units = s.units := by
  unfold State.showTrap; split <;> rfl

theorem State.showStop_units (u : Nat) (b : Bool) : (s.showStop u b).units = s.units := by
  unfold State.showStop; split <;> rfl

theorem State.gatherFlags_units (u : Nat) : (s.gatherFlags u).units = s.units := by
  unfold State.gatherFlags; split <;> rfl

theorem State.showTrap_cause {u : Nat} (compute : u < 512) {cause : Nat} (width : cause < 16) (pc : Nat) :
    (s.showTrap u cause pc).get (Reg.FABRIC_UN_TRAP_LAST_CAUSE (u / 8) (u % 8)) = cause := by
  unfold State.showTrap
  rw [if_pos compute, State.get_put_ne, State.bump, State.bumpBy, State.get_put_ne, State.get_put_lt s _ _ width] <;>
    simp only [Fld.key, Reg.FABRIC_UN_TRAP_LAST_CAUSE, Reg.FABRIC_UN_TRAP_COUNT, Reg.FABRIC_UN_TPC_TPC] <;> omega

theorem State.showStop_cause (u : Nat) (b : Bool) :
    (s.showStop u b).get (Reg.FABRIC_UN_TRAP_LAST_CAUSE (u / 8) (u % 8)) =
      s.get (Reg.FABRIC_UN_TRAP_LAST_CAUSE (u / 8) (u % 8)) := by
  unfold State.showStop
  split
  · refine (State.get_put_ne _ ?_ _).trans (State.get_put_ne s ?_ _) <;>
      simp only [Fld.key, Reg.FABRIC_UN_TRAP_LAST_CAUSE, Reg.FABRIC_UN_TRAP_STOPPED, Reg.FABRIC_UN_TRAP_DOUBLE] <;> omega
  · rfl

theorem State.showStop_stopped {u : Nat} (compute : u < 512) (b : Bool) :
    (s.showStop u b).bit (Reg.FABRIC_UN_TRAP_STOPPED (u / 8) (u % 8)) = true := by
  unfold State.showStop
  rw [if_pos compute]
  refine (State.bit_put_ne _ ?_ _).trans (State.bit_put_same s rfl 1)
  simp only [Fld.key, Reg.FABRIC_UN_TRAP_STOPPED, Reg.FABRIC_UN_TRAP_DOUBLE]
  omega

/-- The flags of a unit lie in a register of their own. -/
theorem State.gatherFlags_get (u : Nat) {f : Fld} (lo : f.lo < 32)
    (apart : f.off ≠ (Reg.FABRIC_UN_FLAGS_IFLAGS (u / 8) (u % 8)).off) : (s.gatherFlags u).get f = s.get f := by
  unfold State.gatherFlags
  dsimp only
  split
  · exact (State.get_put_ne _ (key_ne (g := Reg.FABRIC_UN_FLAGS_FFLAGS (u / 8) (u % 8)) apart lo (Nat.lt_of_sub_eq_succ rfl)) _).trans
      (State.get_put_ne s (key_ne apart lo (Nat.zero_lt_succ _)) _)
  · rfl

/-! ### The two ends of a trap (R209, R215) -/

/-- A unit that a trap has stopped, with what it shows and the event. -/
def State.stopTrapped (u : Nat) (t : TrapInfo) : State :=
  let x := (s.unit u).recorded t
  ((((s.showTrap u t.cause (x.pc % 1024)).showStop u (x.tactive || s.bit (Reg.FABRIC_UN_TRAP_DOUBLE (u / 8) (u % 8)))).errSeen.setUnit
    u x.halt).gatherFlags u).postNow .fault (some 54) 0x11 [u, x.tcause.toNat]

section
variable {s} {u : Nat} (t : TrapInfo)

/-- With a vector a unit that has no handler running enters it. -/
theorem State.takeTrap_enters (vector : (s.unit u).tvec.getLsbD 31 = true) (noHandler : (s.unit u).tactive = false)
    (flight : (s.unit u).flight = []) (new : (s.unit u).readNew = none) (buf : (s.unit u).readBuf = none) :
    s.takeTrap u t = (s.showTrap u t.cause ((s.unit u).pc % 1024)).setUnit u ((s.unit u).recorded t).inHandler := by
  simp [State.takeTrap, vector, noHandler, State.showTrap, UnitSt.runTo_of_noFlight, flight, UnitSt.settled_of_idle, new, buf,
    UnitSt.inHandler, UnitSt.recorded]

/-- Without one it stops. -/
theorem State.takeTrap_stops (vector : (s.unit u).tvec.getLsbD 31 = false) :
    s.takeTrap u t = if u < 512 then s.stopTrapped u t else (s.stopTrapped u t).servoCut (u - 512) :=
  if_neg (by simp only [vector, Bool.false_and, Bool.false_eq_true, not_false_eq_true])

end

theorem State.unit_of_units {s t : State} (units : t.units = s.units) (u : Nat) : t.unit u = s.unit u := by
  rw [State.unit, units]; rfl

theorem State.stopTrapped_unit (u v : Nat) (t : TrapInfo) :
    (s.stopTrapped u t).unit v = if v = u then ((s.unit u).recorded t).halt else s.unit v := by
  unfold State.stopTrapped
  dsimp only
  rw [State.unit_postNow, State.unit_of_units (State.gatherFlags_units _ u), State.unit_setUnit]
  refine if_congr Iff.rfl rfl ?_
  exact State.unit_of_units ((State.showStop_units _ _ _).trans (State.showTrap_units _ _ _ _)) v

theorem State.stopTrapped_get (u : Nat) (t : TrapInfo) {f : Fld} (lo : f.lo < 32) (outside : f.outsideHost)
    (apart : f.off ≠ (Reg.FABRIC_UN_FLAGS_IFLAGS (u / 8) (u % 8)).off) :
    (s.stopTrapped u t).get f = ((s.showTrap u t.cause ((s.unit u).pc % 1024)).showStop u
      ((s.unit u).tactive || s.bit (Reg.FABRIC_UN_TRAP_DOUBLE (u / 8) (u % 8)))).get f :=
  ((SameButHost.postNow _ _ _ _ _).get f lo outside).trans (State.gatherFlags_get _ u lo apart)

/-- What a compute unit shows of a trap that stops it. -/
theorem State.stopTrapped_shows {u : Nat} (compute : u < 512) {t : TrapInfo} (width : t.cause < 16) :
    (s.stopTrapped u t).get (Reg.FABRIC_UN_TRAP_LAST_CAUSE (u / 8) (u % 8)) = t.cause ∧
      (s.stopTrapped u t).bit (Reg.FABRIC_UN_TRAP_STOPPED (u / 8) (u % 8)) = true := by
  have outside : 0x5000 ≤ (Reg.FABRIC_UN_TRAP_STOPPED (u / 8) (u % 8)).off := by simp only [Reg.FABRIC_UN_TRAP_STOPPED]; omega
  have apart : (Reg.FABRIC_UN_TRAP_STOPPED (u / 8) (u % 8)).off ≠ (Reg.FABRIC_UN_FLAGS_IFLAGS (u / 8) (u % 8)).off := by
    simp [Reg.FABRIC_UN_TRAP_STOPPED, Reg.FABRIC_UN_FLAGS_IFLAGS]
  have kept {f : Fld} (off : f.off = (Reg.FABRIC_UN_TRAP_STOPPED (u / 8) (u % 8)).off) (lo : f.lo < 32) :=
    s.stopTrapped_get u t lo (.inr (off ▸ outside)) (off ▸ apart)
  constructor
  · rw [kept (f := Reg.FABRIC_UN_TRAP_LAST_CAUSE (u / 8) (u % 8)) rfl (Nat.zero_lt_succ _), State.showStop_cause, State.showTrap_cause s compute width]
  · rw [State.bit, kept (f := Reg.FABRIC_UN_TRAP_STOPPED (u / 8) (u % 8)) rfl (Nat.lt_of_sub_eq_succ rfl)]
    exact State.showStop_stopped _ compute _

/-- A servo unit is cut alone. -/
theorem State.servoCut_unit (k v : Nat) :
    (s.servoCut k).unit v = if v = 512 + k then (s.unit (512 + k)).stopped else s.unit v := by
  have units : (s.servoCut k).units = (s.modUnit (512 + k) UnitSt.stopped).units := by
    unfold State.servoCut
    dsimp only
    rw [State.postNow_units]
    refine State.each_keeps (fun t => t.units = (s.modUnit (512 + k) UnitSt.stopped).units) _ ?_ _ _ rfl
    exact fun _ _ h => h
  exact (State.unit_of_units units v).trans (s.unit_modUnit (512 + k) v UnitSt.stopped)

/-- A trap that no handler takes stops its unit, and no other (R215, R217, R650). -/
theorem State.takeTrap_stops_spec {u : Nat} (unit : u < 516) {t : TrapInfo} (width : t.cause < 16)
    (vector : (s.unit u).tvec.getLsbD 31 = false) (flight : (s.unit u).flight = []) :
    (s.takeTrap u t).unit u = ((s.unit u).recorded t).stopped ∧ (∀ v, v ≠ u → (s.takeTrap u t).unit v = s.unit v) ∧
      (u < 512 → (s.takeTrap u t).get (Reg.FABRIC_UN_TRAP_LAST_CAUSE (u / 8) (u % 8)) = t.cause ∧
        (s.takeTrap u t).bit (Reg.FABRIC_UN_TRAP_STOPPED (u / 8) (u % 8)) = true) := by
  have stopped (v : Nat) := s.stopTrapped_unit u v t
  rw [UnitSt.halt_of_noFlight (x := (s.unit u).recorded t) flight] at stopped
  rw [State.takeTrap_stops t vector]
  by_cases compute : u < 512
  · rw [if_pos compute]
    exact ⟨(stopped u).trans (if_pos rfl), fun v other => (stopped v).trans (if_neg other),
      fun _ => s.stopTrapped_shows compute width⟩
  · have servo : 512 + (u - 512) = u := by omega
    have cut (v : Nat) := (s.stopTrapped u t).servoCut_unit (u - 512) v
    rw [servo, stopped u, if_pos rfl] at cut
    rw [if_neg compute]
    refine ⟨(cut u).trans (if_pos rfl), fun v other => ?_, fun h => absurd h compute⟩
    rw [cut, if_neg other, stopped, if_neg other]

/-! ### TRAP_ENTRY (R205–R210, R156) -/

theorem exec_trapEntry (g : GapFetch) : exec (.trapEntry g) s = execTrapEntry g s := rfl

variable {s} {u : Fin 516}

theorem exec_trapEntry_taken {t : TrapInfo × Bool} (chosen : s.gapTrap u = some t) :
    exec (.trapEntry ⟨u, false⟩) s = .next (s.enterTrap u t) := by
  simp [exec_trapEntry, execTrapEntry, chosen]

theorem exec_trapEntry_none (nothing : s.gapTrap u = none) : exec (.trapEntry ⟨u, false⟩) s = .next s := by
  simp [exec_trapEntry, execTrapEntry, nothing]

theorem exec_trapEntry_notRunning (waits : (s.unit u).wait ≠ .run) (parity : Bool) :
    exec (.trapEntry ⟨u, parity⟩) s = .next s := by
  simp [exec_trapEntry, execTrapEntry, State.gapTrap, waits]

theorem exec_trapEntry_parity (runs : (s.unit u).wait = .run) (inMemory : (s.unit u).pc < 1024) (compute : u.val < 512) :
    exec (.trapEntry ⟨u, true⟩) s = .next (s.cut (u / 8) 3) := by
  simp [exec_trapEntry, execTrapEntry, runs, inMemory, compute]

/-- The unit once its pending DEBUG is taken (R208). -/
def UnitSt.dropDebug (x : UnitSt) : UnitSt := { x with pendDebug := none }

theorem UnitSt.dropPending_debug (x : UnitSt) (code : BitVec 12) : x.dropPending (debugTrap code).cause = x.dropDebug := if_pos rfl

/-- Between bundles and outside a delay bundle a pending TRAP comes before all else (R207, R208). -/
theorem exec_trapEntry_debug {code : BitVec 12} (runs : (s.unit u).wait = .run) (between : (s.unit u).mid = none)
    (boundary : (s.unit u).delay = 0) (pending : (s.unit u).pendDebug = some code) (noHandler : (s.unit u).tactive = false) :
    exec (.trapEntry ⟨u, false⟩) s = .next ((s.modUnit u UnitSt.dropDebug).takeTrap u (debugTrap code)) := by
  have chosen : s.gapTrap u = some (debugTrap code, true) := by
    simp [State.gapTrap, runs, between, UnitSt.choose, UnitSt.atBoundary, boundary, UnitSt.pendingTrap_of_debug pending noHandler]
  rw [exec_trapEntry_taken chosen]
  simp only [State.enterTrap, State.when, if_true, UnitSt.dropPending_debug]

end Sys2Proof.Machine

namespace Sys2Proof.Machine

/-- Settles O16: a pending TRAP is chosen in the gap (`exec_trapEntry_debug`) and taken by one of the two ends of a trap. -/
theorem trapEntryAndStop : Obligations.TrapEntryAndStop := by
  unfold Obligations.TrapEntryAndStop
  refine ⟨fun u s code runs between boundary pending noHandler flight new buf => ?_, fun u s =>
    ⟨exec_trapEntry_notRunning, exec_trapEntry_none, exec_trapEntry_parity⟩⟩
  have run := exec_trapEntry_debug runs between boundary pending noHandler
  have dropped (v : Nat) := s.unit_modUnit u v UnitSt.dropDebug
  have unit := (dropped u).trans (if_pos rfl)
  generalize s.modUnit u UnitSt.dropDebug = d at run dropped unit
  have others (v : Nat) (other : v ≠ u) : d.unit v = s.unit v := (dropped v).trans (if_neg other)
  have width : (debugTrap code).cause < 16 := Nat.lt_of_sub_eq_succ rfl
  cases vector : (s.unit u).tvec.getLsbD 31 with
  | true =>
    rw [State.takeTrap_enters (debugTrap code) (by rw [unit]; exact vector) (by rw [unit]; exact noHandler)
      (by rw [unit]; exact flight) (by rw [unit]; exact new) (by rw [unit]; exact buf), unit] at run
    refine ⟨_, run, fun v other => ?_, ?_⟩
    · rw [State.unit_setUnit, if_neg other, State.unit_of_units (State.showTrap_units _ _ _ _), others v other]
    · rw [State.unit_setUnit_same]
      exact ⟨rfl, rfl, rfl, fun compute => State.showTrap_cause d compute width _, fun _ => ⟨rfl, rfl, rfl, rfl, rfl⟩, nofun⟩
  | false =>
    obtain ⟨stopped, same, shown⟩ := d.takeTrap_stops_spec u.isLt width (by rw [unit]; exact vector) (by rw [unit]; exact flight)
    refine ⟨_, run, fun v other => (same v other).trans (others v other), ?_⟩
    rw [stopped, unit]
    exact ⟨rfl, rfl, rfl, fun compute => (shown compute).1, nofun, fun _ => ⟨rfl, fun compute => (shown compute).2⟩⟩

end Sys2Proof.Machine
end

