-- ==== Sys2Proof/Proofs/Admission.lean ====
section
/-! PROOF. Program and schedule images, the admission of a schedule and its arming (R140–R151, R444). -/

namespace Sys2Proof.Machine

/-! ### The banks of schedules (R149) -/

theorem SchedSt.bank_setBank (q : SchedSt) {a b : Nat} (ha : a ≤ 1) (hb : b ≤ 1) (k : Bank) :
    (q.setBank a k).bank b = if b = a then k else q.bank b := by
  obtain rfl | rfl : a = 0 ∨ a = 1 := by omega
  all_goals obtain rfl | rfl : b = 0 ∨ b = 1 := by omega
  all_goals rfl

theorem SchedSt.active_setBank (q : SchedSt) (a : Nat) (k : Bank) : (q.setBank a k).active = q.active := by
  unfold SchedSt.setBank
  split <;> rfl

theorem SchedSt.checking_setBank (q : SchedSt) (a : Nat) (k : Bank) : (q.setBank a k).checking = q.checking := by
  unfold SchedSt.setBank
  split <;> rfl

/-- What the banks hold lies in the schedules' part of the state alone. -/
theorem State.banks_of_sched {s t : State} (sched : t.sched = s.sched) :
    t.pendingBank = s.pendingBank ∧ t.active = s.active ∧ t.sched.checking = s.sched.checking := by
  simp [State.pendingBank, State.active, sched]

variable (s : State)

theorem State.setPendingBank_banks (k : Bank) :
    (s.setPendingBank k).pendingBank = k ∧ (s.setPendingBank k).active = s.active ∧
      (s.setPendingBank k).sched.checking = s.sched.checking := by
  have banks : (s.setPendingBank k).sched = s.sched.setBank (1 - s.sched.active.val) k := rfl
  have lt := s.sched.active.isLt
  refine ⟨?_, ?_, s.sched.checking_setBank _ k⟩
  · rw [State.pendingBank, banks, SchedSt.active_setBank, SchedSt.bank_setBank _ (by omega) (by omega), if_pos rfl]
  · rw [State.active, banks, SchedSt.active_setBank, SchedSt.bank_setBank _ (by omega) (by omega), if_neg (by omega)]
    rfl

/-! ### Image transfers (R444) -/

/-- Where every field of a transfer is valid, it waits for its buffers or finds program staging full (log 153). -/
theorem State.awaitImage_valid (h : CmdHdr) {op kind ring entry length : Nat} (object : op < 0x0700) (hring : ring ≤ 3)
    (hentry : entry ≤ 4095) (low : 64 ≤ length) (high : length ≤ 2 ^ 24) :
    s.awaitImage h op kind ring entry length true = if s.stagingFits length = true then s.modHost fun x =>
      { x with transfers := x.transfers ++ [⟨h, op, kind, ring, entry, length, 0⟩] } else s.finish h op .busy 0 0 0 := by
  have size : ¬(length < 64 ∨ 2 ^ 24 < length) := by omega
  unfold State.awaitImage
  rw [if_neg (by decide), if_neg (Nat.not_lt.2 hring), if_neg (Nat.not_lt.2 hentry), if_neg size]
  cases s.stagingFits length <;> simp [object]

theorem exec_progLoad (h : CmdHdr) (kind ring entry length : Nat) :
    exec (.progLoad h kind ring entry length) s = execProgLoad h kind ring entry length s := rfl

theorem exec_progLoad_valid (h : CmdHdr) {kind ring entry length : Nat} (hring : ring ≤ 3) (low : 64 ≤ length)
    (high : length ≤ 2 ^ 24) (first : 1 ≤ kind) (last : kind ≤ 3) (hentry : entry ≤ 4095) (scene : kind = 3 ∨ entry = 0) :
    exec (.progLoad h kind ring entry length) s = .next (if s.stagingFits length = true then s.modHost fun x =>
      { x with transfers := x.transfers ++ [⟨h, 0x0500, kind, ring, entry, length, 0⟩] } else s.finish h 0x0500 .busy 0 0 0) := by
  have kindOk : (decide (1 ≤ kind ∧ kind ≤ 3) && (kind == 3 || entry == 0)) = true := by simp [first, last, scene]
  rw [exec_progLoad, execProgLoad, kindOk, s.awaitImage_valid h (by decide) hring hentry low high]

theorem exec_schedAdmit (h : CmdHdr) (kind ring length : Nat) :
    exec (.schedAdmit h kind ring length) s = execSchedAdmit h kind ring length s := rfl

theorem exec_schedAdmit_valid (h : CmdHdr) {ring length : Nat} (hring : ring ≤ 3) (low : 64 ≤ length) (high : length ≤ 2 ^ 24)
    (holder : s.standby = false) :
    exec (.schedAdmit h 0 ring length) s = .next (if s.stagingFits length = true then s.modHost fun x =>
      { x with transfers := x.transfers ++ [⟨h, 0x0600, 0, ring, 0, length, 0⟩] } else s.finish h 0x0600 .busy 0 0 0) := by
  rw [exec_schedAdmit, execSchedAdmit, holder]
  exact congrArg Host.Outcome.next (s.awaitImage_valid h (by decide) hring (by decide) low high)

theorem exec_schedAdmit_standby (h : CmdHdr) (kind ring length : Nat) (standby : s.standby = true) :
    exec (.schedAdmit h kind ring length) s = .next (s.finish h 0x0600 .refused 0 0 0) := by
  rw [exec_schedAdmit, execSchedAdmit, if_pos standby]
  rfl

/-! ### What is mirrored to a standby (R772) -/

/-- A command that is mirrored goes to the link and the pair alone. -/
theorem State.mirrorOut_spec (m : MirrorCmd) :
    (s.mirrorOut m).regs = s.regs ∧ (s.mirrorOut m).sched = s.sched ∧ (s.mirrorOut m).units = s.units ∧
      (s.mirrorOut m).host = s.host := by
  unfold State.mirrorOut
  split
  · unfold State.sendPair
    dsimp only
    split <;> exact ⟨rfl, rfl, rfl, rfl⟩
  · exact ⟨rfl, rfl, rfl, rfl⟩

theorem State.get_of_regs {s t : State} (regs : t.regs = s.regs) (f : Fld) : t.get f = s.get f := by
  rw [State.get, regs]
  rfl

theorem State.bit_of_regs {s t : State} (regs : t.regs = s.regs) (f : Fld) : t.bit f = s.bit f := by
  rw [State.bit, State.get_of_regs regs]
  rfl

/-! ### ADMISSION_COMPLETE (R143, R144, R149) -/

theorem exec_admissionComplete : exec .admissionComplete s = execAdmissionComplete s := rfl

theorem exec_admissionComplete_idle (idle : s.sched.checking = []) : exec .admissionComplete s = .next s := by
  simp [exec_admissionComplete, execAdmissionComplete, idle]

/-- The state in which the oldest admission is taken from those in progress. -/
def State.takeAdmission (rest : List (CmdHdr × SchedImage)) : State :=
  (s.modSched fun q => { q with checking := rest }).putBit Reg.SCHED_STATUS_CHECKING (!rest.isEmpty)

theorem exec_admissionComplete_oldest {h : CmdHdr} {i : SchedImage} {rest : List (CmdHdr × SchedImage)}
    (oldest : s.sched.checking = (h, i) :: rest) :
    exec .admissionComplete s = .next (match (s.takeAdmission rest).admissionRefused h i with
      | some (st, detail) => (s.takeAdmission rest).finish h 0x0600 st detail 0 0
      | none => (s.takeAdmission rest).judgeImage h i) := by
  simp only [exec_admissionComplete, execAdmissionComplete, oldest]
  rfl

/-- CHECKING lies in no register that names the reference of an MPLL. -/
theorem State.refOf_takeAdmission (rest : List (CmdHdr × SchedImage)) (d : Nat) : (s.takeAdmission rest).refOf d = s.refOf d := by
  have kept (f : Fld) (lo : f.lo % 32 ≠ 2) : (s.takeAdmission rest).get f = s.get f :=
    State.get_put_ne _ (by simp only [Fld.key, Reg.SCHED_STATUS_CHECKING]; omega) _
  have src (k : Nat) := kept (Reg.CLK_MPLL_CAND_SRC d k) (by simp [Reg.CLK_MPLL_CAND_SRC])
  have sel (k : Nat) := kept (Reg.CLK_MPLL_CAND_SEL d k) (by simp [Reg.CLK_MPLL_CAND_SEL])
  have selected := kept (Reg.CLK_MPLL_STATE_SEL d) (by simp [Reg.CLK_MPLL_STATE_SEL])
  have valid : (s.takeAdmission rest).bit (Reg.CLK_MPLL_STATE_SEL_VALID d) = s.bit (Reg.CLK_MPLL_STATE_SEL_VALID d) :=
    congrArg (· % 2 == 1) (kept _ (by simp [Reg.CLK_MPLL_STATE_SEL_VALID]))
  simp only [State.refOf, src, sel, selected, valid]

section
variable {s} {h : CmdHdr} {i : SchedImage} {rest : List (CmdHdr × SchedImage)} (unarmed : s.pendingBank.armed = false)
  (cool : s.bit Reg.SCHED_STATUS_THERM_HOLD = false) (signed : (s.takeAdmission rest).checkSig i.sig 4 = none)
  (stay : movesRegion s.active i = false) (bridges : i.bridges.all (s.bridgeOk i) = true)
  (range : (s.takeAdmission rest).rangeRefused i (h.flags % 2 == 1) = none)
include unarmed cool signed stay bridges range

/-- With nothing else against it an image stands or falls with the nine checks. -/
theorem State.admissionRefused_checks : (s.takeAdmission rest).admissionRefused h i =
    ((s.takeAdmission rest).checks i).map fun x => (.noHeadroom, x.1 + x.2.1 * 2 ^ 8 + x.2.2 * 2 ^ 24) := by
  have hold : (s.takeAdmission rest).bit Reg.SCHED_STATUS_THERM_HOLD = false := (State.bit_put_ne _ (by decide) _).trans cool
  have ok : i.bridges.all ((s.takeAdmission rest).bridgeOk i) = true := by
    have same : (s.takeAdmission rest).bridgeOk i = s.bridgeOk i := by
      funext b
      simp only [State.bridgeOk, State.refOf_takeAdmission]
    rw [same, bridges]
  have free : (s.takeAdmission rest).pendingBank.armed = false := unarmed
  have regions : movesRegion (s.takeAdmission rest).active i = false := stay
  simp [State.admissionRefused, hold, ok, free, regions, signed, range]

end

theorem Completed.finish {s t : State} (host : t.host = s.host) (h : CmdHdr) (op : Nat) (st : Status) (detail si result : Nat) :
    Completed s (t.finish h op st detail si result) h op st detail si result := by
  rw [Completed, ← host]
  rfl

/-- The counters that an admitted schedule advances are registers (R739). -/
theorem State.advanceCounters_spec (i : SchedImage) :
    (s.advanceCounters i).sched = s.sched ∧ (s.advanceCounters i).units = s.units ∧ (s.advanceCounters i).host = s.host := by
  refine State.each_keeps (fun t => t.sched = s.sched ∧ t.units = s.units ∧ t.host = s.host) _ (fun v t same => ?_) s _ ⟨rfl, rfl, rfl⟩
  unfold State.raise
  split <;> exact same

/-- The pending bank with an image that has passed (R149). -/
def State.bankImage (h : CmdHdr) (i : SchedImage) : State :=
  s.setPendingBank { image := some i, armed := false, switchSi := 0, hdr := some h }

/-- R149: an image that passes with TARGET all ones takes the pending bank unarmed. -/
theorem State.judgeImage_unarmed (i : SchedImage) {h : CmdHdr} (target : h.target = unarmed) :
    Completed s (s.judgeImage h i) h 0x0600 .ok 0 0 0 ∧ (s.judgeImage h i).sched = (s.bankImage h i).sched ∧
      (s.judgeImage h i).bit Reg.SCHED_STATUS_NONE = false ∧ (s.judgeImage h i).units = s.units := by
  obtain ⟨sched, units, host⟩ := (s.bankImage h i).advanceCounters_spec i
  have run : s.judgeImage h i = ((((((s.bankImage h i).advanceCounters i).put Reg.SCHED_STATUS_NONE 0).set
      Reg.SCHED_SLICE_ST_LOCKED).mirrorOut (.schedule i h.flags unarmed)).ok h 0x0600) := if_pos target
  generalize (s.bankImage h i).advanceCounters i = a at sched units host run
  obtain ⟨regs', sched', units', host'⟩ := ((a.put Reg.SCHED_STATUS_NONE 0).set Reg.SCHED_SLICE_ST_LOCKED).mirrorOut_spec
    (.schedule i h.flags unarmed)
  generalize State.mirrorOut _ _ = t at regs' sched' units' host' run
  rw [run]
  exact ⟨.finish (host'.trans host) h 0x0600 .ok 0 0 0, sched'.trans sched,
    (State.bit_of_regs regs' _).trans ((State.bit_put_ne _ (by decide) _).trans (State.bit_put_same a rfl 0)), units'.trans units⟩

/-! ### SCHED_ADMIT_ARM (R149–R151) -/

theorem exec_schedAdmitArm (h : CmdHdr) : exec (.schedAdmitArm h) s = execSchedAdmitArm h s := rfl

theorem exec_schedAdmitArm_empty (h : CmdHdr) (empty : s.pendingBank.image = none) :
    exec (.schedAdmitArm h) s = .next (s.finish h 0x0601 .refused 0 0 0) := by
  simp [exec_schedAdmitArm, execSchedAdmitArm, empty, State.refuse]

section
variable {s} {h : CmdHdr} {i : SchedImage} (image : s.pendingBank.image = some i) (holder : s.standby = false)
  (target : h.target ≠ unarmed)
include image holder target

theorem exec_schedAdmitArm_busy (armed : s.pendingBank.armed = true) :
    exec (.schedAdmitArm h) s = .next (s.finish h 0x0601 .busy 0 0 0) := by
  simp [exec_schedAdmitArm, execSchedAdmitArm, image, holder, target, armed, State.refuse]

/-- The header under which a pending image is armed: its flags are those of its admission (R149). -/
def State.armHdr (s : State) (h : CmdHdr) : CmdHdr := { h with flags := (s.pendingBank.hdr.getD {}).flags }

theorem exec_schedAdmitArm_arms (free : s.pendingBank.armed = false)
    (shares : s.switchSharesOk i (s.applyAt 0 h.target).1 = true)
    (fit : (s.armBank (s.applyAt 0 h.target).1 (s.armHdr h)).poursFit = true) :
    exec (.schedAdmitArm h) s = .next (((s.armBank (s.applyAt 0 h.target).1 (s.armHdr h)).mirrorOut
      (.arm (s.applyAt 0 h.target).1)).finish h 0x0601 (if (s.applyAt 0 h.target).2 then .late else .ok) 0
        (s.applyAt 0 h.target).1 0) := by
  have go : ¬(s.standby || h.target == unarmed) = true := by simp [holder, target]
  unfold State.armHdr at fit
  simp only [exec_schedAdmitArm, execSchedAdmitArm, image, if_neg go, free, shares, fit, State.armHdr, Bool.not_true,
    Bool.false_eq_true, if_false]

omit holder target in
/-- What arming leaves (R149, R150, R166). -/
theorem State.armBank_spec (si : Nat) (g : CmdHdr) :
    (s.armBank si g).pendingBank = { image := some i, armed := true, switchSi := si, hdr := some g } ∧
      (s.armBank si g).active = s.active ∧ (s.armBank si g).bit Reg.SCHED_STATUS_PENDING = true ∧
      (s.armBank si g).get Reg.SCHED_SWITCH_SI_SI = si % 2 ^ 64 ∧ (s.armBank si g).units = s.units ∧
      (s.armBank si g).host = s.host := by
  obtain ⟨pending, active, -⟩ := s.setPendingBank_banks { image := some i, armed := true, switchSi := si, hdr := some g }
  unfold State.armBank
  rw [image]
  exact ⟨pending, active, (State.bit_put_ne _ (by decide) _).trans (State.bit_put_same _ rfl 1), State.get_put_same _ _ _, rfl, rfl⟩

end

end Sys2Proof.Machine

namespace Sys2Proof.Machine

/-- Settles O25. That staging without room answers BUSY is log 153. -/
theorem imagesAndAdmission : Obligations.ImagesAndAdmission := by
  unfold Obligations.ImagesAndAdmission
  refine ⟨fun h kind ring entry length s hring low high =>
      ⟨exec_progLoad_valid s h hring low high, ?_, exec_schedAdmit_standby s h kind ring length⟩,
    exec_admissionComplete_idle, fun h s => exec_schedAdmitArm_empty s h,
    fun s h i rest oldest free cool signed stay bridges range => ?_,
    fun s h i image => ⟨fun free holder target shares fit => ?_, fun armed holder target =>
      exec_schedAdmitArm_busy image holder target armed⟩⟩
  · rintro rfl holder
    exact exec_schedAdmit_valid s h hring low high holder
  · have judged := State.admissionRefused_checks free cool signed stay bridges range
    have run := exec_admissionComplete_oldest s oldest
    rw [judged] at run
    refine ⟨fun n e d fails => ?_, fun passes target => ?_⟩
    · rw [show (s.takeAdmission rest).checks i = some (n, e, d) from fails] at run
      exact ⟨_, run, rfl, rfl, rfl⟩
    · rw [show (s.takeAdmission rest).checks i = none from passes] at run
      obtain ⟨done, sched, none, units⟩ := (s.takeAdmission rest).judgeImage_unarmed i target
      obtain ⟨pending, active, checking⟩ := (s.takeAdmission rest).setPendingBank_banks
        { image := some i, armed := false, switchSi := 0, hdr := some h }
      obtain ⟨samePending, sameActive, sameChecking⟩ := State.banks_of_sched sched
      exact ⟨_, run, done, samePending.trans pending, sameActive.trans active, sameChecking.trans checking, none, units⟩
  · have run := exec_schedAdmitArm_arms image holder target free shares fit
    obtain ⟨pending, active, shown, si, units, host⟩ := State.armBank_spec image (s.applyAt 0 h.target).1 (s.armHdr h)
    obtain ⟨regs, sched, -, sameHost⟩ := (s.armBank (s.applyAt 0 h.target).1 (s.armHdr h)).mirrorOut_spec
      (.arm (s.applyAt 0 h.target).1)
    obtain ⟨samePending, sameActive, -⟩ := State.banks_of_sched sched
    exact ⟨_, run, .finish (sameHost.trans host) _ _ _ _ _ _, samePending.trans pending, sameActive.trans active,
      (State.bit_of_regs regs _).trans shown, (State.get_of_regs regs _).trans si⟩

end Sys2Proof.Machine
end

