-- ==== Sys2Proof/Proofs/FiringCut.lean ====
section
/-! PROOF. The cut of a firing (R145, R156–R160, R166–R168). -/

namespace Sys2Proof

/-! ### Words of a memory -/

theorem Memory.readBytes_eq_map (m : Memory) (a n : Nat) : m.readBytes a n = (List.range n).map fun k => m.read (a + k) := by
  induction n generalizing a with
  | zero => rfl
  | succ n ih => simp [Memory.readBytes, ih, List.range_succ_eq_map, Nat.add_assoc, Nat.add_comm 1]

theorem bytesToNat_natToBytes (n v : Nat) : bytesToNat (natToBytes n v) = v % 2 ^ (8 * n) := by
  induction n generalizing v with
  | zero => simp [natToBytes, bytesToNat, Nat.mod_one]
  | succ n ih =>
    rw [natToBytes, bytesToNat, ih, BitVec.toNat_ofNat, show 2 ^ (8 * (n + 1)) = 256 * 2 ^ (8 * n) by ring, Nat.mod_mul]

/-- A word that has been stored is read back. -/
theorem Memory.read32_writeNat_same (m : Memory) (a : Nat) (w : Word) : Memory.read32 (Memory.writeNat m a 4 w.toNat) a = w := by
  have bytes : (Memory.writeNat m a 4 w.toNat).readBytes a 4 = natToBytes 4 w.toNat := by
    rw [Memory.readBytes_eq_map]
    refine List.ext_getElem (by simp) fun k _ h => ?_
    simp only [List.getElem_map, List.getElem_range]
    exact Memory.read_writeBytes_inside m a k _ h
  rw [Memory.read32, bytes, bytesToNat_natToBytes, Nat.mod_eq_of_lt w.isLt, BitVec.ofNat_toNat, BitVec.setWidth_eq]

/-- A word apart from the stored one is as before. -/
theorem Memory.read32_writeNat_apart (m : Memory) {a b : Nat} (apart : b + 4 ≤ a ∨ a + 4 ≤ b) (v : Nat) :
    Memory.read32 (Memory.writeNat m a 4 v) b = Memory.read32 m b := by
  have bytes : (Memory.writeNat m a 4 v).readBytes b 4 = m.readBytes b 4 := by
    rw [Memory.readBytes_eq_map, Memory.readBytes_eq_map]
    refine List.map_congr_left fun k hk => Memory.read_writeBytes_outside m a (b + k) _ ?_
    rw [natToBytes_length]
    have := List.mem_range.1 hk
    omega
  rw [Memory.read32, bytes, Memory.read32]

end Sys2Proof

namespace Sys2Proof.Machine

/-- What a fold over a list keeps, if the step of each of its members does. -/
theorem State.each_keeps_mem {α : Type} (p : State → Prop) (f : α → State → State) (s : State) (l : List α)
    (h : ∀ x ∈ l, ∀ t, p t → p (f x t)) (hs : p s) : p (s.each l f) := by
  unfold State.each
  induction l generalizing s with
  | nil => exact hs
  | cons x l ih =>
    obtain ⟨first, rest⟩ := List.forall_mem_cons.1 h
    exact ih _ rest (first s hs)

variable (s : State)

/-! ### The block of an output destination (R157, R172, R286) -/

/-- The output stage, delay memory, package DRAM or shared memory differ, and nothing else does. -/
def SameButOutputs (s t : State) : Prop :=
  ∃ stage dly dram shm, t = { s with stage := stage, dly := dly, dram := dram, shm := shm }

variable {s} in
theorem SameButOutputs.trans {t u : State} (a : SameButOutputs s t) (b : SameButOutputs t u) : SameButOutputs s u := by
  obtain ⟨_, _, _, _, rfl⟩ := a
  obtain ⟨_, _, _, _, rfl⟩ := b
  exact ⟨_, _, _, _, rfl⟩

theorem SameButOutputs.refl : SameButOutputs s s := ⟨_, _, _, _, rfl⟩

theorem SameButOutputs.spaceWrite (k a : Nat) (w : Word) : SameButOutputs s (s.spaceWrite k a w) := by
  unfold State.spaceWrite
  split <;> exact ⟨_, _, _, _, rfl⟩

theorem SameButOutputs.writeOut (c b x : Nat) (o : OutDest) (f : Nat → Word) : SameButOutputs s (s.writeOut c b x o f) := by
  refine State.each_keeps (SameButOutputs s) _ (fun n t same => ?_) s _ (.refl s)
  split
  · exact same.trans (.spaceWrite t _ _ _)
  · exact same

/-- The stage takes a block of SPACE 1, and nothing else differs. -/
theorem State.writeOut_stage (c b x : Nat) {o : OutDest} (space : o.space = 1) (f : Nat → Word) :
    ∃ m, s.writeOut c b x o f = { s with stage := m } := by
  refine State.each_keeps (fun t => ∃ m, t = { s with stage := m }) _ ?_ s _ ⟨_, rfl⟩
  rintro n _ ⟨m, rfl⟩
  rw [space]
  split
  · exact ⟨_, rfl⟩
  · exact ⟨_, rfl⟩

/-- A block at its address in package DRAM, sample by sample. -/
theorem State.writeOut_dram (c b x : Nat) {o : OutDest} (space : o.space = 3) (line : o.line = 0) (f : Nat → Word) {n : Nat}
    (inBlock : n < b) : Memory.read32 (s.writeOut c b x o f).dram (o.addr + 4 * n) = f n := by
  have steps : s.writeOut c b x o f = s.each (List.range b) fun n t =>
      { t with dram := Memory.writeNat t.dram (o.addr + 4 * n) 4 (f n).toNat } := by
    simp [State.writeOut, State.outAt, State.spaceWrite, space, line]
  rw [steps]
  clear steps
  induction b with
  | zero => exact absurd inBlock (Nat.not_lt_zero n)
  | succ b ih =>
    have last (g : Nat → State → State) : s.each (List.range (b + 1)) g = g b (s.each (List.range b) g) := by
      simp [State.each, List.range_succ]
    rw [last]
    by_cases e : n = b
    · rw [e]
      exact Memory.read32_writeNat_same _ _ _
    · exact (Memory.read32_writeNat_apart _ (by omega) _).trans (ih (by omega))

/-! ### The parts of a cut (R157) -/

/-- A unit that a cut stops: its registers stay. -/
def UnitSt.cutOff (x : UnitSt) : UnitSt :=
  { x with wait := .halted, readNew := none, readBuf := none, writeNew := none, writeBuf := none, flight := [], dmaOut := 0 }

/-- A cluster whose firing is cut after `n` cycles. -/
def ClusterSt.cutOff (x : ClusterSt) (n : Nat) : ClusterSt :=
  { x with firing := none, dmaQueue := [], dmaRun := none, zeroing := true, retention := true, cycFrame := x.cycFrame + n }

def ClusterSt.forget (x : ClusterSt) : ClusterSt := { x with lastSample := [] }

/-- Every unit is stopped, the grants of the DMA are given up and the cluster goes to retention. -/
def State.stopFiring (c : Nat) : State := ((s.haltUnits c).dropGrants c).modCluster c (·.cutOff (s.cycles c))

/-- The outputs of the firing fade over a block from the samples that the cluster `x` has kept. -/
def State.fadeFiring (c block : Nat) (f : Firing) (x : ClusterSt) : State :=
  s.each f.entry.outputs fun o t => t.writeOut c block f.fsi o (fadeSample block (Tab.get 0 x.lastSample o.key))

/-- The record of a first cut. -/
def State.recordCut (c cause : Nat) (f : Firing) (fade lost : Bool) (n si : Nat) : State :=
  (((((s.put (Reg.FABRIC_CL_CUT_CAUSE c) cause).put (Reg.FABRIC_CL_CUT_FIRING c) f.entry.index.val).putBit
    (Reg.FABRIC_CL_CUT_PAIR_FADE c) fade).putBit (Reg.FABRIC_CL_CUT_WLOST_ANY c) lost).put (Reg.FABRIC_CL_CUT_EXEC c)
      (min n 0xFFFFFF)).put (Reg.FABRIC_CL_CUT_SI_SI c) si

/-- The quarantine of a cut cluster, and the record where `s` shows no cut. -/
def State.quarantine (t : State) (c cause : Nat) (f : Firing) : State :=
  let q := t.setMask Reg.SCHED_QUAR_QUAR c
  if s.get (Reg.FABRIC_CL_CUT_CAUSE c) = 0 then
    q.recordCut c cause f (!(s.fadingIn c f.fsi (s.dom f.domain).block).isEmpty) (s.get (Reg.FABRIC_CL_WLOST_WLOST c) != 0)
      (s.cycles c) (s.toP f.domain f.fsi)
  else q

/-- A pour, and a command that waits, of a crossfade in the block that is cut. -/
def Crossfade.markPour (x : Crossfade) (p : Pour) : Pour := if x.pours.contains (p.origin, p.tag) then { p with cutSeen := true } else p
def Crossfade.markWait (x : Crossfade) (w : FadeWait) : FadeWait := if x.waiters.contains w.id then { w with cutSeen := true } else w

def State.markFade (x : Crossfade) (t : State) : State :=
  { t with pours := { t.pours with live := t.pours.live.map x.markPour }, mix := { t.mix with waits := t.mix.waits.map x.markWait } }

/-- The crossfades in the block are gone, and what they carry is told. -/
def State.dropFades (fades : List Crossfade) : State :=
  (s.modMix fun m => { m with fades := m.fades.filter fun x => !fades.contains x }).each fades State.markFade

/-- The cut is counted and posted. -/
def State.countCut (c cause si : Nat) : State :=
  (s.errSeen.bump Reg.SCHED_CUT_CNT_COUNT).post .fault (some 53) { code := 0x10, si := si, body := [c, cause] }

variable {s} {c : Nat} {f : Firing}

theorem State.cut_eq (firing : (s.cluster c).firing = some f) (cause : Nat) :
    s.cut c cause = (((s.quarantine (((s.stopFiring c).fadeFiring c (s.dom f.domain).block f (s.cluster c)).modCluster c
      ClusterSt.forget) c cause f).dropFades (s.fadingIn c f.fsi (s.dom f.domain).block)).countCut c cause
        (s.toP f.domain f.fsi)) := by
  unfold State.cut
  rw [firing]
  rfl

/-! ### What the parts leave -/

variable (s)

/-- Units from `a` on change one by one. -/
theorem State.unit_each_modUnit (a n v : Nat) (g : Nat → UnitSt → UnitSt) :
    (s.each (List.range n) fun u t => t.modUnit (a + u) (g u)).unit v =
      if a ≤ v ∧ v < a + n then g (v - a) (s.unit v) else s.unit v := by
  induction n with
  | zero => rw [if_neg (by omega)]; rfl
  | succ n ih =>
    have last (h : Nat → State → State) : s.each (List.range (n + 1)) h = h n (s.each (List.range n) h) := by
      simp [State.each, List.range_succ]
    rw [last, State.unit_modUnit]
    by_cases e : v = a + n
    · subst e
      rw [if_pos rfl, ih, if_neg (by omega), if_pos (by omega), Nat.add_sub_cancel_left]
    · have iff : a ≤ v ∧ v < a + (n + 1) ↔ a ≤ v ∧ v < a + n := by omega
      rw [if_neg e, ih, if_congr iff rfl rfl]

theorem State.each_modUnit_units {α : Type} (l : List α) (n : α → Nat) (g : α → UnitSt → UnitSt) :
    ∃ x, (s.each l fun u t => t.modUnit (n u) (g u)) = { s with units := x } := by
  refine State.each_keeps (fun t => ∃ x, t = { s with units := x }) _ ?_ s l ⟨_, rfl⟩
  rintro u _ ⟨x, rfl⟩
  exact ⟨_, rfl⟩

theorem State.dropGrants_xbar (c : Nat) : ∃ x, s.dropGrants c = { s with xbar := x } := by
  refine State.each_keeps (fun t => ∃ x, t = { s with xbar := x }) _ ?_ s _ ⟨_, rfl⟩
  rintro k _ ⟨x, rfl⟩
  dsimp only
  split
  · exact ⟨_, rfl⟩
  · exact ⟨x, rfl⟩

/-- What cuts and firings share of the state: units, clusters, programs and memories. -/
structure SameFabric (s t : State) : Prop where
  units : t.units = s.units
  clusters : t.clusters = s.clusters
  prog : t.prog = s.prog
  lmem : t.lmem = s.lmem
  shm : t.shm = s.shm
  dram : t.dram = s.dram
  dly : t.dly = s.dly

variable {s} in
theorem SameFabric.trans {t u : State} (a : SameFabric s t) (b : SameFabric t u) : SameFabric s u :=
  ⟨b.units.trans a.units, b.clusters.trans a.clusters, b.prog.trans a.prog, b.lmem.trans a.lmem, b.shm.trans a.shm,
    b.dram.trans a.dram, b.dly.trans a.dly⟩

theorem SameFabric.put (f : Fld) (v : Nat) : SameFabric s (s.put f v) := ⟨rfl, rfl, rfl, rfl, rfl, rfl, rfl⟩

theorem SameFabric.recordCut (c cause : Nat) (f : Firing) (fade lost : Bool) (n si : Nat) :
    SameFabric s (s.recordCut c cause f fade lost n si) :=
  (((((SameFabric.put s _ _).trans (.put _ _ _)).trans (.put _ _ _)).trans (.put _ _ _)).trans (.put _ _ _)).trans (.put _ _ _)

theorem SameFabric.quarantine (t : State) (c cause : Nat) (f : Firing) : SameFabric t (s.quarantine t c cause f) := by
  have marked : SameFabric t (t.setMask Reg.SCHED_QUAR_QUAR c) := .put t _ _
  unfold State.quarantine
  dsimp only
  split
  · exact marked.trans (.recordCut _ _ _ _ _ _ _ _)
  · exact marked

theorem State.dropFades_regs (l : List Crossfade) : (s.dropFades l).regs = s.regs :=
  State.each_keeps (fun t => t.regs = s.regs) State.markFade (fun _ _ h => h) _ l rfl

theorem SameFabric.dropFades (l : List Crossfade) : SameFabric s (s.dropFades l) :=
  State.each_keeps (SameFabric s) State.markFade (fun _ _ h => h.trans ⟨rfl, rfl, rfl, rfl, rfl, rfl, rfl⟩) _ l ⟨rfl, rfl, rfl, rfl, rfl, rfl, rfl⟩

theorem SameFabric.countCut (c cause si : Nat) : SameFabric s (s.countCut c cause si) := by
  have posted := SameButHost.post (s.errSeen.bump Reg.SCHED_CUT_CNT_COUNT) .fault (some 53)
    { code := 0x10, si := si, body := [c, cause] }
  exact ⟨posted.units, posted.clusters, posted.prog, posted.lmem, posted.shm, posted.dram, posted.dly⟩

/-- A stopped firing: the units of its cluster halt, and the cluster goes to retention. -/
theorem State.stopFiring_spec (c : Nat) :
    (∀ v, (s.stopFiring c).unit v = if 8 * c ≤ v ∧ v < 8 * c + 8 then (s.unit v).cutOff else s.unit v) ∧
      (∀ k, (s.stopFiring c).cluster k = if k = c then (s.cluster c).cutOff (s.cycles c) else s.cluster k) ∧
      (s.stopFiring c).regs = s.regs ∧ (s.stopFiring c).prog = s.prog ∧ (s.stopFiring c).lmem = s.lmem ∧
      (s.stopFiring c).shm = s.shm ∧ (s.stopFiring c).dram = s.dram ∧ (s.stopFiring c).dly = s.dly := by
  have halted (v : Nat) : (s.haltUnits c).unit v = _ := s.unit_each_modUnit (8 * c) 8 v fun _ => UnitSt.cutOff
  obtain ⟨x, units⟩ : ∃ x, s.haltUnits c = { s with units := x } :=
    s.each_modUnit_units (List.range 8) (8 * c + ·) fun _ => UnitSt.cutOff
  unfold State.stopFiring
  rw [units] at halted ⊢
  obtain ⟨y, xbar⟩ := State.dropGrants_xbar { s with units := x } c
  rw [xbar]
  exact ⟨halted, fun k => State.cluster_modCluster _ c k _, rfl, rfl, rfl, rfl, rfl, rfl⟩

theorem SameButOutputs.fadeFiring (c b : Nat) (f : Firing) (x : ClusterSt) : SameButOutputs s (s.fadeFiring c b f x) :=
  State.each_keeps (SameButOutputs s) _ (fun _ t same => same.trans (.writeOut t _ _ _ _ _)) s _ (.refl s)

theorem State.fadeFiring_stage (c b : Nat) {f : Firing} (x : ClusterSt) (stage : ∀ o ∈ f.entry.outputs, o.space = 1) :
    ∃ m, s.fadeFiring c b f x = { s with stage := m } := by
  refine State.each_keeps_mem (fun t => ∃ m, t = { s with stage := m }) _ s _ (fun o mem => ?_) ⟨_, rfl⟩
  rintro _ ⟨m, rfl⟩
  exact State.writeOut_stage { s with stage := m } c b f.fsi (stage o mem) _

/-! ### The registers of a cut (R160, R166) -/

theorem State.setMask_testBit (f : Fld) {k : Nat} (width : k < f.w) : ((s.setMask f k).get f).testBit k = true := by
  rw [State.setMask, State.get_put_same, Nat.testBit_mod_two_pow]
  simp [width, Nat.testBit_or]

/-- A register outside the FABRIC block is none of it. -/
theorem Fld.key_ne_fabric {f g : Fld} (hf : f.off < 0x20000) (lo : f.lo < 32) (hg : 0x20000 ≤ g.off) : f.key ≠ g.key := by
  unfold Fld.key
  omega

theorem State.recordCut_get (c cause : Nat) (f : Firing) (fade lost : Bool) (n si : Nat) {g : Fld} (off : g.off < 0x20000)
    (lo : g.lo < 32) : (s.recordCut c cause f fade lost n si).get g = s.get g := by
  unfold State.recordCut State.putBit
  rw [State.get_put_ne, State.get_put_ne, State.get_put_ne, State.get_put_ne, State.get_put_ne, State.get_put_ne]
  all_goals exact Fld.key_ne_fabric off lo (Nat.le_add_right_of_le (by decide))

/-- The record that a first cut leaves. -/
theorem State.recordCut_shows (c : Nat) {cause : Nat} (width : cause < 16) (f : Firing) (fade lost : Bool) (n si : Nat) :
    (s.recordCut c cause f fade lost n si).get (Reg.FABRIC_CL_CUT_CAUSE c) = cause ∧
      (s.recordCut c cause f fade lost n si).get (Reg.FABRIC_CL_CUT_FIRING c) = f.entry.index.val ∧
      (s.recordCut c cause f fade lost n si).get (Reg.FABRIC_CL_CUT_SI_SI c) = si % 2 ^ 64 := by
  have apart : (0x200c0 + 0x400 * c) * 32 + 4 ≠ (0x200c8 + 0x400 * c) * 32 := by omega
  simp [State.recordCut, State.putBit, State.get_put, Fld.key, Reg.FABRIC_CL_CUT_CAUSE, Reg.FABRIC_CL_CUT_FIRING,
    Reg.FABRIC_CL_CUT_PAIR_FADE, Reg.FABRIC_CL_CUT_WLOST_ANY, Reg.FABRIC_CL_CUT_EXEC, Reg.FABRIC_CL_CUT_SI_SI,
    Nat.mod_eq_of_lt width, Nat.mod_eq_of_lt f.entry.index.isLt, apart]

/-- What a cut shows: the quarantine, and the record where none was there (R160). -/
theorem State.quarantine_shows (t : State) {c cause : Nat} (cluster : c < 64) (width : cause < 16) (f : Firing) :
    ((s.quarantine t c cause f).get Reg.SCHED_QUAR_QUAR).testBit c = true ∧
      (s.quarantine t c cause f).get Reg.SCHED_CUT_CNT_COUNT = t.get Reg.SCHED_CUT_CNT_COUNT ∧
      (s.get (Reg.FABRIC_CL_CUT_CAUSE c) = 0 → (s.quarantine t c cause f).get (Reg.FABRIC_CL_CUT_CAUSE c) = cause ∧
        (s.quarantine t c cause f).get (Reg.FABRIC_CL_CUT_FIRING c) = f.entry.index.val ∧
        (s.quarantine t c cause f).get (Reg.FABRIC_CL_CUT_SI_SI c) = s.toP f.domain f.fsi % 2 ^ 64) := by
  have quarantined := t.setMask_testBit Reg.SCHED_QUAR_QUAR cluster
  have count : (t.setMask Reg.SCHED_QUAR_QUAR c).get Reg.SCHED_CUT_CNT_COUNT = t.get Reg.SCHED_CUT_CNT_COUNT :=
    State.get_put_ne t (by decide) _
  unfold State.quarantine
  dsimp only
  split
  · refine ⟨?_, ?_, fun _ => State.recordCut_shows _ c width f _ _ _ _⟩
    · rwa [State.recordCut_get (g := Reg.SCHED_QUAR_QUAR) _ _ _ _ _ _ _ _ (by decide) (by decide)]
    · rwa [State.recordCut_get (g := Reg.SCHED_CUT_CNT_COUNT) _ _ _ _ _ _ _ _ (by decide) (by decide)]
  · next recorded => exact ⟨quarantined, count, fun none => absurd none recorded⟩

theorem State.countCut_get (c cause si : Nat) {g : Fld} (outside : g.outsideHost) (lo : g.lo < 32) :
    (s.countCut c cause si).get g = (s.bump Reg.SCHED_CUT_CNT_COUNT).get g :=
  (SameButHost.post (s.errSeen.bump Reg.SCHED_CUT_CNT_COUNT) _ _ _).get g lo outside

theorem State.countCut_counts (c cause si : Nat) :
    (s.countCut c cause si).get Reg.SCHED_CUT_CNT_COUNT = min (s.get Reg.SCHED_CUT_CNT_COUNT + 1) (2 ^ 32 - 1) := by
  rw [State.countCut_get (g := Reg.SCHED_CUT_CNT_COUNT) s c cause si (.inr (by decide)) (by decide)]
  exact State.get_put_lt s Reg.SCHED_CUT_CNT_COUNT _ (Nat.lt_of_le_of_lt (min_le_right _ (2 ^ 32 - 1)) (by decide))

theorem State.countCut_get_ne (c cause si : Nat) {g : Fld} (outside : g.outsideHost) (lo : g.lo < 32)
    (apart : g.key ≠ Reg.SCHED_CUT_CNT_COUNT.key) : (s.countCut c cause si).get g = s.get g :=
  (s.countCut_get c cause si outside lo).trans (State.get_put_ne s apart _)

/-- Telling of a cut leaves every register of the cluster. -/
theorem State.tellCut_get (l : List Crossfade) (c cause si : Nat) {g : Fld} (outside : g.outsideHost) (lo : g.lo < 32)
    (apart : g.key ≠ Reg.SCHED_CUT_CNT_COUNT.key) : ((s.dropFades l).countCut c cause si).get g = s.get g :=
  (State.countCut_get_ne _ c cause si outside lo apart).trans (State.get_of_regs (s.dropFades_regs l) g)

theorem State.tellCut_get_fabric (l : List Crossfade) (c cause si : Nat) {g : Fld} (off : 0x20000 ≤ g.off) (lo : g.lo < 32) :
    ((s.dropFades l).countCut c cause si).get g = s.get g :=
  s.tellCut_get l c cause si (.inr (Nat.le_trans (by decide) off)) lo (Fld.key_ne_fabric (by decide) (by decide) off).symm

/-! ### The cut as a whole (R157, R160, R166, R167) -/

section Whole
variable {s} {c : Nat} {f : Firing} (firing : (s.cluster c).firing = some f)
include firing

/-- The state of a cut before its registers, and the rest that the cut leaves as it is there. -/
theorem State.cut_fabric (cause : Nat) :
    SameFabric (((s.stopFiring c).fadeFiring c (s.dom f.domain).block f (s.cluster c)).modCluster c ClusterSt.forget)
      (s.cut c cause) := by
  rw [State.cut_eq firing]
  exact ((SameFabric.quarantine s _ c cause f).trans (.dropFades _ _)).trans (.countCut _ _ _ _)

/-- The units and clusters that a cut leaves. -/
theorem State.cut_units (cause : Nat) :
    (∀ v, (s.cut c cause).unit v = if 8 * c ≤ v ∧ v < 8 * c + 8 then (s.unit v).cutOff else s.unit v) ∧
      (∀ k, (s.cut c cause).cluster k = if k = c then ((s.cluster c).cutOff (s.cycles c)).forget else s.cluster k) ∧
      (s.cut c cause).prog = s.prog ∧ (s.cut c cause).lmem = s.lmem := by
  obtain ⟨units, clusters, prog, lmem, -, -, -⟩ := State.cut_fabric firing cause
  obtain ⟨unit, cluster, -, sameProg, sameLmem, -, -, -⟩ := s.stopFiring_spec c
  obtain ⟨m1, m2, m3, m4, faded⟩ := SameButOutputs.fadeFiring (s.stopFiring c) c (s.dom f.domain).block f (s.cluster c)
  rw [faded] at units clusters prog lmem
  refine ⟨fun v => (State.unit_of_units units v).trans (unit v), fun k => ?_, prog.trans sameProg, lmem.trans sameLmem⟩
  rw [State.cluster, clusters]
  refine (State.cluster_modCluster _ c k ClusterSt.forget).trans ?_
  change (if k = c then ((s.stopFiring c).cluster c).forget else (s.stopFiring c).cluster k) = _
  rw [cluster, cluster, if_pos rfl]
  split <;> rfl

/-- Where every output is in the stage, the other memories keep their bytes. -/
theorem State.cut_stage (cause : Nat) (stage : ∀ o ∈ f.entry.outputs, o.space = 1) :
    (s.cut c cause).shm = s.shm ∧ (s.cut c cause).dram = s.dram ∧ (s.cut c cause).dly = s.dly := by
  obtain ⟨-, -, -, -, shm, dram, dly⟩ := State.cut_fabric firing cause
  obtain ⟨-, -, -, -, -, sameShm, sameDram, sameDly⟩ := s.stopFiring_spec c
  obtain ⟨m, faded⟩ := (s.stopFiring c).fadeFiring_stage c (s.dom f.domain).block (s.cluster c) stage
  rw [faded] at shm dram dly
  exact ⟨shm.trans sameShm, dram.trans sameDram, dly.trans sameDly⟩

/-- One output in package DRAM fades sample by sample. -/
theorem State.cut_fades (cause : Nat) {o : OutDest} (only : f.entry.outputs = [o]) (space : o.space = 3) (line : o.line = 0)
    {n : Nat} (inBlock : n < (s.dom f.domain).block) :
    Memory.read32 (s.cut c cause).dram (o.addr + 4 * n) =
      fadeSample (s.dom f.domain).block (Tab.get 0 (s.cluster c).lastSample o.key) n := by
  obtain ⟨-, -, -, -, -, dram, -⟩ := State.cut_fabric firing cause
  rw [dram, State.modCluster_dram, State.fadeFiring, only]
  exact State.writeOut_dram _ c _ f.fsi space line _ inBlock

/-- What a cut shows. -/
theorem State.cut_shows {cause : Nat} (cluster : c < 64) (width : cause < 16) :
    (s.cut c cause).quarantined c = true ∧
      (s.cut c cause).get Reg.SCHED_CUT_CNT_COUNT = min (s.get Reg.SCHED_CUT_CNT_COUNT + 1) (2 ^ 32 - 1) ∧
      (s.get (Reg.FABRIC_CL_CUT_CAUSE c) = 0 → (s.cut c cause).get (Reg.FABRIC_CL_CUT_CAUSE c) = cause ∧
        (s.cut c cause).get (Reg.FABRIC_CL_CUT_FIRING c) = f.entry.index.val ∧
        (s.cut c cause).get (Reg.FABRIC_CL_CUT_SI_SI c) = s.toP f.domain f.fsi % 2 ^ 64) := by
  rw [State.cut_eq firing]
  generalize before : ((s.stopFiring c).fadeFiring c _ f _).modCluster c ClusterSt.forget = t
  have regs : t.regs = s.regs := by
    obtain ⟨m1, m2, m3, m4, faded⟩ := SameButOutputs.fadeFiring (s.stopFiring c) c (s.dom f.domain).block f (s.cluster c)
    obtain ⟨-, -, sameRegs, -⟩ := s.stopFiring_spec c
    rw [← before, faded]
    exact sameRegs
  obtain ⟨quar, count, recorded⟩ := s.quarantine_shows t cluster width f
  refine ⟨?_, ?_, fun first => ?_⟩
  · rwa [State.quarantined, State.tellCut_get (g := Reg.SCHED_QUAR_QUAR) _ _ _ _ _ (.inr (by decide)) (by decide) (by decide)]
  · rw [State.countCut_counts, State.get_of_regs (State.dropFades_regs _ _), count, State.get_of_regs regs]
  · rw [State.tellCut_get_fabric (g := Reg.FABRIC_CL_CUT_CAUSE c) _ _ _ _ _ (Nat.le_add_right_of_le (by decide)) (Nat.zero_lt_succ _),
      State.tellCut_get_fabric (g := Reg.FABRIC_CL_CUT_FIRING c) _ _ _ _ _ (Nat.le_add_right_of_le (by decide)) (Nat.lt_of_sub_eq_succ rfl),
      State.tellCut_get_fabric (g := Reg.FABRIC_CL_CUT_SI_SI c) _ _ _ _ _ (Nat.le_add_right_of_le (by decide)) (Nat.zero_lt_succ _)]
    exact recorded first

end Whole

/-! ### The two commands that cut (R145, R156) -/

section Commands
variable {s : State} {f : Firing} (c : Fin 64)

theorem exec_firingBudgetExhausted :
    exec (.firingBudgetExhausted c) s = .next (if s.budgetSpent c.val then s.cut c.val 1 else s) := rfl

theorem exec_executionDeadline : exec (.executionDeadline c) s = .next (s.cut c.val (if s.budgetSpent c.val then 1 else 2)) := rfl

theorem State.budgetSpent_of_none (idle : (s.cluster c).firing = none) : s.budgetSpent c = false := by rw [State.budgetSpent, idle]

theorem State.budgetSpent_of_some (firing : (s.cluster c).firing = some f) : s.budgetSpent c = decide (f.budget ≤ s.cycles c) := by
  rw [State.budgetSpent, firing]

theorem State.cut_of_none (idle : (s.cluster c).firing = none) (cause : Nat) : s.cut c cause = s := by rw [State.cut, idle]

end Commands

end Sys2Proof.Machine

namespace Sys2Proof.Machine

/-- Settles O19: both commands are `State.cut`, whose parts stop the units, fade the outputs, and record the cut (R156–R160); the
SI it records is that of the block in domain P (design log 140). -/
theorem cutOfAFiring : Obligations.CutOfAFiring := by
  unfold Obligations.CutOfAFiring
  refine fun c s f => ⟨fun idle => ?_, fun firing => ⟨fun unspent => ?_, fun i cause cuts => ?_⟩⟩
  · rw [exec_firingBudgetExhausted, exec_executionDeadline, State.budgetSpent_of_none c idle]
    exact ⟨rfl, congrArg _ (State.cut_of_none c idle 2)⟩
  · rw [exec_firingBudgetExhausted, State.budgetSpent_of_some c firing, decide_eq_false (Nat.not_le_of_lt unspent)]
    rfl
  · have isCut : exec i s = .next (s.cut c cause) := by
      obtain ⟨spent, rfl, rfl⟩ | ⟨rfl, rfl⟩ := cuts
      · rw [exec_firingBudgetExhausted, State.budgetSpent_of_some c firing, decide_eq_true spent]
        rfl
      · rw [exec_executionDeadline, State.budgetSpent_of_some c firing]
        simp only [decide_eq_true_eq]
    have width : cause < 16 := by
      obtain ⟨-, -, rfl⟩ | ⟨-, rfl⟩ := cuts
      · decide
      · split <;> decide
    obtain ⟨units, clusters, prog, lmem⟩ := State.cut_units firing cause
    obtain ⟨quarantined, counted, recorded⟩ := State.cut_shows firing c.isLt width
    have stage := State.cut_stage firing cause
    have fades (o : OutDest) (only : f.entry.outputs = [o]) (space : o.space = 3) (line : o.line = 0) (n : Nat) :=
      State.cut_fades firing cause only space line (n := n)
    generalize s.cut c cause = t at *
    have ownCluster := (clusters c).trans (if_pos rfl)
    have own (u : Nat) (h : u < 8) : t.unit (8 * c + u) = (s.unit (8 * c + u)).cutOff := by
      rw [units, if_pos (by omega)]
    refine ⟨t, isCut, fun u h => ?_, fun u h => ?_, fun k h => ?_, ?_, ?_, ?_, ?_, ?_, quarantined, counted, recorded, lmem, prog,
      stage, fades⟩
    · rw [own u h]
      exact ⟨rfl, rfl, rfl, rfl⟩
    · rw [units, if_neg (by omega)]
    · rw [clusters, if_neg h]
    all_goals rw [ownCluster]; rfl

end Sys2Proof.Machine
end

