-- ==== Sys2Proof/Proofs/Standing.lean ====
section
/-! SUPPORT. What firings and switches stand on, and what the parts of a firing start and of a switch leave as it was: the units, the
schedules, the roles of the clusters, what each cluster runs, the domains and their changes of range. One equation per operation. -/

namespace Sys2Proof.Machine

/-- What a firing finds of its cluster: its programs, its firing, and whether it is in retention. -/
structure ClusterStanding where
  retention : Bool
  firing : Option Firing
  loaded : List Nat

/-- What a firing finds of its domain. -/
structure DomStanding where
  configured : Bool
  rate : Nat
  block : Nat
  si : Nat
  running : Bool

structure Standing where
  units : Tab UnitSt
  sched : SchedSt
  role : Nat → Tab Nat
  cluster : Nat → ClusterStanding
  dom : Nat → DomStanding
  range : Tab Nat

def ClusterSt.standing (x : ClusterSt) : ClusterStanding := ⟨x.retention, x.firing, x.loaded⟩
def DomSt.standing (x : DomSt) : DomStanding := ⟨x.configured, x.rate, x.block, x.si, x.running⟩

def State.standing (s : State) : Standing where
  units := s.units
  sched := s.sched
  role := fun g => (s.region g).role
  cluster := fun c => (s.cluster c).standing
  dom := fun d => (s.dom d).standing
  range := s.pwr.range

/-! ### Reading it -/

section Reading
variable {s t : State} (h : t.standing = s.standing)
include h

theorem State.units_of_standing : t.units = s.units := congrArg Standing.units h
theorem State.sched_of_standing : t.sched = s.sched := congrArg Standing.sched h
theorem State.range_of_standing : t.pwr.range = s.pwr.range := congrArg Standing.range h

theorem State.role_of_standing (g : Nat) : (t.region g).role = (s.region g).role := congrFun (congrArg Standing.role h) g

theorem State.logical_of_standing (c : Nat) : t.logical c = s.logical c := by
  rw [State.logical, State.role_of_standing h]
  rfl

theorem State.cluster_of_standing (c : Nat) : (t.cluster c).standing = (s.cluster c).standing :=
  congrFun (congrArg Standing.cluster h) c

theorem State.retention_of_standing (c : Nat) : (t.cluster c).retention = (s.cluster c).retention :=
  congrArg ClusterStanding.retention (State.cluster_of_standing h c)
theorem State.firing_of_standing (c : Nat) : (t.cluster c).firing = (s.cluster c).firing :=
  congrArg ClusterStanding.firing (State.cluster_of_standing h c)
theorem State.loaded_of_standing (c : Nat) : (t.cluster c).loaded = (s.cluster c).loaded :=
  congrArg ClusterStanding.loaded (State.cluster_of_standing h c)

theorem State.dom_of_standing (d : Nat) : (t.dom d).standing = (s.dom d).standing := congrFun (congrArg Standing.dom h) d

end Reading

variable (s : State)

theorem State.standing_of_eq {t : State} (units : t.units = s.units) (sched : t.sched = s.sched) (regions : t.regions = s.regions)
    (clusters : t.clusters = s.clusters) (doms : t.doms = s.doms) (pwr : t.pwr = s.pwr) : t.standing = s.standing := by
  simp [State.standing, State.region, State.cluster, State.dom, units, sched, regions, clusters, doms, pwr]

theorem SameButHost.standing {s t : State} (h : SameButHost s t) : t.standing = s.standing :=
  s.standing_of_eq h.units h.sched h.regions h.clusters h.doms h.pwr

theorem SameButOutputs.standing {s t : State} (h : SameButOutputs s t) : t.standing = s.standing := by
  obtain ⟨_, _, _, _, rfl⟩ := h
  exact s.standing_of_eq rfl rfl rfl rfl rfl rfl

@[simp] theorem State.standing_ite (c : Prop) [Decidable c] (t u : State) :
    (if c then t else u).standing = if c then t.standing else u.standing := apply_ite _ _ _ _

@[simp] theorem State.standing_each {α : Type} (l : List α) (f : α → State → State)
    (h : ∀ x t, (f x t).standing = t.standing) : (s.each l f).standing = s.standing :=
  State.each_keeps (fun t => t.standing = s.standing) f (fun x t e => (h x t).trans e) s l rfl

/-! ### One field of the state written -/

@[simp] theorem State.standing_withPours (x : PourSt) : { s with pours := x }.standing = s.standing :=
  s.standing_of_eq rfl rfl rfl rfl rfl rfl
@[simp] theorem State.standing_withWl (x : WlSt) : { s with wl := x }.standing = s.standing := s.standing_of_eq rfl rfl rfl rfl rfl rfl
@[simp] theorem State.standing_withShm (m : Memory) : { s with shm := m }.standing = s.standing :=
  s.standing_of_eq rfl rfl rfl rfl rfl rfl
@[simp] theorem State.standing_withLmem (m : Memory) : { s with lmem := m }.standing = s.standing :=
  s.standing_of_eq rfl rfl rfl rfl rfl rfl
@[simp] theorem State.standing_put (f : Fld) (v : Nat) : (s.put f v).standing = s.standing :=
  s.standing_of_eq rfl rfl rfl rfl rfl rfl
@[simp] theorem State.standing_set (f : Fld) : (s.set f).standing = s.standing := s.standing_put f 1
@[simp] theorem State.standing_putBit (f : Fld) (b : Bool) : (s.putBit f b).standing = s.standing := s.standing_put f _
@[simp] theorem State.standing_setMask (f : Fld) (k : Nat) : (s.setMask f k).standing = s.standing := s.standing_put f _
@[simp] theorem State.standing_clrMask (f : Fld) (k : Nat) : (s.clrMask f k).standing = s.standing := s.standing_put f _
@[simp] theorem State.standing_bumpBy (f : Fld) (n : Nat) : (s.bumpBy f n).standing = s.standing := s.standing_put f _
@[simp] theorem State.standing_bump (f : Fld) : (s.bump f).standing = s.standing := s.standing_put f _
@[simp] theorem State.standing_raise (f : Fld) (v : Nat) : (s.raise f v).standing = s.standing := by simp [State.raise]
@[simp] theorem State.standing_take : s.take.standing = s.standing := s.standing_of_eq rfl rfl rfl rfl rfl rfl
@[simp] theorem State.standing_modMix (f : MixSt → MixSt) : (s.modMix f).standing = s.standing :=
  s.standing_of_eq rfl rfl rfl rfl rfl rfl
@[simp] theorem State.standing_modStd (f : StdSt → StdSt) : (s.modStd f).standing = s.standing := s.standing_modMix _
@[simp] theorem State.standing_modWl (p : Nat) (f : WlPort → WlPort) : (s.modWl p f).standing = s.standing := s.standing_withWl _
@[simp] theorem State.standing_modPour (o t : Nat) (f : Pour → Pour) : (s.modPour o t f).standing = s.standing :=
  s.standing_withPours _
@[simp] theorem State.standing_modMpll (n : Nat) (f : MpllSt → MpllSt) : (s.modMpll n f).standing = s.standing :=
  s.standing_of_eq rfl rfl rfl rfl rfl rfl
@[simp] theorem State.standing_modConv (c : Nat) (f : ConvCh → ConvCh) : (s.modConv c f).standing = s.standing :=
  s.standing_of_eq rfl rfl rfl rfl rfl rfl
@[simp] theorem State.standing_modAsrc (a : Nat) (f : AsrcCh → AsrcCh) : (s.modAsrc a f).standing = s.standing :=
  s.standing_of_eq rfl rfl rfl rfl rfl rfl
@[simp] theorem State.standing_dropAsrc (a : Nat) : (s.dropAsrc a).standing = s.standing := s.standing_of_eq rfl rfl rfl rfl rfl rfl
@[simp] theorem State.standing_takeAsrc (a : Nat) : (s.takeAsrc a).standing = s.standing := s.standing_of_eq rfl rfl rfl rfl rfl rfl

/-- A cluster changes in what a firing does not find there. -/
theorem State.standing_modCluster (c : Nat) (f : ClusterSt → ClusterSt) (h : ∀ x, (f x).standing = x.standing) :
    (s.modCluster c f).standing = s.standing := by
  have clusters : (fun k => ((s.modCluster c f).cluster k).standing) = fun k => (s.cluster k).standing := by
    refine funext fun k => ?_
    rw [State.cluster_modCluster]
    split
    · next e => rw [h, e]
    · rfl
  exact congrArg (fun x => { s.standing with cluster := x }) clusters

/-- A region changes in its clock. -/
theorem State.standing_modRegion (g : Nat) (f : RegionSt → RegionSt) (h : ∀ x, (f x).role = x.role) :
    (s.modRegion g f).standing = s.standing := by
  have roles : (fun k => ((s.modRegion g f).region k).role) = fun k => (s.region k).role := by
    refine funext fun k => ?_
    rw [State.region_modRegion]
    split
    · next e => rw [h, e]
    · rfl
  exact congrArg (fun x => { s.standing with role := x }) roles

/-- A domain begins the handling of a block. -/
theorem State.standing_modDom (d : Nat) (f : DomSt → DomSt) (h : ∀ x, (f x).standing = x.standing) :
    (s.modDom d f).standing = s.standing := by
  have doms : (fun k => ((s.modDom d f).dom k).standing) = fun k => (s.dom k).standing := by
    refine funext fun k => ?_
    rw [State.dom_modDom]
    split
    · next e => rw [h, e]
    · rfl
  exact congrArg (fun x => { s.standing with dom := x }) doms

/-! ### Events, completions, messages -/

@[simp] theorem State.standing_finish (h : CmdHdr) (c : Nat) (st : Status) (d si r : Nat) :
    (s.finish h c st d si r).standing = s.standing := (SameButHost.finish s h c st d si r).standing
@[simp] theorem State.standing_postNow (c : EvClass) (v : Option Nat) (k : Nat) (b : List Nat) :
    (s.postNow c v k b).standing = s.standing := (SameButHost.postNow s c v k b).standing

@[simp] theorem State.standing_hold (r : Nat) (h : Held) : (s.hold r h).standing = s.standing := (SameButHost.hold s r h).standing

@[simp] theorem State.standing_putEvent (r : Nat) (h : Held) (b : Bool) : (s.putEvent r h b).standing = s.standing :=
  s.standing_of_eq rfl rfl rfl rfl rfl rfl

@[simp] theorem State.standing_modHost (f : HostSt → HostSt) : (s.modHost f).standing = s.standing :=
  (SameButHost.modHost s f).standing

@[simp] theorem State.standing_postTo (r : Nat) (e : Event) (v : Option Nat) : (s.postTo r e v).standing = s.standing := by
  simp [State.postTo, State.writeEvent, State.stopEvRing]

@[simp] theorem State.standing_sendCtrl (dev : Nat) (m : WlPayload) : (s.sendCtrl dev m).standing = s.standing := by
  simp [State.sendCtrl, State.queueCell]
@[simp] theorem State.standing_sendPour (dev : Nat) (m : PourMsg) : (s.sendPour dev m).standing = s.standing :=
  s.standing_sendCtrl dev _

/-! ### The block whose handling begins -/

@[simp] theorem State.standing_tableRows (d : Nat) (row : Nat × Nat × Option Nat → List (Nat × Option Nat)) :
    (s.tableRows d row).standing = s.standing := by
  obtain ⟨m, h⟩ := s.tableRows_writesShm d row
  rw [h, State.standing_withShm]

@[simp] theorem State.standing_tableDest (a d : Nat) : (s.tableDest a d).standing = s.standing := s.standing_tableRows d _
@[simp] theorem State.standing_tableSource (a d : Nat) : (s.tableSource a d).standing = s.standing := s.standing_tableRows d _
@[simp] theorem State.standing_tables (i : SchedImage) (d : Nat) : (s.tables i d).standing = s.standing := by simp [State.tables]

@[simp] theorem State.standing_applyPatches (d x : Nat) : (s.applyPatches d x).standing = s.standing := by
  simp [State.applyPatches]

@[simp] theorem State.standing_applySwaps (d x : Nat) : (s.applySwaps d x).standing = s.standing := by
  unfold State.applySwaps
  dsimp only
  split
  · rfl
  · refine (State.standing_each _ _ _ fun w t => ?_).trans (s.standing_modMix _)
    have swapped := t.standing_modCluster (t.physical w.cluster)
      (fun x => { x with program := Tab.put 0 x.program w.unit w.digest }) fun _ => rfl
    split_ifs
    · exact swapped
    · exact (State.standing_withLmem _ _).trans swapped

@[simp] theorem State.standing_beginBlock (d x b : Nat) : (s.beginBlock d x b).standing = s.standing := by
  have begun := s.standing_modDom d (fun y => { y with begun := max y.begun (x + b) }) fun _ => rfl
  simp [State.beginBlock, begun]

/-! ### The parameter sequencer -/

@[simp] theorem State.standing_settle (e : Change) : (s.settle e).standing = s.standing := s.standing_modMix _

@[simp] theorem State.standing_queueSeq (c a : Nat) (l : List Word) : (s.queueSeq c a l).standing = s.standing :=
  s.standing_modCluster c _ fun _ => rfl

@[simp] theorem State.standing_unhand (c : Nat) (e : Change) : (s.unhand c e).standing = s.standing := by
  unfold State.unhand
  split <;> simp

@[simp] theorem State.standing_handoff (c x : Nat) (e : Change) : (s.handoff c x e).standing = s.standing := by
  unfold State.handoff
  split <;> simp

@[simp] theorem ClusterSt.standing_owe (x : ClusterSt) (slot : Option Nat) (v : Word) : (x.owe slot v).standing = x.standing := by
  cases slot <;> rfl

@[simp] theorem State.standing_seqRetire (c x : Nat) (b : Bool) : (s.seqRetire c x b).standing = s.standing := by
  simp [State.seqRetire, State.standing_modCluster]

@[simp] theorem State.standing_groupTerms (e : Change) : (s.groupTerms e).standing = s.standing := by simp [State.groupTerms]
@[simp] theorem State.standing_shadowOf (e : Change) : (s.shadowOf e).standing = s.standing := by simp [State.shadowOf]

@[simp] theorem State.standing_seqApply (c x : Nat) (b : Bool) (e : Change) : (s.seqApply c x b e).standing = s.standing := by
  simp [State.seqApply, State.standing_modCluster]

@[simp] theorem State.standing_sequencerPhase (c x b : Nat) (w : Bool) : (s.sequencerPhase c x b w).standing = s.standing := by
  have moved (t : State) := t.standing_modCluster c (fun y => { y with seqNext := x + b }) fun _ => rfl
  simp [State.sequencerPhase, moved]

@[simp] theorem State.standing_firingSequencer (c x b : Nat) (w : Bool) : (s.firingSequencer c x b w).standing = s.standing := by
  simp [State.firingSequencer]

/-! ### Pours that end -/

@[simp] theorem State.standing_retireWaits : s.retireWaits.standing = s.standing := by simp [State.retireWaits]
@[simp] theorem State.standing_countLive : s.countLive.standing = s.standing := by simp [State.countLive]

@[simp] theorem State.standing_closePour (p : Pour) : (s.closePour p).standing = s.standing := by
  unfold State.closePour
  split
  · dsimp only
    split <;> split <;> simp
  · rfl

@[simp] theorem State.standing_pourReport (p : Pour) (dev : Nat) (st : Status) (flags si detail : Nat) (b : Bool) :
    (s.pourReport p dev st flags si detail b).standing = s.standing := by
  unfold State.pourReport
  dsimp only
  split <;> simp

@[simp] theorem State.standing_endPour (p : Pour) (ph : PourPhase) (st : Status) (detail : Nat) :
    (s.endPour p ph st detail).standing = s.standing := by
  cases ph <;> simp only [State.endPour] <;> split <;> simp

@[simp] theorem State.standing_retirePours : s.retirePours.standing = s.standing := by simp [State.retirePours]

/-! ### Region clocks -/

@[simp] theorem State.standing_endClockStart (g : Nat) : (s.endClockStart g).standing = s.standing := by
  unfold State.endClockStart
  split
  · exact (State.standing_modRegion _ g (fun r => { r with starting := false }) fun _ => rfl).trans (s.standing_put _ _)
  · rfl

end Sys2Proof.Machine
end

