-- ==== Sys2Proof/Proofs/FiringStart.lean ====
section
/-! PROOF. The start and the end of a firing (R130–R137, R153, R156–R159, R168, R175). -/

namespace Sys2Proof.Machine

variable (s : State)

/-! ### What a firing start runs before its units (R60, R153, R297) -/

/-- The block begins, and the sequencer and the pours do what they owe to it. -/
def State.enterBlock (c d fsi b : Nat) (writes : Bool) : State :=
  (((s.endClockStart (c / 8)).beginBlock d fsi b).firingSequencer c fsi b writes).retirePours

theorem State.standing_enterBlock (c d fsi b : Nat) (writes : Bool) : (s.enterBlock c d fsi b writes).standing = s.standing := by
  simp [State.enterBlock]

theorem State.standing_zeroCluster (i : SchedImage) (c : Nat) : (s.zeroCluster i c).standing = s.standing := by
  have slots (t : State) : ∃ m, t.writeSlots i c = { t with shm := m } := t.each_writesShm _ _ fun _ _ => ⟨_, rfl⟩
  unfold State.zeroCluster State.clearMemories State.clearStd
  rw [State.standing_modStd, (slots _).choose_spec, State.standing_withShm]
  exact s.standing_of_eq rfl rfl rfl rfl rfl rfl

/-- The images of a cluster are loaded: nothing else that a firing finds differs. -/
theorem State.loadCluster_standing (i : SchedImage) (c : Nat) :
    (s.loadCluster i c).standing = (s.modCluster c fun x => { x with loaded := imagesOf i (s.logical c) }).standing := by
  obtain ⟨p, load⟩ := s.each_loadUnit (imagesOf i (s.logical c)).zipIdx (fun x => 8 * c + x.2) (·.1)
  rw [State.loadCluster, load]
  exact State.standing_of_eq _ rfl rfl rfl rfl rfl rfl

/-- The programs of a cluster after its load phase. -/
def State.loadedFor (i : SchedImage) (c : Nat) : List Nat :=
  if s.sched.toLoad.contains c then imagesOf i (s.logical c) else (s.cluster c).loaded

/-- A cluster whose outputs ramp up until `n`. -/
def ClusterSt.rampsUntil (n : Nat) (x : ClusterSt) : ClusterSt := { x with lastSample := [], rampUntil := n }

/-- The new programs of a cluster, at zero state unless they take the old one's. -/
def State.loadPrograms (i : SchedImage) (c d n : Nat) (compat : Bool) : State :=
  ((if compat then s.loadCluster i c else (s.loadCluster i c).zeroCluster i c).tables i d).modCluster c (.rampsUntil n)

theorem State.standing_loadPrograms (i : SchedImage) (c d n : Nat) (compat : Bool) :
    (s.loadPrograms i c d n compat).standing = (s.loadCluster i c).standing := by
  rw [State.loadPrograms, State.standing_modCluster _ c (.rampsUntil n) fun _ => rfl, State.standing_tables, State.standing_ite,
    State.standing_zeroCluster, ite_self]

theorem State.loadPhase_eq (i : SchedImage) (c d fsi : Nat) : ∃ n compat f,
    s.loadPhase i c d fsi = if s.sched.toLoad.contains c then (s.loadPrograms i c d n compat).modSched f else s := ⟨_, _, _, rfl⟩

theorem State.loadPhase_spec (i : SchedImage) (c d fsi : Nat) :
    (s.loadPhase i c d fsi).units = s.units ∧ (∀ k, (s.loadPhase i c d fsi).logical k = s.logical k) ∧
      ((s.loadPhase i c d fsi).cluster c).standing =
        ⟨(s.cluster c).retention, (s.cluster c).firing, s.loadedFor i c⟩ := by
  obtain ⟨n, compat, f, phase⟩ := s.loadPhase_eq i c d fsi
  rw [phase, State.loadedFor]
  split
  · have loaded := (s.standing_loadPrograms i c d n compat).trans (s.loadCluster_standing i c)
    have units := State.units_of_standing loaded
    have logical := State.logical_of_standing loaded
    have cluster := State.cluster_of_standing loaded c
    rw [State.cluster_modCluster, if_pos rfl] at cluster
    exact ⟨units, logical, cluster⟩
  · exact ⟨rfl, fun _ => rfl, rfl⟩

/-! ### Taps (R315, R322) -/

/-- Results of taps on their way to a unit's FIFO. -/
def UnitSt.owing (x : UnitSt) (l : List (Nat × Dword)) : UnitSt := { x with tapDue := x.tapDue ++ l }

theorem UnitSt.owing_nil (x : UnitSt) : x.owing [] = x := by simp [UnitSt.owing]

/-- Units take results of taps, and no cluster changes. -/
structure SameButTaps (s t : State) : Prop where
  clusters : t.clusters = s.clusters
  unit : ∀ v, ∃ l, t.unit v = (s.unit v).owing l

variable {s} in
theorem SameButTaps.of_eq {t : State} (clusters : t.clusters = s.clusters) (units : t.units = s.units) : SameButTaps s t :=
  ⟨clusters, fun v => ⟨[], (State.unit_of_units units v).trans (UnitSt.owing_nil _).symm⟩⟩

variable {s} in
theorem SameButTaps.trans {t u : State} (a : SameButTaps s t) (b : SameButTaps t u) : SameButTaps s u := by
  refine ⟨b.clusters.trans a.clusters, fun v => ?_⟩
  obtain ⟨l, hl⟩ := a.unit v
  obtain ⟨m, hm⟩ := b.unit v
  exact ⟨l ++ m, by rw [hm, hl]; simp [UnitSt.owing]⟩

theorem State.fill_ctr (l : List (Option Word)) : ∃ n, (s.fill l).2 = { s with ctr := n } := by
  induction l generalizing s with
  | nil => exact ⟨s.ctr, rfl⟩
  | cons w l ih =>
    cases w with
    | none => obtain ⟨n, h⟩ := ih s.take; exact ⟨n, h⟩
    | some w => exact ih s

theorem SameButTaps.runTap (g fsi b a due : Nat) (lines : List (Nat × Nat)) (bad : List Nat) :
    SameButTaps s (s.runTap g fsi b a due lines bad) := by
  unfold State.runTap
  dsimp only
  generalize s.tapRun g fsi b _ _ bad b _ = r
  obtain ⟨n, filled⟩ := s.fill_ctr r.1
  rw [filled]
  refine ⟨rfl, fun v => ?_⟩
  rw [State.unit_modUnit]
  split
  · next e => exact ⟨_, by rw [e]; rfl⟩
  · exact ⟨[], (UnitSt.owing_nil _).symm⟩

theorem SameButTaps.startTaps (i : SchedImage) (g fsi b : Nat) (l : TapList) (corr : Nat) (bad : List Nat) :
    SameButTaps s (s.startTaps i g fsi b l corr bad) := by
  have counted : SameButTaps s (((s.when (!bad.isEmpty) State.errSeen).bumpBy (Reg.FABRIC_RG_DLY_CORR g) corr).bumpBy
      (Reg.FABRIC_RG_DLY_UNCORR g) bad.length) := by
    unfold State.when
    split <;> exact .of_eq rfl rfl
  exact State.each_keeps (SameButTaps s) _ (fun _ t h => h.trans (.runTap t _ _ _ _ _ _ _)) _ _ counted

/-! ### FIRING_START (R25, R30, R156, R175) -/

/-- The firing of an entry at the SI of its block. -/
def State.newFiring (c d : Nat) (e : FiringEntry) (fsi b : Nat) : Firing :=
  { entry := e, fsi := fsi, domain := d, budget := s.budgetOf c e fsi b }

def State.openFiring (c d : Nat) (e : FiringEntry) (fsi b : Nat) : State :=
  s.modCluster c fun x => { x with firing := some (s.newFiring c d e fsi b) }

/-- The eight units start, and the taps of the firing. -/
def State.startUnits (c : Nat) (e : FiringEntry) (fsi : Nat) : State :=
  s.each (List.range 8) fun u t => t.modUnit (8 * c + u) (startUnit e u fsi)

def State.startTapsOf (i : SchedImage) (c : Nat) (e : FiringEntry) (fsi b corr : Nat) (bad : List Nat) : State :=
  match e.taps with
  | some l => s.startTaps i (c / 8) fsi b l corr bad
  | none => s

/-- The state in which a firing is open: its units are as they were, and its programs are those of the schedule. -/
theorem State.openFiring_spec {s2 : State} (standing : s2.standing = s.standing) (i : SchedImage) (c d : Nat) (e : FiringEntry)
    (fsi b : Nat) (images : s.sched.toLoad.contains c = true ∨ (s.cluster c).loaded = imagesOf i (s.logical c)) :
    let s4 := (s2.loadPhase i c d fsi).openFiring c d e fsi b
    s4.units = s.units ∧ (∃ n, (s4.cluster c).firing = some { entry := e, fsi := fsi, domain := d, budget := n }) ∧
      (s4.cluster c).retention = (s.cluster c).retention ∧ (s4.cluster c).loaded = imagesOf i (s4.logical c) := by
  obtain ⟨units, logical, cluster⟩ := s2.loadPhase_spec i c d fsi
  have loaded : s2.loadedFor i c = imagesOf i (s.logical c) := by
    unfold State.loadedFor
    rw [State.sched_of_standing standing, State.logical_of_standing standing, State.loaded_of_standing standing]
    obtain h | h := images
    · rw [if_pos h]
    · rw [h, ite_self]
  generalize s2.loadPhase i c d fsi = s3 at *
  intro s4
  have own : s4.cluster c = { s3.cluster c with firing := some (s3.newFiring c d e fsi b) } :=
    (State.cluster_modCluster _ c c _).trans (if_pos rfl)
  have roles : s4.logical c = s.logical c := (logical c).trans (State.logical_of_standing standing c)
  rw [own, roles]
  exact ⟨units.trans (State.units_of_standing standing), ⟨_, rfl⟩,
    (congrArg ClusterStanding.retention cluster).trans (State.retention_of_standing standing c),
    (congrArg ClusterStanding.loaded cluster).trans loaded⟩

section Start
variable {s} {c : Fin 64} {k : Fin 4} {i : SchedImage} {d : Nat} {e : FiringEntry} (codeOk : Bool) (corr : Nat) (bad : List Nat)
variable (image : s.imageAt c = some (i, d)) (entry : (firingsOf i (s.logical c)).find? (fun e => e.index == k) = some e)
include image entry

/-- What FIRING_START comes to for an entry of the schedule. -/
theorem exec_firingStart : exec (.firingStart c k codeOk corr bad) s =
    let b := (s.dom d).block
    let fsi := (s.dom d).si - b
    let writes := s.executes c
    if (s.cluster c).firing.isSome || s.firingsOff d || decide ((s.dom d).si < b) ||
        (writes && !(s.bit (Reg.FABRIC_RG_CLK_RUNNING (c / 8)) && !(s.cluster c).retention)) then .next s
    else
      let s2 := s.enterBlock c d fsi b writes
      if !writes then .next (s2.zeroOutputs c e b fsi)
      else
        let s4 := (s2.loadPhase i c d fsi).openFiring c d e fsi b
        if !codeOk || (s4.cluster c).loaded != imagesOf i (s4.logical c) then .next (s4.cut c 3)
        else .next ((s4.startUnits c e fsi).startTapsOf i c e fsi b corr bad) := by
  change execFiringStart c k codeOk corr bad s = _
  unfold execFiringStart
  rw [image]
  dsimp only
  rw [entry]
  rfl

/-- A cluster asleep, or without a clock, starts none. -/
theorem exec_firingStart_asleep (executes : s.executes c = true)
    (asleep : s.bit (Reg.FABRIC_RG_CLK_RUNNING (c / 8)) = false ∨ (s.cluster c).retention = true) :
    exec (.firingStart c k codeOk corr bad) s = .next s := by
  have stays : (s.executes c && !(s.bit (Reg.FABRIC_RG_CLK_RUNNING (c / 8)) && !(s.cluster c).retention)) = true := by
    obtain h | h := asleep <;> simp [executes, h]
  rw [exec_firingStart codeOk corr bad image entry]
  dsimp only
  rw [stays, Bool.or_true, if_pos rfl]

variable (idle : (s.cluster c).firing = none) (on : s.firingsOff d = false) (emitted : (s.dom d).block ≤ (s.dom d).si)
include idle on emitted

/-- The window of a cluster that does not execute. -/
theorem exec_firingStart_zeros (executes : s.executes c = false) : exec (.firingStart c k codeOk corr bad) s =
    .next ((s.enterBlock c d ((s.dom d).si - (s.dom d).block) (s.dom d).block false).zeroOutputs c e (s.dom d).block
      ((s.dom d).si - (s.dom d).block)) := by
  rw [exec_firingStart codeOk corr bad image entry]
  dsimp only
  rw [idle, on, decide_eq_false (Nat.not_lt_of_le emitted), executes]
  rfl

variable (executes : s.executes c = true) (clock : s.bit (Reg.FABRIC_RG_CLK_RUNNING (c / 8)) = true)
  (awake : (s.cluster c).retention = false)
include executes clock awake

/-- The state in which the units of a firing start. -/
theorem exec_firingStart_runs :
    let b := (s.dom d).block
    let fsi := (s.dom d).si - b
    let s4 := ((s.enterBlock c d fsi b true).loadPhase i c d fsi).openFiring c d e fsi b
    exec (.firingStart c k codeOk corr bad) s =
      if !codeOk || (s4.cluster c).loaded != imagesOf i (s4.logical c) then .next (s4.cut c 3)
      else .next ((s4.startUnits c e fsi).startTapsOf i c e fsi b corr bad) := by
  rw [exec_firingStart codeOk corr bad image entry]
  dsimp only
  rw [idle, on, decide_eq_false (Nat.not_lt_of_le emitted), executes, clock, awake]
  rfl

end Start

/-- The units of a firing that starts, and the rest (R175). -/
theorem State.startUnits_spec (c : Nat) (e : FiringEntry) (fsi : Nat) :
    (s.startUnits c e fsi).clusters = s.clusters ∧
      (∀ u < 8, (s.startUnits c e fsi).unit (8 * c + u) = startUnit e u fsi (s.unit (8 * c + u))) ∧
      ∀ v, v / 8 ≠ c → (s.startUnits c e fsi).unit v = s.unit v := by
  have started (v : Nat) : (s.startUnits c e fsi).unit v = _ := s.unit_each_modUnit (8 * c) 8 v fun u => startUnit e u fsi
  obtain ⟨x, units⟩ : ∃ x, s.startUnits c e fsi = { s with units := x } :=
    s.each_modUnit_units (List.range 8) (8 * c + ·) fun u => startUnit e u fsi
  refine ⟨by rw [units], fun u h => ?_, fun v h => ?_⟩
  · rw [started, if_pos (by omega), Nat.add_sub_cancel_left]
  · rw [started, if_neg (by omega)]

theorem SameButTaps.startTapsOf (i : SchedImage) (c : Nat) (e : FiringEntry) (fsi b corr : Nat) (bad : List Nat) :
    SameButTaps s (s.startTapsOf i c e fsi b corr bad) := by
  unfold State.startTapsOf
  split
  · exact .startTaps s _ _ _ _ _ _ _
  · exact .of_eq rfl rfl

theorem State.startTapsOf_none (i : SchedImage) (c : Nat) {e : FiringEntry} (tapless : e.taps = none) (fsi b corr : Nat) (bad : List Nat) :
    s.startTapsOf i c e fsi b corr bad = s := by rw [State.startTapsOf, tapless]

/-! ### FIRING_END (R24, R136, R156, R168) -/

/-- Nothing of a firing's end but this moves: cluster `c` apart from its cycles of the frame, and in the units the results of taps. -/
structure SameAtEnd (c : Nat) (s t : State) : Prop where
  others : ∀ k, k ≠ c → t.cluster k = s.cluster k
  cycles : (t.cluster c).cycFrame = (s.cluster c).cycFrame
  unit : ∀ v, (t.unit v).wait = (s.unit v).wait ∧ (t.unit v).a = (s.unit v).a ∧ (t.unit v).f = (s.unit v).f

section SameAtEnd
variable {s} {c : Nat} {t u : State}

theorem SameAtEnd.of_eq (clusters : t.clusters = s.clusters) (units : t.units = s.units) : SameAtEnd c s t := by
  have unit := State.unit_of_units units
  refine ⟨fun k _ => ?_, ?_, fun v => ?_⟩
  · rw [State.cluster, clusters]; rfl
  · rw [State.cluster, clusters]; rfl
  · rw [unit]; exact ⟨rfl, rfl, rfl⟩

theorem SameAtEnd.trans (a : SameAtEnd c s t) (b : SameAtEnd c t u) : SameAtEnd c s u := by
  refine ⟨fun k h => (b.others k h).trans (a.others k h), b.cycles.trans a.cycles, fun v => ?_⟩
  obtain ⟨wait, regs, f⟩ := a.unit v
  obtain ⟨wait', regs', f'⟩ := b.unit v
  exact ⟨wait'.trans wait, regs'.trans regs, f'.trans f⟩

variable (s)

theorem SameAtEnd.setCluster {x : ClusterSt} (h : x.cycFrame = (s.cluster c).cycFrame) : SameAtEnd c s (s.setCluster c x) := by
  refine ⟨fun k hk => ?_, ?_, fun v => ⟨rfl, rfl, rfl⟩⟩
  · rw [State.cluster_setCluster, if_neg hk]
  · rw [State.cluster_setCluster, if_pos rfl, h]

theorem SameAtEnd.modCluster {f : ClusterSt → ClusterSt} (h : ∀ x, (f x).cycFrame = x.cycFrame) : SameAtEnd c s (s.modCluster c f) :=
  .setCluster s (h _)

theorem SameAtEnd.outputs (h : SameButOutputs s t) : SameAtEnd c s t := by
  obtain ⟨_, _, _, _, rfl⟩ := h
  exact .of_eq rfl rfl

theorem SameAtEnd.shmWords (a : Nat) (l : List Word) : SameAtEnd c s (s.shmWords c a l) := by
  obtain ⟨m, words⟩ : ∃ m, s.shmWords c a l = { s with shm := m } := s.each_writesShm _ _ fun _ _ => ⟨_, rfl⟩
  rw [words]
  exact .of_eq rfl rfl

theorem SameAtEnd.seqWrite : SameAtEnd c s (s.seqWrite c) := by
  have words (a : Nat) (l : List Word) (x : ClusterSt) (h : x.cycFrame = (s.cluster c).cycFrame) :
      SameAtEnd c s ((s.shmWords c a l).setCluster c x) :=
    .trans (.shmWords s a l) (.setCluster _ (h.trans (SameAtEnd.shmWords s a l).cycles.symm))
  unfold State.seqWrite
  dsimp only
  split
  · exact words _ _ _ rfl
  · exact words _ _ _ rfl
  · exact .setCluster s rfl
  · exact .of_eq rfl rfl

theorem SameAtEnd.clockTo (n : Nat) : SameAtEnd c s (s.clockTo c n) := by
  unfold State.clockTo
  split
  · exact .of_eq rfl rfl
  · refine .trans (State.each_keeps (SameAtEnd c s) _ (fun _ t h => h.trans (.seqWrite t)) s _ (.of_eq rfl rfl)) (.modCluster _ fun _ => rfl)

theorem SameAtEnd.deliverTaps (u n : Nat) : SameAtEnd c s (s.deliverTaps u n) := by
  refine ⟨fun _ _ => rfl, rfl, fun v => ?_⟩
  rw [State.deliverTaps, State.unit_bumpBy, State.unit_setUnit]
  split
  · next own => rw [own]; exact ⟨rfl, rfl, rfl⟩
  · exact ⟨rfl, rfl, rfl⟩

theorem SameAtEnd.closeOutput (d b fsi : Nat) (o : OutDest) : SameAtEnd c s (s.closeOutput c d b fsi o) := by
  unfold State.closeOutput
  dsimp only
  refine .trans ?_ (.modCluster _ fun _ => rfl)
  split
  · exact .of_eq rfl rfl
  · exact .outputs s (.writeOut s _ _ _ _ _)

theorem SameAtEnd.endFiring (f : Firing) (n : Nat) :
    ∃ t, SameAtEnd c s t ∧ ∃ g : ClusterSt → ClusterSt, s.endFiring c f n = t.modCluster c g ∧
      ∀ x, (g x).firing = none ∧ (g x).retention = true ∧ (g x).cycFrame = x.cycFrame + n := by
  unfold State.endFiring
  dsimp only
  refine ⟨_, ?_, _, rfl, fun _ => ⟨rfl, rfl, rfl⟩⟩
  refine State.each_keeps (SameAtEnd c s) _ (fun o t h => h.trans ?_) _ _
    (State.each_keeps (SameAtEnd c s) _ (fun u t h => h.trans (.deliverTaps t _ _)) _ _ (.clockTo s _))
  split
  · exact .outputs t (.writeOut t _ _ _ _ _)
  · exact .closeOutput t _ _ _ _

end SameAtEnd

theorem State.drained_iff (c : Nat) : s.drained c = true ↔ (s.cluster c).dmaQueue = [] ∧ (s.cluster c).dmaRun = none ∧ ∀ u < 8,
    (s.unit (8 * c + u)).wait = .halted ∧ (s.unit (8 * c + u)).reading = false ∧ (s.unit (8 * c + u)).writing = false := by
  simp [State.drained, and_assoc]

section End
variable {s} {c : Fin 64} {f : Firing} (firing : (s.cluster c).firing = some f)
include firing

theorem exec_firingEnd : exec (.firingEnd c) s =
    if !s.drained c then .next s
    else if f.budget < s.cycles c then .next (s.cut c 1)
    else .next (s.endFiring c f (s.cycles c)) := by
  change execFiringEnd c s = _
  rw [execFiringEnd, firing]

theorem exec_firingEnd_undrained (undrained : s.drained c = false) : exec (.firingEnd c) s = .next s := by
  rw [exec_firingEnd firing, undrained]
  rfl

theorem exec_firingEnd_over (drained : s.drained c = true) (spent : f.budget < s.cycles c) :
    exec (.firingEnd c) s = .next (s.cut c 1) := by
  rw [exec_firingEnd firing, drained, if_pos spent]
  rfl

theorem exec_firingEnd_ends (drained : s.drained c = true) (within : s.cycles c ≤ f.budget) :
    exec (.firingEnd c) s = .next (s.endFiring c f (s.cycles c)) := by
  rw [exec_firingEnd firing, drained, if_neg (Nat.not_lt_of_le within)]
  rfl

end End

/-! ### The start as a whole -/

section StartSpec
variable {s} {s4 : State} {c : Fin 64} {i : SchedImage} {d : Nat} {e : FiringEntry} {f : Firing} {fsi b : Nat}
variable (units : s4.units = s.units) (firing : (s4.cluster c).firing = some f)
include units firing

/-- With the code intact every unit runs from its entry. -/
theorem State.startTapsOf_spec (corr : Nat) (bad : List Nat) :
    let t := (s4.startUnits c e fsi).startTapsOf i c e fsi b corr bad
    (t.cluster c).firing = some f ∧ (t.cluster c).retention = (s4.cluster c).retention ∧
      (∀ u < 8, ∃ due, t.unit (8 * c + u) =
        { startUnit e u fsi (s.unit (8 * c + u)) with tapDue := (s.unit (8 * c + u)).tapDue ++ due } ∧
        (e.taps = none → due = [])) ∧
      (e.taps = none → ∀ u, u / 8 ≠ c.val → t.unit u = s.unit u) := by
  obtain ⟨clusters, started, others⟩ := s4.startUnits_spec c e fsi
  obtain ⟨tapClusters, taps⟩ := SameButTaps.startTapsOf (s4.startUnits c e fsi) i c e fsi b corr bad
  have noTaps (tapless : e.taps = none) := (s4.startUnits c e fsi).startTapsOf_none i c tapless fsi b corr bad
  have unit := State.unit_of_units units
  dsimp only
  generalize (s4.startUnits c e fsi).startTapsOf i c e fsi b corr bad = t at *
  have cluster : t.cluster c = s4.cluster c := by rw [State.cluster, tapClusters, clusters]; rfl
  refine ⟨by rw [cluster, firing], by rw [cluster], fun u h => ?_, fun tapless u h => ?_⟩
  · cases taps? : e.taps with
    | none =>
      refine ⟨[], ?_, fun _ => rfl⟩
      rw [noTaps taps?, started u h, unit]
      exact (UnitSt.owing_nil _).symm
    | some l =>
      obtain ⟨due, owing⟩ := taps (8 * c + u)
      rw [started u h, unit] at owing
      exact ⟨due, owing, fun tapless => absurd tapless (Option.some_ne_none l)⟩
  · rw [noTaps tapless, others u h, unit]

/-- With the code damaged the firing is cut at once (R156). -/
theorem State.cutAtStart_spec :
    ((s4.cut c 3).cluster c).firing = none ∧ (s4.cut c 3).quarantined c = true ∧
      (∀ u < 8, ((s4.cut c 3).unit (8 * c + u)).wait = .halted) ∧ ∀ u, u / 8 ≠ c.val → (s4.cut c 3).unit u = s.unit u := by
  obtain ⟨unit, cluster, -, -⟩ := State.cut_units firing 3
  obtain ⟨quarantined, -, -⟩ := State.cut_shows firing (cause := 3) c.isLt (by decide)
  refine ⟨by rw [cluster, if_pos rfl]; rfl, quarantined, fun u h => ?_, fun u h => ?_⟩
  · rw [unit, if_pos (by omega)]
    rfl
  · rw [unit, if_neg (by omega), State.unit_of_units units]

end StartSpec

end Sys2Proof.Machine

namespace Sys2Proof.Machine

/-- Settles O20: what precedes the units leaves the state a firing stands on (`State.standing_enterBlock`), and the firing then opens
over the programs of its schedule; its end is told by `State.drained_iff`. -/
theorem firingStartAndEnd : Obligations.FiringStartAndEnd := by
  unfold Obligations.FiringStartAndEnd
  refine ⟨fun c k codeOk corr bad s i d e image entry idle on emitted => ⟨fun executes clock awake images => ?_,
    fun executes asleep => exec_firingStart_asleep codeOk corr bad image entry executes asleep, fun executes => ?_⟩,
    fun c s f firing => ⟨s.drained_iff c, fun drained within => ?_, exec_firingEnd_over firing, exec_firingEnd_undrained firing⟩⟩
  · have standing := s.standing_enterBlock c d ((s.dom d).si - (s.dom d).block) (s.dom d).block true
    obtain ⟨units, ⟨b, firing⟩, retention, loaded⟩ := State.openFiring_spec s standing i c d e ((s.dom d).si - (s.dom d).block)
      (s.dom d).block images
    have runs := exec_firingStart_runs codeOk corr bad image entry idle on emitted executes clock awake
    dsimp only at runs
    generalize State.openFiring _ _ d e _ _ = s4 at *
    rw [loaded, bne_self_eq_false, Bool.or_false] at runs
    cases codeOk with
    | true =>
      obtain ⟨fires, asleep, started, others⟩ := State.startTapsOf_spec (i := i) (e := e)
        (fsi := (s.dom d).si - (s.dom d).block) (b := (s.dom d).block) units firing corr bad
      exact ⟨_, runs, fun _ => ⟨⟨b, fires⟩, asleep.trans (retention.trans awake), started⟩, fun h => absurd h (by decide), others⟩
    | false =>
      obtain ⟨ended, quarantined, halted, others⟩ := State.cutAtStart_spec units firing
      exact ⟨_, runs, fun h => absurd h (by decide), fun _ => ⟨ended, quarantined, halted⟩, fun _ => others⟩
  · have standing := s.standing_enterBlock c d ((s.dom d).si - (s.dom d).block) (s.dom d).block false
    have zeros := exec_firingStart_zeros codeOk corr bad image entry idle on emitted executes
    generalize s.enterBlock c d _ _ false = s2 at *
    have zeroed : SameButOutputs s2 (s2.zeroOutputs c e (s.dom d).block ((s.dom d).si - (s.dom d).block)) :=
      State.each_keeps (SameButOutputs s2) _ (fun _ t h => h.trans (.writeOut t _ _ _ _ _)) s2 _ (.refl s2)
    have same := zeroed.standing.trans standing
    exact ⟨_, zeros, State.units_of_standing same, (State.firing_of_standing same c).trans idle⟩
  · obtain ⟨t, ⟨others, cycles, units⟩, g, ended, ends⟩ := SameAtEnd.endFiring (c := c) s f (s.cycles c)
    have cluster (k : Nat) := t.cluster_modCluster c k g
    obtain ⟨firing', retention, count⟩ := ends (t.cluster c)
    refine ⟨_, (exec_firingEnd_ends firing drained within).trans (congrArg _ ended), ?_, ?_, ?_, units, fun k h => ?_⟩
    · rw [cluster, if_pos rfl, firing']
    · rw [cluster, if_pos rfl, retention]
    · rw [cluster, if_pos rfl, count, cycles]
    · rw [cluster, if_neg h, others k h]

end Sys2Proof.Machine
end

