-- ==== Sys2Proof/Proofs/ScheduleSwitch.lean ====
section
/-! PROOF. The switch of a domain to the armed schedule, and a change of its range (R150, R153, R719–R721). -/

namespace Sys2Proof.Machine

variable (s : State)

/-! ### What a switch leaves of the schedules and of the domains -/

@[simp] theorem State.standing_enterMpll (n st : Nat) : (s.enterMpll n st).standing = s.standing := by simp [State.enterMpll]
@[simp] theorem State.standing_enterAcquire (n : Nat) : (s.enterAcquire n).standing = s.standing := by simp [State.enterAcquire]
@[simp] theorem State.standing_unalign (d : Nat) : (s.unalign d).standing = s.standing := s.standing_clrMask _ d

@[simp] theorem State.standing_selectCandidate (n k : Nat) : (s.selectCandidate n k).standing = s.standing := by
  simp [State.selectCandidate]

@[simp] theorem State.standing_unseenVsyncs (n k : Nat) : (s.unseenVsyncs n k).standing = s.standing := by
  simp [State.unseenVsyncs]

@[simp] theorem State.standing_loseReference (n : Nat) : (s.loseReference n).standing = s.standing := by
  unfold State.loseReference
  split <;> simp

@[simp] theorem State.standing_disqualify (n k : Nat) : (s.disqualify n k).standing = s.standing := by simp [State.disqualify]
@[simp] theorem State.standing_loseFrames : s.loseFrames.standing = s.standing := by simp [State.loseFrames, State.disqualifyAll]

@[simp] theorem State.standing_startMpll (n : Nat) : (s.startMpll n).standing = s.standing := by
  unfold State.startMpll
  split <;> simp

@[simp] theorem State.standing_stopMpll (n : Nat) : (s.stopMpll n).standing = s.standing := by simp [State.stopMpll]
@[simp] theorem State.standing_showGated : s.showGated.standing = s.standing := by simp [State.showGated]

@[simp] theorem State.standing_openDomain (d : Nat) : (s.openDomain d).standing = s.standing :=
  (State.standing_showGated _).trans rfl

@[simp] theorem State.standing_setPoints (i : SchedImage) (d : Nat) : (s.setPoints i d).standing = s.standing := by
  simp [State.setPoints]

@[simp] theorem State.standing_showRotation (i : SchedImage) (d : Nat) : (s.showRotation i d).standing = s.standing := by
  simp [State.showRotation]

@[simp] theorem State.standing_newStrips (i : SchedImage) : (s.newStrips i).standing = s.standing := by simp [State.newStrips]
@[simp] theorem State.standing_placeTimed (i : SchedImage) (d : Nat) : (s.placeTimed i d).standing = s.standing :=
  s.standing_modMix _

@[simp] theorem State.standing_countPool : s.countPool.standing = s.standing := by simp [State.countPool]
@[simp] theorem State.standing_setBridges (i : SchedImage) : (s.setBridges i).standing = s.standing := by simp [State.setBridges]

@[simp] theorem State.standing_stageBlock (i : SchedImage) (d lo hi : Nat) : (s.stageBlock i d lo hi).standing = s.standing := by
  simp [State.stageBlock]

@[simp] theorem State.standing_stageNow (d : Nat) : (s.stageNow d).standing = s.standing := by
  unfold State.stageNow
  split <;> simp

@[simp] theorem State.standing_restage (d : Nat) : (s.restage d).standing = s.standing :=
  (State.standing_stageNow _ d).trans (s.standing_modMix _)

@[simp] theorem State.standing_restartStd (d : Nat) : (s.restartStd d).standing = s.standing := s.standing_modStd _
@[simp] theorem State.standing_unsettle (c : Nat) : (s.unsettle c).standing = s.standing := by simp [State.unsettle]

@[simp] theorem State.standing_restartAsrc (a : Nat) : (s.restartAsrc a).standing = s.standing := by
  unfold State.restartAsrc State.showAsrc
  split <;> simp

/-! ### The parts of a switch (R150, R153) -/

/-- The clusters that leave their programs fade. -/
def State.fadeLeft (n : SchedImage) (d : Nat) (fade : Bool) : State :=
  let gone := match s.active with | some o => s.leaving o n d | none => []
  if fade then s.each gone fun c t => t.fadeOld s.active n c d else s

theorem SameButOutputs.fadeLeft (n : SchedImage) (d : Nat) (fade : Bool) : SameButOutputs s (s.fadeLeft n d fade) := by
  unfold State.fadeLeft
  dsimp only
  split
  · refine State.each_keeps (SameButOutputs s) _ (fun c t h => h.trans ?_) s _ (.refl s)
    unfold State.fadeOld
    split
    · exact .refl t
    · exact State.each_keeps (SameButOutputs t) _ (fun _ u h => h.trans (.writeOut u _ _ _ _ _)) t _ (.refl t)
  · exact .refl s

/-- A domain is set up for the schedule, and what shows it. -/
def State.setUp (n : SchedImage) (d : Nat) : State :=
  (((((s.configureDomain n d).openDomain d).setPoints n d).showRotation n d).newStrips n).modMix fun m =>
    { m with meters := m.meters.map fun x => (x.1, x.2.map fun y => { y with restart := true }) }

/-- The servos of domain P take their program, and the changes of the domain their places. -/
def State.settleIn (n : SchedImage) (d : Nat) : State := (if d = 0 then s.loadServos n else s).placeTimed n d

/-- Clusters wait for their load phase. -/
def SchedSt.load (l : List Nat) (q : SchedSt) : SchedSt := { q with toLoad := (q.toLoad.filter fun c => !l.contains c) ++ l }

/-- A domain under the pending schedule, before the banks turn over. -/
def State.takeUp (n : SchedImage) (d : Nat) (fade : Bool) : State :=
  (((s.fadeLeft n d fade).modSched (.load (s.changedClusters s.active (some n) d))).setUp n d).settleIn n d

/-- The active bank empties, and the other one becomes active. -/
def SchedSt.vacate (q : SchedSt) : SchedSt := { (q.setBank q.active.val {}) with active := 1 - q.active, toSwitch := [] }

/-- The active bank is armed no more. -/
def SchedSt.disarm (q : SchedSt) : SchedSt := q.setBank q.active.val { (q.bank q.active.val) with armed := false, hdr := none }

/-- The pending bank becomes the active one. -/
def State.turnOver : State :=
  let t := (s.modSched .vacate).modSched .disarm
  (t.put Reg.SCHED_STATUS_PENDING 0).put Reg.SCHED_STATUS_ACTIVE_BANK t.sched.active.val

theorem State.makeSwitch_eq (n : SchedImage) (d : Nat) (fade : Bool) :
    s.makeSwitch n d fade = if (s.sched.toSwitch.filter (· ≠ d)).isEmpty then (s.takeUp n d fade).turnOver
      else (s.takeUp n d fade).modSched fun q => { q with toSwitch := s.sched.toSwitch.filter (· ≠ d) } := by
  unfold State.makeSwitch
  rfl

theorem State.loadServos_eq (n : SchedImage) : ∃ u p r, s.loadServos n = { s with units := u, prog := p, regs := r } := by
  unfold State.loadServos
  split
  · obtain ⟨u, h⟩ := (s.put Reg.SURF_SERVO_STATUS_RUNNING 0).each_modUnit_units (List.range 4) (512 + ·)
      fun _ x => { x with wait := .halted }
    exact ⟨u, _, _, h⟩
  · obtain ⟨p, h⟩ := (s.put Reg.SURF_SERVO_STATUS_RUNNING 15).each_loadUnit (List.range 4) (512 + ·) fun _ => _
    exact ⟨_, p, _, h⟩

theorem State.settleIn_spec (n : SchedImage) (d : Nat) :
    (s.settleIn n d).sched = s.sched ∧ (s.settleIn n d).doms = s.doms ∧ (s.settleIn n d).pwr = s.pwr := by
  obtain ⟨u, p, r, servos⟩ := s.loadServos_eq n
  unfold State.settleIn
  rw [servos]
  split <;> exact ⟨rfl, rfl, rfl⟩

theorem State.standing_setUp (n : SchedImage) (d : Nat) : (s.setUp n d).standing = (s.configureDomain n d).standing := by
  simp [State.setUp]

/-- A domain that is configured anew leaves the schedules. -/
theorem State.configureDomain_sched (n : SchedImage) (d : Nat) : (s.configureDomain n d).sched = s.sched := by
  unfold State.configureDomain
  split
  · dsimp only
    split
    · rw [State.sched_of_standing (State.standing_loseFrames _), State.sched_of_standing (State.standing_stopMpll _ d)]
      rfl
    · rfl
  · dsimp only
    split
    · rfl
    · split
      · rfl
      · rw [State.sched_of_standing (State.standing_startMpll _ d)]
        rfl

/-- A domain that has the rate and block of its share runs. -/
theorem State.configureDomain_same {n : SchedImage} {d : Nat} {x : DomainShare} (share : shareOf n d = some x)
    (configured : (s.dom d).configured = true) (rate : (s.dom d).rate = x.rate) (block : (s.dom d).block = x.block) :
    s.configureDomain n d = s.modDom d fun z => { z with running := true } := by
  unfold State.configureDomain
  rw [share]
  simp [configured, rate, block]

theorem State.takeUp_sched (n : SchedImage) (d : Nat) (fade : Bool) :
    (s.takeUp n d fade).sched = s.sched.load (s.changedClusters s.active (some n) d) := by
  obtain ⟨_, _, _, _, faded⟩ := SameButOutputs.fadeLeft s n d fade
  unfold State.takeUp
  obtain ⟨settled, -, -⟩ := State.settleIn_spec (((s.fadeLeft n d fade).modSched (.load (s.changedClusters s.active (some n) d))).setUp n d) n d
  rw [settled, State.sched_of_standing (State.standing_setUp _ n d), State.configureDomain_sched, faded]
  rfl

/-! ### The banks turn over (R149, R150) -/

theorem SchedSt.vacate_spec (q : SchedSt) :
    q.vacate.active = 1 - q.active ∧ q.vacate.toSwitch = [] ∧ q.vacate.bank q.vacate.active.val = q.bank (1 - q.active.val) := by
  refine ⟨rfl, rfl, ?_⟩
  have other : (1 - q.active : Fin 2).val = 1 - q.active.val := by
    generalize q.active = a
    revert a
    decide
  change (q.setBank q.active.val {}).bank (1 - q.active : Fin 2).val = _
  rw [other, SchedSt.bank_setBank _ (by omega) (by omega), if_neg (by omega)]

theorem SchedSt.disarm_spec (q : SchedSt) :
    q.disarm.active = q.active ∧ q.disarm.toSwitch = q.toSwitch ∧
      (q.disarm.bank q.disarm.active.val).image = (q.bank q.active.val).image := by
  have active : q.disarm.active = q.active := q.active_setBank _ _
  have toSwitch : q.disarm.toSwitch = q.toSwitch := by
    unfold SchedSt.disarm SchedSt.setBank
    split <;> rfl
  refine ⟨active, toSwitch, ?_⟩
  rw [active, SchedSt.disarm, SchedSt.bank_setBank _ (by omega) (by omega), if_pos rfl]

theorem State.turnOver_spec :
    s.turnOver.active = s.pendingBank.image ∧ s.turnOver.sched.active = 1 - s.sched.active ∧ s.turnOver.sched.toSwitch = [] ∧
      s.turnOver.bit Reg.SCHED_STATUS_PENDING = false ∧
      s.turnOver.get Reg.SCHED_STATUS_ACTIVE_BANK = s.turnOver.sched.active.val := by
  obtain ⟨active, toSwitch, bank⟩ := s.sched.vacate_spec
  obtain ⟨active', toSwitch', image⟩ := s.sched.vacate.disarm_spec
  refine ⟨image.trans (congrArg Bank.image bank), active'.trans active, toSwitch'.trans toSwitch, ?_, ?_⟩
  · exact (State.bit_put_ne _ (by decide) _).trans (State.bit_put_same _ rfl 0)
  · exact State.get_put_lt _ Reg.SCHED_STATUS_ACTIVE_BANK _ (Fin.isLt _)

/-! ### SCHEDULE_SWITCH (R150, R720) -/

/-- A domain has reached an SI of domain P: by its own SI, and by that of domain P where it is not configured. -/
def State.reached (d n : Nat) : Bool :=
  if (s.dom d).configured then decide (s.siTo d n ≤ (s.dom d).si) else decide (n ≤ (s.dom 0).si)

theorem State.reached_iff (d n : Nat) :
    s.reached d n = true ↔ if (s.dom d).configured = true then s.siTo d n ≤ (s.dom d).si else n ≤ (s.dom 0).si := by
  unfold State.reached
  split <;> exact decide_eq_true_iff

section Switch
variable {s} {d : Fin 3} {n : SchedImage} (image : s.pendingBank.image = some n) (armed : s.pendingBank.armed = true)
  (last : s.sched.toSwitch = [d.val])
include image armed last

theorem exec_scheduleSwitch : exec (.scheduleSwitch d) s =
    if s.reached d s.pendingBank.switchSi then
      if rangeChanges s.active n s.pendingBank.roast d then .next (if Tab.get 0 s.pwr.range d = 0 then s.beginRange n d else s)
      else .next (s.makeSwitch n d true)
    else .next s := by
  change execScheduleSwitch d s = _
  unfold execScheduleSwitch
  dsimp only
  rw [image]
  dsimp only
  rw [armed, last, List.contains_cons, beq_self_eq_true, Bool.true_or, Bool.true_and, Bool.true_and]
  rfl

omit armed in
/-- The last domain that switches brings the schedule in force. -/
theorem State.makeSwitch_last (fade : Bool) :
    let t := s.makeSwitch n d fade
    t.active = some n ∧ t.sched.active = 1 - s.sched.active ∧ t.sched.toSwitch = [] ∧
      t.bit Reg.SCHED_STATUS_PENDING = false ∧ t.get Reg.SCHED_STATUS_ACTIVE_BANK = t.sched.active.val := by
  have left : (s.sched.toSwitch.filter (· ≠ d.val)).isEmpty = true := by rw [last]; simp
  have sched := s.takeUp_sched n d fade
  obtain ⟨active, bank, toSwitch, shown⟩ := (s.takeUp n d fade).turnOver_spec
  rw [s.makeSwitch_eq, if_pos left]
  refine ⟨active.trans ?_, bank.trans ?_, toSwitch, shown⟩
  · rw [State.pendingBank, sched]
    exact image
  · rw [sched]
    rfl

end Switch

/-- Fed destinations ramp: only their gains differ. -/
theorem State.rampFed_gains (d : Nat) (down : Bool) : ∃ g, s.rampFed d down = { s with pwr := { s.pwr with gain := g } } := by
  unfold State.rampFed
  split
  all_goals
    refine State.each_keeps (fun t => ∃ g, t = { s with pwr := { s.pwr with gain := g } }) _ ?_ s _ ⟨_, rfl⟩
    rintro _ _ ⟨g, rfl⟩
    exact ⟨_, rfl⟩

/-- A change of range begins: nothing switches. -/
theorem State.beginRange_spec (n : SchedImage) (d : Nat) :
    Tab.get 0 (s.beginRange n d).pwr.range d = 1 ∧ (s.beginRange n d).sched = s.sched ∧ (s.beginRange n d).units = s.units ∧
      (s.beginRange n d).doms = s.doms := by
  unfold State.beginRange
  dsimp only
  obtain ⟨g, fed⟩ := State.rampFed_gains { s with pwr := { s.pwr with
    range := Tab.put 0 s.pwr.range d 1,
    gain := Tab.upd {} s.pwr.gain d fun g => gateTo g true (s.samplesMs d 5) (s.dom d).si } } d true
  rw [fed]
  have posted := SameButHost.postNow
  refine ⟨?_, (posted _ _ _ _ _).sched, (posted _ _ _ _ _).units, (posted _ _ _ _ _).doms⟩
  rw [(posted _ _ _ _ _).pwr]
  exact Tab.get_put_same 0 _ d 1

/-! ### RANGE_PIPELINE_STOP (R720, step 2) -/

/-- The regions of a domain under the active schedule. -/
def State.activeRegions (d : Nat) : List Nat :=
  (List.range 8).filter fun r => match s.active with | some i => decide (domainOf i r = some d) | none => false

/-- The domain's pipeline no longer runs. -/
def State.haltPipeline (d : Nat) : State :=
  State.modDom { s with pwr := { s.pwr with range := Tab.put 0 s.pwr.range d 2 } } d fun x => { x with running := false }

theorem exec_rangePipelineStop (d : Fin 3) (down : Tab.get 0 s.pwr.range d = 1)
    (ramped : (Tab.get {} s.pwr.gain d).start + s.samplesMs d 5 ≤ (s.dom d).si + (Tab.get {} s.pwr.gain d).base) :
    exec (.rangePipelineStop d) s = .next ((s.haltPipeline d).each (s.activeRegions d) fun r t => t.stopClock r) :=
  if_pos ⟨down, ramped⟩

theorem State.stopClock_running (r g : Nat) :
    (s.stopClock r).bit (Reg.FABRIC_RG_CLK_RUNNING g) = if g = r then false else s.bit (Reg.FABRIC_RG_CLK_RUNNING g) := by
  have locked : (Reg.FABRIC_RG_CLK_RUNNING g).key ≠ (Reg.FABRIC_RG_CLK_LOCKED r).key := by
    simp only [Fld.key, Reg.FABRIC_RG_CLK_RUNNING, Reg.FABRIC_RG_CLK_LOCKED]
    omega
  change (State.put _ (Reg.FABRIC_RG_CLK_LOCKED r) 0).bit _ = _
  rw [State.bit_put_ne _ locked]
  split
  · next e => rw [e]; exact State.bit_put_same s rfl 0
  · refine State.bit_put_ne s ?_ 0
    simp only [Fld.key, Reg.FABRIC_RG_CLK_RUNNING]
    omega

/-- The clocks of some regions stop, and no domain, unit or schedule changes. -/
theorem State.each_stopClock (l : List Nat) :
    (s.each l fun r t => t.stopClock r).doms = s.doms ∧ (s.each l fun r t => t.stopClock r).units = s.units ∧
      (s.each l fun r t => t.stopClock r).sched = s.sched ∧ (s.each l fun r t => t.stopClock r).pwr = s.pwr ∧
      ∀ g, g ∈ l ∨ s.bit (Reg.FABRIC_RG_CLK_RUNNING g) = false →
        (s.each l fun r t => t.stopClock r).bit (Reg.FABRIC_RG_CLK_RUNNING g) = false := by
  unfold State.each
  induction l generalizing s with
  | nil => exact ⟨rfl, rfl, rfl, rfl, fun g h => h.resolve_left (List.not_mem_nil)⟩
  | cons r l ih =>
    obtain ⟨doms, units, sched, pwr, stopped⟩ := ih (s.stopClock r)
    refine ⟨doms, units, sched, pwr, fun g h => stopped g ?_⟩
    rw [State.stopClock_running]
    by_cases e : g = r
    · exact .inr (if_pos e)
    · rw [if_neg e]
      exact h.imp_left fun mem => (List.mem_cons.1 mem).resolve_left e

/-! ### RANGE_RESTART (R720, steps 3 to 6) -/

/-- The domains and their changes of range are as they were. -/
structure SameRanges (s t : State) : Prop where
  doms : t.doms = s.doms
  range : t.pwr.range = s.pwr.range

variable {s} in
theorem SameRanges.trans {t u : State} (a : SameRanges s t) (b : SameRanges t u) : SameRanges s u :=
  ⟨b.doms.trans a.doms, b.range.trans a.range⟩

/-- A cluster whose domain counts its samples anew. -/
def ClusterSt.renumber (f : Nat → Nat) (x : ClusterSt) : ClusterSt :=
  { x with firing := x.firing.map fun g => { g with fsi := f g.fsi },
           rampUntil := if x.rampUntil = 0 then 0 else f x.rampUntil,
           seqNext := if x.seqNext = 0 then 0 else f x.seqNext }

theorem SameRanges.mapClusters (d : Nat) (f : Nat → Nat) : SameRanges s (s.mapClusters d f) :=
  State.each_keeps (SameRanges s) (fun c t => t.modCluster c fun x => x.renumber f) (fun _ _ h => h.trans ⟨rfl, rfl⟩) s _ ⟨rfl, rfl⟩

theorem SameRanges.mapTimed (d : Nat) (f : Nat → Nat) : SameRanges s (s.mapTimed d f) := by
  unfold State.mapTimed
  dsimp only
  split <;> exact ⟨rfl, rfl⟩

/-- An armed trigger of the domain moves with its sample. -/
def State.moveTrigger (d : Nat) (f : Nat → Nat) (k : Nat) (t : State) : State :=
  match Tab.get none t.time.trigs k with
  | some (g, si, late) =>
    if g = d then
      ({ t with time := { t.time with trigs := Tab.put none t.time.trigs k (some (g, f si, late.map f)) } }).put (Reg.TIME_TRIG_SI_SI k) (f si)
    else t
  | none => t

theorem SameRanges.withTime {s t : State} (h : SameRanges s t) (x : TimeSt) : SameRanges s { t with time := x } := ⟨h.doms, h.range⟩

theorem SameRanges.mapClocks (d : Nat) (f : Nat → Nat) : SameRanges s (s.mapClocks d f) := by
  unfold State.mapClocks
  dsimp only
  have profiles : SameRanges s (if s.get (Reg.CLK_ROAST_STATUS_STATE d) = 1 then
      ((s.modMpll d fun m => { m with opened := m.opened.map f }).modMpll d fun m =>
        { m with startAt := f m.startAt, lateTo := m.lateTo.map f }).put (Reg.CLK_ROAST_START_SI_SI d) (f (s.mpll d).startAt)
      else s.modMpll d fun m => { m with opened := m.opened.map f }) := by
    split <;> exact ⟨rfl, rfl⟩
  have triggers (t : State) (h : SameRanges s t) : SameRanges s (t.each (List.range 8) (State.moveTrigger d f)) := by
    refine State.each_keeps (SameRanges s) _ (fun k u h => h.trans ?_) t _ h
    unfold State.moveTrigger
    split
    · split <;> exact ⟨rfl, rfl⟩
    · exact ⟨rfl, rfl⟩
  split
  · exact triggers _ profiles
  · exact (triggers _ profiles).withTime _

theorem SameRanges.mapRest (d : Nat) (f : Nat → Nat) : SameRanges s (s.mapRest d f) := by
  unfold State.mapRest
  dsimp only
  split <;> exact ⟨rfl, rfl⟩

theorem SameRanges.lateBefore (d x : Nat) : SameRanges s (s.lateBefore d x) := by
  unfold State.lateBefore
  dsimp only
  split <;> exact ⟨rfl, rfl⟩

/-- Items that are counted anew, before the domain's own count is. -/
theorem SameRanges.mapItems (d : Nat) (f : Nat → Nat) :
    SameRanges s ((((((s.mapMix d f).mapClusters d f).mapTimed d f).mapClocks d f).mapEdge d f).mapRest d f) := by
  have mix : SameRanges s (s.mapMix d f) := ⟨rfl, rfl⟩
  have edge (t : State) : SameRanges t (t.mapEdge d f) := ⟨rfl, rfl⟩
  exact ((((mix.trans (.mapClusters _ d f)).trans (.mapTimed _ d f)).trans (.mapClocks _ d f)).trans (edge _)).trans (.mapRest _ d f)

/-- The items of a domain are counted anew: it stays configured, and no change of range begins or ends. -/
theorem State.convertItems_spec (d old new restart : Nat) :
    ((s.convertItems d old new restart).dom d).configured = (s.dom d).configured ∧
      (s.convertItems d old new restart).pwr.range = s.pwr.range := by
  unfold State.convertItems State.mapSi
  dsimp only
  refine ⟨?_, (SameRanges.lateBefore _ d restart).range.trans (SameRanges.mapItems _ d _).range⟩
  rw [State.dom, (SameRanges.lateBefore _ d restart).doms]
  refine (congrArg DomSt.configured ((State.dom_modDom _ d d _).trans (if_pos rfl))).trans ?_
  rw [State.dom, (SameRanges.mapItems _ d _).doms]
  rfl

/-- The domain at the rate and block of its share, from a restart boundary on. -/
def State.restartAt (d r : Nat) (x : DomainShare) (roast : Bool) : State :=
  (s.convertItems d (s.dom d).rate x.rate r).modDom d fun z =>
    { z with rate := x.rate, block := x.block, si := r, begun := r, running := true, pull := if roast then x.pull else z.pull }

/-- The media PLL of a domain that restarts. -/
def State.restartMpll (d : Nat) (x : DomainShare) (roast sameHz : Bool) : State :=
  if roast then s.modMpll d fun m => { m with offset := x.pull } else if sameHz then s else (s.enterAcquire d).unalign d

/-- It is aligned where it is locked and the time is not local. -/
def State.realign (d loc : Nat) : State :=
  if s.get (Reg.CLK_MPLL_STATE_STATE d) = locked ∧ loc = 0 then s.setMask Reg.TIME_STATUS_ALIGNED d else s

/-- The ramp up of a domain is set. -/
def State.setRange (d v : Nat) : State := { s with pwr := { s.pwr with range := Tab.put 0 s.pwr.range d v } }

/-- Converters settle, and the sources of the domain start again. -/
def State.restartInputs (d : Nat) : State :=
  let t := if s.convDom = d then s.each (List.range 4) fun c t => t.unsettle c else s
  t.each (t.audio.asrc.map (·.1)) fun a t =>
    match t.active with
    | some i => if t.addrDomain i true a = some d then t.restartAsrc a else t
    | none => t

/-- The restart boundary: on the roast form by pulled time, else after the stop (R720, log entry 69). -/
def State.restartBoundary (d si : Nat) (x : DomainShare) : Nat :=
  if s.pendingBank.roast then ceilDiv si (max 1 x.block) * max 1 x.block
  else restartSi (s.dom d).si (s.dom d).rate x.rate x.block (if frameHz (s.dom d).rate == frameHz x.rate then 1 else 10)

theorem exec_rangeRestart {s : State} {d : Fin 3} (si : BitVec 64) {n : SchedImage} {x : DomainShare}
    (image : s.pendingBank.image = some n) (share : shareOf n d = some x) (stopped : Tab.get 0 s.pwr.range d = 2) :
    let r := s.restartBoundary d si.toNat x
    let roast := s.pendingBank.roast
    exec (.rangeRestart d si) s =
      .next ((((((((s.restartAt d r x roast).restartMpll d x roast (frameHz (s.dom d).rate == frameHz x.rate)).realign d
        (s.get Reg.TIME_STATUS_LOCAL)).makeSwitch n d false).restage d).restartStd d).setRange d (3 + (r + 2 * max 1 x.block))).restartInputs
          d) := by
  change execRangeRestart d si s = _
  unfold execRangeRestart
  dsimp only
  rw [image]
  dsimp only
  rw [share]
  dsimp only
  rw [if_neg (not_not_intro stopped)]
  unfold State.restartInputs State.setRange State.realign State.restartMpll State.restartAt State.restartBoundary
  refine congrArg Host.Outcome.next ?_
  -- In a file of its own this text's `match` on the active schedule has another matcher than the model's: `congr` joins the two.
  dsimp only <;> congr 1

theorem State.standing_restartMpll (d : Nat) (x : DomainShare) (roast sameHz : Bool) :
    (s.restartMpll d x roast sameHz).standing = s.standing := by simp [State.restartMpll]

theorem State.standing_realign (d loc : Nat) : (s.realign d loc).standing = s.standing := by simp [State.realign]

theorem State.standing_restartInputs (d : Nat) : (s.restartInputs d).standing = s.standing := by
  unfold State.restartInputs
  dsimp only
  refine (State.standing_each _ _ _ fun a t => ?_).trans (by simp)
  split <;> simp

/-- A domain runs; what it stands on is as it was. -/
def DomStanding.runs (x : DomStanding) : DomStanding := { x with running := true }

section Same
variable {s} {n : SchedImage} {d : Nat} {x : DomainShare} (share : shareOf n d = some x)
  (configured : (s.dom d).configured = true) (rate : (s.dom d).rate = x.rate) (block : (s.dom d).block = x.block)
include share configured rate block

theorem State.setUp_same : ((s.setUp n d).dom d).standing = (s.dom d).standing.runs ∧ (s.setUp n d).pwr.range = s.pwr.range := by
  have standing := s.standing_setUp n d
  rw [State.configureDomain_same s share configured rate block] at standing
  have range := State.range_of_standing standing
  refine ⟨(State.dom_of_standing standing d).trans ?_, range⟩
  rw [State.dom_modDom, if_pos rfl]
  rfl

theorem State.takeUp_same :
    ((s.takeUp n d false).dom d).standing = (s.dom d).standing.runs ∧ (s.takeUp n d false).pwr.range = s.pwr.range := by
  have setUp := State.setUp_same (s := s.modSched (.load (s.changedClusters s.active (some n) d))) share configured rate block
  have unfaded : s.fadeLeft n d false = s := rfl
  rw [State.takeUp, unfaded]
  generalize State.setUp _ n d = t at *
  obtain ⟨-, doms, pwr⟩ := t.settleIn_spec n d
  rw [State.dom, doms, pwr]
  exact setUp

/-- A domain that already has the rate and block of its share switches without a change of them. -/
theorem State.makeSwitch_same :
    ((s.makeSwitch n d false).dom d).standing = (s.dom d).standing.runs ∧ (s.makeSwitch n d false).pwr.range = s.pwr.range := by
  have taken := State.takeUp_same share configured rate block
  rw [s.makeSwitch_eq]
  generalize s.takeUp n d false = t at *
  split <;> exact taken

end Same

theorem State.restartAt_spec (d r : Nat) (x : DomainShare) (roast : Bool) (configured : (s.dom d).configured = true) :
    ((s.restartAt d r x roast).dom d).standing = ⟨true, x.rate, x.block, r, true⟩ := by
  obtain ⟨kept, -⟩ := s.convertItems_spec d (s.dom d).rate x.rate r
  unfold State.restartAt
  rw [State.dom_modDom, if_pos rfl]
  exact congrArg (DomStanding.mk · x.rate x.block r true) (kept.trans configured)

/-- The domain runs at the rate and block of its share from the restart boundary on, and its ramp up is set (R720). -/
theorem State.rangeRestart_spec {d : Nat} {n : SchedImage} {x : DomainShare} (share : shareOf n d = some x)
    (configured : (s.dom d).configured = true) (r : Nat) (roast sameHz : Bool) (loc v : Nat) :
    let t := ((((((s.restartAt d r x roast).restartMpll d x roast sameHz).realign d loc).makeSwitch n d false).restage d).restartStd
      d).setRange d v |>.restartInputs d
    (t.dom d).standing = ⟨true, x.rate, x.block, r, true⟩ ∧ Tab.get 0 t.pwr.range d = v := by
  have restarted := s.restartAt_spec d r x roast configured
  generalize s.restartAt d r x roast = t1 at *
  have clocks := (State.standing_realign (t1.restartMpll d x roast sameHz) d loc).trans (t1.standing_restartMpll d x roast sameHz)
  generalize (t1.restartMpll d x roast sameHz).realign d loc = t2 at *
  have ready := (State.dom_of_standing clocks d).trans restarted
  obtain ⟨switched, -⟩ := State.makeSwitch_same share (congrArg DomStanding.configured ready) (congrArg DomStanding.rate ready)
    (congrArg DomStanding.block ready)
  generalize t2.makeSwitch n d false = t3 at *
  have staged := (State.standing_restartStd (t3.restage d) d).trans (t3.standing_restage d)
  generalize (t3.restage d).restartStd d = t4 at *
  have inputs := (t4.setRange d v).standing_restartInputs d
  have range : Tab.get 0 (t4.setRange d v).pwr.range d = v := Tab.get_put_same 0 _ d v
  have dom : ((t4.setRange d v).dom d).standing = (t4.dom d).standing := rfl
  generalize t4.setRange d v = t5 at *
  refine ⟨(State.dom_of_standing inputs d).trans (dom.trans ((State.dom_of_standing staged d).trans ?_)), ?_⟩
  · rw [switched, ready]
    rfl
  · rw [State.range_of_standing inputs]
    exact range

end Sys2Proof.Machine

namespace Sys2Proof.Machine

/-- Settles O24: a switch leaves the schedules to `State.turnOver` alone, a stop reaches its domain and regions, and a restart counts
the items anew before the domain takes its share; its boundary is that of log entry 69. -/
theorem scheduleSwitchAndRange : Obligations.ScheduleSwitchAndRange := by
  unfold Obligations.ScheduleSwitchAndRange
  refine ⟨fun d s n image armed last => ⟨fun due => ⟨fun same => ?_, fun changes stands => ?_⟩, fun early => ?_⟩,
    fun d s down ramped => ?_, fun d si s n x image share stopped configured => ?_⟩
  · have switches := exec_scheduleSwitch image armed last
    rw [if_pos ((s.reached_iff d _).2 due), same] at switches
    exact ⟨_, switches, State.makeSwitch_last image last true⟩
  · have begins := exec_scheduleSwitch image armed last
    rw [if_pos ((s.reached_iff d _).2 due), changes, if_pos stands] at begins
    exact ⟨_, begins, s.beginRange_spec n d⟩
  · rw [exec_scheduleSwitch image armed last, if_neg (early ∘ (s.reached_iff d _).1)]
  · obtain ⟨doms, units, sched, pwr, stopped⟩ := (s.haltPipeline d).each_stopClock (s.activeRegions d)
    have dom (e : Nat) : (s.haltPipeline d).dom e = if e = d then { s.dom d with running := false } else s.dom e :=
      State.dom_modDom _ d e _
    have stops := exec_rangePipelineStop s d down ramped
    generalize (s.haltPipeline d).each (s.activeRegions d) _ = t at *
    have domain (e : Nat) : t.dom e = (s.haltPipeline d).dom e := by rw [State.dom, doms]; rfl
    refine ⟨t, stops, ?_, ?_, ?_, fun e h => ?_, units, sched, fun i g active low own => stopped g (.inl ?_)⟩
    · rw [pwr]
      exact Tab.get_put_same 0 _ d 2
    · rw [domain, dom, if_pos rfl]
    · rw [domain, dom, if_pos rfl]
    · rw [domain, dom, if_neg h]
    · simp [State.activeRegions, active, low, own]
  · have boundary : s.restartBoundary d si.toNat x = if s.pendingBank.roast = true then
        ceilDiv si.toNat (max 1 x.block) * max 1 x.block
      else restartSi (s.dom d).si (s.dom d).rate x.rate x.block (if frameHz (s.dom d).rate = frameHz x.rate then 1 else 10) := by
      simp only [State.restartBoundary, beq_iff_eq]
    have restarts := exec_rangeRestart si image share stopped
    dsimp only at restarts ⊢
    rw [← boundary]
    obtain ⟨standing, range⟩ := s.rangeRestart_spec share configured (s.restartBoundary d si.toNat x) s.pendingBank.roast
      (frameHz (s.dom d).rate == frameHz x.rate) (s.get Reg.TIME_STATUS_LOCAL) (3 + (s.restartBoundary d si.toNat x + 2 * max 1 x.block))
    generalize State.restartInputs _ d = t at *
    exact ⟨t, restarts, congrArg DomStanding.rate standing, congrArg DomStanding.block standing, congrArg DomStanding.si standing,
      congrArg DomStanding.running standing, range⟩

end Sys2Proof.Machine
end

