-- ==== Sys2Proof/Proofs/Words.lean ====
section
/-! PROOF. Words and the operations they stand for (R176–R178, R237, R238, R249, R251, R256, R263, R264, R271). -/

namespace Sys2Proof

open Machine

variable (o : Op)

/-! ### The fields of a slot word (R177) -/

theorem Op.word_eq (op : Nat) : o.word op =
    op * 2 ^ 23 + o.pred.val * 2 ^ 20 + o.d.val * 2 ^ 14 + o.a.val * 2 ^ 8 + o.b.val * 4 + o.m.val := rfl

/-- The operation in a slot word is any of 7 bits. -/
theorem Op.sOp_word {op : Nat} (h : op < 128) : sOp (o.word op) = op := by
  simp only [sOp, sf, Op.word_eq]; omega

theorem Op.sPred_word (op : Nat) : sPred (o.word op) = o.pred.val := by simp only [sPred, sf, Op.word_eq]; omega
theorem Op.sD_word (op : Nat) : sD (o.word op) = o.d.val := by simp only [sD, sf, Op.word_eq]; omega
theorem Op.sA_word (op : Nat) : sA (o.word op) = o.a.val := by simp only [sA, sf, Op.word_eq]; omega
theorem Op.sB_word (op : Nat) : sB (o.word op) = o.b.val := by simp only [sB, sf, Op.word_eq]; omega
theorem Op.sM_word (op : Nat) : sM (o.word op) = o.m.val := by simp only [sM, sf, Op.word_eq]; omega

/-- A slot word gives back its operands; what the bundle says is set by the bundle. -/
theorem slotOperands_word (op : Nat) :
    slotOperands o.u (o.word op) = { o with last := false, rot := false, second := false } := by
  simp [slotOperands, Op.sPred_word, Op.sD_word, Op.sA_word, Op.sB_word, Op.sM_word]

/-- The last operation of its bundle, without rotation, in the first place of its slot. -/
abbrev Op.Sole (o : Op) : Prop := o.last = true ∧ o.rot = false ∧ o.second = false

variable {o}

theorem Op.Sole.operands (h : o.Sole) (op : Nat) : { slotOperands o.u (o.word op) with last := true } = o := by
  obtain ⟨last, rot, second⟩ := h
  rw [slotOperands_word]
  cases o
  simp_all

theorem Op.Sole.wordInstr_M (h : o.Sole) {op : Nat} (bits : op < 128) : wordInstr o.u 0 (o.word op) = mInstr op o := by
  rw [wordInstr, h.operands, if_pos rfl, o.sOp_word bits]

theorem Op.Sole.wordInstr_I (h : o.Sole) {op : Nat} (bits : op < 128) :
    wordInstr o.u 2 (o.word op) = iInstr op (o.word op) o := by
  rw [wordInstr, h.operands, if_neg (by decide), if_pos rfl, o.sOp_word bits]

theorem Op.Sole.wordInstr_L (h : o.Sole) {op : Nat} (bits : op < 128) : wordInstr o.u 3 (o.word op) = lInstr op o := by
  rw [wordInstr, h.operands, if_neg (by decide), if_neg (by decide), if_pos rfl, o.sOp_word bits]

/-! ### The tables of opcodes (R238, R249, R256) -/

theorem mOps_bits (o : Op) : ∀ e ∈ mOps o, e.2 < 128 := by simp [mOps]
theorem iOps_bits (o : Op) : ∀ e ∈ iOps o, e.2 < 128 := by simp [iOps]
theorem lOps_bits (o : Op) : ∀ e ∈ lOps o .clean ++ [(.ldt o, 0x11)], e.2 < 128 := by simp [lOps]

theorem mOps_read (o : Op) : ∀ e ∈ mOps o, e.1.word = some (0, o.word e.2) ∧ mInstr e.2 o = some e.1 := by
  unfold mOps
  repeat refine List.forall_mem_cons.2 ⟨⟨rfl, rfl⟩, ?_⟩
  exact List.forall_mem_nil _

theorem iOps_read (o : Op) : ∀ e ∈ iOps o, e.1.word = some (2, o.word e.2) ∧ ∀ v, iInstr e.2 v o = some e.1 := by
  unfold iOps
  repeat refine List.forall_mem_cons.2 ⟨⟨rfl, fun _ => rfl⟩, ?_⟩
  exact List.forall_mem_nil _

theorem lOps_read (o : Op) : ∀ e ∈ lOps o .clean ++ [(.ldt o, 0x11)],
    e.1.word = some (3, o.word e.2) ∧ lInstr e.2 o = some e.1 := by
  unfold lOps
  repeat refine List.forall_mem_cons.2 ⟨⟨rfl, rfl⟩, ?_⟩
  exact List.forall_mem_nil _

/-! ### MOVI (R251) -/

theorem Op.moviWord_fields (o : Op) (imm : BitVec 12) : sOp (o.moviWord imm) = 0x23 ∧ sPred (o.moviWord imm) = o.pred ∧
    sD (o.moviWord imm) = o.d ∧ sM (o.moviWord imm) = o.m ∧ sf (o.moviWord imm) 13 2 = imm.toNat := by
  have width := imm.isLt
  simp only [sOp, sPred, sD, sM, sf, Op.moviWord]
  omega

theorem Op.Sole.wordInstr_movi (h : o.Sole) (a : o.a = 0) (b : o.b = 0) (imm : BitVec 12) :
    wordInstr o.u 2 (o.moviWord imm) = some (.movi o imm) := by
  obtain ⟨last, rot, second⟩ := h
  obtain ⟨op, pred, d, m, value⟩ := o.moviWord_fields imm
  simp only [wordInstr, slotOperands, iInstr, op, pred, d, m, value]
  cases o
  simp_all

/-! ### Control operations (R263, R264) -/

theorem Op.cOp_ctlWord (o : Op) {cop n : Nat} (bits : cop < 128) (width : n < 2 ^ 50) : cOp (o.ctlWord cop n) = cop := by
  simp only [cOp, sf, Op.ctlWord]; omega

theorem Op.cPred_ctlWord (o : Op) (cop : Nat) {n : Nat} (width : n < 2 ^ 50) : cPred (o.ctlWord cop n) = o.pred := by
  simp only [cPred, sf, Op.ctlWord]; omega

/-- A field below bit 50 is one of the operand bits. -/
theorem Op.sf_ctlWord (o : Op) (cop n lo hi : Nat) (order : lo ≤ hi) (low : hi < 50) :
    sf (o.ctlWord cop n) hi lo = sf n hi lo := by
  have split : 2 ^ 50 = 2 ^ lo * (2 ^ (hi + 1 - lo) * 2 ^ (49 - hi)) := by
    rw [← pow_add, ← pow_add]; congr 1; omega
  have word : o.ctlWord cop n = n + 2 ^ lo * (2 ^ (hi + 1 - lo) * (2 ^ (49 - hi) * (cop * 8 + o.pred))) := by
    rw [Op.ctlWord, show cop * 2 ^ 53 + o.pred.val * 2 ^ 50 = 2 ^ 50 * (cop * 8 + o.pred.val) by ring, split]; ring
  rw [sf, word, Nat.add_mul_div_left _ _ (Nat.two_pow_pos lo), Nat.add_mul_mod_self_left, sf]

theorem BrTarget.bits_lt (t : BrTarget) : t.bits < 2 ^ 50 := by cases t <;> simp only [BrTarget.bits] <;> omega

/-- The operand bits of BRC beside its target: CP in bits 48..46, SENSE in bit 45 (R264). -/
theorem brc_bits (t : BrTarget) (cp : Fin 8) (sense : Bool) : (t.bits + cp.val * 2 ^ 46 + if sense then 2 ^ 45 else 0) =
    t.bits + (cp.val * 2 + sense.toNat) * 2 ^ 45 := by
  cases sense <;> simp <;> omega

theorem brc_bits_lt (t : BrTarget) (cp : Fin 8) (sense : Bool) : t.bits + (cp.val * 2 + sense.toNat) * 2 ^ 45 < 2 ^ 50 := by
  have := sense.toNat_lt
  cases t <;> simp only [BrTarget.bits] <;> omega

theorem loop_bits_lt (level : Fin 4) (c : LoopCount) (fin : Fin 1024) : level.val * 2 ^ 48 + c.bits + fin.val < 2 ^ 50 := by
  cases c <;> simp only [LoopCount.bits] <;> omega

/-- A branch target is read back under any operands beside it, which stand in bits 48..45. -/
theorem cTarget_ctlWord (o : Op) (cop : Nat) (t : BrTarget) {beside : Nat} (width : beside < 16) :
    cTarget (o.ctlWord cop (t.bits + beside * 2 ^ 45)) = t := by
  simp only [cTarget, o.sf_ctlWord cop _ 49 49 (by decide) (by decide), o.sf_ctlWord cop _ 40 44 (by decide) (by decide),
    o.sf_ctlWord cop _ 0 9 (by decide) (by decide)]
  cases t with
  | addr t =>
    have direct : ¬ sf (BrTarget.bits (.addr t) + beside * 2 ^ 45) 49 49 = 1 := by simp only [sf, BrTarget.bits]; omega
    have field : sf (BrTarget.bits (.addr t) + beside * 2 ^ 45) 9 0 = t := by simp only [sf, BrTarget.bits]; omega
    rw [if_neg direct, field, Fin.ofNat_val_eq_self]
  | reg r =>
    have direct : sf (BrTarget.bits (.reg r) + beside * 2 ^ 45) 49 49 = 1 := by simp only [sf, BrTarget.bits]; omega
    have field : sf (BrTarget.bits (.reg r) + beside * 2 ^ 45) 44 40 = r := by simp only [sf, BrTarget.bits]; omega
    rw [if_pos direct, field, Fin.ofNat_val_eq_self]

/-- A loop count is read back between the level, in bits 49..48, and the end of the body, in bits 9..0. -/
theorem cCount_ctlWord (o : Op) (level : Fin 4) (c : LoopCount) (fin : Fin 1024) :
    cCount (o.ctlWord 0x05 (level.val * 2 ^ 48 + c.bits + fin.val)) = c := by
  simp only [cCount, o.sf_ctlWord 5 _ 47 47 (by decide) (by decide), o.sf_ctlWord 5 _ 40 44 (by decide) (by decide),
    o.sf_ctlWord 5 _ 20 39 (by decide) (by decide)]
  cases c with
  | imm k =>
    have immediate : sf (level.val * 2 ^ 48 + LoopCount.bits (.imm k) + fin.val) 47 47 = 1 := by
      simp only [sf, LoopCount.bits]; omega
    have field : sf (level.val * 2 ^ 48 + LoopCount.bits (.imm k) + fin.val) 39 20 = k := by
      simp only [sf, LoopCount.bits]; omega
    rw [if_pos immediate, field, Fin.ofNat_val_eq_self]
  | reg r =>
    have register : ¬ sf (level.val * 2 ^ 48 + LoopCount.bits (.reg r) + fin.val) 47 47 = 1 := by
      simp only [sf, LoopCount.bits]; omega
    have field : sf (level.val * 2 ^ 48 + LoopCount.bits (.reg r) + fin.val) 44 40 = r := by
      simp only [sf, LoopCount.bits]; omega
    rw [if_neg register, field, Fin.ofNat_val_eq_self]

/-- The operands that a control operation has, with those that it has not at 0. -/
theorem wordInstr_ctlWord (o : Op) (cop : Nat) {n : Nat} (width : n < 2 ^ 50) :
    wordInstr o.u 4 (o.ctlWord cop n) = cInstr (o.ctlWord cop n) { u := o.u, pred := o.pred } := by
  simp [wordInstr, o.cPred_ctlWord cop width]

/-- What a control operation has of its operands when all of its slot fields are 0. -/
theorem Op.Sole.guardOnly (sole : o.Sole) (d : o.d = 0) (a : o.a = 0) (b : o.b = 0) (m : o.m = 0) :
    { u := o.u, pred := o.pred } = o := by
  obtain ⟨last, rot, second⟩ := sole
  cases o
  simp_all

/-- A control operation is read back from the word that encodes it. -/
def Instr.ReadsBack (u : Fin 516) (i : Instr) : Prop := ∀ k w, i.word = some (k, w) → k = 4 ∧ wordInstr u k w = some i

/-- It is, when the word's operand bits give the operation on the operands of the guard alone. -/
theorem Instr.readsBack_of {i : Instr} {o : Op} {cop n : Nat} (word : i.word = some (4, o.ctlWord cop n)) (width : n < 2 ^ 50)
    (read : cInstr (o.ctlWord cop n) { u := o.u, pred := o.pred } = some i) : i.ReadsBack o.u := by
  intro k w same
  obtain ⟨rfl, rfl⟩ := Prod.mk.inj (Option.some.inj (word.symm.trans same))
  exact ⟨rfl, (wordInstr_ctlWord o cop width).trans read⟩

section
variable (guardOnly : { u := o.u, pred := o.pred } = o)
include guardOnly

/-- BR and CALL have the operand bits of their target alone. -/
theorem Instr.readsBack_target {i : Instr} {cop : Nat} (bits : cop < 128) (t : BrTarget) (word : i.word = some (4, o.ctlWord cop t.bits))
    (read : ∀ v, cOp v = cop → cTarget v = t → cInstr v o = some i) : i.ReadsBack o.u := by
  refine Instr.readsBack_of word t.bits_lt ?_
  rw [guardOnly]
  exact read _ (o.cOp_ctlWord bits t.bits_lt) (cTarget_ctlWord o cop t (beside := 0) (by decide))

theorem Instr.readsBack_br (t : BrTarget) : (Instr.br o t).ReadsBack o.u :=
  Instr.readsBack_target guardOnly (cop := 1) (by decide) t rfl fun v code target => by simp only [cInstr, code, target]

theorem Instr.readsBack_call (t : BrTarget) : (Instr.call o t).ReadsBack o.u :=
  Instr.readsBack_target guardOnly (cop := 3) (by decide) t rfl fun v code target => by simp only [cInstr, code, target]

theorem Instr.readsBack_brc (t : BrTarget) (cp : Fin 8) (sense : Bool) : (Instr.brc o t cp sense).ReadsBack o.u := by
  have narrow : cp.val * 2 + sense.toNat < 16 := by have := sense.toNat_lt; omega
  have width := brc_bits_lt t cp sense
  have high : sf (t.bits + (cp.val * 2 + sense.toNat) * 2 ^ 45) 48 46 = cp := by
    have := sense.toNat_lt
    cases t <;> simp only [BrTarget.bits, sf] <;> omega
  have low : sf (t.bits + (cp.val * 2 + sense.toNat) * 2 ^ 45) 45 45 = sense.toNat := by
    have := sense.toNat_lt
    cases t <;> simp only [BrTarget.bits, sf] <;> omega
  refine Instr.readsBack_of (congrArg (fun n => some (4, o.ctlWord 2 n)) (brc_bits t cp sense)) width ?_
  rw [guardOnly, cInstr, o.cOp_ctlWord (by decide) width]
  simp only [cTarget_ctlWord o 2 t narrow, o.sf_ctlWord 2 _ 46 48 (by decide) (by decide),
    o.sf_ctlWord 2 _ 45 45 (by decide) (by decide), high, low, Fin.ofNat_val_eq_self]
  cases sense <;> rfl

theorem Instr.readsBack_loop (level : Fin 4) (c : LoopCount) (fin : Fin 1024) : (Instr.loop o level c fin).ReadsBack o.u := by
  have width := loop_bits_lt level c fin
  have high : sf (level.val * 2 ^ 48 + c.bits + fin.val) 49 48 = level := by
    cases c <;> simp only [LoopCount.bits, sf] <;> omega
  have low : sf (level.val * 2 ^ 48 + c.bits + fin.val) 9 0 = fin := by
    cases c <;> simp only [LoopCount.bits, sf] <;> omega
  refine Instr.readsBack_of rfl width ?_
  rw [guardOnly, cInstr, o.cOp_ctlWord (by decide) width]
  simp only [cCount_ctlWord, o.sf_ctlWord 5 _ 48 49 (by decide) (by decide),
    o.sf_ctlWord 5 _ 0 9 (by decide) (by decide), high, low, Fin.ofNat_val_eq_self]

theorem Instr.readsBack_trap (code : BitVec 12) : (Instr.trap o code).ReadsBack o.u := by
  have width : code.toNat < 2 ^ 50 := by omega
  have low : sf code.toNat 11 0 = code.toNat := by simp only [sf]; omega
  refine Instr.readsBack_of rfl width ?_
  rw [guardOnly, cInstr, o.cOp_ctlWord (by decide) width]
  simp only [o.sf_ctlWord 7 _ 0 11 (by decide) (by decide), low, BitVec.ofNat_toNat, BitVec.setWidth_eq]

/-- RET, HALT, SYNC, WAITDMA and RETT have no operand bits. -/
theorem Instr.readsBack_bare : ∀ i ∈ [Instr.ret o, .halt o, .sync o, .waitdma o, .rett o], i.ReadsBack o.u := by
  have bare {i : Instr} {cop : Nat} (bits : cop < 128) (word : i.word = some (4, o.ctlWord cop 0))
      (read : ∀ v, cOp v = cop → cInstr v o = some i) : i.ReadsBack o.u :=
    Instr.readsBack_of word (by decide) (by rw [guardOnly]; exact read _ (o.cOp_ctlWord bits (by decide)))
  simp only [List.forall_mem_cons, List.not_mem_nil, false_imp_iff, implies_true, and_true]
  refine ⟨bare (cop := 4) ?_ rfl ?_, bare (cop := 6) ?_ rfl ?_, bare (cop := 8) ?_ rfl ?_, bare (cop := 9) ?_ rfl ?_,
    bare (cop := 0x0C) ?_ rfl ?_⟩ <;> simp +contextual [cInstr]

end

/-! ### Moves from and to special registers (R270) -/

/-- MOVS and MOVX name an A register in bits 44..40 and a special register in bits 7..0. -/
theorem Instr.readsBack_move {i : Instr} {cop : Nat} (bits : cop < 128) {r : Fin 64} (low : r.val < 32) (sr : Fin 256)
    (word : i.word = some (4, o.ctlWord cop (r.val * 2 ^ 40 + sr.val)))
    (read : ∀ v, cOp v = cop → sf v 44 40 = r → sf v 7 0 = sr → cInstr v { u := o.u, pred := o.pred } = some i) :
    i.ReadsBack o.u := by
  have width : r.val * 2 ^ 40 + sr.val < 2 ^ 50 := by omega
  have register : sf (r.val * 2 ^ 40 + sr.val) 44 40 = r := by simp only [sf]; omega
  have special : sf (r.val * 2 ^ 40 + sr.val) 7 0 = sr := by simp only [sf]; omega
  exact Instr.readsBack_of word width (read _ (o.cOp_ctlWord bits width)
    ((o.sf_ctlWord cop _ 40 44 (by decide) (by decide)).trans register)
    ((o.sf_ctlWord cop _ 0 7 (by decide) (by decide)).trans special))

theorem Op.Sole.readsBack_movs (sole : o.Sole) (low : o.d.val < 32) (a : o.a = 0) (b : o.b = 0) (m : o.m = 0) (sr : Fin 256) :
    (Instr.movs o sr).ReadsBack o.u := by
  obtain ⟨last, rot, second⟩ := sole
  refine Instr.readsBack_move (cop := 10) (by decide) low sr rfl fun v code register special => ?_
  rw [cInstr, code]
  simp only [register, special, Fin.ofNat_val_eq_self]
  cases o
  simp_all

theorem Op.Sole.readsBack_movx (sole : o.Sole) (low : o.a.val < 32) (d : o.d = 0) (b : o.b = 0) (m : o.m = 0) (sr : Fin 256) :
    (Instr.movx o sr).ReadsBack o.u := by
  obtain ⟨last, rot, second⟩ := sole
  refine Instr.readsBack_move (cop := 11) (by decide) low sr rfl fun v code register special => ?_
  rw [cInstr, code]
  simp only [register, special, Fin.ofNat_val_eq_self]
  cases o
  simp_all

/-! ### Bundles (R176, R178, R271) -/

theorem Op.limmBits_toNat (o : Op) (isF : Bool) (imm : BitVec 64) : (o.limmBits isF imm).toNat =
    2 * 2 ^ 120 + isF.toNat * 2 ^ 119 + o.d.val * 2 ^ 113 + o.pred.val * 2 ^ 110 + imm.toNat := by
  cases isF <;> simp [Op.limmBits] <;> omega

/-- A long immediate gives back its fields. -/
theorem Op.limmBits_fields (o : Op) (isF : Bool) (imm : BitVec 64) :
    bf (o.limmBits isF imm) 122 120 = 2 ∧ bf (o.limmBits isF imm) 126 126 = 0 ∧ bf (o.limmBits isF imm) 119 119 = isF.toNat ∧
      bf (o.limmBits isF imm) 118 113 = o.d ∧ bf (o.limmBits isF imm) 112 110 = o.pred ∧ bf (o.limmBits isF imm) 63 0 = imm.toNat := by
  have flag := isF.toNat_lt
  have value := imm.isLt
  simp only [bf, Op.limmBits_toNat]
  omega

theorem Op.Sole.bundleOps_limm (sole : o.Sole) (a : o.a = 0) (b : o.b = 0) (m : o.m = 0) (isF : Bool) (imm : BitVec 64) :
    bundleOps o.u (o.limmBits isF imm) = [.longImmediate o isF imm] := by
  obtain ⟨kind, turns, file, d, pred, value⟩ := o.limmBits_fields isF imm
  simp only [bundleOps, bundleRot, turns, bundleSlots, bundleKind, kind, file, d, pred, value]
  obtain ⟨last, rot, second⟩ := sole
  cases o
  cases isF <;> simp_all [lastEnds, endsBundle]

/-- The bundle of KIND 0 with four slot words. -/
def bundleOf (w0 w1 w2 w3 : Nat) : BitVec 128 := BitVec.ofNat 128 (w0 * 2 ^ 90 + w1 * 2 ^ 60 + w2 * 2 ^ 30 + w3)

/-- A bundle of KIND 0 gives back its slots and does not rotate. -/
theorem bundleOf_slots {w0 w1 w2 w3 : Nat} (h0 : w0 < 2 ^ 30) (h1 : w1 < 2 ^ 30) (h2 : w2 < 2 ^ 30) (h3 : w3 < 2 ^ 30) :
    bundleKind (bundleOf w0 w1 w2 w3) = 0 ∧ bundleRot (bundleOf w0 w1 w2 w3) = false ∧ slotM0 (bundleOf w0 w1 w2 w3) = w0 ∧
      slotM1 (bundleOf w0 w1 w2 w3) = w1 ∧ slotI (bundleOf w0 w1 w2 w3) = w2 ∧ slotL (bundleOf w0 w1 w2 w3) = w3 := by
  have bits : (bundleOf w0 w1 w2 w3).toNat = w0 * 2 ^ 90 + w1 * 2 ^ 60 + w2 * 2 ^ 30 + w3 := by
    rw [bundleOf, BitVec.toNat_ofNat]; omega
  have turns : bf (bundleOf w0 w1 w2 w3) 126 126 = 0 := by simp only [bf, bits]; omega
  refine ⟨?_, by rw [bundleRot, turns]; rfl, ?_⟩
  · simp only [bundleKind, bf, bits]; omega
  · simp only [slotM0, slotM1, slotI, slotL, bf, bits]; omega

theorem Op.word_lt (o : Op) {op : Nat} (bits : op < 128) : o.word op < 2 ^ 30 := by rw [Op.word_eq]; omega

/-- An operation that does not end its bundle, in M1 or not. -/
abbrev Op.Within (o : Op) (u : Fin 516) (second : Bool) : Prop :=
  o.u = u ∧ o.last = false ∧ o.rot = false ∧ o.second = second

theorem Op.Within.operands {u : Fin 516} {second : Bool} (h : o.Within u second) (op : Nat) :
    { slotOperands u (o.word op) with second := second } = o := by
  obtain ⟨unit, last, rot, place⟩ := h
  rw [← unit, slotOperands_word]
  cases o
  simp_all

theorem Op.Within.integer {u : Fin 516} (h : o.Within u false) (op : Nat) : slotOperands u (o.word op) = o := h.operands op

theorem Op.Sole.ends (sole : o.Sole) (op : Nat) : endsBundle false (slotOperands o.u (o.word op)) = o := sole.operands op

section Four

variable {p q r : Op} {i j k l : Nat} (sole : o.Sole) (first : p.Within o.u false) (next : q.Within o.u true)
  (third : r.Within o.u false) (hi : 0 < i ∧ i < 128) (hj : 0 < j ∧ j < 128) (hk : 0 < k ∧ k < 128) (hl : 0 < l ∧ l < 128)
include sole first next third hi hj hk hl

theorem bundleOps_of_slots {w : BitVec 128} (kind : bundleKind w = 0) (turns : bundleRot w = false) (m0 : slotM0 w = p.word i)
    (m1 : slotM1 w = q.word j) (integer : slotI w = r.word k) (mem : slotL w = o.word l) :
    bundleOps o.u w =
      (mInstr i p).toList ++ ((mInstr j q).toList ++ ((iInstr k (r.word k) r).toList ++ (lInstr l o).toList)) := by
  simp only [bundleOps, turns, bundleSlots, kind, m0, m1, integer, mem, p.sOp_word hi.2, q.sOp_word hj.2, r.sOp_word hk.2,
    o.sOp_word hl.2, if_neg hi.1.ne', if_neg hj.1.ne', if_neg hk.1.ne', if_neg hl.1.ne', first.operands, next.operands,
    third.integer, if_true, List.cons_append, List.nil_append, lastEnds, sole.ends]

/-- Whatever its four operations, a bundle of KIND 0 issues them in slot order, and the last one ends it. -/
theorem bundleOps_four : bundleOps o.u (bundleOf (p.word i) (q.word j) (r.word k) (o.word l)) =
    (mInstr i p).toList ++ ((mInstr j q).toList ++ ((iInstr k (r.word k) r).toList ++ (lInstr l o).toList)) := by
  obtain ⟨kind, turns, m0, m1, integer, mem⟩ :=
    bundleOf_slots (p.word_lt hi.2) (q.word_lt hj.2) (r.word_lt hk.2) (o.word_lt hl.2)
  exact bundleOps_of_slots sole first next third hi hj hk hl kind turns m0 m1 integer mem

end Four

end Sys2Proof

namespace Sys2Proof.Machine

/-- Settles O59: every field of a word is read back by its place in the word, so the operands are those of the operation, and the
tables of opcodes give its constructor. -/
theorem wordsGiveTheirOperations : Obligations.WordsGiveTheirOperations := by
  unfold Obligations.WordsGiveTheirOperations
  intro o last rot second
  have sole : o.Sole := ⟨last, rot, second⟩
  refine ⟨fun e mem _ => ?_, fun e mem _ => ?_, fun imm enc => ?_, fun e mem _ => ?_, fun enc t cp sense level c fin code k w => ?_,
    fun r w low a b m word => (sole.readsBack_movs low a b m r 4 w word).2,
    fun r w low d b m word => (sole.readsBack_movx low d b m r 4 w word).2,
    fun isF imm _ a b m => sole.bundleOps_limm a b m isF imm,
    fun p q r pu qu ru pl ql rl pr qr rr ps qs rs => ?_⟩
  · obtain ⟨word, read⟩ := mOps_read o e mem
    exact ⟨word, (sole.wordInstr_M (mOps_bits o e mem)).trans read⟩
  · obtain ⟨word, read⟩ := iOps_read o e mem
    exact ⟨word, (sole.wordInstr_I (iOps_bits o e mem)).trans (read _)⟩
  · simp only [Op.inMovi, Bool.and_eq_true, decide_eq_true_eq] at enc
    obtain ⟨⟨⟨⟨-, a⟩, b⟩, -⟩, -⟩ := enc
    exact sole.wordInstr_movi a b imm
  · obtain ⟨word, read⟩ := lOps_read o e mem
    exact ⟨word, (sole.wordInstr_L (lOps_bits o e mem)).trans read⟩
  · simp only [Op.inC, Bool.and_eq_true, decide_eq_true_eq] at enc
    obtain ⟨⟨⟨⟨d, a⟩, b⟩, m⟩, -⟩ := enc
    have guardOnly := sole.guardOnly d a b m
    have bare := Instr.readsBack_bare guardOnly
    simp only [List.forall_mem_cons, List.not_mem_nil, false_imp_iff, implies_true, and_true] at bare ⊢
    obtain ⟨ret, halt, sync, waitdma, rett⟩ := bare
    exact ⟨Instr.readsBack_br guardOnly t k w, Instr.readsBack_brc guardOnly t cp sense k w, Instr.readsBack_call guardOnly t k w,
      ret k w, Instr.readsBack_loop guardOnly level c fin k w, halt k w, Instr.readsBack_trap guardOnly code k w, sync k w,
      waitdma k w, rett k w⟩
  · have four := bundleOps_four sole ⟨pu, pl, pr, ps⟩ ⟨qu, ql, qr, qs⟩ ⟨ru, rl, rr, rs⟩ (i := 5) (j := 4) (k := 1)
      (l := 11) (by decide) (by decide) (by decide) (by decide)
    rw [bundleOf] at four
    exact four

end Sys2Proof.Machine
end

