-- ==== Sys2Proof/Proofs/UnitCourse.lean ====
section
/-! SUPPORT. What the landing of results and the end of a bundle leave of a unit, and what a unit reads as that is written twice
(R181, R184, R186, R191, R197, R202). -/

namespace Sys2Proof

/-! ### An entry written twice -/

variable {α : Type} (t : Tab α) (a : Nat) (x y : α)

theorem Tab.ins_ins : Tab.ins (Tab.ins t a x) a y = Tab.ins t a y := by
  induction t with
  | nil => simp [Tab.ins]
  | cons e t ih =>
    obtain ⟨k, v⟩ := e
    by_cases same : a = k
    · simp [Tab.ins, same]
    · by_cases before : a < k
      · simp [Tab.ins, same, before]
      · simp [Tab.ins, same, before, ih]

theorem Tab.del_ins : Tab.del (Tab.ins t a x) a = Tab.del t a := by
  induction t with
  | nil => simp [Tab.ins, Tab.del]
  | cons e t ih =>
    obtain ⟨k, v⟩ := e
    by_cases same : a = k
    · simp [Tab.ins, Tab.del, same]
    · by_cases before : a < k
      · simp [Tab.ins, Tab.del, same, before]
      · simp [Tab.ins, Tab.del, same, before, ih]

/-- The last write counts, in a table of any form, where the first one made an entry. -/
theorem Tab.put_put [DecidableEq α] {d x : α} (entry : x ≠ d) : Tab.put d (Tab.put d t a x) a y = Tab.put d t a y := by
  unfold Tab.put
  rw [if_neg entry, Tab.ins_ins, Tab.del_ins]

/-- The greatest value of a list, sought from a first value on, is below none of them. -/
theorem le_foldl_max {α : Type} (f : α → Nat) (l : List α) (m : Nat) :
    m ≤ l.foldl (fun m e => max m (f e)) m ∧ ∀ e ∈ l, f e ≤ l.foldl (fun m e => max m (f e)) m := by
  induction l generalizing m with
  | nil => simp
  | cons e l ih =>
    obtain ⟨first, rest⟩ := ih (max m (f e))
    simp only [List.foldl_cons, List.forall_mem_cons]
    exact ⟨by omega, by omega, rest⟩

end Sys2Proof

namespace Sys2Proof.Machine

variable (x : UnitSt)

/-! ### The mark of a bundle -/

/-- A unit in a bundle is not the unit at rest, so that a table of units holds an entry for it. -/
theorem UnitSt.opened_ne_default : x.opened ≠ {} := by
  intro rest
  have mark := congrArg UnitSt.mid rest
  cases h : x.mid <;> simp [UnitSt.opened, h] at mark

theorem State.setUnit_opened_setUnit (s : State) (u : Nat) (y : UnitSt) :
    (s.setUnit u x.opened).setUnit u y = s.setUnit u y := by
  simp only [State.setUnit, Tab.put_put s.units u y x.opened_ne_default]

@[simp] theorem UnitSt.opened_la : x.opened.la = x.la := by unfold UnitSt.opened; split <;> rfl
@[simp] theorem UnitSt.opened_illegalHere (op level : Nat) (guard : Bool) :
    x.opened.illegalHere op level guard = x.illegalHere op level guard := by unfold UnitSt.opened; split <;> rfl

/-! ### Landing (R181, R184) -/

/-- The parts of a unit that no result reaches. -/
def UnitSt.course : Nat × Nat × Nat × Wait × Option ReadReq × Option ReadReq × List Landing :=
  (x.pc, x.cyc, x.delay, x.wait, x.readNew, x.readBuf, x.flight)

/-- Two units on one course agree in each of its parts. -/
theorem UnitSt.parts_of_course {x y : UnitSt} (h : x.course = y.course) : x.pc = y.pc ∧ x.cyc = y.cyc ∧ x.delay = y.delay ∧
    x.wait = y.wait ∧ x.readNew = y.readNew ∧ x.readBuf = y.readBuf ∧ x.flight = y.flight := by
  simpa only [UnitSt.course, Prod.mk.injEq] using h

theorem UnitSt.course_ite {c : Prop} [Decidable c] {y z : UnitSt} (yes : y.course = x.course) (no : z.course = x.course) :
    (if c then y else z).course = x.course := by split <;> assumption

theorem UnitSt.writeSr_course (n : Nat) (w : Word) : (x.writeSr n w).course = x.course := by
  unfold UnitSt.writeSr
  dsimp only
  repeat refine x.course_ite rfl ?_
  rfl

theorem UnitSt.land_course (l : Landing) : (x.land l).course = x.course := by
  unfold UnitSt.land
  cases l.dest with
  | f p => rfl
  | a n => exact x.course_ite rfl rfl
  | p n => exact x.course_ite rfl rfl
  | sr n => exact x.writeSr_course n _

theorem UnitSt.foldl_land_course (due : List Landing) : (due.foldl UnitSt.land x).course = x.course := by
  induction due generalizing x with
  | nil => rfl
  | cons l due ih => exact (ih _).trans (x.land_course l)

/-- What is due leaves the flight, and nothing else of the course changes. -/
theorem UnitSt.landDue_course :
    x.landDue.course = { x with flight := x.flight.filter fun l => !decide (l.cycle ≤ x.cyc) }.course :=
  UnitSt.foldl_land_course _ _

theorem UnitSt.landDue_reading : x.landDue.reading = x.reading := by
  obtain ⟨-, -, -, -, new, buf, -⟩ := UnitSt.parts_of_course x.landDue_course
  rw [UnitSt.reading, new, buf]
  rfl

theorem UnitSt.landDue_of_noneDue {x : UnitSt} (later : ∀ l ∈ x.flight, x.cyc < l.cycle) : x.landDue = x := by
  have none : x.flight.filter (fun l => decide (l.cycle ≤ x.cyc)) = [] := by
    simpa [List.filter_eq_nil_iff] using later
  have all : x.flight.filter (fun l => !decide (l.cycle ≤ x.cyc)) = x.flight := by
    simpa [List.filter_eq_self] using later
  simp only [UnitSt.landDue, none, all, List.foldl_nil]

theorem UnitSt.landDue_of_noFlight {x : UnitSt} (flight : x.flight = []) : x.landDue = x :=
  UnitSt.landDue_of_noneDue (by simp [flight])

theorem UnitSt.runTo_course (n : Nat) : (x.runTo n).course =
    { x with cyc := max x.cyc n, flight := x.flight.filter fun l => !decide (l.cycle ≤ max x.cyc n) }.course :=
  UnitSt.landDue_course _

/-- No result lands after the last. -/
theorem UnitSt.le_lastLanding : ∀ l ∈ x.flight, l.cycle ≤ x.lastLanding :=
  (le_foldl_max Landing.cycle x.flight 0).2

/-- A unit that stops has nothing in flight (R194). -/
theorem UnitSt.halt_flight : x.halt.flight = [] := by
  obtain ⟨-, -, -, -, -, -, flight⟩ := UnitSt.parts_of_course (x.runTo_course x.lastLanding)
  refine flight.trans (List.filter_eq_nil_iff.2 fun l mem => ?_)
  have due := (x.le_lastLanding l mem).trans (le_max_right x.cyc _)
  simp only [due, decide_true, Bool.not_true, Bool.false_eq_true, not_false_eq_true]

/-! ### Loops at the end of a bundle (R197, R198) -/

/-- Loops count in their own registers. -/
theorem UnitSt.loopEnd_fst (k : Nat) : ∃ lc la, (UnitSt.loopEnd k x).1 = { x with lc := lc, la := la } := by
  induction k generalizing x with
  | zero => exact ⟨_, _, rfl⟩
  | succ k ih =>
    unfold UnitSt.loopEnd
    cases x.innermost with
    | none => exact ⟨_, _, rfl⟩
    | some n =>
      dsimp only
      split_ifs
      · exact ⟨_, _, rfl⟩
      · exact ih _
      · exact ⟨_, _, rfl⟩

theorem UnitSt.innermost_of_noLevel {x : UnitSt} (off : x.la = 0) : x.innermost = none := by
  have none (l : List Nat) : l.find? x.levelOn = none := by simp [UnitSt.levelOn, off]
  rw [UnitSt.innermost, none, none]

/-- Outside every active loop the next bundle is the next in sequence. -/
theorem UnitSt.loopEnd_of_noLevel {x : UnitSt} (off : x.la = 0) (k : Nat) : UnitSt.loopEnd k x = (x, x.pc + 1) := by
  cases k with
  | zero => rfl
  | succ k => rw [UnitSt.loopEnd, UnitSt.innermost_of_noLevel off]

/-! ### The end of a bundle (R191, R197, R202) -/

/-- What the end of every bundle does: a cycle passes, and the flags that the bundle has set are seen. -/
def UnitSt.passed : UnitSt :=
  { x with cyc := x.cyc + 1, bkptExempt := false, fflags := x.fflags ||| x.fnew, fnew := 0, mid := none }

/-- Where the loops of the bundle leave the unit, and the bundle that comes next in them; `fresh` is the bundle of a LOOP. -/
def UnitSt.looped (fresh : Bool) : UnitSt × Nat := if fresh then (x, x.pc + 1) else UnitSt.loopEnd 4 x

theorem UnitSt.looped_only {x y : UnitSt} {n : Nat} {fresh : Bool} (loops : x.looped fresh = (y, n)) :
    ∃ lc la, y = { x with lc := lc, la := la } := by
  cases fresh with
  | true => exact ⟨x.lc, x.la, (congrArg Prod.fst loops).symm⟩
  | false =>
    obtain ⟨lc, la, only⟩ := x.loopEnd_fst 4
    exact ⟨lc, la, (congrArg Prod.fst loops).symm.trans only⟩

/-- A bundle ends: the branch is taken after its second delay bundle, and what is due lands. -/
theorem UnitSt.endBundle_eq {x y : UnitSt} {n : Nat} {fresh : Bool} (loops : x.looped fresh = (y, n)) (rot : Bool) :
    ∃ rb, x.endBundle rot fresh = (UnitSt.passed { y with
      rb := rb, delay := y.delay - 1, pc := if y.delay = 1 then y.brTo.getD n else n,
      brTo := if y.delay = 1 then none else y.brTo }).landDue := by
  refine ⟨if rot && decide (x.la ≠ 0) then (y.rb + 31) % 32 else y.rb, ?_⟩
  unfold UnitSt.looped at loops
  unfold UnitSt.endBundle
  dsimp only
  rw [loops]
  dsimp only
  obtain none | last | more : y.delay = 0 ∨ y.delay = 1 ∨ 1 < y.delay := by omega
  · cases turns : rot && decide (x.la ≠ 0) <;> simp [none, UnitSt.passed]
  · cases turns : rot && decide (x.la ≠ 0) <;> simp [last, UnitSt.passed]
  · have more0 : y.delay ≠ 0 := by omega
    cases turns : rot && decide (x.la ≠ 0) <;> simp [more0, more.ne', UnitSt.passed]

/-- With nothing in flight nothing lands at the end of a bundle. -/
theorem UnitSt.endBundle_of_noFlight {x y : UnitSt} {n : Nat} {fresh : Bool} (loops : x.looped fresh = (y, n))
    (flight : x.flight = []) (rot : Bool) : ∃ rb, x.endBundle rot fresh = UnitSt.passed { y with
      rb := rb, delay := y.delay - 1, pc := if y.delay = 1 then y.brTo.getD n else n,
      brTo := if y.delay = 1 then none else y.brTo } := by
  obtain ⟨rb, ends⟩ := UnitSt.endBundle_eq loops rot
  obtain ⟨lc, la, rfl⟩ := UnitSt.looped_only loops
  exact ⟨rb, ends.trans (UnitSt.landDue_of_noFlight flight)⟩

/-- The end of a bundle leaves the shared reads under way. -/
theorem UnitSt.endBundle_reading (rot fresh : Bool) : (x.endBundle rot fresh).reading = x.reading := by
  obtain ⟨y, n, loops⟩ : ∃ y n, x.looped fresh = (y, n) := ⟨_, _, rfl⟩
  obtain ⟨rb, ends⟩ := UnitSt.endBundle_eq loops rot
  obtain ⟨lc, la, rfl⟩ := UnitSt.looped_only loops
  rw [ends, UnitSt.landDue_reading]
  rfl

theorem UnitSt.after_reading (o : Op) : (x.after o).reading = x.reading := by
  unfold UnitSt.after
  split
  · exact x.endBundle_reading o.rot false
  · rfl

/-- With nothing in flight the end of a bundle changes no special register but that of the loops, and none is left in flight. -/
theorem UnitSt.after_of_noFlight {x : UnitSt} (flight : x.flight = []) (o : Op) : (x.after o).flight = [] ∧
    (x.after o).tcause = x.tcause ∧ (x.after o).tpc = x.tpc := by
  unfold UnitSt.after
  split
  · obtain ⟨y, n, loops⟩ : ∃ y n, x.looped false = (y, n) := ⟨_, _, rfl⟩
    obtain ⟨rb, ends⟩ := UnitSt.endBundle_of_noFlight loops flight o.rot
    obtain ⟨lc, la, rfl⟩ := UnitSt.looped_only loops
    rw [ends]
    exact ⟨flight, rfl, rfl⟩
  · exact ⟨flight, rfl, rfl⟩

end Sys2Proof.Machine
end

