-- ==== Sys2Proof/Proofs/ControlIssue.lean ====
section
/-! SUPPORT. What the issue of a control operation does: its fields, items 4, 5, 7 and 8 of R179, and the bundle's mark (R179, R206,
R263, R264). -/

namespace Sys2Proof

open Machine

/-! ### The fields of a control operation (R263, R264) -/

variable (o : Op)

/-- A control operation without operand bits has no field that breaks an item. -/
theorem illegalC_bare {cop : Nat} (bare : cop ∈ [4, 6, 8, 9, 0x0C]) : illegalC (o.ctlWord cop 0) = none := by
  have zero : sf (o.ctlWord cop 0) 49 0 = 0 := (o.sf_ctlWord cop 0 0 49 (by decide) (by decide)).trans rfl
  have code : cOp (o.ctlWord cop 0) = cop := o.cOp_ctlWord (by fin_cases bare <;> decide) (by decide)
  fin_cases bare <;> simp [illegalC, code, zero, must]

/-- A branch target leaves the bits that it does not have at 0, with operand bits beside it in bits 48..45. -/
theorem target_fields (cop : Nat) (t : BrTarget) {beside : Nat} (width : beside < 16) :
    let w := o.ctlWord cop (t.bits + beside * 2 ^ 45)
    if sf w 49 49 = 1 then sf w 39 0 = 0 else sf w 44 10 = 0 := by
  simp only [o.sf_ctlWord cop _ 49 49 (by decide) (by decide), o.sf_ctlWord cop _ 0 39 (by decide) (by decide),
    o.sf_ctlWord cop _ 10 44 (by decide) (by decide)]
  cases t with
  | addr t => rw [if_neg (by simp only [sf, BrTarget.bits]; omega)]; simp only [sf, BrTarget.bits]; omega
  | reg r => rw [if_pos (by simp only [sf, BrTarget.bits]; omega)]; simp only [sf, BrTarget.bits]; omega

/-- BR and CALL have their target alone. -/
theorem illegalC_target {cop : Nat} (jump : cop = 1 ∨ cop = 3) (t : BrTarget) : illegalC (o.ctlWord cop t.bits) = none := by
  have fields := target_fields o cop t (beside := 0) (by decide)
  have rest : sf (o.ctlWord cop t.bits) 48 45 = 0 := by
    rw [o.sf_ctlWord cop _ 45 48 (by decide) (by decide)]
    cases t <;> simp only [sf, BrTarget.bits] <;> omega
  have code : cOp (o.ctlWord cop t.bits) = cop := o.cOp_ctlWord (by omega) t.bits_lt
  rw [Nat.zero_mul, Nat.add_zero] at fields
  obtain rfl | rfl := jump <;> simp [illegalC, code, rest, fields, must]

theorem illegalC_brc (t : BrTarget) (cp : Fin 8) (sense : Bool) :
    illegalC (o.ctlWord 2 (t.bits + cp.val * 2 ^ 46 + if sense then 2 ^ 45 else 0)) = none := by
  have narrow : cp.val * 2 + sense.toNat < 16 := by have := sense.toNat_lt; omega
  have fields := target_fields o 2 t narrow
  rw [brc_bits]
  have code := o.cOp_ctlWord (cop := 2) (by decide) (brc_bits_lt t cp sense)
  generalize o.ctlWord 2 _ = w at code fields ⊢
  simp [illegalC, code, fields, must]

/-- LOOP leaves bits 46..45 and 19..10 at 0, and those of the count that it does not have. -/
theorem loop_fields (cop : Nat) (level : Fin 4) (c : LoopCount) (fin : Fin 1024) :
    let w := o.ctlWord cop (level.val * 2 ^ 48 + c.bits + fin.val)
    sf w 46 45 = 0 ∧ sf w 19 10 = 0 ∧ if sf w 47 47 = 1 then sf w 44 40 = 0 else sf w 39 20 = 0 := by
  simp only [o.sf_ctlWord cop _ 45 46 (by decide) (by decide), o.sf_ctlWord cop _ 10 19 (by decide) (by decide),
    o.sf_ctlWord cop _ 47 47 (by decide) (by decide), o.sf_ctlWord cop _ 40 44 (by decide) (by decide),
    o.sf_ctlWord cop _ 20 39 (by decide) (by decide)]
  cases c with
  | imm k => rw [if_pos (by simp only [sf, LoopCount.bits]; omega)]; simp only [sf, LoopCount.bits]; omega
  | reg r => rw [if_neg (by simp only [sf, LoopCount.bits]; omega)]; simp only [sf, LoopCount.bits]; omega

theorem illegalC_loop (level : Fin 4) (c : LoopCount) (fin : Fin 1024) :
    illegalC (o.ctlWord 5 (level.val * 2 ^ 48 + c.bits + fin.val)) = none := by
  have code := o.cOp_ctlWord (cop := 5) (by decide) (loop_bits_lt level c fin)
  obtain ⟨high, low, count⟩ := loop_fields o 5 level c fin
  generalize o.ctlWord 5 _ = w at code high low count ⊢
  simp [illegalC, code, high, low, count, must]

theorem illegalC_trap (code : BitVec 12) : illegalC (o.ctlWord 7 code.toNat) = none := by
  have width : code.toNat < 2 ^ 50 := by omega
  have rest : sf (o.ctlWord 7 code.toNat) 49 12 = 0 := by
    rw [o.sf_ctlWord 7 _ 12 49 (by decide) (by decide)]; simp only [sf]; omega
  simp [illegalC, o.cOp_ctlWord (cop := 7) (by decide) width, rest, must]

/-- MOVS and MOVX name an A register and a special register. -/
theorem illegalC_move {cop : Nat} (move : cop = 0x0A ∨ cop = 0x0B) {r : Nat} (low : r < 32) (sr : Fin 256) :
    illegalC (o.ctlWord cop (r * 2 ^ 40 + sr.val)) = none := by
  have width : r * 2 ^ 40 + sr.val < 2 ^ 50 := by omega
  have high : sf (o.ctlWord cop (r * 2 ^ 40 + sr.val)) 49 45 = 0 := by
    rw [o.sf_ctlWord cop _ 45 49 (by decide) (by decide)]; simp only [sf]; omega
  have rest : sf (o.ctlWord cop (r * 2 ^ 40 + sr.val)) 39 8 = 0 := by
    rw [o.sf_ctlWord cop _ 8 39 (by decide) (by decide)]; simp only [sf]; omega
  have code : cOp (o.ctlWord cop (r * 2 ^ 40 + sr.val)) = cop := o.cOp_ctlWord (by omega) width
  generalize o.ctlWord cop _ = w at code high rest ⊢
  obtain rfl | rfl := move <;> simp [illegalC, code, high, rest, must]

end Sys2Proof

namespace Sys2Proof.Machine

/-! ### Items 4, 5, 7 and 8 of R179 -/

section
variable {x : UnitSt}

/-- Item 4: a control operation in a delay bundle. -/
theorem UnitSt.illegalHere_delayed (delayed : x.delay ≠ 0) {op : Nat} (other : op ≠ 0) (level : Nat) (guard : Bool) :
    x.illegalHere op level guard = some 4 := by simp [UnitSt.illegalHere, delayed, other]

variable (boundary : x.delay = 0)
include boundary

/-- Item 5: a branch near the end of a loop. -/
theorem UnitSt.illegalHere_nearLoopEnd (near : x.nearLoopEnd = true) {op : Nat} (branch : op ∈ [1, 2, 3, 4]) (level : Nat)
    (guard : Bool) : x.illegalHere op level guard = some 5 := by
  fin_cases branch <;> simp [UnitSt.illegalHere, boundary, near]

/-- Item 7: a LOOP of an active level. -/
theorem UnitSt.illegalHere_loop (level : Nat) : x.illegalHere 5 level true = if x.levelOn level then some 7 else none := by
  simp [UnitSt.illegalHere, boundary]

/-- Item 8: a CALL on a full stack, a RET on an empty one. -/
theorem UnitSt.illegalHere_call (far : x.nearLoopEnd = false) (level : Nat) (guard : Bool) :
    x.illegalHere 3 level guard = if guard ∧ x.depth = 4 then some 8 else none := by
  simp [UnitSt.illegalHere, boundary, far]

theorem UnitSt.illegalHere_ret (far : x.nearLoopEnd = false) (level : Nat) (guard : Bool) :
    x.illegalHere 4 level guard = if guard ∧ x.depth = 0 then some 8 else none := by
  simp [UnitSt.illegalHere, boundary, far]

theorem UnitSt.illegalHere_jump (far : x.nearLoopEnd = false) {op : Nat} (jump : op = 1 ∨ op = 2) (level : Nat) (guard : Bool) :
    x.illegalHere op level guard = none := by
  obtain rfl | rfl := jump <;> simp [UnitSt.illegalHere, boundary, far]

/-- No other control operation breaks an item outside delay bundles. -/
theorem UnitSt.illegalHere_other {op : Nat} (other : 6 ≤ op) (level : Nat) (guard : Bool) :
    x.illegalHere op level guard = none := by
  simp [UnitSt.illegalHere, boundary, show op ≠ 1 by omega, show op ≠ 2 by omega, show op ≠ 3 by omega,
    show op ≠ 4 by omega, show op ≠ 5 by omega]

end

/-! ### Issue of a control operation -/

variable {s : State} {o : Op}

/-- The state in which the unit of an operation has found it, and its bundle is marked as begun. -/
def State.marked (s : State) (o : Op) : State := s.modUnit o.u.val UnitSt.opened

@[simp] theorem State.marked_unit (s : State) (o : Op) : (s.marked o).unit o.u.val = s.finds o := s.unit_setUnit_same _ _

/-- What is written next to the unit stands in place of the mark. -/
theorem State.marked_setUnit (s : State) (o : Op) (y : UnitSt) : (s.marked o).setUnit o.u.val y = s.setUnit o.u.val y :=
  s.setUnit_opened_setUnit (x := s.unit o.u.val) o.u.val y

theorem State.marked_modUnit (s : State) (o : Op) (f : UnitSt → UnitSt) :
    (s.marked o).modUnit o.u.val f = s.setUnit o.u.val (f (s.finds o)) := by
  rw [State.modUnit, State.marked_unit, State.marked_setUnit]

/-- An operation that the mark has found acts on what it finds. -/
theorem State.marked_issue (runs : (s.unit o.u.val).wait = .run) (act : UnitSt → UnitSt) : (s.marked o).issue o act =
    s.leaves o (if (s.finds o).getP o.pred.val then act (s.finds o) else s.finds o) := by
  have same : (s.finds o).opened = s.finds o := UnitSt.opened_opened _
  have run : (s.finds o).wait = .run := (UnitSt.opened_wait _).trans runs
  simp only [State.issue, State.marked_unit, run, if_true, same, State.leaves, State.marked_setUnit]

variable {cop n level : Nat} {go : State → State}

/-- A control operation whose fields and place break no item goes on in the marked bundle. -/
theorem State.control_goes (runs : (s.unit o.u.val).wait = .run) (fields : illegalC (o.ctlWord cop n) = none)
    (here : (s.unit o.u.val).illegalHere cop level ((s.unit o.u.val).getP o.pred.val) = none) :
    s.control o cop n level go = .next (go (s.marked o)) := by
  rw [State.control, fields, here]
  exact State.legal_ok 4 _ runs

/-- One that breaks an item where it stands takes the trap of an illegal bundle with that item, and nothing has been done. -/
theorem State.control_traps (runs : (s.unit o.u.val).wait = .run) (fields : illegalC (o.ctlWord cop n) = none) {item : Nat}
    (here : (s.unit o.u.val).illegalHere cop level ((s.unit o.u.val).getP o.pred.val) = some item) :
    s.control o cop n level go = .next (s.faultTrap o.u.val 1 item 4) := by
  rw [State.control, fields, here]
  exact State.legal_traps 4 item _ runs

theorem State.control_waits (waits : (s.unit o.u.val).wait ≠ .run) : s.control o cop n level go = .next s :=
  State.legal_waits 4 _ _ waits

/-! ### The control operations that are no branches and no LOOP (R187, R188, R194, R206, R211, R270) -/

/-- Those without operand bits break item 4 in a delay bundle. -/
theorem exec_bare_delayed (runs : (s.unit o.u.val).wait = .run) (delayed : (s.unit o.u.val).delay ≠ 0) :
    ∀ i ∈ [Instr.halt o, .sync o, .waitdma o, .rett o], exec i s = .next (s.faultTrap o.u.val 1 4 4) := by
  have late {op : Nat} (other : op ≠ 0) (guard : Bool) : (s.unit o.u.val).illegalHere op 0 guard = some 4 :=
    UnitSt.illegalHere_delayed delayed other 0 guard
  simp only [List.forall_mem_cons, List.not_mem_nil, false_imp_iff, implies_true, and_true]
  refine ⟨?_, ?_, ?_, ?_⟩
  · show execHalt o s = _
    rw [execHalt, State.control_traps runs (illegalC_bare o (by decide)) (late (by decide) _)]
  · show execSync o s = _
    rw [execSync, State.control_traps runs (illegalC_bare o (by decide)) (late (by decide) _)]
  · show execWaitdma o s = _
    rw [execWaitdma, State.control_traps runs (illegalC_bare o (by decide)) (late (by decide) _)]
  · show execRett o s = _
    rw [execRett, State.control_traps runs (illegalC_bare o (by decide)) (late (by decide) _)]

/-- A unit that does not run issues none of them (R186). -/
theorem exec_control_waits (waits : (s.unit o.u.val).wait ≠ .run) (code : BitVec 12) (sr : Fin 256) :
    ∀ i ∈ [Instr.movs o sr, .movx o sr, .trap o code, .halt o, .sync o, .waitdma o, .rett o], exec i s = .next s := by
  simp only [List.forall_mem_cons, List.not_mem_nil, false_imp_iff, implies_true, and_true]
  exact ⟨(State.control_waits waits : execMovs o sr s = _), (State.control_waits waits : execMovx o sr s = _),
    (State.control_waits waits : execTrap o code s = _), (State.control_waits waits : execHalt o s = _),
    (State.control_waits waits : execSync o s = _), (State.control_waits waits : execWaitdma o s = _),
    (State.control_waits waits : execRett o s = _)⟩

section
variable (runs : (s.unit o.u.val).wait = .run) (boundary : (s.unit o.u.val).delay = 0)
include runs boundary

theorem exec_sync : exec (.sync o) s = .next (s.setUnit o.u.val
    (if (s.finds o).getP o.pred.val then { (s.finds o).after o with wait := .sync } else (s.finds o).after o)) := by
  show execSync o s = _
  rw [execSync, State.control_goes runs (illegalC_bare o (by decide)) (UnitSt.illegalHere_other boundary (by decide) 0 _),
    State.marked_modUnit]

theorem exec_waitdma : exec (.waitdma o) s = .next (s.setUnit o.u.val
    (if (s.finds o).getP o.pred.val && decide ((s.finds o).dmaOut ≠ 0) then { (s.finds o).after o with wait := .dma }
      else (s.finds o).after o)) := by
  show execWaitdma o s = _
  rw [execWaitdma, State.control_goes runs (illegalC_bare o (by decide)) (UnitSt.illegalHere_other boundary (by decide) 0 _),
    State.marked_modUnit]

theorem exec_rett : exec (.rett o) s = .next (s.setUnit o.u.val
    (if (s.finds o).getP o.pred.val then UnitSt.settled { (s.finds o).after o with wait := .rett }
      else (s.finds o).after o)) := by
  show execRett o s = _
  rw [execRett, State.control_goes runs (illegalC_bare o (by decide)) (UnitSt.illegalHere_other boundary (by decide) 0 _),
    State.marked_modUnit]

theorem exec_halt : exec (.halt o) s = .next (if (s.finds o).getP o.pred.val
    then (s.setUnit o.u.val ((s.finds o).after o).halt).gatherFlags o.u.val else s.leaves o (s.finds o)) := by
  show execHalt o s = _
  rw [execHalt, State.control_goes runs (illegalC_bare o (by decide)) (UnitSt.illegalHere_other boundary (by decide) 0 _)]
  simp only [State.marked_unit, State.marked_setUnit, State.leaves]

theorem exec_trap (code : BitVec 12) : exec (.trap o code) s = .next (s.leaves o
    (if (s.finds o).getP o.pred.val then { s.finds o with pendDebug := some code, heldDebug := false } else s.finds o)) := by
  show execTrap o code s = _
  rw [execTrap, State.control_goes runs (illegalC_trap o code) (UnitSt.illegalHere_other boundary (by decide) 0 _),
    State.marked_issue runs]

theorem exec_movs (low : o.d.val < 32) (sr : Fin 256) : exec (.movs o sr) s = .next (s.leaves o
    (if (s.finds o).getP o.pred.val then (s.finds o).flyA 2 o.d.val ((s.finds o).readSr o.u.val sr.val) else s.finds o)) := by
  show execMovs o sr s = _
  rw [execMovs, State.control_goes runs (illegalC_move o (.inl rfl) low sr) (UnitSt.illegalHere_other boundary (by decide) 0 _),
    State.marked_issue runs]

theorem exec_movx (low : o.a.val < 32) (sr : Fin 256) : exec (.movx o sr) s = .next (s.leaves o
    (if (s.finds o).getP o.pred.val then (s.finds o).fly 2 (.sr sr.val) (lanes ((s.finds o).getA o.a.val) 0)
      else s.finds o)) := by
  show execMovx o sr s = _
  rw [execMovx, State.control_goes runs (illegalC_move o (.inr rfl) low sr) (UnitSt.illegalHere_other boundary (by decide) 0 _),
    State.marked_issue runs]

end

end Sys2Proof.Machine
end

