-- ==== Sys2Proof/Proofs/BranchesAndLoops.lean ====
section
/-! PROOF. Branches, the return stack and loops (R179, R189, R191, R192, R195–R198, R264–R268). -/

namespace Sys2Proof.Machine

variable {s : State} {o : Op}

/-! ### Branches (R191, R264–R267) -/

section
variable {cop n : Nat} (act : UnitSt → UnitSt) (taken : UnitSt → Option Nat) (runs : (s.unit o.u.val).wait = .run)
  (fields : illegalC (o.ctlWord cop n) = none)
include runs fields

/-- The delay bundles follow a branch that breaks no item, whatever its guard (R191, R267). -/
theorem branch_goes (here : (s.finds o).illegalHere cop 0 ((s.finds o).getP o.pred.val) = none) :
    branch o cop n act taken s = .next (s.leaves o (if (s.finds o).getP o.pred.val
      then { act (s.finds o) with delay := 3, brTo := taken (s.finds o) } else { s.finds o with delay := 3, brTo := none })) := by
  rw [State.finds, UnitSt.opened_illegalHere, UnitSt.opened_getP] at here
  rw [branch, State.control_goes runs fields here, State.marked_modUnit]
  cases (s.finds o).getP o.pred.val <;> rfl

theorem branch_traps {item : Nat}
    (here : (s.finds o).illegalHere cop 0 ((s.finds o).getP o.pred.val) = some item) :
    branch o cop n act taken s = .next (s.faultTrap o.u.val 1 item 4) := by
  rw [State.finds, UnitSt.opened_illegalHere, UnitSt.opened_getP] at here
  rw [branch, State.control_traps runs fields here]

end

/-- Outside every loop and with nothing in flight, a bundle leads to the next in sequence, but the second delay bundle to the target of a
taken branch. -/
theorem UnitSt.endBundle_outsideLoops {x : UnitSt} (off : x.la = 0) (flight : x.flight = []) (rot : Bool) :
    let y := x.endBundle rot false
    y.la = 0 ∧ y.flight = [] ∧ y.cyc = x.cyc + 1 ∧ y.delay = x.delay - 1 ∧
      y.pc = (if x.delay = 1 then x.brTo.getD (x.pc + 1) else x.pc + 1) ∧ y.brTo = if x.delay = 1 then none else x.brTo := by
  obtain ⟨rb, ends⟩ := UnitSt.endBundle_of_noFlight (fresh := false) (UnitSt.loopEnd_of_noLevel off 4) flight rot
  rw [ends]
  exact ⟨off, flight, rfl, rfl, rfl, rfl⟩

/-! ### The return stack (R192) -/

/-- A unit that has pushed an address, and one that has dropped the newest. -/
def UnitSt.pushed (x : UnitSt) (a : Nat) : UnitSt := { x with stk := Tab.put 0 x.stk x.depth a, depth := x.depth + 1 }
def UnitSt.popped (x : UnitSt) : UnitSt := { x with depth := x.depth - 1 }

/-! ### The four branches -/

section
variable (runs : (s.unit o.u.val).wait = .run) (boundary : (s.finds o).delay = 0) (far : (s.finds o).nearLoopEnd = false)
  (t : BrTarget)
include runs boundary far

theorem exec_br : exec (.br o t) s = .next (s.leaves o { s.finds o with
    delay := 3, brTo := if (s.finds o).getP o.pred.val then some ((s.finds o).target t) else none }) := by
  refine (branch_goes _ _ runs (illegalC_target o (.inl rfl) t) (UnitSt.illegalHere_jump boundary far (.inl rfl) 0 _)).trans ?_
  cases (s.finds o).getP o.pred.val <;> rfl

theorem exec_brc (cp : Fin 8) (sense : Bool) : exec (.brc o t cp sense) s = .next (s.leaves o { s.finds o with
    delay := 3, brTo := if (s.finds o).getP o.pred.val ∧ (s.finds o).getP cp.val = sense then some ((s.finds o).target t) else none }) := by
  refine (branch_goes _ _ runs (illegalC_brc o t cp sense) (UnitSt.illegalHere_jump boundary far (.inr rfl) 0 _)).trans ?_
  cases (s.finds o).getP o.pred.val <;> simp

section
variable (guard : (s.finds o).getP o.pred.val = true)
include guard

theorem exec_call (room : (s.finds o).depth ≠ 4) : exec (.call o t) s = .next (s.leaves o
    { (s.finds o).pushed (((s.finds o).pc + 3) % 1024) with delay := 3, brTo := some ((s.finds o).target t) }) := by
  refine (branch_goes _ _ runs (illegalC_target o (.inr rfl) t) ?_).trans (by rw [guard]; rfl)
  rw [UnitSt.illegalHere_call boundary far, if_neg fun h => room h.2]

theorem exec_call_full (full : (s.finds o).depth = 4) : exec (.call o t) s = .next (s.faultTrap o.u.val 1 8 4) := by
  refine branch_traps _ _ runs (illegalC_target o (.inr rfl) t) ?_
  rw [UnitSt.illegalHere_call boundary far, if_pos ⟨guard, full⟩]

omit t in
theorem exec_ret (entry : (s.finds o).depth ≠ 0) : exec (.ret o) s = .next (s.leaves o { (s.finds o).popped with
    delay := 3, brTo := some (Tab.get 0 (s.finds o).stk ((s.finds o).depth - 1)) }) := by
  refine (branch_goes _ _ runs (illegalC_bare o (List.mem_cons_self ..)) ?_).trans (by rw [guard]; rfl)
  rw [UnitSt.illegalHere_ret boundary far, if_neg fun h => entry h.2]

omit t in
theorem exec_ret_empty (empty : (s.finds o).depth = 0) : exec (.ret o) s = .next (s.faultTrap o.u.val 1 8 4) := by
  refine branch_traps _ _ runs (illegalC_bare o (List.mem_cons_self ..)) ?_
  rw [UnitSt.illegalHere_ret boundary far, if_pos ⟨guard, empty⟩]

end

/-- CALL and RET with a guard that reads 0 push and pop nothing (R189). -/
theorem exec_callRet_guarded (guard : (s.finds o).getP o.pred.val = false) : ∀ i ∈ [Instr.call o t, .ret o],
    exec i s = .next (s.leaves o { s.finds o with delay := 3, brTo := none }) := by
  simp only [List.forall_mem_cons, List.not_mem_nil, false_imp_iff, implies_true, and_true]
  constructor
  · refine (branch_goes _ _ runs (illegalC_target o (.inr rfl) t) ?_).trans (by rw [guard]; rfl)
    rw [UnitSt.illegalHere_call boundary far, if_neg (by simp [guard])]
  · refine (branch_goes _ _ runs (illegalC_bare o (List.mem_cons_self ..)) ?_).trans (by rw [guard]; rfl)
    rw [UnitSt.illegalHere_ret boundary far, if_neg (by simp [guard])]

end

/-- A branch of any kind takes the trap of the item that it breaks where it stands. -/
theorem branches_trap (runs : (s.unit o.u.val).wait = .run) (t : BrTarget) (cp : Fin 8) (sense : Bool) {item : Nat}
    (here : ∀ op ∈ [1, 2, 3, 4], (s.finds o).illegalHere op 0 ((s.finds o).getP o.pred.val) = some item) :
    ∀ i ∈ [Instr.br o t, .brc o t cp sense, .call o t, .ret o], exec i s = .next (s.faultTrap o.u.val 1 item 4) := by
  simp only [List.forall_mem_cons, List.not_mem_nil, false_imp_iff, implies_true, and_true] at here ⊢
  obtain ⟨br, brc, call, ret⟩ := here
  exact ⟨branch_traps _ _ runs (illegalC_target o (.inl rfl) t) br, branch_traps _ _ runs (illegalC_brc o t cp sense) brc,
    branch_traps _ _ runs (illegalC_target o (.inr rfl) t) call, branch_traps _ _ runs (illegalC_bare o (List.mem_cons_self ..)) ret⟩

/-- Settles O12: outside every loop the next bundle is the next in sequence, and the branch is taken where the count of delay bundles
reaches 0. -/
theorem branchTargetAfterTwoDelayBundles : Obligations.BranchTargetAfterTwoDelayBundles := by
  unfold Obligations.BranchTargetAfterTwoDelayBundles
  intro x r0 r1 r2 delay off flight
  obtain ⟨la1, flight1, cyc1, delay1, pc1, br1⟩ := UnitSt.endBundle_outsideLoops off flight r0
  obtain ⟨la2, flight2, cyc2, delay2, pc2, br2⟩ := UnitSt.endBundle_outsideLoops la1 flight1 r1
  obtain ⟨-, -, cyc3, delay3, pc3, br3⟩ := UnitSt.endBundle_outsideLoops la2 flight2 r2
  rw [delay] at delay1 pc1 br1
  rw [delay1] at delay2 pc2 br2
  rw [delay2] at delay3 pc3 br3
  refine ⟨pc1, pc2.trans (by rw [pc1]; rfl), delay3, br3, by omega, pc3.trans ?_⟩
  rw [br2, br1, pc2, pc1]
  cases x.brTo <;> rfl

/-- Settles O11: a branch of any kind goes on to its delay bundles (`branch_goes`) unless it breaks item 4, 5 or 8 where it stands. -/
theorem branchesAndReturnStack : Obligations.BranchesAndReturnStack := by
  unfold Obligations.BranchesAndReturnStack
  refine ⟨fun o s tg cp sense => ?_, fun o s tg cp sense runs delayed => ?_⟩
  · intro x dest g running boundary
    have target : x.target tg = dest := by cases tg <;> rfl
    have runs : (s.unit o.u.val).wait = .run := (UnitSt.opened_wait _).symm.trans running
    refine ⟨fun far => ?_, fun near => branches_trap runs tg cp sense fun op branch =>
      UnitSt.illegalHere_nearLoopEnd boundary near branch 0 g⟩
    have guarded (no : g = false) := exec_callRet_guarded runs boundary far tg no
    rw [← target]
    exact ⟨exec_br runs boundary far tg, exec_brc runs boundary far tg cp sense,
      fun yes room => exec_call runs boundary far tg yes room.ne, fun yes entry _ => exec_ret runs boundary far yes entry.ne',
      fun no => ⟨guarded no _ (List.mem_cons_self ..), guarded no _ (List.mem_cons_of_mem _ (List.mem_cons_self ..))⟩,
      exec_call_full runs boundary far tg, exec_ret_empty runs boundary far⟩
  · have late (op : Nat) (operation : op ≠ 0) (guard : Bool) : (s.finds o).illegalHere op 0 guard = some 4 :=
      UnitSt.illegalHere_delayed (by rwa [State.finds, UnitSt.opened_delay]) operation 0 guard
    have branches := branches_trap runs tg cp sense fun op branch => late op (by rintro rfl; simp at branch) _
    have all := List.forall_mem_append.2 ⟨branches, exec_bare_delayed runs delayed⟩
    exact all

/-! ### LOOP (R195, R196, R268) -/

/-- The count of a LOOP at issue (R268). -/
def UnitSt.count (x : UnitSt) : LoopCount → Word
  | .imm k => BitVec.ofNat 32 k.val
  | .reg r => x.getA r.val

/-- The last bundle of the body of a LOOP that ends `fin` bundles behind its first (R195). -/
def UnitSt.bodyEnd (x : UnitSt) (fin : Nat) : Nat := ((x.pc + 1) % 1024 + fin) % 1024

/-- The registers of a level as LOOP sets them. -/
def UnitSt.loopSet (x : UnitSt) (n : Nat) (count : Word) (fin : Nat) : UnitSt :=
  { x with lc := Tab.put 0 x.lc n count, ls := Tab.put 0 x.ls n ((x.pc + 1) % 1024), le := Tab.put 0 x.le n (x.bodyEnd fin) }

/-- A level that begins. -/
def UnitSt.loopOn (x : UnitSt) (n : Nat) : UnitSt :=
  { x with la := x.la ||| (1#4 <<< n), starts := n :: x.starts.filter (· ≠ n) }

/-- The unit after a LOOP: in the body, or with a count of 0 behind it after two empty bundles. -/
def UnitSt.startLoop (x : UnitSt) (n : Nat) (count : Word) (fin : Nat) (rot : Bool) : UnitSt :=
  if count = 0 then
    { ((x.loopSet n count fin).endBundle rot true).runTo (((x.loopSet n count fin).endBundle rot true).cyc + 2) with
      pc := x.bodyEnd fin + 1 }
  else ((x.loopSet n count fin).loopOn n).endBundle rot true

theorem exec_loop (issues : s.issues o) (boundary : (s.unit o.u.val).delay = 0) (n : Fin 4) (c : LoopCount) (fin : Fin 1024)
    (off : (s.unit o.u.val).levelOn n.val = false) : exec (.loop o n c fin) s =
      .next (s.setUnit o.u.val ((s.finds o).startLoop n ((s.finds o).count c) fin o.rot)) := by
  obtain ⟨runs, guard⟩ := issues
  have here : (s.unit o.u.val).illegalHere 5 n.val ((s.unit o.u.val).getP o.pred.val) = none := by
    rw [guard, UnitSt.illegalHere_loop boundary, off]; rfl
  have found : (s.finds o).getP o.pred.val = true := (UnitSt.opened_getP _ _).trans guard
  show execLoop o n c fin s = _
  rw [execLoop, State.control_goes runs (illegalC_loop o n c fin) here, State.marked_modUnit, if_pos found]
  cases c <;> rfl

theorem exec_loop_active (issues : s.issues o) (boundary : (s.unit o.u.val).delay = 0) (n : Fin 4) (c : LoopCount)
    (fin : Fin 1024) (on : (s.unit o.u.val).levelOn n.val = true) :
    exec (.loop o n c fin) s = .next (s.faultTrap o.u.val 1 7 4) := by
  obtain ⟨runs, guard⟩ := issues
  have here : (s.unit o.u.val).illegalHere 5 n.val ((s.unit o.u.val).getP o.pred.val) = some 7 := by
    rw [guard, UnitSt.illegalHere_loop boundary, on]; rfl
  show execLoop o n c fin s = _
  rw [execLoop, State.control_traps runs (illegalC_loop o n c fin) here]

/-- The bundle of a LOOP with nothing in flight leads to the next, and ends no level. -/
theorem UnitSt.endBundle_fresh {x : UnitSt} (boundary : x.delay = 0) (flight : x.flight = []) (rot : Bool) :
    ∃ rb, x.endBundle rot true = UnitSt.passed { x with rb := rb, pc := x.pc + 1 } := by
  obtain ⟨rb, ends⟩ := UnitSt.endBundle_of_noFlight (fresh := true) (x := x) rfl flight rot
  refine ⟨rb, ends.trans ?_⟩
  simp only [boundary, Nat.zero_ne_one, if_false]

section
variable {x : UnitSt} (boundary : x.delay = 0) (flight : x.flight = []) (n : Fin 4) (count : Word) (fin : Nat) (rot : Bool)
include boundary flight

theorem UnitSt.startLoop_enters (counted : count ≠ 0) : ∃ rb, x.startLoop n count fin rot =
    UnitSt.passed { (x.loopSet n count fin).loopOn n with rb := rb, pc := x.pc + 1 } := by
  rw [UnitSt.startLoop, if_neg counted]
  exact UnitSt.endBundle_fresh (x := (x.loopSet n count fin).loopOn n) boundary flight rot

/-- A count of 0 takes two more cycles. -/
theorem UnitSt.startLoop_skips (none : count = 0) : ∃ rb, x.startLoop n count fin rot =
    UnitSt.passed { x.loopSet n count fin with rb := rb, pc := x.bodyEnd fin + 1, cyc := x.cyc + 2 } := by
  obtain ⟨rb, skips⟩ := UnitSt.endBundle_fresh (x := x.loopSet n count fin) boundary flight rot
  have idle : ((x.loopSet n count fin).endBundle rot true).flight = [] := by rw [skips]; exact flight
  refine ⟨rb, ?_⟩
  rw [UnitSt.startLoop, if_pos none, UnitSt.runTo_of_noFlight idle, skips]
  simp [UnitSt.passed, UnitSt.loopSet]

/-- Either way LOOP has set its level. -/
theorem UnitSt.startLoop_sets : let y := x.startLoop n count fin rot
    Tab.get 0 y.lc n.val = count ∧ Tab.get 0 y.ls n.val = (x.pc + 1) % 1024 ∧ Tab.get 0 y.le n.val = x.bodyEnd fin := by
  by_cases none : count = 0
  · obtain ⟨rb, skips⟩ := UnitSt.startLoop_skips boundary flight n count fin rot none
    rw [skips]
    exact ⟨Tab.get_put_same .., Tab.get_put_same .., Tab.get_put_same ..⟩
  · obtain ⟨rb, enters⟩ := UnitSt.startLoop_enters boundary flight n count fin rot none
    rw [enters]
    exact ⟨Tab.get_put_same .., Tab.get_put_same .., Tab.get_put_same ..⟩

end

/-! ### The end of a loop (R197, R198) -/

section
variable {x : UnitSt} {n : Fin 4} (only : x.la = 1#4 <<< n.val)
include only

/-- The one active level is the innermost. -/
theorem UnitSt.innermost_of_only : x.innermost = some n.val := by
  have level : x.levelOn = fun m => decide (m = n.val) := by
    funext m
    have below := n.isLt
    simp only [UnitSt.levelOn, only, BitVec.getLsbD_shiftLeft, BitVec.getLsbD_one, ← Bool.decide_and, ← decide_not]
    exact decide_eq_decide.2 (by omega)
  cases started : x.starts.find? x.levelOn with
  | some m =>
    have on := List.find?_some started
    simp only [level, decide_eq_true_eq] at on
    rw [UnitSt.innermost, started, on]
  | none =>
    rw [UnitSt.innermost, started, level]
    fin_cases n <;> rfl

theorem UnitSt.loopEnd_again (last : Tab.get 0 x.le n.val = x.pc) (more : 1 < (Tab.get 0 x.lc n.val).toNat) (k : Nat) :
    UnitSt.loopEnd (k + 1) x = ({ x with lc := Tab.put 0 x.lc n (Tab.get 0 x.lc n.val - 1) }, Tab.get 0 x.ls n.val) := by
  rw [UnitSt.loopEnd, UnitSt.innermost_of_only only]
  simp only [last, if_true, more]

theorem UnitSt.loopEnd_leaves (last : Tab.get 0 x.le n.val = x.pc) (done : (Tab.get 0 x.lc n.val).toNat ≤ 1) (k : Nat) :
    UnitSt.loopEnd (k + 1) x = ({ x with lc := Tab.put 0 x.lc n 0, la := 0 }, x.pc + 1) := by
  have off : x.la &&& ~~~(1#4 <<< n.val) = 0 := by rw [only]; exact BitVec.and_not_self _
  rw [UnitSt.loopEnd, UnitSt.innermost_of_only only]
  simp only [last, if_true, Nat.not_lt.2 done, if_false, off]
  exact UnitSt.loopEnd_of_noLevel rfl k

end

/-- Settles O13: LOOP sets its level (`UnitSt.startLoop_sets`), and at the end bundle of the one active level the count decides. -/
theorem loopStartAndEnd : Obligations.LoopStartAndEnd := by
  unfold Obligations.LoopStartAndEnd
  refine ⟨fun o s n c fin issues => ?_, fun x n rot only boundary flight last => ⟨fun more => ?_, fun done => ?_⟩⟩
  · intro x boundary
    refine ⟨exec_loop_active issues boundary n c fin, fun off idle => ?_⟩
    intro count
    have counts : (s.finds o).count c = count := by
      cases c with
      | imm k => rfl
      | reg r => exact UnitSt.opened_getA _ _
    have run := exec_loop issues boundary n c fin off
    have boundary' : (s.finds o).delay = 0 := (UnitSt.opened_delay _).trans boundary
    have idle' : (s.finds o).flight = [] := (UnitSt.opened_flight _).trans idle
    have pc : (s.finds o).pc = x.pc := UnitSt.opened_pc _
    obtain ⟨lc, ls, le⟩ := UnitSt.startLoop_sets boundary' idle' n count fin o.rot
    rw [counts] at run
    refine ⟨_, run, ?_⟩
    dsimp only
    rw [State.unit_setUnit_same]
    refine ⟨lc, pc ▸ ls, pc ▸ le, fun counted => ?_, fun none => ?_, fun v other => ?_⟩
    · obtain ⟨rb, enters⟩ := UnitSt.startLoop_enters boundary' idle' n count fin o.rot counted
      rw [enters]
      refine ⟨?_, congrArg (· + 1) pc, congrArg (· + 1) (UnitSt.opened_cyc _)⟩
      simp [UnitSt.levelOn, UnitSt.passed, UnitSt.loopOn, n.isLt]
    · obtain ⟨rb, skips⟩ := UnitSt.startLoop_skips boundary' idle' n count fin o.rot none
      rw [skips]
      exact ⟨UnitSt.opened_la _, pc ▸ rfl, congrArg (· + 3) (UnitSt.opened_cyc _)⟩
    · rw [State.unit_setUnit, if_neg other]
  · obtain ⟨rb, ends⟩ := UnitSt.endBundle_of_noFlight (fresh := false) (UnitSt.loopEnd_again only last more 3) flight rot
    rw [ends]
    simp only [boundary, Nat.zero_ne_one, if_false]
    exact ⟨rfl, rfl, Tab.get_put_same ..⟩
  · obtain ⟨rb, ends⟩ := UnitSt.endBundle_of_noFlight (fresh := false) (UnitSt.loopEnd_leaves only last done 3) flight rot
    rw [ends]
    simp only [boundary, Nat.zero_ne_one, if_false]
    exact ⟨rfl, rfl, Tab.get_put_same 0 x.lc n.val 0⟩

end Sys2Proof.Machine
end

