-- ==== Sys2Proof/Proofs/ControlEffects.lean ====
section
/-! PROOF. SYNC, WAITDMA, TRAP, the special registers, RETT and HALT (R187, R188, R194, R206, R211, R217, R263, R269, R270). -/

namespace Sys2Proof.Machine

variable {s : State} {o : Op} {x : UnitSt}

/-! ### Flags gathered at HALT (R217) -/

theorem State.gatherFlags_unit (s : State) (u v : Nat) : (s.gatherFlags u).unit v = s.unit v :=
  State.unit_of_units (s.gatherFlags_units u) v

/-- FABRIC_UN_FLAGS takes the flags of a compute unit besides those that it holds. -/
theorem State.gatherFlags_flags (s : State) {u : Nat} (compute : u < 512) :
    (s.gatherFlags u).get (Reg.FABRIC_UN_FLAGS_IFLAGS (u / 8) (u % 8)) =
        Nat.lor (s.get (Reg.FABRIC_UN_FLAGS_IFLAGS (u / 8) (u % 8))) (s.unit u).iflags.toNat % 8 ∧
      (s.gatherFlags u).get (Reg.FABRIC_UN_FLAGS_FFLAGS (u / 8) (u % 8)) =
        Nat.lor (s.get (Reg.FABRIC_UN_FLAGS_FFLAGS (u / 8) (u % 8))) (s.unit u).fflags.toNat % 8 := by
  have apart : (Reg.FABRIC_UN_FLAGS_IFLAGS (u / 8) (u % 8)).key ≠ (Reg.FABRIC_UN_FLAGS_FFLAGS (u / 8) (u % 8)).key := by
    simp [Fld.key, Reg.FABRIC_UN_FLAGS_IFLAGS, Reg.FABRIC_UN_FLAGS_FFLAGS]
  unfold State.gatherFlags
  rw [if_pos compute]
  exact ⟨(State.get_put_ne _ apart _).trans (State.get_put_same ..), State.get_put_same ..⟩

/-! ### RETT (R211) -/

/-- A unit that reads goes on no further. -/
theorem UnitSt.settled_of_reading (reads : x.reading = true) : x.settled = x := if_pos reads

/-- A unit at RETT with nothing in flight and nothing being read goes on at TPC. -/
theorem UnitSt.settled_of_rett (rett : x.wait = .rett) (idle : x.reading = false) (flight : x.flight = []) :
    x.settled = { x with
      la := (x.tcause >>> 4).setWidth 4, tactive := false, heldDivz := false, heldDebug := false, pc := x.tpc,
      bkptExempt := true, wait := .run, cyc := x.cyc + 2 } := by
  simp [UnitSt.settled, idle, rett, UnitSt.resume, UnitSt.lastLanding, flight, UnitSt.runTo_of_noFlight flight]

/-- Settles O14: each control operation acts on what it finds in its marked bundle (`exec_sync` and its like), and HALT lands what is in
flight (`UnitSt.halt_flight`). -/
theorem waitsHaltAndSpecialRegisters : Obligations.WaitsHaltAndSpecialRegisters := by
  unfold Obligations.WaitsHaltAndSpecialRegisters
  intro o s issues x delay
  obtain ⟨runs, guard⟩ := issues
  have boundary : (s.unit o.u.val).delay = 0 := (UnitSt.opened_delay _).symm.trans delay
  have found : x.getP o.pred.val = true := (UnitSt.opened_getP _ _).trans guard
  have sync := exec_sync runs boundary
  have waitdma := exec_waitdma runs boundary
  have rett := exec_rett runs boundary
  have halt := exec_halt runs boundary
  rw [if_pos found] at sync rett halt
  refine ⟨sync, waitdma.trans ?_, fun code => (exec_trap runs boundary code).trans (by rw [if_pos found]),
    fun sr low => (exec_movs runs boundary low sr).trans (by rw [if_pos found]; rfl),
    fun sr low => (exec_movx runs boundary low sr).trans (by rw [if_pos found]; rfl), fun reads => rett.trans ?_,
    fun new buf flight => ⟨_, rett, ?_⟩, ⟨_, halt, ?_⟩⟩
  · by_cases none : (s.finds o).dmaOut = 0
    · simp [none, x]
    · simp [none, found, x]
  · have reading : (x.after o).reading = true := (x.after_reading o).trans (Bool.or_eq_true_iff.2 reads)
    rw [UnitSt.settled_of_reading (x := { x.after o with wait := .rett }) reading]
  · have idle : (x.after o).reading = false := (x.after_reading o).trans (by rw [UnitSt.reading, new, buf]; rfl)
    obtain ⟨landed, tcause, tpc⟩ := UnitSt.after_of_noFlight flight o
    refine ⟨fun v other => by rw [State.unit_setUnit, if_neg other], rfl, ?_⟩
    dsimp only
    rw [State.unit_setUnit_same, UnitSt.settled_of_rett (x := { x.after o with wait := .rett }) rfl idle landed]
    exact ⟨congrArg (fun w : Word => (w >>> 4).setWidth 4) tcause, rfl, tpc, rfl, rfl, rfl⟩
  · refine ⟨?_, ?_, fun v other => ?_, fun compute => ?_⟩
    · rw [State.gatherFlags_unit, State.unit_setUnit_same]
      rfl
    · rw [State.gatherFlags_unit, State.unit_setUnit_same]
      exact UnitSt.halt_flight _
    · rw [State.gatherFlags_unit, State.unit_setUnit, if_neg other]
    · rw [State.gatherFlags_unit]
      exact State.gatherFlags_flags _ compute

end Sys2Proof.Machine
end

