-- ==== Sys2Proof/Proofs/GuardsAndFields.lean ====
section
/-! PROOF. Guards and the items of R179 that a slot word breaks (R179, R186, R189, R206, R232, R233). -/

namespace Sys2Proof.Machine

variable {s : State} {o : Op}

/-! ### Operations checked for their fields -/

/-- Every operation of an M slot is checked for its fields, and then issues. -/
theorem mOps_issue (o : Op) (s : State) : ∀ p ∈ mOps o, ∃ act, exec p.1 s = mIssue p.2 o act s := by
  unfold mOps
  repeat refine List.forall_mem_cons.2 ⟨⟨_, rfl⟩, ?_⟩
  exact List.forall_mem_nil _

theorem iOps_issue (o : Op) (s : State) : ∀ p ∈ iOps o, ∃ act, exec p.1 s = iIssue p.2 o act s := by
  unfold iOps
  repeat refine List.forall_mem_cons.2 ⟨⟨_, rfl⟩, ?_⟩
  exact List.forall_mem_nil _

/-- Every operation of slot L but LDT is checked for its fields; the accesses to memory are then checked for their addresses. -/
theorem lOps_issue (o : Op) (e : Ecc) (s : State) : ∀ p ∈ lOps o e, (∃ go, exec p.1 s = s.checked p.2 o go) ∨
    ∃ act, exec p.1 s = s.legal o 3 (illegalL (o.word p.2)) (.next (s.issue o act)) := by
  unfold lOps
  repeat refine List.forall_mem_cons.2 ⟨.inl ⟨_, by delta exec; rfl⟩, ?_⟩
  repeat refine List.forall_mem_cons.2 ⟨.inr ⟨_, by delta exec; rfl⟩, ?_⟩
  exact List.forall_mem_nil _

/-- A guard that reads 0 leaves an access to memory nothing but the end of its bundle (R189, R257). -/
theorem State.checked_guarded (runs : (s.unit o.u.val).wait = .run) (guard : (s.unit o.u.val).getP o.pred.val = false) {op : Nat}
    (fields : illegalL (o.word op) = none) (go : State → State) : s.checked op o go = .next (s.leaves o (s.finds o)) := by
  rw [State.checked, fields, State.legal_ok 3 _ runs]
  simp only [guard, Bool.false_eq_true, if_false, State.issue_guarded runs guard]

/-! ### What the check and the guard leave (R179, R186, R189) -/

/-- An operation that is checked for its fields, and with a guard that reads 0 leaves nothing but the end of its bundle, keeps the rules
of its slot. -/
theorem slotRules_of_legal {i : Instr} {slot : Nat} {item : Option Nat} (checked : ∀ s, ∃ go, exec i s = s.legal o slot item go ∧
    ((s.unit o.u.val).wait = .run → (s.unit o.u.val).getP o.pred.val = false → item = none →
      go = .next (s.leaves o (s.finds o)))) : SlotRules i o slot item := by
  intro s
  obtain ⟨go, run, guarded⟩ := checked s
  rw [run]
  refine ⟨fun runs n broken => ?_, fun runs guard legal => ?_, fun waits => State.legal_waits slot item go waits⟩
  · rw [broken, State.legal_traps slot n go runs]
  · rw [guarded runs guard legal, legal, State.legal_ok slot _ runs]

theorem slotRules_of_issue {i : Instr} {slot : Nat} {item : Option Nat}
    (issue : ∀ s, ∃ act, exec i s = s.legal o slot item (.next (s.issue o act))) : SlotRules i o slot item :=
  slotRules_of_legal fun s => by
    obtain ⟨act, run⟩ := issue s
    exact ⟨_, run, fun runs guard _ => congrArg _ (State.issue_guarded runs guard act)⟩

theorem slotRules_lOps (o : Op) (e : Ecc) : ∀ p ∈ lOps o e, SlotRules p.1 o 3 (illegalL (o.word p.2)) := by
  intro p mem
  refine slotRules_of_legal fun s => ?_
  obtain ⟨go, run⟩ | ⟨act, run⟩ := lOps_issue o e s p mem
  · refine ⟨_, run, fun runs guard legal => ?_⟩
    have guarded := State.checked_guarded runs guard legal go
    rwa [State.checked, legal, State.legal_ok 3 _ runs] at guarded
  · exact ⟨_, run, fun runs guard _ => congrArg _ (State.issue_guarded runs guard act)⟩

/-! ### LDT (R261, R321) -/

/-- With no tap result due none is delivered. -/
theorem State.deliverTaps_none {u : Nat} (due : (s.unit u).tapDue = []) (cyc v : Nat) :
    (s.deliverTaps u cyc).unit v = s.unit v := by
  have same : { s.unit u with tapDue := [], fifo := (s.unit u).fifo ++ [] } = s.unit u := by rw [List.append_nil, ← due]
  simp only [State.deliverTaps, due, List.filter_nil, List.take_nil, List.map_nil, same, State.unit_bumpBy, State.unit_setUnit]
  split
  · next here => rw [here]
  · rfl

theorem exec_ldt (s : State) (o : Op) : ∃ act, exec (.ldt o) s = s.legal o 3 (illegalL (o.word 0x11))
    (.next ((s.deliverTaps o.u.val (s.unit o.u.val).cyc).issue o act)) := ⟨_, rfl⟩

/-- Settles O6: an operation of a slot passes its check or takes the trap of the item that it breaks (`slotRules_of_legal`), and past it a
guard that reads 0 leaves the end of the bundle alone. -/
theorem guardAndIssueFrame : Obligations.GuardAndIssueFrame := by
  unfold Obligations.GuardAndIssueFrame
  refine ⟨fun o e imm => ⟨fun p mem => slotRules_of_issue fun s => mOps_issue o s p mem,
    fun p mem => slotRules_of_issue fun s => iOps_issue o s p mem, slotRules_of_issue fun s => ⟨_, rfl⟩, slotRules_lOps o e⟩,
    fun o s => ⟨fun runs n broken => ?_, fun runs guard legal due => ?_⟩,
    fun o s sr code => ⟨fun runs guard boundary => ?_, fun waits => ?_⟩⟩
  · obtain ⟨act, run⟩ := exec_ldt s o
    rw [run, broken, State.legal_traps 3 n _ runs]
  · obtain ⟨act, run⟩ := exec_ldt s o
    have same (v : Nat) := State.deliverTaps_none due (s.unit o.u.val).cyc v
    rw [legal, State.legal_ok 3 _ runs, State.issue_guarded (by rw [same]; exact runs) (by rw [same]; exact guard)] at run
    refine ⟨_, run, ?_, fun v other => ?_⟩
    · rw [State.unit_leaves, if_pos rfl, State.finds, same]; rfl
    · rw [State.unit_leaves, if_neg other, same]
  · have off : (s.finds o).getP o.pred.val = false := (UnitSt.opened_getP _ _).trans guard
    have sync := exec_sync runs boundary
    have waitdma := exec_waitdma runs boundary
    have rett := exec_rett runs boundary
    have halt := exec_halt runs boundary
    have trap := exec_trap runs boundary code
    rw [off, if_neg Bool.false_ne_true] at sync rett halt trap
    rw [off, Bool.false_and, if_neg Bool.false_ne_true] at waitdma
    refine ⟨?_, fun low => (exec_movs runs boundary low sr).trans (by rw [off, if_neg Bool.false_ne_true]),
      fun low => (exec_movx runs boundary low sr).trans (by rw [off, if_neg Bool.false_ne_true])⟩
    simp only [List.forall_mem_cons, List.not_mem_nil, false_imp_iff, implies_true, and_true]
    exact ⟨trap, halt, sync, waitdma, rett⟩
  · obtain ⟨act, run⟩ := exec_ldt s o
    have ldt : exec (.ldt o) s = .next s := run.trans (State.legal_waits 3 _ _ waits)
    exact List.forall_mem_cons.2 ⟨ldt, exec_control_waits waits code sr⟩

end Sys2Proof.Machine
end

