-- ==== Sys2Proof/Proofs/LandingAndRelease.lean ====
section
/-! PROOF. Results that become visible, and the releases of waiting units (R170, R181, R184, R186–R188). -/

namespace Sys2Proof.Machine

variable {s : State} {x : UnitSt}

/-! ### What a landing result changes (R170) -/

/-- A result reaches the register that it names: any F register, any A register but A0, any predicate but P0. -/
theorem UnitSt.land_visible (x : UnitSt) (l : Landing) :
    (∀ p, l.dest = .f p → Tab.get 0 (x.land l).f p = l.val ∧ ∀ q, q ≠ p → Tab.get 0 (x.land l).f q = Tab.get 0 x.f q) ∧
    (∀ n, l.dest = .a n → (n % 32 = 0 → (x.land l).a = x.a) ∧ (n % 32 ≠ 0 → (x.land l).getA n = lane0 l.val)) ∧
    (∀ n, l.dest = .p n → (n % 8 = 0 → (x.land l).p = x.p) ∧ (n % 8 ≠ 0 → (x.land l).getP (n % 8) = l.val.getLsbD 0)) := by
  refine ⟨fun p dest => ?_, fun n dest => ?_, fun n dest => ?_⟩
  · simp only [UnitSt.land, dest]
    exact ⟨Tab.get_put_same .., fun q other => Tab.get_put_ne 0 x.f other _⟩
  · simp only [UnitSt.land, dest]
    refine ⟨fun zero => by rw [if_pos zero], fun some => ?_⟩
    rw [if_neg some, UnitSt.getA, if_neg some]
    exact Tab.get_put_same ..
  · simp only [UnitSt.land, dest]
    refine ⟨fun zero => by rw [if_pos zero], fun some => ?_⟩
    have bit : n % 8 < 8 := Nat.mod_lt n (by decide)
    rw [if_neg some, UnitSt.getP, beq_false_of_ne some, Bool.false_or]
    cases value : l.val.getLsbD 0 <;> simp [bit]

/-! ### RESULT_LANDS (R181, R184, R186) -/

/-- With one result due, it lands and the rest stays in flight. -/
theorem UnitSt.landDue_one {l : Landing} {rest : List Landing} (flight : x.flight = l :: rest) (due : l.cycle ≤ x.cyc)
    (later : ∀ q ∈ rest, x.cyc < q.cycle) : x.landDue = { x with flight := rest }.land l := by
  have none : rest.filter (fun q => decide (q.cycle ≤ x.cyc)) = [] := by simpa [List.filter_eq_nil_iff] using later
  have all : rest.filter (fun q => !decide (q.cycle ≤ x.cyc)) = rest := by simpa [List.filter_eq_self] using later
  simp [UnitSt.landDue, flight, due, none, all]

/-- Two results of one cycle land in the order of the flight. -/
theorem UnitSt.landDue_two {l m : Landing} {rest : List Landing} (flight : x.flight = l :: m :: rest) (due : l.cycle ≤ x.cyc)
    (same : m.cycle = l.cycle) (later : ∀ q ∈ rest, x.cyc < q.cycle) :
    x.landDue = ({ x with flight := rest }.land l).land m := by
  have none : rest.filter (fun q => decide (q.cycle ≤ x.cyc)) = [] := by simpa [List.filter_eq_nil_iff] using later
  have all : rest.filter (fun q => !decide (q.cycle ≤ x.cyc)) = rest := by simpa [List.filter_eq_self] using later
  simp [UnitSt.landDue, flight, due, same, none, all]

/-- The clock of a unit at its next result: a waiting unit's runs on to it, and a running unit has reached it (R186). -/
theorem exec_resultLands {u : Fin 516} {l : Landing} {rest : List Landing} (flight : (s.unit u).flight = l :: rest)
    (reached : (s.unit u).wait ≠ .run ∨ l.cycle ≤ (s.unit u).cyc) :
    exec (.resultLands u) s = .next (s.setUnit u ((s.unit u).runTo l.cycle)) := by
  show execResultLands u s = _
  rw [execResultLands, State.modUnit, flight]
  cases waits : (s.unit u).wait with
  | run =>
    have now : l.cycle ≤ (s.unit u).cyc := reached.resolve_left (not_not.2 waits)
    have here : (s.unit u).runTo l.cycle = (s.unit u).landDue := by rw [UnitSt.runTo, max_eq_left now]
    rw [here]
  | _ => rfl

/-- Nothing lands where nothing is in flight, or nothing due at a running unit. -/
theorem exec_resultLands_none {u : Fin 516} (idle : (s.unit u).flight = [] ∨
      (s.unit u).wait = .run ∧ ∀ q ∈ (s.unit u).flight, (s.unit u).cyc < q.cycle) :
    exec (.resultLands u) s = .next (s.setUnit u (s.unit u)) := by
  show execResultLands u s = _
  rw [execResultLands, State.modUnit]
  obtain flight | ⟨runs, later⟩ := idle
  · rw [flight]
  · cases flight : (s.unit u).flight with
    | nil => rfl
    | cons l rest => rw [runs, UnitSt.landDue_of_noneDue later]

/-- Settles O15: what is due leaves the flight and lands in its order (`UnitSt.landDue_one`, `UnitSt.landDue_two`). -/
theorem resultsBecomeVisible : Obligations.ResultsBecomeVisible := by
  unfold Obligations.ResultsBecomeVisible
  refine ⟨fun u s l m rest => ?_, fun u s => ?_, fun l m same => ?_⟩
  · intro x later reached
    refine ⟨fun flight => ?_, fun flight same p first second => ?_⟩
    · refine ⟨_, exec_resultLands flight reached, fun v other => by rw [State.unit_setUnit, if_neg other], ?_⟩
      have lands : x.runTo l.cycle = { x with cyc := max x.cyc l.cycle, flight := rest }.land l :=
        UnitSt.landDue_one (x := { x with cyc := max x.cyc l.cycle }) flight (le_max_right _ _) later
      obtain ⟨-, cyc, -, -, -, -, landed⟩ := UnitSt.parts_of_course
        (UnitSt.land_course { x with cyc := max x.cyc l.cycle, flight := rest } l)
      dsimp only
      rw [State.unit_setUnit_same, lands]
      exact ⟨cyc, landed, UnitSt.land_visible _ l⟩
    · refine ⟨_, exec_resultLands flight reached, ?_⟩
      have lands : x.runTo l.cycle = ({ x with cyc := max x.cyc l.cycle, flight := rest }.land l).land m :=
        UnitSt.landDue_two (x := { x with cyc := max x.cyc l.cycle }) flight (le_max_right _ _) same later
      rw [State.unit_setUnit_same, lands]
      exact ((UnitSt.land_visible _ m).1 p second).1
  · intro x idle
    refine ⟨_, exec_resultLands_none idle, fun v => ?_⟩
    rw [State.unit_setUnit]
    split
    · next here => rw [here]
    · rfl
  · simp [insLanding, same]

/-! ### SYNC_RELEASE (R187) -/

/-- The units of a cluster, and the latest cycle that they have reached. -/
def unitsOf (c : Nat) : List Nat := (List.range 8).map fun u => 8 * c + u
def State.latest (s : State) (c : Nat) : Nat := (unitsOf c).foldl (fun m u => max m (s.unit u).cyc) 0

theorem mem_unitsOf (c k : Nat) (h : k < 8) : 8 * c + k ∈ unitsOf c := List.mem_map_of_mem (List.mem_range.2 h)

theorem State.le_latest (s : State) {c k : Nat} (h : k < 8) : (s.unit (8 * c + k)).cyc ≤ s.latest c :=
  (le_foldl_max (fun u => (s.unit u).cyc) (unitsOf c) 0).2 _ (mem_unitsOf c k h)

/-- A unit that waits at the barrier goes on in a cycle. -/
def UnitSt.freed (m : Nat) (x : UnitSt) : UnitSt := if x.wait = .sync then { (x.runTo m) with wait := .run } else x

/-- A unit waits at the barrier or has halted. -/
def UnitSt.arrived (x : UnitSt) : Bool := x.wait == .sync || x.wait == .halted

theorem UnitSt.arrived_iff (x : UnitSt) : x.arrived = true ↔ x.wait = .sync ∨ x.wait = .halted := by
  simp [UnitSt.arrived]

theorem execSyncRelease_eq (c : Fin 64) (s : State) : execSyncRelease c s =
    if (unitsOf c).all (fun u => (s.unit u).arrived) then
      .next (s.each (unitsOf c) fun u t => t.modUnit u (UnitSt.freed (s.latest c))) else .next s := rfl

theorem exec_syncRelease {c : Fin 64} (all : ∀ k < 8, (s.unit (8 * c + k)).arrived = true) :
    exec (.syncRelease c) s = .next (s.each (List.range 8) fun k t => t.modUnit (8 * c + k) (UnitSt.freed (s.latest c))) := by
  have every : (unitsOf c).all (fun u => (s.unit u).arrived) = true :=
    List.all_eq_true.2 (List.forall_mem_map.2 fun k mem => all k (List.mem_range.1 mem))
  show execSyncRelease c s = _
  rw [execSyncRelease_eq, if_pos every, State.each, unitsOf, List.foldl_map]
  rfl

theorem exec_syncRelease_early {c : Fin 64} {k : Nat} (h : k < 8) (away : (s.unit (8 * c + k)).arrived = false) :
    exec (.syncRelease c) s = .next s := by
  show execSyncRelease c s = _
  rw [execSyncRelease_eq, if_neg]
  exact fun every => Bool.false_ne_true (away.symm.trans (List.all_eq_true.1 every _ (mem_unitsOf c k h)))

/-! ### WAITDMA_RELEASE (R186, R188) -/

theorem exec_waitdmaRelease {u : Fin 516} (waits : (s.unit u).wait = .dma) : exec (.waitdmaRelease u) s = .next (s.setUnit u
    (if (s.unit u).dmaOut = 0 then
      { (s.unit u).runTo (if u.val < 512 then s.clusterClk (u / 8) else 0) with wait := .run } else s.unit u)) := by
  show execWaitdmaRelease u s = _
  simp only [execWaitdmaRelease, State.modUnit, waits, true_and]

/-- Settles O17: the units of the cluster are freed one by one to the latest cycle among them (`State.le_latest`), and a unit that has not
arrived keeps them all. -/
theorem barrierAndDmaRelease : Obligations.BarrierAndDmaRelease := by
  unfold Obligations.BarrierAndDmaRelease
  refine ⟨fun c s all => ?_, fun c s k h moves on => ?_, fun u s waits => ?_⟩
  · have freed (v : Nat) := s.unit_each_modUnit (8 * c) 8 v fun _ => UnitSt.freed (s.latest c)
    obtain ⟨units, only⟩ := s.each_modUnit_units (List.range 8) (8 * c.val + ·) fun _ => UnitSt.freed (s.latest c)
    refine ⟨_, s.latest c, exec_syncRelease fun k h => (UnitSt.arrived_iff _).2 (all k h), by rw [only], fun k h waits => ?_,
      fun v apart => ?_⟩
    · rw [freed, if_pos (by omega), UnitSt.freed, if_pos waits]
      exact ⟨rfl, s.le_latest h⟩
    · rw [freed]
      split
      · next here =>
        have halted : (s.unit v).wait = .halted := apart.resolve_right (by omega)
        rw [UnitSt.freed, if_neg (by rw [halted]; decide)]
      · rfl
  · refine exec_syncRelease_early h ?_
    rw [← Bool.not_eq_true, UnitSt.arrived_iff]
    exact fun there => there.elim moves on
  · refine ⟨_, exec_waitdmaRelease waits, fun v other => by rw [State.unit_setUnit, if_neg other], rfl, ?_⟩
    exact State.unit_setUnit_same ..

end Sys2Proof.Machine
end

