-- ==== Sys2Proof/Proofs/FloatOperations.lean ====
section
/-! PROOF. The floating-point operations of slots M0 and M1: what an issued one leaves, and the words that the moves give (R219, R224,
R236–R247). -/

namespace Sys2Proof

/-! ### The words of a move (R221, R222, R239) -/

/-- A zero of the sign of a word is the word with its other bits clear. -/
theorem Fp.zero_sign (a : Word) : Fp.zero (Fp.sign a) = a &&& 0x80000000 := by
  have top : (0x80000000 : Word) = BitVec.twoPow 32 31 := by decide
  rw [top, BitVec.and_twoPow, ← top, Fp.zero, Fp.signed, Fp.sign]
  rfl

theorem Fp.isNaN_of_isZero {a : Word} (zero : Fp.isZero a = true) : Fp.isNaN a = false := by
  have expo : Fp.expo a = 0 := of_decide_eq_true zero
  simp [Fp.isNaN, expo]

theorem Fp.isNaN_qnan : Fp.isNaN Fp.qnan = true := by decide

theorem Fp.isNaN_zero (b : Bool) : Fp.isNaN (Fp.zero b) = false := by cases b <;> decide

theorem Fp.move_eq (a : Word) :
    Fp.move a = if Fp.isNaN a then 0x7FC00000 else if Fp.isZero a then a &&& 0x80000000 else a := by
  rw [Fp.move, Fp.zero_sign]
  rfl

theorem Fp.abs_eq (a : Word) :
    Fp.abs a = if Fp.isNaN a then 0x7FC00000 else if Fp.isZero a then 0 else a &&& 0x7FFFFFFF := by
  have zero (b : Bool) : Fp.zero b &&& 0x7FFFFFFF = 0 := by cases b <;> decide
  unfold Fp.abs Fp.move
  by_cases nan : Fp.isNaN a = true
  · simp only [nan, if_true, Fp.isNaN_qnan]
    rfl
  · by_cases small : Fp.isZero a = true
    · simp only [nan, small, if_true, Fp.isNaN_zero, Bool.false_eq_true, if_false, zero]
    · simp only [nan, small, Bool.false_eq_true, if_false]

theorem Fp.negate_eq (a : Word) : Fp.negate a = if Fp.isNaN a then 0x7FC00000 else
    if Fp.isZero a then (a ^^^ 0x80000000) &&& 0x80000000 else a ^^^ 0x80000000 := by
  have turned : Fp.neg (Fp.zero (Fp.sign a)) = (a ^^^ 0x80000000) &&& 0x80000000 := by
    have sign : Fp.sign (a ^^^ 0x80000000) = !Fp.sign a := by simp [Fp.sign]
    rw [← Fp.zero_sign, sign]
    cases Fp.sign a <;> decide
  unfold Fp.negate Fp.move
  by_cases nan : Fp.isNaN a = true
  · simp only [nan, if_true, Fp.isNaN_qnan]
    rfl
  · by_cases small : Fp.isZero a = true
    · simp only [nan, small, if_true, Fp.isNaN_zero, Bool.false_eq_true, if_false, turned]
    · simp only [nan, small, Bool.false_eq_true, if_false]
      rfl

theorem Fp.scrub_eq (a : Word) : Fp.scrub a = if Fp.isNaN a then 0 else
    if Fp.isInf a then (if Fp.sign a then 0xCB800000 else 0x4B800000) else if Fp.isZero a then a &&& 0x80000000 else a := by
  have bounds : Fp.signed (Fp.sign a) 0x4B800000 = if Fp.sign a then 0xCB800000 else 0x4B800000 := by
    cases Fp.sign a <;> decide
  rw [Fp.scrub, Fp.zero_sign, bounds]

/-! ### NaN operands and a limit of zero (R224, R241, R244) -/

/-- A NaN beside a number gives way to the number. -/
theorem Fp.minMax_nan {a b : Word} (nan : Fp.isNaN a = true) (number : Fp.isNaN b = false) :
    Fp.min a b = Fp.move b ∧ Fp.min b a = Fp.move b ∧ Fp.max a b = Fp.move b ∧ Fp.max b a = Fp.move b := by
  simp [Fp.min, Fp.max, nan, number]

/-- With a NaN operand the conditions NE and UN hold, and no other. -/
theorem Fp.cmp_nan {a b : Word} (nan : (Fp.isNaN a || Fp.isNaN b) = true) {c : Nat} (code : c < 8) :
    Fp.cmp c a b = true ↔ c = 1 ∨ c = 6 := by
  interval_cases c <;> simp [Fp.cmp, nan]

theorem Fp.sat_nan {a b : Word} (nan : (Fp.isNaN a || Fp.isNaN b) = true) : Fp.sat a b = 0x7FC00000 := by
  rw [Fp.sat, if_pos nan]
  rfl

theorem Fp.sat_zero {a b : Word} (number : Fp.isNaN a = false) (zero : Fp.isZero b = true) : Fp.sat a b = 0 := by
  have limit : Fp.abs b = 0 := by simp [Fp.abs_eq, Fp.isNaN_of_isZero zero, zero]
  rw [Fp.sat, number, Fp.isNaN_of_isZero zero, limit]
  rfl

end Sys2Proof

namespace Sys2Proof.Machine

variable {s : State} {o : Op}

/-- An issued operation whose fields its encoding allows acts on what it finds. -/
theorem State.legal_issue (issued : s.issues o) (slot : Nat) {item : Option Nat} (fields : item = none) (act : UnitSt → UnitSt) :
    s.legal o slot item (.next (s.issue o act)) = .next (s.leaves o (act (s.finds o))) := by
  rw [fields, State.legal_ok slot _ issued.1, State.issue_issued issued]

/-! ### What an operation finds is what it reads: the mark of the bundle hides nothing -/

@[simp] theorem State.finds_getF (s : State) (o : Op) (n : Nat) : (s.finds o).getF n = (s.unit o.u.val).getF n :=
  UnitSt.opened_getF _ n
@[simp] theorem State.finds_getA (s : State) (o : Op) (n : Nat) : (s.finds o).getA n = (s.unit o.u.val).getA n :=
  UnitSt.opened_getA _ n
@[simp] theorem State.finds_bI (s : State) (o : Op) (m b : Nat) : (s.finds o).bI m b = (s.unit o.u.val).bI m b :=
  UnitSt.opened_bI _ m b

/-! ### Results with flags, and without -/

/-- An operation with a lane function gives the function's results, and its flags join those of the bundle. -/
theorem floatResult_of_mOp {i : Op → Instr} {op lat : Nat} {f : Word → Word → Word → Word × Fp.Flags}
    (means : ∀ o s, exec (i o) s = mOp op o lat f s) : FloatResult i op lat f := by
  intro o s issued fields
  rw [means, mOp, mIssue, State.legal_issue issued _ fields]
  simp only [State.finds_getF]
  rfl

/-- A lane function without flags leaves the flags of the bundle as they are. -/
theorem floatMove_of_result {i : Op → Instr} {op : Nat} {f : Word → Word → Word → Word}
    (result : FloatResult i op 4 fun a b d => quiet (f a b d)) : FloatMove i op f := by
  intro o s issued fields
  have noFlags (b : BitVec 3) : b ||| (Fp.Flags.or {} {}).bits = b := BitVec.or_zero
  have run := result o s issued fields
  simp only [quiet, noFlags] at run
  exact run

/-! ### The lane function of each row of R238 -/

theorem exec_fma (o : Op) (s : State) : exec (.fma o) s = mOp 0x01 o 4 (fun a b d => Fp.fma d a b) s := rfl
theorem exec_fms (o : Op) (s : State) : exec (.fms o) s = mOp 0x02 o 4 (fun a b d => Fp.fms d a b) s := rfl
theorem exec_fnma (o : Op) (s : State) : exec (.fnma o) s = mOp 0x03 o 4 (fun a b d => Fp.fnma d a b) s := rfl
theorem exec_fmul (o : Op) (s : State) : exec (.fmul o) s = mOp 0x04 o 4 (fun a b _ => Fp.mul a b) s := rfl
theorem exec_fadd (o : Op) (s : State) : exec (.fadd o) s = mOp 0x05 o 4 (fun a b _ => Fp.add a b) s := rfl
theorem exec_fsub (o : Op) (s : State) : exec (.fsub o) s = mOp 0x06 o 4 (fun a b _ => Fp.sub a b) s := rfl
theorem exec_fmin (o : Op) (s : State) : exec (.fmin o) s = mOp 0x07 o 4 (fun a b _ => quiet (Fp.min a b)) s := rfl
theorem exec_fmax (o : Op) (s : State) : exec (.fmax o) s = mOp 0x08 o 4 (fun a b _ => quiet (Fp.max a b)) s := rfl
theorem exec_fabs (o : Op) (s : State) : exec (.fabs o) s = mOp 0x09 o 4 (fun a _ _ => quiet (Fp.abs a)) s := rfl
theorem exec_fneg (o : Op) (s : State) : exec (.fneg o) s = mOp 0x0A o 4 (fun a _ _ => quiet (Fp.negate a)) s := rfl
theorem exec_fsel (o : Op) (s : State) : exec (.fsel o) s =
    mOp 0x0C o 4 (fun a b d => quiet (Fp.move (if Fp.sign d then b else a))) s := rfl
theorem exec_framp (o : Op) (s : State) : exec (.framp o) s = mOp 0x0D o 4 (fun a b d => Fp.ramp d a b) s := rfl
theorem exec_fsat (o : Op) (s : State) : exec (.fsat o) s = mOp 0x0E o 4 (fun a b _ => quiet (Fp.sat a b)) s := rfl
theorem exec_fscrub (o : Op) (s : State) : exec (.fscrub o) s = mOp 0x0F o 4 (fun a _ _ => quiet (Fp.scrub a)) s := rfl
theorem exec_fmov (o : Op) (s : State) : exec (.fmov o) s = mOp 0x10 o 4 (fun a _ _ => quiet (Fp.move a)) s := rfl
theorem exec_frcp (o : Op) (s : State) : exec (.frcp o) s = mOp 0x18 o 8 (fun a _ _ => Fp.rcp a) s := rfl
theorem exec_frsq (o : Op) (s : State) : exec (.frsq o) s = mOp 0x19 o 8 (fun a _ _ => Fp.rsq a) s := rfl
theorem exec_fexp2 (o : Op) (s : State) : exec (.fexp2 o) s = mOp 0x1A o 8 (fun a _ _ => Fp.exp2 a) s := rfl
theorem exec_flog2 (o : Op) (s : State) : exec (.flog2 o) s = mOp 0x1B o 8 (fun a _ _ => Fp.log2 a) s := rfl

/-! ### FCMP, FCVT and FSWAP (R238, R239, R241, R246) -/

/-- Every field of FCMP is used, so no word of it is illegal. -/
theorem illegalM_fcmp (o : Op) : illegalM (o.word 0x0B) = none := by simp [illegalM, o.sOp_word (op := 0x0B) (by decide)]

theorem exec_fcmp (issued : s.issues o) : exec (.fcmp o) s = .next (s.leaves o { s.finds o with
    flight := (s.finds o).inFlight 4 (.p (o.d.val % 8))
      (if Fp.cmp (o.d.val / 8) (lane0 (s.opA o)) (lane0 (s.opB o)) then 1 else 0) }) := by
  show execFcmp o s = _
  rw [execFcmp, mIssue, State.legal_issue issued _ (illegalM_fcmp o)]
  simp only [State.finds_getF, UnitSt.flyP, Nat.mod_mod]
  rfl

/-- B of FCVT is 0 or 1. -/
theorem b_of_fcvt (fields : illegalM (o.word 0x12) = none) : o.b.val ≤ 1 := by
  by_contra above
  simp [illegalM, o.sOp_word (op := 0x12) (by decide), o.sB_word, above, must] at fields

theorem exec_fcvt (issued : s.issues o) (fields : illegalM (o.word 0x12) = none) :
    exec (.fcvt o) s = .next (s.leaves o { s.finds o with
      flight := (s.finds o).inFlight 4 (.f ((s.finds o).phys o.d.val))
        (if o.b.val = 0 then lanes (Fp.toInt (lane0 (s.opA o))) (Fp.toInt (lane1 (s.opA o)))
         else lanes (Fp.ofInt (lane0 (s.opA o))) (Fp.ofInt (lane1 (s.opA o)))) }) := by
  have direction : o.b.val % 2 = o.b.val := Nat.mod_eq_of_lt (by have := b_of_fcvt fields; omega)
  show execFcvt o s = _
  rw [execFcvt, mIssue, State.legal_issue issued _ fields]
  simp only [State.finds_getF, direction]
  split <;> rfl

theorem exec_fswap (issued : s.issues o) (fields : illegalM (o.word 0x11) = none) :
    exec (.fswap o) s = .next (s.leaves o { s.finds o with
      flight := (s.finds o).inFlight 4 (.f ((s.finds o).phys o.d.val))
        (lanes (Fp.move (lane1 (s.opA o))) (Fp.move (lane0 (s.opA o)))) }) := by
  show execFswap o s = _
  rw [execFswap, mIssue, State.legal_issue issued _ fields]
  simp only [State.finds_getF]
  rfl

/-- Settles O1: each operation is its lane function at issue (`floatResult_of_mOp`), and the NaN and zero operands follow the branches of
that function. What an approximation gives is left open by R225 (log 3). -/
theorem floatArithmetic : Obligations.FloatArithmetic := by
  unfold Obligations.FloatArithmetic
  refine ⟨floatResult_of_mOp exec_fma, floatResult_of_mOp exec_fms, floatResult_of_mOp exec_fnma, floatResult_of_mOp exec_fmul,
    floatResult_of_mOp exec_fadd, floatResult_of_mOp exec_fsub, floatResult_of_mOp exec_framp, floatResult_of_mOp exec_frcp,
    floatResult_of_mOp exec_frsq, floatResult_of_mOp exec_fexp2, floatResult_of_mOp exec_flog2,
    floatMove_of_result (floatResult_of_mOp exec_fmin), floatMove_of_result (floatResult_of_mOp exec_fmax),
    floatMove_of_result (floatResult_of_mOp exec_fsat),
    fun o s issued => ⟨exec_fcmp issued, exec_fcvt issued⟩, fun a b => Fp.minMax_nan, fun a b nan => ?_, fun a b => Fp.sat_zero⟩
  have either : (Fp.isNaN a || Fp.isNaN b) = true := Bool.or_eq_true_iff.2 nan
  exact ⟨Fp.sat_nan either, fun c => Fp.cmp_nan either⟩

/-- Settles O2: each move is its lane function at issue, whose words stand in `Fp.move_eq` and its like. -/
theorem floatMoves : Obligations.FloatMoves := by
  unfold Obligations.FloatMoves
  simp only [← Fp.move_eq, ← Fp.abs_eq, ← Fp.negate_eq, ← Fp.scrub_eq]
  exact ⟨floatMove_of_result (floatResult_of_mOp exec_fmov), floatMove_of_result (floatResult_of_mOp exec_fabs),
    floatMove_of_result (floatResult_of_mOp exec_fneg), floatMove_of_result (floatResult_of_mOp exec_fsel),
    floatMove_of_result (floatResult_of_mOp exec_fscrub),
    fun o s issued fields => exec_fswap issued fields⟩

end Sys2Proof.Machine
end

