-- ==== Sys2Proof/Proofs/IntegerOperations.lean ====
section
/-! PROOF. The integer operations of slot I and the long immediate: the values of R249 and R250, and what an issued one leaves (R227–R229,
R233, R248–R254, R271). -/

namespace Sys2Proof.Machine

/-! ### Overflow and saturation (R227) -/

/-- A value that a 32-bit word holds is the word's own. -/
theorem toInt_ofInt_of_inRange {v : Int} (low : -2147483648 ≤ v) (high : v ≤ 2147483647) : (BitVec.ofInt 32 v).toInt = v := by
  rw [BitVec.toInt_ofInt]
  exact Int.bmod_eq_of_le (by omega) (by omega)

theorem overflows_iff_range (v : Int) : overflows v = true ↔ v < -2147483648 ∨ 2147483647 < v := by
  rw [overflows, Bool.or_eq_true, decide_eq_true_iff, decide_eq_true_iff]
  rfl

/-- V is set exactly where the wrapped word is not the exact value. -/
theorem overflows_iff (v : Int) : overflows v = true ↔ (BitVec.ofInt 32 v).toInt ≠ v := by
  rw [overflows_iff_range]
  constructor
  · intro beyond same
    have low := (BitVec.ofInt 32 v).le_toInt
    have high := (BitVec.ofInt 32 v).toInt_lt
    omega
  · intro other
    by_contra fits
    exact other (toInt_ofInt_of_inRange (by omega) (by omega))

theorem satV_fst (v : Int) : (satV v).1 = BitVec.ofInt 32 (max (-2 ^ 31) (min (2 ^ 31 - 1) v)) := by
  show (if v < -2147483648 then 0x80000000 else if 2147483647 < v then 0x7FFFFFFF else BitVec.ofInt 32 v) =
    BitVec.ofInt 32 (max (-2147483648) (min 2147483647 v))
  split_ifs with below beyond
  · rw [max_eq_left (by omega)]; rfl
  · rw [min_eq_left (by omega)]; rfl
  · rw [min_eq_right (by omega), max_eq_right (by omega)]

theorem ofInt_add_toInt (a b : Word) : BitVec.ofInt 32 (a.toInt + b.toInt) = a + b := by
  rw [BitVec.ofInt_add, BitVec.ofInt_toInt, BitVec.ofInt_toInt]

theorem ofInt_sub_toInt (a b : Word) : BitVec.ofInt 32 (a.toInt - b.toInt) = a - b := by
  rw [Int.sub_eq_add_neg, BitVec.ofInt_add, BitVec.ofInt_neg, BitVec.ofInt_toInt, BitVec.ofInt_toInt, BitVec.sub_eq_add_neg]

theorem ofInt_mul_toInt (a b : Word) : BitVec.ofInt 32 (a.toInt * b.toInt) = a * b := by
  rw [BitVec.ofInt_mul, BitVec.ofInt_toInt, BitVec.ofInt_toInt]

theorem ofInt_neg_toInt (a : Word) : BitVec.ofInt 32 (0 - a.toInt) = -a := by
  rw [Int.zero_sub, BitVec.ofInt_neg, BitVec.ofInt_toInt]

/-- The one word whose negative does not fit. -/
theorem overflows_neg_iff (a : Word) : overflows (0 - a.toInt) = true ↔ a = 0x80000000 := by
  have least : (0x80000000 : Word).toInt = -2147483648 := by decide
  have low : -2147483648 ≤ a.toInt := a.le_toInt
  have high : a.toInt < 2147483648 := a.toInt_lt
  rw [overflows_iff_range, ← BitVec.toInt_inj, least]
  omega

theorem negV_fst (a : Word) : (negV a).1 = -a := by rw [negV, wrapV, ofInt_neg_toInt]

theorem negsV_fst (a : Word) : (negsV a).1 = if a = 0x80000000 then 0x7FFFFFFF else -a := by
  have high : a.toInt < 2147483648 := a.toInt_lt
  have least := overflows_neg_iff a
  rw [overflows_iff_range] at least
  show (if 0 - a.toInt < -2147483648 then _ else if 2147483647 < 0 - a.toInt then _ else BitVec.ofInt 32 (0 - a.toInt)) = _
  rw [if_neg (by omega), ofInt_neg_toInt]
  exact if_congr (by rw [← least]; omega) rfl rfl

/-! ### Shifts, the high product and bit reversal (R228, R249, R254) -/

theorem shl_eq (a b : Word) : shl a b = a <<< (b.toNat % 256) := by
  unfold shl amount
  split
  · next all => exact (BitVec.shiftLeft_eq_zero all).symm
  · rfl

theorem shr_eq (a b : Word) : shr a b = a >>> (b.toNat % 256) := by
  unfold shr amount
  split
  · next all => exact (BitVec.ushiftRight_eq_zero all).symm
  · rfl

/-- A shift by 31 leaves nothing but the sign, and so does any longer one. -/
theorem sar_eq (a b : Word) : sar a b = a.sshiftRight (b.toNat % 256) := by
  unfold sar amount
  apply BitVec.eq_of_getLsbD_eq
  intro i below
  rw [BitVec.getLsbD_sshiftRight, BitVec.getLsbD_sshiftRight]
  by_cases short : b.toNat % 256 ≤ 31
  · rw [Nat.min_eq_left short]
  · rw [Nat.min_eq_right (by omega), if_neg (by omega : ¬b.toNat % 256 + i < 32), BitVec.msb_eq_getLsbD_last]
    split
    · next zero => rw [show 31 + i = 31 by omega]
    · rfl

theorem mulh_eq (a b : Word) : mulh a b = BitVec.ofInt 32 ((a.toInt * b.toInt).fdiv (2 ^ 32)) := by
  rw [mulh, Int.fdiv_eq_ediv_of_nonneg _ (by decide)]

/-- Of `k` bits, the reversal holds bit `k - 1 - j` in place `j`. -/
theorem testBit_revBits (k v j : Nat) : (revBits k v).testBit j = (decide (j < k) && v.testBit (k - 1 - j)) := by
  induction k generalizing v j with
  | zero => simp [revBits]
  | succ k ih =>
    have width : revBits k (v / 2) < 2 ^ k := Nat.lt_pow_two_of_testBit _ fun i above => by
      rw [ih, decide_eq_false (by omega), Bool.false_and]
    rw [revBits, Nat.mul_comm, Nat.testBit_two_pow_mul_add _ width, ih]
    obtain below | rfl | above := Nat.lt_trichotomy j k
    · rw [if_pos below, decide_eq_true below, decide_eq_true (by omega : j < k + 1), Nat.testBit_div_two,
        show k - 1 - j + 1 = k + 1 - 1 - j by omega]
    · simp
    · rw [if_neg (by omega), decide_eq_false (by omega), Bool.false_and]
      exact Nat.testBit_lt_two_pow (lt_of_lt_of_le (Nat.mod_lt v two_pos) (Nat.pow_le_pow_right two_pos (by omega : 1 ≤ j - k)))

theorem getLsbD_bitrev (a b : Word) (j : Nat) : (bitrev a b).getLsbD j =
    if j < min (b.toNat % 256) 32 then a.getLsbD (min (b.toNat % 256) 32 - 1 - j) else a.getLsbD j := by
  unfold bitrev amount
  generalize reach : min (b.toNat % 256) 32 = k
  have width : revBits k (a.toNat % 2 ^ k) < 2 ^ k := Nat.lt_pow_two_of_testBit _ fun i above => by
    rw [testBit_revBits, decide_eq_false (by omega), Bool.false_and]
  simp only [BitVec.getLsbD_ofNat, Nat.mul_comm (a.toNat / 2 ^ k), Nat.testBit_two_pow_mul_add _ width, testBit_revBits]
  split
  · next low =>
    rw [Nat.testBit_mod_two_pow, decide_eq_true low, decide_eq_true (by omega : k - 1 - j < k), decide_eq_true (by omega : j < 32)]
    rfl
  · next high =>
    rw [Nat.testBit_div_two_pow, show j - k + k = j by omega]
    by_cases inside : j < 32
    · rw [decide_eq_true inside]; rfl
    · rw [decide_eq_false inside, BitVec.getLsbD_of_ge a j (by omega)]; rfl

/-! ### Results with V, and without -/

/-- An operation on a and b gives the value of its row, and sets V where its row says. -/
theorem integerResult_of_iOp {i : Op → Instr} {op lat : Nat} {f : Word → Word → Word × Bool} {r : Word → Word → Word}
    {v : Word → Word → Prop} (means : ∀ o s, exec (i o) s = iOp op o lat f s) (value : ∀ a b, (f a b).1 = r a b)
    (flag : ∀ a b, (f a b).2 = true ↔ v a b) : IntegerResult i op lat r v := by
  intro o s issued fields
  have zero (g : BitVec 3) : g ||| 0 = g := BitVec.or_zero
  refine ⟨(s.finds o).iflags ||| if (f (s.intA o) (s.intB o)).2 then 1 else 0, fun beyond => ?_, fun fits => ?_, ?_⟩
  · rw [if_pos ((flag _ _).2 beyond)]
  · rw [if_neg fun set => fits ((flag _ _).1 set), zero]
  · rw [means, iOp, iIssue, State.legal_issue issued _ fields, ← value]
    simp only [State.finds_getA, State.finds_bI, UnitSt.iflag, Bool.false_eq_true, if_false, zero]
    rfl

/-- An operation whose row has no V. -/
theorem integerResult_of_plain {i : Op → Instr} {op lat : Nat} {f r : Word → Word → Word}
    (means : ∀ o s, exec (i o) s = iOp op o lat (fun a b => plain (f a b)) s) (value : ∀ a b, f a b = r a b) :
    IntegerResult i op lat r fun _ _ => False :=
  integerResult_of_iOp means value fun _ _ => iff_of_false Bool.false_ne_true id

/-- An operation that gives the exact value wrapped. -/
theorem integerResult_of_wrapV {i : Op → Instr} {op lat : Nat} {f : Word → Word → Int} {r : Word → Word → Word}
    (means : ∀ o s, exec (i o) s = iOp op o lat (fun a b => wrapV (f a b)) s) (value : ∀ a b, BitVec.ofInt 32 (f a b) = r a b) :
    IntegerResult i op lat r fun a b => (r a b).toInt ≠ f a b :=
  integerResult_of_iOp means value fun a b => by rw [← value]; exact overflows_iff _

/-- An operation that gives the exact value held at the end of the range that it passes, and sets V where the wrapped one would. -/
theorem integerResult_of_satV {i : Op → Instr} {op lat : Nat} {f : Word → Word → Int} {w : Word → Word → Word}
    (means : ∀ o s, exec (i o) s = iOp op o lat (fun a b => satV (f a b)) s) (wrapped : ∀ a b, BitVec.ofInt 32 (f a b) = w a b) :
    IntegerResult i op lat (fun a b => BitVec.ofInt 32 (max (-2 ^ 31) (min (2 ^ 31 - 1) (f a b))))
      fun a b => (w a b).toInt ≠ f a b :=
  integerResult_of_iOp means (fun a b => satV_fst (f a b)) fun a b => by rw [← wrapped]; exact overflows_iff _

/-! ### The function of each row of R249 -/

theorem exec_add (o : Op) (s : State) : exec (.add o) s = iOp 0x01 o 1 addV s := rfl
theorem exec_sub (o : Op) (s : State) : exec (.sub o) s = iOp 0x02 o 1 subV s := rfl
theorem exec_adds (o : Op) (s : State) : exec (.adds o) s = iOp 0x03 o 1 addsV s := rfl
theorem exec_subs (o : Op) (s : State) : exec (.subs o) s = iOp 0x04 o 1 subsV s := rfl
theorem exec_neg (o : Op) (s : State) : exec (.neg o) s = iOp 0x05 o 1 (fun a _ => negV a) s := rfl
theorem exec_negs (o : Op) (s : State) : exec (.negs o) s = iOp 0x06 o 1 (fun a _ => negsV a) s := rfl
theorem exec_and (o : Op) (s : State) : exec (.and o) s = iOp 0x08 o 1 (fun a b => plain (a &&& b)) s := rfl
theorem exec_or (o : Op) (s : State) : exec (.or o) s = iOp 0x09 o 1 (fun a b => plain (a ||| b)) s := rfl
theorem exec_xor (o : Op) (s : State) : exec (.xor o) s = iOp 0x0A o 1 (fun a b => plain (a ^^^ b)) s := rfl
theorem exec_not (o : Op) (s : State) : exec (.not o) s = iOp 0x0B o 1 (fun a _ => plain (~~~a)) s := rfl
theorem exec_shl (o : Op) (s : State) : exec (.shl o) s = iOp 0x10 o 1 (fun a b => plain (shl a b)) s := rfl
theorem exec_shr (o : Op) (s : State) : exec (.shr o) s = iOp 0x11 o 1 (fun a b => plain (shr a b)) s := rfl
theorem exec_sar (o : Op) (s : State) : exec (.sar o) s = iOp 0x12 o 1 (fun a b => plain (sar a b)) s := rfl
theorem exec_rol (o : Op) (s : State) : exec (.rol o) s = iOp 0x13 o 1 (fun a b => plain (rol a b)) s := rfl
theorem exec_mul (o : Op) (s : State) : exec (.mul o) s = iOp 0x18 o 3 mulV s := rfl
theorem exec_mulh (o : Op) (s : State) : exec (.mulh o) s = iOp 0x19 o 3 (fun a b => plain (mulh a b)) s := rfl
theorem exec_min (o : Op) (s : State) : exec (.min o) s =
    iOp 0x20 o 1 (fun a b => plain (if a.toInt ≤ b.toInt then a else b)) s := rfl
theorem exec_max (o : Op) (s : State) : exec (.max o) s =
    iOp 0x21 o 1 (fun a b => plain (if b.toInt ≤ a.toInt then a else b)) s := rfl
theorem exec_bitrev (o : Op) (s : State) : exec (.bitrev o) s = iOp 0x25 o 1 (fun a b => plain (bitrev a b)) s := rfl

/-- Settles O3: each operation is the function of its row at issue; V follows the exact value (`overflows_iff`), and the bits of BITREV the
reversal (`testBit_revBits`). -/
theorem integerArithmetic : Obligations.IntegerArithmetic := by
  unfold Obligations.IntegerArithmetic
  exact ⟨integerResult_of_wrapV exec_add ofInt_add_toInt, integerResult_of_wrapV exec_sub ofInt_sub_toInt,
    integerResult_of_satV exec_adds ofInt_add_toInt, integerResult_of_satV exec_subs ofInt_sub_toInt,
    integerResult_of_iOp exec_neg (fun a _ => negV_fst a) fun a _ => overflows_neg_iff a,
    integerResult_of_iOp exec_negs (fun a _ => negsV_fst a) fun a _ => overflows_neg_iff a,
    integerResult_of_plain exec_and fun _ _ => rfl, integerResult_of_plain exec_or fun _ _ => rfl,
    integerResult_of_plain exec_xor fun _ _ => rfl, integerResult_of_plain exec_not fun _ _ => rfl,
    integerResult_of_plain exec_shl shl_eq, integerResult_of_plain exec_shr shr_eq,
    integerResult_of_plain exec_sar sar_eq, integerResult_of_plain exec_rol fun _ _ => rfl,
    integerResult_of_wrapV exec_mul ofInt_mul_toInt, integerResult_of_plain exec_mulh mulh_eq,
    integerResult_of_plain exec_min fun a b => by simp only [← Int.not_le, ite_not],
    integerResult_of_plain exec_max fun a b => by simp only [← Int.not_le, ite_not],
    integerResult_of_plain exec_bitrev fun _ _ => rfl, getLsbD_bitrev⟩

/-! ### Division (R227, R252) -/

/-- Off the edges the quotient fits, and the pair is that of a truncating division. -/
theorem divs_eq {a b : Word} (divisor : b ≠ 0) (fits : ¬(a = 0x80000000 ∧ b = 0xFFFFFFFF)) : (divs a b).1.toInt = a.toInt.tdiv b.toInt ∧
    (divs a b).2.1.toInt = a.toInt.tmod b.toInt ∧ (divs a b).2.2 = (false, false) := by
  have quotient : (a.sdiv b).toInt = a.toInt.tdiv b.toInt :=
    BitVec.toInt_sdiv_of_ne_or_ne a b (not_and_or.1 fits)
  have remainder : (a.srem b).toInt = a.toInt.tmod b.toInt := BitVec.toInt_srem a b
  rw [divs, if_neg divisor, if_neg fits, ← quotient, ← remainder, BitVec.ofInt_toInt, BitVec.ofInt_toInt]
  exact ⟨rfl, rfl, rfl⟩

/-- The remainder of a truncating division has the sign of the dividend. -/
theorem tmod_mul_self_nonneg (a b : Int) : 0 ≤ a.tmod b * a := by
  rcases le_total 0 a with pos | neg
  · exact mul_nonneg (Int.tmod_nonneg b pos) pos
  · have turned := Int.tmod_nonneg b (Int.neg_nonneg_of_nonpos neg)
    rw [Int.neg_tmod] at turned
    exact mul_nonneg_of_nonpos_of_nonpos (by omega) neg

theorem divs_spec {a b : Word} (divisor : b ≠ 0) (fits : ¬(a = 0x80000000 ∧ b = 0xFFFFFFFF)) :
    (divs a b).1.toInt * b.toInt + (divs a b).2.1.toInt = a.toInt ∧ (divs a b).2.1.toInt.natAbs < b.toInt.natAbs ∧
      0 ≤ (divs a b).2.1.toInt * a.toInt ∧ (divs a b).2.2 = (false, false) := by
  obtain ⟨quotient, remainder, flags⟩ := divs_eq divisor fits
  have some : 0 < b.toInt.natAbs := Int.natAbs_pos.2 fun zero => divisor (BitVec.toInt_inj.1 zero)
  rw [quotient, remainder, flags]
  refine ⟨Int.tdiv_mul_add_tmod _ _, ?_, tmod_mul_self_nonneg _ _, rfl⟩
  rw [Int.natAbs_tmod]
  exact Nat.mod_lt _ some

theorem divu_spec {a b : Word} (divisor : b ≠ 0) : (divu a b).1.toNat * b.toNat + (divu a b).2.1.toNat = a.toNat ∧
    (divu a b).2.1.toNat < b.toNat ∧ (divu a b).2.2 = (false, false) := by
  have some : 0 < b.toNat := Nat.pos_of_ne_zero fun zero => divisor (BitVec.eq_of_toNat_eq zero)
  rw [divu, if_neg divisor]
  exact ⟨Nat.div_add_mod' a.toNat b.toNat, Nat.mod_lt _ some, rfl⟩

/-- What a division leaves of the unit that issues it, by its quotient, remainder, V and Z. -/
def UnitSt.divided (x : UnitSt) (d : Nat) (r : Word × Word × Bool × Bool) : UnitSt :=
  { x with
    iflags := x.iflags ||| (if r.2.2.1 then 1 else 0) ||| (if r.2.2.2 then 2 else 0)
    flight := insLanding ⟨x.cyc + 18, .a ((d + 1) % 32), lanes r.2.1 0, x.cyc⟩ (x.inFlight 18 (.a (d % 32)) (lanes r.1 0))
    pendDivz := x.pendDivz || (r.2.2.2 && x.ten.getLsbD 1)
    heldDivz := x.heldDivz && !(r.2.2.2 && x.ten.getLsbD 1) }

section
variable {s : State} {o : Op}

theorem divOp_issued (issued : s.issues o) {op : Nat} (fields : illegalI (o.word op) = none)
    (f : Word → Word → Word × Word × Bool × Bool) :
    divOp op o f s = .next (s.leaves o ((s.finds o).divided o.d.val (f (s.intA o) (s.intB o)))) := by
  rw [divOp, iIssue, State.legal_issue issued _ fields]
  simp only [State.finds_getA, State.finds_bI]
  refine congrArg (fun x => (Host.Outcome.next (s.leaves o x) : Out)) ?_
  cases pending : (f (s.intA o) (s.intB o)).2.2.2 && (s.finds o).ten.getLsbD 1 with
  | true =>
    simp only [UnitSt.divided, pending, Bool.or_true, Bool.not_true, Bool.and_false]
    exact if_pos pending
  | false =>
    simp only [UnitSt.divided, pending, Bool.or_false, Bool.not_false, Bool.and_true]
    exact if_neg (Bool.eq_false_iff.1 pending)

/-- An odd D has no A[D + 1] beside it (R233). -/
theorem illegalI_div_odd {op : Nat} (division : op = 0x1A ∨ op = 0x1B) (odd : o.d.val % 2 = 1) : illegalI (o.word op) = some 1 := by
  obtain rfl | rfl := division <;> simp [illegalI, o.sOp_word, o.sD_word, odd, must]

theorem divOp_odd (runs : (s.unit o.u.val).wait = .run) {op : Nat} (division : op = 0x1A ∨ op = 0x1B) (odd : o.d.val % 2 = 1)
    (f : Word → Word → Word × Word × Bool × Bool) : divOp op o f s = .next (s.faultTrap o.u.val 1 1 2) := by
  rw [divOp, iIssue, illegalI_div_odd division odd, State.legal_traps 2 1 _ runs]

end

/-- Settles O4: an issued division is its row at issue (`divOp_issued`), and off the edges the row is the truncating division. -/
theorem integerDivision : Obligations.IntegerDivision := by
  unfold Obligations.IntegerDivision
  exact ⟨fun o s issued => ⟨fun fields => divOp_issued issued fields divs, fun fields => divOp_issued issued fields divu⟩,
    fun o s runs odd => ⟨divOp_odd runs (.inl rfl) odd divs, divOp_odd runs (.inr rfl) odd divu⟩,
    fun a b => divs_spec, fun a => ⟨rfl, rfl⟩, rfl, fun a b => divu_spec⟩

/-! ### CMP, MOVI, AMOD and the long immediate (R250, R251, R253, R271) -/

theorem cmpI_conditions (a b : Word) : cmpI 0 a b = decide (a = b) ∧ cmpI 1 a b = decide (a ≠ b) ∧ cmpI 2 a b = a.slt b ∧
    cmpI 3 a b = !a.slt b ∧ cmpI 4 a b = a.ult b ∧ cmpI 5 a b = !a.ult b ∧
    cmpI 6 a b = decide (a &&& b ≠ 0) ∧ cmpI 7 a b = decide (a &&& b = 0) := by
  refine ⟨?_, ?_, rfl, ?_, rfl, ?_, ?_, ?_⟩
  · exact beq_eq_decide a b
  · rw [decide_not, ← beq_eq_decide]; rfl
  · exact (decide_eq_decide.2 Int.not_lt.symm).trans decide_not
  · exact (decide_eq_decide.2 Nat.not_lt.symm).trans decide_not
  · rw [decide_not, ← beq_eq_decide]; rfl
  · exact beq_eq_decide (a &&& b) 0

section
variable {s : State} {o : Op}

/-- MOVI names an A register, and its MOD is 0. -/
theorem illegalI_movi (low : o.d.val < 32) (mode : o.m.val = 0) (imm : BitVec 12) : illegalI (o.moviWord imm) = none := by
  obtain ⟨op, -, d, m, -⟩ := o.moviWord_fields imm
  simp [illegalI, op, d, m, low, mode, must]

/-- The fields of a long immediate that R178 checks. -/
theorem illegalLimm_limmBits (o : Op) (isF : Bool) (imm : BitVec 64) : illegalLimm (o.limmBits isF imm) =
    must (isF || (decide (o.d.val < 32) && decide (lane1 imm = 0))) := by
  obtain ⟨-, -, file, d, -, -⟩ := o.limmBits_fields isF imm
  have width := imm.isLt
  have between : bf (o.limmBits isF imm) 109 64 = 0 := by
    simp only [bf, Op.limmBits_toNat]; omega
  have upper : bf (o.limmBits isF imm) 63 32 = (lane1 imm).toNat := by
    simp only [bf, Op.limmBits_toNat, lane1, BitVec.extractLsb'_toNat, Nat.shiftRight_eq_div_pow]; omega
  have none : ((lane1 imm).toNat == 0) = decide (lane1 imm = 0) := by
    rw [beq_eq_decide]; exact decide_eq_decide.2 (BitVec.toNat_inj (y := 0))
  rw [illegalLimm, between, file, d, upper, none]
  cases isF <;> rfl

theorem exec_cmp (issued : s.issues o) (fields : illegalI (o.word 0x22) = none) : exec (.cmp o) s = .next (s.leaves o { s.finds o with
    flight := (s.finds o).inFlight 1 (.p (o.d.val % 8)) (if cmpI (o.d.val / 8) (s.intA o) (s.intB o) then 1 else 0) }) := by
  show execCmp o s = _
  rw [execCmp, iIssue, State.legal_issue issued _ fields]
  simp only [State.finds_getA, State.finds_bI, UnitSt.flyP, Nat.mod_mod]
  rfl

theorem exec_movi (issued : s.issues o) (low : o.d.val < 32) (mode : o.m.val = 0) (imm : BitVec 12) :
    exec (.movi o imm) s = .next (s.leaves o { s.finds o with
      flight := (s.finds o).inFlight 1 (.a (o.d.val % 32)) (lanes (imm.signExtend 32) 0) }) :=
  State.legal_issue issued 2 (illegalI_movi low mode imm) _

theorem exec_amod (issued : s.issues o) (fields : illegalI (o.word 0x24) = none) : exec (.amod o) s = .next (s.leaves o { s.finds o with
    flight := (s.finds o).inFlight 1 (.a (o.d.val % 32)) (lanes (((s.finds o).getA o.d.val &&& ~~~(s.intB o)) |||
      (((s.finds o).getA o.d.val + s.intA o) &&& s.intB o)) 0) }) := by
  show execAmod o s = _
  rw [execAmod, iIssue, State.legal_issue issued _ fields]
  simp only [State.finds_getA, State.finds_bI]
  rfl

theorem exec_longImmediate_f (issued : s.issues o) (imm : BitVec 64) : exec (.longImmediate o true imm) s = .next (s.leaves o
    { s.finds o with flight := (s.finds o).inFlight 1 (.f ((s.finds o).phys o.d.val)) imm }) :=
  State.legal_issue issued 5 (illegalLimm_limmBits o true imm) _

theorem exec_longImmediate_a (issued : s.issues o) (imm : BitVec 64) (low : o.d.val < 32) (upper : lane1 imm = 0) :
    exec (.longImmediate o false imm) s = .next (s.leaves o
      { s.finds o with flight := (s.finds o).inFlight 1 (.a (o.d.val % 32)) (lanes (lane0 imm) 0) }) := by
  have fields : illegalLimm (o.limmBits false imm) = none := by simp [illegalLimm_limmBits, low, upper, must]
  exact State.legal_issue issued 5 fields _

theorem exec_longImmediate_traps (runs : (s.unit o.u.val).wait = .run) (imm : BitVec 64) (breaks : 32 ≤ o.d.val ∨ lane1 imm ≠ 0) :
    exec (.longImmediate o false imm) s = .next (s.faultTrap o.u.val 1 1 5) := by
  have fields : illegalLimm (o.limmBits false imm) = some 1 := by
    rw [illegalLimm_limmBits, must, if_neg]
    simpa [imp_iff_not_or] using breaks
  show execLongImmediate o false imm s = _
  rw [execLongImmediate, fields, State.legal_traps 5 1 _ runs]

end

/-- Settles O5: each operation through its equation above, and the conditions by the orders of words (`cmpI_conditions`). -/
theorem comparesAndImmediates : Obligations.ComparesAndImmediates := by
  unfold Obligations.ComparesAndImmediates
  exact ⟨fun o s issued => ⟨exec_cmp issued, fun imm low mode => exec_movi issued low mode imm, exec_amod issued,
      exec_longImmediate_f issued, exec_longImmediate_a issued⟩,
    fun o s imm runs breaks => exec_longImmediate_traps runs imm breaks, cmpI_conditions⟩

end Sys2Proof.Machine
end

