-- ==== Sys2Proof/Proofs/SlotLOperations.lean ====
section
/-! PROOF. The operations of slot L: addressing modes, local and shared accesses, the tap FIFO, and the moves between the files (R172,
R173, R185, R255–R262, R277–R284, R293, R321). -/

namespace Sys2Proof

/-! ### Bytes of a stored value (R12, R259) -/

theorem natToBytes_getElem (n v k : Nat) (h : k < (natToBytes n v).length) : (natToBytes n v)[k] = BitVec.ofNat 8 (v / 256 ^ k) := by
  induction n generalizing v k with
  | zero => simp [natToBytes] at h
  | succ n ih =>
    cases k with
    | zero => simp [natToBytes]
    | succ k => simp only [natToBytes, List.getElem_cons_succ, ih, Nat.div_div_eq_div_mul, Nat.pow_succ']

/-- Each byte of a stored word is the word shifted down to it. -/
theorem Memory.read_writeNat_inside (m : Memory) (a : Nat) {n w k : Nat} (v : BitVec w) (h : k < n) :
    Memory.read (Memory.writeNat m a n v.toNat) (a + k) = (v >>> (8 * k)).setWidth 8 := by
  have width : k < (natToBytes n v.toNat).length := by rwa [natToBytes_length]
  rw [Memory.writeNat, Memory.read_writeBytes_inside m a k _ width, natToBytes_getElem]
  apply BitVec.eq_of_toNat_eq
  rw [BitVec.toNat_ofNat, BitVec.toNat_setWidth, BitVec.toNat_ushiftRight, Nat.shiftRight_eq_div_pow, Nat.pow_mul]

theorem Memory.read_writeNat_outside (m : Memory) {a b n : Nat} (v : Nat) (h : b < a ∨ a + n ≤ b) :
    Memory.read (Memory.writeNat m a n v) b = Memory.read m b :=
  Memory.read_writeBytes_outside m a b _ (by rwa [natToBytes_length])

end Sys2Proof

namespace Sys2Proof.Machine

variable {s : State} {o : Op}

/-! ### The addressing modes (R255) -/

/-- Settles O8: each mode is a branch of the effective address and of the new base. -/
theorem addressingModes : Obligations.AddressingModes := by
  unfold Obligations.AddressingModes
  intro o x n
  refine ⟨fun mode => ?_, fun mode => ?_, fun mode => ?_, fun mode => ?_⟩
  all_goals
    rw [UnitSt.ea, UnitSt.updateBase, UnitSt.newBase, mode]
    exact ⟨rfl, rfl⟩

/-! ### The checks of an access (R173, R206, R233, R257) -/

section
variable (issued : s.issues o) {op space limit align : Nat} (fields : illegalL (o.word op) = none)
  (access : lAccess (decide (512 ≤ o.u.val)) op = some (space, limit, align))
include issued fields access

/-- An access without a range fault goes on. -/
theorem State.checked_clear (clear : rangeFault space limit ((s.unit o.u.val).ea o) align = none) (go : State → State) :
    s.checked op o go = .next (go s) := by
  rw [State.checked, fields, State.legal_ok 3 _ issued.1]
  simp only [issued.2, access, Option.bind_some, if_true, clear]

/-- A range fault takes its trap in place of the access. -/
theorem State.checked_faults {d : Nat} (fault : rangeFault space limit ((s.unit o.u.val).ea o) align = some d)
    (go : State → State) : s.checked op o go = .next (s.faultTrap o.u.val 2 d 3) := by
  rw [State.checked, fields, State.legal_ok 3 _ issued.1]
  simp only [issued.2, access, Option.bind_some, if_true, fault]

/-- An aligned access inside its space goes on. -/
theorem State.checked_goes (inside : (s.unit o.u.val).ea o < limit) (aligned : (s.unit o.u.val).ea o % align = 0)
    (go : State → State) : s.checked op o go = .next (go s) := by
  refine State.checked_clear issued fields access ?_ go
  rw [rangeFault, if_neg (Nat.not_le.2 inside), if_neg (not_not.2 aligned)]

/-- An access outside its space takes the RANGE trap with the code of the space. -/
theorem State.checked_outside (outside : limit ≤ (s.unit o.u.val).ea o) (go : State → State) :
    s.checked op o go = .next (s.faultTrap o.u.val 2 space 3) :=
  State.checked_faults issued fields access (if_pos outside) go

/-- A misaligned one inside it takes the RANGE trap with DETAIL 3. -/
theorem State.checked_misaligned (inside : (s.unit o.u.val).ea o < limit) (off : (s.unit o.u.val).ea o % align ≠ 0)
    (go : State → State) : s.checked op o go = .next (s.faultTrap o.u.val 2 3 3) := by
  refine State.checked_faults issued fields access ?_ go
  rw [rangeFault, if_neg (Nat.not_le.2 inside), if_pos off]

end

/-- A base update turns no register file. -/
theorem UnitSt.updateBase_phys (x : UnitSt) (o : Op) (size n : Nat) : (x.updateBase o size).phys n = x.phys n := by
  unfold UnitSt.updateBase
  split <;> rfl

theorem State.updateBase_finds_phys (s : State) (o : Op) (size n : Nat) : ((s.finds o).updateBase o size).phys n = (s.unit o.u.val).phys n :=
  (UnitSt.updateBase_phys ..).trans (UnitSt.opened_phys ..)

/-! ### Local accesses (R172, R185, R256, R259, R293) -/

/-- Short of an uncorrectable error, SECDED changes no more than a count. -/
theorem State.localEcc_counts (s : State) (u : Nat) {e : Ecc} (sound : e ≠ .uncorrectable) : ∃ r, s.localEcc u e = { s with regs := r } := by
  cases e with
  | clean => exact ⟨s.regs, rfl⟩
  | corrected n =>
    by_cases compute : u < 512
    · exact ⟨_, if_pos compute⟩
    · exact ⟨s.regs, if_neg compute⟩
  | uncorrectable => exact absurd rfl sound

theorem State.localEcc_unit (s : State) (u v : Nat) {e : Ecc} (sound : e ≠ .uncorrectable) : (s.localEcc u e).unit v = s.unit v := by
  obtain ⟨r, same⟩ := s.localEcc_counts u sound
  rw [same]
  rfl

theorem State.localEcc_lmem (s : State) (u : Nat) {e : Ecc} (sound : e ≠ .uncorrectable) : (s.localEcc u e).lmem = s.lmem := by
  obtain ⟨r, same⟩ := s.localEcc_counts u sound
  rw [same]

theorem exec_ldl32a (o : Op) (e : Ecc) (s : State) : exec (.ldl32a o e) s =
    loadLocal 0x01 o 4 e (fun x m a => x.flyA 3 o.d.val (Memory.read32 m a)) s := rfl
theorem exec_ldl32f (o : Op) (e : Ecc) (s : State) : exec (.ldl32f o e) s =
    loadLocal 0x02 o 4 e (fun x m a => x.flyF 3 o.d.val (both (Memory.read32 m a))) s := rfl
theorem exec_ldl64 (o : Op) (e : Ecc) (s : State) : exec (.ldl64 o e) s =
    loadLocal 0x03 o 8 e (fun x m a => x.flyF 3 o.d.val (Memory.read64 m a)) s := rfl
theorem exec_stl32a (o : Op) (e : Ecc) (s : State) : exec (.stl32a o e) s =
    storeLocal 0x04 o 4 e (fun x => (x.getA o.d.val).toNat) s := rfl
theorem exec_stl32f (o : Op) (e : Ecc) (s : State) : exec (.stl32f o e) s =
    storeLocal 0x05 o 4 e (fun x => (lane0 (x.getF o.d.val)).toNat) s := rfl
theorem exec_stl64 (o : Op) (s : State) : exec (.stl64 o) s = storeLocal 0x06 o 8 .clean (fun x => (x.getF o.d.val).toNat) s := rfl

/-- The local accesses with their sizes. -/
def localOps (o : Op) (e : Ecc) : List (Nat × Nat × Instr) :=
  [(4, 0x01, .ldl32a o e), (4, 0x02, .ldl32f o e), (8, 0x03, .ldl64 o e), (4, 0x04, .stl32a o e), (4, 0x05, .stl32f o e),
    (8, 0x06, .stl64 o)]

/-- Every local access is checked against the 48 KiB and its size. -/
theorem localOps_checked (o : Op) (e : Ecc) (s : State) : ∀ p ∈ localOps o e,
    (∀ servo, lAccess servo p.2.1 = some (1, 0xC000, p.1)) ∧ ∃ go, exec p.2.2 s = s.checked p.2.1 o go := by
  simp only [localOps, List.forall_mem_cons]
  exact ⟨⟨fun _ => rfl, _, exec_ldl32a o e s⟩, ⟨fun _ => rfl, _, exec_ldl32f o e s⟩, ⟨fun _ => rfl, _, exec_ldl64 o e s⟩,
    ⟨fun _ => rfl, _, exec_stl32a o e s⟩, ⟨fun _ => rfl, _, exec_stl32f o e s⟩, ⟨fun _ => rfl, _, exec_stl64 o s⟩,
    List.forall_mem_nil _⟩

section
variable (issued : s.issues o) {op size : Nat} {e : Ecc} (sound : e ≠ .uncorrectable) (fields : illegalL (o.word op) = none)
  (access : lAccess (decide (512 ≤ o.u.val)) op = some (1, 0xC000, size)) (inside : (s.unit o.u.val).ea o < 0xC000)
  (aligned : (s.unit o.u.val).ea o % size = 0)
include issued sound fields access inside aligned

/-- A load lands what the memory holds at issue, beside the base update. -/
theorem loadLocal_issued (land : UnitSt → Memory → Nat → UnitSt) : loadLocal op o size e land s =
    .next ((s.localEcc o.u.val e).leaves o
      (land ((s.finds o).updateBase o size) s.lmem (lmemAddr o.u.val ((s.unit o.u.val).ea o)))) := by
  have unit := s.localEcc_unit o.u.val o.u.val sound
  have still : (s.localEcc o.u.val e).issues o := by rwa [State.issues, unit]
  rw [loadLocal, State.checked_goes issued fields access inside aligned, State.issue_issued still, State.finds, unit]
  rfl

/-- A store writes its bytes at issue, beside the base update. -/
theorem storeLocal_issued (data : UnitSt → Nat) : storeLocal op o size e data s =
    .next (State.leaves { s.localEcc o.u.val e with
      lmem := Memory.writeNat s.lmem (lmemAddr o.u.val ((s.unit o.u.val).ea o)) size (data (s.unit o.u.val)) } o
      ((s.finds o).updateBase o size)) := by
  have unit := s.localEcc_unit o.u.val o.u.val sound
  have still (m : Memory) : State.issues { s.localEcc o.u.val e with lmem := m } o := by
    show (s.localEcc o.u.val e).issues o
    rwa [State.issues, unit]
  have found (m : Memory) : State.finds { s.localEcc o.u.val e with lmem := m } o = s.finds o := congrArg UnitSt.opened unit
  rw [storeLocal, State.checked_goes issued fields access inside aligned]
  simp only [if_neg sound, State.localEcc_lmem s _ sound]
  rw [State.issue_issued (still _), found]

/-- A store changes exactly the addressed bytes. -/
theorem storeLocal_bytes {w : Nat} (v : UnitSt → BitVec w) :
    let a := lmemAddr o.u.val ((s.unit o.u.val).ea o)
    ∃ t, storeLocal op o size e (fun x => (v x).toNat) s = .next t ∧
      t = State.leaves { s.localEcc o.u.val e with lmem := t.lmem } o ((s.finds o).updateBase o size) ∧
      (∀ k < size, Memory.read t.lmem (a + k) = ((v (s.unit o.u.val)) >>> (8 * k)).setWidth 8) ∧
      (∀ b, b < a ∨ a + size ≤ b → Memory.read t.lmem b = Memory.read s.lmem b) := by
  intro a
  refine ⟨_, storeLocal_issued issued sound fields access inside aligned _, rfl, fun k below => ?_, fun b outside => ?_⟩
  · exact Memory.read_writeNat_inside s.lmem a _ below
  · exact Memory.read_writeNat_outside s.lmem _ outside

end

/-- Settles O7: a checked access loads or stores at issue (`loadLocal_issued`, `storeLocal_bytes`), and one that is outside or misaligned
takes the trap of its check. -/
theorem localMemoryAccess : Obligations.LocalMemoryAccess := by
  unfold Obligations.LocalMemoryAccess
  refine ⟨fun o s e issued sound => ⟨fun inside aligned => ⟨fun fields => ?_, fun fields => ?_, fun fields => ?_, fun fields => ?_⟩,
      fun inside aligned => ⟨fun fields => ?_, fun fields => ?_⟩⟩, fun s u n compute => ⟨rfl, if_pos compute⟩,
    fun o s e n op i issued mem fields => ?_⟩
  · exact (exec_ldl32a o e s).trans (loadLocal_issued issued sound fields rfl inside aligned _)
  · rw [exec_ldl32f, loadLocal_issued issued sound fields rfl inside aligned, UnitSt.flyF, State.updateBase_finds_phys]
    rfl
  · rw [exec_stl32a]
    exact storeLocal_bytes issued sound fields rfl inside aligned fun x => x.getA o.d.val
  · rw [exec_stl32f]
    exact storeLocal_bytes issued sound fields rfl inside aligned fun x => lane0 (x.getF o.d.val)
  · rw [exec_ldl64, loadLocal_issued issued sound fields rfl inside aligned, UnitSt.flyF, State.updateBase_finds_phys]
    rfl
  · rw [exec_stl64]
    exact storeLocal_bytes issued (e := .clean) (by decide) fields rfl inside aligned fun x => x.getF o.d.val
  · obtain ⟨access, go, run⟩ := localOps_checked o e s _ mem
    exact ⟨fun outside => run.trans (State.checked_outside issued fields (access _) outside go),
      fun inside off => run.trans (State.checked_misaligned issued fields (access _) inside off go)⟩

/-! ### The request at the port (R277–R281, R283, R284) -/

/-- A presented read stands with the unit, or is lost; nothing else of a unit changes. -/
theorem State.presentRead_unit (s : State) (u : Nat) (r : ReadReq) :
    ∃ n b, (s.presentRead u r).unit u = { s.unit u with readNew := n, readBuf := b } := by
  unfold State.presentRead
  dsimp only
  split
  · exact ⟨_, _, State.unit_setUnit_same ..⟩
  · exact ⟨_, _, State.unit_setUnit_same ..⟩
  · refine ⟨(s.unit u).readNew, (s.unit u).readBuf, ?_⟩
    unfold State.readLost
    split <;> rfl

/-- A lost write of a compute unit makes its trap pending where that is enabled. -/
theorem State.writeLost_unit (s : State) (u : Nat) : (s.writeLost (u / 8) (u % 8)).unit u =
    if (s.unit u).ten.getLsbD 0 then { s.unit u with pendWlost := true } else s.unit u := by
  have here : 8 * (u / 8) + u % 8 = u := Nat.div_add_mod u 8
  rw [State.writeLost, if_pos (Nat.mod_lt u (by decide)), here, State.unit_modUnit, if_pos rfl]
  rfl

theorem State.presentWrite_unit (s : State) (u : Nat) (r : WriteReq) :
    ∃ n b p, (s.presentWrite u r).unit u = { s.unit u with writeNew := n, writeBuf := b, pendWlost := p } := by
  unfold State.presentWrite
  dsimp only
  split
  · exact ⟨_, _, _, State.unit_setUnit_same ..⟩
  · exact ⟨_, _, _, State.unit_setUnit_same ..⟩
  · rw [State.writeLost_unit]
    split
    · exact ⟨_, _, _, rfl⟩
    · exact ⟨_, _, _, rfl⟩

/-- A unit that presents a request goes on to issue. -/
theorem State.presentRead_issues (issued : s.issues o) (r : ReadReq) : (s.presentRead o.u.val r).issues o := by
  obtain ⟨n, b, unit⟩ := s.presentRead_unit o.u.val r
  rwa [State.issues, unit]

theorem State.presentWrite_issues (issued : s.issues o) (r : WriteReq) : (s.presentWrite o.u.val r).issues o := by
  obtain ⟨n, b, p, unit⟩ := s.presentWrite_unit o.u.val r
  rwa [State.issues, unit]

/-! ### Counters and masks -/

theorem State.get_bump_same (s : State) (f : Fld) : (s.bump f).get f = min (s.get f + 1) (2 ^ f.w - 1) :=
  State.get_put_lt s f _ (by have := Nat.one_le_two_pow (n := f.w); omega)

theorem State.get_bump_ne (s : State) {f g : Fld} (other : g.key ≠ f.key) : (s.bump f).get g = s.get g :=
  State.get_put_ne s other _

theorem State.testBit_setMask (s : State) {f : Fld} {k : Nat} (inside : k < f.w) : Nat.testBit ((s.setMask f k).get f) k = true := by
  rw [State.setMask, State.get_put_same, Nat.testBit_mod_two_pow, decide_eq_true inside]
  exact (Nat.testBit_or ..).trans (by rw [Nat.testBit_two_pow_self, Bool.or_true])

/-- The registers of lost accesses of a cluster lie apart (R284). -/
theorem lost_keys (c : Nat) : (Reg.FABRIC_CL_WLOST_RLOST c).key ≠ (Reg.FABRIC_CL_WLOST_CNT_RCOUNT c).key ∧
    (Reg.FABRIC_CL_WLOST_WLOST c).key ≠ (Reg.FABRIC_CL_WLOST_CNT_WCOUNT c).key := by
  simp only [Fld.key, Reg.FABRIC_CL_WLOST_RLOST, Reg.FABRIC_CL_WLOST_CNT_RCOUNT, Reg.FABRIC_CL_WLOST_WLOST,
    Reg.FABRIC_CL_WLOST_CNT_WCOUNT]
  omega

/-- A lost access sets its bit and counts. -/
theorem State.lost_shown (s : State) {mask count : Fld} {k : Nat} (apart : mask.key ≠ count.key) (inside : k < mask.w)
    (width : count.w = 16) : Nat.testBit (((s.errSeen.setMask mask k).bump count).get mask) k = true ∧
    ((s.errSeen.setMask mask k).bump count).get count = min (s.get count + 1) 0xFFFF := by
  have counted : (s.errSeen.setMask mask k).get count = s.get count := State.get_put_ne s.errSeen apart.symm _
  constructor
  · rw [State.get_bump_ne _ apart]
    exact State.testBit_setMask _ inside
  · rw [State.get_bump_same, width, counted]
    rfl

theorem State.readLost_shown (s : State) {u : Nat} (compute : u < 512) : let t := s.readLost u
    t.units = s.units ∧ Nat.testBit (t.get (Reg.FABRIC_CL_WLOST_RLOST (u / 8))) (u % 8) = true ∧
    t.get (Reg.FABRIC_CL_WLOST_CNT_RCOUNT (u / 8)) = min (s.get (Reg.FABRIC_CL_WLOST_CNT_RCOUNT (u / 8)) + 1) 0xFFFF := by
  have bit : u % 8 < (Reg.FABRIC_CL_WLOST_RLOST (u / 8)).w := Nat.mod_lt u (by decide)
  rw [State.readLost, if_pos compute]
  exact ⟨rfl, s.lost_shown (lost_keys _).1 bit rfl⟩

theorem State.writeLost_shown (s : State) (u : Nat) : let t := s.writeLost (u / 8) (u % 8)
    Nat.testBit (t.get (Reg.FABRIC_CL_WLOST_WLOST (u / 8))) (u % 8) = true ∧
    t.get (Reg.FABRIC_CL_WLOST_CNT_WCOUNT (u / 8)) = min (s.get (Reg.FABRIC_CL_WLOST_CNT_WCOUNT (u / 8)) + 1) 0xFFFF ∧
    t.unit u = if (s.unit u).ten.getLsbD 0 then { s.unit u with pendWlost := true } else s.unit u := by
  have unit : u % 8 < 8 := Nat.mod_lt u (by decide)
  have bit : u % 8 < (Reg.FABRIC_CL_WLOST_WLOST (u / 8)).w := unit.trans (by decide : 8 < 11)
  obtain ⟨shown, counted⟩ := s.lost_shown (count := Reg.FABRIC_CL_WLOST_CNT_WCOUNT (u / 8)) (lost_keys _).2 bit rfl
  refine ⟨?_, ?_, s.writeLost_unit u⟩
  · rw [State.writeLost, if_pos unit, State.get_modUnit]
    exact shown
  · rw [State.writeLost, if_pos unit, State.get_modUnit]
    exact counted

/-! ### Shared accesses (R255–R260) -/

theorem exec_lds32a (o : Op) (s : State) : exec (.lds32a o) s = loadShared 0x09 o 4 4 (fun _ => [.a (o.d.val % 32)]) s := rfl
theorem exec_lds32f (o : Op) (s : State) : exec (.lds32f o) s = loadShared 0x0A o 4 5 (fun x => [.f (x.phys o.d.val)]) s := rfl
theorem exec_lds64 (o : Op) (s : State) : exec (.lds64 o) s = loadShared 0x0B o 8 8 (fun x => [.f (x.phys o.d.val)]) s := rfl
theorem exec_ldp (o : Op) (s : State) : exec (.ldp o) s = loadShared 0x10 o 16 16 (fun x => [.f (x.phys o.d.val)]) s := rfl
theorem exec_ldsB256 (o : Op) (s : State) : exec (.ldsB256 o) s =
    loadShared 0x0F o 32 32 (fun x => (List.range 4).map fun k => .f (x.phys (o.d.val + k))) s := rfl
theorem exec_sts32a (o : Op) (s : State) : exec (.sts32a o) s = storeShared 0x0C o 4 (fun x => lanes (x.getA o.d.val) 0) s := rfl
theorem exec_sts32f (o : Op) (s : State) : exec (.sts32f o) s =
    storeShared 0x0D o 4 (fun x => lanes (lane0 (x.getF o.d.val)) 0) s := rfl
theorem exec_sts64 (o : Op) (s : State) : exec (.sts64 o) s = storeShared 0x0E o 8 (fun x => x.getF o.d.val) s := rfl

/-- The shared accesses with their alignments. -/
def sharedOps (o : Op) : List (Nat × Nat × Instr) :=
  [(4, 0x09, .lds32a o), (4, 0x0A, .lds32f o), (8, 0x0B, .lds64 o), (4, 0x10, .ldp o), (32, 0x0F, .ldsB256 o),
    (4, 0x0C, .sts32a o), (4, 0x0D, .sts32f o), (8, 0x0E, .sts64 o)]

/-- Every shared access is checked against the 1 MiB, of which a servo unit has nothing (log 15). -/
theorem sharedOps_checked (o : Op) (s : State) : ∀ p ∈ sharedOps o,
    (∀ servo, lAccess servo p.2.1 = some (2, if servo then 0 else 0x100000, p.1)) ∧ ∃ go, exec p.2.2 s = s.checked p.2.1 o go := by
  simp only [sharedOps, List.forall_mem_cons]
  exact ⟨⟨fun _ => rfl, _, exec_lds32a o s⟩, ⟨fun _ => rfl, _, exec_lds32f o s⟩, ⟨fun _ => rfl, _, exec_lds64 o s⟩,
    ⟨fun _ => rfl, _, exec_ldp o s⟩, ⟨fun _ => rfl, _, exec_ldsB256 o s⟩, ⟨fun _ => rfl, _, exec_sts32a o s⟩,
    ⟨fun _ => rfl, _, exec_sts32f o s⟩, ⟨fun _ => rfl, _, exec_sts64 o s⟩, List.forall_mem_nil _⟩

theorem sharedLimit_compute {u : Nat} (compute : u < 512) : (if decide (512 ≤ u) then 0 else 0x100000) = 0x100000 :=
  if_neg (by simpa using compute)

section
variable (issued : s.issues o) (compute : o.u.val < 512) {op align : Nat} (fields : illegalL (o.word op) = none)
  (access : ∀ servo, lAccess servo op = some (2, if servo then 0 else 0x100000, align)) (inside : (s.unit o.u.val).ea o < 0x100000)
  (aligned : (s.unit o.u.val).ea o % align = 0)
include issued compute fields access inside aligned

/-- A load presents its read, and its base update is in flight. -/
theorem loadShared_issued (inc form : Nat) (dest : UnitSt → List Dest) : loadShared op o inc form dest s =
    let p := s.presentRead o.u.val ⟨(s.unit o.u.val).ea o, form, dest (s.unit o.u.val), (s.unit o.u.val).cyc⟩
    .next (p.leaves o ((p.finds o).updateBase o inc)) := by
  have limit := (access (decide (512 ≤ o.u.val))).trans (by rw [sharedLimit_compute compute])
  rw [loadShared, State.checked_goes issued fields limit inside aligned, State.issue_issued (State.presentRead_issues issued _)]

/-- A store presents its write, and its base update is in flight. -/
theorem storeShared_issued (size : Nat) (data : UnitSt → Dword) : storeShared op o size data s =
    let p := s.presentWrite o.u.val ⟨(s.unit o.u.val).ea o, size, data (s.unit o.u.val)⟩
    .next (p.leaves o ((p.finds o).updateBase o size)) := by
  have limit := (access (decide (512 ≤ o.u.val))).trans (by rw [sharedLimit_compute compute])
  rw [storeShared, State.checked_goes issued fields limit inside aligned, State.issue_issued (State.presentWrite_issues issued _)]

end

/-- The four registers of LDS.B256 begin at a multiple of 4 (R179, R256). -/
theorem illegalL_ldsB256 (a : o.a.val < 32) (mode : o.m.val ≠ 1) (b : o.b.val < 32) (off : o.d.val % 4 ≠ 0) :
    illegalL (o.word 0x0F) = some 9 := by
  simp [illegalL, o.sOp_word (op := 0x0F) (by decide), o.sA_word, o.sM_word, o.sB_word, o.sD_word, a, mode, b, off]

/-- Settles O9: a checked access presents its request (`loadShared_issued`, `storeShared_issued`), one that is outside or misaligned takes
the trap of its check, and a request finds the newest place, the buffer, or neither. -/
theorem sharedMemoryAccess : Obligations.SharedMemoryAccess := by
  unfold Obligations.SharedMemoryAccess
  refine ⟨fun o s issued compute => ?_, fun o s al op i issued mem fields => ?_, fun o s issued a mode b off => ?_,
    fun s u r q w v => ?_⟩
  · refine ⟨fun ⟨fields, inside, aligned⟩ => ?_, fun ⟨fields, inside, aligned⟩ => ?_, fun ⟨fields, inside, aligned⟩ => ?_,
      fun ⟨fields, inside, aligned⟩ => ?_, fun ⟨fields, inside, aligned⟩ => ?_, fun ⟨fields, inside, aligned⟩ => ?_,
      fun ⟨fields, inside, aligned⟩ => ?_, fun ⟨fields, inside, aligned⟩ => ?_⟩
    · exact (exec_lds32a o s).trans (loadShared_issued issued compute fields (fun _ => rfl) inside aligned 4 4 _)
    · exact (exec_lds32f o s).trans (loadShared_issued issued compute fields (fun _ => rfl) inside aligned 4 5 _)
    · exact (exec_lds64 o s).trans (loadShared_issued issued compute fields (fun _ => rfl) inside aligned 8 8 _)
    · exact (exec_ldp o s).trans (loadShared_issued issued compute fields (fun _ => rfl) inside aligned 16 16 _)
    · exact (exec_ldsB256 o s).trans (loadShared_issued issued compute fields (fun _ => rfl) inside aligned 32 32 _)
    · exact (exec_sts32a o s).trans (storeShared_issued issued compute fields (fun _ => rfl) inside aligned 4 _)
    · exact (exec_sts32f o s).trans (storeShared_issued issued compute fields (fun _ => rfl) inside aligned 4 _)
    · exact (exec_sts64 o s).trans (storeShared_issued issued compute fields (fun _ => rfl) inside aligned 8 _)
  · obtain ⟨access, go, run⟩ := sharedOps_checked o s _ mem
    refine ⟨fun outside => ?_, fun compute inside off => ?_⟩
    · refine run.trans (State.checked_outside issued fields (access _) ?_ go)
      split
      · exact Nat.zero_le _
      · next isCompute => exact outside.resolve_right fun servo => isCompute (decide_eq_true servo)
    · have limit := (access (decide (512 ≤ o.u.val))).trans (by rw [sharedLimit_compute compute])
      exact run.trans (State.checked_misaligned issued fields limit inside off go)
  · rw [exec_ldsB256, loadShared, State.checked, illegalL_ldsB256 a mode b off, State.legal_traps 3 9 _ issued.1]
  · refine ⟨fun free => ?_, fun taken free => ?_, fun compute taken full => ?_, fun free => ?_, fun taken free => ?_,
      fun compute taken full => ?_⟩
    · simp only [State.presentRead, free]
    · simp only [State.presentRead, taken, free]
    · obtain ⟨buffered, there⟩ := Option.isSome_iff_exists.1 full
      have lost : s.presentRead u r = s.readLost u := by simp only [State.presentRead, taken, there]
      rw [lost]
      exact s.readLost_shown compute
    · simp only [State.presentWrite, free]
    · simp only [State.presentWrite, taken, free]
    · obtain ⟨buffered, there⟩ := Option.isSome_iff_exists.1 full
      have lost : s.presentWrite u w = s.writeLost (u / 8) (u % 8) := by simp only [State.presentWrite, taken, there]
      rw [lost]
      exact s.writeLost_shown u

/-! ### The tap FIFO and the moves (R230, R261, R262, R321) -/

/-- A unit takes the oldest entry of its tap FIFO, or +0.0 with TU set. -/
def UnitSt.takeTap (x : UnitSt) (d : Nat) : UnitSt :=
  match x.fifo with
  | [] => { x with iflags := x.iflags ||| 4, flight := x.inFlight 3 (.f (x.phys d)) 0 }
  | v :: q => { x with fifo := q, flight := x.inFlight 3 (.f (x.phys d)) v }

/-- LDT takes from the FIFO after what is due has entered it, wherever that leaves the unit to issue. -/
theorem exec_ldt_issued (fields : illegalL (o.word 0x11) = none) (runs : (s.unit o.u.val).wait = .run)
    (issued : (s.deliverTaps o.u.val (s.unit o.u.val).cyc).issues o) :
    exec (.ldt o) s = .next ((s.deliverTaps o.u.val (s.unit o.u.val).cyc).leaves o
      (((s.deliverTaps o.u.val (s.unit o.u.val).cyc).finds o).takeTap o.d.val)) := by
  show execLdt o s = _
  rw [execLdt, fields, State.legal_ok 3 _ runs, State.issue_issued issued]
  unfold UnitSt.takeTap
  rfl

/-- A delivery reaches no other unit. -/
theorem State.deliverTaps_other (s : State) {u v : Nat} (other : v ≠ u) (cyc : Nat) : (s.deliverTaps u cyc).unit v = s.unit v := by
  rw [State.deliverTaps, State.unit_bumpBy, State.unit_setUnit, if_neg other]

/-- A single result that is due at an empty FIFO becomes its one entry. -/
theorem State.deliverTaps_one {u c cyc : Nat} {v : Dword} (due : (s.unit u).tapDue = [(c, v)]) (now : c ≤ cyc)
    (empty : (s.unit u).fifo = []) : (s.deliverTaps u cyc).unit u = { s.unit u with tapDue := [], fifo := [v] } := by
  rw [State.deliverTaps, State.unit_bumpBy, State.unit_setUnit_same]
  simp [due, now, empty]

/-- The one entry is taken from a FIFO that was empty. -/
theorem UnitSt.takeTap_one {x : UnitSt} (empty : x.fifo = []) (v : Dword) (d : Nat) :
    UnitSt.takeTap { x with tapDue := [], fifo := [v] } d =
      { x with tapDue := [], flight := x.inFlight 3 (.f (x.phys d)) v } := by
  show { x with tapDue := [], fifo := [], flight := x.inFlight 3 (.f (x.phys d)) v } = _
  rw [← empty]

/-- The mark of a bundle says nothing of the tap FIFO. -/
theorem UnitSt.opened_taps (x : UnitSt) (due : List (Nat × Dword)) (q : List Dword) :
    UnitSt.opened { x with tapDue := due, fifo := q } = { x.opened with tapDue := due, fifo := q } := by
  cases mark : x.mid <;> simp only [UnitSt.opened, mark]

theorem UnitSt.opened_tapDue (x : UnitSt) : x.opened.tapDue = x.tapDue := by unfold UnitSt.opened; split <;> rfl

theorem exec_movfa (issued : s.issues o) (fields : illegalL (o.word 0x12) = none) : exec (.movfa o) s = .next (s.leaves o { s.finds o with
    flight := (s.finds o).inFlight 2 (.a (o.d.val % 32))
      (lanes (if o.m.val = 0 then lane0 (s.opA o) else lane1 (s.opA o)) 0) }) := by
  show execMovfa o s = _
  rw [execMovfa, State.legal_issue issued 3 fields]
  simp only [State.finds_getF]
  rfl

theorem exec_movaf (issued : s.issues o) (fields : illegalL (o.word 0x13) = none) : exec (.movaf o) s = .next (s.leaves o { s.finds o with
    flight := (s.finds o).inFlight 2 (.f ((s.finds o).phys o.d.val)) (lanes ((s.finds o).getA o.a.val)
      (if o.m.val = 0 then (s.finds o).getA o.b.val else (s.finds o).getA o.a.val)) }) :=
  State.legal_issue issued 3 fields _

/-- Settles O10: LDT takes from the FIFO that the delivery leaves (`State.deliverTaps_none`, `State.deliverTaps_one`). -/
theorem tapFifoAndRegisterMoves : Obligations.TapFifoAndRegisterMoves := by
  unfold Obligations.TapFifoAndRegisterMoves
  intro o s issued
  refine ⟨fun fields due => ?_, fun c v fields due now empty => ?_, exec_movfa issued, exec_movaf issued⟩
  · have same (v : Nat) := State.deliverTaps_none ((UnitSt.opened_tapDue _).symm.trans due) (s.unit o.u.val).cyc v
    refine ⟨_, exec_ldt_issued fields issued.1 (by rwa [State.issues, same]), fun v other => ?_, ?_⟩
    · rw [State.unit_leaves, if_neg other, same]
    · rw [State.unit_leaves, if_pos rfl, State.finds, same]
      rfl
  · have taken := State.deliverTaps_one ((UnitSt.opened_tapDue _).symm.trans due) (now.trans_eq (UnitSt.opened_cyc _))
      ((UnitSt.opened_fifo _).symm.trans empty)
    refine ⟨_, exec_ldt_issued fields issued.1 (by rwa [State.issues, taken]), fun u other => ?_, ?_⟩
    · rw [State.unit_leaves, if_neg other, State.deliverTaps_other s other]
    · rw [State.unit_leaves, if_pos rfl, State.finds, taken, UnitSt.opened_taps]
      exact congrArg (UnitSt.after · o) (UnitSt.takeTap_one empty v o.d.val)

end Sys2Proof.Machine
end

