-- ==== Sys2Proof/Proofs/PortUnits.lean ====
section
/-! SUPPORT. A cycle of the shared-memory port for the units of its cluster: what its parts leave of the rest of the state, what the end
of a cycle makes of a unit, the engines where they present nothing, and the clock of a firing (R272–R284). -/

namespace Sys2Proof.Machine

variable {s t : State} {c : Nat}

/-! ### Operations over a list -/

/-- What the turn of one member brings about in a fold, when the turns of the others keep what it finds and what it leaves. -/
theorem State.each_brings {α : Type} (p q : State → Prop) (f : α → State → State) {l : List α} {a : α} (once : l.Nodup)
    (mem : a ∈ l) (before : ∀ x ∈ l, x ≠ a → ∀ t, p t → p (f x t)) (turn : ∀ t, p t → q (f a t))
    (after : ∀ x ∈ l, x ≠ a → ∀ t, q t → q (f x t)) (start : p s) : q (s.each l f) := by
  obtain ⟨l₁, l₂, rfl⟩ := List.append_of_mem mem
  have apart : ∀ x, x ∈ l₁ ∨ x ∈ l₂ → x ≠ a := by
    rintro x there rfl
    obtain ⟨-, tail, disjoint⟩ := List.nodup_append.1 once
    obtain early | late := there
    · exact disjoint x early x List.mem_cons_self rfl
    · exact (List.nodup_cons.1 tail).1 late
  have first := State.each_keeps_mem p f s l₁ (fun x mem => before x (by simp [mem]) (apart x (.inl mem))) start
  have split : s.each (l₁ ++ a :: l₂) f = (f a (s.each l₁ f)).each l₂ f := by simp [State.each]
  rw [split]
  exact State.each_keeps_mem q f _ l₂ (fun x mem => after x (by simp [mem]) (apart x (.inr mem))) (turn _ first)

theorem nodup_unitsOf (c : Nat) : (unitsOf c).Nodup :=
  List.nodup_range.map fun a b (same : 8 * c + a = 8 * c + b) => by omega

theorem mem_unitsOf_iff (c u : Nat) : u ∈ unitsOf c ↔ u / 8 = c := by
  simp only [unitsOf, List.mem_map, List.mem_range]
  exact ⟨fun ⟨k, _, same⟩ => by omega, fun own => ⟨u % 8, by omega, by omega⟩⟩

/-! ### What operations at the port leave -/

/-- The shared and the local memories stand, and so does every unit but those of a kind. -/
structure SameButUnits (which : Nat → Prop) (s t : State) : Prop where
  shm : t.shm = s.shm
  lmem : t.lmem = s.lmem
  units : ∀ v, ¬ which v → t.unit v = s.unit v

namespace SameButUnits

variable {which : Nat → Prop}

theorem refl (s : State) : SameButUnits which s s := ⟨rfl, rfl, fun _ _ => rfl⟩

theorem trans {u : State} (a : SameButUnits which s t) (b : SameButUnits which t u) : SameButUnits which s u :=
  ⟨b.shm.trans a.shm, b.lmem.trans a.lmem, fun v other => (b.units v other).trans (a.units v other)⟩

theorem each {α : Type} {l : List α} {f : α → State → State} (h : ∀ x ∈ l, ∀ t, SameButUnits which t (f x t)) :
    SameButUnits which s (s.each l f) :=
  State.each_keeps_mem (SameButUnits which s) f s l (fun x mem t a => a.trans (h x mem t)) (.refl s)

/-- No unit changes where the table of units stands. -/
theorem of_eq (shm : t.shm = s.shm) (lmem : t.lmem = s.lmem) (units : t.units = s.units) : SameButUnits which s t :=
  ⟨shm, lmem, fun v _ => by simp only [State.unit, units]⟩

theorem setUnit {u : Nat} (own : which u) (x : UnitSt) : SameButUnits which s (s.setUnit u x) :=
  ⟨rfl, rfl, fun v other => (State.unit_setUnit ..).trans (if_neg fun same : v = u => other (same ▸ own))⟩

theorem modUnit {u : Nat} (own : which u) (f : UnitSt → UnitSt) : SameButUnits which s (s.modUnit u f) := setUnit own _

theorem dropRead {u : Nat} (own : which u) : SameButUnits which s (s.dropRead u) := modUnit own _
theorem dropWrite {u : Nat} (own : which u) : SameButUnits which s (s.dropWrite u) := modUnit own _

theorem readLost (u : Nat) : SameButUnits which s (s.readLost u) := by
  unfold State.readLost
  split <;> exact .of_eq rfl rfl rfl

theorem writeLost {k : Nat} (own : which (8 * c + k)) : SameButUnits which s (s.writeLost c k) := by
  unfold State.writeLost
  dsimp only
  split
  · refine .trans ?_ (.modUnit own _)
    exact .of_eq rfl rfl rfl
  · exact .of_eq rfl rfl rfl

theorem captureLoss (k a : Nat) : SameButUnits which s (s.captureLoss c k a) := by
  unfold State.captureLoss
  split <;> exact .of_eq rfl rfl rfl

theorem settleRead {u : Nat} (own : which u) : SameButUnits which s (s.settleRead u) := by
  unfold State.settleRead
  dsimp only
  split
  · exact .setUnit own _
  · exact .trans (.setUnit own _) (.readLost u)
  · exact .refl s

theorem settleWrite {u : Nat} (own : which u) : SameButUnits which s (s.settleWrite u) := by
  unfold State.settleWrite
  dsimp only
  split
  · exact .setUnit own _
  · exact .trans (.setUnit own _) (.writeLost ((Nat.div_add_mod u 8).symm ▸ own))
  · exact .refl s

theorem ldpRead (a : Nat) : SameButUnits which s (s.ldpRead c a).2 := by
  unfold State.ldpRead
  split
  · exact .refl s
  · dsimp only
    split <;> exact .of_eq rfl rfl rfl

theorem serveRead {k : Nat} (own : which (8 * c + k)) (now : Nat) (r : ReadReq) : SameButUnits which s (s.serveRead c k now r) := by
  unfold State.serveRead
  dsimp only
  split
  case h_4 => exact .trans (.ldpRead _) (.each fun _ _ _ => .modUnit own _)
  all_goals exact .each fun _ _ _ => .modUnit own _

end SameButUnits

/-! ### The end of a cycle (R278, R279, R281) -/

/-- A read that was not served waits in the buffer, or is lost. -/
def UnitSt.keepRead (x : UnitSt) : UnitSt :=
  match x.readNew, x.readBuf with
  | some r, none => { x with readBuf := some r, readNew := none }
  | some _, some _ => { x with readNew := none }
  | none, _ => x

/-- A write that was not presented waits in the buffer, or is lost, which makes its trap pending where that is enabled. -/
def UnitSt.keepWrite (x : UnitSt) : UnitSt :=
  match x.writeNew, x.writeBuf with
  | some w, none => { x with writeBuf := some w, writeNew := none }
  | some _, some _ => if x.ten.getLsbD 0 then { x with writeNew := none, pendWlost := true } else { x with writeNew := none }
  | none, _ => x

/-- A unit at the end of a cycle of the port. -/
def UnitSt.cycleEnd (x : UnitSt) : UnitSt := x.keepRead.keepWrite.settled

/-- The end of a cycle for one unit. -/
def State.settleUnit (u : Nat) (s : State) : State := ((s.settleRead u).settleWrite u).modUnit u UnitSt.settled

theorem State.settleAll_eq (s : State) (c : Nat) : s.settleAll c = s.each (unitsOf c) State.settleUnit := by
  rw [State.settleAll, State.each, State.each, unitsOf, List.foldl_map]
  rfl

theorem State.settleRead_unit (s : State) (u : Nat) : (s.settleRead u).unit u = (s.unit u).keepRead := by
  unfold State.settleRead UnitSt.keepRead
  dsimp only
  cases (s.unit u).readNew with
  | none => rfl
  | some r =>
    cases (s.unit u).readBuf with
    | none => exact State.unit_setUnit_same ..
    | some b =>
      refine ((SameButUnits.readLost u).units (which := fun _ => False) u id).trans ?_
      exact State.unit_setUnit_same ..

theorem State.settleWrite_unit (s : State) (u : Nat) : (s.settleWrite u).unit u = (s.unit u).keepWrite := by
  unfold State.settleWrite UnitSt.keepWrite
  dsimp only
  cases (s.unit u).writeNew with
  | none => rfl
  | some w =>
    cases (s.unit u).writeBuf with
    | none => exact State.unit_setUnit_same ..
    | some b =>
      dsimp only
      rw [State.writeLost_unit, State.unit_setUnit_same]

theorem SameButUnits.settleUnit {which : Nat → Prop} {u : Nat} (own : which u) : SameButUnits which s (s.settleUnit u) :=
  .trans (.settleRead own) (.trans (.settleWrite own) (.modUnit own _))

theorem State.unit_settleUnit (s : State) (u v : Nat) :
    (s.settleUnit u).unit v = if v = u then (s.unit v).cycleEnd else s.unit v := by
  split
  · next own =>
    rw [own, State.settleUnit, State.unit_modUnit, if_pos rfl, State.settleWrite_unit, State.settleRead_unit, UnitSt.cycleEnd]
  · next other => exact (SameButUnits.settleUnit (which := (· = u)) rfl).units v other

/-- The cycle ends for each unit of the cluster, and for no other. -/
theorem State.unit_settleAll (s : State) (c v : Nat) :
    (s.settleAll c).unit v = if v / 8 = c then (s.unit v).cycleEnd else s.unit v := by
  rw [State.settleAll_eq, s.each_once State.unit State.settleUnit UnitSt.cycleEnd (fun u t v => ?_) (nodup_unitsOf c) v]
  · simp only [mem_unitsOf_iff]
  · rw [State.unit_settleUnit]
    split
    · next own => rw [own]
    · rfl

theorem SameButUnits.settleAll (s : State) (c : Nat) : SameButUnits (· / 8 = c) s (s.settleAll c) := by
  rw [State.settleAll_eq]
  exact .each fun u mem t => .settleUnit (which := (· / 8 = c)) ((mem_unitsOf_iff c u).1 mem)

theorem UnitSt.keepWrite_frame (x : UnitSt) : x.keepWrite.wait = x.wait ∧ x.keepWrite.flight = x.flight ∧
    x.keepWrite.readNew = x.readNew ∧ x.keepWrite.readBuf = x.readBuf := by
  unfold UnitSt.keepWrite
  repeat' split
  all_goals exact ⟨rfl, rfl, rfl, rfl⟩

theorem UnitSt.keepRead_frame (x : UnitSt) : x.keepRead.wait = x.wait ∧ x.keepRead.flight = x.flight := by
  unfold UnitSt.keepRead
  split <;> exact ⟨rfl, rfl⟩

/-- A running unit goes on with what it has in flight. -/
theorem UnitSt.cycleEnd_flight {x : UnitSt} (runs : x.wait = .run) : x.cycleEnd.flight = x.flight := by
  obtain ⟨waitW, flightW, -, -⟩ := x.keepRead.keepWrite_frame
  obtain ⟨waitR, flightR⟩ := x.keepRead_frame
  have still : x.cycleEnd = x.keepRead.keepWrite := by
    rw [UnitSt.cycleEnd, UnitSt.settled, waitW, waitR, runs]
    exact ite_self _
  rw [still, flightW, flightR]

/-- A read that was not served goes to the empty buffer. -/
theorem UnitSt.cycleEnd_buffers {x : UnitSt} {r : ReadReq} (empty : x.readBuf = none) (new : x.readNew = some r) :
    x.cycleEnd.readBuf = some r ∧ x.cycleEnd.readNew = none := by
  have kept : x.keepRead = { x with readBuf := some r, readNew := none } := by rw [UnitSt.keepRead, new, empty]
  obtain ⟨-, -, newW, bufW⟩ := x.keepRead.keepWrite_frame
  have reads : x.keepRead.keepWrite.reading = true := by rw [UnitSt.reading, newW, bufW, kept]; rfl
  rw [UnitSt.cycleEnd, UnitSt.settled_of_reading reads, newW, bufW, kept]
  exact ⟨rfl, rfl⟩

variable {en : Nat} {f : Firing}

/-! ### No engine presents an access (R276) -/

theorem State.dmaPresents_idle (idle : (s.cluster c).dmaRun = none) (out given : Bool) : s.dmaPresents c en out given = (none, s) := by
  rw [State.dmaPresents, idle]

theorem State.glazePresents_idle (firing : (s.cluster c).firing = some f) (idle : f.glaze = none) (write : Bool) :
    s.glazePresents c en write = none := by
  rw [State.glazePresents, firing]
  simp only [idle, Option.bind_none, ite_self]

/-! ### The clock of a firing (R272, R275) -/

/-- The clock of a firing past its sequencer phase reaches a cycle. -/
def ClusterSt.clocked (n : Nat) (x : ClusterSt) : ClusterSt :=
  { x with firing := x.firing.map fun g => { g with clk := max g.clk n } }

theorem State.clockTo_of_past (firing : (s.cluster c).firing = some f) (past : f.entry.seqCycles ≤ f.clk) (n : Nat) :
    s.clockTo c n = s.modCluster c (·.clocked n) := by
  have none : min n f.entry.seqCycles - f.clk = 0 := by omega
  rw [State.clockTo, firing]
  dsimp only
  rw [none]
  rfl

/-- A firing at a later cycle of its clock. -/
theorem State.firing_clocked (firing : (s.cluster c).firing = some f) (n : Nat) :
    ((s.modCluster c (·.clocked n)).cluster c).firing = some { f with clk := max f.clk n } := by
  rw [State.cluster_modCluster, if_pos rfl, ClusterSt.clocked, firing]
  rfl

theorem State.dmaRun_clocked (s : State) (c n : Nat) : ((s.modCluster c (·.clocked n)).cluster c).dmaRun = (s.cluster c).dmaRun := by
  rw [State.cluster_modCluster, if_pos rfl]
  rfl

end Sys2Proof.Machine
end

