-- ==== Sys2Proof/Proofs/SharedPort.lean ====
section
/-! PROOF. Shared-memory read and write cycles of the units of a cluster (R272–R284). -/

namespace Sys2Proof.Machine

variable {s : State} {c en : Nat} {f : Firing}

/-! ### Read cycles (R277–R279) -/

/-- The units that present a read in a cycle, and the address that a unit presents. -/
def State.readers (s : State) (c en : Nat) : List Nat :=
  (List.range 8).filter fun u => grants en u && (s.unit (8 * c + u)).presentedRead.isSome
def UnitSt.readAddr (x : UnitSt) : Nat := match x.presentedRead with | some r => r.addr | none => 0

/-- A unit is served what it presents. -/
def State.takeRead (c now u : Nat) (t : State) : State :=
  match (t.unit (8 * c + u)).presentedRead with
  | some r => (t.serveRead c u now r).dropRead (8 * c + u)
  | none => t

/-- The units that a cycle serves for a word. -/
def State.served (s : State) (c en w : Nat) : List Nat :=
  (s.readers c en).filter fun u => portWord (s.unit (8 * c + u)).readAddr == w

/-- The first of the units that a cycle grants and that ask for it. -/
theorem head?_granted {en v : Nat} {asks : Nat → Bool} (compute : v < 8) (granted : grants en v = true) (here : asks v = true)
    (first : ∀ w < v, grants en w = true → asks w = false) : ((List.range 8).filter fun u => grants en u && asks u).head? = some v := by
  rw [List.head?_filter, List.find?_range_eq_some]
  refine ⟨by rw [granted, here]; rfl, List.mem_range.2 compute, fun w before => ?_⟩
  cases grant : grants en w with
  | false => rfl
  | true => rw [first w before grant]; rfl

theorem State.portRead_units {v : Nat} {q : ReadReq} (dma : (s.cluster c).dmaRun = none) (firing : (s.cluster c).firing = some f)
    (glaze : f.glaze = none) (reads : (s.unit (8 * c + v)).presentedRead = some q) (first : (s.readers c en).head? = some v)
    (now : Nat) (given : Bool) (m : RemoteErr) :
    s.portRead c en now given m .clean = (s.each (s.served c en (portWord q.addr)) (State.takeRead c now)).settleAll c := by
  have word : ((s.readers c en).head?.map fun u => (s.unit (8 * c + u)).readAddr).map portWord = some (portWord q.addr) := by
    rw [first, Option.map_some, Option.map_some, UnitSt.readAddr, reads]
  unfold State.portRead
  rw [State.dmaPresents_idle dma]
  dsimp only
  rw [State.glazePresents_idle firing glaze]
  simp only [Option.map_none, Option.orElse_none]
  split
  · next none => exact absurd (none.symm.trans word) nofun
  · next w found =>
    cases Option.some.inj (found.symm.trans word)
    rfl

/-- Serving a unit changes no other. -/
theorem SameButUnits.takeRead {which : Nat → Prop} {u : Nat} (own : which (8 * c + u)) (now : Nat) :
    SameButUnits which s (s.takeRead c now u) := by
  unfold State.takeRead
  split
  · exact .trans (.serveRead own now _) (.dropRead own)
  · exact .refl s

/-- A unit of the cluster is another unit exactly where its number is another. -/
theorem ne_unit_iff {c u k : Nat} : 8 * c + u ≠ 8 * c + k ↔ u ≠ k := by omega

theorem State.dropRead_frame (s : State) (u : Nat) : ((s.dropRead u).unit u).flight = (s.unit u).flight ∧
    ((s.dropRead u).unit u).wait = (s.unit u).wait := by
  rw [State.dropRead, State.unit_modUnit, if_pos rfl]
  split <;> exact ⟨rfl, rfl⟩

/-- A word read reaches its destination 6 cycles after its issue, or the cycle if that is later (R278). -/
def ReadReq.landing (r : ReadReq) (m : Memory) (c now : Nat) (d : Dest) : Landing :=
  ⟨max r.issued now + 6, d, lanes (Memory.read32 m (shmAddr c r.addr)) 0, r.issued⟩

/-- A unit has one more result in flight. -/
def UnitSt.Receives (x : UnitSt) (l : Landing) (y : UnitSt) : Prop := y.wait = x.wait ∧ y.flight = insLanding l x.flight

theorem State.takeRead_word {u : Nat} {r : ReadReq} {d : Dest} (reads : (s.unit (8 * c + u)).presentedRead = some r)
    (form : r.form = 4) (dest : r.dest = [d]) (now : Nat) :
    (s.unit (8 * c + u)).Receives (r.landing s.shm c now d) ((s.takeRead c now u).unit (8 * c + u)) := by
  have served : s.serveRead c u now r =
      s.modUnit (8 * c + u) fun x => { x with flight := insLanding (r.landing s.shm c now d) x.flight } := by
    simp [State.serveRead, form, dest, State.each, ReadReq.landing]
  obtain ⟨flight, wait⟩ := (s.serveRead c u now r).dropRead_frame (8 * c + u)
  rw [State.takeRead, reads]
  dsimp only
  rw [UnitSt.Receives, wait, flight, served, State.unit_modUnit, if_pos rfl]
  exact ⟨rfl, rfl⟩

/-- Of the units that are served in a cycle each has its own word. -/
theorem State.each_takeRead_word {l : List Nat} (once : l.Nodup) {u : Nat} (mem : u ∈ l) {r : ReadReq} {d : Dest}
    (reads : (s.unit (8 * c + u)).presentedRead = some r) (form : r.form = 4) (dest : r.dest = [d]) (now : Nat) :
    (s.unit (8 * c + u)).Receives (r.landing s.shm c now d) ((s.each l (State.takeRead c now)).unit (8 * c + u)) := by
  have other {k : Nat} (apart : k ≠ u) (t : State) := SameButUnits.takeRead (s := t) (which := (· ≠ 8 * c + u)) (u := k)
    (ne_unit_iff.2 apart) now
  refine State.each_brings (fun t => t.shm = s.shm ∧ t.unit (8 * c + u) = s.unit (8 * c + u))
    (fun t => (s.unit (8 * c + u)).Receives (r.landing s.shm c now d) (t.unit (8 * c + u)))
    (State.takeRead c now) once mem (fun k _ apart t h => ?_) (fun t ⟨shm, unit⟩ => ?_) (fun k _ apart t h => ?_) ⟨rfl, rfl⟩
  · exact ⟨(other apart t).shm.trans h.1, ((other apart t).units _ (not_not.2 rfl)).trans h.2⟩
  · rw [← shm, ← unit]
    exact State.takeRead_word (unit.symm ▸ reads) form dest now
  · rwa [(other apart t).units _ (not_not.2 rfl)]

theorem State.nodup_served (s : State) (c en w : Nat) : (s.served c en w).Nodup := (List.nodup_range.filter _).filter _

theorem UnitSt.readAddr_eq {x : UnitSt} {r : ReadReq} (reads : x.presentedRead = some r) : x.readAddr = r.addr := by
  rw [UnitSt.readAddr, reads]

theorem State.mem_served_iff {u : Nat} {r : ReadReq} (reads : (s.unit (8 * c + u)).presentedRead = some r) (w : Nat) :
    u ∈ s.served c en w ↔ u < 8 ∧ grants en u = true ∧ portWord r.addr = w := by
  simp [State.served, State.readers, reads, UnitSt.readAddr_eq reads, and_comm]

/-- A unit that is not served is as before. -/
theorem State.unit_each_takeRead {l : List Nat} {u : Nat} (out : u ∉ l) (now : Nat) :
    (s.each l (State.takeRead c now)).unit (8 * c + u) = s.unit (8 * c + u) :=
  (SameButUnits.each (which := (· ≠ 8 * c + u)) fun k mem _ =>
    .takeRead (which := (· ≠ 8 * c + u)) (ne_unit_iff.2 fun same : k = u => out (same ▸ mem)) now).units _ (not_not.2 rfl)

/-- What a read cycle leaves of the state but for the units of its cluster. -/
theorem SameButUnits.readCycle (s : State) (c en w now : Nat) :
    SameButUnits (· / 8 = c) s ((s.each (s.served c en w) (State.takeRead c now)).settleAll c) := by
  refine .trans (.each fun k mem t => ?_) (.settleAll _ c)
  have compute : k < 8 := List.mem_range.1 (List.mem_filter.1 (List.mem_filter.1 mem).1).1
  exact .takeRead (which := (· / 8 = c)) (by omega) now

/-- A served unit that runs has its word in flight at the end of the cycle. -/
theorem State.readCycle_word {u w now : Nat} (mem : u ∈ s.served c en w) {r : ReadReq} {d : Dest}
    (reads : (s.unit (8 * c + u)).presentedRead = some r) (runs : (s.unit (8 * c + u)).wait = .run) (form : r.form = 4)
    (dest : r.dest = [d]) : (((s.each (s.served c en w) (State.takeRead c now)).settleAll c).unit (8 * c + u)).flight =
      insLanding (r.landing s.shm c now d) (s.unit (8 * c + u)).flight := by
  obtain ⟨wait, flight⟩ := State.each_takeRead_word (s.nodup_served c en w) mem reads form dest now
  have own : (8 * c + u) / 8 = c := by
    obtain ⟨compute, -⟩ := (State.mem_served_iff reads w).1 mem
    omega
  rw [State.unit_settleAll, if_pos own, UnitSt.cycleEnd_flight (wait.trans runs), flight]

/-- A read just issued that is not served goes to the empty buffer (R278). -/
theorem State.readCycle_buffers {u w now : Nat} (compute : u < 8) (out : u ∉ s.served c en w) {r : ReadReq}
    (empty : (s.unit (8 * c + u)).readBuf = none) (new : (s.unit (8 * c + u)).readNew = some r) :
    let y := ((s.each (s.served c en w) (State.takeRead c now)).settleAll c).unit (8 * c + u)
    y.readBuf = some r ∧ y.readNew = none := by
  dsimp only
  rw [State.unit_settleAll, if_pos (by omega), State.unit_each_takeRead out]
  exact UnitSt.cycleEnd_buffers empty new

/-! ### Write cycles (R280–R284) -/

/-- The units that present a write in a cycle, and the address that a unit presents. -/
def State.writers (s : State) (c en : Nat) : List Nat :=
  (List.range 8).filter fun u => grants en u && (s.unit (8 * c + u)).presentedWrite.isSome
def UnitSt.writeAddr (x : UnitSt) : Nat := match x.presentedWrite with | some r => r.addr | none => 0

/-- The write that unit `v` presents takes place. -/
def State.makeWrite (s : State) (c v : Nat) (q : WriteReq) : State :=
  (s.completeWrite c q.addr q.size q.val.toNat .clean).dropWrite (8 * c + v)

/-- The write that a unit presents to the word of another is lost; `s` is the state that the cycle finds. -/
def State.loseWrite (s : State) (c u : Nat) (t : State) : State :=
  ((t.dropWrite (8 * c + u)).writeLost c u).captureLoss c u (s.unit (8 * c + u)).writeAddr

/-- The units whose writes to a word are lost, the one whose write takes place left out. -/
def State.losers (s : State) (c en v w : Nat) : List Nat :=
  (s.writers c en).filter fun u => some u != some v && portWord (s.unit (8 * c + u)).writeAddr == w

theorem UnitSt.writeAddr_eq {x : UnitSt} {r : WriteReq} (writes : x.presentedWrite = some r) : x.writeAddr = r.addr := by
  rw [UnitSt.writeAddr, writes]

theorem State.portWrite_units {v : Nat} {q : WriteReq} (dma : (s.cluster c).dmaRun = none) (firing : (s.cluster c).firing = some f)
    (glaze : f.glaze = none) (writes : (s.unit (8 * c + v)).presentedWrite = some q) (first : (s.writers c en).head? = some v)
    (given : Bool) (m : RemoteErr) : s.portWrite c en given m .clean =
      ((s.makeWrite c v q).each (s.losers c en v (portWord q.addr)) (s.loseWrite c)).settleAll c := by
  have word : ((s.writers c en).head?.map fun u => (s.unit (8 * c + u)).writeAddr).map portWord = some (portWord q.addr) := by
    rw [first, Option.map_some, Option.map_some, UnitSt.writeAddr_eq writes]
  have head : ((List.range 8).filter fun u => grants en u && (s.unit (8 * c + u)).presentedWrite.isSome).head? = some v := first
  unfold State.portWrite
  rw [State.dmaPresents_idle dma]
  dsimp only
  rw [State.glazePresents_idle firing glaze]
  simp only [Option.map_none, Option.orElse_none]
  split
  · next none => exact absurd (none.symm.trans word) nofun
  · next w found =>
    cases Option.some.inj (found.symm.trans word)
    simp only [reduceCtorEq, if_false, Option.isSome_none, Bool.or_self, Bool.false_eq_true, head, writes]
    rfl

/-- A write without a code error changes its bytes of shared memory, and a GO that it sets is issued by a unit of the cluster. -/
theorem SameButUnits.makeWrite {v : Nat} (compute : v < 8) {q : WriteReq} (inside : q.addr < 2 ^ 20) :
    SameButUnits (· / 8 = c) { s with shm := Memory.writeNat s.shm (shmAddr c q.addr) q.size q.val.toNat } (s.makeWrite c v q) := by
  have written : s.completeWrite c q.addr q.size q.val.toNat .clean =
      State.issueDma { s with shm := Memory.writeNat s.shm (shmAddr c q.addr) q.size q.val.toNat } c q.addr q.size := by
    simp [State.completeWrite, State.sharedEcc]
  rw [State.makeWrite, written]
  refine .trans ?_ (.dropWrite (which := (· / 8 = c)) (by omega))
  unfold State.issueDma
  dsimp only
  split
  · next go =>
    refine .trans ?_ (.modUnit (which := (· / 8 = c)) (by omega) _)
    exact .of_eq rfl rfl rfl
  · exact .refl _

theorem SameButUnits.loseWrite {which : Nat → Prop} {u : Nat} (own : which (8 * c + u)) (t : State) :
    SameButUnits which t (s.loseWrite c u t) :=
  .trans (.dropWrite own) (.trans (.writeLost own) (.captureLoss u _))

theorem State.losers_compute {u v w : Nat} (mem : u ∈ s.losers c en v w) : u < 8 :=
  List.mem_range.1 (List.mem_filter.1 (List.mem_filter.1 mem).1).1

/-- What a write cycle leaves of the state but for the units of its cluster. -/
theorem SameButUnits.writeCycle {v : Nat} (compute : v < 8) {q : WriteReq} (inside : q.addr < 2 ^ 20) (w : Nat) :
    SameButUnits (· / 8 = c) { s with shm := Memory.writeNat s.shm (shmAddr c q.addr) q.size q.val.toNat }
      (((s.makeWrite c v q).each (s.losers c en v w) (s.loseWrite c)).settleAll c) := by
  refine .trans (.makeWrite compute inside) (.trans (.each fun k mem t => ?_) (.settleAll _ c))
  have compute := State.losers_compute mem
  exact .loseWrite (which := (· / 8 = c)) (by omega) t

/-- The bits of lost writes of a cluster that are set stay set. -/
def LossesStand (c : Nat) (s t : State) : Prop := ∀ k < 11, (s.get (Reg.FABRIC_CL_WLOST_WLOST c)).testBit k = true →
  (t.get (Reg.FABRIC_CL_WLOST_WLOST c)).testBit k = true

namespace LossesStand

variable {t u : State}

theorem trans (a : LossesStand c s t) (b : LossesStand c t u) : LossesStand c s u := fun k width was => b k width (a k width was)

theorem of_get (h : t.get (Reg.FABRIC_CL_WLOST_WLOST c) = s.get (Reg.FABRIC_CL_WLOST_WLOST c)) : LossesStand c s t :=
  fun k _ was => by rwa [h]

theorem refl (s : State) : LossesStand c s s := fun _ _ was => was

theorem put {g : Fld} (apart : (Reg.FABRIC_CL_WLOST_WLOST c).key ≠ g.key) (n : Nat) : LossesStand c s (s.put g n) :=
  of_get (State.get_put_ne s apart n)

theorem setMask (i k : Nat) : LossesStand c s (s.setMask (Reg.FABRIC_CL_WLOST_WLOST i) k) := by
  intro b width was
  by_cases same : i = c
  · subst same
    rw [State.setMask, State.get_put_same, Nat.testBit_mod_two_pow]
    exact Bool.and_eq_true_iff.2 ⟨decide_eq_true width, (Nat.testBit_or ..).trans (by rw [was, Bool.true_or])⟩
  · refine put ?_ _ b width was
    simp only [Fld.key, Reg.FABRIC_CL_WLOST_WLOST]
    omega

theorem readLost (v : Nat) : LossesStand c s (s.readLost v) := by
  unfold State.readLost
  split
  · refine .trans (t := s.errSeen.setMask (Reg.FABRIC_CL_WLOST_RLOST (v / 8)) (v % 8)) (put (s := s.errSeen) ?_ _) (put ?_ _)
    all_goals
      simp only [Fld.key, Reg.FABRIC_CL_WLOST_WLOST, Reg.FABRIC_CL_WLOST_RLOST, Reg.FABRIC_CL_WLOST_CNT_RCOUNT]
      omega
  · exact .refl s

theorem writeLost (i k : Nat) : LossesStand c s (s.writeLost i k) := by
  have counted : LossesStand c s ((s.errSeen.setMask (Reg.FABRIC_CL_WLOST_WLOST i) k).bump (Reg.FABRIC_CL_WLOST_CNT_WCOUNT i)) := by
    refine .trans (setMask (s := s.errSeen) i k) (put ?_ _)
    simp only [Fld.key, Reg.FABRIC_CL_WLOST_WLOST, Reg.FABRIC_CL_WLOST_CNT_WCOUNT]
    omega
  unfold State.writeLost
  dsimp only
  split
  · exact counted
  · exact counted

theorem captureLoss (k a : Nat) : LossesStand c s (s.captureLoss c k a) := by
  unfold State.captureLoss
  split
  · exact .refl s
  · refine .trans (.trans (put ?_ _) (put ?_ _)) (put ?_ _)
    all_goals
      simp only [Fld.key, Reg.FABRIC_CL_WLOST_WLOST, Reg.FABRIC_CL_WLOST_ADDR_ADDR, Reg.FABRIC_CL_WLOST_ADDR_REQ,
        Reg.FABRIC_CL_WLOST_ADDR_VALID]
      omega

theorem settleUnit (v : Nat) : LossesStand c s (s.settleUnit v) := by
  have read : LossesStand c s (s.settleRead v) := by
    unfold State.settleRead
    dsimp only
    split
    · exact .refl s
    · exact fun k width was => readLost v k width was
    · exact .refl s
  have write (t : State) : LossesStand c t (t.settleWrite v) := by
    unfold State.settleWrite
    dsimp only
    split
    · exact .refl t
    · exact fun k width was => writeLost (v / 8) (v % 8) k width was
    · exact .refl t
  exact .trans read (write _)

theorem settleAll (s : State) : LossesStand c s (s.settleAll c) := by
  rw [State.settleAll_eq]
  exact State.each_keeps (LossesStand c s) _ (fun v _ a => a.trans (settleUnit v)) s _ (.refl s)

end LossesStand

/-- A write that is lost sets the bit of its unit. -/
theorem State.loseWrite_shown {u : Nat} (compute : u < 8) (t : State) :
    ((s.loseWrite c u t).get (Reg.FABRIC_CL_WLOST_WLOST c)).testBit u = true := by
  have here : (8 * c + u) / 8 = c ∧ (8 * c + u) % 8 = u := by omega
  obtain ⟨shown, -, -⟩ := (t.dropWrite (8 * c + u)).writeLost_shown (8 * c + u)
  rw [here.1, here.2] at shown
  exact LossesStand.captureLoss u _ u (by omega) shown

theorem State.writeCycle_lost {u v w : Nat} (mem : u ∈ s.losers c en v w) (t : State) :
    (((t.each (s.losers c en v w) (s.loseWrite c)).settleAll c).get (Reg.FABRIC_CL_WLOST_WLOST c)).testBit u = true := by
  have compute := State.losers_compute mem
  refine LossesStand.settleAll _ u (by omega) ?_
  refine State.each_brings (fun _ => True) (fun t => (t.get (Reg.FABRIC_CL_WLOST_WLOST c)).testBit u = true) (s.loseWrite c)
    ((List.nodup_range.filter _).filter _) mem (fun _ _ _ _ _ => trivial) (fun t _ => State.loseWrite_shown compute t)
    (fun k _ _ t was => ?_) trivial
  exact (LossesStand.trans (.writeLost (s := t.dropWrite (8 * c + k)) c k) (.captureLoss k _)) u (by omega) was

theorem State.mem_losers {u v w : Nat} {r : WriteReq} (compute : u < 8) (other : u ≠ v) (granted : grants en u = true)
    (writes : (s.unit (8 * c + u)).presentedWrite = some r) (word : portWord r.addr = w) : u ∈ s.losers c en v w := by
  simp [State.losers, State.writers, compute, other, granted, writes, UnitSt.writeAddr_eq writes, word]

/-! ### The slot cycles as commands (R274, R275) -/

theorem exec_shmReadCycle_other {c : Fin 64} {n : Nat} (firing : (s.cluster c).firing = some f)
    (other : isWriteCycle (slotEntry f n) = true ∨ f.entry.seqCycles + n < f.clk) (m : RemoteErr) (e : Ecc) :
    exec (.shmReadCycle c n m e) s = .next s := by
  show execShmReadCycle c n m e s = _
  rw [execShmReadCycle, firing]
  exact if_pos (by simpa using other)

theorem exec_shmReadCycle {c : Fin 64} {n : Nat} (firing : (s.cluster c).firing = some f) (past : f.entry.seqCycles ≤ f.clk)
    (now : f.clk ≤ f.entry.seqCycles + n) (read : isWriteCycle (slotEntry f n) = false) (m : RemoteErr) (e : Ecc) :
    exec (.shmReadCycle c n m e) s = .next ((s.modCluster c (·.clocked (f.entry.seqCycles + n + 1))).portRead c (slotEntry f n)
      (f.entry.seqCycles + n) false (reported m) e) := by
  show execShmReadCycle c n m e s = _
  rw [execShmReadCycle, firing]
  dsimp only
  rw [if_neg (by simp [read, now]), State.clockTo_of_past firing past]

theorem exec_shmWriteCycle_other {c : Fin 64} {n : Nat} (firing : (s.cluster c).firing = some f)
    (other : isWriteCycle (slotEntry f n) = false ∨ f.entry.seqCycles + n < f.clk) (m : RemoteErr) (e : Ecc) :
    exec (.shmWriteCycle c n m e) s = .next s := by
  show execShmWriteCycle c n m e s = _
  rw [execShmWriteCycle, firing]
  exact if_pos (by simpa using other)

theorem exec_shmWriteCycle {c : Fin 64} {n : Nat} (firing : (s.cluster c).firing = some f) (past : f.entry.seqCycles ≤ f.clk)
    (now : f.clk ≤ f.entry.seqCycles + n) (write : isWriteCycle (slotEntry f n) = true) (m : RemoteErr) (e : Ecc) :
    exec (.shmWriteCycle c n m e) s = .next ((s.modCluster c (·.clocked (f.entry.seqCycles + n + 1))).portWrite c (slotEntry f n)
      false (reported m) e) := by
  show execShmWriteCycle c n m e s = _
  rw [execShmWriteCycle, firing]
  dsimp only
  rw [if_neg (by simp [write, now]), State.clockTo_of_past firing past]

/-- A read cycle of units alone: the word of the first of them that presents a read is served. -/
theorem State.portRead_spec {v n now : Nat} {q : ReadReq} (dma : (s.cluster c).dmaRun = none) (firing : (s.cluster c).firing = some f)
    (glaze : f.glaze = none) (compute : v < 8) (granted : grants (slotEntry f n) v = true)
    (reads : (s.unit (8 * c + v)).presentedRead = some q)
    (first : ∀ w < v, grants (slotEntry f n) w = true → (s.unit (8 * c + w)).presentedRead = none) (given : Bool) (m : RemoteErr) :
    let t := s.portRead c (slotEntry f n) now given m .clean
    SameButUnits (· / 8 = c) s t ∧
    (∀ (u : Nat) (r : ReadReq) (d : Dest), u < 8 → grants (slotEntry f n) u = true → (s.unit (8 * c + u)).presentedRead = some r →
      (s.unit (8 * c + u)).wait = .run → portWord r.addr = portWord q.addr → r.form = 4 → r.dest = [d] →
      (t.unit (8 * c + u)).flight = insLanding (r.landing s.shm c now d) (s.unit (8 * c + u)).flight) ∧
    ∀ (u : Nat) (r : ReadReq), u < 8 → (s.unit (8 * c + u)).readBuf = none → (s.unit (8 * c + u)).readNew = some r →
      grants (slotEntry f n) u = false ∨ portWord r.addr ≠ portWord q.addr →
      (t.unit (8 * c + u)).readBuf = some r ∧ (t.unit (8 * c + u)).readNew = none := by
  have head : (s.readers c (slotEntry f n)).head? = some v :=
    head?_granted (asks := fun u => (s.unit (8 * c + u)).presentedRead.isSome) compute granted (by rw [reads]; rfl)
      fun w before grant => by rw [first w before grant]; rfl
  dsimp only
  rw [State.portRead_units dma firing glaze reads head]
  refine ⟨.readCycle s c _ _ now, fun u r d compute granted reads runs same form dest => ?_, fun u r compute empty new out => ?_⟩
  · exact State.readCycle_word ((State.mem_served_iff reads _).2 ⟨compute, granted, same⟩) reads runs form dest
  · have presents : (s.unit (8 * c + u)).presentedRead = some r := by rw [UnitSt.presentedRead, empty, new]
    refine State.readCycle_buffers compute (fun mem => ?_) empty new
    obtain ⟨-, granted, same⟩ := (State.mem_served_iff presents _).1 mem
    exact out.elim (fun off => Bool.false_ne_true (off.symm.trans granted)) (· same)

/-- A write cycle of units alone: the first of them that presents a write has it made, and those to the same word are lost. -/
theorem State.portWrite_spec {v n : Nat} {q : WriteReq} (dma : (s.cluster c).dmaRun = none) (firing : (s.cluster c).firing = some f)
    (glaze : f.glaze = none) (compute : v < 8) (inside : q.addr < 2 ^ 20) (granted : grants (slotEntry f n) v = true)
    (writes : (s.unit (8 * c + v)).presentedWrite = some q)
    (first : ∀ w < v, grants (slotEntry f n) w = true → (s.unit (8 * c + w)).presentedWrite = none) (given : Bool) (m : RemoteErr) :
    let t := s.portWrite c (slotEntry f n) given m .clean
    SameButUnits (· / 8 = c) { s with shm := Memory.writeNat s.shm (shmAddr c q.addr) q.size q.val.toNat } t ∧
    ∀ (u : Nat) (r : WriteReq), u < 8 → u ≠ v → grants (slotEntry f n) u = true → (s.unit (8 * c + u)).presentedWrite = some r →
      portWord r.addr = portWord q.addr → (t.get (Reg.FABRIC_CL_WLOST_WLOST c)).testBit u = true := by
  have head : (s.writers c (slotEntry f n)).head? = some v :=
    head?_granted (asks := fun u => (s.unit (8 * c + u)).presentedWrite.isSome) compute granted (by rw [writes]; rfl)
      fun w before grant => by rw [first w before grant]; rfl
  dsimp only
  rw [State.portWrite_units dma firing glaze writes head]
  exact ⟨.writeCycle compute inside _, fun u r compute other granted writes same =>
    State.writeCycle_lost (State.mem_losers compute other granted writes same) _⟩

/-- Settles O21: a cycle of units alone is `State.portRead_spec` or `State.portWrite_spec`, on the state whose clock has reached it. -/
theorem sharedMemoryPort : Obligations.SharedMemoryPort := by
  unfold Obligations.SharedMemoryPort
  intro c n s f firing
  dsimp only
  refine ⟨exec_shmReadCycle_other firing, exec_shmWriteCycle_other firing, fun past now glaze dma => ⟨fun read v q compute granted reads
    first m => ?_, fun write v q compute inside granted writes first m => ?_⟩⟩
  · obtain ⟨⟨shm, lmem, units⟩, words, buffers⟩ := State.portRead_spec (now := f.entry.seqCycles + n) ((s.dmaRun_clocked c _).trans dma)
      (State.firing_clocked firing (f.entry.seqCycles + n + 1)) glaze compute granted reads first false (reported m)
    exact ⟨_, exec_shmReadCycle firing past now read m .clean, shm, lmem, units, words, buffers⟩
  · obtain ⟨⟨shm, lmem, units⟩, lost⟩ := State.portWrite_spec ((s.dmaRun_clocked c _).trans dma)
      (State.firing_clocked firing (f.entry.seqCycles + n + 1)) glaze compute inside granted writes first false (reported m)
    exact ⟨_, exec_shmWriteCycle firing past now write m .clean, lmem, shm, units, lost⟩

end Sys2Proof.Machine
end

