-- ==== Sys2Proof/Proofs/PortTurns.lean ====
section
/-! SUPPORT. Words copied one after another, the turns of the cluster DMA at the shared-memory port, and the port where no unit presents
an access (R274–R278, R286). -/

namespace Sys2Proof

/-! ### Words copied one after another -/

/-- Memory after `n` words from `b` upward have each been read from a source, which may lie in the memory itself, and stored. -/
def copyWords (src : Memory → Nat → Word) (b : Nat) (m : Memory) : Nat → Memory
  | 0 => m
  | n + 1 => Memory.writeNat (copyWords src b m n) (b + 4 * n) 4 (src (copyWords src b m n) n).toNat

/-- Where the source lies apart from the words that are stored, each of these reads as its source did. -/
theorem copyWords_spec {src : Memory → Nat → Word} {b len : Nat}
    (apart : ∀ p i v k, i < len → k < len → src (Memory.writeNat p (b + 4 * i) 4 v) k = src p k) (m : Memory) {n : Nat} (le : n ≤ len) :
    (∀ k < len, src (copyWords src b m n) k = src m k) ∧ ∀ k < n, Memory.read32 (copyWords src b m n) (b + 4 * k) = src m k := by
  induction n with
  | zero => exact ⟨fun _ _ => rfl, fun k none => absurd none (Nat.not_lt_zero k)⟩
  | succ n ih =>
    obtain ⟨source, stored⟩ := ih (by omega)
    refine ⟨fun k inside => (apart _ n _ k (by omega) inside).trans (source k inside), fun k before => ?_⟩
    rw [copyWords]
    by_cases last : k = n
    · rw [last, Memory.read32_writeNat_same, source n (by omega)]
    · rw [Memory.read32_writeNat_apart _ (by omega), stored k (by omega)]

/-! ### What comes round in a period -/

section Period
variable {p : Nat → Prop} [DecidablePred p] {a : Nat} (period : ∀ i, p (a + i) ↔ p i)
include period

theorem count_period_shift (b : Nat) : Nat.count (fun i => p (b + i)) a = Nat.count p a := by
  have before := Nat.count_add p b a
  have after := Nat.count_add p a b
  rw [Nat.add_comm b a] at before
  have same : Nat.count (fun i => p (a + i)) b = Nat.count p b := by simp only [period]
  omega

theorem count_mul_period (n : Nat) : Nat.count p (n * a) = n * Nat.count p a := by
  induction n with
  | zero => simp
  | succ n ih => rw [Nat.succ_mul, Nat.count_add, ih, count_period_shift period, Nat.succ_mul]

end Period

theorem count_getD (q : Nat → Bool) (l : List Nat) : Nat.count (fun i => q (l.getD i 0) = true) l.length = (l.filter q).length := by
  induction l with
  | nil => rfl
  | cons x l ih =>
    rw [List.length_cons, Nat.count_succ', List.filter_cons]
    simp only [List.getD_cons_succ, List.getD_cons_zero, ih]
    split <;> rfl

end Sys2Proof

namespace Sys2Proof.Machine

variable {s : State} {c : Nat} {f : Firing}

/-! ### The accesses that the slot table grants the cluster DMA (R274, R276) -/

/-- The cluster DMA is granted an access of a kind in a slot cycle. -/
def dmaTurn (f : Firing) (out : Bool) (i : Nat) : Bool := grants (slotEntry f i) 10 && isWriteCycle (slotEntry f i) == !out

/-- The table comes round (R275). -/
theorem dmaTurn_period (entries : f.entry.slotTable ≠ []) (out : Bool) (i : Nat) :
    dmaTurn f out (f.entry.slotTable.length + i) = true ↔ dmaTurn f out i = true := by
  have some : max 1 f.entry.slotTable.length = f.entry.slotTable.length := max_eq_right (List.length_pos_iff.2 entries)
  have same : slotEntry f (f.entry.slotTable.length + i) = slotEntry f i := by rw [slotEntry, slotEntry, some, Nat.add_mod_left]
  rw [dmaTurn, dmaTurn, same]

/-- A period has a turn for every entry of the table that grants one. -/
theorem le_count_dmaTurn_period (f : Firing) (out : Bool) :
    (f.entry.slotTable.filter fun en => grants en 10 && isWriteCycle en == !out).length ≤
      Nat.count (fun i => dmaTurn f out i = true) f.entry.slotTable.length := by
  rw [← count_getD]
  refine Nat.count_mono_left fun i inside granted => ?_
  rwa [dmaTurn, slotEntry, Nat.mod_eq_of_lt (lt_max_of_lt_right inside)]

/-- Within the cycles in which a transfer completes the cluster DMA has as many turns as it needs. -/
theorem le_count_dmaTurn {out : Bool} (granted : ∃ en ∈ f.entry.slotTable, grants en 10 = true ∧ isWriteCycle en = !out) (a n : Nat) :
    n ≤ Nat.count (fun i => dmaTurn f out (a + i) = true) (grantSpan f out n) := by
  obtain ⟨en, mem, grant, kind⟩ := granted
  have period := dmaTurn_period (List.ne_nil_of_mem mem) out
  have shifted (i : Nat) : dmaTurn f out (a + (f.entry.slotTable.length + i)) = true ↔ dmaTurn f out (a + i) = true := by
    rw [Nat.add_left_comm, period]
  have turns := le_count_dmaTurn_period f out
  have some : 0 < (f.entry.slotTable.filter fun en => grants en 10 && isWriteCycle en == !out).length :=
    List.length_pos_of_mem (List.mem_filter.2 ⟨mem, by simp [grant, kind]⟩)
  rw [grantSpan]
  generalize (f.entry.slotTable.filter fun en => grants en 10 && isWriteCycle en == !out).length = g at turns some ⊢
  rw [if_neg some.ne']
  calc n ≤ g * (n / g + 1) := (Nat.lt_mul_div_succ n some).le
    _ ≤ (n / g + 2) * g := by rw [Nat.mul_comm]; exact Nat.mul_le_mul_right g (by omega)
    _ ≤ (n / g + 2) * Nat.count (fun i => dmaTurn f out (a + i) = true) f.entry.slotTable.length := by
      exact Nat.mul_le_mul_left _ (turns.trans_eq (count_period_shift (p := fun i => dmaTurn f out i = true) period a).symm)
    _ = Nat.count (fun i => dmaTurn f out (a + i) = true) ((n / g + 2) * f.entry.slotTable.length) := (count_mul_period shifted _).symm
    _ ≤ _ := Nat.count_monotone _ (Nat.le_add_left _ _)

/-! ### Units that present nothing -/

/-- The parts of a unit at the shared-memory port, which no result reaches. -/
def UnitSt.port (x : UnitSt) : Option ReadReq × Option ReadReq × Option WriteReq × Option WriteReq × Nat :=
  (x.readNew, x.readBuf, x.writeNew, x.writeBuf, x.dmaOut)

theorem UnitSt.port_ite (x : UnitSt) {p : Prop} [Decidable p] {y z : UnitSt} (yes : y.port = x.port) (no : z.port = x.port) :
    (if p then y else z).port = x.port := by split <;> assumption

theorem UnitSt.writeSr_port (x : UnitSt) (n : Nat) (w : Word) : (x.writeSr n w).port = x.port := by
  unfold UnitSt.writeSr
  dsimp only
  repeat refine x.port_ite rfl ?_
  rfl

theorem UnitSt.land_port (x : UnitSt) (l : Landing) : (x.land l).port = x.port := by
  unfold UnitSt.land
  cases l.dest with
  | f p => rfl
  | a n => exact x.port_ite rfl rfl
  | p n => exact x.port_ite rfl rfl
  | sr n => exact x.writeSr_port n _

theorem UnitSt.runTo_port (x : UnitSt) (n : Nat) : (x.runTo n).port = x.port := by
  have lands (l : List Landing) (y : UnitSt) : (l.foldl UnitSt.land y).port = y.port := by
    induction l generalizing y with
    | nil => rfl
    | cons e l ih => exact (ih _).trans (y.land_port e)
  exact lands _ _

theorem UnitSt.settled_port (x : UnitSt) : x.settled.port = x.port := by
  unfold UnitSt.settled
  split
  · rfl
  · split
    · exact x.runTo_port _
    · exact x.runTo_port _
    · exact x.runTo_port _
    · rfl

theorem UnitSt.dmaOut_of_port {x y : UnitSt} (same : y.port = x.port) : y.dmaOut = x.dmaOut :=
  congrArg (fun p : Option ReadReq × Option ReadReq × Option WriteReq × Option WriteReq × Nat => p.2.2.2.2) same

/-- No shared access of a unit is under way. -/
def UnitSt.Still (x : UnitSt) : Prop := x.reading = false ∧ x.writing = false

theorem UnitSt.Still.parts {x : UnitSt} (still : x.Still) :
    x.readNew = none ∧ x.readBuf = none ∧ x.writeNew = none ∧ x.writeBuf = none := by
  simpa [UnitSt.Still, UnitSt.reading, UnitSt.writing, and_assoc] using still

theorem UnitSt.Still.of_port {x y : UnitSt} (still : x.Still) (same : y.port = x.port) : y.Still := by
  obtain ⟨readNew, readBuf, writeNew, writeBuf⟩ := still.parts
  simp only [UnitSt.port, Prod.mk.injEq] at same
  obtain ⟨h1, h2, h3, h4, -⟩ := same
  simp [UnitSt.Still, UnitSt.reading, UnitSt.writing, h1, h2, h3, h4, readNew, readBuf, writeNew, writeBuf]

theorem UnitSt.Still.cycleEnd {x : UnitSt} (still : x.Still) : x.cycleEnd.port = x.port := by
  obtain ⟨readNew, -, writeNew, -⟩ := still.parts
  have reads : x.keepRead = x := by rw [UnitSt.keepRead, readNew]
  have writes : x.keepWrite = x := by rw [UnitSt.keepWrite, writeNew]
  rw [UnitSt.cycleEnd, reads, writes, UnitSt.settled_port]

/-- No unit of a cluster presents an access. -/
def State.Quiet (c : Nat) (s : State) : Prop := ∀ u < 8, (s.unit (8 * c + u)).Still

theorem State.Quiet.readers (quiet : s.Quiet c) (en : Nat) : s.readers c en = [] := by
  refine List.filter_eq_nil_iff.2 fun u mem => ?_
  obtain ⟨new, buf, -, -⟩ := (quiet u (List.mem_range.1 mem)).parts
  simp [UnitSt.presentedRead, new, buf]

theorem State.Quiet.writers (quiet : s.Quiet c) (en : Nat) : s.writers c en = [] := by
  refine List.filter_eq_nil_iff.2 fun u mem => ?_
  obtain ⟨-, -, new, buf⟩ := (quiet u (List.mem_range.1 mem)).parts
  simp [UnitSt.presentedWrite, new, buf]

theorem State.settleUnit_of_still {u : Nat} (still : (s.unit u).Still) : s.settleUnit u = s.modUnit u UnitSt.settled := by
  obtain ⟨readNew, -, writeNew, -⟩ := still.parts
  have reads : s.settleRead u = s := by rw [State.settleRead, readNew]
  have writes : s.settleWrite u = s := by rw [State.settleWrite, writeNew]
  rw [State.settleUnit, reads, writes]

/-- A unit that waits for one transfer fewer presents what it presented. -/
theorem State.Quiet.modUnit_dmaOut (quiet : s.Quiet c) (u n : Nat) :
    (s.modUnit u fun y => { y with dmaOut := n }).Quiet c := by
  intro v compute
  rw [State.unit_modUnit]
  split
  · next own => exact own ▸ quiet v compute
  · exact quiet v compute

/-- The end of a cycle in which no unit presents an access changes units alone, and none of them at the port. -/
theorem State.Quiet.settleAll (quiet : s.Quiet c) : (s.settleAll c).stage = s.stage ∧ (s.settleAll c).regs = s.regs ∧
    (s.settleAll c).clusters = s.clusters ∧ ∀ u < 8, ((s.settleAll c).unit (8 * c + u)).port = (s.unit (8 * c + u)).port := by
  have step : ∀ u ∈ unitsOf c, ∀ t : State, ((t.stage = s.stage ∧ t.regs = s.regs ∧ t.clusters = s.clusters) ∧
      ∀ v ∈ unitsOf c, (t.unit v).Still) → ((t.settleUnit u).stage = s.stage ∧ (t.settleUnit u).regs = s.regs ∧
      (t.settleUnit u).clusters = s.clusters) ∧ ∀ v ∈ unitsOf c, ((t.settleUnit u).unit v).Still := by
    rintro u mem t ⟨same, still⟩
    rw [State.settleUnit_of_still (still u mem)]
    refine ⟨same, fun v own => ?_⟩
    rw [State.unit_modUnit]
    split
    · exact (still u mem).of_port (UnitSt.settled_port _)
    · exact still v own
  have all : ∀ v ∈ unitsOf c, (s.unit v).Still := List.forall_mem_map.2 fun u mem => quiet u (List.mem_range.1 mem)
  have ports : ∀ u < 8, ((s.settleAll c).unit (8 * c + u)).port = (s.unit (8 * c + u)).port := fun u compute => by
    rw [State.unit_settleAll, if_pos (by omega)]
    exact (quiet u compute).cycleEnd
  rw [State.settleAll_eq] at ports ⊢
  obtain ⟨⟨stage, regs, clusters⟩, -⟩ := State.each_keeps_mem _ State.settleUnit s (unitsOf c) step ⟨⟨rfl, rfl, rfl⟩, all⟩
  exact ⟨stage, regs, clusters, ports⟩

end Sys2Proof.Machine
end

