-- ==== Sys2Proof/Proofs/ClusterDma.lean ====
section
/-! PROOF. The cluster DMA and the peek (R117, R188, R272–R276, R286–R291, R294). -/

namespace Sys2Proof.Machine

variable {s t : State} {c : Nat} {f : Firing} {d : ClDma}

/-! ### A cycle with the cluster DMA alone -/

/-- What the cluster DMA presents when the crossbars have granted its burst. -/
theorem State.dmaPresents_given (s : State) (c en : Nat) (out : Bool) :
    s.dmaPresents c en out true = ((s.cluster c).dmaRun.filter fun d => grants en 10 && d.out == out, s) := by
  rw [State.dmaPresents]
  cases (s.cluster c).dmaRun with
  | none => rfl
  | some d =>
    simp only [Option.filter_some, if_true]
    split <;> rfl

/-- The access that the running transfer makes in a cycle of one direction. -/
def State.dmaAccess (s : State) (c en : Nat) (out : Bool) (m : RemoteErr) : State :=
  match (s.cluster c).dmaRun.filter fun d => grants en 10 && d.out == out with
  | some d => s.dmaStep c d m
  | none => s

theorem State.portRead_quiet (quiet : s.Quiet c) (firing : (s.cluster c).firing = some f) (glaze : f.glaze = none) (en now : Nat)
    (m : RemoteErr) : s.portRead c en now true m .clean = (s.dmaAccess c en true m).settleAll c := by
  have none : ((List.range 8).filter fun u => grants en u && (s.unit (8 * c + u)).presentedRead.isSome) = [] := quiet.readers en
  unfold State.portRead State.dmaAccess
  rw [State.dmaPresents_given]
  dsimp only
  rw [State.glazePresents_idle firing glaze, none]
  cases (s.cluster c).dmaRun.filter fun d => grants en 10 && d.out == true <;> rfl

theorem State.portWrite_quiet (quiet : s.Quiet c) (firing : (s.cluster c).firing = some f) (glaze : f.glaze = none) (en : Nat)
    {m : RemoteErr} (clean : m.err = .clean) : s.portWrite c en true m .clean = (s.dmaAccess c en false m).settleAll c := by
  have none : ((List.range 8).filter fun u => grants en u && (s.unit (8 * c + u)).presentedWrite.isSome) = [] := quiet.writers en
  have sound (d : ClDma) : d.fails m.err = false := by simp [ClDma.fails, clean]
  unfold State.portWrite State.dmaAccess
  rw [State.dmaPresents_given]
  dsimp only
  rw [State.glazePresents_idle firing glaze, none]
  cases (s.cluster c).dmaRun.filter fun d => grants en 10 && d.out == false with
  | none => rfl
  | some d =>
    simp only [Option.map_some, sound, Option.some.injEq, Bool.false_eq_true, if_false]
    rfl

theorem State.portCycle_quiet (quiet : s.Quiet c) (firing : (s.cluster c).firing = some f) (glaze : f.glaze = none)
    (past : f.entry.seqCycles ≤ f.clk) : s.portCycle c true [] = ((s.modCluster c (·.clocked (f.clk + 1))).dmaAccess c
      (slotEntry f (f.clk - f.entry.seqCycles)) (!isWriteCycle (slotEntry f (f.clk - f.entry.seqCycles))) {}).settleAll c := by
  have quiet' : (s.modCluster c (·.clocked (f.clk + 1))).Quiet c := quiet
  have firing' := State.firing_clocked firing (f.clk + 1)
  rw [State.portCycle, firing]
  dsimp only
  rw [State.clockTo_of_past firing past, if_neg (by omega)]
  split
  · next write =>
    rw [write]
    exact State.portWrite_quiet quiet' firing' glaze _ rfl
  · next read =>
    rw [Bool.eq_false_iff.2 read]
    exact State.portRead_quiet quiet' firing' glaze _ _ _

/-! ### A transfer of whole words (R286, R291) -/

/-- The words that a transfer reads, from shared memory or from a stage, and where in shared memory it puts them. -/
def ClDma.source (d : ClDma) (c : Nat) (stage m : Memory) (k : Nat) : Word :=
  if d.out then Memory.read32 m (shmAddr c d.localAddr + 4 * k) else Memory.read32 stage (d.remote + 4 * k)
def ClDma.place (d : ClDma) (c : Nat) : Nat := if d.out then shmAddr d.target d.remote else shmAddr c d.localAddr

/-- A transfer writes to another cluster, or reads a stage. -/
def ClDma.Plain (d : ClDma) : Prop := (d.out = true ∧ d.space = 4) ∨ (d.out = false ∧ d.space = 0)

/-- The stages, the registers, the clusters and the units are as before. -/
structure SameBeside (s t : State) : Prop where
  stage : t.stage = s.stage
  regs : t.regs = s.regs
  clusters : t.clusters = s.clusters
  units : t.units = s.units

theorem SameBeside.trans {u : State} (a : SameBeside s t) (b : SameBeside t u) : SameBeside s u :=
  ⟨b.stage.trans a.stage, b.regs.trans a.regs, b.clusters.trans a.clusters, b.units.trans a.units⟩

/-- Words that are copied one after another, each from the memory that the one before has left. -/
theorem State.each_copies {src : Memory → Nat → Word} {b a : Nat} {m : Memory} {g : Nat → State → State}
    (step : ∀ k (t : State), t.stage = s.stage →
      (g k t).shm = Memory.writeNat t.shm (b + 4 * (a + k)) 4 (src t.shm (a + k)).toNat ∧ SameBeside t (g k t))
    (here : s.shm = copyWords src b m a) (n : Nat) :
    (s.each (List.range n) g).shm = copyWords src b m (a + n) ∧ SameBeside s (s.each (List.range n) g) := by
  induction n with
  | zero => exact ⟨here, rfl, rfl, rfl, rfl⟩
  | succ n ih =>
    obtain ⟨shm, same⟩ := ih
    have last : s.each (List.range (n + 1)) g = g n (s.each (List.range n) g) := by simp [State.each, List.range_succ]
    obtain ⟨written, beside⟩ := step n _ same.stage
    rw [last, written, shm]
    exact ⟨rfl, same.trans beside⟩

/-- An access copies the next eight words of the transfer; none of them is in the command windows. -/
theorem State.dmaWord_copies (plain : d.Plain) (inside : d.localAddr + d.length ≤ 0xFF800) {j : Nat} (left : 32 * j < d.length)
    {m : Memory} (here : s.shm = copyWords (d.source c s.stage) (d.place c) m (8 * j)) :
    let t := s.dmaWord c { d with moved := 32 * j } []
    t.shm = copyWords (d.source c s.stage) (d.place c) m (8 * (j + 1)) ∧ SameBeside s t := by
  have at_word (a k : Nat) : a + 32 * j + 4 * k = a + 4 * (8 * j + k) := by omega
  have next : 8 * (j + 1) = 8 * j + 8 := by omega
  rw [State.dmaWord, next]
  dsimp only
  obtain ⟨out, space⟩ | ⟨out, space⟩ := plain
  · rw [if_pos out]
    refine State.each_copies (fun k t stage => ⟨?_, ?_⟩) here 8
    · simp [out, space, State.dmaSends, State.spaceWrite, remoteAddr, ClDma.source, ClDma.place, shmAddr, at_word]
    · rw [if_pos out, space]
      exact ⟨rfl, rfl, rfl, rfl⟩
  · have below : ¬ (0xFF800 ≤ d.localAddr + 32 * j) := by omega
    rw [if_neg (by simp [out]), State.issueDma]
    dsimp only
    rw [if_neg fun go => below go.1]
    refine State.each_copies (fun k t stage => ⟨?_, ?_⟩) here 8
    · simp [out, space, State.spaceRead, remoteAddr, ClDma.source, ClDma.place, at_word, stage]
    · rw [if_neg (by simp [out])]
      exact ⟨rfl, rfl, rfl, rfl⟩

/-- What the memory behind a transfer reports without an error. -/
theorem State.dmaEcc_clean (s : State) (c : Nat) (d : ClDma) (bad : List Nat) : s.dmaEcc c d .clean bad = s := by
  unfold State.dmaEcc
  split
  case h_5 => rfl
  all_goals contradiction

theorem State.passWord_xbar (s : State) (c : Nat) (d : ClDma) (last : Bool) : ∃ x, s.passWord c d last = { s with xbar := x } := by
  refine State.each_keeps (fun t => ∃ x, t = { s with xbar := x }) _ ?_ s _ ⟨s.xbar, rfl⟩
  rintro p _ ⟨x, rfl⟩
  dsimp only
  split
  · split
    · exact ⟨_, rfl⟩
    · exact ⟨x, rfl⟩
  · exact ⟨x, rfl⟩

/-- What is left of a transfer after `j` accesses. -/
def ClDma.left (d : ClDma) (j : Nat) : Option ClDma := if 32 * j < d.length then some { d with moved := 32 * j } else none

/-- State `t` comes from `s` by `j` accesses of a transfer in a firing whose clock stands at `clk`, and nothing else at the port. -/
structure Underway (s : State) (c : Nat) (f : Firing) (d : ClDma) (j clk : Nat) (t : State) : Prop where
  shm : t.shm = copyWords (d.source c s.stage) (d.place c) s.shm (8 * j)
  stage : t.stage = s.stage
  regs : t.regs = s.regs
  firing : (t.cluster c).firing = some { f with clk := clk }
  run : (t.cluster c).dmaRun = d.left j
  quiet : t.Quiet c
  waits : (t.unit (8 * c + d.unit)).dmaOut = (s.unit (8 * c + d.unit)).dmaOut - if 32 * j < d.length then 0 else 1

namespace Underway

variable {j clk : Nat}

theorem clocked (h : Underway s c f d j clk t) : Underway s c f d j (clk + 1) (t.modCluster c (·.clocked (clk + 1))) :=
  ⟨h.shm, h.stage, h.regs, (State.firing_clocked h.firing _).trans (by simp), (State.dmaRun_clocked t c _).trans h.run, h.quiet,
    h.waits⟩

theorem settled (unit : d.unit < 8) (h : Underway s c f d j clk t) : Underway s c f d j clk (t.settleAll c) := by
  obtain ⟨stage, regs, clusters, port⟩ := h.quiet.settleAll
  have cluster : (t.settleAll c).cluster c = t.cluster c := by simp only [State.cluster, clusters]
  exact ⟨(SameButUnits.settleAll t c).shm.trans h.shm, stage.trans h.stage, regs.trans h.regs, by rw [cluster, h.firing],
    by rw [cluster, h.run], fun u compute => (h.quiet u compute).of_port (port u compute),
    (UnitSt.dmaOut_of_port (port d.unit unit)).trans h.waits⟩

/-- An access copies its words, and the transfer ends with the last of them. -/
theorem access (plain : d.Plain) (inside : d.localAddr + d.length ≤ 0xFF800) (left : 32 * j < d.length)
    (h : Underway s c f d j clk t) :
    ∃ u, u.shm = copyWords (d.source c s.stage) (d.place c) s.shm (8 * (j + 1)) ∧ SameBeside t u ∧
      t.dmaStep c { d with moved := 32 * j } {} = (u.modCluster c fun y => { y with dmaRun := d.left (j + 1) }).when
        (decide (d.length ≤ 32 * j + 32)) fun v => v.modUnit (8 * c + d.unit) fun y => { y with dmaOut := y.dmaOut - 1 } := by
  obtain ⟨shm, beside⟩ := State.dmaWord_copies (s := t) plain inside left (m := s.shm) (by rw [h.stage]; exact h.shm)
  rw [h.stage] at shm
  have rest : (if decide (d.length ≤ 32 * j + 32) then none else some { d with moved := 32 * j + 32 }) = d.left (j + 1) := by
    rw [ClDma.left, Nat.mul_succ]
    by_cases last : d.length ≤ 32 * j + 32
    · rw [if_pos (decide_eq_true last), if_neg (by omega)]
    · rw [if_neg (by simpa using last), if_pos (by omega)]
  rw [State.dmaStep, State.dmaEcc_clean]
  dsimp only
  rw [rest]
  generalize t.dmaWord c { d with moved := 32 * j } [] = v at shm beside
  obtain ⟨x, passed⟩ := v.passWord_xbar c { d with moved := 32 * j } (decide (d.length ≤ 32 * j + 32))
  exact ⟨_, by rw [passed]; exact shm, by rw [passed]; exact beside.trans ⟨rfl, rfl, rfl, rfl⟩, rfl⟩

theorem step (plain : d.Plain) (inside : d.localAddr + d.length ≤ 0xFF800) (left : 32 * j < d.length)
    (h : Underway s c f d j clk t) : Underway s c f d (j + 1) clk (t.dmaStep c { d with moved := 32 * j } {}) := by
  obtain ⟨u, shm, ⟨stage, regs, clusters, units⟩, access⟩ := h.access plain inside left
  have cluster : u.cluster c = t.cluster c := by simp only [State.cluster, clusters]
  have unit (v : Nat) : u.unit v = t.unit v := by simp only [State.unit, units]
  have quiet : u.Quiet c := fun v compute => by rw [unit]; exact h.quiet v compute
  have waits : (u.unit (8 * c + d.unit)).dmaOut = (s.unit (8 * c + d.unit)).dmaOut := by
    rw [unit, h.waits, if_pos left, Nat.sub_zero]
  have firing : ((u.modCluster c fun y => { y with dmaRun := d.left (j + 1) }).cluster c).firing = some { f with clk := clk } := by
    rw [State.cluster_modCluster, if_pos rfl, cluster]
    exact h.firing
  have run : ((u.modCluster c fun y => { y with dmaRun := d.left (j + 1) }).cluster c).dmaRun = d.left (j + 1) := by
    rw [State.cluster_modCluster, if_pos rfl]
  rw [access, State.when]
  by_cases last : d.length ≤ 32 * j + 32
  · rw [if_pos (decide_eq_true last)]
    refine ⟨shm, stage.trans h.stage, regs.trans h.regs, firing, run, quiet.modUnit_dmaOut _ _, ?_⟩
    rw [State.unit_modUnit, if_pos rfl, if_neg (by omega)]
    exact congrArg (· - 1) waits
  · rw [if_neg (by simpa using last)]
    exact ⟨shm, stage.trans h.stage, regs.trans h.regs, firing, run, quiet, by rw [if_pos (by omega)]; exact waits⟩

/-- A cycle of the port makes an access of the transfer where it is the turn of the cluster DMA. -/
theorem cycle (plain : d.Plain) (inside : d.localAddr + d.length ≤ 0xFF800) (unit : d.unit < 8) (glaze : f.glaze = none)
    (past : f.entry.seqCycles ≤ clk) (left : 32 * j < d.length) (h : Underway s c f d j clk t) :
    Underway s c f d (if dmaTurn f d.out (clk - f.entry.seqCycles) then j + 1 else j) (clk + 1) (t.portCycle c true []) := by
  rw [State.portCycle_quiet h.quiet h.firing glaze past]
  refine settled unit ?_
  have run : ((t.modCluster c (·.clocked (clk + 1))).cluster c).dmaRun = some { d with moved := 32 * j } := by
    rw [h.clocked.run, ClDma.left, if_pos left]
  have turn : (grants (slotEntry f (clk - f.entry.seqCycles)) 10 && d.out == !isWriteCycle (slotEntry f (clk - f.entry.seqCycles))) =
      dmaTurn f d.out (clk - f.entry.seqCycles) := by
    rw [dmaTurn]
    cases d.out <;> cases isWriteCycle (slotEntry f (clk - f.entry.seqCycles)) <;> rfl
  have presents : ((t.modCluster c (·.clocked (clk + 1))).cluster c).dmaRun.filter (fun e =>
      grants (slotEntry f (clk - f.entry.seqCycles)) 10 && e.out == !isWriteCycle (slotEntry f (clk - f.entry.seqCycles))) =
      if dmaTurn f d.out (clk - f.entry.seqCycles) then some { d with moved := 32 * j } else none := by
    rw [run, Option.filter_some, ← turn]
  rw [State.dmaAccess]
  dsimp only [slotEntry] at presents ⊢
  rw [presents]
  split
  · exact h.clocked.step plain inside left
  · exact h.clocked

/-- The port runs on until the transfer has made all of its accesses. -/
theorem portUntil (plain : d.Plain) (inside : d.localAddr + d.length ≤ 0xFF800) (unit : d.unit < 8) (glaze : f.glaze = none)
    {n : Nat} (whole : d.length = 32 * n) (k : Nat) (past : f.entry.seqCycles ≤ clk) (le : j ≤ n)
    (turns : n ≤ j + Nat.count (fun i => dmaTurn f d.out (clk - f.entry.seqCycles + i) = true) k) (h : Underway s c f d j clk t) :
    ∃ clk', Underway s c f d n clk' (t.portUntil c [] k) := by
  induction k generalizing j clk t with
  | zero => exact ⟨clk, (show j = n by rw [Nat.count_zero] at turns; omega) ▸ h⟩
  | succ k ih =>
    rw [State.portUntil, h.run, ClDma.left]
    by_cases left : 32 * j < d.length
    · rw [if_pos left, Option.isNone_some, if_neg Bool.false_ne_true]
      refine ih (by omega) ?_ ?_ (h.cycle plain inside unit glaze past left)
      · split <;> omega
      · have shift (i : Nat) : clk - f.entry.seqCycles + (i + 1) = clk + 1 - f.entry.seqCycles + i := by omega
        have more : (if dmaTurn f d.out (clk - f.entry.seqCycles) then j + 1 else j) =
            j + if dmaTurn f d.out (clk - f.entry.seqCycles) then 1 else 0 := by split <;> rfl
        rw [Nat.count_succ'] at turns
        simp only [shift, Nat.add_zero] at turns
        rw [more]
        omega
    · rw [if_neg left, Option.isNone_none, if_pos rfl]
      exact ⟨clk, (show j = n by omega) ▸ h⟩

end Underway

/-- A transfer of whole words completes: it has copied each of them, and its unit waits for one transfer fewer. -/
theorem exec_dmaTransferComplete {c : Fin 64} (firing : (s.cluster c).firing = some f) (run : (s.cluster c).dmaRun = some d)
    (past : f.entry.seqCycles ≤ f.clk) (glaze : f.glaze = none)
    (granted : ∃ en ∈ f.entry.slotTable, grants en 10 = true ∧ isWriteCycle en = !d.out) (quiet : s.Quiet c) (unit : d.unit < 8)
    (fresh : d.moved = 0) (nonempty : 0 < d.length) (whole : d.length % 32 = 0) (inside : d.localAddr + d.length ≤ 0xFF800)
    (plain : d.Plain) : ∃ t clk, exec (.dmaTransferComplete c .clean []) s = .next t ∧ Underway s c f d (d.length / 32) clk t := by
  have sound : d.fails .clean = false := by simp [ClDma.fails]
  have begun : Underway s c f d 0 f.clk s := by
    refine ⟨rfl, rfl, rfl, firing, ?_, quiet, by rw [if_pos (by omega), Nat.sub_zero]⟩
    rw [run, ClDma.left, if_pos (by omega), Nat.mul_zero, ← fresh]
  obtain ⟨clk, done⟩ := begun.portUntil plain inside unit glaze (n := d.length / 32) (by omega)
    (grantSpan f d.out (d.length / 32 + 1)) past (Nat.zero_le _)
    ((Nat.le_succ _).trans ((le_count_dmaTurn granted _ _).trans (Nat.le_add_left _ _)))
  refine ⟨_, clk, ?_, done⟩
  show execDmaTransferComplete c .clean [] s = _
  rw [execDmaTransferComplete, firing, run]
  dsimp only
  rw [if_neg (by simp [sound]), State.dmaEcc_clean, fresh]
  rfl

/-- The words of a transfer that has made all of its accesses. -/
theorem Underway.words {n clk len : Nat} (h : Underway s c f d n clk t) (all : len = 8 * n)
    (apart : ∀ p i v k, i < len → k < len →
      d.source c s.stage (Memory.writeNat p (d.place c + 4 * i) 4 v) k = d.source c s.stage p k) :
    ∀ k < len, Memory.read32 t.shm (d.place c + 4 * k) = d.source c s.stage s.shm k := by
  rw [h.shm, ← all]
  exact (copyWords_spec apart s.shm le_rfl).2

/-- A transfer that has made all of its accesses has ended, and its unit waits for one transfer fewer. -/
theorem Underway.ended {n clk : Nat} (h : Underway s c f d n clk t) (all : d.length ≤ 32 * n) : (t.cluster c).dmaRun = none ∧
    (t.unit (8 * c + d.unit)).dmaOut = (s.unit (8 * c + d.unit)).dmaOut - 1 := by
  rw [h.run, h.waits, ClDma.left, if_neg (by omega), if_neg (by omega)]
  exact ⟨rfl, rfl⟩

/-! ### The start of a transfer (R286, R289) -/

/-- The oldest descriptor leaves the queue. -/
def State.takeDescriptor (s : State) (c : Nat) (rest : List ClDma) : State := s.modCluster c fun x => { x with dmaQueue := rest }

theorem State.takeDescriptor_cluster (s : State) (c : Nat) (rest : List ClDma) :
    (s.takeDescriptor c rest).cluster c = { s.cluster c with dmaQueue := rest } := by
  rw [State.takeDescriptor, State.cluster_modCluster, if_pos rfl]

/-- A descriptor that is refused leaves the queue, and its unit does not wait for it. -/
def State.dropDescriptor (s : State) (c : Nat) (d : ClDma) (rest : List ClDma) : State :=
  (s.takeDescriptor c rest).modUnit (8 * c + d.unit) fun y => { y with dmaOut := y.dmaOut - 1 }

/-- The first refusal is recorded with its unit. -/
def State.recordRefusal (s : State) (c unit code : Nat) : State :=
  if s.bit (Reg.FABRIC_CL_DMA_DMA_ERR c) then s
  else ((s.set (Reg.FABRIC_CL_DMA_DMA_ERR c)).put (Reg.FABRIC_CL_DMA_UNIT c) unit).put (Reg.FABRIC_CL_DMA_CODE c) code

theorem State.recordRefusal_apart (s : State) (c unit code : Nat) : (s.recordRefusal c unit code).shm = s.shm ∧
    (s.recordRefusal c unit code).stage = s.stage ∧ (s.recordRefusal c unit code).units = s.units ∧
    (s.recordRefusal c unit code).clusters = s.clusters := by
  unfold State.recordRefusal
  split <;> exact ⟨rfl, rfl, rfl, rfl⟩

theorem State.recordRefusal_again (err : s.bit (Reg.FABRIC_CL_DMA_DMA_ERR c) = true) (unit code : Nat) :
    s.recordRefusal c unit code = s := if_pos err

theorem State.recordRefusal_first {unit code : Nat} (none : s.bit (Reg.FABRIC_CL_DMA_DMA_ERR c) = false) (compute : unit < 8)
    (width : code < 16) : let t := s.recordRefusal c unit code
    t.bit (Reg.FABRIC_CL_DMA_DMA_ERR c) = true ∧ t.get (Reg.FABRIC_CL_DMA_UNIT c) = unit ∧ t.get (Reg.FABRIC_CL_DMA_CODE c) = code := by
  have keys : (Reg.FABRIC_CL_DMA_DMA_ERR c).key ≠ (Reg.FABRIC_CL_DMA_UNIT c).key ∧
      (Reg.FABRIC_CL_DMA_DMA_ERR c).key ≠ (Reg.FABRIC_CL_DMA_CODE c).key ∧
      (Reg.FABRIC_CL_DMA_UNIT c).key ≠ (Reg.FABRIC_CL_DMA_CODE c).key := by
    simp only [Fld.key, Reg.FABRIC_CL_DMA_DMA_ERR, Reg.FABRIC_CL_DMA_UNIT, Reg.FABRIC_CL_DMA_CODE]
    omega
  obtain ⟨errUnit, errCode, unitCode⟩ := keys
  dsimp only
  rw [State.recordRefusal, none, if_neg Bool.false_ne_true]
  refine ⟨?_, ?_, State.get_put_lt _ _ _ width⟩
  · rw [State.bit_put_ne _ errCode, State.bit_put_ne _ errUnit, State.bit, State.set, State.get_put_same]
    rfl
  · rw [State.get_put_ne _ unitCode]
    exact State.get_put_lt _ _ _ compute

theorem State.dmaCheck_lt {code : Nat} (refused : s.dmaCheck c f d = some code) : code < 16 := by
  unfold State.dmaCheck at refused
  split_ifs at refused <;> cases refused <;> decide

theorem State.refused_spec {rest : List ClDma} {code : Nat} (compute : d.unit < 8) (check : s.dmaCheck c f d = some code) :
    let t := (s.dropDescriptor c d rest).recordRefusal c d.unit code
    t.cluster c = { s.cluster c with dmaQueue := rest } ∧ t.shm = s.shm ∧ t.stage = s.stage ∧
    (t.unit (8 * c + d.unit)).dmaOut = (s.unit (8 * c + d.unit)).dmaOut - 1 ∧
    (s.bit (Reg.FABRIC_CL_DMA_DMA_ERR c) = false → t.bit (Reg.FABRIC_CL_DMA_DMA_ERR c) = true ∧
      t.get (Reg.FABRIC_CL_DMA_UNIT c) = d.unit ∧ t.get (Reg.FABRIC_CL_DMA_CODE c) = code) ∧
    (s.bit (Reg.FABRIC_CL_DMA_DMA_ERR c) = true → t.regs = s.regs) := by
  obtain ⟨shm, stage, units, clusters⟩ := (s.dropDescriptor c d rest).recordRefusal_apart c d.unit code
  refine ⟨?_, shm, stage, ?_, fun none => State.recordRefusal_first none compute (State.dmaCheck_lt check), fun err => ?_⟩
  · simp only [State.cluster, clusters]
    exact s.takeDescriptor_cluster c rest
  · simp only [State.unit, units]
    exact congrArg UnitSt.dmaOut ((State.unit_modUnit ..).trans (if_pos rfl))
  · rw [State.recordRefusal_again (s := s.dropDescriptor c d rest) err]
    rfl

/-- What a descriptor that passes every check, and one that fails, leave. -/
theorem exec_dmaTransferStart {c : Fin 64} {rest : List ClDma} (firing : (s.cluster c).firing = some f)
    (run : (s.cluster c).dmaRun = none) (queue : (s.cluster c).dmaQueue = d :: rest) :
    (s.dmaCheck c f d = none → exec (.dmaTransferStart c) s =
      .next ((s.takeDescriptor c rest).modCluster c fun x => { x with dmaRun := some d })) ∧
    ∀ code, s.dmaCheck c f d = some code → exec (.dmaTransferStart c) s =
      .next ((s.dropDescriptor c d rest).recordRefusal c d.unit code) := by
  have starts : exec (.dmaTransferStart c) s = execDmaTransferStart c s := rfl
  rw [starts]
  unfold execDmaTransferStart
  dsimp only
  split
  · next g e more firing' run' queue' =>
    cases firing.symm.trans firing'
    cases queue.symm.trans queue'
    refine ⟨fun passes => ?_, fun code refused => ?_⟩
    · rw [passes]
      rfl
    · rw [refused]
      rfl
  · next other => exact absurd queue (other f d rest firing run)

/-! ### The peek (R294) -/

/-- The 64 words of a peek, each in its register. -/
def State.peekWords (s : State) (c a : Nat) : State :=
  s.each (List.range 64) fun j t => t.put (Reg.FABRIC_CL_PEEK_DATA c j) (Memory.read32 t.shm (shmAddr c a + 4 * j)).toNat

theorem State.peekWords_apart (s : State) (c a : Nat) : (s.peekWords c a).units = s.units ∧ (s.peekWords c a).shm = s.shm ∧
    (s.peekWords c a).host = s.host := by
  obtain ⟨r, only⟩ : ∃ r, s.peekWords c a = { s with regs := r } :=
    State.each_keeps (fun t => ∃ r, t = { s with regs := r }) _ (fun _ _ ⟨_, e⟩ => e ▸ ⟨_, rfl⟩) s _ ⟨s.regs, rfl⟩
  rw [only]
  exact ⟨rfl, rfl, rfl⟩

theorem State.get_peekWords {j : Nat} (inside : j < 64) (s : State) (c a : Nat) :
    (s.peekWords c a).get (Reg.FABRIC_CL_PEEK_DATA c j) = (Memory.read32 s.shm (shmAddr c a + 4 * j)).toNat := by
  refine State.each_brings (fun t => t.shm = s.shm)
    (fun t => t.get (Reg.FABRIC_CL_PEEK_DATA c j) = (Memory.read32 s.shm (shmAddr c a + 4 * j)).toNat) _ List.nodup_range
    (List.mem_range.2 inside) (fun _ _ _ _ shm => shm) (fun t shm => ?_) (fun k _ other t shown => ?_) rfl
  · rw [shm]
    exact State.get_put_lt _ _ _ (BitVec.isLt _)
  · refine (State.get_put_ne _ ?_ _).trans shown
    simp only [Fld.key, Reg.FABRIC_CL_PEEK_DATA]
    omega

theorem exec_peekCopy {c : Fin 64} {a : Nat} {h : CmdHdr} (pending : (s.cluster c).peek = some (a, h))
    (between : (s.cluster c).firing = none) :
    exec (.peekCopy c) s = .next (((s.peekWords c a).modCluster c fun x => { x with peek := none }).ok h 0x0B01) := by
  show execPeekCopy c s = _
  rw [execPeekCopy, pending, between]
  rfl

theorem exec_peekCopy_waits {c : Fin 64} (firing : (s.cluster c).firing = some f) : exec (.peekCopy c) s = .next s := by
  show execPeekCopy c s = _
  rw [execPeekCopy, firing]
  cases (s.cluster c).peek <;> rfl

/-- Settles O22: a transfer is under way until the port has run through the turns it needs (`exec_dmaTransferComplete`), and has then copied
its words (`Underway.words`); its start and the peek are `exec_dmaTransferStart` and `State.get_peekWords`. -/
theorem clusterDmaAndPeek : Obligations.ClusterDmaAndPeek := by
  unfold Obligations.ClusterDmaAndPeek
  refine ⟨fun c s f d rest firing run queue compute => ?_, fun c s f d firing run past glaze granted quiet compute fresh nonempty
    whole inside => ⟨fun out space target other bound => ?_, fun inward space => ?_⟩, fun c s e bad idle => ?_, fun c s a h pending =>
    ⟨fun between => ?_, fun firing => ?_⟩⟩
  · obtain ⟨passes, fails⟩ := exec_dmaTransferStart firing run queue
    cases check : s.dmaCheck c f d with
    | none =>
      refine ⟨_, passes check, ?_, rfl, rfl, fun _ => ⟨?_, rfl, rfl⟩, nofun⟩
      · rw [State.cluster_modCluster, if_pos rfl, State.takeDescriptor_cluster]
      · rw [State.cluster_modCluster, if_pos rfl]
    | some code =>
      obtain ⟨cluster, shm, stage, waits, first, again⟩ := State.refused_spec (rest := rest) compute check
      refine ⟨_, fails code check, by rw [cluster], shm, stage, nofun, fun code' same => ?_⟩
      cases same
      exact ⟨by rw [cluster, run], waits, first, again⟩
  · obtain ⟨t, clk, exec, done⟩ := exec_dmaTransferComplete firing run past glaze granted quiet compute fresh nonempty whole inside
      (.inl ⟨out, space⟩)
    obtain ⟨none, waits⟩ := done.ended (by omega)
    have words := done.words (len := d.length / 4) (by omega) fun p i v k low high => by
      simp only [ClDma.source, ClDma.place, out, if_true, shmAddr]
      exact Memory.read32_writeNat_apart p (by omega) v
    simp only [ClDma.source, ClDma.place, out, if_true] at words
    exact ⟨t, exec, none, waits, done.regs, words⟩
  · obtain ⟨t, clk, exec, done⟩ := exec_dmaTransferComplete firing run past glaze granted quiet compute fresh nonempty whole inside
      (.inr ⟨inward, space⟩)
    obtain ⟨none, waits⟩ := done.ended (by omega)
    have words := done.words (len := d.length / 4) (by omega) fun p i v k _ _ => by
      simp only [ClDma.source, inward, Bool.false_eq_true, if_false]
    simp only [ClDma.source, ClDma.place, inward, Bool.false_eq_true, if_false] at words
    exact ⟨t, exec, none, done.stage, waits, done.regs, words⟩
  · show execDmaTransferComplete c e bad s = _
    rw [execDmaTransferComplete, idle]
    cases (s.cluster c).firing <;> rfl
  · obtain ⟨units, shm, host⟩ := s.peekWords_apart c a
    have shown (j : Nat) (inside : j < 64) := State.get_peekWords inside s c a
    have copied := exec_peekCopy pending between
    generalize s.peekWords c a = p at *
    have ended : ((p.modCluster c fun x => { x with peek := none }).cluster c).peek = none := by
      rw [State.cluster_modCluster, if_pos rfl]
    exact ⟨_, copied, ended, units, shm, congrArg (fun x : HostSt => x.done ++ [⟨h, 0x0B01, .ok, 0, 0, 0, false⟩]) host, shown⟩
  · obtain ⟨f, running⟩ := Option.isSome_iff_exists.1 firing
    exact exec_peekCopy_waits running

end Sys2Proof.Machine
end

