-- ==== Sys2Proof/Proofs/PourTable.lean ====
section
/-! SUPPORT. The table of pours: the pour of an identity after each operation on the table, what messages to other devices change,
acceptance, and what a report and the end of a pour leave (R338, R352, R353, R356, R360, R368–R371). -/

namespace Sys2Proof.Machine

variable (s : State)

/-! ### The pour of an identity -/

theorem samePour_iff {o t : Nat} {p : Pour} : samePour o t p = true ↔ p.origin = o ∧ p.tag = t := by simp [samePour]

theorem State.identity_of_pour {s : State} {o t : Nat} {p : Pour} (found : s.pour o t = some p) : p.origin = o ∧ p.tag = t :=
  samePour_iff.1 (List.find?_some found)

theorem State.pour_congr {s u : State} (pours : u.pours = s.pours) (o t : Nat) : u.pour o t = s.pour o t := by
  unfold State.pour
  rw [pours]

/-- A change of a pour that keeps its identity is found under it. -/
theorem State.pour_modPour {f : Pour → Pour} (kept : ∀ p, (f p).origin = p.origin ∧ (f p).tag = p.tag) (o t : Nat) :
    (s.modPour o t f).pour o t = (s.pour o t).map f := by
  have same : (samePour o t ∘ fun p => if samePour o t p then f p else p) = samePour o t := by
    funext p
    simp only [Function.comp_apply]
    split
    · obtain ⟨origin, tag⟩ := kept p
      rw [samePour, origin, tag, samePour]
    · rfl
  rw [State.pour, State.modPour, List.find?_map, same]
  exact Option.map_congr fun p found => if_pos (List.find?_some found)

@[simp] theorem State.modPour_mix (o t : Nat) (f : Pour → Pour) : (s.modPour o t f).mix = s.mix := rfl

/-- The identities of the pours in the table. -/
def State.identities : List (Nat × Nat) := s.pours.live.map fun p => (p.origin, p.tag)

theorem State.mem_identities_iff {o t : Nat} : (o, t) ∈ s.identities ↔ ∃ p, s.pour o t = some p := by
  rw [← Option.isSome_iff_exists, State.pour, List.find?_isSome]
  simp [State.identities, samePour_iff]

/-! ### Messages to other devices (R353, R541, R772) -/

/-- `t` is `s` but for what waits on the links and the state of the pair. -/
def OnlySends (s t : State) : Prop := ∃ wl pair, t = { s with wl := wl, pair := pair }

theorem OnlySends.refl : OnlySends s s := ⟨_, _, rfl⟩

theorem OnlySends.trans {s t u : State} (a : OnlySends s t) (b : OnlySends t u) : OnlySends s u := by
  obtain ⟨_, _, rfl⟩ := a
  obtain ⟨_, _, rfl⟩ := b
  exact ⟨_, _, rfl⟩

section
variable {s} {t : State} (h : OnlySends s t)
include h

theorem OnlySends.units : t.units = s.units := by obtain ⟨_, _, rfl⟩ := h; rfl
theorem OnlySends.mix : t.mix = s.mix := by obtain ⟨_, _, rfl⟩ := h; rfl
theorem OnlySends.host : t.host = s.host := by obtain ⟨_, _, rfl⟩ := h; rfl
theorem OnlySends.pours : t.pours = s.pours := by obtain ⟨_, _, rfl⟩ := h; rfl

end

theorem OnlySends.sendPour (dev : Nat) (m : PourMsg) : OnlySends s (s.sendPour dev m) := by
  unfold State.sendPour State.sendCtrl
  split_ifs
  · exact ⟨_, _, rfl⟩
  · exact ⟨_, _, rfl⟩
  · exact .refl s

theorem OnlySends.sendPourToEach (l : List Nat) (m : PourMsg) : OnlySends s (s.each l fun dev t => t.sendPour dev m) :=
  State.each_keeps (OnlySends s) _ (fun dev t a => a.trans (.sendPour t dev m)) s l (.refl s)

theorem OnlySends.sendPair (m : PairMsg) : OnlySends s (s.sendPair m) := by
  unfold State.sendPair
  dsimp only
  split <;> exact ⟨_, _, rfl⟩

theorem OnlySends.mirrorOut (m : MirrorCmd) : OnlySends s (s.mirrorOut m) := by
  unfold State.mirrorOut
  split
  · exact (OnlySends.sendPair s { s.pairMsg 0x13 with seq := s.pair.mirrorOut, mirror := some m }).trans ⟨_, _, rfl⟩
  · exact .refl s

theorem OnlySends.reportArmed (p : Pour) : OnlySends s (s.reportArmed p) := by
  unfold State.reportArmed
  split
  · exact .refl s
  · exact .sendPour s _ _

/-! ### What counts and reports leave as it was -/

@[simp] theorem State.raise_pours (f : Fld) (v : Nat) : (s.raise f v).pours = s.pours := by
  unfold State.raise
  split <;> rfl

@[simp] theorem State.raise_mix (f : Fld) (v : Nat) : (s.raise f v).mix = s.mix := by
  unfold State.raise
  split <;> rfl

@[simp] theorem State.countLive_pours : s.countLive.pours = s.pours := by simp [State.countLive]
@[simp] theorem State.countLive_mix : s.countLive.mix = s.mix := by simp [State.countLive]

theorem SameMixing.countLive : SameMixing s s.countLive := (SameMixing.put s _ _).trans (.raise _ _ _)

theorem State.ringOf_lt (c : EvClass) : s.ringOf c < 4 := Nat.mod_lt _ (by omega)

theorem State.cmdRing_lt (h : CmdHdr) : s.cmdRing h < 4 := by
  unfold State.cmdRing
  split
  · exact Nat.mod_lt _ (by omega)
  · exact s.ringOf_lt _

/-! ### Acceptance (R338, R352) -/

/-- The state with one pour more in the table. -/
def State.joined (p : Pour) : State :=
  { s with pours := { s.pours with live := s.pours.live ++ [p], seen := (p.origin, p.tag) :: s.pours.seen } }

/-- A pour that no other device is to hear of is counted and, unless it is a dry run, mirrored to the standby. -/
theorem State.acceptPour_alone {p : Pour} (alone : ∀ d ∈ p.devs, d.dev = s.devnum) :
    s.acceptPour p = (s.joined p).countLive ∨ ∃ m, s.acceptPour p = (s.joined p).countLive.mirrorOut m := by
  have none : (p.devs.map (·.dev)).filter (· ≠ s.devnum) = [] := by simpa using alone
  simp only [State.acceptPour, none, List.isEmpty_nil, if_true]
  split_ifs
  · exact .inl rfl
  · exact .inr ⟨_, rfl⟩
  · exact .inr ⟨_, rfl⟩

/-- It joins the table; of the mixing state, the units and the host state nothing moves. -/
theorem State.acceptPour_spec {p : Pour} (alone : ∀ d ∈ p.devs, d.dev = s.devnum) :
    (s.acceptPour p).pours.live = s.pours.live ++ [p] ∧ SameMixing s (s.acceptPour p) := by
  have joined : SameMixing s (s.joined p) := ⟨rfl, rfl, rfl, rfl⟩
  have counted := joined.trans (.countLive _)
  have live : (s.joined p).countLive.pours.live = s.pours.live ++ [p] := by
    rw [State.countLive_pours]
    rfl
  rcases s.acceptPour_alone alone with accepted | ⟨m, accepted⟩ <;> rw [accepted]
  · exact ⟨live, counted⟩
  · exact ⟨(congrArg (·.live) (OnlySends.mirrorOut _ m).pours).trans live, counted.trans (.mirrorOut _ m)⟩

/-! ### Reports and the end of a pour (R370, R371) -/

/-- The originator has heard of a device. -/
def Pour.heardFrom (dev : Nat) (p : Pour) : Pour :=
  { p with devs := p.devs.map fun d => if d.dev = dev then { d with heard := true } else d }

/-- The originator has posted the report of a device. -/
def Pour.reported (dev : Nat) (st : Status) (applied : Bool) (p : Pour) : Pour :=
  { p with devs := p.devs.map fun d => if d.dev = dev then { d with heard := true, posted := some st, applied := applied } else d }

theorem Pour.device_heardFrom {p : Pour} {d : PourDev} (mem : d ∈ p.devs) :
    { d with heard := true } ∈ (p.heardFrom d.dev).devs :=
  List.mem_map.2 ⟨d, mem, if_pos rfl⟩

theorem Pour.device_reported {p : Pour} {d : PourDev} (mem : d ∈ p.devs) (st : Status) (applied : Bool) :
    { d with heard := true, posted := some st, applied := applied } ∈ (p.reported d.dev st applied).devs :=
  List.mem_map.2 ⟨d, mem, if_pos rfl⟩

@[simp] theorem State.closePour_mix (p : Pour) : (s.closePour p).mix = s.mix := by
  unfold State.closePour
  split
  · dsimp only
    split <;> split <;> rfl
  · rfl

theorem State.closePour_of_not_final {p : Pour} (open_ : phaseFinal p.phase = false) : s.closePour p = s := by
  simp [State.closePour, open_]

/-- A pour stays, or its identity leaves the table. -/
theorem State.closePour_stays_or_leaves (p : Pour) :
    s.closePour p = s ∨ (s.closePour p).pour p.origin p.tag = none := by
  have gone : (s.pours.live.filter fun q => !samePour p.origin p.tag q).find? (samePour p.origin p.tag) = none := by
    simp [List.find?_eq_none]
  unfold State.closePour
  split
  · refine .inr ?_
    dsimp only
    split <;> split <;> exact gone
  · exact .inl rfl

@[simp] theorem State.pourReport_mix (p : Pour) (dev : Nat) (st : Status) (flags si detail : Nat) (applied : Bool) :
    (s.pourReport p dev st flags si detail applied).mix = s.mix := by
  unfold State.pourReport
  dsimp only
  split <;> simp

@[simp] theorem State.endPour_mix (p : Pour) (ph : PourPhase) (st : Status) (detail : Nat) :
    (s.endPour p ph st detail).mix = s.mix := by
  have sent (t : State) (dev : Nat) (m : PourMsg) : (t.sendPour dev m).mix = t.mix := (OnlySends.sendPour t dev m).mix
  cases ph <;> simp only [State.endPour] <;> split <;> simp [apply_ite State.mix, sent]

theorem State.pourReport_units (p : Pour) (dev : Nat) (st : Status) (flags si detail : Nat) (applied : Bool) :
    (s.pourReport p dev st flags si detail applied).units = s.units :=
  State.units_of_standing (s.standing_pourReport p dev st flags si detail applied)

/-- The state in which the report of a device is posted. -/
def State.postReport (p : Pour) (dev : Nat) (st : Status) (flags si detail : Nat) : State :=
  s.postTo (match p.hdr with | some h => s.cmdRing h | none => s.ringOf .other)
    { code := 2, status := st, tag := p.tag, si := si, body := [p.tag, dev, st.code, flags, si, detail] } none

theorem State.postReport_pours (p : Pour) (dev : Nat) (st : Status) (flags si detail : Nat) :
    (s.postReport p dev st flags si detail).pours = s.pours := by
  refine (SameButHost.postTo s _ _ _ ?_).pours
  split
  · exact s.cmdRing_lt _
  · exact s.ringOf_lt _

section
variable {s} {p q : Pour} (found : s.pour p.origin p.tag = some q) (dev : Nat) (st : Status) (flags si detail : Nat) (applied : Bool)
include found

theorem State.pour_noteReport :
    ((s.postReport p dev st flags si detail).modPour p.origin p.tag (Pour.reported dev st applied)).pour p.origin p.tag =
      some (q.reported dev st applied) := by
  rw [State.pour_modPour _ (f := Pour.reported dev st applied) fun _ => ⟨rfl, rfl⟩,
    State.pour_congr (s.postReport_pours p dev st flags si detail), found]
  rfl

theorem State.pourReport_eq : s.pourReport p dev st flags si detail applied =
    ((s.postReport p dev st flags si detail).modPour p.origin p.tag (Pour.reported dev st applied)).closePour
      (q.reported dev st applied) := by
  have noted := State.pour_noteReport found dev st flags si detail applied
  simp only [State.pourReport]
  split
  next x here => rw [Option.some.inj (here.symm.trans noted)]; rfl
  next none => cases none.symm.trans noted

/-- A pour that goes on is in the table with the report. -/
theorem State.pour_pourReport_of_not_final (going : phaseFinal q.phase = false) :
    (s.pourReport p dev st flags si detail applied).pour p.origin p.tag = some (q.reported dev st applied) := by
  rw [State.pourReport_eq found, State.closePour_of_not_final _ (p := q.reported dev st applied) going,
    State.pour_noteReport found]

/-- A pour that is still in the table after a report has the report. -/
theorem State.eq_reported_of_pour {x : Pour} (here : (s.pourReport p dev st flags si detail applied).pour p.origin p.tag = some x) :
    x = q.reported dev st applied := by
  have noted := State.pour_noteReport found dev st flags si detail applied
  obtain ⟨origin, tag⟩ := State.identity_of_pour noted
  rw [State.pourReport_eq found] at here
  rcases State.closePour_stays_or_leaves _ (q.reported dev st applied) with stays | leaves
  · rw [stays, noted] at here
    exact (Option.some.inj here).symm
  · rw [origin, tag, here] at leaves
    cases leaves

end

end Sys2Proof.Machine
end

