-- ==== Sys2Proof/Proofs/PourLife.lean ====
section
/-! PROOF. The life of a pour on this engine: POUR, the end of its compilation, its start, and its cancel (R337–R348, R360–R368). -/

namespace Sys2Proof.Machine

variable (s : State)

/-! ### POUR (R337–R340) -/

/-- The pour that a request for this device alone makes. -/
def State.ownPour (h : CmdHdr) (r : PourReq) : Pour :=
  { origin := s.devnum, tag := h.tag, issue := (s.dom 0).si, t := if h.target = 0 then s.earliest 0 else h.target,
    soon := decide (h.target = 0), scene := r.scene, runs := r.runs, endSi := r.endSi, ramp := r.ramp, law := r.law,
    strict := r.policy == 2 || (r.policy == 0 && s.bit Reg.SCHED_POUR_CFG_STRICT), dryRun := r.dryRun, hdr := some h,
    completes := true, devs := if r.dryRun then [] else [{ dev := s.devnum }] }

/-- An explicit list for this device alone is taken (R337, R338): the lead time of R350 holds back only a strict pour that has an SI. -/
theorem State.originate_alone {s : State} {h : CmdHdr} {r : PourReq} (explicit_ : r.scene = 0xFFFF) (alone : r.devsel = 0)
    (timing : h.target = 0 ∨ r.policy = 1) (endless : r.endSi = none) (single : s.get Reg.PAIR_CFG_EN ≠ 1) (room : s.liveCount < 64)
    (free : ∀ p ∈ s.pours.live, p.origin = s.devnum → p.tag = h.tag → phaseFinal p.phase = true) :
    s.originate r h.tag h.target (some h) r.dryRun = .ok (s.acceptPour (s.ownPour h r)) := by
  have fresh : (s.pours.live.any fun p => p.origin == s.devnum && p.tag == h.tag && !phaseFinal p.phase) = false := by
    simpa using fun p mem origin tag => free p mem origin tag
  have inTime : ((r.policy == 2 || (r.policy == 0 && s.bit Reg.SCHED_POUR_CFG_STRICT)) && !decide (h.target = 0)) = false := by
    rcases timing with zero | policy
    · simp [zero]
    · simp [policy]
  simp [State.originate, State.ownPour, State.pourDevices, State.pourRuns, explicit_, alone, endless, single, Nat.not_le.2 room, fresh,
    inTime]

section
variable {s} {h : CmdHdr} {r : PourReq} (reserved : r.reservedOk = true) (law : r.law ≤ 2) (policy : r.policy ≤ 2)
  (number : r.templateNo ≤ 63) (explicit_ : r.scene = 0xFFFF) (alone : r.devsel = 0)
  (window : s.windowOk r.listAddr r.listLen false = true)
include reserved law policy number explicit_ alone window

theorem exec_pour_template (template : r.template = true) (active : s.standby = false) :
    exec (.pour h r) s = .next (State.finish { s with pours := { s.pours with
      templates := Tab.put none s.pours.templates r.templateNo (some (h, r)) } } h 0x0200 .ok 0 0 0) := by
  show execPour h r s = _
  simp [execPour, reserved, Nat.not_lt.2 law, Nat.not_lt.2 policy, Nat.not_lt.2 number, explicit_, alone, window, template, active,
    State.ok]

theorem exec_pour_originates (now : r.template = false) {t : State}
    (taken : s.originate r h.tag h.target (some h) r.dryRun = .ok t) : exec (.pour h r) s = .next t := by
  show execPour h r s = _
  simp [execPour, reserved, Nat.not_lt.2 law, Nat.not_lt.2 policy, Nat.not_lt.2 number, explicit_, alone, window, now, taken]

end

/-! ### What compilation leaves as it was (R341–R348) -/

/-- `t` has the units of `s`, and in its table pours of the same identities. -/
structure SameRoster (s t : State) : Prop where
  units : t.units = s.units
  identities : t.identities = s.identities

theorem SameRoster.trans {s t u : State} (a : SameRoster s t) (b : SameRoster t u) : SameRoster s u :=
  ⟨b.units.trans a.units, b.identities.trans a.identities⟩

theorem SameRoster.put (f : Fld) (v : Nat) : SameRoster s (s.put f v) := ⟨rfl, rfl⟩
theorem SameRoster.bumpBy (f : Fld) (n : Nat) : SameRoster s (s.bumpBy f n) := .put s f _
theorem SameRoster.modMix (f : MixSt → MixSt) : SameRoster s (s.modMix f) := ⟨rfl, rfl⟩

theorem SameRoster.raise (f : Fld) (v : Nat) : SameRoster s (s.raise f v) := by
  unfold State.raise
  split
  · exact .put s f v
  · exact ⟨rfl, rfl⟩

theorem SameRoster.showSeq (l : List Change) : SameRoster s (s.showSeq l) :=
  State.each_keeps (SameRoster s) _ (fun _ t a => a.trans ((SameRoster.put t _ _).trans (.raise _ _ _))) s _ ⟨rfl, rfl⟩

/-- A pour whose change a crossfade moves counts one delayed item more (R105). -/
theorem SameRoster.addFades (fs : List Crossfade) : SameRoster s (s.addFades fs) := by
  unfold State.addFades
  dsimp only
  refine State.each_keeps (SameRoster s) _ (fun v t a => ?_) _ _ (.modMix s _)
  refine a.trans ⟨rfl, ?_⟩
  simp only [State.identities, List.map_map]
  refine List.map_congr_left fun p _ => ?_
  simp only [Function.comp_apply]
  split <;> rfl

theorem SameRoster.commitPlan (p : Plan) : SameRoster s (s.commitPlan p) :=
  ((((SameRoster.modMix s _).trans (.addFades _ p.fades)).trans (.showSeq _ p.entries)).trans (.bumpBy _ _ _)).trans (.bumpBy _ _ _)

theorem SameRoster.commitPatches {s u : State} {l : List PlannedPatch} {order : Nat} {pour : Option (Nat × Nat)} {waiters : List Nat}
    (made : s.commitPatches l order pour waiters = .ok u) : SameRoster s u := by
  unfold State.commitPatches at made
  split at made
  · cases made
  · dsimp only at made
    split at made
    · cases made
    · split at made <;> cases made
      exact (SameRoster.modMix s _).trans (.addFades _ _)

theorem SameRoster.compile {s u : State} {p : Pour} {n : Nat} (made : s.compile p = .ok (u, n)) : SameRoster s u := by
  unfold State.compile at made
  split at made
  · cases made
  · split at made
    · cases made
    · dsimp only at made
      split at made
      · cases made
      next q planned =>
        split at made
        · cases made
        next t patched =>
          split at made <;> cases made
          exact ((((SameRoster.commitPlan s q).trans (.commitPatches patched)).trans (.modMix t _)).trans (.addFades _ _)).trans
            (.bumpBy _ _ _)

/-! ### POUR_COMPILE_DONE (R348, R363) -/

/-- The pour as it is to start: as it stands where it is in time, else at the earliest block. -/
def State.timed (p : Pour) : Pour :=
  if s.pourLate p then (if p.soon then p.at_ (s.earliest 0) else p.moved (s.earliest 0)) else p

/-- A compiled pour armed to start as `q` says. -/
def Pour.armedAs (q : Pour) (delayed : Nat) (x : Pour) : Pour :=
  { x with t := q.t, endSi := q.endSi, late := q.late, delayed := delayed, phase := .armed }

/-- The state with a compiled pour armed to start as `q` says, and its arming reported to its originator (R356). -/
def State.arm (p q : Pour) (delayed : Nat) : State := (s.modPour p.origin p.tag (Pour.armedAs q delayed)).reportArmed p

/-- An armed pour is in the table with its SI. -/
theorem State.pour_arm {u : State} {p : Pour} (listed : (p.origin, p.tag) ∈ u.identities) (q : Pour) (n : Nat) :
    ((u.arm p q n).pour p.origin p.tag).map (fun x => (x.phase, x.t, x.late)) = some (.armed, q.t, q.late) := by
  obtain ⟨x, found⟩ := u.mem_identities_iff.1 listed
  rw [State.arm, State.pour_congr (OnlySends.reportArmed _ p).pours, State.pour_modPour _ (f := Pour.armedAs q n) fun _ => ⟨rfl, rfl⟩,
    found]
  rfl

section
variable {s} {p : Pour} (first : s.pours.live.find? (fun p => p.phase == .compiling) = some p) (kept : p.cancel = none)
  (real : p.dryRun = false)
include first kept real

theorem exec_pourCompileDone_tooLate (late : (s.timed p).late = true) (strict : p.strict = true) :
    exec .pourCompileDone s = .next (s.endPour p .refused .refused 0) := by
  show execPourCompileDone s = _
  rw [State.timed] at late
  simp [execPourCompileDone, first, kept, real, late, strict]

section
variable {q : Pour} (timed : s.timed p = q) (startable : (q.late && p.strict) = false)
include timed startable

theorem exec_pourCompileDone_arms {u : State} {n : Nat} (compiled : s.compile q = .ok (u, n)) :
    exec .pourCompileDone s = .next (u.arm p q n) := by
  subst timed
  show execPourCompileDone s = _
  rw [State.timed] at compiled startable ⊢
  simp only [execPourCompileDone, first, kept, real, startable, compiled, Option.filter_none, Bool.false_eq_true, if_false]
  rfl

theorem exec_pourCompileDone_fails {st : Status} {k : Nat} (failed : s.compile q = .error (st, k)) :
    exec .pourCompileDone s = .next (s.endPour p .refused st k) := by
  subst timed
  show execPourCompileDone s = _
  rw [State.timed] at failed startable
  simp only [execPourCompileDone, first, kept, real, startable, failed, Option.filter_none, Bool.false_eq_true, if_false]

/-- Compilation that passes arms the pour with the mixing state of its plan. -/
theorem exec_pourCompileDone_armed {u : State} {n : Nat} (compiled : s.compile q = .ok (u, n)) :
    ∃ t, exec .pourCompileDone s = .next t ∧ t.mix = u.mix ∧ t.units = s.units ∧
      (t.pour p.origin p.tag).map (fun x => (x.phase, x.t, x.late)) = some (.armed, q.t, q.late) := by
  have roster := SameRoster.compile compiled
  have listed : (p.origin, p.tag) ∈ u.identities :=
    roster.identities ▸ List.mem_map_of_mem (List.mem_of_find?_eq_some first)
  have sent := OnlySends.reportArmed (u.modPour p.origin p.tag (Pour.armedAs q n)) p
  exact ⟨_, exec_pourCompileDone_arms first kept real timed startable compiled, sent.mix, sent.units.trans roster.units,
    State.pour_arm listed _ _⟩

end

end

/-! ### POUR_START (R361, R363) -/

/-- A pour that runs from an SI. -/
def Pour.startedAt (si : Nat) (x : Pour) : Pour := { x with phase := .running, startSi := si }

theorem Pour.cancelledBy_eq_false_iff {p : Pour} {t : Nat} : p.cancelledBy t = false ↔ ∀ c ∈ p.cancel, t < c.1 := by
  unfold Pour.cancelledBy
  cases p.cancel <;> simp

/-- The start of a pour is due, and no cancel has reached it. -/
def State.startDue (p : Pour) : Prop := p.phase = .armed ∧ p.t < s.earliest 0 ∧ ∀ c ∈ p.cancel, p.t < c.1

section
variable {s} {o : BitVec 16} {n : BitVec 32} {p : Pour} (known : s.pour o.toNat n.toNat = some p)
include known

theorem exec_pourStart_waits (notDue : ¬s.startDue p) : exec (.pourStart o n) s = .next s := by
  rw [State.startDue, ← Pour.cancelledBy_eq_false_iff] at notDue
  show execPourStart o n s = _
  simp only [execPourStart, known, notDue, if_false]

theorem exec_pourStart_runs (due : s.startDue p) : ∃ t, exec (.pourStart o n) s = .next t ∧ t.mix = s.mix ∧ t.units = s.units ∧
    t.pour o.toNat n.toNat = some (p.startedAt p.t) := by
  obtain ⟨origin, tag⟩ := State.identity_of_pour known
  rw [State.startDue, ← Pour.cancelledBy_eq_false_iff] at due
  let started := s.modPour o.toNat n.toNat (Pour.startedAt p.t)
  have run : exec (.pourStart o n) s =
      .next (if p.late || p.delayed != 0 then started.bump Reg.SCHED_POUR_LATE_CNT_COUNT else started) := by
    show execPourStart o n s = _
    simp only [execPourStart, known, due, origin, tag]
    rfl
  have found : started.pour o.toNat n.toNat = some (p.startedAt p.t) := by
    rw [State.pour_modPour s (f := Pour.startedAt p.t) fun _ => ⟨rfl, rfl⟩, known]
    rfl
  refine ⟨_, run, ?_⟩
  split <;> exact ⟨rfl, rfl, found⟩

end

/-! ### POUR_CANCEL and POUR_CANCEL_APPLY (R365–R368) -/

/-- Of a removed pour no entry is left but those that have been applied, and no patch change or swap (R366). -/
theorem State.removePour_spec (o t : Nat) :
    (∀ e ∈ (s.removePour o t).mix.changes, e.pour = some (o, t) → e.applied = true) ∧
      (∀ e ∈ (s.removePour o t).mix.patchChanges, e.pour ≠ some (o, t)) ∧
      ∀ e ∈ (s.removePour o t).mix.swaps, e.pour ≠ some (o, t) := by
  refine ⟨fun e mem own => ?_, fun e mem => ?_, fun e mem => ?_⟩
  · simpa [own] using (List.mem_filter.1 mem).2
  · simpa using (List.mem_filter.1 mem).2
  · simpa using (List.mem_filter.1 mem).2

theorem State.withdraw_mix (p : Pour) (c : Nat) :
    (s.withdraw p c).mix = if p.phase = .armed ∧ c ≤ p.t then (s.removePour p.origin p.tag).mix else s.mix :=
  apply_ite State.mix ..

/-- The SI of a cancel: its own, or the earliest block where that is later (R365). -/
theorem cancelSi_eq_max (target earliest : Nat) :
    (if target = 0 ∨ target < earliest then earliest else target) = max target earliest := by
  split <;> omega

/-- A pour whose cancel waits. -/
def Pour.cancelAt (c : Nat × Option CmdHdr × Bool) (x : Pour) : Pour := { x with cancel := some c }

/-- The cancel of a command: its SI, its descriptor, and whether it came late. -/
def State.cancelOf (h : CmdHdr) : Nat × Option CmdHdr × Bool :=
  (max h.target (s.earliest 0), some h, decide (h.target ≠ 0 ∧ h.target < s.earliest 0))

/-- A pour that is cancelled: what of it waits is taken out, and the cancel is noted. -/
def State.noteCancel (p : Pour) (h : CmdHdr) : State :=
  (s.withdraw p (max h.target (s.earliest 0))).modPour p.origin p.tag (Pour.cancelAt (s.cancelOf h))

section
variable {s} {h : CmdHdr} {n : Nat} (active : s.standby = false)
include active

theorem exec_pourCancel_unknown (unknown : s.pour s.devnum n = none) : exec (.pourCancel h n) s =
    .next (if s.pours.finished.contains (s.devnum, n) then s.finish h 0x0201 .empty 0 0 0 else s.finish h 0x0201 .refused 16 0 0) := by
  show execPourCancel h n s = _
  simp only [execPourCancel, active, unknown, Bool.false_eq_true, if_false]
  split <;> rfl

variable {p : Pour} (known : s.pour s.devnum n = some p)
include known

theorem exec_pourCancel_empty (closed : phaseFinal p.phase = true ∨ p.cancel.isSome = true) :
    exec (.pourCancel h n) s = .next (s.finish h 0x0201 .empty 0 0 0) := by
  show execPourCancel h n s = _
  simp only [execPourCancel, active, known, Bool.or_eq_true, closed, Bool.false_eq_true, if_false, if_true]

/-- A cancel is noted, sent to the devices of the pour and mirrored. -/
theorem exec_pourCancel_notes (lives : phaseFinal p.phase = false) (first : p.cancel = none) :
    ∃ t, exec (.pourCancel h n) s = .next t ∧ OnlySends (s.noteCancel p h) t := by
  let m : PourMsg := { kind := 2, origin := p.origin, tag := p.tag, issue := p.issue, si := max h.target (s.earliest 0),
                       rate := (s.dom 0).rate }
  have sent := OnlySends.sendPourToEach (s.noteCancel p h) ((p.devs.map (·.dev)).filter (· ≠ s.devnum)) m
  refine ⟨_, ?_, sent.trans (.mirrorOut _ (.pour m []))⟩
  show execPourCancel h n s = _
  simp only [execPourCancel, active, known, lives, first, cancelSi_eq_max, Option.isSome_none, Bool.or_self, Bool.false_eq_true,
    if_false]
  rfl

end

theorem State.units_noteCancel (p : Pour) (h : CmdHdr) : (s.noteCancel p h).units = s.units :=
  (apply_ite State.units ..).trans (ite_self _)

theorem State.mix_noteCancel (p : Pour) (h : CmdHdr) : (s.noteCancel p h).mix =
    if p.phase = .armed ∧ max h.target (s.earliest 0) ≤ p.t then (s.removePour p.origin p.tag).mix else s.mix :=
  s.withdraw_mix p _

theorem State.pour_noteCancel {s : State} {p : Pour} (known : s.pour p.origin p.tag = some p) (h : CmdHdr) :
    (s.noteCancel p h).pour p.origin p.tag = some (p.cancelAt (s.cancelOf h)) := by
  have pours : (s.withdraw p (max h.target (s.earliest 0))).pours = s.pours := (apply_ite State.pours ..).trans (ite_self _)
  rw [State.noteCancel, State.pour_modPour _ (f := Pour.cancelAt (s.cancelOf h)) fun _ => ⟨rfl, rfl⟩, State.pour_congr pours, known]
  rfl

/-- The cancel of a pour has been applied. -/
def Pour.cancelTaken (x : Pour) : Pour := { x with cancelled := true, cancel := none }

/-- An armed pour that a cancel ends: nothing of it is left to apply (R366). -/
def State.cancelArmed (p : Pour) : State :=
  ((s.removePour p.origin p.tag).modPour p.origin p.tag Pour.cancelTaken).endPour p .cancelled .aborted 0

theorem State.mix_cancelArmed (p : Pour) : (s.cancelArmed p).mix = (s.removePour p.origin p.tag).mix := by
  rw [State.cancelArmed, State.endPour_mix, State.modPour_mix]

theorem State.units_cancelArmed (p : Pour) : (s.cancelArmed p).units = s.units := by
  refine State.units_of_standing ?_
  rw [State.cancelArmed, State.standing_endPour, State.standing_modPour]
  exact s.standing_modMix _

theorem exec_pourCancelApply_ends {s : State} {o : BitVec 16} {n : BitVec 32} {p : Pour} {c : Nat} {h : CmdHdr} {late : Bool}
    (known : s.pour o.toNat n.toNat = some p) (cancelled : p.cancel = some (c, some h, late)) (armed : p.phase = .armed)
    (before : c ≤ p.t) : exec (.pourCancelApply o n) s =
      .next ((s.cancelArmed p).finish h 0x0201 (if late then .late else .ok) 0 c 0) := by
  show execPourCancelApply o n s = _
  simp only [execPourCancelApply, known, cancelled, armed, before, if_true]
  rfl

/-- Settles O30: what a command accepts, arms, runs or cancels is said by the lemma of its case above; that compilation leaves the units
and the identities of the pours is `SameRoster.compile`. -/
theorem pourLife : Obligations.PourLife := by
  unfold Obligations.PourLife
  refine ⟨fun h r s reserved law policy number explicit_ alone window => ⟨fun template active => ?_,
      fun now timing endless single room free => ?_⟩,
    fun s p first kept real onTime => ⟨fun inTime => ?_, fun late soon lenient => ?_, fun late soon strict => ?_⟩,
    fun o n s p known => ⟨fun armed due reached => ?_, exec_pourStart_waits known, fun c h late cancelled armed before => ?_⟩,
    fun h n s p active known => ⟨fun lives first => ?_, exec_pourCancel_empty active known⟩,
    fun h n s active unknown => exec_pourCancel_unknown active unknown⟩
  · exact exec_pour_template reserved law policy number explicit_ alone window template active
  · have taken := State.originate_alone explicit_ alone timing endless single room free
    have own : ∀ d ∈ (s.ownPour h r).devs, d.dev = s.devnum := by
      unfold State.ownPour
      split <;> simp
    obtain ⟨live, same⟩ := s.acceptPour_spec own
    exact ⟨_, _, exec_pour_originates reserved law policy number explicit_ alone window now taken, live, rfl, rfl, rfl, rfl, rfl, rfl,
      same.mix, same.units, same.host⟩
  · have timed : s.timed p = p := if_neg (by simp [inTime])
    have startable : (p.late && p.strict) = false := by simp [onTime]
    exact ⟨fun _ _ => exec_pourCompileDone_armed first kept real timed startable,
      fun _ _ => exec_pourCompileDone_fails first kept real timed startable⟩
  · have timed : s.timed p = p.moved (s.earliest 0) := by simp [State.timed, late, soon]
    have startable : ((p.moved (s.earliest 0)).late && p.strict) = false := by simp [lenient]
    exact ⟨fun _ _ => exec_pourCompileDone_armed first kept real timed startable,
      fun _ _ => exec_pourCompileDone_fails first kept real timed startable⟩
  · have timed : s.timed p = p.moved (s.earliest 0) := by simp [State.timed, late, soon]
    exact exec_pourCompileDone_tooLate first kept real (by rw [timed]; rfl) strict
  · obtain ⟨t, run, mix, units, found⟩ := exec_pourStart_runs known ⟨armed, due, reached⟩
    exact ⟨t, run, mix, units, by rw [found]; rfl, by rw [found]; rfl⟩
  · obtain ⟨changes, patchChanges, swaps⟩ := s.removePour_spec p.origin p.tag
    rw [← s.mix_cancelArmed p] at changes patchChanges swaps
    exact ⟨_, exec_pourCancelApply_ends known cancelled armed before, s.units_cancelArmed p, changes, patchChanges, swaps,
      List.mem_append_right _ (List.mem_singleton.2 rfl)⟩
  · obtain ⟨t, run, sent⟩ := exec_pourCancel_notes (h := h) active known lives first
    obtain ⟨origin, tag⟩ := State.identity_of_pour known
    rw [← origin, ← tag] at known
    have noted := State.pour_noteCancel known h
    rw [origin, tag] at noted
    refine ⟨t, run, sent.mix.trans (s.mix_noteCancel p h), sent.units.trans (s.units_noteCancel p h), ?_⟩
    rw [State.pour_congr sent.pours, noted]
    rfl

end Sys2Proof.Machine
end

