-- ==== Sys2Proof/Proofs/PourMessages.lean ====
section
/-! PROOF. The messages of pours between devices: their receipt, reports, resends and time-outs (R353–R356, R370). -/

namespace Sys2Proof.Machine

/-! ### POUR_MESSAGE_RECEIVED (R353–R356) -/

/-- A peer's pour of a scene held here, seen for the first time, is accepted (R353, R356). -/
theorem exec_pourMessageReceived_accepts {s : State} {m : PourMsg} {sc : SceneImage} (member : Tab.get 0 s.wl.members m.origin ≠ 0)
    (kind : m.kind = 1) (fresh : s.pours.seen.contains (m.origin, m.tag) = false) (room : s.liveCount < 64)
    (scene : Tab.get none s.pours.library m.scene = some sc) :
    exec (.pourMessageReceived m true) s = .next (s.acceptPour (s.peerPour m sc.runs)) := by
  show execPourMessageReceived m true s = _
  simp only [execPourMessageReceived, member, kind, scene, Nat.not_le.2 room, fresh, Bool.not_true, Bool.false_eq_true, if_false,
    if_true]

/-! ### POUR_REPORT_MESSAGE (R356, R370) -/

/-- The status that a final report gives its device: ABORTED for a cancelled pour. -/
def finalStatus (m : PourMsg) : Status := if m.pstate = 4 then .aborted else m.status

section
variable {s : State} {m : PourMsg} {p : Pour} {dev : BitVec 16} {d : PourDev}
  (kind : m.kind = 3) (here : m.origin = s.devnum) (known : s.pour m.origin m.tag = some p)
  (addressed : p.devs.find? (fun d => d.dev == dev.toNat) = some d)
include kind here known addressed

/-- A report that is not final notes that its device has been heard. -/
theorem exec_pourReportMessage_interim (interim : m.pstate < 3) :
    exec (.pourReportMessage dev m true) s = .next (s.modPour m.origin m.tag (Pour.heardFrom dev.toNat)) := by
  obtain ⟨origin, tag⟩ := State.identity_of_pour known
  show execPourReportMessage dev m true s = _
  simp only [execPourReportMessage, Bool.not_true, Bool.false_eq_true, kind, here, ne_eq, not_true, or_self, if_false]
  rw [← here, known]
  simp only [addressed, interim, true_or, if_true, origin, tag]
  rfl

/-- A final one is posted as the report of its device. -/
theorem exec_pourReportMessage_final (awaited : d.posted = none)
    (final : 3 ≤ m.pstate) : exec (.pourReportMessage dev m true) s =
      .next ((s.modPour m.origin m.tag (Pour.heardFrom dev.toNat)).pourReport p dev.toNat (finalStatus m)
        (if m.pstate = 4 then 2 else 0) (if m.si = 0 then 0 else s.fromPeer m.si m.rate) 0 (m.si != 0)) := by
  obtain ⟨origin, tag⟩ := State.identity_of_pour known
  show execPourReportMessage dev m true s = _
  simp only [execPourReportMessage, Bool.not_true, Bool.false_eq_true, kind, here, ne_eq, not_true, or_self, if_false]
  rw [← here, known]
  simp only [addressed, awaited, Nat.not_lt.2 final, Option.isSome_none, Bool.false_eq_true, or_self, if_false, origin, tag]
  rfl

end

/-! ### POUR_MESSAGE_RESEND and POUR_REPORT_TIMEOUT (R356, R370) -/

section
variable {s : State} {n : BitVec 32} {dev : BitVec 16} {p : Pour} {d : PourDev} (known : s.pour s.devnum n.toNat = some p)
  (mem : d ∈ p.devs) (same : d.dev = dev.toNat)
include known mem same

theorem exec_pourMessageResend_sends (network : s.route dev.toNat = 4) (early : (s.dom 0).si ≤ p.t) (unheard : d.heard = false) :
    exec (.pourMessageResend n dev) s = .next (s.sendPour dev.toNat (s.pourMessage p)) := by
  have waits : (p.devs.any fun d => d.dev == dev.toNat && !d.heard) = true :=
    List.any_eq_true.2 ⟨d, mem, by simp [same, unheard]⟩
  show execPourMessageResend n dev s = _
  simp only [execPourMessageResend, known, network, early, waits, and_self, if_true]

theorem exec_pourReportTimeout_gives_up (awaited : d.posted = none) (other : dev.toNat ≠ s.devnum) :
    exec (.pourReportTimeout n dev) s = .next (s.pourReport p dev.toNat .aborted 1 0 0 false) := by
  have waits : (p.devs.any fun d => d.dev == dev.toNat && d.posted.isNone && d.dev != s.devnum) = true :=
    List.any_eq_true.2 ⟨d, mem, by simp [same, awaited, other]⟩
  show execPourReportTimeout n dev s = _
  simp only [execPourReportTimeout, known, waits, if_true]

end

/-- Settles O31: a message is accepted as `State.acceptPour_spec` says, a report noted by `Pour.heardFrom` and posted by
`Pour.reported`; what a posted report leaves in the table is `State.pour_pourReport_of_not_final` and
`State.eq_reported_of_pour`. -/
theorem pourMessages : Obligations.PourMessages := by
  unfold Obligations.PourMessages
  refine ⟨fun m s => ⟨rfl, fun member kind fresh room sc scene => ?_⟩,
    fun dev m s p d kind here known addressed awaited => ⟨rfl, ?_⟩, fun n dev s p d known mem same =>
    ⟨exec_pourMessageResend_sends known mem same, fun awaited other => ?_⟩⟩
  · obtain ⟨live, kept⟩ := s.acceptPour_spec (p := s.peerPour m sc.runs) nofun
    exact ⟨_, exec_pourMessageReceived_accepts member kind fresh room scene, live, kept.mix, kept.units, kept.host⟩
  · have heard : (s.modPour m.origin m.tag (Pour.heardFrom dev.toNat)).pour m.origin m.tag = some (p.heardFrom dev.toNat) := by
      rw [State.pour_modPour s (f := Pour.heardFrom dev.toNat) fun _ => ⟨rfl, rfl⟩, known]
      rfl
    have isDev : d.dev = dev.toNat := eq_of_beq (List.find?_some addressed :)
    have among : { d with heard := true } ∈ (p.heardFrom dev.toNat).devs :=
      isDev ▸ Pour.device_heardFrom (List.mem_of_find?_eq_some addressed)
    by_cases interim : m.pstate < 3
    · refine ⟨_, exec_pourReportMessage_interim kind here known addressed interim, rfl, rfl, fun _ => ?_, fun q found => ?_⟩
      · rw [heard]
        rfl
      · cases heard.symm.trans found
        exact ⟨_, among, isDev, rfl, by rw [if_pos interim, awaited]⟩
    · have run := exec_pourReportMessage_final kind here known addressed awaited (Nat.not_lt.1 interim)
      obtain ⟨origin, tag⟩ := State.identity_of_pour known
      rw [← origin, ← tag] at heard run ⊢
      refine ⟨_, run, State.pourReport_mix .., State.pourReport_units .., fun going => ?_, fun q found => ?_⟩
      · rw [State.pour_pourReport_of_not_final heard _ _ _ _ _ _ going]
        rfl
      · rw [State.eq_reported_of_pour heard _ _ _ _ _ _ found, if_neg interim]
        have noted := Pour.device_reported among (finalStatus m) (m.si != 0)
        rw [isDev] at noted
        exact ⟨_, noted, rfl, rfl, apply_ite ..⟩
  · obtain ⟨origin, tag⟩ := State.identity_of_pour known
    have run := exec_pourReportTimeout_gives_up known mem same awaited other
    rw [← origin, ← tag] at known ⊢
    refine ⟨_, run, State.pourReport_mix .., State.pourReport_units .., fun going => ?_, fun q found => ?_⟩
    · rw [State.pour_pourReport_of_not_final known _ _ _ _ _ _ going]
      rfl
    · rw [State.eq_reported_of_pour known _ _ _ _ _ _ found]
      have noted := Pour.device_reported mem .aborted false
      rw [same] at noted
      exact ⟨_, noted, rfl, rfl⟩

end Sys2Proof.Machine
end

