-- ==== Sys2Proof/Proofs/RegisterFrames.lean ====
section
/-! SUPPORT. Which registers an operation can write, what the bits of a mask read as once one is cleared, and the state of a media
PLL. -/

namespace Sys2Proof

/-- A register outside the HOST block that is none of `l`. -/
abbrev Fld.FreeOf (l : List Fld) (f : Fld) : Prop := f.lo < 32 ∧ f.outsideHost ∧ ∀ g ∈ l, f.key ≠ g.key

theorem Fld.FreeOf.mono {l m : List Fld} {f : Fld} (sub : l ⊆ m) (free : f.FreeOf m) : f.FreeOf l :=
  ⟨free.1, free.2.1, fun g mem => free.2.2 g (sub mem)⟩

end Sys2Proof

namespace Sys2Proof.Machine

variable {s t u : State}

/-! ### Registers that stay -/

/-- Outside the HOST block `t` differs from `s` in no register but those of `l`. -/
def WritesOnly (l : List Fld) (s t : State) : Prop := ∀ f : Fld, f.FreeOf l → t.get f = s.get f

variable {l : List Fld}

theorem WritesOnly.of_regs (regs : t.regs = s.regs) : WritesOnly l s t := fun f _ => State.get_of_regs regs f

theorem WritesOnly.refl : WritesOnly l s s := .of_regs rfl

theorem WritesOnly.trans (a : WritesOnly l s t) (b : WritesOnly l t u) : WritesOnly l s u :=
  fun f free => (b f free).trans (a f free)

theorem WritesOnly.mono {m : List Fld} (sub : l ⊆ m) (h : WritesOnly l s t) : WritesOnly m s t := fun f free => h f (free.mono sub)

theorem WritesOnly.put {g : Fld} (mem : g ∈ l) (v : Nat) : WritesOnly l s (s.put g v) :=
  fun _ ⟨_, _, apart⟩ => State.get_put_ne s (apart g mem) v

theorem WritesOnly.modMpll (n : Nat) (f : MpllSt → MpllSt) : WritesOnly l s (s.modMpll n f) := .of_regs rfl

theorem WritesOnly.host (h : SameButHost s t) : WritesOnly l s t := fun f ⟨lo, outside, _⟩ => h.get f lo outside

theorem WritesOnly.each {α : Type} {xs : List α} {f : α → State → State} (h : ∀ x ∈ xs, ∀ t, WritesOnly l t (f x t)) :
    WritesOnly l s (s.each xs f) :=
  State.each_keeps_mem (WritesOnly l s) f s xs (fun x mem t kept => kept.trans (h x mem t)) .refl

theorem WritesOnly.ite {c : Prop} [Decidable c] (a : WritesOnly l s t) (b : WritesOnly l s u) :
    WritesOnly l s (if c then t else u) := by
  split
  · exact a
  · exact b

theorem WritesOnly.bit (h : WritesOnly l s t) {f : Fld} (free : f.FreeOf l) : t.bit f = s.bit f := by
  unfold State.bit
  rw [h f free]

/-! ### Bits and masks -/

theorem State.bit_set_same (s : State) {f : Fld} (width : f.w = 1) : (s.set f).bit f = true := State.bit_put_same s width 1

/-- A bit that is set, taken away as a number. -/
theorem testBit_sub_two_pow_eq {v k : Nat} (on : v.testBit k = true) (j : Nat) :
    (v - 2 ^ k).testBit j = (v.testBit j && decide (j ≠ k)) := by
  induction k generalizing v j with
  | zero =>
    have odd : v % 2 = 1 := by simpa using on
    cases j with
    | zero => simp [Nat.testBit_zero]; omega
    | succ j =>
      have half : (v - 1) / 2 = v / 2 := by omega
      simp [Nat.testBit_add_one, half]
  | succ k ih =>
    rw [Nat.testBit_add_one] at on
    have power : 2 ^ k ≤ v / 2 := Nat.ge_two_pow_of_testBit on
    cases j with
    | zero =>
      have parity : (v - 2 ^ (k + 1)) % 2 = v % 2 := by omega
      simp [Nat.testBit_zero, parity]
    | succ j =>
      have half : (v - 2 ^ (k + 1)) / 2 = v / 2 - 2 ^ k := by omega
      rw [Nat.testBit_add_one, half, ih on, Nat.testBit_add_one]
      simp

/-- Clearing one bit of a mask sets none. -/
theorem State.testBit_clrMask_of_clear (s : State) (f : Fld) (k : Nat) {j : Nat} (clear : (s.get f).testBit j = false) :
    ((s.clrMask f k).get f).testBit j = false := by
  rw [State.clrMask, State.get_put_same, Nat.testBit_mod_two_pow]
  split
  · next on => rw [testBit_sub_two_pow_eq on, clear, Bool.false_and, Bool.and_false]
  · rw [clear, Bool.and_false]

/-! ### The media PLLs -/

theorem State.mpll_of_time (time : t.time = s.time) (n : Nat) : t.mpll n = s.mpll n := by
  unfold State.mpll
  rw [time]

theorem State.mpll_modMpll (s : State) (n m : Nat) (f : MpllSt → MpllSt) :
    (s.modMpll n f).mpll m = if m = n then f (s.mpll n) else s.mpll m := Tab.get_put _ s.time.mplls n m _

@[simp] theorem State.mpll_modMpll_same (s : State) (n : Nat) (f : MpllSt → MpllSt) : (s.modMpll n f).mpll n = f (s.mpll n) := by
  simp [State.mpll_modMpll]

@[simp] theorem State.mpll_put (s : State) (f : Fld) (v n : Nat) : (s.put f v).mpll n = s.mpll n := rfl
@[simp] theorem State.mpll_take (s : State) (n : Nat) : s.take.mpll n = s.mpll n := rfl
@[simp] theorem State.mpll_modDom (s : State) (d : Nat) (f : DomSt → DomSt) (n : Nat) : (s.modDom d f).mpll n = s.mpll n := rfl
@[simp] theorem State.mpll_postNow (s : State) (c : EvClass) (v : Option Nat) (k : Nat) (b : List Nat) (n : Nat) :
    (s.postNow c v k b).mpll n = s.mpll n := State.mpll_of_time (State.postNow_time ..) n

@[simp] theorem State.get_modMpll (s : State) (n : Nat) (f : MpllSt → MpllSt) (g : Fld) : (s.modMpll n f).get g = s.get g := rfl
@[simp] theorem State.bit_modMpll (s : State) (n : Nat) (f : MpllSt → MpllSt) (g : Fld) : (s.modMpll n f).bit g = s.bit g := rfl
@[simp] theorem State.units_modMpll (s : State) (n : Nat) (f : MpllSt → MpllSt) : (s.modMpll n f).units = s.units := rfl
@[simp] theorem State.dom_modMpll (s : State) (n : Nat) (f : MpllSt → MpllSt) (d : Nat) : (s.modMpll n f).dom d = s.dom d := rfl

end Sys2Proof.Machine
end

