-- ==== Sys2Proof/Proofs/RegionClocks.lean ====
section
/-! PROOF. The clocks of the regions: start, lock, fall back to the bypass clock, stop and preheat (R30, R402–R406). -/

namespace Sys2Proof.Machine

section
variable {s : State} {g : Fin 8}

/-! ### Start, lock and stop (R30, R402) -/

theorem exec_regionClockStart_demanded (demand : s.regionDemand g = true)
    (stopped : s.bit (Reg.FABRIC_RG_CLK_RUNNING g) = false) : exec (.regionClockStart g) s =
      .next (((s.put (Reg.FABRIC_RG_CLK_RUNNING g) 1).put (Reg.FABRIC_RG_CLK_LOCKED g) 0).modRegion g
        fun r => { r with starting := true }) := by
  show execRegionClockStart g s = _
  simp [execRegionClockStart, demand, stopped, State.set]

theorem exec_regionClockStart_idle (idle : s.regionDemand g = false ∨ s.bit (Reg.FABRIC_RG_CLK_RUNNING g) = true) :
    exec (.regionClockStart g) s = .next s := by
  show execRegionClockStart g s = _
  rcases idle with demand | runs
  · simp [execRegionClockStart, demand]
  · simp [execRegionClockStart, runs]

theorem exec_adpllLock_starting (starting : (s.region g).starting = true) :
    exec (.adpllLock g) s = .next (s.put (Reg.FABRIC_RG_CLK_LOCKED g) 1) :=
  congrArg Host.Outcome.next (if_pos starting)

theorem exec_adpllLock_idle (idle : (s.region g).starting = false) : exec (.adpllLock g) s = .next s := by
  show execAdpllLock g s = _
  simp [execAdpllLock, idle]

theorem exec_regionClockStop_quiet (quiet : ∀ k < 8, (s.cluster (8 * g + k)).firing = none) : exec (.regionClockStop g) s =
    .next (((s.put (Reg.FABRIC_RG_CLK_RUNNING g) 0).put (Reg.FABRIC_RG_CLK_LOCKED g) 0).modRegion g
      fun r => { r with starting := false }) := by
  have fires : s.regionFires g = false := List.any_eq_false.2 fun k hk => by simp [quiet k (List.mem_range.1 hk)]
  show execRegionClockStop g s = _
  simp [execRegionClockStop, fires, State.stopClock]

theorem exec_regionClockStop_firing (firing : ∃ k < 8, (s.cluster (8 * g + k)).firing ≠ none) :
    exec (.regionClockStop g) s = .next s := by
  obtain ⟨k, inRegion, runs⟩ := firing
  have fires : s.regionFires g = true := List.any_eq_true.2 ⟨k, List.mem_range.2 inRegion, Option.isSome_iff_ne_none.2 runs⟩
  show execRegionClockStop g s = _
  simp [execRegionClockStop, fires]

/-! ### The bypass clock (R403, R404, R406) -/

theorem exec_bypassFallback_unlocked (starting : (s.region g).starting = true)
    (unlocked : s.bit (Reg.FABRIC_RG_CLK_LOCKED g) = false) : exec (.bypassFallback g) s =
      .next (((s.bump (Reg.FABRIC_RG_CLK_CNT_NOLOCK g)).toBypass g).modRegion g fun r => { r with starting := false }) := by
  show execBypassFallback g s = _
  simp [execBypassFallback, starting, unlocked]

theorem exec_bypassFallback_idle (idle : (s.region g).starting = false ∨ s.bit (Reg.FABRIC_RG_CLK_LOCKED g) = true) :
    exec (.bypassFallback g) s = .next s := by
  show execBypassFallback g s = _
  rcases idle with idle | locked
  · simp [execBypassFallback, idle]
  · simp [execBypassFallback, locked]

theorem exec_adpllLossOfLock_locked (locked : s.bit (Reg.FABRIC_RG_CLK_LOCKED g) = true) : exec (.adpllLossOfLock g) s =
    .next ((((s.put (Reg.FABRIC_RG_CLK_LOCKED g) 0).bump (Reg.FABRIC_RG_CLK_CNT_LOSS g)).toBypass g).modRegion g
      fun r => { r with starting := false }) :=
  congrArg Host.Outcome.next (if_pos locked)

theorem exec_adpllLossOfLock_unlocked (unlocked : s.bit (Reg.FABRIC_RG_CLK_LOCKED g) = false) :
    exec (.adpllLossOfLock g) s = .next s := by
  show execAdpllLossOfLock g s = _
  simp [execAdpllLossOfLock, unlocked]

/-- A count of lost locks leaves BYPASS as it was, so the event of R406 depends on BYPASS before the command. -/
theorem State.bypass_bump_noLock (s : State) (g : Nat) :
    (s.bump (Reg.FABRIC_RG_CLK_CNT_NOLOCK g)).bit (Reg.FABRIC_RG_CLK_BYPASS g) = s.bit (Reg.FABRIC_RG_CLK_BYPASS g) :=
  State.bit_put_ne s (by simp only [Fld.key, Reg.FABRIC_RG_CLK_BYPASS, Reg.FABRIC_RG_CLK_CNT_NOLOCK]; omega) _

theorem State.bypass_loseLock (s : State) (g : Nat) :
    ((s.put (Reg.FABRIC_RG_CLK_LOCKED g) 0).bump (Reg.FABRIC_RG_CLK_CNT_LOSS g)).bit (Reg.FABRIC_RG_CLK_BYPASS g) =
      s.bit (Reg.FABRIC_RG_CLK_BYPASS g) :=
  (State.bit_put_ne _ (by simp only [Fld.key, Reg.FABRIC_RG_CLK_BYPASS, Reg.FABRIC_RG_CLK_CNT_LOSS]; omega) _).trans
    (State.bit_put_ne s (by simp [Fld.key, Reg.FABRIC_RG_CLK_BYPASS, Reg.FABRIC_RG_CLK_LOCKED]) _)

end

/-! ### Preheat (R133, R292, R405) -/

section
variable {s : State} {c : Fin 64}

/-- K has ended where the phase ran and the ADPLL locked. -/
theorem State.endClockStart_eq (s : State) (g : Nat) : s.endClockStart g =
    if (s.region g).starting ∧ s.bit (Reg.FABRIC_RG_CLK_LOCKED g) then
      (s.put (Reg.FABRIC_RG_CLK_BYPASS g) 0).modRegion g fun r => { r with starting := false }
    else s := by
  simp only [State.endClockStart, Bool.and_eq_true]

theorem exec_preheat_wakes (executes : s.executes c = true) (runs : s.bit (Reg.FABRIC_RG_CLK_RUNNING (c / 8)) = true) :
    exec (.preheat c) s = .next ((s.endClockStart (c / 8)).modCluster c fun x => { x with retention := false }) := by
  show execPreheat c s = _
  simp [execPreheat, executes, runs]

theorem exec_preheat_sleeps (asleep : s.executes c = false ∨ s.bit (Reg.FABRIC_RG_CLK_RUNNING (c / 8)) = false) :
    exec (.preheat c) s = .next (s.endClockStart (c / 8)) := by
  show execPreheat c s = _
  rcases asleep with quarantined | stopped
  · simp [execPreheat, quarantined]
  · simp [execPreheat, stopped]

end

/-- Settles O18: each command through its equation above. What a command that changes nothing leaves rests on log 10. -/
theorem regionClocks : Obligations.RegionClocks := by
  unfold Obligations.RegionClocks
  refine ⟨fun g s => ⟨exec_regionClockStart_demanded, exec_regionClockStart_idle, exec_regionClockStop_quiet,
    exec_regionClockStop_firing, exec_adpllLock_starting, exec_adpllLock_idle, fun starting unlocked => ?_,
    exec_bypassFallback_idle, fun locked => ?_, exec_adpllLossOfLock_unlocked⟩, fun c s => ?_⟩
  · rw [exec_bypassFallback_unlocked starting unlocked, State.toBypass, State.bypass_bump_noLock]
    rfl
  · rw [exec_adpllLossOfLock_locked locked, State.toBypass, State.bypass_loseLock]
    rfl
  · rw [← State.endClockStart_eq]
    exact ⟨exec_preheat_wakes, exec_preheat_sleeps⟩

end Sys2Proof.Machine
end

