-- ==== Sys2Proof/Proofs/MpllLoop.lean ====
section
/-! PROOF. The loops of the media PLLs: candidates, references, comparisons, lock and bandwidth (R379, R382–R394, R566). -/

namespace Sys2Proof.Machine

/-! ### The registers of a loop -/

/-- The registers that entry to ACQUIRE writes. -/
def acquireRegs (n : Nat) : List Fld :=
  [Reg.CLK_MPLL_STATE_STATE n, Reg.CLK_MPLL_STATE_HIST n, Reg.CLK_MPLL_STATE_NARROW_DONE n]

/-- The registers that a change of a loop's reference writes. -/
def referenceRegs (n : Nat) : List Fld :=
  [Reg.CLK_MPLL_STATE_SEL n, Reg.CLK_MPLL_STATE_SEL_VALID n, Reg.CLK_MPLL_DCO_WORD n, Reg.TIME_STATUS_ALIGNED,
    Reg.TIME_STATUS_LOCAL] ++ acquireRegs n

/-- The registers that the loss of a candidate writes. -/
def candidateRegs (n : Nat) : List Fld := [Reg.CLK_MPLL_QUAL_QUALIFIED n, Reg.CLK_MPLL_QUAL_DISQ n] ++ referenceRegs n

theorem acquireRegs_subset (n : Nat) : acquireRegs n ⊆ referenceRegs n := List.subset_append_right ..
theorem referenceRegs_subset (n : Nat) : referenceRegs n ⊆ candidateRegs n := List.subset_append_right ..

/-- STATE, HIST and NARROW_DONE share a word and no bit. -/
theorem acquireRegs_apart (n : Fin 3) : (Reg.CLK_MPLL_STATE_STATE n).FreeOf [Reg.CLK_MPLL_STATE_HIST n] ∧
    (Reg.CLK_MPLL_STATE_HIST n).FreeOf [] ∧
    (Reg.CLK_MPLL_STATE_NARROW_DONE n).FreeOf [Reg.CLK_MPLL_STATE_STATE n, Reg.CLK_MPLL_STATE_HIST n] := by decide +revert

/-- What shows the reference is not written by entry to ACQUIRE. -/
theorem reference_apart (n : Fin 3) : ∀ f ∈ [Reg.CLK_MPLL_STATE_SEL n, Reg.CLK_MPLL_STATE_SEL_VALID n, Reg.TIME_STATUS_ALIGNED],
    f.FreeOf (Reg.TIME_STATUS_LOCAL :: acquireRegs n) := by decide +revert

/-! ### Entering a state (R390, R392) -/

theorem WritesOnly.enterMpll (s : State) (n st : Nat) :
    WritesOnly [Reg.CLK_MPLL_STATE_STATE n, Reg.CLK_MPLL_STATE_HIST n] s (s.enterMpll n st) :=
  ((WritesOnly.put (by simp) _).trans (.put (by simp) _)).trans (.host (.postNow ..))

@[simp] theorem State.mpll_enterMpll (s : State) (n st k : Nat) : (s.enterMpll n st).mpll k = s.mpll k := State.mpll_postNow ..

/-- The state that is entered shows in STATE and in HIST. -/
theorem State.enterMpll_shows (s : State) (n : Fin 3) {st : Nat} (state : st < 5) :
    (s.enterMpll n st).get (Reg.CLK_MPLL_STATE_STATE n) = st ∧
      ((s.enterMpll n st).get (Reg.CLK_MPLL_STATE_HIST n)).testBit st = true := by
  obtain ⟨⟨lo, outside, apart⟩, ⟨lo', outside', -⟩, -⟩ := acquireRegs_apart n
  constructor
  · refine (State.get_postNow _ _ _ _ _ _ lo outside).trans ?_
    rw [State.setMask, State.get_put_ne _ (apart _ List.mem_cons_self)]
    exact State.get_put_lt s (Reg.CLK_MPLL_STATE_STATE n) st (Nat.lt_trans state (by decide : 5 < 2 ^ 3))
  · refine congrArg (Nat.testBit · st) (State.get_postNow _ _ _ _ _ _ lo' outside') |>.trans ?_
    exact State.testBit_setMask _ state

theorem WritesOnly.enterAcquire (s : State) (n : Nat) : WritesOnly (acquireRegs n) s (s.enterAcquire n) :=
  ((WritesOnly.put (by simp [acquireRegs]) 0).trans (.modMpll _ _)).trans (.mono (by simp [acquireRegs]) (.enterMpll _ n _))

/-- ACQUIRE begins with the bandwidth at 100 Hz (R390). -/
theorem State.enterAcquire_shows (s : State) (n : Fin 3) : (s.enterAcquire n).get (Reg.CLK_MPLL_STATE_STATE n) = acquire ∧
    (s.enterAcquire n).bit (Reg.CLK_MPLL_STATE_NARROW_DONE n) = false ∧ ((s.enterAcquire n).mpll n).halvings = 0 := by
  obtain ⟨-, -, narrow⟩ := acquireRegs_apart n
  refine ⟨(State.enterMpll_shows _ n (by decide)).1, ?_, ?_⟩
  · exact ((WritesOnly.enterMpll _ n _).bit narrow).trans (State.bit_put_same s rfl 0)
  · rw [State.enterAcquire, State.mpll_enterMpll, State.mpll_modMpll_same]

/-! ### The selected reference (R384–R387) -/

/-- A loop whose reference is a candidate, and whose domain is unaligned, before it acquires. -/
def State.pointTo (s : State) (n k : Nat) : State :=
  (((s.put (Reg.CLK_MPLL_STATE_SEL n) k).set (Reg.CLK_MPLL_STATE_SEL_VALID n)).modMpll n fun m => { m with bias := 0 }).unalign n

/-- A reference that carries time ends local time (R385). -/
def State.endLocal (s : State) (b : Bool) : State := if b then s.put Reg.TIME_STATUS_LOCAL 0 else s

theorem State.selectCandidate_eq (s : State) (n k : Nat) : ∃ b, s.selectCandidate n k = ((s.pointTo n k).endLocal b).enterAcquire n := by
  refine ⟨s.get (Reg.CLK_MPLL_CAND_SRC n k) = 1 ∨ s.get (Reg.CLK_MPLL_CAND_SRC n k) = 5, ?_⟩
  simp only [State.endLocal, decide_eq_true_eq]
  rfl

theorem State.pointTo_shows (s : State) (n : Fin 3) {k : Nat} (number : k < 8) :
    (s.pointTo n k).get (Reg.CLK_MPLL_STATE_SEL n) = k ∧ (s.pointTo n k).bit (Reg.CLK_MPLL_STATE_SEL_VALID n) = true ∧
      ((s.pointTo n k).get Reg.TIME_STATUS_ALIGNED).testBit n = false := by
  refine ⟨?_, ?_, State.testBit_clrMask ..⟩
  · simp (disch := decide +revert) only [State.pointTo, State.unalign, State.clrMask, State.get_put_ne, State.get_modMpll, State.set]
    exact State.get_put_lt s (Reg.CLK_MPLL_STATE_SEL n) k number
  · simp (disch := decide +revert) only [State.pointTo, State.unalign, State.clrMask, State.bit_put_ne, State.bit_modMpll]
    exact State.bit_set_same _ (f := Reg.CLK_MPLL_STATE_SEL_VALID n) rfl

theorem WritesOnly.endLocal (s : State) (b : Bool) : WritesOnly [Reg.TIME_STATUS_LOCAL] s (s.endLocal b) :=
  .ite (.put (by simp) 0) .refl

/-- After its loop points to a candidate, only entry to ACQUIRE and the end of local time are left. -/
theorem WritesOnly.select_pointed (s : State) (n k : Nat) :
    WritesOnly (Reg.TIME_STATUS_LOCAL :: acquireRegs n) (s.pointTo n k) (s.selectCandidate n k) := by
  obtain ⟨b, eq⟩ := s.selectCandidate_eq n k
  rw [eq]
  exact (WritesOnly.mono (by simp) (.endLocal _ b)).trans (.mono (List.subset_cons_self ..) (.enterAcquire _ n))

theorem WritesOnly.selectCandidate (s : State) (n k : Nat) : WritesOnly (referenceRegs n) s (s.selectCandidate n k) := by
  have pointed : WritesOnly (referenceRegs n) s (s.pointTo n k) :=
    (((WritesOnly.put (by simp [referenceRegs]) k).trans (.put (by simp [referenceRegs]) 1)).trans (.modMpll n _)).trans
      (.put (by simp [referenceRegs]) _)
  exact pointed.trans (.mono (List.cons_subset.2 ⟨by simp [referenceRegs], acquireRegs_subset n⟩) (.select_pointed s n k))

/-- The selected candidate is the reference, its domain is unaligned, and the loop acquires. -/
theorem State.selectCandidate_shows (s : State) (n : Fin 3) {k : Nat} (number : k < 8) : let t := s.selectCandidate n k
    t.get (Reg.CLK_MPLL_STATE_SEL n) = k ∧ t.bit (Reg.CLK_MPLL_STATE_SEL_VALID n) = true ∧
      t.get (Reg.CLK_MPLL_STATE_STATE n) = 1 ∧ (t.mpll n).halvings = 0 ∧
      (t.get Reg.TIME_STATUS_ALIGNED).testBit n = false := by
  obtain ⟨b, eq⟩ := s.selectCandidate_eq n k
  obtain ⟨sel, valid, unaligned⟩ := s.pointTo_shows n number
  obtain ⟨state, -, halvings⟩ := State.enterAcquire_shows ((s.pointTo n k).endLocal b) n
  have stays := WritesOnly.select_pointed s n k
  have apart := reference_apart n
  refine ⟨(stays _ (apart _ (by simp))).trans sel, (stays.bit (apart _ (by simp))).trans valid, eq ▸ state, eq ▸ halvings, ?_⟩
  rw [stays _ (apart _ (by simp)), unaligned]

theorem WritesOnly.unseenVsyncs (s : State) (l : List Fld) (n k : Nat) : WritesOnly l s (s.unseenVsyncs n k) :=
  .ite (.of_regs rfl) .refl

theorem WritesOnly.loseReference (s : State) (n : Nat) : WritesOnly (referenceRegs n) s (s.loseReference n) := by
  have enter (t : State) (st : Nat) : WritesOnly (referenceRegs n) t (t.enterMpll n st) :=
    .mono (by simp [referenceRegs, acquireRegs]) (.enterMpll t n st)
  have invalid : WritesOnly (referenceRegs n) s (s.put (Reg.CLK_MPLL_STATE_SEL_VALID n) 0) := .put (by simp [referenceRegs]) 0
  unfold State.loseReference
  split
  · exact (WritesOnly.unseenVsyncs s _ n _).trans (.selectCandidate _ n _)
  · refine .ite (.trans (.ite invalid ?_) (enter _ _)) (.ite (invalid.trans (enter _ _)) invalid)
    exact (invalid.trans (.put (by simp [referenceRegs]) _)).trans (.of_regs rfl)

theorem WritesOnly.disqualify (s : State) (n k : Nat) : WritesOnly (candidateRegs n) s (s.disqualify n k) := by
  have marked : WritesOnly (candidateRegs n) s
      ((s.clrMask (Reg.CLK_MPLL_QUAL_QUALIFIED n) k).setMask (Reg.CLK_MPLL_QUAL_DISQ n) k) :=
    (WritesOnly.put (by simp [candidateRegs]) _).trans (.put (by simp [candidateRegs]) _)
  exact .ite (.ite (marked.trans (.mono (referenceRegs_subset n) (.loseReference _ n))) marked) .refl

/-! ### CANDIDATE_QUALIFIED (R383, R384, R387) -/

theorem State.bestCandidate_lt {s : State} {n b : Nat} (best : s.bestCandidate n = some b) : b < 8 := by
  refine List.foldlRecOn (motive := fun o => ∀ j, o = some j → j < 8) _ _ nofun (fun o lt k mem j found => ?_) b best
  have inside : k < 8 := List.mem_range.1 (List.mem_filter.1 mem).1
  cases o with
  | none => cases found; exact inside
  | some i =>
    dsimp only at found
    split at found
    · cases found; exact inside
    · exact lt j found

section
variable {s : State} {n : Fin 3} {k : Fin 8}

theorem exec_candidateQualified_unfit (unfit : s.mayQualify n k = false) : exec (.candidateQualified n k) s = .next s := by
  show execCandidateQualified n k s = _
  simp [execCandidateQualified, unfit]

/-- A loop that is stopped, acquires or is locked on its reference only shows the candidate. -/
theorem exec_candidateQualified_shows (fit : s.mayQualify n k = true)
    (settled : s.mpllRuns n = false ∨
      s.get (Reg.CLK_MPLL_STATE_STATE n) ∈ [1, 2] ∧ s.bit (Reg.CLK_MPLL_STATE_SEL_VALID n) = true) :
    exec (.candidateQualified n k) s = .next (s.setMask (Reg.CLK_MPLL_QUAL_QUALIFIED n) k) := by
  show execCandidateQualified n k s = _
  simp only [execCandidateQualified, fit, if_true]
  rcases settled with stopped | ⟨state, valid⟩
  · simp [stopped]
  · rw [List.mem_pair] at state
    simp [acquire, locked, state, valid]

/-- The VSYNC pulses of a candidate that has just qualified are counted from 0 (R382). -/
def MpllSt.countFrom (k : Nat) (m : MpllSt) : MpllSt := { m with vsyncs := Tab.put 0 m.vsyncs k 0, opened := none }

theorem MpllSt.countFrom_spec (k : Nat) (m : MpllSt) : (m.countFrom k).halvings = m.halvings ∧
    Tab.get 0 (m.countFrom k).vsyncs k = 0 ∧ (m.countFrom k).opened = none := ⟨rfl, Tab.get_put_same 0 m.vsyncs k 0, rfl⟩

theorem exec_candidateQualified_selects {b : Nat} (fit : s.mayQualify n k = true) (runs : s.mpllRuns n = true)
    (invalid : s.bit (Reg.CLK_MPLL_STATE_SEL_VALID n) = false)
    (best : (s.setMask (Reg.CLK_MPLL_QUAL_QUALIFIED n) k).bestCandidate n = some b) :
    let s1 := s.setMask (Reg.CLK_MPLL_QUAL_QUALIFIED n) k
    exec (.candidateQualified n k) s = .next (if b = k then (s1.selectCandidate n b).modMpll n (·.countFrom b)
      else (s1.unseenVsyncs n b).selectCandidate n b) := by
  show execCandidateQualified n k s = _
  simp [execCandidateQualified, fit, runs, invalid, best, MpllSt.countFrom]

end

/-! ### CANDIDATE_LOSS (R383, R387) -/

/-- The marks that the loss of a candidate leaves. -/
def State.markLost (s : State) (n k : Nat) : State :=
  (s.clrMask (Reg.CLK_MPLL_QUAL_QUALIFIED n) k).setMask (Reg.CLK_MPLL_QUAL_DISQ n) k

theorem exec_candidateLoss (s : State) (n : Fin 3) (k : Fin 8) : exec (.candidateLoss n k) s = .next (s.disqualify n k) := rfl

section
variable {s : State} {n k : Nat}

theorem State.disqualify_unqualified (not : s.isQualified n k = false) : s.disqualify n k = s := by
  simp [State.disqualify, not]

theorem State.disqualify_other (qualified : s.isQualified n k = true)
    (other : ¬(s.bit (Reg.CLK_MPLL_STATE_SEL_VALID n) = true ∧ s.get (Reg.CLK_MPLL_STATE_SEL n) = k)) :
    s.disqualify n k = s.markLost n k := by
  simp only [State.disqualify, qualified, if_true, Bool.and_eq_true, decide_eq_true_eq, if_neg other]
  rfl

theorem State.disqualify_reference (qualified : s.isQualified n k = true)
    (reference : s.bit (Reg.CLK_MPLL_STATE_SEL_VALID n) = true ∧ s.get (Reg.CLK_MPLL_STATE_SEL n) = k) :
    s.disqualify n k = (s.markLost n k).loseReference n := by
  simp only [State.disqualify, qualified, if_true, Bool.and_eq_true, decide_eq_true_eq, if_pos reference]
  rfl

theorem State.loseReference_best {b : Nat} (best : s.bestCandidate n = some b) :
    s.loseReference n = (s.unseenVsyncs n b).selectCandidate n b := by
  simp [State.loseReference, best]

/-- The loop without a reference, its DCO word held where the loop writes it (R391). -/
def State.holdWord (s : State) (n : Nat) : State :=
  let s1 := s.put (Reg.CLK_MPLL_STATE_SEL_VALID n) 0
  if s.get (Reg.CLK_MPLL_CTL_LOOP n) = 2 then s1 else (s1.put (Reg.CLK_MPLL_DCO_WORD n) (unsigned32 (s.holdoverWord n))).take

theorem WritesOnly.holdWord (s : State) (n : Nat) :
    WritesOnly [Reg.CLK_MPLL_DCO_WORD n] (s.put (Reg.CLK_MPLL_STATE_SEL_VALID n) 0) (s.holdWord n) :=
  .ite .refl ((WritesOnly.put List.mem_cons_self _).trans (.of_regs rfl))

/-- With no other candidate, a loop locked for a second holds over, and any other has lost its reference. -/
theorem State.loseReference_none (none : s.bestCandidate n = none) (state : s.get (Reg.CLK_MPLL_STATE_STATE n) ∈ [1, 2]) :
    ∃ u, s.loseReference n = u.enterMpll n
        (if s.get (Reg.CLK_MPLL_STATE_STATE n) = 2 ∧ (s.mpll n).lockedAt + (s.dom 0).rate ≤ (s.dom 0).si then 3 else 4) ∧
      WritesOnly [Reg.CLK_MPLL_DCO_WORD n] (s.put (Reg.CLK_MPLL_STATE_SEL_VALID n) 0) u := by
  simp only [State.loseReference, none]
  by_cases held : s.get (Reg.CLK_MPLL_STATE_STATE n) = 2 ∧ (s.mpll n).lockedAt + (s.dom 0).rate ≤ (s.dom 0).si
  · rw [if_pos held]
    exact ⟨s.holdWord n, if_pos held, .holdWord s n⟩
  · rw [if_neg held]
    exact ⟨_, (if_neg held).trans (if_pos (List.mem_pair.1 state).symm), .refl⟩

end

/-- The marks and the reference of a loop lie apart from its state. -/
theorem loss_apart (n : Fin 3) :
    (Reg.CLK_MPLL_STATE_SEL_VALID n).FreeOf [Reg.CLK_MPLL_STATE_STATE n, Reg.CLK_MPLL_STATE_HIST n] ∧
    (Reg.CLK_MPLL_STATE_SEL_VALID n).FreeOf [Reg.CLK_MPLL_DCO_WORD n] ∧
    (Reg.CLK_MPLL_QUAL_QUALIFIED n).FreeOf (referenceRegs n) ∧ (Reg.CLK_MPLL_QUAL_QUALIFIED n).FreeOf [Reg.CLK_MPLL_QUAL_DISQ n] ∧
    (Reg.CLK_MPLL_STATE_STATE n).FreeOf [Reg.CLK_MPLL_QUAL_QUALIFIED n, Reg.CLK_MPLL_QUAL_DISQ n] := by decide +revert

theorem WritesOnly.markLost (s : State) (n k : Nat) :
    WritesOnly [Reg.CLK_MPLL_QUAL_QUALIFIED n, Reg.CLK_MPLL_QUAL_DISQ n] s (s.markLost n k) :=
  (WritesOnly.put (by simp) _).trans (.put (by simp) _)

theorem State.isQualified_markLost (s : State) (n : Fin 3) (k : Nat) : (s.markLost n k).isQualified n k = false := by
  obtain ⟨-, -, -, ⟨-, -, apart⟩, -⟩ := loss_apart n
  rw [State.isQualified, State.markLost, State.setMask, State.get_put_ne _ (apart _ List.mem_cons_self)]
  exact State.testBit_clrMask ..

/-- The loss of the only qualified candidate of a loop that acquires or is locked on it. -/
theorem State.loseOnly_shows (s : State) (n : Fin 3) (k : Nat) (none : (s.markLost n k).bestCandidate n = none)
    (state : s.get (Reg.CLK_MPLL_STATE_STATE n) ∈ [1, 2]) : let t := (s.markLost n k).loseReference n
    t.bit (Reg.CLK_MPLL_STATE_SEL_VALID n) = false ∧ t.isQualified n k = false ∧ t.get (Reg.CLK_MPLL_STATE_STATE n) =
      if s.get (Reg.CLK_MPLL_STATE_STATE n) = 2 ∧ (s.mpll n).lockedAt + (s.dom 0).rate ≤ (s.dom 0).si then 3 else 4 := by
  obtain ⟨valid, dco, qualified, -, sameState⟩ := loss_apart n
  have marked := WritesOnly.markLost s n k _ sameState
  obtain ⟨u, eq, writes⟩ := State.loseReference_none none (marked ▸ state)
  refine ⟨?_, ?_, ?_⟩
  · rw [eq, (WritesOnly.enterMpll _ n _).bit valid, writes.bit dco]
    exact State.bit_put_same _ rfl 0
  · rw [State.isQualified, WritesOnly.loseReference _ n _ qualified]
    exact s.isQualified_markLost n k
  · rw [eq, (State.enterMpll_shows u n (by split <;> decide)).1, marked]
    rfl

/-! ### REVERT_WTR_EXPIRY (R384) -/

theorem exec_revertWtrExpiry_better {s : State} {n : Fin 3} {k : Fin 8} (runs : s.mpllRuns n = true)
    (eligible : s.eligible n k = true) (valid : s.bit (Reg.CLK_MPLL_STATE_SEL_VALID n) = true)
    (better : s.get (Reg.CLK_MPLL_CAND_PRIO n k) < s.get (Reg.CLK_MPLL_CAND_PRIO n (s.get (Reg.CLK_MPLL_STATE_SEL n)))) :
    exec (.revertWtrExpiry n k) s = .next (if s.bit (Reg.CLK_MPLL_CTL_REVERT n) then
      (s.unseenVsyncs n k).selectCandidate n k else s) := by
  show execRevertWtrExpiry n k s = _
  cases h : s.bit (Reg.CLK_MPLL_CTL_REVERT n) <;> simp [execRevertWtrExpiry, runs, eligible, valid, better, h]

/-! ### MPLL_COMPARISON (R382, R388, R389, R393, R394) -/

theorem exec_mpllComparison_stopped {s : State} {n : Fin 3} (p : PhaseSample) (word : Int) (stopped : s.mpllRuns n = false) :
    exec (.mpllComparison n p word) s = .next s :=
  if_pos stopped

/-- The state of a loop with its VSYNC pulse counted. -/
def State.seeVsync (s : State) (n : Nat) (vs : Bool) : State := if vs then s.vsync n else s

/-- A DCO word held within ±1,953 ppm. -/
def heldWord (word : Int) : Int :=
  if word < -(dcoLimit : Int) then -(dcoLimit : Int) else if (dcoLimit : Int) < word then dcoLimit else word

theorem heldWord_of_le {word : Int} (inside : word.natAbs ≤ dcoLimit) : heldWord word = word := by
  rw [heldWord, if_neg (by omega), if_neg (by omega)]

/-- The registers that a comparison writes. -/
def State.putComparison (s : State) (n : Nat) (err word : Int) (host : Prop) [Decidable host] : State :=
  let s1 := s.put (Reg.CLK_MPLL_PHERR_ERR n) (unsigned32 err)
  if host then s1 else s1.put (Reg.CLK_MPLL_DCO_WORD n) (unsigned32 (heldWord word))

/-- A comparison writes its registers, and counts in the loop. -/
theorem exec_mpllComparison_runs {s : State} {n : Fin 3} (err word : Int) (vs : Bool) (runs : s.mpllRuns n = true) :
    ∃ f : MpllSt → MpllSt, exec (.mpllComparison n ⟨err, vs⟩ word) s = .next (((s.seeVsync n vs).putComparison n err word
        (s.get (Reg.CLK_MPLL_CTL_LOOP n) = 2)).modMpll n f) ∧
      (∀ m, (f m).inWin = if err.natAbs ≤ s.get (Reg.CLK_MPLL_LOCK_WIN n) then m.inWin + 1 else 0) ∧
      (∀ m, (f m).vsyncs = m.vsyncs) ∧ ∀ m, (f m).opened = m.opened :=
  ⟨_, if_neg (by rw [runs]; decide), fun _ => rfl, fun _ => rfl, fun _ => rfl⟩

theorem comparison_apart (n : Fin 3) :
    (Reg.CLK_MPLL_PHERR_ERR n).key ≠ (Reg.CLK_MPLL_DCO_WORD n).key ∧
    (Reg.CLK_MPLL_STATE_STATE n).FreeOf [Reg.CLK_MPLL_PHERR_ERR n, Reg.CLK_MPLL_DCO_WORD n] := by
  decide +revert

theorem State.putComparison_shows (s : State) (n : Fin 3) (err word : Int) (host : Prop) [Decidable host] :
    let t := s.putComparison n err word host
    t.get (Reg.CLK_MPLL_PHERR_ERR n) = unsigned32 err ∧
      t.get (Reg.CLK_MPLL_STATE_STATE n) = s.get (Reg.CLK_MPLL_STATE_STATE n) ∧
      t.get (Reg.CLK_MPLL_DCO_WORD n) =
        if host then s.get (Reg.CLK_MPLL_DCO_WORD n) else unsigned32 (heldWord word) := by
  obtain ⟨apart, state⟩ := comparison_apart n
  have error := State.get_put_lt s (Reg.CLK_MPLL_PHERR_ERR n) (unsigned32 err) (BitVec.isLt _)
  have first : WritesOnly [Reg.CLK_MPLL_PHERR_ERR n, Reg.CLK_MPLL_DCO_WORD n] s (s.put (Reg.CLK_MPLL_PHERR_ERR n) (unsigned32 err)) :=
    .put (by simp) _
  unfold State.putComparison
  dsimp only
  split
  · exact ⟨error, first _ state, State.get_put_ne s apart.symm _⟩
  · exact ⟨(State.get_put_ne _ apart _).trans error, (first.trans (.put (by simp) _)) _ state,
      State.get_put_lt _ (Reg.CLK_MPLL_DCO_WORD n) _ (BitVec.isLt _)⟩

theorem State.putComparison_keeps (s : State) (n : Nat) (err word : Int) (host : Prop) [Decidable host] :
    (s.putComparison n err word host).time = s.time ∧ (s.putComparison n err word host).units = s.units := by
  unfold State.putComparison
  dsimp only
  split <;> exact ⟨rfl, rfl⟩

theorem State.seeVsync_keeps (s : State) (n : Nat) (vs : Bool) :
    (s.seeVsync n vs).regs = s.regs ∧ (s.seeVsync n vs).units = s.units ∧ ((s.seeVsync n vs).mpll n).inWin = (s.mpll n).inWin := by
  unfold State.seeVsync State.vsync
  dsimp only
  split
  · split
    · exact ⟨rfl, rfl, by rw [State.mpll_modMpll_same]⟩
    · exact ⟨rfl, rfl, rfl⟩
  · exact ⟨rfl, rfl, rfl⟩

/-- The first pulse of a sequence of a VIDEO reference is the alignment point (R382). -/
theorem State.vsync_counts {s : State} {n : Nat} (valid : s.bit (Reg.CLK_MPLL_STATE_SEL_VALID n) = true)
    (video : s.get (Reg.CLK_MPLL_CAND_SRC n (s.get (Reg.CLK_MPLL_STATE_SEL n))) = 4) :
    let k := s.get (Reg.CLK_MPLL_STATE_SEL n)
    Tab.get 0 ((s.vsync n).mpll n).vsyncs k = Tab.get 0 (s.mpll n).vsyncs k + 1 ∧
      (Tab.get 0 (s.mpll n).vsyncs k % max 1 (s.get (Reg.CLK_MPLL_CAND_PARAM n k) / 2 ^ 13 % 8) = 0 →
        ((s.vsync n).mpll n).opened = some (s.dom n).si) := by
  simp only [State.vsync, valid, video, decide_true, Bool.and_true, if_true, State.mpll_modMpll_same, Tab.get_put_same, true_and]
  intro first
  rw [if_pos first]

/-! ### LOCK_CRITERION (R388, R566) -/

/-- A loop that locks. -/
def MpllSt.lockAt (si : Nat) (m : MpllSt) : MpllSt := { m with lockedAt := si, outWin := 0, words := [], everLocked := true }

theorem exec_lockCriterion_met {s : State} {n : Fin 3} (runs : s.mpllRuns n = true)
    (acquires : s.get (Reg.CLK_MPLL_STATE_STATE n) = 1) (met : (s.mpll n).met = true) :
    exec (.lockCriterion n) s = .next ((s.modMpll n (·.lockAt (s.dom 0).si)).masterClocks.enterMpll n locked) :=
  if_pos ⟨runs, acquires, met⟩

theorem exec_lockCriterion_unmet {s : State} {n : Fin 3}
    (unmet : s.mpllRuns n = false ∨ s.get (Reg.CLK_MPLL_STATE_STATE n) ≠ 1 ∨ (s.mpll n).met = false) :
    exec (.lockCriterion n) s = .next s := by
  refine if_neg fun ⟨runs, acquires, met⟩ => ?_
  rcases unmet with stopped | other | unmet
  · exact Bool.false_ne_true (stopped.symm.trans runs)
  · exact other acquires
  · exact Bool.false_ne_true (unmet.symm.trans met)

/-- The clocks of one group, as its MPLL has locked. -/
def State.masterClock (g : Nat) (t : State) : State :=
  let d := t.get (Reg.APG_CFG_DOMAIN g)
  if t.bit (Reg.APG_CFG_MASTER g) && decide (d < 3) then
    let t1 := t.putBit (Reg.APG_STATUS_CLK_OK g) (t.mpll d).everLocked
    if (t.mpll d).everLocked then t1.put (Reg.APG_STATUS_MEAS_RATE g) (t.dom d).rate else t1
  else t

theorem State.masterClocks_eq (s : State) : s.masterClocks = s.each (List.range 4) State.masterClock := rfl

/-- One group's clocks write that group's registers alone. -/
theorem State.masterClock_writes (g : Nat) (t : State) :
    WritesOnly [Reg.APG_STATUS_CLK_OK g, Reg.APG_STATUS_MEAS_RATE g] t (t.masterClock g) ∧
      (t.masterClock g).time = t.time ∧ (t.masterClock g).units = t.units := by
  have shown (b : Bool) : WritesOnly [Reg.APG_STATUS_CLK_OK g, Reg.APG_STATUS_MEAS_RATE g] t (t.putBit (Reg.APG_STATUS_CLK_OK g) b) :=
    .put (by simp) _
  unfold State.masterClock
  dsimp only
  split
  · split
    · exact ⟨(shown _).trans (.put (by simp) _), rfl, rfl⟩
    · exact ⟨shown _, rfl, rfl⟩
  · exact ⟨.refl, rfl, rfl⟩

theorem group_apart (g x : Fin 4) :
    (Reg.APG_CFG_MASTER g).FreeOf [Reg.APG_STATUS_CLK_OK x, Reg.APG_STATUS_MEAS_RATE x] ∧
    (Reg.APG_CFG_DOMAIN g).FreeOf [Reg.APG_STATUS_CLK_OK x, Reg.APG_STATUS_MEAS_RATE x] ∧
    (Reg.APG_STATUS_CLK_OK g).FreeOf [Reg.APG_STATUS_MEAS_RATE x] ∧
    (x ≠ g → (Reg.APG_STATUS_CLK_OK g).FreeOf [Reg.APG_STATUS_CLK_OK x, Reg.APG_STATUS_MEAS_RATE x]) := by decide +revert

theorem State.masterClocks_keeps (s : State) : s.masterClocks.time = s.time ∧ s.masterClocks.units = s.units := by
  refine State.each_keeps (fun t => t.time = s.time ∧ t.units = s.units) _ (fun g t ⟨time, units⟩ => ?_) s _ ⟨rfl, rfl⟩
  obtain ⟨-, sameTime, sameUnits⟩ := State.masterClock_writes g t
  exact ⟨sameTime.trans time, sameUnits.trans units⟩

/-- The clocks of a master group run once its MPLL has locked. -/
theorem State.masterClocks_run (s : State) (g : Fin 4) (n : Fin 3) (master : s.bit (Reg.APG_CFG_MASTER g) = true)
    (domain : s.get (Reg.APG_CFG_DOMAIN g) = n) (ever : (s.mpll n).everLocked = true) :
    s.masterClocks.bit (Reg.APG_STATUS_CLK_OK g) = true := by
  rw [State.masterClocks_eq]
  refine State.each_brings
    (fun t => t.bit (Reg.APG_CFG_MASTER g) = true ∧ t.get (Reg.APG_CFG_DOMAIN g) = n ∧ (t.mpll n).everLocked = true)
    (fun t => t.bit (Reg.APG_STATUS_CLK_OK g) = true) _ List.nodup_range (List.mem_range.2 g.isLt) ?_ ?_ ?_ ⟨master, domain, ever⟩
  · intro x mem _ t ⟨master, domain, ever⟩
    obtain ⟨writes, time, -⟩ := State.masterClock_writes x t
    obtain ⟨keepsMaster, keepsDomain, -⟩ := group_apart g ⟨x, List.mem_range.1 mem⟩
    exact ⟨(writes.bit keepsMaster).trans master, (writes _ keepsDomain).trans domain, by rw [State.mpll_of_time time, ever]⟩
  · intro t ⟨master, domain, ever⟩
    obtain ⟨-, -, rate, -⟩ := group_apart g g
    simp only [State.masterClock, master, domain, ever, n.isLt, decide_true, Bool.and_self, if_true]
    exact (WritesOnly.bit (.put List.mem_cons_self _) rate).trans (State.bit_putBit_same t rfl true)
  · intro x mem other t shown
    obtain ⟨-, -, -, keeps⟩ := group_apart g ⟨x, List.mem_range.1 mem⟩
    exact ((State.masterClock_writes x t).1.bit (keeps fun same => other (congrArg Fin.val same))).trans shown

theorem clkOk_apart (g : Fin 4) (n : Fin 3) :
    (Reg.APG_STATUS_CLK_OK g).FreeOf [Reg.CLK_MPLL_STATE_STATE n, Reg.CLK_MPLL_STATE_HIST n] := by decide +revert

/-! ### PHASE_EXCURSION and BANDWIDTH_HALVING (R389, R390) -/

theorem exec_phaseExcursion_unlocks {s : State} {n : Fin 3} (runs : s.mpllRuns n = true)
    (locks : s.get (Reg.CLK_MPLL_STATE_STATE n) = 2) (out : 16 ≤ (s.mpll n).outWin) :
    exec (.phaseExcursion n) s = .next ((s.set (Reg.CLK_MPLL_STATE_UNLOCK n)).enterAcquire n) :=
  if_pos ⟨runs, locks, out⟩

theorem exec_phaseExcursion_none {s : State} {n : Fin 3}
    (none : s.mpllRuns n = false ∨ s.get (Reg.CLK_MPLL_STATE_STATE n) ≠ 2 ∨ (s.mpll n).outWin < 16) :
    exec (.phaseExcursion n) s = .next s := by
  refine if_neg fun ⟨runs, locks, out⟩ => ?_
  rcases none with stopped | other | few
  · exact Bool.false_ne_true (stopped.symm.trans runs)
  · exact other locks
  · exact Nat.not_le.2 few out

theorem unlock_apart (n : Fin 3) : (Reg.CLK_MPLL_STATE_UNLOCK n).FreeOf (acquireRegs n) := by decide +revert

/-- A loop at half its bandwidth. -/
def MpllSt.halved (m : MpllSt) : MpllSt := { m with halvings := m.halvings + 1, inWin := 0 }

section
variable {s : State} {n : Fin 3}

theorem exec_bandwidthHalving_halves (runs : s.mpllRuns n = true) (state : s.get (Reg.CLK_MPLL_STATE_STATE n) ∈ [1, 2])
    (within : s.get (Reg.CLK_MPLL_LOCK_N n) ≤ (s.mpll n).inWin)
    (wide : s.get (Reg.CLK_MPLL_BW_FINAL n) * 2 ^ (s.mpll n).halvings < 10000) :
    exec (.bandwidthHalving n) s = .next (if 10000 ≤ s.get (Reg.CLK_MPLL_BW_FINAL n) * 2 ^ ((s.mpll n).halvings + 1) then
      (s.modMpll n (·.halved)).set (Reg.CLK_MPLL_STATE_NARROW_DONE n) else s.modMpll n (·.halved)) :=
  if_pos ⟨runs, List.mem_pair.1 state, within, wide⟩

theorem exec_bandwidthHalving_none (none : s.mpllRuns n = false ∨ (s.mpll n).inWin < s.get (Reg.CLK_MPLL_LOCK_N n) ∨
      10000 ≤ s.get (Reg.CLK_MPLL_BW_FINAL n) * 2 ^ (s.mpll n).halvings) :
    exec (.bandwidthHalving n) s = .next s := by
  refine if_neg fun ⟨runs, _, within, wide⟩ => ?_
  rcases none with stopped | few | narrow
  · exact Bool.false_ne_true (stopped.symm.trans runs)
  · exact Nat.not_le.2 few within
  · exact Nat.not_le.2 wide narrow

end

/-! ### What the commands leave -/

/-- What a candidate that becomes the reference of a loop without one leaves. -/
theorem State.newReference_shows (s : State) (n : Fin 3) {k b : Nat} (number : b < 8) :
    let t := if b = k then (s.selectCandidate n b).modMpll n (·.countFrom b) else (s.unseenVsyncs n b).selectCandidate n b
    t.get (Reg.CLK_MPLL_STATE_SEL n) = b ∧ t.bit (Reg.CLK_MPLL_STATE_SEL_VALID n) = true ∧
      t.get (Reg.CLK_MPLL_STATE_STATE n) = 1 ∧ (t.mpll n).halvings = 0 ∧
      (t.get Reg.TIME_STATUS_ALIGNED).testBit n = false ∧ t.units = s.units ∧
      (b = k → Tab.get 0 (t.mpll n).vsyncs k = 0 ∧ (t.mpll n).opened = none) := by
  dsimp only
  split
  · next same =>
    subst same
    obtain ⟨sel, valid, state, halvings, unaligned⟩ := s.selectCandidate_shows n number
    obtain ⟨kept, zero, unopened⟩ := MpllSt.countFrom_spec b ((s.selectCandidate n b).mpll n)
    have units : (s.selectCandidate n b).units = s.units := State.units_of_standing (s.standing_selectCandidate n b)
    rw [State.mpll_modMpll_same]
    exact ⟨sel, valid, state, kept.trans halvings, unaligned, units, fun _ => ⟨zero, unopened⟩⟩
  · next other =>
    obtain ⟨sel, valid, state, halvings, unaligned⟩ := (s.unseenVsyncs n b).selectCandidate_shows n number
    have units : ((s.unseenVsyncs n b).selectCandidate n b).units = s.units := State.units_of_standing (by simp)
    exact ⟨sel, valid, state, halvings, unaligned, units, fun same => absurd same other⟩

/-- What a comparison shows and counts. -/
theorem exec_mpllComparison_spec {s : State} {n : Fin 3} (err word : Int) (vs : Bool) (runs : s.mpllRuns n = true) :
    ∃ t, exec (.mpllComparison n ⟨err, vs⟩ word) s = .next t ∧ t.get (Reg.CLK_MPLL_PHERR_ERR n) = unsigned32 err ∧ t.units = s.units ∧
      t.get (Reg.CLK_MPLL_STATE_STATE n) = s.get (Reg.CLK_MPLL_STATE_STATE n) ∧
      t.get (Reg.CLK_MPLL_DCO_WORD n) = (if s.get (Reg.CLK_MPLL_CTL_LOOP n) = 2 then s.get (Reg.CLK_MPLL_DCO_WORD n)
        else unsigned32 (heldWord word)) ∧
      (t.mpll n).inWin = (if err.natAbs ≤ s.get (Reg.CLK_MPLL_LOCK_WIN n) then (s.mpll n).inWin + 1 else 0) ∧
      (t.mpll n).vsyncs = ((s.seeVsync n vs).mpll n).vsyncs ∧ (t.mpll n).opened = ((s.seeVsync n vs).mpll n).opened := by
  obtain ⟨f, run, inWin, vsyncs, opened⟩ := exec_mpllComparison_runs err word vs runs
  obtain ⟨regs, units, counted⟩ := s.seeVsync_keeps n vs
  obtain ⟨error, state, dco⟩ := (s.seeVsync n vs).putComparison_shows n err word (s.get (Reg.CLK_MPLL_CTL_LOOP n) = 2)
  obtain ⟨time, sameUnits⟩ := (s.seeVsync n vs).putComparison_keeps n err word (s.get (Reg.CLK_MPLL_CTL_LOOP n) = 2)
  rw [State.get_of_regs regs] at state dco
  refine ⟨_, run, error, sameUnits.trans units, state, dco, ?_⟩
  rw [State.mpll_modMpll_same, State.mpll_of_time time, inWin, vsyncs, opened, counted]
  exact ⟨rfl, rfl, rfl⟩

/-- What the lock of a loop shows. -/
theorem State.lock_shows (s : State) (n : Fin 3) (si : Nat) :
    let t := (s.modMpll n (·.lockAt si)).masterClocks.enterMpll n 2
    t.get (Reg.CLK_MPLL_STATE_STATE n) = 2 ∧ (t.get (Reg.CLK_MPLL_STATE_HIST n)).testBit 2 = true ∧
      (t.mpll n).lockedAt = si ∧ (t.mpll n).everLocked = true ∧ t.units = s.units ∧
      ∀ g : Fin 4, s.bit (Reg.APG_CFG_MASTER g) = true → s.get (Reg.APG_CFG_DOMAIN g) = n →
        t.bit (Reg.APG_STATUS_CLK_OK g) = true := by
  obtain ⟨time, units⟩ := (s.modMpll n (·.lockAt si)).masterClocks_keeps
  obtain ⟨state, hist⟩ := State.enterMpll_shows (s.modMpll n (·.lockAt si)).masterClocks n (st := 2) (by decide)
  refine ⟨state, hist, ?_, ?_, (State.units_of_standing (State.standing_enterMpll _ n 2)).trans units, fun g master domain => ?_⟩
  · rw [State.mpll_enterMpll, State.mpll_of_time time, State.mpll_modMpll_same]
    rfl
  · rw [State.mpll_enterMpll, State.mpll_of_time time, State.mpll_modMpll_same]
    rfl
  · rw [(WritesOnly.enterMpll _ n 2).bit (clkOk_apart g n)]
    exact State.masterClocks_run _ g n master domain (by rw [State.mpll_modMpll_same]; rfl)

/-- Settles O45: each command through its equation above, a change of reference by `State.newReference_shows`, and the clocks of
the master groups by `State.masterClocks_run`. The free count of VSYNC pulses and the least length of a sequence are log 137. -/
theorem mpllLoop : Obligations.MpllLoop := by
  unfold Obligations.MpllLoop
  refine ⟨fun n k s => ⟨exec_candidateQualified_unfit, fun fit state valid => exec_candidateQualified_shows fit (.inr ⟨state, valid⟩),
      fun fit stopped => exec_candidateQualified_shows fit (.inl stopped), fun b fit runs invalid best =>
        ⟨_, exec_candidateQualified_selects fit runs invalid best, State.newReference_shows _ n (State.bestCandidate_lt best)⟩⟩,
    fun n k s => ⟨fun not => ?_, fun qualified other => ?_, fun b qualified reference best => ?_,
      fun qualified reference none state => ?_⟩,
    fun n k s => exec_revertWtrExpiry_better, fun n err word vs s => exec_mpllComparison_stopped _ word,
    fun n err word vs s runs => ?_,
    fun n s => ⟨fun runs acquires met => ⟨_, exec_lockCriterion_met runs acquires met, s.lock_shows n _⟩, exec_lockCriterion_unmet⟩,
    fun n s => ⟨fun runs locks out => ?_, exec_phaseExcursion_none⟩,
    fun n s => ⟨fun runs state within wide => ?_, exec_bandwidthHalving_none⟩⟩
  · rw [exec_candidateLoss, State.disqualify_unqualified not]
  · rw [exec_candidateLoss, State.disqualify_other qualified other]
    rfl
  · rw [exec_candidateLoss, State.disqualify_reference qualified reference]
    exact congrArg _ (State.loseReference_best best)
  · obtain ⟨invalid, lost, shows⟩ := s.loseOnly_shows n k none state
    have units : ((s.markLost n k).loseReference n).units = s.units := State.units_of_standing (by simp [State.markLost])
    rw [exec_candidateLoss, State.disqualify_reference qualified reference]
    exact ⟨_, rfl, invalid, units, lost, shows⟩
  · obtain ⟨t, run, error, units, state, dco, inWin, vsyncs, opened⟩ := exec_mpllComparison_spec err word vs runs
    refine ⟨t, run, error, units, state, fun host => dco.trans (if_pos host), fun loop inside => ?_, inWin, fun none => ?_,
      fun pulse valid video => ?_⟩
    · rw [dco, if_neg loop, heldWord_of_le inside]
    · subst none
      exact ⟨vsyncs, opened⟩
    · subst pulse
      rw [vsyncs, opened]
      exact State.vsync_counts valid video
  · obtain ⟨state, narrow, halvings⟩ := State.enterAcquire_shows (s.set (Reg.CLK_MPLL_STATE_UNLOCK n)) n
    have units : ((s.set (Reg.CLK_MPLL_STATE_UNLOCK n)).enterAcquire n).units = s.units := State.units_of_standing (by simp)
    exact ⟨_, exec_phaseExcursion_unlocks runs locks out, state,
      ((WritesOnly.enterAcquire _ n).bit (unlock_apart n)).trans (s.bit_set_same rfl), halvings, narrow, units⟩
  · have loop : (s.modMpll n (·.halved)).mpll n = (s.mpll n).halved := State.mpll_modMpll_same s n _
    refine ⟨_, exec_bandwidthHalving_halves runs state within wide, ?_⟩
    split
    · exact ⟨loop, rfl, fun _ => State.bit_set_same _ rfl⟩
    · next wide' => exact ⟨loop, rfl, fun narrow => absurd narrow wide'⟩

end Sys2Proof.Machine
end

