-- ==== Sys2Proof/Proofs/RoastAndRenumber.lean ====
section
/-! PROOF. The host's DCO word, roast profiles, alignment, and the renumbering of a domain (R394, R398–R401, R415–R418). -/

namespace Sys2Proof.Machine

/-! ### CLK_MPLL_DCO_WRITE (R394) -/

section
variable {s : State} {n : Fin 3} {w : BitVec 32}

theorem exec_clkMpllDcoWrite_restored (up : s.hostUp = true) (restored : s.bit Reg.GLOBAL_RESTORE_DONE = true)
    (new : s.get (Reg.CLK_MPLL_DCO_WORD n) ≠ w.toNat) : exec (.clkMpllDcoWrite n w) s = .next
      (if s.get (Reg.CLK_MPLL_CTL_LOOP n) = 2 ∧ w.toInt.natAbs ≤ dcoLimit then s.put (Reg.CLK_MPLL_DCO_WORD n) w.toNat
        else s.put Reg.CLK_STATUS_CFG_REJ 1) := by
  show execClkMpllDcoWrite n w s = _
  simp only [execClkMpllDcoWrite, State.ifRestored, State.ifHost, up, restored, new, if_true, if_false]
  exact (apply_ite Host.Outcome.next _ _ _).symm

end

/-! ### ROAST_START (R400) -/

section
variable {s : State} {n : Fin 3}

/-- A profile that is armed: one that has its boundary behind it begins at the boundary after (log 97). -/
def MpllSt.armed (l : List (Nat × Int)) (start : Nat) (d : DomSt) (m : MpllSt) : MpllSt :=
  { m with profile := l, startAt := start, lateTo := if start ≤ d.si then some (d.si + d.block) else none }

theorem exec_roastStart_arms (up : s.hostUp = true) (count : s.get (Reg.CLK_ROAST_NSEG_NSEG n) ∈ List.range' 1 16)
    (inRange : ∀ g ∈ s.roastSegments n, g.2.natAbs ≤ dcoLimit) (idle : s.get (Reg.CLK_ROAST_STATUS_STATE n) = 0)
    (glide : (s.mpll n).glideNext = false) : exec (.roastStart n) s = .next ((s.put (Reg.CLK_ROAST_STATUS_STATE n) 1).modMpll n
      (·.armed (s.roastSegments n) (s.get (Reg.CLK_ROAST_START_SI_SI n)) (s.dom n))) := by
  have segments : (s.roastSegments n).any (fun g => decide (dcoLimit < g.2.natAbs)) = false :=
    List.any_eq_false.2 fun g mem => by simpa using inRange g mem
  obtain ⟨low, high⟩ := List.mem_range'_1.1 count
  show execRoastStart n s = _
  refine (if_pos up).trans (if_neg ?_)
  rintro (none | many | far | busy | planned)
  · omega
  · omega
  · exact Bool.false_ne_true (segments.symm.trans far)
  · exact busy idle
  · exact Bool.false_ne_true (glide.symm.trans planned)

theorem exec_roastStart_rejects (up : s.hostUp = true) (bad : s.get (Reg.CLK_ROAST_NSEG_NSEG n) = 0 ∨
      16 < s.get (Reg.CLK_ROAST_NSEG_NSEG n) ∨ (∃ g ∈ s.roastSegments n, dcoLimit < g.2.natAbs) ∨
      s.get (Reg.CLK_ROAST_STATUS_STATE n) ≠ 0) :
    exec (.roastStart n) s = .next (s.put (Reg.CLK_ROAST_STATUS_ROAST_REJ n) 1) := by
  show execRoastStart n s = _
  refine (if_pos up).trans (if_pos ?_)
  rcases bad with none | many | ⟨g, mem, far⟩ | busy
  · exact .inl none
  · exact .inr (.inl many)
  · exact .inr (.inr (.inl (List.any_eq_true.2 ⟨g, mem, decide_eq_true far⟩)))
  · exact .inr (.inr (.inr (.inl busy)))

end

/-! ### The end of a profile or glide (R400, R401) -/

theorem roast_apart (n : Fin 3) :
    (Reg.CLK_ROAST_STATUS_STATE n).FreeOf [Reg.CLK_ROAST_STATUS_SEG n, Reg.TIME_STATUS_GLIDING] ∧
    (Reg.CLK_ROAST_STATUS_STATE n).FreeOf [Reg.CLK_ROAST_STATUS_SEG n, Reg.CLK_ROAST_STATUS_LATE n] ∧
    (Reg.CLK_ROAST_STATUS_SEG n).FreeOf [Reg.CLK_ROAST_STATUS_LATE n] ∧
    (Reg.CLK_ROAST_STATUS_STATE n).FreeOf [Reg.TIME_STATUS_GLIDING] := by decide +revert

@[simp] theorem State.mpll_roastDone (s : State) (n k : Nat) : (s.roastDone n).mpll k = s.mpll k := State.mpll_postNow ..
@[simp] theorem State.doms_roastDone (s : State) (n : Nat) : (s.roastDone n).doms = s.doms := State.postNow_doms ..
@[simp] theorem State.units_roastDone (s : State) (n : Nat) : (s.roastDone n).units = s.units := State.postNow_units ..
@[simp] theorem State.dom_roastDone (s : State) (n d : Nat) : (s.roastDone n).dom d = s.dom d := State.dom_postNow ..

/-- Nothing is armed, runs or glides any more. -/
theorem State.roastDone_shows (s : State) (n : Fin 3) : (s.roastDone n).get (Reg.CLK_ROAST_STATUS_STATE n) = 0 ∧
    ((s.roastDone n).get Reg.TIME_STATUS_GLIDING).testBit n = false := by
  obtain ⟨apart, -⟩ := roast_apart n
  have writes : WritesOnly [Reg.CLK_ROAST_STATUS_SEG n, Reg.TIME_STATUS_GLIDING] (s.put (Reg.CLK_ROAST_STATUS_STATE n) 0)
      (s.roastDone n) :=
    ((WritesOnly.put (by simp) 0).trans (.put (by simp) _)).trans (.host (.postNow ..))
  constructor
  · exact (writes _ apart).trans (State.get_put_same s _ 0)
  · refine (congrArg (Nat.testBit · n) (State.get_postNow _ _ _ _ _ _ (by decide) (by decide))).trans ?_
    exact State.testBit_clrMask ..

/-! ### ROAST_ABORT (R400) -/

section
variable {s : State} {n : Fin 3}

/-- A profile that ends where it is. -/
def MpllSt.stopAt (offset : Int) (phase : BitVec 64) (m : MpllSt) : MpllSt := { m with offset := offset, profile := [], phase := phase }

/-- The offset of a profile pulls its domain (R401). -/
def DomSt.pulled (offset : Int) (d : DomSt) : DomSt := { d with pull := offset }

theorem exec_roastAbort_idle (up : s.hostUp = true) (k : Nat) (idle : s.get (Reg.CLK_ROAST_STATUS_STATE n) ≠ 2) :
    exec (.roastAbort n k) s = .next s := (if_pos up).trans (if_neg idle)

theorem exec_roastAbort_running (up : s.hostUp = true) (k : Nat) (running : s.get (Reg.CLK_ROAST_STATUS_STATE n) = 2) :
    exec (.roastAbort n k) s = .next (((s.take.modMpll n (·.stopAt (s.offsetAt n k) (s.phaseAt n k))).modDom n
      (·.pulled (s.offsetAt n k))).roastDone n) := (if_pos up).trans (if_pos running)

end

/-- What the end of a profile or glide leaves of its loop and domain. -/
theorem State.roastDone_after (s : State) (n : Nat) (f : MpllSt → MpllSt) (g : DomSt → DomSt) :
    let t := ((s.modMpll n f).modDom n g).roastDone n
    t.mpll n = f (s.mpll n) ∧ t.dom n = g (s.dom n) ∧ t.units = s.units := by
  dsimp only
  rw [State.mpll_roastDone, State.dom_roastDone, State.units_roastDone, State.mpll_modDom, State.mpll_modMpll_same, State.dom_modDom,
    if_pos rfl]
  exact ⟨rfl, rfl, rfl⟩

/-! ### ROAST_PROFILE_BEGIN (R399, R415) -/

section
variable {s : State} {n : Fin 3}

def MpllSt.beginRoast (m : MpllSt) : MpllSt := { m with phase := 0 }
def MpllSt.beginGlide (m : MpllSt) : MpllSt := { m with glideNext := false, phase := 0 }

/-- A profile that begins with its first segment. -/
def State.beginRoast (s : State) (n : Nat) : State :=
  ((s.put (Reg.CLK_ROAST_STATUS_STATE n) 2).put (Reg.CLK_ROAST_STATUS_SEG n) 0).modMpll n MpllSt.beginRoast

theorem exec_roastProfileBegin_due (glide : (s.mpll n).glideNext = false) (armed : s.get (Reg.CLK_ROAST_STATUS_STATE n) = 1)
    (due : (s.mpll n).lateTo.getD (s.mpll n).startAt ≤ (s.dom n).si) : exec (.roastProfileBegin n) s = .next
      (if (s.mpll n).lateTo.isSome ∨ (s.mpll n).lateTo.getD (s.mpll n).startAt + (s.dom n).block ≤ (s.dom n).si then
        (s.beginRoast n).set (Reg.CLK_ROAST_STATUS_LATE n) else s.beginRoast n) :=
  (if_neg (by rw [glide]; decide)).trans (if_pos ⟨armed, due⟩)

theorem exec_roastProfileBegin_early (glide : (s.mpll n).glideNext = false)
    (early : (s.dom n).si < (s.mpll n).lateTo.getD (s.mpll n).startAt) : exec (.roastProfileBegin n) s = .next s :=
  (if_neg (by rw [glide]; decide)).trans (if_neg fun ⟨_, due⟩ => Nat.not_le.2 early due)

theorem exec_roastProfileBegin_glide (glide : (s.mpll n).glideNext = true) : exec (.roastProfileBegin n) s = .next
    (((s.put (Reg.CLK_ROAST_STATUS_STATE n) 3).setMask Reg.TIME_STATUS_GLIDING n).modMpll n MpllSt.beginGlide) :=
  if_pos glide

end

theorem State.beginRoast_shows (s : State) (n : Fin 3) : (s.beginRoast n).get (Reg.CLK_ROAST_STATUS_STATE n) = 2 ∧
    (s.beginRoast n).get (Reg.CLK_ROAST_STATUS_SEG n) = 0 ∧ (s.beginRoast n).mpll n = (s.mpll n).beginRoast := by
  obtain ⟨-, ⟨-, -, apart⟩, -⟩ := roast_apart n
  refine ⟨?_, State.get_put_same _ _ 0, State.mpll_modMpll_same ..⟩
  exact (State.get_put_ne _ (apart _ List.mem_cons_self) 0).trans (State.get_put_same s _ 2)

/-- A profile that begins late shows so, and begins as any other. -/
theorem State.beginRoast_late (s : State) (n : Fin 3) :
    let t := (s.beginRoast n).set (Reg.CLK_ROAST_STATUS_LATE n)
    t.get (Reg.CLK_ROAST_STATUS_STATE n) = 2 ∧ t.get (Reg.CLK_ROAST_STATUS_SEG n) = 0 ∧
      t.bit (Reg.CLK_ROAST_STATUS_LATE n) = true := by
  obtain ⟨-, state, segment, -⟩ := roast_apart n
  obtain ⟨runs, first, -⟩ := s.beginRoast_shows n
  refine ⟨?_, ?_, State.bit_set_same _ rfl⟩
  · exact (WritesOnly.put (by simp) 1 _ state).trans runs
  · exact (WritesOnly.put (by simp) 1 _ segment).trans first

/-! ### ROAST_SEGMENT_END (R398, R401) -/

section
variable {s : State} {n : Fin 3} {len : Nat} {fin : Int} {rest : List (Nat × Int)}

/-- A loop whose segment has ended. -/
def MpllSt.endSegment (rest : List (Nat × Int)) (fin : Int) (phase : BitVec 64) (m : MpllSt) : MpllSt :=
  { m with profile := rest, offset := fin, phase := phase }

/-- The last offset of a profile pulls its domain, that of a glide does not. -/
def DomSt.pulledBy (state : Nat) (fin : Int) (d : DomSt) : DomSt := if state = 2 then { d with pull := fin } else d

theorem exec_roastSegmentEnd_last (profile : (s.mpll n).profile = [(len, fin)])
    (running : s.get (Reg.CLK_ROAST_STATUS_STATE n) ∈ [2, 3]) : exec (.roastSegmentEnd n) s = .next
      (((s.modMpll n (·.endSegment [] fin (s.phaseAt n (s.segmentTicks n len)))).modDom n
        (·.pulledBy (s.get (Reg.CLK_ROAST_STATUS_STATE n)) fin)).roastDone n) := by
  show execRoastSegmentEnd n s = _
  simp only [execRoastSegmentEnd, profile]
  exact if_pos (List.mem_pair.1 running)

theorem exec_roastSegmentEnd_next (profile : (s.mpll n).profile = (len, fin) :: rest)
    (running : s.get (Reg.CLK_ROAST_STATUS_STATE n) ∈ [2, 3]) (more : rest ≠ []) : exec (.roastSegmentEnd n) s = .next
      ((s.modMpll n (·.endSegment rest fin (s.phaseAt n (s.segmentTicks n len)))).put (Reg.CLK_ROAST_STATUS_SEG n)
        (s.get (Reg.CLK_ROAST_STATUS_SEG n) + 1)) := by
  show execRoastSegmentEnd n s = _
  simp only [execRoastSegmentEnd, profile]
  refine (if_pos (List.mem_pair.1 running)).trans (if_neg ?_)
  simpa using more

theorem exec_roastSegmentEnd_none (none : (s.mpll n).profile = [] ∨ s.get (Reg.CLK_ROAST_STATUS_STATE n) ∉ [2, 3]) :
    exec (.roastSegmentEnd n) s = .next s := by
  show execRoastSegmentEnd n s = _
  unfold execRoastSegmentEnd
  dsimp only
  split
  · rfl
  · next profile => exact if_neg fun running => none.elim (by rw [profile]; nofun) fun idle => idle (List.mem_pair.2 running)

end

/-- What the end of a segment leaves. -/
theorem exec_roastSegmentEnd_spec {s : State} {n : Fin 3} {len : Nat} {fin : Int} {rest : List (Nat × Int)}
    (profile : (s.mpll n).profile = (len, fin) :: rest) (running : s.get (Reg.CLK_ROAST_STATUS_STATE n) ∈ [2, 3]) :
    ∃ t, exec (.roastSegmentEnd n) s = .next t ∧ t.units = s.units ∧
      t.mpll n = (s.mpll n).endSegment rest fin (s.phaseAt n (s.segmentTicks n len)) ∧
      (rest = [] → t.get (Reg.CLK_ROAST_STATUS_STATE n) = 0 ∧
        t.dom n = (s.dom n).pulledBy (s.get (Reg.CLK_ROAST_STATUS_STATE n)) fin ∧
        (t.get Reg.TIME_STATUS_GLIDING).testBit n = false) ∧
      (rest ≠ [] → t.doms = s.doms ∧
        t.get (Reg.CLK_ROAST_STATUS_SEG n) = (s.get (Reg.CLK_ROAST_STATUS_SEG n) + 1) % 16) := by
  by_cases last : rest = []
  · subst last
    obtain ⟨loop, domain, units⟩ := s.roastDone_after n (·.endSegment [] fin (s.phaseAt n (s.segmentTicks n len)))
      (·.pulledBy (s.get (Reg.CLK_ROAST_STATUS_STATE n)) fin)
    obtain ⟨state, gliding⟩ := State.roastDone_shows ((s.modMpll n (·.endSegment [] fin (s.phaseAt n (s.segmentTicks n len)))).modDom n
      (·.pulledBy (s.get (Reg.CLK_ROAST_STATUS_STATE n)) fin)) n
    exact ⟨_, exec_roastSegmentEnd_last profile running, units, loop, fun _ => ⟨state, domain, gliding⟩, fun more => absurd rfl more⟩
  · exact ⟨_, exec_roastSegmentEnd_next profile running last, rfl, State.mpll_modMpll_same ..,
      fun none => absurd none last, fun _ => ⟨rfl, State.get_put_same ..⟩⟩

/-! ### ALIGN_COMPLETE (R415) -/

/-- The conditions under which a domain is aligned. -/
theorem exec_alignComplete (s : State) (d : Fin 3) :
    let ready := s.get (Reg.CLK_MPLL_STATE_STATE d) = 2 ∧ s.bit (Reg.CLK_MPLL_STATE_SEL_VALID d) = true ∧
      s.carriesTime d (s.get (Reg.CLK_MPLL_STATE_SEL d)) = true ∧ (s.get Reg.TIME_STATUS_GLIDING).testBit d = false ∧
      (s.mpll d).glideNext = false
    (ready → exec (.alignComplete d) s = .next ((s.setMask Reg.TIME_STATUS_ALIGNED d).postNow .clock (some 51) 0x25 [d])) ∧
      (¬ready → exec (.alignComplete d) s = .next s) :=
  ⟨fun ready => if_pos ready, fun wait => if_neg wait⟩

/-! ### RENUMBERING (R415–R418) -/

/-- The nearest multiple of a block, and a rest of at most half a block. -/
theorem splitOffset_spec {block : Nat} (some : 0 < block) (delta : Int) : let p := splitOffset block delta
    2 * p.2.natAbs ≤ block * 2 ^ 16 ∧ p.1 * ((block * 2 ^ 16 : Nat) : Int) + p.2 = delta := by
  have units : 0 < block * 2 ^ 16 := by positivity
  simp only [splitOffset]
  generalize block * 2 ^ 16 = u at units
  refine ⟨?_, by ring⟩
  generalize quotient : (2 * delta.natAbs + u - 1) / (2 * u) = q
  have low : q * (2 * u) ≤ 2 * delta.natAbs + u - 1 := quotient ▸ Nat.div_mul_le_self ..
  have high : 2 * delta.natAbs + u - 1 < 2 * u * (q + 1) := quotient ▸ Nat.lt_mul_div_succ _ (by omega)
  have split : 2 * u * (q + 1) = 2 * (q * u) + 2 * u := by ring
  have double : q * (2 * u) = 2 * (q * u) := by ring
  rw [split] at high
  rw [double] at low
  have cast : (q : Int) * (u : Int) = ((q * u : Nat) : Int) := (Nat.cast_mul q u).symm
  split
  · rw [Int.neg_mul, cast]; omega
  · rw [cast]; omega

/-- The registers that show an SI of what is planned (R423). -/
def itemRegs : List Fld :=
  Reg.SCHED_SWITCH_SI_SI :: ((List.range 3).map Reg.CLK_ROAST_START_SI_SI ++ (List.range 8).map Reg.TIME_TRIG_SI_SI)

/-- Programs, units, issued commands and domains are as they were, and of the registers all that show no planned SI. -/
structure SameButItems (s t : State) : Prop where
  units : t.units = s.units
  prog : t.prog = s.prog
  issued : t.host.issued = s.host.issued
  regs : WritesOnly itemRegs s t

theorem SameButItems.of_eq {s t : State} (units : t.units = s.units) (prog : t.prog = s.prog) (issued : t.host.issued = s.host.issued)
    (regs : t.regs = s.regs) : SameButItems s t := ⟨units, prog, issued, .of_regs regs⟩

theorem SameButItems.withTime (s : State) (time : TimeSt) : SameButItems s { s with time := time } := .of_eq rfl rfl rfl rfl

theorem SameButItems.trans {s t u : State} (a : SameButItems s t) (b : SameButItems t u) : SameButItems s u :=
  ⟨b.units.trans a.units, b.prog.trans a.prog, b.issued.trans a.issued, a.regs.trans b.regs⟩

theorem SameButItems.put (s : State) {g : Fld} (mem : g ∈ itemRegs) (v : Nat) : SameButItems s (s.put g v) := ⟨rfl, rfl, rfl, .put mem v⟩

section
variable (s : State) (d : Nat) (f : Nat → Nat)

theorem SameButItems.mapClusters : SameButItems s (s.mapClusters d f) :=
  State.each_keeps (SameButItems s) (fun c t => t.modCluster c (·.renumber f)) (fun _ _ h => h.trans (.of_eq rfl rfl rfl rfl)) s _
    (.of_eq rfl rfl rfl rfl)

theorem SameButItems.mapTimed : SameButItems s (s.mapTimed d f) := by
  unfold State.mapTimed
  dsimp only
  split
  · exact .of_eq rfl rfl rfl rfl
  · exact ⟨rfl, rfl, rfl, WritesOnly.put (s := s) (g := Reg.SCHED_SWITCH_SI_SI) List.mem_cons_self _⟩

theorem SameButItems.moveTrigger {k : Nat} (trigger : k < 8) (t : State) : SameButItems t (State.moveTrigger d f k t) := by
  have mem : Reg.TIME_TRIG_SI_SI k ∈ itemRegs :=
    List.mem_cons_of_mem _ (List.mem_append_right _ (List.mem_map_of_mem (List.mem_range.2 trigger)))
  unfold State.moveTrigger
  split
  · split
    · exact ⟨rfl, rfl, rfl, WritesOnly.put (s := t) mem _⟩
    · exact .of_eq rfl rfl rfl rfl
  · exact .of_eq rfl rfl rfl rfl

variable {d} in
theorem SameButItems.mapClocks (domain : d < 3) : SameButItems s (s.mapClocks d f) := by
  have mem : Reg.CLK_ROAST_START_SI_SI d ∈ itemRegs :=
    List.mem_cons_of_mem _ (List.mem_append_left _ (List.mem_map_of_mem (List.mem_range.2 domain)))
  have opened : SameButItems s (s.modMpll d fun m => { m with opened := m.opened.map f }) := .of_eq rfl rfl rfl rfl
  have profiles : SameButItems s (if s.get (Reg.CLK_ROAST_STATUS_STATE d) = 1 then
      ((s.modMpll d fun m => { m with opened := m.opened.map f }).modMpll d fun m =>
        { m with startAt := f m.startAt, lateTo := m.lateTo.map f }).put (Reg.CLK_ROAST_START_SI_SI d) (f (s.mpll d).startAt)
      else s.modMpll d fun m => { m with opened := m.opened.map f }) := by
    split
    · have latched : SameButItems s ((s.modMpll d fun m => { m with opened := m.opened.map f }).modMpll d fun m =>
          { m with startAt := f m.startAt, lateTo := m.lateTo.map f }) := .of_eq rfl rfl rfl rfl
      exact latched.trans (.put _ mem _)
    · exact opened
  have triggers (t : State) (h : SameButItems s t) : SameButItems s (t.each (List.range 8) (State.moveTrigger d f)) :=
    State.each_keeps_mem (SameButItems s) _ t _ (fun k inside u h => h.trans (.moveTrigger d f (List.mem_range.1 inside) u)) h
  unfold State.mapClocks
  dsimp only
  split
  · exact triggers _ profiles
  · exact (triggers _ profiles).trans (.withTime _ _)

theorem SameButItems.mapRest : SameButItems s (s.mapRest d f) := by
  unfold State.mapRest
  dsimp only
  split <;> exact .of_eq rfl rfl rfl rfl

variable {d} in
theorem SameButItems.mapSi (domain : d < 3) : SameButItems s (s.mapSi d f) := by
  have mix : SameButItems s (s.mapMix d f) := .of_eq rfl rfl rfl rfl
  have edge (t : State) : SameButItems t (t.mapEdge d f) := .of_eq rfl rfl rfl rfl
  have count (t : State) (g : DomSt → DomSt) : SameButItems t (t.modDom d g) := .of_eq rfl rfl rfl rfl
  exact ((((((mix.trans (.mapClusters _ d f)).trans (.mapTimed _ d f)).trans (.mapClocks _ f domain)).trans (edge _)).trans
    (.mapRest _ d f)).trans (count _ _))

/-- A domain that counts its samples anew. -/
def DomSt.renumber (f : Nat → Nat) (x : DomSt) : DomSt := { x with si := f x.si, begun := f x.begun }

theorem State.dom_mapSi (k : Nat) : (s.mapSi d f).dom k = if k = d then (s.dom d).renumber f else s.dom k := by
  refine (State.dom_modDom _ d k _).trans ?_
  rw [State.dom, State.dom, (SameRanges.mapItems s d f).doms]
  rfl

end

/-- The domain's samples and all its items have their new numbers, and those of the domains that follow it. -/
def State.moveSamples (s : State) (d : Nat) (j : Int) : State :=
  let s1 := s.mapSi d (shiftSi j)
  if d = 0 then
    s1.each ((List.range 3).filter s.followsP) fun k t =>
      t.mapSi k (shiftSi (followShift (s.dom k).block (s.dom k).rate (s.dom d).rate j))
  else s1

theorem exec_renumbering (s : State) (d : Fin 3) (delta : Int) : let p := splitOffset (s.dom d).block delta
    let t := s.moveSamples d (p.1 * (s.dom d).block)
    exec (.renumbering d delta) s = .next (if p.2 = 0 ∨ s.get (Reg.CLK_ROAST_STATUS_STATE d) ≠ 0 then t
      else t.modMpll d fun m => { m with profile := t.glideFor d p.2, glideNext := true }) := rfl

theorem State.moveSamples_same (s : State) (d : Fin 3) (j : Int) : SameButItems s (s.moveSamples d j) := by
  have own : SameButItems s (s.mapSi d (shiftSi j)) := .mapSi s _ d.isLt
  unfold State.moveSamples
  dsimp only
  split
  · refine State.each_keeps_mem (SameButItems s) _ _ _ (fun k follows t h => h.trans (.mapSi t _ ?_)) own
    exact List.mem_range.1 (List.mem_filter.1 follows).1
  · exact own

/-- The followers of domain P are other domains, so each domain is counted anew once. -/
theorem State.dom_moveSamples (s : State) (d : Fin 3) (j : Int) : (s.moveSamples d j).dom d = (s.dom d).renumber (shiftSi j) := by
  have own : (s.mapSi d (shiftSi j)).dom d = (s.dom d).renumber (shiftSi j) := (State.dom_mapSi s d _ d).trans (if_pos rfl)
  unfold State.moveSamples
  dsimp only
  split
  · next first =>
    refine State.each_keeps_mem (fun t => t.dom d = (s.dom d).renumber (shiftSi j)) _ _ _ (fun k follows t h => ?_) own
    have other : d.val ≠ k := by
      have positive := (List.mem_filter.1 follows).2
      simp only [State.followsP, Bool.and_eq_true, decide_eq_true_eq] at positive
      omega
    rw [State.dom_mapSi, if_neg other, h]
  · exact own

/-- A glide depends on the settings of alignment and the rate of its domain alone. -/
theorem State.glideFor_congr {s t : State} {d : Nat} (ppm : t.get Reg.TIME_ALIGN_CFG_GLIDE_PPM = s.get Reg.TIME_ALIGN_CFG_GLIDE_PPM)
    (ramp : t.get Reg.TIME_ALIGN_CFG_RAMP_MS = s.get Reg.TIME_ALIGN_CFG_RAMP_MS) (rate : (t.dom d).rate = (s.dom d).rate) (r : Int) :
    t.glideFor d r = s.glideFor d r := by
  simp only [State.glideFor, State.samplesMs, State.samples, ppm, ramp, rate]

theorem State.glideFor_moveSamples (s : State) (d : Fin 3) (j r : Int) : (s.moveSamples d j).glideFor d r = s.glideFor d r := by
  have writes := (s.moveSamples_same d j).regs
  exact State.glideFor_congr (writes _ (by decide)) (writes _ (by decide)) ((congrArg DomSt.rate (s.dom_moveSamples d j)).trans rfl) r

/-- What a renumbering leaves. -/
theorem exec_renumbering_spec (s : State) (d : Fin 3) (delta : Int) : let p := splitOffset (s.dom d).block delta
    ∃ t, exec (.renumbering d delta) s = .next t ∧ t.units = s.units ∧ t.prog = s.prog ∧ t.host.issued = s.host.issued ∧
      t.dom d = (s.dom d).renumber (shiftSi (p.1 * ((s.dom d).block : Int))) ∧
      (p.2 ≠ 0 → s.get (Reg.CLK_ROAST_STATUS_STATE d) = 0 → (t.mpll d).glideNext = true ∧ (t.mpll d).profile = s.glideFor d p.2) := by
  have run := exec_renumbering s d delta
  dsimp only at run ⊢
  generalize splitOffset (s.dom d).block delta = p at run ⊢
  obtain ⟨units, prog, issued, -⟩ := s.moveSamples_same d (p.1 * (s.dom d).block)
  have domain := s.dom_moveSamples d (p.1 * (s.dom d).block)
  refine ⟨_, run, ?_⟩
  split
  · next none => exact ⟨units, prog, issued, domain, fun rest idle => absurd none (not_or.2 ⟨rest, not_not.2 idle⟩)⟩
  · refine ⟨units, prog, issued, domain, fun _ _ => ?_⟩
    rw [State.mpll_modMpll_same, State.glideFor_moveSamples]
    exact ⟨rfl, rfl⟩

/-- Settles O46: each command through its equation above, and a renumbering by what each of its parts leaves of units, programs and
domains. START_SI latched at arming is log 97, a glide that an abort does not end log 36, the unit of phase log 152. -/
theorem roastAlignAndRenumber : Obligations.RoastAlignAndRenumber := by
  unfold Obligations.RoastAlignAndRenumber
  refine ⟨fun n w s up restored => ⟨fun host inside new => ?_, fun new bad => ?_⟩,
    fun n k s up => ⟨exec_roastStart_arms up, exec_roastStart_rejects up, exec_roastAbort_idle up k, fun running => ?_⟩,
    fun n s glide armed => ⟨fun due => ?_, exec_roastProfileBegin_early glide⟩, fun n s glide => ?_,
    fun n len fin rest s profile running => ?_, fun n s => exec_roastSegmentEnd_none, fun d s => exec_alignComplete s d,
    fun d delta s some => ?_⟩
  · rw [exec_clkMpllDcoWrite_restored up restored new, if_pos ⟨host, inside⟩]
  · rw [exec_clkMpllDcoWrite_restored up restored new, if_neg fun ⟨host, inside⟩ => bad.elim (· host) (Nat.not_lt.2 inside)]
  · obtain ⟨loop, domain, units⟩ := s.take.roastDone_after n (·.stopAt (s.offsetAt n k) (s.phaseAt n k)) (·.pulled (s.offsetAt n k))
    obtain ⟨state, -⟩ := State.roastDone_shows ((s.take.modMpll n (·.stopAt (s.offsetAt n k) (s.phaseAt n k))).modDom n
      (·.pulled (s.offsetAt n k))) n
    exact ⟨_, exec_roastAbort_running up k running, state, congrArg MpllSt.profile loop, congrArg MpllSt.offset loop,
      congrArg MpllSt.phase loop, congrArg DomSt.pull domain, units⟩
  · obtain ⟨state, segment, loop⟩ := s.beginRoast_shows n
    refine ⟨_, exec_roastProfileBegin_due glide armed due, ?_⟩
    split
    · obtain ⟨state, segment, late⟩ := s.beginRoast_late n
      have kept : ((s.beginRoast n).set (Reg.CLK_ROAST_STATUS_LATE n)).mpll n = (s.mpll n).beginRoast := loop
      exact ⟨state, segment, (congrArg MpllSt.phase kept).trans rfl, (congrArg MpllSt.profile kept).trans rfl, rfl, fun _ => late⟩
    · next onTime =>
      exact ⟨state, segment, (congrArg MpllSt.phase loop).trans rfl, (congrArg MpllSt.profile loop).trans rfl, rfl, fun late =>
        absurd (late.imp_left Option.isSome_iff_ne_none.2) onTime⟩
  · obtain ⟨-, -, -, ⟨-, -, apart⟩⟩ := roast_apart n
    have loop := State.mpll_modMpll_same ((s.put (Reg.CLK_ROAST_STATUS_STATE n) 3).setMask Reg.TIME_STATUS_GLIDING n) n MpllSt.beginGlide
    refine ⟨_, exec_roastProfileBegin_glide glide, ?_, ?_, (congrArg MpllSt.glideNext loop).trans rfl,
      (congrArg MpllSt.profile loop).trans rfl, rfl⟩
    · exact (State.get_put_ne _ (apart _ List.mem_cons_self) _).trans (State.get_put_same s _ 3)
    · exact State.testBit_setMask _ n.isLt
  · obtain ⟨t, run, units, loop, last, next⟩ := exec_roastSegmentEnd_spec profile running
    refine ⟨t, run, units, congrArg MpllSt.offset loop, congrArg MpllSt.profile loop, congrArg MpllSt.phase loop, fun none => ?_,
      fun more room => ?_⟩
    · obtain ⟨state, domain, gliding⟩ := last none
      exact ⟨state, (congrArg DomSt.pull domain).trans (apply_ite DomSt.pull _ _ _), gliding⟩
    · obtain ⟨doms, segment⟩ := next more
      exact ⟨doms, segment.trans (Nat.mod_eq_of_lt (by omega))⟩
  · obtain ⟨half, whole⟩ := splitOffset_spec some delta
    obtain ⟨t, run, units, prog, issued, domain, glide⟩ := exec_renumbering_spec s d delta
    exact ⟨half, whole, t, run, units, prog, issued, congrArg DomSt.si domain, (congrArg DomSt.rate domain).trans rfl, glide⟩

end Sys2Proof.Machine
end

