-- ==== Sys2Proof/Proofs/StampsAndTriggers.lean ====
section
/-! PROOF. PTP messages and their stamps, port states, triggers and the time snapshot (R408, R410–R413, R420, R422). -/

namespace Sys2Proof.Machine

/-! ### PTP_MESSAGE_TX and TX_STAMP_DRAIN (R408, R410–R413) -/

theorem stamp_apart (x : Fin 3) :
    (Reg.NET_TX_FRAMES_COUNT x).FreeOf [Reg.TIME_TSQ_COUNT x, Reg.TIME_TSQ_TSQ_OVF x, Reg.TIME_TSQ_DROPPED x] ∧
    (Reg.TIME_TSQ_TSQ_OVF x).FreeOf [Reg.TIME_TSQ_DROPPED x] ∧ (Reg.TIME_TSQ_COUNT x).FreeOf [] := by decide +revert

/-- A message that is counted, with its authentication TLV (R413). -/
def State.countPtp (s : State) : State :=
  { s with time := { s.time with
      ptpSent := s.time.ptpSent + 1, ptpTlv := s.time.ptpTlv + if s.bit Reg.TIME_PTP_CFG_AUTH then 1 else 0 } }

theorem exec_ptpMessageTx_enabled {s : State} {x : Fin 3} (isEvent requested : Bool) (id : BitVec 16) (stamp : Nat)
    (enabled : s.bit (Reg.TIME_PTP_PORT_EN x) = true) : let s1 := s.countPtp.bump (Reg.NET_TX_FRAMES_COUNT x)
    exec (.ptpMessageTx x isEvent id requested stamp) s = .next
      (if isEvent then s1.pushStamp x ⟨id.toNat, stamp + s.get (Reg.TIME_PORT_LAT_EGRESS x), requested⟩ else s1) := if_pos enabled

section
variable {s : State} {x : Fin 3} (e : TxStamp)

theorem State.pushStamp_stored (room : (Tab.get [] s.time.tsq x).length < 16) : s.pushStamp x e =
    ({ s with time := { s.time with tsq := Tab.put [] s.time.tsq x (Tab.get [] s.time.tsq x ++ [e]) } }).put (Reg.TIME_TSQ_COUNT x)
      ((Tab.get [] s.time.tsq x).length + 1) := if_pos room

/-- A stamp that finds its queue full is counted. -/
def State.dropStamp (s : State) (x : Nat) : State :=
  ((s.set (Reg.TIME_TSQ_TSQ_OVF x)).bump (Reg.TIME_TSQ_DROPPED x)).postNow .clock (some 50) 0x23 [x]

theorem State.pushStamp_dropped (full : 16 ≤ (Tab.get [] s.time.tsq x).length) : SameButHost (s.dropStamp x) (s.pushStamp x e) := by
  unfold State.pushStamp State.dropStamp
  dsimp only
  rw [if_neg (Nat.not_lt.2 full)]
  split
  · exact .post ..
  · exact .refl _

/-- A stamp leaves the units and the counts of messages, and of the registers writes those of its queue. -/
theorem State.pushStamp_keeps : (s.pushStamp x e).units = s.units ∧ (s.pushStamp x e).time.ptpSent = s.time.ptpSent ∧
    (s.pushStamp x e).time.ptpTlv = s.time.ptpTlv ∧
    WritesOnly [Reg.TIME_TSQ_COUNT x, Reg.TIME_TSQ_TSQ_OVF x, Reg.TIME_TSQ_DROPPED x] s (s.pushStamp x e) := by
  by_cases room : (Tab.get [] s.time.tsq x).length < 16
  · rw [State.pushStamp_stored e room]
    exact ⟨rfl, rfl, rfl, .trans (.of_regs rfl) (.put (by simp) _)⟩
  · have dropped := State.pushStamp_dropped e (Nat.not_lt.1 room)
    have time : (s.pushStamp x e).time = s.time := dropped.time.trans (State.postNow_time ..)
    refine ⟨dropped.units.trans (State.postNow_units ..), congrArg _ time, congrArg _ time, .trans ?_ (.host dropped)⟩
    exact ((WritesOnly.put (by simp) 1).trans (.put (by simp) _)).trans (.host (.postNow ..))

theorem State.pushStamp_full (full : 16 ≤ (Tab.get [] s.time.tsq x).length) :
    (s.pushStamp x e).time.tsq = s.time.tsq ∧ (s.pushStamp x e).bit (Reg.TIME_TSQ_TSQ_OVF x) = true := by
  obtain ⟨-, overflow, -⟩ := stamp_apart x
  have dropped := State.pushStamp_dropped e full
  have writes : WritesOnly [Reg.TIME_TSQ_DROPPED x] (s.set (Reg.TIME_TSQ_TSQ_OVF x)) (s.pushStamp x e) :=
    ((WritesOnly.put (by simp) _).trans (.host (.postNow ..))).trans (.host dropped)
  exact ⟨congrArg TimeSt.tsq (dropped.time.trans (State.postNow_time ..)), (writes.bit overflow).trans (s.bit_set_same rfl)⟩

end

theorem exec_txStampDrain (s : State) (x : Fin 3) :
    let s1 := ({ s with time := { s.time with tsq := Tab.put [] s.time.tsq x [] } }).put (Reg.TIME_TSQ_COUNT x) 0
    ∃ t, exec (.txStampDrain x) s = .next t ∧ SameButHost s1 t :=
  ⟨_, rfl, State.each_keeps (SameButHost _) _ (fun _ _ same => same.trans (.postNow ..)) _ _ (.refl _)⟩

/-! ### PTP_PORT_STATE_CHANGE (R383, R392, R408) -/

theorem portState_apart (x : Fin 3) : (∀ y : Fin 3, y ≠ x → (Reg.TIME_PTP_PORT_PSTATE y).FreeOf [Reg.TIME_PTP_PORT_PSTATE x]) ∧
    (Reg.TIME_PTP_PORT_PSTATE x).FreeOf [] ∧ ∀ n : Fin 3, (Reg.TIME_PTP_PORT_PSTATE x).FreeOf (candidateRegs n) := by decide +revert

theorem candidate_apart (m n : Fin 3) : (∀ k : Fin 8, (Reg.CLK_MPLL_CAND_SRC n k).FreeOf (candidateRegs m)) ∧
    (m ≠ n → (Reg.CLK_MPLL_QUAL_QUALIFIED n).FreeOf (candidateRegs m)) := by decide +revert

/-- Losing one candidate qualifies no other. -/
theorem State.isQualified_disqualify (t : State) (m n : Fin 3) (j k : Nat) (not : t.isQualified n k = false) :
    (t.disqualify m j).isQualified n k = false := by
  by_cases same : m = n
  · subst same
    obtain ⟨-, -, reference, ⟨-, -, mark⟩, -⟩ := loss_apart m
    have marked : (t.markLost m j).isQualified m k = false := by
      rw [State.isQualified, State.markLost, State.setMask, State.get_put_ne _ (mark _ List.mem_cons_self)]
      exact State.testBit_clrMask_of_clear t _ j not
    have lost : ((t.markLost m j).loseReference m).isQualified m k = false :=
      (congrArg (Nat.testBit · k) (WritesOnly.loseReference (t.markLost m j) m _ reference)).trans marked
    cases qualified : t.isQualified m j with
    | false => rw [State.disqualify_unqualified qualified, not]
    | true =>
      by_cases selected : t.bit (Reg.CLK_MPLL_STATE_SEL_VALID m) = true ∧ t.get (Reg.CLK_MPLL_STATE_SEL m) = j
      · rw [State.disqualify_reference qualified selected, lost]
      · rw [State.disqualify_other qualified selected, marked]
  · obtain ⟨-, other⟩ := candidate_apart m n
    exact (congrArg (Nat.testBit · k) (WritesOnly.disqualify t m j _ (other same))).trans not

/-- A candidate that is lost is not qualified. -/
theorem State.isQualified_disqualify_same (t : State) (n : Fin 3) (k : Nat) : (t.disqualify n k).isQualified n k = false := by
  cases qualified : t.isQualified n k with
  | false => exact t.isQualified_disqualify n n k k qualified
  | true =>
    obtain ⟨-, -, reference, -⟩ := loss_apart n
    by_cases selected : t.bit (Reg.CLK_MPLL_STATE_SEL_VALID n) = true ∧ t.get (Reg.CLK_MPLL_STATE_SEL n) = k
    · rw [State.disqualify_reference qualified selected]
      exact (congrArg (Nat.testBit · k) (WritesOnly.loseReference (t.markLost n k) n _ reference)).trans
        (t.isQualified_markLost n k)
    · rw [State.disqualify_other qualified selected]
      exact t.isQualified_markLost n k

/-- A candidate of a loop that is lost where it takes its time from PTP. -/
def State.losePtp (n k : Nat) (t : State) : State := if t.get (Reg.CLK_MPLL_CAND_SRC n k) == 1 then t.disqualify n k else t

/-- The PTP candidates of a loop are lost. -/
def State.losePtps (n : Nat) (t : State) : State := t.each (List.range 8) (State.losePtp n)

theorem WritesOnly.losePtp (n k : Nat) (t : State) : WritesOnly (candidateRegs n) t (t.losePtp n k) := .ite (.disqualify t n k) .refl

theorem WritesOnly.losePtps (n : Nat) (t : State) : WritesOnly (candidateRegs n) t (t.losePtps n) :=
  .each fun k _ u => .losePtp n k u

theorem State.units_losePtps (n : Nat) (t : State) : (t.losePtps n).units = t.units := by
  refine State.each_keeps (fun u => u.units = t.units) _ (fun k u same => ?_) t _ rfl
  rw [State.losePtp]
  split
  · exact (State.units_of_standing (State.standing_disqualify u n k)).trans same
  · exact same

theorem State.isQualified_losePtp (m n : Fin 3) (j k : Nat) (t : State) (not : t.isQualified n k = false) :
    (t.losePtp m j).isQualified n k = false := by
  rw [State.losePtp]
  split
  · exact t.isQualified_disqualify m n j k not
  · exact not

theorem State.isQualified_losePtps (m n : Fin 3) (k : Nat) (t : State) (not : t.isQualified n k = false) :
    (t.losePtps m).isQualified n k = false :=
  State.each_keeps (fun u => u.isQualified n k = false) _ (fun j u h => u.isQualified_losePtp m n j k h) t _ not

/-- In the loop itself each PTP candidate is lost in its turn, and none after it qualifies it again. -/
theorem State.losePtps_loses (n : Fin 3) (k : Fin 8) (t : State) (ptp : t.get (Reg.CLK_MPLL_CAND_SRC n k) = 1) :
    (t.losePtps n).isQualified n k = false := by
  obtain ⟨source, -⟩ := candidate_apart n n
  refine State.each_brings (fun u => u.get (Reg.CLK_MPLL_CAND_SRC n k) = 1) (fun u => u.isQualified n k = false) _ List.nodup_range
    (List.mem_range.2 k.isLt) ?_ ?_ ?_ ptp
  · exact fun j _ _ u h => (WritesOnly.losePtp n j u _ (source k)).trans h
  · intro u h
    rw [State.losePtp, h, if_pos (by decide)]
    exact u.isQualified_disqualify_same n k
  · exact fun j _ _ u h => u.isQualified_losePtp n n j k h

/-- All PTP candidates are lost. -/
def State.loseAllPtp (s : State) : State := s.each (List.range 3) State.losePtps

theorem State.loseAllPtp_keeps (s : State) : s.loseAllPtp.units = s.units ∧
    ∀ x : Fin 3, s.loseAllPtp.get (Reg.TIME_PTP_PORT_PSTATE x) = s.get (Reg.TIME_PTP_PORT_PSTATE x) := by
  refine ⟨State.each_keeps (fun u => u.units = s.units) _ (fun n u same => (u.units_losePtps n).trans same) s _ rfl, fun x => ?_⟩
  obtain ⟨-, -, apart⟩ := portState_apart x
  refine State.each_keeps_mem (fun u => u.get (Reg.TIME_PTP_PORT_PSTATE x) = s.get (Reg.TIME_PTP_PORT_PSTATE x)) _ s _
    (fun n mem u same => ?_) rfl
  exact (WritesOnly.losePtps n u _ (apart ⟨n, List.mem_range.1 mem⟩)).trans same

theorem State.loseAllPtp_loses (s : State) (n : Fin 3) (k : Fin 8) (ptp : s.get (Reg.CLK_MPLL_CAND_SRC n k) = 1) :
    s.loseAllPtp.isQualified n k = false := by
  refine State.each_brings (fun u => u.get (Reg.CLK_MPLL_CAND_SRC n k) = 1) (fun u => u.isQualified n k = false) _ List.nodup_range
    (List.mem_range.2 n.isLt) ?_ ?_ ?_ ptp
  · intro m mem _ u h
    obtain ⟨source, -⟩ := candidate_apart ⟨m, List.mem_range.1 mem⟩ n
    exact (WritesOnly.losePtps m u _ (source k)).trans h
  · exact fun u h => u.losePtps_loses n k h
  · exact fun m mem _ u h => u.isQualified_losePtps ⟨m, List.mem_range.1 mem⟩ n k h

section
variable {s : State} {x : Fin 3} {p : Fin 10} {gm : Bool}

/-- A port that shows its new state, with one event. -/
def State.showPort (s : State) (x : Fin 3) (p : Fin 10) (gm : Bool) : State :=
  (s.put (Reg.TIME_PTP_PORT_PSTATE x) p).postNow .clock (some 49) 0x22 [x, p, if gm then 1 else 0]

theorem State.showPort_get_same (s : State) (x : Fin 3) (p : Fin 10) (gm : Bool) :
    (s.showPort x p gm).get (Reg.TIME_PTP_PORT_PSTATE x) = p := by
  obtain ⟨-, ⟨lo, outside, -⟩, -⟩ := portState_apart x
  exact (State.get_postNow _ _ _ _ _ _ lo outside).trans
    (State.get_put_lt s (Reg.TIME_PTP_PORT_PSTATE x) p (Nat.lt_trans p.isLt (by decide : 10 < 2 ^ 4)))

theorem WritesOnly.showPort (s : State) (x : Fin 3) (p : Fin 10) (gm : Bool) :
    WritesOnly [Reg.TIME_PTP_PORT_PSTATE x] s (s.showPort x p gm) := .trans (.put List.mem_cons_self _) (.host (.postNow ..))

theorem State.showPort_get_other {y : Fin 3} (other : y ≠ x) :
    (s.showPort x p gm).get (Reg.TIME_PTP_PORT_PSTATE y) = s.get (Reg.TIME_PTP_PORT_PSTATE y) := by
  obtain ⟨apart, -⟩ := portState_apart x
  exact WritesOnly.showPort s x p gm _ (apart y other)

theorem exec_ptpPortStateChange (state : p ≠ 0) (allowed : ¬(s.bit Reg.TIME_PTP_CFG_SLAVE_ONLY = true ∧ p = 6)) :
    let s1 := s.showPort x p gm
    exec (.ptpPortStateChange x p gm) s = .next
      (if (List.range 3).any (fun y => decide (s1.get (Reg.TIME_PTP_PORT_PSTATE y) = 9)) then s1 else s1.loseAllPtp) := by
  refine (if_neg ?_).trans (apply_ite Host.Outcome.next _ _ _).symm
  rintro (zero | ⟨only, six⟩)
  · exact state (Fin.ext zero)
  · exact allowed ⟨only, Fin.ext six⟩

/-- While a port is in SLAVE the PTP candidates stay. -/
theorem exec_ptpPortStateChange_slave (state : p ≠ 0) (allowed : ¬(s.bit Reg.TIME_PTP_CFG_SLAVE_ONLY = true ∧ p = 6)) (y : Fin 3)
    (slave : (s.showPort x p gm).get (Reg.TIME_PTP_PORT_PSTATE y) = 9) :
    exec (.ptpPortStateChange x p gm) s = .next (s.showPort x p gm) := by
  rw [exec_ptpPortStateChange state allowed, if_pos]
  exact List.any_eq_true.2 ⟨y, List.mem_range.2 y.isLt, decide_eq_true slave⟩

theorem exec_ptpPortStateChange_lost (state : p ≠ 0) (allowed : ¬(s.bit Reg.TIME_PTP_CFG_SLAVE_ONLY = true ∧ p = 6))
    (none : ∀ y : Fin 3, (s.showPort x p gm).get (Reg.TIME_PTP_PORT_PSTATE y) ≠ 9) :
    exec (.ptpPortStateChange x p gm) s = .next (s.showPort x p gm).loseAllPtp := by
  rw [exec_ptpPortStateChange state allowed, if_neg]
  intro some
  obtain ⟨y, mem, slave⟩ := List.any_eq_true.1 some
  exact none ⟨y, List.mem_range.1 mem⟩ (of_decide_eq_true slave)

theorem candidateSource_apart (x n : Fin 3) (k : Fin 8) :
    (Reg.CLK_MPLL_CAND_SRC n k).FreeOf [Reg.TIME_PTP_PORT_PSTATE x] := by decide +revert

end

/-! ### TRIGGER_ARM, TRIGGER_CANCEL and TRIGGER_FIRE (R420) -/

theorem trigger_apart (k : Fin 8) : (Reg.TIME_TRIG_CTL_DOMAIN k).FreeOf [Reg.TIME_TRIG_CTL_ARMED k] ∧
    (Reg.TIME_TRIG_CTL_ARMED k).FreeOf [Reg.TIME_TRIG_CTL_FIRED k, Reg.TIME_TRIG_CTL_LATE k] ∧
    (Reg.TIME_TRIG_CTL_FIRED k).FreeOf [Reg.TIME_TRIG_CTL_LATE k] ∧
    (Reg.TIME_TRIG_CTL_LATE k).FreeOf [Reg.TIME_TRIG_CTL_ARMED k, Reg.TIME_TRIG_CTL_FIRED k] := by decide +revert

section
variable {s : State} {k : Fin 8}

/-- The trigger that is armed in slot `k`, where one is. -/
def State.withTrigger (s : State) (k : Nat) (x : Option (Nat × Nat × Option Nat)) : State :=
  { s with time := { s.time with trigs := Tab.put none s.time.trigs k x } }

theorem State.withTrigger_trigs (s : State) (k : Nat) (x : Option (Nat × Nat × Option Nat)) (j : Nat) :
    Tab.get none (s.withTrigger k x).time.trigs j = if j = k then x else Tab.get none s.time.trigs j := Tab.get_put ..

theorem exec_triggerArm_rejects (up : s.hostUp = true) {d : Fin 4} (none : d = 3) :
    exec (.triggerArm k d) s = .next (s.put Reg.TIME_STATUS_CFG_REJ 1) := by
  subst none
  exact if_pos up

theorem exec_triggerArm_arms (up : s.hostUp = true) {d : Fin 4} (domain : d ≠ 3) : let si := s.get (Reg.TIME_TRIG_SI_SI k)
    exec (.triggerArm k d) s = .next (((s.put (Reg.TIME_TRIG_CTL_DOMAIN k) d).set (Reg.TIME_TRIG_CTL_ARMED k)).withTrigger k
      (some (d.val, si, if si ≤ (s.dom d).si then some ((s.dom d).si + (s.dom d).block) else none))) :=
  (if_pos up).trans (if_neg fun three => domain (Fin.ext three))

theorem exec_triggerCancel (up : s.hostUp = true) :
    exec (.triggerCancel k) s = .next ((s.put (Reg.TIME_TRIG_CTL_ARMED k) 0).withTrigger k none) := if_pos up

/-- The bits of a trigger that fires. -/
def State.fireTrigger (s : State) (k : Nat) (late : Option Nat) : State :=
  let s1 := (s.put (Reg.TIME_TRIG_CTL_ARMED k) 0).set (Reg.TIME_TRIG_CTL_FIRED k)
  if late.isSome then s1.set (Reg.TIME_TRIG_CTL_LATE k) else s1

theorem State.fireTrigger_shows (s : State) (k : Fin 8) (late : Option Nat) : let t := s.fireTrigger k late
    t.bit (Reg.TIME_TRIG_CTL_ARMED k) = false ∧ t.bit (Reg.TIME_TRIG_CTL_FIRED k) = true ∧
      t.bit (Reg.TIME_TRIG_CTL_LATE k) = (late.isSome || s.bit (Reg.TIME_TRIG_CTL_LATE k)) := by
  obtain ⟨-, armed, fired, shown⟩ := trigger_apart k
  have writes : WritesOnly [Reg.TIME_TRIG_CTL_LATE k] ((s.put (Reg.TIME_TRIG_CTL_ARMED k) 0).set (Reg.TIME_TRIG_CTL_FIRED k))
      (s.fireTrigger k late) := .ite (.put (by simp) 1) .refl
  have disarmed : WritesOnly [Reg.TIME_TRIG_CTL_FIRED k, Reg.TIME_TRIG_CTL_LATE k] (s.put (Reg.TIME_TRIG_CTL_ARMED k) 0)
      (s.fireTrigger k late) := .trans (.put (by simp) 1) (.mono (by simp) writes)
  refine ⟨(disarmed.bit armed).trans (State.bit_put_same s rfl 0), (writes.bit fired).trans (State.bit_set_same _ rfl), ?_⟩
  cases late with
  | none => exact WritesOnly.bit (.trans (.put (by simp) 0) (.put (by simp) 1)) shown
  | some b => exact State.bit_set_same _ rfl

section
variable {d si : Nat} {late : Option Nat}

theorem exec_triggerFire_fires (armed : Tab.get none s.time.trigs k = some (d, si, late)) (due : late.getD si ≤ (s.dom d).si) :
    exec (.triggerFire k) s = .next (((s.fireTrigger k late).withTrigger k none).post .clock (some 52)
      { code := 0x27, si := si, body := [k, si] }) := by
  show execTriggerFire k s = _
  unfold execTriggerFire
  rw [armed]
  exact if_pos due

theorem exec_triggerFire_early (armed : Tab.get none s.time.trigs k = some (d, si, late)) (early : (s.dom d).si < late.getD si) :
    exec (.triggerFire k) s = .next s := by
  show execTriggerFire k s = _
  unfold execTriggerFire
  rw [armed]
  exact if_neg (Nat.not_le.2 early)

theorem exec_triggerFire_none (idle : Tab.get none s.time.trigs k = none) : exec (.triggerFire k) s = .next s := by
  show execTriggerFire k s = _
  unfold execTriggerFire
  rw [idle]

theorem State.fireTrigger_keeps (s : State) (k : Nat) (late : Option Nat) :
    (s.fireTrigger k late).units = s.units ∧ (s.fireTrigger k late).time = s.time := by
  unfold State.fireTrigger
  dsimp only
  split <;> exact ⟨rfl, rfl⟩

/-- What a trigger that fires leaves. -/
theorem exec_triggerFire_spec (armed : Tab.get none s.time.trigs k = some (d, si, late)) (due : late.getD si ≤ (s.dom d).si) :
    ∃ t, exec (.triggerFire k) s = .next t ∧ t.bit (Reg.TIME_TRIG_CTL_ARMED k) = false ∧
      t.bit (Reg.TIME_TRIG_CTL_FIRED k) = true ∧ t.units = s.units ∧ Tab.get none t.time.trigs k = none ∧
      t.bit (Reg.TIME_TRIG_CTL_LATE k) = (late.isSome || s.bit (Reg.TIME_TRIG_CTL_LATE k)) := by
  obtain ⟨-, armedFree, firedFree, lateFree⟩ := trigger_apart k
  obtain ⟨off, fired, shown⟩ := s.fireTrigger_shows k late
  have posted := SameButHost.post ((s.fireTrigger k late).withTrigger k none) .clock (some 52) { code := 0x27, si := si, body := [k, si] }
  have stays : WritesOnly [] (s.fireTrigger k late) (((s.fireTrigger k late).withTrigger k none).post .clock (some 52)
      { code := 0x27, si := si, body := [k, si] }) := .trans (t := (s.fireTrigger k late).withTrigger k none) (.of_regs rfl) (.host posted)
  refine ⟨_, exec_triggerFire_fires armed due, (stays.bit (armedFree.mono (List.nil_subset _))).trans off,
    (stays.bit (firedFree.mono (List.nil_subset _))).trans fired, posted.units.trans (s.fireTrigger_keeps k late).1, ?_,
    (stays.bit (lateFree.mono (List.nil_subset _))).trans shown⟩
  rw [posted.time, State.withTrigger_trigs, if_pos rfl]

end

end

/-! ### TIME_SNAP (R422) -/

theorem now_apart : Reg.TIME_NOW_SEC_SEC.FreeOf [Reg.TIME_NOW_NS_NS, Reg.TIME_NOW_FRAC_FRAC, Reg.TIME_SI_SI 0, Reg.TIME_SI_SI 1, Reg.TIME_SI_SI 2] ∧
    Reg.TIME_NOW_NS_NS.FreeOf [Reg.TIME_NOW_FRAC_FRAC, Reg.TIME_SI_SI 0, Reg.TIME_SI_SI 1, Reg.TIME_SI_SI 2] ∧
    Reg.TIME_NOW_FRAC_FRAC.FreeOf [Reg.TIME_SI_SI 0, Reg.TIME_SI_SI 1, Reg.TIME_SI_SI 2] ∧
    (Reg.TIME_SI_SI 0).FreeOf [Reg.TIME_SI_SI 1, Reg.TIME_SI_SI 2] ∧ (Reg.TIME_SI_SI 1).FreeOf [Reg.TIME_SI_SI 2] := by decide

/-- The shadow set of the PTP counter. -/
def State.shadowClock (s : State) (sec : BitVec 48) (ns : BitVec 30) (frac : BitVec 4) : State :=
  (((s.setClock ⟨sec, ns, frac⟩).put Reg.TIME_NOW_SEC_SEC sec.toNat).put Reg.TIME_NOW_NS_NS ns.toNat).put Reg.TIME_NOW_FRAC_FRAC frac.toNat

/-- The shadow set of the SIs. -/
def State.shadowSi (s : State) (a b c : Nat) : State :=
  ((s.put (Reg.TIME_SI_SI 0) a).put (Reg.TIME_SI_SI 1) b).put (Reg.TIME_SI_SI 2) c

theorem exec_timeSnap {s : State} (up : s.hostUp = true) (sec : BitVec 48) (ns : BitVec 30) (frac : BitVec 4) (a b c : Nat) :
    exec (.timeSnap sec ns frac a b c) s = .next ((s.shadowClock sec ns frac).shadowSi ((s.dom 0).si + a % (s.dom 0).block)
      ((s.dom 1).si + b % (s.dom 1).block) ((s.dom 2).si + c % (s.dom 2).block)) := if_pos up

theorem WritesOnly.shadowSi (s : State) (a b c : Nat) :
    WritesOnly [Reg.TIME_SI_SI 0, Reg.TIME_SI_SI 1, Reg.TIME_SI_SI 2] s (s.shadowSi a b c) :=
  ((WritesOnly.put (by simp) a).trans (.put (by simp) b)).trans (.put (by simp) c)

theorem State.shadowSi_get (s : State) (a b c : Nat) (j : Fin 3) :
    (s.shadowSi a b c).get (Reg.TIME_SI_SI j) = [a, b, c].getD j 0 % 2 ^ 64 := by
  obtain ⟨-, -, -, first, second⟩ := now_apart
  fin_cases j
  · exact (WritesOnly.trans (.put (by simp) b) (.put (by simp) c) _ first).trans (State.get_put_same s _ a)
  · exact (WritesOnly.put (by simp) c _ second).trans (State.get_put_same _ _ b)
  · exact State.get_put_same _ _ c

theorem State.shadowClock_get (s : State) (sec : BitVec 48) (ns : BitVec 30) (frac : BitVec 4) (a b c : Nat) :
    let t := (s.shadowClock sec ns frac).shadowSi a b c
    t.get Reg.TIME_NOW_SEC_SEC = sec.toNat ∧ t.get Reg.TIME_NOW_NS_NS = ns.toNat ∧ t.get Reg.TIME_NOW_FRAC_FRAC = frac.toNat := by
  obtain ⟨seconds, nanoseconds, fraction, -⟩ := now_apart
  have sis := WritesOnly.shadowSi (s.shadowClock sec ns frac) a b c
  have two : WritesOnly [Reg.TIME_NOW_FRAC_FRAC, Reg.TIME_SI_SI 0, Reg.TIME_SI_SI 1, Reg.TIME_SI_SI 2]
      (((s.setClock ⟨sec, ns, frac⟩).put Reg.TIME_NOW_SEC_SEC sec.toNat).put Reg.TIME_NOW_NS_NS ns.toNat) _ :=
    .trans (.put (by simp) frac.toNat) (.mono (List.subset_cons_self ..) sis)
  have three : WritesOnly [Reg.TIME_NOW_NS_NS, Reg.TIME_NOW_FRAC_FRAC, Reg.TIME_SI_SI 0, Reg.TIME_SI_SI 1, Reg.TIME_SI_SI 2]
      ((s.setClock ⟨sec, ns, frac⟩).put Reg.TIME_NOW_SEC_SEC sec.toNat) _ :=
    .trans (.put (by simp) ns.toNat) (.mono (List.subset_cons_self ..) two)
  exact ⟨(three _ seconds).trans (State.get_put_lt _ Reg.TIME_NOW_SEC_SEC _ sec.isLt),
    (two _ nanoseconds).trans (State.get_put_lt _ Reg.TIME_NOW_NS_NS _ ns.isLt),
    (sis _ fraction).trans (State.get_put_lt _ Reg.TIME_NOW_FRAC_FRAC _ frac.isLt)⟩

/-! ### What the commands leave -/

/-- What a message on an enabled port leaves. -/
theorem exec_ptpMessageTx_spec {s : State} {x : Fin 3} (isEvent requested : Bool) (id : BitVec 16) (stamp : Nat)
    (enabled : s.bit (Reg.TIME_PTP_PORT_EN x) = true) : let q := Tab.get [] s.time.tsq x
    let e : TxStamp := ⟨id.toNat, stamp + s.get (Reg.TIME_PORT_LAT_EGRESS x), requested⟩
    ∃ t, exec (.ptpMessageTx x isEvent id requested stamp) s = .next t ∧ t.time.ptpSent = s.time.ptpSent + 1 ∧ t.units = s.units ∧
      t.time.ptpTlv = s.time.ptpTlv + (if s.bit Reg.TIME_PTP_CFG_AUTH then 1 else 0) ∧
      t.get (Reg.NET_TX_FRAMES_COUNT x) = min (s.get (Reg.NET_TX_FRAMES_COUNT x) + 1) (2 ^ (Reg.NET_TX_FRAMES_COUNT x).w - 1) ∧
      (isEvent = false → t.time.tsq = s.time.tsq) ∧
      (isEvent = true → q.length < 16 → t.get (Reg.TIME_TSQ_COUNT x) = q.length + 1 ∧ Tab.get [] t.time.tsq x = q ++ [e]) ∧
      (isEvent = true → 16 ≤ q.length → t.time.tsq = s.time.tsq ∧ t.bit (Reg.TIME_TSQ_TSQ_OVF x) = true) := by
  have counted : (s.countPtp.bump (Reg.NET_TX_FRAMES_COUNT x)).get (Reg.NET_TX_FRAMES_COUNT x) =
      min (s.get (Reg.NET_TX_FRAMES_COUNT x) + 1) (2 ^ (Reg.NET_TX_FRAMES_COUNT x).w - 1) := State.get_bump_same s.countPtp _
  refine ⟨_, exec_ptpMessageTx_enabled isEvent requested id stamp enabled, ?_⟩
  cases isEvent with
  | false => exact ⟨rfl, rfl, rfl, counted, fun _ => rfl, nofun, nofun⟩
  | true =>
    obtain ⟨frames, -⟩ := stamp_apart x
    rw [if_pos rfl]
    generalize (⟨id.toNat, stamp + s.get (Reg.TIME_PORT_LAT_EGRESS x), requested⟩ : TxStamp) = e
    obtain ⟨units, sent, tlv, writes⟩ := State.pushStamp_keeps (s := s.countPtp.bump (Reg.NET_TX_FRAMES_COUNT x)) (x := x) e
    refine ⟨sent, units, tlv, (writes _ frames).trans counted, nofun, fun _ room => ?_,
      fun _ full => State.pushStamp_full (s := s.countPtp.bump (Reg.NET_TX_FRAMES_COUNT x)) e full⟩
    rw [State.pushStamp_stored (s := s.countPtp.bump (Reg.NET_TX_FRAMES_COUNT x)) e room]
    exact ⟨State.get_put_lt _ (Reg.TIME_TSQ_COUNT x) _ (Nat.lt_trans (Nat.succ_lt_succ room) (by decide : 17 < 2 ^ 5)),
      Tab.get_put_same ..⟩

/-- Settles O47: each command through its equation above; the loss of the PTP candidates by `State.loseAllPtp_loses`. The PTP counter
that stands at the last shown instant is log 151. -/
theorem stampsTriggersAndSnapshots : Obligations.StampsTriggersAndSnapshots := by
  unfold Obligations.StampsTriggersAndSnapshots
  refine ⟨fun x isEvent requested id stamp s => ⟨fun disabled => if_neg (by rw [disabled]; decide),
      exec_ptpMessageTx_spec isEvent requested id stamp⟩, fun x s => ?_,
    fun x p gm s => ⟨fun only master => if_pos (.inr ⟨only, congrArg Fin.val master⟩), fun slave => ?_,
      fun state notSlave allowed => ⟨fun y other slave => ?_, fun none => ?_⟩⟩,
    fun k d s up => ⟨exec_triggerArm_rejects up, fun domain => ?_, ?_⟩,
    fun k d si late s => ⟨fun armed due => ?_, exec_triggerFire_early, exec_triggerFire_none⟩, fun sec ns frac a b c s up => ?_⟩
  · obtain ⟨-, -, count⟩ := stamp_apart x
    obtain ⟨t, run, same⟩ := exec_txStampDrain s x
    refine ⟨t, run, ?_, (same.get _ count.1 count.2.1).trans (State.get_put_same _ _ 0), same.units, fun y other => ?_⟩
    · rw [same.time]
      exact Tab.get_put_same [] s.time.tsq x []
    · rw [same.time]
      exact Tab.get_put_ne [] s.time.tsq other []
  · subst slave
    exact exec_ptpPortStateChange_slave (by decide) (by simp) x (State.showPort_get_same s x 9 gm)
  · exact exec_ptpPortStateChange_slave state allowed y ((State.showPort_get_other other).trans slave)
  · have shows := s.showPort_get_same x p gm
    have lost (y : Fin 3) : (s.showPort x p gm).get (Reg.TIME_PTP_PORT_PSTATE y) ≠ 9 := by
      by_cases same : y = x
      · subst same
        exact fun nine => notSlave (Fin.ext (shows.symm.trans nine))
      · rw [State.showPort_get_other same]
        exact none y same
    obtain ⟨units, states⟩ := (s.showPort x p gm).loseAllPtp_keeps
    refine ⟨_, exec_ptpPortStateChange_lost state allowed lost, (states x).trans shows, units.trans (State.postNow_units ..),
      fun n k source => State.loseAllPtp_loses _ n k ?_⟩
    exact (WritesOnly.showPort s x p gm _ (candidateSource_apart x n k)).trans source
  · obtain ⟨domainFree, -⟩ := trigger_apart k
    have armed := (s.put (Reg.TIME_TRIG_CTL_DOMAIN k) d).bit_set_same (f := Reg.TIME_TRIG_CTL_ARMED k) rfl
    refine ⟨_, exec_triggerArm_arms up domain, armed, ?_, rfl, ?_⟩
    · exact (WritesOnly.put List.mem_cons_self 1 _ domainFree).trans
        (State.get_put_lt s (Reg.TIME_TRIG_CTL_DOMAIN k) d d.isLt)
    · rw [State.withTrigger_trigs, if_pos rfl]
  · refine ⟨_, exec_triggerCancel up, State.bit_put_same s rfl 0, rfl, ?_, fun j other => ?_⟩
    · rw [State.withTrigger_trigs, if_pos rfl]
    · rw [State.withTrigger_trigs, if_neg other]
      rfl
  · obtain ⟨t, run, off, fired, units, empty, shown⟩ := exec_triggerFire_spec armed due
    refine ⟨t, run, off, fired, units, empty, fun some => ?_, fun none => ?_⟩
    · rw [shown, Option.isSome_iff_ne_none.2 some, Bool.true_or]
    · rw [shown, none, Option.isSome_none, Bool.false_or]
  · obtain ⟨seconds, nanoseconds, fraction⟩ := s.shadowClock_get sec ns frac ((s.dom 0).si + a % (s.dom 0).block)
      ((s.dom 1).si + b % (s.dom 1).block) ((s.dom 2).si + c % (s.dom 2).block)
    refine ⟨_, exec_timeSnap up sec ns frac a b c, seconds, nanoseconds, fraction, rfl, rfl, fun j => ?_⟩
    rw [State.shadowSi_get]
    fin_cases j <;> rfl

end Sys2Proof.Machine
end

