-- ==== Sys2Proof/Proofs/RotationAndSelfTest.lean ====
section
/-! PROOF. The rotation of a region's spare, self-tests, and the failure of the reference (R378, R764, R765, R780–R785). -/

namespace Sys2Proof

/-- What is put at a key is not seen at another, whichever default is read there. -/
theorem Tab.get_put_other {α : Type} [DecidableEq α] (d e : α) (t : Tab α) {a b : Nat} (other : b ≠ a) (x : α) :
    Tab.get e (Tab.put d t a x) b = Tab.get e t b := by
  unfold Tab.put
  split
  · rw [Tab.get_del, if_neg other]
  · rw [Tab.get_ins, if_neg other]

theorem Status.code_lt (st : Status) : st.code < 2 ^ 8 := by cases st <;> decide

end Sys2Proof

namespace Sys2Proof.Machine

/-! ### SPARE_ROTATION (R780–R783) -/

theorem rotation_apart (g : Fin 8) :
    (Reg.BIST_ROT_RG_SPARE g).FreeOf [Reg.BIST_ROT_RG_TESTING g, Reg.BIST_ROT_RG_ROTATIONS g] ∧
    (Reg.BIST_ROT_RG_TESTING g).FreeOf [Reg.BIST_ROT_RG_ROTATIONS g] ∧
    (Reg.BIST_ROT_RG_ROTATIONS g).FreeOf [Reg.BIST_ROT_RG_SPARE g, Reg.BIST_ROT_RG_TESTING g] ∧
    (Reg.BIST_ROT_RG_WAITED g).FreeOf [] ∧ (Reg.BIST_ROT_RG_TESTING g).FreeOf [Reg.BIST_ROT_RG_WITHDRAWN g] ∧
    (Reg.BIST_ROT_RG_WITHDRAWN g).FreeOf [Reg.BIST_ROT_RG_TESTING g] := by decide +revert

theorem State.logical_in_region (s : State) (g : Nat) {k : Nat} (inside : k < 8) :
    s.logical (8 * g + k) = 8 * g + Tab.get k (s.region g).role k % 8 := by
  have region : (8 * g + k) / 8 = g := by omega
  have place : (8 * g + k) % 8 = k := by omega
  rw [State.logical, region, place, Nat.mul_comm g 8]

/-- The clusters `a` and `b` of a region change places: the memories and the role of `a` move to `b`, and `a` is cleared. -/
def State.rotate (s : State) (g a b : Nat) : State :=
  ((s.copyCluster (8 * g + a) (8 * g + b)).swapRoles g (8 * g + a) (8 * g + b)).clearCluster (8 * g + a)

/-- The spare's new role, and the test that begins (R783). -/
def State.beginSpareTest (s : State) (g a : Nat) : State :=
  ((s.put (Reg.BIST_ROT_RG_SPARE g) ((8 * g + a) % 8)).set (Reg.BIST_ROT_RG_TESTING g)).bump (Reg.BIST_ROT_RG_ROTATIONS g)

/-- The roles of a region after two places have exchanged theirs. -/
def exchangeRoles (role : Tab Nat) (a b la lb : Nat) : Tab Nat := Tab.put b (Tab.put a role a lb) b la

theorem exchangeRoles_get (role : Tab Nat) {a b : Nat} (other : a ≠ b) (la lb : Nat) :
    Tab.get b (exchangeRoles role a b la lb) b = la ∧ Tab.get a (exchangeRoles role a b la lb) a = lb :=
  ⟨Tab.get_put_same b _ b la, (Tab.get_put_other b a _ other la).trans (Tab.get_put_same a role a lb)⟩

section
variable (s : State) (g a b c o t : Nat)

theorem State.regions_copyCluster : (s.copyCluster o t).regions = s.regions := rfl
theorem State.regions_clearCluster : (s.clearCluster c).regions = s.regions := rfl
theorem State.units_copyCluster : (s.copyCluster o t).units = s.units := rfl
theorem State.units_clearCluster : (s.clearCluster c).units = s.units := rfl
theorem State.units_swapRoles : (s.swapRoles g o t).units = s.units := by
  simp only [State.swapRoles, State.put_units, State.modSched_units, State.modMix_units, State.setCluster_units, State.modRegion_units]
theorem State.get_copyCluster (f : Fld) : (s.copyCluster o t).get f = s.get f := rfl
theorem State.get_clearCluster (f : Fld) : (s.clearCluster c).get f = s.get f := rfl

theorem State.role_swapRoles : ((s.swapRoles g o t).region g).role =
    exchangeRoles (s.region g).role (o % 8) (t % 8) (s.logical o % 8) (s.logical t % 8) := by
  simp only [State.swapRoles, State.region_put, State.region_modSched, State.region_modMix, State.region_setCluster,
    State.region_modRegion, if_true]
  rfl

/-- An exchange of roles writes only OCCUPIED of the two clusters, which lie in the FABRIC block. -/
theorem State.get_swapRoles {f : Fld} (off : f.off < 0x20000) (lo : f.lo < 32) : (s.swapRoles g o t).get f = s.get f := by
  have apart (c : Nat) : f.key ≠ (Reg.FABRIC_CL_SEQ_OCCUPIED c).key :=
    Fld.key_ne_fabric off lo (Nat.le_trans (by decide : 0x20000 ≤ 0x20180) (Nat.le_add_right ..))
  simp only [State.swapRoles, State.get_put_ne _ (apart _), State.get_modSched, State.get_modMix, State.get_setCluster,
    State.get_modRegion]

theorem State.get_rotate {f : Fld} (off : f.off < 0x20000) (lo : f.lo < 32) : (s.rotate g a b).get f = s.get f := by
  rw [State.rotate, State.get_clearCluster, State.get_swapRoles _ _ _ _ off lo, State.get_copyCluster]

theorem State.units_rotate : (s.rotate g a b).units = s.units := by
  rw [State.rotate, State.units_clearCluster, State.units_swapRoles, State.units_copyCluster]

end

theorem State.region_of_regions {s t : State} (regions : t.regions = s.regions) (g : Nat) : t.region g = s.region g := by
  rw [State.region, regions]
  rfl

theorem State.logical_of_regions {s t : State} (regions : t.regions = s.regions) (c : Nat) : t.logical c = s.logical c := by
  rw [State.logical, State.region_of_regions regions]
  rfl

theorem State.role_rotate (s : State) (g a b : Nat) (inside : a < 8) (inside' : b < 8) : ((s.rotate g a b).region g).role =
    exchangeRoles (s.region g).role a b (s.logical (8 * g + a) % 8) (s.logical (8 * g + b) % 8) := by
  have placeA : (8 * g + a) % 8 = a := by omega
  have placeB : (8 * g + b) % 8 = b := by omega
  have copied := s.regions_copyCluster (8 * g + a) (8 * g + b)
  rw [State.rotate, State.region_of_regions (State.regions_clearCluster ..), State.role_swapRoles, State.region_of_regions copied,
    State.logical_of_regions copied, State.logical_of_regions copied, placeA, placeB]

theorem State.logical_rotate (s : State) (g : Nat) {a b : Nat} (inside : a < 8) (inside' : b < 8) (other : a ≠ b) :
    (s.rotate g a b).logical (8 * g + b) = s.logical (8 * g + a) ∧
      (s.rotate g a b).logical (8 * g + a) = s.logical (8 * g + b) := by
  have role := s.role_rotate g a b inside inside'
  obtain ⟨getB, getA⟩ := exchangeRoles_get (s.region g).role other (s.logical (8 * g + a) % 8) (s.logical (8 * g + b) % 8)
  have placeA := s.logical_in_region g inside
  have placeB := s.logical_in_region g inside'
  constructor
  · rw [State.logical_in_region _ g inside', role, getB]
    omega
  · rw [State.logical_in_region _ g inside, role, getA]
    omega

theorem State.beginSpareTest_keeps (s : State) (g a : Nat) :
    (s.beginSpareTest g a).regions = s.regions ∧ (s.beginSpareTest g a).units = s.units := ⟨rfl, rfl⟩

theorem State.beginSpareTest_shows (s : State) (g : Fin 8) {a : Nat} (inside : a < 8) :
    let t := s.beginSpareTest g a
    t.get (Reg.BIST_ROT_RG_SPARE g) = a ∧ t.bit (Reg.BIST_ROT_RG_TESTING g) = true ∧
      t.get (Reg.BIST_ROT_RG_ROTATIONS g) = min (s.get (Reg.BIST_ROT_RG_ROTATIONS g) + 1) 65535 := by
  obtain ⟨spare, testing, rotations, -⟩ := rotation_apart g
  have place : (8 * g.val + a) % 8 = a := by omega
  refine ⟨?_, ?_, ?_⟩
  · have begins : WritesOnly [Reg.BIST_ROT_RG_TESTING g, Reg.BIST_ROT_RG_ROTATIONS g]
        (s.put (Reg.BIST_ROT_RG_SPARE g) ((8 * g + a) % 8)) (s.beginSpareTest g a) := .trans (.put (by simp) 1) (.put (by simp) _)
    rw [begins _ spare, place]
    exact State.get_put_lt s (Reg.BIST_ROT_RG_SPARE g) a inside
  · exact (WritesOnly.bit (.put List.mem_cons_self _) testing).trans (State.bit_set_same _ rfl)
  · refine (State.get_bump_same _ _).trans ?_
    exact congrArg (fun v => min (v + 1) 65535) (WritesOnly.trans (.put (by simp) _) (.put (by simp) 1) _ rotations)

section
variable {s : State} {g : Fin 8}

/-- The place of a region's next cluster is not that of its spare. -/
theorem nextPlace_ne_spare {g q : Nat} : (8 * g + q + 1) % 8 ≠ q := by omega

theorem exec_spareRotation_rotates (enabled : s.bit (Reg.BIST_ROT_RG_ENABLED g) = true)
    (kept : s.bit (Reg.BIST_ROT_RG_WITHDRAWN g) = false) (frame : s.rotationFrame g = true) (ready : s.rotationWaits g = false)
    (idle : (s.cluster (8 * g.val + (s.spare g + 1) % 8)).firing = none) : let a := (s.spare g + 1) % 8
    exec (.spareRotation g) s = .next ((s.rotate g a (s.get (Reg.BIST_ROT_RG_SPARE g))).beginSpareTest g a) := by
  show execSpareRotation g s = _
  simp only [execSpareRotation, enabled, kept, frame, ready, idle, Bool.not_true, Bool.or_self, Option.isSome_none, Bool.false_eq_true,
    if_false]
  rfl

theorem exec_spareRotation_waits (enabled : s.bit (Reg.BIST_ROT_RG_ENABLED g) = true)
    (kept : s.bit (Reg.BIST_ROT_RG_WITHDRAWN g) = false) (frame : s.rotationFrame g = true) (waits : s.rotationWaits g = true) :
    exec (.spareRotation g) s = .next ((s.set (Reg.BIST_ROT_RG_WAITED g)).rotationEvent g 2) := by
  show execSpareRotation g s = _
  simp only [execSpareRotation, enabled, kept, frame, waits, Bool.not_true, Bool.or_self, Bool.false_eq_true, if_false, if_true]

theorem SameButHost.rotationEvent (s : State) (g kind : Nat) : SameButHost s (s.rotationEvent g kind) := .postNow ..

/-- What a rotation leaves. -/
theorem State.rotation_shows (s : State) (g : Fin 8) (inside : s.get (Reg.BIST_ROT_RG_SPARE g) < 8) :
    let a := (s.spare g + 1) % 8
    let t := (s.rotate g a (s.get (Reg.BIST_ROT_RG_SPARE g))).beginSpareTest g a
    t.spare g = 8 * g.val + a ∧ t.logical (s.spare g) = s.logical (8 * g.val + a) ∧
      t.logical (8 * g.val + a) = s.logical (s.spare g) ∧ t.bit (Reg.BIST_ROT_RG_TESTING g) = true ∧
      t.get (Reg.BIST_ROT_RG_ROTATIONS g) = min (s.get (Reg.BIST_ROT_RG_ROTATIONS g) + 1) 65535 ∧ t.units = s.units := by
  dsimp only
  have next : (s.spare g + 1) % 8 < 8 := Nat.mod_lt _ (by decide)
  have off : (Reg.BIST_ROT_RG_ROTATIONS g).off < 0x20000 := by
    simp only [Reg.BIST_ROT_RG_ROTATIONS]
    omega
  obtain ⟨toSpare, toNext⟩ := s.logical_rotate g next inside nextPlace_ne_spare
  have units := s.units_rotate g ((s.spare g + 1) % 8) (s.get (Reg.BIST_ROT_RG_SPARE g))
  have rotations := s.get_rotate g ((s.spare g + 1) % 8) (s.get (Reg.BIST_ROT_RG_SPARE g)) off (by decide : 16 < 32)
  generalize s.rotate g ((s.spare g + 1) % 8) (s.get (Reg.BIST_ROT_RG_SPARE g)) = u at toSpare toNext units rotations ⊢
  obtain ⟨spare, testing, counted⟩ := u.beginSpareTest_shows g next
  obtain ⟨regions, sameUnits⟩ := u.beginSpareTest_keeps g ((s.spare g + 1) % 8)
  rw [State.logical_of_regions regions, State.logical_of_regions regions, ← rotations]
  exact ⟨congrArg (8 * g.val + ·) spare, toSpare, toNext, testing, counted, sameUnits.trans units⟩

/-! ### SPARE_TEST_DONE (R783) -/

theorem exec_spareTestDone (testing : s.bit (Reg.BIST_ROT_RG_TESTING g) = true) (pass : Bool) :
    let s1 := s.put (Reg.BIST_ROT_RG_TESTING g) 0
    exec (.spareTestDone g pass) s = .next (if pass then s1 else (s1.set (Reg.BIST_ROT_RG_WITHDRAWN g)).rotationEvent g 1) :=
  if_neg (by rw [testing]; decide)

/-- What the end of the spare's test leaves. -/
theorem exec_spareTestDone_spec (testing : s.bit (Reg.BIST_ROT_RG_TESTING g) = true) (pass : Bool) :
    ∃ t, exec (.spareTestDone g pass) s = .next t ∧ t.bit (Reg.BIST_ROT_RG_TESTING g) = false ∧ t.clusters = s.clusters ∧
      t.bit (Reg.BIST_ROT_RG_WITHDRAWN g) = (s.bit (Reg.BIST_ROT_RG_WITHDRAWN g) || !pass) := by
  obtain ⟨-, -, -, -, test, withdrawn⟩ := rotation_apart g
  have ended : (s.put (Reg.BIST_ROT_RG_TESTING g) 0).bit (Reg.BIST_ROT_RG_TESTING g) = false := State.bit_put_same s rfl 0
  refine ⟨_, exec_spareTestDone testing pass, ?_⟩
  cases pass with
  | true =>
    refine ⟨ended, rfl, ?_⟩
    rw [Bool.not_true, Bool.or_false]
    exact WritesOnly.bit (.put List.mem_cons_self 0) withdrawn
  | false =>
    have event := SameButHost.rotationEvent ((s.put (Reg.BIST_ROT_RG_TESTING g) 0).set (Reg.BIST_ROT_RG_WITHDRAWN g)) g 1
    have stays : WritesOnly [] ((s.put (Reg.BIST_ROT_RG_TESTING g) 0).set (Reg.BIST_ROT_RG_WITHDRAWN g)) _ := .host event
    refine ⟨?_, event.clusters, ?_⟩
    · exact (WritesOnly.bit (.trans (.put List.mem_cons_self 1) (.host event)) test).trans ended
    · rw [Bool.not_false, Bool.or_true]
      exact (stays.bit (withdrawn.mono (List.nil_subset _))).trans (State.bit_set_same _ rfl)

end

/-! ### BIST_GO (R754, R785) -/

/-- The request of a test, which GO finds in its register. -/
def State.request (s : State) (test inst : Nat) : State := (s.put Reg.BIST_REQ_TEST test).put Reg.BIST_REQ_INSTANCE inst

section
variable {s : State} {test inst a b : Nat}

theorem State.get_request {f : Fld} (off : f.off ≠ 0x14000) (lo : f.lo < 32) : (s.request a b).get f = s.get f :=
  (State.get_put_ne _ (key_ne off lo (by decide)) b).trans (State.get_put_ne s (key_ne off lo (by decide)) a)

theorem State.bit_request {f : Fld} (off : f.off ≠ 0x14000) (lo : f.lo < 32) : (s.request a b).bit f = s.bit f := by
  rw [State.bit, State.get_request off lo]
  rfl

theorem State.spare_request (g : Nat) : (s.request a b).spare g = s.spare g :=
  congrArg (8 * g + ·) (State.get_request (f := Reg.BIST_ROT_RG_SPARE g) (by simp only [Reg.BIST_ROT_RG_SPARE]; omega) (by decide : 0 < 32))

theorem State.bistAllowed_request : (s.request a b).bistAllowed test = s.bistAllowed test := by
  have state : (s.request a b).get Reg.TRUST_STATE_LCS = s.get Reg.TRUST_STATE_LCS := State.get_request (by decide) (by decide)
  have opened : (s.request a b).bit Reg.TRUST_STATE_DEBUG_OPEN = s.bit Reg.TRUST_STATE_DEBUG_OPEN :=
    State.bit_request (by decide) (by decide)
  simp only [State.bistAllowed, State.debugState, state, opened]

/-- A request changes no register that the condition of a test of the catalogue reads. -/
theorem State.bistCondition_request (known : bistKnown test inst = true) :
    (s.request a b).bistCondition test inst = s.bistCondition test inst := by
  have enabled : (s.request a b).bit (Reg.BIST_ROT_RG_ENABLED (inst / 8)) = s.bit (Reg.BIST_ROT_RG_ENABLED (inst / 8)) :=
    State.bit_request (by simp only [Reg.BIST_ROT_RG_ENABLED]; omega) (by decide : 3 < 32)
  have single (f : Fld) (off : f.off ≠ 0x14000) (lo : f.lo < 32) := State.get_request (s := s) (a := a) (b := b) off lo
  have flag (f : Fld) (off : f.off ≠ 0x14000) (lo : f.lo < 32) := State.bit_request (s := s) (a := a) (b := b) off lo
  unfold State.bistCondition
  split
  · simp only [enabled, State.spare_request]
  · simp only [enabled, State.spare_request]
  · rfl
  · simp only [single Reg.SURF_SERVO_STATUS_QUAR (by decide) (by decide), single Reg.SURF_SERVO_STATUS_RUNNING (by decide) (by decide)]
  · have inside : inst < 2 := of_decide_eq_true known
    simp only [flag (Reg.HUBA_ADC_CTL_EN inst) (by simp only [Reg.HUBA_ADC_CTL_EN]; omega) (by decide : 0 < 32),
      flag Reg.HUBA_JACK_HP_PRESENT (by decide) (by decide)]
  · rfl
  · have inside : inst < 8 := by
      simp only [bistKnown, Bool.or_eq_true, Bool.and_eq_true, decide_eq_true_eq] at known
      omega
    have link : inst < 3 → (s.request a b).bit (Reg.NET_CTL_EN inst) = s.bit (Reg.NET_CTL_EN inst) := fun wired =>
      flag _ (by simp only [Reg.NET_CTL_EN]; omega) (by decide : 0 < 32)
    have radio : (s.request a b).bit (Reg.WLP_CTL_EN (inst - 4)) = s.bit (Reg.WLP_CTL_EN (inst - 4)) :=
      flag _ (by simp only [Reg.WLP_CTL_EN]; omega) (by decide : 0 < 32)
    by_cases wired : inst < 3
    · simp only [wired, if_true, link wired]
    · simp only [wired, if_false, radio]
  · simp only [single Reg.HUBA_PS_CTL_EN (by decide) (by decide)]
  · simp only [flag Reg.SCHED_STATUS_NONE (by decide) (by decide)]
  · rfl

theorem State.bistAnswer_request : (s.request a b).bistAnswer test inst = s.bistAnswer test inst := by
  unfold State.bistAnswer
  rw [State.bistAllowed_request]
  cases known : bistKnown test inst with
  | false => rfl
  | true =>
    rw [State.bistCondition_request known]
    rfl

theorem State.setBist_keeps (s : State) (q r : List (Nat × Nat)) :
    WritesOnly [Reg.BIST_REQ_STATUS_QUEUED, Reg.BIST_REQ_STATUS_RUNNING] s (s.setBist q r) :=
  WritesOnly.trans (.trans (t := { s with bist := { queued := q, running := r } }) (.of_regs rfl) (.put (by simp) _))
    (.put (by simp) _)

/-- What GO answers, and where it puts the test. -/
theorem State.bistGo_shows (s : State) (test inst : Nat) : let t := s.bistGo test inst
    t.get Reg.BIST_REQ_STATUS_CODE = (s.bistAnswer test inst).code ∧
      t.bist.running = s.bist.running ++ (if s.bistAnswer test inst = .ok then [(test, inst)] else []) ∧
      t.bist.queued = s.bist.queued ++ (if s.bistAnswer test inst = .deferred then [(test, inst)] else []) ∧ t.units = s.units := by
  have answered (q r : List (Nat × Nat)) (st : Status) :
      ((s.put Reg.BIST_REQ_STATUS_CODE st.code).setBist q r).get Reg.BIST_REQ_STATUS_CODE = st.code :=
    (State.setBist_keeps _ q r _ (by decide)).trans (State.get_put_lt s Reg.BIST_REQ_STATUS_CODE _ st.code_lt)
  unfold State.bistGo
  dsimp only
  generalize s.bistAnswer test inst = st
  split
  · exact ⟨answered _ _ .ok, rfl, (List.append_nil _).symm, rfl⟩
  · exact ⟨answered _ _ .deferred, (List.append_nil _).symm, rfl, rfl⟩
  · next notOk notDeferred =>
    rw [if_neg notOk, if_neg notDeferred]
    exact ⟨State.get_put_lt s Reg.BIST_REQ_STATUS_CODE _ st.code_lt, (List.append_nil _).symm, (List.append_nil _).symm, rfl⟩

end

theorem exec_bistGo {s : State} (up : s.hostUp = true) (k n : BitVec 8) :
    exec (.bistGo k n) s = .next ((s.request k.toNat n.toNat).bistGo k.toNat n.toNat) := if_pos up

/-! ### BIST_TEST_START (R784, R785) -/

section
variable {s : State} {k n : BitVec 8}

theorem exec_bistTestStart_runs (queued : (k.toNat, n.toNat) ∈ s.bist.queued) (allowed : s.bistAllowed k.toNat = true)
    (holds : s.bistCondition k.toNat n.toNat = .ok) : exec (.bistTestStart k n) s = .next
      (s.setBist (s.bist.queued.filter fun y => y != (k.toNat, n.toNat)) (s.bist.running ++ [(k.toNat, n.toNat)])) := by
  show execBistTestStart k n s = _
  simp only [execBistTestStart, List.contains_iff_mem.2 queued, allowed, holds, Bool.not_true, Bool.false_eq_true, if_false]

theorem not_mem_filter_ne {l : List (Nat × Nat)} {x : Nat × Nat} : x ∉ l.filter fun y => y != x := by
  simp [List.mem_filter]

theorem State.setBist_running (s : State) (q r : List (Nat × Nat)) :
    (s.setBist q r).bit Reg.BIST_REQ_STATUS_RUNNING = !r.isEmpty := State.bit_putBit_same _ rfl _

/-! ### BIST_DONE (R784–R786) -/

theorem exec_bistDone (running : (k.toNat, n.toNat) ∈ s.bist.running) (pass : Bool) (v : BitVec 32) :
    exec (.bistDone k n pass v) s = .next
      (((s.setBist s.bist.queued (s.bist.running.filter fun y => y != (k.toNat, n.toNat))).bistClear k.toNat n.toNat).bistEnd
        k.toNat n.toNat pass .ok (if bistMeasures k.toNat then v.toNat else 0)) := by
  show execBistDone k n pass v s = _
  simp only [execBistDone, List.contains_iff_mem.2 running, Bool.not_true, Bool.false_eq_true, if_false]

end

/-- The block of a test has none of the self-tests' registers. -/
theorem State.bistClear_keeps (s : State) (test : Nat) {inst : Nat} (inside : inst < 256) :
    (s.bistClear test inst).bist = s.bist ∧
      ∀ f : Fld, f.lo < 32 → 0x14000 ≤ f.off → (s.bistClear test inst).get f = s.get f := by
  have settled (c : Nat) (conv : c < 258) {f : Fld} (lo : f.lo < 32) (off : 0x14000 ≤ f.off) : f.key ≠ (convSettled c).key := by
    unfold convSettled
    split
    · exact key_ne (by simp only [Reg.HUBA_ADC_STATUS_SETTLED]; omega) lo (by decide : 0 < 32)
    · exact key_ne (by simp only [Reg.HUBA_DAC_STATUS_SETTLED]; omega) lo (by decide : 0 < 32)
  unfold State.bistClear
  split
  · exact ⟨rfl, fun _ _ _ => rfl⟩
  · exact ⟨rfl, fun _ _ _ => rfl⟩
  · exact ⟨rfl, fun _ _ _ => rfl⟩
  · exact ⟨rfl, fun _ _ _ => rfl⟩
  · exact ⟨rfl, fun f lo off => (State.get_put_ne _ (settled (2 + inst) (by omega) lo off) 0).trans
      (State.get_put_ne _ (settled inst (by omega) lo off) 0)⟩
  · exact ⟨rfl, fun _ _ _ => rfl⟩
  · exact ⟨rfl, fun _ _ _ => rfl⟩

/-- The result of a test in BIST_LAST. -/
def State.showTest (s : State) (test inst : Nat) (pass : Bool) (st : Status) (value : Nat) : State :=
  ((((s.put Reg.BIST_LAST_TEST test).put Reg.BIST_LAST_INSTANCE inst).putBit Reg.BIST_LAST_PASS pass).put Reg.BIST_LAST_CODE st.code).put
    Reg.BIST_LAST_VALUE_VALUE value

/-- The counts of tests that ran and of those that failed. -/
def State.countTest (s : State) (pass : Bool) : State :=
  if pass then s.bump Reg.BIST_CNT_RUN else (s.bump Reg.BIST_CNT_RUN).bump Reg.BIST_CNT_FAIL

theorem State.bistEnd_same (s : State) (test inst : Nat) (pass : Bool) (st : Status) (value : Nat) :
    SameButHost ((s.showTest test inst pass st value).countTest pass) (s.bistEnd test inst pass st value) := .post ..

theorem State.showTest_shows (s : State) (test inst : Nat) (pass : Bool) (st : Status) (value : Nat) :
    let t := s.showTest test inst pass st value
    t.get Reg.BIST_LAST_TEST = test % 2 ^ 8 ∧ t.get Reg.BIST_LAST_INSTANCE = inst % 2 ^ 8 ∧ t.bit Reg.BIST_LAST_PASS = pass ∧
      t.get Reg.BIST_LAST_VALUE_VALUE = value % 2 ^ 32 ∧ t.get Reg.BIST_CNT_RUN = s.get Reg.BIST_CNT_RUN ∧
      t.get Reg.BIST_CNT_FAIL = s.get Reg.BIST_CNT_FAIL := by
  refine ⟨?_, ?_, ?_, State.get_put_same _ _ value, ?_, ?_⟩
  · simp (disch := decide) only [State.showTest, State.putBit, State.get_put_ne]
    exact State.get_put_same s _ test
  · simp (disch := decide) only [State.showTest, State.putBit, State.get_put_ne]
    exact State.get_put_same _ _ inst
  · simp (disch := decide) only [State.showTest, State.bit_put_ne]
    exact State.bit_putBit_same _ rfl pass
  · simp (disch := decide) only [State.showTest, State.putBit, State.get_put_ne]
  · simp (disch := decide) only [State.showTest, State.putBit, State.get_put_ne]

theorem WritesOnly.countTest (s : State) (pass : Bool) : WritesOnly [Reg.BIST_CNT_RUN, Reg.BIST_CNT_FAIL] s (s.countTest pass) :=
  .ite (.put (by simp) _) (.trans (.put (by simp) _) (.put (by simp) _))

theorem State.countTest_shows (s : State) (pass : Bool) :
    (s.countTest pass).bist = s.bist ∧ (s.countTest pass).get Reg.BIST_CNT_RUN = min (s.get Reg.BIST_CNT_RUN + 1) 65535 ∧
      (s.countTest pass).get Reg.BIST_CNT_FAIL =
        (if pass then s.get Reg.BIST_CNT_FAIL else min (s.get Reg.BIST_CNT_FAIL + 1) 65535) := by
  have ran : (s.bump Reg.BIST_CNT_RUN).get Reg.BIST_CNT_RUN = min (s.get Reg.BIST_CNT_RUN + 1) 65535 := State.get_bump_same s _
  have failed : (s.bump Reg.BIST_CNT_RUN).get Reg.BIST_CNT_FAIL = s.get Reg.BIST_CNT_FAIL := State.get_bump_ne s (by decide)
  cases pass with
  | true => exact ⟨rfl, ran, failed⟩
  | false =>
    refine ⟨rfl, (State.get_bump_ne _ (by decide)).trans ran, (State.get_bump_same _ _).trans ?_⟩
    rw [failed]
    rfl

/-- What the end of a test shows and counts. -/
theorem State.bistEnd_shows (s : State) (test inst : BitVec 8) (pass : Bool) (st : Status) (value : BitVec 32) :
    let t := s.bistEnd test.toNat inst.toNat pass st value.toNat
    t.bist = s.bist ∧ t.get Reg.BIST_LAST_TEST = test.toNat ∧ t.get Reg.BIST_LAST_INSTANCE = inst.toNat ∧
      t.bit Reg.BIST_LAST_PASS = pass ∧ t.get Reg.BIST_LAST_VALUE_VALUE = value.toNat ∧
      t.get Reg.BIST_CNT_RUN = min (s.get Reg.BIST_CNT_RUN + 1) 65535 ∧
      t.get Reg.BIST_CNT_FAIL = (if pass then s.get Reg.BIST_CNT_FAIL else min (s.get Reg.BIST_CNT_FAIL + 1) 65535) := by
  have same := s.bistEnd_same test.toNat inst.toNat pass st value.toNat
  obtain ⟨shownTest, shownInst, shownPass, shownValue, runs, fails⟩ := s.showTest_shows test.toNat inst.toNat pass st value.toNat
  obtain ⟨bist, ran, failed⟩ := (s.showTest test.toNat inst.toNat pass st value.toNat).countTest_shows pass
  have writes : WritesOnly [Reg.BIST_CNT_RUN, Reg.BIST_CNT_FAIL] (s.showTest test.toNat inst.toNat pass st value.toNat)
      (s.bistEnd test.toNat inst.toNat pass st value.toNat) := .trans (.countTest _ pass) (.host same)
  rw [Nat.mod_eq_of_lt test.isLt] at shownTest
  rw [Nat.mod_eq_of_lt inst.isLt] at shownInst
  rw [Nat.mod_eq_of_lt value.isLt] at shownValue
  rw [runs] at ran
  rw [fails] at failed
  exact ⟨same.bist.trans bist, (writes _ (by decide)).trans shownTest, (writes _ (by decide)).trans shownInst,
    (writes.bit (by decide)).trans shownPass, (writes _ (by decide)).trans shownValue,
    (same.get _ (by decide) (by decide)).trans ran, (same.get _ (by decide) (by decide)).trans failed⟩

/-- What BIST_DONE leaves of a test that ran. -/
theorem exec_bistDone_spec {s : State} {k n : BitVec 8} (running : (k.toNat, n.toNat) ∈ s.bist.running) (pass : Bool) (v : BitVec 32) :
    ∃ t, exec (.bistDone k n pass v) s = .next t ∧ (k.toNat, n.toNat) ∉ t.bist.running ∧ t.bist.queued = s.bist.queued ∧
      t.get Reg.BIST_LAST_TEST = k.toNat ∧ t.get Reg.BIST_LAST_INSTANCE = n.toNat ∧ t.bit Reg.BIST_LAST_PASS = pass ∧
      t.get Reg.BIST_LAST_VALUE_VALUE = (if bistMeasures k.toNat then v.toNat else 0) ∧
      t.get Reg.BIST_CNT_RUN = min (s.get Reg.BIST_CNT_RUN + 1) 65535 ∧
      t.get Reg.BIST_CNT_FAIL = (if pass then s.get Reg.BIST_CNT_FAIL else min (s.get Reg.BIST_CNT_FAIL + 1) 65535) := by
  have value : (if bistMeasures k.toNat then v.toNat else 0) = (if bistMeasures k.toNat then v else 0).toNat := by split <;> rfl
  have taken := s.setBist_keeps s.bist.queued (s.bist.running.filter fun y => y != (k.toNat, n.toNat))
  obtain ⟨bist, cleared⟩ := (s.setBist s.bist.queued (s.bist.running.filter fun y => y != (k.toNat, n.toNat))).bistClear_keeps
    k.toNat n.isLt
  obtain ⟨kept, test, inst, result, shown, ran, failed⟩ :=
    ((s.setBist s.bist.queued (s.bist.running.filter fun y => y != (k.toNat, n.toNat))).bistClear k.toNat n.toNat).bistEnd_shows
      k n pass .ok (if bistMeasures k.toNat then v else 0)
  rw [cleared _ (by decide) (by decide), taken _ (by decide)] at ran
  rw [cleared _ (by decide) (by decide), taken _ (by decide)] at failed
  rw [value]
  refine ⟨_, (exec_bistDone running pass v).trans (by rw [value]), ?_, (congrArg BistSt.queued (kept.trans bist)).trans rfl,
    test, inst, result, shown, ran, failed⟩
  rw [kept, bist]
  exact not_mem_filter_ne

/-! ### REFXO_FAIL (R378, R764, R765) -/

/-- The registers that show which AES3 transmitters are gated. -/
def gatedRegs : List Fld := (List.range 8).map Reg.AES_TX_STATUS_GATED

/-- The transmit gate's followers alone differ: units, clusters and the pair's state are as they were, and of the registers all that
show no gated transmitter. -/
structure SameButGated (s t : State) : Prop where
  units : t.units = s.units
  clusters : t.clusters = s.clusters
  pair : t.pair = s.pair
  regs : WritesOnly gatedRegs s t

theorem SameButGated.refl (s : State) : SameButGated s s := ⟨rfl, rfl, rfl, .refl⟩

theorem SameButGated.trans {s t u : State} (a : SameButGated s t) (b : SameButGated t u) : SameButGated s u :=
  ⟨b.units.trans a.units, b.clusters.trans a.clusters, b.pair.trans a.pair, a.regs.trans b.regs⟩

theorem SameButGated.modConv (s : State) (c : Nat) (f : ConvCh → ConvCh) : SameButGated s (s.modConv c f) :=
  ⟨rfl, rfl, rfl, .of_regs rfl⟩
theorem SameButGated.modPs (s : State) (c : Nat) (f : PsCh → PsCh) : SameButGated s (s.modPs c f) := ⟨rfl, rfl, rfl, .of_regs rfl⟩

theorem SameButGated.showGated (s : State) : SameButGated s s.showGated := by
  refine State.each_keeps_mem (SameButGated s) _ s _ (fun n mem t same => same.trans ?_) (.refl s)
  exact ⟨rfl, rfl, rfl, .put (List.mem_map_of_mem mem) _⟩

theorem SameButGated.followGate (s : State) (closed : Bool) : SameButGated s (s.followGate closed) := by
  refine State.each_keeps (SameButGated s) _ (fun _ _ same => same.trans (.modPs ..)) _ _ ?_
  exact State.each_keeps (SameButGated s) _ (fun _ _ same => same.trans (.modConv ..)) _ _ (.showGated s)

theorem State.gateDown_shows (s : State) : s.gateDown.bit Reg.PAIR_STATUS_GATE_OPEN = false ∧ s.gateDown.units = s.units ∧
    s.gateDown.clusters = s.clusters ∧ s.gateDown.pair = s.pair ∧
    WritesOnly (Reg.PAIR_STATUS_GATE_OPEN :: gatedRegs) s s.gateDown := by
  unfold State.gateDown
  split
  · obtain ⟨units, clusters, pair, regs⟩ := SameButGated.followGate (s.put Reg.PAIR_STATUS_GATE_OPEN 0) true
    refine ⟨(regs.bit (by decide)).trans (State.bit_put_same s rfl 0), units, clusters, pair, ?_⟩
    exact .trans (.put List.mem_cons_self 0) (regs.mono (List.subset_cons_self ..))
  · next closed => exact ⟨Bool.eq_false_iff.2 closed, rfl, rfl, rfl, .refl⟩

/-- The gate is closed, and a holder is CUT (log 98). -/
theorem State.closeGate_shows (s : State) : s.closeGate.bit Reg.PAIR_STATUS_GATE_OPEN = false ∧ s.closeGate.units = s.units ∧
    s.closeGate.clusters = s.clusters ∧ s.closeGate.pair = s.pair ∧
    s.closeGate.get Reg.PAIR_STATUS_ROLE = (if s.get Reg.PAIR_STATUS_ROLE = 1 then 3 else s.get Reg.PAIR_STATUS_ROLE) ∧
    WritesOnly (Reg.PAIR_STATUS_ROLE :: Reg.PAIR_STATUS_GATE_OPEN :: gatedRegs) s s.closeGate := by
  obtain ⟨closed, units, clusters, pair, regs⟩ := s.gateDown_shows
  by_cases holder : s.get Reg.PAIR_STATUS_ROLE = 1
  · have event : SameButHost (s.gateDown.put Reg.PAIR_STATUS_ROLE 3) s.closeGate := by
      rw [State.closeGate, if_pos holder]
      exact .post ..
    have cut : WritesOnly [Reg.PAIR_STATUS_ROLE] s.gateDown s.closeGate := .trans (.put List.mem_cons_self 3) (.host event)
    refine ⟨(cut.bit (by decide)).trans closed, event.units.trans units, event.clusters.trans clusters, event.pair.trans pair, ?_,
      .trans (regs.mono (List.subset_cons_self ..)) (cut.mono (by simp))⟩
    rw [if_pos holder]
    exact (event.get _ (by decide) (by decide)).trans (State.get_put_same s.gateDown Reg.PAIR_STATUS_ROLE 3)
  · rw [if_neg holder, show s.closeGate = s.gateDown from if_neg holder]
    exact ⟨closed, units, clusters, pair, regs _ (by decide), regs.mono (List.subset_cons_self ..)⟩

/-- The reference has failed: it shows so, and keeps the gate closed. -/
def State.loseRefxo (s : State) : State :=
  { (s.set Reg.CLK_STATUS_REFXO_FAIL).put Reg.CLK_STATUS_REFXO_OK 0 with pair := { s.pair with refxoGate := true } }

theorem exec_refxoFail {s : State} (first : s.bit Reg.CLK_STATUS_REFXO_FAIL = false) :
    exec .refxoFail s = .next (s.loseRefxo.closeGate.postNow .fault (some 57) 0x14 []) := if_neg (by rw [first]; decide)

theorem State.loseRefxo_shows (s : State) : s.loseRefxo.bit Reg.CLK_STATUS_REFXO_FAIL = true ∧
    s.loseRefxo.bit Reg.CLK_STATUS_REFXO_OK = false ∧ s.loseRefxo.get Reg.PAIR_STATUS_ROLE = s.get Reg.PAIR_STATUS_ROLE := by
  refine ⟨?_, State.bit_put_same (s.set Reg.CLK_STATUS_REFXO_FAIL) rfl 0, ?_⟩
  · exact (State.bit_put_ne (s.set Reg.CLK_STATUS_REFXO_FAIL) (by decide) 0).trans (s.bit_set_same rfl)
  · exact (State.get_put_ne (s.set Reg.CLK_STATUS_REFXO_FAIL) (by decide) 0).trans (State.get_put_ne s (by decide) 1)

/-- What the failure of the reference leaves. -/
theorem exec_refxoFail_spec {s : State} (first : s.bit Reg.CLK_STATUS_REFXO_FAIL = false) : ∃ t, exec .refxoFail s = .next t ∧
    t.bit Reg.CLK_STATUS_REFXO_FAIL = true ∧ t.bit Reg.CLK_STATUS_REFXO_OK = false ∧ t.bit Reg.PAIR_STATUS_GATE_OPEN = false ∧
    t.gateFree = false ∧ t.get Reg.PAIR_STATUS_ROLE = (if s.get Reg.PAIR_STATUS_ROLE = 1 then 3 else s.get Reg.PAIR_STATUS_ROLE) ∧
    t.units = s.units ∧ t.clusters = s.clusters := by
  obtain ⟨failed, off, role⟩ := s.loseRefxo_shows
  obtain ⟨closed, units, clusters, pair, cut, regs⟩ := s.loseRefxo.closeGate_shows
  have event := SameButHost.postNow s.loseRefxo.closeGate .fault (some 57) 0x14 []
  have stays : WritesOnly [] s.loseRefxo.closeGate _ := .host event
  rw [role] at cut
  refine ⟨_, exec_refxoFail first, (stays.bit (by decide)).trans ((regs.bit (by decide)).trans failed),
    (stays.bit (by decide)).trans ((regs.bit (by decide)).trans off), (stays.bit (by decide)).trans closed, ?_,
    (stays _ (by decide)).trans cut, event.units.trans units, event.clusters.trans clusters⟩
  rw [State.gateFree, event.pair, pair]
  rfl

/-- Settles O27: each command through its equation above; a rotation by `State.rotation_shows`, the end of a test by
`State.bistEnd_shows`, the transmit gate by `State.closeGate_shows`. A holder that becomes CUT is log 98, the terms of a self-test are
logs 110 and 111. -/
theorem rotationSelfTestAndReference : Obligations.RotationSelfTestAndReference := by
  unfold Obligations.RotationSelfTestAndReference
  refine ⟨fun g s enabled kept frame inside => ⟨fun ready idle => ?_, fun waits => ?_⟩,
    fun g pass s testing => exec_spareTestDone_spec testing pass, fun k n s up => ?_,
    fun k n s queued allowed holds => ?_, fun k n pass v s running => exec_bistDone_spec running pass v,
    fun s first => exec_refxoFail_spec first⟩
  · exact ⟨_, exec_spareRotation_rotates enabled kept frame ready idle, s.rotation_shows g inside⟩
  · obtain ⟨-, -, -, waited, -⟩ := rotation_apart g
    have event := SameButHost.rotationEvent (s.set (Reg.BIST_ROT_RG_WAITED g)) g 2
    have stays : WritesOnly [] (s.set (Reg.BIST_ROT_RG_WAITED g)) _ := .host event
    exact ⟨_, exec_spareRotation_waits enabled kept frame waits, (stays.bit waited).trans (s.bit_set_same rfl), event.regions,
      event.clusters⟩
  · obtain ⟨code, runs, queues, units⟩ := (s.request k.toNat n.toNat).bistGo_shows k.toNat n.toNat
    rw [State.bistAnswer_request] at code runs queues
    exact ⟨_, exec_bistGo up k n, code, runs, queues, units⟩
  · refine ⟨_, exec_bistTestStart_runs queued allowed holds, rfl, not_mem_filter_ne, ?_⟩
    rw [State.setBist_running]
    simp

end Sys2Proof.Machine
end

