-- ==== Sys2Proof/Proofs/RingRegisters.lean ====
section
/-! SUPPORT. What an operation that writes registers alone leaves as it was, within the HOST block too; the registers of the host
windows and rings, and which of them are the same (R428–R432, R455). -/

namespace Sys2Proof

/-- A register that is none of `l`. -/
abbrev Fld.apartFrom (l : List Fld) (f : Fld) : Prop := ∀ g ∈ l, f.key ≠ g.key

/-- The registers of the host windows that an access is checked against (R455). -/
def windowRegs : List Fld :=
  (List.range 16).flatMap fun k =>
    [Reg.HOST_WIN_CTL_ENABLE k, Reg.HOST_WIN_CTL_WRITE k, Reg.HOST_WIN_CTL_READ k, Reg.HOST_WIN_BASE_BASE k, Reg.HOST_WIN_SIZE_PAGES k]

end Sys2Proof

namespace Sys2Proof.Machine

variable {s t u : State}

/-! ### Registers alone -/

/-- Nothing but registers of `l` differs in `t`. -/
def PutsOnly (l : List Fld) (s t : State) : Prop :=
  (∃ regs, t = { s with regs := regs }) ∧ ∀ f : Fld, f.apartFrom l → t.get f = s.get f

namespace PutsOnly

variable {l : List Fld}

theorem refl : PutsOnly l s s := ⟨⟨s.regs, rfl⟩, fun _ _ => rfl⟩

theorem trans (a : PutsOnly l s t) (b : PutsOnly l t u) : PutsOnly l s u := by
  obtain ⟨⟨r, rfl⟩, a⟩ := a
  obtain ⟨⟨q, rfl⟩, b⟩ := b
  exact ⟨⟨q, rfl⟩, fun f apart => (b f apart).trans (a f apart)⟩

theorem put (s : State) {g : Fld} (mem : g ∈ l) (v : Nat) : PutsOnly l s (s.put g v) :=
  ⟨⟨_, rfl⟩, fun _ apart => State.get_put_ne s (apart g mem) v⟩

theorem each (s : State) (fs : List Fld) (v : Fld → Nat) : PutsOnly fs s (s.each fs fun f t => t.put f (v f)) :=
  State.each_keeps_mem (PutsOnly fs s) _ s fs (fun _ mem t kept => kept.trans (.put t mem _)) .refl

variable (h : PutsOnly l s t)
include h

theorem get {f : Fld} (apart : f.apartFrom l) : t.get f = s.get f := h.2 f apart

theorem bit {f : Fld} (apart : f.apartFrom l) : t.bit f = s.bit f := by rw [State.bit, h.get apart]; rfl

theorem host : t.host = s.host := by obtain ⟨⟨_, rfl⟩, -⟩ := h; rfl
theorem units : t.units = s.units := by obtain ⟨⟨_, rfl⟩, -⟩ := h; rfl
theorem pwr : t.pwr = s.pwr := by obtain ⟨⟨_, rfl⟩, -⟩ := h; rfl

end PutsOnly

/-! ### Host windows (R455) -/

theorem State.windowOk_congr (same : ∀ f ∈ windowRegs, t.get f = s.get f) (addr len : Nat) (write : Bool) :
    t.windowOk addr len write = s.windowOk addr len write := by
  have each : ∀ k ∈ List.range 16, ∀ f ∈ [Reg.HOST_WIN_CTL_ENABLE k, Reg.HOST_WIN_CTL_WRITE k, Reg.HOST_WIN_CTL_READ k,
      Reg.HOST_WIN_BASE_BASE k, Reg.HOST_WIN_SIZE_PAGES k], t.get f = s.get f :=
    fun k inside f mem => same f (List.mem_flatMap.2 ⟨k, inside, mem⟩)
  rw [Bool.eq_iff_iff]
  simp only [State.windowOk, List.any_eq_true]
  refine exists_congr fun k => and_congr_right fun inside => ?_
  obtain ⟨enable, writes, reads, base, size, -⟩ := by simpa only [List.forall_mem_cons] using each k inside
  cases write <;> simp [State.bit, enable, writes, reads, base, size]

theorem State.ringMemOk_congr (same : ∀ f ∈ windowRegs, t.get f = s.get f) (r addr len : Nat) :
    t.ringMemOk r addr len = s.ringMemOk r addr len := by
  simp only [State.ringMemOk, State.windowOk_congr same]

/-! ### The registers of a ring (R429, R431) -/

/-- HEAD, TAIL and ERR of a ring. -/
def ringMoves (r : Nat) : List Fld := [ringHead r, ringTail r, ringErr r]

theorem cfgFields_eq_cons (r : Fin 16) : cfgFields r = ringLog2 r :: (cfgFields r).tail := by decide +revert

theorem ringEnable_apart (r : Fin 16) : (ringEnable r).apartFrom (cfgFields r) ∧ (ringEnable r).apartFrom (ringMoves r) ∧
    (ringEnable r).apartFrom [Reg.HOST_STATUS_CFG_REJ] ∧ (ringEnable r).w = 1 := by decide +revert

theorem ringLog2_apart (r : Fin 16) : (ringLog2 r).apartFrom (cfgFields r).tail ∧
    (ringLog2 r).apartFrom (ringEnable r :: ringMoves r) := by decide +revert

theorem ringBase_apart (r : Fin 16) : (ringBase r).apartFrom (cfgFields r) := by decide +revert

theorem ringMoves_apart (r : Fin 16) : (ringHead r).key ≠ (ringTail r).key ∧ (ringHead r).key ≠ (ringErr r).key ∧
    (ringTail r).key ≠ (ringErr r).key := by decide +revert

theorem windowRegs_apart (r : Fin 16) : ∀ f ∈ windowRegs, f.apartFrom (cfgFields r) := by decide +revert

end Sys2Proof.Machine
end

