-- ==== Sys2Proof/Proofs/RingsAndWindows.lean ====
section
/-! PROOF. Doorbells, the configuration of rings, and host windows (R428–R432, R455–R457). -/

namespace Sys2Proof.Machine

variable {s : State}

/-! ### Doorbells (R431, R432) -/

/-- A doorbell's value names a position that its ring takes. -/
def State.TakesDoorbell (s : State) (v : Nat) : Prop :=
  let pos := v % 2 ^ 15
  let r := v / 2 ^ 16 % 16
  let n := s.get (ringLog2 r)
  let head := s.get (ringHead r)
  let tail := s.get (ringTail r)
  let event := 8 ≤ r ∧ r < 12
  s.bit (ringEnable r) = true ∧ v / 2 ^ 15 % 2 = 0 ∧ v / 2 ^ 20 = 0 ∧ ringIdx pos < 2 ^ n ∧
    (event → ringCount n pos tail ≤ ringCount n head tail) ∧
    (¬event → ringCount n head tail ≤ ringCount n head pos ∧ ringCount n head pos ≤ 2 ^ n)

/-- A doorbell that its ring takes, and one that it does not. -/
theorem exec_doorbell (up : s.hostUp = true) (v : BitVec 32) :
    let r := v.toNat / 2 ^ 16 % 16
    (s.TakesDoorbell v.toNat → exec (.doorbell v) s =
      .next (s.put (if 8 ≤ r ∧ r < 12 then ringHead r else ringTail r) (v.toNat % 2 ^ 15))) ∧
    (¬s.TakesDoorbell v.toNat → exec (.doorbell v) s = .next (s.ringFault r 1)) := by
  have run : exec (.doorbell v) s = execDoorbell v s := rfl
  rw [run, execDoorbell, State.ifHost, if_pos up]
  unfold State.TakesDoorbell
  by_cases event : 8 ≤ v.toNat / 2 ^ 16 % 16 ∧ v.toNat / 2 ^ 16 % 16 < 12
  · simp only [event, and_self, if_true, true_imp_iff, not_true, false_imp_iff, and_true, Bool.and_eq_true, decide_eq_true_eq,
      and_assoc]
    exact ⟨fun takes => congrArg _ (if_pos takes), fun refuses => congrArg _ (if_neg refuses)⟩
  · simp only [event, if_false, true_imp_iff, not_false_eq_true, false_imp_iff, true_and, Bool.and_eq_true, decide_eq_true_eq,
      and_assoc]
    exact ⟨fun takes => congrArg _ (if_pos takes), fun refuses => congrArg _ (if_neg refuses)⟩

/-! ### The configuration of a ring (R428, R429) -/

section
variable {r : Fin 16} {v : Nat}

/-- The fields of a ring's CFG register other than ENABLE are written. -/
def State.putCfg (s : State) (r v : Nat) : State := s.each (cfgFields r) fun f t => t.put f (fieldOf v f)

/-- A ring starts empty, with no fault. -/
def State.startRing (s : State) (r : Nat) : State := (((s.set (ringEnable r)).put (ringHead r) 0).put (ringTail r) 0).put (ringErr r) 0

theorem PutsOnly.putCfg (s : State) (r v : Nat) : PutsOnly (cfgFields r) s (s.putCfg r v) := .each s _ _

theorem PutsOnly.startRing (s : State) (r : Nat) : PutsOnly (ringEnable r :: ringMoves r) s (s.startRing r) :=
  .trans (.put s (by simp) 1) (.trans (.put _ (by simp [ringMoves]) 0) (.trans (.put _ (by simp [ringMoves]) 0)
    (.put _ (by simp [ringMoves]) 0)))

/-- LOG2 is the first field written, and no later one is the same. -/
theorem State.get_putCfg_log2 (s : State) (r : Fin 16) (v : Nat) : (s.putCfg r v).get (ringLog2 r) = fieldOf v (ringLog2 r) := by
  obtain ⟨apart, -⟩ := ringLog2_apart r
  have first : s.putCfg r v = (s.put (ringLog2 r) (fieldOf v (ringLog2 r))).each (cfgFields r).tail fun f t => t.put f (fieldOf v f) := by
    rw [State.putCfg, cfgFields_eq_cons r]
    rfl
  rw [first, (PutsOnly.each _ _ _).get apart, State.get_put_same]
  exact Nat.mod_mod_of_dvd _ dvd_rfl

theorem State.startRing_shows (s : State) (r : Fin 16) : (s.startRing r).bit (ringEnable r) = true ∧
    (s.startRing r).get (ringHead r) = 0 ∧ (s.startRing r).get (ringTail r) = 0 ∧ (s.startRing r).get (ringErr r) = 0 := by
  obtain ⟨-, free, -, width⟩ := ringEnable_apart r
  obtain ⟨headTail, headErr, tailErr⟩ := ringMoves_apart r
  have moves : PutsOnly (ringMoves r) (s.set (ringEnable r)) (s.startRing r) :=
    .trans (.put _ (by simp [ringMoves]) 0) (.trans (.put _ (by simp [ringMoves]) 0) (.put _ (by simp [ringMoves]) 0))
  refine ⟨(moves.bit free).trans (s.bit_set_same width), ?_, ?_, ?_⟩
  · simp [State.startRing, State.get_put_ne, headTail, headErr]
  · simp [State.startRing, State.get_put_ne, tailErr]
  · simp [State.startRing]

/-- Where no START event waits, none is posted (R717). -/
theorem State.postStart_none (none : s.pwr.start = none) : s.postStart = s := by
  unfold State.postStart
  rw [none]

theorem exec_hostRingCfgWrite (up : s.hostUp = true) (r : Fin 16) (v : BitVec 32) :
    exec (.hostRingCfgWrite r v) s = .next (s.ringCfg r v.toNat) := if_pos up

/-- A write that enables a ring. -/
theorem State.ringCfg_enables (off : s.bit (ringEnable r) = false) (want : fieldOf v (ringEnable r) = 1) :
    let n := fieldOf v (ringLog2 r)
    s.ringCfg r v = if 6 ≤ n ∧ n ≤ 14 ∧ s.get (ringBase r) % 4096 = 0 ∧
        s.ringMemOk r (s.get (ringBase r)) (entryBytes r * 2 ^ n) = true
      then ((s.putCfg r v).startRing r).postStart else (s.putCfg r v).set Reg.HOST_STATUS_CFG_REJ := by
  have writes := PutsOnly.putCfg s r v
  have windows : ∀ f ∈ windowRegs, (s.putCfg r v).get f = s.get f := fun f mem => writes.get (windowRegs_apart r f mem)
  dsimp only
  rw [← s.get_putCfg_log2, ← writes.get (ringBase_apart r), ← State.ringMemOk_congr windows]
  simp only [State.ringCfg, off, want, Bool.false_and, Bool.false_or, beq_self_eq_true, Bool.not_true]
  rfl

/-- The size of an enabled ring stands (R429). -/
theorem State.ringCfg_refuses (on : s.bit (ringEnable r) = true) (other : fieldOf v (ringLog2 r) ≠ s.get (ringLog2 r)) :
    s.ringCfg r v = s.put Reg.HOST_STATUS_CFG_REJ 1 := by
  have changes : ((cfgFields r).any fun f => fieldOf v f != s.get f) = true := by
    rw [cfgFields_eq_cons r, List.any_cons, bne_iff_ne.2 other, Bool.true_or]
  simp only [State.ringCfg, on, changes, Bool.true_and, if_true]
  rfl

/-- A ring whose size, base and window are valid starts, where no START event waits for it. -/
theorem State.ringCfg_starts (off : s.bit (ringEnable r) = false) (want : fieldOf v (ringEnable r) = 1) (noStart : s.pwr.start = none)
    (valid : 6 ≤ fieldOf v (ringLog2 r) ∧ fieldOf v (ringLog2 r) ≤ 14 ∧ s.get (ringBase r) % 4096 = 0 ∧
      s.ringMemOk r (s.get (ringBase r)) (entryBytes r * 2 ^ fieldOf v (ringLog2 r)) = true) :
    s.ringCfg r v = (s.putCfg r v).startRing r := by
  have pwr : ((s.putCfg r v).startRing r).pwr = s.pwr := (PutsOnly.startRing _ _).pwr.trans (PutsOnly.putCfg s r v).pwr
  rw [State.ringCfg_enables off want, if_pos valid, State.postStart_none (by rw [pwr, noStart])]

/-- What a ring that starts leaves. -/
theorem State.startRing_putCfg_shows (s : State) (r : Fin 16) (v : Nat) : let t := (s.putCfg r v).startRing r
    t.bit (ringEnable r) = true ∧ t.get (ringHead r) = 0 ∧ t.get (ringTail r) = 0 ∧ t.get (ringErr r) = 0 ∧
      t.get (ringLog2 r) = fieldOf v (ringLog2 r) ∧ t.host = s.host ∧ t.units = s.units := by
  obtain ⟨on, head, tail, err⟩ := (s.putCfg r v).startRing_shows r
  obtain ⟨-, log2⟩ := ringLog2_apart r
  have writes := PutsOnly.putCfg s r v
  have starts := PutsOnly.startRing (s.putCfg r v) r
  exact ⟨on, head, tail, err, (starts.get log2).trans (s.get_putCfg_log2 r v), starts.host.trans writes.host,
    starts.units.trans writes.units⟩

/-- What a ring of a size that does not exist leaves. -/
theorem State.rejectCfg_shows (off : s.bit (ringEnable r) = false) : let t := (s.putCfg r v).set Reg.HOST_STATUS_CFG_REJ
    t.bit (ringEnable r) = false ∧ t.bit Reg.HOST_STATUS_CFG_REJ = true ∧ t.host = s.host ∧ t.units = s.units := by
  obtain ⟨fields, -, status, -⟩ := ringEnable_apart r
  have writes := PutsOnly.putCfg s r v
  have rejects : PutsOnly [Reg.HOST_STATUS_CFG_REJ] (s.putCfg r v) ((s.putCfg r v).set Reg.HOST_STATUS_CFG_REJ) := .put _ (by simp) 1
  exact ⟨(rejects.bit status).trans ((writes.bit fields).trans off), State.bit_set_same _ rfl, rejects.host.trans writes.host,
    rejects.units.trans writes.units⟩

end

/-! ### Host windows (R457) -/

theorem windowCtl_apart (k : Fin 16) :
    (Reg.HOST_WIN_CTL_ENABLE k).key ≠ (Reg.HOST_WIN_CTL_READ k).key ∧
    (Reg.HOST_WIN_CTL_ENABLE k).key ≠ (Reg.HOST_WIN_CTL_WRITE k).key ∧
    (Reg.HOST_WIN_CTL_READ k).key ≠ (Reg.HOST_WIN_CTL_WRITE k).key := by decide +revert

/-- The three bits of a window's CTL are written. -/
def State.putWinCtl (s : State) (k v : Nat) : State :=
  ((s.put (Reg.HOST_WIN_CTL_ENABLE k) (v % 2)).put (Reg.HOST_WIN_CTL_READ k) (v / 2 % 2)).put (Reg.HOST_WIN_CTL_WRITE k) (v / 4 % 2)

theorem State.putWinCtl_shows (s : State) (k : Fin 16) (v : BitVec 32) : let t := s.putWinCtl k v.toNat
    t.bit (Reg.HOST_WIN_CTL_ENABLE k) = v.getLsbD 0 ∧ t.bit (Reg.HOST_WIN_CTL_READ k) = v.getLsbD 1 ∧
      t.bit (Reg.HOST_WIN_CTL_WRITE k) = v.getLsbD 2 := by
  obtain ⟨enableRead, enableWrite, readWrite⟩ := windowCtl_apart k
  have bit {j d : Nat} (power : 2 ^ j = d) : v.getLsbD j = (v.toNat / d % 2 % 2 == 1) := by
    rw [← power, Nat.mod_mod, BitVec.getLsbD, Nat.testBit_eq_decide_div_mod_eq, beq_eq_decide]
  refine ⟨?_, ?_, ?_⟩
  · rw [State.putWinCtl, State.bit_put_ne _ enableWrite, State.bit_put_ne _ enableRead, State.bit_put_same _ rfl, bit (pow_zero 2),
      Nat.div_one]
  · rw [State.putWinCtl, State.bit_put_ne _ readWrite, State.bit_put_same _ rfl, bit (pow_one 2)]
  · rw [State.putWinCtl, State.bit_put_same _ rfl, bit (show 2 ^ 2 = 4 from rfl)]

/-- The requests to window `k` that are outstanding, and whether a read of its CTL is held. -/
def HostSt.withDrain (x : HostSt) (k n : Nat) (held : Bool) : HostSt :=
  { x with winOut := Tab.put 0 x.winOut k n, winHeld := Tab.put false x.winHeld k held }

theorem State.winCtl_eq (s : State) (k v n : Nat) : s.winCtl k v n =
    if (s.bit (Reg.HOST_WIN_CTL_ENABLE k) && v % 2 == 0) = true
    then (s.putWinCtl k v).modHost fun x => x.withDrain k n (decide (0 < n)) else s.putWinCtl k v := rfl

theorem exec_hostWinCtlWrite (up : s.hostUp = true) (k : Fin 16) (v : BitVec 32) (n : Nat) :
    exec (.hostWinCtlWrite k v n) s = .next (s.winCtl k v.toNat n) := if_pos up

theorem exec_windowDrainDone (k : Fin 16) : exec (.windowDrainDone k) s = .next (s.modHost fun x => x.withDrain k 0 false) := rfl

theorem State.winCtl_shows (s : State) (k : Fin 16) (v : BitVec 32) (n : Nat) : let t := s.winCtl k v.toNat n
    t.bit (Reg.HOST_WIN_CTL_ENABLE k) = v.getLsbD 0 ∧ t.bit (Reg.HOST_WIN_CTL_READ k) = v.getLsbD 1 ∧
      t.bit (Reg.HOST_WIN_CTL_WRITE k) = v.getLsbD 2 ∧ t.units = s.units ∧
      (s.bit (Reg.HOST_WIN_CTL_ENABLE k) = true → v.getLsbD 0 = false → 0 < n → Tab.get false t.host.winHeld k = true) := by
  obtain ⟨enable, read, write⟩ := s.putWinCtl_shows k v
  dsimp only
  rw [State.winCtl_eq]
  split
  next withdrawn =>
    refine ⟨enable, read, write, rfl, fun _ _ some => (Tab.get_put_same ..).trans (decide_eq_true some)⟩
  next stays =>
    refine ⟨enable, read, write, rfl, fun was off _ => absurd ?_ stays⟩
    have even : v.toNat % 2 = 0 := by simpa [BitVec.getLsbD, Nat.testBit_zero] using off
    rw [was, even]
    rfl

/-- Settles O32: each doorbell by the test of its ring, a configuration write by the fields it writes, a window by its CTL. That a
position lies within its ring is the model's reading of R430 and R432. -/
theorem ringsAndWindows : Obligations.RingsAndWindows := by
  unfold Obligations.RingsAndWindows
  refine ⟨fun v s up => ?_, fun r v s up => ⟨fun off want noStart least most base mem => ?_, fun off want size => ?_, fun on other => ?_⟩,
    fun k v n s up => ⟨_, exec_hostWinCtlWrite up k v n, s.winCtl_shows k v n⟩, fun k s => ?_⟩
  · obtain ⟨takes, refuses⟩ := exec_doorbell up v
    exact ⟨fun ok event => (takes ok).trans (by rw [if_pos event]), fun ok other => (takes ok).trans (by rw [if_neg other]), refuses⟩
  · exact ⟨_, (exec_hostRingCfgWrite up r v).trans (congrArg _ (State.ringCfg_starts off want noStart ⟨least, most, base, mem⟩)),
      s.startRing_putCfg_shows r v.toNat⟩
  · refine ⟨_, (exec_hostRingCfgWrite up r v).trans (congrArg _ ?_), State.rejectCfg_shows (v := v.toNat) off⟩
    rw [State.ringCfg_enables off want, if_neg]
    omega
  · exact (exec_hostRingCfgWrite up r v).trans (congrArg _ (State.ringCfg_refuses on other))
  · exact ⟨_, exec_windowDrainDone k, Tab.get_put_same false s.host.winHeld k false, Tab.get_put_same 0 s.host.winOut k 0, rfl,
      fun j other => Tab.get_put_ne false s.host.winHeld other false⟩

end Sys2Proof.Machine
end

