-- ==== Sys2Proof/Proofs/EventEntries.lean ====
section
/-! SUPPORT. An event entry as it is written, and when it waits for the ledger instead (R449, R450, R454, R468–R470). -/

namespace Sys2Proof.Machine

variable {s : State} {r : Nat}

/-- The ledger has room for an event entry and none waits before it: under the reserve of the frame, or else under what is left. -/
def State.EntryFits (s : State) : Prop := s.host.evWait = [] ∧ (s.host.reserveUsed + 32 ≤ 4096 ∨ 32 ≤ s.restRoom)

theorem State.writeEvent_fits (mem : s.evMemOk r = true) (fits : s.EntryFits) (h : Held) : ∃ b, s.writeEvent r h = s.putEvent r h b := by
  obtain ⟨none, room⟩ := fits
  unfold State.writeEvent
  by_cases reserve : s.host.reserveUsed + 32 ≤ 4096
  · exact ⟨true, by simp [mem, none, reserve]⟩
  · exact ⟨false, by simp [mem, none, reserve, room.resolve_left reserve]⟩

theorem State.writeEvent_waits (mem : s.evMemOk r = true) (full : ¬s.EntryFits) (h : Held) :
    s.writeEvent r h = s.modHost fun x => { x with evWait := x.evWait ++ [(r, h)] } := by
  unfold State.writeEvent
  by_cases none : s.host.evWait = []
  · obtain ⟨reserve, rest⟩ := not_or.1 fun room => full ⟨none, room⟩
    simp [mem, none, reserve, rest, State.modHost]
  · simp [mem, none]

/-- An entry at TAIL, with the phase of that position, and TAIL one further. -/
theorem State.putEvent_shows (s : State) (r : Nat) (h : Held) (b : Bool) :
    let tail := s.get (Reg.HOST_ERING_TAIL_POS r)
    let t := s.putEvent r h b
    Tab.get {} t.host.evRing (r * 2 ^ 14 + ringIdx tail) = ⟨ringWrap tail == 0, h.event⟩ ∧
      t.hostMem = Memory.writeBytes s.hostMem (s.get (Reg.HOST_ERING_BASE_BASE r) + 32 * ringIdx tail)
        (eventBytes (ringWrap tail == 0) h.event) ∧
      t.get (Reg.HOST_ERING_TAIL_POS r) = ringNext (s.get (Reg.HOST_ERING_CFG_LOG2 r)) tail % 2 ^ 15 :=
  ⟨Tab.get_put_same {} s.host.evRing _ _, rfl, State.get_put_same ..⟩

end Sys2Proof.Machine
end

