-- ==== Sys2Proof/Proofs/DispatchAndCompletion.lean ====
section
/-! PROOF. The urgent window, the dispatch of descriptors, completions, held events, and the moderation of vectors (R437–R439,
R448–R454, R459–R462). -/

namespace Sys2Proof.Machine

variable {s : State}

/-! ### What a dispatch leaves (R437, R439) -/

/-- Between `s` and `t` commands have finished; registers, units and the rest of the host interface stand. -/
def FinishesOnly (s t : State) : Prop := t.regs = s.regs ∧ t.units = s.units ∧ ∃ done, t.host = { s.host with done := done }

theorem FinishesOnly.refl : FinishesOnly s s := ⟨rfl, rfl, s.host.done, rfl⟩

theorem FinishesOnly.trans {t u : State} (a : FinishesOnly s t) (b : FinishesOnly t u) : FinishesOnly s u := by
  obtain ⟨regs, units, done, host⟩ := b
  exact ⟨regs.trans a.1, units.trans a.2.1, done, by rw [host, a.2.2.choose_spec]⟩

theorem FinishesOnly.refuse (s : State) (h : CmdHdr) (op : Nat) (st : Status) (k i : Nat) : FinishesOnly s (s.refuse h op st k i) :=
  ⟨rfl, rfl, _, rfl⟩

theorem FinishesOnly.dropDist (s : State) (ring : Nat) : FinishesOnly s (s.dropDist ring) := by
  unfold State.dropDist
  split
  · exact ⟨rfl, rfl, _, rfl⟩
  · exact .refl

/-- A command is noted as issued. -/
def State.noteIssued (s : State) (i : Issued) : State := s.modHost fun x => { x with issued := x.issued ++ [i] }

/-- What a descriptor of a source is noted as. -/
def issuedAs (src : Src) (d : Descriptor) : Issued := ⟨⟨src, d.tag, d.flags, d.target⟩, d.opcode⟩

/-- A dispatch notes the command and changes nothing else of the host interface but the commands that have finished; a bad field
refuses the command. -/
theorem State.dispatch_shows (s : State) (src : Src) (d : Descriptor) :
    FinishesOnly (s.noteIssued (issuedAs src d)) (s.dispatch src d) ∧
    ∀ o, badField src d = some o →
      (⟨(issuedAs src d).hdr, d.opcode, .refused, o % 256, 0, 0, false⟩ : Done) ∈ (s.dispatch src d).host.done := by
  have noted : FinishesOnly (s.noteIssued (issuedAs src d)) (if d.opcode = 0x0886 ∧ Nat.testBit d.flags 0 then
      s.noteIssued (issuedAs src d) else (s.noteIssued (issuedAs src d)).dropDist src.code) := by
    split
    · exact .refl
    · exact .dropDist _ _
  unfold State.dispatch
  cases badField src d with
  | none => exact ⟨noted, nofun⟩
  | some o =>
    refine ⟨noted.trans (.refuse ..), fun k bad => ?_⟩
    cases bad
    exact List.mem_append_right _ (List.mem_singleton.2 rfl)

/-! ### The urgent window (R459, R461) -/

section
variable {k : Fin 64}

theorem exec_urgentSlotCommit_busy (up : s.hostUp = true) (busy : (s.get Reg.HOST_URG_BUSY_BUSY).testBit k = true) (d : Descriptor)
    (v : BitVec 32) : exec (.urgentSlotCommit k d v) s = .next (s.put Reg.HOST_STATUS_URG_OVERWRITE 1) :=
  (if_pos up).trans (if_pos busy)

/-- A slot is written and taken. -/
def State.takeSlot (s : State) (k : Fin 64) (d : Descriptor) : State :=
  (s.modHost fun x => { x with urg := Tab.put none x.urg k.val (some d), urgTaken := x.urgTaken ++ [k] }).setMask
    Reg.HOST_URG_BUSY_BUSY k

theorem exec_urgentSlotCommit_takes (up : s.hostUp = true) (free : (s.get Reg.HOST_URG_BUSY_BUSY).testBit k = false) (d : Descriptor)
    {v : BitVec 32} (commit : v ≠ 0) :
    exec (.urgentSlotCommit k d v) s = .next (s.takeSlot k { d with payload := d.payload.take 44 }) := by
  have notBusy : ¬Nat.testBit (s.get Reg.HOST_URG_BUSY_BUSY) k.val = true := by rw [free]; decide
  exact (if_pos up).trans ((if_neg notBusy).trans (congrArg _ (if_neg commit)))

theorem State.takeSlot_shows (s : State) (k : Fin 64) (d : Descriptor) : let t := s.takeSlot k d
    (t.get Reg.HOST_URG_BUSY_BUSY).testBit k = true ∧ t.host.urgTaken = s.host.urgTaken ++ [k] ∧ t.units = s.units ∧
      Tab.get none t.host.urg k = some d :=
  ⟨State.testBit_setMask _ k.isLt, rfl, rfl, Tab.get_put_same none s.host.urg k (some d)⟩

theorem exec_urgentDispatch {rest : List (Fin 64)} (taken : s.host.urgTaken = k :: rest) {d : Descriptor}
    (slot : Tab.get none s.host.urg k = some d) :
    exec .urgentDispatch s = .next ((s.modHost fun x => { x with urgTaken := rest }).dispatch (.urgent k) d) := by
  have run : exec .urgentDispatch s = execUrgentDispatch s := rfl
  rw [run, execUrgentDispatch, taken]
  dsimp only
  rw [slot]

end

/-! ### The command rings (R438) -/

section
variable {c : Fin 8}

/-- A descriptor of ring `c` has been fetched: HEAD is one further, and an entry of the ring's event ring is reserved. -/
def State.fetched (s : State) (c : Nat) : State :=
  (s.advanceHead c).modHost fun x =>
    { x with lastRing := c, reserved := Tab.upd 0 x.reserved (s.get (Reg.HOST_CRING_CFG_EVT c) % 4) (· + 1) }

theorem exec_descriptorDispatch (d : Descriptor) (noUrgent : s.host.urgTaken = [])
    (turn : ((List.range 8).map fun k => (s.host.lastRing + 1 + k) % 8).find? s.mayFetch = some c.val)
    (window : s.windowOk (s.headAddr c) 64 false = true) :
    exec (.descriptorDispatch d) s = .next ((s.fetched c).dispatch (.ring c) d) := by
  have run : exec (.descriptorDispatch d) s = execDescriptorDispatch d s := rfl
  rw [run, execDescriptorDispatch, noUrgent, turn]
  simp [window, State.fetched]

theorem State.fetched_shows (s : State) (c : Fin 8) : let e := s.get (Reg.HOST_CRING_CFG_EVT c) % 4
    (s.fetched c).get (ringHead c) = ringNext (s.get (ringLog2 c)) (s.get (ringHead c)) % 2 ^ 15 ∧
      Tab.get 0 (s.fetched c).host.reserved e = Tab.get 0 s.host.reserved e + 1 := by
  have width : (ringHead c).w = 15 := by decide +revert
  refine ⟨?_, (Tab.get_upd 0 s.host.reserved _ _ (· + 1)).trans (if_pos rfl)⟩
  rw [← width]
  exact State.get_put_same s (ringHead c) _

end

/-! ### Completions (R439, R448, R451) -/

section
variable {x : Done} {rest : List Done}

/-- The oldest finished command, whose completion ring `e` takes, is issued no longer, and its reservation is free. -/
def State.retired (s : State) (x : Done) (rest : List Done) (e : Nat) : State :=
  s.modHost fun y => { y with done := rest, issued := dropFirst (fun i => i.hdr == x.hdr && i.opcode == x.opcode) y.issued,
                              reserved := Tab.upd 0 y.reserved e (· - 1) }

theorem exec_commandCompletion_unissued (first : s.host.done = x :: rest) (unissued : ∀ i ∈ s.host.issued, i.hdr ≠ x.hdr) :
    exec .commandCompletion s = .next (s.modHost fun y => { y with done := rest }) := by
  have run : exec .commandCompletion s = execCommandCompletion s := rfl
  have none : (s.host.issued.any fun i => i.hdr == x.hdr && i.opcode == x.opcode) = false :=
    List.any_eq_false.2 fun i mem => by simp [unissued i mem]
  rw [run, execCommandCompletion, first]
  simp [none]

theorem exec_commandCompletion_ring {c : Fin 8} (first : s.host.done = x :: rest) (ring : x.hdr.src = .ring c)
    (final : x.interim = false) (issued : (⟨x.hdr, x.opcode⟩ : Issued) ∈ s.host.issued) :
    let e := s.get (Reg.HOST_CRING_CFG_EVT c) % 4
    s.bit (Reg.HOST_ERING_CFG_ENABLE e) = true → s.get (Reg.HOST_ERING_ERR_CODE e) ≠ 2 →
      exec .commandCompletion s = .next ((s.retired x rest e).writeEvent e ⟨doneEvent x, 1 + e⟩) := by
  intro e enabled running
  have run : exec .commandCompletion s = execCommandCompletion s := rfl
  have some : (s.host.issued.any fun i => i.hdr == x.hdr && i.opcode == x.opcode) = true :=
    List.any_eq_true.2 ⟨_, issued, by simp⟩
  rw [run, execCommandCompletion, first]
  simp [some, ring, final, enabled, running, e, State.retired, State.modHost]

/-- What the completion of a finished command leaves in its event ring. -/
theorem State.complete_shows (s : State) (x : Done) (rest : List Done) {e : Nat} (small : e < 4) (mem : s.evMemOk e = true) :
    let tail := s.get (Reg.HOST_ERING_TAIL_POS e)
    let t := (s.retired x rest e).writeEvent e ⟨doneEvent x, 1 + e⟩
    t.host.done = rest ∧ t.units = s.units ∧ Tab.get 0 t.host.reserved e = Tab.get 0 s.host.reserved e - 1 ∧
      (s.EntryFits → Tab.get {} t.host.evRing (e * 2 ^ 14 + ringIdx tail) = ⟨ringWrap tail == 0, doneEvent x⟩ ∧
        t.hostMem = Memory.writeBytes s.hostMem (s.get (Reg.HOST_ERING_BASE_BASE e) + 32 * ringIdx tail)
          (eventBytes (ringWrap tail == 0) (doneEvent x)) ∧
        t.get (Reg.HOST_ERING_TAIL_POS e) = ringNext (s.get (Reg.HOST_ERING_CFG_LOG2 e)) tail % 2 ^ 15) ∧
      (¬s.EntryFits → t.host.evWait = s.host.evWait ++ [(e, ⟨doneEvent x, 1 + e⟩)] ∧ t.hostMem = s.hostMem) := by
  have events := SameButEvents.writeEvent (s.retired x rest e) small ⟨doneEvent x, 1 + e⟩
  have same := SameButHost.writeEvent (s.retired x rest e) e ⟨doneEvent x, 1 + e⟩ small
  refine ⟨events.done, same.units, ?_, fun fits => ?_, fun full => ?_⟩
  · rw [events.host]
    exact (Tab.get_upd 0 s.host.reserved e e (· - 1)).trans (if_pos rfl)
  · obtain ⟨b, put⟩ := State.writeEvent_fits (s := s.retired x rest e) mem fits ⟨doneEvent x, 1 + e⟩
    rw [put]
    exact (s.retired x rest e).putEvent_shows e _ b
  · rw [State.writeEvent_waits (s := s.retired x rest e) mem full]
    exact ⟨rfl, rfl⟩

end

/-! ### Held events (R453) -/

theorem exec_eventHoldingDrain_full {e : Fin 4} (full : s.evRoom e = false) : exec (.eventHoldingDrain e) s = .next s := by
  have run : exec (.eventHoldingDrain e) s = execEventHoldingDrain e s := rfl
  simp [run, execEventHoldingDrain, full]

theorem exec_eventHoldingDrain_one {e : Fin 4} {h : Held} (held : Tab.get [] s.host.holding e = [h]) (room : s.evRoom e = true)
    (mem : s.evMemOk e = true) (kept : Tab.get 0 s.host.lost e = 0) :
    exec (.eventHoldingDrain e) s =
      .next ((s.writeEvent e h).modHost fun x => { x with holding := Tab.put [] x.holding e [] }) := by
  have run : exec (.eventHoldingDrain e) s = execEventHoldingDrain e s := rfl
  simp [run, execEventHoldingDrain, held, room, mem, kept, State.drainHeld]

/-! ### Moderated vectors (R454) -/

/-- The moderation of a vector ends. -/
def State.endModeration (s : State) (v : Nat) : State :=
  s.modHost fun x => { x with msix := Tab.put {} x.msix v { Tab.get {} s.host.msix v with moderated := false, waiting := false } }

theorem exec_msixModerationExpiry (v : Fin 64) : let m := Tab.get {} s.host.msix v
    exec (.msixModerationExpiry v) s =
      .next (if m.moderated && m.waiting then (s.endModeration v).raiseVector v else s.endModeration v) := rfl

/-- A vector that is neither masked nor moderated sends. -/
theorem State.raiseVector_sends (s : State) (v : Nat) (unmasked : (Tab.get {} s.host.msix v).masked = false)
    (free : (Tab.get {} s.host.msix v).moderated = false) :
    Tab.get {} (s.raiseVector v).host.msix v = { Tab.get {} s.host.msix v with
      sent := (Tab.get {} s.host.msix v).sent + 1, moderated := decide (s.get Reg.HOST_IMOD_INTERVAL ≠ 0) } := by
  simp [State.raiseVector, State.modHost, unmasked, free]

theorem State.msix_endModeration (s : State) (v : Nat) : Tab.get {} (s.endModeration v).host.msix v =
    { Tab.get {} s.host.msix v with moderated := false, waiting := false } := Tab.get_put_same ..

/-- What the end of a vector's interval leaves. -/
theorem exec_msixModerationExpiry_spec (s : State) (v : Fin 64) : let m := Tab.get {} s.host.msix v
    ∃ t, exec (.msixModerationExpiry v) s = .next t ∧ t.regs = s.regs ∧ t.units = s.units ∧
      (m.moderated = true → m.waiting = true → m.masked = false →
        (Tab.get {} t.host.msix v).sent = m.sent + 1 ∧ (Tab.get {} t.host.msix v).waiting = false) ∧
      (m.waiting = false → (Tab.get {} t.host.msix v).sent = m.sent ∧ (Tab.get {} t.host.msix v).moderated = false) := by
  intro m
  have ended := s.msix_endModeration v
  refine ⟨_, exec_msixModerationExpiry v, ?_⟩
  by_cases waits : (m.moderated && m.waiting) = true
  · rw [if_pos waits]
    obtain ⟨-, waiting⟩ := Bool.and_eq_true_iff.1 waits
    refine ⟨rfl, rfl, fun _ _ unmasked => ?_, fun idle => absurd (idle.symm.trans waiting) (by decide)⟩
    rw [State.raiseVector_sends _ _ (by rw [ended]; exact unmasked) (by rw [ended]), ended]
    exact ⟨rfl, rfl⟩
  · rw [if_neg waits, ended]
    exact ⟨rfl, rfl, fun moderated waiting _ => absurd (Bool.and_eq_true_iff.2 ⟨moderated, waiting⟩) waits, fun _ => ⟨rfl, rfl⟩⟩

/-- Settles O33: each command through its equation above; a dispatch by `State.dispatch_shows`, a completion by
`State.complete_shows`. That the completion of a command that was not issued is dropped is log 11, and that a drain with none lost posts
no EVENT_LOST is log 8. -/
theorem dispatchAndCompletion : Obligations.DispatchAndCompletion := by
  unfold Obligations.DispatchAndCompletion
  refine ⟨fun k d v s up => ⟨fun busy => exec_urgentSlotCommit_busy up busy d v, fun free commit => ?_⟩,
    fun k rest d s taken slot => ?_, fun d s c noUrgent turn window => ?_, fun c x rest s first =>
      ⟨fun ring final issued enabled running mem => ?_, exec_commandCompletion_unissued first⟩,
    fun e h s held => ⟨fun room mem kept none ledger => ?_, exec_eventHoldingDrain_full⟩,
    fun v s => exec_msixModerationExpiry_spec s v⟩
  · exact ⟨_, exec_urgentSlotCommit_takes up free d commit, s.takeSlot_shows k _⟩
  · obtain ⟨⟨-, units, done, host⟩, -⟩ := (s.modHost fun x => { x with urgTaken := rest }).dispatch_shows (.urgent k) d
    refine ⟨_, exec_urgentDispatch taken slot, ?_, units, ?_⟩
    · rw [host]; rfl
    · rw [host]; exact List.mem_append_right _ (List.mem_singleton.2 rfl)
  · obtain ⟨head, reserved⟩ := s.fetched_shows c
    obtain ⟨⟨regs, units, done, host⟩, refused⟩ := (s.fetched c).dispatch_shows (.ring c) d
    refine ⟨_, exec_descriptorDispatch d noUrgent turn window, ?_, (State.get_of_regs regs _).trans head, units, ?_, ?_, refused⟩
    · rw [host]; rfl
    · rw [host]; exact reserved
    · rw [host]; exact List.mem_append_right _ (List.mem_singleton.2 rfl)
  · exact ⟨_, exec_commandCompletion_ring first ring final issued enabled running,
      s.complete_shows x rest (Nat.mod_lt _ (by decide)) mem⟩
  · obtain ⟨b, put⟩ := State.writeEvent_fits mem ⟨none, ledger⟩ h
    obtain ⟨entry, -, -⟩ := s.putEvent_shows e h b
    refine ⟨_, exec_eventHoldingDrain_one held room mem kept, Tab.get_put_same [] (s.writeEvent e h).host.holding e [], ?_⟩
    rw [put]
    exact congrArg RingEntry.event entry

end Sys2Proof.Machine
end

