-- ==== Sys2Proof/Proofs/HostDmaChannels.lean ====
section
/-! PROOF. Host DMA channels: what a descriptor moves, and what its end, its refusal and its abort record (R473–R479). -/

namespace Sys2Proof.Machine

variable {s t : State} {n : Fin 32}

/-! ### Reading the state -/

theorem State.windowOk_of_regs (regs : t.regs = s.regs) (addr len : Nat) (write : Bool) :
    t.windowOk addr len write = s.windowOk addr len write := State.windowOk_congr (fun f _ => State.get_of_regs regs f) ..

theorem State.hostDmaCheck_of_regs (regs : t.regs = s.regs) (addr : Nat) (d : DmaDesc) : t.hostDmaCheck addr d = s.hostDmaCheck addr d := by
  simp only [State.hostDmaCheck, State.windowOk_of_regs regs, State.get_of_regs regs]

/-- Units, package DRAM and host memory stand. -/
def KeepsMemories (s t : State) : Prop := t.units = s.units ∧ t.dram = s.dram ∧ t.hostMem = s.hostMem

/-! ### Records (R479) -/

theorem dmaRecord_apart (n : Fin 32) :
    (Reg.DMA_CH_STATUS_CODE n).FreeOf [Reg.DMA_CH_STATUS_REC_NEW n, Reg.DMA_CH_MOVED_BYTES n, Reg.DMA_CH_RESIDUE_BYTES n,
      Reg.DMA_CH_STATUS_STATE n] ∧
    (Reg.DMA_CH_STATUS_REC_NEW n).FreeOf [Reg.DMA_CH_MOVED_BYTES n, Reg.DMA_CH_RESIDUE_BYTES n, Reg.DMA_CH_STATUS_STATE n] ∧
    (Reg.DMA_CH_MOVED_BYTES n).FreeOf [Reg.DMA_CH_RESIDUE_BYTES n, Reg.DMA_CH_STATUS_STATE n] ∧
    (Reg.DMA_CH_RESIDUE_BYTES n).FreeOf [Reg.DMA_CH_STATUS_STATE n] := by decide +revert

/-- A channel idles, and its record shows a status, the bytes moved and the residue. -/
structure Recorded (n : Fin 32) (st : Status) (moved residue : Nat) (t : State) : Prop where
  idle : (Tab.get {} t.host.dma n).running = false
  code : t.get (Reg.DMA_CH_STATUS_CODE n) = st.code
  isNew : t.bit (Reg.DMA_CH_STATUS_REC_NEW n) = true
  moved : t.get (Reg.DMA_CH_MOVED_BYTES n) = moved % 2 ^ 64
  residue : t.get (Reg.DMA_CH_RESIDUE_BYTES n) = residue % 2 ^ 32

theorem State.dmaRecord_shows (s : State) (n : Fin 32) (st : Status) (m k : Nat) : Recorded n st m k (s.dmaRecord n st m k) := by
  obtain ⟨code, isNew, moved, residue⟩ := dmaRecord_apart n
  have last : WritesOnly [Reg.DMA_CH_STATUS_STATE n] ((((s.put (Reg.DMA_CH_STATUS_CODE n) st.code).set (Reg.DMA_CH_STATUS_REC_NEW n)).put
      (Reg.DMA_CH_MOVED_BYTES n) m).put (Reg.DMA_CH_RESIDUE_BYTES n) k) (s.dmaRecord n st m k) :=
    .trans (.put (List.mem_singleton.2 rfl) 0) (.of_regs rfl)
  have bytes : WritesOnly [Reg.DMA_CH_RESIDUE_BYTES n, Reg.DMA_CH_STATUS_STATE n] (((s.put (Reg.DMA_CH_STATUS_CODE n) st.code).set
      (Reg.DMA_CH_STATUS_REC_NEW n)).put (Reg.DMA_CH_MOVED_BYTES n) m) (s.dmaRecord n st m k) :=
    .trans (.put (by simp) k) (.mono (by simp) last)
  have counts : WritesOnly [Reg.DMA_CH_MOVED_BYTES n, Reg.DMA_CH_RESIDUE_BYTES n, Reg.DMA_CH_STATUS_STATE n]
      ((s.put (Reg.DMA_CH_STATUS_CODE n) st.code).set (Reg.DMA_CH_STATUS_REC_NEW n)) (s.dmaRecord n st m k) :=
    .trans (.put (by simp) m) (.mono (by simp) bytes)
  have status : WritesOnly [Reg.DMA_CH_STATUS_REC_NEW n, Reg.DMA_CH_MOVED_BYTES n, Reg.DMA_CH_RESIDUE_BYTES n,
      Reg.DMA_CH_STATUS_STATE n] (s.put (Reg.DMA_CH_STATUS_CODE n) st.code) (s.dmaRecord n st m k) :=
    .trans (.put (by simp) 1) (.mono (by simp) counts)
  exact ⟨congrArg DmaCh.running (Tab.get_put_same {} s.host.dma n {}), (status _ code).trans (State.get_put_lt _ _ _ st.code_lt),
    (counts.bit isNew).trans (State.bit_set_same _ rfl), (bytes _ moved).trans (State.get_put_same ..),
    (last _ residue).trans (State.get_put_same ..)⟩

/-! ### Taking up a descriptor (R474, R475) -/

section
variable {addr m : Nat} {d : DmaDesc}

/-- A channel runs with a descriptor. -/
def State.runChannel (s : State) (n addr m : Nat) (d : DmaDesc) : State :=
  ((s.put (Reg.DMA_CH_CUR_ADDR n) addr).put (Reg.DMA_CH_STATUS_STATE n) 1).modHost fun x =>
    { x with dma := Tab.put {} x.dma n { running := true, cur := d, moved := m } }

theorem State.dmaTake_takes (n : Nat) (m : Nat) (passes : s.hostDmaCheck addr d = none) :
    s.dmaTake n addr m d = s.runChannel n addr m d := by
  unfold State.dmaTake
  rw [passes]
  rfl

theorem State.dmaTake_refuses (n : Nat) (m : Nat) {st : Status} (fails : s.hostDmaCheck addr d = some st) :
    s.dmaTake n addr m d = (s.put (Reg.DMA_CH_CUR_ADDR n) addr).dmaRecord n st m d.length := by
  unfold State.dmaTake
  rw [fails]

theorem State.runChannel_shows (s : State) (n addr m : Nat) (d : DmaDesc) :
    Tab.get {} (s.runChannel n addr m d).host.dma n = { running := true, cur := d, moved := m } ∧
      (s.runChannel n addr m d).get (Reg.DMA_CH_STATUS_STATE n) = 1 :=
  ⟨Tab.get_put_same {} s.host.dma n { running := true, cur := d, moved := m },
    State.get_put_same (s.put (Reg.DMA_CH_CUR_ADDR n) addr) (Reg.DMA_CH_STATUS_STATE n) 1⟩

theorem State.dmaTake_keeps (s : State) (n addr m : Nat) (d : DmaDesc) : KeepsMemories s (s.dmaTake n addr m d) := by
  cases check : s.hostDmaCheck addr d with
  | none => rw [State.dmaTake_takes n m check]; exact ⟨rfl, rfl, rfl⟩
  | some st => rw [State.dmaTake_refuses n m check]; exact ⟨rfl, rfl, rfl⟩

end

theorem exec_dmaChStart (up : s.hostUp = true) (host : 12 ≤ n.val) (idle : (Tab.get {} s.host.dma n).running = false) (d : DmaDesc) :
    exec (.dmaChStart n d) s = .next (s.dmaTake n (s.get (Reg.DMA_CH_DESC_ADDR n)) 0 d) := by
  refine (if_pos up).trans (if_neg ?_)
  rw [idle, not_or]
  exact ⟨Nat.not_lt.2 host, Bool.false_ne_true⟩

/-! ### The bytes of a descriptor (R476, R477) -/

/-- SWAP of 0 leaves the bytes in their order. -/
theorem swapBytes_zero (l : List Byte) : swapBytes 0 l = l := by
  induction l using swapBytes.induct with
  | case1 a b c d t ih => simp [swapBytes, ih]
  | case2 l short => rw [swapBytes]; exact short

theorem State.dmaMove_keeps (s : State) (n : Nat) (d : DmaDesc) (len : Nat) (data : List Byte) :
    (s.dmaMove n d len data).regs = s.regs ∧ (s.dmaMove n d len data).units = s.units := by
  unfold State.dmaMove
  dsimp only
  split <;> exact ⟨rfl, rfl⟩

/-- A downstream descriptor writes what the host memory holds to the region. -/
theorem State.dmaMove_down (s : State) (n : Nat) {d : DmaDesc} {data : List Byte} (down : d.up = false) (order : d.swap = 0)
    (length : data.length = d.length) : (s.dmaMove n d d.length data).dram = Memory.writeBytes s.dram (s.dmaRegion + d.engine) data ∧
      (s.dmaMove n d d.length data).hostMem = s.hostMem := by
  simp [State.dmaMove, down, order, swapBytes_zero, List.take_left' length]

/-- An upstream descriptor writes the bytes of the region to host memory. -/
theorem State.dmaMove_up (s : State) (n : Nat) {d : DmaDesc} (data : List Byte) (up : d.up = true) (order : d.swap = 0) :
    (s.dmaMove n d d.length data).dram = s.dram ∧ (s.dmaMove n d d.length data).hostMem =
      Memory.writeBytes s.hostMem d.host (Memory.readBytes s.dram (s.dmaRegion + d.engine) d.length) := by
  simp [State.dmaMove, up, order, swapBytes_zero, State.channelWrite, State.hostWrite, State.modHost]

/-! ### The end of a descriptor (R475–R477, R479) -/

section
variable {data : List Byte} {nx : DmaDesc} {ok : Bool}

theorem exec_dmaDescriptorDone_waits (waits : (Tab.get {} s.host.dma n).running = false ∨
    (Tab.get {} s.host.dma n).cur.up = true ∧ s.channelFits n (Tab.get {} s.host.dma n).cur.length = false) :
    exec (.dmaDescriptorDone n data nx ok) s = .next s := by
  refine if_pos ?_
  obtain idle | ⟨up, full⟩ := waits
  · rw [idle]; rfl
  · rw [up, full]; exact Bool.or_true _

/-- A descriptor's bytes have moved, with an interrupt where it asks for one. -/
def State.movedOut (s : State) (n : Nat) (d : DmaDesc) (data : List Byte) : State :=
  if d.irq then (s.dmaMove n d d.length data).raiseVector (5 + n) else s.dmaMove n d d.length data

theorem exec_dmaDescriptorDone_moves (running : (Tab.get {} s.host.dma n).running = true)
    (moves : (Tab.get {} s.host.dma n).cur.up = false ∨ ok = true ∧ s.channelFits n (Tab.get {} s.host.dma n).cur.length = true) :
    let c := Tab.get {} s.host.dma n
    let u := s.movedOut n c.cur data
    exec (.dmaDescriptorDone n data nx ok) s = .next (if c.cur.last then u.dmaRecord n .ok (c.moved + c.cur.length) 0
      else u.dmaTake n c.cur.next (c.moved + c.cur.length) nx) := by
  intro c u
  have run : exec (.dmaDescriptorDone n data nx ok) s = execDmaDescriptorDone n data nx ok s := rfl
  have goes : ¬(!c.running || (c.cur.up && !s.channelFits n c.cur.length)) = true := by
    obtain down | ⟨-, fits⟩ := moves
    · simp [c, running, down]
    · simp [c, running, fits]
  have returned : ¬(c.cur.up && !ok) = true := by
    obtain down | ⟨returned, -⟩ := moves
    · simp [c, down]
    · simp [returned]
  rw [run, execDmaDescriptorDone, if_neg goes, if_neg returned]
  exact (apply_ite Host.Outcome.next _ _ _).symm

theorem State.movedOut_keeps (s : State) (n : Nat) (d : DmaDesc) (data : List Byte) : let v := s.dmaMove n d d.length data
    (s.movedOut n d data).regs = v.regs ∧ KeepsMemories v (s.movedOut n d data) := by
  unfold State.movedOut
  dsimp only
  split <;> exact ⟨rfl, rfl, rfl, rfl⟩

/-- What the end of a descriptor leaves. -/
theorem exec_dmaDescriptorDone_spec (s : State) (n : Fin 32) (data : List Byte) (nx : DmaDesc) (ok : Bool) :
    let c := Tab.get {} s.host.dma n
    c.running = true → (c.cur.up = false ∨ ok = true ∧ s.channelFits n c.cur.length = true) →
      ∃ t, exec (.dmaDescriptorDone n data nx ok) s = .next t ∧ KeepsMemories (s.dmaMove n c.cur c.cur.length data) t ∧
        (c.cur.last = true → Recorded n .ok (c.moved + c.cur.length) 0 t) ∧
        (c.cur.last = false → s.hostDmaCheck c.cur.next nx = none →
          Tab.get {} t.host.dma n = { running := true, cur := nx, moved := c.moved + c.cur.length }) := by
  intro c running moves
  obtain ⟨regs, units, dram, hostMem⟩ := s.movedOut_keeps n c.cur data
  have same : (s.movedOut n c.cur data).regs = s.regs := regs.trans (s.dmaMove_keeps n c.cur c.cur.length data).1
  refine ⟨_, exec_dmaDescriptorDone_moves running moves, ?_⟩
  by_cases last : c.cur.last = true
  · rw [if_pos last]
    exact ⟨⟨units, dram, hostMem⟩, fun _ => State.dmaRecord_shows .., fun more => absurd (last.symm.trans more) (by decide)⟩
  · rw [if_neg last]
    obtain ⟨units', dram', hostMem'⟩ := (s.movedOut n c.cur data).dmaTake_keeps n c.cur.next (c.moved + c.cur.length) nx
    refine ⟨⟨units'.trans units, dram'.trans dram, hostMem'.trans hostMem⟩, fun ends => absurd ends last, fun _ passes => ?_⟩
    rw [State.dmaTake_takes n _ ((State.hostDmaCheck_of_regs same ..).trans passes)]
    exact (State.runChannel_shows ..).1

end

/-! ### Abort (R478) -/

section
variable {k : Nat} {data : List Byte}

theorem exec_dmaChAbort_idle (up : s.hostUp = true) (host : 12 ≤ n.val) (idle : (Tab.get {} s.host.dma n).running = false) :
    exec (.dmaChAbort n k data) s = .next s := by
  have notFirst : ¬n.val < 4 := by omega
  refine (if_pos up).trans ((if_neg notFirst).trans ((if_neg (Nat.not_lt.2 host)).trans (if_pos ?_)))
  rw [idle]
  rfl

theorem exec_dmaChAbort_running (up : s.hostUp = true) (host : 12 ≤ n.val) (running : (Tab.get {} s.host.dma n).running = true)
    (words : k % 4 = 0) (inside : k ≤ (Tab.get {} s.host.dma n).cur.length) :
    let c := Tab.get {} s.host.dma n
    let m := if c.cur.up = true then min k (Tab.get 0 s.host.ahead n + s.restRoom) else k
    exec (.dmaChAbort n k data) s = .next ((s.dmaMove n c.cur m data).dmaRecord n .aborted (c.moved + m) (c.cur.length - m)) := by
  intro c m
  have run : exec (.dmaChAbort n k data) s = execDmaChAbort n k data s := rfl
  have notFirst : ¬n.val < 4 := by omega
  have all : min (k / 4 * 4) c.cur.length = k := by
    rw [Nat.div_mul_cancel (Nat.dvd_of_mod_eq_zero words), Nat.min_eq_left inside]
  have runs : ¬(!c.running) = true := by simp [c, running]
  rw [run, execDmaChAbort, State.ifHost, if_pos up, if_neg notFirst, if_neg (Nat.not_lt.2 host), if_neg runs]
  simp only [all, c, m]

end

end Sys2Proof.Machine
end

