-- ==== Sys2Proof/Proofs/HostDmaBuffersAndFrames.lean ====
section
/-! PROOF. Buffers of images, the time-out of their transfers, and the host DMA channels taken together (R444, R445, R474–R481). -/

namespace Sys2Proof.Machine

variable {s : State}

/-! ### A buffer at HEAD (R481) -/

section
variable {b : Fin 4} {e : BulkEntry} {x : BulkData}

/-- Bytes 24–31 of the entry at HEAD are written, and HEAD is one further. -/
def State.writtenBack (s : State) (b : Nat) (x : BulkResult) : State :=
  (s.hostWrite (s.headAddr (12 + b) + 24) (natToBytes 4 x.len ++ natToBytes 1 x.st.code ++ [0, 0, 0x80])).advanceHead (12 + b)

theorem ringHead_bulk (b : Fin 4) : (ringHead (12 + b)).apartFromEvents ∧ (ringHead (12 + b)).w = 15 := by decide +revert

/-- What the end of a buffer leaves. -/
theorem State.bulkDone_shows (s : State) (b : Fin 4) (e : BulkEntry) (x : BulkResult) : let t := s.bulkDone b e x
    t.units = s.units ∧ t.host.done = s.host.done ∧ t.host.transfers = s.host.transfers ∧
      (e.notify = false → t.hostMem = Memory.writeBytes s.hostMem (s.headAddr (12 + b) + 24)
        (natToBytes 4 x.len ++ natToBytes 1 x.st.code ++ [0, 0, 0x80])) ∧
      t.get (ringHead (12 + b)) = ringNext (s.get (ringLog2 (12 + b))) (s.get (ringHead (12 + b))) % 2 ^ 15 := by
  obtain ⟨apart, width⟩ := ringHead_bulk b
  have head : (s.writtenBack b x).get (ringHead (12 + b)) =
      ringNext (s.get (ringLog2 (12 + b))) (s.get (ringHead (12 + b))) % 2 ^ 15 := by
    rw [← width]
    exact State.get_put_same (s.hostWrite _ _) _ _
  intro t
  cases notify : e.notify with
  | false =>
    have quiet : t = s.writtenBack b x := if_neg (by rw [notify]; decide)
    rw [quiet]
    exact ⟨rfl, rfl, rfl, fun _ => rfl, head⟩
  | true =>
    have small : s.get (Reg.HOST_BRING_CFG_EVT b) % 4 < 4 := Nat.mod_lt _ (by decide)
    have posts : ∃ ev, t = (s.writtenBack b x).postTo (s.get (Reg.HOST_BRING_CFG_EVT b) % 4) ev none := ⟨_, if_pos notify⟩
    obtain ⟨ev, posts⟩ := posts
    have events := SameButEvents.postTo (s.writtenBack b x) small ev none
    rw [posts]
    refine ⟨(SameButHost.postTo (s.writtenBack b x) _ ev none small).units, events.done, ?_, nofun, (events.get _ apart).trans head⟩
    rw [events.host]
    rfl

theorem exec_bulkBufferConsumed_waits (waits : s.ringReady (12 + b) = false ∨ s.restRoom < 8) :
    exec (.bulkBufferConsumed b e x) s = .next s := by
  refine if_pos ?_
  obtain empty | full := waits
  · rw [empty]; rfl
  · rw [decide_eq_true full]; exact Bool.or_true _

/-! ### Buffers of images (R444, R445) -/

/-- So many bytes of a transfer have arrived. -/
def State.gotBytes (s : State) (y : Transfer) (k : Nat) : State :=
  s.modHost fun h => { h with transfers := h.transfers.map fun z => if z = y then { z with got := z.got + k } else z }

theorem State.takeImageBuffer_more {b : Nat} {y : Transfer}
    (found : s.host.transfers.find? (fun y => y.ring == b && y.hdr.tag == e.tag) = some y)
    (window : s.windowOk e.addr e.len false = true) (more : e.last = false) :
    s.takeImageBuffer b e x = (s.gotBytes y e.len).bulkDone b e ⟨e.len, .ok⟩ := by
  unfold State.takeImageBuffer
  rw [found]
  simp [window, more, State.gotBytes]

theorem exec_bulkBufferConsumed_image (ready : s.ringReady (12 + b) = true) (room : 8 ≤ s.restRoom)
    (mem : s.ringMemOk (12 + b) (s.headAddr (12 + b)) 32 = true) (some : 0 < e.len) (most : e.len ≤ 65536)
    (down : s.bit (Reg.HOST_BRING_CFG_DIR b) = false) (image : s.get (Reg.HOST_BRING_CFG_USE b) = 1) :
    exec (.bulkBufferConsumed b e x) s = .next (s.takeImageBuffer b e x) := by
  have goes : ¬(!s.ringReady (12 + b) || decide (s.restRoom < 8)) = true := by simp [ready, room]
  have inside : ¬(!s.ringMemOk (12 + b) (s.headAddr (12 + b)) 32) = true := by simp [mem]
  have length : ¬(e.len = 0 ∨ 65536 < e.len) := by omega
  have downstream : (!s.bit (Reg.HOST_BRING_CFG_DIR b)) = true := by rw [down]; rfl
  exact (if_neg goes).trans ((if_neg inside).trans ((if_neg length).trans ((if_pos downstream).trans (if_pos (.inl image)))))

end

/-! ### The time-out of an image transfer (R445) -/

/-- The completion of a transfer that ends early. -/
def endedAs (st : Status) (y : Transfer) : Done := ⟨y.hdr, y.opcode, st, 0, 0, 0, false⟩

theorem State.each_finish (s : State) (l : List Transfer) (st : Status) :
    (s.each l fun y u => u.finish y.hdr y.opcode st 0 0 0) = s.modHost fun h => { h with done := h.done ++ l.map (endedAs st) } := by
  induction l generalizing s with
  | nil => simp [State.each, State.modHost]
  | cons y l ih =>
    have first : (s.each (y :: l) fun y u => u.finish y.hdr y.opcode st 0 0 0) =
        (s.finish y.hdr y.opcode st 0 0 0).each l fun y u => u.finish y.hdr y.opcode st 0 0 0 := rfl
    rw [first, ih]
    simp [State.finish, State.modHost, endedAs]

/-- Where no trust job waits, none goes with its transfer. -/
theorem State.dropJobs_idle (s : State) (l : List Transfer) (idle : s.trust.queue = []) :
    (s.dropJobs l).host = s.host ∧ (s.dropJobs l).units = s.units := by
  simp [State.dropJobs, State.drainTrust, State.modTrust, idle, State.runTrust]

theorem State.endTransfers_shows (s : State) (p : Transfer → Bool) (st : Status) (idle : s.trust.queue = []) :
    (s.endTransfers p st).units = s.units ∧ (s.endTransfers p st).host.transfers = s.host.transfers.filter (fun y => !p y) ∧
      ∀ y ∈ s.host.transfers, p y = true → endedAs st y ∈ (s.endTransfers p st).host.done := by
  obtain ⟨host, units⟩ : (s.endTransfers p st).host = { s.host with
      transfers := s.host.transfers.filter fun y => !p y
      done := s.host.done ++ (s.host.transfers.filter p).map (endedAs st) } ∧ (s.endTransfers p st).units = s.units := by
    unfold State.endTransfers
    dsimp only
    rw [State.each_finish]
    exact State.dropJobs_idle _ _ idle
  rw [host]
  exact ⟨units, rfl, fun y mem named => List.mem_append_right _ (List.mem_map_of_mem (List.mem_filter.2 ⟨mem, named⟩))⟩

theorem exec_imageTransferTimeout (v : BitVec 32) :
    exec (.imageTransferTimeout v) s = .next (s.endTransfers (fun y => y.hdr.tag == v.toNat) .aborted) := rfl

/-- Settles O35: each command through its equation above; a record by `State.dmaRecord_shows`, the bytes of a descriptor by
`State.dmaMove_down` and `State.dmaMove_up`, a buffer by `State.bulkDone_shows`. -/
theorem hostDmaBuffersAndFrames : Obligations.HostDmaBuffersAndFrames := by
  unfold Obligations.HostDmaBuffersAndFrames
  refine ⟨fun n d s up host idle => ?_, fun n data nx ok s => ⟨fun idle => exec_dmaDescriptorDone_waits (.inl idle),
      fun _ upstream full => exec_dmaDescriptorDone_waits (.inr ⟨upstream, full⟩), fun running moves => ?_⟩,
    fun n k data s up host => ⟨fun running words inside => ?_, exec_dmaChAbort_idle up host⟩,
    fun b e x s => ⟨exec_bulkBufferConsumed_waits, fun ready room mem some most down image more window y found => ?_⟩,
    fun v s idle => ?_⟩
  · obtain ⟨units, dram, -⟩ := s.dmaTake_keeps n (s.get (Reg.DMA_CH_DESC_ADDR n)) 0 d
    refine ⟨_, exec_dmaChStart up host idle d, units, dram, fun passes => ?_, fun st fails => ?_⟩
    · rw [State.dmaTake_takes n 0 passes]
      exact State.runChannel_shows ..
    · rw [State.dmaTake_refuses n 0 fails]
      have recorded := (s.put (Reg.DMA_CH_CUR_ADDR n) (s.get (Reg.DMA_CH_DESC_ADDR n))).dmaRecord_shows n st 0 d.length
      exact ⟨recorded.idle, recorded.code, recorded.isNew⟩
  · obtain ⟨t, run, ⟨units, dram, hostMem⟩, ends, goesOn⟩ := exec_dmaDescriptorDone_spec s n data nx ok running moves
    refine ⟨t, run, units.trans (s.dmaMove_keeps ..).2, fun last => ?_, goesOn, fun down length order => ?_, fun upstream order => ?_⟩
    · obtain ⟨idle, code, -, moved, residue⟩ := ends last
      exact ⟨idle, code, moved, residue⟩
    · rw [dram, hostMem]
      exact s.dmaMove_down n down order length
    · rw [dram, hostMem]
      exact s.dmaMove_up n data upstream order
  · obtain ⟨idle, code, -, moved, residue⟩ := State.dmaRecord_shows (s.dmaMove n _ _ data) n .aborted _ _
    exact ⟨_, exec_dmaChAbort_running up host running words inside, idle, code, moved, residue, (s.dmaMove_keeps ..).2⟩
  · obtain ⟨units, done, transfers, written, head⟩ := (s.gotBytes y e.len).bulkDone_shows b e ⟨e.len, .ok⟩
    exact ⟨_, (exec_bulkBufferConsumed_image ready room mem some most down image).trans
      (congrArg _ (State.takeImageBuffer_more found window more)), units, done, written, head, transfers⟩
  · obtain ⟨units, transfers, ended⟩ := s.endTransfers_shows (fun y => y.hdr.tag == v.toNat) .aborted idle
    exact ⟨_, exec_imageTransferTimeout v, units, transfers, fun y mem tag => ended y mem (beq_iff_eq.2 tag)⟩

end Sys2Proof.Machine
end

