-- ==== Sys2Proof/Proofs/NetworkCommands.lean ====
section
/-! PROOF. The NET commands up to the boundary at which they take effect: what waits for it, what is refused at once, the two steps of a
distribution, and a parameter change that no device answers (R493–R495, R507, R510, R518, R540, R549–R551, R557–R560). -/

namespace Sys2Proof

/-- The fields of a rule record are in their ranges (R507, R508). -/
def RuleRec.inRange (r : RuleRec) : Bool :=
  r.reservedOk && decide (32 ≤ r.index) && decide (r.index ≤ 511) && decide (r.ports < 8) && [2, 3, 4, 7].contains r.cls &&
    decide (r.mtch < 2 ^ 11) && decide (r.vid < 4096) && decide (r.pcp < 8) && decide (r.dscp < 64) && decide (r.srcLen ≤ 128) &&
    decide (r.dstLen ≤ 128) && decide (r.cueEntry < 64) && decide (1 ≤ r.burst) && decide (r.burst ≤ 256)

end Sys2Proof

namespace Sys2Proof.Machine

variable {s : State} {h : CmdHdr}

/-! ### Stream records (R493–R495) -/

section
variable {op addr : Nat} {rx : Bool} {r : StreamRec}

theorem State.streamCmd_outside (outside : s.windowOk addr 128 false = false) :
    s.streamCmd h op rx addr r = s.finish h op .windowFault 16 0 0 := by
  simp [State.streamCmd, outside, State.refuse]

theorem State.streamCmd_waits (window : s.windowOk addr 128 false = true) (passes : s.recordCheck rx r = none) :
    s.streamCmd h op rx addr r = s.netLater h (.stream rx r) := by
  simp [State.streamCmd, window, passes]

theorem State.streamCmd_refused (window : s.windowOk addr 128 false = true) {st : Status} (fails : s.recordCheck rx r = some st) :
    s.streamCmd h op rx addr r = s.finish h op st 16 0 0 := by
  simp [State.streamCmd, window, fails, State.refuse]

theorem exec_netStreamTx : exec (.netStreamTx h addr r) s = .next (s.streamCmd h 0x0800 false addr r) := rfl
theorem exec_netStreamRx : exec (.netStreamRx h addr r) s = .next (s.streamCmd h 0x0801 true addr r) := rfl

end

/-! ### Deletion (R495, R559) -/

/-- Where the patch holds no address of any hit, it holds none of the hit that is found. -/
theorem not_any_of_find? {α : Type} {l : List α} {hit : α → Bool} {addrs : α → List Nat} {held : Nat → Bool}
    (free : ∀ e ∈ l, hit e = true → ∀ x ∈ addrs e, held x = false) {e : α} (found : l.find? hit = some e) :
    (addrs e).any held = false :=
  List.any_eq_false.2 fun x mem => Bool.not_eq_true _ ▸ free e (List.mem_of_find?_eq_some found) (List.find?_some found) x mem

theorem exec_netStreamDel_waits {d n : Nat} (dir : d ≤ 1) (stream : n ≤ 511)
    (free : ∀ e ∈ s.streamsPlanned (d == 1), e.1 = n → ∀ x ∈ e.2.addrs,
      (if d = 1 then s.patchedSource x else s.patchedDest x) = false) :
    exec (.netStreamDel h d n) s = .next (s.netLater h (.del (d == 1) n)) := by
  have legal : ¬(1 < d ∨ 511 < n) := by omega
  show execNetStreamDel h d n s = _
  rw [execNetStreamDel, if_neg legal]
  split
  next e found =>
    have unpatched := not_any_of_find? (fun e mem same => free e mem (of_decide_eq_true same)) found
    simp [unpatched]
  next => rfl

theorem exec_netWlFlowDel_waits {d p src f : Nat} (dir : d ≤ 1) (port : p ≤ 3) (flow : f ≤ 255)
    (free : ∀ r ∈ s.flowsPlanned (d == 1) p,
      (if d = 1 then r.peer * 256 + r.flow else r.flow) = (if d = 1 then src * 256 + f else f) →
      ∀ x ∈ flowAddrs r, (if d = 1 then s.patchedSource x else s.patchedDest x) = false) :
    exec (.netWlFlowDel h d p src f) s = .next (s.netLater h (.wlFlowDel (d == 1) p (if d = 1 then src * 256 + f else f))) := by
  have legal : ¬(1 < d ∨ 3 < p ∨ 255 < f) := by omega
  show execNetWlFlowDel h d p src f s = _
  simp only [execNetWlFlowDel, if_neg legal]
  split
  next r found =>
    have unpatched := not_any_of_find? (fun r mem same => free r mem (eq_of_beq same)) found
    simp [unpatched]
  next => rfl

/-! ### Statistics, cue entries and host groups (R510, R518, R522) -/

section
variable {d n m addr : Nat} (dir : d ≤ 1)
include dir

theorem exec_netStreamStat_waits (inside : n + m ≤ 512) (window : s.windowOk addr (64 * m) true = true) :
    exec (.netStreamStat h d n m addr) s = .next (s.netLater h (.stat (d == 1) n m addr)) := by
  have legal : ¬(1 < d ∨ 512 < n + m) := by omega
  show execNetStreamStat h d n m addr s = _
  simp [execNetStreamStat, legal, window]

theorem exec_netStreamStat_refused (past : 512 < n + m) :
    exec (.netStreamStat h d n m addr) s = .next (s.finish h 0x0803 .refused 18 0 0) := by
  show execNetStreamStat h d n m addr s = _
  simp [execNetStreamStat, past, Nat.not_lt.2 dir, State.refuse]

end

theorem exec_netCue_waits {r : CueRec} (reserved : r.reservedOk = true) (entry : r.entry < 64) (key : r.key < 16 ∨ r.key = 255)
    (template : r.template < 64) : exec (.netCue h r) s = .next (s.netLater h (.cue r)) := by
  show execNetCue h r s = _
  simp [execNetCue, reserved, entry, key, template]

theorem exec_netCue_refused {r : CueRec} (past : 64 ≤ r.entry) : exec (.netCue h r) s = .next (s.finish h 0x0805 .refused 16 0 0) := by
  show execNetCue h r s = _
  simp [execNetCue, Nat.not_lt.2 past, State.refuse]

theorem exec_netJoin_waits {p o addr g x : Nat} (port : p ≤ 2) (window : s.windowOk addr 32 false = true)
    (room : o = 1 ∨ (o = 0 ∧ s.net.pendingOps = [] ∧ (Tab.get [] s.net.groups p).length < 64)) :
    exec (.netJoin h p o addr g x) s = .next (s.netLater h (.join p (o == 1) g x)) := by
  show execNetJoin h p o addr g x s = _
  rcases room with leave | ⟨join, idle, room⟩
  · simp [execNetJoin, Nat.not_lt.2 port, window, leave]
  · simp [execNetJoin, Nat.not_lt.2 port, window, join, idle, Nat.not_le.2 room]

/-! ### Classifier rules (R507, R508) -/

theorem exec_netClsRule_waits {addr : Nat} {r : RuleRec} (window : s.windowOk addr 64 false = true) (range : r.inRange = true) :
    exec (.netClsRule h addr r) s = .next (s.netLater h (.rule r)) := by
  have run : exec (.netClsRule h addr r) s =
      if !s.windowOk addr 64 false then .next ((s.set Reg.CLS_STATUS_CFG_REJ).refuse h 0x0804 .windowFault 16 0)
      else if !r.inRange then .next ((s.set Reg.CLS_STATUS_CFG_REJ).refuse h 0x0804 .refused 16 0)
      else .next (s.netLater h (.rule r)) := rfl
  simp [run, window, range]

/-! ### Flow records, routes and transit (R540, R549–R551) -/

section
variable {op addr : Nat} {rx : Bool} {r : FlowRec} (window : s.windowOk addr 32 false = true)
include window

theorem State.flowCmd_waits (passes : s.flowCheck rx r = none) : s.flowCmd h op rx addr r = s.netLater h (.wlFlow rx r) := by
  simp [State.flowCmd, window, passes]

theorem State.flowCmd_refused {st : Status} (fails : s.flowCheck rx r = some st) (port : r.port < 4) :
    s.flowCmd h op rx addr r = (s.put (Reg.WLP_STATUS_CFG_REJ r.port) 1).finish h op st 16 0 0 := by
  simp [State.flowCmd, window, fails, port, State.refuse, State.set]

end

theorem exec_netWlFlowTx {addr : Nat} {r : FlowRec} : exec (.netWlFlowTx h addr r) s = .next (s.flowCmd h 0x0881 false addr r) := rfl
theorem exec_netWlFlowRx {addr : Nat} {r : FlowRec} : exec (.netWlFlowRx h addr r) s = .next (s.flowCmd h 0x0882 true addr r) := rfl

theorem exec_netWlRoute_waits {addr : Nat} {l : List (Nat × Nat)} (some_ : l ≠ []) (most : l.length ≤ 4096)
    (window : s.windowOk addr (4 * l.length) false = true)
    (legal : ∀ e ∈ l, e.1 < 2 ^ 16 ∧ e.2 ≤ 7 ∧ e.2 ≠ 6 ∧ (e.1 = s.devnum → e.2 = 5)) :
    exec (.netWlRoute h addr l) s = .next (s.netLater h (.wlRoute l)) := by
  have nonempty := List.length_pos_iff.2 some_
  have count : ¬(l.length = 0 ∨ 4096 < l.length) := by omega
  have noneBad : (l.findIdx? fun e => decide (2 ^ 16 ≤ e.1) || decide (7 < e.2) || e.2 == 6 || (e.1 == s.devnum && e.2 != 5)) = none := by
    refine List.findIdx?_eq_none_iff.2 fun e mem => ?_
    obtain ⟨device, port, reserved, own⟩ := legal e mem
    simpa [Nat.not_lt.2 port, reserved] using And.intro device own
  show execNetWlRoute h addr l s = _
  simp only [execNetWlRoute, if_neg count, window, noneBad]
  rfl

theorem exec_netWlTransit_waits {p n : Nat} (port : p ≤ 3)
    (room : ((s.flowsPlanned false p).map s.flowCells).sum + n ≤ s.audioCeiling) :
    exec (.netWlTransit h p n) s = .next (s.netLater h (.wlTransit p n)) := by
  show execNetWlTransit h p n s = _
  simp [execNetWlTransit, Nat.not_lt.2 port, Nat.not_lt.2 room]

/-! ### Parameters and images for other devices (R557, R560) -/

/-- That FLAGS bit 1 is equal power, as in PARAM_SET, is the model's reading of R560 (log 54). -/
theorem exec_netWlParam_waits {dev ramp addr : Nat} {l : List ParamItem} (some_ : l ≠ []) (most : l.length ≤ 24)
    (window : s.windowOk addr (8 * l.length) false = true) (route : s.route dev ≠ 7) :
    exec (.netWlParam h dev ramp addr l) s = .next (s.netLater h (.wlParam dev
      { origin := s.devnum, tag := h.tag, si := h.target, rate := (s.dom 0).rate, ramp := ramp, eqPower := h.flags.testBit 1,
        items := l })) := by
  show execNetWlParam h dev ramp addr l s = _
  simp [execNetWlParam, some_, Nat.not_lt.2 most, window, route]

theorem exec_netWlDistribute_first {dg addr : Nat} {l : List Nat} (first : h.flags.testBit 0 = false)
    (idle : Tab.get none s.wl.dist h.src.code = none) :
    exec (.netWlDistribute h dg addr l) s =
      .next { s with wl := { s.wl with dist := Tab.put none s.wl.dist h.src.code (some (h, dg)) } } := by
  show execNetWlDistribute h dg addr l s = _
  simp [execNetWlDistribute, first, State.dropDist, idle]

theorem exec_netWlDistribute_list {g : CmdHdr} {dg digest addr : Nat} {l : List Nat} (second : h.flags.testBit 0 = true)
    (begun : Tab.get none s.wl.dist h.src.code = some (g, dg)) (some_ : l ≠ []) (most : l.length ≤ 64)
    (window : s.windowOk addr (2 * l.length) false = true) (held : ∃ i ∈ s.sched.programs, i.digest = dg) :
    exec (.netWlDistribute h digest addr l) s = .next ((State.ok { s with wl := { s.wl with
      dist := Tab.put none s.wl.dist h.src.code none } } h 0x0886).netLater g (.wlDist dg l)) := by
  have known : (s.sched.programs.any fun i => i.digest == dg) = true := by simpa using held
  show execNetWlDistribute h digest addr l s = _
  simp [execNetWlDistribute, second, begun, some_, Nat.not_lt.2 most, window, known]

section
variable (s h)

theorem exec_netWlParamTimeout_waiting {w : WlWait} (waiting : s.wl.waits.find? (fun w => w.opcode == 0x0885 && w.hdr == h) = some w) :
    exec (.netWlParamTimeout h) s = .next (State.finish { s with wl := { s.wl with waits := s.wl.waits.filter (· ≠ w) } } h 0x0885
      .aborted 0 0 0) := by
  show execNetWlParamTimeout h s = _
  rw [execNetWlParamTimeout, waiting]

theorem exec_netWlParamTimeout_answered (answered : s.wl.waits.find? (fun w => w.opcode == 0x0885 && w.hdr == h) = none) :
    exec (.netWlParamTimeout h) s = .next s := by
  show execNetWlParamTimeout h s = _
  rw [execNetWlParamTimeout, answered]

end

end Sys2Proof.Machine

namespace Sys2Proof.Machine

/-- Settles O41: each command through its equation above. -/
theorem networkCommandsWait : Obligations.NetworkCommandsWait := by
  unfold Obligations.NetworkCommandsWait
  refine ⟨fun h a r s window => ?_, fun h a r s outside => ?_, fun h d n m a s dir => ⟨exec_netStreamDel_waits dir,
      exec_netStreamStat_waits dir, exec_netStreamStat_refused dir⟩, fun h a r s window => ?_,
    fun h r s => ⟨exec_netCue_waits, exec_netCue_refused⟩, fun h p o a g x s => exec_netJoin_waits, fun h a r s window => ?_,
    fun h a d p src f n l s => ⟨exec_netWlRoute_waits, exec_netWlFlowDel_waits, exec_netWlTransit_waits⟩,
    fun h dev ramp a l s => exec_netWlParam_waits, fun h g dg a l s => ⟨exec_netWlDistribute_first, ?_⟩,
    fun h s w => exec_netWlParamTimeout_waiting s h, fun h s => exec_netWlParamTimeout_answered s h⟩
  · simp only [List.forall_mem_cons]
    exact ⟨⟨fun passes => exec_netStreamTx.trans (congrArg _ (State.streamCmd_waits window passes)),
        fun st fails => exec_netStreamTx.trans (congrArg _ (State.streamCmd_refused window fails))⟩,
      ⟨fun passes => exec_netStreamRx.trans (congrArg _ (State.streamCmd_waits window passes)),
        fun st fails => exec_netStreamRx.trans (congrArg _ (State.streamCmd_refused window fails))⟩, by simp⟩
  · exact ⟨exec_netStreamTx.trans (congrArg _ (State.streamCmd_outside outside)),
      exec_netStreamRx.trans (congrArg _ (State.streamCmd_outside outside))⟩
  · intro reserved low high ports cls mtch vid pcp dscp src dst entry least most
    refine exec_netClsRule_waits window ?_
    simpa [RuleRec.inRange, reserved, low, high, ports, vid, pcp, dscp, src, dst, entry, least, most] using And.intro cls mtch
  · simp only [List.forall_mem_cons]
    exact ⟨⟨fun passes => exec_netWlFlowTx.trans (congrArg _ (State.flowCmd_waits window passes)),
        fun st fails port => exec_netWlFlowTx.trans (congrArg _ (State.flowCmd_refused window fails port))⟩,
      ⟨fun passes => exec_netWlFlowRx.trans (congrArg _ (State.flowCmd_waits window passes)),
        fun st fails port => exec_netWlFlowRx.trans (congrArg _ (State.flowCmd_refused window fails port))⟩, by simp⟩
  · intro second begun some_ most window held
    exact ⟨_, exec_netWlDistribute_list second begun some_ most window held, rfl, rfl,
      Tab.get_put_same none s.wl.dist h.src.code none, rfl⟩

end Sys2Proof.Machine
end

