-- ==== Sys2Proof/Proofs/ReceivedFrames.lean ====
section
/-! SUPPORT. What a received frame leaves as it was, whatever class takes it: the units, and the count of the frames that a port has
received (R497–R516). One lemma per part of the classification. -/

namespace Sys2Proof.Machine

/-- The units, and the count of the frames that a port has received, stand. -/
structure SameArrivals (x : Fin 3) (s t : State) : Prop where
  units : t.units = s.units
  frames : t.get (Reg.NET_RX_FRAMES_COUNT x) = s.get (Reg.NET_RX_FRAMES_COUNT x)

variable {x : Fin 3} {s t u : State}

namespace SameArrivals

theorem of_eq (units : t.units = s.units) (regs : t.regs = s.regs) : SameArrivals x s t := ⟨units, State.get_of_regs regs _⟩

theorem refl : SameArrivals x s s := .of_eq rfl rfl

theorem trans (a : SameArrivals x s t) (b : SameArrivals x t u) : SameArrivals x s u :=
  ⟨b.units.trans a.units, b.frames.trans a.frames⟩

theorem withNet (s : State) (n : NetSt) : SameArrivals x s { s with net := n } := .of_eq rfl rfl

theorem ite {c : Prop} [Decidable c] (a : SameArrivals x s t) (b : SameArrivals x s u) : SameArrivals x s (if c then t else u) := by
  split
  · exact a
  · exact b

theorem each {α : Type} {l : List α} {f : α → State → State} (h : ∀ a t, SameArrivals x t (f a t)) :
    SameArrivals x s (s.each l f) :=
  State.each_keeps (SameArrivals x s) f (fun a t kept => kept.trans (h a t)) s l .refl

theorem host (h : SameButHost s t) : SameArrivals x s t :=
  ⟨h.units, h.get _ (by simp [Reg.NET_RX_FRAMES_COUNT]) (.inr (by simp only [Reg.NET_RX_FRAMES_COUNT]; omega))⟩

theorem onlySends (h : OnlySends s t) : SameArrivals x s t := by
  obtain ⟨_, _, rfl⟩ := h
  exact .of_eq rfl rfl

variable (s)

/-- The windows of NETA, NETB and NETM end at 0xF000 (R520). -/
theorem put {g : Fld} (v : Nat) (lo : g.lo < 32 := by decide) (beside : g.off < 0xc000 ∨ 0xf000 ≤ g.off := by decide) :
    SameArrivals x s (s.put g v) := by
  refine ⟨rfl, State.get_put_ne s (key_ne ?_ (by simp [Reg.NET_RX_FRAMES_COUNT]) lo) v⟩
  simp only [Reg.NET_RX_FRAMES_COUNT]
  omega

theorem raise {g : Fld} (v : Nat) (lo : g.lo < 32 := by decide) (beside : g.off < 0xc000 ∨ 0xf000 ≤ g.off := by decide) :
    SameArrivals x s (s.raise g v) := .ite (.put s v lo beside) .refl

/-! ### Pours and parameters -/

theorem countLive : SameArrivals x s s.countLive := (SameArrivals.put s _).trans (.raise _ _)

theorem acceptPour (p : Pour) : SameArrivals x s (s.acceptPour p) := by
  have counted : SameArrivals x s (s.joined p).countLive :=
    .trans (t := s.joined p) (.of_eq rfl rfl) (.countLive _)
  have mirrored (t : State) (m : MirrorCmd) : SameArrivals x t (t.mirrorOut m) := .onlySends (.mirrorOut t m)
  unfold State.acceptPour
  refine .ite counted (.ite ?_ (counted.trans (mirrored _ _)))
  refine .trans (.trans (.trans counted (.ite .refl (.put _ _))) (.onlySends (.sendPourToEach _ _ _))) (mirrored _ _)

end SameArrivals

/-- What passes a check that refuses. -/
theorem ok_of_ite {α β : Type} {c : Prop} [Decidable c] {e : α} {y : Except α β} {z : β} (ok : (if c then .error e else y) = .ok z) :
    y = .ok z := by
  split at ok
  · cases ok
  · exact ok

/-- A pour that is not refused is accepted. -/
theorem State.originate_accepts {r : PourReq} {tag target : Nat} {hdr : Option CmdHdr} {dry : Bool}
    (ok : s.originate r tag target hdr dry = .ok t) : ∃ p, t = s.acceptPour p := by
  unfold State.originate at ok
  dsimp only at ok
  split at ok
  · cases ok
  · have accepted := ok_of_ite (ok_of_ite (ok_of_ite (ok_of_ite (ok_of_ite (ok_of_ite ok)))))
    exact ⟨_, (Except.ok.inj accepted).symm⟩

theorem OnlySends.sendCtrl (s : State) (dev : Nat) (m : WlPayload) : OnlySends s (s.sendCtrl dev m) := by
  unfold State.sendCtrl
  split_ifs
  · exact ⟨_, _, rfl⟩
  · exact ⟨_, _, rfl⟩
  · exact .refl s

namespace SameArrivals

variable (s)

theorem firePour (n tag target : Nat) : SameArrivals x s (s.firePour n tag target) := by
  have refused (st : Status) (detail : Nat) : SameArrivals x s (if s.standby then s
      else (s.countRefused true).postTo (s.ringOf .other)
        { code := 2, status := st, tag := tag, si := (s.dom 0).si, body := [tag, s.devnum, st.code, 0, 0, detail] } none) :=
    .ite .refl ((SameArrivals.put s _).trans (.host (.postTo _ _ _ _ (s.ringOf_lt _))))
  unfold State.firePour
  dsimp only
  split
  · exact refused _ _
  · split
    next accepted =>
      obtain ⟨p, rfl⟩ := State.originate_accepts accepted
      exact .acceptPour s p
    next => exact refused _ _

theorem addFades (fs : List Crossfade) : SameArrivals x s (s.addFades fs) :=
  .trans (t := s.modMix _) (.of_eq rfl rfl) (.each fun _ _ => .of_eq rfl rfl)

theorem commitPlan (p : Plan) : SameArrivals x s (s.commitPlan p) := by
  have entered (t : State) (l : List Change) : SameArrivals x t (t.showSeq l) :=
    .each fun c t => (SameArrivals.put t _ (by simp [Reg.FABRIC_CL_SEQ_OCCUPIED]) (by simp [Reg.FABRIC_CL_SEQ_OCCUPIED]; omega)).trans
      (.raise _ _ (by simp [Reg.FABRIC_CL_SEQ_HWM]) (by simp [Reg.FABRIC_CL_SEQ_HWM]; omega))
  exact .trans (.trans (.trans (.trans (t := s.modMix _) (.of_eq rfl rfl) (.addFades _ _)) (entered _ _)) (.put _ _)) (.put _ _)

theorem paramSet (target ramp : Nat) (eqPower : Bool) (l : ListAt) (items : List ParamItem) (waiters : List Nat) :
    SameArrivals x s (s.paramSet target ramp eqPower l items waiters).1 := by
  unfold State.paramSet
  split
  · exact .refl
  · split
    · exact .put s 1 (by simp [Reg.FABRIC_CL_SEQ_FULL_SEEN]) (by simp [Reg.FABRIC_CL_SEQ_FULL_SEEN]; omega)
    · exact .refl
    · exact (SameArrivals.commitPlan s _).trans (.onlySends (.mirrorOut _ _))

/-! ### Messages between devices (R541, R555–R560) -/

theorem takeParams (m : ParamFwd) : SameArrivals x s (s.takeParams m) := by
  unfold State.takeParams
  refine .ite .refl (.trans ?_ (.onlySends (.sendCtrl _ _ _)))
  split
  · exact .refl
  · exact .paramSet ..

theorem answerWait (op tag dev : Nat) (st : Status) : SameArrivals x s (s.answerWait op tag dev st) := by
  unfold State.answerWait
  split
  · exact .refl
  · exact .ite (.of_eq rfl rfl) (.of_eq rfl rfl)

theorem takeCtrl (src : Nat) (m : WlPayload) : SameArrivals x s (s.takeCtrl src m) := by
  unfold State.takeCtrl
  split
  · exact .takeParams s _
  · exact .ite (.answerWait ..) .refl
  · exact .ite (.answerWait ..) .refl
  · exact .of_eq rfl rfl
  · exact .refl

/-! ### PTP (R408, R409) -/

theorem stepClock (n : Nat) : SameArrivals x s (s.stepClock n) :=
  .trans (t := s.setClock (ptpClockOf n)) (.of_eq rfl rfl) (.each fun _ t => .ite (.put (g := Reg.TIME_STATUS_ALIGNED) t _) .refl)

/-! ### Receive streams (R497–R502) -/

theorem setRx (n : Nat) (y : StreamSt) : SameArrivals x s (s.setRx n y) := .withNet s _

theorem streamHeard (n path : Nat) (y : StreamSt) : SameArrivals x s (s.streamHeard n path y) :=
  .ite ((SameArrivals.setRx s _ _).trans (.host (.postNow ..))) (.setRx s _ _)

theorem placePacket (n : Nat) (r : StreamRec) (si : Nat) (d : RtpData) : SameArrivals x s (s.placePacket n r si d) := by
  have placed : SameArrivals x s (s.each (List.range r.S) fun k t => t.each (List.range r.channels) fun c u =>
      u.putRx (mkAddr 1 (r.first + c)) (si + k) (((d.words.map (wireToSample r)).getD (k * r.channels + c) (0, false)).1)) :=
    .each fun _ _ => .each fun _ _ => .of_eq rfl rfl
  unfold State.placePacket
  dsimp only
  split
  · exact placed.trans (.setRx _ _ _)
  · exact placed

theorem takePacket (n path : Nat) (f : NetFrame) (d : RtpData) : SameArrivals x s (s.takePacket n path f d) := by
  have heard (y : StreamSt) := SameArrivals.streamHeard (x := x) s n path y
  cases stream : Tab.get none s.net.rx n with
  | none => simp only [State.takePacket, stream]; exact .refl
  | some x0 =>
    simp only [State.takePacket, stream]
    refine .ite (.setRx s _ _) (.ite (heard _) (.ite (.setRx s _ _) ?_))
    split
    · exact .setRx s _ _
    · exact .ite (.setRx s _ _) (.ite (.setRx s _ _) (.ite (heard _) ((heard _).trans (.placePacket _ _ _ _ _))))

/-! ### Cues, the host's packet path and the host's rules (R508–R513) -/

theorem takeCue (n : Nat) (f : NetFrame) : SameArrivals x s (s.takeCue n f) := by
  unfold State.takeCue
  split
  · exact (SameArrivals.put s _).trans (.host (.postNow ..))
  · split
    · exact .trans (.withNet s _) (.firePour _ _ _ _)
    · exact .refl

theorem rxFrames_apart (x : Fin 3) : (Reg.NET_RX_FRAMES_COUNT x).key ≠ (Reg.NET_HOST_DROP_COUNT x).key ∧
    (Reg.NET_RX_FRAMES_COUNT x).key ≠ (Reg.NET_MACSEC_DROP_COUNT x).key := by decide +revert

theorem hostDrop (n : Nat) : SameArrivals x s (s.put (Reg.NET_HOST_DROP_COUNT x) n) :=
  ⟨rfl, State.get_put_ne s (rxFrames_apart x).1 n⟩

theorem macsecDrop (n : Nat) : SameArrivals x s (s.put (Reg.NET_MACSEC_DROP_COUNT x) n) :=
  ⟨rfl, State.get_put_ne s (rxFrames_apart x).2 n⟩

theorem toHost (f : NetFrame) (best stamped : Bool) : SameArrivals x s (s.toHost x f best stamped) := by
  unfold State.toHost
  extract_lets p net t
  have counted : SameArrivals x s t := .withNet s _
  have class_ : (Reg.CLS_CLASS_DROP_COUNT (if best then 4 else 3)).lo < 32 ∧
    0xf000 ≤ (Reg.CLS_CLASS_DROP_COUNT (if best then 4 else 3)).off := by cases best <;> decide
  exact .ite (counted.trans (.put t _)) (.ite (counted.trans (.put t _ class_.1 (.inr class_.2)))
    (.ite (counted.trans (.hostDrop t _)) (counted.trans (.withNet t _))))

theorem applyRule (f : NetFrame) (r : RuleRec) : SameArrivals x s (s.applyRule x f r) := by
  unfold State.applyRule
  extract_lets t p net u
  have counted : SameArrivals x s t := .ite (.put s _ (by simp [Reg.CLS_RULE_CNT_COUNT]) (by simp [Reg.CLS_RULE_CNT_COUNT]; omega)) .refl
  have policed : SameArrivals x s u := .ite (counted.trans (.withNet t _)) counted
  refine .ite policed (.ite (policed.trans (.takeCue u _ _)) ?_)
  split
  · exact policed.trans (.put u _)
  · exact policed.trans (.toHost u _ _ _)
  · exact policed.trans (.toHost u _ _ _)
  · exact policed

/-! ### Classification (R506) -/

theorem classify (f : NetFrame) : SameArrivals x s (s.classify x f) := by
  unfold State.classify
  extract_lets ok net t
  have counted : SameArrivals x s t := .withNet s _
  refine .ite (.ite (.put s _) ?ptp) (.ite ?control ?data)
  case ptp =>
    split
    · exact .ite (counted.trans (.stepClock t _)) counted
    · exact counted
  case control =>
    split
    · exact .takeCtrl s _ _
    · exact .refl
  case data =>
    split
    · exact .takePacket s _ _ _ _
    · split
      · exact .setRx s _ _
      · exact .refl
    · split
      · exact .applyRule s _ _
      · exact .ite (.toHost s _ _ _) (.put s _)

end SameArrivals

end Sys2Proof.Machine
end

