-- ==== Sys2Proof/Proofs/NetworkPorts.lean ====
section
/-! PROOF. Packets of streams, modules, links and secure channels of the network ports, and received frames (R485, R496–R504, R514, R515,
R519). -/

namespace Sys2Proof

theorem StreamRec.nodup_ports (r : StreamRec) : r.ports.Nodup := by
  unfold StreamRec.ports
  split_ifs <;> decide

end Sys2Proof

namespace Sys2Proof.Machine

variable {s : State}

/-! ### Streams (R496–R501) -/

section
variable {n : Fin 512} {x : StreamSt}

/-- A transmit stream that has sent a packet whose first sample has SI `si`. -/
def StreamSt.sent (x : StreamSt) (si : Nat) (words : List Nat) : StreamSt :=
  { x with next := si + x.record.S, seq := (x.seq + 1) % 2 ^ 16, packets := x.packets + 1,
           lastStamp := (si + x.record.rtpOffset) % 2 ^ 32, lastWords := words }

/-- The state with a transmit stream in its table. -/
def State.setTx (s : State) (n : Nat) (x : StreamSt) : State := { s with net := { s.net with tx := Tab.put none s.net.tx n (some x) } }

@[simp] theorem State.tx_setTx (s : State) (n : Nat) (x : StreamSt) : Tab.get none (s.setTx n x).net.tx n = some x :=
  Tab.get_put_same none s.net.tx n (some x)

/-- Each port of a list counts a frame that it sends. -/
def State.countSent (s : State) (ports : List Nat) : State := s.each ports fun p t => t.bump (Reg.NET_TX_FRAMES_COUNT p)

theorem State.countSent_keeps (s : State) (ports : List Nat) :
    (s.countSent ports).net = s.net ∧ (s.countSent ports).units = s.units ∧ (s.countSent ports).host = s.host :=
  State.each_keeps (fun t => t.net = s.net ∧ t.units = s.units ∧ t.host = s.host) (fun p t => t.bump (Reg.NET_TX_FRAMES_COUNT p))
    (fun _ _ kept => kept) s ports ⟨rfl, rfl, rfl⟩

theorem State.get_countSent (s : State) {ports : List Nat} (once : ports.Nodup) {p : Nat} (mem : p ∈ ports)
    (room : s.get (Reg.NET_TX_FRAMES_COUNT p) < 2 ^ 31) :
    (s.countSent ports).get (Reg.NET_TX_FRAMES_COUNT p) = s.get (Reg.NET_TX_FRAMES_COUNT p) + 1 := by
  have step (k : Nat) (t : State) (c : Nat) : (t.bump (Reg.NET_TX_FRAMES_COUNT k)).get (Reg.NET_TX_FRAMES_COUNT c) =
      if c = k then (fun v => min (v + 1) (2 ^ 32 - 1) % 2 ^ 32) (t.get (Reg.NET_TX_FRAMES_COUNT k))
      else t.get (Reg.NET_TX_FRAMES_COUNT c) := by
    have same : (Reg.NET_TX_FRAMES_COUNT c).key = (Reg.NET_TX_FRAMES_COUNT k).key ↔ c = k := by
      simp only [Fld.key, Reg.NET_TX_FRAMES_COUNT]
      omega
    rw [State.bump, State.bumpBy, State.get_put]
    exact if_congr same rfl rfl
  have counted := s.each_once (fun t k => t.get (Reg.NET_TX_FRAMES_COUNT k)) (fun p t => t.bump (Reg.NET_TX_FRAMES_COUNT p))
    (fun v => min (v + 1) (2 ^ 32 - 1) % 2 ^ 32) step once p
  rw [State.countSent, counted, if_pos mem]
  omega

theorem exec_streamPacketTx_sends (stream : Tab.get none s.net.tx n = some x)
    (aligned : (s.get Reg.TIME_STATUS_ALIGNED).testBit x.record.domain = true) (sends : s.sending x.record.domain = true)
    (reached : x.nextAt (s.dom x.record.domain).si + x.record.S ≤ (s.dom x.record.domain).si + (s.dom x.record.domain).block) :
    ∃ words, exec (.streamPacketTx n) s =
      .next ((s.setTx n (x.sent (x.nextAt (s.dom x.record.domain).si) words)).countSent x.record.ports) := by
  have run : exec (.streamPacketTx n) s = execStreamPacketTx n s := rfl
  rw [run, execStreamPacketTx, stream]
  dsimp only
  rw [if_pos ⟨by rw [aligned, sends]; rfl, reached⟩]
  exact ⟨_, rfl⟩

theorem exec_streamPacketTx_early (stream : Tab.get none s.net.tx n = some x)
    (early : (s.dom x.record.domain).si + (s.dom x.record.domain).block < x.nextAt (s.dom x.record.domain).si + x.record.S) :
    exec (.streamPacketTx n) s = .next s := by
  have run : exec (.streamPacketTx n) s = execStreamPacketTx n s := rfl
  rw [run, execStreamPacketTx, stream]
  exact if_neg fun ready => absurd ready.2 (Nat.not_le.2 early)

theorem exec_streamLoss_reports (stream : Tab.get none s.net.rx n = some x) (heard : x.lost = false) :
    exec (.streamLoss n) s = .next ((State.each { s with net := { s.net with
      rx := Tab.put none s.net.rx n (some { x with lost := true }) } } x.record.addrs fun a t => t.restartSource a).postNow .net
      (some 40) 0x0102 [1, n, 1, x.record.pathMask]) := by
  show execStreamLoss n s = _
  simp [execStreamLoss, stream, heard]

theorem exec_streamLoss_reported (stream : Tab.get none s.net.rx n = some x) (lost : x.lost = true) :
    exec (.streamLoss n) s = .next s := by
  show execStreamLoss n s = _
  simp [execStreamLoss, stream, lost]

end

/-! ### Links (R519) -/

theorem WritesOnly.postNow {l : List Fld} (s : State) (c : EvClass) (v : Option Nat) (k : Nat) (b : List Nat) :
    WritesOnly l s (s.postNow c v k b) := .host (.postNow s c v k b)

theorem netStatus_free (x : Fin 3) : (Reg.NET_STATUS_MOD_PRESENT x).FreeOf ((List.range 24).map (Reg.NET_MOD_A0_DATA x)) ∧
    (Reg.NET_STATUS_MOD_PRESENT x).FreeOf [Reg.NET_STATUS_MOD_OK x, Reg.NET_STATUS_LINK x, Reg.NET_STATUS_MOD_REJ x] ∧
    (Reg.NET_STATUS_MOD_OK x).FreeOf [Reg.NET_STATUS_LINK x, Reg.NET_STATUS_MOD_REJ x] ∧
    (Reg.NET_STATUS_LINK x).FreeOf [Reg.NET_STATUS_MOD_REJ x] ∧ (Reg.NET_STATUS_MOD_REJ x).FreeOf [] := by
  decide +revert

section
variable (s) (x : Fin 3) (up : Bool)

theorem State.netLink_writes : WritesOnly [Reg.NET_STATUS_LINK x] s (s.netLink x up) :=
  .ite .refl (.trans (.put (List.mem_singleton.2 rfl) _) (.postNow _ _ _ _ _))

theorem State.netLink_bit : (s.netLink x up).bit (Reg.NET_STATUS_LINK x) = up := by
  obtain ⟨-, -, -, link, -⟩ := netStatus_free x
  unfold State.netLink
  split
  next already => exact already
  next => exact ((WritesOnly.postNow _ _ _ _ _).bit (link.mono (List.nil_subset _))).trans (State.bit_putBit_same s rfl up)

theorem State.netLink_keeps : (s.netLink x up).net = s.net ∧ (s.netLink x up).units = s.units := by
  unfold State.netLink
  split
  · exact ⟨rfl, rfl⟩
  · exact ⟨State.postNow_net .., State.postNow_units ..⟩

theorem exec_netLinkChange_moves {up : Bool}
    (ready : up = false ∨ (s.bit (Reg.NET_CTL_EN x) = true ∧ s.bit (Reg.NET_STATUS_MOD_OK x) = true)) :
    exec (.netLinkChange x up) s = .next (s.netLink x up) := by
  show execNetLinkChange x up s = _
  rcases ready with down | ⟨enabled, accepted⟩
  · simp [execNetLinkChange, down]
  · simp [execNetLinkChange, enabled, accepted]

theorem exec_netLinkChange_disabled (disabled : s.bit (Reg.NET_CTL_EN x) = false) : exec (.netLinkChange x true) s = .next s := by
  show execNetLinkChange x true s = _
  simp [execNetLinkChange, disabled]

end

/-! ### Pages of a module (R485) -/

/-- The first words of a page in a row of registers. -/
def State.showPage (s : State) (reg : Nat → Fld) (n : Nat) (page : List Byte) : State :=
  s.each (List.range n) fun j t => t.put (reg j) (bytesToNat ((page.drop (4 * j)).take 4))

section
variable (s) (reg : Nat → Fld) (n : Nat) (page : List Byte)

theorem State.showPage_writes : WritesOnly ((List.range n).map reg) s (s.showPage reg n page) :=
  .each fun _ mem _ => .put (List.mem_map_of_mem mem) _

theorem State.units_showPage : (s.showPage reg n page).units = s.units :=
  State.each_keeps (fun t => t.units = s.units) (fun j t => t.put (reg j) (bytesToNat ((page.drop (4 * j)).take 4)))
    (fun _ _ kept => kept) s _ rfl

theorem State.get_showPage (distinct : ∀ j k, k ≠ j → (reg j).key ≠ (reg k).key) {j : Nat} (word : j < n) :
    (s.showPage reg n page).get (reg j) = bytesToNat ((page.drop (4 * j)).take 4) % 2 ^ (reg j).w :=
  State.each_brings (fun _ => True) (fun t => t.get (reg j) = bytesToNat ((page.drop (4 * j)).take 4) % 2 ^ (reg j).w)
    (fun j t => t.put (reg j) (bytesToNat ((page.drop (4 * j)).take 4))) List.nodup_range (List.mem_range.2 word)
    (fun _ _ _ _ _ => trivial) (fun t _ => t.get_put_same _ _)
    (fun k _ other t shown => (State.get_put_ne t (distinct j k other) _).trans shown) trivial

end

/-! ### Modules (R485) -/

section
variable (s) (x : Fin 3)

/-- A module counts no longer as accepted, and its port's link goes down. -/
def State.withdrawModule : State := (s.put (Reg.NET_STATUS_MOD_OK x) 0).netLink x false

theorem State.withdrawModule_writes : WritesOnly [Reg.NET_STATUS_MOD_OK x, Reg.NET_STATUS_LINK x] s (s.withdrawModule x) :=
  .trans (.put (by simp) 0) (.mono (by simp) (State.netLink_writes _ _ _))

theorem State.withdrawModule_shows : (s.withdrawModule x).bit (Reg.NET_STATUS_MOD_OK x) = false ∧
    (s.withdrawModule x).bit (Reg.NET_STATUS_LINK x) = false ∧ (s.withdrawModule x).units = s.units := by
  obtain ⟨-, -, accepted, -, -⟩ := netStatus_free x
  obtain ⟨-, units⟩ := State.netLink_keeps (s.put (Reg.NET_STATUS_MOD_OK x) 0) x false
  exact ⟨((State.netLink_writes _ _ _).bit (accepted.mono (by simp))).trans (State.bit_put_same s rfl 0), State.netLink_bit .., units⟩

theorem State.refuseModule_shows : (s.refuseModule x).bit (Reg.NET_STATUS_MOD_OK x) = false ∧
    (s.refuseModule x).bit (Reg.NET_STATUS_MOD_REJ x) = true ∧ (s.refuseModule x).bit (Reg.NET_STATUS_LINK x) = false := by
  obtain ⟨-, -, accepted, link, refused⟩ := netStatus_free x
  obtain ⟨withdrawn, down, -⟩ := s.withdrawModule_shows x
  have marked : WritesOnly [Reg.NET_STATUS_MOD_REJ x] (s.withdrawModule x) (s.refuseModule x) :=
    .trans (.put (List.mem_singleton.2 rfl) 1) (.postNow _ _ _ _ _)
  exact ⟨(marked.bit (accepted.mono (by simp))).trans withdrawn,
    ((WritesOnly.postNow _ _ _ _ _).bit refused).trans (State.bit_set_same _ rfl), (marked.bit link).trans down⟩

theorem State.refuseModule_keeps : (s.refuseModule x).units = s.units ∧
    (s.refuseModule x).bit (Reg.NET_STATUS_MOD_PRESENT x) = s.bit (Reg.NET_STATUS_MOD_PRESENT x) := by
  obtain ⟨-, present, -, -, -⟩ := netStatus_free x
  obtain ⟨-, -, units⟩ := s.withdrawModule_shows x
  have writes : WritesOnly [Reg.NET_STATUS_MOD_OK x, Reg.NET_STATUS_LINK x, Reg.NET_STATUS_MOD_REJ x] s (s.refuseModule x) :=
    .trans (.mono (by simp) (s.withdrawModule_writes x)) (.trans (.put (by simp) 1) (.postNow _ _ _ _ _))
  exact ⟨(State.postNow_units ..).trans units, writes.bit present⟩

/-- A module is present, and its page is shown. -/
def State.showModule (a0 : List Byte) : State :=
  (s.set (Reg.NET_STATUS_MOD_PRESENT x)).showPage (Reg.NET_MOD_A0_DATA x) 24 a0

theorem State.showModule_shows (a0 : List Byte) :
    (s.showModule x a0).bit (Reg.NET_STATUS_MOD_PRESENT x) = true ∧ (s.showModule x a0).units = s.units := by
  obtain ⟨page, -, -, -, -⟩ := netStatus_free x
  exact ⟨((State.showPage_writes _ _ _ _).bit page).trans (State.bit_set_same s rfl), State.units_showPage _ _ _ _⟩

theorem exec_netModuleInsert_accepted {a0 : List Byte} {ok : Bool} (accepted : a0.getD 0 0 = 3 ∧ ok = true) :
    exec (.netModuleInsert x a0 ok) s =
      .next (((s.showModule x a0).set (Reg.NET_STATUS_MOD_OK x)).postNow .net (moduleVector x) 0x0101 [x, 1]) := if_pos accepted

theorem exec_netModuleInsert_refused {a0 : List Byte} {ok : Bool} (refused : ¬(a0.getD 0 0 = 3 ∧ ok = true)) :
    exec (.netModuleInsert x a0 ok) s = .next ((s.showModule x a0).refuseModule x) := if_neg refused

theorem exec_netModuleInsert_spec (a0 : List Byte) (ok : Bool) : ∃ t, exec (.netModuleInsert x a0 ok) s = .next t ∧
    t.bit (Reg.NET_STATUS_MOD_PRESENT x) = true ∧ t.units = s.units ∧
    (a0.getD 0 0 = 3 → ok = true → t.bit (Reg.NET_STATUS_MOD_OK x) = true) ∧
    (a0.getD 0 0 ≠ 3 ∨ ok = false → t.bit (Reg.NET_STATUS_MOD_OK x) = false ∧ t.bit (Reg.NET_STATUS_MOD_REJ x) = true ∧
      t.bit (Reg.NET_STATUS_LINK x) = false) := by
  obtain ⟨-, present, okFree, -, -⟩ := netStatus_free x
  obtain ⟨here, units⟩ := s.showModule_shows x a0
  by_cases accepted : a0.getD 0 0 = 3 ∧ ok = true
  · have marked : WritesOnly [Reg.NET_STATUS_MOD_OK x] (s.showModule x a0)
        (((s.showModule x a0).set (Reg.NET_STATUS_MOD_OK x)).postNow .net (moduleVector x) 0x0101 [x, 1]) :=
      .trans (.put (List.mem_singleton.2 rfl) 1) (.postNow _ _ _ _ _)
    refine ⟨_, exec_netModuleInsert_accepted s x accepted, (marked.bit (present.mono (by simp))).trans here,
      (State.postNow_units ..).trans units, fun _ _ => ?_, fun refused => ?_⟩
    · exact ((WritesOnly.postNow _ _ _ _ _).bit (okFree.mono (List.nil_subset _))).trans (State.bit_set_same _ rfl)
    · obtain ⟨identifier, rate⟩ := accepted
      exact refused.elim (absurd identifier) fun off => Bool.noConfusion (off.symm.trans rate)
  · obtain ⟨refusedUnits, refusedHere⟩ := (s.showModule x a0).refuseModule_keeps x
    exact ⟨_, exec_netModuleInsert_refused s x accepted, refusedHere.trans here, refusedUnits.trans units,
      fun identifier rate => absurd ⟨identifier, rate⟩ accepted, fun _ => State.refuseModule_shows ..⟩

theorem exec_netModuleRemoved_present (present : s.bit (Reg.NET_STATUS_MOD_PRESENT x) = true) :
    exec (.netModuleRemoved x) s = .next (((s.put (Reg.NET_STATUS_MOD_PRESENT x) 0).withdrawModule x).postNow .net (moduleVector x)
      0x0101 [x, 2]) := if_pos present

theorem exec_netModuleRemoved_spec (there : s.bit (Reg.NET_STATUS_MOD_PRESENT x) = true) :
    ∃ t, exec (.netModuleRemoved x) s = .next t ∧ t.units = s.units ∧ t.bit (Reg.NET_STATUS_MOD_PRESENT x) = false ∧
      t.bit (Reg.NET_STATUS_MOD_OK x) = false ∧ t.bit (Reg.NET_STATUS_LINK x) = false := by
  obtain ⟨-, present, accepted, link, -⟩ := netStatus_free x
  obtain ⟨withdrawn, down, units⟩ := (s.put (Reg.NET_STATUS_MOD_PRESENT x) 0).withdrawModule_shows x
  have event {f : Fld} (free : f.FreeOf []) := (WritesOnly.postNow ((s.put (Reg.NET_STATUS_MOD_PRESENT x) 0).withdrawModule x) .net
    (moduleVector x) 0x0101 [x, 2]).bit free
  have gone := ((s.put (Reg.NET_STATUS_MOD_PRESENT x) 0).withdrawModule_writes x).bit (present.mono (by simp))
  exact ⟨_, exec_netModuleRemoved_present s x there, (State.postNow_units ..).trans units,
    (event (present.mono (by simp))).trans (gone.trans (State.bit_put_same s rfl 0)), (event (accepted.mono (by simp))).trans withdrawn,
    (event (link.mono (by simp))).trans down⟩

/-- The readings of a module's diagnostics, and whether it receives light. -/
def State.showDdm (a2 : List Byte) (los : Bool) : State :=
  (s.showPage (Reg.NET_MOD_DDM_DATA x) 3 a2).putBit (Reg.NET_STATUS_RX_LOS x) los

/-- An alarm of the diagnostics, with its event where it is new. -/
def State.raiseDdm (alarm seen : Bool) : State :=
  if alarm then
    if seen then s.set (Reg.NET_STATUS_DDM_ALARM x) else (s.set (Reg.NET_STATUS_DDM_ALARM x)).postNow .net (moduleVector x) 0x0101 [x, 4]
  else s

theorem exec_netDdmPoll_reads {a2 : List Byte} {alarm los : Bool} (accepted : s.bit (Reg.NET_STATUS_MOD_OK x) = true)
    (declared : (s.get (Reg.NET_MOD_A0_DATA x 23)).testBit 6 = true) :
    exec (.netDdmPoll x a2 alarm los) s = .next ((s.showDdm x a2 los).raiseDdm x alarm (s.bit (Reg.NET_STATUS_DDM_ALARM x))) :=
  if_pos (by rw [accepted, declared]; rfl)

theorem exec_netDdmPoll_none {a2 : List Byte} {alarm los : Bool} (none : s.bit (Reg.NET_STATUS_MOD_OK x) = false) :
    exec (.netDdmPoll x a2 alarm los) s = .next s := if_neg (by simp [none])

theorem ddm_free : (Reg.NET_STATUS_RX_LOS x).FreeOf [Reg.NET_STATUS_DDM_ALARM x] ∧ (Reg.NET_STATUS_DDM_ALARM x).FreeOf [] ∧
    ∀ j < 3, (Reg.NET_MOD_DDM_DATA x j).FreeOf [Reg.NET_STATUS_RX_LOS x, Reg.NET_STATUS_DDM_ALARM x] := by
  decide +revert

theorem State.get_showDdm (a2 : List Byte) (los : Bool) {j : Nat} (word : j < 3) :
    (s.showDdm x a2 los).get (Reg.NET_MOD_DDM_DATA x j) = bytesToNat ((a2.drop (4 * j)).take 4) % 2 ^ 32 := by
  obtain ⟨-, -, free⟩ := ddm_free x
  have distinct (j k : Nat) (other : k ≠ j) : (Reg.NET_MOD_DDM_DATA x j).key ≠ (Reg.NET_MOD_DDM_DATA x k).key := by
    simp only [Fld.key, Reg.NET_MOD_DDM_DATA]
    omega
  have los : WritesOnly [Reg.NET_STATUS_RX_LOS x] (s.showPage (Reg.NET_MOD_DDM_DATA x) 3 a2) (s.showDdm x a2 los) :=
    .put (List.mem_singleton.2 rfl) _
  exact (los _ ((free j word).mono (by simp))).trans (s.get_showPage _ 3 a2 distinct word)

theorem State.units_showDdm (a2 : List Byte) (los : Bool) : (s.showDdm x a2 los).units = s.units :=
  s.units_showPage (Reg.NET_MOD_DDM_DATA x) 3 a2

theorem State.raiseDdm_writes (alarm seen : Bool) : WritesOnly [Reg.NET_STATUS_DDM_ALARM x] s (s.raiseDdm x alarm seen) := by
  have marked : WritesOnly [Reg.NET_STATUS_DDM_ALARM x] s (s.set (Reg.NET_STATUS_DDM_ALARM x)) := .put (List.mem_singleton.2 rfl) 1
  exact .ite (.ite marked (marked.trans (.postNow _ _ _ _ _))) .refl

theorem State.raiseDdm_units (alarm seen : Bool) : (s.raiseDdm x alarm seen).units = s.units := by
  unfold State.raiseDdm
  split_ifs
  · rfl
  · exact State.postNow_units ..
  · rfl

theorem State.raiseDdm_bit (seen : Bool) : (s.raiseDdm x true seen).bit (Reg.NET_STATUS_DDM_ALARM x) = true := by
  obtain ⟨-, alarm, -⟩ := ddm_free x
  have marked : (s.set (Reg.NET_STATUS_DDM_ALARM x)).bit (Reg.NET_STATUS_DDM_ALARM x) = true := State.bit_set_same s rfl
  cases seen
  · exact ((WritesOnly.postNow _ _ _ _ _).bit alarm).trans marked
  · exact marked

end

/-! ### Secure channels (R514, R515) -/

section
variable (s) {x : Fin 2} (rolled : Bool) (sc : Fin 65)

theorem exec_macsecKeyAgreement_agrees (mode : s.get (Reg.NET_MACSEC_MODE x) ≠ 0) :
    exec (.macsecKeyAgreement x rolled sc) s = .next (((s.put (Reg.NET_MACSEC_MKA_UP x) 1).put (Reg.NET_MACSEC_RX_SC x) sc).postNow
      .net (some 42) 0x0104 [x, if rolled then 2 else 1]) := if_neg mode

theorem exec_macsecKeyAgreement_off (off : s.get (Reg.NET_MACSEC_MODE x) = 0) :
    exec (.macsecKeyAgreement x rolled sc) s = .next s := if_pos off

theorem exec_macsecPeerLost_up (up : s.bit (Reg.NET_MACSEC_MKA_UP x) = true) :
    exec (.macsecPeerLost x) s = .next (((s.put (Reg.NET_MACSEC_MKA_UP x) 0).put (Reg.NET_MACSEC_RX_SC x) 0).postNow .net (some 42)
      0x0104 [x, 3]) := if_pos up

end

/-! ### Received frames (R504, R515) -/

section
variable (s) {x : Fin 3} {f : NetFrame}

theorem exec_netFrameReceived_disabled (disabled : s.bit (Reg.NET_CTL_EN x) = false) : exec (.netFrameReceived x f) s = .next s :=
  if_pos (by rw [disabled]; rfl)

section
variable {s} (enabled : s.bit (Reg.NET_CTL_EN x) = true)
include enabled

theorem exec_netFrameReceived_insecure (insecure : x.val < 2 ∧ s.get (Reg.NET_MACSEC_MODE x) = 2 ∧ (s.arrived x f).secure = false ∧
      isEapol f = false) :
    exec (.netFrameReceived x f) s = .next ((s.bump (Reg.NET_RX_FRAMES_COUNT x)).bump (Reg.NET_MACSEC_DROP_COUNT x)) :=
  (if_neg (by simp [enabled])).trans (congrArg _ (if_pos insecure))

theorem exec_netFrameReceived_classified (passes : ¬(x.val < 2 ∧ s.get (Reg.NET_MACSEC_MODE x) = 2 ∧ (s.arrived x f).secure = false ∧
      isEapol f = false)) :
    exec (.netFrameReceived x f) s = .next ((s.bump (Reg.NET_RX_FRAMES_COUNT x)).classify x (s.arrived x f)) :=
  (if_neg (by simp [enabled])).trans (congrArg _ (if_neg passes))

/-- Whatever becomes of the frame, its arrival stays counted. -/
theorem exec_netFrameReceived_counts :
    ∃ t, exec (.netFrameReceived x f) s = .next t ∧ SameArrivals x (s.bump (Reg.NET_RX_FRAMES_COUNT x)) t := by
  by_cases insecure : x.val < 2 ∧ s.get (Reg.NET_MACSEC_MODE x) = 2 ∧ (s.arrived x f).secure = false ∧ isEapol f = false
  · exact ⟨_, exec_netFrameReceived_insecure enabled insecure, .macsecDrop _ _⟩
  · exact ⟨_, exec_netFrameReceived_classified enabled insecure, .classify _ _⟩

end

end

end Sys2Proof.Machine

namespace Sys2Proof.Machine

/-- Settles O42: each command through its equation above; the SI of the next packet is that of `StreamSt.nextAt` (log 22), and a frame
counts as `exec_netFrameReceived_counts` says. -/
theorem networkPorts : Obligations.NetworkPorts := by
  unfold Obligations.NetworkPorts
  refine ⟨fun n s x stream => ⟨fun aligned sends reached => ?_, exec_streamPacketTx_early stream⟩,
    fun n s x stream => ⟨exec_streamLoss_reports stream, exec_streamLoss_reported stream⟩,
    fun x a0 a2 ok alarm dark up s => ⟨exec_netModuleInsert_spec s x a0 ok, fun accepted declared => ?_, exec_netDdmPoll_none s x,
      exec_netModuleRemoved_spec s x, fun ready => ?_, exec_netLinkChange_disabled s x⟩,
    fun x rolled sc s => ⟨exec_macsecKeyAgreement_agrees s rolled sc, exec_macsecKeyAgreement_off s rolled sc,
      exec_macsecPeerLost_up s⟩,
    fun x f s => ⟨exec_netFrameReceived_disabled s, fun enabled secured mode plain data =>
      exec_netFrameReceived_insecure enabled ⟨secured, mode, plain, data⟩, fun enabled => ?_⟩⟩
  · obtain ⟨words, run⟩ := exec_streamPacketTx_sends stream aligned sends reached
    obtain ⟨net, units, host⟩ := (s.setTx n (x.sent (x.nextAt (s.dom x.record.domain).si) words)).countSent_keeps x.record.ports
    refine ⟨_, x.sent (x.nextAt (s.dom x.record.domain).si) words, run, ?_, rfl, rfl, rfl, rfl, rfl, units, host, fun p mem room =>
      State.get_countSent _ x.record.nodup_ports mem room⟩
    rw [net, State.tx_setTx]
  · obtain ⟨los, -, words⟩ := ddm_free x
    have raised := (s.showDdm x a2 dark).raiseDdm_writes x alarm (s.bit (Reg.NET_STATUS_DDM_ALARM x))
    refine ⟨_, exec_netDdmPoll_reads s x accepted declared, (raised.bit los).trans (State.bit_putBit_same _ rfl _),
      (State.raiseDdm_units ..).trans (s.units_showDdm ..), fun j word => ?_, fun alarmed => ?_⟩
    · exact (raised _ ((words j word).mono (by simp))).trans (s.get_showDdm x a2 _ word)
    · rw [alarmed]; exact State.raiseDdm_bit ..
  · obtain ⟨net, units⟩ := s.netLink_keeps x up
    exact ⟨_, exec_netLinkChange_moves s x ready, s.netLink_bit x up, net, units⟩
  · obtain ⟨t, run, kept⟩ := exec_netFrameReceived_counts (f := f) enabled
    exact ⟨t, run, kept.units, kept.frames⟩

end Sys2Proof.Machine
end

