-- ==== Sys2Proof/Proofs/ResetAndQueue.lean ====
section
/-! PROOF. The state after reset (R714, R806) and the queue of commands: what a step does with a command, and without one (log entry 1). -/

namespace Sys2Proof.Machine

/-! ### Reset -/

/-- Whether every field of a row whose power-up value is a number reads it. -/
def State.powersUp (s : State) (r : RegRow) : Bool :=
  match r.pup with
  | .num n => (instances r).all fun f => s.get f == n
  | _ => true

theorem State.get_of_powersUp {s : State} {r : RegRow} (up : s.powersUp r = true) {n : Nat} (num : r.pup = .num n) {f : Fld}
    (mem : f ∈ instances r) : s.get f = n := by
  simp only [State.powersUp, num, List.all_eq_true, beq_iff_eq] at up
  exact up f mem

/-- The register map, row by row, against the registers after reset. -/
theorem powersUp_reset : ∀ r ∈ regRows, State.reset.powersUp r = true :=
  List.all_eq_true.1 (by decide +kernel)

theorem canonical_reset : State.reset.Canonical := by
  constructor <;> decide +kernel

/-! ### A step -/

variable {s : State}

theorem step_cons {c : Instr} {rest : List Instr} (front : s.pending = c :: rest) : step s = exec c { s with pending := rest } := by
  simp only [step, front]

theorem step_nil (empty : s.pending = []) : step s = .next s.tick := by
  simp only [step, empty]

theorem State.tickCluster_idle {c : Fin 64} (idle : (s.cluster c.val).firing = none) : s.tickCluster c = s := by
  simp only [State.tickCluster, idle]

theorem State.issueBundle_waits {u : Fin 516} (waits : (s.unit u.val).wait ≠ .run ∨ (s.unit u.val).mid ≠ none) :
    s.issueBundle u = s :=
  if_neg fun ⟨runs, gap⟩ => waits.elim (· runs) (· gap)

/-- Operations that leave a state as it is, one after another. -/
theorem State.each_eq_self {α : Type} {l : List α} {f : α → State → State} (same : ∀ x ∈ l, f x s = s) : s.each l f = s :=
  State.each_keeps_mem (· = s) f s l (fun x mem t kept => by rw [kept, same x mem]) rfl

/-- With no firing cluster, and no servo unit at a gap of its bundles, a cycle of the clocks changes nothing. -/
theorem State.tick_idle (idle : ∀ c < 64, (s.cluster c).firing = none)
    (waits : ∀ k < 4, (s.unit (512 + k)).wait ≠ .run ∨ (s.unit (512 + k)).mid ≠ none) : s.tick = s := by
  have clusters : s.each (List.finRange 64) (fun c t => t.tickCluster c) = s :=
    State.each_eq_self fun c _ => State.tickCluster_idle (idle c c.isLt)
  rw [State.tick, clusters]
  exact State.each_eq_self fun k _ => State.issueBundle_waits (waits k k.isLt)

end Sys2Proof.Machine

namespace Sys2Proof.Machine

/-- Settles O57: the rows of the map are read one by one (`powersUp_reset`); what else is reset stands in the state itself. -/
theorem resetState : Obligations.ResetState := by
  unfold Obligations.ResetState
  exact ⟨fun r row n num f mem => State.get_of_powersUp (powersUp_reset r row) num mem, canonical_reset, rfl, rfl, rfl, rfl, rfl, rfl, rfl,
    fun _ => ⟨rfl, rfl⟩, fun _ => ⟨rfl, rfl⟩, fun _ => ⟨rfl, rfl, rfl, rfl, rfl, rfl⟩⟩

/-- Settles O56: `step` on a queue with and without a command, and the idle cycle of `State.tick_idle`. -/
theorem queueStep : Obligations.QueueStep := by
  unfold Obligations.QueueStep
  exact ⟨fun _ _ _ front => step_cons front, fun _ empty => step_nil empty,
    fun _ empty idle waits => by rw [step_nil empty, State.tick_idle idle waits]⟩

end Sys2Proof.Machine
end

