-- ==== Sys2Proof/Proofs/CanonicalState.lean ====
section
/-! SUPPORT. The canonical form of registers and memories is kept by the shared operations: registers, events, clocks, cuts, changes
of parameters, pours on their way, the network, audio ports and the mix: one lemma per operation, in the order of the model; each
follows the shape of its definition. -/

namespace Sys2Proof.Machine

variable {s t u : State}

/-- An outcome that answers a next state, and a canonical one from a canonical state. -/
def State.Answers (s : State) (o : Out) : Prop := ∃ t, o = .next t ∧ (s.Canonical → t.Canonical)

theorem State.Answers.next (keeps : s.Canonical → t.Canonical) : s.Answers (.next t) := ⟨t, rfl, keeps⟩

theorem State.Answers.ite {c : Prop} [Decidable c] {o p : Out} (a : s.Answers o) (b : s.Answers p) : s.Answers (if c then o else p) := by
  split
  · exact a
  · exact b

theorem State.Answers.of {o : Out} (keeps : s.Canonical → t.Canonical) (a : t.Answers o) : s.Answers o :=
  let ⟨u, run, kept⟩ := a
  ⟨u, run, fun h => kept (keeps h)⟩

theorem State.Answers.ifHost {o : Out} (a : s.Answers o) : s.Answers (s.ifHost o) := .ite a (.next id)

theorem State.Canonical.ite {c : Prop} [Decidable c] (a : t.Canonical) (b : u.Canonical) : (if c then t else u).Canonical := by
  split
  · exact a
  · exact b

/-- The registers and memories of `t` with other fields written. -/
theorem State.Canonical.update (h : t.Canonical) {pending latch staged ctr prog units clusters regions xbar doms mix sched pours time
    net audio wl huba surf store pwr trust pair bist pins host} :
    State.Canonical (.mk pending t.regs latch staged ctr t.dram t.shm t.lmem t.dly t.glz t.stage t.hostMem prog units clusters regions
      xbar doms mix sched pours time net audio wl huba surf store pwr trust pair bist pins host) :=
  ⟨h.regs, h.dram, h.shm, h.lmem, h.dly, h.glz, h.stage, h.hostMem⟩

theorem State.Canonical.foldl {α : Type} {f : State → α → State} {l : List α} (h : s.Canonical)
    (keeps : ∀ t x, t.Canonical → (f t x).Canonical) : (l.foldl f s).Canonical :=
  List.foldlRecOn (motive := State.Canonical) l f h fun t c x _ => keeps t x c

theorem State.Canonical.each {α : Type} {l : List α} {f : α → State → State} (h : s.Canonical)
    (keeps : ∀ x t, t.Canonical → (f x t).Canonical) : (s.each l f).Canonical := State.each_keeps State.Canonical f keeps s l h

theorem State.Canonical.when {b : Bool} {f : State → State} (h : s.Canonical) (keeps : ∀ t, t.Canonical → (f t).Canonical) :
    (s.when b f).Canonical := .ite (keeps s h) h

theorem State.Canonical.iteFst {α : Type} {c : Prop} [Decidable c] {x y : α} (a : t.Canonical) (b : u.Canonical) :
    (if c then (t, x) else (u, y)).1.Canonical := by
  split
  · exact a
  · exact b

theorem State.Canonical.iteSnd {α : Type} {c : Prop} [Decidable c] {x : α} {p : α × State} (a : t.Canonical) (b : p.2.Canonical) :
    (if c then (x, t) else p).2.Canonical := by
  split
  · exact a
  · exact b

/-! ### A memory written -/

theorem State.Canonical.withDram (h : s.Canonical) {m : Memory} (w : m.wf = true) : { s with dram := m }.Canonical :=
  ⟨h.regs, w, h.shm, h.lmem, h.dly, h.glz, h.stage, h.hostMem⟩
theorem State.Canonical.withShm (h : s.Canonical) {m : Memory} (w : m.wf = true) : { s with shm := m }.Canonical :=
  ⟨h.regs, h.dram, w, h.lmem, h.dly, h.glz, h.stage, h.hostMem⟩
theorem State.Canonical.withLmem (h : s.Canonical) {m : Memory} (w : m.wf = true) : { s with lmem := m }.Canonical :=
  ⟨h.regs, h.dram, h.shm, w, h.dly, h.glz, h.stage, h.hostMem⟩
theorem State.Canonical.withDly (h : s.Canonical) {m : Memory} (w : m.wf = true) : { s with dly := m }.Canonical :=
  ⟨h.regs, h.dram, h.shm, h.lmem, w, h.glz, h.stage, h.hostMem⟩
theorem State.Canonical.withGlz (h : s.Canonical) {m : Memory} (w : m.wf = true) : { s with glz := m }.Canonical :=
  ⟨h.regs, h.dram, h.shm, h.lmem, h.dly, w, h.stage, h.hostMem⟩
theorem State.Canonical.withStage (h : s.Canonical) {m : Memory} (w : m.wf = true) : { s with stage := m }.Canonical :=
  ⟨h.regs, h.dram, h.shm, h.lmem, h.dly, h.glz, w, h.hostMem⟩

/-! ### Register fields -/

theorem State.Canonical.accFault (h : s.Canonical) {bar2 : Bool} {off be kind : Nat} : (s.accFault bar2 off be kind).Canonical :=
  .ite (.set (.bump (.set h _) _) _) (.set (.put (.put (.putBit (.put (.bump (.set h _) _) _ _) _ _) _ _) _ _) _)

theorem State.Answers.ifRestored {off : Nat} {change : Bool} {o : Out} (a : s.Answers o) : s.Answers (s.ifRestored off change o) :=
  .ifHost (.ite a (.ite (.next fun h => h.accFault) (.next id)))

/-! ### Instances -/

theorem State.Canonical.modUnit (h : s.Canonical) {u : Nat} {f : UnitSt → UnitSt} : (s.modUnit u f).Canonical := .setUnit h _ _

theorem State.Canonical.modCluster (h : s.Canonical) {c : Nat} {f : ClusterSt → ClusterSt} : (s.modCluster c f).Canonical :=
  .setCluster h _ _

theorem State.Canonical.modStd (h : s.Canonical) {f : StdSt → StdSt} : (s.modStd f).Canonical := .modMix h _

/-! ### The upstream ledger (R467–R470) -/

theorem State.Canonical.channelWrite (h : s.Canonical) {k addr : Nat} {bs : List Byte} : (s.channelWrite k addr bs).Canonical := by
  unfold State.channelWrite
  dsimp only
  exact .modHost (.hostWrite h _ _) _

theorem State.Canonical.report (h : s.Canonical) {addr : Nat} {bs : List Byte} {x : Done} : (s.report addr bs x).Canonical :=
  .ite (.modHost (.hostWrite h _ _) _) (.modHost h _)

theorem State.Canonical.sendReports (h : s.Canonical) {l : List Report} : (s.sendReports l).Canonical := by
  induction l generalizing s with
  | nil => exact .modHost h _
  | cons r t ih =>
    unfold State.sendReports
    exact .ite (ih (.modHost (.hostWrite h _ _) _)) (.modHost (.hostWrite h _ _) _)

/-! ### Completions (R439, R448) -/

theorem State.Canonical.refuse (h : s.Canonical) {hd : CmdHdr} {opcode : Nat} {st : Status} {offset item : Nat} :
    (s.refuse hd opcode st offset item).Canonical :=
  .finish h _ _ _ _ _ _

theorem State.Canonical.ok (h : s.Canonical) {hd : CmdHdr} {opcode : Nat} : (s.ok hd opcode).Canonical := .finish h _ _ _ _ _ _
theorem State.Canonical.modWl (h : s.Canonical) {p : Nat} {f : WlPort → WlPort} : (s.modWl p f).Canonical := .update h

/-! ### References and loop states -/

theorem State.Canonical.modMpll (h : s.Canonical) {n : Nat} {f : MpllSt → MpllSt} : (s.modMpll n f).Canonical := .update h

theorem State.Canonical.enterMpll (h : s.Canonical) {n st : Nat} : (s.enterMpll n st).Canonical :=
  .postNow (.setMask (.put h _ _) _ _) _ _ _ _

theorem State.Canonical.enterAcquire (h : s.Canonical) {n : Nat} : (s.enterAcquire n).Canonical := .enterMpll (.modMpll (.put h _ _))
theorem State.Canonical.unalign (h : s.Canonical) {d : Nat} : (s.unalign d).Canonical := .clrMask h _ _
theorem State.Canonical.unseenVsyncs (h : s.Canonical) {n k : Nat} : (s.unseenVsyncs n k).Canonical := .ite (.take (.modMpll h)) h

theorem State.Canonical.selectCandidate (h : s.Canonical) {n k : Nat} : (s.selectCandidate n k).Canonical :=
  .enterAcquire (.ite (.put (.unalign (.modMpll (.set (.put h _ _) _))) _ _) (.unalign (.modMpll (.set (.put h _ _) _))))

theorem answers_execCandidateQualified {n : Fin 3} {k : Fin 8} : s.Answers (execCandidateQualified n k s) := by
  unfold execCandidateQualified
  dsimp only
  refine .ite (.ite (.next fun h => .setMask h _ _) (.ite (.next fun h => .setMask h _ _) ?_)) (.next id)
  split
  · exact .next fun h => .ite (.modMpll (.selectCandidate (.setMask h _ _))) (.selectCandidate (.unseenVsyncs (.setMask h _ _)))
  · exact .next fun h => .setMask h _ _

theorem State.Canonical.loseReference (h : s.Canonical) {n : Nat} : (s.loseReference n).Canonical := by
  unfold State.loseReference
  dsimp only
  split
  · exact .selectCandidate (.unseenVsyncs h)
  · exact .ite (.enterMpll (.ite (.put h _ _) (.take (.put (.put h _ _) _ _)))) (.ite (.enterMpll (.put h _ _)) (.put h _ _))

theorem State.Canonical.disqualify (h : s.Canonical) {n k : Nat} : (s.disqualify n k).Canonical :=
  .ite (.ite (.loseReference (.setMask (.clrMask h _ _) _ _)) (.setMask (.clrMask h _ _) _ _)) h

theorem State.Canonical.disqualifyAll (h : s.Canonical) {bad : State → Nat → Nat → Bool} : (s.disqualifyAll bad).Canonical :=
  .each h (fun _ _ h1 => .each h1 (fun _ _ h2 => .ite (.disqualify h2) h2))

theorem State.Canonical.loseAes (h : s.Canonical) {r : Nat} : (s.loseAes r).Canonical := .disqualifyAll h
theorem State.Canonical.loseFrames (h : s.Canonical) : s.loseFrames.Canonical := .disqualifyAll h

theorem State.Canonical.startMpll (h : s.Canonical) {n : Nat} : (s.startMpll n).Canonical := by
  unfold State.startMpll
  split
  · exact .selectCandidate (.unseenVsyncs h)
  · exact h

theorem State.Canonical.stopMpll (h : s.Canonical) {n : Nat} : (s.stopMpll n).Canonical :=
  .unalign (.modMpll (.put (.put (.put h _ _) _ _) _ _))

theorem answers_execCandidateLoss {n : Fin 3} {k : Fin 8} : s.Answers (execCandidateLoss n k s) := .next fun h => .disqualify h

theorem answers_execRevertWtrExpiry {n : Fin 3} {k : Fin 8} : s.Answers (execRevertWtrExpiry n k s) :=
  .ite (.next fun h => .selectCandidate (.unseenVsyncs h)) (.next id)

theorem State.Canonical.candidateChanged (h : s.Canonical) {n k : Nat} : (s.candidateChanged n k).Canonical :=
  .ite (.enterMpll (.put (.disqualify h) _ _)) (.disqualify h)

theorem State.Canonical.vsync (h : s.Canonical) {n : Nat} : (s.vsync n).Canonical := .ite (.modMpll h) h

theorem State.Canonical.masterClocks (h : s.Canonical) : s.masterClocks.Canonical :=
  .each h (fun _ _ h1 => .ite (.ite (.put (.putBit h1 _ _) _ _) (.putBit h1 _ _)) h1)

theorem answers_execMpllComparison {n : Fin 3} {p : PhaseSample} {word : Int} : s.Answers (execMpllComparison n p word s) :=
  .ite (.next id) (.next fun h => .modMpll (.ite (.put (.ite (.vsync h) h) _ _) (.put (.put (.ite (.vsync h) h) _ _) _ _)))

theorem answers_execLockCriterion {n : Fin 3} : s.Answers (execLockCriterion n s) :=
  .ite (.next fun h => .enterMpll (.masterClocks (.modMpll h))) (.next id)

theorem answers_execPhaseExcursion {n : Fin 3} : s.Answers (execPhaseExcursion n s) :=
  .ite (.next fun h => .enterAcquire (.set h _)) (.next id)

theorem answers_execBandwidthHalving {n : Fin 3} : s.Answers (execBandwidthHalving n s) :=
  .ite (.next fun h => .ite (.set (.modMpll h) _) (.modMpll h)) (.next id)

theorem answers_execClkMpllDcoWrite {n : Fin 3} {word : BitVec 32} : s.Answers (execClkMpllDcoWrite n word s) :=
  .ifRestored (.ite (.next id) (.ite (.next fun h => .put h _ _) (.next fun h => .set h _)))

/-! ### Roast profiles (R398–R401) -/

theorem answers_execRoastStart {n : Fin 3} : s.Answers (execRoastStart n s) :=
  .ifHost (.ite (.next fun h => .set h _) (.next fun h => .modMpll (.put h _ _)))

theorem State.Canonical.roastDone (h : s.Canonical) {n : Nat} : (s.roastDone n).Canonical :=
  .postNow (.clrMask (.put (.put h _ _) _ _) _ _) _ _ _ _

theorem answers_execRoastAbort {n : Fin 3} {ticks : Nat} : s.Answers (execRoastAbort n ticks s) :=
  .ifHost (.ite (.next fun h => .roastDone (.modDom (.modMpll (.take h)) _ _)) (.next id))

theorem answers_execRoastProfileBegin {n : Fin 3} : s.Answers (execRoastProfileBegin n s) :=
  .ite (.next fun h => .modMpll (.setMask (.put h _ _) _ _)) (.ite (.next fun h => .ite (.set (.modMpll (.put (.put h _ _) _ _)) _)
    (.modMpll (.put (.put h _ _) _ _))) (.next id))

theorem answers_execRoastSegmentEnd {n : Fin 3} : s.Answers (execRoastSegmentEnd n s) := by
  unfold execRoastSegmentEnd
  dsimp only
  split
  · exact .next id
  · exact .ite (.ite (.next fun h => .roastDone (.modDom (.modMpll h) _ _)) (.next fun h => .put (.modMpll h) _ _)) (.next id)

/-! ### Alignment -/

theorem answers_execAlignComplete {d : Fin 3} : s.Answers (execAlignComplete d s) :=
  .ite (.next fun h => .postNow (.setMask h _ _) _ _ _ _) (.next id)

/-! ### Timestamps, triggers, snapshots -/

theorem State.Canonical.pushStamp (h : s.Canonical) {x : Nat} {t : TxStamp} : (s.pushStamp x t).Canonical :=
  .ite (.put (.update h) _ _) (.ite (.post (.postNow (.bump (.set h _) _) _ _ _ _) _ _ _) (.postNow (.bump (.set h _) _) _ _ _ _))

theorem answers_execTxStampDrain {x : Fin 3} : s.Answers (execTxStampDrain x s) :=
  .next fun h => .each (.put (.update h) _ _) fun _ _ h1 => .postNow h1 _ _ _ _

theorem answers_execPtpMessageTx {x : Fin 3} {isEvent : Bool} {id : BitVec 16} {requested : Bool} {stamp : Nat} :
    s.Answers (execPtpMessageTx x isEvent id requested stamp s) :=
  .ite (.next fun h => .ite (.pushStamp (.bump (.update h) _)) (.bump (.update h) _)) (.next fun h => h)

theorem answers_execPtpPortStateChange {x : Fin 3} {pstate : Fin 10} {gm : Bool} : s.Answers (execPtpPortStateChange x pstate gm s) :=
  .ite (.next id) (.ite (.next fun h => .postNow (.put h _ _) _ _ _ _) (.next fun h => .disqualifyAll (.postNow (.put h _ _) _ _ _ _)))

theorem answers_execTriggerArm {k : Fin 8} {domain : Fin 4} : s.Answers (execTriggerArm k domain s) :=
  .ifHost (.ite (.next fun h => .set h _) (.next fun h => .update (.set (.put h _ _) _)))

theorem answers_execTriggerCancel {k : Fin 8} : s.Answers (execTriggerCancel k s) := .ifHost (.next fun h => .update (.put h _ _))

theorem answers_execTriggerFire {k : Fin 8} : s.Answers (execTriggerFire k s) := by
  unfold execTriggerFire
  dsimp only
  split
  · exact .next id
  · exact .ite (.next fun h => .post (.update (.ite (.set (.set (.put h _ _) _) _) (.set (.put h _ _) _))) _ _ _) (.next id)

theorem State.Canonical.setClock (h : s.Canonical) {c : PtpClock} : (s.setClock c).Canonical := .update h

theorem State.Canonical.stepClock (h : s.Canonical) {t : Nat} : (s.stepClock t).Canonical :=
  .each (.setClock h) fun _ _ h1 => .ite (.unalign h1) h1

theorem answers_execTimeSnap {sec : BitVec 48} {ns : BitVec 30} {frac : BitVec 4} {sp ss st : Nat} :
    s.Answers (execTimeSnap sec ns frac sp ss st s) :=
  .ifHost (.next fun h => .put (.put (.put (.put (.put (.put (.setClock h) _ _) _ _) _ _) _ _) _ _) _ _)

/-! ### The record (R632–R636) -/

theorem State.Canonical.showMir (h : s.Canonical) : s.showMir.Canonical := .each h fun _ _ h1 => .put h1 _ _

theorem State.Canonical.judge (h : s.Canonical) {slot : Nat} {r : ModuleRead} : (s.judge slot r).Canonical :=
  .post (.showMir (.put (.put (.putBit (.put (.put (.set (.update h) _) _ _) _ _) _ _) _ _) _ _)) _ _ _

theorem State.Canonical.unseat (h : s.Canonical) {slot : Nat} : (s.unseat slot).Canonical :=
  .postNow (.showMir (.clear (.update h) _)) _ _ _ _

/-! ### Schedules as the running machine sees them, and the cut of a firing (R130–R138, R156–R161) -/

theorem State.Canonical.setPendingBank (h : s.Canonical) {k : Bank} : (s.setPendingBank k).Canonical := .modSched h _
theorem State.Canonical.errSeen (h : s.Canonical) : s.errSeen.Canonical := .update h

theorem State.Canonical.writeOut (h : s.Canonical) {c block fsi : Nat} {o : OutDest} {f : Nat → Word} :
    (s.writeOut c block fsi o f).Canonical := by
  unfold State.writeOut
  refine .each h fun _ _ h1 => ?_
  split
  · exact .spaceWrite h1 _ _ _
  · exact h1

theorem State.Canonical.zeroOutputs (h : s.Canonical) {c : Nat} {e : FiringEntry} {block fsi : Nat} :
    (s.zeroOutputs c e block fsi).Canonical :=
  .each h fun _ _ h1 => .writeOut h1

theorem State.Canonical.haltUnits (h : s.Canonical) {c : Nat} : (s.haltUnits c).Canonical := .each h fun _ _ h1 => .modUnit h1
theorem State.Canonical.setGrant (h : s.Canonical) {t : Nat} {g : Grant} : (s.setGrant t g).Canonical := .update h

theorem State.Canonical.dropGrants (h : s.Canonical) {c : Nat} : (s.dropGrants c).Canonical :=
  .each h fun _ _ h1 => .ite (.setGrant h1) h1

theorem State.Canonical.cut (h : s.Canonical) {c cause : Nat} : (s.cut c cause).Canonical := by
  unfold State.cut
  dsimp only
  split
  · exact h
  · exact .post (.bump (.errSeen (.each (.modMix (.ite (.put (.put (.putBit (.putBit (.put (.put (.setMask (.modCluster (.each
      (.modCluster (.dropGrants (.haltUnits h))) (fun _ _ h1 => .writeOut h1))) _ _) _ _) _ _) _ _) _ _) _ _) _ _) (.setMask (.modCluster
      (.each (.modCluster (.dropGrants (.haltUnits h))) (fun _ _ h1 => .writeOut h1))) _ _)) _) (fun _ _ h1 => .update h1))) _) _ _ _

theorem State.Canonical.localEcc (h : s.Canonical) {u : Nat} {x0 : Ecc} : (s.localEcc u x0).Canonical := by
  unfold State.localEcc
  split
  · exact h
  · exact .ite (.bumpBy h _ _) h
  · exact .ite (.cut h) h

theorem State.Canonical.servoCut (h : s.Canonical) {k : Nat} : (s.servoCut k).Canonical :=
  .postNow (.setMask (.setMask (.each (.modUnit h) (fun _ _ h1 => .update h1)) _ _) _ _) _ _ _ _

/-! ### The parameter sequencer -/

theorem State.Canonical.queueSeq (h : s.Canonical) {c a : Nat} {l : List Word} : (s.queueSeq c a l).Canonical := .modCluster h

theorem State.Canonical.handoff (h : s.Canonical) {c fsi : Nat} {e : Change} : (s.handoff c fsi e).Canonical := by
  unfold State.handoff
  split
  · exact h
  · exact .queueSeq h

theorem State.Canonical.unhand (h : s.Canonical) {c : Nat} {e : Change} : (s.unhand c e).Canonical := by
  unfold State.unhand
  dsimp only
  split
  · exact h
  · exact .queueSeq h

theorem State.Canonical.settle (h : s.Canonical) {e : Change} : (s.settle e).Canonical := .modMix h _

theorem State.Canonical.seqRetire (h : s.Canonical) {c fsi : Nat} {writes : Bool} : (s.seqRetire c fsi writes).Canonical :=
  .each (.modMix h _) (fun _ _ h1 => .ite (.unhand (.modCluster (.settle h1))) (.modCluster (.settle h1)))

theorem State.Canonical.groupTerms (h : s.Canonical) {e : Change} : (s.groupTerms e).Canonical :=
  .ite (.each h (fun _ _ h1 => .modMix h1 _)) (.ite (.modMix h _) h)

theorem State.Canonical.retireTerms (h : s.Canonical) {fsi : Nat} : (s.retireTerms fsi).Canonical := .modMix h _
theorem State.Canonical.shadowOf (h : s.Canonical) {e : Change} : (s.shadowOf e).Canonical := .ite (.modMix h _) h

theorem State.Canonical.seqApply (h : s.Canonical) {c fsi : Nat} {writes : Bool} {e : Change} : (s.seqApply c fsi writes e).Canonical :=
  .ite (.handoff (.modMix (.groupTerms (.shadowOf (.each h (fun _ _ h1 => .modCluster h1)))) _)) (.modMix (.groupTerms (.shadowOf
    (.each h (fun _ _ h1 => .modCluster h1)))) _)

theorem State.Canonical.shmWords (h : s.Canonical) {c a : Nat} {l : List Word} : (s.shmWords c a l).Canonical :=
  .each h fun _ _ h1 => .withShm h1 (Memory.writeNat_wf _ _ _ _ h1.shm)

theorem State.Canonical.seqWrite (h : s.Canonical) {c : Nat} : (s.seqWrite c).Canonical := by
  unfold State.seqWrite
  dsimp only
  split
  · exact .setCluster (.shmWords h) _ _
  · exact .setCluster (.shmWords h) _ _
  · exact .setCluster h _ _
  · exact h

theorem State.Canonical.sequencerPhase (h : s.Canonical) {c fsi block : Nat} {writes : Bool} :
    (s.sequencerPhase c fsi block writes).Canonical :=
  .ite (.put (.modCluster (.each (.modMix (.seqRetire h) _) (fun _ _ h1 => .seqApply h1))) _ _) (.modCluster (.each (.modMix
    (.seqRetire h) _) (fun _ _ h1 => .seqApply h1)))

theorem State.Canonical.clockTo (h : s.Canonical) {c n : Nat} : (s.clockTo c n).Canonical := by
  unfold State.clockTo
  split
  · exact h
  · exact .modCluster (.each h (fun _ _ h1 => .seqWrite h1))

theorem State.Canonical.ldpRead (h : s.Canonical) {c a : Nat} : (s.ldpRead c a).2.Canonical := by
  unfold State.ldpRead
  split
  · exact h
  · dsimp only
    split
    · exact h
    · dsimp only
      exact .modCluster h

/-! ### The life of a pour on this engine beyond its compilation -/

theorem State.Canonical.countLive (h : s.Canonical) : s.countLive.Canonical := .raise (.put h _ _) _ _
theorem State.Canonical.modPour (h : s.Canonical) {o t : Nat} {f : Pour → Pour} : (s.modPour o t f).Canonical := .update h
theorem State.Canonical.queueCell (h : s.Canonical) {p : Nat} {c : Cell} : (s.queueCell p c).Canonical := .modWl h

theorem State.Canonical.sendCtrl (h : s.Canonical) {dev : Nat} {m : WlPayload} : (s.sendCtrl dev m).Canonical :=
  .ite (.queueCell h) (.ite (.update h) h)

theorem State.Canonical.sendPair (h : s.Canonical) {m : PairMsg} : (s.sendPair m).Canonical :=
  .ite (.update (.queueCell h)) (.queueCell h)

theorem State.Canonical.sendPour (h : s.Canonical) {dev : Nat} {m : PourMsg} : (s.sendPour dev m).Canonical := .sendCtrl h

theorem State.Canonical.closePour (h : s.Canonical) {p : Pour} : (s.closePour p).Canonical := by
  unfold State.closePour
  dsimp only
  refine .ite ?_ h
  split
  · refine .finish ?_ _ _ _ _ _ _
    split
    · exact .finish (.update h) _ _ _ _ _ _
    · exact .update h
  · split
    · exact .finish (.update h) _ _ _ _ _ _
    · exact .update h

theorem State.Canonical.pourReport (h : s.Canonical) {p : Pour} {dev : Nat} {st : Status} {flags si detail : Nat} {applied : Bool} :
    (s.pourReport p dev st flags si detail applied).Canonical := by
  unfold State.pourReport
  dsimp only
  split
  · exact .closePour (.modPour (.postTo h _ _ _))
  · exact .modPour (.postTo h _ _ _)

theorem State.Canonical.endPour (h : s.Canonical) {p : Pour} {ph : PourPhase} {st : Status} {detail : Nat} :
    (s.endPour p ph st detail).Canonical := by
  unfold State.endPour
  dsimp only
  split
  · split
    · exact .bump (.countLive (.modPour h)) _
    · exact .bump (.countLive (.modPour h)) _
    · exact .countLive (.modPour h)
  · refine .ite (.closePour ?_) (.ite (.pourReport ?_) (.closePour (.sendPour ?_)))
    · split
      · exact .bump (.countLive (.modPour h)) _
      · exact .bump (.countLive (.modPour h)) _
      · exact .countLive (.modPour h)
    · split
      · exact .bump (.countLive (.modPour h)) _
      · exact .bump (.countLive (.modPour h)) _
      · exact .countLive (.modPour h)
    · split
      · exact .bump (.countLive (.modPour h)) _
      · exact .bump (.countLive (.modPour h)) _
      · exact .countLive (.modPour h)

theorem State.Canonical.retireWaits (h : s.Canonical) : s.retireWaits.Canonical :=
  .each (.modMix h _) fun _ _ h1 => .finish h1 _ _ _ _ _ _

theorem State.Canonical.retirePours (h : s.Canonical) : s.retirePours.Canonical :=
  .each (.retireWaits h) (fun _ _ h1 => .ite h1 (.ite (.endPour h1) (.endPour h1)))

/-! ### Addresses and the patch -/

theorem State.Canonical.countPool (h : s.Canonical) : s.countPool.Canonical := .raise (.put h _ _) _ _
theorem State.Canonical.takeAsrc (h : s.Canonical) {a : Nat} : (s.takeAsrc a).Canonical := .update h
theorem State.Canonical.dropAsrc (h : s.Canonical) {a : Nat} : (s.dropAsrc a).Canonical := .update h
theorem State.Canonical.modAsrc (h : s.Canonical) {a : Nat} {f : AsrcCh → AsrcCh} : (s.modAsrc a f).Canonical := .update h

theorem State.Canonical.showAsrc (h : s.Canonical) {a : Nat} : (s.showAsrc a).Canonical := by
  unfold State.showAsrc
  split
  · exact .ite (.put h _ _) h
  · exact h

theorem State.Canonical.restartAsrc (h : s.Canonical) {a : Nat} : (s.restartAsrc a).Canonical := .showAsrc (.modAsrc h)

theorem State.Canonical.restartSource (h : s.Canonical) {a : Nat} : (s.restartSource a).Canonical :=
  .each h fun _ _ h1 => .ite (.restartAsrc h1) h1

/-! ### Stream records -/

theorem State.Canonical.netLater (h : s.Canonical) {hd : CmdHdr} {o : NetOp} : (s.netLater hd o).Canonical := .update h

theorem State.Canonical.streamCmd (h : s.Canonical) {hd : CmdHdr} {op : Nat} {rx : Bool} {addr : Nat} {r : StreamRec} :
    (s.streamCmd hd op rx addr r).Canonical := by
  unfold State.streamCmd
  refine .ite (.refuse h) ?_
  split
  · exact .refuse h
  · exact .netLater h

theorem answers_execNetStreamTx {hd : CmdHdr} {addr : Nat} {r : StreamRec} : s.Answers (execNetStreamTx hd addr r s) :=
  .next fun h => .streamCmd h

theorem answers_execNetStreamRx {hd : CmdHdr} {addr : Nat} {r : StreamRec} : s.Answers (execNetStreamRx hd addr r s) :=
  .next fun h => .streamCmd h

theorem answers_execNetStreamDel {hd : CmdHdr} {dir n : Nat} : s.Answers (execNetStreamDel hd dir n s) := by
  unfold execNetStreamDel
  refine .ite (.next fun h => .refuse h) ?_
  split
  · exact .ite (.next fun h => .refuse h) (.next fun h => .netLater h)
  · exact .next fun h => .netLater h

theorem answers_execNetStreamStat {hd : CmdHdr} {dir first count addr : Nat} : s.Answers (execNetStreamStat hd dir first count addr s) :=
  .ite (.next fun h => .refuse h) (.ite (.next fun h => .refuse h) (.next fun h => .netLater h))

theorem answers_execNetClsRule {hd : CmdHdr} {addr : Nat} {r : RuleRec} : s.Answers (execNetClsRule hd addr r s) :=
  .ite (.next fun h => .refuse (.set h _)) (.ite (.next fun h => .refuse (.set h _)) (.next fun h => .netLater h))

theorem answers_execNetCue {hd : CmdHdr} {r : CueRec} : s.Answers (execNetCue hd r s) :=
  .ite (.next fun h => .netLater h) (.next fun h => .refuse h)

theorem answers_execNetJoin {hd : CmdHdr} {port op addr group source : Nat} : s.Answers (execNetJoin hd port op addr group source s) :=
  .ite (.next fun h => .refuse h) (.ite (.next fun h => .refuse h) (.ite (.next fun h => .refuse h) (.next fun h => .netLater h)))

/-! ### What takes effect at the boundary -/

theorem State.Canonical.startStream (h : s.Canonical) {rx : Bool} {r : StreamRec} : (s.startStream rx r).Canonical := by
  unfold State.startStream
  dsimp only
  refine .ite (.countPool (.update (.ite (.each ?_ (fun _ _ h1 => .takeAsrc h1)) ?_))) (.update h)
  · split
    · exact .ite (.each h (fun _ _ h1 => .dropAsrc h1)) h
    · exact h
  · split
    · exact .ite (.each h (fun _ _ h1 => .dropAsrc h1)) h
    · exact h

theorem State.Canonical.stopStream (h : s.Canonical) {rx : Bool} {n : Nat} : (s.stopStream rx n).Canonical := by
  unfold State.stopStream
  dsimp only
  refine .ite (.countPool (.update ?_)) (.update h)
  split
  · exact .ite (.each h (fun _ _ h1 => .dropAsrc h1)) h
  · exact h

theorem State.Canonical.countCells (h : s.Canonical) {p : Nat} : (s.countCells p).Canonical := .put h _ _

theorem State.Canonical.stopFlow (h : s.Canonical) {rx : Bool} {port key : Nat} : (s.stopFlow rx port key).Canonical := by
  unfold State.stopFlow
  dsimp only
  refine .ite (.countPool (.modWl ?_)) (.countCells (.modWl h))
  split
  · exact .ite (.each h (fun _ _ h1 => .dropAsrc h1)) h
  · exact h

theorem State.Canonical.startFlow (h : s.Canonical) {rx : Bool} {r : FlowRec} : (s.startFlow rx r).Canonical :=
  .ite (.countPool (.modWl (.ite (.each (.stopFlow h) (fun _ _ h1 => .takeAsrc h1)) (.stopFlow h)))) (.countCells (.modWl h))

theorem State.Canonical.answerWait (h : s.Canonical) {op tag dev : Nat} {st : Status} : (s.answerWait op tag dev st).Canonical := by
  unfold State.answerWait
  dsimp only
  split
  · exact h
  · exact .ite (.finish (.update h) _ _ _ _ _ _) (.update h)

theorem State.Canonical.sendImage (h : s.Canonical) {hd : CmdHdr} {i : ProgImage} {dev : Nat} : (s.sendImage hd i dev).Canonical :=
  .ite (.each h (fun _ _ h1 => .queueCell h1)) (.answerWait h)

theorem State.Canonical.applyNetOp (h : s.Canonical) {hd : CmdHdr} {o : NetOp} : (s.applyNetOp hd o).Canonical := by
  unfold State.applyNetOp
  dsimp only
  split
  · exact .finish (.startStream h) _ _ _ _ _ _
  · exact .finish (.stopStream h) _ _ _ _ _ _
  · exact .report h
  · exact .finish (.update h) _ _ _ _ _ _
  · exact .finish (.update h) _ _ _ _ _ _
  · exact .finish (.update h) _ _ _ _ _ _
  · exact .finish (.update h) _ _ _ _ _ _
  · exact .finish (.startFlow h) _ _ _ _ _ _
  · exact .finish (.stopFlow h) _ _ _ _ _ _
  · exact .finish (.put h _ _) _ _ _ _ _ _
  · exact .sendCtrl (.update h)
  · split
    · exact .finish h _ _ _ _ _ _
    · exact .each (.update h) fun _ _ h1 => .sendImage h1

theorem State.Canonical.applyNetOps (h : s.Canonical) : s.applyNetOps.Canonical := .each (.update h) fun _ _ h1 => .applyNetOp h1

/-! ### Sample forms (R115, R116, R118) -/

theorem answers_execStreamPacketTx {n : Fin 512} : s.Answers (execStreamPacketTx n s) := by
  unfold execStreamPacketTx
  dsimp only
  split
  · exact .next id
  · exact .ite (.next fun h => .each (.update h) (fun _ _ h1 => .bump h1 _)) (.next id)

theorem answers_execStreamLoss {n : Fin 512} : s.Answers (execStreamLoss n s) := by
  unfold execStreamLoss
  dsimp only
  split
  · exact .next id
  · exact .ite (.next id) (.next fun h => .postNow (.each (.update h) (fun _ _ h1 => .restartSource h1)) _ _ _ _)

/-! ### Modules, links, MACsec -/

theorem State.Canonical.netLink (h : s.Canonical) {x : Nat} {up : Bool} : (s.netLink x up).Canonical :=
  .ite h (.postNow (.putBit h _ _) _ _ _ _)

theorem State.Canonical.refuseModule (h : s.Canonical) {x : Nat} : (s.refuseModule x).Canonical :=
  .postNow (.set (.netLink (.put h _ _)) _) _ _ _ _

theorem State.Canonical.recheckModule (h : s.Canonical) {x : Nat} : (s.recheckModule x).Canonical :=
  .ite (.ite (.set (.take h) _) (.refuseModule (.take h))) h

theorem answers_execNetModuleInsert {x : Fin 3} {a0 : List Byte} {rateOk : Bool} : s.Answers (execNetModuleInsert x a0 rateOk s) :=
  .ite (.next fun h => .postNow (.set (.each (.set h _) (fun _ _ h1 => .put h1 _ _)) _) _ _ _ _) (.next fun h => .refuseModule (.each
    (.set h _) (fun _ _ h1 => .put h1 _ _)))

theorem answers_execNetDdmPoll {x : Fin 3} {a2 : List Byte} {alarm los : Bool} : s.Answers (execNetDdmPoll x a2 alarm los s) :=
  .ite (.next fun h => .ite (.ite (.set (.putBit (.each h (fun _ _ h1 => .put h1 _ _)) _ _) _) (.postNow (.set (.putBit (.each h
    (fun _ _ h1 => .put h1 _ _)) _ _) _) _ _ _ _)) (.putBit (.each h (fun _ _ h1 => .put h1 _ _)) _ _)) (.next id)

theorem answers_execNetModuleRemoved {x : Fin 3} : s.Answers (execNetModuleRemoved x s) :=
  .ite (.next fun h => .postNow (.netLink (.put (.put h _ _) _ _)) _ _ _ _) (.next id)

theorem answers_execNetLinkChange {x : Fin 3} {up : Bool} : s.Answers (execNetLinkChange x up s) :=
  .ite (.next id) (.next fun h => .netLink h)

theorem answers_execMacsecKeyAgreement {x : Fin 2} {rolled : Bool} {rxSc : Fin 65} : s.Answers (execMacsecKeyAgreement x rolled rxSc s) :=
  .ite (.next id) (.next fun h => .postNow (.put (.set h _) _ _) _ _ _ _)

theorem answers_execMacsecPeerLost {x : Fin 2} : s.Answers (execMacsecPeerLost x s) :=
  .ite (.next fun h => .postNow (.put (.put h _ _) _ _) _ _ _ _) (.next id)

theorem answers_execNetxCntClr {x : Fin 3} : s.Answers (execNetxCntClr x s) := .ifHost (.next fun h => .clear h _)
theorem answers_execClsCntClr : s.Answers (execClsCntClr s) := .ifHost (.next fun h => .clear h _)

/-! ### Port configurations -/

theorem State.Canonical.enablePort (h : s.Canonical) {p : Nat} : (s.enablePort p).Canonical :=
  .ite h (.ite (.set h _) (.ite (.set h _) (.ite (.set h _) (.countPool (.each (.set h _) (fun _ _ h1 => .takeAsrc h1))))))

theorem State.Canonical.disablePort (h : s.Canonical) {p : Nat} : (s.disablePort p).Canonical :=
  .countPool (.each (.put h _ _) (fun _ _ h1 => .dropAsrc h1))

theorem answers_execAportStart {p : Fin 16} : s.Answers (execAportStart p s) :=
  .ite (.next fun h => .put (.put (.set (.update h) _) _ _) _ _) (.next id)

theorem answers_execAportStop {p : Fin 16} : s.Answers (execAportStop p s) := .ite (.next fun h => .set (.put h _ _) _) (.next id)

theorem State.Canonical.aportFault (h : s.Canonical) {p cause : Nat} : (s.aportFault p cause).Canonical :=
  .ite h (.postNow (.update h) _ _ _ _)

theorem State.Canonical.damage (h : s.Canonical) {p k moved : Nat} : (s.damage p k moved).Canonical :=
  .each h fun _ _ h1 => .ite (.modMix h1 _) (.update h1)

theorem State.Canonical.phaseAfter (h : s.Canonical) {p k moved : Nat} : (s.phaseAfter p k moved).Canonical :=
  .ite (.ite (.ite (.putBit (.update h) _ _) (.aportFault (.set (.putBit (.update h) _ _) _))) (.update h)) h

theorem answers_execAportUnderrun {p : Fin 16} {k moved : Nat} : s.Answers (execAportUnderrun p k moved s) :=
  .ite (.next fun h => .aportFault (.phaseAfter (.damage (.bump (.set h _) _)))) (.next id)

theorem answers_execAportOverrun {p : Fin 16} {k moved : Nat} : s.Answers (execAportOverrun p k moved s) :=
  .ite (.next fun h => .aportFault (.phaseAfter (.damage (.bump (.set h _) _)))) (.next id)

theorem answers_execAportFramingError {g : Fin 4} {k : Nat} : s.Answers (execAportFramingError g k s) :=
  .next fun h => .each h (fun _ _ h1 => .ite (.aportFault (.damage (.bump (.set h1 _) _))) h1)

theorem answers_execPairSwapDetect {p : Fin 16} : s.Answers (execPairSwapDetect p s) :=
  .ite (.next fun h => .aportFault (.set (.set h _) _)) (.next id)

theorem answers_execAportCntClr : s.Answers (execAportCntClr s) := .ifHost (.next fun h => .clear h _)

/-! ### The ASRC bank -/

theorem answers_execAsrcNarrow {a : Nat} {ratio : BitVec 32} : s.Answers (execAsrcNarrow a ratio s) := by
  unfold execAsrcNarrow
  dsimp only
  split
  · exact .next id
  · exact .next fun h => .showAsrc (.ite (.put (.ite (.modAsrc h) h) _ _) (.ite (.modAsrc h) h))

theorem answers_execAsrcRelease {a : Nat} : s.Answers (execAsrcRelease a s) := by
  unfold execAsrcRelease
  dsimp only
  split
  · exact .next id
  · exact .ite (.next id) (.next fun h => .ite (.postNow (.put (.modAsrc h) _ _) _ _ _ _) (.modAsrc h))

theorem answers_execAsrcRetrack {a : Nat} : s.Answers (execAsrcRetrack a s) := by
  unfold execAsrcRetrack
  split
  · exact .next id
  · exact .next fun h => .showAsrc (.bump (.modAsrc h) _)

theorem answers_execAsrcRestart {a : Nat} : s.Answers (execAsrcRestart a s) :=
  .next fun h => .ite (.put (.restartAsrc h) _ _) (.restartAsrc h)

/-! ### AES3 -/

theorem answers_execAesRxLock {n : Fin 8} {rate : Fin 7} {ratio : BitVec 32} : s.Answers (execAesRxLock n rate ratio s) :=
  .ite (.next fun h => .showAsrc (.each (.put (.put (.put h _ _) _ _) _ _) (fun _ _ h1 => .ite (.restartAsrc h1) (.takeAsrc h1))))
    (.next id)

theorem State.Canonical.rxUnlock (h : s.Canonical) {n : Nat} : (s.rxUnlock n).Canonical :=
  .each (.loseAes (.put h _ _)) fun _ _ h1 => .restartSource h1

theorem State.Canonical.showGated (h : s.Canonical) : s.showGated.Canonical := .each h fun _ _ h1 => .putBit h1 _ _
theorem State.Canonical.disableAesRx (h : s.Canonical) {n : Nat} : (s.disableAesRx n).Canonical := .rxUnlock (.put h _ _)
theorem State.Canonical.disableAesTx (h : s.Canonical) {n : Nat} : (s.disableAesTx n).Canonical := .put (.put (.put h _ _) _ _) _ _

theorem answers_execAesRxLockLoss {n : Fin 8} : s.Answers (execAesRxLockLoss n s) :=
  .ite (.next fun h => .postNow (.set (.rxUnlock h) _) _ _ _ _) (.next id)

theorem State.Canonical.takeCs (h : s.Canonical) {n sub : Nat} {l : List Byte} : (s.takeCs n sub l).1.Canonical := by
  unfold State.takeCs
  exact .iteFst (.loseAes (.bump (.set h _) _)) (.putBit (.update h) _ _)

theorem answers_execAesCsBlock {n : Fin 8} {a b : List Byte} : s.Answers (execAesCsBlock n a b s) :=
  .ite (.next id) (.ite (.next fun h => .postNow (.set (.takeCs (.takeCs h)) _) _ _ _ _) (.next fun h => .takeCs (.takeCs h)))

theorem answers_execAesRxCsSnap {n : Fin 8} : s.Answers (execAesRxCsSnap n s) :=
  .ifHost (.next fun h => .each h (fun _ _ h1 => .put (.put h1 _ _) _ _))

theorem answers_execAesTxCommit {n : Fin 8} : s.Answers (execAesTxCommit n s) := .ifHost (.next fun h => .set h _)

theorem answers_execAesTxBlockStart {n : Fin 8} : s.Answers (execAesTxBlockStart n s) :=
  .ite (.next fun h => .put (.update h) _ _) (.next id)

theorem answers_execAesTxStart {n : Fin 8} : s.Answers (execAesTxStart n s) := .next fun h => .ite (.set h _) h
theorem answers_execAesCntClr : s.Answers (execAesCntClr s) := .ifHost (.next fun h => .put (.clear h _) _ _)

/-! ### Stage offsets (R48, R287, R288) -/

theorem State.Canonical.tableRows (h : s.Canonical) {d : Nat} {row : Nat × Nat × Option Nat → List (Nat × Option Nat)} :
    (s.tableRows d row).Canonical := by
  refine .each h fun c t h1 => ?_
  split
  · exact h1
  · refine .ite h1 ?_
    split
    · exact h1
    · refine .each h1 fun w u h2 => ?_
      split
      · exact .withShm h2 (Memory.writeNat_wf _ _ _ _ h2.shm)
      · exact h2

theorem State.Canonical.tableDest (h : s.Canonical) {dst d : Nat} : (s.tableDest dst d).Canonical := .tableRows h
theorem State.Canonical.tableSource (h : s.Canonical) {a d : Nat} : (s.tableSource a d).Canonical := .tableRows h

theorem State.Canonical.tables (h : s.Canonical) {i : SchedImage} {d : Nat} : (s.tables i d).Canonical :=
  .each (.each h (fun _ _ h1 => .tableSource h1)) fun _ _ h1 => .tableDest h1

theorem State.Canonical.stageBlock (h : s.Canonical) {i : SchedImage} {d lo hi : Nat} : (s.stageBlock i d lo hi).Canonical :=
  .ite h (.tables (.modMix h _))

theorem State.Canonical.setBridges (h : s.Canonical) {i : SchedImage} : (s.setBridges i).Canonical :=
  .ite h (.countPool (.each (.each h (fun _ _ h1 => .dropAsrc h1)) (fun _ _ h1 => .ite (.takeAsrc h1) h1)))

theorem State.Canonical.stageNow (h : s.Canonical) {d : Nat} : (s.stageNow d).Canonical := by
  unfold State.stageNow
  split
  · exact .setBridges (.stageBlock h)
  · exact h

/-! ### Crossfades (R102–R107, R146–R148) -/

theorem State.Canonical.addFades (h : s.Canonical) {fs : List Crossfade} : (s.addFades fs).Canonical :=
  .each (.modMix h _) fun _ _ h1 => .update (.modMix h1 _)

/-! ### Acceptance -/

theorem State.Canonical.showSeq (h : s.Canonical) {l : List Change} : (s.showSeq l).Canonical :=
  .each h fun _ _ h1 => .raise (.put h1 _ _) _ _

theorem State.Canonical.commitPlan (h : s.Canonical) {p : Plan} : (s.commitPlan p).Canonical :=
  .bumpBy (.bumpBy (.showSeq (.addFades (.modMix h _))) _ _) _ _

theorem State.Canonical.complete (h : s.Canonical) {hd : CmdHdr} {op id : Nat} {st : Status} {si : Nat} :
    (s.complete hd op id st si).Canonical :=
  .ite (.modMix h _) (.finish h _ _ _ _ _ _)

theorem State.Canonical.mirrorOut (h : s.Canonical) {m : MirrorCmd} : (s.mirrorOut m).Canonical := .ite (.update (.sendPair h)) h

theorem State.Canonical.paramSet (h : s.Canonical) {target ramp : Nat} {eqPower : Bool} {l : ListAt} {items : List ParamItem}
    {waiters : List Nat} : (s.paramSet target ramp eqPower l items waiters).1.Canonical := by
  unfold State.paramSet
  split
  · exact h
  · split
    · exact .put h _ _
    · exact h
    · exact .mirrorOut (.commitPlan h)

theorem answers_execParamSet {hd : CmdHdr} {ramp : Nat} {l : ListAt} {items : List ParamItem} :
    s.Answers (execParamSet hd ramp l items s) := by
  unfold execParamSet
  dsimp only
  split
  · exact .next fun h => .refuse h
  · refine .ite (.next fun h => .refuse h) (.next fun h => ?_)
    split
    · exact .complete (.paramSet h)
    · exact .complete (.paramSet h)
    · exact .finish (.paramSet h) _ _ _ _ _ _

/-! ### Patch changes (R67–R73, R105, R107, R112) -/

theorem State.Canonical.commitPatches (h : s.Canonical) {l : List PlannedPatch} {order : Nat} {pour : Option (Nat × Nat)}
    {waiters : List Nat} (e : s.commitPatches l order pour waiters = .ok t) : t.Canonical := by
  unfold State.commitPatches at e
  split at e
  · cases e
  · dsimp only at e
    split_ifs at e
    split at e
    · cases e
    · cases e
      exact .addFades (.modMix h _)

theorem State.Canonical.routeSet (h : s.Canonical) {target len : Nat} {eqPower : Bool} {at_ : ListAt} {items : List RouteItem}
    {waiters : List Nat} : (s.routeSet target len eqPower at_ items waiters).1.Canonical := by
  unfold State.routeSet
  split
  · exact h
  · split
    · exact h
    · next _ e => exact .mirrorOut (.bumpBy (.commitPatches h e) _ _)

theorem answers_execRoute {hd : CmdHdr} {ramp law : Nat} {l : ListAt} {items : List RouteItem} :
    s.Answers (execRoute hd ramp law l items s) := by
  unfold execRoute
  dsimp only
  refine .ite (.next fun h => .refuse h) ?_
  split
  · exact .next fun h => .refuse h
  · refine .ite (.next fun h => .refuse h) (.next fun h => ?_)
    split
    · exact .complete (.routeSet h)
    · exact .complete (.routeSet h)
    · exact .finish (.routeSet h) _ _ _ _ _ _

/-! ### Meters (R122–R129, R443) -/

theorem answers_execMeterSubOpen {hd : CmdHdr} {period addr : Nat} {points : List Nat} {buf : Nat} :
    s.Answers (execMeterSubOpen hd period addr points buf s) := by
  unfold execMeterSubOpen
  dsimp only
  refine .ite (.next fun h => .refuse h) (.ite (.next fun h => .refuse h) (.ite (.next fun h => .refuse h) (.ite (.next fun h =>
    .refuse h) ?_)))
  split
  · exact .next fun h => .refuse h
  · split
    · exact .next fun h => .refuse h
    · refine .ite (.next fun h => .refuse h) ?_
      split
      · exact .next fun h => .refuse h
      · exact .ite (.next fun h => .finish (.modMix h _) _ _ _ _ _ _) (.next fun h => .refuse h)

theorem answers_execMeterSubClose {hd : CmdHdr} {n : Nat} : s.Answers (execMeterSubClose hd n s) :=
  .ite (.next fun h => .ok (.modMix h _)) (.next fun h => .refuse h)

theorem State.Canonical.closeMeter (h : s.Canonical) {n : Nat} {x : MeterSub} : (s.closeMeter n x).Canonical :=
  .postTo (.modMix h _) _ _ _

/-! ### Queries (R58, R446) -/

theorem answers_execQueryPath {hd : CmdHdr} {dst src : Nat} : s.Answers (execQueryPath hd dst src s) := by
  unfold execQueryPath
  split
  · exact .next fun h => .finish h _ _ _ _ _ _
  · exact .next fun h => .refuse h

theorem answers_execQueryValue {hd : CmdHdr} {handle : Nat} : s.Answers (execQueryValue hd handle s) := by
  unfold execQueryValue
  dsimp only
  split
  · exact .next fun h => .refuse h
  · exact .ite (.next fun h => .refuse h) (.next fun h => .finish h _ _ _ _ _ _)

end Sys2Proof.Machine
end

