-- ==== Sys2Proof/Proofs/CanonicalFirings.lean ====
section
/-! SUPPORT. The canonical form of registers and memories is kept by glaze, the compute units, firings and pours: one lemma per
operation, in the order of the model; each follows the shape of its definition. -/

namespace Sys2Proof.Machine

variable {s t u : State}


/-! ### The glaze engine and the tap engine (R306–R322) -/

theorem State.Canonical.fill (h : s.Canonical) {l : List (Option Word)} : (s.fill l).2.Canonical := by
  induction l generalizing s with
  | nil => exact h
  | cons x l ih =>
    cases x with
    | none => exact ih h.take
    | some w => exact ih h

/-! ### Glaze sections -/

theorem State.Canonical.moveCoefs (h : s.Canonical) {a b : Nat} {r : GlazeRun} : (s.moveCoefs a b r).Canonical :=
  .ite (.each h fun _ _ h1 => .withGlz h1 (Memory.writeNat_wf _ _ _ _ h1.glz)) h

theorem State.Canonical.moveStates (h : s.Canonical) {a : Nat} : (s.moveStates a).Canonical := .freeGlz (.freeGlz h _ _) _ _

theorem State.Canonical.glazeCompute (h : s.Canonical) {c : Nat} {f : Firing} {r : GlazeRun} : (s.glazeCompute c f r).Canonical := by
  have seen : (if r.stable then s else (s.set (Reg.FABRIC_CL_GLAZE_UNSTABLE c)).bump (Reg.FABRIC_CL_GLAZE_UNSTABLE_CNT c)).Canonical :=
    .ite h (.bump (.set h _) _)
  unfold State.glazeCompute
  split
  · exact h
  · exact .modCluster (.iteSnd (.moveCoefs seen) (.fill (.when (.moveCoefs seen) fun _ h1 => .moveStates h1)))

theorem State.Canonical.glazeRead (h : s.Canonical) {c : Nat} {f : Firing} {r : GlazeRun} {l : List Word} :
    (s.glazeRead c f r l).Canonical :=
  .ite (.glazeCompute h) (.modCluster h)

theorem State.Canonical.glazeWrote (h : s.Canonical) {c : Nat} : (s.glazeWrote c).Canonical := .modCluster h

theorem answers_execGlazeSectionStart {c : Fin 64} {late : Bool} : s.Answers (execGlazeSectionStart c late s) := by
  unfold execGlazeSectionStart
  dsimp only
  split
  · exact .next id
  · split
    · exact .next id
    · exact .ite (.next id) (.next fun h => .modCluster (.when h (fun _ h1 => .set h1 _)))

/-! ### Taps -/

theorem State.Canonical.writeTap (h : s.Canonical) {a : Nat} {t : Tap} : (s.writeTap a t).Canonical :=
  .withDly h (Memory.writeNat_wf _ _ _ _ (Memory.writeNat_wf _ _ _ _ (Memory.writeNat_wf _ _ _ _ (Memory.writeNat_wf _ _ _ _ h.dly))))

theorem State.Canonical.runTap (h : s.Canonical) {g fsi block a due : Nat} {lines : List (Nat × Nat)} {bad : List Nat} :
    (s.runTap g fsi block a due lines bad).Canonical := by
  unfold State.runTap
  dsimp only
  exact .modUnit (.bumpBy (.writeTap (.fill h)) _ _)

theorem State.Canonical.startTaps (h : s.Canonical) {i : SchedImage} {g fsi block : Nat} {l : TapList} {corr : Nat} {bad : List Nat} :
    (s.startTaps i g fsi block l corr bad).Canonical :=
  .each (.bumpBy (.bumpBy (.when h (fun _ h1 => .errSeen h1)) _ _) _ _) fun _ _ h1 => .runTap h1

/-! ### The issue of an operation, the landing of results, the end of a bundle, and traps (R180–R218) -/

theorem State.Canonical.issue (h : s.Canonical) {o : Op} {act : UnitSt → UnitSt} : (s.issue o act).Canonical := .ite (.setUnit h _ _) h

/-! ### Halting and traps -/

theorem State.Canonical.gatherFlags (h : s.Canonical) {u : Nat} : (s.gatherFlags u).Canonical := .ite (.put (.put h _ _) _ _) h

theorem State.Canonical.takeTrap (h : s.Canonical) {u : Nat} {t : TrapInfo} : (s.takeTrap u t).Canonical :=
  .ite (.setUnit (.ite (.put (.bump (.put h _ _) _) _ _) h) _ _) (.ite (.postNow (.gatherFlags (.setUnit (.errSeen (.ite (.putBit (.set
    (.ite (.put (.bump (.put h _ _) _) _ _) h) _) _ _) (.ite (.put (.bump (.put h _ _) _) _ _) h))) _ _)) _ _ _ _) (.servoCut (.postNow
    (.gatherFlags (.setUnit (.errSeen (.ite (.putBit (.set (.ite (.put (.bump (.put h _ _) _) _ _) h) _) _ _) (.ite (.put (.bump
    (.put h _ _) _) _ _) h))) _ _)) _ _ _ _)))

theorem State.Canonical.faultTrap (h : s.Canonical) {u : Nat} {cause detail slot : Nat} : (s.faultTrap u cause detail slot).Canonical :=
  .takeTrap (.modUnit h)

theorem State.Answers.legal {o : Op} {slot : Nat} {item : Option Nat} {go : Out} (a : s.Answers go) : s.Answers
    (s.legal o slot item go) := by
  unfold State.legal
  refine .ite ?_ (.next id)
  split
  · exact .next fun h => .faultTrap h
  · exact a

theorem State.Canonical.enterTrap (h : s.Canonical) {u : Nat} {t : TrapInfo × Bool} : (s.enterTrap u t).Canonical :=
  .takeTrap (.when h (fun _ h1 => .modUnit h1))

theorem answers_execTrapEntry {g : GapFetch} : s.Answers (execTrapEntry g s) := by
  unfold execTrapEntry
  dsimp only
  refine .ite (.next fun h => .ite (.cut h) (.servoCut h)) ?_
  split
  · exact .next fun h => .enterTrap h
  · exact .next id

theorem answers_execResultLands {u : Fin 516} : s.Answers (execResultLands u s) := .next fun h => .modUnit h

/-! ### The memory and move operations of slot L (R255–R262), up to the shared-memory port (R277–R281) -/

theorem State.Answers.checked {op : Nat} {o : Op} {go : State → State} (keeps : ∀ t, t.Canonical → (go t).Canonical) :
    s.Answers (s.checked op o go) := by
  refine .legal (.ite ?_ (.next fun h => .issue h))
  split
  · exact .next fun h => .faultTrap h
  · exact .next fun h => keeps _ h

theorem answers_loadLocal {op : Nat} {o : Op} {size : Nat} {e : Ecc} {land : UnitSt → Memory → Nat → UnitSt} :
    s.Answers (loadLocal op o size e land s) :=
  .checked fun _ h => .issue (.localEcc h)

theorem answers_execLdl32a {o : Op} {e : Ecc} : s.Answers (execLdl32a o e s) := answers_loadLocal
theorem answers_execLdl32f {o : Op} {e : Ecc} : s.Answers (execLdl32f o e s) := answers_loadLocal
theorem answers_execLdl64 {o : Op} {e : Ecc} : s.Answers (execLdl64 o e s) := answers_loadLocal

theorem answers_storeLocal {op : Nat} {o : Op} {size : Nat} {e : Ecc} {data : UnitSt → Nat} : s.Answers
    (storeLocal op o size e data s) := by
  refine .checked fun u h => .issue ?_
  have read : (u.localEcc o.u.val e).Canonical := .localEcc h
  exact .ite read (.withLmem read (Memory.writeNat_wf _ _ _ _ read.lmem))

theorem answers_execStl32a {o : Op} {e : Ecc} : s.Answers (execStl32a o e s) := answers_storeLocal
theorem answers_execStl32f {o : Op} {e : Ecc} : s.Answers (execStl32f o e s) := answers_storeLocal
theorem answers_execStl64 {o : Op} : s.Answers (execStl64 o s) := answers_storeLocal
theorem State.Canonical.readLost (h : s.Canonical) {u : Nat} : (s.readLost u).Canonical := .ite (.bump (.setMask (.errSeen h) _ _) _) h

theorem State.Canonical.writeLost (h : s.Canonical) {c req : Nat} : (s.writeLost c req).Canonical :=
  .ite (.modUnit (.bump (.setMask (.errSeen h) _ _) _)) (.bump (.setMask (.errSeen h) _ _) _)

theorem State.Canonical.presentRead (h : s.Canonical) {u : Nat} {r : ReadReq} : (s.presentRead u r).Canonical := by
  unfold State.presentRead
  dsimp only
  split
  · exact .setUnit h _ _
  · exact .setUnit h _ _
  · exact .readLost h

theorem State.Canonical.presentWrite (h : s.Canonical) {u : Nat} {w : WriteReq} : (s.presentWrite u w).Canonical := by
  unfold State.presentWrite
  dsimp only
  split
  · exact .setUnit h _ _
  · exact .setUnit h _ _
  · exact .writeLost h

theorem answers_loadShared {op : Nat} {o : Op} {inc form : Nat} {dest : UnitSt → List Dest} :
    s.Answers (loadShared op o inc form dest s) :=
  .checked fun _ h => .issue (.presentRead h)

theorem answers_execLds32a {o : Op} : s.Answers (execLds32a o s) := answers_loadShared
theorem answers_execLds32f {o : Op} : s.Answers (execLds32f o s) := answers_loadShared
theorem answers_execLds64 {o : Op} : s.Answers (execLds64 o s) := answers_loadShared
theorem answers_execLdp {o : Op} : s.Answers (execLdp o s) := answers_loadShared
theorem answers_execLdsB256 {o : Op} : s.Answers (execLdsB256 o s) := answers_loadShared

theorem answers_storeShared {op : Nat} {o : Op} {size : Nat} {data : UnitSt → Dword} : s.Answers (storeShared op o size data s) :=
  .checked fun _ h => .issue (.presentWrite h)

theorem answers_execSts32a {o : Op} : s.Answers (execSts32a o s) := answers_storeShared
theorem answers_execSts32f {o : Op} : s.Answers (execSts32f o s) := answers_storeShared
theorem answers_execSts64 {o : Op} : s.Answers (execSts64 o s) := answers_storeShared
theorem State.Canonical.deliverTaps (h : s.Canonical) {u cyc : Nat} : (s.deliverTaps u cyc).Canonical := .bumpBy (.setUnit h _ _) _ _
theorem answers_execLdt {o : Op} : s.Answers (execLdt o s) := .legal (.next fun h => .issue (.deliverTaps h))
theorem answers_execMovfa {o : Op} : s.Answers (execMovfa o s) := .legal (.next fun h => .issue h)
theorem answers_execMovaf {o : Op} : s.Answers (execMovaf o s) := .legal (.next fun h => .issue h)

/-! ### Region clocks (R402–R407) -/

theorem State.Canonical.setPoints (h : s.Canonical) {i : SchedImage} {d : Nat} : (s.setPoints i d).Canonical :=
  .each h fun _ _ h1 => .put h1 _ _

theorem answers_execRegionClockStart {g : Fin 8} : s.Answers (execRegionClockStart g s) :=
  .next fun h => .ite (.modRegion (.put (.set h _) _ _) _ _) h

theorem answers_execAdpllLock {g : Fin 8} : s.Answers (execAdpllLock g s) := .next fun h => .ite (.set h _) h
theorem State.Canonical.endClockStart (h : s.Canonical) {g : Nat} : (s.endClockStart g).Canonical := .ite (.modRegion (.put h _ _) _ _) h

theorem State.Canonical.toBypass (h : s.Canonical) {g : Nat} : (s.toBypass g).Canonical :=
  .ite (.set (.set h _) _) (.postNow (.errSeen (.set (.set h _) _)) _ _ _ _)

theorem answers_execBypassFallback {g : Fin 8} : s.Answers (execBypassFallback g s) :=
  .next fun h => .ite (.modRegion (.toBypass (.bump h _)) _ _) h

theorem answers_execAdpllLossOfLock {g : Fin 8} : s.Answers (execAdpllLossOfLock g s) :=
  .next fun h => .ite (.modRegion (.toBypass (.bump (.put h _ _) _)) _ _) h

theorem State.Canonical.stopClock (h : s.Canonical) {g : Nat} : (s.stopClock g).Canonical := .modRegion (.put (.put h _ _) _ _) _ _
theorem answers_execRegionClockStop {g : Fin 8} : s.Answers (execRegionClockStop g s) := .next fun h => .ite h (.stopClock h)

theorem answers_execPreheat {c : Fin 64} : s.Answers (execPreheat c s) :=
  .next fun h => .ite (.modCluster (.endClockStart h)) (.endClockStart h)

/-! ### Programs and parameter slots -/

theorem State.Canonical.loadUnit (h : s.Canonical) {u digest : Nat} : (s.loadUnit u digest).Canonical := by
  unfold State.loadUnit
  dsimp only
  split
  · exact h
  · exact .update h

theorem State.Canonical.loadCluster (h : s.Canonical) {i : SchedImage} {c : Nat} : (s.loadCluster i c).Canonical := by
  unfold State.loadCluster
  dsimp only
  exact .modCluster (.each h (fun _ _ h1 => .loadUnit h1))

theorem State.Canonical.writeSlots (h : s.Canonical) {i : SchedImage} {c : Nat} : (s.writeSlots i c).Canonical :=
  .each h fun _ _ h1 => .withShm h1 (Memory.writeNat_wf _ _ _ _ h1.shm)

theorem State.Canonical.clearMemories (h : s.Canonical) {i : SchedImage} {c : Nat} : (s.clearMemories i c).Canonical :=
  .writeSlots (.withLmem (.withShm h (clearRange_wf _ _ _ h.shm)) (clearRange_wf _ _ _ h.lmem))

theorem State.Canonical.clearStd (h : s.Canonical) {i : SchedImage} {l : Nat} {lines : Bool} : (s.clearStd i l lines).Canonical := by
  unfold State.clearStd
  dsimp only
  exact .modStd h

theorem State.Canonical.zeroCluster (h : s.Canonical) {i : SchedImage} {c : Nat} : (s.zeroCluster i c).Canonical :=
  .clearStd (.clearMemories (.withGlz h (clearRange_wf _ _ _ h.glz)))

/-! ### Firings -/

theorem State.Canonical.applyPatches (h : s.Canonical) {d upto : Nat} : (s.applyPatches d upto).Canonical :=
  .ite h (.each (.modMix h _) (fun _ _ h1 => .tableDest (.modMix h1 _)))

theorem State.Canonical.applySwaps (h : s.Canonical) {d upto : Nat} : (s.applySwaps d upto).Canonical :=
  .ite h (.each (.modMix h _) fun _ _ h1 => .ite (.modCluster h1)
    (.withLmem (.modCluster h1) (clearRange_wf _ _ _ h1.lmem)))

theorem State.Canonical.beginBlock (h : s.Canonical) {d fsi block : Nat} : (s.beginBlock d fsi block).Canonical := by
  unfold State.beginBlock
  dsimp only
  exact .modMix (.applySwaps (.applyPatches (.modDom h _ _))) _

theorem State.Canonical.firingSequencer (h : s.Canonical) {c fsi block : Nat} {writes : Bool} :
    (s.firingSequencer c fsi block writes).Canonical :=
  .ite (.sequencerPhase h) h

theorem State.Canonical.loadPhase (h : s.Canonical) {i : SchedImage} {c d fsi : Nat} : (s.loadPhase i c d fsi).Canonical :=
  .ite (.modSched (.modCluster (.tables (.ite (.loadCluster h) (.zeroCluster (.loadCluster h))))) _) h

theorem answers_execFiringStart {c : Fin 64} {f : Fin 4} {codeOk : Bool} {corr : Nat} {bad : List Nat} :
    s.Answers (execFiringStart c f codeOk corr bad s) := by
  unfold execFiringStart
  dsimp only
  split
  · exact .next id
  · split
    · exact .next id
    · refine .ite (.next id) (.ite (.next fun h => .zeroOutputs (.retirePours (.firingSequencer (.beginBlock (.endClockStart h))))) (.ite
        (.next fun h => .cut (.modCluster (.loadPhase (.retirePours (.firingSequencer (.beginBlock (.endClockStart h)))))))
        (.next fun h => ?_)))
      split
      · exact .startTaps (.each (.modCluster (.loadPhase (.retirePours (.firingSequencer (.beginBlock (.endClockStart h))))))
          (fun _ _ h1 => .modUnit h1))
      · exact .each (.modCluster (.loadPhase (.retirePours (.firingSequencer (.beginBlock (.endClockStart h)))))) fun _ _ h1 =>
          .modUnit h1

theorem State.Canonical.closeOutput (h : s.Canonical) {c d b fsi : Nat} {o : OutDest} : (s.closeOutput c d b fsi o).Canonical := by
  unfold State.closeOutput
  dsimp only
  exact .modCluster (.ite h (.writeOut h))

theorem State.Canonical.fadeOutput (h : s.Canonical) {c b fsi : Nat} {o : OutDest} : (s.fadeOutput c b fsi o).Canonical := .writeOut h

theorem State.Canonical.endFiring (h : s.Canonical) {c : Nat} {f : Firing} {cyc : Nat} : (s.endFiring c f cyc).Canonical := by
  unfold State.endFiring
  dsimp only
  exact .modCluster (.each (.each (.clockTo h) (fun _ _ h1 => .deliverTaps h1)) (fun _ _ h1 => .ite (.fadeOutput h1) (.closeOutput h1)))

theorem answers_execFiringEnd {c : Fin 64} : s.Answers (execFiringEnd c s) := by
  unfold execFiringEnd
  split
  · exact .next id
  · exact .ite (.next id) (.ite (.next fun h => .cut h) (.next fun h => .endFiring h))

theorem answers_execFiringBudgetExhausted {c : Fin 64} : s.Answers (execFiringBudgetExhausted c s) := .next fun h => .ite (.cut h) h
theorem answers_execExecutionDeadline {c : Fin 64} : s.Answers (execExecutionDeadline c s) := .next fun h => .cut h

/-! ### Schedule switches -/

theorem State.Canonical.fadeOld (h : s.Canonical) {old : Option SchedImage} {new : SchedImage} {c d : Nat} :
    (s.fadeOld old new c d).Canonical := by
  unfold State.fadeOld
  dsimp only
  split
  · exact h
  · exact .each h fun _ _ h1 => .fadeOutput h1

theorem State.Canonical.newStrips (h : s.Canonical) {new : SchedImage} : (s.newStrips new).Canonical :=
  .each h fun _ _ h1 => .ite (.modMix h1 _) h1

theorem State.Canonical.loadServos (h : s.Canonical) {i : SchedImage} : (s.loadServos i).Canonical := by
  unfold State.loadServos
  split
  · exact .each (.put h _ _) fun _ _ h1 => .modUnit h1
  · exact .each (.put h _ _) fun _ _ h1 => .loadUnit h1

/-! ### Re-admission (R162–R164) -/

theorem State.Canonical.readmitCluster (h : s.Canonical) {c : Nat} : (s.readmitCluster c).Canonical := by
  unfold State.readmitCluster
  dsimp only
  split
  · exact h
  · exact .modCluster (.clear (.clrMask (.tables (.clearStd (.clearMemories (.loadCluster h)))) _ _) _)

theorem answers_execReadmission {d : Fin 3} : s.Answers (execReadmission d s) :=
  .next fun h => .each (.modSched (.each h (fun _ _ h1 => .each h1 (fun _ _ h2 => .readmitCluster h2))) _) fun _ _ h1 =>
    .finish h1 _ _ _ _ _ _

/-! ### Items (R336, R342–R345) -/

theorem State.Canonical.compile (h : s.Canonical) {p : Pour} {delayed : Nat} (e : s.compile p = .ok (t, delayed)) : t.Canonical := by
  unfold State.compile at e
  split at e
  · cases e
  · split at e
    · cases e
    · dsimp only at e
      split at e
      · cases e
      · split at e
        · cases e
        · next _ patched =>
          split_ifs at e
          cases e
          exact .bumpBy (.addFades (.modMix (.commitPatches (.commitPlan h) patched) _)) _ _

/-! ### Acceptance (R337–R340, R351, R352) -/

theorem State.Canonical.acceptPour (h : s.Canonical) {p : Pour} : (s.acceptPour p).Canonical :=
  .ite (.countLive (.update h)) (.ite (.mirrorOut (.each (.ite (.countLive (.update h)) (.put (.countLive (.update h)) _ _))
    (fun _ _ h1 => .sendPour h1))) (.mirrorOut (.countLive (.update h))))

theorem State.Canonical.originate (h : s.Canonical) {r : PourReq} {tag target : Nat} {hdr : Option CmdHdr} {dry : Bool}
    (e : s.originate r tag target hdr dry = .ok t) : t.Canonical := by
  unfold State.originate at e
  dsimp only at e
  split at e
  · cases e
  · repeat
      rw [ite_eq_iff] at e
      obtain ⟨-, e⟩ | ⟨-, e⟩ := e
      · cases e
    cases e
    exact .acceptPour h

theorem State.Canonical.countRefused (h : s.Canonical) {counts : Bool} : (s.countRefused counts).Canonical := .ite (.bump h _) h

theorem answers_execPour {hd : CmdHdr} {r : PourReq} : s.Answers (execPour hd r s) := by
  have refused {st : Status} {o : Nat} : s.Answers (.next ((s.countRefused (!r.template && !r.dryRun)).refuse hd 0x0200 st o 0)) :=
    .next fun h => .refuse (.countRefused h)
  unfold execPour
  refine .ite refused (.ite refused (.ite refused (.ite refused (.ite refused (.ite refused (.ite refused (.ite refused (.ite refused
    (.ite refused (.ite (.ite refused (.next fun h => .ok (.update h))) ?_))))))))))
  split
  · exact refused
  · next t e => exact .next fun h => .originate h e

theorem State.Canonical.firePour (h : s.Canonical) {n tag target : Nat} : (s.firePour n tag target).Canonical := by
  unfold State.firePour
  dsimp only
  split
  · exact .ite h (.postTo (.countRefused h) _ _ _)
  · split
    · next e => exact .originate h e
    · exact .ite h (.postTo (.countRefused h) _ _ _)

/-! ### The end of compilation (R340–R348, R363, R364) -/

theorem State.Canonical.reportArmed (h : s.Canonical) {p : Pour} : (s.reportArmed p).Canonical := .ite h (.sendPour h)

theorem answers_execPourCompileDone : s.Answers (execPourCompileDone s) := by
  unfold execPourCompileDone
  split
  · exact .next id
  · dsimp only
    split
    · refine .next fun h => ?_
      split
      · exact .finish (.endPour (.modPour h)) _ _ _ _ _ _
      · exact .endPour (.modPour h)
    · refine .ite (.next fun h => ?_) (.ite (.next fun h => .endPour h) ?_)
      · split
        · exact .finish (.countLive (.update h)) _ _ _ _ _ _
        · exact .countLive (.update h)
      · split
        · exact .next fun h => .endPour h
        · next e => exact .next fun h => .reportArmed (.modPour (.compile h e))

theorem answers_execPourStart {origin : BitVec 16} {tag : BitVec 32} : s.Answers (execPourStart origin tag s) := by
  unfold execPourStart
  dsimp only
  split
  · exact .next id
  · exact .ite (.next fun h => .ite (.bump (.modPour h) _) (.modPour h)) (.next id)

/-! ### Cancels (R365–R368) -/

theorem State.Canonical.removePour (h : s.Canonical) {o t : Nat} : (s.removePour o t).Canonical := by
  unfold State.removePour
  dsimp only
  exact .modMix h _

theorem State.Canonical.withdraw (h : s.Canonical) {p : Pour} {c : Nat} : (s.withdraw p c).Canonical := .ite (.removePour h) h

theorem answers_execPourCancel {hd : CmdHdr} {tag : Nat} : s.Answers (execPourCancel hd tag s) := by
  unfold execPourCancel
  dsimp only
  refine .ite (.next fun h => .refuse h) ?_
  split
  · exact .ite (.next fun h => .finish h _ _ _ _ _ _) (.next fun h => .refuse h)
  · exact .ite (.next fun h => .finish h _ _ _ _ _ _) (.next fun h => .mirrorOut (.each (.modPour (.withdraw h)) (fun _ _ h1 =>
      .sendPour h1)))

theorem answers_execPourCancelApply {origin : BitVec 16} {tag : BitVec 32} : s.Answers (execPourCancelApply origin tag s) := by
  unfold execPourCancelApply
  dsimp only
  split
  · exact .next id
  · split
    · exact .next id
    · split
      · exact .next id
      · refine .ite (.next fun h => ?_) (.next id)
        split
        · exact .finish (.endPour (.modPour (.removePour h))) _ _ _ _ _ _
        · exact .endPour (.modPour (.removePour h))
      · refine .ite (.next fun h => ?_) (.next id)
        split
        · exact .finish (.endPour (.modPour (.modMix h _))) _ _ _ _ _ _
        · exact .endPour (.modPour (.modMix h _))
      · refine .next fun h => ?_
        split
        · exact .finish (.modPour h) _ _ _ _ _ _
        · exact .modPour h

/-! ### Messages (R353–R356, R370) -/

theorem State.Canonical.answer (h : s.Canonical) {m : PourMsg} {st : Status} : (s.answer m st).Canonical := .sendPour h

theorem answers_execPourMessageReceived {m : PourMsg} {authOk : Bool} : s.Answers (execPourMessageReceived m authOk s) := by
  unfold execPourMessageReceived
  dsimp only
  refine .ite (.next id) (.ite (.next fun h => .answer (.countRefused h)) (.ite (.ite (.next id) ?_) (.ite ?_ (.next id))))
  · split
    · exact .next fun h => .answer (.update (.countRefused h))
    · exact .ite (.next fun h => .answer (.update (.countRefused h))) (.next fun h => .acceptPour h)
  · split
    · exact .ite (.next id) (.next fun h => .mirrorOut (.modPour (.withdraw h)))
    · exact .next fun h => .ite (.answer h) h

theorem answers_execPourReportMessage {dev : BitVec 16} {m : PourMsg} {authOk : Bool} :
    s.Answers (execPourReportMessage dev m authOk s) := by
  unfold execPourReportMessage
  dsimp only
  refine .ite (.next id) ?_
  split
  · exact .next id
  · split
    · exact .next id
    · exact .ite (.next fun h => .modPour h) (.next fun h => .pourReport (.modPour h))

theorem answers_execPourMessageResend {tag : BitVec 32} {dev : BitVec 16} : s.Answers (execPourMessageResend tag dev s) := by
  unfold execPourMessageResend
  split
  · exact .next id
  · exact .ite (.next fun h => .sendPour h) (.next id)

theorem answers_execPourReportTimeout {tag : BitVec 32} {dev : BitVec 16} : s.Answers (execPourReportTimeout tag dev s) := by
  unfold execPourReportTimeout
  split
  · exact .next id
  · exact .ite (.next fun h => .pourReport h) (.next id)

end Sys2Proof.Machine
end

