-- ==== Sys2Proof/Proofs/CanonicalLinks.lean ====
section
/-! SUPPORT. The canonical form of registers and memories is kept by the Wamund link, the timeline, admission, the host rings and the
edge: one lemma per operation, in the order of the model; each follows the shape of its definition. -/

namespace Sys2Proof.Machine

variable {s t u : State}


/-! ### Bring-up (R525–R527, R536, R537) -/

theorem State.Canonical.wlBringUp (h : s.Canonical) {p : Nat} : (s.wlBringUp p).Canonical := .ite (.put h _ _) h

theorem State.Canonical.dropWlTime (h : s.Canonical) {p : Nat} : (s.dropWlTime p).Canonical :=
  .each h (fun _ _ h1 => .each h1 (fun _ _ h2 => .ite (.disqualify h2) h2))

theorem State.Canonical.wlToDown (h : s.Canonical) {p : Nat} : (s.wlToDown p).Canonical := .ite h (.postNow (.put h _ _) _ _ _ _)

theorem State.Canonical.freeHeld (h : s.Canonical) {c : Cell} : (s.freeHeld c).Canonical := by
  unfold State.freeHeld
  split
  · exact .modWl h
  · exact h

theorem State.Canonical.freeReady (h : s.Canonical) {p : Nat} : (s.freeReady p).Canonical := .each h fun _ _ h1 => .freeHeld h1
theorem State.Canonical.dropHeld (h : s.Canonical) {p : Nat} : (s.dropHeld p).Canonical := .each h fun _ _ h1 => .modWl h1

theorem State.Canonical.wlLeaveUp (h : s.Canonical) {p : Nat} : (s.wlLeaveUp p).Canonical :=
  .ite (.postNow (.each (.dropWlTime (.ite (.update (.modWl (.put (.put (.set (.put (.dropHeld (.freeReady h)) _ _) _) _ _) _ _)))
    (.modWl (.put (.put (.set (.put (.dropHeld (.freeReady h)) _ _) _) _ _) _ _)))) (fun _ _ h1 => .each h1 (fun _ _ h2 =>
    .answerWait h2))) _ _ _ _) (.wlToDown h)

theorem answers_execWlModuleInsertion {p : Fin 4} {r : ModuleRead} : s.Answers (execWlModuleInsertion p r s) :=
  .ite (.next fun h => .ite (.wlBringUp (.putBit (.set (.judge h) _) _ _)) (.wlLeaveUp (.putBit (.set (.judge h) _) _ _)))
    (.next fun h => .wlLeaveUp (.put (.put (.ite (.unseat h) h) _ _) _ _))

theorem State.Canonical.wlAdvance (h : s.Canonical) {p a b : Nat} : (s.wlAdvance p a b).Canonical := .ite (.put h _ _) h
theorem answers_execWlTrainDone {p : Fin 4} : s.Answers (execWlTrainDone p s) := .next fun h => .wlAdvance h
theorem answers_execWlAlignDone {p : Fin 4} : s.Answers (execWlAlignDone p s) := .next fun h => .wlAdvance h

theorem answers_execWlAuthDone {p : Fin 4} {r : AuthResult} : s.Answers (execWlAuthDone p r s) := by
  unfold execWlAuthDone
  dsimp only
  refine .ite (.next id) ?_
  split
  · exact .next fun h => .postNow (.set (.put h _ _) _) _ _ _ _
  · exact .next fun h => .postNow (.set (.put (.put (.update (.modWl h)) _ _) _ _) _) _ _ _ _

theorem answers_execWlStateTimeout {p : Fin 4} : s.Answers (execWlStateTimeout p s) := .next fun h => .ite (.wlToDown h) h
theorem answers_execWlRestartTimer {p : Fin 4} : s.Answers (execWlRestartTimer p s) := .next fun h => .wlBringUp (.ite (.wlToDown h) h)
theorem answers_execWlPortDown {p : Fin 4} : s.Answers (execWlPortDown p s) := .next fun h => .ite (.wlLeaveUp h) h

theorem answers_execWlRetrain {p : Fin 4} : s.Answers (execWlRetrain p s) :=
  .ifHost (.ite (.next fun h => .put (.wlLeaveUp h) _ _) (.next id))

/-! ### Transmitting (R531–R535) -/

theorem State.Canonical.wlReplay (h : s.Canonical) {p : Nat} : (s.wlReplay p).Canonical :=
  .ite h (.ite (.wlLeaveUp h) (.bump (.modWl h) _))

theorem answers_execWlReplayTimeout {p : Fin 4} : s.Answers (execWlReplayTimeout p s) := .next fun h => .ite (.wlReplay h) h

theorem answers_execWlCellTx {p : Fin 4} : s.Answers (execWlCellTx p s) := by
  unfold execWlCellTx
  dsimp only
  refine .next fun h => .ite ?_ h
  split
  · exact .freeHeld (.modWl h)
  · exact .modWl h

/-! ### The TIME channel (R545–R547) -/

theorem answers_execWlTimeCellTx {p : Fin 4} {stamp markTime gm : Nat} : s.Answers (execWlTimeCellTx p stamp markTime gm s) :=
  .ite (.next fun h => .modWl (.queueCell h)) (.next id)

theorem State.Canonical.takeTime (h : s.Canonical) {p : Nat} {c : TimeCell} {stamp : Nat} : (s.takeTime p c stamp).Canonical :=
  .disqualifyAll (.modWl (.ite (.modWl (.put h _ _)) h))

theorem answers_execWlTimeLoss {p : Fin 4} : s.Answers (execWlTimeLoss p s) := .next fun h => .modWl (.dropWlTime h)

/-! ### Audio bundles (R548–R553) -/

theorem State.Canonical.sendBundle (h : s.Canonical) {r : FlowRec} : (s.sendBundle r).Canonical :=
  .each h fun _ _ h1 => .each h1 (fun _ _ h2 => .queueCell h2)

theorem State.Canonical.countAudio (h : s.Canonical) {p : Nat} : (s.countAudio p).Canonical :=
  .ite (.postNow (.set (.modWl (.put h _ _)) _) _ _ _ _) (.modWl (.put h _ _))

theorem answers_execWlBundleTx {d : Fin 3} : s.Answers (execWlBundleTx d s) :=
  .ite (.next fun h => .each (.ite (.each h (fun _ _ h1 => .countAudio h1)) h) (fun _ _ h1 => .ite (.each h1 (fun _ _ h2 =>
    .sendBundle h2)) h1)) (.next fun h => .ite (.each h (fun _ _ h1 => .countAudio h1)) h)

theorem State.Canonical.putRx (h : s.Canonical) {a si : Nat} {w : Word} : (s.putRx a si w).Canonical := .modMix h _

theorem State.Canonical.takeBundle (h : s.Canonical) {p src : Nat} {hd : BundleHdr} {ws : List Word} {tail : Bool} :
    (s.takeBundle p src hd ws tail).Canonical := by
  unfold State.takeBundle
  dsimp only
  split
  · exact .bump h _
  · exact .ite (.modWl (.bump h _)) (.ite (.postNow (.ite (.modWl h) (.each (.modWl h) (fun _ _ h1 => .each h1 (fun _ _ h2 =>
      .putRx h2)))) _ _ _ _) (.ite (.modWl h) (.each (.modWl h) (fun _ _ h1 => .each h1 (fun _ _ h2 => .putRx h2)))))

theorem State.Canonical.takeAudio (h : s.Canonical) {p : Nat} {c : Cell} {hd : Option BundleHdr} {ws : List Word} {tail : Bool} :
    (s.takeAudio p c hd ws tail).Canonical := by
  unfold State.takeAudio
  split
  · exact .ite (.takeBundle h) (.modWl h)
  · split
    · exact .ite (.bump h _) h
    · exact .ite (.takeBundle h) (.modWl h)

theorem answers_execWlFlowLoss {p : Fin 4} {src : Nat} {flow : Fin 256} : s.Answers (execWlFlowLoss p src flow s) := by
  unfold execWlFlowLoss
  dsimp only
  split
  · exact .next id
  · exact .ite (.next id) (.next fun h => .postNow (.each (.modWl h) (fun _ _ h1 => .restartSource h1)) _ _ _ _)

/-! ### Delivery and relaying (R539–R544, R555–R557) -/

theorem State.Canonical.takeParams (h : s.Canonical) {m : ParamFwd} : (s.takeParams m).Canonical := by
  refine .ite h (.sendCtrl ?_)
  split
  · exact h
  · exact .paramSet h

theorem State.Canonical.takeImage (h : s.Canonical) {origin tag : Nat} {i : ProgImage} : (s.takeImage origin tag i).Canonical := by
  refine .sendCtrl ?_
  split
  · exact h
  · split
    · exact h
    · exact .modSched h (fun q => _)

theorem State.Canonical.takeCtrl (h : s.Canonical) {src : Nat} {m : WlPayload} : (s.takeCtrl src m).Canonical := by
  unfold State.takeCtrl
  dsimp only
  split
  · exact .takeParams h
  · exact .ite (.answerWait h) h
  · exact .ite (.answerWait h) h
  · exact .update h
  · exact h

theorem State.Canonical.deliver (h : s.Canonical) {p : Nat} {c : Cell} {stamp : Nat} {tail : Bool} :
    (s.deliver p c stamp tail).Canonical := by
  unfold State.deliver
  split
  · exact .takeTime h
  · exact .takeAudio h
  · exact .takeImage h
  · exact .takeCtrl h

theorem State.Canonical.relay (h : s.Canonical) {ingress p : Nat} {c : Cell} : (s.relay ingress p c).Canonical :=
  .ite (.freeHeld (.bump h _)) (.queueCell h)

theorem State.Canonical.relayAll (h : s.Canonical) {ingress : Nat} {c : Cell} {l : List Nat} : (s.relayAll ingress c l).Canonical := by
  induction l generalizing s with
  | nil => exact .freeHeld h
  | cons q l ih =>
    cases l with
    | nil => exact .relay h
    | cons r l => exact ih (.relay h)

theorem State.Canonical.routeCell (h : s.Canonical) {p : Nat} {c0 : Cell} {stamp : Nat} {tail : Bool} :
    (s.routeCell p c0 stamp tail).Canonical :=
  .ite (.relayAll (.deliver h)) (.ite (.freeHeld (.bump h _)) (.ite (.freeHeld (.deliver h)) (.ite (.freeHeld (.bump h _)) (.ite
    (.relay h) (.freeHeld (.bump h _))))))

theorem State.Canonical.wlMissed (h : s.Canonical) {p : Nat} {free : Bool} : (s.wlMissed p free).Canonical := .modWl h
theorem State.Canonical.wlAcked (h : s.Canonical) {p : Nat} {c : Cell} : (s.wlAcked p c).Canonical := .modWl h

theorem answers_execWlCellReceived {p : Fin 4} {c : Cell} {stamp : Nat} {nakFree tail : Bool} :
    s.Answers (execWlCellReceived p c stamp nakFree tail s) :=
  .ite (.next id) (.ite (.next fun h => .ite (.wlLeaveUp (.ite (.wlMissed (.bump (.modWl h) _)) (.bump (.modWl h) _))) (.ite (.wlMissed
    (.bump (.modWl h) _)) (.bump (.modWl h) _))) (.ite (.next fun h => .ite (.modWl (.ite (.wlReplay (.wlAcked (.modWl h))) (.wlAcked
    (.modWl h)))) (.ite (.wlReplay (.wlAcked (.modWl h))) (.wlAcked (.modWl h)))) (.ite (.next fun h => .wlMissed (.ite (.wlReplay
    (.wlAcked (.modWl h))) (.wlAcked (.modWl h)))) (.next fun h => .routeCell (.modWl (.ite (.wlReplay (.wlAcked (.modWl h))) (.wlAcked
    (.modWl h))))))))

/-! ### Commands (R540, R549–R551, R557–R560) -/

theorem State.Canonical.flowCmd (h : s.Canonical) {hd : CmdHdr} {op : Nat} {rx : Bool} {addr : Nat} {r : FlowRec} :
    (s.flowCmd hd op rx addr r).Canonical := by
  unfold State.flowCmd
  refine .ite (.refuse h) ?_
  split
  · exact .refuse (.ite (.set h _) h)
  · exact .netLater h

theorem answers_execNetWlFlowTx {hd : CmdHdr} {addr : Nat} {r : FlowRec} : s.Answers (execNetWlFlowTx hd addr r s) :=
  .next fun h => .flowCmd h

theorem answers_execNetWlFlowRx {hd : CmdHdr} {addr : Nat} {r : FlowRec} : s.Answers (execNetWlFlowRx hd addr r s) :=
  .next fun h => .flowCmd h

theorem answers_execNetWlRoute {hd : CmdHdr} {addr : Nat} {entries : List (Nat × Nat)} :
    s.Answers (execNetWlRoute hd addr entries s) := by
  unfold execNetWlRoute
  dsimp only
  refine .ite (.next fun h => .refuse h) (.ite (.next fun h => .refuse h) ?_)
  split
  · exact .next fun h => .refuse h
  · exact .next fun h => .netLater h

theorem answers_execNetWlFlowDel {hd : CmdHdr} {dir port src flow : Nat} : s.Answers (execNetWlFlowDel hd dir port src flow s) := by
  unfold execNetWlFlowDel
  dsimp only
  refine .ite (.next fun h => .refuse h) ?_
  split
  · exact .ite (.next fun h => .refuse h) (.next fun h => .netLater h)
  · exact .next fun h => .netLater h

theorem answers_execNetWlTransit {hd : CmdHdr} {port cells : Nat} : s.Answers (execNetWlTransit hd port cells s) :=
  .ite (.next fun h => .refuse h) (.ite (.next fun h => .refuse (.set h _)) (.next fun h => .netLater h))

theorem answers_execNetWlParam {hd : CmdHdr} {dev ramp addr : Nat} {items : List ParamItem} :
    s.Answers (execNetWlParam hd dev ramp addr items s) :=
  .ite (.next fun h => .refuse h) (.ite (.next fun h => .refuse h) (.ite (.next fun h => .refuse h) (.next fun h => .netLater h)))

theorem State.Canonical.dropDist (h : s.Canonical) {ring : Nat} : (s.dropDist ring).Canonical := by
  unfold State.dropDist
  dsimp only
  split
  · exact .refuse (.update h)
  · exact h

theorem answers_execNetWlDistribute {hd : CmdHdr} {digest addr : Nat} {peers : List Nat} :
    s.Answers (execNetWlDistribute hd digest addr peers s) := by
  unfold execNetWlDistribute
  dsimp only
  refine .ite (.next fun h => .update (.dropDist h)) ?_
  split
  · exact .next fun h => .refuse h
  · exact .ite (.next fun h => .refuse (.refuse (.update h))) (.ite (.next fun h => .refuse (.refuse (.update h))) (.ite (.next fun h =>
      .refuse (.ok (.update h))) (.next fun h => .netLater (.ok (.update h)))))

theorem answers_execNetWlParamTimeout {hd : CmdHdr} : s.Answers (execNetWlParamTimeout hd s) := by
  unfold execNetWlParamTimeout
  dsimp only
  split
  · exact .next id
  · exact .next fun h => .finish (.update h) _ _ _ _ _ _

theorem answers_execWlxCntClr {p : Fin 4} : s.Answers (execWlxCntClr p s) := .ifHost (.next fun h => .clear h _)

/-! ### A change of the numbers that a domain gives its samples -/

theorem State.Canonical.mapMix (h : s.Canonical) {d : Nat} {f : Nat → Nat} : (s.mapMix d f).Canonical := by
  unfold State.mapMix
  dsimp only
  exact .modMix h _

theorem State.Canonical.mapClusters (h : s.Canonical) {d : Nat} {f : Nat → Nat} : (s.mapClusters d f).Canonical :=
  .each h fun _ _ h1 => .modCluster h1

theorem State.Canonical.mapTimed (h : s.Canonical) {d : Nat} {f : Nat → Nat} : (s.mapTimed d f).Canonical :=
  .update (.ite (.ite h (.put (.modSched h _) _ _)) (.update (.ite h (.put (.modSched h _) _ _))))

theorem State.Canonical.mapClocks (h : s.Canonical) {d : Nat} {f : Nat → Nat} : (s.mapClocks d f).Canonical := by
  unfold State.mapClocks
  dsimp only
  refine .ite (.each (.ite (.put (.modMpll (.modMpll h)) _ _) (.modMpll h)) (fun _ _ h1 => ?_)) (.update (.each (.ite (.put (.modMpll
    (.modMpll h)) _ _) (.modMpll h)) (fun _ _ h1 => ?_)))
  · split
    · exact .ite (.put (.update h1) _ _) h1
    · exact h1
  · split
    · exact .ite (.put (.update h1) _ _) h1
    · exact h1

theorem State.Canonical.mapEdge (h : s.Canonical) {d : Nat} {f : Nat → Nat} : (s.mapEdge d f).Canonical := .update h
theorem State.Canonical.mapRest (h : s.Canonical) {d : Nat} {f : Nat → Nat} : (s.mapRest d f).Canonical := .ite (.update h) (.update h)

theorem State.Canonical.mapSi (h : s.Canonical) {d : Nat} {f : Nat → Nat} : (s.mapSi d f).Canonical :=
  .modDom (.mapRest (.mapEdge (.mapClocks (.mapTimed (.mapClusters (.mapMix h)))))) _ _

theorem answers_execRenumbering {d : Fin 3} {delta : Int} : s.Answers (execRenumbering d delta s) :=
  .next fun h => .ite (.ite (.each (.mapSi h) (fun _ _ h1 => .mapSi h1)) (.mapSi h)) (.modMpll (.ite (.each (.mapSi h) (fun _ _ h1 =>
    .mapSi h1)) (.mapSi h)))

/-! ### Image transfers (R444) -/

theorem State.Canonical.awaitImage (h : s.Canonical) {hd : CmdHdr} {op kind ring entry length : Nat} {kindOk : Bool} :
    (s.awaitImage hd op kind ring entry length kindOk).Canonical :=
  .ite (.refuse h) (.ite (.refuse h) (.ite (.refuse h) (.ite (.refuse h) (.ite (.finish h _ _ _ _ _ _) (.modHost h _)))))

theorem answers_execProgLoad {hd : CmdHdr} {kind ring entry length : Nat} : s.Answers (execProgLoad hd kind ring entry length s) :=
  .next fun h => .awaitImage h

theorem answers_execSchedAdmit {hd : CmdHdr} {kind ring length : Nat} : s.Answers (execSchedAdmit hd kind ring length s) :=
  .next fun h => .ite (.refuse h) (.awaitImage h)

theorem State.Canonical.storeProgram (h : s.Canonical) {i : ProgImage} : (s.storeProgram i).Canonical := .modSched h _

theorem State.Canonical.programArrived (h : s.Canonical) {t : Transfer} {x : ImageData} : (s.programArrived t x).Canonical := by
  unfold State.programArrived
  dsimp only
  split
  · refine .ite (.refuse h) ?_
    split
    · exact .refuse h
    · exact .ok (.storeProgram h)
  · refine .ite (.refuse h) ?_
    split
    · exact .refuse h
    · exact .ite (.refuse h) (.ite (.refuse h) (.ok (.update h)))
  · exact .refuse h

theorem State.Canonical.scheduleArrived (h : s.Canonical) {t : Transfer} {x : ImageData} : (s.scheduleArrived t x).Canonical := by
  unfold State.scheduleArrived
  split
  · exact .set (.modSched h _) _
  · exact .refuse h

/-! ### Admission (R140–R152) -/

theorem State.Canonical.armBank (h : s.Canonical) {si : Nat} {hd : CmdHdr} : (s.armBank si hd).Canonical := by
  unfold State.armBank
  dsimp only
  split
  · exact h
  · exact .put (.set (.modSched (.setPendingBank h) _) _) _ _

theorem State.Canonical.noHeadroom (h : s.Canonical) {hd : CmdHdr} {op n element domain : Nat} :
    (s.noHeadroom hd op n element domain).Canonical :=
  .finish h _ _ _ _ _ _

theorem State.Canonical.advanceCounters (h : s.Canonical) {i : SchedImage} : (s.advanceCounters i).Canonical :=
  .each h fun _ _ h1 => .raise h1 _ _

theorem State.Canonical.judgeImage (h : s.Canonical) {hd : CmdHdr} {i : SchedImage} : (s.judgeImage hd i).Canonical :=
  .ite (.ok (.mirrorOut (.set (.put (.advanceCounters (.setPendingBank h)) _ _) _))) (.ite (.noHeadroom h) (.ite (.noHeadroom h) (.finish
    (.mirrorOut (.armBank (.set (.put (.advanceCounters (.setPendingBank h)) _ _) _))) _ _ _ _ _ _)))

theorem answers_execAdmissionComplete : s.Answers (execAdmissionComplete s) := by
  unfold execAdmissionComplete
  dsimp only
  split
  · exact .next id
  · refine .next fun h => ?_
    split
    · exact .finish (.putBit (.modSched h _) _ _) _ _ _ _ _ _
    · exact .judgeImage (.putBit (.modSched h _) _ _)

theorem answers_execSchedAdmitArm {hd : CmdHdr} : s.Answers (execSchedAdmitArm hd s) := by
  unfold execSchedAdmitArm
  dsimp only
  refine .next fun h => ?_
  split
  · exact .refuse h
  · exact .ite (.refuse h) (.ite (.refuse h) (.ite (.noHeadroom h) (.ite (.noHeadroom h) (.finish (.mirrorOut
      (.armBank h)) _ _ _ _ _ _))))

theorem State.Canonical.readmit (h : s.Canonical) {hd : CmdHdr} {indices : List (Fin 68)} {target : Nat} :
    (s.readmit hd indices target).Canonical :=
  .mirrorOut (.modSched h _)

theorem answers_execSchedAdmitReadmit {hd : CmdHdr} {indices : List (Fin 68)} : s.Answers (execSchedAdmitReadmit hd indices s) := by
  unfold execSchedAdmitReadmit
  refine .next fun h => .ite (.refuse h) (.ite (.refuse h) ?_)
  split
  · exact .refuse h
  · exact .readmit h

/-! ### Thermal hold, counters and slices -/

theorem State.Canonical.showTemps (h : s.Canonical) {temps : List (BitVec 16)} : (s.showTemps temps).Canonical :=
  .put (.each h (fun _ _ h1 => .put h1 _ _)) _ _

theorem answers_execThermalHoldEnter {temps : List (BitVec 16)} : s.Answers (execThermalHoldEnter temps s) :=
  .next fun h => .ite (.showTemps h) (.postNow (.set (.set (.set (.showTemps h) _) _) _) _ _ _ _)

theorem answers_execThermalHoldLeave {temps : List (BitVec 16)} : s.Answers (execThermalHoldLeave temps s) :=
  .next fun h => .ite (.postNow (.put (.put (.showTemps h) _ _) _ _) _ _ _ _) (.showTemps h)

theorem answers_execSchedCntClr : s.Answers (execSchedCntClr s) := .ifHost (.next fun h => .put (.clear h _) _ _)

theorem answers_execSchedSliceWrite {reg : Fin 10} {value : BitVec 32} : s.Answers (execSchedSliceWrite reg value s) :=
  .ifRestored (.next fun h => .ite (.set h _) (.ite (.put (.put (.put h _ _) _ _) _ _) (.put h _ _)))

/-! ### Validation of a descriptor (R434–R437) -/

theorem State.Canonical.dispatch (h : s.Canonical) {src : Src} {d : Descriptor} : (s.dispatch src d).Canonical := by
  unfold State.dispatch
  dsimp only
  split
  · exact .refuse (.ite (.modHost h _) (.dropDist (.modHost h _)))
  · exact .ite (.modHost h _) (.dropDist (.modHost h _))

/-! ### Rings (R428–R432, R456) -/

theorem State.Canonical.ringFault (h : s.Canonical) {r code : Nat} : (s.ringFault r code).Canonical :=
  .postNow (.put (.set h _) _ _) _ _ _ _

theorem State.Canonical.advanceHead (h : s.Canonical) {r : Nat} : (s.advanceHead r).Canonical := .put h _ _

theorem answers_execDoorbell {value : BitVec 32} : s.Answers (execDoorbell value s) :=
  .ifHost (.next fun h => .ite (.put h _ _) (.ringFault h))

theorem State.Canonical.postStart (h : s.Canonical) : s.postStart.Canonical := by
  unfold State.postStart
  dsimp only
  split
  · exact h
  · exact .ite (.post (.clear (.update h) _) _ _ _) h

theorem State.Canonical.ringCfg (h : s.Canonical) {r v : Nat} : (s.ringCfg r v).Canonical :=
  .ite (.set h _) (.ite (.putBit (.each h (fun _ _ h1 => .put h1 _ _)) _ _) (.ite (.postStart (.put (.put (.put (.set (.each h
    (fun _ _ h1 => .put h1 _ _)) _) _ _) _ _) _ _)) (.set (.each h (fun _ _ h1 => .put h1 _ _)) _)))

theorem answers_execHostRingCfgWrite {ring : Fin 16} {value : BitVec 32} : s.Answers (execHostRingCfgWrite ring value s) :=
  .ifHost (.next fun h => .ringCfg h)

theorem State.Canonical.winCtl (h : s.Canonical) {k v outstanding : Nat} : (s.winCtl k v outstanding).Canonical :=
  .ite (.modHost (.put (.put (.put h _ _) _ _) _ _) _) (.put (.put (.put h _ _) _ _) _ _)

theorem answers_execHostWinCtlWrite {k : Fin 16} {value : BitVec 32} {outstanding : Nat} :
    s.Answers (execHostWinCtlWrite k value outstanding s) :=
  .ifHost (.next fun h => .winCtl h)

theorem answers_execWindowDrainDone {k : Fin 16} : s.Answers (execWindowDrainDone k s) := .next fun h => .modHost h _

/-! ### The urgent window (R459–R462) -/

theorem answers_execUrgentSlotCommit {slot : Fin 64} {d : Descriptor} {commit : BitVec 32} :
    s.Answers (execUrgentSlotCommit slot d commit s) :=
  .ifHost (.ite (.next fun h => .set h _) (.next fun h => .ite (.modHost h _) (.setMask (.modHost (.modHost h _) _) _ _)))

theorem answers_execUrgentDispatch : s.Answers (execUrgentDispatch s) := by
  unfold execUrgentDispatch
  dsimp only
  split
  · exact .next id
  · refine .next fun h => ?_
    split
    · exact .dispatch (.modHost h _)
    · exact .modHost h _

/-! ### Dispatch and completion (R438, R439) -/

theorem answers_execDescriptorDispatch {d : Descriptor} : s.Answers (execDescriptorDispatch d s) := by
  refine .ite (.next id) ?_
  split
  · exact .next id
  · split
    · exact .ite (.next fun h => .ringFault h) (.next fun h => .dispatch (.modHost (.advanceHead h) _))
    · exact .next id

theorem answers_execCommandCompletion : s.Answers (execCommandCompletion s) := by
  unfold execCommandCompletion
  dsimp only
  split
  · exact .next id
  · refine .ite (.next fun h => .modHost h _) ?_
    split
    · exact .ite (.next fun h => .postTo (.modHost h _) _ _ _) (.next fun h => .ite (.writeEvent (.modHost (.modHost h _) _) _ _) (.hold
        (.modHost (.modHost h _) _) _ _))
    · exact .ite (.next fun h => .post (.modHost h _) _ _ _) (.next fun h => .post (.raiseVector (.setMask (.clrMask (.modHost
        (.modHost h _) _) _ _) _ _) _) _ _ _)

theorem State.Canonical.drainHeld (h : s.Canonical) {r : Nat} {l : List Held} : (s.drainHeld r l).Canonical := by
  induction l generalizing s with
  | nil => exact .modHost h _
  | cons e l ih =>
    unfold State.drainHeld
    exact .ite (ih (.writeEvent h _ _)) (.modHost h _)

theorem answers_execEventHoldingDrain {e : Fin 4} : s.Answers (execEventHoldingDrain e s) :=
  .ite (.next id) (.ite (.next fun h => .drainHeld h) (.next fun h => .drainHeld (.writeEvent (.modHost h _) _ _)))

theorem answers_execMsixModerationExpiry {v : Fin 64} : s.Answers (execMsixModerationExpiry v s) :=
  .next fun h => .ite (.raiseVector (.modHost h _) _) (.modHost h _)

theorem State.Canonical.maskVector (h : s.Canonical) {v : Nat} {masked : Bool} : (s.maskVector v masked).Canonical :=
  .ite (.raiseVector (.modHost h _) _) (.modHost h _)

/-! ### The link (R427, R472) -/

theorem answers_execHostLinkReset : s.Answers (execHostLinkReset s) := by
  refine .next fun h => .modHost (.each ?_ fun _ _ h1 => .put h1 _ _) _
  exact ⟨Tab.filter_wf _ _ _ h.regs, h.dram, h.shm, h.lmem, h.dly, h.glz, h.stage, h.hostMem⟩

theorem answers_execLinkRetrain {width : Fin 3} {speed : Fin 5} : s.Answers (execLinkRetrain width speed s) :=
  .next fun h => .ite (.postNow (.set (.putBit (.put (.put h _ _) _ _) _ _) _) _ _ _ _) (.putBit (.put (.put h _ _) _ _) _ _)

theorem answers_execHostCntClr : s.Answers (execHostCntClr s) := .ifHost (.next fun h => .clear h _)

/-! ### Converter chains (R606–R610) -/

theorem State.Canonical.modHuba (h : s.Canonical) {f : HubaSt → HubaSt} : (s.modHuba f).Canonical := .update h
theorem State.Canonical.setConv (h : s.Canonical) {c : Nat} {x : ConvCh} : (s.setConv c x).Canonical := .modHuba h
theorem State.Canonical.modConv (h : s.Canonical) {c : Nat} {f : ConvCh → ConvCh} : (s.modConv c f).Canonical := .setConv h

theorem State.Canonical.hubaEvent (h : s.Canonical) {cls : EvClass} {code key : Nat} {body : List Nat} :
    (s.hubaEvent cls code key body).Canonical :=
  .ite h (.postNow (.modHuba h) _ _ _ _)

theorem State.Canonical.convEvent (h : s.Canonical) {c cause : Nat} : (s.convEvent c cause).Canonical := .hubaEvent h
theorem State.Canonical.unsettle (h : s.Canonical) {c : Nat} : (s.unsettle c).Canonical := .put (.modConv h) _ _

theorem State.Canonical.convTakeover (h : s.Canonical) {c t : Nat} : (s.convTakeover c t).Canonical := by
  unfold State.convTakeover
  dsimp only
  refine .ite (.ite (.unsettle (.setConv h)) ?_) h
  split
  · exact .unsettle (.setConv h)
  · exact h

theorem answers_execConvEnWrite {c : Fin 4} {en : Bool} {preset : Fin 4} {k : Nat} : s.Answers (execConvEnWrite c en preset k s) :=
  .ifRestored (.ite (.ite (.ite (.next fun h => .putBit (.ite (.set (.convTakeover h) _) (.put (.convTakeover h) _ _)) _ _)
    (.next fun h => .setConv (.putBit (.ite (.set (.convTakeover h) _) (.put (.convTakeover h) _ _)) _ _))) (.next fun h => .unsettle
    (.setConv (.putBit (.ite (.set (.convTakeover h) _) (.put (.convTakeover h) _ _)) _ _)))) (.ite (.next fun h => .setConv (.putBit
    (.ite (.set (.convTakeover h) _) (.put (.convTakeover h) _ _)) _ _)) (.next fun h => .setConv (.putBit (.ite (.set
    (.convTakeover h) _) (.put (.convTakeover h) _ _)) _ _))))

theorem answers_execChainSettled {c : Fin 4} {k : Nat} : s.Answers (execChainSettled c k s) :=
  .ite (.next fun h => .convEvent (.set (.setConv (.convTakeover h)) _)) (.next fun h => .convTakeover h)

/-! ### The preamplifier (R608–R610) -/

theorem State.Canonical.bigStep (h : s.Canonical) {n range t : Nat} : (s.bigStep n range t).Canonical :=
  .convEvent (.set (.set (.modConv h) _) _)

theorem State.Canonical.pathStep (h : s.Canonical) {n t : Nat} : (s.pathStep n t).Canonical := by
  unfold State.pathStep
  dsimp only
  split
  · exact h
  · exact .ite (.put (.modConv (.ite (.bump (.put (.setConv h) _ _) _) h)) _ _) (.ite (.bump (.put (.setConv h) _ _) _) h)

theorem answers_execRangeRequest {n : Fin 2} {r : Fin 32} {k : Nat} : s.Answers (execRangeRequest n r k s) :=
  .ifRestored (.ite (.next fun h => .set h _) (.ite (.next fun h => .setConv (.pathStep (.put h _ _))) (.ite (.next fun h => .bigStep
    (.pathStep (.put h _ _))) (.next fun h => .setConv (.pathStep (.put h _ _))))))

theorem answers_execRangeChange {n : Fin 2} : s.Answers (execRangeChange n s) := by
  unfold execRangeChange
  dsimp only
  split
  · exact .next id
  · exact .next fun h => .bump (.put (.setConv h) _ _) _

theorem State.Canonical.showComp (h : s.Canonical) {n t : Nat} : (s.showComp n t).Canonical := .put h _ _

theorem answers_execCompensationStep {n : Fin 2} {k : Nat} : s.Answers (execCompensationStep n k s) := by
  unfold execCompensationStep
  dsimp only
  split
  · exact .next id
  · exact .ite (.next fun h => .bigStep h) (.next fun h => .showComp (.setConv h))

/-! ### Samples of the chains -/

theorem State.Canonical.convBlock (h : s.Canonical) {c x : Nat} {ws : List Word} {sat cnt : Nat} :
    (s.convBlock c x ws sat cnt).2.Canonical := by
  have taken : (s.convTakeover c (x + ws.length)).Canonical := .convTakeover h
  have shown {f g : Fld} {v : Nat} : (if sat = 0 then s.convTakeover c (x + ws.length)
      else (((s.convTakeover c (x + ws.length)).put f v).bumpBy g cnt).convEvent c 2).Canonical :=
    .ite taken (.convEvent (.bumpBy (.put taken _ _) _ _))
  exact .ite (.showComp (.pathStep shown)) shown

/-! ### Jacks and buttons (R611–R614) -/

theorem State.Canonical.jackEvent (h : s.Canonical) {jack inserted : Nat} : (s.jackEvent jack inserted).Canonical := .hubaEvent (.set h _)
theorem State.Canonical.holdDacs (h : s.Canonical) {b : Bool} : (s.holdDacs b).Canonical := .each h fun _ _ h1 => .putBit h1 _ _

theorem State.Canonical.rampDacs (h : s.Canonical) {down : Bool} {t : Nat} : (s.rampDacs down t).Canonical :=
  .each h fun _ _ h1 => .modConv h1

theorem State.Canonical.unplugged (h : s.Canonical) : s.unplugged.Canonical := .jackEvent (.holdDacs (.put (.put (.put h _ _) _ _) _ _))

theorem answers_execJackDetectChange {tb inserted : Bool} {k : Nat} : s.Answers (execJackDetectChange tb inserted k s) :=
  .ite (.next fun h => .jackEvent (.putBit h _ _)) (.ite (.ite (.next fun h => .rampDacs (.modHuba h)) (.next fun h => .unplugged
    (.modHuba h))) (.ite (.next fun h => .each (.holdDacs (.put (.set h _) _ _)) (fun _ _ h1 => .modConv h1)) (.next fun h =>
    .unplugged h)))

theorem answers_execJackRemovalEdge {k : Nat} : s.Answers (execJackRemovalEdge k s) :=
  .ite (.next fun h => .rampDacs (.modHuba h)) (.next id)

theorem answers_execJackClassified {l : JackLoads} : s.Answers (execJackClassified l s) :=
  .ite (.next id) (.next fun h => .jackEvent (.each (.modHuba (.holdDacs (.put (.put (.put h _ _) _ _) _ _))) (fun _ _ h1 => .ite
    (.unsettle h1) h1)))

theorem answers_execButtonAccepted {ohms : BitVec 16} {k : Nat} : s.Answers (execButtonAccepted ohms k s) := by
  unfold execButtonAccepted
  dsimp only
  refine .ite (.next id) ?_
  split
  · exact .next fun h => .put h _ _
  · exact .ite (.next id) (.next fun h => .ite (.each (.ite (.each (.put (.put h _ _) _ _) (fun _ _ h1 => .hubaEvent h1)) (.hubaEvent
      (.each (.put (.put h _ _) _ _) (fun _ _ h1 => .hubaEvent h1)))) (fun _ _ h1 => .modConv h1)) (.ite (.each (.put (.put h _ _) _ _)
      (fun _ _ h1 => .hubaEvent h1)) (.hubaEvent (.each (.put (.put h _ _) _ _) (fun _ _ h1 => .hubaEvent h1)))))

theorem answers_execButtonLevelMute {n : Fin 2} {down : Bool} {k : Nat} : s.Answers (execButtonLevelMute n down k s) :=
  .ite (.next fun h => .modConv h) (.next id)

/-! ### The power stage (R616–R624) -/

theorem State.Canonical.modPs (h : s.Canonical) {c : Nat} {f : PsCh → PsCh} : (s.modPs c f).Canonical := .modHuba h
theorem State.Canonical.psTo (h : s.Canonical) {c st : Nat} : (s.psTo c st).Canonical := .put h _ _
theorem State.Canonical.psFault (h : s.Canonical) {c cause : Nat} : (s.psFault c cause).Canonical := .hubaEvent h
theorem State.Canonical.psStart (h : s.Canonical) {c : Nat} : (s.psStart c).Canonical := .ite (.psTo (.modPs h)) (.psTo (.modPs h))

theorem answers_execPsEnWrite {c : Fin 2} {en : Bool} {k : Nat} : s.Answers (execPsEnWrite c en k s) :=
  .ifRestored (.ite (.next fun h => .ite (.put (.setMask h _ _) _ _) (.psStart (.put (.setMask h _ _) _ _))) (.ite (.next fun h => .modPs
    (.clrMask h _ _)) (.next fun h => .psTo (.modPs (.clrMask h _ _)))))

theorem answers_execPsPrechargeDone {c : Fin 2} : s.Answers (execPsPrechargeDone c s) := .next fun h => .ite (.modPs h) h

theorem State.Canonical.psShut (h : s.Canonical) {c : Nat} {thermal : Bool} : (s.psShut c thermal).Canonical :=
  .ite (.psTo (.ite (.set (.modPs (.bump (.set h _) _)) _) (.set (.modPs (.bump (.set h _) _)) _))) (.psFault (.psTo (.ite (.set (.modPs
    (.bump (.set h _) _)) _) (.set (.modPs (.bump (.set h _) _)) _))))

theorem answers_execPsShutdown {c : Fin 2} : s.Answers (execPsShutdown c s) := .next fun h => .ite (.psShut h) h
theorem answers_execPsRetry {c : Fin 2} : s.Answers (execPsRetry c s) := .ite (.next fun h => .psFault (.psStart (.bump h _))) (.next id)
theorem answers_execRetryUsedReset {c : Fin 2} : s.Answers (execRetryUsedReset c s) := .next fun h => .ite (.put h _ _) h

theorem answers_execPsSupplyFault {mv : BitVec 16} : s.Answers (execPsSupplyFault mv s) :=
  .ite (.next fun h => .each (.put h _ _) (fun _ _ h1 => .ite (.ite (.psFault (.psTo (.modPs h1))) (.psTo (.modPs h1))) h1))
    (.next fun h => .put h _ _)

theorem answers_execPsSupplyRestart {mv : BitVec 16} : s.Answers (execPsSupplyRestart mv s) :=
  .ite (.next fun h => .each (.put h _ _) (fun _ _ h1 => .ite (.psFault (.psStart h1)) (.ite (.psStart h1) h1))) (.next fun h =>
    .put h _ _)

theorem answers_execPsThermalRead {temp mv : BitVec 16} : s.Answers (execPsThermalRead temp mv s) :=
  .next fun h => .ite (.each (.ite (.each (.ite (.put (.modHuba (.put (.put h _ _) _ _)) _ _) (.put (.modHuba (.put
    (.put h _ _) _ _)) _ _)) (fun _ _ h1 => .ite (.psShut h1) h1)) (.ite (.put (.modHuba (.put (.put h _ _) _ _)) _ _) (.put (.modHuba
    (.put (.put h _ _) _ _)) _ _))) (fun _ _ h1 => .ite (.psFault (.psStart h1)) h1)) (.ite (.each (.ite (.put (.modHuba (.put
    (.put h _ _) _ _)) _ _) (.put (.modHuba (.put (.put h _ _) _ _)) _ _)) (fun _ _ h1 => .ite (.psShut h1) h1)) (.ite (.put (.modHuba
    (.put (.put h _ _) _ _)) _ _) (.put (.modHuba (.put (.put h _ _) _ _)) _ _)))

/-! ### Samples of the power stage (R617, R624) -/

theorem State.Canonical.psBlock (h : s.Canonical) {x : Nat} {ws : List (Word × Word)} : (s.psBlock x ws).2.Canonical :=
  .each (.put (.ite (.ite (.modHuba h) (.bumpBy (.set (.modHuba h) _) _ _))
    (.bumpBy (.set (.ite (.modHuba h) (.bumpBy (.set (.modHuba h) _) _ _)) _) _ _)) _ _)
    fun _ _ h1 => .ite (.psTo (.modPs h1)) h1

theorem State.Canonical.psBegin (h : s.Canonical) {x : Nat} : (s.psBegin x).Canonical :=
  .each h (fun _ _ h1 => .ite (.psTo (.modPs h1)) h1)

theorem answers_execHubaCntClr : s.Answers (execHubaCntClr s) := .ifHost (.next fun h => .clear h _)

/-! ### Slots (R627–R640) -/

theorem State.Canonical.modSurf (h : s.Canonical) {f : SurfSt → SurfSt} : (s.modSurf f).Canonical := .update h
theorem State.Canonical.modFader (h : s.Canonical) {f : Nat} {g : FaderSt → FaderSt} : (s.modFader f g).Canonical := .modSurf h

theorem State.Canonical.dropFaders (h : s.Canonical) {slot : Nat} : (s.dropFaders slot).Canonical :=
  .each (.modSurf h) (fun _ _ h1 => .clear (.modSurf (.modFader h1)) _)

theorem State.Canonical.detach (h : s.Canonical) {slot : Nat} : (s.detach slot).Canonical :=
  .ite (.dropFaders (.each (.each (.each h (fun _ _ h1 => .ite (.disablePort h1) h1)) (fun _ _ h1 => .ite (.disableAesRx h1) h1))
    (fun _ _ h1 => .disableAesTx h1))) (.each (.each (.each h (fun _ _ h1 => .ite (.disablePort h1) h1)) (fun _ _ h1 => .ite
    (.disableAesRx h1) h1)) (fun _ _ h1 => .disableAesTx h1))

theorem State.Canonical.discovered (h : s.Canonical) : s.discovered.Canonical := .ite (.set h _) h
theorem State.Canonical.sawSlot (h : s.Canonical) {slot : Nat} : (s.sawSlot slot).Canonical := .discovered (.modSurf h)

theorem State.Canonical.readSlot (h : s.Canonical) {slot : Nat} {r : ModuleRead} : (s.readSlot slot r).Canonical :=
  .ite (.ite (.detach (.judge h)) (.judge h)) (.ite (.unseat (.detach h)) h)

theorem answers_execModulePoll {slot : Fin 32} {mux : Bool} {r : ModuleRead} : s.Answers (execModulePoll slot mux r s) :=
  .ite (.next id) (.next fun h => .sawSlot (.ite (.ite (.setMask (.putBit h _ _) _ _) (.clrMask (.putBit h _ _) _ _)) (.readSlot (.ite
    (.setMask (.putBit h _ _) _ _) (.clrMask (.putBit h _ _) _ _)))))

/-! ### Surface links (R641–R646) -/

theorem State.Canonical.surfEvent (h : s.Canonical) {key code : Nat} {body : List Nat} : (s.surfEvent key code body).Canonical :=
  .ite h (.postNow (.modSurf h) _ _ _ _)

theorem State.Canonical.slLink (h : s.Canonical) {p m up : Nat} : (s.slLink p m up).Canonical := .surfEvent h
theorem State.Canonical.mgmtFailed (h : s.Canonical) {p : Nat} {r : ModuleRead} : (s.mgmtFailed p r).Canonical := .ite (.bumpBy h _ _) h

theorem State.Canonical.enumModule (h : s.Canonical) {p m : Nat} {r : ModuleRead} : (s.enumModule p m r).Canonical :=
  .ite (.ite (.each (.modSurf (.slLink (.setMask (.readSlot (.dropFaders (.mgmtFailed h))) _ _))) (fun _ _ h1 => .putBit h1 _ _))
    (.slLink (.setMask (.readSlot (.dropFaders (.mgmtFailed h))) _ _))) (.clrMask (.readSlot (.dropFaders (.mgmtFailed h))) _ _)

theorem answers_execSlEnumerate {p : Fin 8} {mods : List ModuleRead} : s.Answers (execSlEnumerate p mods s) :=
  .ite (.next id) (.next fun h => .sawSlot (.each (.put h _ _) (fun _ _ h1 => .enumModule h1)))

theorem answers_execSlRestart {p : Fin 8} : s.Answers (execSlRestart p s) :=
  .ifHost (.ite (.next fun h => .each (.put h _ _) (fun _ _ h1 => .dropFaders h1)) (.next id))

/-! ### The law (R652–R654) -/

theorem answers_execLawCommit : s.Answers (execLawCommit s) := .ifHost (.next fun h => .ite (.modSurf h) (.set h _))

/-! ### Faders (R649–R658) -/

theorem State.Canonical.faderEvent (h : s.Canonical) {f : Nat} : (s.faderEvent f).Canonical := .modFader (.postNow h _ _ _ _)

theorem State.Canonical.faderState (h : s.Canonical) {f : Nat} : (s.faderState f).Canonical :=
  .modFader (.ite (.put (.ite (.put (.putBit h _ _) _ _) (.ite (.put (.modFader (.ite (.faderEvent (.putBit h _ _))
    (.putBit h _ _))) _ _) (.putBit (.putBit h _ _) _ _))) _ _) (.ite (.put (.putBit h _ _) _ _) (.ite (.put (.modFader (.ite
    (.faderEvent (.putBit h _ _)) (.putBit h _ _))) _ _) (.putBit (.putBit h _ _) _ _))))

theorem State.Canonical.writeRecord (h : s.Canonical) {f : Nat} : (s.writeRecord f).Canonical :=
  .withLmem h (Memory.writeBytes_wf _ _ _ h.lmem)

theorem State.Canonical.aim (h : s.Canonical) {f : Nat} : (s.aim f).Canonical := .ite (.modFader h) h

theorem State.Canonical.startServo (h : s.Canonical) {k : Nat} : (s.startServo k).Canonical := by
  unfold State.startServo
  split
  · exact h
  · exact .ite (.modUnit (.each (.withLmem h (Memory.writeBytes_wf _ _ _ h.lmem)) fun _ _ h1 => .writeRecord h1)) h

theorem State.Canonical.readmitServos (h : s.Canonical) : s.readmitServos.Canonical := by
  unfold State.readmitServos
  dsimp only
  refine .each (.modSched (.each h (fun _ _ h1 => .each h1 (fun _ _ h2 => ?_))) _) fun _ _ h1 => .finish h1 _ _ _ _ _ _
  split
  · split
    · exact .loadUnit (.put (.clrMask h2 _ _) _ _)
    · exact .put (.clrMask h2 _ _) _ _
  · exact .put (.clrMask h2 _ _) _ _

theorem answers_execServoCycle {si : BitVec 64} : s.Answers (execServoCycle si s) :=
  .next fun h => .each (.readmitServos (.each (.each (.modSurf h) (fun _ _ h1 => .putBit h1 _ _)) (fun _ _ h1 => .aim h1))) fun _ _ h1 =>
    .startServo h1

theorem answers_execServoUpReceived {p : Fin 8} {m : Fin 4} {u : Option ServoUp} : s.Answers (execServoUpReceived p m u s) := by
  unfold execServoUpReceived
  dsimp only
  refine .ite (.next id) (.next fun h => .each ?_ (fun _ _ h1 => .ite (.writeRecord (.faderState h1)) h1))
  split
  · exact .bump (.modSurf h) _
  · exact .each (.modSurf h) (fun _ _ h1 => .ite (.modFader (.putBit (.put h1 _ _) _ _)) h1)

theorem answers_execModuleLost {p : Fin 8} {m : Fin 4} : s.Answers (execModuleLost p m s) :=
  .ite (.next fun h => .slLink (.clrMask (.setMask (.dropFaders h) _ _) _ _)) (.next id)

theorem answers_execTouchUpReceived {f : Fin 256} {touched : Bool} : s.Answers (execTouchUpReceived f touched s) :=
  .ite (.next id) (.next fun h => .ite (.modSurf (.put (.put (.putBit h _ _) _ _) _ _)) (.putBit h _ _))

theorem State.Canonical.faderChange (h : s.Canonical) {f : Nat} : (s.faderChange f).Canonical := by
  unfold State.faderChange
  dsimp only
  refine .ite ?_ h
  split
  · exact .ite (.modFader (.paramSet h)) (.faderEvent (.modFader (.paramSet h)))
  · exact .faderEvent (.modFader (.paramSet h))

theorem answers_execServoFiringEnd {k : Fin 4} : s.Answers (execServoFiringEnd k s) :=
  .ite (.next id) (.ite (.next fun h => .servoCut h) (.next fun h => .each (.ite (.raise (.put (.each h (fun _ _ h1 =>
    .modSurf h1)) _ _) _ _) (.each h (fun _ _ h1 => .modSurf h1))) (fun _ _ h1 => .faderChange h1)))

theorem answers_execServoCut {k : Fin 4} : s.Answers (execServoCut k s) := .ite (.next id) (.next fun h => .servoCut h)

theorem answers_execFaderStall {f : Fin 256} : s.Answers (execFaderStall f s) :=
  .ite (.next fun h => .surfEvent (.modSurf (.modFader (.set h _)))) (.next id)

theorem answers_execSurfCntClr : s.Answers (execSurfCntClr s) := .ifHost (.next fun h => .clear h _)

/-! ### The transmit gate at the outputs (R378, R591, R619, R695, R765) -/

theorem State.Canonical.followGate (h : s.Canonical) {closed : Bool} : (s.followGate closed).Canonical :=
  .each (.each (.showGated h) (fun _ _ h1 => .modConv h1)) fun _ _ h1 => .modPs h1

theorem State.Canonical.modPair (h : s.Canonical) {f : PairSt → PairSt} : (s.modPair f).Canonical := .update h
theorem State.Canonical.pairEvent (h : s.Canonical) {cause : Nat} {st : Status} : (s.pairEvent cause st).Canonical := .post h _ _ _
theorem State.Canonical.gateDown (h : s.Canonical) : s.gateDown.Canonical := .ite (.followGate (.put h _ _)) h
theorem State.Canonical.closeGate (h : s.Canonical) : s.closeGate.Canonical := .ite (.pairEvent (.put (.gateDown h) _ _)) (.gateDown h)
theorem State.Canonical.openGate (h : s.Canonical) : s.openGate.Canonical := .ite (.followGate (.set h _)) h
theorem State.Canonical.reopenGate (h : s.Canonical) : s.reopenGate.Canonical := .ite (.openGate h) h

theorem answers_execRefxoFail : s.Answers (execRefxoFail s) :=
  .ite (.next id) (.next fun h => .postNow (.closeGate (.update (.put (.set h _) _ _))) _ _ _ _)

/-! ### The switch of a domain to the armed schedule, and a change of its range (R150, R153, R155, R719–R721) -/

theorem State.Canonical.openDomain (h : s.Canonical) {d : Nat} : (s.openDomain d).Canonical := .showGated (.update h)

theorem State.Canonical.configureDomain (h : s.Canonical) {i : SchedImage} {d : Nat} : (s.configureDomain i d).Canonical := by
  unfold State.configureDomain
  dsimp only
  split
  · exact .ite (.loseFrames (.stopMpll (.modDom h _ _))) (.modDom h _ _)
  · exact .ite (.modDom h _ _) (.ite (.modDom h _ _) (.startMpll (.modDom h _ _)))

theorem State.Canonical.showRotation (h : s.Canonical) {i : SchedImage} {d : Nat} : (s.showRotation i d).Canonical :=
  .each h (fun _ _ h1 => .put (.put (.putBit h1 _ _) _ _) _ _)

theorem State.Canonical.placeTimed (h : s.Canonical) {n : SchedImage} {d : Nat} : (s.placeTimed n d).Canonical := .modMix h _

theorem State.Canonical.makeSwitch (h : s.Canonical) {n : SchedImage} {d : Nat} {fade : Bool} : (s.makeSwitch n d fade).Canonical :=
  .ite (.put (.put (.modSched (.modSched (.placeTimed (.ite (.loadServos (.modMix (.newStrips (.showRotation (.setPoints (.openDomain
    (.configureDomain (.modSched (.ite (.each h (fun _ _ h1 => .fadeOld h1)) h) _)))))) _)) (.modMix (.newStrips (.showRotation
    (.setPoints (.openDomain (.configureDomain (.modSched (.ite (.each h (fun _ _ h1 => .fadeOld h1)) h) _)))))) _))) _) _) _ _) _ _)
    (.modSched (.placeTimed (.ite (.loadServos (.modMix (.newStrips (.showRotation (.setPoints (.openDomain (.configureDomain (.modSched
    (.ite (.each h (fun _ _ h1 => .fadeOld h1)) h) _)))))) _)) (.modMix (.newStrips (.showRotation (.setPoints (.openDomain
    (.configureDomain (.modSched (.ite (.each h (fun _ _ h1 => .fadeOld h1)) h) _)))))) _))) _)

theorem State.Canonical.rampFed (h : s.Canonical) {d : Nat} {down : Bool} : (s.rampFed d down).Canonical :=
  .ite (.each h (fun _ _ h1 => .update h1)) (.each h (fun _ _ h1 => .update h1))

theorem State.Canonical.beginRange (h : s.Canonical) {n : SchedImage} {d : Nat} : (s.beginRange n d).Canonical :=
  .postNow (.rampFed (.update h)) _ _ _ _

theorem answers_execScheduleSwitch {d : Fin 3} : s.Answers (execScheduleSwitch d s) := by
  unfold execScheduleSwitch
  dsimp only
  split
  · exact .next id
  · exact .ite (.ite (.next fun h => .ite (.beginRange h) h) (.next fun h => .makeSwitch h)) (.next id)

theorem answers_execRangePipelineStop {d : Fin 3} : s.Answers (execRangePipelineStop d s) :=
  .ite (.next fun h => .each (.modDom (.update h) _ _) (fun _ _ h1 => .modRegion (.put (.put h1 _ _) _ _) _ _)) (.next id)

theorem State.Canonical.restage (h : s.Canonical) {d : Nat} : (s.restage d).Canonical := .stageNow (.modMix h _)
theorem State.Canonical.restartStd (h : s.Canonical) {d : Nat} : (s.restartStd d).Canonical := .modStd h

theorem State.Canonical.lateBefore (h : s.Canonical) {d restart : Nat} : (s.lateBefore d restart).Canonical :=
  .ite (.modMix h _) (.update (.modMix h _))

theorem State.Canonical.convertItems (h : s.Canonical) {d old new restart : Nat} : (s.convertItems d old new restart).Canonical :=
  .lateBefore (.mapSi (.modMix h _))

theorem answers_execRangeRestart {d : Fin 3} {si : BitVec 64} : s.Answers (execRangeRestart d si s) := by
  unfold execRangeRestart
  dsimp only
  split
  · exact .next id
  · split
    · exact .next id
    · refine .ite (.next id) (.next fun h => .each (.ite (.each (.update (.restartStd (.restage (.makeSwitch (.ite (.setMask (.ite
        (.modMpll (.modDom (.convertItems h) _ _)) (.ite (.modDom (.convertItems h) _ _) (.unalign (.enterAcquire (.modDom
        (.convertItems h) _ _))))) _ _) (.ite (.modMpll (.modDom (.convertItems h) _ _)) (.ite (.modDom (.convertItems h) _ _) (.unalign
        (.enterAcquire (.modDom (.convertItems h) _ _)))))))))) (fun _ _ h1 => .unsettle h1)) (.update (.restartStd (.restage
        (.makeSwitch (.ite (.setMask (.ite (.modMpll (.modDom (.convertItems h) _ _)) (.ite (.modDom (.convertItems h) _ _) (.unalign
        (.enterAcquire (.modDom (.convertItems h) _ _))))) _ _) (.ite (.modMpll (.modDom (.convertItems h) _ _)) (.ite (.modDom
        (.convertItems h) _ _) (.unalign (.enterAcquire (.modDom (.convertItems h) _ _))))))))))) (fun _ _ h1 => ?_))
      split
      · exact .ite (.restartAsrc h1) h1
      · exact h1

theorem State.Canonical.endRange (h : s.Canonical) {d : Nat} : (s.endRange d).Canonical :=
  .ite (.postNow (.rampFed (.update h)) _ _ _ _) h

end Sys2Proof.Machine
end

