-- ==== Sys2Proof/Proofs/CanonicalStore.lean ====
section
/-! SUPPORT. The canonical form of registers and memories is kept by the track store, the registers, the pair, the pads, power and
trust: one lemma per operation, in the order of the model; each follows the shape of its definition. -/

namespace Sys2Proof.Machine

variable {s t u : State}


/-! ### The track store -/

theorem State.Canonical.modStore (h : s.Canonical) {f : StoreSt → StoreSt} : (s.modStore f).Canonical := .update h

/-! ### Commands to the drives (R662, R665) -/

theorem State.Canonical.sendDrives (h : s.Canonical) {l : List (Nat × NvmeOp)} : (s.sendDrives l).Canonical := .modStore h

/-! ### Takes on the drives -/

theorem State.Canonical.showFree (h : s.Canonical) : s.showFree.Canonical := .put h _ _
theorem State.Canonical.modTake (h : s.Canonical) {no : Nat} {f : Take → Take} : (s.modTake no f).Canonical := .modStore h
theorem State.Canonical.countTracks (h : s.Canonical) : s.countTracks.Canonical := .put (.put h _ _) _ _

/-! ### Mounting (R669, R670, R684, R685) -/

theorem State.Canonical.recover (h : s.Canonical) : s.recover.Canonical := by
  unfold State.recover
  dsimp only
  refine .ite (.set (.each (.modStore h) (fun _ _ h1 => ?_)) _) (.each (.modStore h) (fun _ _ h1 => ?_))
  · split
    · exact .finish h1 _ _ _ _ _ _
    · exact h1
  · split
    · exact .finish h1 _ _ _ _ _ _
    · exact h1

theorem State.Canonical.showMembers (h : s.Canonical) : s.showMembers.Canonical :=
  .showFree (.putBit (.put (.each (.put (.put h _ _) _ _) (fun _ _ h1 => .put (.putBit h1 _ _) _ _)) _ _) _ _)

theorem State.Canonical.unwrapKeys (h : s.Canonical) : s.unwrapKeys.Canonical := by
  unfold State.unwrapKeys
  dsimp only
  split
  · exact .modStore h
  · exact .modStore (.update h)

theorem State.Canonical.mount (h : s.Canonical) : s.mount.Canonical := by
  unfold State.mount
  dsimp only
  split
  · exact .modStore (.put h _ _)
  · exact .ite (.modStore (.put h _ _)) (.sendDrives (.showMembers (.recover (.unwrapKeys (.modStore (.modStore h))))))

theorem State.Canonical.closeTakes (h : s.Canonical) : s.closeTakes.Canonical := by
  unfold State.closeTakes
  dsimp only
  refine .countTracks (.each (.modStore h) (fun _ _ h1 => .post ?_ _ _ _))
  split
  · exact .finish h1 _ _ _ _ _ _
  · exact h1

theorem State.Canonical.memberLost (h : s.Canonical) {drive m : Nat} : (s.memberLost drive m).Canonical :=
  .postNow (.showFree (.putBit (.clrMask (.setMask (.put (.modStore (.closeTakes h)) _ _) _ _) _ _) _ _)) _ _ _ _

theorem State.Canonical.memberReturned (h : s.Canonical) {drive m : Nat} : (s.memberReturned drive m).Canonical :=
  .postNow (.modStore (.showMembers (.recover h))) _ _ _ _

theorem answers_execStoreDriveChange {n : Fin 8} {d : DriveSeen} : s.Answers (execStoreDriveChange n d s) := by
  unfold execStoreDriveChange
  dsimp only
  refine .ite (.next fun h => .put (.put (.putBit ?_ _ _) _ _) _ _) (.ite (.next fun h => .postNow (.put (.put (.putBit (.set (.set
    (.modStore h) _) _) _ _) _ _) _ _) _ _ _ _) (.ite (.next fun h => .ite (.memberReturned (.put (.put (.putBit (.put (.put (.set
    (.modStore h) _) _ _) _ _) _ _) _ _) _ _)) (.put (.put (.putBit (.put (.put (.set (.modStore h) _) _ _) _ _) _ _) _ _) _ _))
    (.next fun h => .ite (.postNow (.mount (.put (.put (.putBit (.put (.put (.set (.modStore h) _) _ _) _ _) _ _) _ _) _ _)) _ _ _ _)
    (.mount (.put (.put (.putBit (.put (.put (.set (.modStore h) _) _ _) _ _) _ _) _ _) _ _)))))
  split
  · exact .ite (.memberLost (.clear (.modStore h) _)) (.ite (.clear (.modStore h) _) (.mount (.clear (.modStore h) _)))
  · exact .clear (.modStore h) _

theorem answers_execStoreMemberLost {m : Fin 8} : s.Answers (execStoreMemberLost m s) := .next fun h => .ite (.memberLost h) h
theorem answers_execStoreMemberReturn {m : Fin 8} : s.Answers (execStoreMemberReturn m s) := .next fun h => .ite (.memberReturned h) h

/-! ### Stores and directories (R671, R672, R689, R690) -/

theorem answers_execStoreFormat {hd : CmdHdr} : s.Answers (execStoreFormat hd s) :=
  .next fun h => .ite (.refuse h) (.ite (.refuse h) (.ite (.refuse h) (.ite (.refuse h) (.ok (.sendDrives (.showMembers (.put (.put
    (.modStore (.update h)) _ _) _ _)))))))

theorem answers_execStoreShare {hd : CmdHdr} {dev slot : Nat} : s.Answers (execStoreShare hd dev slot s) :=
  .next fun h => .ite (.refuse h) (.ite (.refuse h) (.ite (.refuse h) (.ok (.sendDrives (.modStore h)))))

theorem answers_execStoreList {hd : CmdHdr} {addr first count : Nat} : s.Answers (execStoreList hd addr first count s) := by
  refine .next fun h => .ite (.refuse h) (.ite (.refuse h) (.ite (.finish h _ _ _ _ _ _) (.report ?_)))
  exact List.foldlRecOn (motive := fun x : List Byte × State => x.2.Canonical) _ _ h fun _ c _ _ => c.take

theorem answers_execStoreDelete {hd : CmdHdr} {no : Nat} : s.Answers (execStoreDelete hd no s) := by
  unfold execStoreDelete
  dsimp only
  refine .next fun h => .ite (.refuse h) (.ite (.refuse h) (.ite (.refuse h) ?_))
  split
  · exact .refuse h
  · exact .ok (.showFree (.sendDrives (.modStore h)))

/-! ### Recording (R673–R680) -/

theorem answers_execStoreRecIn {hd : CmdHdr} {outSi : Option Nat} {maskAddr : Nat} {tracks : List (Fin 1024)} {domain : Nat}
    {name : List Byte} : s.Answers (execStoreRecIn hd outSi maskAddr tracks domain name s) :=
  .next fun h => .ite (.refuse h) (.ite (.refuse h) (.ite (.refuse h) (.ite (.finish h _ _ _ _ _ _) (.ite (.refuse h) (.ite (.refuse h)
    (.ite (.refuse h) (.ite (.refuse h) (.ite (.refuse h) (.ite (.refuse h) (.modStore h))))))))))

theorem answers_execPunchIn {tag : BitVec 32} : s.Answers (execPunchIn tag s) := by
  unfold execPunchIn
  dsimp only
  split
  · exact .next id
  · exact .ite (.next fun h => .finish (.countTracks (.modStore h)) _ _ _ _ _ _) (.next id)

theorem answers_execStoreRecOut {hd : CmdHdr} {tag : Nat} : s.Answers (execStoreRecOut hd tag s) := by
  unfold execStoreRecOut
  dsimp only
  split
  · exact .next fun h => .refuse h
  · exact .next fun h => .ite (.refuse h) (.ite (.refuse h) (.ite (.refuse h) (.ite (.finish (.ite (.finish (.showFree (.countTracks
      (.modStore h))) _ _ _ _ _ _) (.showFree (.countTracks (.modStore h)))) _ _ _ _ _ _) (.modStore h))))

theorem answers_execPunchOut {no : Nat} : s.Answers (execPunchOut no s) := by
  unfold execPunchOut
  dsimp only
  split
  · exact .next id
  · split
    · exact .next id
    · refine .ite (.next fun h => ?_) (.next id)
      split
      · exact .finish (.post (.countTracks (.modTake h)) _ _ _) _ _ _ _ _ _
      · exact .post (.countTracks (.modTake h)) _ _ _

theorem answers_execChunkWrite {no : Nat} {track : Fin 1024} : s.Answers (execChunkWrite no track s) := by
  unfold execChunkWrite
  dsimp only
  split
  · exact .next id
  · refine .ite ?_ (.next id)
    split
    · exact .next id
    · exact .next fun h => .showFree (.sendDrives (.modTake (.ite (.take h) h)))

theorem answers_execRecordOverrun {no : Nat} {track : Fin 1024} : s.Answers (execRecordOverrun no track s) := by
  unfold execRecordOverrun
  dsimp only
  split
  · exact .next id
  · exact .ite (.next fun h => .postNow (.set (.bump (.modTake h) _) _) _ _ _ _) (.next id)

theorem answers_execJournalCut : s.Answers (execJournalCut s) := .ite (.next id) (.next fun h => .modStore h)

theorem answers_execJournalCommit {lbas : Fin 16} : s.Answers (execJournalCommit lbas s) :=
  .ite (.next fun h => .ite (.sendDrives (.modStore (.take (.modStore (.put (.modStore h) _ _))))) (.sendDrives (.modStore (.put
    (.modStore h) _ _)))) (.next id)

/-! ### Playback (R681–R683) -/

theorem answers_execStorePlay {hd : CmdHdr} {no recTrack track offset : Nat} {len : Option Nat} :
    s.Answers (execStorePlay hd no recTrack track offset len s) := by
  unfold execStorePlay
  dsimp only
  split
  · exact .next fun h => .refuse h
  · exact .next fun h => .ite (.refuse h) (.ite (.refuse h) (.ite (.refuse h) (.ite (.refuse h) (.ite (.refuse h) (.ite (.refuse h) (.ite
      (.refuse h) (.ite (.refuse h) (.modStore h))))))))

theorem answers_execPlayStart {tag : BitVec 32} : s.Answers (execPlayStart tag s) := by
  unfold execPlayStart
  dsimp only
  split
  · exact .next id
  · exact .ite (.next fun h => .finish (.countTracks (.modStore h)) _ _ _ _ _ _) (.next id)

theorem answers_execStoreStop {hd : CmdHdr} {tag : Nat} : s.Answers (execStoreStop hd tag s) := by
  unfold execStoreStop
  dsimp only
  split
  · exact .next fun h => .refuse h
  · exact .next fun h => .ite (.refuse h) (.ite (.finish (.finish (.modStore h) _ _ _ _ _ _) _ _ _ _ _ _) (.modStore h))

theorem State.Canonical.modPlay (h : s.Canonical) {p : Play} {f : Play → Play} : (s.modPlay p f).Canonical := .modStore h

theorem answers_execPlaybackChunkRead {track : Fin 1024} {chunk : Nat} : s.Answers (execPlaybackChunkRead track chunk s) := by
  unfold execPlaybackChunkRead
  dsimp only
  refine .next fun h => ?_
  split
  · exact .sendDrives (.modPlay h)
  · exact h

theorem answers_execPlayUnderrun {track : Fin 1024} {chunk : Nat} : s.Answers (execPlayUnderrun track chunk s) := by
  unfold execPlayUnderrun
  dsimp only
  refine .next fun h => ?_
  split
  · exact .postNow (.bump (.modPlay h) _) _ _ _ _
  · exact h

/-! ### Export, import, drives (R687, R688, R692) -/

theorem answers_execStoreExport {hd : CmdHdr} {ring no track first : Nat} {len : Option Nat} {mode : Nat} :
    s.Answers (execStoreExport hd ring no track first len mode s) := by
  unfold execStoreExport
  dsimp only
  split
  · exact .next fun h => .refuse h
  · exact .next fun h => .ite (.refuse h) (.ite (.refuse h) (.ite (.refuse h) (.ite (.refuse h) (.modStore h))))

theorem State.Canonical.exportBytes (h : s.Canonical) {m : StoreMove} {at_ : Nat} {n : Nat} : (s.exportBytes m at_ n).2.Canonical := by
  induction n generalizing s at_ with
  | zero => exact h
  | succ n ih =>
    unfold State.exportBytes
    dsimp only
    split
    · exact ih h
    · split
      · exact ih h
      · exact ih h.take

theorem answers_execStoreImport {hd : CmdHdr} {ring rate count length : Nat} {name : List Byte} :
    s.Answers (execStoreImport hd ring rate count length name s) :=
  .next fun h => .ite (.refuse h) (.ite (.refuse h) (.ite (.refuse h) (.ite (.refuse h) (.modStore (.modHost h _)))))

theorem State.Canonical.placeTake (h : s.Canonical) {no : Nat} : (s.placeTake no).Canonical := by
  unfold State.placeTake
  dsimp only
  split
  · exact h
  · refine .sendDrives (.each h (fun _ _ h1 => ?_))
    split
    · exact .modTake (.take h1)
    · exact h1

theorem State.Canonical.importArrived (h : s.Canonical) {t : Transfer} {x : ImageData} : (s.importArrived t x).Canonical := by
  unfold State.importArrived
  dsimp only
  split
  · exact .refuse h
  · split
    · exact .ite (.refuse (.modStore h)) (.ite (.refuse (.modStore h)) (.finish (.showFree (.placeTake (.modStore (.take
        (.modStore h))))) _ _ _ _ _ _))
    · exact .refuse (.modStore h)

theorem answers_execSmartPoll {n : Fin 8} {kelvin : BitVec 16} : s.Answers (execSmartPoll n kelvin s) :=
  .next fun h => .ite (.modStore (.put h _ _)) h

theorem answers_execStoreIoError {track : Fin 1024} : s.Answers (execStoreIoError track s) := .next fun h => .postNow (.bump h _) _ _ _ _
theorem answers_execStoreCntClr : s.Answers (execStoreCntClr s) := .ifHost (.next fun h => .clear h _)

/-! ### Ranges and defaults (R421, R810) -/

theorem State.Canonical.reject (h : s.Canonical) {o : Nat} : (s.reject o).Canonical := by
  unfold State.reject
  split
  · exact .set h _
  · exact h

/-! ### Discarded accesses and stale reads (R793, R798–R800, R805) -/

theorem State.Canonical.staleRead (h : s.Canonical) {off : Nat} : (s.staleRead off).Canonical :=
  .ite (.set (.bump (.set h _) _) _) (.set (.put (.bump (.set h _) _) _ _) _)

theorem answers_execPairLoRead {off : BitVec 18} {both : Bool} : s.Answers (execPairLoRead off both s) := by
  unfold execPairLoRead
  dsimp only
  split
  · exact .next fun h => .ite h (.update h)
  · exact .next id

theorem answers_execPairHiRead {off : BitVec 18} : s.Answers (execPairHiRead off s) := by
  unfold execPairHiRead
  dsimp only
  split
  · exact .next fun h => .ite h (.ite (.update h) (.staleRead h))
  · exact .next id

theorem answers_execGlobalCntClr : s.Answers (execGlobalCntClr s) := .ifHost (.next fun h => .clear h _)

/-! ### Writes of values (R14, R794, R801, R840) -/

theorem State.Canonical.writeField (h : s.Canonical) {v : Nat} {x : RegRow × Fld} : (s.writeField v x).Canonical := by
  unfold State.writeField
  split
  · exact .put h _ _
  · exact .put h _ _
  · exact h

theorem State.Canonical.writePlain (h : s.Canonical) {o v : Nat} : (s.writePlain o v).Canonical :=
  .ite (.reject h) (.foldl h (fun _ _ h1 => .writeField h1))

theorem State.Canonical.writePair (h : s.Canonical) {r : RegRow} {f : Fld} {hi : Bool} {v : Nat} : (s.writePair r f hi v).Canonical := by
  unfold State.writePair
  dsimp only
  split
  · exact .ite (.update h) (.ite (.reject (.update h)) (.put (.update h) _ _))
  · exact .put h _ _
  · exact h

/-! ### Writes with an effect -/

theorem State.Canonical.run {f : State → Out} (h : s.Canonical) (a : s.Answers (f s)) : (s.run f).Canonical := by
  obtain ⟨t, next, keeps⟩ := a
  rw [State.run, next]
  exact keeps h

theorem State.Canonical.enableAesRx (h : s.Canonical) {n : Nat} : (s.enableAesRx n).Canonical := .ite (.set h _) (.set h _)
theorem State.Canonical.enableAesTx (h : s.Canonical) {n : Nat} : (s.enableAesTx n).Canonical := .ite (.set h _) (.showGated (.set h _))

theorem State.Canonical.wlEnable (h : s.Canonical) {p : Nat} {en : Bool} : (s.wlEnable p en).Canonical :=
  .ite (.wlBringUp (.putBit h _ _)) (.wlLeaveUp (.putBit h _ _))

theorem State.Canonical.slEnable (h : s.Canonical) {p : Nat} {en : Bool} : (s.slEnable p en).Canonical :=
  .ite (.putBit h _ _) (.ite (.put (.putBit h _ _) _ _) (.each (.put (.put (.putBit h _ _) _ _) _ _) (fun _ _ h1 => .dropFaders h1)))

/-! ### Roles (R764–R768, R774, R776) -/

theorem State.Canonical.becomeReady (h : s.Canonical) : s.becomeReady.Canonical := .ite h (.pairEvent (.set h _))

theorem State.Canonical.becomeSuspect (h : s.Canonical) : s.becomeSuspect.Canonical :=
  .pairEvent (.modPair (.put (.put (.set h _) _ _) _ _))

theorem State.Canonical.enterStandby (h : s.Canonical) {epoch : Nat} : (s.enterStandby epoch).Canonical :=
  .ite (.becomeReady (.pairEvent (.modPair (.putBit (.put (.put (.put (.put (.gateDown h) _ _) _ _) _ _) _ _) _ _)))) (.pairEvent
    (.modPair (.putBit (.put (.put (.put (.put (.gateDown h) _ _) _ _) _ _) _ _) _ _)))

theorem State.Canonical.becomeSolo (h : s.Canonical) : s.becomeSolo.Canonical := .reopenGate (.modPair (.clear h _))

theorem State.Canonical.beginPairing (h : s.Canonical) : s.beginPairing.Canonical :=
  .ite (.pairEvent (.gateDown (.modPair (.put (.put (.set h _) _ _) _ _)))) (.modPair (.put (.put (.set h _) _ _) _ _))

/-! ### Enabling (R760, R787) -/

theorem State.Canonical.pairEnWrite (h : s.Canonical) {v : Nat} : (s.pairEnWrite v).Canonical :=
  .ite (.reject h) (.ite (.putBit (.writePlain h) _ _) (.ite (.becomeSolo (.put (.putBit (.writePlain h) _ _) _ _)) (.ite (.reject
    (.putBit (.writePlain h) _ _)) (.beginPairing (.putBit (.writePlain h) _ _)))))

/-! ### Messages (R761, R762) -/

theorem State.Canonical.sendWitness (h : s.Canonical) {m : PairMsg} : (s.sendWitness m).Canonical := .sendCtrl h

theorem State.Canonical.firstCopy (h : s.Canonical) {m : PairMsg} (e : s.firstCopy m = some t) : t.Canonical := by
  unfold State.firstCopy at e
  split_ifs at e <;> cases e
  · exact h
  · exact .modPair h

theorem State.Canonical.heardPartner (h : s.Canonical) {m : PairMsg} : (s.heardPartner m).Canonical := .modPair (.putBit (.set h _) _ _)
theorem State.Canonical.heardWitness (h : s.Canonical) : s.heardWitness.Canonical := .modPair (.set h _)

theorem State.Canonical.onPartner (h : s.Canonical) {m : PairMsg} {f : State → State} (keeps : ∀ u, u.Canonical → (f u).Canonical) :
    (s.onPartner m f).Canonical := by
  refine .ite h ?_
  split
  · exact .update h
  · next e => exact .ite (keeps _ (.heardPartner (.firstCopy h e))) (.pairEvent (.firstCopy h e))

theorem State.Canonical.onWitness (h : s.Canonical) {m : PairMsg} {f : State → State} (keeps : ∀ u, u.Canonical → (f u).Canonical) :
    (s.onWitness m f).Canonical := .ite (keeps _ (.heardWitness h)) h

/-! ### The witness (R762, R763, R767, R769) -/

theorem State.Canonical.setWit (h : s.Canonical) {w : WitPair} : (s.setWit w).Canonical := .put (.modPair h) _ _

theorem State.Canonical.witAnswer (h : s.Canonical) {kind : Nat} {m : PairMsg} {epoch : Nat} {refuse busy : Bool} :
    (s.witAnswer kind m epoch refuse busy).Canonical :=
  .sendCtrl h

theorem State.Canonical.witRenew (h : s.Canonical) {m : PairMsg} : (s.witRenew m).Canonical := by
  unfold State.witRenew
  split
  · exact .ite (.witAnswer h) (.witAnswer (.setWit h))
  · exact .ite h (.witAnswer (.setWit h))

theorem State.Canonical.witClaim (h : s.Canonical) {m : PairMsg} : (s.witClaim m).Canonical := by
  unfold State.witClaim
  dsimp only
  split
  · exact .ite (.witAnswer (.setWit h)) (.witAnswer h)
  · exact .ite (.witAnswer h) (.witAnswer (.setWit h))

/-! ### Takeover and yield (R767, R777, R778) -/

theorem State.Canonical.takeLease (h : s.Canonical) : s.takeLease.Canonical :=
  .postNow (.pairEvent (.put (.bump (.ite (.openGate (.modPair (.clear (.put (.put (.take h) _ _) _ _) _))) (.pairEvent (.put (.modPair
    (.clear (.put (.put (.take h) _ _) _ _) _)) _ _))) _) _ _)) _ _ _ _

theorem State.Canonical.sendYield (h : s.Canonical) {verdict : Bool} {frames : Nat} : (s.sendYield verdict frames).Canonical := by
  unfold State.sendYield
  dsimp only
  exact .modPair (.sendPair h)

/-! ### Control state (R776) -/

theorem State.Canonical.sendState (h : s.Canonical) : s.sendState.Canonical := .modPair (.sendPair h)

theorem State.Canonical.installControl (h : s.Canonical) {c : ControlState} : (s.installControl c).Canonical := by
  unfold State.installControl
  dsimp only
  split
  · exact .each (.each (.modPair (.countLive (.update (.modMix h _)))) (fun _ _ h1 => .stageNow h1)) fun _ _ h1 => .ite
      (.writeSlots h1) h1
  · exact .each (.modPair (.countLive (.update (.modMix h _)))) fun _ _ h1 => .stageNow h1

/-! ### The multi-function pads (R828–R833) -/

theorem State.Canonical.showPin (h : s.Canonical) {k : Nat} : (s.showPin k).Canonical := .putBit (.putBit h _ _) _ _
theorem State.Canonical.pinLevel (h : s.Canonical) {k : Nat} : (s.pinLevel k).Canonical := .ite (.ite (.setMask h _ _) (.clrMask h _ _)) h

theorem State.Canonical.pinWrite (h : s.Canonical) {k v : Nat} : (s.pinWrite k v).Canonical :=
  .ite (.bump (.set h _) _) (.showPin (.writePlain h))

theorem answers_execPinfnWrite {k : Fin 32} {value : BitVec 32} : s.Answers (execPinfnWrite k value s) :=
  .ifRestored (.next fun h => .pinWrite h)

theorem answers_execPinfnChange {k : Fin 32} : s.Answers (execPinfnChange k s) :=
  .next fun h => .ite h (.ite (.showPin (.pinLevel (.update h))) (.showPin (.set (.update h) _)))

theorem answers_execPinfnParkEnd {k : Fin 32} : s.Answers (execPinfnParkEnd k s) := by
  unfold execPinfnParkEnd
  dsimp only
  split
  · exact .next id
  · exact .next fun h => .showPin (.pinLevel (.bump (.put (.update h) _ _) _))

theorem answers_execPinfnCntClr : s.Answers (execPinfnCntClr s) := .ifHost (.next fun h => .clear h _)

/-! ### The Bisque image -/

theorem State.Canonical.modPwr (h : s.Canonical) {f : PwrSt → PwrSt} : (s.modPwr f).Canonical := .update h

/-! ### Settings (R699, R705, R706) -/

theorem State.Canonical.storePrograms (h : s.Canonical) : s.storePrograms.Canonical := by
  unfold State.storePrograms
  dsimp only
  split
  · exact h
  · exact .ite h (.put (.modPwr h) _ _)

theorem State.Canonical.setCopy (h : s.Canonical) {k : Nat} {c : BisqueCopy} : (s.setCopy k c).Canonical := .modPwr h

theorem State.Canonical.rewriteBase (h : s.Canonical) {x : Settings} {n : Nat} : (s.rewriteBase x n).Canonical := by
  unfold State.rewriteBase
  dsimp only
  exact .modPwr (.ite (.setCopy (.each h (fun _ _ h1 => .setCopy h1))) (.each h (fun _ _ h1 => .setCopy h1)))

theorem State.Canonical.appendRecord (h : s.Canonical) {x : Settings} {bytes n : Nat} : (s.appendRecord x bytes n).Canonical :=
  .each h fun _ _ h1 => .ite (.setCopy h1) h1

theorem State.Canonical.finalCommit (h : s.Canonical) {bytes : Nat} {t : TimeRecord} : (s.finalCommit bytes t).Canonical := by
  unfold State.finalCommit
  dsimp only
  exact .modPwr (.ite (.rewriteBase (.storePrograms h)) (.appendRecord (.storePrograms h)))

theorem answers_execSettingsAppend {bytes : Nat} {t : TimeRecord} {reach : Fin 7} : s.Answers (execSettingsAppend bytes t reach s) :=
  .ite (.next id) (.next fun h => .modPwr (.ite (.rewriteBase (.storePrograms h)) (.ite (.ite (.appendRecord (.storePrograms h))
    (.rewriteBase (.appendRecord (.storePrograms h)))) (.appendRecord (.storePrograms h)))))

/-! ### What a cold start keeps (R696, R704, R710, R723, R730, R758, R805) -/

theorem State.Canonical.cleared (h : s.Canonical) : s.cleared.Canonical := by
  refine .each ?_ fun _ _ h1 => .put h1 _ _
  have r := canonical_reset
  exact ⟨r.regs, r.dram, r.shm, r.lmem, r.dly, r.glz, r.stage, h.hostMem⟩

/-! ### Selections (R707, R709, R752) -/

theorem State.Canonical.showCopies (h : s.Canonical) {f : StartFacts} {pick : Option Nat} {maj : Bool} {st : Status} :
    (s.showCopies f pick maj st).Canonical :=
  .put (.putBit (.putBit (.put (.each h (fun _ _ h1 => .put (.putBit (.putBit (.putBit h1 _ _) _ _) _ _) _ _)) _ _) _ _) _ _) _ _

/-! ### Clocks (R108, R414, R715) -/

theorem State.Canonical.startDomains (h : s.Canonical) {i : Option SchedImage} {ns : Nat} : (s.startDomains i ns).Canonical := by
  unfold State.startDomains
  refine .each h fun _ _ h1 => ?_
  split
  · exact .modDom h1 _ _
  · exact .ite (.modDom h1 _ _) h1

theorem State.Canonical.startMplls (h : s.Canonical) : s.startMplls.Canonical :=
  .each h (fun _ _ h1 => .ite (.masterClocks (.put (.modMpll h1) _ _)) (.enterMpll (.enterAcquire (.masterClocks (.put
    (.modMpll h1) _ _)))))

/-! ### Restoration (R807–R810, R842) -/

theorem State.Canonical.applyEnable (h : s.Canonical) {r : RegRow} {f : Fld} {v : Nat} : (s.applyEnable r f v).Canonical := by
  unfold State.applyEnable
  dsimp only
  split
  · exact .run h answers_execConvEnWrite
  · exact .run h answers_execConvEnWrite
  · exact .each h fun _ _ h1 => .ite h1 (.run h1 answers_execPsEnWrite)
  · refine .ite h ?_
    split
    · exact .wlEnable h
    · exact .ite (.enablePort h) (.disablePort h)
    · exact .ite (.enableAesRx h) (.disableAesRx h)
    · exact .ite (.enableAesTx h) (.disableAesTx h)
    · exact .slEnable h
    · exact .ite (.reject h) (.beginPairing h)
    · exact .put h _ _

theorem State.Canonical.restoreLaw (h : s.Canonical) : s.restoreLaw.Canonical := by
  unfold State.restoreLaw
  dsimp only
  split
  · exact .modSurf (.run h answers_execLawCommit)
  · exact h

theorem State.Canonical.restoreFields (h : s.Canonical) {l : List (RegRow × Fld)} {x : Option Settings} {src : List (Fld × Nat)} :
    (s.restoreFields l x src).Canonical :=
  .each (.each h (fun _ _ h1 => .ite (.bump (.ite h1 (.put h1 _ _)) _) (.ite h1 (.put h1 _ _)))) fun _ _ h1 => .ite (.put h1 _ _) h1

theorem State.Canonical.restoreSettings (h : s.Canonical) {l : List (RegRow × Fld)} {x : Option Settings} :
    (s.restoreSettings l x).Canonical :=
  .each (.each (.restoreLaw (.update (.restoreFields h))) (fun _ _ h1 => .showPin h1)) fun _ _ h1 => .applyEnable h1

theorem State.Canonical.restore (h : s.Canonical) {x : Option Settings} {source : Nat} : (s.restore x source).Canonical :=
  .restoreSettings (.put (.set h _) _ _)

/-! ### Schedule and first audio (R714, R716, R717) -/

theorem State.Canonical.startSchedule (h : s.Canonical) {i : SchedImage} : (s.startSchedule i).Canonical :=
  .each (.each (.loadServos (.newStrips (.each (.set (.put (.put (.advanceCounters (.modSched h _)) _ _) _ _) _) (fun _ _ h1 =>
    .showRotation (.setPoints h1))))) (fun _ _ h1 => .ite (.writeSlots (.loadCluster h1)) h1)) fun _ _ h1 => .tables (.stageNow h1)

theorem State.Canonical.unmuteAll (h : s.Canonical) : s.unmuteAll.Canonical := .showGated (.each h (fun _ _ h1 => .modPwr h1))

theorem State.Canonical.endStart (h : s.Canonical) {kind : Nat} {f : StartFacts} {fw : Nat} {st : Status} :
    (s.endStart kind f fw st).Canonical := by
  unfold State.endStart
  dsimp only
  exact .postStart (.update (.modPwr (.put (.put (.raise (.put (.put (.put (.put h _ _) _ _) _ _) _ _) _ _) _ _) _ _)))

theorem State.Canonical.startOn (h : s.Canonical) {x : Option Settings} {source : Nat} {f : StartFacts} :
    (s.startOn x source f).Canonical :=
  .startMplls (.restore (.startDomains (.setClock h)))

theorem State.Canonical.startBare (h : s.Canonical) {kind : Nat} {f : StartFacts} {fw : Nat} {st : Status} :
    (s.startBare kind f fw st).Canonical :=
  .endStart (.modPwr (.put (.startOn h) _ _))

theorem State.Canonical.startHouse (h : s.Canonical) {kind : Nat} {f : StartFacts} {fw : Nat} {st : Status} :
    (s.startHouse kind f fw st).Canonical := by
  unfold State.startHouse
  dsimp only
  split
  · exact .startBare h
  · split
    · exact .startBare h
    · exact .ite (.startBare h) (.endStart (.unmuteAll (.modPwr (.set (.startSchedule (.modSched (.put (.startOn h) _ _) _)) _))))

theorem State.Canonical.startCopy (h : s.Canonical) {k : Nat} {f : StartFacts} {fw : Nat} : (s.startCopy k f fw).Canonical := by
  unfold State.startCopy
  dsimp only
  split
  · exact .endStart (.modPwr (.put (.startOn h) _ _))
  · split
    · exact .startHouse h
    · refine .ite (.startHouse h) ?_
      split
      · exact .startHouse h
      · exact .endStart (.unmuteAll (.startSchedule (.modSched (.modPwr (.put (.startOn h) _ _)) _)))

theorem State.Canonical.coldStart (h : s.Canonical) {f : StartFacts} : (s.coldStart f).Canonical := by
  unfold State.coldStart
  dsimp only
  refine .ite (.put (.putBit (.cleared h) _ _) _ _) ?_
  split
  · exact .set (.put (.putBit (.cleared h) _ _) _ _) _
  · split
    · exact .startCopy (.showCopies (.set (.set (.put (.put (.put (.putBit (.cleared h) _ _) _ _) _ _) _ _) _) _))
    · exact .startHouse (.showCopies (.set (.set (.put (.put (.put (.putBit (.cleared h) _ _) _ _) _ _) _ _) _) _))

/-! ### Supplies (R694, R695) -/

theorem State.Canonical.stopFirings (h : s.Canonical) : s.stopFirings.Canonical :=
  .each h (fun _ _ h1 => .modCluster (.dropGrants (.haltUnits h1)))

theorem State.Canonical.outputsIdle (h : s.Canonical) : s.outputsIdle.Canonical :=
  .each (.each (.each (.each (.modPwr h) (fun _ _ h1 => .put h1 _ _)) (fun _ _ h1 => .put h1 _ _)) (fun _ _ h1 =>
    .unsettle h1)) fun _ _ h1 => .psTo (.modPs h1)

theorem answers_execPowerGood {f : StartFacts} : s.Answers (execPowerGood f s) := .next fun h => .ite (.coldStart h) h

theorem answers_execSupplyDip : s.Answers (execSupplyDip s) :=
  .next fun h => .ite h (.postNow (.outputsIdle (.stopFirings (.closeGate (.set h _)))) _ _ _ _)

theorem answers_execRetentionLoss : s.Answers (execRetentionLoss s) := .next fun h => .set h _

theorem answers_execWarmRestart {f : StartFacts} : s.Answers (execWarmRestart f s) := by
  unfold execWarmRestart
  dsimp only
  refine .ite (.next id) ?_
  split
  · exact .next fun h => .endStart (.reopenGate (.startMplls (.each (.postNow (.put h _ _) _ _ _ _) (fun _ _ h1 => .modMix (.lateBefore
      (.modDom h1 _ _)) _))))
  · split
    · exact .next fun h => .startHouse (.put (.cleared h) _ _)
    · exact .next fun h => .endStart (.each (.reopenGate (.unmuteAll (.startMplls (.each (.postNow (.put h _ _) _ _ _ _) (fun _ _ h1 =>
        .modMix (.lateBefore (.modDom h1 _ _)) _))))) (fun _ _ h1 => .ite (.psStart h1) h1))

/-! ### Power-fail warning (R711–R713, R686) -/

theorem answers_execPowerFailWarning {bytes : Nat} {t : TimeRecord} : s.Answers (execPowerFailWarning bytes t s) :=
  .ite (.next id) (.next fun h => .modStore (.ite (.finalCommit (.postNow (.bump (.set (.set h _) _) _) _ _ _ _)) (.postNow (.bump (.set
    (.set h _) _) _) _ _ _ _)))

theorem answers_execWarningEnd : s.Answers (execWarningEnd s) :=
  .ite (.next id) (.next fun h => .ite (.postNow (.bump (.set (.modStore (.put h _ _)) _) _) _ _ _ _) (.modStore (.put h _ _)))

/-! ### The warmer domain (R699–R703) -/

theorem State.Canonical.supplyTo (h : s.Canonical) {supply body : Nat} : (s.supplyTo supply body).Canonical :=
  .ite (.postNow (.set (.put h _ _) _) _ _ _ _) (.set (.put h _ _) _)

theorem answers_execVbatHandover : s.Answers (execVbatHandover s) := .next fun h => .ite h (.supplyTo (.modPwr h))

theorem answers_execVddAonReturn {cycles : List Bool} : s.Answers (execVddAonReturn cycles s) :=
  .ite (.next id) (.next fun h => .ite (.supplyTo (.modPwr (.put h _ _))) (.modPwr (.put h _ _)))

theorem State.Canonical.rampDown (h : s.Canonical) {x : AfterRamp} : (s.rampDown x).Canonical := by
  unfold State.rampDown
  dsimp only
  exact .modPwr (.each h (fun _ _ h1 => .modPwr h1))

theorem State.Canonical.powerDown (h : s.Canonical) {commit : Bool} {bytes : Nat} {t : TimeRecord} :
    (s.powerDown commit bytes t).Canonical := by
  unfold State.powerDown
  dsimp only
  exact .modStore (.modPwr (.ite (.finalCommit (.closeTakes (.closeGate h))) (.closeTakes (.closeGate h))))

theorem answers_execPwrStandby {bytes : Nat} {t : TimeRecord} : s.Answers (execPwrStandby bytes t s) := by
  unfold execPwrStandby
  dsimp only
  refine .ifHost (.ite (.next fun h => .set h _) (.ite (.next id) (.next fun h => ?_)))
  split
  · exact .powerDown (.rampDown h)
  · exact .rampDown h

theorem answers_execWake : s.Answers (execWake s) := .next fun h => .ite (.modPwr h) h

theorem answers_execWarmAlarm : s.Answers (execWarmAlarm s) :=
  .ite (.next id) (.next fun h => .ite (.modPwr (.set (.put h _ _) _)) (.set (.put h _ _) _))

theorem answers_execWakeFail : s.Answers (execWakeFail s) := .next fun h => .ite (.set (.modPwr h) _) h
theorem answers_execPwrCntClr : s.Answers (execPwrCntClr s) := .ifHost (.next fun h => .clear h _)

/-! ### Recovery (R753, R758) -/

theorem answers_execRecoveryGo {image : Option ImageData} {f : StartFacts} : s.Answers (execRecoveryGo image f s) := by
  unfold execRecoveryGo
  dsimp only
  refine .ite (.next id) (.ite (.next fun h => .set h _) ?_)
  split
  · split
    · exact .next fun h => .put (.put h _ _) _ _
    · exact .next fun h => .coldStart (.modPwr (.update h))
  · exact .next fun h => .put (.put h _ _) _ _

/-! ### What the Ritadom core does with TRUST_* commands -/

theorem State.Canonical.modTrust (h : s.Canonical) {f : TrustSt → TrustSt} : (s.modTrust f).Canonical := .update h
theorem State.Canonical.trustState (h : s.Canonical) {old new : Nat} : (s.trustState old new).Canonical := .postNow h _ _ _ _

theorem State.Canonical.trustObject (h : s.Canonical) {kind phase version : Nat} : (s.trustObject kind phase version).Canonical :=
  .postNow h _ _ _ _

theorem State.Canonical.showDigest (h : s.Canonical) {f : Nat → Fld} {v : Nat} : (s.showDigest f v).Canonical :=
  .each h fun _ _ h1 => .put h1 _ _

theorem State.Canonical.setIdentity (h : s.Canonical) {v : Nat} : (s.setIdentity v).Canonical := .showDigest (.modTrust h)
theorem State.Canonical.setOwner (h : s.Canonical) {v : Nat} : (s.setOwner v).Canonical := .showDigest (.modTrust h)
theorem State.Canonical.showPolicy (h : s.Canonical) {p : Policy} : (s.showPolicy p).Canonical := .each h fun _ _ h1 => .put h1 _ _

/-! ### Life cycle (R728–R732) -/

theorem State.Canonical.transition (h : s.Canonical) {new : Nat} : (s.transition new).Canonical :=
  .ite (.setIdentity (.ite (.update (.ite (.put h _ _) (.modPwr (.modTrust (.setOwner (.clear (.bump (.put h _ _) _) _)))))) (.ite
    (.put h _ _) (.modPwr (.modTrust (.setOwner (.clear (.bump (.put h _ _) _) _))))))) (.ite (.update (.ite (.put h _ _) (.modPwr
    (.modTrust (.setOwner (.clear (.bump (.put h _ _) _) _)))))) (.ite (.put h _ _) (.modPwr (.modTrust (.setOwner (.clear (.bump
    (.put h _ _) _) _))))))

theorem State.Canonical.flush (h : s.Canonical) {n : Nat} : (s.flush n).Canonical := by
  induction n generalizing s with
  | zero => exact h
  | succ n ih => exact .ite h (ih (.run h answers_execCommandCompletion))

theorem State.Canonical.enterState (h : s.Canonical) {new : Nat} {f : StartFacts} : (s.enterState new f).Canonical :=
  .coldStart (.trustState (.transition (.closeGate (.modPwr h))))

theorem State.Canonical.endRamps (h : s.Canonical) : s.endRamps.Canonical := by
  unfold State.endRamps
  split
  · exact .powerDown h
  · exact .enterState h
  · exact h

theorem State.Canonical.release (h : s.Canonical) {hd : CmdHdr} {new : Nat} {f : StartFacts} : (s.release hd new f).Canonical :=
  .endRamps (.rampDown (.flush (.ok h)))

/-! ### Claims (R733–R735) -/

theorem State.Canonical.claim (h : s.Canonical) {hd : CmdHdr} {code : BitVec 64} {owner : Nat} {sigOk : Bool} :
    (s.claim hd code owner sigOk).Canonical :=
  .ite (.refuse h) (.ite (.refuse h) (.ite (.refuse (.postNow (.modTrust (.put (.set (.bump h _) _) _ _)) _ _ _ _)) (.ite (.refuse h)
    (.ok (.trustState (.showPolicy (.update (.modTrust (.put (.put (.setOwner h) _ _) _ _)))))))))

/-! ### Signed objects (R738–R744, R752, R755) -/

theorem State.Canonical.committed (h : s.Canonical) {hd : CmdHdr} {op : Nat} {sig : SigBlock} : (s.committed hd op sig).Canonical := by
  unfold State.committed
  dsimp only
  refine .ok (.trustObject ?_)
  split
  · exact .ite h (.raise h _ _)
  · exact h

theorem State.Canonical.commitPolicy (h : s.Canonical) {hd : CmdHdr} {sig : SigBlock} {p : Policy} :
    (s.commitPolicy hd sig p).Canonical := by
  unfold State.commitPolicy
  dsimp only
  split
  · exact .refuse h
  · exact .ite (.refuse h) (.ite (.refuse h) (.committed (.set (.modTrust h) _)))

theorem State.Canonical.commitMembers (h : s.Canonical) {hd : CmdHdr} {sig : SigBlock} {l : List (Nat × Nat)} :
    (s.commitMembers hd sig l).Canonical := by
  unfold State.commitMembers
  dsimp only
  split
  · exact .refuse h
  · exact .ite (.refuse h) (.committed (.set (.modTrust h) _))

theorem State.Canonical.commitHouse (h : s.Canonical) {hd : CmdHdr} {sig : SigBlock} {x : Settings} :
    (s.commitHouse hd sig x).Canonical := by
  unfold State.commitHouse
  dsimp only
  split
  · exact .refuse h
  · exact .committed (.set (.modTrust (.modPwr h)) _)

theorem State.Canonical.commitFirmware (h : s.Canonical) {hd : CmdHdr} {sig : SigBlock} {l : List ProgImage} :
    (s.commitFirmware hd sig l).Canonical := by
  unfold State.commitFirmware
  dsimp only
  split
  · exact .refuse h
  · exact .committed (.set (.modTrust (.modPwr h)) _)

theorem State.Canonical.lifeObject (h : s.Canonical) {hd : CmdHdr} {sig : SigBlock} {target epoch : Nat} {reservedOk : Bool}
    {f : StartFacts} : (s.lifeObject hd sig target epoch reservedOk f).Canonical := by
  unfold State.lifeObject
  split
  · exact .refuse h
  · exact .ite (.refuse h) (.ite (.refuse h) (.release h))

theorem State.Canonical.unlock (h : s.Canonical) {hd : CmdHdr} {sig : SigBlock} {challenge : Nat} :
    (s.unlock hd sig challenge).Canonical := by
  unfold State.unlock
  refine .ite (.refuse h) ?_
  split
  · exact .refuse h
  · exact .ite (.refuse h) (.ok (.set (.modTrust h) _))

theorem State.Canonical.object (h : s.Canonical) {hd : CmdHdr} {kind : Nat} {x : ImageData} {f : StartFacts} :
    (s.object hd kind x f).Canonical := by
  unfold State.object
  split
  · exact .lifeObject h
  · exact .commitPolicy h
  · exact .commitMembers h
  · exact .commitHouse h
  · exact .commitFirmware h
  · exact .unlock h
  · exact .refuse h

/-! ### Attestation, certificates and challenges (R726, R750, R755) -/

theorem State.Canonical.attest (h : s.Canonical) {hd : CmdHdr} {addr : Nat} {nonce : BitVec 256} : (s.attest hd addr nonce).Canonical :=
  .ite (.refuse h) (.ite (.refuse h) (.report (.update h)))

theorem State.Canonical.cert (h : s.Canonical) {hd : CmdHdr} {addr : Nat} : (s.cert hd addr).Canonical := .ite (.refuse h) (.report h)

theorem State.Canonical.newChallenge (h : s.Canonical) {hd : CmdHdr} : (s.newChallenge hd).Canonical :=
  .ite (.refuse h) (.finish (.modTrust (.update h)) _ _ _ _ _ _)

/-! ### The queue (R749) -/

theorem State.Canonical.runJob (h : s.Canonical) {hd : CmdHdr} {x0 : TrustJob} : (s.runJob hd x0).Canonical := by
  unfold State.runJob
  split
  · exact .attest h
  · exact .claim h
  · exact .cert h
  · exact .newChallenge h
  · exact .object h
  · exact h

theorem State.Canonical.runTrust (h : s.Canonical) {n : Nat} : (s.runTrust n).Canonical := by
  induction n generalizing s with
  | zero => exact h
  | succ n ih =>
    unfold State.runTrust
    split
    · exact h
    · exact .ite (ih (.runJob (.modTrust h))) h

theorem State.Canonical.drainTrust (h : s.Canonical) : s.drainTrust.Canonical := .runTrust h
theorem State.Canonical.addJob (h : s.Canonical) {hd : CmdHdr} {j : TrustJob} : (s.addJob hd j).Canonical := .drainTrust (.modTrust h)

theorem State.Canonical.awaitObject (h : s.Canonical) {hd : CmdHdr} {kind ring length : Nat} :
    (s.awaitObject hd kind ring length).Canonical :=
  .ite (.refuse h) (.ite (.awaitImage h) (.modTrust (.awaitImage h)))

theorem State.Canonical.objectArrived (h : s.Canonical) {t : Transfer} {x : ImageData} {f : StartFacts} :
    (s.objectArrived t x f).Canonical :=
  .drainTrust (.modTrust h)

theorem State.Canonical.dropJobs (h : s.Canonical) {l : List Transfer} : (s.dropJobs l).Canonical := .drainTrust (.modTrust h)

/-! ### The next P-domain boundary (R743, R744) -/

theorem State.Canonical.adoptPolicy (h : s.Canonical) : s.adoptPolicy.Canonical := by
  unfold State.adoptPolicy
  dsimp only
  split
  · exact h
  · exact .trustObject (.ite (.each (.each (.modStore (.ite (.showPolicy (.modTrust h)) (.each (.showPolicy (.modTrust h)) (fun _ _ h1 =>
      .ite (.put h1 _ _) h1)))) (fun _ _ h1 => .finish h1 _ _ _ _ _ _)) (fun _ _ h1 => .put h1 _ _)) (.each (.modStore (.ite (.showPolicy
      (.modTrust h)) (.each (.showPolicy (.modTrust h)) (fun _ _ h1 => .ite (.put h1 _ _) h1)))) (fun _ _ h1 => .finish h1 _ _ _ _ _ _)))

theorem State.Canonical.adoptMembers (h : s.Canonical) : s.adoptMembers.Canonical := by
  unfold State.adoptMembers
  dsimp only
  split
  · exact h
  · exact .trustObject (.each (.put (.update (.modTrust h)) _ _) (fun _ _ h1 => .ite (.put (.wlLeaveUp h1) _ _) h1))

end Sys2Proof.Machine
end

