-- ==== Sys2Proof/Proofs/CanonicalHub.lean ====
section
/-! SUPPORT. The canonical form of registers and memories is kept by self-tests, host DMA, received frames, the crossbar, clusters and
frames: one lemma per operation, in the order of the model; each follows the shape of its definition. -/

namespace Sys2Proof.Machine

variable {s t u : State}


/-! ### Rotation (R780–R783) -/

theorem State.Canonical.rotationEvent (h : s.Canonical) {g kind : Nat} : (s.rotationEvent g kind).Canonical := .postNow h _ _ _ _
theorem State.Canonical.clearPrograms (h : s.Canonical) {c : Nat} : (s.clearPrograms c).Canonical := .update h

theorem State.Canonical.copyCluster (h : s.Canonical) {o t : Nat} : (s.copyCluster o t).Canonical :=
  have c : (s.clearPrograms t).Canonical := .clearPrograms h
  ⟨c.regs, c.dram, copyRange_wf _ _ _ _ h.shm, copyRange_wf _ _ _ _ h.lmem, c.dly, copyRange_wf _ _ _ _ h.glz, c.stage, c.hostMem⟩

theorem State.Canonical.clearCluster (h : s.Canonical) {c : Nat} : (s.clearCluster c).Canonical := by
  have p : (s.clearPrograms c).Canonical := .clearPrograms h
  unfold State.clearCluster
  refine .modCluster ?_
  exact ⟨p.regs, p.dram, clearRange_wf _ _ _ p.shm, clearRange_wf _ _ _ p.lmem, p.dly, clearRange_wf _ _ _ p.glz, p.stage, p.hostMem⟩

theorem State.Canonical.swapRoles (h : s.Canonical) {g o t : Nat} : (s.swapRoles g o t).Canonical :=
  .put (.put (.modSched (.modMix (.setCluster (.modRegion h _ _) _ _) _) _) _ _) _ _

theorem answers_execSpareRotation {g : Fin 8} : s.Answers (execSpareRotation g s) :=
  .ite (.next id) (.ite (.next fun h => .rotationEvent (.set h _)) (.ite (.next id) (.next fun h => .bump (.set (.put (.clearCluster
    (.swapRoles (.copyCluster h))) _ _) _) _)))

theorem answers_execSpareTestDone {g : Fin 8} {pass : Bool} : s.Answers (execSpareTestDone g pass s) :=
  .ite (.next id) (.next fun h => .ite (.put h _ _) (.rotationEvent (.set (.put h _ _) _)))

/-! ### The catalogue (R754, R784) -/

theorem State.Canonical.setBist (h : s.Canonical) {q r : List (Nat × Nat)} : (s.setBist q r).Canonical :=
  .putBit (.put (.update h) _ _) _ _

theorem State.Canonical.bistGo (h : s.Canonical) {test inst : Nat} : (s.bistGo test inst).Canonical := by
  unfold State.bistGo
  dsimp only
  split
  · exact .setBist (.put h _ _)
  · exact .setBist (.put h _ _)
  · exact .put h _ _

theorem answers_execBistGo {test inst : BitVec 8} : s.Answers (execBistGo test inst s) :=
  .ifHost (.next fun h => .bistGo (.put (.put h _ _) _ _))

theorem State.Canonical.bistEnd (h : s.Canonical) {test inst : Nat} {pass : Bool} {st : Status} {value : Nat} :
    (s.bistEnd test inst pass st value).Canonical :=
  .post (.ite (.bump (.put (.put (.putBit (.put (.put h _ _) _ _) _ _) _ _) _ _) _) (.bump (.bump (.put (.put (.putBit (.put
    (.put h _ _) _ _) _ _) _ _) _ _) _) _)) _ _ _

theorem answers_execBistTestStart {test inst : BitVec 8} : s.Answers (execBistTestStart test inst s) := by
  unfold execBistTestStart
  dsimp only
  refine .ite (.next id) (.ite (.next fun h => .bistEnd (.setBist h)) ?_)
  split
  · exact .next fun h => .setBist h
  · exact .next id
  · exact .next fun h => .bistEnd (.setBist h)

theorem State.Canonical.bistClear (h : s.Canonical) {test inst : Nat} : (s.bistClear test inst).Canonical := by
  unfold State.bistClear
  split
  · exact .clearCluster h
  · exact .clearCluster h
  · exact .withDly h (clearRange_wf _ _ _ h.dly)
  · exact .setUnit h _ _
  · exact .unsettle (.unsettle h)
  · exact .withDram h rfl
  · exact h

theorem answers_execBistDone {test inst : BitVec 8} {pass : Bool} {value : BitVec 32} : s.Answers (execBistDone test inst pass value s) :=
  .next fun h => .ite h (.bistEnd (.bistClear (.setBist h)))

theorem answers_execBistCntClr : s.Answers (execBistCntClr s) := .ifHost (.next fun h => .clear h _)

/-! ### Host DMA (R473–R479) -/

theorem State.Canonical.dmaRecord (h : s.Canonical) {n : Nat} {st : Status} {moved residue : Nat} :
    (s.dmaRecord n st moved residue).Canonical :=
  .raiseVector (.modHost (.put (.put (.put (.set (.put h _ _) _) _ _) _ _) _ _) _) _

theorem State.Canonical.dmaTake (h : s.Canonical) {n addr moved : Nat} {d : DmaDesc} : (s.dmaTake n addr moved d).Canonical := by
  unfold State.dmaTake
  dsimp only
  split
  · exact .dmaRecord (.put h _ _)
  · exact .modHost (.put (.put h _ _) _ _) _

theorem State.Canonical.stopHostDma (h : s.Canonical) : s.stopHostDma.Canonical := .each h fun _ _ h1 => .ite (.dmaRecord h1) h1

theorem answers_execDmaChStart {n : Fin 32} {d : DmaDesc} : s.Answers (execDmaChStart n d s) :=
  .ifHost (.ite (.next fun h => .set h _) (.next fun h => .dmaTake h))

theorem State.Canonical.dmaMove (h : s.Canonical) {n : Nat} {d : DmaDesc} {len : Nat} {data : List Byte} :
    (s.dmaMove n d len data).Canonical := .ite (.channelWrite h) (.withDram h (Memory.writeBytes_wf _ _ _ h.dram))

theorem answers_execDmaDescriptorDone {n : Fin 32} {data : List Byte} {next : DmaDesc} {readBackOk : Bool} :
    s.Answers (execDmaDescriptorDone n data next readBackOk s) :=
  .ite (.next id) (.ite (.next fun h => .dmaRecord (.dmaMove h)) (.ite (.next fun h => .dmaRecord (.ite (.raiseVector (.dmaMove h) _)
    (.dmaMove h))) (.next fun h => .dmaTake (.ite (.raiseVector (.dmaMove h) _) (.dmaMove h)))))

theorem State.Canonical.endTransfers (h : s.Canonical) {p : Transfer → Bool} {st : Status} : (s.endTransfers p st).Canonical :=
  .dropJobs (.each (.modHost (.update h) _) (fun _ _ h1 => .finish h1 _ _ _ _ _ _))

theorem State.Canonical.endExports (h : s.Canonical) {ring : Nat} : (s.endExports ring).Canonical :=
  .each (.update h) fun _ _ h1 => .finish h1 _ _ _ _ _ _

theorem answers_execDmaChAbort {n : Fin 32} {moved : Nat} {data : List Byte} : s.Answers (execDmaChAbort n moved data s) :=
  .ifHost (.ite (.next fun h => .set h _) (.ite (.ite (.next fun h => .dmaRecord (.endTransfers h)) (.ite (.next fun h => .dmaRecord
    (.endExports h)) (.next id))) (.ite (.next id) (.next fun h => .dmaRecord (.dmaMove h)))))

theorem answers_execImageTransferTimeout {tag : BitVec 32} : s.Answers (execImageTransferTimeout tag s) := .next fun h => .endTransfers h

/-! ### Hush (R463–R466) -/

theorem State.Canonical.showHush (h : s.Canonical) {pin : Nat} : (s.showHush pin).Canonical := .postNow (.putBit (.put h _ _) _ _) _ _ _ _

theorem answers_execHush {hd : CmdHdr} {groups : BitVec 64} : s.Answers (execHush hd groups s) :=
  .ite (.next fun h => .ok (.showHush (.modHost h _))) (.ite (.next fun h => .refuse h) (.next fun h => .ok (.showHush (.modHost h _))))

theorem answers_execHushNFall : s.Answers (execHushNFall s) := .next fun h => .ite h (.showHush (.set (.modHost h _) _))

theorem answers_execHushNRise : s.Answers (execHushNRise s) :=
  .next fun h => .ite h (.ite (.put h _ _) (.showHush (.modHost (.put h _ _) _)))

theorem answers_execHushRampStart {d : Fin 3} : s.Answers (execHushRampStart d s) := .next fun h => .each h fun _ _ h1 => .modHost h1 _

/-! ### Queries (R446, R447) -/

theorem answers_execQueryPeek {hd : CmdHdr} {cluster addr : Nat} : s.Answers (execQueryPeek hd cluster addr s) :=
  .next fun h => .ite (.refuse h) (.ite (.refuse h) (.ite (.finish h _ _ _ _ _ _) (.modCluster h)))

theorem answers_execQueryClear {hd : CmdHdr} {clusters : BitVec 64} {regions : BitVec 8} :
    s.Answers (execQueryClear hd clusters regions s) :=
  .next fun h => .ite (.finish h _ _ _ _ _ _) (.each (.each h (fun _ _ h1 => .modCluster h1)) (fun _ _ h1 => .modRegion h1 _ _))

/-! ### Receive streams (R497–R502) -/

theorem State.Canonical.setRx (h : s.Canonical) {n : Nat} {x : StreamSt} : (s.setRx n x).Canonical := .update h

theorem State.Canonical.streamHeard (h : s.Canonical) {n path : Nat} {x : StreamSt} : (s.streamHeard n path x).Canonical :=
  .ite (.postNow (.setRx h) _ _ _ _) (.setRx h)

theorem State.Canonical.placePacket (h : s.Canonical) {n : Nat} {r : StreamRec} {at_ : Nat} {d : RtpData} :
    (s.placePacket n r at_ d).Canonical := by
  unfold State.placePacket
  dsimp only
  split
  · exact .setRx (.each h (fun _ _ h1 => .each h1 (fun _ _ h2 => .putRx h2)))
  · exact .each h fun _ _ h1 => .each h1 (fun _ _ h2 => .putRx h2)

theorem State.Canonical.takePacket (h : s.Canonical) {n path : Nat} {f : NetFrame} {d : RtpData} : (s.takePacket n path f d).Canonical := by
  cases stream : Tab.get none s.net.rx n with
  | none => simpa only [State.takePacket, stream] using h
  | some x =>
    simp only [State.takePacket, stream]
    refine .ite (.setRx h) (.ite (.streamHeard h) (.ite (.setRx h) ?_))
    split
    · exact .setRx h
    · exact .ite (.setRx h) (.ite (.setRx h) (.ite (.streamHeard h) (.placePacket (.streamHeard h))))

/-! ### The cue listener (R510–R513) -/

theorem State.Canonical.takeCue (h : s.Canonical) {n : Nat} {f : NetFrame} : (s.takeCue n f).Canonical := by
  unfold State.takeCue
  dsimp only
  split
  · exact .postNow (.bump h _) _ _ _ _
  · split
    · exact .firePour (.update h)
    · exact h

/-! ### The host's packet path (R505, R509, R516) -/

theorem State.Canonical.toHost (h : s.Canonical) {x : Nat} {f : NetFrame} {best stamped : Bool} : (s.toHost x f best stamped).Canonical :=
  .ite (.bump (.update h) _) (.ite (.bump (.update h) _) (.ite (.bump (.update h) _) (.update h)))

theorem State.Canonical.applyRule (h : s.Canonical) {x : Nat} {f : NetFrame} {r : RuleRec} : (s.applyRule x f r).Canonical := by
  unfold State.applyRule
  dsimp only
  refine .ite (.ite (.update (.ite (.bump h _) h)) (.ite (.bump h _) h)) (.ite (.takeCue (.ite (.update (.ite (.bump h _) h)) (.ite
    (.bump h _) h))) ?_)
  split
  · exact .bump (.ite (.update (.ite (.bump h _) h)) (.ite (.bump h _) h)) _
  · exact .toHost (.ite (.update (.ite (.bump h _) h)) (.ite (.bump h _) h))
  · exact .toHost (.ite (.update (.ite (.bump h _) h)) (.ite (.bump h _) h))
  · exact .ite (.update (.ite (.bump h _) h)) (.ite (.bump h _) h)

theorem State.Canonical.classify (h : s.Canonical) {x : Nat} {f : NetFrame} : (s.classify x f).Canonical := by
  unfold State.classify
  dsimp only
  refine .ite (.ite (.bump h _) ?_) (.ite ?_ ?_)
  · split
    · exact .ite (.stepClock (.update h)) (.update h)
    · exact .update h
  · split
    · exact .takeCtrl h
    · exact h
  · split
    · exact .takePacket h
    · split
      · exact .setRx h
      · exact h
    · split
      · exact .applyRule h
      · exact .ite (.toHost h) (.bump h _)

theorem answers_execNetFrameReceived {x : Fin 3} {wire : NetFrame} : s.Answers (execNetFrameReceived x wire s) :=
  .ite (.next id) (.next fun h => .ite (.bump (.bump h _) _) (.classify (.bump h _)))

/-! ### Bulk buffers -/

theorem State.Canonical.bulkDone (h : s.Canonical) {b : Nat} {e : BulkEntry} {x : BulkResult} : (s.bulkDone b e x).Canonical :=
  .ite (.postTo (.advanceHead (.hostWrite h _ _)) _ _ _) (.advanceHead (.hostWrite h _ _))

/-! ### Images (R444, R445, R748) -/

theorem State.Canonical.imageArrived (h : s.Canonical) {t : Transfer} {i : ImageData} {f : StartFacts} :
    (s.imageArrived t i f).Canonical := by
  unfold State.imageArrived
  split
  · exact .programArrived h
  · exact .scheduleArrived h
  · exact .importArrived h
  · exact .objectArrived h

theorem State.Canonical.takeImageBuffer (h : s.Canonical) {b : Nat} {e : BulkEntry} {x : BulkData} :
    (s.takeImageBuffer b e x).Canonical := by
  unfold State.takeImageBuffer
  dsimp only
  split
  · exact .bulkDone h
  · refine .ite (.bulkDone (.endTransfers h)) (.ite (.bulkDone (.modHost h _)) (.ite (.bulkDone (.endTransfers h)) ?_))
    split
    · exact .imageArrived (.bulkDone (.modHost h _))
    · exact .bulkDone (.endTransfers h)

/-! ### Host frames to the network (R412, R516, R517) -/

theorem State.Canonical.sendHostFrame (h : s.Canonical) {e : BulkEntry} {x : HostFrameTx} : (s.sendHostFrame e x).Canonical :=
  .ite h (.ite (.ite (.bump h _) h) (.ite (.ite (.bump (.update h) _) (.update h)) (.ite (.pushStamp (.bump (.update h) _)) (.bump
    (.update h) _))))

/-! ### Received frames to the host (R516) -/

theorem State.Canonical.frameBytes (h : s.Canonical) {f : NetFrame} : (s.frameBytes f).2.Canonical := .update h

theorem State.Canonical.fillFrame (h : s.Canonical) {b : Nat} {e : BulkEntry} : (s.fillFrame b e).Canonical := by
  unfold State.fillFrame
  dsimp only
  split
  · exact h
  · exact .ite (.bump (.update h) _) (.ite h (.ite (.bulkDone (.bump (.update h) _)) (.bulkDone (.channelWrite (.frameBytes
      (.update h))))))

/-! ### Store exports (R687) -/

theorem State.Canonical.fillExport (h : s.Canonical) {b : Nat} {e : BulkEntry} : (s.fillExport b e).Canonical := by
  unfold State.fillExport
  dsimp only
  split
  · exact h
  · exact .ite (.bulkDone (.finish (.modStore h) _ _ _ _ _ _)) (.ite h (.bulkDone (.ite (.finish (.modStore (.channelWrite
      (.exportBytes h))) _ _ _ _ _ _) (.modStore (.channelWrite (.exportBytes h))))))

theorem answers_execBulkBufferConsumed {b : Fin 4} {e : BulkEntry} {x : BulkData} : s.Answers (execBulkBufferConsumed b e x s) := by
  unfold execBulkBufferConsumed
  dsimp only
  refine .ite (.next id) (.ite (.next fun h => .ringFault h) (.ite (.next fun h => .bulkDone h) (.ite (.ite (.next fun h =>
    .takeImageBuffer h) (.ite (.ite (.next fun h => .bulkDone h) (.next fun h => .bulkDone ?_)) (.next fun h => .bulkDone h))) (.ite
    (.next fun h => .fillFrame h) (.ite (.next fun h => .fillExport h) (.next fun h => .bulkDone h))))))
  split
  · exact .sendHostFrame h
  · exact h

/-! ### The crossbars as the cluster DMA meets them -/

theorem State.Canonical.xbarAsk (h : s.Canonical) {c : Nat} {k : Nat} : (State.xbarAsk c k s).2.Canonical := by
  induction k generalizing s with
  | zero => exact h
  | succ k ih =>
    unfold State.xbarAsk
    split
    · exact h
    · split
      · exact h
      · split
        · exact h
        · split
          · exact h
          · dsimp only
            split
            · exact ih (.setGrant h)
            · exact .setGrant h

theorem State.Canonical.passWord (h : s.Canonical) {c : Nat} {d : ClDma} {last : Bool} : (s.passWord c d last).Canonical := by
  unfold State.passWord
  dsimp only
  refine .each h fun _ _ h1 => ?_
  split
  · exact .ite (.setGrant h1) h1
  · exact h1

/-! ### The shared-memory port, the cluster DMA, the output scrub and the peek (R117, R272–R294) -/

theorem State.Canonical.sharedEcc (h : s.Canonical) {c : Nat} {x0 : Ecc} : (s.sharedEcc c x0).Canonical := by
  unfold State.sharedEcc
  split
  · exact h
  · exact .bumpBy h _ _
  · exact .cut h

theorem State.Canonical.serveRead (h : s.Canonical) {c u now : Nat} {r : ReadReq} : (s.serveRead c u now r).Canonical := by
  unfold State.serveRead
  dsimp only
  split
  · exact .each h fun _ _ h1 => .modUnit h1
  · exact .each h fun _ _ h1 => .modUnit h1
  · exact .each h fun _ _ h1 => .modUnit h1
  · exact .each (.ldpRead h) fun _ _ h1 => .modUnit h1
  · exact .each h fun _ _ h1 => .modUnit h1

theorem State.Canonical.settleRead (h : s.Canonical) {u : Nat} : (s.settleRead u).Canonical := by
  unfold State.settleRead
  dsimp only
  split
  · exact .setUnit h _ _
  · exact .readLost (.setUnit h _ _)
  · exact h

theorem State.Canonical.settleWrite (h : s.Canonical) {u : Nat} : (s.settleWrite u).Canonical := by
  unfold State.settleWrite
  dsimp only
  split
  · exact .setUnit h _ _
  · exact .writeLost (.setUnit h _ _)
  · exact h

theorem State.Canonical.settleAll (h : s.Canonical) {c : Nat} : (s.settleAll c).Canonical :=
  .each h (fun _ _ h1 => .modUnit (.settleWrite (.settleRead h1)))

theorem State.Canonical.dropRead (h : s.Canonical) {u : Nat} : (s.dropRead u).Canonical := .modUnit h
theorem State.Canonical.dropWrite (h : s.Canonical) {u : Nat} : (s.dropWrite u).Canonical := .modUnit h

theorem State.Canonical.captureLoss (h : s.Canonical) {c req addr : Nat} : (s.captureLoss c req addr).Canonical :=
  .ite h (.set (.put (.put h _ _) _ _) _)

theorem State.Canonical.issueDma (h : s.Canonical) {c addr size : Nat} : (s.issueDma c addr size).Canonical :=
  .ite (.modUnit (.modCluster h)) h

theorem State.Canonical.completeWrite (h : s.Canonical) {c addr size v : Nat} {e : Ecc} : (s.completeWrite c addr size v e).Canonical :=
  have read : (if size = 4 then s.sharedEcc c e else s).Canonical := .ite (.sharedEcc h) h
  .ite read (.issueDma (.withShm read (Memory.writeNat_wf _ _ _ _ read.shm)))

/-! ### Cluster DMA -/

theorem answers_execDmaTransferStart {c : Fin 64} : s.Answers (execDmaTransferStart c s) := by
  unfold execDmaTransferStart
  dsimp only
  split
  · split
    · exact .next fun h => .modCluster (.setCluster h _ _)
    · exact .next fun h => .ite (.modUnit (.setCluster h _ _)) (.put (.put (.set (.modUnit (.setCluster h _ _)) _) _ _) _ _)
  · exact .next id

theorem State.Canonical.scrubWord (h : s.Canonical) {c : Nat} {w : Word} : (s.scrubWord c w).2.Canonical := by
  have counted {p : Prop} [Decidable p] {f g i j : Fld} : (if p then (s.set f).bump g else (s.set i).bump j).Canonical :=
    .ite (.bump (.set h _) _) (.bump (.set h _) _)
  unfold State.scrubWord
  dsimp only
  split
  · exact .ite counted (.postNow (.set counted _) _ _ _ _)
  · exact h

theorem State.Canonical.dmaSends (h : s.Canonical) {c : Nat} {d : ClDma} {w : Word} : (s.dmaSends c d w).2.Canonical := by
  unfold State.dmaSends
  split
  · exact .scrubWord h
  · exact h

theorem State.Canonical.dmaWord (h : s.Canonical) {c : Nat} {d : ClDma} {bad : List Nat} : (s.dmaWord c d bad).Canonical :=
  have moved := State.Canonical.each h fun _ _ h1 => .ite (.spaceWrite (.dmaSends h1) _ _ _) (.withShm h1
    (Memory.writeNat_wf _ _ _ _ h1.shm))
  .ite moved (.issueDma moved)

theorem State.Canonical.dmaEcc (h : s.Canonical) {c : Nat} {d : ClDma} {e : Ecc} {bad : List Nat} : (s.dmaEcc c d e bad).Canonical := by
  unfold State.dmaEcc
  split
  · exact .ite h (.bumpBy h _ _)
  · exact .bumpBy h _ _
  · exact .ite h (.errSeen h)
  · exact .ite h (.each (.errSeen h) (fun _ _ h1 => .postNow (.bump h1 _) _ _ _ _))
  · exact h

theorem State.Canonical.dmaStep (h : s.Canonical) {c : Nat} {d : ClDma} {m : RemoteErr} : (s.dmaStep c d m).Canonical :=
  .ite (.modUnit (.modCluster (.passWord (.dmaWord (.dmaEcc h))))) (.modCluster (.passWord (.dmaWord (.dmaEcc h))))

theorem State.Canonical.dmaPresents (h : s.Canonical) {c en : Nat} {out given : Bool} : (s.dmaPresents c en out given).2.Canonical := by
  unfold State.dmaPresents
  split
  · dsimp only
    split
    · dsimp only
      split
      · exact h
      · exact .xbarAsk h
    · exact h
  · exact h

/-! ### Port cycles -/

theorem State.Canonical.portRead (h : s.Canonical) {c en now : Nat} {given : Bool} {m : RemoteErr} {e : Ecc} :
    (s.portRead c en now given m e).Canonical := by
  unfold State.portRead
  dsimp only
  split
  · exact .settleAll (.dmaPresents h)
  · refine .ite (.sharedEcc (.dmaPresents h)) (.settleAll ?_)
    split
    · split
      · refine .ite (.glazeRead ?_) ?_
        · split
          · refine .dmaStep (.each (.sharedEcc (.dmaPresents h)) (fun _ _ h1 => ?_))
            split
            · exact .dropRead (.serveRead h1)
            · exact h1
          · refine .each (.sharedEcc (.dmaPresents h)) fun _ _ h1 => ?_
            split
            · exact .dropRead (.serveRead h1)
            · exact h1
        · split
          · refine .dmaStep (.each (.sharedEcc (.dmaPresents h)) (fun _ _ h1 => ?_))
            split
            · exact .dropRead (.serveRead h1)
            · exact h1
          · refine .each (.sharedEcc (.dmaPresents h)) fun _ _ h1 => ?_
            split
            · exact .dropRead (.serveRead h1)
            · exact h1
      · split
        · refine .dmaStep (.each (.sharedEcc (.dmaPresents h)) (fun _ _ h1 => ?_))
          split
          · exact .dropRead (.serveRead h1)
          · exact h1
        · refine .each (.sharedEcc (.dmaPresents h)) fun _ _ h1 => ?_
          split
          · exact .dropRead (.serveRead h1)
          · exact h1
    · split
      · refine .dmaStep (.each (.sharedEcc (.dmaPresents h)) (fun _ _ h1 => ?_))
        split
        · exact .dropRead (.serveRead h1)
        · exact h1
      · refine .each (.sharedEcc (.dmaPresents h)) fun _ _ h1 => ?_
        split
        · exact .dropRead (.serveRead h1)
        · exact h1

theorem State.Canonical.portWrite (h : s.Canonical) {c en : Nat} {given : Bool} {m : RemoteErr} {e : Ecc} :
    (s.portWrite c en given m e).Canonical := by
  unfold State.portWrite
  dsimp only
  split
  · exact .settleAll (.dmaPresents h)
  · refine .ite (.cut (.dmaPresents h)) (.settleAll ?_)
    split
    · refine .ite (.captureLoss (.writeLost (.glazeWrote (.each ?_ (fun _ _ h1 => .captureLoss (.writeLost (.dropWrite h1)))))))
        (.each ?_ (fun _ _ h1 => .captureLoss (.writeLost (.dropWrite h1))))
      · split
        · exact .dmaStep (.dmaPresents h)
        · exact .glazeWrote (.completeWrite (.dmaPresents h))
        · split
          · exact .dropWrite (.completeWrite (.dmaPresents h))
          · exact .dmaPresents h
        · exact .dmaPresents h
      · split
        · exact .dmaStep (.dmaPresents h)
        · exact .glazeWrote (.completeWrite (.dmaPresents h))
        · split
          · exact .dropWrite (.completeWrite (.dmaPresents h))
          · exact .dmaPresents h
        · exact .dmaPresents h
    · refine .each ?_ (fun _ _ h1 => .captureLoss (.writeLost (.dropWrite h1)))
      split
      · exact .dmaStep (.dmaPresents h)
      · exact .glazeWrote (.completeWrite (.dmaPresents h))
      · split
        · exact .dropWrite (.completeWrite (.dmaPresents h))
        · exact .dmaPresents h
      · exact .dmaPresents h

theorem answers_execShmReadCycle {c : Fin 64} {t : Nat} {m : RemoteErr} {e : Ecc} : s.Answers (execShmReadCycle c t m e s) := by
  unfold execShmReadCycle
  dsimp only
  split
  · exact .next id
  · exact .ite (.next id) (.next fun h => .portRead (.clockTo h))

theorem answers_execShmWriteCycle {c : Fin 64} {t : Nat} {m : RemoteErr} {e : Ecc} : s.Answers (execShmWriteCycle c t m e s) := by
  unfold execShmWriteCycle
  dsimp only
  split
  · exact .next id
  · exact .ite (.next id) (.next fun h => .portWrite (.clockTo h))

theorem State.Canonical.portCycle (h : s.Canonical) {c : Nat} {given : Bool} {bad : List Nat} : (s.portCycle c given bad).Canonical := by
  unfold State.portCycle
  dsimp only
  split
  · exact h
  · exact .ite (.settleAll (.clockTo h)) (.ite (.portWrite (.clockTo h)) (.portRead (.clockTo h)))

theorem State.Canonical.portUntil (h : s.Canonical) {c : Nat} {bad : List Nat} {k : Nat} : (s.portUntil c bad k).Canonical := by
  induction k generalizing s with
  | zero => exact h
  | succ k ih => exact .ite h (ih (.portCycle h))

theorem answers_execDmaTransferComplete {c : Fin 64} {e : Ecc} {bad : List Nat} : s.Answers (execDmaTransferComplete c e bad s) := by
  unfold execDmaTransferComplete
  split
  · exact .ite (.next fun h => .cut h) (.next fun h => .portUntil (.dmaEcc h))
  · exact .next id

theorem answers_execPeekCopy {c : Fin 64} : s.Answers (execPeekCopy c s) := by
  unfold execPeekCopy
  dsimp only
  split
  · exact .next id
  · exact .next id
  · exact .next fun h => .ok (.modCluster (.each h (fun _ _ h1 => .put h1 _ _)))

/-! ### What stays from block to block -/

theorem State.Canonical.stdChanges (h : s.Canonical) {d x b : Nat} : (s.stdChanges d x b).Canonical := by
  unfold State.stdChanges
  dsimp only
  refine .each h fun _ _ h1 => ?_
  split
  · exact h1
  · exact .ite (.modStd h1) (.ite (.modStd h1) h1)

theorem State.Canonical.stdLines (h : s.Canonical) {e : MixEnv} : (s.stdLines e).Canonical :=
  .each (.each (.each (.each (.each h (fun _ _ h1 => .ite h1 (.modStd h1))) (fun _ _ h1 => .ite h1 (.modStd h1))) (fun _ _ h1 => .ite h1
    (.modStd h1))) (fun _ _ h1 => .ite h1 (.modStd h1))) fun _ _ h1 => .ite h1 (.modStd h1)

theorem State.Canonical.stdMutes (h : s.Canonical) {e : MixEnv} : (s.stdMutes e).Canonical := .each h fun _ _ h1 => .modStd h1

/-! ### Meters (R122, R123) -/

theorem State.Canonical.stdMeters (h : s.Canonical) {e : MixEnv} : (s.stdMeters e).Canonical := by
  unfold State.stdMeters
  dsimp only
  exact .modMix (.modStd h) _

theorem answers_execMeterUpdate {n : Fin 16} {values : List Word} : s.Answers (execMeterUpdate n values s) := by
  unfold execMeterUpdate
  dsimp only
  split
  · exact .next id
  · exact .ite (.next fun h => .closeMeter h) (.ite (.next id) (.next fun h => .modMix (.hostWrite h _ _) _))

/-! ### Outputs (R67, R70, R117, R153, R157, R164) -/

theorem State.Canonical.stdOutput (h : s.Canonical) {e : MixEnv} {c : Nat} {o : OutDest} : (s.stdOutput e c o).Canonical := by
  unfold State.stdOutput
  dsimp only
  split
  · exact h
  · refine .modCluster (.each h (fun _ _ h1 => ?_))
    split
    · exact .spaceWrite (.scrubWord h1) _ _ _
    · exact .scrubWord h1

theorem State.Canonical.stdOutputs (h : s.Canonical) {e : MixEnv} : (s.stdOutputs e).Canonical :=
  .each h (fun _ _ h1 => .each h1 (fun _ _ h2 => .each h2 (fun _ _ h3 => .stdOutput h3)))

theorem State.Canonical.mixBlock (h : s.Canonical) {d x b : Nat} : (s.mixBlock d x b).Canonical := by
  unfold State.mixBlock
  dsimp only
  split
  · exact h
  · exact .ite (.take (.modStd (.stdLines (.stdOutputs (.stdMeters (.stdMutes (.stdChanges h))))))) h

/-! ### The input stage (R56, R287) -/

theorem State.Canonical.writeIn (h : s.Canonical) {block fsi offset : Nat} {ws : List Word} : (s.writeIn block fsi offset ws).Canonical :=
  .withStage h (Memory.writeBytes_wf _ _ _ h.stage)

theorem State.Canonical.writeSource (h : s.Canonical) {d block fsi a : Nat} {ws : List Word} :
    (s.writeSource d block fsi a ws).Canonical := by
  unfold State.writeSource
  split
  · exact .writeIn h
  · exact h

theorem State.Canonical.takeRx (h : s.Canonical) {a o b : Nat} {live : Bool} : (s.takeRx a o b live).2.Canonical := by
  unfold State.takeRx
  dsimp only
  exact .modMix h _

theorem State.Canonical.closeStream (h : s.Canonical) {d o b n : Nat} {r : StreamRec} : (s.closeStream d o b n r).Canonical := by
  unfold State.closeStream
  dsimp only
  refine .each h fun _ _ h1 => ?_
  split
  · exact h1
  · exact .writeSource (.update (.takeRx h1))

theorem State.Canonical.closeFlow (h : s.Canonical) {d o b key : Nat} {r : FlowRec} : (s.closeFlow d o b key r).Canonical := by
  unfold State.closeFlow
  dsimp only
  refine .each h fun _ _ h1 => ?_
  split
  · exact h1
  · exact .writeSource (.modWl (.takeRx h1))

theorem State.Canonical.closeAsrc (h : s.Canonical) {o b : Nat} {x : StageSlot} : (s.closeAsrc o b x).Canonical := by
  unfold State.closeAsrc
  dsimp only
  split
  · exact .writeIn h
  · exact .writeIn (.modAsrc (.update h))

theorem State.Canonical.closeSerial (h : s.Canonical) {o b : Nat} {inputs : List PortInput} {x : StageSlot} :
    (s.closeSerial o b inputs x).Canonical :=
  .writeIn h

theorem State.Canonical.playOut (h : s.Canonical) {d track si : Nat} : (s.playOut d track si).2.Canonical := by
  unfold State.playOut
  split
  · exact h
  · exact .modPlay h

theorem State.Canonical.playBlock (h : s.Canonical) {d track si : Nat} {n : Nat} : (s.playBlock d track si n).2.Canonical := by
  induction n generalizing s si with
  | zero => exact h
  | succ n ih => exact ih (.playOut h)

theorem State.Canonical.closeTrack (h : s.Canonical) {d track o b : Nat} : (s.closeTrack d track o b).Canonical :=
  .each (.playBlock h) fun _ _ h1 => .withDram h1 (Memory.writeNat_wf _ _ _ _ h1.dram)

theorem State.Canonical.closeCrossing (h : s.Canonical) {o b : Nat} {x : StageSlot} : (s.closeCrossing o b x).Canonical := by
  unfold State.closeCrossing
  dsimp only
  split
  · exact .closeAsrc h
  · exact .ite (.writeIn (.update h)) (.closeAsrc h)

theorem State.Canonical.closeAdc (h : s.Canonical) {o b c : Nat} {inputs : List PortInput} : (s.closeAdc o b c inputs).Canonical :=
  .writeSource (.convBlock h)

theorem State.Canonical.closeFlags (h : s.Canonical) {d o b : Nat} {i : PortInput} : (s.closeFlags d o b i).Canonical := by
  have counted {f g : Fld} : (if i.errors = 0 then s else (s.set f).bumpBy g i.errors).Canonical := .ite h (.bumpBy (.set h _) _ _)
  exact .ite (.withStage counted (Memory.writeNat_wf _ _ _ _ counted.stage)) h

theorem State.Canonical.measureGroup (h : s.Canonical) {i : PortInput} : (s.measureGroup i).Canonical := by
  unfold State.measureGroup
  dsimp only
  split
  · exact .ite (.putBit (.put h _ _) _ _) h
  · exact h

theorem State.Canonical.closeInputs (h : s.Canonical) {d o b : Nat} {inputs : List PortInput} :
    (s.closeInputs d o b inputs).Canonical := by
  unfold State.closeInputs
  dsimp only
  refine .update (.each (.ite (.each (.each (.each (.each (.each h (fun _ _ h1 => ?_)) (fun _ _ h1 => .each h1 (fun _ _ h2 => ?_)))
    (fun _ _ h1 => .ite (.writeIn h1) (.ite (.closeCrossing h1) (.ite (.closeSerial h1) h1)))) (fun _ _ h1 => .closeTrack h1))
    (fun _ _ h1 => .closeAdc h1)) (.each (.each (.each (.each h (fun _ _ h1 => ?_)) (fun _ _ h1 => .each h1 (fun _ _ h2 => ?_)))
    (fun _ _ h1 => .ite (.writeIn h1) (.ite (.closeCrossing h1) (.ite (.closeSerial h1) h1)))) (fun _ _ h1 => .closeTrack h1)))
    (fun _ _ h1 => .measureGroup (.closeFlags h1)))
  · split
    · exact .ite (.closeStream h1) h1
    · exact h1
  · split
    · exact .ite (.closeFlow h2) h2
    · exact h2
  · split
    · exact .ite (.closeStream h1) h1
    · exact h1
  · split
    · exact .ite (.closeFlow h2) h2
    · exact h2

/-! ### The output stage (R56, R464, R716, R720, R765) -/

theorem State.Canonical.keepOut (h : s.Canonical) {a o : Nat} {ws : List Word} : (s.keepOut a o ws).Canonical := by
  unfold State.keepOut
  dsimp only
  exact .modMix h _

theorem State.Canonical.sendSerial (h : s.Canonical) {d o b a : Nat} : (s.sendSerial d o b a).Canonical := .update h
theorem State.Canonical.sendAes (h : s.Canonical) {d o b a : Nat} : (s.sendAes d o b a).Canonical := .update h

theorem State.Canonical.sendDac (h : s.Canonical) {d o b c : Nat} {inputs : List PortInput} : (s.sendDac d o b c inputs).Canonical :=
  .keepOut (.convBlock h)

theorem State.Canonical.sendPower (h : s.Canonical) {d o b : Nat} : (s.sendPower d o b).Canonical := .keepOut (.keepOut (.psBlock h))

theorem State.Canonical.closeOutputs (h : s.Canonical) {d o b : Nat} {inputs : List PortInput} :
    (s.closeOutputs d o b inputs).Canonical := by
  unfold State.closeOutputs
  dsimp only
  refine .ite (.sendPower (.ite (.each (.each (.each h (fun _ _ h1 => ?_)) (fun _ _ h1 => .ite (.keepOut h1) h1)) (fun _ _ h1 =>
    .sendDac h1)) (.each (.each h (fun _ _ h1 => ?_)) (fun _ _ h1 => .ite (.keepOut h1) h1)))) (.ite (.each (.each (.each h
    (fun _ _ h1 => ?_)) (fun _ _ h1 => .ite (.keepOut h1) h1)) (fun _ _ h1 => .sendDac h1)) (.each (.each h (fun _ _ h1 => ?_))
    (fun _ _ h1 => .ite (.keepOut h1) h1)))
  · split
    · exact .sendSerial h1
    · exact .sendAes h1
    · exact h1
  · split
    · exact .sendSerial h1
    · exact .sendAes h1
    · exact h1
  · split
    · exact .sendSerial h1
    · exact .sendAes h1
    · exact h1
  · split
    · exact .sendSerial h1
    · exact .sendAes h1
    · exact h1

theorem State.Canonical.record (h : s.Canonical) {d track x : Nat} {ws : List Word} : (s.record d track x ws).Canonical := by
  unfold State.record
  dsimp only
  exact .modStore h

theorem State.Canonical.fillTakes (h : s.Canonical) {d upto : Nat} : (s.fillTakes d upto).Canonical := by
  unfold State.fillTakes
  dsimp only
  exact .modStore h

theorem State.Canonical.emitBlock (h : s.Canonical) {d b x n : Nat} : (s.emitBlock d b x n).Canonical :=
  .fillTakes (.each (.each h (fun _ _ h1 => .ite (.modMix h1 _) (.writeOut (.writeOut (.modMix h1 _))))) (fun _ _ h1 => .record h1))

/-! ### The block whose handling has ended (R60, R168, R297, R447) -/

theorem State.Canonical.idlePhases (h : s.Canonical) {d x b : Nat} : (s.idlePhases d x b).Canonical :=
  .each h fun _ _ h1 => .ite (.sequencerPhase h1) h1

theorem State.Canonical.endBlock (h : s.Canonical) {d x b : Nat} : (s.endBlock d x b).Canonical :=
  .retirePours (.retireTerms (.mixBlock (.idlePhases (.ite (.beginBlock h) h))))

theorem State.Canonical.countCycles (h : s.Canonical) {d : Nat} : (s.countCycles d).Canonical :=
  .each h (fun _ _ h1 => .modCluster (.raise (.put h1 _ _) _ _))

theorem State.Canonical.queryClears (h : s.Canonical) {d : Nat} : (s.queryClears d).Canonical :=
  .each (.each (.each h (fun _ _ h1 => .modCluster (.clear h1 _))) (fun _ _ h1 => .modRegion (.clear h1 _) _ _)) fun _ _ h1 =>
    .finish h1 _ _ _ _ _ _

/-! ### The P-domain boundary (R469, R493, R735, R743, R744, R787) -/

theorem State.Canonical.liveTimers (h : s.Canonical) : s.liveTimers.Canonical := .put (.putBit (.putBit (.putBit h _ _) _ _) _ _) _ _

theorem State.Canonical.spendRest (h : s.Canonical) : s.spendRest.Canonical := by
  unfold State.spendRest
  dsimp only
  exact .modHost h _

theorem State.Canonical.closeLedger (h : s.Canonical) : s.closeLedger.Canonical :=
  .sendReports (.each (.modHost (.raise (.put (.spendRest h) _ _) _ _) _) (fun _ _ h1 => .writeEvent h1 _ _))

theorem State.Canonical.boundaryP (h : s.Canonical) : s.boundaryP.Canonical :=
  .liveTimers (.adoptMembers (.stopHostDma (.adoptPolicy (.applyNetOps h))))

theorem State.Canonical.endPlays (h : s.Canonical) {d n : Nat} : (s.endPlays d n).Canonical :=
  .each (.countTracks (.modStore h)) fun _ _ h1 => .finish h1 _ _ _ _ _ _

theorem answers_execFrameStartMarker {d : Fin 3} {inputs : List PortInput} : s.Answers (execFrameStartMarker d inputs s) :=
  .ite (.next id) (.next fun h => .endRamps (.ite (.boundaryP (.modHost (.ite (.psBegin (.endRange (.endPlays (.queryClears (.modDom
    (.closeInputs (.stageNow (.ite (.emitBlock (.ite (.closeLedger (.countCycles (.ite (.endBlock (.closeOutputs h)) (.closeOutputs h))))
    (.countCycles (.ite (.endBlock (.closeOutputs h)) (.closeOutputs h))))) (.ite (.closeLedger (.countCycles (.ite (.endBlock
    (.closeOutputs h)) (.closeOutputs h)))) (.countCycles (.ite (.endBlock (.closeOutputs h)) (.closeOutputs h))))))) _ _))))) (.endRange
    (.endPlays (.queryClears (.modDom (.closeInputs (.stageNow (.ite (.emitBlock (.ite (.closeLedger (.countCycles (.ite (.endBlock
    (.closeOutputs h)) (.closeOutputs h)))) (.countCycles (.ite (.endBlock (.closeOutputs h)) (.closeOutputs h))))) (.ite (.closeLedger
    (.countCycles (.ite (.endBlock (.closeOutputs h)) (.closeOutputs h)))) (.countCycles (.ite (.endBlock (.closeOutputs h))
    (.closeOutputs h))))))) _ _))))) _)) (.modHost (.ite (.psBegin (.endRange (.endPlays (.queryClears (.modDom (.closeInputs (.stageNow
    (.ite (.emitBlock (.ite (.closeLedger (.countCycles (.ite (.endBlock (.closeOutputs h)) (.closeOutputs h)))) (.countCycles (.ite
    (.endBlock (.closeOutputs h)) (.closeOutputs h))))) (.ite (.closeLedger (.countCycles (.ite (.endBlock (.closeOutputs h))
    (.closeOutputs h)))) (.countCycles (.ite (.endBlock (.closeOutputs h)) (.closeOutputs h))))))) _ _))))) (.endRange (.endPlays
    (.queryClears (.modDom (.closeInputs (.stageNow (.ite (.emitBlock (.ite (.closeLedger (.countCycles (.ite (.endBlock
    (.closeOutputs h)) (.closeOutputs h)))) (.countCycles (.ite (.endBlock (.closeOutputs h)) (.closeOutputs h))))) (.ite (.closeLedger
    (.countCycles (.ite (.endBlock (.closeOutputs h)) (.closeOutputs h)))) (.countCycles (.ite (.endBlock (.closeOutputs h))
    (.closeOutputs h))))))) _ _))))) _)))

end Sys2Proof.Machine
end

