-- ==== Sys2Proof/Proofs/CanonicalCommands.lean ====
section
/-! PROOF. The canonical form of registers and memories is kept by register writes, the pair, the units' operations, and the dispatch
of every command: one lemma per operation, in the order of the model; each follows the shape of its definition. -/

namespace Sys2Proof.Machine

variable {s t u : State}


/-! ### Writes of the registers of each block whose effect goes beyond their fields (R794, R840) -/

theorem State.Canonical.writeClk (h : s.Canonical) {o v : Nat} : (s.writeClk o v).Canonical :=
  .ite (.ite (.run h answers_execClkMpllDcoWrite) (.ite (.ite (.reject h) (.ite (.loseReference (.writePlain h)) (.writePlain h))) (.ite
    (.ite (.reject h) (.ite h (.candidateChanged (.ite (.reject (.put (.writePlain h) _ _)) (.writePlain h))))) (.writePlain h)))) (.ite
    (.ite (.run (.take (.ite (.run h answers_execRoastStart) h)) answers_execRoastAbort) (.ite (.run h answers_execRoastStart) h))
    (.writePlain h))

theorem State.Canonical.writeTime (h : s.Canonical) {o v : Nat} : (s.writeTime o v).Canonical :=
  .ite (.ite (.run (.update h) answers_execTimeSnap) h) (.ite (.ite (.reject h) (.ite (.run (.ite (.run
    (.writePlain h) answers_execTriggerArm) (.writePlain h)) answers_execTriggerCancel) (.ite (.run
    (.writePlain h) answers_execTriggerArm) (.writePlain h)))) (.writePlain h))

theorem State.Canonical.writeHost (h : s.Canonical) {o v : Nat} : (s.writeHost o v).Canonical :=
  .ite (.ite (.run h answers_execHostCntClr) h) (.ite (.ringCfg h) (.ite (.ringCfg h) (.ite (.ringCfg h) (.ite (.winCtl (.take h))
    (.writePlain h)))))

theorem State.Canonical.writeDma (h : s.Canonical) {o v : Nat} : (s.writeDma o v).Canonical :=
  .ite (.ite (.run (.update (.ite (.run (.update h) answers_execDmaChStart) h)) answers_execDmaChAbort) (.ite (.run
    (.update h) answers_execDmaChStart) h)) (.writePlain h)

theorem State.Canonical.writeSched (h : s.Canonical) {o v : Nat} : (s.writeSched o v).Canonical :=
  .ite (.ite (.run h answers_execSchedCntClr) h) (.ite (.run h answers_execSchedSliceWrite) (.writePlain h))

theorem State.Canonical.writeAport (h : s.Canonical) {o v : Nat} : (s.writeAport o v).Canonical :=
  .ite (.ite (.run h answers_execAportCntClr) h) (.ite (.ite (.reject h) (.ite (.enablePort (.put (.writePlain h) _ _)) (.ite
    (.disablePort (.put (.writePlain h) _ _)) (.put (.writePlain h) _ _)))) (.ite (.masterClocks (.writePlain h)) (.writePlain h)))

theorem State.Canonical.writeAes (h : s.Canonical) {o v : Nat} : (s.writeAes o v).Canonical :=
  .ite (.ite (.run h answers_execAesCntClr) h) (.ite (.ite (.ite (.reject h) (.ite (.put (.writePlain h) _ _) (.ite (.enableAesRx (.put
    (.writePlain h) _ _)) (.disableAesRx (.put (.writePlain h) _ _))))) (.ite (.ite (.run h answers_execAesRxCsSnap) h) (.writePlain h)))
    (.ite (.ite (.reject h) (.ite (.run (.ite (.put (.writePlain h) _ _) (.ite (.enableAesTx (.put (.writePlain h) _ _)) (.disableAesTx
    (.put (.writePlain h) _ _)))) answers_execAesTxCommit) (.ite (.put (.writePlain h) _ _) (.ite (.enableAesTx (.put
    (.writePlain h) _ _)) (.disableAesTx (.put (.writePlain h) _ _)))))) (.writePlain h)))

theorem State.Canonical.writeHuba (h : s.Canonical) {o v : Nat} : (s.writeHuba o v).Canonical :=
  .ite (.ite (.run h answers_execHubaCntClr) h) (.ite (.ite (.reject h) (.ite (.run (.ite (.ite (.put (.put (.put h _ _) _ _) _ _) h)
    (.run (.take (.ite (.put (.put (.put h _ _) _ _) _ _) h)) answers_execConvEnWrite)) answers_execRangeRequest) (.ite (.ite (.put (.put
    (.put h _ _) _ _) _ _) h) (.run (.take (.ite (.put (.put (.put h _ _) _ _) _ _) h)) answers_execConvEnWrite)))) (.ite (.ite
    (.reject h) (.each (.take (.put (.writePlain h) _ _)) (fun _ _ h1 => .ite h1 (.run h1 answers_execPsEnWrite)))) (.writePlain h)))

theorem State.Canonical.writeSurf (h : s.Canonical) {o v : Nat} : (s.writeSurf o v).Canonical :=
  .ite (.ite (.run h answers_execSurfCntClr) h) (.ite (.ite (.run h answers_execLawCommit) h) (.ite (.ite (.run
    (.slEnable h) answers_execSlRestart) (.slEnable h)) (.ite (.ite (.reject h) (.showMir (.writePlain h))) (.ite (.ite (.writePlain h)
    (.reject h)) (.writePlain h)))))

theorem State.Canonical.writeNet (h : s.Canonical) {o v : Nat} : (s.writeNet o v).Canonical :=
  .ite (.ite (.run h answers_execNetxCntClr) h) (.ite (.ite (.ite (.writePlain h) (.recheckModule (.writePlain h))) (.netLink (.ite
    (.writePlain h) (.recheckModule (.writePlain h))))) (.writePlain h))

theorem State.Canonical.writeWl (h : s.Canonical) {o v : Nat} : (s.writeWl o v).Canonical :=
  .ite (.ite (.run (.wlEnable h) answers_execWlRetrain) (.wlEnable h)) (.ite (.ite (.run h answers_execWlxCntClr) h) (.ite (.reject h)
    (.ite (.put (.writePlain h) _ _) (.writePlain h))))

theorem State.Canonical.writeGlobal (h : s.Canonical) {o v : Nat} : (s.writeGlobal o v).Canonical :=
  .ite (.ite (.run h answers_execGlobalCntClr) h) (.ite (.ite (.put (.ite (.put (.writePlain h) _ _) (.writePlain h)) _ _) (.ite (.put
    (.writePlain h) _ _) (.writePlain h))) (.writePlain h))

/-! ### Enabling and the first claim (R760, R769) -/

theorem answers_execPairEnWrite {value : BitVec 32} : s.Answers (execPairEnWrite value s) := .ifRestored (.next fun h => .pairEnWrite h)

theorem answers_execPairListenEnd : s.Answers (execPairListenEnd s) := by
  unfold execPairListenEnd
  dsimp only
  split
  · exact .next id
  · exact .ite (.next fun h => .sendWitness (.modPair h)) (.next id)

/-! ### The lease (R763–R768) -/

theorem State.Canonical.sendBoth (h : s.Canonical) {m : PairMsg} : (s.sendBoth m).Canonical := .sendWitness (.sendPair h)

theorem State.Canonical.sendRenew (h : s.Canonical) : s.sendRenew.Canonical := by
  unfold State.sendRenew
  dsimp only
  exact .modPair (.sendBoth h)

theorem State.Canonical.offerState (h : s.Canonical) : s.offerState.Canonical := .ite (.modPair h) (.ite h (.ite h (.sendState h)))
theorem State.Canonical.advanceSwap (h : s.Canonical) : s.advanceSwap.Canonical := .ite (.modPair h) (.ite (.sendYield h) h)

theorem answers_execLeaseRenew : s.Answers (execLeaseRenew s) :=
  .ite (.next fun h => .advanceSwap (.offerState (.sendRenew (.ite (.takeLease h) h)))) (.next fun h => .ite (.takeLease h) h)

theorem State.Canonical.answerPair (h : s.Canonical) {m : PairMsg} {refuse : Bool} {si : Nat} : (s.answerPair m refuse si).Canonical :=
  .sendPair h

theorem answers_execRenewReceived {m : PairMsg} : s.Answers (execRenewReceived m s) :=
  .ite (.next fun h => .onPartner h (fun _ h1 => .ite (.answerPair (.enterStandby h1)) (.ite (.answerPair h1) (.ite (.answerPair
    (.modPair h1)) h1)))) (.ite (.next fun h => .witRenew h) (.next id))

theorem State.Canonical.yieldAnswer (h : s.Canonical) {refuse : Bool} : (s.yieldAnswer refuse).Canonical := .modPair h

theorem State.Canonical.leaseAnswer (h : s.Canonical) {m : PairMsg} : (s.leaseAnswer m).Canonical := by
  unfold State.leaseAnswer
  refine .ite h (.ite (.closeGate h) (.ite h ?_))
  split
  · exact .modPair h
  · exact h

theorem answers_execAckReceived {m : PairMsg} : s.Answers (execAckReceived m s) :=
  .ite (.next fun h => .onPartner h (fun _ h1 => .ite (.yieldAnswer h1) (.leaseAnswer h1))) (.next fun h => .onWitness h (fun _ h1 =>
    .leaseAnswer h1))

theorem answers_execLeaseTimerExpiry : s.Answers (execLeaseTimerExpiry s) := .next fun h => .ite (.closeGate h) h
theorem answers_execClaimSend : s.Answers (execClaimSend s) := .ite (.next fun h => .sendWitness (.modPair h)) (.next id)

theorem answers_execClaimReceived {m : PairMsg} : s.Answers (execClaimReceived m s) :=
  .ite (.next fun h => .onPartner h (fun _ h1 => .ite (.enterStandby h1) h1)) (.ite (.next fun h => .witClaim h) (.next id))

/-! ### A COLD standby starts (R775, R778) -/

theorem State.Canonical.startReplica (h : s.Canonical) (e : s.startReplica = some t) : t.Canonical := by
  unfold State.startReplica at e
  split at e
  · cases e
  · split at e
    · cases e
    · dsimp only at e
      split_ifs at e
      cases e
      exact .unmuteAll (.modPair (.startSchedule (.each (.modSched (.restoreSettings h) _) fun _ _ h1 => .openDomain
        (.configureDomain h1))))

theorem State.Canonical.granted (h : s.Canonical) : s.granted.Canonical := by
  refine .ite ?_ (.modPair h)
  split
  · next e => exact .modPair (.startReplica h e)
  · exact h

theorem answers_execGrantReceived {m : PairMsg} : s.Answers (execGrantReceived m s) :=
  .next fun h => .onWitness h (fun _ h1 => .ite (.granted h1) (.ite (.enterStandby h1) h1))

/-! ### Yield and planned swap (R777, R778) -/

theorem answers_execYield {m : PairMsg} : s.Answers (execYield m s) :=
  .next fun h => .onPartner h (fun _ h1 => .ite h1 (.ite (.answerPair (.modPair h1)) (.answerPair h1)))

theorem answers_execYieldHandover : s.Answers (execYieldHandover s) := by
  unfold execYieldHandover
  dsimp only
  split
  · exact .next id
  · exact .ite (.ite (.ite (.next id) (.next fun h => .ite (.becomeSuspect (.enterStandby h)) (.enterStandby h))) (.ite (.next fun h =>
      .yieldAnswer h) (.next id))) (.ite (.next fun h => .takeLease h) (.next id))

theorem State.Canonical.planSwap (h : s.Canonical) : s.planSwap.Canonical :=
  .ite (.reject h) (.ite (.modPair (.sendState h)) (.sendYield h))

theorem answers_execPairSwap : s.Answers (execPairSwap s) := .ifHost (.next fun h => .planSwap h)
theorem State.Canonical.restartResync (h : s.Canonical) : s.restartResync.Canonical := .ite (.modPair (.put h _ _)) h
theorem answers_execPairResync : s.Answers (execPairResync s) := .ifHost (.next fun h => .restartResync h)

/-! ### Mirrors, control state and replicas at the standby (R772, R775, R776) -/

theorem State.Canonical.mirrored (h : s.Canonical) {st : Status} : (s.mirrored st).Canonical := .ite h (.becomeSuspect h)

theorem State.Canonical.mirrorPour (h : s.Canonical) {m : PourMsg} {runs : List Run} : (s.mirrorPour m runs).Canonical := by
  unfold State.mirrorPour
  dsimp only
  refine .ite ?_ ?_
  · split
    · exact .becomeSuspect h
    · exact .ite h (.ite (.becomeSuspect h) (.mirrored (.acceptPour h)))
  · split
    · exact .becomeSuspect h
    · exact .ite h (.mirrored (.modPour h))

theorem State.Canonical.mirrorSchedule (h : s.Canonical) {i : SchedImage} {flags target : Nat} :
    (s.mirrorSchedule i flags target).Canonical :=
  .ite (.becomeSuspect h) (.mirrored (.update (.judgeImage h)))

theorem State.Canonical.applyMirror (h : s.Canonical) {x0 : MirrorCmd} : (s.applyMirror x0).Canonical := by
  unfold State.applyMirror
  dsimp only
  split
  · exact .mirrored (.paramSet h)
  · exact .mirrored (.routeSet h)
  · exact .mirrorPour h
  · exact .mirrorSchedule h
  · exact .ite (.becomeSuspect h) (.armBank h)
  · exact .ite h (.mirrored (.readmit h))
  · exact .ite h (.becomeSuspect h)

theorem State.Canonical.takeMirror (h : s.Canonical) {m : PairMsg} : (s.takeMirror m).Canonical := by
  unfold State.takeMirror
  refine .ite h (.ite (.becomeSuspect h) ?_)
  split
  · exact .becomeSuspect h
  · exact .applyMirror (.modPair h)

theorem State.Canonical.takeState (h : s.Canonical) {c : ControlState} : (s.takeState c).Canonical := by
  refine .ite h (.ite ?_ (.ite (.modPair (.put (.installControl h) _ _)) h))
  split
  · exact h
  · next e => exact .modPair (.put (.put (.installControl (.startReplica h e)) _ _) _ _)

theorem State.Canonical.takeReplica (h : s.Canonical) {x : Settings} : (s.takeReplica x).Canonical :=
  .ite h (.ite (.modPair h) (.becomeReady (.modPair h)))

theorem answers_execMirrorReceived {m : PairMsg} : s.Answers (execMirrorReceived m s) := by
  unfold execMirrorReceived
  refine .next fun h => .onPartner h fun _ h1 => ?_
  split
  · exact .takeMirror h1
  · exact .takeState h1
  · exact .takeReplica h1
  · exact h1

theorem answers_execReplicaSend {t : TimeRecord} : s.Answers (execReplicaSend t s) := .next fun h => .ite (.sendPair h) h
theorem answers_execReplicaExpiry : s.Answers (execReplicaExpiry s) := .next fun h => .ite (.put h _ _) h

/-! ### Comparison and verdicts (R774) -/

theorem State.Canonical.resolve (h : s.Canonical) : s.resolve.Canonical := by
  unfold State.resolve
  dsimp only
  split
  · exact .ite (.ite (.sendYield (.modPair h)) (.modPair h)) (.ite (.ite (.modPair h) (.becomeSuspect (.modPair h))) (.modPair h))
  · exact h

theorem State.Canonical.giveVerdict (h : s.Canonical) {mask : Nat} : (s.giveVerdict mask).Canonical :=
  .resolve (.modPair (.sendPair (.postNow h _ _ _ _)))

theorem State.Canonical.resyncDone (h : s.Canonical) : s.resyncDone.Canonical := .ite (.becomeReady (.bump (.put (.put h _ _) _ _) _)) h

theorem State.Canonical.compareBlock (h : s.Canonical) {si : Nat} {own : Tab Nat} {partner : Tab (Option Nat)} :
    (s.compareBlock si own partner).Canonical :=
  .ite (.resyncDone (.modPair (.modPair h))) (.ite (.modPair (.set (.foldl (.modPair h) (fun _ _ h1 => .setMask h1 _ _)) _)) (.ite
    (.giveVerdict (.modPair (.set (.foldl (.modPair h) (fun _ _ h1 => .setMask h1 _ _)) _))) (.modPair (.set (.foldl (.modPair h)
    (fun _ _ h1 => .setMask h1 _ _)) _))))

theorem State.Canonical.compareAll (h : s.Canonical) : s.compareAll.Canonical := by
  unfold State.compareAll
  refine .each h fun _ _ h1 => ?_
  split
  · exact h1
  · exact .ite (.compareBlock h1) h1

theorem State.Canonical.modDigest (h : s.Canonical) {si : Nat} {f : DigestSt → DigestSt} : (s.modDigest si f).Canonical := .modPair h

theorem answers_execDigestSend : s.Answers (execDigestSend s) :=
  .ite (.next id) (.next fun h => .compareAll (.each (.modDigest (.modPair h)) (fun _ _ h1 => .sendPair h1)))

theorem answers_execDigestReceived {m : PairMsg} : s.Answers (execDigestReceived m s) :=
  .next fun h => .onPartner h (fun _ h1 => .ite h1 (.compareAll (.modDigest h1)))

theorem answers_execVerdictReceived {m : PairMsg} : s.Answers (execVerdictReceived m s) :=
  .next fun h => .onPartner h fun _ h1 => .resolve (.modPair h1)

theorem answers_execVerdictTimeout : s.Answers (execVerdictTimeout s) := .next fun h => .ite (.resolve (.modPair h)) h

/-! ### Resynchronisation (R776) -/

theorem State.Canonical.install (h : s.Canonical) {c : CarriedPart} : (s.install c).Canonical := by
  refine .ite h ?_
  split
  · exact .withShm h (Memory.writeBytes_wf _ _ _ h.shm)
  · exact .withLmem h (Memory.writeBytes_wf _ _ _ h.lmem)
  · exact .withGlz h (Memory.writeBytes_wf _ _ _ h.glz)

theorem answers_execResyncGroupCopy {data : List CarriedPart} {last : Bool} : s.Answers (execResyncGroupCopy data last s) :=
  .ite (.next fun h => .queueCell h) (.ite (.next fun h => .ite (.modPair (.put (.modPair (.each h (fun _ _ h1 => .install h1))) _ _))
    (.modPair (.each h (fun _ _ h1 => .install h1)))) (.next id))

theorem answers_execResyncTimeout : s.Answers (execResyncTimeout s) := .next fun h => .ite (.pairEvent (.set (.put h _ _) _)) h
theorem answers_execPairCntClr : s.Answers (execPairCntClr s) := .ifHost (.next fun h => .clear h _)

/-! ### A write of one dword of BAR0 or BAR2 (R790–R794, R801, R803, R805, R809, R840) -/

theorem State.Canonical.standbyWrite (h : s.Canonical) : s.standbyWrite.Canonical := .run (.update h) answers_execPwrStandby

theorem State.Canonical.writePwr (h : s.Canonical) {o v : Nat} : (s.writePwr o v).Canonical :=
  .ite (.ite (.run h answers_execPwrCntClr) h) (.ite (.ite (.standbyWrite h) h) (.writePlain h))

theorem State.Canonical.writeTrust (h : s.Canonical) {o v : Nat} : (s.writeTrust o v).Canonical :=
  .ite (.ite h (.ite (.put h _ _) (.reject h))) (.writePlain h)

theorem State.Canonical.writePairBlock (h : s.Canonical) {o v : Nat} : (s.writePairBlock o v).Canonical :=
  .ite (.pairEnWrite h) (.ite (.ite (.restartResync (.ite (.planSwap h) h)) (.ite (.planSwap h) h)) (.ite (.ite
    (.run h answers_execPairCntClr) h) (.writePlain h)))

theorem State.Canonical.writeBist (h : s.Canonical) {o v : Nat} : (s.writeBist o v).Canonical :=
  .ite (.ite (.run h answers_execBistCntClr) h) (.ite (.bistGo (.writePlain h)) (.writePlain h))

theorem State.Canonical.writeRegister (h : s.Canonical) {o v : Nat} : (s.writeRegister o v).Canonical := by
  unfold State.writeRegister
  split
  · exact .writeGlobal h
  · exact .writePwr h
  · exact .writeClk h
  · exact .writeTime h
  · exact .writeHost h
  · exact .writeSched h
  · exact .writeAport h
  · exact .writeAes h
  · exact .writeHuba h
  · exact .writeSurf h
  · exact .writeDma h
  · exact .writeDma h
  · exact .writeNet h
  · exact .writeNet h
  · exact .writeNet h
  · exact .ite (.ite (.run h answers_execClsCntClr) h) (.writePlain h)
  · exact .writeWl h
  · exact .ite (.ite (.run h answers_execStoreCntClr) h) (.writePlain h)
  · exact .writeTrust h
  · exact .writePairBlock h
  · exact .writeBist h
  · exact .ite (.ite (.run h answers_execPinfnCntClr) h) (.ite (.pinWrite h) (.writePlain h))
  · exact .writePlain h

theorem State.Canonical.writeBar0 (h : s.Canonical) {o v be : Nat} : (s.writeBar0 o v be).Canonical := by
  unfold State.writeBar0
  refine .ite h (.ite (.accFault h) (.ite (.accFault h) (.ite (.accFault h) ?_)))
  split
  · exact .writePair h
  · exact .writeRegister h

/-! ### BAR2 (R425, R426, R454, R459, R803) -/

theorem State.Canonical.writeSlot (h : s.Canonical) {slot : Fin 64} {k v : Nat} : (s.writeSlot slot k v).Canonical :=
  .ite (.run h answers_execUrgentSlotCommit) (.run h answers_execUrgentSlotCommit)

theorem State.Canonical.writeVector (h : s.Canonical) {n k v : Nat} : (s.writeVector n k v).Canonical := by
  unfold State.writeVector
  dsimp only
  split
  · exact .modHost h _
  · exact .modHost h _
  · exact .modHost h _
  · exact .maskVector h

theorem State.Canonical.writeBar2 (h : s.Canonical) {o v be : Nat} : (s.writeBar2 o v be).Canonical :=
  .ite h (.ite (.accFault h) (.ite (.run h answers_execDoorbell) (.ite (.writeSlot h) (.ite (.writeVector h) h))))

theorem answers_execRegisterWrite {bar2 : Bool} {off : BitVec 18} {value : BitVec 32} {be : BitVec 4} :
    s.Answers (execRegisterWrite bar2 off value be s) :=
  .next fun h => .ite (.writeBar2 h) (.writeBar0 h)

/-! ### The TRUST_* commands (R732–R758) -/

theorem answers_execTrustAttest {hd : CmdHdr} {nonce : BitVec 256} {addr : Nat} : s.Answers (execTrustAttest hd nonce addr s) :=
  .next fun h => .addJob h

theorem answers_execTrustClaim {hd : CmdHdr} {code : BitVec 64} {addr owner : Nat} {sigOk : Bool} :
    s.Answers (execTrustClaim hd code addr owner sigOk s) :=
  .next fun h => .ite (.refuse h) (.ite (.refuse h) (.addJob h))

theorem answers_execTrustRelease {hd : CmdHdr} {ring length : Nat} : s.Answers (execTrustRelease hd ring length s) :=
  .next fun h => .awaitObject h

theorem answers_execTrustPolicy {hd : CmdHdr} {ring length : Nat} : s.Answers (execTrustPolicy hd ring length s) :=
  .next fun h => .ite (.refuse h) (.awaitObject h)

theorem answers_execTrustMembers {hd : CmdHdr} {ring length : Nat} : s.Answers (execTrustMembers hd ring length s) :=
  .next fun h => .awaitObject h

theorem answers_execTrustHouse {hd : CmdHdr} {ring length : Nat} : s.Answers (execTrustHouse hd ring length s) :=
  .next fun h => .ite (.refuse h) (.awaitObject h)

theorem answers_execTrustFw {hd : CmdHdr} {ring length : Nat} : s.Answers (execTrustFw hd ring length s) :=
  .next fun h => .ite (.refuse h) (.awaitObject h)

theorem answers_execTrustCert {hd : CmdHdr} {addr : Nat} : s.Answers (execTrustCert hd addr s) := .next fun h => .addJob h

theorem answers_execTrustDebugChallenge {hd : CmdHdr} : s.Answers (execTrustDebugChallenge hd s) :=
  .next fun h => .ite (.refuse h) (.addJob h)

theorem answers_execTrustDebugUnlock {hd : CmdHdr} {ring length : Nat} : s.Answers (execTrustDebugUnlock hd ring length s) :=
  .next fun h => .awaitObject h

theorem answers_execTrustCommandTimeout {n : Nat} : s.Answers (execTrustCommandTimeout n s) := by
  unfold execTrustCommandTimeout
  split
  · exact .next fun h => .finish (.modTrust h) _ _ _ _ _ _
  · exact .next id

theorem answers_execBlankToManufactured {serial macs : List Nat} {code : BitVec 64} {chain : List Byte} :
    s.Answers (execBlankToManufactured serial macs code chain s) :=
  .ite (.next id) (.next fun h => .trustState (.put (.modTrust (.setIdentity (.update h))) _ _))

/-! ### Control operations (R187–R200, R263–R270) -/

theorem State.Answers.control {o : Op} {cop operands level : Nat} {go : State → State} (keeps : ∀ t, t.Canonical → (go t).Canonical) :
    s.Answers (s.control o cop operands level go) := .legal (.next fun h => keeps _ (.modUnit h))

theorem answers_branch {o : Op} {cop operands : Nat} {act : UnitSt → UnitSt} {taken : UnitSt → Option Nat} :
    s.Answers (branch o cop operands act taken s) :=
  .control fun _ h => .modUnit h

theorem answers_execBr {o : Op} {t : BrTarget} : s.Answers (execBr o t s) := answers_branch
theorem answers_execBrc {o : Op} {t : BrTarget} {cp : Fin 8} {sense : Bool} : s.Answers (execBrc o t cp sense s) := answers_branch
theorem answers_execCall {o : Op} {t : BrTarget} : s.Answers (execCall o t s) := answers_branch
theorem answers_execRet {o : Op} : s.Answers (execRet o s) := answers_branch

theorem answers_execLoop {o : Op} {level : Fin 4} {c : LoopCount} {fin : Fin 1024} : s.Answers (execLoop o level c fin s) :=
  .control fun _ h => .modUnit h

theorem answers_execHalt {o : Op} : s.Answers (execHalt o s) :=
  .control (fun _ h => .ite (.gatherFlags (.setUnit h _ _)) (.setUnit h _ _))

theorem answers_execTrap {o : Op} {code : BitVec 12} : s.Answers (execTrap o code s) := .control fun _ h => .issue h
theorem answers_execSync {o : Op} : s.Answers (execSync o s) := .control fun _ h => .modUnit h
theorem answers_execWaitdma {o : Op} : s.Answers (execWaitdma o s) := .control fun _ h => .modUnit h
theorem answers_execMovs {o : Op} {sreg : Fin 256} : s.Answers (execMovs o sreg s) := .control fun _ h => .issue h
theorem answers_execMovx {o : Op} {sreg : Fin 256} : s.Answers (execMovx o sreg s) := .control fun _ h => .issue h
theorem answers_execRett {o : Op} : s.Answers (execRett o s) := .control fun _ h => .modUnit h

theorem answers_execSyncRelease {c : Fin 64} : s.Answers (execSyncRelease c s) :=
  .ite (.next fun h => .each h (fun _ _ h1 => .modUnit h1)) (.next id)

theorem answers_execWaitdmaRelease {u : Fin 516} : s.Answers (execWaitdmaRelease u s) := .next fun h => .modUnit h

/-! ### The integer operations of slot I (R248–R254) and the long immediate (R271) -/

theorem answers_iIssue {op : Nat} {o : Op} {act : UnitSt → UnitSt} : s.Answers (iIssue op o act s) := .legal (.next fun h => .issue h)
theorem answers_iOp {op : Nat} {o : Op} {lat : Nat} {f : Word → Word → Word × Bool} : s.Answers (iOp op o lat f s) := answers_iIssue
theorem answers_execAdd {o : Op} : s.Answers (execAdd o s) := answers_iOp
theorem answers_execSub {o : Op} : s.Answers (execSub o s) := answers_iOp
theorem answers_execAdds {o : Op} : s.Answers (execAdds o s) := answers_iOp
theorem answers_execSubs {o : Op} : s.Answers (execSubs o s) := answers_iOp
theorem answers_execNeg {o : Op} : s.Answers (execNeg o s) := answers_iOp
theorem answers_execNegs {o : Op} : s.Answers (execNegs o s) := answers_iOp
theorem answers_execAnd {o : Op} : s.Answers (execAnd o s) := answers_iOp
theorem answers_execOr {o : Op} : s.Answers (execOr o s) := answers_iOp
theorem answers_execXor {o : Op} : s.Answers (execXor o s) := answers_iOp
theorem answers_execNot {o : Op} : s.Answers (execNot o s) := answers_iOp
theorem answers_execShl {o : Op} : s.Answers (execShl o s) := answers_iOp
theorem answers_execShr {o : Op} : s.Answers (execShr o s) := answers_iOp
theorem answers_execSar {o : Op} : s.Answers (execSar o s) := answers_iOp
theorem answers_execRol {o : Op} : s.Answers (execRol o s) := answers_iOp
theorem answers_execMul {o : Op} : s.Answers (execMul o s) := answers_iOp
theorem answers_execMulh {o : Op} : s.Answers (execMulh o s) := answers_iOp
theorem answers_execMin {o : Op} : s.Answers (execMin o s) := answers_iOp
theorem answers_execMax {o : Op} : s.Answers (execMax o s) := answers_iOp
theorem answers_execBitrev {o : Op} : s.Answers (execBitrev o s) := answers_iOp
theorem answers_divOp {op : Nat} {o : Op} {f : Word → Word → Word × Word × Bool × Bool} : s.Answers (divOp op o f s) := answers_iIssue
theorem answers_execDivs {o : Op} : s.Answers (execDivs o s) := answers_divOp
theorem answers_execDivu {o : Op} : s.Answers (execDivu o s) := answers_divOp
theorem answers_execCmp {o : Op} : s.Answers (execCmp o s) := answers_iIssue
theorem answers_execMovi {o : Op} {imm : BitVec 12} : s.Answers (execMovi o imm s) := .legal (.next fun h => .issue h)
theorem answers_execAmod {o : Op} : s.Answers (execAmod o s) := answers_iIssue

theorem answers_execLongImmediate {o : Op} {isF : Bool} {imm : BitVec 64} : s.Answers (execLongImmediate o isF imm s) :=
  .legal (.next fun h => .issue h)

/-! ### The floating-point operations of slots M0 and M1 (R236–R247) -/

theorem answers_mIssue {op : Nat} {o : Op} {act : UnitSt → UnitSt} : s.Answers (mIssue op o act s) := .legal (.next fun h => .issue h)

theorem answers_mOp {op : Nat} {o : Op} {lat : Nat} {f : Word → Word → Word → Word × Fp.Flags} : s.Answers (mOp op o lat f s) :=
  answers_mIssue

theorem answers_execFma {o : Op} : s.Answers (execFma o s) := answers_mOp
theorem answers_execFms {o : Op} : s.Answers (execFms o s) := answers_mOp
theorem answers_execFnma {o : Op} : s.Answers (execFnma o s) := answers_mOp
theorem answers_execFmul {o : Op} : s.Answers (execFmul o s) := answers_mOp
theorem answers_execFadd {o : Op} : s.Answers (execFadd o s) := answers_mOp
theorem answers_execFsub {o : Op} : s.Answers (execFsub o s) := answers_mOp
theorem answers_execFmin {o : Op} : s.Answers (execFmin o s) := answers_mOp
theorem answers_execFmax {o : Op} : s.Answers (execFmax o s) := answers_mOp
theorem answers_execFabs {o : Op} : s.Answers (execFabs o s) := answers_mOp
theorem answers_execFneg {o : Op} : s.Answers (execFneg o s) := answers_mOp
theorem answers_execFcmp {o : Op} : s.Answers (execFcmp o s) := answers_mIssue
theorem answers_execFsel {o : Op} : s.Answers (execFsel o s) := answers_mOp
theorem answers_execFramp {o : Op} : s.Answers (execFramp o s) := answers_mOp
theorem answers_execFsat {o : Op} : s.Answers (execFsat o s) := answers_mOp
theorem answers_execFscrub {o : Op} : s.Answers (execFscrub o s) := answers_mOp
theorem answers_execFmov {o : Op} : s.Answers (execFmov o s) := answers_mOp
theorem answers_execFswap {o : Op} : s.Answers (execFswap o s) := answers_mIssue
theorem answers_execFcvt {o : Op} : s.Answers (execFcvt o s) := answers_mIssue
theorem answers_execFrcp {o : Op} : s.Answers (execFrcp o s) := answers_mOp
theorem answers_execFrsq {o : Op} : s.Answers (execFrsq o s) := answers_mOp
theorem answers_execFexp2 {o : Op} : s.Answers (execFexp2 o s) := answers_mOp
theorem answers_execFlog2 {o : Op} : s.Answers (execFlog2 o s) := answers_mOp

/-! ### The dispatch of a command to its meaning -/

theorem answers_exec {i : Instr} : s.Answers (exec i s) := by
  unfold exec
  split
  · exact answers_execFma
  · exact answers_execFms
  · exact answers_execFnma
  · exact answers_execFmul
  · exact answers_execFadd
  · exact answers_execFsub
  · exact answers_execFmin
  · exact answers_execFmax
  · exact answers_execFabs
  · exact answers_execFneg
  · exact answers_execFcmp
  · exact answers_execFsel
  · exact answers_execFramp
  · exact answers_execFsat
  · exact answers_execFscrub
  · exact answers_execFmov
  · exact answers_execFswap
  · exact answers_execFcvt
  · exact answers_execFrcp
  · exact answers_execFrsq
  · exact answers_execFexp2
  · exact answers_execFlog2
  · exact answers_execAdd
  · exact answers_execSub
  · exact answers_execAdds
  · exact answers_execSubs
  · exact answers_execNeg
  · exact answers_execNegs
  · exact answers_execAnd
  · exact answers_execOr
  · exact answers_execXor
  · exact answers_execNot
  · exact answers_execShl
  · exact answers_execShr
  · exact answers_execSar
  · exact answers_execRol
  · exact answers_execMul
  · exact answers_execMulh
  · exact answers_execDivs
  · exact answers_execDivu
  · exact answers_execMin
  · exact answers_execMax
  · exact answers_execCmp
  · exact answers_execMovi
  · exact answers_execAmod
  · exact answers_execBitrev
  · exact answers_execLdl32a
  · exact answers_execLdl32f
  · exact answers_execLdl64
  · exact answers_execStl32a
  · exact answers_execStl32f
  · exact answers_execStl64
  · exact answers_execLds32a
  · exact answers_execLds32f
  · exact answers_execLds64
  · exact answers_execSts32a
  · exact answers_execSts32f
  · exact answers_execSts64
  · exact answers_execLdsB256
  · exact answers_execLdp
  · exact answers_execLdt
  · exact answers_execMovfa
  · exact answers_execMovaf
  · exact answers_execBr
  · exact answers_execBrc
  · exact answers_execCall
  · exact answers_execRet
  · exact answers_execLoop
  · exact answers_execHalt
  · exact answers_execTrap
  · exact answers_execSync
  · exact answers_execWaitdma
  · exact answers_execMovs
  · exact answers_execMovx
  · exact answers_execRett
  · exact answers_execLongImmediate
  · exact answers_execResultLands
  · exact answers_execTrapEntry
  · exact answers_execSyncRelease
  · exact answers_execWaitdmaRelease
  · exact answers_execFiringEnd
  · exact answers_execShmReadCycle
  · exact answers_execShmWriteCycle
  · exact answers_execDmaTransferStart
  · exact answers_execDmaTransferComplete
  · exact answers_execPeekCopy
  · exact answers_execFrameStartMarker
  · exact answers_execRegionClockStart
  · exact answers_execAdpllLock
  · exact answers_execBypassFallback
  · exact answers_execAdpllLossOfLock
  · exact answers_execPreheat
  · exact answers_execFiringStart
  · exact answers_execGlazeSectionStart
  · exact answers_execFiringBudgetExhausted
  · exact answers_execExecutionDeadline
  · exact answers_execRegionClockStop
  · exact answers_execScheduleSwitch
  · exact answers_execAdmissionComplete
  · exact answers_execReadmission
  · exact answers_execSpareRotation
  · exact answers_execSpareTestDone
  · exact answers_execParamSet
  · exact answers_execPour
  · exact answers_execPourCancel
  · exact answers_execRoute
  · exact answers_execMeterSubOpen
  · exact answers_execMeterSubClose
  · exact answers_execProgLoad
  · exact answers_execSchedAdmit
  · exact answers_execSchedAdmitArm
  · exact answers_execSchedAdmitReadmit
  · exact answers_execStoreFormat
  · exact answers_execStoreShare
  · exact answers_execStoreList
  · exact answers_execStoreRecIn
  · exact answers_execStoreRecOut
  · exact answers_execStorePlay
  · exact answers_execStoreStop
  · exact answers_execStoreExport
  · exact answers_execStoreImport
  · exact answers_execStoreDelete
  · exact answers_execNetStreamTx
  · exact answers_execNetStreamRx
  · exact answers_execNetStreamDel
  · exact answers_execNetStreamStat
  · exact answers_execNetClsRule
  · exact answers_execNetCue
  · exact answers_execNetJoin
  · exact answers_execNetWlRoute
  · exact answers_execNetWlFlowTx
  · exact answers_execNetWlFlowRx
  · exact answers_execNetWlFlowDel
  · exact answers_execNetWlTransit
  · exact answers_execNetWlParam
  · exact answers_execNetWlDistribute
  · exact answers_execTrustAttest
  · exact answers_execTrustClaim
  · exact answers_execTrustRelease
  · exact answers_execTrustPolicy
  · exact answers_execTrustMembers
  · exact answers_execTrustHouse
  · exact answers_execTrustFw
  · exact answers_execTrustCert
  · exact answers_execTrustDebugChallenge
  · exact answers_execTrustDebugUnlock
  · exact answers_execHush
  · exact answers_execQueryPath
  · exact answers_execQueryPeek
  · exact answers_execQueryClear
  · exact answers_execQueryValue
  · exact answers_execPourCompileDone
  · exact answers_execPourMessageReceived
  · exact answers_execPourReportMessage
  · exact answers_execPourMessageResend
  · exact answers_execPourStart
  · exact answers_execPourCancelApply
  · exact answers_execPourReportTimeout
  · exact answers_execCandidateQualified
  · exact answers_execCandidateLoss
  · exact answers_execRevertWtrExpiry
  · exact answers_execMpllComparison
  · exact answers_execLockCriterion
  · exact answers_execPhaseExcursion
  · exact answers_execBandwidthHalving
  · exact answers_execRefxoFail
  · exact answers_execClkMpllDcoWrite
  · exact answers_execRoastStart
  · exact answers_execRoastAbort
  · exact answers_execRoastProfileBegin
  · exact answers_execRoastSegmentEnd
  · exact answers_execRenumbering
  · exact answers_execAlignComplete
  · exact answers_execTxStampDrain
  · exact answers_execTriggerArm
  · exact answers_execTriggerCancel
  · exact answers_execTriggerFire
  · exact answers_execTimeSnap
  · exact answers_execDoorbell
  · exact answers_execUrgentSlotCommit
  · exact answers_execUrgentDispatch
  · exact answers_execDescriptorDispatch
  · exact answers_execCommandCompletion
  · exact answers_execEventHoldingDrain
  · exact answers_execMsixModerationExpiry
  · exact answers_execHostLinkReset
  · exact answers_execLinkRetrain
  · exact answers_execHostRingCfgWrite
  · exact answers_execHostWinCtlWrite
  · exact answers_execWindowDrainDone
  · exact answers_execDmaChStart
  · exact answers_execDmaChAbort
  · exact answers_execDmaDescriptorDone
  · exact answers_execBulkBufferConsumed
  · exact answers_execImageTransferTimeout
  · exact answers_execMeterUpdate
  · exact answers_execHushNFall
  · exact answers_execHushNRise
  · exact answers_execHushRampStart
  · exact answers_execNetFrameReceived
  · exact answers_execStreamPacketTx
  · exact answers_execStreamLoss
  · exact answers_execNetModuleInsert
  · exact answers_execNetDdmPoll
  · exact answers_execNetLinkChange
  · exact answers_execMacsecKeyAgreement
  · exact answers_execWlTrainDone
  · exact answers_execWlAlignDone
  · exact answers_execWlAuthDone
  · exact answers_execWlStateTimeout
  · exact answers_execWlRestartTimer
  · exact answers_execWlPortDown
  · exact answers_execWlCellReceived
  · exact answers_execWlReplayTimeout
  · exact answers_execWlCellTx
  · exact answers_execWlTimeCellTx
  · exact answers_execWlTimeLoss
  · exact answers_execWlBundleTx
  · exact answers_execWlFlowLoss
  · exact answers_execNetWlParamTimeout
  · exact answers_execWlRetrain
  · exact answers_execAportStart
  · exact answers_execAportStop
  · exact answers_execAportUnderrun
  · exact answers_execAportOverrun
  · exact answers_execAportFramingError
  · exact answers_execPairSwapDetect
  · exact answers_execAesRxLock
  · exact answers_execAesRxLockLoss
  · exact answers_execAesCsBlock
  · exact answers_execAesRxCsSnap
  · exact answers_execAesTxCommit
  · exact answers_execAesTxBlockStart
  · exact answers_execAesTxStart
  · exact answers_execAsrcNarrow
  · exact answers_execAsrcRelease
  · exact answers_execAsrcRetrack
  · exact answers_execAsrcRestart
  · exact answers_execConvEnWrite
  · exact answers_execChainSettled
  · exact answers_execRangeRequest
  · exact answers_execRangeChange
  · exact answers_execCompensationStep
  · exact answers_execJackDetectChange
  · exact answers_execJackRemovalEdge
  · exact answers_execJackClassified
  · exact answers_execButtonAccepted
  · exact answers_execButtonLevelMute
  · exact answers_execPsEnWrite
  · exact answers_execPsPrechargeDone
  · exact answers_execPsShutdown
  · exact answers_execPsRetry
  · exact answers_execRetryUsedReset
  · exact answers_execPsSupplyFault
  · exact answers_execPsSupplyRestart
  · exact answers_execPsThermalRead
  · exact answers_execModulePoll
  · exact answers_execSlEnumerate
  · exact answers_execSlRestart
  · exact answers_execServoCycle
  · exact answers_execServoUpReceived
  · exact answers_execServoFiringEnd
  · exact answers_execModuleLost
  · exact answers_execTouchUpReceived
  · exact answers_execServoCut
  · exact answers_execFaderStall
  · exact answers_execLawCommit
  · exact answers_execStoreDriveChange
  · exact answers_execChunkWrite
  · exact answers_execRecordOverrun
  · exact answers_execJournalCut
  · exact answers_execJournalCommit
  · exact answers_execPunchIn
  · exact answers_execPunchOut
  · exact answers_execPlayStart
  · exact answers_execPlayUnderrun
  · exact answers_execStoreMemberLost
  · exact answers_execStoreMemberReturn
  · exact answers_execSmartPoll
  · exact answers_execPowerGood
  · exact answers_execSupplyDip
  · exact answers_execWarmRestart
  · exact answers_execPowerFailWarning
  · exact answers_execWarningEnd
  · exact answers_execVbatHandover
  · exact answers_execVddAonReturn
  · exact answers_execPwrStandby
  · exact answers_execWake
  · exact answers_execWarmAlarm
  · exact answers_execWakeFail
  · exact answers_execSettingsAppend
  · exact answers_execRangePipelineStop
  · exact answers_execRangeRestart
  · exact answers_execRecoveryGo
  · exact answers_execThermalHoldEnter
  · exact answers_execThermalHoldLeave
  · exact answers_execPairEnWrite
  · exact answers_execPairListenEnd
  · exact answers_execLeaseRenew
  · exact answers_execRenewReceived
  · exact answers_execAckReceived
  · exact answers_execLeaseTimerExpiry
  · exact answers_execClaimSend
  · exact answers_execClaimReceived
  · exact answers_execGrantReceived
  · exact answers_execYield
  · exact answers_execYieldHandover
  · exact answers_execPairSwap
  · exact answers_execPairResync
  · exact answers_execMirrorReceived
  · exact answers_execDigestSend
  · exact answers_execDigestReceived
  · exact answers_execVerdictReceived
  · exact answers_execVerdictTimeout
  · exact answers_execReplicaSend
  · exact answers_execResyncGroupCopy
  · exact answers_execResyncTimeout
  · exact answers_execBistGo
  · exact answers_execBistTestStart
  · exact answers_execBistDone
  · exact answers_execPinfnWrite
  · exact answers_execPinfnChange
  · exact answers_execPinfnParkEnd
  · exact answers_execSchedSliceWrite
  · exact answers_execPairLoRead
  · exact answers_execPairHiRead
  · exact answers_execSchedCntClr
  · exact answers_execHostCntClr
  · exact answers_execNetxCntClr
  · exact answers_execClsCntClr
  · exact answers_execWlxCntClr
  · exact answers_execAportCntClr
  · exact answers_execAesCntClr
  · exact answers_execHubaCntClr
  · exact answers_execSurfCntClr
  · exact answers_execStoreCntClr
  · exact answers_execPwrCntClr
  · exact answers_execPairCntClr
  · exact answers_execBistCntClr
  · exact answers_execPinfnCntClr
  · exact answers_execGlobalCntClr
  · exact answers_execRegisterWrite
  · exact answers_execPtpMessageTx
  · exact answers_execPtpPortStateChange
  · exact answers_execNetModuleRemoved
  · exact answers_execMacsecPeerLost
  · exact answers_execWlModuleInsertion
  · exact answers_execPlaybackChunkRead
  · exact answers_execStoreIoError
  · exact answers_execRetentionLoss
  · exact answers_execTrustCommandTimeout
  · exact answers_execReplicaExpiry
  · exact answers_execBlankToManufactured

/-! ### A cycle of the clocks -/

theorem answers_runAll {l : List Instr} : s.Answers (runAll l s) := by
  induction l generalizing s with
  | nil => exact .next id
  | cons i l ih =>
    obtain ⟨t, next, keeps⟩ := answers_exec (i := i) (s := s)
    simp only [runAll, next]
    exact .of keeps ih

theorem State.Canonical.stateOf {o : Out} (h : t.Canonical) (a : t.Answers o) : (stateOf s o).Canonical := by
  obtain ⟨u, rfl, keeps⟩ := a
  exact keeps h

theorem State.Canonical.issueBundle (h : s.Canonical) {u : Fin 516} : (s.issueBundle u).Canonical := by
  refine .ite ?_ h
  split
  · exact .enterTrap h
  · dsimp only
    split
    · exact .setUnit h _ _
    · exact .stateOf h answers_runAll

theorem State.Canonical.tickCluster (h : s.Canonical) {c : Fin 64} : (s.tickCluster c).Canonical := by
  unfold State.tickCluster
  split
  · exact h
  · refine .ite (.stateOf h answers_execFiringEnd) (.ite (.cut h) (.portCycle ?_))
    dsimp only
    split
    · exact .stateOf (.stateOf (.each (.stateOf (.each h fun _ _ h1 => .ite (.issueBundle h1) h1) answers_execSyncRelease)
        fun _ _ h1 => .stateOf h1 answers_execWaitdmaRelease) answers_execDmaTransferStart) answers_execGlazeSectionStart
    · exact .stateOf (.each (.stateOf (.each h fun _ _ h1 => .ite (.issueBundle h1) h1) answers_execSyncRelease)
        fun _ _ h1 => .stateOf h1 answers_execWaitdmaRelease) answers_execDmaTransferStart

theorem State.Canonical.tick (h : s.Canonical) : s.tick.Canonical :=
  .each (.each h (fun _ _ h1 => .tickCluster h1)) fun _ _ h1 => .issueBundle h1

/-! ### A step -/

theorem answers_step : s.Answers (step s) := by
  cases front : s.pending with
  | nil => rw [step_nil front]; exact .next fun h => .tick h
  | cons c rest => rw [step_cons front]; exact .of (fun h => .update h) answers_exec

end Sys2Proof.Machine

namespace Sys2Proof.Machine

/-- Settles O58: what a step answers is canonical from a canonical state (`answers_step`), by one lemma for every operation of the model. -/
theorem stepKeepsCanonicalForm : Obligations.StepKeepsCanonicalForm := by
  unfold Obligations.StepKeepsCanonicalForm
  intro s t canonical run
  obtain ⟨u, next, keeps⟩ := answers_step (s := s)
  rw [run] at next
  cases next
  exact keeps canonical

/-- Settles O60: every command and every step answers a next state (`answers_exec`, `answers_step`; logs 5 and 10). -/
theorem everyCommandAnswers : Obligations.EveryCommandAnswers := by
  unfold Obligations.EveryCommandAnswers
  refine ⟨fun i s => ?_, fun s => ?_⟩
  · obtain ⟨t, next, -⟩ := answers_exec (i := i) (s := s)
    exact ⟨t, next⟩
  · obtain ⟨t, next, -⟩ := answers_step (s := s)
    exact ⟨t, next⟩

end Sys2Proof.Machine
end

