-- ==== Sys2Proof/Proofs/ShowsOnly.lean ====
section
/-! SUPPORT. Operations that only show: they write registers of a list, the host's queues, free values and the media PLLs, and leave
every other part of the state. -/

namespace Sys2Proof.Machine

variable {l : List Fld} {s t u : State}

/-- `t` differs from `s` only in the registers of `l`, in what the host interface holds, in free values and in the media PLLs. -/
structure ShowsOnly (l : List Fld) (s t : State) : Prop where
  regs : WritesOnly l s t
  units : t.units = s.units
  clusters : t.clusters = s.clusters
  regions : t.regions = s.regions
  doms : t.doms = s.doms
  mix : t.mix = s.mix
  sched : t.sched = s.sched
  pours : t.pours = s.pours
  net : t.net = s.net
  audio : t.audio = s.audio
  wl : t.wl = s.wl
  huba : t.huba = s.huba
  surf : t.surf = s.surf
  store : t.store = s.store
  pwr : t.pwr = s.pwr
  trust : t.trust = s.trust
  pair : t.pair = s.pair
  bist : t.bist = s.bist
  pins : t.pins = s.pins
  dram : t.dram = s.dram
  shm : t.shm = s.shm
  lmem : t.lmem = s.lmem
  prog : t.prog = s.prog

theorem ShowsOnly.refl : ShowsOnly l s s :=
  ⟨.refl, rfl, rfl, rfl, rfl, rfl, rfl, rfl, rfl, rfl, rfl, rfl, rfl, rfl, rfl, rfl, rfl, rfl, rfl, rfl, rfl, rfl, rfl⟩

theorem ShowsOnly.trans (a : ShowsOnly l s t) (b : ShowsOnly l t u) : ShowsOnly l s u where
  regs := a.regs.trans b.regs
  units := b.units.trans a.units
  clusters := b.clusters.trans a.clusters
  regions := b.regions.trans a.regions
  doms := b.doms.trans a.doms
  mix := b.mix.trans a.mix
  sched := b.sched.trans a.sched
  pours := b.pours.trans a.pours
  net := b.net.trans a.net
  audio := b.audio.trans a.audio
  wl := b.wl.trans a.wl
  huba := b.huba.trans a.huba
  surf := b.surf.trans a.surf
  store := b.store.trans a.store
  pwr := b.pwr.trans a.pwr
  trust := b.trust.trans a.trust
  pair := b.pair.trans a.pair
  bist := b.bist.trans a.bist
  pins := b.pins.trans a.pins
  dram := b.dram.trans a.dram
  shm := b.shm.trans a.shm
  lmem := b.lmem.trans a.lmem
  prog := b.prog.trans a.prog

theorem ShowsOnly.mono {m : List Fld} (sub : l ⊆ m) (h : ShowsOnly l s t) : ShowsOnly m s t := { h with regs := h.regs.mono sub }

theorem ShowsOnly.put {g : Fld} (mem : g ∈ l) (v : Nat) : ShowsOnly l s (s.put g v) :=
  ⟨.put mem v, rfl, rfl, rfl, rfl, rfl, rfl, rfl, rfl, rfl, rfl, rfl, rfl, rfl, rfl, rfl, rfl, rfl, rfl, rfl, rfl, rfl, rfl⟩

theorem ShowsOnly.take : ShowsOnly l s s.take :=
  ⟨.of_regs rfl, rfl, rfl, rfl, rfl, rfl, rfl, rfl, rfl, rfl, rfl, rfl, rfl, rfl, rfl, rfl, rfl, rfl, rfl, rfl, rfl, rfl, rfl⟩

theorem ShowsOnly.modMpll (k : Nat) (f : MpllSt → MpllSt) : ShowsOnly l s (s.modMpll k f) :=
  ⟨.of_regs rfl, rfl, rfl, rfl, rfl, rfl, rfl, rfl, rfl, rfl, rfl, rfl, rfl, rfl, rfl, rfl, rfl, rfl, rfl, rfl, rfl, rfl, rfl⟩

theorem ShowsOnly.host (h : SameButHost s t) : ShowsOnly l s t :=
  ⟨.host h, h.units, h.clusters, h.regions, h.doms, h.mix, h.sched, h.pours, h.net, h.audio, h.wl,
    h.huba, h.surf, h.store, h.pwr, h.trust, h.pair, h.bist, h.pins, h.dram, h.shm, h.lmem, h.prog⟩

theorem ShowsOnly.post (s : State) (c : EvClass) (v : Option Nat) (e : Event) : ShowsOnly l s (s.post c v e) := .host (SameButHost.post ..)

theorem ShowsOnly.postNow (s : State) (c : EvClass) (v : Option Nat) (k : Nat) (b : List Nat) : ShowsOnly l s (s.postNow c v k b) :=
  .host (SameButHost.postNow ..)

theorem ShowsOnly.ite {c : Prop} [Decidable c] (a : ShowsOnly l s t) (b : ShowsOnly l s u) : ShowsOnly l s (if c then t else u) := by
  split
  · exact a
  · exact b

theorem ShowsOnly.each {α : Type} {xs : List α} {f : α → State → State} (h : ∀ x ∈ xs, ∀ t, ShowsOnly l t (f x t)) :
    ShowsOnly l s (s.each xs f) :=
  State.each_keeps_mem (ShowsOnly l s) f s xs (fun x mem t kept => kept.trans (h x mem t)) .refl

theorem ShowsOnly.clear {fs : List Fld} (sub : fs ⊆ l) : ShowsOnly l s (s.clear fs) :=
  List.foldlRecOn (motive := ShowsOnly l s) fs _ .refl fun _ kept _ mem => kept.trans (.put (sub mem) 0)

theorem ShowsOnly.get (h : ShowsOnly l s t) {f : Fld} (free : f.FreeOf l) : t.get f = s.get f := h.regs f free
theorem ShowsOnly.bit (h : ShowsOnly l s t) {f : Fld} (free : f.FreeOf l) : t.bit f = s.bit f := h.regs.bit free
theorem ShowsOnly.dom (h : ShowsOnly l s t) (d : Nat) : t.dom d = s.dom d := by
  unfold State.dom
  rw [h.doms]
theorem ShowsOnly.wlp (h : ShowsOnly l s t) (q : Nat) : t.wlp q = s.wlp q := by
  unfold State.wlp
  rw [h.wl]

/-! ### A lost candidate of a media PLL -/

theorem ShowsOnly.enterMpll (s : State) (n st : Nat) : ShowsOnly (referenceRegs n) s (s.enterMpll n st) :=
  ((ShowsOnly.put (by simp [referenceRegs, acquireRegs]) st).trans (.put (by simp [referenceRegs, acquireRegs]) _)).trans (.postNow ..)

theorem ShowsOnly.enterAcquire (s : State) (n : Nat) : ShowsOnly (referenceRegs n) s (s.enterAcquire n) :=
  ((ShowsOnly.put (by simp [referenceRegs, acquireRegs]) 0).trans (.modMpll n _)).trans (.enterMpll _ n _)

theorem ShowsOnly.endLocal (s : State) (n : Nat) (b : Bool) : ShowsOnly (referenceRegs n) s (s.endLocal b) :=
  .ite (.put (by simp [referenceRegs]) 0) .refl

theorem ShowsOnly.selectCandidate (s : State) (n k : Nat) : ShowsOnly (referenceRegs n) s (s.selectCandidate n k) := by
  have pointed : ShowsOnly (referenceRegs n) s (s.pointTo n k) :=
    (((ShowsOnly.put (by simp [referenceRegs]) k).trans (.put (by simp [referenceRegs]) 1)).trans (.modMpll n _)).trans
      (.put (by simp [referenceRegs]) _)
  obtain ⟨b, eq⟩ := s.selectCandidate_eq n k
  rw [eq]
  exact (pointed.trans (.endLocal _ n b)).trans (.enterAcquire _ n)

theorem ShowsOnly.loseReference (s : State) (n : Nat) : ShowsOnly (referenceRegs n) s (s.loseReference n) := by
  have invalid : ShowsOnly (referenceRegs n) s (s.put (Reg.CLK_MPLL_STATE_SEL_VALID n) 0) := .put (by simp [referenceRegs]) 0
  unfold State.loseReference
  split
  · exact (ShowsOnly.ite ((ShowsOnly.modMpll n _).trans .take) .refl).trans (.selectCandidate _ n _)
  · refine .ite (.trans (.ite invalid ?_) (.enterMpll _ n _)) (.ite (invalid.trans (.enterMpll _ n _)) invalid)
    exact (invalid.trans (.put (by simp [referenceRegs]) _)).trans .take

theorem ShowsOnly.disqualify (s : State) (n k : Nat) : ShowsOnly (candidateRegs n) s (s.disqualify n k) := by
  have marked : ShowsOnly (candidateRegs n) s
      ((s.clrMask (Reg.CLK_MPLL_QUAL_QUALIFIED n) k).setMask (Reg.CLK_MPLL_QUAL_DISQ n) k) :=
    (ShowsOnly.put (by simp [candidateRegs]) _).trans (.put (by simp [candidateRegs]) _)
  exact .ite (.ite (marked.trans (.mono (referenceRegs_subset n) (.loseReference _ n))) marked) .refl

/-- The registers that a lost candidate of any media PLL can write. -/
def anyCandidateRegs : List Fld := candidateRegs 0 ++ candidateRegs 1 ++ candidateRegs 2

theorem candidateRegs_subset {n : Nat} (number : n < 3) : candidateRegs n ⊆ anyCandidateRegs := by
  unfold anyCandidateRegs
  have : n = 0 ∨ n = 1 ∨ n = 2 := by omega
  rcases this with rfl | rfl | rfl <;> intro f mem <;> simp [mem]

theorem ShowsOnly.disqualifyAll (s : State) (bad : State → Nat → Nat → Bool) : ShowsOnly anyCandidateRegs s (s.disqualifyAll bad) :=
  .each fun n mem _ => .each fun k _ t => .ite (.mono (candidateRegs_subset (List.mem_range.1 mem)) (.disqualify t n k)) .refl

end Sys2Proof.Machine
end

