-- ==== Sys2Proof/Proofs/WamundPorts.lean ====
section
/-! SUPPORT. The record of a Wamund port, what its candidates and cells leave alone, and its way to DOWN (R527, R547, R558). -/
namespace Sys2Proof.Machine

variable {s t : State}

/-! ### The record of a port -/

theorem State.wlp_of_wl (wl : t.wl = s.wl) (q : Nat) : t.wlp q = s.wlp q := by
  unfold State.wlp
  rw [wl]

theorem State.wlp_modWl (s : State) (p q : Nat) (f : WlPort → WlPort) :
    (s.modWl p f).wlp q = if q = p then f (s.wlp p) else s.wlp q := Tab.get_put _ s.wl.ports p q _

@[simp] theorem State.wlp_modWl_same (s : State) (p : Nat) (f : WlPort → WlPort) : (s.modWl p f).wlp p = f (s.wlp p) := by
  simp [State.wlp_modWl]

theorem State.wlp_modWl_ne (s : State) {p q : Nat} (other : q ≠ p) (f : WlPort → WlPort) : (s.modWl p f).wlp q = s.wlp q := by
  simp [State.wlp_modWl, other]

@[simp] theorem State.wlp_put (s : State) (f : Fld) (v q : Nat) : (s.put f v).wlp q = s.wlp q := rfl
@[simp] theorem State.wlp_set (s : State) (f : Fld) (q : Nat) : (s.set f).wlp q = s.wlp q := rfl
@[simp] theorem State.wlp_postNow (s : State) (c : EvClass) (v : Option Nat) (k : Nat) (b : List Nat) (q : Nat) :
    (s.postNow c v k b).wlp q = s.wlp q := State.wlp_of_wl (State.postNow_wl ..) q
@[simp] theorem State.modWl_regs (s : State) (p : Nat) (f : WlPort → WlPort) : (s.modWl p f).regs = s.regs := rfl
@[simp] theorem State.modWl_units (s : State) (p : Nat) (f : WlPort → WlPort) : (s.modWl p f).units = s.units := rfl
@[simp] theorem State.modWl_host (s : State) (p : Nat) (f : WlPort → WlPort) : (s.modWl p f).host = s.host := rfl
@[simp] theorem State.get_modWl (s : State) (p : Nat) (f : WlPort → WlPort) (g : Fld) : (s.modWl p f).get g = s.get g := rfl
@[simp] theorem State.bit_modWl (s : State) (p : Nat) (f : WlPort → WlPort) (g : Fld) : (s.modWl p f).bit g = s.bit g := rfl
@[simp] theorem State.wlUp_modWl (s : State) (p : Nat) (f : WlPort → WlPort) (q : Nat) : (s.modWl p f).wlUp q = s.wlUp q := rfl

/-! ### The candidates of a port -/

theorem ShowsOnly.dropWlTime (s : State) (p : Nat) : ShowsOnly anyCandidateRegs s (s.dropWlTime p) :=
  .each fun n mem _ => .each fun k _ t => .ite (.mono (candidateRegs_subset (List.mem_range.1 mem)) (.disqualify t n k)) .refl

/-! ### A command that waits for other devices -/

@[simp] theorem State.answerWait_regs (s : State) (op tag dev : Nat) (st : Status) : (s.answerWait op tag dev st).regs = s.regs := by
  unfold State.answerWait
  split
  · rfl
  · dsimp only
    split <;> rfl

@[simp] theorem State.answerWait_units (s : State) (op tag dev : Nat) (st : Status) : (s.answerWait op tag dev st).units = s.units := by
  unfold State.answerWait
  split
  · rfl
  · dsimp only
    split <;> rfl

@[simp] theorem State.wlp_answerWait (s : State) (op tag dev : Nat) (st : Status) (q : Nat) :
    (s.answerWait op tag dev st).wlp q = s.wlp q := by
  unfold State.answerWait
  split
  · rfl
  · dsimp only
    split <;> rfl

/-! ### Cells that leave a buffer -/

@[simp] theorem State.freeHeld_regs (s : State) (c : Cell) : (s.freeHeld c).regs = s.regs := by
  unfold State.freeHeld
  split <;> rfl
@[simp] theorem State.freeHeld_units (s : State) (c : Cell) : (s.freeHeld c).units = s.units := by
  unfold State.freeHeld
  split <;> rfl
@[simp] theorem State.freeHeld_host (s : State) (c : Cell) : (s.freeHeld c).host = s.host := by
  unfold State.freeHeld
  split <;> rfl

theorem State.freeReady_regs (s : State) (p : Nat) : (s.freeReady p).regs = s.regs :=
  State.each_keeps (fun t => t.regs = s.regs) _ (fun c t kept => (t.freeHeld_regs c).trans kept) s _ rfl
theorem State.freeReady_units (s : State) (p : Nat) : (s.freeReady p).units = s.units :=
  State.each_keeps (fun t => t.units = s.units) _ (fun c t kept => (t.freeHeld_units c).trans kept) s _ rfl
theorem State.dropHeld_regs (s : State) (p : Nat) : (s.dropHeld p).regs = s.regs :=
  State.each_keeps (fun t => t.regs = s.regs) _ (fun q t kept => (t.modWl_regs q _).trans kept) s _ rfl
theorem State.dropHeld_units (s : State) (p : Nat) : (s.dropHeld p).units = s.units :=
  State.each_keeps (fun t => t.units = s.units) _ (fun q t kept => (t.modWl_units q _).trans kept) s _ rfl

/-! ### A port goes down -/

/-- The registers of a port that its way to DOWN from UP writes itself. -/
def downRegs (p : Nat) : List Fld := [Reg.WLP_STATUS_STATE p, Reg.WLP_STATUS_DOWN_SEEN p, Reg.WLP_PEER_VALID p, Reg.WLP_PEER_DEVNUM p]

/-- The port as it stands DOWN: no peer, no cell, no key. -/
def State.downPort (s : State) (p : Nat) : State :=
  ((((((s.freeReady p).dropHeld p).put (Reg.WLP_STATUS_STATE p) wlDown).set (Reg.WLP_STATUS_DOWN_SEEN p)).put (Reg.WLP_PEER_VALID p) 0).put
    (Reg.WLP_PEER_DEVNUM p) 0).modWl p fun _ =>
      { tx := (s.wlp p).tx, rx := (s.wlp p).rx.map fun e => (e.1, e.2.map fun f => { f with part := none }) }

/-- What a port that leaves UP does after it is DOWN: its messages, candidates and commands, and its event. -/
structure Parted (s t : State) : Prop where
  regs : WritesOnly anyCandidateRegs s t
  wlp : ∀ q, t.wlp q = s.wlp q
  units : t.units = s.units

theorem Parted.refl (s : State) : Parted s s := ⟨.refl, fun _ => rfl, rfl⟩

theorem Parted.trans {u : State} (a : Parted s t) (b : Parted t u) : Parted s u :=
  ⟨a.regs.trans b.regs, fun q => (b.wlp q).trans (a.wlp q), b.units.trans a.units⟩

theorem Parted.each {α : Type} {xs : List α} {f : α → State → State} (h : ∀ x t, Parted t (f x t)) : Parted s (s.each xs f) :=
  State.each_keeps (Parted s) f (fun x t kept => kept.trans (h x t)) s xs (.refl s)

theorem Parted.ite {c : Prop} [Decidable c] {u : State} (a : Parted s t) (b : Parted s u) : Parted s (if c then t else u) := by
  split
  · exact a
  · exact b

theorem Parted.answerWait (s : State) (op tag dev : Nat) (st : Status) : Parted s (s.answerWait op tag dev st) :=
  ⟨.of_regs (State.answerWait_regs ..), State.wlp_answerWait s op tag dev st, State.answerWait_units ..⟩

theorem Parted.dropWlTime (s : State) (p : Nat) : Parted s (s.dropWlTime p) :=
  have shows := ShowsOnly.dropWlTime s p
  ⟨shows.regs, shows.wlp, shows.units⟩

theorem Parted.postNow (s : State) (c : EvClass) (v : Option Nat) (k : Nat) (b : List Nat) : Parted s (s.postNow c v k b) :=
  ⟨.host (SameButHost.postNow s c v k b), fun q => State.wlp_postNow s c v k b q, State.postNow_units ..⟩

theorem State.wlLeaveUp_parted {p : Nat} (up : s.wlUp p = true) : Parted (s.downPort p) (s.wlLeaveUp p) := by
  unfold State.wlLeaveUp
  rw [if_pos up]
  refine .trans ?_ (.postNow ..)
  refine .trans ?_ (.each fun w t => .each fun d u => .answerWait ..)
  refine .trans ?_ (.dropWlTime ..)
  exact .ite ⟨.of_regs rfl, fun _ => rfl, rfl⟩ (.refl _)

theorem State.downPort_shows (s : State) (p : Fin 4) : let t := s.downPort p
    t.get (Reg.WLP_STATUS_STATE p) = 0 ∧ t.bit (Reg.WLP_PEER_VALID p) = false ∧ t.get (Reg.WLP_PEER_DEVNUM p) = 0 ∧
      t.bit (Reg.WLP_STATUS_DOWN_SEEN p) = true := by
  refine ⟨?_, ?_, ?_, ?_⟩
  · simp (disch := decide +revert) only [State.downPort, State.get_modWl, State.get_put_ne, State.set]
    exact State.get_put_same ..
  · simp (disch := decide +revert) only [State.downPort, State.bit_modWl, State.bit_put_ne]
    exact State.bit_put_same _ rfl 0
  · exact State.get_put_same _ (Reg.WLP_PEER_DEVNUM p) 0
  · simp (disch := decide +revert) only [State.downPort, State.bit_modWl, State.bit_put_ne]
    exact State.bit_set_same _ rfl

theorem State.downPort_units (s : State) (p : Nat) : (s.downPort p).units = s.units :=
  ((s.freeReady p).dropHeld_units p).trans (s.freeReady_units p)

/-- The registers of a port that bring-up shows are none of a media PLL. -/
theorem portRegs_apart (p : Fin 4) : ∀ f ∈ [Reg.WLP_STATUS_STATE p, Reg.WLP_STATUS_DOWN_SEEN p, Reg.WLP_PEER_VALID p,
    Reg.WLP_PEER_DEVNUM p, Reg.WLP_STATUS_MOD_OK p, Reg.WLP_STATUS_MOD_PRESENT p], f.FreeOf anyCandidateRegs := by
  decide +revert

/-- R527: a port that leaves UP is DOWN without a peer, a cell or a key; its transmit flows stay. -/
theorem State.wlLeaveUp_shows (p : Fin 4) (up : s.wlUp p = true) : let t := s.wlLeaveUp p
    t.get (Reg.WLP_STATUS_STATE p) = 0 ∧ t.bit (Reg.WLP_PEER_VALID p) = false ∧ t.get (Reg.WLP_PEER_DEVNUM p) = 0 ∧
      t.bit (Reg.WLP_STATUS_DOWN_SEEN p) = true ∧ t.wlp p = (s.downPort p).wlp p ∧ t.units = s.units := by
  have ⟨regs, wlp, units⟩ := State.wlLeaveUp_parted up
  have ⟨state, valid, peer, seen⟩ := s.downPort_shows p
  have apart := portRegs_apart p
  exact ⟨(regs _ (apart _ (by simp))).trans state, (regs.bit (apart _ (by simp))).trans valid, (regs _ (apart _ (by simp))).trans peer,
    (regs.bit (apart _ (by simp))).trans seen, wlp p, units.trans (s.downPort_units p)⟩

theorem State.wlToDown_state (s : State) (p : Fin 4) : (s.wlToDown p).get (Reg.WLP_STATUS_STATE p) = 0 := by
  unfold State.wlToDown
  split
  · assumption
  · exact ((SameButHost.postNow ..).get _ (portRegs_apart p _ (by simp)).1 (portRegs_apart p _ (by simp)).2.1).trans
      (State.get_put_same _ (Reg.WLP_STATUS_STATE p) 0)

theorem State.wlLeaveUp_state (s : State) (p : Fin 4) : (s.wlLeaveUp p).get (Reg.WLP_STATUS_STATE p) = 0 := by
  by_cases up : s.wlUp p = true
  · exact (State.wlLeaveUp_shows p up).1
  · rw [State.wlLeaveUp, if_neg up]
    exact s.wlToDown_state p

end Sys2Proof.Machine
end

