-- ==== Sys2Proof/Proofs/WamundBringUp.lean ====
section
/-! PROOF. A Wamund port trains, aligns, authenticates, comes up and falls back to DOWN (R525–R527, R536, R537, R558, R562). -/

namespace Sys2Proof.Machine

variable {s t : State} {p : Fin 4}

/-! ### The registers of a port through one operation -/

theorem State.wlUp_iff (s : State) (p : Nat) : s.wlUp p = true ↔ s.get (Reg.WLP_STATUS_STATE p) = 4 := by simp [State.wlUp]

theorem State.wlToDown_units (s : State) (p : Nat) : (s.wlToDown p).units = s.units := by
  unfold State.wlToDown
  split
  · rfl
  · simp

theorem State.wlBringUp_units (s : State) (p : Nat) : (s.wlBringUp p).units = s.units := by
  unfold State.wlBringUp
  split
  · simp
  · rfl

theorem State.wlLeaveUp_units (s : State) (p : Nat) : (s.wlLeaveUp p).units = s.units := by
  by_cases up : s.wlUp p = true
  · exact (State.wlLeaveUp_parted up).units.trans (s.downPort_units p)
  · rw [State.wlLeaveUp, if_neg up]
    exact s.wlToDown_units p

/-- What a port with EN and an accepted module shows once it trains. -/
theorem State.wlBringUp_of_fit (down : s.get (Reg.WLP_STATUS_STATE p) = 0) (en : s.bit (Reg.WLP_CTL_EN p) = true)
    (ok : s.bit (Reg.WLP_STATUS_MOD_OK p) = true) : s.wlBringUp p = s.put (Reg.WLP_STATUS_STATE p) 1 := by
  rw [State.wlBringUp, if_pos ⟨down, en, ok⟩]
  rfl

/-- The registers of a port that show its module and its enable. -/
def moduleRegs (p : Nat) : List Fld := [Reg.WLP_CTL_EN p, Reg.WLP_STATUS_MOD_OK p, Reg.WLP_STATUS_MOD_PRESENT p]

theorem moduleRegs_free (p : Fin 4) : ∀ f ∈ moduleRegs p, f.FreeOf (downRegs p ++ anyCandidateRegs) := by decide +revert

theorem WritesOnly.wlToDown (s : State) (p : Nat) : WritesOnly (downRegs p ++ anyCandidateRegs) s (s.wlToDown p) :=
  .ite .refl ((WritesOnly.put (by simp [downRegs]) wlDown).trans (.host (SameButHost.postNow ..)))

theorem WritesOnly.downPort (s : State) (p : Nat) : WritesOnly (downRegs p) s (s.downPort p) := by
  have cells : WritesOnly (downRegs p) s ((s.freeReady p).dropHeld p) :=
    .of_regs (((s.freeReady p).dropHeld_regs p).trans (s.freeReady_regs p))
  exact ((((cells.trans (.put (by simp [downRegs]) wlDown)).trans (.put (by simp [downRegs]) 1)).trans
    (.put (by simp [downRegs]) 0)).trans (.put (by simp [downRegs]) 0)).trans (.of_regs rfl)

theorem WritesOnly.wlLeaveUp (s : State) (p : Nat) : WritesOnly (downRegs p ++ anyCandidateRegs) s (s.wlLeaveUp p) := by
  by_cases up : s.wlUp p = true
  · exact (WritesOnly.mono (List.subset_append_left ..) (.downPort s p)).trans
      (.mono (List.subset_append_right ..) (State.wlLeaveUp_parted up).regs)
  · rw [State.wlLeaveUp, if_neg up]
    exact .wlToDown s p

/-! ### A module is read (R525) -/

theorem State.showMir_units (s : State) : s.showMir.units = s.units :=
  State.each_keeps (fun t => t.units = s.units) _ (fun _ t kept => (t.put_units _ _).trans kept) s _ rfl

theorem State.judge_units (s : State) (slot : Nat) (r : ModuleRead) : (s.judge slot r).units = s.units := by
  unfold State.judge
  rw [State.post_units, State.showMir_units]
  rfl

theorem State.unseat_units (s : State) (slot : Nat) : (s.unseat slot).units = s.units := by
  unfold State.unseat
  rw [State.postNow_units, State.showMir_units]
  rfl

theorem State.unseatShown_units (s : State) (slot : Nat) (shown : Bool) : (if shown then s.unseat slot else s).units = s.units := by
  cases shown
  · rfl
  · exact s.unseat_units slot

theorem WritesOnly.wlBringUp (s : State) (p : Nat) : WritesOnly (downRegs p ++ anyCandidateRegs) s (s.wlBringUp p) :=
  .ite (.put (by simp [downRegs]) wlTrain) .refl

/-- Bring-up and the way down leave what shows the module, and the units. -/
theorem State.bringOrLeave_shows (s : State) (p : Fin 4) (ok : Bool) {f : Fld} (shows : f ∈ moduleRegs p) :
    let t := if ok then s.wlBringUp p else s.wlLeaveUp p
    t.bit f = s.bit f ∧ t.units = s.units := by
  cases ok
  · exact ⟨(WritesOnly.wlLeaveUp s p).bit (moduleRegs_free p _ shows), s.wlLeaveUp_units p⟩
  · exact ⟨(WritesOnly.wlBringUp s p).bit (moduleRegs_free p _ shows), s.wlBringUp_units p⟩

theorem exec_wlModuleInsertion (p : Fin 4) (r : ModuleRead) (s : State) : ∃ t, exec (.wlModuleInsertion p r) s = .next t ∧
    t.units = s.units ∧ t.bit (Reg.WLP_STATUS_MOD_PRESENT p) = r.present ∧
    (r.present = false → t.bit (Reg.WLP_STATUS_MOD_OK p) = false ∧ t.get (Reg.WLP_STATUS_STATE p) = 0) := by
  show ∃ t, execWlModuleInsertion p r s = .next t ∧ _
  unfold execWlModuleInsertion
  have apart : (Reg.WLP_STATUS_MOD_PRESENT p).key ≠ (Reg.WLP_STATUS_MOD_OK p).key := by decide +revert
  cases present : r.present with
  | true =>
    refine ⟨_, rfl, ?_, ?_, nofun⟩
    · exact (State.bringOrLeave_shows _ p _ (List.mem_cons_self ..)).2.trans (s.judge_units _ r)
    · refine (State.bringOrLeave_shows _ p _ (by simp [moduleRegs])).1.trans ?_
      exact (State.bit_put_ne _ apart _).trans (State.bit_set_same _ rfl)
  | false =>
    refine ⟨_, rfl, ?_, ?_, fun _ => ⟨?_, State.wlLeaveUp_state _ p⟩⟩
    · exact (State.wlLeaveUp_units _ p).trans (s.unseatShown_units ..)
    · refine ((WritesOnly.wlLeaveUp _ p).bit (moduleRegs_free p _ (by simp [moduleRegs]))).trans ?_
      exact (State.bit_put_ne _ apart _).trans (State.bit_put_same _ rfl 0)
    · refine ((WritesOnly.wlLeaveUp _ p).bit (moduleRegs_free p _ (by simp [moduleRegs]))).trans ?_
      exact State.bit_put_same _ rfl 0

/-! ### Bring-up (R526) -/

theorem State.wlAdvance_of {p a : Nat} (at_ : s.get (Reg.WLP_STATUS_STATE p) = a) (b : Nat) :
    s.wlAdvance p a b = s.put (Reg.WLP_STATUS_STATE p) b := by rw [State.wlAdvance, if_pos at_]

theorem State.wlAdvance_other {p a : Nat} (other : s.get (Reg.WLP_STATUS_STATE p) ≠ a) (b : Nat) : s.wlAdvance p a b = s := by
  rw [State.wlAdvance, if_neg other]

theorem exec_wlStateTimeout (rising : s.get (Reg.WLP_STATUS_STATE p) ∈ [1, 2, 3]) : exec (.wlStateTimeout p) s = .next
    ((s.put (Reg.WLP_STATUS_STATE p) 0).postNow .net (some 43) 0x0110 [p, 0, 0]) := by
  show execWlStateTimeout p s = _
  simp only [List.mem_cons, List.not_mem_nil, or_false] at rising
  have up : s.get (Reg.WLP_STATUS_STATE p) ≠ wlDown := by unfold wlDown; omega
  simp only [execWlStateTimeout, wlTrain, wlAlign, wlAuth, if_pos rising, State.wlToDown, if_neg up]
  rfl

theorem exec_wlRestartTimer (en : s.bit (Reg.WLP_CTL_EN p) = true) (ok : s.bit (Reg.WLP_STATUS_MOD_OK p) = true)
    (stopped : s.get (Reg.WLP_STATUS_STATE p) = 0 ∨ s.get (Reg.WLP_STATUS_STATE p) = 5) : ∃ t, exec (.wlRestartTimer p) s = .next t ∧
      t.get (Reg.WLP_STATUS_STATE p) = 1 ∧ t.wl = s.wl ∧ t.units = s.units := by
  have trains (u : State) : (u.put (Reg.WLP_STATUS_STATE p) 1).get (Reg.WLP_STATUS_STATE p) = 1 := State.get_put_same ..
  rcases stopped with down | refused
  · refine ⟨s.put (Reg.WLP_STATUS_STATE p) 1, ?_, trains s, rfl, rfl⟩
    show execWlRestartTimer p s = _
    rw [execWlRestartTimer, down, if_neg (by decide), State.wlBringUp_of_fit down en ok]
  · have free := moduleRegs_free p
    have shown {f : Fld} (shows : f ∈ moduleRegs p) := (WritesOnly.wlToDown s p).bit (free f shows)
    refine ⟨(s.wlToDown p).put (Reg.WLP_STATUS_STATE p) 1, ?_, trains _, ?_, s.wlToDown_units p⟩
    · show execWlRestartTimer p s = _
      rw [execWlRestartTimer, wlRefused, if_pos refused, State.wlBringUp_of_fit (s.wlToDown_state p)]
      · exact (shown (by simp [moduleRegs])).trans en
      · exact (shown (by simp [moduleRegs])).trans ok
    · rw [State.put_wl, State.wlToDown, refused, if_neg (by decide), State.postNow_wl, State.put_wl]

theorem exec_wlRetrain (en : s.bit (Reg.WLP_CTL_EN p) = true) (ok : s.bit (Reg.WLP_STATUS_MOD_OK p) = true)
    (host : s.hostUp = true) : ∃ t, exec (.wlRetrain p) s = .next t ∧ t.get (Reg.WLP_STATUS_STATE p) = 1 ∧ t.units = s.units := by
  refine ⟨(s.wlLeaveUp p).put (Reg.WLP_STATUS_STATE p) wlTrain, ?_, State.get_put_same .., s.wlLeaveUp_units p⟩
  show execWlRetrain p s = _
  rw [execWlRetrain, State.ifHost, if_pos host, en, ok]
  rfl

theorem exec_wlPortDown (up : s.wlUp p = true) : exec (.wlPortDown p) s = .next (s.wlLeaveUp p) := by
  show execWlPortDown p s = _
  rw [execWlPortDown, if_pos up]

theorem State.wlp_downPort (s : State) (p : Nat) : ((s.downPort p).wlp p).unacked = [] ∧ ((s.downPort p).wlp p).ready = [] ∧
    ((s.downPort p).wlp p).txKey = none ∧ ((s.downPort p).wlp p).rxKey = none ∧ ((s.downPort p).wlp p).tx = (s.wlp p).tx := by
  simp [State.downPort]

/-! ### Authentication (R536, R537) -/

/-- The record of a port that authentication has brought UP: fresh credits, and the keys of the link. -/
def WlPort.fresh (x : WlPort) (keys : WlKey × WlKey) : WlPort :=
  { tx := x.tx, rx := x.rx, txSeq := 1, rxSeq := 1, credits := vcCredits, txKey := some keys.1, rxKey := some keys.2 }

def State.authPort (s : State) (p peer : Nat) : State :=
  { s.modWl p fun _ => (s.wlp p).fresh (s.linkKeys peer) with ctr := s.ctr + 10 }

theorem State.wlp_authPort (s : State) (p peer : Nat) : (s.authPort p peer).wlp p = (s.wlp p).fresh (s.linkKeys peer) :=
  s.wlp_modWl_same p _

theorem exec_wlAuthDone_accepted {r : AuthResult} (auth : s.get (Reg.WLP_STATUS_STATE p) = 3) (accepts : s.authReason r = none) :
    exec (.wlAuthDone p r) s = .next (((((s.authPort p r.peer).put (Reg.WLP_STATUS_STATE p) 4).put (Reg.WLP_PEER_DEVNUM p) r.peer).set
      (Reg.WLP_PEER_VALID p)).postNow .net (some 43) 0x0110 [p, 1, r.peer]) := by
  show execWlAuthDone p r s = _
  simp only [execWlAuthDone, auth, accepts]
  rfl

theorem exec_wlAuthDone_refused {r : AuthResult} {k : Nat} (auth : s.get (Reg.WLP_STATUS_STATE p) = 3)
    (refuses : s.authReason r = some k) : exec (.wlAuthDone p r) s = .next
      (((s.put (Reg.WLP_STATUS_STATE p) 5).put (Reg.WLP_STATUS_AUTH_FAIL p) 1).postNow .net (some 43) 0x0111 [p, k]) := by
  show execWlAuthDone p r s = _
  simp only [execWlAuthDone, auth, refuses]
  rfl

theorem exec_wlAuthDone_other {r : AuthResult} (other : s.get (Reg.WLP_STATUS_STATE p) ≠ 3) : exec (.wlAuthDone p r) s = .next s := by
  show execWlAuthDone p r s = _
  rw [execWlAuthDone, wlAuth, if_pos other]

/-- The registers of a port that comes UP with a peer. -/
def State.showPeer (s : State) (p dev : Nat) : State :=
  ((s.put (Reg.WLP_STATUS_STATE p) 4).put (Reg.WLP_PEER_DEVNUM p) dev).set (Reg.WLP_PEER_VALID p)

theorem State.showPeer_shows (s : State) (p : Fin 4) {dev : Nat} (number : dev < 2 ^ 16) : let t := s.showPeer p dev
    t.get (Reg.WLP_STATUS_STATE p) = 4 ∧ t.get (Reg.WLP_PEER_DEVNUM p) = dev ∧ t.bit (Reg.WLP_PEER_VALID p) = true := by
  refine ⟨?_, ?_, State.bit_set_same _ rfl⟩
  · simp (disch := decide +revert) only [State.showPeer, State.set, State.get_put_ne]
    exact State.get_put_same _ (Reg.WLP_STATUS_STATE p) 4
  · simp (disch := decide +revert) only [State.showPeer, State.set, State.get_put_ne]
    exact State.get_put_lt _ (Reg.WLP_PEER_DEVNUM p) _ number

theorem exec_wlAuthDone_shows {r : AuthResult} (auth : s.get (Reg.WLP_STATUS_STATE p) = 3) (accepts : s.authReason r = none)
    (peer : r.peer < 2 ^ 16) : ∃ t, exec (.wlAuthDone p r) s = .next t ∧
      t.get (Reg.WLP_STATUS_STATE p) = 4 ∧ t.get (Reg.WLP_PEER_DEVNUM p) = r.peer ∧ t.bit (Reg.WLP_PEER_VALID p) = true ∧
      t.wlp p = (s.authPort p r.peer).wlp p ∧ t.units = s.units := by
  have apart := portRegs_apart p
  have posts := WritesOnly.host (l := anyCandidateRegs)
    (SameButHost.postNow ((s.authPort p r.peer).showPeer p r.peer) .net (some 43) 0x0110 [p, 1, r.peer])
  obtain ⟨state, dev, valid⟩ := (s.authPort p r.peer).showPeer_shows p peer
  refine ⟨_, exec_wlAuthDone_accepted auth accepts, (posts _ (apart _ (by simp))).trans state, (posts _ (apart _ (by simp))).trans dev,
    (posts.bit (apart _ (by simp))).trans valid, ?_, ?_⟩
  · simp
  · simp [State.authPort]

end Sys2Proof.Machine

namespace Sys2Proof.Machine

/-- Settles O43: the way of a port through its states, one lemma per command. -/
theorem wamundBringUp : Obligations.WamundBringUp := by
  unfold Obligations.WamundBringUp
  refine ⟨fun p s => ⟨fun h => congrArg _ (State.wlAdvance_of h _), fun h => congrArg _ (State.wlAdvance_other h _),
    fun h => congrArg _ (State.wlAdvance_of h _), fun h => congrArg _ (State.wlAdvance_other h _), exec_wlStateTimeout,
    fun en ok => ⟨exec_wlRestartTimer en ok, exec_wlRetrain en ok⟩, fun up => ?_, fun down => ?_⟩,
    fun p r s => ⟨fun auth accepts peer => ?_, fun _ => exec_wlAuthDone_refused, exec_wlAuthDone_other⟩, exec_wlModuleInsertion⟩
  · have up := (s.wlUp_iff p).2 up
    obtain ⟨state, valid, peer, seen, wlp, units⟩ := State.wlLeaveUp_shows p up
    obtain ⟨unacked, ready, txKey, rxKey, tx⟩ := s.wlp_downPort p
    exact ⟨_, exec_wlPortDown up, state, valid, peer, seen, by rw [wlp, unacked], by rw [wlp, ready], by rw [wlp, txKey],
      by rw [wlp, rxKey], by rw [wlp, tx], units⟩
  · show execWlPortDown p s = _
    rw [execWlPortDown, if_neg (mt (s.wlUp_iff p).1 down)]
  · obtain ⟨t, run, state, dev, valid, wlp, units⟩ := exec_wlAuthDone_shows auth accepts peer
    rw [s.wlp_authPort] at wlp
    refine ⟨t, run, state, dev, valid, ?_, ?_, ?_, ?_, ?_, ?_, ?_, units⟩ <;> rw [wlp] <;> rfl

end Sys2Proof.Machine
end

