-- ==== Sys2Proof/Proofs/WamundCells.lean ====
section
/-! PROOF. Cells go out in class order, are accepted in sequence, relayed, replayed and timed (R531–R535, R539–R547, R551, R552,
R561). -/

namespace Sys2Proof.Machine

variable {s t : State} {p : Fin 4} {c : Cell}

/-! ### Transmitting (R531–R535) -/

/-- The nonce and the bytes of the cell sent are all that its count changes. -/
theorem WlPort.counted_keeps (x : WlPort) (again : Bool) : let y := x.counted again
    y.sent = x.sent ∧ y.unacked = x.unacked ∧ y.txSeq = x.txSeq ∧ y.ready = x.ready ∧ y.credits = x.credits := by
  unfold WlPort.counted
  split
  · dsimp only
    split <;> exact ⟨rfl, rfl, rfl, rfl, rfl⟩
  · exact ⟨rfl, rfl, rfl, rfl, rfl⟩

/-- A DATA cell under a link key takes its nonce from its extended SEQ. -/
theorem WlPort.counted_data {x : WlPort} {k : WlKey} (sent : x.sent = some c) (key : x.txKey = some k) (data : c.type = 2) :
    (x.counted false).txKey = some { k with data := k.data + 1 } ∧
      (x.counted false).txNonce = some (k.nonce false (extendedSeq (k.data + 1) c.seq)) := by
  simp [WlPort.counted, sent, key, data]

/-- The cell that a port sends for the first time. -/
def WlPort.first (x : WlPort) (c : Cell) : Cell := x.stamped { c with seq := x.txSeq, held := none }

/-- What a port records of a cell of class `v` that it sends for the first time, `rest` being left of its class. -/
def WlPort.sentOf (x : WlPort) (v : Nat) (c : Cell) (rest : List Cell) : WlPort :=
  let y := x.paid (x.first c)
  { y with ready := Tab.put [] y.ready v rest, credits := Tab.upd 0 y.credits v (· - 1), txSeq := (y.txSeq + 1) % 2 ^ 16,
           unacked := y.unacked ++ [x.first c], audioCells := y.audioCells + (if v = 2 then 1 else 0) }

theorem WlPort.send_of_next {x : WlPort} {v : Nat} {rest : List Cell} (still : x.replay = []) (next : x.nextVc = some v)
    (ready : Tab.get [] x.ready v = c :: rest) : x.send = (x.sentOf v c rest).counted false := by
  simp [WlPort.send, still, next, ready, WlPort.sentOf, WlPort.first]

theorem WlPort.taken_of_next {x : WlPort} {v : Nat} {rest : List Cell} (still : x.replay = []) (next : x.nextVc = some v)
    (ready : Tab.get [] x.ready v = c :: rest) : x.taken = some c := by
  simp [WlPort.taken, still, next, ready]

/-- What leaves the buffer of a port is all that it changes of one. -/
theorem State.wlp_freeHeld (s : State) (c : Cell) (q : Nat) : (s.freeHeld c).wlp q =
    if c.held = some q then { s.wlp q with creditOwed := Tab.upd 0 (s.wlp q).creditOwed c.vc (· + 1) } else s.wlp q := by
  unfold State.freeHeld
  cases held : c.held with
  | none => rfl
  | some r =>
    dsimp only
    rw [State.wlp_modWl]
    by_cases same : q = r
    · subst same; simp
    · simp [same, Ne.symm same]

theorem exec_wlCellTx {v : Nat} {rest : List Cell} (up : s.wlUp p = true) (still : (s.wlp p).replay = [])
    (next : (s.wlp p).nextVc = some v) (ready : Tab.get [] (s.wlp p).ready v = c :: rest) :
    exec (.wlCellTx p) s = .next ((s.modWl p WlPort.send).freeHeld c) := by
  show execWlCellTx p s = _
  rw [execWlCellTx, if_pos up, WlPort.taken_of_next still next ready]

/-- What a port shows of the cell it has sent, whether or not the cell stood in its own buffer. -/
theorem State.wlp_sent_shows {v : Nat} {rest : List Cell} (still : (s.wlp p).replay = []) (next : (s.wlp p).nextVc = some v)
    (ready : Tab.get [] (s.wlp p).ready v = c :: rest) :
    let x := s.wlp p
    let y := ((s.modWl p WlPort.send).freeHeld c).wlp p
    y.sent = some (x.first c) ∧ y.unacked = x.unacked ++ [x.first c] ∧ y.txSeq = (x.txSeq + 1) % 2 ^ 16 ∧
      Tab.get [] y.ready v = rest ∧ Tab.get 0 y.credits v = Tab.get 0 x.credits v - 1 ∧
      (∀ k, c.type = 2 → x.txKey = some k → y.txKey = some { k with data := k.data + 1 } ∧
        y.txNonce = some (k.nonce false (extendedSeq (k.data + 1) x.txSeq))) := by
  dsimp only
  rw [State.wlp_freeHeld, State.wlp_modWl_same, WlPort.send_of_next still next ready]
  obtain ⟨sent, unacked, seq, left, credits⟩ := ((s.wlp p).sentOf v c rest).counted_keeps false
  have shown (y : WlPort) (eq : y.sent = some ((s.wlp p).first c) ∧ y.unacked = ((s.wlp p).sentOf v c rest).unacked) := eq
  have record : ((s.wlp p).sentOf v c rest).sent = some ((s.wlp p).first c) := rfl
  refine ⟨?_, ?_, ?_, ?_, ?_, fun k data key => ?_⟩
  · split <;> exact sent
  · split <;> exact unacked
  · split <;> exact seq
  · have got : Tab.get [] ((s.wlp p).sentOf v c rest).ready v = rest := Tab.get_put_same [] _ v rest
    split <;> exact (congrArg (Tab.get [] · v) left).trans got
  · have got : Tab.get 0 ((s.wlp p).sentOf v c rest).credits v = Tab.get 0 (s.wlp p).credits v - 1 := by
      simp [WlPort.sentOf, Tab.get_upd, WlPort.paid]
    split <;> exact (congrArg (Tab.get 0 · v) credits).trans got
  · have count := WlPort.counted_data (x := (s.wlp p).sentOf v c rest) record key data
    split <;> exact count

theorem State.wlp_sent_other (s : State) (p : Fin 4) (c : Cell) {q : Nat} (other : q ≠ p) :
    (c.held = some q → Tab.get 0 (((s.modWl p WlPort.send).freeHeld c).wlp q).creditOwed c.vc =
      Tab.get 0 (s.wlp q).creditOwed c.vc + 1) ∧
    (c.held ≠ some q → ((s.modWl p WlPort.send).freeHeld c).wlp q = s.wlp q) := by
  rw [State.wlp_freeHeld, State.wlp_modWl_ne s other]
  exact ⟨fun held => by rw [if_pos held]; simp [Tab.get_upd], fun held => if_neg held⟩

/-! ### A received cell (R530–R532, R539–R544) -/

/-- The port after the check of a cell that is good. -/
def State.passed (s : State) (p : Nat) (c : Cell) : State :=
  (s.modWl p fun x => { x with tagFails := if c.tagOk then 0 else x.tagFails + 1 }).wlAcked p c

/-- The port after it has accepted the expected cell. -/
def State.accepted (s : State) (p : Nat) (c : Cell) : State :=
  (s.passed p c).modWl p fun x => { x.heard c with rxSeq := (x.rxSeq + 1) % 2 ^ 16, waiting := false }

/-- A DATA cell that arrives whole and without a NAK. -/
structure WholeCell (c : Cell) : Prop where
  reserved : c.reservedOk = true
  len : c.len ≤ 224
  bcast : c.bcast = false
  type : c.type = 2
  nak : c.nak = false

theorem exec_wlCellReceived_good {stamp : Nat} {free tail : Bool} (up : s.wlUp p = true) (whole : WholeCell c) (tag : c.tagOk = true) :
    exec (.wlCellReceived p c stamp free tail) s = .next (if c.seq ≠ (s.wlp p).rxSeq then (s.passed p c).wlMissed p free else
      (s.accepted p c).routeCell p c stamp tail) := by
  have ⟨reserved, len, bcast, type, nak⟩ := whole
  have seq : ((s.passed p c).wlp p).rxSeq = (s.wlp p).rxSeq := by simp [State.passed, State.wlAcked]
  have still : (s.passed p c).wlUp p = true := up
  show execWlCellReceived p c stamp free tail s = _
  simp [execWlCellReceived, up, tag, reserved, Nat.not_lt.2 len, bcast, type, nak]
  simp only [State.accepted, State.passed, tag, if_true] at seq still ⊢
  simp only [still, seq]
  by_cases expected : c.seq = (s.wlp p).rxSeq <;> simp [expected]

theorem exec_wlCellReceived_damaged {stamp : Nat} {free tail : Bool} (up : s.wlUp p = true) (whole : WholeCell c) (tag : c.tagOk = false)
    (few : (s.wlp p).tagFails < 15) : exec (.wlCellReceived p c stamp free tail) s = .next
      (((s.modWl p fun x => { x with tagFails := x.tagFails + 1 }).bump (Reg.WLP_ERR_CNT_COUNT p)).wlMissed p free) := by
  have ⟨reserved, len, bcast, type, nak⟩ := whole
  have fails : ¬16 ≤ (s.wlp p).tagFails + 1 := by omega
  show execWlCellReceived p c stamp free tail s = _
  simp [execWlCellReceived, up, tag, type, State.wlMissed, State.bump, State.bumpBy, fails]

theorem WlPort.heard_keeps (x : WlPort) (c : Cell) : (x.heard c).creditOwed = x.creditOwed ∧ (x.heard c).ready = x.ready := by
  unfold WlPort.heard
  split
  · exact ⟨rfl, rfl⟩
  · split <;> exact ⟨rfl, rfl⟩

theorem State.accepted_regs (s : State) (p : Nat) (c : Cell) : (s.accepted p c).regs = s.regs := by
  simp [State.accepted, State.passed, State.wlAcked]
theorem State.accepted_units (s : State) (p : Nat) (c : Cell) : (s.accepted p c).units = s.units := by
  simp [State.accepted, State.passed, State.wlAcked]
theorem State.accepted_routes (s : State) (p : Nat) (c : Cell) : (s.accepted p c).wl.route = s.wl.route := by
  simp [State.accepted, State.passed, State.wlAcked, State.modWl]
theorem State.accepted_unknown (s : State) (p : Nat) (c : Cell) : (s.accepted p c).wl.unknown = s.wl.unknown := by
  simp [State.accepted, State.passed, State.wlAcked, State.modWl]
theorem State.wlUp_accepted (s : State) (p : Nat) (c : Cell) (q : Nat) : (s.accepted p c).wlUp q = s.wlUp q := by
  simp [State.accepted, State.passed, State.wlAcked]
theorem State.route_accepted (s : State) (p : Nat) (c : Cell) (dev : Nat) : (s.accepted p c).route dev = s.route dev := by
  unfold State.route State.devnum
  rw [State.get_of_regs (s.accepted_regs p c), s.accepted_routes]

theorem State.wlp_accepted (s : State) (p : Fin 4) (c : Cell) : let y := (s.accepted p c).wlp p
    y.rxSeq = ((s.wlp p).rxSeq + 1) % 2 ^ 16 ∧ y.creditOwed = (s.wlp p).creditOwed := by
  refine ⟨?_, ?_⟩
  · simp [State.accepted, State.passed, State.wlAcked]
  · simp [State.accepted, State.passed, State.wlAcked, WlPort.heard_keeps]

theorem State.wlp_accepted_ne (s : State) {p q : Nat} (other : q ≠ p) (c : Cell) : (s.accepted p c).wlp q = s.wlp q := by
  simp [State.accepted, State.passed, State.wlAcked, State.wlp_modWl, other]

/-- R534, R542: a cell for a device on another UP port stands ready there, one hop further, and keeps its place in the buffer. -/
theorem exec_wlCellReceived_relays {stamp e : Nat} {free tail : Bool} (up : s.wlUp p = true) (whole : WholeCell c) (tag : c.tagOk = true)
    (expected : c.seq = (s.wlp p).rxSeq) (source : s.route c.src = p.val) (dest : s.route c.dst = e) (port : e < 4) (other : e ≠ p.val)
    (egress : s.wlUp e = true) (hops : c.hops < 16) : ∃ t, exec (.wlCellReceived p c stamp free tail) s = .next t ∧
      (t.wlp p).rxSeq = ((s.wlp p).rxSeq + 1) % 2 ^ 16 ∧
      Tab.get [] (t.wlp e).ready c.vc = Tab.get [] (s.wlp e).ready c.vc ++
        [{ c with hops := c.hops + 1, seq := 0, ack := 0, nak := false, credit := [0, 0, 0, 0], held := some p.val }] ∧
      (t.wlp p).creditOwed = (s.wlp p).creditOwed ∧ t.regs = s.regs ∧ t.units = s.units := by
  have away : ¬(c.payload != .finished && (s.accepted p c).route c.src != p) = true := by
    simp [State.route_accepted, source]
  have routed : (s.accepted p c).routeCell p c stamp tail = (s.accepted p c).relay p e { c with held := some p.val } := by
    simp only [State.routeCell, whole.bcast, Bool.false_eq_true, if_false, if_neg away]
    rw [State.route_accepted, dest, if_neg (by omega), if_neg (by omega), if_pos port]
  obtain ⟨seq, owed⟩ := s.wlp_accepted p c
  refine ⟨_, (exec_wlCellReceived_good up whole tag).trans (congrArg _ ((if_neg (not_not.2 expected)).trans routed)), ?_⟩
  rw [State.relay, State.wlUp_accepted, egress]
  simp only [Bool.not_true, Bool.false_eq_true, if_false, State.queueCell, State.wlp_modWl_ne _ (Ne.symm other)]
  refine ⟨seq, ?_, owed, s.accepted_regs p c, s.accepted_units p c⟩
  rw [State.wlp_modWl_same, s.wlp_accepted_ne other]
  simp [Tab.get_upd]

theorem State.wlp_takeUnknown (s : State) (src q : Nat) : (s.takeCtrl src .unknown).wlp q = s.wlp q := rfl

/-- A cell for this device whose message is of an unknown kind is counted and leaves the buffer. -/
theorem exec_wlCellReceived_unknown {stamp : Nat} {free tail : Bool} (up : s.wlUp p = true) (whole : WholeCell c) (tag : c.tagOk = true)
    (expected : c.seq = (s.wlp p).rxSeq) (source : s.route c.src = p.val) (here : s.route c.dst = 5) (unknown : c.payload = .unknown) :
    ∃ t, exec (.wlCellReceived p c stamp free tail) s = .next t ∧ t.wl.unknown = s.wl.unknown + 1 ∧
      (t.wlp p).rxSeq = ((s.wlp p).rxSeq + 1) % 2 ^ 16 ∧
      Tab.get 0 (t.wlp p).creditOwed c.vc = Tab.get 0 (s.wlp p).creditOwed c.vc + 1 ∧ t.regs = s.regs := by
  have away : ¬(c.payload != .finished && (s.accepted p c).route c.src != p) = true := by
    simp [State.route_accepted, source]
  have routed : (s.accepted p c).routeCell p c stamp tail =
      ((s.accepted p c).takeCtrl c.src .unknown).freeHeld { c with held := some p.val } := by
    simp only [State.routeCell, whole.bcast, Bool.false_eq_true, if_false, if_neg away]
    rw [State.route_accepted, here, if_pos rfl, State.deliver, unknown]
  obtain ⟨seq, owed⟩ := s.wlp_accepted p c
  refine ⟨_, (exec_wlCellReceived_good up whole tag).trans (congrArg _ ((if_neg (not_not.2 expected)).trans routed)), ?_, ?_, ?_, ?_⟩
  · rw [State.freeHeld, State.takeCtrl]
    exact congrArg (· + 1) (s.accepted_unknown p c)
  · rw [State.wlp_freeHeld, if_pos rfl]
    exact seq
  · rw [State.wlp_freeHeld, if_pos rfl]
    simpa [Tab.get_upd, owed] using congrArg (Tab.get 0 ·.creditOwed c.vc) ((s.accepted p c).wlp_takeUnknown c.src p)
  · rw [State.freeHeld_regs]
    exact s.accepted_regs p c

theorem exec_wlCellReceived_outOfOrder {stamp : Nat} {free tail : Bool} (up : s.wlUp p = true) (whole : WholeCell c) (tag : c.tagOk = true)
    (other : c.seq ≠ (s.wlp p).rxSeq) : ∃ t, exec (.wlCellReceived p c stamp free tail) s = .next t ∧
      (t.wlp p).rxSeq = (s.wlp p).rxSeq ∧ (t.wlp p).waiting = true ∧ t.regs = s.regs ∧ t.units = s.units := by
  refine ⟨_, (exec_wlCellReceived_good up whole tag).trans (congrArg _ (if_pos other)), ?_, ?_, ?_, ?_⟩
  · simp [State.wlMissed, State.passed, State.wlAcked]
  · simp [State.wlMissed]
  · simp [State.wlMissed, State.passed, State.wlAcked]
  · simp [State.wlMissed, State.passed, State.wlAcked]

/-! ### Replays, TIME cells and flows (R532, R545–R547, R551, R552, R561) -/

theorem State.wlReplay_again (s : State) {p : Nat} (cells : (s.wlp p).unacked ≠ []) (few : (s.wlp p).replays < 8) : s.wlReplay p =
    (s.modWl p fun y => { y with replay := y.unacked, replays := y.replays + 1 }).bump (Reg.WLP_REPLAY_CNT_COUNT p) := by
  simp [State.wlReplay, cells, Nat.not_le.2 few]

theorem State.wlReplay_down (s : State) {p : Nat} (cells : (s.wlp p).unacked ≠ []) (many : 8 ≤ (s.wlp p).replays) :
    s.wlReplay p = s.wlLeaveUp p := by
  simp [State.wlReplay, cells, many]

theorem exec_wlReplayTimeout (up : s.wlUp p = true) : exec (.wlReplayTimeout p) s = .next (s.wlReplay p) := by
  show execWlReplayTimeout p s = _
  rw [execWlReplayTimeout, if_pos up]

theorem exec_wlTimeLoss (p : Fin 4) (s : State) : exec (.wlTimeLoss p) s =
    .next ((s.dropWlTime p).modWl p fun x => { x with peerTime := none }) := rfl

/-- The cell with the TIME message of a port (R545). -/
def State.timeMessage (s : State) (p mark gm : Nat) : Cell :=
  { vc := 0, dst := s.get (Reg.WLP_PEER_DEVNUM p), src := s.devnum, len := 72, payload := .time (s.timeCell p mark gm) }

theorem exec_wlTimeCellTx (up : s.wlUp p = true) (stamp mark gm : Nat) : exec (.wlTimeCellTx p stamp mark gm) s =
    .next ((s.queueCell p (s.timeMessage p mark gm)).modWl p fun x => { x with tseq := (x.tseq + 1) % 2 ^ 32, prevTx := stamp }) := by
  show execWlTimeCellTx p stamp mark gm s = _
  rw [execWlTimeCellTx, if_pos up]
  rfl

/-! ### Bundles -/

/-- A bundle begins with an AUDIO cell, and either ends there or goes on. -/
theorem bundleCells_succ (h : BundleHdr) (n : Nat) (first : Bool) (l : List Word) : ∃ c : Cell, c.vc = 2 ∧
    (bundleCells h (n + 1) first l = [c] ∨ ∃ rest, bundleCells h (n + 1) first l = c :: bundleCells h n false rest) := by
  rw [bundleCells]
  refine ⟨{ vc := 2, first := first, last := (l.drop (if first then 48 else 56)).isEmpty,
            len := (if first then 32 else 0) + 4 * (l.take (if first then 48 else 56)).length,
            payload := .audio (if first then some h else none) (l.take (if first then 48 else 56)) }, rfl, ?_⟩
  by_cases done : (l.drop (if first then 48 else 56)).isEmpty = true
  · exact .inl (if_pos done)
  · exact .inr ⟨_, if_neg done⟩

theorem bundleCells_vc (h : BundleHdr) (n : Nat) (first : Bool) (l : List Word) : ∀ c ∈ bundleCells h n first l, c.vc = 2 := by
  induction n generalizing first l with
  | zero => simp [bundleCells]
  | succ n ih =>
    obtain ⟨c, class_, eq | ⟨rest, eq⟩⟩ := bundleCells_succ h n first l
    · rw [eq]
      exact List.forall_mem_singleton.2 class_
    · rw [eq]
      exact List.forall_mem_cons.2 ⟨class_, ih false rest⟩

theorem bundleCells_ne_nil (h : BundleHdr) (n : Nat) (first : Bool) (l : List Word) : bundleCells h (n + 1) first l ≠ [] := by
  obtain ⟨c, -, eq | ⟨rest, eq⟩⟩ := bundleCells_succ h n first l <;> simp [eq]

/-- Cells of one class queued on a port stand behind those ready there. -/
theorem State.queueCells_shows (s : State) (q vc : Nat) (cells : List Cell) (class_ : ∀ c ∈ cells, c.vc = vc) :
    let t := s.each cells fun c u => u.queueCell q c
    Tab.get [] (t.wlp q).ready vc = Tab.get [] (s.wlp q).ready vc ++ cells ∧ t.units = s.units ∧ t.regs = s.regs ∧
      ∀ r, (t.wlp r).tx = (s.wlp r).tx := by
  induction cells generalizing s with
  | nil => exact ⟨(List.append_nil _).symm, rfl, rfl, fun _ => rfl⟩
  | cons c l ih =>
    obtain ⟨ready, units, regs, tx⟩ := ih (s.queueCell q c) fun d mem => class_ d (List.mem_cons_of_mem _ mem)
    refine ⟨ready.trans ?_, units, regs, fun r => (tx r).trans ?_⟩
    · rw [State.queueCell, State.wlp_modWl_same, class_ c (List.mem_cons_self ..)]
      simp [Tab.get_upd]
    · rw [State.queueCell, State.wlp_modWl]
      split
      · next same => rw [same]
      · rfl

/-! ### The count of a port's AUDIO cells (R551) -/

/-- The registers that the count of the AUDIO cells of a port writes. -/
def audioRegs : List Fld := (List.range 4).flatMap fun p => [Reg.WLP_AUDIO_LAST_CELLS p, Reg.WLP_STATUS_AUDIO_OVER p]

theorem WritesOnly.countAudio (s : State) {p : Nat} (port : p < 4) : WritesOnly audioRegs s (s.countAudio p) := by
  have mem {f : Fld} (own : f ∈ [Reg.WLP_AUDIO_LAST_CELLS p, Reg.WLP_STATUS_AUDIO_OVER p]) : f ∈ audioRegs :=
    List.mem_flatMap.2 ⟨p, List.mem_range.2 port, own⟩
  have shown : WritesOnly audioRegs s
      ((s.put (Reg.WLP_AUDIO_LAST_CELLS p) (s.wlp p).audioCells).modWl p fun x => { x with audioCells := 0 }) :=
    (WritesOnly.put (mem (by simp)) _).trans (.of_regs rfl)
  exact .ite ((shown.trans (.put (mem (by simp)) 1)).trans (.host (SameButHost.postNow ..))) shown

theorem State.countAudio_keeps (s : State) (p : Nat) : (s.countAudio p).units = s.units ∧
    ∀ q, ((s.countAudio p).wlp q).ready = (s.wlp q).ready ∧ ((s.countAudio p).wlp q).tx = (s.wlp q).tx := by
  have same (u : State) (q : Nat) : ((u.modWl p fun x => { x with audioCells := 0 }).wlp q).ready = (u.wlp q).ready ∧
      ((u.modWl p fun x => { x with audioCells := 0 }).wlp q).tx = (u.wlp q).tx := by
    rw [State.wlp_modWl]
    split
    · next own => exact own ▸ ⟨rfl, rfl⟩
    · exact ⟨rfl, rfl⟩
  unfold State.countAudio
  dsimp only
  split
  · exact ⟨by simp, fun q => by simpa using same (s.put (Reg.WLP_AUDIO_LAST_CELLS p) (s.wlp p).audioCells) q⟩
  · exact ⟨rfl, same _⟩

/-- What the sending of bundles reads is the same after the counts. -/
structure SameFlows (s t : State) : Prop where
  units : t.units = s.units
  ready : ∀ q, (t.wlp q).ready = (s.wlp q).ready
  tx : ∀ q, (t.wlp q).tx = (s.wlp q).tx
  regs : WritesOnly audioRegs s t

theorem SameFlows.refl (s : State) : SameFlows s s := ⟨rfl, fun _ => rfl, fun _ => rfl, .refl⟩

theorem SameFlows.countAudios (s : State) : SameFlows s (s.each (List.range 4) fun p t => t.countAudio p) :=
  State.each_keeps_mem (SameFlows s) _ s _ (fun p mem t ⟨units, ready, tx, regs⟩ =>
    have ⟨units', wlp'⟩ := t.countAudio_keeps p
    ⟨units'.trans units, fun q => (wlp' q).1.trans (ready q), fun q => (wlp' q).2.trans (tx q),
      regs.trans (.countAudio t (List.mem_range.1 mem))⟩) (.refl s)

theorem SameFlows.wlUp (h : SameFlows s t) (p : Fin 4) : t.wlUp p = s.wlUp p := by
  unfold State.wlUp
  rw [h.regs _ (by decide +revert)]

theorem SameFlows.devnum (h : SameFlows s t) : t.devnum = s.devnum := h.regs _ (by decide)

/-! ### The bundles of a domain (R552) -/

/-- A pass over a list in which only one element acts. -/
theorem State.each_one {α : Type} {f : α → State → State} {I : State → Prop} {x : α} {l : List α} (nodup : l.Nodup)
    (mem : x ∈ l)
    (idle : ∀ y ∈ l, y ≠ x → ∀ t, I t → f y t = t) (before : I s) (after : I (f x s)) : s.each l f = f x s := by
  induction l with
  | nil => cases mem
  | cons y l ih =>
    obtain ⟨fresh, nodup⟩ := List.nodup_cons.1 nodup
    show (f y s).each l f = f x s
    by_cases same : y = x
    · subst same
      exact State.each_eq_self fun z mem => idle z (List.mem_cons_of_mem _ mem) (fun eq => fresh (eq ▸ mem)) _ after
    · rw [idle y (List.mem_cons_self ..) same s before]
      exact ih nodup (List.mem_of_ne_of_mem (Ne.symm same) mem) fun z mem => idle z (List.mem_cons_of_mem _ mem)

/-- The cells of a flow for one peer, as they are queued. -/
def State.flowBundle (s : State) (r : FlowRec) : List Cell :=
  let d := s.dom r.domain
  let ws := ((flowAddrs r).map fun a => (List.range d.block).map fun k => s.emitted r.domain a (d.si + k)).flatten
  (bundleCells { flow := r.flow, channels := r.channels, block := d.block, si := d.si, rate := d.rate } (ws.length + 1) true ws).map
    fun c => { c with bcast := false, dst := r.peer, src := s.devnum }

theorem State.sendBundle_peer {r : FlowRec} {p : Nat} (port : r.port = p) (peer : r.bcast = false) (up : s.wlUp p = true) :
    s.sendBundle r = s.each (s.flowBundle r) fun c u => u.queueCell p c := by
  simp [State.sendBundle, State.flowBundle, peer, port, up, State.each, List.foldl_map]

theorem State.flowBundle_spec (s : State) (r : FlowRec) : s.flowBundle r ≠ [] ∧
    ∀ c ∈ s.flowBundle r, c.vc = 2 ∧ c.dst = r.peer ∧ c.src = s.devnum := by
  refine ⟨?_, fun c mem => ?_⟩
  · exact mt List.map_eq_nil_iff.1 (bundleCells_ne_nil _ _ _ _)
  · obtain ⟨d, own, rfl⟩ := List.mem_map.1 mem
    exact ⟨bundleCells_vc _ _ _ _ d own, rfl, rfl⟩

/-- The state in which a domain's bundles are queued: at the emission of a block of P the AUDIO cells have been counted. -/
def State.counted (s : State) (d : Fin 3) : State := if d.val = 0 then s.each (List.range 4) fun p t => t.countAudio p else s

theorem SameFlows.counted (s : State) (d : Fin 3) : SameFlows s (s.counted d) := by
  unfold State.counted
  split
  · exact .countAudios s
  · exact .refl s

/-- The only flow of an UP port is all that the bundles of its domain queue. -/
theorem exec_wlBundleTx {d : Fin 3} {p : Nat} {r : FlowRec} (port : p < 4) (up : s.wlUp p = true) (only : (s.wlp p).tx = [(r.flow, some r)])
    (own : r.port = p) (peer : r.bcast = false) (domain : r.domain = d.val) (none : ∀ q < 4, q ≠ p → (s.wlp q).tx = [])
    (aligned : (s.get Reg.TIME_STATUS_ALIGNED).testBit d = true) (sends : s.sending d = true) :
    exec (.wlBundleTx d) s = .next ((s.counted d).each ((s.counted d).flowBundle r) fun c u => u.queueCell p c) := by
  have same := SameFlows.counted s d
  have up' : (s.counted d).wlUp p = true := (same.wlUp ⟨p, port⟩).trans up
  have class_ c (mem : c ∈ (s.counted d).flowBundle r) := ((s.counted d).flowBundle_spec r).2 c mem |>.1
  obtain ⟨-, -, -, tx⟩ := (s.counted d).queueCells_shows p 2 _ class_
  have acts : (if (s.counted d).wlUp p then ((s.counted d).each ((((s.counted d).wlp p).tx.filterMap (·.2)).filter
      fun r => r.domain == d.val) fun r u => u.sendBundle r) else s.counted d) =
      (s.counted d).each ((s.counted d).flowBundle r) fun c u => u.queueCell p c := by
    rw [if_pos up', same.tx p, only, ← State.sendBundle_peer own peer up']
    simp [domain, State.each]
  show execWlBundleTx d s = _
  rw [execWlBundleTx, aligned, sends]
  refine congrArg _ ((State.each_one (I := fun t => ∀ q < 4, q ≠ p → (t.wlp q).tx = []) (x := p) List.nodup_range
    (List.mem_range.2 port) (fun q mem other t idle => ?_) (fun q lt other => (same.tx q).trans (none q lt other)) ?_).trans acts)
  · rw [idle q (List.mem_range.1 mem) other]
    simp [State.each]
  · rw [acts]
    exact fun q lt other => ((tx q).trans (same.tx q)).trans (none q lt other)

end Sys2Proof.Machine

namespace Sys2Proof.Machine

/-- Settles O44: one lemma per command and case of a cell. -/
theorem wamundCells : Obligations.WamundCells := by
  unfold Obligations.WamundCells
  refine ⟨fun p s v c rest up still next ready => ⟨_, exec_wlCellTx up still next ready, ?_, ?_, ?_, ?_⟩,
    fun p c stamp free tail s => ⟨fun down => ?_, fun up reserved len bcast type nak => ?_⟩,
    fun p s up cells => ⟨fun few => ⟨_, (exec_wlReplayTimeout up).trans (congrArg _ (s.wlReplay_again cells few)), ?_, ?_, ?_, ?_⟩,
      fun many => ⟨_, (exec_wlReplayTimeout up).trans (congrArg _ (s.wlReplay_down cells many)), s.wlLeaveUp_state p⟩⟩,
    fun p stamp mark gm s up => ⟨_, s.timeMessage p mark gm, exec_wlTimeCellTx up stamp mark gm, ?_, rfl, rfl, ?_, ?_, ?_, ?_⟩,
    fun p s => ⟨_, exec_wlTimeLoss p s, ?_, ?_, fun q other => ?_⟩,
    fun d s p r port up only own peer domain none aligned sends => ?_,
    fun p src f s x flow => ⟨fun heard => ?_, fun lost => ?_⟩⟩
  · simp
  · simp
  · simp
  · obtain ⟨sent, unacked, seq, left, credits, nonce⟩ := State.wlp_sent_shows still next ready
    exact ⟨sent, rfl, unacked, seq, left, credits, nonce, fun q other => s.wlp_sent_other p c other⟩
  · show execWlCellReceived p c stamp free tail s = _
    simp [execWlCellReceived, down]
  · have whole : WholeCell c := ⟨reserved, len, bcast, type, nak⟩
    refine ⟨fun tag expected source => ⟨fun e dest port other egress hops _ =>
      exec_wlCellReceived_relays up whole tag expected source dest port other egress hops,
      exec_wlCellReceived_unknown up whole tag expected source⟩, exec_wlCellReceived_outOfOrder up whole, fun tag few =>
      ⟨_, exec_wlCellReceived_damaged up whole tag few, ?_, ?_, ?_, ?_⟩⟩
    · simp [State.wlMissed, State.bump, State.bumpBy]
    · simp [State.wlMissed, State.bump, State.bumpBy]
    · simp [State.wlMissed]
    · simp [State.wlMissed, State.bump, State.bumpBy]
  · simp [State.bump, State.bumpBy]
  · simp [State.bump, State.bumpBy]
  · simp [State.bump, State.bumpBy]
  · simp
  · simp [State.queueCell, Tab.get_upd, State.timeMessage]
  · simp [State.queueCell]
  · simp
  · simp [State.queueCell]
  · simp [State.queueCell]
  · simp
  · exact (State.modWl_units ..).trans (ShowsOnly.dropWlTime s p).units
  · rw [State.wlp_modWl_ne _ other, (ShowsOnly.dropWlTime s p).wlp]
  · have same := SameFlows.counted s d
    obtain ⟨some_, shape⟩ := (s.counted d).flowBundle_spec r
    obtain ⟨ready, units, -, -⟩ := (s.counted d).queueCells_shows p 2 _ fun c mem => (shape c mem).1
    refine ⟨_, _, exec_wlBundleTx port up only own peer domain none aligned sends, units.trans same.units, some_,
      ready.trans (by rw [same.ready]), fun c mem => ?_⟩
    rw [← same.devnum]
    exact shape c mem
  · show execWlFlowLoss p src f s = _
    simp [execWlFlowLoss, flow, heard]
  · show execWlFlowLoss p src f s = _
    simp [execWlFlowLoss, flow, lost]

end Sys2Proof.Machine
end

