-- ==== Sys2Proof/Proofs/AudioPorts.lean ====
section
/-! PROOF. Serial ports start, stop and count damage; AES3 locks, captures and sends templates; ASRC channels narrow (R566, R571, R572,
R576–R579, R583, R585–R587, R590, R592, R594, R595). -/

namespace Sys2Proof.Machine

variable {s t : State}

/-! ### Serial ports (R566, R571, R572) -/

/-- The clocks of a port's group let it start: a slave's always, a master's once they run. -/
def State.portClocked (s : State) (p : Nat) : Bool := !s.bit (Reg.APG_CFG_MASTER (p / 4)) || s.bit (Reg.APG_STATUS_CLK_OK (p / 4))

/-- A port that starts with half-word phase 0. -/
def State.startPort (s : State) (p : Nat) : State :=
  let s1 : State := { s with audio := { s.audio with
    unpack := Tab.put false s.audio.unpack p false, turns := s.audio.turns.filter fun e => decide (e.1 ≠ p) } }
  ((s1.set (Reg.APORT_P_STATUS_RUNNING p)).put (Reg.APORT_P_STATUS_STOPPED p) 0).put (Reg.APORT_P_STATUS_PAIR_PHASE p) 0

theorem exec_aportStart (p : Fin 16) (s : State) : exec (.aportStart p) s = .next
    (if s.bit (Reg.APORT_P_CTL_EN p) = true ∧ s.bit (Reg.APORT_P_STATUS_RUNNING p) = false ∧ s.portClocked p = true
      then s.startPort p else s) := by
  show execAportStart p s = _
  rw [execAportStart, apply_ite Host.Outcome.next]
  refine if_congr ?_ rfl rfl
  simp only [Bool.and_eq_true, Bool.not_eq_true', and_assoc, State.portClocked]

theorem State.startPort_shows (s : State) (p : Fin 16) : let t := s.startPort p
    t.bit (Reg.APORT_P_STATUS_RUNNING p) = true ∧ t.bit (Reg.APORT_P_STATUS_STOPPED p) = false ∧
      t.bit (Reg.APORT_P_STATUS_PAIR_PHASE p) = false ∧
      Tab.get false t.audio.unpack p = false ∧ t.units = s.units ∧ t.mix = s.mix := by
  refine ⟨?_, ?_, State.bit_put_same _ rfl 0, Tab.get_put_same false s.audio.unpack p false, rfl, rfl⟩
  · simp (disch := decide +revert) only [State.startPort, State.bit_put_ne]
    exact State.bit_set_same _ rfl
  · simp (disch := decide +revert) only [State.startPort, State.bit_put_ne]
    exact State.bit_put_same _ rfl 0

theorem State.portClocked_iff (s : State) (p : Nat) : s.portClocked p = true ↔
    s.bit (Reg.APG_CFG_MASTER (p / 4)) = false ∨ s.bit (Reg.APG_STATUS_CLK_OK (p / 4)) = true := by
  simp [State.portClocked]

theorem exec_aportStop (p : Fin 16) (s : State) : exec (.aportStop p) s = .next
    (if s.bit (Reg.APORT_P_STATUS_RUNNING p) = true ∧ s.bit (Reg.APORT_P_CTL_EN p) = false then
      (s.put (Reg.APORT_P_STATUS_RUNNING p) 0).put (Reg.APORT_P_STATUS_STOPPED p) 1 else s) := by
  show execAportStop p s = _
  rw [execAportStop, apply_ite Host.Outcome.next]
  refine if_congr ?_ rfl rfl
  simp only [Bool.and_eq_true, Bool.not_eq_true']

/-! ### Damage (R576–R579) -/

theorem State.damage_keeps (s : State) (p k m : Nat) : (s.damage p k m).regs = s.regs ∧ (s.damage p k m).units = s.units ∧
    (s.portOut p = false → (s.damage p k m).mix = s.mix) := by
  refine State.each_keeps (fun t => t.regs = s.regs ∧ t.units = s.units ∧ (s.portOut p = false → t.mix = s.mix)) _
    (fun c t ⟨regs, units, mix⟩ => ?_) s _ ⟨rfl, rfl, fun _ => rfl⟩
  dsimp only
  split
  · next out =>
    refine ⟨regs, units, fun input => absurd out ?_⟩
    rw [State.portOut, State.bit_of_regs regs]
    exact Bool.eq_false_iff.1 input
  · exact ⟨regs, units, mix⟩

theorem State.aportFault_host (s : State) (p cause : Nat) : ∃ a, SameButHost { s with audio := a } (s.aportFault p cause) := by
  unfold State.aportFault
  dsimp only
  split
  · exact ⟨s.audio, .refl s⟩
  · exact ⟨_, .postNow ..⟩

/-- An event of a port leaves the registers, the units and the mix. -/
theorem State.aportFault_keeps (s : State) (p cause : Nat) : WritesOnly [] s (s.aportFault p cause) ∧
    (s.aportFault p cause).units = s.units ∧ (s.aportFault p cause).mix = s.mix := by
  obtain ⟨a, same⟩ := s.aportFault_host p cause
  exact ⟨WritesOnly.trans (t := { s with audio := a }) (.of_regs rfl) (.host same), same.units, same.mix⟩

/-- The phase registers of a port. -/
def phaseRegs (p : Nat) : List Fld := [Reg.APORT_P_STATUS_PAIR_PHASE p, Reg.APORT_P_STATUS_PAIR_SWAP p]

theorem State.phaseAfter_keeps (s : State) (p k m : Nat) : WritesOnly (phaseRegs p) s (s.phaseAfter p k m) ∧
    (s.phaseAfter p k m).units = s.units ∧ (s.phaseAfter p k m).mix = s.mix := by
  have turned (u : State) (b : Bool) : WritesOnly (phaseRegs p) u (u.putBit (Reg.APORT_P_STATUS_PAIR_PHASE p) b) :=
    .put (by simp [phaseRegs]) _
  unfold State.phaseAfter
  dsimp only
  split
  · split
    · split
      · exact ⟨WritesOnly.trans (.of_regs rfl) (turned _ _), rfl, rfl⟩
      · obtain ⟨regs, units, mix⟩ := State.aportFault_keeps _ p 4
        refine ⟨?_, units, mix⟩
        exact ((WritesOnly.trans (.of_regs rfl) (turned _ _)).trans (.put (by simp [phaseRegs]) 1)).trans (.mono (by simp) regs)
    · exact ⟨.of_regs rfl, rfl, rfl⟩
  · exact ⟨.refl, rfl, rfl⟩

theorem phase_apart (p : Fin 16) : (Reg.APORT_P_STATUS_PAIR_PHASE p).key ≠ (Reg.APORT_P_STATUS_PAIR_SWAP p).key ∧
    (Reg.APORT_P_STATUS_PAIR_PHASE p).FreeOf [] := by decide +revert

/-- R578: an odd count of half-words turns the phase of an output in the pair format. -/
theorem State.phaseAfter_phase (s : State) (p : Fin 16) (k m : Nat) (out : s.portOut p = true) :
    (s.phaseAfter p k m).bit (Reg.APORT_P_STATUS_PAIR_PHASE p) =
      (s.bit (Reg.APORT_P_STATUS_PAIR_PHASE p) ^^ (s.isPairFormat p && m % 2 == 1)) := by
  have apart := phase_apart p
  unfold State.phaseAfter
  dsimp only
  split
  · next turns =>
    rw [turns, Bool.xor_true]
    split
    · exact State.bit_putBit_same _ rfl _
    · rw [(State.aportFault_keeps _ p 4).1.bit apart.2, State.set, State.bit_put_ne _ apart.1]
      exact State.bit_putBit_same _ rfl _
  · next still => rw [Bool.eq_false_iff.2 still, Bool.xor_false]

/-- The registers that the damage of a port leaves, once its cause is shown. -/
theorem aportRegs_free (p : Fin 16) : ∀ f ∈ [Reg.APORT_P_STATUS_UNDERRUN p, Reg.APORT_P_STATUS_OVERRUN p, Reg.APORT_P_CNT_XRUN p],
    f.FreeOf (phaseRegs p) := by decide +revert

/-- A port with a cause of damage shown and counted. -/
def State.countXrun (s : State) (cause : Fld) (p : Nat) : State := (s.set cause).bump (Reg.APORT_P_CNT_XRUN p)

/-- What follows damage once it is counted: zeros, the phase and an event. -/
def State.followDamage (s : State) (p k m cause : Nat) : State := ((s.damage p k m).phaseAfter p k m).aportFault p cause

theorem State.followDamage_keeps (s : State) (p k m cause : Nat) : WritesOnly (phaseRegs p) s (s.followDamage p k m cause) ∧
    (s.followDamage p k m cause).units = s.units ∧ (s.portOut p = false → (s.followDamage p k m cause).mix = s.mix) := by
  obtain ⟨regs, units, mix⟩ := s.damage_keeps p k m
  obtain ⟨regs', units', mix'⟩ := (s.damage p k m).phaseAfter_keeps p k m
  obtain ⟨regs'', units'', mix''⟩ := ((s.damage p k m).phaseAfter p k m).aportFault_keeps p cause
  exact ⟨(WritesOnly.trans (.of_regs regs) regs').trans (.mono (by simp) regs''), units''.trans (units'.trans units),
    fun input => mix''.trans (mix'.trans (mix input))⟩

theorem State.followDamage_phase (s : State) (p : Fin 16) (k m cause : Nat) (out : s.portOut p = true) :
    (s.followDamage p k m cause).bit (Reg.APORT_P_STATUS_PAIR_PHASE p) =
      (s.bit (Reg.APORT_P_STATUS_PAIR_PHASE p) ^^ (s.isPairFormat p && m % 2 == 1)) := by
  have regs := (s.damage_keeps p k m).1
  have out' : (s.damage p k m).portOut p = true := (State.bit_of_regs regs _).trans out
  rw [State.followDamage, (State.aportFault_keeps _ p cause).1.bit (phase_apart p).2, State.phaseAfter_phase _ p k m out',
    State.bit_of_regs regs, State.isPairFormat, State.get_of_regs regs]
  rfl

/-- The registers of a port that damage reads or writes stand apart. -/
theorem xrun_apart (p : Fin 16) : ∀ cause ∈ [Reg.APORT_P_STATUS_UNDERRUN p, Reg.APORT_P_STATUS_OVERRUN p], cause.w = 1 ∧
    cause.FreeOf (phaseRegs p) ∧ ∀ f ∈ [Reg.APORT_P_CNT_XRUN p, Reg.APORT_P_STATUS_PAIR_PHASE p, Reg.APORT_P_CTL_DIR p,
      Reg.APG_CFG_FORMAT (p / 4)], f.key ≠ cause.key := by decide +revert

theorem count_apart (p : Fin 16) : ∀ f ∈ [Reg.APORT_P_STATUS_UNDERRUN p, Reg.APORT_P_STATUS_OVERRUN p, Reg.APORT_P_STATUS_PAIR_PHASE p,
    Reg.APORT_P_CTL_DIR p, Reg.APG_CFG_FORMAT (p / 4)], f.key ≠ (Reg.APORT_P_CNT_XRUN p).key := by decide +revert

theorem State.get_countXrun (s : State) (p : Fin 16) {cause f : Fld}
    (own : cause ∈ [Reg.APORT_P_STATUS_UNDERRUN p, Reg.APORT_P_STATUS_OVERRUN p])
    (other : f ∈ [Reg.APORT_P_STATUS_PAIR_PHASE p, Reg.APORT_P_CTL_DIR p, Reg.APG_CFG_FORMAT (p / 4)]) :
    (s.countXrun cause p).get f = s.get f := by
  have below := List.mem_cons_of_mem (Reg.APORT_P_CNT_XRUN p) other
  rw [State.countXrun, State.get_bump_ne _ (count_apart p f (List.mem_append_right [_, _] other)), State.set,
    State.get_put_ne _ ((xrun_apart p cause own).2.2 f below)]

/-- A running port whose damage is shown, counted and followed. -/
theorem State.xrun_shows (s : State) (p : Fin 16) (k m n : Nat) {cause : Fld}
    (own : cause ∈ [Reg.APORT_P_STATUS_UNDERRUN p, Reg.APORT_P_STATUS_OVERRUN p]) :
    let t := (s.countXrun cause p).followDamage p k m n
    t.units = s.units ∧ t.bit cause = true ∧ t.get (Reg.APORT_P_CNT_XRUN p) = min (s.get (Reg.APORT_P_CNT_XRUN p) + 1) 0xFFFF ∧
      (s.portOut p = true → t.bit (Reg.APORT_P_STATUS_PAIR_PHASE p) =
        (s.bit (Reg.APORT_P_STATUS_PAIR_PHASE p) ^^ (s.isPairFormat p && m % 2 == 1))) ∧
      (s.portOut p = false → t.mix = s.mix) := by
  obtain ⟨narrow, free, apart⟩ := xrun_apart p cause own
  obtain ⟨regs, units, mix⟩ := (s.countXrun cause p).followDamage_keeps p k m n
  have format : (s.countXrun cause p).isPairFormat p = s.isPairFormat p := by
    rw [State.isPairFormat, s.get_countXrun p own (by simp)]
    rfl
  have direction : (s.countXrun cause p).portOut p = s.portOut p := by
    rw [State.portOut, State.bit, s.get_countXrun p own (by simp)]
    rfl
  refine ⟨units.trans (by simp [State.countXrun]), (regs.bit free).trans ?_, (regs _ (aportRegs_free p _ (by simp))).trans ?_,
    fun out => ?_, fun input => ?_⟩
  · rw [State.countXrun, State.bit, State.get_bump_ne _ (count_apart p cause (List.mem_append_left _ own))]
    exact State.bit_set_same s narrow
  · rw [State.countXrun, State.get_bump_same, State.set, State.get_put_ne _ (apart _ (by simp))]
    rfl
  · rw [State.followDamage_phase _ p k m n (direction.trans out), format, State.bit, s.get_countXrun p own (by simp)]
    rfl
  · exact (mix (direction.trans input)).trans (by simp [State.countXrun])

theorem exec_aportUnderrun (p : Fin 16) (k m : Nat) (s : State) : exec (.aportUnderrun p k m) s = .next
    (if s.mayXrun p = true ∧ s.portOut p = true then (s.countXrun (Reg.APORT_P_STATUS_UNDERRUN p) p).followDamage p k m 1 else s) := by
  show execAportUnderrun p k m s = _
  rw [execAportUnderrun, apply_ite Host.Outcome.next]
  exact if_congr (by simp) rfl rfl

theorem exec_aportOverrun (p : Fin 16) (k m : Nat) (s : State) : exec (.aportOverrun p k m) s = .next
    (if s.mayXrun p = true ∧ s.portOut p = false then (s.countXrun (Reg.APORT_P_STATUS_OVERRUN p) p).followDamage p k m 2 else s) := by
  show execAportOverrun p k m s = _
  rw [execAportOverrun, apply_ite Host.Outcome.next]
  exact if_congr (by simp) rfl rfl

/-! ### A framing error and an inverted marker (R576, R579) -/

/-- A port of a group in which an FS edge came at the wrong time. -/
def State.frameErr (p : Nat) (k : Nat) (t : State) : State :=
  if t.mayXrun p then
    (((t.set (Reg.APORT_P_STATUS_FS_ERR p)).bump (Reg.APORT_P_CNT_FS_ERR_CNT p)).damage p k 0).aportFault p 3
  else t

/-- The registers of a port that a framing error writes. -/
def frameErrRegs (p : Nat) : List Fld := [Reg.APORT_P_STATUS_FS_ERR p, Reg.APORT_P_CNT_FS_ERR_CNT p]

theorem State.frameErr_keeps (p k : Nat) (t : State) : WritesOnly (frameErrRegs p) t (State.frameErr p k t) ∧
    (State.frameErr p k t).units = t.units := by
  unfold State.frameErr
  split
  · obtain ⟨regs, units, -⟩ := State.damage_keeps ((t.set (Reg.APORT_P_STATUS_FS_ERR p)).bump (Reg.APORT_P_CNT_FS_ERR_CNT p)) p k 0
    obtain ⟨regs', units', -⟩ := State.aportFault_keeps (State.damage ((t.set (Reg.APORT_P_STATUS_FS_ERR p)).bump
      (Reg.APORT_P_CNT_FS_ERR_CNT p)) p k 0) p 3
    exact ⟨(((WritesOnly.put (by simp [frameErrRegs]) 1).trans (.put (by simp [frameErrRegs]) _)).trans (.of_regs regs)).trans
      (.mono (by simp) regs'), units'.trans units⟩
  · exact ⟨.refl, rfl⟩

theorem frameErr_apart (p : Fin 16) : (Reg.APORT_P_STATUS_FS_ERR p).FreeOf [] ∧
    (Reg.APORT_P_STATUS_FS_ERR p).key ≠ (Reg.APORT_P_CNT_FS_ERR_CNT p).key := by decide +revert

theorem State.frameErr_shows (p : Fin 16) (k : Nat) (t : State) (may : t.mayXrun p = true) :
    (State.frameErr p k t).bit (Reg.APORT_P_STATUS_FS_ERR p) = true := by
  obtain ⟨free, apart⟩ := frameErr_apart p
  rw [State.frameErr, if_pos may, (State.aportFault_keeps _ p 3).1.bit free, State.bit_of_regs (State.damage_keeps _ p k 0).1, State.bit,
    State.get_bump_ne _ apart]
  exact State.bit_set_same t rfl

/-- Of a group, no port's error changes what another port's error reads. -/
theorem frameErrRegs_free (p q : Fin 16) : ∀ f ∈ [Reg.APORT_P_STATUS_RUNNING q, Reg.APG_CFG_MASTER (q / 4), Reg.APG_CFG_DOMAIN (q / 4)],
    f.FreeOf (frameErrRegs p) := by decide +revert

theorem frameErr_other (p q : Fin 16) (other : q ≠ p) : (Reg.APORT_P_STATUS_FS_ERR q).FreeOf (frameErrRegs p) := by decide +revert

theorem State.mayXrun_frameErr (p q : Fin 16) (k : Nat) (t : State) : (State.frameErr p k t).mayXrun q = t.mayXrun q := by
  have regs := (State.frameErr_keeps p k t).1
  have free := frameErrRegs_free p q
  rw [State.mayXrun, regs.bit (free _ (by simp)), regs.bit (free _ (by simp)), State.groupDomain, regs _ (free _ (by simp))]
  rfl

theorem exec_aportFramingError (g : Fin 4) (k : Nat) (s : State) : ∃ t, exec (.aportFramingError g k) s = .next t ∧
    t.units = s.units ∧ ∀ j < 4, s.mayXrun (4 * g + j) = true → t.bit (Reg.APORT_P_STATUS_FS_ERR (4 * g + j)) = true := by
  have units (l : List Nat) : (s.each l fun p t => State.frameErr p k t).units = s.units :=
    State.each_keeps (fun t => t.units = s.units) _ (fun p t kept => (State.frameErr_keeps p k t).2.trans kept) s l rfl
  refine ⟨s.each ((List.range 4).map (4 * g.val + ·)) fun p t => State.frameErr p k t, rfl, units _, fun j lt may => ?_⟩
  have port (i : Nat) (mem : i ∈ (List.range 4).map (4 * g.val + ·)) : i < 16 := by
    obtain ⟨a, lt, rfl⟩ := List.mem_map.1 mem
    have := List.mem_range.1 lt
    omega
  have own : 4 * g.val + j ∈ (List.range 4).map (4 * g.val + ·) := List.mem_map.2 ⟨j, List.mem_range.2 lt, rfl⟩
  refine State.each_brings (fun u => u.mayXrun (4 * g + j) = true) (fun u => u.bit (Reg.APORT_P_STATUS_FS_ERR (4 * g + j)) = true) _
    (List.nodup_range.map (add_right_injective _)) own ?_ ?_ ?_ may
  · exact fun i mem _ u runs => (State.mayXrun_frameErr ⟨i, port i mem⟩ ⟨_, port _ own⟩ k u).trans runs
  · exact fun u runs => State.frameErr_shows ⟨_, port _ own⟩ k u runs
  · exact fun i mem other u shown => ((State.frameErr_keeps i k u).1.bit
      (frameErr_other ⟨i, port i mem⟩ ⟨_, port _ own⟩ fun eq => other (congrArg Fin.val eq).symm)).trans shown

theorem exec_pairSwapDetect (p : Fin 16) (s : State) : exec (.pairSwapDetect p) s = .next
    (if s.bit (Reg.APORT_P_CTL_PAIR_MARK p) = true ∧ s.portOut p = false ∧ s.isPairFormat p = true ∧
        s.bit (Reg.APORT_P_STATUS_RUNNING p) = true then
      ((s.set (Reg.APORT_P_STATUS_PAIR_PHASE p)).set (Reg.APORT_P_STATUS_PAIR_SWAP p)).aportFault p 4 else s) := by
  show execPairSwapDetect p s = _
  rw [execPairSwapDetect, apply_ite Host.Outcome.next]
  exact if_congr (by simp only [Bool.and_eq_true, Bool.not_eq_true', and_assoc]) rfl rfl

theorem swap_free (p : Fin 16) : (Reg.APORT_P_STATUS_PAIR_SWAP p).FreeOf [] := by decide +revert

theorem State.pairSwap_shows (s : State) (p : Fin 16) :
    let t := ((s.set (Reg.APORT_P_STATUS_PAIR_PHASE p)).set (Reg.APORT_P_STATUS_PAIR_SWAP p)).aportFault p 4
    t.units = s.units ∧ t.bit (Reg.APORT_P_STATUS_PAIR_PHASE p) = true ∧ t.bit (Reg.APORT_P_STATUS_PAIR_SWAP p) = true := by
  obtain ⟨apart, free⟩ := phase_apart p
  obtain ⟨regs, units, -⟩ := ((s.set (Reg.APORT_P_STATUS_PAIR_PHASE p)).set (Reg.APORT_P_STATUS_PAIR_SWAP p)).aportFault_keeps p 4
  refine ⟨units.trans (by simp), (regs.bit free).trans ?_, (regs.bit (swap_free p)).trans (State.bit_set_same _ rfl)⟩
  exact (State.bit_put_ne _ apart 1).trans (State.bit_set_same s rfl)

/-! ### The ASRC bank (R594, R595) -/

theorem State.asrc_modAsrc (s : State) (a b : Nat) (f : AsrcCh → AsrcCh) : Tab.get none (s.modAsrc a f).audio.asrc b =
    if b = a then (Tab.get none s.audio.asrc a).map f else Tab.get none s.audio.asrc b := Tab.get_upd none s.audio.asrc a b _

theorem State.asrc_takeAsrc (s : State) (a b : Nat) : Tab.get none (s.takeAsrc a).audio.asrc b =
    if b = a then some {} else Tab.get none s.audio.asrc b := Tab.get_put none s.audio.asrc a b (some {})

/-- The bandwidth register that shows an ASRC channel: that of the receiver whose source it is. -/
def bwRegs (a : Nat) : List Fld := if addrKind a = 4 then [Reg.AES_RX_BW_BW (addrChan a / 2)] else []

theorem ShowsOnly.showAsrc (s : State) (a : Nat) : ShowsOnly (bwRegs a) s (s.showAsrc a) := by
  unfold State.showAsrc
  split
  · split
    · next receiver => exact .put (by simp [bwRegs, receiver]) _
    · exact .refl
  · exact .refl

/-- What a channel shows besides its own record when it changes. -/
theorem State.modAsrc_keeps (s : State) (a : Nat) (f : AsrcCh → AsrcCh) :
    (s.modAsrc a f).regs = s.regs ∧ (s.modAsrc a f).units = s.units := ⟨rfl, rfl⟩

/-- A channel that restarts, and how it shows. -/
theorem State.restartAsrc_keeps (s : State) (a : Nat) : WritesOnly (bwRegs a) s (s.restartAsrc a) ∧
    (s.restartAsrc a).units = s.units ∧ (s.restartAsrc a).audio.capture = s.audio.capture ∧
    ∀ b, Tab.get none (s.restartAsrc a).audio.asrc b = if b = a then
      (Tab.get none s.audio.asrc a).map (fun y => { y with halvings := 0, released := false }) else Tab.get none s.audio.asrc b := by
  have shows := ShowsOnly.showAsrc (s.modAsrc a fun y => { y with halvings := 0, released := false }) a
  refine ⟨WritesOnly.trans (.of_regs (s.modAsrc_keeps a _).1) shows.regs, shows.units.trans (s.modAsrc_keeps a _).2,
    (congrArg AudioSt.capture shows.audio).trans rfl, fun b => ?_⟩
  exact (congrArg (fun x : AudioSt => Tab.get none x.asrc b) shows.audio).trans (s.asrc_modAsrc a b _)

/-- A source of an AES3 receiver has a receiver, and its registers stand apart. -/
theorem receiverRegs_free (n : Fin 8) : ∀ f ∈ [Reg.AES_RX_STATUS_LOCK n, Reg.AES_RX_STATUS_RATE n, Reg.AES_RX_STATUS_LOST n,
    Reg.AES_RX_RATIO_RATIO n, Reg.AES_ASRC_POOL_RETRACK], f.FreeOf [Reg.AES_RX_BW_BW n] := by decide +revert

/-- The receiver of a source, if it is one of the eight. -/
theorem bwRegs_receiver {a : Nat} (receiver : addrKind a = 4) : bwRegs a = [Reg.AES_RX_BW_BW (addrChan a / 2)] := if_pos receiver

theorem retrack_free {a : Nat} (inside : addrKind a = 4 → addrChan a < 16) : Reg.AES_ASRC_POOL_RETRACK.FreeOf (bwRegs a) := by
  unfold bwRegs
  split
  · next receiver => exact receiverRegs_free ⟨addrChan a / 2, by have := inside receiver; omega⟩ _ (by simp)
  · decide

section
variable {a : Nat} {x : AsrcCh} {q : BitVec 32}

theorem exec_asrcNarrow_none (none_ : Tab.get none s.audio.asrc a = none) : exec (.asrcNarrow a q) s = .next s := by
  show execAsrcNarrow a q s = _
  rw [execAsrcNarrow, none_]

theorem exec_asrcRelease_none (none_ : Tab.get none s.audio.asrc a = none) : exec (.asrcRelease a) s = .next s := by
  show execAsrcRelease a s = _
  rw [execAsrcRelease, none_]

theorem exec_asrcRetrack_none (none_ : Tab.get none s.audio.asrc a = none) : exec (.asrcRetrack a) s = .next s := by
  show execAsrcRetrack a s = _
  rw [execAsrcRetrack, none_]

/-- A channel whose bandwidth halves unless FINAL is reached. -/
def State.narrowed (s : State) (a : Nat) (x : AsrcCh) : State :=
  if 2 ^ x.halvings * s.asrcFinal a < 1000 then s.modAsrc a fun y => { y with halvings := y.halvings + 1 } else s

theorem State.narrowed_shows (channel : Tab.get none s.audio.asrc a = some x) : (s.narrowed a x).units = s.units ∧
    Tab.get none (s.narrowed a x).audio.asrc a = some
      { x with halvings := if 2 ^ x.halvings * s.asrcFinal a < 1000 then x.halvings + 1 else x.halvings } := by
  unfold State.narrowed
  split
  · exact ⟨rfl, by rw [State.asrc_modAsrc, if_pos rfl, channel]; rfl⟩
  · exact ⟨rfl, channel⟩

theorem exec_asrcNarrow (channel : Tab.get none s.audio.asrc a = some x) : ∃ t, exec (.asrcNarrow a q) s = .next t ∧
    t.units = s.units ∧ Tab.get none t.audio.asrc a = some
      { x with halvings := if 2 ^ x.halvings * s.asrcFinal a < 1000 then x.halvings + 1 else x.halvings } := by
  obtain ⟨units, record⟩ := State.narrowed_shows channel
  have ratio : ShowsOnly [Reg.AES_RX_RATIO_RATIO (addrChan a / 2)] (s.narrowed a x) (if addrKind a = 4 then
      (s.narrowed a x).put (Reg.AES_RX_RATIO_RATIO (addrChan a / 2)) q.toNat else s.narrowed a x) :=
    .ite (.put (by simp) _) .refl
  have shows := ShowsOnly.showAsrc (if addrKind a = 4 then (s.narrowed a x).put (Reg.AES_RX_RATIO_RATIO (addrChan a / 2)) q.toNat
    else s.narrowed a x) a
  refine ⟨_, ?_, shows.units.trans (ratio.units.trans units), ?_⟩
  · show execAsrcNarrow a q s = _
    rw [execAsrcNarrow, channel]
    rfl
  · exact (congrArg (fun x : AudioSt => Tab.get none x.asrc a) (shows.audio.trans ratio.audio)).trans record

/-- A channel that delivers; its receiver, tracking, is locked. -/
def State.releaseAsrc (s : State) (a : Nat) : State :=
  let s1 := s.modAsrc a fun y => { y with released := true }
  let n := addrChan a / 2
  if addrKind a = 4 ∧ s.get (Reg.AES_RX_STATUS_LOCK n) = 2 then
    (s1.put (Reg.AES_RX_STATUS_LOCK n) 3).postNow .other none 0x0121 [n, 1, aesRates.getD (s.get (Reg.AES_RX_STATUS_RATE n)) 0]
  else s1

theorem exec_asrcRelease (channel : Tab.get none s.audio.asrc a = some x) (held : x.released = false) (narrow : 2 ≤ x.halvings) :
    exec (.asrcRelease a) s = .next (s.releaseAsrc a) := by
  show execAsrcRelease a s = _
  simp only [execAsrcRelease, channel, held, Bool.false_eq_true, Nat.not_lt.2 narrow, or_self, if_false]
  rfl

theorem State.releaseAsrc_shows (channel : Tab.get none s.audio.asrc a = some x) (inside : addrKind a = 4 → addrChan a < 16) :
    let t := s.releaseAsrc a
    t.units = s.units ∧ Tab.get none t.audio.asrc a = some { x with released := true } ∧
      (addrKind a = 4 → s.get (Reg.AES_RX_STATUS_LOCK (addrChan a / 2)) = 2 → t.get (Reg.AES_RX_STATUS_LOCK (addrChan a / 2)) = 3) := by
  have record : Tab.get none (s.modAsrc a fun y => { y with released := true }).audio.asrc a = some { x with released := true } := by
    rw [State.asrc_modAsrc, if_pos rfl, channel]
    rfl
  by_cases tracks : addrKind a = 4 ∧ s.get (Reg.AES_RX_STATUS_LOCK (addrChan a / 2)) = 2
  · rw [State.releaseAsrc, if_pos tracks]
    refine ⟨by simp [State.modAsrc_keeps], by rw [State.postNow_audio]; exact record, fun receiver _ => ?_⟩
    have free := receiverRegs_free ⟨addrChan a / 2, by have := inside receiver; omega⟩ _ (List.mem_cons_self ..)
    exact (State.get_postNow _ _ _ _ _ _ free.1 free.2.1).trans (State.get_put_same _ (Reg.AES_RX_STATUS_LOCK (addrChan a / 2)) 3)
  · rw [State.releaseAsrc, if_neg tracks]
    exact ⟨(s.modAsrc_keeps a _).2, record, fun receiver locked => absurd ⟨receiver, locked⟩ tracks⟩

theorem exec_asrcRelease_not (channel : Tab.get none s.audio.asrc a = some x) (not : x.released = true ∨ x.halvings < 2) :
    exec (.asrcRelease a) s = .next s := by
  show execAsrcRelease a s = _
  simp only [execAsrcRelease, channel, if_pos not]

theorem exec_asrcRetrack (channel : Tab.get none s.audio.asrc a = some x) (inside : addrKind a = 4 → addrChan a < 16) :
    ∃ t, exec (.asrcRetrack a) s = .next t ∧ t.units = s.units ∧ Tab.get none t.audio.asrc a = some { x with halvings := 0 } ∧
      t.get Reg.AES_ASRC_POOL_RETRACK = min (s.get Reg.AES_ASRC_POOL_RETRACK + 1) 0xFFFF := by
  have shows := ShowsOnly.showAsrc ((s.modAsrc a fun y => { y with halvings := 0 }).bump Reg.AES_ASRC_POOL_RETRACK) a
  have run : exec (.asrcRetrack a) s =
      .next (((s.modAsrc a fun y => { y with halvings := 0 }).bump Reg.AES_ASRC_POOL_RETRACK).showAsrc a) := by
    show execAsrcRetrack a s = _
    rw [execAsrcRetrack, channel]
  refine ⟨_, run, shows.units.trans (by simp [State.modAsrc_keeps]), ?_,
    (shows.get (retrack_free inside)).trans (State.get_bump_same ..)⟩
  rw [shows.audio]
  exact (s.asrc_modAsrc a a _).trans (by rw [if_pos rfl, channel]; rfl)

theorem exec_asrcRestart (channel : Tab.get none s.audio.asrc a = some x) : ∃ t, exec (.asrcRestart a) s = .next t ∧
    t.units = s.units ∧ Tab.get none t.audio.asrc a = some { x with halvings := 0, released := false } ∧
    (addrKind a = 4 → s.get (Reg.AES_RX_STATUS_LOCK (addrChan a / 2)) = 3 → t.get (Reg.AES_RX_STATUS_LOCK (addrChan a / 2)) = 2) := by
  obtain ⟨-, units, -, asrc⟩ := s.restartAsrc_keeps a
  have record := asrc a
  rw [if_pos rfl, channel] at record
  refine ⟨_, rfl, ?_, ?_, fun receiver locked => ?_⟩
  · split
    · exact (State.put_units ..).trans units
    · exact units
  · split
    · exact record
    · exact record
  · rw [if_pos ⟨receiver, locked⟩]
    exact State.get_put_same _ (Reg.AES_RX_STATUS_LOCK (addrChan a / 2)) 2

end

/-! ### AES3 receivers (R583, R585–R587) -/

/-- A receiver's two sources are its channels 2n and 2n + 1. -/
theorem addr_of_rxAddrs {n : Fin 8} {a : Nat} (mem : a ∈ rxAddrs n) : addrKind a = 4 ∧ addrChan a / 2 = n := by
  rcases List.mem_pair.1 mem with rfl | rfl <;> unfold mkAddr addrKind addrChan <;> omega

theorem bwRegs_rxAddr {n : Fin 8} {a : Nat} (mem : a ∈ rxAddrs n) : bwRegs a = [Reg.AES_RX_BW_BW n] := by
  obtain ⟨receiver, own⟩ := addr_of_rxAddrs mem
  rw [bwRegs_receiver receiver, own]

/-- A channel between domains is no receiver's. -/
theorem bwRegs_bridge {n : Fin 8} {a : Nat} (mem : a ∈ rxAddrs n) (d : Nat) : bwRegs (bridgeKey a d) = [] := by
  refine if_neg ?_
  rcases List.mem_pair.1 mem with rfl | rfl <;> unfold mkAddr bridgeKey addrKind <;> omega

/-- What the restart of channels of a receiver leaves. -/
def KeepsReceiver (n : Nat) (s t : State) : Prop := WritesOnly [Reg.AES_RX_BW_BW n] s t ∧ t.units = s.units

theorem KeepsReceiver.restart {n : Fin 8} (s : State) {a : Nat} (own : bwRegs a ⊆ [Reg.AES_RX_BW_BW n]) :
    KeepsReceiver n s (if (Tab.get none s.audio.asrc a).isSome then s.restartAsrc a else s) := by
  obtain ⟨regs, units, -⟩ := s.restartAsrc_keeps a
  split
  · exact ⟨regs.mono own, units⟩
  · exact ⟨.refl, rfl⟩

theorem KeepsReceiver.trans {n : Nat} {u : State} (a : KeepsReceiver n s t) (b : KeepsReceiver n t u) : KeepsReceiver n s u :=
  ⟨a.1.trans b.1, b.2.trans a.2⟩

theorem KeepsReceiver.restartSource {n : Fin 8} (s : State) {a : Nat} (mem : a ∈ rxAddrs n) : KeepsReceiver n s (s.restartSource a) := by
  refine State.each_keeps_mem (KeepsReceiver n s) _ s _ (fun k own t kept => kept.trans (.restart t ?_)) ⟨.refl, rfl⟩
  rcases List.mem_cons.1 own with rfl | bridge
  · rw [bwRegs_rxAddr mem]
    exact List.Subset.refl _
  · obtain ⟨d, -, rfl⟩ := List.mem_map.1 bridge
    rw [bwRegs_bridge mem]
    exact List.nil_subset _

/-- A lock lost: the receiver shows none, and its channels start again. -/
theorem State.rxUnlock_keeps (s : State) (n : Fin 8) : WritesOnly (Reg.AES_RX_BW_BW n :: anyCandidateRegs)
    (s.put (Reg.AES_RX_STATUS_LOCK n) 0) (s.rxUnlock n) ∧ (s.rxUnlock n).units = s.units := by
  have lose := ShowsOnly.disqualifyAll (s.put (Reg.AES_RX_STATUS_LOCK n) 0)
    fun u m k => u.get (Reg.CLK_MPLL_CAND_SRC m k) == 3 && u.get (Reg.CLK_MPLL_CAND_SEL m k) == n
  obtain ⟨regs, units⟩ : KeepsReceiver n ((s.put (Reg.AES_RX_STATUS_LOCK n) 0).loseAes n) (s.rxUnlock n) :=
    State.each_keeps_mem (KeepsReceiver n _) _ _ _ (fun a mem t kept => kept.trans (.restartSource t mem)) ⟨.refl, rfl⟩
  exact ⟨(lose.regs.mono (by simp)).trans (regs.mono (by simp)), units.trans lose.units⟩

theorem lockRegs_free (n : Fin 8) : ∀ f ∈ [Reg.AES_RX_STATUS_LOCK n, Reg.AES_RX_STATUS_LOST n],
    f.FreeOf (Reg.AES_RX_BW_BW n :: anyCandidateRegs) := by decide +revert

theorem lock_apart (n : Fin 8) : (Reg.AES_RX_STATUS_LOCK n).key ≠ (Reg.AES_RX_STATUS_LOST n).key := by decide +revert

theorem exec_aesRxLockLoss (n : Fin 8) (s : State) : exec (.aesRxLockLoss n) s = if 2 ≤ s.get (Reg.AES_RX_STATUS_LOCK n) then
    .next (((s.rxUnlock n).set (Reg.AES_RX_STATUS_LOST n)).postNow .other none 0x0121
      [n, 0, aesRates.getD (s.get (Reg.AES_RX_STATUS_RATE n)) 0]) else .next s := rfl

theorem exec_aesRxLockLoss_shows {n : Fin 8} (locked : 2 ≤ s.get (Reg.AES_RX_STATUS_LOCK n)) :
    ∃ t, exec (.aesRxLockLoss n) s = .next t ∧ t.units = s.units ∧
      t.get (Reg.AES_RX_STATUS_LOCK n) = 0 ∧ t.bit (Reg.AES_RX_STATUS_LOST n) = true := by
  obtain ⟨regs, units⟩ := s.rxUnlock_keeps n
  have free := lockRegs_free n
  refine ⟨_, (exec_aesRxLockLoss n s).trans (if_pos locked), (State.postNow_units ..).trans ((State.set_units ..).trans units), ?_, ?_⟩
  · rw [State.get_postNow _ _ _ _ _ _ (free _ (by simp)).1 (free _ (by simp)).2.1, State.set, State.get_put_ne _ (lock_apart n),
      regs _ (free _ (by simp))]
    exact State.get_put_same ..
  · exact ((WritesOnly.host (SameButHost.postNow ..)).bit (free _ (by simp))).trans (State.bit_set_same _ rfl)

/-- What a source of a receiver becomes as tracking begins: its channel is taken, or starts again. -/
def State.trackSource (a : Nat) (t : State) : State :=
  if (Tab.get none t.audio.asrc a).isSome then t.restartAsrc a else t.takeAsrc a

theorem State.trackSource_keeps {n : Fin 8} (s : State) {a : Nat} (mem : a ∈ rxAddrs n) : KeepsReceiver n s (State.trackSource a s) ∧
    (∃ x, Tab.get none (State.trackSource a s).audio.asrc a = some x ∧ x.halvings = 0 ∧ x.released = false) ∧
    ∀ b, b ≠ a → Tab.get none (State.trackSource a s).audio.asrc b = Tab.get none s.audio.asrc b := by
  unfold State.trackSource
  split
  · next taken =>
    obtain ⟨regs, units, -, asrc⟩ := s.restartAsrc_keeps a
    obtain ⟨x, channel⟩ := Option.isSome_iff_exists.1 taken
    exact ⟨⟨bwRegs_rxAddr mem ▸ regs, units⟩, ⟨_, by rw [asrc, if_pos rfl, channel]; rfl, rfl, rfl⟩,
      fun b other => by rw [asrc, if_neg other]⟩
  · exact ⟨⟨.of_regs rfl, rfl⟩, ⟨{}, by rw [State.asrc_takeAsrc, if_pos rfl], rfl, rfl⟩, fun b other => by
      rw [State.asrc_takeAsrc, if_neg other]⟩

/-- The channels of a receiver track from 100 Hz. -/
def State.Tracks (s : State) (a : Nat) : Prop := ∃ x, Tab.get none s.audio.asrc a = some x ∧ x.halvings = 0 ∧ x.released = false

/-- A receiver that locks, before its channels track. -/
def State.showLock (s : State) (n rate ratio : Nat) : State :=
  ((s.put (Reg.AES_RX_STATUS_LOCK n) 2).put (Reg.AES_RX_STATUS_RATE n) rate).put (Reg.AES_RX_RATIO_RATIO n) ratio

theorem State.showLock_shows (s : State) (n : Fin 8) (rate : Fin 7) (ratio : BitVec 32) : let t := s.showLock n rate ratio.toNat
    t.get (Reg.AES_RX_STATUS_LOCK n) = 2 ∧ t.get (Reg.AES_RX_STATUS_RATE n) = rate ∧
      t.get (Reg.AES_RX_RATIO_RATIO n) = ratio.toNat := by
  refine ⟨?_, ?_, State.get_put_lt _ (Reg.AES_RX_RATIO_RATIO n) _ ratio.isLt⟩
  · simp (disch := decide +revert) only [State.showLock, State.get_put_ne]
    exact State.get_put_same _ (Reg.AES_RX_STATUS_LOCK n) 2
  · simp (disch := decide +revert) only [State.showLock, State.get_put_ne]
    exact State.get_put_lt _ (Reg.AES_RX_STATUS_RATE n) _ (Nat.lt_trans rate.isLt (show 7 < 2 ^ 3 by decide))

theorem exec_aesRxLock (n : Fin 8) (r : Fin 7) (q : BitVec 32) (s : State) : exec (.aesRxLock n r q) s =
    if (s.bit (Reg.AES_RX_CTL_EN n) && decide (s.get (Reg.AES_RX_STATUS_LOCK n) < 2)) = true then
      .next (((s.showLock n r q.toNat).each (rxAddrs n) State.trackSource).showAsrc (mkAddr 4 (2 * n))) else .next s := rfl

theorem exec_aesRxLock_shows {n : Fin 8} {r : Fin 7} {q : BitVec 32} (en : s.bit (Reg.AES_RX_CTL_EN n) = true)
    (none_ : s.get (Reg.AES_RX_STATUS_LOCK n) < 2) : ∃ t, exec (.aesRxLock n r q) s = .next t ∧
      t.get (Reg.AES_RX_STATUS_LOCK n) = 2 ∧ t.get (Reg.AES_RX_STATUS_RATE n) = r ∧
      t.get (Reg.AES_RX_RATIO_RATIO n) = q.toNat ∧ t.units = s.units ∧ ∀ a ∈ rxAddrs n, t.Tracks a := by
  have nodup : (rxAddrs n).Nodup := by simp [rxAddrs, mkAddr]
  have shows := ShowsOnly.showAsrc ((s.showLock n r q.toNat).each (rxAddrs n) State.trackSource) (mkAddr 4 (2 * n))
  rw [bwRegs_rxAddr (n := n) (List.mem_cons_self ..)] at shows
  obtain ⟨regs, units⟩ : KeepsReceiver n (s.showLock n r q.toNat) ((s.showLock n r q.toNat).each (rxAddrs n) State.trackSource) :=
    State.each_keeps_mem (KeepsReceiver n _) _ _ _ (fun a mem t kept => kept.trans (t.trackSource_keeps mem).1) ⟨.refl, rfl⟩
  obtain ⟨lock, rate, ratio⟩ := s.showLock_shows n r q
  have free := receiverRegs_free n
  have same {f : Fld} (mem) := ((regs.trans shows.regs) f (free f mem))
  refine ⟨_, (exec_aesRxLock n r q s).trans (if_pos (by simp [en, none_])), (same (by simp)).trans lock, (same (by simp)).trans rate,
    (same (by simp)).trans ratio, shows.units.trans (units.trans (by simp [State.showLock])), fun a mem => ?_⟩
  unfold State.Tracks
  rw [shows.audio]
  exact State.each_brings (fun _ => True) (State.Tracks · a) State.trackSource nodup mem (fun _ _ _ _ _ => trivial)
    (fun t _ => (t.trackSource_keeps mem).2.1) (fun b own other t tracks => by
      unfold State.Tracks
      rw [(t.trackSource_keeps own).2.2 a (Ne.symm other)]
      exact tracks) trivial

/-! ### Channel status (R586, R587) -/

/-- A professional block with a wrong CRC. -/
def badCs (l : List Byte) : Bool := (l.getD 0 0).getLsbD 0 && decide ((l.getD 23 0).toNat ≠ csCrc l)

theorem csRegs_free (n : Fin 8) : (Reg.AES_RX_STATUS_CRC_ERR n).FreeOf anyCandidateRegs ∧
    (Reg.AES_RX_STATUS_CRC_ERR n).key ≠ (Reg.AES_RX_ERR_CNT_CRC n).key ∧
    (Reg.AES_RX_STATUS_CRC_ERR n).key ≠ (Reg.AES_RX_STATUS_CONSUMER n).key ∧
    (Reg.AES_RX_STATUS_CRC_ERR n).key ≠ (Reg.AES_RX_STATUS_CS_CHANGED n).key ∧
    (Reg.AES_RX_STATUS_CONSUMER n).key ≠ (Reg.AES_RX_STATUS_CS_CHANGED n).key ∧
    (Reg.AES_RX_STATUS_CONSUMER n).FreeOf anyCandidateRegs := by decide +revert

theorem State.takeCs_fst (s : State) (n sub : Nat) (l : List Byte) : (s.takeCs n sub l).1 = if badCs l = true then
    ((s.set (Reg.AES_RX_STATUS_CRC_ERR n)).bump (Reg.AES_RX_ERR_CNT_CRC n)).loseAes n
  else ({ s with audio := { s.audio with capture := Tab.put 0 s.audio.capture (2 * n + sub) (bytesToNat (l.take 24)) } }).putBit
    (Reg.AES_RX_STATUS_CONSUMER n) (!(l.getD 0 0).getLsbD 0) := by
  unfold State.takeCs badCs
  dsimp only
  split <;> dsimp only

/-- A block that is not captured only counts. -/
theorem State.takeCs_bad (s : State) (n : Fin 8) (sub : Nat) {l : List Byte} (bad : badCs l = true) : let t := (s.takeCs n sub l).1
    t.units = s.units ∧ t.audio = s.audio ∧ t.bit (Reg.AES_RX_STATUS_CRC_ERR n) = true := by
  obtain ⟨free, apart, -⟩ := csRegs_free n
  have lose := ShowsOnly.disqualifyAll ((s.set (Reg.AES_RX_STATUS_CRC_ERR n)).bump (Reg.AES_RX_ERR_CNT_CRC n))
    fun u m k => u.get (Reg.CLK_MPLL_CAND_SRC m k) == 3 && u.get (Reg.CLK_MPLL_CAND_SEL m k) == n
  rw [State.takeCs_fst, if_pos bad]
  refine ⟨lose.units.trans (by simp), lose.audio.trans (by simp), (lose.bit free).trans ?_⟩
  rw [State.bit, State.get_bump_ne _ apart]
  exact State.bit_set_same s rfl

/-- Any other block is captured whole. -/
theorem State.takeCs_good (s : State) (n : Fin 8) (sub : Nat) {l : List Byte} (good : badCs l = false) : let t := (s.takeCs n sub l).1
    t.units = s.units ∧ t.audio.capture = Tab.put 0 s.audio.capture (2 * n + sub) (bytesToNat (l.take 24)) ∧
      t.bit (Reg.AES_RX_STATUS_CRC_ERR n) = s.bit (Reg.AES_RX_STATUS_CRC_ERR n) ∧
      t.bit (Reg.AES_RX_STATUS_CONSUMER n) = !(l.getD 0 0).getLsbD 0 := by
  obtain ⟨-, -, apart, -⟩ := csRegs_free n
  rw [State.takeCs_fst, if_neg (Bool.eq_false_iff.1 good)]
  exact ⟨rfl, rfl, State.bit_put_ne _ apart _, State.bit_putBit_same _ rfl _⟩

/-- What a block leaves of the other subframe, and of an error already shown. -/
theorem State.takeCs_keeps (s : State) (n : Fin 8) (sub : Nat) (l : List Byte) : let t := (s.takeCs n sub l).1
    t.units = s.units ∧ (∀ k, k ≠ 2 * n + sub → Tab.get 0 t.audio.capture k = Tab.get 0 s.audio.capture k) ∧
      (s.bit (Reg.AES_RX_STATUS_CRC_ERR n) = true → t.bit (Reg.AES_RX_STATUS_CRC_ERR n) = true) := by
  cases block : badCs l with
  | true =>
    obtain ⟨units, audio, err⟩ := s.takeCs_bad n sub block
    exact ⟨units, fun k _ => by rw [audio], fun _ => err⟩
  | false =>
    obtain ⟨units, capture, err, -⟩ := s.takeCs_good n sub block
    exact ⟨units, fun k other => by rw [capture, Tab.get_put_ne 0 _ other], fun shown => err.trans shown⟩

theorem badCs_consumer {l : List Byte} (consumer : (l.getD 0 0).getLsbD 0 = false) : badCs l = false := by
  rw [badCs, consumer, Bool.false_and]

theorem badCs_professional {l : List Byte} (professional : (l.getD 0 0).getLsbD 0 = true) (crc : (l.getD 23 0).toNat ≠ csCrc l) :
    badCs l = true := by
  rw [badCs, professional, decide_eq_true crc, Bool.and_true]

/-- Both subframes' blocks of a receiver. -/
def State.takeBlocks (s : State) (n : Nat) (a b : List Byte) : State := ((s.takeCs n 0 a).1.takeCs n 1 b).1

theorem exec_aesCsBlock (n : Fin 8) (a b : List Byte) (locked : s.get (Reg.AES_RX_STATUS_LOCK n) ≠ 0) :
    ∃ body, exec (.aesCsBlock n a b) s =
        .next (((s.takeBlocks n a b).set (Reg.AES_RX_STATUS_CS_CHANGED n)).postNow .other none 0x0122 body) ∨
      exec (.aesCsBlock n a b) s = .next (s.takeBlocks n a b) := by
  show ∃ body, execAesCsBlock n a b s = _ ∨ execAesCsBlock n a b s = _
  unfold execAesCsBlock
  rw [if_neg locked]
  dsimp only
  split
  · exact ⟨_, .inl rfl⟩
  · exact ⟨[], .inr rfl⟩

theorem State.takeBlocks_shows (s : State) (n : Fin 8) (a b : List Byte) : let t := s.takeBlocks n a b
    t.units = s.units ∧
      ((a.getD 0 0).getLsbD 0 = false → Tab.get 0 t.audio.capture (2 * n) = bytesToNat (a.take 24)) ∧
      ((b.getD 0 0).getLsbD 0 = false → Tab.get 0 t.audio.capture (2 * n + 1) = bytesToNat (b.take 24) ∧
        t.bit (Reg.AES_RX_STATUS_CONSUMER n) = true) ∧
      ((a.getD 0 0).getLsbD 0 = true → (a.getD 23 0).toNat ≠ csCrc a → t.bit (Reg.AES_RX_STATUS_CRC_ERR n) = true ∧
        Tab.get 0 t.audio.capture (2 * n) = Tab.get 0 s.audio.capture (2 * n)) := by
  obtain ⟨units, -, -⟩ := s.takeCs_keeps n 0 a
  obtain ⟨units', other, kept⟩ := (s.takeCs n 0 a).1.takeCs_keeps n 1 b
  refine ⟨units'.trans units, fun consumer => ?_, fun consumer => ?_, fun professional crc => ?_⟩
  · obtain ⟨-, capture, -, -⟩ := s.takeCs_good n 0 (badCs_consumer consumer)
    refine (other _ (by omega)).trans ?_
    rw [capture]
    exact Tab.get_put_same ..
  · obtain ⟨-, capture, -, shown⟩ := (s.takeCs n 0 a).1.takeCs_good n 1 (badCs_consumer consumer)
    exact ⟨(congrArg (Tab.get 0 · (2 * n + 1)) capture).trans (Tab.get_put_same ..), shown.trans (by rw [consumer]; rfl)⟩
  · obtain ⟨-, audio, err⟩ := s.takeCs_bad n 0 (badCs_professional professional crc)
    exact ⟨kept err, (other _ (by omega)).trans (by rw [audio])⟩

theorem exec_aesCsBlock_shows {n : Fin 8} (a b : List Byte) (locked : s.get (Reg.AES_RX_STATUS_LOCK n) ≠ 0) :
    ∃ t, exec (.aesCsBlock n a b) s = .next t ∧ t.units = s.units ∧
      ((a.getD 0 0).getLsbD 0 = false → Tab.get 0 t.audio.capture (2 * n) = bytesToNat (a.take 24)) ∧
      ((b.getD 0 0).getLsbD 0 = false → Tab.get 0 t.audio.capture (2 * n + 1) = bytesToNat (b.take 24) ∧
        t.bit (Reg.AES_RX_STATUS_CONSUMER n) = true) ∧
      ((a.getD 0 0).getLsbD 0 = true → (a.getD 23 0).toNat ≠ csCrc a → t.bit (Reg.AES_RX_STATUS_CRC_ERR n) = true ∧
        Tab.get 0 t.audio.capture (2 * n) = Tab.get 0 s.audio.capture (2 * n)) := by
  obtain ⟨body, changed | same⟩ := exec_aesCsBlock n a b locked
  · obtain ⟨free, -, -, err, consumer, free'⟩ := csRegs_free n
    refine ⟨_, changed, ?_⟩
    have bits {f : Fld} (lo : f.lo < 32) (out : f.outsideHost) (apart : f.key ≠ (Reg.AES_RX_STATUS_CS_CHANGED n).key) :
        (((s.takeBlocks n a b).set (Reg.AES_RX_STATUS_CS_CHANGED n)).postNow .other none 0x0122 body).bit f =
          (s.takeBlocks n a b).bit f := by
      rw [State.bit, State.get_postNow _ _ _ _ _ _ lo out, State.set, State.get_put_ne _ apart]
      rfl
    rw [bits free.1 free.2.1 err, bits free'.1 free'.2.1 consumer, State.postNow_audio, State.set_audio, State.postNow_units,
      State.set_units]
    exact s.takeBlocks_shows n a b
  · exact ⟨_, same, s.takeBlocks_shows n a b⟩

/-- The snapshot of one word of each capture. -/
def State.snapWord (n : Nat) (cs : AudioSt) (k : Nat) (t : State) : State :=
  (t.put (Reg.AES_RX_CS_A_BYTES n k) (Tab.get 0 cs.capture (2 * n) / 2 ^ (32 * k))).put
    (Reg.AES_RX_CS_B_BYTES n k) (Tab.get 0 cs.capture (2 * n + 1) / 2 ^ (32 * k))

theorem snap_apart (n : Fin 8) (j k : Fin 6) : (Reg.AES_RX_CS_A_BYTES n k).key ≠ (Reg.AES_RX_CS_B_BYTES n j).key ∧
    (Reg.AES_RX_CS_B_BYTES n k).key ≠ (Reg.AES_RX_CS_A_BYTES n j).key ∧
    (j ≠ k → (Reg.AES_RX_CS_A_BYTES n k).key ≠ (Reg.AES_RX_CS_A_BYTES n j).key ∧
      (Reg.AES_RX_CS_B_BYTES n k).key ≠ (Reg.AES_RX_CS_B_BYTES n j).key) := by decide +revert

theorem exec_aesRxCsSnap {n : Fin 8} (host : s.hostUp = true) : ∃ t, exec (.aesRxCsSnap n) s = .next t ∧ t.audio = s.audio ∧
    t.units = s.units ∧ ∀ k < 6, t.get (Reg.AES_RX_CS_A_BYTES n k) = Tab.get 0 s.audio.capture (2 * n) / 2 ^ (32 * k) % 2 ^ 32 ∧
      t.get (Reg.AES_RX_CS_B_BYTES n k) = Tab.get 0 s.audio.capture (2 * n + 1) / 2 ^ (32 * k) % 2 ^ 32 := by
  have same := State.each_keeps (fun t => t.audio = s.audio ∧ t.units = s.units) (State.snapWord n s.audio) (fun _ _ kept => kept) s
    (List.range 6) ⟨rfl, rfl⟩
  refine ⟨s.each (List.range 6) (State.snapWord n s.audio), if_pos host, same.1, same.2, fun k lt => ?_⟩
  refine State.each_brings (fun _ => True) (fun t => t.get (Reg.AES_RX_CS_A_BYTES n k) = _ ∧ t.get (Reg.AES_RX_CS_B_BYTES n k) = _) _
    List.nodup_range (List.mem_range.2 lt) (fun _ _ _ _ _ => trivial) (fun t _ => ?_) (fun j mem other t ⟨first, second⟩ => ?_) trivial
  · exact ⟨(State.get_put_ne _ (snap_apart n ⟨k, lt⟩ ⟨k, lt⟩).1 _).trans (State.get_put_same ..), State.get_put_same ..⟩
  · obtain ⟨ab, ba, apart⟩ := snap_apart n ⟨j, List.mem_range.1 mem⟩ ⟨k, lt⟩
    obtain ⟨aa, bb⟩ := apart fun eq => other (congrArg Fin.val eq)
    exact ⟨((State.get_put_ne _ ab _).trans (State.get_put_ne _ aa _)).trans first,
      ((State.get_put_ne _ bb _).trans (State.get_put_ne _ ba _)).trans second⟩

/-! ### AES3 transmitters (R590, R592) -/

theorem exec_aesTxStart (n : Fin 8) (s : State) : exec (.aesTxStart n) s = .next
    (if s.aesBlockIn n = true ∧ s.bit (Reg.AES_TX_CTL_EN n) = true then s.put (Reg.AES_TX_STATUS_RUNNING n) 1 else s) := by
  show execAesTxStart n s = _
  rw [execAesTxStart]
  exact congrArg _ (if_congr (by simp) rfl rfl)

/-- A transmitter that has adopted its staged templates. -/
def State.adopt (s : State) (n : Nat) : State :=
  let s1 : State := { s with audio := { s.audio with
    active := Tab.put 0 (Tab.put 0 s.audio.active (2 * n) (sentTemplate (s.staging n 0))) (2 * n + 1) (sentTemplate (s.staging n 1)) } }
  s1.put (Reg.AES_TX_STATUS_PENDING n) 0

theorem exec_aesTxBlockStart (n : Fin 8) (s : State) : exec (.aesTxBlockStart n) s = .next
    (if s.aesBlockIn n = true ∧ s.bit (Reg.AES_TX_STATUS_RUNNING n) = true ∧ s.bit (Reg.AES_TX_STATUS_PENDING n) = true
      then s.adopt n else s) := by
  show execAesTxBlockStart n s = _
  rw [execAesTxBlockStart, apply_ite Host.Outcome.next]
  exact if_congr (by simp [and_assoc]) rfl rfl

theorem State.adopt_shows (s : State) (n : Fin 8) : let t := s.adopt n
    t.bit (Reg.AES_TX_STATUS_PENDING n) = false ∧ t.units = s.units ∧
      Tab.get 0 t.audio.active (2 * n) = sentTemplate (s.staging n 0) ∧
      Tab.get 0 t.audio.active (2 * n + 1) = sentTemplate (s.staging n 1) := by
  refine ⟨State.bit_put_same _ rfl 0, rfl, ?_, ?_⟩
  · simp [State.adopt, Tab.get_put]
  · simp [State.adopt]

end Sys2Proof.Machine

namespace Sys2Proof.Machine

/-- Settles O48: ports, the ASRC bank and AES3, one lemma per command and case. -/
theorem portsAesAndAsrc : Obligations.PortsAesAndAsrc := by
  unfold Obligations.PortsAesAndAsrc
  refine ⟨fun p s => ⟨fun en stands fs => ?_, fun not => ?_, fun off runs => ?_, fun not => ?_⟩,
    fun p k m s => ⟨fun may out => ?_, fun may input => ?_, fun not => ⟨?_, ?_⟩⟩, exec_aportFramingError,
    fun p s mark input pair runs => ?_, fun p s not => ?_,
    fun n r q s => ⟨exec_aesRxLock_shows, fun not => ?_, exec_aesRxLockLoss_shows, fun none_ => ?_⟩,
    fun n a b s locked => exec_aesCsBlock_shows a b locked, fun n a b s none_ => ?_, fun n s => exec_aesRxCsSnap,
    fun n s => ⟨fun host => ?_, fun inside en => ?_, fun not => ?_, fun inside runs pends => ?_, fun not => ?_⟩,
    fun a q s => ⟨fun none_ => ⟨exec_asrcNarrow_none none_, exec_asrcRelease_none none_, exec_asrcRetrack_none none_⟩,
      fun x channel inside => ⟨exec_asrcNarrow channel, fun held narrow =>
        ⟨_, exec_asrcRelease channel held narrow, State.releaseAsrc_shows channel inside⟩,
      exec_asrcRelease_not channel, exec_asrcRetrack channel inside, exec_asrcRestart channel⟩⟩⟩
  · exact ⟨_, (exec_aportStart p s).trans (congrArg _ (if_pos ⟨en, stands, (s.portClocked_iff p).2 fs⟩)), s.startPort_shows p⟩
  · rw [exec_aportStart, if_neg]
    rintro ⟨en, stands, fs⟩
    rw [s.portClocked_iff] at fs
    simp_all
  · rw [exec_aportStop, if_pos ⟨runs, off⟩]
  · rw [exec_aportStop, if_neg]
    rintro ⟨runs, off⟩
    simp_all
  · obtain ⟨units, shown, count, phase, -⟩ := s.xrun_shows p k m 1 (cause := Reg.APORT_P_STATUS_UNDERRUN p) (by simp)
    exact ⟨_, (exec_aportUnderrun p k m s).trans (congrArg _ (if_pos ⟨may, out⟩)), units, shown, count, phase out⟩
  · obtain ⟨units, shown, count, -, mix⟩ := s.xrun_shows p k m 2 (cause := Reg.APORT_P_STATUS_OVERRUN p) (by simp)
    exact ⟨_, (exec_aportOverrun p k m s).trans (congrArg _ (if_pos ⟨may, input⟩)), units, mix input, shown, count⟩
  · rw [exec_aportUnderrun, if_neg (by simp [not])]
  · rw [exec_aportOverrun, if_neg (by simp [not])]
  · exact ⟨_, (exec_pairSwapDetect p s).trans (congrArg _ (if_pos ⟨mark, input, pair, runs⟩)), s.pairSwap_shows p⟩
  · rw [exec_pairSwapDetect, if_neg]
    rintro ⟨mark, input, pair, runs⟩
    simp_all
  · rw [exec_aesRxLock, if_neg]
    simp only [Bool.and_eq_true, decide_eq_true_eq, not_and_or, Bool.not_eq_true, Nat.not_lt]
    exact not
  · rw [exec_aesRxLockLoss, if_neg (Nat.not_le.2 none_)]
  · exact if_pos none_
  · exact if_pos host
  · rw [exec_aesTxStart, if_pos ⟨inside, en⟩]
  · rw [exec_aesTxStart, if_neg]
    rintro ⟨inside, en⟩
    simp_all
  · exact ⟨_, (exec_aesTxBlockStart n s).trans (congrArg _ (if_pos ⟨inside, runs, pends⟩)), s.adopt_shows n⟩
  · rw [exec_aesTxBlockStart, if_neg]
    rintro ⟨inside, runs, pends⟩
    simp_all

end Sys2Proof.Machine
end

