-- ==== Sys2Proof/Proofs/HubFrames.lean ====
section
/-! SUPPORT. The converter chains of the hub and its events: what a chain reads after a chain is written, and what an event leaves. -/

namespace Sys2Proof.Machine

variable {s t : State}

theorem State.conv_of_huba (adc : t.huba.adc = s.huba.adc) (dac : t.huba.dac = s.huba.dac) (c : Nat) : t.conv c = s.conv c := by
  unfold State.conv
  rw [adc, dac]

@[simp] theorem State.conv_put (s : State) (f : Fld) (v c : Nat) : (s.put f v).conv c = s.conv c := rfl
@[simp] theorem State.conv_set (s : State) (f : Fld) (c : Nat) : (s.set f).conv c = s.conv c := rfl
@[simp] theorem State.conv_putBit (s : State) (f : Fld) (b : Bool) (c : Nat) : (s.putBit f b).conv c = s.conv c := rfl
@[simp] theorem State.conv_bump (s : State) (f : Fld) (c : Nat) : (s.bump f).conv c = s.conv c := rfl

@[simp] theorem State.conv_setConv_same (s : State) (c : Nat) (x : ConvCh) : (s.setConv c x).conv c = x := by
  unfold State.conv State.setConv State.modHuba
  by_cases adc : c < 2 <;> simp [adc]

theorem State.conv_setConv_ne (s : State) {c d : Nat} (other : d ≠ c) (x : ConvCh) : (s.setConv c x).conv d = s.conv d := by
  unfold State.conv State.setConv State.modHuba
  by_cases adc : c < 2 <;> by_cases adc' : d < 2 <;> simp [adc, adc', Tab.get_put, other]
  omega

@[simp] theorem State.setConv_regs (s : State) (c : Nat) (x : ConvCh) : (s.setConv c x).regs = s.regs := rfl
@[simp] theorem State.setConv_units (s : State) (c : Nat) (x : ConvCh) : (s.setConv c x).units = s.units := rfl
@[simp] theorem State.get_setConv (s : State) (c : Nat) (x : ConvCh) (f : Fld) : (s.setConv c x).get f = s.get f := rfl
@[simp] theorem State.bit_setConv (s : State) (c : Nat) (x : ConvCh) (f : Fld) : (s.setConv c x).bit f = s.bit f := rfl
@[simp] theorem State.removing_setConv (s : State) (c : Nat) (x : ConvCh) : (s.setConv c x).huba.removing = s.huba.removing := by
  unfold State.setConv State.modHuba
  dsimp only
  split <;> rfl
@[simp] theorem State.hpBias_setConv (s : State) (c : Nat) (x : ConvCh) : (s.setConv c x).huba.hpBias = s.huba.hpBias := by
  unfold State.setConv State.modHuba
  dsimp only
  split <;> rfl

@[simp] theorem State.modHuba_regs (s : State) (f : HubaSt → HubaSt) : (s.modHuba f).regs = s.regs := rfl
@[simp] theorem State.modHuba_units (s : State) (f : HubaSt → HubaSt) : (s.modHuba f).units = s.units := rfl
@[simp] theorem State.get_modHuba (s : State) (f : HubaSt → HubaSt) (g : Fld) : (s.modHuba f).get g = s.get g := rfl
@[simp] theorem State.bit_modHuba (s : State) (f : HubaSt → HubaSt) (g : Fld) : (s.modHuba f).bit g = s.bit g := rfl

/-- `t` differs from `s` only by an event of the hub: in what the host interface holds and in when the event was last posted. -/
structure HubEvent (s t : State) : Prop where
  regs : WritesOnly [] s t
  units : t.units = s.units
  doms : t.doms = s.doms
  adc : t.huba.adc = s.huba.adc
  dac : t.huba.dac = s.huba.dac
  ps : t.huba.ps = s.huba.ps
  removing : t.huba.removing = s.huba.removing
  hpBias : t.huba.hpBias = s.huba.hpBias

namespace HubEvent

theorem refl (s : State) : HubEvent s s := ⟨.refl, rfl, rfl, rfl, rfl, rfl, rfl, rfl⟩

theorem trans {u : State} (a : HubEvent s t) (b : HubEvent t u) : HubEvent s u :=
  ⟨a.regs.trans b.regs, b.units.trans a.units, b.doms.trans a.doms, b.adc.trans a.adc, b.dac.trans a.dac, b.ps.trans a.ps,
    b.removing.trans a.removing, b.hpBias.trans a.hpBias⟩

theorem hubaEvent (s : State) (cls : EvClass) (code key : Nat) (body : List Nat) : HubEvent s (s.hubaEvent cls code key body) := by
  unfold State.hubaEvent
  dsimp only
  split
  · exact .refl s
  · have post := SameButHost.postNow (s.modHuba fun h =>
      { h with eventAt := Tab.put 0 h.eventAt (code % 16 * 256 + key) ((s.dom 0).si + 1) }) cls none code body
    exact ⟨WritesOnly.trans (.of_regs (State.modHuba_regs ..)) (.host post), post.units, post.doms, (congrArg HubaSt.adc post.huba :),
      (congrArg HubaSt.dac post.huba :), (congrArg HubaSt.ps post.huba :), (congrArg HubaSt.removing post.huba :),
        (congrArg HubaSt.hpBias post.huba :)⟩

theorem each {α : Type} {xs : List α} {f : α → State → State} (h : ∀ x t, HubEvent t (f x t)) : HubEvent s (s.each xs f) :=
  State.each_keeps (HubEvent s) f (fun x t kept => kept.trans (h x t)) s xs (refl s)

theorem conv (h : HubEvent s t) (c : Nat) : t.conv c = s.conv c := State.conv_of_huba h.adc h.dac c

theorem get (h : HubEvent s t) {f : Fld} (free : f.FreeOf []) : t.get f = s.get f := h.regs f free
theorem bit (h : HubEvent s t) {f : Fld} (free : f.FreeOf []) : t.bit f = s.bit f := h.regs.bit free

end HubEvent

/-- What the samples of the converters' domain are counted by. -/
theorem State.conv2ms_of (regs : t.regs = s.regs) (doms : t.doms = s.doms) : t.conv2ms = s.conv2ms := by
  unfold State.conv2ms State.samplesMs State.samples State.convDom State.dom
  rw [State.get_of_regs regs, doms]

end Sys2Proof.Machine
end

