-- ==== Sys2Proof/Proofs/Converters.lean ====
section
/-! PROOF. Converter chains start, settle and stop; ranges step with their compensation; jacks and buttons show (R606–R614). -/

namespace Sys2Proof.Machine

variable {s t : State}

/-- An engine whose host interface answers and whose settings are restored. -/
theorem State.ifRestored_of (host : s.hostUp = true) (restored : s.bit Reg.GLOBAL_RESTORE_DONE = true) (off : Nat) (change : Bool)
    (o : Out) :
    s.ifRestored off change o = o := by
  rw [State.ifRestored, State.ifHost, if_pos host, if_pos restored]

/-! ### A chain's own steps (R606) -/

theorem State.conv_unsettle (s : State) (c : Nat) : (s.unsettle c).conv c = { s.conv c with settled := none, gate := {} } :=
  s.conv_setConv_same c _

theorem State.unsettle_units (s : State) (c : Nat) : (s.unsettle c).units = s.units := rfl

theorem State.convTakeover_open {c : Nat} (t : Nat) (gate : (s.conv c).running = false ∨ (s.conv c).gate.down = false) :
    s.convTakeover c t = s := by
  unfold State.convTakeover
  rcases gate with stopped | open_ <;> simp [*]

theorem convRegs_apart (c : Fin 4) : (convPreset c).key ≠ (convEn c).key ∧ (convPreset c).key ≠ (convSettled c).key ∧
    (convPreset c).key ≠ Reg.HUBA_STATUS_CFG_REJ.key ∧ (convEn c).key ≠ (convSettled c).key ∧
    Reg.HUBA_STATUS_CFG_REJ.key ≠ (convEn c).key ∧ Reg.HUBA_STATUS_CFG_REJ.key ≠ (convSettled c).key ∧ (convEn c).w = 1 ∧
    (convSettled c).w = 1 ∧ (convSettled c).FreeOf [] ∧ (convPreset c).w = 2 := by decide +revert

/-- The registers of a chain that EN is written to, a reserved preset being refused. -/
def State.convWritten (s : State) (c : Nat) (en : Bool) (p : Nat) : State :=
  (if p = 3 then s.set Reg.HUBA_STATUS_CFG_REJ else s.put (convPreset c) p).putBit (convEn c) en

theorem State.convWritten_keeps (s : State) (c : Nat) (en : Bool) (p : Nat) : (s.convWritten c en p).units = s.units ∧
    ∀ d, (s.convWritten c en p).conv d = s.conv d := by
  unfold State.convWritten
  split <;> exact ⟨rfl, fun _ => rfl⟩

theorem State.convWritten_en (s : State) (c : Fin 4) (en : Bool) (p : Nat) : (s.convWritten c en p).bit (convEn c) = en :=
  State.bit_putBit_same _ (convRegs_apart c).2.2.2.2.2.2.1 en

theorem State.convWritten_preset (s : State) (c p : Fin 4) (en : Bool) (fit : p ≠ 3) :
    (s.convWritten c en p).get (convPreset c) = p := by
  obtain ⟨apart, -, -, -, -, -, -, -, -, width⟩ := convRegs_apart c
  rw [State.convWritten, if_neg (show ¬p.val = 3 from fun eq => fit (Fin.ext eq)), State.putBit, State.get_put_ne _ apart]
  exact State.get_put_lt _ _ _ (by rw [width]; omega)

theorem State.convWritten_reserved (s : State) (c : Fin 4) (en : Bool) : (s.convWritten c en 3).bit Reg.HUBA_STATUS_CFG_REJ = true ∧
    (s.convWritten c en 3).get (convPreset c) = s.get (convPreset c) := by
  obtain ⟨apart, -, apart', -, rej, -⟩ := convRegs_apart c
  rw [State.convWritten, if_pos rfl, State.putBit, State.bit_put_ne _ rej, State.get_put_ne _ apart, State.set, State.get_put_ne _ apart']
  exact ⟨State.bit_set_same s rfl, rfl⟩

/-- What EN of a chain does once its registers are written: it starts, takes a new preset at zero, stops, or stands with its preset. -/
def State.convObey (s2 : State) (c : Nat) (en : Bool) (n t : Nat) : State :=
  let p := s2.get (convPreset c)
  let x := s2.conv c
  if en then
    if x.running && !x.stopping then
      if p = x.newPreset.getD x.preset then s2
      else s2.setConv c { x with newPreset := some p, gate := gateTo x.gate true n t }
    else (s2.setConv c { x with running := true, stopping := false, preset := p, newPreset := none }).unsettle c
  else if x.running then s2.setConv c { x with stopping := true, gate := gateTo x.gate true n t }
  else s2.setConv c { x with preset := p }

section
variable {c p : Fin 4} {en : Bool} {k : Nat} (host : s.hostUp = true) (restored : s.bit Reg.GLOBAL_RESTORE_DONE = true)
include host restored

theorem exec_convEnWrite : exec (.convEnWrite c en p k) s =
    .next (((s.convTakeover c (s.convSi k)).convWritten c en p).convObey c en s.conv2ms (s.convSi k)) := by
  show execConvEnWrite c en p k s = _
  rw [execConvEnWrite, State.ifRestored_of host restored]
  unfold State.convObey
  simp only [apply_ite Host.Outcome.next]
  rfl

end

/-- A chain that obeys EN leaves the units and its own preset and rejection registers. -/
theorem State.convObey_keeps (s : State) (c : Fin 4) (en : Bool) (n t : Nat) : (s.convObey c en n t).units = s.units ∧
    ∀ f, f.key ≠ (convSettled c).key → (s.convObey c en n t).get f = s.get f := by
  have stays (x : ConvCh) (f : Fld) (apart : f.key ≠ (convSettled c).key) : ((s.setConv c x).unsettle c).get f = s.get f :=
    State.get_put_ne _ apart 0
  unfold State.convObey
  dsimp only
  split
  · split
    · split
      · exact ⟨rfl, fun _ _ => rfl⟩
      · exact ⟨rfl, fun _ _ => rfl⟩
    · exact ⟨rfl, stays _⟩
  · split <;> exact ⟨rfl, fun _ _ => rfl⟩

theorem State.convTakeover_get (s : State) (c n : Nat) {f : Fld} (apart : f.key ≠ (convSettled c).key) :
    (s.convTakeover c n).get f = s.get f := by
  have stays (x : ConvCh) : ((s.setConv c x).unsettle c).get f = s.get f := State.get_put_ne _ apart 0
  unfold State.convTakeover
  dsimp only
  split
  · split
    · exact stays _
    · split
      · exact stays _
      · rfl
  · rfl

section
variable {c p : Fin 4} {k : Nat} (host : s.hostUp = true) (restored : s.bit Reg.GLOBAL_RESTORE_DONE = true)
include host restored

theorem exec_convEnWrite_reserved {en : Bool} (reserved : p = 3) : ∃ t, exec (.convEnWrite c en p k) s = .next t ∧
    t.bit Reg.HUBA_STATUS_CFG_REJ = true ∧ t.get (convPreset c) = s.get (convPreset c) := by
  obtain ⟨-, settled, -, -, -, rej, -⟩ := convRegs_apart c
  subst reserved
  obtain ⟨shown, preset⟩ := (s.convTakeover c (s.convSi k)).convWritten_reserved c en
  obtain ⟨-, kept⟩ := State.convObey_keeps ((s.convTakeover c (s.convSi k)).convWritten c en 3) c en s.conv2ms (s.convSi k)
  refine ⟨_, exec_convEnWrite host restored, ?_, ?_⟩
  · rw [State.bit]
    exact (congrArg (· % 2 == 1) (kept _ rej)).trans shown
  · exact ((kept _ settled).trans preset).trans (s.convTakeover_get c _ settled)

theorem exec_convEnWrite_starts (fit : p ≠ 3) (stands : (s.conv c).running = false) : ∃ t, exec (.convEnWrite c true p k) s = .next t ∧
    t.bit (convEn c) = true ∧ t.get (convPreset c) = p ∧ t.bit (convSettled c) = false ∧ t.units = s.units ∧
    t.conv c = { s.conv c with running := true, stopping := false, preset := p, newPreset := none, settled := none, gate := {} } := by
  obtain ⟨-, settled, -, en, -, -, -, narrow, -⟩ := convRegs_apart c
  obtain ⟨units, conv⟩ := s.convWritten_keeps c true p
  have preset := s.convWritten_preset c p true fit
  have obeys : (s.convWritten c true p).convObey c true s.conv2ms (s.convSi k) = ((s.convWritten c true p).setConv c
      { s.conv c with running := true, stopping := false, preset := p, newPreset := none }).unsettle c := by
    simp [State.convObey, conv, preset, stands]
  refine ⟨_, (exec_convEnWrite host restored).trans (by rw [s.convTakeover_open _ (.inl stands), obeys]), ?_, ?_, ?_, ?_, ?_⟩
  · exact (State.bit_put_ne _ en 0).trans (s.convWritten_en c true p)
  · exact (State.get_put_ne _ settled 0).trans preset
  · exact State.bit_put_same _ narrow 0
  · exact (State.unsettle_units ..).trans units
  · rw [State.conv_unsettle, State.conv_setConv_same]

theorem exec_convEnWrite_presets (fit : p ≠ 3) (runs : (s.conv c).running = true) (stays : (s.conv c).stopping = false)
    (open_ : (s.conv c).gate.down = false) (new : p.val ≠ (s.conv c).newPreset.getD (s.conv c).preset) :
    ∃ t, exec (.convEnWrite c true p k) s = .next t ∧ t.units = s.units ∧
      t.conv c = { s.conv c with newPreset := some p.val, gate := gateTo (s.conv c).gate true s.conv2ms (s.convSi k) } := by
  obtain ⟨units, conv⟩ := s.convWritten_keeps c true p
  have obeys : (s.convWritten c true p).convObey c true s.conv2ms (s.convSi k) = (s.convWritten c true p).setConv c
      { s.conv c with newPreset := some p.val, gate := gateTo (s.conv c).gate true s.conv2ms (s.convSi k) } := by
    simp [State.convObey, conv, s.convWritten_preset c p true fit, runs, stays, new]
  exact ⟨_, (exec_convEnWrite host restored).trans (by rw [s.convTakeover_open _ (.inr open_), obeys]),
    (State.setConv_units ..).trans units,
    State.conv_setConv_same ..⟩

theorem exec_convEnWrite_stops (runs : (s.conv c).running = true) (open_ : (s.conv c).gate.down = false) :
    ∃ t, exec (.convEnWrite c false p k) s = .next t ∧ t.bit (convEn c) = false ∧
      t.conv c = { s.conv c with stopping := true, gate := gateTo (s.conv c).gate true s.conv2ms (s.convSi k) } ∧ t.units = s.units := by
  obtain ⟨units, conv⟩ := s.convWritten_keeps c false p
  have obeys : (s.convWritten c false p).convObey c false s.conv2ms (s.convSi k) = (s.convWritten c false p).setConv c
      { s.conv c with stopping := true, gate := gateTo (s.conv c).gate true s.conv2ms (s.convSi k) } := by
    simp [State.convObey, conv, runs]
  refine ⟨_, (exec_convEnWrite host restored).trans (by rw [s.convTakeover_open _ (.inr open_), obeys]), ?_, ?_, ?_⟩
  · exact s.convWritten_en c false p
  · exact State.conv_setConv_same ..
  · exact (State.setConv_units ..).trans units

end

/-- A chain with its gate open settles once. -/
theorem exec_chainSettled {c : Fin 4} {k : Nat} (gate : (s.conv c).running = false ∨ (s.conv c).gate.down = false) :
    exec (.chainSettled c k) s = .next (if ((s.conv c).running && (s.conv c).settled.isNone) = true then
      ((s.setConv c { s.conv c with settled := some (s.convSi k) }).set (convSettled c)).convEvent c 1 else s) := by
  show execChainSettled c k s = _
  rw [execChainSettled, s.convTakeover_open _ gate, apply_ite Host.Outcome.next]

theorem exec_chainSettled_shows {c : Fin 4} {k : Nat} (runs : (s.conv c).running = true) (open_ : (s.conv c).gate.down = false)
    (unsettled : (s.conv c).settled = none) : ∃ t, exec (.chainSettled c k) s = .next t ∧
      t.conv c = { s.conv c with settled := some (s.convSi k) } ∧ t.bit (convSettled c) = true ∧ t.units = s.units := by
  obtain ⟨-, -, -, -, -, -, -, narrow, free, -⟩ := convRegs_apart c
  have event := HubEvent.hubaEvent ((s.setConv c { s.conv c with settled := some (s.convSi k) }).set (convSettled c)) .other 0x0133
    (8 * c + 1) [c / 2, c % 2, 1]
  refine ⟨_, (exec_chainSettled (.inr open_)).trans (congrArg _ (if_pos (by simp [runs, unsettled]))), ?_, ?_, ?_⟩
  · exact (event.conv c).trans (by simp)
  · exact (event.bit free).trans (State.bit_set_same _ narrow)
  · exact event.units.trans (by simp)

/-! ### The preamplifier (R608–R610) -/

theorem rangeRegs_apart (n : Fin 2) : (Reg.HUBA_ADC_STATUS_RANGE n).key ≠ (Reg.HUBA_ADC_CTL_RANGE_REQ n).key ∧
    (Reg.HUBA_ADC_CTL_RANGE_REQ n).key ≠ (Reg.HUBA_ADC_STATUS_RAMP_PATH n).key ∧
    (Reg.HUBA_ADC_CTL_RANGE_REQ n).key ≠ (Reg.HUBA_ADC_STATUS_BIG_STEP n).key ∧
    (Reg.HUBA_ADC_STATUS_RANGE n).key ≠ (Reg.HUBA_ADC_STATUS_RAMP_PATH n).key ∧
    (Reg.HUBA_ADC_STATUS_RANGE n).key ≠ (Reg.HUBA_ADC_STATUS_BIG_STEP n).key ∧
    (Reg.HUBA_ADC_STATUS_RAMP_PATH n).key ≠ (Reg.HUBA_ADC_STATUS_BIG_STEP n).key ∧
    (Reg.HUBA_ADC_STATUS_RANGE n).key ≠ (Reg.HUBA_ADC_CNT_RANGE_CNT n).key ∧
    (Reg.HUBA_ADC_CNT_RANGE_CNT n).key ≠ (Reg.HUBA_ADC_STATUS_RANGE n).key ∧
    Reg.HUBA_DOMAIN_CONV_DOM.key ≠ (Reg.HUBA_ADC_CTL_RANGE_REQ n).key := by decide +revert

theorem bigStepRegs_free (n : Fin 2) : ∀ f ∈ [Reg.HUBA_ADC_CTL_RANGE_REQ n, Reg.HUBA_ADC_STATUS_RAMP_PATH n,
    Reg.HUBA_ADC_STATUS_BIG_STEP n, Reg.HUBA_ADC_STATUS_RANGE n], f.FreeOf [] := by decide +revert

/-- R610: the ramp-down path begins, and leaves the range as it is. -/
theorem State.bigStep_shows (s : State) (n : Fin 2) (range t : Nat) : let u := s.bigStep n range t
    u.units = s.units ∧ u.bit (Reg.HUBA_ADC_STATUS_RAMP_PATH n) = true ∧ u.bit (Reg.HUBA_ADC_STATUS_BIG_STEP n) = true ∧
      u.get (Reg.HUBA_ADC_CTL_RANGE_REQ n) = s.get (Reg.HUBA_ADC_CTL_RANGE_REQ n) ∧
      u.get (Reg.HUBA_ADC_STATUS_RANGE n) = s.get (Reg.HUBA_ADC_STATUS_RANGE n) ∧
      u.conv n = { s.conv n with path := some t, pathRange := range, pathDone := false, request := none, stepping := [] } := by
  obtain ⟨-, req, req', range_, range', path, -⟩ := rangeRegs_apart n
  have free := bigStepRegs_free n
  have event := HubEvent.hubaEvent (((s.modConv n fun x => { x with
      path := some t, pathRange := range, pathDone := false, request := none, stepping := [] }).set
      (Reg.HUBA_ADC_STATUS_RAMP_PATH n)).set (Reg.HUBA_ADC_STATUS_BIG_STEP n)) .other 0x0133 (8 * n + 3) [n / 2, n % 2, 3]
  refine ⟨event.units.trans rfl, (event.bit (free _ (by simp))).trans ?_, (event.bit (free _ (by simp))).trans (State.bit_set_same _ rfl),
    (event.get (free _ (by simp))).trans ?_, (event.get (free _ (by simp))).trans ?_, (event.conv n).trans ?_⟩
  · exact (State.bit_put_ne _ path 1).trans (State.bit_set_same _ rfl)
  · exact (State.get_put_ne _ req' 1).trans (State.get_put_ne _ req 1)
  · exact (State.get_put_ne _ range' 1).trans (State.get_put_ne _ range_ 1)
  · exact State.conv_setConv_same ..

theorem State.pathStep_none {n t : Nat} (none_ : (s.conv n).path = none) : s.pathStep n t = s := by
  rw [State.pathStep]
  simp [none_]

theorem State.pathStep_before {n t q : Nat} (path : (s.conv n).path = some q) (before : t < q + s.conv2ms) : s.pathStep n t = s := by
  have early : ¬q + s.conv2ms ≤ t := by omega
  have late (h : Nat) : ¬q + s.conv2ms + h + s.conv2ms ≤ t := by omega
  rw [State.pathStep]
  simp [path, early, late]

theorem State.conv2ms_request (s : State) (n : Fin 2) (r : Nat) : (s.put (Reg.HUBA_ADC_CTL_RANGE_REQ n) r).conv2ms = s.conv2ms := by
  unfold State.conv2ms State.samplesMs State.samples State.convDom
  rw [State.get_put_ne _ (rangeRegs_apart n).2.2.2.2.2.2.2.2]
  rfl

section
variable {n : Fin 2} {r : Fin 32} {k : Nat} (host : s.hostUp = true) (restored : s.bit Reg.GLOBAL_RESTORE_DONE = true)
include host restored

theorem exec_rangeRequest_reserved (reserved : 20 < r.val) : exec (.rangeRequest n r k) s = .next (s.put Reg.HUBA_STATUS_CFG_REJ 1) := by
  show execRangeRequest n r k s = _
  rw [execRangeRequest, State.ifRestored_of host restored, if_pos reserved]
  rfl

end

/-- The compensation after a request passes ±18 dB (R610). -/
def State.requestFar (s : State) (n r k : Nat) : Bool :=
  beyond18 (Fp.sub (compAt (s.conv n) s.conv10ms (s.convSi k - 1))
    (stepLog ((r : Int) - (s.get (Reg.HUBA_ADC_STATUS_RANGE n) : Int) + (s.conv n).stepping.sum))).1

section
variable {n : Fin 2} {r : Fin 32} {k : Nat} (host : s.hostUp = true) (restored : s.bit Reg.GLOBAL_RESTORE_DONE = true)
  (fit : r.val ≤ 20)
include host restored fit

theorem exec_rangeRequest_idle (idle : (s.conv n).path = none) : exec (.rangeRequest n r k) s = .next
    (if s.requestFar n r k = true then (s.put (Reg.HUBA_ADC_CTL_RANGE_REQ n) r).bigStep n r (s.convSi k)
      else (s.put (Reg.HUBA_ADC_CTL_RANGE_REQ n) r).setConv n { s.conv n with request := some r.val }) := by
  have range : (s.put (Reg.HUBA_ADC_CTL_RANGE_REQ n) r).get (Reg.HUBA_ADC_STATUS_RANGE n) = s.get (Reg.HUBA_ADC_STATUS_RANGE n) :=
    State.get_put_ne _ (rangeRegs_apart n).1 _
  show execRangeRequest n r k s = _
  rw [execRangeRequest, State.ifRestored_of host restored, if_neg (Nat.not_lt.2 fit)]
  simp only [State.pathStep_none (s := s.put _ _) idle, State.conv_put, idle, range, Option.isSome_none, Option.isNone_none,
    Bool.false_and, Bool.and_true, Bool.false_eq_true, if_false]
  rw [apply_ite Host.Outcome.next]
  rfl

theorem exec_rangeRequest_pending {q : Nat} (path : (s.conv n).path = some q) (pending : (s.conv n).pathDone = false)
    (before : s.convSi k < q + s.conv2ms) : exec (.rangeRequest n r k) s =
      .next ((s.put (Reg.HUBA_ADC_CTL_RANGE_REQ n) r).setConv n { s.conv n with pathRange := r }) := by
  show execRangeRequest n r k s = _
  rw [execRangeRequest, State.ifRestored_of host restored, if_neg (Nat.not_lt.2 fit)]
  simp only [State.pathStep_before (s := s.put _ _) path ((s.conv2ms_request n r).symm ▸ before), State.conv_put, path, pending,
    Option.isSome_some, Bool.not_false, Bool.and_self, if_true]

end

/-- R608: a request within 18 dB waits for its zero crossing; one beyond takes the ramp-down path. -/
theorem exec_rangeRequest_idle_shows {n : Fin 2} {r : Fin 32} {k : Nat} (host : s.hostUp = true)
    (restored : s.bit Reg.GLOBAL_RESTORE_DONE = true) (fit : r.val ≤ 20) (idle : (s.conv n).path = none) :
    ∃ t, exec (.rangeRequest n r k) s = .next t ∧ t.units = s.units ∧
      t.get (Reg.HUBA_ADC_CTL_RANGE_REQ n) = r ∧ t.get (Reg.HUBA_ADC_STATUS_RANGE n) = s.get (Reg.HUBA_ADC_STATUS_RANGE n) ∧
      (s.requestFar n r k = false → t.conv n = { s.conv n with request := some r.val }) ∧
      (s.requestFar n r k = true → t.bit (Reg.HUBA_ADC_STATUS_RAMP_PATH n) = true ∧ t.bit (Reg.HUBA_ADC_STATUS_BIG_STEP n) = true ∧
        t.conv n = { s.conv n with path := some (s.convSi k), pathRange := r, pathDone := false, request := none, stepping := [] }) := by
  have request : (s.put (Reg.HUBA_ADC_CTL_RANGE_REQ n) r).get (Reg.HUBA_ADC_CTL_RANGE_REQ n) = r :=
    State.get_put_lt s (Reg.HUBA_ADC_CTL_RANGE_REQ n) r r.isLt
  have range : (s.put (Reg.HUBA_ADC_CTL_RANGE_REQ n) r).get (Reg.HUBA_ADC_STATUS_RANGE n) = s.get (Reg.HUBA_ADC_STATUS_RANGE n) :=
    State.get_put_ne _ (rangeRegs_apart n).1 _
  have run := exec_rangeRequest_idle (k := k) host restored fit idle
  cases far : s.requestFar n r k with
  | true =>
    obtain ⟨units, path, big, request', range', conv⟩ := (s.put (Reg.HUBA_ADC_CTL_RANGE_REQ n) r).bigStep_shows n r (s.convSi k)
    exact ⟨_, run.trans (congrArg _ (if_pos far)), units, request'.trans request, range'.trans range, nofun, fun _ => ⟨path, big, conv⟩⟩
  | false =>
    exact ⟨_, run.trans (congrArg _ (if_neg (by simp [far]))), rfl, request, range, fun _ => State.conv_setConv_same .., nofun⟩

section
variable {n : Fin 2} {k : Nat}

theorem exec_rangeChange_none (none_ : (s.conv n).request = none) : exec (.rangeChange n) s = .next s := by
  show execRangeChange n s = _
  simp [execRangeChange, none_]

theorem exec_rangeChange {r : Nat} (waits : (s.conv n).request = some r) : exec (.rangeChange n) s = .next
    (((s.setConv n { s.conv n with request := none, stepping := (s.conv n).stepping ++
        [(r : Int) - (s.get (Reg.HUBA_ADC_STATUS_RANGE n) : Int)] }).put (Reg.HUBA_ADC_STATUS_RANGE n) r).bump
      (Reg.HUBA_ADC_CNT_RANGE_CNT n)) := by
  show execRangeChange n s = _
  simp [execRangeChange, waits]

theorem exec_rangeChange_shows {r : Nat} (lt : r < 32) (waits : (s.conv n).request = some r) : ∃ t, exec (.rangeChange n) s = .next t ∧
    t.get (Reg.HUBA_ADC_STATUS_RANGE n) = r ∧ t.units = s.units ∧
    t.get (Reg.HUBA_ADC_CNT_RANGE_CNT n) = min (s.get (Reg.HUBA_ADC_CNT_RANGE_CNT n) + 1) 0xFFFF ∧
    t.conv n = { s.conv n with request := none, stepping := (s.conv n).stepping ++
      [(r : Int) - (s.get (Reg.HUBA_ADC_STATUS_RANGE n) : Int)] } := by
  obtain ⟨-, -, -, -, -, -, apart, apart', -⟩ := rangeRegs_apart n
  refine ⟨_, exec_rangeChange waits, ?_, ?_, ?_, ?_⟩
  · rw [State.get_bump_ne _ apart]
    exact State.get_put_lt _ (Reg.HUBA_ADC_STATUS_RANGE n) r lt
  · simp
  · rw [State.get_bump_same, State.get_put_ne _ apart']
    rfl
  · simp

theorem exec_compensationStep_none (none_ : (s.conv n).stepping = []) : exec (.compensationStep n k) s = .next s := by
  show execCompensationStep n k s = _
  simp [execCompensationStep, none_]

theorem exec_compensationStep_near {d : Int} {rest : List Int} {v : Word} (waits : (s.conv n).stepping = d :: rest)
    (value : (Fp.sub (compAt (s.conv n) s.conv10ms (s.convSi k - 1)) (stepLog d)).1 = v) (near : beyond18 v = false) :
    exec (.compensationStep n k) s =
      .next ((s.setConv n { s.conv n with stepping := rest, comp := v, compAt := s.convSi k }).showComp n (s.convSi k)) := by
  show execCompensationStep n k s = _
  simp only [execCompensationStep, waits, value, near, Bool.false_eq_true, if_false]

theorem exec_compensationStep_far {d : Int} {rest : List Int} {v : Word} (waits : (s.conv n).stepping = d :: rest)
    (value : (Fp.sub (compAt (s.conv n) s.conv10ms (s.convSi k - 1)) (stepLog d)).1 = v) (far : beyond18 v = true) :
    exec (.compensationStep n k) s = .next (s.bigStep n (s.get (Reg.HUBA_ADC_STATUS_RANGE n)) (s.convSi k)) := by
  show execCompensationStep n k s = _
  simp only [execCompensationStep, waits, value, far, if_true]

theorem State.showComp_keeps (s : State) (n t : Nat) : (s.showComp n t).units = s.units ∧ ∀ c, (s.showComp n t).conv c = s.conv c :=
  ⟨State.put_units .., fun _ => State.conv_put ..⟩

end

/-! ### Jacks (R611, R612) -/

/-- Registers that a jack's event leaves. -/
theorem jackRegs_free : ∀ f ∈ [Reg.HUBA_JACK_JACK_CHG, Reg.HUBA_JACK_TYPE, Reg.HUBA_JACK_HP_PRESENT, Reg.HUBA_JACK_TB_PRESENT,
    Reg.HUBA_JACK_BUTTONS, Reg.HUBA_JACK_Z_TIP_Z, Reg.HUBA_JACK_Z_MIC_Z], f.FreeOf [] := by decide

theorem jackChg_apart : ∀ f ∈ [Reg.HUBA_JACK_TYPE, Reg.HUBA_JACK_HP_PRESENT, Reg.HUBA_JACK_TB_PRESENT, Reg.HUBA_JACK_BUTTONS,
    Reg.HUBA_JACK_Z_TIP_Z, Reg.HUBA_JACK_Z_MIC_Z], f.key ≠ Reg.HUBA_JACK_JACK_CHG.key := by decide

theorem State.jackEvent_event (s : State) (jack inserted : Nat) :
    HubEvent (s.set Reg.HUBA_JACK_JACK_CHG) (s.jackEvent jack inserted) := .hubaEvent ..

theorem State.jackEvent_get (s : State) (jack inserted : Nat) {f : Fld} (own : f ∈ [Reg.HUBA_JACK_TYPE, Reg.HUBA_JACK_HP_PRESENT,
    Reg.HUBA_JACK_TB_PRESENT, Reg.HUBA_JACK_BUTTONS, Reg.HUBA_JACK_Z_TIP_Z, Reg.HUBA_JACK_Z_MIC_Z]) :
    (s.jackEvent jack inserted).get f = s.get f :=
  ((s.jackEvent_event jack inserted).get (jackRegs_free f (List.mem_cons_of_mem _ own))).trans (State.get_put_ne _ (jackChg_apart f own) 1)

theorem State.jackEvent_shows (s : State) (jack inserted : Nat) : (s.jackEvent jack inserted).bit Reg.HUBA_JACK_JACK_CHG = true ∧
    (s.jackEvent jack inserted).units = s.units ∧ (s.jackEvent jack inserted).huba.hpBias = s.huba.hpBias := by
  have event := s.jackEvent_event jack inserted
  exact ⟨(event.bit (jackRegs_free _ (by simp))).trans (State.bit_set_same s rfl), event.units, event.hpBias⟩

/-- The two registers that hold the DAC outputs at zero. -/
def mutedRegs : List Fld := [Reg.HUBA_DAC_STATUS_MUTED 0, Reg.HUBA_DAC_STATUS_MUTED 1]

theorem ShowsOnly.holdDacs (s : State) (b : Bool) : ShowsOnly mutedRegs s (s.holdDacs b) :=
  .each fun n mem _ => .put (by
    have : n = 0 ∨ n = 1 := by have := List.mem_range.1 mem; omega
    rcases this with rfl | rfl <;> simp [mutedRegs]) _

theorem muted_apart (m n : Fin 2) (other : m ≠ n) : (Reg.HUBA_DAC_STATUS_MUTED n).key ≠ (Reg.HUBA_DAC_STATUS_MUTED m).key := by
  decide +revert

theorem State.holdDacs_muted (s : State) (b : Bool) (n : Fin 2) : (s.holdDacs b).bit (Reg.HUBA_DAC_STATUS_MUTED n) = b :=
  State.each_brings (fun _ => True) (fun t => t.bit (Reg.HUBA_DAC_STATUS_MUTED n) = b) _ List.nodup_range (List.mem_range.2 n.isLt)
    (fun _ _ _ _ _ => trivial) (fun t _ => State.bit_putBit_same t rfl b)
    (fun m mem other t held => (State.bit_put_ne t (muted_apart ⟨m, List.mem_range.1 mem⟩ n fun eq => other (congrArg Fin.val eq)) _).trans
      held) trivial

theorem jackRegs_muted : ∀ f ∈ [Reg.HUBA_JACK_JACK_CHG, Reg.HUBA_JACK_TYPE, Reg.HUBA_JACK_HP_PRESENT, Reg.HUBA_JACK_TB_PRESENT,
    Reg.HUBA_JACK_BUTTONS, Reg.HUBA_JACK_Z_TIP_Z, Reg.HUBA_JACK_Z_MIC_Z], f.FreeOf mutedRegs := by decide

/-- Chains written one after another leave the registers, the units and the jack. -/
structure ChainsOnly (s t : State) : Prop where
  regs : t.regs = s.regs
  units : t.units = s.units
  doms : t.doms = s.doms
  removing : t.huba.removing = s.huba.removing
  hpBias : t.huba.hpBias = s.huba.hpBias

theorem ChainsOnly.modConv (s : State) (c : Nat) (f : ConvCh → ConvCh) : ChainsOnly s (s.modConv c f) :=
  ⟨rfl, rfl, rfl, State.removing_setConv .., State.hpBias_setConv ..⟩

theorem ChainsOnly.trans {u : State} (a : ChainsOnly s t) (b : ChainsOnly t u) : ChainsOnly s u :=
  ⟨b.regs.trans a.regs, b.units.trans a.units, b.doms.trans a.doms, b.removing.trans a.removing, b.hpBias.trans a.hpBias⟩

theorem ChainsOnly.each {l : List Nat} {g : Nat → State → State} (h : ∀ c t, ChainsOnly t (g c t)) : ChainsOnly s (s.each l g) :=
  State.each_keeps (ChainsOnly s) g (fun c t kept => kept.trans (h c t)) s l ⟨rfl, rfl, rfl, rfl, rfl⟩

theorem ChainsOnly.rampDacs (s : State) (down : Bool) (n : Nat) : ChainsOnly s (s.rampDacs down n) := .each fun _ _ => .modConv ..

/-- Each DAC ramps from where it stands. -/
theorem State.conv_rampDacs (s : State) (down : Bool) (n : Nat) {c : Nat} (dac : c = 2 ∨ c = 3) :
    (s.rampDacs down n).conv c = { s.conv c with mute := gateTo (s.conv c).mute down s.conv2ms n } := by
  have ramps : s.rampDacs down n =
      (s.modConv 2 fun x => { x with mute := gateTo x.mute down s.conv2ms n }).modConv 3 fun x =>
        { x with mute := gateTo x.mute down s.conv2ms n } := by
    unfold State.rampDacs
    simp only [State.each, List.foldl_cons, List.foldl_nil]
    rw [State.conv2ms_of (s := s) (ChainsOnly.modConv ..).regs (ChainsOnly.modConv ..).doms]
  rw [ramps]
  rcases dac with rfl | rfl
  · exact (State.conv_setConv_ne _ (by decide) _).trans (State.conv_setConv_same ..)
  · refine (State.conv_setConv_same ..).trans ?_
    rw [State.modConv, State.conv_setConv_ne _ (by decide)]

theorem exec_jackDetectChange_talkback (inserted : Bool) (k : Nat) (s : State) : ∃ t, exec (.jackDetectChange true inserted k) s = .next t ∧
    t.bit Reg.HUBA_JACK_TB_PRESENT = inserted ∧ t.bit Reg.HUBA_JACK_JACK_CHG = true ∧
    t.get Reg.HUBA_JACK_TYPE = s.get Reg.HUBA_JACK_TYPE ∧ t.units = s.units := by
  obtain ⟨changed, units, -⟩ := State.jackEvent_shows (s.putBit Reg.HUBA_JACK_TB_PRESENT inserted) 1 (if inserted then 1 else 0)
  have kept {f : Fld} (own) := (s.putBit Reg.HUBA_JACK_TB_PRESENT inserted).jackEvent_get 1 (if inserted then 1 else 0) (f := f) own
  refine ⟨_, rfl, ?_, changed, (kept (by simp)).trans (State.get_put_ne _ (by decide) _), units⟩
  rw [State.bit, kept (by simp)]
  exact State.bit_putBit_same s rfl inserted

/-- The headphone jack with something in it that is still to be classified. -/
def State.plugged (s : State) : State := ((s.set Reg.HUBA_JACK_HP_PRESENT).put Reg.HUBA_JACK_TYPE 7).holdDacs true

theorem State.plugged_shows (s : State) : s.plugged.bit Reg.HUBA_JACK_HP_PRESENT = true ∧ s.plugged.get Reg.HUBA_JACK_TYPE = 7 ∧
    s.plugged.units = s.units ∧ ∀ n < 2, s.plugged.bit (Reg.HUBA_DAC_STATUS_MUTED n) = true := by
  have shows := ShowsOnly.holdDacs ((s.set Reg.HUBA_JACK_HP_PRESENT).put Reg.HUBA_JACK_TYPE 7) true
  have free := jackRegs_muted
  refine ⟨(shows.bit (free _ (by simp))).trans ?_, (shows.get (free _ (by simp))).trans (State.get_put_same ..), shows.units,
    fun n lt => State.holdDacs_muted _ true ⟨n, lt⟩⟩
  exact (State.bit_put_ne _ (by decide) 7).trans (State.bit_set_same s rfl)

/-- Both DACs without a ramp of a removal. -/
def State.freshDacs (s : State) : State := s.each [2, 3] fun c u => u.modConv c fun x => { x with mute := {} }

theorem ChainsOnly.freshDacs (s : State) : ChainsOnly s s.freshDacs := .each fun _ _ => .modConv ..

theorem exec_jackDetectChange_inserted {k : Nat} (settled : s.huba.removing = false) : exec (.jackDetectChange false true k) s =
    .next s.plugged.freshDacs := by
  show execJackDetectChange false true k s = _
  rw [execJackDetectChange, settled]
  rfl

theorem exec_jackDetectChange_inserted_shows {k : Nat} (settled : s.huba.removing = false) :
    ∃ t, exec (.jackDetectChange false true k) s = .next t ∧ t.bit Reg.HUBA_JACK_HP_PRESENT = true ∧
      t.get Reg.HUBA_JACK_TYPE = 7 ∧ t.units = s.units ∧ ∀ n < 2, t.bit (Reg.HUBA_DAC_STATUS_MUTED n) = true := by
  obtain ⟨present, type, units, muted⟩ := s.plugged_shows
  have fresh := ChainsOnly.freshDacs s.plugged
  exact ⟨_, exec_jackDetectChange_inserted settled, (State.bit_of_regs fresh.regs _).trans present,
    (State.get_of_regs fresh.regs _).trans type, fresh.units.trans units, fun n lt => (State.bit_of_regs fresh.regs _).trans (muted n lt)⟩

/-- A removal that was none: the bias returns to a headset, and the removal is forgotten. -/
def State.stay (s : State) (inserted : Bool) : State := s.modHuba fun h => { h with
  removing := false, hpBias := inserted && (s.get Reg.HUBA_JACK_TYPE == 2 || s.get Reg.HUBA_JACK_TYPE == 3) }

theorem exec_jackDetectChange_stays {k : Nat} (removing : s.huba.removing = true) : ∃ t, exec (.jackDetectChange false true k) s = .next t ∧
    t.huba.removing = false ∧ t.regs = s.regs ∧ t.units = s.units := by
  have ramps := ChainsOnly.rampDacs (s.stay true) false (s.convSi k)
  have run : exec (.jackDetectChange false true k) s = .next ((s.stay true).rampDacs false (s.convSi k)) := by
    show execJackDetectChange false true k s = _
    rw [execJackDetectChange, removing]
    rfl
  exact ⟨_, run, ramps.removing, ramps.regs, ramps.units⟩

theorem State.unplugged_shows (s : State) : let t := s.unplugged
    t.bit Reg.HUBA_JACK_HP_PRESENT = false ∧ t.get Reg.HUBA_JACK_TYPE = 0 ∧ t.get Reg.HUBA_JACK_BUTTONS = 0 ∧
      t.bit Reg.HUBA_JACK_JACK_CHG = true ∧ t.units = s.units := by
  have shows := ShowsOnly.holdDacs (((s.put Reg.HUBA_JACK_HP_PRESENT 0).put Reg.HUBA_JACK_TYPE 0).put Reg.HUBA_JACK_BUTTONS 0) true
  have free := jackRegs_muted
  have empty : (((s.put Reg.HUBA_JACK_HP_PRESENT 0).put Reg.HUBA_JACK_TYPE 0).put Reg.HUBA_JACK_BUTTONS 0).bit
      Reg.HUBA_JACK_HP_PRESENT = false := by
    rw [State.bit_put_ne _ (by decide), State.bit_put_ne _ (by decide)]
    exact State.bit_put_same s rfl 0
  obtain ⟨changed, units, -⟩ := State.jackEvent_shows
    ((((s.put Reg.HUBA_JACK_HP_PRESENT 0).put Reg.HUBA_JACK_TYPE 0).put Reg.HUBA_JACK_BUTTONS 0).holdDacs true) 0 0
  refine ⟨?_, (State.jackEvent_get _ 0 0 (by simp)).trans ((shows.get (free _ (by simp))).trans ?_),
    (State.jackEvent_get _ 0 0 (by simp)).trans ((shows.get (free _ (by simp))).trans (State.get_put_same ..)), changed,
    units.trans shows.units⟩
  · rw [State.unplugged, State.bit, State.jackEvent_get _ 0 0 (by simp)]
    exact (shows.bit (free _ (by simp))).trans empty
  · rw [State.get_put_ne _ (by decide)]
    exact State.get_put_same ..

/-- R611: an empty jack shows, whether or not its removal edge was seen. -/
theorem exec_jackDetectChange_removed (k : Nat) (s : State) : exec (.jackDetectChange false false k) s =
    .next (if s.huba.removing then s.stay false else s).unplugged := by
  show execJackDetectChange false false k s = _
  rw [execJackDetectChange]
  cases removing : s.huba.removing <;> rfl

theorem State.stay_units (s : State) (removing inserted : Bool) : (if removing then s.stay inserted else s).units = s.units := by
  cases removing <;> rfl

theorem exec_jackRemovalEdge_none {k : Nat} (empty : s.bit Reg.HUBA_JACK_HP_PRESENT = false) : exec (.jackRemovalEdge k) s = .next s := by
  show execJackRemovalEdge k s = _
  rw [execJackRemovalEdge, if_neg (by simp [empty])]

theorem exec_jackRemovalEdge {k : Nat} (present : s.bit Reg.HUBA_JACK_HP_PRESENT = true) : ∃ t, exec (.jackRemovalEdge k) s = .next t ∧
    t.huba.removing = true ∧ t.huba.hpBias = false ∧ t.regs = s.regs ∧ t.units = s.units ∧
    ∀ c, c = 2 ∨ c = 3 → t.conv c = { s.conv c with mute := gateTo (s.conv c).mute true s.conv2ms (s.convSi k) } := by
  have ramps := ChainsOnly.rampDacs (s.modHuba fun h => { h with removing := true, hpBias := false }) true (s.convSi k)
  have run : exec (.jackRemovalEdge k) s =
      .next ((s.modHuba fun h => { h with removing := true, hpBias := false }).rampDacs true (s.convSi k)) := if_pos present
  exact ⟨_, run, ramps.removing, ramps.hpBias, ramps.regs, ramps.units, fun c dac => State.conv_rampDacs _ true _ dac⟩

/-! ### A classified jack and its buttons (R612–R614) -/

theorem exec_jackClassified_other {l : JackLoads} (other : s.get Reg.HUBA_JACK_TYPE ≠ 7) : exec (.jackClassified l) s = .next s :=
    if_pos other

/-- The loads of a jack as they show. -/
def State.showLoads (s : State) (l : JackLoads) : State :=
  let ty := jackType l
  let z := if ty = 3 then l.ring2 else if ty = 2 then l.sleeve else 0xFFFF
  ((s.put Reg.HUBA_JACK_TYPE ty).put Reg.HUBA_JACK_Z_TIP_Z (min l.tip 0xFFFF)).put Reg.HUBA_JACK_Z_MIC_Z (min z 0xFFFF)

/-- A classified jack before its event: headset ADCs settle again. -/
def State.classified (s : State) (l : JackLoads) : State :=
  (((s.showLoads l).holdDacs (jackType l == 5)).modHuba fun h => { h with hpBias := jackType l == 2 || jackType l == 3 }).each
    (List.range 2)
    fun n t => if t.bit (Reg.HUBA_ADC_CTL_SOURCE n) then t.unsettle n else t

theorem exec_jackClassified {l : JackLoads} (unknown : s.get Reg.HUBA_JACK_TYPE = 7) : exec (.jackClassified l) s =
    .next ((s.classified l).jackEvent 0 1) := if_neg (not_not.2 unknown)

theorem jackType_lt (l : JackLoads) : jackType l < 8 := by
  unfold jackType
  dsimp only
  split_ifs <;> decide

/-- The settle registers of the two ADCs. -/
def settledRegs : List Fld := [convSettled 0, convSettled 1]

theorem jackRegs_settled : ∀ f ∈ [Reg.HUBA_JACK_TYPE, Reg.HUBA_JACK_Z_TIP_Z], f.FreeOf settledRegs ∧ f.FreeOf mutedRegs := by decide

/-- ADCs that settle again leave every register but their own, the units and the bias. -/
theorem State.unsettleHeadset_keeps (s : State) :
    let t := s.each (List.range 2) fun n t => if t.bit (Reg.HUBA_ADC_CTL_SOURCE n) then t.unsettle n else t
    WritesOnly settledRegs s t ∧ t.units = s.units ∧ t.huba.hpBias = s.huba.hpBias := by
  refine State.each_keeps_mem (fun t => WritesOnly settledRegs s t ∧ t.units = s.units ∧ t.huba.hpBias = s.huba.hpBias) _ s _
    (fun n mem t ⟨regs, units, bias⟩ => ?_) ⟨.refl, rfl, rfl⟩
  split
  · have own : convSettled n ∈ settledRegs := by
      have : n = 0 ∨ n = 1 := by have := List.mem_range.1 mem; omega
      rcases this with rfl | rfl <;> simp [settledRegs]
    have chain := ChainsOnly.modConv t n fun x => { x with settled := none, gate := {} }
    exact ⟨regs.trans (WritesOnly.trans (.of_regs chain.regs) (.put own 0)), chain.units.trans units, chain.hpBias.trans bias⟩
  · exact ⟨regs, units, bias⟩

theorem State.showLoads_shows (s : State) (l : JackLoads) : (s.showLoads l).get Reg.HUBA_JACK_TYPE = jackType l ∧
    (s.showLoads l).get Reg.HUBA_JACK_Z_TIP_Z = min l.tip 0xFFFF ∧ (s.showLoads l).units = s.units := by
  refine ⟨?_, ?_, rfl⟩
  · rw [State.showLoads, State.get_put_ne _ (by decide), State.get_put_ne _ (by decide)]
    exact State.get_put_lt _ _ _ (jackType_lt l)
  · rw [State.showLoads, State.get_put_ne _ (by decide)]
    exact State.get_put_lt _ _ _ (Nat.lt_of_le_of_lt (Nat.min_le_right ..) (by decide))

theorem exec_jackClassified_shows {l : JackLoads} (unknown : s.get Reg.HUBA_JACK_TYPE = 7) : ∃ t, exec (.jackClassified l) s = .next t ∧
    t.get Reg.HUBA_JACK_TYPE = jackType l ∧ t.get Reg.HUBA_JACK_Z_TIP_Z = min l.tip 0xFFFF ∧
    t.bit Reg.HUBA_JACK_JACK_CHG = true ∧ t.units = s.units ∧ (t.huba.hpBias = true ↔ jackType l = 2 ∨ jackType l = 3) := by
  obtain ⟨type, tip, units⟩ := s.showLoads_shows l
  have holds := ShowsOnly.holdDacs (s.showLoads l) (jackType l == 5)
  obtain ⟨regs, units', bias⟩ := (((s.showLoads l).holdDacs (jackType l == 5)).modHuba fun h =>
    { h with hpBias := jackType l == 2 || jackType l == 3 }).unsettleHeadset_keeps
  obtain ⟨changed, units'', bias'⟩ := (s.classified l).jackEvent_shows 0 1
  have kept {f : Fld} (mem : f ∈ [Reg.HUBA_JACK_TYPE, Reg.HUBA_JACK_Z_TIP_Z]) : (s.classified l).get f = (s.showLoads l).get f :=
    (regs f (jackRegs_settled f mem).1).trans (holds.get (jackRegs_settled f mem).2)
  refine ⟨_, exec_jackClassified unknown, (State.jackEvent_get _ 0 1 (by simp)).trans ((kept (by simp)).trans type),
    (State.jackEvent_get _ 0 1 (by simp)).trans ((kept (by simp)).trans tip), changed, ?_, ?_⟩
  · exact units''.trans (units'.trans (holds.units.trans units))
  · rw [bias', State.classified, bias]
    simp [State.modHuba]

section
variable {z : BitVec 16} {k : Nat}

theorem headset_iff (s : State) : s.get Reg.HUBA_JACK_TYPE ∈ [2, 3] ↔
    ¬(s.get Reg.HUBA_JACK_TYPE ≠ 2 ∧ s.get Reg.HUBA_JACK_TYPE ≠ 3) := by
  simp only [List.mem_cons, List.not_mem_nil, or_false]
  tauto

theorem exec_buttonAccepted_other (other : s.get Reg.HUBA_JACK_TYPE ∉ [2, 3]) : exec (.buttonAccepted z k) s = .next s :=
  if_pos (not_not.1 (mt (headset_iff s).2 other))

theorem exec_buttonAccepted_unlisted (headset : s.get Reg.HUBA_JACK_TYPE ∈ [2, 3]) (unlisted : buttonOf z.toNat = none) :
    exec (.buttonAccepted z k) s = .next (s.put Reg.HUBA_JACK_Z_MIC_Z z.toNat) := by
  show execButtonAccepted z k s = _
  rw [execButtonAccepted, if_neg ((headset_iff s).1 headset), unlisted]

/-- The mask that BUTTONS shows for a decoded button: 3 is none. -/
def buttonMask (b : Nat) : Nat := if b = 3 then 0 else 2 ^ b

theorem exec_buttonAccepted_same {b : Nat} (headset : s.get Reg.HUBA_JACK_TYPE ∈ [2, 3]) (listed : buttonOf z.toNat = some b)
    (same : s.get Reg.HUBA_JACK_BUTTONS = buttonMask b) : exec (.buttonAccepted z k) s = .next s := by
  show execButtonAccepted z k s = _
  rw [execButtonAccepted, if_neg ((headset_iff s).1 headset), listed]
  exact if_pos same

theorem buttonMask_lt {b n : Nat} (listed : buttonOf n = some b) : buttonMask b < 8 := by
  have small : b ≤ 3 := by
    unfold buttonOf at listed
    split_ifs at listed <;> cases listed <;> decide
  interval_cases b <;> decide

/-- The events of the buttons released and pressed. -/
def State.buttonEvents (s : State) (held b : Nat) : State :=
  let s2 := s.each ((List.range 3).filter fun i => Nat.testBit held i) fun i t => t.hubaEvent .other 0x0131 (2 * i) [i, 0]
  if b = 3 then s2 else s2.hubaEvent .other 0x0131 (2 * b + 1) [b, 1]

theorem HubEvent.buttonEvents (s : State) (held b : Nat) : HubEvent s (s.buttonEvents held b) := by
  have released : HubEvent s (s.each ((List.range 3).filter fun i => Nat.testBit held i) fun i t =>
    t.hubaEvent .other 0x0131 (2 * i) [i, 0]) := .each fun _ _ => .hubaEvent ..
  unfold State.buttonEvents
  dsimp only
  split
  · exact released
  · exact released.trans (.hubaEvent ..)

/-- With no button pressed the microphones ramp back. -/
def State.unmuteMics (s : State) (b n : Nat) : State :=
  if b = 3 then s.each (List.range 2) fun c t => t.modConv c fun x => { x with mute := gateTo x.mute false t.conv2ms n } else s

theorem ChainsOnly.unmuteMics (s : State) (b n : Nat) : ChainsOnly s (s.unmuteMics b n) := by
  unfold State.unmuteMics
  split
  · exact .each fun _ _ => .modConv ..
  · exact ⟨rfl, rfl, rfl, rfl, rfl⟩

theorem exec_buttonAccepted_new {b : Nat} (headset : s.get Reg.HUBA_JACK_TYPE ∈ [2, 3]) (listed : buttonOf z.toNat = some b)
    (new : s.get Reg.HUBA_JACK_BUTTONS ≠ buttonMask b) : exec (.buttonAccepted z k) s = .next
      ((((s.put Reg.HUBA_JACK_Z_MIC_Z z.toNat).put Reg.HUBA_JACK_BUTTONS (buttonMask b)).buttonEvents
        (s.get Reg.HUBA_JACK_BUTTONS) b).unmuteMics
        b (s.convSi k)) := by
  show execButtonAccepted z k s = _
  rw [execButtonAccepted, if_neg ((headset_iff s).1 headset), listed]
  exact if_neg new

theorem exec_buttonAccepted_shows {b : Nat} (headset : s.get Reg.HUBA_JACK_TYPE ∈ [2, 3]) (listed : buttonOf z.toNat = some b)
    (new : s.get Reg.HUBA_JACK_BUTTONS ≠ buttonMask b) : ∃ t, exec (.buttonAccepted z k) s = .next t ∧
      t.get Reg.HUBA_JACK_BUTTONS = buttonMask b ∧ t.get Reg.HUBA_JACK_Z_MIC_Z = z.toNat ∧ t.units = s.units := by
  have event := HubEvent.buttonEvents ((s.put Reg.HUBA_JACK_Z_MIC_Z z.toNat).put Reg.HUBA_JACK_BUTTONS (buttonMask b))
    (s.get Reg.HUBA_JACK_BUTTONS) b
  have chains := ChainsOnly.unmuteMics (((s.put Reg.HUBA_JACK_Z_MIC_Z z.toNat).put Reg.HUBA_JACK_BUTTONS (buttonMask b)).buttonEvents
    (s.get Reg.HUBA_JACK_BUTTONS) b) b (s.convSi k)
  have kept {f : Fld} (mem) := (State.get_of_regs chains.regs f).trans (event.get (jackRegs_free f mem))
  refine ⟨_, exec_buttonAccepted_new headset listed new, (kept (by simp)).trans (State.get_put_lt _ _ _ (buttonMask_lt listed)),
    (kept (by simp)).trans ?_,
    chains.units.trans event.units⟩
  rw [State.get_put_ne _ (by decide)]
  exact State.get_put_lt _ _ _ z.isLt

theorem exec_buttonLevelMute (n : Fin 2) (down : Bool) (k : Nat) (s : State) : exec (.buttonLevelMute n down k) s =
    if (s.bit (Reg.HUBA_ADC_CTL_BTN_MUTE n) && s.bit (Reg.HUBA_ADC_CTL_SOURCE n) &&
      (s.get Reg.HUBA_JACK_TYPE == 2 || s.get Reg.HUBA_JACK_TYPE == 3)) = true
    then .next (s.setConv n { s.conv n with mute := gateTo (s.conv n).mute down s.conv2ms (s.convSi k) }) else .next s := rfl

theorem headset_or (s : State) : (s.get Reg.HUBA_JACK_TYPE == 2 || s.get Reg.HUBA_JACK_TYPE == 3) = true ↔
    s.get Reg.HUBA_JACK_TYPE ∈ [2, 3] := by simp

end

end Sys2Proof.Machine

namespace Sys2Proof.Machine

/-- Settles O49: chains, ranges, jacks and buttons, one lemma per command and case. -/
theorem convertersAndJacks : Obligations.ConvertersAndJacks := by
  unfold Obligations.ConvertersAndJacks
  refine ⟨fun c p en k s host restored => ⟨exec_convEnWrite_reserved host restored, exec_convEnWrite_starts host restored,
      exec_convEnWrite_presets host restored, exec_convEnWrite_stops host restored⟩,
    fun c k s => ⟨fun stopped => ?_, exec_chainSettled_shows, fun open_ settled => ?_⟩,
    fun n r k s host restored => ⟨exec_rangeRequest_reserved host restored, exec_rangeRequest_idle_shows host restored,
      fun q fit path pending before => ⟨_, exec_rangeRequest_pending host restored fit path pending before, State.conv_setConv_same ..,
        rfl⟩⟩,
    fun n k s => ⟨exec_rangeChange_none, fun r lt waits => exec_rangeChange_shows lt waits, exec_compensationStep_none,
      fun d rest waits => ⟨fun near => ?_, fun far => ?_⟩⟩,
    fun inserted k s => ⟨exec_jackDetectChange_talkback inserted k s, exec_jackDetectChange_inserted_shows, exec_jackDetectChange_stays, ?_,
      exec_jackRemovalEdge_none, exec_jackRemovalEdge⟩,
    fun l s => ⟨exec_jackClassified_other, exec_jackClassified_shows⟩,
    fun z n down k s => ⟨fun other => ⟨exec_buttonAccepted_other other, ?_⟩, fun headset => ⟨exec_buttonAccepted_unlisted headset,
      fun b listed new => exec_buttonAccepted_shows headset listed new, fun b listed same => exec_buttonAccepted_same headset listed same,
      fun mute source => ?_⟩⟩⟩
  · rw [exec_chainSettled (.inl stopped), if_neg (by simp [stopped])]
  · rw [exec_chainSettled (.inr open_), if_neg]
    cases settled' : (s.conv c).settled with
    | none => exact absurd settled' settled
    | some x => simp
  · obtain ⟨units, conv⟩ := (s.setConv n { s.conv n with stepping := rest, comp := _, compAt := s.convSi k }).showComp_keeps n (s.convSi k)
    exact ⟨_, exec_compensationStep_near waits rfl near, units, (conv n).trans (State.conv_setConv_same ..)⟩
  · obtain ⟨units, -, big, -, -, conv⟩ := s.bigStep_shows n (s.get (Reg.HUBA_ADC_STATUS_RANGE n)) (s.convSi k)
    exact ⟨_, exec_compensationStep_far waits rfl far, units, big, conv⟩
  · obtain ⟨present, type, buttons, changed, units⟩ := (if s.huba.removing then s.stay false else s).unplugged_shows
    exact ⟨_, exec_jackDetectChange_removed k s, present, type, buttons, changed, units.trans (s.stay_units ..)⟩
  · rw [exec_buttonLevelMute, if_neg]
    simp only [Bool.and_eq_true, headset_or, other, and_false, not_false_eq_true]
  · rw [exec_buttonLevelMute, if_pos]
    simp only [Bool.and_eq_true, headset_or, mute, source, headset, and_self]

end Sys2Proof.Machine
end

