-- ==== Sys2Proof/Proofs/PowerStages.lean ====
section
/-! PROOF. A power stage precharges, shuts down, retries, locks out and follows its supply and temperature (R618, R620–R623, R626). -/

namespace Sys2Proof.Machine

variable {s t u : State}

/-! ### One channel (R626) -/

/-- The registers that a channel's own steps write. -/
def psRegs (c : Nat) : List Fld := [Reg.HUBA_PSC_STATUS_STATE c, Reg.HUBA_PSC_STATUS_SHUTDOWN c, Reg.HUBA_PSC_STATUS_THERM c,
  Reg.HUBA_PSC_STATUS_ILIM c, Reg.HUBA_PSC_STATUS_RETRY_USED c, Reg.HUBA_PS_CNT_SHUTDOWNS]

/-- The registers that both channels read. -/
def psCommon : List Fld := [Reg.HUBA_PS_CTL_EN, Reg.HUBA_PS_CTL_RETRIES, Reg.HUBA_PS_CTL_COMPAT, Reg.HUBA_PS_VSUP_MV,
  Reg.HUBA_PS_TEMP_TEMP, Reg.HUBA_PS_TEMP_FOLD]

theorem psCommon_free (c : Fin 2) : ∀ f ∈ psCommon, f.FreeOf (psRegs c) := by decide +revert

theorem psRegs_other (c d : Fin 2) (other : d ≠ c) : ∀ f ∈ [Reg.HUBA_PSC_STATUS_STATE d, Reg.HUBA_PSC_STATUS_THERM d,
    Reg.HUBA_PSC_STATUS_SHUTDOWN d], f.FreeOf (psRegs c) := by decide +revert

theorem psRegs_free (c : Fin 2) : ∀ f ∈ psRegs c, f.FreeOf [] := by decide +revert

theorem psState_apart (c : Fin 2) : ∀ f ∈ (psRegs c).tail, f.key ≠ (Reg.HUBA_PSC_STATUS_STATE c).key := by decide +revert

/-- A step of a channel: besides its record it writes its own registers, and posts events. -/
structure ChannelStep (c : Nat) (s t : State) : Prop where
  regs : WritesOnly (psRegs c) s t
  units : t.units = s.units

namespace ChannelStep

variable {c : Nat}

theorem refl : ChannelStep c s s := ⟨.refl, rfl⟩
theorem trans (a : ChannelStep c s t) (b : ChannelStep c t u) : ChannelStep c s u := ⟨a.regs.trans b.regs, b.units.trans a.units⟩
theorem modPs (s : State) (d : Nat) (f : PsCh → PsCh) : ChannelStep c s (s.modPs d f) := ⟨.of_regs rfl, rfl⟩
theorem put {f : Fld} (own : f ∈ psRegs c) (v : Nat) : ChannelStep c s (s.put f v) := ⟨.put own v, rfl⟩
theorem event (h : HubEvent s t) : ChannelStep c s t := ⟨h.regs.mono (List.nil_subset _), h.units⟩
theorem psFault (s : State) (d cause : Nat) : ChannelStep c s (s.psFault d cause) := event (.hubaEvent ..)
theorem psTo (s : State) (st : Nat) : ChannelStep c s (s.psTo c st) := put (List.mem_cons_self ..) st
theorem ite {p : Prop} [Decidable p] (a : ChannelStep c s t) (b : ChannelStep c s u) : ChannelStep c s (if p then t else u) := by
  split
  · exact a
  · exact b

theorem psStart (s : State) : ChannelStep c s (s.psStart c) :=
  .ite ((ChannelStep.modPs s c _).trans (.psTo _ psPrecharge)) ((ChannelStep.modPs s c _).trans (.psTo _ psOff))

theorem psShut (s : State) (thermal : Bool) : ChannelStep c s (s.psShut c thermal) := by
  have counted : ChannelStep c s (((s.set (Reg.HUBA_PSC_STATUS_SHUTDOWN c)).bump Reg.HUBA_PS_CNT_SHUTDOWNS).modPs c fun x =>
      { x with startNext := false, stopping := false, gate := {}, thermal := thermal }) :=
    ((ChannelStep.put (by simp [psRegs]) 1).trans (.put (by simp [psRegs]) _)).trans (.modPs ..)
  have shown (x : State) : ChannelStep c x (if thermal then x.set (Reg.HUBA_PSC_STATUS_THERM c) else x.set (Reg.HUBA_PSC_STATUS_ILIM c)) :=
    .ite (.put (by simp [psRegs]) 1) (.put (by simp [psRegs]) 1)
  exact .ite ((counted.trans (shown _)).trans (.psTo _ psOff)) (((counted.trans (shown _)).trans (.psTo ..)).trans (.psFault ..))

theorem get (h : ChannelStep c s t) {f : Fld} (free : f.FreeOf (psRegs c)) : t.get f = s.get f := h.regs f free

end ChannelStep

/-- The common registers stay through a channel's step. -/
theorem ChannelStep.common {c : Fin 2} (h : ChannelStep c s t) {f : Fld} (mem : f ∈ psCommon) : t.get f = s.get f :=
  h.get (psCommon_free c f mem)

theorem ChannelStep.psEn {c : Fin 2} (h : ChannelStep c s t) (d : Nat) : t.psEn d = s.psEn d := by
  unfold State.psEn
  rw [h.common (by simp [psCommon])]

theorem ChannelStep.psSupplyOk {c : Fin 2} (h : ChannelStep c s t) : t.psSupplyOk = s.psSupplyOk := by
  unfold State.psSupplyOk
  rw [h.common (by simp [psCommon])]

theorem ChannelStep.other {c d : Fin 2} (h : ChannelStep c s t) (apart : d ≠ c) : t.psState d = s.psState d :=
  h.get (psRegs_other c d apart _ (by simp))

@[simp] theorem State.ps_put (s : State) (f : Fld) (v c : Nat) : (s.put f v).ps c = s.ps c := rfl
@[simp] theorem State.ps_psTo (s : State) (d st c : Nat) : (s.psTo d st).ps c = s.ps c := rfl
@[simp] theorem State.ps_modPs_same (s : State) (c : Nat) (f : PsCh → PsCh) : (s.modPs c f).ps c = f (s.ps c) := by
  refine (Tab.get_upd {} s.huba.ps c c f).trans (if_pos rfl)
theorem State.ps_psFault (s : State) (d cause c : Nat) : (s.psFault d cause).ps c = s.ps c := by
  unfold State.ps
  rw [State.psFault, (HubEvent.hubaEvent ..).ps]

theorem State.psState_psTo (s : State) (c : Fin 2) {st : Nat} (lt : st < 8) : (s.psTo c st).psState c = st :=
  State.get_put_lt s (Reg.HUBA_PSC_STATUS_STATE c) st lt

theorem State.psState_psFault (s : State) (c : Fin 2) (d cause : Nat) : (s.psFault d cause).psState c = s.psState c :=
  (HubEvent.hubaEvent ..).get (psRegs_free c _ (by simp [psRegs]))

theorem State.psState_psStart (s : State) (c : Fin 2) : (s.psStart c).psState c = if s.psSupplyOk then 1 else 0 := by
  unfold State.psStart
  dsimp only
  split
  · exact State.psState_psTo _ c (by decide)
  · exact State.psState_psTo _ c (by decide)

/-! ### EN (R618, R621) -/

theorem State.psStart_retry (s : State) (c : Fin 2) :
    (s.psStart c).get (Reg.HUBA_PSC_STATUS_RETRY_USED c) = s.get (Reg.HUBA_PSC_STATUS_RETRY_USED c) := by
  have apart := psState_apart c (Reg.HUBA_PSC_STATUS_RETRY_USED c) (by simp [psRegs])
  unfold State.psStart
  dsimp only
  split <;> exact State.get_put_ne _ apart _

/-- The registers that EN of a channel reads and writes stand apart. -/
theorem enRegs_apart (c : Fin 2) : Reg.HUBA_PS_CTL_EN.key ≠ (Reg.HUBA_PSC_STATUS_RETRY_USED c).key ∧
    Reg.HUBA_PS_VSUP_MV.key ≠ (Reg.HUBA_PSC_STATUS_RETRY_USED c).key ∧ Reg.HUBA_PS_VSUP_MV.key ≠ Reg.HUBA_PS_CTL_EN.key ∧
    (Reg.HUBA_PSC_STATUS_STATE c).key ≠ (Reg.HUBA_PSC_STATUS_RETRY_USED c).key ∧
    (Reg.HUBA_PSC_STATUS_STATE c).key ≠ Reg.HUBA_PS_CTL_EN.key ∧ Reg.HUBA_PS_CTL_EN.key ≠ (Reg.HUBA_PSC_STATUS_STATE c).key := by
  decide +revert

/-- A channel with EN that has used no retries. -/
def State.psEnabled (s : State) (c : Nat) : State := (s.setMask Reg.HUBA_PS_CTL_EN c).put (Reg.HUBA_PSC_STATUS_RETRY_USED c) 0

theorem State.psEnabled_shows (s : State) (c : Fin 2) : (s.psEnabled c).psEn c = true ∧ (s.psEnabled c).units = s.units ∧
    (s.psEnabled c).get (Reg.HUBA_PSC_STATUS_RETRY_USED c) = 0 ∧ (s.psEnabled c).psState c = s.psState c ∧
    (s.psEnabled c).psSupplyOk = s.psSupplyOk ∧ (s.psEnabled c).huba = s.huba := by
  obtain ⟨en, supply, supply', state, state', -⟩ := enRegs_apart c
  refine ⟨?_, rfl, State.get_put_same .., (State.get_put_ne _ state 0).trans (State.get_put_ne _ state' _), ?_, rfl⟩
  · rw [State.psEn, State.psEnabled, State.get_put_ne _ en]
    exact State.testBit_setMask s c.isLt
  · unfold State.psSupplyOk
    rw [State.psEnabled, State.get_put_ne _ supply, State.setMask, State.get_put_ne _ supply']

/-- A channel that ramps to zero from sample t and stops. -/
def PsCh.ramp (x : PsCh) (n t : Nat) : PsCh := { x with stopping := true, gate := gateTo x.gate true n t }

section
variable {c : Fin 2} {k : Nat} (host : s.hostUp = true) (restored : s.bit Reg.GLOBAL_RESTORE_DONE = true)
include host restored

theorem exec_psEnWrite_on : exec (.psEnWrite c true k) s =
    .next (if (s.psEn c && !(s.ps c).stopping) = true then s.psEnabled c else (s.psEnabled c).psStart c) := by
  show execPsEnWrite c true k s = _
  rw [execPsEnWrite, State.ifRestored_of host restored]
  rfl

theorem exec_psEnWrite_starts (off : s.psEn c = false) : ∃ t, exec (.psEnWrite c true k) s = .next t ∧ t.psEn c = true ∧
    t.units = s.units ∧ t.get (Reg.HUBA_PSC_STATUS_RETRY_USED c) = 0 ∧ t.psState c = (if s.psSupplyOk then 1 else 0) := by
  obtain ⟨en, units, retry, -, supply, -⟩ := s.psEnabled_shows c
  have start := ChannelStep.psStart (c := c) (s.psEnabled c)
  refine ⟨_, (exec_psEnWrite_on host restored).trans (congrArg _ (if_neg (by simp [off]))), (start.psEn c).trans en,
    start.units.trans units, ((s.psEnabled c).psStart_retry c).trans retry, ?_⟩
  rw [State.psState_psStart, supply]

theorem exec_psEnWrite_again (on : s.psEn c = true) (stays : (s.ps c).stopping = false) : ∃ t, exec (.psEnWrite c true k) s = .next t ∧
    t.psEn c = true ∧ t.units = s.units ∧ t.get (Reg.HUBA_PSC_STATUS_RETRY_USED c) = 0 ∧ t.psState c = s.psState c ∧
    t.huba = s.huba := by
  obtain ⟨en, units, retry, state, -, huba⟩ := s.psEnabled_shows c
  exact ⟨_, (exec_psEnWrite_on host restored).trans (congrArg _ (if_pos (by simp [on, stays]))), en, units, retry, state, huba⟩

theorem exec_psEnWrite_off : exec (.psEnWrite c false k) s = if s.psState c = 2 then
    .next ((s.clrMask Reg.HUBA_PS_CTL_EN c).modPs c fun x => x.ramp (s.samplesMs s.psDom 2) ((s.dom s.psDom).si + k))
    else .next (((s.clrMask Reg.HUBA_PS_CTL_EN c).modPs c fun x => { x with startNext := false }).psTo c 0) := by
  show execPsEnWrite c false k s = _
  rw [execPsEnWrite, State.ifRestored_of host restored]
  rfl

theorem exec_psEnWrite_ramps (runs : s.psState c = 2) : ∃ t, exec (.psEnWrite c false k) s = .next t ∧ t.psEn c = false ∧
    t.psState c = 2 ∧ (t.ps c).stopping = true ∧ t.units = s.units ∧
    (t.ps c).gate = gateTo (s.ps c).gate true (s.samplesMs s.psDom 2) ((s.dom s.psDom).si + k) := by
  have apart := (enRegs_apart c).2.2.2.2.1
  refine ⟨_, (exec_psEnWrite_off host restored).trans (if_pos runs), State.testBit_clrMask .., (State.get_put_ne _ apart _).trans runs,
    ?_, rfl, ?_⟩
  · rw [State.ps_modPs_same]
    rfl
  · rw [State.ps_modPs_same, State.clrMask, State.ps_put]
    rfl

theorem exec_psEnWrite_stops (idle : s.psState c ≠ 2) : ∃ t, exec (.psEnWrite c false k) s = .next t ∧ t.psEn c = false ∧
    t.psState c = 0 ∧ (t.ps c).startNext = false ∧ t.units = s.units := by
  refine ⟨_, (exec_psEnWrite_off host restored).trans (if_neg idle), ?_, State.psState_psTo _ c (by decide), ?_, rfl⟩
  · rw [State.psEn, State.psTo, State.get_put_ne _ (enRegs_apart c).2.2.2.2.2]
    exact State.testBit_clrMask ..
  · rw [State.ps_psTo, State.ps_modPs_same]

end

/-! ### Shutdown and retry (R620, R621) -/

theorem shutRegs_apart (c : Fin 2) : (Reg.HUBA_PSC_STATUS_SHUTDOWN c).key ≠ Reg.HUBA_PS_CNT_SHUTDOWNS.key ∧
    (Reg.HUBA_PSC_STATUS_SHUTDOWN c).key ≠ (Reg.HUBA_PSC_STATUS_ILIM c).key ∧
    (Reg.HUBA_PSC_STATUS_SHUTDOWN c).key ≠ (Reg.HUBA_PSC_STATUS_THERM c).key ∧
    Reg.HUBA_PS_CNT_SHUTDOWNS.key ≠ (Reg.HUBA_PSC_STATUS_SHUTDOWN c).key ∧
    Reg.HUBA_PS_CNT_SHUTDOWNS.key ≠ (Reg.HUBA_PSC_STATUS_ILIM c).key ∧
    Reg.HUBA_PS_CNT_SHUTDOWNS.key ≠ (Reg.HUBA_PSC_STATUS_THERM c).key := by decide +revert

/-- The cause that a shutdown shows. -/
def shutCause (c : Nat) (thermal : Bool) : Fld := if thermal then Reg.HUBA_PSC_STATUS_THERM c else Reg.HUBA_PSC_STATUS_ILIM c

/-- A channel that has shut down, before its state and event. -/
def State.psDown (s : State) (c : Nat) (thermal : Bool) : State :=
  (((s.set (Reg.HUBA_PSC_STATUS_SHUTDOWN c)).bump Reg.HUBA_PS_CNT_SHUTDOWNS).modPs c fun x =>
    { x with startNext := false, stopping := false, gate := {}, thermal := thermal }).set (shutCause c thermal)

/-- The retries of a channel are used up, and this shutdown counts. -/
def State.psLocks (s : State) (c : Nat) (thermal : Bool) : Bool :=
  !(thermal && s.bit Reg.HUBA_PS_CTL_COMPAT) && decide (s.get Reg.HUBA_PS_CTL_RETRIES ≠ 0) &&
    s.get (Reg.HUBA_PSC_STATUS_RETRY_USED c) == s.get Reg.HUBA_PS_CTL_RETRIES

theorem State.psShut_eq (s : State) (c : Nat) (thermal : Bool) : s.psShut c thermal = if s.psEn c = false then (s.psDown c thermal).psTo c 0
    else ((s.psDown c thermal).psTo c (if s.psLocks c thermal then 4 else 3)).psFault c
      (if s.psLocks c thermal then 2 else if thermal then 3 else 1) := by
  unfold State.psShut
  cases thermal <;> simp only [Bool.not_eq_true'] <;> rfl

theorem State.psDown_shows (s : State) (c : Fin 2) (thermal : Bool) : let t := s.psDown c thermal
    t.bit (shutCause c thermal) = true ∧ t.bit (Reg.HUBA_PSC_STATUS_SHUTDOWN c) = true ∧ (t.ps c).startNext = false ∧
      t.get Reg.HUBA_PS_CNT_SHUTDOWNS = min (s.get Reg.HUBA_PS_CNT_SHUTDOWNS + 1) 0xFFFF := by
  obtain ⟨shut, ilim, therm, count, ilim', therm'⟩ := shutRegs_apart c
  have cause : (shutCause c thermal).w = 1 ∧ (Reg.HUBA_PSC_STATUS_SHUTDOWN c).key ≠ (shutCause c thermal).key ∧
      Reg.HUBA_PS_CNT_SHUTDOWNS.key ≠ (shutCause c thermal).key := by
    cases thermal
    · exact ⟨rfl, ilim, ilim'⟩
    · exact ⟨rfl, therm, therm'⟩
  obtain ⟨narrow, apart, apart'⟩ := cause
  refine ⟨State.bit_set_same _ narrow, (State.bit_put_ne _ apart 1).trans ?_, ?_, (State.get_put_ne _ apart' 1).trans ?_⟩
  · exact (State.bit_put_ne _ shut _).trans (State.bit_set_same s rfl)
  · rw [State.psDown, State.set, State.ps_put, State.ps_modPs_same]
  · refine (State.get_bump_same ..).trans ?_
    rw [State.set, State.get_put_ne _ count]
    rfl

/-- What a shutdown shows, and the state it leaves: OFF without EN, LOCKOUT with no retries left, else WAIT. -/
theorem State.psShut_shows (s : State) (c : Fin 2) (thermal : Bool) : let t := s.psShut c thermal
    t.bit (shutCause c thermal) = true ∧ t.bit (Reg.HUBA_PSC_STATUS_SHUTDOWN c) = true ∧ (t.ps c).startNext = false ∧
      t.get Reg.HUBA_PS_CNT_SHUTDOWNS = min (s.get Reg.HUBA_PS_CNT_SHUTDOWNS + 1) 0xFFFF ∧
      t.psState c = if s.psEn c = false then 0 else if s.psLocks c thermal then 4 else 3 := by
  have free := psRegs_free c
  have apart := psState_apart c
  have own : shutCause c thermal ∈ (psRegs c).tail := by cases thermal <;> simp [shutCause, psRegs]
  have after (st : Nat) : let t := (s.psDown c thermal).psTo c st
      t.bit (shutCause c thermal) = true ∧ t.bit (Reg.HUBA_PSC_STATUS_SHUTDOWN c) = true ∧ (t.ps c).startNext = false ∧
        t.get Reg.HUBA_PS_CNT_SHUTDOWNS = min (s.get Reg.HUBA_PS_CNT_SHUTDOWNS + 1) 0xFFFF := by
    obtain ⟨cause, shut, next, count⟩ := s.psDown_shows c thermal
    exact ⟨(State.bit_put_ne _ (apart _ own) st).trans cause, (State.bit_put_ne _ (apart _ (by simp [psRegs])) st).trans shut, next,
      (State.get_put_ne _ (apart _ (by simp [psRegs])) st).trans count⟩
  rw [State.psShut_eq]
  by_cases off : s.psEn c = false
  · rw [if_pos off, if_pos off]
    obtain ⟨cause, shut, next, count⟩ := after 0
    exact ⟨cause, shut, next, count, State.psState_psTo _ c (by decide)⟩
  · rw [if_neg off, if_neg off]
    obtain ⟨cause, shut, next, count⟩ := after (if s.psLocks c thermal then 4 else 3)
    have event := HubEvent.hubaEvent ((s.psDown c thermal).psTo c (if s.psLocks c thermal then 4 else 3)) .fault 0x0132
      (8 * c + if s.psLocks c thermal then 2 else if thermal then 3 else 1) [c, if s.psLocks c thermal then 2 else if thermal then 3 else 1]
    refine ⟨(event.bit (free _ (List.mem_of_mem_tail own))).trans cause, (event.bit (free _ (by simp [psRegs]))).trans shut, ?_,
      (event.get (free _ (by simp [psRegs]))).trans count, ?_⟩
    · rw [State.ps_psFault, next]
    · rw [State.psState_psFault]
      exact State.psState_psTo _ c (by split <;> decide)

theorem exec_psPrechargeDone (c : Fin 2) (s : State) : exec (.psPrechargeDone c) s =
    .next (if s.psState c = 1 then s.modPs c fun x => { x with startNext := true } else s) := rfl

theorem exec_psShutdown (c : Fin 2) (s : State) : exec (.psShutdown c) s = .next (if s.psState c = 2 then s.psShut c false else s) := rfl

theorem exec_retryUsedReset (c : Fin 2) (s : State) : exec (.retryUsedReset c) s =
    .next (if s.psState c = 2 then s.put (Reg.HUBA_PSC_STATUS_RETRY_USED c) 0 else s) := rfl

/-- R620: a current limit counts against the retries. -/
theorem exec_psShutdown_shows {c : Fin 2} (runs : s.psState c = 2) : ∃ t, exec (.psShutdown c) s = .next t ∧
    t.bit (Reg.HUBA_PSC_STATUS_ILIM c) = true ∧ t.bit (Reg.HUBA_PSC_STATUS_SHUTDOWN c) = true ∧ (t.ps c).startNext = false ∧
    t.units = s.units ∧ t.get Reg.HUBA_PS_CNT_SHUTDOWNS = min (s.get Reg.HUBA_PS_CNT_SHUTDOWNS + 1) 0xFFFF ∧
    t.psState c = if s.psEn c = false then 0
      else if s.get Reg.HUBA_PS_CTL_RETRIES ≠ 0 ∧ s.get (Reg.HUBA_PSC_STATUS_RETRY_USED c) = s.get Reg.HUBA_PS_CTL_RETRIES then 4
      else 3 := by
  obtain ⟨ilim, shut, next, count, state⟩ := s.psShut_shows c false
  refine ⟨_, (exec_psShutdown c s).trans (congrArg _ (if_pos runs)), ilim, shut, next, (ChannelStep.psShut (c := c) s false).units, count,
    state.trans (if_congr Iff.rfl rfl (if_congr ?_ rfl rfl))⟩
  simp [State.psLocks]

theorem exec_psRetry_other {c : Fin 2} (other : s.psState c ≠ 3) : exec (.psRetry c) s = .next s := if_neg fun h => other h.1

theorem exec_psRetry {c : Fin 2} (waits : s.psState c = 3) (cold : (s.ps c).thermal = false) : exec (.psRetry c) s =
    .next (((s.bump (Reg.HUBA_PSC_STATUS_RETRY_USED c)).psStart c).psFault c 5) := if_pos ⟨waits, fun h => by simp [cold] at h⟩

theorem exec_psRetry_shows {c : Fin 2} (waits : s.psState c = 3) (cold : (s.ps c).thermal = false) : ∃ t, exec (.psRetry c) s = .next t ∧
    t.units = s.units ∧ t.get (Reg.HUBA_PSC_STATUS_RETRY_USED c) = min (s.get (Reg.HUBA_PSC_STATUS_RETRY_USED c) + 1) 0xFF ∧
    t.psState c = (if s.psSupplyOk then 1 else 0) := by
  have bumped : ChannelStep c s (s.bump (Reg.HUBA_PSC_STATUS_RETRY_USED c)) := .put (by simp [psRegs]) _
  have start := ChannelStep.psStart (c := c) (s.bump (Reg.HUBA_PSC_STATUS_RETRY_USED c))
  have event := HubEvent.hubaEvent ((s.bump (Reg.HUBA_PSC_STATUS_RETRY_USED c)).psStart c) .fault 0x0132 (8 * c + 5) [c, 5]
  refine ⟨_, exec_psRetry waits cold, event.units.trans (start.units.trans bumped.units),
    ((event.get (psRegs_free c _ (by simp [psRegs]))).trans (State.psStart_retry ..)).trans (State.get_bump_same ..), ?_⟩
  rw [State.psState_psFault, State.psState_psStart, bumped.psSupplyOk]

/-! ### Both channels (R622, R623) -/

/-- Both channels in turn: each finds what the channels share as it was, and its own state. -/
theorem State.eachChannel {f : Nat → State → State} (step : ∀ (c : Fin 2) t, ChannelStep c t (f c t)) (s : State) :
    (s.each (List.range 2) f).units = s.units ∧ (∀ r ∈ psCommon, (s.each (List.range 2) f).get r = s.get r) ∧
    ∀ {Q : Nat → State → Prop} (c : Fin 2), (∀ t : State, (∀ r ∈ psCommon, t.get r = s.get r) → t.psState c = s.psState c → Q c (f c t)) →
      (∀ (d : Fin 2) t, c ≠ d → Q c t → Q c (f d t)) → Q c (s.each (List.range 2) f) := by
  have at_ (d : Nat) (mem : d ∈ List.range 2) (t : State) : ChannelStep d t (f d t) := step ⟨d, List.mem_range.1 mem⟩ t
  have common (d : Nat) (mem : d ∈ List.range 2) (t : State) : ∀ r ∈ psCommon, (f d t).get r = t.get r := fun r own =>
    (step ⟨d, List.mem_range.1 mem⟩ t).common own
  refine ⟨?_, ?_, fun {Q} c turn stays => ?_⟩
  · exact State.each_keeps_mem (fun t => t.units = s.units) f s _ (fun d mem t kept => (at_ d mem t).units.trans kept) rfl
  · exact State.each_keeps_mem (fun t => ∀ r ∈ psCommon, t.get r = s.get r) f s _
      (fun d mem t kept r own => (common d mem t r own).trans (kept r own)) fun _ _ => rfl
  · refine State.each_brings (fun t => (∀ r ∈ psCommon, t.get r = s.get r) ∧ t.psState c = s.psState c) (Q c) f List.nodup_range
      (List.mem_range.2 c.isLt) ?_ (fun t ⟨same, state⟩ => turn t same state) ?_ ⟨fun _ _ => rfl, rfl⟩
    · intro d mem other t ⟨same, state⟩
      have apart : c ≠ ⟨d, List.mem_range.1 mem⟩ := fun eq => other (congrArg Fin.val eq).symm
      exact ⟨fun r own => (common d mem t r own).trans (same r own), ((step ⟨d, List.mem_range.1 mem⟩ t).other apart).trans state⟩
    · intro d mem other t done
      exact stays ⟨d, List.mem_range.1 mem⟩ t (fun eq => other (congrArg Fin.val eq).symm) done

theorem State.psEn_of (same : ∀ r ∈ psCommon, t.get r = s.get r) (c : Nat) : t.psEn c = s.psEn c := by
  unfold State.psEn
  rw [same _ (by simp [psCommon])]

theorem State.psSupplyOk_of (same : ∀ r ∈ psCommon, t.get r = s.get r) : t.psSupplyOk = s.psSupplyOk := by
  unfold State.psSupplyOk
  rw [same _ (by simp [psCommon])]

/-- A channel whose supply is out of range. -/
def State.psStarve (c : Nat) (t : State) : State :=
  if t.psState c = psRunning ∨ t.psState c = psPrecharge then
    if t.psEn c then ((t.modPs c fun x => { x with startNext := false, gate := {} }).psTo c psSupply).psFault c 4
    else (t.modPs c fun x => { x with stopping := false, gate := {} }).psTo c psOff
  else t

theorem ChannelStep.psStarve (c : Nat) (t : State) : ChannelStep c t (State.psStarve c t) :=
  .ite (.ite (((ChannelStep.modPs t c _).trans (.psTo ..)).trans (.psFault ..)) ((ChannelStep.modPs t c _).trans (.psTo ..))) .refl

theorem State.psState_psStarve (c : Fin 2) (t : State) : (State.psStarve c t).psState c =
    if t.psState c ∈ [1, 2] then (if t.psEn c then 5 else 0) else t.psState c := by
  unfold State.psStarve psRunning psPrecharge
  have listed : t.psState c ∈ [1, 2] ↔ t.psState c = 2 ∨ t.psState c = 1 := by simp [or_comm]
  by_cases active : t.psState c = 2 ∨ t.psState c = 1
  · rw [if_pos active, if_pos (listed.2 active)]
    split
    · rw [State.psState_psFault]
      exact State.psState_psTo _ c (by decide)
    · exact State.psState_psTo _ c (by decide)
  · rw [if_neg active, if_neg (mt listed.1 active)]

/-- A channel whose supply is back. -/
def State.psFeed (c : Nat) (t : State) : State :=
  if t.psState c = psSupply then (t.psStart c).psFault c 5
  else if t.psState c = psOff ∧ t.psEn c = true then t.psStart c else t

theorem ChannelStep.psFeed (c : Nat) (t : State) : ChannelStep c t (State.psFeed c t) :=
  .ite ((ChannelStep.psStart t).trans (.psFault ..)) (.ite (.psStart t) .refl)

theorem State.psState_psFeed (c : Fin 2) (t : State) (supply : t.psSupplyOk = true) : (State.psFeed c t).psState c =
    if t.psState c = 5 ∨ (t.psState c = 0 ∧ t.psEn c = true) then 1 else t.psState c := by
  have starts : (t.psStart c).psState c = 1 := by rw [State.psState_psStart, supply, if_pos rfl]
  unfold State.psFeed psSupply psOff
  by_cases waits : t.psState c = 5
  · rw [if_pos waits, if_pos (.inl waits), State.psState_psFault, starts]
  · rw [if_neg waits]
    by_cases enabled : t.psState c = 0 ∧ t.psEn c = true
    · rw [if_pos enabled, if_pos (.inr enabled), starts]
    · rw [if_neg enabled, if_neg (by tauto)]

/-- VDD_PS as it was measured. -/
def State.showSupply (s : State) (mv : BitVec 16) : State := s.put Reg.HUBA_PS_VSUP_MV mv.toNat

theorem supply_apart (c : Fin 2) : (Reg.HUBA_PSC_STATUS_STATE c).key ≠ Reg.HUBA_PS_VSUP_MV.key ∧
    Reg.HUBA_PS_CTL_EN.key ≠ Reg.HUBA_PS_VSUP_MV.key := by decide +revert

theorem State.showSupply_shows (s : State) (mv : BitVec 16) : (s.showSupply mv).get Reg.HUBA_PS_VSUP_MV = mv.toNat ∧
    (∀ c : Fin 2, (s.showSupply mv).psState c = s.psState c ∧ (s.showSupply mv).psEn c = s.psEn c) ∧
    (s.showSupply mv).psSupplyOk = (decide (8000 ≤ mv.toNat) && decide (mv.toNat ≤ 20500)) := by
  have shown : (s.showSupply mv).get Reg.HUBA_PS_VSUP_MV = mv.toNat := State.get_put_lt s Reg.HUBA_PS_VSUP_MV mv.toNat mv.isLt
  refine ⟨shown, fun c => ⟨State.get_put_ne _ (supply_apart c).1 _, ?_⟩, ?_⟩
  · rw [State.psEn, State.showSupply, State.get_put_ne _ (supply_apart c).2]
    rfl
  · rw [State.psSupplyOk, shown]

theorem exec_psSupplyFault (mv : BitVec 16) (s : State) : exec (.psSupplyFault mv) s =
    if mv.toNat < 7500 ∨ 21000 < mv.toNat then .next ((s.showSupply mv).each (List.range 2) State.psStarve)
    else .next (s.showSupply mv) := rfl

theorem exec_psSupplyRestart (mv : BitVec 16) (s : State) : exec (.psSupplyRestart mv) s =
    if (s.showSupply mv).psSupplyOk then .next ((s.showSupply mv).each (List.range 2) State.psFeed)
    else .next (s.showSupply mv) := rfl

theorem exec_psSupplyFault_shows {mv : BitVec 16} (out : mv.toNat < 7500 ∨ 21000 < mv.toNat) : ∃ t, exec (.psSupplyFault mv) s = .next t ∧
    t.units = s.units ∧ t.get Reg.HUBA_PS_VSUP_MV = mv.toNat ∧ ∀ c < 2, t.psState c =
      if s.psState c ∈ [1, 2] then (if s.psEn c then 5 else 0) else s.psState c := by
  obtain ⟨shown, channel, -⟩ := s.showSupply_shows mv
  obtain ⟨units, common, each⟩ := State.eachChannel (fun c t => ChannelStep.psStarve c t) (s.showSupply mv)
  refine ⟨_, (exec_psSupplyFault mv s).trans (if_pos out), units, (common _ (by simp [psCommon])).trans shown, fun c lt => ?_⟩
  refine each (Q := fun c t => t.psState c = _) ⟨c, lt⟩ (fun t same state => ?_) fun d t other done =>
    ((ChannelStep.psStarve d t).other other).trans done
  rw [State.psState_psStarve ⟨c, lt⟩, state, State.psEn_of same, (channel ⟨c, lt⟩).1, (channel ⟨c, lt⟩).2]

theorem exec_psSupplyRestart_shows {mv : BitVec 16} (low : 8000 ≤ mv.toNat) (high : mv.toNat ≤ 20500) :
    ∃ t, exec (.psSupplyRestart mv) s = .next t ∧ t.units = s.units ∧ t.get Reg.HUBA_PS_VSUP_MV = mv.toNat ∧ ∀ c < 2, t.psState c =
      if s.psState c = 5 ∨ (s.psState c = 0 ∧ s.psEn c = true) then 1 else s.psState c := by
  obtain ⟨shown, channel, supply⟩ := s.showSupply_shows mv
  have ok : (s.showSupply mv).psSupplyOk = true := by rw [supply, decide_eq_true low, decide_eq_true high, Bool.and_self]
  obtain ⟨units, common, each⟩ := State.eachChannel (fun c t => ChannelStep.psFeed c t) (s.showSupply mv)
  refine ⟨_, (exec_psSupplyRestart mv s).trans (if_pos ok), units, (common _ (by simp [psCommon])).trans shown, fun c lt => ?_⟩
  refine each (Q := fun c t => t.psState c = _) ⟨c, lt⟩ (fun t same state => ?_) fun d t other done =>
    ((ChannelStep.psFeed d t).other other).trans done
  rw [State.psState_psFeed ⟨c, lt⟩ t ((State.psSupplyOk_of same).trans ok), state, State.psEn_of same, (channel ⟨c, lt⟩).1,
    (channel ⟨c, lt⟩).2]

/-- A running channel at 150 °C or above. -/
def State.psOverheat (c : Nat) (t : State) : State := if t.psState c = psRunning then t.psShut c true else t

/-- A channel that a thermal shutdown left waiting, once it is cool. -/
def State.psCool (c : Nat) (t : State) : State :=
  if t.psState c = psWait ∧ (t.ps c).thermal = true then (t.psStart c).psFault c 5 else t

theorem ChannelStep.psOverheat (c : Nat) (t : State) : ChannelStep c t (State.psOverheat c t) := .ite (.psShut t true) .refl

theorem ChannelStep.psCool (c : Nat) (t : State) : ChannelStep c t (State.psCool c t) :=
  .ite ((ChannelStep.psStart t).trans (.psFault ..)) .refl

/-- The reading of the sensor as it shows, with its fold-back. -/
def State.showThermal (s : State) (temp mv : BitVec 16) : State :=
  let s1 := (s.put Reg.HUBA_PS_TEMP_TEMP temp.toNat).put Reg.HUBA_PS_VSUP_MV mv.toNat
  let above := (temp.toInt - 1300).toNat
  let t := (s.dom s.psDom).si
  if s.bit Reg.HUBA_PS_CTL_COMPAT then
    (s1.modHuba fun h => { h with fold0 := s.foldLog (t - 1), foldAt := t,
                                  fold1 := if above = 0 then 0 else Fp.dbToLog2 (ratWord (-(above : Int)) 20 Fp.exBias) }).put
      Reg.HUBA_PS_TEMP_FOLD (above * 5)
  else (s1.modHuba fun h => { h with fold0 := 0, fold1 := 0 }).put Reg.HUBA_PS_TEMP_FOLD 0

theorem exec_psThermalRead (temp mv : BitVec 16) (s : State) : exec (.psThermalRead temp mv) s =
    let s3 := if 1500 ≤ temp.toInt then (s.showThermal temp mv).each (List.range 2) State.psOverheat else s.showThermal temp mv
    .next (if s.bit Reg.HUBA_PS_CTL_COMPAT && decide (temp.toInt < 1200) then s3.each (List.range 2) State.psCool else s3) := rfl

theorem thermal_apart (c : Fin 2) : (Reg.HUBA_PSC_STATUS_STATE c).key ≠ Reg.HUBA_PS_TEMP_TEMP.key ∧
    (Reg.HUBA_PSC_STATUS_STATE c).key ≠ Reg.HUBA_PS_VSUP_MV.key ∧ (Reg.HUBA_PSC_STATUS_STATE c).key ≠ Reg.HUBA_PS_TEMP_FOLD.key := by
  decide +revert

/-- The fold-back that a reading shows, in 0.1 dB: 0.5 dB for each degree above 130 °C in the compatibility mode. -/
def State.foldShown (s : State) (temp : BitVec 16) : Nat :=
  if s.bit Reg.HUBA_PS_CTL_COMPAT then (temp.toInt - 1300).toNat * 5 % 2 ^ 16 else 0

theorem State.showThermal_shows (s : State) (temp mv : BitVec 16) : let t := s.showThermal temp mv
    t.units = s.units ∧ t.get Reg.HUBA_PS_TEMP_TEMP = temp.toNat ∧ t.get Reg.HUBA_PS_VSUP_MV = mv.toNat ∧
      t.get Reg.HUBA_PS_TEMP_FOLD = s.foldShown temp ∧ ∀ c : Fin 2, t.psState c = s.psState c := by
  have after (f : HubaSt → HubaSt) (v : Nat) :
      let t := (((s.put Reg.HUBA_PS_TEMP_TEMP temp.toNat).put Reg.HUBA_PS_VSUP_MV mv.toNat).modHuba f).put Reg.HUBA_PS_TEMP_FOLD v
      t.units = s.units ∧ t.get Reg.HUBA_PS_TEMP_TEMP = temp.toNat ∧ t.get Reg.HUBA_PS_VSUP_MV = mv.toNat ∧
        t.get Reg.HUBA_PS_TEMP_FOLD = v % 2 ^ 16 ∧ ∀ c : Fin 2, t.psState c = s.psState c := by
    refine ⟨rfl, ?_, ?_, State.get_put_same .., fun c => ?_⟩
    · rw [State.get_put_ne _ (by decide), State.get_modHuba, State.get_put_ne _ (by decide)]
      exact State.get_put_lt _ Reg.HUBA_PS_TEMP_TEMP _ temp.isLt
    · rw [State.get_put_ne _ (by decide), State.get_modHuba]
      exact State.get_put_lt _ Reg.HUBA_PS_VSUP_MV _ mv.isLt
    · obtain ⟨a, b, d⟩ := thermal_apart c
      rw [State.psState, State.get_put_ne _ d, State.get_modHuba, State.get_put_ne _ b, State.get_put_ne _ a]
      rfl
  unfold State.showThermal State.foldShown
  dsimp only
  split
  · exact after _ _
  · exact after _ 0

/-- What both stages of a reading leave of what the channels share. -/
theorem State.eachChannel_ite {f : Nat → State → State} (step : ∀ (c : Fin 2) t, ChannelStep c t (f c t)) (s : State) (b : Prop)
    [Decidable b] : (if b then s.each (List.range 2) f else s).units = s.units ∧
      ∀ r ∈ psCommon, (if b then s.each (List.range 2) f else s).get r = s.get r := by
  obtain ⟨units, common, -⟩ := State.eachChannel step s
  split
  · exact ⟨units, common⟩
  · exact ⟨rfl, fun _ _ => rfl⟩

/-- R623: from 150 °C a running channel has shut down, whatever the compatibility mode. -/
theorem State.psOverheat_shows (s : State) (c : Fin 2) (runs : s.psState c = 2) : let t := s.each (List.range 2) State.psOverheat
    t.psState c ∈ [0, 3, 4] ∧ t.bit (Reg.HUBA_PSC_STATUS_THERM c) = true ∧ t.bit (Reg.HUBA_PSC_STATUS_SHUTDOWN c) = true := by
  obtain ⟨-, -, each⟩ := State.eachChannel (fun c t => ChannelStep.psOverheat c t) s
  refine each (Q := fun c t => t.psState c ∈ [0, 3, 4] ∧ t.bit (Reg.HUBA_PSC_STATUS_THERM c) = true ∧
    t.bit (Reg.HUBA_PSC_STATUS_SHUTDOWN c) = true) c (fun t _ state => ?_) fun d t other ⟨state, therm, shut⟩ => ?_
  · obtain ⟨cause, shut, -, -, state'⟩ := t.psShut_shows c true
    rw [State.psOverheat, psRunning, if_pos (state.trans runs)]
    refine ⟨?_, cause, shut⟩
    rw [state']
    split_ifs <;> simp
  · have regs := (ChannelStep.psOverheat d t).regs
    have free := psRegs_other d c other
    refine ⟨?_, (regs.bit (free _ (by simp))).trans therm, (regs.bit (free _ (by simp))).trans shut⟩
    rw [(ChannelStep.psOverheat d t).other other]
    exact state

theorem State.psOverheat_stays (s : State) (c : Fin 2) (idle : s.psState c ≠ 2) :
    (s.each (List.range 2) State.psOverheat).psState c = s.psState c := by
  obtain ⟨-, -, each⟩ := State.eachChannel (fun c t => ChannelStep.psOverheat c t) s
  refine each (Q := fun c t => t.psState c = _) c (fun t _ state => ?_) fun d t other same =>
    ((ChannelStep.psOverheat d t).other other).trans same
  rw [State.psOverheat, psRunning, if_neg (fun runs => idle (state.symm.trans runs)), state]

theorem State.foldShown_cases (s : State) (temp : BitVec 16) : (s.bit Reg.HUBA_PS_CTL_COMPAT = false → s.foldShown temp = 0) ∧
    (s.bit Reg.HUBA_PS_CTL_COMPAT = true → temp.toInt ≤ 1300 → s.foldShown temp = 0) ∧
    (s.bit Reg.HUBA_PS_CTL_COMPAT = true → 1300 ≤ temp.toInt → temp.toInt ≤ 2500 →
      (s.foldShown temp : Int) = 5 * (temp.toInt - 1300)) := by
  unfold State.foldShown
  refine ⟨fun off => by simp [off], fun on cool => ?_, fun on warm bound => ?_⟩
  · rw [if_pos on, Int.toNat_of_nonpos (by omega), Nat.zero_mul, Nat.zero_mod]
  · rw [if_pos on]
    omega

theorem exec_psThermalRead_shows (temp mv : BitVec 16) (s : State) : ∃ t, exec (.psThermalRead temp mv) s = .next t ∧ t.units = s.units ∧
    t.get Reg.HUBA_PS_TEMP_TEMP = temp.toNat ∧ t.get Reg.HUBA_PS_VSUP_MV = mv.toNat ∧ t.get Reg.HUBA_PS_TEMP_FOLD = s.foldShown temp ∧
    ∀ c : Fin 2, (1500 ≤ temp.toInt → s.psState c = 2 → t.psState c ∈ [0, 3, 4] ∧ t.bit (Reg.HUBA_PSC_STATUS_THERM c) = true ∧
      t.bit (Reg.HUBA_PSC_STATUS_SHUTDOWN c) = true) ∧
      (s.psState c ≠ 2 → s.bit Reg.HUBA_PS_CTL_COMPAT = false → t.psState c = s.psState c) ∧
      (temp.toInt < 1500 → s.bit Reg.HUBA_PS_CTL_COMPAT = false → t.psState c = s.psState c) := by
  obtain ⟨units, shown, supply, fold, state⟩ := s.showThermal_shows temp mv
  obtain ⟨units', common'⟩ := State.eachChannel_ite (fun c t => ChannelStep.psOverheat c t) (s.showThermal temp mv) (1500 ≤ temp.toInt)
  obtain ⟨units'', common''⟩ := State.eachChannel_ite (fun c t => ChannelStep.psCool c t)
    (if 1500 ≤ temp.toInt then (s.showThermal temp mv).each (List.range 2) State.psOverheat else s.showThermal temp mv)
    ((s.bit Reg.HUBA_PS_CTL_COMPAT && decide (temp.toInt < 1200)) = true)
  have kept {r : Fld} (own : r ∈ psCommon) := (common'' r own).trans (common' r own)
  refine ⟨_, exec_psThermalRead temp mv s, units''.trans (units'.trans units), (kept (by simp [psCommon])).trans shown,
    (kept (by simp [psCommon])).trans supply, (kept (by simp [psCommon])).trans fold, fun c => ⟨fun hot runs => ?_, fun idle plain => ?_,
      fun cool plain => ?_⟩⟩
  · have warm : decide (temp.toInt < 1200) = false := decide_eq_false (by omega)
    rw [warm, Bool.and_false, if_neg Bool.false_ne_true, if_pos hot]
    exact State.psOverheat_shows _ c ((state c).trans runs)
  · rw [plain, Bool.false_and, if_neg Bool.false_ne_true]
    split
    · exact (State.psOverheat_stays _ c fun runs => idle ((state c).symm.trans runs)).trans (state c)
    · exact state c
  · rw [plain, Bool.false_and, if_neg Bool.false_ne_true, if_neg (by omega)]
    exact state c

end Sys2Proof.Machine

namespace Sys2Proof.Machine

/-- Settles O50: one lemma per command of the power stage and case. -/
theorem powerStages : Obligations.PowerStages := by
  unfold Obligations.PowerStages
  refine ⟨fun c k s host restored => ⟨exec_psEnWrite_starts host restored, exec_psEnWrite_again host restored,
      exec_psEnWrite_ramps host restored, exec_psEnWrite_stops host restored⟩,
    fun c s => ⟨fun ready => ?_, fun other => ?_, fun idle => ⟨?_, ?_⟩, fun runs => ⟨?_, exec_psShutdown_shows runs⟩,
      exec_psRetry_other, exec_psRetry_shows⟩,
    fun mv s => ⟨fun low high => ?_, exec_psSupplyFault_shows, fun out => ?_, exec_psSupplyRestart_shows⟩, fun temp mv s => ?_⟩
  · rw [exec_psPrechargeDone, if_pos ready]
  · rw [exec_psPrechargeDone, if_neg other]
  · rw [exec_psShutdown, if_neg idle]
  · rw [exec_retryUsedReset, if_neg idle]
  · rw [exec_retryUsedReset, if_pos runs]
  · rw [exec_psSupplyFault, if_neg (by omega)]
    rfl
  · rw [exec_psSupplyRestart, if_neg]
    · rfl
    · rw [(s.showSupply_shows mv).2.2, Bool.and_eq_true, decide_eq_true_eq, decide_eq_true_eq]
      omega
  · obtain ⟨t, run, units, shown, supply, fold, channels⟩ := exec_psThermalRead_shows temp mv s
    obtain ⟨plain, cool, warm⟩ := s.foldShown_cases temp
    rw [← fold] at plain cool warm
    exact ⟨t, run, units, shown, supply, plain, cool, warm, fun c lt => channels ⟨c, lt⟩⟩

end Sys2Proof.Machine
end

