-- ==== Sys2Proof/Proofs/RegisterBlocks.lean ====
section
/-! SUPPORT. Blocks of registers that an operation leaves, and what the operations of slots, links and faders leave (R627–R660). -/

namespace Sys2Proof.Machine

variable {a b : Nat} {s t u : State}

/-- No register with an offset from `a` on and below `b` changes, and no unit. -/
structure KeepsBlock (a b : Nat) (s t : State) : Prop where
  get : ∀ f : Fld, f.lo < 32 → a ≤ f.off → f.off < b → t.get f = s.get f
  units : t.units = s.units

theorem KeepsBlock.refl : KeepsBlock a b s s := ⟨fun _ _ _ _ => rfl, rfl⟩

theorem KeepsBlock.trans (x : KeepsBlock a b s t) (y : KeepsBlock a b t u) : KeepsBlock a b s u :=
  ⟨fun f lo low high => (y.get f lo low high).trans (x.get f lo low high), y.units.trans x.units⟩

theorem KeepsBlock.of_regs (regs : t.regs = s.regs) (units : t.units = s.units) : KeepsBlock a b s t :=
  ⟨fun f _ _ _ => State.get_of_regs regs f, units⟩

theorem KeepsBlock.mono {c d : Nat} (low : c ≤ a) (high : b ≤ d) (x : KeepsBlock c d s t) : KeepsBlock a b s t :=
  ⟨fun f lo l h => x.get f lo (low.trans l) (lt_of_lt_of_le h high), x.units⟩

theorem KeepsBlock.bit (x : KeepsBlock a b s t) {f : Fld} (lo : f.lo < 32) (low : a ≤ f.off) (high : f.off < b) : t.bit f = s.bit f := by
  unfold State.bit
  rw [x.get f lo low high]

/-- A register outside the block. -/
abbrev OutOf (a b : Nat) (g : Fld) : Prop := g.lo < 32 ∧ (g.off < a ∨ b ≤ g.off)

theorem KeepsBlock.put {g : Fld} (out : OutOf a b g) (v : Nat) : KeepsBlock a b s (s.put g v) := by
  obtain ⟨small, out⟩ := out
  refine ⟨fun f lo low high => State.get_put_ne s ?_ v, rfl⟩
  unfold Fld.key
  omega

theorem KeepsBlock.ite {c : Prop} [Decidable c] (x : KeepsBlock a b s t) (y : KeepsBlock a b s u) :
    KeepsBlock a b s (if c then t else u) := by
  split
  · exact x
  · exact y

theorem KeepsBlock.raise {g : Fld} (out : OutOf a b g) (v : Nat) : KeepsBlock a b s (s.raise g v) := .ite (.put out v) .refl

theorem KeepsBlock.each {α : Type} {xs : List α} {f : α → State → State} (h : ∀ x ∈ xs, ∀ t, KeepsBlock a b t (f x t)) :
    KeepsBlock a b s (s.each xs f) :=
  State.each_keeps_mem (KeepsBlock a b s) f s xs (fun x mem t kept => kept.trans (h x mem t)) .refl

theorem KeepsBlock.clear {l : List Fld} (out : ∀ g ∈ l, OutOf a b g) : KeepsBlock a b s (s.clear l) :=
  List.foldlRecOn (motive := KeepsBlock a b s) l _ .refl fun _ kept g mem => kept.trans (.put (out g mem) 0)

theorem KeepsBlock.host (above : 0x5000 ≤ a) (h : SameButHost s t) : KeepsBlock a b s t :=
  ⟨fun f lo low _ => h.get f lo (.inr (above.trans low)), h.units⟩

theorem KeepsBlock.writes {l : List Fld} (above : 0x5000 ≤ a) (out : ∀ g ∈ l, OutOf a b g) (h : WritesOnly l s t)
    (units : t.units = s.units) : KeepsBlock a b s t := by
  refine ⟨fun f lo low high => h f ⟨lo, .inr (above.trans low), fun g mem => ?_⟩, units⟩
  obtain ⟨small, out⟩ := out g mem
  unfold Fld.key
  omega

/-- The blocks of the surface: buses, links and servo units, and the slots. -/
abbrev KeepsLinks (s t : State) : Prop := KeepsBlock 0x9010 0x9090 s t
abbrev KeepsSlots (s t : State) : Prop := KeepsBlock 0x9010 0x9800 s t

/-! ### Slots (R630, R631, R639) -/

theorem KeepsBlock.showMir (s : State) : KeepsLinks s s.showMir :=
  .each fun j _ t => .put ⟨show 0 < 32 by decide, .inr (show 0x9090 ≤ 0x9100 + 0x4 * j by omega)⟩ _

/-- The registers of a slot lie beyond those of the links. -/
theorem slot_outside (off : Nat) (slot lo w : Nat) (low : 0x9090 ≤ off) (small : lo < 32) :
    OutOf 0x9010 0x9090 (⟨off + 0x4 * slot, lo, w⟩ : Fld) := ⟨small, .inr (by dsimp only; omega)⟩

theorem KeepsBlock.judge (s : State) (slot : Nat) (r : ModuleRead) : KeepsLinks s (s.judge slot r) := by
  have out (lo w : Nat) (small : lo < 32) := slot_outside 0x9200 slot lo w (by decide) small
  unfold State.judge
  refine .trans (.trans ?_ (.showMir _)) (.host (by decide) (.post ..))
  refine .trans (t := { s with surf := { s.surf with mir := Tab.put [] s.surf.mir slot (if r.answers then r.mir else []) } })
    (.of_regs rfl rfl) ?_
  exact (((((KeepsBlock.put (out 0 1 (by decide)) _).trans (.put (out 1 3 (by decide)) _)).trans (.put (out 4 2 (by decide)) _)).trans
    (.put (out 6 1 (by decide)) _)).trans (.put (out 8 4 (by decide)) _)).trans (.put (out 16 16 (by decide)) _)

theorem KeepsBlock.unseat (s : State) (slot : Nat) : KeepsLinks s (s.unseat slot) := by
  have out (lo w : Nat) (small : lo < 32) := slot_outside 0x9200 slot lo w (by decide) small
  unfold State.unseat
  refine .trans (.trans ?_ (.showMir _)) (.host (by decide) (.postNow ..))
  refine .trans (t := { s with surf := { s.surf with mir := Tab.put [] s.surf.mir slot [] } }) (.of_regs rfl rfl) (.clear ?_)
  simp only [List.forall_mem_cons]
  exact ⟨out 0 1 (by decide), out 1 3 (by decide), out 4 2 (by decide), out 6 1 (by decide), out 8 4 (by decide),
    out 16 16 (by decide), by simp⟩

theorem fader_outside (f lo w : Nat) (small : lo < 32) : OutOf 0x9010 0x9800 (⟨0x9800 + 0x4 * f, lo, w⟩ : Fld) :=
  ⟨small, .inr (by dsimp only; omega)⟩

theorem KeepsBlock.dropFaders (s : State) (slot : Nat) : KeepsSlots s (s.dropFaders slot) := by
  unfold State.dropFaders
  refine .trans (t := s.modSurf _) (.of_regs rfl rfl) (.each fun f _ t => ?_)
  refine .trans (t := (t.modFader f fun _ => {}).modSurf fun x => { x with drive := Tab.put 0 x.drive f 0 }) (.of_regs rfl rfl) (.clear ?_)
  simp only [List.forall_mem_cons]
  exact ⟨fader_outside f 12 1 (by decide), fader_outside f 13 1 (by decide), fader_outside f 15 1 (by decide),
    fader_outside f 17 1 (by decide), by simp⟩

theorem KeepsBlock.countPool (s : State) : KeepsSlots s s.countPool := by
  have used : OutOf 0x9010 0x9800 Reg.AES_ASRC_POOL_USED ∧ OutOf 0x9010 0x9800 Reg.AES_ASRC_POOL_HWM := by decide
  unfold State.countPool
  exact .trans (.put used.1 _) (.raise used.2 _)

theorem enable_outside (p : Fin 16) : OutOf 0x9010 0x9800 (Reg.APORT_P_CTL_EN p) := by decide +revert

theorem KeepsBlock.disablePort (s : State) (p : Fin 16) : KeepsSlots s (s.disablePort p) := by
  have dropped (u : State) (l : List Nat) : KeepsSlots u (u.each l fun a t => t.dropAsrc a) :=
    .each fun a _ t => .of_regs (t := t.dropAsrc a) rfl rfl
  unfold State.disablePort
  exact .trans (.trans (.put (enable_outside p) 0) (dropped _ _)) (.countPool _)

/-- What a receiver or transmitter that is disabled writes first. -/
theorem aes_outside (n : Fin 8) : ∀ g ∈ [Reg.AES_RX_CTL_EN n, Reg.AES_RX_STATUS_LOCK n, Reg.AES_TX_CTL_EN n, Reg.AES_TX_STATUS_RUNNING n,
    Reg.AES_TX_STATUS_GATED n], OutOf 0x9010 0x9800 g := by decide +revert

theorem unlock_outside (n : Fin 8) : ∀ g ∈ Reg.AES_RX_BW_BW n :: anyCandidateRegs, OutOf 0x9010 0x9800 g := by decide +revert

theorem KeepsBlock.disableAesRx (s : State) (n : Fin 8) : KeepsSlots s (s.disableAesRx n) := by
  obtain ⟨regs, units⟩ := (s.put (Reg.AES_RX_CTL_EN n) 0).rxUnlock_keeps n
  have out := aes_outside n
  unfold State.disableAesRx
  exact .trans (.put (out _ (by simp)) 0) (.trans (.put (out (Reg.AES_RX_STATUS_LOCK n) (by simp)) 0)
    (.writes (by decide) (unlock_outside n) regs units))

theorem KeepsBlock.disableAesTx (s : State) (n : Fin 8) : KeepsSlots s (s.disableAesTx n) := by
  have out := aes_outside n
  unfold State.disableAesTx
  exact .trans (.trans (.put (out _ (by simp)) 0) (.put (out _ (by simp)) 0)) (.put (out _ (by simp)) 0)

/-- What a module attaches to lies outside the surface, and its faders beyond its slots. -/
theorem KeepsBlock.detach (s : State) (slot : Nat) : KeepsSlots s (s.detach slot) := by
  have below {m n k : Nat} (mem : k ∈ (List.range n).filter fun k => Nat.testBit m k) : k < n :=
    List.mem_range.1 (List.mem_filter.1 mem).1
  unfold State.detach
  dsimp only
  refine .trans (.trans (.trans (.each fun p mem t => ?_) (.each fun n mem t => ?_)) (.each fun n mem t => ?_))
    (.ite (.dropFaders _ slot) .refl)
  · exact .ite (.disablePort t ⟨p, below mem⟩) .refl
  · exact .ite (.disableAesRx t ⟨n, below mem⟩) .refl
  · exact .disableAesTx t ⟨n, below mem⟩

theorem KeepsBlock.of_slots (h : KeepsSlots s t) : KeepsLinks s t := h.mono (by decide) (by decide)

theorem KeepsBlock.readSlot (s : State) (slot : Nat) (r : ModuleRead) : KeepsLinks s (s.readSlot slot r) := by
  have refused (u : State) : KeepsLinks u (u.detach slot) := .of_slots (.detach u slot)
  exact .ite (.trans (.judge s slot r) (.ite (refused _) .refl)) (.ite (.trans (refused s) (.unseat _ slot)) .refl)

/-- R630: what a read slot adds. -/
theorem KeepsBlock.discovered (s : State) : KeepsSlots s s.discovered := .ite (.put (by decide) 1) .refl

theorem KeepsBlock.sawSlot (s : State) (slot : Nat) : KeepsSlots s (s.sawSlot slot) :=
  .trans (t := s.modSurf fun x => { x with seen := Tab.put false x.seen slot true }) (.of_regs rfl rfl) (.discovered _)

theorem State.sawSlot_seen (s : State) (slot : Nat) : Tab.get false (s.sawSlot slot).surf.seen slot = true := by
  have kept (u : State) : u.discovered.surf = u.surf := by
    unfold State.discovered
    exact (apply_ite State.surf ..).trans (ite_self _)
  rw [State.sawSlot, kept]
  exact Tab.get_put_same false s.surf.seen slot true

/-! ### PRESENT of a slot -/

theorem showMir_outside (j : Fin 16) : OutOf 0x9200 0x9800 (Reg.SURF_MIR_DATA_BYTES j) := by decide +revert

/-- The rest of a slot's registers. -/
def slotRest (slot : Nat) : List Fld := [Reg.SURF_SLOT_VERDICT slot, Reg.SURF_SLOT_ACTION slot, Reg.SURF_SLOT_SE slot,
  Reg.SURF_SLOT_CLASS_IDX slot, Reg.SURF_SLOT_CLASS slot]

theorem slotRest_apart (slot : Nat) : ∀ g ∈ slotRest slot, (Reg.SURF_SLOT_PRESENT slot).key ≠ g.key := by
  simp [slotRest, Fld.key, Reg.SURF_SLOT_PRESENT, Reg.SURF_SLOT_VERDICT, Reg.SURF_SLOT_ACTION, Reg.SURF_SLOT_SE,
    Reg.SURF_SLOT_CLASS_IDX, Reg.SURF_SLOT_CLASS]

theorem present_within (slot : Fin 64) : (Reg.SURF_SLOT_PRESENT slot).outsideHost ∧ 0x9200 ≤ (Reg.SURF_SLOT_PRESENT slot).off ∧
    (Reg.SURF_SLOT_PRESENT slot).off < 0x9800 := by decide +revert

theorem State.present_showMir (s : State) (slot : Fin 64) :
    s.showMir.bit (Reg.SURF_SLOT_PRESENT slot) = s.bit (Reg.SURF_SLOT_PRESENT slot) := by
  have kept : KeepsBlock 0x9200 0x9800 s s.showMir :=
    .each fun j mem t => .put (showMir_outside ⟨j, List.mem_range.1 mem⟩) _
  obtain ⟨-, low, high⟩ := present_within slot
  exact kept.bit (show 0 < 32 by decide) low high

theorem State.present_put (s : State) (slot : Nat) {g : Fld} (mem : g ∈ slotRest slot) (v : Nat) :
    (s.put g v).bit (Reg.SURF_SLOT_PRESENT slot) = s.bit (Reg.SURF_SLOT_PRESENT slot) :=
  State.bit_put_ne s (slotRest_apart slot g mem) v

theorem State.present_judge (s : State) (slot : Fin 64) (r : ModuleRead) :
    (s.judge slot r).bit (Reg.SURF_SLOT_PRESENT slot) = true := by
  unfold State.judge
  obtain ⟨free, -⟩ := present_within slot
  dsimp only
  rw [State.bit, State.get_post _ _ _ _ _ (show 0 < 32 by decide) free, ← State.bit, State.present_showMir]
  rw [State.present_put _ slot (by simp [slotRest]), State.present_put _ slot (by simp [slotRest]), State.putBit,
    State.present_put _ slot (by simp [slotRest]), State.present_put _ slot (by simp [slotRest]),
    State.present_put _ slot (by simp [slotRest])]
  exact State.bit_set_same _ rfl

theorem State.present_unseat (s : State) (slot : Fin 64) : (s.unseat slot).bit (Reg.SURF_SLOT_PRESENT slot) = false := by
  unfold State.unseat
  obtain ⟨free, -⟩ := present_within slot
  dsimp only
  rw [State.bit, State.get_postNow _ _ _ _ _ _ (show 0 < 32 by decide) free, ← State.bit, State.present_showMir]
  simp only [State.clear, List.foldl_cons, List.foldl_nil]
  rw [State.present_put _ slot (by simp [slotRest]), State.present_put _ slot (by simp [slotRest]),
    State.present_put _ slot (by simp [slotRest]), State.present_put _ slot (by simp [slotRest]),
    State.present_put _ slot (by simp [slotRest])]
  exact State.bit_put_same _ rfl 0

/-- PRESENT of a slot that has been read. -/
theorem State.present_readSlot (s : State) (slot : Fin 64) (r : ModuleRead) :
    (s.readSlot slot r).bit (Reg.SURF_SLOT_PRESENT slot) = r.present := by
  obtain ⟨-, low, high⟩ := present_within slot
  have detached (u : State) : (u.detach slot).bit (Reg.SURF_SLOT_PRESENT slot) = u.bit (Reg.SURF_SLOT_PRESENT slot) :=
    (KeepsBlock.detach u slot).bit (show 0 < 32 by decide) (le_trans (by decide) low) high
  unfold State.readSlot
  dsimp only
  split
  · next there =>
    rw [there]
    split
    · exact (detached _).trans (s.present_judge slot r)
    · exact s.present_judge slot r
  · next gone =>
    rw [Bool.eq_false_iff.2 gone]
    split
    · exact State.present_unseat _ slot
    · next none => exact Bool.eq_false_iff.2 none

end Sys2Proof.Machine
end

