-- ==== Sys2Proof/Proofs/FaderWork.lean ====
section
/-! SUPPORT. What the work on a fader leaves: its state, its change and its records (R649, R655–R658). -/

namespace Sys2Proof.Machine

variable {l : List Fld} {s t u : State}

/-- Outside the HOST block only registers of `l` change, of the surface only the records of the faders, and no unit. -/
structure FaderWork (l : List Fld) (s t : State) : Prop where
  regs : WritesOnly l s t
  units : t.units = s.units
  surf : { t.surf with faders := s.surf.faders } = s.surf

theorem FaderWork.refl : FaderWork l s s := ⟨.refl, rfl, rfl⟩

theorem FaderWork.trans (a : FaderWork l s t) (b : FaderWork l t u) : FaderWork l s u := by
  refine ⟨a.regs.trans b.regs, b.units.trans a.units, ?_⟩
  have later := congrArg (fun x : SurfSt => { x with faders := s.surf.faders }) b.surf
  exact later.trans a.surf

theorem FaderWork.of_same (regs : t.regs = s.regs) (units : t.units = s.units) (surf : t.surf = s.surf) : FaderWork l s t :=
  ⟨.of_regs regs, units, by rw [surf]⟩

theorem FaderWork.mono {m : List Fld} (sub : l ⊆ m) (h : FaderWork l s t) : FaderWork m s t := { h with regs := h.regs.mono sub }

theorem FaderWork.put {g : Fld} (mem : g ∈ l) (v : Nat) : FaderWork l s (s.put g v) := ⟨.put mem v, rfl, rfl⟩
theorem FaderWork.modFader (f : Nat) (g : FaderSt → FaderSt) : FaderWork l s (s.modFader f g) := ⟨.of_regs rfl, rfl, rfl⟩
theorem FaderWork.writeRecord (f : Nat) : FaderWork l s (s.writeRecord f) := .of_same rfl rfl rfl

theorem FaderWork.host (h : SameButHost s t) : FaderWork l s t := ⟨.host h, h.units, by rw [h.surf]⟩

theorem FaderWork.ite {c : Prop} [Decidable c] (a : FaderWork l s t) (b : FaderWork l s u) : FaderWork l s (if c then t else u) := by
  split
  · exact a
  · exact b

theorem FaderWork.each {α : Type} {xs : List α} {f : α → State → State} (h : ∀ x ∈ xs, ∀ t, FaderWork l t (f x t)) :
    FaderWork l s (s.each xs f) :=
  State.each_keeps_mem (FaderWork l s) f s xs (fun x mem t kept => kept.trans (h x mem t)) .refl

theorem FaderWork.drive (h : FaderWork l s t) : t.surf.drive = s.surf.drive := (congrArg SurfSt.drive h.surf :)
theorem FaderWork.faults (h : FaderWork l s t) : t.surf.faults = s.surf.faults := (congrArg SurfSt.faults h.surf :)
theorem FaderWork.live (h : FaderWork l s t) : t.surf.live = s.surf.live := (congrArg SurfSt.live h.surf :)

theorem FaderWork.faderEvent (s : State) (f : Nat) : FaderWork l s (s.faderEvent f) :=
  .trans (.host (.postNow ..)) (.modFader f _)

/-- The state bits that a period works out of a fader (R655). -/
def fadeRegs (f : Nat) : List Fld := [Reg.SURF_FADER_STATE_CONTROL f, Reg.SURF_FADER_STATE_PICKUP f, Reg.SURF_FADER_STATE_STALLED f]

theorem FaderWork.faderState (s : State) (f : Nat) : FaderWork (fadeRegs f) s (s.faderState f) := by
  have pickup (u : State) (v : Nat) : FaderWork (fadeRegs f) u (u.put (Reg.SURF_FADER_STATE_PICKUP f) v) := .put (by simp [fadeRegs]) v
  have stalled (u : State) : FaderWork (fadeRegs f) u (u.put (Reg.SURF_FADER_STATE_STALLED f) 0) := .put (by simp [fadeRegs]) 0
  have control (b : Bool) : FaderWork (fadeRegs f) s (s.putBit (Reg.SURF_FADER_STATE_CONTROL f) b) := .put (by simp [fadeRegs]) _
  unfold State.faderState
  dsimp only
  refine .trans ?_ (.modFader f _)
  refine .trans ?_ (.ite (stalled _) .refl)
  refine .ite ((control _).trans (pickup _ 0)) (.ite ?_ ((control _).trans (pickup _ _)))
  exact ((FaderWork.ite ((control _).trans (.faderEvent _ f)) (control _)).trans (.modFader f _)).trans (pickup _ 0)

/-! ### A change of parameters (R441, R454) -/

/-- The registers that a plan of parameters writes lie outside the surface. -/
theorem plan_outside : OutOf 0x9010 0x9800 Reg.SCHED_PARAM_CLAMP_CNT_COUNT ∧ OutOf 0x9010 0x9800 Reg.SCHED_RAMP_RAISE_CNT_COUNT := by
  decide

theorem seq_outside (c lo w : Nat) (small : lo < 32) : OutOf 0x9010 0x9800 (⟨0x20180 + 0x400 * c, lo, w⟩ : Fld) :=
  ⟨small, .inr (by dsimp only; omega)⟩

/-- What the mixing of the surface's registers and state leaves. -/
structure OutsideSurface (s t : State) : Prop where
  block : KeepsSlots s t
  surf : t.surf = s.surf

theorem OutsideSurface.refl : OutsideSurface s s := ⟨.refl, rfl⟩
theorem OutsideSurface.trans (a : OutsideSurface s t) (b : OutsideSurface t u) : OutsideSurface s u :=
  ⟨a.block.trans b.block, b.surf.trans a.surf⟩
theorem OutsideSurface.of_same (regs : t.regs = s.regs) (units : t.units = s.units) (surf : t.surf = s.surf) : OutsideSurface s t :=
  ⟨.of_regs regs units, surf⟩
theorem OutsideSurface.put {g : Fld} (out : OutOf 0x9010 0x9800 g) (v : Nat) : OutsideSurface s (s.put g v) := ⟨.put out v, rfl⟩
theorem OutsideSurface.raise {g : Fld} (out : OutOf 0x9010 0x9800 g) (v : Nat) : OutsideSurface s (s.raise g v) := by
  unfold State.raise
  split
  · exact .put out v
  · exact .refl
theorem OutsideSurface.each {α : Type} {xs : List α} {f : α → State → State} (h : ∀ x t, OutsideSurface t (f x t)) :
    OutsideSurface s (s.each xs f) := State.each_keeps (OutsideSurface s) f (fun x t kept => kept.trans (h x t)) s xs .refl

theorem OutsideSurface.addFades (s : State) (l : List Crossfade) : OutsideSurface s (s.addFades l) := by
  unfold State.addFades
  dsimp only
  exact .trans (t := s.modMix _) (.of_same rfl rfl rfl) (.each fun v t => .of_same rfl rfl rfl)

theorem OutsideSurface.showSeq (s : State) (l : List Change) : OutsideSurface s (s.showSeq l) := by
  unfold State.showSeq
  dsimp only
  exact .each fun c t => .trans (.put (seq_outside c 0 11 (by decide)) _) (.raise (seq_outside c 16 11 (by decide)) _)

theorem OutsideSurface.commitPlan (s : State) (p : Plan) : OutsideSurface s (s.commitPlan p) := by
  unfold State.commitPlan
  dsimp only
  have entered : OutsideSurface s ((s.addEntries p).addFades p.fades) := .trans (t := s.addEntries p) (.of_same rfl rfl rfl) (.addFades _ _)
  exact ((entered.trans (.showSeq _ _)).trans (.put plan_outside.1 _)).trans (.put plan_outside.2 _)

theorem OutsideSurface.mirrorOut (s : State) (m : MirrorCmd) : OutsideSurface s (s.mirrorOut m) := by
  obtain ⟨regs, -, units, -⟩ := s.mirrorOut_spec m
  refine .of_same regs units ?_
  unfold State.mirrorOut State.sendPair
  split
  · dsimp only
    split <;> rfl
  · rfl

theorem OutsideSurface.paramSet (s : State) (target ramp : Nat) (eqPower : Bool) (l : ListAt) (items : List ParamItem)
    (waiters : List Nat) : OutsideSurface s (s.paramSet target ramp eqPower l items waiters).1 := by
  unfold State.paramSet
  split
  · exact .refl
  · split
    · exact .put (seq_outside _ 31 1 (by decide)) 1
    · exact .refl
    · exact (OutsideSurface.commitPlan s _).trans (.mirrorOut _ _)

/-- R656: the change of a fader keeps the drives and the surface's own registers. -/
theorem State.faderChange_keeps (s : State) (f : Nat) : KeepsSlots s (s.faderChange f) ∧ (s.faderChange f).surf.drive = s.surf.drive := by
  have event (u : State) : KeepsSlots u (u.faderEvent f) ∧ (u.faderEvent f).surf.drive = u.surf.drive :=
    have work := FaderWork.faderEvent (l := []) u f
    ⟨.writes (by decide) (by simp) work.regs work.units, work.drive⟩
  unfold State.faderChange
  dsimp only
  split
  · obtain ⟨block, surf⟩ := OutsideSurface.paramSet s 0 (if (s.fader f).fresh then 0 else
      s.samplesMs (s.handleDomain (s.get (Reg.SURF_FADER_BIND_HANDLE f))) RampClass.gain.ms.1) false .inline
      [{ handle := s.get (Reg.SURF_FADER_BIND_HANDLE f), value := s.faderValue f }] []
    generalize (s.paramSet 0 _ false .inline _ []).1 = w at block surf ⊢
    have changed (g : FaderSt → FaderSt) : KeepsSlots s (w.modFader f g) ∧ (w.modFader f g).surf.drive = s.surf.drive :=
      ⟨block.trans (.of_regs rfl rfl), (congrArg SurfSt.drive surf :)⟩
    have told (g : FaderSt → FaderSt) : KeepsSlots s ((w.modFader f g).faderEvent f) ∧
        ((w.modFader f g).faderEvent f).surf.drive = s.surf.drive :=
      ⟨(changed g).1.trans (event _).1, (event _).2.trans (changed g).2⟩
    split
    · split
      · exact changed _
      · exact told _
    · exact told _
  · exact ⟨.refl, rfl⟩

end Sys2Proof.Machine
end

