-- ==== Sys2Proof/Proofs/SurfaceLinksAndFaders.lean ====
section
/-! PROOF. Module slots, surface links, servo periods and faders (R628–R660). -/

namespace Sys2Proof.Machine

variable {s t u : State}

/-! ### Bits of masks that another bit's write leaves -/

theorem State.testBit_setMask_ne (s : State) (f : Fld) {k j : Nat} (other : j ≠ k) (inside : j < f.w) :
    ((s.setMask f k).get f).testBit j = (s.get f).testBit j := by
  rw [State.setMask, State.get_put_same, Nat.testBit_mod_two_pow, decide_eq_true inside, Bool.true_and]
  exact (Nat.testBit_or ..).trans (by rw [Nat.testBit_two_pow_of_ne other.symm, Bool.or_false])

theorem State.testBit_clrMask_ne (s : State) (f : Fld) {k j : Nat} (other : j ≠ k) (inside : j < f.w) :
    ((s.clrMask f k).get f).testBit j = (s.get f).testBit j := by
  rw [State.clrMask, State.get_put_same, Nat.testBit_mod_two_pow, decide_eq_true inside, Bool.true_and]
  split
  · next on => rw [testBit_sub_two_pow_eq on, decide_eq_true other, Bool.and_true]
  · rfl

/-! ### A slot of a module bus (R628, R629, R631) -/

/-- A bus with its multiplexer and the branch of a slot as a poll found them. -/
def State.showBranch (s : State) (slot : Fin 32) (mux there : Bool) : State :=
  let s1 := s.putBit (Reg.SURF_MB_CTL_MUX (slot.val / 8)) mux
  if there then s1.setMask (Reg.SURF_MB_CTL_BRANCHES (slot.val / 8)) (slot.val % 8)
  else s1.clrMask (Reg.SURF_MB_CTL_BRANCHES (slot.val / 8)) (slot.val % 8)

/-- What a poll reads: without a multiplexer a bus has its first branch alone. -/
def polled (slot : Fin 32) (mux : Bool) (r : ModuleRead) : ModuleRead := { r with present := r.present && (mux || slot.val % 8 == 0) }

/-- The slot is as it was read before. -/
def State.readBefore (s : State) (slot : Nat) (r : ModuleRead) : Bool := s.bit (Reg.SURF_SLOT_PRESENT slot) == r.present &&
  (!r.present || (s.mirOf slot == (if r.answers then r.mir else []) && s.get (Reg.SURF_SLOT_VERDICT slot) != 0))

/-- A polled slot. -/
def State.pollSlot (s : State) (slot : Fin 32) (mux : Bool) (r : ModuleRead) : State :=
  let s2 := s.showBranch slot mux ((polled slot mux r).present && r.answers)
  (if s.readBefore slot (polled slot mux r) then s2 else s2.readSlot slot (polled slot mux r)).sawSlot slot

theorem exec_modulePoll (slot : Fin 32) (mux : Bool) (r : ModuleRead) (s : State) : exec (.modulePoll slot mux r) s = .next
    (if s.bit (Reg.SURF_MB_CTL_EN (slot.val / 8)) = true then s.pollSlot slot mux r else s) := by
  show execModulePoll slot mux r s = _
  unfold execModulePoll
  dsimp only
  cases s.bit (Reg.SURF_MB_CTL_EN (slot.val / 8)) <;> rfl

theorem bus_within (slot : Fin 32) : (∀ g ∈ [Reg.SURF_MB_CTL_MUX (slot / 8), Reg.SURF_MB_CTL_BRANCHES (slot / 8)],
    g.lo < 32 ∧ 0x9010 ≤ g.off ∧ g.off < 0x9090 ∧ (Reg.SURF_SLOT_PRESENT slot).key ≠ g.key) ∧
    (Reg.SURF_MB_CTL_MUX (slot / 8)).key ≠ (Reg.SURF_MB_CTL_BRANCHES (slot / 8)).key := by decide +revert

theorem State.showBranch_shows (s : State) (slot : Fin 32) (mux there : Bool) :
    (s.showBranch slot mux there).units = s.units ∧
      (s.showBranch slot mux there).bit (Reg.SURF_MB_CTL_MUX (slot / 8)) = mux ∧
      ((s.showBranch slot mux there).get (Reg.SURF_MB_CTL_BRANCHES (slot / 8))).testBit (slot % 8) = there ∧
      (s.showBranch slot mux there).bit (Reg.SURF_SLOT_PRESENT slot) = s.bit (Reg.SURF_SLOT_PRESENT slot) := by
  obtain ⟨within, apart⟩ := bus_within slot
  have other : (s.putBit (Reg.SURF_MB_CTL_MUX (slot / 8)) mux).bit (Reg.SURF_SLOT_PRESENT slot) = s.bit (Reg.SURF_SLOT_PRESENT slot) :=
    State.bit_put_ne s (within _ (by simp)).2.2.2 _
  have shown : (s.putBit (Reg.SURF_MB_CTL_MUX (slot / 8)) mux).bit (Reg.SURF_MB_CTL_MUX (slot / 8)) = mux := s.bit_putBit_same rfl mux
  have present := (within (Reg.SURF_MB_CTL_BRANCHES (slot / 8)) (by simp)).2.2.2
  unfold State.showBranch
  dsimp only
  cases there with
  | true => exact ⟨rfl, (State.bit_put_ne _ apart _).trans shown, State.testBit_setMask _ (Nat.mod_lt _ (by decide)),
      (State.bit_put_ne _ present _).trans other⟩
  | false => exact ⟨rfl, (State.bit_put_ne _ apart _).trans shown, State.testBit_clrMask .., (State.bit_put_ne _ present _).trans other⟩

theorem State.pollSlot_shows (s : State) (slot : Fin 32) (mux : Bool) (r : ModuleRead) :
    let t := s.pollSlot slot mux r
    let there := r.present && (mux || slot.val % 8 == 0)
    t.units = s.units ∧ t.bit (Reg.SURF_SLOT_PRESENT slot) = there ∧ t.bit (Reg.SURF_MB_CTL_MUX (slot / 8)) = mux ∧
      (t.get (Reg.SURF_MB_CTL_BRANCHES (slot / 8))).testBit (slot % 8) = (there && r.answers) ∧
      Tab.get false t.surf.seen slot = true := by
  obtain ⟨units, shown, branch, present⟩ := s.showBranch_shows slot mux ((polled slot mux r).present && r.answers)
  obtain ⟨within, -⟩ := bus_within slot
  obtain ⟨-, low, high⟩ := present_within (slot.castLE (by decide))
  have saw (u : State) := KeepsBlock.sawSlot u slot
  have link (u : State) (read : KeepsLinks (s.showBranch slot mux ((polled slot mux r).present && r.answers)) u)
      (there : u.bit (Reg.SURF_SLOT_PRESENT slot) = (polled slot mux r).present) :
      (u.sawSlot slot).units = s.units ∧ (u.sawSlot slot).bit (Reg.SURF_SLOT_PRESENT slot) = (polled slot mux r).present ∧
        (u.sawSlot slot).bit (Reg.SURF_MB_CTL_MUX (slot / 8)) = mux ∧
        ((u.sawSlot slot).get (Reg.SURF_MB_CTL_BRANCHES (slot / 8))).testBit (slot % 8) = ((polled slot mux r).present && r.answers) ∧
        Tab.get false (u.sawSlot slot).surf.seen slot = true := by
    obtain ⟨lo, since, before, -⟩ := within (Reg.SURF_MB_CTL_MUX (slot / 8)) (by simp)
    obtain ⟨lo', since', before', -⟩ := within (Reg.SURF_MB_CTL_BRANCHES (slot / 8)) (by simp)
    have both := read.trans (.of_slots (saw u))
    refine ⟨both.units.trans units, ((saw u).bit (show 0 < 32 by decide) (le_trans (by decide) low) high).trans there,
      (both.bit lo since before).trans shown, ?_, u.sawSlot_seen slot⟩
    rw [both.get _ lo' since' before', branch]
  unfold State.pollSlot
  dsimp only
  split
  · next same =>
    refine link _ .refl (present.trans ?_)
    unfold State.readBefore at same
    exact beq_iff_eq.1 (Bool.and_eq_true_iff.1 same).1
  · exact link _ (.readSlot _ slot _) (State.present_readSlot _ (slot.castLE (by decide)) _)

/-! ### Surface links (R642, R643, R660) -/

/-- The registers of the buses and chains. -/
abbrev KeepsChains (s t : State) : Prop := KeepsBlock 0x9010 0x9060 s t

theorem KeepsBlock.of_links (h : KeepsLinks s t) : KeepsChains s t := h.mono (by decide) (by decide)

theorem KeepsBlock.slLink (s : State) (p m up : Nat) : KeepsSlots s (s.slLink p m up) := by
  unfold State.slLink State.surfEvent
  dsimp only
  exact .ite .refl (.trans (t := s.modSurf _) (.of_regs rfl rfl) (.host (by decide) (.postNow ..)))

theorem KeepsBlock.mgmtFailed (s : State) (p : Nat) (r : ModuleRead) : KeepsChains s (s.mgmtFailed p r) := by
  unfold State.mgmtFailed
  exact .ite (.put (⟨show 16 < 32 by decide, .inr (show 0x9060 ≤ 0x9060 + 0x4 * p by omega)⟩) _) .refl

/-- A module of a chain changes its own bit of the modules of its link. -/
structure ChainStep (p m : Nat) (b : Bool) (s t : State) : Prop where
  units : t.units = s.units
  state : t.get (Reg.SURF_SL_STATUS_STATE p) = s.get (Reg.SURF_SL_STATUS_STATE p)
  own : (t.get (Reg.SURF_SL_STATUS_MODULES p)).testBit m = b
  other : ∀ j < 4, j ≠ m → (t.get (Reg.SURF_SL_STATUS_MODULES p)).testBit j = (s.get (Reg.SURF_SL_STATUS_MODULES p)).testBit j

theorem chain_within (p : Fin 8) : (Reg.SURF_SL_STATUS_STATE p).key ≠ (Reg.SURF_SL_STATUS_MODULES p).key ∧
    ∀ g ∈ [Reg.SURF_SL_STATUS_STATE p, Reg.SURF_SL_STATUS_MODULES p], g.lo < 32 ∧ 0x9010 ≤ g.off ∧ g.off < 0x9060 := by
  decide +revert

theorem ChainStep.around {p : Fin 8} {m : Nat} {b : Bool} {s' t' : State} (before : KeepsChains s s') (step : ChainStep p m b s' t')
    (after : KeepsChains t' t) : ChainStep p m b s t := by
  obtain ⟨-, within⟩ := chain_within p
  obtain ⟨lo, low, high⟩ := within (Reg.SURF_SL_STATUS_STATE p) (by simp)
  obtain ⟨lo', low', high'⟩ := within (Reg.SURF_SL_STATUS_MODULES p) (by simp)
  have modules := after.get _ lo' low' high'
  refine ⟨after.units.trans (step.units.trans before.units),
    (after.get _ lo low high).trans (step.state.trans (before.get _ lo low high)), modules.symm ▸ step.own, fun j small ne => ?_⟩
  rw [modules, step.other j small ne, before.get _ lo' low' high']

theorem ChainStep.enumModule (s : State) (p : Fin 8) (m : Nat) (inside : m < 4) (r : ModuleRead) :
    ChainStep p m r.present s (s.enumModule p m r) := by
  obtain ⟨apart, -⟩ := chain_within p
  have before : KeepsChains s (((s.mgmtFailed p r).dropFaders (32 + 4 * p + m)).readSlot (32 + 4 * p + m) r) :=
    (KeepsBlock.mgmtFailed s p r).trans (.of_links (.trans (.of_slots (.dropFaders _ _)) (.readSlot _ _ r)))
  generalize read : ((s.mgmtFailed p r).dropFaders (32 + 4 * p + m)).readSlot (32 + 4 * p + m) r = u at before
  unfold State.enumModule
  dsimp only
  rw [read]
  split
  · next there =>
    have set : ChainStep p m r.present u (u.setMask (Reg.SURF_SL_STATUS_MODULES p) m) :=
      ⟨rfl, State.get_put_ne u apart _, (u.testBit_setMask inside).trans there.symm, fun j small ne => u.testBit_setMask_ne _ ne small⟩
    have told : KeepsChains (u.setMask (Reg.SURF_SL_STATUS_MODULES p) m) ((u.setMask (Reg.SURF_SL_STATUS_MODULES p) m).slLink p m 1) :=
      .of_links (.of_slots (.slLink ..))
    refine .around before set (told.trans (.ite ?_ .refl))
    refine .trans (t := State.modSurf _ _) (.of_regs rfl rfl) (.each fun f _ t => ?_)
    exact .of_links (.of_slots (.put (fader_outside f 17 1 (by decide)) _))
  · next gone =>
    have clear : ChainStep p m r.present u (u.clrMask (Reg.SURF_SL_STATUS_MODULES p) m) :=
      ⟨rfl, State.get_put_ne u apart _, (u.testBit_clrMask ..).trans (Bool.eq_false_iff.2 gone).symm,
        fun j small ne => u.testBit_clrMask_ne _ ne small⟩
    exact .around before clear .refl

/-- A link whose chain has been read. -/
def State.enumerated (s : State) (p : Fin 8) (mods : List ModuleRead) : State :=
  ((s.put (Reg.SURF_SL_STATUS_STATE p.val) 3).each (List.range 4) fun m t =>
    t.enumModule p.val m (((mods.take 4).takeWhile (·.present)).getD m {})).sawSlot (32 + 4 * p.val)

theorem exec_slEnumerate (p : Fin 8) (mods : List ModuleRead) (s : State) : exec (.slEnumerate p mods) s = .next
    (if s.bit (Reg.SURF_SL_CTL_EN p) = true then s.enumerated p mods else s) := by
  show execSlEnumerate p mods s = _
  unfold execSlEnumerate
  cases s.bit (Reg.SURF_SL_CTL_EN p) <;> rfl

theorem State.enumerated_shows (s : State) (p : Fin 8) (mods : List ModuleRead) :
    let t := s.enumerated p mods
    t.units = s.units ∧ t.get (Reg.SURF_SL_STATUS_STATE p) = 3 ∧ ∀ m < 4, (t.get (Reg.SURF_SL_STATUS_MODULES p)).testBit m =
      (((mods.take 4).takeWhile (·.present)).getD m {}).present := by
  obtain ⟨-, within⟩ := chain_within p
  obtain ⟨lo, low, high⟩ := within (Reg.SURF_SL_STATUS_STATE p) (by simp)
  obtain ⟨lo', low', high'⟩ := within (Reg.SURF_SL_STATUS_MODULES p) (by simp)
  have step (m : Nat) (mem : m ∈ List.range 4) (t : State) :=
    ChainStep.enumModule t p m (List.mem_range.1 mem) (((mods.take 4).takeWhile (·.present)).getD m {})
  have saw (u : State) : KeepsChains u (u.sawSlot (32 + 4 * p.val)) := .of_links (.of_slots (.sawSlot ..))
  refine ⟨(saw _).units.trans ?_, ((saw _).get _ lo low high).trans ?_, fun m small => ?_⟩
  · exact State.each_keeps_mem (fun t => t.units = s.units) _ _ _ (fun m mem t kept => (step m mem t).units.trans kept) rfl
  · exact State.each_keeps_mem (fun t => t.get (Reg.SURF_SL_STATUS_STATE p) = 3) _ _ _
      (fun m mem t kept => (step m mem t).state.trans kept) (State.get_put_same ..)
  · unfold State.enumerated
    rw [(saw _).get _ lo' low' high']
    exact State.each_brings (fun _ => True) (fun u => (u.get (Reg.SURF_SL_STATUS_MODULES p)).testBit m = _) _ List.nodup_range
      (List.mem_range.2 small) (fun _ _ _ _ _ => trivial) (fun t _ => (step m (List.mem_range.2 small) t).own)
      (fun j mem ne t shown => ((step j mem t).other m small ne.symm).trans shown) trivial

/-- A link that enumerates again. -/
def State.restartLink (s : State) (p : Fin 8) : State :=
  (s.put (Reg.SURF_SL_STATUS_STATE p.val) 2).each (List.range 4) fun m t => t.dropFaders (32 + 4 * p.val + m)

theorem exec_slRestart (p : Fin 8) (s : State) : exec (.slRestart p) s = s.ifHost (.next
    (if s.bit (Reg.SURF_SL_CTL_EN p) = true then s.restartLink p else s)) := by
  show execSlRestart p s = _
  unfold execSlRestart
  congr 1
  rw [apply_ite Host.Outcome.next]
  rfl

theorem State.surf_clear (s : State) (l : List Fld) : (s.clear l).surf = s.surf :=
  List.foldlRecOn (motive := fun t : State => t.surf = s.surf) l _ rfl fun _ kept _ _ => kept

theorem State.live_dropFaders (s : State) (slot : Nat) : (s.dropFaders slot).surf.live = Tab.put false s.surf.live (slot - 32) false := by
  refine State.each_keeps (fun t : State => t.surf.live = Tab.put false s.surf.live (slot - 32) false) _ (fun f t kept => ?_) _ _ rfl
  rw [State.surf_clear]
  exact kept

theorem State.restartLink_shows (s : State) (p : Fin 8) :
    let t := s.restartLink p
    t.units = s.units ∧ t.get (Reg.SURF_SL_STATUS_STATE p) = 2 ∧ ∀ m < 4, Tab.get false t.surf.live (4 * p + m) = false := by
  obtain ⟨-, within⟩ := chain_within p
  obtain ⟨lo, low, high⟩ := within (Reg.SURF_SL_STATUS_STATE p) (by simp)
  have dropped : KeepsChains (s.put (Reg.SURF_SL_STATUS_STATE p.val) 2) (s.restartLink p) :=
    .each fun m _ t => .of_links (.of_slots (.dropFaders t _))
  refine ⟨dropped.units, (dropped.get _ lo low high).trans (State.get_put_same ..), fun m small => ?_⟩
  have live (t : State) (k : Nat) : Tab.get false (t.dropFaders (32 + 4 * p.val + k)).surf.live (4 * p + m) =
      if 4 * p.val + m = 4 * p.val + k then false else Tab.get false t.surf.live (4 * p + m) := by
    rw [State.live_dropFaders, Tab.get_put, show 32 + 4 * p.val + k - 32 = 4 * p.val + k by omega]
  refine State.each_brings (fun _ => True) (fun u => Tab.get false u.surf.live (4 * p + m) = false) _ List.nodup_range
    (List.mem_range.2 small) (fun _ _ _ _ _ => trivial) (fun t _ => (live t m).trans (if_pos rfl)) (fun k _ _ t shown => ?_) trivial
  rw [live, shown, ite_self]

/-! ### The permission of a fader (R649, R658) -/

/-- The registers that a permission reads. -/
def permitRegs (f : Nat) : List Fld := [Reg.SURF_FADER_STATE_MOTOR f, Reg.SURF_FADER_BIND_HANDLE f, Reg.SURF_FADER_STATE_TOUCH f,
  Reg.SURF_FADER_STATE_STALLED f, Reg.PAIR_STATUS_ROLE]

theorem State.permit_of_same {f : Nat} (live : t.surf.live = s.surf.live) (mir : t.surf.mir = s.surf.mir)
    (regs : ∀ g ∈ permitRegs f, t.get g = s.get g) : t.permit f = s.permit f := by
  have motor := regs (Reg.SURF_FADER_STATE_MOTOR f) (by simp [permitRegs])
  have handle := regs (Reg.SURF_FADER_BIND_HANDLE f) (by simp [permitRegs])
  have touch := regs (Reg.SURF_FADER_STATE_TOUCH f) (by simp [permitRegs])
  have stalled := regs (Reg.SURF_FADER_STATE_STALLED f) (by simp [permitRegs])
  have role := regs Reg.PAIR_STATUS_ROLE (by simp [permitRegs])
  unfold State.permit State.faderLive State.bound State.mayDrive State.mirOf State.bit
  rw [live, mir, motor, handle, touch, stalled, role]

/-! ### A servo period (R644, R654) -/

/-- The next period opens at its SI, with the law that was committed. -/
def State.openPeriod (s : State) (si : Nat) : State := s.modSurf fun x =>
  { x with period := (x.period + 1) % 2 ^ 32, si := si, law := x.lawNext.getD x.law, lawNext := none, released := [] }

/-- The drive of each fader that goes out with SERVO_DN. -/
def State.showSent (s : State) : State := s.each (List.range 256) fun f t =>
  t.putBit (Reg.SURF_FADER_STATE_EN_SENT f) (Nat.testBit (Tab.get 0 t.surf.drive f) 11 && t.permit f)

theorem exec_servoCycle (si : BitVec 64) (s : State) : exec (.servoCycle si) s = .next
    ((((s.openPeriod si.toNat).showSent.each (List.range 256) fun f t => t.aim f).readmitServos).each (List.range 4)
      fun k t => t.startServo k) := by
  show execServoCycle si s = _
  unfold execServoCycle
  rfl

/-- No EN_SENT is what a permission reads, or another's. -/
theorem sent_apart (f g : Nat) (small : f < 256) : ∀ r ∈ permitRegs g, r.key ≠ (Reg.SURF_FADER_STATE_EN_SENT f).key := by
  simp only [permitRegs, List.forall_mem_cons, Fld.key, Reg.SURF_FADER_STATE_MOTOR, Reg.SURF_FADER_BIND_HANDLE,
    Reg.SURF_FADER_STATE_TOUCH, Reg.SURF_FADER_STATE_STALLED, Reg.PAIR_STATUS_ROLE, Reg.SURF_FADER_STATE_EN_SENT]
  refine ⟨?_, ?_, ?_, ?_, ?_, by simp⟩ <;> omega

theorem sent_other {f g : Nat} (other : f ≠ g) : (Reg.SURF_FADER_STATE_EN_SENT f).key ≠ (Reg.SURF_FADER_STATE_EN_SENT g).key := by
  simp only [Fld.key, Reg.SURF_FADER_STATE_EN_SENT]
  omega

theorem State.permit_sent (s : State) {f : Nat} (g : Nat) (small : f < 256) (b : Bool) :
    (s.putBit (Reg.SURF_FADER_STATE_EN_SENT f) b).permit g = s.permit g :=
  State.permit_of_same rfl rfl fun r mem => State.get_put_ne s (sent_apart f g small r mem) _

theorem State.showSent_keeps (s : State) : s.showSent.surf = s.surf ∧ s.showSent.units = s.units := by
  unfold State.showSent
  refine State.each_keeps (fun t : State => t.surf = s.surf ∧ t.units = s.units) _ ?_ s _ ⟨rfl, rfl⟩
  exact fun _ _ kept => kept

theorem State.showSent_shows (s : State) {f : Nat} (small : f < 256) :
    s.showSent.bit (Reg.SURF_FADER_STATE_EN_SENT f) = ((Tab.get 0 s.surf.drive f).testBit 11 && s.permit f) := by
  unfold State.showSent
  refine State.each_brings (fun t => t.surf = s.surf ∧ t.permit f = s.permit f) (fun t => t.bit (Reg.SURF_FADER_STATE_EN_SENT f) = _) _
    List.nodup_range (List.mem_range.2 small) ?_ ?_ ?_ ⟨rfl, rfl⟩
  · exact fun g mem _ t ⟨surf, permit⟩ => ⟨surf, (t.permit_sent f (List.mem_range.1 mem) _).trans permit⟩
  · rintro t ⟨surf, permit⟩
    rw [State.bit_putBit_same _ rfl, surf, permit]
  · exact fun g _ other t shown => (State.bit_put_ne t (sent_other other.symm) _).trans shown

theorem FaderWork.aim (l : List Fld) (s : State) (f : Nat) : FaderWork l s (s.aim f) := .ite (.modFader f _) .refl

/-- What the start of servo firings leaves: the surface, the drives shown, and each compute unit. -/
structure KeepsSent (s t : State) : Prop where
  surf : t.surf = s.surf
  sent : ∀ f, t.get (Reg.SURF_FADER_STATE_EN_SENT f) = s.get (Reg.SURF_FADER_STATE_EN_SENT f)
  units : ∀ u < 512, t.unit u = s.unit u

theorem KeepsSent.refl : KeepsSent s s := ⟨rfl, fun _ => rfl, fun _ _ => rfl⟩

theorem KeepsSent.trans (a : KeepsSent s t) (b : KeepsSent t u) : KeepsSent s u :=
  ⟨b.surf.trans a.surf, fun f => (b.sent f).trans (a.sent f), fun u small => (b.units u small).trans (a.units u small)⟩

theorem KeepsSent.of_same (surf : t.surf = s.surf) (regs : t.regs = s.regs) (units : t.units = s.units) : KeepsSent s t :=
  ⟨surf, fun _ => State.get_of_regs regs _, fun u _ => State.unit_of_units units u⟩

theorem KeepsSent.put {g : Fld} (lo : g.lo < 16) (v : Nat) : KeepsSent s (s.put g v) := by
  refine ⟨rfl, fun f => State.get_put_ne s ?_ v, fun _ _ => rfl⟩
  unfold Fld.key Reg.SURF_FADER_STATE_EN_SENT
  dsimp only
  omega

theorem KeepsSent.each {α : Type} {xs : List α} {f : α → State → State} (h : ∀ x t, KeepsSent t (f x t)) :
    KeepsSent s (s.each xs f) := State.each_keeps (KeepsSent s) f (fun x t kept => kept.trans (h x t)) s xs .refl

theorem KeepsSent.loadUnit (s : State) (u d : Nat) : KeepsSent s (s.loadUnit u d) := by
  unfold State.loadUnit
  split
  · exact .refl
  · exact .of_same rfl rfl rfl

/-- R650: a servo unit that returns. -/
def State.servoBack (s : State) (k : Nat) : State :=
  let t1 := (s.clrMask Reg.SURF_SERVO_STATUS_QUAR k).put (Reg.SURF_SERVO_CYC_HWM_CYCLES k) 0
  match t1.active with
  | some i => (match i.servoProg with | some dg => t1.loadUnit (512 + k) dg | none => t1)
  | none => t1

theorem KeepsSent.servoBack (s : State) (k : Nat) : KeepsSent s (s.servoBack k) := by
  have shown : KeepsSent s ((s.clrMask Reg.SURF_SERVO_STATUS_QUAR k).put (Reg.SURF_SERVO_CYC_HWM_CYCLES k) 0) :=
    .trans (.put (show 4 < 16 by decide) _) (.put (show 0 < 16 by decide) 0)
  unfold State.servoBack
  dsimp only
  split
  · split
    · exact shown.trans (.loadUnit ..)
    · exact shown
  · exact shown

/-- R650: servo units whose re-admission is due return. -/
theorem KeepsSent.readmitServos (s : State) : KeepsSent s s.readmitServos := by
  have back (k : Nat) (t : State) : KeepsSent t (t.servoBack k) := .servoBack t k
  have returned (l : List Readmit) (due : Readmit → List Nat) (u : State) :
      KeepsSent u (u.each l fun r t => t.each (due r) fun k t => t.servoBack k) := .each fun r t => .each fun k t => back k t
  have waits (u : State) (f : SchedSt → SchedSt) : KeepsSent u (u.modSched f) := .of_same rfl rfl rfl
  have told (u : State) (l : List Readmit) : KeepsSent u (u.each l fun r t =>
      t.finish r.hdr 0x0602 (if r.late then .late else .ok) 0 s.surf.si 0) := .each fun r t => .of_same rfl rfl rfl
  unfold State.readmitServos
  dsimp only
  exact .trans (.trans (returned _ _ s) (waits _ _)) (told _ _)

theorem KeepsSent.writeRecord (s : State) (f : Nat) : KeepsSent s (s.writeRecord f) := .of_same rfl rfl rfl

theorem KeepsSent.startServo (s : State) (k : Nat) : KeepsSent s (s.startServo k) := by
  have started (v : State) (f : UnitSt → UnitSt) : KeepsSent v (v.modUnit (512 + k) f) :=
    ⟨rfl, fun _ => rfl, fun u small => (v.unit_modUnit (512 + k) u f).trans (if_neg (by omega))⟩
  have header (m : Memory) : KeepsSent s { s with lmem := m } := .of_same rfl rfl rfl
  unfold State.startServo
  dsimp only
  split
  · exact .refl
  · split
    · exact .trans (.trans (header _) (.each fun j t => .writeRecord t _)) (started _ _)
    · exact .refl

/-- What follows once the drives have gone out. -/
theorem State.servoCycle_runs (si : BitVec 64) (s : State) : ∃ t, exec (.servoCycle si) s = .next t ∧
    { t.surf with faders := s.surf.faders } = { (s.openPeriod si.toNat).showSent.surf with faders := s.surf.faders } ∧
    (∀ f < 256, t.get (Reg.SURF_FADER_STATE_EN_SENT f) = (s.openPeriod si.toNat).showSent.get (Reg.SURF_FADER_STATE_EN_SENT f)) ∧
    ∀ u < 512, t.unit u = (s.openPeriod si.toNat).showSent.unit u := by
  have aimed (v : State) : FaderWork [] v (v.each (List.range 256) fun f t => t.aim f) := .each fun f _ t => .aim [] t f
  have started (a : State) : KeepsSent a (a.readmitServos.each (List.range 4) fun k t => t.startServo k) :=
    .trans (.readmitServos a) (.each fun k t => .startServo t k)
  refine ⟨_, exec_servoCycle si s, ?_, fun f small => ?_, fun u small => ?_⟩
  · rw [(started _).surf]
    have work := (aimed (s.openPeriod si.toNat).showSent).surf
    generalize (s.openPeriod si.toNat).showSent = v at work ⊢
    generalize v.each (List.range 256) (fun f t => t.aim f) = a at work ⊢
    exact congrArg (fun x : SurfSt => { x with faders := s.surf.faders }) work
  · refine ((started _).sent f).trans ((aimed _).regs _ ⟨show 16 < 32 by decide, .inr ?_, by simp⟩)
    exact le_trans (by decide) (Nat.le_add_right 0x9800 (0x4 * f))
  · exact ((started _).units u small).trans (State.unit_of_units (aimed _).units u)

/-- A servo period and its drives. -/
theorem exec_servoCycle_shows (si : BitVec 64) (s : State) : ∃ t, exec (.servoCycle si) s = .next t ∧
    t.surf.period = (s.surf.period + 1) % 2 ^ 32 ∧ t.surf.si = si.toNat ∧ t.surf.law = s.surf.lawNext.getD s.surf.law ∧
    t.surf.lawNext = none ∧ t.surf.released = [] ∧ (∀ u, u < 512 → t.unit u = s.unit u) ∧
    ∀ f < 256, t.bit (Reg.SURF_FADER_STATE_EN_SENT f) = ((Tab.get 0 s.surf.drive f).testBit 11 && s.permit f) := by
  obtain ⟨surf, units⟩ := (s.openPeriod si.toNat).showSent_keeps
  obtain ⟨t, run, aimed, started⟩ := State.servoCycle_runs si s
  have opened : { t.surf with faders := s.surf.faders } = { (s.openPeriod si.toNat).surf with faders := s.surf.faders } :=
    aimed.trans (by rw [surf])
  refine ⟨t, run, (congrArg SurfSt.period opened :), (congrArg SurfSt.si opened :), (congrArg SurfSt.law opened :),
    (congrArg SurfSt.lawNext opened :), (congrArg SurfSt.released opened :), fun u small => ?_, fun f small => ?_⟩
  · exact (started.2 u small).trans (State.unit_of_units units u)
  · rw [State.bit, started.1 f small, ← State.bit, State.showSent_shows _ small]
    exact congrArg (_ && ·) (State.permit_of_same rfl rfl fun _ _ => rfl)

/-! ### A SERVO_UP frame (R645, R653, R655) -/

/-- The bits that a period works out have places of their own in the state of a fader. -/
theorem fadeRegs_place {fs : List Nat} {g : Fld} (mem : g ∈ fs.flatMap fadeRegs) : 13 ≤ g.lo ∧ g.lo < 16 := by
  obtain ⟨f, -, own⟩ := List.mem_flatMap.1 mem
  simp only [fadeRegs, List.mem_cons, List.not_mem_nil, or_false] at own
  rcases own with rfl | rfl | rfl <;>
    simp [Reg.SURF_FADER_STATE_CONTROL, Reg.SURF_FADER_STATE_PICKUP, Reg.SURF_FADER_STATE_STALLED]

theorem free_of_place {fs : List Nat} {f : Fld} (place : f.lo < 13) (outside : 0x9000 ≤ f.off) : f.FreeOf (fs.flatMap fadeRegs) := by
  refine ⟨by omega, .inr (le_trans (by decide) outside), fun g mem => ?_⟩
  obtain ⟨low, high⟩ := fadeRegs_place mem
  unfold Fld.key
  omega

/-- The faders that a frame of a module reports. -/
def State.reported (s : State) (k : Nat) : List Nat := (slotFaders (32 + k)).take (mirFaders (s.mirOf (32 + k)))

/-- What a frame reports of a fader. -/
def State.showRaw (w : ServoUp) (f : Nat) (t : State) : State :=
  let v := w.faders.getD (f % 8) (0, false, false)
  if v.2.2 then
    let t1 := (t.put (Reg.SURF_FADER_STATE_RAW f) v.1).putBit (Reg.SURF_FADER_STATE_TOUCH f) v.2.1
    let pos := t1.posOf f (v.1 % 4096)
    t1.modFader f fun x =>
      let x1 : FaderSt := if x.valid then x else { x with valid := true, lastRaw := v.1 % 4096 }
      { x1 with pos := pos }
  else t

/-- A missing or faulty frame of module `k` of the links. -/
def State.missFrame (s : State) (p : Fin 8) (k : Nat) : State :=
  (s.modSurf fun x => { x with faults := Tab.put 0 x.faults k (Tab.get 0 x.faults k + 1) }).bump (Reg.SURF_SL_CNT_UP_ERR p.val)

/-- A good frame. -/
def State.takeFrame (s : State) (k : Nat) (w : ServoUp) : State :=
  (s.modSurf fun x => { x with faults := Tab.put 0 x.faults k 0 }).each (s.reported k) fun f t => State.showRaw w f t

/-- The reported faders in the period. -/
def State.workFaders (s : State) (fs : List Nat) : State :=
  s.each fs fun f t => if (t.fader f).valid then (t.faderState f).writeRecord f else t

theorem exec_servoUpReceived (p : Fin 8) (m : Fin 4) (u : Option ServoUp) (s : State) : exec (.servoUpReceived p m u) s = .next
    (if Tab.get false s.surf.live (4 * p.val + m.val) = true then
      (match u with
        | none => s.missFrame p (4 * p.val + m.val)
        | some w => s.takeFrame (4 * p.val + m.val) w).workFaders (s.reported (4 * p.val + m.val)) else s) := by
  show execServoUpReceived p m u s = _
  unfold execServoUpReceived
  dsimp only
  cases Tab.get false s.surf.live (4 * p.val + m.val)
  · rfl
  · cases u <;> rfl

theorem FaderWork.workFaders (s : State) (fs : List Nat) : FaderWork (fs.flatMap fadeRegs) s (s.workFaders fs) := by
  refine .each fun f mem t => .ite (.trans (.mono (fun g own => List.mem_flatMap.2 ⟨f, mem, own⟩) (.faderState t f)) (.writeRecord f)) .refl

theorem State.missFrame_shows (s : State) (p : Fin 8) (k : Nat) (fs : List Nat) :
    let t := (s.missFrame p k).workFaders fs
    t.units = s.units ∧ Tab.get 0 t.surf.faults k = Tab.get 0 s.surf.faults k + 1 ∧
      t.get (Reg.SURF_SL_CNT_UP_ERR p) = min (s.get (Reg.SURF_SL_CNT_UP_ERR p) + 1) 0xFFFF := by
  have work := FaderWork.workFaders (s.missFrame p k) fs
  refine ⟨work.units, ?_, ?_⟩
  · rw [work.faults]
    show Tab.get 0 (Tab.put 0 s.surf.faults k (Tab.get 0 s.surf.faults k + 1)) k = _
    exact Tab.get_put_same ..
  · rw [work.regs _ (free_of_place (show 0 < 13 by decide) (le_trans (by decide) (Nat.le_add_right 0x9060 (0x4 * p.val))))]
    exact State.get_bump_same ..

/-- The two registers that a frame shows of a fader. -/
def rawRegs (f : Nat) : List Fld := [Reg.SURF_FADER_STATE_RAW f, Reg.SURF_FADER_STATE_TOUCH f]

theorem rawRegs_apart {f g : Nat} (other : f ≠ g) : ∀ x ∈ rawRegs f, ∀ y ∈ rawRegs g, x.key ≠ y.key := by
  simp only [rawRegs, List.forall_mem_cons, Fld.key, Reg.SURF_FADER_STATE_RAW, Reg.SURF_FADER_STATE_TOUCH]
  refine ⟨⟨?_, ?_, by simp⟩, ⟨?_, ?_, by simp⟩, by simp⟩ <;> omega

theorem raw_touch (f : Nat) : (Reg.SURF_FADER_STATE_RAW f).key ≠ (Reg.SURF_FADER_STATE_TOUCH f).key := by
  simp [Fld.key, Reg.SURF_FADER_STATE_RAW, Reg.SURF_FADER_STATE_TOUCH]

theorem FaderWork.showRaw (w : ServoUp) (f : Nat) (t : State) : FaderWork (rawRegs f) t (t.showRaw w f) := by
  unfold State.showRaw
  dsimp only
  exact .ite (((FaderWork.put (by simp [rawRegs]) _).trans (.put (by simp [rawRegs]) _)).trans (.modFader f _)) .refl

theorem State.showRaw_shows (w : ServoUp) (f : Nat) (t : State) (valid : (w.faders.getD (f % 8) (0, false, false)).2.2 = true) :
    (t.showRaw w f).get (Reg.SURF_FADER_STATE_RAW f) = (w.faders.getD (f % 8) (0, false, false)).1 % 4096 ∧
      (t.showRaw w f).bit (Reg.SURF_FADER_STATE_TOUCH f) = (w.faders.getD (f % 8) (0, false, false)).2.1 := by
  unfold State.showRaw
  dsimp only
  rw [if_pos valid]
  exact ⟨(State.get_put_ne _ (raw_touch f) _).trans (State.get_put_same ..), State.bit_putBit_same _ rfl _⟩

theorem State.showRaw_other (w : ServoUp) {f g : Nat} (other : f ≠ g) (t : State) : ∀ x ∈ rawRegs g, (t.showRaw w f).get x = t.get x := by
  intro x mem
  have apart := rawRegs_apart other.symm x mem
  have place : x.lo < 13 ∧ 0x9800 ≤ x.off := by
    simp only [rawRegs, List.mem_cons, List.not_mem_nil, or_false] at mem
    rcases mem with rfl | rfl
    · exact ⟨show 0 < 13 by decide, Nat.le_add_right 0x9800 (0x4 * g)⟩
    · exact ⟨show 12 < 13 by decide, Nat.le_add_right 0x9800 (0x4 * g)⟩
  exact (FaderWork.showRaw w f t).regs x ⟨by omega, .inr (le_trans (by decide) place.2), apart⟩

theorem slotFaders_getD (k : Nat) {i : Nat} (small : i < 8) :
    (slotFaders (32 + k)).getD i 0 = k / 4 * 32 + k % 4 * 8 + i := by
  simp [slotFaders, List.getD_eq_getElem?_getD, small]

theorem State.reported_once (s : State) (k : Nat) : (s.reported k).Nodup :=
  (List.nodup_range.map (add_right_injective _)).sublist (List.take_sublist ..)

theorem State.mem_reported (s : State) (k : Nat) {i : Nat} (small : i < 8) (here : i < mirFaders (s.mirOf (32 + k))) :
    (slotFaders (32 + k)).getD i 0 ∈ s.reported k := by
  have long : i < ((slotFaders (32 + k)).take (mirFaders (s.mirOf (32 + k)))).length := by simp [slotFaders, small, here]
  have place : ((slotFaders (32 + k)).take (mirFaders (s.mirOf (32 + k))))[i] = (slotFaders (32 + k)).getD i 0 := by
    simp [slotFaders, List.getD_eq_getElem?_getD, small]
  exact place ▸ List.getElem_mem long

theorem State.takeFrame_shows (s : State) (k : Nat) (w : ServoUp) :
    let t := (s.takeFrame k w).workFaders (s.reported k)
    t.units = s.units ∧ Tab.get 0 t.surf.faults k = 0 ∧
      ∀ i, i < 8 → i < mirFaders (s.mirOf (32 + k)) → (w.faders.getD i (0, false, false)).2.2 = true →
        t.get (Reg.SURF_FADER_STATE_RAW ((slotFaders (32 + k)).getD i 0)) = (w.faders.getD i (0, false, false)).1 % 4096 ∧
        t.bit (Reg.SURF_FADER_STATE_TOUCH ((slotFaders (32 + k)).getD i 0)) = (w.faders.getD i (0, false, false)).2.1 := by
  have work := FaderWork.workFaders (s.takeFrame k w) (s.reported k)
  have taken : FaderWork ((s.reported k).flatMap rawRegs) (s.modSurf fun x => { x with faults := Tab.put 0 x.faults k 0 })
      (s.takeFrame k w) :=
    .each fun f mem t => .mono (fun g own => List.mem_flatMap.2 ⟨f, mem, own⟩) (.showRaw w f t)
  refine ⟨work.units.trans taken.units, ?_, fun i small here valid => ?_⟩
  · rw [work.faults, taken.faults]
    exact Tab.get_put_same 0 s.surf.faults k 0
  · have mem := s.mem_reported k small here
    have place : (slotFaders (32 + k)).getD i 0 % 8 = i := by
      rw [slotFaders_getD k small]
      omega
    generalize (slotFaders (32 + k)).getD i 0 = f at mem place ⊢
    have beyond (lo wd : Nat) (small : lo < 13) : (⟨0x9800 + 0x4 * f, lo, wd⟩ : Fld).FreeOf ((s.reported k).flatMap fadeRegs) :=
      free_of_place small (le_trans (by decide) (Nat.le_add_right 0x9800 (0x4 * f)))
    have shown : (s.takeFrame k w).get (Reg.SURF_FADER_STATE_RAW f) = (w.faders.getD i (0, false, false)).1 % 4096 ∧
        (s.takeFrame k w).bit (Reg.SURF_FADER_STATE_TOUCH f) = (w.faders.getD i (0, false, false)).2.1 := by
      refine State.each_brings (fun _ => True) (fun u => u.get (Reg.SURF_FADER_STATE_RAW f) = _ ∧
        u.bit (Reg.SURF_FADER_STATE_TOUCH f) = _) _ (s.reported_once k) mem (fun _ _ _ _ _ => trivial) ?_ ?_ trivial
      · rintro t -
        rw [← place] at valid ⊢
        exact t.showRaw_shows w f valid
      · rintro g - other t ⟨raw, touch⟩
        have kept := State.showRaw_other w other t
        exact ⟨(kept _ (by simp [rawRegs])).trans raw, by rw [State.bit, kept _ (by simp [rawRegs]), ← State.bit, touch]⟩
    exact ⟨(work.regs _ (beyond 0 12 (by decide))).trans shown.1, (work.regs.bit (beyond 12 1 (by decide))).trans shown.2⟩

/-! ### A module that is gone (R645) -/

theorem exec_moduleLost (p : Fin 8) (m : Fin 4) (s : State) : exec (.moduleLost p m) s = .next
    (if Tab.get false s.surf.live (4 * p.val + m.val) = true ∧ 4 ≤ Tab.get 0 s.surf.faults (4 * p.val + m.val) then
      (((s.dropFaders (32 + (4 * p.val + m.val))).setMask (Reg.SURF_SL_STATUS_LOST p.val) m.val).clrMask
        (Reg.SURF_SL_STATUS_MODULES p.val) m.val).slLink p.val m.val 0 else s) := by
  show execModuleLost p m s = _
  unfold execModuleLost
  exact (apply_ite Host.Outcome.next ..).symm

theorem State.live_slLink (s : State) (p m up : Nat) : (s.slLink p m up).surf.live = s.surf.live := by
  unfold State.slLink State.surfEvent
  dsimp only
  split
  · rfl
  · rw [State.postNow_surf]
    rfl

theorem lost_within (p : Fin 8) : (∀ g ∈ [Reg.SURF_SL_STATUS_LOST p, Reg.SURF_SL_STATUS_MODULES p],
    g.lo < 32 ∧ 0x9010 ≤ g.off ∧ g.off < 0x9800) ∧ (Reg.SURF_SL_STATUS_LOST p).key ≠ (Reg.SURF_SL_STATUS_MODULES p).key := by
  decide +revert

theorem State.loseModule_shows (v : State) (p : Fin 8) (m : Fin 4) :
    let t := ((v.setMask (Reg.SURF_SL_STATUS_LOST p.val) m.val).clrMask (Reg.SURF_SL_STATUS_MODULES p.val) m.val).slLink p.val m.val 0
    t.units = v.units ∧ t.surf.live = v.surf.live ∧ (t.get (Reg.SURF_SL_STATUS_LOST p)).testBit m = true ∧
      (t.get (Reg.SURF_SL_STATUS_MODULES p)).testBit m = false := by
  obtain ⟨within, apart⟩ := lost_within p
  obtain ⟨lo, low, high⟩ := within (Reg.SURF_SL_STATUS_LOST p) (by simp)
  obtain ⟨lo', low', high'⟩ := within (Reg.SURF_SL_STATUS_MODULES p) (by simp)
  have told (v : State) := KeepsBlock.slLink v p m 0
  refine ⟨(told _).units, State.live_slLink _ p m 0, ?_, ?_⟩
  · rw [(told _).get _ lo low high, State.clrMask, State.get_put_ne _ apart]
    exact State.testBit_setMask _ m.isLt
  · rw [(told _).get _ lo' low' high']
    exact State.testBit_clrMask ..

theorem State.moduleLost_shows (s : State) (p : Fin 8) (m : Fin 4) :
    ∃ t, exec (.moduleLost p m) s = .next (if Tab.get false s.surf.live (4 * p.val + m.val) = true ∧
        4 ≤ Tab.get 0 s.surf.faults (4 * p.val + m.val) then t else s) ∧
      t.units = s.units ∧ Tab.get false t.surf.live (4 * p.val + m.val) = false ∧
      (t.get (Reg.SURF_SL_STATUS_LOST p)).testBit m = true ∧ (t.get (Reg.SURF_SL_STATUS_MODULES p)).testBit m = false := by
  have dropped := KeepsBlock.dropFaders s (32 + (4 * p.val + m.val))
  have live := s.live_dropFaders (32 + (4 * p.val + m.val))
  have run := exec_moduleLost p m s
  generalize s.dropFaders (32 + (4 * p.val + m.val)) = v at dropped live run
  obtain ⟨units, same, lost, gone⟩ := v.loseModule_shows p m
  refine ⟨_, run, units.trans dropped.units, ?_, lost, gone⟩
  rw [same, live, Nat.add_sub_cancel_left]
  exact Tab.get_put_same ..

/-! ### The end of a servo firing (R644, R649, R650) -/

/-- The servo unit takes part in the period. -/
def State.servoRuns (s : State) (k : Fin 4) : Bool :=
  Nat.testBit (s.get Reg.SURF_SERVO_STATUS_RUNNING) k.val && !Nat.testBit (s.get Reg.SURF_SERVO_STATUS_QUAR) k.val

/-- The drive word that is latched for a fader. -/
def State.driveWord (k : Fin 4) (run : Bool) (t : State) (f : Nat) : Nat :=
  if run then
    let w := (Memory.read32 t.lmem (lmemAddr (512 + k.val) (0xA900 + 4 * (f % 64)))).toNat % 2 ^ 13
    if Nat.testBit w 11 && !t.permit f then w - 2 ^ 11 else w
  else 0

/-- The faders of a servo unit. -/
def servoFaders (k : Fin 4) : List Nat := (List.range 64).map fun i => 64 * k.val + i

/-- The drives of a servo unit's faders as a firing leaves them. -/
def State.latchDrives (s : State) (k : Fin 4) (run : Bool) : State :=
  s.each (servoFaders k) fun f t => t.modSurf fun y => { y with drive := Tab.put 0 y.drive f (State.driveWord k run t f) }

/-- A firing that has ended within its budget. -/
def State.endServo (s : State) (k : Fin 4) : State :=
  let s1 := s.latchDrives k (s.servoRuns k)
  let s2 := if s.servoRuns k then (s1.put (Reg.SURF_SERVO_CYC_LAST_CYCLES k.val) (s.unit (512 + k.val)).cyc).raise
      (Reg.SURF_SERVO_CYC_HWM_CYCLES k.val) (s.unit (512 + k.val)).cyc else s1
  s2.each (servoFaders k) fun f t => t.faderChange f

theorem exec_servoFiringEnd (k : Fin 4) (s : State) : exec (.servoFiringEnd k) s =
    if s.servoRuns k = true ∧ (s.unit (512 + k)).wait ≠ .halted then .next s
    else if s.servoRuns k = true ∧ s.servoBudget k < (s.unit (512 + k)).cyc then .next (s.servoCut k)
    else .next (s.endServo k) := by
  show execServoFiringEnd k s = _
  unfold execServoFiringEnd
  exact if_congr (by simp [State.servoRuns]) rfl (if_congr (by simp [State.servoRuns]) rfl rfl)

/-- What latching leaves: all but the drives. -/
theorem State.latchDrives_keeps (s : State) (k : Fin 4) (run : Bool) :
    (s.latchDrives k run).regs = s.regs ∧ (s.latchDrives k run).units = s.units := by
  unfold State.latchDrives
  refine State.each_keeps (fun t : State => t.regs = s.regs ∧ t.units = s.units) _ ?_ s _ ⟨rfl, rfl⟩
  exact fun _ _ kept => kept

theorem servoFaders_once (k : Fin 4) : (servoFaders k).Nodup := List.nodup_range.map (add_right_injective _)

theorem State.driveWord_of_same {k : Fin 4} {run : Bool} {f : Nat} (lmem : t.lmem = s.lmem) (permit : t.permit f = s.permit f) :
    State.driveWord k run t f = State.driveWord k run s f := by
  unfold State.driveWord
  rw [lmem, permit]

theorem State.latchDrives_shows (s : State) (k : Fin 4) (run : Bool) {f : Nat} (mem : f ∈ servoFaders k) :
    Tab.get 0 (s.latchDrives k run).surf.drive f = State.driveWord k run s f := by
  unfold State.latchDrives
  refine State.each_brings (fun t => t.lmem = s.lmem ∧ t.permit f = s.permit f)
    (fun t => Tab.get 0 t.surf.drive f = State.driveWord k run s f) _ (servoFaders_once k) mem ?_ ?_ ?_ ⟨rfl, rfl⟩
  · exact fun g _ _ t ⟨lmem, permit⟩ => ⟨lmem, (State.permit_of_same rfl rfl fun _ _ => rfl).trans permit⟩
  · exact fun t ⟨lmem, permit⟩ => (Tab.get_put_same 0 t.surf.drive f _).trans (State.driveWord_of_same lmem permit)
  · exact fun g _ other t shown => ((Tab.get_put 0 t.surf.drive g f _).trans (if_neg other.symm)).trans shown

theorem cyc_within (k : Fin 4) : (Reg.SURF_SERVO_CYC_LAST_CYCLES k).lo < 32 ∧ 0x9010 ≤ (Reg.SURF_SERVO_CYC_LAST_CYCLES k).off ∧
    (Reg.SURF_SERVO_CYC_LAST_CYCLES k).off < 0x9800 ∧
    (Reg.SURF_SERVO_CYC_LAST_CYCLES k).key ≠ (Reg.SURF_SERVO_CYC_HWM_CYCLES k).key := by decide +revert

/-- Changes of faders keep the drives and the servo units' registers. -/
theorem State.changeFaders_keeps (s : State) (l : List Nat) : KeepsSlots s (s.each l fun f t => t.faderChange f) ∧
    (s.each l fun f t => t.faderChange f).surf.drive = s.surf.drive :=
  State.each_keeps (fun t => KeepsSlots s t ∧ t.surf.drive = s.surf.drive) _
    (fun f t kept => ⟨kept.1.trans (t.faderChange_keeps f).1, (t.faderChange_keeps f).2.trans kept.2⟩) s l ⟨.refl, rfl⟩

theorem State.raise_get_ne (s : State) {f g : Fld} (apart : f.key ≠ g.key) (v : Nat) : (s.raise g v).get f = s.get f := by
  unfold State.raise
  split
  · exact State.get_put_ne s apart v
  · rfl

/-- The cycles of a firing as its unit shows them. -/
def State.showCycles (s : State) (k : Fin 4) (run : Bool) (n : Nat) : State :=
  if run then (s.put (Reg.SURF_SERVO_CYC_LAST_CYCLES k.val) n).raise (Reg.SURF_SERVO_CYC_HWM_CYCLES k.val) n else s

theorem State.showCycles_keeps (s : State) (k : Fin 4) (run : Bool) (n : Nat) :
    (s.showCycles k run n).units = s.units ∧ (s.showCycles k run n).surf = s.surf := by
  unfold State.showCycles State.raise
  split
  · split <;> exact ⟨rfl, rfl⟩
  · exact ⟨rfl, rfl⟩

theorem State.showCycles_shows (s : State) (k : Fin 4) (n : Nat) :
    (s.showCycles k true n).get (Reg.SURF_SERVO_CYC_LAST_CYCLES k) = n % 2 ^ 32 :=
  (State.raise_get_ne _ (cyc_within k).2.2.2 n).trans (State.get_put_same ..)

theorem State.endServo_eq (s : State) (k : Fin 4) : s.endServo k = ((s.latchDrives k (s.servoRuns k)).showCycles k (s.servoRuns k)
    (s.unit (512 + k.val)).cyc).each (servoFaders k) fun f t => t.faderChange f := rfl

theorem State.endServo_shows (s : State) (k : Fin 4) :
    (s.endServo k).units = s.units ∧ (s.servoRuns k = true →
      (s.endServo k).get (Reg.SURF_SERVO_CYC_LAST_CYCLES k) = (s.unit (512 + k)).cyc % 2 ^ 32) ∧
    ∀ f ∈ servoFaders k, Tab.get 0 (s.endServo k).surf.drive f = State.driveWord k (s.servoRuns k) s f := by
  obtain ⟨lo, low, high, -⟩ := cyc_within k
  obtain ⟨-, units⟩ := s.latchDrives_keeps k (s.servoRuns k)
  obtain ⟨shown, surf⟩ := (s.latchDrives k (s.servoRuns k)).showCycles_keeps k (s.servoRuns k) (s.unit (512 + k.val)).cyc
  rw [State.endServo_eq]
  obtain ⟨block, drive⟩ := State.changeFaders_keeps ((s.latchDrives k (s.servoRuns k)).showCycles k (s.servoRuns k)
    (s.unit (512 + k.val)).cyc) (servoFaders k)
  refine ⟨block.units.trans (shown.trans units), fun runs => ?_, fun f mem => ?_⟩
  · rw [block.get _ lo low high, runs]
    exact State.showCycles_shows ..
  · rw [drive, surf]
    exact s.latchDrives_shows k _ mem

/-! ### A servo unit is cut (R650) -/

theorem exec_servoCut (k : Fin 4) (s : State) : exec (.servoCut k) s =
    if (s.unit (512 + k)).wait = .halted ∨ (s.unit (512 + k)).cyc < s.servoBudget k then .next s else .next (s.servoCut k) := rfl

theorem quar_within : (∀ g ∈ [Reg.SURF_SERVO_STATUS_QUAR, Reg.SURF_SERVO_STATUS_CUT_SEEN], g.lo < 32 ∧ g.outsideHost ∧ g.w = 4) ∧
    Reg.SURF_SERVO_STATUS_QUAR.key ≠ Reg.SURF_SERVO_STATUS_CUT_SEEN.key := by decide

theorem State.servoCut_shows (s : State) (k : Fin 4) :
    ((s.servoCut k).get Reg.SURF_SERVO_STATUS_QUAR).testBit k = true ∧
      ((s.servoCut k).get Reg.SURF_SERVO_STATUS_CUT_SEEN).testBit k = true ∧
      ∀ i < 64, Tab.get 0 (s.servoCut k).surf.drive (64 * k + i) = 0 := by
  obtain ⟨within, apart⟩ := quar_within
  obtain ⟨lo, out, -⟩ := within Reg.SURF_SERVO_STATUS_QUAR (by simp)
  obtain ⟨lo', out', -⟩ := within Reg.SURF_SERVO_STATUS_CUT_SEEN (by simp)
  unfold State.servoCut
  dsimp only
  refine ⟨?_, ?_, fun i small => ?_⟩
  · rw [State.get_postNow _ _ _ _ _ _ lo out, State.setMask, State.get_put_ne _ apart]
    exact State.testBit_setMask _ k.isLt
  · rw [State.get_postNow _ _ _ _ _ _ lo' out']
    exact State.testBit_setMask _ k.isLt
  · rw [State.postNow_surf, State.setMask, State.put_surf, State.setMask, State.put_surf]
    exact State.each_brings (fun _ => True) (fun t => Tab.get 0 t.surf.drive (64 * k + i) = 0) _ List.nodup_range
      (List.mem_range.2 small) (fun _ _ _ _ _ => trivial) (fun t _ => Tab.get_put_same 0 t.surf.drive _ 0)
      (fun j _ other t shown => ((Tab.get_put 0 t.surf.drive _ _ 0).trans (if_neg (by omega))).trans shown) trivial

/-! ### Touches and stalls (R646, R658) -/

/-- A touched fader. -/
def State.touchFader (s : State) (f : Nat) : State :=
  (((s.putBit (Reg.SURF_FADER_STATE_TOUCH f) true).put (Reg.SURF_FADER_STATE_STALLED f) 0).put
    (Reg.SURF_FADER_STATE_PICKUP f) 0).modSurf fun x => { x with released := x.released ++ [f], drive := Tab.put 0 x.drive f 0 }

theorem exec_touchUpReceived (f : Fin 256) (b : Bool) (s : State) : exec (.touchUpReceived f b) s = .next
    (if s.faderLive f = true then if b then s.touchFader f else s.put (Reg.SURF_FADER_STATE_TOUCH f) 0 else s) := by
  show execTouchUpReceived f b s = _
  unfold execTouchUpReceived
  cases s.faderLive f <;> cases b <;> rfl

theorem fade_apart (f : Nat) : (Reg.SURF_FADER_STATE_TOUCH f).key ≠ (Reg.SURF_FADER_STATE_STALLED f).key ∧
    (Reg.SURF_FADER_STATE_TOUCH f).key ≠ (Reg.SURF_FADER_STATE_PICKUP f).key ∧
    (Reg.SURF_FADER_STATE_STALLED f).key ≠ (Reg.SURF_FADER_STATE_PICKUP f).key := by
  simp [Fld.key, Reg.SURF_FADER_STATE_TOUCH, Reg.SURF_FADER_STATE_STALLED, Reg.SURF_FADER_STATE_PICKUP]

theorem State.touchFader_shows (s : State) (f : Nat) :
    let t := s.touchFader f
    t.bit (Reg.SURF_FADER_STATE_TOUCH f) = true ∧ t.units = s.units ∧ t.bit (Reg.SURF_FADER_STATE_STALLED f) = false ∧
      t.bit (Reg.SURF_FADER_STATE_PICKUP f) = false ∧ Tab.get 0 t.surf.drive f = 0 ∧ t.surf.released = s.surf.released ++ [f] := by
  obtain ⟨stalled, pickup, apart⟩ := fade_apart f
  refine ⟨?_, rfl, ?_, State.bit_put_same _ rfl 0, Tab.get_put_same 0 s.surf.drive f 0, rfl⟩
  · exact (State.bit_put_ne _ pickup 0).trans ((State.bit_put_ne _ stalled 0).trans (State.bit_putBit_same s rfl true))
  · exact (State.bit_put_ne _ apart 0).trans (State.bit_put_same _ rfl 0)

/-- A fader that is stalled, before its event. -/
def State.stallFader (s : State) (f : Nat) : State :=
  ((s.set (Reg.SURF_FADER_STATE_STALLED f)).modFader f fun x => { x with stallCount := 0, stallTarget := x.target }).modSurf fun x =>
    { x with drive := Tab.put 0 x.drive f 0 }

theorem exec_faderStall (f : Fin 256) (s : State) : exec (.faderStall f) s = .next
    (if s.permit f = true ∧ 400 ≤ (s.fader f).stallCount then (s.stallFader f).surfEvent (16 + f.val) 0x0141 [f.val] else s) := by
  show execFaderStall f s = _
  unfold execFaderStall
  exact (apply_ite Host.Outcome.next ..).symm

theorem State.surfEvent_keeps (s : State) (key code : Nat) (body : List Nat) : KeepsBlock 0x5000 0x20000 s (s.surfEvent key code body) ∧
    (s.surfEvent key code body).surf.drive = s.surf.drive ∧ (s.surfEvent key code body).surf.faders = s.surf.faders := by
  unfold State.surfEvent
  dsimp only
  split
  · exact ⟨.refl, rfl, rfl⟩
  · refine ⟨.trans (t := s.modSurf _) (.of_regs rfl rfl) (.host (by decide) (.postNow ..)), ?_, ?_⟩ <;> rw [State.postNow_surf] <;> rfl

theorem stalled_within (f : Fin 256) : 0x5000 ≤ (Reg.SURF_FADER_STATE_STALLED f).off ∧ (Reg.SURF_FADER_STATE_STALLED f).off < 0x20000 := by
  unfold Reg.SURF_FADER_STATE_STALLED
  dsimp only
  omega

theorem State.stalled_shows (s : State) (f : Fin 256) :
    let t := (s.stallFader f).surfEvent (16 + f.val) 0x0141 [f.val]
    t.units = s.units ∧ t.bit (Reg.SURF_FADER_STATE_STALLED f) = true ∧ Tab.get 0 t.surf.drive f = 0 ∧
      t.fader f = { s.fader f with stallCount := 0, stallTarget := (s.fader f).target } := by
  obtain ⟨block, drive, faders⟩ := (s.stallFader f).surfEvent_keeps (16 + f.val) 0x0141 [f.val]
  obtain ⟨low, high⟩ := stalled_within f
  refine ⟨block.units, (block.bit (show 14 < 32 by decide) low high).trans (State.bit_set_same s (f :=
    Reg.SURF_FADER_STATE_STALLED f) rfl), ?_, ?_⟩
  · rw [drive]
    exact Tab.get_put_same 0 s.surf.drive f 0
  · unfold State.fader
    rw [faders]
    show Tab.get {} (Tab.upd {} s.surf.faders f fun x => { x with stallCount := 0, stallTarget := x.target }) f = _
    rw [Tab.get_upd, if_pos rfl]

/-! ### The law (R652) -/

/-- The table of a law, and whether it rises throughout. -/
def State.lawTable (s : State) : List Word := (List.range 17).map fun k => BitVec.ofNat 32 (s.get (Reg.SURF_LAW_DB k))
def lawRises (l : List Word) : Bool :=
  !l.any Fp.isNaN && (List.range 16).all fun k => decide (Fp.val (l.getD k 0) ≤ Fp.val (l.getD (k + 1) 0))

theorem lawRises_iff (l : List Word) : lawRises l = true ↔
    (∀ x ∈ l, Fp.isNaN x = false) ∧ ∀ k < 16, Fp.val (l.getD k 0) ≤ Fp.val (l.getD (k + 1) 0) := by
  simp only [lawRises, Bool.and_eq_true, Bool.not_eq_true', List.any_eq_false, List.all_eq_true, List.mem_range, decide_eq_true_eq,
    Bool.not_eq_true]

theorem exec_lawCommit (s : State) (host : s.hostUp = true) : exec .lawCommit s = .next
    (if lawRises s.lawTable then s.modSurf fun x => { x with lawNext := some s.lawTable } else s.put Reg.SURF_STATUS_CFG_REJ 1) :=
  if_pos host

end Sys2Proof.Machine

namespace Sys2Proof.Machine

/-- A servo firing's end, in the terms of its statement. -/
theorem exec_servoFiringEnd_latches {k : Fin 4} {s : State}
    (ended : s.servoRuns k = false ∨ ((s.unit (512 + k)).wait = .halted ∧ (s.unit (512 + k)).cyc ≤ s.servoBudget k)) :
    exec (.servoFiringEnd k) s = .next (s.endServo k) := by
  rw [exec_servoFiringEnd, if_neg, if_neg]
  · rintro ⟨runs, past⟩
    rcases ended with halted | ⟨-, within⟩
    · exact Bool.false_ne_true (halted.symm.trans runs)
    · exact absurd past (Nat.not_lt.2 within)
  · rintro ⟨runs, going⟩
    rcases ended with halted | ⟨done, -⟩
    · exact Bool.false_ne_true (halted.symm.trans runs)
    · exact going done

theorem State.endServo_drives (s : State) (k : Fin 4) {i : Nat} (small : i < 64) :
    let w := (Memory.read32 s.lmem (lmemAddr (512 + k) (0xA900 + 4 * i))).toNat % 2 ^ 13
    Tab.get 0 (s.endServo k).surf.drive (64 * k + i) = if s.servoRuns k = false then 0 else
      if w.testBit 11 = true ∧ s.permit (64 * k + i) = false then w - 2 ^ 11 else w := by
  obtain ⟨-, -, drives⟩ := s.endServo_shows k
  have mem : 64 * k.val + i ∈ servoFaders k := List.mem_map.2 ⟨i, List.mem_range.2 small, rfl⟩
  have place : (64 * k.val + i) % 64 = i := by omega
  rw [drives _ mem, State.driveWord, place]
  dsimp only
  cases s.servoRuns k
  · rfl
  · simp only [if_true, Bool.and_eq_true, Bool.not_eq_true', Bool.true_eq_false, if_false]

/-- Settles O51: what a poll, a chain, a frame or a firing writes lies apart from what each of the others has shown. -/
theorem surfaceLinksAndFaders : Obligations.SurfaceLinksAndFaders := by
  unfold Obligations.SurfaceLinksAndFaders
  refine ⟨fun slot mux r s => ⟨fun off => ?_, fun on => ?_⟩, fun p mods s => ⟨fun off => ?_, fun on => ?_, fun host on => ?_,
    fun off => ?_⟩,
    exec_servoCycle_shows, fun p m s => ⟨fun dead u => ?_, fun live => ?_, fun w live => ?_, fun live lost => ?_, fun few => ?_⟩,
    fun k s => ⟨fun runs going => ?_, fun runs done past => ?_, fun ended => ?_, fun idle => ?_, fun going due => ?_⟩,
    fun f s => ⟨fun dead b => ?_, fun live => ⟨?_, ?_⟩, fun permit due => ?_, fun kept => ?_⟩, fun s host => ⟨fun rises => ?_,
      fun falls => ?_⟩⟩
  · rw [exec_modulePoll, if_neg (Bool.eq_false_iff.1 off)]
  · exact ⟨_, (exec_modulePoll slot mux r s).trans (congrArg _ (if_pos on)), s.pollSlot_shows slot mux r⟩
  · rw [exec_slEnumerate, if_neg (Bool.eq_false_iff.1 off)]
  · exact ⟨_, (exec_slEnumerate p mods s).trans (congrArg _ (if_pos on)), s.enumerated_shows p mods⟩
  · exact ⟨_, (exec_slRestart p s).trans ((if_pos host).trans (congrArg _ (if_pos on))), s.restartLink_shows p⟩
  · rw [exec_slRestart, if_neg (Bool.eq_false_iff.1 off)]
    exact ite_self _
  · rw [exec_servoUpReceived, if_neg (Bool.eq_false_iff.1 dead)]
  · exact ⟨_, (exec_servoUpReceived p m none s).trans (congrArg _ (if_pos live)), s.missFrame_shows p _ _⟩
  · exact ⟨_, (exec_servoUpReceived p m (some w) s).trans (congrArg _ (if_pos live)), s.takeFrame_shows _ w⟩
  · obtain ⟨t, run, shows⟩ := s.moduleLost_shows p m
    exact ⟨t, run.trans (congrArg _ (if_pos ⟨live, lost⟩)), shows⟩
  · rw [exec_moduleLost, if_neg fun both => absurd both.2 (Nat.not_le.2 few)]
  · exact (exec_servoFiringEnd k s).trans (if_pos ⟨runs, going⟩)
  · exact (exec_servoFiringEnd k s).trans ((if_neg fun both => both.2 done).trans (if_pos ⟨runs, past⟩))
  · obtain ⟨units, cyc, -⟩ := s.endServo_shows k
    exact ⟨_, exec_servoFiringEnd_latches ended, units, cyc, fun i small => s.endServo_drives k small⟩
  · exact (exec_servoCut k s).trans (if_pos idle)
  · obtain ⟨quar, seen, drives⟩ := s.servoCut_shows k
    refine ⟨_, (exec_servoCut k s).trans (if_neg ?_), (s.servoCut_unit k _).trans (if_pos rfl), quar, seen, drives,
      fun u other => (s.servoCut_unit k u).trans (if_neg other)⟩
    exact fun idle => idle.elim going (Nat.not_lt.2 due)
  · rw [exec_touchUpReceived, if_neg (Bool.eq_false_iff.1 dead)]
  · rw [exec_touchUpReceived, if_pos live]
    rfl
  · exact ⟨_, (exec_touchUpReceived f true s).trans (congrArg _ (if_pos live)), s.touchFader_shows f⟩
  · obtain ⟨units, stalled, drive, fader⟩ := s.stalled_shows f
    exact ⟨_, (exec_faderStall f s).trans (congrArg _ (if_pos ⟨permit, due⟩)), units, stalled, drive, fader⟩
  · rw [exec_faderStall, if_neg]
    rintro ⟨permit, due⟩
    exact kept.elim (fun none => Bool.false_ne_true (none.symm.trans permit)) (Nat.not_lt.2 due)
  · exact (exec_lawCommit s host).trans (congrArg _ (if_pos ((lawRises_iff s.lawTable).2 rises)))
  · exact (exec_lawCommit s host).trans (congrArg _ (if_neg fun yes => falls ((lawRises_iff s.lawTable).1 yes)))

end Sys2Proof.Machine
end

