-- ==== Sys2Proof/Proofs/Reports.lean ====
section
/-! SUPPORT. A report to the host: written at once where none waits and the ledger has room, else waiting with its completion (R437). -/

namespace Sys2Proof.Machine

/-- What a report leaves, and where its bytes and its completion go. -/
structure Reported (s t : State) (a : Nat) (bs : List Byte) (x : Done) : Prop where
  regs : t.regs = s.regs
  units : t.units = s.units
  store : t.store = s.store
  trust : t.trust = s.trust
  written : s.host.reports = [] → bs.length ≤ s.restRoom →
    t.host.done = s.host.done ++ [x] ∧ t.hostMem = Memory.writeBytes s.hostMem a bs ∧ t.host.reports = []
  waits : ¬(s.host.reports = [] ∧ bs.length ≤ s.restRoom) → t.hostMem = s.hostMem ∧ t.host.reports = s.host.reports ++ [⟨a, bs, some x⟩]

theorem State.report_reports (s : State) (a : Nat) (bs : List Byte) (x : Done) : Reported s (s.report a bs x) a bs x := by
  have now : (s.host.reports.isEmpty && decide (bs.length ≤ s.restRoom)) = true ↔ s.host.reports = [] ∧ bs.length ≤ s.restRoom := by
    simp
  unfold State.report
  split
  · next can =>
    obtain ⟨none, room⟩ := now.1 can
    exact ⟨rfl, rfl, rfl, rfl, fun _ _ => ⟨rfl, rfl, none⟩, fun not => absurd ⟨none, room⟩ not⟩
  · next cannot => exact ⟨rfl, rfl, rfl, rfl, fun none room => absurd (now.2 ⟨none, room⟩) cannot, fun _ => ⟨rfl, rfl⟩⟩

/-- A report of the state after free values have been drawn. -/
theorem Reported.after_draw {s t : State} {a n : Nat} {bs : List Byte} {x : Done} (h : Reported { s with ctr := n } t a bs x) :
    Reported s t a bs x := ⟨h.regs, h.units, h.store, h.trust, h.written, h.waits⟩

end Sys2Proof.Machine
end

