-- ==== Sys2Proof/Proofs/StoreCommands.lean ====
section
/-! PROOF. Takes of the track store: it is formatted, shared and listed, and they are deleted, exported and imported (R671, R672, R687–R690). -/

namespace Sys2Proof.Machine

variable {s t u : State}

/-! ### What the members show (R669) -/

/-- The members and the state of the store are registers. -/
structure ShowsStore (s t : State) : Prop where
  store : t.store = s.store
  units : t.units = s.units
  host : t.host = s.host
  seq : t.get Reg.STORE_JSEQ_SEQ = s.get Reg.STORE_JSEQ_SEQ

theorem ShowsStore.refl : ShowsStore s s := ⟨rfl, rfl, rfl, rfl⟩

theorem ShowsStore.trans (a : ShowsStore s t) (b : ShowsStore t u) : ShowsStore s u :=
  ⟨b.store.trans a.store, b.units.trans a.units, b.host.trans a.host, b.seq.trans a.seq⟩

theorem ShowsStore.put {g : Fld} (apart : Reg.STORE_JSEQ_SEQ.key ≠ g.key) (v : Nat) : ShowsStore s (s.put g v) :=
  ⟨rfl, rfl, rfl, State.get_put_ne s apart v⟩

theorem ShowsStore.showFree (s : State) : ShowsStore s s.showFree := .put (by decide) _

theorem drive_apart (n : Nat) : ∀ g ∈ [Reg.STORE_DRV_STATUS_MEMBER n, Reg.STORE_DRV_STATUS_INDEX n],
    Reg.STORE_JSEQ_SEQ.key ≠ g.key := by
  simp only [List.forall_mem_cons, Fld.key, Reg.STORE_JSEQ_SEQ, Reg.STORE_DRV_STATUS_MEMBER, Reg.STORE_DRV_STATUS_INDEX]
  refine ⟨?_, ?_, by simp⟩ <;> omega

theorem ShowsStore.showMembers (s : State) : ShowsStore s s.showMembers := by
  have drives (u : State) (l : List (Nat × Drive)) (f : Nat × Drive → Bool) : ShowsStore u (u.each l fun e t =>
      (t.putBit (Reg.STORE_DRV_STATUS_MEMBER e.1) (f e)).put (Reg.STORE_DRV_STATUS_INDEX e.1) e.2.index) := by
    refine State.each_keeps (ShowsStore u) _ (fun e t kept => kept.trans (.trans (.put ?_ _) (.put ?_ _))) u l .refl
    · exact drive_apart e.1 _ (by simp)
    · exact drive_apart e.1 _ (by simp)
  unfold State.showMembers
  dsimp only
  refine .trans ?_ (.showFree _)
  refine .trans ?_ (.put (by decide) _)
  refine .trans ?_ (.put (by decide) _)
  refine .trans ?_ (drives _ _ _)
  exact .trans (.put (by decide) _) (.put (by decide) _)

/-! ### STORE_FORMAT (R671) -/

/-- The drives that a format takes over. -/
def State.formatted (s : State) : List (Nat × Option Drive) :=
  let ds : List (Nat × Drive) := s.store.drives.filterMap fun e => e.2.map fun d => (e.1, d)
  ds.zipIdx.map fun x => (x.1.1, some { x.1.2 with store := s.free.toNat + 1, index := x.2, keyOk := true, count := ds.length })

/-- A new store on every drive, before its members show. -/
def State.newStore (s : State) : State :=
  let s1 := ({ s with ctr := s.ctr + 13 } : State).modStore fun y => { y with
    store := s.free.toNat + 1, dirOf := s.free.toNat + 1, drives := s.formatted, takes := [], slots := [], records := 0,
    generation := 1, journalCut := false, journalAt := 0, keys := some s.take.drawKeys,
    wrapped := Tab.put none y.wrapped (s.free.toNat + 1) (some s.take.drawKeys) }
  (s1.put Reg.STORE_JSEQ_SEQ 0).put Reg.STORE_MEMBERS_LOST 0

/-- A formatted store. -/
def State.formatStore (s : State) (h : CmdHdr) : State :=
  let s2 := s.newStore.showMembers
  (s2.sendDrives (s2.headerWrites 1 ++ s2.members.map fun m => (m, .flush nvmeNs))).ok h 0x0700

theorem exec_storeFormat (h : CmdHdr) (s : State) (active : s.standby = false) : exec (.storeFormat h) s = .next (
    if s.bit Reg.STORE_POLICY_HOST_FORMAT = false then s.finish h 0x0700 .notOwner 0 0 0
    else if s.storeIdle = false then s.refuse h 0x0700 .busy 0 0
    else if (s.store.drives.filterMap fun e => e.2.map fun d => (e.1, d)).isEmpty then s.refuse h 0x0700 .refused 0 0
    else s.formatStore h) := by
  show execStoreFormat h s = _
  unfold execStoreFormat
  dsimp only
  rw [active, if_neg Bool.false_ne_true]
  exact congrArg _ (if_congr (.of_eq (Bool.not_eq_true' _)) rfl (if_congr (.of_eq (Bool.not_eq_true' _)) rfl rfl))

theorem State.formatStore_shows (s : State) (h : CmdHdr) :
    let t := s.formatStore h
    Completed s t h 0x0700 .ok 0 0 0 ∧ t.store.takes = [] ∧ t.store.records = 0 ∧ t.store.generation = 1 ∧
      t.store.store = s.free.toNat + 1 ∧ t.get Reg.STORE_JSEQ_SEQ = 0 ∧ t.store.keys.isSome = true ∧
      (∀ e ∈ t.store.drives, ∀ d, e.2 = some d → d.store = s.free.toNat + 1) ∧ t.units = s.units := by
  have members := ShowsStore.showMembers s.newStore
  unfold State.formatStore
  generalize s.newStore.showMembers = v at members
  obtain ⟨store, units, host, seq⟩ := members
  have kept (F : StoreSt → Prop) (new : F s.newStore.store) : F v.store := store ▸ new
  refine ⟨.finish host .., kept (fun x => x.takes = []) rfl, kept (fun x => x.records = 0) rfl, kept (fun x => x.generation = 1) rfl,
    kept (fun x => x.store = s.free.toNat + 1) rfl, seq.trans ?_, kept (fun x => x.keys.isSome = true) rfl,
    kept (fun x => ∀ e ∈ x.drives, ∀ d, e.2 = some d → d.store = s.free.toNat + 1) ?_, units⟩
  · unfold State.newStore
    exact (State.get_put_ne _ (by decide) 0).trans (State.get_put_same ..)
  · intro e mem d some
    obtain ⟨x, -, rfl⟩ := List.mem_map.1 (show e ∈ s.formatted from mem)
    exact Option.some.inj some ▸ rfl

/-! ### STORE_SHARE and STORE_LIST (R672, R688) -/

theorem exec_storeShare {h : CmdHdr} {dev slot : Nat} (bar : s.storeBar = false) (on : s.storeOn = true) (low : 1 ≤ slot) (high : slot ≤ 3)
    (member : Tab.get 0 s.wl.members dev ≠ 0) (other : dev ≠ s.devnum) :
    exec (.storeShare h dev slot) s = .next (((s.modStore fun y =>
      { y with slots := Tab.put 0 y.slots slot (Tab.get 0 s.wl.members dev) }).sendDrives
        (s.headerWrites s.store.generation)).finish h 0x0701 .ok 0 0 0) := by
  show execStoreShare h dev slot s = _
  unfold execStoreShare
  rw [bar, on, if_neg (by decide), if_neg (by omega), if_neg fun either => either.elim member other]
  rfl

/-- The takes that a list names. -/
def State.listed (s : State) (first n : Nat) : List Take :=
  (s.store.takes.filter fun t => match t.no with | some k => decide (first ≤ k) | none => false).take n

/-- The records of takes, with the values that they draw. -/
def State.recordsOf (s : State) (l : List Take) : List Byte × State :=
  l.foldl (fun (x : List Byte × State) t => (x.1 ++ x.2.takeRecord t, x.2.take)) ([], s)

theorem State.recordsOf_state (s : State) (l : List Take) : ∃ n, (s.recordsOf l).2 = { s with ctr := n } :=
  List.foldlRecOn (motive := fun x : List Byte × State => ∃ n, x.2 = { s with ctr := n }) l _ ⟨s.ctr, rfl⟩
    fun x ⟨n, kept⟩ t _ => ⟨n + 1, by rw [kept]; rfl⟩

theorem exec_storeList {h : CmdHdr} {a first n : Nat} (bar : s.storeBar = false) (on : s.storeOn = true)
    (window : s.windowOk a (192 * n) true = true) : exec (.storeList h a first n) s = .next (
      if (s.listed first n).isEmpty then s.finish h 0x0702 .empty 0 0 0
      else (s.recordsOf (s.listed first n)).2.report a (s.recordsOf (s.listed first n)).1
        ⟨h, 0x0702, .ok, 0, 0, (s.listed first n).length, false⟩) := by
  show execStoreList h a first n s = _
  unfold execStoreList
  dsimp only
  rw [bar, on, window, if_neg (by decide), if_neg (by decide)]
  rfl

theorem State.listed_reports (s : State) (l : List Take) (a : Nat) (x : Done) :
    Reported s ((s.recordsOf l).2.report a (s.recordsOf l).1 x) a (s.recordsOf l).1 x := by
  obtain ⟨n, eq⟩ := s.recordsOf_state l
  rw [eq]
  exact (State.report_reports _ a _ x).after_draw

/-! ### STORE_DELETE (R689) -/

/-- A take that is removed, with the extents that its drives give up. -/
def State.deleteTake (s : State) (h : CmdHdr) (k : Nat) (x : Take) : State :=
  let gone := x.places.filterMap fun e => (x.memberOf (e.1 / 2 ^ 32) (e.1 % 2 ^ 32 * chunksPerExtent)).map fun m =>
    (m, NvmeOp.deallocate nvmeNs (dataBase + e.2 * extentLbas) extentLbas)
  ((s.modStore fun y => { y with takes := y.takes.filter fun t => t.no != some k }).sendDrives
    (gone.filter fun c => s.present c.1)).showFree.ok h 0x0740

theorem exec_storeDelete {h : CmdHdr} {k : Nat} {x : Take} (bar : s.storeBar = false) (on : s.storeOn = true)
    (policy : s.bit Reg.STORE_POLICY_HOST_DELETE = true) (idle : s.storeIdle = true) (found : s.take? k = some x) :
    exec (.storeDelete h k) s = .next (s.deleteTake h k x) := by
  show execStoreDelete h k s = _
  unfold execStoreDelete
  rw [bar, on, policy, idle, found, if_neg (by decide), if_neg (by decide), if_neg (by decide)]
  rfl

theorem State.take?_deleteTake (s : State) (h : CmdHdr) (k : Nat) (x : Take) (j : Nat) :
    (s.deleteTake h k x).take? j = if j = k then none else s.take? j := by
  show (s.store.takes.filter fun t => t.no != some k).find? (fun t => t.no == some j) = _
  rw [List.find?_filter]
  split
  · next same =>
    subst same
    refine List.find?_eq_none.2 fun t _ both => ?_
    simp at both
  · next other =>
    refine congrArg (List.find? · s.store.takes) (funext fun t => ?_)
    by_cases own : t.no = some j
    · simp [own, other]
    · simp [own]

/-! ### STORE_EXPORT and STORE_IMPORT (R690) -/

/-- The move that STORE_EXPORT begins. -/
def exportMove (h : CmdHdr) (ring k track first : Nat) (len : Option Nat) (mode : Nat) (x : Take) : StoreMove :=
  let want := match len with | some n => first + n | none => max first x.exportEnd
  { hdr := h, take := k, track := track, first := first, len := min want x.exportEnd - first, mode := mode, ring := ring,
    cutShort := decide (x.exportEnd < want) }

theorem exec_storeExport {h : CmdHdr} {ring k track first : Nat} {len : Option Nat} {mode : Nat} {x : Take} (bar : s.storeBar = false)
    (on : s.storeOn = true) (small : ring ≤ 3) (use : s.get (Reg.HOST_BRING_CFG_USE ring) = 4)
    (enabled : s.bit (Reg.HOST_BRING_CFG_ENABLE ring) = true)
    (permitted : mode = 1 ∨ mode = 0 ∧ s.bit Reg.STORE_POLICY_EXPORT_PLAIN = true) (found : s.take? k = some x)
    (held : x.tracks.contains track = true) (inside : first < x.exportEnd) :
    exec (.storeExport h ring k track first len mode) s =
      .next (s.modStore fun y => { y with moves := y.moves ++ [exportMove h ring k track first len mode x] }) := by
  show execStoreExport h ring k track first len mode s = _
  unfold execStoreExport
  rw [found]
  dsimp only
  rw [bar, on, if_neg (by decide), if_neg, if_neg, if_neg]
  · rfl
  · rintro (lost | past)
    · exact Bool.false_ne_true (lost.symm.trans held)
    · exact absurd inside (Nat.not_lt.2 past)
  · rintro (large | ⟨zero, barred⟩)
    · omega
    · obtain one | ⟨-, free⟩ := permitted
      · omega
      · exact Bool.false_ne_true (barred.symm.trans free)
  · rintro (large | wrong | off)
    · omega
    · exact wrong use
    · exact Bool.false_ne_true (off.symm.trans enabled)

theorem exportMove_len (h : CmdHdr) (ring k track : Nat) {first : Nat} (len : Option Nat) (mode : Nat) {x : Take}
    (inside : first < x.exportEnd) : first + (exportMove h ring k track first len mode x).len ≤ x.exportEnd := by
  unfold exportMove
  dsimp only
  omega

theorem exec_storeImport {h : CmdHdr} {ring rate count length : Nat} {name : List Byte} (bar : s.storeBar = false)
    (on : s.storeOn = true) (small : ring ≤ 3) (use : s.get (Reg.HOST_BRING_CFG_USE ring) = 5)
    (enabled : s.bit (Reg.HOST_BRING_CFG_ENABLE ring) = true) (low : 64 ≤ length) (high : length ≤ 2 ^ 24)
    (legal : legalRate rate = true) (some : 1 ≤ count) (few : count ≤ 1024) :
    exec (.storeImport h ring rate count length name) s = .next ((s.modHost fun x =>
      { x with transfers := x.transfers ++ [⟨h, 0x0731, 0, ring, 0, length, 0⟩] }).modStore fun y => { y with moves := y.moves ++
        [{ hdr := h, export_ := false, ring := ring, rate := rate, count := count, name := name.take 24 }] }) := by
  show execStoreImport h ring rate count length name s = _
  unfold execStoreImport
  rw [bar, on, legal, if_neg (by decide), if_neg, if_neg (by omega), if_neg]
  · rintro (illegal | none | many)
    · exact Bool.false_ne_true illegal.symm
    · omega
    · omega
  · rintro (large | wrong | off)
    · omega
    · exact wrong use
    · exact Bool.false_ne_true (off.symm.trans enabled)

end Sys2Proof.Machine

namespace Sys2Proof.Machine

/-- Settles O38: each command that passes its checks is one update of the store, and what shows its members are registers. -/
theorem storeCommands : Obligations.StoreCommands := by
  unfold Obligations.StoreCommands
  refine ⟨fun h s active => ⟨fun policy idle drives => ?_, fun barred => ?_⟩, fun h s bar on =>
    ⟨fun dev slot low high member other => exec_storeShare bar on low high member other,
      fun a first n window => ⟨fun none => ?_, fun some => ?_⟩, fun k policy idle there => ?_,
      fun ring k track first len mode x small use enabled permitted found held inside => ?_,
      fun ring rate count length name small use enabled low high legal some few => ?_⟩⟩
  · refine ⟨s.formatStore h, (exec_storeFormat h s active).trans (congrArg _ ?_), s.formatStore_shows h⟩
    obtain ⟨e, mem, some⟩ := drives
    obtain ⟨d, eq⟩ := Option.isSome_iff_exists.1 some
    have full : (e.1, d) ∈ s.store.drives.filterMap fun e => e.2.map fun d => (e.1, d) :=
      List.mem_filterMap.2 ⟨e, mem, by rw [eq]; rfl⟩
    rw [if_neg (Bool.not_eq_false _ ▸ policy), if_neg (Bool.not_eq_false _ ▸ idle), if_neg]
    exact fun empty => List.ne_nil_of_mem full (List.isEmpty_iff.1 empty)
  · exact (exec_storeFormat h s active).trans (congrArg _ (if_pos barred))
  · exact (exec_storeList bar on window).trans (congrArg _ (if_pos (List.isEmpty_iff.2 none)))
  · obtain ⟨regs, units, store, -, written, waits⟩ := s.listed_reports (s.listed first n) a
      ⟨h, 0x0702, .ok, 0, 0, (s.listed first n).length, false⟩
    refine ⟨_, (exec_storeList bar on window).trans (congrArg _ (if_neg fun empty => some (List.isEmpty_iff.1 empty))), store, regs,
      units, fun empty room => ?_, waits⟩
    obtain ⟨done, mem, -⟩ := written empty room
    exact ⟨done, mem⟩
  · obtain ⟨x, found⟩ := Option.isSome_iff_exists.1 there
    exact ⟨_, exec_storeDelete bar on policy idle found, .finish rfl .., (s.take?_deleteTake h k x k).trans (if_pos rfl),
      fun j other => (s.take?_deleteTake h k x j).trans (if_neg other), rfl⟩
  · exact ⟨_, exportMove h ring k track first len mode x, exec_storeExport bar on small use enabled permitted found held inside, rfl, rfl,
      rfl, rfl, rfl, exportMove_len h ring k track len mode inside, rfl, rfl, rfl⟩
  · exact ⟨_, exec_storeImport bar on small use enabled low high legal some few, rfl, rfl, rfl, rfl⟩

end Sys2Proof.Machine
end

