-- ==== Sys2Proof/Proofs/StoreRecording.lean ====
section
/-! PROOF. A take is armed, opens, collects chunks, is journaled and closes (R667, R668, R673–R680). -/

namespace Sys2Proof.Machine

variable {s t u : State}

/-! ### The take of a number -/

theorem State.take?_modTake (s : State) (no : Nat) {f : Take → Take} (same : ∀ x, (f x).no = x.no) (j : Nat) :
    (s.modTake no f).take? j = if j = no then (s.take? no).map f else s.take? j := by
  show (s.store.takes.map fun t => if t.no = some no then f t else t).find? (fun t => t.no == some j) = _
  rw [List.find?_map]
  have number : ((fun t : Take => t.no == some j) ∘ fun t => if t.no = some no then f t else t) = fun t => t.no == some j := by
    funext t
    simp only [Function.comp_apply]
    split
    · rw [same]
    · rfl
  rw [number]
  split
  · next own =>
    subst own
    unfold State.take?
    cases found : s.store.takes.find? (fun t => t.no == some j) with
    | none => rfl
    | some x =>
      have named : x.no = some j := by simpa using List.find?_some found
      simp [named]
  · next other =>
    unfold State.take?
    cases found : s.store.takes.find? (fun t => t.no == some j) with
    | none => rfl
    | some x =>
      have named : x.no = some j := by simpa using List.find?_some found
      have apart : ¬x.no = some no := fun eq => other (Option.some.inj (named.symm.trans eq))
      simp [apart]

theorem State.take?_modTake_same {no : Nat} {k : Take} (found : s.take? no = some k) {f : Take → Take} (same : ∀ x, (f x).no = x.no) :
    (s.modTake no f).take? no = some (f k) := by
  rw [s.take?_modTake no same, if_pos rfl, found]
  rfl

theorem State.take?_of_store (store : t.store = s.store) (j : Nat) : t.take? j = s.take? j := by
  unfold State.take?
  rw [store]

/-! ### STORE_REC_IN and STORE_REC_OUT (R673, R674) -/

/-- The take that a STORE_REC_IN arms. -/
def State.armedTake (s : State) (h : CmdHdr) (out : Option Nat) (d : Nat) (tracks : List (Fin 1024)) (name : List Byte) : Take :=
  { hdr := h, domain := d, rate := (s.dom d).rate, inSi := (s.applyAt d h.target).1, late := (s.applyAt d h.target).2,
    outSi := out.map (s.siTo d), tracks := tracks.map (·.val), name := name.take 24 }

theorem exec_storeRecIn {h : CmdHdr} {out : Option Nat} {a d : Nat} {tracks : List (Fin 1024)} (name : List Byte)
    (window : s.windowOk a 128 false = true) (domain : d ≤ 2) (configured : (s.dom d).configured = true) (on : s.storeOn = true)
    (active : s.standby = false) (named : tracks ≠ []) (after : ∀ o, out = some o → (s.applyAt d h.target).1 < s.siTo d o)
    (free : ((s.store.takes.filter (·.live)).any fun t => t.tracks.any (tracks.map (·.val)).contains &&
      rangesMeet (s.applyAt d h.target).1 (out.map (s.siTo d)) t.inSi t.outSi) = false)
    (few : (s.store.takes.filter (·.live)).length < 16)
    (rate : ((s.store.takes.filter (·.live)).map fun t => t.tracks.length * t.rate).sum + tracks.length * (s.dom d).rate ≤ trackRate)
    (fit : s.buffersFit d (s.storeTracks d + tracks.length) = true) (extents : 64 * tracks.length ≤ s.get Reg.STORE_FREE_EXTENTS) :
    exec (.storeRecIn h out a tracks d name) s =
      .next (s.modStore fun y => { y with takes := y.takes ++ [s.armedTake h out d tracks name] }) := by
  have third : d % 3 = d := Nat.mod_eq_of_lt (by omega)
  have length : (tracks.map (·.val)).length = tracks.length := List.length_map ..
  have full : (tracks.map (·.val)).isEmpty = false := by simpa using named
  have order : ¬((match out.map (s.siTo d) with | some o => decide (o < (s.applyAt d h.target).1) | none => false) = true) := by
    cases out with
    | none => exact Bool.false_ne_true
    | some o => simpa using Nat.le_of_lt (after o rfl)
  have apart : out.map (s.siTo d) ≠ some (s.applyAt d h.target).1 := by
    cases out with
    | none => nofun
    | some o => exact fun eq => absurd (after o rfl) (by rw [Option.some.inj eq]; exact Nat.lt_irrefl _)
  show execStoreRecIn h out a tracks d name s = _
  unfold execStoreRecIn
  dsimp only
  rw [third, length, window, configured, on, active, full, free, fit, if_neg (by decide), if_neg fun either => either.elim (by omega) nofun]
  refine congrArg Host.Outcome.next ((if_neg order).trans ?_)
  rw [if_neg apart, if_neg (by decide), if_neg (by decide), if_neg (by omega), if_neg (by omega), if_neg (by decide), if_neg (by omega)]
  rfl

theorem exec_storeRecOut {h : CmdHdr} {n : Nat} {k : Take} (found : s.store.takes.find? (fun t => t.live && t.hdr.tag == n) = some k)
    (bar : s.storeBar = false) (open_ : k.outHdr = none) (target : h.target ≠ 0) (after : k.inSi < s.siTo k.domain h.target) :
    exec (.storeRecOut h n) s = .next (s.modStore fun y => { y with takes := y.takes.map fun x => if x = k then
      { x with outSi := some (max (s.applyAt k.domain h.target).1 x.inSi), outHdr := some (h, (s.applyAt k.domain h.target).2),
               byCommand := true } else x }) := by
  show execStoreRecOut h n s = _
  unfold execStoreRecOut
  rw [found]
  dsimp only
  rw [bar, open_, if_neg (by decide), if_neg (by decide), if_neg fun both => absurd both.2 (by omega), if_neg]
  rw [if_neg target]
  omega

/-! ### PUNCH_IN and PUNCH_OUT (R675, R676) -/

theorem exec_punchIn {n : BitVec 32} {k : Take} (found : s.store.takes.find? (fun t => t.no.isNone && t.hdr.tag == n.toNat) = some k) :
    exec (.punchIn n) s = if k.inSi < (s.dom k.domain).begun then
      .next ((s.modStore fun y => { y with
        nextTake := s.store.nextTake + 1
        takes := y.takes.map fun x =>
          if x = k then { x with no := some s.store.nextTake, open_ := true, members := s.members } else x }).countTracks.finish
        k.hdr 0x0710 (if k.late then .late else .ok) 0 (s.toP k.domain k.inSi) s.store.nextTake)
    else .next s := by
  show execPunchIn n s = _
  unfold execPunchIn
  rw [found]

/-- A take that has collected its last sample. -/
def Take.endAt (o : Nat) (x : Take) : Take := { x with open_ := false, closed := true, outHdr := none, fill := o - x.inSi }
def State.closeTake (s : State) (no o : Nat) : State := (s.modTake no (Take.endAt o)).countTracks

/-- A closed take is told. -/
def State.tellClosed (s : State) (no o : Nat) (k : Take) (now : Nat) : State :=
  s.post .other none { code := 0x0150, si := now, body := [no, if k.byCommand then 2 else 1, o] }

theorem exec_punchOut {no o : Nat} {k : Take} (found : s.take? no = some k) (ends : k.outSi = some o) (open_ : k.open_ = true)
    (full : o ≤ k.inSi + k.fill) : exec (.punchOut no) s = .next (
      match k.outHdr with
      | some (h, late) => ((s.closeTake no o).tellClosed no o k ((s.closeTake no o).dom 0).si).finish h 0x0711
          (if late then .late else .ok) 0 (s.toP k.domain o) 0
      | none => (s.closeTake no o).tellClosed no o k ((s.closeTake no o).dom 0).si) := by
  show execPunchOut no s = _
  unfold execPunchOut
  rw [found]
  dsimp only
  rw [ends]
  dsimp only
  rw [open_, decide_eq_true full, if_pos (by decide)]
  rfl

theorem State.closeTake_shows {no : Nat} {k : Take} (found : s.take? no = some k) (o now : Nat) :
    let t := (s.closeTake no o).tellClosed no o k now
    t.take? no = some (Take.endAt o k) ∧ t.units = s.units ∧
      (∀ j, j ≠ no → t.take? j = s.take? j) ∧ t.host.done = s.host.done := by
  have same := SameButHost.post (s.closeTake no o) .other none
    { code := 0x0150, si := now, body := [no, if k.byCommand then 2 else 1, o] }
  have take (j : Nat) : ((s.closeTake no o).tellClosed no o k now).take? j =
      (s.modTake no (Take.endAt o)).take? j :=
    State.take?_of_store same.store j
  refine ⟨(take no).trans (State.take?_modTake_same found fun _ => rfl), same.units, fun j other => ?_,
    (SameButEvents.post (s.closeTake no o) _ _ _).done⟩
  rw [take, State.take?_modTake s no (f := Take.endAt o) (fun _ => rfl), if_neg other]

/-! ### CHUNK_WRITE and RECORD_OVERRUN (R677, R679) -/

/-- The places of a take's extents with the extent of a chunk that is written, and whether it is a new one. -/
def State.placeChunk (s : State) (k : Take) (c m : Nat) : Take × Bool :=
  let w := Tab.get 0 k.written c
  let key := c * 2 ^ 32 + w / chunksPerExtent
  if w % chunksPerExtent = 0 ∨ (k.places.any fun e => e.1 == key) = false then
    ({ k with places := (key, s.placeFor m) :: k.places.filter (·.1 != key) }, true)
  else (k, false)

/-- A chunk of a track is written, or lost. -/
def Take.wrote (c w : Nat) (places : Tab Nat) (x : Take) : Take := { x with written := Tab.put 0 x.written c (w + 1), places := places }
def Take.lost (c w : Nat) (x : Take) : Take := { x with written := Tab.put 0 x.written c (w + 1), gaps := x.gaps ++ [(c, w)] }

theorem Take.written_wrote (c w : Nat) (places : Tab Nat) (x : Take) : Tab.get 0 (Take.wrote c w places x).written c = w + 1 :=
  Tab.get_put_same 0 x.written c (w + 1)
theorem Take.written_lost (c w : Nat) (x : Take) : Tab.get 0 (Take.lost c w x).written c = w + 1 :=
  Tab.get_put_same 0 x.written c (w + 1)

/-- A chunk that is written. -/
def State.writeChunk (s : State) (no : Nat) (k : Take) (c m : Nat) : State :=
  let w := Tab.get 0 k.written c
  let p := s.placeChunk k c m
  (((if p.2 then s.take else s).modTake no (Take.wrote c w p.1.places)).sendDrives
    [(m, .write nvmeNs (p.1.chunkLba c w) (ceilDiv (min chunkLen (k.fill - w * chunkLen)) 1024))]).showFree

theorem exec_chunkWrite {no : Nat} {k : Take} {c : Fin 1024} {m : Nat} (found : s.take? no = some k) (track : k.tracks.contains c.val =
    true)
    (whole : k.byLoss = false) (member : k.memberOf c (Tab.get 0 k.written c) = some m) (ready : k.chunkReady c = true)
    (goes : s.store.stopped = false) (on : s.storeOn = true) : exec (.chunkWrite no c) s = .next (s.writeChunk no k c m) := by
  show execChunkWrite no c s = _
  unfold execChunkWrite
  rw [found]
  dsimp only
  rw [track, ready, whole, goes, on, if_pos (by decide), member]
  unfold State.writeChunk State.placeChunk
  dsimp only
  split
  · rfl
  · rfl

theorem State.writeChunk_shows {no : Nat} {k : Take} (found : s.take? no = some k) (c m : Nat) :
    ∃ x lba n, (s.writeChunk no k c m).store.issued = [(s.driveOf m, .write nvmeNs lba n)] ∧
      (s.writeChunk no k c m).take? no = some x ∧ Tab.get 0 x.written c = Tab.get 0 k.written c + 1 ∧ x.gaps = k.gaps ∧
      (s.writeChunk no k c m).units = s.units ∧ ∀ j, j ≠ no → (s.writeChunk no k c m).take? j = s.take? j := by
  have drawn : (if (s.placeChunk k c m).2 then s.take else s).store = s.store := (apply_ite State.store ..).trans (ite_self _)
  have units : (if (s.placeChunk k c m).2 then s.take else s).units = s.units := (apply_ite State.units ..).trans (ite_self _)
  unfold State.writeChunk
  dsimp only
  generalize (if (s.placeChunk k c m).2 then s.take else s) = v at drawn units
  have held : v.take? no = some k := (State.take?_of_store drawn no).trans found
  have taken (j : Nat) := State.take?_modTake v no (f := Take.wrote c (Tab.get 0 k.written c) (s.placeChunk k c m).1.places) (fun _ =>
    rfl) j
  refine ⟨Take.wrote c (Tab.get 0 k.written c) (s.placeChunk k c m).1.places k,
    (s.placeChunk k c m).1.chunkLba c (Tab.get 0 k.written c), ceilDiv (min chunkLen (k.fill - Tab.get 0 k.written c * chunkLen)) 1024,
    ?_, (taken no).trans ?_, Take.written_wrote .., rfl,
    units, fun j other => ?_⟩
  · have same : v.driveOf m = s.driveOf m := by rw [State.driveOf, drawn]; rfl
    exact congrArg (fun n => [(n, _)]) same
  · rw [if_pos rfl, held]
    rfl
  · exact (taken j).trans ((if_neg other).trans (State.take?_of_store drawn j))

/-- A chunk that is lost. -/
def State.loseChunk (s : State) (no c w : Nat) : State :=
  ((s.modTake no (Take.lost c w)).bump Reg.STORE_OVERRUN_CNT_COUNT).set Reg.STORE_STATUS_OVERRUN

theorem exec_recordOverrun {no : Nat} {k : Take} {c : Fin 1024} (found : s.take? no = some k) (track : k.tracks.contains c.val = true)
    (whole : k.byLoss = false) (late : (Tab.get 0 k.written c + 2) * chunkLen ≤ k.fill) :
    exec (.recordOverrun no c) s = .next ((s.loseChunk no c (Tab.get 0 k.written c)).postNow .fault none 0x0151 [1, c.val]) := by
  show execRecordOverrun no c s = _
  unfold execRecordOverrun
  rw [found]
  dsimp only
  rw [track, decide_eq_true late, whole]
  rfl

theorem overrun_within : (∀ g ∈ [Reg.STORE_STATUS_OVERRUN, Reg.STORE_OVERRUN_CNT_COUNT], g.lo < 32 ∧ g.outsideHost) ∧
    Reg.STORE_OVERRUN_CNT_COUNT.key ≠ Reg.STORE_STATUS_OVERRUN.key := by decide

theorem State.loseChunk_shows {no : Nat} {k : Take} (found : s.take? no = some k) (c : Nat) :
    let w := Tab.get 0 k.written c
    let t := (s.loseChunk no c w).postNow .fault none 0x0151 [1, c]
    ∃ x, t.take? no = some x ∧ x.gaps = k.gaps ++ [(c, w)] ∧ Tab.get 0 x.written c = w + 1 ∧
      t.bit Reg.STORE_STATUS_OVERRUN = true ∧
      t.get Reg.STORE_OVERRUN_CNT_COUNT = min (s.get Reg.STORE_OVERRUN_CNT_COUNT + 1) (2 ^ 32 - 1) ∧ t.units = s.units := by
  obtain ⟨within, apart⟩ := overrun_within
  obtain ⟨lo, out⟩ := within Reg.STORE_STATUS_OVERRUN (by simp)
  obtain ⟨lo', out'⟩ := within Reg.STORE_OVERRUN_CNT_COUNT (by simp)
  have same := SameButHost.postNow (s.loseChunk no c (Tab.get 0 k.written c)) .fault none 0x0151 [1, c]
  have taken := State.take?_modTake_same found (f := Take.lost c (Tab.get 0 k.written c)) fun _ => rfl
  refine ⟨_, (State.take?_of_store same.store no).trans taken, rfl, Take.written_lost .., ?_, ?_, same.units⟩
  · rw [State.bit, same.get _ lo out]
    exact State.bit_set_same _ rfl
  · rw [same.get _ lo' out', State.loseChunk, State.set, State.get_put_ne _ apart, State.get_bump_same]
    rfl

/-! ### JOURNAL_CUT and JOURNAL_COMMIT (R667, R680) -/

theorem exec_journalCut (on : s.storeOn = true) (uncut : s.store.journalCut = false) (goes : s.store.stopped = false)
    (any : ∃ k ∈ s.store.takes, k.no.isSome = true) : exec .journalCut s = .next (s.modStore fun y => { y with
      journalCut := true
      takes := y.takes.map fun t => if t.closed then { t with cut := t.fill } else { t with cut := t.fill / chunkLen * chunkLen } }) := by
  obtain ⟨k, mem, numbered⟩ := any
  have taken : s.store.takes.all (fun t => t.no.isNone) = false :=
    List.all_eq_false.2 ⟨k, mem, by rw [Option.isNone_eq_false_iff.2 numbered]; exact Bool.false_ne_true⟩
  show execJournalCut s = _
  unfold execJournalCut
  rw [on, uncut, goes, taken]
  rfl

/-- A committed record, before its writes go out. -/
def State.commitRecord (s : State) (n : Nat) : State :=
  ((s.modStore fun y => { y with
    journalCut := false, records := y.records + n
    takes := y.takes.map fun t => { t with journaled := t.cut } }).put Reg.STORE_JSEQ_SEQ (s.get Reg.STORE_JSEQ_SEQ + 1)).modStore
      fun y => { y with journalAt := (y.journalAt + n) % s.journalLbas }

theorem exec_journalCommit {l : Fin 16} (on : s.storeOn = true) (cut : s.store.journalCut = true)
    (covered : ∀ k ∈ s.store.takes, k.byLoss = true ∨ ∀ c ∈ k.tracks, k.cut ≤ Tab.get 0 k.written c * chunkLen) :
    ∃ t i r g, exec (.journalCommit l) s = .next t ∧
      t.store = { (s.commitRecord (l.val + 1)).store with issued := i, records := r, generation := g } ∧
      t.regs = (s.commitRecord (l.val + 1)).regs ∧ t.units = s.units ∧ t.host = s.host := by
  have all : s.store.takes.all (fun t => t.byLoss || t.tracks.all fun k => decide (t.cut ≤ Tab.get 0 t.written k * chunkLen)) = true := by
    simpa [List.all_eq_true] using covered
  show ∃ t i r g, execJournalCommit l s = .next t ∧ _
  unfold execJournalCommit
  dsimp only
  rw [cut, all, on, if_pos (by decide)]
  split
  · exact ⟨_, _, _, _, rfl, rfl, rfl, rfl, rfl⟩
  · exact ⟨_, _, _, _, rfl, rfl, rfl, rfl, rfl⟩

theorem State.commitRecord_shows (s : State) (n : Nat) : (s.commitRecord n).store.journalCut = false ∧
    (∀ k ∈ (s.commitRecord n).store.takes, k.journaled = k.cut) ∧
    (s.commitRecord n).get Reg.STORE_JSEQ_SEQ = (s.get Reg.STORE_JSEQ_SEQ + 1) % 2 ^ 64 := by
  refine ⟨rfl, fun k mem => ?_, State.get_put_same ..⟩
  obtain ⟨x, -, rfl⟩ := List.mem_map.1 mem
  rfl

end Sys2Proof.Machine

namespace Sys2Proof.Machine

/-- Settles O39: a take is found by its number or its command, and each command changes that take alone. -/
theorem storeRecording : Obligations.StoreRecording := by
  unfold Obligations.StoreRecording
  refine ⟨?_,
    fun n s k found => ⟨fun due => ?_, fun early => ?_⟩, fun h n s k found bar open_ target after => ?_,
    fun no s k found => ⟨fun o ends open_ full => ?_, fun c track whole => ⟨fun m member ready goes on => ?_, fun late => ?_⟩⟩,
    fun s on => ⟨fun uncut goes any => ?_, fun l cut covered => ?_⟩⟩
  · intro h out a d tracks name s window domain configured on active named si lives after free few rate fit extents
    exact ⟨_, s.armedTake h out d tracks name,
      exec_storeRecIn name window domain configured on active named after free few rate fit extents,
      rfl, rfl, rfl, rfl, rfl, rfl, rfl, rfl, rfl, rfl, rfl, rfl⟩
  · exact ⟨_, (exec_punchIn found).trans (if_pos due), rfl,
      List.mem_map.2 ⟨k, List.mem_of_find?_eq_some found, if_pos rfl⟩, .finish rfl .., rfl⟩
  · exact (exec_punchIn found).trans (if_neg (Nat.not_lt.2 early))
  · exact exec_storeRecOut found bar open_ target after
  · obtain ⟨taken, units, others, done⟩ := State.closeTake_shows found o ((s.closeTake no o).dom 0).si
    have run := exec_punchOut found ends open_ full
    refine ⟨_, Take.endAt o k, run, ?_⟩
    cases told : k.outHdr with
    | none => exact ⟨taken, rfl, rfl, rfl, rfl, units, others, nofun⟩
    | some x =>
      refine ⟨taken, rfl, rfl, rfl, rfl, units, others, fun h late same => ?_⟩
      obtain rfl := Option.some.inj same
      exact congrArg (· ++ [⟨h, 0x0711, if late then .late else .ok, 0, s.toP k.domain o, 0, false⟩]) done
  · obtain ⟨x, lba, n, issued, taken, written, gaps, units, others⟩ := State.writeChunk_shows found c m
    exact ⟨_, x, lba, n, exec_chunkWrite found track whole member ready goes on, issued, taken, written, gaps, units, others⟩
  · obtain ⟨x, taken, gaps, written, seen, count, units⟩ := State.loseChunk_shows found c
    exact ⟨_, x, exec_recordOverrun found track whole late, taken, gaps, written, seen, count, units⟩
  · refine ⟨_, exec_journalCut on uncut goes any, rfl, rfl, rfl, fun k mem => ?_⟩
    obtain ⟨x, -, rfl⟩ := List.mem_map.1 mem
    split <;> simp_all
  · obtain ⟨t, i, r, g, run, store, regs, units, host⟩ := exec_journalCommit on cut covered
    obtain ⟨uncut, journaled, seq⟩ := s.commitRecord_shows (l.val + 1)
    refine ⟨t, run, ?_, units, host, ?_, (State.get_of_regs regs _).trans seq⟩
    · rw [store]
      exact uncut
    · rw [store]
      exact journaled

end Sys2Proof.Machine
end

