-- ==== Sys2Proof/Proofs/StorePlayAndDrives.lean ====
section
/-! PROOF. Plays are queued, start, stop and underrun; members leave and return; drives are seen (R661, R670, R681–R685, R691, R692). -/

namespace Sys2Proof.Machine

variable {s t u : State}

/-! ### Plays (R681–R683) -/

/-- The SI from which a play delivers. -/
def State.playFrom (s : State) (h : CmdHdr) (k : Take) : Nat :=
  if h.target = 0 then s.playLead k.domain else max (s.siTo k.domain h.target) (s.playLead k.domain)

/-- The play of the rest of a take. -/
def State.playRest (s : State) (h : CmdHdr) (no rec track off : Nat) (k : Take) : Play :=
  { hdr := h, take := no, recTrack := rec, track := track, q := s.playFrom h k,
    late := decide (h.target ≠ 0 ∧ s.siTo k.domain h.target < s.playLead k.domain), offset := off, len := k.fill - off, domain := k.domain }

theorem exec_storePlay {h : CmdHdr} {no rec track off : Nat} {k : Take} (found : s.take? no = some k) (bar : s.storeBar = false)
    (on : s.storeOn = true) (held : k.tracks.contains rec = true) (output : track ≤ 1023) (inside : off < k.fill)
    (closed : k.closed = true)
    (free : (s.store.plays.any fun p => p.track == track && rangesMeet (s.playFrom h k) (some (s.playFrom h k + (k.fill - off))) p.q
      (some p.ends)) = false)
    (rate : (s.store.plays.map fun p => (s.dom p.domain).rate).sum + (s.dom k.domain).rate ≤ trackRate)
    (fit : s.buffersFit k.domain (s.storeTracks k.domain + 1) = true) : exec (.storePlay h no rec track off none) s =
      .next (s.modStore fun y => { y with plays := y.plays ++ [s.playRest h no rec track off k] }) := by
  show execStorePlay h no rec track off none s = _
  unfold execStorePlay
  rw [found]
  dsimp only
  rw [bar, on, held, closed, fit, if_neg (by decide), if_neg (by decide), if_neg (by omega), if_neg (by omega), if_neg (by decide)]
  refine congrArg Host.Outcome.next ((if_neg (Bool.eq_false_iff.1 free)).trans ?_)
  rw [if_neg (by omega), if_neg (by decide)]
  rfl

theorem exec_playStart {n : BitVec 32} {p : Play} (found : s.store.plays.find? (fun p => !p.started && p.hdr.tag == n.toNat) = some p) :
    exec (.playStart n) s = if p.q < (s.dom p.domain).begun then
      .next ((s.modPlay p fun x => { x with started := true }).countTracks.finish p.hdr 0x0720 (if p.late then .late else .ok) 0
        (s.toP p.domain p.q) 0) else .next s := by
  show execPlayStart n s = _
  unfold execPlayStart
  rw [found]
  rfl

/-- A play ends at `si`, or where it ends sooner, for a STORE_STOP that waits for it. -/
def Play.stopAt (x : Play) (h : CmdHdr) (late : Bool) (si : Nat) : Play :=
  { x with stop := some (match x.stop with | some e => min e si | none => si), stops := x.stops ++ [(h, late, si)] }

theorem exec_storeStop {h : CmdHdr} {n : Nat} {p : Play} (found : s.store.plays.find? (fun p => p.hdr.tag == n) = some p)
    (bar : s.storeBar = false) : exec (.storeStop h n) s = .next (
      if (s.applyAt p.domain h.target).1 ≤ p.q ∧ p.started = false then
        ((s.modStore fun y => { y with plays := y.plays.filter fun x => decide (x ≠ p) }).finish p.hdr 0x0720 .aborted 0 0 0).finish h
          0x0721 (if (s.applyAt p.domain h.target).2 then .late else .ok) 0 (s.toP p.domain (s.applyAt p.domain h.target).1) 0
      else s.modPlay p fun x => x.stopAt h (s.applyAt p.domain h.target).2 (s.applyAt p.domain h.target).1) := by
  show execStoreStop h n s = _
  unfold execStoreStop
  rw [found]
  dsimp only
  rw [bar, if_neg (by decide)]
  exact congrArg Host.Outcome.next (if_congr (by simp) rfl rfl)

theorem Play.stopAt_ends (h : CmdHdr) (late : Bool) (si : Nat) (p : Play) : ∃ e, (e = si ∨ (e < si ∧ p.stop = some e)) ∧
    p.stopAt h late si = { p with stop := some e, stops := p.stops ++ [(h, late, si)] } := by
  cases stop : p.stop with
  | none => exact ⟨si, .inl rfl, by unfold Play.stopAt; rw [stop]⟩
  | some e =>
    refine ⟨min e si, ?_, by unfold Play.stopAt; rw [stop]⟩
    by_cases sooner : e < si
    · exact .inr ⟨by omega, congrArg some (by omega)⟩
    · exact .inl (by omega)

/-- A play of a domain that has ended. -/
def Play.over (d n : Nat) (p : Play) : Bool := p.domain == d && p.started && decide (p.ends ≤ n)

/-- The STORE_STOPs of ended plays complete. -/
def State.tellStops (s : State) (d : Nat) (l : List (CmdHdr × Bool × Nat)) : State :=
  s.each l fun e t => t.finish e.1 0x0721 (if e.2.1 then .late else .ok) 0 (t.toP d e.2.2) 0

theorem State.endPlays_eq (s : State) (d n : Nat) : s.endPlays d n =
    ((s.modStore fun y => { y with plays := y.plays.filter fun p => !p.over d n }).countTracks).tellStops d
      ((s.store.plays.filter (·.over d n)).flatMap (·.stops)) := rfl

theorem State.tellStops_keeps (s : State) (d : Nat) (l : List (CmdHdr × Bool × Nat)) :
    (s.tellStops d l).store = s.store ∧ (s.tellStops d l).doms = s.doms ∧ ∀ x ∈ s.host.done, x ∈ (s.tellStops d l).host.done := by
  unfold State.tellStops
  refine State.each_keeps (fun t : State => t.store = s.store ∧ t.doms = s.doms ∧ ∀ x ∈ s.host.done, x ∈ t.host.done) _ ?_ s l
    ⟨rfl, rfl, fun _ mem => mem⟩
  exact fun e t ⟨store, doms, done⟩ => ⟨store, doms, fun x mem => List.mem_append_left _ (done x mem)⟩

theorem State.tellStops_tells (s : State) (d : Nat) {l : List (CmdHdr × Bool × Nat)} {h : CmdHdr} {late : Bool} {si : Nat}
    (mem : (h, late, si) ∈ l) :
    (⟨h, 0x0721, if late then .late else .ok, 0, s.toP d si, 0, false⟩ : Done) ∈ (s.tellStops d l).host.done := by
  obtain ⟨before, after, rfl⟩ := List.append_of_mem mem
  have split : s.tellStops d (before ++ (h, late, si) :: after) = ((s.tellStops d before).finish h 0x0721 (if late then .late else .ok) 0
      ((s.tellStops d before).toP d si) 0).tellStops d after := by
    unfold State.tellStops State.each
    rw [List.foldl_append]
    rfl
  have now : (s.tellStops d before).toP d si = s.toP d si := by
    unfold State.toP State.dom
    rw [(s.tellStops_keeps d before).2.1]
  rw [split, now]
  exact (State.tellStops_keeps _ d after).2.2 _ (List.mem_append_right _ (List.mem_singleton.2 rfl))

theorem State.endPlays_shows {d n : Nat} {p : Play} (mem : p ∈ s.store.plays) (domain : p.domain = d) (started : p.started = true)
    (ends : p.ends ≤ n) : p ∉ (s.endPlays d n).store.plays ∧ ∀ h late si, (h, late, si) ∈ p.stops →
      (⟨h, 0x0721, if late then .late else .ok, 0, s.toP d si, 0, false⟩ : Done) ∈ (s.endPlays d n).host.done := by
  have ended : p.over d n = true := by simp [Play.over, domain, started, ends]
  rw [State.endPlays_eq]
  refine ⟨?_, fun h late si own => State.tellStops_tells _ d (List.mem_flatMap.2 ⟨p, List.mem_filter.2 ⟨mem, ended⟩, own⟩)⟩
  rw [(State.tellStops_keeps _ d _).1]
  intro still
  have going := (List.mem_filter.1 (show p ∈ s.store.plays.filter fun p => !p.over d n from still)).2
  rw [ended] at going
  exact Bool.false_ne_true going

theorem exec_smartPoll {n : Fin 8} (k : BitVec 16) (present : s.bit (Reg.STORE_DRV_STATUS_PRESENT n) = true)
    (used : s.bit (Reg.STORE_DRV_STATUS_REFUSED n) = false) : exec (.smartPoll n k) s =
      .next ((s.put (Reg.STORE_DRV_TEMP_KELVIN n) k.toNat).modStore fun x => { x with issued := [(n.val, .getSmartLog)] }) := by
  show execSmartPoll n k s = _
  unfold execSmartPoll
  rw [present, used]
  rfl

/-! ### Chunks that are read or missing (R682, R683, R692) -/

theorem exec_playbackChunkRead {c : Fin 1024} {n : Nat} {p : Play} {k : Take}
    (found : s.store.plays.find? (fun p => p.track == c.val && !p.buffered.contains n &&
      (match s.take? p.take with | some k => s.readable k p.recTrack n | none => false)) = some p) (taken : s.take? p.take = some k) :
    exec (.playbackChunkRead c n) s = .next ((s.modPlay p fun x => { x with buffered := x.buffered ++ [n] }).sendDrives
      (((k.memberOf p.recTrack n).toList).map fun m => (m, .read nvmeNs (k.chunkLba p.recTrack n) 32))) := by
  show execPlaybackChunkRead c n s = _
  unfold execPlaybackChunkRead
  dsimp only
  refine (congrArg (fun o : Option Play => Host.Outcome.next (match o with
    | some p => (s.modPlay p fun x => { x with buffered := x.buffered ++ [n] }).sendDrives
        (((((s.take? p.take).getD {}).memberOf p.recTrack n).toList).map fun m =>
          (m, .read nvmeNs (((s.take? p.take).getD {}).chunkLba p.recTrack n) 32))
    | none => s)) found).trans ?_
  dsimp only
  rw [taken]
  rfl

theorem exec_playUnderrun {c : Fin 1024} {n : Nat} {p : Play}
    (found : s.store.plays.find? (fun p => p.track == c.val && p.started && !p.buffered.contains n && !p.missed.contains n) = some p) :
    exec (.playUnderrun c n) s = .next (((s.modPlay p fun x => { x with missed := x.missed ++ [n] }).bump
      Reg.STORE_UNDERRUN_CNT_COUNT).postNow .fault none 0x0151 [2, c.val]) := by
  show execPlayUnderrun c n s = _
  unfold execPlayUnderrun
  dsimp only
  rw [found]

/-! ### What a change of members leaves (R684, R685) -/

/-- The units, the drives and each drive's own registers stay. -/
structure KeepsDrives (s t : State) : Prop where
  units : t.units = s.units
  drives : t.store.drives = s.store.drives
  get : ∀ f : Fld, f.lo < 32 → 0x11100 ≤ f.off → f.lo ≠ 1 → f.lo ≠ 4 → t.get f = s.get f

theorem KeepsDrives.refl : KeepsDrives s s := ⟨rfl, rfl, fun _ _ _ _ _ => rfl⟩

theorem KeepsDrives.trans (a : KeepsDrives s t) (b : KeepsDrives t u) : KeepsDrives s u :=
  ⟨b.units.trans a.units, b.drives.trans a.drives, fun f lo off one four => (b.get f lo off one four).trans (a.get f lo off one four)⟩

theorem KeepsDrives.of_same (units : t.units = s.units) (drives : t.store.drives = s.store.drives) (regs : t.regs = s.regs) :
    KeepsDrives s t := ⟨units, drives, fun f _ _ _ _ => State.get_of_regs regs f⟩

/-- A register of the store, or one that shows which member a drive is. -/
theorem KeepsDrives.put {g : Fld} (lo : g.lo < 32) (own : g.off < 0x11100 ∨ g.lo = 1 ∨ g.lo = 4) (v : Nat) :
    KeepsDrives s (s.put g v) := by
  refine ⟨rfl, rfl, fun f small low one four => State.get_put_ne s ?_ v⟩
  unfold Fld.key
  omega

theorem KeepsDrives.host (h : SameButHost s t) : KeepsDrives s t :=
  ⟨h.units, by rw [h.store], fun f lo off _ _ => h.get f lo (.inr (le_trans (by decide) off))⟩

theorem KeepsDrives.ite {c : Prop} [Decidable c] (a : KeepsDrives s t) (b : KeepsDrives s u) : KeepsDrives s (if c then t else u) := by
  split
  · exact a
  · exact b

theorem KeepsDrives.each {α : Type} {xs : List α} {f : α → State → State} (h : ∀ x t, KeepsDrives t (f x t)) :
    KeepsDrives s (s.each xs f) := State.each_keeps (KeepsDrives s) f (fun x t kept => kept.trans (h x t)) s xs .refl

theorem KeepsDrives.showFree (s : State) : KeepsDrives s s.showFree := .put (by decide) (by decide) _

theorem KeepsDrives.countTracks (s : State) : KeepsDrives s s.countTracks :=
  .trans (.put (by decide) (by decide) _) (.put (by decide) (by decide) _)

/-- What the drives show of their places in the store. -/
def State.showPlaces (s : State) (l : List (Nat × Drive)) (f : Nat × Drive → Bool) : State := s.each l fun e t =>
  (t.putBit (Reg.STORE_DRV_STATUS_MEMBER e.1) (f e)).put (Reg.STORE_DRV_STATUS_INDEX e.1) e.2.index

theorem KeepsDrives.showPlaces (s : State) (l : List (Nat × Drive)) (f : Nat × Drive → Bool) : KeepsDrives s (s.showPlaces l f) :=
  .each fun e t => .trans (.put (show 1 < 32 by decide) (.inr (.inl rfl)) _) (.put (show 4 < 32 by decide) (.inr (.inr rfl)) _)

theorem KeepsDrives.showMembers (s : State) : KeepsDrives s s.showMembers := by
  unfold State.showMembers
  dsimp only
  refine .trans ?_ (.showFree _)
  refine .trans ?_ (.put (by decide) (by decide) _)
  refine .trans ?_ (.put (by decide) (by decide) _)
  refine .trans ?_ (.showPlaces _ _ _)
  exact .trans (.put (by decide) (by decide) _) (.put (by decide) (by decide) _)

/-- The punch-out of a take that closes early is aborted. -/
def State.abortPunchOut (s : State) (x : Take) : State :=
  match x.outHdr with
  | some (h, _) => s.finish h 0x0711 .aborted 0 (s.toP x.domain (x.inSi + x.journaled)) 0
  | none => s

theorem State.abortPunchOut_keeps (s : State) (x : Take) : (s.abortPunchOut x).units = s.units ∧ (s.abortPunchOut x).store = s.store ∧
    (s.abortPunchOut x).regs = s.regs := by
  unfold State.abortPunchOut
  split <;> exact ⟨rfl, rfl, rfl⟩

theorem KeepsDrives.abortPunchOut (s : State) (x : Take) : KeepsDrives s (s.abortPunchOut x) := by
  obtain ⟨units, store, regs⟩ := s.abortPunchOut_keeps x
  exact .of_same units (by rw [store]) regs

theorem State.recover_eq (s : State) : s.recover =
    let s2 := (s.modStore fun x => { x with
      takes := x.takes.map fun t => if t.open_ then { t.atJournal with recovered := true, outHdr := none } else t
      journalCut := false }).each (s.store.takes.filter (·.open_)) fun t u => u.abortPunchOut t
    if s.store.takes.any (·.open_) then s2.set Reg.STORE_STATUS_RECOVERED else s2 := rfl

theorem KeepsDrives.recover (s : State) : KeepsDrives s s.recover := by
  rw [State.recover_eq]
  have closed (l : List Take) : KeepsDrives s ((s.modStore fun x => { x with
      takes := x.takes.map fun t => if t.open_ then { t.atJournal with recovered := true, outHdr := none } else t
      journalCut := false }).each l fun t u => u.abortPunchOut t) :=
    .trans (t := s.modStore _) (.of_same rfl rfl rfl) (.each fun t u => .abortPunchOut u t)
  exact .ite ((closed _).trans (.put (by decide) (by decide) 1)) (closed _)

/-- Open takes at their journaled points. -/
def closedEarly (l : List Take) : List Take := l.map fun t => if t.open_ then { t.atJournal with byLoss := true, outHdr := none } else t

theorem State.closeTakes_eq (s : State) : s.closeTakes = ((s.modStore fun x => { x with takes := closedEarly x.takes }).each
    (s.store.takes.filter (·.open_)) fun t u => (u.abortPunchOut t).post .other none
      { code := 0x0150, si := ((u.abortPunchOut t).dom 0).si, body := [t.no.getD 0, 3, t.inSi + t.journaled] }).countTracks := by
  unfold State.closeTakes closedEarly
  dsimp only
  refine congrArg State.countTracks (congrArg (State.each _ _) (funext fun t => funext fun u => ?_))
  unfold State.abortPunchOut
  cases t.outHdr <;> rfl

theorem State.closeTakes_keeps (s : State) : KeepsDrives s s.closeTakes ∧ s.closeTakes.store.takes = closedEarly s.store.takes ∧
    ∀ f : Fld, f.lo < 32 → f.outsideHost → f.off ≠ 0x11010 → s.closeTakes.get f = s.get f := by
  have early (t : Take) (u : State) : KeepsDrives u ((u.abortPunchOut t).post .other none
      { code := 0x0150, si := ((u.abortPunchOut t).dom 0).si, body := [t.no.getD 0, 3, t.inSi + t.journaled] }) :=
    .trans (.abortPunchOut u t) (.host (.post ..))
  rw [State.closeTakes_eq]
  generalize aborted : State.each _ (s.store.takes.filter (·.open_)) _ = v
  have kept : KeepsDrives s v ∧ v.store.takes = closedEarly s.store.takes ∧
      ∀ f : Fld, f.lo < 32 → f.outsideHost → v.get f = s.get f := by
    rw [← aborted]
    refine State.each_keeps (fun t : State => KeepsDrives s t ∧ t.store.takes = closedEarly s.store.takes ∧
      ∀ f : Fld, f.lo < 32 → f.outsideHost → t.get f = s.get f) _ (fun x t ⟨drives, takes, get⟩ => ?_) _ _
      ⟨.of_same rfl rfl rfl, rfl, fun _ _ _ => rfl⟩
    obtain ⟨-, store, regs⟩ := t.abortPunchOut_keeps x
    refine ⟨drives.trans (early x t), ?_, fun f lo out => ?_⟩
    · rw [State.post_store, store, takes]
    · rw [State.get_post _ _ _ _ _ lo out, State.get_of_regs regs, get f lo out]
  obtain ⟨drives, takes, get⟩ := kept
  refine ⟨drives.trans (.countTracks v), takes, fun f lo out off => ?_⟩
  have apart (l w : Nat) (small : l < 32) : f.key ≠ (⟨0x11010, l, w⟩ : Fld).key := by
    unfold Fld.key
    dsimp only
    omega
  exact (State.get_put_ne _ (apart 16 11 (by decide)) _).trans ((State.get_put_ne _ (apart 0 11 (by decide)) _).trans (get f lo out))

theorem closedEarly_open (l : List Take) : ∀ k ∈ closedEarly l, k.open_ = false := by
  intro k mem
  obtain ⟨x, -, rfl⟩ := List.mem_map.1 mem
  split
  · rfl
  · next shut => exact Bool.eq_false_iff.2 shut

/-! ### A member is lost (R684) -/

/-- A lost member in the takes, and in the registers. -/
def Take.missMember (m : Nat) (t : Take) : Take :=
  if t.members.contains m && decide (0 < t.uses m) then { t with incomplete := true } else t
def State.showLost (s : State) (m : Nat) : State :=
  ((s.put Reg.STORE_STATUS_STATE 2).setMask Reg.STORE_MEMBERS_LOST m).clrMask Reg.STORE_MEMBERS_PRESENT m

theorem State.memberLost_eq (s : State) (drive m : Nat) : ∃ b, s.memberLost drive m =
    ((((s.closeTakes.modStore fun x => { x with takes := x.takes.map (Take.missMember m) }).showLost m).putBit
      Reg.STORE_STATUS_ONE_JOURNAL b).showFree).postNow .fault none 0x0152 [drive, 2] := ⟨_, rfl⟩

theorem lost_apart : (∀ g ∈ [Reg.STORE_STATUS_STATE, Reg.STORE_MEMBERS_PRESENT], g.lo < 32 ∧ g.outsideHost ∧ g.off ≠ 0x11010 ∧
    g.key ≠ Reg.STORE_FREE_EXTENTS.key ∧ g.key ≠ Reg.STORE_STATUS_ONE_JOURNAL.key ∧ g.key ≠ Reg.STORE_MEMBERS_LOST.key) ∧
    Reg.STORE_STATUS_STATE.key ≠ Reg.STORE_MEMBERS_PRESENT.key ∧ Reg.STORE_MEMBERS_PRESENT.key ≠ Reg.STORE_STATUS_STATE.key := by decide

theorem Take.missMember_open (m : Nat) (t : Take) : (t.missMember m).open_ = t.open_ := by
  unfold Take.missMember
  split <;> rfl

theorem State.memberLost_shows (s : State) (drive m : Nat) :
    let t := s.memberLost drive m
    KeepsDrives s t ∧ t.present m = false ∧ t.get Reg.STORE_STATUS_STATE = 2 ∧ (∀ k ∈ t.store.takes, k.open_ = false) ∧
      ∀ j, j ≠ m → j < 8 → t.present j = s.present j := by
  obtain ⟨b, eq⟩ := s.memberLost_eq drive m
  obtain ⟨drives, takes, get⟩ := s.closeTakes_keeps
  obtain ⟨within, state, present⟩ := lost_apart
  rw [eq]
  generalize closed : (s.closeTakes.modStore fun x => { x with takes := x.takes.map (Take.missMember m) }) = v
  have same : v.regs = s.closeTakes.regs ∧ v.units = s.closeTakes.units ∧ v.store.drives = s.closeTakes.store.drives ∧
      v.store.takes = s.closeTakes.store.takes.map (Take.missMember m) := by rw [← closed]; exact ⟨rfl, rfl, rfl, rfl⟩
  obtain ⟨regs, units, seen, missed⟩ := same
  have after (f : Fld) (mem : f ∈ [Reg.STORE_STATUS_STATE, Reg.STORE_MEMBERS_PRESENT]) :
      ((((v.showLost m).putBit Reg.STORE_STATUS_ONE_JOURNAL b).showFree).postNow .fault none 0x0152 [drive, 2]).get f =
        (v.showLost m).get f := by
    obtain ⟨lo, out, -, free, journal, -⟩ := within f mem
    rw [State.get_postNow _ _ _ _ _ _ lo out, State.showFree, State.get_put_ne _ free, State.putBit, State.get_put_ne _ journal]
  have shown : (v.showLost m).get Reg.STORE_STATUS_STATE = 2 := by
    rw [State.showLost, State.clrMask, State.get_put_ne _ state, State.setMask,
      State.get_put_ne _ (within _ (by simp)).2.2.2.2.2, State.get_put_same]
    rfl
  have old : ((v.put Reg.STORE_STATUS_STATE 2).setMask Reg.STORE_MEMBERS_LOST m).get Reg.STORE_MEMBERS_PRESENT =
      s.get Reg.STORE_MEMBERS_PRESENT := by
    obtain ⟨lo, out, off, -, -, lost⟩ := within Reg.STORE_MEMBERS_PRESENT (by simp)
    rw [State.setMask, State.get_put_ne _ lost, State.get_put_ne _ present, State.get_of_regs regs, get _ lo out off]
  refine ⟨?_, ?_, (after _ (by simp)).trans shown, ?_, fun j other inside => ?_⟩
  · refine drives.trans (.trans (.of_same units seen regs) (.trans ?_ (.host (.postNow ..))))
    refine .trans (.trans ?_ (.put (by decide) (by decide) _)) (.showFree _)
    exact .trans (.trans (.put (by decide) (by decide) _) (.put (by decide) (by decide) _)) (.put (by decide) (by decide) _)
  · rw [State.present, after _ (by simp)]
    exact State.testBit_clrMask ..
  · have kept : ((((v.showLost m).putBit Reg.STORE_STATUS_ONE_JOURNAL b).showFree).postNow .fault none 0x0152 [drive, 2]).store.takes =
        s.closeTakes.store.takes.map (Take.missMember m) := by
      rw [State.postNow_store]
      exact missed
    rw [kept, takes]
    intro k mem
    obtain ⟨x, own, rfl⟩ := List.mem_map.1 mem
    exact (Take.missMember_open m x).trans (closedEarly_open _ x own)
  · rw [State.present, after _ (by simp), State.present, ← old]
    exact State.testBit_clrMask_ne _ _ other inside

theorem exec_storeMemberLost (m : Fin 8) (s : State) : exec (.storeMemberLost m) s = .next
    (if s.storeOn = true ∧ s.present m = true then s.memberLost (s.driveOf m) m else s) := by
  show execStoreMemberLost m s = _
  unfold execStoreMemberLost
  exact congrArg _ (if_congr Bool.and_eq_true_iff rfl rfl)

/-! ### A member is back (R685) -/

/-- The mask of the members among some drives. -/
def memberMask (l : List (Nat × Drive)) : Nat := l.foldl (fun m e => Nat.lor m (2 ^ e.2.index)) 0

theorem testBit_memberMask {l : List (Nat × Drive)} {e : Nat × Drive} (mem : e ∈ l) : (memberMask l).testBit e.2.index = true := by
  obtain ⟨before, after, rfl⟩ := List.append_of_mem mem
  unfold memberMask
  rw [List.foldl_append, List.foldl_cons]
  refine List.foldlRecOn (motive := fun n : Nat => n.testBit e.2.index = true) after _ ?_ fun n set x _ => ?_
  · exact (Nat.testBit_or ..).trans (by rw [Nat.testBit_two_pow_self, Bool.or_true])
  · exact (Nat.testBit_or ..).trans (by rw [set, Bool.true_or])

/-- The drives of the mounted store. -/
def State.mine (s : State) : List (Nat × Drive) :=
  (s.store.drives.filterMap fun e => e.2.map fun d => (e.1, d)).filter fun e => e.2.store == s.store.store && s.store.store != 0

theorem present_apart : ∀ g ∈ [Reg.STORE_MEMBERS_COUNT, Reg.STORE_STATUS_STATE, Reg.STORE_STATUS_ONE_JOURNAL, Reg.STORE_FREE_EXTENTS],
    Reg.STORE_MEMBERS_PRESENT.key ≠ g.key := by decide

theorem State.showPlaces_present (s : State) (l : List (Nat × Drive)) (f : Nat × Drive → Bool) :
    (s.showPlaces l f).get Reg.STORE_MEMBERS_PRESENT = s.get Reg.STORE_MEMBERS_PRESENT := by
  have apart (n lo w : Nat) (small : lo < 32) : Reg.STORE_MEMBERS_PRESENT.key ≠ (⟨0x11100 + 0x10 * n, lo, w⟩ : Fld).key := by
    unfold Fld.key Reg.STORE_MEMBERS_PRESENT
    dsimp only
    omega
  unfold State.showPlaces
  refine State.each_keeps (fun t => t.get Reg.STORE_MEMBERS_PRESENT = s.get Reg.STORE_MEMBERS_PRESENT) _ (fun e t kept => ?_) s l rfl
  exact (State.get_put_ne _ (apart e.1 4 3 (by decide)) _).trans ((State.get_put_ne _ (apart e.1 1 1 (by decide)) _).trans kept)

theorem State.showMembers_present (s : State) : s.showMembers.get Reg.STORE_MEMBERS_PRESENT = memberMask s.mine % 2 ^ 8 := by
  have apart := present_apart
  unfold State.showMembers
  dsimp only
  rw [State.showFree, State.get_put_ne _ (apart _ (by simp)), State.putBit, State.get_put_ne _ (apart _ (by simp)),
    State.get_put_ne _ (apart _ (by simp))]
  refine (State.showPlaces_present _ _ _).trans ?_
  rw [State.get_put_ne _ (apart _ (by simp)), State.get_put_same]
  rfl

theorem State.recover_store (s : State) : s.recover.store.store = s.store.store := by
  rw [State.recover_eq]
  have kept (v : State) (l : List Take) : (v.each l fun t u => u.abortPunchOut t).store = v.store :=
    State.each_keeps (fun t => t.store = v.store) _ (fun x t same => ((t.abortPunchOut_keeps x).2.1).trans same) _ _ rfl
  dsimp only
  split
  · rw [State.set, State.put_store, kept]
    rfl
  · rw [kept]
    rfl

/-- Takes that now read whole. -/
def State.heal (s : State) : State := s.modStore fun x => { x with takes := x.takes.map fun t =>
  (if t.incomplete && !t.byLoss && t.members.all s.present then { t with incomplete := false } else t) }

theorem KeepsDrives.heal (s : State) : KeepsDrives s s.heal := .of_same rfl rfl rfl

theorem State.memberReturned_eq (s : State) (drive m : Nat) : ∃ n,
    s.memberReturned drive m = s.recover.showMembers.heal.postNow .fault none 0x0152 [drive, n] := ⟨_, rfl⟩

theorem KeepsDrives.memberReturned (s : State) (drive m : Nat) : KeepsDrives s (s.memberReturned drive m) := by
  obtain ⟨n, eq⟩ := s.memberReturned_eq drive m
  rw [eq]
  exact .trans (.trans (.trans (.recover s) (.showMembers _)) (.heal _)) (.host (.postNow ..))

theorem State.memberReturned_present (s : State) (drive : Nat) {m : Nat} (small : m < 8) (mounted : s.store.store ≠ 0)
    (back : ∃ e ∈ s.store.drives, ∃ d, e.2 = some d ∧ d.store = s.store.store ∧ d.index = m) :
    (s.memberReturned drive m).present m = true := by
  obtain ⟨e, mem, d, found, own, rfl⟩ := back
  obtain ⟨n, eq⟩ := s.memberReturned_eq drive d.index
  have listed : (e.1, d) ∈ s.recover.mine := by
    unfold State.mine
    rw [s.recover_store, (KeepsDrives.recover s).drives]
    exact List.mem_filter.2 ⟨List.mem_filterMap.2 ⟨e, mem, by rw [found]; rfl⟩, by simp [own, mounted]⟩
  rw [eq, State.present, State.get_postNow _ _ _ _ _ _ (by decide) (by decide)]
  show (s.recover.showMembers.get Reg.STORE_MEMBERS_PRESENT).testBit d.index = true
  rw [State.showMembers_present, Nat.testBit_mod_two_pow, decide_eq_true small, Bool.true_and]
  exact testBit_memberMask listed

theorem exec_storeMemberReturn (m : Fin 8) (s : State) : exec (.storeMemberReturn m) s = .next
    (if (s.storeOn && !s.present m.val && ((s.store.drives.filterMap (·.2)).any fun d =>
      d.store == s.store.store && d.index == m.val && d.keyOk)) = true then s.memberReturned (s.driveOf m.val) m.val else s) := by
  show execStoreMemberReturn m s = _
  unfold execStoreMemberReturn
  rfl

/-! ### Drives (R661, R663, R670) -/

theorem KeepsDrives.unwrapKeys (s : State) : KeepsDrives s s.unwrapKeys := by
  unfold State.unwrapKeys
  split <;> exact .of_same rfl rfl rfl

/-- The store of a drive is mounted, before what is written of it is recovered. -/
def State.adoptStore (s : State) (id : Nat) : State :=
  let s1 := s.modStore fun x =>
    if x.dirOf = id then { x with store := id } else { x with store := id, dirOf := id, takes := [], slots := [], journalAt := 0 }
  s1.modStore fun x => { x with takes := x.takes.filter fun t => t.no.isSome }

theorem KeepsDrives.adoptStore (s : State) (id : Nat) : KeepsDrives s (s.adoptStore id) := by
  refine .of_same rfl ?_ rfl
  unfold State.adoptStore State.modStore
  dsimp only
  split <;> rfl

theorem KeepsDrives.mount (s : State) : KeepsDrives s s.mount := by
  have unmounted (v : Nat) : KeepsDrives s ((s.put Reg.STORE_STATUS_STATE v).modStore fun x => { x with keys := none }) :=
    .trans (t := s.put Reg.STORE_STATUS_STATE v) (.put (by decide) (by decide) v) (.of_same rfl rfl rfl)
  have sent (v : State) (l : List (Nat × NvmeOp)) : KeepsDrives v (v.sendDrives l) := .of_same rfl rfl rfl
  have mounted (id : Nat) : KeepsDrives s (s.adoptStore id).unwrapKeys.recover.showMembers :=
    .trans (.trans (.trans (.adoptStore s id) (.unwrapKeys _)) (.recover _)) (.showMembers _)
  unfold State.mount
  dsimp only
  split
  · exact unmounted 0
  · next d _ _ => exact .ite (unmounted 3) ((mounted d.store).trans (sent _ _))

/-- The link to the drives, as it is seen with a change. -/
def State.showDriveLink (t : State) (d : DriveSeen) : State :=
  let up := t.store.drives.any (·.2.isSome) || d.present
  ((t.putBit Reg.STORE_STATUS_LINK_UP up).put Reg.STORE_STATUS_WIDTH d.width).put Reg.STORE_STATUS_SPEED d.speed

theorem KeepsDrives.showDriveLink (s : State) (d : DriveSeen) : KeepsDrives s (s.showDriveLink d) :=
  .trans (.trans (.put (by decide) (by decide) _) (.put (by decide) (by decide) _)) (.put (by decide) (by decide) _)

/-- A drive is noted, with the commands that enumerate it. -/
def State.noteDrive (s : State) (n : Nat) (d : DriveSeen) (x : Option Drive) : State := s.modStore fun y => { y with
  drives := Tab.put none y.drives n x, issued := if d.present then (enumerate d.usable).map fun c => (n, c) else [] }

/-- What an absent drive no longer shows. -/
def driveRegs (n : Nat) : List Fld := [Reg.STORE_DRV_STATUS_PRESENT n, Reg.STORE_DRV_STATUS_MEMBER n, Reg.STORE_DRV_STATUS_REFUSED n,
  Reg.STORE_DRV_STATUS_INDEX n, Reg.STORE_DRV_EXTENTS_COUNT n]

/-- A drive as its own registers show it. -/
def State.showDrive (s : State) (n : Nat) (extents : Nat) : State :=
  ((s.set (Reg.STORE_DRV_STATUS_PRESENT n)).put (Reg.STORE_DRV_STATUS_REFUSED n) 0).put (Reg.STORE_DRV_EXTENTS_COUNT n) extents

/-- The drive that is seen. -/
def seenDrive (d : DriveSeen) : Drive :=
  { store := d.store, index := d.index, keyOk := d.keyOk, serial := d.serial, extents := d.extents, count := d.count }

theorem exec_storeDriveChange_absent (n : Fin 8) {d : DriveSeen} (s : State) (absent : d.present = false) :
    ∃ t, exec (.storeDriveChange n d) s = .next t ∧ KeepsDrives ((s.noteDrive n d none).clear (driveRegs n)) t := by
  have link (v : State) := KeepsDrives.showDriveLink v d
  have lost (v : State) (m : Nat) := (v.memberLost_shows n m).1
  show ∃ t, execStoreDriveChange n d s = .next t ∧ _
  unfold execStoreDriveChange
  dsimp only
  refine ⟨_, if_pos (by rw [absent]; rfl), .trans ?_ (link _)⟩
  split
  · exact .ite (lost _ _) (.ite .refl (.mount _))
  · exact .refl

theorem exec_storeDriveChange_refused (n : Fin 8) {d : DriveSeen} (s : State) (present : d.present = true) (refused : d.usable = false) :
    ∃ t, exec (.storeDriveChange n d) s = .next t ∧
      KeepsDrives (((s.noteDrive n d none).set (Reg.STORE_DRV_STATUS_PRESENT n)).set (Reg.STORE_DRV_STATUS_REFUSED n)) t := by
  have link (v : State) := KeepsDrives.showDriveLink v d
  show ∃ t, execStoreDriveChange n d s = .next t ∧ _
  unfold execStoreDriveChange
  dsimp only
  refine ⟨_, (if_neg (by rw [present]; decide)).trans (if_pos (by rw [refused]; rfl)), .trans (link _) (.host (.postNow ..))⟩

theorem exec_storeDriveChange_used (n : Fin 8) {d : DriveSeen} (s : State) (present : d.present = true) (usable : d.usable = true) :
    ∃ t, exec (.storeDriveChange n d) s = .next t ∧ KeepsDrives ((s.noteDrive n d (some (seenDrive d))).showDrive n d.extents) t := by
  have link := KeepsDrives.showDriveLink ((s.noteDrive n d (some (seenDrive d))).showDrive n d.extents) d
  show ∃ t, execStoreDriveChange n d s = .next t ∧ _
  unfold execStoreDriveChange
  dsimp only
  have seen : ¬(!d.present) = true := by rw [present]; decide
  have good : ¬(!d.usable) = true := by rw [usable]; decide
  by_cases on : s.storeOn = true
  · exact ⟨_, (if_neg seen).trans ((if_neg good).trans (if_pos on)), link.trans (.ite (.memberReturned _ _ _) .refl)⟩
  · exact ⟨_, (if_neg seen).trans ((if_neg good).trans (if_neg on)),
      link.trans (.ite ((KeepsDrives.mount _).trans (.host (.postNow ..))) (.mount _))⟩

theorem driveRegs_within (n : Fin 8) : (∀ g ∈ [Reg.STORE_DRV_STATUS_PRESENT n, Reg.STORE_DRV_STATUS_REFUSED n,
      Reg.STORE_DRV_EXTENTS_COUNT n], g.lo < 32 ∧ 0x11100 ≤ g.off ∧ g.lo ≠ 1 ∧ g.lo ≠ 4) ∧
    (Reg.STORE_DRV_STATUS_PRESENT n).key ≠ (Reg.STORE_DRV_STATUS_REFUSED n).key ∧
    (Reg.STORE_DRV_STATUS_PRESENT n).key ≠ (Reg.STORE_DRV_EXTENTS_COUNT n).key ∧
    (Reg.STORE_DRV_STATUS_REFUSED n).key ≠ (Reg.STORE_DRV_EXTENTS_COUNT n).key := by decide +revert

theorem KeepsDrives.read {n : Fin 8} (h : KeepsDrives s t) {f : Fld} (mem : f ∈ [Reg.STORE_DRV_STATUS_PRESENT n,
    Reg.STORE_DRV_STATUS_REFUSED n, Reg.STORE_DRV_EXTENTS_COUNT n]) : t.get f = s.get f := by
  obtain ⟨lo, off, one, four⟩ := (driveRegs_within n).1 f mem
  exact h.get f lo off one four

theorem KeepsDrives.readBit {n : Fin 8} (h : KeepsDrives s t) {f : Fld} (mem : f ∈ [Reg.STORE_DRV_STATUS_PRESENT n,
    Reg.STORE_DRV_STATUS_REFUSED n, Reg.STORE_DRV_EXTENTS_COUNT n]) : t.bit f = s.bit f := by
  unfold State.bit
  rw [h.read mem]

theorem State.absentDrive_shows (s : State) (n : Fin 8) (d : DriveSeen) :
    let t := (s.noteDrive n d none).clear (driveRegs n)
    t.bit (Reg.STORE_DRV_STATUS_PRESENT n) = false ∧ Tab.get none t.store.drives n = none ∧ t.units = s.units := by
  have apart : ∀ g ∈ [Reg.STORE_DRV_STATUS_MEMBER n, Reg.STORE_DRV_STATUS_REFUSED n, Reg.STORE_DRV_STATUS_INDEX n,
      Reg.STORE_DRV_EXTENTS_COUNT n], (Reg.STORE_DRV_STATUS_PRESENT n).key ≠ g.key := by
    clear d s
    decide +revert
  refine ⟨?_, Tab.get_put_same none s.store.drives n none, rfl⟩
  show State.bit (State.clear _ [_, _, _, _]) _ = false
  have kept (v : State) : (v.clear [Reg.STORE_DRV_STATUS_MEMBER n, Reg.STORE_DRV_STATUS_REFUSED n, Reg.STORE_DRV_STATUS_INDEX n,
      Reg.STORE_DRV_EXTENTS_COUNT n]).bit (Reg.STORE_DRV_STATUS_PRESENT n) = v.bit (Reg.STORE_DRV_STATUS_PRESENT n) :=
    List.foldlRecOn (motive := fun t : State => t.bit (Reg.STORE_DRV_STATUS_PRESENT n) = v.bit (Reg.STORE_DRV_STATUS_PRESENT n)) _ _ rfl
      fun w same g mem => (State.bit_put_ne w (apart g mem) 0).trans same
  exact (kept _).trans (State.bit_put_same _ rfl 0)

theorem State.showDrive_shows (s : State) (n : Fin 8) (extents : Nat) :
    let t := s.showDrive n extents
    t.bit (Reg.STORE_DRV_STATUS_PRESENT n) = true ∧ t.bit (Reg.STORE_DRV_STATUS_REFUSED n) = false ∧
      t.get (Reg.STORE_DRV_EXTENTS_COUNT n) = extents % 2 ^ 32 := by
  obtain ⟨-, refused, count, apart⟩ := driveRegs_within n
  refine ⟨?_, ?_, State.get_put_same ..⟩
  · exact (State.bit_put_ne _ count _).trans ((State.bit_put_ne _ refused 0).trans (State.bit_set_same s rfl))
  · exact (State.bit_put_ne _ apart _).trans (State.bit_put_same _ rfl 0)

end Sys2Proof.Machine

namespace Sys2Proof.Machine

/-- Settles O40: a play is found by its command, and what the members and drives show is apart from what each change keeps. -/
theorem storePlayAndDrives : Obligations.StorePlayAndDrives := by
  unfold Obligations.StorePlayAndDrives
  refine ⟨?_, fun n s p found due => ?_, fun h n s p found bar => ⟨fun early waits => ?_, fun begun => ?_⟩,
    fun d n s p mem domain started ends => State.endPlays_shows mem domain started ends,
    fun c n s p => ⟨fun k found taken => exec_playbackChunkRead found taken, fun found => exec_playUnderrun found, rfl⟩,
    fun m s on => ⟨fun here => ?_, fun gone => ?_, fun gone mounted back => ?_⟩, fun n d s absent => ?_,
    fun n d s present => ⟨fun usable => ?_, fun refused => ?_⟩, fun n k s present used => exec_smartPoll k present used⟩
  · intro h no rec track off s k found bar on held output inside closed q free rate fit
    exact ⟨_, s.playRest h no rec track off k, exec_storePlay found bar on held output inside closed free rate fit, rfl, rfl, rfl, rfl,
      rfl, rfl, rfl, rfl, rfl, rfl, rfl, rfl, rfl⟩
  · exact ⟨_, (exec_playStart found).trans (if_pos due), List.mem_map.2 ⟨p, List.mem_of_find?_eq_some found, if_pos rfl⟩,
      .finish rfl .., rfl⟩
  · exact (exec_storeStop found bar).trans (congrArg _ (if_pos ⟨early, waits⟩))
  · obtain ⟨e, ends, eq⟩ := p.stopAt_ends h (s.applyAt p.domain h.target).2 (s.applyAt p.domain h.target).1
    exact ⟨_, e, (exec_storeStop found bar).trans (congrArg _ (if_neg begun)), rfl, rfl, rfl, ends,
      List.mem_map.2 ⟨p, List.mem_of_find?_eq_some found, (if_pos rfl).trans eq⟩⟩
  · obtain ⟨drives, lost, state, open_, others⟩ := s.memberLost_shows (s.driveOf m) m
    exact ⟨_, (exec_storeMemberLost m s).trans (congrArg _ (if_pos ⟨on, here⟩)), lost, state, open_, drives.units, others⟩
  · rw [exec_storeMemberLost, if_neg fun both => Bool.false_ne_true (gone.symm.trans both.2)]
  · obtain ⟨e, mem, d, found, own, index, key⟩ := back
    have due : (s.storeOn && !s.present m.val && ((s.store.drives.filterMap (·.2)).any fun d =>
        d.store == s.store.store && d.index == m.val && d.keyOk)) = true := by
      rw [on, gone, List.any_eq_true.2 ⟨d, List.mem_filterMap.2 ⟨e, mem, found⟩, by simp [own, index, key]⟩]
      rfl
    exact ⟨_, (exec_storeMemberReturn m s).trans (congrArg _ (if_pos due)),
      s.memberReturned_present _ m.isLt mounted ⟨e, mem, d, found, own, index⟩, (KeepsDrives.memberReturned s _ _).units⟩
  · obtain ⟨t, run, kept⟩ := exec_storeDriveChange_absent n s absent
    obtain ⟨shown, drives, units⟩ := s.absentDrive_shows n d
    exact ⟨t, run, (kept.readBit (n := n) (by simp)).trans shown, by rw [kept.drives]; exact drives, kept.units.trans units⟩
  · obtain ⟨t, run, kept⟩ := exec_storeDriveChange_used n s present usable
    obtain ⟨shown, used, count⟩ := (s.noteDrive n d (some (seenDrive d))).showDrive_shows n d.extents
    refine ⟨t, seenDrive d, run, (kept.readBit (n := n) (by simp)).trans shown, (kept.readBit (n := n) (by simp)).trans used,
      (kept.read (n := n) (by simp)).trans count, ?_, rfl, rfl, kept.units⟩
    rw [kept.drives]
    exact Tab.get_put_same none s.store.drives n (some (seenDrive d))
  · obtain ⟨t, run, kept⟩ := exec_storeDriveChange_refused n s present refused
    refine ⟨t, run, (kept.readBit (n := n) (by simp)).trans (State.bit_set_same _ rfl), ?_, kept.units⟩
    rw [kept.drives]
    exact Tab.get_put_same none s.store.drives n none

end Sys2Proof.Machine
end

