-- ==== Sys2Proof/Proofs/TrustCommands.lean ====
section
/-! PROOF. Trust commands queue behind an object; claims, attestation and challenges complete; objects wait for their buffers
(R725, R729, R733–R735, R748–R750, R755). -/

namespace Sys2Proof.Machine

variable {s t u : State}

/-- A command finishes where no other has since. -/
theorem Completed.of_done (done : t.host.done = s.host.done) (h : CmdHdr) (op : Nat) (st : Status) (detail si result : Nat) :
    Completed s (t.finish h op st detail si result) h op st detail si result := by
  rw [Completed, ← done]
  rfl

/-! ### The queue (R749) -/

theorem State.modTrust_emptied (none : s.trust.queue = []) : (s.modTrust fun t => { t with queue := [] }) = s := by
  have same : ({ s.trust with queue := [] } : TrustSt) = s.trust := by rw [← none]
  show ({ s with trust := { s.trust with queue := [] } } : State) = s
  rw [same]

/-- With no command waiting a ready one is executed at once. -/
theorem State.addJob_runs (none : s.trust.queue = []) (h : CmdHdr) {j : TrustJob} (ready : jobReady j = true) :
    s.addJob h j = s.runJob h j := by
  have queue : (s.modTrust fun t => { t with queue := t.queue ++ [(h, j)] }).trust.queue = [(h, j)] :=
    congrArg (· ++ [(h, j)]) none
  unfold State.addJob State.drainTrust
  rw [queue]
  show State.runTrust _ 1 = _
  rw [State.runTrust]
  split
  · next empty => exact absurd (queue.symm.trans empty) nofun
  · next g k rest eq =>
    obtain ⟨first, rfl⟩ := List.cons.inj (queue.symm.trans eq)
    obtain ⟨rfl, rfl⟩ := Prod.mk.inj first
    rw [if_pos ready, State.runTrust]
    exact congrArg (State.runJob · h j) (State.modTrust_emptied none)

/-- Behind a command that waits for its object a command waits too. -/
theorem State.addJob_waits {g : CmdHdr} {k : Nat} {q : List (CmdHdr × TrustJob)} (waits : s.trust.queue = (g, .object k none) :: q)
    (h : CmdHdr) (j : TrustJob) : s.addJob h j = s.modTrust fun x => { x with queue := x.queue ++ [(h, j)] } := by
  have queue : (s.modTrust fun t => { t with queue := t.queue ++ [(h, j)] }).trust.queue = (g, .object k none) :: (q ++ [(h, j)]) :=
    congrArg (· ++ [(h, j)]) waits
  unfold State.addJob State.drainTrust
  rw [queue, List.length_cons, State.runTrust]
  split
  · rfl
  · next g' k' rest eq =>
    obtain ⟨first, -⟩ := List.cons.inj (queue.symm.trans eq)
    obtain ⟨rfl, rfl⟩ := Prod.mk.inj first
    exact if_neg Bool.false_ne_true

theorem exec_trustClaim {h : CmdHdr} {code : BitVec 64} {a owner : Nat} {b : Bool} (active : s.standby = false)
    (window : s.windowOk a 192 false = true) :
    exec (.trustClaim h code a owner b) s = .next (s.addJob h (.claim code owner b)) := by
  show execTrustClaim h code a owner b s = _
  unfold execTrustClaim
  rw [active, window]
  rfl

theorem exec_trustDebugChallenge {h : CmdHdr} (active : s.standby = false) :
    exec (.trustDebugChallenge h) s = .next (s.addJob h .challenge) := by
  show execTrustDebugChallenge h s = _
  unfold execTrustDebugChallenge
  rw [active]
  rfl

/-! ### Attestation, certificates and challenges (R726, R750, R755) -/

/-- What the host finds of a report, as the statement says it. -/
theorem Reported.sent {a op : Nat} {h : CmdHdr} {bs : List Byte} (r : Reported s t a bs ⟨h, op, .ok, 0, 0, 0, false⟩) :
    t.regs = s.regs ∧ t.units = s.units ∧
      (s.host.reports = [] → bs.length ≤ s.restRoom →
        Completed s t h op .ok 0 0 0 ∧ t.hostMem = Memory.writeBytes s.hostMem a bs ∧ t.host.reports = []) ∧
      (¬(s.host.reports = [] ∧ bs.length ≤ s.restRoom) → t.hostMem = s.hostMem ∧
        t.host.reports = s.host.reports ++ [⟨a, bs, some ⟨h, op, .ok, 0, 0, 0, false⟩⟩]) :=
  ⟨r.regs, r.units, r.written, r.waits⟩

theorem State.attest_reports {h : CmdHdr} {a : Nat} (nonce : BitVec 256) (made : s.get Reg.TRUST_STATE_LCS ≠ 0)
    (kept : s.get Reg.TRUST_STATE_LCS ≠ 5) (window : s.windowOk a 576 true = true) :
    Reported s (s.attest h a nonce) a (s.statement nonce ++ s.openBytes 96) ⟨h, 0x0900, .ok, 0, 0, 0, false⟩ := by
  unfold State.attest
  rw [window, if_neg fun either => either.elim made kept, if_neg (by decide)]
  exact (State.report_reports _ a _ _).after_draw

theorem State.cert_reports {h : CmdHdr} {a : Nat} (window : s.windowOk a 4096 true = true) :
    Reported s (s.cert h a) a (s.trust.chain.take 4096) ⟨h, 0x0907, .ok, 0, 0, 0, false⟩ := by
  unfold State.cert
  rw [window, if_neg (by decide)]
  exact State.report_reports ..

theorem State.newChallenge_shows (h : CmdHdr) (debug : s.debugState = true) : ∃ c,
    Completed s (s.newChallenge h) h 0x0908 .ok 0 0 c ∧ (s.newChallenge h).trust.challenge = some c ∧
      (s.newChallenge h).regs = s.regs ∧ (s.newChallenge h).units = s.units := by
  unfold State.newChallenge
  rw [debug, if_neg (by decide)]
  exact ⟨_, .finish rfl .., rfl, rfl, rfl⟩

/-! ### TRUST_CLAIM (R733–R735) -/

/-- The waits of a claim are over. -/
theorem State.claim_due {h : CmdHdr} {code : BitVec 64} {owner : Nat} {b : Bool} (unclaimed : s.get Reg.TRUST_STATE_LCS = 2)
    (first : s.trust.since + 5 * (s.dom 0).rate ≤ s.now) (waited : s.trust.waitTo ≤ s.now) : s.claim h code owner b =
      if codeOf code ≠ s.trust.claimCode then
        let s1 := s.bump Reg.TRUST_CLAIM_CNT_FAILS
        let n := s1.get Reg.TRUST_CLAIM_CNT_FAILS
        let s2 := ((s1.set Reg.TRUST_STATE_CLAIM_WAIT).put Reg.TRUST_CLAIM_CNT_WAIT (claimWait n)).modTrust fun t =>
          { t with waitTo := s.now + claimWait n * (s.dom 0).rate }
        (s2.postNow .trust (some 62) 0x171 [n, claimWait n]).refuse h 0x0901 .refused 0 0
      else if !b then s.refuse h 0x0901 .badSignature 0 0
      else
        let s1 := (((s.setOwner owner).put Reg.TRUST_STATE_LCS 3).put Reg.TRUST_CLAIM_CNT_FAILS 0).modTrust fun t =>
          { t with policy := none, policyNext := none, membersNext := none }
        let s2 : State := { s1 with wl := { s1.wl with members := [] } }
        ((s2.showPolicy {}).trustState 2 3).ok h 0x0901 := by
  unfold State.claim
  dsimp only
  rw [if_neg fun other => other unclaimed, if_neg fun either => either.elim (Nat.not_lt.2 first) (Nat.not_lt.2 waited)]

/-- A failed claim, before its event. -/
def State.failClaim (s : State) : State :=
  let s1 := s.bump Reg.TRUST_CLAIM_CNT_FAILS
  ((s1.set Reg.TRUST_STATE_CLAIM_WAIT).put Reg.TRUST_CLAIM_CNT_WAIT (claimWait (s1.get Reg.TRUST_CLAIM_CNT_FAILS))).modTrust fun t =>
    { t with waitTo := s.now + claimWait (s1.get Reg.TRUST_CLAIM_CNT_FAILS) * (s.dom 0).rate }

theorem claim_apart : (∀ g ∈ [Reg.TRUST_STATE_CLAIM_WAIT, Reg.TRUST_CLAIM_CNT_WAIT], Reg.TRUST_STATE_LCS.key ≠ g.key ∧
    Reg.TRUST_CLAIM_CNT_FAILS.key ≠ g.key) ∧ Reg.TRUST_STATE_LCS.key ≠ Reg.TRUST_CLAIM_CNT_FAILS.key := by decide

theorem State.failClaim_get (s : State) {f : Fld} (own : f = Reg.TRUST_STATE_LCS ∨ f = Reg.TRUST_CLAIM_CNT_FAILS) :
    s.failClaim.get f = (s.bump Reg.TRUST_CLAIM_CNT_FAILS).get f := by
  obtain ⟨apart, -⟩ := claim_apart
  have other (g : Fld) (mem : g ∈ [Reg.TRUST_STATE_CLAIM_WAIT, Reg.TRUST_CLAIM_CNT_WAIT]) : f.key ≠ g.key := by
    rcases own with rfl | rfl
    · exact (apart g mem).1
    · exact (apart g mem).2
  exact (State.get_put_ne _ (other _ (by simp)) _).trans (State.get_put_ne _ (other _ (by simp)) _)

theorem State.claim_fails {h : CmdHdr} {code : BitVec 64} {owner : Nat} {b : Bool} (unclaimed : s.get Reg.TRUST_STATE_LCS = 2)
    (first : s.trust.since + 5 * (s.dom 0).rate ≤ s.now) (waited : s.trust.waitTo ≤ s.now)
    (wrong : codeOf code ≠ s.trust.claimCode) : let t := s.claim h code owner b
    Completed s t h 0x0901 .refused 0 0 0 ∧ t.get Reg.TRUST_STATE_LCS = 2 ∧ t.trust.owner = s.trust.owner ∧
      t.get Reg.TRUST_CLAIM_CNT_FAILS = min (s.get Reg.TRUST_CLAIM_CNT_FAILS + 1) 255 ∧
      t.trust.waitTo = s.now + claimWait (t.get Reg.TRUST_CLAIM_CNT_FAILS) * (s.dom 0).rate ∧ t.units = s.units := by
  have eq : s.claim h code owner b = (s.failClaim.postNow .trust (some 62) 0x171 [(s.bump Reg.TRUST_CLAIM_CNT_FAILS).get
      Reg.TRUST_CLAIM_CNT_FAILS, claimWait ((s.bump Reg.TRUST_CLAIM_CNT_FAILS).get Reg.TRUST_CLAIM_CNT_FAILS)]).refuse h 0x0901
      .refused 0 0 := (State.claim_due unclaimed first waited).trans (if_pos wrong)
  rw [eq]
  generalize [(s.bump Reg.TRUST_CLAIM_CNT_FAILS).get Reg.TRUST_CLAIM_CNT_FAILS, _] = body
  have same := SameButHost.postNow s.failClaim .trust (some 62) 0x171 body
  have done : (s.failClaim.postNow .trust (some 62) 0x171 body).host.done = s.host.done :=
    (SameButEvents.postNow s.failClaim .trust (some 62) 0x171 body).done
  have count : (s.failClaim.postNow .trust (some 62) 0x171 body).get Reg.TRUST_CLAIM_CNT_FAILS =
      (s.bump Reg.TRUST_CLAIM_CNT_FAILS).get Reg.TRUST_CLAIM_CNT_FAILS :=
    (same.get _ (by decide) (by decide)).trans (s.failClaim_get (.inr rfl))
  refine ⟨.of_done done .., ?_, (congrArg TrustSt.owner same.trust :), ?_, ?_, same.units⟩
  · refine (same.get _ (by decide) (by decide)).trans ((s.failClaim_get (.inl rfl)).trans ?_)
    rw [State.get_bump_ne _ claim_apart.2, unclaimed]
  · exact count.trans (State.get_bump_same ..)
  · refine (congrArg TrustSt.waitTo same.trust).trans ?_
    show _ = s.now + claimWait ((s.failClaim.postNow .trust (some 62) 0x171 body).get Reg.TRUST_CLAIM_CNT_FAILS) * _
    rw [count]
    rfl

/-- What shows the keys and the policy of an owner is registers apart from the life cycle's state. -/
structure ShowsTrust (s t : State) : Prop where
  units : t.units = s.units
  host : t.host = s.host
  trust : t.trust = s.trust
  members : t.wl.members = s.wl.members
  state : t.get Reg.TRUST_STATE_LCS = s.get Reg.TRUST_STATE_LCS

theorem ShowsTrust.showDigest (s : State) {f : Nat → Fld} (apart : ∀ k < 12, Reg.TRUST_STATE_LCS.key ≠ (f k).key) (v : Nat) :
    ShowsTrust s (s.showDigest f v) := by
  unfold State.showDigest
  exact State.each_keeps_mem (ShowsTrust s) _ s _ (fun k mem t kept => ⟨kept.units, kept.host, kept.trust, kept.members,
    (State.get_put_ne t (apart k (List.mem_range.1 mem)) _).trans kept.state⟩) ⟨rfl, rfl, rfl, rfl, rfl⟩

theorem policyRegs_apart (p : Policy) : ∀ e ∈ policyRegs p, Reg.TRUST_STATE_LCS.key ≠ e.1.key := by
  have fixed : ∀ f ∈ (policyRegs {}).map Prod.fst, Reg.TRUST_STATE_LCS.key ≠ f.key := by decide
  intro e mem
  have named : e.1 ∈ (policyRegs p).map Prod.fst := List.mem_map_of_mem mem
  exact fixed e.1 named

theorem ShowsTrust.showPolicy (s : State) (p : Policy) : ShowsTrust s (s.showPolicy p) := by
  unfold State.showPolicy
  exact State.each_keeps_mem (ShowsTrust s) _ s _ (fun e mem t kept => ⟨kept.units, kept.host, kept.trust, kept.members,
    (State.get_put_ne t (policyRegs_apart p e mem) _).trans kept.state⟩) ⟨rfl, rfl, rfl, rfl, rfl⟩

theorem digest_apart : ∀ k < 12, Reg.TRUST_STATE_LCS.key ≠ (Reg.TRUST_OWNER_DIGEST_BYTES k).key ∧
    Reg.TRUST_STATE_LCS.key ≠ (Reg.TRUST_ID_DIGEST_BYTES k).key := by decide

/-- A claimed engine, before its policy shows. -/
def State.takeOwner (s : State) (owner : Nat) : State :=
  let s1 := (((s.setOwner owner).put Reg.TRUST_STATE_LCS 3).put Reg.TRUST_CLAIM_CNT_FAILS 0).modTrust fun t =>
    { t with policy := none, policyNext := none, membersNext := none }
  { s1 with wl := { s1.wl with members := [] } }

theorem State.takeOwner_shows (s : State) (owner : Nat) : let t := s.takeOwner owner
    t.units = s.units ∧ t.host = s.host ∧ t.get Reg.TRUST_STATE_LCS = 3 ∧ t.trust.owner = owner ∧ t.trust.policy = none ∧
      t.trust.policyNext = none ∧ t.trust.membersNext = none ∧ t.wl.members = [] := by
  have shown := ShowsTrust.showDigest (s.modTrust fun t => { t with owner := owner }) (fun k small => (digest_apart k small).1) owner
  unfold State.takeOwner State.setOwner
  generalize State.showDigest _ _ _ = v at shown
  exact ⟨shown.units, shown.host, (State.get_put_ne _ claim_apart.2 0).trans (State.get_put_same ..),
    (congrArg TrustSt.owner shown.trust :), rfl, rfl, rfl, rfl⟩

theorem State.claim_succeeds {h : CmdHdr} {code : BitVec 64} {owner : Nat} (unclaimed : s.get Reg.TRUST_STATE_LCS = 2)
    (first : s.trust.since + 5 * (s.dom 0).rate ≤ s.now) (waited : s.trust.waitTo ≤ s.now) (right : codeOf code = s.trust.claimCode) :
    let t := s.claim h code owner true
    Completed s t h 0x0901 .ok 0 0 0 ∧ t.get Reg.TRUST_STATE_LCS = 3 ∧ t.trust.owner = owner ∧ t.trust.policy = none ∧
      t.trust.policyNext = none ∧ t.trust.membersNext = none ∧ t.wl.members = [] ∧ t.units = s.units := by
  have eq : s.claim h code owner true = (((s.takeOwner owner).showPolicy {}).trustState 2 3).ok h 0x0901 :=
    (State.claim_due unclaimed first waited).trans ((if_neg fun wrong => wrong right).trans (if_neg (by decide)))
  obtain ⟨units, host, state, own, policy, policyNext, membersNext, members⟩ := s.takeOwner_shows owner
  have shown := ShowsTrust.showPolicy (s.takeOwner owner) {}
  rw [eq]
  generalize (s.takeOwner owner).showPolicy {} = v at shown
  have same : SameButHost v (v.trustState 2 3) := .postNow ..
  have done : (v.trustState 2 3).host.done = s.host.done :=
    (SameButEvents.postNow v .trust (some 61) 0x170 [2, 3]).done.trans ((congrArg HostSt.done shown.host).trans (congrArg HostSt.done host))
  have trust : (v.trustState 2 3).trust = (s.takeOwner owner).trust := same.trust.trans shown.trust
  refine ⟨.of_done done .., (same.get _ (by decide) (by decide)).trans (shown.state.trans state),
    (congrArg TrustSt.owner trust).trans own, (congrArg TrustSt.policy trust).trans policy,
    (congrArg TrustSt.policyNext trust).trans policyNext, (congrArg TrustSt.membersNext trust).trans membersNext, ?_,
    same.units.trans (shown.units.trans units)⟩
  exact (congrArg WlSt.members same.wl).trans (shown.members.trans members)

/-! ### Objects (R748, R749) -/

theorem State.awaitObject_begins {h : CmdHdr} {kind ring n : Nat} (active : s.standby = false) (bulk : ring ≤ 3) (some : 64 ≤ n)
    (fits : n ≤ 2 ^ 24) (op : 0x0700 ≤ objectOp kind) : s.awaitObject h kind ring n = (s.modHost fun x =>
      { x with transfers := x.transfers ++ [⟨h, objectOp kind, kind, ring, 0, n, 0⟩] }).modTrust fun x =>
      { x with queue := x.queue ++ [(h, .object kind none)] } := by
  have image : s.awaitImage h (objectOp kind) kind ring 0 n true = s.modHost fun x =>
      { x with transfers := x.transfers ++ [⟨h, objectOp kind, kind, ring, 0, n, 0⟩] } := by
    unfold State.awaitImage
    rw [if_neg (by decide), if_neg (by omega), if_neg (by decide), if_neg (by omega), if_neg fun both => absurd both.1 (Nat.not_lt.2 op)]
  unfold State.awaitObject
  dsimp only
  rw [active, if_neg (by decide), image, if_neg]
  show ¬(s.host.transfers ++ [_]).length = _
  rw [List.length_append, List.length_singleton]
  omega

theorem State.awaitObject_refuses {h : CmdHdr} {kind ring n : Nat} (active : s.standby = false) (bulk : ring ≤ 3) (long : 2 ^ 24 < n) :
    s.awaitObject h kind ring n = s.finish h (objectOp kind) .refused 20 0 0 := by
  have image : s.awaitImage h (objectOp kind) kind ring 0 n true = s.refuse h (objectOp kind) .refused 20 0 := by
    unfold State.awaitImage
    rw [if_neg (by decide), if_neg (by omega), if_neg (by decide), if_pos (.inr long)]
  unfold State.awaitObject
  dsimp only
  rw [active, if_neg (by decide), image]
  exact if_pos rfl

/-- A command that waits for an object of at most `limit` bytes. -/
theorem awaits_object {h : CmdHdr} {ring n limit kind op : Nat} {i : Instr} (active : s.standby = false) (bulk : ring ≤ 3) (some : 64 ≤ n)
    (named : objectOp kind = op) (high : 0x0700 ≤ op) (small : limit ≤ 2 ^ 24)
    (run : exec i s = .next (if limit < n then s.refuse h op .refused 20 0 else s.awaitObject h kind ring n)) :
    (n ≤ limit → exec i s = .next ((s.modHost fun x => { x with transfers := x.transfers ++ [⟨h, op, kind, ring, 0, n, 0⟩] }).modTrust
      fun x => { x with queue := x.queue ++ [(h, .object kind none)] })) ∧
    (limit < n → exec i s = .next (s.finish h op .refused 20 0 0)) := by
  subst named
  refine ⟨fun fits => run.trans (congrArg _ ((if_neg (Nat.not_lt.2 fits)).trans ?_)), fun long => run.trans (congrArg _ (if_pos long))⟩
  exact State.awaitObject_begins active bulk some (fits.trans small) high

/-- The commands whose objects have no limit of their own. -/
theorem State.awaitObject_bulk (s : State) (h : CmdHdr) {kind ring : Nat} (n : Nat) (active : s.standby = false) (bulk : ring ≤ 3) :
    s.awaitObject h kind ring n = if 2 ^ 24 < n then s.refuse h (objectOp kind) .refused 20 0 else s.awaitObject h kind ring n := by
  split
  · next long => exact State.awaitObject_refuses active bulk long
  · rfl

/-! ### A made engine (R725, R729) -/

/-- The identity area that a blank engine gets, once its key shows. -/
def State.nameEngine (v : State) (serial macs : List Nat) (code : BitVec 64) (chain : List Byte) : State :=
  ((v.modTrust fun t => { t with
    serial := serial.take 4, macs := macs.take 3, claimCode := codeOf code, chain := chain.take 4096 }).put
      Reg.TRUST_STATE_LCS 1).trustState 0 1

theorem exec_blankToManufactured (serial macs : List Nat) (code : BitVec 64) (chain : List Byte) (s : State) :
    exec (.blankToManufactured serial macs code chain) s = if s.get Reg.TRUST_STATE_LCS ≠ 0 then .next s else
      .next ((State.setIdentity { s with ctr := s.ctr + 6 } (max 1 (bytesToNat (s.openBytes 48)))).nameEngine serial macs code chain) :=
  rfl

theorem State.setIdentity_keeps (s : State) (v : Nat) : (s.setIdentity v).trust.identity = v ∧ (s.setIdentity v).units = s.units := by
  have shown := ShowsTrust.showDigest (s.modTrust fun t => { t with identity := v }) (fun k small => (digest_apart k small).2) v
  exact ⟨(congrArg TrustSt.identity shown.trust :), shown.units⟩

theorem State.nameEngine_shows (v : State) (serial macs : List Nat) (code : BitVec 64) (chain : List Byte) :
    let t := v.nameEngine serial macs code chain
    t.get Reg.TRUST_STATE_LCS = 1 ∧ t.trust.identity = v.trust.identity ∧ t.trust.serial = serial.take 4 ∧ t.trust.macs = macs.take 3 ∧
      t.trust.claimCode = codeOf code ∧ t.trust.chain = chain.take 4096 ∧ t.units = v.units := by
  have same (w : State) : SameButHost w (w.trustState 0 1) := .postNow ..
  unfold State.nameEngine
  dsimp only
  rw [(same _).trust, (same _).units, State.put_trust, State.put_units]
  dsimp only [State.modTrust]
  exact ⟨((same _).get _ (by decide) (by decide)).trans (State.get_put_same ..), rfl, rfl, rfl, rfl, rfl, rfl⟩

theorem exec_trustAttest (h : CmdHdr) (nonce : BitVec 256) (a : Nat) (s : State) :
    exec (.trustAttest h nonce a) s = .next (s.addJob h (.attest a nonce)) := rfl
theorem exec_trustCert (h : CmdHdr) (a : Nat) (s : State) : exec (.trustCert h a) s = .next (s.addJob h (.cert a)) := rfl

theorem exec_trustCommandTimeout {n k : Nat} {h : CmdHdr} {x : ImageData × StartFacts}
    (arrived : s.trust.queue[n]? = some (h, .object k (some x))) : exec (.trustCommandTimeout n) s =
      .next ((s.modTrust fun y => { y with queue := y.queue.eraseIdx n }).finish h (objectOp k) .aborted 0 0 0) := by
  show execTrustCommandTimeout n s = _
  unfold execTrustCommandTimeout
  rw [arrived]

end Sys2Proof.Machine

namespace Sys2Proof.Machine

/-- Settles O37: a job at the head of the queue is executed at once unless it waits for its object, and then nothing passes it. -/
theorem trustCommands : Obligations.TrustCommands := by
  unfold Obligations.TrustCommands
  refine ⟨fun h nonce a s none => ⟨fun made kept window => ?_, fun window => ?_, fun active debug => ?_⟩,
    fun h code a owner s none active window unclaimed first waited => ⟨fun right => ?_, fun wrong b => ?_⟩,
    fun h g nonce code a k owner b s q waits active window => ⟨congrArg _ (State.addJob_waits waits ..),
      (exec_trustClaim active window).trans (congrArg _ (State.addJob_waits waits ..)), congrArg _ (State.addJob_waits waits ..),
      (exec_trustDebugChallenge active).trans (congrArg _ (State.addJob_waits waits ..))⟩,
    fun h ring n s active bulk some => ?_, fun n k h x s arrived => exec_trustCommandTimeout arrived,
    fun serial macs code chain s => ⟨fun blank => ?_, fun made => ?_⟩⟩
  · exact ⟨_, (exec_trustAttest h nonce a s).trans (congrArg _ (State.addJob_runs none h rfl)),
      (State.attest_reports nonce made kept window).sent⟩
  · exact ⟨_, (exec_trustCert h a s).trans (congrArg _ (State.addJob_runs none h rfl)), (State.cert_reports window).sent⟩
  · obtain ⟨c, shows⟩ := State.newChallenge_shows h debug
    exact ⟨_, c, (exec_trustDebugChallenge active).trans (congrArg _ (State.addJob_runs none h rfl)), shows⟩
  · exact ⟨_, (exec_trustClaim active window).trans (congrArg _ (State.addJob_runs none h rfl)),
      State.claim_succeeds unclaimed first waited right⟩
  · exact ⟨_, (exec_trustClaim active window).trans (congrArg _ (State.addJob_runs none h rfl)),
      State.claim_fails unclaimed first waited wrong⟩
  · simp only [List.forall_mem_cons]
    exact ⟨awaits_object active bulk some rfl (by decide) (by decide) (congrArg _ (s.awaitObject_bulk h n active bulk)),
      awaits_object active bulk some rfl (by decide) (by decide) rfl,
      awaits_object active bulk some rfl (by decide) (by decide) (congrArg _ (s.awaitObject_bulk h n active bulk)),
      awaits_object active bulk some rfl (by decide) (by decide) rfl, awaits_object active bulk some rfl (by decide) (by decide) rfl,
      awaits_object active bulk some rfl (by decide) (by decide) (congrArg _ (s.awaitObject_bulk h n active bulk)), by simp⟩
  · obtain ⟨identity, units⟩ := State.setIdentity_keeps { s with ctr := s.ctr + 6 } (max 1 (bytesToNat (s.openBytes 48)))
    obtain ⟨state, named, rest⟩ := State.nameEngine_shows
      (State.setIdentity { s with ctr := s.ctr + 6 } (max 1 (bytesToNat (s.openBytes 48)))) serial macs code chain
    have positive : max 1 (bytesToNat (s.openBytes 48)) ≠ 0 := Nat.one_le_iff_ne_zero.1 (Nat.le_max_left ..)
    obtain ⟨words, ports, claim, cert, kept⟩ := rest
    refine ⟨_, (exec_blankToManufactured serial macs code chain s).trans (if_neg fun other => other blank), state, ?_, words, ports,
      claim, cert, kept.trans units⟩
    rw [named, identity]
    exact positive
  · exact (exec_blankToManufactured serial macs code chain s).trans (if_pos made)

end Sys2Proof.Machine
end

