-- ==== Sys2Proof/Proofs/StandbyRamps.lean ====
section
/-! SUPPORT. The ramps of an accepted STANDBY (R702): what begins them, and the state that they leave standing. -/

namespace Sys2Proof.Machine
variable {s t u : State}

theorem State.ifHost_up (up : s.hostUp = true) (o : Out) : s.ifHost o = o := by rw [State.ifHost, up, if_pos rfl]

/-- The configured domains that run, whose outputs are ramped. -/
def State.rampedDomains (s : State) : List Nat := (List.range 3).filter fun d => (s.dom d).configured && (s.dom d).running

theorem State.mem_rampedDomains {d : Nat} : d ∈ s.rampedDomains ↔ d < 3 ∧ (s.dom d).configured = true ∧ (s.dom d).running = true := by
  rw [State.rampedDomains, List.mem_filter, List.mem_range, Bool.and_eq_true]

/-- Where the ramp of a domain begins, and where it ends. -/
def State.rampFrom (s : State) (d : Nat) : Nat := (s.dom d).si + (s.dom d).block
def State.rampEnds (s : State) : List (Nat × Nat) := s.rampedDomains.map fun d => (d, s.rampFrom d + s.samplesMs d 5)

/-- The output gains with the ramps of some domains begun. -/
def State.rampGains (s : State) (l : List Nat) : Tab Gate :=
  l.foldl (fun g d => Tab.upd {} g d fun x => gateTo x true (s.samplesMs d 5) (s.rampFrom d)) s.pwr.gain

theorem State.rampDown_eq (s : State) (x : AfterRamp) : s.rampDown x =
    { s with pwr := { s.pwr with gain := s.rampGains s.rampedDomains, afterRamp := some (s.rampEnds, x) } } := by
  have gains : ∀ (l : List Nat) (v : State), v.each l (fun d u => u.modPwr fun p =>
      { p with gain := Tab.upd {} p.gain d fun g => gateTo g true (u.samplesMs d 5) ((u.dom d).si + (u.dom d).block) }) =
      { v with pwr := { v.pwr with gain := v.rampGains l } } := fun l => by
    induction l with
    | nil => exact fun _ => rfl
    | cons d l ih => exact fun v => ih _
  exact congrArg (fun u : State => u.modPwr fun p => { p with afterRamp := some (s.rampEnds, x) }) (gains s.rampedDomains s)

theorem foldl_upd_get {β : Type} [DecidableEq β] (b : β) (f : Nat → β → β) (d : Nat) : ∀ (l : List Nat) (g : Tab β), l.Nodup →
    Tab.get b (l.foldl (fun g d => Tab.upd b g d (f d)) g) d = if d ∈ l then f d (Tab.get b g d) else Tab.get b g d
  | [], _, _ => (if_neg List.not_mem_nil).symm
  | a :: l, g, once => by
    obtain ⟨fresh, once'⟩ := List.nodup_cons.1 once
    rw [List.foldl_cons, foldl_upd_get b f d l _ once', Tab.get_upd]
    by_cases eq : d = a
    · subst eq
      rw [if_neg fresh, if_pos rfl, if_pos List.mem_cons_self]
    · rw [if_neg eq, if_congr (List.mem_cons.trans (or_iff_right eq)).symm rfl rfl]

theorem State.rampGains_get {d : Nat} (on : d ∈ s.rampedDomains) :
    Tab.get {} (s.rampGains s.rampedDomains) d = gateTo (Tab.get {} s.pwr.gain d) true (s.samplesMs d 5) (s.rampFrom d) := by
  rw [State.rampGains, foldl_upd_get ({} : Gate) (fun d x => gateTo x true (s.samplesMs d 5) (s.rampFrom d)) d s.rampedDomains _
    (List.nodup_range.filter _), if_pos on]

theorem State.rampedDown_none {ends : List (Nat × Nat)} {x : AfterRamp} (ramp : s.pwr.afterRamp = some (ends, x)) {e : Nat × Nat}
    (mem : e ∈ ends) (before : (s.dom e.1).si < e.2) (runs : (s.dom e.1).running = true) : s.rampedDown = none := by
  unfold State.rampedDown
  rw [ramp]
  refine if_neg fun all => ?_
  have past := List.all_eq_true.1 all e mem
  rw [runs, decide_eq_false (by omega)] at past
  exact Bool.false_ne_true past

theorem State.rampedDown_of_all {ends : List (Nat × Nat)} {x : AfterRamp} (ramp : s.pwr.afterRamp = some (ends, x))
    (past : ∀ e ∈ ends, e.2 ≤ (s.dom e.1).si) : s.rampedDown = some x := by
  unfold State.rampedDown
  rw [ramp]
  exact if_pos (List.all_eq_true.2 fun e mem => by rw [decide_eq_true (past e mem), Bool.true_or])

theorem State.rampDown_ramp (s : State) (x : AfterRamp) : (s.rampDown x).pwr.afterRamp = some (s.rampEnds, x) := by
  rw [State.rampDown_eq]

theorem State.rampDown_dom (s : State) (x : AfterRamp) (d : Nat) : (s.rampDown x).dom d = s.dom d := by
  rw [State.rampDown_eq]
  rfl

/-- The ramp of a domain that runs with a block is still going when it begins. -/
theorem State.rampedDown_rampDown {d : Nat} (on : d ∈ s.rampedDomains) (block : 0 < (s.dom d).block) (x : AfterRamp) :
    (s.rampDown x).rampedDown = none := by
  refine State.rampedDown_none (s.rampDown_ramp x) (List.mem_map.2 ⟨d, on, rfl⟩) ?_ ?_
  · rw [State.rampDown_dom, State.rampFrom]
    dsimp only
    omega
  · rw [State.rampDown_dom]
    exact (State.mem_rampedDomains.1 on).2.2

theorem State.rampedDown_still (still : s.rampedDomains = []) (x : AfterRamp) : (s.rampDown x).rampedDown = some x := by
  refine State.rampedDown_of_all (s.rampDown_ramp x) fun e mem => ?_
  rw [State.rampEnds, still] at mem
  exact absurd mem List.not_mem_nil

/-! ### The write of STANDBY -/

section
variable (n : Nat) (r : TimeRecord)

theorem exec_pwrStandby_rejects (up : s.hostUp = true) (policy : s.bit Reg.PWR_POLICY_HOST_STANDBY = false) :
    execPwrStandby n r s = .next (s.put Reg.PWR_STATUS_CFG_REJ 1) := by
  rw [execPwrStandby, State.ifHost_up up, policy, if_pos (by decide)]
  rfl

theorem exec_pwrStandby_busy (up : s.hostUp = true) (policy : s.bit Reg.PWR_POLICY_HOST_STANDBY = true)
    (busy : s.pwr.started = false ∨ s.pwr.afterRamp ≠ none) : execPwrStandby n r s = .next s := by
  have off : (!s.pwr.started || s.pwr.afterRamp.isSome) = true := by
    rcases busy with off | ramp
    · rw [off]; rfl
    · rw [Option.isSome_iff_ne_none.2 ramp, Bool.or_true]
  rw [execPwrStandby, State.ifHost_up up, policy, if_neg (by decide), if_pos off]

/-- An engine in standby once its ramps have ended, and as it stands before. -/
def State.standbyOnceRamped (s : State) : State :=
  match s.rampedDown with
  | some (.standby c n r) => s.powerDown c n r
  | _ => s

/-- A STANDBY that the policy permits, of an engine that runs and has no ramp going. -/
theorem exec_pwrStandby_ramps (up : s.hostUp = true) (policy : s.bit Reg.PWR_POLICY_HOST_STANDBY = true)
    (started : s.pwr.started = true) (idle : s.pwr.afterRamp = none) :
    execPwrStandby n r s = .next (s.rampDown (.standby s.commits n r)).standbyOnceRamped := by
  rw [execPwrStandby, State.ifHost_up up, policy, if_neg (by decide), started, idle, if_neg (by decide)]
  rfl

/-- While a domain runs, its ramp is waited for. -/
theorem exec_pwrStandby_waits (up : s.hostUp = true) (policy : s.bit Reg.PWR_POLICY_HOST_STANDBY = true)
    (started : s.pwr.started = true) (idle : s.pwr.afterRamp = none) {d : Nat} (on : d ∈ s.rampedDomains)
    (block : 0 < (s.dom d).block) : execPwrStandby n r s = .next (s.rampDown (.standby s.commits n r)) := by
  rw [exec_pwrStandby_ramps n r up policy started idle, State.standbyOnceRamped, State.rampedDown_rampDown on block]

/-- Where no domain runs, the engine is in standby at once. -/
theorem exec_pwrStandby_atOnce (up : s.hostUp = true) (policy : s.bit Reg.PWR_POLICY_HOST_STANDBY = true)
    (started : s.pwr.started = true) (idle : s.pwr.afterRamp = none) (still : s.rampedDomains = []) :
    execPwrStandby n r s = .next ((s.rampDown (.standby s.commits n r)).powerDown s.commits n r) := by
  rw [exec_pwrStandby_ramps n r up policy started idle, State.standbyOnceRamped, State.rampedDown_still still]

end

end Sys2Proof.Machine
end

