-- ==== Sys2Proof/Proofs/RegisterAccess.lean ====
section
/-! PROOF. Register writes (R794-R797, R801, R809): which writes are discarded, and what a write leaves in its fields. -/

namespace Sys2Proof.Machine
variable {s t u : State}

/-! ### The dword write of BAR0 and of BAR2 -/

theorem State.answers_of_hostUp (up : s.hostUp = true) (o : Nat) : s.answers o = true := by rw [State.answers, up, Bool.true_or]

theorem State.writeBar0_beyond {o : Nat} (up : s.hostUp = true) (beyond : 0x20000 ≤ o) (v be : Nat) :
    s.writeBar0 o v be = s.accFault false o be 2 := by
  rw [State.writeBar0, State.answers_of_hostUp up, if_neg (by decide), if_pos beyond]

theorem State.writeBar0_early {o v : Nat} (up : s.hostUp = true) (inside : o < 0x20000)
    (early : s.bit Reg.GLOBAL_RESTORE_DONE = false) (change : s.changesRestored o v = true) (be : Nat) :
    s.writeBar0 o v be = s.accFault false o be 3 := by
  rw [State.writeBar0, State.answers_of_hostUp up, if_neg (by decide), if_neg (by omega), early, change, if_pos (by decide)]

theorem State.writeBar0_partial {o be : Nat} (up : s.hostUp = true) (inside : o < 0x20000)
    (restored : s.bit Reg.GLOBAL_RESTORE_DONE = true) (some : be ≠ 15) (v : Nat) :
    s.writeBar0 o v be = s.accFault false o be 1 := by
  rw [State.writeBar0, State.answers_of_hostUp up, if_neg (by decide), if_neg (by omega), restored,
    if_neg (by rw [Bool.not_true, Bool.false_and]; exact Bool.false_ne_true), if_pos some]

/-- A whole dword of a register that is no half of a pair is a write of that register. -/
theorem State.writeBar0_register {o v : Nat} (answers : s.answers o = true) (inside : o < 0x20000)
    (accepted : (!s.bit Reg.GLOBAL_RESTORE_DONE && s.changesRestored o v) = false) (single : pairAt o = none) :
    s.writeBar0 o v 15 = s.writeRegister o v := by
  rw [State.writeBar0, answers, if_neg (by decide), if_neg (by omega), accepted, if_neg Bool.false_ne_true,
    if_neg (by decide), single]

theorem State.writeBar2_partial {be : Nat} (up : s.hostUp = true) (some : be ≠ 15) (o v : Nat) :
    s.writeBar2 o v be = s.accFault true o be 1 := by
  rw [State.writeBar2, up, if_neg (by decide), if_pos some]

theorem State.writeBar2_doorbell (up : s.hostUp = true) (v : Nat) :
    s.writeBar2 0 v 15 = s.run (execDoorbell (BitVec.ofNat 32 v)) := by
  rw [State.writeBar2, up, if_neg (by decide), if_neg (by decide), if_pos rfl]

/-! ### Plain registers -/

/-- The rows and fields of a register, without the power-up values. -/
def accessAt (o : Nat) : List (Acc × Fld) := (fieldsAt o).map fun x => (x.1.acc, x.2)

/-- No field of a register has a range, and none is ever locked. -/
def unlimitedAt (o : Nat) : Bool := (fieldsAt o).all fun x => x.1.base != 0x2110 && (limitOf x.1).isNone

theorem not_discards {r : RegRow} (base : (r.base != 0x2110) = true) (free : (limitOf r).isNone = true) (v : Nat) :
    discards r v = false := by
  rw [discards, Option.isNone_iff_eq_none.1 free, beq_eq_false_iff_ne.2 (bne_iff_ne.1 base)]
  rfl

theorem State.refusesWrite_unlimited {o : Nat} (free : unlimitedAt o = true)
    (open_ : ∀ x ∈ fieldsAt o, s.lockedField x.2 = false) (v : Nat) : s.refusesWrite o v = false := by
  rw [State.refusesWrite, Bool.or_eq_false_iff, List.any_eq_false, List.any_eq_false]
  refine ⟨fun x at_ => ?_, fun x at_ => ?_⟩
  · obtain ⟨base, limit⟩ := Bool.and_eq_true_iff.1 (List.all_eq_true.1 free x at_)
    rw [not_discards base limit, Bool.and_false]
    exact Bool.false_ne_true
  · rw [open_ x (List.mem_filter.1 at_).1]
    exact Bool.false_ne_true

/-- What a field's access makes of a write. -/
def State.access (s : State) (v : Nat) (x : Acc × Fld) : State :=
  match x.1 with
  | .rw => s.put x.2 (fieldOf v x.2)
  | .w1c => s.put x.2 (s.get x.2 - Nat.land (s.get x.2) (fieldOf v x.2))
  | _ => s

theorem State.writeFields_eq (o v : Nat) :
    (fieldsAt o).foldl (fun t x => t.writeField v x) s = (accessAt o).foldl (fun t x => t.access v x) s := by
  rw [accessAt, List.foldl_map]
  rfl

theorem State.writePlain_accepted {o v : Nat} (accepted : s.refusesWrite o v = false) :
    s.writePlain o v = (accessAt o).foldl (fun t x => t.access v x) s := by
  rw [State.writePlain, accepted, if_neg Bool.false_ne_true, State.writeFields_eq]

theorem State.changes_of_not_rw {o : Nat} (fields : ∀ x ∈ fieldsAt o, x.1.acc ≠ .rw) (v : Nat) : s.changes o v = [] :=
  List.filter_eq_nil_iff.2 fun x at_ => by
    rw [decide_eq_false (fields x at_)]
    exact Bool.false_ne_true

/-- A register with no field that a host may set refuses nothing. -/
theorem State.refusesWrite_of_not_rw {o : Nat} (fields : ∀ x ∈ fieldsAt o, x.1.acc ≠ .rw) (v : Nat) :
    s.refusesWrite o v = false := by
  rw [State.refusesWrite, State.changes_of_not_rw fields, List.any_nil, Bool.or_false, List.any_eq_false]
  intro x at_
  rw [decide_eq_false (fields x at_)]
  exact Bool.false_ne_true

/-! ### The registers that the statement names -/

theorem pairAt_counts : pairAt 0x1048 = none ∧ (∀ x ∈ fieldsAt 0x1048, x.1.acc ≠ .rw) ∧
    accessAt 0x1048 = [(.ro, Reg.PWR_CNT_WARN), (.ro, Reg.PWR_CNT_RIDE)] := by decide +kernel
theorem pairAt_unmute : pairAt 0x101C = none := by decide +kernel
theorem fieldsAt_unmute : fieldsAt 0x101C = [(⟨0x101C, 0, 1, 0, 1, 0, 13, .rw, .restored, false⟩, Reg.PWR_UNMUTE_MS)] := by
  decide +kernel
theorem pairAt_standby : pairAt 0x1004 = none := by decide +kernel
theorem pairAt_hub : pairAt 0x8000 = none := by decide +kernel
theorem accessAt_hub : (∀ x ∈ fieldsAt 0x8000, x.1.acc ≠ .rw) ∧ accessAt 0x8000 = [(.w1c, Reg.HUBA_STATUS_CFG_REJ)] := by decide +kernel
theorem pairAt_go : pairAt 0x120CC = none ∧ ∀ x ∈ fieldsAt 0x120CC, x.1.acc ≠ .rw := by decide +kernel

theorem limitOf_unmute : limitOf ⟨0x101C, 0, 1, 0, 1, 0, 13, .rw, .restored, false⟩ = some ⟨0x101C, 0, 0, 5000, 250, false⟩ := rfl

/-- UNMUTE_MS is refused beyond 5 s. -/
theorem State.refusesWrite_unmute (v : Nat) : s.refusesWrite 0x101C v = decide (5000 < v % 2 ^ 13) := by
  have range : discards ⟨0x101C, 0, 1, 0, 1, 0, 13, .rw, .restored, false⟩ (v % 2 ^ 13) = decide (5000 < v % 2 ^ 13) := by
    rw [discards, limitOf_unmute, Bool.eq_iff_iff]
    simp [Limit.has]
  have part : fieldOf v Reg.PWR_UNMUTE_MS = v % 2 ^ 13 := congrArg (· % 2 ^ 13) (Nat.div_one v)
  have unlocked : (s.changes 0x101C v).any (fun x => s.lockedField x.2) = false := by
    rw [List.any_eq_false]
    intro x at_
    rw [State.changes, fieldsAt_unmute] at at_
    rw [List.mem_singleton.1 (List.mem_filter.1 at_).1]
    exact Bool.false_ne_true
  rw [State.refusesWrite, unlocked, Bool.or_false, fieldsAt_unmute, List.any_cons, List.any_nil, Bool.or_false, part, range]
  rfl

theorem State.writePlain_unmute {v : Nat} (within : v ≤ 5000) : s.writePlain 0x101C v = s.put Reg.PWR_UNMUTE_MS v := by
  have cut : v % 2 ^ 13 = v := Nat.mod_eq_of_lt (by omega)
  have part : fieldOf v Reg.PWR_UNMUTE_MS = v := (congrArg (· % 2 ^ 13) (Nat.div_one v)).trans cut
  rw [State.writePlain, State.refusesWrite_unmute, cut, decide_eq_false (by omega), if_neg Bool.false_ne_true, fieldsAt_unmute]
  exact congrArg (s.put Reg.PWR_UNMUTE_MS) part

theorem State.writePlain_unmute_beyond {v : Nat} (beyond : 5000 < v % 2 ^ 13) :
    s.writePlain 0x101C v = s.put Reg.PWR_STATUS_CFG_REJ 1 := by
  rw [State.writePlain, State.refusesWrite_unmute, decide_eq_true beyond, if_pos rfl]
  rfl

/-- A write of 1 clears the flag of refused configurations, and nothing else is changed. -/
theorem State.writePlain_hubFlag (v : Nat) : s.writePlain 0x8000 v =
    s.put Reg.HUBA_STATUS_CFG_REJ (s.get Reg.HUBA_STATUS_CFG_REJ - Nat.land (s.get Reg.HUBA_STATUS_CFG_REJ) (v % 2)) := by
  rw [State.writePlain_accepted (State.refusesWrite_of_not_rw accessAt_hub.1 v), accessAt_hub.2]
  exact congrArg (fun x => s.put Reg.HUBA_STATUS_CFG_REJ (s.get Reg.HUBA_STATUS_CFG_REJ - Nat.land (s.get Reg.HUBA_STATUS_CFG_REJ) (x % 2)))
    (Nat.div_one v)

theorem State.writeRegister_pwr {o : Nat} (block : o / 4096 = 1) (v : Nat) : s.writeRegister o v = s.writePwr o v := by
  simp only [State.writeRegister, block]

theorem State.writeRegister_huba {o : Nat} (block : o / 4096 = 8) (v : Nat) : s.writeRegister o v = s.writeHuba o v := by
  simp only [State.writeRegister, block]

theorem State.writeRegister_trust {o : Nat} (block : o / 4096 = 18) (v : Nat) : s.writeRegister o v = s.writeTrust o v := by
  simp only [State.writeRegister, block]

theorem State.writeRegister_counts (v : Nat) : s.writeRegister 0x1048 v = s := by
  obtain ⟨-, fixed, fields⟩ := pairAt_counts
  rw [State.writeRegister_pwr (by decide), State.writePwr, if_neg (by decide), if_neg (by decide),
    State.writePlain_accepted (State.refusesWrite_of_not_rw fixed v), fields]
  rfl

theorem State.writeRegister_hubFlag (v : Nat) : s.writeRegister 0x8000 v = s.writePlain 0x8000 v := by
  rw [State.writeRegister_huba (by decide), State.writeHuba]
  dsimp only
  rw [if_neg (by decide), if_neg (by decide), if_neg (by decide)]

theorem State.writeRegister_unmute (v : Nat) : s.writeRegister 0x101C v = s.writePlain 0x101C v := by
  rw [State.writeRegister_pwr (by decide), State.writePwr, if_neg (by decide), if_neg (by decide)]

theorem State.writeRegister_standby {v : Nat} (one : v % 2 = 1) : s.writeRegister 0x1004 v = s.standbyWrite := by
  rw [State.writeRegister_pwr (by decide), State.writePwr, if_neg (by decide), if_pos rfl, if_pos one]

theorem State.writeRegister_go {v : Nat} (one : v % 2 = 1) (recovery : s.bit Reg.TRUST_STATE_RECOVERY = true) :
    s.writeRegister 0x120CC v = s.put Reg.TRUST_RCV_STATUS_STATE 1 := by
  rw [State.writeRegister_trust (by decide), State.writeTrust, if_pos rfl, if_neg (by omega), if_pos recovery]

/-! ### Pair reads (R798-R800) -/

theorem exec_pairLoRead {off : BitVec 18} {r : RegRow} {f : Fld} (up : s.hostUp = true)
    (pair : pairAt (off.toNat / 4 * 4) = some (r, f, false)) (both : Bool) : exec (.pairLoRead off both) s =
      .next { s with latch := Tab.put 0 s.latch f.off (if both then 0 else s.get f / 2 ^ 32 + 1) } := by
  change execPairLoRead off both s = _
  unfold execPairLoRead
  dsimp only
  rw [pair]
  dsimp only
  rw [State.answers_of_hostUp up, if_neg (by decide)]

theorem exec_pairHiRead {off : BitVec 18} {r : RegRow} {f : Fld} (up : s.hostUp = true)
    (pair : pairAt (off.toNat / 4 * 4) = some (r, f, true)) : exec (.pairHiRead off) s =
      .next (if Tab.get 0 s.latch f.off ≠ 0 then { s with latch := Tab.put 0 s.latch f.off 0 }
        else s.staleRead (off.toNat / 4 * 4)) := by
  change execPairHiRead off s = _
  unfold execPairHiRead
  dsimp only
  rw [pair]
  dsimp only
  rw [State.answers_of_hostUp up, if_neg (by decide)]

theorem staleRegs_apart : Reg.GLOBAL_ACC_STALE_HI.key ≠ Reg.GLOBAL_ACC_CNT_STALE.key ∧
    Reg.GLOBAL_ACC_STALE_HI.key ≠ Reg.GLOBAL_ACC_OVERFLOW.key ∧ Reg.GLOBAL_ACC_CNT_STALE.key ≠ Reg.GLOBAL_ACC_OVERFLOW.key ∧
    Reg.GLOBAL_ACC_STALE_HI.key ≠ Reg.GLOBAL_STALE_ADDR_OFFSET.key ∧
    Reg.GLOBAL_ACC_CNT_STALE.key ≠ Reg.GLOBAL_STALE_ADDR_OFFSET.key ∧
    Reg.GLOBAL_ACC_STALE_HI.key ≠ Reg.GLOBAL_STALE_ADDR_VALID.key ∧
    Reg.GLOBAL_ACC_CNT_STALE.key ≠ Reg.GLOBAL_STALE_ADDR_VALID.key := by decide

theorem State.staleRead_shows (o : Nat) : (s.staleRead o).bit Reg.GLOBAL_ACC_STALE_HI = true ∧
    (s.staleRead o).get Reg.GLOBAL_ACC_CNT_STALE = min (s.get Reg.GLOBAL_ACC_CNT_STALE + 1) 0xFFFF ∧
    (s.staleRead o).units = s.units := by
  obtain ⟨ab, ac, bc, ad, bd, ae, be⟩ := staleRegs_apart
  have first : ((s.set Reg.GLOBAL_ACC_STALE_HI).bump Reg.GLOBAL_ACC_CNT_STALE).bit Reg.GLOBAL_ACC_STALE_HI = true := by
    rw [State.bump, State.bumpBy, State.bit_put_ne _ ab]
    exact State.bit_set_same s rfl
  have count : ((s.set Reg.GLOBAL_ACC_STALE_HI).bump Reg.GLOBAL_ACC_CNT_STALE).get Reg.GLOBAL_ACC_CNT_STALE =
      min (s.get Reg.GLOBAL_ACC_CNT_STALE + 1) 0xFFFF := by
    rw [State.get_bump_same, State.set, State.get_put_ne _ ab.symm]
    rfl
  rw [State.staleRead]
  split
  · exact ⟨(State.bit_put_ne _ ac _).trans first, (State.get_put_ne _ bc _).trans count, rfl⟩
  · refine ⟨((State.bit_put_ne _ ae _).trans (State.bit_put_ne _ ad _)).trans first,
      ((State.get_put_ne _ be _).trans (State.get_put_ne _ bd _)).trans count, rfl⟩

/-! ### Counters (R796) -/

theorem State.clear_regs (s : State) (l : List Fld) : s.clear l = { s with regs := (s.clear l).regs } := by
  unfold State.clear
  induction l generalizing s with
  | nil => rfl
  | cons f l ih => exact ih (s.put f 0)

theorem State.get_clear_mem {l : List Fld} {f : Fld} (mem : f.key ∈ l.map Fld.key) : (s.clear l).get f = 0 := by
  unfold State.clear
  induction l generalizing s with
  | nil => exact absurd mem List.not_mem_nil
  | cons g l ih =>
    by_cases later : f.key ∈ l.map Fld.key
    · exact ih later
    · have first : f.key = g.key := (List.mem_cons.1 mem).resolve_right later
      have kept : (State.clear (s.put g 0) l).get f = (s.put g 0).get f :=
        State.get_clear_ne _ fun h at_ eq => later (List.mem_map.2 ⟨h, at_, eq.symm⟩)
      refine kept.trans ?_
      rw [State.get, first]
      exact (State.get_put_same s g 0).trans (Nat.zero_mod _)

/-- What a clear of the counters of a block, with its marks, leaves. -/
def ClearsCounters (s t : State) (l : List Fld) (marks : List (Fld × Nat)) : Prop :=
  t = { s with regs := t.regs } ∧ (∀ f ∈ l, t.get f = 0) ∧ (∀ m ∈ marks, t.get m.1 = m.2 % 2 ^ m.1.w) ∧
    ∀ f : Fld, f.key ∉ (l ++ marks.map (·.1)).map Fld.key → t.get f = s.get f

theorem ClearsCounters.of_clear (s : State) (l : List Fld) : ClearsCounters s (s.clear l) l [] :=
  ⟨s.clear_regs l, fun _ mem => State.get_clear_mem (List.mem_map_of_mem mem), fun _ mem => absurd mem List.not_mem_nil,
    fun _ out => State.get_clear_ne _ fun g mem eq => out (List.mem_map.2 ⟨g, List.mem_append_left _ mem, eq.symm⟩)⟩

/-- A mark that is no counter of the block takes its present count. -/
theorem ClearsCounters.mark (s : State) {l : List Fld} {m : Fld} (apart : m.key ∉ l.map Fld.key) (v : Nat) :
    ClearsCounters s ((s.clear l).put m v) l [(m, v)] := by
  refine ⟨congrArg (fun x : State => x.put m v) (s.clear_regs l), fun f mem => ?_, fun x mem => ?_, fun f out => ?_⟩
  · exact (State.get_put_ne _ (fun eq => apart (eq ▸ List.mem_map_of_mem mem)) v).trans
      (State.get_clear_mem (List.mem_map_of_mem mem))
  · rw [List.mem_singleton.1 mem]
    exact State.get_put_same _ m v
  · have other : f.key ≠ m.key := fun eq => out (List.mem_map.2 ⟨m, List.mem_append_right _ (List.mem_singleton.2 rfl), eq.symm⟩)
    exact (State.get_put_ne _ other v).trans
      (State.get_clear_ne _ fun g mem eq => out (List.mem_map.2 ⟨g, List.mem_append_left _ mem, eq.symm⟩))

/-! ## The multi-function pads (R828-R833): a write of a pad, its park and the function that it takes. -/

/-! ### What shows a pad -/

/-- The registers that show what a pad is waiting for, and its level. -/
def padRegs (k : Nat) : List Fld := [Reg.PINFN_MFP_PENDING k, Reg.PINFN_STATUS_PENDING_ANY, Reg.PINFN_LEVEL_LEVEL]

theorem ShowsOnly.showPin (s : State) (k : Nat) : ShowsOnly (padRegs k) s (s.showPin k) :=
  (ShowsOnly.put List.mem_cons_self _).trans (.put (List.mem_cons_of_mem _ List.mem_cons_self) _)

theorem ShowsOnly.pinLevel (s : State) (k : Nat) : ShowsOnly (padRegs k) s (s.pinLevel k) :=
  .ite (.ite (.put (by simp [padRegs]) _) (.put (by simp [padRegs]) _)) .refl

theorem padRegs_apart (k : Fin 32) : (Reg.PINFN_MFP_FN k).FreeOf (padRegs k) ∧ (Reg.PINFN_MFP_OUT k).FreeOf (padRegs k) ∧
    (Reg.PINFN_MFP_PULL k).FreeOf (padRegs k) ∧ (Reg.PINFN_MFP_DRIVE k).FreeOf (padRegs k) ∧
    (Reg.PINFN_MFP_PARAM k).FreeOf (padRegs k) ∧ (Reg.PINFN_MFP_PARKED k).FreeOf (padRegs k) ∧
    Reg.PINFN_CNT_CHANGES.FreeOf (padRegs k) ∧ (Reg.PINFN_MFP_PENDING k).key ≠ Reg.PINFN_STATUS_PENDING_ANY.key ∧
    (Reg.PINFN_MFP_PARKED k).key ≠ Reg.PINFN_CNT_CHANGES.key := by decide +revert

theorem padFields_apart (k : Fin 32) : (Reg.PINFN_MFP_FN k).FreeOf [Reg.PINFN_MFP_OUT k, Reg.PINFN_MFP_PULL k, Reg.PINFN_MFP_DRIVE k,
    Reg.PINFN_MFP_PARAM k] := by decide +revert

/-- PENDING of a pad after it has been shown. -/
theorem State.showPin_pending (s : State) (k : Fin 32) : (s.showPin k).bit (Reg.PINFN_MFP_PENDING k) =
    (s.get (Reg.PINFN_MFP_FN k) != s.pinFn k || s.pinCfg k != Tab.get 0 s.pins.cfg k) := by
  obtain ⟨-, -, -, -, -, -, -, apart, -⟩ := padRegs_apart k
  exact (State.bit_put_ne _ apart _).trans (State.bit_putBit_same s rfl _)

theorem ShowsOnly.pinCfg (k : Fin 32) (shows : ShowsOnly (padRegs k) s t) : t.pinCfg k = s.pinCfg k := by
  obtain ⟨-, out, pull, drive, param, -⟩ := padRegs_apart k
  rw [State.pinCfg, State.pinCfg, shows.get out, shows.get pull, shows.get drive, shows.get param]

/-! ### A write of a pad -/

theorem accessAt_pad (k : Fin 32) : unlimitedAt (0x15010 + 4 * k) = true ∧ accessAt (0x15010 + 4 * k) =
    [(.rw, Reg.PINFN_MFP_FN k), (.rw, Reg.PINFN_MFP_OUT k), (.rw, Reg.PINFN_MFP_PULL k), (.rw, Reg.PINFN_MFP_DRIVE k),
      (.rw, Reg.PINFN_MFP_PARAM k), (.ro, Reg.PINFN_MFP_PENDING k), (.ro, Reg.PINFN_MFP_PARKED k)] := by
  decide +kernel +revert

theorem State.writePlain_pad (s : State) (k : Fin 32) (v : Nat) :
    (s.writePlain (0x15010 + 4 * k) v).get (Reg.PINFN_MFP_FN k) = v % 16 ∧ (s.writePlain (0x15010 + 4 * k) v).pins = s.pins ∧
      (s.writePlain (0x15010 + 4 * k) v).units = s.units := by
  obtain ⟨free, fields⟩ := accessAt_pad k
  have here : ∀ x ∈ fieldsAt (0x15010 + 4 * k), x.2.off / 4096 = 21 := fun x mem => by
    have listed : (x.1.acc, x.2) ∈ accessAt (0x15010 + 4 * k) := List.mem_map_of_mem mem
    have offs : ∀ y ∈ accessAt (0x15010 + 4 * k), y.2.off = 0x15010 + 0x4 * k := by
      rw [fields]
      simp [Reg.PINFN_MFP_FN, Reg.PINFN_MFP_OUT, Reg.PINFN_MFP_PULL, Reg.PINFN_MFP_DRIVE, Reg.PINFN_MFP_PARAM,
        Reg.PINFN_MFP_PENDING, Reg.PINFN_MFP_PARKED]
    have off := offs _ listed
    dsimp only at off
    omega
  have unlocked : ∀ x ∈ fieldsAt (0x15010 + 4 * k), s.lockedField x.2 = false := fun x mem => by
    unfold State.lockedField
    simp only [here x mem]
  have written : WritesOnly [Reg.PINFN_MFP_OUT k, Reg.PINFN_MFP_PULL k, Reg.PINFN_MFP_DRIVE k, Reg.PINFN_MFP_PARAM k]
      (s.put (Reg.PINFN_MFP_FN k) (fieldOf v (Reg.PINFN_MFP_FN k)))
      ([(Acc.rw, Reg.PINFN_MFP_OUT k), (Acc.rw, Reg.PINFN_MFP_PULL k), (Acc.rw, Reg.PINFN_MFP_DRIVE k),
        (Acc.rw, Reg.PINFN_MFP_PARAM k)].foldl (fun t x => t.access v x) (s.put (Reg.PINFN_MFP_FN k) (fieldOf v (Reg.PINFN_MFP_FN k)))) :=
    (((WritesOnly.put (by simp) _).trans (.put (by simp) _)).trans (.put (by simp) _)).trans (.put (by simp) _)
  rw [State.writePlain_accepted (State.refusesWrite_unlimited free unlocked v), fields]
  refine ⟨(written _ (padFields_apart k)).trans ((State.get_put_same ..).trans ?_), rfl, rfl⟩
  exact (Nat.mod_mod _ 16).trans (congrArg (· % 16) (Nat.div_one v))

/-- A reserved function, or a second holder of one that one pad alone may have. -/
def State.padRefused (s : State) (k : Fin 32) (fn : Nat) : Prop :=
  11 ≤ fn ∨ fn ∈ [3, 4, 5] ∧ ∃ j : Fin 32, j ≠ k ∧ s.get (Reg.PINFN_MFP_FN j) = fn

theorem State.padRefused_iff (s : State) (k : Fin 32) (fn : Nat) : (decide (11 ≤ fn) || (fn == 3 || fn == 4 || fn == 5) &&
    (List.range 32).any fun j => j != k && s.get (Reg.PINFN_MFP_FN j) == fn) = true ↔ s.padRefused k fn := by
  have other : ((List.range 32).any fun j => j != k && s.get (Reg.PINFN_MFP_FN j) == fn) = true ↔
      ∃ j : Fin 32, j ≠ k ∧ s.get (Reg.PINFN_MFP_FN j) = fn := by
    simp only [List.any_eq_true, List.mem_range, Bool.and_eq_true, bne_iff_ne, beq_iff_eq]
    exact ⟨fun ⟨j, inside, apart, eq⟩ => ⟨⟨j, inside⟩, fun same => apart (congrArg Fin.val same), eq⟩,
      fun ⟨j, apart, eq⟩ => ⟨j, j.isLt, fun same => apart (Fin.ext same), eq⟩⟩
  rw [State.padRefused, Bool.or_eq_true, Bool.and_eq_true, other, decide_eq_true_iff]
  simp [or_assoc]

theorem State.pinWrite_refused {k : Fin 32} {v : Nat} (refused : s.padRefused k (v % 16)) :
    s.pinWrite k v = (s.put Reg.PINFN_STATUS_CFG_REJ 1).bump Reg.PINFN_CNT_REJECTS :=
  if_pos ((s.padRefused_iff k (v % 16)).2 refused)

theorem State.pinWrite_accepted {k : Fin 32} {v : Nat} (accepted : ¬s.padRefused k (v % 16)) :
    s.pinWrite k v = (s.writePlain (0x15010 + 4 * k) v).showPin k :=
  if_neg (mt (s.padRefused_iff k (v % 16)).1 accepted)

/-- An accepted write of a pad is pending until the pad has its function. -/
theorem State.pinWrite_shows {k : Fin 32} {v : Nat} (accepted : ¬s.padRefused k (v % 16)) :
    (s.pinWrite k v).get (Reg.PINFN_MFP_FN k) = v % 16 ∧ (s.pinWrite k v).pins = s.pins ∧ (s.pinWrite k v).units = s.units ∧
      (v % 16 ≠ s.pinFn k → (s.pinWrite k v).bit (Reg.PINFN_MFP_PENDING k) = true) := by
  obtain ⟨fn, pins, units⟩ := s.writePlain_pad k v
  rw [State.pinWrite_accepted accepted]
  have shows := ShowsOnly.showPin (s.writePlain (0x15010 + 4 * k) v) k
  refine ⟨(shows.get (padRegs_apart k).1).trans fn, shows.pins.trans pins, shows.units.trans units, fun other => ?_⟩
  have same : (s.writePlain (0x15010 + 4 * k) v).pinFn k = s.pinFn k := by rw [State.pinFn, State.pinFn, pins]
  rw [State.showPin_pending, fn, same, bne_iff_ne.2 other, Bool.true_or]

theorem exec_pinfnWrite (up : s.hostUp = true) (restored : s.bit Reg.GLOBAL_RESTORE_DONE = true) (k : Fin 32) (v : BitVec 32) :
    exec (.pinfnWrite k v) s = .next (s.pinWrite k v.toNat) := State.ifRestored_of up restored _ _ _

/-! ### The change of a pad at a boundary, and the end of its park -/

theorem exec_pinfnChange_waits {k : Fin 32} (waits : ¬(s.pinsMove = true ∧ s.bit (Reg.PINFN_MFP_PENDING k) = true)) :
    exec (.pinfnChange k) s = .next s := by
  refine congrArg _ (if_pos ?_)
  by_contra moves
  exact waits (by simpa using moves)

/-- The pad takes what is written but its function. -/
def State.padConfigured (s : State) (k : Nat) : State := { s with pins := { s.pins with cfg := Tab.put 0 s.pins.cfg k (s.pinCfg k) } }

/-- The pad is parked for a new function. -/
def State.padParked (s : State) (k fn : Nat) : State :=
  State.put { s.padConfigured k with pins := { (s.padConfigured k).pins with parked := Tab.put none s.pins.parked k (some fn) } }
    (Reg.PINFN_MFP_PARKED k) 1

theorem exec_pinfnChange_moves {k : Fin 32} (moves : s.pinsMove = true) (pending : s.bit (Reg.PINFN_MFP_PENDING k) = true) :
    exec (.pinfnChange k) s = .next (if s.get (Reg.PINFN_MFP_FN k) = s.pinFn k then ((s.padConfigured k).pinLevel k).showPin k
      else (s.padParked k (s.get (Reg.PINFN_MFP_FN k))).showPin k) :=
  congrArg _ (if_neg (by rw [moves, pending]; decide))

/-- The pad keeps its function: what is written is in force, and nothing is pending. -/
theorem State.padConfigured_shows {k : Fin 32} (same : s.get (Reg.PINFN_MFP_FN k) = s.pinFn k) :
    let t := ((s.padConfigured k).pinLevel k).showPin k
    Tab.get 0 t.pins.cfg k = s.pinCfg k ∧ t.pins.fn = s.pins.fn ∧ t.pins.parked = s.pins.parked ∧
      t.bit (Reg.PINFN_MFP_PENDING k) = false ∧ t.units = s.units := by
  have levelled := ShowsOnly.pinLevel (s.padConfigured k) k
  have shows := levelled.trans (ShowsOnly.showPin ((s.padConfigured k).pinLevel k) k)
  have cfg : Tab.get 0 ((s.padConfigured k).pinLevel k).pins.cfg k = s.pinCfg k := by
    rw [levelled.pins]
    exact Tab.get_put_same ..
  have fn : ((s.padConfigured k).pinLevel k).get (Reg.PINFN_MFP_FN k) = s.pinFn k :=
    (levelled.get (padRegs_apart k).1).trans same
  have now : ((s.padConfigured k).pinLevel k).pinFn k = s.pinFn k := by rw [State.pinFn, levelled.pins]; rfl
  have written : ((s.padConfigured k).pinLevel k).pinCfg k = s.pinCfg k := (ShowsOnly.pinCfg k levelled :)
  intro t
  refine ⟨?_, (congrArg PinSt.fn shows.pins :), (congrArg PinSt.parked shows.pins :), ?_, shows.units⟩
  · rw [shows.pins]
    exact Tab.get_put_same _ _ _ _
  · refine (State.showPin_pending _ k).trans ?_
    rw [fn, now, written, cfg, bne_self_eq_false, bne_self_eq_false]
    rfl

theorem State.padParked_shows (s : State) (k : Fin 32) (fn : Nat) : let t := (s.padParked k fn).showPin k
    Tab.get none t.pins.parked k = some fn ∧ t.bit (Reg.PINFN_MFP_PARKED k) = true ∧ t.pins.fn = s.pins.fn ∧ t.units = s.units := by
  have shows := ShowsOnly.showPin (s.padParked k fn) k
  obtain ⟨-, -, -, -, -, parked, -⟩ := padRegs_apart k
  intro t
  refine ⟨?_, (shows.bit parked).trans (State.bit_put_same _ rfl 1), (congrArg PinSt.fn shows.pins :), shows.units⟩
  rw [shows.pins]
  exact Tab.get_put_same none s.pins.parked k (some fn)

/-- The parked pad has its new function. -/
def State.padTaken (s : State) (k fn : Nat) : State :=
  (State.put { s with pins := { s.pins with fn := Tab.put 0 s.pins.fn k fn, parked := Tab.put none s.pins.parked k none } }
    (Reg.PINFN_MFP_PARKED k) 0).bump Reg.PINFN_CNT_CHANGES

theorem exec_pinfnParkEnd_idle {k : Fin 32} (idle : Tab.get none s.pins.parked k = none) : exec (.pinfnParkEnd k) s = .next s := by
  change execPinfnParkEnd k s = _
  rw [execPinfnParkEnd, idle]

theorem exec_pinfnParkEnd {k : Fin 32} {fn : Nat} (parked : Tab.get none s.pins.parked k = some fn) :
    exec (.pinfnParkEnd k) s = .next (((s.padTaken k fn).pinLevel k).showPin k) := by
  change execPinfnParkEnd k s = _
  rw [execPinfnParkEnd, parked]
  rfl

theorem State.padTaken_shows (s : State) (k : Fin 32) (fn : Nat) : let t := ((s.padTaken k fn).pinLevel k).showPin k
    Tab.get 0 t.pins.fn k = fn ∧ Tab.get none t.pins.parked k = none ∧ t.bit (Reg.PINFN_MFP_PARKED k) = false ∧
      t.get Reg.PINFN_CNT_CHANGES = min (s.get Reg.PINFN_CNT_CHANGES + 1) (2 ^ Reg.PINFN_CNT_CHANGES.w - 1) ∧ t.units = s.units := by
  have shows := (ShowsOnly.pinLevel (s.padTaken k fn) k).trans (ShowsOnly.showPin ((s.padTaken k fn).pinLevel k) k)
  obtain ⟨-, -, -, -, -, parked, count, -, apart⟩ := padRegs_apart k
  intro t
  refine ⟨?_, ?_, (shows.bit parked).trans ((State.bit_put_ne _ apart _).trans (State.bit_put_same _ rfl 0)),
    (shows.get count).trans ((State.get_bump_same ..).trans ?_), shows.units⟩
  · rw [shows.pins]
    exact Tab.get_put_same 0 s.pins.fn k fn
  · rw [shows.pins]
    exact Tab.get_put_same none s.pins.parked k none
  · rw [State.get_put_ne _ apart.symm]
    rfl

/-! ## The register accesses, the clears of the counters and the pads, settled together (R790-R809, R828-R833). -/

/-! ### Accesses that are discarded -/

theorem registerWrite_discards (off : BitVec 18) (v : BitVec 32) (be : BitVec 4) (up : s.hostUp = true) : let o := off.toNat / 4 * 4
    (0x20000 ≤ o → exec (.registerWrite false off v be) s = .next (s.accFault false o be.toNat 2)) ∧
    (o < 0x20000 → s.bit Reg.GLOBAL_RESTORE_DONE = false → s.changesRestored o v.toNat = true →
      exec (.registerWrite false off v be) s = .next (s.accFault false o be.toNat 3)) ∧
    (o < 0x20000 → s.bit Reg.GLOBAL_RESTORE_DONE = true → be ≠ 15 →
      exec (.registerWrite false off v be) s = .next (s.accFault false o be.toNat 1)) ∧
    (be ≠ 15 → exec (.registerWrite true off v be) s = .next (s.accFault true o be.toNat 1)) := by
  have enables : be ≠ 15 → be.toNat ≠ 15 := fun some eq => some (BitVec.eq_of_toNat_eq eq)
  exact ⟨fun beyond => congrArg _ (State.writeBar0_beyond up beyond _ _),
    fun inside early change => congrArg _ (State.writeBar0_early up inside early change _),
    fun inside restored some => congrArg _ (State.writeBar0_partial up inside restored (enables some) _),
    fun some => congrArg _ (State.writeBar2_partial up (enables some) _ _)⟩

/-! ### Whole dwords of the registers that the statement names -/

theorem exec_registerWrite_at {off : BitVec 18} {o : Nat} (at_ : off.toNat / 4 * 4 = o) (v : BitVec 32) :
    exec (.registerWrite false off v 15) s = .next (s.writeBar0 o v.toNat 15) := by
  rw [← at_]
  rfl

/-- A whole dword of a register that stands alone, on an engine that is restored. -/
theorem exec_registerWrite_restored {off : BitVec 18} {o : Nat} (up : s.hostUp = true) (restored : s.bit Reg.GLOBAL_RESTORE_DONE = true)
    (at_ : off.toNat / 4 * 4 = o) (inside : o < 0x20000) (single : pairAt o = none) (v : BitVec 32) :
    exec (.registerWrite false off v 15) s = .next (s.writeRegister o v.toNat) := by
  rw [exec_registerWrite_at at_, State.writeBar0_register (State.answers_of_hostUp up o) inside
    (by rw [restored, Bool.not_true, Bool.false_and]) single]

theorem exec_registerWrite_doorbell (up : s.hostUp = true) (v : BitVec 32) : exec (.registerWrite true 0 v 15) s = exec
    (.doorbell v) s := by
  have same : BitVec.ofNat 32 v.toNat = v := by simp
  obtain ⟨t, answer⟩ := everyCommandAnswers.1 (.doorbell v) s
  have rung : execDoorbell v s = .next t := answer
  refine (congrArg Host.Outcome.next (State.writeBar2_doorbell up v.toNat)).trans ?_
  rw [same, State.run, rung, answer, onNext]

theorem getLsbD_zero (v : BitVec 32) : v.getLsbD 0 = (v.toNat % 2 == 1) := by
  rw [BitVec.getLsbD, Nat.testBit_zero]
  rfl

/-- A write of one to a sticky bit clears it. -/
theorem State.hubFlag_cleared (v : BitVec 32) : let t := s.writePlain 0x8000 v.toNat
    t.units = s.units ∧ t.bit Reg.HUBA_STATUS_CFG_REJ = (s.bit Reg.HUBA_STATUS_CFG_REJ && !v.getLsbD 0) ∧
      ∀ f : Fld, f.key ≠ Reg.HUBA_STATUS_CFG_REJ.key → t.get f = s.get f := by
  intro t
  have written : t = s.put Reg.HUBA_STATUS_CFG_REJ
    (s.get Reg.HUBA_STATUS_CFG_REJ - Nat.land (s.get Reg.HUBA_STATUS_CFG_REJ) (v.toNat % 2)) := State.writePlain_hubFlag v.toNat
  rw [written]
  refine ⟨rfl, ?_, fun f other => State.get_put_ne _ other _⟩
  rw [State.bit_put_same _ rfl, State.bit, getLsbD_zero]
  rcases Nat.mod_two_eq_zero_or_one v.toNat with even | odd
  · rw [even, show Nat.land (s.get Reg.HUBA_STATUS_CFG_REJ) 0 = 0 from Nat.and_zero _]
    simp
  · rw [odd, show Nat.land (s.get Reg.HUBA_STATUS_CFG_REJ) 1 = s.get Reg.HUBA_STATUS_CFG_REJ % 2 from Nat.and_one_is_mod _]
    simp
    omega

theorem State.standbyWrite_rejects (up : s.hostUp = true) (policy : s.bit Reg.PWR_POLICY_HOST_STANDBY = false) :
    s.standbyWrite = State.put { s with ctr := s.ctr + 3 } Reg.PWR_STATUS_CFG_REJ 1 := by
  exact congrArg (onNext · _) (exec_pwrStandby_rejects _ _ (s := { s with ctr := s.ctr + 3 }) up policy)

theorem State.standbyWrite_ramps (up : s.hostUp = true) (policy : s.bit Reg.PWR_POLICY_HOST_STANDBY = true)
    (started : s.pwr.started = true) (idle : s.pwr.afterRamp = none) {d : Nat} (on : d ∈ s.rampedDomains)
    (block : 0 < (s.dom d).block) : ∃ n r, s.standbyWrite =
      State.rampDown { s with ctr := s.ctr + 3 } (.standby s.commits n r) := by
  exact ⟨_, _, congrArg (onNext · _) (exec_pwrStandby_waits _ _ (s := { s with ctr := s.ctr + 3 }) up policy started idle on block)⟩

/-- GO outside an engine's normal state: the write reaches its register in recovery. -/
theorem exec_registerWrite_go (lives : s.get Reg.TRUST_STATE_LCS ≠ 5) (recovery : s.bit Reg.TRUST_STATE_RECOVERY = true) {v : BitVec 32}
    (one : v.getLsbD 0 = true) : exec (.registerWrite false 0x120CC v 15) s = .next (s.put Reg.TRUST_RCV_STATUS_STATE 1) := by
  have answers : s.answers 0x120CC = true := by
    rw [State.answers, bne_iff_ne.2 lives, Bool.and_true]
    exact Bool.or_true _
  have accepted : (!s.bit Reg.GLOBAL_RESTORE_DONE && s.changesRestored 0x120CC v.toNat) = false := by
    unfold State.changesRestored
    rw [pairAt_go.1]
    dsimp only
    rw [State.changes_of_not_rw pairAt_go.2, List.any_nil, Bool.and_false]
  have odd : v.toNat % 2 = 1 := beq_iff_eq.1 ((getLsbD_zero v).symm.trans one)
  rw [exec_registerWrite_at (o := 0x120CC) (by decide), State.writeBar0_register answers (by decide) accepted pairAt_go.1,
    State.writeRegister_go odd recovery]

/-! ### The clears of the counters -/

theorem clears_of_exec {i : Instr} {l : List Fld} (up : s.hostUp = true)
    (run : exec i s = s.ifHost (.next (s.clear l))) : ∃ t, exec i s = .next t ∧ ClearsCounters s t l [] :=
  ⟨_, run.trans (State.ifHost_up up _), .of_clear s l⟩

theorem clearsMarks_of_exec {i : Instr} {l : List Fld} {m : Fld} {v : Nat} (up : s.hostUp = true)
    (apart : m.key ∉ l.map Fld.key) (run : exec i s = s.ifHost (.next ((s.clear l).put m v))) :
    ∃ t, exec i s = .next t ∧ ClearsCounters s t l [(m, v)] :=
  ⟨_, run.trans (State.ifHost_up up _), .mark s apart v⟩

theorem pourMark_apart : Reg.SCHED_POUR_LIVE_HWM.key ∉ [Reg.SCHED_CUT_CNT_COUNT, Reg.SCHED_PARAM_CLAMP_CNT_COUNT,
    Reg.SCHED_RAMP_RAISE_CNT_COUNT, Reg.SCHED_DRAM_ECC_CORR, Reg.SCHED_DRAM_ECC_UNCORR, Reg.SCHED_POUR_LATE_CNT_COUNT,
    Reg.SCHED_POUR_REF_CNT_COUNT, Reg.SCHED_POUR_PART_CNT_COUNT].map Fld.key := by decide

theorem poolMark_apart : Reg.AES_ASRC_POOL_HWM.key ∉ ((List.range 8).map Reg.AES_RX_ERR_CNT_PARITY ++
    (List.range 8).map Reg.AES_RX_ERR_CNT_CRC ++ [Reg.AES_ASRC_POOL_RETRACK]).map Fld.key := by decide

end Sys2Proof.Machine

namespace Sys2Proof.Machine

/-- Settles O55: an access is discarded, or is the write of its register; each clear of counters is a clear of the listed fields; and
the pads' commands write the pad's own fields. -/
theorem registerAccessCountersAndPads : Obligations.RegisterAccessCountersAndPads := by
  unfold Obligations.RegisterAccessCountersAndPads
  refine ⟨fun off v be s up => registerWrite_discards off v be up, fun v s up restored => ⟨?_, exec_registerWrite_doorbell up v, ?_,
    fun within => ?_, fun beyond => ?_, fun one policy => ?_, fun one policy started idle on => ?_⟩,
    fun v s lives recovery one => exec_registerWrite_go lives recovery one, fun off r f s up => ⟨fun pair => ?_, fun pair => ?_⟩,
    fun x p s up => ?_, fun k v s up restored => ⟨?_, ?_⟩, fun k s => ⟨exec_pinfnChange_waits, ?_, ?_⟩,
    fun k s => ⟨exec_pinfnParkEnd_idle, fun fn parked => ⟨_, exec_pinfnParkEnd parked, s.padTaken_shows k fn⟩⟩⟩
  · rw [exec_registerWrite_restored up restored (o := 0x1048) (by decide) (by decide) pairAt_counts.1, State.writeRegister_counts]
  · rw [exec_registerWrite_restored up restored (o := 0x8000) (by decide) (by decide) pairAt_hub, State.writeRegister_hubFlag]
    exact ⟨_, rfl, State.hubFlag_cleared v⟩
  · rw [exec_registerWrite_restored up restored (o := 0x101C) (by decide) (by decide) pairAt_unmute, State.writeRegister_unmute,
      State.writePlain_unmute within]
  · rw [exec_registerWrite_restored up restored (o := 0x101C) (by decide) (by decide) pairAt_unmute, State.writeRegister_unmute,
      State.writePlain_unmute_beyond beyond]
  · rw [exec_registerWrite_restored up restored (o := 0x1004) (by decide) (by decide) pairAt_standby,
      State.writeRegister_standby (beq_iff_eq.1 ((getLsbD_zero v).symm.trans one)), State.standbyWrite_rejects up policy]
  · obtain ⟨d, inside, configured, running, block⟩ := on
    obtain ⟨n, r, ramps⟩ := State.standbyWrite_ramps up policy started idle (State.mem_rampedDomains.2 ⟨inside, configured, running⟩) block
    rw [exec_registerWrite_restored up restored (o := 0x1004) (by decide) (by decide) pairAt_standby,
      State.writeRegister_standby (beq_iff_eq.1 ((getLsbD_zero v).symm.trans one)), ramps]
    rw [State.rampDown_eq]
    exact ⟨_, rfl, Option.some_ne_none _, started, rfl, rfl⟩
  · exact ⟨⟨_, exec_pairLoRead up pair false, Tab.get_put_same 0 s.latch f.off (s.get f / 2 ^ 32 + 1), rfl⟩,
      ⟨_, exec_pairLoRead up pair true, Tab.get_put_same 0 s.latch f.off 0, rfl⟩⟩
  · refine ⟨fun loaded => ⟨_, (exec_pairHiRead up pair).trans (congrArg _ (if_pos loaded)), Tab.get_put_same 0 s.latch f.off 0, rfl⟩,
      fun stale => ⟨_, (exec_pairHiRead up pair).trans (congrArg _ (if_neg (not_not.2 stale))), s.staleRead_shows _⟩⟩
  · change ∀ e ∈ (_ : List (Instr × List Fld × List (Fld × Nat))), ∃ t, exec e.1 s = .next t ∧ ClearsCounters s t e.2.1 e.2.2
    refine List.forall_mem_cons.2 ⟨clearsMarks_of_exec up pourMark_apart rfl, List.forall_mem_cons.2 ⟨clears_of_exec up rfl,
      List.forall_mem_cons.2 ⟨clears_of_exec up rfl, List.forall_mem_cons.2 ⟨clears_of_exec up rfl,
        List.forall_mem_cons.2 ⟨clears_of_exec up rfl,
      List.forall_mem_cons.2 ⟨clears_of_exec up rfl, List.forall_mem_cons.2 ⟨clearsMarks_of_exec up poolMark_apart rfl,
      List.forall_mem_cons.2 ⟨clears_of_exec up rfl, List.forall_mem_cons.2 ⟨clears_of_exec up rfl,
        List.forall_mem_cons.2 ⟨clears_of_exec up rfl,
      List.forall_mem_cons.2 ⟨clears_of_exec up rfl, List.forall_mem_cons.2 ⟨clears_of_exec up rfl,
        List.forall_mem_cons.2 ⟨clears_of_exec up rfl,
      List.forall_mem_cons.2 ⟨clears_of_exec up rfl, List.forall_mem_singleton.2 (clears_of_exec up rfl)⟩⟩⟩⟩⟩⟩⟩⟩⟩⟩⟩⟩⟩⟩
  · rintro (reserved | twice)
    · rw [exec_pinfnWrite up restored, State.pinWrite_refused (.inl reserved)]
    · rw [exec_pinfnWrite up restored, State.pinWrite_refused (.inr twice)]
  · exact fun known once => ⟨_, exec_pinfnWrite up restored k v,
      State.pinWrite_shows (not_or.2 ⟨Nat.not_le.2 known, once⟩)⟩
  · exact fun ⟨moves, pending⟩ same => ⟨_, (exec_pinfnChange_moves moves pending).trans (congrArg _ (if_pos same)),
      State.padConfigured_shows same⟩
  · exact fun ⟨moves, pending⟩ other => ⟨_, (exec_pinfnChange_moves moves pending).trans (congrArg _ (if_neg other)),
      s.padParked_shows k _⟩

end Sys2Proof.Machine
end

