-- ==== Sys2Proof/Proofs/PairWork.lean ====
section
/-! SUPPORT. What the operations of a redundant pair leave (R759-R779): messages write only the link's queues, the gate only what follows
it, and a change of role only the pair's own registers and state. -/

namespace Sys2Proof.Machine
variable {l : List Fld} {s t u : State} {m : PairMsg}

/-! ### Work of the pair -/

/-- `t` differs from `s` in registers of `l`, in the host interface, in the link's queues, in the gates of the edge and in the pair's
own state; the parts below are as they were. -/
structure PairWork (l : List Fld) (s t : State) : Prop where
  regs : WritesOnly l s t
  pending : t.pending = s.pending
  units : t.units = s.units
  clusters : t.clusters = s.clusters
  doms : t.doms = s.doms
  mix : t.mix = s.mix
  sched : t.sched = s.sched
  pours : t.pours = s.pours
  store : t.store = s.store
  pwr : t.pwr = s.pwr
  trust : t.trust = s.trust

theorem PairWork.refl : PairWork l s s := ⟨.refl, rfl, rfl, rfl, rfl, rfl, rfl, rfl, rfl, rfl, rfl⟩

theorem PairWork.trans (a : PairWork l s t) (b : PairWork l t u) : PairWork l s u where
  regs := a.regs.trans b.regs
  pending := b.pending.trans a.pending
  units := b.units.trans a.units
  clusters := b.clusters.trans a.clusters
  doms := b.doms.trans a.doms
  mix := b.mix.trans a.mix
  sched := b.sched.trans a.sched
  pours := b.pours.trans a.pours
  store := b.store.trans a.store
  pwr := b.pwr.trans a.pwr
  trust := b.trust.trans a.trust

theorem PairWork.mono {k : List Fld} (sub : l ⊆ k) (h : PairWork l s t) : PairWork k s t := { h with regs := h.regs.mono sub }

theorem PairWork.put {g : Fld} (mem : g ∈ l) (v : Nat) : PairWork l s (s.put g v) :=
  ⟨.put mem v, rfl, rfl, rfl, rfl, rfl, rfl, rfl, rfl, rfl, rfl⟩

theorem PairWork.clear {fs : List Fld} (sub : fs ⊆ l) : PairWork l s (s.clear fs) :=
  List.foldlRecOn (motive := PairWork l s) fs _ .refl fun _ kept _ mem => kept.trans (.put (sub mem) 0)

theorem PairWork.host (h : SameButHost s t) : PairWork l s t :=
  ⟨.host h, h.pending, h.units, h.clusters, h.doms, h.mix, h.sched, h.pours, h.store, h.pwr, h.trust⟩

theorem PairWork.post (s : State) (c : EvClass) (v : Option Nat) (e : Event) : PairWork l s (s.post c v e) := .host (SameButHost.post ..)

theorem PairWork.postNow (s : State) (c : EvClass) (v : Option Nat) (k : Nat) (b : List Nat) : PairWork l s (s.postNow c v k b) :=
  .host (SameButHost.postNow ..)

theorem PairWork.pairEvent (s : State) (cause : Nat) (st : Status) : PairWork l s (s.pairEvent cause st) := .post ..

theorem PairWork.modPair (s : State) (f : PairSt → PairSt) : PairWork l s (s.modPair f) :=
  ⟨.of_regs rfl, rfl, rfl, rfl, rfl, rfl, rfl, rfl, rfl, rfl, rfl⟩

theorem PairWork.take : PairWork l s s.take := ⟨.of_regs rfl, rfl, rfl, rfl, rfl, rfl, rfl, rfl, rfl, rfl, rfl⟩

theorem PairWork.ite {c : Prop} [Decidable c] (a : PairWork l s t) (b : PairWork l s u) : PairWork l s (if c then t else u) := by
  split
  · exact a
  · exact b

theorem PairWork.each {α : Type} {xs : List α} {f : α → State → State} (h : ∀ x ∈ xs, ∀ t, PairWork l t (f x t)) :
    PairWork l s (s.each xs f) :=
  State.each_keeps_mem (PairWork l s) f s xs (fun x mem t kept => kept.trans (h x mem t)) .refl

theorem PairWork.dom (h : PairWork l s t) (d : Nat) : t.dom d = s.dom d := by
  unfold State.dom
  rw [h.doms]
theorem PairWork.now (h : PairWork l s t) : t.now = s.now := congrArg DomSt.si (h.dom 0)
theorem PairWork.blockP (h : PairWork l s t) : t.blockP = s.blockP := congrArg DomSt.block (h.dom 0)
theorem PairWork.get (h : PairWork l s t) {f : Fld} (free : f.FreeOf l) : t.get f = s.get f := h.regs f free
theorem PairWork.bit (h : PairWork l s t) {f : Fld} (free : f.FreeOf l) : t.bit f = s.bit f := h.regs.bit free

/-! ### Messages -/

/-- Only the link's queues differ. -/
def Sends (s t : State) : Prop := ∃ wl, t = { s with wl := wl }

theorem Sends.refl : Sends s s := ⟨_, rfl⟩

theorem Sends.trans (a : Sends s t) (b : Sends t u) : Sends s u := by
  obtain ⟨_, rfl⟩ := a
  obtain ⟨_, rfl⟩ := b
  exact ⟨_, rfl⟩

theorem Sends.regs (h : Sends s t) : t.regs = s.regs := by obtain ⟨_, rfl⟩ := h; rfl
theorem Sends.pair (h : Sends s t) : t.pair = s.pair := by obtain ⟨_, rfl⟩ := h; rfl
theorem Sends.units (h : Sends s t) : t.units = s.units := by obtain ⟨_, rfl⟩ := h; rfl
theorem Sends.doms (h : Sends s t) : t.doms = s.doms := by obtain ⟨_, rfl⟩ := h; rfl

theorem PairWork.sends (h : Sends s t) : PairWork l s t := by
  obtain ⟨_, rfl⟩ := h
  exact ⟨.of_regs rfl, rfl, rfl, rfl, rfl, rfl, rfl, rfl, rfl, rfl, rfl⟩

theorem Sends.sendCtrl (s : State) (dev : Nat) (x : WlPayload) : Sends s (s.sendCtrl dev x) := by
  unfold State.sendCtrl
  split_ifs
  · exact ⟨_, rfl⟩
  · exact ⟨_, rfl⟩
  · exact .refl

theorem Sends.sendPair (s : State) (x : PairMsg) : Sends s (s.sendPair x) := by
  unfold State.sendPair
  dsimp only
  split <;> exact ⟨_, rfl⟩

theorem Sends.sendWitness (s : State) (x : PairMsg) : Sends s (s.sendWitness x) := .sendCtrl ..
theorem Sends.sendBoth (s : State) (x : PairMsg) : Sends s (s.sendBoth x) := (Sends.sendPair s x).trans (.sendWitness _ x)
theorem Sends.answerPair (s : State) (x : PairMsg) (refuse : Bool) (si : Nat) : Sends s (s.answerPair x refuse si) := .sendPair ..
theorem Sends.witAnswer (s : State) (kind : Nat) (x : PairMsg) (e : Nat) (a b : Bool) : Sends s (s.witAnswer kind x e a b) := .sendCtrl ..

/-! ### The gate -/

theorem PairWork.showGated (sub : gatedRegs ⊆ l) : PairWork l s s.showGated :=
  .each fun _ mem _ => .put (sub (List.mem_map_of_mem mem)) _

theorem PairWork.followGate (sub : gatedRegs ⊆ l) (s : State) (closed : Bool) : PairWork l s (s.followGate closed) := by
  have ramp : PairWork l s.showGated (s.showGated.each (List.range 2) fun n t => t.modConv (2 + n) fun x =>
      { x with txGate := gateTo x.txGate closed t.conv2ms (t.convSi 0) }) :=
    .each fun _ _ _ => ⟨.of_regs rfl, rfl, rfl, rfl, rfl, rfl, rfl, rfl, rfl, rfl, rfl⟩
  exact ((PairWork.showGated sub).trans ramp).trans
    (.each fun _ _ _ => ⟨.of_regs rfl, rfl, rfl, rfl, rfl, rfl, rfl, rfl, rfl, rfl, rfl⟩)

/-- The registers that a move of the gate writes. -/
def gateRegs : List Fld := Reg.PAIR_STATUS_GATE_OPEN :: gatedRegs

theorem PairWork.gateDown (sub : gateRegs ⊆ l) (s : State) : PairWork l s s.gateDown := by
  obtain ⟨open_, gated⟩ := List.cons_subset.1 sub
  exact .ite ((PairWork.put open_ 0).trans (.followGate gated _ true)) .refl

theorem PairWork.openGate (sub : gateRegs ⊆ l) (s : State) : PairWork l s s.openGate := by
  obtain ⟨open_, gated⟩ := List.cons_subset.1 sub
  exact .ite ((PairWork.put open_ 1).trans (.followGate gated _ false)) .refl

theorem PairWork.closeGate (sub : Reg.PAIR_STATUS_ROLE :: gateRegs ⊆ l) (s : State) : PairWork l s s.closeGate := by
  obtain ⟨role, gate⟩ := List.cons_subset.1 sub
  have down := PairWork.gateDown gate s
  exact .ite ((down.trans (.put role 3)).trans (.pairEvent ..)) down

theorem State.openGate_pair (s : State) : s.openGate.pair = s.pair := by
  unfold State.openGate
  split
  · exact (SameButGated.followGate ..).pair
  · rfl

theorem gateRegs_apart : Reg.PAIR_STATUS_GATE_OPEN.FreeOf gatedRegs ∧ Reg.PAIR_STATUS_ROLE.FreeOf gateRegs ∧
    Reg.PAIR_EPOCH_EPOCH.FreeOf gateRegs ∧ Reg.PAIR_CFG_EN.FreeOf gateRegs := by decide

/-- Where nothing else closes the gate, it opens. -/
theorem State.openGate_opens (free : s.gateFree = true) : s.openGate.bit Reg.PAIR_STATUS_GATE_OPEN = true := by
  unfold State.openGate
  rw [free, Bool.true_and]
  split
  · exact ((PairWork.followGate (l := gatedRegs) (List.Subset.refl _) (s.set Reg.PAIR_STATUS_GATE_OPEN) false).bit gateRegs_apart.1).trans
      (State.bit_set_same s rfl)
  · next open_ => simpa using open_

/-! ### Roles -/

/-- The pair's own status registers, and those of the gate. -/
def roleRegs : List Fld := [Reg.PAIR_STATUS_ROLE, Reg.PAIR_EPOCH_EPOCH, Reg.PAIR_STATUS_SUSPECT, Reg.PAIR_STATUS_READY,
  Reg.PAIR_STATUS_SYNC] ++ gateRegs

theorem PairWork.becomeReady (mem : Reg.PAIR_STATUS_READY ∈ l) (s : State) : PairWork l s s.becomeReady :=
  .ite .refl ((PairWork.put mem 1).trans (.pairEvent ..))

theorem State.becomeReady_ready (s : State) : s.becomeReady.bit Reg.PAIR_STATUS_READY = true := by
  unfold State.becomeReady
  split
  · assumption
  · exact ((PairWork.pairEvent (l := []) (s.set Reg.PAIR_STATUS_READY) 3 .ok).bit (by decide)).trans (State.bit_set_same s rfl)

theorem State.becomeReady_pair (s : State) : s.becomeReady.pair = s.pair := by
  unfold State.becomeReady
  split
  · rfl
  · exact (State.post_pair ..).trans rfl

/-- The registers of a standby that is no longer trusted. -/
def suspectRegs : List Fld := [Reg.PAIR_STATUS_SUSPECT, Reg.PAIR_STATUS_READY, Reg.PAIR_STATUS_SYNC]

/-- The registers of a standby that is no longer trusted, written. -/
def State.suspected (s : State) : State := ((s.set Reg.PAIR_STATUS_SUSPECT).put Reg.PAIR_STATUS_READY 0).put Reg.PAIR_STATUS_SYNC 1

theorem State.suspected_shows (s : State) : s.suspected.bit Reg.PAIR_STATUS_SUSPECT = true ∧
    s.suspected.bit Reg.PAIR_STATUS_READY = false ∧ s.suspected.get Reg.PAIR_STATUS_SYNC = 1 := by
  refine ⟨?_, ?_, State.get_put_same _ _ 1⟩
  · exact (State.bit_put_ne _ (by decide) _).trans ((State.bit_put_ne _ (by decide) _).trans (State.bit_set_same s rfl))
  · exact (State.bit_put_ne _ (by decide) _).trans (State.bit_put_same _ rfl 0)

/-- The state of a pair whose standby is no longer trusted. -/
def PairSt.distrusted (p : PairSt) (now : Nat) : PairSt :=
  { p with resyncAt := now, digests := [], mismatches := 0, matches_ := 0, verdictOwn := none, verdictPartner := none }

theorem State.becomeSuspect_eq (s : State) :
    s.becomeSuspect = (s.suspected.modPair fun p => p.distrusted s.now).pairEvent 2 .suspect := rfl

theorem PairWork.becomeSuspect (s : State) : PairWork suspectRegs s s.becomeSuspect := by
  have written : PairWork suspectRegs s s.suspected :=
    ((PairWork.put (by simp [suspectRegs]) 1).trans (.put (by simp [suspectRegs]) 0)).trans (.put (by simp [suspectRegs]) 1)
  exact (written.trans (.modPair _ fun p => p.distrusted s.now)).trans (.pairEvent ..)

theorem State.becomeSuspect_pair (s : State) : s.becomeSuspect.pair = s.pair.distrusted s.now := by
  rw [State.becomeSuspect_eq]
  exact State.post_pair ..

theorem State.becomeSuspect_shows (s : State) : s.becomeSuspect.bit Reg.PAIR_STATUS_SUSPECT = true ∧
    s.becomeSuspect.bit Reg.PAIR_STATUS_READY = false ∧ s.becomeSuspect.get Reg.PAIR_STATUS_SYNC = 1 := by
  have rest : PairWork [] s.suspected s.becomeSuspect :=
    (PairWork.modPair _ fun p => p.distrusted s.now).trans (.pairEvent ..)
  obtain ⟨suspect, ready, sync⟩ := s.suspected_shows
  exact ⟨(rest.bit (by decide)).trans suspect, (rest.bit (by decide)).trans ready, (rest.get (by decide)).trans sync⟩

/-- The pair's state as a member enters STANDBY. -/
def PairSt.inStandby (p : PairSt) (now : Nat) : PairSt :=
  { renewNum := p.renewNum, heardAt := some now, partnerAt := p.partnerAt, witnessAt := p.witnessAt, errAt := p.errAt,
    resyncAt := now, replica := p.replica, replicaAt := p.replicaAt, seen := p.seen, witness := p.witness,
    refxoGate := p.refxoGate }

/-- The registers of a member that enters STANDBY, written. -/
def State.standbyRegs (s : State) (e : Nat) : State :=
  ((((s.gateDown.put Reg.PAIR_STATUS_ROLE 2).put Reg.PAIR_EPOCH_EPOCH e).put Reg.PAIR_STATUS_SUSPECT 0).put Reg.PAIR_STATUS_READY 0).putBit
    Reg.PAIR_STATUS_SYNC (!s.coldMode)

theorem State.standbyRegs_shows (s : State) (e : Nat) : (s.standbyRegs e).get Reg.PAIR_STATUS_ROLE = 2 ∧
    (s.standbyRegs e).get Reg.PAIR_EPOCH_EPOCH = e % 2 ^ 32 ∧ (s.standbyRegs e).bit Reg.PAIR_STATUS_GATE_OPEN = false := by
  have last (v : State) : WritesOnly [Reg.PAIR_STATUS_SUSPECT, Reg.PAIR_STATUS_READY, Reg.PAIR_STATUS_SYNC] v
      (((v.put Reg.PAIR_STATUS_SUSPECT 0).put Reg.PAIR_STATUS_READY 0).putBit Reg.PAIR_STATUS_SYNC (!s.coldMode)) :=
    ((WritesOnly.put (by simp) 0).trans (.put (by simp) 0)).trans (.put (by simp) _)
  have rest := last ((s.gateDown.put Reg.PAIR_STATUS_ROLE 2).put Reg.PAIR_EPOCH_EPOCH e)
  refine ⟨(rest _ (by decide)).trans ?_, (rest _ (by decide)).trans ?_, (rest.bit (by decide)).trans ?_⟩
  · exact (State.get_put_ne _ (by decide) _).trans (State.get_put_same _ _ 2)
  · exact State.get_put_same _ _ e
  · exact (State.bit_put_ne _ (by decide) _).trans ((State.bit_put_ne _ (by decide) _).trans s.gateDown_shows.1)

theorem PairWork.standbyRegs (s : State) (e : Nat) : PairWork roleRegs s (s.standbyRegs e) :=
  (((((PairWork.gateDown (l := roleRegs) (List.subset_append_right ..) s).trans
    (.put (g := Reg.PAIR_STATUS_ROLE) (by simp [roleRegs]) 2)).trans (.put (g := Reg.PAIR_EPOCH_EPOCH) (by simp [roleRegs]) e)).trans
    (.put (g := Reg.PAIR_STATUS_SUSPECT) (by simp [roleRegs]) 0)).trans (.put (g := Reg.PAIR_STATUS_READY) (by simp [roleRegs]) 0)).trans
    (.put (g := Reg.PAIR_STATUS_SYNC) (by simp [roleRegs]) _)

/-- The member in STANDBY, before a COLD one with a fresh replica is READY. -/
def State.standbyEntered (s : State) (e : Nat) : State := ((s.standbyRegs e).modPair fun p => p.inStandby s.now).pairEvent 1 .ok

theorem State.enterStandby_eq (s : State) (e : Nat) : s.enterStandby e =
    if (s.coldMode && s.replicaFresh) = true then (s.standbyEntered e).becomeReady else s.standbyEntered e := rfl

/-- Entering STANDBY ends with an event, and perhaps with READY. -/
theorem PairWork.standbyEnds (s : State) (e : Nat) : PairWork [Reg.PAIR_STATUS_READY] (s.standbyRegs e) (s.enterStandby e) := by
  have entered : PairWork [Reg.PAIR_STATUS_READY] (s.standbyRegs e) (s.standbyEntered e) :=
    (PairWork.modPair _ fun p => p.inStandby s.now).trans (.pairEvent ..)
  rw [State.enterStandby_eq]
  exact .ite (entered.trans (.becomeReady List.mem_cons_self _)) entered

theorem PairWork.enterStandby (s : State) (e : Nat) : PairWork roleRegs s (s.enterStandby e) :=
  (PairWork.standbyRegs s e).trans ((PairWork.standbyEnds s e).mono (by simp [roleRegs]))

theorem State.enterStandby_shows (s : State) (e : Nat) : (s.enterStandby e).get Reg.PAIR_STATUS_ROLE = 2 ∧
    (s.enterStandby e).get Reg.PAIR_EPOCH_EPOCH = e % 2 ^ 32 ∧ (s.enterStandby e).bit Reg.PAIR_STATUS_GATE_OPEN = false := by
  obtain ⟨role, epoch, closed⟩ := s.standbyRegs_shows e
  have ends := PairWork.standbyEnds s e
  exact ⟨(ends.get (by decide)).trans role, (ends.get (by decide)).trans epoch, (ends.bit (by decide)).trans closed⟩

/-! ### The messages that the engine acts on -/

/-- The first of two copies is noted. -/
def State.noted (s : State) (m : PairMsg) : State :=
  if s.bit Reg.PAIR_CFG_NETBACK = false then s else s.modPair fun p => { p with seen := (p.seen ++ [m]).drop (p.seen.length - 63) }

/-- The engine as it hears a message of its partner that it has not had before. -/
def State.told (s : State) (m : PairMsg) : State := (s.noted m).heardPartner m

theorem State.onPartner_told (told : s.toldBy m) (f : State → State) : s.onPartner m f = f (s.told m) := by
  obtain ⟨accepts, partner, agrees, fresh⟩ := told
  unfold State.onPartner State.firstCopy State.told State.noted
  rw [accepts, partner, if_neg (by decide)]
  cases net : s.bit Reg.PAIR_CFG_NETBACK with
  | false => exact if_pos agrees
  | true =>
    have new : s.pair.seen.contains m = false := fresh.resolve_left (by rw [net]; decide)
    rw [if_neg (by decide), new]
    exact if_pos agrees

/-- The registers that show what has been heard. -/
def heardRegs : List Fld := [Reg.PAIR_STATUS_PARTNER_SEEN, Reg.PAIR_STATUS_READY_PARTNER, Reg.PAIR_STATUS_WITNESS_SEEN]

theorem PairWork.told (s : State) (m : PairMsg) : PairWork heardRegs s (s.told m) := by
  have copy : PairWork heardRegs s (s.noted m) := .ite .refl (.modPair ..)
  have heard : PairWork heardRegs (s.noted m)
      (((s.noted m).set Reg.PAIR_STATUS_PARTNER_SEEN).putBit Reg.PAIR_STATUS_READY_PARTNER m.ready) :=
    (PairWork.put (by simp [heardRegs]) 1).trans (.put (by simp [heardRegs]) _)
  exact (copy.trans heard).trans (.modPair _ fun p => { p with partnerAt := some (s.noted m).now })

theorem State.told_pair (s : State) (m : PairMsg) : ∃ seen, (s.told m).pair = { s.pair with seen := seen, partnerAt := some s.now } := by
  unfold State.told State.noted
  split <;> exact ⟨_, rfl⟩

theorem State.told_seen (s : State) (m : PairMsg) : (s.told m).bit Reg.PAIR_STATUS_PARTNER_SEEN = true := by
  refine (State.bit_put_ne _ (by decide) _).trans (State.bit_set_same _ rfl)

theorem State.onWitness_heard (accepts : s.accepts m = true) (witness : s.fromWitness m = true) (f : State → State) :
    s.onWitness m f = f s.heardWitness := by
  rw [State.onWitness, accepts, witness]
  rfl

theorem PairWork.heardWitness (s : State) : PairWork heardRegs s s.heardWitness :=
  (PairWork.put (by simp [heardRegs]) 1).trans (.modPair ..)

end Sys2Proof.Machine
end

