-- ==== Sys2Proof/Proofs/PairLease.lean ====
section
/-! PROOF. The lease of a redundant pair (R760-R769, R777, R778, R787): pairing, renewal, claims, the witness, yields and swaps. -/

namespace Sys2Proof.Machine
variable {s t u : State} {m : PairMsg}

/-! ### Enabling (R760) -/

theorem State.writeField_regs (s : State) (v : Nat) (x : RegRow × Fld) : ∃ r, s.writeField v x = { s with regs := r } := by
  unfold State.writeField
  split <;> exact ⟨_, rfl⟩

theorem State.writePlain_regs (s : State) (o v : Nat) : ∃ r, s.writePlain o v = { s with regs := r } := by
  have fields : ∀ l : List (RegRow × Fld), ∃ r, l.foldl (fun t x => t.writeField v x) s = { s with regs := r } := fun l =>
    List.foldlRecOn (motive := fun t => ∃ r, t = { s with regs := r }) l _ ⟨_, rfl⟩ fun t kept x _ => by
      obtain ⟨_, rfl⟩ := kept
      exact State.writeField_regs _ v x
  unfold State.writePlain State.reject
  split
  · split
    · exact ⟨_, rfl⟩
    · exact ⟨_, rfl⟩
  · exact fields _

/-- PAIR_CFG written, with EN as it was. -/
def State.pairCfg (s : State) (v : Nat) (en : Bool) : State := (s.writePlain 0x13000 v).putBit Reg.PAIR_CFG_EN en

theorem State.pairCfg_regs (s : State) (v : Nat) (en : Bool) : ∃ r, s.pairCfg v en = { s with regs := r } := by
  obtain ⟨r, eq⟩ := s.writePlain_regs 0x13000 v
  unfold State.pairCfg
  rw [eq]
  exact ⟨_, rfl⟩

section
variable {v : BitVec 32}

theorem exec_pairEnWrite (up : s.hostUp = true) (restored : s.bit Reg.GLOBAL_RESTORE_DONE = true) :
    exec (.pairEnWrite v) s = .next (s.pairEnWrite v.toNat) := State.ifRestored_of up restored _ _ _

theorem State.pairEnWrite_refused (refused : s.refusesWrite 0x13000 v.toNat = true) :
    s.pairEnWrite v.toNat = s.put Reg.PAIR_STATUS_CFG_REJ 1 := (if_pos refused).trans rfl

theorem State.pairEnWrite_off (accepted : s.refusesWrite 0x13000 v.toNat = false) (en : s.bit Reg.PAIR_CFG_EN = true)
    (off : v.getLsbD 0 = false) : s.pairEnWrite v.toNat = ((s.pairCfg v.toNat true).put Reg.PAIR_CFG_EN 0).becomeSolo := by
  rw [getLsbD_zero] at off
  unfold State.pairEnWrite
  rw [accepted, if_neg Bool.false_ne_true, en, off]
  exact (if_neg (by decide)).trans (if_pos rfl)

theorem State.pairEnWrite_on (accepted : s.refusesWrite 0x13000 v.toNat = false) (off : s.bit Reg.PAIR_CFG_EN = false)
    (en : v.getLsbD 0 = true) : s.pairEnWrite v.toNat = if (s.pairCfg v.toNat false).pairRefused
      then (s.pairCfg v.toNat false).reject 0x13000 else (s.pairCfg v.toNat false).beginPairing := by
  rw [getLsbD_zero] at en
  unfold State.pairEnWrite
  rw [accepted, if_neg Bool.false_ne_true, off, en]
  exact (if_neg (by decide)).trans (if_neg (by decide))

end

/-- The registers that a SOLO engine shows clear. -/
def soloRegs : List Fld := [Reg.PAIR_STATUS_ROLE, Reg.PAIR_STATUS_READY, Reg.PAIR_STATUS_READY_PARTNER, Reg.PAIR_STATUS_SUSPECT,
    Reg.PAIR_STATUS_SYNC, Reg.PAIR_STATUS_PARTNER_SEEN, Reg.PAIR_STATUS_WITNESS_SEEN, Reg.PAIR_EPOCH_EPOCH]

theorem State.becomeSolo_eq (s : State) : s.becomeSolo = ((s.clear soloRegs).modPair fun p =>
    { errAt := p.errAt, seen := [], witness := p.witness, refxoGate := p.refxoGate }).reopenGate := rfl

theorem State.becomeSolo_shows (s : State) : s.becomeSolo.bit Reg.PAIR_CFG_EN = s.bit Reg.PAIR_CFG_EN ∧
    s.becomeSolo.get Reg.PAIR_STATUS_ROLE = 0 ∧ s.becomeSolo.get Reg.PAIR_EPOCH_EPOCH = 0 ∧ s.becomeSolo.pair.listening = none ∧
    s.becomeSolo.units = s.units := by
  have cleared : PairWork soloRegs s (s.clear soloRegs) := .clear (List.Subset.refl _)
  generalize solo : ((s.clear soloRegs).modPair fun p =>
    { errAt := p.errAt, seen := [], witness := p.witness, refxoGate := p.refxoGate }) = v
  have gate : PairWork gateRegs v v.reopenGate := .ite (.openGate (List.Subset.refl _) v) .refl
  have pair : v.reopenGate.pair = v.pair := by
    unfold State.reopenGate
    split
    · exact v.openGate_pair
    · rfl
  rw [State.becomeSolo_eq, solo]
  subst solo
  refine ⟨(gate.bit (by decide)).trans (cleared.bit (by decide)), (gate.get (by decide)).trans ?_, (gate.get (by decide)).trans ?_, ?_,
    gate.units.trans cleared.units⟩
  · exact State.get_clear_mem (s := s) (f := Reg.PAIR_STATUS_ROLE) (by decide)
  · exact State.get_clear_mem (s := s) (f := Reg.PAIR_EPOCH_EPOCH) (by decide)
  · rw [pair]
    rfl

/-- The registers of a member that begins to listen. -/
def State.listenRegs (s : State) : State := ((s.set Reg.PAIR_CFG_EN).put Reg.PAIR_STATUS_ROLE 3).put Reg.PAIR_EPOCH_EPOCH 0

/-- A member that begins to listen, its gate not yet moved. -/
def State.listens (s : State) : State := s.listenRegs.modPair fun p =>
  { errAt := p.errAt, listening := some s.now, witness := p.witness, refxoGate := p.refxoGate }

theorem State.beginPairing_eq (s : State) : s.beginPairing =
    if s.listens.bit Reg.PAIR_STATUS_GATE_OPEN then s.listens.gateDown.pairEvent 6 .ok else s.listens := rfl

theorem State.beginPairing_shows (s : State) : s.beginPairing.bit Reg.PAIR_CFG_EN = true ∧ s.beginPairing.get Reg.PAIR_STATUS_ROLE = 3 ∧
    s.beginPairing.bit Reg.PAIR_STATUS_GATE_OPEN = false ∧ s.beginPairing.pair.listening = some s.now ∧
    s.beginPairing.units = s.units := by
  have en : s.listens.bit Reg.PAIR_CFG_EN = true :=
    (State.bit_put_ne (s.set Reg.PAIR_CFG_EN |>.put Reg.PAIR_STATUS_ROLE 3) (by decide) 0).trans
      ((State.bit_put_ne (s.set Reg.PAIR_CFG_EN) (by decide) 3).trans (State.bit_set_same s rfl))
  have role : s.listens.get Reg.PAIR_STATUS_ROLE = 3 :=
    (State.get_put_ne (s.set Reg.PAIR_CFG_EN |>.put Reg.PAIR_STATUS_ROLE 3) (by decide) 0).trans (State.get_put_same _ _ 3)
  rw [State.beginPairing_eq]
  split
  · have down := (PairWork.gateDown (l := gateRegs) (List.Subset.refl _) s.listens).trans (.pairEvent _ 6 .ok)
    have event : PairWork [] s.listens.gateDown (s.listens.gateDown.pairEvent 6 .ok) := .pairEvent ..
    refine ⟨(down.bit (by decide)).trans en, (down.get (by decide)).trans role,
      (event.bit (by decide)).trans s.listens.gateDown_shows.1, ?_, down.units⟩
    rw [State.pairEvent, State.post_pair, s.listens.gateDown_shows.2.2.2.1]
    rfl
  · next closed => exact ⟨en, role, Bool.eq_false_iff.2 closed, rfl, rfl⟩

theorem pairEnWrite_spec (v : BitVec 32) (up : s.hostUp = true) (restored : s.bit Reg.GLOBAL_RESTORE_DONE = true) :
    let u := (s.writePlain 0x13000 v.toNat).putBit Reg.PAIR_CFG_EN false
    (s.refusesWrite 0x13000 v.toNat = true → exec (.pairEnWrite v) s = .next (s.put Reg.PAIR_STATUS_CFG_REJ 1)) ∧
    (s.refusesWrite 0x13000 v.toNat = false → s.bit Reg.PAIR_CFG_EN = true → v.getLsbD 0 = false →
      ∃ t, exec (.pairEnWrite v) s = .next t ∧ t.bit Reg.PAIR_CFG_EN = false ∧ t.get Reg.PAIR_STATUS_ROLE = 0 ∧
        t.get Reg.PAIR_EPOCH_EPOCH = 0 ∧ t.pair.listening = none ∧ t.units = s.units) ∧
    (s.refusesWrite 0x13000 v.toNat = false → s.bit Reg.PAIR_CFG_EN = false → v.getLsbD 0 = true →
      (u.pairRefused = true → exec (.pairEnWrite v) s = .next (u.put Reg.PAIR_STATUS_CFG_REJ 1)) ∧
      (u.pairRefused = false → ∃ t, exec (.pairEnWrite v) s = .next t ∧ t.bit Reg.PAIR_CFG_EN = true ∧
        t.get Reg.PAIR_STATUS_ROLE = 3 ∧ t.bit Reg.PAIR_STATUS_GATE_OPEN = false ∧ t.pair.listening = some s.now ∧
        t.units = s.units)) := by
  intro u
  have run := exec_pairEnWrite (v := v) up restored
  refine ⟨fun refused => run.trans (congrArg _ (State.pairEnWrite_refused refused)), fun accepted en off => ?_,
    fun accepted off en => ⟨fun refused => ?_, fun allowed => ?_⟩⟩
  · obtain ⟨r, cfg⟩ := s.pairCfg_regs v.toNat true
    obtain ⟨solo, role, epoch, listening, units⟩ := ((s.pairCfg v.toNat true).put Reg.PAIR_CFG_EN 0).becomeSolo_shows
    refine ⟨_, run.trans (congrArg _ (State.pairEnWrite_off accepted en off)), solo.trans (State.bit_put_same _ rfl 0), role, epoch,
      listening, units.trans ?_⟩
    rw [cfg]
    rfl
  · exact run.trans (congrArg _ ((State.pairEnWrite_on accepted off en).trans (if_pos refused)))
  · obtain ⟨r, cfg⟩ := s.pairCfg_regs v.toNat false
    obtain ⟨begun, role, gate, listening, units⟩ := (s.pairCfg v.toNat false).beginPairing_shows
    refine ⟨_, run.trans (congrArg _ ((State.pairEnWrite_on accepted off en).trans (if_neg (ne_true_of_eq_false allowed)))), begun, role,
      gate, listening.trans ?_, units.trans ?_⟩
    · rw [cfg]
      rfl
    · rw [cfg]

/-! ## The lease: renewals, claims, grants and yields. -/

/-! ### Listening and the claims (R767, R769) -/

/-- The engine claims an epoch of its witness. -/
def State.claims (s : State) (e : Nat) : State :=
  (s.modPair fun p => { p with claimed := e }).sendWitness { s.pairMsg 0x15 with epoch := e }

theorem State.claims_shows (s : State) (e : Nat) : (s.claims e).pair.claimed = e ∧ (s.claims e).regs = s.regs ∧
    (s.claims e).units = s.units := by
  have sends := Sends.sendWitness (s.modPair fun p => { p with claimed := e }) { s.pairMsg 0x15 with epoch := e }
  exact ⟨congrArg PairSt.claimed sends.pair, sends.regs, sends.units⟩

/-- The samples that a member listens for. -/
def State.listenLen (s : State) : Nat := s.guardLen + (if s.bit Reg.PAIR_CFG_PREFER then 0 else 2 * (s.dom 0).rate)

theorem exec_pairListenEnd_idle (idle : s.pair.listening = none) : exec .pairListenEnd s = .next s := by
  change execPairListenEnd s = _
  rw [execPairListenEnd, idle]

theorem exec_pairListenEnd {a : Nat} (listening : s.pair.listening = some a) (cut : s.get Reg.PAIR_STATUS_ROLE = 3) :
    exec .pairListenEnd s = .next (if a + s.listenLen ≤ s.now then s.claims 1 else s) := by
  change execPairListenEnd s = _
  rw [execPairListenEnd, listening]
  by_cases past : a + s.listenLen ≤ s.now
  · exact (if_pos ⟨cut, past⟩).trans (congrArg _ (if_pos past).symm)
  · exact (if_neg fun both => past both.2).trans (congrArg _ (if_neg past).symm)

theorem exec_claimSend (may : s.get Reg.PAIR_STATUS_ROLE = 2 ∧ s.bit Reg.PAIR_STATUS_READY = true ∧
    ∀ a, s.pair.heardAt = some a → a + s.guardLen ≤ s.now) :
    exec .claimSend s = .next (s.claims ((s.get Reg.PAIR_EPOCH_EPOCH + 1) % 2 ^ 32)) := by
  obtain ⟨role, ready, silent⟩ := may
  change execClaimSend s = _
  unfold execClaimSend
  cases heard : s.pair.heardAt with
  | none => exact if_pos ⟨role, ready, rfl⟩
  | some a => exact if_pos ⟨role, ready, decide_eq_true (silent a heard)⟩

theorem exec_claimSend_waits (not : ¬(s.get Reg.PAIR_STATUS_ROLE = 2 ∧ s.bit Reg.PAIR_STATUS_READY = true ∧
    ∀ a, s.pair.heardAt = some a → a + s.guardLen ≤ s.now)) : exec .claimSend s = .next s := by
  change execClaimSend s = _
  unfold execClaimSend
  cases heard : s.pair.heardAt with
  | none => exact if_neg fun ⟨role, ready, _⟩ => not ⟨role, ready, fun a eq => absurd (heard.symm.trans eq) (by simp)⟩
  | some a => exact if_neg fun ⟨role, ready, past⟩ => not ⟨role, ready, fun b eq => by
      rw [← Option.some.inj (heard.symm.trans eq)]
      exact of_decide_eq_true past⟩

/-! ### Taking the lease (R767) -/

/-- The pair's state as a member takes the lease. -/
def PairSt.inLease (p : PairSt) (now : Nat) : PairSt :=
  { renewNum := p.renewNum, ackedAt := now, heardAt := p.heardAt, partnerAt := p.partnerAt, witnessAt := p.witnessAt,
    errAt := p.errAt, replica := p.replica, replicaAt := p.replicaAt, seen := p.seen, witness := p.witness,
    coldStart := p.coldStart, refxoGate := p.refxoGate }

/-- A holder clears what a standby shows. -/
def standbyBits : List Fld := [Reg.PAIR_STATUS_READY, Reg.PAIR_STATUS_SUSPECT, Reg.PAIR_STATUS_SYNC, Reg.PAIR_STATUS_READY_PARTNER]

/-- The holder of the claimed epoch, its gate not yet moved. -/
def State.leaseTaken (s : State) : State :=
  (((s.take.put Reg.PAIR_EPOCH_EPOCH s.pair.claimed).put Reg.PAIR_STATUS_ROLE 1).clear standbyBits).modPair fun p => p.inLease s.now

theorem State.leaseTaken_shows (s : State) : s.leaseTaken.get Reg.PAIR_STATUS_ROLE = 1 ∧
    s.leaseTaken.get Reg.PAIR_EPOCH_EPOCH = s.pair.claimed % 2 ^ 32 ∧ s.leaseTaken.gateFree = s.gateFree ∧
    s.leaseTaken.pair.renewNum = s.pair.renewNum ∧ s.leaseTaken.units = s.units := by
  have cleared (v : State) : PairWork standbyBits v (v.clear standbyBits) := .clear (List.Subset.refl _)
  have rest := cleared ((s.take.put Reg.PAIR_EPOCH_EPOCH s.pair.claimed).put Reg.PAIR_STATUS_ROLE 1)
  have hold : s.leaseTaken.bit Reg.PWR_STATUS_HOLD = s.bit Reg.PWR_STATUS_HOLD :=
    (rest.bit (by decide)).trans ((State.bit_put_ne _ (by decide) _).trans (State.bit_put_ne _ (by decide) _))
  have pair : s.leaseTaken.pair = s.pair.inLease s.now := by
    unfold State.leaseTaken
    rw [State.clear_regs]
    rfl
  refine ⟨(rest.get (by decide)).trans (State.get_put_same _ _ 1), (rest.get (by decide)).trans ?_, ?_, ?_, rest.units⟩
  · exact (State.get_put_ne _ (by decide) _).trans (State.get_put_same s.take _ _)
  · rw [State.gateFree, hold, pair]
    rfl
  · rw [pair]
    rfl

/-- What a takeover counts and posts. -/
def State.leaseCounted (s : State) (kind claimed gap : Nat) : State :=
  (((s.bump Reg.PAIR_CNT_TAKEOVERS).put Reg.PAIR_LAST_GAP_US gap).pairEvent 1 .ok).postNow .fault (some 60) 0x182 [kind, claimed, gap]

theorem PairWork.leaseCounted (s : State) (kind claimed gap : Nat) :
    PairWork [Reg.PAIR_CNT_TAKEOVERS, Reg.PAIR_LAST_GAP_US] s (s.leaseCounted kind claimed gap) :=
  (((PairWork.put (g := Reg.PAIR_CNT_TAKEOVERS) (by simp) _).trans (.put (g := Reg.PAIR_LAST_GAP_US) (by simp) _)).trans
    (.pairEvent ..)).trans (.postNow ..)

theorem State.leaseCounted_pair (s : State) (kind claimed gap : Nat) : (s.leaseCounted kind claimed gap).pair = s.pair := by
  rw [State.leaseCounted, State.postNow_pair, State.pairEvent, State.post_pair]
  rfl

/-- Where nothing but the lease closes the gate, the holder opens it. -/
theorem State.takeLease_free (free : s.gateFree = true) : ∃ gap, s.takeLease = s.leaseTaken.openGate.leaseCounted s.pair.takeKind
    s.pair.claimed gap := by
  have free' : s.leaseTaken.gateFree = true := s.leaseTaken_shows.2.2.1.trans free
  have opens : (if s.leaseTaken.gateFree then s.leaseTaken.openGate else (s.leaseTaken.put Reg.PAIR_STATUS_ROLE 3).pairEvent 6 .ok) =
    s.leaseTaken.openGate := if_pos free'
  exact ⟨_, congrArg (fun v : State => v.leaseCounted s.pair.takeKind s.pair.claimed
    (if s.pair.takeKind = 1 then s.free.toNat % 2 ^ 32 else 0)) opens⟩

theorem State.takeLease_shows (free : s.gateFree = true) : s.takeLease.get Reg.PAIR_STATUS_ROLE = 1 ∧
    s.takeLease.get Reg.PAIR_EPOCH_EPOCH = s.pair.claimed % 2 ^ 32 ∧ s.takeLease.bit Reg.PAIR_STATUS_GATE_OPEN = true ∧
    s.takeLease.pair.renewNum = s.pair.renewNum ∧ s.takeLease.units = s.units := by
  obtain ⟨role, epoch, freed, renew, units⟩ := s.leaseTaken_shows
  obtain ⟨gap, eq⟩ := State.takeLease_free free
  have gate := PairWork.openGate (l := gateRegs) (List.Subset.refl _) s.leaseTaken
  have counted := PairWork.leaseCounted s.leaseTaken.openGate s.pair.takeKind s.pair.claimed gap
  rw [eq]
  refine ⟨(counted.get (by decide)).trans ((gate.get (by decide)).trans role),
    (counted.get (by decide)).trans ((gate.get (by decide)).trans epoch),
    (counted.bit (by decide)).trans (State.openGate_opens (freed.trans free)), ?_, counted.units.trans (gate.units.trans units)⟩
  rw [State.leaseCounted_pair, State.openGate_pair, renew]

/-! ### Renewal (R763) -/

/-- Messages and the pair's state apart, nothing differs. -/
theorem OnlySends.regs (h : OnlySends s t) : t.regs = s.regs := by obtain ⟨_, _, rfl⟩ := h; rfl

theorem OnlySends.sends (h : Sends s t) : OnlySends s t := by
  obtain ⟨wl, rfl⟩ := h
  exact ⟨wl, _, rfl⟩

theorem OnlySends.modPair (s : State) (f : PairSt → PairSt) : OnlySends s (s.modPair f) := ⟨_, _, rfl⟩

theorem OnlySends.sendRenew (s : State) : OnlySends s s.sendRenew :=
  (OnlySends.sends (Sends.sendBoth s { s.pairMsg 0x10 with seq := s.pair.renewNum })).trans ⟨_, _, rfl⟩

theorem State.sendRenew_pair (s : State) : s.sendRenew.pair.renewNum = s.pair.renewNum + 1 ∧
    (s.pair.renewNum, s.now) ∈ s.sendRenew.pair.sentAt :=
  ⟨rfl, List.mem_append_right _ List.mem_cons_self⟩

/-- Only what the renewals need is as it was in the pair's state. -/
def SameRenewals (s t : State) : Prop := t.pair.renewNum = s.pair.renewNum ∧ t.pair.sentAt = s.pair.sentAt

theorem SameRenewals.trans (a : SameRenewals s t) (b : SameRenewals t u) : SameRenewals s u :=
  ⟨b.1.trans a.1, b.2.trans a.2⟩

theorem OnlySends.sendState (s : State) : OnlySends s s.sendState :=
  (OnlySends.sends (Sends.sendPair s { s.pairMsg 0x18 with control := some s.controlState })).trans ⟨_, _, rfl⟩

theorem SameRenewals.sendState (s : State) : SameRenewals s s.sendState := by
  have sends := Sends.sendPair s { s.pairMsg 0x18 with control := some s.controlState }
  exact ⟨(congrArg PairSt.renewNum sends.pair :), (congrArg PairSt.sentAt sends.pair :)⟩

theorem OnlySends.offerState (s : State) : OnlySends s s.offerState := by
  unfold State.offerState
  split_ifs
  · exact .modPair ..
  · exact .refl s
  · exact .refl s
  · exact .sendState s

theorem SameRenewals.offerState (s : State) : SameRenewals s s.offerState := by
  unfold State.offerState
  split_ifs
  · exact ⟨rfl, rfl⟩
  · exact ⟨rfl, rfl⟩
  · exact ⟨rfl, rfl⟩
  · exact .sendState s

theorem OnlySends.sendYield (s : State) (verdict : Bool) (frames : Nat) : OnlySends s (s.sendYield verdict frames) :=
  (OnlySends.sends (Sends.sendPair s { s.pairMsg 0x17 with si := s.now + frames * s.blockP, errorFound := verdict })).trans ⟨_, _, rfl⟩

/-- The pair's state as its holder yields. -/
def PairSt.yields (p : PairSt) (y : Nat) (verdict : Bool) : PairSt :=
  { p with yieldAt := some (y, false), suspectNext := verdict, swap := if verdict then p.swap else 3 }

theorem State.sendYield_pair (s : State) (verdict : Bool) (frames : Nat) :
    (s.sendYield verdict frames).pair = s.pair.yields (s.now + frames * s.blockP) verdict := by
  have sends := Sends.sendPair s { s.pairMsg 0x17 with si := s.now + frames * s.blockP, errorFound := verdict }
  exact (congrArg (fun p : PairSt => p.yields (s.now + frames * s.blockP) verdict) sends.pair :)

theorem OnlySends.advanceSwap (s : State) : OnlySends s s.advanceSwap := by
  unfold State.advanceSwap
  dsimp only
  split_ifs
  · exact .modPair ..
  · exact .sendYield ..
  · exact .refl s

theorem SameRenewals.advanceSwap (s : State) : SameRenewals s s.advanceSwap := by
  unfold State.advanceSwap
  dsimp only
  split_ifs
  · exact ⟨rfl, rfl⟩
  · rw [SameRenewals, State.sendYield_pair]
    exact ⟨rfl, rfl⟩
  · exact ⟨rfl, rfl⟩

/-- What a holder does at a boundary. -/
def State.renews (s : State) : State := (s.sendRenew.offerState).advanceSwap

theorem State.renews_shows (s : State) : s.renews.regs = s.regs ∧ s.renews.units = s.units ∧
    s.renews.pair.renewNum = s.pair.renewNum + 1 ∧ (s.pair.renewNum, s.now) ∈ s.renews.pair.sentAt := by
  have sends := ((OnlySends.sendRenew s).trans (.offerState _)).trans (.advanceSwap _)
  have same := (SameRenewals.offerState s.sendRenew).trans (.advanceSwap _)
  obtain ⟨count, sent⟩ := s.sendRenew_pair
  refine ⟨sends.regs, sends.units, same.1.trans count, ?_⟩
  rw [State.renews, same.2]
  exact sent

theorem exec_leaseRenew_takes (granted : s.pair.openNext = true) (free : s.gateFree = true) :
    exec .leaseRenew s = .next s.takeLease.renews := by
  change execLeaseRenew s = _
  unfold execLeaseRenew
  rw [granted]
  exact if_pos (State.takeLease_shows free).1

theorem exec_leaseRenew_holds (none : s.pair.openNext = false) (role : s.get Reg.PAIR_STATUS_ROLE = 1) :
    exec .leaseRenew s = .next s.renews := by
  change execLeaseRenew s = _
  unfold execLeaseRenew
  rw [none]
  exact if_pos role

theorem exec_leaseRenew_idle (none : s.pair.openNext = false) (role : s.get Reg.PAIR_STATUS_ROLE ≠ 1) :
    exec .leaseRenew s = .next s := by
  change execLeaseRenew s = _
  unfold execLeaseRenew
  rw [none]
  exact if_neg role

/-! ### Messages of the partner (R763, R768) -/

theorem toldRegs_free : Reg.PAIR_EPOCH_EPOCH.FreeOf heardRegs ∧ Reg.PAIR_STATUS_ROLE.FreeOf heardRegs ∧
    Reg.PAIR_STATUS_GATE_OPEN.FreeOf heardRegs ∧ Reg.PAIR_STATUS_READY.FreeOf heardRegs ∧
    Reg.PAIR_STATUS_PARTNER_SEEN.FreeOf roleRegs := by decide

/-- What a RENEW of the partner does. -/
def State.hearRenew (t : State) (m : PairMsg) : State :=
  if t.get Reg.PAIR_EPOCH_EPOCH < m.epoch ∨ t.pair.listening.isSome = true then (t.enterStandby m.epoch).answerPair m false 0
  else if m.epoch < t.get Reg.PAIR_EPOCH_EPOCH then t.answerPair m true 0
  else if t.get Reg.PAIR_STATUS_ROLE = 2 then (t.modPair fun p => { p with heardAt := some t.now }).answerPair m false 0
  else t

theorem exec_renewReceived (told : s.toldBy m) : exec (.renewReceived m) s = .next ((s.told m).hearRenew m) :=
  (if_pos told.2.1).trans (congrArg _ (State.onPartner_told told fun t => t.hearRenew m))

theorem exec_claimReceived (told : s.toldBy m) : exec (.claimReceived m) s =
    .next (if (s.told m).get Reg.PAIR_EPOCH_EPOCH < m.epoch then (s.told m).enterStandby m.epoch else s.told m) :=
  (if_pos told.2.1).trans (congrArg _ (State.onPartner_told told fun t =>
    if t.get Reg.PAIR_EPOCH_EPOCH < m.epoch then t.enterStandby m.epoch else t))

/-- A member that is told of a higher epoch is STANDBY under it, its gate closed. -/
theorem State.told_standby (fit : m.epoch < 2 ^ 32) : let t := (s.told m).enterStandby m.epoch
    t.get Reg.PAIR_STATUS_ROLE = 2 ∧ t.get Reg.PAIR_EPOCH_EPOCH = m.epoch ∧ t.bit Reg.PAIR_STATUS_GATE_OPEN = false ∧
      t.bit Reg.PAIR_STATUS_PARTNER_SEEN = true ∧ t.units = s.units := by
  intro t
  obtain ⟨role, epoch, closed⟩ := (s.told m).enterStandby_shows m.epoch
  have enters := PairWork.enterStandby (s.told m) m.epoch
  exact ⟨role, epoch.trans (Nat.mod_eq_of_lt fit), closed, (enters.bit toldRegs_free.2.2.2.2).trans (s.told_seen m),
    enters.units.trans (PairWork.told s m).units⟩

theorem higherEpoch_spec (told : s.toldBy m) (higher : s.get Reg.PAIR_EPOCH_EPOCH < m.epoch) (fit : m.epoch < 2 ^ 32) :
    ∀ i ∈ [Instr.renewReceived m, .claimReceived m], ∃ t, exec i s = .next t ∧ t.get Reg.PAIR_STATUS_ROLE = 2 ∧
      t.get Reg.PAIR_EPOCH_EPOCH = m.epoch ∧ t.bit Reg.PAIR_STATUS_GATE_OPEN = false ∧ t.bit Reg.PAIR_STATUS_PARTNER_SEEN = true ∧
      t.units = s.units := by
  have newer : (s.told m).get Reg.PAIR_EPOCH_EPOCH < m.epoch := by rwa [(PairWork.told s m).get toldRegs_free.1]
  obtain ⟨role, epoch, closed, seen, units⟩ := State.told_standby (s := s) (m := m) fit
  refine List.forall_mem_cons.2 ⟨?_, List.forall_mem_singleton.2
    ⟨_, (exec_claimReceived told).trans (congrArg _ (if_pos newer)), role, epoch, closed, seen, units⟩⟩
  have answer := Sends.answerPair ((s.told m).enterStandby m.epoch) m false 0
  have kept : PairWork [] ((s.told m).enterStandby m.epoch) (((s.told m).enterStandby m.epoch).answerPair m false 0) := .sends answer
  exact ⟨_, (exec_renewReceived told).trans (congrArg _ (if_pos (.inl newer))), (kept.get (by decide)).trans role,
    (kept.get (by decide)).trans epoch, (kept.bit (by decide)).trans closed, (kept.bit (by decide)).trans seen, answer.units.trans units⟩

theorem lowerEpoch_spec (told : s.toldBy m) (idle : s.pair.listening = none) (lower : m.epoch < s.get Reg.PAIR_EPOCH_EPOCH) :
    ∃ t, exec (.renewReceived m) s = .next t ∧ t.get Reg.PAIR_STATUS_ROLE = s.get Reg.PAIR_STATUS_ROLE ∧
      t.get Reg.PAIR_EPOCH_EPOCH = s.get Reg.PAIR_EPOCH_EPOCH ∧ t.bit Reg.PAIR_STATUS_GATE_OPEN = s.bit Reg.PAIR_STATUS_GATE_OPEN := by
  obtain ⟨epoch, role, gate, -⟩ := toldRegs_free
  have heard := PairWork.told s m
  have same : (s.told m).get Reg.PAIR_EPOCH_EPOCH = s.get Reg.PAIR_EPOCH_EPOCH := heard.get epoch
  obtain ⟨seen, pair⟩ := s.told_pair m
  have answers : (s.told m).hearRenew m = (s.told m).answerPair m true 0 := by
    rw [State.hearRenew, same, pair, if_neg (by rw [idle]; simp; omega), if_pos lower]
  have kept : PairWork heardRegs s ((s.told m).answerPair m true 0) := heard.trans (.sends (.answerPair ..))
  exact ⟨_, (exec_renewReceived told).trans (congrArg _ answers), kept.get role, kept.get epoch, kept.bit gate⟩

theorem sameEpoch_spec (told : s.toldBy m) (idle : s.pair.listening = none) (same : m.epoch = s.get Reg.PAIR_EPOCH_EPOCH)
    (standby : s.get Reg.PAIR_STATUS_ROLE = 2) :
    ∃ t, exec (.renewReceived m) s = .next t ∧ t.get Reg.PAIR_STATUS_ROLE = 2 ∧ t.pair.heardAt = some s.now := by
  obtain ⟨epoch, role, -⟩ := toldRegs_free
  have heard := PairWork.told s m
  have kept : (s.told m).get Reg.PAIR_EPOCH_EPOCH = m.epoch := (heard.get epoch).trans same.symm
  have role' : (s.told m).get Reg.PAIR_STATUS_ROLE = 2 := (heard.get role).trans standby
  obtain ⟨seen, pair⟩ := s.told_pair m
  have hears : (s.told m).hearRenew m =
      ((s.told m).modPair fun p => { p with heardAt := some (s.told m).now }).answerPair m false 0 := by
    rw [State.hearRenew, kept, pair, if_neg (by rw [idle]; simp), if_neg (lt_irrefl _), if_pos role']
  have answer := Sends.answerPair ((s.told m).modPair fun p => { p with heardAt := some (s.told m).now }) m false 0
  refine ⟨_, (exec_renewReceived told).trans (congrArg _ hears), (State.get_of_regs answer.regs _).trans role', ?_⟩
  rw [answer.pair]
  exact congrArg some heard.now

theorem notAccepted_spec (partner : s.fromPartner m = true) (refused : s.accepts m = false) :
    exec (.renewReceived m) s = .next s ∧ exec (.claimReceived m) s = .next s := by
  have ignored (f : State → State) : s.onPartner m f = s := by
    rw [State.onPartner, refused]
    rfl
  exact ⟨(if_pos partner).trans (congrArg _ (ignored _)), (if_pos partner).trans (congrArg _ (ignored _))⟩

/-! ## The witness, acknowledgments, grants, yields and swaps. -/

/-! ### What a witness keeps (R762, R763, R767) -/

/-- A pair that a witness keeps is that of two members, in either order. -/
def WitPair.of (w : WitPair) (a b : Nat) : Bool := (w.a == a && w.b == b) || (w.a == b && w.b == a)

theorem State.witOf_eq (s : State) (a b : Nat) : s.witOf a b = s.pair.witness.find? fun w => w.of a b := rfl

theorem WitPair.of_iff (w : WitPair) (a b : Nat) : w.of a b = true ↔ w.a = a ∧ w.b = b ∨ w.a = b ∧ w.b = a := by
  simp [WitPair.of]

/-- Two pairs of the same two members are found by the same members. -/
theorem WitPair.of_congr {w x : WitPair} {a b : Nat} (of : w.of a b = true) : x.of w.a w.b = x.of a b := by
  rw [Bool.eq_iff_iff, WitPair.of_iff, WitPair.of_iff]
  rcases (w.of_iff a b).1 of with ⟨rfl, rfl⟩ | ⟨rfl, rfl⟩
  · exact Iff.rfl
  · exact or_comm

theorem State.setWit_pair (s : State) (w : WitPair) : (s.setWit w).pair.witness =
    if (s.witOf w.a w.b).isSome then s.pair.witness.map fun x => if x.of w.a w.b then w else x else s.pair.witness ++ [w] := by
  refine if_congr Iff.rfl ?_ rfl
  refine List.map_congr_left fun x _ => if_congr ?_ rfl rfl
  rw [WitPair.of_iff]
  simp

/-- The pair that is kept is changed for the same two members. -/
theorem State.setWit_found {w x : WitPair} {a b : Nat} (found : s.witOf a b = some w) (members : x.a = w.a ∧ x.b = w.b) :
    (s.setWit x).witOf a b = some x := by
  have of : w.of a b = true := List.find?_some (p := fun y : WitPair => y.of a b) found
  have same (y : WitPair) : y.of x.a x.b = y.of a b := by
    rw [members.1, members.2]
    exact WitPair.of_congr of
  have mine : x.of a b = true := by
    rw [← same]
    simp [WitPair.of]
  have known : (s.witOf x.a x.b).isSome = true := by
    rw [State.witOf_eq, show (fun y : WitPair => y.of x.a x.b) = fun y => y.of a b from funext same, ← State.witOf_eq, found]
    rfl
  have kept : (fun y : WitPair => (if y.of x.a x.b then x else y).of a b) = fun y => y.of a b := by
    funext y
    rw [same]
    split
    · next yes => rw [mine, yes]
    · rfl
  rw [State.witOf_eq, State.setWit_pair, if_pos known, List.find?_map]
  change Option.map (fun y : WitPair => if y.of x.a x.b then x else y)
    (s.pair.witness.find? fun y => (if y.of x.a x.b then x else y).of a b) = some x
  rw [kept, ← State.witOf_eq, found, Option.map_some, same, if_pos of]

/-- A pair that is not kept is added. -/
theorem State.setWit_new {x : WitPair} {a b : Nat} (new : s.witOf a b = none) (members : x.a = a ∧ x.b = b) :
    (s.setWit x).witOf a b = some x := by
  have mine : x.of a b = true := (x.of_iff a b).2 (.inl members)
  have unknown : ¬(s.witOf x.a x.b).isSome = true := by
    rw [members.1, members.2, new]
    exact Bool.false_ne_true
  rw [State.witOf_eq, State.setWit_pair, if_neg unknown, List.find?_append, ← State.witOf_eq, new, List.find?_cons, mine]
  rfl

theorem State.witOf_sends (h : Sends s t) (a b : Nat) : t.witOf a b = s.witOf a b := by
  rw [State.witOf_eq, State.witOf_eq, h.pair]

theorem State.setWit_units (s : State) (w : WitPair) : (s.setWit w).units = s.units := rfl

/-! ### Renewals and claims at the witness -/

section
variable (asked : s.askedBy m)
include asked

theorem exec_renewReceived_asked : exec (.renewReceived m) s = .next (s.witRenew m) := by
  obtain ⟨other, accepts, origin, pair⟩ := asked
  refine (if_neg (ne_true_of_eq_false other)).trans (if_pos ?_)
  rw [accepts, bne_iff_ne.2 origin, bne_iff_ne.2 pair]
  rfl

theorem exec_claimReceived_asked : exec (.claimReceived m) s = .next (s.witClaim m) := by
  obtain ⟨other, accepts, origin, pair⟩ := asked
  refine (if_neg (ne_true_of_eq_false other)).trans (if_pos ?_)
  rw [accepts, bne_iff_ne.2 origin, bne_iff_ne.2 pair]
  rfl

end

section
variable {w : WitPair} (found : s.witOf m.origin m.pair = some w)
include found

theorem State.witRenew_newer (newer : w.epoch ≤ m.epoch) : (s.witRenew m).units = s.units ∧
    (s.witRenew m).witOf m.origin m.pair = some { w with epoch := m.epoch, holder := m.origin, renewed := some s.now } := by
  have eq : s.witRenew m =
      (s.setWit { w with epoch := m.epoch, holder := m.origin, renewed := some s.now }).witAnswer 0x11 m m.epoch false false := by
    unfold State.witRenew
    rw [found]
    exact if_neg (Nat.not_lt.2 newer)
  have sends := Sends.witAnswer (s.setWit { w with epoch := m.epoch, holder := m.origin, renewed := some s.now }) 0x11 m m.epoch false false
  rw [eq, State.witOf_sends sends, sends.units]
  exact ⟨rfl, State.setWit_found found ⟨rfl, rfl⟩⟩

theorem State.witRenew_older (older : m.epoch < w.epoch) : Sends s (s.witRenew m) := by
  unfold State.witRenew
  rw [found]
  dsimp only
  rw [if_pos older]
  exact .witAnswer ..

/-- No renewal has come for the time of the lease and its guard. -/
def State.witSilent (s : State) (w : WitPair) (m : PairMsg) : Prop :=
  ∀ a, w.renewed = some a → a + s.samplesMs 0 (m.leaseMs + m.guardMs) ≤ s.now

theorem State.witClaim_refuses {a : Nat} (renewed : w.renewed = some a) (recent : s.now < a + s.samplesMs 0 (m.leaseMs + m.guardMs)) :
    Sends s (s.witClaim m) := by
  have shut : ¬(decide (a + s.samplesMs 0 (m.leaseMs + m.guardMs) ≤ s.now) && !(w.epoch == m.epoch && w.holder != m.origin)) = true :=
    fun both => Nat.not_le.2 recent (of_decide_eq_true (Bool.and_eq_true_iff.1 both).1)
  have eq : s.witClaim m = s.witAnswer 0x11 m w.epoch true false := by
    unfold State.witClaim
    rw [found]
    dsimp only
    rw [renewed]
    exact if_neg shut
  rw [eq]
  exact .witAnswer ..

theorem State.witClaim_grants (silent : s.witSilent w m) (once : w.epoch ≠ m.epoch ∨ w.holder = m.origin) :
    (s.witClaim m).witOf m.origin m.pair = some { w with epoch := max w.epoch m.epoch, holder := m.origin } := by
  have fresh : (!(w.epoch == m.epoch && w.holder != m.origin)) = true := by
    rcases once with other | mine
    · rw [beq_eq_false_iff_ne.2 other]
      rfl
    · rw [mine, bne_self_eq_false, Bool.and_false]
      rfl
  have eq : s.witClaim m = (s.setWit { w with epoch := max w.epoch m.epoch, holder := m.origin }).witAnswer 0x16 m m.epoch false false := by
    unfold State.witClaim
    rw [found]
    dsimp only
    rw [fresh, Bool.and_true]
    cases renewed : w.renewed with
    | none => exact if_pos rfl
    | some a => exact if_pos (decide_eq_true (silent a renewed))
  rw [eq, State.witOf_sends (.witAnswer ..)]
  exact State.setWit_found found ⟨rfl, rfl⟩

end

/-- The pair that a first renewal makes known. -/
def renewalOf (m : PairMsg) (now : Nat) : WitPair :=
  { a := m.origin, b := m.pair, epoch := m.epoch, holder := m.origin, renewed := some now }

section
variable (new : s.witOf m.origin m.pair = none) (room : s.pair.witness.length < 8)
include new room

theorem State.witRenew_new : (s.witRenew m).witOf m.origin m.pair =
    some { a := m.origin, b := m.pair, epoch := m.epoch, holder := m.origin, renewed := some s.now } := by
  have eq : s.witRenew m = (s.setWit (renewalOf m s.now)).witAnswer 0x11 m m.epoch false false := by
    unfold State.witRenew
    rw [new]
    exact if_neg (Nat.not_le.2 room)
  rw [eq, State.witOf_sends (.witAnswer ..)]
  exact State.setWit_new new ⟨rfl, rfl⟩

theorem State.witClaim_new : (s.witClaim m).witOf m.origin m.pair =
    some { a := m.origin, b := m.pair, epoch := m.epoch, holder := m.origin } := by
  have eq : s.witClaim m = (s.setWit { a := m.origin, b := m.pair, epoch := m.epoch, holder := m.origin }).witAnswer 0x16 m
      m.epoch false false := by
    unfold State.witClaim
    rw [new]
    exact if_neg (Nat.not_le.2 room)
  rw [eq, State.witOf_sends (.witAnswer ..)]
  exact State.setWit_new new ⟨rfl, rfl⟩

end

/-! ### Acknowledgments and the end of the lease (R764) -/

/-- An acknowledgment of the partner's or of the witness's reaches the holder. -/
theorem exec_ackReceived_lease (heard : (s.toldBy m ∧ m.si = 0) ∨ (s.fromPartner m = false ∧ s.accepts m = true ∧ s.fromWitness m = true)) :
    ∃ v : State, exec (.ackReceived m) s = .next (v.leaseAnswer m) ∧ PairWork heardRegs s v ∧ v.pair.sentAt = s.pair.sentAt ∧
      v.pair.ackedAt = s.pair.ackedAt := by
  rcases heard with ⟨told, lease⟩ | ⟨other, accepts, witness⟩
  · obtain ⟨seen, pair⟩ := s.told_pair m
    refine ⟨s.told m, (if_pos told.2.1).trans (congrArg _ ((State.onPartner_told told _).trans (if_neg (not_not.2 lease)))), .told s m, ?_⟩
    rw [pair]
    exact ⟨rfl, rfl⟩
  · exact ⟨s.heardWitness, (if_neg (ne_true_of_eq_false other)).trans (congrArg _ (State.onWitness_heard accepts witness _)),
      .heardWitness s, rfl, rfl⟩

theorem State.leaseAnswer_refused (holder : s.get Reg.PAIR_STATUS_ROLE = 1) (refuse : m.refuse = true) :
    s.leaseAnswer m = s.closeGate := (if_neg (not_not.2 holder)).trans (if_pos refuse)

theorem State.leaseAnswer_acknowledged {e : Nat × Nat} (holder : s.get Reg.PAIR_STATUS_ROLE = 1) (accepted : m.refuse = false)
    (epoch : m.epoch = s.get Reg.PAIR_EPOCH_EPOCH) (sent : s.pair.sentAt.find? (fun e => e.1 == m.seq) = some e) :
    s.leaseAnswer m = s.modPair fun p => { p with ackedAt := max p.ackedAt e.2 } := by
  refine ((if_neg (not_not.2 holder)).trans ((if_neg (ne_true_of_eq_false accepted)).trans (if_neg (not_not.2 epoch)))).trans ?_
  rw [sent]

theorem closeGate_cuts (holder : s.get Reg.PAIR_STATUS_ROLE = 1) : s.closeGate.get Reg.PAIR_STATUS_ROLE = 3 ∧
    s.closeGate.bit Reg.PAIR_STATUS_GATE_OPEN = false ∧ s.closeGate.units = s.units := by
  obtain ⟨closed, units, -, -, role, -⟩ := s.closeGate_shows
  exact ⟨role.trans (if_pos holder), closed, units⟩

theorem exec_leaseTimerExpiry (ends : s.get Reg.PAIR_STATUS_ROLE = 1 ∧ s.pair.ackedAt + s.leaseLen < s.now + s.blockP) :
    exec .leaseTimerExpiry s = .next s.closeGate := congrArg _ (if_pos ends)

theorem exec_leaseTimerExpiry_runs (runs : ¬(s.get Reg.PAIR_STATUS_ROLE = 1 ∧ s.pair.ackedAt + s.leaseLen < s.now + s.blockP)) :
    exec .leaseTimerExpiry s = .next s := congrArg _ (if_neg runs)

theorem State.yieldAnswer_pair {y : Nat} {b : Bool} (yields : s.pair.yieldAt = some (y, b)) (refuse : Bool) :
    (s.yieldAnswer refuse).pair.yieldAt = if refuse then none else some (y, true) := by
  unfold State.yieldAnswer State.modPair
  dsimp only
  rw [yields]
  cases refuse <;> rfl

theorem exec_ackReceived_yield {y : Nat} {b : Bool} (told : s.toldBy m) (yield : m.si ≠ 0) (yields : s.pair.yieldAt = some (y, b)) :
    ∃ t, exec (.ackReceived m) s = .next t ∧ t.pair.yieldAt = (if m.refuse then none else some (y, true)) ∧
      t.get Reg.PAIR_STATUS_ROLE = s.get Reg.PAIR_STATUS_ROLE := by
  obtain ⟨seen, pair⟩ := s.told_pair m
  have heard : (s.told m).pair.yieldAt = some (y, b) := by rw [pair]; exact yields
  exact ⟨_, (if_pos told.2.1).trans (congrArg _ ((State.onPartner_told told _).trans (if_pos yield))),
    State.yieldAnswer_pair heard m.refuse, (PairWork.told s m).get toldRegs_free.2.1⟩

theorem exec_ackReceived_spec (heard : (s.toldBy m ∧ m.si = 0) ∨ (s.fromPartner m = false ∧ s.accepts m = true ∧ s.fromWitness m = true))
    (holder : s.get Reg.PAIR_STATUS_ROLE = 1) :
    (m.refuse = true → ∃ t, exec (.ackReceived m) s = .next t ∧ t.get Reg.PAIR_STATUS_ROLE = 3 ∧
      t.bit Reg.PAIR_STATUS_GATE_OPEN = false ∧ t.units = s.units) ∧
    (∀ e, m.refuse = false → m.epoch = s.get Reg.PAIR_EPOCH_EPOCH → s.pair.sentAt.find? (fun e => e.1 == m.seq) = some e →
      ∃ t, exec (.ackReceived m) s = .next t ∧ t.pair.ackedAt = max s.pair.ackedAt e.2 ∧ t.get Reg.PAIR_STATUS_ROLE = 1) := by
  obtain ⟨v, run, hears, sent, acked⟩ := exec_ackReceived_lease heard
  have role : v.get Reg.PAIR_STATUS_ROLE = 1 := (hears.get toldRegs_free.2.1).trans holder
  have epoch : v.get Reg.PAIR_EPOCH_EPOCH = s.get Reg.PAIR_EPOCH_EPOCH := hears.get toldRegs_free.1
  refine ⟨fun refuse => ?_, fun e accepted same newest => ?_⟩
  · obtain ⟨cut, closed, units⟩ := closeGate_cuts role
    exact ⟨_, run.trans (congrArg _ (State.leaseAnswer_refused role refuse)), cut, closed, units.trans hears.units⟩
  · exact ⟨_, run.trans (congrArg _ (State.leaseAnswer_acknowledged role accepted (same.trans epoch.symm) (by rw [sent]; exact newest))),
      congrArg (max · e.2) acked, role⟩

/-! ### Grants (R767) -/

/-- What a GRANT of the witness does. -/
def State.hearGrant (t : State) (m : PairMsg) : State :=
  if t.pair.claimed ≠ 0 ∧ m.epoch = t.pair.claimed ∧ 2 ≤ t.get Reg.PAIR_STATUS_ROLE then t.granted
  else if t.get Reg.PAIR_EPOCH_EPOCH < m.epoch then t.enterStandby m.epoch
  else t

theorem exec_grantReceived_spec (accepts : s.accepts m = true) (witness : s.fromWitness m = true) (claims : s.pair.claimed ≠ 0)
    (epoch : m.epoch = s.pair.claimed) (shut : 2 ≤ s.get Reg.PAIR_STATUS_ROLE)
    (awake : s.get Reg.PAIR_STATUS_ROLE ≠ 2 ∨ s.coldMode = false ∨ s.pair.coldStart = true) :
    ∃ t, exec (.grantReceived m) s = .next t ∧ t.pair.openNext = true ∧ t.pair.takeKind = 1 ∧ t.units = s.units ∧
      t.bit Reg.PAIR_STATUS_WITNESS_SEEN = true := by
  have heard := PairWork.heardWitness s
  have role : s.heardWitness.get Reg.PAIR_STATUS_ROLE = s.get Reg.PAIR_STATUS_ROLE := heard.get toldRegs_free.2.1
  have mode : s.heardWitness.coldMode = s.coldMode := congrArg (· == 1) (heard.get (f := Reg.PAIR_CFG_MODE) (by decide))
  have idle : ¬(s.heardWitness.get Reg.PAIR_STATUS_ROLE = 2 ∧ s.heardWitness.coldMode = true ∧ s.heardWitness.pair.coldStart = false) := by
    rw [role, mode]
    rintro ⟨standby, cold, stopped⟩
    rcases awake with other | warm | started
    · exact other standby
    · exact absurd (warm.symm.trans cold) (by decide)
    · exact absurd (started.symm.trans stopped) (by decide)
  have opens : s.heardWitness.granted = s.heardWitness.modPair fun p => { p with openNext := true, takeKind := 1 } := if_neg idle
  have shut' : 2 ≤ s.heardWitness.get Reg.PAIR_STATUS_ROLE := by rwa [role]
  have hears : s.heardWitness.hearGrant m = s.heardWitness.granted := if_pos ⟨claims, epoch, shut'⟩
  refine ⟨s.heardWitness.modPair fun p => { p with openNext := true, takeKind := 1 }, congrArg Host.Outcome.next ?_, rfl, rfl, rfl,
    State.bit_set_same s (f := Reg.PAIR_STATUS_WITNESS_SEEN) rfl⟩
  exact (State.onWitness_heard accepts witness fun t => t.hearGrant m).trans (hears.trans opens)

/-! ### Yields (R777) -/

/-- The pair's state as a standby agrees to a YIELD. -/
def PairSt.yieldsTo (p : PairSt) (m : PairMsg) : PairSt :=
  { p with yieldAt := some (m.si, true), claimed := (m.epoch + 1) % 2 ^ 32, takeKind := if m.errorFound then 2 else 3 }

theorem exec_yield_spec (told : s.toldBy m) (standby : s.get Reg.PAIR_STATUS_ROLE = 2) (epoch : m.epoch = s.get Reg.PAIR_EPOCH_EPOCH) :
    (s.bit Reg.PAIR_STATUS_READY = true → ∃ t, exec (.yield m) s = .next t ∧ t.pair.yieldAt = some (m.si, true) ∧
      t.pair.claimed = (m.epoch + 1) % 2 ^ 32 ∧ t.pair.takeKind = (if m.errorFound then 2 else 3) ∧ t.units = s.units) ∧
    (s.bit Reg.PAIR_STATUS_READY = false → ∃ t, exec (.yield m) s = .next t ∧ t.pair.yieldAt = s.pair.yieldAt ∧
      t.pair.claimed = s.pair.claimed) := by
  obtain ⟨freeEpoch, freeRole, -, freeReady, -⟩ := toldRegs_free
  have heard := PairWork.told s m
  have known : ¬((s.told m).get Reg.PAIR_STATUS_ROLE ≠ 2 ∨ m.epoch ≠ (s.told m).get Reg.PAIR_EPOCH_EPOCH) := by
    rw [heard.get freeRole, heard.get freeEpoch]
    exact not_or.2 ⟨not_not.2 standby, not_not.2 epoch⟩
  have ready := heard.bit freeReady
  obtain ⟨seen, pair⟩ := s.told_pair m
  have run : exec (.yield m) s = .next _ := congrArg Host.Outcome.next ((State.onPartner_told told _).trans (if_neg known))
  refine ⟨fun is => ?_, fun isNot => ?_⟩
  · have sends := Sends.answerPair ((s.told m).modPair fun p => p.yieldsTo m) m false m.si
    refine ⟨_, run.trans (congrArg _ (if_pos (ready.trans is))), (congrArg PairSt.yieldAt sends.pair :),
      (congrArg PairSt.claimed sends.pair :), (congrArg PairSt.takeKind sends.pair :), sends.units.trans heard.units⟩
  · have sends := Sends.answerPair (s.told m) m true m.si
    refine ⟨_, run.trans (congrArg _ (if_neg (ne_true_of_eq_false (ready.trans isNot)))), ?_, ?_⟩
    · rw [sends.pair, pair]
    · rw [sends.pair, pair]

section
variable {y : Nat} {b : Bool} (yields : s.pair.yieldAt = some (y, b))
include yields

theorem exec_yieldHandover_early (early : s.now + s.blockP < y) : exec .yieldHandover s = .next s := by
  change execYieldHandover s = _
  rw [execYieldHandover, yields]
  dsimp only
  split_ifs <;> first | rfl | omega

theorem exec_yieldHandover_yields (holder : s.get Reg.PAIR_STATUS_ROLE = 1) (acked : b = true) (due : y ≤ s.now) :
    exec .yieldHandover s = .next (if s.pair.suspectNext
      then (s.enterStandby ((s.get Reg.PAIR_EPOCH_EPOCH + 1) % 2 ^ 32)).becomeSuspect
      else s.enterStandby ((s.get Reg.PAIR_EPOCH_EPOCH + 1) % 2 ^ 32)) := by
  change execYieldHandover s = _
  rw [execYieldHandover, yields]
  dsimp only
  rw [if_pos holder, if_pos acked, if_neg (Nat.not_lt.2 due)]

theorem exec_yieldHandover_keeps (holder : s.get Reg.PAIR_STATUS_ROLE = 1) (silent : b = false) (due : y ≤ s.now + s.blockP) :
    exec .yieldHandover s = .next (s.yieldAnswer true) := by
  change execYieldHandover s = _
  rw [execYieldHandover, yields]
  dsimp only
  rw [if_pos holder, if_neg (ne_true_of_eq_false silent), if_pos due]

theorem exec_yieldHandover_takes (standby : s.get Reg.PAIR_STATUS_ROLE = 2) (due : y ≤ s.now) :
    exec .yieldHandover s = .next s.takeLease := by
  change execYieldHandover s = _
  rw [execYieldHandover, yields]
  dsimp only
  rw [if_neg (by rw [standby]; decide), if_pos ⟨standby, due⟩]

end

theorem suspectRegs_apart : Reg.PAIR_STATUS_ROLE.FreeOf suspectRegs ∧ Reg.PAIR_STATUS_GATE_OPEN.FreeOf suspectRegs ∧
    Reg.PAIR_EPOCH_EPOCH.FreeOf suspectRegs := by decide

/-- A holder that has yielded is a standby under the next epoch, distrusted after an error of its own. -/
theorem State.yielded_shows (s : State) (e : Nat) (suspect : Bool) :
    let t := if suspect then (s.enterStandby (e % 2 ^ 32)).becomeSuspect else s.enterStandby (e % 2 ^ 32)
    t.units = s.units ∧ t.get Reg.PAIR_STATUS_ROLE = 2 ∧ t.bit Reg.PAIR_STATUS_GATE_OPEN = false ∧
      t.get Reg.PAIR_EPOCH_EPOCH = e % 2 ^ 32 := by
  obtain ⟨role, epoch, closed⟩ := s.enterStandby_shows (e % 2 ^ 32)
  obtain ⟨freeRole, freeGate, freeEpoch⟩ := suspectRegs_apart
  have enters := PairWork.enterStandby s (e % 2 ^ 32)
  have rest := PairWork.becomeSuspect (s.enterStandby (e % 2 ^ 32))
  intro t
  cases suspect with
  | false => exact ⟨enters.units, role, closed, epoch.trans (Nat.mod_mod ..)⟩
  | true => exact ⟨rest.units.trans enters.units, (rest.get freeRole).trans role, (rest.bit freeGate).trans closed,
      (rest.get freeEpoch).trans (epoch.trans (Nat.mod_mod ..))⟩

/-! ### Planned swaps and resynchronisation (R778, R787) -/

theorem exec_pairSwap_refused (up : s.hostUp = true)
    (busy : s.get Reg.PAIR_STATUS_ROLE ≠ 1 ∨ s.pair.swap ≠ 0 ∨ s.pair.yieldAt ≠ none) :
    exec .pairSwap s = .next (s.put Reg.PAIR_STATUS_CFG_REJ 1) := by
  refine (State.ifHost_up up _).trans (congrArg _ ((if_pos ?_).trans rfl))
  rwa [Option.isSome_iff_ne_none]

theorem exec_pairSwap (up : s.hostUp = true) (holder : s.get Reg.PAIR_STATUS_ROLE = 1) (idle : s.pair.swap = 0)
    (keeps : s.pair.yieldAt = none) : exec .pairSwap s =
      .next (if s.coldMode then (s.sendState).modPair fun p => { p with swap := 1 } else s.sendYield false 3) := by
  refine (State.ifHost_up up _).trans (congrArg _ (if_neg ?_))
  rw [keeps]
  exact not_or.2 ⟨not_not.2 holder, not_or.2 ⟨not_not.2 idle, Bool.false_ne_true⟩⟩

theorem exec_pairSwap_spec (up : s.hostUp = true) (holder : s.get Reg.PAIR_STATUS_ROLE = 1) (idle : s.pair.swap = 0)
    (keeps : s.pair.yieldAt = none) : ∃ t, exec .pairSwap s = .next t ∧ t.regs = s.regs ∧ t.units = s.units ∧
      (s.coldMode = true → t.pair.swap = 1) ∧
      (s.coldMode = false → t.pair.swap = 3 ∧ t.pair.yieldAt = some (s.now + 3 * s.blockP, false)) := by
  have run := exec_pairSwap up holder idle keeps
  cases mode : s.coldMode with
  | true =>
    have sends := OnlySends.sendState s
    exact ⟨_, run.trans (congrArg _ (if_pos mode)), sends.regs, sends.units, fun _ => rfl, fun warm => absurd warm (by decide)⟩
  | false =>
    have sends := OnlySends.sendYield s false 3
    refine ⟨_, run.trans (congrArg _ (if_neg (ne_true_of_eq_false mode))), sends.regs, sends.units, fun cold => absurd cold (by decide),
      fun _ => ?_⟩
    rw [State.sendYield_pair]
    exact ⟨rfl, rfl⟩

end Sys2Proof.Machine

namespace Sys2Proof.Machine

/-- Settles O53: each command of the lease is brought to the operation that it carries out (`enterStandby`, `takeLease`, `closeGate`, a
message), and the lemmas about that operation give its clause. -/
theorem pairLease : Obligations.PairLease := by
  unfold Obligations.PairLease
  refine ⟨fun v s up restored => pairEnWrite_spec v up restored, fun s => ⟨exec_pairListenEnd_idle, fun a listening cut => ?_⟩,
    fun s => ⟨fun granted free => ?_, fun none role => ?_, exec_leaseRenew_idle⟩,
    fun m s => ⟨higherEpoch_spec, lowerEpoch_spec, sameEpoch_spec, notAccepted_spec⟩,
    fun m w s asked => ⟨fun found => ?_, fun new room => ⟨⟨_, exec_renewReceived_asked asked, State.witRenew_new new room⟩,
      ⟨_, exec_claimReceived_asked asked, State.witClaim_new new room⟩⟩⟩,
    fun m s => ⟨exec_ackReceived_spec, fun y b => exec_ackReceived_yield⟩,
    fun s => ⟨fun ends => ⟨_, exec_leaseTimerExpiry ends, closeGate_cuts ends.1⟩, exec_leaseTimerExpiry_runs⟩,
    fun s => ⟨fun may => ⟨_, exec_claimSend may, s.claims_shows _⟩, exec_claimSend_waits⟩, fun m s => exec_grantReceived_spec,
    fun m s => exec_yield_spec, fun y b s yields => ⟨exec_yieldHandover_early yields, fun holder acked due => ?_,
      fun holder silent due => ?_, fun standby due free => ?_⟩,
    fun s up => ⟨exec_pairSwap_refused up, exec_pairSwap_spec up, fun standby suspect => ?_, fun off => ?_⟩⟩
  · exact ⟨fun past => ⟨_, (exec_pairListenEnd listening cut).trans (congrArg _ (if_pos past)), s.claims_shows 1⟩,
      fun early => (exec_pairListenEnd listening cut).trans (congrArg _ (if_neg (Nat.not_le.2 early)))⟩
  · obtain ⟨role, epoch, opened, renew, units⟩ := State.takeLease_shows free
    obtain ⟨regs, same, count, -⟩ := s.takeLease.renews_shows
    exact ⟨_, exec_leaseRenew_takes granted free, (State.get_of_regs regs _).trans role, (State.get_of_regs regs _).trans epoch,
      (State.bit_of_regs regs _).trans opened, by rw [count, renew], same.trans units⟩
  · obtain ⟨regs, units, count, sent⟩ := s.renews_shows
    exact ⟨_, exec_leaseRenew_holds none role, (State.get_of_regs regs _).trans role, count, sent, units⟩
  · exact ⟨fun newer => ⟨_, exec_renewReceived_asked asked, State.witRenew_newer found newer⟩,
      fun older => ⟨_, exec_renewReceived_asked asked, (State.witRenew_older found older).pair, (State.witRenew_older found older).regs⟩,
      fun a renewed recent => ⟨_, exec_claimReceived_asked asked, (State.witClaim_refuses found renewed recent).pair,
        (State.witClaim_refuses found renewed recent).regs⟩,
      fun silent once => ⟨_, exec_claimReceived_asked asked, State.witClaim_grants found silent once⟩⟩
  · exact ⟨_, exec_yieldHandover_yields yields holder acked due, s.yielded_shows _ _⟩
  · refine ⟨_, exec_yieldHandover_keeps yields holder silent due, ?_, rfl⟩
    exact (State.yieldAnswer_pair yields true).trans rfl
  · obtain ⟨role, epoch, opened, -, units⟩ := State.takeLease_shows free
    exact ⟨_, exec_yieldHandover_takes yields standby due, role, opened, units, epoch⟩
  · exact ⟨_, (State.ifHost_up up _).trans (congrArg _ (if_pos ⟨standby, suspect⟩)), State.get_put_same s Reg.PAIR_STATUS_SYNC 1, rfl, rfl⟩
  · refine (State.ifHost_up up _).trans (congrArg _ (if_neg fun both => ?_))
    rcases off with role | trusted
    · exact role both.1
    · exact absurd (trusted.symm.trans both.2) (by decide)

end Sys2Proof.Machine
end

