-- ==== Sys2Proof/Proofs/PairCopies.lean ====
section
/-! PROOF. What keeps a standby in step (R772-R776): mirrors, control state, replicas, digests, verdicts and resynchronisation. -/

namespace Sys2Proof.Machine
variable {s t u : State} {m : PairMsg}

/-! ### The channel of mirrors -/

theorem heardRegs_free : Reg.PAIR_STATUS_SYNC.FreeOf heardRegs ∧ Reg.PAIR_STATUS_SUSPECT.FreeOf heardRegs ∧
    Reg.PAIR_CFG_MODE.FreeOf heardRegs ∧ Reg.PAIR_CFG_EN.FreeOf heardRegs ∧ Reg.PAIR_GRP_CMP_GROUPS.FreeOf heardRegs ∧
    Reg.PAIR_GRP_MISM_GROUPS.FreeOf heardRegs := by decide

theorem State.told_coldMode (s : State) (m : PairMsg) : (s.told m).coldMode = s.coldMode :=
  congrArg (· == 1) ((PairWork.told s m).get heardRegs_free.2.2.1)

theorem State.told_takesMirrors (s : State) (m : PairMsg) : (s.told m).takesMirrors = s.takesMirrors := by
  have heard := PairWork.told s m
  obtain ⟨_, pair⟩ := s.told_pair m
  obtain ⟨-, role, -, ready, -⟩ := toldRegs_free
  rw [State.takesMirrors, State.takesMirrors, s.told_coldMode, heard.get role, heard.get heardRegs_free.1, heard.bit ready, pair]

section
variable (told : s.toldBy m)
include told

theorem exec_mirrorReceived_mirror (kind : m.kind = 0x13) : exec (.mirrorReceived m) s = .next ((s.told m).takeMirror m) := by
  refine congrArg Host.Outcome.next ((State.onPartner_told told _).trans ?_)
  rw [kind]
  rfl

theorem exec_mirrorReceived_state {c : ControlState} (kind : m.kind = 0x18) (control : m.control = some c) :
    exec (.mirrorReceived m) s = .next ((s.told m).takeState c) := by
  refine congrArg Host.Outcome.next ((State.onPartner_told told _).trans ?_)
  rw [kind, control]
  rfl

theorem exec_mirrorReceived_replica {x : Settings} (kind : m.kind = 0x19) (replica : m.replica = some x) :
    exec (.mirrorReceived m) s = .next ((s.told m).takeReplica x) := by
  refine congrArg Host.Outcome.next ((State.onPartner_told told _).trans ?_)
  rw [kind, replica]
  rfl

end

/-! ### A mirror (R772) -/

theorem State.takeMirror_idle (idle : s.takesMirrors = false) : s.takeMirror m = s := by
  rw [State.takeMirror, idle]
  rfl

theorem State.takeMirror_gap (takes : s.takesMirrors = true) (gap : m.seq ≠ s.pair.mirrorIn) : s.takeMirror m = s.becomeSuspect := by
  rw [State.takeMirror, takes, if_neg (by decide), if_pos gap]

theorem State.takeMirror_next {c : MirrorCmd} (takes : s.takesMirrors = true) (next : m.seq = s.pair.mirrorIn) (holds : m.mirror = some c) :
    s.takeMirror m = (s.modPair fun p => { p with mirrorIn := p.mirrorIn + 1 }).applyMirror c := by
  rw [State.takeMirror, takes, if_neg (by decide), if_neg (not_not.2 next), holds]

/-- The number of the next mirror is as it was. -/
theorem State.paramSet_mirrorIn (s : State) (target ramp : Nat) (eq : Bool) (items : List ParamItem) :
    (s.paramSet target ramp eq .inline items []).1.pair.mirrorIn = s.pair.mirrorIn := by
  have plan (p : Plan) : (s.commitPlan p).pair = s.pair := by
    have fades (v : State) (l : List Crossfade) : (v.addFades l).pair = v.pair := by
      unfold State.addFades
      refine State.each_keeps (fun t : State => t.pair = v.pair) _ (fun _ t kept => ?_) _ _ rfl
      exact kept
    have shown (v : State) (l : List Change) : (v.showSeq l).pair = v.pair := by
      refine State.each_keeps (fun t : State => t.pair = v.pair) _ (fun c t kept => ?_) v _ rfl
      have raised (w : State) (f : Fld) (n : Nat) : (w.raise f n).pair = w.pair := by
        unfold State.raise
        split <;> rfl
      exact (raised _ _ _).trans kept
    exact (shown _ _).trans (fades _ _)
  have mirrored (v : State) (c : MirrorCmd) : (v.mirrorOut c).pair.mirrorIn = v.pair.mirrorIn := by
    unfold State.mirrorOut
    split
    · exact (congrArg PairSt.mirrorIn (Sends.sendPair v { v.pairMsg 0x13 with seq := v.pair.mirrorOut, mirror := some c }).pair :)
    · rfl
  unfold State.paramSet
  split
  · rfl
  · split
    · rfl
    · rfl
    · exact (mirrored _ _).trans (congrArg PairSt.mirrorIn (plan _))

/-- What is not applied as the holder applied it makes the standby SUSPECT, and moves nothing else. -/
theorem State.mirrored_keeps (s : State) (st : Status) : (s.mirrored st).mix = s.mix ∧ (s.mirrored st).units = s.units ∧
    (s.mirrored st).pair.mirrorIn = s.pair.mirrorIn := by
  unfold State.mirrored
  split
  · exact ⟨rfl, rfl, rfl⟩
  · have suspect := PairWork.becomeSuspect s
    refine ⟨suspect.mix, suspect.units, ?_⟩
    rw [State.becomeSuspect_pair]
    rfl

/-! ### Control state (R776) -/

/-- What the installed control state leaves as it is while the schedule's memories follow it. -/
def Follows (s t : State) : Prop := t.units = s.units ∧ t.pair = s.pair ∧ t.mix.params = s.mix.params ∧
    t.pours.templates = s.pours.templates

theorem Follows.refl : Follows s s := ⟨rfl, rfl, rfl, rfl⟩

theorem Follows.trans (a : Follows s t) (b : Follows t u) : Follows s u :=
  ⟨b.1.trans a.1, b.2.1.trans a.2.1, b.2.2.1.trans a.2.2.1, b.2.2.2.trans a.2.2.2⟩

theorem Follows.each {α : Type} {xs : List α} {f : α → State → State} (h : ∀ x t, Follows t (f x t)) : Follows s (s.each xs f) :=
  State.each_keeps (Follows s) f (fun x t kept => kept.trans (h x t)) s xs .refl

theorem Follows.ite {c : Prop} [Decidable c] (a : Follows s t) (b : Follows s u) : Follows s (if c then t else u) := by
  split
  · exact a
  · exact b

theorem Follows.raise (s : State) (f : Fld) (n : Nat) : Follows s (s.raise f n) := .ite ⟨rfl, rfl, rfl, rfl⟩ .refl

theorem Follows.countLive (s : State) : Follows s s.countLive := Follows.trans (t := s.put _ _) ⟨rfl, rfl, rfl, rfl⟩ (.raise _ _ _)

theorem Follows.countPool (s : State) : Follows s s.countPool := Follows.trans (t := s.put _ _) ⟨rfl, rfl, rfl, rfl⟩ (.raise _ _ _)

theorem Follows.stageBlock (s : State) (i : SchedImage) (d lo hi : Nat) : Follows s (s.stageBlock i d lo hi) := by
  have tables (v : State) : Follows v (v.tables i d) := by
    obtain ⟨_, tables⟩ := v.tables_writesShm i d
    rw [tables]
    exact ⟨rfl, rfl, rfl, rfl⟩
  unfold State.stageBlock
  exact .ite .refl (.trans (t := s.modMix _) ⟨rfl, rfl, rfl, rfl⟩ (tables _))

theorem Follows.setBridges (s : State) (i : SchedImage) : Follows s (s.setBridges i) := by
  have dropped (v : State) (l : List Nat) : Follows v (v.each l fun a t => t.dropAsrc a) := .each fun _ _ => ⟨rfl, rfl, rfl, rfl⟩
  have taken (v : State) (l : List Nat) : Follows v (v.each l fun a t => if t.poolUsed < 240 then t.takeAsrc a else t) :=
    .each fun _ _ => .ite ⟨rfl, rfl, rfl, rfl⟩ .refl
  unfold State.setBridges
  exact .ite .refl (((dropped _ _).trans (taken _ _)).trans (.countPool _))

theorem Follows.stageNow (s : State) (d : Nat) : Follows s (s.stageNow d) := by
  unfold State.stageNow
  split
  · exact (Follows.stageBlock ..).trans (.setBridges ..)
  · exact .refl

theorem Follows.writeSlots (s : State) (i : SchedImage) (c : Nat) : Follows s (s.writeSlots i c) := .each fun _ _ => ⟨rfl, rfl, rfl, rfl⟩

/-- The control state of the holder is in force at a standby. -/
def ControlIn (s : State) (c : ControlState) (t : State) : Prop :=
  t.units = s.units ∧ t.mix.params = c.params ∧ t.pair.mirrorIn = c.mirror ∧ t.pours.templates = c.templates

theorem ControlIn.follows {c : ControlState} (a : ControlIn s c t) (b : Follows t u) : ControlIn s c u :=
  ⟨b.1.trans a.1, b.2.2.1.trans a.2.1, (congrArg PairSt.mirrorIn b.2.1).trans a.2.2.1, b.2.2.2.trans a.2.2.2⟩

theorem State.installControl_shows (s : State) (c : ControlState) : ControlIn s c (s.installControl c) := by
  unfold State.installControl
  extract_lets s1 live pours s2 s3 s4
  have counted := Follows.countLive s2
  have installed : ControlIn s c s3 := ⟨counted.1, counted.2.2.1, rfl, counted.2.2.2⟩
  have staged : ControlIn s c s4 := installed.follows (.each fun d t => .stageNow t d)
  clear_value s4
  split
  · exact staged.follows (.each fun _ _ => .ite (.writeSlots ..) .refl)
  · exact staged

/-! ## The clauses of mirrors, control state and replicas, and the digests. -/

section
variable (told : s.toldBy m)
include told

theorem exec_mirrorReceived_gap (kind : m.kind = 0x13) (takes : s.takesMirrors = true) (gap : m.seq ≠ s.pair.mirrorIn) :
    ∃ t, exec (.mirrorReceived m) s = .next t ∧ t.bit Reg.PAIR_STATUS_SUSPECT = true ∧ t.bit Reg.PAIR_STATUS_READY = false ∧
      t.get Reg.PAIR_STATUS_SYNC = 1 ∧ t.mix = s.mix ∧ t.units = s.units := by
  have heard := PairWork.told s m
  have work := PairWork.becomeSuspect (s.told m)
  obtain ⟨_, pair⟩ := s.told_pair m
  obtain ⟨suspect, ready, sync⟩ := (s.told m).becomeSuspect_shows
  have late : m.seq ≠ (s.told m).pair.mirrorIn := by rw [pair]; exact gap
  exact ⟨_, (exec_mirrorReceived_mirror told kind).trans (congrArg _ (State.takeMirror_gap ((s.told_takesMirrors m).trans takes) late)),
    suspect, ready, sync, work.mix.trans heard.mix, work.units.trans heard.units⟩

theorem exec_mirrorReceived_params {ramp : Nat} {eq : Bool} {target : Nat} {items : List ParamItem} (kind : m.kind = 0x13)
    (takes : s.takesMirrors = true) (next : m.seq = s.pair.mirrorIn) (holds : m.mirror = some (.params ramp eq target items)) :
    ∃ t u : State, exec (.mirrorReceived m) s = .next t ∧ u.mix = s.mix ∧ u.doms = s.doms ∧ u.sched = s.sched ∧
      t.pair.mirrorIn = s.pair.mirrorIn + 1 ∧ t.units = s.units ∧ t.mix = (u.paramSet target ramp eq .inline items []).1.mix := by
  have heard := PairWork.told s m
  obtain ⟨_, pair⟩ := s.told_pair m
  have first : m.seq = (s.told m).pair.mirrorIn := by rw [pair]; exact next
  have applied := (exec_mirrorReceived_mirror told kind).trans
    (congrArg _ (State.takeMirror_next ((s.told_takesMirrors m).trans takes) first holds))
  have counted : ((s.told m).modPair fun p => { p with mirrorIn := p.mirrorIn + 1 }).pair.mirrorIn = s.pair.mirrorIn + 1 := by
    change (s.told m).pair.mirrorIn + 1 = s.pair.mirrorIn + 1
    rw [pair]
  have work : PairWork heardRegs s ((s.told m).modPair fun p => { p with mirrorIn := p.mirrorIn + 1 }) := heard.trans (.modPair ..)
  generalize (s.told m).modPair (fun p => { p with mirrorIn := p.mirrorIn + 1 }) = v at applied counted work
  obtain ⟨mix, units, mirrorIn⟩ := (v.paramSet target ramp eq .inline items []).1.mirrored_keeps
    (v.paramSet target ramp eq .inline items []).2.1
  exact ⟨_, v, applied, work.mix, work.doms, work.sched, mirrorIn.trans ((v.paramSet_mirrorIn target ramp eq items).trans counted),
    units.trans ((OutsideSurface.paramSet v target ramp eq .inline items []).block.units.trans work.units), mix⟩

theorem exec_mirrorReceived_idle (kind : m.kind = 0x13) (idle : s.takesMirrors = false) :
    ∃ t, exec (.mirrorReceived m) s = .next t ∧ t.mix = s.mix ∧ t.pair.mirrorIn = s.pair.mirrorIn ∧
      t.bit Reg.PAIR_STATUS_SUSPECT = s.bit Reg.PAIR_STATUS_SUSPECT := by
  have heard := PairWork.told s m
  obtain ⟨_, pair⟩ := s.told_pair m
  refine ⟨_, (exec_mirrorReceived_mirror told kind).trans (congrArg _ (State.takeMirror_idle ((s.told_takesMirrors m).trans idle))),
    heard.mix, ?_, heard.bit heardRegs_free.2.1⟩
  rw [pair]

theorem exec_mirrorReceived_keeps {x : Settings} (kind : m.kind = 0x19) (replica : m.replica = some x)
    (standby : s.get Reg.PAIR_STATUS_ROLE = 2) (cold : s.coldMode = true) :
    ∃ t, exec (.mirrorReceived m) s = .next t ∧ t.pair.replica = some x ∧ t.pair.replicaAt = s.now ∧ t.units = s.units ∧
      (s.pair.coldStart = false → t.bit Reg.PAIR_STATUS_READY = true) := by
  have heard := PairWork.told s m
  obtain ⟨seen, pair⟩ := s.told_pair m
  have takes : (s.told m).takeReplica x = if (s.told m).pair.coldStart = true
      then (s.told m).modPair fun p => { p with replica := some x, replicaAt := (s.told m).now }
      else ((s.told m).modPair fun p => { p with replica := some x, replicaAt := (s.told m).now }).becomeReady := by
    refine if_neg (not_or.2 ⟨not_not.2 ((heard.get toldRegs_free.2.1).trans standby), ?_⟩)
    rw [s.told_coldMode, cold]
    decide
  have run := (exec_mirrorReceived_replica told kind replica).trans (congrArg _ takes)
  cases start : s.pair.coldStart with
  | true =>
    have started : (s.told m).pair.coldStart = true := by rw [pair]; exact start
    exact ⟨_, run.trans (congrArg _ (if_pos started)), rfl, heard.now, heard.units, fun off => absurd off (by decide)⟩
  | false =>
    have idle : ¬(s.told m).pair.coldStart = true := by rw [pair, start]; decide
    refine ⟨_, run.trans (congrArg _ (if_neg idle)), ?_, ?_,
      (PairWork.becomeReady (l := [Reg.PAIR_STATUS_READY]) List.mem_cons_self _).units.trans heard.units,
      fun _ => State.becomeReady_ready _⟩
    · rw [State.becomeReady_pair]
      rfl
    · rw [State.becomeReady_pair]
      exact heard.now

theorem exec_mirrorReceived_control {c : ControlState} (kind : m.kind = 0x18) (control : m.control = some c)
    (standby : s.get Reg.PAIR_STATUS_ROLE = 2) (warm : s.coldMode = false) (sync : s.get Reg.PAIR_STATUS_SYNC = 1) :
    ∃ t, exec (.mirrorReceived m) s = .next t ∧ t.get Reg.PAIR_STATUS_SYNC = 2 ∧ t.mix.params = c.params ∧ t.pair.mirrorIn = c.mirror ∧
      t.pours.templates = c.templates ∧ t.units = s.units := by
  have heard := PairWork.told s m
  have takes : (s.told m).takeState c =
      (((s.told m).installControl c).put Reg.PAIR_STATUS_SYNC 2).modPair fun p => { p with groups := 0, digests := [] } := by
    refine (if_neg (not_not.2 ((heard.get toldRegs_free.2.1).trans standby))).trans ((if_neg ?_).trans
      (if_pos ((heard.get heardRegs_free.1).trans sync)))
    rw [s.told_coldMode, warm]
    decide
  obtain ⟨units, params, mirror, templates⟩ := (s.told m).installControl_shows c
  have run := (exec_mirrorReceived_state told kind control).trans (congrArg _ takes)
  generalize (s.told m).installControl c = v at run units params mirror templates
  exact ⟨_, run, State.get_put_same v Reg.PAIR_STATUS_SYNC 2, params, mirror, templates, units.trans heard.units⟩

end

/-! ### Digests (R773) -/

theorem State.mem_comparedGroups {g : Nat} (mem : g ∈ s.comparedGroups) : g < 64 := List.mem_range.1 (List.mem_filter.1 mem).1

/-- The digests of the compared groups of a block. -/
def State.ownDigests (s : State) (j : Nat) : Tab Nat := s.comparedGroups.foldl (fun t g => Tab.put 0 t g (s.groupDigest j g)) []

theorem foldl_put_get {β : Type} [DecidableEq β] (b : β) (f : Nat → β) (d : Nat) : ∀ (l : List Nat) (g : Tab β), d ∈ l →
    Tab.get b (l.foldl (fun t g => Tab.put b t g (f g)) g) d = f d
  | a :: l, g, mem => by
    by_cases later : d ∈ l
    · exact foldl_put_get b f d l _ later
    · have here : d = a := (List.mem_cons.1 mem).resolve_right later
      have kept : ∀ (l : List Nat) (g : Tab β), d ∉ l → Tab.get b (l.foldl (fun t g => Tab.put b t g (f g)) g) d = Tab.get b g d := by
        intro l
        induction l with
        | nil => exact fun _ _ => rfl
        | cons x l ih =>
          intro g out
          obtain ⟨apart, rest⟩ := not_or.1 (mt List.mem_cons.2 out)
          exact (ih _ rest).trans (Tab.get_put_ne b g apart _)
      rw [List.foldl_cons, kept l _ later, here]
      exact Tab.get_put_same ..

theorem State.ownDigests_get (j : Nat) {g : Nat} (mem : g ∈ s.comparedGroups) : Tab.get 0 (s.ownDigests j) g = s.groupDigest j g :=
  foldl_put_get 0 (s.groupDigest j) g s.comparedGroups [] mem

/-- The digests that one message carries. -/
def digestPart (own : Tab Nat) (a : Nat) : List Nat := (List.range (min 24 (64 - a))).map fun k => Tab.get 0 own (a + k)

/-- The messages that carry the digests of a block. -/
def State.sendDigests (s : State) (j : Nat) (own : Tab Nat) (parts : List Nat) : State :=
  s.each parts fun a t => t.sendPair { t.pairMsg 0x12 with si := j, group := a, digests := digestPart own a }

theorem Sends.sendDigests (s : State) (j : Nat) (own : Tab Nat) (parts : List Nat) : Sends s (s.sendDigests j own parts) :=
  State.each_keeps (Sends s) _ (fun _ _ kept => kept.trans (.sendPair ..)) s parts .refl

/-- A block without the partner's digests is not compared yet. -/
theorem State.compareAll_waits {e : DigestSt} (one : s.pair.digests = [e])
    (waits : e.own = none ∨ ∃ g ∈ s.comparedGroups, Tab.get none e.partner g = none) : s.compareAll = s := by
  unfold State.compareAll State.each
  rw [one, List.foldl_cons, List.foldl_nil]
  dsimp only
  cases own : e.own with
  | none => rfl
  | some o =>
    obtain ⟨g, mem, open_⟩ := waits.resolve_left (by rw [own]; exact Option.some_ne_none o)
    refine if_neg fun all => ?_
    have given := List.all_eq_true.1 all g mem
    rw [open_] at given
    exact Bool.false_ne_true given

theorem exec_digestSend_idle (idle : s.inStep = false ∨ s.now < 2 * s.blockP) : exec .digestSend s = .next s := by
  refine if_pos ?_
  rcases idle with out | early
  · rw [out]
    rfl
  · rw [decide_eq_true early, Bool.or_true]

/-- The engine has noted its own digests of a block, the first that it notes. -/
def State.notesDigests (s : State) (j : Nat) (own : Tab Nat) : State :=
  (s.modPair fun p => { p with digests := p.digests.filter fun e => decide (j ≤ e.si + 4 * s.blockP) }).modDigest j fun e =>
    { e with own := some own }

theorem State.notesDigests_digests (empty : s.pair.digests = []) (j : Nat) (own : Tab Nat) :
    (s.notesDigests j own).pair.digests = [{ si := j, own := some own }] := by
  unfold State.notesDigests State.modDigest State.modPair
  dsimp only
  rw [empty]
  rfl

theorem exec_digestSend (step : s.inStep = true) (due : 2 * s.blockP ≤ s.now) : ∃ parts, exec .digestSend s =
    .next ((s.notesDigests (s.now - 2 * s.blockP) (s.ownDigests (s.now - 2 * s.blockP))).sendDigests (s.now - 2 * s.blockP)
      (s.ownDigests (s.now - 2 * s.blockP)) parts).compareAll := by
  refine ⟨_, if_neg ?_⟩
  rw [step, decide_eq_false (Nat.not_lt.2 due)]
  decide

theorem exec_digestSend_spec (empty : s.pair.digests = []) (step : s.inStep = true) (due : 2 * s.blockP ≤ s.now)
    (some_ : s.comparedGroups ≠ []) : ∃ (t : State) (o : Tab Nat), exec .digestSend s = .next t ∧ t.units = s.units ∧
      t.regs = s.regs ∧ t.pair.digests = [{ si := s.now - 2 * s.blockP, own := some o }] ∧
      ∀ g ∈ s.comparedGroups, Tab.get 0 o g = s.groupDigest (s.now - 2 * s.blockP) g := by
  obtain ⟨parts, run⟩ := exec_digestSend step due
  have noted := State.notesDigests_digests empty (s.now - 2 * s.blockP) (s.ownDigests (s.now - 2 * s.blockP))
  have regs : (s.notesDigests (s.now - 2 * s.blockP) (s.ownDigests (s.now - 2 * s.blockP))).regs = s.regs := rfl
  have units : (s.notesDigests (s.now - 2 * s.blockP) (s.ownDigests (s.now - 2 * s.blockP))).units = s.units := rfl
  have own := fun g mem => State.ownDigests_get (s := s) (s.now - 2 * s.blockP) (g := g) mem
  generalize s.notesDigests (s.now - 2 * s.blockP) (s.ownDigests (s.now - 2 * s.blockP)) = v at run noted regs units
  have sends := Sends.sendDigests v (s.now - 2 * s.blockP) (s.ownDigests (s.now - 2 * s.blockP)) parts
  have digests := (congrArg PairSt.digests sends.pair).trans noted
  obtain ⟨g, mem⟩ := List.exists_mem_of_ne_nil _ some_
  have same : (v.sendDigests (s.now - 2 * s.blockP) (s.ownDigests (s.now - 2 * s.blockP)) parts).comparedGroups = s.comparedGroups := by
    unfold State.comparedGroups
    refine congrArg (fun p => (List.range 64).filter p) (funext fun k => ?_)
    exact congrArg (Nat.testBit · k) (State.get_of_regs (sends.regs.trans regs) Reg.PAIR_GRP_CMP_GROUPS)
  refine ⟨_, _, run.trans (congrArg _ (State.compareAll_waits digests (.inr ⟨g, ?_, rfl⟩))), sends.units.trans units,
    sends.regs.trans regs, digests, own⟩
  rw [same]
  exact mem

/-! ## The partner's digests, verdicts and resynchronisation. -/

/-! ### Verdicts (R774) -/

/-- The exchange of verdicts is over. -/
def PairSt.decided (p : PairSt) : PairSt := { p with verdictOwn := none, verdictPartner := none, mismatches := 0 }

theorem State.resolve_open (open_ : s.pair.verdictOwn = none ∨ s.pair.verdictPartner = none) : s.resolve = s := by
  unfold State.resolve
  rcases open_ with own | partner
  · rw [own]
  · rw [partner]
    cases s.pair.verdictOwn <;> rfl

section
variable {own other : Bool} (mine : s.pair.verdictOwn = some own) (theirs : s.pair.verdictPartner = some other)
include mine theirs

theorem State.resolve_both : s.resolve =
    if s.get Reg.PAIR_STATUS_ROLE = 1 then
      if own && !other && s.pair.yieldAt.isNone then (s.modPair PairSt.decided).sendYield true 3 else s.modPair PairSt.decided
    else if s.get Reg.PAIR_STATUS_ROLE = 2 then
      if other && !own then s.modPair PairSt.decided else (s.modPair PairSt.decided).becomeSuspect
    else s.modPair PairSt.decided := by
  unfold State.resolve
  rw [mine, theirs]
  rfl

theorem State.resolve_standby (standby : s.get Reg.PAIR_STATUS_ROLE = 2) : s.resolve =
    if other && !own then s.modPair PairSt.decided else (s.modPair PairSt.decided).becomeSuspect := by
  rw [State.resolve_both mine theirs, standby, if_neg (by decide), if_pos rfl]

end

theorem PairWork.resolve (s : State) : PairWork suspectRegs s s.resolve := by
  have decided : PairWork suspectRegs s (s.modPair PairSt.decided) := .modPair ..
  cases mine : s.pair.verdictOwn with
  | none => exact (State.resolve_open (.inl mine)).symm ▸ PairWork.refl
  | some own => cases theirs : s.pair.verdictPartner with
    | none => exact (State.resolve_open (.inr theirs)).symm ▸ PairWork.refl
    | some other =>
      rw [State.resolve_both mine theirs]
      refine .ite (.ite (decided.trans ?_) decided) (.ite (.ite decided (decided.trans (.becomeSuspect _))) decided)
      exact (PairWork.sends (.sendPair ..)).trans (.modPair _ fun p => p.yields _ true)

/-- The standby is SUSPECT unless the partner alone found an error. -/
theorem State.resolve_standby_shows {own other : Bool} (mine : s.pair.verdictOwn = some own) (theirs : s.pair.verdictPartner = some other)
    (standby : s.get Reg.PAIR_STATUS_ROLE = 2) :
    s.resolve.bit Reg.PAIR_STATUS_SUSPECT = (if other && !own then s.bit Reg.PAIR_STATUS_SUSPECT else true) ∧
      s.resolve.pair.verdictOwn = none := by
  rw [State.resolve_standby mine theirs standby]
  split
  · exact ⟨rfl, rfl⟩
  · refine ⟨(State.becomeSuspect_shows _).1, ?_⟩
    rw [State.becomeSuspect_pair]
    rfl

/-- The engine as it has the partner's verdict. -/
def State.hasVerdict (s : State) (found : Bool) : State := s.modPair fun p => { p with verdictPartner := some found }

theorem exec_verdictReceived (told : s.toldBy m) : exec (.verdictReceived m) s = .next ((s.told m).hasVerdict m.errorFound).resolve :=
  congrArg Host.Outcome.next (State.onPartner_told told _)

theorem exec_verdictReceived_spec (told : s.toldBy m) :
    (s.pair.verdictOwn = none → ∃ t, exec (.verdictReceived m) s = .next t ∧ t.pair.verdictPartner = some m.errorFound ∧
      t.units = s.units) ∧
    (∀ own, s.pair.verdictOwn = some own → s.get Reg.PAIR_STATUS_ROLE = 2 → ∃ t, exec (.verdictReceived m) s = .next t ∧
      t.bit Reg.PAIR_STATUS_SUSPECT = (if m.errorFound && !own then s.bit Reg.PAIR_STATUS_SUSPECT else true) ∧
      t.pair.verdictOwn = none ∧ t.units = s.units) ∧
    (s.pair.verdictOwn = some true → m.errorFound = false → s.get Reg.PAIR_STATUS_ROLE = 1 → s.pair.yieldAt = none →
      ∃ t, exec (.verdictReceived m) s = .next t ∧ t.pair.yieldAt = some (s.now + 3 * s.blockP, false) ∧
        t.pair.suspectNext = true) := by
  have heard := PairWork.told s m
  have run := exec_verdictReceived told
  have own : ((s.told m).hasVerdict m.errorFound).pair.verdictOwn = s.pair.verdictOwn := by
    obtain ⟨_, pair⟩ := s.told_pair m
    exact (congrArg PairSt.verdictOwn pair).trans rfl
  have partner : ((s.told m).hasVerdict m.errorFound).pair.verdictPartner = some m.errorFound := rfl
  have yields : ((s.told m).hasVerdict m.errorFound).pair.yieldAt = s.pair.yieldAt := by
    obtain ⟨_, pair⟩ := s.told_pair m
    exact (congrArg PairSt.yieldAt pair).trans rfl
  have work : PairWork heardRegs s ((s.told m).hasVerdict m.errorFound) := heard.trans (.modPair ..)
  generalize (s.told m).hasVerdict m.errorFound = v at run own partner yields work
  have role := work.get toldRegs_free.2.1
  refine ⟨fun none => ?_, fun o mine standby => ?_, fun mine clean holder keeps => ?_⟩
  · exact ⟨_, run.trans (congrArg _ (State.resolve_open (.inl (own.trans none)))), partner, work.units⟩
  · obtain ⟨suspect, ended⟩ := State.resolve_standby_shows (own.trans mine) partner (role.trans standby)
    refine ⟨_, run, ?_, ended, (PairWork.resolve v).units.trans work.units⟩
    rw [suspect, work.bit heardRegs_free.2.1]
  · have asks : v.resolve = (v.modPair PairSt.decided).sendYield true 3 := by
      rw [State.resolve_both (own.trans mine) partner, if_pos (role.trans holder), yields, keeps, clean]
      exact if_pos rfl
    refine ⟨_, run.trans (congrArg _ asks), ?_, ?_⟩
    · rw [State.sendYield_pair, ← work.now, ← work.blockP]
      rfl
    · rw [State.sendYield_pair]
      rfl

theorem exec_verdictTimeout_spec (s : State) :
    (s.pair.verdictOwn = none ∨ s.pair.verdictPartner ≠ none → exec .verdictTimeout s = .next s) ∧
    (∀ own, s.pair.verdictOwn = some own → s.pair.verdictPartner = none → s.get Reg.PAIR_STATUS_ROLE = 2 →
      ∃ t, exec .verdictTimeout s = .next t ∧ t.pair.verdictOwn = none ∧ t.units = s.units ∧
        t.bit Reg.PAIR_STATUS_SUSPECT = (own || s.bit Reg.PAIR_STATUS_SUSPECT)) := by
  refine ⟨fun ended => congrArg Host.Outcome.next (if_neg ?_), fun own mine waits standby => ?_⟩
  · rcases ended with none | given
    · rw [none]
      exact Bool.false_ne_true
    · rw [Option.isNone_iff_eq_none.not.2 given |> Bool.eq_false_iff.2, Bool.and_false]
      exact Bool.false_ne_true
  · have due : (s.pair.verdictOwn.isSome && s.pair.verdictPartner.isNone) = true := by
      rw [mine, waits]
      rfl
    obtain ⟨suspect, ended⟩ := State.resolve_standby_shows (s := s.hasVerdict true) mine rfl standby
    refine ⟨(s.hasVerdict true).resolve, congrArg Host.Outcome.next (if_pos due), ended, (PairWork.resolve (s.hasVerdict true)).units,
      suspect.trans ?_⟩
    cases own <;> rfl

/-! ### The partner's digests (R773, R774) -/

theorem State.told_inStep (s : State) (m : PairMsg) : (s.told m).inStep = s.inStep := by
  have heard := PairWork.told s m
  obtain ⟨_, pair⟩ := s.told_pair m
  rw [State.inStep, State.inStep, s.told_coldMode, heard.bit heardRegs_free.2.2.2.1, heard.get toldRegs_free.2.1, pair]

/-- The partner's digests of a block with those that a message brings. -/
def partnerDigests (m : PairMsg) (p : Tab (Option Nat)) : Tab (Option Nat) :=
  m.digests.zipIdx.foldl (fun x y => if m.group + y.2 < 64 then Tab.put none x (m.group + y.2) (some y.1) else x) p

theorem partnerDigests_get_from (group : Nat) (l : List Nat) (n : Nat) (p : Tab (Option Nat)) :
    (∀ g < group + n, Tab.get none ((l.zipIdx n).foldl
      (fun x y => if group + y.2 < 64 then Tab.put none x (group + y.2) (some y.1) else x) p) g = Tab.get none p g) ∧
    ∀ k d, l[k]? = some d → group + (n + k) < 64 → Tab.get none ((l.zipIdx n).foldl
      (fun x y => if group + y.2 < 64 then Tab.put none x (group + y.2) (some y.1) else x) p) (group + (n + k)) = some d := by
  induction l generalizing n p with
  | nil => exact ⟨fun _ _ => rfl, fun k d at_ => absurd at_ (by simp)⟩
  | cons a l ih =>
    rw [List.zipIdx_cons, List.foldl_cons]
    obtain ⟨before, after⟩ := ih (n + 1) (if group + n < 64 then Tab.put none p (group + n) (some a) else p)
    refine ⟨fun g early => (before g (by omega)).trans ?_, fun k d at_ inside => ?_⟩
    · split
      · exact Tab.get_put_ne none p (by omega) _
      · rfl
    · cases k with
      | zero =>
        refine (before _ (by omega)).trans ?_
        rw [Nat.add_zero] at inside ⊢
        rw [if_pos inside, Tab.get_put_same]
        exact at_
      | succ k =>
        have next := after k d (by simpa using at_) (by omega)
        rwa [show group + (n + 1 + k) = group + (n + (k + 1)) by omega] at next

theorem partnerDigests_get (m : PairMsg) (p : Tab (Option Nat)) {k d : Nat} (at_ : m.digests[k]? = some d) (inside : m.group + k < 64) :
    Tab.get none (partnerDigests m p) (m.group + k) = some d := by
  have get := (partnerDigests_get_from m.group m.digests 0 p).2 k d at_ (by omega)
  rwa [Nat.zero_add] at get

/-- The partner's digests of the block are noted. -/
def State.notesPartner (s : State) (m : PairMsg) : State :=
  s.modDigest m.si fun e => { e with partner := partnerDigests m e.partner }

theorem PairWork.modDigest {l : List Fld} (s : State) (si : Nat) (f : DigestSt → DigestSt) : PairWork l s (s.modDigest si f) :=
  ⟨.of_regs rfl, rfl, rfl, rfl, rfl, rfl, rfl, rfl, rfl, rfl, rfl⟩

theorem exec_digestReceived (told : s.toldBy m) : exec (.digestReceived m) s =
    .next (if !s.inStep || decide (m.si + 6 * s.blockP < s.now) then s.told m else ((s.told m).notesPartner m).compareAll) := by
  have heard := PairWork.told s m
  refine (congrArg Host.Outcome.next (State.onPartner_told told _)).trans ?_
  rw [s.told_inStep, heard.blockP, heard.now]
  rfl

theorem exec_digestReceived_late (told : s.toldBy m) (out : s.inStep = false ∨ m.si + 6 * s.blockP < s.now) :
    ∃ t, exec (.digestReceived m) s = .next t ∧ t.pair.digests = s.pair.digests ∧ t.units = s.units := by
  have past : (!s.inStep || decide (m.si + 6 * s.blockP < s.now)) = true := by
    rcases out with off | late
    · rw [off]
      rfl
    · rw [decide_eq_true late, Bool.or_true]
  obtain ⟨_, pair⟩ := s.told_pair m
  refine ⟨_, (exec_digestReceived told).trans (congrArg _ (if_pos past)), ?_, (PairWork.told s m).units⟩
  rw [pair]

theorem exec_digestReceived_notes (told : s.toldBy m) (step : s.inStep = true) (timely : s.now ≤ m.si + 6 * s.blockP) :
    exec (.digestReceived m) s = .next ((s.told m).notesPartner m).compareAll := by
  refine (exec_digestReceived told).trans (congrArg _ (if_neg ?_))
  rw [step, decide_eq_false (Nat.not_lt.2 timely)]
  decide

theorem exec_digestReceived_first (told : s.toldBy m) (step : s.inStep = true) (timely : s.now ≤ m.si + 6 * s.blockP)
    (empty : s.pair.digests = []) : ∃ t e, exec (.digestReceived m) s = .next t ∧ t.pair.digests = [e] ∧ e.si = m.si ∧ e.own = none ∧
      t.units = s.units ∧ ∀ k d, m.digests[k]? = some d → m.group + k < 64 → Tab.get none e.partner (m.group + k) = some d := by
  obtain ⟨_, pair⟩ := s.told_pair m
  have none_ : (s.told m).pair.digests = [] := by
    rw [pair]
    exact empty
  have noted : ((s.told m).notesPartner m).pair.digests = [{ si := m.si, partner := partnerDigests m [] }] := by
    unfold State.notesPartner State.modDigest State.modPair
    dsimp only
    rw [none_]
    rfl
  exact ⟨_, _, (exec_digestReceived_notes told step timely).trans (congrArg _ (State.compareAll_waits noted (.inl rfl))), noted, rfl, rfl,
    (PairWork.told s m).units, fun k d at_ inside => partnerDigests_get m [] at_ inside⟩

/-! ### The comparison of a block -/

theorem PairWork.giveVerdict (s : State) (mask : Nat) : PairWork suspectRegs s (s.giveVerdict mask) := by
  have posted : PairWork suspectRegs s (s.postNow .fault (some 60) 0x181 [s.pair.firstBad, mask]) := .postNow ..
  exact ((posted.trans (.sends (.sendPair ..))).trans (.modPair _ fun p => { p with verdictOwn := some s.ownError })).trans (.resolve _)

/-- The registers that the end of a resynchronisation writes. -/
def resyncRegs : List Fld := Reg.PAIR_CNT_RESYNCS :: suspectRegs

theorem PairWork.resyncDone (s : State) : PairWork resyncRegs s s.resyncDone := by
  have written : PairWork resyncRegs s (((s.put Reg.PAIR_STATUS_SYNC 0).put Reg.PAIR_STATUS_SUSPECT 0).bump Reg.PAIR_CNT_RESYNCS) :=
    ((PairWork.put (by simp [resyncRegs, suspectRegs]) 0).trans (.put (by simp [resyncRegs, suspectRegs]) 0)).trans
      (.put (by simp [resyncRegs, suspectRegs]) _)
  exact .ite (written.trans (.becomeReady (by simp [resyncRegs, suspectRegs]) _)) .refl

theorem State.resyncDone_pair (s : State) : s.resyncDone.pair = s.pair := by
  unfold State.resyncDone
  split
  · exact (State.becomeReady_pair _).trans rfl
  · rfl

/-- The one compared group has matched. -/
theorem State.compareBlock_match {g si : Nat} {own : Tab Nat} {partner : Tab (Option Nat)} (one : s.comparedGroups = [g])
    (same : Tab.get none partner g = some (Tab.get 0 own g)) : (s.compareBlock si own partner).pair.mismatches = 0 ∧
      PairWork resyncRegs s (s.compareBlock si own partner) := by
  have clean : [g].filter (fun g => Tab.get none partner g != some (Tab.get 0 own g)) = [] := by
    rw [List.filter_cons, same, bne_self_eq_false]
    rfl
  unfold State.compareBlock
  rw [one, clean]
  dsimp only [List.isEmpty_nil]
  rw [if_pos rfl]
  constructor
  · rw [State.resyncDone_pair]
    rfl
  · exact ((PairWork.modPair s fun p => { p with digests := p.digests.filter fun e => e.si != si }).trans (.modPair ..)).trans
      (.resyncDone _)

/-- The one compared group has mismatched: the mask and its flag show it, whatever a verdict does. -/
theorem State.compareBlock_mismatch {g si : Nat} {own : Tab Nat} {partner : Tab (Option Nat)} (one : s.comparedGroups = [g])
    (other : Tab.get none partner g ≠ some (Tab.get 0 own g)) : (s.compareBlock si own partner).bit Reg.PAIR_STATUS_MISMATCH_SEEN = true ∧
      ((s.compareBlock si own partner).get Reg.PAIR_GRP_MISM_GROUPS).testBit g = true ∧ (s.compareBlock si own partner).units =
        s.units := by
  have inside : g < 64 := State.mem_comparedGroups (s := s) (by rw [one]; exact List.mem_cons_self)
  have bad : [g].filter (fun g => Tab.get none partner g != some (Tab.get 0 own g)) = [g] := by
    rw [List.filter_cons, bne_iff_ne.2 other]
    rfl
  have marked (v : State) : ((v.setMask Reg.PAIR_GRP_MISM_GROUPS g).set Reg.PAIR_STATUS_MISMATCH_SEEN).bit
        Reg.PAIR_STATUS_MISMATCH_SEEN = true ∧
      (((v.setMask Reg.PAIR_GRP_MISM_GROUPS g).set Reg.PAIR_STATUS_MISMATCH_SEEN).get Reg.PAIR_GRP_MISM_GROUPS).testBit g = true := by
    refine ⟨State.bit_set_same _ rfl, ?_⟩
    rw [State.set, State.get_put_ne _ (by decide)]
    exact State.testBit_setMask v inside
  have rest (v w : State) (work : PairWork suspectRegs ((v.setMask Reg.PAIR_GRP_MISM_GROUPS g).set Reg.PAIR_STATUS_MISMATCH_SEEN) w) :
      w.bit Reg.PAIR_STATUS_MISMATCH_SEEN = true ∧ (w.get Reg.PAIR_GRP_MISM_GROUPS).testBit g = true ∧ w.units = v.units := by
    obtain ⟨seen, mask⟩ := marked v
    refine ⟨(work.bit (by decide)).trans seen, ?_, work.units⟩
    rw [work.get (by decide)]
    exact mask
  unfold State.compareBlock
  rw [one, bad]
  refine rest (s.modPair fun p => { p with digests := p.digests.filter fun e => e.si != si }) _ ?_
  dsimp only [List.isEmpty_cons]
  rw [if_neg Bool.false_ne_true]
  exact .ite (.modPair ..) (.ite ((PairWork.modPair ..).trans (.giveVerdict _ _)) (.modPair ..))

/-- A block with both digests is compared. -/
theorem State.compareAll_one {e : DigestSt} {own : Tab Nat} {g d : Nat} (one : s.pair.digests = [e]) (noted : e.own = some own)
    (group : s.comparedGroups = [g]) (given : Tab.get none e.partner g = some d) :
    s.compareAll = s.compareBlock e.si own e.partner := by
  unfold State.compareAll State.each
  rw [one, List.foldl_cons, List.foldl_nil]
  dsimp only
  rw [noted]
  refine if_pos (List.all_eq_true.2 fun k mem => ?_)
  rw [group] at mem
  rw [List.mem_singleton.1 mem, given]
  rfl

theorem exec_digestReceived_compares {g d : Nat} {o : Tab Nat} (told : s.toldBy m) (step : s.inStep = true)
    (timely : s.now ≤ m.si + 6 * s.blockP) (one : s.pair.digests = [{ si := m.si, own := some o }]) (group : s.comparedGroups = [g])
    (from_ : m.group = g) (brings : m.digests = [d]) : ∃ t, exec (.digestReceived m) s = .next t ∧ t.units = s.units ∧
      (d ≠ Tab.get 0 o g → t.bit Reg.PAIR_STATUS_MISMATCH_SEEN = true ∧ (t.get Reg.PAIR_GRP_MISM_GROUPS).testBit g = true) ∧
      (d = Tab.get 0 o g → t.pair.mismatches = 0 ∧ t.get Reg.PAIR_GRP_MISM_GROUPS = s.get Reg.PAIR_GRP_MISM_GROUPS) := by
  have heard := PairWork.told s m
  have inside : g < 64 := State.mem_comparedGroups (s := s) (by rw [group]; exact List.mem_cons_self)
  obtain ⟨_, pair⟩ := s.told_pair m
  have before : (s.told m).pair.digests = [{ si := m.si, own := some o }] := by
    rw [pair]
    exact one
  have noted : ((s.told m).notesPartner m).pair.digests = [{ si := m.si, own := some o, partner := partnerDigests m [] }] := by
    unfold State.notesPartner State.modDigest State.modPair
    dsimp only
    rw [before]
    simp
  have work : PairWork heardRegs s ((s.told m).notesPartner m) := heard.trans (.modDigest ..)
  have compared : ((s.told m).notesPartner m).comparedGroups = [g] := by
    rw [← group]
    refine congrArg (fun p => (List.range 64).filter p) (funext fun k => ?_)
    exact congrArg (Nat.testBit · k) (work.get heardRegs_free.2.2.2.2.1)
  have given : Tab.get none (partnerDigests m []) g = some d := by
    have get := partnerDigests_get m [] (k := 0) (d := d) (by rw [brings]; rfl) (by rw [from_]; exact inside)
    rwa [from_] at get
  have run := (exec_digestReceived_notes told step timely).trans (congrArg Host.Outcome.next
    (State.compareAll_one noted rfl compared given))
  by_cases same : d = Tab.get 0 o g
  · obtain ⟨none_, matched⟩ := State.compareBlock_match (s := (s.told m).notesPartner m) (si := m.si) compared (given.trans
      (congrArg some same))
    refine ⟨_, run, matched.units.trans work.units, fun other => absurd same other, fun _ => ⟨none_, ?_⟩⟩
    exact (matched.get (by decide)).trans (work.get heardRegs_free.2.2.2.2.2)
  · have differ : Tab.get none (partnerDigests m []) g ≠ some (Tab.get 0 o g) := fun eq => same (Option.some.inj (given.symm.trans eq))
    obtain ⟨seen, mask, units⟩ := State.compareBlock_mismatch (s := (s.told m).notesPartner m) (si := m.si) compared differ
    exact ⟨_, run, units.trans work.units, fun _ => ⟨seen, mask⟩, fun eq => absurd eq same⟩

/-! ### Carried state and the end of the resynchronisation (R776) -/

/-- The parts of a group are installed, and the group counted. -/
def State.installs (s : State) (data : List CarriedPart) : State :=
  (s.each data fun c t => t.install c).modPair fun p => { p with groups := p.groups + 1 }

theorem State.install_keeps (s : State) (c : CarriedPart) : (s.install c).units = s.units ∧ (s.install c).regs = s.regs ∧
    (s.install c).pair = s.pair := by
  unfold State.install
  split
  · exact ⟨rfl, rfl, rfl⟩
  · split <;> exact ⟨rfl, rfl, rfl⟩

theorem State.installs_keeps (s : State) (data : List CarriedPart) : (s.installs data).units = s.units ∧ (s.installs data).regs = s.regs ∧
    (s.installs data).pair.groups = s.pair.groups + 1 := by
  obtain ⟨units, regs, pair⟩ := State.each_keeps (fun t : State => t.units = s.units ∧ t.regs = s.regs ∧ t.pair = s.pair) (fun c t =>
    t.install c)
    (fun c t ⟨a, b, p⟩ => ⟨(t.install_keeps c).1.trans a, (t.install_keeps c).2.1.trans b, (t.install_keeps c).2.2.trans p⟩) s data
    ⟨rfl, rfl, rfl⟩
  exact ⟨units, regs, congrArg (fun p : PairSt => p.groups + 1) pair⟩

/-- One part of shared memory is installed. -/
theorem State.installs_shared (s : State) (a : Nat) (bs : List Byte) (fits : a + bs.length ≤ 2 ^ 26) :
    (s.installs [{ space := 0, addr := a, bytes := bs }]).shm = Memory.writeBytes s.shm a bs ∧
      (s.installs [{ space := 0, addr := a, bytes := bs }]).lmem = s.lmem := by
  have inside : ¬carriedLimit 0 < a + bs.length := Nat.not_lt.2 fits
  have eq : s.install { space := 0, addr := a, bytes := bs } = { s with shm := Memory.writeBytes s.shm a bs } := if_neg inside
  exact ⟨(congrArg State.shm eq :), (congrArg State.lmem eq :)⟩

theorem exec_resyncGroupCopy_idle {data : List CarriedPart} {last : Bool} (standby : s.get Reg.PAIR_STATUS_ROLE = 2)
    (idle : s.get Reg.PAIR_STATUS_SYNC ≠ 2) : exec (.resyncGroupCopy data last) s = .next s :=
  (if_neg fun both => absurd (standby.symm.trans both.1) (by decide)).trans (if_neg fun both => idle both.2)

/-- After the last group, blocks are compared once the longest delay line is rewritten. -/
def PairSt.compares (p : PairSt) (at_ : Nat) : PairSt := { p with linesAt := at_, matches_ := 0, mismatches := 0, digests := [] }

theorem exec_resyncGroupCopy {data : List CarriedPart} {last : Bool} (standby : s.get Reg.PAIR_STATUS_ROLE = 2)
    (copies : s.get Reg.PAIR_STATUS_SYNC = 2) : exec (.resyncGroupCopy data last) s = .next (if last then
      ((s.installs data).put Reg.PAIR_STATUS_SYNC 3).modPair fun p => p.compares (s.now + (s.installs data).longestLine)
      else s.installs data) :=
  (if_neg fun both => absurd (standby.symm.trans both.1) (by decide)).trans (if_pos ⟨standby, copies⟩)

theorem exec_resyncGroupCopy_spec (data : List CarriedPart) (last : Bool) (standby : s.get Reg.PAIR_STATUS_ROLE = 2)
    (copies : s.get Reg.PAIR_STATUS_SYNC = 2) : ∃ t, exec (.resyncGroupCopy data last) s = .next t ∧ t.units = s.units ∧
      t.pair.groups = s.pair.groups + 1 ∧ t.get Reg.PAIR_STATUS_SYNC = (if last then 3 else 2) ∧
      ∀ a bs, data = [{ space := 0, addr := a, bytes := bs }] → a + bs.length ≤ 2 ^ 26 →
        t.shm = Memory.writeBytes s.shm a bs ∧ t.lmem = s.lmem := by
  obtain ⟨units, regs, groups⟩ := s.installs_keeps data
  have run := exec_resyncGroupCopy (data := data) (last := last) standby copies
  cases last with
  | true =>
    refine ⟨_, run, units, groups, State.get_put_same (s.installs data) Reg.PAIR_STATUS_SYNC 3, ?_⟩
    rintro a bs rfl fits
    exact s.installs_shared a bs fits
  | false =>
    refine ⟨_, run, units, groups, (State.get_of_regs regs _).trans copies, ?_⟩
    rintro a bs rfl fits
    exact s.installs_shared a bs fits

/-- The resynchronisation has taken too long. -/
def State.resyncFails (s : State) : State := ((s.put Reg.PAIR_STATUS_SYNC 0).set Reg.PAIR_STATUS_SUSPECT).pairEvent 4 .aborted

theorem State.resyncFails_shows (s : State) : s.resyncFails.get Reg.PAIR_STATUS_SYNC = 0 ∧
    s.resyncFails.bit Reg.PAIR_STATUS_SUSPECT = true ∧ s.resyncFails.units = s.units := by
  have event : PairWork [] ((s.put Reg.PAIR_STATUS_SYNC 0).set Reg.PAIR_STATUS_SUSPECT) s.resyncFails := .pairEvent ..
  refine ⟨(event.get (by decide)).trans ((State.get_put_ne _ (by decide) _).trans (State.get_put_same s _ 0)),
    (event.bit (by decide)).trans (State.bit_set_same _ rfl), event.units⟩

end Sys2Proof.Machine

namespace Sys2Proof.Machine

/-- Settles O54: each message is brought to what the member makes of it once it is told (`onPartner_told`), and each timer to its
operation. -/
theorem pairCopies : Obligations.PairCopies := by
  unfold Obligations.PairCopies
  refine ⟨fun m s told => ⟨exec_mirrorReceived_gap told, fun ramp eq target items => exec_mirrorReceived_params told,
      exec_mirrorReceived_idle told, fun x => exec_mirrorReceived_keeps told, fun c => exec_mirrorReceived_control told⟩,
    fun s empty => ⟨exec_digestSend_idle, exec_digestSend_spec empty⟩,
    fun m s told => ⟨exec_digestReceived_late told, exec_digestReceived_first told, fun g d o => exec_digestReceived_compares told⟩,
    fun m s told => exec_verdictReceived_spec told, exec_verdictTimeout_spec,
    fun r s => ⟨fun holder cold => congrArg Host.Outcome.next (if_pos ⟨holder, cold⟩), fun off => congrArg Host.Outcome.next (if_neg ?_),
      fun stale => congrArg Host.Outcome.next (if_pos stale), fun fresh => congrArg Host.Outcome.next (if_neg fresh)⟩,
    fun data last s standby => ⟨exec_resyncGroupCopy_idle standby, exec_resyncGroupCopy_spec data last standby⟩,
    fun s => ⟨fun late => ⟨_, congrArg Host.Outcome.next (if_pos late), s.resyncFails_shows⟩,
      fun timely => congrArg Host.Outcome.next (if_neg timely)⟩⟩
  rintro ⟨holder, cold⟩
  rcases off with other | warm
  · exact other holder
  · exact absurd (warm.symm.trans cold) (by decide)

end Sys2Proof.Machine
end

