-- ==== Sys2Proof/Proofs/Supplies.lean ====
section
/-! SUPPORT. Supplies and holds (R695, R700, R701): what a dip stops, and what stands in the warmer domain. -/

namespace Sys2Proof.Machine
variable {s t u : State}

/-- What each step makes true of its own item, and no step spoils, holds of every item in the end. -/
theorem State.each_settles {α : Type} (q : α → State → Prop) {f : α → State → State} (makes : ∀ x t, q x (f x t))
    (keeps : ∀ x y t, q y t → q y (f x t)) (l : List α) (s : State) : ∀ x ∈ l, q x (s.each l f) := by
  unfold State.each
  induction l generalizing s with
  | nil => exact fun _ mem => absurd mem List.not_mem_nil
  | cons a l ih =>
    intro x mem
    rcases List.mem_cons.1 mem with rfl | mem
    · exact State.each_keeps (q x) f (fun y t => keeps y x t) (f x s) l (makes x s)
    · exact ih _ x mem

theorem State.bit_of_get {f : Fld} (eq : t.get f = s.get f) : t.bit f = s.bit f := by
  unfold State.bit
  rw [eq]

/-! ### A dip of a main supply -/

theorem State.haltUnits_keeps (c v : Nat) (halted : (s.unit v).wait = .halted) : ((s.haltUnits c).unit v).wait = .halted := by
  refine State.each_keeps (fun t => (t.unit v).wait = .halted) _ (fun u t stands => ?_) s _ halted
  rw [State.unit_modUnit]
  split
  · rfl
  · exact stands

theorem State.haltUnits_halts (c : Nat) {u : Nat} (unit : u < 8) : ((s.haltUnits c).unit (8 * c + u)).wait = .halted := by
  refine State.each_settles (fun u t => (t.unit (8 * c + u)).wait = .halted) (fun u t => ?_) (fun v u t stands => ?_) (List.range 8) s u
    (List.mem_range.2 unit)
  · rw [State.unit_modUnit, if_pos rfl]
  · rw [State.unit_modUnit]
    split
    · rfl
    · exact stands

/-- The units of a cluster are halted, and the cluster is in retention without a firing. -/
def State.stopped (t : State) (c : Nat) : Prop := (∀ u < 8, (t.unit (8 * c + u)).wait = .halted) ∧
  (t.cluster c).firing = none ∧ (t.cluster c).retention = true

theorem State.haltUnits_same (c : Nat) : (s.haltUnits c).clusters = s.clusters ∧ (s.haltUnits c).regs = s.regs :=
  State.each_keeps (fun t => t.clusters = s.clusters ∧ t.regs = s.regs) (fun u t => t.modUnit (8 * c + u) fun x =>
    { x with wait := .halted, readNew := none, readBuf := none, writeNew := none, writeBuf := none, flight := [], dmaOut := 0 })
    (fun _ _ kept => kept) s _ ⟨rfl, rfl⟩

/-- The grants of a cluster that stops are dropped after its units are halted. -/
def State.stopUnits (s : State) (c : Nat) : State := (s.haltUnits c).dropGrants c

theorem State.stopUnits_same (s : State) (c : Nat) : (∀ v, (s.stopUnits c).unit v = (s.haltUnits c).unit v) ∧
    (∀ k, (s.stopUnits c).cluster k = s.cluster k) ∧ (s.stopUnits c).regs = s.regs := by
  obtain ⟨x, grants⟩ := State.dropGrants_xbar (s.haltUnits c) c
  obtain ⟨clusters, regs⟩ := s.haltUnits_same (c := c)
  rw [State.stopUnits, grants]
  generalize s.haltUnits c = h at clusters regs ⊢
  exact ⟨fun _ => rfl, fun k => by unfold State.cluster; rw [clusters], regs⟩

/-- What a dip leaves of a cluster. -/
def ClusterSt.dipped (x : ClusterSt) : ClusterSt :=
  { x with firing := none, dmaQueue := [], dmaRun := none, lastSample := [], retention := true }

def State.dip (c : Nat) (t : State) : State := (t.stopUnits c).modCluster c ClusterSt.dipped

theorem State.stopFirings_eq (s : State) : s.stopFirings = s.each (List.range 64) State.dip := rfl

theorem State.dip_stops (t : State) (c : Nat) : (State.dip c t).stopped c := by
  obtain ⟨units, -, -⟩ := t.stopUnits_same c
  rw [State.dip]
  refine ⟨fun u small => ?_, ?_⟩
  · rw [State.unit_modCluster, units]
    exact State.haltUnits_halts c small
  · rw [State.cluster_modCluster, if_pos rfl]
    exact ⟨rfl, rfl⟩

theorem State.dip_keeps (t : State) (c k : Nat) (stands : t.stopped k) : (State.dip c t).stopped k := by
  obtain ⟨halted, firing, retention⟩ := stands
  rw [State.dip]
  obtain ⟨units, clusters, -⟩ := t.stopUnits_same c
  refine ⟨fun u small => ?_, ?_⟩
  · rw [State.unit_modCluster, units]
    exact State.haltUnits_keeps c _ (halted u small)
  · rw [State.cluster_modCluster, clusters, clusters]
    split
    · exact ⟨rfl, rfl⟩
    · exact ⟨firing, retention⟩

theorem State.stopFirings_stops (s : State) : (∀ c < 64, s.stopFirings.stopped c) ∧ s.stopFirings.regs = s.regs := by
  rw [State.stopFirings_eq]
  refine ⟨fun c small => ?_, ?_⟩
  · exact State.each_settles (fun c t => t.stopped c) (fun c t => State.dip_stops t c) (fun x c t => State.dip_keeps t x c) _ s c
      (List.mem_range.2 small)
  · exact State.each_keeps (fun t => t.regs = s.regs) State.dip (fun c t kept => (t.stopUnits_same c).2.2.trans kept) s _ rfl

/-- Outputs go idle: units, clusters, the hold and the gate stay. -/
structure Idles (s t : State) : Prop where
  units : t.units = s.units
  clusters : t.clusters = s.clusters
  bits : ∀ f ∈ [Reg.PWR_STATUS_HOLD, Reg.PAIR_STATUS_GATE_OPEN], t.get f = s.get f

theorem Idles.put {g : Fld} (apart : ∀ f ∈ [Reg.PWR_STATUS_HOLD, Reg.PAIR_STATUS_GATE_OPEN], f.key ≠ g.key) (v : Nat) :
    Idles s (s.put g v) := ⟨rfl, rfl, fun f mem => State.get_put_ne s (apart f mem) v⟩

theorem Idles.trans (a : Idles s t) (b : Idles t u) : Idles s u :=
  ⟨b.units.trans a.units, b.clusters.trans a.clusters, fun f mem => (b.bits f mem).trans (a.bits f mem)⟩

theorem Idles.each {α : Type} {xs : List α} {f : α → State → State} (h : ∀ x ∈ xs, ∀ t, Idles t (f x t)) : Idles s (s.each xs f) :=
  State.each_keeps_mem (Idles s) f s xs (fun x mem t kept => kept.trans (h x mem t)) ⟨rfl, rfl, fun _ _ => rfl⟩

theorem outputs_apart : (∀ p ∈ List.range 16, ∀ f ∈ [Reg.PWR_STATUS_HOLD, Reg.PAIR_STATUS_GATE_OPEN],
    f.key ≠ (Reg.APORT_P_STATUS_RUNNING p).key) ∧
    (∀ n ∈ List.range 8, ∀ f ∈ [Reg.PWR_STATUS_HOLD, Reg.PAIR_STATUS_GATE_OPEN], f.key ≠ (Reg.AES_TX_STATUS_RUNNING n).key) ∧
    (∀ c ∈ List.range 4, ∀ f ∈ [Reg.PWR_STATUS_HOLD, Reg.PAIR_STATUS_GATE_OPEN], f.key ≠ (convSettled c).key) ∧
    (∀ c ∈ List.range 2, ∀ f ∈ [Reg.PWR_STATUS_HOLD, Reg.PAIR_STATUS_GATE_OPEN], f.key ≠ (Reg.HUBA_PSC_STATUS_STATE c).key) := by decide

theorem Idles.outputsIdle (s : State) : Idles s s.outputsIdle := by
  obtain ⟨ports, aes, converters, stages⟩ := outputs_apart
  have muted : Idles s (s.modPwr fun p => { p with unmute := [] }) := ⟨rfl, rfl, fun _ _ => rfl⟩
  have unsettled (c : Nat) (mem : c ∈ List.range 4) (t : State) : Idles t (t.unsettle c) :=
    .trans (t := t.modConv c fun x => { x with settled := none, gate := {} }) ⟨rfl, rfl, fun _ _ => rfl⟩ (.put (converters c mem) 0)
  have off (c : Nat) (mem : c ∈ List.range 2) (t : State) : Idles t ((t.modPs c fun _ => {}).psTo c psOff) :=
    .trans (t := t.modPs c fun _ => {}) ⟨rfl, rfl, fun _ _ => rfl⟩ (.put (stages c mem) psOff)
  exact (((muted.trans (.each fun p mem t => .put (ports p mem) 0)).trans (.each fun n mem t => .put (aes n mem) 0)).trans
    (.each unsettled)).trans (.each off)

theorem supplyDip_spec (s : State) : (s.pwr.started = false ∨ s.bit Reg.PWR_STATUS_HOLD = true → exec .supplyDip s = .next s) ∧
    (s.pwr.started = true → s.bit Reg.PWR_STATUS_HOLD = false → ∃ t, exec .supplyDip s = .next t ∧
      t.bit Reg.PWR_STATUS_HOLD = true ∧ t.bit Reg.PAIR_STATUS_GATE_OPEN = false ∧
      (∀ u < 512, (t.unit u).wait = .halted) ∧ ∀ c < 64, (t.cluster c).firing = none ∧ (t.cluster c).retention = true) := by
  refine ⟨fun down => ?_, fun started held => ⟨_, congrArg Host.Outcome.next (if_neg (by rw [started, held]; decide)), ?_⟩⟩
  · exact congrArg Host.Outcome.next (if_pos (by rcases down with off | hold <;> simp [*]))
  · obtain ⟨closed, units, clusters, -, -, regs⟩ := (s.set Reg.PWR_STATUS_HOLD).closeGate_shows
    generalize shut : (s.set Reg.PWR_STATUS_HOLD).closeGate = v at closed units clusters regs ⊢
    obtain ⟨stops, same⟩ := v.stopFirings_stops
    have idle := Idles.outputsIdle v.stopFirings
    have event := SameButHost.postNow v.stopFirings.outputsIdle .fault none 0x161 [5]
    have now (f : Fld) (mem : f ∈ [Reg.PWR_STATUS_HOLD, Reg.PAIR_STATUS_GATE_OPEN]) (lo : f.lo < 32) (out : f.outsideHost) :
        (v.stopFirings.outputsIdle.postNow .fault none 0x161 [5]).get f = v.get f :=
      (State.get_postNow _ _ _ _ _ f lo out).trans ((idle.bits f mem).trans (State.get_of_regs same f))
    have unit (u : Nat) : (v.stopFirings.outputsIdle.postNow .fault none 0x161 [5]).unit u = v.stopFirings.unit u := by
      unfold State.unit
      rw [event.units, idle.units]
    have cluster (c : Nat) : (v.stopFirings.outputsIdle.postNow .fault none 0x161 [5]).cluster c = v.stopFirings.cluster c := by
      unfold State.cluster
      rw [event.clusters, idle.clusters]
    refine ⟨(State.bit_of_get (now _ (by simp) (by decide) (by decide))).trans ((regs.bit (by decide)).trans (State.bit_set_same s rfl)),
      (State.bit_of_get (now _ (by simp) (by decide) (by decide))).trans closed, fun k small => ?_, fun c small => ?_⟩
    · rw [unit, show k = 8 * (k / 8) + k % 8 by omega]
      exact (stops (k / 8) (by omega)).1 _ (by omega)
    · rw [cluster]
      exact (stops c small).2

/-! ## Commits of the settings (R706, R708, R712): what an append leaves, and that every intact copy holds what was appended. -/

/-- `t` differs from `s` in the Bisque image and the program set's number alone. -/
structure Appends (s t : State) : Prop where
  regs : WritesOnly [Reg.PWR_BISQUE_PSET] s t
  units : t.units = s.units
  host : t.host = s.host
  store : t.store = s.store
  saved : t.pwr.saved = s.pwr.saved

theorem Appends.refl : Appends s s := ⟨.refl, rfl, rfl, rfl, rfl⟩

theorem Appends.trans (a : Appends s t) (b : Appends t u) : Appends s u :=
  ⟨a.regs.trans b.regs, b.units.trans a.units, b.host.trans a.host, b.store.trans a.store, b.saved.trans a.saved⟩

theorem Appends.modPwr {f : PwrSt → PwrSt} (saved : (f s.pwr).saved = s.pwr.saved) : Appends s (s.modPwr f) :=
  ⟨.of_regs rfl, rfl, rfl, rfl, saved⟩

theorem Appends.setCopy (k : Nat) (c : BisqueCopy) : Appends s (s.setCopy k c) := .modPwr rfl

theorem Appends.each {f : Nat → State → State} (h : ∀ k t, Appends t (f k t)) (l : List Nat) : Appends s (s.each l f) :=
  State.each_keeps (Appends s) f (fun k t kept => kept.trans (h k t)) s l .refl

theorem Appends.storePrograms (s : State) : Appends s s.storePrograms := by
  unfold State.storePrograms
  split
  · exact .refl
  · dsimp only
    split
    · exact .refl
    · exact .trans (.modPwr rfl) ⟨.put List.mem_cons_self _, rfl, rfl, rfl, rfl⟩

theorem Appends.rewriteBase (s : State) (x : Settings) (n : Nat) : Appends s (s.rewriteBase x n) := by
  unfold State.rewriteBase
  dsimp only
  refine .trans ?_ (.modPwr rfl)
  have written : Appends s (s.each (List.range (min n 3)) fun k t =>
      t.setCopy k { intact := true, generation := s.topGen + 1, content := x }) := .each (fun k t => .setCopy k _) _
  split
  · exact written.trans (.setCopy ..)
  · exact written

theorem Appends.appendRecord (s : State) (x : Settings) (bytes n : Nat) : Appends s (s.appendRecord x bytes n) := by
  refine .each (fun k t => ?_) _
  dsimp only
  split
  · exact .setCopy ..
  · exact .refl

/-! ### What the copies hold -/

theorem State.copy_setCopy (s : State) (k j : Nat) (c : BisqueCopy) : (s.setCopy k c).copy j = if j = k then c else s.copy j :=
  Tab.get_put ({} : BisqueCopy) s.pwr.copies k j c

/-- A copy that is intact holds the settings `x`. -/
def State.Holds (s : State) (x : Settings) (j : Nat) : Prop := (s.copy j).intact = true → (s.copy j).content = x

theorem State.Holds.setCopy {x : Settings} {j : Nat} (holds : s.Holds x j) (k : Nat) {c : BisqueCopy}
    (own : c.intact = true → c.content = x) : (s.setCopy k c).Holds x j := by
  unfold State.Holds
  rw [State.copy_setCopy]
  split
  · exact own
  · exact holds

theorem State.holds_setCopy {x : Settings} (k : Nat) {c : BisqueCopy} (own : c.intact = true → c.content = x) :
    (s.setCopy k c).Holds x k := by
  unfold State.Holds
  rw [State.copy_setCopy, if_pos rfl]
  exact own

/-- A rewrite of the base keeps what the copies hold of `x`, and gives it to every copy that it reaches. -/
theorem State.rewriteBase_holds (s : State) (x : Settings) (n j : Nat) (reached : s.Holds x j ∨ j < min n 3) :
    (s.rewriteBase x n).Holds x j := by
  have written : (s.each (List.range (min n 3)) fun k t =>
      t.setCopy k { intact := true, generation := s.topGen + 1, content := x }).Holds x j := by
    rcases reached with holds | reached
    · exact State.each_keeps (fun t => t.Holds x j) _ (fun k t holds => holds.setCopy k fun _ => rfl) s _ holds
    · exact State.each_settles (fun j t => t.Holds x j) (fun k t => State.holds_setCopy k fun _ => rfl)
        (fun k j t holds => holds.setCopy k fun _ => rfl) _ s j (List.mem_range.2 reached)
  unfold State.rewriteBase
  dsimp only
  split
  · exact written.setCopy n (fun intact => absurd intact Bool.false_ne_true)
  · exact written

/-- A record that reaches the three copies leaves every intact one at the present settings. -/
theorem State.appendRecord_holds (s : State) (x : Settings) (bytes n : Nat) {j : Nat} (reached : j < min n 3) :
    (s.appendRecord x bytes n).Holds x j := by
  refine State.each_settles (fun j t => t.Holds x j) (fun k t => ?_) (fun k j t holds => ?_) _ s j (List.mem_range.2 reached)
  · dsimp only
    split
    · exact State.holds_setCopy k fun _ => rfl
    · next broken => exact fun intact => absurd intact broken
  · dsimp only
    split
    · exact holds.setCopy k fun _ => rfl
    · exact holds

/-! ### Appends and final commits -/

/-- The journals and bases after an append that reached `k`. -/
def State.appended (s : State) (x : Settings) (bytes k : Nat) : State :=
  if s.pwr.rebase then s.rewriteBase x k
  else
    let a := s.appendRecord x bytes k
    if a.journalFull then (if k < 3 then a else a.rewriteBase x (k - 3)) else a

theorem Appends.appended (s : State) (x : Settings) (bytes k : Nat) : Appends s (s.appended x bytes k) := by
  have record : Appends s (s.appendRecord x bytes k) := .appendRecord ..
  unfold State.appended
  dsimp only
  split
  · exact .rewriteBase ..
  · split
    · split
      · exact record
      · exact record.trans (.rewriteBase ..)
    · exact record

theorem State.appended_holds (s : State) (x : Settings) (bytes : Nat) {k j : Nat} (whole : 3 ≤ k) (copy : j < 3) :
    (s.appended x bytes k).Holds x j := by
  have record : (s.appendRecord x bytes k).Holds x j := State.appendRecord_holds s x bytes k (by omega)
  unfold State.appended
  dsimp only
  split
  · exact State.rewriteBase_holds s x k j (.inr (by omega))
  · split
    · split
      · exact record
      · exact State.rewriteBase_holds _ x _ j (.inl record)
    · exact record

/-- An append is due at most once a second. -/
def State.appendedSoon (s : State) : Bool := match s.pwr.appendAt with | some a => decide (s.now < a + (s.dom 0).rate) | none => false

theorem exec_settingsAppend (bytes : Nat) (r : TimeRecord) (k : Fin 7) (s : State) : exec (.settingsAppend bytes r k) s =
    if (!s.commits || s.appendedSoon || !s.settingsChanged r) = true then .next s
    else .next ((s.storePrograms.appended (s.storePrograms.content r) bytes k.val).modPwr fun p =>
      { p with appendAt := some s.now, saved := if k.val < 3 then p.saved else s.storePrograms.content r }) := rfl

theorem settingsAppend_spec (n : Nat) (r : TimeRecord) (k : Fin 7) (s : State) :
    (s.commits = false ∨ s.settingsChanged r = false → exec (.settingsAppend n r k) s = .next s) ∧
    (∀ a, s.pwr.appendAt = some a → s.now < a + (s.dom 0).rate → exec (.settingsAppend n r k) s = .next s) ∧
    (s.commits = true → s.settingsChanged r = true → (∀ a, s.pwr.appendAt = some a → a + (s.dom 0).rate ≤ s.now) →
      ∃ t, exec (.settingsAppend n r k) s = .next t ∧ t.pwr.appendAt = some s.now ∧ t.units = s.units ∧ t.host = s.host ∧
        (k.val < 3 → t.pwr.saved = s.pwr.saved) ∧
        (3 ≤ k.val → t.pwr.saved = s.storePrograms.content r ∧
          ∀ j < 3, (t.copy j).intact = true → (t.copy j).content = s.storePrograms.content r)) := by
  rw [exec_settingsAppend]
  refine ⟨fun idle => if_pos ?_, fun a last soon => if_pos ?_, fun commits changed due => ?_⟩
  · rcases idle with off | same
    · rw [off]; rfl
    · rw [same, Bool.not_false, Bool.or_true]
  · have again : s.appendedSoon = true := by
      rw [State.appendedSoon, last]
      exact decide_eq_true soon
    rw [again, Bool.or_true, Bool.true_or]
  · have rested : s.appendedSoon = false := by
      unfold State.appendedSoon
      split
      · next a last => exact decide_eq_false (Nat.not_lt.2 (due a last))
      · rfl
    obtain ⟨-, units, host, -, saved⟩ :=
      (Appends.storePrograms s).trans (.appended _ (s.storePrograms.content r) n k.val)
    refine ⟨_, if_neg (by rw [commits, changed, rested]; decide), rfl, units, host, fun broken => ?_, fun whole => ⟨?_, fun j copy => ?_⟩⟩
    · exact (if_pos broken).trans saved
    · exact if_neg (Nat.not_lt.2 whole)
    · exact State.appended_holds _ _ n whole copy

/-- The Bisque image of a final commit, and its time. -/
theorem State.finalCommit_keeps (s : State) (bytes : Nat) (r : TimeRecord) :
    WritesOnly [Reg.PWR_BISQUE_PSET] s (s.finalCommit bytes r) ∧ (s.finalCommit bytes r).units = s.units ∧
      (s.finalCommit bytes r).store = s.store ∧ (s.finalCommit bytes r).pwr.commitAt = some s.now := by
  have named := Appends.storePrograms s
  unfold State.finalCommit
  dsimp only
  generalize s.storePrograms = v at named ⊢
  have record : Appends s (if (v.pwr.rebase && !(v.pwr.torn && (List.range 3).any fun k => (v.copy k).intact)) = true
      then v.rewriteBase (v.content r) 3 else v.appendRecord (v.content r) (min bytes 65536) 3) := by
    split
    · exact named.trans (.rewriteBase ..)
    · exact named.trans (.appendRecord ..)
  exact ⟨record.regs, record.units, record.store, rfl⟩

/-! ## Warnings, hand-overs, standby and wake (R699–R703, R711–R713). -/

/-! ### Power-fail warnings -/

/-- An engine with its warning shown, counted and told. -/
def State.warned (s : State) : State :=
  (((s.set Reg.PWR_STATUS_VPF_LOW).set Reg.PWR_STATUS_WARN).bump Reg.PWR_CNT_WARN).postNow .fault none 0x161 [1]

theorem State.warned_host (s : State) :
    SameButHost (((s.set Reg.PWR_STATUS_VPF_LOW).set Reg.PWR_STATUS_WARN).bump Reg.PWR_CNT_WARN) s.warned := .postNow ..

theorem State.warned_shows (s : State) : s.warned.bit Reg.PWR_STATUS_VPF_LOW = true ∧ s.warned.bit Reg.PWR_STATUS_WARN = true ∧
    s.warned.get Reg.PWR_CNT_WARN = min (s.get Reg.PWR_CNT_WARN + 1) 0xFFFF ∧
    s.warned.get Reg.PAIR_STATUS_ROLE = s.get Reg.PAIR_STATUS_ROLE := by
  have shown := s.warned_host.get
  refine ⟨?_, ?_, ?_, ?_⟩
  · refine (State.bit_of_get (shown _ (by decide) (by decide))).trans ?_
    exact ((State.bit_put_ne _ (by decide) _).trans (State.bit_put_ne _ (by decide) _)).trans (State.bit_set_same s rfl)
  · refine (State.bit_of_get (shown _ (by decide) (by decide))).trans ?_
    exact (State.bit_put_ne _ (by decide) _).trans (State.bit_set_same _ rfl)
  · refine (shown _ (by decide) (by decide)).trans ((State.get_bump_same _ _).trans ?_)
    rw [State.set, State.get_put_ne _ (by decide), State.set, State.get_put_ne _ (by decide)]
    rfl
  · refine (shown _ (by decide) (by decide)).trans ((State.get_bump_ne _ (by decide)).trans ?_)
    exact (State.get_put_ne _ (by decide) _).trans (State.get_put_ne _ (by decide) _)

theorem State.warned_commits (s : State) : s.warned.commits = s.commits := by
  have pwr : s.warned.pwr = s.pwr := s.warned_host.pwr
  unfold State.commits
  rw [s.warned_shows.2.2.2, pwr]

theorem State.warned_now (s : State) : s.warned.now = s.now := by
  have doms : s.warned.doms = s.doms := s.warned_host.doms
  unfold State.now State.dom
  rw [doms]

/-- A final commit was made less than 100 ms ago. -/
def State.committedSoon (s : State) : Bool :=
  match s.pwr.commitAt with | some a => decide (s.now < a + s.samplesMs 0 100) | none => false

/-- The state of a warning with its final commit, where one is due. -/
def State.warnedCommit (s : State) (n : Nat) (r : TimeRecord) : State :=
  if (s.warned.commits && (!s.committedSoon || s.warned.settingsChanged r)) = true then s.warned.finalCommit n r else s.warned

theorem exec_powerFailWarning (n : Nat) (r : TimeRecord) (started : s.pwr.started = true) (high : s.bit Reg.PWR_STATUS_VPF_LOW = false) :
    exec (.powerFailWarning n r) s = .next ((s.warnedCommit n r).modStore fun x => { x with stopped := true }) :=
  if_neg (by rw [started, high]; decide)

theorem State.warnedCommit_keeps (s : State) (n : Nat) (r : TimeRecord) :
    WritesOnly [Reg.PWR_BISQUE_PSET] s.warned (s.warnedCommit n r) ∧ (s.warnedCommit n r).units = s.warned.units := by
  unfold State.warnedCommit
  split
  · obtain ⟨regs, units, -⟩ := s.warned.finalCommit_keeps n r
    exact ⟨regs, units⟩
  · exact ⟨.refl, rfl⟩

theorem powerFailWarning_spec (n : Nat) (r : TimeRecord) (s : State) :
    (s.pwr.started = false ∨ s.bit Reg.PWR_STATUS_VPF_LOW = true → exec (.powerFailWarning n r) s = .next s) ∧
    (s.pwr.started = true → s.bit Reg.PWR_STATUS_VPF_LOW = false → ∃ t, exec (.powerFailWarning n r) s = .next t ∧
      t.bit Reg.PWR_STATUS_VPF_LOW = true ∧ t.bit Reg.PWR_STATUS_WARN = true ∧ t.store.stopped = true ∧ t.units = s.units ∧
      t.get Reg.PWR_CNT_WARN = min (s.get Reg.PWR_CNT_WARN + 1) 0xFFFF ∧
      (s.commits = false → t.pwr = s.pwr) ∧ (s.commits = true → s.pwr.commitAt = none → t.pwr.commitAt = some s.now)) := by
  refine ⟨fun idle => if_pos ?_, fun started high => ⟨_, exec_powerFailWarning n r started high, ?_⟩⟩
  · rcases idle with off | low
    · rw [off]; rfl
    · rw [low, Bool.or_true]
  · obtain ⟨low, warn, count, -⟩ := s.warned_shows
    obtain ⟨regs, units⟩ := s.warnedCommit_keeps n r
    have pwr : s.warned.pwr = s.pwr := s.warned_host.pwr
    refine ⟨(regs.bit (by decide)).trans low, (regs.bit (by decide)).trans warn, rfl, units.trans s.warned_host.units,
      (regs _ (by decide)).trans count, fun off => ?_, fun commits fresh => ?_⟩
    · have same : s.warnedCommit n r = s.warned := if_neg (by rw [State.warned_commits, off, Bool.false_and]; decide)
      exact (congrArg State.pwr same).trans pwr
    · have soon : s.committedSoon = false := by rw [State.committedSoon, fresh]
      have same : s.warnedCommit n r = s.warned.finalCommit n r := if_pos (by rw [State.warned_commits, commits, soon]; rfl)
      exact (congrArg (fun t : State => t.pwr.commitAt) same).trans
        ((s.warned.finalCommit_keeps n r).2.2.2.trans (congrArg some s.warned_now))

/-- The end of a warning: recording goes on. -/
def State.unwarned (s : State) : State := (s.put Reg.PWR_STATUS_VPF_LOW 0).modStore fun x => { x with stopped := false }

theorem warningEnd_spec (s : State) :
    (s.bit Reg.PWR_STATUS_VPF_LOW = false → exec .warningEnd s = .next s) ∧
    (s.bit Reg.PWR_STATUS_VPF_LOW = true → ∃ t, exec .warningEnd s = .next t ∧ t.bit Reg.PWR_STATUS_VPF_LOW = false ∧
      t.store.stopped = false ∧ t.units = s.units ∧ (s.pwr.started = true → s.bit Reg.PWR_STATUS_HOLD = false →
        t.bit Reg.PWR_STATUS_RIDE = true ∧ t.get Reg.PWR_CNT_RIDE = min (s.get Reg.PWR_CNT_RIDE + 1) 0xFFFF)) := by
  refine ⟨fun high => if_pos (by rw [high]; rfl), fun low => ⟨_, if_neg (by rw [low]; decide), ?_⟩⟩
  have ended : s.unwarned.bit Reg.PWR_STATUS_VPF_LOW = false := State.bit_put_same s rfl 0
  split
  · have event := SameButHost.postNow ((s.unwarned.set Reg.PWR_STATUS_RIDE).bump Reg.PWR_CNT_RIDE) .fault none 0x161 [2]
    refine ⟨(State.bit_of_get (event.get _ (by decide) (by decide))).trans ?_, congrArg StoreSt.stopped event.store, event.units,
      fun _ _ => ⟨(State.bit_of_get (event.get _ (by decide) (by decide))).trans ?_, (event.get _ (by decide) (by decide)).trans ?_⟩⟩
    · exact ((State.bit_put_ne _ (by decide) _).trans (State.bit_put_ne _ (by decide) _)).trans ended
    · exact (State.bit_put_ne _ (by decide) _).trans (State.bit_set_same _ rfl)
    · refine (State.get_bump_same _ _).trans ?_
      rw [State.set, State.get_put_ne _ (by decide), State.unwarned]
      exact congrArg (fun v => min (v + 1) 0xFFFF) (State.get_put_ne s (by decide) 0)
  · next stays =>
    refine ⟨ended, rfl, rfl, fun started held => absurd ?_ stays⟩
    rw [started, held]
    rfl

/-! ### The warmer domain's supply -/

theorem State.supplyTo_shows (s : State) (supply body : Nat) (known : supply < 4) :
    (s.supplyTo supply body).get Reg.PWR_STATUS_SUPPLY = supply ∧ (s.supplyTo supply body).bit Reg.PWR_STATUS_HANDOVER_SEEN = true ∧
    (s.supplyTo supply body).get Reg.PWR_WARM_CNT_COUNT = s.get Reg.PWR_WARM_CNT_COUNT ∧
    (s.supplyTo supply body).pwr = s.pwr ∧ (s.supplyTo supply body).units = s.units := by
  have event : SameButHost ((s.put Reg.PWR_STATUS_SUPPLY supply).set Reg.PWR_STATUS_HANDOVER_SEEN) (s.supplyTo supply body) ∨
      s.supplyTo supply body = (s.put Reg.PWR_STATUS_SUPPLY supply).set Reg.PWR_STATUS_HANDOVER_SEEN := by
    unfold State.supplyTo
    dsimp only
    split
    · exact .inl (.postNow ..)
    · exact .inr rfl
  have get (f : Fld) (lo : f.lo < 32) (out : f.outsideHost) : (s.supplyTo supply body).get f =
      ((s.put Reg.PWR_STATUS_SUPPLY supply).set Reg.PWR_STATUS_HANDOVER_SEEN).get f := by
    rcases event with event | same
    · exact event.get f lo out
    · rw [same]
  refine ⟨?_, ?_, ?_, ?_, ?_⟩
  · rw [get _ (by decide) (by decide), State.set, State.get_put_ne _ (by decide), State.get_put_same]
    exact Nat.mod_eq_of_lt known
  · rw [State.bit_of_get (get _ (by decide) (by decide))]
    exact State.bit_set_same _ rfl
  · rw [get _ (by decide) (by decide), State.set, State.get_put_ne _ (by decide), State.get_put_ne _ (by decide)]
  · rcases event with event | same
    · exact event.pwr
    · rw [same]; rfl
  · rcases event with event | same
    · exact event.units
    · rw [same]; rfl

/-- How many good cycles in a row stand after some cycles; 131 give VDD_AON back. -/
def goodCycles (cycles : List Bool) (n : Nat) : Nat := cycles.foldl (fun k b => if 131 ≤ k then k else if b then k + 1 else 0) n

theorem goodCycles_of_good (l : List Bool) : ∀ n, (∀ b ∈ l, b = true) →
    (n + l.length < 131 → goodCycles l n = n + l.length) ∧ (131 ≤ n + l.length → 131 ≤ goodCycles l n) := by
  unfold goodCycles
  induction l with
  | nil => exact fun n _ => ⟨fun _ => rfl, fun full => full⟩
  | cons b l ih =>
    intro n good
    obtain ⟨rfl, rest⟩ := List.forall_mem_cons.1 good
    rw [List.foldl_cons, List.length_cons]
    by_cases full : 131 ≤ n
    · rw [if_pos full]
      exact ⟨fun few => absurd full (by omega), fun _ => (ih n rest).2 (by omega)⟩
    · rw [if_neg full, if_pos rfl]
      obtain ⟨few, many⟩ := ih (n + 1) rest
      exact ⟨fun small => (few (by omega)).trans (by omega), fun large => many (by omega)⟩

theorem goodCycles_le (l : List Bool) : ∀ n, goodCycles l n ≤ n + l.length := by
  unfold goodCycles
  induction l with
  | nil => exact fun n => Nat.le_refl n
  | cons b l ih =>
    intro n
    rw [List.foldl_cons, List.length_cons]
    have first : (if 131 ≤ n then n else if b = true then n + 1 else 0) ≤ n + 1 := by
      split
      · exact Nat.le_succ n
      · split
        · exact Nat.le_refl _
        · exact Nat.zero_le _
    exact (ih _).trans (by omega)

theorem goodCycles_bad (l : List Bool) {n : Nat} (few : n + l.length < 131) : goodCycles (l ++ [false]) n = 0 := by
  have small := goodCycles_le l n
  rw [goodCycles, List.foldl_append, List.foldl_cons, List.foldl_nil]
  exact if_neg (by unfold goodCycles at small; omega)

/-- The warmer counter with the cycles that have passed. -/
def State.warmCounted (s : State) (n : Nat) : State := s.put Reg.PWR_WARM_CNT_COUNT (s.get Reg.PWR_WARM_CNT_COUNT + n)

theorem exec_vddAonReturn {l : List Bool} (battery : s.get Reg.PWR_STATUS_SUPPLY = 2) : exec (.vddAonReturn l) s =
    .next (if 131 ≤ goodCycles l s.pwr.vbatCount then ((s.warmCounted l.length).modPwr fun p => { p with vbatCount := 0 }).supplyTo 0 4
      else (s.warmCounted l.length).modPwr fun p => { p with vbatCount := goodCycles l s.pwr.vbatCount }) :=
  if_neg (not_not_intro battery)

theorem State.warmCounted_get (n : Nat) :
    (s.warmCounted n).get Reg.PWR_WARM_CNT_COUNT = (s.get Reg.PWR_WARM_CNT_COUNT + n) % 2 ^ 48 ∧
    (s.warmCounted n).get Reg.PWR_STATUS_SUPPLY = s.get Reg.PWR_STATUS_SUPPLY :=
  ⟨State.get_put_same s _ _, State.get_put_ne s (by decide) _⟩

theorem vbat_spec (l : List Bool) (s : State) : let n := s.pwr.vbatCount + l.length
    (s.get Reg.PWR_STATUS_SUPPLY = 2 → exec .vbatHandover s = .next s) ∧
    (s.get Reg.PWR_STATUS_SUPPLY ≠ 2 → exec (.vddAonReturn l) s = .next s ∧ ∃ t, exec .vbatHandover s = .next t ∧
      t.get Reg.PWR_STATUS_SUPPLY = 2 ∧ t.bit Reg.PWR_STATUS_HANDOVER_SEEN = true ∧ t.pwr.vbatCount = 0 ∧ t.units = s.units) ∧
    (s.get Reg.PWR_STATUS_SUPPLY = 2 → (∀ b ∈ l, b = true) → ∃ t, exec (.vddAonReturn l) s = .next t ∧ t.units = s.units ∧
      t.get Reg.PWR_WARM_CNT_COUNT = (s.get Reg.PWR_WARM_CNT_COUNT + l.length) % 2 ^ 48 ∧
      (131 ≤ n → t.get Reg.PWR_STATUS_SUPPLY = 0 ∧ t.pwr.vbatCount = 0) ∧
      (n < 131 → t.get Reg.PWR_STATUS_SUPPLY = 2 ∧ t.pwr.vbatCount = n)) ∧
    (s.get Reg.PWR_STATUS_SUPPLY = 2 → n < 131 → ∃ t, exec (.vddAonReturn (l ++ [false])) s = .next t ∧
      t.get Reg.PWR_STATUS_SUPPLY = 2 ∧ t.pwr.vbatCount = 0) := by
  intro n
  refine ⟨fun battery => congrArg Host.Outcome.next (if_pos battery), fun main => ⟨if_pos main, _,
    congrArg Host.Outcome.next (if_neg main), ?_⟩, fun battery good => ⟨_, exec_vddAonReturn battery, ?_⟩,
    fun battery few => ⟨_, exec_vddAonReturn battery, ?_⟩⟩
  · obtain ⟨supply, seen, -, pwr, units⟩ := (s.modPwr fun p => { p with vbatCount := 0 }).supplyTo_shows 2 3 (by decide)
    exact ⟨supply, seen, congrArg PwrSt.vbatCount pwr, units⟩
  · obtain ⟨few, many⟩ := goodCycles_of_good l s.pwr.vbatCount good
    obtain ⟨count, supply⟩ := s.warmCounted_get l.length
    split
    · next full =>
      obtain ⟨main, -, counted, pwr, units⟩ :=
        ((s.warmCounted l.length).modPwr fun p => { p with vbatCount := 0 }).supplyTo_shows 0 4 (by decide)
      refine ⟨units, counted.trans count, fun _ => ⟨main, congrArg PwrSt.vbatCount pwr⟩, fun small => ?_⟩
      rw [few small] at full
      omega
    · next broken =>
      exact ⟨rfl, count, fun full => absurd (many full) broken, fun small => ⟨supply.trans battery, few small⟩⟩
  · rw [goodCycles_bad l few, if_neg (by decide)]
    exact ⟨(s.warmCounted_get _).2.trans battery, rfl⟩

/-! ### Standby and wake -/

/-- An engine whose supplies are withdrawn, its takes closed and its settings committed. -/
def State.withdrawn (s : State) : State :=
  (s.modPwr fun p => { p with req := false, standby := true, started := false, audio := false, afterRamp := none }).modStore
    fun x => { x with keys := none, issued := [] }

theorem State.withdrawn_shows (s : State) : s.withdrawn.pwr.standby = true ∧ s.withdrawn.pwr.started = false ∧
    s.withdrawn.pwr.req = false ∧ s.withdrawn.pwr.audio = false ∧ s.withdrawn.pwr.afterRamp = none ∧
    s.withdrawn.store.keys = none ∧ s.withdrawn.regs = s.regs ∧ s.withdrawn.units = s.units := ⟨rfl, rfl, rfl, rfl, rfl, rfl, rfl, rfl⟩

theorem State.powerDown_eq (s : State) (c : Bool) (n : Nat) (r : TimeRecord) : s.powerDown c n r =
    (if c = true then s.closeGate.closeTakes.finalCommit n r else s.closeGate.closeTakes).withdrawn := rfl

theorem State.powerDown_shows (s : State) (c : Bool) (n : Nat) (r : TimeRecord) : (s.powerDown c n r).pwr.standby = true ∧
    (s.powerDown c n r).pwr.started = false ∧ (s.powerDown c n r).pwr.req = false ∧ (s.powerDown c n r).pwr.audio = false ∧
    (s.powerDown c n r).pwr.afterRamp = none ∧ (s.powerDown c n r).bit Reg.PAIR_STATUS_GATE_OPEN = false ∧
    (s.powerDown c n r).units = s.units ∧ (s.powerDown c n r).store.keys = none := by
  obtain ⟨closed, units, -⟩ := s.closeGate_shows
  obtain ⟨drives, -, get⟩ := s.closeGate.closeTakes_keeps
  obtain ⟨regs, committed, -⟩ := s.closeGate.closeTakes.finalCommit_keeps n r
  have shut : s.closeGate.closeTakes.bit Reg.PAIR_STATUS_GATE_OPEN = false :=
    (State.bit_of_get (get _ (by decide) (by decide) (by decide))).trans closed
  have halted : s.closeGate.closeTakes.units = s.units := drives.units.trans units
  rw [State.powerDown_eq]
  have before : (if c = true then s.closeGate.closeTakes.finalCommit n r else s.closeGate.closeTakes).bit
      Reg.PAIR_STATUS_GATE_OPEN = false ∧
      (if c = true then s.closeGate.closeTakes.finalCommit n r else s.closeGate.closeTakes).units = s.units := by
    split
    · exact ⟨(regs.bit (by decide)).trans shut, committed.trans halted⟩
    · exact ⟨shut, halted⟩
  generalize (if c = true then s.closeGate.closeTakes.finalCommit n r else s.closeGate.closeTakes) = v at before ⊢
  obtain ⟨gate, same⟩ := before
  obtain ⟨standby, off, req, audio, ramp, keys, kept, units'⟩ := v.withdrawn_shows
  exact ⟨standby, off, req, audio, ramp, (State.bit_of_regs kept _).trans gate, units'.trans same, keys⟩

theorem pwrStandby_spec (n : Nat) (r : TimeRecord) (s : State) (up : s.hostUp = true) :
    (s.bit Reg.PWR_POLICY_HOST_STANDBY = false → exec (.pwrStandby n r) s = .next (s.put Reg.PWR_STATUS_CFG_REJ 1)) ∧
    (s.bit Reg.PWR_POLICY_HOST_STANDBY = true → s.pwr.started = false ∨ s.pwr.afterRamp ≠ none → exec (.pwrStandby n r) s = .next s) ∧
    (s.bit Reg.PWR_POLICY_HOST_STANDBY = true → s.pwr.started = true → s.pwr.afterRamp = none →
      ((∀ d < 3, (s.dom d).configured = true → (s.dom d).running = false) → ∃ t, exec (.pwrStandby n r) s = .next t ∧
        t.pwr.standby = true ∧ t.pwr.started = false ∧ t.pwr.req = false ∧ t.pwr.audio = false ∧ t.pwr.afterRamp = none ∧
        t.bit Reg.PAIR_STATUS_GATE_OPEN = false ∧ t.units = s.units) ∧
      ((∃ d < 3, (s.dom d).configured = true ∧ (s.dom d).running = true ∧ 0 < (s.dom d).block) →
        ∃ t ends, exec (.pwrStandby n r) s = .next t ∧ t.regs = s.regs ∧ t.units = s.units ∧ t.pwr.started = true ∧
          t.pwr.afterRamp = some (ends, .standby s.commits n r) ∧ ∀ d < 3, (s.dom d).configured = true → (s.dom d).running = true →
            (d, (s.dom d).si + (s.dom d).block + s.samplesMs d 5) ∈ ends ∧
            Tab.get {} t.pwr.gain d = gateTo (Tab.get {} s.pwr.gain d) true (s.samplesMs d 5) ((s.dom d).si + (s.dom d).block))) := by
  refine ⟨exec_pwrStandby_rejects n r up, exec_pwrStandby_busy n r up, fun policy started idle => ⟨fun still => ?_, ?_⟩⟩
  · have none_ : s.rampedDomains = [] := List.eq_nil_iff_forall_not_mem.2 fun d mem => by
      obtain ⟨small, configured, running⟩ := State.mem_rampedDomains.1 mem
      exact absurd running (by rw [still d small configured]; decide)
    refine ⟨_, exec_pwrStandby_atOnce n r up policy started idle none_, ?_⟩
    obtain ⟨standby, off, req, audio, ramp, gate, units, -⟩ := (s.rampDown (.standby s.commits n r)).powerDown_shows s.commits n r
    refine ⟨standby, off, req, audio, ramp, gate, units.trans ?_⟩
    rw [State.rampDown_eq]
  · rintro ⟨d, small, configured, running, block⟩
    refine ⟨_, s.rampEnds, exec_pwrStandby_waits n r up policy started idle (State.mem_rampedDomains.2 ⟨small, configured, running⟩)
      block, ?_⟩
    rw [State.rampDown_eq]
    refine ⟨rfl, rfl, started, rfl, fun e inside shared runs => ?_⟩
    have on : e ∈ s.rampedDomains := State.mem_rampedDomains.2 ⟨inside, shared, runs⟩
    exact ⟨List.mem_map.2 ⟨e, on, rfl⟩, State.rampGains_get on⟩

theorem endRamps_spec (ends : List (Nat × Nat)) (c : Bool) (n : Nat) (r : TimeRecord) (s : State)
    (ramp : s.pwr.afterRamp = some (ends, .standby c n r)) (past : ∀ e ∈ ends, e.2 ≤ (s.dom e.1).si) :
    s.endRamps.pwr.standby = true ∧ s.endRamps.pwr.started = false ∧
      s.endRamps.bit Reg.PAIR_STATUS_GATE_OPEN = false ∧ s.endRamps.store.keys = none := by
  have down : s.endRamps = s.powerDown c n r := by rw [State.endRamps, State.rampedDown_of_all ramp past]
  obtain ⟨standby, off, -, -, -, gate, -, keys⟩ := s.powerDown_shows c n r
  rw [down]
  exact ⟨standby, off, gate, keys⟩

theorem asks_iff : (s.pwr.standby && !s.pwr.req) = true ↔ s.pwr.standby = true ∧ s.pwr.req = false := by
  rw [Bool.and_eq_true, Bool.not_eq_true']

/-- The warmer counter at the alarm, and the alarm shown. -/
def State.alarmed (s : State) : State := (s.put Reg.PWR_WARM_CNT_COUNT (s.get Reg.PWR_ALARM_ALARM)).set Reg.PWR_ALARM_CTL_FIRED

theorem wake_spec (s : State) : let ask := s.pwr.standby = true ∧ s.pwr.req = false
    (ask → exec .wake s = .next (s.modPwr fun p => { p with req := true, wakeCause := 1 })) ∧
    (¬ask → exec .wake s = .next s) ∧
    (s.bit Reg.PWR_ALARM_CTL_EN = false → exec .warmAlarm s = .next s) ∧
    (s.bit Reg.PWR_ALARM_CTL_EN = true → ∃ t, exec .warmAlarm s = .next t ∧ t.bit Reg.PWR_ALARM_CTL_FIRED = true ∧
      t.get Reg.PWR_WARM_CNT_COUNT = s.get Reg.PWR_ALARM_ALARM % 2 ^ 48 ∧
      t.pwr = (if s.pwr.standby && !s.pwr.req then { s.pwr with req := true, wakeCause := 2 } else s.pwr)) ∧
    (s.pwr.standby = true → s.pwr.req = true → ∃ t, exec .wakeFail s = .next t ∧ t.bit Reg.PWR_STATUS_WAKE_FAIL = true ∧
      t.pwr = { s.pwr with req := false, wakeCause := 0 } ∧ t.units = s.units) ∧
    (s.pwr.req = false → exec .wakeFail s = .next s) := by
  intro ask
  refine ⟨fun asks => congrArg Host.Outcome.next (if_pos (asks_iff.2 asks)),
    fun quiet => congrArg Host.Outcome.next (if_neg fun asks => quiet (asks_iff.1 asks)), fun off => if_pos (by rw [off]; rfl),
    fun on => ⟨_, if_neg (by rw [on]; decide), ?_⟩, fun standby req => ⟨_, congrArg Host.Outcome.next (if_pos (by rw [standby, req]; rfl)),
    State.bit_set_same _ rfl, rfl, rfl⟩, fun quiet => congrArg Host.Outcome.next (if_neg (by rw [quiet, Bool.and_false]; decide))⟩
  have fired : s.alarmed.bit Reg.PWR_ALARM_CTL_FIRED = true ∧
      s.alarmed.get Reg.PWR_WARM_CNT_COUNT = s.get Reg.PWR_ALARM_ALARM % 2 ^ 48 :=
    ⟨State.bit_set_same _ rfl, (State.get_put_ne _ (by decide) _).trans (State.get_put_same s _ _)⟩
  obtain ⟨shown, counted⟩ := fired
  split
  · exact ⟨shown, counted, rfl⟩
  · exact ⟨shown, counted, rfl⟩

end Sys2Proof.Machine
end

