-- ==== Sys2Proof/Proofs/StartWork.lean ====
section
/-! SUPPORT. What start-up leaves (R714–R718): the queue of commands, the settings copies and the registers that show recovery,
restoration and a hold. -/

namespace Sys2Proof.Machine
variable {s t u : State}

/-- The registers by which a start is judged. -/
def startBits : List Fld := [Reg.TRUST_STATE_RECOVERY, Reg.GLOBAL_RESTORE_DONE, Reg.PWR_STATUS_HOLD]

/-- A register that is none of them. -/
abbrev SpareReg (g : Fld) : Prop := ∀ f ∈ startBits, f.key ≠ g.key

/-- Registers of the blocks above the power block are none of them, wherever their bit is not the place of RECOVERY in its word. -/
theorem spare_beyond {base stride i lo w : Nat} (fits : 0x1000 < base ∧ lo < 32 ∧ lo ≠ 8 := by decide) :
    SpareReg ⟨base + stride * i, lo, w⟩ := by
  obtain ⟨beyond, small, other⟩ := fits
  simp only [SpareReg, startBits, List.forall_mem_cons, Fld.key, Reg.TRUST_STATE_RECOVERY, Reg.GLOBAL_RESTORE_DONE, Reg.PWR_STATUS_HOLD]
  exact ⟨by omega, by omega, by omega, by simp⟩

/-- What MRAM and the warmer domain hold of the settings. -/
def PwrSt.image (p : PwrSt) : Tab BisqueCopy × Tab Nat × Bool := (p.copies, p.fw, p.started)

/-- The queue of commands, the settings copies with the firmware's versions, and the registers by which a start is judged stay. -/
structure StartWork (s t : State) : Prop where
  pending : t.pending = s.pending
  image : t.pwr.image = s.pwr.image
  bits : ∀ f ∈ startBits, t.get f = s.get f

theorem StartWork.refl : StartWork s s := ⟨rfl, rfl, fun _ _ => rfl⟩

theorem StartWork.trans (a : StartWork s t) (b : StartWork t u) : StartWork s u :=
  ⟨b.pending.trans a.pending, b.image.trans a.image, fun f mem => (b.bits f mem).trans (a.bits f mem)⟩

theorem StartWork.same (regs : t.regs = s.regs) (pending : t.pending = s.pending) (image : t.pwr.image = s.pwr.image) : StartWork s t :=
  ⟨pending, image, fun f _ => State.get_of_regs regs f⟩

theorem StartWork.put {g : Fld} (spare : SpareReg g) (v : Nat) : StartWork s (s.put g v) :=
  ⟨rfl, rfl, fun f mem => State.get_put_ne s (spare f mem) v⟩

theorem StartWork.beyond {base stride i lo w : Nat} (v : Nat) (fits : 0x1000 < base ∧ lo < 32 ∧ lo ≠ 8 := by decide) :
    StartWork s (s.put ⟨base + stride * i, lo, w⟩ v) := .put (spare_beyond fits) v

theorem StartWork.ite {c : Prop} [Decidable c] (a : StartWork s t) (b : StartWork s u) : StartWork s (if c then t else u) := by
  split
  · exact a
  · exact b

theorem StartWork.raise {g : Fld} (spare : SpareReg g) (v : Nat) : StartWork s (s.raise g v) := .ite (.put spare v) .refl

theorem StartWork.each {α : Type} {xs : List α} {f : α → State → State} (h : ∀ x ∈ xs, ∀ t, StartWork t (f x t)) :
    StartWork s (s.each xs f) :=
  State.each_keeps_mem (StartWork s) f s xs (fun x mem t kept => kept.trans (h x mem t)) .refl

theorem StartWork.clear {l : List Fld} (spare : ∀ g ∈ l, SpareReg g) : StartWork s (s.clear l) :=
  List.foldlRecOn (motive := StartWork s) l _ .refl fun _ kept g mem => kept.trans (.put (spare g mem) 0)

theorem StartWork.host (h : SameButHost s t) : StartWork s t :=
  ⟨h.pending, congrArg PwrSt.image h.pwr, fun f mem => h.get f ((by decide : ∀ f ∈ startBits, f.lo < 32) f mem)
    ((by decide : ∀ f ∈ startBits, f.outsideHost) f mem)⟩

theorem StartWork.postNow (s : State) (c : EvClass) (v : Option Nat) (k : Nat) (b : List Nat) : StartWork s (s.postNow c v k b) :=
  .host (.postNow ..)

theorem StartWork.paired {l : List Fld} (free : ∀ f ∈ startBits, f.FreeOf l) (h : PairWork l s t) : StartWork s t :=
  ⟨h.pending, congrArg PwrSt.image h.pwr, fun f mem => h.get (free f mem)⟩

theorem StartWork.modPwr {f : PwrSt → PwrSt} (image : (f s.pwr).image = s.pwr.image) : StartWork s (s.modPwr f) := .same rfl rfl image

theorem StartWork.bit (h : StartWork s t) {f : Fld} (mem : f ∈ startBits) : t.bit f = s.bit f := State.bit_of_get (h.bits f mem)

/-! ### Commands that restoration runs -/

/-- A command that answers a state, and does only such work. -/
def State.Starts (s : State) (o : Out) : Prop := ∃ t, o = .next t ∧ StartWork s t

theorem State.Starts.next (h : StartWork s t) : s.Starts (.next t) := ⟨t, rfl, h⟩

theorem State.Starts.ite {c : Prop} [Decidable c] {a b : Out} (x : s.Starts a) (y : s.Starts b) : s.Starts (if c then a else b) := by
  split
  · exact x
  · exact y

theorem StartWork.run {f : State → Out} (h : s.Starts (f s)) : StartWork s (s.run f) := by
  obtain ⟨t, eq, work⟩ := h
  rw [State.run, eq]
  exact work

theorem State.Starts.ifHost {o : Out} (h : s.Starts o) : s.Starts (s.ifHost o) := .ite h (.next .refl)

theorem StartWork.accFault (s : State) (bar2 : Bool) (off be kind : Nat) : StartWork s (s.accFault bar2 off be kind) := by
  have counted : StartWork s ((s.set Reg.GLOBAL_ACC_ACC_FAULT).bump Reg.GLOBAL_ACC_CNT_FAULTS) :=
    .trans (.put (by decide) 1) (.put (by decide) _)
  unfold State.accFault
  refine .ite (counted.trans (.put (by decide) 1)) ?_
  exact ((((counted.trans (.put (by decide) _)).trans (.put (by decide) _)).trans (.put (by decide) _)).trans (.put (by decide) _)).trans
    (.put (by decide) 1)

theorem State.Starts.ifRestored {o : Out} {off : Nat} {change : Bool} (h : s.Starts o) : s.Starts (s.ifRestored off change o) :=
  .ifHost (.ite h (.ite (.next (.accFault ..)) (.next .refl)))

theorem starts_lawCommit (s : State) : s.Starts (execLawCommit s) :=
  .ifHost (.next (.ite (.same rfl rfl rfl) (.put (by decide) 1)))

theorem conv_spare (c : Fin 4) : SpareReg (convEn c) ∧ SpareReg (convPreset c) ∧ SpareReg (convSettled c) := by decide +revert

theorem StartWork.setConv (s : State) (c : Nat) (x : ConvCh) : StartWork s (s.setConv c x) := .same rfl rfl rfl

theorem StartWork.unsettle (s : State) (c : Fin 4) : StartWork s (s.unsettle c) :=
  .trans (t := s.modConv c fun x => { x with settled := none, gate := {} }) (.same rfl rfl rfl) (.put (conv_spare c).2.2 0)

theorem StartWork.convTakeover (s : State) (c : Fin 4) (n : Nat) : StartWork s (s.convTakeover c n) := by
  unfold State.convTakeover
  dsimp only
  split
  · split
    · exact (StartWork.setConv s c _).trans (.unsettle _ c)
    · split
      · exact (StartWork.setConv s c _).trans (.unsettle _ c)
      · exact .refl
  · exact .refl

theorem StartWork.convWritten (s : State) (c : Fin 4) (en : Bool) (p : Nat) : StartWork s (s.convWritten c en p) := by
  obtain ⟨enable, preset, -⟩ := conv_spare c
  unfold State.convWritten
  exact .trans (.ite (.put (by decide) 1) (.put preset _)) (.put enable _)

theorem starts_convEnWrite (s : State) (c : Fin 4) (en : Bool) (preset : Fin 4) (k : Nat) : s.Starts (execConvEnWrite c en preset k s) := by
  have written : StartWork s ((s.convTakeover c (s.convSi k)).convWritten c en preset) := .trans (.convTakeover ..) (.convWritten ..)
  refine .ifRestored ?_
  generalize eq : (s.convTakeover c (s.convSi k)).convWritten c en preset = v at written
  have then_ (x : ConvCh) : s.Starts (.next (v.setConv c x)) := .next (written.trans (.setConv ..))
  have fresh (x : ConvCh) : s.Starts (.next ((v.setConv c x).unsettle c)) :=
    .next ((written.trans (.setConv v c x)).trans (.unsettle _ c))
  unfold State.convWritten at eq
  dsimp only
  rw [eq]
  exact .ite (.ite (.ite (.next written) (then_ _)) (fresh _)) (.ite (then_ _) (then_ _))

theorem ps_spare (c : Fin 2) : SpareReg (Reg.HUBA_PSC_STATUS_STATE c) ∧ SpareReg (Reg.HUBA_PSC_STATUS_RETRY_USED c) ∧
    SpareReg Reg.HUBA_PS_CTL_EN := by decide +revert

theorem StartWork.psTo (s : State) (c : Fin 2) (f : PsCh → PsCh) (n : Nat) : StartWork s ((s.modPs c f).psTo c n) :=
  .trans (t := s.modPs c f) (.same rfl rfl rfl) (.put (ps_spare c).1 n)

theorem StartWork.psStart (s : State) (c : Fin 2) : StartWork s (s.psStart c) := .ite (.psTo ..) (.psTo ..)

theorem starts_psEnWrite (s : State) (c : Fin 2) (en : Bool) (k : Nat) : s.Starts (execPsEnWrite c en k s) := by
  obtain ⟨-, used, enables⟩ := ps_spare c
  have opened : StartWork s ((s.setMask Reg.HUBA_PS_CTL_EN c).put (Reg.HUBA_PSC_STATUS_RETRY_USED c) 0) := .trans (.put enables _)
    (.put used 0)
  have shut : StartWork s (s.clrMask Reg.HUBA_PS_CTL_EN c) := .put enables _
  refine .ifRestored ?_
  dsimp only
  refine .ite (.next (.ite opened (opened.trans (.psStart ..)))) (.ite (.next (shut.trans ?_)) (.next (shut.trans (.psTo ..))))
  exact .same rfl rfl rfl

/-! ### Media PLLs and what follows their references -/

theorem loop_spare {n : Nat} (number : n < 3) : (∀ g ∈ candidateRegs n, SpareReg g) ∧ SpareReg (Reg.CLK_MPLL_CTL_LOOP n) := by
  have all : ∀ n : Fin 3, (∀ g ∈ candidateRegs n, SpareReg g) ∧ SpareReg (Reg.CLK_MPLL_CTL_LOOP n) := by decide
  exact all ⟨n, number⟩

section
variable {n : Nat} (number : n < 3)
include number

theorem reference_spare {g : Fld} (mem : g ∈ referenceRegs n) : SpareReg g := (loop_spare number).1 g (referenceRegs_subset n mem)

theorem StartWork.enterMpll (s : State) (st : Nat) : StartWork s (s.enterMpll n st) :=
  .trans (.trans (.put (reference_spare number (by simp [referenceRegs, acquireRegs])) st)
    (.put (reference_spare number (by simp [referenceRegs, acquireRegs])) _)) (.postNow ..)

theorem StartWork.enterAcquire (s : State) : StartWork s (s.enterAcquire n) := by
  have shown : StartWork s (s.put (Reg.CLK_MPLL_STATE_NARROW_DONE n) 0) :=
    .put (reference_spare number (by simp [referenceRegs, acquireRegs])) 0
  have reset (v : State) (f : MpllSt → MpllSt) : StartWork v (v.modMpll n f) := .same rfl rfl rfl
  exact (shown.trans (reset _ _)).trans (.enterMpll number _ _)

theorem StartWork.selectCandidate (s : State) (k : Nat) : StartWork s (s.selectCandidate n k) := by
  have reset (v : State) (f : MpllSt → MpllSt) : StartWork v (v.modMpll n f) := .same rfl rfl rfl
  have unaligned (v : State) : StartWork v (v.unalign n) := .put (g := Reg.TIME_STATUS_ALIGNED) (by decide) _
  have pointed : StartWork s (s.pointTo n k) :=
    (((StartWork.put (g := Reg.CLK_MPLL_STATE_SEL n) (reference_spare number (by simp [referenceRegs])) k).trans
      (.put (g := Reg.CLK_MPLL_STATE_SEL_VALID n) (reference_spare number (by simp [referenceRegs])) 1)).trans (reset _ _)).trans
      (unaligned _)
  obtain ⟨b, eq⟩ := s.selectCandidate_eq n k
  rw [eq]
  exact (pointed.trans (.ite (.put (by decide) 0) .refl)).trans (.enterAcquire number _)

theorem StartWork.loseReference (s : State) : StartWork s (s.loseReference n) := by
  have invalid : StartWork s (s.put (Reg.CLK_MPLL_STATE_SEL_VALID n) 0) := .put (reference_spare number (by simp [referenceRegs])) 0
  have held (v : Nat) : StartWork s ((s.put (Reg.CLK_MPLL_STATE_SEL_VALID n) 0).put (Reg.CLK_MPLL_DCO_WORD n) v).take :=
    .trans (invalid.trans (.put (reference_spare number (by simp [referenceRegs])) v)) (.same rfl rfl rfl)
  unfold State.loseReference
  split
  · refine .trans (.ite ?_ .refl) (.selectCandidate number _ _)
    exact .same rfl rfl rfl
  · exact .ite (.trans (.ite invalid (held _)) (.enterMpll number _ _)) (.ite (invalid.trans (.enterMpll number _ _)) invalid)

theorem StartWork.disqualify (s : State) (k : Nat) : StartWork s (s.disqualify n k) := by
  have marked : StartWork s ((s.clrMask (Reg.CLK_MPLL_QUAL_QUALIFIED n) k).setMask (Reg.CLK_MPLL_QUAL_DISQ n) k) :=
    .trans (.put ((loop_spare number).1 _ (by simp [candidateRegs])) _) (.put ((loop_spare number).1 _ (by simp [candidateRegs])) _)
  exact .ite (.ite (marked.trans (.loseReference number _)) marked) .refl

end

theorem StartWork.masterClocks (s : State) : StartWork s s.masterClocks := by
  refine .each fun g mem t => ?_
  have spare : ∀ g ∈ List.range 4, SpareReg (Reg.APG_STATUS_CLK_OK g) ∧ SpareReg (Reg.APG_STATUS_MEAS_RATE g) := by decide
  obtain ⟨clock, rate⟩ := spare g mem
  have shown : StartWork t (t.putBit (Reg.APG_STATUS_CLK_OK g) (t.mpll (t.get (Reg.APG_CFG_DOMAIN g))).everLocked) := .put clock _
  exact .ite (.ite (shown.trans (.put rate _)) shown) .refl

theorem StartWork.startMplls (s : State) : StartWork s s.startMplls := by
  refine .each fun n mem t => ?_
  have number : n < 3 := List.mem_range.1 (List.mem_filter.1 mem).1
  have biased (f : MpllSt → MpllSt) : StartWork t ((t.modMpll n f).put (Reg.CLK_MPLL_STATE_SEL_VALID n) 0) :=
    .trans (t := t.modMpll n f) (.same rfl rfl rfl)
      (.put (g := Reg.CLK_MPLL_STATE_SEL_VALID n) (reference_spare number (by simp [referenceRegs])) 0)
  have work := biased fun m => { m with bias := signed32 (t.get (Reg.CLK_MPLL_DCO_WORD n)), everLocked := true, lockedAt := t.now }
  dsimp only
  generalize (t.modMpll n fun m => { m with bias := signed32 (t.get (Reg.CLK_MPLL_DCO_WORD n)), everLocked := true, lockedAt := t.now }).put
    (Reg.CLK_MPLL_STATE_SEL_VALID n) 0 = v at work ⊢
  exact work.trans (.ite (.masterClocks v) ((StartWork.masterClocks v).trans ((StartWork.enterAcquire number _).trans
    (.enterMpll number _ _))))

/-! ### Enables of links, ports, receivers and transmitters -/

theorem StartWork.freeHeld (s : State) (c : Cell) : StartWork s (s.freeHeld c) := by
  unfold State.freeHeld
  split
  · exact .same rfl rfl rfl
  · exact .refl

theorem StartWork.answerWait (s : State) (op tag dev : Nat) (st : Status) : StartWork s (s.answerWait op tag dev st) := by
  unfold State.answerWait
  split
  · exact .refl
  · exact .ite (.same rfl rfl rfl) (.same rfl rfl rfl)

theorem StartWork.dropWlTime (s : State) (p : Nat) : StartWork s (s.dropWlTime p) :=
  .each fun _ mem _ => .each fun k _ t => .ite (.disqualify (List.mem_range.1 mem) t k) .refl

theorem StartWork.downPort (s : State) (p : Nat) : StartWork s (s.downPort p) := by
  have cells : StartWork s ((s.freeReady p).dropHeld p) := .trans (.each fun c _ t => .freeHeld t c) (.each fun _ _ _ => .same rfl rfl rfl)
  unfold State.downPort
  exact .trans ((((cells.trans (.beyond _)).trans
    (.beyond 1)).trans (.beyond 0)).trans
    (.beyond 0)) (.same rfl rfl rfl)

theorem StartWork.wlLeaveUp (s : State) (p : Nat) : StartWork s (s.wlLeaveUp p) := by
  unfold State.wlLeaveUp
  refine .ite ?_ ?_
  · have down : StartWork s (s.downPort p) := .downPort ..
    refine .trans (.trans (.trans (.trans down (.ite ?_ .refl)) (.dropWlTime _ p)) (.each fun w _ t => .each fun d _ u => .answerWait ..))
      (.postNow ..)
    exact .same rfl rfl rfl
  · exact .ite .refl (.trans (.beyond _) (.postNow ..))

theorem StartWork.wlEnable (s : State) (p : Nat) (en : Bool) : StartWork s (s.wlEnable p en) := by
  have shown : StartWork s (s.putBit (Reg.WLP_CTL_EN p) en) := .beyond _
  refine .ite (shown.trans ?_) (shown.trans (.wlLeaveUp ..))
  exact .ite (.beyond _) .refl

theorem StartWork.countPool (s : State) : StartWork s s.countPool := .trans (.put (by decide) _) (.raise (by decide) _)

theorem StartWork.enablePort (s : State) (p : Nat) : StartWork s (s.enablePort p) := by
  have refused : StartWork s (s.set (Reg.APORT_P_STATUS_CAP_REJ p)) := .beyond 1
  have shown : StartWork s (s.set (Reg.APORT_P_CTL_EN p)) := .beyond 1
  have taken (v : State) (l : List Nat) : StartWork v (v.each l fun a t => t.takeAsrc a) := .each fun _ _ _ => .same rfl rfl rfl
  unfold State.enablePort
  dsimp only
  exact .ite .refl (.ite (.put (by decide) 1) (.ite refused (.ite refused ((shown.trans (taken _ _)).trans (.countPool _)))))

theorem StartWork.disablePort (s : State) (p : Nat) : StartWork s (s.disablePort p) :=
  have shown : StartWork s (s.put (Reg.APORT_P_CTL_EN p) 0) := .beyond 0
  have dropped (v : State) (l : List Nat) : StartWork v (v.each l fun a t => t.dropAsrc a) := .each fun _ _ _ => .same rfl rfl rfl
  (shown.trans (dropped _ _)).trans (.countPool _)

theorem StartWork.showAsrc (s : State) (a : Nat) : StartWork s (s.showAsrc a) := by
  unfold State.showAsrc
  split
  · exact .ite (.beyond _) .refl
  · exact .refl

theorem StartWork.restartSource (s : State) (a : Nat) : StartWork s (s.restartSource a) :=
  .each fun k _ t => .ite (.trans (t := t.modAsrc k _) (.same rfl rfl rfl) (.showAsrc _ k)) .refl

theorem StartWork.disableAesRx (s : State) (n : Nat) : StartWork s (s.disableAesRx n) := by
  have off : StartWork s ((s.put (Reg.AES_RX_CTL_EN n) 0).put (Reg.AES_RX_STATUS_LOCK n) 0) :=
    .trans (.beyond 0) (.beyond 0)
  refine (off.trans ?_).trans (.each fun a _ t => .restartSource t a)
  exact .each fun _ mem _ => .each fun k _ t => .ite (.disqualify (List.mem_range.1 mem) t k) .refl

theorem StartWork.showGated (s : State) : StartWork s s.showGated :=
  .each fun _ _ _ => .beyond _

theorem StartWork.disableAesTx (s : State) (n : Nat) : StartWork s (s.disableAesTx n) := by
  have gate (v : State) : StartWork v (v.put (Reg.AES_TX_CTL_EN n) 0) := .beyond 0
  have idle (v : State) : StartWork v (v.put (Reg.AES_TX_STATUS_RUNNING n) 0) := .beyond 0
  have closed (v : State) : StartWork v (v.put (Reg.AES_TX_STATUS_GATED n) 0) := .beyond 0
  exact ((gate s).trans (idle _)).trans (closed _)

theorem StartWork.slEnable (s : State) (p : Nat) (en : Bool) : StartWork s (s.slEnable p en) := by
  have shown : StartWork s (s.putBit (Reg.SURF_SL_CTL_EN p) en) := .beyond _
  have dropped (slot : Nat) (t : State) : StartWork t (t.dropFaders slot) := by
    refine .trans (t := t.modSurf _) (.same rfl rfl rfl) (.each fun f _ u => ?_)
    refine .trans (t := (u.modFader f fun _ => {}).modSurf fun x => { x with drive := Tab.put 0 x.drive f 0 }) (.same rfl rfl rfl)
      (.clear ?_)
    simp only [List.forall_mem_cons]
    exact ⟨spare_beyond, spare_beyond, spare_beyond, spare_beyond, by simp⟩
  have state (v : Nat) : StartWork (s.putBit (Reg.SURF_SL_CTL_EN p) en) ((s.putBit (Reg.SURF_SL_CTL_EN p) en).put
    (Reg.SURF_SL_STATUS_STATE p) v) :=
    .beyond v
  refine .ite shown (.ite (shown.trans (state 1)) (shown.trans (((state 0).trans ?_).trans (.each fun m _ t => dropped _ t))))
  exact .beyond 0

theorem StartWork.reject_pair (s : State) : StartWork s (s.reject 0x13000) := .put (g := Reg.PAIR_STATUS_CFG_REJ) (by decide) 1

theorem StartWork.gateDown (s : State) : StartWork s s.gateDown := .paired (by decide) (PairWork.gateDown (l := gateRegs)
    (List.Subset.refl _) s)

theorem StartWork.beginPairing (s : State) : StartWork s s.beginPairing := by
  have listens : StartWork s s.listens :=
    .trans (t := s.listenRegs) (.trans (.trans (.put (by decide) 1) (.put (by decide) 3)) (.put (by decide) 0)) (.same rfl rfl rfl)
  rw [State.beginPairing_eq]
  exact .ite ((listens.trans (.gateDown _)).trans (.host (.post ..))) listens

theorem StartWork.applyEnable (s : State) (r : RegRow) {f : Fld} (v : Nat) (spare : SpareReg f) : StartWork s (s.applyEnable r f v) := by
  unfold State.applyEnable
  dsimp only
  split
  · exact .run (starts_convEnWrite ..)
  · exact .run (starts_convEnWrite ..)
  · exact .each fun _ _ t => .ite .refl (.run (starts_psEnWrite ..))
  · refine .ite .refl ?_
    split
    · exact .wlEnable ..
    · exact .ite (.enablePort ..) (.disablePort ..)
    · refine .ite (.ite (.put (by decide) 1) ?_) (.disableAesRx ..)
      exact .beyond 1
    · refine .ite (.ite (.put (by decide) 1) (.trans ?_ (.showGated _))) (.disableAesTx ..)
      exact .beyond 1
    · exact .slEnable ..
    · exact .ite (.reject_pair s) (.beginPairing s)
    · exact .put spare v

end Sys2Proof.Machine
end

