-- ==== Sys2Proof/Proofs/Starts.lean ====
section
/-! SUPPORT. Starts (R708, R709, R714–R717): restoration, the schedule, first audio, and where a cold start ends. -/

namespace Sys2Proof.Machine
variable {s t u : State}

/-! ### Restoration -/

theorem restored_spare : ∀ e ∈ restoredFields, SpareReg e.2 := by decide +kernel

theorem StartWork.startDomains (s : State) (i : Option SchedImage) (ns : Nat) : StartWork s (s.startDomains i ns) := by
  refine .each fun d _ t => ?_
  split
  · exact .same rfl rfl rfl
  · exact .ite (.same rfl rfl rfl) .refl

theorem StartWork.showPin (s : State) (k : Nat) : StartWork s (s.showPin k) :=
  .trans (.beyond _) (.put (by decide) _)

theorem StartWork.restoreLaw (s : State) : StartWork s s.restoreLaw := by
  have run : StartWork s (s.run execLawCommit) := .run (starts_lawCommit s)
  unfold State.restoreLaw
  dsimp only
  split
  · exact run.trans (.same rfl rfl rfl)
  · exact .refl

section
variable {l : List (RegRow × Fld)} (spare : ∀ e ∈ l, SpareReg e.2)
include spare

theorem StartWork.restoreFields (s : State) (x : Option Settings) (src : List (Fld × Nat)) : StartWork s (s.restoreFields l x src) := by
  have taken : StartWork s (s.each l fun e t =>
      let v := restoredValue x src e.1 e.2
      let t1 := if isEnable e.1 then t else t.put e.2 v.1
      if v.2 then t1.bump Reg.GLOBAL_RESTORE_DEFAULTED else t1) := by
    refine .each fun e mem t => ?_
    have value : StartWork t (if isEnable e.1 then t else t.put e.2 (restoredValue x src e.1 e.2).1) := .ite .refl (.put (spare e mem) _)
    exact .ite (value.trans (.put (by decide) _)) value
  exact taken.trans (.each fun n mem t => .ite (.put (loop_spare (List.mem_range.1 mem)).2 1) .refl)

theorem StartWork.restoreSettings (s : State) (x : Option Settings) : StartWork s (s.restoreSettings l x) := by
  have fields := StartWork.restoreFields spare s x s.sourcedRegs
  unfold State.restoreSettings
  dsimp only
  generalize s.restoreFields l x s.sourcedRegs = v at fields ⊢
  refine .trans (.trans (.trans (.trans fields ?_) (.restoreLaw _)) (.each fun k _ t => .showPin t k)) (.each fun e mem t =>
    .applyEnable t e.1 _ (spare e (List.mem_filter.1 mem).1))
  exact .same rfl rfl rfl

end

/-- A start begins by showing that the settings are restored. -/
theorem StartWork.set_done (h : StartWork s t) : StartWork (s.set Reg.GLOBAL_RESTORE_DONE) (t.set Reg.GLOBAL_RESTORE_DONE) := by
  refine ⟨h.pending, h.image, fun f mem => ?_⟩
  by_cases same : f.key = Reg.GLOBAL_RESTORE_DONE.key
  · have eq : f = Reg.GLOBAL_RESTORE_DONE :=
      (by decide : ∀ f ∈ startBits, f.key = Reg.GLOBAL_RESTORE_DONE.key → f = Reg.GLOBAL_RESTORE_DONE) f mem same
    rw [eq, State.set, State.set, State.get_put_same, State.get_put_same]
  · rw [State.set, State.set, State.get_put_ne _ same, State.get_put_ne _ same]
    exact h.bits f mem

theorem StartWork.startOn (s : State) (x : Option Settings) (source : Nat) (f : StartFacts) :
    StartWork (s.set Reg.GLOBAL_RESTORE_DONE) (s.startOn x source f) := by
  have domains : StartWork s ((s.setClock (ptpClockOf (16 * f.ns))).startDomains (x.bind (·.sched)) f.ns) :=
    .trans (t := s.setClock (ptpClockOf (16 * f.ns))) (.same rfl rfl rfl) (.startDomains ..)
  refine .trans ?_ (.startMplls _)
  exact .trans domains.set_done (.trans (.put (by decide) source) (.restoreSettings restored_spare _ x))

/-! ### The schedule -/

theorem region_spare (r : Fin 8) : SpareReg (Reg.FABRIC_RG_CLK_SETPOINT r) ∧ SpareReg (Reg.BIST_ROT_RG_ENABLED r) ∧
    SpareReg (Reg.BIST_ROT_RG_N r) ∧ SpareReg (Reg.BIST_ROT_RG_SPARE r) := by decide +revert

theorem StartWork.showRegions (s : State) (i : SchedImage) (d : Nat) : StartWork s ((s.setPoints i d).showRotation i d) := by
  refine .trans (.each fun r _ t => .put (region_spare r.region).1 _) (.each fun r _ t => ?_)
  obtain ⟨-, enabled, period, spare⟩ := region_spare r.region
  exact .trans (.trans (.put enabled _) (.put period _)) (.put spare _)

theorem StartWork.loadUnit (s : State) (k digest : Nat) : StartWork s (s.loadUnit k digest) := by
  unfold State.loadUnit
  split
  · exact .refl
  · exact .same rfl rfl rfl

theorem StartWork.newStrips (s : State) (i : SchedImage) : StartWork s (s.newStrips i) :=
  .each fun _ _ _ => .ite (.same rfl rfl rfl) .refl

theorem StartWork.loadServos (s : State) (i : SchedImage) : StartWork s (s.loadServos i) := by
  unfold State.loadServos
  split
  · exact .trans (.put (by decide) 0) (.each fun _ _ _ => .same rfl rfl rfl)
  · exact .trans (.put (by decide) 15) (.each fun _ _ _ => .loadUnit ..)

theorem StartWork.loadCluster (s : State) (i : SchedImage) (c : Nat) : StartWork s (s.loadCluster i c) :=
  .trans (.each fun _ _ _ => .loadUnit ..) (.same rfl rfl rfl)

theorem StartWork.writeSlots (s : State) (i : SchedImage) (c : Nat) : StartWork s (s.writeSlots i c) := .each fun _ _ _ => .same rfl rfl rfl

theorem StartWork.tables (s : State) (i : SchedImage) (d : Nat) : StartWork s (s.tables i d) := by
  obtain ⟨_, written⟩ := s.tables_writesShm i d
  rw [written]
  exact .same rfl rfl rfl

theorem StartWork.setBridges (s : State) (i : SchedImage) : StartWork s (s.setBridges i) := by
  have dropped (v : State) (l : List Nat) : StartWork v (v.each l fun a t => t.dropAsrc a) := .each fun _ _ _ => .same rfl rfl rfl
  have taken (v : State) (l : List Nat) : StartWork v (v.each l fun a t => if t.poolUsed < 240 then t.takeAsrc a else t) :=
    .each fun _ _ _ => .ite (.same rfl rfl rfl) .refl
  unfold State.setBridges
  exact .ite .refl (((dropped _ _).trans (taken _ _)).trans (.countPool _))

theorem StartWork.stageNow (s : State) (d : Nat) : StartWork s (s.stageNow d) := by
  have stage (v : State) (f : MixSt → MixSt) : StartWork v (v.modMix f) := .same rfl rfl rfl
  unfold State.stageNow
  split
  · refine .trans ?_ (.setBridges ..)
    unfold State.stageBlock
    exact .ite .refl ((stage _ _).trans (.tables ..))
  · exact .refl

theorem StartWork.startSchedule (s : State) (i : SchedImage) : StartWork s (s.startSchedule i) := by
  have counted : StartWork s ((s.modSched fun q => { q with active := 0, bank0 := { image := some i } }).advanceCounters i) :=
    .trans (t := s.modSched _) (.same rfl rfl rfl) (.each fun _ _ _ => .raise (by decide) _)
  refine .trans ?_ (.each fun d _ t => (StartWork.stageNow t d).trans (.tables _ i d))
  refine .trans ?_ (.each fun c _ t => .ite ((StartWork.loadCluster t i c).trans (.writeSlots _ i c)) .refl)
  refine .trans (.trans ?_ (.newStrips _ i)) (.loadServos _ i)
  refine .trans ?_ (.each fun d _ t => .showRegions t i d)
  exact ((counted.trans (.put (by decide) 0)).trans (.put (by decide) 0)).trans (.put (by decide) 1)

theorem StartWork.unmuteAll (s : State) : StartWork s s.unmuteAll := .trans (.each fun _ _ _ => .modPwr rfl) (.showGated _)

/-! ### First audio -/

theorem StartWork.postStart (s : State) : StartWork s s.postStart := by
  unfold State.postStart
  split
  · exact .refl
  · refine .ite ?_ .refl
    refine .trans (.trans ?_ (.clear (by decide))) (.host (.post ..))
    exact .same rfl rfl rfl

theorem State.postStart_kind (s : State) : s.postStart.pwr.audio = s.pwr.audio ∧
    s.postStart.bit Reg.PWR_STATUS_START_KIND = s.bit Reg.PWR_STATUS_START_KIND := by
  unfold State.postStart
  split
  · exact ⟨rfl, rfl⟩
  · split
    · refine ⟨?_, State.bit_of_get ?_⟩
      · dsimp only
        rw [State.post_pwr]
        rfl
      exact (State.get_post _ _ _ _ _ (by decide) (by decide)).trans (State.get_clear_ne _ (by decide))
    · exact ⟨rfl, rfl⟩

/-- The registers of a start: its times, its kind and the firmware that it runs. -/
def State.showStart (s : State) (kind : Nat) (f : StartFacts) (fw : Nat) : State :=
  let s1 := (s.put Reg.PWR_START_MS_FIRST_AUDIO f.audioMs).put Reg.PWR_START_MS_ADMIT f.admitMs
  let s2 := ((s1.put Reg.PWR_STATUS_START_KIND kind).put Reg.PWR_STATUS_CAUSE s.pwr.wakeCause)
  ((s2.raise (Reg.TRUST_CTR_VALUE 0) (Tab.get 0 s.pwr.fw fw)).put Reg.TRUST_FW_CURRENT fw).put Reg.TRUST_FW_TRY_OTHER 0

theorem StartWork.showStart (s : State) (kind : Nat) (f : StartFacts) (fw : Nat) : StartWork s (s.showStart kind f fw) :=
  ((((((StartWork.put (g := Reg.PWR_START_MS_FIRST_AUDIO) (by decide) _).trans (.put (by decide) _)).trans (.put (by decide) _)).trans
    (.put (by decide) _)).trans (.raise (by decide) _)).trans (.put (by decide) _)).trans (.put (by decide) _)

theorem State.showStart_kind (s : State) (kind : Nat) (f : StartFacts) (fw : Nat) :
    (s.showStart kind f fw).bit Reg.PWR_STATUS_START_KIND = (kind % 2 == 1) := by
  have shown (v : State) : ((v.put Reg.PWR_STATUS_START_KIND kind).put Reg.PWR_STATUS_CAUSE s.pwr.wakeCause).bit
      Reg.PWR_STATUS_START_KIND = (kind % 2 == 1) := (State.bit_put_ne _ (by decide) _).trans (State.bit_put_same v rfl kind)
  have raised (v : State) (n : Nat) : (v.raise (Reg.TRUST_CTR_VALUE 0) n).bit Reg.PWR_STATUS_START_KIND =
      v.bit Reg.PWR_STATUS_START_KIND := by
    unfold State.raise
    split
    · exact State.bit_put_ne v (by decide) n
    · rfl
  unfold State.showStart
  dsimp only
  rw [State.bit_put_ne _ (by decide), State.bit_put_ne _ (by decide), raised]
  exact shown _

/-- What the power block keeps of a start, and since when the engine has run. -/
def State.noteStart (s : State) (x : Option (List Nat × Status)) : State :=
  { s with pwr := { s.pwr with audio := true, wakeCause := 0, start := x }, trust := { s.trust with since := s.now } }

theorem State.endStart_eq (s : State) (kind : Nat) (f : StartFacts) (fw : Nat) (st : Status) : ∃ x,
    s.endStart kind f fw st = ((s.showStart kind f fw).noteStart x).postStart :=
  ⟨some ([kind, s.pwr.wakeCause, s.get Reg.PWR_BISQUE_COPY,
    s.get Reg.PWR_STATUS_WARM_LOST + 2 * s.get Reg.PWR_STATUS_COLD_NEXT, f.audioMs], st), rfl⟩

/-- `t` is a start from `s` that has reached first audio, with its settings restored. -/
structure Started (kind : Nat) (s t : State) : Prop where
  work : StartWork s t
  audio : t.pwr.audio = true
  kind : t.bit Reg.PWR_STATUS_START_KIND = (kind % 2 == 1)

theorem StartWork.endStart {kind : Nat} (h : StartWork s t) (f : StartFacts) (fw : Nat) (st : Status) :
    Started kind s (t.endStart kind f fw st) := by
  obtain ⟨x, eq⟩ := t.endStart_eq kind f fw st
  obtain ⟨audio, same⟩ := ((t.showStart kind f fw).noteStart x).postStart_kind
  rw [eq]
  have noted (v : State) : StartWork v (v.noteStart x) := .same rfl rfl rfl
  exact ⟨((h.trans (.showStart ..)).trans (noted _)).trans (.postStart _), audio.trans rfl, same.trans (t.showStart_kind kind f fw)⟩

variable {kind fw : Nat} {f : StartFacts} {st : Status}

theorem started_bare (s : State) : Started kind (s.set Reg.GLOBAL_RESTORE_DONE) (s.startBare kind f fw st) := by
  have work := (StartWork.startOn s none 2 f).trans (.put (g := Reg.PWR_BISQUE_COPY) (by decide) 3)
  unfold State.startBare
  generalize (s.startOn none 2 f).put Reg.PWR_BISQUE_COPY 3 = v at work ⊢
  exact (work.trans (.modPwr (f := fun p => { p with rebase := true, saved := {} }) rfl)).endStart f fw st

theorem started_house (s : State) : Started kind (s.set Reg.GLOBAL_RESTORE_DONE) (s.startHouse kind f fw st) := by
  unfold State.startHouse
  split
  · exact started_bare s
  · next x _ =>
    have work := (StartWork.startOn s (some x) 1 f).trans (.put (g := Reg.PWR_BISQUE_COPY) (by decide) 3)
    dsimp only
    generalize (s.startOn (some x) 1 f).put Reg.PWR_BISQUE_COPY 3 = v at work ⊢
    split
    · exact started_bare s
    · split
      · exact started_bare s
      · have loaded (f : SchedSt → SchedSt) : StartWork v (v.modSched f) := .same rfl rfl rfl
        have housed (w : State) : StartWork w (w.set Reg.PWR_STATUS_HOUSE) := .put (by decide) 1
        have owed (w : State) : StartWork w (w.modPwr fun p => { p with rebase := true, saved := x }) := .modPwr rfl
        exact (((((work.trans (loaded _)).trans (.startSchedule ..)).trans (housed _)).trans (owed _)).trans
          (.unmuteAll _)).endStart f fw st

theorem started_copy (s : State) (k : Nat) : Started 0 (s.set Reg.GLOBAL_RESTORE_DONE) (s.startCopy k f fw) := by
  have restored := (StartWork.startOn s (some (s.copy k).content) 0 f).trans (.put (g := Reg.PWR_BISQUE_PSET) (by decide)
    (s.copy k).content.pset)
  unfold State.startCopy
  dsimp only
  generalize (s.startOn (some (s.copy k).content) 0 f).put Reg.PWR_BISQUE_PSET (s.copy k).content.pset = r at restored ⊢
  have work := restored.trans (.modPwr (f := fun p => { p with saved := (s.copy k).content }) rfl)
  generalize (r.modPwr fun p => { p with saved := (s.copy k).content }) = v at work ⊢
  split
  · exact work.endStart f fw .ok
  · split
    · exact started_house s
    · split
      · exact started_house s
      · split
        · exact started_house s
        · have loaded (f : SchedSt → SchedSt) : StartWork v (v.modSched f) := .same rfl rfl rfl
          exact (((work.trans (loaded _)).trans (.startSchedule ..)).trans (.unmuteAll _)).endStart f fw .ok

/-! ### A cold start -/

theorem StartWork.showCopies (s : State) (pick : Option Nat) (maj : Bool) : StartWork s (s.showCopies f pick maj st) := by
  have spare : ∀ k ∈ List.range 3, SpareReg (Reg.PWR_COPY_INTACT k) ∧ SpareReg (Reg.PWR_COPY_NEWEST k) ∧
      SpareReg (Reg.PWR_COPY_AGREES k) ∧ SpareReg (Reg.PWR_COPY_RECORDS k) := by decide
  have copies (v : State) (g : Nat → State → State)
      (shows : ∀ k ∈ List.range 3, ∀ t, StartWork t (g k t)) : StartWork v (v.each (List.range 3) g) := .each shows
  unfold State.showCopies
  refine .trans (.trans (.trans (.trans (copies _ _ fun k mem t => ?_) (.put (by decide) _)) (.put (by decide) _)) (.put (by decide) _))
    (.put (by decide) _)
  obtain ⟨intact, newest, agrees, records⟩ := spare k mem
  exact (((StartWork.put intact _).trans (.put newest _)).trans (.put agrees _)).trans (.put records _)

end Sys2Proof.Machine
end

