-- ==== Sys2Proof/Proofs/SuppliesStartsAndCommits.lean ====
section
/-! PROOF. Cold and warm starts, supplies, standby and commits (O52). -/

namespace Sys2Proof.Machine
variable {s t u : State}

/-! ### What a cold start keeps -/

/-- Fields that are copied to another state: those of the list take their values, and no other changes. -/
theorem State.get_copied (s : State) {g : Fld} : ∀ (l : List Fld) (v : State), (∀ f ∈ l, f.key = g.key → f = g) →
    (v.each l fun f u => u.put f (s.get f)).get g = if g ∈ l then s.get g % 2 ^ g.w else v.get g
  | [], _, _ => (if_neg List.not_mem_nil).symm
  | f :: l, v, same => by
    obtain ⟨first, rest⟩ := List.forall_mem_cons.1 same
    refine (State.get_copied s l (v.put f (s.get f)) rest).trans ?_
    by_cases later : g ∈ l
    · rw [if_pos later, if_pos (List.mem_cons_of_mem f later)]
    · rw [if_neg later]
      by_cases own : g = f
      · subst own
        rw [if_pos List.mem_cons_self, State.get_put_same]
      · have other : g ∉ f :: l := fun mem => (List.mem_cons.1 mem).elim own later
        rw [if_neg other, State.get_put_ne v fun eq => own (first eq.symm).symm]

/-- The engine before start-up, without the registers that outlive it. -/
def State.afresh (s : State) : State :=
  { State.reset with
    pending := s.pending, ctr := s.ctr, hostMem := s.hostMem, host := { evRing := s.host.evRing },
    pwr := { copies := s.pwr.copies, house := s.pwr.house, sets := s.pwr.sets, library := s.pwr.library, fw := s.pwr.fw,
             vbatCount := s.pwr.vbatCount, wakeCause := s.pwr.wakeCause, started := true },
    trust := { identity := s.trust.identity, owner := s.trust.owner,
               policy := match s.trust.policyNext with | some p => some p.1 | none => s.trust.policy,
               claimCode := s.trust.claimCode, chain := s.trust.chain, macs := s.trust.macs, serial := s.trust.serial,
               digests := s.trust.digests },
    wl := { members := match s.trust.membersNext with | some l => Tab.ofList 0 l.1 | none => s.wl.members },
    store := { s.store with store := 0, drives := [], plays := [], moves := [], stopped := false, keys := none, issued := [] } }

theorem State.cleared_eq (s : State) : s.cleared = s.afresh.each keptFields fun f u => u.put f (s.get f) := rfl

/-- Where a start is judged from: LCS and the firmware's counter are kept, and no bit of recovery, restoration or hold. -/
theorem kept_fields : (∀ g ∈ [Reg.TRUST_STATE_LCS, Reg.TRUST_CTR_VALUE 0], g ∈ keptFields ∧ ∀ f ∈ keptFields, f.key = g.key → f = g) ∧
    (∀ g ∈ startBits, g ∉ keptFields ∧ ∀ f ∈ keptFields, f.key = g.key → f = g) ∧ ∀ g ∈ startBits, State.reset.get g = 0 := by
  decide +kernel

theorem State.cleared_shows (s : State) : s.cleared.pending = s.pending ∧ s.cleared.pwr.image = (s.pwr.copies, s.pwr.fw, true) ∧
    s.cleared.pwr.audio = false ∧ s.cleared.units = [] ∧
    (∀ g ∈ startBits, s.cleared.get g = 0) ∧ s.cleared.get Reg.TRUST_STATE_LCS = s.get Reg.TRUST_STATE_LCS % 2 ^ 3 ∧
    s.cleared.get (Reg.TRUST_CTR_VALUE 0) = s.get (Reg.TRUST_CTR_VALUE 0) % 2 ^ 64 := by
  obtain ⟨kept, bits, reset⟩ := kept_fields
  rw [State.cleared_eq]
  have same : (s.afresh.each keptFields fun f u => u.put f (s.get f)).pending = s.pending ∧
      (s.afresh.each keptFields fun f u => u.put f (s.get f)).pwr = s.afresh.pwr ∧
      (s.afresh.each keptFields fun f u => u.put f (s.get f)).units = [] :=
    State.each_keeps (fun t => t.pending = s.pending ∧ t.pwr = s.afresh.pwr ∧ t.units = []) (fun f u => u.put f (s.get f))
      (fun _ _ h => h) s.afresh keptFields ⟨rfl, rfl, rfl⟩
  obtain ⟨pending, pwr, units⟩ := same
  refine ⟨pending, congrArg PwrSt.image pwr, congrArg PwrSt.audio pwr, units, fun g mem => ?_, ?_, ?_⟩
  · rw [State.get_copied s keptFields s.afresh (bits g mem).2, if_neg (bits g mem).1]
    exact reset g mem
  · obtain ⟨mem, unique⟩ := kept _ List.mem_cons_self
    rw [State.get_copied s keptFields s.afresh unique, if_pos mem]
    rfl
  · obtain ⟨mem, unique⟩ := kept (Reg.TRUST_CTR_VALUE 0) (by simp)
    rw [State.get_copied s keptFields s.afresh unique, if_pos mem]
    rfl

/-- The state in which a cold start chooses its firmware. -/
def State.cold (s : State) (f : StartFacts) : State :=
  (s.cleared.putBit Reg.PWR_STATUS_WARM_LOST f.warmLost).put Reg.PWR_WARM_CNT_COUNT f.warm

theorem State.cold_work (s : State) (f : StartFacts) : StartWork s.cleared (s.cold f) :=
  .trans (.put (by decide) _) (.put (by decide) f.warm)

theorem State.cold_get (s : State) (f : StartFacts) : (s.cold f).get Reg.TRUST_STATE_LCS = s.get Reg.TRUST_STATE_LCS % 2 ^ 3 ∧
    (s.cold f).get (Reg.TRUST_CTR_VALUE 0) = s.get (Reg.TRUST_CTR_VALUE 0) % 2 ^ 64 := by
  obtain ⟨-, -, -, -, -, lcs, ctr⟩ := s.cleared_shows
  exact ⟨((State.get_put_ne _ (by decide) _).trans (State.get_put_ne _ (by decide) _)).trans lcs,
    ((State.get_put_ne _ (by decide) _).trans (State.get_put_ne _ (by decide) _)).trans ctr⟩

theorem State.cold_units (s : State) (f : StartFacts) : (s.cold f).units = [] ∧ (s.cold f).pwr.audio = false := by
  obtain ⟨-, -, audio, units, -⟩ := s.cleared_shows
  unfold State.cold
  generalize s.cleared = c at audio units ⊢
  exact ⟨units, audio⟩

/-- What the start does with the firmware that it has chosen. -/
def State.startFw (c : State) (f : StartFacts) (k : Nat) : State :=
  let c1 := (((c.put Reg.PWR_BISQUE_FW k).put Reg.GLOBAL_FW_VER_VERSION
    (Tab.get 0 c.pwr.fw k)).set Reg.CLK_STATUS_SPLL_LOCK).set Reg.CLK_STATUS_REFXO_OK
  let (pick, maj, st) := c1.chooseCopy f
  let c2 := c1.showCopies f pick maj st
  match pick with
  | some n => c2.startCopy n f k
  | none => c2.startHouse 0 f k st

theorem State.coldStart_eq (f : StartFacts) (life : s.get Reg.TRUST_STATE_LCS < 5) : s.coldStart f =
    match (s.cold f).pickFw f with
    | none => (s.cold f).set Reg.TRUST_STATE_RECOVERY
    | some k => (s.cold f).startFw f k := by
  have alive : (s.cold f).get Reg.TRUST_STATE_LCS ≠ 5 := by
    rw [(s.cold_get f).1]
    omega
  exact if_neg alive

theorem started_fw (c : State) (f : StartFacts) (k : Nat) :
    ∃ v, StartWork c v ∧ Started 0 (v.set Reg.GLOBAL_RESTORE_DONE) (c.startFw f k) := by
  have shown : StartWork c ((((c.put Reg.PWR_BISQUE_FW k).put Reg.GLOBAL_FW_VER_VERSION (Tab.get 0 c.pwr.fw k)).set
      Reg.CLK_STATUS_SPLL_LOCK).set Reg.CLK_STATUS_REFXO_OK) :=
    .trans (.trans (.trans (.put (by decide) _) (.put (by decide) _)) (.put (by decide) 1)) (.put (by decide) 1)
  unfold State.startFw
  dsimp only
  generalize (((c.put Reg.PWR_BISQUE_FW k).put Reg.GLOBAL_FW_VER_VERSION (Tab.get 0 c.pwr.fw k)).set
      Reg.CLK_STATUS_SPLL_LOCK).set Reg.CLK_STATUS_REFXO_OK = c1 at shown ⊢
  obtain ⟨pick, maj, st⟩ := c1.chooseCopy f
  dsimp only
  refine ⟨c1.showCopies f pick maj st, shown.trans (.showCopies ..), ?_⟩
  cases pick with
  | some n => exact started_copy _ n
  | none => exact started_house _

theorem Started.done {kind : Nat} (h : Started kind (s.set Reg.GLOBAL_RESTORE_DONE) t) : t.bit Reg.GLOBAL_RESTORE_DONE = true ∧
    t.bit Reg.TRUST_STATE_RECOVERY = s.bit Reg.TRUST_STATE_RECOVERY ∧ t.bit Reg.PWR_STATUS_HOLD = s.bit Reg.PWR_STATUS_HOLD :=
  ⟨(h.work.bit (by decide)).trans (State.bit_set_same s rfl), (h.work.bit (by decide)).trans (State.bit_put_ne s (by decide) 1),
    (h.work.bit (by decide)).trans (State.bit_put_ne s (by decide) 1)⟩

/-! ### Which firmware starts -/

theorem State.pickFw_none {f : StartFacts} (a : f.fwA = false) (b : f.fwB = false) : s.pickFw f = none := by
  have broken (k : Nat) : ((if k = 0 then f.fwA else f.fwB) &&
      decide (s.get (Reg.TRUST_CTR_VALUE 0) ≤ Tab.get 0 s.pwr.fw k)) = false := by
    rw [a, b, ite_self, Bool.false_and]
  unfold State.pickFw
  simp only [broken]
  rfl

theorem State.pickFw_some {f : StartFacts} (a : f.fwA = true) (fresh : s.get (Reg.TRUST_CTR_VALUE 0) ≤ Tab.get 0 s.pwr.fw 0) :
    ∃ k, s.pickFw f = some k := by
  have first : ((if 0 = 0 then f.fwA else f.fwB) && decide (s.get (Reg.TRUST_CTR_VALUE 0) ≤ Tab.get 0 s.pwr.fw 0)) = true := by
    rw [a, decide_eq_true fresh]
    rfl
  unfold State.pickFw
  dsimp only
  generalize (if s.bit Reg.TRUST_FW_TRY_OTHER then 1 - s.get Reg.TRUST_FW_CURRENT else s.get Reg.TRUST_FW_CURRENT) = k
  by_cases tried : ((if k = 0 then f.fwA else f.fwB) && decide (s.get (Reg.TRUST_CTR_VALUE 0) ≤ Tab.get 0 s.pwr.fw k)) = true
  · exact ⟨k, if_pos tried⟩
  · have other : 1 - k = 0 := by
      cases k with
      | zero => exact absurd first tried
      | succ k => omega
    rw [other]
    exact ⟨0, (if_neg tried).trans (if_pos first)⟩

theorem PwrSt.image_parts {p : PwrSt} {copies : Tab BisqueCopy} {fw : Tab Nat} {on : Bool} (eq : p.image = (copies, fw, on)) :
    p.copies = copies ∧ p.fw = fw ∧ p.started = on :=
  ⟨congrArg (fun x => x.1) eq, congrArg (fun x => x.2.1) eq, congrArg (fun x => x.2.2) eq⟩

/-- The state in which the firmware is chosen holds the image, and nothing of a start. -/
theorem State.cold_shows (s : State) (f : StartFacts) : (s.cold f).pending = s.pending ∧
    (s.cold f).pwr.image = (s.pwr.copies, s.pwr.fw, true) ∧ (s.cold f).bit Reg.TRUST_STATE_RECOVERY = false := by
  obtain ⟨pending, image, -, -, bits, -⟩ := s.cleared_shows
  have cold := s.cold_work f
  refine ⟨cold.pending.trans pending, cold.image.trans image, (cold.bit (by decide)).trans ?_⟩
  rw [State.bit, bits _ (by decide)]
  rfl

/-! ### Power-good -/

theorem exec_powerGood {f : StartFacts} (due : s.pwr.started = false ∨ s.pwr.standby = true ∨ s.bit Reg.PWR_STATUS_COLD_NEXT = true) :
    exec (.powerGood f) s = .next (s.coldStart f) := by
  refine congrArg Host.Outcome.next (if_pos ?_)
  rcases due with off | standby | lost
  · rw [off]; rfl
  · rw [standby, Bool.or_true]; rfl
  · rw [lost, Bool.or_true]

theorem powerGood_spec (f : StartFacts) (s : State) :
    (s.pwr.started = true → s.pwr.standby = false → s.bit Reg.PWR_STATUS_COLD_NEXT = false → exec (.powerGood f) s = .next s) ∧
    (s.pwr.started = false ∨ s.pwr.standby = true ∨ s.bit Reg.PWR_STATUS_COLD_NEXT = true → s.get Reg.TRUST_STATE_LCS < 5 →
      (f.fwA = false → f.fwB = false → ∃ t, exec (.powerGood f) s = .next t ∧ t.bit Reg.TRUST_STATE_RECOVERY = true ∧
        t.pwr.started = true ∧ t.pwr.audio = false ∧ t.pwr.copies = s.pwr.copies ∧ t.pending = s.pending ∧ t.units = []) ∧
      (f.fwA = true → s.get (Reg.TRUST_CTR_VALUE 0) ≤ Tab.get 0 s.pwr.fw 0 → ∃ t, exec (.powerGood f) s = .next t ∧
        t.bit Reg.TRUST_STATE_RECOVERY = false ∧ t.bit Reg.GLOBAL_RESTORE_DONE = true ∧ t.pwr.started = true ∧
        t.pwr.audio = true ∧ t.pwr.copies = s.pwr.copies ∧ t.pending = s.pending)) := by
  obtain ⟨pending, image, recovery⟩ := s.cold_shows f
  obtain ⟨units, audio⟩ := s.cold_units f
  obtain ⟨copies, versions, running⟩ := PwrSt.image_parts image
  have counter := (s.cold_get f).2
  refine ⟨fun started awake held => congrArg Host.Outcome.next (if_neg (by rw [started, awake, held]; decide)), fun due life => ?_⟩
  rw [exec_powerGood due, State.coldStart_eq f life]
  generalize s.cold f = c at pending image recovery units audio copies versions running counter ⊢
  refine ⟨fun a b => ⟨_, rfl, ?_⟩, fun a fresh => ⟨_, rfl, ?_⟩⟩
  · rw [State.pickFw_none a b]
    exact ⟨State.bit_set_same c rfl, running, audio, copies, pending, units⟩
  · obtain ⟨k, pick⟩ := c.pickFw_some a (by rw [versions, counter]; exact (Nat.mod_le _ _).trans fresh)
    rw [pick]
    dsimp only
    obtain ⟨v, shown, start⟩ := started_fw c f k
    obtain ⟨done, kept, -⟩ := start.done
    obtain ⟨copies', -, running'⟩ := PwrSt.image_parts (start.work.image.trans (shown.image.trans image))
    exact ⟨kept.trans ((shown.bit (by decide)).trans recovery), done, running', start.audio, copies',
      start.work.pending.trans (shown.pending.trans pending)⟩

/-! ### Recovery -/

/-- The engine with a firmware image in both copies. -/
def State.withImage (s : State) (sig : SigBlock) (l : List ProgImage) : State :=
  State.modPwr { s with trust := { s.trust with digests := Tab.put 0 (Tab.put 0 s.trust.digests 0 sig.digest) 1 sig.digest } } fun p =>
    { p with fw := Tab.put 0 (Tab.put 0 p.fw 0 sig.version) 1 sig.version, library := Tab.put [] (Tab.put [] p.library 0 l) 1 l }

theorem recoveryGo_spec (f : StartFacts) (image : Option ImageData) (s : State) :
    (s.get Reg.TRUST_STATE_LCS = 5 → exec (.recoveryGo image f) s = .next s) ∧
    (s.get Reg.TRUST_STATE_LCS ≠ 5 → s.bit Reg.TRUST_STATE_RECOVERY = false →
      exec (.recoveryGo image f) s = .next (s.put Reg.TRUST_STATE_CFG_REJ 1)) ∧
    (s.get Reg.TRUST_STATE_LCS ≠ 5 → s.bit Reg.TRUST_STATE_RECOVERY = true → exec (.recoveryGo none f) s =
      .next ((s.put Reg.TRUST_RCV_STATUS_STATE 3).put Reg.TRUST_RCV_STATUS_CODE 7)) ∧
    (∀ sig l, s.get Reg.TRUST_STATE_LCS < 5 → s.bit Reg.TRUST_STATE_RECOVERY = true → s.checkSig sig 8 = none →
      ∃ t, exec (.recoveryGo (some (.firmware sig l)) f) s = .next t ∧ t.pwr.started = true ∧ t.pending = s.pending ∧
        Tab.get 0 t.pwr.fw 0 = sig.version ∧ Tab.get 0 t.pwr.fw 1 = sig.version) := by
  refine ⟨fun retired => if_pos retired, fun life normal => (if_neg life).trans (if_pos (by rw [normal]; rfl)),
    fun life recovery => (if_neg life).trans (if_neg (by rw [recovery]; decide)), fun sig l life recovery valid => ?_⟩
  have eq : exec (.recoveryGo (some (.firmware sig l)) f) s = .next ((s.withImage sig l).coldStart f) := by
    refine (if_neg (Nat.ne_of_lt life)).trans ((if_neg (by rw [recovery]; decide)).trans ?_)
    dsimp only
    rw [valid]
    rfl
  refine ⟨_, eq, ?_⟩
  generalize fresh : s.withImage sig l = v
  have same : v.pending = s.pending ∧ v.get Reg.TRUST_STATE_LCS = s.get Reg.TRUST_STATE_LCS ∧ Tab.get 0 v.pwr.fw 0 = sig.version ∧
      Tab.get 0 v.pwr.fw 1 = sig.version := by
    rw [← fresh]
    refine ⟨rfl, rfl, ?_, ?_⟩
    · exact (Tab.get_put_ne 0 _ (by decide) _).trans (Tab.get_put_same 0 _ 0 _)
    · exact Tab.get_put_same 0 _ 1 _
  obtain ⟨queue, lcs, first, second⟩ := same
  obtain ⟨pending, image, -⟩ := v.cold_shows f
  rw [State.coldStart_eq f (by omega)]
  generalize v.cold f = c at pending image ⊢
  have ends : ∀ w : State, w.pending = v.pending → w.pwr.image = (v.pwr.copies, v.pwr.fw, true) → w.pwr.started = true ∧
      w.pending = s.pending ∧ Tab.get 0 w.pwr.fw 0 = sig.version ∧ Tab.get 0 w.pwr.fw 1 = sig.version := fun w waits holds => by
    obtain ⟨-, versions, running⟩ := PwrSt.image_parts holds
    rw [versions]
    exact ⟨running, waits.trans queue, first, second⟩
  split
  · exact ends _ pending image
  · next k _ =>
    obtain ⟨w, shown, start⟩ := started_fw c f k
    exact ends _ (start.work.pending.trans (shown.pending.trans pending)) (start.work.image.trans (shown.image.trans image))

/-! ### A warm restart -/

theorem StartWork.lateBefore (s : State) (d r : Nat) : StartWork s (s.lateBefore d r) := .ite (.same rfl rfl rfl) (.same rfl rfl rfl)

theorem StartWork.reopenGate (s : State) : StartWork s s.reopenGate :=
  .ite (.paired (by decide) (PairWork.openGate (l := gateRegs) (List.Subset.refl _) s)) .refl

/-- The domains begin again where they may, with what is held. -/
def State.resumed (s : State) (ns : Nat) : State :=
  ((s.put Reg.PWR_STATUS_HOLD 0).postNow .fault none 0x161 [6]).each ((List.range 3).filter fun d => (s.dom d).configured) fun d t =>
    let r := max (t.dom d).si (startSi ns (t.dom d).rate (t.dom d).block)
    ((t.modDom d fun y => { y with si := r, begun := max y.begun r }).lateBefore d r).modMix fun m =>
      { m with meters := m.meters.map fun x => (x.1, x.2.map fun y => { y with restart := true }) }

theorem State.resumed_work (s : State) (ns : Nat) : StartWork (s.put Reg.PWR_STATUS_HOLD 0) (s.resumed ns) := by
  refine .trans (.postNow ..) (.each fun d _ t => ?_)
  have began (f : DomSt → DomSt) : StartWork t (t.modDom d f) := .same rfl rfl rfl
  have metered (v : State) (f : MixSt → MixSt) : StartWork v (v.modMix f) := .same rfl rfl rfl
  exact ((began _).trans (.lateBefore ..)).trans (metered _ _)

theorem warmRestart_spec (f : StartFacts) (s : State) :
    (s.bit Reg.PWR_STATUS_HOLD = false ∨ s.bit Reg.PWR_STATUS_COLD_NEXT = true → exec (.warmRestart f) s = .next s) ∧
    (s.bit Reg.PWR_STATUS_HOLD = true → s.bit Reg.PWR_STATUS_COLD_NEXT = false → ∃ t, exec (.warmRestart f) s = .next t ∧
      t.bit Reg.PWR_STATUS_HOLD = false ∧ t.pwr.audio = true ∧ t.bit Reg.PWR_STATUS_START_KIND = true ∧ t.pending = s.pending) := by
  refine ⟨fun idle => if_pos ?_, fun held warm => ?_⟩
  · rcases idle with free | lost
    · rw [free]; rfl
    · rw [lost, Bool.or_true]
  have work : StartWork (s.put Reg.PWR_STATUS_HOLD 0) (s.resumed f.ns).startMplls := (s.resumed_work f.ns).trans (.startMplls _)
  have eq : exec (.warmRestart f) s = (match s.active with
      | none => .next (((s.resumed f.ns).startMplls.reopenGate).endStart 1 f (s.get Reg.PWR_BISQUE_FW) .ok)
      | some i =>
        match (s.resumed f.ns).startMplls.startRefused i with
        | some st => .next ((s.cleared.put Reg.PWR_BISQUE_FW (s.get Reg.PWR_BISQUE_FW)).startHouse 1 f (s.get Reg.PWR_BISQUE_FW) st)
        | none => .next (((s.resumed f.ns).startMplls.unmuteAll.reopenGate.each (List.range 2) fun c t =>
            if t.psEn c then t.psStart c else t).endStart 1 f (s.get Reg.PWR_BISQUE_FW) .ok)) :=
    if_neg (by rw [held, warm]; decide)
  rw [eq]
  generalize (s.resumed f.ns).startMplls = v at work ⊢
  have warmly {w : State} (start : Started 1 (s.put Reg.PWR_STATUS_HOLD 0) w) : w.bit Reg.PWR_STATUS_HOLD = false ∧ w.pwr.audio = true ∧
      w.bit Reg.PWR_STATUS_START_KIND = true ∧ w.pending = s.pending :=
    ⟨(start.work.bit (by decide)).trans (State.bit_put_same s rfl 0), start.audio, start.kind, start.work.pending⟩
  split
  · exact ⟨_, rfl, warmly ((work.trans (.reopenGate v)).endStart f _ .ok)⟩
  · split
    · next st _ =>
      obtain ⟨pending, -, -, -, bits, -⟩ := s.cleared_shows
      generalize s.cleared = c at pending bits ⊢
      have start : Started 1 ((c.put Reg.PWR_BISQUE_FW (s.get Reg.PWR_BISQUE_FW)).set Reg.GLOBAL_RESTORE_DONE)
          ((c.put Reg.PWR_BISQUE_FW (s.get Reg.PWR_BISQUE_FW)).startHouse 1 f (s.get Reg.PWR_BISQUE_FW) st) := started_house _
      have free : (c.put Reg.PWR_BISQUE_FW (s.get Reg.PWR_BISQUE_FW)).bit Reg.PWR_STATUS_HOLD = false := by
        rw [State.bit_put_ne c (by decide), State.bit, bits _ (by decide)]
        rfl
      exact ⟨_, rfl, start.done.2.2.trans free, start.audio, start.kind, start.work.pending.trans pending⟩
    · have stages (w : State) : StartWork w (w.each (List.range 2) fun c t => if t.psEn c then t.psStart c else t) :=
        .each fun c mem t => .ite (.psStart t ⟨c, List.mem_range.1 mem⟩) .refl
      exact ⟨_, rfl, warmly ((((work.trans (.unmuteAll v)).trans (.reopenGate _)).trans (stages _)).endStart f _ .ok)⟩

end Sys2Proof.Machine

namespace Sys2Proof.Machine

/-- Settles O52: every part of a start keeps the queue, the settings copies and the bits by which the start is judged, and ends with
first audio; a dip, a warning, a standby and an append are followed part by part. -/
theorem suppliesStartsAndCommits : Obligations.SuppliesStartsAndCommits := by
  unfold Obligations.SuppliesStartsAndCommits
  exact ⟨powerGood_spec, fun s => ⟨rfl, supplyDip_spec s⟩, warmRestart_spec,
    fun n r s => ⟨(powerFailWarning_spec n r s).1, (powerFailWarning_spec n r s).2, (warningEnd_spec s).1, (warningEnd_spec s).2⟩,
      vbat_spec,
    pwrStandby_spec, endRamps_spec, wake_spec, settingsAppend_spec, recoveryGo_spec⟩

end Sys2Proof.Machine
end
